-- ==== Sys2Proof/Word.lean ====
section
/-! DEFINITION. The word types of the machine and the one exact way of cutting a bit range out of a number (R3, R8). -/
namespace Sys2Proof

/-- A byte of any memory (R3). -/
abbrev Byte := BitVec 8
/-- A 32-bit word of an engine stream (R112). -/
abbrev Code := BitVec 32
/-- A scalar register, a status word or a system register (R44, R125). -/
abbrev Word := BitVec 64
/-- A mask register k0 to k7 (R44). -/
abbrev Mask := BitVec 512
/-- A vector register v0 to v63 (R44). -/
abbrev VReg := BitVec 4096
/-- A WA72 accumulator element (R87). -/
abbrev Wa := BitVec 72

/-- The slice `w[lo + len - 1 : lo]` of an unbounded number (R3, R8). -/
def bits (w lo len : Nat) : Nat := w / 2 ^ lo % 2 ^ len

/-- A `len`-bit field read as two's complement. -/
def sext (len v : Nat) : Int := if v < 2 ^ (len - 1) then (v : Int) else (v : Int) - 2 ^ len

/-- The `len`-bit two's complement field that holds `i` (R8: only the low bits are kept). -/
def field (len : Nat) (i : Int) : Nat := (i % 2 ^ len).toNat

end Sys2Proof
end

