-- ==== Sys2Proof/Syntax.lean ====
section
/-! DEFINITION. The instructions of the Thezar ISA and the operations and events of spec/opcode_table.json: one constructor per row. -/
namespace Sys2Proof

/-- The issue-control area of an engine order (Table 7.2, R116). -/
structure Ctl where
  tk : Nat
  gap : Nat
  tq : Nat
deriving DecidableEq, Repr

/-- The fields of a VX order in the general control layout (Table 10.2, R192). -/
structure VX where
  vd : Nat
  va : Nat
  vb : Nat
  ty : Nat
  km : Nat
  rm : Nat
  nosat : Nat
  vc : Nat
  opt : Nat
  ext : Nat
deriving DecidableEq, Repr

/-- The fields of a VX order that reaches tile SRAM (Table 10.7, R203, R204); `off` is {EXT, OFF}. -/
structure VMem where
  vd : Nat
  buf : Nat
  vi : Nat
  ty : Nat
  km : Nat
  path : Nat
  off : Nat
deriving DecidableEq, Repr

/-- The fields of VACC (Table 10.8, R206). -/
structure VAcc where
  vd : Nat
  acc : Nat
  row : Nat
  colh : Nat
  ty : Nat
  km : Nat
  rm : Nat
  nosat : Nat
  cls : Nat
deriving DecidableEq, Repr

/-- The fields of RANK (Table 10.9, R211); `off` is EXT. -/
structure VRank where
  vd : Nat
  va : Nat
  nblk : Nat
  ty : Nat
  km : Nat
  src : Nat
  km1 : Nat
  off : Nat
deriving DecidableEq, Repr

/-- The fields of RKVAL (Table 10.9, R212). -/
structure VRkval where
  vd : Nat
  vi : Nat
  vf : Nat
  ty : Nat
  kd : Nat
  nreg1 : Nat
  km1 : Nat
deriving DecidableEq, Repr

/-- The fields of CPIN and XFETCH (R222, R242). `x` is LAND for CPIN (0xFFFFFF: none) and, for XFETCH, the completion
word's handle plus one (0: none). -/
structure CopyIn where
  buf : Nat
  sw : Nat
  ovw : Nat
  idx : Nat
  h : Nat
  off : Nat
  x : Nat
deriving DecidableEq, Repr

/-- The fields of CPSLOT (R225). -/
structure CopySlot where
  slot : Nat
  sw : Nat
  idx : Nat
  h : Nat
  off : Nat
  land : Nat
deriving DecidableEq, Repr

/-- The fields of CPOUT and XPOST (R224, R241). `cw` is the completion word's handle plus one (0: none; CPOUT: 0). -/
structure CopyOut where
  buf : Nat
  sw : Nat
  idx : Nat
  h : Nat
  off : Nat
  cw : Nat
deriving DecidableEq, Repr

/-- The fields of ACQ and REL (R232, R233); `p` is the phase of the completion-word form. -/
structure SyncOp where
  sz : Nat
  boff : Nat
  sw : Nat
  buf : Nat
  p : Nat
  h : Nat
  off : Nat
deriving DecidableEq, Repr

/-- The fields of COLL (R243). -/
structure CollOp where
  sbuf : Nat
  sw : Nat
  dbuf : Nat
  ty : Nat
  opn : Nat
  ep : Nat
  group : Nat
  nch : Nat
  soff : Nat
  doff : Nat
deriving DecidableEq, Repr

/-- The fields of ATOM (R246); `uns` is 1 for the unsigned minimum and maximum (AOP 6, 7). -/
structure AtomOp where
  sz : Nat
  uns : Nat
  sw : Nat
  buf : Nat
  ret : Nat
  h : Nat
  off : Nat
  aoff : Nat
deriving DecidableEq, Repr

/-- The fields of VAOR, VAADD and VAMAX (R248). -/
structure VAtom where
  sw : Nat
  buf : Nat
  h : Nat
  nl1 : Nat
  ty : Nat
  ioff : Nat
  eoff : Nat
deriving DecidableEq, Repr

/-- The fields of SEND and RECV, SENDK and RECVK (R236, R239); `n1` is NW - 1 or K - 1. -/
structure Exch where
  buf : Nat
  n1 : Nat
  dx : Int
  dy : Int
  off : Nat
deriving DecidableEq, Repr

/-- The fields of MMA, MMAS and MMUL (R256, Table 14.3); `a`, `b`, `md` count 64-byte units. -/
structure MmaOp where
  shp : Nat
  acc : Nat
  f : Nat
  clr : Nat
  q : Nat
  part : Nat
  a : Nat
  b : Nat
  md : Nat
  sw : Nat
deriving DecidableEq, Repr

/-- The fields of RKMAC (Table 14.4, R260). -/
structure RkOp where
  wt : Nat
  acc : Nat
  nr1 : Nat
  clr : Nat
  row : Nat
  slot : Nat
  k1 : Nat
  sw : Nat
  buf : Nat
  off : Nat
deriving DecidableEq, Repr

/-- The instructions, operations and events of spec/opcode_table.json, in its order. -/
inductive Instr where
  -- register-to-register integer words (R149, R150)
  | add (rd rs rt : Nat) | sub (rd rs rt : Nat) | and (rd rs rt : Nat) | or (rd rs rt : Nat) | xor (rd rs rt : Nat)
  | shl (rd rs rt : Nat) | shr (rd rs rt : Nat) | sra (rd rs rt : Nat) | slt (rd rs rt : Nat) | sltn (rd rs rt : Nat)
  | min (rd rs rt : Nat) | max (rd rs rt : Nat) | minn (rd rs rt : Nat) | maxn (rd rs rt : Nat)
  | sel (rd rc rs rt : Nat)
  | clz (rd rs : Nat) | ctz (rd rs : Nat) | popc (rd rs : Nat) | brev (rd rs : Nat)
  | mul (rd rs rt : Nat) | mulh (rd rs rt : Nat) | mulhn (rd rs rt : Nat)
  | div (rd rs rt : Nat) | divn (rd rs rt : Nat) | rem (rd rs rt : Nat) | remn (rd rs rt : Nat)
  -- immediate words (R151 to R153); `imm` is the widened immediate extended to 64 bits
  | addi (rd rs : Nat) (imm : Word) | andi (rd rs : Nat) (imm : Word) | ori (rd rs : Nat) (imm : Word)
  | xori (rd rs : Nat) (imm : Word) | slti (rd rs : Nat) (imm : Word)
  | shli (rd rs n : Nat) | shri (rd rs n : Nat) | srai (rd rs n : Nat)
  | lui (rd imm : Nat)
  -- loads and stores of tile SRAM (R154)
  | ldb (rd rs buf : Nat) (disp : Int) | ldh (rd rs buf : Nat) (disp : Int)
  | ldw (rd rs buf : Nat) (disp : Int) | ldd (rd rs buf : Nat) (disp : Int)
  | ldbN (rd rs buf : Nat) (disp : Int) | ldhN (rd rs buf : Nat) (disp : Int) | ldwN (rd rs buf : Nat) (disp : Int)
  | stb (rd rs buf : Nat) (disp : Int) | sth (rd rs buf : Nat) (disp : Int)
  | stw (rd rs buf : Nat) (disp : Int) | std (rd rs buf : Nat) (disp : Int)
  -- branches, jumps and loops (R156 to R158)
  | beq (rs rt : Nat) (off : Int) | bne (rs rt : Nat) (off : Int) | blt (rs rt : Nat) (off : Int)
  | bge (rs rt : Nat) (off : Int) | bltn (rs rt : Nat) (off : Int) | bgen (rs rt : Nat) (off : Int)
  | jal (rd : Nat) (off : Word) | jalr (rd rs : Nat) (imm : Word) | loop (rs dist : Nat)
  -- engine control (R160)
  | estart (e rs cont : Nat) | estop (e : Nat) | ebase (e rs : Nat) | ebaseTarget (e target : Nat) | ewait (e : Nat) | rend
  -- schedule control (R164)
  | frame | seg (hstep : Nat) | colo (rd e : Nat) | waitc (t : Nat)
  -- synchronisation (R169)
  | bar (scope sw : Nat) | qfence (scope emask : Nat) | waitcw (sw p : Nat) | acommit (h : Nat) | adiscard (h : Nat)
  -- system words (R174)
  | nop | srd (rd reg : Nat) | swr (reg rs : Nat) | trap (code : Nat) | eret | time (rd : Nat)
  | snap (rs rt sw : Nat) | rollb (rs rt sw : Nat) | keyz (rs sw : Nat)
  | ldsys (rd rs : Nat) (disp : Int) | stsys (rt rs : Nat) (disp : Int) | halt
  -- STAMP (R30)
  | stampFrame (t : Nat) | stampSeg (t : Nat)
  -- engine-format words of SQ and MX (R261)
  | fmtset (c : Ctl) (f rs : Nat) | fmtsetMx (c : Ctl) (f value : Nat)
  | nestcfg (c : Ctl) (reg rs : Nat) | nestcfgMx (c : Ctl) (reg value : Nat)
  -- vector orders (R194 to R212)
  | vadd (c : Ctl) (x : VX) | vsub (c : Ctl) (x : VX) | vmul (c : Ctl) (x : VX) | vfma (c : Ctl) (x : VX)
  | vfms (c : Ctl) (x : VX) | vmin (c : Ctl) (x : VX) | vmax (c : Ctl) (x : VX) | vabs (c : Ctl) (x : VX)
  | vneg (c : Ctl) (x : VX) | vdiv (c : Ctl) (x : VX)
  | vrsqrt (c : Ctl) (x : VX) | vexp2 (c : Ctl) (x : VX) | vlog2 (c : Ctl) (x : VX) | vsigm (c : Ctl) (x : VX) | vtanh (c : Ctl) (x : VX)
  | vcmp (c : Ctl) (x : VX) | vsel (c : Ctl) (x : VX) | vand (c : Ctl) (x : VX) | vor (c : Ctl) (x : VX) | vxor (c : Ctl) (x : VX)
  | vnot (c : Ctl) (x : VX) | vshl (c : Ctl) (x : VX) | vshr (c : Ctl) (x : VX) | vsra (c : Ctl) (x : VX) | vmulhi (c : Ctl) (x : VX)
  | vcvt (c : Ctl) (x : VX) | vpack (c : Ctl) (x : VX) | vunpk (c : Ctl) (x : VX)
  | vperm (c : Ctl) (x : VX) | vbcast (c : Ctl) (x : VX)
  | vmovkAnd (c : Ctl) (x : VX) | vmovkOr (c : Ctl) (x : VX) | vmovkXor (c : Ctl) (x : VX) | vmovkNot (c : Ctl) (x : VX)
  | vmovkKv (c : Ctl) (x : VX) | vmovkVk (c : Ctl) (x : VX) | vmovkVq (c : Ctl) (x : VX) | vmovkQv (c : Ctl) (x : VX)
  | vredsum (c : Ctl) (x : VX) | vredmax (c : Ctl) (x : VX)
  | vld (c : Ctl) (m : VMem) | vst (c : Ctl) (m : VMem) | vldx (c : Ctl) (m : VMem) | vstx (c : Ctl) (m : VMem)
  | vbfx (c : Ctl) (m : VMem) | bfxcfg (c : Ctl) (m : VMem)
  | vacc (c : Ctl) (a : VAcc)
  | vaddm (c : Ctl) (x : VX) | vsubm (c : Ctl) (x : VX) | vmulm (c : Ctl) (x : VX)
  | vntt (c : Ctl) (x : VX) | vintt (c : Ctl) (x : VX)
  | vhash (c : Ctl) (x : VX) | vseed (c : Ctl) (x : VX)
  | rank (c : Ctl) (r : VRank) | rkval (c : Ctl) (r : VRkval)
  -- movement orders (R222 to R248)
  | cpin (c : Ctl) (o : CopyIn) | cpslot (c : Ctl) (o : CopySlot) | xfetch (c : Ctl) (o : CopyIn)
  | acq (c : Ctl) (o : SyncOp) | acqCw (c : Ctl) (o : SyncOp)
  | cpout (c : Ctl) (o : CopyOut) | cpoutFlush (c : Ctl) (buf sw : Nat) | rel (c : Ctl) (o : SyncOp)
  | xpost (c : Ctl) (o : CopyOut) | coll (c : Ctl) (o : CollOp)
  | atomAdd (c : Ctl) (o : AtomOp) | atomAnd (c : Ctl) (o : AtomOp) | atomOr (c : Ctl) (o : AtomOp) | atomXor (c : Ctl) (o : AtomOp)
  | atomMin (c : Ctl) (o : AtomOp) | atomMax (c : Ctl) (o : AtomOp) | atomSwap (c : Ctl) (o : AtomOp) | atomCas (c : Ctl) (o : AtomOp)
  | atomFadd (c : Ctl) (o : AtomOp)
  | vaor (c : Ctl) (o : VAtom) | vaadd (c : Ctl) (o : VAtom) | vamax (c : Ctl) (o : VAtom)
  | bind (c : Ctl) (buf sw h : Nat) | unbind (c : Ctl) (buf sw : Nat)
  | bstateEmpty (c : Ctl) (buf : Nat) | bstateFull (c : Ctl) (buf : Nat)
  | lrflush (c : Ctl) (sw h : Nat) | lrflushFetch (c : Ctl) (sw h : Nat)
  | bindso (c : Ctl) (sw scope hr ho : Nat) | bindsoRemove (c : Ctl) (sw hr ho : Nat)
  | qfenceCico (c : Ctl) (scope emask : Nat)
  | send (c : Ctl) (o : Exch) | recv (c : Ctl) (o : Exch) | sendk (c : Ctl) (o : Exch) | recvk (c : Ctl) (o : Exch)
  -- matrix orders (R256 to R272)
  | mma (c : Ctl) (o : MmaOp) | mmas (c : Ctl) (o : MmaOp) | mmul (c : Ctl) (o : MmaOp) | rkmac (c : Ctl) (o : RkOp)
  | oclaim (c : Ctl) (slot : Nat) | orelease (c : Ctl) (slot : Nat)
  | oload (c : Ctl) (slot bfx doff nb1 buf off : Nat)
  | aclr (c : Ctl) (amask : Nat)
  | amov (c : Ctl) (ad asrc : Nat) | amovAdd (c : Ctl) (ad asrc cls q : Nat) | amovMerge (c : Ctl) (ad asrc : Nat)
  | aout (c : Ctl) (acc f nrows1 rbase buf off : Nat) | astow (c : Ctl) (acc buf off : Nat) | arestore (c : Ctl) (acc buf off : Nat)
  | nestgo (c : Ctl) (shp acc clrmask sw a b : Nat) | mxwait (c : Ctl)
  | rkloadAtt (c : Ctl) (buf off : Nat) | rkloadRct (c : Ctl) (buf off : Nat)
  -- operations and events without an encoding; `slot` is a Harness slot, `t` an abstract tile of its region, `id` a record's number,
  -- `job` a job's key: its JOBID times 64, plus its world
  | orderRetire (slot t id : Nat)
  | layoutRecordFetch (slot t eng : Nat)
  | fillComplete (slot t id : Nat) | drainComplete (slot t id : Nat) | landing (slot t id : Nat) | late (slot : Nat)
  | bytesPerformed (slot t id : Nat) | remoteTimeout (slot t id : Nat)
  | transferArrival (slot t : Nat)
  | syeOperation (slot t id : Nat) | relFenceRelease (slot t id : Nat)
  | xpostArrival (msg : Nat) | hostRemoteAtomic (va op opd cmp vif : Nat)
  | preemptStop (slot t : Nat) | maxpd (slot : Nat) | stowSave (slot : Nat)
  | stow (slot evict : Nat) | resume (slot px py orient : Nat) | thaw (slot : Nat) | replay (slot : Nat) | freeze (slot : Nat)
  | abort (slot reason : Nat) | segmentReplay (slot : Nat) | clockChange (slot : Nat)
  | margin (tile : Nat) | marginTileFail (tile : Nat) | healthBitClear (tile bit : Nat)
  | scrubPatrol (src at_ kind : Nat) | evqRead (core : Nat) | ccInterrupt (core : Nat)
  | translationWalk (slot va kind : Nat) | walkWatchdog (walker : Nat) | shootdown (core : Nat) | shootdownAck (unit : Nat)
  | potAssign (w page npg : Nat) | potRelease (w page npg : Nat) | potBounce (w page npg : Nat) | potUnbounce (w page npg : Nat)
  | pageScrubComplete (page : Nat) | tileScrub (tile : Nat) | keyGen (w : Nat) | linkTagFail (pa again : Nat)
  | getVersion (vif : Nat) | getCapabilities (vif : Nat) | negotiateAlgorithms (vif algs : Nat) | getDigests (vif : Nat)
  | getCertificate (vif slot : Nat) | challenge (vif nonce : Nat) | getMeasurements (vif nonce : Nat) | keyExchange (vif share : Nat)
  | finish (vif mac : Nat) | heartbeat (vif : Nat) | keyUpdate (vif : Nat) | endSession (vif : Nat) | chunkGet (vif handle : Nat)
  | deposit (vif va : Nat) (data : List Byte) | bckey (vif chan key : Nat) | unsupportedRequest (vif code : Nat)
  | bounceEnable (chan : Nat) | bounceFrameIn (chan : Nat) | bounceFrameOut (chan : Nat)
  | powerShed | powerRestore
  | queueWrite (vif off : Nat) (data : List Byte) | vifqEnable (vif : Nat) | vifqDisable (vif : Nat)
  | launch (vif : Nat) | cancel (vif : Nat) | release (vif : Nat) | pad (vif : Nat) | placeInstance
  | snareaWrite (value : Nat) | regionCut (slot : Nat) | bookmark (job id src : Nat) | jobMessageArrival (msg : Nat)
  | cutReport (job id src : Nat) | commit (job id : Nat) | snapshotAbort (job id : Nat) | snapshotTimeout (job id : Nat)
  | pageCopy (page : Nat) | bufferCopy (slot t b : Nat) | rollbackMarker (job id src : Nat)
  | flitReceive (port : Nat) (flit : List Byte) | collContribution (coll rank : Nat) (data : List Byte) | collAbandon (coll : Nat)
  | ethFrameReceive (port transport endpoint : Nat) (data : List Byte) | ethPortDown (port : Nat) | timebasePulse
  | coldReset | warmReset | hbmChannelTraining (chan rdlo rdhi wrlo wrhi : Nat) (weak : List Nat) (confirm : Nat)
  | uecDataWrite (vif va : Nat) (data : List Byte) | fabricWindowAccess (world pa : Nat) (write : Nat) (data : List Byte)
  | guestTableChange (vif pa value : Nat) | keyzComplete (w : Nat) | ethPortUp (port : Nat) | configStoreUpdate (pkg sigs : Nat)
deriving DecidableEq, Repr

end Sys2Proof
end

