-- ==== Sys2Proof/WellFormed.lean ====
section
/-! DEFINITION. Which instructions are encodable: every field within its width, unused fields zero, reserved values absent (R114 to R124 and the entries). -/
namespace Sys2Proof

/-- The width in bits of an element of a lane type, 0 for a type that is no lane type (Table 5.1, R186). -/
def laneWidth (ty : Nat) : Nat :=
  match ty with
  | 0x00 => 32 | 0x01 => 16 | 0x02 => 16 | 0x03 => 8 | 0x04 => 8
  | 0x0A => 8 | 0x0B => 8 | 0x0C => 16 | 0x0D => 16 | 0x0E => 32 | 0x0F => 32 | 0x10 => 64 | 0x11 => 64 | 0x12 => 64
  | _ => 0

/-- A lane type (R186). -/
def isLane (ty : Nat) : Bool := laneWidth ty != 0
/-- .f32, .f16 or .bf16. -/
def isFloat3 (ty : Nat) : Bool := ty ≤ 2
/-- A floating-point lane type, .f32 to .e5m2. -/
def isFloatLane (ty : Nat) : Bool := ty ≤ 4
/-- An integer lane type, .i8 to .n64. -/
def isIntLane (ty : Nat) : Bool := 0x0A ≤ ty && ty ≤ 0x11
/-- The number of lanes of a lane type (R186). -/
def laneCount (ty : Nat) : Nat := 4096 / laneWidth ty

/-- Table 7.2: a TQ value without a TK request is reserved (R116), and so are the engine codes 6 and 7 (Table 7.4). -/
def Ctl.wf (c : Ctl) : Bool := c.tk < 4 && c.gap < 8 && c.tq < 6 && (c.tk != 0 || c.tq == 0)

/-- Field widths of Table 10.2; two extension words only where `two` says so (Table 10.3). -/
def VX.wf (x : VX) (two : Bool) : Bool :=
  x.vd < 64 && x.va < 64 && x.vb < 64 && x.ty < 32 && x.km < 8 && x.rm < 8 && x.nosat < 2 && x.vc < 64 && x.opt < 16 &&
  (if two then x.ext < 2 ^ 26 else x.ext == 0)

/-- MAJ 0x2D (R194). Float VABS and VNEG, which round nothing, take the RM values of the others. Notes: log entry 50. -/
def VX.wfArith (x : VX) (unary fused noInt : Bool) : Bool :=
  x.wf false && x.nosat == 0 && (!unary || x.vb == 0) && (fused || x.vc == 0) &&
  ((isFloat3 x.ty && x.opt == 0 && x.rm ≤ 4) || (isIntLane x.ty && !noInt && x.rm == 0 && x.opt ≤ 1))

/-- MAJ 0x2E (R195). -/
def VX.wfTrans (x : VX) : Bool :=
  x.wf false && isFloat3 x.ty && x.rm == 0 && x.nosat == 0 && x.vb == 0 && x.vc == 0 && x.opt == 0

/-- The logic, shift and select orders of MAJ 0x2F (R197). -/
def VX.wfLogic (x : VX) : Bool :=
  x.wf false && isLane x.ty && x.rm == 0 && x.nosat == 0 && x.vc == 0 && x.opt == 0

/-- MAJ 0x36 (R207). -/
def VX.wfMod (x : VX) : Bool := x.wf false && x.ty == 0x12 && x.nosat == 0 && x.vc == 0 && x.opt == 0

/-- MAJ 0x37 (R208). -/
def VX.wfNtt (x : VX) : Bool :=
  x.wf false && x.ty == 0x12 && x.nosat == 0 && x.opt ≤ 6 && (x.opt == 6 || x.vb == 0)

/-- The legal pairs of Table 10.5 with the limit of the group number (R199): `b` packed, `t` unpacked. -/
def packOk (b t g : Nat) : Bool :=
  (b == 0x05 && t == 0x00 && g ≤ 2) || (b == 0x06 && t == 0x00 && g ≤ 6) || (b == 0x07 && t == 0x00 && g ≤ 6) ||
  ((b == 0x08 || b == 0x09) && t == 0x0E && g ≤ 7)

/-- VMOVK (R201): `a` to `c` say whether VD, VA and VB name one of eight registers. -/
def VX.wfMovk (x : VX) (opt : Nat) (d8 a8 b8 : Bool) : Bool :=
  x.wf false && x.ty == 0 && x.km == 0 && x.rm == 0 && x.nosat == 0 && x.vc == 0 && x.opt == opt &&
  (!d8 || x.vd < 8) && (!a8 || x.va < 8) && (if b8 then x.vb < 8 else x.vb == 0)

/-- Table 10.7. -/
def VMem.wf (m : VMem) : Bool :=
  m.vd < 64 && m.buf < 64 && m.vi < 64 && m.ty < 32 && m.km < 8 && m.path < 2 && m.off < 2 ^ 36

/-- A VX memory order of MAJ 0x33 (R203). -/
def VMem.wfLd (m : VMem) (indexed : Bool) : Bool :=
  m.wf && m.path == 0 && isLane m.ty && (if indexed then 32 ≤ laneWidth m.ty else m.vi == 0)

/-- A 16-, 32- or 64-bit unit of CPIN and XFETCH (R222). -/
def CopyIn.wf (o : CopyIn) : Bool :=
  o.buf < 64 && o.sw < 32 && o.ovw < 2 && o.idx < 64 && o.h < 4096 && o.off < 2 ^ 14

/-- CPOUT and XPOST (R224, R241). -/
def CopyOut.wf (o : CopyOut) : Bool := o.buf < 64 && o.sw < 32 && o.idx < 64 && o.h < 4096 && o.off < 2 ^ 14

/-- ACQ and REL (R232, R233). -/
def SyncOp.wf (o : SyncOp) : Bool :=
  o.sz < 4 && o.boff < 8 && o.boff % 2 ^ o.sz == 0 && o.sw < 32 && o.buf < 64 && o.p < 2 && o.h < 4096 && o.off < 2 ^ 14

/-- ATOM (R246). -/
def AtomOp.wf (o : AtomOp) : Bool :=
  o.sz < 4 && o.uns < 2 && o.sw < 32 && o.buf < 64 && o.ret < 2 && o.h < 4096 && o.off < 2 ^ 14 && o.aoff < 2 ^ 26

/-- VAOR, VAADD and VAMAX (R248). -/
def VAtom.wf (o : VAtom) : Bool :=
  o.sw < 32 && o.buf < 64 && o.h < 4096 && o.nl1 < 128 && o.ty < 32 && o.ioff < 2 ^ 13 && o.eoff < 2 ^ 13

/-- SEND and RECV (R236), SENDK and RECVK (R239). -/
def Exch.wf (o : Exch) (rk : Bool) : Bool :=
  o.buf < 64 && -64 ≤ o.dx && o.dx < 64 && -32 ≤ o.dy && o.dy < 32 &&
  (if rk then o.n1 < 256 && o.off < 2 ^ 13 else o.n1 < 32 && o.off < 2 ^ 19)

/-- MMA, MMAS and MMUL (R256): PART names a partner only for a shadow accumulator. -/
def MmaOp.wf (o : MmaOp) : Bool :=
  o.shp < 8 && o.acc < 6 && o.f < 16 && o.clr < 2 && o.q < 8 && o.part < 4 && (4 ≤ o.acc || o.part == 0) &&
  o.a < 2 ^ 13 && o.b < 2 ^ 13 && o.md < 2 ^ 13 && o.sw < 32

def sr3 (rd rs rt : Nat) : Bool := rd < 32 && rs < 32 && rt < 32
def ldst (rd rs buf : Nat) (disp : Int) : Bool :=
  rd < 32 && rs < 32 && buf < 64 && -(2 ^ 33 : Int) ≤ disp && disp < (2 ^ 33 : Int)
def brOk (rs rt : Nat) (off : Int) : Bool := rs < 32 && rt < 32 && -(2 ^ 37 : Int) ≤ off && off < (2 ^ 37 : Int)
/-- The immediate of ANDI, ORI and XORI is zero-extended, so two extension words reach every value (R151). -/
def siOk (rd rs : Nat) : Bool := rd < 32 && rs < 32

/-- The instruction can be encoded (R112: it matches an assigned encoding). Events and operations have no encoding. A
GAP other than 0 in MAJ 0x3B without prefixes is taken as a reserved encoding. Notes: log entry 51. -/
def Instr.wf : Instr → Bool
  | .add d s t => sr3 d s t | .sub d s t => sr3 d s t | .and d s t => sr3 d s t | .or d s t => sr3 d s t | .xor d s t => sr3 d s t
  | .shl d s t => sr3 d s t | .shr d s t => sr3 d s t | .sra d s t => sr3 d s t | .slt d s t => sr3 d s t | .sltn d s t => sr3 d s t
  | .min d s t => sr3 d s t | .max d s t => sr3 d s t | .minn d s t => sr3 d s t | .maxn d s t => sr3 d s t
  | .sel d c s t => sr3 d s t && c < 32
  | .clz d s => siOk d s | .ctz d s => siOk d s | .popc d s => siOk d s | .brev d s => siOk d s
  | .mul d s t => sr3 d s t | .mulh d s t => sr3 d s t | .mulhn d s t => sr3 d s t
  | .div d s t => sr3 d s t | .divn d s t => sr3 d s t | .rem d s t => sr3 d s t | .remn d s t => sr3 d s t
  | .addi d s _ => siOk d s | .andi d s _ => siOk d s | .ori d s _ => siOk d s | .xori d s _ => siOk d s | .slti d s _ => siOk d s
  | .shli d s n => siOk d s && n < 64 | .shri d s n => siOk d s && n < 64 | .srai d s n => siOk d s && n < 64
  | .lui d i => d < 32 && i < 2 ^ 16
  | .ldb d s b o => ldst d s b o | .ldh d s b o => ldst d s b o | .ldw d s b o => ldst d s b o | .ldd d s b o => ldst d s b o
  | .ldbN d s b o => ldst d s b o | .ldhN d s b o => ldst d s b o | .ldwN d s b o => ldst d s b o
  | .stb d s b o => ldst d s b o | .sth d s b o => ldst d s b o | .stw d s b o => ldst d s b o | .std d s b o => ldst d s b o
  | .beq s t o => brOk s t o | .bne s t o => brOk s t o | .blt s t o => brOk s t o
  | .bge s t o => brOk s t o | .bltn s t o => brOk s t o | .bgen s t o => brOk s t o
  | .jal d _ => d < 32 | .jalr d s _ => siOk d s | .loop s n => s < 32 && 1 ≤ n && n < 2 ^ 16
  | .estart e s c => 1 ≤ e && e ≤ 5 && s < 32 && c < 2 | .estop e => 1 ≤ e && e ≤ 5
  | .ebase e s => 1 ≤ e && e ≤ 5 && s < 32 | .ebaseTarget e t => 1 ≤ e && e ≤ 5 && t < 2 ^ 16
  | .ewait e => 1 ≤ e && e ≤ 5 | .rend => true
  | .frame => true | .seg h => h < 2 ^ 11 | .colo d e => d < 32 && e ≤ 5 | .waitc t => t < 2 ^ 44
  | .bar s w => 1 ≤ s && s ≤ 6 && w < 32 && (s == 6 || w == 0) | .qfence s m => 1 ≤ s && s ≤ 6 && 1 ≤ m && m < 64
  | .waitcw w p => w < 32 && p < 2 | .acommit h => h == 4 || h == 5 | .adiscard h => h == 4 || h == 5
  | .nop => true | .srd d r => d < 32 && r < 2 ^ 12 | .swr r s => s < 32 && r < 2 ^ 12 | .trap c => c < 2 ^ 16 | .eret => true
  | .time d => d < 32 | .snap s t w => sr3 s t w | .rollb s t w => sr3 s t w | .keyz s w => siOk s w
  | .ldsys d s o => siOk d s && -128 ≤ o && o < 128 | .stsys t s o => siOk t s && -128 ≤ o && o < 128 | .halt => true
  | .stampFrame t => t < 2 ^ 24 | .stampSeg t => t < 2 ^ 24
  | .fmtset c f s => c.wf && c.gap == 0 && f < 16 && s < 32 | .fmtsetMx c f v => c.wf && f < 16 && v < 2 ^ 32
  | .nestcfg c r s => c.wf && c.gap == 0 && r ≤ 6 && s < 32 | .nestcfgMx c r v => c.wf && r ≤ 6 && v < 2 ^ 64
  | .vadd c x => c.wf && x.wfArith false false false | .vsub c x => c.wf && x.wfArith false false false
  | .vmul c x => c.wf && x.wfArith false false false | .vfma c x => c.wf && x.wfArith false true false
  | .vfms c x => c.wf && x.wfArith false true false | .vmin c x => c.wf && x.wfArith false false false
  | .vmax c x => c.wf && x.wfArith false false false | .vabs c x => c.wf && x.wfArith true false false
  | .vneg c x => c.wf && x.wfArith true false false | .vdiv c x => c.wf && x.wfArith false false true
  | .vrsqrt c x => c.wf && x.wfTrans | .vexp2 c x => c.wf && x.wfTrans | .vlog2 c x => c.wf && x.wfTrans
  | .vsigm c x => c.wf && x.wfTrans | .vtanh c x => c.wf && x.wfTrans
  | .vcmp c x => c.wf && x.wf false && isLane x.ty && x.vd < 8 && x.rm == 0 && x.nosat == 0 && x.vc == 0 &&
      x.opt ≤ 7 && (isFloatLane x.ty || x.opt ≤ 5)
  | .vsel c x => c.wf && x.wfLogic | .vand c x => c.wf && x.wfLogic | .vor c x => c.wf && x.wfLogic | .vxor c x => c.wf && x.wfLogic
  | .vnot c x => c.wf && x.wfLogic && x.vb == 0
  | .vshl c x => c.wf && x.wfLogic && isIntLane x.ty | .vshr c x => c.wf && x.wfLogic && isIntLane x.ty
  | .vsra c x => c.wf && x.wfLogic && isIntLane x.ty | .vmulhi c x => c.wf && x.wfLogic && isIntLane x.ty
  | .vcvt c x => c.wf && x.wf false && isLane x.ty && x.ty != 0x12 && isLane x.vc && x.vb == 0 && x.rm ≤ 4 &&
      x.opt * Nat.min (laneCount x.ty) (laneCount x.vc) < Nat.max (laneCount x.ty) (laneCount x.vc)
  | .vpack c x => c.wf && x.wf false && packOk x.vc x.ty x.opt && x.vb == 0 && x.km == 0 && x.nosat == 0 &&
      (if x.vc == 8 || x.vc == 9 then x.rm ≤ 4 else x.rm == 0)
  | .vunpk c x => c.wf && x.wf false && packOk x.vc x.ty x.opt && x.vb == 0 && x.km == 0 && x.nosat == 0 && x.rm ≤ 4
  | .vperm c x => c.wf && x.wfLogic && 16 ≤ laneWidth x.ty
  | .vbcast c x => c.wf && x.wf true && x.ext < 8 && isLane x.ty && x.rm == 0 && x.nosat == 0 && x.vc == 0 && x.opt == 0
  | .vmovkAnd c x => c.wf && x.wfMovk 0 true true true | .vmovkOr c x => c.wf && x.wfMovk 1 true true true
  | .vmovkXor c x => c.wf && x.wfMovk 2 true true true | .vmovkNot c x => c.wf && x.wfMovk 3 true true false
  | .vmovkKv c x => c.wf && x.wfMovk 4 false true false | .vmovkVk c x => c.wf && x.wfMovk 5 true false false
  | .vmovkVq c x => c.wf && x.wfMovk 6 true false false | .vmovkQv c x => c.wf && x.wfMovk 7 false true false
  | .vredsum c x => c.wf && x.wf false && x.nosat == 0 && x.vb == 0 && x.vc == 0 && x.opt == 0 &&
      ((isFloat3 x.ty && x.rm ≤ 4) || (isIntLane x.ty && x.rm == 0))
  | .vredmax c x => c.wf && x.wf false && x.nosat == 0 && x.vb == 0 && x.vc == 0 && x.opt == 0 && x.rm == 0 &&
      (isFloat3 x.ty || isIntLane x.ty)
  | .vld c m => c.wf && m.wfLd false | .vst c m => c.wf && m.wfLd false
  | .vldx c m => c.wf && m.wfLd true | .vstx c m => c.wf && m.wfLd true
  | .vbfx c m => c.wf && m.wf && m.path == 0 && m.ty == 0 && m.vi == 0
  | .bfxcfg c m => c.wf && m.wf && m.vd == 0 && m.vi == 0 && m.km == 0 && m.ty < 0x14
  | .vacc c a => c.wf && a.vd < 64 && a.acc < 6 && a.row < 128 && a.colh < 2 && isLane a.ty && a.km < 8 && a.rm ≤ 4 &&
      a.nosat < 2 && a.cls ≤ 2 && (a.ty != 0x12 || (a.cls == 2 && a.rm == 0 && a.nosat == 0))
  | .vaddm c x => c.wf && x.wfMod | .vsubm c x => c.wf && x.wfMod | .vmulm c x => c.wf && x.wfMod
  | .vntt c x => c.wf && x.wfNtt | .vintt c x => c.wf && x.wfNtt
  | .vhash c x => c.wf && x.wf false && (x.ty == 0x0F || x.ty == 0x11) && x.rm == 0 && x.nosat == 0 && x.opt == 0 && x.vb == 0
  | .vseed c x => c.wf && x.wf false && x.vd == 0 && x.vb == 0 && x.ty == 0 && x.km == 0 && x.rm == 0 && x.nosat == 0 &&
      x.vc == 0 && x.opt == 0
  | .rank c r => c.wf && r.vd < 64 && r.va < 64 && r.nblk < 64 && r.ty ≤ 3 && r.km < 8 && r.src < 2 && r.km1 < 256 &&
      (if r.src == 1 then r.off < 2 ^ 26 else r.off == 0)
  | .rkval c r => c.wf && r.vd < 64 && r.vi < 64 && r.vf < 64 && r.ty ≤ 1 && r.kd < 8 && r.nreg1 < 16 && r.km1 < 256
  | .cpin c o => c.wf && o.wf && o.x < 2 ^ 24 | .xfetch c o => c.wf && o.wf && o.x ≤ 4096
  | .cpslot c o => c.wf && o.slot < 16 && o.sw < 32 && o.idx < 64 && o.h < 4096 && o.off < 128 && o.land < 2 ^ 24
  | .acq c o => c.wf && o.wf && o.p == 0 | .acqCw c o => c.wf && o.wf && o.sz == 3 | .rel c o => c.wf && o.wf && o.p == 0
  | .cpout c o => c.wf && o.wf && o.cw == 0 | .xpost c o => c.wf && o.wf && o.cw ≤ 4096
  | .cpoutFlush c b w => c.wf && b < 64 && w < 32
  | .coll c o => c.wf && o.sbuf < 64 && o.sw < 32 && o.dbuf < 64 && (isFloat3 o.ty || (0x0E ≤ o.ty && o.ty ≤ 0x11)) && o.opn ≤ 2 &&
      o.ep < 2 && o.group < 64 && o.nch < 4096 && o.soff < 2 ^ 13 && o.doff < 2 ^ 13
  | .atomAdd c o => c.wf && o.wf && o.uns == 0 | .atomAnd c o => c.wf && o.wf && o.uns == 0
  | .atomOr c o => c.wf && o.wf && o.uns == 0 | .atomXor c o => c.wf && o.wf && o.uns == 0
  | .atomMin c o => c.wf && o.wf | .atomMax c o => c.wf && o.wf
  | .atomSwap c o => c.wf && o.wf && o.uns == 0 | .atomCas c o => c.wf && o.wf && o.uns == 0
  | .atomFadd c o => c.wf && o.wf && o.uns == 0 && (o.sz == 1 || o.sz == 2)
  | .vaor c o => c.wf && o.wf && (o.ty == 0x0B || o.ty == 0x0D || o.ty == 0x0F || o.ty == 0x11)
  | .vaadd c o => c.wf && o.wf && (o.ty == 0 || (0x0E ≤ o.ty && o.ty ≤ 0x11))
  | .vamax c o => c.wf && o.wf && (0x0E ≤ o.ty && o.ty ≤ 0x11)
  | .bind c b w h => c.wf && b < 64 && w < 32 && h < 4096 | .unbind c b w => c.wf && b < 64 && w < 32
  | .bstateEmpty c b => c.wf && b < 64 | .bstateFull c b => c.wf && b < 64
  | .lrflush c w h => c.wf && w < 32 && h < 4096 | .lrflushFetch c w h => c.wf && w < 32 && h < 4096
  | .bindso c w s hr ho => c.wf && w < 32 && 1 ≤ s && s ≤ 6 && hr < 4096 && ho < 4096
  | .bindsoRemove c w hr ho => c.wf && w < 32 && hr < 4096 && ho < 4096
  | .qfenceCico c s m => c.wf && 1 ≤ s && s ≤ 6 && m < 64 && (m / 2 % 2 == 1 || m / 4 % 2 == 1)
  | .send c o => c.wf && o.wf false | .recv c o => c.wf && o.wf false
  | .sendk c o => c.wf && o.wf true | .recvk c o => c.wf && o.wf true
  | .mma c o => c.wf && o.wf && o.q == 0 && o.md == 0 && o.sw == 0 | .mmas c o => c.wf && o.wf && o.q == 0
  | .mmul c o => c.wf && o.wf && o.md == 0 && o.sw == 0
  | .rkmac c o => c.wf && o.wt ≤ 2 && o.acc < 4 && o.nr1 < 256 && o.clr < 2 && o.row < 128 && o.slot < 16 && o.k1 < 256 &&
      o.sw < 32 && o.buf < 64 && o.off < 2 ^ 16
  | .oclaim c s => c.wf && s < 16 | .orelease c s => c.wf && s < 16
  | .oload c s x d n b o => c.wf && s < 16 && x < 2 && d < 512 && n < 512 && b < 64 && o < 2 ^ 16
  | .aclr c m => c.wf && 1 ≤ m && m < 16
  | .amov c d a => c.wf && d < 4 && a < 6 | .amovAdd c d a k q => c.wf && d < 4 && a < 6 && k ≤ 2 && q < 8 && (k == 2 || q == 0)
  | .amovMerge c d a => c.wf && d < 4 && (a == 4 || a == 5)
  | .aout c a f n r b o => c.wf && a < 6 && f < 16 && n < 128 && r < 128 && b < 64 && o < 2 ^ 16
  | .astow c a b o => c.wf && a < 6 && b < 64 && o < 2 ^ 16 | .arestore c a b o => c.wf && a < 4 && b < 64 && o < 2 ^ 16
  | .nestgo c s a m w x y => c.wf && s < 8 && a < 4 && m < 16 && w < 32 && x < 2 ^ 13 && y < 2 ^ 13
  | .mxwait c => c.wf
  | .rkloadAtt c b o => c.wf && b < 64 && o < 2 ^ 16 | .rkloadRct c b o => c.wf && b < 64 && o < 2 ^ 16
  | _ => false

end Sys2Proof
end

