-- ==== Sys2Proof/Decode.lean ====
section
/-! DEFINITION. The decoder of Thezar words, total on any bytes, and the encoder, both written from the encoding tables of the spec. -/
namespace Sys2Proof

/-- Why a sequence of words is no instruction; `at_` counts the words before the offending one (R118, R123). -/
inductive DecodeError where
  /-- The list of words ends before the instruction does (R12, R118: an extension word in the last step). -/
  | endOfStore (at_ : Nat)
  /-- No assigned encoding matches (R112, R115, R116, R119). -/
  | reserved (at_ : Nat)
  /-- A third consecutive extension word (R118). -/
  | thirdExtension (at_ : Nat)
  /-- An extension word followed by STAMP (R118). -/
  | extensionThenStamp (at_ : Nat)
deriving DecidableEq, Repr

/-- A decoded instruction: the payloads of its extension words, its own word and the number of words it takes. -/
structure Decoded where
  instr : Instr
  pays : List Nat
  word : Nat
  len : Nat
deriving DecidableEq, Repr

/-- PX: the payload of the extension word nearest the order (R213). -/
def payNear : List Nat → Nat
  | [p] => p
  | [_, p] => p
  | _ => 0
/-- EXT: the payload of the first of two extension words (R192, R213). -/
def payFar : List Nat → Nat
  | [e, _] => e
  | _ => 0
/-- The extension X of R119. -/
def payX (ps : List Nat) : Nat := payFar ps * 2 ^ 26 + payNear ps

/-- The widened immediate of an SI word, `len` bits wide before extension (R119, R151). -/
def immBits (ps : List Nat) (w : Nat) : Nat := payX ps * 2 ^ 16 + bits w 0 16
def immLen (ps : List Nat) : Nat := match ps.length with | 0 => 16 | 1 => 42 | _ => 64
def immSigned (ps : List Nat) (w : Nat) : Word := BitVec.ofInt 64 (sext (immLen ps) (immBits ps w % 2 ^ immLen ps))
def immZero (ps : List Nat) (w : Nat) : Word := BitVec.ofNat 64 (immBits ps w % 2 ^ immLen ps)

/-- The widened offset of an SB word: 12 bits, or 38 with one extension word (R119). -/
def brOff (ps : List Nat) (w : Nat) : Int :=
  match ps with
  | [] => sext 12 (bits w 0 12)
  | _ => sext 38 (payNear ps * 2 ^ 12 + bits w 0 12)
/-- The widened displacement of a load or store: 8 bits, or 34 (R154). -/
def ldDisp (ps : List Nat) (w : Nat) : Int :=
  match ps with
  | [] => sext 8 (bits w 0 8)
  | _ => sext 34 (payNear ps * 2 ^ 8 + bits w 0 8)

/-- The issue-control area (Table 7.2). -/
def ctlOf (w : Nat) : Ctl := { tk := bits w 24 2, gap := bits w 21 3, tq := bits w 18 3 }

/-- The fields of Table 10.2 and of the OP field (R192). -/
def vxOf (ps : List Nat) (w : Nat) : VX :=
  let x := payNear ps
  { vd := bits w 12 6, va := bits w 6 6, vb := bits w 0 6, ty := bits x 21 5, km := bits x 18 3, rm := bits x 15 3,
    nosat := bits x 14 1, vc := bits x 4 6, opt := bits x 0 4, ext := payFar ps }
/-- The fields of Table 10.7. -/
def vmemOf (ps : List Nat) (w : Nat) : VMem :=
  let x := payNear ps
  { vd := bits w 12 6, buf := bits w 6 6, vi := bits w 0 6, ty := bits x 21 5, km := bits x 18 3, path := bits x 17 1,
    off := payFar ps * 2 ^ 10 + bits x 0 10 }
/-- The fields of R222. -/
def copyInOf (ps : List Nat) (w x : Nat) : CopyIn :=
  { buf := bits w 12 6, sw := bits w 7 5, ovw := bits w 6 1, idx := bits w 0 6, h := bits (payNear ps) 14 12,
    off := bits (payNear ps) 0 14, x := x }
/-- The fields of R232 and R233. -/
def syncOf (ps : List Nat) (w : Nat) : SyncOp :=
  { sz := bits w 16 2, boff := bits w 13 3, sw := bits w 7 5, buf := bits w 1 6, p := bits w 0 1,
    h := bits (payNear ps) 14 12, off := bits (payNear ps) 0 14 }
/-- The fields of R246. -/
def atomOf (ps : List Nat) (w uns : Nat) : AtomOp :=
  { sz := bits w 12 2, uns := uns, sw := bits w 7 5, buf := bits w 1 6, ret := bits w 0 1,
    h := bits (payNear ps) 14 12, off := bits (payNear ps) 0 14, aoff := payFar ps }
/-- The fields of R248. -/
def vatomOf (ps : List Nat) (w : Nat) : VAtom :=
  { sw := bits w 11 5, buf := bits w 5 6, h := bits (payNear ps) 14 12, nl1 := bits (payNear ps) 7 7,
    ty := bits (payNear ps) 2 5, ioff := bits (payFar ps) 13 13, eoff := bits (payFar ps) 0 13 }
/-- The fields of R236 and R239. -/
def exchOf (ps : List Nat) (w : Nat) (rk : Bool) : Exch :=
  let p := payNear ps
  { buf := bits w 11 6, n1 := if rk then bits w 3 8 else bits w 6 5, dx := sext 7 (bits p 19 7), dy := sext 6 (bits p 13 6),
    off := if rk then bits p 0 13 else bits p 0 13 * 2 ^ 6 + bits w 0 6 }
/-- The fields of R256. -/
def mmaOf (ps : List Nat) (w : Nat) : MmaOp :=
  let p := payNear ps
  let e := payFar ps
  { shp := bits w 13 3, acc := bits w 10 3, f := bits w 6 4, clr := bits w 5 1, q := bits w 2 3, part := bits w 0 2,
    a := bits p 13 13, b := bits p 0 13, md := bits e 13 13, sw := bits e 8 5 }

/-- MAJ 0x00 (Table 8.2). -/
def sr0 (fn d s t c : Nat) : Option Instr :=
  match fn with
  | 0 => some (.add d s t)
  | 1 => some (.sub d s t)
  | 2 => some (.and d s t)
  | 3 => some (.or d s t)
  | 4 => some (.xor d s t)
  | 5 => some (.shl d s t)
  | 6 => some (.shr d s t)
  | 7 => some (.sra d s t)
  | 8 => some (.slt d s t)
  | 9 => some (.sltn d s t)
  | 10 => some (.min d s t)
  | 11 => some (.max d s t)
  | 12 => some (.minn d s t)
  | 13 => some (.maxn d s t)
  | 14 => some (.sel d c s t)
  | 16 => some (.clz d s)
  | 17 => some (.ctz d s)
  | 18 => some (.popc d s)
  | 19 => some (.brev d s)
  | _ => none

/-- MAJ 0x01 (Table 8.3). -/
def sr1 (fn d s t : Nat) : Option Instr :=
  match fn with
  | 0 => some (.mul d s t)
  | 1 => some (.mulh d s t)
  | 2 => some (.mulhn d s t)
  | 3 => some (.div d s t)
  | 4 => some (.divn d s t)
  | 5 => some (.rem d s t)
  | 6 => some (.remn d s t)
  | _ => none

/-- MAJ 0x09 to 0x0B (Table 8.4). -/
def ldst3 (maj sz d s b : Nat) (o : Int) : Option Instr :=
  match maj, sz with
  | 9, 0 => some (.ldb d s b o) | 9, 1 => some (.ldh d s b o) | 9, 2 => some (.ldw d s b o) | 9, 3 => some (.ldd d s b o)
  | 10, 0 => some (.ldbN d s b o) | 10, 1 => some (.ldhN d s b o) | 10, 2 => some (.ldwN d s b o)
  | 11, 0 => some (.stb d s b o) | 11, 1 => some (.sth d s b o) | 11, 2 => some (.stw d s b o) | 11, 3 => some (.std d s b o)
  | _, _ => none

/-- MAJ 0x0C (Table 8.5). -/
def branch6 (cond s t : Nat) (o : Int) : Option Instr :=
  match cond with
  | 0 => some (.beq s t o) | 1 => some (.bne s t o) | 2 => some (.blt s t o)
  | 3 => some (.bge s t o) | 4 => some (.bltn s t o) | 5 => some (.bgen s t o)
  | _ => none

/-- The SY words of MAJ 0x10 to 0x13 (Tables 8.8 to 8.10 and 8.12). -/
def syWord (maj fn : Nat) (ps : List Nat) (w : Nat) : Option Instr :=
  let a := bits w 13 5
  let b := bits w 8 5
  match maj, fn with
  | 16, 0 => some (.estart (bits w 15 3) (bits w 10 5) (bits w 9 1))
  | 16, 1 => some (.estop (bits w 15 3))
  | 16, 2 => match ps with
    | [] => some (.ebase (bits w 15 3) (bits w 10 5))
    | _ => some (.ebaseTarget (bits w 15 3) (bits (payNear ps) 0 16))
  | 16, 3 => some (.ewait (bits w 15 3))
  | 16, 4 => some .rend
  | 17, 0 => some .frame
  | 17, 1 => some (.seg (bits w 0 11))
  | 17, 2 => some (.colo a (bits w 10 3))
  | 17, 3 => some (.waitc (payNear ps * 2 ^ 18 + bits w 0 18))
  | 18, 0 => some (.bar (bits w 15 3) (bits w 10 5))
  | 18, 1 => some (.qfence (bits w 9 3) (bits w 12 6))
  | 18, 2 => some (.waitcw (bits w 12 5) (bits w 17 1))
  | 18, 3 => some (.acommit (bits w 0 3))
  | 18, 4 => some (.adiscard (bits w 0 3))
  | 19, 0 => some .nop
  | 19, 1 => some (.srd a (bits w 0 12))
  | 19, 2 => some (.swr (bits w 0 12) a)
  | 19, 3 => some (.trap (bits w 0 16))
  | 19, 4 => some .eret
  | 19, 5 => some (.time a)
  | 19, 6 => some (.snap a b (bits w 0 5))
  | 19, 7 => some (.rollb a b (bits w 0 5))
  | 19, 8 => some (.keyz a (bits w 0 5))
  | 19, 9 => some (.ldsys a b (sext 8 (bits w 0 8)))
  | 19, 10 => some (.stsys a b (sext 8 (bits w 0 8)))
  | 19, 11 => some .halt
  | _, _ => none

/-- The scalar words, MAJ 0x00 to 0x13 (R114). -/
def scalarWord (maj : Nat) (ps : List Nat) (w : Nat) : Option Instr :=
  let d := bits w 21 5
  let s := bits w 16 5
  match maj with
  | 0 => sr0 (bits w 0 6) d s (bits w 11 5) (bits w 6 5)
  | 1 => sr1 (bits w 0 6) d s (bits w 11 5)
  | 2 => some (.addi d s (immSigned ps w))
  | 3 => some (.andi d s (immZero ps w))
  | 4 => some (.ori d s (immZero ps w))
  | 5 => some (.xori d s (immZero ps w))
  | 6 => some (.slti d s (immSigned ps w))
  | 7 => match bits w 14 2 with
    | 0 => some (.shli d s (bits w 0 6))
    | 1 => some (.shri d s (bits w 0 6))
    | 2 => some (.srai d s (bits w 0 6))
    | _ => none
  | 8 => some (.lui d (bits w 0 16))
  | 12 => branch6 (bits w 22 4) (bits w 17 5) (bits w 12 5) (brOff ps w)
  | 13 => some (.jal d (immSigned ps w))
  | 14 => some (.jalr d s (immSigned ps w))
  | 15 => some (.loop s (bits w 0 16))
  | 16 => syWord maj (bits w 18 8) ps w
  | 17 => syWord maj (bits w 18 8) ps w
  | 18 => syWord maj (bits w 18 8) ps w
  | 19 => syWord maj (bits w 18 8) ps w
  | _ => ldst3 maj (bits w 14 2) d s (bits w 8 6) (ldDisp ps w)

/-- The VX orders in the general layout (Tables 10.3 and 10.6). -/
def vxWord (maj fn : Nat) (c : Ctl) (x : VX) : Option Instr :=
  match maj, fn with
  | 45, 0 => some (.vadd c x)
  | 45, 1 => some (.vsub c x)
  | 45, 2 => some (.vmul c x)
  | 45, 3 => some (.vfma c x)
  | 45, 4 => some (.vfms c x)
  | 45, 5 => some (.vmin c x)
  | 45, 6 => some (.vmax c x)
  | 45, 7 => some (.vabs c x)
  | 45, 8 => some (.vneg c x)
  | 45, 9 => some (.vdiv c x)
  | 46, 0 => some (.vrsqrt c x)
  | 46, 1 => some (.vexp2 c x)
  | 46, 2 => some (.vlog2 c x)
  | 46, 3 => some (.vsigm c x)
  | 46, 4 => some (.vtanh c x)
  | 47, 0 => some (.vcmp c x)
  | 47, 1 => some (.vsel c x)
  | 47, 2 => some (.vand c x)
  | 47, 3 => some (.vor c x)
  | 47, 4 => some (.vxor c x)
  | 47, 5 => some (.vnot c x)
  | 47, 6 => some (.vshl c x)
  | 47, 7 => some (.vshr c x)
  | 47, 8 => some (.vsra c x)
  | 47, 9 => some (.vmulhi c x)
  | 48, 0 => some (.vcvt c x)
  | 48, 1 => some (.vpack c x)
  | 48, 2 => some (.vunpk c x)
  | 49, 0 => some (.vperm c x)
  | 49, 1 => some (.vbcast c x)
  | 49, 2 => match x.opt with
    | 0 => some (.vmovkAnd c x)
    | 1 => some (.vmovkOr c x)
    | 2 => some (.vmovkXor c x)
    | 3 => some (.vmovkNot c x)
    | 4 => some (.vmovkKv c x)
    | 5 => some (.vmovkVk c x)
    | 6 => some (.vmovkVq c x)
    | 7 => some (.vmovkQv c x)
    | _ => none
  | 50, 0 => some (.vredsum c x)
  | 50, 1 => some (.vredmax c x)
  | 54, 0 => some (.vaddm c x)
  | 54, 1 => some (.vsubm c x)
  | 54, 2 => some (.vmulm c x)
  | 55, 0 => some (.vntt c x)
  | 55, 1 => some (.vintt c x)
  | 56, 0 => some (.vhash c x)
  | 56, 1 => some (.vseed c x)
  | _, _ => none

/-- The VX orders with a layout of their own: MAJ 0x33 to 0x35 and 0x39 (Tables 10.7 to 10.9). -/
def vxOwnWord (maj fn : Nat) (c : Ctl) (ps : List Nat) (w : Nat) : Option Instr :=
  let x := payNear ps
  match maj, fn with
  | 51, 0 => some (.vld c (vmemOf ps w))
  | 51, 1 => some (.vst c (vmemOf ps w))
  | 51, 2 => some (.vldx c (vmemOf ps w))
  | 51, 3 => some (.vstx c (vmemOf ps w))
  | 52, 0 => some (.vbfx c (vmemOf ps w))
  | 52, 1 => some (.bfxcfg c (vmemOf ps w))
  | 53, 0 => some (.vacc c { vd := bits w 12 6, acc := bits w 9 3, row := bits w 2 7, colh := bits w 1 1, ty := bits x 21 5, km := bits x 18 3, rm := bits x 15 3, nosat := bits x 14 1, cls := bits x 4 2 })
  | 57, 0 => some (.rank c { vd := bits w 12 6, va := bits w 6 6, nblk := bits w 0 6, ty := bits x 21 5, km := bits x 18 3, src := bits x 14 1, km1 := bits x 2 8, off := payFar ps })
  | 57, 1 => some (.rkval c { vd := bits w 12 6, vi := bits w 6 6, vf := bits w 0 6, ty := bits x 21 5, kd := bits x 18 3, nreg1 := bits x 14 4, km1 := bits x 2 8 })
  | _, _ => none

/-- The movement orders, MAJ 0x20 to 0x2C. -/
def moveWord (maj : Nat) (c : Ctl) (ps : List Nat) (w : Nat) : Option Instr :=
  let p := payNear ps
  let e := payFar ps
  let two := ps.length == 2
  match maj with
  | 0x20 => some (.cpin c (copyInOf ps w (if two then bits e 0 24 else 0xFFFFFF)))
  | 0x21 => some (.cpslot c { slot := bits w 14 4, sw := bits w 7 5, idx := bits w 0 6, h := bits p 14 12, off := bits p 0 14, land := if two then bits e 0 24 else 0xFFFFFF })
  | 0x22 => some (.xfetch c (copyInOf ps w (if two then bits e 14 12 + 1 else 0)))
  | 0x23 => if bits w 12 1 = 1 then some (.acqCw c (syncOf ps w)) else some (.acq c (syncOf ps w))
  | 0x24 => if bits w 6 1 = 1 then some (.cpoutFlush c (bits w 12 6) (bits w 7 5)) else
      some (.cpout c { buf := bits w 12 6, sw := bits w 7 5, idx := bits w 0 6, h := bits p 14 12, off := bits p 0 14, cw := 0 })
  | 0x25 => some (.rel c (syncOf ps w))
  | 0x26 => if bits w 17 1 = 0 then
      some (.xpost c { buf := bits w 11 6, sw := bits w 6 5, idx := bits w 0 6, h := bits p 14 12, off := bits p 0 14, cw := if two then bits e 14 12 + 1 else 0 })
    else some (.coll c { sbuf := bits w 11 6, sw := bits w 6 5, dbuf := bits w 0 6, ty := bits p 21 5, opn := bits p 19 2, ep := bits p 18 1, group := bits p 12 6, nch := bits p 0 12, soff := bits e 13 13, doff := bits e 0 13 })
  | 0x27 => match bits w 14 4 with
    | 0 => some (.atomAdd c (atomOf ps w 0)) | 1 => some (.atomAnd c (atomOf ps w 0)) | 2 => some (.atomOr c (atomOf ps w 0))
    | 3 => some (.atomXor c (atomOf ps w 0)) | 4 => some (.atomMin c (atomOf ps w 0)) | 5 => some (.atomMax c (atomOf ps w 0))
    | 6 => some (.atomMin c (atomOf ps w 1)) | 7 => some (.atomMax c (atomOf ps w 1)) | 8 => some (.atomSwap c (atomOf ps w 0))
    | 9 => some (.atomCas c (atomOf ps w 0)) | 10 => some (.atomFadd c (atomOf ps w 0)) | _ => none
  | 0x28 => match bits w 16 2 with
    | 0 => some (.vaor c (vatomOf ps w)) | 1 => some (.vaadd c (vatomOf ps w)) | 2 => some (.vamax c (vatomOf ps w)) | _ => none
  | 0x29 => match bits w 15 3 with
    | 0 => some (.bind c (bits w 9 6) (bits w 4 5) (bits p 14 12))
    | 1 => some (.unbind c (bits w 9 6) (bits w 4 5))
    | 2 => if bits w 0 1 = 0 then some (.bstateEmpty c (bits w 9 6)) else some (.bstateFull c (bits w 9 6))
    | 3 => if bits w 0 1 = 0 then some (.lrflush c (bits w 4 5) (bits p 14 12)) else some (.lrflushFetch c (bits w 4 5) (bits p 14 12))
    | 4 => if bits w 0 3 = 0 then some (.bindsoRemove c (bits w 4 5) (bits p 14 12) (bits e 14 12))
      else some (.bindso c (bits w 4 5) (bits w 0 3) (bits p 14 12) (bits e 14 12))
    | _ => none
  | 0x2A => some (.qfenceCico c (bits w 9 3) (bits w 12 6))
  | 0x2B => if bits w 17 1 = 0 then some (.send c (exchOf ps w false)) else some (.recv c (exchOf ps w false))
  | 0x2C => if bits w 17 1 = 0 then some (.sendk c (exchOf ps w true)) else some (.recvk c (exchOf ps w true))
  | _ => none

/-- The matrix orders, MAJ 0x3A to 0x3C (R256, R260, R261, R263). -/
def mxWord (maj : Nat) (c : Ctl) (ps : List Nat) (w : Nat) : Option Instr :=
  let p := payNear ps
  let e := payFar ps
  match maj with
  | 0x3A => match bits w 16 2 with
    | 0 => some (.mma c (mmaOf ps w))
    | 1 => some (.mmas c (mmaOf ps w))
    | 2 => some (.mmul c (mmaOf ps w))
    | _ => some (.rkmac c { wt := bits w 13 3, acc := bits w 10 3, nr1 := bits w 2 8, clr := bits w 0 1, row := bits p 19 7, slot := bits p 15 4, k1 := bits p 7 8, sw := bits p 2 5, buf := bits e 20 6, off := bits e 4 16 })
  | 0x3B => if bits w 17 1 = 1 then match ps with
      | [] => some (.fmtset c (bits w 13 4) (bits w 8 5))
      | _ => some (.fmtsetMx c (bits w 13 4) (p * 2 ^ 6 + bits w 0 6))
    else match ps with
      | [] => some (.nestcfg c (bits w 14 3) (bits w 9 5))
      | _ => some (.nestcfgMx c (bits w 14 3) (payX ps * 2 ^ 12 + bits w 0 12))
  | 0x3C => match bits w 14 4 with
    | 0 => some (.oclaim c (bits w 10 4))
    | 1 => some (.orelease c (bits w 10 4))
    | 2 => some (.oload c (bits w 10 4) (bits w 9 1) (bits e 17 9) (bits e 8 9) (bits p 20 6) (bits p 4 16))
    | 3 => some (.aclr c (bits w 10 4))
    | 4 => match bits w 6 2 with
      | 0 => some (.amov c (bits w 11 3) (bits w 8 3))
      | 1 => some (.amovAdd c (bits w 11 3) (bits w 8 3) (bits w 4 2) (bits w 1 3))
      | 2 => some (.amovMerge c (bits w 11 3) (bits w 8 3))
      | _ => none
    | 5 => some (.aout c (bits w 11 3) (bits w 7 4) (bits w 0 7) (bits e 19 7) (bits p 20 6) (bits p 4 16))
    | 6 => some (.astow c (bits w 11 3) (bits p 20 6) (bits p 4 16))
    | 7 => some (.arestore c (bits w 11 3) (bits p 20 6) (bits p 4 16))
    | 8 => some (.nestgo c (bits w 11 3) (bits w 8 3) (bits w 4 4) (bits e 21 5) (bits p 13 13) (bits p 0 13))
    | 9 => some (.mxwait c)
    | 10 => if bits w 13 1 = 0 then some (.rkloadAtt c (bits p 20 6) (bits p 4 16)) else some (.rkloadRct c (bits p 20 6) (bits p 4 16))
    | _ => none
  | _ => none

/-- The fields of a word under its extension words, read by its major opcode alone (Table 7.3). -/
def extract (ps : List Nat) (w : Nat) : Option Instr :=
  let maj := bits w 26 6
  if maj < 0x20 then scalarWord maj ps w
  else if maj < 0x2D then moveWord maj (ctlOf w) ps w
  else if maj = 0x33 ∨ maj = 0x34 ∨ maj = 0x35 ∨ maj = 0x39 then vxOwnWord maj (bits (payNear ps) 10 4) (ctlOf w) ps w
  else if maj < 0x39 then vxWord maj (bits (payNear ps) 10 4) (ctlOf w) (vxOf ps w)
  else if maj = 0x3F then
    match bits w 0 2 with
    | 0 => some (.stampFrame (bits w 2 24))
    | 1 => some (.stampSeg (bits w 2 24))
    | _ => none
  else mxWord maj (ctlOf w) ps w

/-- A word with no extension word. -/
def enc0 (n w : Nat) : Option (List Nat × Nat) := if n = 0 then some ([], w) else none
/-- A word with exactly one extension word. -/
def enc1 (n p w : Nat) : Option (List Nat × Nat) := if n = 1 then some ([p], w) else none
/-- A word with exactly two extension words. -/
def enc2 (n e p w : Nat) : Option (List Nat × Nat) := if n = 2 then some ([e, p], w) else none
/-- A word with no or one extension word. -/
def enc01 (n p w : Nat) : Option (List Nat × Nat) := match n with | 0 => some ([], w) | 1 => some ([p], w) | _ => none
/-- A word with one or two extension words. -/
def enc12 (n e p w : Nat) : Option (List Nat × Nat) := match n with | 1 => some ([p], w) | 2 => some ([e, p], w) | _ => none
/-- A word with up to two extension words. -/
def enc012 (n e p w : Nat) : Option (List Nat × Nat) :=
  match n with | 0 => some ([], w) | 1 => some ([p], w) | 2 => some ([e, p], w) | _ => none

def encSR (n maj fn d s t c : Nat) := enc0 n (maj * 2 ^ 26 + d * 2 ^ 21 + s * 2 ^ 16 + t * 2 ^ 11 + c * 2 ^ 6 + fn)
/-- An SI word whose immediate is widened by extension words (R119). -/
def encSI (n maj d s : Nat) (v : Word) :=
  enc012 n (v.toNat / 2 ^ 42 % 2 ^ 22) (v.toNat / 2 ^ 16 % 2 ^ 26) (maj * 2 ^ 26 + d * 2 ^ 21 + s * 2 ^ 16 + v.toNat % 2 ^ 16)
def encLd (n maj sz d s b : Nat) (o : Int) :=
  enc01 n (field 34 o / 2 ^ 8) (maj * 2 ^ 26 + d * 2 ^ 21 + s * 2 ^ 16 + sz * 2 ^ 14 + b * 2 ^ 8 + field 34 o % 2 ^ 8)
def encSB (n cond s t : Nat) (o : Int) :=
  enc01 n (field 38 o / 2 ^ 12) (12 * 2 ^ 26 + cond * 2 ^ 22 + s * 2 ^ 17 + t * 2 ^ 12 + field 38 o % 2 ^ 12)
def encSY (n maj fn op : Nat) := enc0 n (maj * 2 ^ 26 + fn * 2 ^ 18 + op)
/-- The word of an engine order (Table 7.2). -/
def engWord (maj : Nat) (c : Ctl) (op : Nat) : Nat := maj * 2 ^ 26 + c.tk * 2 ^ 24 + c.gap * 2 ^ 21 + c.tq * 2 ^ 18 + op
def VX.word (x : VX) (maj : Nat) (c : Ctl) : Nat := engWord maj c (x.vd * 2 ^ 12 + x.va * 2 ^ 6 + x.vb)
def VX.ctlX (x : VX) (fn : Nat) : Nat :=
  x.ty * 2 ^ 21 + x.km * 2 ^ 18 + x.rm * 2 ^ 15 + x.nosat * 2 ^ 14 + fn * 2 ^ 10 + x.vc * 2 ^ 4 + x.opt
def encVX (n maj fn : Nat) (c : Ctl) (x : VX) := enc01 n (x.ctlX fn) (x.word maj c)
def encVX2 (n maj fn : Nat) (c : Ctl) (x : VX) := enc012 n x.ext (x.ctlX fn) (x.word maj c)
def encVMem (n maj fn : Nat) (c : Ctl) (m : VMem) :=
  enc012 n (m.off / 2 ^ 10) (m.ty * 2 ^ 21 + m.km * 2 ^ 18 + m.path * 2 ^ 17 + fn * 2 ^ 10 + m.off % 2 ^ 10)
    (engWord maj c (m.vd * 2 ^ 12 + m.buf * 2 ^ 6 + m.vi))
/-- HANDLE in 25:14 and an offset in 13:0, the common payload of the movement orders. -/
def handleX (h off : Nat) : Nat := h * 2 ^ 14 + off
def encSync (n maj cw : Nat) (c : Ctl) (o : SyncOp) :=
  enc1 n (handleX o.h o.off)
    (engWord maj c (o.sz * 2 ^ 16 + o.boff * 2 ^ 13 + cw * 2 ^ 12 + o.sw * 2 ^ 7 + o.buf * 2 + o.p))
def encAtom (n aop : Nat) (c : Ctl) (o : AtomOp) :=
  enc12 n o.aoff (handleX o.h o.off) (engWord 0x27 c (aop * 2 ^ 14 + o.sz * 2 ^ 12 + o.sw * 2 ^ 7 + o.buf * 2 + o.ret))
def encVAtom (n fn : Nat) (c : Ctl) (o : VAtom) :=
  enc2 n (o.ioff * 2 ^ 13 + o.eoff) (o.h * 2 ^ 14 + o.nl1 * 2 ^ 7 + o.ty * 2 ^ 2)
    (engWord 0x28 c (fn * 2 ^ 16 + o.sw * 2 ^ 11 + o.buf * 2 ^ 5))
def enc29 (c : Ctl) (fn buf sw opt : Nat) : Nat := engWord 0x29 c (fn * 2 ^ 15 + buf * 2 ^ 9 + sw * 2 ^ 4 + opt)
def encSend (n fn : Nat) (c : Ctl) (o : Exch) :=
  enc1 n (field 7 o.dx * 2 ^ 19 + field 6 o.dy * 2 ^ 13 + o.off / 2 ^ 6)
    (engWord 0x2B c (fn * 2 ^ 17 + o.buf * 2 ^ 11 + o.n1 * 2 ^ 6 + o.off % 2 ^ 6))
def encSendk (n fn : Nat) (c : Ctl) (o : Exch) :=
  enc1 n (field 7 o.dx * 2 ^ 19 + field 6 o.dy * 2 ^ 13 + o.off) (engWord 0x2C c (fn * 2 ^ 17 + o.buf * 2 ^ 11 + o.n1 * 2 ^ 3))
def MmaOp.word (o : MmaOp) (fn : Nat) (c : Ctl) : Nat :=
  engWord 0x3A c (fn * 2 ^ 16 + o.shp * 2 ^ 13 + o.acc * 2 ^ 10 + o.f * 2 ^ 6 + o.clr * 2 ^ 5 + o.q * 2 ^ 2 + o.part)
/-- BUF in 25:20 and the buffer offset / 64 in 19:4 (R263). -/
def bufX (b off : Nat) : Nat := b * 2 ^ 20 + off * 2 ^ 4
def enc3C (c : Ctl) (fn op : Nat) : Nat := engWord 0x3C c (fn * 2 ^ 14 + op)

set_option maxHeartbeats 2000000 in
/-- The words of an instruction with exactly `n` extension words, where its entry allows that number (R118, R119). -/
def encodeN (n : Nat) : Instr → Option (List Nat × Nat)
  | .add d s t => encSR n 0 0 d s t 0
  | .sub d s t => encSR n 0 1 d s t 0
  | .and d s t => encSR n 0 2 d s t 0
  | .or d s t => encSR n 0 3 d s t 0
  | .xor d s t => encSR n 0 4 d s t 0
  | .shl d s t => encSR n 0 5 d s t 0
  | .shr d s t => encSR n 0 6 d s t 0
  | .sra d s t => encSR n 0 7 d s t 0
  | .slt d s t => encSR n 0 8 d s t 0
  | .sltn d s t => encSR n 0 9 d s t 0
  | .min d s t => encSR n 0 10 d s t 0
  | .max d s t => encSR n 0 11 d s t 0
  | .minn d s t => encSR n 0 12 d s t 0
  | .maxn d s t => encSR n 0 13 d s t 0
  | .sel d c s t => encSR n 0 14 d s t c
  | .clz d s => encSR n 0 16 d s 0 0
  | .ctz d s => encSR n 0 17 d s 0 0
  | .popc d s => encSR n 0 18 d s 0 0
  | .brev d s => encSR n 0 19 d s 0 0
  | .mul d s t => encSR n 1 0 d s t 0
  | .mulh d s t => encSR n 1 1 d s t 0
  | .mulhn d s t => encSR n 1 2 d s t 0
  | .div d s t => encSR n 1 3 d s t 0
  | .divn d s t => encSR n 1 4 d s t 0
  | .rem d s t => encSR n 1 5 d s t 0
  | .remn d s t => encSR n 1 6 d s t 0
  | .addi d s v => encSI n 2 d s v
  | .andi d s v => encSI n 3 d s v
  | .ori d s v => encSI n 4 d s v
  | .xori d s v => encSI n 5 d s v
  | .slti d s v => encSI n 6 d s v
  | .shli d s i => enc0 n (7 * 2 ^ 26 + d * 2 ^ 21 + s * 2 ^ 16 + 0 * 2 ^ 14 + i)
  | .shri d s i => enc0 n (7 * 2 ^ 26 + d * 2 ^ 21 + s * 2 ^ 16 + 1 * 2 ^ 14 + i)
  | .srai d s i => enc0 n (7 * 2 ^ 26 + d * 2 ^ 21 + s * 2 ^ 16 + 2 * 2 ^ 14 + i)
  | .lui d i => enc0 n (8 * 2 ^ 26 + d * 2 ^ 21 + i)
  | .ldb d s b o => encLd n 9 0 d s b o
  | .ldh d s b o => encLd n 9 1 d s b o
  | .ldw d s b o => encLd n 9 2 d s b o
  | .ldd d s b o => encLd n 9 3 d s b o
  | .ldbN d s b o => encLd n 10 0 d s b o
  | .ldhN d s b o => encLd n 10 1 d s b o
  | .ldwN d s b o => encLd n 10 2 d s b o
  | .stb d s b o => encLd n 11 0 d s b o
  | .sth d s b o => encLd n 11 1 d s b o
  | .stw d s b o => encLd n 11 2 d s b o
  | .std d s b o => encLd n 11 3 d s b o
  | .beq s t o => encSB n 0 s t o
  | .bne s t o => encSB n 1 s t o
  | .blt s t o => encSB n 2 s t o
  | .bge s t o => encSB n 3 s t o
  | .bltn s t o => encSB n 4 s t o
  | .bgen s t o => encSB n 5 s t o
  | .jal d v => encSI n 13 d 0 v
  | .jalr d s v => encSI n 14 d s v
  | .loop s k => enc0 n (15 * 2 ^ 26 + s * 2 ^ 16 + k)
  | .estart e s k => encSY n 16 0 (e * 2 ^ 15 + s * 2 ^ 10 + k * 2 ^ 9)
  | .estop e => encSY n 16 1 (e * 2 ^ 15)
  | .ebase e s => encSY n 16 2 (e * 2 ^ 15 + s * 2 ^ 10)
  | .ebaseTarget e t => enc1 n t (16 * 2 ^ 26 + 2 * 2 ^ 18 + e * 2 ^ 15)
  | .ewait e => encSY n 16 3 (e * 2 ^ 15)
  | .rend => encSY n 16 4 0
  | .frame => encSY n 17 0 0
  | .seg h => encSY n 17 1 h
  | .colo d e => encSY n 17 2 (d * 2 ^ 13 + e * 2 ^ 10)
  | .waitc t => enc01 n (t / 2 ^ 18) (17 * 2 ^ 26 + 3 * 2 ^ 18 + t % 2 ^ 18)
  | .bar s w => encSY n 18 0 (s * 2 ^ 15 + w * 2 ^ 10)
  | .qfence s m => encSY n 18 1 (m * 2 ^ 12 + s * 2 ^ 9)
  | .waitcw w p => encSY n 18 2 (p * 2 ^ 17 + w * 2 ^ 12)
  | .acommit h => encSY n 18 3 h
  | .adiscard h => encSY n 18 4 h
  | .nop => encSY n 19 0 0
  | .srd d r => encSY n 19 1 (d * 2 ^ 13 + r)
  | .swr r s => encSY n 19 2 (s * 2 ^ 13 + r)
  | .trap k => encSY n 19 3 k
  | .eret => encSY n 19 4 0
  | .time d => encSY n 19 5 (d * 2 ^ 13)
  | .snap s t w => encSY n 19 6 (s * 2 ^ 13 + t * 2 ^ 8 + w)
  | .rollb s t w => encSY n 19 7 (s * 2 ^ 13 + t * 2 ^ 8 + w)
  | .keyz s w => encSY n 19 8 (s * 2 ^ 13 + w)
  | .ldsys d s o => encSY n 19 9 (d * 2 ^ 13 + s * 2 ^ 8 + field 8 o)
  | .stsys t s o => encSY n 19 10 (t * 2 ^ 13 + s * 2 ^ 8 + field 8 o)
  | .halt => encSY n 19 11 0
  | .stampFrame t => enc0 n (0x3F * 2 ^ 26 + t * 2 ^ 2)
  | .stampSeg t => enc0 n (0x3F * 2 ^ 26 + t * 2 ^ 2 + 1)
  | .fmtset c f s => enc0 n (engWord 0x3B c (2 ^ 17 + f * 2 ^ 13 + s * 2 ^ 8))
  | .fmtsetMx c f v => enc1 n (v / 2 ^ 6) (engWord 0x3B c (2 ^ 17 + f * 2 ^ 13 + v % 2 ^ 6))
  | .nestcfg c r s => enc0 n (engWord 0x3B c (r * 2 ^ 14 + s * 2 ^ 9))
  | .nestcfgMx c r v => enc2 n (v / 2 ^ 38) (v / 2 ^ 12 % 2 ^ 26) (engWord 0x3B c (r * 2 ^ 14 + v % 2 ^ 12))
  | .vadd c x => encVX n 45 0 c x
  | .vsub c x => encVX n 45 1 c x
  | .vmul c x => encVX n 45 2 c x
  | .vfma c x => encVX n 45 3 c x
  | .vfms c x => encVX n 45 4 c x
  | .vmin c x => encVX n 45 5 c x
  | .vmax c x => encVX n 45 6 c x
  | .vabs c x => encVX n 45 7 c x
  | .vneg c x => encVX n 45 8 c x
  | .vdiv c x => encVX n 45 9 c x
  | .vrsqrt c x => encVX n 46 0 c x
  | .vexp2 c x => encVX n 46 1 c x
  | .vlog2 c x => encVX n 46 2 c x
  | .vsigm c x => encVX n 46 3 c x
  | .vtanh c x => encVX n 46 4 c x
  | .vcmp c x => encVX n 47 0 c x
  | .vsel c x => encVX n 47 1 c x
  | .vand c x => encVX n 47 2 c x
  | .vor c x => encVX n 47 3 c x
  | .vxor c x => encVX n 47 4 c x
  | .vnot c x => encVX n 47 5 c x
  | .vshl c x => encVX n 47 6 c x
  | .vshr c x => encVX n 47 7 c x
  | .vsra c x => encVX n 47 8 c x
  | .vmulhi c x => encVX n 47 9 c x
  | .vcvt c x => encVX n 48 0 c x
  | .vpack c x => encVX n 48 1 c x
  | .vunpk c x => encVX n 48 2 c x
  | .vperm c x => encVX n 49 0 c x
  | .vbcast c x => encVX2 n 49 1 c x
  | .vmovkAnd c x => encVX n 49 2 c x
  | .vmovkOr c x => encVX n 49 2 c x
  | .vmovkXor c x => encVX n 49 2 c x
  | .vmovkNot c x => encVX n 49 2 c x
  | .vmovkKv c x => encVX n 49 2 c x
  | .vmovkVk c x => encVX n 49 2 c x
  | .vmovkVq c x => encVX n 49 2 c x
  | .vmovkQv c x => encVX n 49 2 c x
  | .vredsum c x => encVX n 50 0 c x
  | .vredmax c x => encVX n 50 1 c x
  | .vaddm c x => encVX n 54 0 c x
  | .vsubm c x => encVX n 54 1 c x
  | .vmulm c x => encVX n 54 2 c x
  | .vntt c x => encVX n 55 0 c x
  | .vintt c x => encVX n 55 1 c x
  | .vhash c x => encVX n 56 0 c x
  | .vseed c x => encVX n 56 1 c x
  | .vld c m => encVMem n 51 0 c m
  | .vst c m => encVMem n 51 1 c m
  | .vldx c m => encVMem n 51 2 c m
  | .vstx c m => encVMem n 51 3 c m
  | .vbfx c m => encVMem n 52 0 c m
  | .bfxcfg c m => encVMem n 52 1 c m
  | .vacc c a => enc01 n (a.ty * 2 ^ 21 + a.km * 2 ^ 18 + a.rm * 2 ^ 15 + a.nosat * 2 ^ 14 + a.cls * 2 ^ 4)
      (engWord 53 c (a.vd * 2 ^ 12 + a.acc * 2 ^ 9 + a.row * 2 ^ 2 + a.colh * 2))
  | .rank c r => enc012 n r.off (r.ty * 2 ^ 21 + r.km * 2 ^ 18 + r.src * 2 ^ 14 + r.km1 * 2 ^ 2)
      (engWord 57 c (r.vd * 2 ^ 12 + r.va * 2 ^ 6 + r.nblk))
  | .rkval c r => enc01 n (r.ty * 2 ^ 21 + r.kd * 2 ^ 18 + r.nreg1 * 2 ^ 14 + 2 ^ 10 + r.km1 * 2 ^ 2)
      (engWord 57 c (r.vd * 2 ^ 12 + r.vi * 2 ^ 6 + r.vf))
  | .cpin c o => enc12 n o.x (handleX o.h o.off) (engWord 0x20 c (o.buf * 2 ^ 12 + o.sw * 2 ^ 7 + o.ovw * 2 ^ 6 + o.idx))
  | .cpslot c o => enc12 n o.land (handleX o.h o.off) (engWord 0x21 c (o.slot * 2 ^ 14 + o.sw * 2 ^ 7 + o.idx))
  | .xfetch c o => enc12 n ((o.x - 1) * 2 ^ 14) (handleX o.h o.off)
      (engWord 0x22 c (o.buf * 2 ^ 12 + o.sw * 2 ^ 7 + o.ovw * 2 ^ 6 + o.idx))
  | .acq c o => encSync n 0x23 0 c o
  | .acqCw c o => encSync n 0x23 1 c o
  | .cpout c o => enc1 n (handleX o.h o.off) (engWord 0x24 c (o.buf * 2 ^ 12 + o.sw * 2 ^ 7 + o.idx))
  | .cpoutFlush c b w => enc0 n (engWord 0x24 c (b * 2 ^ 12 + w * 2 ^ 7 + 2 ^ 6))
  | .rel c o => encSync n 0x25 0 c o
  | .xpost c o => enc12 n ((o.cw - 1) * 2 ^ 14) (handleX o.h o.off) (engWord 0x26 c (o.buf * 2 ^ 11 + o.sw * 2 ^ 6 + o.idx))
  | .coll c o => enc2 n (o.soff * 2 ^ 13 + o.doff) (o.ty * 2 ^ 21 + o.opn * 2 ^ 19 + o.ep * 2 ^ 18 + o.group * 2 ^ 12 + o.nch)
      (engWord 0x26 c (2 ^ 17 + o.sbuf * 2 ^ 11 + o.sw * 2 ^ 6 + o.dbuf))
  | .atomAdd c o => encAtom n 0 c o
  | .atomAnd c o => encAtom n 1 c o
  | .atomOr c o => encAtom n 2 c o
  | .atomXor c o => encAtom n 3 c o
  | .atomMin c o => encAtom n (4 + 2 * o.uns) c o
  | .atomMax c o => encAtom n (5 + 2 * o.uns) c o
  | .atomSwap c o => encAtom n 8 c o
  | .atomCas c o => encAtom n 9 c o
  | .atomFadd c o => encAtom n 10 c o
  | .vaor c o => encVAtom n 0 c o
  | .vaadd c o => encVAtom n 1 c o
  | .vamax c o => encVAtom n 2 c o
  | .bind c b w h => enc1 n (handleX h 0) (enc29 c 0 b w 0)
  | .unbind c b w => enc0 n (enc29 c 1 b w 0)
  | .bstateEmpty c b => enc0 n (enc29 c 2 b 0 0)
  | .bstateFull c b => enc0 n (enc29 c 2 b 0 1)
  | .lrflush c w h => enc1 n (handleX h 0) (enc29 c 3 0 w 0)
  | .lrflushFetch c w h => enc1 n (handleX h 0) (enc29 c 3 0 w 1)
  | .bindso c w s hr ho => enc2 n (handleX ho 0) (handleX hr 0) (enc29 c 4 0 w s)
  | .bindsoRemove c w hr ho => enc2 n (handleX ho 0) (handleX hr 0) (enc29 c 4 0 w 0)
  | .qfenceCico c s m => enc0 n (engWord 0x2A c (m * 2 ^ 12 + s * 2 ^ 9))
  | .send c o => encSend n 0 c o
  | .recv c o => encSend n 1 c o
  | .sendk c o => encSendk n 0 c o
  | .recvk c o => encSendk n 1 c o
  | .mma c o => enc1 n (o.a * 2 ^ 13 + o.b) (o.word 0 c)
  | .mmas c o => enc2 n (o.md * 2 ^ 13 + o.sw * 2 ^ 8) (o.a * 2 ^ 13 + o.b) (o.word 1 c)
  | .mmul c o => enc1 n (o.a * 2 ^ 13 + o.b) (o.word 2 c)
  | .rkmac c o => enc2 n (o.buf * 2 ^ 20 + o.off * 2 ^ 4) (o.row * 2 ^ 19 + o.slot * 2 ^ 15 + o.k1 * 2 ^ 7 + o.sw * 2 ^ 2)
      (engWord 0x3A c (3 * 2 ^ 16 + o.wt * 2 ^ 13 + o.acc * 2 ^ 10 + o.nr1 * 2 ^ 2 + o.clr))
  | .oclaim c s => enc0 n (enc3C c 0 (s * 2 ^ 10))
  | .orelease c s => enc0 n (enc3C c 1 (s * 2 ^ 10))
  | .oload c s x d k b o => enc2 n (d * 2 ^ 17 + k * 2 ^ 8) (bufX b o) (enc3C c 2 (s * 2 ^ 10 + x * 2 ^ 9))
  | .aclr c m => enc0 n (enc3C c 3 (m * 2 ^ 10))
  | .amov c d a => enc0 n (enc3C c 4 (d * 2 ^ 11 + a * 2 ^ 8))
  | .amovAdd c d a k q => enc0 n (enc3C c 4 (d * 2 ^ 11 + a * 2 ^ 8 + 2 ^ 6 + k * 2 ^ 4 + q * 2))
  | .amovMerge c d a => enc0 n (enc3C c 4 (d * 2 ^ 11 + a * 2 ^ 8 + 2 * 2 ^ 6))
  | .aout c a f k r b o => enc12 n (r * 2 ^ 19) (bufX b o) (enc3C c 5 (a * 2 ^ 11 + f * 2 ^ 7 + k))
  | .astow c a b o => enc1 n (bufX b o) (enc3C c 6 (a * 2 ^ 11))
  | .arestore c a b o => enc1 n (bufX b o) (enc3C c 7 (a * 2 ^ 11))
  | .nestgo c s a m w x y => enc2 n (w * 2 ^ 21) (x * 2 ^ 13 + y) (enc3C c 8 (s * 2 ^ 11 + a * 2 ^ 8 + m * 2 ^ 4))
  | .mxwait c => enc0 n (enc3C c 9 0)
  | .rkloadAtt c b o => enc1 n (bufX b o) (enc3C c 10 0)
  | .rkloadRct c b o => enc1 n (bufX b o) (enc3C c 10 (2 ^ 13))
  | _ => none

/-- One word under its extension words: the instruction whose encoding it is, if its fields are assigned and every bit
that the entry leaves unassigned is zero (R112, R115, R116). -/
def decodeWord (ps : List Nat) (w : Nat) : Option Instr :=
  match extract ps w with
  | some i => if i.wf && encodeN ps.length i == some (ps, w) then some i else none
  | none => none

/-- A word is an extension word (R118). -/
def isExt (w : Code) : Bool := bits w.toNat 26 6 == 0x3E
/-- A word is a STAMP word (R30). -/
def isStamp (w : Code) : Bool := bits w.toNat 26 6 == 0x3F

/-- The word that ends an instruction, under the payloads `ps` of its `k` extension words. -/
def decodeLast (ps : List Nat) (k : Nat) (w : Code) : Except DecodeError Decoded :=
  if k != 0 && isStamp w then .error (.extensionThenStamp k)
  else match decodeWord ps w.toNat with
  | some i => .ok { instr := i, pays := ps, word := w.toNat, len := k + 1 }
  | none => .error (.reserved k)

/-- The instruction at the front of a list of words, with the number of words that it takes (R118, R119, R123). -/
def decode : List Code → Except DecodeError Decoded
  | [] => .error (.endOfStore 0)
  | w0 :: r0 =>
    if isExt w0 then
      match r0 with
      | [] => .error (.endOfStore 0)
      | w1 :: r1 =>
        if isExt w1 then
          match r1 with
          | [] => .error (.endOfStore 1)
          | w2 :: _ =>
            if isExt w2 then .error (.thirdExtension 2)
            else decodeLast [bits w0.toNat 0 26, bits w1.toNat 0 26] 2 w2
        else decodeLast [bits w0.toNat 0 26] 1 w1
    else decodeLast [] 0 w0

/-- The words of one encoding: its extension words, then its own word (R118). -/
def words (e : List Nat × Nat) : List Code := e.1.map (fun p => BitVec.ofNat 32 (0x3E * 2 ^ 26 + p)) ++ [BitVec.ofNat 32 e.2]

/-- `n` extension words encode every operand value of `i` (R135). -/
def fits (n : Nat) (i : Instr) : Bool :=
  match encodeN n i with
  | some e => extract e.1 e.2 == some i
  | none => false

/-- The words of an instruction, with the smallest number of extension words that encode its operands (R135); the empty
list for an operation or event without an encoding. -/
def encode (i : Instr) : List Code :=
  match (if fits 0 i then encodeN 0 i else if fits 1 i then encodeN 1 i else encodeN 2 i) with
  | some e => words e
  | none => []

/-- The words of a number whose bits count on from word to word, the first word lowest. -/
def wordsOf : Nat → Nat → List Code
  | 0, _ => []
  | k + 1, w => BitVec.ofNat 32 w :: wordsOf k (w / 2 ^ 32)

/-- The four words laid out from a number numbered as spec/opcode_table.json numbers it: an instruction takes at most three. -/
def tableWords (nbits w : Nat) : List Code := wordsOf 4 (w % 2 ^ nbits)

/-- The instruction that the decoder reads from the bits `w`, numbered as spec/opcode_table.json numbers them. -/
def decodeTableWord (nbits w : Nat) : Option Instr :=
  match decode (tableWords nbits w) with
  | .ok d => some d.instr
  | .error _ => none

end Sys2Proof
end

