-- ==== Sys2Proof/Config.lean ====
section
/-! DEFINITION. What the implementation fixes and the spec does not state: free values (opaque, no body) and the fixed figures of Table 0.1. -/
namespace Sys2Proof.Config

/-- The deviation of a timebase reading from the reference, an uninterpreted choice of the hardware (R380 bounds it to 2 ns).
Notes: log entry 3. -/
opaque tbSkew : Nat → Nat
/-- A free 64-bit value for the `n`-th value that the spec leaves open. Notes: log entry 2. -/
opaque freeWord : Nat → BitVec 64
/-- The number of a key or nonce that the root of trust draws (R359, R360): uninterpreted. Notes: log entry 4. -/
opaque drawnKey : Nat → Nat
/-- A digest, signature, certificate or other SPDM octet string (R362 to R364) over the words given. -/
opaque spdmBytes : Nat → List Nat → List (BitVec 8)
/-- A sealed error record under a world's key (R361). -/
opaque sealRecord : Nat → List (BitVec 8) → List (BitVec 8)
/-- Bytes that a read over the fabric returns from another package (R378). -/
opaque remoteByte : Nat → Nat → BitVec 8
/-- A byte of a line that could not be corrected, as a restore that has no code for it takes it (R313). Notes: log entry 54. -/
opaque lostByte : Nat → Nat → BitVec 8
/-- AES-256-XTS (R359): byte by byte, what a line whose plaintext is given, encrypted under the first key, decrypts to under the second;
the line is the tweak. -/
opaque recrypt : Nat → Nat → Nat → List (BitVec 8) → Nat → BitVec 8
/-- An element of an accumulator that a later order has gone on from when a residue mismatch undoes an order (R317). Notes: log entry
57. -/
opaque lostAcc : Nat → Nat → BitVec 72
/-- The compute-die to base-die link that a line crosses (R360). -/
opaque linkOf : Nat → Nat
/-- Where the supervisor's firmware keeps the word of a merged table that stands for a word of a guest's table, and what it writes there:
root, guest address, value (R358). Notes: log entry 53. -/
opaque mergedAt : Nat → Nat → Nat
opaque mergedWord : Nat → Nat → Nat → BitVec 64

/-- The bytes of the walk stores, and the unit bits of the health table, that a version of the signed configuration store holds
(R384). -/
opaque storeByte : Nat → Nat → BitVec 8
opaque storeHealth : Nat → Nat → Nat

/-- Tiles of the physical grid: 56 by 24 (Table 0.1, R1). -/
def gridW : Nat := 56
def gridH : Nat := 24
/-- HBM bytes of the package: 1 TiB (Table 0.1, R61). -/
def hbmBytes : Nat := 2 ^ 40
/-- The page ownership table's range at the top of HBM (R355). -/
def potBase : Nat := 0xFFF0000000
/-- Bytes below the stow area of a tile's SRAM (R46). -/
def stowBase : Nat := 0x3F0000
/-- Words of an order store (R12). -/
def storeWords : Nat := 65536
/-- Control cores of the package (Table 0.1). -/
def coreCount : Nat := 16
end Sys2Proof.Config
end

