-- ==== Sys2Proof/Machine/Store.lean ====
section
/-! DEFINITION. The one sparse store of the model: a list of keys and values in one canonical form (keys strictly rising, no value equal to what an unlisted key reads as). -/
namespace Sys2Proof.Machine

/-- A finite map from numbers to values; an unlisted key reads as the store's default value, which its user names. -/
abbrev Store (α : Type) := List (Nat × α)

/-- The value at key `k`, the default `d` where nothing is listed. -/
def Store.get {α : Type} (d : α) (k : Nat) : Store α → α
  | [] => d
  | (j, v) :: r => if j = k then v else Store.get d k r

/-- Insert a value at a key, keeping the keys rising. -/
def Store.ins {α : Type} (k : Nat) (v : α) : Store α → Store α
  | [] => [(k, v)]
  | (j, u) :: r => if k < j then (k, v) :: (j, u) :: r else if j = k then (k, v) :: r else (j, u) :: Store.ins k v r

/-- Remove every entry of a key. -/
def Store.del {α : Type} (k : Nat) (m : Store α) : Store α := m.filter (fun e => e.1 != k)

/-- Write a value at a key: writing the default removes the entry, so equal contents are equal lists. -/
def Store.put {α : Type} [DecidableEq α] (d : α) (k : Nat) (v : α) (m : Store α) : Store α :=
  if v = d then Store.del k m else Store.ins k v m

/-- The canonical form: keys strictly rising from `lo`, no entry equal to the default. -/
def Store.wfFrom {α : Type} [DecidableEq α] (d : α) : Nat → Store α → Bool
  | _, [] => true
  | lo, (j, v) :: r => decide (lo ≤ j) && decide (v ≠ d) && Store.wfFrom d (j + 1) r
def Store.wf {α : Type} [DecidableEq α] (d : α) (m : Store α) : Bool := Store.wfFrom d 0 m

/-- Remove every entry whose key is at least `lo` and below `hi`. -/
def Store.delRange {α : Type} (lo hi : Nat) (m : Store α) : Store α := m.filter (fun e => !(lo ≤ e.1 && e.1 < hi))

/-- `n` consecutive values from key `k`. -/
def Store.getN {α : Type} (d : α) (m : Store α) : Nat → Nat → List α
  | _, 0 => []
  | k, n + 1 => Store.get d k m :: Store.getN d m (k + 1) n

/-- Write consecutive values from key `k`. -/
def Store.putL {α : Type} [DecidableEq α] (d : α) (m : Store α) : Nat → List α → Store α
  | _, [] => m
  | k, v :: r => Store.putL d (Store.put d k v m) (k + 1) r

end Sys2Proof.Machine
end

