-- ==== Sys2Proof/Machine/State.lean ====
section
/-! DEFINITION. The state of one HSD-9160 package: its tiles, regions, cores, memory, tables and queues, as plain data, and the state right after a cold reset. -/
namespace Sys2Proof.Machine

/-- Why a step is a fault. -/
inductive Fault where
  /-- Raised by the step: the agenda names an agent that the package does not have. No program reaches it. Safe. -/
  | noSuchAgent
deriving DecidableEq, Repr

/-- Why a step is refused. -/
inductive Refusal where
  /-- Raised by a dispatch arm whose instruction has no meaning yet, named by its mnemonic. Safe. -/
  | notModelled (mnemonic : String)
deriving DecidableEq, Repr

/-- The trap causes of Table 18.1 that are raised or recorded. -/
inductive Cause where
  | ill | priv | align | bufstate | sets | overrun | late | xlate | owner | poison | sdc | token | slot | shadow | brk
deriving DecidableEq, Repr

/-- The state of an engine table (Table 1.2). -/
inductive EngSt where
  | stopped | running | draining
deriving DecidableEq, Repr

/-- A STAMP that waits for its order (R30): its form, time, raw word and step. -/
structure Stamp where
  seg : Bool
  time : Nat
  raw : Nat
  step : Nat
deriving DecidableEq, Repr

/-- One engine of a tile (R11, R13, R36, Table 18.9). -/
structure Eng where
  st : EngSt := .stopped
  base : Nat := 0
  step : Nat := 0
  run : Nat := 0
  tprev : Nat := 0
  /-- The earliest cycle in which the next word may issue: Table 8.1 for SQ. -/
  next : Nat := 0
  stamp : Option Stamp := none
  wcount : Nat := 0
  crc : BitVec 32 := 0xFFFFFFFF
deriving DecidableEq, Repr

/-- A loop-stack entry (R145), innermost first in its list. -/
structure LoopE where
  start : Nat
  last : Nat
  count : Word
deriving DecidableEq, Repr

/-- The states of a buffer (R50). -/
inductive BufSt where
  | empty | filling | full | draining
deriving DecidableEq, Repr

/-- A tile SRAM buffer's state (R50, R58, R309, R335). -/
structure Buf where
  st : BufSt := .empty
  fill : Nat := 0
  drain : Nat := 0
  fail : Bool := false
  bound : Bool := false
  va : Nat := 0
  snapped : Bool := false
  /-- Its state word at the cut that SNAPPED it (R336). -/
  cutW : Nat := 0
deriving DecidableEq, Repr

/-- A buffer declaration of the image (Table 3.2). -/
structure BufDecl where
  valid : Bool := false
  full : Bool := false
  base : Nat := 0
  len : Nat := 0
deriving DecidableEq, Repr

/-- A modulus register (Table 5.6). -/
structure QReg where
  valid : Bool := false
  q : Nat := 0
  mu : Nat := 0
deriving DecidableEq, Repr

/-- The state of a shadow accumulator (R41). -/
inductive ShSt where
  | empty | pending | committed
deriving DecidableEq, Repr
structure Shadow where
  st : ShSt := .empty
  partner : Nat := 0
deriving DecidableEq, Repr

/-- The segment that is open in a tile (R34): what its header gives. -/
structure Seg where
  opened : Bool := false
  elastic : Bool := false
  hstep : Nat := 0
  cycles : Nat := 0
  sig : BitVec 32 := 0
  rset : Store Nat := []
  wset : Store Nat := []
deriving DecidableEq, Repr

/-- A change that takes effect at the end of a region cycle (R13, R51, R252, R275, R191). -/
inductive Eff where
  | engRun (e : Nat) (cont : Bool) (count issue : Nat)
  | engDrain (e : Nat)
  | engEnd (e : Nat)
  | engBase (e base : Nat)
  | bufFull (b : Nat)
  | bufCpin (b : Nat)
  | bufCpout (b : Nat)
  | bufSet (b : Nat) (full : Bool)
  | bufBind (b va : Nat)
  | bufUnbind (b : Nat)
  | fillDone (b : Nat)
  /-- The ranges of tile SRAM that a landing has written, whose granules get their dirty marks. -/
  | landed (b : Nat) (ranges : List (Nat × Nat))
  | drainDone (b : Nat)
  | unbound (b : Nat)
  | slotDone (n : Nat)
  | uncache (va : Nat)
  | fmt (f value : Nat)
  | nest (reg value : Nat)
  | shadow (h : Nat) (s : Shadow)
  /-- An order of engine `e` writes bytes of tile SRAM. -/
  | sram (e addr : Nat) (data : List Byte)
  | mxQ (q : Nat) (r : QReg)
  | mxSeed (v : Word)
  | mxPat (p : BitVec 576) (ty : Nat)
  | vxRct (r : Store (BitVec 16))
  | rended
  | segEntry
deriving DecidableEq, Repr

/-- What an MX order of the integer or modular path found at its issue, for a residue mismatch, after which it has had no effect
(R317): the accumulators that it writes, the shadow states, the nest registers of the last NESTGO. -/
structure Before where
  acc : Store Wa := []
  sh0 : Shadow := {}
  sh1 : Shadow := {}
  nlvA : Store Word := []
deriving DecidableEq, Repr

/-- An order that has issued and not retired (R189, R217, R250): when it retires (none: with its command), the token that it
pushes then, what takes effect at that cycle's end, and what a TOKEN record of its push would hold (R14). -/
structure Flight where
  id : Nat
  eng : Nat
  retire : Option Nat
  push : Option Nat
  effs : List Eff
  step : Nat
  raw : Word
  /-- The accumulators that an MX order writes, one bit each (R250). -/
  accW : Nat := 0
  /-- The operand slots that an MX order reads, one bit each (R264). -/
  slotR : Nat := 0
  /-- The status word and code that an MX order completes at its retirement (R258, R260, R273). -/
  done : Option (Nat × Nat × Bool) := none
  /-- The operand-memory ranges, as first address and length, that it reads across its occupancy and that it writes (R251, R259). -/
  opRd : List (Nat × Nat) := []
  opWr : List (Nat × Nat) := []
  /-- It runs on the integer or modular path of MX, which the residue check covers (R317). -/
  intPath : Bool := false
  /-- The landing cycle L of a timed CPIN or CPSLOT (R54). -/
  land : Option Nat := none
  /-- The bytes that `done` counts on its status word. -/
  doneN : Nat := 1
  /-- Its engine issues no later order before it retires (R232). -/
  blocks : Bool := false
  /-- The step of its first word, its issue cycle, the FIFO that it popped, and what it found (R305, R317). -/
  first : Nat := 0
  issue : Nat := 0
  pop : Option Nat := none
  before : Option Before := none
  /-- It has trapped at its retirement, has had no effect, and issues again after a THAW (R305, R317). -/
  redo : Bool := false
deriving DecidableEq, Repr

/-- What an in-flight command of CI or CO is (Table 12.2). -/
inductive CmdKind where
  | cpin | cpslot | xfetch | acq | acqCw | cpout | rel | xpost | coll | atom | vatom | bindso | fetch
deriving DecidableEq, Repr

/-- One element of a command that is still to be performed: its place in box order, its byte offset in the tile's storage, its
global address and length; for a write its bytes, and the offsets in them of 64-byte lines with an uncorrectable error; for a 4-bit type whether only
the low nibble lies inside the tensor; for a vector atomic the lanes of one line, as (address, element). -/
structure Elem where
  ix : Nat := 0
  tile : Nat := 0
  va : Nat := 0
  len : Nat := 0
  half : Bool := false
  data : List Byte := []
  bad : List Nat := []
  lanes : List (Nat × Nat) := []
deriving DecidableEq, Repr

/-- A command in flight (R216): its package-wide issue number, the status word and the phase it saw at its arm (R63), what is
left to perform, and the order of the tile that retires with it. -/
structure Cmd where
  id : Nat
  eng : Nat
  kind : CmdKind
  sw : Nat
  phase : Bool
  order : Nat := 0
  elems : List Elem := []
  /-- The code of the lowest failing element so far, and that element's place. -/
  err : Nat := 0
  errIx : Nat := 0
  /-- The buffer or slot it fills, the storage address of its first byte, its byte count. -/
  buf : Nat := 0
  base : Nat := 0
  n : Nat := 0
  flight : Option Nat := none
  deadline : Nat := 0
  /-- A wait on another package (R240). -/
  remote : Bool := false
  /-- The completion word of an XPOST or XFETCH, and the phase that it held once it is armed (R241, R242). -/
  cw : Option Nat := none
  cwArmed : Option Bool := none
  /-- A sync or atomic operation: address, bytes, operands, operation code, element type, whether the old value returns. -/
  va : Nat := 0
  size : Nat := 0
  opd : Nat := 0
  cmp : Nat := 0
  op : Nat := 0
  ty : Nat := 0
  ret : Bool := false
  want : Bool := false
  /-- The base of the sync object of an ACQ, REL or BINDSO; the physical ranges of a BINDSO. -/
  obj : Nat := 0
  ranges : List (Nat × Nat) := []
  scope : Nat := 0
  /-- The code with which the order completes when it is performed, decided at issue. -/
  code : Nat := 0
  /-- The bytes that a CPSLOT gathers before its pattern extracts them (R225). -/
  gather : List Byte := []
  pat : Option (BitVec 576 × Nat) := none
  /-- The ranges of tile SRAM, as address and length, that a CPIN or XFETCH has written so far (R59). -/
  wrote : List (Nat × Nat) := []
  /-- The region cycle of its issue. -/
  issue : Nat := 0
deriving DecidableEq, Repr

/-- An exchange transfer (R234, R238, R310). -/
structure Xfer where
  src : Nat
  dst : Nat
  seq : Nat
  rank : Bool
  km1 : Nat
  words : List Code
  avail : Nat
  restored : Bool := false
  rem : Nat := 0
deriving DecidableEq, Repr

/-- An entry of the record cache (R60): the record's address and its 192 bytes. -/
structure CacheE where
  valid : Bool := false
  va : Nat := 0
  data : List Byte := []
deriving DecidableEq, Repr

/-- A record fetch in progress or ended (R214): the address, the outcome when it is known (0: cached; else a code), and the timebase
reading past which a wait for another package ends (R61). -/
structure Fetch where
  va : Nat
  done : Option Nat := none
  deadline : Nat := 0
deriving DecidableEq, Repr

/-- What a tile records when one of its orders traps (R290, R292). -/
structure TrapRec where
  cause : Cause
  eng : Nat
  step : Nat
  opd0 : Word
  opd1 : Word
  more : Bool := false
  tret : Option Nat := none
deriving DecidableEq, Repr

/-- What a stow, a cut or a segment entry keeps of a tile beside the layout of the stow and context areas: what that layout
leaves no room for. Notes: log entry 12. -/
structure Kept where
  seg : Seg := {}
  tprev : List Nat := []
  next : List Nat := []
  /-- The readiness of registers and units, and what the next MX order may chain onto. -/
  sb : Store Nat := []
  lastMma : Option Nat := none
  /-- The words and the CRC state of each engine in the open segment. -/
  coloph : List (Nat × BitVec 32) := []
  /-- The barriers that the tile has issued, and the cycle of the last one, by scope. -/
  bars : List (Nat × Nat) := []
  /-- The changes that fall due after it: the end of an UNBIND whose granules are still being read (R227, R313). -/
  effs : List (Nat × Eff) := []
deriving DecidableEq, Repr

/-- The clock of a tile or core (R380): the timebase reading last given, the reading at the latest correction pulse that it has seen,
and the number of that pulse. -/
structure Clock where
  last : Nat := 0
  hold : Nat := 0
  epoch : Nat := 0
deriving DecidableEq, Repr

/-- The tile SRAM, its dirty marks and its error marks at the end of cycle c, kept from the first write of a handler or a copy in until the
next cycle ends (R316). -/
structure AtC where
  sram : List Host.Cell := []
  dirty : Store Bool := []
  ecc : Store Nat := []
deriving DecidableEq, Repr

/-- One physical tile (R10, R44, R145, R204, R249, R292). -/
structure Tile where
  -- scalar and status state
  g : Store Word := []
  sw : Store Word := []
  loops : List LoopE := []
  hflag : Bool := false
  -- vector state
  v : Store VReg := []
  k : Store Mask := []
  q : Store QReg := []
  srseed : Word := 0
  bfxV : BitVec 576 := 0
  bfxS : BitVec 576 := 0
  slotTy : Nat := 0
  fstepV : Nat := 0
  rct : Store (BitVec 16) := []
  -- matrix state, with MX's view of what VX writes and VX's view of rct (R191, R252)
  f : Store (BitVec 32) := []
  nlv : Store Word := []
  nlvA : Store Word := []
  att : Store (BitVec 16) := []
  opmem : Store Byte := []
  claim : Nat := 0
  filling : Nat := 0
  acc : Store Wa := []
  sh0 : Shadow := {}
  sh1 : Shadow := {}
  fstepM : Nat := 0
  /-- The destination of the MX order that issued last, if it was MMA, MMAS or MMUL (R251). -/
  lastMma : Option Nat := none
  qM : Store QReg := []
  seedM : Word := 0
  bfxM : BitVec 576 := 0
  slotTyM : Nat := 0
  rctV : Store (BitVec 16) := []
  -- storage
  sram : List Host.Cell := []
  store : Store Code := []
  bufs : Store Buf := []
  dirty : Store Bool := []
  ecc : Store Nat := []
  /-- What the first store of a handler, or the first bytes of a copy in, have found since the last region cycle ended (R316). -/
  atC : Option AtC := none
  -- engines, tokens, segment
  engs : Store Eng := []
  tokens : Store Nat := []
  seg : Seg := {}
  segcyc : Nat := 0
  frmorg : Nat := 0
  rended : Bool := false
  /-- The engines that each waiting QFENCE stalls, one mask per engine that issues one (R171). -/
  fence : Store Nat := []
  quiet : Bool := false
  stopped : Bool := false
  /-- The engines, one bit each, that an ESTOP of the cycle now ending moves to DRAINING (R13). -/
  estopped : Nat := 0
  lastPre : Nat := 0
  bgate : Option Nat := none
  /-- The timebase reading at which the wait of SQ at a .pod barrier times out (R170). -/
  podDue : Option Nat := none
  /-- The tile holds a record of the present freeze; the ERET of its handler has found TRET.REPLAY = 1 (R296). -/
  inFreeze : Bool := false
  hreplay : Bool := false
  /-- In the current cycle SQ issues after MX, because its word is ACOMMIT or ADISCARD (R173, R275). -/
  sqLate : Bool := false
  /-- What the segment entry keeps beside the entry record (R297). -/
  entry : Kept := {}
  -- readiness: the cycle from which a register or a unit is ready
  sb : Store Nat := []
  /-- The same in handler cycles, and the earliest next handler cycle (R295). -/
  hsb : Store Nat := []
  hnext : Nat := 0
  -- orders, commands, exchange
  flights : List Flight := []
  effs : List (Nat × Eff) := []
  cmds : List Cmd := []
  nextId : Nat := 0
  cache : Store CacheE := []
  fetchCI : Option Fetch := none
  fetchCO : Option Fetch := none
  hold : List Xfer := []
  nxseq : Nat := 0
  -- the trap record (R292) and the record that the current cycle writes
  tcause : Word := 0
  tstep : Word := 0
  topd0 : Word := 0
  topd1 : Word := 0
  tret : Word := 0
  trapNow : Option TrapRec := none
  /-- The engines whose order trapped in the last freeze and has not issued again (R305, THAW), one bit each. -/
  again : Nat := 0
  -- its clock (R380), scrub (R369)
  clk : Clock := {}
  scrub : Option Nat := none
deriving DecidableEq, Repr

/-- The states of a Harness slot (Table 1.4). -/
inductive RSt where
  | free | loaded | running | frozen | stowed
deriving DecidableEq, Repr

/-- The image data of one abstract tile that the Harness slot keeps (R312), with its image's order store for the load. -/
structure TileImg where
  mask : Nat := 0
  start : Nat := 0
  bases : List Nat := []
  handler : Option Nat := none
  decls : Store BufDecl := []
  store : Store Code := []
  data : List (Nat × List Byte) := []
deriving DecidableEq, Repr

/-- A seam declaration (Table 1.6): a column (false) or row boundary, its position and latency. -/
structure SeamDecl where
  row : Bool
  pos : Nat
  lat : Nat
deriving DecidableEq, Repr

/-- A Mymir image as the loader took it in (R39, R40, R47, R48). -/
structure Image where
  w : Nat := 0
  h : Nat := 0
  maxpd : Nat := 0
  hbmch : Nat := 0
  seams : List SeamDecl := []
  tiles : List TileImg := []
  digest : Nat := 0
deriving DecidableEq, Repr

/-- A participant of a group (R280): package, part count, linear instance index, tile index. -/
structure Member where
  pkg : Nat
  parts : Nat
  inst : Nat
  tile : Nat
deriving DecidableEq, Repr

/-- One Harness slot and the region that it holds (R23, R304). -/
structure Slot where
  -- HRPLACE, HRSTAT, HRCTX, HRCLK, HRTRANS (Tables 1.4 and 18.6)
  st : RSt := .free
  px : Nat := 0
  py : Nat := 0
  w : Nat := 0
  h : Nat := 0
  orient : Nat := 0
  ntrap : Nat := 0
  ftile : Nat := 0
  err : Nat := 0
  preq : Bool := false
  handler : Bool := false
  /-- The handler cycle, the tile whose handler has its look next, and a fault in a handler of the cycle (R295). -/
  hcyc : Nat := 0
  hpos : Nat := 0
  hfault : Bool := false
  done : Bool := true
  ctx : Nat := 0
  mhz : Nat := 1500
  mhzNext : Option Nat := none
  root : Nat := 0
  fmt : Nat := 0
  /-- The pending stow also moves the tiles' state away; a replay waits for the commands in flight (Table 18.7). -/
  evictReq : Bool := false
  replaying : Bool := false
  /-- The replay completes a REPLAY command. -/
  replayCmd : Bool := false
  -- the image (R39, R312)
  imgs : Store TileImg := []
  seams : List SeamDecl := []
  maxpd : Nat := 0
  hbmch : Nat := 0
  digest : Nat := 0
  -- the launch (R279, R285)
  vif : Nat := 0
  lid : Nat := 0
  jobid : Nat := 0
  inst : Nat := 0
  ix : Nat := 0
  iy : Nat := 0
  iz : Nat := 0
  lrtab : Nat := 0
  rtmo : Nat := 0
  snapok : Bool := false
  groups : List (List Member) := []
  collCount : Store Nat := []
  world : Nat := 0
  timeoff : Word := 0
  chans : List Nat := []
  prio : Nat := 0
  -- the run: the region cycle, the micro-step within it, landing holds, links, verdict
  rcc : Nat := 0
  pos : Nat := 0
  /-- The barriers and FRAMEs that each tile has issued since job start, and the cycle of the last (R29, R170). -/
  bars : Store Nat := []
  barAt : Store Nat := []
  landLimit : Nat := 0x10000
  landHeld : Nat := 0
  /-- The limit of the current landing hold (R176). -/
  limitNow : Nat := 0x10000
  holding : Bool := false
  flying : List Xfer := []
  links : List (Nat × Nat × Nat) := []
  linkIssues : List (Nat × Nat) := []
  trapped : Bool := false
  frozenAt : Nat := 0
  fz : Bool := false
  tainted : Bool := false
  corrected : Bool := false
  reduced : Bool := false
  /-- Taken in from another package, and not yet placed on this one (R341, R387). -/
  fresh : Bool := false
  evicted : Bool := false
  kept : Store Kept := []
  /-- What the segment-entry records of the stowed tiles keep beside their bytes. -/
  keptEntry : Store Kept := []
  /-- World time at the end of cycle c, as the region's clock enable was last held (R306, R372); 0 before the first cycle. -/
  worldStow : Word := 0
  /-- No region cycle has been performed since it was placed or resumed: the first one sets TIMEOFF (R372). -/
  wakes : Bool := false
  cut : Nat := 0
  held : Bool := false
  /-- A snapshot asks the region to stop at its next segment boundary (R329). -/
  cutReq : Bool := false
  ended : Bool := false
  /-- The timebase as it is about to perform its first region cycle since it was placed or resumed (R287, R372). -/
  tstart : Nat := 0
  /-- The timebase at the last margin report; and the physical tiles that have reported with HRCLK at 400 MHz, each with the timebase
at its first such report (R383). -/
  margin : Option Nat := none
  slow : List (Nat × Nat) := []
  /-- The pass of power shedding that has asked for the region's stow (R371). -/
  shedBy : Nat := 0
  /-- The placer moves the region: it resumes it once it is stowed (R286, R322); the arrival of the node for which it makes room. -/
  moving : Bool := false
  mover : Option Nat := none
deriving DecidableEq, Repr

/-- A control core or a walker core (R145, R302, R391). -/
structure CCore where
  g : Store Word := []
  sw : Store Word := []
  loops : List LoopE := []
  step : Nat := 0
  dmem : Store Byte := []
  istore : Store Code := []
  ccvec : Nat := 0
  ccret : Nat := 0
  ccInt : Bool := false
  ccCause : Nat := 0
  ipend : Nat := 0
  imask : Nat := 0
  inTrap : Bool := false
  halted : Bool := false
  failed : Bool := false
  clk : Clock := {}
  -- walker cores: the walk in hand (R314)
  walking : Bool := false
  walkSlot : Nat := 0
  walkVa : Nat := 0
  walkKind : Nat := 0
  walkRoot : Option Nat := none
  /-- The timebase at the start of the walk: its watchdog ends it 100 µs later. -/
  walkAt : Nat := 0
  wresp : Option Word := none
  die : Nat := 0
deriving DecidableEq, Repr

/-- A translation held by the TLBs (R61, R315): the context's Harness slot (or 1,344 + VIF), the root that it was walked under (none
where no register holds it), the page and the PTE, and for a page in a fabric window the package that FWIN named when it was filled
(R378). -/
structure TlbE where
  ctx : Nat
  root : Option Nat := none
  va : Nat
  size : Nat
  pte : Word
  ok : Bool
  win : Option Nat := none
deriving DecidableEq, Repr

/-- The states of a page of the POT (R355); the first is the one a cold reset sets. -/
inductive PotSt where
  | scrubbing | free | assigned | bounce
deriving DecidableEq, Repr
structure PotE where
  st : PotSt := .scrubbing
  world : Nat := 0
deriving DecidableEq, Repr

/-- An HBM channel (Table 26.1, HBMTRN). -/
structure Chan where
  st : Nat := 0
  rdc : Nat := 0
  wrc : Nat := 0
  rdw : Nat := 0
  wrw : Nat := 0
  lane0 : Option Nat := none
  lane1 : Option Nat := none
  pass : Bool := false
deriving DecidableEq, Repr

/-- The states of a launch node (Table 16.5). -/
inductive NodeSt where
  | waiting | held | ready | running | done
deriving DecidableEq, Repr

/-- A node of the launch graph (R282). -/
structure Node where
  vif : Nat
  lid : Nat
  st : NodeSt
  preds : List Nat := []
  accepted : List Nat := []
  image : Nat := 0
  lrtab : Nat := 0
  crec : Nat := 0
  gx : Nat := 0
  gy : Nat := 0
  gz : Nat := 0
  prio : Nat := 0
  snapok : Bool := false
  gang : Bool := false
  sclass : Nat := 0
  rtmo : Nat := 0
  gtab : Nat := 0
  ngrp : Nat := 0
  jobid : Nat := 0
  w : Nat := 0
  h : Nat := 0
  hbmch : Nat := 0
  started : Nat := 0
  /-- The instances that came here from another package (R341). -/
  came : List Nat := []
  ended : Nat := 0
  ndone : Nat := 0
  verdict : Nat := 0
  reason : Nat := 0
  cause : Nat := 0
  tstart : Nat := 0
  /-- An instance has performed its first region cycle: TSTART is fixed. -/
  begun : Bool := false
  tend : Nat := 0
  rccmax : Nat := 0
  /-- The instances that have ended, each with its final RCC (R287, R339). -/
  ends : List (Nat × Nat) := []
  arrival : Nat := 0
  readyAt : Nat := 0
  recorded : Bool := false
  /-- TIMEOFF of the instance that ended last (R287). -/
  lastOff : Option Word := none
  /-- The image and the groups, as the packet's checks took them in. -/
  img : Image := {}
  groups : List (List Member) := []
deriving DecidableEq, Repr

/-- The SPDM responder of a VIF (R362 to R365). -/
structure Spdm where
  version : Bool := false
  caps : Bool := false
  algs : Bool := false
  /-- The requests and the responses since GET_VERSION, in order. -/
  transcript : List Nat := []
  exchanging : Bool := false
  session : Bool := false
  key : Nat := 0
  chunks : List (List Byte) := []
deriving DecidableEq, Repr

/-- A virtual interface (R277, R288, R354). -/
structure Vif where
  qbase : Nat := 0
  qlog : Nat := 0
  status : Nat := 0
  en : Bool := false
  widx : Nat := 0
  ridx : Nat := 0
  ctl : Nat := 0
  world : Nat := 0
  repSeq : Nat := 0
  spdm : Spdm := {}
  stowed : List Nat := []
  /-- Where its residency reports go (R288). -/
  endpoint : Nat := 0
deriving DecidableEq, Repr

/-- A bounce channel (R366). -/
structure Bounce where
  ctl : Nat := 0
  ring : Nat := 0
  widx : Nat := 0
  ridx : Nat := 0
  err : Nat := 0
  resync : Bool := false
  cnt : Nat := 0
  key : Option Nat := none
  /-- The physical address of the descriptor of an outbound channel, where its page is a home-SYE page; the LEN and OFFSET of a
descriptor that an SYE write has set to DEVCNT + 1 (R367). -/
  desc : Option Nat := none
  asked : Option (Nat × Nat) := none
deriving DecidableEq, Repr

/-- Where an agent stands in its job on its package (R68): its instance as VIF, LID and index, its tile, abstract quad and die. -/
structure Seat where
  vif : Nat := 0
  lid : Nat := 0
  inst : Nat := 0
  tile : Nat := 0
  quad : Nat := 0
  die : Nat := 0
deriving DecidableEq, Repr

/-- A binding of physical bytes to a sync object, and the agent that made it (R68): its package, its job as world and JOBID, its seat,
and on this package its slot. -/
structure SoBind where
  lo : Nat
  hi : Nat
  obj : Nat
  scope : Nat
  pkg : Nat
  world : Nat
  jobid : Nat
  seat : Seat := {}
  slot : Nat := 0
deriving DecidableEq, Repr

/-- A job message from another package that has arrived and is not yet performed (R240 to R242, R331): the source, the job, the
physical address that its bytes are for and the world of the accessing context, the completion word and, once it is armed, the
phase that it held. `kind` is 0 an XPOST, 1 the reads of an XFETCH, 2 a REL, 3 the read of an ACQ, 4 a remote atomic with operation
`op`, 5 a contribution to a collective, 6 a BINDSO of scope `op` to the object at `va` (R230), with its `ranges` as the addresses of
this package give the bytes. `seat` is the agent of a REL, an ACQ or a BINDSO. The bytes of a strided box have their physical ranges in `ranges`, in box order (none: one
range at `va`), and `outside` counts its bytes that lie outside the tensor. -/
structure Msg where
  src : Nat
  jobid : Nat
  va : Nat
  world : Nat
  /-- The bytes that it writes; of a read, as many bytes as it reads; of an atomic, the operand and then the comparand. -/
  data : List Byte
  cw : Option Nat
  kind : Nat
  phase : Bool := false
  armed : Bool := false
  op : Nat := 0
  ty : Nat := 0
  /-- The group, the sequence number and the rank of a contribution (R243). -/
  group : Nat := 0
  seq : Nat := 0
  rank : Nat := 0
  ranges : List (Nat × Nat) := []
  outside : Nat := 0
  seat : Seat := {}
deriving DecidableEq, Repr

/-- A collective in progress (R243 to R245, R379): its identity, what its first local order gave, the leaves that have arrived,
and the local orders that wait, as (slot, tile, command, rank). -/
structure Coll where
  world : Nat
  jobid : Nat
  group : Nat
  seq : Nat
  ty : Nat
  opn : Nat
  c : Nat
  ep : Bool
  total : Nat
  parts : Store (List Byte) := []
  waiting : List (Nat × Nat × Nat × Nat) := []
  bad : Bool := false
  done : Bool := false
  /-- The timebase at the first contribution (R379). -/
  first : Option Nat := none
  /-- The contributions of ranks on other packages that have arrived. -/
  arrived : Store (List Byte) := []
deriving DecidableEq, Repr

/-- The snapshot states (Table 20.3). -/
inductive SnSt where
  | idle | cutting | recording | reported | rolling
deriving DecidableEq, Repr

/-- What a cut keeps of a tile beside the bytes of its REGION record: the snapshot's sequence number, the instance, the tile, the
region's world time at the cut, and the kept state of the tile and of its segment-entry record. -/
structure CutKept where
  seq : Nat
  inst : Nat
  tile : Nat
  time : Word
  kept : Kept
  entry : Kept
  /-- The collectives that the region's tiles have issued, by tile and group (R243). -/
  collCount : Store Nat := []
deriving DecidableEq, Repr

/-- What a package cut keeps of a job beside its folio (R339): the snapshot's sequence number, the collectives that contributions of other
packages have opened, and the .pod barriers that its packages have reached. -/
structure CutJob where
  seq : Nat
  colls : List Coll
  podBars : List (Nat × Nat × Nat × Nat)
  podSent : List (Nat × Nat × Nat × Nat)
deriving DecidableEq, Repr

/-- A region of the job that has ended (R339, R340): its slot as it then stood, its verdict, whether it reached REND, the node that it
belonged to, and the sequence number of the last cut before its end. -/
structure Gone where
  slot : Slot
  verdict : Nat
  reached : Bool
  node : Nat
  seq : Nat := 0
deriving DecidableEq, Repr

/-- The snapshot state of one job on this package (R325, R327). -/
structure Snap where
  area : Nat := 0
  st : SnSt := .idle
  id : Nat := 0
  issuer : Nat := 0
  started : Nat := 0
  seq : Nat := 0
  entry : Nat := 0
  foff : Nat := 0
  fpos : Nat := 0
  closed : List Nat := []
  reports : List Nat := []
  arrivals : Nat := 0
  heldMsgs : List Nat := []
  pages : List Nat := []
  cutSlots : List Nat := []
  /-- The state of the folio of `seq`: none, or held in catalogue entry `entry` (R336). -/
  growing : Bool := false
  /-- Who waits for the snapshot: an agent code, a status word and the phase it saw (R180). -/
  who : Option (Nat × Nat × Bool) := none
  rollWho : Option (Nat × Nat × Bool) := none
  /-- The packages whose rollback marker has not arrived on its channel. -/
  markers : List Nat := []
  /-- The packages that have finished the rollback, at its issuer. -/
  rolled : List Nat := []
  /-- What a cut keeps of a tile beside its REGION record: sequence number, instance, tile, world time of the cut. -/
  cutKept : List CutKept := []
  cutJob : List CutJob := []
  /-- The ids whose first bookmark, or whose SNAP, has come (R327). -/
  seen : List Nat := []
  /-- While a later snapshot runs to its cut: catalogue entry, offset and length of the folio that copies on write still go to (R334). -/
  old : Option (Nat × Nat × Nat) := none
  /-- The id of the rollback in progress (R339), and of the last one into the job (ROLLID, Table 7.5). -/
  rollId : Nat := 0
  rolledTo : Nat := 0
  /-- The regions of the job that have ended while it keeps a snapshot. -/
  gone : List Gone := []
deriving DecidableEq, Repr

/-- A record of the package event queue (R301, Table 18.4). -/
structure Event where
  cause : Nat
  slot : Nat
  detail : Nat
deriving DecidableEq, Repr

/-- What leaves the package: a report, a response, a record, a message or a bookmark, with its bytes or its fields. -/
inductive Out where
  | report (vif endpoint : Nat) (data : List Byte)
  | uec (vif : Nat) (ok : Bool) (value : Nat)
  | errorRecord (data : List Byte)
  | spdm (vif code : Nat) (data : List Byte)
  | bookmark (dst jobid id issuer : Nat)
  | marker (dst jobid id : Nat)
  | cutReport (dst jobid id : Nat)
  | commit (dst jobid id : Nat)
  | abort (dst jobid id : Nat)
  | rollFailed (dst jobid id : Nat)
  | message (dst kind va : Nat) (data : List Byte)
  | contribution (group seq rank : Nat) (data : List Byte)
  | deliver (endpoint : Nat) (data : List Byte)
  | refuseFlit (port seq : Nat)
  | flit (port : Nat) (data : List Byte)
  | payload (src vc : Nat) (data : List Byte)
  | podBar (dst world jobid n : Nat)
deriving DecidableEq, Repr

/-- A Zileth port (R375, R376): its receiver's next SEQ and refusals in a row; its sender's next SEQ, its credits by channel, the
flits sent and not yet credited as (SEQ, channel, bytes), what waits to be sent as (channel, destination, payload), the replays of one
flit in a row, and the credits owed to the other side by channel. -/
structure Port where
  up : Bool := false
  rxseq : Nat := 0
  replays : Nat := 0
  credits : Store Nat := []
  txseq : Nat := 0
  sent : List (Nat × Nat × List Byte) := []
  queue : List (Nat × Nat × List Byte) := []
  again : Nat × Nat := (0, 0)
  owed : Store Nat := []
  training : Bool := false
deriving DecidableEq, Repr

/-- An agent that can take a step. -/
inductive Agent where
  | core (n : Nat)
  | walker (n : Nat)
  | region (slot : Nat)
deriving DecidableEq, Repr

/-- One thing that the outside world, or the unspecified interleaving of agents, does next: an operation or event of the table,
a turn of an agent, an input value, or a bit error. -/
inductive Move where
  | event (i : Instr)
  | turn (a : Agent)
  | power (watts : Nat)
  | tick (ns : Nat)
  | arrive (m : Msg)
  | podBar (pkg world jobid n : Nat)
  | upset (space key kind : Nat)
  | ring (chan off : Nat) (data : List Byte)
  /-- The work of the present bring-up phase ends (R384). -/
  | phase
  /-- A payload for another package is handed to a Zileth port; the other side refuses a SEQ; the link has trained (R376). -/
  | flit (port vc dst : Nat) (data : List Byte)
  | refused (port seq : Nat)
  | linkTrained (port : Nat) (ok : Bool)
  /-- Management sets the VLAN id of an endpoint (R373), the time limit of the switch in ns (R379), or the power of dies (R364). -/
  | vlan (endpoint id : Nat)
  /-- Management sets the report endpoint of a VIF (R288). -/
  | reportTo (vif endpoint : Nat)
  | collLimit (ns : Nat)
  | gate (dies : Nat)
  /-- The next sealed error record is written to its log page (R361). -/
  | sealLog
  /-- A UEC read of the data endpoint of a VIF (R373). -/
  | uecRead (vif va n : Nat)
  /-- The control complex takes in a region that was saved on another package (R341). -/
  | migrate (vif lid inst ctx : Nat) (time : Word)
  /-- Another package's rollback has failed, which ends the job (R340). -/
  | rollFailed (job id : Nat)
  /-- The job has ended on another package (R230). -/
  | jobEnded (pkg world jobid : Nat)
deriving DecidableEq, Repr

/-- The word in hand: which agent issues it, from which step, with which words before it (R123, R293). -/
structure Cur where
  agent : Agent := .core 0
  /-- The abstract tile and the engine of a region's word. -/
  tile : Nat := 0
  eng : Nat := 0
  /-- The step of the instruction's first word, of its own word, and of the word that follows it. -/
  first : Nat := 0
  step : Nat := 0
  nextStep : Nat := 0
  /-- The own word, the payload nearest it, the number of extension words, and the raw words in order (R36, R293). -/
  word : Nat := 0
  pay : Nat := 0
  np : Nat := 0
  raws : List Nat := []
deriving DecidableEq, Repr

/-- A place at which the orders that come after it take over what happens before (R66). -/
inductive Site where
  /-- the next order of engine `e` of tile `t` of slot `n` -/
  | queue (n t e : Nat)
  /-- a command in hand, by the number of its order -/
  | command (order : Nat)
  /-- an order in flight: what its token will carry -/
  | flight (n t id : Nat)
  /-- token `k`, counted from the oldest, of a FIFO -/
  | token (n t fifo k : Nat)
  /-- the last barrier of a scope that a tile has issued -/
  | barrier (n t scope : Nat)
  /-- the NX transfer that tile `t` sent under a number -/
  | transfer (n t seq : Nat)
  | status (n t sw : Nat)
  /-- byte `b` as the REL of order `order` wrote it -/
  | released (b order : Nat)
  | completion (word : Nat)
deriving DecidableEq, Repr

/-- The canonical form of a memory (Host.Cell pairs): addresses strictly rising, no entry equal to what an unlisted one reads as. -/
abbrev Memory.wf (m : List Host.Cell) : Bool := Store.wf 0 m

/-- The state of the package. -/
structure State where
  cur : Cur := {}
  focus : Agent := .core 0
  agenda : List Move := []
  /-- The counter that a free value is applied to; the model's own, no register. -/
  tick : Nat := 0
  -- memory (R61), poison of its 64-byte lines (R319), ownership (R355), keys (R359)
  mem : List Host.Cell := []
  poison : Store Nat := []
  pot : Store PotE := []
  keys : Store (Option Nat) := []
  keysZero : Store Bool := []
  /-- KEYZ in progress: the world, and who waits for it. -/
  keyz : List (Nat × Option (Nat × Nat × Bool)) := []
  -- tiles, regions, cores
  tiles : Store Tile := []
  slots : Store Slot := []
  cores : Store CCore := []
  walkers : Store CCore := []
  walkStore : Store Byte := []
  wentry : Store Nat := []
  tlb : List TlbE := []
  sync : List SoBind := []
  /-- The SNAPPED pages for which a write is held (R334). -/
  heldPages : List Nat := []
  -- health (R321), HBM channels (R385), fabric windows (R378), ports (R374, R376)
  health : Store Nat := []
  seamLat : Store Nat := []
  chans : Store Chan := []
  fwin : Store Nat := []
  ports : Store Port := []
  eth : Nat := 0
  /-- The VLAN id of each endpoint (R373). -/
  vlans : Store Nat := []
  /-- The keys of each compute-die to base-die link, one per direction, drawn at its training (R360). -/
  links : Store (Nat × Nat) := []
  -- launch (R277 to R288)
  vifs : Store Vif := []
  nodes : List Node := []
  nextArrival : Nat := 0
  age : Nat := 10000
  vifsel : Nat := 0
  -- events (R301), error records (R361), health log (R302)
  evq : List Event := []
  evLost : Nat := 0
  errSeq : Nat := 0
  /-- The sealed copies of error records that are still to be written, as world, SEQ and bytes (R361). -/
  logq : List (Nat × Nat × List Byte) := []
  healthLog : List Nat := []
  -- shoot-down (R315)
  sdva : Nat := 0
  sdroot : Nat := 0
  sdsize : Nat := 0
  sdall : Bool := false
  sdgo : Bool := false
  /-- What the shoot-down in progress selects: page, root, size, every page. -/
  sdNow : Nat × Nat × Nat × Bool := (0, 0, 0, false)
  sdwait : List Nat := []
  -- tenancy (Table 24.1)
  wsel : Nat := 0
  potBusy : Bool := false
  potErr : Nat := 0
  potDone : Nat := 0
  potCmd : Option (Nat × Nat × Nat × Nat) := none
  wkWorld : Nat := 0
  wkBusy : Bool := false
  /-- The world that the GEN in progress is for (R359). -/
  wkGen : Nat := 0
  wkErr : Nat := 0
  wlog : Store Nat := []
  bcsel : Nat := 0
  bounces : Store Bounce := []
  shedcap : Nat := 10000
  shedord : Nat := 0xFEDCBA9876543210
  watts : Nat := 0
  shedPwr : Nat := 0
  /-- What power shedding has done, the latest first: slot, pass, and in the first pass the rate before it (R371). -/
  shed : List (Nat × Nat × Nat) := []
  -- snapshots (Table 20.1)
  snsel : Nat := 0
  snaps : Store Snap := []
  sndrop : Nat := 0
  -- collectives and messages
  colls : List Coll := []
  /-- The time limit of the switch, ns (R379). -/
  collLimit : Nat := 50000
  /-- The number of commands issued on the package. -/
  cmdSeq : Nat := 0
  /-- The reads in hand, each by the number of its order, with the places that they happen before (R66); the model's own, no register.
  Notes: log entry 61. -/
  hb : List (Nat × Site) := []
  inbox : Store Msg := []
  nextMsg : Nat := 0
  outbox : List Out := []
  /-- The .pod barriers that a job's tiles on another package have all reached: package, world, JOBID, count (R170). -/
  podBars : List (Nat × Nat × Nat × Nat) := []
  /-- The .pod barriers that a job's tiles on this package have all reached, as told to the others: package told, world, JOBID, count. -/
  podSent : List (Nat × Nat × Nat × Nat) := []
  -- attachment, time and bring-up (Table 26.1)
  tb : Nat := 0
  tbPulse : Nat := 0
  /-- Correction pulses since the cold reset (R380). -/
  pulses : Nat := 0
  tbwall : Word := 0
  phase : Nat := 0
  rotsb : Bool := false
  /-- Neither root of trust has passed: the device stays in phase 0 (R384). -/
  bootFail : Bool := false
  /-- The phases follow a warm reset (R386). -/
  warm : Bool := false
  /-- The dies that are power-gated, one bit each (R364). -/
  gated : Nat := 0
  /-- The dies that the regions of each world stood on when one of them last left its tiles, one bit each (R364). -/
  worldDies : Store Nat := []
  hbmsel : Nat := 0
  fwsel : Nat := 0
  ethdrop : Nat := 0
  pkgid : Nat := 0
  pkgStore : Nat := 0
  /-- The package number in the version of the store that the last cold reset loaded. -/
  pkgNow : Nat := 0
  /-- The version of the signed configuration store, and the one that the last cold reset loaded (R388). -/
  cfgNext : Nat := 0
  cfgNow : Nat := 0
  draws : Nat := 0
  retrains : Nat := 0
deriving DecidableEq, Repr

/-- The machine right after a cold reset, with PHASE at 0 (R7, R384): every field at the reset value of its register table,
every store empty but key slot 0, whose key the root of trust has drawn (R359). The agenda and the turn order are the model's own. -/
def State.reset : State := { keys := [(0, some (Config.drawnKey 0))], draws := 1 }

end Sys2Proof.Machine
end

