-- ==== Sys2Proof/Machine/Ops.lean ====
section
/-! DEFINITION. The named operations over the state: finding a region, a tile, an engine or a core; tile memory and its declared buffers; status words, tokens and the colophon; taking a trap and returning from one; issuing a scalar word or an engine order. -/
namespace Sys2Proof

/-- R116, R14: a TQ of 6 or 7, or the issuing engine's own id, with a token request raises ILL. -/
def Ctl.legal (c : Ctl) (e : Nat) : Bool := c.tk == 0 || (c.tq < 6 && c.tq != e)
def Ctl.pops (c : Ctl) : Bool := bits c.tk 1 1 == 1
def Ctl.pushes (c : Ctl) : Bool := bits c.tk 0 1 == 1

namespace Machine

/-! ## Bytes (R3) -/

/-- The number that a little-endian list of bytes holds. -/
def leNat : List Byte → Nat
  | [] => 0
  | b :: r => b.toNat + 256 * leNat r

/-- The low `n` bytes of a number, lowest first. -/
def leBytes : Nat → Nat → List Byte
  | 0, _ => []
  | n + 1, v => BitVec.ofNat 8 v :: leBytes n (v / 256)

/-! ## Regions, tiles, engines, cores -/

/-- R15: the physical displacement of abstract tile `(x, y)` in a `w` by `h` region of orientation `o`. -/
def placeXY (w h o x y : Nat) : Nat × Nat :=
  let xm := if bits o 2 1 = 1 then w - 1 - x else x
  match bits o 0 2 with
  | 0 => (xm, y)
  | 1 => (h - 1 - y, xm)
  | 2 => (w - 1 - xm, h - 1 - y)
  | _ => (y, w - 1 - xm)

/-- The physical tile number, 56 y + x (R303), of abstract tile index `t` of the region that a slot holds. -/
def Slot.phys (r : Slot) (t : Nat) : Nat :=
  let p := placeXY r.w r.h r.orient (t % r.w) (t / r.w)
  (r.py + p.2) * Config.gridW + (r.px + p.1)

/-- The number of tiles of a region. -/
def Slot.count (r : Slot) : Nat := r.w * r.h

def State.slot (s : State) (n : Nat) : Slot := Store.get {} n s.slots
def State.setSlot (s : State) (n : Nat) (r : Slot) : State := { s with slots := Store.put {} n r s.slots }
def State.tile (s : State) (p : Nat) : Tile := Store.get {} p s.tiles
def State.setTile (s : State) (p : Nat) (t : Tile) : State := { s with tiles := Store.put {} p t s.tiles }
def State.core (s : State) (n : Nat) : CCore := Store.get {} n s.cores
def State.setCore (s : State) (n : Nat) (c : CCore) : State := { s with cores := Store.put {} n c s.cores }
def State.walker (s : State) (n : Nat) : CCore := Store.get {} n s.walkers
def State.setWalker (s : State) (n : Nat) (c : CCore) : State := { s with walkers := Store.put {} n c s.walkers }

/-- The tile at abstract index `t` of slot `n`. -/
def State.tileAt (s : State) (n t : Nat) : Tile := s.tile ((s.slot n).phys t)
def State.setTileAt (s : State) (n t : Nat) (x : Tile) : State := s.setTile ((s.slot n).phys t) x

/-- The Harness slot of the word in hand. -/
def State.slotNo (s : State) : Nat :=
  match s.cur.agent with
  | .region n => n
  | _ => 0
/-- The region, the physical tile number, the tile and the engine of the word in hand. -/
def State.region (s : State) : Slot := s.slot s.slotNo
def State.here (s : State) : Nat := s.region.phys s.cur.tile
def State.ctile (s : State) : Tile := s.tile s.here
def State.setCtile (s : State) (t : Tile) : State := s.setTile s.here t
def State.setRegion (s : State) (r : Slot) : State := s.setSlot s.slotNo r
def Tile.eng (t : Tile) (e : Nat) : Eng := Store.get {} e t.engs
def Tile.setEng (t : Tile) (e : Nat) (x : Eng) : Tile := { t with engs := Store.put {} e x t.engs }
def State.ceng (s : State) : Eng := s.ctile.eng s.cur.eng
/-- The step counter that software sees (R11): a STAMP that waits for its order has not been passed for good. -/
def Eng.pc (e : Eng) : Nat :=
  match e.stamp with
  | some p => p.step
  | none => e.step
/-- The image data of the current tile (R312). -/
def State.img (s : State) : TileImg := Store.get {} s.cur.tile s.region.imgs
/-- The region cycle (R28), unbounded; the registers show it modulo 2^48. -/
def State.now (s : State) : Nat := s.region.rcc
/-- The world of the region that a slot holds: that of its VIF (R354). -/
def State.worldOf (s : State) (n : Nat) : Nat := (s.slot n).world

/-- The core or walker core of the word in hand. -/
def State.ccore (s : State) : CCore :=
  match s.cur.agent with
  | .walker n => s.walker n
  | .core n => s.core n
  | .region _ => {}
def State.setCcore (s : State) (c : CCore) : State :=
  match s.cur.agent with
  | .walker n => s.setWalker n c
  | .core n => s.setCore n c
  | .region _ => s

/-- The word in hand is a region's (U level); otherwise it is a core's (S level). -/
def State.atU (s : State) : Bool :=
  match s.cur.agent with
  | .region _ => true
  | _ => false

/-- The word in hand runs in a U-level handler (R295). -/
def State.inHandler (s : State) : Bool := s.atU && s.region.handler && s.ctile.hflag

/-- The modulus register that a legal `q` makes: MU is computed with every write of Q (R86). -/
def QReg.of (q : Nat) : QReg := { valid := true, q := q, mu := 2 ^ 128 / q }

/-! ## Free values -/

/-- A value that the spec leaves open: the next one of `Config.freeWord`, and the state that has used it up. -/
def State.free (s : State) : Word × State := (Config.freeWord s.tick, { s with tick := s.tick + 1 })

/-! ## Scalar registers (R44, R148) -/

/-- g[n]; g0 reads zero. -/
def State.rdG (s : State) (n : Nat) : Word :=
  if n = 0 then 0 else Store.get 0 n (if s.atU then s.ctile.g else s.ccore.g)

/-- g[n] := v; a write to g0 is discarded. -/
def State.wrG (s : State) (n : Nat) (v : Word) : State :=
  if n = 0 then s
  else if s.atU then s.setCtile { s.ctile with g := Store.put 0 n v s.ctile.g }
  else s.setCcore { s.ccore with g := Store.put 0 n v s.ccore.g }

/-! ## Traps (R64, R289 to R296, R302) -/

/-- The code of a cause (Table 18.1). -/
def Cause.code : Cause → Nat
  | .ill => 0x01 | .priv => 0x02 | .align => 0x03 | .bufstate => 0x04 | .sets => 0x05 | .overrun => 0x06 | .late => 0x07
  | .xlate => 0x08 | .owner => 0x09 | .poison => 0x0A | .sdc => 0x0B | .token => 0x0C | .slot => 0x0E | .shadow => 0x0F
  | .brk => 0x11

/-- What `Trap(cause)` records beside the word: its operands of Table 18.3 (`opd0` none: the word itself) and, for TRAP, the
step at which the program continues. -/
structure Trap where
  cause : Cause
  opd0 : Option Nat := none
  opd1 : Nat := 0
  tret : Option Nat := none
deriving DecidableEq, Repr

/-- R293: the value "word" of the word in hand. -/
def Cur.trapWord (c : Cur) : Word := BitVec.ofNat 64 (c.word + c.pay * 2 ^ 32 + c.np * 2 ^ 58)

/-- The record that the word in hand leaves (R64, R292). -/
def Trap.record (t : Trap) (c : Cur) : TrapRec :=
  { cause := t.cause, eng := c.eng, step := c.step, opd1 := BitVec.ofNat 64 t.opd1, tret := t.tret,
    opd0 := match t.opd0 with
      | some v => BitVec.ofNat 64 v
      | none => c.trapWord }

/-- R290: within one tile the record of the lowest engine stands, and MORE is set. -/
def Tile.record (t : Tile) (r : TrapRec) : Tile :=
  match t.trapNow with
  | none => { t with trapNow := some r }
  | some o => { t with trapNow := some (if o.eng ≤ r.eng then { o with more := true } else { r with more := true }) }

/-- TCAUSE (Table 18.2). -/
def tcauseOf (r : TrapRec) (frcc : Nat) : Word :=
  BitVec.ofNat 64 (r.cause.code + r.eng * 2 ^ 8 + (if r.more then 2 ^ 11 else 0) + frcc % 2 ^ 48 * 2 ^ 12)

/-- R292: the trap record registers that a record sets; `sq` is SQ's step counter. -/
def Tile.writeRecord (t : Tile) (r : TrapRec) (frcc : Nat) : Tile :=
  { t with
    tcause := tcauseOf r frcc, tstep := BitVec.ofNat 64 r.step, topd0 := r.opd0, topd1 := r.opd1,
    tret := BitVec.ofNat 64 (match r.tret with
      | some n => n % 2 ^ 16
      | none => if r.eng = 0 then (r.step + 1) % 2 ^ 16 else (t.eng 0).pc % 2 ^ 16) }

/-- Set bits of CCIPEND of every control core (Table 18.4). -/
def State.raiseCC (s : State) (mask : Nat) : State :=
  let up (m : Store CCore) (n : Nat) : Store CCore := Store.put {} n { Store.get {} n m with ipend := (Store.get {} n m).ipend ||| mask } m
  { s with cores := (List.range Config.coreCount).foldl up s.cores }

/-- CCIPEND bits. -/
def ipTrap : Nat := 1
def ipHdone : Nat := 2
def ipEvent : Nat := 4
def ipShoot : Nat := 8
def ipWalk : Nat := 16
def ipEcc : Nat := 32

/-- The translation context of a VIF: the Harness slots come first. -/
def vifCtx (vif : Nat) : Nat := 1344 + vif
/-- The endpoints answer, and VIF queues may be enabled (R384). -/
def State.serves (s : State) : Bool := 2 ≤ s.phase
/-- The world of a translation context. -/
def State.ctxWorld (s : State) (ctx : Nat) : Nat := if ctx < 1344 then (s.slot ctx).world else (Store.get ({} : Vif) (ctx - 1344) s.vifs).world

/-- log2 of a page size code (R61, Table 18.12). -/
def pageBits (size : Nat) : Nat := if size = 0 then 12 else if size = 1 then 21 else 30
/-- A held translation covers an address. -/
def TlbE.covers (e : TlbE) (va : Nat) : Bool := e.va / 2 ^ pageBits e.size == va / 2 ^ pageBits e.size

/-- The bytes of an error record (Table 24.3). -/
def errorBytes (seq src : Nat) (red unc : Bool) (world addr synd time : Nat) : List Byte :=
  leBytes 4 seq ++ leBytes 4 (world + (if unc then 2 ^ 6 else 0) + (if red then 2 ^ 7 else 0) + src * 2 ^ 8) ++
  leBytes 8 addr ++ leBytes 8 synd ++ leBytes 8 time

/-- R361: an error record for a page or tile of a world: the host's copy, redacted for a protected world, and where the world's log
is enabled the full copy, which is written to the log page between the steps (State.flushLog). The syndrome is a free value. -/
def State.errorRecord (s : State) (src : Nat) (unc : Bool) (world addr : Nat) : State :=
  let f := s.free
  let s1 : State := f.2
  let full := errorBytes s1.errSeq src false unc world addr f.1.toNat s1.tb
  let host := if world = 0 then full else errorBytes s1.errSeq src true unc world 0 0 s1.tb
  let sealed := world != 0 && bits (Store.get 0 world s1.wlog) 63 1 == 1
  ({ s1 with errSeq := s1.errSeq + 1, outbox := s1.outbox ++ [.errorRecord host],
             logq := if sealed then s1.logq ++ [(world, s1.errSeq, full)] else s1.logq } : State).raiseCC ipEcc

/-- A handler that another one's fault ends: SQ stands where its record says that the region continues (R292, R295). -/
def Tile.quitHandler (t : Tile) : Tile :=
  if t.hflag then { t.setEng 0 { t.eng 0 with step := bits t.tret.toNat 0 16, stamp := none } with hflag := false } else t

/-- R295: a fault in the handler; the record is the handler's own, so SQ is a trapping engine of its tile (R305). Every handler of the
freeze ends with the handler cycle (State.endHandlerCycle). -/
def State.handlerFault (s : State) (t : Trap) : State :=
  let x := s.ctile.writeRecord (t.record s.cur) s.now
  let s1 := s.setCtile { x with hflag := false, again := x.again ||| 1 }
  s1.setRegion { s1.region with hfault := true }

/-- R302: an S-level trap of a core: CCRET, CCCAUSE and CCVEC; a second trap in the trap path stops the core. -/
def CCore.trap (c : CCore) (cause : Nat) (interrupt : Bool) (step : Nat) : CCore :=
  if c.inTrap then { c with halted := true, failed := true }
  else { c with ccret := step % 2 ^ 16, ccCause := cause, ccInt := interrupt, inTrap := true, step := c.ccvec }

/-- The core number under which the health log lists a core: control cores 0 to 15, walker cores from 16. -/
def coreLogNo : Agent → Nat
  | .core n => n
  | .walker n => Config.coreCount + n
  | .region _ => 0

/-- R302: the trap of the core whose word is in hand, a second one noted in the health log. -/
def State.coreTrap (s : State) (cause : Nat) : State :=
  let c := s.ccore
  let s1 := s.setCcore (c.trap cause false s.cur.first)
  if c.inTrap then { s1 with healthLog := s1.healthLog ++ [coreLogNo s.cur.agent] } else s1

/-- POISON and SDC taint the instance (R317, R319), and the error makes an error record with its source (R361, Table 18.3). -/
def State.noteTrap (s : State) (t : Trap) : State :=
  if t.cause = .poison ∨ t.cause = .sdc then
    let s1 := s.setRegion { s.region with tainted := true }
    s1.errorRecord (t.opd1 % 16) true s1.region.world s1.here
  else s

/-- Trap(cause) (R64): the shared operation that takes a fault. In a region the tile records it, and the region freezes after
the cycle; in a handler the handler ends; a core enters its own trap path. The order has had no effect. -/
def State.takeTrap (s : State) (t : Trap) : State :=
  if s.atU then
    let s1 := s.noteTrap t
    if s1.inHandler then s1.handlerFault t
    else
      let x := s1.ctile.record (t.record s1.cur)
      s1.setCtile { x with again := x.again ||| 2 ^ s1.cur.eng }
  else s.coreTrap t.cause.code

/-- The return from a core's trap path: ERET at S (R302). -/
def CCore.eret (c : CCore) : CCore := { c with inTrap := false, step := c.ccret }

/-! ## Tile SRAM and declared buffers (R46, R47, R49 to R53, R59) -/

/-- SECDED marks (R318): per 64-bit word of a space, 1 a single-bit error, 2 an uncorrectable one; spaces as in Table 18.3. -/
def eccKey (space addr : Nat) : Nat := space * 2 ^ 24 + addr / 8
def Tile.eccIn (t : Tile) (space addr n : Nat) : List (Nat × Nat) :=
  t.ecc.filter (fun e => eccKey space addr ≤ e.1 && e.1 ≤ eccKey space (addr + n - 1) && n != 0)
/-- An uncorrectable error lies in `n` bytes. -/
def Tile.bad (t : Tile) (space addr n : Nat) : Bool := (t.eccIn space addr n).any (fun e => e.2 == 2)
/-- The number of single-bit errors in `n` bytes. -/
def Tile.single (t : Tile) (space addr n : Nat) : Nat := ((t.eccIn space addr n).filter (fun e => e.2 == 1)).length

/-- R318: a read corrects the single-bit errors that it meets, writes them back and counts them in the tile's health entry. -/
def State.correctAt (s : State) (slot p space addr n : Nat) : State :=
  let t := s.tile p
  let k := t.single space addr n
  if k = 0 then s
  else
    let h := Store.get 0 p s.health
    let cnt := Nat.min 255 (bits h 8 8 + k)
    let s1 := s.setTile p { t with ecc := t.ecc.filter (fun e => !(eccKey space addr ≤ e.1 && e.1 ≤ eccKey space (addr + n - 1) && e.2 == 1)) }
    let s2 : State := { s1 with health := Store.put 0 p (h % 2 ^ 8 + cnt * 2 ^ 8) s1.health }
    let s3 := (List.range k).foldl (fun u _ => u.errorRecord space false (u.slot slot).world p) s2
    s3.setSlot slot { s3.slot slot with corrected := true }
def State.correct (s : State) (space addr n : Nat) : State := s.correctAt s.slotNo s.here space addr n

/-- The state of buffer `b`. -/
def Tile.buf (t : Tile) (b : Nat) : Buf := Store.get {} b t.bufs
def Tile.setBuf (t : Tile) (b : Nat) (x : Buf) : Tile := { t with bufs := Store.put {} b x t.bufs }
/-- The declaration of buffer `b` in the current tile (Table 3.2). -/
def State.decl (s : State) (b : Nat) : BufDecl := Store.get {} b s.img.decls
/-- The length in bytes. -/
def BufDecl.bytes (d : BufDecl) : Nat := d.len * 4096
/-- The tile SRAM address of a byte of a buffer (R49). -/
def BufDecl.addr (d : BufDecl) (off : Nat) : Nat := d.base * 4096 + off

/-- Engine `e` of the tile may read buffer `b` in the open segment (R53). -/
def Seg.canRead (g : Seg) (e b : Nat) : Bool :=
  bits (Store.get 0 e g.rset) b 1 == 1 || (g.elastic && bits (Store.get 0 e g.wset) b 1 == 1)
/-- Engine `e` may write buffer `b` or change its state (R53). -/
def Seg.canWrite (g : Seg) (e b : Nat) : Bool := bits (Store.get 0 e g.wset) b 1 == 1

/-- The trap of a failing buffer check: TOPD1 names the buffer and the byte offset (Table 18.3). -/
def bufTrap (c : Cause) (b off : Nat) : Trap := { cause := c, opd1 := b + off % 2 ^ 32 * 2 ^ 32 }

/-- The checks of ReadBuf (R49), in order; `none` when they pass. -/
def State.chkRead (s : State) (e b off n : Nat) : Option Trap :=
  let d := s.decl b
  let st := (s.ctile.buf b).st
  if !d.valid || !s.ctile.seg.canRead e b then some (bufTrap .sets b off)
  else if off % n != 0 then some (bufTrap .align b off)
  else if d.bytes < off + n then some (bufTrap .bufstate b off)
  else if !(st == .full || st == .draining) then some (bufTrap .bufstate b off)
  else none

/-- The checks of WriteBuf (R49), in order. -/
def State.chkWrite (s : State) (e b off n : Nat) : Option Trap :=
  let d := s.decl b
  let st := (s.ctile.buf b).st
  if !d.valid || !s.ctile.seg.canWrite e b then some (bufTrap .sets b off)
  else if off % n != 0 then some (bufTrap .align b off)
  else if d.bytes < off + n then some (bufTrap .bufstate b off)
  else if !(st == .empty || st == .full) then some (bufTrap .bufstate b off)
  else none

/-- The trap of an uncorrectable error in a local read (R318): source 3, tile SRAM. -/
def poisonTrap (source : Nat) : Trap := { cause := .poison, opd1 := source }

/-- The bytes of a buffer. -/
def State.bufBytes (s : State) (b off n : Nat) : List Byte := Store.getN 0 s.ctile.sram ((s.decl b).addr off) n

/-- ReadBuf(e, b, off, n) (R49), with the POISON of R318. -/
def State.readBuf (s : State) (e b off n : Nat) : Except Trap (List Byte) :=
  match s.chkRead e b off n with
  | some t => .error t
  | none =>
    if s.ctile.bad 3 ((s.decl b).addr off) n then .error (poisonTrap 3)
    else .ok (s.bufBytes b off n)

/-- The first failing check of a list of element accesses. -/
def firstTrap {α : Type} (f : α → Option Trap) : List α → Option Trap
  | [] => none
  | j :: r =>
    match f j with
    | some t => some t
    | none => firstTrap f r

/-- ReadBuf of a list of pieces, as offset and length: the checks of every piece in order, then the POISON of each (R251). Notes: log
entry 20. -/
def State.readBufs (s : State) (e b : Nat) (xs : List (Nat × Nat)) : Except Trap (List (List Byte)) :=
  match firstTrap (fun x => s.chkRead e b x.1 x.2) xs with
  | some t => .error t
  | none => xs.mapM (fun x => s.readBuf e b x.1 x.2)

/-- Write bytes of tile SRAM: whole 64-bit words lose their SECDED mark. -/
def Tile.wrSram (t : Tile) (addr : Nat) (data : List Byte) : Tile :=
  { t with
    sram := Store.putL 0 t.sram addr data,
    ecc := t.ecc.filter (fun e => !(eccKey 3 (addr + 7) ≤ e.1 && e.1 < eccKey 3 (addr + data.length))) }

/-- R316: before the first store of a handler, or the first bytes of a copy in, the contents at the end of cycle c are kept. -/
def Tile.holdC (t : Tile) : Tile := if t.atC.isSome then t else { t with atC := some { sram := t.sram, dirty := t.dirty, ecc := t.ecc } }

/-- R59: mark the granules of a bound buffer that hold `n` bytes from `addr`. -/
def Tile.markDirty (t : Tile) (b addr n : Nat) : Tile :=
  if (t.buf b).bound && n != 0 then
    let g := List.range ((addr + n - 1) / 4096 + 1 - addr / 4096)
    { t with dirty := g.foldl (fun m i => Store.put false (addr / 4096 + i) true m) t.dirty }
  else t

/-- A local write makes an EMPTY buffer FULL (Table 3.3). -/
def Tile.fillBuf (t : Tile) (b : Nat) : Tile := if (t.buf b).st == .empty then t.setBuf b { t.buf b with st := .full } else t

/-- The effect of WriteBuf whose bytes are written at once: the bytes, the dirty mark, and EMPTY to FULL at the cycle's end (R51),
which for a handler's store is the end of its own handler cycle (R295). -/
def State.writeBuf (s : State) (b off : Nat) (data : List Byte) : State :=
  let a := (s.decl b).addr off
  let t := ((if s.inHandler then s.ctile.holdC else s.ctile).wrSram a data).markDirty b a data.length
  s.setCtile (if s.inHandler then t.fillBuf b else { t with effs := t.effs ++ [(s.now, .bufFull b)] })

/-! ## Status words (R63) -/

def phaseOf (w : Word) : Bool := bits w.toNat 63 1 == 1
def remainOf (w : Word) : Nat := bits w.toNat 0 48
def errOf (w : Word) : Nat := bits w.toNat 56 7
def swMake (phase : Bool) (err remain : Nat) : Word :=
  BitVec.ofNat 64 ((if phase then 2 ^ 63 else 0) + err % 128 * 2 ^ 56 + remain % 2 ^ 48)

/-- StatusWrite(sw, code) on the value of a word. -/
def swStatus (w : Word) (code : Nat) : Word := if code = 0 then w else swMake (!phaseOf w) code 0

/-- Arming with `n` bytes: the new value, or nothing where REMAIN would pass its limit. -/
def swArm (w : Word) (n : Nat) : Option Word :=
  if remainOf w = 0 then
    if n = 0 then some (swMake (!phaseOf w) 0 0)
    else if n < 2 ^ 48 then some (swMake (phaseOf w) 0 n) else none
  else if remainOf w + n < 2 ^ 48 then some (swMake (phaseOf w) (errOf w) (remainOf w + n)) else none

/-- `n` performed bytes of a command that armed under `phase`: REMAIN falls, and PHASE flips at zero. -/
def swPerform (w : Word) (phase : Bool) (n : Nat) : Word :=
  if phaseOf w != phase || n == 0 || remainOf w == 0 then w
  else if remainOf w ≤ n then swMake (!phaseOf w) (errOf w) 0
  else swMake (phaseOf w) (errOf w) (remainOf w - n)

/-- sw n of the agent whose word is in hand. -/
def State.rdSw (s : State) (n : Nat) : Word := Store.get 0 n (if s.atU then s.ctile.sw else s.ccore.sw)
def State.wrSw (s : State) (n : Nat) (v : Word) : State :=
  if s.atU then s.setCtile { s.ctile with sw := Store.put 0 n v s.ctile.sw }
  else s.setCcore { s.ccore with sw := Store.put 0 n v s.ccore.sw }
/-- POISON that reaches a status word taints the instance (R319). -/
def State.taintIf (s : State) (c : Bool) : State := if c && s.atU then s.setRegion { s.region with tainted := true } else s
def State.statusWrite (s : State) (n code : Nat) : State := (s.wrSw n (swStatus (s.rdSw n) code)).taintIf (code == 1)

/-! ## Tokens (R14) -/

/-- The index of the FIFO from producer `p` to consumer `c` (TOKENS of Table 18.9). -/
def fifo (p c : Nat) : Nat := 5 * p + (if c < p then c else c - 1)
def Tile.token (t : Tile) (p c : Nat) : Nat := Store.get 0 (fifo p c) t.tokens
def Tile.popToken (t : Tile) (p c : Nat) : Tile := { t with tokens := Store.put 0 (fifo p c) (t.token p c - 1) t.tokens }
def Tile.pushToken (t : Tile) (p c : Nat) : Tile := { t with tokens := Store.put 0 (fifo p c) (t.token p c + 1) t.tokens }

/-! ## The colophon (R36, R167) -/

/-- One bit of the reflected CRC-32C. -/
def crcBit (c : BitVec 32) : BitVec 32 := (c >>> 1) ^^^ (if c.getLsbD 0 then 0x82F63B78 else 0)
def crcBits : Nat → BitVec 32 → BitVec 32
  | 0, c => c
  | n + 1, c => crcBits n (crcBit c)
/-- Feed one 32-bit word, as its four bytes in little-endian order. -/
def crcWord (c : BitVec 32) (w : Nat) : BitVec 32 := crcBits 32 (c ^^^ BitVec.ofNat 32 w)
def crcWords (c : BitVec 32) (ws : List Nat) : BitVec 32 := ws.foldl crcWord c

/-- The CRC state of one stream of words followed by a stream of `n` words whose own state is `b`. -/
def crcJoin (a b : BitVec 32) (n : Nat) : BitVec 32 := crcBits (32 * n) (a ^^^ 0xFFFFFFFF) ^^^ b

/-- R36: the signature of the open segment, the engines taken in id order. -/
def Tile.signature (t : Tile) : BitVec 32 :=
  (List.range 6).foldl (fun c e => crcJoin c (t.eng e).crc (t.eng e).wcount) 0xFFFFFFFF ^^^ 0xFFFFFFFF

/-- The words that an order adds to its engine's stream: its STAMP, its extension words and its own word. -/
def Eng.feed (e : Eng) (raws : List Nat) : Eng :=
  let ws := (match e.stamp with
    | some p => [p.raw]
    | none => []) ++ raws
  { e with stamp := none, wcount := e.wcount + ws.length, crc := crcWords e.crc ws }

/-! ## Issue (R14, R30 to R33, R146, R147) -/

/-- Readiness: the cycle from which a register or unit is ready. Keys: g n at n; the divider at 32. -/
def Tile.ready (t : Tile) (k : Nat) : Nat := Store.get 0 k t.sb
def Tile.busy (t : Tile) (k until_ : Nat) : Tile := { t with sb := Store.put 0 k until_ t.sb }
def keyDiv : Nat := 32
def keyV (n : Nat) : Nat := 64 + n
def keyK (n : Nat) : Nat := 128 + n
def keyQ (n : Nat) : Nat := 136 + n
def keySeed : Nat := 144
def keyBfxV : Nat := 145
def keyBfxS : Nat := 146

/-- R30: the issue cycle that a STAMP gives. -/
def Tile.stampTime (t : Tile) (p : Stamp) : Nat := (if p.seg then t.segcyc else t.frmorg) + p.time

/-- The open segment is timed (R34). Before the first SEG no order has an issue time to keep. -/
def Tile.timed (t : Tile) : Bool := t.seg.opened && !t.seg.elastic

/-- What the wrapper of an order decides at one cycle: issue, not yet, or OVERRUN. -/
inductive Gate where
  | go | stall | trap (t : Trap)
deriving DecidableEq, Repr

/-- The OVERRUN of R32, with the condition and the cycle due (Table 18.3). -/
def overrun (cond due : Nat) : Trap := { cause := .overrun, opd1 := cond + due % 2 ^ 48 * 2 ^ 16 }

/-- What a scalar word needs before it issues. -/
structure Need where
  /-- A check of the decoding class (R123), made when the word is fetched. -/
  pre : Option Trap := none
  reads : List Nat := []
  dest : Nat := 0
  lat : Nat := 1
  /-- A unit that is not pipelined, and its occupancy (Table 8.1). -/
  unit : Option (Nat × Nat) := none
  /-- The wait that the word expresses is met (R32, condition 3). -/
  met : Bool := true
  /-- A unit condition beside the divider (R32, condition 1). -/
  free : Bool := true
  ctl : Ctl := { tk := 0, gap := 0, tq := 0 }
deriving DecidableEq, Repr

/-- The operands of a scalar word are ready, and earlier writes to its destination have been made (R31, R146). -/
def Need.ready (n : Need) (t : Tile) (now : Nat) : Bool :=
  n.reads.all (fun r => r == 0 || t.ready r ≤ now) && (n.dest == 0 || t.ready n.dest ≤ now)

def Need.unitFree (n : Need) (t : Tile) (now : Nat) : Bool :=
  n.free && (match n.unit with
    | some u => t.ready u.1 ≤ now
    | none => true)

def tokenOk (c : Ctl) (t : Tile) (e : Nat) : Bool := !c.pops || t.token c.tq e != 0

/-- R31 to R33 and R147 for a word of SQ in a running region: an operand that is not ready counts as condition 1, an earlier word's
next cycle as condition 4, a wait of QFENCE or SEG as condition 3. Notes: log entry 29. -/
def Need.gate (n : Need) (t : Tile) (now : Nat) : Gate :=
  let e := t.eng 0
  let rd := n.ready t now
  let uf := n.unitFree t now
  let tok := tokenOk n.ctl t 0
  match e.stamp with
  | some p =>
    let due := t.stampTime p
    if t.timed then
      if now < due then .stall
      else if due < e.next then .trap (overrun 4 due)
      else if now != due || !rd || !uf then .trap (overrun 1 due)
      else if !tok then .trap (overrun 2 due)
      else if !n.met then .trap (overrun 3 due)
      else .go
    else if due ≤ now && e.next ≤ now && rd && uf && tok && n.met then .go
    else .stall
  | none =>
    if now < e.next || !rd then .stall
    else if t.timed then
      if !uf then .trap (overrun 1 now)
      else if !tok then .trap (overrun 2 now)
      else if !n.met then .trap (overrun 3 now)
      else .go
    else if uf && tok && n.met then .go
    else .stall

/-- A handler's word issues by the latencies of Table 8.1, counted in handler cycles (R295). -/
def Need.handlerGate (n : Need) (t : Tile) (hcyc : Nat) : Gate :=
  let x := { t with sb := t.hsb }
  if t.hnext ≤ hcyc && n.ready x hcyc && n.unitFree x hcyc then .go else .stall

/-- The gate of a scalar word: a core's word has no issue time, and a handler's none in region cycles (R145, R295). -/
def State.scalarGate (s : State) (n : Need) : Gate :=
  if !s.atU then .go
  else if s.inHandler then n.handlerGate s.ctile s.region.hcyc
  else n.gate s.ctile s.now

/-- Where control goes after a scalar word (Table 8.1, R159). -/
inductive Flow where
  /-- to the following step, through the end test of the innermost loop -/
  | fall
  /-- a taken branch, JAL or JALR -/
  | jump (target : Nat)
  /-- LOOP with a count of 0: to the step after `last` -/
  | skip (last : Nat)
  /-- ERET -/
  | back (target : Nat)
  /-- REND, HALT: nothing more is fetched by this word's effect -/
  | stop
deriving DecidableEq, Repr

/-- R159: the end test at step `last`: the new stack and the next step. -/
def loopEnd (last next : Nat) : List LoopE → List LoopE × Nat
  | [] => ([], next)
  | l :: r =>
    if l.last = last then
      if l.count - 1 = 0 then loopEnd last next r else ({ l with count := l.count - 1 } :: r, l.start)
    else (l :: r, next)

/-- The end test after a sequence that holds the steps `first` to `own` and issues as one (R118): it is made where the innermost loop's
last step is one of them, its word's own step or that of a prefix or STAMP before it (R120, R131). Notes: log entry 51. -/
def seqEnd (first own next : Nat) (loops : List LoopE) : List LoopE × Nat :=
  match loops with
  | [] => ([], next)
  | l :: _ => if first ≤ l.last ∧ l.last ≤ own then loopEnd l.last next loops else (loops, next)

/-- The loop stack and the next step after a sequence of the steps `first` to `own` whose following step is `next`; `frozen` stacks stay
(R295). -/
def Flow.next (f : Flow) (first own next : Nat) (frozen : Bool) (loops : List LoopE) : List LoopE × Nat :=
  match f with
  | .fall => if frozen then (loops, next) else seqEnd first own next loops
  | .jump t => (if frozen then loops else loops.filter (fun l => l.start ≤ t && t ≤ l.last), t)
  | .skip last => loopEnd last (last + 1) loops
  | .back t => (loops, t)
  | .stop => (loops, next)

/-- Table 8.1: the cycles from issue to the earliest next scalar word. -/
def Flow.delay : Flow → Nat
  | .fall => 1 | .jump _ => 2 | .skip _ => 2 | .back _ => 1 | .stop => 1

/-- A new order in flight in the current tile (R217). -/
def Tile.addFlight (t : Tile) (f : Flight) : Tile := { t with flights := t.flights ++ [f], nextId := t.nextId + 1 }

/-- The first step of the sequence of SQ's word in hand: its STAMP's, else that of its first prefix or its own (R118). -/
def Tile.seqFirst (t : Tile) (c : Cur) : Nat :=
  match (t.eng 0).stamp with
  | some p => p.step
  | none => c.first

/-- The bookkeeping of a scalar word of SQ that has issued: readiness of its result, its unit, its place in the colophon, the
step counter, the loop stack, the earliest next cycle, and its token (R117). -/
def Tile.commitSq (t : Tile) (n : Need) (f : Flow) (c : Cur) (now : Nat) : Tile :=
  let t1 := if n.dest = 0 then t else t.busy n.dest (now + n.lat)
  let t2 := match n.unit with
    | some u => t1.busy u.1 (now + u.2)
    | none => t1
  let p := f.next (t.seqFirst c) c.step c.nextStep false t2.loops
  let e := (t2.eng 0).feed c.raws
  let t3 := { (t2.setEng 0 { e with step := p.2, next := now + f.delay, tprev := now }) with loops := p.1 }
  if n.ctl.pushes then
    t3.addFlight { id := t3.nextId, eng := 0, retire := some now, push := some n.ctl.tq, effs := [], step := c.step, raw := c.trapWord,
                   first := c.first, issue := now }
  else t3

/-- The bookkeeping of a word that runs in a handler: no issue time, no colophon, no loop stack, its latencies in handler cycles
(R295). -/
def Tile.commitHandler (t : Tile) (n : Need) (f : Flow) (c : Cur) (hcyc : Nat) : Tile :=
  let b1 := if n.dest = 0 then t.hsb else Store.put 0 n.dest (hcyc + n.lat) t.hsb
  let b2 := match n.unit with
    | some u => Store.put 0 u.1 (hcyc + u.2) b1
    | none => b1
  { t.setEng 0 { t.eng 0 with step := (f.next c.first c.step c.nextStep true t.loops).2 } with hsb := b2, hnext := hcyc + f.delay }

/-- The bookkeeping of a core's word. -/
def CCore.commit (x : CCore) (f : Flow) (c : Cur) : CCore :=
  let p := f.next c.first c.step c.nextStep false x.loops
  { x with step := p.2, loops := p.1 }

def State.commitScalar (s : State) (n : Need) (f : Flow) : State :=
  if s.atU then
    if s.inHandler then s.setCtile (s.ctile.commitHandler n f s.cur s.region.hcyc)
    else s.setCtile (s.ctile.commitSq n f s.cur s.now)
  else s.setCcore (s.ccore.commit f s.cur)

/-- The pop of a word's token, made before it issues (R14, R116). -/
def State.popFor (s : State) (c : Ctl) (e : Nat) : State :=
  if c.pops && s.atU then s.setCtile (s.ctile.popToken c.tq e) else s

/-- One scalar word: its fetch checks, its issue rule, its own checks and effect, its bookkeeping. -/
def State.scalarWord (s : State) (n : Need) (body : State → Except Trap (State × Flow)) : State :=
  match n.pre with
  | some t => s.takeTrap t
  | none =>
    match s.scalarGate n with
    | .stall => s
    | .trap t => s.takeTrap t
    | .go =>
      match body (s.popFor n.ctl 0) with
      | .error t => s.takeTrap t
      | .ok r => r.1.commitScalar n r.2

/-- What an engine order needs before it issues. -/
structure ENeed where
  ctl : Ctl
  pre : Option Trap := none
  /-- Its unit is free and its operands are ready (R32, condition 1). -/
  free : Bool := true
  /-- Its wait is met (R32, condition 3). -/
  met : Bool := true
deriving DecidableEq, Repr

/-- R31 to R33 for an engine order; an order that a THAW issues again is due at `next` (R305). Of several conditions of an OVERRUN the record
names condition 4, else the lowest of 1 to 3. Notes: log entry 29. -/
def ENeed.gate (n : ENeed) (t : Tile) (e : Eng) (eid now : Nat) : Gate :=
  let tok := tokenOk n.ctl t eid
  let due := if e.next != 0 then e.next else match e.stamp with
    | some p => t.stampTime p
    | none => e.tprev + 1 + n.ctl.gap
  if now < due then .stall
  else if t.timed then
    if due < e.tprev + 1 then .trap (overrun 4 due)
    else if now != due || !n.free then .trap (overrun 1 due)
    else if !tok then .trap (overrun 2 due)
    else if !n.met then .trap (overrun 3 due)
    else .go
  else if n.free && tok && n.met && e.tprev < now then .go
  else .stall

/-- What an order does beside its body's effect: when it retires (none: with its command), and what then takes effect. -/
structure Issue where
  retire : Option Nat := none
  effs : List Eff := []
  accW : Nat := 0
  slotR : Nat := 0
  done : Option (Nat × Nat × Bool) := none
  opRd : List (Nat × Nat) := []
  opWr : List (Nat × Nat) := []
  intPath : Bool := false
  land : Option Nat := none
  blocks : Bool := false
  before : Option Before := none
deriving DecidableEq, Repr

/-- The order of an engine that trapped at its retirement and issues again before any other word of it (R305, R317). -/
def Tile.redoing (t : Tile) (e : Nat) : Option Flight := t.flights.find? (fun f => f.eng == e && f.redo)

/-- The bookkeeping of an order that issues again: its words have been counted and passed, and its engine stays as it is (R305). -/
def Tile.passRedo (t : Tile) (e now : Nat) (f : Flight) : Tile :=
  { t.setEng e { t.eng e with tprev := now, next := 0 } with flights := t.flights.filter (fun g => g.id != f.id) }

/-- The bookkeeping of an order in its engine: its words, its step, its run (R13, R31, R36). -/
def Tile.passOrder (t : Tile) (c : Cur) (now : Nat) : Tile :=
  let e := (t.eng c.eng).feed c.raws
  let t1 := t.setEng c.eng { e with step := c.nextStep, tprev := now, next := 0, run := e.run - 1 }
  if e.run = 1 then { t1 with effs := t1.effs ++ [(now, .engEnd c.eng)] } else t1

/-- The bookkeeping of an engine order that has issued (R13, R14, R31, R36). -/
def Tile.commitOrder (t : Tile) (n : ENeed) (i : Issue) (c : Cur) (now : Nat) : Tile :=
  let t2 := match t.redoing c.eng with
    | some f => t.passRedo c.eng now f
    | none => t.passOrder c now
  t2.addFlight { id := t2.nextId, eng := c.eng, retire := i.retire, push := if n.ctl.pushes then some n.ctl.tq else none,
                 effs := i.effs, step := c.step, raw := c.trapWord, accW := i.accW, slotR := i.slotR, done := i.done,
                 opRd := i.opRd, opWr := i.opWr, intPath := i.intPath, land := i.land, blocks := i.blocks,
                 first := c.first, issue := now, pop := if n.ctl.pops then some n.ctl.tq else none, before := i.before }

/-- One engine order: its fetch checks, its issue rule, its own checks and effect, its bookkeeping. -/
def State.engineOrder (s : State) (n : ENeed) (body : State → Except Trap (State × Issue)) : State :=
  let pre := if n.ctl.legal s.cur.eng then n.pre else some { cause := .ill }
  match pre with
  | some t => s.takeTrap t
  | none =>
    match n.gate s.ctile s.ceng s.cur.eng s.now with
    | .stall => s
    | .trap t => s.takeTrap t
    | .go =>
      match body (s.popFor n.ctl s.cur.eng) with
      | .error t => s.takeTrap t
      | .ok r => r.1.setCtile (r.1.ctile.commitOrder n r.2 s.cur s.now)

def ill : Trap := { cause := .ill }
def priv : Trap := { cause := .priv }

/-- A word of SQ alone, not legal in a handler (R113, R295): on a core or in a handler it raises ILL. -/
def State.sqOnly (s : State) : Option Trap := if s.atU && !s.inHandler then none else some ill
/-- A word that is not legal in a handler (R295). -/
def State.noHandler (s : State) : Option Trap := if s.inHandler then some ill else none
/-- R18: a unit that the tile's capability mask does not declare. -/
def TileImg.mxn (i : TileImg) : Bool := bits i.mask 0 1 == 1
def TileImg.vxall (i : TileImg) : Bool := bits i.mask 1 1 == 1

/-! ## Fetching (R12) -/

/-- The words from step `k` on: at most `n`, none beyond step 65,535. -/
def wordsFrom (m : Store Code) : Nat → Nat → List Code
  | _, 0 => []
  | k, n + 1 => if k < Config.storeWords then Store.get 0 k m :: wordsFrom m (k + 1) n else []

/-- The instruction at a step of an order store. -/
def decodeAt (m : Store Code) (step : Nat) : Except DecodeError Decoded := decode (wordsFrom m step 3)

/-- No order of the given engines is in flight in the tile. -/
def Tile.quietOf (t : Tile) (mask : Nat) : Bool := t.flights.all (fun f => bits mask f.eng 1 == 0)

end Machine

end Sys2Proof
end

