-- ==== Sys2Proof/Machine/Scalar.lean ====
section
/-! DEFINITION. The scalar words of MAJ 0x00 to 0x10: integer arithmetic, immediates, loads and stores of tile SRAM, branches, loops and engine control (R145 to R163, R391). -/
namespace Sys2Proof.Machine

/-! ## Results (R149 to R153) -/

/-- A 0 or 1. -/
def ofBool (b : Bool) : Word := if b then 1 else 0
/-- The shift count of Table 8.2: bits 5:0. -/
def shamt (b : Word) : Nat := bits b.toNat 0 6
def shl64 (a : Word) (n : Nat) : Word := a <<< n
def shr64 (a : Word) (n : Nat) : Word := a >>> n
def sra64 (a : Word) (n : Nat) : Word := a.sshiftRight n

/-- Ones among the low `n` bits. -/
def popFrom (v : Nat) : Nat → Nat
  | 0 => 0
  | n + 1 => popFrom v n + bits v n 1
/-- The number of leading zeros below bit `n`. -/
def clzFrom (v : Nat) : Nat → Nat
  | 0 => 0
  | n + 1 => if bits v n 1 = 1 then 0 else clzFrom v n + 1
/-- The number of trailing zeros among `n` bits from bit `k`. -/
def ctzFrom (v : Nat) : Nat → Nat → Nat
  | _, 0 => 0
  | k, n + 1 => if bits v k 1 = 1 then 0 else ctzFrom v (k + 1) n + 1
/-- Bits reversed: bit i of the result is bit n - 1 - i. -/
def revFrom (v : Nat) : Nat → Nat
  | 0 => 0
  | n + 1 => bits v 0 1 * 2 ^ n + revFrom (v / 2) n

def clz64 (a : Word) : Word := BitVec.ofNat 64 (clzFrom a.toNat 64)
def ctz64 (a : Word) : Word := BitVec.ofNat 64 (ctzFrom a.toNat 0 64)
def popc64 (a : Word) : Word := BitVec.ofNat 64 (popFrom a.toNat 64)
def brev64 (a : Word) : Word := BitVec.ofNat 64 (revFrom a.toNat 64)

/-- MULH and MULHN: bits 127:64 of the exact product. -/
def mulh64 (a b : Word) : Word := BitVec.ofInt 64 (a.toInt * b.toInt / 2 ^ 64)
def mulhn64 (a b : Word) : Word := BitVec.ofNat 64 (a.toNat * b.toNat / 2 ^ 64)

/-- Table 8.3: division truncates toward zero and never traps; the sole overflow wraps. -/
def div64 (a b : Word) : Word := if b = 0 then BitVec.allOnes 64 else BitVec.ofInt 64 (a.toInt.tdiv b.toInt)
def rem64 (a b : Word) : Word := if b = 0 then a else BitVec.ofInt 64 (a.toInt.tmod b.toInt)
def divn64 (a b : Word) : Word := if b = 0 then BitVec.allOnes 64 else BitVec.ofNat 64 (a.toNat / b.toNat)
def remn64 (a b : Word) : Word := if b = 0 then a else BitVec.ofNat 64 (a.toNat % b.toNat)

def minS (a b : Word) : Word := if a.toInt ≤ b.toInt then a else b
def maxS (a b : Word) : Word := if a.toInt ≤ b.toInt then b else a
def minU (a b : Word) : Word := if a.toNat ≤ b.toNat then a else b
def maxU (a b : Word) : Word := if a.toNat ≤ b.toNat then b else a

/-! ## Register-to-register and immediate words -/

/-- A word whose whole effect is one register write: g[rd] := f, readable after `lat` cycles (Table 8.1). -/
def State.aluWord (s : State) (reads : List Nat) (rd lat : Nat) (unit : Option (Nat × Nat)) (f : State → Word) : State :=
  s.scalarWord { reads := reads, dest := rd, lat := lat, unit := unit } (fun a => .ok (a.wrG rd (f a), .fall))

/-- Two source registers, latency 1 (MAJ 0x00). -/
def State.alu2 (s : State) (rd rs rt : Nat) (f : Word → Word → Word) : Host.Outcome State Fault Refusal :=
  .next (s.aluWord [rs, rt] rd 1 none (fun a => f (a.rdG rs) (a.rdG rt)))
/-- One source register, latency 1. -/
def State.alu1 (s : State) (rd rs : Nat) (f : Word → Word) : Host.Outcome State Fault Refusal :=
  .next (s.aluWord [rs] rd 1 none (fun a => f (a.rdG rs)))
/-- A multiply, latency 3. -/
def State.mul2 (s : State) (rd rs rt : Nat) (f : Word → Word → Word) : Host.Outcome State Fault Refusal :=
  .next (s.aluWord [rs, rt] rd 3 none (fun a => f (a.rdG rs) (a.rdG rt)))
/-- A divide: latency 20, and the divider occupied for 20 cycles. -/
def State.div2 (s : State) (rd rs rt : Nat) (f : Word → Word → Word) : Host.Outcome State Fault Refusal :=
  .next (s.aluWord [rs, rt] rd 20 (some (keyDiv, 20)) (fun a => f (a.rdG rs) (a.rdG rt)))

def execAdd (rd rs rt : Nat) (s : State) : Host.Outcome State Fault Refusal := s.alu2 rd rs rt (fun a b => a + b)
def execSub (rd rs rt : Nat) (s : State) : Host.Outcome State Fault Refusal := s.alu2 rd rs rt (fun a b => a - b)
def execAnd (rd rs rt : Nat) (s : State) : Host.Outcome State Fault Refusal := s.alu2 rd rs rt (fun a b => a &&& b)
def execOr (rd rs rt : Nat) (s : State) : Host.Outcome State Fault Refusal := s.alu2 rd rs rt (fun a b => a ||| b)
def execXor (rd rs rt : Nat) (s : State) : Host.Outcome State Fault Refusal := s.alu2 rd rs rt (fun a b => a ^^^ b)
def execShl (rd rs rt : Nat) (s : State) : Host.Outcome State Fault Refusal := s.alu2 rd rs rt (fun a b => shl64 a (shamt b))
def execShr (rd rs rt : Nat) (s : State) : Host.Outcome State Fault Refusal := s.alu2 rd rs rt (fun a b => shr64 a (shamt b))
def execSra (rd rs rt : Nat) (s : State) : Host.Outcome State Fault Refusal := s.alu2 rd rs rt (fun a b => sra64 a (shamt b))
def execSlt (rd rs rt : Nat) (s : State) : Host.Outcome State Fault Refusal := s.alu2 rd rs rt (fun a b => ofBool (a.toInt < b.toInt))
def execSltn (rd rs rt : Nat) (s : State) : Host.Outcome State Fault Refusal := s.alu2 rd rs rt (fun a b => ofBool (a.toNat < b.toNat))
def execMin (rd rs rt : Nat) (s : State) : Host.Outcome State Fault Refusal := s.alu2 rd rs rt minS
def execMax (rd rs rt : Nat) (s : State) : Host.Outcome State Fault Refusal := s.alu2 rd rs rt maxS
def execMinn (rd rs rt : Nat) (s : State) : Host.Outcome State Fault Refusal := s.alu2 rd rs rt minU
def execMaxn (rd rs rt : Nat) (s : State) : Host.Outcome State Fault Refusal := s.alu2 rd rs rt maxU
/-- SEL also reads g[rc]. -/
def execSel (rd rc rs rt : Nat) (s : State) : Host.Outcome State Fault Refusal :=
  .next (s.aluWord [rc, rs, rt] rd 1 none (fun a => if a.rdG rc = 0 then a.rdG rt else a.rdG rs))
def execClz (rd rs : Nat) (s : State) : Host.Outcome State Fault Refusal := s.alu1 rd rs clz64
def execCtz (rd rs : Nat) (s : State) : Host.Outcome State Fault Refusal := s.alu1 rd rs ctz64
def execPopc (rd rs : Nat) (s : State) : Host.Outcome State Fault Refusal := s.alu1 rd rs popc64
def execBrev (rd rs : Nat) (s : State) : Host.Outcome State Fault Refusal := s.alu1 rd rs brev64
def execMul (rd rs rt : Nat) (s : State) : Host.Outcome State Fault Refusal := s.mul2 rd rs rt (fun a b => a * b)
def execMulh (rd rs rt : Nat) (s : State) : Host.Outcome State Fault Refusal := s.mul2 rd rs rt mulh64
def execMulhn (rd rs rt : Nat) (s : State) : Host.Outcome State Fault Refusal := s.mul2 rd rs rt mulhn64
def execDiv (rd rs rt : Nat) (s : State) : Host.Outcome State Fault Refusal := s.div2 rd rs rt div64
def execDivn (rd rs rt : Nat) (s : State) : Host.Outcome State Fault Refusal := s.div2 rd rs rt divn64
def execRem (rd rs rt : Nat) (s : State) : Host.Outcome State Fault Refusal := s.div2 rd rs rt rem64
def execRemn (rd rs rt : Nat) (s : State) : Host.Outcome State Fault Refusal := s.div2 rd rs rt remn64

def execAddi (rd rs : Nat) (imm : Word) (s : State) : Host.Outcome State Fault Refusal := s.alu1 rd rs (fun a => a + imm)
def execAndi (rd rs : Nat) (imm : Word) (s : State) : Host.Outcome State Fault Refusal := s.alu1 rd rs (fun a => a &&& imm)
def execOri (rd rs : Nat) (imm : Word) (s : State) : Host.Outcome State Fault Refusal := s.alu1 rd rs (fun a => a ||| imm)
def execXori (rd rs : Nat) (imm : Word) (s : State) : Host.Outcome State Fault Refusal := s.alu1 rd rs (fun a => a ^^^ imm)
def execSlti (rd rs : Nat) (imm : Word) (s : State) : Host.Outcome State Fault Refusal := s.alu1 rd rs (fun a => ofBool (a.toInt < imm.toInt))
def execShli (rd rs n : Nat) (s : State) : Host.Outcome State Fault Refusal := s.alu1 rd rs (fun a => shl64 a n)
def execShri (rd rs n : Nat) (s : State) : Host.Outcome State Fault Refusal := s.alu1 rd rs (fun a => shr64 a n)
def execSrai (rd rs n : Nat) (s : State) : Host.Outcome State Fault Refusal := s.alu1 rd rs (fun a => sra64 a n)
/-- LUI (R153): sext64(imm16) shifted left by 16. -/
def execLui (rd imm : Nat) (s : State) : Host.Outcome State Fault Refusal :=
  .next (s.aluWord [] rd 1 none (fun _ => BitVec.ofInt 64 (sext 16 imm * 2 ^ 16)))

/-! ## Loads and stores (R154, R155, R295, R391) -/

/-- The unsigned 64-bit offset of R155. -/
def State.offset (s : State) (rs : Nat) (disp : Int) : Nat := (s.rdG rs + BitVec.ofInt 64 disp).toNat

/-- The bytes of a core's data memory: 64 KiB (R391). -/
def coreMem : Nat := 65536

/-- R391: the checks of a core's access, in order. -/
def coreChk (buf off n : Nat) : Option Trap :=
  if buf != 0 then some ill
  else if off % n != 0 then some { cause := .align }
  else if coreMem < off + n then some { cause := .xlate }
  else none

/-- R295: the checks that a load in a handler keeps. -/
def State.chkHandlerRead (s : State) (b off n : Nat) : Option Trap :=
  let d := s.decl b
  if !d.valid then some (bufTrap .sets b off)
  else if off % n != 0 then some (bufTrap .align b off)
  else if d.bytes < off + n then some (bufTrap .bufstate b off)
  else none

/-- The bytes that a load reads, after its checks. -/
def State.loadBytes (s : State) (b off n : Nat) : Except Trap (List Byte) :=
  if !s.atU then
    match coreChk b off n with
    | some t => .error t
    | none => .ok (Store.getN 0 s.ccore.dmem off n)
  else if s.inHandler then
    match s.chkHandlerRead b off n with
    | some t => .error t
    | none => if s.ctile.bad 3 ((s.decl b).addr off) n then .error (poisonTrap 3) else .ok (s.bufBytes b off n)
  else s.readBuf 0 b off n

/-- A load (R155): `ext` widens the `n` bytes to 64 bits. -/
def State.loadWord (s : State) (rd rs buf n : Nat) (disp : Int) (ext : Nat → Word) : Host.Outcome State Fault Refusal :=
  .next (s.scalarWord { reads := [rs], dest := rd, lat := 3 } (fun a =>
    match a.loadBytes buf (a.offset rs disp) n with
    | .error t => .error t
    | .ok bs =>
      let a1 := if a.atU then a.correct 3 ((a.decl buf).addr (a.offset rs disp)) n else a
      .ok (a1.wrG rd (ext (leNat bs)), .fall)))

def zext64 (v : Nat) : Word := BitVec.ofNat 64 v
def sext64 (n v : Nat) : Word := BitVec.ofInt 64 (sext (8 * n) v)

def execLdb (rd rs buf : Nat) (disp : Int) (s : State) : Host.Outcome State Fault Refusal := s.loadWord rd rs buf 1 disp (sext64 1)
def execLdh (rd rs buf : Nat) (disp : Int) (s : State) : Host.Outcome State Fault Refusal := s.loadWord rd rs buf 2 disp (sext64 2)
def execLdw (rd rs buf : Nat) (disp : Int) (s : State) : Host.Outcome State Fault Refusal := s.loadWord rd rs buf 4 disp (sext64 4)
def execLdd (rd rs buf : Nat) (disp : Int) (s : State) : Host.Outcome State Fault Refusal := s.loadWord rd rs buf 8 disp (sext64 8)
def execLdbN (rd rs buf : Nat) (disp : Int) (s : State) : Host.Outcome State Fault Refusal := s.loadWord rd rs buf 1 disp zext64
def execLdhN (rd rs buf : Nat) (disp : Int) (s : State) : Host.Outcome State Fault Refusal := s.loadWord rd rs buf 2 disp zext64
def execLdwN (rd rs buf : Nat) (disp : Int) (s : State) : Host.Outcome State Fault Refusal := s.loadWord rd rs buf 4 disp zext64

/-- A store (R155): the low `n` bytes of g[rd]; in a handler it makes every check of WriteBuf (R295). -/
def State.storeWord (s : State) (rd rs buf n : Nat) (disp : Int) : Host.Outcome State Fault Refusal :=
  .next (s.scalarWord { reads := [rs, rd] } (fun a =>
    let off := a.offset rs disp
    let data := leBytes n (a.rdG rd).toNat
    if a.atU then
      match a.chkWrite 0 buf off n with
      | some t => .error t
      | none => .ok (a.writeBuf buf off data, .fall)
    else
      match coreChk buf off n with
      | some t => .error t
      | none => .ok (a.setCcore { a.ccore with dmem := Store.putL 0 a.ccore.dmem off data }, .fall)))

def execStb (rd rs buf : Nat) (disp : Int) (s : State) : Host.Outcome State Fault Refusal := s.storeWord rd rs buf 1 disp
def execSth (rd rs buf : Nat) (disp : Int) (s : State) : Host.Outcome State Fault Refusal := s.storeWord rd rs buf 2 disp
def execStw (rd rs buf : Nat) (disp : Int) (s : State) : Host.Outcome State Fault Refusal := s.storeWord rd rs buf 4 disp
def execStd (rd rs buf : Nat) (disp : Int) (s : State) : Host.Outcome State Fault Refusal := s.storeWord rd rs buf 8 disp

/-! ## Branches, jumps and loops (R156 to R159) -/

/-- A transfer of control to step `t`: outside the order store it raises ILL. -/
def jumpTo (s : State) (t : Int) : Except Trap (State × Flow) :=
  if 0 ≤ t ∧ t < 65536 then .ok (s, .jump t.toNat) else .error ill

/-- A branch (R156): its target counts from the word's own step. -/
def State.branchWord (s : State) (rs rt : Nat) (off : Int) (taken : Word → Word → Bool) : Host.Outcome State Fault Refusal :=
  .next (s.scalarWord { reads := [rs, rt] } (fun a =>
    if taken (a.rdG rs) (a.rdG rt) then jumpTo a (a.cur.step + off) else .ok (a, .fall)))

def execBeq (rs rt : Nat) (off : Int) (s : State) : Host.Outcome State Fault Refusal := s.branchWord rs rt off (fun a b => a == b)
def execBne (rs rt : Nat) (off : Int) (s : State) : Host.Outcome State Fault Refusal := s.branchWord rs rt off (fun a b => a != b)
def execBlt (rs rt : Nat) (off : Int) (s : State) : Host.Outcome State Fault Refusal := s.branchWord rs rt off (fun a b => a.toInt < b.toInt)
def execBge (rs rt : Nat) (off : Int) (s : State) : Host.Outcome State Fault Refusal := s.branchWord rs rt off (fun a b => b.toInt ≤ a.toInt)
def execBltn (rs rt : Nat) (off : Int) (s : State) : Host.Outcome State Fault Refusal := s.branchWord rs rt off (fun a b => a.toNat < b.toNat)
def execBgen (rs rt : Nat) (off : Int) (s : State) : Host.Outcome State Fault Refusal := s.branchWord rs rt off (fun a b => b.toNat ≤ a.toNat)

/-- JAL and JALR (R157): the target as an unsigned 64-bit value, the link written only when the target is legal. -/
def State.jumpLink (s : State) (rd : Nat) (reads : List Nat) (target : State → Word) : Host.Outcome State Fault Refusal :=
  .next (s.scalarWord { reads := reads, dest := rd } (fun a =>
    if (target a).toNat < 65536 then .ok (a.wrG rd (BitVec.ofNat 64 a.cur.nextStep), .jump (target a).toNat)
    else .error ill))

def execJal (rd : Nat) (off : Word) (s : State) : Host.Outcome State Fault Refusal :=
  s.jumpLink rd [] (fun a => BitVec.ofNat 64 a.cur.step + off)
def execJalr (rd rs : Nat) (imm : Word) (s : State) : Host.Outcome State Fault Refusal :=
  s.jumpLink rd [rs] (fun a => a.rdG rs + imm)

/-- The loop stack of the agent whose word is in hand. -/
def State.loopsOf (s : State) : List LoopE := if s.atU then s.ctile.loops else s.ccore.loops
def State.setLoops (s : State) (l : List LoopE) : State :=
  if s.atU then s.setCtile { s.ctile with loops := l } else s.setCcore { s.ccore with loops := l }

/-- LOOP (R158). -/
def execLoop (rs dist : Nat) (s : State) : Host.Outcome State Fault Refusal :=
  .next (s.scalarWord { pre := s.noHandler, reads := [rs] } (fun a =>
    let last := a.cur.step + dist
    let l := a.loopsOf
    let beyond := match l with
      | [] => false
      | x :: _ => decide (x.last < last)
    if 4 ≤ l.length || beyond then .error ill
    else if a.rdG rs = 0 then .ok (a, .skip last)
    else .ok (a.setLoops ({ start := a.cur.nextStep, last := last, count := a.rdG rs } :: l), .fall)))

/-! ## Engine control (R13, R160 to R163) -/

/-- R18, R160: a word that names MX where the mask has MXN = 0. -/
def State.engPre (s : State) (e : Nat) : Option Trap :=
  match s.sqOnly with
  | some t => some t
  | none => if e == 4 && !s.img.mxn then some ill else none

/-- A change that takes effect at the end of this cycle. -/
def State.atEnd (s : State) (f : Eff) : State := s.setCtile { s.ctile with effs := s.ctile.effs ++ [(s.now, f)] }

/-- ESTART (R161). -/
def execEstart (e rs cont : Nat) (s : State) : Host.Outcome State Fault Refusal :=
  .next (s.scalarWord { pre := s.engPre e, reads := [rs] } (fun a =>
    if (a.ctile.eng e).st == .stopped then .ok (a.atEnd (.engRun e (cont == 1) (bits (a.rdG rs).toNat 0 32) a.now), .fall)
    else .error ill))

/-- ESTOP (R162). -/
def execEstop (e : Nat) (s : State) : Host.Outcome State Fault Refusal :=
  .next (s.scalarWord { pre := s.engPre e } (fun a =>
    .ok (if (a.ctile.eng e).st == .running then a.atEnd (.engDrain e) else a, .fall)))

/-- EBASE, register form (R162). -/
def execEbase (e rs : Nat) (s : State) : Host.Outcome State Fault Refusal :=
  .next (s.scalarWord { pre := s.engPre e, reads := [rs] } (fun a =>
    if (a.ctile.eng e).st == .stopped && (a.rdG rs).toNat < 2 ^ 16 then .ok (a.atEnd (.engBase e (a.rdG rs).toNat), .fall)
    else .error ill))
/-- EBASE, target form (R162). -/
def execEbaseTarget (e target : Nat) (s : State) : Host.Outcome State Fault Refusal :=
  .next (s.scalarWord { pre := s.engPre e } (fun a =>
    if (a.ctile.eng e).st == .stopped then .ok (a.atEnd (.engBase e target), .fall) else .error ill))

/-- EWAIT (R163). -/
def execEwait (e : Nat) (s : State) : Host.Outcome State Fault Refusal :=
  .next (s.scalarWord { pre := s.engPre e, met := (s.ctile.eng e).st == .stopped } (fun a => .ok (a, .fall)))

end Sys2Proof.Machine
end

