-- ==== Sys2Proof/Machine/Sync.lean ====
section
/-! DEFINITION. The schedule and synchronisation words of SQ: REND, FRAME, SEG, COLO, WAITC, BAR, QFENCE, WAITCW, ACOMMIT, ADISCARD and STAMP (R27, R29, R30, R34 to R37, R41, R164 to R173). -/
namespace Sys2Proof.Machine

/-! ## What SQ of a tile issues next -/

/-- The STAMP that an instruction is, with its word and step. -/
def stampOf (i : Instr) (raw step : Nat) : Option Stamp :=
  match i with
  | .stampFrame t => some { seg := false, time := t, raw := raw, step := step }
  | .stampSeg t => some { seg := true, time := t, raw := raw, step := step }
  | _ => none

/-- The next instruction of an engine with the STAMP that it will carry, if its words decode. -/
def Tile.peek (t : Tile) (g : Nat) : Option (Option Stamp × Instr) :=
  let e := t.eng g
  match decodeAt t.store e.step with
  | .error _ => none
  | .ok d =>
    match e.stamp, stampOf d.instr d.word e.step with
    | some p, _ => some (some p, d.instr)
    | none, none => some (none, d.instr)
    | none, some p =>
      match decodeAt t.store (e.step + 1) with
      | .error _ => none
      | .ok d2 => some (some p, d2.instr)
def Tile.peekSq (t : Tile) : Option (Option Stamp × Instr) := t.peek 0

/-- The words of that instruction, and its STAMP, are free of uncorrectable errors. -/
def Tile.wordsOk (t : Tile) (g : Nat) : Bool := !t.bad 4 (4 * (t.eng g).step) (if (t.eng g).stamp.isNone && ((t.peek g).any (fun p => p.1.isSome)) then 8 else 4)

/-! ## The stall of QFENCE (R171, R231) -/

/-- A command that writes global memory: a CO write for the purposes of ordering, the write-back of an UNBIND in CI too (R59). -/
def Cmd.coWrite (c : Cmd) : Bool :=
  match c.kind with
  | .cpout | .rel | .xpost | .coll | .atom | .vatom => true
  | _ => false

/-- Every global write of the engines' orders is performed: no command of them is in flight, but for a BINDSO, which writes no memory. -/
def Tile.performed (t : Tile) (mask : Nat) : Bool :=
  t.cmds.all (fun c => (bits mask c.eng 1 == 0 && !(bits mask 2 1 == 1 && c.coWrite)) || c.kind == .bindso)

/-- The tile without the orders and commands that issue in the present cycle: for a QFENCE they are after it (R171). -/
def Tile.before (t : Tile) (now : Nat) : Tile :=
  { t with flights := t.flights.filter (fun f => f.issue != now), cmds := t.cmds.filter (fun c => c.issue != now) }

/-- What a QFENCE waits for has come: the earlier orders of its engines have retired and their writes are performed. -/
def Tile.fenceMet (t : Tile) (mask now : Nat) : Bool := (t.before now).quietOf mask && (t.before now).performed mask

/-- The mask of the QFENCE that engine `g` could issue in cycle `now` of an elastic segment under R31, whatever it waits for: not
before the token that it pops is there. Notes: log entry 60. -/
def Tile.dueFence (t : Tile) (g now : Nat) : Option Nat :=
  let e := t.eng g
  if e.st != .running || t.stopped || t.timed || !t.wordsOk g then none
  else match t.peek g with
    | some (p, .qfence _ m) => if g = 0 && Need.gate {} (t.setEng 0 { e with stamp := p }) now == .go then some m else none
    | some (p, .qfenceCico c _ m) =>
      if (g = 1 || g = 2) && !t.quiet && c.legal g && bits m g 1 == 1 && ENeed.gate { ctl := c } t { e with stamp := p } g now == .go then some m else none
    | _ => none

/-- Another engine waits at a QFENCE that names engine `e`. -/
def Tile.waited (t : Tile) (e : Nat) : Bool := t.fence.any (fun f => f.1 != e && bits f.2 e 1 == 1)

/-- Engine `e` is stalled at its look in cycle `now` (R171): by a QFENCE at which another engine waits, unless that engine is to look and
issues it in this cycle; or by one that an engine which is to look could issue in this cycle for the first time, and that is not met. An
engine that itself waits at a QFENCE is stalled as any other. Of two engines that would so stall each other from one cycle on, the one
that looks first stalls the other. Notes: log entry 60. -/
def Tile.fenced (t : Tile) (e now : Nat) : Bool :=
  t.fence.any (fun f => f.1 != e && bits f.2 e 1 == 1 &&
    !(decide (e < f.1) && (t.dueFence f.1 now).isSome && t.fenceMet f.2 now && !t.waited f.1)) ||
  [1, 2].any (fun g => decide (e < g) && Store.get 0 g t.fence == 0 && !t.waited g &&
    (t.dueFence g now).any (fun m => bits m e 1 == 1 && !t.fenceMet m now && !((t.dueFence e now).any (fun k => bits k g 1 == 1 && !t.fenceMet k now))))

/-- SQ of the tile runs and issues a word that `want` accepts in cycle `now`, if its wait is met: no QFENCE holds it. -/
def Tile.sqAt (t : Tile) (want : Instr → Bool) (now : Nat) : Bool :=
  (t.eng 0).st == .running && !t.stopped && t.trapNow.isNone && (t.eng 0).next ≤ now && !t.fenced 0 now && t.wordsOk 0 &&
  (match t.peekSq with
   | some (none, j) => want j
   | some (some p, j) => want j && (if t.timed then t.stampTime p == now else t.stampTime p ≤ now)
   | none => false)

/-! ## Barriers (R25, R29, R37, R170) -/

/-- The key of a tile's count for a scope; 7 counts FRAMEs. -/
def barKey (t scope : Nat) : Nat := t * 8 + scope
def Slot.barCount (r : Slot) (t scope : Nat) : Nat := Store.get 0 (barKey t scope) r.bars

/-- The compute die of a physical tile (R1): 4 columns by 2 rows of 14 by 12 tiles. -/
def dieOf (p : Nat) : Nat := p / Config.gridW / 12 * 4 + p % Config.gridW / 14

/-- The tiles of a region that a scope names, for tile `t` (Table 1.5; 7: FRAME, every tile). -/
def Slot.inScope (r : Slot) (scope t u : Nat) : Bool :=
  match scope with
  | 2 => t % r.w / 2 == u % r.w / 2 && t / r.w / 2 == u / r.w / 2
  | 4 => dieOf (r.phys t) == dieOf (r.phys u)
  | _ => true

/-- The resident regions of the job of slot `n` on this package (R285): same world, same JOBID. -/
def State.jobSlots (s : State) (n : Nat) : List Nat :=
  (s.slots.filter (fun e => e.2.st != .free && e.2.world == (s.slot n).world && e.2.jobid == (s.slot n).jobid)).map (·.1)

/-- The participants of a barrier issued in tile `t` of slot `n`, as (slot, tile). -/
def State.participants (s : State) (n t scope : Nat) : List (Nat × Nat) :=
  let r := s.slot n
  if scope = 2 ∨ scope = 3 ∨ scope = 7 then
    ((List.range r.count).filter (fun u => r.inScope scope t u)).map (fun u => (n, u))
  else
    (s.jobSlots n).flatMap (fun m =>
      let q := s.slot m
      ((List.range q.count).filter (fun u => scope != 4 || dieOf (r.phys t) == dieOf (q.phys u))).map (fun u => (m, u)))

/-- The words that join the barrier of a scope, whatever status word they name (R170); 7: FRAME. -/
def joins (scope : Nat) : Instr → Bool
  | .bar sc _ => sc == scope
  | .frame => scope == 7
  | _ => false

/-- A participant has issued its `n`-th barrier (in a timed segment: in this cycle), or its look of this cycle, which is still to
come, issues it; a BAR of .die, .pkg or .pod in a timed segment raises ILL and does not issue (R170). -/
def State.reached (s : State) (scope n : Nat) (timed : Bool) (q : Nat × Nat) : Bool :=
  let r := s.slot q.1
  let c := r.barCount q.2 scope
  (if timed then c == n && Store.get 0 (barKey q.2 scope) r.barAt == r.rcc else n ≤ c) ||
  (c + 1 == n && r.st == .running && (q.1 != s.slotNo || s.cur.tile < q.2) && (s.tileAt q.1 q.2).sqAt (joins scope) r.rcc &&
    !(decide (4 ≤ scope) && decide (scope ≤ 6) && (s.tileAt q.1 q.2).timed))

/-- The packages, other than this one, that hold parts of the job: those that the groups of its launches here name (R280, R285). Notes:
log entry 47. -/
def State.podPackages (s : State) (n : Nat) : List Nat :=
  let r := s.slot n
  let launches := s.nodes.filter (fun x => x.jobid == r.jobid && (Store.get ({} : Vif) x.vif s.vifs).world == r.world)
  let gs := (s.jobSlots n).flatMap (fun m => (s.slot m).groups) ++ launches.flatMap (fun x => x.groups)
  ((gs.flatMap id).map (·.pkg)).eraseDups.filter (fun p => p != s.pkgid)

/-- Every participant on this package of the barrier of a scope at the current tile has issued its matching one. -/
def State.barHere (s : State) (scope : Nat) : Bool :=
  let n := s.region.barCount s.cur.tile scope + 1
  (s.participants s.slotNo s.cur.tile scope).all (fun q => q == (s.slotNo, s.cur.tile) || s.reached scope n s.ctile.timed q)

/-- Every participant of the barrier at the current tile has issued its matching one, those of other packages included. -/
def State.barMet (s : State) (scope : Nat) : Bool :=
  let n := s.region.barCount s.cur.tile scope + 1
  s.barHere scope && (scope != 6 || (s.podPackages s.slotNo).all (fun p =>
    s.podBars.any (fun b => b.1 == p && b.2.1 == s.region.world && b.2.2.1 == s.region.jobid && n ≤ b.2.2.2)))

/-- The packages of the job of the current region that have not been told of its `n`-th .pod barrier here. -/
def State.podUntold (s : State) (n : Nat) : List Nat :=
  (s.podPackages s.slotNo).filter (fun p => !s.podSent.any (fun q => q.1 == p && q.2.1 == s.region.world && q.2.2.1 == s.region.jobid && n ≤ q.2.2.2))

/-- Every tile of the job on this package has reached its next .pod barrier: each other package is told, once (R170). -/
def State.tellPod (s : State) : State :=
  let r := s.region
  let n := r.barCount s.cur.tile 6 + 1
  let ps := s.podUntold n
  if !s.barHere 6 then s
  else { s with
    podSent := ps.map (fun p => (p, r.world, r.jobid, n)) ++ s.podSent.filter (fun q => !(ps.contains q.1 && q.2.1 == r.world && q.2.2.1 == r.jobid)),
    outbox := s.outbox ++ ps.map (fun p => .podBar p r.world r.jobid n) }

/-- The count of a job's .pod barriers on another package arrives (R170). -/
def State.podArrive (s : State) (pkg world jobid n : Nat) : State :=
  { s with podBars := (pkg, world, jobid, n) :: s.podBars.filter (fun b => !(b.1 == pkg && b.2.1 == world && b.2.2.1 == jobid) || n < b.2.2.2) }

/-- One more barrier of the scope issued by the current tile. -/
def State.countBar (s : State) (scope : Nat) : State :=
  let r := s.region
  let k := barKey s.cur.tile scope
  s.setRegion { r with bars := Store.put 0 k (r.barCount s.cur.tile scope + 1) r.bars, barAt := Store.put 0 k r.rcc r.barAt }

/-- R279: the remote timeout of a region, in ns. -/
def Slot.timeout (r : Slot) : Nat := 1000 * (if r.rtmo = 0 then 1000000 else r.rtmo)

/-- What a BAR leaves when it issues: its count; a .pod barrier that has timed out (`gone`) completes its status word with TIMEOUT. -/
def State.passBar (s : State) (scope sw : Nat) (gone : Bool) : State :=
  let b := s.countBar scope
  let u := if gone then b.statusWrite sw 4 else b
  if scope = 6 then u.setCtile { u.ctile with bgate := none, podDue := none } else u

/-- BAR (R170): at .tile it waits for every earlier order of the tile; at a wider scope for every participant. A .pod barrier
carries the remote timeout from the cycle in which it first could issue; when that has expired it retires unmet. -/
def execBar (scope sw : Nat) (s : State) : Host.Outcome State Fault Refusal :=
  let gone := scope == 6 && s.ctile.bgate == some (s.region.barCount s.cur.tile 6 + 1)
  let pre := match s.sqOnly with
    | some t => some t
    | none => if 4 ≤ scope && s.ctile.timed then some ill else none
  let met := if scope = 1 then s.ctile.flights.isEmpty else gone || s.barMet scope
  let first := pre.isNone && scope == 6 && s.scalarGate {} == .go
  let s1 := if first then s.tellPod else s
  if first && !met then
    .next (if s1.ctile.podDue.isNone then s1.setCtile { s1.ctile with podDue := some (s1.tb + s1.region.timeout) } else s1)
  else .next (s1.scalarWord { pre := pre, met := met } (fun a => .ok (if scope = 1 then a else a.passBar scope sw gone, .fall)))

/-- FRAME (R29, R165): the origin and both frame step counts, in the cycle in which every tile of the region issues it. -/
def execFrame (s : State) : Host.Outcome State Fault Refusal :=
  .next (s.scalarWord { pre := s.sqOnly, met := s.barMet 7 } (fun a =>
    let b := a.countBar 7
    .ok (b.setCtile { b.ctile with frmorg := b.now, fstepV := 0, fstepM := 0 }, .fall)))

/-! ## Segments (R34 to R36, R52, R166) -/

/-- Word `k` of the segment header at step 32 * `h`. -/
def Tile.hdr (t : Tile) (h k : Nat) : Nat := (Store.get 0 (32 * h + k) t.store).toNat
def Tile.hdr64 (t : Tile) (h k : Nat) : Nat := t.hdr h k + t.hdr h (k + 1) * 2 ^ 32

/-- Table 1.6a: the header is well formed. -/
def Tile.hdrOk (t : Tile) (h : Nat) : Bool :=
  bits (t.hdr h 0) 8 24 == 1 && bits (t.hdr h 0) 2 6 == 0 && t.hdr h 3 == 0 && [28, 29, 30, 31].all (fun k => t.hdr h k == 0)
def Tile.hdrPre (t : Tile) (h : Nat) : Bool := bits (t.hdr h 0) 1 1 == 1
def Tile.hdrRset (t : Tile) (h e : Nat) : Nat := t.hdr64 h (4 + 4 * e)
def Tile.hdrWset (t : Tile) (h e : Nat) : Nat := t.hdr64 h (6 + 4 * e)

/-- The segment that a header opens. -/
def Tile.segOf (t : Tile) (h : Nat) : Seg :=
  { opened := true, elastic := bits (t.hdr h 0) 0 1 == 1, hstep := h, cycles := t.hdr h 1, sig := BitVec.ofNat 32 (t.hdr h 2),
    rset := (List.range 6).foldl (fun m e => Store.put 0 e (t.hdrRset h e) m) [],
    wset := (List.range 6).foldl (fun m e => Store.put 0 e (t.hdrWset h e) m) [] }

/-- The lowest set bit among the 64 buffers. -/
def lowBit (v : Nat) : Option Nat := (List.range 64).find? (fun b => bits v b 1 == 1)

/-- R52: the buffer of the first failing check of the sets. -/
def setsBad (decl : Nat → BufDecl) (timed : Bool) (r w : Nat → Nat) : Option Nat :=
  let undecl := (List.range 64).find? (fun b => !(decl b).valid && (List.range 6).any (fun e => bits (r e) b 1 == 1 || bits (w e) b 1 == 1))
  let clash := (List.range 64).find? (fun b => (List.range 6).any (fun e => (List.range 6).any (fun f =>
    e != f && bits (w e) b 1 == 1 && (bits (r f) b 1 == 1 || bits (w f) b 1 == 1))))
  let own := (List.range 64).find? (fun b => timed && (List.range 6).any (fun e => bits (r e) b 1 == 1 && bits (w e) b 1 == 1))
  undecl <|> clash <|> own

/-- R36: the colophon check of the open segment at its end: count in a timed segment, signature in both modes. -/
def State.colophon (s : State) : Option Trap :=
  let t := s.ctile
  if !t.seg.opened then none
  else if !t.seg.elastic && (s.now - t.segcyc) % 2 ^ 48 != t.seg.cycles then some { cause := .sdc, opd1 := 0 }
  else if t.signature != t.seg.sig then some { cause := .sdc, opd1 := 1 + t.signature.toNat * 2 ^ 32 }
  else none

/-- R41: a shadow accumulator is PENDING. -/
def Tile.shadowPending (t : Tile) : Bool := t.sh0.st == .pending || t.sh1.st == .pending

/-- The checks of SEG in the order of R166; an uncorrectable error in the header raises POISON before the header is judged (R318).
Notes: log entry 20. -/
def State.segCheck (s : State) (h : Nat) : Option Trap :=
  match s.colophon with
  | some t => some t
  | none =>
    if s.ctile.shadowPending then some { cause := .shadow }
    else if s.ctile.bad 4 (128 * h) 128 then some (poisonTrap 4)
    else if !s.ctile.hdrOk h then some ill
    else match setsBad s.decl (bits (s.ctile.hdr h 0) 0 1 == 0) (s.ctile.hdrRset h) (s.ctile.hdrWset h) with
      | some b => some { cause := .sets, opd1 := b }
      | none => none

/-- Every engine's colophon state starts afresh. -/
def Tile.clearColophon (t : Tile) : Tile :=
  (List.range 6).foldl (fun x e => x.setEng e { x.eng e with wcount := 0, crc := 0xFFFFFFFF }) t

/-- The effect of SEG: the segment opens, no other engine issues in this cycle, and the entry record follows at its end. -/
def State.openSeg (s : State) (h : Nat) : State :=
  let t := s.ctile.clearColophon
  s.setCtile { t with
    seg := t.segOf h, segcyc := s.now, quiet := true, lastPre := if t.hdrPre h then s.now else t.lastPre,
    effs := t.effs ++ [(s.now, .segEntry)] }

/-- R38, R305, R329: the region is to stop at this boundary: a pre-emption or a clock change is pending and the boundary is
pre-emptible, or a snapshot cut is asked for. -/
def State.stopAsked (s : State) (h : Nat) : Bool :=
  ((s.region.preq || s.region.mhzNext.isSome) && s.ctile.hdrPre h) || s.region.cutReq

/-- The tile stops: its SEG does not issue, and no engine of it issues until the region goes on (R38). -/
def Tile.stop (t : Tile) : Tile := { t with stopped := true }

/-- SEG (R35, R166). -/
def execSeg (hstep : Nat) (s : State) : Host.Outcome State Fault Refusal :=
  let n : Need := { pre := s.sqOnly, met := s.ctile.flights.isEmpty }
  if n.pre.isNone && s.scalarGate n == .go && s.stopAsked hstep then .next (s.setCtile s.ctile.stop)
  else
    .next (s.scalarWord n (fun a =>
      match a.segCheck hstep with
      | some t => .error t
      | none => .ok ((a.correct 4 (128 * hstep) 128).openSeg hstep, .fall)))

/-- The FIFO of lowest index that holds a token. -/
def Tile.leftToken (t : Tile) : Option Nat := (List.range 30).find? (fun i => Store.get 0 i t.tokens != 0)

/-- REND (R27, R36, R41, R14); it counts as a boundary for a snapshot cut (R329). -/
def execRend (s : State) : Host.Outcome State Fault Refusal :=
  let n : Need := { pre := s.sqOnly, met := [1, 2, 3, 4, 5].all (fun e => (s.ctile.eng e).st == .stopped) }
  if n.pre.isNone && s.scalarGate n == .go && s.region.cutReq then .next (s.setCtile s.ctile.stop)
  else .next (s.scalarWord n (fun a =>
    match a.colophon with
    | some t => .error t
    | none =>
      if a.ctile.shadowPending then .error { cause := .shadow }
      else match a.ctile.leftToken with
        | some i => .error { cause := .token, opd1 := i }
        | none => .ok (a.atEnd .rended, .stop)))

/-- COLO (R167). -/
def execColo (rd e : Nat) (s : State) : Host.Outcome State Fault Refusal :=
  .next (s.scalarWord { pre := s.sqOnly, dest := rd, lat := 2 } (fun a =>
    let x := a.ctile.eng e
    .ok (a.wrG rd (BitVec.ofNat 64 (x.crc.toNat + x.wcount % 2 ^ 32 * 2 ^ 32)), .fall)))

/-- WAITC (R168). -/
def execWaitc (t : Nat) (s : State) : Host.Outcome State Fault Refusal :=
  .next (s.scalarWord { pre := s.sqOnly, met := t ≤ (s.now + 2 ^ 48 - s.ctile.frmorg % 2 ^ 48) % 2 ^ 48 } (fun a => .ok (a, .fall)))

/-! ## Fences, status words and shadow tiles -/

/-- Engine `e` waits at a QFENCE that stalls the engines of a mask; 0 ends the wait. -/
def Tile.setFence (t : Tile) (e mask : Nat) : Tile := { t with fence := Store.put 0 e mask t.fence }

/-- QFENCE of SQ (R171): while it waits in an elastic segment the engines it names issue nothing. -/
def execQfence (_scope emask : Nat) (s : State) : Host.Outcome State Fault Refusal :=
  let met := s.ctile.quietOf emask && s.ctile.performed emask
  let first := s.sqOnly.isNone && s.scalarGate {} == .go
  if first && !met && !s.ctile.timed then .next (s.setCtile (s.ctile.setFence 0 emask))
  else .next (s.scalarWord { pre := s.sqOnly, met := met } (fun a => .ok (a.setCtile (a.ctile.setFence 0 0), .fall)))

/-- WAITCW (R172). -/
def execWaitcw (sw p : Nat) (s : State) : Host.Outcome State Fault Refusal :=
  .next (s.scalarWord { pre := s.sqOnly, met := phaseOf (s.rdSw sw) == (p == 1) } (fun a => .ok (a, .fall)))

/-- The shadow state of accumulator code 4 or 5 (R41). -/
def Tile.shadow (t : Tile) (h : Nat) : Shadow := if h = 4 then t.sh0 else t.sh1
/-- No MX order that writes accumulator `a` is in flight. -/
def Tile.accQuiet (t : Tile) (a : Nat) : Bool := t.flights.all (fun f => bits f.accW a 1 == 0)

/-- ACOMMIT and ADISCARD (R173, Table 8.11): `next` is the state that a PENDING tile takes. Discarded elements stay in place. Notes: log
entry 30. -/
def State.shadowWord (s : State) (h : Nat) (next : ShSt) : Host.Outcome State Fault Refusal :=
  .next (s.scalarWord { pre := s.sqOnly, met := s.ctile.accQuiet h } (fun a =>
    match (a.ctile.shadow h).st with
    | .empty => .ok (a, .fall)
    | .pending => .ok (a.atEnd (.shadow h { st := next, partner := if next == .empty then 0 else (a.ctile.shadow h).partner }), .fall)
    | .committed => .error { cause := .shadow }))

def execAcommit (h : Nat) (s : State) : Host.Outcome State Fault Refusal := s.shadowWord h .committed
def execAdiscard (h : Nat) (s : State) : Host.Outcome State Fault Refusal := s.shadowWord h .empty

/-! ## STAMP (R30) -/

/-- A STAMP word waits for the order that follows it; a second STAMP, or one on a core or in a handler, raises ILL. -/
def State.stampWord (s : State) (isSeg : Bool) (time : Nat) : Host.Outcome State Fault Refusal :=
  if !s.atU || s.inHandler || s.ceng.stamp.isSome then .next (s.takeTrap ill)
  else
    let e := { s.ceng with step := s.cur.nextStep, stamp := some { seg := isSeg, time := time, raw := s.cur.word, step := s.cur.step } }
    .next (s.setCtile (s.ctile.setEng s.cur.eng e))

def execStampFrame (t : Nat) (s : State) : Host.Outcome State Fault Refusal := s.stampWord false t
def execStampSeg (t : Nat) (s : State) : Host.Outcome State Fault Refusal := s.stampWord true t

end Sys2Proof.Machine
end

