-- ==== Sys2Proof/Machine/Formats.lean ====
section
/-! DEFINITION. Number formats and arithmetic: element types as exact values, RoundTo and RoundWA, block types, the generator of stochastic rounding, exact sums and products, the wide accumulator (R75 to R103, R108). -/
namespace Sys2Proof.Machine

/-! ## Exact values -/

/-- A number, or a special value: a finite one is (-1)^neg * m * 2^e, so a zero has a sign. -/
inductive Val where
  | nan
  | inf (neg : Bool)
  | fin (neg : Bool) (m : Nat) (e : Int)
deriving DecidableEq, Repr

def Val.zero : Val := .fin false 0 0
def Val.isNan : Val → Bool
  | .nan => true
  | _ => false
def Val.isZero : Val → Bool
  | .fin _ m _ => m == 0
  | _ => false
def Val.isFin : Val → Bool
  | .fin _ _ _ => true
  | _ => false
def Val.neg : Val → Bool
  | .inf n => n
  | .fin n _ _ => n
  | .nan => false
def Val.negate : Val → Val
  | .nan => .nan
  | .inf n => .inf (!n)
  | .fin n m e => .fin (!n) m e
def Val.abs : Val → Val
  | .nan => .nan
  | .inf _ => .inf false
  | .fin _ m e => .fin false m e
def Val.ofInt (i : Int) : Val := .fin (decide (i < 0)) i.natAbs 0
def Val.scale (x : Val) (k : Int) : Val :=
  match x with
  | .fin n m e => .fin n m (e + k)
  | y => y

/-- The signed integer m of a finite value at exponent `e0`, where `e0` is at most its own exponent. -/
def alignTo (neg : Bool) (m : Nat) (e e0 : Int) : Int := (if neg then -1 else 1) * (m * 2 ^ (e - e0).toNat : Nat)

/-- IEEE 754 addition without rounding; an exact zero sum of unlike zeros, or of cancelling values, is +0, or -0 in RDN (mode 3). -/
def Val.add (x y : Val) (mode : Nat) : Val :=
  match x, y with
  | .nan, _ => .nan
  | _, .nan => .nan
  | .inf a, .inf b => if a == b then .inf a else .nan
  | .inf a, _ => .inf a
  | _, .inf b => .inf b
  | .fin a m e, .fin b n f =>
    let e0 := min e f
    let v := alignTo a m e e0 + alignTo b n f e0
    if v = 0 then .fin (if m = 0 ∧ n = 0 ∧ a = b then a else mode == 3) 0 0
    else .fin (decide (v < 0)) v.natAbs e0

/-- The exact product. -/
def Val.mul (x y : Val) : Val :=
  match x, y with
  | .nan, _ => .nan
  | _, .nan => .nan
  | .inf a, .inf b => .inf (a != b)
  | .inf a, .fin b n _ => if n = 0 then .nan else .inf (a != b)
  | .fin a m _, .inf b => if m = 0 then .nan else .inf (a != b)
  | .fin a m e, .fin b n f => .fin (a != b) (m * n) (e + f)

/-- The order of two numbers, none when one is NaN; the zeros are equal. -/
def Val.cmp (x y : Val) : Option Ordering :=
  match x, y with
  | .nan, _ => none
  | _, .nan => none
  | .inf a, .inf b => some (if a == b then .eq else if a then .lt else .gt)
  | .inf a, _ => some (if a then .lt else .gt)
  | _, .inf b => some (if b then .gt else .lt)
  | .fin a m e, .fin b n f => some (compare (alignTo a m e (min e f)) (alignTo b n f (min e f)))

/-- The order that puts -0 below +0 (R101). -/
def Val.below (x y : Val) : Bool :=
  match x.cmp y with
  | some .lt => true
  | some .eq => x.isZero && y.isZero && x.neg && !y.neg
  | _ => false

/-- VMIN and VMAX (R101): the other operand when exactly one is NaN. -/
def Val.vmin (x y : Val) : Val := if x.isNan then y else if y.isNan then x else if y.below x then y else x
def Val.vmax (x y : Val) : Val := if x.isNan then y else if y.isNan then x else if x.below y then y else x
/-- The maximum of a reduction (R103): NaN with any value is NaN. -/
def Val.rmax (x y : Val) : Val := if x.isNan || y.isNan then .nan else if x.below y then y else x

/-! ## Rounding (R95, R96, R98) -/

/-- ⌊log2 (n / d)⌋ of a positive ratio. -/
def log2Q (n d : Nat) : Int :=
  let k : Int := (Nat.log2 n : Int) - Nat.log2 d
  let ge := if 0 ≤ k then d * 2 ^ k.toNat ≤ n else d ≤ n * 2 ^ (-k).toNat
  if ge then k else k - 1

/-- The ratio n / d * 2^s as a numerator and a denominator. -/
def scaleQ (n d : Nat) (s : Int) : Nat × Nat := if 0 ≤ s then (n * 2 ^ s.toNat, d) else (n, d * 2 ^ (-s).toNat)

/-- The magnitude n / d rounded to an integer by a mode; `rnd` is the generator's output (R98). -/
def roundMag (neg : Bool) (n d mode rnd : Nat) : Nat :=
  let q := n / d
  let r := n % d
  if r = 0 then q
  else
    let up := match mode with
      | 0 => decide (d < 2 * r) || (2 * r == d && q % 2 == 1)
      | 1 => false
      | 2 => !neg
      | 3 => neg
      | _ => if neg then !decide (rnd < (d - r) * 2 ^ 32 / d) else decide (rnd < r * 2 ^ 32 / d)
    if up then q + 1 else q

/-- A floating-point format: fraction bits, exponent bits, bias, the fields of the largest finite value, and what an overflow
gives: `ieee` 0 for the formats of Table 5.2, 1 for E5M2, 2 for E4M3, 3 for a format that always saturates. -/
structure FFmt where
  t : Nat
  eb : Nat
  bias : Nat
  maxE : Nat
  maxF : Nat
  kind : Nat
  nan : Nat
deriving DecidableEq, Repr

def fmtF32 : FFmt := { t := 23, eb := 8, bias := 127, maxE := 254, maxF := 2 ^ 23 - 1, kind := 0, nan := 0x7FC00000 }
def fmtF16 : FFmt := { t := 10, eb := 5, bias := 15, maxE := 30, maxF := 2 ^ 10 - 1, kind := 0, nan := 0x7E00 }
def fmtBf16 : FFmt := { t := 7, eb := 8, bias := 127, maxE := 254, maxF := 2 ^ 7 - 1, kind := 0, nan := 0x7FC0 }
def fmtE4m3 : FFmt := { t := 3, eb := 4, bias := 7, maxE := 15, maxF := 6, kind := 2, nan := 0x7F }
def fmtE5m2 : FFmt := { t := 2, eb := 5, bias := 15, maxE := 30, maxF := 3, kind := 1, nan := 0x7E }
def fmtE2m1 : FFmt := { t := 1, eb := 2, bias := 1, maxE := 3, maxF := 1, kind := 3, nan := 0 }

/-- The format of a floating-point lane type. -/
def ffmt (ty : Nat) : FFmt :=
  match ty with
  | 0 => fmtF32 | 1 => fmtF16 | 2 => fmtBf16 | 3 => fmtE4m3 | _ => fmtE5m2

def FFmt.signBit (f : FFmt) (neg : Bool) : Nat := if neg then 2 ^ (f.t + f.eb) else 0
def FFmt.maxBits (f : FFmt) (neg : Bool) : Nat := f.signBit neg + f.maxE * 2 ^ f.t + f.maxF
def FFmt.infBits (f : FFmt) (neg : Bool) : Nat := f.signBit neg + (2 ^ f.eb - 1) * 2 ^ f.t
/-- The largest finite magnitude is `maxM * 2^maxX`. -/
def FFmt.maxM (f : FFmt) : Nat := 2 ^ f.t + f.maxF
def FFmt.maxX (f : FFmt) : Int := (f.maxE : Int) - f.bias - f.t

/-- What overflow gives in SR mode, and for a saturating format in every mode (R97, R98). -/
def FFmt.overflow (f : FFmt) (neg nosat : Bool) : Nat :=
  match f.kind with
  | 0 => f.infBits neg
  | 1 => if nosat then f.infBits neg else f.maxBits neg
  | 2 => if nosat then f.nan else f.maxBits neg
  | _ => f.maxBits neg

/-- The bits of n * 2^q, where n has at most t + 2 bits; none on overflow. -/
def FFmt.pack (f : FFmt) (neg : Bool) (n : Nat) (q : Int) : Option Nat :=
  let n1 := if 2 ^ (f.t + 1) ≤ n then n / 2 else n
  let q1 := if 2 ^ (f.t + 1) ≤ n then q + 1 else q
  if n1 < 2 ^ f.t then some (f.signBit neg + n1)
  else
    let e := (q1 + f.t + f.bias).toNat
    let r := n1 - 2 ^ f.t
    if f.maxE < e || (e == f.maxE && f.maxF < r) then none else some (f.signBit neg + e * 2 ^ f.t + r)

/-- R98: a magnitude above the largest finite one M, in SR mode: M, or the overflow value. -/
def FFmt.srTop (f : FFmt) (neg nosat : Bool) (n d : Nat) (e : Int) (rnd : Nat) : Nat :=
  let a := scaleQ n d (e - f.maxX)
  let top := 2 ^ (Nat.log2 f.maxM + 1)
  let gap := top - f.maxM
  if top * a.2 ≤ a.1 then f.overflow neg nosat
  else
    let dd := if neg then (top * a.2 - a.1) * 2 ^ 32 / (gap * a.2) else (a.1 - f.maxM * a.2) * 2 ^ 32 / (gap * a.2)
    if decide (rnd < dd) != neg then f.overflow neg nosat else f.maxBits neg

/-- RoundTo a floating-point format: the positive ratio n / d * 2^e with its sign (R96, R97, R98). -/
def FFmt.roundQ (f : FFmt) (neg : Bool) (n d : Nat) (e : Int) (mode : Nat) (nosat : Bool) (rnd : Nat) : Nat :=
  if n = 0 then f.signBit neg
  else
    let a := scaleQ n d (e - f.maxX)
    if mode == 4 && decide (f.maxM * a.2 < a.1) then f.srTop neg nosat n d e rnd
    else
      let q := max (log2Q n d + e - f.t) (1 - (f.bias : Int) - f.t)
      let b := scaleQ n d (e - q)
      match f.pack neg (roundMag neg b.1 b.2 mode rnd) q with
      | some v => v
      | none =>
        if f.kind = 0 then
          if mode == 1 || (mode == 2 && neg) || (mode == 3 && !neg) then f.maxBits neg else f.infBits neg
        else f.overflow neg nosat

/-- RoundTo of a value to a floating-point format; an infinity follows R97. -/
def FFmt.round (f : FFmt) (x : Val) (mode : Nat) (nosat : Bool) (rnd : Nat) : Nat :=
  match x with
  | .nan => f.nan
  | .inf n =>
    match f.kind with
    | 0 => f.infBits n
    | 1 => f.infBits n
    | 2 => if nosat then f.nan else f.maxBits n
    | _ => f.maxBits n
  | .fin n m e => f.roundQ n m 1 e mode nosat rnd

/-- The value of the bits of a floating-point format (R76, R77). -/
def FFmt.decode (f : FFmt) (v : Nat) : Val :=
  let neg := bits v (f.t + f.eb) 1 == 1
  let e := bits v f.t f.eb
  let r := bits v 0 f.t
  if f.maxE < e || (e == f.maxE && f.maxF < r) then
    if f.kind ≤ 1 && r == 0 then .inf neg else .nan
  else if e = 0 then .fin neg r (1 - (f.bias : Int) - f.t)
  else .fin neg (2 ^ f.t + r) ((e : Int) - f.bias - f.t)

/-! ## Element types (R75, R84) -/

/-- The bits of an element, of a type that is no block type. -/
def elemBits (ty : Nat) : Nat := if ty = 8 ∨ ty = 9 then 4 else laneWidth ty
def isSignedTy (ty : Nat) : Bool := ty == 8 || ty == 0x0A || ty == 0x0C || ty == 0x0E || ty == 0x10
def isIntTy (ty : Nat) : Bool := ty == 8 || ty == 9 || isIntLane ty

/-- The integer that the bits of an integer type hold. -/
def intOf (ty v : Nat) : Int := if isSignedTy ty then sext (elemBits ty) v else (v : Int)
/-- The bits of an integer, wrapped to the type. -/
def intBits (ty : Nat) (i : Int) : Nat := field (elemBits ty) i
def intMin (ty : Nat) : Int := if isSignedTy ty then -(2 ^ (elemBits ty - 1) : Int) else 0
def intMax (ty : Nat) : Int := if isSignedTy ty then 2 ^ (elemBits ty - 1) - 1 else 2 ^ elemBits ty - 1
/-- The bits of an integer, clamped to the range of the type. -/
def intSat (ty : Nat) (i : Int) : Nat := intBits ty (max (intMin ty) (min (intMax ty) i))

/-- The exact value of an element (R100): a .m64 element is its residue as an unsigned integer. -/
def valOf (ty v : Nat) : Val :=
  if isFloatLane ty then (ffmt ty).decode v
  else if ty = 0x12 then .fin false v 0
  else Val.ofInt (intOf ty v)

/-- RoundTo an integer type (R96). -/
def roundInt (ty : Nat) (x : Val) (mode rnd : Nat) : Nat :=
  match x with
  | .nan => 0
  | .inf n => intBits ty (if n then intMin ty else intMax ty)
  | .fin n m e =>
    let a := scaleQ m 1 e
    let k : Int := roundMag n a.1 a.2 mode rnd
    intSat ty (if n then -k else k)

/-- RoundTo(type, mode) for every target that is no block type and no residue (R96). -/
def roundTo (ty : Nat) (x : Val) (mode : Nat) (nosat : Bool) (rnd : Nat) : Nat :=
  if isFloatLane ty then (ffmt ty).round x mode nosat rnd else roundInt ty x mode rnd

/-- The quotient of two values rounded once to a float type (R101). -/
def divTo (ty : Nat) (x y : Val) (mode rnd : Nat) : Nat :=
  let f := ffmt ty
  match x, y with
  | .nan, _ => f.nan
  | _, .nan => f.nan
  | .inf _, .inf _ => f.nan
  | .inf a, .fin b _ _ => f.infBits (a != b)
  | .fin a _ _, .inf b => f.signBit (a != b)
  | .fin a m e, .fin b n g =>
    if n = 0 then (if m = 0 then f.nan else f.infBits (a != b))
    else f.roundQ (a != b) m n (e - g) mode false rnd

/-- The 64-bit generator of R98. -/
def splitMix64 (v : Word) : Word :=
  let z := v + 0x9E3779B97F4A7C15
  let z1 := (z ^^^ (z >>> 30)) * 0xBF58476D1CE4E5B9
  let z2 := (z1 ^^^ (z1 >>> 27)) * 0x94D049BB133111EB
  z2 ^^^ (z2 >>> 31)

/-- The generator's output for an element: seed, frame step, lane (R98). -/
def srRnd (seed : Word) (fstep lane : Nat) : Nat :=
  bits (splitMix64 (seed ^^^ BitVec.ofNat 64 (fstep % 2 ^ 48 * 2 ^ 16) ^^^ BitVec.ofNat 64 lane)).toNat 32 32

/-! ## Block types (R78 to R83) -/

/-- The value of an E8M0 scale byte: the exponent of its power of two, none for NaN. -/
def scaleExp (s : Nat) : Option Int := if s = 0xFF then none else some ((s : Int) - 127)

/-- The value of a 4-bit E2M1 code (Table 5.5). -/
def e2m1Val (c : Nat) : Val := fmtE2m1.decode c

def nibble (blk : Nat → Nat) (j : Nat) : Nat := bits (blk (j / 2)) (4 * (j % 2)) 4

/-- Element `j` of a block whose bytes `blk` gives (R79, R81). -/
def blockElem (ty : Nat) (blk : Nat → Nat) (j : Nat) : Val :=
  match ty with
  | 5 =>
    match scaleExp (blk 32) with
    | none => .nan
    | some k => (fmtE4m3.decode (blk j)).scale k
  | 6 =>
    match scaleExp (blk 16) with
    | none => .nan
    | some k => (e2m1Val (nibble blk j)).scale k
  | _ =>
    match scaleExp (blk 16) with
    | none => .nan
    | some k =>
      if nibble blk j ≠ 8 then (e2m1Val (nibble blk j)).scale k
      else
        let v := fmtE4m3.decode (blk 17)
        (if v.isZero then Val.zero else v).scale k

/-- The bytes of one block of 32 elements. -/
def blockBytes (ty : Nat) : Nat :=
  match ty with
  | 5 => 33 | 6 => 17 | 7 => 18 | _ => 0

/-- ⌊log2⌋ of a nonzero magnitude. -/
def Val.log2 : Val → Int
  | .fin _ m e => (Nat.log2 m : Int) + e
  | _ => 0

/-- The larger magnitude of two finite values; ties keep the first. -/
def maxMag (x y : Val) : Val := if x.abs.cmp y.abs == some .lt then y else x

def clampScale (k : Int) : Nat := (max 0 (min 254 k)).toNat

/-- The scale byte of the largest finite magnitude `a` for elements whose largest exponent is `emax`. -/
def blockScale (a : Val) (emax : Int) : Nat := if a.isZero then 127 else clampScale (a.log2 - emax + 127)

def packNibbles : List Nat → List Nat
  | a :: b :: r => (a + 16 * b) :: packNibbles r
  | _ => []

/-- R82: the bytes of a .mxe4m3 (5) or .mxe2m1 (6) block. Of an element that is not finite in a .mxe2m1 block, whose scale tells of it,
the code is 0. Notes: log entry 50. -/
def encodeMx (ty : Nat) (x : List Val) : List Nat :=
  let amax := (x.filter Val.isFin).foldl maxMag Val.zero
  let s := blockScale amax (if ty = 5 then 8 else 2)
  let k : Int := 127 - (s : Int)
  if ty = 5 then
    x.map (fun v => if v.isFin then fmtE4m3.round (v.scale k) 0 false 0 else 0x7F) ++ [s]
  else
    packNibbles (x.map (fun v => if v.isFin then fmtE2m1.round (v.scale k) 0 false 0 else 0)) ++
      [if x.all Val.isFin then s else 0xFF]

/-- The index of the largest magnitude among the elements that `p` keeps; ties go to the lower index. -/
def argMax (p : Nat → Val → Bool) (x : List Val) : Option Nat :=
  (x.zipIdx.foldl (fun (b : Option (Nat × Val)) (e : Val × Nat) =>
    if p e.2 e.1 then
      match b with
      | none => some (e.2, e.1)
      | some m => if m.2.abs.cmp e.1.abs == some .lt then some (e.2, e.1) else b
    else b) none).map (·.1)

/-- |v - x| > |x| / 8. -/
def farFrom (v x : Val) : Bool := ((v.add x.negate 0).abs.scale 3).cmp x.abs == some .gt

/-- R83: the 18 bytes of an E2M1X block. -/
def encodeE2m1x (x : List Val) : List Nat :=
  let m := argMax (fun _ v => v.isFin) x
  let rest := (x.zipIdx.filter (fun e => e.1.isFin && m != some e.2)).map (·.1)
  let a0 := rest.foldl maxMag Val.zero
  let a := if a0.isZero then (match m with
    | some j => x.getD j Val.zero
    | none => Val.zero) else a0
  let s := blockScale a 2
  let k : Int := 127 - (s : Int)
  let code (v : Val) : Nat := let c := fmtE2m1.round (v.scale k) 0 false 0; if c = 8 then 0 else c
  if x.all Val.isFin then
    let out := argMax (fun _ v => farFrom ((e2m1Val (code v)).scale (-k)) v) x
    match out with
    | none => packNibbles (x.map code) ++ [s, 0]
    | some j =>
      let ex := fmtE4m3.round ((x.getD j Val.zero).scale k) 0 false 0
      packNibbles (x.zipIdx.map (fun e => if e.2 = j then 8 else code e.1)) ++ [s, if ex = 0x80 then 0 else ex]
  else packNibbles (x.map (fun v => if v.isFin then code v else 8)) ++ [s, 0x7F]

/-- The bytes of a block of 32 values in a block type. -/
def encodeBlock (ty : Nat) (x : List Val) : List Nat := if ty = 7 then encodeE2m1x x else encodeMx ty x

/-! ## The wide accumulator (R87 to R90) -/

def waNan : Wa := 0x7FFC00000000000000
def waInf (neg : Bool) : Wa := BitVec.ofNat 72 ((if neg then 2 ^ 71 else 0) + 0x7FF800000000000000)

/-- A WA72 element read in the float class. -/
def waFloat (w : Wa) : Val :=
  let v := w.toNat
  let neg := bits v 71 1 == 1
  let e := bits v 60 11
  if e = 2047 then (if bits v 0 59 = 0 then .inf neg else .nan)
  else .fin neg (bits v 0 60) (max (e : Int) 1 - 1082)

/-- The classes of a format entry: 0 float, 1 integer, 2 modular (R88). -/
def waVal (cls : Nat) (w : Wa) : Val :=
  match cls with
  | 0 => waFloat w
  | 1 => Val.ofInt (sext 64 (bits w.toNat 0 64))
  | _ => .fin false (bits w.toNat 0 62) 0

/-- The integer-class element of an exact integer: modulo 2^64, bits 71:64 copies of bit 63. -/
def waInt (i : Int) : Wa := BitVec.ofInt 72 (sext 64 (field 64 i))
def waIntOf (w : Wa) : Int := sext 64 (bits w.toNat 0 64)

/-- RoundWA of a positive ratio n / d * 2^e with its sign (R90). -/
def roundWaQ (neg : Bool) (n d : Nat) (e : Int) : Wa :=
  let sg := if neg then 2 ^ 71 else 0
  if n = 0 then BitVec.ofNat 72 sg
  else
    let q := max (log2Q n d + e - 59) (-1081)
    let b := scaleQ n d (e - q)
    let g := roundMag neg b.1 b.2 0 0
    let g1 := if 2 ^ 60 ≤ g then g / 2 else g
    let q1 := if 2 ^ 60 ≤ g then q + 1 else q
    if g1 < 2 ^ 59 then BitVec.ofNat 72 (sg + g1)
    else if 2046 < q1 + 1082 then waInf neg
    else BitVec.ofNat 72 (sg + (q1 + 1082).toNat * 2 ^ 60 + g1)

/-- RoundWA (R90). -/
def roundWa (x : Val) : Wa :=
  match x with
  | .nan => waNan
  | .inf n => waInf n
  | .fin n m e => roundWaQ n m 1 e

/-- The exact sum of a list of values: +0 for an exact zero, except -0 when every addend is -0 (R90, R92). -/
def exactSum (xs : List Val) : Val :=
  let v := xs.foldl (fun a x => a.add x 0) (.fin true 0 0)
  if v.isZero then .fin (!xs.isEmpty && xs.all (fun x => x.isZero && x.neg)) 0 0 else v

/-- MacGroups (R92): groups of `g` products, each rounded with the accumulator. -/
def macGroups (g : Nat) : Nat → Wa → List Val → Wa
  | 0, acc, _ => acc
  | n + 1, acc, ps =>
    match ps with
    | [] => acc
    | _ :: _ => macGroups g n (roundWa (exactSum (waFloat acc :: ps.take g))) (ps.drop g)

/-- The whole float-class multiply-accumulate over a list of products. -/
def macFloat (g : Nat) (acc : Wa) (ps : List Val) : Wa := macGroups g ps.length acc ps

/-- Table 5.8: the group size of an operand type. -/
def groupSize (ty : Nat) : Nat :=
  match ty with
  | 0 => 1 | 1 => 8 | 2 => 8 | _ => 16

end Sys2Proof.Machine
end

