-- ==== Sys2Proof/Machine/Transcend.lean ====
section
/-! DEFINITION. The transcendental functions of VX (R102, Table 5.10): an enclosure in fixed point whose two ends round to the same value. -/
namespace Sys2Proof.Machine

/-- An enclosure of a non-negative real: `lo` and `hi` over `2^p`. -/
structure Encl where
  lo : Nat
  hi : Nat
deriving DecidableEq, Repr

/-- The integer square root, bit by bit from bit `k - 1`. -/
def isqrtFrom (n : Nat) : Nat → Nat → Nat
  | 0, r => r
  | k + 1, r => isqrtFrom n k (if (r + 2 ^ k) * (r + 2 ^ k) ≤ n then r + 2 ^ k else r)
def isqrt (n : Nat) : Nat := isqrtFrom n (Nat.log2 n / 2 + 1) 0

/-- Σ z^(2k+1) / (2k+1) over `fuel` terms from `k`, in units of 2^-p, rounded down; `t` is z^(2k+1) and `zz` is z², at 2^-p. -/
def atanhSum (p zz : Nat) : Nat → Nat → Nat → Nat
  | 0, _, _ => 0
  | fuel + 1, k, t => t / (2 * k + 1) + atanhSum p zz fuel (k + 1) (t * zz / 2 ^ p)

/-- 2 atanh(n / d) for 0 ≤ n / d ≤ 1/3 at 2^-p: the sum loses less than `2 * (fuel + 1) * 4` units. -/
def twoAtanh (p n d : Nat) : Encl :=
  let fuel := p
  let z := n * 2 ^ p / d
  let v := 2 * atanhSum p (z * z / 2 ^ p) fuel 0 z
  { lo := v, hi := v + 16 * (fuel + 2) }

/-- ln 2 at 2^-p. -/
def ln2At (p : Nat) : Encl := twoAtanh p 1 3

/-- Σ y^k / k! over `fuel` terms from `k`; `t` is y^k / k! at 2^-p. -/
def expSum (p y : Nat) : Nat → Nat → Nat → Nat
  | 0, _, _ => 0
  | fuel + 1, k, t => t + expSum p y fuel (k + 1) (t * y / 2 ^ p / (k + 1))

/-- e^y for 0 ≤ y < 1 given at 2^-p, rounded down; the tail and the truncations lose less than `4 * (p + 2)` units. -/
def expAt (p y : Nat) : Nat := expSum p y p 0 (2 ^ p)

/-- An enclosure of e^(y) for an enclosed y in [0, 1). -/
def expEncl (p : Nat) (y : Encl) : Encl := { lo := expAt p y.lo, hi := expAt p y.hi + 4 * (p + 2) }

/-- 2^f for the fraction f = n / d in [0, 1). -/
def exp2Frac (p n d : Nat) : Encl :=
  let l := ln2At p
  expEncl p { lo := l.lo * n / d, hi := l.hi * n / d + 1 }

/-- The integer part and the fraction (over `d`) of x / ln 2, enclosed: e^x = 2^i * e^y with y in an enclosure; x = n / d ≥ 0. -/
def expPos (p n d : Nat) : Nat × Encl :=
  let l := ln2At p
  let i := n * 2 ^ p / (d * l.hi)
  let lo := n * 2 ^ p / d - i * l.hi
  let hi := n * 2 ^ p / d + 1 - i * l.lo
  (i, expEncl p { lo := lo, hi := hi })

/-- A positive ratio n / d * 2^e, the end of an enclosure of a result. -/
structure Ratio where
  n : Nat
  d : Nat
  e : Int
deriving DecidableEq, Repr

/-- The five functions. -/
inductive TFn where
  | rsqrt | exp2 | log2 | sigm | tanh
deriving DecidableEq, Repr

/-- Table 5.10: the special inputs, and the arguments beyond which the result no longer changes are handled by `enclose`. -/
def TFn.special (f : TFn) (x : Val) : Option Val :=
  match f, x with
  | _, .nan => some .nan
  | .exp2, .inf n => some (if n then Val.zero else .inf false)
  | .log2, .inf n => some (if n then .nan else .inf false)
  | .rsqrt, .inf n => some (if n then .nan else Val.zero)
  | .sigm, .inf n => some (if n then Val.zero else .fin false 1 0)
  | .tanh, .inf n => some (.fin n 1 0)
  | f, .fin n m _ =>
    if m = 0 then
      some (match f with
        | .exp2 => .fin false 1 0
        | .log2 => .inf true
        | .rsqrt => .inf n
        | .sigm => .fin false 1 (-1)
        | .tanh => .fin n 0 0)
    else if n && (f == .log2 || f == .rsqrt) then some .nan
    else none

/-- x clamped to magnitude `lim` (a power of two) as a ratio: beyond it the rounded results are those at the limit. -/
def clampQ (m : Nat) (e : Int) (lim : Nat) : Nat × Nat :=
  if (Nat.log2 lim : Int) ≤ (Nat.log2 m : Int) + e then (lim, 1)
  else scaleQ m 1 e

/-- The sign and an enclosure of the function of a nonzero finite x at working precision `p`. -/
def TFn.enclose (f : TFn) (p : Nat) (neg : Bool) (m : Nat) (e : Int) : Bool × Ratio × Ratio :=
  match f with
  | .rsqrt =>
    let odd := e % 2 != 0
    let m1 := if odd then 2 * m else m
    let e1 : Int := if odd then e - 1 else e
    let k := p + Nat.log2 m
    let r := isqrt (2 ^ (2 * k) / m1)
    (false, { n := r, d := 1, e := -(e1 / 2) - k }, { n := r + 1, d := 1, e := -(e1 / 2) - k })
  | .exp2 =>
    let x := clampQ m e 1024
    let i := x.1 / x.2
    let r := x.1 % x.2
    if r = 0 then
      let v : Ratio := { n := 1, d := 1, e := if neg then -(i : Int) else i }
      (false, v, v)
    else if neg then
      let g := exp2Frac p (x.2 - r) x.2
      (false, { n := g.lo, d := 1, e := -(i : Int) - 1 - p }, { n := g.hi, d := 1, e := -(i : Int) - 1 - p })
    else
      let g := exp2Frac p r x.2
      (false, { n := g.lo, d := 1, e := (i : Int) - p }, { n := g.hi, d := 1, e := (i : Int) - p })
  | .log2 =>
    let k := Nat.log2 m
    let top : Int := k + e
    if m = 2 ^ k then
      let v : Ratio := { n := top.natAbs, d := 1, e := 0 }
      (decide (top < 0), v, v)
    else
      let a := twoAtanh p (m - 2 ^ k) (m + 2 ^ k)
      let l := ln2At p
      let lo : Int := top * 2 ^ p + (a.lo * 2 ^ p / l.hi : Nat)
      let hi : Int := top * 2 ^ p + (a.hi * 2 ^ p / l.lo + 1 : Nat)
      let at_ (v : Int) : Ratio := { n := v.natAbs, d := 1, e := -(p : Int) }
      if lo < 0 then (true, at_ hi, at_ lo) else (false, at_ lo, at_ hi)
  | .sigm =>
    let x := clampQ m e 256
    let g := expPos p x.1 x.2
    let big := 2 ^ g.1
    let one := 2 ^ p
    if neg then (false, { n := one, d := one + g.2.hi * big, e := 0 }, { n := one, d := one + g.2.lo * big, e := 0 })
    else (false, { n := g.2.lo * big, d := one + g.2.lo * big, e := 0 }, { n := g.2.hi * big, d := one + g.2.hi * big, e := 0 })
  | .tanh =>
    if (Nat.log2 m : Int) + e < -40 then
      (neg, { n := m * (2 ^ 80 - 1), d := 1, e := e - 80 }, { n := m, d := 1, e := e })
    else
      let x := clampQ m e 64
      let g := expPos p (2 * x.1) x.2
      let big := 2 ^ g.1
      let one := 2 ^ p
      (neg, { n := g.2.lo * big - one, d := g.2.lo * big + one, e := 0 }, { n := g.2.hi * big - one, d := g.2.hi * big + one, e := 0 })

/-- Round to nearest even at growing precision until both ends agree. -/
def TFn.roundAt (fn : TFn) (f : FFmt) (neg : Bool) (m : Nat) (e : Int) : List Nat → Nat
  | [] => f.nan
  | p :: ps =>
    let r := fn.enclose p neg m e
    let a := f.roundQ r.1 r.2.1.n r.2.1.d r.2.1.e 0 false 0
    let b := f.roundQ r.1 r.2.2.n r.2.2.d r.2.2.e 0 false 0
    match ps with
    | [] => a
    | _ :: _ => if a = b then a else TFn.roundAt fn f neg m e ps

/-- The function of a value, correctly rounded to a float type with RNE (R102, R195). -/
def TFn.eval (fn : TFn) (ty : Nat) (x : Val) : Nat :=
  match fn.special x with
  | some v => (ffmt ty).round v 0 false 0
  | none =>
    match x with
    | .fin n m e => fn.roundAt (ffmt ty) n m e [128, 256, 512]
    | _ => (ffmt ty).nan

end Sys2Proof.Machine
end

