-- ==== Sys2Proof/Machine/Operands.lean ====
section
/-! DEFINITION. The operands of VX: lanes, masks, modulus registers, the check of R188, readiness (R189, R190), and the shape that every VX order shares (R186 to R192). -/
namespace Sys2Proof.Machine

/-! ## Lanes and masks (R186, R187) -/

/-- Lane `j` of width `w` of a register, as the number that its bits hold. -/
def lane (v : VReg) (w j : Nat) : Nat := bits v.toNat (w * j) w

/-- The number whose lanes of width `w`, lane 0 lowest, are the list. -/
def packLanes (w : Nat) (xs : List Nat) : Nat := xs.foldr (fun x a => x % 2 ^ w + 2 ^ w * a) 0

/-- A register whose lanes are `f`, an unlisted lane keeping its value. -/
def mapLanes (old : VReg) (w n : Nat) (f : Nat → Option Nat) : VReg :=
  BitVec.ofNat 4096 (packLanes w ((List.range n).map (fun j =>
    match f j with
    | some x => x
    | none => lane old w j)))

def State.rdV (s : State) (n : Nat) : VReg := Store.get 0 n s.ctile.v
def State.wrV (s : State) (n : Nat) (v : VReg) : State := s.setCtile { s.ctile with v := Store.put 0 n v s.ctile.v }

/-- k[n]; k0 reads as all ones. -/
def State.rdK (s : State) (n : Nat) : Mask := if n = 0 then BitVec.allOnes 512 else Store.get 0 n s.ctile.k
/-- k[n] := m; a write to k0 is discarded. -/
def State.wrK (s : State) (n : Nat) (m : Mask) : State :=
  if n = 0 then s else s.setCtile { s.ctile with k := Store.put 0 n m s.ctile.k }

/-- Lane `j` is active under mask number `km`. -/
def State.active (s : State) (km j : Nat) : Bool := km == 0 || (s.rdK km).getLsbD j

/-- The mask whose bit `j` is `f j`. -/
def maskOf (f : Nat → Bool) : Mask :=
  BitVec.ofNat 512 (packLanes 1 ((List.range 512).map (fun j => if f j then 1 else 0)))

/-- q[n] of VX (R86). -/
def State.rdQ (s : State) (n : Nat) : QReg := Store.get {} n s.ctile.q

/-! ## The upper half (R18, R188) -/

/-- A lane of width `w` lies above bit 2,047. -/
def hiLane (w j : Nat) : Bool := decide (2048 < w * (j + 1))
/-- R188: at a position with VXALL = 0 an order that touches any of these lanes raises ILL. -/
def State.vxChk (s : State) (w : Nat) (lanes : List Nat) : Option Trap :=
  if s.img.vxall then none else if lanes.any (hiLane w) then some ill else none
/-- The active lanes below `n`. -/
def State.actives (s : State) (km n : Nat) : List Nat := (List.range n).filter (s.active km)

/-! ## Stochastic rounding (R98) -/

/-- The generator's output for lane `j` of the VX order in hand, in SR mode. -/
def State.vrnd (s : State) (rm j : Nat) : Nat := if rm = 4 then srRnd s.ctile.srseed s.ctile.fstepV j else 0

/-! ## Readiness and the shape of a VX order (R189, R190) -/

/-- Units of VX that are not pipelined (Table 10.1). -/
def keyVdiv : Nat := 150
def keyPack : Nat := 151
def keyPort : Nat := 152
def keyBfx : Nat := 153
def keyRank : Nat := 154

/-- Two ranges, as first address and length, share a byte. -/
def overlap (a b : Nat × Nat) : Bool := decide (a.1 < b.1 + b.2) && decide (b.1 < a.1 + a.2)

/-- An earlier order of engine `e` has still to write some of `n` bytes of buffer `b`, or to make the EMPTY buffer FULL by writing other
bytes of it: a later order of the same queue does not read them before (R65, R190). -/
def State.pending (s : State) (e b off n : Nat) : Bool :=
  let d := s.decl b
  let fills (due : Nat) (r : Nat × Nat) : Bool :=
    (s.ctile.buf b).st == .empty && s.ctile.effs.contains (due, .bufFull b) && overlap r (d.addr 0, d.bytes)
  s.ctile.effs.any (fun x => match x.2 with
    | .sram g y data => g == e && (overlap (y, data.length) (d.addr off, n) || fills x.1 (y, data.length))
    | _ => false)

/-- What a VX order reads and writes, the units that it holds, its result latency, and a further readiness condition. -/
structure VNeed where
  reads : List Nat := []
  writes : List Nat := []
  units : List (Nat × Nat) := []
  lat : Nat
  also : Bool := true
  /-- It counts one frame step. -/
  steps : Bool := true
deriving DecidableEq, Repr

/-- The key of a mask register: k0 is never waited for. -/
def maskKey (km : Nat) : List Nat := if km = 0 then [] else [keyK km]

/-- R190: every register and unit that the order names is ready. -/
def VNeed.ready (n : VNeed) (t : Tile) (now : Nat) : Bool :=
  n.also && (n.reads ++ n.writes ++ n.units.map (·.1)).all (fun k => t.ready k ≤ now)

/-- What a VX order leaves behind: its results readable after L cycles, its units held, one more frame step (R98), but after VSEED (R210). -/
def Tile.afterV (t : Tile) (n : VNeed) (now : Nat) : Tile :=
  let t1 := n.writes.foldl (fun x k => x.busy k (now + n.lat)) t
  let t2 := n.units.foldl (fun x u => x.busy u.1 (now + u.2)) t1
  if n.steps then { t2 with fstepV := t2.fstepV + 1 } else t2

/-- A VX order: `body` makes its checks and its writes; its deferred effects come with its retirement, in cycle issue + L - 1. -/
def State.vxOrder (s : State) (c : Ctl) (n : VNeed) (body : State → Except Trap (State × List Eff)) : State :=
  s.engineOrder { ctl := c, free := n.ready s.ctile s.now } (fun a =>
    match body a with
    | .error t => .error t
    | .ok r => .ok (r.1.setCtile (r.1.ctile.afterV n r.1.now), { retire := some (r.1.now + n.lat - 1), effs := r.2 }))

/-- A lane-wise order: `f a j` gives the new lane `j`, from the state `a` at issue; `regs` are the vector registers read. -/
def State.laneWise (s : State) (c : Ctl) (vd ty km lat : Nat) (regs : List Nat) (more : List Nat) (units : List (Nat × Nat))
    (chk : State → Option Trap) (f : State → Nat → Nat) : Host.Outcome State Fault Refusal :=
  .next (s.vxOrder c { reads := regs.map keyV ++ maskKey km ++ more, writes := [keyV vd], units := units, lat := lat } (fun a =>
    let n := laneCount ty
    match a.vxChk (laneWidth ty) (a.actives km n) with
    | some t => .error t
    | none =>
      match chk a with
      | some t => .error t
      | none => .ok (a.wrV vd (mapLanes (a.rdV vd) (laneWidth ty) n (fun j => if a.active km j then some (f a j) else none)), [])))

/-- The value of lane `j` of a register, of type `ty`. -/
def State.laneVal (s : State) (ty r j : Nat) : Val := valOf ty (lane (s.rdV r) (laneWidth ty) j)
/-- The integer of lane `j` of a register, of an integer type. -/
def State.laneInt (s : State) (ty r j : Nat) : Int := intOf ty (lane (s.rdV r) (laneWidth ty) j)
/-- The bits of lane `j`. -/
def State.laneBits (s : State) (ty r j : Nat) : Nat := lane (s.rdV r) (laneWidth ty) j

end Sys2Proof.Machine
end

