-- ==== Sys2Proof/Machine/Vector.lean ====
section
/-! DEFINITION. The VX orders of MAJ 0x2D to 0x32, 0x35 to 0x39: arithmetic, transcendentals, compare, logic, shifts, conversion, packing, cross-lane, masks, reductions, accumulator reads, modular arithmetic, transforms, hashing, rank coding (R194 to R202, R206 to R212). -/
namespace Sys2Proof.Machine

def noChk (_ : State) : Option Trap := none

/-! ## Arithmetic (R194) -/

/-- The result of one lane of MAJ 0x2D: float types round once; integer types wrap, or clamp under SAT. -/
def State.arith (s : State) (x : VX) (j : Nat) (v : Val) (i : Int) : Nat :=
  if isFloat3 x.ty then roundTo x.ty v x.rm false (s.vrnd x.rm j)
  else if bits x.opt 0 1 = 1 then intSat x.ty i else intBits x.ty i

/-- Latency of the simple arithmetic (Table 10.1). -/
def arithLat (ty : Nat) : Nat := if isFloat3 ty then 4 else 2

/-- Two operands. -/
def State.arith2 (s : State) (c : Ctl) (x : VX) (fv : Val → Val → Val) (fi : Int → Int → Int) : Host.Outcome State Fault Refusal :=
  s.laneWise c x.vd x.ty x.km (arithLat x.ty) [x.va, x.vb] [] [] noChk (fun a j =>
    a.arith x j (fv (a.laneVal x.ty x.va j) (a.laneVal x.ty x.vb j)) (fi (a.laneInt x.ty x.va j) (a.laneInt x.ty x.vb j)))
/-- Three operands. -/
def State.arith3 (s : State) (c : Ctl) (x : VX) (fv : Val → Val → Val → Val) (fi : Int → Int → Int → Int) :
    Host.Outcome State Fault Refusal :=
  s.laneWise c x.vd x.ty x.km (arithLat x.ty) [x.va, x.vb, x.vc] [] [] noChk (fun a j =>
    a.arith x j (fv (a.laneVal x.ty x.va j) (a.laneVal x.ty x.vb j) (a.laneVal x.ty x.vc j))
      (fi (a.laneInt x.ty x.va j) (a.laneInt x.ty x.vb j) (a.laneInt x.ty x.vc j)))
/-- One operand. -/
def State.arith1 (s : State) (c : Ctl) (x : VX) (fv : Val → Val) (fi : Int → Int) : Host.Outcome State Fault Refusal :=
  s.laneWise c x.vd x.ty x.km (arithLat x.ty) [x.va] [] [] noChk (fun a j =>
    a.arith x j (fv (a.laneVal x.ty x.va j)) (fi (a.laneInt x.ty x.va j)))

def execVadd (c : Ctl) (x : VX) (s : State) : Host.Outcome State Fault Refusal := s.arith2 c x (fun a b => a.add b x.rm) (fun a b => a + b)
def execVsub (c : Ctl) (x : VX) (s : State) : Host.Outcome State Fault Refusal := s.arith2 c x (fun a b => a.add b.negate x.rm) (fun a b => a - b)
def execVmul (c : Ctl) (x : VX) (s : State) : Host.Outcome State Fault Refusal := s.arith2 c x Val.mul (fun a b => a * b)
def execVfma (c : Ctl) (x : VX) (s : State) : Host.Outcome State Fault Refusal :=
  s.arith3 c x (fun a b d => (a.mul b).add d x.rm) (fun a b d => a * b + d)
def execVfms (c : Ctl) (x : VX) (s : State) : Host.Outcome State Fault Refusal :=
  s.arith3 c x (fun a b d => (a.mul b).add d.negate x.rm) (fun a b d => a * b - d)
def execVmin (c : Ctl) (x : VX) (s : State) : Host.Outcome State Fault Refusal := s.arith2 c x Val.vmin min
def execVmax (c : Ctl) (x : VX) (s : State) : Host.Outcome State Fault Refusal := s.arith2 c x Val.vmax max
def execVabs (c : Ctl) (x : VX) (s : State) : Host.Outcome State Fault Refusal := s.arith1 c x Val.abs (fun a => a.natAbs)
def execVneg (c : Ctl) (x : VX) (s : State) : Host.Outcome State Fault Refusal := s.arith1 c x Val.negate (fun a => -a)
/-- VDIV: the divider is held for 8 cycles (.f32) or 4. -/
def execVdiv (c : Ctl) (x : VX) (s : State) : Host.Outcome State Fault Refusal :=
  s.laneWise c x.vd x.ty x.km 18 [x.va, x.vb] [] [(keyVdiv, if x.ty = 0 then 8 else 4)] noChk (fun a j =>
    divTo x.ty (a.laneVal x.ty x.va j) (a.laneVal x.ty x.vb j) x.rm (a.vrnd x.rm j))

/-! ## Transcendentals (R195) -/

def State.trans (s : State) (c : Ctl) (x : VX) (fn : TFn) : Host.Outcome State Fault Refusal :=
  s.laneWise c x.vd x.ty x.km 12 [x.va] [] [] noChk (fun a j => fn.eval x.ty (a.laneVal x.ty x.va j))

def execVrsqrt (c : Ctl) (x : VX) (s : State) : Host.Outcome State Fault Refusal := s.trans c x .rsqrt
def execVexp2 (c : Ctl) (x : VX) (s : State) : Host.Outcome State Fault Refusal := s.trans c x .exp2
def execVlog2 (c : Ctl) (x : VX) (s : State) : Host.Outcome State Fault Refusal := s.trans c x .log2
def execVsigm (c : Ctl) (x : VX) (s : State) : Host.Outcome State Fault Refusal := s.trans c x .sigm
def execVtanh (c : Ctl) (x : VX) (s : State) : Host.Outcome State Fault Refusal := s.trans c x .tanh

/-! ## Compare, select, logic, shifts (R196, R197) -/

/-- The predicates of VCMP on two values; a NaN makes every one false except ne and un. -/
def cmpHolds (p : Nat) (o : Option Ordering) : Bool :=
  match p, o with
  | 0, o => o == some .eq
  | 1, o => o != some .eq
  | 2, o => o == some .lt
  | 3, o => o == some .lt || o == some .eq
  | 4, o => o == some .gt
  | 5, o => o == some .gt || o == some .eq
  | 6, o => o == none
  | _, o => o != none

/-- VCMP: all 512 bits of kd are written. -/
def execVcmp (c : Ctl) (x : VX) (s : State) : Host.Outcome State Fault Refusal :=
  .next (s.vxOrder c { reads := [keyV x.va, keyV x.vb] ++ maskKey x.km, writes := maskKey x.vd, lat := 2 } (fun a =>
    let n := laneCount x.ty
    match a.vxChk (laneWidth x.ty) (a.actives x.km n) with
    | some t => .error t
    | none => .ok (a.wrK x.vd (maskOf (fun j => decide (j < n) && a.active x.km j &&
        cmpHolds x.opt ((a.laneVal x.ty x.va j).cmp (a.laneVal x.ty x.vb j)))), [])))

/-- VSEL: the mask selects; every lane is written. -/
def execVsel (c : Ctl) (x : VX) (s : State) : Host.Outcome State Fault Refusal :=
  .next (s.vxOrder c { reads := [keyV x.va, keyV x.vb] ++ maskKey x.km, writes := [keyV x.vd], lat := 2 } (fun a =>
    let n := laneCount x.ty
    match a.vxChk (laneWidth x.ty) (List.range n) with
    | some t => .error t
    | none => .ok (a.wrV x.vd (mapLanes (a.rdV x.vd) (laneWidth x.ty) n (fun j =>
        some (a.laneBits x.ty (if a.active x.km j then x.va else x.vb) j))), [])))

/-- A bitwise order, or a shift: a function of the bits of both lanes. -/
def State.bitwise (s : State) (c : Ctl) (x : VX) (lat : Nat) (f : Nat → Nat → Nat) : Host.Outcome State Fault Refusal :=
  s.laneWise c x.vd x.ty x.km lat [x.va, x.vb] [] [] noChk (fun a j => f (a.laneBits x.ty x.va j) (a.laneBits x.ty x.vb j))

def execVand (c : Ctl) (x : VX) (s : State) : Host.Outcome State Fault Refusal := s.bitwise c x 2 Nat.land
def execVor (c : Ctl) (x : VX) (s : State) : Host.Outcome State Fault Refusal := s.bitwise c x 2 Nat.lor
def execVxor (c : Ctl) (x : VX) (s : State) : Host.Outcome State Fault Refusal := s.bitwise c x 2 Nat.xor
/-- VNOT reads va only. -/
def execVnot (c : Ctl) (x : VX) (s : State) : Host.Outcome State Fault Refusal :=
  s.laneWise c x.vd x.ty x.km 2 [x.va] [] [] noChk (fun a j => 2 ^ laneWidth x.ty - 1 - a.laneBits x.ty x.va j)
def execVshl (c : Ctl) (x : VX) (s : State) : Host.Outcome State Fault Refusal :=
  s.bitwise c x 2 (fun a b => a * 2 ^ (b % laneWidth x.ty))
def execVshr (c : Ctl) (x : VX) (s : State) : Host.Outcome State Fault Refusal :=
  s.bitwise c x 2 (fun a b => a / 2 ^ (b % laneWidth x.ty))
/-- VSRA fills with bit w - 1 in either signedness. -/
def execVsra (c : Ctl) (x : VX) (s : State) : Host.Outcome State Fault Refusal :=
  s.bitwise c x 2 (fun a b => field (laneWidth x.ty) (sext (laneWidth x.ty) a / 2 ^ (b % laneWidth x.ty)))
/-- VMULHI: bits 2w - 1 to w of the exact product. -/
def execVmulhi (c : Ctl) (x : VX) (s : State) : Host.Outcome State Fault Refusal :=
  s.bitwise c x 4 (fun a b => field (laneWidth x.ty) (intOf x.ty a * intOf x.ty b / 2 ^ laneWidth x.ty))

/-! ## Conversion and packing (R198, R199) -/

/-- VCVT: TYPE is the destination type, VC the source type, OPT the half H. -/
def execVcvt (c : Ctl) (x : VX) (s : State) : Host.Outcome State Fault Refusal :=
  .next (s.vxOrder c { reads := keyV x.va :: maskKey x.km, writes := [keyV x.vd], lat := 4 } (fun a =>
    let nd := laneCount x.ty
    let ns := laneCount x.vc
    let m := Nat.min ns nd
    let src (e : Nat) : Nat := if ns ≤ nd then e else x.opt * m + e
    let base := if ns ≤ nd then x.opt * m else 0
    let act := a.actives x.km m
    match a.vxChk (laneWidth x.vc) (act.map src) <|> a.vxChk (laneWidth x.ty) (act.map (base + ·)) with
    | some t => .error t
    | none => .ok (a.wrV x.vd (mapLanes (a.rdV x.vd) (laneWidth x.ty) nd (fun j =>
        if base ≤ j && j < base + m && a.active x.km (j - base) then
          some (roundTo x.ty (a.laneVal x.vc x.va (src (j - base))) x.rm (x.nosat == 1) (a.vrnd x.rm j))
        else none)), [])))

/-- The bytes of a group of a packed type (Table 10.5). -/
def groupBytes (b : Nat) : Nat :=
  match b with
  | 5 => 132 | 6 => 68 | 7 => 72 | _ => 64

/-- The bytes that the 128 unpacked values of one group pack to. -/
def packGroup (b : Nat) (vals : Nat → Val) (ints : Nat → Nat) : List Nat :=
  if b = 8 ∨ b = 9 then packNibbles ((List.range 128).map ints)
  else (List.range 4).flatMap (fun k => encodeBlock b ((List.range 32).map (fun j => vals (32 * k + j))))

/-- VPACK: va's 128 lanes into group OPT of vd. -/
def execVpack (c : Ctl) (x : VX) (s : State) : Host.Outcome State Fault Refusal :=
  .next (s.vxOrder c { reads := [keyV x.va], writes := [keyV x.vd], units := [(keyPack, 2)], lat := 6 } (fun a =>
    let g := groupBytes x.vc
    let lo := g * x.opt
    match a.vxChk 32 (List.range 128) <|> a.vxChk 8 ((List.range g).map (lo + ·)) with
    | some t => .error t
    | none =>
      let bs := packGroup x.vc (a.laneVal x.ty x.va)
        (fun j => roundTo x.vc (a.laneVal x.ty x.va j) x.rm false (a.vrnd x.rm (128 * x.opt + j)))
      .ok (a.wrV x.vd (mapLanes (a.rdV x.vd) 8 512 (fun j => if lo ≤ j && j < lo + g then some (bs.getD (j - lo) 0) else none)), [])))

/-- The value of element `j` of a packed group whose bytes `at_` gives. -/
def unpackElem (b : Nat) (at_ : Nat → Nat) (j : Nat) : Val :=
  if b = 8 ∨ b = 9 then Val.ofInt (intOf b (nibble at_ j))
  else blockElem b (fun i => at_ (blockBytes b * (j / 32) + i)) (j % 32)

/-- VUNPK: group OPT of va into the 128 lanes of vd; .i4 and .n4 become .i32, as Table 10.5 gives. Notes: log entry 50. -/
def execVunpk (c : Ctl) (x : VX) (s : State) : Host.Outcome State Fault Refusal :=
  .next (s.vxOrder c { reads := [keyV x.va], writes := [keyV x.vd], lat := 4 } (fun a =>
    let g := groupBytes x.vc
    let lo := g * x.opt
    match a.vxChk 8 ((List.range g).map (lo + ·)) <|> a.vxChk 32 (List.range 128) with
    | some t => .error t
    | none => .ok (a.wrV x.vd (mapLanes (a.rdV x.vd) 32 128 (fun j =>
        some (roundTo x.ty (unpackElem x.vc (fun i => lane (a.rdV x.va) 8 (lo + i)) j) x.rm false (a.vrnd x.rm j)))), [])))

/-! ## Cross-lane orders and masks (R200, R201) -/

/-- VPERM: an index of n or more gives 0. -/
def execVperm (c : Ctl) (x : VX) (s : State) : Host.Outcome State Fault Refusal :=
  let n := laneCount x.ty
  s.laneWise c x.vd x.ty x.km 4 [x.va, x.vb] [] []
    (fun a => a.vxChk (laneWidth x.ty) (((a.actives x.km n).map (a.laneBits x.ty x.vb)).filter (· < n)))
    (fun a j => let i := a.laneBits x.ty x.vb j; if i < n then a.laneBits x.ty x.va i else 0)

/-- VBCAST: lane s := {EXT[2:0], VB} to every active lane. -/
def execVbcast (c : Ctl) (x : VX) (s : State) : Host.Outcome State Fault Refusal :=
  let i := x.ext * 64 + x.vb
  s.laneWise c x.vd x.ty x.km 2 [x.va] [] []
    (fun a => if laneCount x.ty ≤ i then some ill else a.vxChk (laneWidth x.ty) [i])
    (fun a _ => a.laneBits x.ty x.va i)

/-- A VMOVK between masks. -/
def State.maskOp (s : State) (c : Ctl) (kd : Nat) (src : List Nat) (f : State → Mask) : Host.Outcome State Fault Refusal :=
  .next (s.vxOrder c { reads := src.flatMap maskKey, writes := maskKey kd, lat := 2 } (fun a => .ok (a.wrK kd (f a), [])))

def execVmovkAnd (c : Ctl) (x : VX) (s : State) : Host.Outcome State Fault Refusal :=
  s.maskOp c x.vd [x.va, x.vb] (fun a => a.rdK x.va &&& a.rdK x.vb)
def execVmovkOr (c : Ctl) (x : VX) (s : State) : Host.Outcome State Fault Refusal :=
  s.maskOp c x.vd [x.va, x.vb] (fun a => a.rdK x.va ||| a.rdK x.vb)
def execVmovkXor (c : Ctl) (x : VX) (s : State) : Host.Outcome State Fault Refusal :=
  s.maskOp c x.vd [x.va, x.vb] (fun a => a.rdK x.va ^^^ a.rdK x.vb)
def execVmovkNot (c : Ctl) (x : VX) (s : State) : Host.Outcome State Fault Refusal :=
  s.maskOp c x.vd [x.va] (fun a => ~~~ (a.rdK x.va))
/-- VMOVK.kv writes every bit of vd. -/
def execVmovkKv (c : Ctl) (x : VX) (s : State) : Host.Outcome State Fault Refusal :=
  .next (s.vxOrder c { reads := maskKey x.va, writes := [keyV x.vd], lat := 2 } (fun a =>
    match a.vxChk 64 (List.range 64) with
    | some t => .error t
    | none => .ok (a.wrV x.vd (BitVec.ofNat 4096 (a.rdK x.va).toNat), [])))
def execVmovkVk (c : Ctl) (x : VX) (s : State) : Host.Outcome State Fault Refusal :=
  .next (s.vxOrder c { reads := [keyV x.va], writes := maskKey x.vd, lat := 2 } (fun a =>
    .ok (a.wrK x.vd (BitVec.ofNat 512 (a.rdV x.va).toNat), [])))
/-- VMOVK.vq (R86): an even modulus, one below 3 or one of 2^62 or more is refused with ILL. -/
def execVmovkVq (c : Ctl) (x : VX) (s : State) : Host.Outcome State Fault Refusal :=
  .next (s.vxOrder c { reads := [keyV x.va], writes := [keyQ x.vd], lat := 4 } (fun a =>
    let v := lane (a.rdV x.va) 64 0
    if 2 ^ 62 ≤ v || v % 2 == 0 || v < 3 then .error ill
    else .ok (a.setCtile { a.ctile with q := Store.put {} x.vd (.of v) a.ctile.q },
      [.mxQ x.vd (.of v)])))
def execVmovkQv (c : Ctl) (x : VX) (s : State) : Host.Outcome State Fault Refusal :=
  .next (s.vxOrder c { reads := [keyQ x.va], writes := [keyV x.vd], lat := 2 } (fun a =>
    let q := a.rdQ x.va
    .ok (a.wrV x.vd (mapLanes (a.rdV x.vd) 64 64 (fun j =>
      if j = 0 then some ((if q.valid then 2 ^ 63 else 0) + q.q) else none)), [])))

/-! ## Reductions (R103, R202) -/

/-- One pass of ReduceTree: pairs, with the index of the node. -/
def pairUp {α : Type} (op : Nat → α → α → α) : Nat → List α → List α
  | i, a :: b :: r => op i a b :: pairUp op (i + 1) r
  | _, r => r

/-- ReduceTree over `n` lanes; a node of the pass of width `w` has index n - w + i. -/
def reduceTree {α : Type} (op : Nat → α → α → α) (n : Nat) : Nat → List α → List α
  | 0, xs => xs
  | fuel + 1, xs => reduceTree op n fuel (pairUp op (n - xs.length) xs)

/-- A reduction: `ident` for inactive lanes, `op` over lane bits. -/
def State.reduce (s : State) (c : Ctl) (x : VX) (ident : Nat) (op : State → Nat → Nat → Nat → Nat) : Host.Outcome State Fault Refusal :=
  let n := laneCount x.ty
  .next (s.vxOrder c { reads := keyV x.va :: maskKey x.km, writes := [keyV x.vd], lat := 4 + 2 * Nat.log2 n } (fun a =>
    match a.vxChk (laneWidth x.ty) (a.actives x.km n) with
    | some t => .error t
    | none =>
      let xs := (List.range n).map (fun j => if a.active x.km j then a.laneBits x.ty x.va j else ident)
      let r := (reduceTree (op a) n (Nat.log2 n) xs).getD 0 ident
      .ok (a.wrV x.vd (mapLanes (a.rdV x.vd) (laneWidth x.ty) n (fun j => if j = 0 then some r else none)), [])))

def execVredsum (c : Ctl) (x : VX) (s : State) : Host.Outcome State Fault Refusal :=
  if isFloat3 x.ty then
    s.reduce c x ((ffmt x.ty).signBit true) (fun a i p q =>
      roundTo x.ty ((valOf x.ty p).add (valOf x.ty q) x.rm) x.rm false (a.vrnd x.rm i))
  else s.reduce c x 0 (fun _ _ p q => (p + q) % 2 ^ laneWidth x.ty)

def execVredmax (c : Ctl) (x : VX) (s : State) : Host.Outcome State Fault Refusal :=
  if isFloat3 x.ty then
    s.reduce c x ((ffmt x.ty).infBits true) (fun _ _ p q => roundTo x.ty ((valOf x.ty p).rmax (valOf x.ty q)) 0 false 0)
  else s.reduce c x (intBits x.ty (intMin x.ty)) (fun _ _ p q => if intOf x.ty p < intOf x.ty q then q else p)

/-! ## Accumulator reads (R206) -/

/-- The bytes of an accumulator's elements in the saved form (R89), for the SECDED marks of space 6. -/
def accAddr (acc el : Nat) : Nat := acc * 147456 + 9 * el
def accKey (acc el : Nat) : Nat := acc * 16384 + el
def Tile.accEl (t : Tile) (acc el : Nat) : Wa := Store.get 0 (accKey acc el) t.acc

/-- VACC. -/
def execVacc (c : Ctl) (x : VAcc) (s : State) : Host.Outcome State Fault Refusal :=
  .next (s.vxOrder c { reads := maskKey x.km, writes := [keyV x.vd], lat := 6, also := s.ctile.accQuiet x.acc } (fun a =>
    let n := laneCount x.ty
    let f := 128 * x.row + 64 * x.colh
    let act := a.actives x.km n
    if !a.img.mxn then .error ill
    else match a.vxChk (laneWidth x.ty) act with
      | some t => .error t
      | none =>
        if f % n != 0 then .error ill
        else if 4 ≤ x.acc && (a.ctile.shadow x.acc).st == .pending then .error { cause := .shadow }
        else if act.any (fun j => a.ctile.bad 6 (accAddr x.acc (f + j)) 9) then .error (poisonTrap 6)
        else
          let b := act.foldl (fun (u : State) j => u.correct 6 (accAddr x.acc (f + j)) 9) a
          .ok (b.wrV x.vd (mapLanes (b.rdV x.vd) (laneWidth x.ty) n (fun j =>
            if a.active x.km j then
              let w := a.ctile.accEl x.acc (f + j)
              some (if x.ty = 0x12 then bits w.toNat 0 64 else roundTo x.ty (waVal x.cls w) x.rm (x.nosat == 1) (a.vrnd x.rm j))
            else none)), [])))

/-! ## Modular arithmetic and transforms (R207, R208) -/

/-- The modulus register must be valid. -/
def qChk (q : Nat) (a : State) : Option Trap := if (a.rdQ q).valid then none else some ill

/-- A lane-wise modular order: `f q a b` on the reduced operands. -/
def State.modular (s : State) (c : Ctl) (x : VX) (lat : Nat) (f : Nat → Nat → Nat → Nat) : Host.Outcome State Fault Refusal :=
  s.laneWise c x.vd 0x12 x.km lat [x.va, x.vb] [keyQ x.rm] [] (qChk x.rm) (fun a j =>
    let q := (a.rdQ x.rm).q
    f q (a.laneBits 0x12 x.va j % q) (a.laneBits 0x12 x.vb j % q))

def execVaddm (c : Ctl) (x : VX) (s : State) : Host.Outcome State Fault Refusal := s.modular c x 3 (fun q a b => (a + b) % q)
def execVsubm (c : Ctl) (x : VX) (s : State) : Host.Outcome State Fault Refusal := s.modular c x 3 (fun q a b => (a + (q - b)) % q)
def execVmulm (c : Ctl) (x : VX) (s : State) : Host.Outcome State Fault Refusal := s.modular c x 8 (fun q a b => a * b % q)

/-- The lower lane of the pair that holds lane `j` at distance `d`. -/
def lowerOf (d j : Nat) : Nat := if j / d % 2 = 0 then j else j - d

/-- A butterfly stage: `lo q u t w` and `hi q u t w` of reduced elements. -/
def State.butterfly (s : State) (c : Ctl) (x : VX) (lo hi : Nat → Nat → Nat → Nat → Nat) : Host.Outcome State Fault Refusal :=
  let inter := x.opt == 6
  let d := 2 ^ x.opt
  .next (s.vxOrder c { reads := (if inter then [keyV x.va, keyV x.vb, keyV x.vc] else [keyV x.va, keyV x.vc]) ++ maskKey x.km ++ [keyQ x.rm],
                       writes := if inter && x.vd != 63 then [keyV x.vd, keyV (x.vd + 1)] else [keyV x.vd], lat := 10 } (fun a =>
    let q := (a.rdQ x.rm).q
    let lowers := (List.range 64).filter (fun j => (inter || lowerOf d j == j) && a.active x.km j)
    let e (r j : Nat) : Nat := a.laneBits 0x12 r j % q
    match a.vxChk 64 (if inter then lowers else lowers ++ lowers.map (· + d)) with
    | some t => .error t
    | none =>
      if inter && x.vd == 63 then .error ill
      else if !(a.rdQ x.rm).valid then .error ill
      else if inter then
        let f (g : Nat → Nat → Nat → Nat → Nat) (j : Nat) : Option Nat :=
          if a.active x.km j then some (g q (e x.va j) (e x.vb j) (e x.vc j)) else none
        let b := a.wrV x.vd (mapLanes (a.rdV x.vd) 64 64 (f lo))
        .ok (b.wrV (x.vd + 1) (mapLanes (a.rdV (x.vd + 1)) 64 64 (f hi)), [])
      else
        .ok (a.wrV x.vd (mapLanes (a.rdV x.vd) 64 64 (fun j =>
          let i := lowerOf d j
          if a.active x.km i then some ((if i = j then lo else hi) q (e x.va i) (e x.va (i + d)) (e x.vc i)) else none)), [])))

def execVntt (c : Ctl) (x : VX) (s : State) : Host.Outcome State Fault Refusal :=
  s.butterfly c x (fun q u t w => (u + t * w) % q) (fun q u t w => (u + (q - t * w % q)) % q)
def execVintt (c : Ctl) (x : VX) (s : State) : Host.Outcome State Fault Refusal :=
  s.butterfly c x (fun q u t _ => (u + t) % q) (fun q u t w => (u + (q - t)) % q * w % q)

/-! ## Hashing and seeding (R209, R210) -/

def execVhash (c : Ctl) (x : VX) (s : State) : Host.Outcome State Fault Refusal :=
  s.laneWise c x.vd x.ty x.km 6 [x.va] [] [] noChk (fun a j =>
    let h := splitMix64 (splitMix64 (BitVec.ofNat 64 (a.laneBits x.ty x.va j)) ^^^ BitVec.ofNat 64 x.vc)
    if x.ty = 0x11 then h.toNat else bits h.toNat 32 32)

/-- VSEED: in force for VX in the next cycle, for MX after the retire cycle (R191); it counts no frame step. -/
def execVseed (c : Ctl) (x : VX) (s : State) : Host.Outcome State Fault Refusal :=
  .next (s.vxOrder c { reads := [keyV x.va], lat := 1, steps := false } (fun a =>
    let v := BitVec.ofNat 64 (lane (a.rdV x.va) 64 0)
    .ok (a.setCtile { a.ctile with srseed := v }, [.mxSeed v])))

/-! ## Rank coding (R211, R212) -/

/-- Insert an element into a list that is sorted by value descending, after every element that is not below it. -/
def rankIns (e : Nat × Val) : List (Nat × Val) → List (Nat × Val)
  | [] => [e]
  | x :: r => if x.2.cmp e.2 == some .lt then e :: x :: r else x :: rankIns e r

/-- The indices of the eligible elements, by value descending, equal values in ascending index. -/
def rankSort (es : List (Nat × Val)) : List Nat := (es.foldl (fun acc e => rankIns e acc) []).map (·.1)

/-- ⌈log2 b⌉. -/
def clog2 (b : Nat) : Nat := if b ≤ 1 then 0 else Nat.log2 (b - 1) + 1
def ceilDiv (a b : Nat) : Nat := (a + b - 1) / b

/-- The vector registers from `r` on, of a count. -/
def regRange (r k : Nat) : List Nat := (List.range k).map (r + ·)

/-- No eligible element of a RANK from tile SRAM is still to be written. -/
def State.rankClear (s : State) (x : VRank) (n w : Nat) : Bool :=
  x.src == 0 || (List.range n).all (fun i => !(x.km == 0 || s.active x.km i) || !s.pending 3 x.va (x.off + i * (w / 8)) (w / 8))

/-- RANK. -/
def execRank (c : Ctl) (x : VRank) (s : State) : Host.Outcome State Fault Refusal :=
  let n := 64 * (x.nblk + 1)
  let k := x.km1 + 1
  let nl := laneCount x.ty
  let w := laneWidth x.ty
  let b := ceilDiv n 128
  let regs := (regRange x.va (ceilDiv n nl)).filter (· < 64)
  .next (s.vxOrder c
    { reads := (if x.src = 0 then regs.map keyV else []) ++ maskKey x.km, writes := [keyV x.vd],
      units := (keyRank, b + ceilDiv k 16) :: (if x.src = 1 then [(keyPort, b)] else []),
      lat := 36 + b + 4 * clog2 b + ceilDiv k 16, also := s.rankClear x n w } (fun a =>
    let act := (List.range n).filter (fun i => x.km == 0 || a.active x.km i)
    let srcLanes := if x.src = 0 then act.map (· % nl) else []
    match a.vxChk w srcLanes <|> a.vxChk 16 (List.range k) with
    | some t => .error t
    | none =>
      if x.km != 0 && 512 < n then .error ill
      else if x.src == 0 && 64 < x.va + ceilDiv n nl then .error ill
      else
        let read (i : Nat) : Except Trap Nat :=
          if x.src = 0 then .ok (a.laneBits x.ty (x.va + i / nl) (i % nl))
          else (a.readBuf 3 x.va (x.off + i * (w / 8)) (w / 8)).map leNat
        match act.mapM (fun i => (read i).map (fun v => (i, valOf x.ty v))) with
        | .error t => .error t
        | .ok es =>
          let a1 := if x.src = 1 then act.foldl (fun (u : State) i => u.correct 3 ((a.decl x.va).addr (x.off + i * (w / 8))) (w / 8)) a else a
          let st := rankSort (es.filter (fun e => !e.2.isNan))
          .ok (a1.wrV x.vd (mapLanes (a1.rdV x.vd) 16 256 (fun r => if r < k then some (st.getD r 0xFFFF) else none)), [])))

/-- The walk of RKVAL over the stream: what has been written (index, rank) and the flags. -/
def rkvalWalk (nout : Nat) (idx : Nat → Nat) : Nat → Nat → List (Nat × Nat) → List Nat → List (Nat × Nat) × List Nat
  | 0, _, out, fl => (out, fl)
  | k + 1, r, out, fl =>
    let i := idx r
    if i = 0xFFFF then (out, fl)
    else if nout ≤ i then rkvalWalk nout idx k (r + 1) out ((256 + r) :: fl)
    else if out.any (fun e => e.1 == i) then rkvalWalk nout idx k (r + 1) out (r :: fl)
    else rkvalWalk nout idx k (r + 1) ((i, r) :: out) fl

/-- RKVAL. -/
def execRkval (c : Ctl) (x : VRkval) (s : State) : Host.Outcome State Fault Refusal :=
  let n := laneCount x.ty
  let nreg := x.nreg1 + 1
  let regs := (regRange x.vd nreg).filter (· < 64)
  .next (s.vxOrder c
    { reads := [keyV x.vi, keyV x.vf], writes := regs.map keyV ++ maskKey x.kd, units := [(keyRank, nreg)],
      lat := 6 + nreg + ceilDiv (x.km1 + 1) 16 } (fun a =>
    if !a.img.vxall then .error ill
    else if 64 < x.vd + nreg then .error ill
    else
      let p := rkvalWalk (n * nreg) (fun r => lane (a.rdV x.vi) 16 r) (x.km1 + 1) 0 [] []
      let floor := a.laneBits x.ty x.vf 0
      let val (i : Nat) : Nat :=
        match p.1.find? (fun e => e.1 == i) with
        | some e => roundTo x.ty (valOf 1 (Store.get 0 e.2 a.ctile.rctV).toNat) 0 false 0
        | none => floor
      let b := (List.range nreg).foldl (fun (u : State) m =>
        u.wrV (x.vd + m) (mapLanes (u.rdV (x.vd + m)) (laneWidth x.ty) n (fun j => some (val (n * m + j))))) a
      .ok (b.wrK x.kd (maskOf (fun j => p.2.contains j)), [])))

end Sys2Proof.Machine
end

