-- ==== Sys2Proof/Machine/VectorMem.lean ====
section
/-! DEFINITION. The VX orders that reach tile SRAM: VLD, VST, VLDX, VSTX and bit-field extraction (R106, R107, R203 to R205). -/
namespace Sys2Proof.Machine

/-! ## Element addresses -/

/-- The byte offset in the buffer of active lane `j`: `vi` none for a consecutive access (R203). -/
def State.vmOff (s : State) (m : VMem) (indexed : Bool) (j : Nat) : Nat :=
  64 * m.off + (if indexed then lane (s.rdV m.vi) 32 j else j) * (laneWidth m.ty / 8)

/-- No active lane of the access touches a byte that is still to be written. -/
def State.vmClear (s : State) (m : VMem) (indexed : Bool) : Bool :=
  (s.actives m.km (laneCount m.ty)).all (fun j =>
    !s.pending 3 m.buf (s.vmOff m indexed j) (laneWidth m.ty / 8))

/-- VLD and VLDX. -/
def State.vload (s : State) (c : Ctl) (m : VMem) (indexed : Bool) : Host.Outcome State Fault Refusal :=
  let n := laneCount m.ty
  let w := laneWidth m.ty
  .next (s.vxOrder c
    { reads := (if indexed then [keyV m.vi] else []) ++ maskKey m.km, writes := [keyV m.vd],
      units := [(keyPort, if indexed then 4 else 1)], lat := if indexed then 8 else 4, also := s.vmClear m indexed } (fun a =>
    let act := a.actives m.km n
    match a.vxChk w act <|> (if indexed then a.vxChk 32 act else none) with
    | some t => .error t
    | none =>
      match act.mapM (fun j => a.readBuf 3 m.buf (a.vmOff m indexed j) (w / 8)) with
      | .error t => .error t
      | .ok bs =>
        let b := act.foldl (fun (u : State) j => u.correct 3 ((a.decl m.buf).addr (a.vmOff m indexed j)) (w / 8)) a
        let vals := act.zip (bs.map leNat)
        .ok (b.wrV m.vd (mapLanes (b.rdV m.vd) w n (fun j => (vals.find? (fun e => e.1 == j)).map (·.2))), [])))

def execVld (c : Ctl) (m : VMem) (s : State) : Host.Outcome State Fault Refusal := s.vload c m false
def execVldx (c : Ctl) (m : VMem) (s : State) : Host.Outcome State Fault Refusal := s.vload c m true

/-- VST: the bytes are written in the issue cycle. -/
def execVst (c : Ctl) (m : VMem) (s : State) : Host.Outcome State Fault Refusal :=
  let n := laneCount m.ty
  let w := laneWidth m.ty
  .next (s.vxOrder c { reads := keyV m.vd :: maskKey m.km, units := [(keyPort, 1)], lat := 1, also := s.vmClear m false } (fun a =>
    let act := a.actives m.km n
    match a.vxChk w act with
    | some t => .error t
    | none =>
      match firstTrap (fun j => a.chkWrite 3 m.buf (a.vmOff m false j) (w / 8)) act with
      | some t => .error t
      | none => .ok (act.foldl (fun (u : State) j =>
          u.writeBuf m.buf (a.vmOff m false j) (leBytes (w / 8) (a.laneBits m.ty m.vd j))) a, [])))

/-- VSTX: the bytes are written at the end of cycle issue + 3, lanes in ascending order. -/
def execVstx (c : Ctl) (m : VMem) (s : State) : Host.Outcome State Fault Refusal :=
  let n := laneCount m.ty
  let w := laneWidth m.ty
  .next (s.vxOrder c
    { reads := keyV m.vd :: keyV m.vi :: maskKey m.km, units := [(keyPort, 4)], lat := 4, also := s.vmClear m true } (fun a =>
    let act := a.actives m.km n
    match a.vxChk w act <|> a.vxChk 32 act with
    | some t => .error t
    | none =>
      match firstTrap (fun j => a.chkWrite 3 m.buf (a.vmOff m true j) (w / 8)) act with
      | some t => .error t
      | none =>
        let d := a.decl m.buf
        let es := act.map (fun j => (a.now + 3, Eff.sram 3 (d.addr (a.vmOff m true j)) (leBytes (w / 8) (a.laneBits m.ty m.vd j))))
        let fin := if act.isEmpty then [] else [(a.now + 3, Eff.bufFull m.buf)]
        .ok (a.setCtile { a.ctile with effs := a.ctile.effs ++ es ++ fin }, [])))

/-! ## Bit-field extraction (R106, R107) -/

/-- The header and descriptors of a pattern (Table 5.14). -/
def bfxPeriod (p : BitVec 576) : Nat := bits p.toNat 0 8
def bfxNfld (p : BitVec 576) : Nat := bits p.toNat 8 8
def bfxSign (p : BitVec 576) : Bool := bits p.toNat 16 1 == 1
def bfxDesc (p : BitVec 576) (f : Nat) : Nat := bits p.toNat (64 + 16 * f) 16
def bfxWidth (p : BitVec 576) (f : Nat) : Nat := bits (bfxDesc p f) 12 4 + 1
def bfxShift (p : BitVec 576) (f : Nat) : Nat := bits (bfxDesc p f) 0 7

/-- R106: the pattern is not malformed; WIDTH of the sum is the width in bits. Notes: log entry 50. -/
def bfxOk (p : BitVec 576) : Bool :=
  1 ≤ bfxPeriod p && bfxPeriod p ≤ 128 && 1 ≤ bfxNfld p && bfxNfld p ≤ 32 && bits p.toNat 17 47 == 0 &&
  (List.range 32).all (fun f =>
    if f < bfxNfld p then bits (bfxDesc p f) 7 5 == 0 && bfxShift p f + bfxWidth p f ≤ bfxPeriod p else bfxDesc p f == 0)

/-- The widest field. -/
def bfxWidest (p : BitVec 576) : Nat := ((List.range (bfxNfld p)).map (bfxWidth p)).foldl Nat.max 0

/-- The first stream bit of output element `i` and its width. -/
def bfxBit (p : BitVec 576) (i : Nat) : Nat := i / bfxNfld p * bfxPeriod p + bfxShift p (i % bfxNfld p)
def bfxLen (p : BitVec 576) (i : Nat) : Nat := bfxWidth p (i % bfxNfld p)

/-- R107: output element `i`, extended to `w` bits, from a stream given as a number. -/
def bfxElem (p : BitVec 576) (w : Nat) (stream i : Nat) : Nat :=
  let v := bits stream (bfxBit p i) (bfxLen p i)
  if bfxSign p then field w (sext (bfxLen p i) v) else v

/-- The stream bytes that hold a field of element `i`. -/
def bfxBytes (p : BitVec 576) (i : Nat) : List Nat :=
  let lo := bfxBit p i / 8
  (List.range ((bfxBit p i + bfxLen p i - 1) / 8 + 1 - lo)).map (lo + ·)

/-- A type that the slot path accepts: an integer or float type of 4, 8 or 16 bits (R204). -/
def slotType (ty : Nat) : Bool := (isIntTy ty || isFloatLane ty) && elemBits ty ≤ 16 && elemBits ty != 0

/-- BFXCFG (R204): the checks of its buffer come before those of PATH and TYPE. Notes: log entry 50. -/
def execBfxcfg (c : Ctl) (m : VMem) (s : State) : Host.Outcome State Fault Refusal :=
  .next (s.vxOrder c
    { units := [(keyBfx, 3), (keyPort, 1)], lat := 3,
      also := !s.pending 3 m.buf m.off 72 } (fun a =>
    match (List.range 9).mapM (fun k => a.readBuf 3 m.buf (m.off + 8 * k) 8) with
    | .error t => .error t
    | .ok bs =>
      let b := a.correct 3 ((a.decl m.buf).addr m.off) 72
      let p : BitVec 576 := BitVec.ofNat 576 (leNat bs.flatten)
      if !bfxOk p || (m.path == 0 && m.ty != 0) || (m.path == 1 && (!slotType m.ty || elemBits m.ty < bfxWidest p)) then .error ill
      else if m.path = 0 then .ok (b.setCtile { b.ctile with bfxV := p }, [])
      else .ok (b.setCtile { b.ctile with bfxS := p, slotTy := m.ty }, [.mxPat p m.ty])))

/-- VBFX (R205). -/
def execVbfx (c : Ctl) (m : VMem) (s : State) : Host.Outcome State Fault Refusal :=
  let p := s.ctile.bfxV
  let bytes (a : State) : List Nat := (a.actives m.km 256).flatMap (bfxBytes p)
  .next (s.vxOrder c
    { reads := maskKey m.km, writes := [keyV m.vd], units := [(keyBfx, 2), (keyPort, 2)], lat := 6,
      also := (bytes s).all (fun k => !s.pending 3 m.buf (m.off + k) 1) } (fun a =>
    match a.vxChk 16 (a.actives m.km 256) with
    | some t => .error t
    | none =>
      if bfxPeriod p = 0 then .error ill
      else
        match (bytes a).mapM (fun k => a.readBuf 3 m.buf (m.off + k) 1) with
        | .error t => .error t
        | .ok _ =>
          let b := (bytes a).foldl (fun (u : State) k => u.correct 3 ((a.decl m.buf).addr (m.off + k)) 1) a
          let el (i : Nat) : Nat := bfxElem p 16 (leNat (a.bufBytes m.buf m.off ((bfxBit p i + 16) / 8 + 1))) i
          .ok (b.wrV m.vd (mapLanes (b.rdV m.vd) 16 256 (fun j => if a.active m.km j then some (el j) else none)), [])))

end Sys2Proof.Machine
end

