-- ==== Sys2Proof/Machine/Matrix.lean ====
section
/-! DEFINITION. The MX orders and the engine-format words of SQ: multiply-accumulate, the loop nest, slots, accumulators, format and nest set-up (R88 to R94, R104, R105, R108, R109, R249 to R275). -/
namespace Sys2Proof.Machine

/-! ## Format entries (R104, R105, Table 5.13) -/

def entValid (e : Nat) : Bool := bits e 0 1 == 1
def entA (e : Nat) : Nat := bits e 5 5
def entB (e : Nat) : Nat := bits e 10 5
def entAsgn (e : Nat) : Bool := bits e 15 1 == 1
def entBsgn (e : Nat) : Bool := bits e 16 1 == 1
def entScale (e : Nat) : Nat := bits e 17 2
def entOtype (e : Nat) : Nat := bits e 19 5
def entRmode (e : Nat) : Nat := bits e 24 3
def entNosat (e : Nat) : Bool := bits e 27 1 == 1
def entSpn (e : Nat) : Nat := bits e 28 4

def isBlock (ty : Nat) : Bool := ty == 5 || ty == 6 || ty == 7
/-- The row of Table 5.13 of an operand type: 1 to 4 the float rows by width, 5 and 6 the integer rows, 7 modular, 0 none. -/
def rowOf (ty : Nat) : Nat :=
  match ty with
  | 7 => 1 | 6 => 1 | 3 => 2 | 4 => 2 | 5 => 2 | 1 => 3 | 2 => 3 | 0 => 4 | 8 => 5 | 0x0A => 6 | 0x12 => 7 | _ => 0
/-- The class of a row: 0 float, 1 integer, 2 modular. -/
def rowClass (r : Nat) : Nat := if r = 7 then 2 else if 5 ≤ r then 1 else 0
/-- The operand width class of a row, as the index of its column in Table 14.2. -/
def rowCol (r : Nat) : Nat :=
  match r with
  | 1 => 0 | 5 => 0 | 2 => 1 | 6 => 1 | 3 => 2 | 4 => 3 | _ => 4

/-- An output type of the row. -/
def outOk (r ty : Nat) : Bool :=
  match rowClass r with
  | 0 => ty ≤ 7 || ty == 0x13
  | 1 => isIntLane ty || ty == 0 || ty == 0x13
  | _ => ty == 0x12 || ty == 0x13

/-- R105: the value may be stored in a format entry. -/
def entLegal (e : Nat) : Bool :=
  bits e 1 4 == 0 &&
  (!entValid e ||
    (rowOf (entA e) != 0 && rowOf (entA e) == rowOf (entB e) && outOk (rowOf (entA e)) (entOtype e) && entRmode e ≤ 4 &&
     entScale e == (if isBlock (entA e) || isBlock (entB e) then 1 else 0) &&
     (rowClass (rowOf (entA e)) == 1 || (!entAsgn e && !entBsgn e)) &&
     (entSpn e == 0 || (3 ≤ entSpn e && entSpn e ≤ 11 && rowCol (rowOf (entA e)) ≤ 1))))

def Tile.fent (t : Tile) (f : Nat) : Nat := (Store.get 0 f t.f).toNat

/-! ## Shapes and operands (R254, R255) -/

/-- M and N of a shape code (Table 14.2). -/
def shpM (shp : Nat) : Nat :=
  match shp with
  | 4 => 64 | 5 => 64 | 7 => 32 | _ => 128
def shpN (shp : Nat) : Nat :=
  match shp with
  | 3 => 64 | 5 => 64 | 0 => 32 | _ => 128
/-- K of a shape for a width class. -/
def shpK (shp col : Nat) : Nat := (if shp = 2 then 128 else if shp = 6 then 64 else 256) / 2 ^ col

/-- The array rate R of a width class (R250). -/
def rate (col : Nat) : Nat :=
  match col with
  | 0 => 32768 | 1 => 16384 | 2 => 8192 | 3 => 1024 | _ => 256

/-- The bytes of `k` packed elements of a type. -/
def packedBytes (ty k : Nat) : Nat :=
  if isBlock ty then ceilDiv k 32 * blockBytes ty else ceilDiv (k * elemBits ty) 8

def Tile.op (t : Tile) (a : Nat) : Nat := (Store.get 0 a t.opmem).toNat
/-- A little-endian number of operand memory. -/
def Tile.opLe (t : Tile) (a n : Nat) : Nat := leNat (Store.getN 0 t.opmem a n)

/-- The bits of element `k` of a packed row of a plain type. -/
def Tile.opElem (t : Tile) (ty base k : Nat) : Nat :=
  if elemBits ty = 4 then nibble (fun i => t.op (base + i)) k else t.opLe (base + k * (elemBits ty / 8)) (elemBits ty / 8)

/-- The float value of element `k` of a packed row. -/
def Tile.opVal (t : Tile) (ty base k : Nat) : Val :=
  if isBlock ty then blockElem ty (fun i => t.op (base + blockBytes ty * (k / 32) + i)) (k % 32)
  else (ffmt ty).decode (t.opElem ty base k)
/-- The integer value, with the signedness of the entry. -/
def Tile.opInt (t : Tile) (ty : Nat) (sgn : Bool) (base k : Nat) : Int :=
  let v := t.opElem ty base k
  if sgn then sext (elemBits ty) v else (v : Int)

/-! ## The body of a multiply-accumulate (R91 to R94, R257) -/

/-- One accumulator element after the products that `ks` lists as positions in A's row and in B's row. -/
def macElem (t : Tile) (e q : Nat) (base : Wa) (arow brow : Nat) (ks : List (Nat × Nat)) : Wa :=
  match rowClass (rowOf (entA e)) with
  | 0 => macFloat (groupSize (entA e)) base (ks.map (fun k => (t.opVal (entA e) arow k.1).mul (t.opVal (entB e) brow k.2)))
  | 1 => waInt (waIntOf base + (ks.map (fun k => t.opInt (entA e) (entAsgn e) arow k.1 * t.opInt (entB e) (entBsgn e) brow k.2)).sum)
  | _ => BitVec.ofNat 72 ((bits base.toNat 0 62 % q +
      (ks.map (fun k => (t.opElem 0x12 arow k.1 % q) * (t.opElem 0x12 brow k.2 % q))).sum) % q)

/-- A write of bytes of a space removes the error marks of the 64-bit words that it writes whole (R318). -/
def Tile.unmark (t : Tile) (space : Nat) (rs : List (Nat × Nat)) : Tile :=
  { t with ecc := t.ecc.filter (fun e => !rs.any (fun r => eccKey space (r.1 + 7) ≤ e.1 && e.1 < eccKey space (r.1 + r.2))) }

/-- The stored ranges of rows `lo` to `lo + m - 1` of an accumulator, `n` elements of each. -/
def accRanges (acc lo m n : Nat) : List (Nat × Nat) := (List.range m).map (fun i => (accAddr acc (128 * (lo + i)), 9 * n))
/-- The stored range of a whole accumulator. -/
def accWhole (acc : Nat) : Nat × Nat := (accAddr acc 0, 147456)

/-- Write the elements with i < M and j < N of an accumulator. -/
def Tile.putAcc (t : Tile) (acc m n : Nat) (f : Nat → Nat → Wa) : Tile :=
  let cells := (List.range m).flatMap (fun i => (List.range n).map (fun j => (accKey acc (128 * i + j), f i j)))
  { t.unmark 6 (accRanges acc 0 m n) with acc := cells.foldl (fun a c => Store.put 0 c.1 c.2 a) t.acc }

/-- Copy a whole accumulator. -/
def Tile.copyAcc (t : Tile) (d a : Nat) : Tile :=
  let kept := Store.delRange (accKey d 0) (accKey (d + 1) 0) t.acc
  let moved := (t.acc.filter (fun c => accKey a 0 ≤ c.1 && c.1 < accKey (a + 1) 0)).map (fun c => (c.1 - accKey a 0 + accKey d 0, c.2))
  { t.unmark 6 [accWhole d] with acc := moved.foldr (fun c m => Store.put 0 c.1 c.2 m) kept }
/-- Clear a whole accumulator (R266). -/
def Tile.clearAcc (t : Tile) (d : Nat) : Tile := { t.unmark 6 [accWhole d] with acc := Store.delRange (accKey d 0) (accKey (d + 1) 0) t.acc }

/-- The dense body of R257: every k from 0 to K - 1, operands at `a` and `b`. -/
def Tile.macDense (t : Tile) (acc e q shp clr a b : Nat) : Tile :=
  let k := shpK shp (rowCol (rowOf (entA e)))
  let ks := (List.range k).map (fun i => (i, i))
  t.putAcc acc (shpM shp) (shpN shp) (fun i j =>
    macElem t e q (if clr = 1 then 0 else t.accEl acc (128 * i + j)) (a + i * packedBytes (entA e) k) (b + j * packedBytes (entB e) k) ks)

/-! ## Structured sparsity (R108, R258) -/

/-- Metadata word `g` of row `i`. -/
def Tile.meta (t : Tile) (md gs i g : Nat) : Nat := t.opLe (md + 2 * (gs * i + g)) 2

/-- The number of ones among the low 12 bits. -/
def ones12 (w : Nat) : Nat := ((List.range 12).map (fun b => bits w b 1)).sum

/-- R108: a metadata word of group `g` over K positions is valid. -/
def metaOk (k spn g w : Nat) : Bool :=
  let present := Nat.min 12 (k - 12 * g)
  bits w 12 4 == 0 && (List.range 12).all (fun b => bits w b 1 == 0 || b < present) &&
  (if present = 12 then ones12 w == spn else ones12 w ≤ spn)

/-- The kept positions of row `i`, ascending. -/
def Tile.kept (t : Tile) (md gs i : Nat) : List Nat :=
  (List.range gs).flatMap (fun g => ((List.range 12).filter (fun b => bits (t.meta md gs i g) b 1 == 1)).map (12 * g + ·))

/-- The sparse body. -/
def Tile.macSparse (t : Tile) (acc e shp clr a b md : Nat) : Tile :=
  let k := shpK shp (rowCol (rowOf (entA e)))
  let gs := ceilDiv k 12
  let rb := packedBytes (entA e) (gs * entSpn e)
  t.putAcc acc (shpM shp) (shpN shp) (fun i j =>
    macElem t e 0 (if clr = 1 then 0 else t.accEl acc (128 * i + j)) (a + i * rb) (b + j * packedBytes (entB e) k)
      ((t.kept md gs i).zipIdx.map (fun p => (p.2, p.1))))

/-! ## Operand ranges (R253) -/

def slotBytes : Nat := 32768
def opBytes : Nat := 524288
/-- The slots that a range touches. -/
def slotsOf (r : Nat × Nat) : List Nat :=
  (List.range ((r.1 + r.2 - 1) / slotBytes + 1 - r.1 / slotBytes)).map (r.1 / slotBytes + ·)
/-- R253: the range is inside operand memory and every slot that it touches is claimed and not filling; else the slot. -/
def Tile.rangeBad (t : Tile) (r : Nat × Nat) : Option Nat :=
  if opBytes < r.1 + r.2 then some (r.1 / slotBytes % 16)
  else (slotsOf r).find? (fun n => bits t.claim n 1 == 0 || bits t.filling n 1 == 1)
def Tile.rangesChk (t : Tile) (rs : List (Nat × Nat)) : Option Trap :=
  match rs.findSome? t.rangeBad with
  | some n => some { cause := .slot, opd1 := n }
  | none => none

/-! ## Readiness and the shape of an MX order (R250, R251) -/

def keyArray : Nat := 160
def keyMPort : Nat := 161
def keyAtt : Nat := 162

/-- What an MX order needs: its unit and occupancy, its latency, its accumulators, its ranges. -/
structure MNeed where
  unit : List (Nat × Nat) := []
  lat : Nat
  accs : List Nat := []
  /-- The destination of an MMA, MMAS, MMUL or RKMAC (R348: RKMAC is one of the class), and whether the order itself may go on in the
destination of the one directly before it: an MMA, MMAS or MMUL, with CLR = 1 too. Notes: log entry 30. -/
  mma : Option Nat := none
  joins : Bool := false
  rd : List (Nat × Nat) := []
  wr : List (Nat × Nat) := []
  /-- The slot that it releases. -/
  rel : Option Nat := none
  /-- No byte of tile SRAM that it reads is still to be written, and whatever else it waits for. -/
  also : Bool := true
  met : Bool := true
deriving DecidableEq, Repr

/-- The order is ready (R251); one that reads or releases a filling slot is not. Notes: log entry 30. -/
def MNeed.ready (n : MNeed) (t : Tile) (now : Nat) : Bool :=
  n.also && n.unit.all (fun u => t.ready u.1 ≤ now) &&
  n.accs.all (fun a => t.accQuiet a || (n.joins && n.mma == some a && t.lastMma == some a)) &&
  n.rd.all (fun r => t.flights.all (fun f => f.opWr.all (fun w => !overlap r w)) && (slotsOf r).all (fun k => bits t.filling k 1 == 0)) &&
  n.wr.all (fun r => t.flights.all (fun f => f.opRd.all (fun w => !overlap r w))) &&
  (match n.rel with
   | some k => bits t.filling k 1 == 0 && t.flights.all (fun f => f.opRd.all (fun w => !(slotsOf w).contains k))
   | none => true)

/-- The bookkeeping of MX: its units held, one more frame step, what the next order may chain onto. -/
def Tile.afterM (t : Tile) (n : MNeed) (now : Nat) : Tile :=
  let t1 := n.unit.foldl (fun x u => x.busy u.1 (now + u.2)) t
  { t1 with fstepM := t1.fstepM + 1, lastMma := n.mma }

/-- An MX order: at a position with MXN = 0 it raises ILL (R18); `body` makes its checks and gives what it leaves in flight. -/
def State.mxOrder (s : State) (c : Ctl) (n : MNeed) (body : State → Except Trap (State × Issue)) : State :=
  s.engineOrder { ctl := c, pre := if s.img.mxn then none else some ill, free := n.ready s.ctile s.now, met := n.met } (fun a =>
    match body a with
    | .error t => .error t
    | .ok r =>
      let was : Before := { acc := a.ctile.acc, sh0 := a.ctile.sh0, sh1 := a.ctile.sh1, nlvA := a.ctile.nlvA }
      .ok (r.1.setCtile (r.1.ctile.afterM n r.1.now),
        { r.2 with retire := some (r.1.now + n.lat - 1), opRd := n.rd, opWr := n.wr, before := if r.2.intPath then some was else none }))

/-- Arm a status word with a count of 1, to be completed at retirement (R258, R260, R273); nothing where REMAIN is at its limit. -/
def State.armOne (s : State) (sw : Nat) : Option (State × Bool) :=
  match swArm (s.rdSw sw) 1 with
  | some w => some (s.wrSw sw w, phaseOf (s.rdSw sw))
  | none => none

/-- R275, the shadow state at issue: SHADOW when COMMITTED, ILL for another partner when PENDING. -/
def Tile.shadowChk (t : Tile) (acc part : Nat) : Option Trap :=
  if acc < 4 then none
  else match (t.shadow acc).st with
    | .committed => some { cause := .shadow }
    | .pending => if (t.shadow acc).partner = part then none else some ill
    | .empty => none

/-- Reads of a shadow by AOUT, ASTOW and AMOV raise SHADOW while it is PENDING (R275). -/
def Tile.shadowRead (t : Tile) (acc : Nat) : Option Trap :=
  if 4 ≤ acc && (t.shadow acc).st == .pending then some { cause := .shadow } else none

/-- An uncorrectable error in a range that MX reads (R318): space 5, operand memory. POISON comes after every other check of an MX
order. Notes: log entry 20. -/
def Tile.opPoison (t : Tile) (rs : List (Nat × Nat)) : Option Trap :=
  if rs.any (fun r => t.bad 5 r.1 r.2) then some (poisonTrap 5) else none
/-- An uncorrectable error in an accumulator (space 6). -/
def Tile.accPoison (t : Tile) (acc : Nat) : Option Trap := if t.bad 6 (accWhole acc).1 (accWhole acc).2 then some (poisonTrap 6) else none
def State.correctOp (s : State) (rs : List (Nat × Nat)) : State := rs.foldl (fun u r => u.correct 5 r.1 r.2) s
def State.correctAcc (s : State) (acc : Nat) : State := s.correct 6 (accWhole acc).1 (accWhole acc).2

/-- R318: a read of accumulator ranges raises POISON on an uncorrectable error, and corrects the single ones. -/
def Tile.accsPoison (t : Tile) (rs : List (Nat × Nat)) : Option Trap := if rs.any (fun r => t.bad 6 r.1 r.2) then some (poisonTrap 6) else none
def State.correctAccs (s : State) (rs : List (Nat × Nat)) : State := rs.foldl (fun u r => u.correct 6 r.1 r.2) s

/-- The shadow that EMPTY MMA destinations start from: the partner's elements, or with CLR = 1 zero, those outside M × N too (R275); it
becomes PENDING. Notes: log entry 30. -/
def State.openShadow (s : State) (acc part clr : Nat) : State :=
  if acc < 4 then s
  else match (s.ctile.shadow acc).st with
    | .empty =>
      let s1 := s.setCtile (if clr = 1 then s.ctile.clearAcc acc else s.ctile.copyAcc acc part)
      s1.atEnd (.shadow acc { st := .pending, partner := part })
    | _ => s

/-- The accumulators that an MMA, MMAS or MMUL reads or writes: the partner where a shadow opens from it (R275). -/
def Tile.mmaAccs (t : Tile) (acc part clr : Nat) : List Nat :=
  if 4 ≤ acc && clr == 0 && (t.shadow acc).st == .empty then [acc, part] else [acc]

/-- The accumulator ranges that an MMA-class order reads: none with CLR, the partner where a shadow opens, else its destination. -/
def Tile.mmaReads (t : Tile) (o : MmaOp) : List (Nat × Nat) :=
  if o.clr = 1 then []
  else if 4 ≤ o.acc && (t.shadow o.acc).st == .empty then accRanges o.part 0 128 128
  else accRanges o.acc 0 (shpM o.shp) (shpN o.shp)

/-- The operand ranges of a dense multiply. -/
def denseRanges (e shp a b : Nat) : List (Nat × Nat) :=
  let k := shpK shp (rowCol (rowOf (entA e)))
  [(a, shpM shp * packedBytes (entA e) k), (b, shpN shp * packedBytes (entB e) k)]

/-- MMA and MMUL: `want` is the class limit of Table 14.3. -/
def State.denseOrder (s : State) (c : Ctl) (o : MmaOp) (modular : Bool) : Host.Outcome State Fault Refusal :=
  let e := s.ctile.fent o.f
  let col := rowCol (rowOf (entA e))
  let occ := shpM o.shp * shpN o.shp * shpK o.shp col / rate col
  let rs := denseRanges e o.shp (64 * o.a) (64 * o.b)
  .next (s.mxOrder c
    { unit := [(keyArray, occ)], lat := occ + (if modular then 14 else 10), accs := s.ctile.mmaAccs o.acc o.part o.clr, mma := some o.acc, joins := true, rd := rs }
    (fun a =>
      let q := Store.get {} o.q a.ctile.qM
      if !entValid e || (rowClass (rowOf (entA e)) == 2) != modular || entSpn e != 0 || (modular && !q.valid) then .error ill
      else match a.ctile.shadowChk o.acc o.part <|> a.ctile.rangesChk rs <|> a.ctile.opPoison rs <|> a.ctile.accsPoison (a.ctile.mmaReads o) with
        | some t => .error t
        | none =>
          let b := ((a.correctOp rs).correctAccs (a.ctile.mmaReads o)).openShadow o.acc o.part o.clr
          .ok (b.setCtile (b.ctile.macDense o.acc e q.q o.shp o.clr (64 * o.a) (64 * o.b)),
            { accW := 2 ^ o.acc, intPath := rowClass (rowOf (entA e)) != 0 })))

def execMma (c : Ctl) (o : MmaOp) (s : State) : Host.Outcome State Fault Refusal := s.denseOrder c o false
def execMmul (c : Ctl) (o : MmaOp) (s : State) : Host.Outcome State Fault Refusal := s.denseOrder c o true

/-- MMAS (R258): an invalid metadata word completes the status word with RANGE and leaves the accumulator unchanged. -/
def execMmas (c : Ctl) (o : MmaOp) (s : State) : Host.Outcome State Fault Refusal :=
  let e := s.ctile.fent o.f
  let col := rowCol (rowOf (entA e))
  let m := shpM o.shp
  let k := shpK o.shp col
  let gs := ceilDiv k 12
  let full := m * shpN o.shp * k
  let occ := Nat.max (ceilDiv (full * entSpn e) (12 * rate col)) (full / (4 * rate col))
  let md := 64 * o.md
  let rs := [(64 * o.a, m * packedBytes (entA e) (gs * entSpn e)), (64 * o.b, shpN o.shp * packedBytes (entB e) k), (md, m * 2 * gs)]
  .next (s.mxOrder c
    { unit := [(keyArray, occ)], lat := occ + 10, accs := s.ctile.mmaAccs o.acc o.part o.clr, mma := some o.acc, joins := true, rd := rs }
    (fun a =>
      if !entValid e || 1 < col || entSpn e == 0 then .error ill
      else match a.ctile.shadowChk o.acc o.part <|> a.ctile.rangesChk rs <|> a.ctile.opPoison rs <|> a.ctile.accsPoison (a.ctile.mmaReads o) with
        | some t => .error t
        | none =>
          match a.armOne o.sw with
          | none => .ok (a.statusWrite o.sw 9, {})
          | some (b, ph) =>
            if (List.range m).all (fun i => (List.range gs).all (fun g => metaOk k (entSpn e) g (a.ctile.meta md gs i g))) then
              let b1 := ((b.correctOp rs).correctAccs (a.ctile.mmaReads o)).openShadow o.acc o.part o.clr
              .ok (b1.setCtile (b1.ctile.macSparse o.acc e o.shp o.clr (64 * o.a) (64 * o.b) md),
                { accW := 2 ^ o.acc, done := some (o.sw, 0, ph), intPath := rowClass (rowOf (entA e)) != 0 })
            else .ok (b, { accW := 2 ^ o.acc, done := some (o.sw, 9, ph) })))

/-! ## Rank accumulation (R260) -/

def rkType (wt : Nat) : Nat :=
  match wt with
  | 0 => 1 | 1 => 2 | _ => 3

/-- The number of positions before the first terminator. -/
def liveLen : List Nat → Nat
  | [] => 0
  | i :: r => if i = 0xFFFF then 0 else liveLen r + 1

/-- The exact products of a group of rank positions: a position whose index is out of range contributes nothing. -/
def rkGroup (t : Tile) (o : RkOp) (j : Nat) (grp : List (Nat × Nat)) : List Val :=
  (grp.filter (fun p => p.1 ≤ o.nr1)).map (fun p =>
    (fmtF16.decode (Store.get 0 p.2 t.att).toNat).mul
      (t.opVal (rkType o.wt) (slotBytes * o.slot + 128 * p.1 * (elemBits (rkType o.wt) / 8)) j))

/-- One element of the row: groups of 8 positions, each rounded with what came before. -/
def rkElem (t : Tile) (o : RkOp) (j : Nat) : Nat → Wa → List (Nat × Nat) → Wa
  | 0, a, _ => a
  | n + 1, a, ps =>
    match ps with
    | [] => a
    | _ :: _ => rkElem t o j n (roundWa (exactSum (waFloat a :: rkGroup t o j (ps.take 8)))) (ps.drop 8)

def execRkmac (c : Ctl) (o : RkOp) (s : State) : Host.Outcome State Fault Refusal :=
  let k := o.k1 + 1
  let off := 64 * o.off
  let m := liveLen ((List.range k).map (fun r => leNat (s.bufBytes o.buf (off + 2 * r) 2)))
  let occ := Nat.max (ceilDiv m 8) 1
  let rs := [(slotBytes * o.slot, (o.nr1 + 1) * 128 * (elemBits (rkType o.wt) / 8))]
  let old := if o.clr = 1 then [] else accRanges o.acc o.row 1 128
  .next (s.mxOrder c
    { unit := [(keyArray, occ)], lat := occ + 8, accs := [o.acc], mma := some o.acc, rd := rs,
      also := decide (s.ctile.ready keyAtt ≤ s.now) && !s.pending 4 o.buf off (2 * k) }
    (fun a =>
      match a.ctile.rangesChk rs <|> firstTrap (fun r => a.chkRead 4 o.buf (off + 2 * r) 2) (List.range k) <|> a.ctile.opPoison rs <|>
          a.ctile.accsPoison old with
      | some t => .error t
      | none =>
        match (List.range k).mapM (fun r => a.readBuf 4 o.buf (off + 2 * r) 2) with
        | .error t => .error t
        | .ok bs =>
          let idx := (bs.map leNat).take m
          match a.armOne o.sw with
          | none => .ok (a.statusWrite o.sw 9, {})
          | some (b, ph) =>
            let b1 := ((b.correctOp rs).correctAccs old).correct 3 ((a.decl o.buf).addr off) (2 * k)
            let code := if idx.any (fun i => o.nr1 < i) then 9 else 0
            let t := b1.ctile
            let cells := (List.range 128).map (fun j => (accKey o.acc (128 * o.row + j),
              rkElem t o j k (if o.clr = 1 then 0 else t.accEl o.acc (128 * o.row + j)) idx.zipIdx))
            .ok (b1.setCtile { t.unmark 6 (accRanges o.acc o.row 1 128) with acc := cells.foldl (fun x e => Store.put 0 e.1 e.2 x) t.acc },
              { accW := 2 ^ o.acc, done := some (o.sw, code, ph) })))

/-! ## Format and nest set-up (R261, R262) -/

/-- A nest register's value has no non-zero reserved bit, no stride that is not a multiple of 64, and no FSEL = 6. -/
def nestOk (reg v : Nat) : Bool :=
  if reg = 6 then bits v 11 53 == 0 && bits v 4 1 == 0 && bits v 8 3 != 6
  else bits v 40 4 == 0 && bits v 0 6 == 0 && bits v 20 6 == 0

/-- The fetch checks of the engine-format words in SQ (R117, R18). -/
def State.fmtPre (s : State) (c : Ctl) : Option Trap :=
  match s.sqOnly with
  | some t => some t
  | none => if !s.img.mxn || !c.legal 0 || c.gap != 0 then some ill else none

/-- R387: in a region with the reduced flag, a 4-bit block type or a sparse pattern is illegal in an entry. -/
def State.fmtBarred (s : State) (e : Nat) : Bool :=
  s.region.reduced &&
  (entA e == 6 || entA e == 7 || entB e == 6 || entB e == 7 || entSpn e != 0)

def execFmtset (c : Ctl) (f rs : Nat) (s : State) : Host.Outcome State Fault Refusal :=
  .next (s.scalarWord { pre := s.fmtPre c, reads := [rs], ctl := c } (fun a =>
    let v := bits (a.rdG rs).toNat 0 32
    if entLegal v && !a.fmtBarred v then .ok (a.atEnd (.fmt f v), .fall) else .error ill))
def execFmtsetMx (c : Ctl) (f value : Nat) (s : State) : Host.Outcome State Fault Refusal :=
  .next (s.mxOrder c { lat := 1 } (fun a => if entLegal value && !a.fmtBarred value then .ok (a.atEnd (.fmt f value), {}) else .error ill))
def execNestcfg (c : Ctl) (reg rs : Nat) (s : State) : Host.Outcome State Fault Refusal :=
  .next (s.scalarWord { pre := s.fmtPre c, reads := [rs], ctl := c } (fun a =>
    let v := (a.rdG rs).toNat
    if nestOk reg v then .ok (a.atEnd (.nest reg v), .fall) else .error ill))
def execNestcfgMx (c : Ctl) (reg value : Nat) (s : State) : Host.Outcome State Fault Refusal :=
  .next (s.mxOrder c { lat := 1 } (fun a => if nestOk reg value then .ok (a.atEnd (.nest reg value), {}) else .error ill))

/-! ## Slots (R264, R265) -/

def slotTrap (n : Nat) : Trap := { cause := .slot, opd1 := n }

def execOclaim (c : Ctl) (slot : Nat) (s : State) : Host.Outcome State Fault Refusal :=
  .next (s.mxOrder c { lat := 1 } (fun a =>
    let t := a.ctile
    if bits t.claim slot 1 = 1 then .error (slotTrap slot)
    else .ok (a.setCtile { t.unmark 5 [(slotBytes * slot, slotBytes)] with
        claim := t.claim + 2 ^ slot, opmem := Store.delRange (slotBytes * slot) (slotBytes * (slot + 1)) t.opmem }, {})))

def execOrelease (c : Ctl) (slot : Nat) (s : State) : Host.Outcome State Fault Refusal :=
  .next (s.mxOrder c { lat := 1, rel := some slot } (fun a =>
    let t := a.ctile
    if bits t.claim slot 1 = 0 || bits t.filling slot 1 = 1 then .error (slotTrap slot)
    else .ok (a.setCtile { t with claim := t.claim - 2 ^ slot }, {})))

/-- The bytes that the slot-path pattern makes of `n` source bytes (R265): none when it cannot apply. -/
def bfxOut (p : BitVec 576) (ty n : Nat) : Option Nat :=
  if bfxPeriod p = 0 ∨ 8 * n % bfxPeriod p ≠ 0 then none else some (8 * n / bfxPeriod p * bfxNfld p * elemBits ty / 8)

/-- The extracted elements, packed in order into bytes. -/
def bfxPack (p : BitVec 576) (ty : Nat) (src : List Byte) : List Byte :=
  let n := 8 * src.length / bfxPeriod p * bfxNfld p
  let stream := leNat src
  leBytes (n * elemBits ty / 8) (packLanes (elemBits ty) ((List.range n).map (bfxElem p (elemBits ty) stream)))

/-- Write bytes of operand memory. -/
def Tile.wrOp (t : Tile) (a : Nat) (data : List Byte) : Tile :=
  { t with opmem := Store.putL 0 t.opmem a data, ecc := t.ecc.filter (fun e => !(eccKey 5 (a + 7) ≤ e.1 && e.1 < eccKey 5 (a + data.length))) }

def execOload (c : Ctl) (slot bfx doff nb1 buf off : Nat) (s : State) : Host.Outcome State Fault Refusal :=
  let nb := 64 * (nb1 + 1)
  let dst := slotBytes * slot + 64 * doff
  let p := s.ctile.bfxM
  let ty := s.ctile.slotTyM
  let n' := if bfx = 1 then (bfxOut p ty nb).getD 0 else nb
  let occ := ceilDiv nb 256
  .next (s.mxOrder c
    { unit := [(keyMPort, occ)], lat := occ + 3, wr := [(dst, n')], also := !s.pending 4 buf (64 * off) nb }
    (fun a =>
      if bfx == 1 && (bfxOut p ty nb).isNone then .error ill
      else match a.ctile.rangesChk [(dst, n')] with
        | some t => .error t
        | none =>
          match a.readBufs 4 buf ((List.range (nb / 64)).map (fun k => (64 * off + 64 * k, 64))) with
          | .error t => .error t
          | .ok bs =>
            let b := a.correct 3 ((a.decl buf).addr (64 * off)) nb
            .ok (b.setCtile (b.ctile.wrOp dst (if bfx = 1 then bfxPack p ty bs.flatten else bs.flatten)), {})))

/-! ## Accumulators (R266 to R269) -/

def execAclr (c : Ctl) (amask : Nat) (s : State) : Host.Outcome State Fault Refusal :=
  let as := (List.range 4).filter (fun n => bits amask n 1 == 1)
  .next (s.mxOrder c { unit := [(keyArray, 1)], lat := 2, accs := as } (fun a =>
    .ok (a.setCtile (as.foldl Tile.clearAcc a.ctile), { accW := amask })))

/-- The shape of AMOV: `chk` its own checks, `f` the new contents; `ip` says that it runs on the integer or modular path (R317). -/
def State.amovOrder (s : State) (c : Ctl) (ad asrc : Nat) (ip : Bool) (chk : State → Option Trap) (f : State → State) :
    Host.Outcome State Fault Refusal :=
  .next (s.mxOrder c { unit := [(keyArray, 16)], lat := 18, accs := [ad, asrc] } (fun a =>
    match chk a <|> a.ctile.accPoison asrc with
    | some t => .error t
    | none => .ok (f (a.correctAcc asrc), { accW := 2 ^ ad, intPath := ip })))

def execAmov (c : Ctl) (ad asrc : Nat) (s : State) : Host.Outcome State Fault Refusal :=
  s.amovOrder c ad asrc false (fun a => a.ctile.shadowRead asrc) (fun a => a.setCtile (a.ctile.copyAcc ad asrc))

/-- The sum of two elements under a class (R267). -/
def waAdd (cls q : Nat) (x y : Wa) : Wa :=
  match cls with
  | 0 => roundWa (exactSum [waFloat x, waFloat y])
  | 1 => waInt (waIntOf x + waIntOf y)
  | _ => BitVec.ofNat 72 ((bits x.toNat 0 62 % q + bits y.toNat 0 62 % q) % q)

def execAmovAdd (c : Ctl) (ad asrc cls q : Nat) (s : State) : Host.Outcome State Fault Refusal :=
  s.amovOrder c ad asrc (cls != 0)
    (fun a => (if cls == 2 && !(Store.get ({} : QReg) q a.ctile.qM).valid then some ill else none) <|> a.ctile.shadowRead asrc <|> a.ctile.accPoison ad)
    (fun a => let b := a.correctAcc ad; b.setCtile (b.ctile.putAcc ad 128 128 (fun i j =>
      waAdd cls (Store.get ({} : QReg) q a.ctile.qM).q (a.ctile.accEl ad (128 * i + j)) (a.ctile.accEl asrc (128 * i + j)))))

/-- AMOV.merge: a COMMITTED shadow moves to its partner and becomes EMPTY. Of a PENDING shadow that AD is not the partner of, SHADOW is
named. Notes: log entry 30. -/
def execAmovMerge (c : Ctl) (ad asrc : Nat) (s : State) : Host.Outcome State Fault Refusal :=
  s.amovOrder c ad asrc false
    (fun a => match (a.ctile.shadow asrc).st with
      | .pending => some { cause := .shadow }
      | .empty => some ill
      | .committed => if (a.ctile.shadow asrc).partner = ad then none else some ill)
    (fun a => (a.setCtile (a.ctile.copyAcc ad asrc)).atEnd (.shadow asrc {}))

/-- The bytes of one row of an output type: 128 elements. -/
def rowBytes (ty : Nat) : Nat := if isBlock ty then 4 * blockBytes ty else if ty = 0x13 then 1152 else 128 * (elemBits ty / 8)

/-- The bytes of row `i` of an accumulator under an entry (R268); `rnd j` is the generator's output in SR mode. An output to .m64 is
bits 63:0, those above the residue too. Notes: log entry 30. -/
def aoutRow (t : Tile) (e acc i : Nat) (rnd : Nat → Nat) : List Byte :=
  let ty := entOtype e
  let cls := rowClass (rowOf (entA e))
  let el (j : Nat) : Wa := t.accEl acc (128 * i + j)
  if ty = 0x13 then (List.range 128).flatMap (fun j => leBytes 9 (el j).toNat)
  else if isBlock ty then
    (List.range 4).flatMap (fun b => (encodeBlock ty ((List.range 32).map (fun j => waVal cls (el (32 * b + j))))).map (BitVec.ofNat 8))
  else if ty = 0x12 then (List.range 128).flatMap (fun j => leBytes 8 (bits (el j).toNat 0 64))
  else (List.range 128).flatMap (fun j =>
    leBytes (elemBits ty / 8) (roundTo ty (waVal cls (el j)) (entRmode e) (entNosat e) (rnd (128 * i + j))))

/-- The checks of a write of `n` bytes by 64-byte elements (R268). -/
def State.chkOut (s : State) (buf off n : Nat) : Option Trap := firstTrap (fun k => s.chkWrite 4 buf (off + 64 * k) 64) (List.range (ceilDiv n 64))

/-- Bytes of a buffer that are written, with the buffer's change of state, at the end of a later cycle. -/
def State.laterWrite (s : State) (buf off due : Nat) (data : List Byte) : State :=
  s.setCtile { s.ctile with effs := s.ctile.effs ++ [(due, .sram s.cur.eng ((s.decl buf).addr off) data), (due, .bufFull buf)] }

def execAout (c : Ctl) (acc f nrows1 rbase buf off : Nat) (s : State) : Host.Outcome State Fault Refusal :=
  let e := s.ctile.fent f
  let n := (nrows1 + 1) * rowBytes (entOtype e)
  let occ := ceilDiv n 256
  .next (s.mxOrder c { unit := [(keyMPort, occ)], lat := occ + 6, accs := [acc] } (fun a =>
    let t := a.ctile
    if 128 < rbase + nrows1 + 1 || !entValid e then .error ill
    else match t.shadowRead acc <|> a.chkOut buf (64 * off) n <|> t.accsPoison (accRanges acc rbase (nrows1 + 1) 128) with
      | some t => .error t
      | none =>
        let rnd (l : Nat) : Nat := if entRmode e = 4 then srRnd t.seedM t.fstepM l else 0
        let data := (List.range (nrows1 + 1)).flatMap (fun r => aoutRow t e acc (rbase + r) rnd)
        .ok ((a.correctAccs (accRanges acc rbase (nrows1 + 1) 128)).laterWrite buf (64 * off) (a.now + occ + 5) data, {})))

/-- The saved form of an accumulator (R89). -/
def Tile.savedAcc (t : Tile) (acc : Nat) : List Byte := (List.range 16384).flatMap (fun i => leBytes 9 (t.accEl acc i).toNat)
/-- An accumulator from its saved form. -/
def Tile.loadAcc (t : Tile) (acc : Nat) (data : List Byte) : Tile :=
  let cells := (List.range 16384).map (fun i => (accKey acc i, (BitVec.ofNat 72 (leNat ((data.drop (9 * i)).take 9)) : Wa)))
  let u := t.clearAcc acc
  { u with acc := cells.foldl (fun m e => Store.put 0 e.1 e.2 m) u.acc }

def execAstow (c : Ctl) (acc buf off : Nat) (s : State) : Host.Outcome State Fault Refusal :=
  .next (s.mxOrder c { unit := [(keyMPort, 576)], lat := 578, accs := [acc] } (fun a =>
    match a.ctile.shadowRead acc <|> a.chkOut buf (64 * off) 147456 <|> a.ctile.accPoison acc with
    | some t => .error t
    | none => .ok ((a.correctAcc acc).laterWrite buf (64 * off) (a.now + 577) (a.ctile.savedAcc acc), {})))

def execArestore (c : Ctl) (acc buf off : Nat) (s : State) : Host.Outcome State Fault Refusal :=
  .next (s.mxOrder c
    { unit := [(keyMPort, 576)], lat := 578, accs := [acc], also := !s.pending 4 buf (64 * off) 147456 } (fun a =>
    match a.readBufs 4 buf ((List.range 2304).map (fun k => (64 * off + 64 * k, 64))) with
    | .error t => .error t
    | .ok bs =>
      let b := a.correct 3 ((a.decl buf).addr (64 * off)) 147456
      .ok (b.setCtile (b.ctile.loadAcc acc bs.flatten), { accW := 2 ^ acc })))

/-! ## The loop nest (R262, R272 to R274) -/

def lvTrip (v : Nat) : Nat := bits v 48 16
def lvClr (v : Nat) : Bool := bits v 47 1 == 1
def lvCstr (v : Nat) : Int := sext 3 (bits v 44 3)
def lvBstr (v : Nat) : Int := sext 20 (bits v 20 20)
def lvAstr (v : Nat) : Int := sext 20 (bits v 0 20)

/-- The counter tuples of levels `lv` (level 0 first), the innermost counter fastest. -/
def tuples : List Nat → List (List Nat)
  | [] => [[]]
  | trip :: r => (tuples r).flatMap (fun o => (List.range trip).map (fun i => i :: o))

/-- One iteration: accumulator, operand addresses, entry, CLR. -/
structure Iter where
  n : Int
  a : Nat
  b : Nat
  f : Nat
  clr : Nat
deriving DecidableEq, Repr

def dot (is : List Nat) (ss : List Int) : Int := ((is.zip ss).map (fun p => (p.1 : Int) * p.2)).sum

/-- Some level clears, and every counter up to it is zero. -/
def nestClr (lv : List Nat) (is : List Nat) : Bool :=
  (List.range 6).any (fun l => lvClr (lv.getD l 0) && (is.take (l + 1)).all (· == 0))

/-- The iterations of a nest with level registers `lv` and header `hd`. -/
def nestIters (lv : List Nat) (hd acc a b : Nat) : List Iter :=
  (tuples (lv.map lvTrip)).map (fun is =>
    { n := acc + dot is (lv.map lvCstr), a := field 19 (a + dot is (lv.map lvAstr)), b := field 19 (b + dot is (lv.map lvBstr)),
      f := bits hd 0 4 + (if bits hd 8 3 = 7 then 0 else is.getD (bits hd 8 3) 0), clr := if nestClr lv is then 1 else 0 })

/-- The entry of an iteration. -/
def Tile.iterEnt (t : Tile) (i : Iter) : Nat := t.fent i.f
def Tile.iterOcc (t : Tile) (shp : Nat) (i : Iter) : Nat :=
  let col := rowCol (rowOf (entA (t.iterEnt i)))
  shpM shp * shpN shp * shpK shp col / rate col

/-- The checks of one iteration: ILL before SLOT (R273). `col` is the operand class, by width (Table 5.8), of the first iteration's
entry. -/
def Tile.iterChk (t : Tile) (shp col q : Nat) (i : Iter) : Option Trap :=
  let e := t.iterEnt i
  let r := rowOf (entA e)
  if i.n < 0 || 3 < i.n || 15 < i.f || !entValid e || entSpn e != 0 || rowCol r != col ||
      (rowClass r == 2 && !(Store.get ({} : QReg) q t.qM).valid) then some ill
  else t.rangesChk (denseRanges e shp i.a i.b)

/-- The accumulator ranges that a nest reads: those that an iteration accumulates into before it, or CLRMASK, has cleared them. -/
def nestReads (shp clrmask : Nat) (its : List Iter) : List (Nat × Nat) :=
  (List.range 4).flatMap (fun (n : Nat) =>
    match its.find? (fun i => i.n == (n : Int)) with
    | some i => if i.clr = 1 ∨ bits clrmask n 1 = 1 then [] else accRanges n 0 (shpM shp) (shpN shp)
    | none => [])

/-- NESTGO (R272 to R274). No order chains onto it (R251). Notes: log entry 30. -/
def execNestgo (c : Ctl) (shp acc clrmask sw a b : Nat) (s : State) : Host.Outcome State Fault Refusal :=
  let t := s.ctile
  let lv := (List.range 6).map (fun l => (Store.get 0 l t.nlv).toNat)
  let hd := (Store.get 0 6 t.nlv).toNat
  let its := nestIters lv hd acc (64 * a) (64 * b)
  let q := bits hd 5 3
  let first := match its with
    | [] => 0
    | i :: _ => rowOf (entA (t.iterEnt i))
  let occ := if its.isEmpty then 4 else 4 + (its.map (t.iterOcc shp)).sum
  let lat := if its.isEmpty then 4 else occ + (if its.any (fun i => rowClass (rowOf (entA (t.iterEnt i))) == 2) then 14 else 10)
  let cl := (List.range 4).filter (fun n => bits clrmask n 1 == 1)
  let rd := its.flatMap (fun i => denseRanges (t.iterEnt i) shp i.a i.b)
  .next (s.mxOrder c
    { unit := [(keyArray, occ)], lat := lat, accs := its.map (fun i => i.n.toNat) ++ cl,
      rd := rd } (fun x =>
    match its.findSome? (t.iterChk shp (rowCol first) q) <|> t.opPoison rd <|> t.accsPoison (nestReads shp clrmask its) with
    | some tr => .error tr
    | none =>
      let z := (x.correctOp rd).correctAccs (nestReads shp clrmask its)
      match z.armOne sw with
      | none => .ok (z.statusWrite sw 9, {})
      | some (y, ph) =>
        let u := { y.ctile with nlvA := y.ctile.nlv }
        let u1 := cl.foldl Tile.clearAcc u
        let u2 := its.foldl (fun v i => v.macDense i.n.toNat (t.iterEnt i) (Store.get ({} : QReg) q t.qM).q shp i.clr i.a i.b) u1
        .ok (y.setCtile u2,
          { accW := (its.foldl (fun m i => m ||| 2 ^ i.n.toNat) clrmask), done := some (sw, 0, ph),
            intPath := its.any (fun i => 5 ≤ rowOf (entA (t.iterEnt i))) })))

/-! ## MXWAIT, RKLOAD (R270, R271) -/

def execMxwait (c : Ctl) (s : State) : Host.Outcome State Fault Refusal :=
  .next (s.mxOrder c { lat := 1, met := s.ctile.quietOf (2 ^ 4) } (fun a => .ok (a, {})))

/-- The 256 FP16 values of a table. -/
def State.rkTable (s : State) (buf off : Nat) : Except Trap (Store (BitVec 16)) :=
  match s.readBufs 4 buf ((List.range 256).map (fun r => (off + 2 * r, 2))) with
  | .error t => .error t
  | .ok bs => .ok (Store.putL 0 [] 0 (bs.map (fun b => BitVec.ofNat 16 (leNat b))))

def execRkloadAtt (c : Ctl) (buf off : Nat) (s : State) : Host.Outcome State Fault Refusal :=
  .next (s.mxOrder c { unit := [(keyMPort, 2)], lat := 4, also := !s.pending 4 buf (64 * off) 512 } (fun a =>
    match a.rkTable buf (64 * off) with
    | .error t => .error t
    | .ok m =>
      let b := a.correct 3 ((a.decl buf).addr (64 * off)) 512
      .ok (b.setCtile ({ b.ctile with att := m }.busy keyAtt (b.now + 4)), {})))

def execRkloadRct (c : Ctl) (buf off : Nat) (s : State) : Host.Outcome State Fault Refusal :=
  .next (s.mxOrder c { unit := [(keyMPort, 2)], lat := 4, also := !s.pending 4 buf (64 * off) 512 } (fun a =>
    match a.rkTable buf (64 * off) with
    | .error t => .error t
    | .ok m =>
      let b := a.correct 3 ((a.decl buf).addr (64 * off)) 512
      .ok (b.setCtile { b.ctile with rct := m }, { effs := [.vxRct m] })))

end Sys2Proof.Machine
end

