-- ==== Sys2Proof/Machine/Memory.lean ====
section
/-! DEFINITION. Global memory: Translate, the walks that serve its misses, and reads and writes of physical memory with ECC, poison, ownership, fabric windows and copy-on-write (R61, R62, R314, R319, R334, R355, R378). -/
namespace Sys2Proof.Machine

/-! ## Translate (R61, R62) -/

/-- What Translate answers: a walk is needed, a status-word code, or a physical address. -/
inductive Xl where
  | miss
  | code (c : Nat)
  | pa (a : Nat)
deriving DecidableEq, Repr

/-- The kinds of access. -/
def kRead : Nat := 0
def kWrite : Nat := 1
def kAtomic : Nat := 2

def pteValid (p : Word) : Bool := bits p.toNat 63 1 == 1
def pteSize (p : Word) : Nat := bits p.toNat 61 2
def pteAtom (p : Word) : Nat := bits p.toNat 59 2
def pteRd (p : Word) : Bool := bits p.toNat 58 1 == 1
def pteWr (p : Word) : Bool := bits p.toNat 57 1 == 1
/-- The physical base, bits below the page size taken as zero. -/
def pteBase (p : Word) : Nat := bits p.toNat 12 40 * 4096 / 2 ^ pageBits (pteSize p) * 2 ^ pageBits (pteSize p)

/-- The PTE permits the kind (Table 18.12): the atomic kind needs both. -/
def ptePermits (p : Word) (kind : Nat) : Bool :=
  if kind = kRead then pteRd p else if kind = kWrite then pteWr p else pteRd p && pteWr p

/-- A physical address in a fabric window (R378). -/
def isWindow (pa : Nat) : Bool := bits pa 51 1 == 1
/-- FWIN of the window that an address names. -/
def State.window (s : State) (pa : Nat) : Nat := Store.get 0 (bits pa 40 11) s.fwin
/-- The package that the window of an address names: none where the window is not mapped. -/
def State.winPkg (s : State) (pa : Nat) : Option Nat := if bits (s.window pa) 63 1 = 1 then some (bits (s.window pa) 0 13) else none

/-- An address in the HBM of another package: the package above bit 51, the offset in that HBM in bits 39:0. -/
def farAddr (pkg pa : Nat) : Nat := pkg * 2 ^ 52 + 2 ^ 51 + pa % 2 ^ 40
/-- The package of such an address. -/
def farPkg (a : Nat) : Nat := a / 2 ^ 52

/-- Where an access goes (R61, R355, R378): HBM of this package, also through a window that names it; a far address; or nowhere. -/
def State.backing (s : State) (win : Option Nat) (pa : Nat) : Option Nat :=
  if isWindow pa then
    match win with
    | none => none
    | some p => if p = s.pkgid then (if pa % 2 ^ 40 < Config.potBase then some (pa % 2 ^ 40) else none) else some (farAddr p pa)
  else if pa < Config.potBase then some pa else none

/-- The first physical byte of the page of a held translation, in the HBM of this package. -/
def State.homePage (s : State) (e : TlbE) : Option Nat := (s.backing e.win (pteBase e.pte)).bind (fun a => if isWindow a then none else some a)

/-- The POT entry of a page. -/
def State.potOf (s : State) (page : Nat) : PotE := Store.get {} page s.pot

/-- Translate of one byte address in a context, from the translation that the map units hold. -/
def State.translate (s : State) (ctx va kind : Nat) : Xl :=
  if 2 ^ 56 ≤ va then .code 2
  else match s.tlb.find? (fun e => e.ctx == ctx && e.covers va) with
    | none => .miss
    | some e =>
      let p := e.pte
      if !e.ok || !pteValid p || pteSize p == 3 || pteAtom p == 3 || !ptePermits p kind then .code 2
      else if kind == kAtomic && pteAtom p == 0 then .code 2
      else
        match s.backing e.win (pteBase p + va % 2 ^ pageBits (pteSize p)) with
        | none => .code 2
        | some a => if isWindow a || s.potOf (a / 4096) == { st := .assigned, world := s.ctxWorld ctx } then .pa a else .code 3

/-- A translation that failed is used up by the access that it fails: a later access walks again. -/
def State.dropFailed (s : State) (ctx va : Nat) : State :=
  { s with tlb := s.tlb.filter (fun e => e.ok || e.ctx != ctx || !e.covers va) }

/-- The 4 KiB pieces of a byte range. -/
def pieces (va n : Nat) : List (Nat × Nat) :=
  (List.range ((va % 4096 + n + 4095) / 4096)).map (fun i =>
    let lo := if i = 0 then va else (va / 4096 + i) * 4096
    (lo, Nat.min (va + n) ((va / 4096 + i + 1) * 4096) - lo))

/-- What Translate answers for a range: a miss and its address, a code and its address, or the physical pieces. -/
inductive Xr where
  | miss (va : Nat)
  | code (c va : Nat)
  | ok (ps : List (Nat × Nat))
deriving DecidableEq, Repr

def State.translatePieces (s : State) (ctx kind : Nat) : List (Nat × Nat) → Xr
  | [] => .ok []
  | p :: r =>
    match s.translate ctx p.1 kind with
    | .miss => .miss p.1
    | .code c => .code c p.1
    | .pa a =>
      match s.translatePieces ctx kind r with
      | .ok ps => .ok ((a, p.2) :: ps)
      | x => x

/-- Translate of every page of a byte range, in address order. -/
def State.translateRange (s : State) (ctx va n kind : Nat) : Xr := s.translatePieces ctx kind (pieces va n)

/-! ## Walks (R314) -/

/-- The walker core of a die takes a miss, if it is free and not failed. -/
def State.startWalk (s : State) (die ctx va kind : Nat) : State :=
  let w := s.walker die
  if w.walking || w.failed then s
  else
    let r := s.slot ctx
    let f := s.free
    let s1 := if ctx < 1344 then s else f.2
    let root := if ctx < 1344 then BitVec.ofNat 64 (r.root * 4096) else f.1
    let own := if ctx < 1344 then some r.root else none
    let fmt := if ctx < 1344 then r.fmt else 0
    s1.setWalker die { w with
      g := Store.putL 0 [] 1 [BitVec.ofNat 64 va, BitVec.ofNat 64 kind, root, BitVec.ofNat 64 ctx],
      step := Store.get 0 fmt s.wentry, loops := [], inTrap := false, halted := false,
      walking := true, walkSlot := ctx, walkVa := va, walkKind := kind, walkRoot := own, walkAt := s.tb, wresp := none, die := die }

/-- A walk ends: its PTE, or a failure, becomes the translation of the page, with what FWIN says now (R378), also where a shoot-down of the
page has completed since the walk began. Notes: log entry 21. -/
def State.endWalk (s : State) (die : Nat) : State :=
  let w := s.walker die
  let ok := match w.wresp with
    | some p => pteSize p != 3
    | none => false
  let p := w.wresp.getD 0
  let e : TlbE := { ctx := w.walkSlot, root := w.walkRoot, va := w.walkVa, size := if ok then pteSize p else 0, pte := p, ok := ok && pteValid p,
                    win := if isWindow (pteBase p) then s.winPkg (pteBase p) else none }
  let s1 := s.setWalker die { w with walking := false, halted := true }
  { s1 with tlb := e :: s1.tlb.filter (fun x => x.ctx != e.ctx || !x.covers e.va) }

/-- The walk has run for more than 100 µs. -/
def CCore.overdue (w : CCore) (tb : Nat) : Bool := decide (w.walkAt + 100000 < tb)

/-- A walk is over (R314): one that has run for too long gives no PTE, and its watchdog tells the control cores. Notes: log entry 23. -/
def State.stopWalk (s : State) (die : Nat) : State :=
  let w := s.walker die
  if w.overdue s.tb then ((s.setWalker die { w with wresp := none }).endWalk die).raiseCC ipWalk else s.endWalk die

/-! ## Physical memory (R3, R303, R319, R334) -/

/-- The lines of a physical range that stand in state `v`: 1 needs a correction, 2 poisoned, 3 cannot be corrected and has not been
read since. -/
def State.linesIn (s : State) (pa n v : Nat) : List Nat :=
  (s.poison.filter (fun e => pa / 64 ≤ e.1 && e.1 ≤ (pa + n - 1) / 64 && n != 0 && e.2 == v)).map (·.1)

/-- The bytes of a physical range. -/
def State.rdPhys (s : State) (pa n : Nat) : List Byte := Store.getN 0 s.mem pa n

/-- A read meets an error of a line: it is corrected (1), or the line is found to be lost and is poisoned (3); it makes a record. -/
def State.meetLine (s : State) (l : Nat) : State :=
  let v := Store.get 0 l s.poison
  ({ s with poison := Store.put 0 l (if v = 1 then 0 else 2) s.poison } : State).errorRecord 7 (v != 1) (s.potOf (l / 64)).world (64 * l)

/-- R319: a read corrects the lines that need it, writes them back, and makes an instance CORRECTED; a line that cannot be corrected
is poisoned. Every read of HBM begins with it. -/
def State.fixLines (s : State) (slot : Option Nat) (pa n : Nat) : State :=
  let ls := s.linesIn pa n 1
  let s1 := (ls ++ s.linesIn pa n 3).foldl State.meetLine s
  if ls.isEmpty then s1
  else
    match slot with
    | some k => if k < 1344 then s1.setSlot k { s1.slot k with corrected := true } else s1
    | none => s1

/-- Write bytes of physical memory: a whole line loses its poison; the lines at the offsets `bad` are written poisoned (R318,
R319). -/
def State.wrPhys (s : State) (pa : Nat) (data : List Byte) (bad : List Nat) : State :=
  let n := data.length
  let lines := (List.range ((pa % 64 + n + 63) / 64)).map (fun i => pa / 64 + i)
  let mark (m : Store Nat) (l : Nat) : Store Nat :=
    if bad.any (fun o => (pa + o) / 64 == l) then Store.put 0 l 2 m
    else if pa ≤ 64 * l && 64 * l + 64 ≤ pa + n then Store.put 0 l 0 m else m
  { s with mem := Store.putL 0 s.mem pa data, poison := lines.foldl mark s.poison }

/-! ## The descriptor of an outbound bounce channel (R367) -/

def Bounce.en (x : Bounce) : Bool := bits x.ctl 63 1 == 1
def Bounce.out (x : Bounce) : Bool := bits x.ctl 62 1 == 1

/-- A write of the home SYE sets bytes 0 to 7 of the descriptor to DEVCNT + 1: the engine is asked for the range that it names. -/
def Bounce.noted (m : List Host.Cell) (pa : Nat) (data : List Byte) (x : Bounce) : Bounce :=
  match x.desc with
  | none => x
  | some d =>
    if x.en && x.out && decide (pa ≤ d) && decide (d + 8 ≤ pa + data.length) && leNat (Store.getN 0 m d 8) == (x.cnt + 1) % 2 ^ 64 then
      { x with asked := some (leNat (Store.getN 0 m (d + 8) 4), leNat (Store.getN 0 m (d + 12) 4)) }
    else x

/-- A write by way of the home SYE, as every write of an engine and every SYE operation on a home-SYE page is (R61, R71). -/
def State.syeWrite (s : State) (pa : Nat) (data : List Byte) (bad : List Nat) : State :=
  let s1 := s.wrPhys pa data bad
  { s1 with bounces := s1.bounces.map (fun e => (e.1, e.2.noted s1.mem pa data)) }

/-- A write waits for the copy of SNAPPED pages (R334). -/
def State.holdPages (s : State) (ps : List Nat) : State := { s with heldPages := (s.heldPages ++ ps).eraseDups }

/-- A physical page is SNAPPED by a running snapshot or a completed rollback (R329, R339). -/
def State.snapped (s : State) (page : Nat) : Bool := s.snaps.any (fun e => e.2.pages.contains page)

/-- What a global read or write comes to: it must wait, a code, or done with the bytes read. -/
inductive Gm where
  | wait
  | code (c : Nat)
  | done (bs : List Byte)
deriving DecidableEq, Repr

/-- The outcome of an access at another package, which this package's state does not decide (R61, R378): a free choice of OK,
POISON (reads) or OWNER. -/
def State.remoteCode (s : State) (rd : Bool) : Nat × State :=
  let f := s.free
  (match bits f.1.toNat 0 2 with
   | 1 => if rd then 1 else 0
   | 2 => 3
   | _ => 0, f.2)

/-- Read the translated pieces of a range. -/
def State.readPieces (s : State) (ctx : Nat) : List (Nat × Nat) → State × Gm
  | [] => (s, .done [])
  | p :: r =>
    let here : State × Gm :=
      if isWindow p.1 then
        let c := s.remoteCode true
        if c.1 = 0 then (c.2, .done ((List.range p.2).map (Config.remoteByte s.tick))) else (c.2, .code c.1)
      else
        let s1 := s.fixLines (some ctx) p.1 p.2
        if (s1.linesIn p.1 p.2 2).isEmpty then (s1, .done (s1.rdPhys p.1 p.2)) else (s1, .code 1)
    match here.2 with
    | .done bs =>
      match here.1.readPieces ctx r with
      | (s2, .done cs) => (s2, .done (bs ++ cs))
      | x => x
    | _ => here

/-- A read of `n` bytes of global memory in a context; a miss starts a walk on a die's walker core. It returns what memory holds: what
another observer reads of a range that is bound, between BIND and the write-back, R59 leaves open. Notes: log entry 49. -/
def State.gread (s : State) (die ctx va n : Nat) : State × Gm :=
  match s.translateRange ctx va n kRead with
  | .miss a => (s.startWalk die ctx a kRead, .wait)
  | .code c a => (s.dropFailed ctx a, .code c)
  | .ok ps => s.readPieces ctx ps

/-- Write the translated pieces of a range; a piece in a window leaves the package as a message. -/
def State.writePieces (s : State) : List (Nat × Nat) → List Byte → List Nat → State × Nat
  | [], _, _ => (s, 0)
  | p :: r, data, bad =>
    let later := bad.filterMap (fun o => if p.2 ≤ o then some (o - p.2) else none)
    if isWindow p.1 then
      let c := s.remoteCode false
      let s1 : State := { c.2 with outbox := c.2.outbox ++ [.message (farPkg p.1) 0 (p.1 % 2 ^ 40) (data.take p.2)] }
      if c.1 = 0 then s1.writePieces r (data.drop p.2) later else (c.2, c.1)
    else (s.syeWrite p.1 (data.take p.2) (bad.filter (· < p.2))).writePieces r (data.drop p.2) later

/-- A write of global memory in a context. A SNAPPED page holds it until the copier has copied the page (R334). -/
def State.gwrite (s : State) (die ctx va : Nat) (data : List Byte) (bad : List Nat) : State × Gm :=
  match s.translateRange ctx va data.length kWrite with
  | .miss a => (s.startWalk die ctx a kWrite, .wait)
  | .code c a => (s.dropFailed ctx a, .code c)
  | .ok ps =>
    match (ps.filter (fun p => !isWindow p.1 && s.snapped (p.1 / 4096))).map (fun p => p.1 / 4096) with
    | [] =>
      let r := s.writePieces ps data bad
      (r.1, if r.2 = 0 then .done [] else .code r.2)
    | held => (s.holdPages held, .wait)

/-- A SyeOp (R71): `f` gives the new value and whether it is written. Answers the old value's bytes. -/
def State.syeOp (s : State) (die ctx va n : Nat) (f : Nat → Option Nat) : State × Gm :=
  match s.translate ctx va kAtomic with
  | .miss => (s.startWalk die ctx va kAtomic, .wait)
  | .code c => (s.dropFailed ctx va, .code c)
  | .pa a =>
    if isWindow a then
      let c := s.remoteCode true
      if c.1 = 0 then
        (c.2, .done ((List.range n).map (Config.remoteByte s.tick)))
      else (c.2, .code c.1)
    else
      let s1 := s.fixLines (some ctx) a n
      if !(s1.linesIn a n 2).isEmpty then (s1, .code 1)
      else
        let old := s1.rdPhys a n
        match f (leNat old) with
        | none => (s1, .done old)
        | some v => if s1.snapped (a / 4096) then (s1.holdPages [a / 4096], .wait) else (s1.syeWrite a (leBytes n v) [], .done old)

end Sys2Proof.Machine
end

