-- ==== Sys2Proof/Machine/Layout.lean ====
section
/-! DEFINITION. Layout records, the boxes that they describe, and the tile's record cache (R60, R214, R219 to R221). -/
namespace Sys2Proof.Machine

/-! ## The fields of a record (Table 12.3) -/

/-- `n` bytes of a record at an offset, as a number. -/
def recU (d : List Byte) (off n : Nat) : Nat := leNat ((d.drop off).take n)

/-- One dimension of a record. -/
structure Dim where
  size : Nat
  stride : Int
  extent : Nat
  org : Nat
deriving DecidableEq, Repr

def recDim (d : List Byte) (k : Nat) : Dim :=
  let a := recU d (0x10 + 16 * k) 8
  let b := recU d (0x18 + 16 * k) 8
  { size := bits a 48 16, stride := sext 48 (bits a 0 48), extent := bits b 32 32, org := bits b 0 32 }

def recNdim (d : List Byte) : Nat := bits (recU d 0 4) 8 3
def recType (d : List Byte) : Nat := bits (recU d 0 4) 11 5
def recBfx (d : List Byte) : Bool := bits (recU d 0 4) 16 1 == 1
def recBase (d : List Byte) : Nat := recU d 8 8
def recPat (d : List Byte) : BitVec 576 := BitVec.ofNat 576 (recU d 0x70 72)
def recDims (d : List Byte) : List Dim := (List.range (recNdim d)).map (recDim d)

/-- The 4-bit types, packed two elements per byte (R220). -/
def fourBit (ty : Nat) : Bool := elemBits ty == 4
/-- The bytes of an element, of a block for the block types, of a pair for the 4-bit types (R220). -/
def elemSize (ty : Nat) : Nat := if isBlock ty then blockBytes ty else if fourBit ty then 1 else elemBits ty / 8

/-- The byte count n of a record's box (R220). -/
def recBytes (d : List Byte) : Nat :=
  let k := (recDims d).foldl (fun a x => a * x.size) 1
  if fourBit (recType d) then k / 2 else k * elemSize (recType d)

/-- R221: the record is not malformed. With BFX = 0 its PATTERN is zero, as Table 12.3 has it. Notes: log entry 50. -/
def recOk (d : List Byte) : Bool :=
  let w := recU d 0 4
  let ty := recType d
  let d0 := recDim d 0
  bits w 0 8 == 1 && 1 ≤ recNdim d && recNdim d ≤ 6 && bits w 17 15 == 0 && recU d 4 4 == 0 && recU d 0xB8 8 == 0 &&
  ty ≤ 0x12 && recBase d < 2 ^ 56 &&
  (List.range 6).all (fun k =>
    if k < recNdim d then (recDim d k).size != 0 && (recDim d k).extent != 0
    else recU d (0x10 + 16 * k) 8 == 0 && recU d (0x18 + 16 * k) 8 == 0) &&
  (!fourBit ty || (d0.stride == 0 && d0.org % 2 == 0 && d0.size % 2 == 0)) &&
  (if recBfx d then bfxOk (recPat d) && slotType ty && bfxWidest (recPat d) ≤ elemBits ty else recPat d == 0) &&
  recBytes d ≤ 4128768

/-! ## The elements of a box (R220) -/

/-- The dimensions with the origin that a box index gives. -/
def boxDims (d : List Byte) (idx : Nat) : List Dim :=
  let k := recNdim d - 1
  (recDims d).mapIdx (fun i x => if i = k then { x with org := x.org + idx * x.size } else x)

/-- Every coordinate of the given dimensions, the first fastest: inside the tensor, and the sum of c_d · STRIDE[d]. -/
def boxOuter : List Dim → List (Bool × Int)
  | [] => [(true, 0)]
  | x :: r => (boxOuter r).flatMap (fun e => (List.range x.size).map (fun i =>
      (e.1 && decide (x.org + i < x.extent), e.2 + (x.org + i : Nat) * x.stride)))

/-- One unit of the box: an element, a block, or a byte of two 4-bit elements. The address of one outside is never formed. -/
def boxUnit (base s ix : Nat) (inside half : Bool) (off : Int) : Option Elem :=
  if inside then some { ix := ix, tile := ix * s, va := ((base + off) % 2 ^ 64).toNat, len := s, half := half } else none

/-- The units of a box in box order: those inside the tensor, none for each one outside. -/
def boxUnits (d : List Byte) (idx : Nat) : List (Option Elem) :=
  let s := elemSize (recType d)
  let cells : List (Bool × Bool × Int) :=
    match boxDims d idx with
    | [] => []
    | x :: r =>
      if fourBit (recType d) then
        (boxOuter r).flatMap (fun e => (List.range (x.size / 2)).map (fun i =>
          let c := x.org + 2 * i
          (e.1 && decide (c < x.extent), decide (x.extent ≤ c + 1), e.2 + (c / 2 : Nat))))
      else (boxOuter (x :: r)).map (fun e => (e.1, false, e.2))
  cells.mapIdx (fun ix c => boxUnit (recBase d) s ix c.1 (c.2.1 && c.1) c.2.2)

/-- Two units that follow each other in storage and in memory, inside one 64-byte line. -/
def Elem.joins (a b : Elem) : Bool :=
  !a.half && !b.half && a.tile + a.len == b.tile && a.va + a.len == b.va && a.va / 64 == (b.va + b.len - 1) / 64

/-- Adjacent units of one line become one: they translate alike, and ECC and poison go by lines. -/
def mergeUnits : List Elem → List Elem
  | [] => []
  | a :: r =>
    match mergeUnits r with
    | b :: q => if a.joins b then { a with len := a.len + b.len } :: q else a :: b :: q
    | [] => [a]

/-- The elements of a box inside the tensor, in box order. -/
def boxElems (d : List Byte) (idx : Nat) : List Elem := mergeUnits ((boxUnits d idx).filterMap id)

/-- The storage offsets, each of one unit, of the box's elements outside the tensor. -/
def boxOutside (d : List Byte) (idx : Nat) : List Nat :=
  (((boxUnits d idx).mapIdx (fun ix u => (ix, u))).filter (fun e => e.2.isNone)).map (fun e => e.1 * elemSize (recType d))

/-! ## The record cache (R60, R214) -/

/-- The address of record h of the current region. -/
def State.recVa (s : State) (h : Nat) : Nat := s.region.lrtab + 192 * h

def Tile.cached (t : Tile) (va : Nat) : Option (List Byte) := (t.cache.find? (fun e => e.2.valid && e.2.va == va)).map (fun e => e.2.data)
def Tile.cacheFree (t : Tile) : Option Nat := (List.range 64).find? (fun i => !(Store.get {} i t.cache).valid)
def Tile.uncache (t : Tile) (va : Nat) : Tile := { t with cache := t.cache.filter (fun e => !(e.2.valid && e.2.va == va)) }
def Tile.cacheAt (t : Tile) (i va : Nat) (data : List Byte) : Tile := { t with cache := Store.put {} i { valid := true, va := va, data := data } t.cache }

/-- The fetch of an engine, 1 CI or 2 CO. -/
def Tile.fetchOf (t : Tile) (e : Nat) : Option Fetch := if e = 1 then t.fetchCI else t.fetchCO
def Tile.setFetch (t : Tile) (e : Nat) (f : Option Fetch) : Tile := if e = 1 then { t with fetchCI := f } else { t with fetchCO := f }

/-- What an order finds of a record that it names: cached, none with a code, or still to be fetched. -/
inductive Rec where
  | missing (va : Nat)
  | failed (code : Nat)
  | cached (data : List Byte)
deriving DecidableEq, Repr

def Tile.recState (t : Tile) (e va : Nat) : Rec :=
  match t.cached va with
  | some d => .cached d
  | none =>
    match t.fetchOf e with
    | some f =>
      match f.done with
      | some c => if f.va = va then .failed c else if t.cacheFree.isNone then .failed 7 else .missing va
      | none => .missing va
    | none => if t.cacheFree.isNone then .failed 7 else .missing va

/-- The record that an order has still to wait for: the first missing one, unless one has failed already. -/
def toFetch (rs : List Rec) : Option Nat :=
  if rs.any (fun r => match r with
    | .failed _ => true
    | _ => false) then none
  else rs.findSome? (fun r => match r with
    | .missing va => some va
    | _ => none)

/-- The code with which an order without a record completes, if it has none. -/
def noRecord (rs : List Rec) : Option Nat :=
  rs.findSome? (fun r => match r with
    | .failed c => some c
    | .missing _ => some 7
    | .cached _ => none)

/-- The latched copy of a record. -/
def Rec.data : Rec → List Byte
  | .cached d => d
  | _ => []

end Sys2Proof.Machine
end

