-- ==== Sys2Proof/Machine/Movement.lean ====
section
/-! DEFINITION. The movement orders of CI and CO, as they issue: copies, buffer and binding control, acquire and release, atomics and QFENCE (R213 to R233, R241, R242, R246 to R248). What a command does after its issue stands in Commands.lean. -/
namespace Sys2Proof.Machine

/-! ## Issue of a movement order -/

/-- An order of CI or CO: the records it names, whether it is for elastic segments only (R217), the wait that it expresses. It is
ready only when its records are found, its engine holds fewer than 32 commands (R216), no earlier order bars it (R232) and the bytes
that `rdy` names are free (R259). The fetch of a missing record is a read of the order: it does not begin before the token that the
order pops is there and no earlier ACQ bars the engine (R67). Notes: log entry 33. -/
def State.moveOrder (s : State) (c : Ctl) (handles : List Nat) (elastic met : Bool)
    (body : State → List Rec → Except Trap (State × Issue)) (rdy : List Rec → Bool := fun _ => true) : State :=
  let e := s.cur.eng
  let t := s.ctile
  let barred := elastic && t.timed
  let rs := handles.map (fun h => t.recState e (s.recVa h))
  let miss := if barred then none else toFetch rs
  let open' := t.flights.all (fun f => f.eng != e || !f.blocks)
  let s0 := match miss with
    | some va => if (t.fetchOf e).any (fun f : Fetch => f.va == va && f.done.isNone) || !open' || !tokenOk c t e then s
      else s.setCtile (t.setFetch e (some { va := va, deadline := s.tb + s.region.timeout }))
    | none => s
  let free := miss.isNone && (t.cmds.filter (fun k => k.eng == e)).length < 32 && open' && rdy rs
  s0.engineOrder { ctl := c, free := free, met := met } (fun a =>
    if barred then .error ill
    else body (if handles.isEmpty then a else a.setCtile (a.ctile.setFetch e none)) rs)

/-- Arming a status word with `n` bytes: the state, and the phase seen (R63). -/
def State.arm (s : State) (sw n : Nat) : Option (State × Bool) := (swArm (s.rdSw sw) n).map (fun w => (s.wrSw sw w, phaseOf (s.rdSw sw)))
/-- `n` bytes of a command performed at its issue. -/
def State.perf (s : State) (sw : Nat) (ph : Bool) (n : Nat) : State := s.wrSw sw (swPerform (s.rdSw sw) ph n)

/-- A command enters flight; the order that is issuing retires under the next number (R216). -/
def State.addCmd (s : State) (c : Cmd) : State :=
  let t := s.ctile
  let k := { c with id := t.nextId, eng := s.cur.eng, order := s.cmdSeq, flight := some (t.nextId + 1),
                    deadline := s.tb + s.region.timeout, issue := s.now }
  { s.setCtile { t with cmds := t.cmds ++ [k], nextId := t.nextId + 1 } with cmdSeq := s.cmdSeq + 1 }

/-- An order that fails before it moves a byte: its code, and retirement in its issue cycle (R215). -/
def State.failNow (s : State) (sw code : Nat) (effs : List Eff) : State × Issue :=
  (s.statusWrite sw code, { retire := some s.now, effs := effs })

/-- R65: an earlier order of the issuing CO has still to write some of `n` bytes of a buffer, or to make the buffer FULL: an ATOM that
returns the old value, or a COLL. A later order of the queue that reads them waits. -/
def State.coPending (s : State) (b off n : Nat) : Bool :=
  let t := s.ctile
  let from' := (s.decl b).addr off
  let fills (x : Nat) : Bool := x == b && (t.buf b).st != .full
  s.cur.eng == 2 &&
  (t.cmds.any (fun c => (c.kind == .coll || (c.kind == .atom && c.ret)) &&
     (fills c.buf || overlap (c.base, if c.kind = .coll then c.size else 8) (from', n))) ||
   t.flights.any (fun f => f.eng == 2 && f.effs.any (fun x => match x with
     | .sram _ a data => overlap (a, data.length) (from', n)
     | .bufFull x => fills x
     | _ => false)))
/-- The same for a whole buffer. -/
def State.coPendingAll (s : State) (b : Nat) : Bool := s.coPending b 0 (s.decl b).bytes

/-- R53: a change of state or a write by the issuing engine needs a declared buffer of its write set. -/
def State.chkSet (s : State) (b off : Nat) : Option Trap :=
  if (s.decl b).valid && s.ctile.seg.canWrite s.cur.eng b then none else some (bufTrap .sets b off)
/-- R53: a read by the issuing engine: its read set, in an elastic segment its write set too. -/
def State.chkGet (s : State) (b off : Nat) : Option Trap :=
  if (s.decl b).valid && s.ctile.seg.canRead s.cur.eng b then none else some (bufTrap .sets b off)

def trapIf (c : Bool) (t : Trap) : Option Trap := if c then some t else none

/-! ## Copies in (R54, R56, R222, R223, R225, R242) -/

def landNone : Nat := 0xFFFFFF

/-- The checks of LAND: ILL, or the landing cycle of a timed order. -/
def State.landOf (s : State) (land : Nat) : Except Trap (Option Nat) :=
  let l := s.ctile.frmorg + land
  if s.ctile.timed then
    if land = landNone ∨ l % 2 ^ 48 < s.now % 2 ^ 48 + 2 then .error ill else .ok (some l)
  else if land = landNone then .ok none else .error ill

/-- Table 3.3, CPIN. -/
def Buf.cpinOk (b : Buf) (ovw : Bool) : Bool :=
  match b.st with
  | .empty => true
  | .filling => b.fill < 255
  | .full => ovw
  | .draining => false
/-- Table 3.3, CPOUT. -/
def Buf.cpoutOk (b : Buf) : Bool :=
  match b.st with
  | .full => true
  | .draining => b.drain < 255
  | _ => false
/-- Table 3.3, BSTATE, BIND and UNBIND. -/
def Buf.still (b : Buf) : Bool := b.st == .empty || b.st == .full

/-- When an order that copies in retires: timed, one cycle before it lands. -/
def landRetire (land : Option Nat) : Option Nat := land.map (· - 1)

/-- The bytes of units outside the tensor are written as zero (R220). -/
def zeroUnits (wr : Tile → Nat → List Byte → Tile) (d : List Byte) (outs : List Nat) (t : Tile) : Tile :=
  outs.foldl (fun u o => wr u o (List.replicate (elemSize (recType d)) 0)) t

/-- The granules of tile SRAM that byte ranges, as address and length, touch. -/
def granulesOf (rs : List (Nat × Nat)) : List Nat :=
  (rs.flatMap (fun r => if r.2 = 0 then [] else (List.range ((r.1 + r.2 - 1) / 4096 + 1 - r.1 / 4096)).map (fun i => r.1 / 4096 + i))).eraseDups

/-- A copy in starts, from its record or from the code that stands for it: `wr` writes the destination at an offset, `fail` is
what a failure as a whole does, `land` its landing, `fin` the change of state at its retirement. The bytes of units outside the tensor
are written now; `k.kind` tells whether granules are marked for them (R59). -/
def State.startCopy (s : State) (k : Cmd) (recs : List Rec) (idx : Nat) (land : Option Nat)
    (wr : Tile → Nat → List Byte → Tile) (fail : State → State) (fin : List Eff) : State × Issue :=
  let whole (code : Nat) : State × Issue :=
    ((fail s).statusWrite k.sw code, { retire := if land.isSome then landRetire land else some s.now, effs := fin, land := land })
  match noRecord recs with
  | some code => whole code
  | none =>
    let d := (recs.headD (.failed 7)).data
    let n := recBytes d
    match s.arm k.sw n with
    | none => whole 9
    | some (a, ph) =>
      let es := boxElems d idx
      let skipped := n - (es.map Elem.len).sum
      let outs := boxOutside d idx
      let b := (a.setCtile (zeroUnits wr d outs a.ctile)).perf k.sw ph skipped
      let zeros := if k.kind = .cpslot then [] else outs.map (fun o => (k.base + o, elemSize (recType d)))
      if es.isEmpty && k.cw.isNone then
        (b, { retire := if land.isSome then landRetire land else some s.now, effs := .landed k.buf zeros :: fin, land := land })
      else (b.addCmd { k with phase := ph, elems := es, n := n, wrote := zeros }, { retire := landRetire land, effs := fin, land := land })

/-- CPIN and XFETCH into a buffer, `land` decided. -/
def State.copyIn (s : State) (o : CopyIn) (recs : List Rec) (land : Option Nat) (kind : CmdKind) (cw : Option Nat) :
    Except Trap (State × Issue) :=
  let off := 256 * o.off
  let n := match noRecord recs with
    | some _ => 0
    | none => recBytes (recs.headD (.failed 7)).data
  match s.chkSet o.buf off <|> trapIf (!(s.ctile.buf o.buf).cpinOk (o.ovw == 1)) (bufTrap .bufstate o.buf off)
      <|> trapIf ((s.decl o.buf).bytes < off + n && n != 0) (bufTrap .bufstate o.buf off) with
  | some t => .error t
  | none =>
    let base := (s.decl o.buf).addr off
    let a := s.setCtile { s.ctile with effs := s.ctile.effs ++ [(s.now, .bufCpin o.buf)] }
    let fail (u : State) : State := u.setCtile (u.ctile.setBuf o.buf { u.ctile.buf o.buf with fail := true })
    .ok (a.startCopy { id := 0, eng := 0, kind := kind, sw := o.sw, phase := false, buf := o.buf, base := base, cw := cw } recs o.idx land
      (fun t i data => t.wrSram (base + i) data) fail [.fillDone o.buf])

/-- CPIN (R222, R223). -/
def execCpin (c : Ctl) (o : CopyIn) (s : State) : Host.Outcome State Fault Refusal :=
  .next (s.moveOrder c [o.h] false true (fun a recs =>
    match a.landOf o.x with
    | .error t => .error t
    | .ok land => a.copyIn o recs land .cpin none))

/-- XFETCH (R242): an elastic CPIN that may count on a completion word. -/
def execXfetch (c : Ctl) (o : CopyIn) (s : State) : Host.Outcome State Fault Refusal :=
  .next (s.moveOrder c (o.h :: (if o.x = 0 then [] else [o.x - 1])) true true (fun a recs =>
    a.copyIn o recs none .xfetch (if o.x = 0 then none else some (recBase (recs.getD 1 (.failed 7)).data))))

/-- The bytes that a CPSLOT writes into its slot (n′ of R225): none where a pattern does not fit the box. -/
def slotOut (recs : List Rec) : Option Nat :=
  let d := (recs.headD (.failed 7)).data
  if (noRecord recs).isSome then some 0 else if recBfx d then bfxOut (recPat d) (recType d) (recBytes d) else some (recBytes d)

/-- No order in flight reads operand memory that a copy into a slot writes (R259). -/
def Tile.slotQuiet (t : Tile) (o : CopySlot) (recs : List Rec) : Bool :=
  t.flights.all (fun f => f.opRd.all (fun r => !overlap r (slotBytes * o.slot + 256 * o.off, (slotOut recs).getD 0)))

/-- CPSLOT (R225): the slot is filling from issue. With a pattern in the record the box is gathered and extracted when the copy ends. -/
def execCpslot (c : Ctl) (o : CopySlot) (s : State) : Host.Outcome State Fault Refusal :=
  .next (s.moveOrder c [o.h] false true (rdy := s.ctile.slotQuiet o) (fun a recs =>
    match a.landOf o.land with
    | .error t => .error t
    | .ok land =>
      let d := (recs.headD (.failed 7)).data
      let found := (noRecord recs).isNone
      let n := if found then recBytes d else 0
      let out := slotOut recs
      let off := 256 * o.off
      if bits a.ctile.claim o.slot 1 = 0 || bits a.ctile.filling o.slot 1 = 1 || (out.isSome && slotBytes < off + out.getD 0) then
        .error (slotTrap o.slot)
      else
        let base := slotBytes * o.slot + off
        let b := a.setCtile { a.ctile with filling := a.ctile.filling + 2 ^ o.slot }
        let pat := if found && recBfx d then some (recPat d, recType d) else none
        let k : Cmd := { id := 0, eng := 0, kind := .cpslot, sw := o.sw, phase := false, buf := o.slot, base := base, pat := pat,
                         gather := if pat.isSome then List.replicate n 0 else [] }
        -- a pattern over a box that lies outside the tensor as a whole extracts zeros, now; over any other box at the copy's end
        let zeros := if (boxElems d o.idx).isEmpty then List.replicate (out.getD 0) 0 else []
        .ok (b.startCopy k (if out.isNone then [.failed 7] else recs) o.idx land
          (fun t i data => if pat.isSome then t.wrOp base zeros else t.wrOp (base + i) data) id [.slotDone o.slot])))

/-! ## Copies out (R59, R224, R227, R241) -/

/-- The 64-byte lines, by offset, of storage bytes that hold an uncorrectable error (R318). -/
def Tile.badLines (t : Tile) (addr n : Nat) : List Nat :=
  ((List.range ((n + 63) / 64)).map (64 * ·)).filter (fun o => t.bad 3 (addr + o) (Nat.min 64 (n - o)))

/-- The elements of a box, with their bytes read from storage. -/
def Tile.withData (t : Tile) (base : Nat) (es : List Elem) : List Elem :=
  es.map (fun e => { e with data := Store.getN 0 t.sram (base + e.tile) e.len, bad := t.badLines (base + e.tile) e.len })

/-- A read of the source by a copy out: single errors corrected, uncorrectable ones reported (R318). -/
def State.sourceRead (s : State) (addr n : Nat) : State :=
  let a := s.correct 3 addr n
  if a.ctile.bad 3 addr n then a.errorRecord 3 true a.region.world a.here else a

/-- CPOUT with FLUSH = 0 and XPOST: `cw` the completion word's address. -/
def State.copyOut (s : State) (o : CopyOut) (recs : List Rec) (kind : CmdKind) (cw : Option Nat) : Except Trap (State × Issue) :=
  let off := 256 * o.off
  let bad := bufTrap .bufstate o.buf off
  let n := match noRecord recs with
    | some _ => 0
    | none => recBytes (recs.headD (.failed 7)).data
  match s.chkGet o.buf off <|> trapIf (!(s.ctile.buf o.buf).cpoutOk) bad <|> trapIf (n != 0 && (s.decl o.buf).bytes < off + n) bad with
  | some t => .error t
  | none =>
    let a := s.setCtile { s.ctile with effs := s.ctile.effs ++ [(s.now, .bufCpout o.buf)] }
    match noRecord recs with
    | some code => .ok (a.failNow o.sw code [.drainDone o.buf])
    | none =>
      let base := (s.decl o.buf).addr off
      let iss : Issue := { retire := some (s.now + Nat.max (ceilDiv n 256) 1 - 1), effs := [.drainDone o.buf] }
      match a.arm o.sw n with
      | none => .ok (a.statusWrite o.sw 9, iss)
      | some (b, ph) =>
        let es := boxElems (recs.headD (.failed 7)).data o.idx
        let u := (b.sourceRead base n).perf o.sw ph (n - (es.map Elem.len).sum)
        if es.isEmpty && cw.isNone then .ok (u, iss)
        else .ok (u.addCmd { id := 0, eng := 0, kind := kind, sw := o.sw, phase := ph, elems := u.ctile.withData base es, n := n, cw := cw,
                             buf := o.buf, base := base, remote := kind == .xpost }, iss)

/-- R65: the source of a copy out is written. -/
def State.outReady (s : State) (o : CopyOut) (recs : List Rec) : Bool :=
  !s.coPending o.buf (256 * o.off) (if (noRecord recs).isSome then 0 else recBytes (recs.headD (.failed 7)).data)

/-- CPOUT (R224). -/
def execCpout (c : Ctl) (o : CopyOut) (s : State) : Host.Outcome State Fault Refusal :=
  .next (s.moveOrder c [o.h] false true (rdy := s.outReady o) (fun a recs => a.copyOut o recs .cpout none))

/-- XPOST (R241). -/
def execXpost (c : Ctl) (o : CopyOut) (s : State) : Host.Outcome State Fault Refusal :=
  .next (s.moveOrder c (o.h :: (if o.cw = 0 then [] else [o.cw - 1])) false true (rdy := s.outReady o) (fun a recs =>
    a.copyOut o recs .xpost (if o.cw = 0 then none else some (recBase (recs.getD 1 (.failed 7)).data))))

/-- The dirty granules of a bound buffer, by number in the buffer. -/
def State.dirtyOf (s : State) (b : Nat) : List Nat :=
  if (s.ctile.buf b).bound then (List.range (s.decl b).len).filter (fun g => Store.get false ((s.decl b).base + g) s.ctile.dirty) else []

/-- The write-back of a buffer's dirty granules: one element each, contents as they stand. -/
def State.writeBack (s : State) (b : Nat) : List Elem :=
  s.ctile.withData ((s.decl b).addr 0)
    ((s.dirtyOf b).map (fun g => { ix := g, tile := 4096 * g, va := (s.ctile.buf b).va + 4096 * g, len := 4096 }))

/-- The dirty marks of a buffer are cleared. -/
def Tile.clean (t : Tile) (d : BufDecl) : Tile := { t with dirty := Store.delRange d.base (d.base + d.len) t.dirty }

/-- The write-back command of a flush or an UNBIND, if the status word arms and a granule is dirty. The dirty marks go now; that of a
granule whose write-back fails later does not come back, which R59 leaves open: DEDUCED, log entry 21. -/
def State.startWriteBack (s : State) (b sw : Nat) : State :=
  let gs := s.dirtyOf b
  match s.arm sw (4096 * gs.length) with
  | none => s.statusWrite sw 9
  | some (a, ph) =>
    let v := gs.foldl (fun (u : State) g => u.sourceRead ((u.decl b).addr (4096 * g)) 4096) a
    let u := v.setCtile (v.ctile.clean (v.decl b))
    if gs.isEmpty then u else u.addCmd { id := 0, eng := 0, kind := .cpout, sw := sw, phase := ph, elems := v.writeBack b, n := 4096 * gs.length }

/-- CPOUT.flush (R224, R59). -/
def execCpoutFlush (c : Ctl) (buf sw : Nat) (s : State) : Host.Outcome State Fault Refusal :=
  .next (s.moveOrder c [] false true (rdy := fun _ => !s.coPendingAll buf) (fun a _ =>
    match a.chkGet buf 0 <|> trapIf (!(a.ctile.buf buf).cpoutOk) (bufTrap .bufstate buf 0) with
    | some t => .error t
    | none =>
      let b := a.setCtile { a.ctile with effs := a.ctile.effs ++ [(a.now, .bufCpout buf)] }
      if (b.ctile.buf buf).bound then
        .ok (b.startWriteBack buf sw, { retire := some (a.now + Nat.max (16 * (b.dirtyOf buf).length) 1 - 1), effs := [.drainDone buf] })
      else .ok (b.failNow sw 9 [.drainDone buf])))

/-! ## Buffer and binding control (R226 to R230) -/

/-- An effect at the end of the issue cycle of an order that retires in it. -/
def State.orderEff (s : State) (f : List Eff) : State × Issue :=
  (s.setCtile { s.ctile with effs := s.ctile.effs ++ f.map (fun x => (s.now, x)) }, { retire := some s.now })

/-- BIND (R58, R227). -/
def execBind (c : Ctl) (buf sw h : Nat) (s : State) : Host.Outcome State Fault Refusal :=
  .next (s.moveOrder c [h] false true (rdy := fun _ => !s.coPendingAll buf) (fun a recs =>
    let x := a.ctile.buf buf
    match a.chkSet buf 0 <|> trapIf (x.bound || !x.still) (bufTrap .bufstate buf 0) with
    | some t => .error t
    | none =>
      match noRecord recs with
      | some code => .ok (a.failNow sw code [])
      | none =>
        let va := recBase (recs.headD (.failed 7)).data
        if va % 4096 ≠ 0 then .ok (a.failNow sw 9 [])
        else match a.arm sw 0 with
          | none => .ok (a.failNow sw 9 [])
          | some (b, _) => .ok (b.orderEff [.bufBind buf va])))

/-- UNBIND (R227): a FULL buffer drains while its dirty granules are read, from the cycle after issue. -/
def execUnbind (c : Ctl) (buf sw : Nat) (s : State) : Host.Outcome State Fault Refusal :=
  .next (s.moveOrder c [] false true (rdy := fun _ => !s.coPendingAll buf) (fun a _ =>
    let x := a.ctile.buf buf
    match a.chkSet buf 0 <|> trapIf (!x.bound || !x.still) (bufTrap .bufstate buf 0) with
    | some t => .error t
    | none =>
      let g := (a.dirtyOf buf).length
      let b := a.startWriteBack buf sw
      if x.st == .full && g != 0 then
        let r := b.orderEff [.bufUnbind buf]
        .ok (r.1.setCtile { r.1.ctile with effs := r.1.ctile.effs ++ [(a.now + 16 * g, .unbound buf)] }, r.2)
      else .ok (b.orderEff [.unbound buf])))

/-- BSTATE (R228). -/
def State.bstate (s : State) (c : Ctl) (buf : Nat) (full : Bool) : Host.Outcome State Fault Refusal :=
  .next (s.moveOrder c [] false true (rdy := fun _ => !s.coPendingAll buf) (fun a _ =>
    match a.chkSet buf 0 <|> trapIf (!(a.ctile.buf buf).still) (bufTrap .bufstate buf 0) with
    | some t => .error t
    | none => .ok (a.orderEff [.bufSet buf full])))

def execBstateEmpty (c : Ctl) (buf : Nat) (s : State) : Host.Outcome State Fault Refusal := s.bstate c buf false
def execBstateFull (c : Ctl) (buf : Nat) (s : State) : Host.Outcome State Fault Refusal := s.bstate c buf true

/-- LRFLUSH with FETCH = 0 (R229): the entry goes at the cycle's end, after every latch of the cycle (R214). -/
def execLrflush (c : Ctl) (sw h : Nat) (s : State) : Host.Outcome State Fault Refusal :=
  .next (s.moveOrder c [] false true (fun a _ =>
    let r := a.orderEff [.uncache (a.recVa h)]
    match r.1.arm sw 0 with
    | none => .ok (r.1.statusWrite sw 9, r.2)
    | some (b, _) => .ok (b, r.2)))

/-- LRFLUSH with FETCH = 1 (R229). -/
def execLrflushFetch (c : Ctl) (sw h : Nat) (s : State) : Host.Outcome State Fault Refusal :=
  .next (s.moveOrder c [] true true (fun a _ =>
    let r := a.orderEff [.uncache (a.recVa h)]
    match r.1.arm sw 1 with
    | none => .ok (r.1.statusWrite sw 9, r.2)
    | some (b, ph) => .ok (b.addCmd { id := 0, eng := 0, kind := .fetch, sw := sw, phase := ph, va := a.recVa h, size := 1 }, {})))

/-- R230: the pages of the range and the object's page are translated: a walk that is needed; a code, with the physical pieces before
the page that gives it; or the physical pieces and the object's address. The read kind is the model's choice. Notes: log entry 34. -/
inductive BindXl where
  | miss (va : Nat)
  | code (c : Nat) (va : Nat) (ps : List (Nat × Nat))
  | ok (ps : List (Nat × Nat)) (obj : Nat)
deriving DecidableEq, Repr

/-- The held translation of an address has ATOM = 00: its page is no home-SYE page. -/
def State.plainPage (s : State) (ctx va : Nat) : Bool :=
  (s.tlb.find? (fun e => e.ctx == ctx && e.covers va)).any (fun e => pteAtom e.pte == 0)

/-- The physical pieces of the leading pages of a range that translate. -/
def State.leadPieces (s : State) (ctx kind : Nat) : List (Nat × Nat) → List (Nat × Nat)
  | [] => []
  | p :: r =>
    match s.translate ctx p.1 kind with
    | .pa a => (a, p.2) :: s.leadPieces ctx kind r
    | _ => []

/-- The pages of the range and the object's page are judged in address order, and then ATOM of the object's page. -/
def State.bindXlate (s : State) (ctx va n obj : Nat) : BindXl :=
  let rest : BindXl := match s.translateRange ctx va n kRead with
    | .miss a => .miss a
    | .code c a => .code c a (s.leadPieces ctx kRead (pieces va n))
    | .ok ps =>
      match s.translate ctx obj kRead with
      | .miss => .miss obj
      | .code c => .code c obj ps
      | .pa a => if s.plainPage ctx obj then .code 2 obj ps else .ok ps a
  if va / 4096 ≤ obj / 4096 then rest
  else match s.translate ctx obj kRead with
    | .miss => .miss obj
    | .code c => .code c obj []
    | .pa _ => rest

/-- R230: the range and the object are aligned. -/
def Cmd.bindAligned (c : Cmd) : Bool := c.va % 64 == 0 && c.n % 64 == 0 && c.obj % 8 == 0

/-- A BINDSO takes what its translation gives: `ret` is 1 once it is translated, `code` its outcome, `ranges` and `opd` the physical
bytes. A page that is not held is walked first. Both are translated as reads. Notes: log entry 34. -/
def State.bindTake (s : State) (die ctx : Nat) (c : Cmd) : State × Cmd :=
  match s.bindXlate ctx c.va c.n c.obj with
  | .miss a => (s.startWalk die ctx a kRead, c)
  | .code k a ps => (s.dropFailed ctx a, { c with ret := true, code := k, ranges := ps })
  | .ok ps a => (s, { c with ret := true, ranges := ps, opd := a })

/-- BINDSO and its removal (R230): translated at issue, sent to the home SYE, where it is performed and answered. -/
def State.bindsoOrder (s : State) (c : Ctl) (sw scope hr ho : Nat) : Host.Outcome State Fault Refusal :=
  .next (s.moveOrder c [hr, ho] false true (fun a recs =>
    match noRecord recs with
    | some code => .ok (a.failNow sw code [])
    | none =>
      let r := (recs.headD (.failed 7)).data
      match a.arm sw 1 with
      | none => .ok (a.failNow sw 9 [])
      | some (b, ph) =>
        let k : Cmd := { id := 0, eng := 0, kind := .bindso, sw := sw, phase := ph, va := recBase r, n := recBytes r, size := 1,
                         obj := recBase (recs.getD 1 (.failed 7)).data, scope := scope }
        let x := if k.bindAligned then b.bindTake (dieOf b.here) b.slotNo k else (b, k)
        .ok (x.1.addCmd x.2, { retire := some a.now })))

def execBindso (c : Ctl) (sw scope hr ho : Nat) (s : State) : Host.Outcome State Fault Refusal := s.bindsoOrder c sw scope hr ho
def execBindsoRemove (c : Ctl) (sw hr ho : Nat) (s : State) : Host.Outcome State Fault Refusal := s.bindsoOrder c sw 0 hr ho

/-! ## Ordering and synchronisation (R231 to R233) -/

/-- QFENCE in CI or CO (R231): as in SQ (R171). -/
def execQfenceCico (c : Ctl) (_scope emask : Nat) (s : State) : Host.Outcome State Fault Refusal :=
  let e := s.cur.eng
  let met := s.ctile.fenceMet emask s.now
  let due := (ENeed.gate { ctl := c } s.ctile s.ceng e s.now) == .go
  if c.legal e && due && !met && !s.ctile.timed then .next (s.setCtile (s.ctile.setFence e emask))
  else .next (s.moveOrder c [] false met (fun a _ => .ok (a.setCtile (a.ctile.setFence e 0), { retire := some a.now })))

/-- The shape of ACQ: `size` bytes at `boff` of the object, or a completion word of phase `want`. -/
def State.acqOrder (s : State) (c : Ctl) (o : SyncOp) (kind : CmdKind) (size : Nat) : Host.Outcome State Fault Refusal :=
  .next (s.moveOrder c [o.h] true true (fun a recs =>
    match a.chkWrite 1 o.buf (8 * o.off) 8 with
    | some t => .error t
    | none =>
      match noRecord recs with
      | some code => .ok (a.failNow o.sw code [])
      | none =>
        let va := recBase (recs.headD (.failed 7)).data
        match a.arm o.sw size with
        | none => .ok (a.failNow o.sw 9 [])
        | some (b, ph) =>
          .ok (b.addCmd { id := 0, eng := 0, kind := kind, sw := o.sw, phase := ph, va := va + (if kind == .acq then o.boff else 0),
                          obj := va, size := size, want := o.p == 1, buf := o.buf, base := (a.decl o.buf).addr (8 * o.off) },
               { blocks := true })))

def execAcq (c : Ctl) (o : SyncOp) (s : State) : Host.Outcome State Fault Refusal := s.acqOrder c o .acq (2 ^ o.sz)
def execAcqCw (c : Ctl) (o : SyncOp) (s : State) : Host.Outcome State Fault Refusal := s.acqOrder c o .acqCw 8

/-- The global bytes that a command of CO, or the write-back of an UNBIND, may still write. -/
def Cmd.targets (c : Cmd) : List (Nat × Nat) :=
  match c.kind with
  | .cpout | .xpost => c.elems.map (fun e => (e.va, e.len))
  | .vatom => c.elems.flatMap (fun e => e.lanes.map (fun l => (l.1, c.size)))
  | .atom | .rel => [(c.va, c.size)]
  | _ => []

/-- The kind of access with which it writes them. -/
def Cmd.writeKind (c : Cmd) : Nat := if c.kind = .atom ∨ c.kind = .vatom then kAtomic else kWrite

def meets (ps qs : List (Nat × Nat)) : Bool := ps.any (fun p => qs.any (fun q => decide (p.1 < q.1 + q.2) && decide (q.1 < p.1 + p.2)))

/-- A range of one context meets physical pieces; `early` is what counts while its translation is not held. One that fails translation
for the kind is not accessed. -/
def State.meetsAt (s : State) (early : Bool) (ctx kind : Nat) (r : Nat × Nat) (ps : List (Nat × Nat)) : Bool :=
  match s.translateRange ctx r.1 r.2 kind with
  | .ok qs => meets ps qs
  | .miss _ => early
  | .code _ _ => false

/-- A range of one context may meet physical pieces: an untranslated range may meet any. -/
def State.mayMeet (s : State) (ctx kind : Nat) (r : Nat × Nat) (ps : List (Nat × Nat)) : Bool := s.meetsAt (!ps.isEmpty) ctx kind r ps

/-- The physical ranges that are bound to an object. -/
def State.boundTo (s : State) (obj : Nat) : List (Nat × Nat) := (s.sync.filter (fun b => b.obj == obj)).map (fun b => (b.lo, b.hi - b.lo))

/-- The tiles on which regions stand, as (slot, tile). -/
def State.seats (s : State) : List (Nat × Nat) :=
  s.slots.flatMap (fun e => if e.2.st == .free || e.2.evicted then [] else (List.range e.2.count).map (fun t => (e.1, t)))
/-- The commands in hand on the package, each with its slot. -/
def State.inHand (s : State) : List (Nat × Cmd) := s.seats.flatMap (fun q => (s.tileAt q.1 q.2).cmds.map (fun k => (q.1, k)))

/-- The CO writes of every region that issued before a command, as (slot, command): those that happen before it are among them. Notes:
log entry 34. -/
def State.before69 (s : State) (c : Cmd) : List (Nat × Cmd) :=
  s.inHand.filter (fun k => k.2.coWrite && decide (k.2.order < c.order))

/-- R70: the REL of a command goes through the switches: its object lies on another package, or a bound write that precedes it, as far
as its translation is held, does. A write whose translation is not held yet is waited for (`relReady`). -/
def State.relFar (s : State) (n : Nat) (c : Cmd) : Bool :=
  match s.translate n c.obj kWrite with
  | .pa a => isWindow a || (s.before69 c).any (fun k =>
      k.2.targets.any (fun r => s.meetsAt false k.1 k.2.writeKind r ((s.boundTo (a / 8 * 8)).filter (fun p => isWindow p.1))))
  | _ => false

/-- REL (R233): the value is read at issue; the object is written later (R69, R70). -/
def execRel (c : Ctl) (o : SyncOp) (s : State) : Host.Outcome State Fault Refusal :=
  .next (s.moveOrder c [o.h] false true (rdy := fun _ => !s.coPending o.buf (8 * o.off) 8) (fun a recs =>
    match a.readBuf 2 o.buf (8 * o.off) 8 with
    | .error t => .error t
    | .ok bs =>
      let b := a.correct 3 ((a.decl o.buf).addr (8 * o.off)) 8
      match noRecord recs with
      | some code => .ok (b.failNow o.sw code [])
      | none =>
        let va := recBase (recs.headD (.failed 7)).data
        match b.arm o.sw (2 ^ o.sz) with
        | none => .ok (b.failNow o.sw 9 [])
        | some (u, ph) =>
          let k : Cmd := { id := 0, eng := 0, kind := .rel, sw := o.sw, phase := ph, va := va + o.boff, obj := va, size := 2 ^ o.sz,
                           opd := leNat (bs.take (2 ^ o.sz)), order := u.cmdSeq }
          .ok (u.addCmd { k with remote := u.relFar u.slotNo k }, { retire := some a.now })))

/-! ## Atomic operations (R71, R73, R246 to R248) -/

/-- The shape of ATOM: `op` is the code of Table 12.6, 0 to 10. -/
def State.atomOrder (s : State) (c : Ctl) (o : AtomOp) (op : Nat) : Host.Outcome State Fault Refusal :=
  let n := 2 ^ o.sz
  .next (s.moveOrder c [o.h] (o.ret == 1) true (rdy := fun _ => !s.coPending o.buf (16 * o.off) 16) (fun a recs =>
    let va := (recBase (recs.headD (.failed 7)).data + o.aoff) % 2 ^ 64
    let off := 16 * o.off
    match trapIf ((noRecord recs).isNone && va % n != 0) (bufTrap .align o.buf off) with
    | some t => .error t
    | none =>
      match a.readBuf 2 o.buf off 16 with
      | .error t => .error t
      | .ok bs =>
        match if o.ret = 1 then a.chkWrite 2 o.buf off 8 else none with
        | some t => .error t
        | none =>
          let b := a.correct 3 ((a.decl o.buf).addr off) 16
          match noRecord recs with
          | some code => .ok (b.failNow o.sw code [])
          | none =>
            match b.arm o.sw n with
            | none => .ok (b.failNow o.sw 9 [])
            | some (u, ph) =>
              .ok (u.addCmd { id := 0, eng := 0, kind := .atom, sw := o.sw, phase := ph, va := va, size := n, op := op,
                              opd := leNat (bs.take n), cmp := leNat ((bs.drop 8).take n), ret := o.ret == 1,
                              buf := o.buf, base := (a.decl o.buf).addr off },
                   { retire := if o.ret = 1 then none else some a.now })))

def execAtomAdd (c : Ctl) (o : AtomOp) (s : State) : Host.Outcome State Fault Refusal := s.atomOrder c o 0
def execAtomAnd (c : Ctl) (o : AtomOp) (s : State) : Host.Outcome State Fault Refusal := s.atomOrder c o 1
def execAtomOr (c : Ctl) (o : AtomOp) (s : State) : Host.Outcome State Fault Refusal := s.atomOrder c o 2
def execAtomXor (c : Ctl) (o : AtomOp) (s : State) : Host.Outcome State Fault Refusal := s.atomOrder c o 3
def execAtomMin (c : Ctl) (o : AtomOp) (s : State) : Host.Outcome State Fault Refusal := s.atomOrder c o (if o.uns = 1 then 6 else 4)
def execAtomMax (c : Ctl) (o : AtomOp) (s : State) : Host.Outcome State Fault Refusal := s.atomOrder c o (if o.uns = 1 then 7 else 5)
def execAtomSwap (c : Ctl) (o : AtomOp) (s : State) : Host.Outcome State Fault Refusal := s.atomOrder c o 8
def execAtomCas (c : Ctl) (o : AtomOp) (s : State) : Host.Outcome State Fault Refusal := s.atomOrder c o 9
def execAtomFadd (c : Ctl) (o : AtomOp) (s : State) : Host.Outcome State Fault Refusal := s.atomOrder c o 10

/-- The new value of an ATOM, or no write (Table 12.6). -/
def atomNew (op n opd cmp old : Nat) : Option Nat :=
  let w := 8 * n
  let sg (v : Nat) : Int := sext w v
  match op with
  | 0 => some ((old + opd) % 2 ^ w)
  | 1 => some (Nat.land old opd)
  | 2 => some (Nat.lor old opd)
  | 3 => some (Nat.xor old opd)
  | 4 => some (if sg old ≤ sg opd then old else opd)
  | 5 => some (if sg old ≤ sg opd then opd else old)
  | 6 => some (Nat.min old opd)
  | 7 => some (Nat.max old opd)
  | 8 => some opd
  | 9 => if old = cmp then some opd else none
  | _ =>
    let ty := if n = 4 then 0 else 2
    some (roundTo ty ((valOf ty old).add (valOf ty opd) 0) 0 false 0)

/-- The lanes of a vector atomic, grouped by 64-byte line in the order of the lowest lane of each (R73). -/
def byLine : List (Nat × Nat) → List (Nat × List (Nat × Nat)) → List (Nat × List (Nat × Nat))
  | [], acc => acc
  | x :: r, acc =>
    byLine r (if acc.any (fun g => g.1 == x.1 / 64) then acc.map (fun g => if g.1 = x.1 / 64 then (g.1, g.2 ++ [x]) else g)
              else acc ++ [(x.1 / 64, [x])])

/-- The index and the element of a vector atomic's lane, by ReadBuf (R248): lane by lane, of each the index first. Notes: log entry 33. -/
def State.vatomLane (s : State) (o : VAtom) (n j : Nat) : Except Trap (Nat × Nat) :=
  match s.readBuf 2 o.buf (512 * o.ioff + 4 * j) 4 with
  | .error t => .error t
  | .ok i =>
    match s.readBuf 2 o.buf (512 * o.eoff + n * j) n with
    | .error t => .error t
    | .ok e => .ok (leNat i, leNat e)

/-- The shape of VAOR, VAADD and VAMAX: `op` as in `atomNew`, by the element type. -/
def State.vatomOrder (s : State) (c : Ctl) (o : VAtom) (op : Nat) : Host.Outcome State Fault Refusal :=
  let n := elemBits o.ty / 8
  let nl := o.nl1 + 1
  .next (s.moveOrder c [o.h] false true
      (rdy := fun _ => !s.coPending o.buf (512 * o.ioff) (4 * nl) && !s.coPending o.buf (512 * o.eoff) (n * nl)) (fun a recs =>
    match (List.range nl).mapM (a.vatomLane o n) with
    | .error t => .error t
    | .ok ls =>
      let d := a.decl o.buf
      let b := (a.correct 3 (d.addr (512 * o.ioff)) (4 * nl)).correct 3 (d.addr (512 * o.eoff)) (n * nl)
      let iss : Issue := { retire := some (a.now + Nat.max (ceilDiv ((4 + n) * nl) 256) 1 - 1) }
      match noRecord recs with
      | some code => .ok (b.statusWrite o.sw code, iss)
      | none =>
        let base := recBase (recs.headD (.failed 7)).data
        let lanes := (ls.filter (fun p => p.1 != 0xFFFFFFFF)).map (fun p => ((base + p.1 * n) % 2 ^ 64, p.2))
        match b.arm o.sw (n * lanes.length) with
        | none => .ok (b.statusWrite o.sw 9, iss)
        | some (u, ph) =>
          let es : List Elem := (byLine lanes []).mapIdx (fun ix g => { ix := ix, va := 64 * g.1, len := n * g.2.length, lanes := g.2 })
          if es.isEmpty then .ok (u, iss)
          else .ok (u.addCmd { id := 0, eng := 0, kind := .vatom, sw := o.sw, phase := ph, elems := es, size := n, op := op, ty := o.ty }, iss)))

def execVaor (c : Ctl) (o : VAtom) (s : State) : Host.Outcome State Fault Refusal := s.vatomOrder c o 2
def execVaadd (c : Ctl) (o : VAtom) (s : State) : Host.Outcome State Fault Refusal := s.vatomOrder c o (if o.ty = 0 then 10 else 0)
def execVamax (c : Ctl) (o : VAtom) (s : State) : Host.Outcome State Fault Refusal := s.vatomOrder c o (if isSignedTy o.ty then 5 else 7)

end Sys2Proof.Machine
end

