-- ==== Sys2Proof/Machine/Commands.lean ====
section
/-! DEFINITION. The progress of commands after their issue: record fetches, bytes performed, SYE operations, releases, timeouts and host atomics (R63, R67 to R72, R214 to R218, R227 to R233, R240 to R248). -/
namespace Sys2Proof.Machine

/-! ## Commands in hand -/

def State.cmdAt (s : State) (n t id : Nat) : Option Cmd := (s.tileAt n t).cmds.find? (fun c => c.id == id)
def Tile.putCmd (t : Tile) (c : Cmd) : Tile := { t with cmds := t.cmds.map (fun k => if k.id = c.id then c else k) }
def Tile.endCmd (t : Tile) (c : Cmd) : Tile := { t with cmds := t.cmds.filter (fun k => k.id != c.id) }

/-- The order of a command retires in the current region cycle, or in the first one after a freeze (R291), if it waited for it. -/
def Tile.retireCmd (t : Tile) (c : Cmd) (now : Nat) (effs : List Eff) (done : Option (Nat × Nat × Bool)) : Tile :=
  { t with flights := t.flights.map (fun f =>
      if c.flight = some f.id then { f with retire := some (f.retire.getD now), effs := effs ++ f.effs, done := done, doneN := c.size } else f) }

def Tile.swUpd (t : Tile) (n : Nat) (f : Word → Word) : Tile := { t with sw := Store.put 0 n (f (Store.get 0 n t.sw)) t.sw }

/-- The die of a tile of a region. -/
def State.tileDie (s : State) (n t : Nat) : Nat := dieOf ((s.slot n).phys t)

/-- A code that is POISON taints the instance (R319). -/
def State.taintCode (s : State) (n code : Nat) : State := if code = 1 then s.setSlot n { s.slot n with tainted := true } else s

/-- A command ends with a code: its status word, its order's retirement, the marks of the granules that it has written (R59). -/
def State.endCommand (s : State) (n t : Nat) (c : Cmd) (code : Nat) : State :=
  let x := (((s.tileAt n t).swUpd c.sw (fun w => swStatus w code)).endCmd c).retireCmd c (s.slot n).rcc
    (if c.wrote.isEmpty then [] else [.landed c.buf c.wrote]) none
  (s.setTileAt n t x).taintCode n code

/-- A command whose status word completes at its retirement ends: what its order then does. -/
def State.endAtRetire (s : State) (n t : Nat) (c : Cmd) (code : Nat) (effs : List Eff) : State :=
  let x := ((s.tileAt n t).endCmd c).retireCmd c (s.slot n).rcc effs (some (c.sw, code, c.phase))
  s.setTileAt n t x

/-- `k` bytes of a command performed: its status word counts them (R63). -/
def State.countBytes (s : State) (n t : Nat) (c : Cmd) (k : Nat) : State :=
  s.setTileAt n t ((s.tileAt n t).swUpd c.sw (fun w => swPerform w c.phase k))

/-- R215: the code of the lowest failing element stands. -/
def Cmd.fail (c : Cmd) (ix code : Nat) : Cmd := if c.err = 0 ∨ ix < c.errIx then { c with err := code, errIx := ix } else c

/-- A choice that the spec leaves open, among `k` things. -/
def State.choose (s : State) (k : Nat) : Nat × State :=
  if k ≤ 1 then (0, s) else (s.free.1.toNat % k, s.free.2)

/-! ## Completion words (R241, R242) -/

/-- The bytes of the message that lie outside the tensor. -/
def Cmd.outside (c : Cmd) : Nat := c.n - (c.elems.map Elem.len).sum

/-- The new value of a completion word that a message of `n` bytes arms, `k` of them performed at once. -/
def armWord (old : Word) (n k : Nat) : Word :=
  match swArm old n with
  | none => swStatus old 9
  | some w => swPerform w (phaseOf old) k

/-- The home SYE arms the completion word before any byte of the message is performed. -/
def State.armCw (s : State) (n t : Nat) (c : Cmd) (va : Nat) : State :=
  let r := s.syeOp (s.tileDie n t) n va 8 (fun v => some (armWord (BitVec.ofNat 64 v) c.n c.outside).toNat)
  match r.2 with
  | .wait => r.1
  | .code k => r.1.setTileAt n t ((r.1.tileAt n t).putCmd { c with elems := [], err := k, cw := none })
  | .done bs =>
    let old : Word := BitVec.ofNat 64 (leNat bs)
    let c2 := if (swArm old c.n).isNone then { c with elems := [], err := 9, cw := none } else { c with cwArmed := some (phaseOf old) }
    r.1.setTileAt n t ((r.1.tileAt n t).putCmd c2)

/-- An armed local completion word cannot be counted on now: its page is walked, or waits to be copied. The state in which the bytes
wait with it. -/
def State.cwWait (s : State) (n t : Nat) (c : Cmd) : Option State :=
  match c.cw, c.cwArmed with
  | some va, some _ =>
    match s.translate n va kAtomic with
    | .miss => some (s.startWalk (s.tileDie n t) n va kAtomic)
    | .pa a => if !isWindow a && s.snapped (a / 4096) then some (s.holdPages [a / 4096]) else none
    | .code _ => none
  | _, _ => none

/-- `k` bytes counted on an armed local completion word, under the phase that its arm saw. -/
def State.countCw (s : State) (n t : Nat) (c : Cmd) (k : Nat) : State :=
  match c.cw, c.cwArmed with
  | some va, some ph =>
    match s.translate n va kAtomic with
    | .pa a => if isWindow a then s
      else (s.syeOp (s.tileDie n t) n va 8 (fun v => some (swPerform (BitVec.ofNat 64 v) ph k).toNat)).1
    | _ => s
  | _, _ => s

/-! ## Bytes performed (R63, R223 to R225, R227) -/

/-- The bytes that a CPSLOT with a pattern makes at its end: an element that needs a byte of a failed one keeps its old bits. An odd number
of 4-bit elements makes no whole number of bytes: the last one is not written. Notes: log entry 50. -/
def Tile.extract (t : Tile) (c : Cmd) (p : BitVec 576) (ty : Nat) : List Byte :=
  let w := elemBits ty
  let k := 8 * c.gather.length / bfxPeriod p * bfxNfld p
  let stream := leNat c.gather
  let old := leNat (Store.getN 0 t.opmem c.base (k * w / 8))
  let hit (i : Nat) : Bool := (bfxBytes p i).any (fun b => c.ranges.any (fun r => r.1 ≤ b && b < r.1 + r.2))
  leBytes (k * w / 8) (packLanes w ((List.range k).map (fun i => if hit i then bits old (w * i) w else bfxElem p w stream i)))

/-- An element of a copy in has failed: the failure bit of its buffer, or the bytes that a pattern may not use. -/
def State.failIn (s : State) (n t : Nat) (c : Cmd) (e : Elem) : State × Cmd :=
  if c.kind = .cpslot then (s, { c with ranges := (e.tile, e.len) :: c.ranges })
  else
    let x := s.tileAt n t
    (s.setTileAt n t (x.setBuf c.buf { x.buf c.buf with fail := true }), c)

/-- A copy whose last element is performed or abandoned ends; a copy in with an error leaves the failure bit set. -/
def State.endCopy (s : State) (n t : Nat) (c : Cmd) : State :=
  match c.pat with
  | some (p, ty) => (s.setTileAt n t ((s.tileAt n t).wrOp c.base ((s.tileAt n t).extract c p ty))).endCommand n t c c.err
  | none => (if c.err != 0 && (c.kind == .cpin || c.kind == .xfetch) then (s.failIn n t c {}).1 else s).endCommand n t c c.err

def State.stepCopy (s : State) (n t : Nat) (c : Cmd) : State :=
  if c.elems.isEmpty then s.endCopy n t c else s.setTileAt n t ((s.tileAt n t).putCmd c)

/-- The bytes of an element of a copy in reach the tile's storage; what it held at the end of the last cycle performed is kept (R316). -/
def State.landIn (s : State) (n t : Nat) (c : Cmd) (e : Elem) (data : List Byte) : State × Cmd :=
  let x := s.tileAt n t
  if c.pat.isSome then (s, { c with gather := c.gather.take e.tile ++ data ++ c.gather.drop (e.tile + data.length) })
  else if c.kind = .cpslot then (s.setTileAt n t (x.wrOp (c.base + e.tile) data), c)
  else (s.setTileAt n t (x.holdC.wrSram (c.base + e.tile) data), { c with wrote := c.wrote ++ [(c.base + e.tile, data.length)] })

/-- The global bytes whose values a command has still to read. -/
def Cmd.sources (c : Cmd) : List (Nat × Nat) :=
  match c.kind with
  | .cpin | .cpslot | .xfetch => c.elems.map (fun e => (e.va, e.len))
  | .acq | .acqCw => [(c.va, c.size)]
  | .atom => if c.ret then [(c.va, c.size)] else []
  | .fetch => [(c.va, 192)]
  | _ => []

/-- R67: none of the commands of queue `e` that come `before` a read has still to read a byte of its physical pieces, so the reads of
one byte by one queue follow its coherence order. -/
def State.queueClear (s : State) (n t e : Nat) (before : Cmd → Bool) (ps : List (Nat × Nat)) : Bool :=
  (s.tileAt n t).cmds.all (fun k => k.eng != e || !before k || k.sources.all (fun r => !s.mayMeet n kRead r ps))
/-- The same for the reads of a command. -/
def State.readTurn (s : State) (n t : Nat) (c : Cmd) (ps : List (Nat × Nat)) : Bool :=
  s.queueClear n t c.eng (fun k => decide (k.order < c.order)) ps

/-- One element of CPIN, CPSLOT or XFETCH is read and written, or fails. -/
def State.performIn (s : State) (n t : Nat) (c : Cmd) : State :=
  let pick := s.choose c.elems.length
  match c.elems[pick.1]? with
  | none => s.endCopy n t c
  | some e =>
    let free := match s.translateRange n e.va e.len kRead with
      | .ok ps => s.readTurn n t c ps
      | _ => true
    match s.cwWait n t c with
    | some u => u
    | none =>
      if !free then pick.2
      else
        let c1 := { c with elems := c.elems.eraseIdx pick.1 }
        let r := pick.2.gread (s.tileDie n t) n e.va e.len
        match r.2 with
        | .wait => r.1
        | .code k => let f := r.1.failIn n t (c1.fail e.ix k) e; f.1.stepCopy n t f.2
        | .done bs =>
          let f := r.1.landIn n t c1 e (if e.half then bs.map (· &&& 0x0F) else bs)
          ((f.1.countBytes n t c e.len).countCw n t c e.len).stepCopy n t f.2

/-- The global bytes that a command has still to read, the old values that an atomic works on among them (R67, R71). An ACQ.cw waits for its
value, whoever writes it (R232), and keeps no write from its word. Notes: log entry 61. -/
def Cmd.reads (c : Cmd) : List (Nat × Nat) :=
  match c.kind with
  | .atom | .vatom => c.targets
  | .acqCw => []
  | _ => c.sources
/-- The kind of access with which it reads them. -/
def Cmd.readKind (c : Cmd) : Nat := if c.kind = .atom ∨ c.kind = .vatom then kAtomic else kRead

/-- R67: no read that happens before the command has still to read a byte of the given physical pieces. Notes: log entry 61. -/
def State.readsDone (s : State) (c : Cmd) (ps : List (Nat × Nat)) : Bool :=
  s.hb.all (fun p => p.2 != .command c.order ||
    s.inHand.all (fun k => k.2.order != p.1 || k.2.reads.all (fun r => !s.mayMeet k.1 k.2.readKind r ps)))

/-- R218: no earlier CO write of the tile, the write-back of an UNBIND in CI included (R59), may still reach a byte of the given
physical pieces, nor may a read that happens before the command (R67). -/
def State.inTurn (s : State) (n t : Nat) (c : Cmd) (ps : List (Nat × Nat)) : Bool :=
  (s.tileAt n t).cmds.all (fun k => !k.coWrite || decide (c.order ≤ k.order) || k.targets.all (fun r => !s.mayMeet n k.writeKind r ps)) &&
  s.readsDone c ps

/-- The packages that an element goes to, where its translation is held; none where it fails. -/
def State.destsOf (s : State) (n : Nat) (e : Elem) : Option (List Nat) :=
  match s.translateRange n e.va e.len kWrite with
  | .ok ps => some (ps.map (fun p => if isWindow p.1 then farPkg p.1 else s.pkgid))
  | .code _ _ => some []
  | .miss _ => none

/-- R241: the XPOSTs of one queue to one package are performed in issue order: no element of an earlier one that is left goes to a
package of this one's next element. -/
def State.postTurn (s : State) (n t : Nat) (c : Cmd) : Bool :=
  c.kind != .xpost || (c.elems.head?.bind (s.destsOf n)).all (fun ds =>
    (s.tileAt n t).cmds.all (fun k => k.kind != .xpost || decide (c.order ≤ k.order) ||
      k.elems.all (fun x => (s.destsOf n x).any (fun bs => bs.all (fun b => !ds.contains b)))))

/-- The bytes that an element writes: of a byte with one nibble outside the tensor only the low nibble (R84, R220). -/
def State.outBytes (s : State) (n : Nat) (e : Elem) : List Byte :=
  if e.half then
    match s.translate n e.va kWrite with
    | .pa a => if isWindow a then e.data else (e.data.zip (s.rdPhys a e.len)).map (fun p => (p.1 &&& 0x0F) ||| (p.2 &&& 0xF0))
    | _ => e.data
  else e.data

/-- Writing half a byte reads its line first: R319. -/
def State.meetHalf (s : State) (n : Nat) (e : Elem) : State :=
  if e.half then
    match s.translate n e.va kWrite with
    | .pa a => if isWindow a then s else s.fixLines (some n) a e.len
    | _ => s
  else s

/-- One element of CPOUT, a write-back or XPOST is written, or fails. -/
def State.performOut (s : State) (n t : Nat) (c : Cmd) : State :=
  match c.elems with
  | [] => s.endCopy n t c
  | e :: rest =>
    let free := match s.translateRange n e.va e.len kWrite with
      | .ok ps => s.inTurn n t c ps
      | _ => true
    match s.cwWait n t c with
    | some u => u
    | none =>
      if !free || !s.postTurn n t c then s
      else
        let c1 := { c with elems := rest }
        let u := s.meetHalf n e
        let r := u.gwrite (s.tileDie n t) n e.va (u.outBytes n e) e.bad
        match r.2 with
        | .wait => r.1
        | .code k => r.1.stepCopy n t (c1.fail e.ix k)
        | .done _ =>
          -- the bytes of a poisoned line do not complete the status word: the StatusWrite of POISON does (R215, R318)
          ((if e.bad.isEmpty then r.1.countBytes n t c e.len else r.1).countCw n t c e.len).stepCopy n t
            (if e.bad.isEmpty then c1 else c1.fail e.ix 1)

/-- BYTES_PERFORMED (R63): one element of a copy, or first the arm of its completion word. -/
def execBytesPerformed (n t id : Nat) (s : State) : Host.Outcome State Fault Refusal :=
  .next (match s.cmdAt n t id with
    | none => s
    | some c =>
      match c.cw, c.cwArmed with
      | some va, none => s.armCw n t c va
      | _, _ =>
        match c.kind with
        | .cpin | .cpslot | .xfetch => s.performIn n t c
        | .cpout | .xpost => s.performOut n t c
        | _ => s)

/-! ## Record fetches (R214, R229) -/

/-- R67: the read of a record by queue `e` has its turn among the reads of the commands that come `before` it. -/
def State.recTurn (s : State) (n t e va : Nat) (before : Cmd → Bool) : Bool :=
  match s.translateRange n va 192 kRead with
  | .ok ps => s.queueClear n t e before ps
  | _ => true

/-- A record is read into the cache: the state, and the code or the wait. A record that is cached is not read again (R60). -/
def State.fetchRec (s : State) (n t e va : Nat) (before : Cmd → Bool) : State × Option Nat :=
  if ((s.tileAt n t).cached va).isSome then (s, some 0)
  else match (s.tileAt n t).cacheFree with
    | none => (s, some 7)
    | some i =>
      if !s.recTurn n t e va before then (s, none)
      else
        let r := s.gread (s.tileDie n t) n va 192
        match r.2 with
        | .wait => (r.1, none)
        | .code k => (r.1, some k)
        | .done bs => if recOk bs then (r.1.setTileAt n t ((r.1.tileAt n t).cacheAt i va bs), some 0) else (r.1, some 7)

/-- LAYOUT_RECORD_FETCH: the fetch of an engine, or of its oldest LRFLUSH with FETCH = 1, ends. -/
def execLayoutRecordFetch (n t eng : Nat) (s : State) : Host.Outcome State Fault Refusal :=
  .next (
    let x := s.tileAt n t
    match x.fetchOf eng with
    | some { va := va, done := none, .. } =>
      let r := s.fetchRec n t eng va (fun _ => true)
      match r.2 with
      | none => r.1
      | some 0 => r.1.setTileAt n t ((r.1.tileAt n t).setFetch eng none)
      | some k => r.1.setTileAt n t ((r.1.tileAt n t).setFetch eng (some { va := va, done := some k }))
    | _ =>
      match x.cmds.find? (fun c => c.eng == eng && c.kind == .fetch) with
      | none => s
      | some c =>
        if x.effs.any (fun e => e.2 == .uncache c.va) then s
        else
          let r := s.fetchRec n t eng c.va (fun k => decide (k.order < c.order))
          match r.2 with
          | none => r.1
          | some k => r.1.endAtRetire n t c k [])

/-! ## SYE operations (R68 to R73, R230, R232, R233, R246 to R248) -/

/-- The physical address of a sync object's byte: its page translates for the kind and is a home-SYE page. -/
def State.syncPa (s : State) (ctx va kind : Nat) : Xl :=
  match s.tlb.find? (fun e => e.ctx == ctx && e.covers va) with
  | none => s.translate ctx va kind
  | some e => if pteAtom e.pte == 0 then .code 2 else s.translate ctx va kind

/-- The seat of a region's tile. -/
def State.seat (s : State) (n t : Nat) : Seat :=
  let r := s.slot n
  { vif := r.vif, lid := r.lid, inst := r.inst, tile := t, quad := t / r.w / 2 * 2 ^ 16 + t % r.w / 2, die := s.tileDie n t }

/-- An agent of package `pkg` lies in the scope of a binding (R68): .tile, .quad and .region name parts of the binder's instance, the wider
scopes tiles of its job: .die those on the die where the BINDSO was performed, .pkg those on its package, .pod all. -/
def SoBind.admits (b : SoBind) (pkg world jobid : Nat) (a : Seat) : Bool :=
  let job := world == b.world && jobid == b.jobid
  let here := job && pkg == b.pkg
  let mine := here && a.vif == b.seat.vif && a.lid == b.seat.lid && a.inst == b.seat.inst
  match b.scope with
  | 1 => mine && b.seat.tile == a.tile
  | 2 => mine && b.seat.quad == a.quad
  | 3 => mine
  | 4 => here && b.seat.die == a.die
  | 5 => here
  | _ => job

/-- R68: the agent lies in the scope of the object at `pa`, or the object has no binding. -/
def State.inScope68 (s : State) (pa pkg world jobid : Nat) (a : Seat) : Bool :=
  let bs := s.sync.filter (fun b => b.obj == pa)
  bs.isEmpty || bs.any (fun b => b.admits pkg world jobid a)
/-- The same for a tile of a region of this package. -/
def State.inScopeOf (s : State) (pa n t : Nat) : Bool := s.inScope68 pa s.pkgid (s.slot n).world (s.slot n).jobid (s.seat n t)

/-- One ATOM at its SYE. -/
def State.doAtom (s : State) (n t : Nat) (c : Cmd) : State :=
  let free := match s.translate n c.va kAtomic with
    | .pa a => s.inTurn n t c [(a, c.size)]
    | _ => true
  if !free then s
  else
    let r := s.syeOp (s.tileDie n t) n c.va c.size (atomNew c.op c.size c.opd c.cmp)
    match r.2 with
    | .wait => r.1
    | .code k => if c.ret then r.1.endAtRetire n t c k [] else r.1.endCommand n t c k
    | .done bs =>
      if c.ret then r.1.endAtRetire n t c 0 [.sram c.eng c.base (leBytes 8 (leNat bs)), .bufFull c.buf]
      else (r.1.countBytes n t c c.size).endCommand n t c 0

/-- The lanes of one line of a vector atomic, in ascending order: one SyeOp. -/
def State.doLanes (s : State) (die ctx : Nat) (c : Cmd) : List (Nat × Nat) → State × Gm
  | [] => (s, .done [])
  | l :: r =>
    let x := s.syeOp die ctx l.1 c.size (fun old => atomNew c.op c.size l.2 0 old)
    match x.2 with
    | .done _ => x.1.doLanes die ctx c r
    | _ => x

/-- One line of a vector atomic at its SYE. -/
def State.doLine (s : State) (n t : Nat) (c : Cmd) : State :=
  let pick := s.choose c.elems.length
  match c.elems[pick.1]? with
  | none => s.endCommand n t c c.err
  | some e =>
    let free := match s.translate n e.va kAtomic with
      | .pa a => s.inTurn n t c [(a, 64)]
      | _ => true
    if !free then s
    else
      let c1 := { c with elems := c.elems.eraseIdx pick.1 }
      let r := pick.2.doLanes (s.tileDie n t) n c e.lanes
      let fin (u : State) (k : Cmd) : State := if k.elems.isEmpty then u.endCommand n t k k.err else u.setTileAt n t ((u.tileAt n t).putCmd k)
      match r.2 with
      | .wait => r.1
      | .code k => fin r.1 (c1.fail e.ix k)
      | .done _ => fin (r.1.countBytes n t c e.len) c1

/-- One ACQ at its SYE. The object of an ACQ or REL is the aligned 8-byte word that holds its first byte. Notes: log entry 34. -/
def State.doAcq (s : State) (n t : Nat) (c : Cmd) : State :=
  let give (u : State) (v : Nat) : State := u.endAtRetire n t c 0 [.sram c.eng c.base (leBytes 8 v), .bufFull c.buf]
  match s.syncPa n c.va kRead with
  | .miss => s.startWalk (s.tileDie n t) n c.va kRead
  | .code k => (s.dropFailed n c.va).endAtRetire n t c k []
  | .pa a =>
    if !s.readTurn n t c [(a, c.size)] then s
    else if isWindow a then
      -- the first value, from the arrival on, whose bit 63 is the one wanted: until then the home SYE of the word does not answer
      let r := s.remoteCode true
      let v := leNat ((List.range c.size).map (Config.remoteByte s.tick))
      if r.1 != 0 then r.2.endAtRetire n t c r.1 []
      else if c.kind = .acqCw && (bits v 63 1 == 1) != c.want then r.2
      else give r.2 v
    else if c.kind = .acq && !s.inScopeOf (a / 8 * 8) n t then s.endAtRetire n t c 3 []
    else
      let u := s.fixLines (some n) a c.size
      if !(u.linesIn a c.size 2).isEmpty then u.endAtRetire n t c 1 []
      else
        let v := leNat (u.rdPhys a c.size)
        if c.kind = .acqCw && (bits v 63 1 == 1) != c.want then u else give u v

/-- R233: no earlier REL of the CO queue has still to write the object. -/
def State.relTurn (s : State) (n t : Nat) (c : Cmd) (obj : Nat) : Bool :=
  (s.tileAt n t).cmds.all (fun k => k.kind != .rel || decide (c.order ≤ k.order) || !s.mayMeet n kWrite (k.va / 8 * 8, 8) [(obj, 8)])

/-- R69, R233: every earlier CO write to bytes bound to the object is performed, the earlier RELs of the queue to the object are, and
the object's own bytes are next in their queue's order. -/
def State.relReady (s : State) (n t : Nat) (c : Cmd) (obj : Nat) : Bool :=
  (s.before69 c).all (fun k => k.2.targets.all (fun r => !s.mayMeet k.1 k.2.writeKind r (s.boundTo obj))) &&
  s.relTurn n t c obj && s.inTurn n t c [(obj + c.va % 8, c.size)]

/-- One REL at its SYE, when its turn has come. -/
def State.doRel (s : State) (n t : Nat) (c : Cmd) : State :=
  match s.syncPa n c.va kWrite with
  | .miss => s.startWalk (s.tileDie n t) n c.va kWrite
  | .code k => (s.dropFailed n c.va).endCommand n t c k
  | .pa a =>
    if isWindow a then
      if !s.relReady n t c (a / 8 * 8) then s
      else
        let r := s.gwrite (s.tileDie n t) n c.va (leBytes c.size c.opd) []
        match r.2 with
        | .wait => r.1
        | .code k => r.1.endCommand n t c k
        | .done _ => (r.1.countBytes n t c c.size).endCommand n t c 0
    else if !s.inScopeOf (a / 8 * 8) n t then s.endCommand n t c 3
    else if !s.relReady n t c (a / 8 * 8) then s
    else if s.snapped (a / 4096) then s.holdPages [a / 4096]
    else ((s.syeWrite a (leBytes c.size c.opd) []).countBytes n t c c.size).endCommand n t c 0

/-- What remains of a binding when a physical range is taken out of it. -/
def SoBind.without (b : SoBind) (p : Nat × Nat) : List SoBind :=
  if b.hi ≤ p.1 ∨ p.1 + p.2 ≤ b.lo then [b]
  else (if b.lo < p.1 then [{ b with hi := p.1 }] else []) ++ (if p.1 + p.2 < b.hi then [{ b with lo := p.1 + p.2 }] else [])

def SoBind.meetsAny (b : SoBind) (ps : List (Nat × Nat)) : Bool := meets ps [(b.lo, b.hi - b.lo)]

/-- The bindings after a BINDSO to object `obj` at physical pieces `ps`, or the code that it completes with (R68, R230); `mk` is the
binding over one piece. -/
def State.bindings (s : State) (scope obj : Nat) (ps : List (Nat × Nat)) (mk : Nat × Nat → SoBind) : Except Nat (List SoBind) :=
  let mine := s.sync.filter (fun b => b.obj == obj && b.meetsAny ps)
  if scope = 0 then
    if mine.isEmpty then .error 9
    else .ok (s.sync.flatMap (fun b => if b.obj = obj then ps.foldl (fun bs p => bs.flatMap (fun x => x.without p)) [b] else [b]))
  else if s.sync.any (fun b => b.obj != obj && b.meetsAny ps) then .error 9
  else .ok (s.sync ++ ps.map mk)

/-- The binding that a BINDSO of a tile makes over one piece. -/
def State.bindOf (s : State) (n t : Nat) (c : Cmd) (p : Nat × Nat) : SoBind :=
  { lo := p.1, hi := p.1 + p.2, obj := c.opd, scope := c.scope, pkg := s.pkgid, world := (s.slot n).world, jobid := (s.slot n).jobid,
    seat := s.seat n t, slot := n }

/-- A page of a translated BINDSO, or its object, lies on another package, whose answer is waited for (R61). -/
def Cmd.bindFar (c : Cmd) : Bool := c.ret && (c.ranges.any (fun p => isWindow p.1) || (c.code == 0 && isWindow c.opd))

/-- What the other packages answer to a BINDSO: OK, OWNER by the POT check of a page (R61), or, where the object is theirs, RANGE. -/
def State.bindAnswer (s : State) (c : Cmd) : Nat × State :=
  if !c.bindFar then (0, s)
  else
    let f := s.free
    (match bits f.1.toNat 0 2 with
     | 1 => if c.code == 0 && isWindow c.opd then 9 else 0
     | 2 => 3
     | _ => 0, f.2)

/-- One BINDSO at the SYE of its object (R230), its checks in order; the translations are those of its issue. -/
def State.doBindso (s : State) (n t : Nat) (c : Cmd) : State :=
  if !c.bindAligned then s.endCommand n t c 9
  else if !c.ret then
    let x := s.bindTake (s.tileDie n t) n c
    x.1.setTileAt n t ((x.1.tileAt n t).putCmd x.2)
  else
    let f := s.bindAnswer c
    if f.1 != 0 then f.2.endCommand n t c f.1
    else if c.code != 0 then f.2.endCommand n t c c.code
    else match f.2.bindings c.scope c.opd c.ranges (f.2.bindOf n t c) with
      | .error k => f.2.endCommand n t c k
      | .ok bs => (({ f.2 with sync := bs }).countBytes n t c 1).endCommand n t c 0

/-- SYE_OPERATION: the next operation of a command reaches its home SYE. -/
def execSyeOperation (n t id : Nat) (s : State) : Host.Outcome State Fault Refusal :=
  .next (match s.cmdAt n t id with
    | none => s
    | some c =>
      match c.kind with
      | .atom => s.doAtom n t c
      | .vatom => s.doLine n t c
      | .acq | .acqCw => s.doAcq n t c
      | .rel => if c.remote then s else if s.relFar n c then s.setTileAt n t ((s.tileAt n t).putCmd { c with remote := true }) else s.doRel n t c
      | .bindso => s.doBindso n t c
      | _ => s)

/-- REL_FENCE_RELEASE (R70): the last switch lets a fabric REL through, once the bound writes before it are performed. -/
def execRelFenceRelease (n t id : Nat) (s : State) : Host.Outcome State Fault Refusal :=
  .next (match s.cmdAt n t id with
    | none => s
    | some c => if c.kind = .rel then s.doRel n t c else s)

/-! ## Remote timeouts (R70, R170, R232, R240) -/

/-- The command waits on another package (R61, R70, R240), or is an ACQ.cw (R232). -/
def State.waitsRemote (s : State) (n : Nat) (c : Cmd) : Bool :=
  let far (va kind : Nat) : Bool := match s.translate n va kind with
    | .pa a => isWindow a
    | _ => false
  let cwFar := c.cwArmed.isNone && c.cw.any (fun va => far va kAtomic)
  match c.kind with
  | .acqCw => true
  | .coll | .rel => c.remote
  | .xpost | .cpout => c.elems.any (fun e => far e.va kWrite) || cwFar
  | .xfetch | .cpin | .cpslot => c.elems.any (fun e => far e.va kRead) || cwFar
  | .acq => far c.va kRead
  | .atom => far c.va kAtomic
  | .vatom => c.elems.any (fun e => e.lanes.any (fun l => far l.1 kAtomic))
  | .bindso => c.bindFar
  | .fetch => far c.va kRead

/-- A copy in is given up: what it has not yet performed fails, and it ends with TIMEOUT. -/
def State.giveUpIn (s : State) (n t : Nat) (c : Cmd) : State :=
  let f := c.elems.foldl (fun (u : State × Cmd) e => u.1.failIn n t u.2 e) (s, c)
  f.1.endCopy n t { f.2 with elems := [], err := 4 }

/-- The number of the .pod barrier that SQ of a tile waits at, if it does. -/
def State.podWait (s : State) (n t : Nat) : Option Nat :=
  match (s.tileAt n t).peekSq with
  | some (_, .bar 6 _) => some ((s.slot n).barCount t 6 + 1)
  | _ => none

/-- A fetch of an engine, through a window, has waited for another package past its deadline: it ends with TIMEOUT (R61, R214). -/
def State.fetchTimeout (s : State) (n t e : Nat) : State :=
  match (s.tileAt n t).fetchOf e with
  | none => s
  | some f =>
    let far := match s.translate n f.va kRead with
      | .pa a => isWindow a
      | _ => false
    if far && f.done.isNone && f.deadline ≤ s.tb then s.setTileAt n t ((s.tileAt n t).setFetch e (some { f with done := some 4 })) else s

/-- SQ of a tile has waited at a .pod barrier past its deadline (R170). -/
def State.podTimeout (s : State) (n t : Nat) : State :=
  if (s.tileAt n t).podDue.any (fun d => decide (d ≤ s.tb)) then s.setTileAt n t { s.tileAt n t with bgate := s.podWait n t } else s

/-- REMOTE_TIMEOUT: a command's wait, or (a number that no command has) a tile's record fetches and the wait of its SQ at a .pod
barrier, whose time has passed. -/
def execRemoteTimeout (n t id : Nat) (s : State) : Host.Outcome State Fault Refusal :=
  .next (match s.cmdAt n t id with
    | some c =>
      if s.waitsRemote n c && c.deadline ≤ s.tb then
        match c.kind with
        | .acq | .acqCw | .coll | .fetch => s.endAtRetire n t c 4 []
        | .atom => if c.ret then s.endAtRetire n t c 4 [] else s.endCommand n t c 4
        | .xfetch | .cpin | .cpslot => s.giveUpIn n t c
        | _ => s.endCommand n t c 4
      else s
    | none => ((s.fetchTimeout n t 1).fetchTimeout n t 2).podTimeout n t)

/-! ## Host atomics (R72, R373) -/

/-- HOST_REMOTE_ATOMIC: fetch-add (0), swap (1) or compare-and-swap (2) of an aligned 8-byte word of a page with ATOM = 10. -/
def execHostRemoteAtomic (va op opd cmp vif : Nat) (s : State) : Host.Outcome State Fault Refusal :=
  .next (
    let ctx := vifCtx vif
    let no (u : State) : State := { u with outbox := u.outbox ++ [.uec vif false 0] }
    if !s.serves then s
    else match s.tlb.find? (fun e => e.ctx == ctx && e.covers va) with
    | none => if va < 2 ^ 56 then s.startWalk 0 ctx va kAtomic else no s
    | some e =>
      if pteAtom e.pte != 2 || va % 8 != 0 || 3 ≤ op then no (s.dropFailed ctx va)
      else
        let f (old : Nat) : Option Nat := match op with
          | 0 => some ((old + opd) % 2 ^ 64)
          | 1 => some (opd % 2 ^ 64)
          | _ => if old = cmp % 2 ^ 64 then some (opd % 2 ^ 64) else none
        let r := s.syeOp 0 ctx va 8 f
        match r.2 with
        | .wait => r.1
        | .code _ => no r.1
        | .done bs => { r.1 with outbox := r.1.outbox ++ [.uec vif true (leNat bs)] })

end Sys2Proof.Machine
end

