-- ==== Sys2Proof/Machine/Exchange.lean ====
section
/-! DEFINITION. Exchange between the tiles of a region: routes, links, SEND, RECV, SENDK, RECVK and the arrival of transfers (R16, R18, R20, R21, R24, R234 to R239). -/
namespace Sys2Proof.Machine

/-! ## Routes (R16, R18, R20, R21) -/

def signOf (i : Int) : Int := if i < 0 then -1 else if i = 0 then 0 else 1

/-- A hop between neighbouring abstract positions. -/
structure Hop where
  x : Int
  y : Int
  dx : Int
  dy : Int
deriving DecidableEq, Repr

/-- R20: the hops of a route, those of x first. -/
def route (x y dx dy : Int) : List Hop :=
  (List.range dx.natAbs).map (fun i => { x := x + signOf dx * i, y := y, dx := signOf dx, dy := 0 }) ++
  (List.range dy.natAbs).map (fun i => { x := x + dx, y := y + signOf dy * i, dx := 0, dy := signOf dy })

def Slot.inside (r : Slot) (x y : Int) : Bool := decide (0 ≤ x) && decide (x < r.w) && decide (0 ≤ y) && decide (y < r.h)
/-- The tile index of an abstract position. -/
def Slot.tileNo (r : Slot) (x y : Int) : Nat := (y * r.w + x).toNat

/-- The bit of a capability mask that declares a link in an abstract direction (Table 1.3). -/
def capBit (dx dy : Int) : Nat := if dy < 0 then 2 else if 0 < dx then 3 else if 0 < dy then 4 else 5

/-- R18: the masks at both ends of a hop declare its link. -/
def Slot.hopDeclared (r : Slot) (h : Hop) : Bool :=
  let m (x y : Int) : Nat := (Store.get {} (r.tileNo x y) r.imgs).mask
  !r.inside h.x h.y ||
  (bits (m h.x h.y) (capBit h.dx h.dy) 1 == 1 &&
   (!r.inside (h.x + h.dx) (h.y + h.dy) || bits (m (h.x + h.dx) (h.y + h.dy)) (capBit (-h.dx) (-h.dy)) 1 == 1))

/-- The physical tiles at the two ends of a hop inside the region. -/
def Slot.hopEnds (r : Slot) (h : Hop) : Nat × Nat := (r.phys (r.tileNo h.x h.y), r.phys (r.tileNo (h.x + h.dx) (h.y + h.dy)))

/-- The seam segment between two neighbouring physical tiles (R21, R321): 0 to 5 column seams, 6 to 9 row seams. -/
def seamOf (a b : Nat) : Option Nat :=
  let xa := a % Config.gridW
  let xb := b % Config.gridW
  let ya := a / Config.gridW
  let yb := b / Config.gridW
  if xa ≠ xb then
    let x := Nat.max xa xb
    if x % 14 = 0 then some (2 * (x / 14 - 1) + ya / 12) else none
  else if Nat.max ya yb = 12 ∧ ya ≠ yb then some (6 + xa / 14) else none

/-- R20: the cost of a hop. -/
def State.hopCost (s : State) (r : Slot) (h : Hop) : Nat :=
  match seamOf (r.hopEnds h).1 (r.hopEnds h).2 with
  | some i => Store.get 0 i s.seamLat
  | none => 2

/-- The number of one direction of a physical link. -/
def linkKey (p : Nat × Nat) : Nat := p.1 * 2048 + p.2

/-- R234: the links of a route with the first and last cycle of their occupation, from cycle `c` for `u` cycles each. -/
def State.occupy (s : State) (r : Slot) (u : Nat) : Nat → List Hop → List (Nat × Nat × Nat)
  | _, [] => []
  | c, h :: q => (linkKey (r.hopEnds h), c, c + u - 1) :: s.occupy r u (c + s.hopCost r h) q

/-- R235: no link of an occupation is taken in one of its cycles. -/
def linksFree (held want : List (Nat × Nat × Nat)) : Bool :=
  want.all (fun w => held.all (fun l => l.1 != w.1 || decide (l.2.2 < w.2.1) || decide (w.2.2 < l.2.1)))

/-! ## SEND and SENDK (R234 to R237, R239) -/

/-- TOPD1 of an OWNER trap (Table 18.3). -/
def ownerTrap (o : Exch) : Trap := { cause := .owner, opd1 := field 8 o.dx * 256 + field 8 o.dy }

def State.myX (s : State) : Int := (s.cur.tile % s.region.w : Nat)
def State.myY (s : State) : Int := (s.cur.tile / s.region.w : Nat)
/-- The tile at a displacement of the current one lies in the region. -/
def State.peerIn (s : State) (o : Exch) : Bool := s.region.inside (s.myX + o.dx) (s.myY + o.dy)
def State.peer (s : State) (o : Exch) : Nat := s.region.tileNo (s.myX + o.dx) (s.myY + o.dy)

/-- A run of ReadBuf or WriteBuf checks over `k` elements of `n` bytes. -/
def elemOffs (off n k : Nat) : List Nat := (List.range k).map (fun i => off + n * i)

/-- The shape of SEND and SENDK: `k` elements of `n` bytes, sent as words; not before an earlier RECV of the queue has written them (R65).
The OVERRUN of a taken link (R235) stands between OWNER and ReadBuf. Notes: log entry 29. -/
def State.sendOrder (s : State) (c : Ctl) (o : Exch) (rank : Bool) (off n k : Nat) (nwords : Nat) (pack : List Nat → List Code) :
    Host.Outcome State Fault Refusal :=
  let r := s.region
  let hops := route s.myX s.myY o.dx o.dy
  let u := ceilDiv nwords 32
  let occ := if s.peerIn o then s.occupy r u (s.now + 1) hops else []
  let clear := linksFree r.links occ
  .next (s.engineOrder { ctl := c, pre := if hops.all r.hopDeclared then none else some ill,
                         free := !s.pending 5 o.buf off (n * k), met := s.ctile.timed || clear } (fun a =>
    if !a.peerIn o then .error (ownerTrap o)
    else if !clear then .error (overrun 5 a.now)
    else match (elemOffs off n k).mapM (fun x => a.readBuf 5 o.buf x n) with
      | .error t => .error t
      | .ok bs =>
        let b := a.correct 3 ((a.decl o.buf).addr off) (n * k)
        let x : Xfer := { src := b.cur.tile, dst := b.peer o, seq := b.ctile.nxseq, rank := rank, km1 := if rank then k - 1 else 0,
                          words := pack (bs.map leNat), avail := b.now + 2 + (hops.map (b.hopCost r)).sum + u - 1 }
        let d := b.setCtile { b.ctile with nxseq := (b.ctile.nxseq + 1) % 2 ^ 32 }
        let q := d.region
        .ok (d.setRegion { q with flying := q.flying ++ [x], links := q.links.filter (fun l => d.now ≤ l.2.2) ++ occ }, { retire := some d.now })))

/-- SEND (R236, R237). -/
def execSend (c : Ctl) (o : Exch) (s : State) : Host.Outcome State Fault Refusal :=
  s.sendOrder c o false (4 * o.off) 4 (o.n1 + 1) (o.n1 + 1) (fun ws => ws.map (BitVec.ofNat 32))

/-- R239: every index after the first 0xFFFF is sent as 0xFFFF. -/
def rankTail : List Nat → List Nat
  | [] => []
  | i :: r => if i = 0xFFFF then List.replicate (r.length + 1) 0xFFFF else i :: rankTail r

/-- Two indices to a word, the padding index 0xFFFF. -/
def rankWords : List Nat → List Code
  | [] => []
  | [i] => [BitVec.ofNat 32 (i + 2 ^ 16 * 0xFFFF)]
  | i :: j :: r => BitVec.ofNat 32 (i + 2 ^ 16 * j) :: rankWords r

/-- SENDK (R239). -/
def execSendk (c : Ctl) (o : Exch) (s : State) : Host.Outcome State Fault Refusal :=
  s.sendOrder c o true (512 * o.off) 2 (o.n1 + 1) (ceilDiv (o.n1 + 1) 2) (fun is => rankWords (rankTail is))

/-! ## RECV and RECVK (R238, R239) -/

/-- Remove the first transfer of a source from a hold. -/
def takeFrom (src : Nat) : List Xfer → List Xfer
  | [] => []
  | x :: r => if x.src = src then r else x :: takeFrom src r

/-- The shape of RECV and RECVK: `k` elements of `n` bytes; `fits` the transfer's kind and size. -/
def State.recvOrder (s : State) (c : Ctl) (o : Exch) (off n k : Nat) (fits : Xfer → Bool) (unpack : Xfer → List Byte) :
    Host.Outcome State Fault Refusal :=
  let first (a : State) : Option Xfer := a.ctile.hold.find? (fun x => x.src == a.peer o)
  .next (s.engineOrder { ctl := c, met := !s.peerIn o || (first s).isSome } (fun a =>
    if !a.peerIn o then .error (ownerTrap o)
    else match first a with
      | none => .error (overrun 3 a.now)
      | some x =>
        if !fits x then .error { cause := .token, opd1 := 30 + x.src * 2 ^ 48 }
        else match firstTrap (fun y => a.chkWrite 5 o.buf y n) (elemOffs off n k) with
          | some t => .error t
          | none =>
            let b := a.setCtile { a.ctile with hold := takeFrom (a.peer o) a.ctile.hold }
            .ok (b.laterWrite o.buf off (b.now + 1) (unpack x), { retire := some (b.now + 1) })))

/-- RECV (R238). -/
def execRecv (c : Ctl) (o : Exch) (s : State) : Host.Outcome State Fault Refusal :=
  s.recvOrder c o (4 * o.off) 4 (o.n1 + 1) (fun x => !x.rank && x.words.length == o.n1 + 1) (fun x => x.words.flatMap (fun w => leBytes 4 w.toNat))

/-- RECVK (R239): the padding index of an odd K is not written. -/
def execRecvk (c : Ctl) (o : Exch) (s : State) : Host.Outcome State Fault Refusal :=
  s.recvOrder c o (512 * o.off) 2 (o.n1 + 1) (fun x => x.rank && x.km1 == o.n1)
    (fun x => (x.words.flatMap (fun w => leBytes 4 w.toNat)).take (2 * (o.n1 + 1)))

/-! ## Arrivals (R238, R290, R313) -/

/-- The order in which the transfers of one cycle enter a hold: ascending REM for restored ones, then source, then sequence. -/
def Xfer.before (a b : Xfer) : Bool :=
  if a.restored && b.restored && a.rem != b.rem then decide (a.rem < b.rem)
  else if a.src != b.src then decide (a.src < b.src) else decide (a.seq ≤ b.seq)

def insertXfer (x : Xfer) : List Xfer → List Xfer
  | [] => [x]
  | y :: r => if x.before y then x :: y :: r else y :: insertXfer x r

/-- The transfers that have become available at tile `t`, in their order of entry. -/
def Slot.arrived (r : Slot) (t : Nat) : List Xfer :=
  (r.flying.filter (fun x => x.dst == t && x.avail ≤ r.rcc)).foldl (fun l x => insertXfer x l) []

/-- One transfer enters a tile's hold, or finds it full and is discarded: TOKEN, which names engine NX and its step counter (R290). Beside the
trap of an order of the tile in the same cycle it ranks as one of engine 5 and sets MORE. Notes: log entry 8. -/
def Tile.enter (t : Tile) (x : Xfer) : Tile :=
  if t.hold.length < 16 then { t with hold := t.hold ++ [x] }
  else if t.trapNow.any (fun r => r.cause == .token && r.eng == 5 && r.opd0 == 0) then t
  else t.record { cause := .token, eng := 5, step := (t.eng 5).pc, opd0 := 0, opd1 := BitVec.ofNat 64 (31 + x.src * 2 ^ 48) }

/-- TRANSFER_ARRIVAL: the transfers of this cycle enter the hold of a tile. -/
def State.arrivals (s : State) (n t : Nat) : State :=
  let r := s.slot n
  let s1 := s.setTileAt n t ((r.arrived t).foldl Tile.enter (s.tileAt n t))
  s1.setSlot n { r with flying := r.flying.filter (fun x => !(x.dst == t && x.avail ≤ r.rcc)) }

def execTransferArrival (n t : Nat) (s : State) : Host.Outcome State Fault Refusal := .next (s.arrivals n t)

end Sys2Proof.Machine
end

