-- ==== Sys2Proof/Machine/Causal.lean ====
section
/-! DEFINITION. Happens-before as far as the reads of global memory that are still in hand go (R65, R66, R67): which orders each of them comes before. Notes: log entry 61. -/
namespace Sys2Proof.Machine

/-! ## Reads known at a place -/

/-- The reads in hand that happen before what comes after a place. -/
def State.readsAt (s : State) (x : Site) : List Nat := (s.hb.filter (fun p => p.2 == x)).map (·.1)
/-- Reads happen before what comes after a place. -/
def State.know (s : State) (rs : List Nat) (x : Site) : State :=
  { s with hb := s.hb ++ (rs.filter (fun r => !s.hb.contains (r, x))).eraseDups.map (fun r => (r, x)) }
/-- A place starts afresh. -/
def State.clearSite (s : State) (x : Site) : State := { s with hb := s.hb.filter (fun p => p.2 != x) }
/-- What happens before one place happens before another. -/
def State.flows (s : State) (a b : Site) : State := s.know (s.readsAt a) b
/-- What happens before any of some places happens before each of others. -/
def State.joins (s : State) (xs ys : List Site) : State := ys.foldl (fun u y => u.know (xs.flatMap s.readsAt) y) s

/-- The queues of the engines of a tile that a mask names. -/
def queues (n t mask : Nat) : List Site := ((List.range 6).filter (fun e => bits mask e 1 == 1)).map (fun e => .queue n t e)

/-! ## The edges of an order as it issues -/

/-- The token that engine `e` has popped brings what the order that pushed it comes after. -/
def State.popKnown (s u : State) (n t e : Nat) : State :=
  ((List.range 6).filter (fun p => p != e && decide ((u.tileAt n t).token p e < (s.tileAt n t).token p e))).foldl (fun v p =>
    let w := v.flows (.token n t (fifo p e) 0) (.queue n t e)
    { w with hb := w.hb.filterMap (fun x => match x with
      | (r, .token m q i k) => if m = n ∧ q = t ∧ i = fifo p e then (if k = 0 then none else some (r, .token m q i (k - 1))) else some x
      | _ => some x) }) u

/-- BAR (R66): what a participant has issued before its barrier happens before what follows the barrier in this tile: of one that has issued
its barrier already, what stood before it, and of one that is about to, what it has issued so far. -/
def State.barKnown (s : State) (n t scope : Nat) : State :=
  let c := (s.slot n).barCount t scope
  let from' (q : Nat × Nat) : List Site :=
    if q != (n, t) && c ≤ (s.slot q.1).barCount q.2 scope then [.barrier q.1 q.2 scope] else queues q.1 q.2 63
  let u := s.joins (queues n t 63) [.barrier n t scope]
  u.joins ((u.participants n t scope).flatMap from') (queues n t 63)

/-- What the word itself brings: BAR, SEG and QFENCE (R65, R66), the status words that SQ reads, and RECV. A .pod barrier that has timed out
makes no edge (R170). -/
def State.wordKnown (s u : State) (n t : Nat) : Instr → State
  | .bar scope _ =>
    if scope = 1 then u.joins (queues n t 63) (queues n t 63)
    else if scope = 6 ∧ (s.tileAt n t).bgate.isSome then u.clearSite (.barrier n t 6)
    else (u.clearSite (.barrier n t scope)).barKnown n t scope
  | .seg _ => u.joins (queues n t 63) (queues n t 63)
  | .qfence _ m | .qfenceCico _ _ m => u.joins (queues n t m) (queues n t m)
  | .waitcw sw _ => u.flows (.status n t sw) (.queue n t 0)
  | .srd _ reg => if 0x100 ≤ reg ∧ reg ≤ 0x11F then u.flows (.status n t (reg - 0x100)) (.queue n t 0) else u
  | .recv _ _ | .recvk _ _ =>
    match (s.tileAt n t).hold.find? (fun x => !(u.tileAt n t).hold.contains x) with
    | some x => u.flows (.transfer n x.src x.seq) (.queue n t 5)
    | none => u
  | _ => u

/-- What an order that has issued takes over, and what comes after it: its commands, its token, its transfer (R65, R66). -/
def State.orderKnown (s u : State) (n t e : Nat) : State :=
  let x := s.tileAt n t
  let y := u.tileAt n t
  let v := (y.cmds.filter (fun c => decide (s.cmdSeq ≤ c.order))).foldl (fun (w : State) c =>
    let a := w.flows (.queue n t e) (.command c.order)
    if c.reads.isEmpty then a else a.know [c.order] (.queue n t e)) u
  let z := (y.flights.filter (fun f => decide (x.nextId ≤ f.id) && f.push.isSome)).foldl (fun (w : State) f => w.flows (.queue n t e) (.flight n t f.id)) v
  if y.nxseq = x.nxseq then z else z.flows (.queue n t 5) (.transfer n t x.nxseq)

/-- The look of engine `e` has issued a word. -/
def State.hasIssued (s u : State) (n t e : Nat) : Bool :=
  let x := s.tileAt n t
  let y := u.tileAt n t
  (y.eng e).tprev == (u.slot n).rcc && ((x.eng e).tprev != (u.slot n).rcc || (y.eng e).step != (x.eng e).step)

/-- What comes before what, after a look of engine `e` that led from `s` to `u`; `i` is the word that it fetched. -/
def State.lookKnown (s u : State) (n t e : Nat) (i : Option Instr) : State :=
  if !s.hasIssued u n t e then u
  else
    let v := s.popKnown u n t e
    let w := match i with
      | some i => s.wordKnown v n t i
      | none => v
    s.orderKnown w n t e

/-! ## The edges of what happens after the issue -/

/-- Tokens that retiring orders have pushed, in the order of the retirements. -/
def State.pushKnown (s u : State) (n t : Nat) : State :=
  let x := s.tileAt n t
  let left := x.flights.filter (fun f => f.push.isSome && (u.tileAt n t).flights.all (fun g => g.id != f.id))
  (left.foldl (fun (p : State × Tile) f =>
    match f.push with
    | some c => (p.1.flows (.flight n t f.id) (.token n t (fifo f.eng c) (p.2.token f.eng c)), p.2.pushToken f.eng c)
    | none => p) (u, x)).1

/-- The reads that happen before the REL that wrote every one of `k` bytes (R69): an ACQ that returns them comes after it. -/
def State.releasedAt (s : State) (a k : Nat) : List Nat :=
  (s.hb.filter (fun p => match p.2 with
    | .released b o => b == a && (List.range k).all (fun i => s.hb.contains (p.1, .released (a + i) o))
    | _ => false)).map (·.1)

/-- A command has ended: its status word and its completion word tell it (R66), a REL leaves its bytes, an ACQ takes what they bring,
and an ACQ.cw, which synchronises with no REL, what the completion word tells (R69, R232). -/
def State.endKnown (u : State) (n t : Nat) (c : Cmd) : State :=
  let v := u.flows (.command c.order) (.status n t c.sw)
  let w := match c.cw.map (fun va => u.translate n va kAtomic) with
    | some (.pa a) => v.flows (.command c.order) (.completion a)
    | _ => v
  match c.kind, u.translate n c.va (if c.kind = .rel then kWrite else kRead) with
  | .rel, .pa a =>
    if u.rdPhys a c.size != leBytes c.size c.opd then w
    else
      let bs := (List.range c.size).map (a + ·)
      let z := { w with hb := w.hb.filter (fun p => match p.2 with
        | .released b _ => !bs.contains b
        | _ => true) }
      bs.foldl (fun y b => y.flows (.command c.order) (.released b c.order)) z
  | .acq, .pa a | .acqCw, .pa a =>
    let rs := (if c.kind = .acq then w.releasedAt a c.size else []) ++ (if a % 8 + c.size = 8 then w.readsAt (.completion (a / 8 * 8)) else [])
    let z := w.know rs (.queue n t c.eng)
    match c.flight with
    | some f => z.know rs (.flight n t f)
    | none => z
  | _, _ => w

/-- What comes before what, after a step from `s` to `u` in which no word issued: the tokens pushed, the commands ended; bytes that have
changed are no longer as a REL wrote them, and reads that are made are forgotten. -/
def State.doneKnown (s u : State) : State :=
  if u.hb.isEmpty then u
  else
    let u1 := s.seats.foldl (fun (v : State) q => s.pushKnown v q.1 q.2) u
    let u2 := { u1 with hb := u1.hb.filter (fun p => match p.2 with
      | .released b _ => Store.get 0 b s.mem == Store.get 0 b u.mem
      | _ => true) }
    let u3 := s.seats.foldl (fun (v : State) q =>
      ((s.tileAt q.1 q.2).cmds.filter (fun c => (u.tileAt q.1 q.2).cmds.all (fun k => k.id != c.id))).foldl (fun (w : State) c => w.endKnown q.1 q.2 c) v) u2
    { u3 with hb := u3.hb.filter (fun p => u.inHand.any (fun k => k.2.order == p.1 && !k.2.reads.isEmpty)) }

end Sys2Proof.Machine
end

