-- ==== Sys2Proof/Machine/Gcm.lean ====
section
/-! DEFINITION. AES-256-GCM, the cipher of bounce frames (R366). The spec names the algorithm; its steps are those of FIPS 197 and SP 800-38D: PRESUMED, log entry 39. -/
namespace Sys2Proof.Machine

/-! ## AES-256 on bytes as numbers -/

/-- The product of two bytes modulo x^8 + x^4 + x^3 + x + 1. -/
def gfByte (a b : Nat) : Nat :=
  ((List.range 8).foldl (fun (z : Nat × Nat) i =>
    (if b.testBit i then z.1 ^^^ z.2 else z.1, if z.2 < 128 then 2 * z.2 else (2 * z.2) ^^^ 0x11B)) (0, a)).1
/-- The inverse of a byte, its power 254; 0 for 0. -/
def gfInverse (a : Nat) : Nat :=
  ((List.range 7).foldl (fun (z : Nat × Nat) _ => (gfByte z.1 z.1, gfByte z.2 (gfByte z.1 z.1))) (a, 1)).2
def rotByte (x k : Nat) : Nat := x * 2 ^ k % 256 + x / 2 ^ (8 - k)
/-- The substitution box. -/
def aesSub (a : Nat) : Nat :=
  let x := gfInverse a
  x ^^^ rotByte x 1 ^^^ rotByte x 2 ^^^ rotByte x 3 ^^^ rotByte x 4 ^^^ 0x63

def xorList (a b : List Nat) : List Nat := List.zipWith (· ^^^ ·) a b

/-- The next word of the key schedule, the `i`-th. -/
def aesNextWord (ws : List (List Nat)) (i : Nat) : List Nat :=
  let w := ws.getD (i - 1) []
  let t := if i % 8 = 0 then xorList ((w.drop 1 ++ w.take 1).map aesSub) [2 ^ (i / 8 - 1), 0, 0, 0] else if i % 8 = 4 then w.map aesSub else w
  xorList (ws.getD (i - 8) []) t
/-- The 60 words of the key schedule of a 32-byte key. -/
def aesSchedule (key : List Nat) : List (List Nat) :=
  (List.range 52).foldl (fun ws i => ws ++ [aesNextWord ws (i + 8)]) ((List.range 8).map (fun i => (key.drop (4 * i)).take 4))

/-- A block is 16 bytes, column by column. -/
def aesShiftRows (b : List Nat) : List Nat := (List.range 16).map (fun i => b.getD ((i + 4 * (i % 4)) % 16) 0)
def aesMixColumns (b : List Nat) : List Nat :=
  (List.range 16).map (fun i =>
    let a (k : Nat) : Nat := b.getD (i / 4 * 4 + (i + k) % 4) 0
    gfByte (a 0) 2 ^^^ gfByte (a 1) 3 ^^^ a 2 ^^^ a 3)
/-- The 14 rounds of AES-256 on one block. -/
def aesBlock (ws : List (List Nat)) (b : List Nat) : List Nat :=
  let key (r : Nat) : List Nat := ((ws.drop (4 * r)).take 4).flatten
  let mid := (List.range 13).foldl (fun x r => xorList (aesMixColumns (aesShiftRows (x.map aesSub))) (key (r + 1))) (xorList b (key 0))
  xorList (aesShiftRows (mid.map aesSub)) (key 14)

/-! ## GCM -/

/-- A number from bytes, the first the most significant, and its bytes. -/
def beNat (bs : List Nat) : Nat := bs.foldl (fun m b => 256 * m + b) 0
def beBytes (n v : Nat) : List Nat := (List.range n).map (fun i => v / 256 ^ (n - 1 - i) % 256)

/-- The product of two blocks modulo x^128 + x^7 + x^2 + x + 1; the first bit of a block is the coefficient of 1. -/
def gfBlock (x y : Nat) : Nat :=
  ((List.range 128).foldl (fun (z : Nat × Nat) i =>
    (if x.testBit (127 - i) then z.1 ^^^ z.2 else z.1, if z.2 % 2 = 0 then z.2 / 2 else (z.2 / 2) ^^^ (0xE1 * 2 ^ 120))) (0, y)).1

/-- The 16-byte blocks of a byte string, the last one filled with zeros. -/
def blocksOf (bs : List Nat) : List (List Nat) :=
  (List.range ((bs.length + 15) / 16)).map (fun i => let b := (bs.drop (16 * i)).take 16; b ++ List.replicate (16 - b.length) 0)

/-- GHASH of the associated data and the ciphertext. -/
def ghash (h : Nat) (aad ct : List Nat) : Nat :=
  (blocksOf aad ++ blocksOf ct ++ [beBytes 8 (8 * aad.length) ++ beBytes 8 (8 * ct.length)]).foldl (fun y b => gfBlock (y ^^^ beNat b) h) 0

/-- The key stream over `n` bytes under a 12-byte initialisation vector: counter blocks from 2 on. -/
def gcmStream (ws : List (List Nat)) (iv : List Nat) (n : Nat) : List Nat :=
  ((List.range ((n + 15) / 16)).flatMap (fun i => aesBlock ws (iv ++ beBytes 4 (i + 2)))).take n
/-- The tag of a ciphertext: counter block 1 hides the hash. -/
def gcmTag (ws : List (List Nat)) (iv aad ct : List Nat) : List Nat :=
  xorList (beBytes 16 (ghash (beNat (aesBlock ws (List.replicate 16 0))) aad ct)) (aesBlock ws (iv ++ beBytes 4 1))

def numbers (bs : List Byte) : List Nat := bs.map BitVec.toNat
/-- The key schedule of a 256-bit key, whose byte 0 is its least significant one. -/
def gcmKey (key : Nat) : List (List Nat) := aesSchedule (numbers (leBytes 32 key))
/-- Bytes under the key stream: encryption and decryption. -/
def gcmText (key : Nat) (iv text : List Byte) : List Byte :=
  (xorList (numbers text) (gcmStream (gcmKey key) (numbers iv) text.length)).map (BitVec.ofNat 8)
/-- The 16 bytes of the tag over associated data and ciphertext. -/
def gcmTagOf (key : Nat) (iv aad ct : List Byte) : List Byte := (gcmTag (gcmKey key) (numbers iv) (numbers aad) (numbers ct)).map (BitVec.ofNat 8)

/-- Ciphertext and tag of a plaintext. -/
def gcmSeal (key : Nat) (iv aad plain : List Byte) : List Byte := gcmText key iv plain ++ gcmTagOf key iv aad (gcmText key iv plain)
/-- The plaintext of a ciphertext with its tag, or nothing where the tag fails. -/
def gcmOpen (key : Nat) (iv aad data : List Byte) : Option (List Byte) :=
  let ct := data.take (data.length - 16)
  if data.drop (data.length - 16) = gcmTagOf key iv aad ct then some (gcmText key iv ct) else none

/-- The initialisation vector of a frame (R366): byte 0 the channel, bytes 1 to 3 zero, bytes 4 to 11 SEQ. -/
def frameIv (chan seq : Nat) : List Byte := BitVec.ofNat 8 chan :: 0 :: 0 :: 0 :: leBytes 8 seq

end Sys2Proof.Machine
end

