-- ==== Sys2Proof/Machine/Collective.lean ====
section
/-! DEFINITION. Collectives: COLL, the canonical tree, contributions at the switches and abandonment (R243 to R245, R379). -/
namespace Sys2Proof.Machine

/-! ## CollTree (R244) -/

/-- One element operation: 0 sum, 1 max, 2 min. -/
def collOp (ty opn a b : Nat) : Nat :=
  if isFloatLane ty then
    let x := valOf ty a
    let y := valOf ty b
    let v := match opn with
      | 0 => x.add y 0
      | 1 => x.rmax y
      | _ => (x.negate.rmax y.negate).negate
    roundTo ty v 0 false 0
  else
    match opn with
    | 0 => intBits ty (intOf ty a + intOf ty b)
    | 1 => if intOf ty a ≤ intOf ty b then b else a
    | _ => if intOf ty a ≤ intOf ty b then a else b

/-- The elements of a list of bytes. -/
def collElems (ty c : Nat) (bs : List Byte) : List Nat :=
  (List.range c).map (fun i => leNat ((bs.drop (elemBits ty / 8 * i)).take (elemBits ty / 8)))
def collBytes (ty : Nat) (es : List Nat) : List Byte := es.flatMap (leBytes (elemBits ty / 8))

def collZip (ty opn : Nat) (a b : List Nat) : List Nat := (a.zip b).map (fun p => collOp ty opn p.1 p.2)

/-- The combinations of one level; the odd last node passes up. -/
def collPair (f : List Nat → List Nat → List Nat) : List (List Nat) → List (List Nat)
  | a :: b :: r => f a b :: collPair f r
  | x => x

/-- The levels of the tree; `n` at least their number. -/
def collLevels (f : List Nat → List Nat → List Nat) : Nat → List (List Nat) → List (List Nat)
  | 0, x => x
  | n + 1, x => if x.length ≤ 1 then x else collLevels f n (collPair f x)

def collTree (ty opn : Nat) (leaves : List (List Nat)) : List Nat :=
  (collLevels (collZip ty opn) leaves.length leaves).headD []

/-- A participant's leaf: its parts in ascending order. -/
def collLeaf (ty opn : Nat) (parts : List (List Nat)) : List Nat :=
  match parts with
  | [] => []
  | p :: r => r.foldl (collZip ty opn) p

/-! ## COLL (R243) -/

/-- The rank of the current tile in a group, with its member entry and the number of participants (R280). -/
def State.rankIn (s : State) (g : Nat) : Option (Nat × Member × Nat) :=
  let ms := s.region.groups.getD g []
  (ms.mapIdx (fun i m => (i, m, ms.length))).find? (fun e => e.2.1.pkg == s.pkgid && e.2.1.inst == s.region.inst && e.2.1.tile == s.cur.tile)

/-- A participant of the group stands on another package: its contribution, or the switch's answer, is waited for (R240). -/
def State.groupFar (s : State) (g : Nat) : Bool := (s.region.groups.getD g []).any (fun m => m.pkg != s.pkgid)

/-- The place of a collective among those in progress. -/
def State.findColl (s : State) (world jobid g k : Nat) : Option Nat :=
  (List.range s.colls.length).find? (fun i => (s.colls[i]?).any (fun x => x.world == world && x.jobid == jobid && x.group == g && x.seq == k))

/-- An order joins its collective, opening it if it is the first here; one that differs from what opened it spoils it. A collective
that a contribution from another package opened takes the number of its participants from the first local order. -/
def State.joinColl (s : State) (o : CollOp) (k total rank cmd : Nat) : State :=
  let r := s.region
  let c := 64 * (o.nch + 1)
  match s.findColl r.world r.jobid o.group k with
  | some i =>
    { s with colls := s.colls.modify i (fun x => { x with
        total := total, waiting := x.waiting ++ [(s.slotNo, s.cur.tile, cmd, rank)], bad := x.bad || x.ty != o.ty || x.opn != o.opn || x.c != c }) }
  | none =>
    let x : Coll := { world := r.world, jobid := r.jobid, group := o.group, seq := k, ty := o.ty, opn := o.opn, c := c, ep := o.ep == 1,
                      total := total, waiting := [(s.slotNo, s.cur.tile, cmd, rank)] }
    { s with colls := s.colls ++ [x] }

/-- Check 1 of R243 for SBUF: a declared buffer of RSET[2]. -/
def State.chkRset (s : State) (b off : Nat) : Option Trap :=
  if (s.decl b).valid && bits (Store.get 0 2 s.ctile.seg.rset) b 1 == 1 then none else some (bufTrap .sets b off)

/-- COLL. -/
def execColl (c : Ctl) (o : CollOp) (s : State) : Host.Outcome State Fault Refusal :=
  let n := elemBits o.ty / 8
  let k := 64 * (o.nch + 1)
  let parts := (s.rankIn o.group).elim 0 (fun e => e.2.1.parts)
  .next (s.moveOrder c [] true true (rdy := fun _ => !s.coPending o.sbuf (512 * o.soff) (n * parts * k)) (fun a _ =>
    match a.chkRset o.sbuf (512 * o.soff) <|> a.chkSet o.dbuf (512 * o.doff) with
    | some t => .error t
    | none =>
      match a.rankIn o.group with
      | none => .ok (a.failNow o.sw 3 [])
      | some (rank, m, total) =>
        match (elemOffs (512 * o.soff) n (m.parts * k)).mapM (fun x => a.readBuf 2 o.sbuf x n) with
        | .error t => .error t
        | .ok bs =>
          match firstTrap (fun x => a.chkWrite 2 o.dbuf x n) (elemOffs (512 * o.doff) n k) with
          | some t => .error t
          | none =>
            let b := a.correct 3 ((a.decl o.sbuf).addr (512 * o.soff)) (n * m.parts * k)
            let r := b.region
            let key := o.group * 65536 + b.cur.tile
            let seq := Store.get 0 key r.collCount + 1
            let d := b.setRegion { r with collCount := Store.put 0 key seq r.collCount }
            if ((d.findColl r.world r.jobid o.group seq).bind (fun i => d.colls[i]?)).any (fun x => x.done) then .ok (d.failNow o.sw 5 [])
            else match d.arm o.sw (n * k) with
              | none => .ok (d.failNow o.sw 9 [])
              | some (u, ph) =>
                let vals := bs.map leNat
                let leaf := collLeaf o.ty o.opn ((List.range m.parts).map (fun i => (vals.drop (k * i)).take k))
                let v := u.joinColl o seq total rank u.ctile.nextId
                let w : State := { v with outbox := v.outbox ++ [.contribution o.group seq rank (collBytes o.ty leaf)] }
                .ok (w.addCmd { id := 0, eng := 0, kind := .coll, sw := o.sw, phase := ph, size := n * k, buf := o.dbuf,
                                base := (w.decl o.dbuf).addr (512 * o.doff), gather := collBytes o.ty leaf, remote := (b.groupFar o.group) }, {})))

/-! ## Contributions and the end of a collective (R244, R245, R379) -/

/-- Every local order of a collective ends: with a code, or with its result. -/
def State.endColl (s : State) (i code : Nat) (result : List Byte) : State :=
  match s.colls[i]? with
  | none => s
  | some x =>
    let s1 := x.waiting.foldl (fun (u : State) w =>
      match u.cmdAt w.1 w.2.1 w.2.2.1 with
      | none => u
      | some c => u.endAtRetire w.1 w.2.1 c code (if code = 0 then [.sram c.eng c.base result, .bufFull c.buf] else [])) s
    { s1 with colls := s1.colls.modify i (fun y => { y with waiting := [], done := y.done || code != 9 }) }

/-- The contribution of a rank: a local order's own, or the one that has arrived from another package. -/
def State.contribution (s : State) (x : Coll) (rank : Nat) : Option (List Byte) :=
  match x.waiting.find? (fun w => w.2.2.2 == rank) with
  | some w => (s.cmdAt w.1 w.2.1 w.2.2.1).map (·.gather)
  | none => if x.total = 0 || rank < x.total then (x.arrived.find? (fun e => e.1 == rank)).map (·.2) else none

/-- COLL_CONTRIBUTION: the contribution of a rank, whose bytes are given, is combined; the one that completes the collective ends it, one that does not fit spoils
it, one past the switch's buffer abandons it. The switch's time limit runs from the first one (R379). -/
def execCollContribution (coll rank : Nat) (data : List Byte) (s : State) : Host.Outcome State Fault Refusal :=
  .next (match s.colls[coll]? with
    | none => s
    | some x =>
      if x.done then s
      else match s.contribution x rank with
        | none => s
        | some leaf =>
          let n := elemBits x.ty / 8 * x.c
          let f := x.first.getD s.tb
          if leaf != data then s
          else if x.bad || leaf.length != n then
            ({ s with colls := s.colls.modify coll (fun y => { y with bad := true, first := some f }) }).endColl coll 9 []
          else
            let parts := Store.put [] rank leaf x.parts
            let s1 : State := { s with colls := s.colls.modify coll (fun y => { y with parts := parts, first := some f }) }
            if !x.ep && 2 ^ 24 < n * parts.length then s1.endColl coll 5 []
            else if x.total = 0 || parts.length < x.total then s1
            else s1.endColl coll 0 (collBytes x.ty (collTree x.ty x.opn (parts.map (fun p => collElems x.ty x.c p.2)))))

/-- COLL_ABANDON (R379): the first contribution of a reduction at the switches arrived more than their time limit ago. -/
def execCollAbandon (coll : Nat) (s : State) : Host.Outcome State Fault Refusal :=
  .next (match s.colls[coll]? with
    | none => s
    | some x => if x.done || x.ep || !(x.first.any (fun f => decide (f + s.collLimit < s.tb))) then s else s.endColl coll 5 [])

end Sys2Proof.Machine
end

