-- ==== Sys2Proof/Machine/Stow.lean ====
section
/-! DEFINITION. The stow area, the control block, drained records and the context area, written and read byte by byte (R89, R297, R307 to R311, R313). -/
namespace Sys2Proof.Machine

/-! ## Words of the layouts -/

def b8 (v : Nat) : List Byte := leBytes 8 v
/-- The region cycle that stands for a stored 48-bit count: the last one not after `rcc`. -/
def liftCycle (rcc v : Nat) : Nat := rcc - (rcc % 2 ^ 48 + 2 ^ 48 - v % 2 ^ 48) % 2 ^ 48
def pad16 (bs : List Byte) : List Byte := bs ++ List.replicate ((16 - bs.length % 16) % 16) 0

def EngSt.code : EngSt → Nat
  | .stopped => 0 | .running => 1 | .draining => 2
def engStOf (n : Nat) : EngSt := if n = 1 then .running else if n = 2 then .draining else .stopped
def BufSt.code : BufSt → Nat
  | .empty => 0 | .filling => 1 | .full => 2 | .draining => 3
def bufStOf (n : Nat) : BufSt := if n = 0 then .empty else if n = 1 then .filling else if n = 2 then .full else .draining
def ShSt.code : ShSt → Nat
  | .empty => 0 | .pending => 1 | .committed => 2
def shStOf (n : Nat) : ShSt := if n = 1 then .pending else if n = 2 then .committed else .empty

/-! ## The control block (Table 18.9) -/

def Tile.tokenBits (t : Tile) : Nat := (List.range 30).foldr (fun i a => Store.get 0 i t.tokens % 16 + 16 * a) 0

/-- An engine's word of the control block. A step counter past word 65,535 is stowed modulo 2^16. Notes: log entry 12. -/
def engWord (x : Eng) : Nat := x.pc % 2 ^ 16 + x.base % 2 ^ 16 * 2 ^ 16 + x.st.code * 2 ^ 32

def loopBytes : Option LoopE → List Byte
  | none => List.replicate 16 0
  | some l => b8 (l.start % 2 ^ 16 + l.last % 2 ^ 16 * 2 ^ 16 + 2 ^ 32) ++ b8 l.count.toNat

def Tile.ctlBlock (t : Tile) (rcc ndrain nover : Nat) (repok : Bool) : List Byte :=
  b8 (rcc % 2 ^ 48) ++ b8 (t.frmorg % 2 ^ 48) ++ b8 (t.segcyc % 2 ^ 48) ++ b8 t.srseed.toNat ++ b8 (t.fstepV % 2 ^ 48) ++ b8 (t.fstepM % 2 ^ 48) ++
  (List.range 6).flatMap (fun e => b8 (engWord (t.eng e)) ++ b8 ((t.eng e).run % 2 ^ 32)) ++
  (List.range 4).flatMap (fun i => loopBytes t.loops[i]?) ++
  b8 (t.loops.length + (if t.hflag then 2 ^ 8 else 0)) ++ leBytes 16 t.tokenBits ++
  b8 (t.nxseq % 2 ^ 32 + ndrain % 2 ^ 16 * 2 ^ 32 + nover % 2 ^ 16 * 2 ^ 48) ++ b8 (if repok then 1 else 0) ++ b8 0

/-- A field of a block of bytes: 8 bytes at an offset. -/
def blockU (bs : List Byte) (off : Nat) : Nat := recU bs off 8

def loadEng (bs : List Byte) (e : Nat) (x : Eng) : Eng :=
  let a := blockU bs (0x30 + 16 * e)
  { x with st := engStOf (bits a 32 2), base := bits a 16 16, step := bits a 0 16, run := bits (blockU bs (0x38 + 16 * e)) 0 32, stamp := none }

def loadLoops (bs : List Byte) : List LoopE :=
  (List.range 4).filterMap (fun i =>
    let a := blockU bs (0x90 + 16 * i)
    if bits a 32 1 = 1 then some { start := bits a 0 16, last := bits a 16 16, count := BitVec.ofNat 64 (blockU bs (0x98 + 16 * i)) } else none)

/-- The state that a control block gives back; `rcc` is the cycle that it was written in. -/
def Tile.loadCtl (t : Tile) (bs : List Byte) (rcc : Nat) : Tile :=
  let tok := recU bs 0xD8 16
  let seed : Word := BitVec.ofNat 64 (blockU bs 0x18)
  { t with
    frmorg := liftCycle rcc (blockU bs 0x08), segcyc := liftCycle rcc (blockU bs 0x10), srseed := seed, seedM := seed,
    fstepV := blockU bs 0x20, fstepM := blockU bs 0x28,
    engs := (List.range 6).foldl (fun m e => Store.put {} e (loadEng bs e (t.eng e)) m) t.engs,
    loops := loadLoops bs, hflag := bits (blockU bs 0xD0) 8 1 == 1,
    tokens := (List.range 30).foldl (fun m i => Store.put 0 i (bits tok (4 * i) 4) m) [],
    nxseq := bits (blockU bs 0xE8) 0 32 }

/-! ## Buffer state words (R309) -/

def Buf.word (b : Buf) : Nat :=
  b.st.code + (if b.fail then 2 ^ 2 else 0) + (if b.bound then 2 ^ 3 else 0) + b.fill % 2 ^ 8 * 2 ^ 4 + b.drain % 2 ^ 8 * 2 ^ 12 +
  b.va / 4096 % 2 ^ 44 * 2 ^ 20
def loadBuf (w : Nat) (old : Buf) : Buf :=
  { old with st := bufStOf (bits w 0 2), fail := bits w 2 1 == 1, bound := bits w 3 1 == 1, fill := bits w 4 8, drain := bits w 12 8,
             va := bits w 20 44 * 4096 }
def Tile.bufWords (t : Tile) : List Byte := (List.range 64).flatMap (fun b => b8 (t.buf b).word)
def Tile.loadBufs (t : Tile) (bs : List Byte) : Tile :=
  { t with bufs := (List.range 64).foldl (fun m b => Store.put {} b (loadBuf (blockU bs (8 * b)) (t.buf b)) m) t.bufs }

def regBytes (m : Store Word) : List Byte := (List.range 32).flatMap (fun n => b8 (Store.get 0 n m).toNat)
def loadRegs (bs : List Byte) : Store Word := (List.range 32).foldl (fun m n => Store.put 0 n (BitVec.ofNat 64 (blockU bs (8 * n))) m) []

/-! ## Drained records (R310) -/

def Xfer.record (x : Xfer) (rem : Nat) : List Byte :=
  b8 (x.dst % 2 ^ 16 + x.src % 2 ^ 16 * 2 ^ 16 + x.seq % 2 ^ 32 * 2 ^ 32) ++
  b8 (x.km1 % 2 ^ 8 * 2 ^ 16 + (x.words.length - 1) % 2 ^ 7 * 2 ^ 24 + (if x.rank then 2 ^ 31 else 0) + rem % 2 ^ 16 * 2 ^ 32) ++
  pad16 (x.words.flatMap (fun w => leBytes 4 w.toNat))

/-- The transfer that a record at an offset holds, and the length of the record; `c` the last cycle performed. -/
def loadXfer (bs : List Byte) (c : Nat) : Xfer × Nat :=
  let a := recU bs 0 8
  let b := recU bs 8 8
  let nw := bits b 24 7 + 1
  let rem := bits b 32 16
  ({ src := bits a 16 16, dst := bits a 0 16, seq := bits a 32 32, rank := bits b 31 1 == 1, km1 := bits b 16 8,
     words := (List.range nw).map (fun i => BitVec.ofNat 32 (recU bs (16 + 4 * i) 4)), avail := c + rem, restored := true, rem := rem },
   16 + (4 * nw + 15) / 16 * 16)

def loadXfers (c : Nat) : Nat → List Byte → List Xfer
  | 0, _ => []
  | n + 1, bs => let x := loadXfer bs c; x.1 :: loadXfers c n (bs.drop x.2)

/-- The exchange transfers that a stow saves for tile `t` of slot `n`, with their REM: those held, then those in flight to it. -/
def State.drained (s : State) (n t : Nat) : List (List Byte) :=
  let r := s.slot n
  (s.tileAt n t).hold.map (fun x => x.record 0) ++ (r.flying.filter (fun x => x.dst == t)).map (fun x => x.record (x.avail - r.rcc))

/-- How many of the records fit into `room` bytes. -/
def fitting (room : Nat) : List (List Byte) → Nat
  | [] => 0
  | x :: r => if x.length ≤ room then fitting (room - x.length) r + 1 else 0

/-! ## The stow area (Table 18.8) -/

def drainArea : Nat := 0x6000

def qWord (q : QReg) : Nat := q.q % 2 ^ 62 + (if q.valid then 2 ^ 63 else 0)
def loadQ (w : Nat) : QReg := if bits w 63 1 = 1 then QReg.of (bits w 0 62) else { q := bits w 0 62 }

def Tile.dirtyBits (t : Tile) : Nat := (List.range 1008).foldr (fun g a => (if Store.get false g t.dirty then 1 else 0) + 2 * a) 0

/-- The pieces of the stow area that a stow writes, by offset; the ranges between them are left unchanged. -/
def Tile.stowPieces (t : Tile) (rcc : Nat) (drains : List (List Byte)) : List (Nat × List Byte) :=
  let k := fitting drainArea drains
  [(0x0000, (List.range 64).flatMap (fun n => leBytes 512 (Store.get 0 n t.v).toNat)),
   (0x8000, (List.range 8).flatMap (fun n => leBytes 64 (Store.get 0 n t.k).toNat)),
   (0x8200, regBytes t.g), (0x8300, regBytes t.sw),
   (0x8400, (List.range 8).flatMap (fun n => b8 (qWord (Store.get {} n t.q)))),
   (0x8440, (List.range 16).flatMap (fun n => leBytes 4 (Store.get 0 n t.f).toNat)),
   (0x8480, t.ctlBlock rcc k (drains.length - k) false),
   (0x8580, t.bufWords), (0x8780, leBytes 126 t.dirtyBits),
   (0x8800, leBytes 72 t.bfxV.toNat ++ leBytes 72 t.bfxS.toNat),
   (0x88C0, (List.range 6).flatMap (fun e => b8 ((t.eng e).crc.toNat + (t.eng e).wcount % 2 ^ 32 * 2 ^ 32))),
   (0x88F0, b8 t.slotTy), (0xA000, (drains.take k).flatten)]

/-- Write pieces into tile SRAM from an address. -/
def Tile.writePieces (t : Tile) (base : Nat) (ps : List (Nat × List Byte)) : Tile := ps.foldl (fun u p => u.wrSram (base + p.1) p.2) t

/-- What a restore takes from a stow area, `rd` reading it by offset and length; `c` is the last cycle performed. -/
def Tile.loadStow (t : Tile) (rd : Nat → Nat → List Byte) (c : Nat) : Tile :=
  let num (off n : Nat) : Nat := leNat (rd off n)
  let dirty := num 0x8780 126
  let bfx : BitVec 576 := BitVec.ofNat 576 (num 0x8848 72)
  let q := (List.range 8).foldl (fun m n => Store.put {} n (loadQ (num (0x8400 + 8 * n) 8)) m) []
  let t1 : Tile := { t with
    v := (List.range 64).foldl (fun m n => Store.put 0 n (BitVec.ofNat 4096 (num (512 * n) 512)) m) [],
    k := (List.range 8).foldl (fun m n => Store.put 0 n (BitVec.ofNat 512 (num (0x8000 + 64 * n) 64)) m) [],
    g := loadRegs (rd 0x8200 256), sw := loadRegs (rd 0x8300 256), q := q, qM := q,
    f := (List.range 16).foldl (fun m n => Store.put 0 n (BitVec.ofNat 32 (num (0x8440 + 4 * n) 4)) m) [],
    dirty := (List.range 1008).foldl (fun m g => Store.put false g (bits dirty g 1 == 1) m) [],
    bfxV := BitVec.ofNat 576 (num 0x8800 72), bfxS := bfx, bfxM := bfx, slotTy := num 0x88F0 8 % 32, slotTyM := num 0x88F0 8 % 32 }
  let t2 := (t1.loadCtl (rd 0x8480 256) c).loadBufs (rd 0x8580 512)
  (List.range 6).foldl (fun (u : Tile) e =>
    u.setEng e { u.eng e with wcount := num (0x88C4 + 8 * e) 4, crc := BitVec.ofNat 32 (num (0x88C0 + 8 * e) 4) }) t2

/-- The counts of drained records that a control block gives: in the stow area, and beyond it. -/
def drainCounts (ctl : List Byte) : Nat × Nat := (bits (blockU ctl 0xE8) 32 16, bits (blockU ctl 0xE8) 48 16)

/-! ## The context area (Table 18.10) -/

def blockBytesCtx : Nat := 0x800000
def accBytes : Nat := 0x24000

def shadowCode (h : Shadow) : Nat := h.st.code + h.partner % 8 * 4
def loadShadow (v : Nat) : Shadow := { st := shStOf (v % 4), partner := v / 4 % 8 }

def halves (m : Store (BitVec 16)) : List Byte := (List.range 256).flatMap (fun i => leBytes 2 (Store.get 0 i m).toNat)
def loadHalves (bs : List Byte) : Store (BitVec 16) := (List.range 256).foldl (fun m i => Store.put 0 i (BitVec.ofNat 16 (recU bs (2 * i) 2)) m) []
def nests (m : Store Word) : List Byte := (List.range 7).flatMap (fun i => b8 (Store.get 0 i m).toNat)
def loadNests (bs : List Byte) : Store Word := (List.range 7).foldl (fun m i => Store.put 0 i (BitVec.ofNat 64 (blockU bs (8 * i))) m) []

def cacheBytes (e : CacheE) : List Byte :=
  b8 (e.va % 2 ^ 56 + (if e.valid then 2 ^ 63 else 0)) ++ (e.data ++ List.replicate (248 - e.data.length) 0)
def loadCache (bs : List Byte) : CacheE :=
  if bits (recU bs 0 8) 63 1 = 1 then { valid := true, va := bits (recU bs 0 8) 0 56, data := (bs.drop 8).take 192 } else {}

/-- The matrix state and the record cache, by offset in a context block. -/
def Tile.matrixPieces (t : Tile) : List (Nat × List Byte) :=
  (List.range 6).map (fun a => (0x400000 + accBytes * a, t.savedAcc a)) ++
  [(0x4D8000, Store.getN 0 t.opmem 0 opBytes),
   (0x558000, b8 t.claim ++ b8 (shadowCode t.sh0 + shadowCode t.sh1 * 2 ^ 8) ++ nests t.nlv ++ nests t.nlvA),
   (0x558100, halves t.att), (0x558300, halves t.rct),
   (0x559000, (List.range 64).flatMap (fun i => cacheBytes (Store.get {} i t.cache)))]

/-- The drained records that the stow area has no room for. -/
def overPieces (drains : List (List Byte)) : List (Nat × List Byte) := [(0x5A0000, (drains.drop (fitting drainArea drains)).flatten)]

/-- The order store, in step order. -/
def Tile.storeBytes (t : Tile) : List Byte := (Store.getN 0 t.store 0 Config.storeWords).flatMap (fun w => leBytes 4 w.toNat)
def storePiece (t : Tile) : Nat × List Byte := (0x560000, t.storeBytes)
def loadStore (bs : List Byte) : Store Code :=
  (List.range Config.storeWords).foldl (fun m i => Store.put 0 i (BitVec.ofNat 32 (recU bs (4 * i) 4)) m) []

/-- What a restore takes from a context block. -/
def Tile.loadMatrix (t : Tile) (rd : Nat → Nat → List Byte) : Tile :=
  let t1 := (List.range 6).foldl (fun (u : Tile) a => u.loadAcc a (rd (0x400000 + accBytes * a) accBytes)) t
  let r := loadHalves (rd 0x558300 512)
  { t1 with
    opmem := Store.putL 0 [] 0 (rd 0x4D8000 opBytes), ecc := t1.ecc.filter (fun e => !(eccKey 5 0 ≤ e.1 && e.1 < eccKey 7 0)),
    claim := leNat (rd 0x558000 8) % 2 ^ 16, filling := 0,
    sh0 := loadShadow (leNat (rd 0x558008 1)), sh1 := loadShadow (leNat (rd 0x558009 1)),
    nlv := loadNests (rd 0x558010 56), nlvA := loadNests (rd 0x558048 56),
    att := loadHalves (rd 0x558100 512), rct := r, rctV := r,
    cache := (List.range 64).foldl (fun m i => Store.put {} i (loadCache (rd (0x559000 + 256 * i) 256)) m) [] }

/-! ## The context area in memory (R311) -/

/-- Physical pages of HBM that are ASSIGNED to a world. -/
def State.ownedPage (s : State) (world pa : Nat) : Bool :=
  decide (pa < Config.potBase) && s.potOf (pa / 4096) == { st := .assigned, world := world }

/-- A write of the Harness: each page of it is checked against the POT like any write-back; one that fails is not written. The lines
at the offsets `bad` are written poisoned. -/
def State.ctxWrite (s : State) (world pa : Nat) (data : List Byte) (bad : List Nat) : State :=
  (pieces pa data.length).foldl (fun (u : State) p =>
    if u.ownedPage world p.1 then
      u.wrPhys p.1 ((data.drop (p.1 - pa)).take p.2) ((bad.filter (fun o => p.1 - pa ≤ o && o < p.1 - pa + p.2)).map (fun o => o - (p.1 - pa)))
    else u) s

/-- Bytes of HBM, those of a poisoned line free values. -/
def State.rdLost (s : State) (pa n : Nat) : List Byte :=
  let ls := s.linesIn pa n 2
  if ls.isEmpty then s.rdPhys pa n
  else (List.range n).map (fun i => if ls.contains ((pa + i) / 64) then Config.lostByte s.tick (pa + i) else Store.get 0 (pa + i) s.mem)

/-- A read of the Harness: a page that is not the world's reads as zero. -/
def State.ctxRead (s : State) (world pa n : Nat) : List Byte :=
  (pieces pa n).flatMap (fun p => if s.ownedPage world p.1 then s.rdLost p.1 p.2 else List.replicate p.2 0)

/-- The SRAM ranges of the valid buffers, as first address and length. -/
def TileImg.spans (i : TileImg) : List (Nat × Nat) :=
  (i.decls.filter (fun (d : Nat × BufDecl) => d.2.valid)).map (fun (d : Nat × BufDecl) => (d.2.base * 4096, d.2.bytes))
/-- The ranges of a context block that hold what EVICT moves: the buffers, the stow area and the order store; and the matrix state and
the drained records. -/
def TileImg.movedRanges (i : TileImg) : List (Nat × Nat) := i.spans ++ [(Config.stowBase, 65536), (0x560000, 262144)]
def matrixRanges : List (Nat × Nat) := [(0x400000, 0x160000), (0x5A0000, 0x260000)]

/-- The base of the region's context area. -/
def Slot.ctxBase (r : Slot) : Nat := r.ctx * blockBytesCtx

/-- The restore of a tile reads ranges of its context block: correctable lines are corrected, for the instance (R319). -/
def State.fixCtx (s : State) (n t : Nat) (rs : List (Nat × Nat)) : State :=
  let r := s.slot n
  rs.foldl (fun (u : State) d => u.fixLines (some n) (r.ctxBase + t * blockBytesCtx + d.1) d.2) s

/-- The words of tile storage that a line of a context block, by offset, is restored to. -/
def ctxWords (off : Nat) : List Nat :=
  let key : Option Nat :=
    if off < 0x400000 then some (eccKey 3 off)
    else if off < 0x4D8000 then some (eccKey 6 (off - 0x400000))
    else if off < 0x558000 then some (eccKey 5 (off - 0x4D8000))
    else if 0x560000 ≤ off && off < 0x5A0000 then some (eccKey 4 (off - 0x560000)) else none
  match key with
  | none => []
  | some k => (List.range 8).map (k + ·)

/-- A restored tile: the words that came from poisoned lines, by offset of the line, stay uncorrectable. -/
def Tile.spoil (t : Tile) (lines : List Nat) : Tile := { t with ecc := (lines.flatMap ctxWords).foldl (fun m k => Store.put 0 k 2 m) t.ecc }

/-- The poisoned lines, as offsets from `base`, of ranges of a block. -/
def State.ctxLost (s : State) (base : Nat) (rs : List (Nat × Nat)) : List Nat :=
  rs.flatMap (fun d => (s.linesIn (base + d.1) d.2 2).map (fun l => 64 * l - base))

/-- The 64-byte lines, as offsets from `off`, of `n` bytes of a block that take a word with an uncorrectable error. -/
def Tile.lostLines (t : Tile) (off n : Nat) : List Nat :=
  if t.ecc.isEmpty then []
  else ((List.range ((n + 63) / 64)).map (64 * ·)).filter (fun o => (ctxWords (off + o)).any (fun k => Store.get 0 k t.ecc == 2))

/-- Pieces of a tile's block are written; what its error marks spoil is written poisoned. -/
def State.ctxPieces (s : State) (world base : Nat) (x : Tile) (ps : List (Nat × List Byte)) : State :=
  ps.foldl (fun (u : State) p => u.ctxWrite world (base + p.1) p.2 (x.lostLines p.1 p.2.length)) s

/-- The Harness, a map unit or the copier reads `n` bytes of a space of physical tile `p`: single errors are corrected, for the instance,
and an uncorrectable one makes its record (R318, R361). -/
def State.stowRead (s : State) (slot p space addr n : Nat) : State :=
  let s1 := s.correctAt slot p space addr n
  if (s.tile p).bad space addr n then s1.errorRecord space true (s1.slot slot).world p else s1

/-- The bytes of `n` bytes of tile SRAM that an uncorrectable error has lost are free values from now on. Notes: log entry 54. -/
def Tile.lose (t : Tile) (tick addr n : Nat) : Tile :=
  { t with sram := ((t.eccIn 3 addr n).filter (fun e => e.2 == 2)).foldl (fun m e =>
      let a := (e.1 - eccKey 3 0) * 8
      Store.putL 0 m a ((List.range 8).map (fun i => Config.lostByte tick (a + i)))) t.sram }
/-- A range of a tile's stow area is read to be restored. -/
def State.readStow (s : State) (n t off len : Nat) : State :=
  let s1 := s.stowRead n ((s.slot n).phys t) 3 (Config.stowBase + off) len
  s1.setTileAt n t ((s1.tileAt n t).lose s1.tick (Config.stowBase + off) len)

/-! ## What is kept beside the layouts -/

def Slot.barList (r : Slot) (t : Nat) : List (Nat × Nat) :=
  (List.range 8).map (fun k => (Store.get 0 (barKey t k) r.bars, Store.get 0 (barKey t k) r.barAt))

def Tile.keep (t : Tile) (bars : List (Nat × Nat)) : Kept :=
  { seg := t.seg, tprev := (List.range 6).map (fun e => (t.eng e).tprev), next := (List.range 6).map (fun e => (t.eng e).next),
    sb := t.sb, lastMma := t.lastMma, coloph := (List.range 6).map (fun e => ((t.eng e).wcount, (t.eng e).crc)), bars := bars, effs := t.effs }

def Tile.restoreKept (t : Tile) (k : Kept) (coloph : Bool) : Tile :=
  let t1 : Tile := { t with seg := k.seg, sb := k.sb, lastMma := k.lastMma, effs := k.effs }
  (List.range 6).foldl (fun (u : Tile) e =>
    let x := u.eng e
    let c := k.coloph.getD e (0, 0xFFFFFFFF)
    u.setEng e { x with tprev := k.tprev.getD e 0, next := k.next.getD e 0, wcount := if coloph then c.1 else x.wcount, crc := if coloph then c.2 else x.crc }) t1

def Slot.restoreBars (r : Slot) (t : Nat) (bars : List (Nat × Nat)) : Slot :=
  { r with
    bars := (List.range 8).foldl (fun m k => Store.put 0 (barKey t k) (bars.getD k (0, 0)).1 m) r.bars,
    barAt := (List.range 8).foldl (fun m k => Store.put 0 (barKey t k) (bars.getD k (0, 0)).2 m) r.barAt }

/-! ## The segment-entry record (R297) -/

def entryBase : Nat := 0x9000

/-- REPOK: the segment is timed, the tile holds no transfer, and none is in flight to or from it. -/
def State.repOk (s : State) (n t : Nat) : Bool :=
  let x := s.tileAt n t
  !x.seg.elastic && x.hold.isEmpty && (s.slot n).flying.all (fun f => f.src != t && f.dst != t)

/-- SEGMENT_ENTRY_RECORD: the record is written at the end of the SEG cycle. -/
def State.segEntry (s : State) (n t : Nat) : State :=
  let x := s.tileAt n t
  let r := s.slot n
  let y := x.writePieces (Config.stowBase + entryBase)
    [(0, regBytes x.g), (0x100, regBytes x.sw), (0x200, x.ctlBlock r.rcc 0 0 (s.repOk n t)), (0x300, x.bufWords)]
  s.setTileAt n t { y with entry := x.keep (r.barList t) }

/-- The bytes of a tile's stow area. -/
def Tile.stowRd (t : Tile) (off n : Nat) : List Byte := Store.getN 0 t.sram (Config.stowBase + off) n

/-- A tile is restored from its entry record (R298). -/
def Tile.loadEntry (t : Tile) (rcc : Nat) : Tile :=
  let t1 : Tile := { t with g := loadRegs (t.stowRd 0x9000 256), sw := loadRegs (t.stowRd 0x9100 256) }
  let seed := t.srseed
  let t2 := (t1.loadCtl (t.stowRd 0x9200 256) rcc).loadBufs (t.stowRd 0x9300 512)
  let t3 := t2.restoreKept t.entry true
  { t3 with
    srseed := seed, seedM := seed, atC := none, hold := [], flights := [], filling := 0, trapNow := none, again := 0, inFreeze := false, podDue := none, bgate := none, fence := [],
    quiet := false, stopped := false, rended := (t3.eng 0).st == .stopped }

end Sys2Proof.Machine
end

