-- ==== Sys2Proof/Machine/Cycle.lean ====
section
/-! DEFINITION. The end of a region cycle: effects that fall due, retirement, landings, landing holds, stops at boundaries and the freeze (R13, R14, R38, R51, R54 to R56, R217, R289 to R296, R317). -/
namespace Sys2Proof.Machine

/-! ## Effects (R13, R51, R191, R252, R275) -/

/-- The buffer of a tile that holds an SRAM address. -/
def ownerBuf (decl : Nat → BufDecl) (addr : Nat) : Option Nat :=
  (List.range 64).find? (fun b => (decl b).valid && decide ((decl b).base * 4096 ≤ addr) && decide (addr < (decl b).base * 4096 + (decl b).bytes))

/-- R51: a completing fill. -/
def Buf.filled (b : Buf) : Buf :=
  if b.fill ≤ 1 then (if b.fail then { b with st := .empty, fill := 0, fail := false } else { b with st := .full, fill := 0 }) else { b with fill := b.fill - 1 }
/-- R51: a completing drain. -/
def Buf.drained (b : Buf) : Buf := if b.drain ≤ 1 then { b with st := .full, drain := 0 } else { b with drain := b.drain - 1 }
/-- Table 3.3, CPIN and CPOUT. -/
def Buf.cpin (b : Buf) : Buf := if b.st == .filling then { b with fill := b.fill + 1 } else { b with st := .filling, fill := 1 }
def Buf.cpout (b : Buf) : Buf := if b.st == .draining then { b with drain := b.drain + 1 } else { b with st := .draining, drain := 1 }

/-- R13: the last order of a counted run has issued. -/
def Tile.engEnd (t : Tile) (e : Nat) : Tile :=
  if (t.eng e).st == .running then t.setEng e { t.eng e with st := if t.flights.any (fun f => f.eng == e) then .draining else .stopped } else t

/-- The granules of ranges of a bound buffer get their dirty marks. -/
def Tile.marked (t : Tile) (b : Nat) (rs : List (Nat × Nat)) (m : Store Bool) : Store Bool :=
  if (t.buf b).bound then (granulesOf rs).foldl (fun m g => Store.put false g true m) m else m
/-- A landing takes effect at the end of cycle c, also where the region waits there for it (R54, R55): its bytes and its marks are among
the contents at c. -/
def Tile.landC (t : Tile) (b : Nat) (rs : List (Nat × Nat)) : Option AtC :=
  t.atC.map (fun c => {
    sram := rs.foldl (fun m r => Store.putL 0 m r.1 (Store.getN 0 t.sram r.1 r.2)) c.sram, dirty := t.marked b rs c.dirty,
    ecc := rs.foldl (fun m r => (List.range ((r.1 % 8 + r.2 + 7) / 8)).foldl (fun m i =>
      Store.put 0 (eccKey 3 r.1 + i) (Store.get 0 (eccKey 3 r.1 + i) t.ecc) m) m) c.ecc })

/-- One effect on a tile whose buffers are declared by `decl`. A CPOUT may issue while an UNBIND reads the granules of its buffer:
the buffer is FULL and unbound when the last of them has been read, DRAINING while a drain is counted. Notes: log entry 49. -/
def Tile.applyEff (t : Tile) (decl : Nat → BufDecl) : Eff → Tile
  | .engRun e cont count issue =>
    let x := t.eng e
    t.setEng e { x with st := .running, step := if cont then x.pc else x.base, run := count, tprev := issue, next := 0, stamp := none }
  | .engDrain e => if (t.eng e).st == .running then t.setEng e { t.eng e with st := .draining, step := (t.eng e).pc, stamp := none } else t
  | .engEnd e => t.engEnd e
  | .engBase e b => t.setEng e { t.eng e with base := b }
  | .bufFull b => t.fillBuf b
  | .bufCpin b => t.setBuf b (t.buf b).cpin
  | .bufCpout b => t.setBuf b (t.buf b).cpout
  | .bufSet b full =>
    let x := t.setBuf b { t.buf b with st := if full then .full else .empty }
    if !full && (t.buf b).bound then x.clean (decl b) else x
  | .bufBind b va => (t.setBuf b { t.buf b with bound := true, va := va }).clean (decl b)
  | .bufUnbind b => t.setBuf b { t.buf b with st := .draining, drain := 0 }
  | .fillDone b => t.setBuf b (t.buf b).filled
  | .landed b rs => { t with dirty := t.marked b rs t.dirty, atC := t.landC b rs }
  | .drainDone b => t.setBuf b (t.buf b).drained
  | .unbound b =>
    let y := t.buf b
    (t.clean (decl b)).setBuf b { y with bound := false, va := 0, st := if y.st == .draining && y.drain == 0 then .full else y.st }
  | .slotDone n => if bits t.filling n 1 = 1 then { t with filling := t.filling - 2 ^ n } else t
  | .uncache va => t.uncache va
  | .fmt f v => { t with f := Store.put 0 f (BitVec.ofNat 32 v) t.f }
  | .nest r v => { t with nlv := Store.put 0 r (BitVec.ofNat 64 v) t.nlv }
  | .shadow h x => if h = 4 then { t with sh0 := x } else { t with sh1 := x }
  | .sram _ addr data =>
    let x := t.wrSram addr data
    match ownerBuf decl addr with
    | some b => x.markDirty b addr data.length
    | none => x
  | .mxQ q r => { t with qM := Store.put {} q r t.qM }
  | .mxSeed v => { t with seedM := v }
  | .mxPat p ty => { t with bfxM := p, slotTyM := ty }
  | .vxRct r => { t with rctV := r }
  | .rended => { t.setEng 0 { t.eng 0 with st := .stopped } with rended := true }
  | .segEntry => t

/-- The buffer declarations of tile `t` of slot `n`. -/
def State.declAt (s : State) (n t b : Nat) : BufDecl := Store.get {} b (Store.get {} t (s.slot n).imgs).decls

def State.applyEffs (s : State) (n t : Nat) (fs : List Eff) : State :=
  s.setTileAt n t (fs.foldl (fun x f => x.applyEff (s.declAt n t) f) (s.tileAt n t))

/-- Effects that follow the retirements of their cycle. -/
def Eff.isLate : Eff → Bool
  | .unbound _ | .engEnd _ | .segEntry => true
  | _ => false

/-- The effects of a tile that fall due in the current cycle, those of orders or the late ones, taken from its list. -/
def State.dueEffs (s : State) (n t : Nat) (late : Bool) : List Eff :=
  ((s.tileAt n t).effs.filter (fun e => decide (e.1 ≤ (s.slot n).rcc) && e.2.isLate == late)).map (·.2)
def State.dropEffs (s : State) (n t : Nat) (late : Bool) : State :=
  let x := s.tileAt n t
  s.setTileAt n t { x with effs := x.effs.filter (fun e => !(decide (e.1 ≤ (s.slot n).rcc) && e.2.isLate == late)) }

/-- R51: the changes that the orders of the cycle make come first. -/
def State.settle (s : State) (n t : Nat) : State := (s.dropEffs n t false).applyEffs n t (s.dueEffs n t false)

/-! ## Retirement (R14, R217, R250, R317) -/

/-- The flight retires at the end of the current cycle, or (a landing) before cycle `rcc + 1` is entered. -/
def Tile.due (t : Tile) (rcc : Nat) (f : Flight) : Bool :=
  (match f.retire with
   | some r => decide (r ≤ rcc)
   | none => false) &&
  (f.land.isNone || t.cmds.all (fun c => c.flight != some f.id))

/-- The mark of an upset in the integer or modular path of MX (R317). -/
def residueKey : Nat := eccKey 2 0
def Tile.residue (t : Tile) (f : Flight) : Bool := f.intPath && Store.get 0 residueKey t.ecc != 0

/-- TOKEN_PUSH (R14): a push above 15 is not made, and raises TOKEN. The order does not issue again; where it is SQ's, SQ is a trapping
engine, which a THAW sends to TRET.STEP (R305). -/
def Tile.pushFor (t : Tile) (f : Flight) : Tile :=
  match f.push with
  | none => t
  | some c =>
    if t.token f.eng c < 15 then t.pushToken f.eng c
    else
      let x := t.record { cause := .token, eng := f.eng, step := f.step, opd0 := f.raw, opd1 := BitVec.ofNat 64 (fifo f.eng c) }
      if f.eng = 0 then { x with again := x.again ||| 1 } else x

/-- The status word that an order completes at its retirement (R217, R258, R273). -/
def Tile.doneFor (t : Tile) (f : Flight) : Tile :=
  match f.done with
  | none => t
  | some (sw, code, ph) => t.swUpd sw (fun w => if code = 0 then swPerform w ph f.doneN else swStatus w code)

/-- The elements of one accumulator among others. -/
def accPart (a : Nat) (m : Store Wa) : Store Wa := m.filter (fun c => accKey a 0 ≤ c.1 && c.1 < accKey (a + 1) 0)
/-- One accumulator takes other contents. -/
def Tile.withAcc (t : Tile) (a : Nat) (m : Store Wa) : Tile :=
  { t with acc := m.foldr (fun c u => Store.put 0 c.1 c.2 u) (Store.delRange (accKey a 0) (accKey (a + 1) 0) t.acc) }

/-- An accumulator that the order `f` wrote, as if it had not: its contents before the order; where a later order in flight has gone on
from what the order left there, they are values that the spec leaves open. Notes: log entry 57. -/
def Tile.takeBack (t : Tile) (f : Flight) (b : Before) (tick a : Nat) : Tile :=
  if t.flights.any (fun g => f.id < g.id && bits g.accW a 1 == 1) then
    t.withAcc a ((List.range 16384).map (fun i => (accKey a i, Config.lostAcc tick (accKey a i))))
  else { t.withAcc a (accPart a b.acc) with sh0 := if a = 4 then b.sh0 else t.sh0, sh1 := if a = 5 then b.sh1 else t.sh1 }

/-- The status word that an order armed, as if it had not (R63). -/
def swDisarm (w : Word) (phase : Bool) (n : Nat) : Word := if phaseOf w != phase then w else swMake phase (errOf w) (remainOf w - n)

/-- The order `f` has had no effect (R64): its accumulators, nest registers, status word, frame step and token are as if it had not
issued. It stays in flight until it has issued again. -/
def Tile.withoutOrder (t : Tile) (f : Flight) (tick : Nat) : Tile :=
  let b := f.before.getD {}
  let t1 := ((List.range 6).filter (fun a => bits f.accW a 1 == 1)).foldl (fun (u : Tile) a => u.takeBack f b tick a) t
  let t2 := match f.done with
    | some (sw, _, ph) => t1.swUpd sw (fun w => swDisarm w ph f.doneN)
    | none => t1
  let t3 := match f.pop with
    | some p => t2.pushToken p f.eng
    | none => t2
  let g : Flight := { id := f.id, eng := f.eng, retire := none, push := none, effs := [], step := f.step, raw := f.raw, first := f.first, redo := true }
  { t3 with
    nlvA := b.nlvA, fstepM := if t.frmorg ≤ f.issue then t.fstepM - 1 else t.fstepM,
    flights := t.flights.map (fun h => if h.id == f.id then g else h) }

/-- R317: a residue mismatch raises SDC in the retire cycle of the order, which has no effect; the error makes a record (R361). -/
def State.residueTrap (s : State) (n t : Nat) (f : Flight) : State :=
  let x := ((s.tileAt n t).withoutOrder f s.tick).record { cause := .sdc, eng := f.eng, step := f.step, opd0 := f.raw, opd1 := 2 }
  let s1 := s.setTileAt n t { x with ecc := Store.put 0 residueKey 0 x.ecc, again := x.again ||| 2 ^ f.eng }
  (s1.setSlot n { s1.slot n with tainted := true }).errorRecord 2 true (s.slot n).world ((s.slot n).phys t)

/-- One order retires: its effects, its status word, its token; or a residue mismatch undoes it. -/
def State.retire (s : State) (n t : Nat) (f : Flight) : State :=
  if (s.tileAt n t).residue f then s.residueTrap n t f
  else
    let s1 := s.applyEffs n t f.effs
    let x := s1.tileAt n t
    let y := ({ x with flights := x.flights.filter (fun g => g.id != f.id) }.doneFor f).pushFor f
    (s1.setTileAt n t y).taintCode n (match f.done with
      | some (_, code, _) => code
      | none => 0)

/-- Every order of a tile that is due retires, in the order of issue. -/
def State.retireDue (s : State) (n t : Nat) : State :=
  ((s.tileAt n t).flights.filter ((s.tileAt n t).due (s.slot n).rcc)).foldl (fun (u : State) f => u.retire n t f) s

/-- The region is at the end of a cycle: every engine of every tile has had its look. -/
def Slot.atEndOf (r : Slot) : Bool := r.st == .running && !r.held && r.pos == 6 * r.count

/-- One due order, the first of its tile in order of issue, retires if it is the named one and of the kind wanted. -/
def State.retireOne (s : State) (n t id : Nat) (want : Flight → Bool) : State :=
  let s1 := s.settle n t
  match ((s1.tileAt n t).flights.filter ((s1.tileAt n t).due (s.slot n).rcc)).head? with
  | some f => if (s.slot n).atEndOf && f.id == id && want f then s1.retire n t f else s
  | none => s

def Eff.isFill : Eff → Bool
  | .fillDone _ => true
  | _ => false
def Eff.isDrain : Eff → Bool
  | .drainDone _ => true
  | _ => false

/-- ORDER_RETIRE (R217). -/
def execOrderRetire (n t id : Nat) (s : State) : Host.Outcome State Fault Refusal := .next (s.retireOne n t id (fun _ => true))
/-- FILL_COMPLETE (R51, R56): the completing fill of an order that retires now. -/
def execFillComplete (n t id : Nat) (s : State) : Host.Outcome State Fault Refusal :=
  .next (s.retireOne n t id (fun f => f.effs.any Eff.isFill))
/-- DRAIN_COMPLETE (R51, R224). -/
def execDrainComplete (n t id : Nat) (s : State) : Host.Outcome State Fault Refusal :=
  .next (s.retireOne n t id (fun f => f.effs.any Eff.isDrain))

/-! ## Landings and landing holds (R54, R55, R290) -/

/-- The landings due at the next cycle that are incomplete, by tile. -/
def State.lateLandings (s : State) (n t : Nat) : List Flight :=
  let x := s.tileAt n t
  x.flights.filter (fun f => f.land == some ((s.slot n).rcc + 1) && x.cmds.any (fun c => c.flight == some f.id))
def State.mustHold (s : State) (n : Nat) : Bool := (List.range (s.slot n).count).any (fun t => !(s.lateLandings n t).isEmpty)

/-- The engines of a tile that are DRAINING. -/
def Tile.drainers (t : Tile) : List Nat := [1, 2, 3, 4, 5].filter (fun e => (t.eng e).st == .draining)
/-- ENGINE_DRAIN_END (R13). -/
def Tile.endDrains (t : Tile) (es : List Nat) : Tile :=
  es.foldl (fun u e => if u.flights.all (fun f => f.eng != e) then u.setEng e { u.eng e with st := .stopped } else u) t

/-- A landing retires in a landing hold, still at the end of cycle L - 1: a draining engine whose last order it is stops, unless an ESTOP
of that cycle made it drain (R13, R54). -/
def State.land (s : State) (n t : Nat) (f : Flight) : State :=
  let u := s.retire n t f
  let x := u.tileAt n t
  u.setTileAt n t (x.endDrains (x.drainers.filter (fun e => bits x.estopped e 1 == 0)))

/-- The landings due at the next cycle that are complete now. -/
def State.landDue (s : State) (n t : Nat) : State :=
  ((s.tileAt n t).flights.filter (fun f => f.land.isSome && (s.tileAt n t).due (s.slot n).rcc f)).foldl (fun (u : State) f => u.land n t f) s
def State.landAll (s : State) (n : Nat) : State := (List.range (s.slot n).count).foldl (fun u t => u.landDue n t) s

/-- LANDING (R54): a timed CPIN or CPSLOT retires and lands. -/
def execLanding (n t id : Nat) (s : State) : Host.Outcome State Fault Refusal :=
  .next (match (s.tileAt n t).flights.find? (fun f => f.id == id) with
    | none => s
    | some f =>
      if f.land.isNone then s
      else if (s.slot n).holding && (s.tileAt n t).due (s.slot n).rcc f then s.land n t f
      else s.retireOne n t id (fun _ => true))

/-! ## The freeze (R289 to R295) -/

def State.tiles6 (s : State) (n : Nat) : List Nat := List.range (s.slot n).count

/-- Some tile of the region has trapped in this cycle. -/
def State.anyTrap (s : State) (n : Nat) : Bool := (s.tiles6 n).any (fun t => (s.tileAt n t).trapNow.isSome)

/-- The causes that a U-level handler may take (R294). -/
def Cause.handled : Cause → Bool
  | .brk | .overrun | .late => true
  | _ => false

/-- HANDLER_ENTRY: SQ of a trapping tile runs from its handler step with the handler flag set. -/
def Tile.enterHandler (t : Tile) (h : Nat) : Tile := { t.setEng 0 { t.eng 0 with step := h, stamp := none } with hflag := true, hreplay := false, hsb := [], hnext := 0 }

/-- A tile's record of the freeze is written, if it trapped. -/
def Tile.freezeRecord (t : Tile) (rcc : Nat) : Tile :=
  match t.trapNow with
  | none => { t with inFreeze := false }
  | some r => { t.writeRecord r rcc with trapNow := none, inFreeze := true }

/-- A command completes with a result (R305). -/
def State.cmdDone (s : State) (n err : Nat) : State := (s.setSlot n { s.slot n with err := err, done := true }).raiseCC ipHdone

/-- A command in hand, as its region freezes: a FREEZE has had its effect, and a STOW has set PREQ, which acts after the freeze ends
(R305). Notes: log entry 13. -/
def State.endFreeze (s : State) (n : Nat) : State := if (s.slot n).done then s else s.cmdDone n 0

/-- A freeze that a command or a rollback asked for: no record is written. -/
def State.plainFreeze (s : State) (n : Nat) : State :=
  let r := s.slot n
  State.endFreeze (n := n) <| s.setSlot n
    { r with st := .frozen, fz := false, frozenAt := r.rcc, trapped := false, handler := false, ntrap := 0, ftile := 0, holding := false }

/-- FAULT_FREEZE: the region's run ends after cycle c; every trapping tile's record is written; the handlers run, or the control
complex is told. -/
def State.faultFreeze (s : State) (n : Nat) : State :=
  let r := s.slot n
  let ts := (s.tiles6 n).filter (fun t => (s.tileAt n t).trapNow.isSome)
  let run := ts.all (fun t => ((s.tileAt n t).trapNow.any (fun x => x.cause.handled)) && (Store.get ({} : TileImg) t r.imgs).handler.isSome)
  let s1 := (s.tiles6 n).foldl (fun (u : State) t =>
    let x := (u.tileAt n t).freezeRecord r.rcc
    u.setTileAt n t (if run && x.inFreeze then x.enterHandler ((Store.get ({} : TileImg) t r.imgs).handler.getD 0) else x)) s
  let s2 := s1.setSlot n { s1.slot n with
    st := .frozen, ntrap := ts.length, ftile := ts.headD 0, trapped := true, frozenAt := r.rcc, handler := run, holding := false, fz := false,
    hcyc := 0, hpos := 0, hfault := false }
  (if run then s2 else s2.raiseCC ipTrap).endFreeze n

/-- LATE (R55, R290): the record names CI and the oldest incomplete landing of the tile; no order has trapped. -/
def State.raiseLate (s : State) (n : Nat) : State :=
  ((s.tiles6 n).foldl (fun (u : State) t =>
    match u.lateLandings n t with
    | [] => u
    | f :: _ => u.setTileAt n t ((u.tileAt n t).record
        { cause := .late, eng := 1, step := f.step, opd0 := f.raw, opd1 := BitVec.ofNat 64 (f.land.getD 0 % 2 ^ 48) })) s).faultFreeze n

/-- LATE: a landing hold has lasted its limit. -/
def execLate (n : Nat) (s : State) : Host.Outcome State Fault Refusal :=
  .next (if (s.slot n).st == .running && (s.slot n).holding && s.mustHold n && decide ((s.slot n).limitNow ≤ (s.slot n).landHeld) then s.raiseLate n else s)

/-! ## The continuation (R296, R305) -/

/-- A tile goes on in cycle `c + 1`: a trapping SQ at TRET.STEP; with `all`, each other trapping order issues again then. -/
def Tile.thaw (t : Tile) (c : Nat) (all : Bool) : Tile :=
  let t1 := if bits t.again 0 1 = 1 then t.setEng 0 { t.eng 0 with step := bits t.tret.toNat 0 16, stamp := none, next := Nat.max (t.eng 0).next (c + 1) } else t
  let t2 := if all then [1, 2, 3, 4, 5].foldl (fun (u : Tile) e => if bits t.again e 1 = 1 then u.setEng e { u.eng e with next := c + 1 } else u) t1 else t1
  { t2 with again := 0, inFreeze := false }

/-- The key of a job: its world and the low half of its JOBID. -/
def jobKey (world jobid : Nat) : Nat := jobid % 2 ^ 64 * 64 + world % 64
def State.snap (s : State) (k : Nat) : Snap := Store.get {} k s.snaps
def State.setSnap (s : State) (k : Nat) (x : Snap) : State := { s with snaps := Store.put {} k x s.snaps }
def Slot.job (r : Slot) : Nat := jobKey r.world r.jobid

/-- While a rollback of its job waits for the freeze, a region that would go on is frozen at once, before its next cycle (R339). -/
def State.joinRoll (s : State) (n : Nat) : State :=
  let r := s.slot n
  if (s.snap r.job).st == .rolling then (s.setSlot n { r with rcc := if r.pos = 0 then r.rcc - 1 else r.rcc, pos := 6 * r.count + 1 }).plainFreeze n else s

/-- The region goes on at c + 1; a landing hold due then still comes first. -/
def State.thaw (s : State) (n : Nat) (all : Bool) : State :=
  let r := s.slot n
  let s1 := (s.tiles6 n).foldl (fun (u : State) t => u.setTileAt n t ((u.tileAt n t).thaw r.rcc all)) s
  State.joinRoll (n := n) <| s1.setSlot n { s1.slot n with st := .running, trapped := false, handler := false, replaying := false, pos := 6 * r.count + 1 }

/-- Wall time (R381). -/
def State.wall (s : State) : Word := BitVec.ofNat 64 s.tb + s.tbwall
/-- The larger of two world times, taken as unsigned nanoseconds. -/
def maxTime (a b : Word) : Word := if a.toNat ≤ b.toNat then b else a
/-- TIMEOFF at the first region cycle after a resume, where `t` is the world time at c (R372). -/
def State.offAt (s : State) (t : Word) : Word := maxTime t s.wall - BitVec.ofNat 64 s.tb
/-- A region is about to perform its next region cycle: the first one after a start or a resume sets TIMEOFF. At a start, with no cycle
performed, `offAt 0` is TBWALL. -/
def State.woken (s : State) (r : Slot) : Slot := if r.wakes then { r with timeoff := s.offAt r.worldStow, tstart := s.tb } else r

/-- The next region cycle is entered. -/
def State.enter (s : State) (n : Nat) : State :=
  s.setSlot n { s.woken (s.slot n) with rcc := (s.slot n).rcc + 1, pos := 0, holding := false }

/-! ## Stops (R38) -/

/-- SQ's next word is a SEG that would issue in this cycle, at a boundary where the tile is asked to stop. -/
def State.wouldStop (s : State) (n t : Nat) : Bool :=
  let x := s.tileAt n t
  match x.peekSq with
  | some (p, .seg h) =>
    let y := x.setEng 0 { x.eng 0 with stamp := p }
    let u := { s.setTileAt n t y with cur := { agent := .region n, tile := t, eng := 0 } }
    (x.eng 0).st == .running && !x.fenced 0 (s.slot n).rcc && y.flights.isEmpty && (Need.gate {} y (s.slot n).rcc) == .go && u.stopAsked h
  | _ => false

/-- PREEMPT_STOP (R38): the tile stops at its boundary, if SQ has not had its look in this cycle. -/
def execPreemptStop (n t : Nat) (s : State) : Host.Outcome State Fault Refusal :=
  .next (
    let r := s.slot n
    if r.st == .running && !r.held && decide (t < r.count) && decide (r.pos ≤ 6 * t) && (s.tileAt n t).trapNow.isNone && s.wouldStop n t then
      s.setTileAt n t (s.tileAt n t).stop
    else s)

/-- Every tile of the region has stopped or ended, and one has stopped: the current cycle is not entered (R38). -/
def State.allStopped (s : State) (n : Nat) : Bool :=
  (s.tiles6 n).all (fun t => (s.tileAt n t).stopped || (s.tileAt n t).rended) && (s.tiles6 n).any (fun t => (s.tileAt n t).stopped)

/-! ## The end of a cycle -/

/-- The engines that an ESTOP of the cycle moves to DRAINING, one bit each. -/
def stopMask (fs : List Eff) : Nat :=
  fs.foldl (fun m f => match f with
    | .engDrain e => m ||| 2 ^ e
    | _ => m) 0

/-- What the end of a cycle does in one tile. -/
def State.endTile (s : State) (n t : Nat) : State :=
  let es := (s.tileAt n t).drainers
  let stops := stopMask (s.dueEffs n t false)
  let s0 := if (s.tileAt n t).stopped || (s.tileAt n t).rended then s.arrivals n t else s
  let s1 := (s0.settle n t).retireDue n t
  let late := s1.dueEffs n t true
  let s2 := (s1.dropEffs n t true).applyEffs n t late
  let s3 := s2.setTileAt n t { (s2.tileAt n t).endDrains es with quiet := false, estopped := stops, atC := none }
  if late.contains .segEntry then s3.segEntry n t else s3

/-- The end of the region's cycle: the cycle that a stop prevents is taken back, and the region is held, its world time that at the last
cycle performed; otherwise every tile takes what falls due. -/
def State.endCycle (s : State) (n : Nat) : State :=
  let r := s.slot n
  if s.allStopped n then s.setSlot n { r with held := true, rcc := r.rcc - 1, worldStow := if r.wakes then r.worldStow else BitVec.ofNat 64 s.tb + r.timeoff }
  else
    let s1 := (s.tiles6 n).foldl (fun u t => u.endTile n t) s
    s1.setSlot n { s1.slot n with pos := 6 * r.count + 1, wakes := false }

end Sys2Proof.Machine
end

