-- ==== Sys2Proof/Machine/Registers.lean ====
section
/-! DEFINITION. The registers that a core reads and writes as plain storage (Tables 7.5, 16.1, 16.2, 18.4, 20.1, 24.1, 26.1), SRD, TRAP and TIME (R125, R126, R176, R177, R179, R380). -/
namespace Sys2Proof.Machine

/-! ## Virtual interfaces, nodes and jobs -/

def State.vifOf (s : State) (v : Nat) : Vif := Store.get {} v s.vifs

def State.setVif (s : State) (v : Nat) (x : Vif) : State := { s with vifs := Store.put {} v x s.vifs }

def State.node (s : State) (vif lid : Nat) : Option Node := s.nodes.find? (fun n => n.vif == vif && n.lid == lid)

def State.setNode (s : State) (x : Node) : State := { s with nodes := s.nodes.map (fun n => if n.arrival = x.arrival then x else n) }

/-- The key of a node's job. -/
def State.nodeJob (s : State) (x : Node) : Nat := jobKey (s.vifOf x.vif).world x.jobid

/-- The launch node that a job handle names. -/
def State.handleNode (s : State) (h : Nat) : Option Node := if bits h 40 24 != 0 then none else s.node (bits h 32 8) (bits h 0 32)

/-! ## The catalogue of a snapshot area (Table 20.2) -/

def State.area (s : State) (k : Nat) : Nat := (s.snap k).area

def State.areaU (s : State) (k off n : Nat) : Nat := leNat (s.rdPhys (s.area k + off) n)

/-- Word `j` of catalogue entry `i`. -/
def State.cat (s : State) (k i j : Nat) : Nat := s.areaU k (0x100 + 64 * i + 8 * j) 8

def State.catValid (s : State) (k i : Nat) : Bool := bits (s.cat k i 0) 63 1 == 1

def State.catCommitted (s : State) (k i : Nat) : Bool := s.catValid k i && bits (s.cat k i 0) 60 3 == 1

def State.committed (s : State) (k : Nat) : List Nat := (List.range 17).filter (s.catCommitted k)

/-! ## Counts and clocks that registers show (R369, R380, R387) -/

/-- A number with a bit for each index. -/
def bitmap (n : Nat) (f : Nat → Bool) : Nat := (List.range n).foldr (fun i a => (if f i then 1 else 0) + 2 * a) 0

/-- R387: in reduced service a die is placeable when its channels have ended their training. -/
def State.dieOk (s : State) (d : Nat) : Bool :=
  4 ≤ s.phase || (List.range 64).all (fun i => 2 ≤ (Store.get ({} : Chan) (64 * d + i) s.chans).st)

/-- Pages of HBM that the POT names. -/
def potPages : Nat := Config.potBase / 4096

/-- The pages of a world in a state of the POT. -/
def State.potCount (s : State) (st : PotSt) (w : Nat) : Nat :=
  (s.pot.filter (fun e => e.2 == { st := st, world := w })).length + (if st == .scrubbing && w == 0 then potPages - s.pot.length else 0)

/-- SCRUBP: the SCRUBBING pages of a world, and the tiles that await a scrub after it. -/
def State.scrubTiles (s : State) (w : Nat) : Nat := (s.tiles.filter (fun e => e.2.scrub == some w)).length

def State.scrubbing (s : State) (w : Nat) : Bool := s.potCount .scrubbing w != 0 || s.scrubTiles w != 0

def State.scrubp (s : State) : Nat :=
  s.scrubTiles s.wsel % 2 ^ 11 + s.potCount .scrubbing s.wsel % 2 ^ 28 * 2 ^ 20 + (if Store.get false s.wsel s.keysZero then 2 ^ 62 else 0) +
  (if s.scrubbing s.wsel then 2 ^ 63 else 0)

def State.bounce (s : State) (c : Nat) : Bounce := Store.get {} c s.bounces

def State.setBounce (s : State) (c : Nat) (x : Bounce) : State := { s with bounces := Store.put {} c x s.bounces }

/-- A deviation from the reference: a free value from -2 to 2 ns. -/
def State.near (s : State) : Nat := s.tb + Config.tbSkew s.tick % 5 - 2

/-- What a clock showed at the latest pulse: the reference where it was behind, else its own reading, up to 2 ns ahead and not below
one that it had given. -/
def State.atPulse (s : State) (k : Clock) : Nat :=
  if k.epoch = s.pulses then k.hold else Nat.max k.last (s.tbPulse + Config.tbSkew s.tick % 5 - 2 |>.max s.tbPulse)

/-- A timebase reading of a tile or core: within 2 ns of the reference and never decreasing. One that was ahead at the latest pulse is
held until the reference has passed it. The deviations are free values. -/
def State.reading (s : State) (k : Clock) : Clock × State :=
  let h := s.atPulse k
  let s1 : State := { s with tick := s.tick + 1 }
  ({ last := if s.tb ≤ h then h else Nat.max (Nat.max k.last h) s1.near, hold := h, epoch := s.pulses }, { s1 with tick := s1.tick + 1 })

/-- A read of EVQ: the oldest record and the count of lost events. -/
def State.evqPop (s : State) : State × Word :=
  let lost := Nat.min 127 s.evLost * 2 ^ 56
  match s.evq with
  | [] => ({ s with evLost := 0 }, BitVec.ofNat 64 lost)
  | e :: r => ({ s with evq := r, evLost := 0 },
      BitVec.ofNat 64 (2 ^ 63 + lost + e.cause % 2 ^ 8 * 2 ^ 48 + e.slot % 2 ^ 11 * 2 ^ 32 + e.detail % 2 ^ 32))

/-! ## Tile and region registers (Table 7.5) -/

/-- The registers of a tile by number, and whether U may write them; nothing where the number is reserved or shut to U. -/
def tileReg (n : Nat) : Option Bool :=
  if n ≤ 0xB || (0x10 ≤ n && n ≤ 0x13) || (0x100 ≤ n && n ≤ 0x11F) then some false else if n = 0x14 then some true else none

/-- TILEPOS (Table 7.6) and INSTANCE (Table 7.8). -/
def Slot.tilePos (r : Slot) (t : Nat) : Nat := t / r.w + t % r.w * 2 ^ 8 + r.h * 2 ^ 24 + r.w * 2 ^ 32 + t * 2 ^ 48

def Slot.instanceReg (r : Slot) : Nat := r.ix % 2 ^ 16 + r.iy % 2 ^ 16 * 2 ^ 16 + r.iz % 2 ^ 16 * 2 ^ 32

/-- What U reads from a register of Table 7.5. -/
def State.tileRead (s : State) (n : Nat) : Word :=
  let r := s.region
  let t := s.ctile
  match n with
  | 0x000 => BitVec.ofNat 64 (s.now % 2 ^ 48)
  | 0x001 => BitVec.ofNat 64 (t.frmorg % 2 ^ 48)
  | 0x002 => BitVec.ofNat 64 (t.segcyc % 2 ^ 48)
  | 0x003 => BitVec.ofNat 64 (r.tilePos s.cur.tile)
  | 0x004 => BitVec.ofNat 64 (s.img.mask % 2 ^ 8)
  | 0x005 => BitVec.ofNat 64 (r.landLimit + r.landHeld % 2 ^ 25 * 2 ^ 32)
  | 0x006 => t.srseed
  | 0x007 => BitVec.ofNat 64 (t.fstepV % 2 ^ 48)
  | 0x008 => BitVec.ofNat 64 (t.fstepM % 2 ^ 48)
  | 0x009 => BitVec.ofNat 64 ((s.snap r.job).rolledTo % 2 ^ 32)
  | 0x00A => if r.snapok then 1 else 0
  | 0x00B => BitVec.ofNat 64 r.instanceReg
  | 0x010 => t.tcause
  | 0x011 => t.tstep
  | 0x012 => t.topd0
  | 0x013 => t.topd1
  | 0x014 => t.tret
  | _ => s.rdSw (n - 0x100)

/-! ## Unit registers (R125, Tables 16.1, 16.2, 18.4, 20.1, 24.1, 26.1) -/

/-- What SWR may do to a register. -/
inductive Acc where
  | reserved | ro | rw
deriving DecidableEq, Repr

/-- The access of a unit register; a write-only one reads as zero. -/
def unitAcc (n : Nat) : Acc :=
  if [0x802, 0x805, 0x822, 0x851, 0x85C, 0x861, 0x870, 0x872, 0x874, 0x877, 0x878].contains n then .ro
  else if n ≤ 0x804 && 0x800 ≤ n || [0x808, 0x809, 0x80A].contains n || (0x810 ≤ n && n ≤ 0x823) || (0x840 ≤ n && n ≤ 0x845) || n = 0x84F || n = 0x850 ||
    n = 0x852 || n = 0x853 || (0x858 ≤ n && n ≤ 0x85B) || n = 0x868 || n = 0x869 || n = 0x871 || n = 0x873 || n = 0x875 || n = 0x876 then .rw
  else .reserved

/-- The job that SNSEL names, whose SNAREA and SNSTAT are read; they read zero where it names none. Notes: log entry 25. -/
def State.snJob (s : State) : Option Nat := (s.handleNode s.snsel).map s.nodeJob

def SnSt.code : SnSt → Nat
  | .idle => 0 | .cutting => 1 | .recording => 2 | .reported => 3 | .rolling => 4

def State.snstat (s : State) : Nat :=
  match s.snJob with
  | none => 0
  | some k => (s.snap k).issuer % 2 ^ 13 + (if s.area k = 0 then 0 else (s.committed k).length) % 32 * 2 ^ 24 + (s.snap k).st.code * 2 ^ 29 + (s.snap k).id % 2 ^ 32 * 2 ^ 32

def Vif.vifq (v : Vif) : Nat := (if v.en then 1 else 0) + v.status * 4 + v.qlog % 32 * 16 + v.qbase / 4096 % 2 ^ 44 * 2 ^ 12

def idxWord (w r : Nat) : Nat := r % 2 ^ 21 + w % 2 ^ 21 * 2 ^ 32

/-- HBMTRN of a channel. -/
def Chan.reg (c : Chan) : Nat :=
  (if c.pass then 1 else 0) + c.lane0.getD 0 % 2 ^ 7 * 2 ^ 8 + (if c.lane0.isSome then 2 ^ 15 else 0) + c.lane1.getD 0 % 2 ^ 7 * 2 ^ 16 +
  (if c.lane1.isSome then 2 ^ 23 else 0) + c.wrw % 2 ^ 8 * 2 ^ 24 + c.rdw % 2 ^ 8 * 2 ^ 32 + c.wrc % 2 ^ 8 * 2 ^ 40 + c.rdc % 2 ^ 8 * 2 ^ 48 + c.st % 4 * 2 ^ 62

/-- BRSTAT. -/
def State.brstat (s : State) : Nat :=
  s.phase % 8 + (if s.rotsb then 8 else 0) + bitmap 8 s.dieOk * 16 + (s.ports.filter (fun e => e.2.up)).length % 64 * 2 ^ 18 + s.eth % 4 * 2 ^ 24

def Bounce.stat (x : Bounce) : Nat := x.cnt % 2 ^ 48 + x.err % 2 ^ 7 * 2 ^ 56 + (if x.resync then 2 ^ 63 else 0)

def State.potstat (s : State) : Nat := s.potDone % 2 ^ 28 + s.potErr % 2 ^ 7 * 2 ^ 56 + (if s.potBusy then 2 ^ 63 else 0)

/-- WKCTL: GEN reads 1 exactly while BUSY does, since no rule says when it clears. Notes: log entry 38. -/
def State.wkctl (s : State) : Nat := s.wkWorld % 64 + (if s.wkBusy then 2 ^ 8 + 2 ^ 63 else 0) + s.wkErr % 2 ^ 7 * 2 ^ 56

def State.sdctl (s : State) : Nat := (if s.sdgo then 1 else 0) + (if s.sdall then 2 else 0) + s.sdsize % 4 * 2 ^ 8

/-- What a core reads from a unit register that a read does not change. -/
def State.unitRead (s : State) (n : Nat) : Nat :=
  let c := s.ccore
  let v := s.vifOf s.vifsel
  let b := s.bounce s.bcsel
  match n with
  | 0x800 => c.ccvec
  | 0x801 => c.ccret
  | 0x802 => c.ccCause % 2 ^ 8 + (if c.ccInt then 2 ^ 8 else 0)
  | 0x803 => c.ipend
  | 0x804 => c.imask
  | 0x808 => s.sdva * 2 ^ 12
  | 0x809 => s.sdroot * 2 ^ 12
  | 0x80A => s.sdctl
  | 0x820 => s.snsel
  | 0x821 => (s.snJob.map s.area).getD 0
  | 0x822 => s.snstat
  | 0x823 => s.sndrop
  | 0x840 => s.vifsel
  | 0x841 => v.vifq
  | 0x842 => idxWord v.widx v.ridx
  | 0x843 => v.ctl
  | 0x844 => s.age
  | 0x845 => v.world
  | 0x84F => s.wsel
  | 0x851 => s.potstat
  | 0x852 => s.wkctl
  | 0x853 => Store.get 0 s.wsel s.wlog
  | 0x858 => s.bcsel
  | 0x859 => b.ctl
  | 0x85A => b.ring
  | 0x85B => idxWord b.widx b.ridx
  | 0x85C => b.stat
  | 0x861 => s.scrubp
  | 0x868 => s.shedcap
  | 0x869 => s.shedord
  | 0x871 => s.tbwall.toNat
  | 0x872 => s.brstat
  | 0x873 => s.hbmsel
  | 0x874 => (Store.get ({} : Chan) s.hbmsel s.chans).reg
  | 0x875 => s.fwsel
  | 0x876 => Store.get 0 s.fwsel s.fwin
  | 0x877 => s.ethdrop % 2 ^ 64
  | 0x878 => s.pkgid % 2 ^ 13
  | _ => if 0x810 ≤ n && n ≤ 0x81F then Store.get 0 (n - 0x810) s.wentry else 0

/-- The sixteen classes, each once. -/
def isPerm16 (v : Nat) : Bool := (List.range 16).all (fun c => (List.range 16).any (fun i => bits v (4 * i) 4 == c))

/-- POTCMD is written; while another one runs the write is ignored. -/
def State.potStart (s : State) (op w page npg : Nat) : State :=
  if s.potBusy then s else { s with potBusy := true, potErr := 0, potDone := 0, potCmd := some (op, w, page, npg) }

/-- SNAREA_WRITE (R325). -/
def State.writeSnarea (s : State) (value : Nat) : State :=
  match s.handleNode s.snsel with
  | none => s
  | some x =>
    let k := s.nodeJob x
    if (s.snap k).st != .idle || bits value 0 21 != 0 then s else s.setSnap k { s.snap k with area := bits value 21 31 * 2 ^ 21 }

/-- SDCTL.GO is set: every die's map units are to acknowledge. -/
def State.startShoot (s : State) : State :=
  if s.sdgo then s else { s with sdgo := true, sdwait := List.range 8, sdNow := (s.sdva, s.sdroot, s.sdsize, s.sdall) }

/-- A write of WKCTL: WORLD is stored; GEN := 1 starts a GEN for that world, unless one runs. -/
def State.writeWkctl (s : State) (v : Nat) : State :=
  let s1 : State := { s with wkWorld := bits v 0 6 }
  if s.wkBusy || bits v 8 1 = 0 then s1 else { s1 with wkBusy := true, wkGen := bits v 0 6 }

/-- A write of a unit register, but for what EN of VIFQ and BCCTL does: reserved bits are not stored, and a value that a rule calls ignored
is. TQ and CHQ of VIFCTL are stored as written, also above their ranges. Notes: log entry 24. -/
def State.unitStore (s : State) (n v : Nat) : State :=
  let c := s.ccore
  let x := s.vifOf s.vifsel
  let b := s.bounce s.bcsel
  match n with
  | 0x800 => s.setCcore { c with ccvec := bits v 0 16 }
  | 0x801 => s.setCcore { c with ccret := bits v 0 16 }
  | 0x803 => s.setCcore { c with ipend := c.ipend ^^^ (c.ipend &&& v) }
  | 0x804 => s.setCcore { c with imask := bits v 0 6 }
  | 0x808 => { s with sdva := bits v 12 44 }
  | 0x809 => { s with sdroot := bits v 12 40 }
  | 0x80A =>
    let s1 : State := { s with sdsize := bits v 8 2, sdall := bits v 1 1 == 1 }
    if bits v 0 1 = 1 then s1.startShoot else s1
  | 0x820 => { s with snsel := v }
  | 0x821 => s.writeSnarea v
  | 0x823 => { s with sndrop := bits v 0 32 }
  | 0x840 => { s with vifsel := bits v 0 8 }
  | 0x841 => if x.en then s else s.setVif s.vifsel { x with qbase := bits v 12 44 * 4096, qlog := bits v 4 5 }
  | 0x842 => if x.en then s else s.setVif s.vifsel { x with widx := bits v 32 21, ridx := bits v 0 21 }
  | 0x843 => s.setVif s.vifsel { x with ctl := bits v 0 33 }
  | 0x844 => if bits v 0 32 = 0 then s else { s with age := bits v 0 32 }
  | 0x845 => if x.en || s.nodes.any (fun m => m.vif == s.vifsel) then s else s.setVif s.vifsel { x with world := bits v 0 6 }
  | 0x84F => { s with wsel := bits v 0 6 }
  | 0x850 => s.potStart (bits v 62 2) (bits v 56 6) (bits v 12 28) (bits v 0 12)
  | 0x852 => s.writeWkctl v
  | 0x853 => { s with wlog := Store.put 0 s.wsel (bits v 12 44 * 2 ^ 12 + bits v 63 1 * 2 ^ 63) s.wlog }
  | 0x858 => { s with bcsel := bits v 0 8 }
  | 0x859 => s.setBounce s.bcsel { b with ctl := bits v 0 4 + bits v 12 51 * 2 ^ 12 }
  | 0x85A => s.setBounce s.bcsel { b with ring := bits v 0 4 + bits v 12 40 * 2 ^ 12 }
  | 0x85B => s.setBounce s.bcsel { b with widx := bits v 32 21, ridx := bits v 0 21 }
  | 0x868 => { s with shedcap := bits v 0 16 }
  | 0x869 => if isPerm16 v then { s with shedord := v } else s
  | 0x871 => { s with tbwall := BitVec.ofNat 64 v }
  | 0x873 => { s with hbmsel := bits v 0 9 }
  | 0x875 => { s with fwsel := bits v 0 11 }
  | 0x876 => { s with fwin := Store.put 0 s.fwsel (bits v 0 13 + bits v 63 1 * 2 ^ 63) s.fwin }
  | _ => if 0x810 ≤ n && n ≤ 0x81F then { s with wentry := Store.put 0 (n - 0x810) (bits v 0 16) s.wentry } else s

/-! ## SRD, TRAP and TIME (R126, R176, R177, R179) -/

/-- R126: the checks of a register number, in order. -/
def State.regCheck (s : State) (reg : Nat) (write : Bool) : Option Trap :=
  if s.atU then
    if 0x800 ≤ reg then some priv
    else if reg = 0x20 || reg = 0x21 then some priv
    else match tileReg reg with
      | none => some ill
      | some rw => if write && !rw then some ill else none
  else if 0x100 ≤ reg && reg ≤ 0x11F then none
  else match unitAcc reg with
    | .reserved => some ill
    | .ro => if write then some ill else none
    | .rw => none

/-- The value that SRD returns, and the state after the read: EVQ pops a record, TBNOW notes its reading. -/
def State.sysRead (s : State) (reg : Nat) : State × Word :=
  if s.atU then (s, s.tileRead reg)
  else if 0x100 ≤ reg && reg ≤ 0x11F then (s, s.rdSw (reg - 0x100))
  else if reg = 0x805 then s.evqPop
  else if reg = 0x870 then
    let r := s.reading s.ccore.clk
    (r.2.setCcore { r.2.ccore with clk := r.1 }, BitVec.ofNat 64 r.1.last)
  else (s, BitVec.ofNat 64 (s.unitRead reg))

/-- SRD. -/
def execSrd (rd reg : Nat) (s : State) : Host.Outcome State Fault Refusal :=
  .next (s.scalarWord { pre := s.regCheck reg false, dest := rd, lat := 2 } (fun a =>
    let r := a.sysRead reg
    .ok (r.1.wrG rd r.2, .fall)))

/-- TRAP: at U the record continues after the word; at S the core's own trap path. -/
def execTrap (code : Nat) (s : State) : Host.Outcome State Fault Refusal :=
  .next (s.scalarWord { pre := s.noHandler } (fun a => .error { cause := .brk, opd0 := some code, tret := some a.cur.nextStep }))

/-- World time (R179): the reading plus TIMEOFF; a core has no context, and its offset is 0. -/
def State.worldTime (s : State) : State × Word :=
  if s.atU then
    let r := s.reading s.ctile.clk
    (r.2.setCtile { r.2.ctile with clk := r.1 }, BitVec.ofNat 64 r.1.last + s.region.timeoff)
  else
    let r := s.reading s.ccore.clk
    (r.2.setCcore { r.2.ccore with clk := r.1 }, BitVec.ofNat 64 r.1.last)

/-- TIME. -/
def execTime (rd : Nat) (s : State) : Host.Outcome State Fault Refusal :=
  .next (s.scalarWord { dest := rd, lat := 2 } (fun a =>
    let r := a.worldTime
    .ok (r.1.wrG rd r.2, .fall)))

end Sys2Proof.Machine
end

