-- ==== Sys2Proof/Machine/Walk.lean ====
section
/-! DEFINITION. The system address map as LDSYS and STSYS reach it, and what a walk routine gives for an address (R183, R303, R314, R330). -/
namespace Sys2Proof.Machine

/-! ## The system address map (R303, Tables 18.5 and 18.6) -/
/-- The region's tiles perform cycles, or are frozen. -/
def RSt.runs (r : RSt) : Bool := r == .running || r == .frozen
/-- The physical tiles that a slot holds: none when its state was moved away. -/
def Slot.tiles (r : Slot) : List Nat := if r.st == .free || r.evicted then [] else (List.range r.count).map r.phys
/-- HRCLK.MHZ as a read shows it. -/
def Slot.clkReg (r : Slot) : Nat := r.mhzNext.getD r.mhz
/-- The region's clock takes a rate; a report at 400 MHz counts only while it stays at that rate (R383). -/
def Slot.setRate (r : Slot) (mhz : Nat) : Slot := { r with mhz := mhz, slow := if mhz = 400 then r.slow else [] }
/-- A new HRCLK rate: at once where no region runs, else at the next pre-emptible boundary. -/
def State.setClock (s : State) (n mhz : Nat) : State :=
  let r := s.slot n
  if mhz < 400 || 1800 < mhz || (r.reduced && 750 < mhz) then s
  else if r.st.runs then s.setSlot n { r with mhzNext := some mhz }
  else s.setSlot n { r.setRate mhz with mhzNext := none }
def State.healthOf (s : State) (p : Nat) : Nat := Store.get 0 p s.health
/-- The slot of the region that runs on a physical tile. -/
def State.slotOn (s : State) (p : Nat) : Option Nat :=
  (s.slots.find? (fun e => (e.2.st.runs || e.2.st == .stowed) && e.2.tiles.contains p)).map (·.1)
/-- The world of a tile: that of the region on it, else that whose scrub it awaits (R369). -/
def State.tileWorld (s : State) (p : Nat) : Nat :=
  match s.slotOn p with
  | some n => (s.slot n).world
  | none => (s.tile p).scrub.getD 0
/-- The single error of one 64-bit word of a tile's space is corrected and counted, an uncorrectable one makes its record (R361); no
instance is touched. -/
def State.patrolTile (s : State) (src p word : Nat) : State :=
  let t := s.tile p
  let w := s.tileWorld p
  if t.bad src (8 * word) 8 then s.errorRecord src true w p
  else if t.single src (8 * word) 8 = 0 then s
  else
    let h := s.healthOf p
    let s1 := s.setTile p { t with ecc := Store.put 0 (eccKey src (8 * word)) 0 t.ecc }
    ({ s1 with health := Store.put 0 p (h % 2 ^ 8 + Nat.min 255 (bits h 8 8 + 1) * 2 ^ 8) s1.health } : State).errorRecord src false w p

/-- What a system address names. -/
inductive Place where
  | stow (tile off : Nat)
  | trapRec (tile k : Nat)
  | slotReg (slot k : Nat)
  | health (tile : Nat)
  | seam (i : Nat)
  | wresp
  | walk (at_ : Nat)
  | phys (pa : Nat)
deriving DecidableEq, Repr

def RSt.code : RSt → Nat
  | .free => 0 | .loaded => 1 | .running => 2 | .frozen => 3 | .stowed => 4

/-- The system address map (Table 18.5) for an aligned address, as the core whose word is in hand reaches it. -/
def State.place (s : State) (a : Nat) : Option Place :=
  let walker := match s.cur.agent with
    | .walker _ => true
    | _ => false
  let o := a % 2 ^ 32
  if 2 ^ 63 ≤ a then
    let pa := a - 2 ^ 63
    if pa < 2 ^ 52 then (s.backing (s.winPkg pa) pa).map .phys else none
  else match a / 2 ^ 32 with
    | 1 => if o / 65536 < 1344 then some (.stow (o / 65536) (o % 65536)) else none
    | 2 => if o / 64 < 1344 && o % 64 / 8 < 5 then some (.trapRec (o / 64) (o % 64 / 8)) else none
    | 3 => if o / 64 < 1344 && o % 64 / 8 < 6 then some (.slotReg (o / 64) (o % 64 / 8)) else none
    | 4 => if o < 8 * 1344 then some (.health (o / 8)) else if 65536 ≤ o && o < 65536 + 80 then some (.seam ((o - 65536) / 8)) else none
    | 5 => if o = 0 && walker then some .wresp else none
    | 6 => if o < 8 * 65536 && !walker then some (.walk o) else none
    | _ => none

/-- Where the lines of the walk stores stand among those that an error can meet: past the HBM. -/
def walkPa (at_ : Nat) : Nat := Config.hbmBytes + at_

/-- A Harness slot register as it reads. -/
def Slot.reg (r : Slot) (k : Nat) : Nat :=
  match k with
  | 0 => r.px % 64 + r.py % 32 * 2 ^ 8 + r.w % 64 * 2 ^ 16 + r.h % 32 * 2 ^ 24 + r.orient % 8 * 2 ^ 32 + r.st.code * 2 ^ 40
  | 2 => (if r.done then 1 else 0) + (if r.handler then 4 else 0) + (if r.preq then 8 else 0) + r.err % 16 * 2 ^ 8 +
      (if r.st == .frozen then r.ftile % 2 ^ 16 * 2 ^ 16 + r.ntrap % 2 ^ 16 * 2 ^ 32 else 0)
  | 3 => r.ctx * 2 ^ 23
  | 4 => r.clkReg % 2 ^ 11
  | 5 => r.fmt % 16 * 2 ^ 8 + r.root * 2 ^ 12
  | _ => 0

/-- A trap record register of a tile. -/
def Tile.recReg (t : Tile) (k : Nat) : Word :=
  match k with
  | 0 => t.tcause
  | 1 => t.tstep
  | 2 => t.topd0
  | 3 => t.topd1
  | _ => t.tret

/-- R357: a core reads and writes no page of world 1 to 63; a walk reads pages of its context's world too. Notes: log entry 53. -/
def State.corePage (s : State) (pa : Nat) (rd : Bool) : Bool :=
  let e := s.potOf (pa / 4096)
  e.world == 0 || (rd && s.ccore.walking && e == { st := .assigned, world := s.ctxWorld s.ccore.walkSlot })

/-- The outcome of an 8-byte access: done, or a trap of the core. A correction that it meets marks no instance CORRECTED. Notes: log entry 20. -/
def State.ldPlace (s : State) (p : Place) : Except Trap (State × Word) :=
  match p with
  | .stow t o =>
    let x := s.tile t
    let addr := Config.stowBase + o
    if x.bad 3 (addr / 64 * 64) 64 then .error { cause := .poison }
    else
      let s1 := match s.slotOn t with
        | some n => s.correctAt n t 3 addr 8
        | none => s.patrolTile 3 t (addr / 8)
      .ok (s1, BitVec.ofNat 64 (leNat (Store.getN 0 x.sram addr 8)))
  | .trapRec t k => .ok (s, (s.tile t).recReg k)
  | .slotReg n k => .ok (s, BitVec.ofNat 64 ((s.slot n).reg k))
  | .health t => .ok (s, BitVec.ofNat 64 (s.healthOf t))
  | .seam i => .ok (s, BitVec.ofNat 64 (Store.get 0 i s.seamLat))
  | .wresp => .ok (s, 0)
  | .walk o =>
    let s1 := s.fixLines none (walkPa o) 8
    if !(s1.linesIn (walkPa o) 8 2).isEmpty then .error { cause := .poison } else .ok (s1, BitVec.ofNat 64 (leNat (Store.getN 0 s.walkStore o 8)))
  | .phys pa =>
    if isWindow pa then
      let c := s.remoteCode true
      if c.1 = 1 then .error { cause := .poison } else if c.1 = 3 then .error { cause := .owner }
      else .ok (c.2, BitVec.ofNat 64 (leNat ((List.range 8).map (Config.remoteByte s.tick))))
    else if !s.corePage pa true then .error { cause := .owner }
    else
      let s1 := s.fixLines none pa 8
      if !(s1.linesIn pa 8 2).isEmpty then .error { cause := .poison } else .ok (s1, BitVec.ofNat 64 (leNat (s1.rdPhys pa 8)))

/-- The region on a tile is RUNNING: its stow area and record are not written. -/
def State.tileRuns (s : State) (t : Nat) : Bool := s.slots.any (fun e => e.2.st == .running && e.2.tiles.contains t)

/-- The bits of TRET that hold a field. -/
def tretMask : Word := 0x800000000000FFFF
/-- A trap record register takes a value: its fields, its reserved bits as they were. -/
def Tile.setRec (t : Tile) (k : Nat) (v : Word) : Tile :=
  match k with
  | 0 => { t with tcause := v &&& 0x0FFFFFFFFFFFFFFF }
  | 1 => { t with tstep := v &&& 0xFFFF }
  | 2 => { t with topd0 := v }
  | 3 => { t with topd1 := v }
  | _ => { t with tret := v &&& tretMask }

/-- What an 8-byte store leaves in a place that is plain storage: a poisoned line stays poisoned. -/
def State.keepPlace (s : State) (p : Place) (v : Word) : State :=
  match p with
  | .stow t o =>
    let x := s.tile t
    let addr := Config.stowBase + o
    if s.tileRuns t then s
    else s.setTile t { x with sram := Store.putL 0 x.sram addr (b8 v.toNat), ecc := x.ecc.filter (fun e => !(e.1 == eccKey 3 addr && e.2 == 1)) }
  | .trapRec t k => if s.tileRuns t then s else s.setTile t ((s.tile t).setRec k v)
  | .seam i => { s with seamLat := Store.put 0 i (bits v.toNat 0 5) s.seamLat }
  | .wresp => s.setCcore { s.ccore with wresp := some v }
  | .walk o => { s with walkStore := Store.putL 0 s.walkStore o (b8 v.toNat) }
  | .phys pa => s.wrPhys pa (b8 v.toNat) []
  | .slotReg _ _ | .health _ => s

/-- R183: alignment, then the map. -/
def State.sysAddr (s : State) (rs : Nat) (disp : Int) : Except Trap Place :=
  let a := (s.rdG rs + BitVec.ofInt 64 (8 * disp)).toNat
  if a % 8 != 0 then .error { cause := .align }
  else match s.place a with
    | none => .error { cause := .xlate }
    | some p => .ok p

/-- What an LDSYS of an aligned, mapped address does. -/
def State.sysLoad (s : State) (rd rs : Nat) (disp : Int) : Except Trap (State × Flow) :=
  match s.sysAddr rs disp with
  | .error t => .error t
  | .ok p =>
    match s.ldPlace p with
    | .error t => .error t
    | .ok r => .ok (r.1.wrG rd r.2, .fall)

/-- A core stops. -/
def State.stopCore (s : State) : State := s.setCcore { s.ccore with halted := true }

/-! ## What a walk gives (R314, R330) -/

/-- The words of a die's walk store from step `k` on. -/
def State.walkWords (s : State) (n k : Nat) : List Code :=
  ((List.range 3).filter (fun i => k + i < 16384)).map (fun i => BitVec.ofNat 32 (leNat (Store.getN 0 s.walkStore (n * 65536 + 4 * (k + i)) 4)))

/-- The walk of an address of a context on a die's walker core, as it would begin now. -/
def State.walkOf (s : State) (die ctx va kind : Nat) : State :=
  ({ s with cur := { agent := .walker die } }.setWalker die { s.walker die with walking := false, failed := false }).startWalk die ctx va kind

/-- A write of a Harness slot register that is plain storage. HRPLACE and HRSTAT are read only, and what HRCMD starts is not here. -/
def State.slotStore (s : State) (n k v : Nat) : State :=
  match k with
  | 3 => s.setSlot n { s.slot n with ctx := bits v 23 29 }
  | 4 => s.setClock n (bits v 0 11)
  | 5 => s.setSlot n { s.slot n with root := bits v 12 40, fmt := bits v 8 4 }
  | _ => s
/-- A health entry takes a value. -/
def State.healthStore (s : State) (p v : Nat) : State := { s with health := Store.put 0 p (v % 2 ^ 7 + bits v 8 8 * 2 ^ 8) s.health }

/-- A STSYS of a walk routine: what it stores. What HRCMD, or a cleared bit of a health entry, starts is not followed. Notes: log entry 52. -/
def State.walkStoreSys (s : State) (rt rs : Nat) (disp : Int) : Except Trap (State × Flow) :=
  let v := s.rdG rt
  match s.sysAddr rs disp with
  | .error t => .error t
  | .ok (.phys pa) => if isWindow pa then .ok (s, .fall) else if s.corePage pa false then .ok (s.keepPlace (.phys pa) v, .fall) else .error { cause := .owner }
  | .ok (.slotReg n k) => .ok (s.slotStore n k v.toNat, .fall)
  | .ok (.health p) => .ok (s.healthStore p v.toNat, .fall)
  | .ok p => .ok (s.keepPlace p v, .fall)
/-- A SWR of a walk routine; what EN of VIFQ and BCCTL does is not followed. Notes: log entry 52. -/
def State.walkSwr (s : State) (reg : Nat) (v : Word) : State :=
  if 0x100 ≤ reg && reg ≤ 0x11F then s.wrSw (reg - 0x100) (v &&& 0xFF00FFFFFFFFFFFF) else s.unitStore reg v.toNat
/-- A SNAP, ROLLB or KEYZ of a walk routine: its status word is armed. Notes: log entry 52. -/
def State.walkArm (s : State) (sw : Nat) : State :=
  match s.arm sw 1 with
  | none => s.statusWrite sw 9
  | some r => r.1

/-- One word of a walk routine, as a walker core executes it, with all that bears on its later words; a word of SQ alone raises ILL. Notes:
log entry 52. -/
def State.walkWord (s : State) : Instr → Host.Outcome State Fault Refusal
  | .add rd rs rt => execAdd rd rs rt s
  | .sub rd rs rt => execSub rd rs rt s
  | .and rd rs rt => execAnd rd rs rt s
  | .or rd rs rt => execOr rd rs rt s
  | .xor rd rs rt => execXor rd rs rt s
  | .shl rd rs rt => execShl rd rs rt s
  | .shr rd rs rt => execShr rd rs rt s
  | .sra rd rs rt => execSra rd rs rt s
  | .slt rd rs rt => execSlt rd rs rt s
  | .sltn rd rs rt => execSltn rd rs rt s
  | .min rd rs rt => execMin rd rs rt s
  | .max rd rs rt => execMax rd rs rt s
  | .minn rd rs rt => execMinn rd rs rt s
  | .maxn rd rs rt => execMaxn rd rs rt s
  | .sel rd rc rs rt => execSel rd rc rs rt s
  | .clz rd rs => execClz rd rs s
  | .ctz rd rs => execCtz rd rs s
  | .popc rd rs => execPopc rd rs s
  | .brev rd rs => execBrev rd rs s
  | .mul rd rs rt => execMul rd rs rt s
  | .mulh rd rs rt => execMulh rd rs rt s
  | .mulhn rd rs rt => execMulhn rd rs rt s
  | .div rd rs rt => execDiv rd rs rt s
  | .divn rd rs rt => execDivn rd rs rt s
  | .rem rd rs rt => execRem rd rs rt s
  | .remn rd rs rt => execRemn rd rs rt s
  | .addi rd rs imm => execAddi rd rs imm s
  | .andi rd rs imm => execAndi rd rs imm s
  | .ori rd rs imm => execOri rd rs imm s
  | .xori rd rs imm => execXori rd rs imm s
  | .slti rd rs imm => execSlti rd rs imm s
  | .shli rd rs n => execShli rd rs n s
  | .shri rd rs n => execShri rd rs n s
  | .srai rd rs n => execSrai rd rs n s
  | .lui rd imm => execLui rd imm s
  | .ldb rd rs buf disp => execLdb rd rs buf disp s
  | .ldh rd rs buf disp => execLdh rd rs buf disp s
  | .ldw rd rs buf disp => execLdw rd rs buf disp s
  | .ldd rd rs buf disp => execLdd rd rs buf disp s
  | .ldbN rd rs buf disp => execLdbN rd rs buf disp s
  | .ldhN rd rs buf disp => execLdhN rd rs buf disp s
  | .ldwN rd rs buf disp => execLdwN rd rs buf disp s
  | .stb rd rs buf disp => execStb rd rs buf disp s
  | .sth rd rs buf disp => execSth rd rs buf disp s
  | .stw rd rs buf disp => execStw rd rs buf disp s
  | .std rd rs buf disp => execStd rd rs buf disp s
  | .beq rs rt off => execBeq rs rt off s
  | .bne rs rt off => execBne rs rt off s
  | .blt rs rt off => execBlt rs rt off s
  | .bge rs rt off => execBge rs rt off s
  | .bltn rs rt off => execBltn rs rt off s
  | .bgen rs rt off => execBgen rs rt off s
  | .jal rd off => execJal rd off s
  | .jalr rd rs imm => execJalr rd rs imm s
  | .loop rs dist => execLoop rs dist s
  | .estart e rs cont => execEstart e rs cont s
  | .estop e => execEstop e s
  | .ebase e rs => execEbase e rs s
  | .ebaseTarget e target => execEbaseTarget e target s
  | .ewait e => execEwait e s
  | .nop => .next (s.scalarWord {} (fun a => .ok (a, .fall)))
  | .halt => .next (s.scalarWord {} (fun a => .ok (a.stopCore, .fall)))
  | .ldsys rd rs disp => .next (s.scalarWord { reads := [rs], dest := rd } (fun a => a.sysLoad rd rs disp))
  | .stsys rt rs disp => .next (s.scalarWord { reads := [rs, rt] } (fun a => a.walkStoreSys rt rs disp))
  | .srd rd reg => execSrd rd reg s
  | .swr reg rs => .next (s.scalarWord { pre := s.regCheck reg true, reads := [rs] } (fun a => .ok (a.walkSwr reg (a.rdG rs), .fall)))
  | .trap code => execTrap code s
  | .eret => .next (s.scalarWord {} (fun a => .ok (a.setCcore a.ccore.eret, .back a.ccore.ccret)))
  | .time rd => execTime rd s
  | .snap _ _ sw | .rollb _ _ sw | .keyz _ sw => .next (s.scalarWord {} (fun a => .ok (a.walkArm sw, .fall)))
  | _ => .next (s.takeTrap ill)

/-- The routine of a walk runs on its walker core for at most `fuel` words, to the PTE that it gives, if it gives one. A trap of its LDSYS,
and any second trap, ends it. -/
def State.walkRun (die : Nat) : Nat → State → Option Word
  | 0, _ => none
  | fuel + 1, s =>
    let w := s.walker die
    let ws := s.walkWords die w.step
    if w.failed || (w.inTrap && (w.ccCause == Cause.code .poison || w.ccCause == Cause.code .owner)) then none
    else if w.halted then w.wresp
    else match decode ws with
      | .error _ => State.walkRun die fuel (({ s with cur := { agent := .walker die, first := w.step, step := w.step, nextStep := w.step + 1 } } : State).takeTrap ill)
      | .ok d =>
        let lost (v : Nat) : Bool := !(s.linesIn (walkPa (die * 65536 + 4 * w.step)) (4 * d.len) v).isEmpty
        let u : State := { s with cur := {
          agent := .walker die, first := w.step, step := w.step + d.len - 1, nextStep := w.step + d.len, word := d.word, pay := payNear d.pays, np := d.pays.length } }
        if lost 2 || lost 3 then none
        else match u.walkWord d.instr with
          | .next v => State.walkRun die fuel v
          | _ => none

/-- The words that a walk may take: one that runs longer than the 100 us of its watchdog gives XLATE (R314). Notes: log entry 52. -/
def walkFuel : Nat := 2 ^ 18

/-- The PTE that a walk of a region's context gives now, if it gives one. -/
def State.walkPte (s : State) (die ctx va kind : Nat) : Option Word := State.walkRun die walkFuel (s.walkOf die ctx va kind)

/-- A PTE maps a 4 KiB page of HBM with WR = 1, for the page number `v` of the address; `home` asks for a home-SYE page too. -/
def State.pteMaps (s : State) (p : Word) (v page : Nat) (home : Bool) : Bool :=
  let n := 2 ^ (pageBits (pteSize p) - 12)
  pteValid p && pteSize p != 3 && pteAtom p != 3 && pteWr p && (!home || pteAtom p != 0) &&
  ((s.backing (s.winPkg (pteBase p)) (pteBase p)).any (fun a => !isWindow a && page == a / 4096 + v % n))

/-- R330: the translation root of a slot's region maps a page with WR = 1: some address walks to it. -/
def State.rootMaps (s : State) (n page : Nat) (home : Bool) : Bool :=
  (List.range (2 ^ 44)).any (fun v => [kRead, kWrite, kAtomic].any (fun kind =>
    (s.walkPte (dieOf ((s.slot n).phys 0)) n (4096 * v) kind).any (fun p => s.pteMaps p v page home)))

end Sys2Proof.Machine
end

