-- ==== Sys2Proof/Machine/Folio.lean ====
section
/-! DEFINITION. The snapshot area: the catalogue, the folio and its records, copies on write, commit and abort on one package, and the package event queue (R301, R324 to R327, R330, R334 to R337). -/
namespace Sys2Proof.Machine

/-! ## Events (R301) -/

/-- An event is appended to the queue, or counted as lost where 1,024 stand in it. -/
def State.postEvent (s : State) (cause slot detail : Nat) : State :=
  if 1024 ≤ s.evq.length then { s with evLost := s.evLost + 1 }
  else ({ s with evq := s.evq ++ [({ cause := cause, slot := slot, detail := detail } : Event)] } : State).raiseCC ipEvent

/-! ## Jobs and who waits (R180, R279, R324) -/

/-- The slots that hold a region of a job. -/
def State.slotsOf (s : State) (k : Nat) : List Nat := (s.slots.filter (fun e => e.2.st != .free && e.2.st != .loaded && e.2.job == k)).map (·.1)

/-- The agent whose word is in hand, as a number. -/
def Cur.code (c : Cur) : Nat :=
  match c.agent with
  | .core n => n
  | .walker n => Config.coreCount + n
  | .region n => 1024 + 2048 * n + c.tile

/-- The new value of a status word that a request armed with 1 completes (R63). -/
def endWord (w : Word) (phase : Bool) (code : Nat) : Word := if code = 0 then swPerform w phase 1 else swStatus w code

/-- A status word of tile `t` of the region of slot `n` completes; where the region is stowed it stands in the stow area (R306). -/
def State.completeTile (s : State) (n t sw : Nat) (f : Word → Word) : State :=
  let r := s.slot n
  let off := 0x8300 + 8 * sw
  if r.st != .stowed then s.setTileAt n t ((s.tileAt n t).swUpd sw f)
  else if r.evicted then
    let a := r.ctxBase + t * blockBytesCtx + Config.stowBase + off
    let u := s.fixLines (some n) a 8
    u.ctxWrite r.world a (b8 (f (BitVec.ofNat 64 (leNat (u.ctxRead r.world a 8)))).toNat) []
  else
    let x := s.tileAt n t
    s.setTileAt n t (x.wrSram (Config.stowBase + off) (b8 (f (BitVec.ofNat 64 (leNat (x.stowRd off 8)))).toNat))

/-- The status word of a waiting agent completes with a code. -/
def State.completeFor (s : State) (who : Option (Nat × Nat × Bool)) (code : Nat) : State :=
  match who with
  | none => s
  | some (a, sw, ph) =>
    if a < Config.coreCount then
      s.setCore a { s.core a with sw := Store.put 0 sw (endWord (Store.get 0 sw (s.core a).sw) ph code) (s.core a).sw }
    else if a < 1024 then
      let n := a - Config.coreCount
      s.setWalker n { s.walker n with sw := Store.put 0 sw (endWord (Store.get 0 sw (s.walker n).sw) ph code) (s.walker n).sw }
    else s.completeTile ((a - 1024) / 2048) ((a - 1024) % 2048) sw (fun w => endWord w ph code)

/-- The agent of a wait is a tile of a slot. -/
def waitsIn (n : Nat) (who : Option (Nat × Nat × Bool)) : Bool := who.any (fun w => decide (1024 ≤ w.1) && (w.1 - 1024) / 2048 == n)
/-- What the tiles of a slot wait for completes no word any more: the slot is freed. A write that is still held holds its page again when
it next tries. -/
def State.forgetWaits (s : State) (n : Nat) : State :=
  { s with
    heldPages := [],
    snaps := s.snaps.map (fun e => if waitsIn n e.2.who then (e.1, { e.2 with who := none }) else e),
    keyz := s.keyz.map (fun e => if waitsIn n e.2 then (e.1, none) else e) }

/-! ## The snapshot area (Table 20.2) -/

/-- The device reads header and catalogue: lines that need it are corrected first (R319). -/
def State.fixArea (s : State) (k : Nat) : State := if s.area k = 0 then s else s.fixLines none (s.area k) 0x5000
def State.areaLen (s : State) (k : Nat) : Nat := s.areaU k 0x8 4 * 0x200000
/-- The packages of the job's set other than this one (R324). -/
def State.peers (s : State) (k : Nat) : List Nat :=
  ((List.range (s.areaU k 0xC 2)).map (fun i => s.areaU k (0x1000 + 2 * i) 2 % 2 ^ 13)).filter (fun p => p != s.pkgid)

/-- A write of the device to the area: it fails where a page is not the world's. -/
def State.areaWrite (s : State) (k off : Nat) (data : List Byte) (bad : List Nat) : Option State :=
  let pa := s.area k + off
  if (pieces pa data.length).all (fun p => s.ownedPage (k % 64) p.1) then some (s.wrPhys pa data bad) else none

def State.catId (s : State) (k i : Nat) : Nat := bits (s.cat k i 0) 0 32
def State.catSeq (s : State) (k i : Nat) : Nat := s.cat k i 1
def State.catFind (s : State) (k id : Nat) : Option Nat := (List.range 17).find? (fun i => s.catValid k i && s.catId k i == id)

/-- Write catalogue words; the area's first pages are the world's by the check made when the snapshot began. -/
def State.catWrite (s : State) (k i : Nat) (ws : List Nat) : State := (s.areaWrite k (0x100 + 64 * i) (ws.flatMap b8) []).getD s
def State.catDrop (s : State) (k i : Nat) : State := s.catWrite k i [0, 0, 0, 0, 0, 0]

/-- The committed entry of lowest SEQ, but for the growing folio's own. -/
def State.oldest (s : State) (k : Nat) : Option Nat :=
  let own := if (s.snap k).growing then some (s.snap k).entry else none
  ((s.committed k).filter (fun i => some i != own)).foldl (fun b i => match b with
    | none => some i
    | some j => if s.catSeq k i < s.catSeq k j then some i else some j) none

/-- A drop of a committed folio posts SNAPSHOT (R337); one that copies on write still go to takes its marks with it. -/
def State.dropFolio (s : State) (k i : Nat) : State :=
  let s1 := (s.catDrop k i).postEvent 0x12 ((s.slotsOf k).headD 0) 0
  let x := s1.snap k
  if x.old.any (fun o => o.1 == i) then s1.setSnap k { x with old := none, pages := [] } else s1

/-- The space of the valid folios but for entry `e`: first byte, and the whole page after the last. -/
def State.folioSpans (s : State) (k e : Nat) : List (Nat × Nat) :=
  ((List.range 17).filter (fun i => s.catValid k i && i != e)).map (fun i => (s.cat k i 2, (s.cat k i 2 + s.cat k i 3 + 4095) / 4096 * 4096))

/-- `n` bytes fit at an offset: they end within the area and meet no other folio. -/
def State.roomAt (s : State) (k e off n : Nat) : Bool :=
  decide (off + n ≤ s.areaLen k) && (s.folioSpans k e).all (fun d => decide (off + n ≤ d.1) || decide (d.2 ≤ off))

/-- The lowest whole page at which `n` bytes fit. -/
def State.lowRoom (s : State) (k e n : Nat) : Option Nat :=
  ((0x5000 :: (s.folioSpans k e).map (·.2)).filter (fun o => s.roomAt k e o n)).foldl (fun b o => some (match b with
    | none => o
    | some m => Nat.min m o)) none

/-- The poisoned lines of a range of the area, as offsets of its bytes. -/
def State.areaBad (s : State) (k off n : Nat) : List Nat :=
  ((List.range ((n + 63) / 64)).map (64 * ·)).filter (fun o => !(s.linesIn (s.area k + off + o) (Nat.min 64 (n - o)) 2).isEmpty)

/-- The growing folio moves to an offset, with its poison; its catalogue entry follows. -/
def State.moveFolio (s : State) (k off : Nat) : State :=
  let s1 := s.fixLines none (s.area k + (s.snap k).foff) (s.snap k).fpos
  let x := s1.snap k
  match s1.areaWrite k off (s1.rdPhys (s1.area k + x.foff) x.fpos) (s1.areaBad k x.foff x.fpos) with
  | none => s1
  | some u => (u.setSnap k { x with foff := off }).catWrite k x.entry [u.cat k x.entry 0, u.cat k x.entry 1, off, x.fpos, u.cat k x.entry 4, u.cat k x.entry 5]

/-- Make room for `n` more bytes of the growing folio: where it stands, else elsewhere in the area, else by dropping committed folios
in ascending SEQ (R337); at most `fuel` of them. -/
def State.makeRoom (s : State) (k n : Nat) : Nat → State
  | 0 => s
  | fuel + 1 =>
    let x := s.snap k
    if s.roomAt k x.entry x.foff (x.fpos + n) then s
    else match s.lowRoom k x.entry (x.fpos + n) with
      | some o => s.moveFolio k o
      | none => match s.oldest k with
        | none => s
        | some i => (s.dropFolio k i).makeRoom k n fuel

/-- The bytes of a folio record (R336). -/
def folioRecord (kind key : Nat) (data : List Byte) : List Byte :=
  leBytes 4 kind ++ leBytes 4 data.length ++ b8 key ++ pad16 data

/-- Append a record to the growing folio; `none` when it does not fit or a write fails. `bad` are offsets of the data. -/
def State.folioAppend (s : State) (k kind key : Nat) (data : List Byte) (bad : List Nat) : Option State :=
  let rec_ := folioRecord kind key data
  let s1 := s.makeRoom k rec_.length 18
  let x := s1.snap k
  if !x.growing || !s1.roomAt k x.entry x.foff (x.fpos + rec_.length) then none
  else match s1.areaWrite k (x.foff + x.fpos) rec_ (bad.map (· + 16)) with
    | none => none
    | some s2 =>
      let s3 := s2.setSnap k { x with fpos := x.fpos + rec_.length }
      some (s3.catWrite k x.entry [s3.cat k x.entry 0, s3.cat k x.entry 1, x.foff, x.fpos + rec_.length, s3.cat k x.entry 4, s3.cat k x.entry 5])

/-- The records of a folio, as kind, key, offset of the data and data; at most `fuel` of them. -/
def parseRecs : Nat → Nat → List Byte → List (Nat × Nat × Nat × List Byte)
  | 0, _, _ => []
  | fuel + 1, off, bs =>
    if bs.length < 16 then []
    else
      let n := recU bs 4 4
      let len := 16 + (n + 15) / 16 * 16
      (recU bs 0 1, recU bs 8 8, off + 16, (bs.drop 16).take n) :: parseRecs fuel (off + len) (bs.drop len)
/-- The records of the folio of catalogue entry `i`. -/
def State.folioRecs (s : State) (k i : Nat) : List (Nat × Nat × Nat × List Byte) :=
  let n := s.cat k i 3
  parseRecs (n / 16 + 1) (s.cat k i 2) (s.rdPhys (s.area k + s.cat k i 2) n)
/-- The growing folio already holds a record: a rollback leaves such records standing (R339). -/
def State.folioHas (s : State) (k kind key : Nat) : Bool :=
  (s.snap k).growing && (s.folioRecs k (s.snap k).entry).any (fun r => r.1 == kind && r.2.1 == key)

/-- A folio starts on a whole page, after the last one that is kept where there is room, else at the lowest room; its catalogue entry is
RUNNING. Notes: log entry 25. -/
def State.folioStart (s : State) (k id issuer : Nat) : State :=
  let e := ((List.range 17).find? (fun i => !s.catValid k i)).getD 0
  let last := (s.folioSpans k e).foldl (fun m d => Nat.max m d.2) 0x5000
  let off := if s.roomAt k e last 4096 then last else (s.lowRoom k e 4096).getD last
  let x := s.snap k
  let s1 := s.setSnap k { x with seq := x.seq + 1, entry := e, foff := off, fpos := 0, growing := true }
  s1.catWrite k e [2 ^ 63 + id, x.seq + 1, off, 0, 0, issuer]

/-! ## Release and abort (R327, R336) -/

/-- The marks of the job's buffers, in the tiles that hold them, each with the buffer's state word of now. -/
def State.setBufMarks (s : State) (k : Nat) (f : Nat → Nat → Nat → Bool) : State :=
  ((s.slotsOf k).filter (fun n => !(s.slot n).evicted)).foldl (fun (u : State) n =>
    (List.range (u.slot n).count).foldl (fun (v : State) t =>
      let x := v.tileAt n t
      v.setTileAt n t ((List.range 64).foldl (fun (y : Tile) b => y.setBuf b { y.buf b with snapped := f n t b, cutW := (y.buf b).word }) x)) u) s

/-- A region that waits at its cut goes on in the next cycle, at a clock rate that is pending there (R342); a tile that had stopped for
the cut alone goes on (R329). -/
def State.releaseCut (s : State) (n : Nat) : State :=
  let r := s.slot n
  if r.held then
    let q := { r with cutReq := false, mhz := r.mhzNext.getD r.mhz, mhzNext := none }
    -- one that a freeze has met there stays held until it is thawed
    if r.st == .frozen then s.setSlot n q
    else
      let s1 := (List.range r.count).foldl (fun (u : State) t => u.setTileAt n t { u.tileAt n t with stopped := false }) s
      s1.setSlot n { s.woken q with held := false, rcc := r.rcc + 1, pos := 0 }
  else
    let s1 := if r.evicted then s else (List.range r.count).foldl (fun (u : State) t => u.setTileAt n t { u.tileAt n t with stopped := false }) s
    s1.setSlot n { r with cutReq := false }
def State.releaseCuts (s : State) (k : Nat) : State := (s.slotsOf k).foldl (fun (u : State) n => if (u.slot n).cutReq then u.releaseCut n else u) s

/-- The abort of a running snapshot on this package: marks, catalogue entry and waits go, held messages may be performed. -/
def State.abortLocal (s : State) (k : Nat) : State :=
  let x := s.snap k
  let past := x.st == .recording || x.st == .reported
  let s1 := if past then s.setBufMarks k (fun _ _ _ => false) else s
  let s2 := if x.growing then s1.catDrop k x.entry else s1
  let y := s2.snap k
  -- an abort before the package cut leaves the earlier folio its marks
  let o := y.old.getD (y.entry, y.foff, y.fpos)
  let s3 : State := { s2.setSnap k { y with
    st := .idle, growing := y.old.isSome, entry := o.1, foff := o.2.1, fpos := o.2.2, old := none, closed := [], reports := [], cutSlots := [], who := none,
    pages := if past then [] else y.pages } with heldPages := [] }
  (s3.releaseCuts k).completeFor x.who 6

/-- R336: the issuer tells every package of an abort, another package tells the issuer; SNAPSHOT is posted at the issuer. -/
def State.abortSnapshot (s : State) (k : Nat) : State :=
  let x := s.snap k
  if x.st == .idle || x.st == .rolling then s
  else
    let mine := x.issuer == s.pkgid
    let to_ := if mine then s.peers k else [x.issuer]
    let s1 := s.abortLocal k
    let s2 : State := { s1 with outbox := s1.outbox ++ to_.map (fun p => Out.abort p k x.id) }
    if mine then s2.postEvent 0x12 ((s2.slotsOf k).headD 0) 0 else s2

/-- A copy that finds no room: the running snapshot aborts; a committed folio that was still growing is dropped with its marks. -/
def State.copyFailed (s : State) (k : Nat) : State :=
  let x := s.snap k
  if x.st == .recording || x.st == .reported || x.st == .cutting then s.abortSnapshot k
  else
    let s1 := (if x.growing then s.dropFolio k x.entry else s).setBufMarks k (fun _ _ _ => false)
    { s1.setSnap k { s1.snap k with growing := false, pages := [] } with heldPages := [] }

/-! ## Copies (R334, R335) -/

/-- The lines of a page, by offset, that are poisoned. -/
def State.badOf (s : State) (pa n : Nat) : List Nat := (s.linesIn pa n 2).map (fun l => 64 * l - pa)

/-- The folio that copies on write go to and that of a later snapshot on its way to its cut change places. -/
def Snap.swap (x : Snap) : Snap :=
  match x.old with
  | none => x
  | some o => { x with entry := o.1, foff := o.2.1, fpos := o.2.2, old := some (x.entry, x.foff, x.fpos) }
/-- An operation on the folio that copies on write go to. -/
def State.inOld (s : State) (k : Nat) (f : State → Option State) : Option State :=
  (f (s.setSnap k (s.snap k).swap)).map (fun u => u.setSnap k (u.snap k).swap)

/-- The page goes into the folio as a PAGE record, with its poison, and is no longer SNAPPED; nothing where it finds no room. -/
def State.pageRecord (s : State) (k page : Nat) : Option State :=
  (s.inOld k (fun u => if u.folioHas k 1 (4096 * page) then some u
    else u.folioAppend k 1 (4096 * page) (u.rdPhys (4096 * page) 4096) (u.badOf (4096 * page) 4096))).map
    (fun u => u.setSnap k { u.snap k with pages := (u.snap k).pages.filter (fun p => p != page) })

/-- The copy of a page for one job. Where its failure has aborted a later snapshot, the room of that is free. -/
def State.copyPage (s0 : State) (k page : Nat) : State :=
  let s := s0.fixLines none (4096 * page) 4096
  match s.pageRecord k page with
  | some u => u
  | none =>
    let v := s.copyFailed k
    if (v.snap k).pages.contains page then (v.pageRecord k page).getD (v.copyFailed k) else v

/-- A SNAPPED page is copied for every job that has it SNAPPED, before a write of it (R334). -/
def State.freePage (s : State) (page : Nat) : State :=
  (s.snaps.map (·.1)).foldl (fun (u : State) k => if (u.snap k).pages.contains page then u.copyPage k page else u) s

/-- PAGE_COPY (R334): of a page for which a write is held. -/
def execPageCopy (page : Nat) (s : State) : Host.Outcome State Fault Refusal :=
  .next (if s.heldPages.contains page then { s.freePage page with heldPages := (s.freePage page).heldPages.filter (fun p => p != page) } else s)

/-- The pages of a physical range. -/
def State.pagesOf (pa n : Nat) : List Nat := (pieces pa n).map (fun p => p.1 / 4096)
def State.anySnapped (s : State) (pa n : Nat) : Bool := (State.pagesOf pa n).any s.snapped

/-- A write that holds for nothing else is performed with the copies of its pages (R334). -/
def State.freePages (s : State) (pa n : Nat) : State := (State.pagesOf pa n).foldl State.freePage s

/-- The linear index of an instance (R280). -/
def bufKey (inst t b : Nat) : Nat := b + t * 2 ^ 16 + inst % 2 ^ 16 * 2 ^ 32

/-- The bytes of a SNAPPED buffer and its state word at the cut, as a BUFFER record holds them (R336). -/
def State.bufRecord (s : State) (n t b : Nat) : List Byte :=
  let d := s.declAt n t b
  let x := s.tileAt n t
  Store.getN 0 x.sram (d.addr 0) d.bytes ++ b8 (x.buf b).cutW

/-- BUFFER_COPY for one buffer that is SNAPPED: its correctable words are corrected, its bad lines copied with their poison. -/
def State.copyBuffer (s0 : State) (n t b : Nat) : State :=
  if !((s0.tileAt n t).buf b).snapped || (s0.slot n).evicted then s0
  else
    let d := s0.declAt n t b
    let s := s0.stowRead n ((s0.slot n).phys t) 3 (d.addr 0) d.bytes
    let x := s.tileAt n t
    let k := (s.slot n).job
    if s.folioHas k 2 (bufKey (s.slot n).inst t b) then s.setTileAt n t (x.setBuf b { x.buf b with snapped := false })
    else match s.folioAppend k 2 (bufKey (s.slot n).inst t b) (s.bufRecord n t b) (x.badLines (d.addr 0) d.bytes) with
      | none => s.copyFailed k
      | some s1 => s1.setTileAt n t ((s1.tileAt n t).setBuf b { (s1.tileAt n t).buf b with snapped := false })

/-- The first SNAPPED buffer of a region, in ascending tile index and then buffer number. -/
def State.nextSnapped (s : State) (n : Nat) : Option (Nat × Nat) :=
  if (s.slot n).evicted then none
  else (List.range (s.slot n).count).findSome? (fun t => ((List.range 64).find? (fun b => ((s.tileAt n t).buf b).snapped)).map (fun b => (t, b)))

/-- BUFFER_COPY (R335): the copier takes the buffers in order; a buffer that a write waits for is taken by that write. -/
def execBufferCopy (n t b : Nat) (s : State) : Host.Outcome State Fault Refusal :=
  .next (if s.nextSnapped n == some (t, b) then s.copyBuffer n t b else s)

/-- Every SNAPPED buffer of a region copied, at most `fuel` of them. -/
def State.copyAll (s : State) (n : Nat) : Nat → State
  | 0 => s
  | fuel + 1 => match s.nextSnapped n with
    | none => s
    | some (t, b) => (s.copyBuffer n t b).copyAll n fuel
/-- Those of a whole region: before its tiles are left. -/
def State.copyRegion (s : State) (n : Nat) : State := s.copyAll n (64 * (s.slot n).count)

/-! ## The job's pages and bindings (R330) -/

/-- R330: the pages ASSIGNED to the job's world that a translation root of its regions maps with WR = 1, as walks of it would give them
now; `home` asks for those of a home SYE. Notes: log entry 52. -/
def State.jobPagesOf (s : State) (k : Nat) (home : Bool) : List Nat :=
  ((s.pot.filter (fun e => e.2 == { st := .assigned, world := k % 64 })).map (·.1)).filter (fun p => (s.slotsOf k).any (fun n => s.rootMaps n p home))
def State.jobPages (s : State) (k : Nat) : List Nat := s.jobPagesOf k false

/-- The bindings of the job on this package (R68). -/
def State.jobBinds (s : State) (k : Nat) : List SoBind := s.sync.filter (fun b => jobKey b.world b.jobid == k)

def seatBytes (a : Seat) : List Byte := b8 (a.vif + a.die * 2 ^ 8 + a.tile * 2 ^ 32) ++ b8 (a.lid + a.inst * 2 ^ 32) ++ b8 a.quad
def loadSeat (bs : List Byte) : Seat :=
  let w := recU bs 0 8
  let v := recU bs 8 8
  { vif := bits w 0 8, die := bits w 8 8, tile := bits w 32 32, lid := bits v 0 32, inst := bits v 32 32, quad := recU bs 16 8 }
def bindBytes (b : SoBind) : List Byte :=
  b8 b.lo ++ b8 b.hi ++ b8 b.obj ++ b8 (b.scope + b.world * 2 ^ 8 + b.pkg * 2 ^ 16 + b.slot * 2 ^ 32) ++ b8 b.jobid ++ seatBytes b.seat
def loadBind (bs : List Byte) : SoBind :=
  let w := recU bs 24 8
  { lo := recU bs 0 8, hi := recU bs 8 8, obj := recU bs 16 8, scope := bits w 0 8, world := bits w 8 8, pkg := bits w 16 16, slot := bits w 32 32,
    jobid := recU bs 32 8, seat := loadSeat (bs.drop 40) }
def bindLen : Nat := 64

/-- The data of the SYNC record: the lines of the home-SYE pages, then the bindings; and the offsets in it of poisoned lines. -/
def State.syncRecord (s : State) (k : Nat) (homes : List Nat) : List Byte × List Nat :=
  let bs := s.jobBinds k
  (b8 homes.length ++ homes.flatMap (fun p => b8 (4096 * p) ++ s.rdPhys (4096 * p) 4096) ++ b8 bs.length ++ bs.flatMap bindBytes,
   (homes.mapIdx (fun i p => (s.badOf (4096 * p) 4096).map (· + 16 + 4104 * i))).flatten)
/-- The SYNC record is read and written: home-SYE lines that need it are corrected first (R319). -/
def State.writeSync (s0 : State) (k : Nat) : Option State :=
  let homes := s0.jobPagesOf k true
  let s := homes.foldl (fun (u : State) p => u.fixLines none (4096 * p) 4096) s0
  s.folioAppend k 5 0 (s.syncRecord k homes).1 (s.syncRecord k homes).2

/-! ## Commit and the end of a job's part (R327, R336, R337) -/

/-- The commit on this package (R336, R337): the entry is COMMITTED; a seventeenth drops the one of lowest SEQ. -/
def State.commitLocal (s : State) (k : Nat) : State :=
  let x := s.snap k
  let w := s.cat k x.entry 0
  let s1 := s.catWrite k x.entry [2 ^ 63 + 2 ^ 60 + w % 2 ^ 32, s.cat k x.entry 1, s.cat k x.entry 2, s.cat k x.entry 3, s.cat k x.entry 4, s.cat k x.entry 5]
  let s2 := if 16 < (s1.committed k).length then (match s1.oldest k with
    | some i => s1.dropFolio k i
    | none => s1) else s1
  let s3 := s2.setSnap k { s2.snap k with st := .idle, closed := [], reports := [], cutSlots := [], who := none, seen := (s2.snap k).seen.filter (fun i => i != x.id) }
  -- a status word that stands in the context area of an evicted region: its page is copied before
  let s4 := match x.who with
    | some (a, sw, _) =>
      let r := s3.slot ((a - 1024) / 2048)
      if 1024 ≤ a && r.st == RSt.stowed && r.evicted then s3.freePages (r.ctxBase + (a - 1024) % 2048 * blockBytesCtx + Config.stowBase + 0x8300 + 8 * sw) 8 else s3
    | none => s3
  s4.completeFor x.who 0

/-- A job starts on this package: no snapshot of it runs (Table 20.3). -/
def State.jobStarts (s : State) (k : Nat) : State := if s.snap k = {} then s else s.setSnap k {}

/-! ## Error logs (R361) -/

/-- A context of a world that has translations: of a VIF of the world. -/
def State.worldCtx (s : State) (w : Nat) : Option Nat :=
  ((List.range 256).find? (fun v => (Store.get ({} : Vif) v s.vifs).world == w)).map vifCtx

/-- One sealed copy of an error record goes into its world's log page, through the translation of a VIF of the world; a page that is
not the world's drops it. -/
def State.flushLog (s : State) : State :=
  match s.logq with
  | [] => s
  | (w, seq, rec_) :: r =>
    let va := bits (Store.get 0 w s.wlog) 12 44 * 4096 + 32 * (seq % 128)
    match s.worldCtx w with
    | none => { s with logq := r }
    | some ctx =>
      match s.translate ctx va kWrite with
      | .miss => s.startWalk 0 ctx va kWrite
      | .code _ => { s.dropFailed ctx va with logq := r }
      | .pa a => { (if isWindow a then s else (s.freePage (a / 4096)).wrPhys a rec_ []) with logq := r }

end Sys2Proof.Machine
end

