-- ==== Sys2Proof/Machine/Loader.lean ====
section
/-! DEFINITION. The loader: a Mymir image read from memory, its tables, its order stores and its wait graph, and the checks that an image passes (R17, R38 to R40, R42, R47, R48, R122, R390). -/
namespace Sys2Proof.Machine

/-! ## Reading memory in steps that may have to wait for a walk -/

/-- What a reading comes to: a walk must end first, it fails, or a value. -/
inductive Got (α : Type) where
  | wait
  | bad
  | ok (a : α)
deriving DecidableEq, Repr

/-- A reading of memory by the control complex. -/
abbrev Reading (α : Type) := State → State × Got α
def Reading.pure {α : Type} (a : α) : Reading α := fun s => (s, .ok a)
def Reading.fail {α : Type} : Reading α := fun s => (s, .bad)
def Reading.bind {α β : Type} (x : Reading α) (f : α → Reading β) : Reading β := fun s =>
  match x s with
  | (t, .ok a) => f a t
  | (t, .wait) => (t, .wait)
  | (t, .bad) => (t, .bad)
def Reading.guard (c : Bool) : Reading Unit := if c then Reading.pure () else Reading.fail
/-- The reading of a list of items, in order. -/
def Reading.each {α β : Type} (f : α → Reading β) : List α → Reading (List β)
  | [] => Reading.pure []
  | a :: r => (f a).bind (fun b => (Reading.each f r).bind (fun bs => Reading.pure (b :: bs)))
/-- `n` bytes at a virtual address of a context. -/
def Reading.bytes (ctx va n : Nat) : Reading (List Byte) := fun s =>
  if n = 0 then (s, .ok [])
  else match s.gread 0 ctx va n with
    | (t, .wait) => (t, .wait)
    | (t, .code _) => (t, .bad)
    | (t, .done bs) => (t, .ok bs)

/-! ## Word sequences of an order store (R12, R30, R118) -/

/-- A word with the STAMP and the extension words before it. -/
structure WordSeq where
  start : Nat
  own : Nat
  word : Nat
  instr : Instr
deriving DecidableEq, Repr
def WordSeq.next (q : WordSeq) : Nat := q.own + 1
def WordSeq.maj (q : WordSeq) : Nat := bits q.word 26 6

/-- The sequence that starts at a step, unless an encoding is reserved or a sequence breaks R30 or R118. -/
def seqAt (m : Store Code) (p : Nat) : Option WordSeq :=
  match decodeAt m p with
  | .error _ => none
  | .ok d =>
    match stampOf d.instr d.word p with
    | none => some { start := p, own := p + d.len - 1, word := d.word, instr := d.instr }
    | some _ =>
      match decodeAt m (p + 1) with
      | .error _ => none
      | .ok e => if (stampOf e.instr e.word (p + 1)).isSome then none else some { start := p, own := p + e.len, word := e.word, instr := e.instr }

/-- The engines that accept a major opcode (Table 7.3). -/
def acceptors (maj : Nat) : List Nat :=
  if maj ≤ 0x13 then [0]
  else if 0x20 ≤ maj && maj ≤ 0x23 then [1]
  else if 0x24 ≤ maj && maj ≤ 0x28 then [2]
  else if maj = 0x29 || maj = 0x2A then [1, 2]
  else if maj = 0x2B || maj = 0x2C then [5]
  else if 0x2D ≤ maj && maj ≤ 0x39 then [3]
  else if maj = 0x3A || maj = 0x3C then [4]
  else if maj = 0x3B then [0, 4]
  else []

/-- The issue-control area of an engine-format word. -/
def WordSeq.ctl (q : WordSeq) : Ctl := if 0x20 ≤ q.maj then ctlOf q.word else { tk := 0, gap := 0, tq := 0 }

/-- The constant branch and jump targets of a word (R122 check 6). -/
def WordSeq.targets (q : WordSeq) : List Int :=
  match q.instr with
  | .beq _ _ o | .bne _ _ o | .blt _ _ o | .bge _ _ o | .bltn _ _ o | .bgen _ _ o => [(q.own : Int) + o]
  | .jal _ o => [(((BitVec.ofNat 64 q.own + o).toNat : Nat) : Int)]
  | .loop _ d => [((q.own + d : Nat) : Int)]
  | .ebaseTarget _ t => [(t : Int)]
  | _ => []

/-- The status word that a word names as its own (R42). -/
def WordSeq.names (q : WordSeq) : Option Nat :=
  match q.instr with
  | .cpin _ o | .xfetch _ o => some o.sw
  | .cpslot _ o => some o.sw
  | .acq _ o | .acqCw _ o | .rel _ o => some o.sw
  | .cpout _ o | .xpost _ o => some o.sw
  | .cpoutFlush _ _ sw | .bind _ _ sw _ | .unbind _ _ sw | .lrflush _ sw _ | .lrflushFetch _ sw _ => some sw
  | .bindso _ sw _ _ _ | .bindsoRemove _ sw _ _ => some sw
  | .coll _ o => some o.sw
  | .atomAdd _ o | .atomAnd _ o | .atomOr _ o | .atomXor _ o | .atomMin _ o | .atomMax _ o | .atomSwap _ o | .atomCas _ o | .atomFadd _ o => some o.sw
  | .vaor _ o | .vaadd _ o | .vamax _ o => some o.sw
  | .mmas _ o => some o.sw
  | .rkmac _ o => some o.sw
  | .nestgo _ _ _ _ sw _ _ => some sw
  | .bar sc sw => if sc = 6 then some sw else none
  | .snap _ _ sw | .rollb _ _ sw | .keyz _ sw => some sw
  | _ => none

/-! ## Segment headers and the validation of words (R122) -/

/-- The program of one tile: its order store, the number of words that its image gives, its header blocks. -/
structure Prog where
  m : Store Code
  n : Nat
  heads : List Nat := []
  entries : List Nat := []
  handler : Option Nat := none
deriving DecidableEq, Repr

def Prog.inHead (p : Prog) (k : Nat) : Bool := p.heads.contains (k / 32)

/-- The header block that a word names if it is a SEG. -/
def segWord (w : Code) : Option Nat :=
  match decodeWord [] w.toNat with
  | some (.seg h) => some h
  | _ => none

/-- The SEG words of a store among the words that look like one, each with the block that it names. A word inside a header is no SEG
word: one whose own block none of the others names is one; where the rest name each other's blocks, those that name no
well-formed header are none (log entry 18). -/
def segWords (ok : Nat → Bool) : Nat → List (Nat × Nat) → List (Nat × Nat) → List (Nat × Nat)
  | 0, sure, _ => sure
  | fuel + 1, sure, rest =>
    let open_ := rest.filter (fun e => !(sure.any (fun x => x.2 == e.1 / 32)))
    let free := open_.filter (fun e => !(open_.any (fun x => x.2 == e.1 / 32)))
    if open_.isEmpty then sure
    else if !free.isEmpty then segWords ok fuel (sure ++ free) (open_.filter (fun e => !free.contains e))
    else if open_.all (fun e => ok e.2) then sure ++ open_
    else segWords ok fuel sure (open_.filter (fun e => ok e.2))

/-- The header blocks that the SEG words of a store name. -/
def headsOf (m : Store Code) : List Nat :=
  let all := m.filterMap (fun e => (segWord e.2).map (fun h => (e.1, h)))
  ((segWords (fun h => ({ store := m } : Tile).hdrOk h) (2 * all.length + 1) [] all).map (·.2)).eraseDups

/-- The sequences of a store outside its header blocks, or nothing where R122's checks 1 to 3 fail. -/
def Prog.scan (p : Prog) : Nat → Nat → Option (List WordSeq)
  | 0, _ => some []
  | fuel + 1, k =>
    if p.n ≤ k then some []
    else if p.inHead k then p.scan fuel (k / 32 * 32 + 32)
    else match seqAt p.m k with
      | none => none
      | some q =>
        if (List.range (q.next - k)).any (fun i => p.inHead (k + i)) then none
        else (p.scan fuel q.next).map (q :: ·)

/-- R122 check 2: a word of one engine alone requests no token of that engine's own id. -/
def WordSeq.tokenOk (q : WordSeq) : Bool :=
  match acceptors q.maj with
  | [e] => q.ctl.tk == 0 || q.ctl.tq != e
  | _ => true

/-- R122 check 6. -/
def Prog.targetOk (p : Prog) (t : Int) : Bool := decide (0 ≤ t) && decide (t < 65536) && !p.inHead t.toNat

/-! ## Streams (R390) -/

/-- The places to which a stream of engine `e` goes on from a word, as (engine, step). -/
def WordSeq.flow (q : WordSeq) (e : Nat) : List (Nat × Nat) :=
  (e, q.next) :: (if e != 0 then [] else match q.instr with
    | .loop _ d => [(0, q.own + d + 1)]
    | .ebaseTarget f t => [(f, t)]
    | _ => q.targets.map (fun t => (0, t.toNat)))

/-- The flow from a place, empty where the stream stops; the zero words beyond the image carry no wait and no target. A word that does
not stand as a sequence of its own, such as one entered past the prefix that it needs, is taken by its major opcode; prefixes and STAMP
words are accepted by every engine. -/
def Prog.flow (p : Prog) (e k : Nat) : List (Nat × Nat) :=
  if p.n ≤ k || p.inHead k then []
  else match seqAt p.m k with
    | none =>
      let maj := bits (Store.get 0 k p.m).toNat 26 6
      if 0x3E ≤ maj || (acceptors maj).contains e then [(e, k + 1)] else []
    | some q => if (acceptors q.maj).contains e then q.flow e else []

/-- The closure of a list of places under a flow. -/
def closure (next : Nat × Nat → List (Nat × Nat)) : Nat → List (Nat × Nat) → List (Nat × Nat) → List (Nat × Nat)
  | 0, _, seen => seen
  | _ + 1, [], seen => seen
  | fuel + 1, x :: r, seen => if seen.contains x then closure next fuel r seen else closure next fuel (next x ++ r) (x :: seen)

def Prog.fuel (p : Prog) : Nat := 24 * (p.n + 1) + 64

/-- The places that the tile's streams reach. -/
def Prog.reached (p : Prog) : List (Nat × Nat) :=
  (closure (fun x => p.flow x.1 x.2) p.fuel (p.entries.mapIdx (fun e b => (e, b)) ++ (match p.handler with
    | some h => [(0, h)]
    | none => [])) []).filter (fun x => decide (x.2 < p.n) && !p.inHead x.2)

/-- The engines whose streams reach a word by its sequence: at the sequence's start; or at the word's own step, where it stands as no
sequence of its own. -/
def Prog.reachers (p : Prog) (r : List (Nat × Nat)) (q : WordSeq) : List Nat :=
  (acceptors q.maj).filter (fun e => r.contains (e, q.start) || ((seqAt p.m q.own).isNone && r.contains (e, q.own)))

/-- Some engine that accepts the word reaches it, from the sequence's start or from a step inside it. -/
def WordSeq.met (r : List (Nat × Nat)) (q : WordSeq) : Bool :=
  (acceptors q.maj).any (fun e => (List.range (q.next - q.start)).any (fun i => r.contains (e, q.start + i)))

/-- The engines to which a word of the store is attributed: those that reach it; all that accept it where none does. -/
def Prog.attributed (p : Prog) (r : List (Nat × Nat)) (q : WordSeq) : List Nat :=
  (if q.met r then p.reachers r q else acceptors q.maj).filter (fun e => q.ctl.legal e)

/-- The words of the tile with their engines: those in step order, and, for the engines that enter them nowhere before, those that a
stream enters inside a sequence. A word stands once for each engine to which it is attributed. Notes: log entry 17. -/
def Prog.words (p : Prog) (qs : List WordSeq) : List (WordSeq × List Nat) :=
  let r := p.reached
  let more := ((r.map (·.2)).eraseDups.filter (fun k => !(qs.any (fun q => q.start == k)))).filterMap (seqAt p.m)
  let sooner (q : WordSeq) (e : Nat) : Bool := (qs ++ more).any (fun x => x.own == q.own && decide (x.start < q.start) && r.contains (e, x.start))
  qs.map (fun q => (q, p.attributed r q)) ++
    more.map (fun q => (q, (acceptors q.maj).filter (fun e => r.contains (e, q.start) && q.ctl.legal e && !sooner q e)))

/-! ## MAXPD (R38) -/

def Prog.hdr (p : Prog) (h k : Nat) : Nat := (Store.get 0 (32 * h + k) p.m).toNat
def Prog.asTile (p : Prog) : Tile := { store := p.m }

/-- SQ's flow for the runs of R38: no computed target, and a LOOP's way back from its last step to its body. -/
def Prog.sqFlow (p : Prog) (loops : List (Nat × Nat)) (x : Nat × Nat) : List (Nat × Nat) :=
  ((p.flow 0 x.2).filter (fun y => y.1 == 0)) ++
  (match seqAt p.m x.2 with
   | some q => ((loops.filter (fun l => decide (q.start ≤ l.1) && decide (l.1 ≤ q.own))).map (fun l => (0, l.2)))
   | none => [])

/-- What a sequence is for a run: nothing, the opening of a segment, or the end. -/
def Prog.segHere (p : Prog) (k : Nat) : Option Nat :=
  if p.n ≤ k || p.inHead k then none
  else match seqAt p.m k with
    | some q => (match q.instr with
      | .seg h => some h
      | _ => none)
    | none => none
def Prog.rendHere (p : Prog) (k : Nat) : Bool :=
  match seqAt p.m k with
  | some q => q.instr == .rend
  | none => false

/-- The SEG words that follow a SEG word without another between. -/
def Prog.segAfter (p : Prog) (loops : List (Nat × Nat)) (k : Nat) : List Nat :=
  let next (x : Nat × Nat) : List (Nat × Nat) := if (p.segHere x.2).isSome || p.rendHere x.2 then [] else p.sqFlow loops x
  (((closure next p.fuel (p.sqFlow loops (0, k)) []).map (·.2)).filter (fun j => (p.segHere j).isSome)).eraseDups

/-- The steps of every SEG word of the store, those that only a computed jump reaches among them. -/
def Prog.segSteps (p : Prog) : List Nat :=
  ((p.scan (p.n + 1) 0).getD []).filterMap (fun q => match q.instr with
    | .seg _ => some q.start
    | _ => none)

/-- The CYCLES that a SEG word's segment adds to a run. -/
def Prog.cost (p : Prog) (k : Nat) : Nat :=
  match p.segHere k with
  | some h => if bits (p.hdr h 0) 0 1 = 0 then p.hdr h 1 else 0
  | none => 0
def Prog.isTimed (p : Prog) (k : Nat) : Bool := (p.segHere k).any (fun h => bits (p.hdr h 0) 0 1 == 0)
def Prog.isPre (p : Prog) (k : Nat) : Bool := (p.segHere k).any (fun h => bits (p.hdr h 0) 1 1 == 1)

/-- One relaxation of the longest sums of a run, along edges into SEG words with PRE = 0. -/
def relax (edges : List (Nat × List Nat)) (pre : Nat → Bool) (cost : Nat → Nat) (d : Store Nat) : Store Nat :=
  edges.foldl (fun m e => match m.find? (fun x => x.1 == e.1) with
    | none => m
    | some x => e.2.foldl (fun u k => if pre k then u else Store.ins k (Nat.max (Store.get 0 k u) (x.2 + cost k)) u) m) d
def iter {α : Type} (f : α → α) : Nat → α → α
  | 0, a => a
  | n + 1, a => iter f n (f a)

/-- R38: every run of the tile has a bound, and none sums to more than MAXPD. -/
def Prog.maxpdOk (p : Prog) (maxpd : Nat) : Bool :=
  let entry := p.entries.getD 0 0
  let sq := (closure (fun x => p.sqFlow [] x) p.fuel ((0, entry) :: p.segSteps.map (fun k => (0, k)) ++ p.reached.filter (fun x => x.1 == 0)) []).map (·.2)
  let qs := (sq.filter (fun k => decide (k < p.n) && !p.inHead k)).filterMap (seqAt p.m)
  let loops := qs.filterMap (fun q => match q.instr with
    | .loop _ d => some (q.own + d, q.next)
    | _ => none)
  let segs := (qs.filterMap (fun q => if (p.segHere q.start).isSome then some q.start else none)).eraseDups
  let edges := segs.map (fun k => (k, p.segAfter loops k))
  let starts := segs.filter (fun k => p.isPre k || k == entry)
  let follow (x : Nat × Nat) : List (Nat × Nat) := ((edges.filter (fun e => e.1 == x.2)).flatMap (·.2)).filterMap (fun k => if p.isPre k then none else some (0, k))
  starts.all (fun st =>
    let run := (closure follow (4 * (segs.length + 1) * (segs.length + 1)) (follow (0, st)) []).map (·.2)
    let again := (st :: run).any (fun k => p.isTimed k && (closure follow (4 * (segs.length + 1) * (segs.length + 1)) (follow (0, k)) []).contains (0, k))
    let sums := iter (relax edges p.isPre p.cost) segs.length [(st, p.cost st)]
    !again && sums.all (fun x => decide (x.2 ≤ maxpd)))

/-! ## The wait graph (R42) -/

/-- A node as its 8 bytes hold it. -/
def wnode (t e kind step : Nat) : Nat := t * 2 ^ 48 + e * 2 ^ 40 + kind * 2 ^ 32 + step
def wnodeOk (tiles v : Nat) : Bool :=
  decide (bits v 48 16 < tiles) && decide (bits v 40 8 ≤ 5) && decide (bits v 32 8 ≤ 3) && bits v 16 16 == 0
/-- The word that a node names, without its kind. -/
def wplace (v : Nat) : Nat := wnode (bits v 48 16) (bits v 40 8) 0 (bits v 0 16)

/-- What the wait graph needs to know of a tile: its words with their engines, and its program. -/
structure TileWords where
  p : Prog
  ws : List (WordSeq × List Nat)
deriving DecidableEq, Repr

def TileWords.bars (t : TileWords) (scope : Nat) : List Nat :=
  t.ws.filterMap (fun x => match x.1.instr with
    | .bar s _ => if s = scope && x.2.contains 0 then some x.1.start else none
    | _ => none)
def TileWords.frames (t : TileWords) : List Nat :=
  t.ws.filterMap (fun x => if x.1.instr == .frame && x.2.contains 0 then some x.1.start else none)
def TileWords.pushes (t : TileWords) (p c : Nat) : List Nat :=
  t.ws.filterMap (fun x => if x.1.ctl.pushes && x.1.ctl.tq == c && x.2.contains p then some x.1.start else none)
def TileWords.namers (t : TileWords) (sw : Nat) : List (Nat × Nat) :=
  t.ws.flatMap (fun x => if x.1.names == some sw then x.2.map (fun e => (e, x.1.start)) else [])

/-- Two tiles of a `w`-wide region meet at a barrier of a scope (R25). -/
def barMeets (w scope t u : Nat) : Bool := scope == 3 || (t % w / 2 == u % w / 2 && t / w / 2 == u / w / 2)

/-- Table 1.7: the waits of one word for one engine, each with groups of awaited nodes of which one at least must be named. -/
def derived (w : Nat) (all : List TileWords) (t : Nat) (x : WordSeq) (e : Nat) : List (Nat × List (List Nat)) :=
  let me := all.getD t { p := { m := [], n := 0 }, ws := [] }
  let others := (List.range all.length).filter (fun u => u != t)
  let k := x.start
  (if x.ctl.pops then [(wnode t e 0 k, [(me.pushes x.ctl.tq e).map (fun j => wnode t x.ctl.tq 0 j)])] else []) ++
  (if e != 0 then [] else match x.instr with
    | .bar sc _ =>
      if sc = 2 ∨ sc = 3 then
        [(wnode t 0 1 k, ((others.filter (fun u => barMeets w sc t u)).filterMap (fun u =>
          let bs := (all.getD u me).bars sc
          if bs.isEmpty then none else some (bs.map (fun j => wnode u 0 1 j)))))]
      else []
    | .frame => [(wnode t 0 3 k, others.map (fun u => ((all.getD u me).frames.map (fun j => wnode u 0 3 j))))]
    | .waitcw sw _ => [(wnode t 0 2 k, (me.namers sw).map (fun y => [wnode t y.1 2 y.2]))]
    | .ewait f => [(wnode t 0 3 k, [[wnode t f 3 0xFFFF]])]
    | .rend => [(wnode t 0 3 k, [1, 2, 3, 4, 5].map (fun f => [wnode t f 3 0xFFFF]))]
    | _ => [])

def derivedAll (w : Nat) (all : List TileWords) : List (Nat × List (List Nat)) :=
  (List.range all.length).flatMap (fun t =>
    (all.getD t { p := { m := [], n := 0 }, ws := [] }).ws.flatMap (fun x => x.2.flatMap (fun e => derived w all t x.1 e)))

/-- The step under which engine `e` has the word whose sequence holds step `k` as a node. Notes: log entry 17. -/
def TileWords.nodeStep (t : TileWords) (e k : Nat) : Nat :=
  ((t.ws.find? (fun x => decide (x.1.start ≤ k) && decide (k ≤ x.1.own) && x.2.contains e)).map (·.1.start)).getD k

/-- The words of a tile's engine that are graph places, with the ones that its flow reaches after each. -/
def after (all : List TileWords) (v : Nat) : List Nat :=
  let t := all.getD (bits v 48 16) { p := { m := [], n := 0 }, ws := [] }
  let p := t.p
  let e := bits v 40 8
  ((closure (fun x => (p.flow x.1 x.2).filter (fun y => y.1 == e)) p.fuel ((p.flow e (bits v 0 16)).filter (fun y => y.1 == e)) []).map
    (fun x => wnode (bits v 48 16) e 0 (t.nodeStep e x.2)))

/-- Program order: `a` comes before `b` in their engine; of two words of a loop the one at the lower step. -/
def precedes (all : List TileWords) (a b : Nat) : Bool :=
  a != b && a / 2 ^ 40 == b / 2 ^ 40 && bits a 0 16 != 0xFFFF &&
  (bits b 0 16 == 0xFFFF || ((after all a).contains b && (!(after all b).contains a || bits a 0 16 < bits b 0 16)))

/-- Remove, at most `fuel` times, the places that wait for nothing that is left: what stays lies on or before a cycle. -/
def peel : Nat → List (Nat × Nat) → List Nat → List Nat
  | 0, _, vs => vs
  | fuel + 1, es, vs => peel fuel es (vs.filter (fun v => es.any (fun e => e.1 == v && vs.contains e.2)))

/-- Two barriers or FRAMEs that wait for each other are met together: they stand as one place of the graph. Notes: log entry 17. -/
def mergePlaces (pairs : List (Nat × Nat)) (vs : List Nat) : List (Nat × Nat) :=
  pairs.foldl (fun m e =>
    let a := ((m.find? (fun x => x.1 == e.1)).map (·.2)).getD e.1
    let b := ((m.find? (fun x => x.1 == e.2)).map (·.2)).getD e.2
    m.map (fun x => if x.2 == b then (x.1, a) else x)) (vs.map (fun v => (v, v)))

/-- R42: nodes well formed, every derived wait named, no cycle. -/
def waitGraphOk (w : Nat) (all : List TileWords) (edges : List (Nat × Nat)) : Bool :=
  let waits := derivedAll w all
  let vs := (edges.flatMap (fun e => [wplace e.1, wplace e.2])).eraseDups
  let barriers := waits.filter (fun x => bits x.1 32 8 == 1 || (bits x.1 32 8 == 3 && x.2.all (fun g => g.all (fun v => bits v 0 16 != 0xFFFF))))
  let meet := edges.filter (fun e => barriers.any (fun x => x.1 == e.1 && x.2.any (fun g => g.contains e.2)))
  let both := meet.filter (fun e => meet.any (fun f => wplace f.1 == wplace e.2 && wplace f.2 == wplace e.1))
  let rep := mergePlaces (both.map (fun e => (wplace e.1, wplace e.2))) vs
  let at_ (v : Nat) : Nat := ((rep.find? (fun x => x.1 == v)).map (·.2)).getD v
  let order := vs.flatMap (fun b => (vs.filter (fun a => precedes all a b)).map (fun a => (b, a)))
  let apart := edges.filter (fun e => !(meet.contains e && at_ (wplace e.1) == at_ (wplace e.2)))
  let es := (apart.map (fun e => (wplace e.1, wplace e.2)) ++ order).map (fun e => (at_ e.1, at_ e.2))
  edges.all (fun e => wnodeOk all.length e.1 && wnodeOk all.length e.2) &&
  waits.all (fun x => x.2.all (fun g => g.any (fun v => edges.contains (x.1, v)))) &&
  (peel (vs.length + 1) es (vs.map at_).eraseDups).isEmpty

/-! ## The tables of an image (R17, R39, R40, R47, R48) -/

def imgU (b : List Byte) (off : Nat) : Nat := recU b off 4

/-- A seam declaration of the header; none where VALID = 0. -/
def seamDecl (v : Nat) : Option SeamDecl :=
  if bits v 31 1 = 1 then some { row := bits v 30 1 == 1, pos := bits v 16 8, lat := bits v 0 5 } else none
def seamOkHdr (w h v : Nat) : Bool :=
  bits v 24 6 == 0 && bits v 5 11 == 0 &&
  (match seamDecl v with
   | none => true
   | some d => decide (1 ≤ d.pos) && decide (d.pos < if d.row then h else w) && decide (3 ≤ d.lat))

/-- Table 1.6: the header is well formed. -/
def headerOk (b : List Byte) : Bool :=
  let w := bits (imgU b 8) 0 8
  let h := bits (imgU b 8) 8 8
  imgU b 0 == 0x4D594D49 && bits (imgU b 4) 0 16 == 0x0100 && bits (imgU b 4) 17 15 == 0 && bits (imgU b 8) 16 16 == 0 &&
  decide (1 ≤ w) && decide (w ≤ 56) && decide (1 ≤ h) && decide (h ≤ 24) && decide (1 ≤ imgU b 0xC) && decide (imgU b 0xC ≤ 2 ^ 22) &&
  (List.range 4).all (fun i => seamOkHdr w h (imgU b (0x10 + 4 * i))) &&
  bits (imgU b 0x34) 16 16 == 0 && decide (1 ≤ bits (imgU b 0x34) 0 16) && decide (bits (imgU b 0x34) 0 16 ≤ 512) && recU b 0x40 64 == 0

/-- Table 3.2: a buffer declaration, or nothing where it is malformed. -/
def bufDecl (v : Nat) : Option BufDecl :=
  if bits v 63 1 = 0 then (if v = 0 then some {} else none)
  else
    let d : BufDecl := { valid := true, full := bits v 61 2 == 2, base := bits v 0 10, len := bits v 32 10 }
    if bits v 61 1 = 0 && bits v 42 19 = 0 && bits v 10 22 = 0 && 1 ≤ d.len && d.len ≤ 1008 && d.base ≤ 1007 && d.base + d.len ≤ 1008 then some d else none

/-- No two valid buffers of a tile share a granule. -/
def declsApart (ds : List BufDecl) : Bool :=
  match ds with
  | [] => true
  | d :: r => r.all (fun e => !(d.valid && e.valid) || d.base + d.len ≤ e.base || e.base + e.len ≤ d.base) && declsApart r

/-- The declarations of one tile, from its block of 512 bytes. -/
def tileDecls (b : List Byte) : Option (Store BufDecl) :=
  match (List.range 64).mapM (fun i => bufDecl (recU b (8 * i) 8)) with
  | none => none
  | some ds => if declsApart ds then some (ds.mapIdx (fun i d => (i, d)) |>.foldl (fun m x => Store.put {} x.1 x.2 m) []) else none

/-- A record of preloaded data (R48): tile, buffer, offset, bytes. -/
structure DataRec where
  tile : Nat
  buf : Nat
  off : Nat
  bytes : List Byte
deriving DecidableEq, Repr

/-- The records of the preloaded data, at most `fuel` of them; nothing where one is malformed. -/
def dataRecs : Nat → List Byte → Option (List DataRec)
  | _, [] => some []
  | 0, _ :: _ => none
  | fuel + 1, b =>
    let n := imgU b 0xC
    let pad := (16 - n % 16) % 16
    if b.length < 16 + n + pad || n = 0 || bits (imgU b 0) 16 16 != 0 || bits (imgU b 4) 6 26 != 0 || recU (b.drop (16 + n)) 0 pad != 0 then none
    else (dataRecs fuel (b.drop (16 + n + pad))).map
      (({ tile := imgU b 0, buf := imgU b 4, off := imgU b 8, bytes := (b.drop 16).take n } : DataRec) :: ·)

/-- R48: the record's buffer is declared FULL and holds its bytes. -/
def DataRec.ok (r : DataRec) (decls : List (Store BufDecl)) : Bool :=
  let d := Store.get ({} : BufDecl) r.buf (decls.getD r.tile [])
  decide (r.tile < decls.length) && d.valid && d.full && decide (r.off + r.bytes.length ≤ d.bytes)
def DataRec.apart (a b : DataRec) : Bool :=
  a.tile != b.tile || a.buf != b.buf || a.off + a.bytes.length ≤ b.off || b.off + b.bytes.length ≤ a.off
def recsApart : List DataRec → Bool
  | [] => true
  | r :: rs => rs.all r.apart && recsApart rs

/-- R40: the tile header is well formed for its mask. -/
def tileHeaderOk (mask : Nat) (b : List Byte) : Bool :=
  (List.range 7).all (fun i => bits (imgU b (4 * i)) 16 15 == 0) && imgU b 28 == 0 && bits (imgU b 0) 31 1 == 1 &&
  (bits (imgU b 16) 31 1 == 0 || bits mask 0 1 == 1)

def codesOf : Nat → List Byte → List Code
  | 0, _ => []
  | n + 1, b => BitVec.ofNat 32 (imgU b 0) :: codesOf n (b.drop 4)

/-- One tile of the image, from its mask, declarations, data and image bytes. -/
def tileImg (mask : Nat) (decls : Store BufDecl) (recs : List DataRec) (b : List Byte) : TileImg :=
  { mask := mask,
    start := (List.range 6).foldl (fun a i => a + bits (imgU b (4 * i)) 31 1 * 2 ^ i) 0,
    bases := (List.range 6).map (fun i => bits (imgU b (4 * i)) 0 16),
    handler := if bits (imgU b 24) 31 1 = 1 then some (bits (imgU b 24) 0 16) else none,
    decls := decls,
    store := (codesOf (b.length / 4 - 8) (b.drop 32)).mapIdx (fun i w => (i, w)) |>.foldl (fun m x => Store.put 0 x.1 x.2 m) [],
    data := recs.map (fun r => ((Store.get ({} : BufDecl) r.buf decls).addr r.off, r.bytes)) }

/-- The program of a tile image. -/
def TileImg.prog (i : TileImg) : Prog :=
  { m := i.store, n := (i.store.getLast?.map (fun e => e.1 + 1)).getD 0, heads := headsOf i.store, entries := i.bases, handler := i.handler }

/-- Checks of R39, R40, R47 and R48 on the tables; the image and its wait-graph edges. An image whose runs exceed its MAXPD (R38) is
rejected with the same reason, as is a tile header that breaks R40. Notes: log entry 18. -/
def readImage (ctx va : Nat) : Reading (Image × List (Nat × Nat)) :=
  (Reading.bytes ctx va 128).bind fun h =>
  (Reading.guard (headerOk h)).bind fun _ =>
  let w := bits (imgU h 8) 0 8
  let n := w * bits (imgU h 8) 8 8
  (Reading.bytes ctx (va + imgU h 0x20) n).bind fun caps =>
  (Reading.guard (caps.all (fun c => bits c.toNat 6 2 == 0))).bind fun _ =>
  (Reading.bytes ctx (va + imgU h 0x24) (512 * n)).bind fun bufs =>
  (Reading.bytes ctx (va + imgU h 0x28) (16 * imgU h 0x2C)).bind fun wg =>
  (Reading.bytes ctx (va + imgU h 0x30) (8 * n)).bind fun dir =>
  (Reading.bytes ctx (va + imgU h 0x38) (imgU h 0x3C)).bind fun data =>
  match (List.range n).mapM (fun t => tileDecls ((bufs.drop (512 * t)).take 512)), dataRecs (data.length + 1) data with
  | some decls, some recs =>
    (Reading.guard (recs.all (fun r => r.ok decls) && recsApart recs)).bind fun _ =>
    (Reading.guard ((List.range n).all (fun t => 32 ≤ imgU dir (8 * t + 4) && imgU dir (8 * t + 4) ≤ 262176 && imgU dir (8 * t + 4) % 4 == 0))).bind fun _ =>
    (Reading.each (fun t => Reading.bytes ctx (va + imgU dir (8 * t)) (imgU dir (8 * t + 4))) (List.range n)).bind fun tbs =>
    let mask (t : Nat) : Nat := (caps.getD t 0).toNat
    (Reading.guard ((List.range n).all (fun t => tileHeaderOk (mask t) (tbs.getD t [])))).bind fun _ =>
    let tiles := (List.range n).map (fun t => tileImg (mask t) (decls.getD t []) (recs.filter (fun r => r.tile == t)) (tbs.getD t []))
    let img : Image :=
      { w := w, h := bits (imgU h 8) 8 8, maxpd := imgU h 0xC, hbmch := bits (imgU h 0x34) 0 16,
        seams := (List.range 4).filterMap (fun i => seamDecl (imgU h (0x10 + 4 * i))), tiles := tiles,
        digest := leNat (Config.spdmBytes 100 ((h ++ caps ++ bufs ++ wg ++ dir ++ data ++ tbs.flatten).map (·.toNat))) }
    (Reading.guard (tiles.all (fun t => t.prog.maxpdOk img.maxpd))).bind fun _ =>
    Reading.pure (img, (List.range (imgU h 0x2C)).map (fun i => (recU wg (16 * i) 8, recU wg (16 * i + 8) 8)))
  | _, _ => Reading.fail

/-- R122 and R26 on one tile; its sequences. -/
def Prog.valid (p : Prog) : Option (List WordSeq) :=
  match p.scan (p.n + 1) 0 with
  | none => none
  | some qs =>
    let entrySeg := match decodeAt p.m (p.entries.getD 0 0) with
      | .ok d => (match d.instr with
        | .seg _ => true
        | _ => false)
      | .error _ => false
    let named (q : WordSeq) : Bool := match q.instr with
      | .seg h => p.heads.contains h
      | _ => true
    if qs.all (fun q => q.tokenOk && q.targets.all p.targetOk && named q) && p.heads.all (fun h => p.asTile.hdrOk h) &&
       (p.entries ++ p.handler.toList).all (fun k => !p.inHead k) && entrySeg then some qs else none

/-- The words of every tile, where every order store passes (R122). -/
def Image.words (i : Image) : Option (List TileWords) :=
  i.tiles.mapM (fun t => (t.prog.valid).map (fun qs => ({ p := t.prog, ws := t.prog.words qs } : TileWords)))

end Sys2Proof.Machine
end

