-- ==== Sys2Proof/Machine/Launch.lean ====
section
/-! DEFINITION. Launch queues, the checks of launch packets, the launch graph, placement, completion records and residency reports (R15, R19, R22, R26, R276 to R288, R304, R312, R323, R387). -/
namespace Sys2Proof.Machine

/-! ## Health and placement (R15, R19, R22, R286, R387) -/

def Slot.inGrid (r : Slot) : Bool :=
  decide (r.px + (if bits r.orient 0 1 = 0 then r.w else r.h) ≤ Config.gridW) && decide (r.py + (if bits r.orient 0 1 = 0 then r.h else r.w) ≤ Config.gridH)

/-- R16: the physical direction of an abstract one. -/
def turn (o : Nat) (d : Int × Int) : Int × Int :=
  let dx := if bits o 2 1 = 1 then -d.1 else d.1
  match bits o 0 2 with
  | 0 => (dx, d.2)
  | 1 => (-d.2, dx)
  | 2 => (-dx, -d.2)
  | _ => (d.2, -dx)

/-- The health bit of the link in a physical direction (Table 18.13). -/
def linkBit (d : Int × Int) : Nat := if d.2 < 0 then 3 else if 0 < d.1 then 4 else if 0 < d.2 then 5 else 6

/-- R19: the tile's health shows every unit that a mask declares. -/
def healthFits (h mask o : Nat) : Bool :=
  bits h 0 1 == 1 && (bits mask 0 1 == 0 || bits h 1 1 == 1) && (bits mask 1 1 == 0 || bits h 2 1 == 1) &&
  [((0 : Int), (-1 : Int)), (1, 0), (0, 1), (-1, 0)].all (fun d => bits mask (capBit d.1 d.2) 1 == 0 || bits h (linkBit (turn o d)) 1 == 1)

/-- The neighbouring abstract tiles of a region, with the boundary between them. -/
def Slot.joins (r : Slot) : List (Bool × Nat × Nat × Nat) :=
  (List.range r.count).flatMap (fun t =>
    (if t % r.w = 0 then [] else [(false, t % r.w, t - 1, t)]) ++ (if t / r.w = 0 then [] else [(true, t / r.w, t - r.w, t)]))

/-- R22: declared boundaries lie on seams of the declared latency, by every declaration of them, and no other seam lies inside. -/
def State.seamFits (s : State) (r : Slot) : Bool :=
  r.joins.all (fun j =>
    let ds := r.seams.filter (fun d => d.row == j.1 && d.pos == j.2.1)
    match seamOf (r.phys j.2.2.1) (r.phys j.2.2.2) with
    | some i => !ds.isEmpty && ds.all (fun d => Store.get 0 i s.seamLat == d.lat)
    | none => ds.isEmpty)

def State.heldTile (s : State) (p : Nat) : Bool := s.slots.any (fun e => e.2.tiles.contains p)
/-- A tile that no region holds and that awaits no scrub (R369). -/
def State.freeTile (s : State) (p : Nat) : Bool := !s.heldTile p && (s.tile p).scrub.isNone
/-- A tile that a placement may take (R369, R387). -/
def State.openTile (s : State) (p : Nat) : Bool := s.freeTile p && s.dieOk (dieOf p)

/-- R19 for every tile of a placement, of those that `open_` admits. -/
def State.placeFits (s : State) (r : Slot) (open_ : Nat → Bool) : Bool :=
  (List.range r.count).all (fun t => open_ (r.phys t) && healthFits (s.healthOf (r.phys t)) (Store.get ({} : TileImg) t r.imgs).mask r.orient)

/-- Placements in the order of R286. -/
def placements : List (Nat × Nat × Nat) :=
  (List.range Config.gridH).flatMap (fun y => (List.range Config.gridW).flatMap (fun x => (List.range 8).map (fun o => (x, y, o))))
def Slot.place (r : Slot) (q : Nat × Nat × Nat) : Slot := { r with px := q.1, py := q.2.1, orient := q.2.2 }

def State.fits (s : State) (r : Slot) (open_ : Nat → Bool) (q : Nat × Nat × Nat) : Bool :=
  (r.place q).inGrid && s.seamFits (r.place q) && s.placeFits (r.place q) open_

/-- `k` instances find places beside the used tiles, on a package taken as empty. -/
def State.packs (s : State) (r : Slot) : Nat → List Nat → Bool
  | 0, _ => true
  | k + 1, used => placements.any (fun q =>
      s.fits r (fun p => !used.contains p && s.dieOk (dieOf p)) q && s.packs r k (used ++ (List.range r.count).map (r.place q).phys))

/-- Free HBM channels in STATE 2. -/
def State.heldChan (s : State) (c : Nat) : Bool := s.slots.any (fun e => e.2.st != .free && e.2.chans.contains c)
def State.goodChans (s : State) : List Nat := (List.range 512).filter (fun c => (Store.get ({} : Chan) c s.chans).st == 2)
def State.freeChans (s : State) : List Nat := s.goodChans.filter (fun c => !s.heldChan c)

/-- What a VIF holds. -/
def State.vifSlots (s : State) (v : Nat) : List (Nat × Slot) := s.slots.filter (fun e => e.2.st != .free && e.2.vif == v)
def State.vifTiles (s : State) (v : Nat) : Nat := ((s.vifSlots v).map (fun e => e.2.tiles.length)).foldl (· + ·) 0
def State.vifChans (s : State) (v : Nat) : Nat := ((s.vifSlots v).map (fun e => e.2.chans.length)).foldl (· + ·) 0

def Vif.wt (v : Vif) : Nat := bits v.ctl 0 8
def Vif.tq (v : Vif) : Nat := bits v.ctl 8 11
def Vif.chq (v : Vif) : Nat := bits v.ctl 19 10
def Vif.pmax (v : Vif) : Nat := bits v.ctl 29 3
def Vif.snapen (v : Vif) : Bool := bits v.ctl 32 1 == 1
def Vif.qsize (v : Vif) : Nat := 2 ^ v.qlog
def Vif.modulus (v : Vif) : Nat := 2 ^ (v.qlog + 1)
def Vif.addr (v : Vif) (i : Nat) : Nat := v.qbase + i % v.qsize
/-- The bytes between RIDX and WIDX. -/
def Vif.ready (v : Vif) : Nat := (v.widx + v.modulus - v.ridx % v.modulus) % v.modulus

/-! ## Queues (R277, R278) -/

/-- R277: the checks of enabling that translate nothing. -/
def Vif.shapeOk (v : Vif) : Bool :=
  12 ≤ v.qlog && v.qlog ≤ 20 && v.qbase % v.qsize == 0 && v.ridx == v.widx && v.ridx % 64 == 0 && decide (v.ridx < v.modulus)

/-- The result of a write of VIFQ with EN = 1 while EN = 0, its fields stored; a page that is not held starts a walk first. Before
phase 2 it enables nothing (R384; log entry 24). -/
def State.enableVif (s : State) (v : Nat) : State :=
  let x := s.vifOf v
  if x.en || !s.serves then s
  else if !x.shapeOk then s.setVif v { x with status := 2 }
  else match s.translateRange (vifCtx v) x.qbase x.qsize kWrite with
    | .miss a => s.startWalk 0 (vifCtx v) a kWrite
    | .code _ a => (s.dropFailed (vifCtx v) a).setVif v { x with status := 2 }
    | .ok _ => s.setVif v { x with status := 1, en := true }

/-- The translations that a write of VIFQ needs are held, so that it ends at once. -/
def State.enableReady (s : State) (v : Nat) : Bool :=
  !s.serves || !(s.vifOf v).shapeOk || (match s.translateRange (vifCtx v) (s.vifOf v).qbase (s.vifOf v).qsize kWrite with
    | .miss _ => false
    | _ => true)

/-- VIFQ_ENABLE (R277). -/
def execVifqEnable (vif : Nat) (s : State) : Host.Outcome State Fault Refusal := .next (s.enableVif vif)

/-- A write of VIFQ with EN = 0 while EN = 1. -/
def State.disableVif (s : State) (v : Nat) : State := s.setVif v { s.vifOf v with en := false, status := 0 }
/-- VIFQ_DISABLE (R277). -/
def execVifqDisable (vif : Nat) (s : State) : Host.Outcome State Fault Refusal :=
  .next (if (s.vifOf vif).en then s.disableVif vif else s)

def State.answer (s : State) (vif : Nat) (ok : Bool) (v : Nat) : State := { s with outbox := s.outbox ++ [.uec vif ok v] }

/-- A UEC data write at a virtual address of a VIF's world (R357): performed whole, or answered with an error; before phase 2 no
endpoint answers (R384). -/
def State.hostWrite (s : State) (vif va : Nat) (data : List Byte) : State × Bool :=
  if !s.serves then (s, false)
  else match s.gwrite 0 (vifCtx vif) va data [] with
  | (s1, .wait) => (s1, false)
  | (s1, .code _) => (s1.answer vif false 0, false)
  | (s1, .done _) => (s1.answer vif true 0, true)

/-- QUEUE_WRITE (R278): a write at byte `off` of the queue range; one that starts at the byte of WIDX advances WIDX. -/
def execQueueWrite (vif off : Nat) (data : List Byte) (s : State) : Host.Outcome State Fault Refusal :=
  let v := s.vifOf vif
  .next (if !s.serves then s
  else if v.qsize ≤ off || !(v.en && off == v.widx % v.qsize) then (s.hostWrite vif (v.qbase + off) data).1
  else if v.qsize < off + data.length || v.qsize < v.ready + data.length then s.answer vif false 0
  else
    let r := s.hostWrite vif (v.qbase + off) data
    if r.2 then r.1.setVif vif { r.1.vifOf vif with widx := (v.widx + data.length) % v.modulus } else r.1)

/-! ## Nodes -/

def Node.total (n : Node) : Nat := n.gx * n.gy * n.gz
/-- The first instance from `i` on that did not come here from another package (R341). -/
def Node.from (n : Node) : Nat → Nat → Nat
  | 0, i => i
  | k + 1, i => if n.came.contains i then n.from k (i + 1) else i
/-- The next instance to place. -/
def Node.next (n : Node) : Nat := n.from n.came.length n.started
/-- The instance of a slot has performed its first region cycle: TSTART of its launch is the world time of that cycle, where no other
instance has performed one before (R287). -/
def State.noteStart (s : State) (n : Nat) : State :=
  let r := s.slot n
  match s.node r.vif r.lid with
  | some x => if x.begun then s else s.setNode { x with begun := true, tstart := (BitVec.ofNat 64 r.tstart + r.timeoff).toNat }
  | none => s
def State.retireNode (s : State) (x : Node) : State := { s with nodes := s.nodes.filter (fun n => n.arrival != x.arrival) }

/-- The bytes of a completion record: first 0x00 to 0x37, then the word at 0x38 (Table 16.6). -/
def recordHead (lid verdict reason cause tstart tend rccmax ndone : Nat) : List Byte :=
  leBytes 4 lid ++ leBytes 4 (verdict % 2 ^ 8 + reason % 2 ^ 8 * 2 ^ 8 + cause % 2 ^ 8 * 2 ^ 16) ++ b8 tstart ++ b8 tend ++
  b8 (rccmax % 2 ^ 48) ++ b8 ndone ++ List.replicate 16 0
def recordDone (lid : Nat) : List Byte := b8 (2 ^ 63 + lid % 2 ^ 32)

/-- The two writes of a completion record, in order; both wait where one must. -/
def State.writeRecord2 (s : State) (vif crec : Nat) (head : List Byte) (lid : Nat) : State × Gm :=
  match s.translateRange (vifCtx vif) crec 64 kWrite with
  | .miss a => (s.startWalk 0 (vifCtx vif) a kWrite, .wait)
  | .code c a => (s.dropFailed (vifCtx vif) a, .code c)
  | .ok _ =>
    match s.gwrite 0 (vifCtx vif) crec head [] with
    | (s1, .done _) => s1.gwrite 0 (vifCtx vif) (crec + 0x38) (recordDone lid) []
    | r => r

/-- R287: the record of a DONE node; without a translation there is nowhere to write it. After a warm reset it waits for phase 2
(R386). -/
def State.recordNode (s : State) (x : Node) : State :=
  if x.st != .done || x.recorded || (s.warm && !s.serves) then s
  else match s.writeRecord2 x.vif x.crec (recordHead x.lid x.verdict x.reason x.cause x.tstart x.tend x.rccmax x.ndone) x.lid with
    | (s1, .wait) => s1
    | (s1, _) => s1.setNode { x with recorded := true }

/-- What the package holds for a job goes when the job has ended on it: the bindings of its own agents, collectives, barrier counts. The job of an agent
(R230) is the job of its JOBID (R279), which ends here when no region of it is resident and each of its nodes is DONE. Notes: log
entry 58. -/
def State.dropJob (s : State) (world jobid : Nat) : State :=
  if s.slots.any (fun e => e.2.st != .free && e.2.world == world && e.2.jobid == jobid) ||
     s.nodes.any (fun x => x.st != .done && (s.vifOf x.vif).world == world && x.jobid == jobid) then s
  else { s with
    sync := s.sync.filter (fun b => !(b.pkg == s.pkgid && b.world == world && b.jobid == jobid)),
    colls := s.colls.filter (fun c => !(c.world == world && c.jobid == jobid)),
    podBars := s.podBars.filter (fun b => !(b.2.1 == world && b.2.2.1 == jobid)),
    podSent := s.podSent.filter (fun b => !(b.2.1 == world && b.2.2.1 == jobid)) }

/-- A node becomes DONE: TEND is read now, and the job may have ended with it. -/
def State.finish (s : State) (x : Node) (offset : Option Word) : State :=
  (s.setNode { x with st := .done, tend := (match offset with
    | some o => BitVec.ofNat 64 s.tb + o
    | none => s.wall).toNat }).dropJob (s.vifOf x.vif).world x.jobid

def State.nodeAt (s : State) (arrival : Nat) : Option Node := s.nodes.find? (fun n => n.arrival == arrival)
def Node.tainted (n : Node) : Bool := n.st == .done && n.recorded && (n.verdict == 2 || n.verdict == 4)

/-- Table 16.5: the state that a node's predecessors give it. -/
def State.nodeState (s : State) (x : Node) : NodeSt :=
  if x.preds.any (fun a => !x.accepted.contains a && (s.nodeAt a).any Node.tainted) then .held
  else if x.preds.all (fun a => (s.nodeAt a).all (fun p => p.st == .done && p.recorded)) then .ready else .waiting

/-- One node looks at its predecessors; a READY node of no instances is DONE at once (R285). -/
def State.stepNode (s : State) (arrival : Nat) : State :=
  match s.nodeAt arrival with
  | none => s
  | some x =>
    let s1 := if x.st == .waiting then
        (match s.nodeState x with
         | .ready => s.setNode { x with st := .ready, readyAt := s.tb }
         | .held => s.setNode { x with st := .held }
         | _ => s) else s
    match s1.nodeAt arrival with
    | none => s1
    | some y =>
      let s2 := if y.st == .ready && y.total == 0 then s1.finish y none else s1
      match s2.nodeAt arrival with
      | none => s2
      | some z => s2.recordNode z

/-- R287: a CLEAN or CORRECTED node retires once no WAITING node names it. -/
def State.retireNodes (s : State) : State :=
  { s with nodes := s.nodes.filter (fun n => !(n.st == .done && n.recorded && n.verdict ≤ 1 &&
      !s.nodes.any (fun m => m.st == .waiting && m.preds.contains n.arrival))) }

/-- The launch graph settles: every node looks at its predecessors until nothing changes. -/
def State.settleGraph (s : State) : State :=
  (iter (fun (u : State) => (u.nodes.map (·.arrival)).foldl (fun v a => v.stepNode a) u) (s.nodes.length + 1) s).retireNodes

/-! ## The end of an instance (R283, R287, R305, R323, R369) -/

/-- The worse of two verdicts: ABORTED, TAINTED, CORRECTED, CLEAN. -/
def worse (a b : Nat) : Nat := Nat.max a b

/-- The verdict of an instance that reached REND in every tile (R323). -/
def Slot.verdict (r : Slot) : Nat := if r.tainted then 2 else if r.corrected then 1 else 0

/-- What a region leaves in a tile: nothing of it runs any more, and a tile of a protected world awaits its scrub. -/
def Tile.leave (t : Tile) (world : Nat) : Tile :=
  { t with atC := none, flights := [], effs := [], cmds := [], fetchCI := none, fetchCO := none, hold := [], engs := [], trapNow := none, again := 0, stopped := false,
           quiet := false, fence := [], scrub := if world = 0 then t.scrub else some world }
/-- The dies that a region stands on, one bit each. -/
def Slot.dieMask (r : Slot) : Nat := bitmap 8 (fun d => r.tiles.any (fun p => dieOf p == d))
/-- The dies that the regions of a world stand on. -/
def State.diesOf (s : State) (w : Nat) : Nat := (s.slots.filter (fun e => e.2.world == w)).foldl (fun m e => m ||| e.2.dieMask) 0

/-- A region leaves its tiles, and the dies of its world are noted (R364). -/
def State.leaveTiles (s : State) (n : Nat) : State :=
  let r := s.slot n
  let u := r.tiles.foldl (fun (u : State) p => u.setTile p ((u.tile p).leave r.world)) s
  if r.tiles.isEmpty then u else { u with worldDies := Store.put 0 r.world (s.diesOf r.world) u.worldDies }

/-- What blocks 6 and 7 of the measurements show of a world (R364): its POT counts by state and its images' digests. -/
def State.blocks67 (s : State) (w : Nat) : List Nat :=
  [s.potCount .free w, s.potCount .assigned w, s.potCount .scrubbing w, s.potCount .bounce w] ++
  (s.slots.filter (fun e => e.2.st != .free && e.2.world == w)).map (fun e => e.2.digest)

/-- The Harness slot returns to FREE; its software registers keep their values. A command still in hand completes with BADCMD. -/
def Slot.freed (r : Slot) : Slot := { ctx := r.ctx, mhz := r.mhzNext.getD r.mhz, root := r.root, fmt := r.fmt, err := if r.done then r.err else 2 }

/-- The slot of an instance is freed: its SNAPPED buffers are copied (R335), then its tiles, its translations and its waits go,
and no cut is its next region's (R329). -/
def State.freeSlot (s : State) (n : Nat) : State :=
  let r := s.slot n
  let held := s.blocks67 r.world
  let s0 := if r.done then s.copyRegion n else (s.copyRegion n).raiseCC ipHdone
  let s1 := ((s0.leaveTiles n).setSlot n r.freed).forgetWaits n
  let x := s1.snap r.job
  let s2 : State := { s1.setSnap r.job { x with cutSlots := x.cutSlots.filter (fun m => m != n) } with
                      tlb := s1.tlb.filter (fun e => e.ctx != n), shed := s1.shed.filter (fun e => e.1 != n) }
  if (s2.vifSlots r.vif).isEmpty then
    s2.setVif r.vif { s2.vifOf r.vif with stowed := held } else s2

/-- A region that ends while its job keeps snapshots stays known to them (R339). -/
def State.noteGone (s : State) (n verdict : Nat) (reached : Bool) (node : Nat) : State :=
  let r := s.slot n
  let k := r.job
  if s.area k = 0 || verdict = 4 then s
  else s.setSnap k { s.snap k with gone := (s.snap k).gone ++ [{ slot := r, verdict := verdict, reached := reached, node := node,
                                                                         seq := if (s.snap k).st == .cutting then (s.snap k).seq - 1 else (s.snap k).seq }] }

/-- The resident instances of a node. -/
def State.instances (s : State) (x : Node) : List (Nat × Slot) := s.slots.filter (fun e => e.2.st != .free && e.2.vif == x.vif && e.2.lid == x.lid)

/-- A node ends with its resident instances, ABORTED with a reason: their RCC counts for RCCMAX, and TEND is in the world time of the last
instance to end. Where several end at one moment that is the one in the lowest slot. Notes: log entry 58. -/
def State.endNode (s : State) (x : Node) (reason : Nat) : State :=
  let mine := s.instances x
  let off := match mine with
    | e :: _ => some e.2.timeoff
    | [] => x.lastOff
  let rmax := mine.foldl (fun m e => Nat.max m (e.2.rcc % 2 ^ 48)) x.rccmax
  (mine.foldl (fun (u : State) e => u.freeSlot e.1) s).finish { x with verdict := 4, reason := reason, cause := 0, rccmax := rmax } off

/-- An instance ends with a verdict: its node counts it, and is DONE with the last one. -/
def State.endInstance (s : State) (n verdict reason cause : Nat) (reached : Bool) : State :=
  let r := s.slot n
  let s0 := if verdict = 4 && (s.snap r.job).st == .cutting && !(s.snap r.job).cutSlots.contains n then s.abortSnapshot r.job else s
  let s1 := (s0.noteGone n verdict reached (((s0.node r.vif r.lid).map (·.arrival)).getD 0)).freeSlot n
  let s2 := match s1.node r.vif r.lid with
    | none => s1.dropJob r.world r.jobid
    | some x =>
      let y : Node := { x with
        ended := x.ended + 1, ndone := if reached then x.ndone + 1 else x.ndone, verdict := worse x.verdict verdict,
        reason := if verdict = 4 && x.verdict != 4 then reason else x.reason, cause := if verdict = 4 && x.verdict != 4 then cause else x.cause,
        rccmax := Nat.max x.rccmax (r.rcc % 2 ^ 48), ends := (r.inst, r.rcc % 2 ^ 48) :: x.ends, lastOff := some r.timeoff }
      if x.st == NodeSt.running && y.ended == y.total then s1.finish y (some r.timeoff) else s1.setNode y
  s2.settleGraph

/-- ABORT (R305): the instance ends ABORTED with a reason; its commands are dropped. The cause is the trap of FTILE for TRAP. -/
def State.abortSlot (s : State) (n reason : Nat) : State :=
  let r := s.slot n
  s.endInstance n 4 reason (if reason = 0x11 then bits (s.tileAt n r.ftile).tcause.toNat 0 8 else 0) false

/-! ## Placing an instance (R26, R285, R286, R304, R312) -/

/-- The first region cycle of a job. Registers show a cycle modulo 2^48, so this is their cycle 0; a stop before the first SEG
issues stands at the cycle before it. -/
def cycle0 : Nat := 2 ^ 48

/-- A tile as job start leaves it (R26, R44, R47, R48, R292): the image's order store, buffers and data; everything else at its
value at job start. -/
def Tile.start (old : Tile) (i : TileImg) : Tile :=
  let keep := old.sram.filter (fun c => decide (Config.stowBase ≤ c.1))
  let base : Tile := { frmorg := cycle0, segcyc := cycle0, lastPre := cycle0, sram := keep, clk := old.clk, ecc := old.ecc.filter (fun e => decide (eccKey 3 Config.stowBase ≤ e.1) && decide (e.1 < eccKey 4 0)) }
  let t1 : Tile := { base with
    store := i.store,
    bufs := i.decls.foldl (fun m d => Store.put {} d.1 { st := if d.2.full then .full else .empty } m) [],
    engs := (List.range 6).foldl (fun m e => Store.put {} e
      ({ st := if bits i.start e 1 = 1 then EngSt.running else EngSt.stopped, base := i.bases.getD e 0, step := i.bases.getD e 0, tprev := cycle0 } : Eng) m) [] }
  i.data.foldl (fun t d => { t with sram := Store.putL 0 t.sram d.1 d.2 }) t1

/-- The slot of an instance that is loaded (R304, R312), before it is placed. -/
def Slot.load (r : Slot) (x : Node) (inst world : Nat) (img : Image) : Slot :=
  { r.freed with
    st := .loaded, evicted := true, w := img.w, h := img.h,
    imgs := (img.tiles.mapIdx (fun i t => (i, t))).foldl (fun m e => Store.put {} e.1 e.2 m) [],
    seams := img.seams, maxpd := img.maxpd, hbmch := img.hbmch, digest := img.digest,
    vif := x.vif, lid := x.lid, jobid := x.jobid, inst := inst, ix := inst % x.gx, iy := inst / x.gx % x.gy, iz := inst / (x.gx * x.gy),
    lrtab := x.lrtab, rtmo := if x.rtmo = 0 then 1000000 else x.rtmo, snapok := x.snapok, groups := x.groups, world := world, prio := x.prio }

/-- First placement (R305): the tiles are written from the image, and the job starts in the next region cycle. -/
def State.startRegion (s : State) (n : Nat) : State :=
  let r := s.slot n
  let s1 := (List.range r.count).foldl (fun (u : State) t => u.setTile (r.phys t) ((u.tile (r.phys t)).start (Store.get {} t r.imgs))) s
  State.joinRoll (n := n) <| s1.setSlot n { r with
    st := .running, evicted := false, rcc := cycle0, pos := 0, cutReq := (s.snap r.job).st == .cutting, timeoff := s.tbwall, worldStow := 0, wakes := true, tstart := s.tb, reduced := decide (s.phase < 4),
    mhz := if s.phase < 4 then Nat.min r.mhz 750 else r.mhz }

/-- The key of a VIF's nodes in R284. -/
def State.effPrio (s : State) (x : Node) : Nat := Nat.min 7 (x.prio + (s.tb - x.readyAt) / (1000 * Nat.max s.age 1))

/-- R284: node `a` is tried before node `b`. -/
def State.before (s : State) (a b : Node) : Bool :=
  let pa := s.effPrio a
  let pb := s.effPrio b
  if pa != pb then decide (pb < pa)
  else if a.vif = b.vif then decide (a.arrival < b.arrival)
  else
    let ha := s.vifTiles a.vif * (s.vifOf b.vif).wt
    let hb := s.vifTiles b.vif * (s.vifOf a.vif).wt
    if ha != hb then decide (ha < hb) else decide (a.vif < b.vif)

/-- The nodes that have an instance to place, in the order of R284. -/
def State.insertBy (s : State) (x : Node) : List Node → List Node
  | [] => [x]
  | y :: r => if s.before x y then x :: y :: r else y :: s.insertBy x r
def State.candidates (s : State) : List Node :=
  (s.nodes.filter (fun x => (x.st == .ready || x.st == .running) && decide (x.next < x.total) && (s.vifOf x.vif).wt != 0)).foldr s.insertBy []

/-- The lowest free Harness slot. -/
def State.freeSlotNo (s : State) : Option Nat := (List.range 1344).find? (fun n => (s.slot n).st == .free)

/-- The next instance of a node is placed at the first legal placement, within TQ and CHQ. -/
def State.placeNext (s : State) (x : Node) (img : Image) (inst : Nat) : Option State :=
  let v := s.vifOf x.vif
  match s.freeSlotNo with
  | none => none
  | some n =>
    let r := (s.slot n).load x inst v.world img
    if v.tq < s.vifTiles x.vif + img.w * img.h || v.chq < s.vifChans x.vif + img.hbmch || s.freeChans.length < img.hbmch then none
    else match placements.find? (fun q => s.fits r s.openTile q) with
      | none => none
      | some q =>
        let r1 : Slot := { r.place q with chans := s.freeChans.take img.hbmch }
        some ((s.setSlot n r1).startRegion n)

/-- Every instance of a gang, from that of `x.next` on. -/
def State.placeGang (s : State) (x : Node) : Nat → Option State
  | 0 => some (s.setNode x)
  | k + 1 => if x.total ≤ x.next then some (s.setNode x) else (s.placeNext x x.img x.next).bind (fun u => u.placeGang { x with started := x.next + 1 } k)

/-- A node places what it can now: its whole gang, or its next instance. -/
def State.placeNode (s : State) (x : Node) : Option State :=
  s.placeGang { x with st := .running } (if x.gang then x.total - x.started else 1)

/-- The placer tries the nodes in order; one at EP = 7 that cannot be placed blocks those after it. -/
def State.placeFirst (s : State) : List Node → State
  | [] => s
  | x :: r => match s.placeNode x with
    | some u => u
    | none => if s.effPrio x = 7 then s else s.placeFirst r

/-- The resident regions that the placer may move for a node: their node has a lower EP, or an equal one and a later arrival (R286). -/
def State.movable (s : State) (x : Node) : List Nat :=
  (s.slots.filter (fun e => (e.2.st == .running || e.2.st == .frozen || e.2.st == .stowed) && !e.2.evicted && !e.2.preq &&
    (match s.node e.2.vif e.2.lid with
     | none => false
     | some y => decide (s.effPrio y < s.effPrio x) || (s.effPrio y == s.effPrio x && decide (x.arrival < y.arrival))))).map (·.1)

/-- The package as if the state of some regions had been moved away. -/
def State.without (s : State) (vs : List Nat) : State := vs.foldl (fun (u : State) n => u.setSlot n { u.slot n with evicted := true }) s
/-- The regions that are on their way to make room for a node. -/
def State.movingFor (s : State) (x : Node) : List Nat :=
  (s.slots.filter (fun e => e.2.moving && !e.2.evicted && e.2.mover == some x.arrival)).map (·.1)
/-- A node finds its place once they have gone. -/
def State.roomComing (s : State) (x : Node) : Bool := ((s.without (s.movingFor x)).placeNode x).isSome

/-- The regions that give a node room: those of them whose tiles it takes where it is placed as if they were all gone. -/
def State.roomFor (s : State) (x : Node) : List Nat :=
  let vs := s.movable x
  if vs.isEmpty then []
  else
    match (s.without (s.movingFor x ++ vs)).placeNode x with
    | none => []
    | some u =>
      let taken := (u.slots.filter (fun e => (s.slot e.1).st == .free)).flatMap (fun e => e.2.tiles)
      vs.filter (fun n => (s.slot n).tiles.any taken.contains)

/-- The placer asks a region to move: a stow with EVICT at its next pre-emptible boundary; one that stands stowed in its tiles is moved
away as it is. -/
def State.askMove (s : State) (n : Nat) : State :=
  let r := s.slot n
  if r.st == .running || r.st == .frozen then s.setSlot n { r with preq := true, evictReq := true, moving := true }
  else if r.st == .stowed && !r.evicted then s.setSlot n { r with evictReq := true, moving := true } else s

/-- A region is asked to move to make room for a node. -/
def State.moveFor (s : State) (x : Node) (n : Nat) : State :=
  let u := s.askMove n
  u.setSlot n { u.slot n with mover := some x.arrival }

/-- Where no node can be placed, the first that gains room by it has regions moved, unless the regions that are on their way give it
that room. Notes: log entry 15. -/
def State.makeMoves (s : State) : List Node → State
  | [] => s
  | x :: r =>
    if s.roomComing x then s
    else match s.roomFor x with
      | [] => if s.effPrio x = 7 then s else s.makeMoves r
      | vs => vs.foldl (fun (u : State) n => u.moveFor x n) s

/-! ## Packets (R279 to R281) -/

/-- A word of a packet. -/
def pk (p : List Byte) (off n : Nat) : Nat := recU p off n

/-- FORMAT for a LAUNCH (Table 16.3): NPRED above 8, NGRP above 64, and an NGRP and a GTAB of which one is zero too. Notes: log entry 16. -/
def launchFormat (p : List Byte) : Bool :=
  let h := pk p 0 4
  let g := pk p 0x20 8
  bits h 8 8 == 2 && bits h 16 8 == 1 && bits h 24 8 == 0 && bits g 61 3 == 0 && bits g 57 4 ≤ 8 && pk p 0x2C 4 == 0 && pk p 0x3A 6 == 0 &&
  pk p 0x10 8 % 64 == 0 && pk p 0x18 8 % 64 == 0 && pk p 0x30 8 % 8 == 0 && pk p 0x38 2 ≤ 64 && ((pk p 0x38 2 == 0) == (pk p 0x30 8 == 0)) &&
  (List.range 8).all (fun i => i < bits g 57 4 || pk p (0x40 + 4 * i) 4 == 0) && pk p 0x68 24 == 0
/-- FORMAT for CANCEL and RELEASE. -/
def shortFormat (p : List Byte) : Bool :=
  let h := pk p 0 4
  bits h 8 8 == 1 && bits h 16 8 == 1 && bits h 24 8 == 0 && pk p 8 56 == 0

/-- The node that a LAUNCH packet describes. -/
def State.nodeOf (s : State) (vif : Nat) (p : List Byte) : Node :=
  let g := pk p 0x20 8
  { vif := vif, lid := pk p 4 4, st := .waiting, image := pk p 8 8, lrtab := pk p 0x10 8, crec := pk p 0x18 8,
    gx := bits g 0 16, gy := bits g 16 16, gz := bits g 32 16, prio := bits g 48 3, snapok := bits g 51 1 == 1, gang := bits g 52 1 == 1,
    sclass := bits g 53 4, rtmo := pk p 0x28 4, gtab := pk p 0x30 8, ngrp := pk p 0x38 2, jobid := pk p 0x60 8, arrival := s.nextArrival,
    preds := (List.range (bits g 57 4)).filterMap (fun i => (s.node vif (pk p (0x40 + 4 * i) 4)).map (·.arrival)) }

/-- Whether a range translates; a page that is not held is walked first. -/
def Reading.xl (ctx va n kind : Nat) : Reading Bool := fun s =>
  match s.translateRange ctx va n kind with
  | .miss a => (s.startWalk 0 ctx a kind, .wait)
  | .code _ a => (s.dropFailed ctx a, .ok false)
  | .ok _ => (s, .ok true)

/-- A participant entry of a group table (R280). -/
def member (v : Nat) : Member := { pkg := bits v 51 13, parts := bits v 47 4 + 1, inst := bits v 16 31, tile := bits v 0 16 }
def membersApart : List Member → Bool
  | [] => true
  | m :: r => r.all (fun k => !(k.pkg == m.pkg && k.inst == m.inst && k.tile == m.tile)) && membersApart r

/-- The groups of a launch; it fails where the table is malformed. -/
def readGroups (ctx : Nat) (x : Node) (img : Image) : Reading (List (List Member)) :=
  (Reading.bytes ctx x.gtab (8 * x.ngrp)).bind fun hs =>
  Reading.each (fun i =>
    let h := recU hs (8 * i) 8
    (Reading.guard (bits h 16 16 == 0 && bits h 0 16 != 0 && bits h 32 32 % 8 == 0)).bind fun _ =>
    (Reading.bytes ctx (x.gtab + bits h 32 32) (8 * bits h 0 16)).bind fun es => fun s =>
      let ms := (List.range (bits h 0 16)).map (fun r => member (recU es (8 * r) 8))
      let ok := ms.all (fun m => decide (m.tile < img.w * img.h) && (m.pkg != s.pkgid || decide (m.inst < x.total))) && membersApart ms
      (s, if ok then .ok ms else .bad)) (List.range x.ngrp)

/-- A reading whose failure is answered with a value. -/
def Reading.orElse {α β : Type} (x : Reading α) (bad : β) (f : α → Reading β) : Reading β := fun s =>
  match x s with
  | (t, .ok a) => f a t
  | (t, .wait) => (t, .wait)
  | (t, .bad) => (t, .ok bad)

/-- The code with which a LAUNCH packet is rejected, or the node that it becomes. -/
inductive Admit where
  | reject (code : Nat)
  | node (x : Node)
deriving DecidableEq, Repr

/-- Checks 9 to 14 of Table 16.4. -/
def imageChecks (ctx : Nat) (v : Vif) (x : Node) : Reading Admit :=
  (readImage ctx x.image).orElse (.reject 0x05) fun r =>
  let img := r.1
  match img.words with
  | none => Reading.pure (.reject 0x06)
  | some ws =>
    if !waitGraphOk img.w ws r.2 then Reading.pure (.reject 0x07)
    else (readGroups ctx x img).orElse (.reject 0x0A) fun gs => fun s =>
      let y : Node := { x with img := img, groups := gs }
      let shape : Slot := ({} : Slot).load y 0 0 img
      (s, .ok (
        if !placements.any (fun q => (shape.place q).inGrid && s.seamFits (shape.place q)) then .reject 0x08
        else if v.tq < img.w * img.h || v.chq < img.hbmch ||
            (x.gang && (v.tq < x.total * img.w * img.h || v.chq < x.total * img.hbmch || s.goodChans.length < x.total * img.hbmch || !s.packs shape x.total []))
          then .reject 0x09
        else .node y))

/-- Checks 6 to 14 for a LAUNCH whose form is right. -/
def launchChecks (vif : Nat) (p : List Byte) : Reading Admit := fun s =>
  let v := s.vifOf vif
  let x := s.nodeOf vif p
  let ctx := vifCtx vif
  if v.pmax < x.prio || (x.snapok && !v.snapen) then (s, .ok (.reject 0x0E))
  else if (s.node vif x.lid).isSome then (s, .ok (.reject 0x0B))
  else
    let none_ := x.total == 0
    ((if none_ then Reading.pure true else Reading.xl ctx x.image 128 kRead).bind fun a =>
     (if none_ || x.lrtab == 0 then Reading.pure true else Reading.xl ctx x.lrtab 1 kRead).bind fun b =>
     (if none_ || x.ngrp == 0 then Reading.pure true else Reading.xl ctx x.gtab (8 * x.ngrp) kRead).bind fun c =>
     (Reading.xl ctx x.crec 64 kWrite).bind fun d =>
     if !(a && b && c && d) then Reading.pure (.reject 0x04)
     else if none_ then Reading.pure (.node x)
     else imageChecks ctx v x) s

/-! ## Reports (R288) -/

def regions (s : State) : List (Nat × Slot) := s.slots.filter (fun e => e.2.st != .free)

/-- Table 16.7: a channel is free that no region holds, a tile that is healthy and that no region holds. -/
def State.reportBytes (s : State) (vif lid ty reason : Nat) : List Byte :=
  leBytes 4 (s.vifOf vif).repSeq ++ leBytes 4 lid ++
  b8 (ty % 2 ^ 8 + reason % 2 ^ 8 * 2 ^ 8 + (regions s).length % 2 ^ 16 * 2 ^ 16 + (s.vifSlots vif).length % 2 ^ 16 * 2 ^ 32 + s.shedPwr % 4 * 2 ^ 48 +
      (if s.phase < 4 then 2 ^ 50 else 0)) ++
  b8 0 ++ leBytes 64 (bitmap 512 (fun c => !s.heldChan c)) ++ leBytes 168 (bitmap 1344 (fun p => bits (s.healthOf p) 0 1 == 1 && s.freeTile p))

/-- Management sets where the reports of a VIF go; before phase 2 its endpoint does not answer (R384). -/
def State.setReportTo (s : State) (vif e : Nat) : State := if s.serves then s.setVif vif { s.vifOf vif with endpoint := e } else s

/-- One report goes to the report endpoint of the VIF. -/
def State.report (s : State) (vif lid ty reason : Nat) : State :=
  let s1 : State := { s with outbox := s.outbox ++ [.report vif (s.vifOf vif).endpoint (s.reportBytes vif lid ty reason)] }
  s1.setVif vif { s1.vifOf vif with repSeq := (s1.vifOf vif).repSeq + 1 }

/-! ## Disposing of a packet (R278, R281 to R283) -/

/-- RIDX passes the packet, and the report goes out. -/
def State.passPacket (s : State) (vif len lid ty reason : Nat) : State :=
  let s1 := s.setVif vif { s.vifOf vif with ridx := ((s.vifOf vif).ridx + len) % (s.vifOf vif).modulus }
  s1.report vif lid ty reason

/-- The translations of a context that failed are used up: the packet that met them is disposed of. Until then a packet whose checks
start again after a walk meets them again. -/
def State.endFailed (s : State) (ctx : Nat) : State := { s with tlb := s.tlb.filter (fun e => e.ok || e.ctx != ctx) }

/-- A rejected LAUNCH: its record, where CREC is aligned and translates, then the report. -/
def State.rejectLaunch (s : State) (vif len : Nat) (p : List Byte) (reason : Nat) : State :=
  let crec := pk p 0x18 8
  let none_ := bits (pk p 0x20 8) 0 16 * bits (pk p 0x20 8) 16 16 * bits (pk p 0x20 8) 32 16 == 0 && reason == 0x04
  let s0 := s.endFailed (vifCtx vif)
  if crec % 64 != 0 || none_ then s0.passPacket vif len (pk p 4 4) 1 reason
  else match s.writeRecord2 vif crec (recordHead (pk p 4 4) 3 reason 0 0 s.wall.toNat 0 0) (pk p 4 4) with
    | (s1, .wait) => s1
    | (s1, _) => (s1.endFailed (vifCtx vif)).passPacket vif len (pk p 4 4) 1 reason

/-- A node is admitted (R282); the first of a job on this package starts it (R327). -/
def State.admitNode (s : State) (x : Node) : State :=
  let s1 := if s.nodes.any (fun y => s.nodeJob y == s.nodeJob x) then s else s.jobStarts (s.nodeJob x)
  ({ s1 with nodes := s1.nodes ++ [x], nextArrival := s1.nextArrival + 1 } : State).settleGraph

/-- CANCEL (R283) of a node that is not DONE, or whose record is written: the nodes that name it learn of its end first.
A snapshot of the job is aborted where the node is RUNNING (R342). Notes: log entry 25. -/
def State.cancelNode (s : State) (x : Node) : State :=
  if x.st == .done then s.settleGraph.retireNode x
  else
    let k := s.nodeJob x
    ((if x.st == .running then s.abortSnapshot k else s).endNode x 0x10).settleGraph

/-- RELEASE (R282): the taints present now are accepted. -/
def State.releaseHeld (s : State) (x : Node) : State :=
  (s.setNode { x with st := .waiting, accepted := x.accepted ++ x.preds.filter (fun a => (s.nodeAt a).any Node.tainted) }).settleGraph

/-- The packet at RIDX: its whole length has been written. -/
structure Packet where
  ty : Nat
  len : Nat
  straddles : Bool
  bytes : List Byte
deriving DecidableEq, Repr

/-- The control complex reads the packet at RIDX; a read that fails stops the queue with STATUS RANGE. -/
def State.readPacket (s : State) (vif : Nat) : State × Option Packet :=
  let v := s.vifOf vif
  let stop (t : State) : State × Option Packet := (t.setVif vif { t.vifOf vif with en := false, status := 2 }, none)
  if !v.en || v.ready < 64 then (s, none)
  else match Reading.bytes (vifCtx vif) (v.addr v.ridx) 4 s with
    | (t, .wait) => (t, none)
    | (t, .bad) => stop t
    | (t, .ok h) =>
      let units := Nat.max (bits (leNat h) 8 8) 1
      let room := v.qsize - v.ridx % v.qsize
      let len := Nat.min (64 * units) room
      if v.ready < len then (t, none)
      else match Reading.bytes (vifCtx vif) (v.addr v.ridx) len t with
        | (u, .wait) => (u, none)
        | (u, .bad) => stop u
        | (u, .ok bs) => (u, some { ty := bits (leNat h) 0 8, len := len, straddles := decide (room < 64 * units), bytes := bs })

/-- The packet is disposed of (Table 16.4). -/
def State.disposePacket (s : State) (vif : Nat) (k : Packet) : State :=
  let p := k.bytes
  let lid := pk p 4 4
  match k.ty with
  | 0 =>
    if k.straddles then s.passPacket vif k.len 0 0 0x03
    else if bits (pk p 0 4) 8 8 = 0 then s.passPacket vif k.len 0 0 0x02
    else s.passPacket vif k.len 0 0 0
  | 1 =>
    if 4096 ≤ s.nodes.length then s
    else if k.straddles then s.rejectLaunch vif k.len p 0x03
    else if !launchFormat p then s.rejectLaunch vif k.len p 0x02
    else match launchChecks vif p s with
      | (t, .ok (.node x)) => (t.admitNode x).passPacket vif k.len lid 1 0
      | (t, .ok (.reject c)) => ({ t with tlb := s.tlb } : State).rejectLaunch vif k.len p c
      | (t, _) => { t with tlb := s.tlb }
  | 2 =>
    if k.straddles then s.passPacket vif k.len lid 2 0x03
    else if !shortFormat p then s.passPacket vif k.len lid 2 0x02
    else match s.node vif lid with
      | none => s.passPacket vif k.len lid 2 0x0C
      | some x =>
        -- the end was handled first: its record is written before the CANCEL retires the node
        if x.st == .done && !x.recorded then (if !(s.recordNode x).nodes.any (fun y => y.arrival == x.arrival && y.recorded) then s.recordNode x
          else ((s.recordNode x).cancelNode { x with recorded := true }).passPacket vif k.len lid 2 0)
        else (s.cancelNode x).passPacket vif k.len lid 2 0
  | 3 =>
    if k.straddles then s.passPacket vif k.len lid 3 0x03
    else if !shortFormat p then s.passPacket vif k.len lid 3 0x02
    else match s.node vif lid with
      | none => s.passPacket vif k.len lid 3 0x0C
      | some x => if x.st != .held then s.passPacket vif k.len lid 3 0x0D else (s.releaseHeld x).passPacket vif k.len lid 3 0
  | _ => s.passPacket vif k.len lid k.ty 0x01

/-- One packet of a wanted type is read and disposed of; before phase 2 the control complex takes none (R384, R386). -/
def State.packetOf (s : State) (vif : Nat) (want : Nat → Bool) : State :=
  if !s.serves then s
  else match s.readPacket vif with
  | (t, none) => t
  | (t, some k) => if want k.ty then t.disposePacket vif k else s

/-- LAUNCH (R281); a packet of no assigned type is rejected here too. -/
def execLaunch (vif : Nat) (s : State) : Host.Outcome State Fault Refusal := .next (s.packetOf vif (fun t => t == 1 || 4 ≤ t))
/-- CANCEL (R283). -/
def execCancel (vif : Nat) (s : State) : Host.Outcome State Fault Refusal := .next (s.packetOf vif (fun t => t == 2))
/-- RELEASE (R282). -/
def execRelease (vif : Nat) (s : State) : Host.Outcome State Fault Refusal := .next (s.packetOf vif (fun t => t == 3))
/-- PAD (R279). -/
def execPad (vif : Nat) (s : State) : Host.Outcome State Fault Refusal := .next (s.packetOf vif (fun t => t == 0))

end Sys2Proof.Machine
end

