-- ==== Sys2Proof/Machine/Harness.lean ====
section
/-! DEFINITION. The Harness: its commands, the stow, the resume, the replay, clock changes, margins and health, the event queue, interrupts, walks and shoot-downs (R38, R297, R298, R301, R302, R305 to R316, R318, R320 to R322, R383). -/
namespace Sys2Proof.Machine

/-! ## Commands (R305, Table 18.7) -/

/-- A command written to a slot: dropped while another is in hand, BADCMD where the state does not take it. -/
def State.command (s : State) (n : Nat) (ok : Slot → Bool) (act : State) : State :=
  if 1344 ≤ n then s
  else
    let r := s.slot n
    if !r.done then s.setSlot n { r with err := 5 }
    else if r.st == .free || !ok r then s.cmdDone n 2
    else act

/-- A pre-emption is asked for, by a command or by the Harness itself (R322, R371). -/
def State.askStow (s : State) (n : Nat) (evict : Bool) : State :=
  let r := s.slot n
  if r.st.runs then s.setSlot n { r with preq := true, evictReq := r.evictReq || evict }
  else if r.st == .stowed && !r.evicted && evict then s.setSlot n { r with evictReq := true } else s

/-- STOW: sets PREQ. A RUNNING region is stowed at its next pre-emptible boundary, which completes the command; a FROZEN one after
the freeze has ended, which another command may have to do: PREQ is set, and the command has completed. Notes: log entry 13. -/
def State.cmdStow (s : State) (n : Nat) (evict : Bool) : State :=
  s.command n (fun r => r.st.runs)
    (let u := (s.setSlot n { s.slot n with done := false, shedBy := 0 }).askStow n evict
     if (s.slot n).st == .frozen then u.cmdDone n 0 else u)
def execStow (slot evict : Nat) (s : State) : Host.Outcome State Fault Refusal := .next (s.cmdStow slot (evict == 1))

/-- THAW. -/
def State.cmdThaw (s : State) (n : Nat) : State :=
  s.command n (fun r => r.st == .frozen && !r.handler) ((s.thaw n true).cmdDone n 0)
def execThaw (slot : Nat) (s : State) : Host.Outcome State Fault Refusal := .next (s.cmdThaw slot)

/-- FREEZE: a region whose clock enable is held, or whose last REND has retired, is in no cycle and is frozen at once. -/
def State.cmdFreeze (s : State) (n : Nat) : State :=
  s.command n (fun r => r.st.runs)
    (let r := s.slot n
     if r.st == .frozen then s.cmdDone n 0
     else if r.held || r.ended then (s.plainFreeze n).cmdDone n 0
     else s.setSlot n { r with fz := true, done := false })
def execFreeze (slot : Nat) (s : State) : Host.Outcome State Fault Refusal := .next (s.cmdFreeze slot)

/-- ABORT. -/
def State.cmdAbort (s : State) (n reason : Nat) : State := s.command n (fun _ => true) ((s.abortSlot n reason).cmdDone n 0)
def execAbort (slot reason : Nat) (s : State) : Host.Outcome State Fault Refusal := .next (s.cmdAbort slot reason)

/-! ## Segment replay (R297, R298) -/

/-- REPOK of a tile's entry record, and the SEGCYC that it holds. -/
def Tile.entryOk (t : Tile) : Bool := bits (leNat (t.stowRd 0x92F0 8)) 0 1 == 1
def Tile.entrySegcyc (t : Tile) : Nat := leNat (t.stowRd 0x9210 8) % 2 ^ 48
def State.replayOk (s : State) (n : Nat) : Bool :=
  (s.tiles6 n).all (fun t => (s.tileAt n t).seg.opened && (s.tileAt n t).entryOk && (s.tileAt n t).entrySegcyc == (s.tileAt n 0).entrySegcyc)

/-- A replay is asked for: refused with ERR 4, or it acts once every command has completed. -/
def State.askReplay (s : State) (n : Nat) (byCmd : Bool) : State :=
  if s.replayOk n then s.setSlot n { s.slot n with replaying := true, replayCmd := byCmd, handler := false, done := !byCmd && (s.slot n).done }
  else
    let s1 := (s.setSlot n { s.slot n with err := 4, handler := false }).raiseCC ipTrap
    if byCmd then s1.cmdDone n 4 else s1
/-- REPLAY. -/
def State.cmdReplay (s : State) (n : Nat) : State := s.command n (fun r => r.st == .frozen && !r.handler) (s.askReplay n true)
def execReplay (slot : Nat) (s : State) : Host.Outcome State Fault Refusal := .next (s.cmdReplay slot)

/-- Every CI and CO command of the region has completed. -/
def State.cmdsDone (s : State) (n : Nat) : Bool := (s.tiles6 n).all (fun t => (s.tileAt n t).cmds.isEmpty)

/-- The restore of R298; the first replayed cycle is SEGCYC + 1. -/
def State.replayNow (s : State) (n : Nat) : State :=
  let c := liftCycle (s.slot n).rcc (s.tileAt n 0).entrySegcyc
  let s1 := (s.tiles6 n).foldl (fun (u : State) t =>
    let v := u.readStow n t entryBase 0x500
    v.setTileAt n t ((v.tileAt n t).loadEntry c)) s
  let r := (s.tiles6 n).foldl (fun (q : Slot) t => q.restoreBars t (s.tileAt n t).entry.bars) (s1.slot n)
  let s2 := s1.setSlot n { s1.woken r with
    st := .running, trapped := false, handler := false, replaying := false, rcc := c + 1, pos := 0, held := false, holding := false,
    flying := [], links := [], linkIssues := [], corrected := true, tainted := r.tainted, replayCmd := false }
  (if r.replayCmd then s2.cmdDone n 0 else s2).joinRoll n

/-- SEGMENT_REPLAY (R298). -/
def execSegmentReplay (slot : Nat) (s : State) : Host.Outcome State Fault Refusal :=
  .next (if (s.slot slot).st == .frozen && (s.slot slot).replaying && s.cmdsDone slot then s.replayNow slot else s)

/-! ## Stow (R306 to R311) -/

/-- SQ's next word is a SEG whose boundary is pre-emptible, or the tile has ended. -/
def Tile.atPre (t : Tile) : Bool :=
  t.rended || (t.stopped && (match t.peekSq with
    | some (_, .seg h) => t.hdrPre h
    | _ => false))
def State.allPre (s : State) (n : Nat) : Bool := (s.tiles6 n).all (fun t => (s.tileAt n t).atPre)

/-- The SNAPPED pages of the context area (R334). -/
def State.ctxSnapped (s : State) (n : Nat) : List Nat :=
  let r := s.slot n
  s.snaps.flatMap (fun e => e.2.pages.filter (fun p => decide (r.ctxBase < 4096 * p + 4096) && decide (4096 * p < r.ctxBase + r.count * blockBytesCtx)))
/-- No page of the context area and no buffer of the region waits to be copied (R334, R335). -/
def State.stowClear (s : State) (n : Nat) : Bool := (s.nextSnapped n).isNone && (s.ctxSnapped n).isEmpty

/-- What EVICT adds to a stow for one tile (R306 step 4): buffers, stow area and order store, copied to the context block. The reads
correct and count single errors; a line with an uncorrectable one is written poisoned. Notes: log entry 20. -/
def State.moveTile (s0 : State) (n t : Nat) : State :=
  let r := s0.slot n
  let ds := (Store.get ({} : TileImg) t r.imgs).spans ++ [(Config.stowBase, 65536)]
  let s := (ds.foldl (fun (u : State) (d : Nat × Nat) => u.stowRead n (r.phys t) 3 d.1 d.2) s0).stowRead n (r.phys t) 4 0 262144
  let x := s.tileAt n t
  s.ctxPieces r.world (r.ctxBase + t * blockBytesCtx) x (ds.map (fun (d : Nat × Nat) => (d.1, Store.getN 0 x.sram d.1 d.2)) ++ [storePiece x])

/-- The state of one tile goes to its stow area and its context block; accumulators and operand memory are read as R318 gives. -/
def State.stowTile (s : State) (n t : Nat) (evict : Bool) : State :=
  let r := s.slot n
  let base := r.ctxBase + t * blockBytesCtx
  let drains := s.drained n t
  let s0 := (s.stowRead n (r.phys t) 5 0 opBytes).stowRead n (r.phys t) 6 0 (6 * accBytes)
  let x := (s0.tileAt n t).writePieces Config.stowBase ((s0.tileAt n t).stowPieces r.rcc drains)
  let s1 := (s0.setTileAt n t x).ctxPieces r.world base x (x.matrixPieces ++ overPieces drains)
  let s2 := if evict then s1.moveTile n t else s1
  s2.setSlot n { s2.slot n with kept := Store.put {} t (x.keep (r.barList t)) (s2.slot n).kept, keptEntry := Store.put {} t x.entry (s2.slot n).keptEntry }

/-- The stow of a held region (R306). -/
def State.stowNow (s : State) (n : Nat) : State :=
  let r := s.slot n
  let s1 := (s.tiles6 n).foldl (fun (u : State) t => u.stowTile n t r.evictReq) s
  let s2 := if r.evictReq then s1.leaveTiles n else s1
  let s3 : State := { s2 with tlb := s2.tlb.filter (fun e => e.ctx != n) }
  let s4 := s3.setSlot n { s3.slot n with
    st := .stowed, preq := false, evictReq := false, evicted := r.evictReq, held := false, flying := [], links := [], linkIssues := [] }
  let s5 := s4.postEvent 0x13 n 0
  if r.done then s5 else s5.cmdDone n 0

/-- The region stands held at a pre-emptible boundary and is to be stowed; and no copy holds that up. -/
def State.wantsStow (s : State) (n : Nat) : Bool :=
  let r := s.slot n
  r.st == .running && r.held && !r.cutReq && r.preq && s.allPre n && s.cmdsDone n
def State.mayStow (s : State) (n : Nat) : Bool := s.wantsStow n && s.stowClear n

/-- A region that stands stowed in its tiles is to be moved away too; and no copy holds that up. -/
def State.wantsEvict (s : State) (n : Nat) : Bool :=
  let r := s.slot n
  r.st == .stowed && !r.evicted && r.evictReq
def State.mayEvict (s : State) (n : Nat) : Bool := s.wantsEvict n && s.stowClear n

/-- The write of the context area waits for the copies of its SNAPPED pages (R334). -/
def State.awaitCtx (s : State) (n : Nat) : State :=
  if (s.wantsStow n || s.wantsEvict n) && !(s.ctxSnapped n).isEmpty then s.holdPages (s.ctxSnapped n) else s
/-- Its tiles' state goes to the context area, and the tiles become free. -/
def State.evictNow (s : State) (n : Nat) : State :=
  let s1 := (s.tiles6 n).foldl (fun (u : State) t => u.moveTile n t) s
  let s2 := s1.leaveTiles n
  s2.setSlot n { s2.slot n with evictReq := false, evicted := true }

/-- STOW_SAVE (R306). -/
def execStowSave (slot : Nat) (s : State) : Host.Outcome State Fault Refusal :=
  .next (if s.mayStow slot then s.stowNow slot else if s.mayEvict slot then s.evictNow slot else s.awaitCtx slot)

/-! ## Resume (R313) -/

/-- The transfers that a tile's drained records hold, from its stow area and the overflow range of its context block. -/
def storedXfers (rd : Nat → Nat → List Byte) (extra : List Byte) (c : Nat) : List Xfer :=
  let k := drainCounts (rd 0x8480 256)
  loadXfers c k.1 (rd 0xA000 drainArea) ++ (if k.2 = 0 then [] else loadXfers c k.2 extra)

/-- Held transfers of each source in ascending SEQ: transfers keep the order of their records within one source. -/
def insertSeq (x : Xfer) : List Xfer → List Xfer
  | [] => [x]
  | y :: r => if x.src == y.src && x.seq < y.seq then x :: y :: r else y :: insertSeq x r
def orderHeld (xs : List Xfer) : List Xfer := xs.foldl (fun acc x => insertSeq x acc) []

/-- A tile takes back a stowed state: `c` is the last cycle performed, `xs` its stored transfers. -/
def Tile.restored (b : Tile) (rd ctx : Nat → Nat → List Byte) (k e : Kept) (c : Nat) (xs : List Xfer) : Tile :=
  let x := ((b.loadStow rd c).loadMatrix ctx).restoreKept k false
  { x with
    hold := orderHeld (xs.filter (fun z => z.rem == 0)), flights := [], cmds := [], fetchCI := none, fetchCO := none, fence := [], podDue := none, bgate := none, inFreeze := false, quiet := false,
    stopped := false, rended := (x.eng 0).st == .stopped, trapNow := none, again := 0, lastPre := c + 1, entry := e }

/-- A tile that a region's moved state comes back to: buffers, stow area and order store as `ctx` holds them. -/
def Tile.refill (old : Tile) (i : TileImg) (sram ctx : Nat → Nat → List Byte) : Tile :=
  { clk := old.clk, tcause := old.tcause, tstep := old.tstep, topd0 := old.topd0, topd1 := old.topd1, tret := old.tret,
    sram := (i.spans ++ [(Config.stowBase, 65536)]).foldl (fun (m : List Host.Cell) (p : Nat × Nat) => Store.putL 0 m p.1 (sram p.1 p.2)) [],
    store := loadStore (ctx 0x560000 262144) }

/-- What EVICT moved comes back to one tile of the new footprint: buffers, stow area and order store. -/
def State.returnTile (s0 : State) (n t : Nat) : State :=
  let r := s0.slot n
  let img := Store.get ({} : TileImg) t r.imgs
  let base := r.ctxBase + t * blockBytesCtx
  let s := s0.fixCtx n t img.movedRanges
  let ctx (off len : Nat) : List Byte := s.ctxRead r.world (base + off) len
  s.setTileAt n t (((s.tileAt n t).refill img ctx ctx).spoil (s.ctxLost base img.movedRanges))

/-- One tile of the footprint: what was moved away, then the stowed state, which its stow area and its context block hold. -/
def State.resumeTile (s : State) (n t : Nat) (evicted : Bool) : State :=
  let s0 := ((if evicted then s.returnTile n t else s).readStow n t 0 65536).fixCtx n t matrixRanges
  let r := s0.slot n
  let base := r.ctxBase + t * blockBytesCtx
  let ctx (off len : Nat) : List Byte := s0.ctxRead r.world (base + off) len
  let b := s0.tileAt n t
  let k := Store.get ({} : Kept) t r.kept
  let xs := storedXfers b.stowRd (ctx 0x5A0000 0x260000) r.rcc
  let s1 := s0.setTileAt n t ((b.restored b.stowRd ctx k (Store.get {} t r.keptEntry) r.rcc xs).spoil (s0.ctxLost base matrixRanges))
  s1.setSlot n { (s1.slot n).restoreBars t k.bars with flying := (s1.slot n).flying ++ xs.filter (fun z => z.rem != 0) }

/-- The HBM channels that a region still has to be given: those of its first placement here (R286, R341). -/
def Slot.wantChans (r : Slot) : Nat := if r.chans.length < r.hbmch then r.hbmch else 0
/-- The channels of a region that is placed. -/
def State.chansOf (s : State) (r : Slot) : List Nat := if r.wantChans = 0 then r.chans else s.freeChans.take r.hbmch

/-- A stowed region goes on in cycle c + 1 at a placement that has passed its checks. One that is held before its first region cycle, by a
cut or at a boundary, sets TIMEOFF when that cycle comes (R372). -/
def State.resumeNow (s : State) (n : Nat) (q : Nat × Nat × Nat) : State :=
  let r := s.slot n
  let s1 := s.setSlot n { r.place q with flying := [], evicted := false }
  let s2 := (s.tiles6 n).foldl (fun (u : State) t => u.resumeTile n t r.evicted) s1
  let r2 := s2.slot n
  -- first placed here while PHASE < 4, or still so: the reduced flag, and 750 MHz or less (R387)
  let low := (r2.reduced || r2.fresh) && decide (s.phase < 4)
  let mhz := r2.mhzNext.getD r2.mhz
  -- a region that has taken its cut as it stood stowed waits for the package cut (R329)
  State.joinRoll (n := n) <| s2.setSlot n { r2 with
    st := .running, rcc := if r2.cutReq then r2.rcc else r2.rcc + 1, pos := 0, held := r2.cutReq, holding := false, evicted := false, trapped := false,
    evictReq := false, moving := false, mover := none, shedBy := 0, chans := s.chansOf r, wakes := true,
    timeoff := s.offAt r.worldStow, tstart := s.tb, reduced := low, fresh := false,
    mhz := if low then Nat.min mhz 750 else mhz, mhzNext := none, slow := [], kept := [], keptEntry := [] }

/-- The checks of a placement that RESUME names: 1 SEAM, 3 PLACE, 0 when it may be taken. -/
def State.placeErr (s : State) (n : Nat) (q : Nat × Nat × Nat) : Nat :=
  let r := s.slot n
  let keep := r.st == .stowed && !r.evicted
  if !(r.place q).inGrid then 3
  else if !s.seamFits (r.place q) then 1
  else if keep && (r.px, r.py, r.orient) != q then 3
  else if s.placeFits (r.place q) (fun p => if keep then s.dieOk (dieOf p) else s.openTile p) then 0 else 3

/-- The tiles and channels that a placement takes keep the VIF within its TQ and CHQ, and the package has the channels (R286). -/
def State.quotaOk (s : State) (n : Nat) : Bool :=
  let r := s.slot n
  let v := s.vifOf r.vif
  decide (s.vifTiles r.vif + (if r.evicted then r.count else 0) ≤ v.tq) && decide (s.vifChans r.vif + r.wantChans ≤ v.chq) &&
    decide (r.wantChans ≤ s.freeChans.length)

/-- RESUME: first placement of a LOADED region, or the return of a STOWED one. One that came from another package is placed here for the
first time, within its VIF's quotas. -/
def State.cmdResume (s : State) (n : Nat) (q : Nat × Nat × Nat) : State :=
  s.command n (fun r => r.st == .loaded || r.st == .stowed)
    (let r := s.slot n
     match s.placeErr n q with
     | 0 => if r.st == .loaded then
         (if s.freeChans.length < r.hbmch then s.cmdDone n 3
          else ((s.setSlot n { r.place q with chans := s.freeChans.take r.hbmch }).startRegion n).cmdDone n 0)
       else if r.fresh && !s.quotaOk n then s.cmdDone n 3
       else (s.resumeNow n q).cmdDone n 0
     | e => s.cmdDone n e)
def execResume (slot px py orient : Nat) (s : State) : Host.Outcome State Fault Refusal := .next (s.cmdResume slot (px, py, orient % 8))

/-! ## The placer's moves (R286, R322) -/

/-- The first legal placement of a region whose state was moved away, within its VIF's TQ and CHQ (R286). -/
def State.returnPlace (s : State) (n : Nat) : Option (Nat × Nat × Nat) :=
  if s.quotaOk n then placements.find? (fun q => s.placeErr n q == 0) else none

/-- The node for which a region has made room, where it still waits for that room. -/
def State.moverOf (s : State) (r : Slot) : Option Node := s.candidates.find? (fun x => r.mover == some x.arrival && s.roomComing x)
/-- A placement of a moved region that leaves a node the room that is made for it. -/
def State.leavesRoom (s : State) (n : Nat) (x : Node) (q : Nat × Nat × Nat) : Bool :=
  let r := s.slot n
  (s.setSlot n { r.place q with evicted := false, chans := s.chansOf r, mover := none }).roomComing x

/-- A region that the placer moves, once its state is away, goes on at the first legal placement; while the node for which it made room
waits, at the first one elsewhere, which leaves that room (R286). -/
def State.resumeMoved (s : State) (n : Nat) : State :=
  let r := s.slot n
  if !(r.moving && r.st == .stowed && r.evicted) then s
  else
    let place := match s.moverOf r with
      | none => s.returnPlace n
      | some x => if s.quotaOk n then placements.find? (fun q => s.placeErr n q == 0 && s.leavesRoom n x q) else none
    match place with
    | some q => s.resumeNow n q
    | none => s
def State.resumeAll (s : State) : State := (s.slots.map (·.1)).foldl State.resumeMoved s

/-- PLACE_INSTANCE (R284 to R286): a node places what it can; else regions are moved to make room; regions that have been moved go on.
Before phase 2 the control complex places nothing (R384, R386). -/
def execPlaceInstance (s : State) : Host.Outcome State Fault Refusal :=
  let s1 := s.settleGraph
  let s2 := s1.placeFirst s1.candidates
  .next (if !s.serves then s else (if s2 == s1 then s1.makeMoves s1.candidates else s2).resumeAll)

/-! ## HRCMD -/

/-- A write of HRCMD (Table 18.6). -/
def State.writeHrcmd (s : State) (n v : Nat) : State :=
  match bits v 0 4 with
  | 1 => s.cmdStow n (bits v 32 1 == 1)
  | 2 => s.cmdResume n (bits v 16 6, bits v 24 5, bits v 8 3)
  | 3 => s.cmdThaw n
  | 4 => s.cmdReplay n
  | 5 => s.cmdFreeze n
  | 6 => s.cmdAbort n (bits v 40 8)
  | _ => s.command n (fun _ => false) s

/-! ## Held regions (R38, R305) -/

/-- A pending clock change, taken while the region is held at a boundary. -/
def State.clockNow (s : State) (n : Nat) : State :=
  let r := s.slot n
  s.setSlot n { r.setRate (r.mhzNext.getD r.mhz) with mhzNext := none }
def State.mayClock (s : State) (n : Nat) : Bool :=
  let r := s.slot n
  r.st == .running && r.held && r.mhzNext.isSome && (r.cutReq || s.allPre n)
/-- CLOCK_CHANGE (R305). -/
def execClockChange (slot : Nat) (s : State) : Host.Outcome State Fault Refusal := .next (if s.mayClock slot then s.clockNow slot else s)

/-- The region goes on from its hold: the next cycle is the one that no tile entered. -/
def State.goOn (s : State) (n : Nat) : State :=
  let s1 := (s.tiles6 n).foldl (fun (u : State) t => u.setTileAt n t { u.tileAt n t with stopped := false }) s
  s1.setSlot n { s1.woken (s1.slot n) with held := false, rcc := (s1.slot n).rcc + 1, pos := 0 }

/-! ## MAXPD (R38) -/

/-- Some tile has run for more than MAXPD cycles since its last pre-emptible boundary, while a pre-emption is pending; a tile that has
stopped at one has reached it. -/
def State.overMaxpd (s : State) (n : Nat) : Bool :=
  let r := s.slot n
  r.preq && (s.tiles6 n).any (fun t =>
    !(s.tileAt n t).atPre && decide ((s.tileAt n t).lastPre + r.maxpd < r.rcc))
/-- MAXPD: the region freezes, and its instance ends ABORTED with reason MAXPD. -/
def execMaxpd (slot : Nat) (s : State) : Host.Outcome State Fault Refusal :=
  .next (if (s.slot slot).st == .running && !(s.slot slot).held && s.overMaxpd slot then s.abortSlot slot 0x12 else s)

/-! ## Margins and health (R320, R322, R383) -/

/-- 1 ms. -/
def msNs : Nat := 1000000

/-- MARGIN (R320, R383): at most one report per ms and region; one at 400 MHz changes no rate. -/
def execMargin (tile : Nat) (s : State) : Host.Outcome State Fault Refusal :=
  .next (match s.slotOn tile with
    | none => s
    | some n =>
      let r := s.slot n
      if r.margin.any (fun a => decide (s.tb < a + msNs)) then s
      else
        let m := Nat.max 400 (r.clkReg - 100)
        let s1 := if m = r.clkReg then s else s.setClock n m
        let slow := if r.mhz = 400 && !r.slow.any (fun e => e.1 == tile) then (tile, s.tb) :: r.slow else r.slow
        (s1.setSlot n { s1.slot n with margin := some s.tb, slow := slow }).postEvent 0x14 n m)

/-- The mask of abstract tile `t` declares the unit of a health bit. -/
def Slot.declares (r : Slot) (t bit : Nat) : Bool :=
  let m := (Store.get ({} : TileImg) t r.imgs).mask
  match bit with
  | 0 => true
  | 1 => bits m 0 1 == 1
  | 2 => bits m 1 1 == 1
  | _ => [((0 : Int), (-1 : Int)), (1, 0), (0, 1), (-1, 0)].any (fun d => linkBit (turn r.orient d) == bit && bits m (capBit d.1 d.2) 1 == 1)

/-- A health entry takes a value: a cleared bit of a unit in use asks for a stow with EVICT, after which the placer resumes the region
elsewhere (R322). -/
def State.setHealth (s : State) (p v : Nat) : State :=
  let old := s.healthOf p
  let s1 := s.healthStore p v
  match s.slotOn p with
  | none => s1
  | some n =>
    let r := s.slot n
    if (List.range r.count).any (fun t => r.phys t == p && (List.range 7).any (fun b => bits old b 1 == 1 && bits v b 1 == 0 && r.declares t b))
    then s1.askMove n else s1
/-- HEALTH_BIT_CLEAR (R322). -/
def execHealthBitClear (tile bit : Nat) (s : State) : Host.Outcome State Fault Refusal :=
  .next (if 1344 ≤ tile || 7 ≤ bit || bits (s.healthOf tile) bit 1 = 0 then s else s.setHealth tile (s.healthOf tile - 2 ^ bit))
/-- MARGIN_TILE_FAIL (R383): slack of a tile is short 1 ms after its report at 400 MHz. -/
def execMarginTileFail (tile : Nat) (s : State) : Host.Outcome State Fault Refusal :=
  .next (match s.slotOn tile with
    | none => s
    | some n =>
      if (s.slot n).mhz = 400 && (s.slot n).slow.any (fun e => e.1 == tile && decide (e.2 + msNs ≤ s.tb)) && bits (s.healthOf tile) 0 1 = 1 then
        s.setHealth tile (s.healthOf tile - 1)
      else s)

/-- SCRUB_PATROL (R318, R319): the single errors of a space of a tile, or of an HBM line (`src` 7), are corrected, and a line that cannot
be corrected is poisoned; no instance is touched. `kind` limits it to one 64-bit word of the tile's space. -/
def execScrubPatrol (src at_ kind : Nat) (s : State) : Host.Outcome State Fault Refusal :=
  .next (if src = 7 then
      (if Store.get 0 at_ s.poison = 1 || Store.get 0 at_ s.poison = 3 then s.meetLine at_ else s)
    else s.patrolTile src at_ kind)

/-! ## Events and interrupts (R301, R302) -/

/-- EVQ_READ (R301): the record goes to the reader, which is no part of the queue's state. -/
def execEvqRead (_core : Nat) (s : State) : Host.Outcome State Fault Refusal := .next s.evqPop.1

/-- An interrupt is pending at a core. -/
def CCore.pending (c : CCore) : Bool := c.ipend &&& c.imask != 0
/-- R302: a core takes a pending interrupt before its next word. -/
def CCore.interrupt (c : CCore) : CCore := { c.trap 0 true c.step with halted := false }
def CCore.takes (c : CCore) : Bool := c.pending && !c.inTrap && !c.failed
/-- CC_INTERRUPT (R302). -/
def execCcInterrupt (core : Nat) (s : State) : Host.Outcome State Fault Refusal :=
  .next (if core < Config.coreCount && (s.core core).takes then s.setCore core (s.core core).interrupt else s)

/-! ## Translation (R314 to R316) -/

/-- The die of the walker core that serves a context's miss: that of the region's first tile. -/
def State.walkDie (s : State) (ctx : Nat) : Nat := if ctx < 1344 then dieOf ((s.slot ctx).phys 0) else 0
/-- TRANSLATION_WALK (R314). -/
def execTranslationWalk (slot va kind : Nat) (s : State) : Host.Outcome State Fault Refusal :=
  .next (match s.translate slot va kind with
    | .miss => s.startWalk (s.walkDie slot) slot va kind
    | _ => s)

/-- WALK_WATCHDOG (R314): the walk has run for more than 100 µs. -/
def execWalkWatchdog (walker : Nat) (s : State) : Host.Outcome State Fault Refusal :=
  .next (if (s.walker walker).walking && (s.walker walker).overdue s.tb then s.stopWalk walker else s)

/-- The tile as it stood at the end of cycle c. -/
def Tile.atCycle (t : Tile) : Tile :=
  match t.atC with
  | none => t
  | some c => { t with sram := c.sram, dirty := c.dirty, ecc := c.ecc }

/-- A granule has been written back: it is clean as it stood at c; what a handler has stored to it since stays dirty. -/
def Tile.wroteBack (t : Tile) (gran : Nat) : Tile :=
  let same := Store.getN 0 t.sram (gran * 4096) 4096 == Store.getN 0 t.atCycle.sram (gran * 4096) 4096
  { t with dirty := if same then Store.put false gran false t.dirty else t.dirty,
           atC := t.atC.map (fun c => { c with dirty := Store.put false gran false c.dirty }) }

/-- The dirty granules of one tile whose bound addresses a selected translation covers are written back, with the contents of the last
region cycle performed (R316). -/
def State.flushTile (s : State) (n t : Nat) (sel : TlbE → Bool) : State :=
  let ds := (Store.get ({} : TileImg) t (s.slot n).imgs).decls
  ds.foldl (fun (u : State) d =>
    (List.range d.2.len).foldl (fun (v : State) g =>
      let x := (v.tileAt n t).atCycle
      let b := x.buf d.1
      let gran := d.2.base + g
      let va := b.va + 4096 * g
      if !(b.bound && Store.get false gran x.dirty) then v
      else match v.tlb.find? (fun e => e.ctx == n && e.covers va) with
        | none => v
        | some e =>
          if !sel e then v
          else
            let u1 := v.stowRead n ((v.slot n).phys t) 3 (gran * 4096) 4096
            let v0 := match u1.translate n va kWrite with
              | .pa a => u1.freePage (a / 4096)
              | _ => u1
            match v0.gwrite 0 n va (Store.getN 0 x.sram (gran * 4096) 4096) (x.badLines (gran * 4096) 4096) with
            | (w, .done _) => w.setTileAt n t ((w.tileAt n t).wroteBack gran)
            | _ => v0) u) s

/-- The regions whose buffers stand in tiles. -/
def Slot.inTiles (r : Slot) : Bool := r.st.runs || (r.st == .stowed && !r.evicted)

/-- The bound addresses of the dirty granules of one tile. -/
def State.dirtyVas (s : State) (n t : Nat) : List Nat :=
  let x := (s.tileAt n t).atCycle
  (Store.get ({} : TileImg) t (s.slot n).imgs).decls.flatMap (fun d =>
    (List.range d.2.len).filterMap (fun g =>
      if (x.buf d.1).bound && Store.get false (d.2.base + g) x.dirty then some ((x.buf d.1).va + 4096 * g) else none))

/-- The context and the bound address of the first dirty granule, of those that `want` names, whose translation is not held. -/
def State.dirtyMiss (s : State) (want : Nat → Nat → Bool) : Option (Nat × Nat) :=
  (s.slots.flatMap (fun e =>
    if e.2.inTiles then (List.range e.2.count).flatMap (fun t =>
      ((s.dirtyVas e.1 t).filter (fun va => want e.1 va && !s.tlb.any (fun x => x.ctx == e.1 && x.covers va))).map (fun va => (e.1, va)))
    else [])).head?

/-- A shoot-down of the selected translations: write-back, then they are gone. -/
def State.shoot (s : State) (sel : TlbE → Bool) : State :=
  let s1 := s.slots.foldl (fun (u : State) e =>
    if e.2.inTiles then (List.range e.2.count).foldl (fun v t => v.flushTile e.1 t sel) u else u) s
  { s1 with tlb := s1.tlb.filter (fun e => e.ok && !sel e) }

/-- No region is within a cycle: the contents of its buffers are those of the last cycle performed. A region in a landing hold, or
one that has ended and awaits its commands, stands past its cycle's end (R55, R315). -/
def State.betweenCycles (s : State) : Bool :=
  s.slots.all (fun e => e.2.st != .running || e.2.held || e.2.pos == 0 || decide (6 * e.2.count < e.2.pos))

/-- The translations that the shoot-down in progress names, by the root that they were walked under; that of a VIF's own context is not
known, and its translations of the page go too. -/
def State.sdSel (s : State) (e : TlbE) : Bool :=
  let va := s.sdNow.1 * 4096
  e.root.all (· == s.sdNow.2.1) &&
  (s.sdNow.2.2.2 || e.va / 2 ^ pageBits s.sdNow.2.2.1 == va / 2 ^ pageBits s.sdNow.2.2.1 || e.covers va)

/-- The shoot-down in progress names the page of a bound address. -/
def State.sdWants (s : State) (ctx va : Nat) : Bool :=
  (s.slot ctx).root == s.sdNow.2.1 && (s.sdNow.2.2.2 || va / 2 ^ pageBits s.sdNow.2.2.1 == s.sdNow.1 * 4096 / 2 ^ pageBits s.sdNow.2.2.1)

/-- SHOOTDOWN (R315). -/
def execShootdown (_core : Nat) (s : State) : Host.Outcome State Fault Refusal := .next s.startShoot

/-- A held translation maps a byte of a range. -/
def TlbE.meets (e : TlbE) (r : Nat × Nat) : Bool :=
  let b := 2 ^ pageBits e.size
  decide (e.va / b * b < r.1 + r.2) && decide (r.1 < e.va / b * b + b)
/-- A BINDSO of a tile, of one die or of any, has been translated under what the shoot-down in progress names and is still to be
performed with the bytes that this gave (R230). -/
def State.bindsHeld (s : State) (die : Option Nat) : Bool :=
  s.seats.any (fun q => die.all (· == s.tileDie q.1 q.2) && (s.tileAt q.1 q.2).cmds.any (fun k =>
    k.kind == .bindso && k.ret && s.tlb.any (fun e => e.ctx == q.1 && s.sdSel e && (e.meets (k.va, k.n) || e.covers k.obj))))

/-- One unit acknowledges, once its accesses under the old translation are performed; with the last one the translations are gone, GO clears
and CCIPEND.SHOOT is set. -/
def State.ackShoot (s : State) (u : Nat) : State :=
  if !s.sdgo || !s.sdwait.contains u || s.bindsHeld (if 1 < s.sdwait.length then some u else none) then s
  else if 1 < s.sdwait.length then { s with sdwait := s.sdwait.filter (fun x => x != u) }
  else if !s.betweenCycles then s
  else match s.dirtyMiss s.sdWants with
  | some m => s.startWalk (s.walkDie m.1) m.1 m.2 kWrite
  | none => ({ s.shoot s.sdSel with sdgo := false, sdwait := [] } : State).raiseCC ipShoot
/-- SHOOTDOWN_ACK (R315, R316). -/
def execShootdownAck (unit : Nat) (s : State) : Host.Outcome State Fault Refusal := .next (s.ackShoot unit)

end Sys2Proof.Machine
end

