-- ==== Sys2Proof/Machine/Snapshot.lean ====
section
/-! DEFINITION. Snapshot and rollback: SNAP and ROLLB, the cut, bookmarks and job messages, report, commit and abort, the restore (R180, R181, R241, R324 to R342). -/
namespace Sys2Proof.Machine

/-! ## Jobs by handle and by JOBID (R324, R333) -/

/-- A launch of the job stands on this package: messages and bookmarks name a job by its key, that is its JOBID and its world (R331,
R333). Notes: log entry 25. -/
def State.hasJob (s : State) (k : Nat) : Bool := s.nodes.any (fun x => s.nodeJob x == k)
def State.send (s : State) (os : List Out) : State := { s with outbox := s.outbox ++ os }

def execSnareaWrite (value : Nat) (s : State) : Host.Outcome State Fault Refusal := .next (s.writeSnarea value)

/-! ## The cut of a region (R329, R336) -/

/-- Pieces laid out from `pos` to `stop`, the gaps between them zero. -/
def fillFrom : Nat → List (Nat × List Byte) → Nat → List Byte
  | pos, [], stop => List.replicate (stop - pos) 0
  | pos, p :: r, stop => List.replicate (p.1 - pos) 0 ++ p.2 ++ fillFrom (p.1 + p.2.length) r stop

/-- The data of a REGION record: the stow area, then the context block from 0x40_0000. -/
def State.regionData (s : State) (n t : Nat) : List Byte :=
  let r := s.slot n
  let x := s.tileAt n t
  let ctx (off len : Nat) : List Byte := s.ctxRead r.world (r.ctxBase + t * blockBytesCtx + off) len
  if r.st == .stowed then
    (if r.evicted then ctx Config.stowBase 65536 else x.stowRd 0 65536) ++ ctx 0x400000 0x160000 ++
    (if r.evicted then ctx 0x560000 262144 else x.storeBytes) ++ ctx 0x5A0000 0x260000
  else
    let drains := s.drained n t
    (x.writePieces Config.stowBase (x.stowPieces r.rcc drains)).stowRd 0 65536 ++
    fillFrom 0x400000 (x.matrixPieces ++ [storePiece x] ++ overPieces drains) 0x800000

/-- The parts of a tile that a REGION record takes from its storage, and those that it takes from the context block. -/
def storageRanges : List (Nat × Nat) := [(Config.stowBase, 65536), (0x560000, 262144)]

/-- The reads of a tile for its REGION record: each corrects what it can (R318, R319). -/
def State.cutRead (s : State) (n t : Nat) : State :=
  let r := s.slot n
  let p := r.phys t
  if r.st == .stowed && r.evicted then s.fixCtx n t (storageRanges ++ matrixRanges)
  else
    let s1 := (s.stowRead n p 3 Config.stowBase 65536).stowRead n p 4 0 262144
    if r.st == .stowed then s1.fixCtx n t matrixRanges else (s1.stowRead n p 5 0 opBytes).stowRead n p 6 0 (6 * accBytes)

/-- The offsets of a REGION record's data that come from poisoned lines of the context area, or from words of the tile with an
uncorrectable error. -/
def State.regionBad (s : State) (n t : Nat) : List Nat :=
  let r := s.slot n
  let x := s.tileAt n t
  let base := r.ctxBase + t * blockBytesCtx
  let own (y : Tile) (rs : List (Nat × Nat)) : List Nat := rs.flatMap (fun d => (y.lostLines d.1 d.2).map (d.1 + ·))
  let os :=
    if r.st != .stowed then own (x.writePieces Config.stowBase (x.stowPieces r.rcc (s.drained n t))) (storageRanges ++ [(0x400000, 0x158000)])
    else if r.evicted then s.ctxLost base (storageRanges ++ matrixRanges)
    else own x storageRanges ++ s.ctxLost base matrixRanges
  os.map (fun o => if 0x400000 ≤ o then o - 0x400000 + 0x10000 else o - Config.stowBase)

def regionKey (inst t : Nat) : Nat := t * 2 ^ 16 + inst % 2 ^ 16 * 2 ^ 32

/-- What the cut keeps of a tile beside its record. -/
def State.cutKeptOf (s : State) (n t : Nat) : CutKept :=
  let r := s.slot n
  let x := s.tileAt n t
  if r.st == .stowed then
    { seq := (s.snap r.job).seq, inst := r.inst, tile := t, time := r.worldStow, kept := Store.get {} t r.kept, entry := Store.get {} t r.keptEntry, collCount := r.collCount }
  else
    { seq := (s.snap r.job).seq, inst := r.inst, tile := t, time := if r.held then r.worldStow else BitVec.ofNat 64 s.tb + r.timeoff, kept := x.keep (r.barList t), entry := x.entry, collCount := r.collCount }

/-- The REGION records of a region, tile by tile; nothing where a record cannot be written. -/
def State.cutTiles (s : State) (n : Nat) : List Nat → Option State
  | [] => some s
  | t :: ts =>
    let k := (s.slot n).job
    let v := s.cutRead n t
    match v.folioAppend k 3 (regionKey (v.slot n).inst t) (v.regionData n t) (v.regionBad n t) with
    | none => none
    | some u => (u.setSnap k { u.snap k with cutKept := (u.snap k).cutKept ++ [v.cutKeptOf n t] }).cutTiles n ts

/-! ## Job messages (R241, R331, R332, R339) -/

/-- What becomes of a job message on the channel from a package. -/
inductive Fate where
  | perform | hold | note | discard
deriving DecidableEq, Repr

def Snap.fate (x : Snap) (src : Nat) : Fate :=
  match x.st with
  | .idle => if x.markers.contains src then .discard else .perform
  | .cutting => if x.closed.contains src then .hold else .perform
  | .recording | .reported => if x.closed.contains src then .perform else .note
  | .rolling => if x.markers.contains src then .discard else .hold

def Msg.job (m : Msg) : Nat := jobKey m.world m.jobid
def State.dropMsg (s : State) (id : Nat) : State := { s with inbox := s.inbox.filter (fun e => e.1 != id) }
/-- No message of the same channel arrived earlier and is still in hand (R241, R377). -/
def State.firstMsg (s : State) (id : Nat) (m : Msg) : Bool := s.inbox.all (fun e => e.2.src != m.src || decide (id ≤ e.1))
def State.msgsFrom (s : State) (k src : Nat) : List Nat := (s.inbox.filter (fun e => e.2.src == src && e.2.job == k)).map (·.1)
def State.msgOfId (s : State) (id : Nat) : Option Msg := (s.inbox.find? (fun e => e.1 == id)).map (·.2)
/-- The answer to the sender of a message: a code and what was read. -/
def State.respond (s : State) (m : Msg) (code : Nat) (data : List Byte) : State := s.send [.message m.src 1 m.va (BitVec.ofNat 8 code :: data)]

/-- Every page of a physical range is the world's. -/
def State.ownsAll (s : State) (world pa n : Nat) : Bool := (pieces pa n).all (fun p => s.ownedPage world p.1)

/-- The bytes that a message writes or reads, and their physical ranges in that order. -/
def Msg.size (m : Msg) : Nat := if m.kind = 4 then m.data.length / 2 else m.data.length
def Msg.parts (m : Msg) : List (Nat × Nat) := if m.ranges.isEmpty then [(m.va, m.size)] else m.ranges

/-- The home SYE arms the completion word of a message with the bytes of its box (R241, R242), of which those outside the tensor are
performed at once: the message with the phase seen; past the limit, or on a poisoned line (R319), it is not performed. A SNAPPED page
is copied before it is written (R334). -/
def State.armMsg (s : State) (id : Nat) (m : Msg) : State :=
  match m.cw with
  | none => { s with inbox := Store.ins id { m with armed := true } s.inbox }
  | some cw =>
    if !s.ownsAll m.world cw 8 then (s.dropMsg id).respond m 3 []
    else
      let s0 := (s.freePages cw 8).fixLines none cw 8
      let old : Word := BitVec.ofNat 64 (leNat (s0.rdPhys cw 8))
      if !(s0.linesIn cw 8 2).isEmpty then (s0.dropMsg id).respond m 1 []
      else match swArm old (m.size + m.outside) with
      | none => ((s0.wrPhys cw (b8 (swStatus old 9).toNat) []).dropMsg id).respond m 9 []
      | some w =>
        let s1 := s0.wrPhys cw (b8 (swPerform w (phaseOf old) m.outside).toNat) []
        { s1 with inbox := Store.ins id { m with armed := true, phase := phaseOf old } s1.inbox }

/-- `k` bytes of a message are counted on its completion word (R241), unless its line is poisoned. -/
def State.countMsg (s : State) (m : Msg) (k : Nat) : State :=
  match m.cw with
  | none => s
  | some cw =>
    let s0 := s.fixLines none cw 8
    if !(s0.linesIn cw 8 2).isEmpty then s0
    else (s0.freePages cw 8).wrPhys cw (b8 (swPerform (BitVec.ofNat 64 (leNat (s0.rdPhys cw 8))) m.phase k).toNat) []

/-- A contribution reaches the collective that it belongs to; where no local order has opened it yet, it does. One whose type, operation
or length differs from what opened the collective spoils it (R243). -/
def State.collArrive (s : State) (m : Msg) : State :=
  match s.findColl m.world m.jobid m.group m.seq with
  | some i => { s with colls := s.colls.modify i (fun x => if x.done then x else { x with
      arrived := Store.put [] m.rank m.data x.arrived,
      bad := x.bad || x.ty != m.ty || x.opn != m.op % 4 || m.data.length != elemBits x.ty / 8 * x.c }) }
  | none =>
    { s with colls := s.colls ++ [{ world := m.world, jobid := m.jobid, group := m.group, seq := m.seq, ty := m.ty, opn := m.op % 4,
                                    c := m.data.length / (elemBits m.ty / 8), ep := m.op / 4 == 1, total := 0, arrived := [(m.rank, m.data)] }] }

/-- A read of the package's own HBM for a message: nothing where a line is poisoned. -/
def State.readAt (s : State) (pa n : Nat) : State × Option (List Byte) :=
  let s1 := s.fixLines none pa n
  (s1, if (s1.linesIn pa n 2).isEmpty then some (s1.rdPhys pa n) else none)

/-- The ranges of a message are written, one after another, each checked against the POT in the world of the accessing context (R378):
the state, and the code of the first that fails. -/
def State.writeParts (s : State) (m : Msg) : List (Nat × Nat) → List Byte → Nat → State × Nat
  | [], _, code => (s, code)
  | p :: r, data, code =>
    if !s.ownsAll m.world p.1 p.2 then s.writeParts m r (data.drop p.2) (if code = 0 then 3 else code)
    else (((s.freePages p.1 p.2).syeWrite p.1 (data.take p.2) []).countMsg m p.2).writeParts m r (data.drop p.2) code

/-- The ranges of a message are read: the state, the code of the first that fails, and the bytes of those that do not. -/
def State.readParts (s : State) (m : Msg) : List (Nat × Nat) → Nat → List Byte → State × Nat × List Byte
  | [], code, bs => (s, code, bs)
  | p :: r, code, bs =>
    let no (k : Nat) : Nat := if code = 0 then k else code
    if !s.ownsAll m.world p.1 p.2 then s.readParts m r (no 3) bs
    else match s.readAt p.1 p.2 with
      | (u, none) => u.readParts m r (no 1) bs
      | (u, some x) => (u.countMsg m p.2).readParts m r code (bs ++ x)

/-- R68: the agent of a message lies in the scope of the object that it names. -/
def State.msgInScope (s : State) (m : Msg) : Bool := s.inScope68 (m.va / 8 * 8) m.src m.world m.jobid m.seat

/-- A BINDSO of another package on an object that is home here (R230): its pages on this package are checked against the POT (R378), its
bytes against the bindings of every package. Notes: log entry 34. -/
def State.bindMsg (s : State) (m : Msg) : State × Nat :=
  if !s.ownsAll m.world m.va 8 || !m.ranges.all (fun p => isWindow p.1 || s.ownsAll m.world p.1 p.2) then (s, 3)
  else match s.bindings m.op m.va m.ranges (fun p => { lo := p.1, hi := p.1 + p.2, obj := m.va, scope := m.op, pkg := m.src, world := m.world,
                                                       jobid := m.jobid, seat := m.seat }) with
    | .error k => (s, k)
    | .ok bs => ({ s with sync := bs }, 0)

/-- An atomic of another package at its home SYE. -/
def State.atomMsg (s : State) (m : Msg) : State × Nat × List Byte :=
  if !s.ownsAll m.world m.va m.size then (s, 3, [])
  else match s.readAt m.va m.size with
    | (u, none) => (u, 1, [])
    | (u, some old) =>
      match atomNew m.op m.size (leNat (m.data.take m.size)) (leNat (m.data.drop m.size)) (leNat old) with
      | none => (u, 0, old)
      | some v => ((u.freePages m.va m.size).syeWrite m.va (leBytes m.size v) [], 0, old)

/-- An armed message is performed, and answered with the code of its first failing range (R215, R378). -/
def State.performMsg (s : State) (id : Nat) (m : Msg) : State :=
  let r : State × Nat × List Byte :=
    if m.kind = 5 then (s.collArrive m, 0, [])
    else if m.kind = 6 then ((s.bindMsg m).1, (s.bindMsg m).2, [])
    else if (m.kind = 2 || m.kind = 3) && !s.msgInScope m then (s, 3, [])
    else if m.kind = 0 || m.kind = 2 then ((s.writeParts m m.parts m.data 0).1, (s.writeParts m m.parts m.data 0).2, [])
    else if m.kind = 4 then s.atomMsg m
    else s.readParts m m.parts 0 []
  (r.1.dropMsg id).respond m r.2.1 r.2.2

/-- The data of a CHANNEL record, and the message that it gives back. -/
def Msg.bytes (m : Msg) : List Byte :=
  b8 (m.src % 2 ^ 13) ++ b8 m.va ++
  b8 (m.world % 64 + (if m.cw.isSome then 2 ^ 6 else 0) + m.kind % 8 * 2 ^ 8 + m.op % 16 * 2 ^ 16 + m.ty % 32 * 2 ^ 24 + m.rank * 2 ^ 32) ++
  b8 (m.cw.getD 0) ++ b8 m.jobid ++ b8 (m.seq + m.group * 2 ^ 32) ++ b8 (m.ranges.length + m.outside * 2 ^ 32) ++ seatBytes m.seat ++
  m.ranges.flatMap (fun r => b8 r.1 ++ b8 r.2) ++ m.data
def msgOf (bs : List Byte) : Msg :=
  let w := recU bs 16 8
  let g := recU bs 40 8
  let k := recU bs 48 4
  { src := recU bs 0 8, va := recU bs 8 8, world := bits w 0 6, cw := if bits w 6 1 = 1 then some (recU bs 24 8) else none,
    jobid := recU bs 32 8, data := bs.drop (80 + 16 * k), kind := bits w 8 3, op := bits w 16 4, ty := bits w 24 5, rank := bits w 32 32,
    seq := bits g 0 32, group := bits g 32 32, outside := recU bs 52 4,
    seat := loadSeat (bs.drop 56),
    ranges := (List.range k).map (fun i => (recU bs (80 + 16 * i) 8, recU bs (88 + 16 * i) 8)) }

/-- After the package cut and before its channel's bookmark a message is copied to the channel record (R332). -/
def State.noteMsg (s : State) (k : Nat) (m : Msg) : Option State :=
  (s.folioAppend k 4 (s.snap k).arrivals m.bytes []).map (fun u => u.setSnap k { u.snap k with arrivals := (u.snap k).arrivals + 1 })

/-- The first step of a message: recorded where R332 says so, then its completion word is armed. -/
def State.takeMsg (s : State) (id : Nat) (m : Msg) : State :=
  let k := m.job
  match (s.snap k).fate m.src with
  | .discard => s.dropMsg id
  | .hold => s
  | .perform => s.armMsg id m
  | .note => match s.noteMsg k m with
    | none => s.abortSnapshot k
    | some u => u.armMsg id m

/-- A message is armed, where it is not yet, and performed. -/
def State.finishMsg (s : State) (id : Nat) : State :=
  match s.msgOfId id with
  | none => s
  | some m =>
    let u := if m.armed then s else s.armMsg id m
    match u.msgOfId id with
    | none => u
    | some m2 => u.performMsg id m2

/-- The job's messages that have arrived before the package cut, on channels whose bookmark has not, are part of it (R332). -/
def State.drainMsgs (s : State) (k : Nat) : State :=
  ((s.inbox.filter (fun e => e.2.job == k && !(s.snap k).closed.contains e.2.src)).map (·.1)).foldl State.finishMsg s

/-- XPOST_ARRIVAL (R241). -/
def execXpostArrival (msg : Nat) (s : State) : Host.Outcome State Fault Refusal :=
  .next (match s.msgOfId msg with
    | none => s
    | some m => if m.armed || m.kind != 0 || !s.firstMsg msg m then s else s.takeMsg msg m)

/-- JOB_MESSAGE_ARRIVAL (R332): the message is held, recorded or discarded, or it is armed, and then performed. -/
def execJobMessageArrival (msg : Nat) (s : State) : Host.Outcome State Fault Refusal :=
  .next (match s.msgOfId msg with
    | none => s
    | some m =>
      if !s.firstMsg msg m then s
      else if m.armed then s.performMsg msg m else s.takeMsg msg m)

/-! ## Package cut, report and commit (R327, R329 to R331, R336) -/

/-- The issuer commits when every package of the set has reported. -/
def State.tryCommit (s : State) (k : Nat) : State :=
  let x := s.snap k
  if x.issuer == s.pkgid && x.st == .reported && (s.pkgid :: s.peers k).all (fun p => x.reports.contains p) then
    (s.send ((s.peers k).map (fun p => Out.commit p k x.id))).commitLocal k
  else s

/-- RECORDING ends when every channel is closed and every region record is written: the folio gets its END record. -/
def State.tryReport (s : State) (k : Nat) : State :=
  let x := s.snap k
  if x.st == .recording && (s.peers k).all (fun p => x.closed.contains p) then
    match s.folioAppend k 6 0 [] [] with
    | none => s.abortSnapshot k
    | some u =>
      let y := u.snap k
      if y.issuer == u.pkgid then (u.setSnap k { y with st := .reported, reports := y.reports ++ [u.pkgid] }).tryCommit k
      else (u.setSnap k { y with st := .reported }).send [.cutReport y.issuer k y.id]
  else s

/-- TCUT: the world time of the local cut. -/
def State.worldNow (s : State) (k : Nat) : Nat :=
  match s.slotsOf k with
  | n :: _ => (BitVec.ofNat 64 s.tb + (s.slot n).timeoff).toNat
  | [] => s.wall.toNat

/-- The BUFFER record of a buffer of a region whose state was moved away, from its context area: (bytes and state word, bad offsets). -/
def State.movedBuf (s : State) (n t b : Nat) (d : BufDecl) : List Byte × List Nat :=
  let r := s.slot n
  let base := r.ctxBase + t * blockBytesCtx
  (s.ctxRead r.world (base + d.base * 4096) d.bytes ++ s.ctxRead r.world (base + Config.stowBase + 0x8580 + 8 * b) 8,
   (s.ctxLost base [(d.base * 4096, d.bytes)]).map (· - d.base * 4096))

/-- The buffers of regions without tiles are copied in the step of the package cut: nothing where a record cannot be written. -/
def State.cutMoved (s : State) (k : Nat) : Option State :=
  let bs := ((s.slotsOf k).filter (fun n => (s.slot n).evicted)).flatMap (fun n => (List.range (s.slot n).count).flatMap (fun t =>
    ((Store.get ({} : TileImg) t (s.slot n).imgs).decls.filter (fun (d : Nat × BufDecl) => d.2.valid)).map (fun (d : Nat × BufDecl) => (n, t, d))))
  bs.foldl (fun (o : Option State) b => o.bind (fun u =>
    let x := u.movedBuf b.1 b.2.1 b.2.2.1 b.2.2.2
    u.folioAppend k 2 (bufKey (u.slot b.1).inst b.2.1 b.2.2.1) x.1 x.2)) (some s)

/-- The package cut: the messages that came before it are performed, job pages and valid buffers become SNAPPED, the SYNC record is
written, the bookmarks go out, and the regions go on. A message whose page copy finds no room has aborted the snapshot (R337). -/
def State.packageCut (s0 : State) (k : Nat) : State :=
  let s := s0.drainMsgs k
  let ps := s.jobPages k
  if (s.snap k).st != .cutting then s
  else match (s.writeSync k).bind (fun u => u.cutMoved k) with
  | none => s.abortSnapshot k
  | some u =>
    let x := u.snap k
    let j : CutJob := {
      seq := x.seq, colls := u.colls.filter (fun c => jobKey c.world c.jobid == k), podBars := u.podBars.filter (fun b => jobKey b.2.1 b.2.2.1 == k),
      podSent := u.podSent.filter (fun b => jobKey b.2.1 b.2.2.1 == k) }
    let u1 := u.catWrite k x.entry [u.cat k x.entry 0, u.cat k x.entry 1, u.cat k x.entry 2, u.cat k x.entry 3, u.worldNow k, u.cat k x.entry 5]
    let u2 := (u1.setSnap k { u1.snap k with st := .recording, pages := ps, old := none, cutJob := (u1.snap k).cutJob ++ [j] }).setBufMarks k
      (fun n t b => (u1.declAt n t b).valid)
    (({ u2.send ((u2.peers k).map (fun p => Out.bookmark p k x.id x.issuer)) with heldPages := [] } : State).releaseCuts k).tryReport k

def State.tryPackageCut (s : State) (k : Nat) : State :=
  let x := s.snap k
  if x.st == .cutting && (s.slotsOf k).all (fun n => x.cutSlots.contains n) then s.packageCut k else s

/-- A region has taken its cut. -/
def State.cutNow (s : State) (n : Nat) : State :=
  let k := (s.slot n).job
  match s.cutTiles n (s.tiles6 n) with
  | none => s.abortSnapshot k
  | some u => (u.setSnap k { u.snap k with cutSlots := (u.snap k).cutSlots ++ [n] }).tryPackageCut k

/-! ## Migration (R341) -/

/-- The control complex takes a free slot for a region that was saved on another package: the instance of a launch of its job here, with
its state in the context area, as a stow with EVICT leaves it; while the job's regions run to their cuts it takes its own at once (R329).
ROLLID is that of this package. Notes: log entry 55. -/
def State.migrate (s : State) (vif lid inst ctx : Nat) (time : Word) : State :=
  match s.node vif lid, s.freeSlotNo with
  | some x, some n =>
    if !(x.st == .ready || x.st == .running) || inst < x.started || x.total ≤ inst || x.came.contains inst then s
    else
      let r := { (s.slot n).load x inst (s.vifOf vif).world x.img with ctx := ctx, worldStow := time, fresh := true }
      let c := leNat (s.ctxRead r.world (r.ctxBase + Config.stowBase + 0x8480) 8) % 2 ^ 48
      let y : Node := { x with st := .running, came := inst :: x.came, tstart := if x.begun then x.tstart else s.wall.toNat, begun := true }
      let cut := (s.snap r.job).st == .cutting
      let s1 := (s.setNode y).setSlot n { r with st := .stowed, evicted := true, rcc := cycle0 + c, cutReq := cut }
      if cut then s1.cutNow n else s1
  | _, _ => s

/-- The region stands at its cut: held at a boundary or ended, its commands completed. -/
def State.mayCut (s : State) (n : Nat) : Bool :=
  let r := s.slot n
  r.cutReq && (s.snap r.job).st == .cutting && !(s.snap r.job).cutSlots.contains n && r.st == .running && (r.held || r.ended) && s.cmdsDone n
/-- REGION_CUT (R329). -/
def execRegionCut (slot : Nat) (s : State) : Host.Outcome State Fault Refusal := .next (if s.mayCut slot then s.cutNow slot else s)

/-! ## The start of a snapshot (R180, R324, R328) -/

/-- The buffers that an earlier snapshot has SNAPPED, which the background copier has not reached, go into its folio before the next
one starts. Notes: log entry 25. -/
def State.finishCopies (s : State) (k : Nat) : State := (s.slotsOf k).foldl State.copyRegion s

/-- A package enters CUTTING: a stowed region takes its cut at once, every other region at its next boundary. Until the package cut the
pages that an earlier snapshot has SNAPPED stay so, for its folio (R334). -/
def State.startCut (s0 : State) (k id issuer : Nat) (who : Option (Nat × Nat × Bool)) (closed : List Nat) : State :=
  let s := s0.finishCopies k
  let x := s.snap k
  let old := if x.growing then some (x.entry, x.foff, x.fpos) else none
  let s1 := s.folioStart k id issuer
  let s2 := s1.setSnap k { s1.snap k with
    st := .cutting, id := id, issuer := issuer, started := s.tb, closed := closed, reports := [], arrivals := 0, cutSlots := [], who := who, old := old,
    seen := if x.seen.contains id then x.seen else x.seen ++ [id] }
  let s3 := (s.slotsOf k).foldl (fun (u : State) n => u.setSlot n { u.slot n with cutReq := true }) s2
  ((s.slotsOf k).foldl (fun (u : State) n => if (u.slot n).st == .stowed && (u.snap k).st == .cutting then u.cutNow n else u) s3).tryPackageCut k

/-- R328: what aborts a SNAP at once. -/
def State.snapRefused (s : State) (k id : Nat) : Bool :=
  id == 0 || (s.catFind k id).isSome || s.area k == 0 || s.areaU k 0 8 != k / 64

/-- SNAP of a job, its status word armed (R328). An abort at once posts no event. Notes: log entry 25. -/
def State.snapJobNow (s0 : State) (k : Option Nat) (id sw : Nat) (ph : Bool) : State :=
  match k with
  | none => s0.statusWrite sw 6
  | some k =>
    let s := s0.fixArea k
    if (s.snap k).st != .idle then s.statusWrite sw 8
    else if s.snapRefused k id then s.statusWrite sw 6
    else s.startCut k id s.pkgid (some (s.cur.code, sw, ph)) []

/-- The RUNNING job that a handle names. -/
def State.runningJob (s : State) (h : Nat) : Option Nat :=
  match s.handleNode h with
  | some x => if x.st == .running then some (s.nodeJob x) else none
  | none => none

/-- SNAP (R180). -/
def execSnap (rs rt sw : Nat) (s : State) : Host.Outcome State Fault Refusal :=
  let pre := if s.inHandler then some ill else if s.atU && !s.region.snapok then some priv else if s.atU && rt != 0 then some ill else none
  .next (s.scalarWord { pre := pre, reads := [rs, rt] } (fun a =>
    let id := bits (a.rdG rs).toNat 0 32
    let k := if a.atU then some a.region.job else a.runningJob (a.rdG rt).toNat
    match a.arm sw 1 with
    | none => .ok (a.statusWrite sw 9, .fall)
    | some (b, ph) => .ok (b.snapJobNow k id sw ph, .fall)))

/-! ## Bookmarks, reports, commit and abort (R327, R333, R336) -/

/-- A channel closes. -/
def State.closeChannel (s : State) (k src : Nat) : State :=
  (s.setSnap k { s.snap k with closed := (s.snap k).closed ++ [src] }).tryReport k

/-- The source of a bookmark, in bits 12:0 of its origin, and the package whose SNAP it is, above. Notes: log entry 25. -/
def bmSource (from' : Nat) : Nat := from' % 2 ^ 13
def bmIssuer (from' : Nat) : Nat := from' / 2 ^ 13

/-- BOOKMARK (R333): it is taken after the messages that came before it on its channel. `k` is the job's key. In IDLE only the first
bookmark of an id starts a snapshot (R327), and none that comes before a rollback's marker on its channel does; while ROLLING it is dropped. Notes: log entry 25. -/
def execBookmark (k id from' : Nat) (s0 : State) : Host.Outcome State Fault Refusal :=
  let src := bmSource from'
  let issuer := bmIssuer from'
  .next (if !s0.hasJob k then { s0 with sndrop := Nat.min (2 ^ 32 - 1) (s0.sndrop + 1) }
    else
      let s := s0.fixArea k
      let x := s.snap k
      if !(x.closed.contains src) && !(s.msgsFrom k src).isEmpty then s
      else match x.st with
        | .rolling => s
        | .idle => if (s.catFind k id).isSome || x.seen.contains id || x.markers.contains src then s
          else if s.area k = 0 || s.areaU k 0 8 != k / 64 then (s.send [.abort issuer k id]).setSnap k { x with seen := x.seen ++ [id] }
          else s.startCut k id issuer none [src]
        | _ =>
          if x.id != id then ((s.send [.abort issuer k id]).setSnap k { x with seen := if x.seen.contains id then x.seen else x.seen ++ [id] }).abortSnapshot k
          else if x.closed.contains src then s
          else s.closeChannel k src)

/-- The issuer of a rollback learns that packages have finished; with the last one its status word completes (R339). -/
def State.rollDone (s : State) (k src : Nat) : State :=
  let x := s.snap k
  let y := { x with rolled := if x.rolled.contains src then x.rolled else x.rolled ++ [src] }
  if x.rollWho.isSome && (s.pkgid :: s.peers k).all (fun p => y.rolled.contains p) then
    (s.setSnap k { y with rollWho := none }).completeFor x.rollWho 0
  else s.setSnap k y

/-- CUT_REPORT (R327); of a rollback, the report that a package has finished it, which its issuer counts. -/
def execCutReport (k id src : Nat) (s : State) : Host.Outcome State Fault Refusal :=
  let x := s.snap k
  .next (if x.rollWho.isSome && x.rollId == id then s.rollDone k src
    else if x.issuer != s.pkgid || x.id != id || x.st == .idle || x.st == .rolling then s
    else (s.setSnap k { x with reports := if x.reports.contains src then x.reports else x.reports ++ [src] }).tryCommit k)

/-- COMMIT (R336). -/
def execCommit (k id : Nat) (s : State) : Host.Outcome State Fault Refusal :=
  .next (if (s.snap k).st == .reported && (s.snap k).id == id then s.commitLocal k else s)

/-- SNAPSHOT_ABORT (R333, R336): the issuer tells every package, another package the issuer, which has no more to do where it was the
one that told. Notes: log entry 25. -/
def execSnapshotAbort (k id : Nat) (s : State) : Host.Outcome State Fault Refusal :=
  let x := s.snap k
  .next (if x.id != id || x.st == .idle || x.st == .rolling then s else s.abortSnapshot k)

/-- The remote timeout of a job, in ns. -/
def State.jobTimeout (s : State) (k : Nat) : Nat :=
  match s.slotsOf k, s.nodes.find? (fun x => s.nodeJob x == k) with
  | n :: _, _ => 1000 * (s.slot n).rtmo
  | [], some x => 1000 * (if x.rtmo = 0 then 1000000 else x.rtmo)
  | [], none => 1000 * 1000000

/-- SNAPSHOT_TIMEOUT (R336): this package has not reported, or its snapshot has not committed, within the remote timeout. -/
def execSnapshotTimeout (k id : Nat) (s : State) : Host.Outcome State Fault Refusal :=
  let x := s.snap k
  .next (if x.id == id && (x.st == .cutting || x.st == .recording || (x.st == .reported && x.issuer == s.pkgid)) && decide (x.started + s.jobTimeout k ≤ s.tb)
    then s.abortSnapshot k else s)

/-! ## Rollback (R181, R338 to R340) -/

/-- The catalogue entries of committed snapshots from sequence number `n` on, in ascending order. -/
def insertBySeq (f : Nat → Nat) (i : Nat) : List Nat → List Nat
  | [] => [i]
  | j :: r => if f i ≤ f j then i :: j :: r else j :: insertBySeq f i r
def State.foliosFrom (s : State) (k n : Nat) : List Nat :=
  ((s.committed k).filter (fun i => decide (n ≤ s.catSeq k i))).foldr (insertBySeq (s.catSeq k)) []

/-- The device reads a folio: lines that need it are corrected first (R319). -/
def State.fixFolio (s : State) (k i : Nat) : State := s.fixLines none (s.area k + s.cat k i 2) (s.cat k i 3)

/-- The first record of each page, in the order of the folios. -/
def firstPages : List (Nat × Nat × Nat × List Byte) → List Nat → List (Nat × Nat × List Byte)
  | [], _ => []
  | r :: rs, seen => if r.1 != 1 || seen.contains r.2.1 then firstPages rs seen else (r.2.1, r.2.2) :: firstPages rs (r.2.1 :: seen)

/-- Every job page takes the contents of the first folio from `n` on that holds it; it fails where a page is the job's no more. -/
def State.restorePages (s : State) (k n : Nat) : Option State :=
  (firstPages ((s.foliosFrom k n).flatMap (s.folioRecs k)) []).foldl (fun (o : Option State) r => o.bind (fun u =>
    if u.ownedPage (k % 64) r.1 then some (u.wrPhys r.1 r.2.2 (u.areaBad k r.2.1 4096)) else none)) (some s)

/-- The sync lines and bindings of folio `i` (R330), and what its cut kept of the job: it fails where the folio has none, where a page is
the job's no more, or where the bindings are lost. -/
def loadHomes : Nat → List Byte → List (Nat × List Byte) × List Byte
  | 0, bs => ([], bs)
  | n + 1, bs => let x := loadHomes n (bs.drop 4104); ((recU bs 0 8, (bs.drop 8).take 4096) :: x.1, x.2)
def loadBinds : Nat → List Byte → List SoBind
  | 0, _ => []
  | n + 1, bs => loadBind bs :: loadBinds n (bs.drop bindLen)
def State.restoreSync (s : State) (k i : Nat) : Option State :=
  match (s.folioRecs k i).find? (fun r => r.1 == 5) with
  | none => none
  | some r =>
    let h := loadHomes (recU r.2.2.2 0 8) (r.2.2.2.drop 8)
    let s1 := (h.1.mapIdx (fun j p => (j, p))).foldl (fun (o : Option State) p => o.bind (fun u =>
      if u.ownedPage (k % 64) p.2.1 then some (u.wrPhys p.2.1 p.2.2 (u.areaBad k (r.2.2.1 + 16 + 4104 * p.1) 4096)) else none)) (some s)
    let j := ((s.snap k).cutJob.find? (fun c => c.seq == s.catSeq k i)).getD { seq := 0, colls := [], podBars := [], podSent := [] }
    if !(s.areaBad k (r.2.2.1 + 8 + 4104 * h.1.length) h.2.length).isEmpty then none
    else s1.map (fun u => { u with
      sync := u.sync.filter (fun b => jobKey b.world b.jobid != k) ++ loadBinds (recU h.2 0 8) (h.2.drop 8),
      colls := u.colls.filter (fun c => jobKey c.world c.jobid != k) ++ j.colls,
      podBars := u.podBars.filter (fun b => jobKey b.2.1 b.2.2.1 != k) ++ j.podBars,
      podSent := u.podSent.filter (fun b => jobKey b.2.1 b.2.2.1 != k) ++ j.podSent })

/-- One tile comes back from the records of folio `i`: bad lines of a buffer stay bad. -/
def State.rollTile (s : State) (k i n t c : Nat) : Option State :=
  let r := s.slot n
  let recs := s.folioRecs k i
  match recs.find? (fun e => e.1 == 3 && e.2.1 == regionKey r.inst t) with
  | none => none
  | some e =>
    let d := e.2.2.2
    let rd (off len : Nat) : List Byte := (d.drop off).take len
    let ctx (off len : Nat) : List Byte := (d.drop (0x10000 + off - 0x400000)).take len
    let img := Store.get ({} : TileImg) t r.imgs
    let bufs := recs.filterMap (fun q => if q.1 = 2 then (img.decls.find? (fun (b : Nat × BufDecl) => b.2.valid && q.2.1 == bufKey r.inst t b.1)).map
      (fun (b : Nat × BufDecl) => (b.2.base * 4096, q)) else none)
    let buf (addr len : Nat) : List Byte :=
      if addr = Config.stowBase then rd 0 len
      else match bufs.find? (fun q => q.1 == addr) with
        | some q => q.2.2.2.2.take len
        | none => Store.getN 0 (s.tileAt n t).sram addr len
    let kept := (s.snap k).cutKept.find? (fun x => x.seq == s.catSeq k i && x.inst == r.inst && x.tile == t)
    let xs := storedXfers rd (ctx 0x5A0000 0x260000) c
    let kk := (kept.map (·.kept)).getD {}
    let x := ((s.tileAt n t).refill img buf ctx).restored rd ctx kk ((kept.map (·.entry)).getD {}) c xs
    let s1 := s.setTileAt n t (x.spoil (bufs.flatMap (fun q => (s.areaBad k q.2.2.2.1 (q.2.2.2.2.length - 8)).map (· + q.1))))
    some (s1.setSlot n { (s1.slot n).restoreBars t kk.bars with flying := (s1.slot n).flying ++ xs.filter (fun z => z.rem != 0) })

def State.rollTiles (s : State) (k i n c : Nat) : List Nat → Option State
  | [] => some s
  | t :: ts => (s.rollTile k i n t c).bind (fun u => u.rollTiles k i n c ts)

/-- Folio `i` has a REGION record of an instance. -/
def State.hasRegion (s : State) (k i inst : Nat) : Bool := (s.folioRecs k i).any (fun e => e.1 == 3 && e.2.1 == regionKey inst 0)

/-- One region comes back: where its state was moved away, at the first legal placement within its VIF's quotas, else where it stands, if that
passes R22 and R19 (R313). A pre-emption that is pending stays so; a REPLAY in hand completes, as a completed rollback counts as a
replay (R340). Notes: log entry 26. -/
def State.rollRegion (s : State) (k i n : Nat) : Option State :=
  let r := s.slot n
  let stays := s.seamFits r && s.placeFits r (fun p => s.dieOk (dieOf p))
  let place := if r.evicted then s.returnPlace n else if stays then some (r.px, r.py, r.orient) else none
  match place, (s.folioRecs k i).find? (fun e => e.1 == 3 && e.2.1 == regionKey r.inst 0) with
  | some q, some e =>
    let c := liftCycle r.rcc (recU e.2.2.2 0x8480 8)
    let s1 := s.setSlot n { r.place q with chans := s.chansOf r, evicted := false, st := .running, flying := [], links := [], linkIssues := [] }
    match s1.rollTiles k i n c (s1.tiles6 n) with
    | none => none
    | some u =>
      let kk := (s.snap k).cutKept.find? (fun x => x.seq == s.catSeq k i && x.inst == r.inst)
      let t := kk.map (·.time)
      let q2 := u.slot n
      let low := (q2.reduced || q2.fresh) && decide (s.phase < 4)
      let v := u.setSlot n { q2 with
        st := .running, rcc := c + 1, pos := 0, held := false, holding := false, ended := false, cutReq := false, fz := false, trapped := false, handler := false,
        replaying := false, replayCmd := false, preq := r.preq || r.evictReq, moving := r.moving && !r.evicted, mover := if r.evicted then none else r.mover, ntrap := 0, tainted := false, corrected := true,
        reduced := low, fresh := false, mhz := if low then Nat.min q2.mhz 750 else q2.mhz, slow := [], collCount := (kk.map (·.collCount)).getD [],
        wakes := true, tstart := s.tb, worldStow := t.getD r.worldStow, timeoff := s.offAt (t.getD r.worldStow) }
      some (if r.done then v else v.cmdDone n 0)
  | _, _ => none

/-- The node of an instance whose end is undone: it counts as not ended, and RCCMAX is that of the others (R287). TSTART and the
TIMEOFF for TEND stay. Notes: log entry 26. -/
def Node.undone (x : Node) (g : Gone) : Node :=
  let es := x.ends.filter (fun e => e.1 != g.slot.inst)
  { x with ended := x.ended - 1, ndone := if g.reached then x.ndone - 1 else x.ndone, ends := es, rccmax := es.foldl (fun m e => Nat.max m e.2) 0 }
/-- An instance counts as not started: the node places it anew, or waits for another package to send it. -/
def Node.unstarted (x : Node) (inst : Nat) : Node :=
  if x.came.contains inst then { x with came := x.came.filter (· != inst) } else { x with started := x.started - 1 }

/-- An instance that had not started at the cut has not started again: its slot is freed, and its node places it anew. -/
def State.unstart (s : State) (n : Nat) : State :=
  let r := s.slot n
  let s1 := s.freeSlot n
  match s1.node r.vif r.lid with
  | none => s1
  | some x => s1.setNode (x.unstarted r.inst)

/-- The regions of the job that a slot holds come back; one without a record had not started. -/
def State.rollRegions (s : State) (k i : Nat) : List Nat → Option State
  | [] => some s
  | n :: ns => (if s.hasRegion k i (s.slot n).inst then s.rollRegion k i n else some (s.unstart n)).bind (fun u => u.rollRegions k i ns)

/-- A REGION record that is not of a region which had ended at the cut. -/
def liveRecord (e : Nat × Nat × Nat × List Byte) : Bool := e.1 == 3 && bits e.2.1 16 16 == 0 && bits (recU e.2.2.2 0x84B0 8) 32 2 != 0

/-- A region that has ended since the cut takes a free slot, as one whose state was moved away; its node, still RUNNING, counts it as
started and not ended. The slot's own registers keep what software has written (R382), no request is pending for it, and while PHASE < 4
it is placed anew in reduced service (R387). -/
def State.regain (s : State) (k : Nat) (g : Gone) : Option State :=
  match s.nodeAt g.node, s.freeSlotNo with
  | some x, some n =>
    if x.st != .running || s.freeChans.length < g.slot.hbmch || (s.vifOf x.vif).chq < s.vifChans x.vif + g.slot.hbmch then none
    else
      let gs := (s.snap k).gone.filter (fun h => h != g)
      let o := s.slot n
      let s1 := s.setSlot n { g.slot with
        st := .stowed, evicted := true, held := false, ended := false, chans := s.freeChans.take g.slot.hbmch,
        reduced := g.slot.reduced || decide (s.phase < 4), preq := false, evictReq := false, moving := false, mover := none, shedBy := 0, done := true, replaying := false, replayCmd := false,
        ctx := o.ctx, mhz := o.mhz, mhzNext := none, root := o.root, fmt := o.fmt, err := o.err }
      let s2 := s1.setSnap k { s1.snap k with gone := gs }
      some (s2.setNode (x.undone g))
  | _, _ => none

/-- An instance that had not started at the cut and has ended since has done neither. -/
def State.unrun (s : State) (k : Nat) (g : Gone) : Option State :=
  match s.nodeAt g.node with
  | some x => if x.st != .running then none
    else some ((s.setSnap k { s.snap k with gone := (s.snap k).gone.filter (fun h => h != g) }).setNode ((x.undone g).unstarted g.slot.inst))
  | none => none

/-- Every region that has ended since the cut of folio `i`: of those that it names nothing where one is not known any more; the others had
not started. -/
def State.regainAll (s0 : State) (k i : Nat) : Option State :=
  let want := ((s0.folioRecs k i).filter liveRecord).map (fun e => bits e.2.1 32 16)
  let late := (s0.snap k).gone.filter (fun g => decide (s0.catSeq k i ≤ g.seq) && !s0.hasRegion k i g.slot.inst)
  (late.foldl (fun (o : Option State) g => o.bind (fun u => u.unrun k g)) (some s0)).bind fun s =>
  (want.filter (fun v => !(s.slotsOf k).any (fun n => (s.slot n).inst % 2 ^ 16 == v))).foldl (fun (o : Option State) v => o.bind (fun u =>
    match (u.snap k).gone.find? (fun g => g.slot.inst % 2 ^ 16 == v) with
    | none => none
    | some g => u.regain k g)) (some s)

/-- R340: SDC and POISON of before the rollback no longer count: the verdicts of the instances that have ended, and of their nodes. -/
def State.forgive (s : State) (k : Nat) : State :=
  let x := s.snap k
  let gs := x.gone.map (fun g => if g.verdict = 2 then { g with verdict := 1 } else g)
  let s1 := s.setSnap k { x with gone := gs }
  { s1 with nodes := s1.nodes.map (fun y => if s1.nodeJob y == k && y.st == .running && y.verdict == 2 then { y with verdict := 1 } else y) }

/-- The CHANNEL records of folio `i`, in ascending arrival counter, performed with no page SNAPPED. -/
def State.playChannels (s : State) (k i : Nat) : State :=
  let recs := (s.folioRecs k i).filter (fun r => r.1 == 4)
  recs.foldl (fun (u : State) r =>
    let id := u.nextMsg
    ({ u with nextMsg := id + 1, inbox := Store.ins id (msgOf r.2.2.2) u.inbox } : State).finishMsg id) s

/-- A failed rollback ends the job with verdict ABORTED (R340): every launch of it that is not DONE, its instances still to start
among them. REASON is 0x00, as no code is given for it. Notes: log entry 26. -/
def State.rollEnds (s : State) (k : Nat) : State :=
  let x := s.snap k
  let s1 := (s.nodes.filter (fun y => s.nodeJob y == k && y.st != .done)).foldl (fun (u : State) y => u.endNode y 0) s
  (s1.setSnap k { s1.snap k with st := .idle, growing := false, pages := [], rollWho := none }).settleGraph.completeFor x.rollWho 6
/-- The rollback fails on this package, which tells the others of the set. -/
def State.rollFail (s : State) (k : Nat) : State :=
  let id := (s.snap k).rollId
  (s.send ((s.peers k).map (fun p => Out.rollFailed p k id))).rollEnds k
/-- The rollback of an id has failed on another package: the job ends on this one too. -/
def State.rollFailedThere (s : State) (k id : Nat) : State :=
  if s.hasJob k && id != 0 && (s.snap k).rollId == id && ((s.snap k).st == .rolling || (s.snap k).rolledTo == id) then s.rollEnds k else s

/-- In-flight commands of the job are dropped, their status words unwritten (R339 step 1). -/
def State.dropCmds (s : State) (k : Nat) : State :=
  ((s.slotsOf k).filter (fun n => !(s.slot n).evicted)).foldl (fun (u : State) n =>
    (u.tiles6 n).foldl (fun (v : State) t => v.setTileAt n t { v.tileAt n t with cmds := [] }) u) s

/-- Job messages that have arrived since the freeze, on channels whose marker has not, are discarded (R339 step 2). -/
def State.dropLate (s : State) (k : Nat) : State :=
  { s with inbox := s.inbox.filter (fun e => !(e.2.job == k && (s.snap k).markers.contains e.2.src)) }

/-- Catalogue entries above sequence number `n` go. -/
def State.dropAbove (s : State) (k n : Nat) : State :=
  (List.range 17).foldl (fun (u : State) i => if u.catValid k i && n < u.catSeq k i then u.catDrop k i else u) s

/-- Steps 3 and 4 of R339: pages, sync state and regions of folio `i`; nothing where a step fails, a poisoned REGION record included. -/
def State.rollRestore (s : State) (k i : Nat) : Option State :=
  if (s.folioRecs k i).any (fun e => e.1 == 3 && !(s.areaBad k e.2.2.1 e.2.2.2.length).isEmpty) then none
  else (((s.restorePages k (s.catSeq k i)).bind (fun u => u.restoreSync k i)).bind (fun u => u.regainAll k i)).bind
    (fun u => u.rollRegions k i (u.slotsOf k))

/-- Steps 1 to 6 of R339 on this package, once every region of the job is frozen. -/
def State.rollNow (s00 : State) (k : Nat) : State :=
  let s := s00.fixArea k
  let x := s.snap k
  match (s.committed k).find? (fun i => s.catId k i == x.rollId) with
  | none => s.rollFail k
  | some i =>
    let n := s.catSeq k i
    let s0 := if x.growing && x.entry == i then (s.slotsOf k).foldl State.copyRegion s else s
    let s1 := { ((s0.dropCmds k).dropLate k).setBufMarks k (fun _ _ _ => false) with heldPages := [] }.setSnap k { (s0.snap k) with pages := [], growing := false }
    let s2 := (s1.foliosFrom k n).foldl (fun (u : State) j => u.fixFolio k j) (s1.send ((s1.peers k).map (fun p => Out.marker p k x.rollId)))
    match s2.rollRestore k i with
    | none => s2.rollFail k
    | some u =>
      let u1 := ((u.playChannels k i).dropAbove k n).forgive k
      let ps := u1.jobPages k
      let u2 := (u1.setSnap k { u1.snap k with
        st := .idle, rolledTo := x.rollId, seen := [], growing := true, entry := i, foff := u1.cat k i 2, fpos := u1.cat k i 3, pages := ps }).setBufMarks k (fun m t b => (u1.declAt m t b).valid)
      (u2.send ((u2.peers k).map (fun p => Out.cutReport p k x.rollId))).rollDone k s.pkgid

/-- The rollback goes on when no region of the job runs. -/
def State.tryRoll (s : State) (k : Nat) : State :=
  if (s.snap k).st == .rolling && (s.slotsOf k).all (fun n => (s.slot n).st != .running) then s.rollNow k else s

/-- A package enters ROLLING: the messages that have arrived are performed, and its regions freeze as by FREEZE. -/
def State.rollStart (s : State) (k id : Nat) (who : Option (Nat × Nat × Bool)) (markers : List Nat) : State :=
  let s0 := s.abortSnapshot k
  let s1 := ((s0.inbox.filter (fun e => e.2.job == k)).map (·.1)).foldl State.finishMsg s0
  let s2 := s1.setSnap k { s1.snap k with st := .rolling, rollId := id, rollWho := who, markers := markers, rolled := [] }
  ((s2.slotsOf k).foldl (fun (u : State) n =>
    let r := u.slot n
    if r.st == .running then (if r.held || r.ended then u.plainFreeze n else u.setSlot n { r with fz := true }) else u) s2).tryRoll k

/-- ROLLB of a job, its status word armed (R338): while ROLLING it is BUSY, whatever its id. Notes: log entry 26. -/
def State.rollJobNow (s0 : State) (k : Option Nat) (id sw : Nat) (ph : Bool) : State :=
  match k with
  | none => s0.statusWrite sw 9
  | some k =>
    let s := s0.fixArea k
    if (s.snap k).st == .rolling then s.statusWrite sw 8
    else if s.area k = 0 || !((s.committed k).any (fun i => s.catId k i == id)) then s.statusWrite sw 9
    else s.rollStart k id (some (s.cur.code, sw, ph)) (s.peers k)

/-- ROLLB (R181): S only. -/
def execRollb (rs rt sw : Nat) (s : State) : Host.Outcome State Fault Refusal :=
  let pre := if s.inHandler then some ill else if s.atU then some priv else none
  .next (s.scalarWord { pre := pre, reads := [rs, rt] } (fun a =>
    match a.arm sw 1 with
    | none => .ok (a.statusWrite sw 9, .fall)
    | some (b, ph) => .ok (b.rollJobNow (b.runningJob (a.rdG rt).toNat) (bits (a.rdG rs).toNat 0 32) sw ph, .fall)))

/-- ROLLBACK_MARKER (R339): the first one starts the rollback here; each one ends the discarding on its channel. -/
def execRollbackMarker (k id src : Nat) (s : State) : Host.Outcome State Fault Refusal :=
  let x := s.snap k
  let s1 : State := (s.msgsFrom k src).foldl (fun (u : State) m => if x.markers.contains src || x.closed.contains src then u.dropMsg m else u) s
  .next (if !s.hasJob k then s
    else if !(s1.msgsFrom k src).isEmpty then s
    else if x.markers.contains src then s1.setSnap k { x with markers := x.markers.filter (fun p => p != src) }
    else if x.st == .rolling then s1
    else s1.rollStart k id none ((s1.peers k).filter (fun p => p != src)))

end Sys2Proof.Machine
end

