-- ==== Sys2Proof/Machine/Tenancy.lean ====
section
/-! DEFINITION. Worlds, the page ownership table, keys, scrubs, SPDM, bounce channels, teardown and power shedding (R182, R354 to R371). -/
namespace Sys2Proof.Machine

/-! ## Keys and the page ownership table (R355 to R359) -/

/-- The key slot of a world is valid; slot 0 holds the key drawn at the cold reset. -/
def State.keyValid (s : State) (w : Nat) : Bool := w == 0 || (Store.get none w s.keys).isSome
def State.setPot (s : State) (p : Nat) (st : PotSt) (w : Nat) : State := { s with pot := Store.put {} p { st := st, world := w } s.pot }

/-- The translation maps a page of this package's HBM, also through a window that names this package (R378). -/
def State.maps (s : State) (e : TlbE) (page : Nat) : Bool :=
  e.ok && (s.homePage e).any (fun a => decide (a ≤ 4096 * page) && decide (4096 * page < a + 2 ^ pageBits (pteSize e.pte)))

/-- A change that leaves ASSIGNED shoots down every translation of the page first (R357); a SNAPPED page is copied before. -/
def State.leavePage (s : State) (p : Nat) : State := (s.freePage p).shoot (fun e => s.maps e p)

/-- The key number of a world's slot; a zeroised slot counts as key 0. -/
def State.keyOf (s : State) (w : Nat) : Nat := (Store.get none w s.keys).getD 0

/-- What a line that was encrypted under one key holds as another one reads it (R359): a free value. -/
def rekeyLine (m : List Host.Cell) (old new l : Nat) : List Host.Cell :=
  Store.putL 0 m (64 * l) ((List.range 64).map (Config.recrypt l old new (Store.getN 0 m (64 * l) 64)))
/-- The lines of a page that `which` picks are read under another key from now on. -/
def State.rekey (s : State) (page old new : Nat) (which : List Byte → Bool) : State :=
  { s with mem := ((List.range 64).map (64 * page + ·)).foldl (fun m l =>
      if which (Store.getN 0 m (64 * l) 64) then rekeyLine m old new l else m) s.mem }

/-- One page of a POTCMD (Table 24.2): 0 ASSIGN, 1 RELEASE, 2 BOUNCE, 3 UNBOUNCE. -/
def State.potPage (s : State) (op w p : Nat) : Except Nat State :=
  let e := s.potOf p
  match op with
  | 0 => if e.st != .free then .error 3 else if !s.keyValid w then .error 9
    -- a line that a scrub has passed, and that nothing has written since, reads as zero under the new key
    else .ok ((if w = 0 then s else s.rekey p (s.keyOf 0) (s.keyOf w) (fun bs => bs.any (· != 0))).setPot p .assigned w)
  | 1 => if e == { st := .assigned, world := w } then .ok ((s.leavePage p).setPot p .scrubbing w) else .error 3
  | 2 => if e == { st := .assigned, world := w } && w != 0 then .ok ((s.leavePage p).setPot p .bounce w) else .error 3
  | _ => if e == { st := .bounce, world := w } then .ok (s.setPot p .assigned w) else .error 3

/-- The pages of a POTCMD in ascending order, up to the first that fails. -/
def State.potRun (s : State) (op w : Nat) : Nat → Nat → State
  | 0, _ => { s with potErr := 0 }
  | n + 1, p =>
    match s.potPage op w p with
    | .error c => { s with potErr := c }
    | .ok u => State.potRun { u with potDone := u.potDone + 1 } op w n (p + 1)

/-- The POTCMD in hand runs; one that leaves ASSIGNED waits until no region is within a cycle and, for the write-back of R316, until
the translation of every dirty granule is held. -/
def State.potFinish (s : State) (op w page npg : Nat) : State :=
  let leaves := op == 1 || op == 2
  if s.potCmd != some (op, w, page, npg) || (leaves && !s.betweenCycles) then s
  else match (if leaves then s.dirtyMiss (fun _ _ => true) else none) with
    | some m => s.startWalk (s.walkDie m.1) m.1 m.2 kWrite
    | none => { s.potRun op w (npg + 1) page with potBusy := false, potCmd := none }

def State.potEvent (s : State) (op w page npg : Nat) : State := (s.potStart op w page npg).potFinish op w page npg

/-- POT_ASSIGN (R356). -/
def execPotAssign (w page npg : Nat) (s : State) : Host.Outcome State Fault Refusal := .next (s.potEvent 0 w page npg)
/-- POT_RELEASE (R356, R357). -/
def execPotRelease (w page npg : Nat) (s : State) : Host.Outcome State Fault Refusal := .next (s.potEvent 1 w page npg)
/-- POT_BOUNCE (R356, R357). -/
def execPotBounce (w page npg : Nat) (s : State) : Host.Outcome State Fault Refusal := .next (s.potEvent 2 w page npg)
/-- POT_UNBOUNCE (R356). -/
def execPotUnbounce (w page npg : Nat) (s : State) : Host.Outcome State Fault Refusal := .next (s.potEvent 3 w page npg)

/-! ## Scrubs (R369, R370) -/

/-- A SCRUBBING page has been rewritten with zeros, which clears its poison, and becomes FREE. -/
def State.scrubPage (s : State) (page : Nat) : State :=
  if potPages ≤ page || (s.potOf page).st != .scrubbing then s
  else ({ s with mem := Store.delRange (4096 * page) (4096 * page + 4096) s.mem, poison := Store.delRange (64 * page) (64 * page + 64) s.poison } : State).setPot page .free 0
/-- PAGE_SCRUB_COMPLETE. -/
def execPageScrubComplete (page : Nat) (s : State) : Host.Outcome State Fault Refusal := .next (s.scrubPage page)

/-- A scrubbed tile: storage and registers zero; its order store and its clock stand. -/
def Tile.scrubbed (t : Tile) : Tile := { clk := t.clk, store := t.store, ecc := t.ecc.filter (fun e => decide (eccKey 4 0 ≤ e.1) && decide (e.1 < eccKey 5 0)) }
/-- TILE_SCRUB. -/
def execTileScrub (tile : Nat) (s : State) : Host.Outcome State Fault Refusal :=
  .next (if (s.tile tile).scrub.isNone || s.heldTile tile then s else s.setTile tile (s.tile tile).scrubbed)

/-! ## Key generation and KEYZ (R182, R359, R368) -/

/-- GEN ends: its checks in order, then a key that the root of trust draws. -/
def State.genKey (s : State) (w : Nat) : State :=
  if w = 0 || 64 ≤ w then { s with wkErr := 9, wkBusy := false }
  else if s.keyValid w || s.scrubbing w then { s with wkErr := 8, wkBusy := false }
  else { s with wkErr := 0, wkBusy := false, keys := Store.put none w (some (Config.drawnKey s.draws)) s.keys, draws := s.draws + 1,
                keysZero := Store.put false w false s.keysZero }
/-- KEY_GEN. -/
def execKeyGen (w : Nat) (s : State) : Host.Outcome State Fault Refusal := .next (s.genKey (if s.wkBusy then s.wkGen else w))

/-- R368: the world still holds a region, a VIF, an enabled bounce channel, or a page. -/
def State.worldBusy (s : State) (w : Nat) : Bool :=
  s.slots.any (fun e => e.2.st != .free && e.2.world == w) || s.vifs.any (fun e => e.2.world == w) ||
  s.bounces.any (fun e => bits e.2.ctl 63 1 == 1 && bits e.2.ctl 56 6 == w) || s.potCount .assigned w != 0 || s.potCount .bounce w != 0

/-- KEYZ (R182, R368): S only. -/
def execKeyz (rs sw : Nat) (s : State) : Host.Outcome State Fault Refusal :=
  .next (s.scalarWord { pre := if s.inHandler then some ill else if s.atU then some priv else none, reads := [rs] } (fun a =>
    let w := (a.rdG rs).toNat
    match a.arm sw 1 with
    | none => .ok (a.statusWrite sw 9, .fall)
    | some (b, ph) =>
      if w = 0 || 64 ≤ w then .ok (b.statusWrite sw 9, .fall)
      else if b.worldBusy w then .ok (b.statusWrite sw 8, .fall)
      else .ok ({ b with keyz := b.keyz ++ [(w, some (b.cur.code, sw, ph))] }, .fall)))

/-- The zeroisation of a world's key slots ends; what its SCRUBBING pages held is lost with the key. -/
def State.keyzDone (s : State) (w : Nat) : State :=
  match s.keyz.find? (fun e => e.1 == w) with
  | none => s
  | some e =>
    let ps := (s.pot.filter (fun p => p.2 == { st := .scrubbing, world := w })).map (·.1)
    let s1 := ps.foldl (fun (u : State) p => u.rekey p (u.keyOf w) 0 (fun _ => true)) s
    ({ s1 with keyz := s1.keyz.erase e, keys := Store.put none w none s1.keys, keysZero := Store.put false w true s1.keysZero } : State).completeFor e.2 0
/-- KEYZ_COMPLETE. -/
def execKeyzComplete (w : Nat) (s : State) : Host.Outcome State Fault Refusal := .next (s.keyzDone w)

/-- A compute-die to base-die link trains: a fresh key for each direction (R360). -/
def State.trainLink (s : State) (l : Nat) : State :=
  { s with links := Store.put (0, 0) l (Config.drawnKey s.draws, Config.drawnKey (s.draws + 1)) s.links, draws := s.draws + 2 }

/-- LINK_TAG_FAIL (R360): the line is retried once; a second failure poisons it and trains the link again under new keys. -/
def execLinkTagFail (pa again : Nat) (s : State) : Host.Outcome State Fault Refusal :=
  .next (if Config.hbmBytes ≤ pa then s
    else
      let w := (s.potOf (pa / 4096)).world
      if again = 0 then s.errorRecord 8 false w pa
      else (({ s with poison := Store.put 0 (pa / 64) 2 s.poison, retrains := s.retrains + 1 } : State).trainLink (Config.linkOf (pa / 64) % 16)).errorRecord 8 true w pa)

/-! ## Host writes and guest tables (R357, R358, R378) -/

/-- UEC_DATA_WRITE (R278, R357): one that starts at the byte of WIDX of a running queue is a queue write. -/
def execUecDataWrite (vif va : Nat) (data : List Byte) (s : State) : Host.Outcome State Fault Refusal :=
  let v := s.vifOf vif
  if v.en && va == v.addr v.widx then execQueueWrite vif (v.widx % v.qsize) data s else .next (s.hostWrite vif va data).1

/-- A UEC read of a VIF's data endpoint (R373): `n` bytes at a virtual address of the VIF's world, or an error response. -/
def State.uecRead (s : State) (vif va n : Nat) : State :=
  if !s.serves then s
  else match s.gread 0 (vifCtx vif) va n with
    | (u, .wait) => u
    | (u, .code _) => u.answer vif false 0
    | (u, .done bs) => u.answer vif true (leNat bs)

/-- FABRIC_WINDOW_ACCESS (R378): at the target the access is checked against this package's POT in the accessing world. An access
that is a job message (R331) arrives by JOB_MESSAGE_ARRIVAL. -/
def execFabricWindowAccess (world pa write : Nat) (data : List Byte) (s : State) : Host.Outcome State Fault Refusal :=
  let answer (u : State) (code : Nat) (bs : List Byte) : State := u.send [.message 0 2 pa (BitVec.ofNat 8 code :: bs)]
  .next (if !s.ownsAll world pa data.length then answer s 3 []
    else if write = 1 then answer ((s.freePages pa data.length).syeWrite pa data []) 0 []
    else match s.readAt pa data.length with
      | (u, some bs) => answer u 0 bs
      | (u, none) => answer u 1 [])

/-- The word of a merged table that stands for a word of the guest's: the supervisor writes pages of world 0 only (R357). -/
def State.mergeWord (s : State) (pa value root : Nat) : State :=
  let a := Config.mergedAt root pa
  if a % 8 != 0 || !s.ownedPage 0 a then s else (s.freePages a 8).wrPhys a (b8 (Config.mergedWord root pa value).toNat) []

/-- The merged tables of a VIF's contexts. -/
def State.vifRoots (s : State) (vif : Nat) : List Nat := ((s.vifSlots vif).map (fun e => e.2.root)).eraseDups

/-- GUEST_TABLE_CHANGE (R358): the supervisor takes the guest's new word, updates the merged table of each of the VIF's contexts,
shoots down the VIF's translations with their write-back and answers. Notes: log entry 53. -/
def execGuestTableChange (vif pa value : Nat) (s : State) : Host.Outcome State Fault Refusal :=
  let mine (ctx : Nat) : Bool := ctx == vifCtx vif || (s.vifSlots vif).any (fun e => e.1 == ctx)
  .next (if !s.serves then s
    else if pa % 8 != 0 || !s.ownedPage (s.vifOf vif).world pa then s.answer vif false 0
    else if !s.betweenCycles then s
    else match s.dirtyMiss (fun n _ => mine n) with
      | some m => s.startWalk (s.walkDie m.1) m.1 m.2 kWrite
      | none =>
        let s1 := (s.freePages pa 8).wrPhys pa (b8 value) []
        (((s.vifRoots vif).foldl (fun (u : State) r => u.mergeWord pa value r) s1).shoot (fun e => mine e.ctx)).answer vif true 0)

/-! ## Attestation (R362 to R365) -/

/-- Response codes of DSP0274. Notes: log entry 27. -/
def spdmError : Nat := 0x7F

def State.spdm (s : State) (vif : Nat) : Spdm := (s.vifOf vif).spdm
def State.setSpdm (s : State) (vif : Nat) (x : Spdm) : State := s.setVif vif { s.vifOf vif with spdm := x }
/-- The RSASSA-PSS 3072 and the SLH-DSA-SHA2-192s signature over one transcript (R363). -/
def twoSignatures (t : List Nat) : List Byte := Config.spdmBytes 10 t ++ Config.spdmBytes 11 t

/-- A response, which joins the transcript; a signed one ends with both signatures over all that came before them. -/
def State.reply (s : State) (vif code : Nat) (data : List Byte) (signed : Bool := false) : State :=
  let x := s.spdm vif
  let t := x.transcript ++ code :: data.map (·.toNat)
  let all := if signed then data ++ twoSignatures t else data
  (s.setSpdm vif { x with transcript := x.transcript ++ code :: all.map (·.toNat) }).send [.spdm vif code all]
def State.spdmFail (s : State) (vif code : Nat) : State := s.send [.spdm vif spdmError [BitVec.ofNat 8 code]]

/-- A request: answered from phase 2 on (R384), where its state allows it; it joins the transcript. -/
def State.request (s : State) (vif code arg : Nat) (ok : Spdm → Bool) (err : Nat) (act : State → Spdm → State) : State :=
  if !s.serves then s
  else if !ok (s.spdm vif) then s.spdmFail vif err
  else
    let x := { s.spdm vif with transcript := (s.spdm vif).transcript ++ [code, arg] }
    act (s.setSpdm vif x) x

/-- GET_VERSION: 1.3 only. -/
def execGetVersion (vif : Nat) (s : State) : Host.Outcome State Fault Refusal :=
  .next (if !s.serves then s else (s.setSpdm vif { version := true, transcript := [0x84] }).reply vif 0x04 [0, 1, 0, 0x13])
/-- GET_CAPABILITIES. -/
def execGetCapabilities (vif : Nat) (s : State) : Host.Outcome State Fault Refusal :=
  .next (s.request vif 0xE1 0 (·.version) 0x04 (fun u x => (u.setSpdm vif { x with caps := true }).reply vif 0x61 []))
/-- NEGOTIATE_ALGORITHMS: bit 0 RSASSA-PSS 3072, 1 SHA-384, 2 secp384r1, 3 AES-256-GCM; the answer selects among those offered. -/
def execNegotiateAlgorithms (vif algs : Nat) (s : State) : Host.Outcome State Fault Refusal :=
  .next (s.request vif 0xE3 algs (·.caps) 0x04 (fun u x => (u.setSpdm vif { x with algs := bits algs 0 4 == 15 }).reply vif 0x63 [BitVec.ofNat 8 (bits algs 0 4)]))
/-- GET_DIGESTS. -/
def execGetDigests (vif : Nat) (s : State) : Host.Outcome State Fault Refusal :=
  .next (s.request vif 0x81 0 (·.algs) 0x04 (fun u _ => u.reply vif 0x01 (Config.spdmBytes 1 [])))
/-- GET_CERTIFICATE: slot 0 only. -/
def execGetCertificate (vif slot : Nat) (s : State) : Host.Outcome State Fault Refusal :=
  .next (if slot != 0 then (if !s.serves then s else s.spdmFail vif 0x01)
    else s.request vif 0x82 slot (·.algs) 0x04 (fun u x => (u.setSpdm vif { x with chunks := [Config.spdmBytes 2 []] }).reply vif 0x02 (Config.spdmBytes 2 [])))
/-- CHALLENGE. -/
def execChallenge (vif nonce : Nat) (s : State) : Host.Outcome State Fault Refusal :=
  .next (s.request vif 0x83 nonce (·.algs) 0x04 (fun u _ => u.reply vif 0x03 (Config.spdmBytes 3 [nonce]) true))

/-- The VIF has a resident region. -/
def State.live (s : State) (vif : Nat) : Bool := !(s.vifSlots vif).isEmpty
/-- No region of a world stands on tiles, and every die that its regions last stood on is power-gated (R364). Notes: log entry 43. -/
def State.worldGated (s : State) (w : Nat) : Bool :=
  let d := Store.get 0 w s.worldDies
  s.diesOf w == 0 && d != 0 && (List.range 8).all (fun i => bits d i 1 == 0 || bits s.gated i 1 == 1)
/-- STATE of the evidence: 2 gated, 0 live, 1 descheduled. -/
def State.attState (s : State) (vif : Nat) : Nat := if s.worldGated (s.vifOf vif).world then 2 else if s.live vif then 0 else 1
/-- Measurement blocks 1 to 7 of a VIF (R364), each as the numbers that it is made over; a gated world has no blocks 6 and 7. -/
def State.measured (s : State) (vif : Nat) : List (List Nat) :=
  let v := s.vifOf vif
  [[1], [2], s.walkStore.map (fun b => b.1 * 256 + b.2.toNat), [s.cfgNow, s.pkgNow], [v.ctl, v.world]] ++
  (match s.attState vif with
   | 0 => [(s.blocks67 v.world).take 4, (s.blocks67 v.world).drop 4]
   | 1 => [v.stowed.take 4, v.stowed.drop 4]
   | _ => [])
def State.evidence (s : State) (vif : Nat) : List Byte :=
  ((s.measured vif).mapIdx (fun i b => Config.spdmBytes (20 + i) b)).flatten ++ [BitVec.ofNat 8 (s.attState vif)]
/-- GET_MEASUREMENTS. -/
def execGetMeasurements (vif nonce : Nat) (s : State) : Host.Outcome State Fault Refusal :=
  .next (s.request vif 0xE0 nonce (·.algs) 0x04 (fun u _ => u.reply vif 0x60 (u.evidence vif) true))

/-- KEY_EXCHANGE: a session key is agreed. -/
def execKeyExchange (vif share : Nat) (s : State) : Host.Outcome State Fault Refusal :=
  .next (s.request vif 0xE4 share (·.algs) 0x04 (fun u x =>
    ({ u.setSpdm vif { x with exchanging := true, session := false, key := Config.drawnKey u.draws } with draws := u.draws + 1 } : State).reply vif 0x64
      (Config.spdmBytes 4 [share]) true))
/-- FINISH: the verify data must match. -/
def execFinish (vif mac : Nat) (s : State) : Host.Outcome State Fault Refusal :=
  .next (if (s.spdm vif).exchanging && mac != leNat (Config.spdmBytes 5 ((s.spdm vif).key :: (s.spdm vif).transcript)) then
      (if !s.serves then s else s.spdmFail vif 0x06)
    else s.request vif 0xE5 mac (·.exchanging) 0x04 (fun u x => (u.setSpdm vif { x with exchanging := false, session := true }).reply vif 0x65 []))
/-- HEARTBEAT. -/
def execHeartbeat (vif : Nat) (s : State) : Host.Outcome State Fault Refusal := .next (s.request vif 0xE8 0 (·.session) 0x0B (fun u _ => u.reply vif 0x68 []))
/-- KEY_UPDATE. -/
def execKeyUpdate (vif : Nat) (s : State) : Host.Outcome State Fault Refusal :=
  .next (s.request vif 0xE9 0 (·.session) 0x0B (fun u x =>
    ({ u.setSpdm vif { x with key := Config.drawnKey u.draws } with draws := u.draws + 1 } : State).reply vif 0x69 []))
/-- END_SESSION. -/
def execEndSession (vif : Nat) (s : State) : Host.Outcome State Fault Refusal :=
  .next (s.request vif 0xEC 0 (·.session) 0x0B (fun u x => (u.setSpdm vif { x with session := false, key := 0 }).reply vif 0x6C []))
/-- CHUNK_GET: the chunk that a handle names, of the last large response. -/
def execChunkGet (vif handle : Nat) (s : State) : Host.Outcome State Fault Refusal :=
  .next (s.request vif 0x86 handle (fun x => decide (handle < x.chunks.length)) 0x01 (fun u x => u.reply vif 0x06 (x.chunks.getD handle [])))

/-- A write that is performed whole or not at all: the code, or nothing while it must wait. -/
def State.wholeWrite (s : State) (ctx va : Nat) (data : List Byte) : State × Option Nat :=
  match s.gwrite 0 ctx va data [] with
  | (u, .wait) => (u, none)
  | (u, .done _) => (u, some 0)
  | (u, .code c) => ({ u with mem := s.mem, poison := s.poison, outbox := s.outbox }, some c)
/-- DEPOSIT (R365). -/
def execDeposit (vif va : Nat) (data : List Byte) (s : State) : Host.Outcome State Fault Refusal :=
  .next (s.request vif 0xFE va (·.session) 0x0B (fun u _ =>
    if 4096 < data.length then u.spdmFail vif 0x01
    else match u.wholeWrite (vifCtx vif) va data with
      | (t, none) => { t with vifs := s.vifs }
      | (t, some c) => t.reply vif 0x7E [BitVec.ofNat 8 c]))

def Bounce.world (x : Bounce) : Nat := bits x.ctl 56 6
def Bounce.win (x : Bounce) : Nat := bits x.ctl 12 44 * 4096
def Bounce.wsize (x : Bounce) : Nat := 2 ^ (12 + bits x.ctl 0 4)
def Bounce.base (x : Bounce) : Nat := bits x.ring 12 40 * 4096
def Bounce.size (x : Bounce) : Nat := 2 ^ (12 + bits x.ring 0 4)
def Bounce.modulus (x : Bounce) : Nat := 2 * x.size
def Bounce.held (x : Bounce) : Nat := (x.widx + x.modulus - x.ridx % x.modulus) % x.modulus

/-- BCKEY (R365): the key of a bounce channel of the VIF's world. -/
def execBckey (vif chan key : Nat) (s : State) : Host.Outcome State Fault Refusal :=
  .next (s.request vif 0xFE chan (·.session) 0x0B (fun u _ =>
    if 256 ≤ chan || (u.vifOf vif).world = 0 || (u.bounce chan).world != (u.vifOf vif).world then u.spdmFail vif 0x01
    else (u.setBounce chan { u.bounce chan with key := some key }).reply vif 0x7E [0]))
/-- UNSUPPORTED_REQUEST (R362). -/
def execUnsupportedRequest (vif code : Nat) (s : State) : Host.Outcome State Fault Refusal :=
  .next (if !s.serves then s else s.send [.spdm vif spdmError [0x07, BitVec.ofNat 8 code]])

/-! ## Bounce channels (R366, R367) -/

/-- The translation context of a channel: that of the lowest VIF of its world. -/
def State.bounceCtx (s : State) (x : Bounce) : Option Nat :=
  ((List.range 256).find? (fun v => (s.vifOf v).world == x.world)).map vifCtx

/-- Every page of a channel's ring is a BOUNCE page of its world. -/
def State.ringOk (s : State) (x : Bounce) : Bool :=
  (pieces x.base x.size).all (fun p => s.potOf (p.1 / 4096) == { st := .bounce, world := x.world })

/-- The walk that the enabling of a channel still needs. -/
def State.bounceMiss (s : State) (x : Bounce) : Option (Nat × Nat) :=
  if x.world = 0 || 8 < bits x.ring 0 4 || x.key.isNone || !s.ringOk x then none
  else match s.bounceCtx x with
    | none => none
    | some c => match s.translateRange c x.win x.wsize (if x.out then kRead else kWrite) with
      | .miss a => some (c, a)
      | _ => none

/-- Where the descriptor of an outbound channel stands: the physical address of window offset 0, on a home-SYE page. -/
def State.descOf (s : State) (x : Bounce) : Option Nat :=
  (s.bounceCtx x).bind (fun ctx => (s.tlb.find? (fun e => e.ctx == ctx && e.covers x.win)).bind (fun e =>
    if pteAtom e.pte = 1 || pteAtom e.pte = 2 then (s.homePage e).map (· + x.win % 2 ^ pageBits e.size) else none))

/-- BCCTL.EN := 1 takes effect only where ring, window and key pass their checks; the window's pages as the engine will access them.
Notes: log entry 39. -/
def State.enableBounce (s : State) (c : Nat) : State :=
  let x := s.bounce c
  let kind := if x.out then kRead else kWrite
  match s.bounceMiss x with
  | some (ctx, a) => s.startWalk 0 ctx a kind
  | none =>
    let ok := x.world != 0 && bits x.ring 0 4 ≤ 8 && x.key.isSome && s.ringOk x &&
      (match s.bounceCtx x with
       | none => false
       | some ctx => match s.translateRange ctx x.win x.wsize kind with
         | .ok _ => true
         | _ => false)
    if ok then s.setBounce c { x with ctl := x.ctl % 2 ^ 63 + 2 ^ 63, desc := if x.out then s.descOf x else none, asked := none } else s.setBounce c { x with ctl := x.ctl % 2 ^ 63, err := 9 }
/-- BOUNCE_ENABLE (R366). -/
def execBounceEnable (chan : Nat) (s : State) : Host.Outcome State Fault Refusal := .next (if 256 ≤ chan || (s.bounce chan).en then s else s.enableBounce chan)

/-- Bytes of a ring from an index on, on its lines: those that need it are corrected first (R319), and nothing where one is lost. -/
def State.ringRead (s : State) (x : Bounce) (i n : Nat) : State × Option (List Byte) :=
  let first := Nat.min n (x.size - i % x.size)
  match s.readAt (x.base + i % x.size) first with
  | (u, none) => (u, none)
  | (u, some a) => match u.readAt x.base (n - first) with
    | (v, none) => (v, none)
    | (v, some b) => (v, some (a ++ b))
def State.ringPut (s : State) (x : Bounce) (i : Nat) (data : List Byte) : State :=
  let first := x.size - i % x.size
  let s1 := s.wrPhys (x.base + i % x.size) (data.take first) []
  if data.length ≤ first then s1 else s1.wrPhys x.base (data.drop first) []

/-- The host writes at byte `off` of an inbound ring by UEC, under the rules of a launch queue (R278): from the byte of WIDX it adds to
the ring, and gets an error response where it would run past the ring's end or where the ring has no room; any other write of the ring's
bytes adds nothing. Notes: log entry 56. -/
def State.hostRing (s : State) (c off : Nat) (data : List Byte) : State :=
  let x := s.bounce c
  let vif := (s.bounceCtx x).getD 1344 - 1344
  if !s.serves then s
  else if !x.en || x.out || x.size < off + data.length || !s.ringOk x then s.answer vif false 0
  else if off != x.widx % x.size then (s.wrPhys (x.base + off) data []).answer vif true 0
  else if x.size < x.held + data.length then s.answer vif false 0
  else ((s.wrPhys (x.base + off) data []).setBounce c { x with widx := (x.widx + data.length) % x.modulus }).answer vif true 0

/-- A frame header: SEQ, LEN, OFFSET, and whether it is well formed for a window. -/
def frameOk (x : Bounce) (h : List Byte) : Bool :=
  let len := recU h 8 4
  let off := recU h 12 4
  len % 64 == 0 && len ≤ 65536 && off % 64 == 0 && off + len ≤ x.wsize && (h.drop 16).all (· == 0)

/-- Plaintext is written page by page: 0, a code, or nothing where it must wait. -/
def State.frameWrite (s : State) (ctx : Nat) : List (Nat × Nat) → List Byte → State × Option Nat
  | [], _ => (s, some 0)
  | p :: r, data =>
    match s.gwrite 0 ctx p.1 (data.take p.2) [] with
    | (u, .wait) => (u, none)
    | (u, .code c) => (u, some c)
    | (u, .done _) => u.frameWrite ctx r (data.drop p.2)

/-- An inbound frame leaves the ring. -/
def State.passFrame (s : State) (c n : Nat) (f : Bounce → Bounce) : State :=
  let x := s.bounce c
  s.setBounce c (f { x with ridx := (x.ridx + n) % x.modulus })

/-- The bytes of the frame at RIDX, once all of them are in the ring: 64 where the header gives no length that fits. -/
def Bounce.frameLen (x : Bounce) (h : List Byte) : Nat :=
  if recU h 8 4 ≤ 65536 && recU h 8 4 % 64 == 0 && 80 + recU h 8 4 ≤ x.size then 80 + recU h 8 4 else 64

/-- The frame at RIDX of an inbound channel is taken (R367); one on a poisoned line of the ring is discarded with POISON.
A page of the ring that has left BOUNCE is not asked again. Notes: log entry 39. -/
def State.frameIn (s : State) (c : Nat) : State :=
  let x := s.bounce c
  if !x.en || x.out || x.held < 64 then s
  else match s.ringRead x x.ridx 64 with
    | (u, none) => u.passFrame c 64 (fun y => { y with err := 1 })
    | (u, some h) =>
      let whole := x.frameLen h
      if x.held < whole then u
      else if recU h 0 8 != x.cnt then u.passFrame c whole (fun y => { y with resync := true, err := 0 })
      else if whole = 64 || !frameOk x h then u.passFrame c whole (fun y => { y with err := 6 })
      else match u.ringRead x x.ridx whole with
        | (v, none) => v.passFrame c whole (fun y => { y with err := 1 })
        | (v, some frame) => match gcmOpen (x.key.getD 0) (frameIv c (recU h 0 8)) h (frame.drop 64), v.bounceCtx x with
          | some plain, some ctx =>
            match v.frameWrite ctx (pieces (x.win + recU h 12 4) (recU h 8 4)) (plain.take (recU h 8 4)) with
            | (w, none) => w
            | (w, some 0) => w.passFrame c whole (fun y => { y with cnt := (y.cnt + 1) % 2 ^ 48, resync := false, err := 0 })
            | (w, some e) => w.passFrame c whole (fun y => { y with err := e })
          | _, _ => v.passFrame c whole (fun y => { y with err := 6 })
/-- BOUNCE_FRAME_IN. -/
def execBounceFrameIn (chan : Nat) (s : State) : Host.Outcome State Fault Refusal := .next (s.frameIn chan)

/-- The header of the next frame of an outbound channel. -/
def Bounce.header (x : Bounce) (len off : Nat) : List Byte := leBytes 8 x.cnt ++ leBytes 4 len ++ leBytes 4 off ++ List.replicate 48 0

/-- An outbound channel that an SYE write of its descriptor has asked encrypts the range into one frame (R367), once the ring has room
for it; a failure is reported, and the next frame needs another write. -/
def State.frameOut (s : State) (c : Nat) : State :=
  let x := s.bounce c
  match x.asked, s.bounceCtx x with
  | some (len, off), some ctx =>
    let h := x.header len off
    if !x.en || !x.out then s
    else if !frameOk x h then s.setBounce c { x with asked := none, err := 6 }
    else if x.size < x.held + 80 + len || !s.ringOk x then s
    else match s.gread 0 ctx (x.win + off) len with
      | (u, .wait) => u
      | (u, .code e) => u.setBounce c { x with asked := none, err := e }
      | (u, .done plain) =>
        let frame := h ++ gcmSeal (x.key.getD 0) (frameIv c x.cnt) h plain
        (u.ringPut x x.widx frame).setBounce c
          { x with asked := none, widx := (x.widx + 80 + len) % x.modulus, cnt := (x.cnt + 1) % 2 ^ 48, resync := false, err := 0 }
  | _, _ => s
/-- BOUNCE_FRAME_OUT. -/
def execBounceFrameOut (chan : Nat) (s : State) : Host.Outcome State Fault Refusal := .next (s.frameOut chan)

/-! ## Power shedding (R371) -/

/-- The shedding class of the region that a slot holds. -/
def State.slotClass (s : State) (n : Nat) : Nat := ((s.node (s.slot n).vif (s.slot n).lid).map (·.sclass)).getD 0
/-- The class shed at place `i`. -/
def State.shedClass (s : State) (i : Nat) : Nat := bits s.shedord (4 * i) 4

/-- A region can give more in a pass. -/
def State.canShed (s : State) (pass n : Nat) : Bool :=
  let r := s.slot n
  match pass with
  | 1 => r.st.runs && 400 < r.clkReg
  | 2 => r.st.runs && !r.preq
  | _ => !r.evicted && !r.evictReq && (r.st == .stowed || (r.st.runs && r.preq))

/-- Shedding has asked for the region's stow. -/
def State.shedMark (s : State) (n pass : Nat) : State := s.setSlot n { s.slot n with shedBy := pass }

/-- One step of shedding for a region; it is noted with the rate that the first pass lowers. -/
def State.shedOne (s : State) (pass n : Nat) : State :=
  let r := s.slot n
  let s1 := match pass with
    | 1 => s.setClock n (Nat.max 400 (r.clkReg - 100))
    | 2 => (s.askStow n false).shedMark n 2
    | _ => (s.askStow n true).shedMark n 3
  { s1 with shed := (n, pass, r.clkReg) :: s1.shed, shedPwr := pass }

/-- The first pass, and in it the first class in SHEDORD order, that can give more: the regions concerned. -/
def State.shedNext (s : State) : Option (Nat × List Nat) :=
  ([1, 2, 3].flatMap (fun p => (List.range 16).map (fun i => (p, ((regions s).map (·.1)).filter (fun n => s.slotClass n == s.shedClass i && s.canShed p n))))).find?
    (fun e => !e.2.isEmpty)

/-- POWER_SHED: one step of one class. -/
def execPowerShed (s : State) : Host.Outcome State Fault Refusal :=
  .next (if s.watts ≤ s.shedcap then s
    else match s.shedNext with
      | none => s
      | some (p, ns) => ns.foldl (fun (u : State) n => u.shedOne p n) s)

/-- The region's stow is shedding's own: no command asks for one, which would have cleared the mark, and the placer does not move it. -/
def Slot.shedOnly (r : Slot) (pass : Nat) : Bool := r.shedBy == pass && !r.moving

/-- What EVICT moved comes back to tiles, and the region stands stowed in them, by pass `by_` of shedding or by a command (0). -/
def State.comeBack (s : State) (n : Nat) (q : Nat × Nat × Nat) (by_ : Nat) : State :=
  let s1 := s.setSlot n { (s.slot n).place q with evicted := false, evictReq := false, shedBy := by_ }
  (s1.tiles6 n).foldl (fun (u : State) t => u.returnTile n t) s1

/-- One step of shedding is taken back. The rate goes back to what it was before the step. An eviction still asked for is asked for no
more; a region that has been evicted returns to tiles at its first legal placement, stowed as it was before. A stow still asked for is
asked for no more; a region that has been stowed goes on. -/
def State.unshed (s : State) (pass n rate : Nat) : State :=
  let r := s.slot n
  match pass with
  | 1 => s.setClock n rate
  | 2 =>
    if r.st.runs && r.preq && r.shedOnly 2 then s.setSlot n { r with preq := false, shedBy := 0 }
    else if r.st == .stowed && !r.evicted && r.shedOnly 2 then s.resumeNow n (r.px, r.py, r.orient)
    else s
  | _ =>
    let by_ := if s.shed.tail.any (fun e => e.1 == n && e.2.1 == 2) then 2 else 0
    if !r.shedOnly 3 then s
    else if r.st == .stowed && r.evicted then
      (match s.returnPlace n with
       | some q => s.comeBack n q by_
       | none => s)
    else s.setSlot n { r with evictReq := false, shedBy := by_ }

/-- The step of shedding can be taken back now: a region that would go on passes the checks of a resume (R22), an evicted one needs a
placement. Until then the restore waits. -/
def State.canUnshed (s : State) (pass n : Nat) : Bool :=
  let r := s.slot n
  match pass with
  | 2 => !(r.shedOnly 2 && r.st == .stowed && !r.evicted) || s.placeErr n (r.px, r.py, r.orient) == 0
  | _ => !(2 < pass && r.shedOnly 3 && r.st == .stowed && r.evicted) || (s.returnPlace n).isSome

/-- POWER_RESTORE: the latest step of shedding is taken back once power is 5 % below the cap. -/
def execPowerRestore (s : State) : Host.Outcome State Fault Refusal :=
  .next (match s.shed with
    | [] => s
    | (n, p, rate) :: r =>
      if s.shedcap * 95 < s.watts * 100 || !s.canUnshed p n then s
      else { s.unshed p n rate with shed := r, shedPwr := (r.head?.map (·.2.1)).getD 0 })

end Sys2Proof.Machine
end

