-- ==== Sys2Proof/Machine/Attach.lean ====
section
/-! DEFINITION. Ethernet and Zileth links, the timebase, cold and warm reset, HBM training and the configuration store (R373 to R388). -/
namespace Sys2Proof.Machine

/-! ## Ethernet (R373, R374) -/

/-- Endpoints: data, report and management of each VIF, then the package's management endpoint. -/
def endpoints : Nat := 3 * 256 + 1
/-- ETH_FRAME_RECEIVE: `transport` 0 is the supported one. -/
def execEthFrameReceive (port transport endpoint : Nat) (data : List Byte) (s : State) : Host.Outcome State Fault Refusal :=
  .next (if 2 ≤ port || bits s.eth port 1 = 0 then s
    else if transport != 0 || endpoints ≤ endpoint then { s with ethdrop := s.ethdrop + 1 }
    else s.send [.deliver endpoint data])
/-- ETH_PORT_DOWN. -/
def execEthPortDown (port : Nat) (s : State) : Host.Outcome State Fault Refusal :=
  .next (if port < 2 && bits s.eth port 1 = 1 then { s with eth := s.eth - 2 ^ port } else s)
/-- ETH_PORT_UP: a link comes up from phase 2 on. -/
def execEthPortUp (port : Nat) (s : State) : Host.Outcome State Fault Refusal :=
  .next (if port < 2 && 2 ≤ s.phase && bits s.eth port 1 = 0 then { s with eth := s.eth + 2 ^ port } else s)

/-- Management sets the VLAN id of an endpoint (R373). -/
def State.setVlan (s : State) (e id : Nat) : State := if !s.serves || endpoints ≤ e then s else { s with vlans := Store.put 0 e (id % 4096) s.vlans }

/-! ## Zileth flits (R375, R376) -/

def State.port (s : State) (p : Nat) : Port := Store.get {} p s.ports
def State.setPort (s : State) (p : Nat) (x : Port) : State := { s with ports := Store.put {} p x s.ports }

/-- A port that has just trained all four lanes: 64 credits per channel. -/
def Port.fresh : Port := { up := true, credits := (List.range 6).map (fun c => (c, 64)) }

/-- CRC-32C over bytes 0x00 to 0xFB. -/
def flitCrc (f : List Byte) : BitVec 32 := crcWords 0xFFFFFFFF ((List.range 63).map (fun i => recU f (4 * i) 4)) ^^^ 0xFFFFFFFF

/-- The flit has a good CRC, assigned channels, zero reserved fields and a payload length in its range. -/
def flitOk (f : List Byte) : Bool :=
  let a := recU f 0 4
  let c := recU f 8 4
  f.length == 256 && recU f 0xFC 4 == (flitCrc f).toNat && bits a 29 3 < 6 && bits a 13 3 == 0 && bits c 8 13 == 0 &&
  (bits c 24 8 == 0 || bits c 21 3 < 6) && bits c 0 8 ≤ 236 && recU f 12 4 == 0

/-- The flit that carries a payload (Table 26.3). -/
def flitBytes (vc dst src seq cred cvc : Nat) (data : List Byte) : List Byte :=
  let body := leBytes 4 (src % 2 ^ 13 + dst % 2 ^ 13 * 2 ^ 16 + vc * 2 ^ 29) ++ leBytes 4 seq ++ leBytes 4 (data.length + cvc * 2 ^ 21 + cred * 2 ^ 24) ++
    leBytes 4 0 ++ data ++ List.replicate (236 - data.length) 0
  body ++ leBytes 4 (flitCrc body).toNat

/-- The port sends a flit of a channel only against a credit of it, and none while it trains. -/
def Port.maySend (x : Port) (vc : Nat) : Bool := x.up && !x.training && decide (0 < Store.get 0 vc x.credits)
/-- The credits that the next flit gives back: their channel and their number. -/
def Port.back (x : Port) : Nat × Nat := ((x.owed.find? (fun e => e.2 != 0)).map (fun e => (e.1, Nat.min 255 e.2))).getD (0, 0)
/-- The other side has given back `n` credits of a channel: its `n` oldest flits have arrived. -/
def dropSent (vc : Nat) : Nat → List (Nat × Nat × List Byte) → List (Nat × Nat × List Byte)
  | _, [] => []
  | n, f :: r => if f.2.1 = vc then (if n = 0 then f :: r else dropSent vc (n - 1) r) else f :: dropSent vc n r
def Port.credit (x : Port) (vc n : Nat) : Port :=
  if n = 0 then x
  else { x with credits := Store.put 0 vc (Nat.min 64 (Store.get 0 vc x.credits + n)) x.credits, sent := dropSent vc n x.sent }

/-- A flit leaves: it takes a credit and is kept until that credit comes back. -/
def State.emit (s : State) (p vc dst : Nat) (data : List Byte) : State :=
  let x := s.port p
  let o := x.back
  let f := flitBytes vc dst s.pkgid x.txseq o.2 o.1 data
  (s.setPort p { x with
    txseq := (x.txseq + 1) % 2 ^ 32, sent := x.sent ++ [(x.txseq, vc, f)], credits := Store.put 0 vc (Store.get 0 vc x.credits - 1) x.credits,
    owed := Store.put 0 o.1 (Store.get 0 o.1 x.owed - o.2) x.owed }).send [.flit p f]

/-- What waits at a port leaves as far as its credits go, each channel in order (R377). -/
def State.drainPort (s : State) (p : Nat) (kept : List (Nat × Nat × List Byte)) : List (Nat × Nat × List Byte) → State
  | [] => s.setPort p { s.port p with queue := kept }
  | q :: r =>
    if (s.port p).maySend q.1 && !kept.any (fun k => k.1 == q.1) then (s.emit p q.1 q.2.1 q.2.2).drainPort p kept r
    else s.drainPort p (kept ++ [q]) r

/-- A port has flits of one channel to one destination that wait, or that have left and may not have arrived. -/
def Port.carries (x : Port) (vc dst : Nat) : Bool :=
  x.queue.any (fun q => q.1 == vc && q.2.1 % 2 ^ 13 == dst % 2 ^ 13) || x.sent.any (fun f => f.2.1 == vc && bits (recU f.2.2 0 4) 16 13 == dst % 2 ^ 13)
/-- The port for a flit: the one that is named, or the one that still has earlier flits of its channel to its destination, behind which
it arrives in order (R377). Notes: log entry 42. -/
def State.portFor (s : State) (p vc dst : Nat) : Nat := ((s.ports.find? (fun e => e.2.carries vc dst)).map (·.1)).getD p

/-- A payload for another package is handed to a port. -/
def State.sendFlit (s : State) (p vc dst : Nat) (data : List Byte) : State :=
  let q := s.portFor p vc dst
  if 48 ≤ p || 6 ≤ vc || 236 < data.length then s else s.drainPort q [] ((s.port q).queue ++ [(vc, dst, data)])

/-- The flits from a SEQ on are sent again; a replay takes no credit. -/
def State.replay (s : State) (p seq : Nat) : State :=
  s.send (((s.port p).sent.dropWhile (fun f => f.1 != seq)).map (fun f => Out.flit p f.2.2))

/-- The other side refuses a SEQ: replay, and with the eighth in a row of one flit the link trains again. -/
def State.flitRefused (s : State) (p seq : Nat) : State :=
  let x := s.port p
  let k := if x.again.1 = seq then x.again.2 + 1 else 1
  if 48 ≤ p || !x.up || x.training || !x.sent.any (fun f => f.1 == seq) then s
  else if k < 8 then (s.setPort p { x with again := (seq, k) }).replay p seq
  else s.setPort p { x with again := (seq, k), training := true }

/-- The link has trained: the flits that waited go on, or the port is down. -/
def State.linkTrained (s : State) (p : Nat) (ok : Bool) : State :=
  let x := s.port p
  if 48 ≤ p || !x.training then s
  else if !ok then s.setPort p { x with training := false, up := false, again := (0, 0) }
  else
    let s1 := s.setPort p { x with training := false, again := (0, 0) }
    (if 8 ≤ x.again.2 then s1.replay p x.again.1 else s1).drainPort p [] x.queue

/-- FLIT_RECEIVE (R376): accepted, or refused and replayed; the eighth refusal in a row trains the link again. A payload for another
package than this one is not taken. Notes: log entry 56. -/
def execFlitReceive (port : Nat) (flit : List Byte) (s : State) : Host.Outcome State Fault Refusal :=
  let x := s.port port
  .next (if 48 ≤ port || !x.up || x.training then s
    else if flitOk flit && recU flit 4 4 == x.rxseq then
      let a := recU flit 0 4
      let c := recU flit 8 4
      let v := bits a 29 3
      let y := { x with rxseq := (x.rxseq + 1) % 2 ^ 32, replays := 0, owed := Store.put 0 v (Store.get 0 v x.owed + 1) x.owed }.credit (bits c 21 3) (bits c 24 8)
      let s1 := s.setPort port y
      (if bits a 16 13 = s.pkgid then s1.send [.payload (bits a 0 13) v ((flit.drop 16).take (bits c 0 8))] else s1).drainPort port [] y.queue
    else
      let s1 := s.send [.refuseFlit port x.rxseq]
      if x.replays + 1 < 8 then s1.setPort port { x with replays := x.replays + 1 }
      else s1.setPort port { x with replays := 0, training := true })

/-- Management sets the time limit of the switch, 1 to 1,000 us (R379). -/
def State.setCollLimit (s : State) (ns : Nat) : State := if 1000 ≤ ns && ns ≤ 1000000 then { s with collLimit := ns } else s

/-- Dies that no region stands on are power-gated; the others are not (R364). -/
def State.gateDies (s : State) (dies : Nat) : State :=
  let used (d : Nat) : Bool := (regions s).any (fun e => e.2.tiles.any (fun p => dieOf p == d))
  { s with gated := (List.range 8).foldl (fun m d => if bits dies d 1 = 1 && !used d then m + 2 ^ d else m) 0 }

/-! ## Time (R380, R381) -/

/-- TIMEBASE_PULSE: readings behind the reference step to it; those ahead are held. -/
def execTimebasePulse (s : State) : Host.Outcome State Fault Refusal := .next { s with tbPulse := s.tb, pulses := s.pulses + 1 }

/-! ## Bring-up (R384 to R388) -/

/-- CONFIG_STORE_UPDATE: both signatures verify (bits 0 and 1), or the store stays as it is. -/
def execConfigStoreUpdate (pkg sigs : Nat) (s : State) : Host.Outcome State Fault Refusal :=
  .next (if s.serves && bits sigs 0 2 = 3 then { s with pkgStore := pkg % 2 ^ 13, cfgNext := s.cfgNext + 1 } else s)

/-- What phase 1 loads of a version of the store: the walk stores. -/
def walkStores (v : Nat) : Store Byte := Store.putL 0 [] 0 ((List.range (8 * 65536)).map (Config.storeByte v))

/-- `n` values of `f`, each applied to a free word. -/
def State.frees (s : State) (f : Nat → Word → Nat) : Nat → List Nat × State
  | 0 => ([], s)
  | n + 1 =>
    let x := s.free
    let r := x.2.frees f n
    (f n x.1 :: r.1, r.2)

/-- A Zileth port trains, and comes up or stays down: one that was up keeps its sequence, its credits and its flits, and goes on as after
any training (R376). -/
def State.trainPort (s : State) (p : Nat) (ok : Bool) : State :=
  let x := s.port p
  if x.up then (s.setPort p { x with training := true }).linkTrained p ok
  else if ok then (s.setPort p { Port.fresh with queue := x.queue }).drainPort p [] x.queue
  else s

/-- Every Zileth port trains. -/
def State.trainPorts (s : State) : State :=
  let r := s.frees (fun _ w => bits w.toNat 0 1) 48
  (r.1.mapIdx (fun p b => (p, b == 1))).foldl (fun (u : State) e => u.trainPort e.1 e.2) r.2

/-- What phase 1 loads of the health table: the unit bits of each tile; link bits and counts stay those of `old`. -/
def loadHealth (v : Nat) (old : Store Nat) : Store Nat :=
  (List.range 1344).foldl (fun m p =>
    let h := Store.get 0 p old
    Store.put 0 p (Config.storeHealth v p % 8 + bits h 3 4 * 8 + bits h 8 8 * 2 ^ 8) m) []
/-- What the link calibration of phase 3 gives: the link bits of each tile. -/
def linkHealth (link : Nat → Nat) (old : Store Nat) : Store Nat :=
  (List.range 1344).foldl (fun m p =>
    let h := Store.get 0 p old
    Store.put 0 p (h % 8 + link p % 16 * 8 + bits h 8 8 * 2 ^ 8) m) []

/-- A check of the root of trust in phases 0 and 1, whose outcome is a free value: the active root passes; or the standby root takes
over, repeats it and passes; or the device stays in phase 0. -/
def State.rootCheck (s : State) (go : State → State) : State :=
  let f := s.free
  if bits f.1.toNat 0 1 = 0 then go f.2
  else if !s.rotsb && bits f.1.toNat 1 1 = 0 then go { f.2 with rotsb := true }
  else { f.2 with phase := 0, rotsb := true, bootFail := true }

/-- What phase 1 loads of the signed configuration store; a warm reset keeps the link calibrations and the counts of the health
table. -/
def State.loadStore (s : State) : State :=
  { s with pkgid := s.pkgNow, walkStore := walkStores s.cfgNow,
           health := loadHealth s.cfgNow (if s.warm then s.health else []) }

/-- Phase 3 ends when every channel is trained or failed. -/
def State.trained (s : State) : Bool := (List.range 512).all (fun c => 2 ≤ (Store.get ({} : Chan) c s.chans).st)
def State.endTraining (s : State) : State := if s.phase = 3 && s.trained then { s with phase := 4, warm := false } else s

/-- The firmware of the cores survives a reset; they start again at step 0. -/
def bootCores (m : Store CCore) (f : CCore → CCore) : Store CCore := m.foldl (fun r e => Store.put {} e.1 (f e.2) r) []

/-- Phase 3 after a cold reset: channels, ports and links train, and seams and links are measured. -/
def State.coldTrain (s : State) : State :=
  let l := s.frees (fun _ w => w.toNat) 1344
  let m := l.2.frees (fun _ w => let v := bits w.toNat 0 5; if v < 3 then 0 else v) 10
  let s1 : State := { m.2 with
    phase := 3, chans := (List.range 512).map (fun c => (c, ({ st := 1 } : Chan))),
    health := linkHealth (fun p => l.1.getD p 0) s.health,
    seamLat := (m.1.mapIdx (fun i v => (i, v))).foldl (fun st e => Store.put 0 e.1 e.2 st) [] }
  ((List.range 16).foldl State.trainLink s1).trainPorts

/-- COLD_RESET (R384): every register at its reset value, a fresh key in slot 0, PHASE at 0. -/
def execColdReset (s : State) : Host.Outcome State Fault Refusal :=
  .next { State.reset with
    agenda := s.agenda, focus := s.focus, tick := s.tick, outbox := s.outbox, draws := s.draws + 1, watts := s.watts,
    pkgStore := s.pkgStore, pkgNow := s.pkgStore, cfgNext := s.cfgNext, cfgNow := s.cfgNext, nextMsg := s.nextMsg, cmdSeq := s.cmdSeq,
    keys := [(0, some (Config.drawnKey s.draws))],
    cores := bootCores s.cores (fun c => { istore := c.istore }), walkers := bootCores s.walkers (fun c => { istore := c.istore }) }

/-- Every region resident at a warm reset ends ABORTED, reason 0, cause 0 (R386). -/
def State.endAll (s : State) : State :=
  let s1 := (s.snaps.map (·.1)).foldl (fun (u : State) k => if (u.snap k).st == .idle then u else u.abortSnapshot k) s
  ((regions s).map (·.1)).foldl (fun (u : State) n => u.endInstance n 4 0 0 false) s1

/-- A channel before its pattern confirmation, which `pass` marks; one that has no training values trains in full, and one that failed
stays failed. Until then it keeps STATE 2. Notes: log entry 41. -/
def Chan.again (c : Chan) : Chan := if c.st = 3 then c else { c with st := 1 }

/-- Phase 3 after a warm reset: the training values, the seam measurements and the link calibrations are kept. -/
def State.warmTrain (s : State) : State :=
  ({ s with phase := 3, chans := (List.range 512).foldl (fun m c => Store.put {} c (Store.get ({} : Chan) c s.chans).again m) [] } : State).trainPorts

/-- The work of the present phase ends (Table 26.4). The completion records of a warm reset are written once phase 2 is reached. -/
def State.phaseStep (s : State) : State :=
  match s.phase with
  | 0 => if s.bootFail then s else s.rootCheck (fun u => { u with phase := 1 })
  | 1 => s.rootCheck (fun u => ({ u.loadStore with phase := 2 } : State).settleGraph)
  | 2 => (if s.warm && !s.links.isEmpty then s.warmTrain else s.coldTrain).endTraining
  | _ => s.endTraining

/-- WARM_RESET (R370, R386): PHASE goes to 0, regions end, a KEYZ in progress completes, and the phases follow again. -/
def execWarmReset (s : State) : Host.Outcome State Fault Refusal :=
  let s1 := ({ s with phase := 0, warm := true, bootFail := false } : State).endAll
  let s2 := (s1.keyz.map (·.1)).foldl (fun (u : State) w => u.keyzDone w) { s1 with keyz := s1.keyz.map (fun e => (e.1, none)) }
  let core (c : CCore) : CCore := { c with step := 0, loops := [], inTrap := false, halted := false, failed := false, walking := false, wresp := none }
  .next { s2 with
    eth := 0, vifs := s2.vifs.foldl (fun m e => Store.put {} e.1 { e.2 with spdm := {} } m) [],
    cores := bootCores s2.cores core, walkers := bootCores s2.walkers core }

/-- HBM_CHANNEL_TRAINING (R385, R386): the widest passing windows of both sweeps, the weak lanes, and whether the pattern is
confirmed; after a warm reset the values are kept and the pattern alone counts. -/
def execHbmChannelTraining (chan rdlo rdhi wrlo wrhi : Nat) (weak : List Nat) (confirm : Nat) (s : State) : Host.Outcome State Fault Refusal :=
  let c := Store.get ({} : Chan) chan s.chans
  let ok := confirm == 1
  .next (if 512 ≤ chan || s.phase != 3 || c.st != 1 then s
    else
      let d : Chan := if c.pass then { c with st := if ok then 2 else 3, pass := ok }
        else { st := if ok && weak.length ≤ 2 then 2 else 3, rdw := rdhi - rdlo, rdc := rdlo + (rdhi - rdlo) / 2, wrw := wrhi - wrlo, wrc := wrlo + (wrhi - wrlo) / 2,
               lane0 := weak[0]?, lane1 := weak[1]?, pass := ok && weak.length ≤ 2 }
      ({ s with chans := Store.put {} chan d s.chans } : State).endTraining)

end Sys2Proof.Machine
end

