-- ==== Sys2Proof/Machine/System.lean ====
section
/-! DEFINITION. The system words of SQ and the control cores: NOP, SRD, SWR, TRAP, ERET, TIME, LDSYS, STSYS and HALT, with every register that they reach (R125 to R128, R174 to R184, R302 to R305). -/
namespace Sys2Proof.Machine

/-- NOP (R175). -/
def execNop (s : State) : Host.Outcome State Fault Refusal := .next (s.scalarWord {} (fun a => .ok (a, .fall)))

/-! ## Writes of unit registers (R125, R277, R366) -/

/-- A write of VIFQ (R277). -/
def State.writeVifq (s : State) (v : Nat) : State :=
  if (s.vifOf s.vifsel).en then (if bits v 0 1 = 0 then s.disableVif s.vifsel else s)
  else
    let s1 := s.unitStore 0x841 v
    if bits v 0 1 = 1 then s1.enableVif s.vifsel else s1

/-- A write of BCCTL (R366): EN := 1 is checked. -/
def State.writeBcctl (s : State) (v : Nat) : State :=
  let s1 := s.unitStore 0x859 v
  if bits v 63 1 = 1 then s1.enableBounce s.bcsel else s1

/-- A write of a unit register. -/
def State.unitWrite (s : State) (n v : Nat) : State := if n = 0x841 then s.writeVifq v else if n = 0x859 then s.writeBcctl v else s.unitStore n v

/-! ## SRD and SWR (R126, R176) -/

/-- The state after SWR of a value. -/
def State.sysWrite (s : State) (reg : Nat) (v : Word) : State :=
  if s.atU then s.setCtile { s.ctile with tret := v &&& tretMask }
  else if 0x100 ≤ reg && reg ≤ 0x11F then s.wrSw (reg - 0x100) (v &&& 0xFF00FFFFFFFFFFFF)
  else s.unitWrite reg v.toNat

/-- A translation that an enabling write needs is not held: its walk, which the word waits for. -/
def State.sysWait (s : State) (reg : Nat) (v : Word) : Option State :=
  if s.atU || bits v.toNat 0 1 = 0 && bits v.toNat 63 1 = 0 then none
  else if reg = 0x841 && bits v.toNat 0 1 = 1 && !(s.vifOf s.vifsel).en then
    let u := s.unitStore 0x841 v.toNat
    if u.enableReady s.vifsel then none else some ((u.enableVif s.vifsel).setVif s.vifsel (s.vifOf s.vifsel))
  else if reg = 0x859 && bits v.toNat 63 1 = 1 then
    let u := s.unitStore 0x859 v.toNat
    if (u.bounceMiss (u.bounce s.bcsel)).isNone then none else some ((u.enableBounce s.bcsel).setBounce s.bcsel (s.bounce s.bcsel))
  else none

/-- SWR. -/
def execSwr (reg rs : Nat) (s : State) : Host.Outcome State Fault Refusal :=
  match (if (s.regCheck reg true).isNone then s.sysWait reg (s.rdG rs) else none) with
  | some u => .next u
  | none => .next (s.scalarWord { pre := s.regCheck reg true, reads := [rs] } (fun a => .ok (a.sysWrite reg (a.rdG rs), .fall)))

/-! ## TRAP, ERET, TIME and HALT (R177 to R179, R184, R296, R302) -/

/-- The tiles whose record is of the present freeze: their handlers ran. -/
def State.frozenTiles (s : State) (n : Nat) : List Nat := (s.tiles6 n).filter (fun t => (s.tileAt n t).inFreeze)

/-- R296: the outcome of a freeze whose handlers have all executed ERET. -/
def State.endHandlers (s : State) (n : Nat) : State :=
  let ts := s.frozenTiles n
  if ts.any (fun t => (s.tileAt n t).hreplay) then s.askReplay n false
  else if ts.all (fun t => bits (s.tileAt n t).tcause.toNat 0 8 == Cause.code .brk) then s.thaw n false
  else (s.setSlot n { s.slot n with handler := false }).raiseCC ipTrap

/-- The handler of the current tile has ended, with TRET.REPLAY as its ERET has found it; with the last one the freeze ends, unless a handler has had a fault (R295). -/
def State.leaveHandler (s : State) : State :=
  let s1 := s.setCtile { s.ctile with hflag := false, hreplay := bits s.ctile.tret.toNat 63 1 == 1 }
  if s1.region.hfault || (s1.tiles6 s1.slotNo).any (fun t => (s1.tileAt s1.slotNo t).hflag) then s1 else s1.endHandlers s1.slotNo

/-- ERET: a handler's end at U, the return from the trap path at S. -/
def execEret (s : State) : Host.Outcome State Fault Refusal :=
  if !s.atU then .next (s.scalarWord {} (fun a => .ok (a.setCcore a.ccore.eret, .back a.ccore.ccret)))
  else if !s.inHandler then .next (s.scalarWord { pre := some ill } (fun a => .ok (a, .fall)))
  else
    let u := s.scalarWord {} (fun a => .ok (a, .back (bits a.ctile.tret.toNat 0 16)))
    .next (if s.scalarGate {} == .go then u.leaveHandler else u)

/-- A word that only a core executes: in a handler ILL, at U PRIV. -/
def State.coreOnly (s : State) : Option Trap := if s.inHandler then some ill else if s.atU then some priv else none

/-- A core stops: a walker's walk ends; with an interrupt pending HALT does nothing. -/
def State.haltCore (s : State) : State :=
  match s.cur.agent with
  | .walker n => if (s.walker n).walking then s.stopWalk n else s.setWalker n { s.walker n with halted := true }
  | .core n => if (s.core n).pending then s else s.setCore n { s.core n with halted := true }
  | .region _ => s

/-- HALT. -/
def execHalt (s : State) : Host.Outcome State Fault Refusal :=
  .next (s.scalarWord { pre := s.coreOnly } (fun a => .ok (a.haltCore, .fall)))

/-! ## LDSYS and STSYS (R183, R303, Tables 18.5 and 18.6) -/

/-- A write of a Harness slot register. -/
def State.writeSlot (s : State) (n k v : Nat) : State := if k = 1 then s.writeHrcmd n v else s.slotStore n k v

/-- An 8-byte store: a poisoned line stays poisoned. -/
def State.stPlace (s : State) (p : Place) (v : Word) : Except Trap State :=
  match p with
  | .slotReg n k => .ok (s.writeSlot n k v.toNat)
  | .health t => .ok (s.setHealth t v.toNat)
  | .phys pa =>
    if isWindow pa then
      let c := s.remoteCode false
      if c.1 = 3 then .error { cause := .owner } else .ok (c.2.send [.message (farPkg pa) 0 (pa % 2 ^ 40) (b8 v.toNat)])
    else if !s.corePage pa false then .error { cause := .owner }
    else .ok ((s.freePage (pa / 4096)).keepPlace p v)
  | _ => .ok (s.keepPlace p v)

/-- A POISON, or an OWNER, of a walker core's LDSYS ends its walk with XLATE (R314); the core is in its trap path. -/
def State.spoilWalk (s : State) : State :=
  match s.cur.agent with
  | .walker n =>
    let w := s.walker n
    if w.walking && w.inTrap && (w.ccCause == Cause.code .poison || w.ccCause == Cause.code .owner) then (s.setWalker n { w with wresp := none }).stopWalk n else s
  | _ => s

/-- What an LDSYS reads and finds lost makes its record, and a line of memory is poisoned, whatever the core's trap (R319, R361). -/
def State.meetSys (s u : State) (rs : Nat) (disp : Int) : State :=
  match s.coreOnly, s.sysAddr rs disp with
  | none, .ok (.stow t o) => if (s.tile t).bad 3 ((Config.stowBase + o) / 64 * 64) 64 then u.errorRecord 3 true (s.tileWorld t) t else u
  | none, .ok (.walk o) => u.fixLines none (walkPa o) 8
  | none, .ok (.phys pa) => if isWindow pa || !s.corePage pa true then u else u.fixLines none pa 8
  | _, _ => u

/-- LDSYS. -/
def execLdsys (rd rs : Nat) (disp : Int) (s : State) : Host.Outcome State Fault Refusal :=
  .next (s.meetSys (s.scalarWord { pre := s.coreOnly, reads := [rs], dest := rd } (fun a => a.sysLoad rd rs disp)) rs disp).spoilWalk

/-- STSYS. -/
def execStsys (rt rs : Nat) (disp : Int) (s : State) : Host.Outcome State Fault Refusal :=
  .next (s.scalarWord { pre := s.coreOnly, reads := [rs, rt] } (fun a =>
    match a.sysAddr rs disp with
    | .error t => .error t
    | .ok p =>
      match a.stPlace p (a.rdG rt) with
      | .error t => .error t
      | .ok u => .ok (u, .fall)))

end Sys2Proof.Machine
end

