-- ==== Sys2Proof/Machine/Dispatch.lean ====
section
/-! DEFINITION. One arm per instruction of the opcode table: the direct call of its meaning. -/
namespace Sys2Proof.Machine

def exec (i : Instr) (s : State) : Host.Outcome State Fault Refusal :=
  match i with
  | .add rd rs rt => Sys2Proof.Machine.execAdd rd rs rt s
  | .sub rd rs rt => Sys2Proof.Machine.execSub rd rs rt s
  | .and rd rs rt => Sys2Proof.Machine.execAnd rd rs rt s
  | .or rd rs rt => Sys2Proof.Machine.execOr rd rs rt s
  | .xor rd rs rt => Sys2Proof.Machine.execXor rd rs rt s
  | .shl rd rs rt => Sys2Proof.Machine.execShl rd rs rt s
  | .shr rd rs rt => Sys2Proof.Machine.execShr rd rs rt s
  | .sra rd rs rt => Sys2Proof.Machine.execSra rd rs rt s
  | .slt rd rs rt => Sys2Proof.Machine.execSlt rd rs rt s
  | .sltn rd rs rt => Sys2Proof.Machine.execSltn rd rs rt s
  | .min rd rs rt => Sys2Proof.Machine.execMin rd rs rt s
  | .max rd rs rt => Sys2Proof.Machine.execMax rd rs rt s
  | .minn rd rs rt => Sys2Proof.Machine.execMinn rd rs rt s
  | .maxn rd rs rt => Sys2Proof.Machine.execMaxn rd rs rt s
  | .sel rd rc rs rt => Sys2Proof.Machine.execSel rd rc rs rt s
  | .clz rd rs => Sys2Proof.Machine.execClz rd rs s
  | .ctz rd rs => Sys2Proof.Machine.execCtz rd rs s
  | .popc rd rs => Sys2Proof.Machine.execPopc rd rs s
  | .brev rd rs => Sys2Proof.Machine.execBrev rd rs s
  | .mul rd rs rt => Sys2Proof.Machine.execMul rd rs rt s
  | .mulh rd rs rt => Sys2Proof.Machine.execMulh rd rs rt s
  | .mulhn rd rs rt => Sys2Proof.Machine.execMulhn rd rs rt s
  | .div rd rs rt => Sys2Proof.Machine.execDiv rd rs rt s
  | .divn rd rs rt => Sys2Proof.Machine.execDivn rd rs rt s
  | .rem rd rs rt => Sys2Proof.Machine.execRem rd rs rt s
  | .remn rd rs rt => Sys2Proof.Machine.execRemn rd rs rt s
  | .addi rd rs imm => Sys2Proof.Machine.execAddi rd rs imm s
  | .andi rd rs imm => Sys2Proof.Machine.execAndi rd rs imm s
  | .ori rd rs imm => Sys2Proof.Machine.execOri rd rs imm s
  | .xori rd rs imm => Sys2Proof.Machine.execXori rd rs imm s
  | .slti rd rs imm => Sys2Proof.Machine.execSlti rd rs imm s
  | .shli rd rs n => Sys2Proof.Machine.execShli rd rs n s
  | .shri rd rs n => Sys2Proof.Machine.execShri rd rs n s
  | .srai rd rs n => Sys2Proof.Machine.execSrai rd rs n s
  | .lui rd imm => Sys2Proof.Machine.execLui rd imm s
  | .ldb rd rs buf disp => Sys2Proof.Machine.execLdb rd rs buf disp s
  | .ldh rd rs buf disp => Sys2Proof.Machine.execLdh rd rs buf disp s
  | .ldw rd rs buf disp => Sys2Proof.Machine.execLdw rd rs buf disp s
  | .ldd rd rs buf disp => Sys2Proof.Machine.execLdd rd rs buf disp s
  | .ldbN rd rs buf disp => Sys2Proof.Machine.execLdbN rd rs buf disp s
  | .ldhN rd rs buf disp => Sys2Proof.Machine.execLdhN rd rs buf disp s
  | .ldwN rd rs buf disp => Sys2Proof.Machine.execLdwN rd rs buf disp s
  | .stb rd rs buf disp => Sys2Proof.Machine.execStb rd rs buf disp s
  | .sth rd rs buf disp => Sys2Proof.Machine.execSth rd rs buf disp s
  | .stw rd rs buf disp => Sys2Proof.Machine.execStw rd rs buf disp s
  | .std rd rs buf disp => Sys2Proof.Machine.execStd rd rs buf disp s
  | .beq rs rt off => Sys2Proof.Machine.execBeq rs rt off s
  | .bne rs rt off => Sys2Proof.Machine.execBne rs rt off s
  | .blt rs rt off => Sys2Proof.Machine.execBlt rs rt off s
  | .bge rs rt off => Sys2Proof.Machine.execBge rs rt off s
  | .bltn rs rt off => Sys2Proof.Machine.execBltn rs rt off s
  | .bgen rs rt off => Sys2Proof.Machine.execBgen rs rt off s
  | .jal rd off => Sys2Proof.Machine.execJal rd off s
  | .jalr rd rs imm => Sys2Proof.Machine.execJalr rd rs imm s
  | .loop rs dist => Sys2Proof.Machine.execLoop rs dist s
  | .estart e rs cont => Sys2Proof.Machine.execEstart e rs cont s
  | .estop e => Sys2Proof.Machine.execEstop e s
  | .ebase e rs => Sys2Proof.Machine.execEbase e rs s
  | .ebaseTarget e target => Sys2Proof.Machine.execEbaseTarget e target s
  | .ewait e => Sys2Proof.Machine.execEwait e s
  | .rend => Sys2Proof.Machine.execRend s
  | .frame => Sys2Proof.Machine.execFrame s
  | .seg hstep => Sys2Proof.Machine.execSeg hstep s
  | .colo rd e => Sys2Proof.Machine.execColo rd e s
  | .waitc t => Sys2Proof.Machine.execWaitc t s
  | .bar scope sw => Sys2Proof.Machine.execBar scope sw s
  | .qfence scope emask => Sys2Proof.Machine.execQfence scope emask s
  | .waitcw sw p => Sys2Proof.Machine.execWaitcw sw p s
  | .acommit h => Sys2Proof.Machine.execAcommit h s
  | .adiscard h => Sys2Proof.Machine.execAdiscard h s
  | .nop => Sys2Proof.Machine.execNop s
  | .srd rd reg => Sys2Proof.Machine.execSrd rd reg s
  | .swr reg rs => Sys2Proof.Machine.execSwr reg rs s
  | .trap code => Sys2Proof.Machine.execTrap code s
  | .eret => Sys2Proof.Machine.execEret s
  | .time rd => Sys2Proof.Machine.execTime rd s
  | .snap rs rt sw => Sys2Proof.Machine.execSnap rs rt sw s
  | .rollb rs rt sw => Sys2Proof.Machine.execRollb rs rt sw s
  | .keyz rs sw => Sys2Proof.Machine.execKeyz rs sw s
  | .ldsys rd rs disp => Sys2Proof.Machine.execLdsys rd rs disp s
  | .stsys rt rs disp => Sys2Proof.Machine.execStsys rt rs disp s
  | .halt => Sys2Proof.Machine.execHalt s
  | .stampFrame t => Sys2Proof.Machine.execStampFrame t s
  | .stampSeg t => Sys2Proof.Machine.execStampSeg t s
  | .fmtset c f rs => Sys2Proof.Machine.execFmtset c f rs s
  | .fmtsetMx c f value => Sys2Proof.Machine.execFmtsetMx c f value s
  | .nestcfg c reg rs => Sys2Proof.Machine.execNestcfg c reg rs s
  | .nestcfgMx c reg value => Sys2Proof.Machine.execNestcfgMx c reg value s
  | .vadd c x => Sys2Proof.Machine.execVadd c x s
  | .vsub c x => Sys2Proof.Machine.execVsub c x s
  | .vmul c x => Sys2Proof.Machine.execVmul c x s
  | .vfma c x => Sys2Proof.Machine.execVfma c x s
  | .vfms c x => Sys2Proof.Machine.execVfms c x s
  | .vmin c x => Sys2Proof.Machine.execVmin c x s
  | .vmax c x => Sys2Proof.Machine.execVmax c x s
  | .vabs c x => Sys2Proof.Machine.execVabs c x s
  | .vneg c x => Sys2Proof.Machine.execVneg c x s
  | .vdiv c x => Sys2Proof.Machine.execVdiv c x s
  | .vrsqrt c x => Sys2Proof.Machine.execVrsqrt c x s
  | .vexp2 c x => Sys2Proof.Machine.execVexp2 c x s
  | .vlog2 c x => Sys2Proof.Machine.execVlog2 c x s
  | .vsigm c x => Sys2Proof.Machine.execVsigm c x s
  | .vtanh c x => Sys2Proof.Machine.execVtanh c x s
  | .vcmp c x => Sys2Proof.Machine.execVcmp c x s
  | .vsel c x => Sys2Proof.Machine.execVsel c x s
  | .vand c x => Sys2Proof.Machine.execVand c x s
  | .vor c x => Sys2Proof.Machine.execVor c x s
  | .vxor c x => Sys2Proof.Machine.execVxor c x s
  | .vnot c x => Sys2Proof.Machine.execVnot c x s
  | .vshl c x => Sys2Proof.Machine.execVshl c x s
  | .vshr c x => Sys2Proof.Machine.execVshr c x s
  | .vsra c x => Sys2Proof.Machine.execVsra c x s
  | .vmulhi c x => Sys2Proof.Machine.execVmulhi c x s
  | .vcvt c x => Sys2Proof.Machine.execVcvt c x s
  | .vpack c x => Sys2Proof.Machine.execVpack c x s
  | .vunpk c x => Sys2Proof.Machine.execVunpk c x s
  | .vperm c x => Sys2Proof.Machine.execVperm c x s
  | .vbcast c x => Sys2Proof.Machine.execVbcast c x s
  | .vmovkAnd c x => Sys2Proof.Machine.execVmovkAnd c x s
  | .vmovkOr c x => Sys2Proof.Machine.execVmovkOr c x s
  | .vmovkXor c x => Sys2Proof.Machine.execVmovkXor c x s
  | .vmovkNot c x => Sys2Proof.Machine.execVmovkNot c x s
  | .vmovkKv c x => Sys2Proof.Machine.execVmovkKv c x s
  | .vmovkVk c x => Sys2Proof.Machine.execVmovkVk c x s
  | .vmovkVq c x => Sys2Proof.Machine.execVmovkVq c x s
  | .vmovkQv c x => Sys2Proof.Machine.execVmovkQv c x s
  | .vredsum c x => Sys2Proof.Machine.execVredsum c x s
  | .vredmax c x => Sys2Proof.Machine.execVredmax c x s
  | .vld c m => Sys2Proof.Machine.execVld c m s
  | .vst c m => Sys2Proof.Machine.execVst c m s
  | .vldx c m => Sys2Proof.Machine.execVldx c m s
  | .vstx c m => Sys2Proof.Machine.execVstx c m s
  | .vbfx c m => Sys2Proof.Machine.execVbfx c m s
  | .bfxcfg c m => Sys2Proof.Machine.execBfxcfg c m s
  | .vacc c a => Sys2Proof.Machine.execVacc c a s
  | .vaddm c x => Sys2Proof.Machine.execVaddm c x s
  | .vsubm c x => Sys2Proof.Machine.execVsubm c x s
  | .vmulm c x => Sys2Proof.Machine.execVmulm c x s
  | .vntt c x => Sys2Proof.Machine.execVntt c x s
  | .vintt c x => Sys2Proof.Machine.execVintt c x s
  | .vhash c x => Sys2Proof.Machine.execVhash c x s
  | .vseed c x => Sys2Proof.Machine.execVseed c x s
  | .rank c r => Sys2Proof.Machine.execRank c r s
  | .rkval c r => Sys2Proof.Machine.execRkval c r s
  | .cpin c o => Sys2Proof.Machine.execCpin c o s
  | .cpslot c o => Sys2Proof.Machine.execCpslot c o s
  | .xfetch c o => Sys2Proof.Machine.execXfetch c o s
  | .acq c o => Sys2Proof.Machine.execAcq c o s
  | .acqCw c o => Sys2Proof.Machine.execAcqCw c o s
  | .cpout c o => Sys2Proof.Machine.execCpout c o s
  | .cpoutFlush c buf sw => Sys2Proof.Machine.execCpoutFlush c buf sw s
  | .rel c o => Sys2Proof.Machine.execRel c o s
  | .xpost c o => Sys2Proof.Machine.execXpost c o s
  | .coll c o => Sys2Proof.Machine.execColl c o s
  | .atomAdd c o => Sys2Proof.Machine.execAtomAdd c o s
  | .atomAnd c o => Sys2Proof.Machine.execAtomAnd c o s
  | .atomOr c o => Sys2Proof.Machine.execAtomOr c o s
  | .atomXor c o => Sys2Proof.Machine.execAtomXor c o s
  | .atomMin c o => Sys2Proof.Machine.execAtomMin c o s
  | .atomMax c o => Sys2Proof.Machine.execAtomMax c o s
  | .atomSwap c o => Sys2Proof.Machine.execAtomSwap c o s
  | .atomCas c o => Sys2Proof.Machine.execAtomCas c o s
  | .atomFadd c o => Sys2Proof.Machine.execAtomFadd c o s
  | .vaor c o => Sys2Proof.Machine.execVaor c o s
  | .vaadd c o => Sys2Proof.Machine.execVaadd c o s
  | .vamax c o => Sys2Proof.Machine.execVamax c o s
  | .bind c buf sw h => Sys2Proof.Machine.execBind c buf sw h s
  | .unbind c buf sw => Sys2Proof.Machine.execUnbind c buf sw s
  | .bstateEmpty c buf => Sys2Proof.Machine.execBstateEmpty c buf s
  | .bstateFull c buf => Sys2Proof.Machine.execBstateFull c buf s
  | .lrflush c sw h => Sys2Proof.Machine.execLrflush c sw h s
  | .lrflushFetch c sw h => Sys2Proof.Machine.execLrflushFetch c sw h s
  | .bindso c sw scope hr ho => Sys2Proof.Machine.execBindso c sw scope hr ho s
  | .bindsoRemove c sw hr ho => Sys2Proof.Machine.execBindsoRemove c sw hr ho s
  | .qfenceCico c scope emask => Sys2Proof.Machine.execQfenceCico c scope emask s
  | .send c o => Sys2Proof.Machine.execSend c o s
  | .recv c o => Sys2Proof.Machine.execRecv c o s
  | .sendk c o => Sys2Proof.Machine.execSendk c o s
  | .recvk c o => Sys2Proof.Machine.execRecvk c o s
  | .mma c o => Sys2Proof.Machine.execMma c o s
  | .mmas c o => Sys2Proof.Machine.execMmas c o s
  | .mmul c o => Sys2Proof.Machine.execMmul c o s
  | .rkmac c o => Sys2Proof.Machine.execRkmac c o s
  | .oclaim c slot => Sys2Proof.Machine.execOclaim c slot s
  | .orelease c slot => Sys2Proof.Machine.execOrelease c slot s
  | .oload c slot bfx doff nb1 buf off => Sys2Proof.Machine.execOload c slot bfx doff nb1 buf off s
  | .aclr c amask => Sys2Proof.Machine.execAclr c amask s
  | .amov c ad asrc => Sys2Proof.Machine.execAmov c ad asrc s
  | .amovAdd c ad asrc cls q => Sys2Proof.Machine.execAmovAdd c ad asrc cls q s
  | .amovMerge c ad asrc => Sys2Proof.Machine.execAmovMerge c ad asrc s
  | .aout c acc f nrows1 rbase buf off => Sys2Proof.Machine.execAout c acc f nrows1 rbase buf off s
  | .astow c acc buf off => Sys2Proof.Machine.execAstow c acc buf off s
  | .arestore c acc buf off => Sys2Proof.Machine.execArestore c acc buf off s
  | .nestgo c shp acc clrmask sw a b => Sys2Proof.Machine.execNestgo c shp acc clrmask sw a b s
  | .mxwait c => Sys2Proof.Machine.execMxwait c s
  | .rkloadAtt c buf off => Sys2Proof.Machine.execRkloadAtt c buf off s
  | .rkloadRct c buf off => Sys2Proof.Machine.execRkloadRct c buf off s
  | .orderRetire slot t id => Sys2Proof.Machine.execOrderRetire slot t id s
  | .layoutRecordFetch slot t eng => Sys2Proof.Machine.execLayoutRecordFetch slot t eng s
  | .fillComplete slot t id => Sys2Proof.Machine.execFillComplete slot t id s
  | .drainComplete slot t id => Sys2Proof.Machine.execDrainComplete slot t id s
  | .landing slot t id => Sys2Proof.Machine.execLanding slot t id s
  | .late slot => Sys2Proof.Machine.execLate slot s
  | .bytesPerformed slot t id => Sys2Proof.Machine.execBytesPerformed slot t id s
  | .remoteTimeout slot t id => Sys2Proof.Machine.execRemoteTimeout slot t id s
  | .transferArrival slot t => Sys2Proof.Machine.execTransferArrival slot t s
  | .syeOperation slot t id => Sys2Proof.Machine.execSyeOperation slot t id s
  | .relFenceRelease slot t id => Sys2Proof.Machine.execRelFenceRelease slot t id s
  | .xpostArrival msg => Sys2Proof.Machine.execXpostArrival msg s
  | .hostRemoteAtomic va op opd cmp vif => Sys2Proof.Machine.execHostRemoteAtomic va op opd cmp vif s
  | .preemptStop slot t => Sys2Proof.Machine.execPreemptStop slot t s
  | .maxpd slot => Sys2Proof.Machine.execMaxpd slot s
  | .stowSave slot => Sys2Proof.Machine.execStowSave slot s
  | .stow slot evict => Sys2Proof.Machine.execStow slot evict s
  | .resume slot px py orient => Sys2Proof.Machine.execResume slot px py orient s
  | .thaw slot => Sys2Proof.Machine.execThaw slot s
  | .replay slot => Sys2Proof.Machine.execReplay slot s
  | .freeze slot => Sys2Proof.Machine.execFreeze slot s
  | .abort slot reason => Sys2Proof.Machine.execAbort slot reason s
  | .segmentReplay slot => Sys2Proof.Machine.execSegmentReplay slot s
  | .clockChange slot => Sys2Proof.Machine.execClockChange slot s
  | .margin tile => Sys2Proof.Machine.execMargin tile s
  | .marginTileFail tile => Sys2Proof.Machine.execMarginTileFail tile s
  | .healthBitClear tile bit => Sys2Proof.Machine.execHealthBitClear tile bit s
  | .scrubPatrol src at_ kind => Sys2Proof.Machine.execScrubPatrol src at_ kind s
  | .evqRead core => Sys2Proof.Machine.execEvqRead core s
  | .ccInterrupt core => Sys2Proof.Machine.execCcInterrupt core s
  | .translationWalk slot va kind => Sys2Proof.Machine.execTranslationWalk slot va kind s
  | .walkWatchdog walker => Sys2Proof.Machine.execWalkWatchdog walker s
  | .shootdown core => Sys2Proof.Machine.execShootdown core s
  | .shootdownAck unit => Sys2Proof.Machine.execShootdownAck unit s
  | .potAssign w page npg => Sys2Proof.Machine.execPotAssign w page npg s
  | .potRelease w page npg => Sys2Proof.Machine.execPotRelease w page npg s
  | .potBounce w page npg => Sys2Proof.Machine.execPotBounce w page npg s
  | .potUnbounce w page npg => Sys2Proof.Machine.execPotUnbounce w page npg s
  | .pageScrubComplete page => Sys2Proof.Machine.execPageScrubComplete page s
  | .tileScrub tile => Sys2Proof.Machine.execTileScrub tile s
  | .keyGen w => Sys2Proof.Machine.execKeyGen w s
  | .linkTagFail pa again => Sys2Proof.Machine.execLinkTagFail pa again s
  | .getVersion vif => Sys2Proof.Machine.execGetVersion vif s
  | .getCapabilities vif => Sys2Proof.Machine.execGetCapabilities vif s
  | .negotiateAlgorithms vif algs => Sys2Proof.Machine.execNegotiateAlgorithms vif algs s
  | .getDigests vif => Sys2Proof.Machine.execGetDigests vif s
  | .getCertificate vif slot => Sys2Proof.Machine.execGetCertificate vif slot s
  | .challenge vif nonce => Sys2Proof.Machine.execChallenge vif nonce s
  | .getMeasurements vif nonce => Sys2Proof.Machine.execGetMeasurements vif nonce s
  | .keyExchange vif share => Sys2Proof.Machine.execKeyExchange vif share s
  | .finish vif mac => Sys2Proof.Machine.execFinish vif mac s
  | .heartbeat vif => Sys2Proof.Machine.execHeartbeat vif s
  | .keyUpdate vif => Sys2Proof.Machine.execKeyUpdate vif s
  | .endSession vif => Sys2Proof.Machine.execEndSession vif s
  | .chunkGet vif handle => Sys2Proof.Machine.execChunkGet vif handle s
  | .deposit vif va data => Sys2Proof.Machine.execDeposit vif va data s
  | .bckey vif chan key => Sys2Proof.Machine.execBckey vif chan key s
  | .unsupportedRequest vif code => Sys2Proof.Machine.execUnsupportedRequest vif code s
  | .bounceEnable chan => Sys2Proof.Machine.execBounceEnable chan s
  | .bounceFrameIn chan => Sys2Proof.Machine.execBounceFrameIn chan s
  | .bounceFrameOut chan => Sys2Proof.Machine.execBounceFrameOut chan s
  | .powerShed => Sys2Proof.Machine.execPowerShed s
  | .powerRestore => Sys2Proof.Machine.execPowerRestore s
  | .queueWrite vif off data => Sys2Proof.Machine.execQueueWrite vif off data s
  | .vifqEnable vif => Sys2Proof.Machine.execVifqEnable vif s
  | .vifqDisable vif => Sys2Proof.Machine.execVifqDisable vif s
  | .launch vif => Sys2Proof.Machine.execLaunch vif s
  | .cancel vif => Sys2Proof.Machine.execCancel vif s
  | .release vif => Sys2Proof.Machine.execRelease vif s
  | .pad vif => Sys2Proof.Machine.execPad vif s
  | .placeInstance => Sys2Proof.Machine.execPlaceInstance s
  | .snareaWrite value => Sys2Proof.Machine.execSnareaWrite value s
  | .regionCut slot => Sys2Proof.Machine.execRegionCut slot s
  | .bookmark jobid id src => Sys2Proof.Machine.execBookmark jobid id src s
  | .jobMessageArrival msg => Sys2Proof.Machine.execJobMessageArrival msg s
  | .cutReport jobid id src => Sys2Proof.Machine.execCutReport jobid id src s
  | .commit jobid id => Sys2Proof.Machine.execCommit jobid id s
  | .snapshotAbort job id => Sys2Proof.Machine.execSnapshotAbort job id s
  | .snapshotTimeout jobid id => Sys2Proof.Machine.execSnapshotTimeout jobid id s
  | .pageCopy page => Sys2Proof.Machine.execPageCopy page s
  | .bufferCopy slot t b => Sys2Proof.Machine.execBufferCopy slot t b s
  | .rollbackMarker jobid id src => Sys2Proof.Machine.execRollbackMarker jobid id src s
  | .flitReceive port flit => Sys2Proof.Machine.execFlitReceive port flit s
  | .collContribution coll rank data => Sys2Proof.Machine.execCollContribution coll rank data s
  | .collAbandon coll => Sys2Proof.Machine.execCollAbandon coll s
  | .ethFrameReceive port transport endpoint data => Sys2Proof.Machine.execEthFrameReceive port transport endpoint data s
  | .ethPortDown port => Sys2Proof.Machine.execEthPortDown port s
  | .timebasePulse => Sys2Proof.Machine.execTimebasePulse s
  | .coldReset => Sys2Proof.Machine.execColdReset s
  | .warmReset => Sys2Proof.Machine.execWarmReset s
  | .hbmChannelTraining chan rdlo rdhi wrlo wrhi weak confirm => Sys2Proof.Machine.execHbmChannelTraining chan rdlo rdhi wrlo wrhi weak confirm s
  | .uecDataWrite vif va data => Sys2Proof.Machine.execUecDataWrite vif va data s
  | .fabricWindowAccess world pa write data => Sys2Proof.Machine.execFabricWindowAccess world pa write data s
  | .guestTableChange vif pa value => Sys2Proof.Machine.execGuestTableChange vif pa value s
  | .keyzComplete w => Sys2Proof.Machine.execKeyzComplete w s
  | .ethPortUp port => Sys2Proof.Machine.execEthPortUp port s
  | .configStoreUpdate pkg sigs => Sys2Proof.Machine.execConfigStoreUpdate pkg sigs s

end Sys2Proof.Machine
end

