-- ==== Sys2Proof/Machine/Run.lean ====
section
/-! DEFINITION. How the agents of the package take their steps: fetching (R12), the micro-steps of a region's cycle (R11, R13, R28, R31), handlers, cores and walkers, the outside's moves, and copies on write of SNAPPED buffers. -/
namespace Sys2Proof.Machine

abbrev Out3 := Host.Outcome State Fault Refusal

/-! ## Fetching (R12, R118, R123, R318) -/

/-- The word in hand: the instruction at step `k` of the words `ws`, decoded as `d`. -/
def curOf (a : Agent) (t e k : Nat) (ws : List Code) (d : Decoded) : Cur :=
  { agent := a, tile := t, eng := e, first := k, step := k + d.len - 1, nextStep := k + d.len, word := d.word, pay := payNear d.pays,
    np := d.pays.length, raws := (ws.take d.len).map (fun w => w.toNat) }

/-- The word that a decoding failure names. -/
def failPlace : DecodeError → Nat
  | .endOfStore n | .reserved n | .thirdExtension n | .extensionThenStamp n => n

/-- The word in hand where decoding fails, or where the order store is bad (R318): the failing word, as it is stored, with the extension
words before it. Notes: log entry 20. -/
def curBad (a : Agent) (t e k : Nat) (ws : List Code) (x : DecodeError) : Cur :=
  let n := failPlace x
  { agent := a, tile := t, eng := e, first := k, step := k + n, nextStep := k + n + 1, word := ((ws.getD n 0).toNat),
    pay := payNear ((ws.take n).map (fun w => bits w.toNat 0 26)), np := n, raws := (ws.take (n + 1)).map (fun w => w.toNat) }

/-- The major opcode of a decoded instruction. -/
def majOf (d : Decoded) : Nat := bits d.word 26 6

/-- The instruction at the front of `ws` is executed by agent `a` (`ok`: the agent accepts it), or its fetch raises ILL. -/
def State.execAt (s : State) (a : Agent) (t e k : Nat) (ws : List Code) (ok : Decoded → Bool) : Out3 :=
  match decode ws with
  | .error x => .next ({ s with cur := curBad a t e k ws x }.takeTrap ill)
  | .ok d =>
    let u : State := { s with cur := curOf a t e k ws d }
    if ok d then exec d.instr u else .next (u.takeTrap ill)

/-- The number of words that the instruction at the front takes, for the check of its fetch. -/
def spanOf (ws : List Code) : Nat :=
  match decode ws with
  | .ok d => d.len
  | .error x => failPlace x + 1

/-! ## Cores (R145, R302, R314) -/

/-- What a core accepts (Table 7.3); a STAMP raises ILL by its own rule. -/
def coreAccepts (d : Decoded) : Bool := majOf d ≤ 0x13 || majOf d == 0x3F

/-- One step of a control core: an interrupt, a wake, or its next word. -/
def State.coreStep (s : State) (n : Nat) : Out3 :=
  let c := s.core n
  if c.failed then .next s
  else if c.takes then .next (s.setCore n c.interrupt)
  else if c.halted then .next (if c.pending then s.setCore n { c with halted := false } else s)
  else s.execAt (.core n) 0 0 c.step (wordsFrom c.istore c.step 3) coreAccepts

/-- One step of a walker core that walks: it fetches from its die's walk store; a poisoned line raises POISON. -/
def State.walkerStep (s : State) (n : Nat) : Out3 :=
  let w := s.walker n
  if !w.walking || w.halted || w.failed then .next s
  else
    let ws := s.walkWords n w.step
    let a := walkPa (n * 65536 + 4 * w.step)
    let s1 := s.fixLines none a (4 * spanOf ws)
    if !(s1.linesIn a (4 * spanOf ws) 2).isEmpty then .next (({ s1 with cur := { agent := .walker n, first := w.step, step := w.step, nextStep := w.step + 1 } }.takeTrap (poisonTrap 4)).spoilWalk)
    else s1.execAt (.walker n) 0 0 w.step ws coreAccepts

/-! ## Regions: an engine's look (R11, R13, R30 to R35, R171) -/

/-- The order in which the engines of a tile have their look in a cycle. -/
def engineAt (late : Bool) (i : Nat) : Nat := if late then [1, 2, 3, 4, 0, 5].getD i 0 else i

/-- SQ's next word is ACOMMIT or ADISCARD: MX issues first (R173, R275). -/
def Tile.sqWaits (t : Tile) : Bool :=
  match t.peekSq with
  | some (_, .acommit _) | some (_, .adiscard _) => true
  | _ => false

/-- Engine `e` may look for a word in this cycle: it runs, or an order of it is to issue again (R305). -/
def Tile.looks (t : Tile) (e now : Nat) : Bool :=
  ((t.eng e).st == .running || (t.redoing e).isSome) && !t.stopped && !(t.quiet && e != 0) && !t.fenced e now

/-- The step at which the engine fetches: that of the order that is to issue again, else its step counter. -/
def Tile.fetchStep (t : Tile) (e : Nat) : Nat :=
  match t.redoing e with
  | some f => f.first
  | none => (t.eng e).step

/-- SQ's next word carries a STAMP whose time has come (R147): in a timed segment it then issues, or raises OVERRUN. -/
def Tile.stampDue (t : Tile) (now : Nat) : Bool :=
  t.timed && decide ((t.eng 0).tprev < now) &&
  (match (t.eng 0).stamp with
   | some p => decide (t.stampTime p ≤ now)
   | none => match decodeAt t.store (t.eng 0).step with
     | .ok d => (stampOf d.instr d.word (t.eng 0).step).any (fun p => decide (t.stampTime p ≤ now))
     | .error _ => false)

/-- The engine fetches its next word in cycle `now`: its earliest next cycle has come, or that of a STAMP. -/
def Tile.mayFetch (t : Tile) (e now : Nat) : Bool :=
  let g := t.eng e
  if e = 0 then decide (g.next ≤ now) || t.stampDue now
  else if g.next != 0 then decide (g.next ≤ now) else decide (g.tprev < now)

/-- A form that is reserved in the streams of some engines that accept its major opcode: MAJ 0x3B without prefixes is SQ's and with
them MX's (R261), and the mask of a QFENCE names the engine that issues it (R231). -/
def formFits (e : Nat) : Instr → Bool
  | .fmtset _ _ _ | .nestcfg _ _ _ => e == 0
  | .fmtsetMx _ _ _ | .nestcfgMx _ _ _ => e == 4
  | .qfenceCico _ _ emask => bits emask e 1 == 1
  | _ => true

/-- What an engine accepts (Table 7.3); STAMP by every engine. -/
def engineAccepts (e : Nat) (d : Decoded) : Bool := (majOf d == 0x3F || (acceptors (majOf d)).contains e) && formFits e d.instr

/-- Engine `e` of tile `t` fetches its next word and issues it, if it may. -/
def State.look (s : State) (n t e : Nat) : Out3 :=
  let x := s.tileAt n t
  if !x.looks e (s.slot n).rcc || !x.mayFetch e (s.slot n).rcc then .next s
  else
    let k := x.fetchStep e
    let ws := wordsFrom x.store k 3
    if x.bad 4 (4 * k) (4 * spanOf ws) then
      .next ({ s with cur := curBad (.region n) t e k ws (.reserved 0) }.takeTrap (poisonTrap 4))
    else (s.correctAt n ((s.slot n).phys t) 4 (4 * k) (4 * spanOf ws)).execAt (.region n) t e k ws (engineAccepts e)

/-- The engine has just passed a STAMP, which takes no slot of the cycle (R30). -/
def State.stamped (s u : State) (n t e : Nat) : Bool := ((s.tileAt n t).eng e).stamp.isNone && ((u.tileAt n t).eng e).stamp.isSome

/-- The instruction that the look of an engine fetches. -/
def State.lookInstr (s : State) (n t e : Nat) : Option Instr :=
  let x := s.tileAt n t
  match decode (wordsFrom x.store (x.fetchStep e) 3) with
  | .ok d => some d.instr
  | .error _ => none

/-- One engine of one tile has its look; NX's look follows the arrivals of the cycle (R238). -/
def State.issueStep (s : State) (n : Nat) : Out3 :=
  let r := s.slot n
  let t := r.pos / 6
  let i := r.pos % 6
  let s1 := if i = 0 then s.setTileAt n t { s.tileAt n t with sqLate := (s.tileAt n t).sqWaits } else s
  let x := s1.tileAt n t
  let e := engineAt x.sqLate i
  let s2 := if e = 5 && !x.stopped && !x.rended then s1.arrivals n t else s1
  let s3 := s2.setSlot n { s2.slot n with pos := r.pos + 1 }
  match s3.look n t e with
  | .next u =>
    .next (if s3.stamped u n t e then u.setSlot n { u.slot n with pos := r.pos } else s3.lookKnown u n t e (s3.lookInstr n t e))
  | o => o

/-! ## Regions: between cycles (R27, R38, R54, R55, R289, R305) -/

/-- One cycle of a landing hold. -/
def State.holdStep (s : State) (n : Nat) : State :=
  let r := s.slot n
  if !r.holding then s.setSlot n { r with holding := true, landHeld := 0, limitNow := r.landLimit }
  else if r.limitNow ≤ r.landHeld then s.raiseLate n
  else s.setSlot n { r with landHeld := r.landHeld + 1 }

/-- What follows a region cycle: a freeze, MAXPD, the landings (of which one may trap, R14), a landing hold, the end, or the next cycle. -/
def State.boundaryStep (s : State) (n : Nat) : State :=
  if s.anyTrap n then s.faultFreeze n
  else if (s.slot n).fz then s.plainFreeze n
  else if s.overMaxpd n then s.abortSlot n 0x12
  else
    let s1 := s.landAll n
    if s1.anyTrap n then s1.faultFreeze n
    else if s1.mustHold n then s1.holdStep n
    else if (s1.tiles6 n).all (fun t => (s1.tileAt n t).rended) then s1.setSlot n { s1.slot n with ended := true }
    else s1.enter n

/-- A held region: a clock change, its cut, its stow, or it goes on. -/
def State.heldStep (s : State) (n : Nat) : State :=
  if (s.slot n).fz then s.plainFreeze n
  else if s.mayClock n then s.clockNow n
  else if s.mayCut n then s.cutNow n
  else if s.mayStow n then s.stowNow n
  else if (s.slot n).cutReq then s.tryPackageCut (s.slot n).job
  else if (s.slot n).preq && s.allPre n then s.awaitCtx n
  else s.goOn n

/-- A region whose tiles have all executed REND: its commands complete, its cut is taken and the package cut awaited (R329), and the
instance ends. -/
def State.endedStep (s : State) (n : Nat) : State :=
  if !s.cmdsDone n then s
  else if s.mayCut n then s.cutNow n
  else if (s.slot n).cutReq then s.tryPackageCut (s.slot n).job
  else s.endInstance n (s.slot n).verdict 0 0 true

/-- The words that a handler may use (R295). -/
def handlerAccepts (d : Decoded) : Bool :=
  majOf d ≤ 0x0E || (match d.instr with
    | .nop | .srd _ _ | .swr _ _ | .time _ | .eret => true
    | _ => false)

/-- R295: the end of a handler cycle. A fault in it ends every handler of the freeze, which goes to the control complex. -/
def State.endHandlerCycle (s : State) (n : Nat) : State :=
  let r := s.slot n
  if r.hfault then
    let s1 := (s.tiles6 n).foldl (fun (u : State) t => u.setTileAt n t (u.tileAt n t).quitHandler) s
    (s1.setSlot n { s1.slot n with handler := false, hfault := false }).raiseCC ipTrap
  else s.setSlot n { r with hcyc := r.hcyc + 1, hpos := 0 }

/-- A handler cycle, tile by tile: SQ of a tile whose handler runs has its look once its next handler cycle has come (R295). -/
def State.handlerStep (s : State) (n : Nat) : Out3 :=
  let r := s.slot n
  let t := r.hpos
  if r.count ≤ t then .next (s.endHandlerCycle n)
  else
    let s1 := s.setSlot n { r with hpos := t + 1 }
    let x := s1.tileAt n t
    if !x.hflag || r.hcyc < x.hnext then .next s1
    else
      let k := (x.eng 0).step
      let ws := wordsFrom x.store k 3
      if x.bad 4 (4 * k) (4 * spanOf ws) then
        .next ({ s1 with cur := curBad (.region n) t 0 k ws (.reserved 0) }.takeTrap (poisonTrap 4))
      else (s1.correctAt n (r.phys t) 4 (4 * k) (4 * spanOf ws)).execAt (.region n) t 0 k ws handlerAccepts

/-- A frozen region: its handlers, its replay, a rollback of its job. -/
def State.frozenStep (s : State) (n : Nat) : Out3 :=
  let r := s.slot n
  if r.handler then s.handlerStep n
  else if r.replaying then .next (if s.cmdsDone n then s.replayNow n else s)
  else .next (s.tryRoll r.job)

/-- The end of a cycle, which may be the first of the instance: one that a stop takes back is none. -/
def State.finishCycle (s : State) (n : Nat) : State :=
  let u := s.endCycle n
  if (s.slot n).wakes && (s.slot n).rcc == cycle0 && !(u.slot n).wakes then u.noteStart n else u

/-- One micro-step of a region. -/
def State.regionStep (s : State) (n : Nat) : Out3 :=
  let r := s.slot n
  match r.st with
  | .running =>
    if r.ended then .next (s.endedStep n)
    else if r.held then .next (s.heldStep n)
    else if r.pos < 6 * r.count then s.issueStep n
    else if r.pos = 6 * r.count then .next (s.doneKnown (s.finishCycle n))
    else .next (s.doneKnown (s.boundaryStep n))
  | .frozen => s.frozenStep n
  | .stowed => .next (if s.mayEvict n then s.evictNow n else s.awaitCtx n)
  | _ => .next s

/-! ## The package -/

/-- One step of an agent; the package has 16 control cores, 8 walker cores and 1,344 Harness slots. -/
def State.runAgent (s : State) (a : Agent) : Out3 :=
  match a with
  | .core n => if n < Config.coreCount then s.coreStep n else .fault .noSuchAgent
  | .walker n => if n < 8 then s.walkerStep n else .fault .noSuchAgent
  | .region n => if n < 1344 then s.regionStep n else .fault .noSuchAgent

/-- A bit error (R317 to R319): `space` 2 to 6 of a tile (`key`: 2^24 times the tile, plus the 64-bit word), or 7 a line of HBM or of
a walk store; `kind` 1 a single-bit error, which leaves a word or line that is uncorrectable or poisoned as it is, else an uncorrectable
one. -/
def State.upset (s : State) (space key kind : Nat) : State :=
  let mark (bad old : Nat) : Nat := if kind = 1 then Nat.max 1 old else bad
  if space = 7 then { s with poison := Store.put 0 key (mark 3 (Store.get 0 key s.poison)) s.poison }
  else if space < 2 || 7 < space then s
  else
    let p := key / 2 ^ 24
    s.setTile p { s.tile p with ecc := Store.put 0 (space * 2 ^ 24 + key % 2 ^ 24) (mark 2 (Store.get 0 (space * 2 ^ 24 + key % 2 ^ 24) (s.tile p).ecc)) (s.tile p).ecc }

/-- An event's outcome, with what its next state comes after (R66). -/
def State.known (s : State) : Out3 → Out3
  | .next u => .next (s.doneKnown u)
  | o => o

/-- One move of the agenda. An event is an operation without an encoding. -/
def State.move (s : State) : Move → Out3
  | .event i => if (encode i).isEmpty then s.known (exec i s) else .next s
  | .turn a => s.runAgent a
  | .power w => .next { s with watts := w }
  | .tick ns => .next { s with tb := (s.tb + ns) % 2 ^ 64 }
  | .arrive m => .next { s with inbox := Store.ins s.nextMsg m s.inbox, nextMsg := s.nextMsg + 1 }
  | .upset space key kind => .next (s.upset space key kind)
  | .podBar p w j k => .next (s.podArrive p w j k)
  | .ring c off data => .next (s.hostRing c off data)
  | .phase => .next s.phaseStep
  | .flit p vc dst data => .next (s.sendFlit p vc dst data)
  | .refused p seq => .next (s.flitRefused p seq)
  | .linkTrained p ok => .next (s.linkTrained p ok)
  | .vlan e id => .next (s.setVlan e id)
  | .reportTo v e => .next (s.setReportTo v e)
  | .collLimit ns => .next (s.setCollLimit ns)
  | .gate dies => .next (s.gateDies dies)
  | .sealLog => .next s.flushLog
  | .uecRead vif va n => .next (s.uecRead vif va n)
  | .migrate vif lid inst ctx time => .next (s.migrate vif lid inst ctx time)
  | .rollFailed k id => .next (s.rollFailedThere k id)
  | .jobEnded p w j => .next { s with sync := s.sync.filter (fun b => b.pkg == s.pkgid || !(b.pkg == p && b.world == w && b.jobid == j)) }

/-- The next move of the agenda, or a step of the agent in focus. -/
def State.stepOnce (s : State) : Out3 :=
  match s.agenda with
  | [] => s.runAgent s.focus
  | m :: r => ({ s with agenda := r } : State).move m

/-- The SNAPPED buffers of the package, as (slot, tile, buffer). -/
def State.snappedBufs (s : State) : List (Nat × Nat × Nat) :=
  s.slots.flatMap (fun e =>
    if e.2.st == .free || e.2.evicted then []
    else (List.range e.2.count).flatMap (fun t =>
      ((s.tileAt e.1 t).bufs.filter (fun (b : Nat × Buf) => b.2.snapped)).map (fun (b : Nat × Buf) => (e.1, t, b.1))))

/-- The bytes of a buffer of a tile. -/
def State.bufAt (s : State) (p : Nat) (d : BufDecl) : List Byte := Store.getN 0 (s.tile p).sram (d.base * 4096) d.bytes

/-- The SNAPPED buffers whose bytes a step changes: the copier copies them before (R335). -/
def State.overwritten (s u : State) : List (Nat × Nat × Nat) :=
  s.snappedBufs.filter (fun b =>
    let p := (s.slot b.1).phys b.2.1
    s.bufAt p (s.declAt b.1 b.2.1 b.2.2) != u.bufAt p (s.declAt b.1 b.2.1 b.2.2))

/-- One step of the machine: the SNAPPED buffers that it would change are copied first. -/
def State.stepAll (s : State) : Out3 :=
  match s.stepOnce with
  | .next u =>
    match s.overwritten u with
    | [] => .next u
    | bs => (bs.foldl (fun (v : State) b => v.copyBuffer b.1 b.2.1 b.2.2) s).stepOnce
  | o => o

/-! ## Placing a word where the next step fetches -/

/-- The engine that runs a word in a region: the lowest that accepts it; none where a control core runs it. -/
def placeEngine (ws : List Code) : Option Nat :=
  match decode ws with
  | .error _ => none
  | .ok d =>
    if majOf d ≤ 0x0F || majOf d = 0x13 then none
    else [0, 1, 2, 3, 4, 5].find? (fun e => engineAccepts e d)

/-- Words at step `k` of an order store. -/
def putWords (m : Store Code) (k : Nat) (ws : List Code) : Store Code := Store.putL 0 m k ws

/-- A control core's next words. -/
def State.withCoreWords (s : State) (ws : List Code) : State :=
  let c := s.core 0
  ({ s with agenda := [], focus := .core 0 } : State).setCore 0
    { c with istore := putWords c.istore c.step ws, halted := false, failed := false, inTrap := false, ipend := 0 }

/-- A region of one tile in slot 0, running in an elastic segment, in which engine `e` has its look at the words next. -/
def State.withEngineWords (s : State) (e : Nat) (ws : List Code) : State :=
  let k := ((s.tileAt 0 0).eng e).step
  let g : Eng := { st := .running, base := k, step := k }
  let t0 := s.tile 0
  let t1 : Tile := { t0 with
    store := putWords t0.store k ws, seg := { opened := true, elastic := true }, stopped := false, quiet := false, rended := false, fence := [],
    trapNow := none, flights := [], cmds := [], effs := [] }
  let t2 := t1.setEng e g
  let t3 := { t2 with sqLate := t2.sqWaits }
  let i := if t3.sqLate && e = 0 then 4 else e
  let r : Slot := { s.slot 0 with
    st := .running, px := 0, py := 0, orient := 0, w := 1, h := 1, imgs := [(0, { mask := 63 })], rcc := cycle0, pos := i, held := false, ended := false,
    holding := false, evicted := false }
  ({ s with agenda := [], focus := .region 0 } : State).setTile 0 t3 |>.setSlot 0 r

/-- The words where the next step fetches them. -/
def State.withWords (s : State) (ws : List Code) : State :=
  match placeEngine ws with
  | none => s.withCoreWords ws
  | some e => s.withEngineWords e ws

end Sys2Proof.Machine
end

