-- ==== Sys2Proof/Machine/Step.lean ====
section
/-! DEFINITION. One step of the machine, and where a word is placed so that the next step runs it. -/
namespace Sys2Proof.Machine

/-- One step of the machine: the next move of the agenda, or a step of the agent in focus. -/
def step (s : State) : Host.Outcome State Fault Refusal := s.stepAll

/-- The words that a table row's number lays out, stored where `step` fetches its next instruction. Notes: log entry 1. -/
def State.withFetchWord (s : State) (nbits w : Nat) : State := s.withWords (tableWords nbits w)

end Sys2Proof.Machine
end

