-- ==== Sys2Proof/Laws/PerInstr.lean ====
section
/-! SUPPORT. The per-instruction family RoundTrip: decoding the words that encode a well-formed instruction gives it back. -/
-- One proof at a time: the three hundred proofs below, elaborated side by side, need twice the memory.
set_option Elab.async false

namespace Sys2Proof.Laws

/-- The encoded words of a well-formed instruction decode to it, and it takes all of them. -/
def RoundTrip.Statement (i : Instr) : Prop :=
  i.wf = true → ∃ d, decode (encode i) = .ok d ∧ d.instr = i ∧ d.len = (encode i).length

/-! ## What a sequence of words decodes to -/

theorem toNat_word {w : Nat} (h : w < 2 ^ 32) : (BitVec.ofNat 32 w).toNat = w := by
  rw [BitVec.toNat_ofNat]
  exact Nat.mod_eq_of_lt h

theorem ext_isExt {p : Nat} (h : p < 2 ^ 26) : isExt (BitVec.ofNat 32 (0x3E * 2 ^ 26 + p)) = true := by
  rw [isExt, toNat_word (by omega), bits, beq_iff_eq]
  omega

theorem ext_pay {p : Nat} (h : p < 2 ^ 26) : bits (BitVec.ofNat 32 (0x3E * 2 ^ 26 + p)).toNat 0 26 = p := by
  rw [toNat_word (by omega), bits]
  omega

/-- The own word of an instruction: 32 bits, no extension word, and a STAMP only where it stands alone. -/
structure OwnWord (alone : Bool) (w : Nat) : Prop where
  lt : w < 2 ^ 32
  noExt : bits w 26 6 ≠ 0x3E
  noStamp : alone = true ∨ bits w 26 6 ≠ 0x3F

theorem OwnWord.not_ext {a : Bool} {w : Nat} (h : OwnWord a w) : isExt (BitVec.ofNat 32 w) = false := by
  rw [isExt, toNat_word h.lt]
  simpa using h.noExt

/-- A word below MAJ 0x3E is an own word. -/
theorem OwnWord.of_lt {a : Bool} {w : Nat} (h : w < 4160749568) : OwnWord a w where
  lt := by omega
  noExt := by
    rw [bits]
    omega
  noStamp := .inr (by
    rw [bits]
    omega)

theorem decodeLast_own {i : Instr} {ps : List Nat} {w k : Nat} (hw : OwnWord (k == 0) w) (hwf : i.wf = true)
    (he : encodeN ps.length i = some (ps, w)) (hx : extract ps w = some i) :
    decodeLast ps k (BitVec.ofNat 32 w) = .ok { instr := i, pays := ps, word := w, len := k + 1 } := by
  have h1 : (BitVec.ofNat 32 w).toNat = w := toNat_word hw.lt
  have h2 : (k != 0 && isStamp (BitVec.ofNat 32 w)) = false := by
    rcases hw.noStamp with h | h
    · have : k = 0 := by simpa using h
      simp [this]
    · have : isStamp (BitVec.ofNat 32 w) = false := by
        simp only [isStamp, h1]
        simpa using h
      simp [this]
  have h3 : decodeWord ps w = some i := by simp [decodeWord, hx, hwf, he]
  simp [decodeLast, h2, h1, h3]

/-- The words of an encoding that its entry allows decode to the instruction. -/
theorem decode_words {i : Instr} {ps : List Nat} {w : Nat} (hl : ps.length ≤ 2) (hp : ∀ p ∈ ps, p < 2 ^ 26)
    (hw : OwnWord (ps.length == 0) w) (hwf : i.wf = true) (he : encodeN ps.length i = some (ps, w)) (hx : extract ps w = some i) :
    ∃ d, decode (words (ps, w)) = .ok d ∧ d.instr = i ∧ d.len = (words (ps, w)).length := by
  have hd := decodeLast_own hw hwf he hx
  clear he hx hwf
  have hn := hw.not_ext
  rcases ps with _ | ⟨p, _ | ⟨q, _ | ⟨x, r⟩⟩⟩
  · refine ⟨_, Eq.trans ?_ hd, rfl, rfl⟩
    simp only [words, List.map, List.nil_append, decode, hn, Bool.false_eq_true, if_false, List.length_nil]
  · have h1 : p < 2 ^ 26 := hp p (by simp)
    refine ⟨_, Eq.trans ?_ hd, rfl, rfl⟩
    simp only [words, List.map, List.cons_append, List.nil_append, decode, ext_isExt h1, hn, if_true, ext_pay h1, Bool.false_eq_true, if_false, List.length_cons, List.length_nil]
  · have h1 : p < 2 ^ 26 := hp p (by simp)
    have h2 : q < 2 ^ 26 := hp q (by simp)
    refine ⟨_, Eq.trans ?_ hd, rfl, rfl⟩
    simp only [words, List.map, List.cons_append, List.nil_append, decode, ext_isExt h1, ext_isExt h2, hn, if_true, ext_pay h1, ext_pay h2, Bool.false_eq_true, if_false, List.length_cons, List.length_nil]
  · simp at hl

/-! ## The number of extension words (R135) -/

theorem fits_of {n : Nat} {i : Instr} {ps : List Nat} {w : Nat} (he : encodeN n i = some (ps, w)) (hx : extract ps w = some i) :
    fits n i = true := by simp [fits, he, hx]
theorem of_fits {n : Nat} {i : Instr} {ps : List Nat} {w : Nat} (he : encodeN n i = some (ps, w)) (hf : fits n i = true) :
    extract ps w = some i := by simpa [fits, he] using hf
theorem not_fits {n : Nat} {i : Instr} (he : encodeN n i = none) : fits n i = false := by simp [fits, he]

/-- An entry without extension words. -/
theorem of0 {i : Instr} {w : Nat} (hwf : i.wf = true) (he : encodeN 0 i = some ([], w)) (hw : OwnWord true w) (hx : extract [] w = some i) :
    ∃ d, decode (encode i) = .ok d ∧ d.instr = i ∧ d.len = (encode i).length := by
  have : encode i = words ([], w) := by simp [encode, fits_of he hx, he]
  rw [this]
  exact decode_words (by simp) (by simp) hw hwf he hx
/-- An entry with exactly one. -/
theorem of1 {i : Instr} {p w : Nat} (hwf : i.wf = true) (h0 : encodeN 0 i = none) (he : encodeN 1 i = some ([p], w)) (hp : p < 2 ^ 26)
    (hw : OwnWord false w) (hx : extract [p] w = some i) : ∃ d, decode (encode i) = .ok d ∧ d.instr = i ∧ d.len = (encode i).length := by
  have : encode i = words ([p], w) := by simp [encode, not_fits h0, fits_of he hx, he]
  rw [this]
  exact decode_words (by simp) (by simpa using hp) hw hwf he hx
/-- An entry with exactly two. -/
theorem of2 {i : Instr} {e p w : Nat} (hwf : i.wf = true) (h0 : encodeN 0 i = none) (h1 : encodeN 1 i = none)
    (he : encodeN 2 i = some ([e, p], w)) (h2 : e < 2 ^ 26) (hp : p < 2 ^ 26) (hw : OwnWord false w) (hx : extract [e, p] w = some i) :
    ∃ d, decode (encode i) = .ok d ∧ d.instr = i ∧ d.len = (encode i).length := by
  have : encode i = words ([e, p], w) := by simp [encode, not_fits h0, not_fits h1, he]
  rw [this]
  exact decode_words (by simp) (by simpa using ⟨h2, hp⟩) hw hwf he hx
/-- An entry with none or one. -/
theorem of01 {i : Instr} {p w : Nat} (hwf : i.wf = true) (h0 : encodeN 0 i = some ([], w)) (he : encodeN 1 i = some ([p], w)) (hp : p < 2 ^ 26)
    (hw : OwnWord false w) (hx : extract [p] w = some i) : ∃ d, decode (encode i) = .ok d ∧ d.instr = i ∧ d.len = (encode i).length := by
  by_cases hf : fits 0 i = true
  · exact of0 hwf h0 ⟨hw.lt, hw.noExt, .inl rfl⟩ (of_fits h0 hf)
  · have : encode i = words ([p], w) := by simp [encode, hf, fits_of he hx, he]
    rw [this]
    exact decode_words (by simp) (by simpa using hp) hw hwf he hx
/-- An entry with one or two: one of them encodes the operands. -/
theorem of12 {i : Instr} {e p w : Nat} (hwf : i.wf = true) (h0 : encodeN 0 i = none) (h1 : encodeN 1 i = some ([p], w))
    (he : encodeN 2 i = some ([e, p], w)) (h2 : e < 2 ^ 26) (hp : p < 2 ^ 26) (hw : OwnWord false w)
    (hx : extract [p] w = some i ∨ extract [e, p] w = some i) : ∃ d, decode (encode i) = .ok d ∧ d.instr = i ∧ d.len = (encode i).length := by
  by_cases hf : fits 1 i = true
  · have : encode i = words ([p], w) := by simp [encode, not_fits h0, hf, h1]
    rw [this]
    exact decode_words (by simp) (by simpa using hp) hw hwf h1 (of_fits h1 hf)
  · have hx2 : extract [e, p] w = some i := hx.resolve_left (fun h => hf (fits_of h1 h))
    have : encode i = words ([e, p], w) := by simp [encode, not_fits h0, hf, he]
    rw [this]
    exact decode_words (by simp) (by simpa using ⟨h2, hp⟩) hw hwf he hx2
/-- An entry with none, one or two: two encode every operand. -/
theorem of012 {i : Instr} {e p w : Nat} (hwf : i.wf = true) (h0 : encodeN 0 i = some ([], w)) (h1 : encodeN 1 i = some ([p], w))
    (he : encodeN 2 i = some ([e, p], w)) (h2 : e < 2 ^ 26) (hp : p < 2 ^ 26) (hw : OwnWord false w)
    (hx : extract [e, p] w = some i) : ∃ d, decode (encode i) = .ok d ∧ d.instr = i ∧ d.len = (encode i).length := by
  by_cases hf0 : fits 0 i = true
  · exact of0 hwf h0 ⟨hw.lt, hw.noExt, .inl rfl⟩ (of_fits h0 hf0)
  by_cases hf : fits 1 i = true
  · have : encode i = words ([p], w) := by simp [encode, hf0, hf, h1]
    rw [this]
    exact decode_words (by simp) (by simpa using hp) hw hwf h1 (of_fits h1 hf)
  · have : encode i = words ([e, p], w) := by simp [encode, hf0, hf, he]
    rw [this]
    exact decode_words (by simp) (by simpa using ⟨h2, hp⟩) hw hwf he hx

/-- A lane type has an identifier of five bits. -/
theorem isLane_lt {ty : Nat} (h : isLane ty = true) : ty < 32 := by
  unfold isLane laneWidth at h
  split at h <;> first | omega | simp at h

set_option linter.unusedSimpArgs false

/-! ## A word laid out in fields -/

/-- The word whose fields, from bit 0 up, have these widths and values. -/
def pack : List (Nat × Nat) → Nat
  | [] => 0
  | (n, v) :: r => v + 2 ^ n * pack r
/-- Every value fits its width. -/
def Fitting : List (Nat × Nat) → Prop
  | [] => True
  | (n, v) :: r => v < 2 ^ n ∧ Fitting r
/-- From bit `lo` up, `w` holds these fields. -/
def Holds (w : Nat) : Nat → List (Nat × Nat) → Prop
  | _, [] => True
  | lo, (n, v) :: r => bits w lo n = v ∧ Holds w (lo + n) r

theorem holds_of {w : Nat} : ∀ {fs : List (Nat × Nat)} {lo : Nat}, Fitting fs → w / 2 ^ lo = pack fs → Holds w lo fs
  | [], _, _, _ => trivial
  | (n, v) :: r, lo, hf, hw => by
    have hp : 0 < 2 ^ n := Nat.two_pow_pos n
    refine ⟨?_, holds_of hf.2 ?_⟩
    · rw [bits, hw, pack, Nat.add_mul_mod_self_left, Nat.mod_eq_of_lt hf.1]
    · rw [pow_add, ← Nat.div_div_eq_div_mul, hw, pack, Nat.add_mul_div_left _ _ hp, Nat.div_eq_of_lt hf.1, Nat.zero_add]
/-- A word that is the sum of its fields holds each of them. -/
theorem holds_pack {w : Nat} {fs : List (Nat × Nat)} (hf : Fitting fs) (hw : w = pack fs) : Holds w 0 fs :=
  holds_of hf (by rw [pow_zero, Nat.div_one, hw])

/-! ## Shapes of words -/

theorem sr_word {maj fn d s t c W : Nat} (hm : maj < 2) (hd : d < 32) (hs : s < 32) (ht : t < 32) (hc : c < 32) (hf : fn < 64)
    (hW : W = maj * 2 ^ 26 + d * 2 ^ 21 + s * 2 ^ 16 + t * 2 ^ 11 + c * 2 ^ 6 + fn) :
    OwnWord true W ∧ extract [] W = if maj = 0 then sr0 fn d s t c else sr1 fn d s t := by
  have kW : Holds W 0 [(6, fn), (5, c), (5, t), (5, s), (5, d), (6, maj)] := holds_pack (by simp only [Fitting, and_true]; omega) (by rw [hW]; simp only [pack]; ring)
  have s1 : bits W 26 6 = maj := kW.2.2.2.2.2.1
  have s2 : bits W 21 5 = d := kW.2.2.2.2.1
  have s3 : bits W 16 5 = s := kW.2.2.2.1
  have s4 : bits W 11 5 = t := kW.2.2.1
  have s5 : bits W 6 5 = c := kW.2.1
  have s6 : bits W 0 6 = fn := kW.1
  refine ⟨.of_lt (by omega), ?_⟩
  have : maj = 0 ∨ maj = 1 := by omega
  rcases this with h | h <;> subst h <;> simp [extract, scalarWord, s1, s2, s3, s4, s5, s6]

theorem sext_field {n : Nat} (h : 0 < n) (o : Int) (h1 : -(2 ^ (n - 1) : Int) ≤ o) (h2 : o < 2 ^ (n - 1)) : sext n (field n o) = o := by
  have e : (2 : Int) ^ n = 2 * 2 ^ (n - 1) := by
    rw [← pow_succ']
    congr 1
    omega
  have hp : (0 : Int) < 2 ^ (n - 1) := by positivity
  have hm : (0 : Int) ≤ o % 2 ^ n := Int.emod_nonneg _ (by omega)
  have c : ((field n o : Nat) : Int) = o % 2 ^ n := by simp [field, Int.toNat_of_nonneg hm]
  rw [sext]
  rcases lt_or_ge o 0 with hneg | hpos
  · have hv : o % 2 ^ n = o + 2 ^ n := by
      rw [← Int.add_emod_right]
      exact Int.emod_eq_of_lt (by omega) (by omega)
    have : ¬ field n o < 2 ^ (n - 1) := by
      intro hlt
      have : ((field n o : Nat) : Int) < 2 ^ (n - 1) := by exact_mod_cast hlt
      omega
    rw [if_neg this, c, hv]
    omega
  · have hv : o % 2 ^ n = o := Int.emod_eq_of_lt hpos (by omega)
    have : field n o < 2 ^ (n - 1) := by
      have : ((field n o : Nat) : Int) < 2 ^ (n - 1) := by omega
      exact_mod_cast this
    rw [if_pos this, c, hv]

theorem field_lt (n : Nat) (o : Int) : field n o < 2 ^ n := by
  have hp : (0 : Int) < 2 ^ n := by positivity
  have h1 : (0 : Int) ≤ o % 2 ^ n := Int.emod_nonneg _ (by omega)
  have h2 : o % 2 ^ n < 2 ^ n := Int.emod_lt_of_pos _ hp
  have c : ((field n o : Nat) : Int) = o % 2 ^ n := by simp [field, Int.toNat_of_nonneg h1]
  have : ((field n o : Nat) : Int) < 2 ^ n := by omega
  exact_mod_cast this

/-- Two extension words hold every 64-bit immediate. -/
theorem imm_two (v : Word) (W : Nat) (hW : bits W 0 16 = v.toNat % 2 ^ 16) :
    immSigned [v.toNat / 2 ^ 42 % 2 ^ 22, v.toNat / 2 ^ 16 % 2 ^ 26] W = v ∧
    immZero [v.toNat / 2 ^ 42 % 2 ^ 22, v.toNat / 2 ^ 16 % 2 ^ 26] W = v := by
  have hv := v.isLt
  have hb : immBits [v.toNat / 2 ^ 42 % 2 ^ 22, v.toNat / 2 ^ 16 % 2 ^ 26] W = v.toNat := by
    simp only [immBits, payX, payFar, payNear, hW]
    omega
  have hm : v.toNat % 2 ^ 64 = v.toNat := Nat.mod_eq_of_lt hv
  constructor
  · simp only [immSigned, immLen, List.length_cons, List.length_nil, hb, hm, sext]
    apply BitVec.eq_of_toInt_eq
    rw [BitVec.toInt_ofInt, BitVec.toInt_eq_toNat_cond]
    split <;> rename_i h1 <;> split <;> rename_i h2
    · simp only [Int.bmod]; omega
    · omega
    · omega
    · simp only [Int.bmod]; omega
  · simp only [immZero, immLen, List.length_cons, List.length_nil, hb, hm, BitVec.ofNat_toNat, BitVec.setWidth_eq]

theorem si_word {maj d s : Nat} {v : Word} {W : Nat} (hm : maj < 16) (hd : d < 32) (hs : s < 32)
    (hW : W = maj * 2 ^ 26 + d * 2 ^ 21 + s * 2 ^ 16 + v.toNat % 2 ^ 16) :
    W < 4160749568 ∧ bits W 26 6 = maj ∧ bits W 21 5 = d ∧ bits W 16 5 = s ∧ bits W 0 16 = v.toNat % 2 ^ 16 := by
  refine ⟨?_, ?_, ?_, ?_, ?_⟩ <;> (try rw [bits]) <;> omega

theorem ld_word {maj sz d s b : Nat} {o : Int} {W P : Nat} (hm : 9 ≤ maj ∧ maj ≤ 11) (hz : sz < 4) (hd : d < 32) (hs : s < 32) (hb : b < 64)
    (h1 : -(2 ^ 33 : Int) ≤ o) (h2 : o < (2 ^ 33 : Int)) (hP : P = field 34 o / 2 ^ 8)
    (hW : W = maj * 2 ^ 26 + d * 2 ^ 21 + s * 2 ^ 16 + sz * 2 ^ 14 + b * 2 ^ 8 + field 34 o % 2 ^ 8) :
    P < 2 ^ 26 ∧ W < 4160749568 ∧ extract [P] W = ldst3 maj sz d s b o := by
  have hf := field_lt 34 o
  have hx := sext_field (n := 34) (by omega) o (by simpa using h1) (by simpa using h2)
  have s1 : bits W 26 6 = maj := by rw [bits]; omega
  have s2 : bits W 21 5 = d := by rw [bits]; omega
  have s3 : bits W 16 5 = s := by rw [bits]; omega
  have s4 : bits W 14 2 = sz := by rw [bits]; omega
  have s5 : bits W 8 6 = b := by rw [bits]; omega
  have s6 : P * 2 ^ 8 + bits W 0 8 = field 34 o := by rw [bits]; omega
  refine ⟨by omega, by omega, ?_⟩
  have hl : ldDisp [P] W = o := by
    show sext 34 (P * 2 ^ 8 + bits W 0 8) = o
    rw [s6, hx]
  have : maj = 9 ∨ maj = 10 ∨ maj = 11 := by omega
  rcases this with h | h | h <;> subst h <;> simp [extract, scalarWord, s1, s2, s3, s4, s5, hl]

theorem sb_word {cond s t : Nat} {o : Int} {W P : Nat} (hc : cond < 16) (hs : s < 32) (ht : t < 32)
    (h1 : -(2 ^ 37 : Int) ≤ o) (h2 : o < (2 ^ 37 : Int)) (hP : P = field 38 o / 2 ^ 12)
    (hW : W = 12 * 2 ^ 26 + cond * 2 ^ 22 + s * 2 ^ 17 + t * 2 ^ 12 + field 38 o % 2 ^ 12) :
    P < 2 ^ 26 ∧ W < 4160749568 ∧ extract [P] W = branch6 cond s t o := by
  have hf := field_lt 38 o
  have hx := sext_field (n := 38) (by omega) o (by simpa using h1) (by simpa using h2)
  have s1 : bits W 26 6 = 12 := by rw [bits]; omega
  have s2 : bits W 22 4 = cond := by rw [bits]; omega
  have s3 : bits W 17 5 = s := by rw [bits]; omega
  have s4 : bits W 12 5 = t := by rw [bits]; omega
  have s6 : P * 2 ^ 12 + bits W 0 12 = field 38 o := by rw [bits]; omega
  refine ⟨by omega, by omega, ?_⟩
  have hl : brOff [P] W = o := by
    show sext 38 (P * 2 ^ 12 + bits W 0 12) = o
    rw [s6, hx]
  simp [extract, scalarWord, s1, s2, s3, s4, hl]

/-- The fields of a word of MAJ 0x10 to 0x13. -/
theorem sy_word {maj fn op W : Nat} (h1 : 16 ≤ maj) (h2 : maj ≤ 19) (hf : fn < 256) (ho : op < 2 ^ 18)
    (hW : W = maj * 2 ^ 26 + fn * 2 ^ 18 + op) :
    W < 4160749568 ∧ (∀ lo len, lo + len ≤ 18 → bits W lo len = bits op lo len) ∧ ∀ ps, extract ps W = syWord maj fn ps W := by
  have s1 : bits W 26 6 = maj := by rw [bits]; omega
  have s2 : bits W 18 8 = fn := by rw [bits]; omega
  refine ⟨by omega, ?_, ?_⟩
  · intro lo len h
    have hd : W = op + 2 ^ lo * (2 ^ len * (2 ^ (18 - lo - len) * (maj * 2 ^ 8 + fn))) := by
      have e : 2 ^ lo * (2 ^ len * 2 ^ (18 - lo - len)) = 2 ^ 18 := by
        rw [← pow_add, ← pow_add]
        congr 1
        omega
      calc W = op + 2 ^ 18 * (maj * 2 ^ 8 + fn) := by omega
        _ = _ := by rw [← e]; ring
    rw [bits, bits, hd, Nat.add_mul_div_left _ _ (by positivity), Nat.add_mul_mod_self_left]
  · intro ps
    have : maj = 16 ∨ maj = 17 ∨ maj = 18 ∨ maj = 19 := by omega
    rcases this with h | h | h | h <;> subst h <;> simp [extract, scalarWord, s1, s2]

/-- The general VX layout under one extension word. -/
theorem vx_word {maj fn : Nat} {c : Ctl} {x : VX} {W P : Nat} (hm : 45 ≤ maj ∧ maj ≤ 56 ∧ maj ≠ 51 ∧ maj ≠ 52 ∧ maj ≠ 53) (hf : fn < 16)
    (hc : c.wf = true) (hx : x.wf false = true) (hW : W = x.word maj c) (hP : P = x.ctlX fn) :
    P < 2 ^ 26 ∧ W < 4160749568 ∧ extract [P] W = vxWord maj fn c x := by
  simp only [Ctl.wf, VX.wf, Bool.and_eq_true, decide_eq_true_eq, Bool.false_eq_true, if_false, beq_iff_eq] at hc hx
  simp only [VX.word, engWord] at hW
  simp only [VX.ctlX] at hP
  have kW : Holds W 0 [(6, x.vb), (6, x.va), (6, x.vd), (3, c.tq), (3, c.gap), (2, c.tk), (6, maj)] := holds_pack (by simp only [Fitting, and_true]; omega) (by rw [hW]; simp only [pack]; ring)
  have s1 : bits W 26 6 = maj := kW.2.2.2.2.2.2.1
  have s2 : bits W 24 2 = c.tk := kW.2.2.2.2.2.1
  have s3 : bits W 21 3 = c.gap := kW.2.2.2.2.1
  have s4 : bits W 18 3 = c.tq := kW.2.2.2.1
  have s5 : bits W 12 6 = x.vd := kW.2.2.1
  have s6 : bits W 6 6 = x.va := kW.2.1
  have s7 : bits W 0 6 = x.vb := kW.1
  have kP : Holds P 0 [(4, x.opt), (6, x.vc), (4, fn), (1, x.nosat), (3, x.rm), (3, x.km), (5, x.ty)] := holds_pack (by simp only [Fitting, and_true]; omega) (by rw [hP]; simp only [pack]; ring)
  have p1 : bits P 21 5 = x.ty := kP.2.2.2.2.2.2.1
  have p2 : bits P 18 3 = x.km := kP.2.2.2.2.2.1
  have p3 : bits P 15 3 = x.rm := kP.2.2.2.2.1
  have p4 : bits P 14 1 = x.nosat := kP.2.2.2.1
  have p5 : bits P 10 4 = fn := kP.2.2.1
  have p6 : bits P 4 6 = x.vc := kP.2.1
  have p7 : bits P 0 4 = x.opt := kP.1
  have he : x.ext = 0 := hx.2
  have hv : vxOf [P] W = x := by
    cases x
    simp only [vxOf, payNear, payFar, s5, s6, s7, p1, p2, p3, p4, p6, p7]
    simpa using he.symm
  have hk : ctlOf W = c := by simp only [ctlOf, s2, s3, s4]
  refine ⟨by omega, by omega, ?_⟩
  have n1 : ¬ maj < 32 := by omega
  have n2 : ¬ maj < 45 := by omega
  have n3 : maj < 57 := by omega
  simp [extract, s1, n1, n2, n3, hm.2.2.1, hm.2.2.2.1, hm.2.2.2.2, show maj ≠ 57 by omega, hv, hk, payNear, p5]

/-! ## One lemma per constructor -/

theorem RoundTrip.add (rd rs rt : Nat) : RoundTrip.Statement (.add rd rs rt) := by
  intro hy
  have hwf := hy
  change ((sr3 rd rs rt : Bool)) = true at hy
  simp only [Ctl.wf, VX.wf, VX.wfArith, VX.wfTrans, VX.wfLogic, VX.wfMod, VX.wfNtt, VX.wfMovk, VMem.wf, VMem.wfLd, CopyIn.wf, CopyOut.wf, SyncOp.wf, AtomOp.wf, VAtom.wf, Exch.wf, MmaOp.wf, sr3, ldst, brOk, siOk, Bool.and_eq_true, Bool.or_eq_true, decide_eq_true_eq, beq_iff_eq, bne_iff_ne, ne_eq, if_true, if_false, Bool.false_eq_true, Bool.not_true, Bool.not_false, Bool.true_or, Bool.false_or, Bool.true_and] at hy
  have k := sr_word (maj := 0) (fn := 0) (d := rd) (s := rs) (t := rt) (c := 0) (by omega) (by omega) (by omega) (by omega) (by omega) (by omega) rfl
  exact of0 hwf rfl k.1 (by rw [k.2]; rfl)

theorem RoundTrip.sub (rd rs rt : Nat) : RoundTrip.Statement (.sub rd rs rt) := by
  intro hy
  have hwf := hy
  change ((sr3 rd rs rt : Bool)) = true at hy
  simp only [Ctl.wf, VX.wf, VX.wfArith, VX.wfTrans, VX.wfLogic, VX.wfMod, VX.wfNtt, VX.wfMovk, VMem.wf, VMem.wfLd, CopyIn.wf, CopyOut.wf, SyncOp.wf, AtomOp.wf, VAtom.wf, Exch.wf, MmaOp.wf, sr3, ldst, brOk, siOk, Bool.and_eq_true, Bool.or_eq_true, decide_eq_true_eq, beq_iff_eq, bne_iff_ne, ne_eq, if_true, if_false, Bool.false_eq_true, Bool.not_true, Bool.not_false, Bool.true_or, Bool.false_or, Bool.true_and] at hy
  have k := sr_word (maj := 0) (fn := 1) (d := rd) (s := rs) (t := rt) (c := 0) (by omega) (by omega) (by omega) (by omega) (by omega) (by omega) rfl
  exact of0 hwf rfl k.1 (by rw [k.2]; rfl)

theorem RoundTrip.and (rd rs rt : Nat) : RoundTrip.Statement (.and rd rs rt) := by
  intro hy
  have hwf := hy
  change ((sr3 rd rs rt : Bool)) = true at hy
  simp only [Ctl.wf, VX.wf, VX.wfArith, VX.wfTrans, VX.wfLogic, VX.wfMod, VX.wfNtt, VX.wfMovk, VMem.wf, VMem.wfLd, CopyIn.wf, CopyOut.wf, SyncOp.wf, AtomOp.wf, VAtom.wf, Exch.wf, MmaOp.wf, sr3, ldst, brOk, siOk, Bool.and_eq_true, Bool.or_eq_true, decide_eq_true_eq, beq_iff_eq, bne_iff_ne, ne_eq, if_true, if_false, Bool.false_eq_true, Bool.not_true, Bool.not_false, Bool.true_or, Bool.false_or, Bool.true_and] at hy
  have k := sr_word (maj := 0) (fn := 2) (d := rd) (s := rs) (t := rt) (c := 0) (by omega) (by omega) (by omega) (by omega) (by omega) (by omega) rfl
  exact of0 hwf rfl k.1 (by rw [k.2]; rfl)

theorem RoundTrip.or (rd rs rt : Nat) : RoundTrip.Statement (.or rd rs rt) := by
  intro hy
  have hwf := hy
  change ((sr3 rd rs rt : Bool)) = true at hy
  simp only [Ctl.wf, VX.wf, VX.wfArith, VX.wfTrans, VX.wfLogic, VX.wfMod, VX.wfNtt, VX.wfMovk, VMem.wf, VMem.wfLd, CopyIn.wf, CopyOut.wf, SyncOp.wf, AtomOp.wf, VAtom.wf, Exch.wf, MmaOp.wf, sr3, ldst, brOk, siOk, Bool.and_eq_true, Bool.or_eq_true, decide_eq_true_eq, beq_iff_eq, bne_iff_ne, ne_eq, if_true, if_false, Bool.false_eq_true, Bool.not_true, Bool.not_false, Bool.true_or, Bool.false_or, Bool.true_and] at hy
  have k := sr_word (maj := 0) (fn := 3) (d := rd) (s := rs) (t := rt) (c := 0) (by omega) (by omega) (by omega) (by omega) (by omega) (by omega) rfl
  exact of0 hwf rfl k.1 (by rw [k.2]; rfl)

theorem RoundTrip.xor (rd rs rt : Nat) : RoundTrip.Statement (.xor rd rs rt) := by
  intro hy
  have hwf := hy
  change ((sr3 rd rs rt : Bool)) = true at hy
  simp only [Ctl.wf, VX.wf, VX.wfArith, VX.wfTrans, VX.wfLogic, VX.wfMod, VX.wfNtt, VX.wfMovk, VMem.wf, VMem.wfLd, CopyIn.wf, CopyOut.wf, SyncOp.wf, AtomOp.wf, VAtom.wf, Exch.wf, MmaOp.wf, sr3, ldst, brOk, siOk, Bool.and_eq_true, Bool.or_eq_true, decide_eq_true_eq, beq_iff_eq, bne_iff_ne, ne_eq, if_true, if_false, Bool.false_eq_true, Bool.not_true, Bool.not_false, Bool.true_or, Bool.false_or, Bool.true_and] at hy
  have k := sr_word (maj := 0) (fn := 4) (d := rd) (s := rs) (t := rt) (c := 0) (by omega) (by omega) (by omega) (by omega) (by omega) (by omega) rfl
  exact of0 hwf rfl k.1 (by rw [k.2]; rfl)

theorem RoundTrip.shl (rd rs rt : Nat) : RoundTrip.Statement (.shl rd rs rt) := by
  intro hy
  have hwf := hy
  change ((sr3 rd rs rt : Bool)) = true at hy
  simp only [Ctl.wf, VX.wf, VX.wfArith, VX.wfTrans, VX.wfLogic, VX.wfMod, VX.wfNtt, VX.wfMovk, VMem.wf, VMem.wfLd, CopyIn.wf, CopyOut.wf, SyncOp.wf, AtomOp.wf, VAtom.wf, Exch.wf, MmaOp.wf, sr3, ldst, brOk, siOk, Bool.and_eq_true, Bool.or_eq_true, decide_eq_true_eq, beq_iff_eq, bne_iff_ne, ne_eq, if_true, if_false, Bool.false_eq_true, Bool.not_true, Bool.not_false, Bool.true_or, Bool.false_or, Bool.true_and] at hy
  have k := sr_word (maj := 0) (fn := 5) (d := rd) (s := rs) (t := rt) (c := 0) (by omega) (by omega) (by omega) (by omega) (by omega) (by omega) rfl
  exact of0 hwf rfl k.1 (by rw [k.2]; rfl)

theorem RoundTrip.shr (rd rs rt : Nat) : RoundTrip.Statement (.shr rd rs rt) := by
  intro hy
  have hwf := hy
  change ((sr3 rd rs rt : Bool)) = true at hy
  simp only [Ctl.wf, VX.wf, VX.wfArith, VX.wfTrans, VX.wfLogic, VX.wfMod, VX.wfNtt, VX.wfMovk, VMem.wf, VMem.wfLd, CopyIn.wf, CopyOut.wf, SyncOp.wf, AtomOp.wf, VAtom.wf, Exch.wf, MmaOp.wf, sr3, ldst, brOk, siOk, Bool.and_eq_true, Bool.or_eq_true, decide_eq_true_eq, beq_iff_eq, bne_iff_ne, ne_eq, if_true, if_false, Bool.false_eq_true, Bool.not_true, Bool.not_false, Bool.true_or, Bool.false_or, Bool.true_and] at hy
  have k := sr_word (maj := 0) (fn := 6) (d := rd) (s := rs) (t := rt) (c := 0) (by omega) (by omega) (by omega) (by omega) (by omega) (by omega) rfl
  exact of0 hwf rfl k.1 (by rw [k.2]; rfl)

theorem RoundTrip.sra (rd rs rt : Nat) : RoundTrip.Statement (.sra rd rs rt) := by
  intro hy
  have hwf := hy
  change ((sr3 rd rs rt : Bool)) = true at hy
  simp only [Ctl.wf, VX.wf, VX.wfArith, VX.wfTrans, VX.wfLogic, VX.wfMod, VX.wfNtt, VX.wfMovk, VMem.wf, VMem.wfLd, CopyIn.wf, CopyOut.wf, SyncOp.wf, AtomOp.wf, VAtom.wf, Exch.wf, MmaOp.wf, sr3, ldst, brOk, siOk, Bool.and_eq_true, Bool.or_eq_true, decide_eq_true_eq, beq_iff_eq, bne_iff_ne, ne_eq, if_true, if_false, Bool.false_eq_true, Bool.not_true, Bool.not_false, Bool.true_or, Bool.false_or, Bool.true_and] at hy
  have k := sr_word (maj := 0) (fn := 7) (d := rd) (s := rs) (t := rt) (c := 0) (by omega) (by omega) (by omega) (by omega) (by omega) (by omega) rfl
  exact of0 hwf rfl k.1 (by rw [k.2]; rfl)

theorem RoundTrip.slt (rd rs rt : Nat) : RoundTrip.Statement (.slt rd rs rt) := by
  intro hy
  have hwf := hy
  change ((sr3 rd rs rt : Bool)) = true at hy
  simp only [Ctl.wf, VX.wf, VX.wfArith, VX.wfTrans, VX.wfLogic, VX.wfMod, VX.wfNtt, VX.wfMovk, VMem.wf, VMem.wfLd, CopyIn.wf, CopyOut.wf, SyncOp.wf, AtomOp.wf, VAtom.wf, Exch.wf, MmaOp.wf, sr3, ldst, brOk, siOk, Bool.and_eq_true, Bool.or_eq_true, decide_eq_true_eq, beq_iff_eq, bne_iff_ne, ne_eq, if_true, if_false, Bool.false_eq_true, Bool.not_true, Bool.not_false, Bool.true_or, Bool.false_or, Bool.true_and] at hy
  have k := sr_word (maj := 0) (fn := 8) (d := rd) (s := rs) (t := rt) (c := 0) (by omega) (by omega) (by omega) (by omega) (by omega) (by omega) rfl
  exact of0 hwf rfl k.1 (by rw [k.2]; rfl)

theorem RoundTrip.sltn (rd rs rt : Nat) : RoundTrip.Statement (.sltn rd rs rt) := by
  intro hy
  have hwf := hy
  change ((sr3 rd rs rt : Bool)) = true at hy
  simp only [Ctl.wf, VX.wf, VX.wfArith, VX.wfTrans, VX.wfLogic, VX.wfMod, VX.wfNtt, VX.wfMovk, VMem.wf, VMem.wfLd, CopyIn.wf, CopyOut.wf, SyncOp.wf, AtomOp.wf, VAtom.wf, Exch.wf, MmaOp.wf, sr3, ldst, brOk, siOk, Bool.and_eq_true, Bool.or_eq_true, decide_eq_true_eq, beq_iff_eq, bne_iff_ne, ne_eq, if_true, if_false, Bool.false_eq_true, Bool.not_true, Bool.not_false, Bool.true_or, Bool.false_or, Bool.true_and] at hy
  have k := sr_word (maj := 0) (fn := 9) (d := rd) (s := rs) (t := rt) (c := 0) (by omega) (by omega) (by omega) (by omega) (by omega) (by omega) rfl
  exact of0 hwf rfl k.1 (by rw [k.2]; rfl)

theorem RoundTrip.min (rd rs rt : Nat) : RoundTrip.Statement (.min rd rs rt) := by
  intro hy
  have hwf := hy
  change ((sr3 rd rs rt : Bool)) = true at hy
  simp only [Ctl.wf, VX.wf, VX.wfArith, VX.wfTrans, VX.wfLogic, VX.wfMod, VX.wfNtt, VX.wfMovk, VMem.wf, VMem.wfLd, CopyIn.wf, CopyOut.wf, SyncOp.wf, AtomOp.wf, VAtom.wf, Exch.wf, MmaOp.wf, sr3, ldst, brOk, siOk, Bool.and_eq_true, Bool.or_eq_true, decide_eq_true_eq, beq_iff_eq, bne_iff_ne, ne_eq, if_true, if_false, Bool.false_eq_true, Bool.not_true, Bool.not_false, Bool.true_or, Bool.false_or, Bool.true_and] at hy
  have k := sr_word (maj := 0) (fn := 10) (d := rd) (s := rs) (t := rt) (c := 0) (by omega) (by omega) (by omega) (by omega) (by omega) (by omega) rfl
  exact of0 hwf rfl k.1 (by rw [k.2]; rfl)

theorem RoundTrip.max (rd rs rt : Nat) : RoundTrip.Statement (.max rd rs rt) := by
  intro hy
  have hwf := hy
  change ((sr3 rd rs rt : Bool)) = true at hy
  simp only [Ctl.wf, VX.wf, VX.wfArith, VX.wfTrans, VX.wfLogic, VX.wfMod, VX.wfNtt, VX.wfMovk, VMem.wf, VMem.wfLd, CopyIn.wf, CopyOut.wf, SyncOp.wf, AtomOp.wf, VAtom.wf, Exch.wf, MmaOp.wf, sr3, ldst, brOk, siOk, Bool.and_eq_true, Bool.or_eq_true, decide_eq_true_eq, beq_iff_eq, bne_iff_ne, ne_eq, if_true, if_false, Bool.false_eq_true, Bool.not_true, Bool.not_false, Bool.true_or, Bool.false_or, Bool.true_and] at hy
  have k := sr_word (maj := 0) (fn := 11) (d := rd) (s := rs) (t := rt) (c := 0) (by omega) (by omega) (by omega) (by omega) (by omega) (by omega) rfl
  exact of0 hwf rfl k.1 (by rw [k.2]; rfl)

theorem RoundTrip.minn (rd rs rt : Nat) : RoundTrip.Statement (.minn rd rs rt) := by
  intro hy
  have hwf := hy
  change ((sr3 rd rs rt : Bool)) = true at hy
  simp only [Ctl.wf, VX.wf, VX.wfArith, VX.wfTrans, VX.wfLogic, VX.wfMod, VX.wfNtt, VX.wfMovk, VMem.wf, VMem.wfLd, CopyIn.wf, CopyOut.wf, SyncOp.wf, AtomOp.wf, VAtom.wf, Exch.wf, MmaOp.wf, sr3, ldst, brOk, siOk, Bool.and_eq_true, Bool.or_eq_true, decide_eq_true_eq, beq_iff_eq, bne_iff_ne, ne_eq, if_true, if_false, Bool.false_eq_true, Bool.not_true, Bool.not_false, Bool.true_or, Bool.false_or, Bool.true_and] at hy
  have k := sr_word (maj := 0) (fn := 12) (d := rd) (s := rs) (t := rt) (c := 0) (by omega) (by omega) (by omega) (by omega) (by omega) (by omega) rfl
  exact of0 hwf rfl k.1 (by rw [k.2]; rfl)

theorem RoundTrip.maxn (rd rs rt : Nat) : RoundTrip.Statement (.maxn rd rs rt) := by
  intro hy
  have hwf := hy
  change ((sr3 rd rs rt : Bool)) = true at hy
  simp only [Ctl.wf, VX.wf, VX.wfArith, VX.wfTrans, VX.wfLogic, VX.wfMod, VX.wfNtt, VX.wfMovk, VMem.wf, VMem.wfLd, CopyIn.wf, CopyOut.wf, SyncOp.wf, AtomOp.wf, VAtom.wf, Exch.wf, MmaOp.wf, sr3, ldst, brOk, siOk, Bool.and_eq_true, Bool.or_eq_true, decide_eq_true_eq, beq_iff_eq, bne_iff_ne, ne_eq, if_true, if_false, Bool.false_eq_true, Bool.not_true, Bool.not_false, Bool.true_or, Bool.false_or, Bool.true_and] at hy
  have k := sr_word (maj := 0) (fn := 13) (d := rd) (s := rs) (t := rt) (c := 0) (by omega) (by omega) (by omega) (by omega) (by omega) (by omega) rfl
  exact of0 hwf rfl k.1 (by rw [k.2]; rfl)

theorem RoundTrip.sel (rd rc rs rt : Nat) : RoundTrip.Statement (.sel rd rc rs rt) := by
  intro hy
  have hwf := hy
  change ((sr3 rd rs rt && rc < 32 : Bool)) = true at hy
  simp only [Ctl.wf, VX.wf, VX.wfArith, VX.wfTrans, VX.wfLogic, VX.wfMod, VX.wfNtt, VX.wfMovk, VMem.wf, VMem.wfLd, CopyIn.wf, CopyOut.wf, SyncOp.wf, AtomOp.wf, VAtom.wf, Exch.wf, MmaOp.wf, sr3, ldst, brOk, siOk, Bool.and_eq_true, Bool.or_eq_true, decide_eq_true_eq, beq_iff_eq, bne_iff_ne, ne_eq, if_true, if_false, Bool.false_eq_true, Bool.not_true, Bool.not_false, Bool.true_or, Bool.false_or, Bool.true_and] at hy
  have k := sr_word (maj := 0) (fn := 14) (d := rd) (s := rs) (t := rt) (c := rc) (by omega) (by omega) (by omega) (by omega) (by omega) (by omega) rfl
  exact of0 hwf rfl k.1 (by rw [k.2]; rfl)

theorem RoundTrip.clz (rd rs : Nat) : RoundTrip.Statement (.clz rd rs) := by
  intro hy
  have hwf := hy
  change ((siOk rd rs : Bool)) = true at hy
  simp only [Ctl.wf, VX.wf, VX.wfArith, VX.wfTrans, VX.wfLogic, VX.wfMod, VX.wfNtt, VX.wfMovk, VMem.wf, VMem.wfLd, CopyIn.wf, CopyOut.wf, SyncOp.wf, AtomOp.wf, VAtom.wf, Exch.wf, MmaOp.wf, sr3, ldst, brOk, siOk, Bool.and_eq_true, Bool.or_eq_true, decide_eq_true_eq, beq_iff_eq, bne_iff_ne, ne_eq, if_true, if_false, Bool.false_eq_true, Bool.not_true, Bool.not_false, Bool.true_or, Bool.false_or, Bool.true_and] at hy
  have k := sr_word (maj := 0) (fn := 16) (d := rd) (s := rs) (t := 0) (c := 0) (by omega) (by omega) (by omega) (by omega) (by omega) (by omega) rfl
  exact of0 hwf rfl k.1 (by rw [k.2]; rfl)

theorem RoundTrip.ctz (rd rs : Nat) : RoundTrip.Statement (.ctz rd rs) := by
  intro hy
  have hwf := hy
  change ((siOk rd rs : Bool)) = true at hy
  simp only [Ctl.wf, VX.wf, VX.wfArith, VX.wfTrans, VX.wfLogic, VX.wfMod, VX.wfNtt, VX.wfMovk, VMem.wf, VMem.wfLd, CopyIn.wf, CopyOut.wf, SyncOp.wf, AtomOp.wf, VAtom.wf, Exch.wf, MmaOp.wf, sr3, ldst, brOk, siOk, Bool.and_eq_true, Bool.or_eq_true, decide_eq_true_eq, beq_iff_eq, bne_iff_ne, ne_eq, if_true, if_false, Bool.false_eq_true, Bool.not_true, Bool.not_false, Bool.true_or, Bool.false_or, Bool.true_and] at hy
  have k := sr_word (maj := 0) (fn := 17) (d := rd) (s := rs) (t := 0) (c := 0) (by omega) (by omega) (by omega) (by omega) (by omega) (by omega) rfl
  exact of0 hwf rfl k.1 (by rw [k.2]; rfl)

theorem RoundTrip.popc (rd rs : Nat) : RoundTrip.Statement (.popc rd rs) := by
  intro hy
  have hwf := hy
  change ((siOk rd rs : Bool)) = true at hy
  simp only [Ctl.wf, VX.wf, VX.wfArith, VX.wfTrans, VX.wfLogic, VX.wfMod, VX.wfNtt, VX.wfMovk, VMem.wf, VMem.wfLd, CopyIn.wf, CopyOut.wf, SyncOp.wf, AtomOp.wf, VAtom.wf, Exch.wf, MmaOp.wf, sr3, ldst, brOk, siOk, Bool.and_eq_true, Bool.or_eq_true, decide_eq_true_eq, beq_iff_eq, bne_iff_ne, ne_eq, if_true, if_false, Bool.false_eq_true, Bool.not_true, Bool.not_false, Bool.true_or, Bool.false_or, Bool.true_and] at hy
  have k := sr_word (maj := 0) (fn := 18) (d := rd) (s := rs) (t := 0) (c := 0) (by omega) (by omega) (by omega) (by omega) (by omega) (by omega) rfl
  exact of0 hwf rfl k.1 (by rw [k.2]; rfl)

theorem RoundTrip.brev (rd rs : Nat) : RoundTrip.Statement (.brev rd rs) := by
  intro hy
  have hwf := hy
  change ((siOk rd rs : Bool)) = true at hy
  simp only [Ctl.wf, VX.wf, VX.wfArith, VX.wfTrans, VX.wfLogic, VX.wfMod, VX.wfNtt, VX.wfMovk, VMem.wf, VMem.wfLd, CopyIn.wf, CopyOut.wf, SyncOp.wf, AtomOp.wf, VAtom.wf, Exch.wf, MmaOp.wf, sr3, ldst, brOk, siOk, Bool.and_eq_true, Bool.or_eq_true, decide_eq_true_eq, beq_iff_eq, bne_iff_ne, ne_eq, if_true, if_false, Bool.false_eq_true, Bool.not_true, Bool.not_false, Bool.true_or, Bool.false_or, Bool.true_and] at hy
  have k := sr_word (maj := 0) (fn := 19) (d := rd) (s := rs) (t := 0) (c := 0) (by omega) (by omega) (by omega) (by omega) (by omega) (by omega) rfl
  exact of0 hwf rfl k.1 (by rw [k.2]; rfl)

theorem RoundTrip.mul (rd rs rt : Nat) : RoundTrip.Statement (.mul rd rs rt) := by
  intro hy
  have hwf := hy
  change ((sr3 rd rs rt : Bool)) = true at hy
  simp only [Ctl.wf, VX.wf, VX.wfArith, VX.wfTrans, VX.wfLogic, VX.wfMod, VX.wfNtt, VX.wfMovk, VMem.wf, VMem.wfLd, CopyIn.wf, CopyOut.wf, SyncOp.wf, AtomOp.wf, VAtom.wf, Exch.wf, MmaOp.wf, sr3, ldst, brOk, siOk, Bool.and_eq_true, Bool.or_eq_true, decide_eq_true_eq, beq_iff_eq, bne_iff_ne, ne_eq, if_true, if_false, Bool.false_eq_true, Bool.not_true, Bool.not_false, Bool.true_or, Bool.false_or, Bool.true_and] at hy
  have k := sr_word (maj := 1) (fn := 0) (d := rd) (s := rs) (t := rt) (c := 0) (by omega) (by omega) (by omega) (by omega) (by omega) (by omega) rfl
  exact of0 hwf rfl k.1 (by rw [k.2]; rfl)

theorem RoundTrip.mulh (rd rs rt : Nat) : RoundTrip.Statement (.mulh rd rs rt) := by
  intro hy
  have hwf := hy
  change ((sr3 rd rs rt : Bool)) = true at hy
  simp only [Ctl.wf, VX.wf, VX.wfArith, VX.wfTrans, VX.wfLogic, VX.wfMod, VX.wfNtt, VX.wfMovk, VMem.wf, VMem.wfLd, CopyIn.wf, CopyOut.wf, SyncOp.wf, AtomOp.wf, VAtom.wf, Exch.wf, MmaOp.wf, sr3, ldst, brOk, siOk, Bool.and_eq_true, Bool.or_eq_true, decide_eq_true_eq, beq_iff_eq, bne_iff_ne, ne_eq, if_true, if_false, Bool.false_eq_true, Bool.not_true, Bool.not_false, Bool.true_or, Bool.false_or, Bool.true_and] at hy
  have k := sr_word (maj := 1) (fn := 1) (d := rd) (s := rs) (t := rt) (c := 0) (by omega) (by omega) (by omega) (by omega) (by omega) (by omega) rfl
  exact of0 hwf rfl k.1 (by rw [k.2]; rfl)

theorem RoundTrip.mulhn (rd rs rt : Nat) : RoundTrip.Statement (.mulhn rd rs rt) := by
  intro hy
  have hwf := hy
  change ((sr3 rd rs rt : Bool)) = true at hy
  simp only [Ctl.wf, VX.wf, VX.wfArith, VX.wfTrans, VX.wfLogic, VX.wfMod, VX.wfNtt, VX.wfMovk, VMem.wf, VMem.wfLd, CopyIn.wf, CopyOut.wf, SyncOp.wf, AtomOp.wf, VAtom.wf, Exch.wf, MmaOp.wf, sr3, ldst, brOk, siOk, Bool.and_eq_true, Bool.or_eq_true, decide_eq_true_eq, beq_iff_eq, bne_iff_ne, ne_eq, if_true, if_false, Bool.false_eq_true, Bool.not_true, Bool.not_false, Bool.true_or, Bool.false_or, Bool.true_and] at hy
  have k := sr_word (maj := 1) (fn := 2) (d := rd) (s := rs) (t := rt) (c := 0) (by omega) (by omega) (by omega) (by omega) (by omega) (by omega) rfl
  exact of0 hwf rfl k.1 (by rw [k.2]; rfl)

theorem RoundTrip.div (rd rs rt : Nat) : RoundTrip.Statement (.div rd rs rt) := by
  intro hy
  have hwf := hy
  change ((sr3 rd rs rt : Bool)) = true at hy
  simp only [Ctl.wf, VX.wf, VX.wfArith, VX.wfTrans, VX.wfLogic, VX.wfMod, VX.wfNtt, VX.wfMovk, VMem.wf, VMem.wfLd, CopyIn.wf, CopyOut.wf, SyncOp.wf, AtomOp.wf, VAtom.wf, Exch.wf, MmaOp.wf, sr3, ldst, brOk, siOk, Bool.and_eq_true, Bool.or_eq_true, decide_eq_true_eq, beq_iff_eq, bne_iff_ne, ne_eq, if_true, if_false, Bool.false_eq_true, Bool.not_true, Bool.not_false, Bool.true_or, Bool.false_or, Bool.true_and] at hy
  have k := sr_word (maj := 1) (fn := 3) (d := rd) (s := rs) (t := rt) (c := 0) (by omega) (by omega) (by omega) (by omega) (by omega) (by omega) rfl
  exact of0 hwf rfl k.1 (by rw [k.2]; rfl)

theorem RoundTrip.divn (rd rs rt : Nat) : RoundTrip.Statement (.divn rd rs rt) := by
  intro hy
  have hwf := hy
  change ((sr3 rd rs rt : Bool)) = true at hy
  simp only [Ctl.wf, VX.wf, VX.wfArith, VX.wfTrans, VX.wfLogic, VX.wfMod, VX.wfNtt, VX.wfMovk, VMem.wf, VMem.wfLd, CopyIn.wf, CopyOut.wf, SyncOp.wf, AtomOp.wf, VAtom.wf, Exch.wf, MmaOp.wf, sr3, ldst, brOk, siOk, Bool.and_eq_true, Bool.or_eq_true, decide_eq_true_eq, beq_iff_eq, bne_iff_ne, ne_eq, if_true, if_false, Bool.false_eq_true, Bool.not_true, Bool.not_false, Bool.true_or, Bool.false_or, Bool.true_and] at hy
  have k := sr_word (maj := 1) (fn := 4) (d := rd) (s := rs) (t := rt) (c := 0) (by omega) (by omega) (by omega) (by omega) (by omega) (by omega) rfl
  exact of0 hwf rfl k.1 (by rw [k.2]; rfl)

theorem RoundTrip.rem (rd rs rt : Nat) : RoundTrip.Statement (.rem rd rs rt) := by
  intro hy
  have hwf := hy
  change ((sr3 rd rs rt : Bool)) = true at hy
  simp only [Ctl.wf, VX.wf, VX.wfArith, VX.wfTrans, VX.wfLogic, VX.wfMod, VX.wfNtt, VX.wfMovk, VMem.wf, VMem.wfLd, CopyIn.wf, CopyOut.wf, SyncOp.wf, AtomOp.wf, VAtom.wf, Exch.wf, MmaOp.wf, sr3, ldst, brOk, siOk, Bool.and_eq_true, Bool.or_eq_true, decide_eq_true_eq, beq_iff_eq, bne_iff_ne, ne_eq, if_true, if_false, Bool.false_eq_true, Bool.not_true, Bool.not_false, Bool.true_or, Bool.false_or, Bool.true_and] at hy
  have k := sr_word (maj := 1) (fn := 5) (d := rd) (s := rs) (t := rt) (c := 0) (by omega) (by omega) (by omega) (by omega) (by omega) (by omega) rfl
  exact of0 hwf rfl k.1 (by rw [k.2]; rfl)

theorem RoundTrip.remn (rd rs rt : Nat) : RoundTrip.Statement (.remn rd rs rt) := by
  intro hy
  have hwf := hy
  change ((sr3 rd rs rt : Bool)) = true at hy
  simp only [Ctl.wf, VX.wf, VX.wfArith, VX.wfTrans, VX.wfLogic, VX.wfMod, VX.wfNtt, VX.wfMovk, VMem.wf, VMem.wfLd, CopyIn.wf, CopyOut.wf, SyncOp.wf, AtomOp.wf, VAtom.wf, Exch.wf, MmaOp.wf, sr3, ldst, brOk, siOk, Bool.and_eq_true, Bool.or_eq_true, decide_eq_true_eq, beq_iff_eq, bne_iff_ne, ne_eq, if_true, if_false, Bool.false_eq_true, Bool.not_true, Bool.not_false, Bool.true_or, Bool.false_or, Bool.true_and] at hy
  have k := sr_word (maj := 1) (fn := 6) (d := rd) (s := rs) (t := rt) (c := 0) (by omega) (by omega) (by omega) (by omega) (by omega) (by omega) rfl
  exact of0 hwf rfl k.1 (by rw [k.2]; rfl)

theorem RoundTrip.addi (rd rs : Nat) (imm : Word) : RoundTrip.Statement (.addi rd rs imm) := by
  intro hy
  have hwf := hy
  change ((siOk rd rs : Bool)) = true at hy
  simp only [Ctl.wf, VX.wf, VX.wfArith, VX.wfTrans, VX.wfLogic, VX.wfMod, VX.wfNtt, VX.wfMovk, VMem.wf, VMem.wfLd, CopyIn.wf, CopyOut.wf, SyncOp.wf, AtomOp.wf, VAtom.wf, Exch.wf, MmaOp.wf, sr3, ldst, brOk, siOk, Bool.and_eq_true, Bool.or_eq_true, decide_eq_true_eq, beq_iff_eq, bne_iff_ne, ne_eq, if_true, if_false, Bool.false_eq_true, Bool.not_true, Bool.not_false, Bool.true_or, Bool.false_or, Bool.true_and] at hy
  obtain ⟨W, hW⟩ : ∃ W, W = 2 * 2 ^ 26 + rd * 2 ^ 21 + rs * 2 ^ 16 + imm.toNat % 2 ^ 16 := ⟨_, rfl⟩
  have k := si_word (by omega) (by omega) (by omega) hW
  have hi := (imm_two imm W k.2.2.2.2).1
  obtain ⟨E, hE⟩ : ∃ E, E = imm.toNat / 2 ^ 42 % 2 ^ 22 := ⟨_, rfl⟩
  obtain ⟨P, hP⟩ : ∃ P, P = imm.toNat / 2 ^ 16 % 2 ^ 26 := ⟨_, rfl⟩
  rw [← hE, ← hP] at hi
  refine of012 (e := E) (p := P) (w := W) hwf (by rw [hW]; rfl) (by rw [hP, hW]; rfl) (by rw [hE, hP, hW]; rfl) (by omega) (by omega) (.of_lt k.1) ?_
  simp [extract, scalarWord, k.2.1, k.2.2.1, k.2.2.2.1, hi]

theorem RoundTrip.andi (rd rs : Nat) (imm : Word) : RoundTrip.Statement (.andi rd rs imm) := by
  intro hy
  have hwf := hy
  change ((siOk rd rs : Bool)) = true at hy
  simp only [Ctl.wf, VX.wf, VX.wfArith, VX.wfTrans, VX.wfLogic, VX.wfMod, VX.wfNtt, VX.wfMovk, VMem.wf, VMem.wfLd, CopyIn.wf, CopyOut.wf, SyncOp.wf, AtomOp.wf, VAtom.wf, Exch.wf, MmaOp.wf, sr3, ldst, brOk, siOk, Bool.and_eq_true, Bool.or_eq_true, decide_eq_true_eq, beq_iff_eq, bne_iff_ne, ne_eq, if_true, if_false, Bool.false_eq_true, Bool.not_true, Bool.not_false, Bool.true_or, Bool.false_or, Bool.true_and] at hy
  obtain ⟨W, hW⟩ : ∃ W, W = 3 * 2 ^ 26 + rd * 2 ^ 21 + rs * 2 ^ 16 + imm.toNat % 2 ^ 16 := ⟨_, rfl⟩
  have k := si_word (by omega) (by omega) (by omega) hW
  have hi := (imm_two imm W k.2.2.2.2).2
  obtain ⟨E, hE⟩ : ∃ E, E = imm.toNat / 2 ^ 42 % 2 ^ 22 := ⟨_, rfl⟩
  obtain ⟨P, hP⟩ : ∃ P, P = imm.toNat / 2 ^ 16 % 2 ^ 26 := ⟨_, rfl⟩
  rw [← hE, ← hP] at hi
  refine of012 (e := E) (p := P) (w := W) hwf (by rw [hW]; rfl) (by rw [hP, hW]; rfl) (by rw [hE, hP, hW]; rfl) (by omega) (by omega) (.of_lt k.1) ?_
  simp [extract, scalarWord, k.2.1, k.2.2.1, k.2.2.2.1, hi]

theorem RoundTrip.ori (rd rs : Nat) (imm : Word) : RoundTrip.Statement (.ori rd rs imm) := by
  intro hy
  have hwf := hy
  change ((siOk rd rs : Bool)) = true at hy
  simp only [Ctl.wf, VX.wf, VX.wfArith, VX.wfTrans, VX.wfLogic, VX.wfMod, VX.wfNtt, VX.wfMovk, VMem.wf, VMem.wfLd, CopyIn.wf, CopyOut.wf, SyncOp.wf, AtomOp.wf, VAtom.wf, Exch.wf, MmaOp.wf, sr3, ldst, brOk, siOk, Bool.and_eq_true, Bool.or_eq_true, decide_eq_true_eq, beq_iff_eq, bne_iff_ne, ne_eq, if_true, if_false, Bool.false_eq_true, Bool.not_true, Bool.not_false, Bool.true_or, Bool.false_or, Bool.true_and] at hy
  obtain ⟨W, hW⟩ : ∃ W, W = 4 * 2 ^ 26 + rd * 2 ^ 21 + rs * 2 ^ 16 + imm.toNat % 2 ^ 16 := ⟨_, rfl⟩
  have k := si_word (by omega) (by omega) (by omega) hW
  have hi := (imm_two imm W k.2.2.2.2).2
  obtain ⟨E, hE⟩ : ∃ E, E = imm.toNat / 2 ^ 42 % 2 ^ 22 := ⟨_, rfl⟩
  obtain ⟨P, hP⟩ : ∃ P, P = imm.toNat / 2 ^ 16 % 2 ^ 26 := ⟨_, rfl⟩
  rw [← hE, ← hP] at hi
  refine of012 (e := E) (p := P) (w := W) hwf (by rw [hW]; rfl) (by rw [hP, hW]; rfl) (by rw [hE, hP, hW]; rfl) (by omega) (by omega) (.of_lt k.1) ?_
  simp [extract, scalarWord, k.2.1, k.2.2.1, k.2.2.2.1, hi]

theorem RoundTrip.xori (rd rs : Nat) (imm : Word) : RoundTrip.Statement (.xori rd rs imm) := by
  intro hy
  have hwf := hy
  change ((siOk rd rs : Bool)) = true at hy
  simp only [Ctl.wf, VX.wf, VX.wfArith, VX.wfTrans, VX.wfLogic, VX.wfMod, VX.wfNtt, VX.wfMovk, VMem.wf, VMem.wfLd, CopyIn.wf, CopyOut.wf, SyncOp.wf, AtomOp.wf, VAtom.wf, Exch.wf, MmaOp.wf, sr3, ldst, brOk, siOk, Bool.and_eq_true, Bool.or_eq_true, decide_eq_true_eq, beq_iff_eq, bne_iff_ne, ne_eq, if_true, if_false, Bool.false_eq_true, Bool.not_true, Bool.not_false, Bool.true_or, Bool.false_or, Bool.true_and] at hy
  obtain ⟨W, hW⟩ : ∃ W, W = 5 * 2 ^ 26 + rd * 2 ^ 21 + rs * 2 ^ 16 + imm.toNat % 2 ^ 16 := ⟨_, rfl⟩
  have k := si_word (by omega) (by omega) (by omega) hW
  have hi := (imm_two imm W k.2.2.2.2).2
  obtain ⟨E, hE⟩ : ∃ E, E = imm.toNat / 2 ^ 42 % 2 ^ 22 := ⟨_, rfl⟩
  obtain ⟨P, hP⟩ : ∃ P, P = imm.toNat / 2 ^ 16 % 2 ^ 26 := ⟨_, rfl⟩
  rw [← hE, ← hP] at hi
  refine of012 (e := E) (p := P) (w := W) hwf (by rw [hW]; rfl) (by rw [hP, hW]; rfl) (by rw [hE, hP, hW]; rfl) (by omega) (by omega) (.of_lt k.1) ?_
  simp [extract, scalarWord, k.2.1, k.2.2.1, k.2.2.2.1, hi]

theorem RoundTrip.slti (rd rs : Nat) (imm : Word) : RoundTrip.Statement (.slti rd rs imm) := by
  intro hy
  have hwf := hy
  change ((siOk rd rs : Bool)) = true at hy
  simp only [Ctl.wf, VX.wf, VX.wfArith, VX.wfTrans, VX.wfLogic, VX.wfMod, VX.wfNtt, VX.wfMovk, VMem.wf, VMem.wfLd, CopyIn.wf, CopyOut.wf, SyncOp.wf, AtomOp.wf, VAtom.wf, Exch.wf, MmaOp.wf, sr3, ldst, brOk, siOk, Bool.and_eq_true, Bool.or_eq_true, decide_eq_true_eq, beq_iff_eq, bne_iff_ne, ne_eq, if_true, if_false, Bool.false_eq_true, Bool.not_true, Bool.not_false, Bool.true_or, Bool.false_or, Bool.true_and] at hy
  obtain ⟨W, hW⟩ : ∃ W, W = 6 * 2 ^ 26 + rd * 2 ^ 21 + rs * 2 ^ 16 + imm.toNat % 2 ^ 16 := ⟨_, rfl⟩
  have k := si_word (by omega) (by omega) (by omega) hW
  have hi := (imm_two imm W k.2.2.2.2).1
  obtain ⟨E, hE⟩ : ∃ E, E = imm.toNat / 2 ^ 42 % 2 ^ 22 := ⟨_, rfl⟩
  obtain ⟨P, hP⟩ : ∃ P, P = imm.toNat / 2 ^ 16 % 2 ^ 26 := ⟨_, rfl⟩
  rw [← hE, ← hP] at hi
  refine of012 (e := E) (p := P) (w := W) hwf (by rw [hW]; rfl) (by rw [hP, hW]; rfl) (by rw [hE, hP, hW]; rfl) (by omega) (by omega) (.of_lt k.1) ?_
  simp [extract, scalarWord, k.2.1, k.2.2.1, k.2.2.2.1, hi]

theorem RoundTrip.ldb (rd rs buf : Nat) (disp : Int) : RoundTrip.Statement (.ldb rd rs buf disp) := by
  intro hy
  have hwf := hy
  change ((ldst rd rs buf disp : Bool)) = true at hy
  simp only [Ctl.wf, VX.wf, VX.wfArith, VX.wfTrans, VX.wfLogic, VX.wfMod, VX.wfNtt, VX.wfMovk, VMem.wf, VMem.wfLd, CopyIn.wf, CopyOut.wf, SyncOp.wf, AtomOp.wf, VAtom.wf, Exch.wf, MmaOp.wf, sr3, ldst, brOk, siOk, Bool.and_eq_true, Bool.or_eq_true, decide_eq_true_eq, beq_iff_eq, bne_iff_ne, ne_eq, if_true, if_false, Bool.false_eq_true, Bool.not_true, Bool.not_false, Bool.true_or, Bool.false_or, Bool.true_and] at hy
  have k := ld_word (maj := 9) (sz := 0) (d := rd) (s := rs) (b := buf) (o := disp) (by omega) (by omega) (by omega) (by omega) (by omega) (by omega) (by omega) rfl rfl
  exact of01 hwf rfl rfl k.1 (.of_lt k.2.1) (by rw [k.2.2]; rfl)

theorem RoundTrip.ldh (rd rs buf : Nat) (disp : Int) : RoundTrip.Statement (.ldh rd rs buf disp) := by
  intro hy
  have hwf := hy
  change ((ldst rd rs buf disp : Bool)) = true at hy
  simp only [Ctl.wf, VX.wf, VX.wfArith, VX.wfTrans, VX.wfLogic, VX.wfMod, VX.wfNtt, VX.wfMovk, VMem.wf, VMem.wfLd, CopyIn.wf, CopyOut.wf, SyncOp.wf, AtomOp.wf, VAtom.wf, Exch.wf, MmaOp.wf, sr3, ldst, brOk, siOk, Bool.and_eq_true, Bool.or_eq_true, decide_eq_true_eq, beq_iff_eq, bne_iff_ne, ne_eq, if_true, if_false, Bool.false_eq_true, Bool.not_true, Bool.not_false, Bool.true_or, Bool.false_or, Bool.true_and] at hy
  have k := ld_word (maj := 9) (sz := 1) (d := rd) (s := rs) (b := buf) (o := disp) (by omega) (by omega) (by omega) (by omega) (by omega) (by omega) (by omega) rfl rfl
  exact of01 hwf rfl rfl k.1 (.of_lt k.2.1) (by rw [k.2.2]; rfl)

theorem RoundTrip.ldw (rd rs buf : Nat) (disp : Int) : RoundTrip.Statement (.ldw rd rs buf disp) := by
  intro hy
  have hwf := hy
  change ((ldst rd rs buf disp : Bool)) = true at hy
  simp only [Ctl.wf, VX.wf, VX.wfArith, VX.wfTrans, VX.wfLogic, VX.wfMod, VX.wfNtt, VX.wfMovk, VMem.wf, VMem.wfLd, CopyIn.wf, CopyOut.wf, SyncOp.wf, AtomOp.wf, VAtom.wf, Exch.wf, MmaOp.wf, sr3, ldst, brOk, siOk, Bool.and_eq_true, Bool.or_eq_true, decide_eq_true_eq, beq_iff_eq, bne_iff_ne, ne_eq, if_true, if_false, Bool.false_eq_true, Bool.not_true, Bool.not_false, Bool.true_or, Bool.false_or, Bool.true_and] at hy
  have k := ld_word (maj := 9) (sz := 2) (d := rd) (s := rs) (b := buf) (o := disp) (by omega) (by omega) (by omega) (by omega) (by omega) (by omega) (by omega) rfl rfl
  exact of01 hwf rfl rfl k.1 (.of_lt k.2.1) (by rw [k.2.2]; rfl)

theorem RoundTrip.ldd (rd rs buf : Nat) (disp : Int) : RoundTrip.Statement (.ldd rd rs buf disp) := by
  intro hy
  have hwf := hy
  change ((ldst rd rs buf disp : Bool)) = true at hy
  simp only [Ctl.wf, VX.wf, VX.wfArith, VX.wfTrans, VX.wfLogic, VX.wfMod, VX.wfNtt, VX.wfMovk, VMem.wf, VMem.wfLd, CopyIn.wf, CopyOut.wf, SyncOp.wf, AtomOp.wf, VAtom.wf, Exch.wf, MmaOp.wf, sr3, ldst, brOk, siOk, Bool.and_eq_true, Bool.or_eq_true, decide_eq_true_eq, beq_iff_eq, bne_iff_ne, ne_eq, if_true, if_false, Bool.false_eq_true, Bool.not_true, Bool.not_false, Bool.true_or, Bool.false_or, Bool.true_and] at hy
  have k := ld_word (maj := 9) (sz := 3) (d := rd) (s := rs) (b := buf) (o := disp) (by omega) (by omega) (by omega) (by omega) (by omega) (by omega) (by omega) rfl rfl
  exact of01 hwf rfl rfl k.1 (.of_lt k.2.1) (by rw [k.2.2]; rfl)

theorem RoundTrip.ldbN (rd rs buf : Nat) (disp : Int) : RoundTrip.Statement (.ldbN rd rs buf disp) := by
  intro hy
  have hwf := hy
  change ((ldst rd rs buf disp : Bool)) = true at hy
  simp only [Ctl.wf, VX.wf, VX.wfArith, VX.wfTrans, VX.wfLogic, VX.wfMod, VX.wfNtt, VX.wfMovk, VMem.wf, VMem.wfLd, CopyIn.wf, CopyOut.wf, SyncOp.wf, AtomOp.wf, VAtom.wf, Exch.wf, MmaOp.wf, sr3, ldst, brOk, siOk, Bool.and_eq_true, Bool.or_eq_true, decide_eq_true_eq, beq_iff_eq, bne_iff_ne, ne_eq, if_true, if_false, Bool.false_eq_true, Bool.not_true, Bool.not_false, Bool.true_or, Bool.false_or, Bool.true_and] at hy
  have k := ld_word (maj := 10) (sz := 0) (d := rd) (s := rs) (b := buf) (o := disp) (by omega) (by omega) (by omega) (by omega) (by omega) (by omega) (by omega) rfl rfl
  exact of01 hwf rfl rfl k.1 (.of_lt k.2.1) (by rw [k.2.2]; rfl)

theorem RoundTrip.ldhN (rd rs buf : Nat) (disp : Int) : RoundTrip.Statement (.ldhN rd rs buf disp) := by
  intro hy
  have hwf := hy
  change ((ldst rd rs buf disp : Bool)) = true at hy
  simp only [Ctl.wf, VX.wf, VX.wfArith, VX.wfTrans, VX.wfLogic, VX.wfMod, VX.wfNtt, VX.wfMovk, VMem.wf, VMem.wfLd, CopyIn.wf, CopyOut.wf, SyncOp.wf, AtomOp.wf, VAtom.wf, Exch.wf, MmaOp.wf, sr3, ldst, brOk, siOk, Bool.and_eq_true, Bool.or_eq_true, decide_eq_true_eq, beq_iff_eq, bne_iff_ne, ne_eq, if_true, if_false, Bool.false_eq_true, Bool.not_true, Bool.not_false, Bool.true_or, Bool.false_or, Bool.true_and] at hy
  have k := ld_word (maj := 10) (sz := 1) (d := rd) (s := rs) (b := buf) (o := disp) (by omega) (by omega) (by omega) (by omega) (by omega) (by omega) (by omega) rfl rfl
  exact of01 hwf rfl rfl k.1 (.of_lt k.2.1) (by rw [k.2.2]; rfl)

theorem RoundTrip.ldwN (rd rs buf : Nat) (disp : Int) : RoundTrip.Statement (.ldwN rd rs buf disp) := by
  intro hy
  have hwf := hy
  change ((ldst rd rs buf disp : Bool)) = true at hy
  simp only [Ctl.wf, VX.wf, VX.wfArith, VX.wfTrans, VX.wfLogic, VX.wfMod, VX.wfNtt, VX.wfMovk, VMem.wf, VMem.wfLd, CopyIn.wf, CopyOut.wf, SyncOp.wf, AtomOp.wf, VAtom.wf, Exch.wf, MmaOp.wf, sr3, ldst, brOk, siOk, Bool.and_eq_true, Bool.or_eq_true, decide_eq_true_eq, beq_iff_eq, bne_iff_ne, ne_eq, if_true, if_false, Bool.false_eq_true, Bool.not_true, Bool.not_false, Bool.true_or, Bool.false_or, Bool.true_and] at hy
  have k := ld_word (maj := 10) (sz := 2) (d := rd) (s := rs) (b := buf) (o := disp) (by omega) (by omega) (by omega) (by omega) (by omega) (by omega) (by omega) rfl rfl
  exact of01 hwf rfl rfl k.1 (.of_lt k.2.1) (by rw [k.2.2]; rfl)

theorem RoundTrip.stb (rd rs buf : Nat) (disp : Int) : RoundTrip.Statement (.stb rd rs buf disp) := by
  intro hy
  have hwf := hy
  change ((ldst rd rs buf disp : Bool)) = true at hy
  simp only [Ctl.wf, VX.wf, VX.wfArith, VX.wfTrans, VX.wfLogic, VX.wfMod, VX.wfNtt, VX.wfMovk, VMem.wf, VMem.wfLd, CopyIn.wf, CopyOut.wf, SyncOp.wf, AtomOp.wf, VAtom.wf, Exch.wf, MmaOp.wf, sr3, ldst, brOk, siOk, Bool.and_eq_true, Bool.or_eq_true, decide_eq_true_eq, beq_iff_eq, bne_iff_ne, ne_eq, if_true, if_false, Bool.false_eq_true, Bool.not_true, Bool.not_false, Bool.true_or, Bool.false_or, Bool.true_and] at hy
  have k := ld_word (maj := 11) (sz := 0) (d := rd) (s := rs) (b := buf) (o := disp) (by omega) (by omega) (by omega) (by omega) (by omega) (by omega) (by omega) rfl rfl
  exact of01 hwf rfl rfl k.1 (.of_lt k.2.1) (by rw [k.2.2]; rfl)

theorem RoundTrip.sth (rd rs buf : Nat) (disp : Int) : RoundTrip.Statement (.sth rd rs buf disp) := by
  intro hy
  have hwf := hy
  change ((ldst rd rs buf disp : Bool)) = true at hy
  simp only [Ctl.wf, VX.wf, VX.wfArith, VX.wfTrans, VX.wfLogic, VX.wfMod, VX.wfNtt, VX.wfMovk, VMem.wf, VMem.wfLd, CopyIn.wf, CopyOut.wf, SyncOp.wf, AtomOp.wf, VAtom.wf, Exch.wf, MmaOp.wf, sr3, ldst, brOk, siOk, Bool.and_eq_true, Bool.or_eq_true, decide_eq_true_eq, beq_iff_eq, bne_iff_ne, ne_eq, if_true, if_false, Bool.false_eq_true, Bool.not_true, Bool.not_false, Bool.true_or, Bool.false_or, Bool.true_and] at hy
  have k := ld_word (maj := 11) (sz := 1) (d := rd) (s := rs) (b := buf) (o := disp) (by omega) (by omega) (by omega) (by omega) (by omega) (by omega) (by omega) rfl rfl
  exact of01 hwf rfl rfl k.1 (.of_lt k.2.1) (by rw [k.2.2]; rfl)

theorem RoundTrip.stw (rd rs buf : Nat) (disp : Int) : RoundTrip.Statement (.stw rd rs buf disp) := by
  intro hy
  have hwf := hy
  change ((ldst rd rs buf disp : Bool)) = true at hy
  simp only [Ctl.wf, VX.wf, VX.wfArith, VX.wfTrans, VX.wfLogic, VX.wfMod, VX.wfNtt, VX.wfMovk, VMem.wf, VMem.wfLd, CopyIn.wf, CopyOut.wf, SyncOp.wf, AtomOp.wf, VAtom.wf, Exch.wf, MmaOp.wf, sr3, ldst, brOk, siOk, Bool.and_eq_true, Bool.or_eq_true, decide_eq_true_eq, beq_iff_eq, bne_iff_ne, ne_eq, if_true, if_false, Bool.false_eq_true, Bool.not_true, Bool.not_false, Bool.true_or, Bool.false_or, Bool.true_and] at hy
  have k := ld_word (maj := 11) (sz := 2) (d := rd) (s := rs) (b := buf) (o := disp) (by omega) (by omega) (by omega) (by omega) (by omega) (by omega) (by omega) rfl rfl
  exact of01 hwf rfl rfl k.1 (.of_lt k.2.1) (by rw [k.2.2]; rfl)

theorem RoundTrip.std (rd rs buf : Nat) (disp : Int) : RoundTrip.Statement (.std rd rs buf disp) := by
  intro hy
  have hwf := hy
  change ((ldst rd rs buf disp : Bool)) = true at hy
  simp only [Ctl.wf, VX.wf, VX.wfArith, VX.wfTrans, VX.wfLogic, VX.wfMod, VX.wfNtt, VX.wfMovk, VMem.wf, VMem.wfLd, CopyIn.wf, CopyOut.wf, SyncOp.wf, AtomOp.wf, VAtom.wf, Exch.wf, MmaOp.wf, sr3, ldst, brOk, siOk, Bool.and_eq_true, Bool.or_eq_true, decide_eq_true_eq, beq_iff_eq, bne_iff_ne, ne_eq, if_true, if_false, Bool.false_eq_true, Bool.not_true, Bool.not_false, Bool.true_or, Bool.false_or, Bool.true_and] at hy
  have k := ld_word (maj := 11) (sz := 3) (d := rd) (s := rs) (b := buf) (o := disp) (by omega) (by omega) (by omega) (by omega) (by omega) (by omega) (by omega) rfl rfl
  exact of01 hwf rfl rfl k.1 (.of_lt k.2.1) (by rw [k.2.2]; rfl)

theorem RoundTrip.beq (rs rt : Nat) (off : Int) : RoundTrip.Statement (.beq rs rt off) := by
  intro hy
  have hwf := hy
  change ((brOk rs rt off : Bool)) = true at hy
  simp only [Ctl.wf, VX.wf, VX.wfArith, VX.wfTrans, VX.wfLogic, VX.wfMod, VX.wfNtt, VX.wfMovk, VMem.wf, VMem.wfLd, CopyIn.wf, CopyOut.wf, SyncOp.wf, AtomOp.wf, VAtom.wf, Exch.wf, MmaOp.wf, sr3, ldst, brOk, siOk, Bool.and_eq_true, Bool.or_eq_true, decide_eq_true_eq, beq_iff_eq, bne_iff_ne, ne_eq, if_true, if_false, Bool.false_eq_true, Bool.not_true, Bool.not_false, Bool.true_or, Bool.false_or, Bool.true_and] at hy
  have k := sb_word (cond := 0) (s := rs) (t := rt) (o := off) (by omega) (by omega) (by omega) (by omega) (by omega) rfl rfl
  exact of01 hwf rfl rfl k.1 (.of_lt k.2.1) (by rw [k.2.2]; rfl)

theorem RoundTrip.bne (rs rt : Nat) (off : Int) : RoundTrip.Statement (.bne rs rt off) := by
  intro hy
  have hwf := hy
  change ((brOk rs rt off : Bool)) = true at hy
  simp only [Ctl.wf, VX.wf, VX.wfArith, VX.wfTrans, VX.wfLogic, VX.wfMod, VX.wfNtt, VX.wfMovk, VMem.wf, VMem.wfLd, CopyIn.wf, CopyOut.wf, SyncOp.wf, AtomOp.wf, VAtom.wf, Exch.wf, MmaOp.wf, sr3, ldst, brOk, siOk, Bool.and_eq_true, Bool.or_eq_true, decide_eq_true_eq, beq_iff_eq, bne_iff_ne, ne_eq, if_true, if_false, Bool.false_eq_true, Bool.not_true, Bool.not_false, Bool.true_or, Bool.false_or, Bool.true_and] at hy
  have k := sb_word (cond := 1) (s := rs) (t := rt) (o := off) (by omega) (by omega) (by omega) (by omega) (by omega) rfl rfl
  exact of01 hwf rfl rfl k.1 (.of_lt k.2.1) (by rw [k.2.2]; rfl)

theorem RoundTrip.blt (rs rt : Nat) (off : Int) : RoundTrip.Statement (.blt rs rt off) := by
  intro hy
  have hwf := hy
  change ((brOk rs rt off : Bool)) = true at hy
  simp only [Ctl.wf, VX.wf, VX.wfArith, VX.wfTrans, VX.wfLogic, VX.wfMod, VX.wfNtt, VX.wfMovk, VMem.wf, VMem.wfLd, CopyIn.wf, CopyOut.wf, SyncOp.wf, AtomOp.wf, VAtom.wf, Exch.wf, MmaOp.wf, sr3, ldst, brOk, siOk, Bool.and_eq_true, Bool.or_eq_true, decide_eq_true_eq, beq_iff_eq, bne_iff_ne, ne_eq, if_true, if_false, Bool.false_eq_true, Bool.not_true, Bool.not_false, Bool.true_or, Bool.false_or, Bool.true_and] at hy
  have k := sb_word (cond := 2) (s := rs) (t := rt) (o := off) (by omega) (by omega) (by omega) (by omega) (by omega) rfl rfl
  exact of01 hwf rfl rfl k.1 (.of_lt k.2.1) (by rw [k.2.2]; rfl)

theorem RoundTrip.bge (rs rt : Nat) (off : Int) : RoundTrip.Statement (.bge rs rt off) := by
  intro hy
  have hwf := hy
  change ((brOk rs rt off : Bool)) = true at hy
  simp only [Ctl.wf, VX.wf, VX.wfArith, VX.wfTrans, VX.wfLogic, VX.wfMod, VX.wfNtt, VX.wfMovk, VMem.wf, VMem.wfLd, CopyIn.wf, CopyOut.wf, SyncOp.wf, AtomOp.wf, VAtom.wf, Exch.wf, MmaOp.wf, sr3, ldst, brOk, siOk, Bool.and_eq_true, Bool.or_eq_true, decide_eq_true_eq, beq_iff_eq, bne_iff_ne, ne_eq, if_true, if_false, Bool.false_eq_true, Bool.not_true, Bool.not_false, Bool.true_or, Bool.false_or, Bool.true_and] at hy
  have k := sb_word (cond := 3) (s := rs) (t := rt) (o := off) (by omega) (by omega) (by omega) (by omega) (by omega) rfl rfl
  exact of01 hwf rfl rfl k.1 (.of_lt k.2.1) (by rw [k.2.2]; rfl)

theorem RoundTrip.bltn (rs rt : Nat) (off : Int) : RoundTrip.Statement (.bltn rs rt off) := by
  intro hy
  have hwf := hy
  change ((brOk rs rt off : Bool)) = true at hy
  simp only [Ctl.wf, VX.wf, VX.wfArith, VX.wfTrans, VX.wfLogic, VX.wfMod, VX.wfNtt, VX.wfMovk, VMem.wf, VMem.wfLd, CopyIn.wf, CopyOut.wf, SyncOp.wf, AtomOp.wf, VAtom.wf, Exch.wf, MmaOp.wf, sr3, ldst, brOk, siOk, Bool.and_eq_true, Bool.or_eq_true, decide_eq_true_eq, beq_iff_eq, bne_iff_ne, ne_eq, if_true, if_false, Bool.false_eq_true, Bool.not_true, Bool.not_false, Bool.true_or, Bool.false_or, Bool.true_and] at hy
  have k := sb_word (cond := 4) (s := rs) (t := rt) (o := off) (by omega) (by omega) (by omega) (by omega) (by omega) rfl rfl
  exact of01 hwf rfl rfl k.1 (.of_lt k.2.1) (by rw [k.2.2]; rfl)

theorem RoundTrip.bgen (rs rt : Nat) (off : Int) : RoundTrip.Statement (.bgen rs rt off) := by
  intro hy
  have hwf := hy
  change ((brOk rs rt off : Bool)) = true at hy
  simp only [Ctl.wf, VX.wf, VX.wfArith, VX.wfTrans, VX.wfLogic, VX.wfMod, VX.wfNtt, VX.wfMovk, VMem.wf, VMem.wfLd, CopyIn.wf, CopyOut.wf, SyncOp.wf, AtomOp.wf, VAtom.wf, Exch.wf, MmaOp.wf, sr3, ldst, brOk, siOk, Bool.and_eq_true, Bool.or_eq_true, decide_eq_true_eq, beq_iff_eq, bne_iff_ne, ne_eq, if_true, if_false, Bool.false_eq_true, Bool.not_true, Bool.not_false, Bool.true_or, Bool.false_or, Bool.true_and] at hy
  have k := sb_word (cond := 5) (s := rs) (t := rt) (o := off) (by omega) (by omega) (by omega) (by omega) (by omega) rfl rfl
  exact of01 hwf rfl rfl k.1 (.of_lt k.2.1) (by rw [k.2.2]; rfl)

theorem RoundTrip.jal (rd : Nat) (off : Word) : RoundTrip.Statement (.jal rd off) := by
  intro hy
  have hwf := hy
  change ((rd < 32 : Bool)) = true at hy
  simp only [Ctl.wf, VX.wf, VX.wfArith, VX.wfTrans, VX.wfLogic, VX.wfMod, VX.wfNtt, VX.wfMovk, VMem.wf, VMem.wfLd, CopyIn.wf, CopyOut.wf, SyncOp.wf, AtomOp.wf, VAtom.wf, Exch.wf, MmaOp.wf, sr3, ldst, brOk, siOk, Bool.and_eq_true, Bool.or_eq_true, decide_eq_true_eq, beq_iff_eq, bne_iff_ne, ne_eq, if_true, if_false, Bool.false_eq_true, Bool.not_true, Bool.not_false, Bool.true_or, Bool.false_or, Bool.true_and] at hy
  obtain ⟨W, hW⟩ : ∃ W, W = 13 * 2 ^ 26 + rd * 2 ^ 21 + 0 * 2 ^ 16 + off.toNat % 2 ^ 16 := ⟨_, rfl⟩
  have k := si_word (by omega) (by omega) (by omega) hW
  have hi := (imm_two off W k.2.2.2.2).1
  obtain ⟨E, hE⟩ : ∃ E, E = off.toNat / 2 ^ 42 % 2 ^ 22 := ⟨_, rfl⟩
  obtain ⟨P, hP⟩ : ∃ P, P = off.toNat / 2 ^ 16 % 2 ^ 26 := ⟨_, rfl⟩
  rw [← hE, ← hP] at hi
  refine of012 (e := E) (p := P) (w := W) hwf (by rw [hW]; rfl) (by rw [hP, hW]; rfl) (by rw [hE, hP, hW]; rfl) (by omega) (by omega) (.of_lt k.1) ?_
  simp [extract, scalarWord, k.2.1, k.2.2.1, k.2.2.2.1, hi]

theorem RoundTrip.jalr (rd rs : Nat) (imm : Word) : RoundTrip.Statement (.jalr rd rs imm) := by
  intro hy
  have hwf := hy
  change ((siOk rd rs : Bool)) = true at hy
  simp only [Ctl.wf, VX.wf, VX.wfArith, VX.wfTrans, VX.wfLogic, VX.wfMod, VX.wfNtt, VX.wfMovk, VMem.wf, VMem.wfLd, CopyIn.wf, CopyOut.wf, SyncOp.wf, AtomOp.wf, VAtom.wf, Exch.wf, MmaOp.wf, sr3, ldst, brOk, siOk, Bool.and_eq_true, Bool.or_eq_true, decide_eq_true_eq, beq_iff_eq, bne_iff_ne, ne_eq, if_true, if_false, Bool.false_eq_true, Bool.not_true, Bool.not_false, Bool.true_or, Bool.false_or, Bool.true_and] at hy
  obtain ⟨W, hW⟩ : ∃ W, W = 14 * 2 ^ 26 + rd * 2 ^ 21 + rs * 2 ^ 16 + imm.toNat % 2 ^ 16 := ⟨_, rfl⟩
  have k := si_word (by omega) (by omega) (by omega) hW
  have hi := (imm_two imm W k.2.2.2.2).1
  obtain ⟨E, hE⟩ : ∃ E, E = imm.toNat / 2 ^ 42 % 2 ^ 22 := ⟨_, rfl⟩
  obtain ⟨P, hP⟩ : ∃ P, P = imm.toNat / 2 ^ 16 % 2 ^ 26 := ⟨_, rfl⟩
  rw [← hE, ← hP] at hi
  refine of012 (e := E) (p := P) (w := W) hwf (by rw [hW]; rfl) (by rw [hP, hW]; rfl) (by rw [hE, hP, hW]; rfl) (by omega) (by omega) (.of_lt k.1) ?_
  simp [extract, scalarWord, k.2.1, k.2.2.1, k.2.2.2.1, hi]

theorem RoundTrip.vadd (c : Ctl) (x : VX) : RoundTrip.Statement (.vadd c x) := by
  intro hy
  have hwf := hy
  change ((c.wf && x.wfArith false false false : Bool)) = true at hy
  simp only [VX.wfArith, VX.wfTrans, VX.wfLogic, VX.wfMod, VX.wfNtt, VX.wfMovk, Bool.and_eq_true, beq_iff_eq] at hy
  have hc : c.wf = true := by simp only [hy]
  have hx : x.wf false = true := by simp only [hy]
  have k := vx_word (maj := 45) (fn := 0) (c := c) (x := x) (by omega) (by omega) hc hx rfl rfl
  exact of01 hwf rfl rfl k.1 (.of_lt k.2.1) (by rw [k.2.2]; rfl)

theorem RoundTrip.vsub (c : Ctl) (x : VX) : RoundTrip.Statement (.vsub c x) := by
  intro hy
  have hwf := hy
  change ((c.wf && x.wfArith false false false : Bool)) = true at hy
  simp only [VX.wfArith, VX.wfTrans, VX.wfLogic, VX.wfMod, VX.wfNtt, VX.wfMovk, Bool.and_eq_true, beq_iff_eq] at hy
  have hc : c.wf = true := by simp only [hy]
  have hx : x.wf false = true := by simp only [hy]
  have k := vx_word (maj := 45) (fn := 1) (c := c) (x := x) (by omega) (by omega) hc hx rfl rfl
  exact of01 hwf rfl rfl k.1 (.of_lt k.2.1) (by rw [k.2.2]; rfl)

theorem RoundTrip.vmul (c : Ctl) (x : VX) : RoundTrip.Statement (.vmul c x) := by
  intro hy
  have hwf := hy
  change ((c.wf && x.wfArith false false false : Bool)) = true at hy
  simp only [VX.wfArith, VX.wfTrans, VX.wfLogic, VX.wfMod, VX.wfNtt, VX.wfMovk, Bool.and_eq_true, beq_iff_eq] at hy
  have hc : c.wf = true := by simp only [hy]
  have hx : x.wf false = true := by simp only [hy]
  have k := vx_word (maj := 45) (fn := 2) (c := c) (x := x) (by omega) (by omega) hc hx rfl rfl
  exact of01 hwf rfl rfl k.1 (.of_lt k.2.1) (by rw [k.2.2]; rfl)

theorem RoundTrip.vfma (c : Ctl) (x : VX) : RoundTrip.Statement (.vfma c x) := by
  intro hy
  have hwf := hy
  change ((c.wf && x.wfArith false true false : Bool)) = true at hy
  simp only [VX.wfArith, VX.wfTrans, VX.wfLogic, VX.wfMod, VX.wfNtt, VX.wfMovk, Bool.and_eq_true, beq_iff_eq] at hy
  have hc : c.wf = true := by simp only [hy]
  have hx : x.wf false = true := by simp only [hy]
  have k := vx_word (maj := 45) (fn := 3) (c := c) (x := x) (by omega) (by omega) hc hx rfl rfl
  exact of01 hwf rfl rfl k.1 (.of_lt k.2.1) (by rw [k.2.2]; rfl)

theorem RoundTrip.vfms (c : Ctl) (x : VX) : RoundTrip.Statement (.vfms c x) := by
  intro hy
  have hwf := hy
  change ((c.wf && x.wfArith false true false : Bool)) = true at hy
  simp only [VX.wfArith, VX.wfTrans, VX.wfLogic, VX.wfMod, VX.wfNtt, VX.wfMovk, Bool.and_eq_true, beq_iff_eq] at hy
  have hc : c.wf = true := by simp only [hy]
  have hx : x.wf false = true := by simp only [hy]
  have k := vx_word (maj := 45) (fn := 4) (c := c) (x := x) (by omega) (by omega) hc hx rfl rfl
  exact of01 hwf rfl rfl k.1 (.of_lt k.2.1) (by rw [k.2.2]; rfl)

theorem RoundTrip.vmin (c : Ctl) (x : VX) : RoundTrip.Statement (.vmin c x) := by
  intro hy
  have hwf := hy
  change ((c.wf && x.wfArith false false false : Bool)) = true at hy
  simp only [VX.wfArith, VX.wfTrans, VX.wfLogic, VX.wfMod, VX.wfNtt, VX.wfMovk, Bool.and_eq_true, beq_iff_eq] at hy
  have hc : c.wf = true := by simp only [hy]
  have hx : x.wf false = true := by simp only [hy]
  have k := vx_word (maj := 45) (fn := 5) (c := c) (x := x) (by omega) (by omega) hc hx rfl rfl
  exact of01 hwf rfl rfl k.1 (.of_lt k.2.1) (by rw [k.2.2]; rfl)

theorem RoundTrip.vmax (c : Ctl) (x : VX) : RoundTrip.Statement (.vmax c x) := by
  intro hy
  have hwf := hy
  change ((c.wf && x.wfArith false false false : Bool)) = true at hy
  simp only [VX.wfArith, VX.wfTrans, VX.wfLogic, VX.wfMod, VX.wfNtt, VX.wfMovk, Bool.and_eq_true, beq_iff_eq] at hy
  have hc : c.wf = true := by simp only [hy]
  have hx : x.wf false = true := by simp only [hy]
  have k := vx_word (maj := 45) (fn := 6) (c := c) (x := x) (by omega) (by omega) hc hx rfl rfl
  exact of01 hwf rfl rfl k.1 (.of_lt k.2.1) (by rw [k.2.2]; rfl)

theorem RoundTrip.vabs (c : Ctl) (x : VX) : RoundTrip.Statement (.vabs c x) := by
  intro hy
  have hwf := hy
  change ((c.wf && x.wfArith true false false : Bool)) = true at hy
  simp only [VX.wfArith, VX.wfTrans, VX.wfLogic, VX.wfMod, VX.wfNtt, VX.wfMovk, Bool.and_eq_true, beq_iff_eq] at hy
  have hc : c.wf = true := by simp only [hy]
  have hx : x.wf false = true := by simp only [hy]
  have k := vx_word (maj := 45) (fn := 7) (c := c) (x := x) (by omega) (by omega) hc hx rfl rfl
  exact of01 hwf rfl rfl k.1 (.of_lt k.2.1) (by rw [k.2.2]; rfl)

theorem RoundTrip.vneg (c : Ctl) (x : VX) : RoundTrip.Statement (.vneg c x) := by
  intro hy
  have hwf := hy
  change ((c.wf && x.wfArith true false false : Bool)) = true at hy
  simp only [VX.wfArith, VX.wfTrans, VX.wfLogic, VX.wfMod, VX.wfNtt, VX.wfMovk, Bool.and_eq_true, beq_iff_eq] at hy
  have hc : c.wf = true := by simp only [hy]
  have hx : x.wf false = true := by simp only [hy]
  have k := vx_word (maj := 45) (fn := 8) (c := c) (x := x) (by omega) (by omega) hc hx rfl rfl
  exact of01 hwf rfl rfl k.1 (.of_lt k.2.1) (by rw [k.2.2]; rfl)

theorem RoundTrip.vdiv (c : Ctl) (x : VX) : RoundTrip.Statement (.vdiv c x) := by
  intro hy
  have hwf := hy
  change ((c.wf && x.wfArith false false true : Bool)) = true at hy
  simp only [VX.wfArith, VX.wfTrans, VX.wfLogic, VX.wfMod, VX.wfNtt, VX.wfMovk, Bool.and_eq_true, beq_iff_eq] at hy
  have hc : c.wf = true := by simp only [hy]
  have hx : x.wf false = true := by simp only [hy]
  have k := vx_word (maj := 45) (fn := 9) (c := c) (x := x) (by omega) (by omega) hc hx rfl rfl
  exact of01 hwf rfl rfl k.1 (.of_lt k.2.1) (by rw [k.2.2]; rfl)

theorem RoundTrip.vrsqrt (c : Ctl) (x : VX) : RoundTrip.Statement (.vrsqrt c x) := by
  intro hy
  have hwf := hy
  change ((c.wf && x.wfTrans : Bool)) = true at hy
  simp only [VX.wfArith, VX.wfTrans, VX.wfLogic, VX.wfMod, VX.wfNtt, VX.wfMovk, Bool.and_eq_true, beq_iff_eq] at hy
  have hc : c.wf = true := by simp only [hy]
  have hx : x.wf false = true := by simp only [hy]
  have k := vx_word (maj := 46) (fn := 0) (c := c) (x := x) (by omega) (by omega) hc hx rfl rfl
  exact of01 hwf rfl rfl k.1 (.of_lt k.2.1) (by rw [k.2.2]; rfl)

theorem RoundTrip.vexp2 (c : Ctl) (x : VX) : RoundTrip.Statement (.vexp2 c x) := by
  intro hy
  have hwf := hy
  change ((c.wf && x.wfTrans : Bool)) = true at hy
  simp only [VX.wfArith, VX.wfTrans, VX.wfLogic, VX.wfMod, VX.wfNtt, VX.wfMovk, Bool.and_eq_true, beq_iff_eq] at hy
  have hc : c.wf = true := by simp only [hy]
  have hx : x.wf false = true := by simp only [hy]
  have k := vx_word (maj := 46) (fn := 1) (c := c) (x := x) (by omega) (by omega) hc hx rfl rfl
  exact of01 hwf rfl rfl k.1 (.of_lt k.2.1) (by rw [k.2.2]; rfl)

theorem RoundTrip.vlog2 (c : Ctl) (x : VX) : RoundTrip.Statement (.vlog2 c x) := by
  intro hy
  have hwf := hy
  change ((c.wf && x.wfTrans : Bool)) = true at hy
  simp only [VX.wfArith, VX.wfTrans, VX.wfLogic, VX.wfMod, VX.wfNtt, VX.wfMovk, Bool.and_eq_true, beq_iff_eq] at hy
  have hc : c.wf = true := by simp only [hy]
  have hx : x.wf false = true := by simp only [hy]
  have k := vx_word (maj := 46) (fn := 2) (c := c) (x := x) (by omega) (by omega) hc hx rfl rfl
  exact of01 hwf rfl rfl k.1 (.of_lt k.2.1) (by rw [k.2.2]; rfl)

theorem RoundTrip.vsigm (c : Ctl) (x : VX) : RoundTrip.Statement (.vsigm c x) := by
  intro hy
  have hwf := hy
  change ((c.wf && x.wfTrans : Bool)) = true at hy
  simp only [VX.wfArith, VX.wfTrans, VX.wfLogic, VX.wfMod, VX.wfNtt, VX.wfMovk, Bool.and_eq_true, beq_iff_eq] at hy
  have hc : c.wf = true := by simp only [hy]
  have hx : x.wf false = true := by simp only [hy]
  have k := vx_word (maj := 46) (fn := 3) (c := c) (x := x) (by omega) (by omega) hc hx rfl rfl
  exact of01 hwf rfl rfl k.1 (.of_lt k.2.1) (by rw [k.2.2]; rfl)

theorem RoundTrip.vtanh (c : Ctl) (x : VX) : RoundTrip.Statement (.vtanh c x) := by
  intro hy
  have hwf := hy
  change ((c.wf && x.wfTrans : Bool)) = true at hy
  simp only [VX.wfArith, VX.wfTrans, VX.wfLogic, VX.wfMod, VX.wfNtt, VX.wfMovk, Bool.and_eq_true, beq_iff_eq] at hy
  have hc : c.wf = true := by simp only [hy]
  have hx : x.wf false = true := by simp only [hy]
  have k := vx_word (maj := 46) (fn := 4) (c := c) (x := x) (by omega) (by omega) hc hx rfl rfl
  exact of01 hwf rfl rfl k.1 (.of_lt k.2.1) (by rw [k.2.2]; rfl)

theorem RoundTrip.vcmp (c : Ctl) (x : VX) : RoundTrip.Statement (.vcmp c x) := by
  intro hy
  have hwf := hy
  change ((c.wf && x.wf false && isLane x.ty && x.vd < 8 && x.rm == 0 && x.nosat == 0 && x.vc == 0 && x.opt ≤ 7 && (isFloatLane x.ty || x.opt ≤ 5) : Bool)) = true at hy
  simp only [VX.wfArith, VX.wfTrans, VX.wfLogic, VX.wfMod, VX.wfNtt, VX.wfMovk, Bool.and_eq_true, beq_iff_eq] at hy
  have hc : c.wf = true := by simp only [hy]
  have hx : x.wf false = true := by simp only [hy]
  have k := vx_word (maj := 47) (fn := 0) (c := c) (x := x) (by omega) (by omega) hc hx rfl rfl
  exact of01 hwf rfl rfl k.1 (.of_lt k.2.1) (by rw [k.2.2]; rfl)

theorem RoundTrip.vsel (c : Ctl) (x : VX) : RoundTrip.Statement (.vsel c x) := by
  intro hy
  have hwf := hy
  change ((c.wf && x.wfLogic : Bool)) = true at hy
  simp only [VX.wfArith, VX.wfTrans, VX.wfLogic, VX.wfMod, VX.wfNtt, VX.wfMovk, Bool.and_eq_true, beq_iff_eq] at hy
  have hc : c.wf = true := by simp only [hy]
  have hx : x.wf false = true := by simp only [hy]
  have k := vx_word (maj := 47) (fn := 1) (c := c) (x := x) (by omega) (by omega) hc hx rfl rfl
  exact of01 hwf rfl rfl k.1 (.of_lt k.2.1) (by rw [k.2.2]; rfl)

theorem RoundTrip.vand (c : Ctl) (x : VX) : RoundTrip.Statement (.vand c x) := by
  intro hy
  have hwf := hy
  change ((c.wf && x.wfLogic : Bool)) = true at hy
  simp only [VX.wfArith, VX.wfTrans, VX.wfLogic, VX.wfMod, VX.wfNtt, VX.wfMovk, Bool.and_eq_true, beq_iff_eq] at hy
  have hc : c.wf = true := by simp only [hy]
  have hx : x.wf false = true := by simp only [hy]
  have k := vx_word (maj := 47) (fn := 2) (c := c) (x := x) (by omega) (by omega) hc hx rfl rfl
  exact of01 hwf rfl rfl k.1 (.of_lt k.2.1) (by rw [k.2.2]; rfl)

theorem RoundTrip.vor (c : Ctl) (x : VX) : RoundTrip.Statement (.vor c x) := by
  intro hy
  have hwf := hy
  change ((c.wf && x.wfLogic : Bool)) = true at hy
  simp only [VX.wfArith, VX.wfTrans, VX.wfLogic, VX.wfMod, VX.wfNtt, VX.wfMovk, Bool.and_eq_true, beq_iff_eq] at hy
  have hc : c.wf = true := by simp only [hy]
  have hx : x.wf false = true := by simp only [hy]
  have k := vx_word (maj := 47) (fn := 3) (c := c) (x := x) (by omega) (by omega) hc hx rfl rfl
  exact of01 hwf rfl rfl k.1 (.of_lt k.2.1) (by rw [k.2.2]; rfl)

theorem RoundTrip.vxor (c : Ctl) (x : VX) : RoundTrip.Statement (.vxor c x) := by
  intro hy
  have hwf := hy
  change ((c.wf && x.wfLogic : Bool)) = true at hy
  simp only [VX.wfArith, VX.wfTrans, VX.wfLogic, VX.wfMod, VX.wfNtt, VX.wfMovk, Bool.and_eq_true, beq_iff_eq] at hy
  have hc : c.wf = true := by simp only [hy]
  have hx : x.wf false = true := by simp only [hy]
  have k := vx_word (maj := 47) (fn := 4) (c := c) (x := x) (by omega) (by omega) hc hx rfl rfl
  exact of01 hwf rfl rfl k.1 (.of_lt k.2.1) (by rw [k.2.2]; rfl)

theorem RoundTrip.vnot (c : Ctl) (x : VX) : RoundTrip.Statement (.vnot c x) := by
  intro hy
  have hwf := hy
  change ((c.wf && x.wfLogic && x.vb == 0 : Bool)) = true at hy
  simp only [VX.wfArith, VX.wfTrans, VX.wfLogic, VX.wfMod, VX.wfNtt, VX.wfMovk, Bool.and_eq_true, beq_iff_eq] at hy
  have hc : c.wf = true := by simp only [hy]
  have hx : x.wf false = true := by simp only [hy]
  have k := vx_word (maj := 47) (fn := 5) (c := c) (x := x) (by omega) (by omega) hc hx rfl rfl
  exact of01 hwf rfl rfl k.1 (.of_lt k.2.1) (by rw [k.2.2]; rfl)

theorem RoundTrip.vshl (c : Ctl) (x : VX) : RoundTrip.Statement (.vshl c x) := by
  intro hy
  have hwf := hy
  change ((c.wf && x.wfLogic && isIntLane x.ty : Bool)) = true at hy
  simp only [VX.wfArith, VX.wfTrans, VX.wfLogic, VX.wfMod, VX.wfNtt, VX.wfMovk, Bool.and_eq_true, beq_iff_eq] at hy
  have hc : c.wf = true := by simp only [hy]
  have hx : x.wf false = true := by simp only [hy]
  have k := vx_word (maj := 47) (fn := 6) (c := c) (x := x) (by omega) (by omega) hc hx rfl rfl
  exact of01 hwf rfl rfl k.1 (.of_lt k.2.1) (by rw [k.2.2]; rfl)

theorem RoundTrip.vshr (c : Ctl) (x : VX) : RoundTrip.Statement (.vshr c x) := by
  intro hy
  have hwf := hy
  change ((c.wf && x.wfLogic && isIntLane x.ty : Bool)) = true at hy
  simp only [VX.wfArith, VX.wfTrans, VX.wfLogic, VX.wfMod, VX.wfNtt, VX.wfMovk, Bool.and_eq_true, beq_iff_eq] at hy
  have hc : c.wf = true := by simp only [hy]
  have hx : x.wf false = true := by simp only [hy]
  have k := vx_word (maj := 47) (fn := 7) (c := c) (x := x) (by omega) (by omega) hc hx rfl rfl
  exact of01 hwf rfl rfl k.1 (.of_lt k.2.1) (by rw [k.2.2]; rfl)

theorem RoundTrip.vsra (c : Ctl) (x : VX) : RoundTrip.Statement (.vsra c x) := by
  intro hy
  have hwf := hy
  change ((c.wf && x.wfLogic && isIntLane x.ty : Bool)) = true at hy
  simp only [VX.wfArith, VX.wfTrans, VX.wfLogic, VX.wfMod, VX.wfNtt, VX.wfMovk, Bool.and_eq_true, beq_iff_eq] at hy
  have hc : c.wf = true := by simp only [hy]
  have hx : x.wf false = true := by simp only [hy]
  have k := vx_word (maj := 47) (fn := 8) (c := c) (x := x) (by omega) (by omega) hc hx rfl rfl
  exact of01 hwf rfl rfl k.1 (.of_lt k.2.1) (by rw [k.2.2]; rfl)

theorem RoundTrip.vmulhi (c : Ctl) (x : VX) : RoundTrip.Statement (.vmulhi c x) := by
  intro hy
  have hwf := hy
  change ((c.wf && x.wfLogic && isIntLane x.ty : Bool)) = true at hy
  simp only [VX.wfArith, VX.wfTrans, VX.wfLogic, VX.wfMod, VX.wfNtt, VX.wfMovk, Bool.and_eq_true, beq_iff_eq] at hy
  have hc : c.wf = true := by simp only [hy]
  have hx : x.wf false = true := by simp only [hy]
  have k := vx_word (maj := 47) (fn := 9) (c := c) (x := x) (by omega) (by omega) hc hx rfl rfl
  exact of01 hwf rfl rfl k.1 (.of_lt k.2.1) (by rw [k.2.2]; rfl)

theorem RoundTrip.vcvt (c : Ctl) (x : VX) : RoundTrip.Statement (.vcvt c x) := by
  intro hy
  have hwf := hy
  change ((c.wf && x.wf false && isLane x.ty && x.ty != 0x12 && isLane x.vc && x.vb == 0 && x.rm ≤ 4 && x.opt * Nat.min (laneCount x.ty) (laneCount x.vc) < Nat.max (laneCount x.ty) (laneCount x.vc) : Bool)) = true at hy
  simp only [VX.wfArith, VX.wfTrans, VX.wfLogic, VX.wfMod, VX.wfNtt, VX.wfMovk, Bool.and_eq_true, beq_iff_eq] at hy
  have hc : c.wf = true := by simp only [hy]
  have hx : x.wf false = true := by simp only [hy]
  have k := vx_word (maj := 48) (fn := 0) (c := c) (x := x) (by omega) (by omega) hc hx rfl rfl
  exact of01 hwf rfl rfl k.1 (.of_lt k.2.1) (by rw [k.2.2]; rfl)

theorem RoundTrip.vpack (c : Ctl) (x : VX) : RoundTrip.Statement (.vpack c x) := by
  intro hy
  have hwf := hy
  change ((c.wf && x.wf false && packOk x.vc x.ty x.opt && x.vb == 0 && x.km == 0 && x.nosat == 0 && (if x.vc == 8 || x.vc == 9 then x.rm ≤ 4 else x.rm == 0) : Bool)) = true at hy
  simp only [VX.wfArith, VX.wfTrans, VX.wfLogic, VX.wfMod, VX.wfNtt, VX.wfMovk, Bool.and_eq_true, beq_iff_eq] at hy
  have hc : c.wf = true := by simp only [hy]
  have hx : x.wf false = true := by simp only [hy]
  have k := vx_word (maj := 48) (fn := 1) (c := c) (x := x) (by omega) (by omega) hc hx rfl rfl
  exact of01 hwf rfl rfl k.1 (.of_lt k.2.1) (by rw [k.2.2]; rfl)

theorem RoundTrip.vunpk (c : Ctl) (x : VX) : RoundTrip.Statement (.vunpk c x) := by
  intro hy
  have hwf := hy
  change ((c.wf && x.wf false && packOk x.vc x.ty x.opt && x.vb == 0 && x.km == 0 && x.nosat == 0 && x.rm ≤ 4 : Bool)) = true at hy
  simp only [VX.wfArith, VX.wfTrans, VX.wfLogic, VX.wfMod, VX.wfNtt, VX.wfMovk, Bool.and_eq_true, beq_iff_eq] at hy
  have hc : c.wf = true := by simp only [hy]
  have hx : x.wf false = true := by simp only [hy]
  have k := vx_word (maj := 48) (fn := 2) (c := c) (x := x) (by omega) (by omega) hc hx rfl rfl
  exact of01 hwf rfl rfl k.1 (.of_lt k.2.1) (by rw [k.2.2]; rfl)

theorem RoundTrip.vperm (c : Ctl) (x : VX) : RoundTrip.Statement (.vperm c x) := by
  intro hy
  have hwf := hy
  change ((c.wf && x.wfLogic && 16 ≤ laneWidth x.ty : Bool)) = true at hy
  simp only [VX.wfArith, VX.wfTrans, VX.wfLogic, VX.wfMod, VX.wfNtt, VX.wfMovk, Bool.and_eq_true, beq_iff_eq] at hy
  have hc : c.wf = true := by simp only [hy]
  have hx : x.wf false = true := by simp only [hy]
  have k := vx_word (maj := 49) (fn := 0) (c := c) (x := x) (by omega) (by omega) hc hx rfl rfl
  exact of01 hwf rfl rfl k.1 (.of_lt k.2.1) (by rw [k.2.2]; rfl)

theorem RoundTrip.vmovkAnd (c : Ctl) (x : VX) : RoundTrip.Statement (.vmovkAnd c x) := by
  intro hy
  have hwf := hy
  change ((c.wf && x.wfMovk 0 true true true : Bool)) = true at hy
  simp only [VX.wfArith, VX.wfTrans, VX.wfLogic, VX.wfMod, VX.wfNtt, VX.wfMovk, Bool.and_eq_true, beq_iff_eq] at hy
  have hc : c.wf = true := by simp only [hy]
  have hx : x.wf false = true := by simp only [hy]
  have k := vx_word (maj := 49) (fn := 2) (c := c) (x := x) (by omega) (by omega) hc hx rfl rfl
  have ho : x.opt = 0 := by simp only [hy]
  exact of01 hwf rfl rfl k.1 (.of_lt k.2.1) (by rw [k.2.2]; simp only [vxWord, ho])

theorem RoundTrip.vmovkOr (c : Ctl) (x : VX) : RoundTrip.Statement (.vmovkOr c x) := by
  intro hy
  have hwf := hy
  change ((c.wf && x.wfMovk 1 true true true : Bool)) = true at hy
  simp only [VX.wfArith, VX.wfTrans, VX.wfLogic, VX.wfMod, VX.wfNtt, VX.wfMovk, Bool.and_eq_true, beq_iff_eq] at hy
  have hc : c.wf = true := by simp only [hy]
  have hx : x.wf false = true := by simp only [hy]
  have k := vx_word (maj := 49) (fn := 2) (c := c) (x := x) (by omega) (by omega) hc hx rfl rfl
  have ho : x.opt = 1 := by simp only [hy]
  exact of01 hwf rfl rfl k.1 (.of_lt k.2.1) (by rw [k.2.2]; simp only [vxWord, ho])

theorem RoundTrip.vmovkXor (c : Ctl) (x : VX) : RoundTrip.Statement (.vmovkXor c x) := by
  intro hy
  have hwf := hy
  change ((c.wf && x.wfMovk 2 true true true : Bool)) = true at hy
  simp only [VX.wfArith, VX.wfTrans, VX.wfLogic, VX.wfMod, VX.wfNtt, VX.wfMovk, Bool.and_eq_true, beq_iff_eq] at hy
  have hc : c.wf = true := by simp only [hy]
  have hx : x.wf false = true := by simp only [hy]
  have k := vx_word (maj := 49) (fn := 2) (c := c) (x := x) (by omega) (by omega) hc hx rfl rfl
  have ho : x.opt = 2 := by simp only [hy]
  exact of01 hwf rfl rfl k.1 (.of_lt k.2.1) (by rw [k.2.2]; simp only [vxWord, ho])

theorem RoundTrip.vmovkNot (c : Ctl) (x : VX) : RoundTrip.Statement (.vmovkNot c x) := by
  intro hy
  have hwf := hy
  change ((c.wf && x.wfMovk 3 true true false : Bool)) = true at hy
  simp only [VX.wfArith, VX.wfTrans, VX.wfLogic, VX.wfMod, VX.wfNtt, VX.wfMovk, Bool.and_eq_true, beq_iff_eq] at hy
  have hc : c.wf = true := by simp only [hy]
  have hx : x.wf false = true := by simp only [hy]
  have k := vx_word (maj := 49) (fn := 2) (c := c) (x := x) (by omega) (by omega) hc hx rfl rfl
  have ho : x.opt = 3 := by simp only [hy]
  exact of01 hwf rfl rfl k.1 (.of_lt k.2.1) (by rw [k.2.2]; simp only [vxWord, ho])

theorem RoundTrip.vmovkKv (c : Ctl) (x : VX) : RoundTrip.Statement (.vmovkKv c x) := by
  intro hy
  have hwf := hy
  change ((c.wf && x.wfMovk 4 false true false : Bool)) = true at hy
  simp only [VX.wfArith, VX.wfTrans, VX.wfLogic, VX.wfMod, VX.wfNtt, VX.wfMovk, Bool.and_eq_true, beq_iff_eq] at hy
  have hc : c.wf = true := by simp only [hy]
  have hx : x.wf false = true := by simp only [hy]
  have k := vx_word (maj := 49) (fn := 2) (c := c) (x := x) (by omega) (by omega) hc hx rfl rfl
  have ho : x.opt = 4 := by simp only [hy]
  exact of01 hwf rfl rfl k.1 (.of_lt k.2.1) (by rw [k.2.2]; simp only [vxWord, ho])

theorem RoundTrip.vmovkVk (c : Ctl) (x : VX) : RoundTrip.Statement (.vmovkVk c x) := by
  intro hy
  have hwf := hy
  change ((c.wf && x.wfMovk 5 true false false : Bool)) = true at hy
  simp only [VX.wfArith, VX.wfTrans, VX.wfLogic, VX.wfMod, VX.wfNtt, VX.wfMovk, Bool.and_eq_true, beq_iff_eq] at hy
  have hc : c.wf = true := by simp only [hy]
  have hx : x.wf false = true := by simp only [hy]
  have k := vx_word (maj := 49) (fn := 2) (c := c) (x := x) (by omega) (by omega) hc hx rfl rfl
  have ho : x.opt = 5 := by simp only [hy]
  exact of01 hwf rfl rfl k.1 (.of_lt k.2.1) (by rw [k.2.2]; simp only [vxWord, ho])

theorem RoundTrip.vmovkVq (c : Ctl) (x : VX) : RoundTrip.Statement (.vmovkVq c x) := by
  intro hy
  have hwf := hy
  change ((c.wf && x.wfMovk 6 true false false : Bool)) = true at hy
  simp only [VX.wfArith, VX.wfTrans, VX.wfLogic, VX.wfMod, VX.wfNtt, VX.wfMovk, Bool.and_eq_true, beq_iff_eq] at hy
  have hc : c.wf = true := by simp only [hy]
  have hx : x.wf false = true := by simp only [hy]
  have k := vx_word (maj := 49) (fn := 2) (c := c) (x := x) (by omega) (by omega) hc hx rfl rfl
  have ho : x.opt = 6 := by simp only [hy]
  exact of01 hwf rfl rfl k.1 (.of_lt k.2.1) (by rw [k.2.2]; simp only [vxWord, ho])

theorem RoundTrip.vmovkQv (c : Ctl) (x : VX) : RoundTrip.Statement (.vmovkQv c x) := by
  intro hy
  have hwf := hy
  change ((c.wf && x.wfMovk 7 false true false : Bool)) = true at hy
  simp only [VX.wfArith, VX.wfTrans, VX.wfLogic, VX.wfMod, VX.wfNtt, VX.wfMovk, Bool.and_eq_true, beq_iff_eq] at hy
  have hc : c.wf = true := by simp only [hy]
  have hx : x.wf false = true := by simp only [hy]
  have k := vx_word (maj := 49) (fn := 2) (c := c) (x := x) (by omega) (by omega) hc hx rfl rfl
  have ho : x.opt = 7 := by simp only [hy]
  exact of01 hwf rfl rfl k.1 (.of_lt k.2.1) (by rw [k.2.2]; simp only [vxWord, ho])

theorem RoundTrip.vredsum (c : Ctl) (x : VX) : RoundTrip.Statement (.vredsum c x) := by
  intro hy
  have hwf := hy
  change ((c.wf && x.wf false && x.nosat == 0 && x.vb == 0 && x.vc == 0 && x.opt == 0 && ((isFloat3 x.ty && x.rm ≤ 4) || (isIntLane x.ty && x.rm == 0)) : Bool)) = true at hy
  simp only [VX.wfArith, VX.wfTrans, VX.wfLogic, VX.wfMod, VX.wfNtt, VX.wfMovk, Bool.and_eq_true, beq_iff_eq] at hy
  have hc : c.wf = true := by simp only [hy]
  have hx : x.wf false = true := by simp only [hy]
  have k := vx_word (maj := 50) (fn := 0) (c := c) (x := x) (by omega) (by omega) hc hx rfl rfl
  exact of01 hwf rfl rfl k.1 (.of_lt k.2.1) (by rw [k.2.2]; rfl)

theorem RoundTrip.vredmax (c : Ctl) (x : VX) : RoundTrip.Statement (.vredmax c x) := by
  intro hy
  have hwf := hy
  change ((c.wf && x.wf false && x.nosat == 0 && x.vb == 0 && x.vc == 0 && x.opt == 0 && x.rm == 0 && (isFloat3 x.ty || isIntLane x.ty) : Bool)) = true at hy
  simp only [VX.wfArith, VX.wfTrans, VX.wfLogic, VX.wfMod, VX.wfNtt, VX.wfMovk, Bool.and_eq_true, beq_iff_eq] at hy
  have hc : c.wf = true := by simp only [hy]
  have hx : x.wf false = true := by simp only [hy]
  have k := vx_word (maj := 50) (fn := 1) (c := c) (x := x) (by omega) (by omega) hc hx rfl rfl
  exact of01 hwf rfl rfl k.1 (.of_lt k.2.1) (by rw [k.2.2]; rfl)

theorem RoundTrip.vaddm (c : Ctl) (x : VX) : RoundTrip.Statement (.vaddm c x) := by
  intro hy
  have hwf := hy
  change ((c.wf && x.wfMod : Bool)) = true at hy
  simp only [VX.wfArith, VX.wfTrans, VX.wfLogic, VX.wfMod, VX.wfNtt, VX.wfMovk, Bool.and_eq_true, beq_iff_eq] at hy
  have hc : c.wf = true := by simp only [hy]
  have hx : x.wf false = true := by simp only [hy]
  have k := vx_word (maj := 54) (fn := 0) (c := c) (x := x) (by omega) (by omega) hc hx rfl rfl
  exact of01 hwf rfl rfl k.1 (.of_lt k.2.1) (by rw [k.2.2]; rfl)

theorem RoundTrip.vsubm (c : Ctl) (x : VX) : RoundTrip.Statement (.vsubm c x) := by
  intro hy
  have hwf := hy
  change ((c.wf && x.wfMod : Bool)) = true at hy
  simp only [VX.wfArith, VX.wfTrans, VX.wfLogic, VX.wfMod, VX.wfNtt, VX.wfMovk, Bool.and_eq_true, beq_iff_eq] at hy
  have hc : c.wf = true := by simp only [hy]
  have hx : x.wf false = true := by simp only [hy]
  have k := vx_word (maj := 54) (fn := 1) (c := c) (x := x) (by omega) (by omega) hc hx rfl rfl
  exact of01 hwf rfl rfl k.1 (.of_lt k.2.1) (by rw [k.2.2]; rfl)

theorem RoundTrip.vmulm (c : Ctl) (x : VX) : RoundTrip.Statement (.vmulm c x) := by
  intro hy
  have hwf := hy
  change ((c.wf && x.wfMod : Bool)) = true at hy
  simp only [VX.wfArith, VX.wfTrans, VX.wfLogic, VX.wfMod, VX.wfNtt, VX.wfMovk, Bool.and_eq_true, beq_iff_eq] at hy
  have hc : c.wf = true := by simp only [hy]
  have hx : x.wf false = true := by simp only [hy]
  have k := vx_word (maj := 54) (fn := 2) (c := c) (x := x) (by omega) (by omega) hc hx rfl rfl
  exact of01 hwf rfl rfl k.1 (.of_lt k.2.1) (by rw [k.2.2]; rfl)

theorem RoundTrip.vntt (c : Ctl) (x : VX) : RoundTrip.Statement (.vntt c x) := by
  intro hy
  have hwf := hy
  change ((c.wf && x.wfNtt : Bool)) = true at hy
  simp only [VX.wfArith, VX.wfTrans, VX.wfLogic, VX.wfMod, VX.wfNtt, VX.wfMovk, Bool.and_eq_true, beq_iff_eq] at hy
  have hc : c.wf = true := by simp only [hy]
  have hx : x.wf false = true := by simp only [hy]
  have k := vx_word (maj := 55) (fn := 0) (c := c) (x := x) (by omega) (by omega) hc hx rfl rfl
  exact of01 hwf rfl rfl k.1 (.of_lt k.2.1) (by rw [k.2.2]; rfl)

theorem RoundTrip.vintt (c : Ctl) (x : VX) : RoundTrip.Statement (.vintt c x) := by
  intro hy
  have hwf := hy
  change ((c.wf && x.wfNtt : Bool)) = true at hy
  simp only [VX.wfArith, VX.wfTrans, VX.wfLogic, VX.wfMod, VX.wfNtt, VX.wfMovk, Bool.and_eq_true, beq_iff_eq] at hy
  have hc : c.wf = true := by simp only [hy]
  have hx : x.wf false = true := by simp only [hy]
  have k := vx_word (maj := 55) (fn := 1) (c := c) (x := x) (by omega) (by omega) hc hx rfl rfl
  exact of01 hwf rfl rfl k.1 (.of_lt k.2.1) (by rw [k.2.2]; rfl)

theorem RoundTrip.vhash (c : Ctl) (x : VX) : RoundTrip.Statement (.vhash c x) := by
  intro hy
  have hwf := hy
  change ((c.wf && x.wf false && (x.ty == 0x0F || x.ty == 0x11) && x.rm == 0 && x.nosat == 0 && x.opt == 0 && x.vb == 0 : Bool)) = true at hy
  simp only [VX.wfArith, VX.wfTrans, VX.wfLogic, VX.wfMod, VX.wfNtt, VX.wfMovk, Bool.and_eq_true, beq_iff_eq] at hy
  have hc : c.wf = true := by simp only [hy]
  have hx : x.wf false = true := by simp only [hy]
  have k := vx_word (maj := 56) (fn := 0) (c := c) (x := x) (by omega) (by omega) hc hx rfl rfl
  exact of01 hwf rfl rfl k.1 (.of_lt k.2.1) (by rw [k.2.2]; rfl)

theorem RoundTrip.vseed (c : Ctl) (x : VX) : RoundTrip.Statement (.vseed c x) := by
  intro hy
  have hwf := hy
  change ((c.wf && x.wf false && x.vd == 0 && x.vb == 0 && x.ty == 0 && x.km == 0 && x.rm == 0 && x.nosat == 0 && x.vc == 0 && x.opt == 0 : Bool)) = true at hy
  simp only [VX.wfArith, VX.wfTrans, VX.wfLogic, VX.wfMod, VX.wfNtt, VX.wfMovk, Bool.and_eq_true, beq_iff_eq] at hy
  have hc : c.wf = true := by simp only [hy]
  have hx : x.wf false = true := by simp only [hy]
  have k := vx_word (maj := 56) (fn := 1) (c := c) (x := x) (by omega) (by omega) hc hx rfl rfl
  exact of01 hwf rfl rfl k.1 (.of_lt k.2.1) (by rw [k.2.2]; rfl)

theorem RoundTrip.estart (e rs cont : Nat) : RoundTrip.Statement (.estart e rs cont) := by
  intro hy
  have hwf := hy
  change ((1 ≤ e && e ≤ 5 && rs < 32 && cont < 2 : Bool)) = true at hy
  simp only [Ctl.wf, VX.wf, VX.wfArith, VX.wfTrans, VX.wfLogic, VX.wfMod, VX.wfNtt, VX.wfMovk, VMem.wf, VMem.wfLd, CopyIn.wf, CopyOut.wf, SyncOp.wf, AtomOp.wf, VAtom.wf, Exch.wf, MmaOp.wf, sr3, ldst, brOk, siOk, Bool.and_eq_true, Bool.or_eq_true, decide_eq_true_eq, beq_iff_eq, bne_iff_ne, ne_eq, if_true, if_false, Bool.false_eq_true, Bool.not_true, Bool.not_false, Bool.true_or, Bool.false_or, Bool.true_and] at hy
  obtain ⟨O, hO⟩ : ∃ O, O = e * 2 ^ 15 + rs * 2 ^ 10 + cont * 2 ^ 9 := ⟨_, rfl⟩
  have hO' := hO
  have k := sy_word (maj := 16) (fn := 0) (op := O) (by omega) (by omega) (by omega) (by omega) rfl
  have kO : Holds O 0 [(9, 0), (1, cont), (5, rs), (3, e)] := holds_pack (by simp only [Fitting, and_true]; omega) (by rw [hO]; simp only [pack]; ring)
  have o0 : bits O 15 3 = e := kO.2.2.2.1
  have o1 : bits O 10 5 = rs := kO.2.2.1
  have o2 : bits O 9 1 = cont := kO.2.1
  refine of0 (w := 16 * 2 ^ 26 + 0 * 2 ^ 18 + O) hwf (by rw [hO']; rfl) (.of_lt k.1) ?_
  rw [k.2.2 []]
  simp only [syWord, k.2.1 15 3 (by omega), k.2.1 10 5 (by omega), k.2.1 9 1 (by omega), o0, o1, o2]

theorem RoundTrip.estop (e : Nat) : RoundTrip.Statement (.estop e) := by
  intro hy
  have hwf := hy
  change ((1 ≤ e && e ≤ 5 : Bool)) = true at hy
  simp only [Ctl.wf, VX.wf, VX.wfArith, VX.wfTrans, VX.wfLogic, VX.wfMod, VX.wfNtt, VX.wfMovk, VMem.wf, VMem.wfLd, CopyIn.wf, CopyOut.wf, SyncOp.wf, AtomOp.wf, VAtom.wf, Exch.wf, MmaOp.wf, sr3, ldst, brOk, siOk, Bool.and_eq_true, Bool.or_eq_true, decide_eq_true_eq, beq_iff_eq, bne_iff_ne, ne_eq, if_true, if_false, Bool.false_eq_true, Bool.not_true, Bool.not_false, Bool.true_or, Bool.false_or, Bool.true_and] at hy
  obtain ⟨O, hO⟩ : ∃ O, O = e * 2 ^ 15 := ⟨_, rfl⟩
  have hO' := hO
  have k := sy_word (maj := 16) (fn := 1) (op := O) (by omega) (by omega) (by omega) (by omega) rfl
  have o0 : bits O 15 3 = e := by rw [bits]; omega
  refine of0 (w := 16 * 2 ^ 26 + 1 * 2 ^ 18 + O) hwf (by rw [hO']; rfl) (.of_lt k.1) ?_
  rw [k.2.2 []]
  simp only [syWord, k.2.1 15 3 (by omega), o0]

theorem RoundTrip.ewait (e : Nat) : RoundTrip.Statement (.ewait e) := by
  intro hy
  have hwf := hy
  change ((1 ≤ e && e ≤ 5 : Bool)) = true at hy
  simp only [Ctl.wf, VX.wf, VX.wfArith, VX.wfTrans, VX.wfLogic, VX.wfMod, VX.wfNtt, VX.wfMovk, VMem.wf, VMem.wfLd, CopyIn.wf, CopyOut.wf, SyncOp.wf, AtomOp.wf, VAtom.wf, Exch.wf, MmaOp.wf, sr3, ldst, brOk, siOk, Bool.and_eq_true, Bool.or_eq_true, decide_eq_true_eq, beq_iff_eq, bne_iff_ne, ne_eq, if_true, if_false, Bool.false_eq_true, Bool.not_true, Bool.not_false, Bool.true_or, Bool.false_or, Bool.true_and] at hy
  obtain ⟨O, hO⟩ : ∃ O, O = e * 2 ^ 15 := ⟨_, rfl⟩
  have hO' := hO
  have k := sy_word (maj := 16) (fn := 3) (op := O) (by omega) (by omega) (by omega) (by omega) rfl
  have o0 : bits O 15 3 = e := by rw [bits]; omega
  refine of0 (w := 16 * 2 ^ 26 + 3 * 2 ^ 18 + O) hwf (by rw [hO']; rfl) (.of_lt k.1) ?_
  rw [k.2.2 []]
  simp only [syWord, k.2.1 15 3 (by omega), o0]

theorem RoundTrip.ebase (e rs : Nat) : RoundTrip.Statement (.ebase e rs) := by
  intro hy
  have hwf := hy
  change ((1 ≤ e && e ≤ 5 && rs < 32 : Bool)) = true at hy
  simp only [Ctl.wf, VX.wf, VX.wfArith, VX.wfTrans, VX.wfLogic, VX.wfMod, VX.wfNtt, VX.wfMovk, VMem.wf, VMem.wfLd, CopyIn.wf, CopyOut.wf, SyncOp.wf, AtomOp.wf, VAtom.wf, Exch.wf, MmaOp.wf, sr3, ldst, brOk, siOk, Bool.and_eq_true, Bool.or_eq_true, decide_eq_true_eq, beq_iff_eq, bne_iff_ne, ne_eq, if_true, if_false, Bool.false_eq_true, Bool.not_true, Bool.not_false, Bool.true_or, Bool.false_or, Bool.true_and] at hy
  obtain ⟨O, hO⟩ : ∃ O, O = e * 2 ^ 15 + rs * 2 ^ 10 := ⟨_, rfl⟩
  have hO' := hO
  have k := sy_word (maj := 16) (fn := 2) (op := O) (by omega) (by omega) (by omega) (by omega) rfl
  have kO : Holds O 0 [(10, 0), (5, rs), (3, e)] := holds_pack (by simp only [Fitting, and_true]; omega) (by rw [hO]; simp only [pack]; ring)
  have o0 : bits O 15 3 = e := kO.2.2.1
  have o1 : bits O 10 5 = rs := kO.2.1
  refine of0 (w := 16 * 2 ^ 26 + 2 * 2 ^ 18 + O) hwf (by rw [hO']; rfl) (.of_lt k.1) ?_
  rw [k.2.2 []]
  simp only [syWord, k.2.1 15 3 (by omega), k.2.1 10 5 (by omega), o0, o1]

theorem RoundTrip.rend : RoundTrip.Statement .rend := by
  intro hy
  have hwf := hy
  obtain ⟨O, hO⟩ : ∃ O, O = 0 := ⟨_, rfl⟩
  have hO' := hO
  have k := sy_word (maj := 16) (fn := 4) (op := O) (by omega) (by omega) (by omega) (by omega) rfl
  refine of0 (w := 16 * 2 ^ 26 + 4 * 2 ^ 18 + O) hwf (by rw [hO']; rfl) (.of_lt k.1) ?_
  rw [k.2.2 []]
  simp only [syWord]

theorem RoundTrip.frame : RoundTrip.Statement .frame := by
  intro hy
  have hwf := hy
  obtain ⟨O, hO⟩ : ∃ O, O = 0 := ⟨_, rfl⟩
  have hO' := hO
  have k := sy_word (maj := 17) (fn := 0) (op := O) (by omega) (by omega) (by omega) (by omega) rfl
  refine of0 (w := 17 * 2 ^ 26 + 0 * 2 ^ 18 + O) hwf (by rw [hO']; rfl) (.of_lt k.1) ?_
  rw [k.2.2 []]
  simp only [syWord]

theorem RoundTrip.seg (hstep : Nat) : RoundTrip.Statement (.seg hstep) := by
  intro hy
  have hwf := hy
  change ((hstep < 2 ^ 11 : Bool)) = true at hy
  simp only [Ctl.wf, VX.wf, VX.wfArith, VX.wfTrans, VX.wfLogic, VX.wfMod, VX.wfNtt, VX.wfMovk, VMem.wf, VMem.wfLd, CopyIn.wf, CopyOut.wf, SyncOp.wf, AtomOp.wf, VAtom.wf, Exch.wf, MmaOp.wf, sr3, ldst, brOk, siOk, Bool.and_eq_true, Bool.or_eq_true, decide_eq_true_eq, beq_iff_eq, bne_iff_ne, ne_eq, if_true, if_false, Bool.false_eq_true, Bool.not_true, Bool.not_false, Bool.true_or, Bool.false_or, Bool.true_and] at hy
  obtain ⟨O, hO⟩ : ∃ O, O = hstep := ⟨_, rfl⟩
  have hO' := hO
  have k := sy_word (maj := 17) (fn := 1) (op := O) (by omega) (by omega) (by omega) (by omega) rfl
  have o0 : bits O 0 11 = hstep := by rw [bits]; omega
  refine of0 (w := 17 * 2 ^ 26 + 1 * 2 ^ 18 + O) hwf (by rw [hO']; rfl) (.of_lt k.1) ?_
  rw [k.2.2 []]
  simp only [syWord, k.2.1 0 11 (by omega), o0]

theorem RoundTrip.colo (rd e : Nat) : RoundTrip.Statement (.colo rd e) := by
  intro hy
  have hwf := hy
  change ((rd < 32 && e ≤ 5 : Bool)) = true at hy
  simp only [Ctl.wf, VX.wf, VX.wfArith, VX.wfTrans, VX.wfLogic, VX.wfMod, VX.wfNtt, VX.wfMovk, VMem.wf, VMem.wfLd, CopyIn.wf, CopyOut.wf, SyncOp.wf, AtomOp.wf, VAtom.wf, Exch.wf, MmaOp.wf, sr3, ldst, brOk, siOk, Bool.and_eq_true, Bool.or_eq_true, decide_eq_true_eq, beq_iff_eq, bne_iff_ne, ne_eq, if_true, if_false, Bool.false_eq_true, Bool.not_true, Bool.not_false, Bool.true_or, Bool.false_or, Bool.true_and] at hy
  obtain ⟨O, hO⟩ : ∃ O, O = rd * 2 ^ 13 + e * 2 ^ 10 := ⟨_, rfl⟩
  have hO' := hO
  have k := sy_word (maj := 17) (fn := 2) (op := O) (by omega) (by omega) (by omega) (by omega) rfl
  have kO : Holds O 0 [(10, 0), (3, e), (5, rd)] := holds_pack (by simp only [Fitting, and_true]; omega) (by rw [hO]; simp only [pack]; ring)
  have o0 : bits O 13 5 = rd := kO.2.2.1
  have o1 : bits O 10 3 = e := kO.2.1
  refine of0 (w := 17 * 2 ^ 26 + 2 * 2 ^ 18 + O) hwf (by rw [hO']; rfl) (.of_lt k.1) ?_
  rw [k.2.2 []]
  simp only [syWord, k.2.1 13 5 (by omega), k.2.1 10 3 (by omega), o0, o1]

theorem RoundTrip.bar (scope sw : Nat) : RoundTrip.Statement (.bar scope sw) := by
  intro hy
  have hwf := hy
  change ((1 ≤ scope && scope ≤ 6 && sw < 32 && (scope == 6 || sw == 0) : Bool)) = true at hy
  simp only [Ctl.wf, VX.wf, VX.wfArith, VX.wfTrans, VX.wfLogic, VX.wfMod, VX.wfNtt, VX.wfMovk, VMem.wf, VMem.wfLd, CopyIn.wf, CopyOut.wf, SyncOp.wf, AtomOp.wf, VAtom.wf, Exch.wf, MmaOp.wf, sr3, ldst, brOk, siOk, Bool.and_eq_true, Bool.or_eq_true, decide_eq_true_eq, beq_iff_eq, bne_iff_ne, ne_eq, if_true, if_false, Bool.false_eq_true, Bool.not_true, Bool.not_false, Bool.true_or, Bool.false_or, Bool.true_and] at hy
  obtain ⟨O, hO⟩ : ∃ O, O = scope * 2 ^ 15 + sw * 2 ^ 10 := ⟨_, rfl⟩
  have hO' := hO
  have k := sy_word (maj := 18) (fn := 0) (op := O) (by omega) (by omega) (by omega) (by omega) rfl
  have kO : Holds O 0 [(10, 0), (5, sw), (3, scope)] := holds_pack (by simp only [Fitting, and_true]; omega) (by rw [hO]; simp only [pack]; ring)
  have o0 : bits O 15 3 = scope := kO.2.2.1
  have o1 : bits O 10 5 = sw := kO.2.1
  refine of0 (w := 18 * 2 ^ 26 + 0 * 2 ^ 18 + O) hwf (by rw [hO']; rfl) (.of_lt k.1) ?_
  rw [k.2.2 []]
  simp only [syWord, k.2.1 15 3 (by omega), k.2.1 10 5 (by omega), o0, o1]

theorem RoundTrip.qfence (scope emask : Nat) : RoundTrip.Statement (.qfence scope emask) := by
  intro hy
  have hwf := hy
  change ((1 ≤ scope && scope ≤ 6 && 1 ≤ emask && emask < 64 : Bool)) = true at hy
  simp only [Ctl.wf, VX.wf, VX.wfArith, VX.wfTrans, VX.wfLogic, VX.wfMod, VX.wfNtt, VX.wfMovk, VMem.wf, VMem.wfLd, CopyIn.wf, CopyOut.wf, SyncOp.wf, AtomOp.wf, VAtom.wf, Exch.wf, MmaOp.wf, sr3, ldst, brOk, siOk, Bool.and_eq_true, Bool.or_eq_true, decide_eq_true_eq, beq_iff_eq, bne_iff_ne, ne_eq, if_true, if_false, Bool.false_eq_true, Bool.not_true, Bool.not_false, Bool.true_or, Bool.false_or, Bool.true_and] at hy
  obtain ⟨O, hO⟩ : ∃ O, O = emask * 2 ^ 12 + scope * 2 ^ 9 := ⟨_, rfl⟩
  have hO' := hO
  have k := sy_word (maj := 18) (fn := 1) (op := O) (by omega) (by omega) (by omega) (by omega) rfl
  have kO : Holds O 0 [(9, 0), (3, scope), (6, emask)] := holds_pack (by simp only [Fitting, and_true]; omega) (by rw [hO]; simp only [pack]; ring)
  have o0 : bits O 9 3 = scope := kO.2.1
  have o1 : bits O 12 6 = emask := kO.2.2.1
  refine of0 (w := 18 * 2 ^ 26 + 1 * 2 ^ 18 + O) hwf (by rw [hO']; rfl) (.of_lt k.1) ?_
  rw [k.2.2 []]
  simp only [syWord, k.2.1 9 3 (by omega), k.2.1 12 6 (by omega), o0, o1]

theorem RoundTrip.waitcw (sw p : Nat) : RoundTrip.Statement (.waitcw sw p) := by
  intro hy
  have hwf := hy
  change ((sw < 32 && p < 2 : Bool)) = true at hy
  simp only [Ctl.wf, VX.wf, VX.wfArith, VX.wfTrans, VX.wfLogic, VX.wfMod, VX.wfNtt, VX.wfMovk, VMem.wf, VMem.wfLd, CopyIn.wf, CopyOut.wf, SyncOp.wf, AtomOp.wf, VAtom.wf, Exch.wf, MmaOp.wf, sr3, ldst, brOk, siOk, Bool.and_eq_true, Bool.or_eq_true, decide_eq_true_eq, beq_iff_eq, bne_iff_ne, ne_eq, if_true, if_false, Bool.false_eq_true, Bool.not_true, Bool.not_false, Bool.true_or, Bool.false_or, Bool.true_and] at hy
  obtain ⟨O, hO⟩ : ∃ O, O = p * 2 ^ 17 + sw * 2 ^ 12 := ⟨_, rfl⟩
  have hO' := hO
  have k := sy_word (maj := 18) (fn := 2) (op := O) (by omega) (by omega) (by omega) (by omega) rfl
  have kO : Holds O 0 [(12, 0), (5, sw), (1, p)] := holds_pack (by simp only [Fitting, and_true]; omega) (by rw [hO]; simp only [pack]; ring)
  have o0 : bits O 12 5 = sw := kO.2.1
  have o1 : bits O 17 1 = p := kO.2.2.1
  refine of0 (w := 18 * 2 ^ 26 + 2 * 2 ^ 18 + O) hwf (by rw [hO']; rfl) (.of_lt k.1) ?_
  rw [k.2.2 []]
  simp only [syWord, k.2.1 12 5 (by omega), k.2.1 17 1 (by omega), o0, o1]

theorem RoundTrip.acommit (h : Nat) : RoundTrip.Statement (.acommit h) := by
  intro hy
  have hwf := hy
  change ((h == 4 || h == 5 : Bool)) = true at hy
  simp only [Ctl.wf, VX.wf, VX.wfArith, VX.wfTrans, VX.wfLogic, VX.wfMod, VX.wfNtt, VX.wfMovk, VMem.wf, VMem.wfLd, CopyIn.wf, CopyOut.wf, SyncOp.wf, AtomOp.wf, VAtom.wf, Exch.wf, MmaOp.wf, sr3, ldst, brOk, siOk, Bool.and_eq_true, Bool.or_eq_true, decide_eq_true_eq, beq_iff_eq, bne_iff_ne, ne_eq, if_true, if_false, Bool.false_eq_true, Bool.not_true, Bool.not_false, Bool.true_or, Bool.false_or, Bool.true_and] at hy
  obtain ⟨O, hO⟩ : ∃ O, O = h := ⟨_, rfl⟩
  have hO' := hO
  have k := sy_word (maj := 18) (fn := 3) (op := O) (by omega) (by omega) (by omega) (by omega) rfl
  have o0 : bits O 0 3 = h := by rw [bits]; omega
  refine of0 (w := 18 * 2 ^ 26 + 3 * 2 ^ 18 + O) hwf (by rw [hO']; rfl) (.of_lt k.1) ?_
  rw [k.2.2 []]
  simp only [syWord, k.2.1 0 3 (by omega), o0]

theorem RoundTrip.adiscard (h : Nat) : RoundTrip.Statement (.adiscard h) := by
  intro hy
  have hwf := hy
  change ((h == 4 || h == 5 : Bool)) = true at hy
  simp only [Ctl.wf, VX.wf, VX.wfArith, VX.wfTrans, VX.wfLogic, VX.wfMod, VX.wfNtt, VX.wfMovk, VMem.wf, VMem.wfLd, CopyIn.wf, CopyOut.wf, SyncOp.wf, AtomOp.wf, VAtom.wf, Exch.wf, MmaOp.wf, sr3, ldst, brOk, siOk, Bool.and_eq_true, Bool.or_eq_true, decide_eq_true_eq, beq_iff_eq, bne_iff_ne, ne_eq, if_true, if_false, Bool.false_eq_true, Bool.not_true, Bool.not_false, Bool.true_or, Bool.false_or, Bool.true_and] at hy
  obtain ⟨O, hO⟩ : ∃ O, O = h := ⟨_, rfl⟩
  have hO' := hO
  have k := sy_word (maj := 18) (fn := 4) (op := O) (by omega) (by omega) (by omega) (by omega) rfl
  have o0 : bits O 0 3 = h := by rw [bits]; omega
  refine of0 (w := 18 * 2 ^ 26 + 4 * 2 ^ 18 + O) hwf (by rw [hO']; rfl) (.of_lt k.1) ?_
  rw [k.2.2 []]
  simp only [syWord, k.2.1 0 3 (by omega), o0]

theorem RoundTrip.nop : RoundTrip.Statement .nop := by
  intro hy
  have hwf := hy
  obtain ⟨O, hO⟩ : ∃ O, O = 0 := ⟨_, rfl⟩
  have hO' := hO
  have k := sy_word (maj := 19) (fn := 0) (op := O) (by omega) (by omega) (by omega) (by omega) rfl
  refine of0 (w := 19 * 2 ^ 26 + 0 * 2 ^ 18 + O) hwf (by rw [hO']; rfl) (.of_lt k.1) ?_
  rw [k.2.2 []]
  simp only [syWord]

theorem RoundTrip.eret : RoundTrip.Statement .eret := by
  intro hy
  have hwf := hy
  obtain ⟨O, hO⟩ : ∃ O, O = 0 := ⟨_, rfl⟩
  have hO' := hO
  have k := sy_word (maj := 19) (fn := 4) (op := O) (by omega) (by omega) (by omega) (by omega) rfl
  refine of0 (w := 19 * 2 ^ 26 + 4 * 2 ^ 18 + O) hwf (by rw [hO']; rfl) (.of_lt k.1) ?_
  rw [k.2.2 []]
  simp only [syWord]

theorem RoundTrip.halt : RoundTrip.Statement .halt := by
  intro hy
  have hwf := hy
  obtain ⟨O, hO⟩ : ∃ O, O = 0 := ⟨_, rfl⟩
  have hO' := hO
  have k := sy_word (maj := 19) (fn := 11) (op := O) (by omega) (by omega) (by omega) (by omega) rfl
  refine of0 (w := 19 * 2 ^ 26 + 11 * 2 ^ 18 + O) hwf (by rw [hO']; rfl) (.of_lt k.1) ?_
  rw [k.2.2 []]
  simp only [syWord]

theorem RoundTrip.srd (rd reg : Nat) : RoundTrip.Statement (.srd rd reg) := by
  intro hy
  have hwf := hy
  change ((rd < 32 && reg < 2 ^ 12 : Bool)) = true at hy
  simp only [Ctl.wf, VX.wf, VX.wfArith, VX.wfTrans, VX.wfLogic, VX.wfMod, VX.wfNtt, VX.wfMovk, VMem.wf, VMem.wfLd, CopyIn.wf, CopyOut.wf, SyncOp.wf, AtomOp.wf, VAtom.wf, Exch.wf, MmaOp.wf, sr3, ldst, brOk, siOk, Bool.and_eq_true, Bool.or_eq_true, decide_eq_true_eq, beq_iff_eq, bne_iff_ne, ne_eq, if_true, if_false, Bool.false_eq_true, Bool.not_true, Bool.not_false, Bool.true_or, Bool.false_or, Bool.true_and] at hy
  obtain ⟨O, hO⟩ : ∃ O, O = rd * 2 ^ 13 + reg := ⟨_, rfl⟩
  have hO' := hO
  have k := sy_word (maj := 19) (fn := 1) (op := O) (by omega) (by omega) (by omega) (by omega) rfl
  have kO : Holds O 0 [(12, reg), (1, 0), (5, rd)] := holds_pack (by simp only [Fitting, and_true]; omega) (by rw [hO]; simp only [pack]; ring)
  have o0 : bits O 13 5 = rd := kO.2.2.1
  have o1 : bits O 0 12 = reg := kO.1
  refine of0 (w := 19 * 2 ^ 26 + 1 * 2 ^ 18 + O) hwf (by rw [hO']; rfl) (.of_lt k.1) ?_
  rw [k.2.2 []]
  simp only [syWord, k.2.1 13 5 (by omega), k.2.1 0 12 (by omega), o0, o1]

theorem RoundTrip.swr (reg rs : Nat) : RoundTrip.Statement (.swr reg rs) := by
  intro hy
  have hwf := hy
  change ((rs < 32 && reg < 2 ^ 12 : Bool)) = true at hy
  simp only [Ctl.wf, VX.wf, VX.wfArith, VX.wfTrans, VX.wfLogic, VX.wfMod, VX.wfNtt, VX.wfMovk, VMem.wf, VMem.wfLd, CopyIn.wf, CopyOut.wf, SyncOp.wf, AtomOp.wf, VAtom.wf, Exch.wf, MmaOp.wf, sr3, ldst, brOk, siOk, Bool.and_eq_true, Bool.or_eq_true, decide_eq_true_eq, beq_iff_eq, bne_iff_ne, ne_eq, if_true, if_false, Bool.false_eq_true, Bool.not_true, Bool.not_false, Bool.true_or, Bool.false_or, Bool.true_and] at hy
  obtain ⟨O, hO⟩ : ∃ O, O = rs * 2 ^ 13 + reg := ⟨_, rfl⟩
  have hO' := hO
  have k := sy_word (maj := 19) (fn := 2) (op := O) (by omega) (by omega) (by omega) (by omega) rfl
  have kO : Holds O 0 [(12, reg), (1, 0), (5, rs)] := holds_pack (by simp only [Fitting, and_true]; omega) (by rw [hO]; simp only [pack]; ring)
  have o0 : bits O 13 5 = rs := kO.2.2.1
  have o1 : bits O 0 12 = reg := kO.1
  refine of0 (w := 19 * 2 ^ 26 + 2 * 2 ^ 18 + O) hwf (by rw [hO']; rfl) (.of_lt k.1) ?_
  rw [k.2.2 []]
  simp only [syWord, k.2.1 13 5 (by omega), k.2.1 0 12 (by omega), o0, o1]

theorem RoundTrip.trap (code : Nat) : RoundTrip.Statement (.trap code) := by
  intro hy
  have hwf := hy
  change ((code < 2 ^ 16 : Bool)) = true at hy
  simp only [Ctl.wf, VX.wf, VX.wfArith, VX.wfTrans, VX.wfLogic, VX.wfMod, VX.wfNtt, VX.wfMovk, VMem.wf, VMem.wfLd, CopyIn.wf, CopyOut.wf, SyncOp.wf, AtomOp.wf, VAtom.wf, Exch.wf, MmaOp.wf, sr3, ldst, brOk, siOk, Bool.and_eq_true, Bool.or_eq_true, decide_eq_true_eq, beq_iff_eq, bne_iff_ne, ne_eq, if_true, if_false, Bool.false_eq_true, Bool.not_true, Bool.not_false, Bool.true_or, Bool.false_or, Bool.true_and] at hy
  obtain ⟨O, hO⟩ : ∃ O, O = code := ⟨_, rfl⟩
  have hO' := hO
  have k := sy_word (maj := 19) (fn := 3) (op := O) (by omega) (by omega) (by omega) (by omega) rfl
  have o0 : bits O 0 16 = code := by rw [bits]; omega
  refine of0 (w := 19 * 2 ^ 26 + 3 * 2 ^ 18 + O) hwf (by rw [hO']; rfl) (.of_lt k.1) ?_
  rw [k.2.2 []]
  simp only [syWord, k.2.1 0 16 (by omega), o0]

theorem RoundTrip.time (rd : Nat) : RoundTrip.Statement (.time rd) := by
  intro hy
  have hwf := hy
  change ((rd < 32 : Bool)) = true at hy
  simp only [Ctl.wf, VX.wf, VX.wfArith, VX.wfTrans, VX.wfLogic, VX.wfMod, VX.wfNtt, VX.wfMovk, VMem.wf, VMem.wfLd, CopyIn.wf, CopyOut.wf, SyncOp.wf, AtomOp.wf, VAtom.wf, Exch.wf, MmaOp.wf, sr3, ldst, brOk, siOk, Bool.and_eq_true, Bool.or_eq_true, decide_eq_true_eq, beq_iff_eq, bne_iff_ne, ne_eq, if_true, if_false, Bool.false_eq_true, Bool.not_true, Bool.not_false, Bool.true_or, Bool.false_or, Bool.true_and] at hy
  obtain ⟨O, hO⟩ : ∃ O, O = rd * 2 ^ 13 := ⟨_, rfl⟩
  have hO' := hO
  have k := sy_word (maj := 19) (fn := 5) (op := O) (by omega) (by omega) (by omega) (by omega) rfl
  have o0 : bits O 13 5 = rd := by rw [bits]; omega
  refine of0 (w := 19 * 2 ^ 26 + 5 * 2 ^ 18 + O) hwf (by rw [hO']; rfl) (.of_lt k.1) ?_
  rw [k.2.2 []]
  simp only [syWord, k.2.1 13 5 (by omega), o0]

theorem RoundTrip.snap (rs rt sw : Nat) : RoundTrip.Statement (.snap rs rt sw) := by
  intro hy
  have hwf := hy
  change ((sr3 rs rt sw : Bool)) = true at hy
  simp only [Ctl.wf, VX.wf, VX.wfArith, VX.wfTrans, VX.wfLogic, VX.wfMod, VX.wfNtt, VX.wfMovk, VMem.wf, VMem.wfLd, CopyIn.wf, CopyOut.wf, SyncOp.wf, AtomOp.wf, VAtom.wf, Exch.wf, MmaOp.wf, sr3, ldst, brOk, siOk, Bool.and_eq_true, Bool.or_eq_true, decide_eq_true_eq, beq_iff_eq, bne_iff_ne, ne_eq, if_true, if_false, Bool.false_eq_true, Bool.not_true, Bool.not_false, Bool.true_or, Bool.false_or, Bool.true_and] at hy
  obtain ⟨O, hO⟩ : ∃ O, O = rs * 2 ^ 13 + rt * 2 ^ 8 + sw := ⟨_, rfl⟩
  have hO' := hO
  have k := sy_word (maj := 19) (fn := 6) (op := O) (by omega) (by omega) (by omega) (by omega) rfl
  have kO : Holds O 0 [(5, sw), (3, 0), (5, rt), (5, rs)] := holds_pack (by simp only [Fitting, and_true]; omega) (by rw [hO]; simp only [pack]; ring)
  have o0 : bits O 13 5 = rs := kO.2.2.2.1
  have o1 : bits O 8 5 = rt := kO.2.2.1
  have o2 : bits O 0 5 = sw := kO.1
  refine of0 (w := 19 * 2 ^ 26 + 6 * 2 ^ 18 + O) hwf (by rw [hO']; rfl) (.of_lt k.1) ?_
  rw [k.2.2 []]
  simp only [syWord, k.2.1 13 5 (by omega), k.2.1 8 5 (by omega), k.2.1 0 5 (by omega), o0, o1, o2]

theorem RoundTrip.rollb (rs rt sw : Nat) : RoundTrip.Statement (.rollb rs rt sw) := by
  intro hy
  have hwf := hy
  change ((sr3 rs rt sw : Bool)) = true at hy
  simp only [Ctl.wf, VX.wf, VX.wfArith, VX.wfTrans, VX.wfLogic, VX.wfMod, VX.wfNtt, VX.wfMovk, VMem.wf, VMem.wfLd, CopyIn.wf, CopyOut.wf, SyncOp.wf, AtomOp.wf, VAtom.wf, Exch.wf, MmaOp.wf, sr3, ldst, brOk, siOk, Bool.and_eq_true, Bool.or_eq_true, decide_eq_true_eq, beq_iff_eq, bne_iff_ne, ne_eq, if_true, if_false, Bool.false_eq_true, Bool.not_true, Bool.not_false, Bool.true_or, Bool.false_or, Bool.true_and] at hy
  obtain ⟨O, hO⟩ : ∃ O, O = rs * 2 ^ 13 + rt * 2 ^ 8 + sw := ⟨_, rfl⟩
  have hO' := hO
  have k := sy_word (maj := 19) (fn := 7) (op := O) (by omega) (by omega) (by omega) (by omega) rfl
  have kO : Holds O 0 [(5, sw), (3, 0), (5, rt), (5, rs)] := holds_pack (by simp only [Fitting, and_true]; omega) (by rw [hO]; simp only [pack]; ring)
  have o0 : bits O 13 5 = rs := kO.2.2.2.1
  have o1 : bits O 8 5 = rt := kO.2.2.1
  have o2 : bits O 0 5 = sw := kO.1
  refine of0 (w := 19 * 2 ^ 26 + 7 * 2 ^ 18 + O) hwf (by rw [hO']; rfl) (.of_lt k.1) ?_
  rw [k.2.2 []]
  simp only [syWord, k.2.1 13 5 (by omega), k.2.1 8 5 (by omega), k.2.1 0 5 (by omega), o0, o1, o2]

theorem RoundTrip.keyz (rs sw : Nat) : RoundTrip.Statement (.keyz rs sw) := by
  intro hy
  have hwf := hy
  change ((siOk rs sw : Bool)) = true at hy
  simp only [Ctl.wf, VX.wf, VX.wfArith, VX.wfTrans, VX.wfLogic, VX.wfMod, VX.wfNtt, VX.wfMovk, VMem.wf, VMem.wfLd, CopyIn.wf, CopyOut.wf, SyncOp.wf, AtomOp.wf, VAtom.wf, Exch.wf, MmaOp.wf, sr3, ldst, brOk, siOk, Bool.and_eq_true, Bool.or_eq_true, decide_eq_true_eq, beq_iff_eq, bne_iff_ne, ne_eq, if_true, if_false, Bool.false_eq_true, Bool.not_true, Bool.not_false, Bool.true_or, Bool.false_or, Bool.true_and] at hy
  obtain ⟨O, hO⟩ : ∃ O, O = rs * 2 ^ 13 + sw := ⟨_, rfl⟩
  have hO' := hO
  have k := sy_word (maj := 19) (fn := 8) (op := O) (by omega) (by omega) (by omega) (by omega) rfl
  have kO : Holds O 0 [(5, sw), (8, 0), (5, rs)] := holds_pack (by simp only [Fitting, and_true]; omega) (by rw [hO]; simp only [pack]; ring)
  have o0 : bits O 13 5 = rs := kO.2.2.1
  have o1 : bits O 0 5 = sw := kO.1
  refine of0 (w := 19 * 2 ^ 26 + 8 * 2 ^ 18 + O) hwf (by rw [hO']; rfl) (.of_lt k.1) ?_
  rw [k.2.2 []]
  simp only [syWord, k.2.1 13 5 (by omega), k.2.1 0 5 (by omega), o0, o1]

theorem RoundTrip.ldsys (rd rs : Nat) (disp : Int) : RoundTrip.Statement (.ldsys rd rs disp) := by
  intro hy
  have hwf := hy
  change ((siOk rd rs && -128 ≤ disp && disp < 128 : Bool)) = true at hy
  simp only [Ctl.wf, VX.wf, VX.wfArith, VX.wfTrans, VX.wfLogic, VX.wfMod, VX.wfNtt, VX.wfMovk, VMem.wf, VMem.wfLd, CopyIn.wf, CopyOut.wf, SyncOp.wf, AtomOp.wf, VAtom.wf, Exch.wf, MmaOp.wf, sr3, ldst, brOk, siOk, Bool.and_eq_true, Bool.or_eq_true, decide_eq_true_eq, beq_iff_eq, bne_iff_ne, ne_eq, if_true, if_false, Bool.false_eq_true, Bool.not_true, Bool.not_false, Bool.true_or, Bool.false_or, Bool.true_and] at hy
  have hf := field_lt 8 disp
  have hx := sext_field (n := 8) (by omega) disp (by omega) (by omega)
  obtain ⟨O, hO⟩ : ∃ O, O = rd * 2 ^ 13 + rs * 2 ^ 8 + field 8 disp := ⟨_, rfl⟩
  have hO' := hO
  have k := sy_word (maj := 19) (fn := 9) (op := O) (by omega) (by omega) (by omega) (by omega) rfl
  have kO : Holds O 0 [(8, field 8 disp), (5, rs), (5, rd)] := holds_pack (by simp only [Fitting, and_true]; omega) (by rw [hO]; simp only [pack]; ring)
  have o0 : bits O 13 5 = rd := kO.2.2.1
  have o1 : bits O 8 5 = rs := kO.2.1
  have o2 : bits O 0 8 = field 8 disp := kO.1
  refine of0 (w := 19 * 2 ^ 26 + 9 * 2 ^ 18 + O) hwf (by rw [hO']; rfl) (.of_lt k.1) ?_
  rw [k.2.2 []]
  simp only [syWord, k.2.1 13 5 (by omega), k.2.1 8 5 (by omega), k.2.1 0 8 (by omega), o0, o1, o2, hx]

theorem RoundTrip.stsys (rt rs : Nat) (disp : Int) : RoundTrip.Statement (.stsys rt rs disp) := by
  intro hy
  have hwf := hy
  change ((siOk rt rs && -128 ≤ disp && disp < 128 : Bool)) = true at hy
  simp only [Ctl.wf, VX.wf, VX.wfArith, VX.wfTrans, VX.wfLogic, VX.wfMod, VX.wfNtt, VX.wfMovk, VMem.wf, VMem.wfLd, CopyIn.wf, CopyOut.wf, SyncOp.wf, AtomOp.wf, VAtom.wf, Exch.wf, MmaOp.wf, sr3, ldst, brOk, siOk, Bool.and_eq_true, Bool.or_eq_true, decide_eq_true_eq, beq_iff_eq, bne_iff_ne, ne_eq, if_true, if_false, Bool.false_eq_true, Bool.not_true, Bool.not_false, Bool.true_or, Bool.false_or, Bool.true_and] at hy
  have hf := field_lt 8 disp
  have hx := sext_field (n := 8) (by omega) disp (by omega) (by omega)
  obtain ⟨O, hO⟩ : ∃ O, O = rt * 2 ^ 13 + rs * 2 ^ 8 + field 8 disp := ⟨_, rfl⟩
  have hO' := hO
  have k := sy_word (maj := 19) (fn := 10) (op := O) (by omega) (by omega) (by omega) (by omega) rfl
  have kO : Holds O 0 [(8, field 8 disp), (5, rs), (5, rt)] := holds_pack (by simp only [Fitting, and_true]; omega) (by rw [hO]; simp only [pack]; ring)
  have o0 : bits O 13 5 = rt := kO.2.2.1
  have o1 : bits O 8 5 = rs := kO.2.1
  have o2 : bits O 0 8 = field 8 disp := kO.1
  refine of0 (w := 19 * 2 ^ 26 + 10 * 2 ^ 18 + O) hwf (by rw [hO']; rfl) (.of_lt k.1) ?_
  rw [k.2.2 []]
  simp only [syWord, k.2.1 13 5 (by omega), k.2.1 8 5 (by omega), k.2.1 0 8 (by omega), o0, o1, o2, hx]

theorem RoundTrip.shli (rd rs n : Nat) : RoundTrip.Statement (.shli rd rs n) := by
  intro hy
  have hwf := hy
  change ((siOk rd rs && n < 64 : Bool)) = true at hy
  simp only [Ctl.wf, VX.wf, VX.wfArith, VX.wfTrans, VX.wfLogic, VX.wfMod, VX.wfNtt, VX.wfMovk, VMem.wf, VMem.wfLd, CopyIn.wf, CopyOut.wf, SyncOp.wf, AtomOp.wf, VAtom.wf, Exch.wf, MmaOp.wf, sr3, ldst, brOk, siOk, Bool.and_eq_true, Bool.or_eq_true, decide_eq_true_eq, beq_iff_eq, bne_iff_ne, ne_eq, if_true, if_false, Bool.false_eq_true, Bool.not_true, Bool.not_false, Bool.true_or, Bool.false_or, Bool.true_and] at hy
  obtain ⟨W, hW⟩ : ∃ W, W = 7 * 2 ^ 26 + rd * 2 ^ 21 + rs * 2 ^ 16 + 0 * 2 ^ 14 + n := ⟨_, rfl⟩
  have hW' := hW
  try simp only [engWord, enc29, enc3C, MmaOp.word, VX.word] at hW
  have kW : Holds W 0 [(6, n), (8, 0), (2, 0), (5, rs), (5, rd), (6, 7)] := holds_pack (by simp only [Fitting, and_true]; omega) (by rw [hW]; simp only [pack]; ring)
  have s0 : bits W 26 6 = 7 := kW.2.2.2.2.2.1
  have s1 : bits W 21 5 = rd := kW.2.2.2.2.1
  have s2 : bits W 16 5 = rs := kW.2.2.2.1
  have s3 : bits W 14 2 = 0 := kW.2.2.1
  have s4 : bits W 0 6 = n := kW.1
  refine of0 (w := W) hwf (by rw [hW']; rfl) (.of_lt (by omega)) ?_
  simp [extract, scalarWord, ctlOf, payNear, payFar, s0, s1, s2, s3, s4]

theorem RoundTrip.shri (rd rs n : Nat) : RoundTrip.Statement (.shri rd rs n) := by
  intro hy
  have hwf := hy
  change ((siOk rd rs && n < 64 : Bool)) = true at hy
  simp only [Ctl.wf, VX.wf, VX.wfArith, VX.wfTrans, VX.wfLogic, VX.wfMod, VX.wfNtt, VX.wfMovk, VMem.wf, VMem.wfLd, CopyIn.wf, CopyOut.wf, SyncOp.wf, AtomOp.wf, VAtom.wf, Exch.wf, MmaOp.wf, sr3, ldst, brOk, siOk, Bool.and_eq_true, Bool.or_eq_true, decide_eq_true_eq, beq_iff_eq, bne_iff_ne, ne_eq, if_true, if_false, Bool.false_eq_true, Bool.not_true, Bool.not_false, Bool.true_or, Bool.false_or, Bool.true_and] at hy
  obtain ⟨W, hW⟩ : ∃ W, W = 7 * 2 ^ 26 + rd * 2 ^ 21 + rs * 2 ^ 16 + 1 * 2 ^ 14 + n := ⟨_, rfl⟩
  have hW' := hW
  try simp only [engWord, enc29, enc3C, MmaOp.word, VX.word] at hW
  have kW : Holds W 0 [(6, n), (8, 0), (2, 1), (5, rs), (5, rd), (6, 7)] := holds_pack (by simp only [Fitting, and_true]; omega) (by rw [hW]; simp only [pack]; ring)
  have s0 : bits W 26 6 = 7 := kW.2.2.2.2.2.1
  have s1 : bits W 21 5 = rd := kW.2.2.2.2.1
  have s2 : bits W 16 5 = rs := kW.2.2.2.1
  have s3 : bits W 14 2 = 1 := kW.2.2.1
  have s4 : bits W 0 6 = n := kW.1
  refine of0 (w := W) hwf (by rw [hW']; rfl) (.of_lt (by omega)) ?_
  simp [extract, scalarWord, ctlOf, payNear, payFar, s0, s1, s2, s3, s4]

theorem RoundTrip.srai (rd rs n : Nat) : RoundTrip.Statement (.srai rd rs n) := by
  intro hy
  have hwf := hy
  change ((siOk rd rs && n < 64 : Bool)) = true at hy
  simp only [Ctl.wf, VX.wf, VX.wfArith, VX.wfTrans, VX.wfLogic, VX.wfMod, VX.wfNtt, VX.wfMovk, VMem.wf, VMem.wfLd, CopyIn.wf, CopyOut.wf, SyncOp.wf, AtomOp.wf, VAtom.wf, Exch.wf, MmaOp.wf, sr3, ldst, brOk, siOk, Bool.and_eq_true, Bool.or_eq_true, decide_eq_true_eq, beq_iff_eq, bne_iff_ne, ne_eq, if_true, if_false, Bool.false_eq_true, Bool.not_true, Bool.not_false, Bool.true_or, Bool.false_or, Bool.true_and] at hy
  obtain ⟨W, hW⟩ : ∃ W, W = 7 * 2 ^ 26 + rd * 2 ^ 21 + rs * 2 ^ 16 + 2 * 2 ^ 14 + n := ⟨_, rfl⟩
  have hW' := hW
  try simp only [engWord, enc29, enc3C, MmaOp.word, VX.word] at hW
  have kW : Holds W 0 [(6, n), (8, 0), (2, 2), (5, rs), (5, rd), (6, 7)] := holds_pack (by simp only [Fitting, and_true]; omega) (by rw [hW]; simp only [pack]; ring)
  have s0 : bits W 26 6 = 7 := kW.2.2.2.2.2.1
  have s1 : bits W 21 5 = rd := kW.2.2.2.2.1
  have s2 : bits W 16 5 = rs := kW.2.2.2.1
  have s3 : bits W 14 2 = 2 := kW.2.2.1
  have s4 : bits W 0 6 = n := kW.1
  refine of0 (w := W) hwf (by rw [hW']; rfl) (.of_lt (by omega)) ?_
  simp [extract, scalarWord, ctlOf, payNear, payFar, s0, s1, s2, s3, s4]

theorem RoundTrip.lui (rd imm : Nat) : RoundTrip.Statement (.lui rd imm) := by
  intro hy
  have hwf := hy
  change ((rd < 32 && imm < 2 ^ 16 : Bool)) = true at hy
  simp only [Ctl.wf, VX.wf, VX.wfArith, VX.wfTrans, VX.wfLogic, VX.wfMod, VX.wfNtt, VX.wfMovk, VMem.wf, VMem.wfLd, CopyIn.wf, CopyOut.wf, SyncOp.wf, AtomOp.wf, VAtom.wf, Exch.wf, MmaOp.wf, sr3, ldst, brOk, siOk, Bool.and_eq_true, Bool.or_eq_true, decide_eq_true_eq, beq_iff_eq, bne_iff_ne, ne_eq, if_true, if_false, Bool.false_eq_true, Bool.not_true, Bool.not_false, Bool.true_or, Bool.false_or, Bool.true_and] at hy
  obtain ⟨W, hW⟩ : ∃ W, W = 8 * 2 ^ 26 + rd * 2 ^ 21 + imm := ⟨_, rfl⟩
  have hW' := hW
  try simp only [engWord, enc29, enc3C, MmaOp.word, VX.word] at hW
  have kW : Holds W 0 [(16, imm), (5, 0), (5, rd), (6, 8)] := holds_pack (by simp only [Fitting, and_true]; omega) (by rw [hW]; simp only [pack]; ring)
  have s0 : bits W 26 6 = 8 := kW.2.2.2.1
  have s1 : bits W 21 5 = rd := kW.2.2.1
  have s2 : bits W 0 16 = imm := kW.1
  refine of0 (w := W) hwf (by rw [hW']; rfl) (.of_lt (by omega)) ?_
  simp [extract, scalarWord, ctlOf, payNear, payFar, s0, s1, s2]

theorem RoundTrip.loop (rs dist : Nat) : RoundTrip.Statement (.loop rs dist) := by
  intro hy
  have hwf := hy
  change ((rs < 32 && 1 ≤ dist && dist < 2 ^ 16 : Bool)) = true at hy
  simp only [Ctl.wf, VX.wf, VX.wfArith, VX.wfTrans, VX.wfLogic, VX.wfMod, VX.wfNtt, VX.wfMovk, VMem.wf, VMem.wfLd, CopyIn.wf, CopyOut.wf, SyncOp.wf, AtomOp.wf, VAtom.wf, Exch.wf, MmaOp.wf, sr3, ldst, brOk, siOk, Bool.and_eq_true, Bool.or_eq_true, decide_eq_true_eq, beq_iff_eq, bne_iff_ne, ne_eq, if_true, if_false, Bool.false_eq_true, Bool.not_true, Bool.not_false, Bool.true_or, Bool.false_or, Bool.true_and] at hy
  obtain ⟨W, hW⟩ : ∃ W, W = 15 * 2 ^ 26 + rs * 2 ^ 16 + dist := ⟨_, rfl⟩
  have hW' := hW
  try simp only [engWord, enc29, enc3C, MmaOp.word, VX.word] at hW
  have kW : Holds W 0 [(16, dist), (5, rs), (5, 0), (6, 15)] := holds_pack (by simp only [Fitting, and_true]; omega) (by rw [hW]; simp only [pack]; ring)
  have s0 : bits W 26 6 = 15 := kW.2.2.2.1
  have s1 : bits W 16 5 = rs := kW.2.1
  have s2 : bits W 0 16 = dist := kW.1
  refine of0 (w := W) hwf (by rw [hW']; rfl) (.of_lt (by omega)) ?_
  simp [extract, scalarWord, ctlOf, payNear, payFar, s0, s1, s2]

theorem RoundTrip.ebaseTarget (e target : Nat) : RoundTrip.Statement (.ebaseTarget e target) := by
  intro hy
  have hwf := hy
  change ((1 ≤ e && e ≤ 5 && target < 2 ^ 16 : Bool)) = true at hy
  simp only [Ctl.wf, VX.wf, VX.wfArith, VX.wfTrans, VX.wfLogic, VX.wfMod, VX.wfNtt, VX.wfMovk, VMem.wf, VMem.wfLd, CopyIn.wf, CopyOut.wf, SyncOp.wf, AtomOp.wf, VAtom.wf, Exch.wf, MmaOp.wf, sr3, ldst, brOk, siOk, Bool.and_eq_true, Bool.or_eq_true, decide_eq_true_eq, beq_iff_eq, bne_iff_ne, ne_eq, if_true, if_false, Bool.false_eq_true, Bool.not_true, Bool.not_false, Bool.true_or, Bool.false_or, Bool.true_and] at hy
  obtain ⟨W, hW⟩ : ∃ W, W = 16 * 2 ^ 26 + 2 * 2 ^ 18 + e * 2 ^ 15 := ⟨_, rfl⟩
  have hW' := hW
  try simp only [engWord, enc29, enc3C, MmaOp.word, VX.word] at hW
  obtain ⟨P, hP⟩ : ∃ P, P = target := ⟨_, rfl⟩
  have hP' := hP
  try simp only [handleX, bufX, VX.ctlX] at hP
  have kW : Holds W 0 [(15, 0), (3, e), (8, 2), (6, 16)] := holds_pack (by simp only [Fitting, and_true]; omega) (by rw [hW]; simp only [pack]; ring)
  have s0 : bits W 26 6 = 16 := kW.2.2.2.1
  have s1 : bits W 18 8 = 2 := kW.2.2.1
  have s2 : bits W 15 3 = e := kW.2.1
  have p0 : bits P 0 16 = target := by rw [bits]; omega
  refine of1 (p := P) (w := W) hwf rfl (by rw [hP', hW']; rfl) (by omega) (.of_lt (by omega)) ?_
  simp [extract, scalarWord, syWord, ctlOf, payNear, payFar, s0, s1, s2, p0]

theorem RoundTrip.waitc (t : Nat) : RoundTrip.Statement (.waitc t) := by
  intro hy
  have hwf := hy
  change ((t < 2 ^ 44 : Bool)) = true at hy
  simp only [Ctl.wf, VX.wf, VX.wfArith, VX.wfTrans, VX.wfLogic, VX.wfMod, VX.wfNtt, VX.wfMovk, VMem.wf, VMem.wfLd, CopyIn.wf, CopyOut.wf, SyncOp.wf, AtomOp.wf, VAtom.wf, Exch.wf, MmaOp.wf, sr3, ldst, brOk, siOk, Bool.and_eq_true, Bool.or_eq_true, decide_eq_true_eq, beq_iff_eq, bne_iff_ne, ne_eq, if_true, if_false, Bool.false_eq_true, Bool.not_true, Bool.not_false, Bool.true_or, Bool.false_or, Bool.true_and] at hy
  obtain ⟨W, hW⟩ : ∃ W, W = 17 * 2 ^ 26 + 3 * 2 ^ 18 + t % 2 ^ 18 := ⟨_, rfl⟩
  have hW' := hW
  try simp only [engWord, enc29, enc3C, MmaOp.word, VX.word] at hW
  obtain ⟨P, hP⟩ : ∃ P, P = t / 2 ^ 18 := ⟨_, rfl⟩
  have hP' := hP
  try simp only [handleX, bufX, VX.ctlX] at hP
  have kW : Holds W 0 [(18, t % 2 ^ 18), (8, 3), (6, 17)] := holds_pack (by simp only [Fitting, and_true]; omega) (by rw [hW]; simp only [pack]; ring)
  have s0 : bits W 26 6 = 17 := kW.2.2.1
  have s1 : bits W 18 8 = 3 := kW.2.1
  have s2 : bits W 0 18 = t % 2 ^ 18 := kW.1
  refine of01 (p := P) (w := W) hwf (by rw [hW']; rfl) (by rw [hP', hW']; rfl) (by omega) (.of_lt (by omega)) ?_
  simp [extract, scalarWord, syWord, ctlOf, payNear, payFar, show P * 262144 + t % 262144 = t by omega, s0, s1, s2]

theorem RoundTrip.stampFrame (t : Nat) : RoundTrip.Statement (.stampFrame t) := by
  intro hy
  have hwf := hy
  change ((t < 2 ^ 24 : Bool)) = true at hy
  simp only [Ctl.wf, VX.wf, VX.wfArith, VX.wfTrans, VX.wfLogic, VX.wfMod, VX.wfNtt, VX.wfMovk, VMem.wf, VMem.wfLd, CopyIn.wf, CopyOut.wf, SyncOp.wf, AtomOp.wf, VAtom.wf, Exch.wf, MmaOp.wf, sr3, ldst, brOk, siOk, Bool.and_eq_true, Bool.or_eq_true, decide_eq_true_eq, beq_iff_eq, bne_iff_ne, ne_eq, if_true, if_false, Bool.false_eq_true, Bool.not_true, Bool.not_false, Bool.true_or, Bool.false_or, Bool.true_and] at hy
  obtain ⟨W, hW⟩ : ∃ W, W = 0x3F * 2 ^ 26 + t * 2 ^ 2 := ⟨_, rfl⟩
  have kW : Holds W 0 [(2, 0), (24, t), (6, 63)] := holds_pack (by simp only [Fitting, and_true]; omega) (by rw [hW]; simp only [pack]; ring)
  have s0 : bits W 26 6 = 63 := kW.2.2.1
  have s1 : bits W 0 2 = 0 := kW.1
  have s2 : bits W 2 24 = t := kW.2.1
  refine of0 (w := W) hwf (by rw [hW]; rfl) ⟨by omega, by rw [s0]; decide, .inl rfl⟩ ?_
  simp [extract, s0, s1, s2]

theorem RoundTrip.stampSeg (t : Nat) : RoundTrip.Statement (.stampSeg t) := by
  intro hy
  have hwf := hy
  change ((t < 2 ^ 24 : Bool)) = true at hy
  simp only [Ctl.wf, VX.wf, VX.wfArith, VX.wfTrans, VX.wfLogic, VX.wfMod, VX.wfNtt, VX.wfMovk, VMem.wf, VMem.wfLd, CopyIn.wf, CopyOut.wf, SyncOp.wf, AtomOp.wf, VAtom.wf, Exch.wf, MmaOp.wf, sr3, ldst, brOk, siOk, Bool.and_eq_true, Bool.or_eq_true, decide_eq_true_eq, beq_iff_eq, bne_iff_ne, ne_eq, if_true, if_false, Bool.false_eq_true, Bool.not_true, Bool.not_false, Bool.true_or, Bool.false_or, Bool.true_and] at hy
  obtain ⟨W, hW⟩ : ∃ W, W = 0x3F * 2 ^ 26 + t * 2 ^ 2 + 1 := ⟨_, rfl⟩
  have kW : Holds W 0 [(2, 1), (24, t), (6, 63)] := holds_pack (by simp only [Fitting, and_true]; omega) (by rw [hW]; simp only [pack]; ring)
  have s0 : bits W 26 6 = 63 := kW.2.2.1
  have s1 : bits W 0 2 = 1 := kW.1
  have s2 : bits W 2 24 = t := kW.2.1
  refine of0 (w := W) hwf (by rw [hW]; rfl) ⟨by omega, by rw [s0]; decide, .inl rfl⟩ ?_
  simp [extract, s0, s1, s2]

theorem RoundTrip.fmtset (c : Ctl) (f rs : Nat) : RoundTrip.Statement (.fmtset c f rs) := by
  intro hy
  have hwf := hy
  change ((c.wf && c.gap == 0 && f < 16 && rs < 32 : Bool)) = true at hy
  simp only [Ctl.wf, VX.wf, VX.wfArith, VX.wfTrans, VX.wfLogic, VX.wfMod, VX.wfNtt, VX.wfMovk, VMem.wf, VMem.wfLd, CopyIn.wf, CopyOut.wf, SyncOp.wf, AtomOp.wf, VAtom.wf, Exch.wf, MmaOp.wf, sr3, ldst, brOk, siOk, Bool.and_eq_true, Bool.or_eq_true, decide_eq_true_eq, beq_iff_eq, bne_iff_ne, ne_eq, if_true, if_false, Bool.false_eq_true, Bool.not_true, Bool.not_false, Bool.true_or, Bool.false_or, Bool.true_and] at hy
  obtain ⟨W, hW⟩ : ∃ W, W = engWord 59 c (2 ^ 17 + f * 2 ^ 13 + rs * 2 ^ 8) := ⟨_, rfl⟩
  have hW' := hW
  try simp only [engWord, enc29, enc3C, MmaOp.word, VX.word] at hW
  have kW : Holds W 0 [(8, 0), (5, rs), (4, f), (1, 1), (3, c.tq), (3, c.gap), (2, c.tk), (6, 59)] := holds_pack (by simp only [Fitting, and_true]; omega) (by rw [hW]; simp only [pack]; ring)
  have s0 : bits W 26 6 = 59 := kW.2.2.2.2.2.2.2.1
  have s1 : bits W 24 2 = c.tk := kW.2.2.2.2.2.2.1
  have s2 : bits W 21 3 = c.gap := kW.2.2.2.2.2.1
  have s3 : bits W 18 3 = c.tq := kW.2.2.2.2.1
  have s4 : bits W 17 1 = 1 := kW.2.2.2.1
  have s5 : bits W 13 4 = f := kW.2.2.1
  have s6 : bits W 8 5 = rs := kW.2.1
  refine of0 (w := W) hwf (by rw [hW']; rfl) (.of_lt (by omega)) ?_
  simp [extract, mxWord, ctlOf, payNear, payFar, s0, s1, s2, s3, s4, s5, s6]

theorem RoundTrip.fmtsetMx (c : Ctl) (f value : Nat) : RoundTrip.Statement (.fmtsetMx c f value) := by
  intro hy
  have hwf := hy
  change ((c.wf && f < 16 && value < 2 ^ 32 : Bool)) = true at hy
  simp only [Ctl.wf, VX.wf, VX.wfArith, VX.wfTrans, VX.wfLogic, VX.wfMod, VX.wfNtt, VX.wfMovk, VMem.wf, VMem.wfLd, CopyIn.wf, CopyOut.wf, SyncOp.wf, AtomOp.wf, VAtom.wf, Exch.wf, MmaOp.wf, sr3, ldst, brOk, siOk, Bool.and_eq_true, Bool.or_eq_true, decide_eq_true_eq, beq_iff_eq, bne_iff_ne, ne_eq, if_true, if_false, Bool.false_eq_true, Bool.not_true, Bool.not_false, Bool.true_or, Bool.false_or, Bool.true_and] at hy
  obtain ⟨W, hW⟩ : ∃ W, W = engWord 59 c (2 ^ 17 + f * 2 ^ 13 + value % 2 ^ 6) := ⟨_, rfl⟩
  have hW' := hW
  try simp only [engWord, enc29, enc3C, MmaOp.word, VX.word] at hW
  obtain ⟨P, hP⟩ : ∃ P, P = value / 2 ^ 6 := ⟨_, rfl⟩
  have hP' := hP
  try simp only [handleX, bufX, VX.ctlX] at hP
  have kW : Holds W 0 [(6, value % 2 ^ 6), (7, 0), (4, f), (1, 1), (3, c.tq), (3, c.gap), (2, c.tk), (6, 59)] := holds_pack (by simp only [Fitting, and_true]; omega) (by rw [hW]; simp only [pack]; ring)
  have s0 : bits W 26 6 = 59 := kW.2.2.2.2.2.2.2.1
  have s1 : bits W 24 2 = c.tk := kW.2.2.2.2.2.2.1
  have s2 : bits W 21 3 = c.gap := kW.2.2.2.2.2.1
  have s3 : bits W 18 3 = c.tq := kW.2.2.2.2.1
  have s4 : bits W 17 1 = 1 := kW.2.2.2.1
  have s5 : bits W 13 4 = f := kW.2.2.1
  have s6 : bits W 0 6 = value % 2 ^ 6 := kW.1
  refine of1 (p := P) (w := W) hwf rfl (by rw [hP', hW']; rfl) (by omega) (.of_lt (by omega)) ?_
  simp [extract, mxWord, ctlOf, payNear, payFar, show P * 64 + value % 64 = value by omega, s0, s1, s2, s3, s4, s5, s6]

theorem RoundTrip.nestcfg (c : Ctl) (reg rs : Nat) : RoundTrip.Statement (.nestcfg c reg rs) := by
  intro hy
  have hwf := hy
  change ((c.wf && c.gap == 0 && reg ≤ 6 && rs < 32 : Bool)) = true at hy
  simp only [Ctl.wf, VX.wf, VX.wfArith, VX.wfTrans, VX.wfLogic, VX.wfMod, VX.wfNtt, VX.wfMovk, VMem.wf, VMem.wfLd, CopyIn.wf, CopyOut.wf, SyncOp.wf, AtomOp.wf, VAtom.wf, Exch.wf, MmaOp.wf, sr3, ldst, brOk, siOk, Bool.and_eq_true, Bool.or_eq_true, decide_eq_true_eq, beq_iff_eq, bne_iff_ne, ne_eq, if_true, if_false, Bool.false_eq_true, Bool.not_true, Bool.not_false, Bool.true_or, Bool.false_or, Bool.true_and] at hy
  obtain ⟨W, hW⟩ : ∃ W, W = engWord 59 c (reg * 2 ^ 14 + rs * 2 ^ 9) := ⟨_, rfl⟩
  have hW' := hW
  try simp only [engWord, enc29, enc3C, MmaOp.word, VX.word] at hW
  have kW : Holds W 0 [(9, 0), (5, rs), (3, reg), (1, 0), (3, c.tq), (3, c.gap), (2, c.tk), (6, 59)] := holds_pack (by simp only [Fitting, and_true]; omega) (by rw [hW]; simp only [pack]; ring)
  have s0 : bits W 26 6 = 59 := kW.2.2.2.2.2.2.2.1
  have s1 : bits W 24 2 = c.tk := kW.2.2.2.2.2.2.1
  have s2 : bits W 21 3 = c.gap := kW.2.2.2.2.2.1
  have s3 : bits W 18 3 = c.tq := kW.2.2.2.2.1
  have s4 : bits W 17 1 = 0 := kW.2.2.2.1
  have s5 : bits W 14 3 = reg := kW.2.2.1
  have s6 : bits W 9 5 = rs := kW.2.1
  refine of0 (w := W) hwf (by rw [hW']; rfl) (.of_lt (by omega)) ?_
  simp [extract, mxWord, ctlOf, payNear, payFar, s0, s1, s2, s3, s4, s5, s6]

theorem RoundTrip.nestcfgMx (c : Ctl) (reg value : Nat) : RoundTrip.Statement (.nestcfgMx c reg value) := by
  intro hy
  have hwf := hy
  change ((c.wf && reg ≤ 6 && value < 2 ^ 64 : Bool)) = true at hy
  simp only [Ctl.wf, VX.wf, VX.wfArith, VX.wfTrans, VX.wfLogic, VX.wfMod, VX.wfNtt, VX.wfMovk, VMem.wf, VMem.wfLd, CopyIn.wf, CopyOut.wf, SyncOp.wf, AtomOp.wf, VAtom.wf, Exch.wf, MmaOp.wf, sr3, ldst, brOk, siOk, Bool.and_eq_true, Bool.or_eq_true, decide_eq_true_eq, beq_iff_eq, bne_iff_ne, ne_eq, if_true, if_false, Bool.false_eq_true, Bool.not_true, Bool.not_false, Bool.true_or, Bool.false_or, Bool.true_and] at hy
  obtain ⟨W, hW⟩ : ∃ W, W = engWord 59 c (reg * 2 ^ 14 + value % 2 ^ 12) := ⟨_, rfl⟩
  have hW' := hW
  try simp only [engWord, enc29, enc3C, MmaOp.word, VX.word] at hW
  obtain ⟨P, hP⟩ : ∃ P, P = value / 2 ^ 12 % 2 ^ 26 := ⟨_, rfl⟩
  have hP' := hP
  try simp only [handleX, bufX, VX.ctlX] at hP
  obtain ⟨E, hE⟩ : ∃ E, E = value / 2 ^ 38 := ⟨_, rfl⟩
  have hE' := hE
  try simp only [handleX] at hE
  have kW : Holds W 0 [(12, value % 2 ^ 12), (2, 0), (3, reg), (1, 0), (3, c.tq), (3, c.gap), (2, c.tk), (6, 59)] := holds_pack (by simp only [Fitting, and_true]; omega) (by rw [hW]; simp only [pack]; ring)
  have s0 : bits W 26 6 = 59 := kW.2.2.2.2.2.2.2.1
  have s1 : bits W 24 2 = c.tk := kW.2.2.2.2.2.2.1
  have s2 : bits W 21 3 = c.gap := kW.2.2.2.2.2.1
  have s3 : bits W 18 3 = c.tq := kW.2.2.2.2.1
  have s4 : bits W 17 1 = 0 := kW.2.2.2.1
  have s5 : bits W 14 3 = reg := kW.2.2.1
  have s6 : bits W 0 12 = value % 2 ^ 12 := kW.1
  refine of2 (e := E) (p := P) (w := W) hwf rfl rfl (by rw [hE', hP', hW']; rfl) (by omega) (by omega) (.of_lt (by omega)) ?_
  simp [extract, mxWord, payX, ctlOf, payNear, payFar, show (E * 67108864 + P) * 4096 + value % 4096 = value by omega, s0, s1, s2, s3, s4, s5, s6]

theorem RoundTrip.vbcast (c : Ctl) (x : VX) : RoundTrip.Statement (.vbcast c x) := by
  intro hy
  have hwf := hy
  change ((c.wf && x.wf true && x.ext < 8 && isLane x.ty && x.rm == 0 && x.nosat == 0 && x.vc == 0 && x.opt == 0 : Bool)) = true at hy
  simp only [Ctl.wf, VX.wf, VX.wfArith, VX.wfTrans, VX.wfLogic, VX.wfMod, VX.wfNtt, VX.wfMovk, VMem.wf, VMem.wfLd, CopyIn.wf, CopyOut.wf, SyncOp.wf, AtomOp.wf, VAtom.wf, Exch.wf, MmaOp.wf, sr3, ldst, brOk, siOk, Bool.and_eq_true, Bool.or_eq_true, decide_eq_true_eq, beq_iff_eq, bne_iff_ne, ne_eq, if_true, if_false, Bool.false_eq_true, Bool.not_true, Bool.not_false, Bool.true_or, Bool.false_or, Bool.true_and] at hy
  have hxw : x.word 49 c = engWord 49 c (x.vd * 2 ^ 12 + x.va * 2 ^ 6 + x.vb) := rfl
  obtain ⟨W, hW⟩ : ∃ W, W = engWord 49 c (x.vd * 2 ^ 12 + x.va * 2 ^ 6 + x.vb) := ⟨_, rfl⟩
  have hW' := hW
  try simp only [engWord, enc29, enc3C, MmaOp.word, VX.word] at hW
  obtain ⟨P, hP⟩ : ∃ P, P = x.ctlX 1 := ⟨_, rfl⟩
  have hP' := hP
  try simp only [handleX, bufX, VX.ctlX] at hP
  obtain ⟨E, hE⟩ : ∃ E, E = x.ext := ⟨_, rfl⟩
  have hE' := hE
  try simp only [handleX] at hE
  have kW : Holds W 0 [(6, x.vb), (6, x.va), (6, x.vd), (3, c.tq), (3, c.gap), (2, c.tk), (6, 49)] := holds_pack (by simp only [Fitting, and_true]; omega) (by rw [hW]; simp only [pack]; ring)
  have s0 : bits W 26 6 = 49 := kW.2.2.2.2.2.2.1
  have s1 : bits W 24 2 = c.tk := kW.2.2.2.2.2.1
  have s2 : bits W 21 3 = c.gap := kW.2.2.2.2.1
  have s3 : bits W 18 3 = c.tq := kW.2.2.2.1
  have s4 : bits W 12 6 = x.vd := kW.2.2.1
  have s5 : bits W 6 6 = x.va := kW.2.1
  have s6 : bits W 0 6 = x.vb := kW.1
  have kP : Holds P 0 [(4, x.opt), (6, x.vc), (4, 1), (1, x.nosat), (3, x.rm), (3, x.km), (5, x.ty)] := holds_pack (by simp only [Fitting, and_true]; omega) (by rw [hP]; simp only [pack]; ring)
  have p0 : bits P 21 5 = x.ty := kP.2.2.2.2.2.2.1
  have p1 : bits P 18 3 = x.km := kP.2.2.2.2.2.1
  have p2 : bits P 15 3 = x.rm := kP.2.2.2.2.1
  have p3 : bits P 14 1 = x.nosat := kP.2.2.2.1
  have p4 : bits P 10 4 = 1 := kP.2.2.1
  have p5 : bits P 4 6 = x.vc := kP.2.1
  have p6 : bits P 0 4 = x.opt := kP.1
  refine of012 (e := E) (p := P) (w := W) hwf (by rw [hW']; rfl) (by rw [hP', hW']; rfl) (by rw [hE', hP', hW']; rfl) (by omega) (by omega) (.of_lt (by omega)) ?_
  simp [extract, vxWord, vxOf, ctlOf, payNear, payFar, s0, s1, s2, s3, s4, s5, s6, p0, p1, p2, p3, p4, p5, p6]
  try rw [hE']

theorem RoundTrip.vld (c : Ctl) (m : VMem) : RoundTrip.Statement (.vld c m) := by
  intro hy
  have hwf := hy
  change ((c.wf && m.wfLd false : Bool)) = true at hy
  simp only [Ctl.wf, VX.wf, VX.wfArith, VX.wfTrans, VX.wfLogic, VX.wfMod, VX.wfNtt, VX.wfMovk, VMem.wf, VMem.wfLd, CopyIn.wf, CopyOut.wf, SyncOp.wf, AtomOp.wf, VAtom.wf, Exch.wf, MmaOp.wf, sr3, ldst, brOk, siOk, Bool.and_eq_true, Bool.or_eq_true, decide_eq_true_eq, beq_iff_eq, bne_iff_ne, ne_eq, if_true, if_false, Bool.false_eq_true, Bool.not_true, Bool.not_false, Bool.true_or, Bool.false_or, Bool.true_and] at hy
  obtain ⟨W, hW⟩ : ∃ W, W = engWord 51 c (m.vd * 2 ^ 12 + m.buf * 2 ^ 6 + m.vi) := ⟨_, rfl⟩
  have hW' := hW
  try simp only [engWord, enc29, enc3C, MmaOp.word, VX.word] at hW
  obtain ⟨P, hP⟩ : ∃ P, P = m.ty * 2 ^ 21 + m.km * 2 ^ 18 + m.path * 2 ^ 17 + 0 * 2 ^ 10 + m.off % 2 ^ 10 := ⟨_, rfl⟩
  have hP' := hP
  try simp only [handleX, bufX, VX.ctlX] at hP
  obtain ⟨E, hE⟩ : ∃ E, E = m.off / 2 ^ 10 := ⟨_, rfl⟩
  have hE' := hE
  try simp only [handleX] at hE
  have kW : Holds W 0 [(6, m.vi), (6, m.buf), (6, m.vd), (3, c.tq), (3, c.gap), (2, c.tk), (6, 51)] := holds_pack (by simp only [Fitting, and_true]; omega) (by rw [hW]; simp only [pack]; ring)
  have s0 : bits W 26 6 = 51 := kW.2.2.2.2.2.2.1
  have s1 : bits W 24 2 = c.tk := kW.2.2.2.2.2.1
  have s2 : bits W 21 3 = c.gap := kW.2.2.2.2.1
  have s3 : bits W 18 3 = c.tq := kW.2.2.2.1
  have s4 : bits W 12 6 = m.vd := kW.2.2.1
  have s5 : bits W 6 6 = m.buf := kW.2.1
  have s6 : bits W 0 6 = m.vi := kW.1
  have kP : Holds P 0 [(10, m.off % 2 ^ 10), (4, 0), (3, 0), (1, m.path), (3, m.km), (5, m.ty)] := holds_pack (by simp only [Fitting, and_true]; omega) (by rw [hP]; simp only [pack]; ring)
  have p0 : bits P 21 5 = m.ty := kP.2.2.2.2.2.1
  have p1 : bits P 18 3 = m.km := kP.2.2.2.2.1
  have p2 : bits P 17 1 = m.path := kP.2.2.2.1
  have p3 : bits P 10 4 = 0 := kP.2.1
  have p4 : bits P 0 10 = m.off % 2 ^ 10 := kP.1
  refine of012 (e := E) (p := P) (w := W) hwf (by rw [hW']; rfl) (by rw [hP', hW']; rfl) (by rw [hE', hP', hW']; rfl) (by omega) (by omega) (.of_lt (by omega)) ?_
  simp [extract, vxOwnWord, vmemOf, ctlOf, payNear, payFar, show E * 1024 + m.off % 1024 = m.off by omega, s0, s1, s2, s3, s4, s5, s6, p0, p1, p2, p3, p4]

theorem RoundTrip.vst (c : Ctl) (m : VMem) : RoundTrip.Statement (.vst c m) := by
  intro hy
  have hwf := hy
  change ((c.wf && m.wfLd false : Bool)) = true at hy
  simp only [Ctl.wf, VX.wf, VX.wfArith, VX.wfTrans, VX.wfLogic, VX.wfMod, VX.wfNtt, VX.wfMovk, VMem.wf, VMem.wfLd, CopyIn.wf, CopyOut.wf, SyncOp.wf, AtomOp.wf, VAtom.wf, Exch.wf, MmaOp.wf, sr3, ldst, brOk, siOk, Bool.and_eq_true, Bool.or_eq_true, decide_eq_true_eq, beq_iff_eq, bne_iff_ne, ne_eq, if_true, if_false, Bool.false_eq_true, Bool.not_true, Bool.not_false, Bool.true_or, Bool.false_or, Bool.true_and] at hy
  obtain ⟨W, hW⟩ : ∃ W, W = engWord 51 c (m.vd * 2 ^ 12 + m.buf * 2 ^ 6 + m.vi) := ⟨_, rfl⟩
  have hW' := hW
  try simp only [engWord, enc29, enc3C, MmaOp.word, VX.word] at hW
  obtain ⟨P, hP⟩ : ∃ P, P = m.ty * 2 ^ 21 + m.km * 2 ^ 18 + m.path * 2 ^ 17 + 1 * 2 ^ 10 + m.off % 2 ^ 10 := ⟨_, rfl⟩
  have hP' := hP
  try simp only [handleX, bufX, VX.ctlX] at hP
  obtain ⟨E, hE⟩ : ∃ E, E = m.off / 2 ^ 10 := ⟨_, rfl⟩
  have hE' := hE
  try simp only [handleX] at hE
  have kW : Holds W 0 [(6, m.vi), (6, m.buf), (6, m.vd), (3, c.tq), (3, c.gap), (2, c.tk), (6, 51)] := holds_pack (by simp only [Fitting, and_true]; omega) (by rw [hW]; simp only [pack]; ring)
  have s0 : bits W 26 6 = 51 := kW.2.2.2.2.2.2.1
  have s1 : bits W 24 2 = c.tk := kW.2.2.2.2.2.1
  have s2 : bits W 21 3 = c.gap := kW.2.2.2.2.1
  have s3 : bits W 18 3 = c.tq := kW.2.2.2.1
  have s4 : bits W 12 6 = m.vd := kW.2.2.1
  have s5 : bits W 6 6 = m.buf := kW.2.1
  have s6 : bits W 0 6 = m.vi := kW.1
  have kP : Holds P 0 [(10, m.off % 2 ^ 10), (4, 1), (3, 0), (1, m.path), (3, m.km), (5, m.ty)] := holds_pack (by simp only [Fitting, and_true]; omega) (by rw [hP]; simp only [pack]; ring)
  have p0 : bits P 21 5 = m.ty := kP.2.2.2.2.2.1
  have p1 : bits P 18 3 = m.km := kP.2.2.2.2.1
  have p2 : bits P 17 1 = m.path := kP.2.2.2.1
  have p3 : bits P 10 4 = 1 := kP.2.1
  have p4 : bits P 0 10 = m.off % 2 ^ 10 := kP.1
  refine of012 (e := E) (p := P) (w := W) hwf (by rw [hW']; rfl) (by rw [hP', hW']; rfl) (by rw [hE', hP', hW']; rfl) (by omega) (by omega) (.of_lt (by omega)) ?_
  simp [extract, vxOwnWord, vmemOf, ctlOf, payNear, payFar, show E * 1024 + m.off % 1024 = m.off by omega, s0, s1, s2, s3, s4, s5, s6, p0, p1, p2, p3, p4]

theorem RoundTrip.vldx (c : Ctl) (m : VMem) : RoundTrip.Statement (.vldx c m) := by
  intro hy
  have hwf := hy
  change ((c.wf && m.wfLd true : Bool)) = true at hy
  simp only [Ctl.wf, VX.wf, VX.wfArith, VX.wfTrans, VX.wfLogic, VX.wfMod, VX.wfNtt, VX.wfMovk, VMem.wf, VMem.wfLd, CopyIn.wf, CopyOut.wf, SyncOp.wf, AtomOp.wf, VAtom.wf, Exch.wf, MmaOp.wf, sr3, ldst, brOk, siOk, Bool.and_eq_true, Bool.or_eq_true, decide_eq_true_eq, beq_iff_eq, bne_iff_ne, ne_eq, if_true, if_false, Bool.false_eq_true, Bool.not_true, Bool.not_false, Bool.true_or, Bool.false_or, Bool.true_and] at hy
  obtain ⟨W, hW⟩ : ∃ W, W = engWord 51 c (m.vd * 2 ^ 12 + m.buf * 2 ^ 6 + m.vi) := ⟨_, rfl⟩
  have hW' := hW
  try simp only [engWord, enc29, enc3C, MmaOp.word, VX.word] at hW
  obtain ⟨P, hP⟩ : ∃ P, P = m.ty * 2 ^ 21 + m.km * 2 ^ 18 + m.path * 2 ^ 17 + 2 * 2 ^ 10 + m.off % 2 ^ 10 := ⟨_, rfl⟩
  have hP' := hP
  try simp only [handleX, bufX, VX.ctlX] at hP
  obtain ⟨E, hE⟩ : ∃ E, E = m.off / 2 ^ 10 := ⟨_, rfl⟩
  have hE' := hE
  try simp only [handleX] at hE
  have kW : Holds W 0 [(6, m.vi), (6, m.buf), (6, m.vd), (3, c.tq), (3, c.gap), (2, c.tk), (6, 51)] := holds_pack (by simp only [Fitting, and_true]; omega) (by rw [hW]; simp only [pack]; ring)
  have s0 : bits W 26 6 = 51 := kW.2.2.2.2.2.2.1
  have s1 : bits W 24 2 = c.tk := kW.2.2.2.2.2.1
  have s2 : bits W 21 3 = c.gap := kW.2.2.2.2.1
  have s3 : bits W 18 3 = c.tq := kW.2.2.2.1
  have s4 : bits W 12 6 = m.vd := kW.2.2.1
  have s5 : bits W 6 6 = m.buf := kW.2.1
  have s6 : bits W 0 6 = m.vi := kW.1
  have kP : Holds P 0 [(10, m.off % 2 ^ 10), (4, 2), (3, 0), (1, m.path), (3, m.km), (5, m.ty)] := holds_pack (by simp only [Fitting, and_true]; omega) (by rw [hP]; simp only [pack]; ring)
  have p0 : bits P 21 5 = m.ty := kP.2.2.2.2.2.1
  have p1 : bits P 18 3 = m.km := kP.2.2.2.2.1
  have p2 : bits P 17 1 = m.path := kP.2.2.2.1
  have p3 : bits P 10 4 = 2 := kP.2.1
  have p4 : bits P 0 10 = m.off % 2 ^ 10 := kP.1
  refine of012 (e := E) (p := P) (w := W) hwf (by rw [hW']; rfl) (by rw [hP', hW']; rfl) (by rw [hE', hP', hW']; rfl) (by omega) (by omega) (.of_lt (by omega)) ?_
  simp [extract, vxOwnWord, vmemOf, ctlOf, payNear, payFar, show E * 1024 + m.off % 1024 = m.off by omega, s0, s1, s2, s3, s4, s5, s6, p0, p1, p2, p3, p4]

theorem RoundTrip.vstx (c : Ctl) (m : VMem) : RoundTrip.Statement (.vstx c m) := by
  intro hy
  have hwf := hy
  change ((c.wf && m.wfLd true : Bool)) = true at hy
  simp only [Ctl.wf, VX.wf, VX.wfArith, VX.wfTrans, VX.wfLogic, VX.wfMod, VX.wfNtt, VX.wfMovk, VMem.wf, VMem.wfLd, CopyIn.wf, CopyOut.wf, SyncOp.wf, AtomOp.wf, VAtom.wf, Exch.wf, MmaOp.wf, sr3, ldst, brOk, siOk, Bool.and_eq_true, Bool.or_eq_true, decide_eq_true_eq, beq_iff_eq, bne_iff_ne, ne_eq, if_true, if_false, Bool.false_eq_true, Bool.not_true, Bool.not_false, Bool.true_or, Bool.false_or, Bool.true_and] at hy
  obtain ⟨W, hW⟩ : ∃ W, W = engWord 51 c (m.vd * 2 ^ 12 + m.buf * 2 ^ 6 + m.vi) := ⟨_, rfl⟩
  have hW' := hW
  try simp only [engWord, enc29, enc3C, MmaOp.word, VX.word] at hW
  obtain ⟨P, hP⟩ : ∃ P, P = m.ty * 2 ^ 21 + m.km * 2 ^ 18 + m.path * 2 ^ 17 + 3 * 2 ^ 10 + m.off % 2 ^ 10 := ⟨_, rfl⟩
  have hP' := hP
  try simp only [handleX, bufX, VX.ctlX] at hP
  obtain ⟨E, hE⟩ : ∃ E, E = m.off / 2 ^ 10 := ⟨_, rfl⟩
  have hE' := hE
  try simp only [handleX] at hE
  have kW : Holds W 0 [(6, m.vi), (6, m.buf), (6, m.vd), (3, c.tq), (3, c.gap), (2, c.tk), (6, 51)] := holds_pack (by simp only [Fitting, and_true]; omega) (by rw [hW]; simp only [pack]; ring)
  have s0 : bits W 26 6 = 51 := kW.2.2.2.2.2.2.1
  have s1 : bits W 24 2 = c.tk := kW.2.2.2.2.2.1
  have s2 : bits W 21 3 = c.gap := kW.2.2.2.2.1
  have s3 : bits W 18 3 = c.tq := kW.2.2.2.1
  have s4 : bits W 12 6 = m.vd := kW.2.2.1
  have s5 : bits W 6 6 = m.buf := kW.2.1
  have s6 : bits W 0 6 = m.vi := kW.1
  have kP : Holds P 0 [(10, m.off % 2 ^ 10), (4, 3), (3, 0), (1, m.path), (3, m.km), (5, m.ty)] := holds_pack (by simp only [Fitting, and_true]; omega) (by rw [hP]; simp only [pack]; ring)
  have p0 : bits P 21 5 = m.ty := kP.2.2.2.2.2.1
  have p1 : bits P 18 3 = m.km := kP.2.2.2.2.1
  have p2 : bits P 17 1 = m.path := kP.2.2.2.1
  have p3 : bits P 10 4 = 3 := kP.2.1
  have p4 : bits P 0 10 = m.off % 2 ^ 10 := kP.1
  refine of012 (e := E) (p := P) (w := W) hwf (by rw [hW']; rfl) (by rw [hP', hW']; rfl) (by rw [hE', hP', hW']; rfl) (by omega) (by omega) (.of_lt (by omega)) ?_
  simp [extract, vxOwnWord, vmemOf, ctlOf, payNear, payFar, show E * 1024 + m.off % 1024 = m.off by omega, s0, s1, s2, s3, s4, s5, s6, p0, p1, p2, p3, p4]

theorem RoundTrip.vbfx (c : Ctl) (m : VMem) : RoundTrip.Statement (.vbfx c m) := by
  intro hy
  have hwf := hy
  change ((c.wf && m.wf && m.path == 0 && m.ty == 0 && m.vi == 0 : Bool)) = true at hy
  simp only [Ctl.wf, VX.wf, VX.wfArith, VX.wfTrans, VX.wfLogic, VX.wfMod, VX.wfNtt, VX.wfMovk, VMem.wf, VMem.wfLd, CopyIn.wf, CopyOut.wf, SyncOp.wf, AtomOp.wf, VAtom.wf, Exch.wf, MmaOp.wf, sr3, ldst, brOk, siOk, Bool.and_eq_true, Bool.or_eq_true, decide_eq_true_eq, beq_iff_eq, bne_iff_ne, ne_eq, if_true, if_false, Bool.false_eq_true, Bool.not_true, Bool.not_false, Bool.true_or, Bool.false_or, Bool.true_and] at hy
  obtain ⟨W, hW⟩ : ∃ W, W = engWord 52 c (m.vd * 2 ^ 12 + m.buf * 2 ^ 6 + m.vi) := ⟨_, rfl⟩
  have hW' := hW
  try simp only [engWord, enc29, enc3C, MmaOp.word, VX.word] at hW
  obtain ⟨P, hP⟩ : ∃ P, P = m.ty * 2 ^ 21 + m.km * 2 ^ 18 + m.path * 2 ^ 17 + 0 * 2 ^ 10 + m.off % 2 ^ 10 := ⟨_, rfl⟩
  have hP' := hP
  try simp only [handleX, bufX, VX.ctlX] at hP
  obtain ⟨E, hE⟩ : ∃ E, E = m.off / 2 ^ 10 := ⟨_, rfl⟩
  have hE' := hE
  try simp only [handleX] at hE
  have kW : Holds W 0 [(6, m.vi), (6, m.buf), (6, m.vd), (3, c.tq), (3, c.gap), (2, c.tk), (6, 52)] := holds_pack (by simp only [Fitting, and_true]; omega) (by rw [hW]; simp only [pack]; ring)
  have s0 : bits W 26 6 = 52 := kW.2.2.2.2.2.2.1
  have s1 : bits W 24 2 = c.tk := kW.2.2.2.2.2.1
  have s2 : bits W 21 3 = c.gap := kW.2.2.2.2.1
  have s3 : bits W 18 3 = c.tq := kW.2.2.2.1
  have s4 : bits W 12 6 = m.vd := kW.2.2.1
  have s5 : bits W 6 6 = m.buf := kW.2.1
  have s6 : bits W 0 6 = m.vi := kW.1
  have kP : Holds P 0 [(10, m.off % 2 ^ 10), (4, 0), (3, 0), (1, m.path), (3, m.km), (5, m.ty)] := holds_pack (by simp only [Fitting, and_true]; omega) (by rw [hP]; simp only [pack]; ring)
  have p0 : bits P 21 5 = m.ty := kP.2.2.2.2.2.1
  have p1 : bits P 18 3 = m.km := kP.2.2.2.2.1
  have p2 : bits P 17 1 = m.path := kP.2.2.2.1
  have p3 : bits P 10 4 = 0 := kP.2.1
  have p4 : bits P 0 10 = m.off % 2 ^ 10 := kP.1
  refine of012 (e := E) (p := P) (w := W) hwf (by rw [hW']; rfl) (by rw [hP', hW']; rfl) (by rw [hE', hP', hW']; rfl) (by omega) (by omega) (.of_lt (by omega)) ?_
  simp [extract, vxOwnWord, vmemOf, ctlOf, payNear, payFar, show E * 1024 + m.off % 1024 = m.off by omega, s0, s1, s2, s3, s4, s5, s6, p0, p1, p2, p3, p4]

theorem RoundTrip.bfxcfg (c : Ctl) (m : VMem) : RoundTrip.Statement (.bfxcfg c m) := by
  intro hy
  have hwf := hy
  change ((c.wf && m.wf && m.vd == 0 && m.vi == 0 && m.km == 0 && m.ty < 0x14 : Bool)) = true at hy
  simp only [Ctl.wf, VX.wf, VX.wfArith, VX.wfTrans, VX.wfLogic, VX.wfMod, VX.wfNtt, VX.wfMovk, VMem.wf, VMem.wfLd, CopyIn.wf, CopyOut.wf, SyncOp.wf, AtomOp.wf, VAtom.wf, Exch.wf, MmaOp.wf, sr3, ldst, brOk, siOk, Bool.and_eq_true, Bool.or_eq_true, decide_eq_true_eq, beq_iff_eq, bne_iff_ne, ne_eq, if_true, if_false, Bool.false_eq_true, Bool.not_true, Bool.not_false, Bool.true_or, Bool.false_or, Bool.true_and] at hy
  obtain ⟨W, hW⟩ : ∃ W, W = engWord 52 c (m.vd * 2 ^ 12 + m.buf * 2 ^ 6 + m.vi) := ⟨_, rfl⟩
  have hW' := hW
  try simp only [engWord, enc29, enc3C, MmaOp.word, VX.word] at hW
  obtain ⟨P, hP⟩ : ∃ P, P = m.ty * 2 ^ 21 + m.km * 2 ^ 18 + m.path * 2 ^ 17 + 1 * 2 ^ 10 + m.off % 2 ^ 10 := ⟨_, rfl⟩
  have hP' := hP
  try simp only [handleX, bufX, VX.ctlX] at hP
  obtain ⟨E, hE⟩ : ∃ E, E = m.off / 2 ^ 10 := ⟨_, rfl⟩
  have hE' := hE
  try simp only [handleX] at hE
  have kW : Holds W 0 [(6, m.vi), (6, m.buf), (6, m.vd), (3, c.tq), (3, c.gap), (2, c.tk), (6, 52)] := holds_pack (by simp only [Fitting, and_true]; omega) (by rw [hW]; simp only [pack]; ring)
  have s0 : bits W 26 6 = 52 := kW.2.2.2.2.2.2.1
  have s1 : bits W 24 2 = c.tk := kW.2.2.2.2.2.1
  have s2 : bits W 21 3 = c.gap := kW.2.2.2.2.1
  have s3 : bits W 18 3 = c.tq := kW.2.2.2.1
  have s4 : bits W 12 6 = m.vd := kW.2.2.1
  have s5 : bits W 6 6 = m.buf := kW.2.1
  have s6 : bits W 0 6 = m.vi := kW.1
  have kP : Holds P 0 [(10, m.off % 2 ^ 10), (4, 1), (3, 0), (1, m.path), (3, m.km), (5, m.ty)] := holds_pack (by simp only [Fitting, and_true]; omega) (by rw [hP]; simp only [pack]; ring)
  have p0 : bits P 21 5 = m.ty := kP.2.2.2.2.2.1
  have p1 : bits P 18 3 = m.km := kP.2.2.2.2.1
  have p2 : bits P 17 1 = m.path := kP.2.2.2.1
  have p3 : bits P 10 4 = 1 := kP.2.1
  have p4 : bits P 0 10 = m.off % 2 ^ 10 := kP.1
  refine of012 (e := E) (p := P) (w := W) hwf (by rw [hW']; rfl) (by rw [hP', hW']; rfl) (by rw [hE', hP', hW']; rfl) (by omega) (by omega) (.of_lt (by omega)) ?_
  simp [extract, vxOwnWord, vmemOf, ctlOf, payNear, payFar, show E * 1024 + m.off % 1024 = m.off by omega, s0, s1, s2, s3, s4, s5, s6, p0, p1, p2, p3, p4]

theorem RoundTrip.vacc (c : Ctl) (a : VAcc) : RoundTrip.Statement (.vacc c a) := by
  intro hy
  have hwf := hy
  change ((c.wf && a.vd < 64 && a.acc < 6 && a.row < 128 && a.colh < 2 && isLane a.ty && a.km < 8 && a.rm ≤ 4 && a.nosat < 2 && a.cls ≤ 2 && (a.ty != 0x12 || (a.cls == 2 && a.rm == 0 && a.nosat == 0)) : Bool)) = true at hy
  simp only [Ctl.wf, VX.wf, VX.wfArith, VX.wfTrans, VX.wfLogic, VX.wfMod, VX.wfNtt, VX.wfMovk, VMem.wf, VMem.wfLd, CopyIn.wf, CopyOut.wf, SyncOp.wf, AtomOp.wf, VAtom.wf, Exch.wf, MmaOp.wf, sr3, ldst, brOk, siOk, Bool.and_eq_true, Bool.or_eq_true, decide_eq_true_eq, beq_iff_eq, bne_iff_ne, ne_eq, if_true, if_false, Bool.false_eq_true, Bool.not_true, Bool.not_false, Bool.true_or, Bool.false_or, Bool.true_and] at hy
  have hty : a.ty < 32 := isLane_lt (by simp only [hy])
  obtain ⟨W, hW⟩ : ∃ W, W = engWord 53 c (a.vd * 2 ^ 12 + a.acc * 2 ^ 9 + a.row * 2 ^ 2 + a.colh * 2) := ⟨_, rfl⟩
  have hW' := hW
  try simp only [engWord, enc29, enc3C, MmaOp.word, VX.word] at hW
  obtain ⟨P, hP⟩ : ∃ P, P = a.ty * 2 ^ 21 + a.km * 2 ^ 18 + a.rm * 2 ^ 15 + a.nosat * 2 ^ 14 + a.cls * 2 ^ 4 := ⟨_, rfl⟩
  have hP' := hP
  try simp only [handleX, bufX, VX.ctlX] at hP
  have kW : Holds W 0 [(1, 0), (1, a.colh), (7, a.row), (3, a.acc), (6, a.vd), (3, c.tq), (3, c.gap), (2, c.tk), (6, 53)] := holds_pack (by simp only [Fitting, and_true]; omega) (by rw [hW]; simp only [pack]; ring)
  have s0 : bits W 26 6 = 53 := kW.2.2.2.2.2.2.2.2.1
  have s1 : bits W 24 2 = c.tk := kW.2.2.2.2.2.2.2.1
  have s2 : bits W 21 3 = c.gap := kW.2.2.2.2.2.2.1
  have s3 : bits W 18 3 = c.tq := kW.2.2.2.2.2.1
  have s4 : bits W 12 6 = a.vd := kW.2.2.2.2.1
  have s5 : bits W 9 3 = a.acc := kW.2.2.2.1
  have s6 : bits W 2 7 = a.row := kW.2.2.1
  have s7 : bits W 1 1 = a.colh := kW.2.1
  have kP : Holds P 0 [(4, 0), (2, a.cls), (4, 0), (4, 0), (1, a.nosat), (3, a.rm), (3, a.km), (5, a.ty)] := holds_pack (by simp only [Fitting, and_true]; omega) (by rw [hP]; simp only [pack]; ring)
  have p0 : bits P 21 5 = a.ty := kP.2.2.2.2.2.2.2.1
  have p1 : bits P 18 3 = a.km := kP.2.2.2.2.2.2.1
  have p2 : bits P 15 3 = a.rm := kP.2.2.2.2.2.1
  have p3 : bits P 14 1 = a.nosat := kP.2.2.2.2.1
  have p4 : bits P 10 4 = 0 := kP.2.2.2.1
  have p5 : bits P 4 2 = a.cls := kP.2.1
  refine of01 (p := P) (w := W) hwf (by rw [hW']; rfl) (by rw [hP', hW']; rfl) (by omega) (.of_lt (by omega)) ?_
  simp [extract, vxOwnWord, ctlOf, payNear, payFar, s0, s1, s2, s3, s4, s5, s6, s7, p0, p1, p2, p3, p4, p5]

theorem RoundTrip.rank (c : Ctl) (r : VRank) : RoundTrip.Statement (.rank c r) := by
  intro hy
  have hwf := hy
  change ((c.wf && r.vd < 64 && r.va < 64 && r.nblk < 64 && r.ty ≤ 3 && r.km < 8 && r.src < 2 && r.km1 < 256 && (if r.src == 1 then r.off < 2 ^ 26 else r.off == 0) : Bool)) = true at hy
  simp only [Ctl.wf, VX.wf, VX.wfArith, VX.wfTrans, VX.wfLogic, VX.wfMod, VX.wfNtt, VX.wfMovk, VMem.wf, VMem.wfLd, CopyIn.wf, CopyOut.wf, SyncOp.wf, AtomOp.wf, VAtom.wf, Exch.wf, MmaOp.wf, sr3, ldst, brOk, siOk, Bool.and_eq_true, Bool.or_eq_true, decide_eq_true_eq, beq_iff_eq, bne_iff_ne, ne_eq, if_true, if_false, Bool.false_eq_true, Bool.not_true, Bool.not_false, Bool.true_or, Bool.false_or, Bool.true_and] at hy
  have hoff : r.off < 2 ^ 26 := by
    have h := hy.2
    by_cases hs : r.src = 1 <;> simp [hs] at h <;> omega
  obtain ⟨W, hW⟩ : ∃ W, W = engWord 57 c (r.vd * 2 ^ 12 + r.va * 2 ^ 6 + r.nblk) := ⟨_, rfl⟩
  have hW' := hW
  try simp only [engWord, enc29, enc3C, MmaOp.word, VX.word] at hW
  obtain ⟨P, hP⟩ : ∃ P, P = r.ty * 2 ^ 21 + r.km * 2 ^ 18 + r.src * 2 ^ 14 + r.km1 * 2 ^ 2 := ⟨_, rfl⟩
  have hP' := hP
  try simp only [handleX, bufX, VX.ctlX] at hP
  obtain ⟨E, hE⟩ : ∃ E, E = r.off := ⟨_, rfl⟩
  have hE' := hE
  try simp only [handleX] at hE
  have kW : Holds W 0 [(6, r.nblk), (6, r.va), (6, r.vd), (3, c.tq), (3, c.gap), (2, c.tk), (6, 57)] := holds_pack (by simp only [Fitting, and_true]; omega) (by rw [hW]; simp only [pack]; ring)
  have s0 : bits W 26 6 = 57 := kW.2.2.2.2.2.2.1
  have s1 : bits W 24 2 = c.tk := kW.2.2.2.2.2.1
  have s2 : bits W 21 3 = c.gap := kW.2.2.2.2.1
  have s3 : bits W 18 3 = c.tq := kW.2.2.2.1
  have s4 : bits W 12 6 = r.vd := kW.2.2.1
  have s5 : bits W 6 6 = r.va := kW.2.1
  have s6 : bits W 0 6 = r.nblk := kW.1
  have kP : Holds P 0 [(2, 0), (8, r.km1), (4, 0), (1, r.src), (3, 0), (3, r.km), (5, r.ty)] := holds_pack (by simp only [Fitting, and_true]; omega) (by rw [hP]; simp only [pack]; ring)
  have p0 : bits P 21 5 = r.ty := kP.2.2.2.2.2.2.1
  have p1 : bits P 18 3 = r.km := kP.2.2.2.2.2.1
  have p2 : bits P 14 1 = r.src := kP.2.2.2.1
  have p3 : bits P 10 4 = 0 := kP.2.2.1
  have p4 : bits P 2 8 = r.km1 := kP.2.1
  refine of012 (e := E) (p := P) (w := W) hwf (by rw [hW']; rfl) (by rw [hP', hW']; rfl) (by rw [hE', hP', hW']; rfl) (by omega) (by omega) (.of_lt (by omega)) ?_
  simp [extract, vxOwnWord, ctlOf, payNear, payFar, s0, s1, s2, s3, s4, s5, s6, p0, p1, p2, p3, p4]
  try rw [hE']

theorem RoundTrip.rkval (c : Ctl) (r : VRkval) : RoundTrip.Statement (.rkval c r) := by
  intro hy
  have hwf := hy
  change ((c.wf && r.vd < 64 && r.vi < 64 && r.vf < 64 && r.ty ≤ 1 && r.kd < 8 && r.nreg1 < 16 && r.km1 < 256 : Bool)) = true at hy
  simp only [Ctl.wf, VX.wf, VX.wfArith, VX.wfTrans, VX.wfLogic, VX.wfMod, VX.wfNtt, VX.wfMovk, VMem.wf, VMem.wfLd, CopyIn.wf, CopyOut.wf, SyncOp.wf, AtomOp.wf, VAtom.wf, Exch.wf, MmaOp.wf, sr3, ldst, brOk, siOk, Bool.and_eq_true, Bool.or_eq_true, decide_eq_true_eq, beq_iff_eq, bne_iff_ne, ne_eq, if_true, if_false, Bool.false_eq_true, Bool.not_true, Bool.not_false, Bool.true_or, Bool.false_or, Bool.true_and] at hy
  obtain ⟨W, hW⟩ : ∃ W, W = engWord 57 c (r.vd * 2 ^ 12 + r.vi * 2 ^ 6 + r.vf) := ⟨_, rfl⟩
  have hW' := hW
  try simp only [engWord, enc29, enc3C, MmaOp.word, VX.word] at hW
  obtain ⟨P, hP⟩ : ∃ P, P = r.ty * 2 ^ 21 + r.kd * 2 ^ 18 + r.nreg1 * 2 ^ 14 + 2 ^ 10 + r.km1 * 2 ^ 2 := ⟨_, rfl⟩
  have hP' := hP
  try simp only [handleX, bufX, VX.ctlX] at hP
  have kW : Holds W 0 [(6, r.vf), (6, r.vi), (6, r.vd), (3, c.tq), (3, c.gap), (2, c.tk), (6, 57)] := holds_pack (by simp only [Fitting, and_true]; omega) (by rw [hW]; simp only [pack]; ring)
  have s0 : bits W 26 6 = 57 := kW.2.2.2.2.2.2.1
  have s1 : bits W 24 2 = c.tk := kW.2.2.2.2.2.1
  have s2 : bits W 21 3 = c.gap := kW.2.2.2.2.1
  have s3 : bits W 18 3 = c.tq := kW.2.2.2.1
  have s4 : bits W 12 6 = r.vd := kW.2.2.1
  have s5 : bits W 6 6 = r.vi := kW.2.1
  have s6 : bits W 0 6 = r.vf := kW.1
  have kP : Holds P 0 [(2, 0), (8, r.km1), (4, 1), (4, r.nreg1), (3, r.kd), (5, r.ty)] := holds_pack (by simp only [Fitting, and_true]; omega) (by rw [hP]; simp only [pack]; ring)
  have p0 : bits P 21 5 = r.ty := kP.2.2.2.2.2.1
  have p1 : bits P 18 3 = r.kd := kP.2.2.2.2.1
  have p2 : bits P 14 4 = r.nreg1 := kP.2.2.2.1
  have p3 : bits P 10 4 = 1 := kP.2.2.1
  have p4 : bits P 2 8 = r.km1 := kP.2.1
  refine of01 (p := P) (w := W) hwf (by rw [hW']; rfl) (by rw [hP', hW']; rfl) (by omega) (.of_lt (by omega)) ?_
  simp [extract, vxOwnWord, ctlOf, payNear, payFar, s0, s1, s2, s3, s4, s5, s6, p0, p1, p2, p3, p4]

theorem RoundTrip.cpin (c : Ctl) (o : CopyIn) : RoundTrip.Statement (.cpin c o) := by
  intro hy
  have hwf := hy
  change ((c.wf && o.wf && o.x < 2 ^ 24 : Bool)) = true at hy
  simp only [Ctl.wf, VX.wf, VX.wfArith, VX.wfTrans, VX.wfLogic, VX.wfMod, VX.wfNtt, VX.wfMovk, VMem.wf, VMem.wfLd, CopyIn.wf, CopyOut.wf, SyncOp.wf, AtomOp.wf, VAtom.wf, Exch.wf, MmaOp.wf, sr3, ldst, brOk, siOk, Bool.and_eq_true, Bool.or_eq_true, decide_eq_true_eq, beq_iff_eq, bne_iff_ne, ne_eq, if_true, if_false, Bool.false_eq_true, Bool.not_true, Bool.not_false, Bool.true_or, Bool.false_or, Bool.true_and] at hy
  obtain ⟨W, hW⟩ : ∃ W, W = engWord 32 c (o.buf * 2 ^ 12 + o.sw * 2 ^ 7 + o.ovw * 2 ^ 6 + o.idx) := ⟨_, rfl⟩
  have hW' := hW
  try simp only [engWord, enc29, enc3C, MmaOp.word, VX.word] at hW
  obtain ⟨P, hP⟩ : ∃ P, P = handleX o.h o.off := ⟨_, rfl⟩
  have hP' := hP
  try simp only [handleX, bufX, VX.ctlX] at hP
  obtain ⟨E, hE⟩ : ∃ E, E = o.x := ⟨_, rfl⟩
  have hE' := hE
  try simp only [handleX] at hE
  have kW : Holds W 0 [(6, o.idx), (1, o.ovw), (5, o.sw), (6, o.buf), (3, c.tq), (3, c.gap), (2, c.tk), (6, 32)] := holds_pack (by simp only [Fitting, and_true]; omega) (by rw [hW]; simp only [pack]; ring)
  have s0 : bits W 26 6 = 32 := kW.2.2.2.2.2.2.2.1
  have s1 : bits W 24 2 = c.tk := kW.2.2.2.2.2.2.1
  have s2 : bits W 21 3 = c.gap := kW.2.2.2.2.2.1
  have s3 : bits W 18 3 = c.tq := kW.2.2.2.2.1
  have s4 : bits W 12 6 = o.buf := kW.2.2.2.1
  have s5 : bits W 7 5 = o.sw := kW.2.2.1
  have s6 : bits W 6 1 = o.ovw := kW.2.1
  have s7 : bits W 0 6 = o.idx := kW.1
  have kP : Holds P 0 [(14, o.off), (12, o.h)] := holds_pack (by simp only [Fitting, and_true]; omega) (by rw [hP]; simp only [pack]; ring)
  have p0 : bits P 14 12 = o.h := kP.2.1
  have p1 : bits P 0 14 = o.off := kP.1
  have e0 : bits E 0 24 = o.x := by rw [bits]; omega
  refine of12 (e := E) (p := P) (w := W) hwf rfl (by rw [hP', hW']; rfl) (by rw [hE', hP', hW']; rfl) (by omega) (by omega) (.of_lt (by omega)) ?_
  right
  simp [extract, moveWord, copyInOf, ctlOf, payNear, payFar, s0, s1, s2, s3, s4, s5, s6, s7, p0, p1, e0]

theorem RoundTrip.cpslot (c : Ctl) (o : CopySlot) : RoundTrip.Statement (.cpslot c o) := by
  intro hy
  have hwf := hy
  change ((c.wf && o.slot < 16 && o.sw < 32 && o.idx < 64 && o.h < 4096 && o.off < 128 && o.land < 2 ^ 24 : Bool)) = true at hy
  simp only [Ctl.wf, VX.wf, VX.wfArith, VX.wfTrans, VX.wfLogic, VX.wfMod, VX.wfNtt, VX.wfMovk, VMem.wf, VMem.wfLd, CopyIn.wf, CopyOut.wf, SyncOp.wf, AtomOp.wf, VAtom.wf, Exch.wf, MmaOp.wf, sr3, ldst, brOk, siOk, Bool.and_eq_true, Bool.or_eq_true, decide_eq_true_eq, beq_iff_eq, bne_iff_ne, ne_eq, if_true, if_false, Bool.false_eq_true, Bool.not_true, Bool.not_false, Bool.true_or, Bool.false_or, Bool.true_and] at hy
  obtain ⟨W, hW⟩ : ∃ W, W = engWord 33 c (o.slot * 2 ^ 14 + o.sw * 2 ^ 7 + o.idx) := ⟨_, rfl⟩
  have hW' := hW
  try simp only [engWord, enc29, enc3C, MmaOp.word, VX.word] at hW
  obtain ⟨P, hP⟩ : ∃ P, P = handleX o.h o.off := ⟨_, rfl⟩
  have hP' := hP
  try simp only [handleX, bufX, VX.ctlX] at hP
  obtain ⟨E, hE⟩ : ∃ E, E = o.land := ⟨_, rfl⟩
  have hE' := hE
  try simp only [handleX] at hE
  have kW : Holds W 0 [(6, o.idx), (1, 0), (5, o.sw), (2, 0), (4, o.slot), (3, c.tq), (3, c.gap), (2, c.tk), (6, 33)] := holds_pack (by simp only [Fitting, and_true]; omega) (by rw [hW]; simp only [pack]; ring)
  have s0 : bits W 26 6 = 33 := kW.2.2.2.2.2.2.2.2.1
  have s1 : bits W 24 2 = c.tk := kW.2.2.2.2.2.2.2.1
  have s2 : bits W 21 3 = c.gap := kW.2.2.2.2.2.2.1
  have s3 : bits W 18 3 = c.tq := kW.2.2.2.2.2.1
  have s4 : bits W 14 4 = o.slot := kW.2.2.2.2.1
  have s5 : bits W 7 5 = o.sw := kW.2.2.1
  have s6 : bits W 0 6 = o.idx := kW.1
  have kP : Holds P 0 [(14, o.off), (12, o.h)] := holds_pack (by simp only [Fitting, and_true]; omega) (by rw [hP]; simp only [pack]; ring)
  have p0 : bits P 14 12 = o.h := kP.2.1
  have p1 : bits P 0 14 = o.off := kP.1
  have e0 : bits E 0 24 = o.land := by rw [bits]; omega
  refine of12 (e := E) (p := P) (w := W) hwf rfl (by rw [hP', hW']; rfl) (by rw [hE', hP', hW']; rfl) (by omega) (by omega) (.of_lt (by omega)) ?_
  right
  simp [extract, moveWord, ctlOf, payNear, payFar, s0, s1, s2, s3, s4, s5, s6, p0, p1, e0]

theorem RoundTrip.xfetch (c : Ctl) (o : CopyIn) : RoundTrip.Statement (.xfetch c o) := by
  intro hy
  have hwf := hy
  change ((c.wf && o.wf && o.x ≤ 4096 : Bool)) = true at hy
  simp only [Ctl.wf, VX.wf, VX.wfArith, VX.wfTrans, VX.wfLogic, VX.wfMod, VX.wfNtt, VX.wfMovk, VMem.wf, VMem.wfLd, CopyIn.wf, CopyOut.wf, SyncOp.wf, AtomOp.wf, VAtom.wf, Exch.wf, MmaOp.wf, sr3, ldst, brOk, siOk, Bool.and_eq_true, Bool.or_eq_true, decide_eq_true_eq, beq_iff_eq, bne_iff_ne, ne_eq, if_true, if_false, Bool.false_eq_true, Bool.not_true, Bool.not_false, Bool.true_or, Bool.false_or, Bool.true_and] at hy
  obtain ⟨W, hW⟩ : ∃ W, W = engWord 34 c (o.buf * 2 ^ 12 + o.sw * 2 ^ 7 + o.ovw * 2 ^ 6 + o.idx) := ⟨_, rfl⟩
  have hW' := hW
  try simp only [engWord, enc29, enc3C, MmaOp.word, VX.word] at hW
  obtain ⟨P, hP⟩ : ∃ P, P = handleX o.h o.off := ⟨_, rfl⟩
  have hP' := hP
  try simp only [handleX, bufX, VX.ctlX] at hP
  obtain ⟨E, hE⟩ : ∃ E, E = (o.x - 1) * 2 ^ 14 := ⟨_, rfl⟩
  have hE' := hE
  try simp only [handleX] at hE
  have kW : Holds W 0 [(6, o.idx), (1, o.ovw), (5, o.sw), (6, o.buf), (3, c.tq), (3, c.gap), (2, c.tk), (6, 34)] := holds_pack (by simp only [Fitting, and_true]; omega) (by rw [hW]; simp only [pack]; ring)
  have s0 : bits W 26 6 = 34 := kW.2.2.2.2.2.2.2.1
  have s1 : bits W 24 2 = c.tk := kW.2.2.2.2.2.2.1
  have s2 : bits W 21 3 = c.gap := kW.2.2.2.2.2.1
  have s3 : bits W 18 3 = c.tq := kW.2.2.2.2.1
  have s4 : bits W 12 6 = o.buf := kW.2.2.2.1
  have s5 : bits W 7 5 = o.sw := kW.2.2.1
  have s6 : bits W 6 1 = o.ovw := kW.2.1
  have s7 : bits W 0 6 = o.idx := kW.1
  have kP : Holds P 0 [(14, o.off), (12, o.h)] := holds_pack (by simp only [Fitting, and_true]; omega) (by rw [hP]; simp only [pack]; ring)
  have p0 : bits P 14 12 = o.h := kP.2.1
  have p1 : bits P 0 14 = o.off := kP.1
  have e0 : bits E 14 12 = o.x - 1 := by rw [bits]; omega
  refine of12 (e := E) (p := P) (w := W) hwf rfl (by rw [hP', hW']; rfl) (by rw [hE', hP', hW']; rfl) (by omega) (by omega) (.of_lt (by omega)) ?_
  rcases Nat.eq_zero_or_pos o.x with hz | hz
  · left
    simp [extract, moveWord, copyInOf, ctlOf, payNear, payFar, s0, s1, s2, s3, s4, s5, s6, s7, p0, p1, e0]
    cases o
    simp_all
  · right
    simp [extract, moveWord, copyInOf, ctlOf, payNear, payFar, s0, s1, s2, s3, s4, s5, s6, s7, p0, p1, e0]
    have h1 : o.x - 1 + 1 = o.x := by omega
    simp [h1]

theorem RoundTrip.acq (c : Ctl) (o : SyncOp) : RoundTrip.Statement (.acq c o) := by
  intro hy
  have hwf := hy
  change ((c.wf && o.wf && o.p == 0 : Bool)) = true at hy
  simp only [Ctl.wf, VX.wf, VX.wfArith, VX.wfTrans, VX.wfLogic, VX.wfMod, VX.wfNtt, VX.wfMovk, VMem.wf, VMem.wfLd, CopyIn.wf, CopyOut.wf, SyncOp.wf, AtomOp.wf, VAtom.wf, Exch.wf, MmaOp.wf, sr3, ldst, brOk, siOk, Bool.and_eq_true, Bool.or_eq_true, decide_eq_true_eq, beq_iff_eq, bne_iff_ne, ne_eq, if_true, if_false, Bool.false_eq_true, Bool.not_true, Bool.not_false, Bool.true_or, Bool.false_or, Bool.true_and] at hy
  obtain ⟨W, hW⟩ : ∃ W, W = engWord 35 c (o.sz * 2 ^ 16 + o.boff * 2 ^ 13 + 0 * 2 ^ 12 + o.sw * 2 ^ 7 + o.buf * 2 + o.p) := ⟨_, rfl⟩
  have hW' := hW
  try simp only [engWord, enc29, enc3C, MmaOp.word, VX.word] at hW
  obtain ⟨P, hP⟩ : ∃ P, P = handleX o.h o.off := ⟨_, rfl⟩
  have hP' := hP
  try simp only [handleX, bufX, VX.ctlX] at hP
  have kW : Holds W 0 [(1, o.p), (6, o.buf), (5, o.sw), (1, 0), (3, o.boff), (2, o.sz), (3, c.tq), (3, c.gap), (2, c.tk), (6, 35)] := holds_pack (by simp only [Fitting, and_true]; omega) (by rw [hW]; simp only [pack]; ring)
  have s0 : bits W 26 6 = 35 := kW.2.2.2.2.2.2.2.2.2.1
  have s1 : bits W 24 2 = c.tk := kW.2.2.2.2.2.2.2.2.1
  have s2 : bits W 21 3 = c.gap := kW.2.2.2.2.2.2.2.1
  have s3 : bits W 18 3 = c.tq := kW.2.2.2.2.2.2.1
  have s4 : bits W 16 2 = o.sz := kW.2.2.2.2.2.1
  have s5 : bits W 13 3 = o.boff := kW.2.2.2.2.1
  have s6 : bits W 12 1 = 0 := kW.2.2.2.1
  have s7 : bits W 7 5 = o.sw := kW.2.2.1
  have s8 : bits W 1 6 = o.buf := kW.2.1
  have s9 : bits W 0 1 = o.p := kW.1
  have kP : Holds P 0 [(14, o.off), (12, o.h)] := holds_pack (by simp only [Fitting, and_true]; omega) (by rw [hP]; simp only [pack]; ring)
  have p0 : bits P 14 12 = o.h := kP.2.1
  have p1 : bits P 0 14 = o.off := kP.1
  refine of1 (p := P) (w := W) hwf rfl (by rw [hP', hW']; rfl) (by omega) (.of_lt (by omega)) ?_
  simp [extract, moveWord, syncOf, ctlOf, payNear, payFar, s0, s1, s2, s3, s4, s5, s6, s7, s8, s9, p0, p1]

theorem RoundTrip.acqCw (c : Ctl) (o : SyncOp) : RoundTrip.Statement (.acqCw c o) := by
  intro hy
  have hwf := hy
  change ((c.wf && o.wf && o.sz == 3 : Bool)) = true at hy
  simp only [Ctl.wf, VX.wf, VX.wfArith, VX.wfTrans, VX.wfLogic, VX.wfMod, VX.wfNtt, VX.wfMovk, VMem.wf, VMem.wfLd, CopyIn.wf, CopyOut.wf, SyncOp.wf, AtomOp.wf, VAtom.wf, Exch.wf, MmaOp.wf, sr3, ldst, brOk, siOk, Bool.and_eq_true, Bool.or_eq_true, decide_eq_true_eq, beq_iff_eq, bne_iff_ne, ne_eq, if_true, if_false, Bool.false_eq_true, Bool.not_true, Bool.not_false, Bool.true_or, Bool.false_or, Bool.true_and] at hy
  obtain ⟨W, hW⟩ : ∃ W, W = engWord 35 c (o.sz * 2 ^ 16 + o.boff * 2 ^ 13 + 1 * 2 ^ 12 + o.sw * 2 ^ 7 + o.buf * 2 + o.p) := ⟨_, rfl⟩
  have hW' := hW
  try simp only [engWord, enc29, enc3C, MmaOp.word, VX.word] at hW
  obtain ⟨P, hP⟩ : ∃ P, P = handleX o.h o.off := ⟨_, rfl⟩
  have hP' := hP
  try simp only [handleX, bufX, VX.ctlX] at hP
  have kW : Holds W 0 [(1, o.p), (6, o.buf), (5, o.sw), (1, 1), (3, o.boff), (2, o.sz), (3, c.tq), (3, c.gap), (2, c.tk), (6, 35)] := holds_pack (by simp only [Fitting, and_true]; omega) (by rw [hW]; simp only [pack]; ring)
  have s0 : bits W 26 6 = 35 := kW.2.2.2.2.2.2.2.2.2.1
  have s1 : bits W 24 2 = c.tk := kW.2.2.2.2.2.2.2.2.1
  have s2 : bits W 21 3 = c.gap := kW.2.2.2.2.2.2.2.1
  have s3 : bits W 18 3 = c.tq := kW.2.2.2.2.2.2.1
  have s4 : bits W 16 2 = o.sz := kW.2.2.2.2.2.1
  have s5 : bits W 13 3 = o.boff := kW.2.2.2.2.1
  have s6 : bits W 12 1 = 1 := kW.2.2.2.1
  have s7 : bits W 7 5 = o.sw := kW.2.2.1
  have s8 : bits W 1 6 = o.buf := kW.2.1
  have s9 : bits W 0 1 = o.p := kW.1
  have kP : Holds P 0 [(14, o.off), (12, o.h)] := holds_pack (by simp only [Fitting, and_true]; omega) (by rw [hP]; simp only [pack]; ring)
  have p0 : bits P 14 12 = o.h := kP.2.1
  have p1 : bits P 0 14 = o.off := kP.1
  refine of1 (p := P) (w := W) hwf rfl (by rw [hP', hW']; rfl) (by omega) (.of_lt (by omega)) ?_
  simp [extract, moveWord, syncOf, ctlOf, payNear, payFar, s0, s1, s2, s3, s4, s5, s6, s7, s8, s9, p0, p1]

theorem RoundTrip.rel (c : Ctl) (o : SyncOp) : RoundTrip.Statement (.rel c o) := by
  intro hy
  have hwf := hy
  change ((c.wf && o.wf && o.p == 0 : Bool)) = true at hy
  simp only [Ctl.wf, VX.wf, VX.wfArith, VX.wfTrans, VX.wfLogic, VX.wfMod, VX.wfNtt, VX.wfMovk, VMem.wf, VMem.wfLd, CopyIn.wf, CopyOut.wf, SyncOp.wf, AtomOp.wf, VAtom.wf, Exch.wf, MmaOp.wf, sr3, ldst, brOk, siOk, Bool.and_eq_true, Bool.or_eq_true, decide_eq_true_eq, beq_iff_eq, bne_iff_ne, ne_eq, if_true, if_false, Bool.false_eq_true, Bool.not_true, Bool.not_false, Bool.true_or, Bool.false_or, Bool.true_and] at hy
  obtain ⟨W, hW⟩ : ∃ W, W = engWord 37 c (o.sz * 2 ^ 16 + o.boff * 2 ^ 13 + 0 * 2 ^ 12 + o.sw * 2 ^ 7 + o.buf * 2 + o.p) := ⟨_, rfl⟩
  have hW' := hW
  try simp only [engWord, enc29, enc3C, MmaOp.word, VX.word] at hW
  obtain ⟨P, hP⟩ : ∃ P, P = handleX o.h o.off := ⟨_, rfl⟩
  have hP' := hP
  try simp only [handleX, bufX, VX.ctlX] at hP
  have kW : Holds W 0 [(1, o.p), (6, o.buf), (5, o.sw), (1, 0), (3, o.boff), (2, o.sz), (3, c.tq), (3, c.gap), (2, c.tk), (6, 37)] := holds_pack (by simp only [Fitting, and_true]; omega) (by rw [hW]; simp only [pack]; ring)
  have s0 : bits W 26 6 = 37 := kW.2.2.2.2.2.2.2.2.2.1
  have s1 : bits W 24 2 = c.tk := kW.2.2.2.2.2.2.2.2.1
  have s2 : bits W 21 3 = c.gap := kW.2.2.2.2.2.2.2.1
  have s3 : bits W 18 3 = c.tq := kW.2.2.2.2.2.2.1
  have s4 : bits W 16 2 = o.sz := kW.2.2.2.2.2.1
  have s5 : bits W 13 3 = o.boff := kW.2.2.2.2.1
  have s6 : bits W 12 1 = 0 := kW.2.2.2.1
  have s7 : bits W 7 5 = o.sw := kW.2.2.1
  have s8 : bits W 1 6 = o.buf := kW.2.1
  have s9 : bits W 0 1 = o.p := kW.1
  have kP : Holds P 0 [(14, o.off), (12, o.h)] := holds_pack (by simp only [Fitting, and_true]; omega) (by rw [hP]; simp only [pack]; ring)
  have p0 : bits P 14 12 = o.h := kP.2.1
  have p1 : bits P 0 14 = o.off := kP.1
  refine of1 (p := P) (w := W) hwf rfl (by rw [hP', hW']; rfl) (by omega) (.of_lt (by omega)) ?_
  simp [extract, moveWord, syncOf, ctlOf, payNear, payFar, s0, s1, s2, s3, s4, s5, s6, s7, s8, s9, p0, p1]

theorem RoundTrip.cpout (c : Ctl) (o : CopyOut) : RoundTrip.Statement (.cpout c o) := by
  intro hy
  have hwf := hy
  change ((c.wf && o.wf && o.cw == 0 : Bool)) = true at hy
  simp only [Ctl.wf, VX.wf, VX.wfArith, VX.wfTrans, VX.wfLogic, VX.wfMod, VX.wfNtt, VX.wfMovk, VMem.wf, VMem.wfLd, CopyIn.wf, CopyOut.wf, SyncOp.wf, AtomOp.wf, VAtom.wf, Exch.wf, MmaOp.wf, sr3, ldst, brOk, siOk, Bool.and_eq_true, Bool.or_eq_true, decide_eq_true_eq, beq_iff_eq, bne_iff_ne, ne_eq, if_true, if_false, Bool.false_eq_true, Bool.not_true, Bool.not_false, Bool.true_or, Bool.false_or, Bool.true_and] at hy
  obtain ⟨W, hW⟩ : ∃ W, W = engWord 36 c (o.buf * 2 ^ 12 + o.sw * 2 ^ 7 + o.idx) := ⟨_, rfl⟩
  have hW' := hW
  try simp only [engWord, enc29, enc3C, MmaOp.word, VX.word] at hW
  obtain ⟨P, hP⟩ : ∃ P, P = handleX o.h o.off := ⟨_, rfl⟩
  have hP' := hP
  try simp only [handleX, bufX, VX.ctlX] at hP
  have kW : Holds W 0 [(6, o.idx), (1, 0), (5, o.sw), (6, o.buf), (3, c.tq), (3, c.gap), (2, c.tk), (6, 36)] := holds_pack (by simp only [Fitting, and_true]; omega) (by rw [hW]; simp only [pack]; ring)
  have s0 : bits W 26 6 = 36 := kW.2.2.2.2.2.2.2.1
  have s1 : bits W 24 2 = c.tk := kW.2.2.2.2.2.2.1
  have s2 : bits W 21 3 = c.gap := kW.2.2.2.2.2.1
  have s3 : bits W 18 3 = c.tq := kW.2.2.2.2.1
  have s4 : bits W 12 6 = o.buf := kW.2.2.2.1
  have s5 : bits W 7 5 = o.sw := kW.2.2.1
  have s6 : bits W 6 1 = 0 := kW.2.1
  have s7 : bits W 0 6 = o.idx := kW.1
  have kP : Holds P 0 [(14, o.off), (12, o.h)] := holds_pack (by simp only [Fitting, and_true]; omega) (by rw [hP]; simp only [pack]; ring)
  have p0 : bits P 14 12 = o.h := kP.2.1
  have p1 : bits P 0 14 = o.off := kP.1
  refine of1 (p := P) (w := W) hwf rfl (by rw [hP', hW']; rfl) (by omega) (.of_lt (by omega)) ?_
  have hz : o.cw = 0 := by omega
  simp [extract, moveWord, ctlOf, payNear, payFar, s0, s1, s2, s3, s4, s5, s6, s7, p0, p1]
  cases o
  simp_all

theorem RoundTrip.cpoutFlush (c : Ctl) (buf sw : Nat) : RoundTrip.Statement (.cpoutFlush c buf sw) := by
  intro hy
  have hwf := hy
  change ((c.wf && buf < 64 && sw < 32 : Bool)) = true at hy
  simp only [Ctl.wf, VX.wf, VX.wfArith, VX.wfTrans, VX.wfLogic, VX.wfMod, VX.wfNtt, VX.wfMovk, VMem.wf, VMem.wfLd, CopyIn.wf, CopyOut.wf, SyncOp.wf, AtomOp.wf, VAtom.wf, Exch.wf, MmaOp.wf, sr3, ldst, brOk, siOk, Bool.and_eq_true, Bool.or_eq_true, decide_eq_true_eq, beq_iff_eq, bne_iff_ne, ne_eq, if_true, if_false, Bool.false_eq_true, Bool.not_true, Bool.not_false, Bool.true_or, Bool.false_or, Bool.true_and] at hy
  obtain ⟨W, hW⟩ : ∃ W, W = engWord 36 c (buf * 2 ^ 12 + sw * 2 ^ 7 + 2 ^ 6) := ⟨_, rfl⟩
  have hW' := hW
  try simp only [engWord, enc29, enc3C, MmaOp.word, VX.word] at hW
  have kW : Holds W 0 [(6, 0), (1, 1), (5, sw), (6, buf), (3, c.tq), (3, c.gap), (2, c.tk), (6, 36)] := holds_pack (by simp only [Fitting, and_true]; omega) (by rw [hW]; simp only [pack]; ring)
  have s0 : bits W 26 6 = 36 := kW.2.2.2.2.2.2.2.1
  have s1 : bits W 24 2 = c.tk := kW.2.2.2.2.2.2.1
  have s2 : bits W 21 3 = c.gap := kW.2.2.2.2.2.1
  have s3 : bits W 18 3 = c.tq := kW.2.2.2.2.1
  have s4 : bits W 12 6 = buf := kW.2.2.2.1
  have s5 : bits W 7 5 = sw := kW.2.2.1
  have s6 : bits W 6 1 = 1 := kW.2.1
  refine of0 (w := W) hwf (by rw [hW']; rfl) (.of_lt (by omega)) ?_
  simp [extract, moveWord, ctlOf, payNear, payFar, s0, s1, s2, s3, s4, s5, s6]

theorem RoundTrip.xpost (c : Ctl) (o : CopyOut) : RoundTrip.Statement (.xpost c o) := by
  intro hy
  have hwf := hy
  change ((c.wf && o.wf && o.cw ≤ 4096 : Bool)) = true at hy
  simp only [Ctl.wf, VX.wf, VX.wfArith, VX.wfTrans, VX.wfLogic, VX.wfMod, VX.wfNtt, VX.wfMovk, VMem.wf, VMem.wfLd, CopyIn.wf, CopyOut.wf, SyncOp.wf, AtomOp.wf, VAtom.wf, Exch.wf, MmaOp.wf, sr3, ldst, brOk, siOk, Bool.and_eq_true, Bool.or_eq_true, decide_eq_true_eq, beq_iff_eq, bne_iff_ne, ne_eq, if_true, if_false, Bool.false_eq_true, Bool.not_true, Bool.not_false, Bool.true_or, Bool.false_or, Bool.true_and] at hy
  obtain ⟨W, hW⟩ : ∃ W, W = engWord 38 c (o.buf * 2 ^ 11 + o.sw * 2 ^ 6 + o.idx) := ⟨_, rfl⟩
  have hW' := hW
  try simp only [engWord, enc29, enc3C, MmaOp.word, VX.word] at hW
  obtain ⟨P, hP⟩ : ∃ P, P = handleX o.h o.off := ⟨_, rfl⟩
  have hP' := hP
  try simp only [handleX, bufX, VX.ctlX] at hP
  obtain ⟨E, hE⟩ : ∃ E, E = (o.cw - 1) * 2 ^ 14 := ⟨_, rfl⟩
  have hE' := hE
  try simp only [handleX] at hE
  have kW : Holds W 0 [(6, o.idx), (5, o.sw), (6, o.buf), (1, 0), (3, c.tq), (3, c.gap), (2, c.tk), (6, 38)] := holds_pack (by simp only [Fitting, and_true]; omega) (by rw [hW]; simp only [pack]; ring)
  have s0 : bits W 26 6 = 38 := kW.2.2.2.2.2.2.2.1
  have s1 : bits W 24 2 = c.tk := kW.2.2.2.2.2.2.1
  have s2 : bits W 21 3 = c.gap := kW.2.2.2.2.2.1
  have s3 : bits W 18 3 = c.tq := kW.2.2.2.2.1
  have s4 : bits W 17 1 = 0 := kW.2.2.2.1
  have s5 : bits W 11 6 = o.buf := kW.2.2.1
  have s6 : bits W 6 5 = o.sw := kW.2.1
  have s7 : bits W 0 6 = o.idx := kW.1
  have kP : Holds P 0 [(14, o.off), (12, o.h)] := holds_pack (by simp only [Fitting, and_true]; omega) (by rw [hP]; simp only [pack]; ring)
  have p0 : bits P 14 12 = o.h := kP.2.1
  have p1 : bits P 0 14 = o.off := kP.1
  have e0 : bits E 14 12 = o.cw - 1 := by rw [bits]; omega
  refine of12 (e := E) (p := P) (w := W) hwf rfl (by rw [hP', hW']; rfl) (by rw [hE', hP', hW']; rfl) (by omega) (by omega) (.of_lt (by omega)) ?_
  rcases Nat.eq_zero_or_pos o.cw with hz | hz
  · left
    simp [extract, moveWord, ctlOf, payNear, payFar, s0, s1, s2, s3, s4, s5, s6, s7, p0, p1, e0]
    cases o
    simp_all
  · right
    simp [extract, moveWord, ctlOf, payNear, payFar, s0, s1, s2, s3, s4, s5, s6, s7, p0, p1, e0]
    have h1 : o.cw - 1 + 1 = o.cw := by omega
    simp [h1]

theorem RoundTrip.coll (c : Ctl) (o : CollOp) : RoundTrip.Statement (.coll c o) := by
  intro hy
  have hwf := hy
  change ((c.wf && o.sbuf < 64 && o.sw < 32 && o.dbuf < 64 && (isFloat3 o.ty || (0x0E ≤ o.ty && o.ty ≤ 0x11)) && o.opn ≤ 2 && o.ep < 2 && o.group < 64 && o.nch < 4096 && o.soff < 2 ^ 13 && o.doff < 2 ^ 13 : Bool)) = true at hy
  simp only [Ctl.wf, VX.wf, VX.wfArith, VX.wfTrans, VX.wfLogic, VX.wfMod, VX.wfNtt, VX.wfMovk, VMem.wf, VMem.wfLd, CopyIn.wf, CopyOut.wf, SyncOp.wf, AtomOp.wf, VAtom.wf, Exch.wf, MmaOp.wf, sr3, ldst, brOk, siOk, Bool.and_eq_true, Bool.or_eq_true, decide_eq_true_eq, beq_iff_eq, bne_iff_ne, ne_eq, if_true, if_false, Bool.false_eq_true, Bool.not_true, Bool.not_false, Bool.true_or, Bool.false_or, Bool.true_and] at hy
  simp only [isFloat3, Bool.or_eq_true, Bool.and_eq_true, decide_eq_true_eq] at hy
  obtain ⟨W, hW⟩ : ∃ W, W = engWord 38 c (2 ^ 17 + o.sbuf * 2 ^ 11 + o.sw * 2 ^ 6 + o.dbuf) := ⟨_, rfl⟩
  have hW' := hW
  try simp only [engWord, enc29, enc3C, MmaOp.word, VX.word] at hW
  obtain ⟨P, hP⟩ : ∃ P, P = o.ty * 2 ^ 21 + o.opn * 2 ^ 19 + o.ep * 2 ^ 18 + o.group * 2 ^ 12 + o.nch := ⟨_, rfl⟩
  have hP' := hP
  try simp only [handleX, bufX, VX.ctlX] at hP
  obtain ⟨E, hE⟩ : ∃ E, E = o.soff * 2 ^ 13 + o.doff := ⟨_, rfl⟩
  have hE' := hE
  try simp only [handleX] at hE
  have kW : Holds W 0 [(6, o.dbuf), (5, o.sw), (6, o.sbuf), (1, 1), (3, c.tq), (3, c.gap), (2, c.tk), (6, 38)] := holds_pack (by simp only [Fitting, and_true]; omega) (by rw [hW]; simp only [pack]; ring)
  have s0 : bits W 26 6 = 38 := kW.2.2.2.2.2.2.2.1
  have s1 : bits W 24 2 = c.tk := kW.2.2.2.2.2.2.1
  have s2 : bits W 21 3 = c.gap := kW.2.2.2.2.2.1
  have s3 : bits W 18 3 = c.tq := kW.2.2.2.2.1
  have s4 : bits W 17 1 = 1 := kW.2.2.2.1
  have s5 : bits W 11 6 = o.sbuf := kW.2.2.1
  have s6 : bits W 6 5 = o.sw := kW.2.1
  have s7 : bits W 0 6 = o.dbuf := kW.1
  have kP : Holds P 0 [(12, o.nch), (6, o.group), (1, o.ep), (2, o.opn), (5, o.ty)] := holds_pack (by simp only [Fitting, and_true]; omega) (by rw [hP]; simp only [pack]; ring)
  have p0 : bits P 21 5 = o.ty := kP.2.2.2.2.1
  have p1 : bits P 19 2 = o.opn := kP.2.2.2.1
  have p2 : bits P 18 1 = o.ep := kP.2.2.1
  have p3 : bits P 12 6 = o.group := kP.2.1
  have p4 : bits P 0 12 = o.nch := kP.1
  have kE : Holds E 0 [(13, o.doff), (13, o.soff)] := holds_pack (by simp only [Fitting, and_true]; omega) (by rw [hE]; simp only [pack]; ring)
  have e0 : bits E 13 13 = o.soff := kE.2.1
  have e1 : bits E 0 13 = o.doff := kE.1
  refine of2 (e := E) (p := P) (w := W) hwf rfl rfl (by rw [hE', hP', hW']; rfl) (by omega) (by omega) (.of_lt (by omega)) ?_
  simp [extract, moveWord, ctlOf, payNear, payFar, s0, s1, s2, s3, s4, s5, s6, s7, p0, p1, p2, p3, p4, e0, e1]

theorem RoundTrip.atomAdd (c : Ctl) (o : AtomOp) : RoundTrip.Statement (.atomAdd c o) := by
  intro hy
  have hwf := hy
  change ((c.wf && o.wf && o.uns == 0 : Bool)) = true at hy
  simp only [Ctl.wf, VX.wf, VX.wfArith, VX.wfTrans, VX.wfLogic, VX.wfMod, VX.wfNtt, VX.wfMovk, VMem.wf, VMem.wfLd, CopyIn.wf, CopyOut.wf, SyncOp.wf, AtomOp.wf, VAtom.wf, Exch.wf, MmaOp.wf, sr3, ldst, brOk, siOk, Bool.and_eq_true, Bool.or_eq_true, decide_eq_true_eq, beq_iff_eq, bne_iff_ne, ne_eq, if_true, if_false, Bool.false_eq_true, Bool.not_true, Bool.not_false, Bool.true_or, Bool.false_or, Bool.true_and] at hy
  obtain ⟨W, hW⟩ : ∃ W, W = engWord 39 c (0 * 2 ^ 14 + o.sz * 2 ^ 12 + o.sw * 2 ^ 7 + o.buf * 2 + o.ret) := ⟨_, rfl⟩
  have hW' := hW
  try simp only [engWord, enc29, enc3C, MmaOp.word, VX.word] at hW
  obtain ⟨P, hP⟩ : ∃ P, P = handleX o.h o.off := ⟨_, rfl⟩
  have hP' := hP
  try simp only [handleX, bufX, VX.ctlX] at hP
  obtain ⟨E, hE⟩ : ∃ E, E = o.aoff := ⟨_, rfl⟩
  have hE' := hE
  try simp only [handleX] at hE
  have kW : Holds W 0 [(1, o.ret), (6, o.buf), (5, o.sw), (2, o.sz), (4, 0), (3, c.tq), (3, c.gap), (2, c.tk), (6, 39)] := holds_pack (by simp only [Fitting, and_true]; omega) (by rw [hW]; simp only [pack]; ring)
  have s0 : bits W 26 6 = 39 := kW.2.2.2.2.2.2.2.2.1
  have s1 : bits W 24 2 = c.tk := kW.2.2.2.2.2.2.2.1
  have s2 : bits W 21 3 = c.gap := kW.2.2.2.2.2.2.1
  have s3 : bits W 18 3 = c.tq := kW.2.2.2.2.2.1
  have s4 : bits W 14 4 = 0 := kW.2.2.2.2.1
  have s5 : bits W 12 2 = o.sz := kW.2.2.2.1
  have s6 : bits W 7 5 = o.sw := kW.2.2.1
  have s7 : bits W 1 6 = o.buf := kW.2.1
  have s8 : bits W 0 1 = o.ret := kW.1
  have kP : Holds P 0 [(14, o.off), (12, o.h)] := holds_pack (by simp only [Fitting, and_true]; omega) (by rw [hP]; simp only [pack]; ring)
  have p0 : bits P 14 12 = o.h := kP.2.1
  have p1 : bits P 0 14 = o.off := kP.1
  refine of12 (e := E) (p := P) (w := W) hwf rfl (by rw [hP', hW']; rfl) (by rw [hE', hP', hW']; rfl) (by omega) (by omega) (.of_lt (by omega)) ?_
  right
  have hz : o.uns = 0 := by omega
  simp [extract, moveWord, atomOf, ctlOf, payNear, payFar, s0, s1, s2, s3, s4, s5, s6, s7, s8, p0, p1]
  cases o
  simp_all

theorem RoundTrip.atomAnd (c : Ctl) (o : AtomOp) : RoundTrip.Statement (.atomAnd c o) := by
  intro hy
  have hwf := hy
  change ((c.wf && o.wf && o.uns == 0 : Bool)) = true at hy
  simp only [Ctl.wf, VX.wf, VX.wfArith, VX.wfTrans, VX.wfLogic, VX.wfMod, VX.wfNtt, VX.wfMovk, VMem.wf, VMem.wfLd, CopyIn.wf, CopyOut.wf, SyncOp.wf, AtomOp.wf, VAtom.wf, Exch.wf, MmaOp.wf, sr3, ldst, brOk, siOk, Bool.and_eq_true, Bool.or_eq_true, decide_eq_true_eq, beq_iff_eq, bne_iff_ne, ne_eq, if_true, if_false, Bool.false_eq_true, Bool.not_true, Bool.not_false, Bool.true_or, Bool.false_or, Bool.true_and] at hy
  obtain ⟨W, hW⟩ : ∃ W, W = engWord 39 c (1 * 2 ^ 14 + o.sz * 2 ^ 12 + o.sw * 2 ^ 7 + o.buf * 2 + o.ret) := ⟨_, rfl⟩
  have hW' := hW
  try simp only [engWord, enc29, enc3C, MmaOp.word, VX.word] at hW
  obtain ⟨P, hP⟩ : ∃ P, P = handleX o.h o.off := ⟨_, rfl⟩
  have hP' := hP
  try simp only [handleX, bufX, VX.ctlX] at hP
  obtain ⟨E, hE⟩ : ∃ E, E = o.aoff := ⟨_, rfl⟩
  have hE' := hE
  try simp only [handleX] at hE
  have kW : Holds W 0 [(1, o.ret), (6, o.buf), (5, o.sw), (2, o.sz), (4, 1), (3, c.tq), (3, c.gap), (2, c.tk), (6, 39)] := holds_pack (by simp only [Fitting, and_true]; omega) (by rw [hW]; simp only [pack]; ring)
  have s0 : bits W 26 6 = 39 := kW.2.2.2.2.2.2.2.2.1
  have s1 : bits W 24 2 = c.tk := kW.2.2.2.2.2.2.2.1
  have s2 : bits W 21 3 = c.gap := kW.2.2.2.2.2.2.1
  have s3 : bits W 18 3 = c.tq := kW.2.2.2.2.2.1
  have s4 : bits W 14 4 = 1 := kW.2.2.2.2.1
  have s5 : bits W 12 2 = o.sz := kW.2.2.2.1
  have s6 : bits W 7 5 = o.sw := kW.2.2.1
  have s7 : bits W 1 6 = o.buf := kW.2.1
  have s8 : bits W 0 1 = o.ret := kW.1
  have kP : Holds P 0 [(14, o.off), (12, o.h)] := holds_pack (by simp only [Fitting, and_true]; omega) (by rw [hP]; simp only [pack]; ring)
  have p0 : bits P 14 12 = o.h := kP.2.1
  have p1 : bits P 0 14 = o.off := kP.1
  refine of12 (e := E) (p := P) (w := W) hwf rfl (by rw [hP', hW']; rfl) (by rw [hE', hP', hW']; rfl) (by omega) (by omega) (.of_lt (by omega)) ?_
  right
  have hz : o.uns = 0 := by omega
  simp [extract, moveWord, atomOf, ctlOf, payNear, payFar, s0, s1, s2, s3, s4, s5, s6, s7, s8, p0, p1]
  cases o
  simp_all

theorem RoundTrip.atomOr (c : Ctl) (o : AtomOp) : RoundTrip.Statement (.atomOr c o) := by
  intro hy
  have hwf := hy
  change ((c.wf && o.wf && o.uns == 0 : Bool)) = true at hy
  simp only [Ctl.wf, VX.wf, VX.wfArith, VX.wfTrans, VX.wfLogic, VX.wfMod, VX.wfNtt, VX.wfMovk, VMem.wf, VMem.wfLd, CopyIn.wf, CopyOut.wf, SyncOp.wf, AtomOp.wf, VAtom.wf, Exch.wf, MmaOp.wf, sr3, ldst, brOk, siOk, Bool.and_eq_true, Bool.or_eq_true, decide_eq_true_eq, beq_iff_eq, bne_iff_ne, ne_eq, if_true, if_false, Bool.false_eq_true, Bool.not_true, Bool.not_false, Bool.true_or, Bool.false_or, Bool.true_and] at hy
  obtain ⟨W, hW⟩ : ∃ W, W = engWord 39 c (2 * 2 ^ 14 + o.sz * 2 ^ 12 + o.sw * 2 ^ 7 + o.buf * 2 + o.ret) := ⟨_, rfl⟩
  have hW' := hW
  try simp only [engWord, enc29, enc3C, MmaOp.word, VX.word] at hW
  obtain ⟨P, hP⟩ : ∃ P, P = handleX o.h o.off := ⟨_, rfl⟩
  have hP' := hP
  try simp only [handleX, bufX, VX.ctlX] at hP
  obtain ⟨E, hE⟩ : ∃ E, E = o.aoff := ⟨_, rfl⟩
  have hE' := hE
  try simp only [handleX] at hE
  have kW : Holds W 0 [(1, o.ret), (6, o.buf), (5, o.sw), (2, o.sz), (4, 2), (3, c.tq), (3, c.gap), (2, c.tk), (6, 39)] := holds_pack (by simp only [Fitting, and_true]; omega) (by rw [hW]; simp only [pack]; ring)
  have s0 : bits W 26 6 = 39 := kW.2.2.2.2.2.2.2.2.1
  have s1 : bits W 24 2 = c.tk := kW.2.2.2.2.2.2.2.1
  have s2 : bits W 21 3 = c.gap := kW.2.2.2.2.2.2.1
  have s3 : bits W 18 3 = c.tq := kW.2.2.2.2.2.1
  have s4 : bits W 14 4 = 2 := kW.2.2.2.2.1
  have s5 : bits W 12 2 = o.sz := kW.2.2.2.1
  have s6 : bits W 7 5 = o.sw := kW.2.2.1
  have s7 : bits W 1 6 = o.buf := kW.2.1
  have s8 : bits W 0 1 = o.ret := kW.1
  have kP : Holds P 0 [(14, o.off), (12, o.h)] := holds_pack (by simp only [Fitting, and_true]; omega) (by rw [hP]; simp only [pack]; ring)
  have p0 : bits P 14 12 = o.h := kP.2.1
  have p1 : bits P 0 14 = o.off := kP.1
  refine of12 (e := E) (p := P) (w := W) hwf rfl (by rw [hP', hW']; rfl) (by rw [hE', hP', hW']; rfl) (by omega) (by omega) (.of_lt (by omega)) ?_
  right
  have hz : o.uns = 0 := by omega
  simp [extract, moveWord, atomOf, ctlOf, payNear, payFar, s0, s1, s2, s3, s4, s5, s6, s7, s8, p0, p1]
  cases o
  simp_all

theorem RoundTrip.atomXor (c : Ctl) (o : AtomOp) : RoundTrip.Statement (.atomXor c o) := by
  intro hy
  have hwf := hy
  change ((c.wf && o.wf && o.uns == 0 : Bool)) = true at hy
  simp only [Ctl.wf, VX.wf, VX.wfArith, VX.wfTrans, VX.wfLogic, VX.wfMod, VX.wfNtt, VX.wfMovk, VMem.wf, VMem.wfLd, CopyIn.wf, CopyOut.wf, SyncOp.wf, AtomOp.wf, VAtom.wf, Exch.wf, MmaOp.wf, sr3, ldst, brOk, siOk, Bool.and_eq_true, Bool.or_eq_true, decide_eq_true_eq, beq_iff_eq, bne_iff_ne, ne_eq, if_true, if_false, Bool.false_eq_true, Bool.not_true, Bool.not_false, Bool.true_or, Bool.false_or, Bool.true_and] at hy
  obtain ⟨W, hW⟩ : ∃ W, W = engWord 39 c (3 * 2 ^ 14 + o.sz * 2 ^ 12 + o.sw * 2 ^ 7 + o.buf * 2 + o.ret) := ⟨_, rfl⟩
  have hW' := hW
  try simp only [engWord, enc29, enc3C, MmaOp.word, VX.word] at hW
  obtain ⟨P, hP⟩ : ∃ P, P = handleX o.h o.off := ⟨_, rfl⟩
  have hP' := hP
  try simp only [handleX, bufX, VX.ctlX] at hP
  obtain ⟨E, hE⟩ : ∃ E, E = o.aoff := ⟨_, rfl⟩
  have hE' := hE
  try simp only [handleX] at hE
  have kW : Holds W 0 [(1, o.ret), (6, o.buf), (5, o.sw), (2, o.sz), (4, 3), (3, c.tq), (3, c.gap), (2, c.tk), (6, 39)] := holds_pack (by simp only [Fitting, and_true]; omega) (by rw [hW]; simp only [pack]; ring)
  have s0 : bits W 26 6 = 39 := kW.2.2.2.2.2.2.2.2.1
  have s1 : bits W 24 2 = c.tk := kW.2.2.2.2.2.2.2.1
  have s2 : bits W 21 3 = c.gap := kW.2.2.2.2.2.2.1
  have s3 : bits W 18 3 = c.tq := kW.2.2.2.2.2.1
  have s4 : bits W 14 4 = 3 := kW.2.2.2.2.1
  have s5 : bits W 12 2 = o.sz := kW.2.2.2.1
  have s6 : bits W 7 5 = o.sw := kW.2.2.1
  have s7 : bits W 1 6 = o.buf := kW.2.1
  have s8 : bits W 0 1 = o.ret := kW.1
  have kP : Holds P 0 [(14, o.off), (12, o.h)] := holds_pack (by simp only [Fitting, and_true]; omega) (by rw [hP]; simp only [pack]; ring)
  have p0 : bits P 14 12 = o.h := kP.2.1
  have p1 : bits P 0 14 = o.off := kP.1
  refine of12 (e := E) (p := P) (w := W) hwf rfl (by rw [hP', hW']; rfl) (by rw [hE', hP', hW']; rfl) (by omega) (by omega) (.of_lt (by omega)) ?_
  right
  have hz : o.uns = 0 := by omega
  simp [extract, moveWord, atomOf, ctlOf, payNear, payFar, s0, s1, s2, s3, s4, s5, s6, s7, s8, p0, p1]
  cases o
  simp_all

theorem RoundTrip.atomSwap (c : Ctl) (o : AtomOp) : RoundTrip.Statement (.atomSwap c o) := by
  intro hy
  have hwf := hy
  change ((c.wf && o.wf && o.uns == 0 : Bool)) = true at hy
  simp only [Ctl.wf, VX.wf, VX.wfArith, VX.wfTrans, VX.wfLogic, VX.wfMod, VX.wfNtt, VX.wfMovk, VMem.wf, VMem.wfLd, CopyIn.wf, CopyOut.wf, SyncOp.wf, AtomOp.wf, VAtom.wf, Exch.wf, MmaOp.wf, sr3, ldst, brOk, siOk, Bool.and_eq_true, Bool.or_eq_true, decide_eq_true_eq, beq_iff_eq, bne_iff_ne, ne_eq, if_true, if_false, Bool.false_eq_true, Bool.not_true, Bool.not_false, Bool.true_or, Bool.false_or, Bool.true_and] at hy
  obtain ⟨W, hW⟩ : ∃ W, W = engWord 39 c (8 * 2 ^ 14 + o.sz * 2 ^ 12 + o.sw * 2 ^ 7 + o.buf * 2 + o.ret) := ⟨_, rfl⟩
  have hW' := hW
  try simp only [engWord, enc29, enc3C, MmaOp.word, VX.word] at hW
  obtain ⟨P, hP⟩ : ∃ P, P = handleX o.h o.off := ⟨_, rfl⟩
  have hP' := hP
  try simp only [handleX, bufX, VX.ctlX] at hP
  obtain ⟨E, hE⟩ : ∃ E, E = o.aoff := ⟨_, rfl⟩
  have hE' := hE
  try simp only [handleX] at hE
  have kW : Holds W 0 [(1, o.ret), (6, o.buf), (5, o.sw), (2, o.sz), (4, 8), (3, c.tq), (3, c.gap), (2, c.tk), (6, 39)] := holds_pack (by simp only [Fitting, and_true]; omega) (by rw [hW]; simp only [pack]; ring)
  have s0 : bits W 26 6 = 39 := kW.2.2.2.2.2.2.2.2.1
  have s1 : bits W 24 2 = c.tk := kW.2.2.2.2.2.2.2.1
  have s2 : bits W 21 3 = c.gap := kW.2.2.2.2.2.2.1
  have s3 : bits W 18 3 = c.tq := kW.2.2.2.2.2.1
  have s4 : bits W 14 4 = 8 := kW.2.2.2.2.1
  have s5 : bits W 12 2 = o.sz := kW.2.2.2.1
  have s6 : bits W 7 5 = o.sw := kW.2.2.1
  have s7 : bits W 1 6 = o.buf := kW.2.1
  have s8 : bits W 0 1 = o.ret := kW.1
  have kP : Holds P 0 [(14, o.off), (12, o.h)] := holds_pack (by simp only [Fitting, and_true]; omega) (by rw [hP]; simp only [pack]; ring)
  have p0 : bits P 14 12 = o.h := kP.2.1
  have p1 : bits P 0 14 = o.off := kP.1
  refine of12 (e := E) (p := P) (w := W) hwf rfl (by rw [hP', hW']; rfl) (by rw [hE', hP', hW']; rfl) (by omega) (by omega) (.of_lt (by omega)) ?_
  right
  have hz : o.uns = 0 := by omega
  simp [extract, moveWord, atomOf, ctlOf, payNear, payFar, s0, s1, s2, s3, s4, s5, s6, s7, s8, p0, p1]
  cases o
  simp_all

theorem RoundTrip.atomCas (c : Ctl) (o : AtomOp) : RoundTrip.Statement (.atomCas c o) := by
  intro hy
  have hwf := hy
  change ((c.wf && o.wf && o.uns == 0 : Bool)) = true at hy
  simp only [Ctl.wf, VX.wf, VX.wfArith, VX.wfTrans, VX.wfLogic, VX.wfMod, VX.wfNtt, VX.wfMovk, VMem.wf, VMem.wfLd, CopyIn.wf, CopyOut.wf, SyncOp.wf, AtomOp.wf, VAtom.wf, Exch.wf, MmaOp.wf, sr3, ldst, brOk, siOk, Bool.and_eq_true, Bool.or_eq_true, decide_eq_true_eq, beq_iff_eq, bne_iff_ne, ne_eq, if_true, if_false, Bool.false_eq_true, Bool.not_true, Bool.not_false, Bool.true_or, Bool.false_or, Bool.true_and] at hy
  obtain ⟨W, hW⟩ : ∃ W, W = engWord 39 c (9 * 2 ^ 14 + o.sz * 2 ^ 12 + o.sw * 2 ^ 7 + o.buf * 2 + o.ret) := ⟨_, rfl⟩
  have hW' := hW
  try simp only [engWord, enc29, enc3C, MmaOp.word, VX.word] at hW
  obtain ⟨P, hP⟩ : ∃ P, P = handleX o.h o.off := ⟨_, rfl⟩
  have hP' := hP
  try simp only [handleX, bufX, VX.ctlX] at hP
  obtain ⟨E, hE⟩ : ∃ E, E = o.aoff := ⟨_, rfl⟩
  have hE' := hE
  try simp only [handleX] at hE
  have kW : Holds W 0 [(1, o.ret), (6, o.buf), (5, o.sw), (2, o.sz), (4, 9), (3, c.tq), (3, c.gap), (2, c.tk), (6, 39)] := holds_pack (by simp only [Fitting, and_true]; omega) (by rw [hW]; simp only [pack]; ring)
  have s0 : bits W 26 6 = 39 := kW.2.2.2.2.2.2.2.2.1
  have s1 : bits W 24 2 = c.tk := kW.2.2.2.2.2.2.2.1
  have s2 : bits W 21 3 = c.gap := kW.2.2.2.2.2.2.1
  have s3 : bits W 18 3 = c.tq := kW.2.2.2.2.2.1
  have s4 : bits W 14 4 = 9 := kW.2.2.2.2.1
  have s5 : bits W 12 2 = o.sz := kW.2.2.2.1
  have s6 : bits W 7 5 = o.sw := kW.2.2.1
  have s7 : bits W 1 6 = o.buf := kW.2.1
  have s8 : bits W 0 1 = o.ret := kW.1
  have kP : Holds P 0 [(14, o.off), (12, o.h)] := holds_pack (by simp only [Fitting, and_true]; omega) (by rw [hP]; simp only [pack]; ring)
  have p0 : bits P 14 12 = o.h := kP.2.1
  have p1 : bits P 0 14 = o.off := kP.1
  refine of12 (e := E) (p := P) (w := W) hwf rfl (by rw [hP', hW']; rfl) (by rw [hE', hP', hW']; rfl) (by omega) (by omega) (.of_lt (by omega)) ?_
  right
  have hz : o.uns = 0 := by omega
  simp [extract, moveWord, atomOf, ctlOf, payNear, payFar, s0, s1, s2, s3, s4, s5, s6, s7, s8, p0, p1]
  cases o
  simp_all

theorem RoundTrip.atomFadd (c : Ctl) (o : AtomOp) : RoundTrip.Statement (.atomFadd c o) := by
  intro hy
  have hwf := hy
  change ((c.wf && o.wf && o.uns == 0 && (o.sz == 1 || o.sz == 2) : Bool)) = true at hy
  simp only [Ctl.wf, VX.wf, VX.wfArith, VX.wfTrans, VX.wfLogic, VX.wfMod, VX.wfNtt, VX.wfMovk, VMem.wf, VMem.wfLd, CopyIn.wf, CopyOut.wf, SyncOp.wf, AtomOp.wf, VAtom.wf, Exch.wf, MmaOp.wf, sr3, ldst, brOk, siOk, Bool.and_eq_true, Bool.or_eq_true, decide_eq_true_eq, beq_iff_eq, bne_iff_ne, ne_eq, if_true, if_false, Bool.false_eq_true, Bool.not_true, Bool.not_false, Bool.true_or, Bool.false_or, Bool.true_and] at hy
  obtain ⟨W, hW⟩ : ∃ W, W = engWord 39 c (10 * 2 ^ 14 + o.sz * 2 ^ 12 + o.sw * 2 ^ 7 + o.buf * 2 + o.ret) := ⟨_, rfl⟩
  have hW' := hW
  try simp only [engWord, enc29, enc3C, MmaOp.word, VX.word] at hW
  obtain ⟨P, hP⟩ : ∃ P, P = handleX o.h o.off := ⟨_, rfl⟩
  have hP' := hP
  try simp only [handleX, bufX, VX.ctlX] at hP
  obtain ⟨E, hE⟩ : ∃ E, E = o.aoff := ⟨_, rfl⟩
  have hE' := hE
  try simp only [handleX] at hE
  have kW : Holds W 0 [(1, o.ret), (6, o.buf), (5, o.sw), (2, o.sz), (4, 10), (3, c.tq), (3, c.gap), (2, c.tk), (6, 39)] := holds_pack (by simp only [Fitting, and_true]; omega) (by rw [hW]; simp only [pack]; ring)
  have s0 : bits W 26 6 = 39 := kW.2.2.2.2.2.2.2.2.1
  have s1 : bits W 24 2 = c.tk := kW.2.2.2.2.2.2.2.1
  have s2 : bits W 21 3 = c.gap := kW.2.2.2.2.2.2.1
  have s3 : bits W 18 3 = c.tq := kW.2.2.2.2.2.1
  have s4 : bits W 14 4 = 10 := kW.2.2.2.2.1
  have s5 : bits W 12 2 = o.sz := kW.2.2.2.1
  have s6 : bits W 7 5 = o.sw := kW.2.2.1
  have s7 : bits W 1 6 = o.buf := kW.2.1
  have s8 : bits W 0 1 = o.ret := kW.1
  have kP : Holds P 0 [(14, o.off), (12, o.h)] := holds_pack (by simp only [Fitting, and_true]; omega) (by rw [hP]; simp only [pack]; ring)
  have p0 : bits P 14 12 = o.h := kP.2.1
  have p1 : bits P 0 14 = o.off := kP.1
  refine of12 (e := E) (p := P) (w := W) hwf rfl (by rw [hP', hW']; rfl) (by rw [hE', hP', hW']; rfl) (by omega) (by omega) (.of_lt (by omega)) ?_
  right
  have hz : o.uns = 0 := by omega
  simp [extract, moveWord, atomOf, ctlOf, payNear, payFar, s0, s1, s2, s3, s4, s5, s6, s7, s8, p0, p1]
  cases o
  simp_all

theorem RoundTrip.atomMin (c : Ctl) (o : AtomOp) : RoundTrip.Statement (.atomMin c o) := by
  intro hy
  have hwf := hy
  change ((c.wf && o.wf : Bool)) = true at hy
  simp only [Ctl.wf, VX.wf, VX.wfArith, VX.wfTrans, VX.wfLogic, VX.wfMod, VX.wfNtt, VX.wfMovk, VMem.wf, VMem.wfLd, CopyIn.wf, CopyOut.wf, SyncOp.wf, AtomOp.wf, VAtom.wf, Exch.wf, MmaOp.wf, sr3, ldst, brOk, siOk, Bool.and_eq_true, Bool.or_eq_true, decide_eq_true_eq, beq_iff_eq, bne_iff_ne, ne_eq, if_true, if_false, Bool.false_eq_true, Bool.not_true, Bool.not_false, Bool.true_or, Bool.false_or, Bool.true_and] at hy
  obtain ⟨W, hW⟩ : ∃ W, W = engWord 39 c ((4 + 2 * o.uns) * 2 ^ 14 + o.sz * 2 ^ 12 + o.sw * 2 ^ 7 + o.buf * 2 + o.ret) := ⟨_, rfl⟩
  have hW' := hW
  try simp only [engWord, enc29, enc3C, MmaOp.word, VX.word] at hW
  obtain ⟨P, hP⟩ : ∃ P, P = handleX o.h o.off := ⟨_, rfl⟩
  have hP' := hP
  try simp only [handleX, bufX, VX.ctlX] at hP
  obtain ⟨E, hE⟩ : ∃ E, E = o.aoff := ⟨_, rfl⟩
  have hE' := hE
  try simp only [handleX] at hE
  have kW : Holds W 0 [(1, o.ret), (6, o.buf), (5, o.sw), (2, o.sz), (4, 4 + 2 * o.uns), (3, c.tq), (3, c.gap), (2, c.tk), (6, 39)] := holds_pack (by simp only [Fitting, and_true]; omega) (by rw [hW]; simp only [pack]; ring)
  have s0 : bits W 26 6 = 39 := kW.2.2.2.2.2.2.2.2.1
  have s1 : bits W 24 2 = c.tk := kW.2.2.2.2.2.2.2.1
  have s2 : bits W 21 3 = c.gap := kW.2.2.2.2.2.2.1
  have s3 : bits W 18 3 = c.tq := kW.2.2.2.2.2.1
  have s4 : bits W 14 4 = 4 + 2 * o.uns := kW.2.2.2.2.1
  have s5 : bits W 12 2 = o.sz := kW.2.2.2.1
  have s6 : bits W 7 5 = o.sw := kW.2.2.1
  have s7 : bits W 1 6 = o.buf := kW.2.1
  have s8 : bits W 0 1 = o.ret := kW.1
  have kP : Holds P 0 [(14, o.off), (12, o.h)] := holds_pack (by simp only [Fitting, and_true]; omega) (by rw [hP]; simp only [pack]; ring)
  have p0 : bits P 14 12 = o.h := kP.2.1
  have p1 : bits P 0 14 = o.off := kP.1
  refine of12 (e := E) (p := P) (w := W) hwf rfl (by rw [hP', hW']; rfl) (by rw [hE', hP', hW']; rfl) (by omega) (by omega) (.of_lt (by omega)) ?_
  right
  have hu : o.uns = 0 ∨ o.uns = 1 := by omega
  rcases hu with hu | hu
  · simp only [hu] at s4
    simp [extract, moveWord, atomOf, ctlOf, payNear, payFar, s0, s1, s2, s3, s4, s5, s6, s7, s8, p0, p1]
    cases o
    simp_all
  · simp only [hu] at s4
    simp [extract, moveWord, atomOf, ctlOf, payNear, payFar, s0, s1, s2, s3, s4, s5, s6, s7, s8, p0, p1]
    cases o
    simp_all

theorem RoundTrip.atomMax (c : Ctl) (o : AtomOp) : RoundTrip.Statement (.atomMax c o) := by
  intro hy
  have hwf := hy
  change ((c.wf && o.wf : Bool)) = true at hy
  simp only [Ctl.wf, VX.wf, VX.wfArith, VX.wfTrans, VX.wfLogic, VX.wfMod, VX.wfNtt, VX.wfMovk, VMem.wf, VMem.wfLd, CopyIn.wf, CopyOut.wf, SyncOp.wf, AtomOp.wf, VAtom.wf, Exch.wf, MmaOp.wf, sr3, ldst, brOk, siOk, Bool.and_eq_true, Bool.or_eq_true, decide_eq_true_eq, beq_iff_eq, bne_iff_ne, ne_eq, if_true, if_false, Bool.false_eq_true, Bool.not_true, Bool.not_false, Bool.true_or, Bool.false_or, Bool.true_and] at hy
  obtain ⟨W, hW⟩ : ∃ W, W = engWord 39 c ((5 + 2 * o.uns) * 2 ^ 14 + o.sz * 2 ^ 12 + o.sw * 2 ^ 7 + o.buf * 2 + o.ret) := ⟨_, rfl⟩
  have hW' := hW
  try simp only [engWord, enc29, enc3C, MmaOp.word, VX.word] at hW
  obtain ⟨P, hP⟩ : ∃ P, P = handleX o.h o.off := ⟨_, rfl⟩
  have hP' := hP
  try simp only [handleX, bufX, VX.ctlX] at hP
  obtain ⟨E, hE⟩ : ∃ E, E = o.aoff := ⟨_, rfl⟩
  have hE' := hE
  try simp only [handleX] at hE
  have kW : Holds W 0 [(1, o.ret), (6, o.buf), (5, o.sw), (2, o.sz), (4, 5 + 2 * o.uns), (3, c.tq), (3, c.gap), (2, c.tk), (6, 39)] := holds_pack (by simp only [Fitting, and_true]; omega) (by rw [hW]; simp only [pack]; ring)
  have s0 : bits W 26 6 = 39 := kW.2.2.2.2.2.2.2.2.1
  have s1 : bits W 24 2 = c.tk := kW.2.2.2.2.2.2.2.1
  have s2 : bits W 21 3 = c.gap := kW.2.2.2.2.2.2.1
  have s3 : bits W 18 3 = c.tq := kW.2.2.2.2.2.1
  have s4 : bits W 14 4 = 5 + 2 * o.uns := kW.2.2.2.2.1
  have s5 : bits W 12 2 = o.sz := kW.2.2.2.1
  have s6 : bits W 7 5 = o.sw := kW.2.2.1
  have s7 : bits W 1 6 = o.buf := kW.2.1
  have s8 : bits W 0 1 = o.ret := kW.1
  have kP : Holds P 0 [(14, o.off), (12, o.h)] := holds_pack (by simp only [Fitting, and_true]; omega) (by rw [hP]; simp only [pack]; ring)
  have p0 : bits P 14 12 = o.h := kP.2.1
  have p1 : bits P 0 14 = o.off := kP.1
  refine of12 (e := E) (p := P) (w := W) hwf rfl (by rw [hP', hW']; rfl) (by rw [hE', hP', hW']; rfl) (by omega) (by omega) (.of_lt (by omega)) ?_
  right
  have hu : o.uns = 0 ∨ o.uns = 1 := by omega
  rcases hu with hu | hu
  · simp only [hu] at s4
    simp [extract, moveWord, atomOf, ctlOf, payNear, payFar, s0, s1, s2, s3, s4, s5, s6, s7, s8, p0, p1]
    cases o
    simp_all
  · simp only [hu] at s4
    simp [extract, moveWord, atomOf, ctlOf, payNear, payFar, s0, s1, s2, s3, s4, s5, s6, s7, s8, p0, p1]
    cases o
    simp_all

theorem RoundTrip.vaor (c : Ctl) (o : VAtom) : RoundTrip.Statement (.vaor c o) := by
  intro hy
  have hwf := hy
  change ((c.wf && o.wf && (o.ty == 0x0B || o.ty == 0x0D || o.ty == 0x0F || o.ty == 0x11) : Bool)) = true at hy
  simp only [Ctl.wf, VX.wf, VX.wfArith, VX.wfTrans, VX.wfLogic, VX.wfMod, VX.wfNtt, VX.wfMovk, VMem.wf, VMem.wfLd, CopyIn.wf, CopyOut.wf, SyncOp.wf, AtomOp.wf, VAtom.wf, Exch.wf, MmaOp.wf, sr3, ldst, brOk, siOk, Bool.and_eq_true, Bool.or_eq_true, decide_eq_true_eq, beq_iff_eq, bne_iff_ne, ne_eq, if_true, if_false, Bool.false_eq_true, Bool.not_true, Bool.not_false, Bool.true_or, Bool.false_or, Bool.true_and] at hy
  obtain ⟨W, hW⟩ : ∃ W, W = engWord 40 c (0 * 2 ^ 16 + o.sw * 2 ^ 11 + o.buf * 2 ^ 5) := ⟨_, rfl⟩
  have hW' := hW
  try simp only [engWord, enc29, enc3C, MmaOp.word, VX.word] at hW
  obtain ⟨P, hP⟩ : ∃ P, P = o.h * 2 ^ 14 + o.nl1 * 2 ^ 7 + o.ty * 2 ^ 2 := ⟨_, rfl⟩
  have hP' := hP
  try simp only [handleX, bufX, VX.ctlX] at hP
  obtain ⟨E, hE⟩ : ∃ E, E = o.ioff * 2 ^ 13 + o.eoff := ⟨_, rfl⟩
  have hE' := hE
  try simp only [handleX] at hE
  have kW : Holds W 0 [(5, 0), (6, o.buf), (5, o.sw), (2, 0), (3, c.tq), (3, c.gap), (2, c.tk), (6, 40)] := holds_pack (by simp only [Fitting, and_true]; omega) (by rw [hW]; simp only [pack]; ring)
  have s0 : bits W 26 6 = 40 := kW.2.2.2.2.2.2.2.1
  have s1 : bits W 24 2 = c.tk := kW.2.2.2.2.2.2.1
  have s2 : bits W 21 3 = c.gap := kW.2.2.2.2.2.1
  have s3 : bits W 18 3 = c.tq := kW.2.2.2.2.1
  have s4 : bits W 16 2 = 0 := kW.2.2.2.1
  have s5 : bits W 11 5 = o.sw := kW.2.2.1
  have s6 : bits W 5 6 = o.buf := kW.2.1
  have kP : Holds P 0 [(2, 0), (5, o.ty), (7, o.nl1), (12, o.h)] := holds_pack (by simp only [Fitting, and_true]; omega) (by rw [hP]; simp only [pack]; ring)
  have p0 : bits P 14 12 = o.h := kP.2.2.2.1
  have p1 : bits P 7 7 = o.nl1 := kP.2.2.1
  have p2 : bits P 2 5 = o.ty := kP.2.1
  have kE : Holds E 0 [(13, o.eoff), (13, o.ioff)] := holds_pack (by simp only [Fitting, and_true]; omega) (by rw [hE]; simp only [pack]; ring)
  have e0 : bits E 13 13 = o.ioff := kE.2.1
  have e1 : bits E 0 13 = o.eoff := kE.1
  refine of2 (e := E) (p := P) (w := W) hwf rfl rfl (by rw [hE', hP', hW']; rfl) (by omega) (by omega) (.of_lt (by omega)) ?_
  simp [extract, moveWord, vatomOf, ctlOf, payNear, payFar, s0, s1, s2, s3, s4, s5, s6, p0, p1, p2, e0, e1]

theorem RoundTrip.vaadd (c : Ctl) (o : VAtom) : RoundTrip.Statement (.vaadd c o) := by
  intro hy
  have hwf := hy
  change ((c.wf && o.wf && (o.ty == 0 || (0x0E ≤ o.ty && o.ty ≤ 0x11)) : Bool)) = true at hy
  simp only [Ctl.wf, VX.wf, VX.wfArith, VX.wfTrans, VX.wfLogic, VX.wfMod, VX.wfNtt, VX.wfMovk, VMem.wf, VMem.wfLd, CopyIn.wf, CopyOut.wf, SyncOp.wf, AtomOp.wf, VAtom.wf, Exch.wf, MmaOp.wf, sr3, ldst, brOk, siOk, Bool.and_eq_true, Bool.or_eq_true, decide_eq_true_eq, beq_iff_eq, bne_iff_ne, ne_eq, if_true, if_false, Bool.false_eq_true, Bool.not_true, Bool.not_false, Bool.true_or, Bool.false_or, Bool.true_and] at hy
  obtain ⟨W, hW⟩ : ∃ W, W = engWord 40 c (1 * 2 ^ 16 + o.sw * 2 ^ 11 + o.buf * 2 ^ 5) := ⟨_, rfl⟩
  have hW' := hW
  try simp only [engWord, enc29, enc3C, MmaOp.word, VX.word] at hW
  obtain ⟨P, hP⟩ : ∃ P, P = o.h * 2 ^ 14 + o.nl1 * 2 ^ 7 + o.ty * 2 ^ 2 := ⟨_, rfl⟩
  have hP' := hP
  try simp only [handleX, bufX, VX.ctlX] at hP
  obtain ⟨E, hE⟩ : ∃ E, E = o.ioff * 2 ^ 13 + o.eoff := ⟨_, rfl⟩
  have hE' := hE
  try simp only [handleX] at hE
  have kW : Holds W 0 [(5, 0), (6, o.buf), (5, o.sw), (2, 1), (3, c.tq), (3, c.gap), (2, c.tk), (6, 40)] := holds_pack (by simp only [Fitting, and_true]; omega) (by rw [hW]; simp only [pack]; ring)
  have s0 : bits W 26 6 = 40 := kW.2.2.2.2.2.2.2.1
  have s1 : bits W 24 2 = c.tk := kW.2.2.2.2.2.2.1
  have s2 : bits W 21 3 = c.gap := kW.2.2.2.2.2.1
  have s3 : bits W 18 3 = c.tq := kW.2.2.2.2.1
  have s4 : bits W 16 2 = 1 := kW.2.2.2.1
  have s5 : bits W 11 5 = o.sw := kW.2.2.1
  have s6 : bits W 5 6 = o.buf := kW.2.1
  have kP : Holds P 0 [(2, 0), (5, o.ty), (7, o.nl1), (12, o.h)] := holds_pack (by simp only [Fitting, and_true]; omega) (by rw [hP]; simp only [pack]; ring)
  have p0 : bits P 14 12 = o.h := kP.2.2.2.1
  have p1 : bits P 7 7 = o.nl1 := kP.2.2.1
  have p2 : bits P 2 5 = o.ty := kP.2.1
  have kE : Holds E 0 [(13, o.eoff), (13, o.ioff)] := holds_pack (by simp only [Fitting, and_true]; omega) (by rw [hE]; simp only [pack]; ring)
  have e0 : bits E 13 13 = o.ioff := kE.2.1
  have e1 : bits E 0 13 = o.eoff := kE.1
  refine of2 (e := E) (p := P) (w := W) hwf rfl rfl (by rw [hE', hP', hW']; rfl) (by omega) (by omega) (.of_lt (by omega)) ?_
  simp [extract, moveWord, vatomOf, ctlOf, payNear, payFar, s0, s1, s2, s3, s4, s5, s6, p0, p1, p2, e0, e1]

theorem RoundTrip.vamax (c : Ctl) (o : VAtom) : RoundTrip.Statement (.vamax c o) := by
  intro hy
  have hwf := hy
  change ((c.wf && o.wf && (0x0E ≤ o.ty && o.ty ≤ 0x11) : Bool)) = true at hy
  simp only [Ctl.wf, VX.wf, VX.wfArith, VX.wfTrans, VX.wfLogic, VX.wfMod, VX.wfNtt, VX.wfMovk, VMem.wf, VMem.wfLd, CopyIn.wf, CopyOut.wf, SyncOp.wf, AtomOp.wf, VAtom.wf, Exch.wf, MmaOp.wf, sr3, ldst, brOk, siOk, Bool.and_eq_true, Bool.or_eq_true, decide_eq_true_eq, beq_iff_eq, bne_iff_ne, ne_eq, if_true, if_false, Bool.false_eq_true, Bool.not_true, Bool.not_false, Bool.true_or, Bool.false_or, Bool.true_and] at hy
  obtain ⟨W, hW⟩ : ∃ W, W = engWord 40 c (2 * 2 ^ 16 + o.sw * 2 ^ 11 + o.buf * 2 ^ 5) := ⟨_, rfl⟩
  have hW' := hW
  try simp only [engWord, enc29, enc3C, MmaOp.word, VX.word] at hW
  obtain ⟨P, hP⟩ : ∃ P, P = o.h * 2 ^ 14 + o.nl1 * 2 ^ 7 + o.ty * 2 ^ 2 := ⟨_, rfl⟩
  have hP' := hP
  try simp only [handleX, bufX, VX.ctlX] at hP
  obtain ⟨E, hE⟩ : ∃ E, E = o.ioff * 2 ^ 13 + o.eoff := ⟨_, rfl⟩
  have hE' := hE
  try simp only [handleX] at hE
  have kW : Holds W 0 [(5, 0), (6, o.buf), (5, o.sw), (2, 2), (3, c.tq), (3, c.gap), (2, c.tk), (6, 40)] := holds_pack (by simp only [Fitting, and_true]; omega) (by rw [hW]; simp only [pack]; ring)
  have s0 : bits W 26 6 = 40 := kW.2.2.2.2.2.2.2.1
  have s1 : bits W 24 2 = c.tk := kW.2.2.2.2.2.2.1
  have s2 : bits W 21 3 = c.gap := kW.2.2.2.2.2.1
  have s3 : bits W 18 3 = c.tq := kW.2.2.2.2.1
  have s4 : bits W 16 2 = 2 := kW.2.2.2.1
  have s5 : bits W 11 5 = o.sw := kW.2.2.1
  have s6 : bits W 5 6 = o.buf := kW.2.1
  have kP : Holds P 0 [(2, 0), (5, o.ty), (7, o.nl1), (12, o.h)] := holds_pack (by simp only [Fitting, and_true]; omega) (by rw [hP]; simp only [pack]; ring)
  have p0 : bits P 14 12 = o.h := kP.2.2.2.1
  have p1 : bits P 7 7 = o.nl1 := kP.2.2.1
  have p2 : bits P 2 5 = o.ty := kP.2.1
  have kE : Holds E 0 [(13, o.eoff), (13, o.ioff)] := holds_pack (by simp only [Fitting, and_true]; omega) (by rw [hE]; simp only [pack]; ring)
  have e0 : bits E 13 13 = o.ioff := kE.2.1
  have e1 : bits E 0 13 = o.eoff := kE.1
  refine of2 (e := E) (p := P) (w := W) hwf rfl rfl (by rw [hE', hP', hW']; rfl) (by omega) (by omega) (.of_lt (by omega)) ?_
  simp [extract, moveWord, vatomOf, ctlOf, payNear, payFar, s0, s1, s2, s3, s4, s5, s6, p0, p1, p2, e0, e1]

theorem RoundTrip.bind (c : Ctl) (buf sw h : Nat) : RoundTrip.Statement (.bind c buf sw h) := by
  intro hy
  have hwf := hy
  change ((c.wf && buf < 64 && sw < 32 && h < 4096 : Bool)) = true at hy
  simp only [Ctl.wf, VX.wf, VX.wfArith, VX.wfTrans, VX.wfLogic, VX.wfMod, VX.wfNtt, VX.wfMovk, VMem.wf, VMem.wfLd, CopyIn.wf, CopyOut.wf, SyncOp.wf, AtomOp.wf, VAtom.wf, Exch.wf, MmaOp.wf, sr3, ldst, brOk, siOk, Bool.and_eq_true, Bool.or_eq_true, decide_eq_true_eq, beq_iff_eq, bne_iff_ne, ne_eq, if_true, if_false, Bool.false_eq_true, Bool.not_true, Bool.not_false, Bool.true_or, Bool.false_or, Bool.true_and] at hy
  obtain ⟨W, hW⟩ : ∃ W, W = enc29 c 0 buf sw 0 := ⟨_, rfl⟩
  have hW' := hW
  try simp only [engWord, enc29, enc3C, MmaOp.word, VX.word] at hW
  obtain ⟨P, hP⟩ : ∃ P, P = handleX h 0 := ⟨_, rfl⟩
  have hP' := hP
  try simp only [handleX, bufX, VX.ctlX] at hP
  have kW : Holds W 0 [(4, 0), (5, sw), (6, buf), (3, 0), (3, c.tq), (3, c.gap), (2, c.tk), (6, 41)] := holds_pack (by simp only [Fitting, and_true]; omega) (by rw [hW]; simp only [pack]; ring)
  have s0 : bits W 26 6 = 41 := kW.2.2.2.2.2.2.2.1
  have s1 : bits W 24 2 = c.tk := kW.2.2.2.2.2.2.1
  have s2 : bits W 21 3 = c.gap := kW.2.2.2.2.2.1
  have s3 : bits W 18 3 = c.tq := kW.2.2.2.2.1
  have s4 : bits W 15 3 = 0 := kW.2.2.2.1
  have s5 : bits W 9 6 = buf := kW.2.2.1
  have s6 : bits W 4 5 = sw := kW.2.1
  have p0 : bits P 14 12 = h := by rw [bits]; omega
  refine of1 (p := P) (w := W) hwf rfl (by rw [hP', hW']; rfl) (by omega) (.of_lt (by omega)) ?_
  simp [extract, moveWord, ctlOf, payNear, payFar, s0, s1, s2, s3, s4, s5, s6, p0]

theorem RoundTrip.unbind (c : Ctl) (buf sw : Nat) : RoundTrip.Statement (.unbind c buf sw) := by
  intro hy
  have hwf := hy
  change ((c.wf && buf < 64 && sw < 32 : Bool)) = true at hy
  simp only [Ctl.wf, VX.wf, VX.wfArith, VX.wfTrans, VX.wfLogic, VX.wfMod, VX.wfNtt, VX.wfMovk, VMem.wf, VMem.wfLd, CopyIn.wf, CopyOut.wf, SyncOp.wf, AtomOp.wf, VAtom.wf, Exch.wf, MmaOp.wf, sr3, ldst, brOk, siOk, Bool.and_eq_true, Bool.or_eq_true, decide_eq_true_eq, beq_iff_eq, bne_iff_ne, ne_eq, if_true, if_false, Bool.false_eq_true, Bool.not_true, Bool.not_false, Bool.true_or, Bool.false_or, Bool.true_and] at hy
  obtain ⟨W, hW⟩ : ∃ W, W = enc29 c 1 buf sw 0 := ⟨_, rfl⟩
  have hW' := hW
  try simp only [engWord, enc29, enc3C, MmaOp.word, VX.word] at hW
  have kW : Holds W 0 [(4, 0), (5, sw), (6, buf), (3, 1), (3, c.tq), (3, c.gap), (2, c.tk), (6, 41)] := holds_pack (by simp only [Fitting, and_true]; omega) (by rw [hW]; simp only [pack]; ring)
  have s0 : bits W 26 6 = 41 := kW.2.2.2.2.2.2.2.1
  have s1 : bits W 24 2 = c.tk := kW.2.2.2.2.2.2.1
  have s2 : bits W 21 3 = c.gap := kW.2.2.2.2.2.1
  have s3 : bits W 18 3 = c.tq := kW.2.2.2.2.1
  have s4 : bits W 15 3 = 1 := kW.2.2.2.1
  have s5 : bits W 9 6 = buf := kW.2.2.1
  have s6 : bits W 4 5 = sw := kW.2.1
  refine of0 (w := W) hwf (by rw [hW']; rfl) (.of_lt (by omega)) ?_
  simp [extract, moveWord, ctlOf, payNear, payFar, s0, s1, s2, s3, s4, s5, s6]

theorem RoundTrip.bstateEmpty (c : Ctl) (buf : Nat) : RoundTrip.Statement (.bstateEmpty c buf) := by
  intro hy
  have hwf := hy
  change ((c.wf && buf < 64 : Bool)) = true at hy
  simp only [Ctl.wf, VX.wf, VX.wfArith, VX.wfTrans, VX.wfLogic, VX.wfMod, VX.wfNtt, VX.wfMovk, VMem.wf, VMem.wfLd, CopyIn.wf, CopyOut.wf, SyncOp.wf, AtomOp.wf, VAtom.wf, Exch.wf, MmaOp.wf, sr3, ldst, brOk, siOk, Bool.and_eq_true, Bool.or_eq_true, decide_eq_true_eq, beq_iff_eq, bne_iff_ne, ne_eq, if_true, if_false, Bool.false_eq_true, Bool.not_true, Bool.not_false, Bool.true_or, Bool.false_or, Bool.true_and] at hy
  obtain ⟨W, hW⟩ : ∃ W, W = enc29 c 2 buf 0 0 := ⟨_, rfl⟩
  have hW' := hW
  try simp only [engWord, enc29, enc3C, MmaOp.word, VX.word] at hW
  have kW : Holds W 0 [(1, 0), (8, 0), (6, buf), (3, 2), (3, c.tq), (3, c.gap), (2, c.tk), (6, 41)] := holds_pack (by simp only [Fitting, and_true]; omega) (by rw [hW]; simp only [pack]; ring)
  have s0 : bits W 26 6 = 41 := kW.2.2.2.2.2.2.2.1
  have s1 : bits W 24 2 = c.tk := kW.2.2.2.2.2.2.1
  have s2 : bits W 21 3 = c.gap := kW.2.2.2.2.2.1
  have s3 : bits W 18 3 = c.tq := kW.2.2.2.2.1
  have s4 : bits W 15 3 = 2 := kW.2.2.2.1
  have s5 : bits W 9 6 = buf := kW.2.2.1
  have s6 : bits W 0 1 = 0 := kW.1
  refine of0 (w := W) hwf (by rw [hW']; rfl) (.of_lt (by omega)) ?_
  simp [extract, moveWord, ctlOf, payNear, payFar, s0, s1, s2, s3, s4, s5, s6]

theorem RoundTrip.bstateFull (c : Ctl) (buf : Nat) : RoundTrip.Statement (.bstateFull c buf) := by
  intro hy
  have hwf := hy
  change ((c.wf && buf < 64 : Bool)) = true at hy
  simp only [Ctl.wf, VX.wf, VX.wfArith, VX.wfTrans, VX.wfLogic, VX.wfMod, VX.wfNtt, VX.wfMovk, VMem.wf, VMem.wfLd, CopyIn.wf, CopyOut.wf, SyncOp.wf, AtomOp.wf, VAtom.wf, Exch.wf, MmaOp.wf, sr3, ldst, brOk, siOk, Bool.and_eq_true, Bool.or_eq_true, decide_eq_true_eq, beq_iff_eq, bne_iff_ne, ne_eq, if_true, if_false, Bool.false_eq_true, Bool.not_true, Bool.not_false, Bool.true_or, Bool.false_or, Bool.true_and] at hy
  obtain ⟨W, hW⟩ : ∃ W, W = enc29 c 2 buf 0 1 := ⟨_, rfl⟩
  have hW' := hW
  try simp only [engWord, enc29, enc3C, MmaOp.word, VX.word] at hW
  have kW : Holds W 0 [(1, 1), (8, 0), (6, buf), (3, 2), (3, c.tq), (3, c.gap), (2, c.tk), (6, 41)] := holds_pack (by simp only [Fitting, and_true]; omega) (by rw [hW]; simp only [pack]; ring)
  have s0 : bits W 26 6 = 41 := kW.2.2.2.2.2.2.2.1
  have s1 : bits W 24 2 = c.tk := kW.2.2.2.2.2.2.1
  have s2 : bits W 21 3 = c.gap := kW.2.2.2.2.2.1
  have s3 : bits W 18 3 = c.tq := kW.2.2.2.2.1
  have s4 : bits W 15 3 = 2 := kW.2.2.2.1
  have s5 : bits W 9 6 = buf := kW.2.2.1
  have s6 : bits W 0 1 = 1 := kW.1
  refine of0 (w := W) hwf (by rw [hW']; rfl) (.of_lt (by omega)) ?_
  simp [extract, moveWord, ctlOf, payNear, payFar, s0, s1, s2, s3, s4, s5, s6]

theorem RoundTrip.lrflush (c : Ctl) (sw h : Nat) : RoundTrip.Statement (.lrflush c sw h) := by
  intro hy
  have hwf := hy
  change ((c.wf && sw < 32 && h < 4096 : Bool)) = true at hy
  simp only [Ctl.wf, VX.wf, VX.wfArith, VX.wfTrans, VX.wfLogic, VX.wfMod, VX.wfNtt, VX.wfMovk, VMem.wf, VMem.wfLd, CopyIn.wf, CopyOut.wf, SyncOp.wf, AtomOp.wf, VAtom.wf, Exch.wf, MmaOp.wf, sr3, ldst, brOk, siOk, Bool.and_eq_true, Bool.or_eq_true, decide_eq_true_eq, beq_iff_eq, bne_iff_ne, ne_eq, if_true, if_false, Bool.false_eq_true, Bool.not_true, Bool.not_false, Bool.true_or, Bool.false_or, Bool.true_and] at hy
  obtain ⟨W, hW⟩ : ∃ W, W = enc29 c 3 0 sw 0 := ⟨_, rfl⟩
  have hW' := hW
  try simp only [engWord, enc29, enc3C, MmaOp.word, VX.word] at hW
  obtain ⟨P, hP⟩ : ∃ P, P = handleX h 0 := ⟨_, rfl⟩
  have hP' := hP
  try simp only [handleX, bufX, VX.ctlX] at hP
  have kW : Holds W 0 [(1, 0), (3, 0), (5, sw), (6, 0), (3, 3), (3, c.tq), (3, c.gap), (2, c.tk), (6, 41)] := holds_pack (by simp only [Fitting, and_true]; omega) (by rw [hW]; simp only [pack]; ring)
  have s0 : bits W 26 6 = 41 := kW.2.2.2.2.2.2.2.2.1
  have s1 : bits W 24 2 = c.tk := kW.2.2.2.2.2.2.2.1
  have s2 : bits W 21 3 = c.gap := kW.2.2.2.2.2.2.1
  have s3 : bits W 18 3 = c.tq := kW.2.2.2.2.2.1
  have s4 : bits W 15 3 = 3 := kW.2.2.2.2.1
  have s5 : bits W 4 5 = sw := kW.2.2.1
  have s6 : bits W 0 1 = 0 := kW.1
  have p0 : bits P 14 12 = h := by rw [bits]; omega
  refine of1 (p := P) (w := W) hwf rfl (by rw [hP', hW']; rfl) (by omega) (.of_lt (by omega)) ?_
  simp [extract, moveWord, ctlOf, payNear, payFar, s0, s1, s2, s3, s4, s5, s6, p0]

theorem RoundTrip.lrflushFetch (c : Ctl) (sw h : Nat) : RoundTrip.Statement (.lrflushFetch c sw h) := by
  intro hy
  have hwf := hy
  change ((c.wf && sw < 32 && h < 4096 : Bool)) = true at hy
  simp only [Ctl.wf, VX.wf, VX.wfArith, VX.wfTrans, VX.wfLogic, VX.wfMod, VX.wfNtt, VX.wfMovk, VMem.wf, VMem.wfLd, CopyIn.wf, CopyOut.wf, SyncOp.wf, AtomOp.wf, VAtom.wf, Exch.wf, MmaOp.wf, sr3, ldst, brOk, siOk, Bool.and_eq_true, Bool.or_eq_true, decide_eq_true_eq, beq_iff_eq, bne_iff_ne, ne_eq, if_true, if_false, Bool.false_eq_true, Bool.not_true, Bool.not_false, Bool.true_or, Bool.false_or, Bool.true_and] at hy
  obtain ⟨W, hW⟩ : ∃ W, W = enc29 c 3 0 sw 1 := ⟨_, rfl⟩
  have hW' := hW
  try simp only [engWord, enc29, enc3C, MmaOp.word, VX.word] at hW
  obtain ⟨P, hP⟩ : ∃ P, P = handleX h 0 := ⟨_, rfl⟩
  have hP' := hP
  try simp only [handleX, bufX, VX.ctlX] at hP
  have kW : Holds W 0 [(1, 1), (3, 0), (5, sw), (6, 0), (3, 3), (3, c.tq), (3, c.gap), (2, c.tk), (6, 41)] := holds_pack (by simp only [Fitting, and_true]; omega) (by rw [hW]; simp only [pack]; ring)
  have s0 : bits W 26 6 = 41 := kW.2.2.2.2.2.2.2.2.1
  have s1 : bits W 24 2 = c.tk := kW.2.2.2.2.2.2.2.1
  have s2 : bits W 21 3 = c.gap := kW.2.2.2.2.2.2.1
  have s3 : bits W 18 3 = c.tq := kW.2.2.2.2.2.1
  have s4 : bits W 15 3 = 3 := kW.2.2.2.2.1
  have s5 : bits W 4 5 = sw := kW.2.2.1
  have s6 : bits W 0 1 = 1 := kW.1
  have p0 : bits P 14 12 = h := by rw [bits]; omega
  refine of1 (p := P) (w := W) hwf rfl (by rw [hP', hW']; rfl) (by omega) (.of_lt (by omega)) ?_
  simp [extract, moveWord, ctlOf, payNear, payFar, s0, s1, s2, s3, s4, s5, s6, p0]

theorem RoundTrip.bindso (c : Ctl) (sw scope hr ho : Nat) : RoundTrip.Statement (.bindso c sw scope hr ho) := by
  intro hy
  have hwf := hy
  change ((c.wf && sw < 32 && 1 ≤ scope && scope ≤ 6 && hr < 4096 && ho < 4096 : Bool)) = true at hy
  simp only [Ctl.wf, VX.wf, VX.wfArith, VX.wfTrans, VX.wfLogic, VX.wfMod, VX.wfNtt, VX.wfMovk, VMem.wf, VMem.wfLd, CopyIn.wf, CopyOut.wf, SyncOp.wf, AtomOp.wf, VAtom.wf, Exch.wf, MmaOp.wf, sr3, ldst, brOk, siOk, Bool.and_eq_true, Bool.or_eq_true, decide_eq_true_eq, beq_iff_eq, bne_iff_ne, ne_eq, if_true, if_false, Bool.false_eq_true, Bool.not_true, Bool.not_false, Bool.true_or, Bool.false_or, Bool.true_and] at hy
  obtain ⟨W, hW⟩ : ∃ W, W = enc29 c 4 0 sw scope := ⟨_, rfl⟩
  have hW' := hW
  try simp only [engWord, enc29, enc3C, MmaOp.word, VX.word] at hW
  obtain ⟨P, hP⟩ : ∃ P, P = handleX hr 0 := ⟨_, rfl⟩
  have hP' := hP
  try simp only [handleX, bufX, VX.ctlX] at hP
  obtain ⟨E, hE⟩ : ∃ E, E = handleX ho 0 := ⟨_, rfl⟩
  have hE' := hE
  try simp only [handleX] at hE
  have kW : Holds W 0 [(3, scope), (1, 0), (5, sw), (6, 0), (3, 4), (3, c.tq), (3, c.gap), (2, c.tk), (6, 41)] := holds_pack (by simp only [Fitting, and_true]; omega) (by rw [hW]; simp only [pack]; ring)
  have s0 : bits W 26 6 = 41 := kW.2.2.2.2.2.2.2.2.1
  have s1 : bits W 24 2 = c.tk := kW.2.2.2.2.2.2.2.1
  have s2 : bits W 21 3 = c.gap := kW.2.2.2.2.2.2.1
  have s3 : bits W 18 3 = c.tq := kW.2.2.2.2.2.1
  have s4 : bits W 15 3 = 4 := kW.2.2.2.2.1
  have s5 : bits W 4 5 = sw := kW.2.2.1
  have s6 : bits W 0 3 = scope := kW.1
  have p0 : bits P 14 12 = hr := by rw [bits]; omega
  have e0 : bits E 14 12 = ho := by rw [bits]; omega
  refine of2 (e := E) (p := P) (w := W) hwf rfl rfl (by rw [hE', hP', hW']; rfl) (by omega) (by omega) (.of_lt (by omega)) ?_
  simp [extract, moveWord, ctlOf, payNear, payFar, show scope ≠ 0 by omega, s0, s1, s2, s3, s4, s5, s6, p0, e0]

theorem RoundTrip.bindsoRemove (c : Ctl) (sw hr ho : Nat) : RoundTrip.Statement (.bindsoRemove c sw hr ho) := by
  intro hy
  have hwf := hy
  change ((c.wf && sw < 32 && hr < 4096 && ho < 4096 : Bool)) = true at hy
  simp only [Ctl.wf, VX.wf, VX.wfArith, VX.wfTrans, VX.wfLogic, VX.wfMod, VX.wfNtt, VX.wfMovk, VMem.wf, VMem.wfLd, CopyIn.wf, CopyOut.wf, SyncOp.wf, AtomOp.wf, VAtom.wf, Exch.wf, MmaOp.wf, sr3, ldst, brOk, siOk, Bool.and_eq_true, Bool.or_eq_true, decide_eq_true_eq, beq_iff_eq, bne_iff_ne, ne_eq, if_true, if_false, Bool.false_eq_true, Bool.not_true, Bool.not_false, Bool.true_or, Bool.false_or, Bool.true_and] at hy
  obtain ⟨W, hW⟩ : ∃ W, W = enc29 c 4 0 sw 0 := ⟨_, rfl⟩
  have hW' := hW
  try simp only [engWord, enc29, enc3C, MmaOp.word, VX.word] at hW
  obtain ⟨P, hP⟩ : ∃ P, P = handleX hr 0 := ⟨_, rfl⟩
  have hP' := hP
  try simp only [handleX, bufX, VX.ctlX] at hP
  obtain ⟨E, hE⟩ : ∃ E, E = handleX ho 0 := ⟨_, rfl⟩
  have hE' := hE
  try simp only [handleX] at hE
  have kW : Holds W 0 [(3, 0), (1, 0), (5, sw), (6, 0), (3, 4), (3, c.tq), (3, c.gap), (2, c.tk), (6, 41)] := holds_pack (by simp only [Fitting, and_true]; omega) (by rw [hW]; simp only [pack]; ring)
  have s0 : bits W 26 6 = 41 := kW.2.2.2.2.2.2.2.2.1
  have s1 : bits W 24 2 = c.tk := kW.2.2.2.2.2.2.2.1
  have s2 : bits W 21 3 = c.gap := kW.2.2.2.2.2.2.1
  have s3 : bits W 18 3 = c.tq := kW.2.2.2.2.2.1
  have s4 : bits W 15 3 = 4 := kW.2.2.2.2.1
  have s5 : bits W 4 5 = sw := kW.2.2.1
  have s6 : bits W 0 3 = 0 := kW.1
  have p0 : bits P 14 12 = hr := by rw [bits]; omega
  have e0 : bits E 14 12 = ho := by rw [bits]; omega
  refine of2 (e := E) (p := P) (w := W) hwf rfl rfl (by rw [hE', hP', hW']; rfl) (by omega) (by omega) (.of_lt (by omega)) ?_
  simp [extract, moveWord, ctlOf, payNear, payFar, s0, s1, s2, s3, s4, s5, s6, p0, e0]

theorem RoundTrip.qfenceCico (c : Ctl) (scope emask : Nat) : RoundTrip.Statement (.qfenceCico c scope emask) := by
  intro hy
  have hwf := hy
  change ((c.wf && 1 ≤ scope && scope ≤ 6 && emask < 64 && (emask / 2 % 2 == 1 || emask / 4 % 2 == 1) : Bool)) = true at hy
  simp only [Ctl.wf, VX.wf, VX.wfArith, VX.wfTrans, VX.wfLogic, VX.wfMod, VX.wfNtt, VX.wfMovk, VMem.wf, VMem.wfLd, CopyIn.wf, CopyOut.wf, SyncOp.wf, AtomOp.wf, VAtom.wf, Exch.wf, MmaOp.wf, sr3, ldst, brOk, siOk, Bool.and_eq_true, Bool.or_eq_true, decide_eq_true_eq, beq_iff_eq, bne_iff_ne, ne_eq, if_true, if_false, Bool.false_eq_true, Bool.not_true, Bool.not_false, Bool.true_or, Bool.false_or, Bool.true_and] at hy
  obtain ⟨W, hW⟩ : ∃ W, W = engWord 42 c (emask * 2 ^ 12 + scope * 2 ^ 9) := ⟨_, rfl⟩
  have hW' := hW
  try simp only [engWord, enc29, enc3C, MmaOp.word, VX.word] at hW
  have kW : Holds W 0 [(9, 0), (3, scope), (6, emask), (3, c.tq), (3, c.gap), (2, c.tk), (6, 42)] := holds_pack (by simp only [Fitting, and_true]; omega) (by rw [hW]; simp only [pack]; ring)
  have s0 : bits W 26 6 = 42 := kW.2.2.2.2.2.2.1
  have s1 : bits W 24 2 = c.tk := kW.2.2.2.2.2.1
  have s2 : bits W 21 3 = c.gap := kW.2.2.2.2.1
  have s3 : bits W 18 3 = c.tq := kW.2.2.2.1
  have s4 : bits W 12 6 = emask := kW.2.2.1
  have s5 : bits W 9 3 = scope := kW.2.1
  refine of0 (w := W) hwf (by rw [hW']; rfl) (.of_lt (by omega)) ?_
  simp [extract, moveWord, ctlOf, payNear, payFar, s0, s1, s2, s3, s4, s5]

theorem RoundTrip.send (c : Ctl) (o : Exch) : RoundTrip.Statement (.send c o) := by
  intro hy
  have hwf := hy
  change ((c.wf && o.wf false : Bool)) = true at hy
  simp only [Ctl.wf, VX.wf, VX.wfArith, VX.wfTrans, VX.wfLogic, VX.wfMod, VX.wfNtt, VX.wfMovk, VMem.wf, VMem.wfLd, CopyIn.wf, CopyOut.wf, SyncOp.wf, AtomOp.wf, VAtom.wf, Exch.wf, MmaOp.wf, sr3, ldst, brOk, siOk, Bool.and_eq_true, Bool.or_eq_true, decide_eq_true_eq, beq_iff_eq, bne_iff_ne, ne_eq, if_true, if_false, Bool.false_eq_true, Bool.not_true, Bool.not_false, Bool.true_or, Bool.false_or, Bool.true_and] at hy
  have f1 := field_lt 7 o.dx
  have f2 := field_lt 6 o.dy
  have x1 := sext_field (n := 7) (by omega) o.dx (by omega) (by omega)
  have x2 := sext_field (n := 6) (by omega) o.dy (by omega) (by omega)
  obtain ⟨W, hW⟩ : ∃ W, W = engWord 43 c (0 * 2 ^ 17 + o.buf * 2 ^ 11 + o.n1 * 2 ^ 6 + o.off % 2 ^ 6) := ⟨_, rfl⟩
  have hW' := hW
  try simp only [engWord, enc29, enc3C, MmaOp.word, VX.word] at hW
  obtain ⟨P, hP⟩ : ∃ P, P = field 7 o.dx * 2 ^ 19 + field 6 o.dy * 2 ^ 13 + o.off / 2 ^ 6 := ⟨_, rfl⟩
  have hP' := hP
  try simp only [handleX, bufX, VX.ctlX] at hP
  have kW : Holds W 0 [(6, o.off % 2 ^ 6), (5, o.n1), (6, o.buf), (1, 0), (3, c.tq), (3, c.gap), (2, c.tk), (6, 43)] := holds_pack (by simp only [Fitting, and_true]; omega) (by rw [hW]; simp only [pack]; ring)
  have s0 : bits W 26 6 = 43 := kW.2.2.2.2.2.2.2.1
  have s1 : bits W 24 2 = c.tk := kW.2.2.2.2.2.2.1
  have s2 : bits W 21 3 = c.gap := kW.2.2.2.2.2.1
  have s3 : bits W 18 3 = c.tq := kW.2.2.2.2.1
  have s4 : bits W 17 1 = 0 := kW.2.2.2.1
  have s5 : bits W 11 6 = o.buf := kW.2.2.1
  have s6 : bits W 6 5 = o.n1 := kW.2.1
  have s7 : bits W 0 6 = o.off % 2 ^ 6 := kW.1
  have kP : Holds P 0 [(13, o.off / 2 ^ 6), (6, field 6 o.dy), (7, field 7 o.dx)] := holds_pack (by simp only [Fitting, and_true]; omega) (by rw [hP]; simp only [pack]; ring)
  have p0 : bits P 19 7 = field 7 o.dx := kP.2.2.1
  have p1 : bits P 13 6 = field 6 o.dy := kP.2.1
  have p2 : bits P 0 13 = o.off / 2 ^ 6 := kP.1
  refine of1 (p := P) (w := W) hwf rfl (by rw [hP', hW']; rfl) (by omega) (.of_lt (by omega)) ?_
  simp [extract, moveWord, exchOf, ctlOf, payNear, payFar, x1, x2, show o.off / 64 * 64 + o.off % 64 = o.off by omega, s0, s1, s2, s3, s4, s5, s6, s7, p0, p1, p2]

theorem RoundTrip.recv (c : Ctl) (o : Exch) : RoundTrip.Statement (.recv c o) := by
  intro hy
  have hwf := hy
  change ((c.wf && o.wf false : Bool)) = true at hy
  simp only [Ctl.wf, VX.wf, VX.wfArith, VX.wfTrans, VX.wfLogic, VX.wfMod, VX.wfNtt, VX.wfMovk, VMem.wf, VMem.wfLd, CopyIn.wf, CopyOut.wf, SyncOp.wf, AtomOp.wf, VAtom.wf, Exch.wf, MmaOp.wf, sr3, ldst, brOk, siOk, Bool.and_eq_true, Bool.or_eq_true, decide_eq_true_eq, beq_iff_eq, bne_iff_ne, ne_eq, if_true, if_false, Bool.false_eq_true, Bool.not_true, Bool.not_false, Bool.true_or, Bool.false_or, Bool.true_and] at hy
  have f1 := field_lt 7 o.dx
  have f2 := field_lt 6 o.dy
  have x1 := sext_field (n := 7) (by omega) o.dx (by omega) (by omega)
  have x2 := sext_field (n := 6) (by omega) o.dy (by omega) (by omega)
  obtain ⟨W, hW⟩ : ∃ W, W = engWord 43 c (1 * 2 ^ 17 + o.buf * 2 ^ 11 + o.n1 * 2 ^ 6 + o.off % 2 ^ 6) := ⟨_, rfl⟩
  have hW' := hW
  try simp only [engWord, enc29, enc3C, MmaOp.word, VX.word] at hW
  obtain ⟨P, hP⟩ : ∃ P, P = field 7 o.dx * 2 ^ 19 + field 6 o.dy * 2 ^ 13 + o.off / 2 ^ 6 := ⟨_, rfl⟩
  have hP' := hP
  try simp only [handleX, bufX, VX.ctlX] at hP
  have kW : Holds W 0 [(6, o.off % 2 ^ 6), (5, o.n1), (6, o.buf), (1, 1), (3, c.tq), (3, c.gap), (2, c.tk), (6, 43)] := holds_pack (by simp only [Fitting, and_true]; omega) (by rw [hW]; simp only [pack]; ring)
  have s0 : bits W 26 6 = 43 := kW.2.2.2.2.2.2.2.1
  have s1 : bits W 24 2 = c.tk := kW.2.2.2.2.2.2.1
  have s2 : bits W 21 3 = c.gap := kW.2.2.2.2.2.1
  have s3 : bits W 18 3 = c.tq := kW.2.2.2.2.1
  have s4 : bits W 17 1 = 1 := kW.2.2.2.1
  have s5 : bits W 11 6 = o.buf := kW.2.2.1
  have s6 : bits W 6 5 = o.n1 := kW.2.1
  have s7 : bits W 0 6 = o.off % 2 ^ 6 := kW.1
  have kP : Holds P 0 [(13, o.off / 2 ^ 6), (6, field 6 o.dy), (7, field 7 o.dx)] := holds_pack (by simp only [Fitting, and_true]; omega) (by rw [hP]; simp only [pack]; ring)
  have p0 : bits P 19 7 = field 7 o.dx := kP.2.2.1
  have p1 : bits P 13 6 = field 6 o.dy := kP.2.1
  have p2 : bits P 0 13 = o.off / 2 ^ 6 := kP.1
  refine of1 (p := P) (w := W) hwf rfl (by rw [hP', hW']; rfl) (by omega) (.of_lt (by omega)) ?_
  simp [extract, moveWord, exchOf, ctlOf, payNear, payFar, x1, x2, show o.off / 64 * 64 + o.off % 64 = o.off by omega, s0, s1, s2, s3, s4, s5, s6, s7, p0, p1, p2]

theorem RoundTrip.sendk (c : Ctl) (o : Exch) : RoundTrip.Statement (.sendk c o) := by
  intro hy
  have hwf := hy
  change ((c.wf && o.wf true : Bool)) = true at hy
  simp only [Ctl.wf, VX.wf, VX.wfArith, VX.wfTrans, VX.wfLogic, VX.wfMod, VX.wfNtt, VX.wfMovk, VMem.wf, VMem.wfLd, CopyIn.wf, CopyOut.wf, SyncOp.wf, AtomOp.wf, VAtom.wf, Exch.wf, MmaOp.wf, sr3, ldst, brOk, siOk, Bool.and_eq_true, Bool.or_eq_true, decide_eq_true_eq, beq_iff_eq, bne_iff_ne, ne_eq, if_true, if_false, Bool.false_eq_true, Bool.not_true, Bool.not_false, Bool.true_or, Bool.false_or, Bool.true_and] at hy
  have f1 := field_lt 7 o.dx
  have f2 := field_lt 6 o.dy
  have x1 := sext_field (n := 7) (by omega) o.dx (by omega) (by omega)
  have x2 := sext_field (n := 6) (by omega) o.dy (by omega) (by omega)
  obtain ⟨W, hW⟩ : ∃ W, W = engWord 44 c (0 * 2 ^ 17 + o.buf * 2 ^ 11 + o.n1 * 2 ^ 3) := ⟨_, rfl⟩
  have hW' := hW
  try simp only [engWord, enc29, enc3C, MmaOp.word, VX.word] at hW
  obtain ⟨P, hP⟩ : ∃ P, P = field 7 o.dx * 2 ^ 19 + field 6 o.dy * 2 ^ 13 + o.off := ⟨_, rfl⟩
  have hP' := hP
  try simp only [handleX, bufX, VX.ctlX] at hP
  have kW : Holds W 0 [(3, 0), (8, o.n1), (6, o.buf), (1, 0), (3, c.tq), (3, c.gap), (2, c.tk), (6, 44)] := holds_pack (by simp only [Fitting, and_true]; omega) (by rw [hW]; simp only [pack]; ring)
  have s0 : bits W 26 6 = 44 := kW.2.2.2.2.2.2.2.1
  have s1 : bits W 24 2 = c.tk := kW.2.2.2.2.2.2.1
  have s2 : bits W 21 3 = c.gap := kW.2.2.2.2.2.1
  have s3 : bits W 18 3 = c.tq := kW.2.2.2.2.1
  have s4 : bits W 17 1 = 0 := kW.2.2.2.1
  have s5 : bits W 11 6 = o.buf := kW.2.2.1
  have s6 : bits W 3 8 = o.n1 := kW.2.1
  have kP : Holds P 0 [(13, o.off), (6, field 6 o.dy), (7, field 7 o.dx)] := holds_pack (by simp only [Fitting, and_true]; omega) (by rw [hP]; simp only [pack]; ring)
  have p0 : bits P 19 7 = field 7 o.dx := kP.2.2.1
  have p1 : bits P 13 6 = field 6 o.dy := kP.2.1
  have p2 : bits P 0 13 = o.off := kP.1
  refine of1 (p := P) (w := W) hwf rfl (by rw [hP', hW']; rfl) (by omega) (.of_lt (by omega)) ?_
  simp [extract, moveWord, exchOf, ctlOf, payNear, payFar, x1, x2, s0, s1, s2, s3, s4, s5, s6, p0, p1, p2]

theorem RoundTrip.recvk (c : Ctl) (o : Exch) : RoundTrip.Statement (.recvk c o) := by
  intro hy
  have hwf := hy
  change ((c.wf && o.wf true : Bool)) = true at hy
  simp only [Ctl.wf, VX.wf, VX.wfArith, VX.wfTrans, VX.wfLogic, VX.wfMod, VX.wfNtt, VX.wfMovk, VMem.wf, VMem.wfLd, CopyIn.wf, CopyOut.wf, SyncOp.wf, AtomOp.wf, VAtom.wf, Exch.wf, MmaOp.wf, sr3, ldst, brOk, siOk, Bool.and_eq_true, Bool.or_eq_true, decide_eq_true_eq, beq_iff_eq, bne_iff_ne, ne_eq, if_true, if_false, Bool.false_eq_true, Bool.not_true, Bool.not_false, Bool.true_or, Bool.false_or, Bool.true_and] at hy
  have f1 := field_lt 7 o.dx
  have f2 := field_lt 6 o.dy
  have x1 := sext_field (n := 7) (by omega) o.dx (by omega) (by omega)
  have x2 := sext_field (n := 6) (by omega) o.dy (by omega) (by omega)
  obtain ⟨W, hW⟩ : ∃ W, W = engWord 44 c (1 * 2 ^ 17 + o.buf * 2 ^ 11 + o.n1 * 2 ^ 3) := ⟨_, rfl⟩
  have hW' := hW
  try simp only [engWord, enc29, enc3C, MmaOp.word, VX.word] at hW
  obtain ⟨P, hP⟩ : ∃ P, P = field 7 o.dx * 2 ^ 19 + field 6 o.dy * 2 ^ 13 + o.off := ⟨_, rfl⟩
  have hP' := hP
  try simp only [handleX, bufX, VX.ctlX] at hP
  have kW : Holds W 0 [(3, 0), (8, o.n1), (6, o.buf), (1, 1), (3, c.tq), (3, c.gap), (2, c.tk), (6, 44)] := holds_pack (by simp only [Fitting, and_true]; omega) (by rw [hW]; simp only [pack]; ring)
  have s0 : bits W 26 6 = 44 := kW.2.2.2.2.2.2.2.1
  have s1 : bits W 24 2 = c.tk := kW.2.2.2.2.2.2.1
  have s2 : bits W 21 3 = c.gap := kW.2.2.2.2.2.1
  have s3 : bits W 18 3 = c.tq := kW.2.2.2.2.1
  have s4 : bits W 17 1 = 1 := kW.2.2.2.1
  have s5 : bits W 11 6 = o.buf := kW.2.2.1
  have s6 : bits W 3 8 = o.n1 := kW.2.1
  have kP : Holds P 0 [(13, o.off), (6, field 6 o.dy), (7, field 7 o.dx)] := holds_pack (by simp only [Fitting, and_true]; omega) (by rw [hP]; simp only [pack]; ring)
  have p0 : bits P 19 7 = field 7 o.dx := kP.2.2.1
  have p1 : bits P 13 6 = field 6 o.dy := kP.2.1
  have p2 : bits P 0 13 = o.off := kP.1
  refine of1 (p := P) (w := W) hwf rfl (by rw [hP', hW']; rfl) (by omega) (.of_lt (by omega)) ?_
  simp [extract, moveWord, exchOf, ctlOf, payNear, payFar, x1, x2, s0, s1, s2, s3, s4, s5, s6, p0, p1, p2]

theorem RoundTrip.mma (c : Ctl) (o : MmaOp) : RoundTrip.Statement (.mma c o) := by
  intro hy
  have hwf := hy
  change ((c.wf && o.wf && o.q == 0 && o.md == 0 && o.sw == 0 : Bool)) = true at hy
  simp only [Ctl.wf, VX.wf, VX.wfArith, VX.wfTrans, VX.wfLogic, VX.wfMod, VX.wfNtt, VX.wfMovk, VMem.wf, VMem.wfLd, CopyIn.wf, CopyOut.wf, SyncOp.wf, AtomOp.wf, VAtom.wf, Exch.wf, MmaOp.wf, sr3, ldst, brOk, siOk, Bool.and_eq_true, Bool.or_eq_true, decide_eq_true_eq, beq_iff_eq, bne_iff_ne, ne_eq, if_true, if_false, Bool.false_eq_true, Bool.not_true, Bool.not_false, Bool.true_or, Bool.false_or, Bool.true_and] at hy
  obtain ⟨W, hW⟩ : ∃ W, W = o.word 0 c := ⟨_, rfl⟩
  have hW' := hW
  try simp only [engWord, enc29, enc3C, MmaOp.word, VX.word] at hW
  obtain ⟨P, hP⟩ : ∃ P, P = o.a * 2 ^ 13 + o.b := ⟨_, rfl⟩
  have hP' := hP
  try simp only [handleX, bufX, VX.ctlX] at hP
  have kW : Holds W 0 [(2, o.part), (3, o.q), (1, o.clr), (4, o.f), (3, o.acc), (3, o.shp), (2, 0), (3, c.tq), (3, c.gap), (2, c.tk), (6, 58)] := holds_pack (by simp only [Fitting, and_true]; omega) (by rw [hW]; simp only [pack]; ring)
  have s0 : bits W 26 6 = 58 := kW.2.2.2.2.2.2.2.2.2.2.1
  have s1 : bits W 24 2 = c.tk := kW.2.2.2.2.2.2.2.2.2.1
  have s2 : bits W 21 3 = c.gap := kW.2.2.2.2.2.2.2.2.1
  have s3 : bits W 18 3 = c.tq := kW.2.2.2.2.2.2.2.1
  have s4 : bits W 16 2 = 0 := kW.2.2.2.2.2.2.1
  have s5 : bits W 13 3 = o.shp := kW.2.2.2.2.2.1
  have s6 : bits W 10 3 = o.acc := kW.2.2.2.2.1
  have s7 : bits W 6 4 = o.f := kW.2.2.2.1
  have s8 : bits W 5 1 = o.clr := kW.2.2.1
  have s9 : bits W 2 3 = o.q := kW.2.1
  have s10 : bits W 0 2 = o.part := kW.1
  have kP : Holds P 0 [(13, o.b), (13, o.a)] := holds_pack (by simp only [Fitting, and_true]; omega) (by rw [hP]; simp only [pack]; ring)
  have p0 : bits P 13 13 = o.a := kP.2.1
  have p1 : bits P 0 13 = o.b := kP.1
  refine of1 (p := P) (w := W) hwf rfl (by rw [hP', hW']; rfl) (by omega) (.of_lt (by omega)) ?_
  simp [extract, mxWord, mmaOf, ctlOf, payNear, payFar, show bits 0 13 13 = o.md by rw [bits]; omega, show bits 0 8 5 = o.sw by rw [bits]; omega, s0, s1, s2, s3, s4, s5, s6, s7, s8, s9, s10, p0, p1]

theorem RoundTrip.mmul (c : Ctl) (o : MmaOp) : RoundTrip.Statement (.mmul c o) := by
  intro hy
  have hwf := hy
  change ((c.wf && o.wf && o.md == 0 && o.sw == 0 : Bool)) = true at hy
  simp only [Ctl.wf, VX.wf, VX.wfArith, VX.wfTrans, VX.wfLogic, VX.wfMod, VX.wfNtt, VX.wfMovk, VMem.wf, VMem.wfLd, CopyIn.wf, CopyOut.wf, SyncOp.wf, AtomOp.wf, VAtom.wf, Exch.wf, MmaOp.wf, sr3, ldst, brOk, siOk, Bool.and_eq_true, Bool.or_eq_true, decide_eq_true_eq, beq_iff_eq, bne_iff_ne, ne_eq, if_true, if_false, Bool.false_eq_true, Bool.not_true, Bool.not_false, Bool.true_or, Bool.false_or, Bool.true_and] at hy
  obtain ⟨W, hW⟩ : ∃ W, W = o.word 2 c := ⟨_, rfl⟩
  have hW' := hW
  try simp only [engWord, enc29, enc3C, MmaOp.word, VX.word] at hW
  obtain ⟨P, hP⟩ : ∃ P, P = o.a * 2 ^ 13 + o.b := ⟨_, rfl⟩
  have hP' := hP
  try simp only [handleX, bufX, VX.ctlX] at hP
  have kW : Holds W 0 [(2, o.part), (3, o.q), (1, o.clr), (4, o.f), (3, o.acc), (3, o.shp), (2, 2), (3, c.tq), (3, c.gap), (2, c.tk), (6, 58)] := holds_pack (by simp only [Fitting, and_true]; omega) (by rw [hW]; simp only [pack]; ring)
  have s0 : bits W 26 6 = 58 := kW.2.2.2.2.2.2.2.2.2.2.1
  have s1 : bits W 24 2 = c.tk := kW.2.2.2.2.2.2.2.2.2.1
  have s2 : bits W 21 3 = c.gap := kW.2.2.2.2.2.2.2.2.1
  have s3 : bits W 18 3 = c.tq := kW.2.2.2.2.2.2.2.1
  have s4 : bits W 16 2 = 2 := kW.2.2.2.2.2.2.1
  have s5 : bits W 13 3 = o.shp := kW.2.2.2.2.2.1
  have s6 : bits W 10 3 = o.acc := kW.2.2.2.2.1
  have s7 : bits W 6 4 = o.f := kW.2.2.2.1
  have s8 : bits W 5 1 = o.clr := kW.2.2.1
  have s9 : bits W 2 3 = o.q := kW.2.1
  have s10 : bits W 0 2 = o.part := kW.1
  have kP : Holds P 0 [(13, o.b), (13, o.a)] := holds_pack (by simp only [Fitting, and_true]; omega) (by rw [hP]; simp only [pack]; ring)
  have p0 : bits P 13 13 = o.a := kP.2.1
  have p1 : bits P 0 13 = o.b := kP.1
  refine of1 (p := P) (w := W) hwf rfl (by rw [hP', hW']; rfl) (by omega) (.of_lt (by omega)) ?_
  simp [extract, mxWord, mmaOf, ctlOf, payNear, payFar, show bits 0 13 13 = o.md by rw [bits]; omega, show bits 0 8 5 = o.sw by rw [bits]; omega, s0, s1, s2, s3, s4, s5, s6, s7, s8, s9, s10, p0, p1]

theorem RoundTrip.mmas (c : Ctl) (o : MmaOp) : RoundTrip.Statement (.mmas c o) := by
  intro hy
  have hwf := hy
  change ((c.wf && o.wf && o.q == 0 : Bool)) = true at hy
  simp only [Ctl.wf, VX.wf, VX.wfArith, VX.wfTrans, VX.wfLogic, VX.wfMod, VX.wfNtt, VX.wfMovk, VMem.wf, VMem.wfLd, CopyIn.wf, CopyOut.wf, SyncOp.wf, AtomOp.wf, VAtom.wf, Exch.wf, MmaOp.wf, sr3, ldst, brOk, siOk, Bool.and_eq_true, Bool.or_eq_true, decide_eq_true_eq, beq_iff_eq, bne_iff_ne, ne_eq, if_true, if_false, Bool.false_eq_true, Bool.not_true, Bool.not_false, Bool.true_or, Bool.false_or, Bool.true_and] at hy
  obtain ⟨W, hW⟩ : ∃ W, W = o.word 1 c := ⟨_, rfl⟩
  have hW' := hW
  try simp only [engWord, enc29, enc3C, MmaOp.word, VX.word] at hW
  obtain ⟨P, hP⟩ : ∃ P, P = o.a * 2 ^ 13 + o.b := ⟨_, rfl⟩
  have hP' := hP
  try simp only [handleX, bufX, VX.ctlX] at hP
  obtain ⟨E, hE⟩ : ∃ E, E = o.md * 2 ^ 13 + o.sw * 2 ^ 8 := ⟨_, rfl⟩
  have hE' := hE
  try simp only [handleX] at hE
  have kW : Holds W 0 [(2, o.part), (3, o.q), (1, o.clr), (4, o.f), (3, o.acc), (3, o.shp), (2, 1), (3, c.tq), (3, c.gap), (2, c.tk), (6, 58)] := holds_pack (by simp only [Fitting, and_true]; omega) (by rw [hW]; simp only [pack]; ring)
  have s0 : bits W 26 6 = 58 := kW.2.2.2.2.2.2.2.2.2.2.1
  have s1 : bits W 24 2 = c.tk := kW.2.2.2.2.2.2.2.2.2.1
  have s2 : bits W 21 3 = c.gap := kW.2.2.2.2.2.2.2.2.1
  have s3 : bits W 18 3 = c.tq := kW.2.2.2.2.2.2.2.1
  have s4 : bits W 16 2 = 1 := kW.2.2.2.2.2.2.1
  have s5 : bits W 13 3 = o.shp := kW.2.2.2.2.2.1
  have s6 : bits W 10 3 = o.acc := kW.2.2.2.2.1
  have s7 : bits W 6 4 = o.f := kW.2.2.2.1
  have s8 : bits W 5 1 = o.clr := kW.2.2.1
  have s9 : bits W 2 3 = o.q := kW.2.1
  have s10 : bits W 0 2 = o.part := kW.1
  have kP : Holds P 0 [(13, o.b), (13, o.a)] := holds_pack (by simp only [Fitting, and_true]; omega) (by rw [hP]; simp only [pack]; ring)
  have p0 : bits P 13 13 = o.a := kP.2.1
  have p1 : bits P 0 13 = o.b := kP.1
  have kE : Holds E 0 [(8, 0), (5, o.sw), (13, o.md)] := holds_pack (by simp only [Fitting, and_true]; omega) (by rw [hE]; simp only [pack]; ring)
  have e0 : bits E 13 13 = o.md := kE.2.2.1
  have e1 : bits E 8 5 = o.sw := kE.2.1
  refine of2 (e := E) (p := P) (w := W) hwf rfl rfl (by rw [hE', hP', hW']; rfl) (by omega) (by omega) (.of_lt (by omega)) ?_
  simp [extract, mxWord, mmaOf, ctlOf, payNear, payFar, s0, s1, s2, s3, s4, s5, s6, s7, s8, s9, s10, p0, p1, e0, e1]

theorem RoundTrip.rkmac (c : Ctl) (o : RkOp) : RoundTrip.Statement (.rkmac c o) := by
  intro hy
  have hwf := hy
  change ((c.wf && o.wt ≤ 2 && o.acc < 4 && o.nr1 < 256 && o.clr < 2 && o.row < 128 && o.slot < 16 && o.k1 < 256 && o.sw < 32 && o.buf < 64 && o.off < 2 ^ 16 : Bool)) = true at hy
  simp only [Ctl.wf, VX.wf, VX.wfArith, VX.wfTrans, VX.wfLogic, VX.wfMod, VX.wfNtt, VX.wfMovk, VMem.wf, VMem.wfLd, CopyIn.wf, CopyOut.wf, SyncOp.wf, AtomOp.wf, VAtom.wf, Exch.wf, MmaOp.wf, sr3, ldst, brOk, siOk, Bool.and_eq_true, Bool.or_eq_true, decide_eq_true_eq, beq_iff_eq, bne_iff_ne, ne_eq, if_true, if_false, Bool.false_eq_true, Bool.not_true, Bool.not_false, Bool.true_or, Bool.false_or, Bool.true_and] at hy
  obtain ⟨W, hW⟩ : ∃ W, W = engWord 58 c (3 * 2 ^ 16 + o.wt * 2 ^ 13 + o.acc * 2 ^ 10 + o.nr1 * 2 ^ 2 + o.clr) := ⟨_, rfl⟩
  have hW' := hW
  try simp only [engWord, enc29, enc3C, MmaOp.word, VX.word] at hW
  obtain ⟨P, hP⟩ : ∃ P, P = o.row * 2 ^ 19 + o.slot * 2 ^ 15 + o.k1 * 2 ^ 7 + o.sw * 2 ^ 2 := ⟨_, rfl⟩
  have hP' := hP
  try simp only [handleX, bufX, VX.ctlX] at hP
  obtain ⟨E, hE⟩ : ∃ E, E = o.buf * 2 ^ 20 + o.off * 2 ^ 4 := ⟨_, rfl⟩
  have hE' := hE
  try simp only [handleX] at hE
  have kW : Holds W 0 [(1, o.clr), (1, 0), (8, o.nr1), (3, o.acc), (3, o.wt), (2, 3), (3, c.tq), (3, c.gap), (2, c.tk), (6, 58)] := holds_pack (by simp only [Fitting, and_true]; omega) (by rw [hW]; simp only [pack]; ring)
  have s0 : bits W 26 6 = 58 := kW.2.2.2.2.2.2.2.2.2.1
  have s1 : bits W 24 2 = c.tk := kW.2.2.2.2.2.2.2.2.1
  have s2 : bits W 21 3 = c.gap := kW.2.2.2.2.2.2.2.1
  have s3 : bits W 18 3 = c.tq := kW.2.2.2.2.2.2.1
  have s4 : bits W 16 2 = 3 := kW.2.2.2.2.2.1
  have s5 : bits W 13 3 = o.wt := kW.2.2.2.2.1
  have s6 : bits W 10 3 = o.acc := kW.2.2.2.1
  have s7 : bits W 2 8 = o.nr1 := kW.2.2.1
  have s8 : bits W 0 1 = o.clr := kW.1
  have kP : Holds P 0 [(2, 0), (5, o.sw), (8, o.k1), (4, o.slot), (7, o.row)] := holds_pack (by simp only [Fitting, and_true]; omega) (by rw [hP]; simp only [pack]; ring)
  have p0 : bits P 19 7 = o.row := kP.2.2.2.2.1
  have p1 : bits P 15 4 = o.slot := kP.2.2.2.1
  have p2 : bits P 7 8 = o.k1 := kP.2.2.1
  have p3 : bits P 2 5 = o.sw := kP.2.1
  have kE : Holds E 0 [(4, 0), (16, o.off), (6, o.buf)] := holds_pack (by simp only [Fitting, and_true]; omega) (by rw [hE]; simp only [pack]; ring)
  have e0 : bits E 20 6 = o.buf := kE.2.2.1
  have e1 : bits E 4 16 = o.off := kE.2.1
  refine of2 (e := E) (p := P) (w := W) hwf rfl rfl (by rw [hE', hP', hW']; rfl) (by omega) (by omega) (.of_lt (by omega)) ?_
  simp [extract, mxWord, ctlOf, payNear, payFar, s0, s1, s2, s3, s4, s5, s6, s7, s8, p0, p1, p2, p3, e0, e1]

theorem RoundTrip.oclaim (c : Ctl) (slot : Nat) : RoundTrip.Statement (.oclaim c slot) := by
  intro hy
  have hwf := hy
  change ((c.wf && slot < 16 : Bool)) = true at hy
  simp only [Ctl.wf, VX.wf, VX.wfArith, VX.wfTrans, VX.wfLogic, VX.wfMod, VX.wfNtt, VX.wfMovk, VMem.wf, VMem.wfLd, CopyIn.wf, CopyOut.wf, SyncOp.wf, AtomOp.wf, VAtom.wf, Exch.wf, MmaOp.wf, sr3, ldst, brOk, siOk, Bool.and_eq_true, Bool.or_eq_true, decide_eq_true_eq, beq_iff_eq, bne_iff_ne, ne_eq, if_true, if_false, Bool.false_eq_true, Bool.not_true, Bool.not_false, Bool.true_or, Bool.false_or, Bool.true_and] at hy
  obtain ⟨W, hW⟩ : ∃ W, W = enc3C c 0 (slot * 2 ^ 10) := ⟨_, rfl⟩
  have hW' := hW
  try simp only [engWord, enc29, enc3C, MmaOp.word, VX.word] at hW
  have kW : Holds W 0 [(10, 0), (4, slot), (4, 0), (3, c.tq), (3, c.gap), (2, c.tk), (6, 60)] := holds_pack (by simp only [Fitting, and_true]; omega) (by rw [hW]; simp only [pack]; ring)
  have s0 : bits W 26 6 = 60 := kW.2.2.2.2.2.2.1
  have s1 : bits W 24 2 = c.tk := kW.2.2.2.2.2.1
  have s2 : bits W 21 3 = c.gap := kW.2.2.2.2.1
  have s3 : bits W 18 3 = c.tq := kW.2.2.2.1
  have s4 : bits W 14 4 = 0 := kW.2.2.1
  have s5 : bits W 10 4 = slot := kW.2.1
  refine of0 (w := W) hwf (by rw [hW']; rfl) (.of_lt (by omega)) ?_
  simp [extract, mxWord, ctlOf, payNear, payFar, s0, s1, s2, s3, s4, s5]

theorem RoundTrip.orelease (c : Ctl) (slot : Nat) : RoundTrip.Statement (.orelease c slot) := by
  intro hy
  have hwf := hy
  change ((c.wf && slot < 16 : Bool)) = true at hy
  simp only [Ctl.wf, VX.wf, VX.wfArith, VX.wfTrans, VX.wfLogic, VX.wfMod, VX.wfNtt, VX.wfMovk, VMem.wf, VMem.wfLd, CopyIn.wf, CopyOut.wf, SyncOp.wf, AtomOp.wf, VAtom.wf, Exch.wf, MmaOp.wf, sr3, ldst, brOk, siOk, Bool.and_eq_true, Bool.or_eq_true, decide_eq_true_eq, beq_iff_eq, bne_iff_ne, ne_eq, if_true, if_false, Bool.false_eq_true, Bool.not_true, Bool.not_false, Bool.true_or, Bool.false_or, Bool.true_and] at hy
  obtain ⟨W, hW⟩ : ∃ W, W = enc3C c 1 (slot * 2 ^ 10) := ⟨_, rfl⟩
  have hW' := hW
  try simp only [engWord, enc29, enc3C, MmaOp.word, VX.word] at hW
  have kW : Holds W 0 [(10, 0), (4, slot), (4, 1), (3, c.tq), (3, c.gap), (2, c.tk), (6, 60)] := holds_pack (by simp only [Fitting, and_true]; omega) (by rw [hW]; simp only [pack]; ring)
  have s0 : bits W 26 6 = 60 := kW.2.2.2.2.2.2.1
  have s1 : bits W 24 2 = c.tk := kW.2.2.2.2.2.1
  have s2 : bits W 21 3 = c.gap := kW.2.2.2.2.1
  have s3 : bits W 18 3 = c.tq := kW.2.2.2.1
  have s4 : bits W 14 4 = 1 := kW.2.2.1
  have s5 : bits W 10 4 = slot := kW.2.1
  refine of0 (w := W) hwf (by rw [hW']; rfl) (.of_lt (by omega)) ?_
  simp [extract, mxWord, ctlOf, payNear, payFar, s0, s1, s2, s3, s4, s5]

theorem RoundTrip.oload (c : Ctl) (slot bfx doff nb1 buf off : Nat) : RoundTrip.Statement (.oload c slot bfx doff nb1 buf off) := by
  intro hy
  have hwf := hy
  change ((c.wf && slot < 16 && bfx < 2 && doff < 512 && nb1 < 512 && buf < 64 && off < 2 ^ 16 : Bool)) = true at hy
  simp only [Ctl.wf, VX.wf, VX.wfArith, VX.wfTrans, VX.wfLogic, VX.wfMod, VX.wfNtt, VX.wfMovk, VMem.wf, VMem.wfLd, CopyIn.wf, CopyOut.wf, SyncOp.wf, AtomOp.wf, VAtom.wf, Exch.wf, MmaOp.wf, sr3, ldst, brOk, siOk, Bool.and_eq_true, Bool.or_eq_true, decide_eq_true_eq, beq_iff_eq, bne_iff_ne, ne_eq, if_true, if_false, Bool.false_eq_true, Bool.not_true, Bool.not_false, Bool.true_or, Bool.false_or, Bool.true_and] at hy
  obtain ⟨W, hW⟩ : ∃ W, W = enc3C c 2 (slot * 2 ^ 10 + bfx * 2 ^ 9) := ⟨_, rfl⟩
  have hW' := hW
  try simp only [engWord, enc29, enc3C, MmaOp.word, VX.word] at hW
  obtain ⟨P, hP⟩ : ∃ P, P = bufX buf off := ⟨_, rfl⟩
  have hP' := hP
  try simp only [handleX, bufX, VX.ctlX] at hP
  obtain ⟨E, hE⟩ : ∃ E, E = doff * 2 ^ 17 + nb1 * 2 ^ 8 := ⟨_, rfl⟩
  have hE' := hE
  try simp only [handleX] at hE
  have kW : Holds W 0 [(9, 0), (1, bfx), (4, slot), (4, 2), (3, c.tq), (3, c.gap), (2, c.tk), (6, 60)] := holds_pack (by simp only [Fitting, and_true]; omega) (by rw [hW]; simp only [pack]; ring)
  have s0 : bits W 26 6 = 60 := kW.2.2.2.2.2.2.2.1
  have s1 : bits W 24 2 = c.tk := kW.2.2.2.2.2.2.1
  have s2 : bits W 21 3 = c.gap := kW.2.2.2.2.2.1
  have s3 : bits W 18 3 = c.tq := kW.2.2.2.2.1
  have s4 : bits W 14 4 = 2 := kW.2.2.2.1
  have s5 : bits W 10 4 = slot := kW.2.2.1
  have s6 : bits W 9 1 = bfx := kW.2.1
  have kP : Holds P 0 [(4, 0), (16, off), (6, buf)] := holds_pack (by simp only [Fitting, and_true]; omega) (by rw [hP]; simp only [pack]; ring)
  have p0 : bits P 20 6 = buf := kP.2.2.1
  have p1 : bits P 4 16 = off := kP.2.1
  have kE : Holds E 0 [(8, 0), (9, nb1), (9, doff)] := holds_pack (by simp only [Fitting, and_true]; omega) (by rw [hE]; simp only [pack]; ring)
  have e0 : bits E 17 9 = doff := kE.2.2.1
  have e1 : bits E 8 9 = nb1 := kE.2.1
  refine of2 (e := E) (p := P) (w := W) hwf rfl rfl (by rw [hE', hP', hW']; rfl) (by omega) (by omega) (.of_lt (by omega)) ?_
  simp [extract, mxWord, ctlOf, payNear, payFar, s0, s1, s2, s3, s4, s5, s6, p0, p1, e0, e1]

theorem RoundTrip.aclr (c : Ctl) (amask : Nat) : RoundTrip.Statement (.aclr c amask) := by
  intro hy
  have hwf := hy
  change ((c.wf && 1 ≤ amask && amask < 16 : Bool)) = true at hy
  simp only [Ctl.wf, VX.wf, VX.wfArith, VX.wfTrans, VX.wfLogic, VX.wfMod, VX.wfNtt, VX.wfMovk, VMem.wf, VMem.wfLd, CopyIn.wf, CopyOut.wf, SyncOp.wf, AtomOp.wf, VAtom.wf, Exch.wf, MmaOp.wf, sr3, ldst, brOk, siOk, Bool.and_eq_true, Bool.or_eq_true, decide_eq_true_eq, beq_iff_eq, bne_iff_ne, ne_eq, if_true, if_false, Bool.false_eq_true, Bool.not_true, Bool.not_false, Bool.true_or, Bool.false_or, Bool.true_and] at hy
  obtain ⟨W, hW⟩ : ∃ W, W = enc3C c 3 (amask * 2 ^ 10) := ⟨_, rfl⟩
  have hW' := hW
  try simp only [engWord, enc29, enc3C, MmaOp.word, VX.word] at hW
  have kW : Holds W 0 [(10, 0), (4, amask), (4, 3), (3, c.tq), (3, c.gap), (2, c.tk), (6, 60)] := holds_pack (by simp only [Fitting, and_true]; omega) (by rw [hW]; simp only [pack]; ring)
  have s0 : bits W 26 6 = 60 := kW.2.2.2.2.2.2.1
  have s1 : bits W 24 2 = c.tk := kW.2.2.2.2.2.1
  have s2 : bits W 21 3 = c.gap := kW.2.2.2.2.1
  have s3 : bits W 18 3 = c.tq := kW.2.2.2.1
  have s4 : bits W 14 4 = 3 := kW.2.2.1
  have s5 : bits W 10 4 = amask := kW.2.1
  refine of0 (w := W) hwf (by rw [hW']; rfl) (.of_lt (by omega)) ?_
  simp [extract, mxWord, ctlOf, payNear, payFar, s0, s1, s2, s3, s4, s5]

theorem RoundTrip.amov (c : Ctl) (ad asrc : Nat) : RoundTrip.Statement (.amov c ad asrc) := by
  intro hy
  have hwf := hy
  change ((c.wf && ad < 4 && asrc < 6 : Bool)) = true at hy
  simp only [Ctl.wf, VX.wf, VX.wfArith, VX.wfTrans, VX.wfLogic, VX.wfMod, VX.wfNtt, VX.wfMovk, VMem.wf, VMem.wfLd, CopyIn.wf, CopyOut.wf, SyncOp.wf, AtomOp.wf, VAtom.wf, Exch.wf, MmaOp.wf, sr3, ldst, brOk, siOk, Bool.and_eq_true, Bool.or_eq_true, decide_eq_true_eq, beq_iff_eq, bne_iff_ne, ne_eq, if_true, if_false, Bool.false_eq_true, Bool.not_true, Bool.not_false, Bool.true_or, Bool.false_or, Bool.true_and] at hy
  obtain ⟨W, hW⟩ : ∃ W, W = enc3C c 4 (ad * 2 ^ 11 + asrc * 2 ^ 8) := ⟨_, rfl⟩
  have hW' := hW
  try simp only [engWord, enc29, enc3C, MmaOp.word, VX.word] at hW
  have kW : Holds W 0 [(6, 0), (2, 0), (3, asrc), (3, ad), (4, 4), (3, c.tq), (3, c.gap), (2, c.tk), (6, 60)] := holds_pack (by simp only [Fitting, and_true]; omega) (by rw [hW]; simp only [pack]; ring)
  have s0 : bits W 26 6 = 60 := kW.2.2.2.2.2.2.2.2.1
  have s1 : bits W 24 2 = c.tk := kW.2.2.2.2.2.2.2.1
  have s2 : bits W 21 3 = c.gap := kW.2.2.2.2.2.2.1
  have s3 : bits W 18 3 = c.tq := kW.2.2.2.2.2.1
  have s4 : bits W 14 4 = 4 := kW.2.2.2.2.1
  have s5 : bits W 11 3 = ad := kW.2.2.2.1
  have s6 : bits W 8 3 = asrc := kW.2.2.1
  have s7 : bits W 6 2 = 0 := kW.2.1
  refine of0 (w := W) hwf (by rw [hW']; rfl) (.of_lt (by omega)) ?_
  simp [extract, mxWord, ctlOf, payNear, payFar, s0, s1, s2, s3, s4, s5, s6, s7]

theorem RoundTrip.amovMerge (c : Ctl) (ad asrc : Nat) : RoundTrip.Statement (.amovMerge c ad asrc) := by
  intro hy
  have hwf := hy
  change ((c.wf && ad < 4 && (asrc == 4 || asrc == 5) : Bool)) = true at hy
  simp only [Ctl.wf, VX.wf, VX.wfArith, VX.wfTrans, VX.wfLogic, VX.wfMod, VX.wfNtt, VX.wfMovk, VMem.wf, VMem.wfLd, CopyIn.wf, CopyOut.wf, SyncOp.wf, AtomOp.wf, VAtom.wf, Exch.wf, MmaOp.wf, sr3, ldst, brOk, siOk, Bool.and_eq_true, Bool.or_eq_true, decide_eq_true_eq, beq_iff_eq, bne_iff_ne, ne_eq, if_true, if_false, Bool.false_eq_true, Bool.not_true, Bool.not_false, Bool.true_or, Bool.false_or, Bool.true_and] at hy
  obtain ⟨W, hW⟩ : ∃ W, W = enc3C c 4 (ad * 2 ^ 11 + asrc * 2 ^ 8 + 2 * 2 ^ 6) := ⟨_, rfl⟩
  have hW' := hW
  try simp only [engWord, enc29, enc3C, MmaOp.word, VX.word] at hW
  have kW : Holds W 0 [(6, 0), (2, 2), (3, asrc), (3, ad), (4, 4), (3, c.tq), (3, c.gap), (2, c.tk), (6, 60)] := holds_pack (by simp only [Fitting, and_true]; omega) (by rw [hW]; simp only [pack]; ring)
  have s0 : bits W 26 6 = 60 := kW.2.2.2.2.2.2.2.2.1
  have s1 : bits W 24 2 = c.tk := kW.2.2.2.2.2.2.2.1
  have s2 : bits W 21 3 = c.gap := kW.2.2.2.2.2.2.1
  have s3 : bits W 18 3 = c.tq := kW.2.2.2.2.2.1
  have s4 : bits W 14 4 = 4 := kW.2.2.2.2.1
  have s5 : bits W 11 3 = ad := kW.2.2.2.1
  have s6 : bits W 8 3 = asrc := kW.2.2.1
  have s7 : bits W 6 2 = 2 := kW.2.1
  refine of0 (w := W) hwf (by rw [hW']; rfl) (.of_lt (by omega)) ?_
  simp [extract, mxWord, ctlOf, payNear, payFar, s0, s1, s2, s3, s4, s5, s6, s7]

theorem RoundTrip.amovAdd (c : Ctl) (ad asrc cls q : Nat) : RoundTrip.Statement (.amovAdd c ad asrc cls q) := by
  intro hy
  have hwf := hy
  change ((c.wf && ad < 4 && asrc < 6 && cls ≤ 2 && q < 8 && (cls == 2 || q == 0) : Bool)) = true at hy
  simp only [Ctl.wf, VX.wf, VX.wfArith, VX.wfTrans, VX.wfLogic, VX.wfMod, VX.wfNtt, VX.wfMovk, VMem.wf, VMem.wfLd, CopyIn.wf, CopyOut.wf, SyncOp.wf, AtomOp.wf, VAtom.wf, Exch.wf, MmaOp.wf, sr3, ldst, brOk, siOk, Bool.and_eq_true, Bool.or_eq_true, decide_eq_true_eq, beq_iff_eq, bne_iff_ne, ne_eq, if_true, if_false, Bool.false_eq_true, Bool.not_true, Bool.not_false, Bool.true_or, Bool.false_or, Bool.true_and] at hy
  obtain ⟨W, hW⟩ : ∃ W, W = enc3C c 4 (ad * 2 ^ 11 + asrc * 2 ^ 8 + 2 ^ 6 + cls * 2 ^ 4 + q * 2) := ⟨_, rfl⟩
  have hW' := hW
  try simp only [engWord, enc29, enc3C, MmaOp.word, VX.word] at hW
  have kW : Holds W 0 [(1, 0), (3, q), (2, cls), (2, 1), (3, asrc), (3, ad), (4, 4), (3, c.tq), (3, c.gap), (2, c.tk), (6, 60)] := holds_pack (by simp only [Fitting, and_true]; omega) (by rw [hW]; simp only [pack]; ring)
  have s0 : bits W 26 6 = 60 := kW.2.2.2.2.2.2.2.2.2.2.1
  have s1 : bits W 24 2 = c.tk := kW.2.2.2.2.2.2.2.2.2.1
  have s2 : bits W 21 3 = c.gap := kW.2.2.2.2.2.2.2.2.1
  have s3 : bits W 18 3 = c.tq := kW.2.2.2.2.2.2.2.1
  have s4 : bits W 14 4 = 4 := kW.2.2.2.2.2.2.1
  have s5 : bits W 11 3 = ad := kW.2.2.2.2.2.1
  have s6 : bits W 8 3 = asrc := kW.2.2.2.2.1
  have s7 : bits W 6 2 = 1 := kW.2.2.2.1
  have s8 : bits W 4 2 = cls := kW.2.2.1
  have s9 : bits W 1 3 = q := kW.2.1
  refine of0 (w := W) hwf (by rw [hW']; rfl) (.of_lt (by omega)) ?_
  simp [extract, mxWord, ctlOf, payNear, payFar, s0, s1, s2, s3, s4, s5, s6, s7, s8, s9]

theorem RoundTrip.aout (c : Ctl) (acc f nrows1 rbase buf off : Nat) : RoundTrip.Statement (.aout c acc f nrows1 rbase buf off) := by
  intro hy
  have hwf := hy
  change ((c.wf && acc < 6 && f < 16 && nrows1 < 128 && rbase < 128 && buf < 64 && off < 2 ^ 16 : Bool)) = true at hy
  simp only [Ctl.wf, VX.wf, VX.wfArith, VX.wfTrans, VX.wfLogic, VX.wfMod, VX.wfNtt, VX.wfMovk, VMem.wf, VMem.wfLd, CopyIn.wf, CopyOut.wf, SyncOp.wf, AtomOp.wf, VAtom.wf, Exch.wf, MmaOp.wf, sr3, ldst, brOk, siOk, Bool.and_eq_true, Bool.or_eq_true, decide_eq_true_eq, beq_iff_eq, bne_iff_ne, ne_eq, if_true, if_false, Bool.false_eq_true, Bool.not_true, Bool.not_false, Bool.true_or, Bool.false_or, Bool.true_and] at hy
  obtain ⟨W, hW⟩ : ∃ W, W = enc3C c 5 (acc * 2 ^ 11 + f * 2 ^ 7 + nrows1) := ⟨_, rfl⟩
  have hW' := hW
  try simp only [engWord, enc29, enc3C, MmaOp.word, VX.word] at hW
  obtain ⟨P, hP⟩ : ∃ P, P = bufX buf off := ⟨_, rfl⟩
  have hP' := hP
  try simp only [handleX, bufX, VX.ctlX] at hP
  obtain ⟨E, hE⟩ : ∃ E, E = rbase * 2 ^ 19 := ⟨_, rfl⟩
  have hE' := hE
  try simp only [handleX] at hE
  have kW : Holds W 0 [(7, nrows1), (4, f), (3, acc), (4, 5), (3, c.tq), (3, c.gap), (2, c.tk), (6, 60)] := holds_pack (by simp only [Fitting, and_true]; omega) (by rw [hW]; simp only [pack]; ring)
  have s0 : bits W 26 6 = 60 := kW.2.2.2.2.2.2.2.1
  have s1 : bits W 24 2 = c.tk := kW.2.2.2.2.2.2.1
  have s2 : bits W 21 3 = c.gap := kW.2.2.2.2.2.1
  have s3 : bits W 18 3 = c.tq := kW.2.2.2.2.1
  have s4 : bits W 14 4 = 5 := kW.2.2.2.1
  have s5 : bits W 11 3 = acc := kW.2.2.1
  have s6 : bits W 7 4 = f := kW.2.1
  have s7 : bits W 0 7 = nrows1 := kW.1
  have kP : Holds P 0 [(4, 0), (16, off), (6, buf)] := holds_pack (by simp only [Fitting, and_true]; omega) (by rw [hP]; simp only [pack]; ring)
  have p0 : bits P 20 6 = buf := kP.2.2.1
  have p1 : bits P 4 16 = off := kP.2.1
  have e0 : bits E 19 7 = rbase := by rw [bits]; omega
  refine of12 (e := E) (p := P) (w := W) hwf rfl (by rw [hP', hW']; rfl) (by rw [hE', hP', hW']; rfl) (by omega) (by omega) (.of_lt (by omega)) ?_
  right
  simp [extract, mxWord, ctlOf, payNear, payFar, s0, s1, s2, s3, s4, s5, s6, s7, p0, p1, e0]

theorem RoundTrip.astow (c : Ctl) (acc buf off : Nat) : RoundTrip.Statement (.astow c acc buf off) := by
  intro hy
  have hwf := hy
  change ((c.wf && acc < 6 && buf < 64 && off < 2 ^ 16 : Bool)) = true at hy
  simp only [Ctl.wf, VX.wf, VX.wfArith, VX.wfTrans, VX.wfLogic, VX.wfMod, VX.wfNtt, VX.wfMovk, VMem.wf, VMem.wfLd, CopyIn.wf, CopyOut.wf, SyncOp.wf, AtomOp.wf, VAtom.wf, Exch.wf, MmaOp.wf, sr3, ldst, brOk, siOk, Bool.and_eq_true, Bool.or_eq_true, decide_eq_true_eq, beq_iff_eq, bne_iff_ne, ne_eq, if_true, if_false, Bool.false_eq_true, Bool.not_true, Bool.not_false, Bool.true_or, Bool.false_or, Bool.true_and] at hy
  obtain ⟨W, hW⟩ : ∃ W, W = enc3C c 6 (acc * 2 ^ 11) := ⟨_, rfl⟩
  have hW' := hW
  try simp only [engWord, enc29, enc3C, MmaOp.word, VX.word] at hW
  obtain ⟨P, hP⟩ : ∃ P, P = bufX buf off := ⟨_, rfl⟩
  have hP' := hP
  try simp only [handleX, bufX, VX.ctlX] at hP
  have kW : Holds W 0 [(11, 0), (3, acc), (4, 6), (3, c.tq), (3, c.gap), (2, c.tk), (6, 60)] := holds_pack (by simp only [Fitting, and_true]; omega) (by rw [hW]; simp only [pack]; ring)
  have s0 : bits W 26 6 = 60 := kW.2.2.2.2.2.2.1
  have s1 : bits W 24 2 = c.tk := kW.2.2.2.2.2.1
  have s2 : bits W 21 3 = c.gap := kW.2.2.2.2.1
  have s3 : bits W 18 3 = c.tq := kW.2.2.2.1
  have s4 : bits W 14 4 = 6 := kW.2.2.1
  have s5 : bits W 11 3 = acc := kW.2.1
  have kP : Holds P 0 [(4, 0), (16, off), (6, buf)] := holds_pack (by simp only [Fitting, and_true]; omega) (by rw [hP]; simp only [pack]; ring)
  have p0 : bits P 20 6 = buf := kP.2.2.1
  have p1 : bits P 4 16 = off := kP.2.1
  refine of1 (p := P) (w := W) hwf rfl (by rw [hP', hW']; rfl) (by omega) (.of_lt (by omega)) ?_
  simp [extract, mxWord, ctlOf, payNear, payFar, s0, s1, s2, s3, s4, s5, p0, p1]

theorem RoundTrip.arestore (c : Ctl) (acc buf off : Nat) : RoundTrip.Statement (.arestore c acc buf off) := by
  intro hy
  have hwf := hy
  change ((c.wf && acc < 4 && buf < 64 && off < 2 ^ 16 : Bool)) = true at hy
  simp only [Ctl.wf, VX.wf, VX.wfArith, VX.wfTrans, VX.wfLogic, VX.wfMod, VX.wfNtt, VX.wfMovk, VMem.wf, VMem.wfLd, CopyIn.wf, CopyOut.wf, SyncOp.wf, AtomOp.wf, VAtom.wf, Exch.wf, MmaOp.wf, sr3, ldst, brOk, siOk, Bool.and_eq_true, Bool.or_eq_true, decide_eq_true_eq, beq_iff_eq, bne_iff_ne, ne_eq, if_true, if_false, Bool.false_eq_true, Bool.not_true, Bool.not_false, Bool.true_or, Bool.false_or, Bool.true_and] at hy
  obtain ⟨W, hW⟩ : ∃ W, W = enc3C c 7 (acc * 2 ^ 11) := ⟨_, rfl⟩
  have hW' := hW
  try simp only [engWord, enc29, enc3C, MmaOp.word, VX.word] at hW
  obtain ⟨P, hP⟩ : ∃ P, P = bufX buf off := ⟨_, rfl⟩
  have hP' := hP
  try simp only [handleX, bufX, VX.ctlX] at hP
  have kW : Holds W 0 [(11, 0), (3, acc), (4, 7), (3, c.tq), (3, c.gap), (2, c.tk), (6, 60)] := holds_pack (by simp only [Fitting, and_true]; omega) (by rw [hW]; simp only [pack]; ring)
  have s0 : bits W 26 6 = 60 := kW.2.2.2.2.2.2.1
  have s1 : bits W 24 2 = c.tk := kW.2.2.2.2.2.1
  have s2 : bits W 21 3 = c.gap := kW.2.2.2.2.1
  have s3 : bits W 18 3 = c.tq := kW.2.2.2.1
  have s4 : bits W 14 4 = 7 := kW.2.2.1
  have s5 : bits W 11 3 = acc := kW.2.1
  have kP : Holds P 0 [(4, 0), (16, off), (6, buf)] := holds_pack (by simp only [Fitting, and_true]; omega) (by rw [hP]; simp only [pack]; ring)
  have p0 : bits P 20 6 = buf := kP.2.2.1
  have p1 : bits P 4 16 = off := kP.2.1
  refine of1 (p := P) (w := W) hwf rfl (by rw [hP', hW']; rfl) (by omega) (.of_lt (by omega)) ?_
  simp [extract, mxWord, ctlOf, payNear, payFar, s0, s1, s2, s3, s4, s5, p0, p1]

theorem RoundTrip.nestgo (c : Ctl) (shp acc clrmask sw a b : Nat) : RoundTrip.Statement (.nestgo c shp acc clrmask sw a b) := by
  intro hy
  have hwf := hy
  change ((c.wf && shp < 8 && acc < 4 && clrmask < 16 && sw < 32 && a < 2 ^ 13 && b < 2 ^ 13 : Bool)) = true at hy
  simp only [Ctl.wf, VX.wf, VX.wfArith, VX.wfTrans, VX.wfLogic, VX.wfMod, VX.wfNtt, VX.wfMovk, VMem.wf, VMem.wfLd, CopyIn.wf, CopyOut.wf, SyncOp.wf, AtomOp.wf, VAtom.wf, Exch.wf, MmaOp.wf, sr3, ldst, brOk, siOk, Bool.and_eq_true, Bool.or_eq_true, decide_eq_true_eq, beq_iff_eq, bne_iff_ne, ne_eq, if_true, if_false, Bool.false_eq_true, Bool.not_true, Bool.not_false, Bool.true_or, Bool.false_or, Bool.true_and] at hy
  obtain ⟨W, hW⟩ : ∃ W, W = enc3C c 8 (shp * 2 ^ 11 + acc * 2 ^ 8 + clrmask * 2 ^ 4) := ⟨_, rfl⟩
  have hW' := hW
  try simp only [engWord, enc29, enc3C, MmaOp.word, VX.word] at hW
  obtain ⟨P, hP⟩ : ∃ P, P = a * 2 ^ 13 + b := ⟨_, rfl⟩
  have hP' := hP
  try simp only [handleX, bufX, VX.ctlX] at hP
  obtain ⟨E, hE⟩ : ∃ E, E = sw * 2 ^ 21 := ⟨_, rfl⟩
  have hE' := hE
  try simp only [handleX] at hE
  have kW : Holds W 0 [(4, 0), (4, clrmask), (3, acc), (3, shp), (4, 8), (3, c.tq), (3, c.gap), (2, c.tk), (6, 60)] := holds_pack (by simp only [Fitting, and_true]; omega) (by rw [hW]; simp only [pack]; ring)
  have s0 : bits W 26 6 = 60 := kW.2.2.2.2.2.2.2.2.1
  have s1 : bits W 24 2 = c.tk := kW.2.2.2.2.2.2.2.1
  have s2 : bits W 21 3 = c.gap := kW.2.2.2.2.2.2.1
  have s3 : bits W 18 3 = c.tq := kW.2.2.2.2.2.1
  have s4 : bits W 14 4 = 8 := kW.2.2.2.2.1
  have s5 : bits W 11 3 = shp := kW.2.2.2.1
  have s6 : bits W 8 3 = acc := kW.2.2.1
  have s7 : bits W 4 4 = clrmask := kW.2.1
  have kP : Holds P 0 [(13, b), (13, a)] := holds_pack (by simp only [Fitting, and_true]; omega) (by rw [hP]; simp only [pack]; ring)
  have p0 : bits P 13 13 = a := kP.2.1
  have p1 : bits P 0 13 = b := kP.1
  have e0 : bits E 21 5 = sw := by rw [bits]; omega
  refine of2 (e := E) (p := P) (w := W) hwf rfl rfl (by rw [hE', hP', hW']; rfl) (by omega) (by omega) (.of_lt (by omega)) ?_
  simp [extract, mxWord, ctlOf, payNear, payFar, s0, s1, s2, s3, s4, s5, s6, s7, p0, p1, e0]

theorem RoundTrip.mxwait (c : Ctl) : RoundTrip.Statement (.mxwait c) := by
  intro hy
  have hwf := hy
  change ((c.wf : Bool)) = true at hy
  simp only [Ctl.wf, VX.wf, VX.wfArith, VX.wfTrans, VX.wfLogic, VX.wfMod, VX.wfNtt, VX.wfMovk, VMem.wf, VMem.wfLd, CopyIn.wf, CopyOut.wf, SyncOp.wf, AtomOp.wf, VAtom.wf, Exch.wf, MmaOp.wf, sr3, ldst, brOk, siOk, Bool.and_eq_true, Bool.or_eq_true, decide_eq_true_eq, beq_iff_eq, bne_iff_ne, ne_eq, if_true, if_false, Bool.false_eq_true, Bool.not_true, Bool.not_false, Bool.true_or, Bool.false_or, Bool.true_and] at hy
  obtain ⟨W, hW⟩ : ∃ W, W = enc3C c 9 (0) := ⟨_, rfl⟩
  have hW' := hW
  try simp only [engWord, enc29, enc3C, MmaOp.word, VX.word] at hW
  have kW : Holds W 0 [(14, 0), (4, 9), (3, c.tq), (3, c.gap), (2, c.tk), (6, 60)] := holds_pack (by simp only [Fitting, and_true]; omega) (by rw [hW]; simp only [pack]; ring)
  have s0 : bits W 26 6 = 60 := kW.2.2.2.2.2.1
  have s1 : bits W 24 2 = c.tk := kW.2.2.2.2.1
  have s2 : bits W 21 3 = c.gap := kW.2.2.2.1
  have s3 : bits W 18 3 = c.tq := kW.2.2.1
  have s4 : bits W 14 4 = 9 := kW.2.1
  refine of0 (w := W) hwf (by rw [hW']; rfl) (.of_lt (by omega)) ?_
  simp [extract, mxWord, ctlOf, payNear, payFar, s0, s1, s2, s3, s4]

theorem RoundTrip.rkloadAtt (c : Ctl) (buf off : Nat) : RoundTrip.Statement (.rkloadAtt c buf off) := by
  intro hy
  have hwf := hy
  change ((c.wf && buf < 64 && off < 2 ^ 16 : Bool)) = true at hy
  simp only [Ctl.wf, VX.wf, VX.wfArith, VX.wfTrans, VX.wfLogic, VX.wfMod, VX.wfNtt, VX.wfMovk, VMem.wf, VMem.wfLd, CopyIn.wf, CopyOut.wf, SyncOp.wf, AtomOp.wf, VAtom.wf, Exch.wf, MmaOp.wf, sr3, ldst, brOk, siOk, Bool.and_eq_true, Bool.or_eq_true, decide_eq_true_eq, beq_iff_eq, bne_iff_ne, ne_eq, if_true, if_false, Bool.false_eq_true, Bool.not_true, Bool.not_false, Bool.true_or, Bool.false_or, Bool.true_and] at hy
  obtain ⟨W, hW⟩ : ∃ W, W = enc3C c 10 (0) := ⟨_, rfl⟩
  have hW' := hW
  try simp only [engWord, enc29, enc3C, MmaOp.word, VX.word] at hW
  obtain ⟨P, hP⟩ : ∃ P, P = bufX buf off := ⟨_, rfl⟩
  have hP' := hP
  try simp only [handleX, bufX, VX.ctlX] at hP
  have kW : Holds W 0 [(13, 0), (1, 0), (4, 10), (3, c.tq), (3, c.gap), (2, c.tk), (6, 60)] := holds_pack (by simp only [Fitting, and_true]; omega) (by rw [hW]; simp only [pack]; ring)
  have s0 : bits W 26 6 = 60 := kW.2.2.2.2.2.2.1
  have s1 : bits W 24 2 = c.tk := kW.2.2.2.2.2.1
  have s2 : bits W 21 3 = c.gap := kW.2.2.2.2.1
  have s3 : bits W 18 3 = c.tq := kW.2.2.2.1
  have s4 : bits W 14 4 = 10 := kW.2.2.1
  have s5 : bits W 13 1 = 0 := kW.2.1
  have kP : Holds P 0 [(4, 0), (16, off), (6, buf)] := holds_pack (by simp only [Fitting, and_true]; omega) (by rw [hP]; simp only [pack]; ring)
  have p0 : bits P 20 6 = buf := kP.2.2.1
  have p1 : bits P 4 16 = off := kP.2.1
  refine of1 (p := P) (w := W) hwf rfl (by rw [hP', hW']; rfl) (by omega) (.of_lt (by omega)) ?_
  simp [extract, mxWord, ctlOf, payNear, payFar, s0, s1, s2, s3, s4, s5, p0, p1]

theorem RoundTrip.rkloadRct (c : Ctl) (buf off : Nat) : RoundTrip.Statement (.rkloadRct c buf off) := by
  intro hy
  have hwf := hy
  change ((c.wf && buf < 64 && off < 2 ^ 16 : Bool)) = true at hy
  simp only [Ctl.wf, VX.wf, VX.wfArith, VX.wfTrans, VX.wfLogic, VX.wfMod, VX.wfNtt, VX.wfMovk, VMem.wf, VMem.wfLd, CopyIn.wf, CopyOut.wf, SyncOp.wf, AtomOp.wf, VAtom.wf, Exch.wf, MmaOp.wf, sr3, ldst, brOk, siOk, Bool.and_eq_true, Bool.or_eq_true, decide_eq_true_eq, beq_iff_eq, bne_iff_ne, ne_eq, if_true, if_false, Bool.false_eq_true, Bool.not_true, Bool.not_false, Bool.true_or, Bool.false_or, Bool.true_and] at hy
  obtain ⟨W, hW⟩ : ∃ W, W = enc3C c 10 (2 ^ 13) := ⟨_, rfl⟩
  have hW' := hW
  try simp only [engWord, enc29, enc3C, MmaOp.word, VX.word] at hW
  obtain ⟨P, hP⟩ : ∃ P, P = bufX buf off := ⟨_, rfl⟩
  have hP' := hP
  try simp only [handleX, bufX, VX.ctlX] at hP
  have kW : Holds W 0 [(13, 0), (1, 1), (4, 10), (3, c.tq), (3, c.gap), (2, c.tk), (6, 60)] := holds_pack (by simp only [Fitting, and_true]; omega) (by rw [hW]; simp only [pack]; ring)
  have s0 : bits W 26 6 = 60 := kW.2.2.2.2.2.2.1
  have s1 : bits W 24 2 = c.tk := kW.2.2.2.2.2.1
  have s2 : bits W 21 3 = c.gap := kW.2.2.2.2.1
  have s3 : bits W 18 3 = c.tq := kW.2.2.2.1
  have s4 : bits W 14 4 = 10 := kW.2.2.1
  have s5 : bits W 13 1 = 1 := kW.2.1
  have kP : Holds P 0 [(4, 0), (16, off), (6, buf)] := holds_pack (by simp only [Fitting, and_true]; omega) (by rw [hP]; simp only [pack]; ring)
  have p0 : bits P 20 6 = buf := kP.2.2.1
  have p1 : bits P 4 16 = off := kP.2.1
  refine of1 (p := P) (w := W) hwf rfl (by rw [hP', hW']; rfl) (by omega) (.of_lt (by omega)) ?_
  simp [extract, mxWord, ctlOf, payNear, payFar, s0, s1, s2, s3, s4, s5, p0, p1]

theorem RoundTrip.orderRetire (slot t id : Nat) : RoundTrip.Statement (.orderRetire slot t id) := fun h => absurd h Bool.false_ne_true
theorem RoundTrip.layoutRecordFetch (slot t eng : Nat) : RoundTrip.Statement (.layoutRecordFetch slot t eng) := fun h => absurd h Bool.false_ne_true
theorem RoundTrip.fillComplete (slot t id : Nat) : RoundTrip.Statement (.fillComplete slot t id) := fun h => absurd h Bool.false_ne_true
theorem RoundTrip.drainComplete (slot t id : Nat) : RoundTrip.Statement (.drainComplete slot t id) := fun h => absurd h Bool.false_ne_true
theorem RoundTrip.landing (slot t id : Nat) : RoundTrip.Statement (.landing slot t id) := fun h => absurd h Bool.false_ne_true
theorem RoundTrip.late (slot : Nat) : RoundTrip.Statement (.late slot) := fun h => absurd h Bool.false_ne_true
theorem RoundTrip.bytesPerformed (slot t id : Nat) : RoundTrip.Statement (.bytesPerformed slot t id) := fun h => absurd h Bool.false_ne_true
theorem RoundTrip.remoteTimeout (slot t id : Nat) : RoundTrip.Statement (.remoteTimeout slot t id) := fun h => absurd h Bool.false_ne_true
theorem RoundTrip.transferArrival (slot t : Nat) : RoundTrip.Statement (.transferArrival slot t) := fun h => absurd h Bool.false_ne_true
theorem RoundTrip.syeOperation (slot t id : Nat) : RoundTrip.Statement (.syeOperation slot t id) := fun h => absurd h Bool.false_ne_true
theorem RoundTrip.relFenceRelease (slot t id : Nat) : RoundTrip.Statement (.relFenceRelease slot t id) := fun h => absurd h Bool.false_ne_true
theorem RoundTrip.xpostArrival (msg : Nat) : RoundTrip.Statement (.xpostArrival msg) := fun h => absurd h Bool.false_ne_true
theorem RoundTrip.hostRemoteAtomic (va op opd cmp vif : Nat) : RoundTrip.Statement (.hostRemoteAtomic va op opd cmp vif) := fun h => absurd h Bool.false_ne_true
theorem RoundTrip.preemptStop (slot t : Nat) : RoundTrip.Statement (.preemptStop slot t) := fun h => absurd h Bool.false_ne_true
theorem RoundTrip.maxpd (slot : Nat) : RoundTrip.Statement (.maxpd slot) := fun h => absurd h Bool.false_ne_true
theorem RoundTrip.stowSave (slot : Nat) : RoundTrip.Statement (.stowSave slot) := fun h => absurd h Bool.false_ne_true
theorem RoundTrip.stow (slot evict : Nat) : RoundTrip.Statement (.stow slot evict) := fun h => absurd h Bool.false_ne_true
theorem RoundTrip.resume (slot px py orient : Nat) : RoundTrip.Statement (.resume slot px py orient) := fun h => absurd h Bool.false_ne_true
theorem RoundTrip.thaw (slot : Nat) : RoundTrip.Statement (.thaw slot) := fun h => absurd h Bool.false_ne_true
theorem RoundTrip.replay (slot : Nat) : RoundTrip.Statement (.replay slot) := fun h => absurd h Bool.false_ne_true
theorem RoundTrip.freeze (slot : Nat) : RoundTrip.Statement (.freeze slot) := fun h => absurd h Bool.false_ne_true
theorem RoundTrip.abort (slot reason : Nat) : RoundTrip.Statement (.abort slot reason) := fun h => absurd h Bool.false_ne_true
theorem RoundTrip.segmentReplay (slot : Nat) : RoundTrip.Statement (.segmentReplay slot) := fun h => absurd h Bool.false_ne_true
theorem RoundTrip.clockChange (slot : Nat) : RoundTrip.Statement (.clockChange slot) := fun h => absurd h Bool.false_ne_true
theorem RoundTrip.margin (tile : Nat) : RoundTrip.Statement (.margin tile) := fun h => absurd h Bool.false_ne_true
theorem RoundTrip.marginTileFail (tile : Nat) : RoundTrip.Statement (.marginTileFail tile) := fun h => absurd h Bool.false_ne_true
theorem RoundTrip.healthBitClear (tile bit : Nat) : RoundTrip.Statement (.healthBitClear tile bit) := fun h => absurd h Bool.false_ne_true
theorem RoundTrip.scrubPatrol (src at_ kind : Nat) : RoundTrip.Statement (.scrubPatrol src at_ kind) := fun h => absurd h Bool.false_ne_true
theorem RoundTrip.evqRead (core : Nat) : RoundTrip.Statement (.evqRead core) := fun h => absurd h Bool.false_ne_true
theorem RoundTrip.ccInterrupt (core : Nat) : RoundTrip.Statement (.ccInterrupt core) := fun h => absurd h Bool.false_ne_true
theorem RoundTrip.translationWalk (slot va kind : Nat) : RoundTrip.Statement (.translationWalk slot va kind) := fun h => absurd h Bool.false_ne_true
theorem RoundTrip.walkWatchdog (walker : Nat) : RoundTrip.Statement (.walkWatchdog walker) := fun h => absurd h Bool.false_ne_true
theorem RoundTrip.shootdown (core : Nat) : RoundTrip.Statement (.shootdown core) := fun h => absurd h Bool.false_ne_true
theorem RoundTrip.shootdownAck (unit : Nat) : RoundTrip.Statement (.shootdownAck unit) := fun h => absurd h Bool.false_ne_true
theorem RoundTrip.potAssign (w page npg : Nat) : RoundTrip.Statement (.potAssign w page npg) := fun h => absurd h Bool.false_ne_true
theorem RoundTrip.potRelease (w page npg : Nat) : RoundTrip.Statement (.potRelease w page npg) := fun h => absurd h Bool.false_ne_true
theorem RoundTrip.potBounce (w page npg : Nat) : RoundTrip.Statement (.potBounce w page npg) := fun h => absurd h Bool.false_ne_true
theorem RoundTrip.potUnbounce (w page npg : Nat) : RoundTrip.Statement (.potUnbounce w page npg) := fun h => absurd h Bool.false_ne_true
theorem RoundTrip.pageScrubComplete (page : Nat) : RoundTrip.Statement (.pageScrubComplete page) := fun h => absurd h Bool.false_ne_true
theorem RoundTrip.tileScrub (tile : Nat) : RoundTrip.Statement (.tileScrub tile) := fun h => absurd h Bool.false_ne_true
theorem RoundTrip.keyGen (w : Nat) : RoundTrip.Statement (.keyGen w) := fun h => absurd h Bool.false_ne_true
theorem RoundTrip.linkTagFail (pa again : Nat) : RoundTrip.Statement (.linkTagFail pa again) := fun h => absurd h Bool.false_ne_true
theorem RoundTrip.getVersion (vif : Nat) : RoundTrip.Statement (.getVersion vif) := fun h => absurd h Bool.false_ne_true
theorem RoundTrip.getCapabilities (vif : Nat) : RoundTrip.Statement (.getCapabilities vif) := fun h => absurd h Bool.false_ne_true
theorem RoundTrip.negotiateAlgorithms (vif algs : Nat) : RoundTrip.Statement (.negotiateAlgorithms vif algs) := fun h => absurd h Bool.false_ne_true
theorem RoundTrip.getDigests (vif : Nat) : RoundTrip.Statement (.getDigests vif) := fun h => absurd h Bool.false_ne_true
theorem RoundTrip.getCertificate (vif slot : Nat) : RoundTrip.Statement (.getCertificate vif slot) := fun h => absurd h Bool.false_ne_true
theorem RoundTrip.challenge (vif nonce : Nat) : RoundTrip.Statement (.challenge vif nonce) := fun h => absurd h Bool.false_ne_true
theorem RoundTrip.getMeasurements (vif nonce : Nat) : RoundTrip.Statement (.getMeasurements vif nonce) := fun h => absurd h Bool.false_ne_true
theorem RoundTrip.keyExchange (vif share : Nat) : RoundTrip.Statement (.keyExchange vif share) := fun h => absurd h Bool.false_ne_true
theorem RoundTrip.finish (vif mac : Nat) : RoundTrip.Statement (.finish vif mac) := fun h => absurd h Bool.false_ne_true
theorem RoundTrip.heartbeat (vif : Nat) : RoundTrip.Statement (.heartbeat vif) := fun h => absurd h Bool.false_ne_true
theorem RoundTrip.keyUpdate (vif : Nat) : RoundTrip.Statement (.keyUpdate vif) := fun h => absurd h Bool.false_ne_true
theorem RoundTrip.endSession (vif : Nat) : RoundTrip.Statement (.endSession vif) := fun h => absurd h Bool.false_ne_true
theorem RoundTrip.chunkGet (vif handle : Nat) : RoundTrip.Statement (.chunkGet vif handle) := fun h => absurd h Bool.false_ne_true
theorem RoundTrip.deposit (vif va : Nat) (data : List Byte) : RoundTrip.Statement (.deposit vif va data) := fun h => absurd h Bool.false_ne_true
theorem RoundTrip.bckey (vif chan key : Nat) : RoundTrip.Statement (.bckey vif chan key) := fun h => absurd h Bool.false_ne_true
theorem RoundTrip.unsupportedRequest (vif code : Nat) : RoundTrip.Statement (.unsupportedRequest vif code) := fun h => absurd h Bool.false_ne_true
theorem RoundTrip.bounceEnable (chan : Nat) : RoundTrip.Statement (.bounceEnable chan) := fun h => absurd h Bool.false_ne_true
theorem RoundTrip.bounceFrameIn (chan : Nat) : RoundTrip.Statement (.bounceFrameIn chan) := fun h => absurd h Bool.false_ne_true
theorem RoundTrip.bounceFrameOut (chan : Nat) : RoundTrip.Statement (.bounceFrameOut chan) := fun h => absurd h Bool.false_ne_true
theorem RoundTrip.powerShed : RoundTrip.Statement .powerShed := fun h => absurd h Bool.false_ne_true
theorem RoundTrip.powerRestore : RoundTrip.Statement .powerRestore := fun h => absurd h Bool.false_ne_true
theorem RoundTrip.queueWrite (vif off : Nat) (data : List Byte) : RoundTrip.Statement (.queueWrite vif off data) := fun h => absurd h Bool.false_ne_true
theorem RoundTrip.vifqEnable (vif : Nat) : RoundTrip.Statement (.vifqEnable vif) := fun h => absurd h Bool.false_ne_true
theorem RoundTrip.vifqDisable (vif : Nat) : RoundTrip.Statement (.vifqDisable vif) := fun h => absurd h Bool.false_ne_true
theorem RoundTrip.launch (vif : Nat) : RoundTrip.Statement (.launch vif) := fun h => absurd h Bool.false_ne_true
theorem RoundTrip.cancel (vif : Nat) : RoundTrip.Statement (.cancel vif) := fun h => absurd h Bool.false_ne_true
theorem RoundTrip.release (vif : Nat) : RoundTrip.Statement (.release vif) := fun h => absurd h Bool.false_ne_true
theorem RoundTrip.pad (vif : Nat) : RoundTrip.Statement (.pad vif) := fun h => absurd h Bool.false_ne_true
theorem RoundTrip.placeInstance : RoundTrip.Statement .placeInstance := fun h => absurd h Bool.false_ne_true
theorem RoundTrip.snareaWrite (value : Nat) : RoundTrip.Statement (.snareaWrite value) := fun h => absurd h Bool.false_ne_true
theorem RoundTrip.regionCut (slot : Nat) : RoundTrip.Statement (.regionCut slot) := fun h => absurd h Bool.false_ne_true
theorem RoundTrip.bookmark (jobid id src : Nat) : RoundTrip.Statement (.bookmark jobid id src) := fun h => absurd h Bool.false_ne_true
theorem RoundTrip.jobMessageArrival (msg : Nat) : RoundTrip.Statement (.jobMessageArrival msg) := fun h => absurd h Bool.false_ne_true
theorem RoundTrip.cutReport (jobid id src : Nat) : RoundTrip.Statement (.cutReport jobid id src) := fun h => absurd h Bool.false_ne_true
theorem RoundTrip.commit (jobid id : Nat) : RoundTrip.Statement (.commit jobid id) := fun h => absurd h Bool.false_ne_true
theorem RoundTrip.snapshotAbort (job id : Nat) : RoundTrip.Statement (.snapshotAbort job id) := fun h => absurd h Bool.false_ne_true
theorem RoundTrip.snapshotTimeout (jobid id : Nat) : RoundTrip.Statement (.snapshotTimeout jobid id) := fun h => absurd h Bool.false_ne_true
theorem RoundTrip.pageCopy (page : Nat) : RoundTrip.Statement (.pageCopy page) := fun h => absurd h Bool.false_ne_true
theorem RoundTrip.bufferCopy (slot t b : Nat) : RoundTrip.Statement (.bufferCopy slot t b) := fun h => absurd h Bool.false_ne_true
theorem RoundTrip.rollbackMarker (jobid id src : Nat) : RoundTrip.Statement (.rollbackMarker jobid id src) := fun h => absurd h Bool.false_ne_true
theorem RoundTrip.flitReceive (port : Nat) (flit : List Byte) : RoundTrip.Statement (.flitReceive port flit) := fun h => absurd h Bool.false_ne_true
theorem RoundTrip.collContribution (coll rank : Nat) (data : List Byte) : RoundTrip.Statement (.collContribution coll rank data) := fun h => absurd h Bool.false_ne_true
theorem RoundTrip.collAbandon (coll : Nat) : RoundTrip.Statement (.collAbandon coll) := fun h => absurd h Bool.false_ne_true
theorem RoundTrip.ethFrameReceive (port transport endpoint : Nat) (data : List Byte) : RoundTrip.Statement (.ethFrameReceive port transport endpoint data) := fun h => absurd h Bool.false_ne_true
theorem RoundTrip.ethPortDown (port : Nat) : RoundTrip.Statement (.ethPortDown port) := fun h => absurd h Bool.false_ne_true
theorem RoundTrip.timebasePulse : RoundTrip.Statement .timebasePulse := fun h => absurd h Bool.false_ne_true
theorem RoundTrip.coldReset : RoundTrip.Statement .coldReset := fun h => absurd h Bool.false_ne_true
theorem RoundTrip.warmReset : RoundTrip.Statement .warmReset := fun h => absurd h Bool.false_ne_true
theorem RoundTrip.hbmChannelTraining (chan rdlo rdhi wrlo wrhi : Nat) (weak : List Nat) (confirm : Nat) : RoundTrip.Statement (.hbmChannelTraining chan rdlo rdhi wrlo wrhi weak confirm) := fun h => absurd h Bool.false_ne_true
theorem RoundTrip.uecDataWrite (vif va : Nat) (data : List Byte) : RoundTrip.Statement (.uecDataWrite vif va data) := fun h => absurd h Bool.false_ne_true
theorem RoundTrip.fabricWindowAccess (world pa : Nat) (write : Nat) (data : List Byte) : RoundTrip.Statement (.fabricWindowAccess world pa write data) := fun h => absurd h Bool.false_ne_true
theorem RoundTrip.guestTableChange (vif pa value : Nat) : RoundTrip.Statement (.guestTableChange vif pa value) := fun h => absurd h Bool.false_ne_true
theorem RoundTrip.keyzComplete (w : Nat) : RoundTrip.Statement (.keyzComplete w) := fun h => absurd h Bool.false_ne_true
theorem RoundTrip.ethPortUp (port : Nat) : RoundTrip.Statement (.ethPortUp port) := fun h => absurd h Bool.false_ne_true
theorem RoundTrip.configStoreUpdate (pkg sigs : Nat) : RoundTrip.Statement (.configStoreUpdate pkg sigs) := fun h => absurd h Bool.false_ne_true

end Sys2Proof.Laws
end

