-- ==== Sys2Proof/Safety.lean ====
section
/-! DEFINITION. What counts as a safe run, and the terms that the statements use: when a word issues without delay, and what one word leaves unchanged. -/
namespace Sys2Proof.Machine

/-- A state in which no region stands in a trap freeze and no core has failed. -/
def State.quiet (s : State) : Bool :=
  s.slots.all (fun e => !(e.2.st == .frozen && e.2.trapped)) && s.cores.all (fun e => !e.2.failed) && s.walkers.all (fun e => !e.2.failed)

/-- A run of `n` steps that passes through quiet states alone. -/
def safeRun : Nat → State → Prop
  | 0, s => s.quiet = true
  | n + 1, s => s.quiet = true ∧ ∃ t, step s = .next t ∧ safeRun n t

/-! ## Scalar words -/

/-- The scalar word in hand issues at SQ of a running region: it has an issue time (a core's word and a handler's have none). -/
def State.clocked (s : State) : Bool := s.atU && !s.inHandler

/-- Nothing delays the scalar word in hand (R31, R146): where it has an issue time, no STAMP stands before it, the earliest cycle
of SQ has come, and every register and unit is ready; the same in handler cycles where it runs in a handler (R295). -/
structure State.prompt (s : State) : Prop where
  clocked : s.clocked = true → (s.ctile.eng 0).stamp = none ∧ (s.ctile.eng 0).next ≤ s.now ∧ ∀ k, s.ctile.ready k ≤ s.now
  handler : s.inHandler = true → s.ctile.hnext ≤ s.region.hcyc ∧ ∀ k, Store.get 0 k s.ctile.hsb ≤ s.region.hcyc

/-- The step counter of the agent whose word is in hand. -/
def State.pcOf (s : State) : Nat := if s.atU then (s.ctile.eng 0).step else s.ccore.step

/-- The first step of the sequence of the word in hand, with the STAMP that SQ holds for it (R118). -/
def State.seqFirst (s : State) : Nat := if s.clocked then s.ctile.seqFirst s.cur else s.cur.first

/-- Control falls through to the following step, by the end test of the innermost loop, whose last step may be any step of the word's
sequence (R120, R145, R159); a handler leaves the loop
stack alone (R295). -/
def fallsThrough (s t : State) : Prop :=
  (t.loopsOf, t.pcOf) = if s.inHandler then (s.loopsOf, s.cur.nextStep) else seqEnd s.seqFirst s.cur.step s.cur.nextStep s.loopsOf

/-- The state but for its tiles and cores, and but for its tiles alone. -/
def State.offAgents (s : State) : State := { s with tiles := [], cores := [], walkers := [] }
def State.offTiles (s : State) : State := { s with tiles := [] }

/-- A word of one agent changes that agent alone: the tile in hand for a region's word, the core in hand for a core's. -/
structure OwnAgent (s t : State) : Prop where
  rest : t.offAgents = s.offAgents
  tiles : ∀ p, s.atU = false ∨ p ≠ s.here → t.tile p = s.tile p
  cores : ∀ n, s.cur.agent ≠ .core n → t.core n = s.core n
  walkers : ∀ n, s.cur.agent ≠ .walker n → t.walker n = s.walker n

/-- A tile without SQ's control and issue bookkeeping: step counters, loop stack, readiness, orders in flight. -/
def Tile.bare (x : Tile) : Tile := { x with engs := [], sb := [], hsb := [], hnext := 0, loops := [] }
def CCore.bare (x : CCore) : CCore := { x with step := 0, loops := [] }

/-- A scalar word of SQ leaves the other engines, and SQ's own base, run and state. -/
structure OtherEngines (s t : State) : Prop where
  others : ∀ e, e ≠ 0 → t.ctile.eng e = s.ctile.eng e
  own : (t.ctile.eng 0).st = (s.ctile.eng 0).st ∧ (t.ctile.eng 0).base = (s.ctile.eng 0).base ∧ (t.ctile.eng 0).run = (s.ctile.eng 0).run

/-- One scalar word leaves everything but the bookkeeping of its issue and the registers `g`: no byte of any memory, no status
word, no other register changes. -/
structure OnlyG (s t : State) : Prop where
  own : OwnAgent s t
  tile : s.atU = true → { t.ctile.bare with g := s.ctile.g } = s.ctile.bare
  core : s.atU = false → { t.ccore.bare with g := s.ccore.g } = s.ccore.bare
  engines : OtherEngines s t

/-- The registers g of the agent in hand are all unchanged. -/
def sameG (s t : State) : Prop := ∀ k, t.rdG k = s.rdG k

/-- One scalar word has issued, and its whole effect is g[rd] := v (g0 discards it, R148), readable after `lat` cycles (R146), in a
handler handler cycles (R295). -/
structure WritesG (s t : State) (rd lat : Nat) (v : Word) : Prop where
  value : t.rdG rd = if rd = 0 then 0 else v
  others : ∀ k, k ≠ rd → t.rdG k = s.rdG k
  falls : fallsThrough s t
  latency : s.clocked = true → rd ≠ 0 → t.ctile.ready rd = s.now + lat
  hlatency : s.inHandler = true → rd ≠ 0 → Store.get 0 rd t.ctile.hsb = s.region.hcyc + lat
  only : OnlyG s t

/-! ## Engine orders -/

/-- The cycle in which the order in hand is due (R30, R31), where no THAW has set another. -/
def State.dueAt (s : State) (c : Ctl) : Nat :=
  match s.ceng.stamp with
  | some p => s.ctile.stampTime p
  | none => s.ceng.tprev + 1 + c.gap

/-- The engine order in hand issues in this cycle as far as its engine and its tokens go (R14, R31 to R33); it is no order that issues
again after a THAW. -/
structure Due (s : State) (c : Ctl) : Prop where
  atU : s.atU = true
  legal : c.legal s.cur.eng = true
  fresh : s.ceng.next = 0
  due : s.dueAt c ≤ s.now
  timed : s.ctile.timed = true → s.dueAt c = s.now
  later : s.ceng.tprev < s.now
  token : c.pops = true → s.ctile.token c.tq s.cur.eng ≠ 0
  first : s.ctile.redoing s.cur.eng = none

/-- A tile without the bookkeeping of orders: engines, tokens, orders in flight, readiness. -/
def Tile.plain (x : Tile) : Tile :=
  { x with engs := [], tokens := [], flights := [], nextId := 0, effs := [], sb := [], lastMma := none }

/-- One engine order has issued (R13, R14, R31, R36): its engine moves past it, its token is popped, it is in flight as `f`, and
`l` are the changes it makes at the ends of cycles. -/
structure Issued (s t : State) (c : Ctl) (f : Flight) (l : List (Nat × Eff)) : Prop where
  tiles : ∀ p, p ≠ s.here → t.tile p = s.tile p
  engs : ∀ e, e ≠ s.cur.eng → t.ctile.eng e = s.ctile.eng e
  eng : t.ctile.eng s.cur.eng = { s.ceng.feed s.cur.raws with step := s.cur.nextStep, tprev := s.now, next := 0, run := s.ceng.run - 1 }
  tokens : ∀ k, Store.get 0 k t.ctile.tokens =
    if c.pops = true ∧ k = fifo c.tq s.cur.eng then Store.get 0 k s.ctile.tokens - 1 else Store.get 0 k s.ctile.tokens
  flights : t.ctile.flights = s.ctile.flights ++ [f]
  order : f.eng = s.cur.eng ∧ f.step = s.cur.step ∧ f.push = if c.pushes then some c.tq else none
  effs : t.ctile.effs = s.ctile.effs ++ l ++ if s.ceng.run = 1 then [(s.now, .engEnd s.cur.eng)] else []

/-- Nothing else of the package changes. -/
def restSame (s t : State) : Prop := t.offTiles = s.offTiles

end Sys2Proof.Machine
end

