-- ==== Sys2Proof/Certificates/Slice0/Obligations.lean ====
section
/-! DEFINITION. The statements for the provers, over tables of what the entries of the spec give. -/
namespace Sys2Proof.Claims
open Sys2Proof.Machine

/-! ## The package -/

/-- What may stand in memory: the canonical form of Host.Cell pairs, whose unlisted bytes read as zero. -/
def MemOk (s : State) : Prop := Memory.wf s.mem = true

/-- A modulus register that is valid holds a Q below 2^62, and MU is the one that the hardware computes from it (Table 5.6). -/
def QOk (r : QReg) : Prop := r.valid = true → r.q < 2 ^ 62 ∧ r.mu = 2 ^ 128 / r.q
/-- What may stand in a tile: SRAM and operand memory in the canonical form of memory, at most 4 loops (R158), no token FIFO above 15
(R14), and sound modulus registers. -/
structure TileOk (x : Tile) : Prop where
  sram : Store.wf 0 x.sram = true
  opmem : Store.wf 0 x.opmem = true
  loops : x.loops.length ≤ 4
  tokens : ∀ i, Store.get 0 i x.tokens ≤ 15
  moduli : ∀ i, QOk (Store.get {} i x.q)
/-- What may stand in a core: data memory in the canonical form, at most 4 loops. -/
structure CoreOk (c : CCore) : Prop where
  dmem : Store.wf 0 c.dmem = true
  loops : c.loops.length ≤ 4
/-- What may stand in the tiles and cores. -/
structure TilesOk (s : State) : Prop where
  tiles : ∀ p, TileOk (s.tile p)
  cores : ∀ n, CoreOk (s.core n)
  walkers : ∀ n, CoreOk (s.walker n)

/-- The footprint of slot `n` puts its tiles on different physical tiles. -/
def apart (r : Slot) : Prop := ∀ a b, a < r.count → b < r.count → r.phys a = r.phys b → a = b
/-- The control cores are told: bits `m` of CCIPEND are set (Table 18.4: 1 TRAP, 2 HDONE, 4 EVENT, 8 SHOOT, 16 WALK, 32 ECC). -/
def told (s t : State) (m : Nat) : Prop := ∀ k, k < 16 → t.core k = { s.core k with ipend := (s.core k).ipend ||| m }

/-! ## Tables of the scalar chapter -/

/-- One register write: destination, result latency (Table 8.1), and the value from the registers at issue. -/
structure RegWrite where
  rd : Nat
  lat : Nat
  value : (Nat → Word) → Word

/-- MAJ 0x00 and 0x01 (Tables 8.2 and 8.3, R149, R150). -/
def arithmetic : Instr → Option RegWrite
  | .add rd rs rt => some ⟨rd, 1, fun g => g rs + g rt⟩
  | .sub rd rs rt => some ⟨rd, 1, fun g => g rs - g rt⟩
  | .and rd rs rt => some ⟨rd, 1, fun g => g rs &&& g rt⟩
  | .or rd rs rt => some ⟨rd, 1, fun g => g rs ||| g rt⟩
  | .xor rd rs rt => some ⟨rd, 1, fun g => g rs ^^^ g rt⟩
  | .shl rd rs rt => some ⟨rd, 1, fun g => g rs <<< ((g rt).toNat % 64)⟩
  | .shr rd rs rt => some ⟨rd, 1, fun g => g rs >>> ((g rt).toNat % 64)⟩
  | .sra rd rs rt => some ⟨rd, 1, fun g => (g rs).sshiftRight ((g rt).toNat % 64)⟩
  | .slt rd rs rt => some ⟨rd, 1, fun g => if (g rs).slt (g rt) then 1 else 0⟩
  | .sltn rd rs rt => some ⟨rd, 1, fun g => if (g rs).ult (g rt) then 1 else 0⟩
  | .min rd rs rt => some ⟨rd, 1, fun g => if (g rt).slt (g rs) then g rt else g rs⟩
  | .max rd rs rt => some ⟨rd, 1, fun g => if (g rs).slt (g rt) then g rt else g rs⟩
  | .minn rd rs rt => some ⟨rd, 1, fun g => if (g rt).ult (g rs) then g rt else g rs⟩
  | .maxn rd rs rt => some ⟨rd, 1, fun g => if (g rs).ult (g rt) then g rt else g rs⟩
  | .sel rd rc rs rt => some ⟨rd, 1, fun g => if g rc ≠ 0 then g rs else g rt⟩
  | .clz rd rs => some ⟨rd, 1, fun g => BitVec.ofNat 64 ((List.range 64).takeWhile (fun i => !(g rs).getLsbD (63 - i))).length⟩
  | .ctz rd rs => some ⟨rd, 1, fun g => BitVec.ofNat 64 ((List.range 64).takeWhile (fun i => !(g rs).getLsbD i)).length⟩
  | .popc rd rs => some ⟨rd, 1, fun g => BitVec.ofNat 64 ((List.range 64).filter (g rs).getLsbD).length⟩
  | .brev rd rs => some ⟨rd, 1, fun g => (g rs).reverse⟩
  | .mul rd rs rt => some ⟨rd, 3, fun g => g rs * g rt⟩
  | .mulh rd rs rt => some ⟨rd, 3, fun g => ((g rs).signExtend 128 * (g rt).signExtend 128).extractLsb' 64 64⟩
  | .mulhn rd rs rt => some ⟨rd, 3, fun g => ((g rs).zeroExtend 128 * (g rt).zeroExtend 128).extractLsb' 64 64⟩
  | .div rd rs rt => some ⟨rd, 20, fun g => if g rt = 0 then BitVec.allOnes 64 else (g rs).sdiv (g rt)⟩
  | .divn rd rs rt => some ⟨rd, 20, fun g => if g rt = 0 then BitVec.allOnes 64 else g rs / g rt⟩
  | .rem rd rs rt => some ⟨rd, 20, fun g => if g rt = 0 then g rs else (g rs).srem (g rt)⟩
  | .remn rd rs rt => some ⟨rd, 20, fun g => if g rt = 0 then g rs else g rs % g rt⟩
  | _ => none

/-- MAJ 0x02 to 0x08 (R151 to R153); the immediate of `addi` to `slti` is the widened one. -/
def immediate : Instr → Option RegWrite
  | .addi rd rs imm => some ⟨rd, 1, fun g => g rs + imm⟩
  | .andi rd rs imm => some ⟨rd, 1, fun g => g rs &&& imm⟩
  | .ori rd rs imm => some ⟨rd, 1, fun g => g rs ||| imm⟩
  | .xori rd rs imm => some ⟨rd, 1, fun g => g rs ^^^ imm⟩
  | .slti rd rs imm => some ⟨rd, 1, fun g => if (g rs).slt imm then 1 else 0⟩
  | .shli rd rs n => some ⟨rd, 1, fun g => g rs <<< n⟩
  | .shri rd rs n => some ⟨rd, 1, fun g => g rs >>> n⟩
  | .srai rd rs n => some ⟨rd, 1, fun g => (g rs).sshiftRight n⟩
  | .lui rd imm => some ⟨rd, 1, fun _ => (BitVec.ofNat 16 imm).signExtend 64 <<< 16⟩
  | _ => none

/-- A load or a store: register, base register, buffer, bytes, displacement, and whether a load extends the sign. -/
structure Access where
  rd : Nat
  rs : Nat
  buf : Nat
  n : Nat
  disp : Int
  signed : Bool := false

/-- MAJ 0x09 and 0x0A. -/
def loadOf : Instr → Option Access
  | .ldb rd rs b d => some ⟨rd, rs, b, 1, d, true⟩
  | .ldh rd rs b d => some ⟨rd, rs, b, 2, d, true⟩
  | .ldw rd rs b d => some ⟨rd, rs, b, 4, d, true⟩
  | .ldd rd rs b d => some ⟨rd, rs, b, 8, d, true⟩
  | .ldbN rd rs b d => some ⟨rd, rs, b, 1, d, false⟩
  | .ldhN rd rs b d => some ⟨rd, rs, b, 2, d, false⟩
  | .ldwN rd rs b d => some ⟨rd, rs, b, 4, d, false⟩
  | _ => none
/-- MAJ 0x0B. -/
def storeOf : Instr → Option Access
  | .stb rd rs b d => some { rd := rd, rs := rs, buf := b, n := 1, disp := d }
  | .sth rd rs b d => some { rd := rd, rs := rs, buf := b, n := 2, disp := d }
  | .stw rd rs b d => some { rd := rd, rs := rs, buf := b, n := 4, disp := d }
  | .std rd rs b d => some { rd := rd, rs := rs, buf := b, n := 8, disp := d }
  | _ => none

/-- The unsigned 64-bit offset of R155. -/
def Access.off (a : Access) (s : State) : Nat := (s.rdG a.rs + BitVec.ofInt 64 a.disp).toNat
/-- The first address of the access: in tile SRAM, or in the core's data memory (R391). -/
def Access.addr (a : Access) (s : State) : Nat := if s.atU then (s.decl a.buf).base * 4096 + a.off s else a.off s
/-- One byte of the memory that loads and stores of the agent in hand reach. -/
def localByte (s : State) (k : Nat) : Byte := if s.atU then Store.get 0 k s.ctile.sram else Store.get 0 k s.ccore.dmem

/-- The offset is aligned and in range: in the buffer, or in the 64 KiB of a core, which has buffer 0 only. -/
def Access.inRange (a : Access) (s : State) : Prop :=
  a.off s % a.n = 0 ∧
  (if s.atU then (s.decl a.buf).valid = true ∧ a.off s + a.n ≤ (s.decl a.buf).len * 4096 else a.buf = 0 ∧ a.off s + a.n ≤ 65536)

/-- A load meets no check (R49, R295, R391): it is in range; at U no bit error stands in the tile, and outside a handler SQ's read
set names the buffer, which is FULL or DRAINING. -/
def Access.readable (a : Access) (s : State) : Prop :=
  a.inRange s ∧
  (s.atU = true → s.ctile.ecc = [] ∧
    (s.inHandler = false → s.ctile.seg.canRead 0 a.buf = true ∧ ((s.ctile.buf a.buf).st = .full ∨ (s.ctile.buf a.buf).st = .draining)))
/-- A store meets no check: it is in range, and at U SQ's write set names the buffer, which is EMPTY or FULL. -/
def Access.writable (a : Access) (s : State) : Prop :=
  a.inRange s ∧
  (s.atU = true → s.ctile.seg.canWrite 0 a.buf = true ∧ ((s.ctile.buf a.buf).st = .empty ∨ (s.ctile.buf a.buf).st = .full))

/-- The trap of a buffer check: TOPD1 holds the buffer and the byte offset (Table 18.3). -/
def accessTrap (c : Cause) (b off : Nat) : Trap := { cause := c, opd1 := b + off % 2 ^ 32 * 2 ^ 32 }
/-- The first check of an access of `n` bytes that fails (R49): the sets, the alignment, the range, and the state of the buffer. -/
def accessCheck (named inState : Bool) (d : BufDecl) (off n : Nat) : Option Cause :=
  if d.valid = false ∨ named = false then some .sets
  else if off % n ≠ 0 then some .align
  else if d.len * 4096 < off + n ∨ inState = false then some .bufstate
  else none
/-- ReadBuf and WriteBuf of engine `e` in the tile in hand (R49, R53). -/
def readFault (s : State) (e b off n : Nat) : Option Cause :=
  accessCheck (s.ctile.seg.canRead e b) (decide ((s.ctile.buf b).st = .full) || decide ((s.ctile.buf b).st = .draining)) (s.decl b) off n
def writeFault (s : State) (e b off n : Nat) : Option Cause :=
  accessCheck (s.ctile.seg.canWrite e b) (decide ((s.ctile.buf b).st = .empty) || decide ((s.ctile.buf b).st = .full)) (s.decl b) off n
/-- The check of a core's access that fails (R391): buffer 0 only, the alignment, the 64 KiB. -/
def coreFault (b off n : Nat) : Option Cause :=
  if b ≠ 0 then some .ill else if off % n ≠ 0 then some .align else if 65536 < off + n then some .xlate else none

/-- What a load gives g[rd]: its bytes, little-endian, extended to 64 bits. -/
def Access.value (a : Access) (s : State) : Word :=
  let v := leNat ((List.range a.n).map (fun k => localByte s (a.addr s + k)))
  if a.signed then (BitVec.ofNat (8 * a.n) v).signExtend 64 else BitVec.ofNat 64 v

/-- MAJ 0x0C: the registers compared, the offset and the condition (R156). -/
def branchOf : Instr → Option (Nat × Nat × Int × (Word → Word → Bool))
  | .beq rs rt o => some (rs, rt, o, fun a b => a == b)
  | .bne rs rt o => some (rs, rt, o, fun a b => a != b)
  | .blt rs rt o => some (rs, rt, o, fun a b => a.slt b)
  | .bge rs rt o => some (rs, rt, o, fun a b => !a.slt b)
  | .bltn rs rt o => some (rs, rt, o, fun a b => a.ult b)
  | .bgen rs rt o => some (rs, rt, o, fun a b => !a.ult b)
  | _ => none

/-- JAL and JALR: the link register and the 64-bit target (R157). -/
def linkOf (s : State) : Instr → Option (Nat × Word)
  | .jal rd o => some (rd, BitVec.ofNat 64 s.cur.step + o)
  | .jalr rd rs o => some (rd, s.rdG rs + o)
  | _ => none

/-- A transfer of control to step `p`: every loop whose body does not contain it is popped, but not in a handler (R159); SQ's next
word issues two cycles later (Table 8.1), in a handler two handler cycles (R295). -/
structure Transfers (s t : State) (p : Nat) : Prop where
  pc : t.pcOf = p
  loops : t.loopsOf = if s.inHandler then s.loopsOf else s.loopsOf.filter (fun l => l.start ≤ p && p ≤ l.last)
  delay : s.clocked = true → (t.ctile.eng 0).next = s.now + 2
  hdelay : s.inHandler = true → t.ctile.hnext = s.region.hcyc + 2

/-- A word of SQ turns the tile in hand into `x`, but for its issue bookkeeping, and changes nothing else; control falls through. -/
structure TileBecomes (s t : State) (x : Tile) : Prop where
  own : OwnAgent s t
  tile : t.ctile.bare = x.bare
  engines : OtherEngines s t
  falls : fallsThrough s t

/-- An unconditional wait or hint of SQ: nothing but its issue. -/
def Idles (s t : State) : Prop := TileBecomes s t s.ctile

/-- The engine that a word of MAJ 0x10 names is one of this tile's: MX only where the mask declares it (R18, R160). -/
def hasEngine (s : State) (e : Nat) : Prop := e = 4 → s.img.mxn = true

/-- What a change at the end of a cycle makes of engine `e`. -/
def engAfter (s : State) (e : Nat) (f : Eff) : Eng := (s.ctile.applyEff s.decl f).eng e

/-- No issue control. -/
def noCtl : Ctl := ⟨0, 0, 0⟩
/-- Scalar words of the listings. -/
def listedScalar : List (List Code × Instr) :=
  [([0x08800000#32], .addi 4 0 0), ([0x3C020003#32], .loop 2 3), ([0x24A4C300#32], .ldd 5 4 3 0), ([0x00C62800#32], .add 6 6 5),
   ([0x44040001#32], .seg 1), ([0x40019C00#32], .estart 3 7 0), ([0x400D8000#32], .ewait 3), ([0x40100000#32], .rend)]
/-- System, branch and set-up words. -/
def listedSystem : List (List Code × Instr) :=
  [([0x4C000000#32], .nop), ([0x4C0C0007#32], .trap 7), ([0x30022004#32], .beq 1 2 4), ([0x2C85C008#32], .std 4 5 0 8),
   ([0xFC000190#32], .stampFrame 100), ([0xEC024900#32], .fmtset noCtl 2 9), ([0xED119A00#32], .nestcfg ⟨1, 0, 4⟩ 6 13)]
/-- Vector words. -/
def listedVector : List (List Code × Instr) :=
  [([0xB4001083#32], .vadd noCtl ⟨1, 2, 3, 0, 0, 0, 0, 0, 0, 0⟩),
   ([0xF8488C70#32, 0xB5284146#32], .vfma ⟨1, 1, 2⟩ ⟨4, 5, 6, 2, 2, 1, 0, 7, 0, 0⟩),
   ([0xFA200014#32, 0xCC01E040#32], .vld noCtl ⟨30, 1, 0, 17, 0, 0, 20⟩),
   ([0xFA440043#32, 0xDC000000#32], .vntt noCtl ⟨0, 0, 0, 18, 1, 0, 0, 4, 3, 0⟩),
   ([0xF824001C#32, 0xE400A080#32], .rank noCtl ⟨10, 2, 0, 1, 1, 0, 7, 0⟩)]
/-- Movement and exchange words. -/
def listedMovement : List (List Code × Instr) :=
  [([0xF8000190#32, 0xF800C010#32, 0x810C5100#32], .cpin ⟨1, 0, 3⟩ ⟨5, 2, 0, 0, 3, 16, 400⟩),
   ([0xF8100000#32, 0xAC0007C0#32], .send noCtl ⟨0, 31, 2, 0, 0⟩), ([0xF8080000#32, 0xB00017F8#32], .sendk noCtl ⟨2, 255, 1, 0, 0⟩)]
/-- Matrix words. -/
def listedMatrix : List (List Code × Instr) :=
  [([0xF8000200#32, 0xE800A4A0#32], .mma noCtl ⟨5, 1, 2, 1, 0, 0, 0, 512, 0, 0⟩), ([0xF0000400#32], .oclaim noCtl 1),
   ([0xF8007F00#32, 0xF8400000#32, 0xF0008000#32], .oload noCtl 0 0 0 127 4 0), ([0xF8700000#32, 0xF001493F#32], .aout noCtl 1 2 63 0 7 0),
   ([0xF8200000#32, 0xF8000400#32, 0xF2020800#32], .nestgo ⟨2, 0, 0⟩ 1 0 0 1 0 1024)]
/-- Words of the spec's listings, with the instruction that each stands for. -/
def specWords : List (List Code × Instr) :=
  listedScalar ++ listedSystem ++ listedVector ++ listedMovement ++ listedMatrix

end Sys2Proof.Claims

open Sys2Proof Sys2Proof.Machine Sys2Proof.Claims

/-! ## Decoding and the step -/

/-- The words of the spec's own worked listings (the listings of the scalar, vector, movement and matrix chapters, that of a copy with a
landing between Tables 12.7 and 12.8 among them), and words written out from Tables 7.1, 8.4, 8.5 and 8.12, decode to the instructions
they stand for. -/
def Obligations.WordsDecode : Prop :=
  ∀ e, e ∈ specWords → ∃ d, decode e.1 = .ok d ∧ d.instr = e.2 ∧ d.len = e.1.length

/-- Every well-formed instruction survives encoding and decoding, with every operand (R113 to R124, R135). -/
def Obligations.EncodeDecode : Prop := ∀ i : Instr, Laws.RoundTrip.Statement i

/-- What decodes is well formed, and its words are one of the encodings that the tables give its instruction. -/
def Obligations.DecodeEncode : Prop :=
  ∀ (ws : List Code) (d : Decoded), decode ws = .ok d →
    d.instr.wf = true ∧ d.len = d.pays.length + 1 ∧ encodeN d.pays.length d.instr = some (d.pays, d.word) ∧ ws.take d.len = words (d.pays, d.word)

/-- Memory stands in its canonical form after reset, and so do the tiles and cores: their memories, their loop stacks, their tokens and
their modulus registers. -/
def Obligations.ResetMemory : Prop := MemOk State.reset ∧ TilesOk State.reset
/-- Every step keeps memory in its canonical form. -/
def Obligations.StepKeepsMemory : Prop := ∀ s t : State, MemOk s → step s = .next t → MemOk t
/-- Every step keeps the memories of tiles and cores in their canonical form, at most 4 loops in a loop stack (R158), at most 15 tokens in a
FIFO (R14), and in a valid modulus register a Q below 2^62 with its own MU (R86). That Q is odd and at least 3 is what VMOVK.vq checks;
a resume takes Q as the stow area holds it. -/
def Obligations.StepKeepsTiles : Prop := ∀ s t : State, TilesOk s → step s = .next t → TilesOk t

/-! ## Scalar words -/

/-- MAJ 0x00 to 0x08: g[rd] takes the value of Table 8.2 or 8.3, or the one that the immediate gives, and nothing else changes. -/
def Obligations.IntegerWords : Prop :=
  ∀ (i : Instr) (w : RegWrite) (s : State), arithmetic i = some w ∨ immediate i = some w → i.wf = true → s.prompt →
    ∃ t, exec i s = .next t ∧ WritesG s t w.rd w.lat (w.value s.rdG)

/-- Loads: g[rd] takes the bytes of the buffer, or of a core's data memory, after 3 cycles. A load that fails a check of R49 raises the trap
of the first that fails, with nothing written; a handler's checks the declaration, the alignment and the range alone (R295), and a core's
those of R391. -/
def Obligations.Loads : Prop :=
  ∀ (i : Instr) (a : Access) (s : State), loadOf i = some a → s.prompt →
    (a.readable s → ∃ t, exec i s = .next t ∧ WritesG s t a.rd 3 (a.value s)) ∧
    (∀ c, s.clocked = true → readFault s 0 a.buf (a.off s) a.n = some c → exec i s = .next (s.takeTrap (accessTrap c a.buf (a.off s)))) ∧
    (∀ c, s.inHandler = true → accessCheck true true (s.decl a.buf) (a.off s) a.n = some c →
      exec i s = .next (s.takeTrap (accessTrap c a.buf (a.off s)))) ∧
    (∀ c, s.atU = false → coreFault a.buf (a.off s) a.n = some c → exec i s = .next (s.takeTrap { cause := c }))

/-- Stores: the low bytes of g[rd] stand at the address, every other byte as before; at U the buffer becomes FULL at the end of the
cycle, which in a handler is the store's own, and a bound buffer's granules become dirty (R51, R59, R295); a handler's first store keeps
the tile's contents at the freeze for a later write-back (R316). A store that fails a check of R49
raises the trap of the first that fails, with nothing written; a core's checks are those of R391. -/
def Obligations.Stores : Prop :=
  ∀ (i : Instr) (a : Access) (s : State), storeOf i = some a → s.prompt →
    (a.writable s → ∃ t, exec i s = .next t ∧ OwnAgent s t ∧ OtherEngines s t ∧ fallsThrough s t ∧ sameG s t ∧
      (∀ k, localByte t k = if a.addr s ≤ k ∧ k < a.addr s + a.n
        then BitVec.ofNat 8 ((s.rdG a.rd).toNat / 256 ^ (k - a.addr s)) else localByte s k) ∧
      (s.atU = true →
        { t.ctile.bare with sram := s.ctile.sram, ecc := s.ctile.ecc, dirty := s.ctile.dirty, effs := s.ctile.effs, bufs := s.ctile.bufs,
                            atC := s.ctile.atC } = s.ctile.bare ∧
        t.ctile.atC = (if s.inHandler = true ∧ s.ctile.atC = none
          then some { sram := s.ctile.sram, dirty := s.ctile.dirty, ecc := s.ctile.ecc } else s.ctile.atC) ∧
        (s.inHandler = false → t.ctile.bufs = s.ctile.bufs ∧ t.ctile.effs = s.ctile.effs ++ [(s.now, .bufFull a.buf)] ∧
          (t.ctile.applyEff s.decl (.bufFull a.buf)).buf a.buf = { s.ctile.buf a.buf with st := .full }) ∧
        (s.inHandler = true → t.ctile.effs = s.ctile.effs ∧
          ∀ b, t.ctile.buf b = if b = a.buf then { s.ctile.buf b with st := .full } else s.ctile.buf b) ∧
        ∀ g, Store.get false g t.ctile.dirty = (Store.get false g s.ctile.dirty ||
          ((s.ctile.buf a.buf).bound && decide (a.addr s / 4096 ≤ g) && decide (g ≤ (a.addr s + a.n - 1) / 4096)))) ∧
      (s.atU = false → { t.ccore.bare with dmem := s.ccore.dmem } = s.ccore.bare)) ∧
    (∀ c, s.atU = true → writeFault s 0 a.buf (a.off s) a.n = some c → exec i s = .next (s.takeTrap (accessTrap c a.buf (a.off s)))) ∧
    (∀ c, s.atU = false → coreFault a.buf (a.off s) a.n = some c → exec i s = .next (s.takeTrap { cause := c }))

/-- Branches, JAL and JALR (R156, R157): a taken branch goes to its target and another falls through; a jump goes to its target, and its
link is the following step. A target outside steps 0 to 65,535 raises ILL, of a branch only when it is taken, and nothing is written. -/
def Obligations.BranchesAndJumps : Prop :=
  ∀ (i : Instr) (s : State), s.prompt →
    (∀ (rs rt : Nat) (off : Int) (c : Word → Word → Bool), branchOf i = some (rs, rt, off, c) →
      (c (s.rdG rs) (s.rdG rt) = true → 0 ≤ (s.cur.step : Int) + off ∧ (s.cur.step : Int) + off < 65536) →
      ∃ t, exec i s = .next t ∧ OnlyG s t ∧ sameG s t ∧
        (c (s.rdG rs) (s.rdG rt) = true → Transfers s t ((s.cur.step : Int) + off).toNat) ∧
        (c (s.rdG rs) (s.rdG rt) = false → fallsThrough s t)) ∧
    (∀ (rs rt : Nat) (off : Int) (c : Word → Word → Bool), branchOf i = some (rs, rt, off, c) → c (s.rdG rs) (s.rdG rt) = true →
      ¬ (0 ≤ (s.cur.step : Int) + off ∧ (s.cur.step : Int) + off < 65536) → exec i s = .next (s.takeTrap ill)) ∧
    (∀ (rd : Nat) (p : Word), linkOf s i = some (rd, p) → 65536 ≤ p.toNat → exec i s = .next (s.takeTrap ill)) ∧
    (∀ (rd : Nat) (p : Word), linkOf s i = some (rd, p) → p.toNat < 65536 →
      ∃ t, exec i s = .next t ∧ OnlyG s t ∧ Transfers s t p.toNat ∧
        (t.rdG rd = if rd = 0 then 0 else BitVec.ofNat 64 s.cur.nextStep) ∧ ∀ k, k ≠ rd → t.rdG k = s.rdG k)

/-- LOOP (R158, R159): a count of zero skips the body; otherwise the loop is pushed. A fifth loop, or a body that ends beyond the innermost
one, raises ILL. Where the innermost loop ends at the step that has issued, its count falls, control returns to the start
while it is not zero, and the entry is popped at zero, with the same test for the next loop. The last step may hold a prefix or STAMP of the
sequence that has issued (log entry 51, the model's reading of R120). -/
def Obligations.Loop : Prop :=
  (∀ (rs dist : Nat) (s : State), s.prompt → s.inHandler = false → s.loopsOf.length < 4 →
    (∀ l, s.loopsOf.head? = some l → s.cur.step + dist ≤ l.last) →
    ∃ t, exec (.loop rs dist) s = .next t ∧ OnlyG s t ∧ sameG s t ∧
      (s.rdG rs = 0 → (t.loopsOf, t.pcOf) = loopEnd (s.cur.step + dist) (s.cur.step + dist + 1) s.loopsOf ∧
        (s.clocked = true → (t.ctile.eng 0).next = s.now + 2)) ∧
      (s.rdG rs ≠ 0 → (t.loopsOf, t.pcOf) = seqEnd s.seqFirst s.cur.step s.cur.nextStep
        ({ start := s.cur.nextStep, last := s.cur.step + dist, count := s.rdG rs } :: s.loopsOf))) ∧
  (∀ (rs dist : Nat) (s : State), s.prompt → s.inHandler = false →
    4 ≤ s.loopsOf.length ∨ (∃ l, s.loopsOf.head? = some l ∧ l.last < s.cur.step + dist) →
    exec (.loop rs dist) s = .next (s.takeTrap ill)) ∧
  (∀ (step next : Nat) (l : LoopE) (r : List LoopE),
    (l.last ≠ step → loopEnd step next (l :: r) = (l :: r, next)) ∧
    (l.last = step → l.count ≠ 1 → loopEnd step next (l :: r) = ({ l with count := l.count - 1 } :: r, l.start)) ∧
    (l.last = step → l.count = 1 → loopEnd step next (l :: r) = loopEnd step next r)) ∧
  (∀ (first own next : Nat) (l : LoopE) (r : List LoopE),
    (first ≤ l.last → l.last ≤ own → seqEnd first own next (l :: r) = loopEnd l.last next (l :: r)) ∧
    (l.last < first ∨ own < l.last → seqEnd first own next (l :: r) = (l :: r, next)))

/-- ESTART, ESTOP, EBASE and EWAIT: the change stands in the tile's list of this cycle's end, and is the one of Table 1.2. ESTART and EBASE
of an engine that is not STOPPED raise ILL, and so does EBASE of a step of 65,536 or more (R161, R162). -/
def Obligations.EngineControl : Prop :=
  ∀ (e rs cont target : Nat) (s : State), s.clocked = true → s.prompt → hasEngine s e →
    ((s.ctile.eng e).st = .stopped → ∃ t, exec (.estart e rs cont) s = .next t ∧
      let f := Eff.engRun e (cont == 1) ((s.rdG rs).toNat % 2 ^ 32) s.now
      TileBecomes s t { s.ctile with effs := s.ctile.effs ++ [(s.now, f)] } ∧
      (engAfter s e f).st = .running ∧ (engAfter s e f).run = (s.rdG rs).toNat % 2 ^ 32 ∧ (engAfter s e f).tprev = s.now ∧
      (engAfter s e f).step = if cont = 1 then (s.ctile.eng e).pc else (s.ctile.eng e).base) ∧
    (∃ t, exec (.estop e) s = .next t ∧
      ((s.ctile.eng e).st = .running → TileBecomes s t { s.ctile with effs := s.ctile.effs ++ [(s.now, .engDrain e)] } ∧
        (engAfter s e (.engDrain e)).st = .draining) ∧
      ((s.ctile.eng e).st ≠ .running → Idles s t)) ∧
    ((s.ctile.eng e).st = .stopped → (s.rdG rs).toNat < 65536 → ∃ t, exec (.ebase e rs) s = .next t ∧
      TileBecomes s t { s.ctile with effs := s.ctile.effs ++ [(s.now, .engBase e (s.rdG rs).toNat)] } ∧
      (engAfter s e (.engBase e (s.rdG rs).toNat)).base = (s.rdG rs).toNat) ∧
    ((s.ctile.eng e).st = .stopped → ∃ t, exec (.ebaseTarget e target) s = .next t ∧
      TileBecomes s t { s.ctile with effs := s.ctile.effs ++ [(s.now, .engBase e target)] } ∧
      (engAfter s e (.engBase e target)).base = target) ∧
    ((s.ctile.eng e).st ≠ .stopped → exec (.estart e rs cont) s = .next (s.takeTrap ill) ∧ exec (.ebaseTarget e target) s = .next (s.takeTrap ill)) ∧
    ((s.ctile.eng e).st ≠ .stopped ∨ 65536 ≤ (s.rdG rs).toNat → exec (.ebase e rs) s = .next (s.takeTrap ill)) ∧
    ((s.ctile.eng e).st = .stopped → ∃ t, exec (.ewait e) s = .next t ∧ Idles s t)

namespace Sys2Proof.Claims
open Sys2Proof.Machine

/-! ## Tables of the schedule and system words -/

/-- The state but for its tiles and regions. -/
def offRegions (s : State) : State := { s with tiles := [], slots := [] }

/-- A word of SQ turns the tile in hand into `x` and its region into `r`, but for its issue bookkeeping; control falls through. -/
structure PairBecomes (s t : State) (x : Tile) (r : Slot) : Prop where
  rest : offRegions t = offRegions s
  tiles : ∀ p, p ≠ s.here → t.tile p = s.tile p
  slots : ∀ n, n ≠ s.slotNo → t.slot n = s.slot n
  region : t.region = r
  tile : t.ctile.bare = x.bare
  engines : OtherEngines s t
  falls : fallsThrough s t

/-- The region in hand with one more barrier of a scope counted for the tile in hand (R29, R170). -/
def counted (s : State) (scope : Nat) : Slot :=
  let r := s.region
  let k := barKey s.cur.tile scope
  { r with bars := Store.put 0 k (r.barCount s.cur.tile scope + 1) r.bars, barAt := Store.put 0 k r.rcc r.barAt }

/-- The tile and region registers that U reads (Tables 3.4 and 7.5 to 7.8), with what they hold. -/
def uRegister (s : State) : Nat → Option Word
  | 0x000 => some (BitVec.ofNat 64 (s.region.rcc % 2 ^ 48))
  | 0x001 => some (BitVec.ofNat 64 (s.ctile.frmorg % 2 ^ 48))
  | 0x002 => some (BitVec.ofNat 64 (s.ctile.segcyc % 2 ^ 48))
  | 0x003 => some (BitVec.ofNat 64 (s.cur.tile / s.region.w + s.cur.tile % s.region.w * 2 ^ 8 + s.region.h * 2 ^ 24 + s.region.w * 2 ^ 32 + s.cur.tile * 2 ^ 48))
  | 0x004 => some (BitVec.ofNat 64 (s.img.mask % 2 ^ 8))
  | 0x005 => some (BitVec.ofNat 64 (s.region.landLimit + s.region.landHeld % 2 ^ 25 * 2 ^ 32))
  | 0x006 => some s.ctile.srseed
  | 0x007 => some (BitVec.ofNat 64 (s.ctile.fstepV % 2 ^ 48))
  | 0x008 => some (BitVec.ofNat 64 (s.ctile.fstepM % 2 ^ 48))
  | 0x009 => some (BitVec.ofNat 64 ((s.snap s.region.job).rolledTo % 2 ^ 32))
  | 0x00A => some (if s.region.snapok then 1 else 0)
  | 0x00B => some (BitVec.ofNat 64 (s.region.ix % 2 ^ 16 + s.region.iy % 2 ^ 16 * 2 ^ 16 + s.region.iz % 2 ^ 16 * 2 ^ 32))
  | 0x010 => some s.ctile.tcause
  | 0x011 => some s.ctile.tstep
  | 0x012 => some s.ctile.topd0
  | 0x013 => some s.ctile.topd1
  | 0x014 => some s.ctile.tret
  | n => if 0x100 ≤ n ∧ n ≤ 0x11F then some (Store.get 0 (n - 0x100) s.ctile.sw) else none

/-- A flag of a register at its bit. -/
def flagAt (c : Bool) (n : Nat) : Nat := if c then 2 ^ n else 0
/-- The unit registers that a core reads with no effect (Tables 16.1, 16.2, 18.4, 20.1, 24.1 and 26.1), with what they hold; POTCMD is write
only and reads zero. SNAREA and SNSTAT are those of a job (R325); EVQ and TBNOW change with the read. -/
def coreRegister (s : State) : Nat → Option Nat
  | 0x800 => some s.ccore.ccvec
  | 0x801 => some s.ccore.ccret
  | 0x802 => some (s.ccore.ccCause % 2 ^ 8 + flagAt s.ccore.ccInt 8)
  | 0x803 => some s.ccore.ipend
  | 0x804 => some s.ccore.imask
  | 0x808 => some (s.sdva * 2 ^ 12)
  | 0x809 => some (s.sdroot * 2 ^ 12)
  | 0x80A => some (flagAt s.sdgo 0 + flagAt s.sdall 1 + s.sdsize % 4 * 2 ^ 8)
  | 0x820 => some s.snsel
  | 0x823 => some s.sndrop
  | 0x840 => some s.vifsel
  | 0x841 => let v := s.vifOf s.vifsel
    some (flagAt v.en 0 + v.status * 2 ^ 2 + v.qlog % 2 ^ 5 * 2 ^ 4 + v.qbase / 4096 % 2 ^ 44 * 2 ^ 12)
  | 0x842 => some ((s.vifOf s.vifsel).ridx % 2 ^ 21 + (s.vifOf s.vifsel).widx % 2 ^ 21 * 2 ^ 32)
  | 0x843 => some (s.vifOf s.vifsel).ctl
  | 0x844 => some s.age
  | 0x845 => some (s.vifOf s.vifsel).world
  | 0x84F => some s.wsel
  | 0x850 => some 0
  | 0x851 => some (s.potDone % 2 ^ 28 + s.potErr % 2 ^ 7 * 2 ^ 56 + flagAt s.potBusy 63)
  | 0x852 => some (s.wkWorld % 2 ^ 6 + flagAt s.wkBusy 8 + s.wkErr % 2 ^ 7 * 2 ^ 56 + flagAt s.wkBusy 63)
  | 0x853 => some (Store.get 0 s.wsel s.wlog)
  | 0x858 => some s.bcsel
  | 0x859 => some (s.bounce s.bcsel).ctl
  | 0x85A => some (s.bounce s.bcsel).ring
  | 0x85B => some ((s.bounce s.bcsel).ridx % 2 ^ 21 + (s.bounce s.bcsel).widx % 2 ^ 21 * 2 ^ 32)
  | 0x85C => let b := s.bounce s.bcsel
    some (b.cnt % 2 ^ 48 + b.err % 2 ^ 7 * 2 ^ 56 + flagAt b.resync 63)
  | 0x861 => some s.scrubp
  | 0x868 => some s.shedcap
  | 0x869 => some s.shedord
  | 0x871 => some s.tbwall.toNat
  | 0x872 => some (s.phase % 2 ^ 3 + flagAt s.rotsb 3 + ((List.range 8).map (fun d => flagAt (s.dieOk d) (4 + d))).sum +
      (s.ports.filter (fun e => e.2.up)).length % 2 ^ 6 * 2 ^ 18 + s.eth % 2 ^ 2 * 2 ^ 24)
  | 0x873 => some s.hbmsel
  | 0x874 => let c := Store.get ({} : Chan) s.hbmsel s.chans
    some (flagAt c.pass 0 + c.lane0.getD 0 % 2 ^ 7 * 2 ^ 8 + flagAt c.lane0.isSome 15 + c.lane1.getD 0 % 2 ^ 7 * 2 ^ 16 + flagAt c.lane1.isSome 23 +
      c.wrw % 2 ^ 8 * 2 ^ 24 + c.rdw % 2 ^ 8 * 2 ^ 32 + c.wrc % 2 ^ 8 * 2 ^ 40 + c.rdc % 2 ^ 8 * 2 ^ 48 + c.st % 2 ^ 2 * 2 ^ 62)
  | 0x875 => some s.fwsel
  | 0x876 => some (Store.get 0 s.fwsel s.fwin)
  | 0x877 => some (s.ethdrop % 2 ^ 64)
  | 0x878 => some (s.pkgid % 2 ^ 13)
  | n => if 0x810 ≤ n ∧ n ≤ 0x81F then some (Store.get 0 (n - 0x810) s.wentry) else none

/-- The numbers that are reserved on a core: those below 0x100, those of Table 7.5's range that no sw has, and those from 0x800 that no chapter
assigns (R125, R126). -/
def coreReserved (n : Nat) : Prop :=
  n < 0x100 ∨ (0x120 ≤ n ∧ n < 0x800) ∨ (0x806 ≤ n ∧ n ≤ 0x807) ∨ (0x80B ≤ n ∧ n ≤ 0x80F) ∨ (0x824 ≤ n ∧ n ≤ 0x83F) ∨ (0x846 ≤ n ∧ n ≤ 0x84E) ∨
  (0x854 ≤ n ∧ n ≤ 0x857) ∨ (0x85D ≤ n ∧ n ≤ 0x860) ∨ (0x862 ≤ n ∧ n ≤ 0x867) ∨ (0x86A ≤ n ∧ n ≤ 0x86F) ∨ 0x879 ≤ n

/-- SNSTAT of a job (Table 20.1): the issuer, the committed snapshots, which its area's catalogue marks VALID with CSTATE 1 (Table 20.2), the
state and the id. -/
def snapStatus (s : State) (job : Nat) : Nat :=
  let x := s.snap job
  let entry (i : Nat) : Nat := leNat (s.rdPhys (x.area + (0x100 + 64 * i)) 8)
  let kept := (List.range 17).filter (fun i => decide (bits (entry i) 63 1 = 1 ∧ bits (entry i) 60 3 = 1))
  let st := match x.st with
    | .idle => 0
    | .cutting => 1
    | .recording => 2
    | .reported => 3
    | .rolling => 4
  x.issuer % 2 ^ 13 + (if x.area = 0 then 0 else kept.length) % 2 ^ 5 * 2 ^ 24 + st * 2 ^ 29 + x.id % 2 ^ 32 * 2 ^ 32

/-- The bits that a write stores in the unit registers of a core that a write changes and nothing else (Tables 16.2, 18.4, 20.1, 24.1,
26.1). -/
def plainBits : Nat → Option Nat
  | 0x800 => some 0xFFFF
  | 0x801 => some 0xFFFF
  | 0x804 => some 0x3F
  | 0x808 => some 0x00FFFFFFFFFFF000
  | 0x809 => some 0x000FFFFFFFFFF000
  | 0x820 => some 0xFFFFFFFFFFFFFFFF
  | 0x823 => some 0xFFFFFFFF
  | 0x840 => some 0xFF
  | 0x84F => some 0x3F
  | 0x858 => some 0xFF
  | 0x868 => some 0xFFFF
  | 0x871 => some 0xFFFFFFFFFFFFFFFF
  | 0x873 => some 0x1FF
  | 0x875 => some 0x7FF
  | n => if 0x810 ≤ n ∧ n ≤ 0x81F then some 0xFFFF else none

/-- What a core's write of `v` to a unit register makes of the package, where it takes no other condition than the table's own: the stored
bits of the fields (Tables 16.1, 16.2, 18.4, 20.1, 24.1 and 26.1). VIFIDX keeps its value while the queue is enabled, and VIFWORLD while it
is or a node of the VIF stands (R277); a zero AGECTL, and a SHEDORD that does not name every class, is ignored; SDCTL.GO latches the
page and the root, POTCMD and GEN start their work, and do nothing while one runs (R315, R356). -/
def unitWritten (s : State) (v : Nat) : Nat → Option State
  | 0x800 => some (s.setCcore { s.ccore with ccvec := v % 2 ^ 16 })
  | 0x801 => some (s.setCcore { s.ccore with ccret := v % 2 ^ 16 })
  | 0x804 => some (s.setCcore { s.ccore with imask := v % 2 ^ 6 })
  | 0x808 => some { s with sdva := bits v 12 44 }
  | 0x809 => some { s with sdroot := bits v 12 40 }
  | 0x80A =>
    let fields : State := { s with sdsize := bits v 8 2, sdall := v.testBit 1 }
    some (if v.testBit 0 = true ∧ s.sdgo = false
      then { fields with sdgo := true, sdwait := List.range 8, sdNow := (s.sdva, s.sdroot, bits v 8 2, v.testBit 1) } else fields)
  | 0x820 => some { s with snsel := v }
  | 0x823 => some { s with sndrop := v % 2 ^ 32 }
  | 0x840 => some { s with vifsel := v % 2 ^ 8 }
  | 0x842 => let x := s.vifOf s.vifsel
    some (if x.en then s else s.setVif s.vifsel { x with widx := bits v 32 21, ridx := bits v 0 21 })
  | 0x843 => some (s.setVif s.vifsel { s.vifOf s.vifsel with ctl := v % 2 ^ 33 })
  | 0x844 => some (if v % 2 ^ 32 = 0 then s else { s with age := v % 2 ^ 32 })
  | 0x845 => let x := s.vifOf s.vifsel
    some (if x.en || s.nodes.any (fun m => m.vif == s.vifsel) then s else s.setVif s.vifsel { x with world := v % 2 ^ 6 })
  | 0x84F => some { s with wsel := v % 2 ^ 6 }
  | 0x850 => some (if s.potBusy then s
      else { s with potBusy := true, potErr := 0, potDone := 0, potCmd := some (bits v 62 2, bits v 56 6, bits v 12 28, bits v 0 12) })
  | 0x852 => let fields : State := { s with wkWorld := v % 2 ^ 6 }
    some (if v.testBit 8 = true ∧ s.wkBusy = false then { fields with wkBusy := true, wkGen := v % 2 ^ 6 } else fields)
  | 0x853 => some { s with wlog := Store.put 0 s.wsel (bits v 12 44 * 2 ^ 12 + bits v 63 1 * 2 ^ 63) s.wlog }
  | 0x858 => some { s with bcsel := v % 2 ^ 8 }
  | 0x85A => some (s.setBounce s.bcsel { s.bounce s.bcsel with ring := bits v 0 4 + bits v 12 40 * 2 ^ 12 })
  | 0x85B => some (s.setBounce s.bcsel { s.bounce s.bcsel with widx := bits v 32 21, ridx := bits v 0 21 })
  | 0x868 => some { s with shedcap := v % 2 ^ 16 }
  | 0x869 => some (if ∀ c ∈ List.range 16, ∃ i ∈ List.range 16, bits v (4 * i) 4 = c then { s with shedord := v } else s)
  | 0x871 => some { s with tbwall := BitVec.ofNat 64 v }
  | 0x873 => some { s with hbmsel := v % 2 ^ 9 }
  | 0x875 => some { s with fwsel := v % 2 ^ 11 }
  | 0x876 => some { s with fwin := Store.put 0 s.fwsel (bits v 0 13 + bits v 63 1 * 2 ^ 63) s.fwin }
  | n => if 0x810 ≤ n ∧ n ≤ 0x81F then some { s with wentry := Store.put 0 (n - 0x810) (v % 2 ^ 16) s.wentry } else none

/-- A write of VIFQ makes `u` of the package (R277): while EN = 1 it stores EN alone; else every field, and EN := 1 is refused with
STATUS := RANGE unless the configuration passes. Before phase 2 it enables nothing (log entry 24). A page whose walk the write still waits
for is not this case. -/
structure QueueWritten (s u : State) (v : Nat) : Prop where
  runs : (s.vifOf s.vifsel).en = true →
    u = if v.testBit 0 then s else s.setVif s.vifsel { s.vifOf s.vifsel with en := false, status := 0 }
  stores : (s.vifOf s.vifsel).en = false →
    let y : Vif := { s.vifOf s.vifsel with qbase := bits v 12 44 * 4096, qlog := bits v 4 5 }
    let legal : Prop := 12 ≤ y.qlog ∧ y.qlog ≤ 20 ∧ y.qbase % 2 ^ y.qlog = 0 ∧ y.ridx = y.widx ∧ y.ridx % 64 = 0 ∧ y.ridx < 2 ^ (y.qlog + 1)
    (v.testBit 0 = false ∨ s.phase < 2 → u = s.setVif s.vifsel y) ∧
    (v.testBit 0 = true → 2 ≤ s.phase → ¬ legal → u = s.setVif s.vifsel { y with status := 2 }) ∧
    ∀ ps, v.testBit 0 = true → 2 ≤ s.phase → legal → s.translateRange (vifCtx s.vifsel) y.qbase (2 ^ y.qlog) kWrite = .ok ps →
      u = s.setVif s.vifsel { y with status := 1, en := true }

/-- A write of BCCTL makes `u` of the package (R366): its fields are stored, and EN := 1 takes effect where ring, window and key pass;
else EN stays 0 and BCSTAT.ERR is RANGE. How the window's pages are checked is log entry 39. -/
structure ChannelWritten (s u : State) (v : Nat) : Prop where
  off : v.testBit 63 = false → u = s.setBounce s.bcsel { s.bounce s.bcsel with ctl := bits v 0 4 + bits v 12 51 * 2 ^ 12 }
  on : v.testBit 63 = true →
    let y : Bounce := { s.bounce s.bcsel with ctl := bits v 0 4 + bits v 12 51 * 2 ^ 12 }
    let legal : Prop := y.world ≠ 0 ∧ bits y.ring 0 4 ≤ 8 ∧ y.key.isSome = true ∧ s.ringOk y = true
    let kind := if y.out then kRead else kWrite
    (¬ legal ∨ s.bounceCtx y = none → u = s.setBounce s.bcsel { y with err := 9 }) ∧
    (∀ ctx k a, legal → s.bounceCtx y = some ctx → s.translateRange ctx y.win y.wsize kind = .code k a → u = s.setBounce s.bcsel { y with err := 9 }) ∧
    ∀ ctx ps, legal → s.bounceCtx y = some ctx → s.translateRange ctx y.win y.wsize kind = .ok ps → ∃ d, u = s.setBounce s.bcsel
      { y with ctl := 2 ^ 63 + y.ctl, desc := d, asked := none } ∧ (y.out = false → d = none)

/-- No snapshot of the job runs or holds a buffer of it, and no region of it stands stowed: a cut asks its regions to stop. -/
structure Startable (s : State) (k : Nat) : Prop where
  idle : (s.snap k).st = .idle
  bufs : ∀ n, n ∈ s.slotsOf k → s.nextSnapped n = none ∧ (s.slot n).st ≠ .stowed
  some_ : s.slotsOf k ≠ []

/-- A snapshot of a job has started here (R180, R327 to R329). -/
structure CutStarts (s t : State) (k id issuer : Nat) (closed : List Nat) (who : Option (Nat × Nat × Bool)) : Prop where
  st : (t.snap k).st = .cutting
  id : (t.snap k).id = id
  issuer : (t.snap k).issuer = issuer
  started : (t.snap k).started = s.tb
  closed : (t.snap k).closed = closed ∧ (t.snap k).cutSlots = [] ∧ (t.snap k).reports = []
  who : (t.snap k).who = who
  slots : ∀ n, t.slot n = if n ∈ s.slotsOf k then { s.slot n with cutReq := true } else s.slot n

/-- A rollback of a job has started here (R339): its regions freeze as by FREEZE. -/
structure RollStarts (s t : State) (k id : Nat) (markers : List Nat) (who : Option (Nat × Nat × Bool)) : Prop where
  st : (t.snap k).st = .rolling
  id : (t.snap k).rollId = id
  markers : (t.snap k).markers = markers
  who : (t.snap k).rollWho = who
  running : ∀ n, n ∈ s.slotsOf k → (s.slot n).st = .running → (s.slot n).held = false → (s.slot n).ended = false → t.slot n = { s.slot n with fz := true }
  held : ∀ n, n ∈ s.slotsOf k → (s.slot n).st = .running → (s.slot n).held = true ∨ (s.slot n).ended = true → (t.slot n).st = .frozen
  others : ∀ n, ¬ (n ∈ s.slotsOf k ∧ (s.slot n).st = .running) → t.slot n = s.slot n
/-- Some region of a job runs on to the end of its cycle. -/
def someRuns (s : State) (k : Nat) : Prop := ∃ n, n ∈ s.slotsOf k ∧ (s.slot n).st = .running ∧ (s.slot n).held = false ∧ (s.slot n).ended = false

end Sys2Proof.Claims

open Sys2Proof Sys2Proof.Machine Sys2Proof.Claims

/-! ## Schedule and synchronisation words -/

/-- The waits of SQ. Those that are met let control go on and change nothing: EWAIT, BAR.tile with no order in flight, WAITC, WAITCW. One that
is not met holds the word in an elastic segment and raises OVERRUN in a timed one: EWAIT, BAR.tile, WAITC, WAITCW, SEG, REND, ACOMMIT and
ADISCARD (R163, R166, R168, R170, R172, R173), and QFENCE, which then stalls the engines that it names (R171). That the OVERRUN of SEG and
QFENCE reports condition 3 is the model's reading (log entry 29), and so is that of ACOMMIT and ADISCARD (log entry 59). -/
def Obligations.Waits : Prop :=
  ∀ s : State, s.clocked = true → s.prompt →
    (∀ e, hasEngine s e → (s.ctile.eng e).st = .stopped → ∃ t, exec (.ewait e) s = .next t ∧ Idles s t) ∧
    (∀ sw, s.ctile.flights = [] → ∃ t, exec (.bar 1 sw) s = .next t ∧ Idles s t) ∧
    (∀ n, n ≤ (s.now + 2 ^ 48 - s.ctile.frmorg % 2 ^ 48) % 2 ^ 48 → ∃ t, exec (.waitc n) s = .next t ∧ Idles s t) ∧
    (∀ sw p, p < 2 → (Store.get 0 sw s.ctile.sw).getMsbD 0 = (p == 1) → ∃ t, exec (.waitcw sw p) s = .next t ∧ Idles s t) ∧
    (∀ i : Instr, s.ctile.seg.opened = true →
      ((∃ e, i = .ewait e ∧ hasEngine s e ∧ (s.ctile.eng e).st ≠ .stopped) ∨
        (∃ n, i = .waitc n ∧ (s.now + 2 ^ 48 - s.ctile.frmorg % 2 ^ 48) % 2 ^ 48 < n) ∨
        (∃ sw p, i = .waitcw sw p ∧ p < 2 ∧ (Store.get 0 sw s.ctile.sw).getMsbD 0 ≠ (p == 1)) ∨
        (∃ sw, i = .bar 1 sw ∧ s.ctile.flights ≠ []) ∨
        (∃ h, i = .seg h ∧ s.ctile.flights ≠ []) ∨
        (i = .rend ∧ ∃ e, 1 ≤ e ∧ e ≤ 5 ∧ (s.ctile.eng e).st ≠ .stopped) ∨
        (∃ h, (i = .acommit h ∨ i = .adiscard h) ∧ ∃ f, f ∈ s.ctile.flights ∧ bits f.accW h 1 = 1)) →
      exec i s = if s.ctile.seg.elastic then .next s else .next (s.takeTrap (overrun 3 s.now))) ∧
    (∀ scope emask, s.ctile.seg.opened = true → s.ctile.quietOf emask = false ∨ s.ctile.performed emask = false →
      exec (.qfence scope emask) s = if s.ctile.seg.elastic then .next (s.setCtile { s.ctile with fence := Store.put 0 0 emask s.ctile.fence })
        else .next (s.takeTrap (overrun 3 s.now)))

/-- BAR of a wider scope and FRAME, when every participant is there: the tile's count goes up, and FRAME sets the origin and zeroes
both frame step counts (R29, R165, R170); when one is missing, the word is held in an elastic segment, and in a timed one OVERRUN is raised,
or ILL for a scope of .die and wider. BAR.pod tells each other package of the job that this one is there, once: `podSent` then holds the count told,
and nothing is sent to one that has been told, or where a participant of this package is missing; while it waits it holds the job's
remote timeout, and when that has ended the wait its status word completes with TIMEOUT. In a timed segment a BAR of .die, .pkg or .pod raises
ILL whoever is there. From when the timeout of BAR.pod counts, and that its end lets SQ go on, are the model's choices (log entry 36); who
takes part in a scope wider than the region is log entry 47. -/
def Obligations.Barriers : Prop :=
  ∀ s : State, s.clocked = true → s.prompt →
    (∀ scope sw, 2 ≤ scope → scope ≤ 5 → (4 ≤ scope → s.ctile.timed = false) → s.barMet scope = true →
      ∃ t, exec (.bar scope sw) s = .next t ∧ PairBecomes s t s.ctile (counted s scope)) ∧
    (s.barMet 7 = true → ∃ t, exec .frame s = .next t ∧
      PairBecomes s t { s.ctile with frmorg := s.now, fstepV := 0, fstepM := 0 } (counted s 7)) ∧
    (∀ (scope sw : Nat) (i : Instr), (i = .bar scope sw ∧ 2 ≤ scope ∧ scope ≤ 5) ∨ (i = .frame ∧ scope = 7) → s.ctile.seg.opened = true →
      s.barMet scope = false →
      exec i s = if s.ctile.seg.elastic then .next s
        else .next (s.takeTrap (if 4 ≤ scope ∧ scope ≤ 5 then { cause := .ill } else overrun 3 s.now))) ∧
    (∀ scope sw, 4 ≤ scope → scope ≤ 6 → s.ctile.timed = true → exec (.bar scope sw) s = .next (s.takeTrap ill)) ∧
    (∀ sw, s.ctile.timed = false →
      let n := (counted s 6).barCount s.cur.tile 6
      let went : Tile := { s.ctile with bgate := none, podDue := none }
      let knows (p : Nat) : Prop := ∃ q, q ∈ s.podSent ∧ q.1 = p ∧ q.2.1 = s.region.world ∧ q.2.2.1 = s.region.jobid ∧ n ≤ q.2.2.2
      ∃ (t u : State), exec (.bar 6 sw) s = .next t ∧
        (s.barHere 6 = false ∨ (∀ p, p ∈ s.podPackages s.slotNo → knows p) → u = s) ∧
        (s.barHere 6 = true → ∃ ps : List Nat, (∀ p, p ∈ ps ↔ p ∈ s.podPackages s.slotNo ∧ ¬ knows p) ∧ ps.Nodup ∧
          u.outbox = s.outbox ++ ps.map (fun p => .podBar p s.region.world s.region.jobid n) ∧
          (∀ p, p ∈ s.podPackages s.slotNo → ∃ q, q ∈ u.podSent ∧ q.1 = p ∧ q.2.1 = s.region.world ∧ q.2.2.1 = s.region.jobid ∧ n ≤ q.2.2.2) ∧
          (∀ q, q ∈ u.podSent → q ∈ s.podSent ∨ q.1 ∈ ps ∧ q = (q.1, s.region.world, s.region.jobid, n)) ∧
          { u with podSent := s.podSent, outbox := s.outbox } = s) ∧
        (∀ q, q ∈ s.podSent → q ∈ u.podSent ∨ q.2.1 = s.region.world ∧ q.2.2.1 = s.region.jobid ∧ q.2.2.2 < n) ∧
        (s.ctile.bgate ≠ some n → s.barMet 6 = true → PairBecomes u t went (counted s 6)) ∧
        (s.ctile.bgate ≠ some n → s.barMet 6 = false → t = if s.ctile.podDue.isSome then u
          else u.setCtile { s.ctile with podDue := some (s.tb + 1000 * (if s.region.rtmo = 0 then 1000000 else s.region.rtmo)) }) ∧
        (s.ctile.bgate = some n → PairBecomes u t { went with
          sw := Store.put 0 sw (swMake (!(Store.get 0 sw s.ctile.sw).getMsbD 0) 4 0) s.ctile.sw } (counted s 6)))

/-- SEG whose checks pass (R166): the segment of its header opens, the colophon of every engine starts afresh, and no other engine
issues in its cycle; the entry record follows at the cycle's end. The colophon check comes first: in a timed segment a cycle count other
than the header's raises SDC, and in both modes a signature other than the header's does (R36); then a PENDING shadow raises SHADOW, a
malformed header ILL, and sets that break R52 SETS with the buffer. The segment is then not left. The header stands in the order store: an
uncorrectable error in its 32 words raises POISON once no shadow is PENDING (R318), before the header is judged (the model's order, log entry 20); the
other clauses are about a tile with no error mark. -/
def Obligations.OpenSegment : Prop :=
  ∀ (h : Nat) (s : State), s.clocked = true → s.prompt → s.ctile.flights = [] → s.stopAsked h = false →
    (s.ctile.ecc = [] → s.segCheck h = none → ∃ t, exec (.seg h) s = .next t ∧ OwnAgent s t ∧ fallsThrough s t ∧
      t.ctile.bare = ({ s.ctile with
        seg := s.ctile.segOf h, segcyc := s.now, quiet := true, lastPre := if s.ctile.hdrPre h then s.now else s.ctile.lastPre,
        effs := s.ctile.effs ++ [(s.now, .segEntry)] } : Tile).bare ∧
      (∀ e, 1 ≤ e → e ≤ 5 → t.ctile.eng e = { s.ctile.eng e with wcount := 0, crc := 0xFFFFFFFF }) ∧
      (t.ctile.eng 0).wcount = s.cur.raws.length ∧ (t.ctile.eng 0).crc = crcWords 0xFFFFFFFF s.cur.raws) ∧
    (s.ctile.seg.opened = true →
      let late := s.ctile.seg.elastic = false ∧ (s.now - s.ctile.segcyc) % 2 ^ 48 ≠ s.ctile.seg.cycles
      (late → exec (.seg h) s = .next (s.takeTrap { cause := .sdc, opd1 := 0 })) ∧
      (¬ late → s.ctile.signature ≠ s.ctile.seg.sig →
        exec (.seg h) s = .next (s.takeTrap { cause := .sdc, opd1 := 1 + s.ctile.signature.toNat * 2 ^ 32 }))) ∧
    (s.colophon = none →
      (s.ctile.sh0.st = .pending ∨ s.ctile.sh1.st = .pending → exec (.seg h) s = .next (s.takeTrap { cause := .shadow })) ∧
      (s.ctile.shadowPending = false → s.ctile.bad 4 (128 * h) 128 = true → exec (.seg h) s = .next (s.takeTrap (poisonTrap 4))) ∧
      (s.ctile.ecc = [] → s.ctile.shadowPending = false → s.ctile.hdrOk h = false → exec (.seg h) s = .next (s.takeTrap { cause := .ill })) ∧
      (∀ b, s.ctile.ecc = [] → s.ctile.shadowPending = false → s.ctile.hdrOk h = true →
        setsBad s.decl (!(s.ctile.hdr h 0).testBit 0) (s.ctile.hdrRset h) (s.ctile.hdrWset h) = some b →
        exec (.seg h) s = .next (s.takeTrap { cause := .sets, opd1 := b })))

/-- REND whose checks pass (R14, R27, R36, R41): SQ stops at the end of the cycle, and the tile has ended. The checks that fail: in a timed
segment a cycle count other than the header's raises SDC, and in both modes a signature other than the header's does; then a PENDING shadow
raises SHADOW, and a FIFO that is not empty TOKEN, which names the first. While a snapshot waits for its cut REND stops its tile instead, as at
a boundary (R329). -/
def Obligations.EndOfRegion : Prop :=
  ∀ s : State, s.clocked = true → s.prompt → (∀ e, 1 ≤ e → e ≤ 5 → (s.ctile.eng e).st = .stopped) →
    (s.region.cutReq = true → exec .rend s = .next (s.setCtile s.ctile.stop)) ∧
    (s.region.cutReq = false →
      (s.colophon = none → s.ctile.shadowPending = false → (∀ i, i < 30 → Store.get 0 i s.ctile.tokens = 0) →
        ∃ t, exec .rend s = .next t ∧ OwnAgent s t ∧ OtherEngines s t ∧ t.pcOf = s.cur.nextStep ∧ t.loopsOf = s.loopsOf ∧
          t.ctile.bare = ({ s.ctile with effs := s.ctile.effs ++ [(s.now, .rended)] } : Tile).bare ∧
          (s.ctile.applyEff s.decl .rended).rended = true ∧ ((s.ctile.applyEff s.decl .rended).eng 0).st = .stopped) ∧
      (s.ctile.seg.opened = true →
        let late := s.ctile.seg.elastic = false ∧ (s.now - s.ctile.segcyc) % 2 ^ 48 ≠ s.ctile.seg.cycles
        (late → exec .rend s = .next (s.takeTrap { cause := .sdc, opd1 := 0 })) ∧
        (¬ late → s.ctile.signature ≠ s.ctile.seg.sig →
          exec .rend s = .next (s.takeTrap { cause := .sdc, opd1 := 1 + s.ctile.signature.toNat * 2 ^ 32 }))) ∧
      (s.colophon = none →
        (s.ctile.sh0.st = .pending ∨ s.ctile.sh1.st = .pending → exec .rend s = .next (s.takeTrap { cause := .shadow })) ∧
        (∀ i, s.ctile.shadowPending = false → i < 30 → Store.get 0 i s.ctile.tokens ≠ 0 → (∀ j, j < i → Store.get 0 j s.ctile.tokens = 0) →
          exec .rend s = .next (s.takeTrap { cause := .token, opd1 := i }))))

/-- QFENCE of SQ, when the named engines have no order in flight and their writes are performed: it ends its own fence (R171); ACOMMIT
and ADISCARD of a PENDING tile commit or drop it at the end of the cycle, leave an EMPTY one alone, and raise SHADOW for a COMMITTED one
(R173, Table 8.11). -/
def Obligations.FenceAndShadow : Prop :=
  ∀ s : State, s.clocked = true → s.prompt →
    (∀ scope emask, s.ctile.quietOf emask = true → s.ctile.performed emask = true → ∃ t, exec (.qfence scope emask) s = .next t ∧
      TileBecomes s t { s.ctile with fence := Store.put 0 0 0 s.ctile.fence }) ∧
    (∀ h, s.ctile.accQuiet h = true → (s.ctile.shadow h).st = .pending →
      (∃ t, exec (.acommit h) s = .next t ∧ TileBecomes s t { s.ctile with
        effs := s.ctile.effs ++ [(s.now, .shadow h { st := .committed, partner := (s.ctile.shadow h).partner })] }) ∧
      (∃ t, exec (.adiscard h) s = .next t ∧ TileBecomes s t { s.ctile with effs := s.ctile.effs ++ [(s.now, .shadow h {})] })) ∧
    (∀ h, s.ctile.accQuiet h = true → (s.ctile.shadow h).st = .empty →
      (∃ t, exec (.acommit h) s = .next t ∧ Idles s t) ∧ ∃ t, exec (.adiscard h) s = .next t ∧ Idles s t) ∧
    (∀ h, s.ctile.accQuiet h = true → (s.ctile.shadow h).st = .committed →
      exec (.acommit h) s = .next (s.takeTrap { cause := .shadow }) ∧ exec (.adiscard h) s = .next (s.takeTrap { cause := .shadow }))

/-- COLO writes the signature view of an engine: its CRC state below, its word count above (R167). A STAMP waits in its engine for the order that follows,
and takes no other effect; a second one raises ILL (R30). That its word counts in the signature view only with the order that follows is the
model's reading (log entry 32). -/
def Obligations.ColophonAndStamp : Prop :=
  (∀ (rd e : Nat) (s : State), s.clocked = true → s.prompt →
    ∃ t, exec (.colo rd e) s = .next t ∧
      WritesG s t rd 2 (BitVec.ofNat 32 (s.ctile.eng e).wcount ++ (s.ctile.eng e).crc)) ∧
  (∀ (n : Nat) (s : State), s.clocked = true →
    (s.ceng.stamp = none →
      (∃ t, exec (.stampFrame n) s = .next t ∧ OwnAgent s t ∧
        t.ctile = s.ctile.setEng s.cur.eng { s.ceng with
          step := s.cur.nextStep, stamp := some { seg := false, time := n, raw := s.cur.word, step := s.cur.step } }) ∧
      (∃ t, exec (.stampSeg n) s = .next t ∧ OwnAgent s t ∧
        t.ctile = s.ctile.setEng s.cur.eng { s.ceng with
          step := s.cur.nextStep, stamp := some { seg := true, time := n, raw := s.cur.word, step := s.cur.step } })) ∧
    (s.ceng.stamp ≠ none → exec (.stampFrame n) s = .next (s.takeTrap ill) ∧ exec (.stampSeg n) s = .next (s.takeTrap ill)))

/-! ## System words -/

/-- SRD: at U a register of Table 7.5, on a core its own status words and unit registers; EVQ pops the oldest event, or reads as not valid
(R301); SNAREA and SNSTAT are those of the job that SNSEL names (R325). At U a number from 0x800, and WORLD and TIMEOFF, raise PRIV, and a
reserved number ILL; on a core ILL for every reserved number, among them 0x000 to 0x0FF and 0x120 to 0x7FF (R126, R176). That WKCTL.GEN reads
as BUSY is the model's reading (log entry 38), and that SNAREA and SNSTAT read zero where SNSEL names no job is its choice (log entry 25). -/
def Obligations.ReadSystem : Prop :=
  ∀ (rd reg : Nat) (s : State), s.prompt →
    (∀ v, s.atU = true → uRegister s reg = some v → ∃ t, exec (.srd rd reg) s = .next t ∧ WritesG s t rd 2 v) ∧
    (s.atU = false → 0x100 ≤ reg → reg ≤ 0x11F → ∃ t, exec (.srd rd reg) s = .next t ∧ WritesG s t rd 2 (Store.get 0 (reg - 0x100) s.ccore.sw)) ∧
    (∀ v, s.atU = false → coreRegister s reg = some v → ∃ t, exec (.srd rd reg) s = .next t ∧ WritesG s t rd 2 (BitVec.ofNat 64 v)) ∧
    (s.atU = false → reg = 0x805 →
      let lost := min 127 s.evLost * 2 ^ 56
      (s.evq = [] → ∃ t u, exec (.srd rd reg) s = .next t ∧ { u with evLost := s.evLost } = s ∧ u.evLost = 0 ∧
        WritesG u t rd 2 (BitVec.ofNat 64 lost)) ∧
      (∀ e r, s.evq = e :: r → ∃ t u, exec (.srd rd reg) s = .next t ∧ { u with evq := s.evq, evLost := s.evLost } = s ∧ u.evq = r ∧ u.evLost = 0 ∧
        WritesG u t rd 2 (BitVec.ofNat 64 (2 ^ 63 + lost + e.cause % 2 ^ 8 * 2 ^ 48 + e.slot % 2 ^ 11 * 2 ^ 32 + e.detail % 2 ^ 32)))) ∧
    (s.atU = true → 0x800 ≤ reg ∨ reg = 0x020 ∨ reg = 0x021 → exec (.srd rd reg) s = .next (s.takeTrap priv)) ∧
    (s.atU = true → reg < 0x800 → reg ≠ 0x020 → reg ≠ 0x021 → uRegister s reg = none → exec (.srd rd reg) s = .next (s.takeTrap ill)) ∧
    (s.atU = false → reg = 0x821 → ∃ t, exec (.srd rd reg) s = .next t ∧ WritesG s t rd 2 (match s.handleNode s.snsel with
      | some x => BitVec.ofNat 64 (s.snap (s.nodeJob x)).area
      | none => 0)) ∧
    (s.atU = false → reg = 0x822 → ∃ t, exec (.srd rd reg) s = .next t ∧ WritesG s t rd 2 (match s.handleNode s.snsel with
      | some x => BitVec.ofNat 64 (snapStatus s (s.nodeJob x))
      | none => 0)) ∧
    (s.atU = false → coreReserved reg → exec (.srd rd reg) s = .next (s.takeTrap ill))

/-- SWR: at U only TRET, whose reserved bits stay zero; on a core its own status words, without their reserved bits 55:48, and the unit
registers, each with its own effect and no other: the plain ones then read as written in their stored bits; a one clears its bit of
CCIPEND; SDCTL.GO, POTCMD and GEN start their work; SNAREA is written where the job has no snapshot (R325), VIFQ as R277 has it, and
BCCTL.EN as R366. At U a number from 0x800, and WORLD and TIMEOFF, raise PRIV, and every other register ILL; on a core a read-only register
raises ILL (R126, R176). Where the rules are silent it follows the model's choices: VIFQ before phase 2 and TQ or CHQ stored above their
ranges (log entry 24), how the window of a channel is checked (log entry 39), that POTSTAT.ERR and NDONE are zero from the start of a POTCMD,
and that a write of WKCTL stores its WORLD while BUSY and has its GEN ignored then (log entry 38). -/
def Obligations.WriteSystem : Prop :=
  ∀ (reg rs : Nat) (s : State), s.prompt →
    (s.atU = true → reg = 0x014 → ∃ t, exec (.swr reg rs) s = .next t ∧
      TileBecomes s t { s.ctile with tret := s.rdG rs &&& 0x800000000000FFFF }) ∧
    (s.atU = true → reg ≠ 0x014 → reg < 0x800 → reg ≠ 0x020 → reg ≠ 0x021 → exec (.swr reg rs) s = .next (s.takeTrap ill)) ∧
    (s.atU = false → 0x100 ≤ reg → reg ≤ 0x11F → ∃ t, exec (.swr reg rs) s = .next t ∧ OwnAgent s t ∧ sameG s t ∧ fallsThrough s t ∧
      t.ccore.bare = ({ s.ccore with sw := Store.put 0 (reg - 0x100) (s.rdG rs &&& 0xFF00FFFFFFFFFFFF) s.ccore.sw } : CCore).bare) ∧
    (∀ m, s.atU = false → plainBits reg = some m → ∃ t, exec (.swr reg rs) s = .next t ∧ sameG s t ∧ fallsThrough s t ∧
      coreRegister t reg = some ((s.rdG rs).toNat &&& m) ∧ (∀ q k, q ≠ reg → plainBits q = some k → coreRegister t q = coreRegister s q) ∧
      t.mem = s.mem ∧ t.tiles = s.tiles ∧ t.slots = s.slots ∧ ∀ n, t.rdSw n = s.rdSw n) ∧
    (s.atU = false →
      let v := (s.rdG rs).toNat
      let leaves (p : State → Prop) : Prop := ∃ t u, exec (.swr reg rs) s = .next t ∧ p u ∧ OnlyG u t ∧ sameG u t ∧ fallsThrough s t
      (∀ w, unitWritten s v reg = some w → leaves (fun u => u = w)) ∧
      (reg = 0x803 → leaves (fun u => ∃ i, u = s.setCcore { s.ccore with ipend := i } ∧
        ∀ k, i.testBit k = (s.ccore.ipend.testBit k && !v.testBit k))) ∧
      (reg = 0x821 →
        (∀ x, s.handleNode s.snsel = some x → (s.snap (s.nodeJob x)).st = .idle → v % 2 ^ 21 = 0 → leaves (fun u =>
          u = s.setSnap (s.nodeJob x) { s.snap (s.nodeJob x) with area := bits v 21 31 * 2 ^ 21 })) ∧
        (s.handleNode s.snsel = none ∨ (∃ x, s.handleNode s.snsel = some x ∧ ((s.snap (s.nodeJob x)).st ≠ .idle ∨ v % 2 ^ 21 ≠ 0)) →
          leaves (fun u => u = s))) ∧
      (reg = 0x841 → s.sysWait reg (s.rdG rs) = none → leaves (fun u => QueueWritten s u v)) ∧
      (reg = 0x859 → s.sysWait reg (s.rdG rs) = none → leaves (fun u => ChannelWritten s u v))) ∧
    (s.atU = true → 0x800 ≤ reg ∨ reg = 0x020 ∨ reg = 0x021 → exec (.swr reg rs) s = .next (s.takeTrap priv)) ∧
    (s.atU = false → reg < 0x100 ∨ reg ∈ [0x802, 0x805, 0x822, 0x851, 0x85C, 0x861, 0x870, 0x872, 0x874, 0x877, 0x878] →
      exec (.swr reg rs) s = .next (s.takeTrap ill))

/-- TIME, and a core's read of TBNOW: the clock of the tile or core, plus, for TIME, the region's offset (R179, R380). A clock never goes back;
one that the latest correction pulse found ahead is held until the reference has passed it, and otherwise a reading lies within 2 ns of the
reference, not below the last one. The deviations are free values (log entry 3), and a core's offset of 0 is the model's choice (log entry
37). -/
def Obligations.Time : Prop :=
  ∀ (rd : Nat) (i : Instr) (off : Word) (s : State), s.prompt →
    (i = .time rd ∧ off = if s.atU then s.region.timeoff else 0) ∨ (i = .srd rd 0x870 ∧ s.atU = false ∧ off = 0) →
    ∃ (t : State) (d e : Nat), exec i s = .next t ∧ d < 5 ∧ e < 5 ∧ fallsThrough s t ∧ OtherEngines s t ∧
      let k := if s.atU then s.ctile.clk else s.ccore.clk
      let pulse := if k.epoch = s.pulses then k.hold else max k.last (max s.tbPulse (s.tbPulse + e - 2))
      let r := if s.tb ≤ pulse then pulse else max (max k.last pulse) (s.tb + d - 2)
      let k' : Clock := { last := r, hold := pulse, epoch := s.pulses }
      (t.rdG rd = if rd = 0 then 0 else BitVec.ofNat 64 r + off) ∧
      (∀ k, k ≠ rd → t.rdG k = s.rdG k) ∧ { t.offAgents with tick := s.tick } = s.offAgents ∧
      (s.atU = true → { t.ctile.bare with g := s.ctile.g } = ({ s.ctile with clk := k' } : Tile).bare) ∧
      (s.atU = false → { t.ccore.bare with g := s.ccore.g } = ({ s.ccore with clk := k' } : CCore).bare) ∧
      (∀ p, s.atU = false ∨ p ≠ s.here → t.tile p = s.tile p) ∧
      (∀ n, s.cur.agent ≠ .core n → t.core n = s.core n) ∧ ∀ n, s.cur.agent ≠ .walker n → t.walker n = s.walker n

/-- TRAP: at U the tile records BREAK with the code, and the program would continue after the word (R177); on a core the trap path
saves the step of the word and enters the vector, and a second one there stops the core and marks it failed (R302). In a handler TRAP is not
legal: ILL stands in the tile's record, the handler ends, and the fault is noted for the end of the handler cycle (R295).
ERET: a core returns to CCRET and leaves its trap path; in a handler SQ goes to TRET.STEP and the flag falls, and while another
tile's handler runs, or one has had a fault, nothing else happens but that TRET.REPLAY is kept as the ERET found it. The last ERET of a freeze
ends it (R296): where one found REPLAY = 1
the region replays, or is refused with ERR 4 and the control cores are told (R298); else, with BREAK alone, the region goes on at cycle c + 1, each trapping
SQ at its TRET.STEP, but joins the freeze of a rollback that waits, as the model has it of a region that would go on while its job's package is
ROLLING (log entry 26); else the control cores are told. At U outside a handler ERET raises ILL
(R178, R295, R302). That a replay needs an open segment, which R297 does not list, and that R296 judges the tiles whose record is of the present
freeze are the model's readings (log entry 19). -/
def Obligations.TrapAndReturn : Prop :=
  (∀ (code : Nat) (s : State), s.prompt →
    (s.clocked = true → s.ctile.trapNow = none → ∃ t, exec (.trap code) s = .next t ∧ OwnAgent s t ∧
      t.ctile = { s.ctile with
        trapNow := some { cause := .brk, eng := s.cur.eng, step := s.cur.step, opd0 := BitVec.ofNat 64 code, opd1 := 0, tret := some s.cur.nextStep },
        again := s.ctile.again ||| 2 ^ s.cur.eng }) ∧
    (s.atU = false → s.ccore.inTrap = false → ∃ t, exec (.trap code) s = .next t ∧ OwnAgent s t ∧
      t.ccore = { s.ccore with ccret := s.cur.first % 65536, ccCause := 0x11, ccInt := false, inTrap := true, step := s.ccore.ccvec }) ∧
    (∀ k, s.cur.agent = .core k → s.ccore.inTrap = true → ∃ t u, exec (.trap code) s = .next t ∧ u = { s with healthLog := s.healthLog ++ [k] } ∧
      OwnAgent u t ∧ t.ccore = { s.ccore with halted := true, failed := true }) ∧
    (s.inHandler = true → ∃ t, exec (.trap code) s = .next t ∧ offRegions t = offRegions s ∧ (∀ p, p ≠ s.here → t.tile p = s.tile p) ∧
      (∀ m, m ≠ s.slotNo → t.slot m = s.slot m) ∧ t.region = { s.region with hfault := true } ∧
      t.ctile.hflag = false ∧ t.ctile.tcause = BitVec.ofNat 64 (Cause.ill.code + s.cur.eng * 2 ^ 8 + s.now % 2 ^ 48 * 2 ^ 12) ∧
      t.ctile.tstep = BitVec.ofNat 64 s.cur.step ∧ t.ctile.engs = s.ctile.engs ∧ t.ctile.g = s.ctile.g ∧ t.ctile.sram = s.ctile.sram)) ∧
  (∀ s : State,
    (s.atU = false → ∃ t, exec .eret s = .next t ∧ OwnAgent s t ∧ t.ccore = { s.ccore with inTrap := false, step := s.ccore.ccret }) ∧
    (s.inHandler = true → s.prompt → s.region.hfault = true ∨
        (∃ k, k < s.region.count ∧ k ≠ s.cur.tile ∧ s.region.phys k ≠ s.here ∧ (s.tileAt s.slotNo k).hflag = true) →
      ∃ t, exec .eret s = .next t ∧ OwnAgent s t ∧ OtherEngines s t ∧ t.pcOf = s.ctile.tret.toNat % 65536 ∧ t.loopsOf = s.loopsOf ∧
        t.ctile.bare = ({ s.ctile with hflag := false, hreplay := s.ctile.tret.getLsbD 63 } : Tile).bare) ∧
    (s.inHandler = true → s.prompt → s.region.hfault = false → s.cur.tile < s.region.count → apart s.region →
        (∀ k, k < s.region.count → k ≠ s.cur.tile → (s.tileAt s.slotNo k).hflag = false) →
      let n := s.slotNo
      let r := s.region
      let stands (k : Nat) : Prop := k < r.count ∧ (s.tileAt n k).inFreeze = true
      let asks : Prop := ∃ k, stands k ∧ (if k = s.cur.tile then s.ctile.tret.getLsbD 63 else (s.tileAt n k).hreplay) = true
      let breaks : Prop := ∀ k, stands k → (s.tileAt n k).tcause.toNat % 256 = Cause.brk.code
      ∃ t, exec .eret s = .next t ∧ t.ctile.hflag = false ∧ t.mem = s.mem ∧ (∀ m, m ≠ n → t.slot m = s.slot m) ∧
        (asks → s.replayOk n = true → t.slot n = { r with replaying := true, replayCmd := false, handler := false }) ∧
        (asks → s.replayOk n = false → t.slot n = { r with err := 4, handler := false } ∧ told s t 1) ∧
        (¬ asks → breaks →
          ((s.snap r.job).st ≠ .rolling →
            t.slot n = { r with st := .running, trapped := false, handler := false, replaying := false, pos := 6 * r.count + 1 }) ∧
          ((s.snap r.job).st = .rolling → (t.slot n).st = .frozen ∧ (t.slot n).rcc = r.rcc ∧ (t.slot n).trapped = false) ∧
          ∀ k, k < r.count → let x := s.tileAt n k
            (∀ e, 1 ≤ e → (t.tileAt n k).eng e = x.eng e) ∧
            (x.again.testBit 0 = true → ((t.tileAt n k).eng 0).step = x.tret.toNat % 65536) ∧
            (x.again.testBit 0 = false → k ≠ s.cur.tile → (t.tileAt n k).eng 0 = x.eng 0)) ∧
        (¬ asks → ¬ breaks → t.slot n = { r with handler := false } ∧ told s t 1)) ∧
    (s.clocked = true → exec .eret s = .next (s.takeTrap ill)))

/-- NOP changes nothing but the flow of control, and counts as an issued word in the colophon (R175). HALT stops a core with no interrupt pending; the step after it is the one it wakes at (R184). At U it raises PRIV. -/
def Obligations.NopAndHalt : Prop :=
  ∀ s : State,
    (s.prompt → ∃ t, exec .nop s = .next t ∧ OnlyG s t ∧ sameG s t ∧ fallsThrough s t ∧
      (s.clocked = true → (t.ctile.eng 0).wcount = (s.ctile.eng 0).wcount + s.cur.raws.length ∧
        (t.ctile.eng 0).crc = crcWords (s.ctile.eng 0).crc s.cur.raws)) ∧
    (∀ n, s.cur.agent = .core n → (s.core n).pending = false → ∃ t, exec .halt s = .next t ∧ OwnAgent s t ∧ fallsThrough s t ∧
      t.ccore.bare = ({ s.ccore with halted := true } : CCore).bare) ∧
    (s.clocked = true → exec .halt s = .next (s.takeTrap priv))

/-- LDSYS and STSYS of physical memory on a core: eight bytes little-endian, every other byte as before (R183, R303). A line in error
and a page that a snapshot holds are not this case. An address that is not a multiple of 8 raises ALIGN. At U both words raise PRIV. That a
core's access to a page of world 1 to 63 raises OWNER is the model's reading (log entry 53): R357 names no trap of LDSYS and STSYS. The stow range,
XLATE and POISON are not part of this statement. -/
def Obligations.SystemMemory : Prop :=
  ∀ (r rs : Nat) (disp : Int) (s : State),
    let a := (s.rdG rs + BitVec.ofInt 64 (8 * disp)).toNat
    (∀ pa, s.atU = false → a = 2 ^ 63 + pa → pa % 8 = 0 → pa < Config.potBase → s.poison = [] → (s.potOf (pa / 4096)).world = 0 →
      (∀ n, s.cur.agent = .walker n → (s.walker n).inTrap = false) →
      (∃ t, exec (.ldsys r rs disp) s = .next t ∧
        WritesG s t r 1 (BitVec.ofNat 64 (leNat ((List.range 8).map (fun k => Store.get 0 (pa + k) s.mem))))) ∧
      (s.snaps = [] → ∃ t, exec (.stsys r rs disp) s = .next t ∧ sameG s t ∧ fallsThrough s t ∧ t.tiles = s.tiles ∧ t.slots = s.slots ∧
        ∀ k, Store.get 0 k t.mem = if pa ≤ k ∧ k < pa + 8 then BitVec.ofNat 8 ((s.rdG r).toNat / 256 ^ (k - pa)) else Store.get 0 k s.mem)) ∧
    (∀ n, s.cur.agent = .core n →
      (a % 8 ≠ 0 → exec (.ldsys r rs disp) s = .next (s.takeTrap { cause := .align }) ∧
        exec (.stsys r rs disp) s = .next (s.takeTrap { cause := .align })) ∧
      (∀ pa, a = 2 ^ 63 + pa → pa % 8 = 0 → pa < Config.potBase → (s.potOf (pa / 4096)).world ≠ 0 → (s.core n).walking = false →
        exec (.ldsys r rs disp) s = .next (s.takeTrap { cause := .owner }) ∧
        exec (.stsys r rs disp) s = .next (s.takeTrap { cause := .owner }))) ∧
    (s.clocked = true → exec (.ldsys r rs disp) s = .next (s.takeTrap priv) ∧ exec (.stsys r rs disp) s = .next (s.takeTrap priv))

/-- SNAP, ROLLB and KEYZ arm their status word with a count of 1. Where the checks pass, a snapshot of the job starts, a rollback of it
starts, the key slots of the world are being zeroised; where one fails, the word completes with its code and nothing starts (R180 to R182, R328, R338,
R339, R368). At U, SNAP needs SNAPOK and its own job, and ROLLB and KEYZ are S's alone. That a rollback freezes a region whose clock enable is
held, or that has ended, at once is the model's reading (log entry 13), and so is that a ROLLB which comes while the package is ROLLING answers
BUSY whatever its id, where R181 and R338 also name RANGE for one that is not committed (log entry 26). -/
def Obligations.LongSystemWords : Prop :=
  ∀ (rs rt sw : Nat) (s : State), s.prompt → s.inHandler = false →
    let id := (s.rdG rs).toNat % 2 ^ 32
    let w := (s.rdG rs).toNat
    let issues (i : Instr) (v : Word) (p : State → Prop) : Prop :=
      ∃ t, exec i s = .next t ∧ sameG s t ∧ fallsThrough s t ∧ t.rdSw sw = v ∧ (∀ n, n ≠ sw → t.rdSw n = s.rdSw n) ∧ p t
    let stands (t : State) : Prop := t.mem = s.mem ∧ t.slots = s.slots ∧ t.snaps = s.snaps ∧ t.keyz = s.keyz
    let own : Prop := s.atU = true → s.region.snapok = true ∧ rt = 0
    (∀ b ph, s.arm sw 1 = some (b, ph) →
      let code (n : Nat) : Word := swStatus (b.rdSw sw) n
      (∀ k, own → (s.atU = true → k = s.region.job) → (s.atU = false → s.runningJob (s.rdG rt).toNat = some k) → s.poison = [] →
        (id ≠ 0 → Startable s k → s.catFind k id = none → s.area k ≠ 0 → s.areaU k 0 8 = k / 64 →
          issues (.snap rs rt sw) (b.rdSw sw) (fun t => CutStarts s t k id s.pkgid [] (some (s.cur.code, sw, ph)))) ∧
        ((s.snap k).st ≠ .idle → issues (.snap rs rt sw) (code 8) stands) ∧
        ((s.snap k).st = .idle → id = 0 ∨ s.catFind k id ≠ none ∨ s.area k = 0 ∨ s.areaU k 0 8 ≠ k / 64 → issues (.snap rs rt sw) (code 6) stands)) ∧
      (s.atU = false →
        (s.runningJob (s.rdG rt).toNat = none → issues (.snap rs rt sw) (code 6) stands ∧ issues (.rollb rs rt sw) (code 9) stands) ∧
        (∀ k, s.runningJob (s.rdG rt).toNat = some k → s.poison = [] →
          (∀ i, (s.snap k).st = .idle → (∀ e, e ∈ s.inbox → e.2.job ≠ k) → someRuns s k → s.area k ≠ 0 → i ∈ s.committed k → s.catId k i = id →
            issues (.rollb rs rt sw) (b.rdSw sw) (fun t => RollStarts s t k id (s.peers k) (some (s.cur.code, sw, ph)))) ∧
          ((s.snap k).st = .rolling → issues (.rollb rs rt sw) (code 8) stands) ∧
          ((s.snap k).st ≠ .rolling → s.area k = 0 ∨ (∀ i, i ∈ s.committed k → s.catId k i ≠ id) → issues (.rollb rs rt sw) (code 9) stands)) ∧
        (1 ≤ w → w ≤ 63 → b.worldBusy w = false → issues (.keyz rs sw) (b.rdSw sw) (fun t => t.tiles = s.tiles ∧ t.mem = s.mem ∧
          t.keyz = s.keyz ++ [(w, some (s.cur.code, sw, ph))])) ∧
        (1 ≤ w → w ≤ 63 → b.worldBusy w = true → issues (.keyz rs sw) (code 8) stands) ∧
        (w = 0 ∨ 64 ≤ w → issues (.keyz rs sw) (code 9) stands))) ∧
    (s.atU = true →
      (s.region.snapok = false → exec (.snap rs rt sw) s = .next (s.takeTrap priv)) ∧
      (s.region.snapok = true → rt ≠ 0 → exec (.snap rs rt sw) s = .next (s.takeTrap ill)) ∧
      exec (.rollb rs rt sw) s = .next (s.takeTrap priv) ∧ exec (.keyz rs sw) s = .next (s.takeTrap priv))

/-- FMTSET and NESTCFG of SQ: the entry or the register changes at the end of the cycle; a token is popped before and pushed in the
issue cycle (R117, R261, R262). -/
def Obligations.FormatAndNest : Prop :=
  ∀ (c : Ctl) (k rs : Nat) (s : State), s.clocked = true → s.prompt → s.img.mxn = true → c.legal 0 = true → c.gap = 0 →
    (c.pops = true → s.ctile.token c.tq 0 ≠ 0) →
    let v := (s.rdG rs).toNat
    let done (i : Instr) (f : Eff) : Prop := ∃ t, exec i s = .next t ∧ OwnAgent s t ∧ OtherEngines s t ∧ fallsThrough s t ∧
      { t.ctile.plain with loops := s.ctile.loops } = s.ctile.plain ∧ t.ctile.effs = s.ctile.effs ++ [(s.now, f)] ∧
      (∀ q, Store.get 0 q t.ctile.tokens =
        if c.pops = true ∧ q = fifo c.tq 0 then Store.get 0 q s.ctile.tokens - 1 else Store.get 0 q s.ctile.tokens) ∧
      if c.pushes then ∃ g : Flight, t.ctile.flights = s.ctile.flights ++ [g] ∧ g.eng = 0 ∧ g.retire = some s.now ∧ g.push = some c.tq
      else t.ctile.flights = s.ctile.flights
    (entLegal (v % 2 ^ 32) = true → s.fmtBarred (v % 2 ^ 32) = false → done (.fmtset c k rs) (.fmt k (v % 2 ^ 32))) ∧
    (nestOk k v = true → done (.nestcfg c k rs) (.nest k v))

namespace Sys2Proof.Claims
open Sys2Proof.Machine

/-! ## VX -/

/-- A VX order issues without delay (R188 to R190). -/
structure VxReady (s : State) (c : Ctl) : Prop where
  due : Due s c
  ready : ∀ k, s.ctile.ready k ≤ s.now

/-- The lanes of width `w` that an order touches exist at this position: with VXALL = 0 none lies above bit 2,047 (R18, R188). -/
def Fits (s : State) (w : Nat) (lanes : List Nat) : Prop := s.img.vxall = true ∨ ∀ j, j ∈ lanes → w * (j + 1) ≤ 2048
/-- An order that meets every condition of VxReady raises ILL where a lane that it touches does not fit. -/
def Whole (s : State) (i : Instr) (fits : Prop) : Prop := ¬ fits → exec i s = .next (s.takeTrap ill)
/-- The active lanes of a type. -/
def activeLanes (s : State) (ty km : Nat) : List Nat := (List.range (laneCount ty)).filter (fun j => km = 0 ∨ (Store.get 0 km s.ctile.k).getLsbD j)

/-- A VX order has issued: the tile in hand is `x` but for the bookkeeping of orders, one more frame step is counted (R98), the results
`ws` are readable after `lat` cycles, and the order retires in cycle issue + lat - 1 with the changes `effs` (R189). -/
structure VxDone (s t : State) (c : Ctl) (lat : Nat) (ws : List Nat) (l : List (Nat × Eff)) (effs : List Eff) (x : Tile) : Prop where
  rest : restSame s t
  issued : ∃ f : Flight, Issued s t c f l ∧ f.retire = some (s.now + lat - 1) ∧ f.effs = effs
  tile : t.ctile.plain = ({ x with fstepV := s.ctile.fstepV + 1 } : Tile).plain
  results : ∀ k, k ∈ ws → t.ctile.ready k = s.now + lat

/-- A lane-wise VX order: destination, lane type, mask, latency, and the value of lane `j` before it is cut to the lane's width. -/
structure LaneOp where
  c : Ctl
  vd : Nat
  ty : Nat
  km : Nat
  lat : Nat
  value : State → Nat → Nat
  /-- The lanes that it reads beside the active ones. -/
  also : State → List Nat := fun _ => []

/-- The active lanes of vd take their values, and the others stand as before (R187); no other register of VX changes. -/
def LaneDone (s t : State) (o : LaneOp) : Prop :=
  ∃ v : VReg, VxDone s t o.c o.lat [keyV o.vd] [] [] { s.ctile with v := Store.put 0 o.vd v s.ctile.v } ∧
    ∀ j, j < laneCount o.ty → lane v (laneWidth o.ty) j =
      if o.km = 0 ∨ (Store.get 0 o.km s.ctile.k).getLsbD j then o.value s j % 2 ^ laneWidth o.ty
      else lane (Store.get 0 o.vd s.ctile.v) (laneWidth o.ty) j

/-- The lanes of an order fit the position. -/
def LaneOp.fits (o : LaneOp) (s : State) : Prop := Fits s (laneWidth o.ty) (activeLanes s o.ty o.km ++ o.also s)

/-- A result of MAJ 0x2D in a float type, rounded once (R84, R194). -/
def rounded (s : State) (x : VX) (j : Nat) (v : Val) : Nat := roundTo x.ty v x.rm false (s.vrnd x.rm j)
/-- A result in an integer type: modulo the width, or clamped under SAT. -/
def wrapped (x : VX) (i : Int) : Nat := if x.opt % 2 = 1 then intSat x.ty i else intBits x.ty i
/-- A result of MAJ 0x2D: the float value or the integer. -/
def numeric (s : State) (x : VX) (j : Nat) (v : Val) (i : Int) : Nat := if isFloat3 x.ty then rounded s x j v else wrapped x i
/-- The latency of the simple arithmetic orders (Table 10.1). -/
def simpleLat (ty : Nat) : Nat := if isFloat3 ty then 4 else 2

/-- MAJ 0x2D and 0x2E (R194, R195). -/
def vectorArith : Instr → Option LaneOp
  | .vadd c x => some ⟨c, x.vd, x.ty, x.km, simpleLat x.ty, fun s j => numeric s x j
      ((s.laneVal x.ty x.va j).add (s.laneVal x.ty x.vb j) x.rm) (s.laneInt x.ty x.va j + s.laneInt x.ty x.vb j), fun _ => []⟩
  | .vsub c x => some ⟨c, x.vd, x.ty, x.km, simpleLat x.ty, fun s j => numeric s x j
      ((s.laneVal x.ty x.va j).add (s.laneVal x.ty x.vb j).negate x.rm) (s.laneInt x.ty x.va j - s.laneInt x.ty x.vb j), fun _ => []⟩
  | .vmul c x => some ⟨c, x.vd, x.ty, x.km, simpleLat x.ty, fun s j => numeric s x j
      ((s.laneVal x.ty x.va j).mul (s.laneVal x.ty x.vb j)) (s.laneInt x.ty x.va j * s.laneInt x.ty x.vb j), fun _ => []⟩
  | .vfma c x => some ⟨c, x.vd, x.ty, x.km, simpleLat x.ty, fun s j => numeric s x j
      (((s.laneVal x.ty x.va j).mul (s.laneVal x.ty x.vb j)).add (s.laneVal x.ty x.vc j) x.rm)
      (s.laneInt x.ty x.va j * s.laneInt x.ty x.vb j + s.laneInt x.ty x.vc j), fun _ => []⟩
  | .vfms c x => some ⟨c, x.vd, x.ty, x.km, simpleLat x.ty, fun s j => numeric s x j
      (((s.laneVal x.ty x.va j).mul (s.laneVal x.ty x.vb j)).add (s.laneVal x.ty x.vc j).negate x.rm)
      (s.laneInt x.ty x.va j * s.laneInt x.ty x.vb j - s.laneInt x.ty x.vc j), fun _ => []⟩
  | .vmin c x => some ⟨c, x.vd, x.ty, x.km, simpleLat x.ty, fun s j => numeric s x j
      ((s.laneVal x.ty x.va j).vmin (s.laneVal x.ty x.vb j)) (min (s.laneInt x.ty x.va j) (s.laneInt x.ty x.vb j)), fun _ => []⟩
  | .vmax c x => some ⟨c, x.vd, x.ty, x.km, simpleLat x.ty, fun s j => numeric s x j
      ((s.laneVal x.ty x.va j).vmax (s.laneVal x.ty x.vb j)) (max (s.laneInt x.ty x.va j) (s.laneInt x.ty x.vb j)), fun _ => []⟩
  | .vabs c x => some ⟨c, x.vd, x.ty, x.km, simpleLat x.ty, fun s j => numeric s x j
      (s.laneVal x.ty x.va j).abs (s.laneInt x.ty x.va j).natAbs, fun _ => []⟩
  | .vneg c x => some ⟨c, x.vd, x.ty, x.km, simpleLat x.ty, fun s j => numeric s x j
      (s.laneVal x.ty x.va j).negate (-(s.laneInt x.ty x.va j)), fun _ => []⟩
  | .vdiv c x => some ⟨c, x.vd, x.ty, x.km, 18, fun s j =>
      divTo x.ty (s.laneVal x.ty x.va j) (s.laneVal x.ty x.vb j) x.rm (s.vrnd x.rm j), fun _ => []⟩
  | .vrsqrt c x => some ⟨c, x.vd, x.ty, x.km, 12, fun s j => TFn.rsqrt.eval x.ty (s.laneVal x.ty x.va j), fun _ => []⟩
  | .vexp2 c x => some ⟨c, x.vd, x.ty, x.km, 12, fun s j => TFn.exp2.eval x.ty (s.laneVal x.ty x.va j), fun _ => []⟩
  | .vlog2 c x => some ⟨c, x.vd, x.ty, x.km, 12, fun s j => TFn.log2.eval x.ty (s.laneVal x.ty x.va j), fun _ => []⟩
  | .vsigm c x => some ⟨c, x.vd, x.ty, x.km, 12, fun s j => TFn.sigm.eval x.ty (s.laneVal x.ty x.va j), fun _ => []⟩
  | .vtanh c x => some ⟨c, x.vd, x.ty, x.km, 12, fun s j => TFn.tanh.eval x.ty (s.laneVal x.ty x.va j), fun _ => []⟩
  | _ => none

/-- The logic, shifts and VMULHI of MAJ 0x2F (R197), with the hash of R209. -/
def vectorBits : Instr → Option LaneOp
  | .vand c x => some ⟨c, x.vd, x.ty, x.km, 2, fun s j => s.laneBits x.ty x.va j &&& s.laneBits x.ty x.vb j, fun _ => []⟩
  | .vor c x => some ⟨c, x.vd, x.ty, x.km, 2, fun s j => s.laneBits x.ty x.va j ||| s.laneBits x.ty x.vb j, fun _ => []⟩
  | .vxor c x => some ⟨c, x.vd, x.ty, x.km, 2, fun s j => s.laneBits x.ty x.va j ^^^ s.laneBits x.ty x.vb j, fun _ => []⟩
  | .vnot c x => some ⟨c, x.vd, x.ty, x.km, 2, fun s j => 2 ^ laneWidth x.ty - 1 - s.laneBits x.ty x.va j, fun _ => []⟩
  | .vshl c x => some ⟨c, x.vd, x.ty, x.km, 2, fun s j => s.laneBits x.ty x.va j <<< (s.laneBits x.ty x.vb j % laneWidth x.ty), fun _ => []⟩
  | .vshr c x => some ⟨c, x.vd, x.ty, x.km, 2, fun s j => s.laneBits x.ty x.va j >>> (s.laneBits x.ty x.vb j % laneWidth x.ty), fun _ => []⟩
  | .vsra c x => some ⟨c, x.vd, x.ty, x.km, 2, fun s j =>
      ((BitVec.ofNat (laneWidth x.ty) (s.laneBits x.ty x.va j)).sshiftRight (s.laneBits x.ty x.vb j % laneWidth x.ty)).toNat, fun _ => []⟩
  | .vmulhi c x => some ⟨c, x.vd, x.ty, x.km, 4, fun s j =>
      (BitVec.ofInt (laneWidth x.ty) (s.laneInt x.ty x.va j * s.laneInt x.ty x.vb j / 2 ^ laneWidth x.ty)).toNat, fun _ => []⟩
  | .vhash c x => some ⟨c, x.vd, x.ty, x.km, 6, fun s j =>
      let h := splitMix64 (splitMix64 (BitVec.ofNat 64 (s.laneBits x.ty x.va j)) ^^^ BitVec.ofNat 64 x.vc)
      if x.ty = 0x11 then h.toNat else h.toNat / 2 ^ 32, fun _ => []⟩
  | .vperm c x => some ⟨c, x.vd, x.ty, x.km, 4, fun s j =>
      if s.laneBits x.ty x.vb j < laneCount x.ty then s.laneBits x.ty x.va (s.laneBits x.ty x.vb j) else 0,
      fun s => ((activeLanes s x.ty x.km).map (s.laneBits x.ty x.vb)).filter (fun l => decide (l < laneCount x.ty))⟩
  | _ => none

/-- MAJ 0x36 (R207): the sum, difference and product modulo the register's q, of operands reduced first. -/
def vectorModular : Instr → Option (LaneOp × Nat)
  | .vaddm c x => some (⟨c, x.vd, 0x12, x.km, 3, fun s j =>
      (s.laneBits 0x12 x.va j + s.laneBits 0x12 x.vb j) % (s.rdQ x.rm).q, fun _ => []⟩, x.rm)
  | .vsubm c x => some (⟨c, x.vd, 0x12, x.km, 3, fun s j =>
      (((s.laneBits 0x12 x.va j : Int) - s.laneBits 0x12 x.vb j) % (s.rdQ x.rm).q).toNat, fun _ => []⟩, x.rm)
  | .vmulm c x => some (⟨c, x.vd, 0x12, x.km, 8, fun s j =>
      (s.laneBits 0x12 x.va j * s.laneBits 0x12 x.vb j) % (s.rdQ x.rm).q, fun _ => []⟩, x.rm)
  | _ => none

/-- The masks between masks of VMOVK (R201). -/
def maskMove (s : State) : Instr → Option (Ctl × Nat × Mask)
  | .vmovkAnd c x => some (c, x.vd, s.rdK x.va &&& s.rdK x.vb)
  | .vmovkOr c x => some (c, x.vd, s.rdK x.va ||| s.rdK x.vb)
  | .vmovkXor c x => some (c, x.vd, s.rdK x.va ^^^ s.rdK x.vb)
  | .vmovkNot c x => some (c, x.vd, ~~~ s.rdK x.va)
  | .vmovkVk c x => some (c, x.vd, (Store.get 0 x.va s.ctile.v).setWidth 512)
  | _ => none

/-- k[n] := m in a tile; k0 discards it. -/
def putK (x : Tile) (n : Nat) (m : Mask) : Tile := if n = 0 then x else { x with k := Store.put 0 n m x.k }
def putV (x : Tile) (n : Nat) (v : VReg) : Tile := { x with v := Store.put 0 n v x.v }

/-- An accumulator read, a load or a store of VX meets no bit error in the tile. -/
def noErrors (s : State) : Prop := s.ctile.ecc = []

/-- The byte offset of active lane `j` of a VX load or store: consecutive, or by the index lanes (R203). -/
def VMemOff (s : State) (m : VMem) (indexed : Bool) (j : Nat) : Nat :=
  64 * m.off + (if indexed then lane (Store.get 0 m.vi s.ctile.v) 32 j else j) * (laneWidth m.ty / 8)
/-- No earlier order of engine `e` is still to write one of `n` bytes of buffer `b`, or to make the buffer, EMPTY now, FULL by a write of
any of its bytes (R65, R190). -/
def Clear (s : State) (e b off n : Nat) : Prop :=
  let base := (s.decl b).base * 4096
  ∀ due g y data, (due, Eff.sram g y data) ∈ s.ctile.effs → g = e →
    (y + data.length ≤ base + off ∨ base + off + n ≤ y) ∧
    ((s.ctile.buf b).st = .empty → (due, Eff.bufFull b) ∈ s.ctile.effs → y + data.length ≤ base ∨ base + (s.decl b).len * 4096 ≤ y)
/-- Order `i` raises the trap of the first of its element accesses, in the order of `js`, that fails a check (R49, R190). -/
def FirstFault (s : State) (i : Instr) (js : List Nat) (b : Nat) (off : Nat → Nat) (fault : Nat → Option Cause) : Prop :=
  ∀ pre j post c, js = pre ++ j :: post → (∀ k, k ∈ pre → fault k = none) → fault j = some c → exec i s = .next (s.takeTrap (accessTrap c b (off j)))

end Sys2Proof.Claims

open Sys2Proof Sys2Proof.Machine Sys2Proof.Claims

/-! ## VX -/

/-- MAJ 0x2D to 0x2F, VHASH and VPERM lane by lane: every active lane of vd takes the result of R194, the function of R195, the bits of R197,
the lane of R200 or the hash of R209, and nothing else changes. At a position with VXALL = 0 an order that touches a lane above bit 2,047
raises ILL. -/
def Obligations.VectorLanes : Prop :=
  ∀ (i : Instr) (o : LaneOp) (s : State), vectorArith i = some o ∨ vectorBits i = some o → i.wf = true → VxReady s o.c →
    (o.fits s → ∃ t, exec i s = .next t ∧ LaneDone s t o) ∧ Whole s i (o.fits s)

/-- VADDM, VSUBM and VMULM: lane by lane modulo a valid modulus register; an invalid one raises ILL, in VNTT and VINTT
too (R207). -/
def Obligations.VectorModular : Prop :=
  (∀ (i : Instr) (o : LaneOp) (q : Nat) (s : State), vectorModular i = some (o, q) → i.wf = true → VxReady s o.c →
    (o.fits s → (s.rdQ q).valid = true → 0 < (s.rdQ q).q → ∃ t, exec i s = .next t ∧ LaneDone s t o) ∧
    ((s.rdQ q).valid = false → exec i s = .next (s.takeTrap ill)) ∧ Whole s i (o.fits s)) ∧
  (∀ (c : Ctl) (x : VX) (s : State), VxReady s c → (s.rdQ x.rm).valid = false →
    ((Instr.vntt c x).wf = true → exec (.vntt c x) s = .next (s.takeTrap ill)) ∧
    ((Instr.vintt c x).wf = true → exec (.vintt c x) s = .next (s.takeTrap ill)))

/-- VCMP writes every bit of the mask kd: the comparison in the active lanes, zero elsewhere (R196); VSEL takes each lane from va or vb
by the mask (R197). VBCAST copies one lane to every active lane, and a lane number past the last raises ILL (R200). -/
def Obligations.CompareSelect : Prop :=
  ∀ (c : Ctl) (x : VX) (s : State), VxReady s c →
    let act := Fits s (laneWidth x.ty) (activeLanes s x.ty x.km)
    let all := Fits s (laneWidth x.ty) (List.range (laneCount x.ty))
    let l := x.ext * 64 + x.vb
    ((Instr.vcmp c x).wf = true → Whole s (.vcmp c x) act ∧ (act → ∃ (t : State) (m : Mask), exec (.vcmp c x) s = .next t ∧
      VxDone s t c 2 (maskKey x.vd) [] [] (putK s.ctile x.vd m) ∧
      ∀ j, j < 512 → m.getLsbD j = (decide (j < laneCount x.ty) && s.active x.km j &&
        cmpHolds x.opt ((s.laneVal x.ty x.va j).cmp (s.laneVal x.ty x.vb j))))) ∧
    ((Instr.vsel c x).wf = true → Whole s (.vsel c x) all ∧ (all → ∃ (t : State) (v : VReg), exec (.vsel c x) s = .next t ∧
      VxDone s t c 2 [keyV x.vd] [] [] (putV s.ctile x.vd v) ∧
      ∀ j, j < laneCount x.ty → lane v (laneWidth x.ty) j = s.laneBits x.ty (if s.active x.km j then x.va else x.vb) j)) ∧
    ((Instr.vbcast c x).wf = true → Whole s (.vbcast c x) (act ∧ Fits s (laneWidth x.ty) [l]) ∧
      (l < laneCount x.ty → act → Fits s (laneWidth x.ty) [l] → ∃ t, exec (.vbcast c x) s = .next t ∧
        LaneDone s t { c := c, vd := x.vd, ty := x.ty, km := x.km, lat := 2, value := fun s _ => s.laneBits x.ty x.va l }) ∧
      (laneCount x.ty ≤ l → exec (.vbcast c x) s = .next (s.takeTrap ill)))

/-- VMOVK: the mask forms, the moves between a mask or a modulus register and a vector register, MU with every write of Q, and the moduli
that VMOVK.vq refuses (R86, R201). VMOVK.kv writes a whole register, which raises ILL with VXALL = 0. -/
def Obligations.MaskMoves : Prop :=
  ∀ s : State,
    (∀ (i : Instr) (c : Ctl) (kd : Nat) (m : Mask), maskMove s i = some (c, kd, m) → i.wf = true → VxReady s c →
      ∃ t, exec i s = .next t ∧ VxDone s t c 2 (maskKey kd) [] [] (putK s.ctile kd m)) ∧
    (∀ (c : Ctl) (x : VX), VxReady s c →
      ((Instr.vmovkKv c x).wf = true → Whole s (.vmovkKv c x) (s.img.vxall = true) ∧
        (s.img.vxall = true → ∃ t, exec (.vmovkKv c x) s = .next t ∧
          VxDone s t c 2 [keyV x.vd] [] [] (putV s.ctile x.vd ((s.rdK x.va).setWidth 4096)))) ∧
      ((Instr.vmovkQv c x).wf = true → ∃ (t : State) (v : VReg), exec (.vmovkQv c x) s = .next t ∧
        VxDone s t c 2 [keyV x.vd] [] [] (putV s.ctile x.vd v) ∧
        (∀ j, 1 ≤ j → j < 64 → lane v 64 j = lane (Store.get 0 x.vd s.ctile.v) 64 j) ∧
        lane v 64 0 = ((if (s.rdQ x.va).valid then 2 ^ 63 else 0) + (s.rdQ x.va).q) % 2 ^ 64) ∧
      ((Instr.vmovkVq c x).wf = true →
        let n := lane (Store.get 0 x.va s.ctile.v) 64 0
        (3 ≤ n → n < 2 ^ 62 → n % 2 = 1 → ∃ t, exec (.vmovkVq c x) s = .next t ∧
          VxDone s t c 4 [keyQ x.vd] [] [.mxQ x.vd { valid := true, q := n, mu := 2 ^ 128 / n }]
            { s.ctile with q := Store.put {} x.vd { valid := true, q := n, mu := 2 ^ 128 / n } s.ctile.q }) ∧
        (n < 3 ∨ 2 ^ 62 ≤ n ∨ n % 2 = 0 → exec (.vmovkVq c x) s = .next (s.takeTrap ill))))

/-- VCVT: the values of va's lanes in the half that OPT names, rounded to the destination type (R198). VPACK writes the bytes of one group and
leaves the others; VUNPK writes the 128 lanes of one group's values (R199; .i4 and .n4 as Table 10.5 gives them: log entry 50). With VXALL = 0
each raises ILL where it touches a lane above bit 2,047. -/
def Obligations.ConvertAndPack : Prop :=
  ∀ (c : Ctl) (x : VX) (s : State), VxReady s c →
    ((Instr.vcvt c x).wf = true →
      let nd := laneCount x.ty
      let ns := laneCount x.vc
      let act := (List.range (min ns nd)).filter (s.active x.km)
      let fits := Fits s (laneWidth x.vc) (act.map (fun e => if ns ≤ nd then e else x.opt * nd + e)) ∧
        Fits s (laneWidth x.ty) (act.map (fun e => if ns ≤ nd then x.opt * ns + e else e))
      Whole s (.vcvt c x) fits ∧
      (fits → ∃ (t : State) (v : VReg), exec (.vcvt c x) s = .next t ∧ VxDone s t c 4 [keyV x.vd] [] [] (putV s.ctile x.vd v) ∧
        (ns ≤ nd → ∀ j, j < nd → lane v (laneWidth x.ty) j =
          if x.opt * ns ≤ j ∧ j < x.opt * ns + ns ∧ s.active x.km (j - x.opt * ns) = true
          then roundTo x.ty (s.laneVal x.vc x.va (j - x.opt * ns)) x.rm (x.nosat == 1) (s.vrnd x.rm j) % 2 ^ laneWidth x.ty
          else lane (Store.get 0 x.vd s.ctile.v) (laneWidth x.ty) j) ∧
        (nd < ns → ∀ j, j < nd → lane v (laneWidth x.ty) j =
          if s.active x.km j then roundTo x.ty (s.laneVal x.vc x.va (x.opt * nd + j)) x.rm (x.nosat == 1) (s.vrnd x.rm j) % 2 ^ laneWidth x.ty
          else lane (Store.get 0 x.vd s.ctile.v) (laneWidth x.ty) j))) ∧
    let g := groupBytes x.vc
    let fits := Fits s 32 (List.range 128) ∧ Fits s 8 ((List.range g).map (g * x.opt + ·))
    ((Instr.vpack c x).wf = true → Whole s (.vpack c x) fits ∧ (fits → ∃ (t : State) (v : VReg), exec (.vpack c x) s = .next t ∧
      VxDone s t c 6 [keyV x.vd] [] [] (putV s.ctile x.vd v) ∧
      ∀ j, j < 512 → lane v 8 j = if g * x.opt ≤ j ∧ j < g * x.opt + g
        then (packGroup x.vc (s.laneVal x.ty x.va)
          (fun k => roundTo x.vc (s.laneVal x.ty x.va k) x.rm false (s.vrnd x.rm (128 * x.opt + k)))).getD (j - g * x.opt) 0 % 256
        else lane (Store.get 0 x.vd s.ctile.v) 8 j)) ∧
    ((Instr.vunpk c x).wf = true → Whole s (.vunpk c x) fits ∧ (fits → ∃ (t : State) (v : VReg), exec (.vunpk c x) s = .next t ∧
      VxDone s t c 4 [keyV x.vd] [] [] (putV s.ctile x.vd v) ∧
      ∀ j, j < 128 → lane v 32 j =
        roundTo x.ty (unpackElem x.vc (fun k => lane (Store.get 0 x.va s.ctile.v) 8 (g * x.opt + k)) j) x.rm false (s.vrnd x.rm j) % 2 ^ 32))

/-- Reductions: lane 0 of vd takes the result and the other lanes stand. An integer VREDSUM is the sum of the active lanes modulo the
width, whatever the tree; an integer VREDMAX is the greatest active lane; a float one is the tree of R103. -/
def Obligations.Reductions : Prop :=
  ∀ (c : Ctl) (x : VX) (s : State), VxReady s c →
    let n := laneCount x.ty
    let w := laneWidth x.ty
    let act := (List.range n).filter (s.active x.km)
    let done (i : Instr) (r : Nat → Prop) : Prop := Whole s i (Fits s w act) ∧ (Fits s w act → ∃ (t : State) (v : VReg), exec i s = .next t ∧
      VxDone s t c (4 + 2 * Nat.log2 n) [keyV x.vd] [] [] (putV s.ctile x.vd v) ∧ r (lane v w 0) ∧
      ∀ j, 1 ≤ j → j < n → lane v w j = lane (Store.get 0 x.vd s.ctile.v) w j)
    ((Instr.vredsum c x).wf = true →
      (isFloat3 x.ty = false → done (.vredsum c x) (fun r => r = ((act.map (s.laneBits x.ty x.va)).sum) % 2 ^ w)) ∧
      (isFloat3 x.ty = true → done (.vredsum c x) (fun r => r = (reduceTree (fun i p q =>
          roundTo x.ty ((valOf x.ty p).add (valOf x.ty q) x.rm) x.rm false (s.vrnd x.rm i)) n (Nat.log2 n)
        ((List.range n).map (fun j => if s.active x.km j then s.laneBits x.ty x.va j else (ffmt x.ty).signBit true))).getD 0 0 % 2 ^ w))) ∧
    ((Instr.vredmax c x).wf = true →
      (isFloat3 x.ty = false → done (.vredmax c x) (fun r =>
        (act = [] → r = intBits x.ty (intMin x.ty)) ∧
        (act ≠ [] → (∃ j, j ∈ act ∧ r = s.laneBits x.ty x.va j) ∧ ∀ j, j ∈ act → s.laneInt x.ty x.va j ≤ intOf x.ty r))) ∧
      (isFloat3 x.ty = true → done (.vredmax c x) (fun r => r = (reduceTree (fun _ p q =>
          roundTo x.ty ((valOf x.ty p).rmax (valOf x.ty q)) 0 false 0) n (Nat.log2 n)
        ((List.range n).map (fun j => if s.active x.km j then s.laneBits x.ty x.va j else (ffmt x.ty).infBits true))).getD 0 0 % 2 ^ w)))

/-- VNTT and VINTT: the butterfly of every pair whose lower lane is active, within one register or between two; with no second
destination register it raises ILL (R208). -/
def Obligations.Transforms : Prop :=
  ∀ (c : Ctl) (x : VX) (s : State), VxReady s c → (s.rdQ x.rm).valid = true →
    let q := (s.rdQ x.rm).q
    let e (r j : Nat) : Nat := lane (Store.get 0 r s.ctile.v) 64 j % q
    let old (r j : Nat) : Nat := lane (Store.get 0 r s.ctile.v) 64 j
    let lowers := (List.range 64).filter (fun j => (x.opt = 6 ∨ j / 2 ^ x.opt % 2 = 0) ∧ s.active x.km j = true)
    let fits := Fits s 64 (if x.opt = 6 then lowers else lowers ++ lowers.map (· + 2 ^ x.opt))
    let stage (i : Instr) (lo hi : Nat → Nat → Nat → Nat) : Prop :=
      Whole s i fits ∧
      (x.opt < 6 → fits → ∃ (t : State) (v : VReg), exec i s = .next t ∧ VxDone s t c 10 [keyV x.vd] [] [] (putV s.ctile x.vd v) ∧
        ∀ j, j < 64 → j / 2 ^ x.opt % 2 = 0 →
          lane v 64 j = (if s.active x.km j then lo (e x.va j) (e x.va (j + 2 ^ x.opt)) (e x.vc j) % 2 ^ 64 else old x.vd j) ∧
          lane v 64 (j + 2 ^ x.opt) =
            if s.active x.km j then hi (e x.va j) (e x.va (j + 2 ^ x.opt)) (e x.vc j) % 2 ^ 64 else old x.vd (j + 2 ^ x.opt)) ∧
      (x.opt = 6 → x.vd < 63 → fits → ∃ (t : State) (v u : VReg), exec i s = .next t ∧
        VxDone s t c 10 [keyV x.vd, keyV (x.vd + 1)] [] [] (putV (putV s.ctile x.vd v) (x.vd + 1) u) ∧
        ∀ j, j < 64 →
          lane v 64 j = (if s.active x.km j then lo (e x.va j) (e x.vb j) (e x.vc j) % 2 ^ 64 else old x.vd j) ∧
          lane u 64 j = if s.active x.km j then hi (e x.va j) (e x.vb j) (e x.vc j) % 2 ^ 64 else old (x.vd + 1) j) ∧
      (x.opt = 6 → x.vd = 63 → exec i s = .next (s.takeTrap ill))
    ((Instr.vntt c x).wf = true → stage (.vntt c x) (fun u t w => (u + t * w) % q) (fun u t w => (u + (q - t * w % q)) % q)) ∧
    ((Instr.vintt c x).wf = true → stage (.vintt c x) (fun u t _ => (u + t) % q) (fun u t w => (u + (q - t)) % q * w % q))

/-- VLD and VLDX: the active lanes take the bytes of the buffer (R203). VST writes the bytes of the active lanes at once, and VSTX at the
end of cycle issue + 3, lane by lane in ascending order; every other byte stands. The first lane whose access fails a check of R49 names
the trap, and nothing is read or written; with VXALL = 0 a lane above bit 2,047 raises ILL. -/
def Obligations.VectorMemory : Prop :=
  ∀ (c : Ctl) (m : VMem) (ix : Bool) (s : State), VxReady s c → noErrors s →
    let n := laneCount m.ty
    let w := laneWidth m.ty / 8
    let off := VMemOff s m ix
    let at_ (j : Nat) : Nat := (s.decl m.buf).base * 4096 + off j
    let act := activeLanes s m.ty m.km
    let load : Instr := if ix then .vldx c m else .vld c m
    let store : Instr := if ix then .vstx c m else .vst c m
    let fits := Fits s (laneWidth m.ty) act ∧ (ix = true → Fits s 32 act)
    (∀ j, j ∈ act → Clear s 3 m.buf (off j) w) →
    (load.wf = true → Whole s load fits ∧
      (fits → FirstFault s load act m.buf off (fun j => readFault s 3 m.buf (off j) w)) ∧
      (fits → (∀ j, j ∈ act → readFault s 3 m.buf (off j) w = none) →
        ∃ (t : State) (v : VReg), exec load s = .next t ∧ VxDone s t c (if ix then 8 else 4) [keyV m.vd] [] [] (putV s.ctile m.vd v) ∧
          ∀ j, j < n → lane v (laneWidth m.ty) j =
            if s.active m.km j then leNat ((List.range w).map (fun k => Store.get 0 (at_ j + k) s.ctile.sram))
            else lane (Store.get 0 m.vd s.ctile.v) (laneWidth m.ty) j)) ∧
    (store.wf = true → Whole s store fits ∧
      (fits → FirstFault s store act m.buf off (fun j => writeFault s 3 m.buf (off j) w)) ∧
      (fits → (∀ j, j ∈ act → writeFault s 3 m.buf (off j) w = none) →
        let byte (j k : Nat) : Byte := BitVec.ofNat 8 (s.laneBits m.ty m.vd j / 256 ^ k)
        (ix = false → ∃ t : State, exec store s = .next t ∧
          VxDone s t c 1 [] (act.map (fun _ => (s.now, .bufFull m.buf))) []
            { s.ctile with sram := t.ctile.sram, ecc := t.ctile.ecc, dirty := t.ctile.dirty } ∧
          (∀ j k, j ∈ act → k < w → Store.get 0 (at_ j + k) t.ctile.sram = byte j k) ∧
          ∀ a, (∀ j, j ∈ act → a < at_ j ∨ at_ j + w ≤ a) → Store.get 0 a t.ctile.sram = Store.get 0 a s.ctile.sram) ∧
        (ix = true → ∃ t : State, exec store s = .next t ∧
          VxDone s t c 4 [] (act.map (fun j => (s.now + 3, .sram 3 (at_ j) ((List.range w).map (byte j)))) ++
            if act = [] then [] else [(s.now + 3, .bufFull m.buf)]) [] s.ctile)))

/-- BFXCFG takes a pattern that is not malformed for its path, and a malformed one raises ILL; VBFX extracts the fields of the stream
(R106, R107, R204, R205; what counts as WIDTH, and that the buffer's checks come first, is log entry 50). The first byte or word whose
access fails a check names the trap. -/
def Obligations.BitFields : Prop :=
  ∀ (c : Ctl) (m : VMem) (s : State), VxReady s c → noErrors s →
    let d := (s.decl m.buf).base * 4096
    let p : BitVec 576 := BitVec.ofNat 576 (leNat ((List.range 72).map (fun k => Store.get 0 (d + m.off + k) s.ctile.sram)))
    let word (k : Nat) : Nat := m.off + 8 * k
    let bad := bfxOk p = false ∨ (m.path = 0 ∧ m.ty ≠ 0) ∨ (m.path = 1 ∧ (slotType m.ty = false ∨ elemBits m.ty < bfxWidest p))
    ((Instr.bfxcfg c m).wf = true → Clear s 3 m.buf m.off 72 →
      FirstFault s (.bfxcfg c m) (List.range 9) m.buf word (fun k => readFault s 3 m.buf (word k) 8) ∧
      ((∀ k, k < 9 → readFault s 3 m.buf (word k) 8 = none) →
        (bad → exec (.bfxcfg c m) s = .next (s.takeTrap ill)) ∧
        (¬ bad → m.path = 0 → ∃ t, exec (.bfxcfg c m) s = .next t ∧ VxDone s t c 3 [] [] [] { s.ctile with bfxV := p }) ∧
        (¬ bad → m.path = 1 → ∃ t, exec (.bfxcfg c m) s = .next t ∧
          VxDone s t c 3 [] [] [.mxPat p m.ty] { s.ctile with bfxS := p, slotTy := m.ty }))) ∧
    (let f := s.ctile.bfxV
     let act := (List.range 256).filter (s.active m.km)
     let bytes := act.flatMap (bfxBytes f)
     (Instr.vbfx c m).wf = true → (∀ k, k ∈ bytes → Clear s 3 m.buf (m.off + k) 1) →
      Whole s (.vbfx c m) (Fits s 16 act) ∧
      (bfxPeriod f = 0 → exec (.vbfx c m) s = .next (s.takeTrap ill)) ∧
      (Fits s 16 act → bfxPeriod f ≠ 0 → FirstFault s (.vbfx c m) bytes m.buf (m.off + ·) (fun k => readFault s 3 m.buf (m.off + k) 1)) ∧
      (Fits s 16 act → bfxPeriod f ≠ 0 → (∀ k, k ∈ bytes → readFault s 3 m.buf (m.off + k) 1 = none) →
        ∃ (t : State) (v : VReg), exec (.vbfx c m) s = .next t ∧ VxDone s t c 6 [keyV m.vd] [] [] (putV s.ctile m.vd v) ∧
          ∀ j, j < 256 → lane v 16 j = if s.active m.km j
            then bfxElem f 16 (leNat (s.bufBytes m.buf m.off ((bfxBit f j + 16) / 8 + 1))) j % 2 ^ 16
            else lane (Store.get 0 m.vd s.ctile.v) 16 j))

/-- VACC rounds the elements of half a row of an accumulator into the active lanes (R206); where the tile has no MX, or the half does not
start at a multiple of the lane count, it raises ILL, and of a PENDING shadow SHADOW. VSEED sets the seed at once for VX and at its
retirement for MX, and counts no frame step (R191, R210). -/
def Obligations.AccumulatorReadSeed : Prop :=
  ∀ (c : Ctl) (s : State), VxReady s c → noErrors s →
    (∀ a : VAcc, (Instr.vacc c a).wf = true → s.ctile.accQuiet a.acc = true →
      let first := 128 * a.row + 64 * a.colh
      let fits := Fits s (laneWidth a.ty) (activeLanes s a.ty a.km)
      let pending := 4 ≤ a.acc ∧ (s.ctile.shadow a.acc).st = .pending
      (s.img.mxn = false ∨ ¬ fits ∨ first % laneCount a.ty ≠ 0 → exec (.vacc c a) s = .next (s.takeTrap ill)) ∧
      (s.img.mxn = true → fits → first % laneCount a.ty = 0 → pending → exec (.vacc c a) s = .next (s.takeTrap { cause := .shadow })) ∧
      (s.img.mxn = true → fits → first % laneCount a.ty = 0 → ¬ pending →
        let value (s : State) (j : Nat) : Nat :=
          let w := s.ctile.accEl a.acc (first + j)
          if a.ty = 0x12 then w.toNat else roundTo a.ty (waVal a.cls w) a.rm (a.nosat == 1) (s.vrnd a.rm j)
        ∃ t, exec (.vacc c a) s = .next t ∧ LaneDone s t { c := c, vd := a.vd, ty := a.ty, km := a.km, lat := 6, value := value })) ∧
    (∀ x : VX, (Instr.vseed c x).wf = true →
      let seed := (Store.get 0 x.va s.ctile.v).setWidth 64
      ∃ (t : State) (f : Flight), exec (.vseed c x) s = .next t ∧ restSame s t ∧ Issued s t c f [] ∧ f.retire = some s.now ∧
        f.effs = [.mxSeed seed] ∧ t.ctile.plain = ({ s.ctile with srseed := seed } : Tile).plain)

/-- RANK, from registers or from a buffer, writes the indices of the eligible elements by value, the greatest first and equal ones by index,
then the terminator; RKVAL writes the values back to their indices, the floor elsewhere, and flags what it dropped (R211, R212). Operands
that run past v63, and a mask over more than 512 elements, raise ILL. -/
def Obligations.RankCoding : Prop :=
  ∀ (c : Ctl) (s : State), VxReady s c →
    (∀ r : VRank, (Instr.rank c r).wf = true →
      let n := 64 * (r.nblk + 1)
      let nl := laneCount r.ty
      let w := laneWidth r.ty
      let act := (List.range n).filter (s.active r.km)
      let off (i : Nat) : Nat := r.off + i * (w / 8)
      let at_ (i : Nat) : Nat := (s.decl r.va).base * 4096 + off i
      let fits := Fits s w (if r.src = 0 then act.map (· % nl) else []) ∧ Fits s 16 (List.range (r.km1 + 1))
      let legal := (r.km ≠ 0 → n ≤ 512) ∧ (r.src = 0 → r.va + ceilDiv n nl ≤ 64)
      let el (i : Nat) : Val := valOf r.ty (if r.src = 0 then lane (Store.get 0 (r.va + i / nl) s.ctile.v) w (i % nl)
        else leNat ((List.range (w / 8)).map (fun k => Store.get 0 (at_ i + k) s.ctile.sram)))
      let order := rankSort ((act.map (fun i => (i, el i))).filter (fun e => !e.2.isNan))
      (r.src ≠ 0 → noErrors s ∧ ∀ i, i ∈ act → Clear s 3 r.va (off i) (w / 8)) →
      Whole s (.rank c r) (fits ∧ legal) ∧
      (r.src = 1 → fits → legal → FirstFault s (.rank c r) act r.va off (fun i => readFault s 3 r.va (off i) (w / 8))) ∧
      (fits → legal → r.src = 0 ∨ (r.src = 1 ∧ ∀ i, i ∈ act → readFault s 3 r.va (off i) (w / 8) = none) →
        ∃ (t : State) (v : VReg), exec (.rank c r) s = .next t ∧
          VxDone s t c (36 + ceilDiv n 128 + 4 * clog2 (ceilDiv n 128) + ceilDiv (r.km1 + 1) 16) [keyV r.vd] [] [] (putV s.ctile r.vd v) ∧
          ∀ j, j < 256 → lane v 16 j = if j ≤ r.km1 then order.getD j 0xFFFF % 2 ^ 16 else lane (Store.get 0 r.vd s.ctile.v) 16 j)) ∧
    (∀ r : VRkval, (Instr.rkval c r).wf = true →
      let n := laneCount r.ty
      let w := laneWidth r.ty
      let p := rkvalWalk (n * (r.nreg1 + 1)) (fun k => lane (Store.get 0 r.vi s.ctile.v) 16 k) (r.km1 + 1) 0 [] []
      let legal := s.img.vxall = true ∧ r.vd + r.nreg1 + 1 ≤ 64
      Whole s (.rkval c r) legal ∧
      (legal → ∃ (t : State) (u : Nat → VReg) (k : Mask), exec (.rkval c r) s = .next t ∧
        VxDone s t c (6 + (r.nreg1 + 1) + ceilDiv (r.km1 + 1) 16) ((List.range (r.nreg1 + 1)).map (fun m => keyV (r.vd + m)) ++ maskKey r.kd) [] []
          (putK ((List.range (r.nreg1 + 1)).foldl (fun x m => putV x (r.vd + m) (u m)) s.ctile) r.kd k) ∧
        (∀ j, j < 512 → k.getLsbD j = p.2.contains j) ∧
        ∀ m j, m ≤ r.nreg1 → j < n → lane (u m) w j =
          (match p.1.find? (fun e => e.1 == n * m + j) with
           | some e => roundTo r.ty (valOf 1 (Store.get 0 e.2 s.ctile.rctV).toNat) 0 false 0
           | none => lane (Store.get 0 r.vf s.ctile.v) w 0) % 2 ^ w))

namespace Sys2Proof.Claims
open Sys2Proof.Machine

/-! ## CI, CO and NX -/

/-- The latched bytes of the record that a handle names. -/
def recordOf (s : State) (h : Nat) : List Byte := (s.ctile.cached (s.recVa h)).getD []

/-- An order of CI or CO issues without delay (R214, R216, R217, R232): its engine is due, every record that it names is cached, fewer
than 32 commands of the engine are in flight, no order of it bars later ones, and a word for elastic segments stands in one. -/
structure MoveReady (s : State) (c : Ctl) (handles : List Nat) (elastic : Bool) : Prop where
  due : Due s c
  cached : ∀ h, h ∈ handles → (s.ctile.cached (s.recVa h)).isSome = true
  room : (s.ctile.cmds.filter (fun k => k.eng == s.cur.eng)).length < 32
  clear : ∀ f, f ∈ s.ctile.flights → f.eng = s.cur.eng → f.blocks = false
  mode : elastic = true → s.ctile.timed = false

/-- The same, but that the fetch of its record has ended with a code (R214). -/
structure RecordFailed (s : State) (c : Ctl) (h code : Nat) : Prop where
  due : Due s c
  absent : s.ctile.cached (s.recVa h) = none
  fetch : ∃ d, s.ctile.fetchOf s.cur.eng = some { va := s.recVa h, done := some code, deadline := d }
  room : (s.ctile.cmds.filter (fun k => k.eng == s.cur.eng)).length < 32
  clear : ∀ f, f ∈ s.ctile.flights → f.eng = s.cur.eng → f.blocks = false

/-- An order of CI or CO has issued: it retires in cycle `retire` (none: with its command), it changes `l` at the ends of cycles and
`effs` at its retirement; in the tile in hand, which is otherwise `x`, the status word `sw` takes the value `w`. -/
structure MoveDone (s t : State) (c : Ctl) (retire : Option Nat) (l : List (Nat × Eff)) (effs : List Eff) (sw : Nat) (w : Word) (x : Tile) : Prop where
  rest : { t.offTiles with cmdSeq := s.cmdSeq } = s.offTiles
  issued : ∃ f : Flight, Issued s t c f l ∧ f.retire = retire ∧ f.effs = effs
  status : ∀ n, Store.get 0 n t.ctile.sw = if n = sw then w else Store.get 0 n s.ctile.sw
  tile : { t.ctile.plain with fetchCI := s.ctile.fetchCI, fetchCO := s.ctile.fetchCO, cmds := s.ctile.cmds, sw := s.ctile.sw } = x.plain

/-- The order has put one command in flight (R216): who issued it, what it is, the status word and the phase that it counts under. -/
structure Started (s t : State) (k : Cmd) (what : CmdKind) (n : Nat) : Prop where
  cmds : t.ctile.cmds = s.ctile.cmds ++ [k]
  id : k.id = s.ctile.nextId
  eng : k.eng = s.cur.eng
  kind : k.kind = what
  sw : k.sw = n
  phase : k.phase = (Store.get 0 n s.ctile.sw).getMsbD 0
  order : k.order = s.cmdSeq

/-- The value of status word `sw` after arming with `n` bytes, `k` of them performed at once (R63), where it arms. -/
def armed (s : State) (sw n k : Nat) (w : Word) : Prop :=
  ∃ v, swArm (Store.get 0 sw s.ctile.sw) n = some v ∧ w = swPerform v (phaseOf (Store.get 0 sw s.ctile.sw)) k

/-- The bytes of a box that its elements hold. -/
def boxLen (es : List Elem) : Nat := (es.map Elem.len).sum

/-- The operation of an ATOM (Table 12.6). -/
def atomOf : Instr → Option (Ctl × AtomOp × Nat)
  | .atomAdd c o => some (c, o, 0) | .atomAnd c o => some (c, o, 1) | .atomOr c o => some (c, o, 2) | .atomXor c o => some (c, o, 3)
  | .atomMin c o => some (c, o, if o.uns = 1 then 6 else 4) | .atomMax c o => some (c, o, if o.uns = 1 then 7 else 5)
  | .atomSwap c o => some (c, o, 8) | .atomCas c o => some (c, o, 9) | .atomFadd c o => some (c, o, 10)
  | _ => none
/-- The operation of a vector atomic, by its element type (R248). -/
def vatomOf : Instr → Option (Ctl × VAtom × Nat)
  | .vaor c o => some (c, o, 2) | .vaadd c o => some (c, o, if o.ty = 0 then 10 else 0) | .vamax c o => some (c, o, if isSignedTy o.ty then 5 else 7)
  | _ => none

/-- SEND and SENDK: the byte offset, the bytes of an element, the elements, the words on the link, and how they are made. -/
def sendOf : Instr → Option (Ctl × Exch × Bool × Nat × Nat × Nat × (List Nat → List Code))
  | .send c o => some (c, o, false, 4 * o.off, 4, o.n1 + 1, fun ws => ws.map (BitVec.ofNat 32))
  | .sendk c o => some (c, o, true, 512 * o.off, 2, ceilDiv (o.n1 + 1) 2, fun is => rankWords (rankTail is))
  | _ => none

/-! ## The progress of commands -/

/-- The new value of a host atomic (R72). -/
def hostAtomic (op opd cmp old : Nat) : Option Nat :=
  if op = 0 then some ((old + opd) % 2 ^ 64) else if op = 1 then some (opd % 2 ^ 64)
  else if old = cmp % 2 ^ 64 then some (opd % 2 ^ 64) else none

/-- Memory is clean and no page of it is SNAPPED. -/
def clean (s : State) : Prop := s.poison = [] ∧ s.snaps = []
/-- `n` bytes of memory from `a`, as a number; memory with the bytes `bs` written from `a`. -/
def word (m : Store Byte) (a n : Nat) : Nat := leNat (Store.getN 0 m a n)
def wrote (m m' : Store Byte) (a : Nat) (bs : List Byte) : Prop :=
  ∀ k, Store.get 0 k m' = if a ≤ k ∧ k < a + bs.length then bs.getD (k - a) 0 else Store.get 0 k m
/-- The same with a value that may leave memory as it is. -/
def wroteOpt (m m' : Store Byte) (a n : Nat) (v : Option Nat) : Prop :=
  wrote m m' a (match v with
    | some w => leBytes n w
    | none => [])

/-- An element of `n` bytes at `va` lies in this package's HBM as one piece at `pa`. -/
def lies (s : State) (ctx va n kind pa : Nat) : Prop := s.translateRange ctx va n kind = .ok [(pa, n)] ∧ isWindow pa = false
/-- One byte's place, for the operations of a home SYE. -/
def liesAt (s : State) (ctx va kind pa : Nat) : Prop := s.translate ctx va kind = .pa pa ∧ isWindow pa = false

/-- The storage that a copy in fills. -/
def storage (k : CmdKind) (x : Tile) : Store Byte := if k = .cpslot then x.opmem else x.sram

/-- A command goes on with `rest` of its elements or, with none, ends: it leaves the tile, and an order that waits for it is to retire. -/
structure GoesOn (x y : Tile) (c : Cmd) (rest : List Elem) (rcc : Nat) : Prop where
  goes : rest ≠ [] → ∃ k, k ∈ y.cmds ∧ k.id = c.id ∧ k.elems = rest
  ends : rest = [] → (∀ k, k ∈ y.cmds → k.id ≠ c.id) ∧ ∀ f, f ∈ x.flights → c.flight = some f.id → ∃ g, g ∈ y.flights ∧ g.id = f.id ∧ g.retire = some (f.retire.getD rcc)
  others : ∀ k, k.id ≠ c.id → (k ∈ y.cmds ↔ k ∈ x.cmds)
  status : ∀ q, q ≠ c.sw → Store.get 0 q y.sw = Store.get 0 q x.sw

/-- A command ends: it leaves the tile, its status word takes the value `w`, and an order that waits for it is to retire. -/
structure Ends (x y : Tile) (c : Cmd) (rcc : Nat) (w : Word) : Prop where
  cmds : ∀ k, k ∈ y.cmds ↔ k ∈ x.cmds ∧ k.id ≠ c.id
  status : ∀ q, Store.get 0 q y.sw = if q = c.sw then w else Store.get 0 q x.sw
  flights : ∀ f, f ∈ x.flights → c.flight = some f.id → ∃ g, g ∈ y.flights ∧ g.id = f.id ∧ g.retire = some (f.retire.getD rcc)

/-- A command ends, and its order retires with the effects `effs` and completes its status word with a code. -/
structure EndsAtRetire (x y : Tile) (c : Cmd) (rcc code : Nat) (effs : List Eff) : Prop where
  cmds : ∀ k, k ∈ y.cmds ↔ k ∈ x.cmds ∧ k.id ≠ c.id
  flights : y.flights = x.flights.map (fun f => if c.flight = some f.id then
    { f with retire := some (f.retire.getD rcc), effs := effs ++ f.effs, done := some (c.sw, code, c.phase), doneN := c.size } else f)
  rest : { y with cmds := x.cmds, flights := x.flights } = x

/-- The status word of a command after `n` bytes performed, and after a code (R63). -/
def after (x : Tile) (c : Cmd) (n : Nat) : Word := swPerform (Store.get 0 c.sw x.sw) c.phase n
def failed (x : Tile) (c : Cmd) (code : Nat) : Word := swStatus (Store.get 0 c.sw x.sw) code

/-- The elements that a pattern makes of gathered bytes (R106, R225), and element `j` of width `w` among bytes. -/
def patLanes (pat : BitVec 576) (g : List Byte) : Nat := 8 * g.length / bfxPeriod pat * bfxNfld pat
def laneOf (w : Nat) (bs : List Byte) (j : Nat) : Nat := leNat bs / 2 ^ (w * j) % 2 ^ w

/-- A binding that BINDSO of a command makes over one physical range (R68, R230). -/
def bindingOf (s : State) (n t : Nat) (c : Cmd) (p : Nat × Nat) : SoBind :=
  let r := s.slot n
  { lo := p.1, hi := p.1 + p.2, obj := c.opd, scope := c.scope, pkg := s.pkgid, world := r.world, jobid := r.jobid, slot := n,
    seat := { vif := r.vif, lid := r.lid, inst := r.inst, tile := t, quad := t / r.w / 2 * 2 ^ 16 + t % r.w / 2, die := dieOf (r.phys t) } }

end Sys2Proof.Claims

open Sys2Proof Sys2Proof.Machine Sys2Proof.Claims

/-! ## Movement -/

/-- CPIN, XFETCH and CPSLOT whose checks pass: a buffer is filling from the end of the cycle, a slot from issue; the status word is armed with
the box's bytes; a command with the elements inside the tensor is in flight, and the units outside it are zero at once (R220, R222, R223,
R225, R242). With no element inside, a copy in retires with no command. A pattern of CPSLOT writes nothing before the copy ends, or zeros at
once where the box is outside as a whole. A CPSLOT into bytes that an MX order in flight reads is not this case (R259). What counts as one element is log entry 33. -/
def Obligations.CopiesIn : Prop :=
  ∀ (c : Ctl) (s : State) (h sw idx : Nat) (w : Word) (land : Option Nat),
    let d := recordOf s h
    let n := recBytes d
    let es := boxElems d idx
    let outside (base a : Nat) : Prop := ∃ o, o ∈ boxOutside d idx ∧ base + o ≤ a ∧ a < base + o + elemSize (recType d)
    let zeroed (base : Nat) (m u : Store Byte) : Prop :=
      ∀ a, (outside base a → Store.get 0 a u = 0) ∧ (¬ outside base a → Store.get 0 a u = Store.get 0 a m)
    armed s sw n (n - boxLen es) w →
    (∀ (o : CopyIn) (fetch : Bool),
      let i : Instr := if fetch then .xfetch c o else .cpin c o
      let base := (s.decl o.buf).base * 4096 + 256 * o.off
      let more := if fetch = true ∧ o.x ≠ 0 then [o.x - 1] else []
      o.h = h → o.sw = sw → o.idx = idx → MoveReady s c (h :: more) fetch →
      (if fetch then land = none else s.landOf o.x = .ok land) → s.chkSet o.buf (256 * o.off) = none →
      (s.ctile.buf o.buf).cpinOk (o.ovw == 1) = true → 256 * o.off + n ≤ (s.decl o.buf).len * 4096 →
      ∃ t : State, exec i s = .next t ∧ zeroed base s.ctile.sram t.ctile.sram ∧
        (let done (retire : Option Nat) (effs : List Eff) : Prop := MoveDone s t c retire [(s.now, .bufCpin o.buf)] effs sw w
          { s.ctile with sram := t.ctile.sram, ecc := t.ctile.ecc }
        (es = [] ∧ more = [] → t.ctile.cmds = s.ctile.cmds ∧ done (some (match land with
            | some l => l - 1
            | none => s.now))
          [.landed o.buf ((boxOutside d idx).map (fun x => (base + x, elemSize (recType d)))), .fillDone o.buf]) ∧
        (es ≠ [] ∨ more ≠ [] → done (land.map (· - 1)) [.fillDone o.buf] ∧ ∃ k : Cmd,
          Started s t k (if fetch then .xfetch else .cpin) sw ∧ k.elems = es ∧ k.n = n ∧ k.buf = o.buf ∧ k.base = base ∧
          k.cw = more.head?.map (fun q => recBase (recordOf s q))))) ∧
    (∀ (o : CopySlot) (m : Nat),
      let base := slotBytes * o.slot + 256 * o.off
      o.h = h → o.sw = sw → o.idx = idx → MoveReady s c [h] false → s.landOf o.land = .ok land →
      o.slot < 16 → s.ctile.claim.testBit o.slot = true → s.ctile.filling.testBit o.slot = false →
      (if recBfx d then bfxOut (recPat d) (recType d) n = some m else m = n) → 256 * o.off + m ≤ slotBytes →
      (∀ f r, f ∈ s.ctile.flights → r ∈ f.opRd → base + m ≤ r.1 ∨ r.1 + r.2 ≤ base) →
      ∃ t : State, exec (.cpslot c o) s = .next t ∧ (∀ q, t.ctile.filling.testBit q = (decide (q = o.slot) || s.ctile.filling.testBit q)) ∧
        (recBfx d = false → zeroed base s.ctile.opmem t.ctile.opmem) ∧
        (recBfx d = true → es ≠ [] → ∀ a, Store.get 0 a t.ctile.opmem = Store.get 0 a s.ctile.opmem) ∧
        (recBfx d = true → es = [] → ∀ a, Store.get 0 a t.ctile.opmem = if base ≤ a ∧ a < base + m then 0 else Store.get 0 a s.ctile.opmem) ∧
        (es ≠ [] → MoveDone s t c (land.map (· - 1)) [] [.slotDone o.slot] sw w
            { s.ctile with opmem := t.ctile.opmem, ecc := t.ctile.ecc, filling := t.ctile.filling } ∧
          ∃ k : Cmd, Started s t k .cpslot sw ∧ k.elems = es ∧ k.n = n ∧ k.buf = o.slot ∧ k.base = base ∧
            k.pat = if recBfx d then some (recPat d, recType d) else none))

/-- CPOUT, CPOUT.flush and XPOST whose checks pass: the source drains from the end of the cycle, its bytes are read at issue, and the order
retires once they have left (R59, R224, R241). A box outside the tensor as a whole, where no completion word is named, and a flush with no dirty
granule put no command in flight: the status word is armed, and with 0 bytes completes, at issue (R63). While an earlier order of the queue has
still to write them (R65) a CPOUT or XPOST is not ready, as for an operand of R31: the model's reading (log entry 33). That the bytes are read
in the issue cycle, and what counts as one element, is log entry 33 too; that a flush clears the dirty marks at its issue, while the granules
are still to be written back, is the model's reading (log entry 21). -/
def Obligations.CopiesOut : Prop :=
  ∀ (c : Ctl) (s : State), noErrors s →
    (∀ (o : CopyOut) (post : Bool) (w : Word),
      let i : Instr := if post then .xpost c o else .cpout c o
      let d := recordOf s o.h
      let n := recBytes d
      let es := boxElems d o.idx
      let base := (s.decl o.buf).base * 4096 + 256 * o.off
      let more := if post = true ∧ o.cw ≠ 0 then [o.cw - 1] else []
      armed s o.sw n (n - boxLen es) w → MoveReady s c (o.h :: more) false → s.coPending o.buf (256 * o.off) n = false →
      s.chkGet o.buf (256 * o.off) = none → (s.ctile.buf o.buf).cpoutOk = true → 256 * o.off + n ≤ (s.decl o.buf).len * 4096 →
      ∃ t : State, exec i s = .next t ∧
        MoveDone s t c (some (s.now + max (ceilDiv n 256) 1 - 1)) [(s.now, .bufCpout o.buf)] [.drainDone o.buf] o.sw w s.ctile ∧
        (es = [] ∧ more = [] → t.ctile.cmds = s.ctile.cmds) ∧
        (es ≠ [] ∨ more ≠ [] → ∃ k : Cmd, Started s t k (if post then .xpost else .cpout) o.sw ∧ k.n = n ∧ k.buf = o.buf ∧ k.base = base ∧
          k.elems = es.map (fun e => { e with data := Store.getN 0 s.ctile.sram (base + e.tile) e.len, bad := [] }) ∧
          k.cw = more.head?.map (fun q => recBase (recordOf s q)))) ∧
    (∀ (o : CopyOut) (post : Bool), MoveReady s c (o.h :: (if post = true ∧ o.cw ≠ 0 then [o.cw - 1] else [])) false →
      s.coPending o.buf (256 * o.off) (recBytes (recordOf s o.h)) = true →
      exec (if post then .xpost c o else .cpout c o) s = .next (if s.ctile.timed then s.takeTrap (overrun 1 s.now) else s)) ∧
    (∀ (b sw : Nat) (w : Word),
      let gs := s.dirtyOf b
      armed s sw (4096 * gs.length) 0 w → MoveReady s c [] false → s.coPendingAll b = false → s.chkGet b 0 = none →
      (s.ctile.buf b).cpoutOk = true → (s.ctile.buf b).bound = true →
      ∃ t : State, exec (.cpoutFlush c b sw) s = .next t ∧
        MoveDone s t c (some (s.now + max (16 * gs.length) 1 - 1)) [(s.now, .bufCpout b)] [.drainDone b] sw w (s.ctile.clean (s.decl b)) ∧
        (gs = [] → t.ctile.cmds = s.ctile.cmds) ∧
        (gs ≠ [] → ∃ k : Cmd, Started s t k .cpout sw ∧ k.n = 4096 * gs.length ∧ k.elems.map (fun e => (e.va, e.data)) =
          gs.map (fun g => ((s.ctile.buf b).va + 4096 * g, Store.getN 0 s.ctile.sram ((s.decl b).base * 4096 + 4096 * g) 4096))))

/-- ACQ, ACQ.cw and REL whose checks pass: the command goes to the object, ACQ holds every later order of its engine back, and REL takes
its value at issue (R232, R233), where no earlier order of the queue has still to write it (R65). -/
def Obligations.AcquireRelease : Prop :=
  ∀ (c : Ctl) (o : SyncOp) (s : State) (w : Word),
    let va := recBase (recordOf s o.h)
    (∀ cw : Bool, armed s o.sw (if cw then 8 else 2 ^ o.sz) 0 w → MoveReady s c [o.h] true → s.chkWrite 1 o.buf (8 * o.off) 8 = none →
      ∃ (t : State) (k : Cmd), exec (if cw then .acqCw c o else .acq c o) s = .next t ∧ MoveDone s t c none [] [] o.sw w s.ctile ∧
        Started s t k (if cw then .acqCw else .acq) o.sw ∧ k.va = (if cw then va else va + o.boff) ∧ k.obj = va ∧
        k.size = (if cw then 8 else 2 ^ o.sz) ∧ k.want = (o.p == 1) ∧ k.base = (s.decl o.buf).base * 4096 + 8 * o.off ∧
        ∃ f, f ∈ t.ctile.flights ∧ f.blocks = true ∧ f.id = k.id + 1) ∧
    (armed s o.sw (2 ^ o.sz) 0 w → MoveReady s c [o.h] false → noErrors s → s.coPending o.buf (8 * o.off) 8 = false →
      s.chkRead 2 o.buf (8 * o.off) 8 = none → o.sz ≤ 3 →
      ∃ (t : State) (k : Cmd), exec (.rel c o) s = .next t ∧ MoveDone s t c (some s.now) [] [] o.sw w s.ctile ∧
        Started s t k .rel o.sw ∧ k.va = va + o.boff ∧ k.obj = va ∧ k.size = 2 ^ o.sz ∧
        k.opd = leNat (Store.getN 0 s.ctile.sram ((s.decl o.buf).base * 4096 + 8 * o.off) (2 ^ o.sz)))

/-- ATOM whose checks pass: the operand and the comparand are read at issue, and the order retires at once unless the old value
returns (R246, R247); no earlier order of the queue has still to write them (R65).
The new value of an ATOM (Table 12.6), on 1, 2, 4 or 8 bytes: sums wrap, the signed and unsigned minimum and maximum, SWAP, and CAS, which
writes only where the old value is the comparand; FADD is the sum of two FP32 or BF16 values rounded once to nearest even. -/
def Obligations.Atomics : Prop :=
  (∀ (i : Instr) (c : Ctl) (o : AtomOp) (op : Nat) (s : State) (w : Word), atomOf i = some (c, o, op) → i.wf = true →
    let va := (recBase (recordOf s o.h) + o.aoff) % 2 ^ 64
    let n := 2 ^ o.sz
    let a := (s.decl o.buf).base * 4096 + 16 * o.off
    armed s o.sw n 0 w → MoveReady s c [o.h] (o.ret == 1) → noErrors s → s.coPending o.buf (16 * o.off) 16 = false → va % n = 0 → s.chkRead 2 o.buf (16 * o.off) 16 = none →
    (o.ret = 1 → s.chkWrite 2 o.buf (16 * o.off) 8 = none) →
    ∃ (t : State) (k : Cmd), exec i s = .next t ∧ MoveDone s t c (if o.ret = 1 then none else some s.now) [] [] o.sw w s.ctile ∧
      Started s t k .atom o.sw ∧ k.va = va ∧ k.size = n ∧ k.op = op ∧ k.ret = (o.ret == 1) ∧ k.base = a ∧
      k.opd = leNat (Store.getN 0 s.ctile.sram a n) ∧ k.cmp = leNat (Store.getN 0 s.ctile.sram (a + 8) n)) ∧
  (∀ n opd cmp old : Nat, n ∈ [1, 2, 4, 8] → opd < 2 ^ (8 * n) → cmp < 2 ^ (8 * n) → old < 2 ^ (8 * n) →
    let a := BitVec.ofNat (8 * n) old
    let b := BitVec.ofNat (8 * n) opd
    atomNew 0 n opd cmp old = some (a + b).toNat ∧ atomNew 1 n opd cmp old = some (a &&& b).toNat ∧
    atomNew 2 n opd cmp old = some (a ||| b).toNat ∧ atomNew 3 n opd cmp old = some (a ^^^ b).toNat ∧
    atomNew 4 n opd cmp old = some (if b.slt a then b else a).toNat ∧ atomNew 5 n opd cmp old = some (if a.slt b then b else a).toNat ∧
    atomNew 6 n opd cmp old = some (if b.ult a then b else a).toNat ∧ atomNew 7 n opd cmp old = some (if a.ult b then b else a).toNat ∧
    atomNew 8 n opd cmp old = some opd ∧ (atomNew 9 n opd cmp old = if old = cmp then some opd else none) ∧
    (n = 4 → atomNew 10 n opd cmp old = some (roundTo 0 ((valOf 0 old).add (valOf 0 opd) 0) 0 false 0)) ∧
    (n = 2 → atomNew 10 n opd cmp old = some (roundTo 2 ((valOf 2 old).add (valOf 2 opd) 0) 0 false 0)))

/-- VAOR, VAADD and VAMAX whose checks pass: index and element of every lane are read at issue; lanes with the index 0xFFFFFFFF
drop out, and the status word counts the bytes of the others (R73, R248); no earlier order of the queue has still to write them (R65). Which line a
misaligned lane belongs to is log entry 34. -/
def Obligations.VectorAtomics : Prop :=
  ∀ (i : Instr) (c : Ctl) (o : VAtom) (op : Nat) (s : State) (w : Word), vatomOf i = some (c, o, op) → i.wf = true →
    let n := elemBits o.ty / 8
    let nl := o.nl1 + 1
    let d := (s.decl o.buf).base * 4096
    let index (j : Nat) : Nat := leNat (Store.getN 0 s.ctile.sram (d + (512 * o.ioff + 4 * j)) 4)
    let value (j : Nat) : Nat := leNat (Store.getN 0 s.ctile.sram (d + (512 * o.eoff + n * j)) n)
    let live := (List.range nl).filter (fun j => index j != 0xFFFFFFFF)
    live ≠ [] → armed s o.sw (n * live.length) 0 w → MoveReady s c [o.h] false → noErrors s →
    s.coPending o.buf (512 * o.ioff) (4 * nl) = false → s.coPending o.buf (512 * o.eoff) (n * nl) = false →
    (∀ j, j < nl → s.chkRead 2 o.buf (512 * o.ioff + 4 * j) 4 = none ∧ s.chkRead 2 o.buf (512 * o.eoff + n * j) n = none) →
    ∃ (t : State) (k : Cmd), exec i s = .next t ∧
      MoveDone s t c (some (s.now + max (ceilDiv ((4 + n) * nl) 256) 1 - 1)) [] [] o.sw w s.ctile ∧
      Started s t k .vatom o.sw ∧ k.size = n ∧ k.op = op ∧ k.ty = o.ty ∧
      k.elems.map (fun e => e.lanes) =
        (byLine (live.map (fun j => ((recBase (recordOf s o.h) + index j * n) % 2 ^ 64, value j))) []).map (fun g => g.2)

/-- BIND, UNBIND, BSTATE, LRFLUSH and BINDSO whose checks pass (R226 to R230): an UNBIND of a FULL buffer with dirty granules drains it while
they are read, 16 cycles each; a BINDSO that is aligned is translated at issue (as reads, the model's choice, log entry 34), where its
pages are held. That LRFLUSH.fetch and BINDSO arm their status word with n = 1 is log entry 34. No earlier order of the queue has still to write
the buffer (R65). QFENCE in CI or CO lets the engine go on when what it waits for has come, and else holds it, with the engines that it
names, in an elastic segment, and raises OVERRUN in a timed one (R231), with condition 3 by the model's reading (log entry 29); orders of its own
issue cycle come after it. When that has come, and what an UNBIND of an EMPTY buffer does, is log entry 45. That an UNBIND clears the dirty marks
at its issue, while the granules are still to be written back, is the model's reading (log entry 21). -/
def Obligations.BufferControl : Prop :=
  ∀ (c : Ctl) (s : State) (sw : Nat) (w : Word),
    (∀ b h, armed s sw 0 0 w → MoveReady s c [h] false → s.coPendingAll b = false → s.chkSet b 0 = none → (s.ctile.buf b).bound = false → (s.ctile.buf b).still = true →
      recBase (recordOf s h) % 4096 = 0 → ∃ t, exec (.bind c b sw h) s = .next t ∧
        MoveDone s t c (some s.now) [(s.now, .bufBind b (recBase (recordOf s h)))] [] sw w s.ctile ∧ t.ctile.cmds = s.ctile.cmds) ∧
    (∀ b, MoveReady s c [] false → s.coPendingAll b = false → s.chkSet b 0 = none → (s.ctile.buf b).bound = true → (s.ctile.buf b).still = true →
      let gs := s.dirtyOf b
      (gs = [] → armed s sw 0 0 w → ∃ t, exec (.unbind c b sw) s = .next t ∧
        MoveDone s t c (some s.now) [(s.now, .unbound b)] [] sw w (s.ctile.clean (s.decl b)) ∧ t.ctile.cmds = s.ctile.cmds) ∧
      (gs ≠ [] → noErrors s → armed s sw (4096 * gs.length) 0 w → ∃ (t : State) (k : Cmd), exec (.unbind c b sw) s = .next t ∧
        MoveDone s t c (some s.now) (if (s.ctile.buf b).st = .full then [(s.now, .bufUnbind b), (s.now + 16 * gs.length, .unbound b)]
          else [(s.now, .unbound b)]) [] sw w (s.ctile.clean (s.decl b)) ∧
        Started s t k .cpout sw ∧ k.n = 4096 * gs.length ∧ k.elems.map (fun e => (e.va, e.data)) =
          gs.map (fun g => ((s.ctile.buf b).va + 4096 * g, Store.getN 0 s.ctile.sram ((s.decl b).base * 4096 + 4096 * g) 4096)))) ∧
    (∀ b, MoveReady s c [] false → s.coPendingAll b = false → s.chkSet b 0 = none → (s.ctile.buf b).still = true →
      (∃ t, exec (.bstateEmpty c b) s = .next t ∧
        MoveDone s t c (some s.now) [(s.now, .bufSet b false)] [] sw (Store.get 0 sw s.ctile.sw) s.ctile ∧ t.ctile.cmds = s.ctile.cmds) ∧
      (∃ t, exec (.bstateFull c b) s = .next t ∧
        MoveDone s t c (some s.now) [(s.now, .bufSet b true)] [] sw (Store.get 0 sw s.ctile.sw) s.ctile ∧ t.ctile.cmds = s.ctile.cmds)) ∧
    (∀ h, armed s sw 0 0 w → MoveReady s c [] false → ∃ t, exec (.lrflush c sw h) s = .next t ∧
      MoveDone s t c (some s.now) [(s.now, .uncache (s.recVa h))] [] sw w s.ctile ∧ t.ctile.cmds = s.ctile.cmds) ∧
    (∀ h, armed s sw 1 0 w → MoveReady s c [] true → ∃ (t : State) (k : Cmd), exec (.lrflushFetch c sw h) s = .next t ∧
      MoveDone s t c none [(s.now, .uncache (s.recVa h))] [] sw w s.ctile ∧ Started s t k .fetch sw ∧ k.va = s.recVa h) ∧
    (∀ hr ho scope (remove : Bool), armed s sw 1 0 w → MoveReady s c [hr, ho] false →
      let va := recBase (recordOf s hr)
      let n := recBytes (recordOf s hr)
      let obj := recBase (recordOf s ho)
      let aligned := va % 64 = 0 ∧ n % 64 = 0 ∧ obj % 8 = 0
      let sent (ret : Bool) (ps : List (Nat × Nat)) (pa : Nat) : Prop := ∃ (t : State) (k : Cmd),
        exec (if remove then .bindsoRemove c sw hr ho else .bindso c sw scope hr ho) s = .next t ∧
        MoveDone s t c (some s.now) [] [] sw w s.ctile ∧ Started s t k .bindso sw ∧ k.va = va ∧ k.n = n ∧ k.obj = obj ∧
        k.scope = (if remove then 0 else scope) ∧ k.ret = ret ∧ k.ranges = ps ∧ k.opd = pa ∧ k.code = 0
      (¬ aligned → sent false [] 0) ∧
      (∀ ps pa, aligned → s.translateRange s.slotNo va n kRead = .ok ps → s.translate s.slotNo obj kRead = .pa pa →
        s.plainPage s.slotNo obj = false → sent true ps pa)) ∧
    (∀ scope emask, MoveReady s c [] false →
      let x := s.ctile.before s.now
      let met := x.quietOf emask = true ∧ x.performed emask = true
      (met → ∃ t, exec (.qfenceCico c scope emask) s = .next t ∧
        MoveDone s t c (some s.now) [] [] sw (Store.get 0 sw s.ctile.sw) { s.ctile with fence := Store.put 0 s.cur.eng 0 s.ctile.fence } ∧
        t.ctile.cmds = s.ctile.cmds) ∧
      (¬ met → exec (.qfenceCico c scope emask) s = if s.ctile.timed then .next (s.takeTrap (overrun 3 s.now))
        else .next (s.setCtile { s.ctile with fence := Store.put 0 s.cur.eng emask s.ctile.fence })))

/-- COLL whose checks pass, of a group that holds this tile: its command waits with this tile's leaf, which leaves for the switches, and
the tile's count of the group goes up (R243, R244). A contribution that a switch has taken is combined; the one that completes the collective ends
it with the reduction in the order of the tree; past the 16 MiB of the switch, and past its time limit, the collective ends with code 5
(R244, R245, R379). That the leaf is read in the issue cycle is log entry 33, that a
contribution leaves at issue log entry 35. -/
def Obligations.Collectives : Prop :=
  (∀ (c : Ctl) (o : CollOp) (s : State) (rank total : Nat) (m : Member) (w : Word),
     let n := elemBits o.ty / 8
     let k := 64 * (o.nch + 1)
     let key := o.group * 65536 + s.cur.tile
     let seq := Store.get 0 key s.region.collCount + 1
     let el (i : Nat) : Nat := leNat (Store.getN 0 s.ctile.sram ((s.decl o.sbuf).base * 4096 + (512 * o.soff + n * i)) n)
     let leaf := collLeaf o.ty o.opn ((List.range m.parts).map (fun p => (List.range k).map (fun i => el (k * p + i))))
     (Instr.coll c o).wf = true → MoveReady s c [] true → noErrors s → s.coPending o.sbuf (512 * o.soff) (n * m.parts * k) = false → s.chkRset o.sbuf (512 * o.soff) = none → s.chkSet o.dbuf (512 * o.doff) = none →
     s.rankIn o.group = some (rank, m, total) → 0 < m.parts →
     (∀ i, i < m.parts * k → s.chkRead 2 o.sbuf (512 * o.soff + n * i) n = none) →
     (∀ i, i < k → s.chkWrite 2 o.dbuf (512 * o.doff + n * i) n = none) →
     s.findColl s.region.world s.region.jobid o.group seq = none → armed s o.sw (n * k) 0 w →
     ∃ (t : State) (x : Cmd) (f : Flight), exec (.coll c o) s = .next t ∧ Issued s t c f [] ∧ f.retire = none ∧
       Started s t x .coll o.sw ∧ x.gather = collBytes o.ty leaf ∧
       x.base = (s.decl o.dbuf).base * 4096 + 512 * o.doff ∧ t.outbox = s.outbox ++ [.contribution o.group seq rank (collBytes o.ty leaf)] ∧
       t.colls = s.colls ++ [{ world := s.region.world, jobid := s.region.jobid, group := o.group, seq := seq, ty := o.ty, opn := o.opn, c := k,
                               ep := o.ep == 1, total := total, waiting := [(s.slotNo, s.cur.tile, x.id, rank)] }] ∧
       t.region = { s.region with collCount := Store.put 0 key seq s.region.collCount } ∧
       (∀ q, q ≠ s.slotNo → t.slot q = s.slot q) ∧ t.mem = s.mem ∧ t.ctile.sram = s.ctile.sram ∧ t.ctile.bufs = s.ctile.bufs ∧
       ∀ q, Store.get 0 q t.ctile.sw = if q = o.sw then w else Store.get 0 q s.ctile.sw) ∧
  (∀ (s : State) (k rank : Nat) (data : List Byte) (x : Coll), s.colls[k]? = some x → x.done = false → x.bad = false →
    s.contribution x rank = some data → data.length = elemBits x.ty / 8 * x.c →
    let parts := Store.put [] rank data x.parts
    let ends (code : Nat) (result : List Byte) : Prop := ∀ n t id r c, x.waiting = [(n, t, id, r)] → s.cmdAt n t id = some c →
      ∃ u y, exec (.collContribution k rank data) s = .next u ∧ u.colls[k]? = some y ∧ y.done = true ∧ y.waiting = [] ∧
        EndsAtRetire (s.tileAt n t) (u.tileAt n t) c (s.slot n).rcc code (if code = 0 then [.sram c.eng c.base result, .bufFull c.buf] else [])
    (x.ep = true ∨ data.length * parts.length ≤ 2 ^ 24 →
      (x.total = 0 ∨ parts.length < x.total → exec (.collContribution k rank data) s =
        .next { s with colls := s.colls.modify k (fun y => { y with parts := parts, first := some (x.first.getD s.tb) }) }) ∧
      (x.total ≠ 0 → x.total ≤ parts.length → ends 0 (collBytes x.ty (collTree x.ty x.opn (parts.map (fun q => collElems x.ty x.c q.2)))))) ∧
    (x.ep = false → 2 ^ 24 < data.length * parts.length → ends 5 [])) ∧
  (∀ (s : State) (k f n t id r : Nat) (x : Coll) (c : Cmd), s.colls[k]? = some x → x.done = false → x.ep = false → x.first = some f → f + s.collLimit < s.tb →
    x.waiting = [(n, t, id, r)] → s.cmdAt n t id = some c → ∃ u y, exec (.collAbandon k) s = .next u ∧ u.colls[k]? = some y ∧ y.done = true ∧
      EndsAtRetire (s.tileAt n t) (u.tileAt n t) c (s.slot n).rcc 5 [])

/-- SEND and SENDK on a declared, free route inside the region: the words stand on the way to the peer, in order of its sequence
number, available there when the last has crossed (R234 to R237, R239). A peer outside the region raises OWNER, a hop that a mask does not
declare ILL, and a link that is taken holds the order in an elastic segment and raises OVERRUN in a timed one. RECV and RECVK with a transfer
of the peer in the hold: it leaves the hold and its bytes stand in the buffer at the end of the next cycle; one of another kind or size
raises TOKEN. With no transfer of the peer in the hold they wait in an elastic segment and raise OVERRUN in a timed one; a peer outside the
region raises OWNER (R238, R239). That a taken link is met before the checks of ReadBuf is the model's choice (log entry 29). -/
def Obligations.Exchanges : Prop :=
  (∀ (i : Instr) (c : Ctl) (o : Exch) (rank : Bool) (off n nw : Nat) (pack : List Nat → List Code) (s : State),
    sendOf i = some (c, o, rank, off, n, nw, pack) → i.wf = true → Due s c → noErrors s →
    let hops := route s.myX s.myY o.dx o.dy
    let u := ceilDiv nw 32
    let occ := s.occupy s.region u (s.now + 1) hops
    (hops.all s.region.hopDeclared = false → exec i s = .next (s.takeTrap ill)) ∧
    (hops.all s.region.hopDeclared = true → Clear s 5 o.buf off (n * (o.n1 + 1)) →
      (s.peerIn o = true → linksFree s.region.links occ = true →
        (∀ k, k ≤ o.n1 → s.chkRead 5 o.buf (off + n * k) n = none) →
        ∃ (t : State) (f : Flight), exec i s = .next t ∧ Issued s t c f [] ∧ f.retire = some s.now ∧ offRegions t = offRegions s ∧
          (∀ q, q ≠ s.slotNo → t.slot q = s.slot q) ∧ t.ctile.plain = ({ s.ctile with nxseq := (s.ctile.nxseq + 1) % 2 ^ 32 } : Tile).plain ∧
          t.region = { s.region with
            links := s.region.links.filter (fun l => s.now ≤ l.2.2) ++ occ
            flying := s.region.flying ++ [{
              src := s.cur.tile, dst := s.peer o, seq := s.ctile.nxseq, rank := rank, km1 := if rank then o.n1 else 0,
              words := pack ((List.range (o.n1 + 1)).map (fun k =>
                leNat (Store.getN 0 s.ctile.sram ((s.decl o.buf).base * 4096 + (off + n * k)) n))),
              avail := s.now + 2 + (hops.map (s.hopCost s.region)).sum + u - 1 }] }) ∧
      (s.peerIn o = true → linksFree s.region.links occ = false →
        exec i s = .next (if s.ctile.timed then s.takeTrap (overrun 5 s.now) else s)) ∧
      (s.peerIn o = false → exec i s = .next (s.takeTrap (ownerTrap o))))) ∧
  (∀ (c : Ctl) (o : Exch) (rank : Bool) (s : State), Due s c → s.cur.eng = 5 →
    let i : Instr := if rank then .recvk c o else .recv c o
    (s.peerIn o = false → exec i s = .next (s.takeTrap (ownerTrap o))) ∧
    (s.peerIn o = true → s.ctile.hold.find? (fun y => y.src == s.peer o) = none →
      exec i s = .next (if s.ctile.timed then s.takeTrap (overrun 3 s.now) else s))) ∧
  (∀ (c : Ctl) (o : Exch) (rank : Bool) (x : Xfer) (s : State), Due s c → s.cur.eng = 5 → s.peerIn o = true →
    s.ctile.hold.find? (fun y => y.src == s.peer o) = some x →
    let i : Instr := if rank then .recvk c o else .recv c o
    let off := if rank then 512 * o.off else 4 * o.off
    let n := if rank then 2 else 4
    let bytes := x.words.flatMap (fun w => leBytes 4 w.toNat)
    let fits := if rank then x.rank = true ∧ x.km1 = o.n1 else x.rank = false ∧ x.words.length = o.n1 + 1
    (¬ fits → exec i s = .next (s.takeTrap { cause := .token, opd1 := 30 + x.src * 2 ^ 48 })) ∧
    (fits → (∀ k, k ≤ o.n1 → s.chkWrite 5 o.buf (off + n * k) n = none) →
      ∃ (t : State) (f : Flight), exec i s = .next t ∧ restSame s t ∧
        Issued s t c f [(s.now + 1, .sram 5 ((s.decl o.buf).base * 4096 + off) (if rank then bytes.take (2 * (o.n1 + 1)) else bytes)),
          (s.now + 1, .bufFull o.buf)] ∧ f.retire = some (s.now + 1) ∧
        t.ctile.plain = ({ s.ctile with hold := s.ctile.hold.eraseP (fun y => y.src == s.peer o) } : Tile).plain))

/-- The error completions of the movement orders. At issue: an order whose record's fetch has ended with a code completes with that code,
and one whose status word cannot count its bytes, a BIND to a base that is not a multiple of 4,096, and a flush of an unbound buffer
with RANGE; no command starts, and a CPIN leaves the failure bit set (R54, R63, R214, R215, R221). When performed: a last element that
Translate refuses (XLATE, OWNER) ends its command with that code; no byte is written, and the buffer of a CPIN keeps the failure bit. POISON,
which also taints the instance, is not these cases. -/
def Obligations.MovementErrors : Prop :=
  ∀ (c : Ctl) (s : State) (sw code : Nat),
    let old := Store.get 0 sw s.ctile.sw
    let w := swMake (!old.getMsbD 0) code 0
    let filled (o : CopyIn) (land : Option Nat) : Prop := ∃ t : State, exec (.cpin c o) s = .next t ∧ t.ctile.cmds = s.ctile.cmds ∧
      MoveDone s t c (some (match land with
          | some l => l - 1
          | none => s.now)) [(s.now, .bufCpin o.buf)] [.fillDone o.buf] sw w
        (s.ctile.setBuf o.buf { s.ctile.buf o.buf with fail := true })
    let outright (i : Instr) (retire : Nat) (l : List (Nat × Eff)) (effs : List Eff) : Prop :=
      ∃ t : State, exec i s = .next t ∧ t.ctile.cmds = s.ctile.cmds ∧ MoveDone s t c (some retire) l effs sw w s.ctile
    (∀ h, RecordFailed s c h code → code ≠ 0 → code ≠ 1 → code < 128 →
      (∀ (o : CopyIn) (land : Option Nat), o.h = h → o.sw = sw → s.landOf o.x = .ok land → s.chkSet o.buf (256 * o.off) = none →
        (s.ctile.buf o.buf).cpinOk (o.ovw == 1) = true → filled o land) ∧
      (∀ o : CopyOut, o.h = h → o.sw = sw → s.coPending o.buf (256 * o.off) 0 = false → s.chkGet o.buf (256 * o.off) = none → (s.ctile.buf o.buf).cpoutOk = true →
        outright (.cpout c o) s.now [(s.now, .bufCpout o.buf)] [.drainDone o.buf]) ∧
      (∀ b, s.coPendingAll b = false → s.chkSet b 0 = none → (s.ctile.buf b).bound = false → (s.ctile.buf b).still = true →
        outright (.bind c b sw h) s.now [] []) ∧
      (∀ o : SyncOp, o.h = h → o.sw = sw → s.ctile.timed = false → s.chkWrite 1 o.buf (8 * o.off) 8 = none → outright (.acq c o) s.now [] []) ∧
      (∀ o : SyncOp, o.h = h → o.sw = sw → noErrors s → s.coPending o.buf (8 * o.off) 8 = false → s.chkRead 2 o.buf (8 * o.off) 8 = none →
        outright (.rel c o) s.now [] [])) ∧
    (code = 9 →
      (∀ (o : CopyIn) (land : Option Nat), let n := recBytes (recordOf s o.h)
        o.sw = sw → MoveReady s c [o.h] false → s.landOf o.x = .ok land → s.chkSet o.buf (256 * o.off) = none →
        (s.ctile.buf o.buf).cpinOk (o.ovw == 1) = true → 256 * o.off + n ≤ (s.decl o.buf).len * 4096 →
        old.toNat % 2 ^ 48 ≠ 0 → 2 ^ 48 ≤ old.toNat % 2 ^ 48 + n → filled o land) ∧
      (∀ b h, MoveReady s c [h] false → s.coPendingAll b = false → s.chkSet b 0 = none → (s.ctile.buf b).bound = false → (s.ctile.buf b).still = true →
        recBase (recordOf s h) % 4096 ≠ 0 → outright (.bind c b sw h) s.now [] []) ∧
      (∀ b, MoveReady s c [] false → s.coPendingAll b = false → s.chkGet b 0 = none → (s.ctile.buf b).cpoutOk = true → (s.ctile.buf b).bound = false →
        outright (.cpoutFlush c b sw) s.now [(s.now, .bufCpout b)] [.drainDone b])) ∧
    (∀ (n t id : Nat) (k : Cmd) (e : Elem), s.cmdAt n t id = some k → k.cw = none → k.pat = none → k.err = 0 → k.elems = [e] →
      0 < e.len → e.va % 64 + e.len ≤ 64 → code ≠ 0 → code ≠ 1 →
      let x := s.tileAt n t
      let ends (i : Instr) (more : State → Prop) : Prop := ∃ u : State, exec i s = .next u ∧ u.mem = s.mem ∧ u.slots = s.slots ∧
        (u.tileAt n t).sram = x.sram ∧ (u.tileAt n t).cmds = x.cmds.filter (fun q => q.id != id) ∧
        (∀ q, Store.get 0 q (u.tileAt n t).sw = if q = k.sw then swMake (!(Store.get 0 q x.sw).getMsbD 0) code 0 else Store.get 0 q x.sw) ∧
        (∀ p, p ≠ (s.slot n).phys t → u.tile p = s.tile p) ∧ more u
      (k.kind = .cpin → s.translate n e.va kRead = .code code → ends (.bytesPerformed n t id) (fun u =>
        ((u.tileAt n t).buf k.buf).fail = true ∧ ∀ b, b ≠ k.buf → (u.tileAt n t).buf b = x.buf b)) ∧
      (k.kind = .cpout → e.data.length = e.len → s.translate n e.va kWrite = .code code → ends (.bytesPerformed n t id) (fun u => (u.tileAt n t).bufs = x.bufs)))

namespace Sys2Proof.Claims
open Sys2Proof.Machine

/-! ## MX -/

/-- An MX order issues without delay (R14, R18, R31, R251): its engine is due, the tile has an MX, its unit, accumulators and ranges are
free, what it waits for has come, and no bit error stands in the tile. -/
structure MxReady (s : State) (c : Ctl) (n : MNeed) : Prop where
  due : Due s c
  unit : s.img.mxn = true
  ready : n.ready s.ctile s.now = true
  met : n.met = true
  whole : s.ctile.ecc = []

/-- An MX order has issued (R98, R250): the tile in hand is `x` but for the bookkeeping of orders, one more frame step is counted, its
units are held for their occupancy, and it retires in cycle issue + lat - 1 with the changes `effs` and the status word `done`. -/
structure MxDone (s t : State) (c : Ctl) (n : MNeed) (l : List (Nat × Eff)) (effs : List Eff) (done : Option (Nat × Nat × Bool)) (x : Tile) :
    Prop where
  rest : restSame s t
  issued : ∃ f : Flight, Issued s t c f l ∧ f.retire = some (s.now + n.lat - 1) ∧ f.effs = effs ∧ f.done = done ∧
    f.opRd = n.rd ∧ f.opWr = n.wr
  tile : t.ctile.plain = ({ x with fstepM := s.ctile.fstepM + 1 } : Tile).plain
  units : ∀ u, u ∈ n.unit → t.ctile.ready u.1 = s.now + u.2

/-- Every accumulator element of the tile in hand is as `f` says: accumulator first, then 128 times the row plus the column. -/
def AccIs (t : State) (f : Nat → Nat → Wa) : Prop := ∀ a k, k < 16384 → t.ctile.accEl a k = f a k

/-- Status word `sw` has been armed with a count of 1 (R63, R258), and no other one has changed. -/
def ArmedOne (s t : State) (sw : Nat) : Prop :=
  ∃ w, swArm (Store.get 0 sw s.ctile.sw) 1 = some w ∧ ∀ n, Store.get 0 n t.ctile.sw = if n = sw then w else Store.get 0 n s.ctile.sw

/-- Arming status word `sw` with a count of 1 is possible. -/
def canArm (s : State) (sw : Nat) : Prop := (swArm (Store.get 0 sw s.ctile.sw) 1).isSome = true

/-- What an MMA, MMAS or MMUL starts from (R275): an EMPTY shadow takes its partner's elements, or zeros under CLR. -/
def startAcc (s : State) (o : MmaOp) (a k : Nat) : Wa :=
  if a = o.acc ∧ 4 ≤ o.acc ∧ (s.ctile.shadow o.acc).st = .empty then (if o.clr = 1 then 0 else s.ctile.accEl o.part k)
  else s.ctile.accEl a k

/-- The change of the shadow state at the end of the issue cycle. -/
def shadowEff (s : State) (o : MmaOp) : List (Nat × Eff) :=
  if 4 ≤ o.acc ∧ (s.ctile.shadow o.acc).st = .empty then [(s.now, .shadow o.acc { st := .pending, partner := o.part })] else []

/-- The elements of the M by N block take the multiply-accumulate of their row and column, and the others stand. -/
def macAcc (s : State) (o : MmaOp) (q : Nat) (arow brow : Nat → Nat) (ks : Nat → List (Nat × Nat)) (a k : Nat) : Wa :=
  let i := k / 128
  let j := k % 128
  if a = o.acc ∧ i < shpM o.shp ∧ j < shpN o.shp then
    macElem s.ctile (s.ctile.fent o.f) q (if o.clr = 1 then 0 else startAcc s o a k) (arow i) (brow j) (ks i)
  else startAcc s o a k

/-- 64-byte units of a buffer, read from tile SRAM. -/
def bufData (s : State) (buf off n : Nat) : List Byte := Store.getN 0 s.ctile.sram ((s.decl buf).base * 4096 + 64 * off) n

/-- Every 64-byte element of `n` bytes may be read by MX, or written. -/
def mxReads (s : State) (buf off n : Nat) : Prop := ∀ k, k < n → s.chkRead 4 buf (64 * off + 64 * k) 64 = none
def mxWrites (s : State) (buf off n : Nat) : Prop := ∀ k, k < ceilDiv n 64 → s.chkWrite 4 buf (64 * off + 64 * k) 64 = none

end Sys2Proof.Claims

open Sys2Proof Sys2Proof.Machine Sys2Proof.Claims

/-! ## MX -/

/-- MMA and MMUL whose checks pass: the block of the shape takes the dense products of Table 14.2's K positions, by the class of the
entry; MMAS takes the kept positions of its metadata, and completes its status word at retirement (R250, R256 to R258, R275). Two clauses are the
model's choice (log entry 30): that an EMPTY shadow opened with CLR = 1 has zero outside M x N, where the table row and the text of R275
differ, and what MMAS with an invalid metadata word leaves alone. -/
def Obligations.Multiply : Prop :=
  ∀ (c : Ctl) (o : MmaOp) (s : State),
    let e := s.ctile.fent o.f
    let col := rowCol (rowOf (entA e))
    let k := shpK o.shp col
    let full := shpM o.shp * shpN o.shp * k
    (∀ modular : Bool,
      let i : Instr := if modular then .mmul c o else .mma c o
      let occ := full / rate col
      let rs := [(64 * o.a, shpM o.shp * packedBytes (entA e) k), (64 * o.b, shpN o.shp * packedBytes (entB e) k)]
      let n : MNeed := { unit := [(keyArray, occ)], lat := occ + (if modular then 14 else 10), accs := s.ctile.mmaAccs o.acc o.part o.clr,
                         mma := some o.acc, joins := true, rd := rs }
      let q : QReg := Store.get {} o.q s.ctile.qM
      i.wf = true → MxReady s c n → entValid e = true → (rowClass (rowOf (entA e)) == 2) = modular → entSpn e = 0 →
      (modular = true → q.valid = true) → s.ctile.shadowChk o.acc o.part = none → s.ctile.rangesChk rs = none →
      ∃ t, exec i s = .next t ∧ MxDone s t c n (shadowEff s o) [] none { s.ctile with acc := t.ctile.acc } ∧
        AccIs t (macAcc s o q.q (fun i => 64 * o.a + i * packedBytes (entA e) k) (fun j => 64 * o.b + j * packedBytes (entB e) k)
          (fun _ => (List.range k).map (fun p => (p, p))))) ∧
    (let gs := ceilDiv k 12
     let occ := max (ceilDiv (full * entSpn e) (12 * rate col)) (full / (4 * rate col))
     let rs := [(64 * o.a, shpM o.shp * packedBytes (entA e) (gs * entSpn e)), (64 * o.b, shpN o.shp * packedBytes (entB e) k),
                (64 * o.md, shpM o.shp * 2 * gs)]
     let n : MNeed := { unit := [(keyArray, occ)], lat := occ + 10, accs := s.ctile.mmaAccs o.acc o.part o.clr, mma := some o.acc, joins := true,
                        rd := rs }
     let ok := ∀ i g, i < shpM o.shp → g < gs → metaOk k (entSpn e) g (s.ctile.meta (64 * o.md) gs i g) = true
     let ph := (Store.get 0 o.sw s.ctile.sw).getMsbD 0
     (Instr.mmas c o).wf = true → MxReady s c n → entValid e = true → col ≤ 1 → entSpn e ≠ 0 →
     s.ctile.shadowChk o.acc o.part = none → s.ctile.rangesChk rs = none → canArm s o.sw →
     (ok → ∃ t, exec (.mmas c o) s = .next t ∧ ArmedOne s t o.sw ∧
       MxDone s t c n (shadowEff s o) [] (some (o.sw, 0, ph)) { s.ctile with acc := t.ctile.acc, sw := t.ctile.sw } ∧
       AccIs t (macAcc s o 0 (fun i => 64 * o.a + i * packedBytes (entA e) (gs * entSpn e)) (fun j => 64 * o.b + j * packedBytes (entB e) k)
         (fun i => (s.ctile.kept (64 * o.md) gs i).zipIdx.map (fun p => (p.2, p.1))))) ∧
     (¬ ok → ∃ t, exec (.mmas c o) s = .next t ∧ ArmedOne s t o.sw ∧
       MxDone s t c n [] [] (some (o.sw, 9, ph)) { s.ctile with sw := t.ctile.sw }))

/-- RKMAC whose checks pass: one row of the accumulator takes the products of the live rank positions, in groups of eight, and the
status word completes at retirement, with RANGE where an index lies beyond the rows (R260). -/
def Obligations.RankAccumulate : Prop :=
  ∀ (c : Ctl) (o : RkOp) (s : State),
    let k := o.k1 + 1
    let all := (List.range k).map (fun r => leNat (Store.getN 0 s.ctile.sram ((s.decl o.buf).base * 4096 + (64 * o.off + 2 * r)) 2))
    let idx := all.takeWhile (fun i => i != 0xFFFF)
    let occ := max (ceilDiv idx.length 8) 1
    let rs := [(slotBytes * o.slot, (o.nr1 + 1) * 128 * (elemBits (rkType o.wt) / 8))]
    let n : MNeed := { unit := [(keyArray, occ)], lat := occ + 8, accs := [o.acc], mma := some o.acc, rd := rs }
    (Instr.rkmac c o).wf = true → MxReady s c n → s.ctile.ready keyAtt ≤ s.now →
    Clear s 4 o.buf (64 * o.off) (2 * k) → s.ctile.rangesChk rs = none →
    (∀ r, r < k → s.chkRead 4 o.buf (64 * o.off + 2 * r) 2 = none) → canArm s o.sw →
    ∃ t, exec (.rkmac c o) s = .next t ∧ ArmedOne s t o.sw ∧
      MxDone s t c n [] [] (some (o.sw, if idx.all (· ≤ o.nr1) then 0 else 9, (Store.get 0 o.sw s.ctile.sw).getMsbD 0))
        { s.ctile with acc := t.ctile.acc, sw := t.ctile.sw } ∧
      AccIs t (fun a p => if a = o.acc ∧ p / 128 = o.row
        then rkElem s.ctile o (p % 128) k (if o.clr = 1 then 0 else s.ctile.accEl a p) idx.zipIdx else s.ctile.accEl a p)

/-- FMTSET and NESTCFG of MX, OCLAIM, ORELEASE, OLOAD, MXWAIT and both RKLOADs whose checks pass (R259, R261, R262, R264, R265, R270,
R271). -/
def Obligations.MatrixSetup : Prop :=
  ∀ (c : Ctl) (s : State),
    (∀ f v, (Instr.fmtsetMx c f v).wf = true → MxReady s c { lat := 1 } → entLegal v = true → s.fmtBarred v = false →
      ∃ t, exec (.fmtsetMx c f v) s = .next t ∧ MxDone s t c { lat := 1 } [(s.now, .fmt f v)] [] none s.ctile) ∧
    (∀ r v, (Instr.nestcfgMx c r v).wf = true → MxReady s c { lat := 1 } → nestOk r v = true →
      ∃ t, exec (.nestcfgMx c r v) s = .next t ∧ MxDone s t c { lat := 1 } [(s.now, .nest r v)] [] none s.ctile) ∧
    (∀ k, MxReady s c { lat := 1 } → s.ctile.claim.testBit k = false → ∃ t, exec (.oclaim c k) s = .next t ∧
      MxDone s t c { lat := 1 } [] [] none { s.ctile with claim := t.ctile.claim, opmem := t.ctile.opmem } ∧
      (∀ j, t.ctile.claim.testBit j = (decide (j = k) || s.ctile.claim.testBit j)) ∧
      ∀ a, Store.get 0 a t.ctile.opmem = if a / slotBytes = k then 0 else Store.get 0 a s.ctile.opmem) ∧
    (∀ k, MxReady s c { lat := 1, rel := some k } → s.ctile.claim.testBit k = true → ∃ t, exec (.orelease c k) s = .next t ∧
      MxDone s t c { lat := 1, rel := some k } [] [] none { s.ctile with claim := t.ctile.claim } ∧
      ∀ j, t.ctile.claim.testBit j = (decide (j ≠ k) && s.ctile.claim.testBit j)) ∧
    (∀ slot bfx doff nb1 buf off,
      let nb := 64 * (nb1 + 1)
      let occ := ceilDiv nb 256
      let dst := slotBytes * slot + 64 * doff
      let data := if bfx = 1 then bfxPack s.ctile.bfxM s.ctile.slotTyM (bufData s buf off nb) else bufData s buf off nb
      let n : MNeed := { unit := [(keyMPort, occ)], lat := occ + 3, wr := [(dst, data.length)] }
      MxReady s c n → Clear s 4 buf (64 * off) nb →
      (bfx = 1 → (bfxOut s.ctile.bfxM s.ctile.slotTyM nb).isSome = true) → s.ctile.rangesChk [(dst, data.length)] = none →
      mxReads s buf off (nb1 + 1) →
      ∃ t, exec (.oload c slot bfx doff nb1 buf off) s = .next t ∧ MxDone s t c n [] [] none { s.ctile with opmem := t.ctile.opmem } ∧
        ∀ a, Store.get 0 a t.ctile.opmem = if dst ≤ a ∧ a < dst + data.length then data.getD (a - dst) 0 else Store.get 0 a s.ctile.opmem) ∧
    (∀ n : MNeed, n = { lat := 1 } → MxReady s c n → s.ctile.flights.all (fun f => f.eng != 4) = true →
      ∃ t, exec (.mxwait c) s = .next t ∧ MxDone s t c n [] [] none s.ctile) ∧
    (∀ buf off, let n : MNeed := { unit := [(keyMPort, 2)], lat := 4 }
      let value (k : Nat) : BitVec 16 := BitVec.ofNat 16 (leNat (Store.getN 0 s.ctile.sram ((s.decl buf).base * 4096 + (64 * off + 2 * k)) 2))
      MxReady s c n → Clear s 4 buf (64 * off) 512 →
      (∀ k, k < 256 → s.chkRead 4 buf (64 * off + 2 * k) 2 = none) →
      (∃ t, exec (.rkloadAtt c buf off) s = .next t ∧ MxDone s t c n [] [] none { s.ctile with att := t.ctile.att } ∧
        t.ctile.ready keyAtt = s.now + 4 ∧ ∀ k, Store.get 0 k t.ctile.att = if k < 256 then value k else 0) ∧
      (∃ t, exec (.rkloadRct c buf off) s = .next t ∧ MxDone s t c n [] [.vxRct t.ctile.rct] none { s.ctile with rct := t.ctile.rct } ∧
        ∀ k, Store.get 0 k t.ctile.rct = if k < 256 then value k else 0))

/-- ACLR, AMOV, AMOV.add and AMOV.merge whose checks pass: the named accumulators, element by element (R266, R267, R275).
AOUT, ASTOW and ARESTORE whose checks pass: the bytes stand in the buffer at the end of their last cycle, and the saved form of an
accumulator is 9 bytes an element, little-endian (R89, R268, R269). -/
def Obligations.Accumulators : Prop :=
  ∀ (c : Ctl) (s : State),
    (∀ mask, let n : MNeed := { unit := [(keyArray, 1)], lat := 2, accs := (List.range 4).filter (fun a => mask.testBit a) }
      (Instr.aclr c mask).wf = true → MxReady s c n → ∃ t, exec (.aclr c mask) s = .next t ∧
        MxDone s t c n [] [] none { s.ctile with acc := t.ctile.acc } ∧
        AccIs t (fun a k => if a < 4 ∧ mask.testBit a = true then 0 else s.ctile.accEl a k)) ∧
    (∀ d a, let n : MNeed := { unit := [(keyArray, 16)], lat := 18, accs := [d, a] }
      MxReady s c n →
      (s.ctile.shadowRead a = none → ∃ t, exec (.amov c d a) s = .next t ∧
        MxDone s t c n [] [] none { s.ctile with acc := t.ctile.acc } ∧ AccIs t (fun b k => if b = d then s.ctile.accEl a k else s.ctile.accEl b k)) ∧
      (∀ cls q, let r : QReg := Store.get {} q s.ctile.qM
        (cls = 2 → r.valid = true) → s.ctile.shadowRead a = none → ∃ t, exec (.amovAdd c d a cls q) s = .next t ∧
          MxDone s t c n [] [] none { s.ctile with acc := t.ctile.acc } ∧
          AccIs t (fun b k => if b = d then waAdd cls r.q (s.ctile.accEl d k) (s.ctile.accEl a k) else s.ctile.accEl b k)) ∧
      ((s.ctile.shadow a).st = .committed → (s.ctile.shadow a).partner = d → ∃ t, exec (.amovMerge c d a) s = .next t ∧
        MxDone s t c n [(s.now, .shadow a {})] [] none { s.ctile with acc := t.ctile.acc } ∧
        AccIs t (fun b k => if b = d then s.ctile.accEl a k else s.ctile.accEl b k))) ∧
    (let later (due buf off : Nat) (data : List Byte) : List (Nat × Eff) :=
      [(due, .sram s.cur.eng ((s.decl buf).base * 4096 + 64 * off) data), (due, .bufFull buf)]
    (∀ acc f nrows1 rbase buf off,
      let e := s.ctile.fent f
      let bytes := (nrows1 + 1) * rowBytes (entOtype e)
      let occ := ceilDiv bytes 256
      let n : MNeed := { unit := [(keyMPort, occ)], lat := occ + 6, accs := [acc] }
      let rnd (l : Nat) : Nat := if entRmode e = 4 then srRnd s.ctile.seedM s.ctile.fstepM l else 0
      MxReady s c n → rbase + nrows1 + 1 ≤ 128 → entValid e = true → s.ctile.shadowRead acc = none → mxWrites s buf off bytes →
      ∃ t, exec (.aout c acc f nrows1 rbase buf off) s = .next t ∧
        MxDone s t c n (later (s.now + occ + 5) buf off
          ((List.range (nrows1 + 1)).flatMap (fun r => aoutRow s.ctile e acc (rbase + r) rnd))) [] none s.ctile) ∧
    (∀ acc buf off, let n : MNeed := { unit := [(keyMPort, 576)], lat := 578, accs := [acc] }
      MxReady s c n →
      (s.ctile.shadowRead acc = none → mxWrites s buf off 147456 → ∃ t, exec (.astow c acc buf off) s = .next t ∧
        MxDone s t c n (later (s.now + 577) buf off
          ((List.range 16384).flatMap (fun i => leBytes 9 (s.ctile.accEl acc i).toNat))) [] none s.ctile) ∧
      (Clear s 4 buf (64 * off) 147456 → mxReads s buf off 2304 →
        ∃ t, exec (.arestore c acc buf off) s = .next t ∧ MxDone s t c n [] [] none { s.ctile with acc := t.ctile.acc } ∧
          AccIs t (fun a k => if a = acc
            then BitVec.ofNat 72 (leNat (Store.getN 0 s.ctile.sram ((s.decl buf).base * 4096 + 64 * off + 9 * k) 9)) else s.ctile.accEl a k))))

/-- NESTGO whose iterations pass their checks: the named accumulators are cleared, every iteration runs as a dense multiply in the order
of the nest, and the nest stands as the one in use (R272 to R274). -/
def Obligations.LoopNest : Prop :=
  ∀ (c : Ctl) (shp acc mask sw a b : Nat) (s : State),
    let hd := (Store.get 0 6 s.ctile.nlv).toNat
    let its := nestIters ((List.range 6).map (fun l => (Store.get 0 l s.ctile.nlv).toNat)) hd acc (64 * a) (64 * b)
    let q : QReg := Store.get {} (bits hd 5 3) s.ctile.qM
    let rows := its.map (fun i => rowOf (entA (s.ctile.iterEnt i)))
    let first := rows.headD 0
    let occ := 4 + (its.map (s.ctile.iterOcc shp)).sum
    let cl := (List.range 4).filter (fun n => mask.testBit n)
    let n : MNeed := { unit := [(keyArray, occ)],
                       lat := if its = [] then 4 else occ + (if rows.any (fun r => rowClass r == 2) then 14 else 10),
                       accs := its.map (fun i => i.n.toNat) ++ cl, rd := its.flatMap (fun i => denseRanges (s.ctile.iterEnt i) shp i.a i.b) }
    (Instr.nestgo c shp acc mask sw a b).wf = true → MxReady s c n →
    (∀ i, i ∈ its → s.ctile.iterChk shp (rowCol first) (bits hd 5 3) i = none) → canArm s sw →
    ∃ t, exec (.nestgo c shp acc mask sw a b) s = .next t ∧ ArmedOne s t sw ∧
      MxDone s t c n [] [] (some (sw, 0, (Store.get 0 sw s.ctile.sw).getMsbD 0))
        { s.ctile with acc := t.ctile.acc, sw := t.ctile.sw, nlvA := s.ctile.nlv } ∧
      AccIs t (fun m k => (its.foldl (fun v i => v.macDense i.n.toNat (s.ctile.iterEnt i) q.q shp i.clr i.a i.b)
        (cl.foldl Tile.clearAcc s.ctile)).accEl m k)

namespace Sys2Proof.Claims
open Sys2Proof.Machine

/-! ## The steps of the agents -/

/-- The region of slot `n` is within a cycle, its next look that of an engine (R11, R31). -/
def inCycle (s : State) (n : Nat) : Prop :=
  (s.slot n).st = .running ∧ (s.slot n).ended = false ∧ (s.slot n).held = false ∧ (s.slot n).pos < 6 * (s.slot n).count

/-- The tile whose engine looks next, and the tile's own order of looks for the cycle (R173). -/
def lookTile (s : State) (n : Nat) : Nat := (s.slot n).pos / 6
def lookOrder (s : State) (n : Nat) : State :=
  if (s.slot n).pos % 6 = 0 then s.setTileAt n (lookTile s n) { s.tileAt n (lookTile s n) with sqLate := (s.tileAt n (lookTile s n)).sqWaits } else s
/-- The engine that looks next. -/
def lookEngine (s : State) (n : Nat) : Nat := engineAt ((lookOrder s n).tileAt n (lookTile s n)).sqLate ((s.slot n).pos % 6)
/-- The state in which it looks: before NX the arrivals of the cycle enter the hold (R238). -/
def lookState (s : State) (n : Nat) : State :=
  let u := lookOrder s n
  let x := u.tileAt n (lookTile s n)
  let v := if lookEngine s n = 5 ∧ x.stopped = false ∧ x.rended = false then u.arrivals n (lookTile s n) else u
  v.setSlot n { v.slot n with pos := (s.slot n).pos + 1 }

/-- One slot takes a new content, and nothing else changes. -/
structure SlotOnly (s t : State) (n : Nat) (r : Slot) : Prop where
  slot : t.slot n = r
  others : ∀ m, m ≠ n → t.slot m = s.slot m
  rest : { t with slots := [] } = { s with slots := [] }
/-- The same of a tile. -/
structure TileOnly (s t : State) (p : Nat) (x : Tile) : Prop where
  tile : t.tile p = x
  others : ∀ q, q ≠ p → t.tile q = s.tile q
  rest : t.offTiles = s.offTiles
/-- An event joins the queue of 1,024, or counts as lost (R301). -/
def posted (s t : State) (e : Event) : Prop :=
  if 1024 ≤ s.evq.length then t.evq = s.evq ∧ t.evLost = s.evLost + 1 else t.evq = s.evq ++ [e] ∧ told s t 4
/-- An error record has gone out (R361). -/
def recorded (s t : State) : Prop := t.errSeq = s.errSeq + 1 ∧ (∃ d, t.outbox = s.outbox ++ [.errorRecord d]) ∧ told s t 32

/-- A Harness command has completed (R305): the slot holds `r` with the result, and HDONE is told. -/
structure CmdEnds (s t : State) (n err : Nat) (r : Slot) : Prop where
  slot : t.slot n = { r with err := err, done := true }
  others : ∀ m, m ≠ n → t.slot m = s.slot m
  told : told s t 2
  mem : t.mem = s.mem
/-- A slot may take a command: it exists, no command of it is in hand, and it is not FREE (R305). -/
def takesCmd (s : State) (n : Nat) : Prop := n < 1344 ∧ (s.slot n).done = true ∧ (s.slot n).st ≠ .free
/-- The Harness commands of slot `n` (Table 18.7). -/
def commandsOf (n : Nat) : List Instr := [.stow n 0, .stow n 1, .freeze n, .thaw n, .replay n, .abort n 0, .resume n 0 0 0]

/-- Register `g[k]` as eight bytes of the tile's own stow area hold it (Tables 18.8 and 18.9). -/
def savedG (x : Tile) (off k : Nat) : Word := BitVec.ofNat 64 (leNat (Store.getN 0 x.sram (Config.stowBase + off + 8 * k) 8))

/-- No effect of tile `t` but those that follow the retirements falls due in the current cycle, and no word of it is in error. -/
def settled (s : State) (n t : Nat) : Prop :=
  (∀ e, e ∈ (s.tileAt n t).effs → (s.slot n).rcc < e.1 ∨ e.2.isLate = true) ∧ (s.tileAt n t).ecc = []

/-- An order leaves its tile, which its own effects have made `y` (R14, R217): its status word completes, and its token is pushed, or a
push above 15 raises TOKEN; where it is SQ's, SQ is a trapping engine (R305). -/
structure Retires (s t : State) (n k : Nat) (f : Flight) (y : Tile) : Prop where
  rest : { t with tiles := [], slots := [] } = { s with tiles := [], slots := [] }
  others : ∀ p, p ≠ (s.slot n).phys k → t.tile p = s.tile p
  slots : ∀ m, { t.slot m with tainted := (s.slot m).tainted } = s.slot m
  tile : { t.tileAt n k with sw := y.sw, tokens := y.tokens, trapNow := y.trapNow, again := y.again } =
    { y with flights := y.flights.filter (fun g => g.id != f.id) }
  status : ∀ q, Store.get 0 q (t.tileAt n k).sw = match f.done with
    | some (w, c, ph) => if q = w then (if c = 0 then swPerform (Store.get 0 q y.sw) ph f.doneN else swStatus (Store.get 0 q y.sw) c) else Store.get 0 q y.sw
    | none => Store.get 0 q y.sw
  tokens : ∀ q, Store.get 0 q (t.tileAt n k).tokens = match f.push with
    | some c => if q = fifo f.eng c ∧ y.token f.eng c < 15 then Store.get 0 q y.tokens + 1 else Store.get 0 q y.tokens
    | none => Store.get 0 q y.tokens
  trap : y.trapNow = none → match f.push with
    | some c => (15 ≤ y.token f.eng c ↔ (t.tileAt n k).trapNow.isSome = true) ∧ ∀ r, (t.tileAt n k).trapNow = some r → r.cause = .token
    | none => (t.tileAt n k).trapNow = none
  again : (t.tileAt n k).again = match f.push with
    | some c => if f.eng = 0 ∧ 15 ≤ y.token f.eng c then y.again ||| 1 else y.again
    | none => y.again

/-- The draining engines of a tile that have no order in flight stop, but those that an ESTOP of the cycle made drain (R13, R54). -/
structure DrainEnds (x y : Tile) : Prop where
  engines : ∀ e, y.eng e = if 1 ≤ e ∧ e ≤ 5 ∧ (x.eng e).st = .draining ∧ x.estopped / 2 ^ e % 2 = 0 ∧ (∀ f, f ∈ x.flights → f.eng ≠ e)
    then { x.eng e with st := .stopped } else x.eng e
  rest : { y with engs := x.engs } = x

/-- A region goes on after a freeze (R305): where SQ's order trapped it goes to TRET.STEP, and the order of another engine that trapped
issues again in cycle c + 1. -/
structure Thawed (x y : Tile) (c : Nat) : Prop where
  sq : y.eng 0 = if x.again.testBit 0 then { x.eng 0 with step := x.tret.toNat % 65536, stamp := none, next := max (x.eng 0).next (c + 1) } else x.eng 0
  others : ∀ e, 1 ≤ e → e ≤ 5 → y.eng e = if x.again.testBit e then { x.eng e with next := c + 1 } else x.eng e
  rest : { y with engs := x.engs, again := x.again, inFreeze := x.inFreeze } = x

/-- No snapshot of the region's job runs, and no buffer of the region waits to be copied. -/
def calm (s : State) (n : Nat) : Prop := (s.snap (s.slot n).job).st = .idle ∧ s.nextSnapped n = none
/-- An instance has ended ABORTED (R283, R305, R323): its slot is FREE, its commands are dropped, and its node, where it was the last, is
DONE with the verdict and the reason. -/
structure Aborted (s t : State) (n reason : Nat) : Prop where
  free : (t.slot n).st = .free
  cmds : ∀ k, k < (s.slot n).count → (s.slot n).evicted = false → (t.tile ((s.slot n).phys k)).cmds = []
  node : ∀ x, s.node (s.slot n).vif (s.slot n).lid = some x → x.st = .running → x.ended + 1 = x.total → x.verdict < 4 →
    ∃ y, t.nodeAt x.arrival = some y ∧ y.st = .done ∧ y.verdict = 4 ∧ y.reason = reason ∧ y.ended = x.total

/-- The placer moves a region: a stow with EVICT of one that runs, the state of one that stands stowed is moved away (R322). -/
def movedSlot (r : Slot) : Slot :=
  if r.st = .running ∨ r.st = .frozen then { r with preq := true, evictReq := true, moving := true }
  else if r.st = .stowed ∧ r.evicted = false then { r with evictReq := true, moving := true } else r
/-- A bit of the health of a tile is cleared; where `moves`, the region on it is to be moved (R321, R322). -/
structure HealthLoss (s t : State) (p b : Nat) (moves : Nat → Prop) : Prop where
  bit : bits (t.healthOf p) b 1 = 0
  others : ∀ k, k < 7 → k ≠ b → bits (t.healthOf p) k 1 = bits (s.healthOf p) k 1
  counts : bits (t.healthOf p) 8 8 = bits (s.healthOf p) 8 8
  tiles : ∀ q, q ≠ p → t.healthOf q = s.healthOf q
  region : ∀ m, s.slotOn p = some m → moves m → t.slot m = movedSlot (s.slot m)
  rest : { t with health := [], slots := [] } = { s with health := [], slots := [] }

end Sys2Proof.Claims

open Sys2Proof Sys2Proof.Machine Sys2Proof.Claims

/-! ## The machine -/

/-- A step copies the SNAPPED buffers that it would change, and is otherwise the next move of the agenda or a step of the agent in focus.
The word at the front of an agent's store is executed by `exec`: for a control core, a walker core, a handler and an engine that looks;
and an event of the agenda is executed likewise. Around `exec` a step of an engine or of an event keeps the model's own record of the reads in
hand that happen before others (R66; log entry 61), and changes nothing else by that. -/
def Obligations.StepRunsWord : Prop :=
  (∀ s : State, ∃ bs : List (Nat × Nat × Nat), (∀ b, b ∈ bs → b ∈ s.snappedBufs) ∧
    step s = (bs.foldl (fun (v : State) b => v.copyBuffer b.1 b.2.1 b.2.2) s).stepOnce) ∧
  (∀ (s : State) (i : Instr) (r : List Move), s.snappedBufs = [] → s.agenda = .event i :: r → encode i = [] →
    step s = ({ s with agenda := r } : State).known (exec i { s with agenda := r })) ∧
  (∀ (s : State) (n : Nat) (d : Decoded), s.snappedBufs = [] → s.agenda = [] → s.focus = .core n → n < 16 →
    (s.core n).failed = false → (s.core n).takes = false → (s.core n).halted = false →
    let ws := wordsFrom (s.core n).istore (s.core n).step 3
    decode ws = .ok d → coreAccepts d = true →
    step s = exec d.instr { s with cur := curOf (.core n) 0 0 (s.core n).step ws d }) ∧
  (∀ (s : State) (n : Nat) (d : Decoded), s.snappedBufs = [] → s.agenda = [] → s.focus = .walker n → n < 8 → s.poison = [] →
    (s.walker n).walking = true → (s.walker n).halted = false → (s.walker n).failed = false →
    let ws := s.walkWords n (s.walker n).step
    decode ws = .ok d → coreAccepts d = true →
    step s = exec d.instr { s with cur := curOf (.walker n) 0 0 (s.walker n).step ws d }) ∧
  (∀ (s : State) (n t : Nat) (d : Decoded), s.snappedBufs = [] → s.agenda = [] → s.focus = .region n → n < 1344 →
    let r := s.slot n
    let x := s.tileAt n t
    r.st = .frozen → r.handler = true → t = r.hpos → t < r.count → x.hflag = true → x.hnext ≤ r.hcyc → x.ecc = [] →
    let k := (x.eng 0).step
    let ws := wordsFrom x.store k 3
    decode ws = .ok d → handlerAccepts d = true →
    step s = exec d.instr { s.setSlot n { r with hpos := t + 1 } with cur := curOf (.region n) t 0 k ws d }) ∧
  (∀ (s v : State) (n : Nat) (d : Decoded), s.snappedBufs = [] → s.agenda = [] → s.focus = .region n → n < 1344 → inCycle s n →
    let t := lookTile s n
    let e := lookEngine s n
    let u := lookState s n
    let x := u.tileAt n t
    let k := x.fetchStep e
    let ws := wordsFrom x.store k 3
    x.looks e (u.slot n).rcc = true → x.mayFetch e (u.slot n).rcc = true → x.ecc = [] → decode ws = .ok d → engineAccepts e d = true →
    exec d.instr { u with cur := curOf (.region n) t e k ws d } = .next v →
    step s = .next (if u.stamped v n t e then v.setSlot n { v.slot n with pos := (s.slot n).pos } else u.lookKnown v n t e (some d.instr))) ∧
  (∀ s u : State, ∃ h, s.doneKnown u = { u with hb := h }) ∧
  (∀ (s u : State) (n t e : Nat) (i : Option Instr), ∃ h, s.lookKnown u n t e i = { u with hb := h })

/-- Taking a trap (R64, R290 to R293): the word has no effect, the tile notes its record, and after the cycle the region freezes with
the record in its trap registers: TRET is the step after an order of SQ, that after a TRAP's word, and else SQ's step counter, with REPLAY zero.
Handlers run, each from its handler step with the handler flag set, if every trapping tile has one for its cause, else the control cores are
told (R294, R295). At the end of a handler cycle the next begins, or, where a handler has raised a fault, every handler of the freeze ends and
the control cores are told. A command in hand completes as its region freezes (log entry 13); that the fault takes effect at the end of the handler cycle is the model's reading (log entry 8). -/
def Obligations.TrapRecord : Prop :=
  (∀ (s : State) (c : Cause) (op0 : Option Nat) (op1 : Nat) (tr : Option Nat), s.clocked = true → s.ctile.trapNow = none → c ≠ .poison → c ≠ .sdc →
    s.takeTrap { cause := c, opd0 := op0, opd1 := op1, tret := tr } = s.setCtile { s.ctile with
      trapNow := some { cause := c, eng := s.cur.eng, step := s.cur.step, opd1 := BitVec.ofNat 64 op1, tret := tr,
                        opd0 := BitVec.ofNat 64 (match op0 with
                          | some v => v
                          | none => s.cur.word + s.cur.pay * 2 ^ 32 + s.cur.np * 2 ^ 58) },
      again := s.ctile.again ||| 2 ^ s.cur.eng }) ∧
  (∀ (s : State) (n : Nat), s.snappedBufs = [] → s.agenda = [] → s.focus = .region n → n < 1344 →
    let r := s.slot n
    let trapping (t : Nat) : Prop := t < r.count ∧ (s.tileAt n t).trapNow.isSome = true
    let able (t : Nat) : Prop := (∃ x, (s.tileAt n t).trapNow = some x ∧ (x.cause = .brk ∨ x.cause = .overrun ∨ x.cause = .late)) ∧
      (Store.get ({} : TileImg) t r.imgs).handler.isSome = true
    r.st = .running → r.ended = false → r.held = false → r.pos = 6 * r.count + 1 → apart r → (∃ t, trapping t) →
    ∃ u, step s = .next u ∧ (u.slot n).st = .frozen ∧ (u.slot n).trapped = true ∧ (u.slot n).frozenAt = r.rcc ∧
      trapping (u.slot n).ftile ∧ (∀ t, trapping t → (u.slot n).ftile ≤ t) ∧
      ((u.slot n).handler = true ↔ ∀ t, trapping t → able t) ∧
      told s u ((if (u.slot n).handler = true then 0 else 1) + if r.done = true then 0 else 2) ∧
      (u.slot n).done = true ∧ (u.slot n).err = (if r.done = true then r.err else 0) ∧
      (∀ (t : Nat) (x : TrapRec), t < r.count → (s.tileAt n t).trapNow = some x →
        let y := u.tile (r.phys t)
        y.trapNow = none ∧ y.tcause = BitVec.ofNat 64 (x.cause.code + x.eng * 2 ^ 8 + (if x.more then 2 ^ 11 else 0) + r.rcc % 2 ^ 48 * 2 ^ 12) ∧
        y.tstep = BitVec.ofNat 64 x.step ∧ y.topd0 = x.opd0 ∧ y.topd1 = x.opd1 ∧
        y.tret = BitVec.ofNat 64 (match x.tret with
          | some k => k % 65536
          | none => if x.eng = 0 then (x.step + 1) % 65536 else ((s.tileAt n t).eng 0).pc % 65536) ∧
        ((u.slot n).handler = false → y.hflag = (s.tileAt n t).hflag ∧ y.eng 0 = (s.tileAt n t).eng 0) ∧
        (∀ h, (u.slot n).handler = true → (Store.get ({} : TileImg) t r.imgs).handler = some h → y.hflag = true ∧
          y.eng 0 = { (s.tileAt n t).eng 0 with step := h, stamp := none })) ∧
      u.mem = s.mem) ∧
  (∀ (s : State) (n : Nat), s.snappedBufs = [] → s.agenda = [] → s.focus = .region n → n < 1344 →
    let r := s.slot n
    r.st = .frozen → r.handler = true → r.count ≤ r.hpos →
    (r.hfault = false → ∃ u, step s = .next u ∧ SlotOnly s u n { r with hcyc := r.hcyc + 1, hpos := 0 }) ∧
    (r.hfault = true → apart r → ∃ u, step s = .next u ∧ u.slot n = { r with handler := false, hfault := false } ∧ told s u 1 ∧ u.mem = s.mem ∧
      ∀ t, t < r.count → let x := s.tileAt n t
        (x.hflag = false → u.tile (r.phys t) = x) ∧
        (x.hflag = true → (u.tile (r.phys t)).hflag = false ∧
          ((u.tile (r.phys t)).eng 0) = { x.eng 0 with step := x.tret.toNat % 65536, stamp := none } ∧
          { u.tile (r.phys t) with hflag := true, engs := x.engs } = x)))

/-- The events of a region's cycle, each where its conditions hold. An order retires; a completing fill leaves its buffer FULL, or EMPTY where
the failure bit stands, once no other fill of it is open, and marks the granules that it wrote; a completing drain leaves it FULL (R51, R56,
R59, R217, R224); a landing lands within its hold, or, past the limit, raises LATE (R54, R55, R290); a tile stops at its boundary (R38);
transfers enter the hold (R238); a stow saves the tiles, a resume and a replay restore them (R298, R306, R313); the Harness commands
(R305); margins, health and patrols (R318 to R322, R383). A landing that ends a hold stops the engines that it drained (R13). The model's
choices here: ABORT and MAXPD drop the commands and end the instance in one step (log entry 14), a job starts at cycle0 (log entry 10), the
patrol corrects one word or line at a time (log entry 20), a region that would go on while its job's package is ROLLING freezes at once (log
entry 26), a copy in marks the granules that it has written dirty also where the failure bit stands (log entry 45), a drain that is the last
leaves the buffer FULL also where an UNBIND still writes it back (log entry 49); and log entries 8, 13, 19 and 25. -/
def Obligations.RegionEvents : Prop :=
  ∀ (s : State) (n t id : Nat),
    let r := s.slot n
    let x := s.tileAt n t
    (∀ f, r.atEndOf = true → settled s n t → (x.flights.filter (x.due r.rcc)).head? = some f → f.id = id →
      (∃ u, exec (.orderRetire n t id) s = .next u ∧ Retires s u n t f (f.effs.foldl (fun y e => y.applyEff (s.declAt n t) e) x)) ∧
      (∀ b rs, f.effs = (if rs = [] then [] else [Eff.landed b rs]) ++ [.fillDone b] → ∃ u y, exec (.fillComplete n t id) s = .next u ∧
        Retires s u n t f y ∧ { y with bufs := x.bufs, dirty := x.dirty, atC := x.atC } = x ∧ (∀ q, q ≠ b → y.buf q = x.buf q) ∧
        (y.buf b = if 1 < (x.buf b).fill then { x.buf b with fill := (x.buf b).fill - 1 }
          else { x.buf b with fill := 0, st := if (x.buf b).fail then .empty else .full, fail := false }) ∧
        ∀ g, Store.get false g y.dirty = (Store.get false g x.dirty || ((x.buf b).bound && (granulesOf rs).contains g))) ∧
      (∀ b, f.effs = [.drainDone b] → ∃ u y, exec (.drainComplete n t id) s = .next u ∧
        Retires s u n t f y ∧ { y with bufs := x.bufs } = x ∧ (∀ q, q ≠ b → y.buf q = x.buf q) ∧
        y.buf b = if 1 < (x.buf b).drain then { x.buf b with drain := (x.buf b).drain - 1 } else { x.buf b with drain := 0, st := .full })) ∧
    (∀ f, x.flights.find? (fun g => g.id == id) = some f → f.land.isSome = true → x.ecc = [] → r.holding = true →
      x.due r.rcc f = true → ∃ v u y, exec (.landing n t id) s = .next u ∧ Retires s v n t f (f.effs.foldl (fun y e => y.applyEff (s.declAt n t) e) x) ∧
        TileOnly v u (r.phys t) y ∧ DrainEnds (v.tile (r.phys t)) y) ∧
    (r.st = .running → r.holding = true → s.mustHold n = true → r.limitNow ≤ r.landHeld → apart r → (∀ k, k < r.count → (s.tileAt n k).trapNow = none) →
      ∃ u, exec (.late n) s = .next u ∧ (u.slot n).st = .frozen ∧ (u.slot n).trapped = true ∧ (u.slot n).frozenAt = r.rcc ∧ (u.slot n).holding = false ∧
        ∀ k, k < r.count → let y := u.tile (r.phys k)
          match s.lateLandings n k with
          | [] => y.tcause = (s.tileAt n k).tcause
          | f :: _ => y.tcause = BitVec.ofNat 64 (Cause.late.code + 2 ^ 8 + r.rcc % 2 ^ 48 * 2 ^ 12) ∧ y.tstep = BitVec.ofNat 64 f.step ∧
              y.topd0 = f.raw ∧ y.topd1 = BitVec.ofNat 64 ((r.rcc + 1) % 2 ^ 48)) ∧
    (r.st = .running → r.held = false → t < r.count → r.pos ≤ 6 * t → x.trapNow = none → s.wouldStop n t = true →
      ∃ u, exec (.preemptStop n t) s = .next u ∧ TileOnly s u (r.phys t) { x with stopped := true }) ∧
    (r.st = .running → r.held = false → s.overMaxpd n = true → calm s n → ∃ u, exec (.maxpd n) s = .next u ∧ Aborted s u n 0x12) ∧
    (s.mayClock n = true → let m := r.mhzNext.getD r.mhz
      ∃ u, exec (.clockChange n) s = .next u ∧ SlotOnly s u n { r with mhz := m, mhzNext := none, slow := if m = 400 then r.slow else [] }) ∧
    (x.hold.length + (r.arrived t).length ≤ 16 → ∃ u, exec (.transferArrival n t) s = .next u ∧
      u.tile (r.phys t) = { x with hold := x.hold ++ r.arrived t } ∧ (∀ p, p ≠ r.phys t → u.tile p = s.tile p) ∧
      u.slot n = { r with flying := r.flying.filter (fun y => !(y.dst == t && y.avail ≤ r.rcc)) } ∧ ∀ m, m ≠ n → u.slot m = s.slot m) ∧
    (r.st = .frozen → r.replaying = true → s.cmdsDone n = true → (s.snap r.job).st ≠ .rolling → apart r →
      (∀ k, k < r.count → (s.tileAt n k).bad 3 (Config.stowBase + 0x9000) 0x500 = false) → ∃ u, exec (.segmentReplay n) s = .next u ∧
      (u.slot n).st = .running ∧ (u.slot n).rcc = liftCycle r.rcc (s.tileAt n 0).entrySegcyc + 1 ∧ (u.slot n).pos = 0 ∧ (u.slot n).flying = [] ∧
      (u.slot n).replaying = false ∧ (u.slot n).handler = false ∧ (u.slot n).corrected = true ∧ (r.replayCmd = true → (u.slot n).done = true) ∧
      ∀ k, k < r.count → (u.tile (r.phys k)).flights = [] ∧ (u.tile (r.phys k)).hold = [] ∧
        ∀ j, j < 32 → Store.get 0 j (u.tile (r.phys k)).g = savedG (s.tileAt n k) 0x9000 j) ∧
    (s.mayStow n = true → apart r → ∃ u, exec (.stowSave n) s = .next u ∧
      (u.slot n).st = .stowed ∧ (u.slot n).preq = false ∧ (u.slot n).evictReq = false ∧ (u.slot n).evicted = r.evictReq ∧ (u.slot n).held = false ∧
      (u.slot n).done = true ∧ (u.slot n).worldStow = r.worldStow ∧ (∀ e, e ∈ u.tlb → e.ctx ≠ n) ∧
      (s.evq.length < 1024 → u.evq = s.evq ++ [{ cause := 0x13, slot := n, detail := 0 }]) ∧
      (r.evictReq = false → ∀ k, k < r.count → ∀ j, j < 32 → savedG (u.tile (r.phys k)) 0x8200 j = Store.get 0 j (s.tileAt n k).g)) ∧
    (s.mayEvict n = true → ∃ u, exec (.stowSave n) s = .next u ∧ (u.slot n).st = .stowed ∧ (u.slot n).evicted = true ∧ (u.slot n).evictReq = false) ∧
    (s.mayCut n = true → (s.cutTiles n (List.range r.count)).isSome = true → s.poison = [] →
      (∀ k, k < r.count → (s.tileAt n k).ecc = []) → (∃ m, m ∈ s.slotsOf r.job ∧ m ≠ n ∧ (s.snap r.job).cutSlots.contains m = false) →
      ∃ u, exec (.regionCut n) s = .next u ∧ (u.snap r.job).cutSlots = (s.snap r.job).cutSlots ++ [n] ∧ (u.snap r.job).st = .cutting ∧
        u.slots = s.slots ∧ u.tiles = s.tiles) ∧
    (∀ i, i ∈ commandsOf n → n < 1344 →
      (r.done = false → ∃ u, exec i s = .next u ∧ SlotOnly s u n { r with err := 5 }) ∧
      (r.done = true → r.st = .free → ∃ u, exec i s = .next u ∧ CmdEnds s u n 2 r)) ∧
    (∀ evict, takesCmd s n →
      (r.st = .running → ∃ u, exec (.stow n evict) s = .next u ∧
        SlotOnly s u n { r with done := false, shedBy := 0, preq := true, evictReq := r.evictReq || (evict == 1) }) ∧
      (r.st = .frozen → ∃ u, exec (.stow n evict) s = .next u ∧
        CmdEnds s u n 0 { r with shedBy := 0, preq := true, evictReq := r.evictReq || (evict == 1) })) ∧
    (takesCmd s n →
      (r.st = .running → r.held = false → r.ended = false → ∃ u, exec (.freeze n) s = .next u ∧ SlotOnly s u n { r with fz := true, done := false }) ∧
      (r.st = .running → r.held = true ∨ r.ended = true → ∃ u, exec (.freeze n) s = .next u ∧ CmdEnds s u n 0 { r with
        st := .frozen, fz := false, frozenAt := r.rcc, trapped := false, handler := false, ntrap := 0, ftile := 0, holding := false }) ∧
      (r.st = .frozen → ∃ u, exec (.freeze n) s = .next u ∧ CmdEnds s u n 0 r)) ∧
    (takesCmd s n → r.st = .frozen → r.handler = false → apart r → ∃ u, exec (.thaw n) s = .next u ∧
      ((s.snap r.job).st ≠ .rolling →
        CmdEnds s u n 0 { r with st := .running, trapped := false, handler := false, replaying := false, pos := 6 * r.count + 1 }) ∧
      ((s.snap r.job).st = .rolling → (u.slot n).st = .frozen ∧ (u.slot n).rcc = r.rcc ∧ (u.slot n).frozenAt = r.rcc ∧ (u.slot n).trapped = false) ∧
      ∀ k, k < r.count → Thawed (s.tileAt n k) (u.tile (r.phys k)) r.rcc) ∧
    (takesCmd s n → r.st = .frozen → r.handler = false →
      (s.replayOk n = true → ∃ u, exec (.replay n) s = .next u ∧ SlotOnly s u n { r with replaying := true, replayCmd := true, handler := false, done := false }) ∧
      (s.replayOk n = false → ∃ u, exec (.replay n) s = .next u ∧ u.slot n = { r with err := 4, handler := false, done := true } ∧ told s u 3)) ∧
    (∀ reason, takesCmd s n → calm s n → ∃ u, exec (.abort n reason) s = .next u ∧ Aborted s u n reason ∧ (u.slot n).err = 0 ∧ (u.slot n).done = true) ∧
    (∀ px py o, takesCmd s n → s.placeErr n (px, py, o % 8) = 0 →
      (r.st = .loaded → (s.snap r.job).st = .rolling → r.hbmch ≤ s.freeChans.length → ∃ u, exec (.resume n px py o) s = .next u ∧
        (u.slot n).st = .frozen ∧ (u.slot n).trapped = false ∧ (u.slot n).handler = false ∧ (u.slot n).rcc = cycle0 - 1 ∧ (u.slot n).frozenAt = cycle0 - 1 ∧
        (u.slot n).err = 0 ∧ (u.slot n).done = true) ∧
      (r.st = .loaded → (s.snap r.job).st ≠ .rolling → r.hbmch ≤ s.freeChans.length → apart (r.place (px, py, o % 8)) → ∃ u, exec (.resume n px py o) s = .next u ∧
        CmdEnds s u n 0 { r with
          px := px, py := py, orient := o % 8, chans := s.freeChans.take r.hbmch, st := .running, evicted := false, rcc := cycle0, pos := 0,
          cutReq := (s.snap r.job).st == .cutting, timeoff := s.tbwall, worldStow := 0, wakes := true, tstart := s.tb, reduced := decide (s.phase < 4),
          mhz := if s.phase < 4 then min r.mhz 750 else r.mhz } ∧
        ∀ k, k < r.count → let y := u.tile ((r.place (px, py, o % 8)).phys k)
          let i := Store.get ({} : TileImg) k r.imgs
          y.store = i.store ∧ y.g = [] ∧ y.sw = [] ∧ y.k = [] ∧ y.v = [] ∧ y.q = [] ∧ y.tokens = [] ∧ y.opmem = [] ∧ y.acc = [] ∧
          ∀ e, e < 6 → (y.eng e).st = (if i.start.testBit e then .running else .stopped) ∧ (y.eng e).base = i.bases.getD e 0 ∧ (y.eng e).step = i.bases.getD e 0) ∧
      (r.st = .stowed → r.fresh = true → s.quotaOk n = false → ∃ u, exec (.resume n px py o) s = .next u ∧ CmdEnds s u n 3 r) ∧
      (r.st = .stowed → (r.fresh = true → s.quotaOk n = true) → r.cutReq = false → (s.snap r.job).st = .rolling → ∃ u, exec (.resume n px py o) s = .next u ∧
        (u.slot n).st = .frozen ∧ (u.slot n).rcc = r.rcc ∧ (u.slot n).frozenAt = r.rcc ∧ (u.slot n).evicted = false ∧ (u.slot n).err = 0 ∧ (u.slot n).done = true) ∧
      (r.st = .stowed → (r.fresh = true → s.quotaOk n = true) → r.cutReq = false → (s.snap r.job).st ≠ .rolling → apart (r.place (px, py, o % 8)) → ∃ u, exec (.resume n px py o) s = .next u ∧
        (u.slot n).st = .running ∧ (u.slot n).rcc = r.rcc + 1 ∧ (u.slot n).pos = 0 ∧ (u.slot n).held = false ∧ (u.slot n).evicted = false ∧
        (u.slot n).px = px ∧ (u.slot n).py = py ∧ (u.slot n).orient = o % 8 ∧ (u.slot n).err = 0 ∧ (u.slot n).done = true ∧
        (u.slot n).timeoff = (if r.worldStow.toNat ≤ (BitVec.ofNat 64 s.tb + s.tbwall).toNat then BitVec.ofNat 64 s.tb + s.tbwall else r.worldStow) - BitVec.ofNat 64 s.tb ∧
        (r.evicted = false → (∀ k, k < r.count → (s.tileAt n k).bad 3 Config.stowBase 65536 = false) →
          ∀ k, k < r.count → ∀ j, j < 32 → Store.get 0 j (u.tile (r.phys k)).g = savedG (s.tileAt n k) 0x8200 j))) ∧
    (∀ p m, s.slotOn p = some m → let q := s.slot m
      let f := max 400 (q.clkReg - 100)
      ((∃ a, q.margin = some a ∧ s.tb < a + 1000000) → exec (.margin p) s = .next s) ∧
      ((∀ a, q.margin = some a → a + 1000000 ≤ s.tb) → f ≤ (if q.reduced then 750 else 1800) → q.st = .running → ∃ u, exec (.margin p) s = .next u ∧
        u.slot m = { q with mhzNext := if f = q.clkReg then q.mhzNext else some f, margin := some s.tb, slow := if q.mhz = 400 ∧ (∀ e, e ∈ q.slow → e.1 ≠ p) then (p, s.tb) :: q.slow else q.slow } ∧
        posted s u { cause := 0x14, slot := m, detail := f }) ∧
      (∀ a, q.mhz = 400 → (p, a) ∈ q.slow → a + 1000000 ≤ s.tb → bits (s.healthOf p) 0 1 = 1 → (∃ k, k < q.count ∧ q.phys k = p) →
        ∃ u, exec (.marginTileFail p) s = .next u ∧ HealthLoss s u p 0 (fun _ => True))) ∧
    (∀ p b, p < 1344 → b < 7 → bits (s.healthOf p) b 1 = 1 → ∃ u, exec (.healthBitClear p b) s = .next u ∧
      HealthLoss s u p b (fun m => ∃ k, k < (s.slot m).count ∧ (s.slot m).phys k = p ∧ (s.slot m).declares k b = true)) ∧
    (∀ line kind v, Store.get 0 line s.poison = v → v = 1 ∨ v = 3 → ∃ u, exec (.scrubPatrol 7 line kind) s = .next u ∧
      Store.get 0 line u.poison = (if v = 1 then 0 else 2) ∧ (∀ l, l ≠ line → Store.get 0 l u.poison = Store.get 0 l s.poison) ∧ recorded s u ∧
      u.mem = s.mem ∧ u.tiles = s.tiles ∧ u.slots = s.slots) ∧
    (∀ src p word, src < 7 → (s.tile p).bad src (8 * word) 8 = true → ∃ u, exec (.scrubPatrol src p word) s = .next u ∧ recorded s u ∧
      u.mem = s.mem ∧ u.tiles = s.tiles ∧ u.slots = s.slots ∧ u.health = s.health) ∧
    (∀ src p word, src < 7 → (s.tile p).bad src (8 * word) 8 = false → (s.tile p).single src (8 * word) 8 ≠ 0 → ∃ u, exec (.scrubPatrol src p word) s = .next u ∧
      { u.tile p with ecc := (s.tile p).ecc } = s.tile p ∧ Store.get 0 (eccKey src (8 * word)) (u.tile p).ecc = 0 ∧
      bits (u.healthOf p) 8 8 = min 255 (bits (s.healthOf p) 8 8 + 1) ∧ recorded s u ∧ u.mem = s.mem ∧ u.slots = s.slots)

/-- The events that carry out commands. BYTES_PERFORMED copies one element between a tile and memory, a copy in any that is left and a copy out
the next one, and counts it (R63, R67, R218); before, it arms a completion word (R241, R242). SYE_OPERATION performs an ATOM, a line of a
vector atomic, an ACQ, a REL and a BINDSO (R68 to R73, R230 to R233, R246 to R248); REL_FENCE_RELEASE also a REL of another package (R70).
REMOTE_TIMEOUT ends a wait with TIMEOUT (R61, R70, R170, R240). A record enters the cache (R214), once no earlier command of its queue has
still to read one of its bytes (R67), and one that is cached is not read again (R60); its fetch, or a BINDSO, may wait on another package, whose answer is
a free choice (R61; log entry 34). The model's choices: that a copy out performs its elements in order (log entry 33), and that the end of
REMOTE_TIMEOUT lets a BAR.pod go on (log entry 36). A pattern of CPSLOT extracts its elements when the copy ends (R225); where they are an odd
number of 4-bit elements, the bytes of the slot are rounded down, the model's choice (log entry 50). A host performs an atomic (R72). Memory
in which no line is in error and no page is SNAPPED; elements that lie on one page. -/
def Obligations.CommandEvents : Prop :=
  (∀ (s : State) (n t id : Nat) (c : Cmd), s.cmdAt n t id = some c →
    let x := s.tileAt n t
    let p := (s.slot n).phys t
    let rcc := (s.slot n).rcc
    (∀ va pa w, c.cw = some va → c.cwArmed = none → clean s → liesAt s n va kAtomic pa → swArm (BitVec.ofNat 64 (word s.mem pa 8)) c.n = some w →
      ∃ u, exec (.bytesPerformed n t id) s = .next u ∧
        wrote s.mem u.mem pa (leBytes 8 (swPerform w (phaseOf (BitVec.ofNat 64 (word s.mem pa 8))) (c.n - (c.elems.map Elem.len).sum)).toNat) ∧
        ∃ k, k ∈ (u.tile p).cmds ∧ k = { c with cwArmed := some (phaseOf (BitVec.ofNat 64 (word s.mem pa 8))) }) ∧
    (c.kind = .cpin ∨ c.kind = .cpslot ∨ c.kind = .xfetch → c.cw = none → c.pat = none → c.err = 0 → c.elems ≠ [] → clean s →
      (∀ e, e ∈ c.elems → e.half = false ∧ ∃ pa, lies s n e.va e.len kRead pa ∧ s.readTurn n t c [(pa, e.len)] = true) →
      ∃ u i e pa, exec (.bytesPerformed n t id) s = .next u ∧ c.elems[i]? = some e ∧ lies s n e.va e.len kRead pa ∧
        wrote (storage c.kind x) (storage c.kind (u.tile p)) (c.base + e.tile) (Store.getN 0 s.mem pa e.len) ∧
        GoesOn x (u.tile p) c (c.elems.eraseIdx i) rcc ∧ Store.get 0 c.sw (u.tile p).sw = after x c e.len ∧ u.mem = s.mem) ∧
    (∀ pat ty, c.kind = .cpslot → c.pat = some (pat, ty) → c.cw = none → c.err = 0 → c.elems ≠ [] → clean s →
      (∀ e, e ∈ c.elems → e.half = false ∧ ∃ pa, lies s n e.va e.len kRead pa ∧ s.readTurn n t c [(pa, e.len)] = true) →
      ∃ u i e pa, exec (.bytesPerformed n t id) s = .next u ∧ c.elems[i]? = some e ∧ lies s n e.va e.len kRead pa ∧ u.mem = s.mem ∧
        let rest := c.elems.eraseIdx i
        let g := c.gather.take e.tile ++ Store.getN 0 s.mem pa e.len ++ c.gather.drop (e.tile + e.len)
        let y := u.tile p
        GoesOn x y c rest rcc ∧ Store.get 0 c.sw y.sw = after x c e.len ∧
        (rest ≠ [] → y.opmem = x.opmem ∧ { c with elems := rest, gather := g } ∈ y.cmds) ∧
        (rest = [] → ∃ bs, bs.length = patLanes pat g * elemBits ty / 8 ∧ wrote x.opmem y.opmem c.base bs ∧
          ∀ j, j < patLanes pat g → elemBits ty * (j + 1) ≤ 8 * bs.length → laneOf (elemBits ty) bs j =
            if (bfxBytes pat j).any (fun b => c.ranges.any (fun r => decide (r.1 ≤ b ∧ b < r.1 + r.2))) then laneOf (elemBits ty) (Store.getN 0 x.opmem c.base bs.length) j
            else bfxElem pat (elemBits ty) (leNat g) j % 2 ^ elemBits ty)) ∧
    (∀ e rest pa, c.kind = .cpout ∨ c.kind = .xpost → c.cw = none → c.err = 0 → c.elems = e :: rest → clean s → e.half = false → e.bad = [] →
      e.data.length = e.len → lies s n e.va e.len kWrite pa → s.inTurn n t c [(pa, e.len)] = true → s.postTurn n t c = true →
      ∃ u, exec (.bytesPerformed n t id) s = .next u ∧ wrote s.mem u.mem pa e.data ∧ GoesOn x (u.tile p) c rest rcc ∧
        Store.get 0 c.sw (u.tile p).sw = after x c e.len) ∧
    (∀ pa, c.kind = .atom → clean s → liesAt s n c.va kAtomic pa → s.inTurn n t c [(pa, c.size)] = true →
      let old := word s.mem pa c.size
      ∃ u, exec (.syeOperation n t id) s = .next u ∧ wroteOpt s.mem u.mem pa c.size (atomNew c.op c.size c.opd c.cmp old) ∧
        (c.ret = false → Ends x (u.tile p) c rcc (after x c c.size)) ∧
        (c.ret = true → EndsAtRetire x (u.tile p) c rcc 0 [.sram c.eng c.base (leBytes 8 old), .bufFull c.buf])) ∧
    (∀ pa : Nat → Nat, c.kind = .vatom → c.err = 0 → c.elems ≠ [] → clean s →
      (∀ e, e ∈ c.elems → (∃ q, s.translate n e.va kAtomic = .pa q ∧ s.inTurn n t c [(q, 64)] = true) ∧ ∀ l, l ∈ e.lanes → liesAt s n l.1 kAtomic (pa l.1)) →
      ∃ u i e, exec (.syeOperation n t id) s = .next u ∧ c.elems[i]? = some e ∧
        (∀ k, Store.get 0 k u.mem = Store.get 0 k (e.lanes.foldl (fun m l => match atomNew c.op c.size l.2 0 (word m (pa l.1) c.size) with
          | some v => Store.putL 0 m (pa l.1) (leBytes c.size v)
          | none => m) s.mem)) ∧
        GoesOn x (u.tile p) c (c.elems.eraseIdx i) rcc ∧ Store.get 0 c.sw (u.tile p).sw = after x c e.len) ∧
    (∀ pa, c.kind = .acq ∨ c.kind = .acqCw → s.poison = [] → s.syncPa n c.va kRead = .pa pa → isWindow pa = false → s.readTurn n t c [(pa, c.size)] = true →
      let v := word s.mem pa c.size
      (c.kind = .acqCw → v.testBit 63 ≠ c.want → exec (.syeOperation n t id) s = .next s) ∧
      (c.kind = .acq → s.inScopeOf (pa / 8 * 8) n t = false → ∃ u y, exec (.syeOperation n t id) s = .next u ∧ TileOnly s u p y ∧ EndsAtRetire x y c rcc 3 []) ∧
      ((c.kind = .acqCw → v.testBit 63 = c.want) → (c.kind = .acq → s.inScopeOf (pa / 8 * 8) n t = true) →
        ∃ u y, exec (.syeOperation n t id) s = .next u ∧ TileOnly s u p y ∧ EndsAtRetire x y c rcc 0 [.sram c.eng c.base (leBytes 8 v), .bufFull c.buf])) ∧
    (∀ pa, c.kind = .rel → s.snaps = [] → s.syncPa n c.va kWrite = .pa pa → s.relReady n t c (pa / 8 * 8) = true →
      (isWindow pa = false → s.inScopeOf (pa / 8 * 8) n t = true → ∀ i, i = .relFenceRelease n t id ∨ i = .syeOperation n t id ∧ c.remote = false ∧ s.relFar n c = false →
        ∃ u, exec i s = .next u ∧ wrote s.mem u.mem pa (leBytes c.size c.opd) ∧ Ends x (u.tile p) c rcc (after x c c.size)) ∧
      (isWindow pa = true → s.translateRange n c.va c.size kWrite = .ok [(pa, c.size)] → ∃ u, exec (.relFenceRelease n t id) s = .next u ∧ u.mem = s.mem ∧
        (u.outbox = s.outbox ++ [.message (farPkg pa) 0 (pa % 2 ^ 40) (leBytes c.size c.opd)] ∧ Ends x (u.tile p) c rcc (after x c c.size) ∨
          u.outbox = s.outbox ∧ Ends x (u.tile p) c rcc (failed x c 3)))) ∧
    (c.kind = .rel → c.remote = false → s.relFar n c = true → ∃ u, exec (.syeOperation n t id) s = .next u ∧
      TileOnly s u p { x with cmds := x.cmds.map (fun k => if k.id = c.id then { c with remote := true } else k) }) ∧
    (c.kind = .bindso →
      (c.bindAligned = false → ∃ u, exec (.syeOperation n t id) s = .next u ∧ u.sync = s.sync ∧ Ends x (u.tile p) c rcc (failed x c 9)) ∧
      (c.bindAligned = true → c.ret = true → c.code = 0 → c.scope ≠ 0 → (∀ b, b ∈ s.sync → b.obj ≠ c.opd → b.meetsAny c.ranges = false) →
        ∃ u, exec (.syeOperation n t id) s = .next u ∧
          let binds : Prop := u.sync = s.sync ++ c.ranges.map (bindingOf s n t c) ∧ Ends x (u.tile p) c rcc (after x c 1)
          (c.bindFar = false → binds) ∧
          (c.bindFar = true → binds ∨ u.sync = s.sync ∧
            (Ends x (u.tile p) c rcc (failed x c 3) ∨ isWindow c.opd = true ∧ Ends x (u.tile p) c rcc (failed x c 9))))) ∧
    (s.waitsRemote n c = true → c.deadline ≤ s.tb → ∃ u, exec (.remoteTimeout n t id) s = .next u ∧ u.mem = s.mem ∧
      (c.kind = .acq ∨ c.kind = .acqCw ∨ c.kind = .coll ∨ c.kind = .fetch ∨ c.kind = .atom ∧ c.ret = true → EndsAtRetire x (u.tile p) c rcc 4 []) ∧
      (c.kind = .cpout ∨ c.kind = .xpost ∨ c.kind = .rel ∨ c.kind = .vatom ∨ c.kind = .bindso ∨ c.kind = .atom ∧ c.ret = false → Ends x (u.tile p) c rcc (failed x c 4)) ∧
      (c.kind = .cpin ∨ c.kind = .cpslot ∨ c.kind = .xfetch → Ends x (u.tile p) c rcc (failed x c 4)) ∧
      (c.kind = .cpin ∨ c.kind = .xfetch → c.pat = none → ((u.tile p).buf c.buf).fail = true))) ∧
  (∀ (s : State) (n t : Nat),
    let x := s.tileAt n t
    let p := (s.slot n).phys t
    (∀ d sw k, x.podDue = some d → d ≤ s.tb → x.peekSq = some (none, .bar 6 sw) → x.fetchOf 1 = none → x.fetchOf 2 = none →
      s.cmdAt n t k = none → ∃ u, exec (.remoteTimeout n t k) s = .next u ∧
      TileOnly s u p { x with bgate := some ((s.slot n).barCount t 6 + 1) }) ∧
    (∀ e f pa k, e = 1 ∨ e = 2 → x.fetchOf e = some f → x.fetchOf (3 - e) = none → x.podDue = none → s.cmdAt n t k = none → f.done = none →
      s.translate n f.va kRead = .pa pa → isWindow pa = true → f.deadline ≤ s.tb → ∃ u y, exec (.remoteTimeout n t k) s = .next u ∧ TileOnly s u p y ∧
        y.fetchOf e = some { f with done := some 4 } ∧ { y with fetchCI := x.fetchCI, fetchCO := x.fetchCO } = x ∧ y.fetchOf (3 - e) = none) ∧
    (∀ e va d, e = 1 ∨ e = 2 → x.fetchOf e = some { va := va, done := none, deadline := d } → (x.cached va).isSome = true →
      ∃ u y, exec (.layoutRecordFetch n t e) s = .next u ∧ TileOnly s u p y ∧ y.fetchOf e = none ∧ { y with fetchCI := x.fetchCI, fetchCO := x.fetchCO } = x) ∧
    (∀ e va d pa i, x.fetchOf e = some { va := va, done := none, deadline := d } → s.poison = [] → lies s n va 192 kRead pa → x.cacheFree = some i → x.cached va = none →
      (s.queueClear n t e (fun _ => true) [(pa, 192)] = true →
        recOk (Store.getN 0 s.mem pa 192) = true → ∃ u, exec (.layoutRecordFetch n t e) s = .next u ∧
          (u.tile p).cached va = some (Store.getN 0 s.mem pa 192) ∧ (u.tile p).fetchOf e = none ∧ u.mem = s.mem ∧ u.slots = s.slots) ∧
      (∀ k a, k ∈ x.cmds → k.eng = e → (k.kind = .acq ∨ k.kind = .acqCw) → s.translateRange n k.va k.size kRead = .ok [(a, k.size)] →
        a < pa + 192 → pa < a + k.size → exec (.layoutRecordFetch n t e) s = .next s)) ∧
    (∀ (vif va op opd cmp pa : Nat) (e : TlbE), 2 ≤ s.phase → s.tlb.find? (fun k => k.ctx == vifCtx vif && k.covers va) = some e →
      pteAtom e.pte = 2 → va % 8 = 0 → op < 3 → clean s → liesAt s (vifCtx vif) va kAtomic pa → ∃ u, exec (.hostRemoteAtomic va op opd cmp vif) s = .next u ∧
        wroteOpt s.mem u.mem pa 8 (hostAtomic op opd cmp (word s.mem pa 8)) ∧ u.outbox = s.outbox ++ [.uec vif true (word s.mem pa 8)] ∧
        u.tiles = s.tiles ∧ u.slots = s.slots))

namespace Sys2Proof.Claims
open Sys2Proof.Machine

/-! ## Tenancy, launch, snapshots and links -/

/-- A POTCMD of one page has ended: with its page done, or with a code (R356). -/
structure PotEnds (t : State) (done err : Nat) : Prop where
  busy : t.potBusy = false ∧ t.potCmd = none
  done : t.potDone = done
  err : t.potErr = err
/-- The POT changes in one page, to a state and a world. -/
def potSet (s t : State) (p : Nat) (e : PotE) : Prop := t.potOf p = e ∧ ∀ q, q ≠ p → t.potOf q = s.potOf q
/-- No granule of a bound buffer is dirty (R59). -/
def noDirty (s : State) : Prop := ∀ n t, s.dirtyVas n t = []

/-- An SPDM response has gone out: the session is `x`, but for the transcript, to which `t0` the request and the response have come (R363). -/
structure Replies (s t : State) (vif code : Nat) (t0 : List Nat) (data : List Byte) (x : Spdm) : Prop where
  session : t.spdm vif = { x with transcript := t0 ++ code :: data.map (·.toNat) }
  fields : { t.vifOf vif with spdm := (s.vifOf vif).spdm } = s.vifOf vif
  others : ∀ v, v ≠ vif → t.vifOf v = s.vifOf v
  out : t.outbox = s.outbox ++ [.spdm vif code data]
  rest : { t with vifs := [], outbox := [], draws := 0 } = { s with vifs := [], outbox := [], draws := 0 }
/-- The transcript with a request and its argument. -/
def heard (s : State) (vif code arg : Nat) : List Nat := (s.spdm vif).transcript ++ [code, arg]
/-- A response body with both signatures over all that came before them. -/
def signed (t0 : List Nat) (code : Nat) (body : List Byte) : List Byte := body ++ twoSignatures (t0 ++ code :: body.map (·.toNat))

/-- `n` bytes of a ring from index `i`. -/
def ringBytes (m : Store Byte) (x : Bounce) (i n : Nat) : List Byte := (List.range n).map (fun k => Store.get 0 (x.base + (i + k) % x.size) m)

/-- RIDX passes a packet and a report goes out (R278, R288). -/
structure Passed (u t : State) (vif len : Nat) : Prop where
  ridx : (t.vifOf vif).ridx = ((u.vifOf vif).ridx + len) % (u.vifOf vif).modulus
  report : ∃ o d, t.outbox = o ++ [.report vif (u.vifOf vif).endpoint d] ∧ (t.vifOf vif).repSeq = (u.vifOf vif).repSeq + 1

/-- The bytes of a message go to its ranges in order, of which those that are not the world's are passed over (R241, R378). -/
def spread (own : Nat × Nat → Bool) (mem : Store Byte) : List (Nat × Nat) → List Byte → Store Byte
  | [], _ => mem
  | r :: rs, data => spread own (if own r then Store.putL 0 mem r.1 (data.take r.2) else mem) rs (data.drop r.2)

/-- The next record of the growing folio of a job fits where the folio stands and on pages of the job's world, below no catalogue (R336). -/
def folioFits (s : State) (k n : Nat) : Prop :=
  let x := s.snap k
  x.growing = true ∧ x.entry < 17 ∧ 0x5000 ≤ x.foff ∧ s.roomAt k x.entry x.foff (x.fpos + n) = true ∧
  (∀ p, p ∈ pieces (x.area + (x.foff + x.fpos)) n → s.ownedPage (k % 64) p.1 = true)
/-- A record has been appended to the growing folio. -/
def appended (s t : State) (k : Nat) (bs : List Byte) : Prop :=
  let x := s.snap k
  Store.getN 0 t.mem (x.area + (x.foff + x.fpos)) bs.length = bs ∧ (t.snap k).fpos = x.fpos + bs.length

end Sys2Proof.Claims

open Sys2Proof Sys2Proof.Machine Sys2Proof.Claims

/-- The events of the control complex: the event queue and interrupts (R301, R302), walks (R314), shoot-downs and the write-back of dirty granules
before them, where none is dirty (R315, R316), the end of a walk by HALT, whose translation is the PTE in WRESP (R314), pages and keys (R355 to R360, R368 to R370), and the accesses of others to memory (R357, R358,
R378). The keys drawn for a world and for a link are free values (log entry 4); that a guest's table change touches no page but its own, those
assigned to world 0 apart, is the model's reading (log entry 53).
The watchdog ends a walk of more than 100 us and no other. The model's readings of shoot-downs, walker cores and page commands are log
entries 21, 23 and 38. -/
def Obligations.ComplexEvents : Prop :=
  ∀ s : State,
    (∀ k e r, s.evq = e :: r → exec (.evqRead k) s = .next { s with evq := r, evLost := 0 }) ∧
    (∀ k, k < 16 → (s.core k).takes = true → ∃ t, exec (.ccInterrupt k) s = .next t ∧ { t with cores := s.cores } = s ∧ (∀ j, j ≠ k → t.core j = s.core j) ∧
      t.core k = { s.core k with ccret := (s.core k).step % 65536, ccCause := 0, ccInt := true, inTrap := true, step := (s.core k).ccvec, halted := false }) ∧
    (∀ n va kind, n < 1344 → s.translate n va kind = .miss → let d := dieOf ((s.slot n).phys 0)
      (s.walker d).walking = false → (s.walker d).failed = false → ∃ t, exec (.translationWalk n va kind) s = .next t ∧
        { t with walkers := s.walkers } = s ∧ (∀ j, j ≠ d → t.walker j = s.walker j) ∧
        let w := t.walker d
        w.walking = true ∧ w.halted = false ∧ w.inTrap = false ∧ w.loops = [] ∧ w.walkSlot = n ∧ w.walkVa = va ∧ w.walkKind = kind ∧ w.wresp = none ∧
        w.step = Store.get 0 (s.slot n).fmt s.wentry ∧ Store.get 0 1 w.g = BitVec.ofNat 64 va ∧ Store.get 0 2 w.g = BitVec.ofNat 64 kind ∧
        Store.get 0 3 w.g = BitVec.ofNat 64 ((s.slot n).root * 4096) ∧ Store.get 0 4 w.g = BitVec.ofNat 64 n ∧
        (∀ g, g = 0 ∨ 5 ≤ g → Store.get 0 g w.g = 0) ∧ w.walkAt = s.tb) ∧
    (∀ k, (s.walker k).walking = true → s.tb ≤ (s.walker k).walkAt + 100000 → exec (.walkWatchdog k) s = .next s) ∧
    (∀ k, (s.walker k).walking = true → (s.walker k).walkAt + 100000 < s.tb → ∃ t e r, exec (.walkWatchdog k) s = .next t ∧ (t.walker k).walking = false ∧ (t.walker k).halted = true ∧
      t.tlb = e :: r ∧ e.ctx = (s.walker k).walkSlot ∧ e.covers (s.walker k).walkVa = true ∧ e.ok = false ∧ told s t 16 ∧ t.mem = s.mem) ∧
    (∀ k, s.cur.agent = .walker k → (s.walker k).walking = true → ∃ t e, exec .halt s = .next t ∧ (t.walker k).walking = false ∧ (t.walker k).halted = true ∧
      let w := s.walker k
      e.ctx = w.walkSlot ∧ e.root = w.walkRoot ∧ e.va = w.walkVa ∧
      (w.wresp = none ∨ w.walkAt + 100000 < s.tb → e.ok = false) ∧
      (∀ p, w.wresp = some p → s.tb ≤ w.walkAt + 100000 → (pteSize p = 3 → e.ok = false) ∧ (pteSize p ≠ 3 → e.pte = p ∧ e.size = pteSize p ∧ e.ok = p.getLsbD 63)) ∧
      (∀ x, x ∈ t.tlb ↔ x = e ∨ x ∈ s.tlb ∧ ¬ (x.ctx = e.ctx ∧ x.covers e.va = true)) ∧
      t.mem = s.mem ∧ t.tiles = s.tiles ∧ t.slots = s.slots ∧ if w.walkAt + 100000 < s.tb then told s t 16 else t.cores = s.cores) ∧
    (∀ k, s.sdgo = false → exec (.shootdown k) s =
      .next { s with sdgo := true, sdwait := List.range 8, sdNow := (s.sdva, s.sdroot, s.sdsize, s.sdall) }) ∧
    (∀ k, s.sdgo = true → s.sdwait.contains k = true →
      let held := s.bindsHeld (if 1 < s.sdwait.length then some k else none)
      (held = true → exec (.shootdownAck k) s = .next s) ∧
      (held = false → 1 < s.sdwait.length → exec (.shootdownAck k) s = .next { s with sdwait := s.sdwait.filter (fun x => x != k) }) ∧
      (held = false → s.sdwait.length ≤ 1 → s.betweenCycles = true → noDirty s → ∃ t, exec (.shootdownAck k) s = .next t ∧
        (∀ e, e ∈ t.tlb ↔ e ∈ s.tlb ∧ e.ok = true ∧ s.sdSel e = false) ∧ t.sdgo = false ∧ t.sdwait = [] ∧ told s t 8 ∧ t.mem = s.mem ∧ t.tiles = s.tiles)) ∧
    (∀ w p, s.potBusy = false → let e := s.potOf p
      (e.st = .free → s.keyValid w = true → ∃ t, exec (.potAssign w p 0) s = .next t ∧ PotEnds t 1 0 ∧ potSet s t p { st := .assigned, world := w } ∧
        (∀ a, w = 0 ∨ a / 4096 ≠ p → Store.get 0 a t.mem = Store.get 0 a s.mem) ∧
        (∀ l, l / 64 = p → (∀ i, i < 64 → Store.get 0 (64 * l + i) s.mem = 0) → ∀ i, i < 64 → Store.get 0 (64 * l + i) t.mem = 0) ∧
        t.tiles = s.tiles ∧ t.slots = s.slots) ∧
      (e.st ≠ .free → ∃ t, exec (.potAssign w p 0) s = .next t ∧ PotEnds t 0 3 ∧ t.pot = s.pot ∧ t.mem = s.mem) ∧
      (e.st = .free → s.keyValid w = false → ∃ t, exec (.potAssign w p 0) s = .next t ∧ PotEnds t 0 9 ∧ t.pot = s.pot ∧ t.mem = s.mem) ∧
      (e = { st := .bounce, world := w } → ∃ t, exec (.potUnbounce w p 0) s = .next t ∧ PotEnds t 1 0 ∧ potSet s t p { st := .assigned, world := w } ∧ t.mem = s.mem) ∧
      (e = { st := .assigned, world := w } → s.betweenCycles = true → noDirty s → s.snaps = [] →
        (∃ t, exec (.potRelease w p 0) s = .next t ∧ PotEnds t 1 0 ∧ potSet s t p { st := .scrubbing, world := w } ∧ (∀ x, x ∈ t.tlb → s.maps x p = false) ∧ t.mem = s.mem) ∧
        (w ≠ 0 → ∃ t, exec (.potBounce w p 0) s = .next t ∧ PotEnds t 1 0 ∧ potSet s t p { st := .bounce, world := w } ∧
          (∀ x, x ∈ t.tlb → s.maps x p = false) ∧ t.mem = s.mem))) ∧
    (∀ p, p < potPages → (s.potOf p).st = .scrubbing → ∃ t, exec (.pageScrubComplete p) s = .next t ∧ potSet s t p { st := .free, world := 0 } ∧
      t.tiles = s.tiles ∧ t.slots = s.slots ∧ (∀ l, l / 64 = p → Store.get 0 l t.poison = 0) ∧
      ∀ a, Store.get 0 a t.mem = if a / 4096 = p then 0 else Store.get 0 a s.mem) ∧
    (∀ p, (s.tile p).scrub.isSome = true → s.heldTile p = false → ∃ t e, exec (.tileScrub p) s = .next t ∧
      TileOnly s t p { clk := (s.tile p).clk, store := (s.tile p).store, ecc := e }) ∧
    (∀ w, s.wkBusy = false → 1 ≤ w → w < 64 → s.keyValid w = false →
      (s.scrubbing w = false → ∃ t, exec (.keyGen w) s = .next t ∧ t.wkErr = 0 ∧ t.keyValid w = true ∧ Store.get none w t.keys = some (Config.drawnKey s.draws) ∧
        t.draws = s.draws + 1 ∧ (∀ v, v ≠ w → Store.get none v t.keys = Store.get none v s.keys) ∧ t.mem = s.mem) ∧
      (s.scrubbing w = true → exec (.keyGen w) s = .next { s with wkErr := 8, wkBusy := false })) ∧
    (∀ w who, s.keyz.find? (fun x => x.1 == w) = some (w, who) → ∃ t, exec (.keyzComplete w) s = .next t ∧ Store.get none w t.keys = none ∧
      Store.get false w t.keysZero = true ∧ t.keyz = s.keyz.erase (w, who) ∧
      (∀ a, (a / 4096, ({ st := .scrubbing, world := w } : PotE)) ∉ s.pot → who = none → Store.get 0 a t.mem = Store.get 0 a s.mem) ∧
      ∀ k sw ph, who = some (k, sw, ph) → k < 16 → Store.get 0 sw (t.core k).sw = swPerform (Store.get 0 sw (s.core k).sw) ph 1) ∧
    (∀ pa again, pa < Config.hbmBytes → ∃ t, exec (.linkTagFail pa again) s = .next t ∧ recorded s t ∧ t.mem = s.mem ∧ t.slots = s.slots ∧
      (again = 0 → t.poison = s.poison ∧ t.links = s.links ∧ t.retrains = s.retrains) ∧
      (again ≠ 0 → Store.get 0 (pa / 64) t.poison = 2 ∧ t.retrains = s.retrains + 1 ∧
        Store.get (0, 0) (Config.linkOf (pa / 64) % 16) t.links = (Config.drawnKey s.draws, Config.drawnKey (s.draws + 1)))) ∧
    (∀ vif va data pa, 2 ≤ s.phase → (s.vifOf vif).en = false → s.snaps = [] → lies s (vifCtx vif) va data.length kWrite pa →
      ∃ t, exec (.uecDataWrite vif va data) s = .next t ∧ wrote s.mem t.mem pa data ∧ t.outbox = s.outbox ++ [.uec vif true 0]) ∧
    (∀ w pa data, let answers (t : State) (code : Nat) (bs : List Byte) : Prop := t.outbox = s.outbox ++ [.message 0 2 pa (BitVec.ofNat 8 code :: bs)]
      (s.ownsAll w pa data.length = false → ∀ write, ∃ t, exec (.fabricWindowAccess w pa write data) s = .next t ∧ answers t 3 [] ∧ t.mem = s.mem) ∧
      (s.ownsAll w pa data.length = true → s.snaps = [] → ∃ t, exec (.fabricWindowAccess w pa 1 data) s = .next t ∧ answers t 0 [] ∧ wrote s.mem t.mem pa data) ∧
      (s.ownsAll w pa data.length = true → s.poison = [] → ∃ t, exec (.fabricWindowAccess w pa 0 data) s = .next t ∧
        answers t 0 (Store.getN 0 s.mem pa data.length) ∧ t.mem = s.mem)) ∧
    (∀ vif pa v, 2 ≤ s.phase → pa % 8 = 0 → (s.vifOf vif).world ≠ 0 → s.ownedPage (s.vifOf vif).world pa = true → s.snaps = [] → s.betweenCycles = true →
      noDirty s → ∃ t, exec (.guestTableChange vif pa v) s = .next t ∧ word t.mem pa 8 = v % 2 ^ 64 ∧
        (∀ a, s.potOf (a / 4096) ≠ { st := .assigned, world := 0 } → ¬ (pa ≤ a ∧ a < pa + 8) → Store.get 0 a t.mem = Store.get 0 a s.mem) ∧
        (∀ e, e ∈ t.tlb ↔ e ∈ s.tlb ∧ e.ok = true ∧ e.ctx ≠ vifCtx vif ∧ ∀ n, n ∈ (s.vifSlots vif).map (·.1) → e.ctx ≠ n) ∧
        t.outbox = s.outbox ++ [.uec vif true 0])

/-- The attestation requests (R362 to R365) of a session that admits them, from phase 2 on: every response, and what the session then holds; the
signed responses carry two signatures over one transcript, the response with them. A request that the session does not admit gets an error. The
request and response codes and what the transcript holds are presumed of SPDM (log entry 27); keys, signatures and the bytes of certificates are
uninterpreted (log entry 4). Neither is the spec's. -/
def Obligations.Attestation : Prop :=
  ∀ (s : State) (vif : Nat), 2 ≤ s.phase →
    let x := s.spdm vif
    let replies (i : Instr) (code : Nat) (t0 : List Nat) (data : List Byte) (y : Spdm) (draws : Nat) : Prop :=
      ∃ t, exec i s = .next t ∧ Replies s t vif code t0 data y ∧ t.draws = s.draws + draws
    replies (.getVersion vif) 0x04 [0x84] [0, 1, 0, 0x13] { version := true } 0 ∧
    (x.version = true → replies (.getCapabilities vif) 0x61 (heard s vif 0xE1 0) [] { x with caps := true } 0) ∧
    (x.version = false → exec (.getCapabilities vif) s = .next { s with outbox := s.outbox ++ [.spdm vif 0x7F [0x04]] }) ∧
    (∀ a, x.caps = true → replies (.negotiateAlgorithms vif a) 0x63 (heard s vif 0xE3 a) [BitVec.ofNat 8 (a % 16)] { x with algs := a % 16 == 15 } 0) ∧
    (x.algs = true → replies (.getDigests vif) 0x01 (heard s vif 0x81 0) (Config.spdmBytes 1 []) x 0) ∧
    (x.algs = true → replies (.getCertificate vif 0) 0x02 (heard s vif 0x82 0) (Config.spdmBytes 2 []) { x with chunks := [Config.spdmBytes 2 []] } 0) ∧
    (∀ slot, slot ≠ 0 → exec (.getCertificate vif slot) s = .next { s with outbox := s.outbox ++ [.spdm vif 0x7F [0x01]] }) ∧
    (∀ nonce, x.algs = true →
      replies (.challenge vif nonce) 0x03 (heard s vif 0x83 nonce) (signed (heard s vif 0x83 nonce) 0x03 (Config.spdmBytes 3 [nonce])) x 0 ∧
      replies (.getMeasurements vif nonce) 0x60 (heard s vif 0xE0 nonce) (signed (heard s vif 0xE0 nonce) 0x60 (s.evidence vif)) x 0 ∧
      replies (.keyExchange vif nonce) 0x64 (heard s vif 0xE4 nonce) (signed (heard s vif 0xE4 nonce) 0x64 (Config.spdmBytes 4 [nonce]))
        { x with exchanging := true, session := false, key := Config.drawnKey s.draws } 1) ∧
    ((s.evidence vif).getLast? = some (BitVec.ofNat 8 (if s.worldGated (s.vifOf vif).world then 2 else if s.live vif then 0 else 1)) ∧
      (s.measured vif).length = if s.worldGated (s.vifOf vif).world = true then 5 else 7) ∧
    (∀ mac, x.exchanging = true → (mac = leNat (Config.spdmBytes 5 (x.key :: x.transcript)) →
        replies (.finish vif mac) 0x65 (heard s vif 0xE5 mac) [] { x with exchanging := false, session := true } 0) ∧
      (mac ≠ leNat (Config.spdmBytes 5 (x.key :: x.transcript)) → exec (.finish vif mac) s = .next { s with outbox := s.outbox ++ [.spdm vif 0x7F [0x06]] })) ∧
    (x.session = true →
      replies (.heartbeat vif) 0x68 (heard s vif 0xE8 0) [] x 0 ∧
      replies (.keyUpdate vif) 0x69 (heard s vif 0xE9 0) [] { x with key := Config.drawnKey s.draws } 1 ∧
      replies (.endSession vif) 0x6C (heard s vif 0xEC 0) [] { x with session := false, key := 0 } 0 ∧
      (∀ va data pa, data.length ≤ 4096 → s.snaps = [] → lies s (vifCtx vif) va data.length kWrite pa → ∃ t, exec (.deposit vif va data) s = .next t ∧
        wrote s.mem t.mem pa data ∧ t.outbox = s.outbox ++ [.spdm vif 0x7E [0]] ∧ (t.spdm vif).session = true ∧ t.tiles = s.tiles ∧ t.slots = s.slots) ∧
      (∀ c key, c < 256 → (s.vifOf vif).world ≠ 0 → (s.bounce c).world = (s.vifOf vif).world → ∃ t, exec (.bckey vif c key) s = .next t ∧
        t.bounce c = { s.bounce c with key := some key } ∧ (∀ d, d ≠ c → t.bounce d = s.bounce d) ∧ t.outbox = s.outbox ++ [.spdm vif 0x7E [0]] ∧ t.mem = s.mem)) ∧
    (∀ h, h < x.chunks.length → replies (.chunkGet vif h) 0x06 (heard s vif 0x86 h) (x.chunks.getD h []) x 0) ∧
    (∀ code, exec (.unsupportedRequest vif code) s = .next { s with outbox := s.outbox ++ [.spdm vif 0x7F [0x07, BitVec.ofNat 8 code]] })

/-- Bounce channels (R366, R367), power shedding, its least pass first and its latest step taken back first (R371), launch queues and packets
(R277 to R283), and placement (R284 to R286). The model's choices: the order in which the placer tries placements (log entry 15), a packet that is
taken in one step (log entries 16 and 24), the context and the ring of a channel (log entry 39), and one step of shedding an event (log
entry 43). -/
def Obligations.ServiceEvents : Prop :=
  ∀ s : State,
    (∀ c p ctx, let x := s.bounce c
      c < 256 → x.en = false → x.world ≠ 0 → bits x.ring 0 4 ≤ 8 → x.key.isSome = true → s.ringOk x = true → s.bounceCtx x = some ctx →
      s.translateRange ctx x.win x.wsize (if x.out then kRead else kWrite) = .ok p →
      ∃ t, exec (.bounceEnable c) s = .next t ∧ (t.bounce c).en = true ∧ { t.bounce c with ctl := x.ctl, desc := x.desc, asked := x.asked } = x ∧
        (∀ d, d ≠ c → t.bounce d = s.bounce d) ∧ { t with bounces := s.bounces } = s) ∧
    (∀ c ctx pa, let x := s.bounce c
      let h := ringBytes s.mem x x.ridx 64
      let len := recU h 8 4
      let off := recU h 12 4
      x.en = true → x.out = false → 80 + len ≤ x.held → 80 + len ≤ x.size → recU h 0 8 = x.cnt → frameOk x h = true → clean s → 0 < len →
      s.bounceCtx x = some ctx → (x.win + off) % 4096 + len ≤ 4096 → lies s ctx (x.win + off) len kWrite pa →
      let opened := gcmOpen (x.key.getD 0) (frameIv c x.cnt) h ((ringBytes s.mem x x.ridx (80 + len)).drop 64)
      ∃ t, exec (.bounceFrameIn c) s = .next t ∧
        (opened = none → t.mem = s.mem ∧ t.bounce c = { x with ridx := (x.ridx + (80 + len)) % x.modulus, err := 6 }) ∧
        ∀ plain, opened = some plain → wrote s.mem t.mem pa (plain.take len) ∧
          (t.bounce c).ridx = (x.ridx + (80 + len)) % x.modulus ∧ (t.bounce c).cnt = (x.cnt + 1) % 2 ^ 48 ∧ (t.bounce c).err = 0 ∧
          (t.bounce c).resync = false) ∧
    (∀ c ctx pa len off, let x := s.bounce c
      let h := x.header len off
      x.en = true → x.out = true → x.asked = some (len, off) → frameOk x h = true → x.held + 80 + len ≤ x.size → s.ringOk x = true → s.bounceCtx x = some ctx →
      s.poison = [] → lies s ctx (x.win + off) len kRead pa →
      let plain := Store.getN 0 s.mem pa len
      let frame := h ++ gcmSeal (x.key.getD 0) (frameIv c x.cnt) h plain
      ∃ t, exec (.bounceFrameOut c) s = .next t ∧ (∀ k, k < frame.length → Store.get 0 (x.base + (x.widx + k) % x.size) t.mem = frame.getD k 0) ∧
        (t.bounce c).widx = (x.widx + 80 + len) % x.modulus ∧ (t.bounce c).cnt = (x.cnt + 1) % 2 ^ 48 ∧ (t.bounce c).asked = none ∧ (t.bounce c).err = 0) ∧
    (∀ p ns, s.shedcap < s.watts → s.shedNext = some (p, ns) → ns.Nodup → ∃ t, exec .powerShed s = .next t ∧ t.shedPwr = p ∧
      (∀ m, m ∉ ns → t.slot m = s.slot m) ∧ ∀ n, n ∈ ns → let r := s.slot n
        let f := max 400 (r.clkReg - 100)
        (p = 1 → f ≤ (if r.reduced then 750 else 1800) → t.slot n = { r with mhzNext := some f }) ∧ (p = 2 → (t.slot n).preq = true) ∧
        (2 < p → (t.slot n).evictReq = true)) ∧
    (∀ n p rate rest, let r := s.slot n
      s.shed = (n, p, rate) :: rest → s.watts * 100 ≤ s.shedcap * 95 → r.st = .running → ∃ t, exec .powerRestore s = .next t ∧ t.shed = rest ∧
      (p = 1 → 400 ≤ rate → rate ≤ (if r.reduced then 750 else 1800) → t.slot n = { r with mhzNext := some rate }) ∧
      (p = 2 → r.preq = true → r.shedBy = 2 → r.moving = false → (t.slot n).preq = false) ∧
      (2 < p → r.shedBy = 3 → r.moving = false → (t.slot n).evictReq = false)) ∧
    (∀ vif data pa, let v := s.vifOf vif
      let off := v.widx % v.qsize
      2 ≤ s.phase → v.en = true → s.snaps = [] →
      (off + data.length ≤ v.qsize → v.ready + data.length ≤ v.qsize → lies s (vifCtx vif) (v.qbase + off) data.length kWrite pa →
        ∃ t, exec (.queueWrite vif off data) s = .next t ∧ wrote s.mem t.mem pa data ∧ t.outbox = s.outbox ++ [.uec vif true 0] ∧
          t.vifOf vif = { v with widx := (v.widx + data.length) % v.modulus }) ∧
      (v.qsize < off + data.length ∨ v.qsize < v.ready + data.length →
        exec (.queueWrite vif off data) s = .next { s with outbox := s.outbox ++ [.uec vif false 0] })) ∧
    (∀ vif p, let v := s.vifOf vif
      2 ≤ s.phase → v.en = false → (v.shapeOk = true → s.translateRange (vifCtx vif) v.qbase v.qsize kWrite = .ok p →
        ∃ t, exec (.vifqEnable vif) s = .next t ∧ t.vifOf vif = { v with status := 1, en := true } ∧ { t with vifs := s.vifs } = s) ∧
      (v.shapeOk = false → ∃ t, exec (.vifqEnable vif) s = .next t ∧ t.vifOf vif = { v with status := 2 } ∧ { t with vifs := s.vifs } = s)) ∧
    (∀ vif, let v := s.vifOf vif
      v.en = true → ∃ t, exec (.vifqDisable vif) s = .next t ∧ t.vifOf vif = { v with en := false, status := 0 } ∧ { t with vifs := s.vifs } = s) ∧
    (∀ vif u k, 2 ≤ s.phase → s.readPacket vif = (u, some k) → k.straddles = false →
      let lid := pk k.bytes 4 4
      (∀ v x, k.ty = 1 → u.nodes.length < 4096 → launchFormat k.bytes = true → launchChecks vif k.bytes u = (v, .ok (.node x)) → x.total ≠ 0 →
        (∀ z, z ∈ v.nodes → z.arrival ≠ x.arrival) → ∃ t y, exec (.launch vif) s = .next t ∧ Passed v t vif k.len ∧ t.nextArrival = v.nextArrival + 1 ∧
          t.nodeAt x.arrival = some y ∧ y.vif = x.vif ∧ y.lid = x.lid ∧ y.img = x.img) ∧
      (∀ x, k.ty = 2 → shortFormat k.bytes = true → u.node vif lid = some x →
        (x.st ≠ .done → (s.snap (s.nodeJob x)).st = .idle → (∀ n, n ∈ (u.vifSlots vif).map (·.1) → u.nextSnapped n = none) → ∃ t y, exec (.cancel vif) s = .next t ∧
          Passed u t vif k.len ∧ t.nodeAt x.arrival = some y ∧ y.st = .done ∧ y.verdict = 4 ∧ y.reason = 0x10 ∧
          ∀ n, (u.slot n).vif = vif → (u.slot n).lid = x.lid → (t.slot n).st = .free) ∧
        (x.st = .done → x.recorded = true → ∃ t, exec (.cancel vif) s = .next t ∧ Passed u t vif k.len ∧ t.nodeAt x.arrival = none)) ∧
      (∀ x, k.ty = 3 → shortFormat k.bytes = true → u.node vif lid = some x → x.st = .held → ∃ t y, exec (.release vif) s = .next t ∧
        Passed u t vif k.len ∧ (x.total ≠ 0 → t.nodeAt x.arrival = some y ∧ y.accepted = x.accepted ++ x.preds.filter (fun a => (u.nodeAt a).any Node.tainted))) ∧
      (k.ty = 0 → bits (pk k.bytes 0 4) 8 8 ≠ 0 → ∃ t, exec (.pad vif) s = .next t ∧ Passed u t vif k.len)) ∧
    (∀ x r n q, let c := s.settleGraph
      let v := c.vifOf x.vif
      c.candidates = x :: r → x.gang = false → c.freeSlotNo = some n → c.vifTiles x.vif + x.img.w * x.img.h ≤ v.tq → c.vifChans x.vif + x.img.hbmch ≤ v.chq →
      x.img.hbmch ≤ c.freeChans.length → 2 ≤ s.phase → (c.snap (c.nodeJob x)).st ≠ .rolling →
      placements.find? (fun p => c.fits ((c.slot n).load x x.next v.world x.img) c.openTile p) = some q →
      (∀ m, (c.slot m).moving = false) → ∃ t y, exec .placeInstance s = .next t ∧ (t.slot n).st = .running ∧ (t.slot n).vif = x.vif ∧ (t.slot n).lid = x.lid ∧
        (t.slot n).inst = x.next ∧ ((t.slot n).px, (t.slot n).py, (t.slot n).orient) = q ∧ (t.slot n).chans = c.freeChans.take x.img.hbmch ∧
        t.nodeAt x.arrival = some y ∧ y.st = .running ∧ y.started = x.next + 1 ∧ ∀ m, m ≠ n → t.slot m = c.slot m)

/-- Snapshots and rollbacks (R325 to R339), and the messages of other packages (R240 to R242, R331, R332): a message is armed; recorded in the channel
record where the package cut has come and its bookmark has not; held back where the bookmark came first; discarded before a rollback's marker;
then it is performed, range by range, and answered; a REL or a read of an object from outside its scope is not performed (R68). A bookmark of
another id than the one that runs aborts both (R333). Memory in which no line is in error. The model's choice: a bookmark brings the issuer beside its source, and its id starts one cut (log entry 25). -/
def Obligations.SnapshotEvents : Prop :=
  (∀ s : State, s.poison = [] →
    (∀ v x, s.handleNode s.snsel = some x → (s.snap (s.nodeJob x)).st = .idle → bits v 0 21 = 0 → ∃ t, exec (.snareaWrite v) s = .next t ∧
      t.snap (s.nodeJob x) = { s.snap (s.nodeJob x) with area := bits v 21 31 * 2 ^ 21 } ∧ (∀ k, k ≠ s.nodeJob x → t.snap k = s.snap k) ∧ { t with snaps := s.snaps } = s) ∧
    (∀ k id m, s.hasJob k = false → exec (.bookmark k id m) s = .next { s with sndrop := min (2 ^ 32 - 1) (s.sndrop + 1) }) ∧
    (∀ k id m, let src := m % 2 ^ 13
      let issuer := m / 2 ^ 13
      let x := s.snap k
      s.hasJob k = true → s.msgsFrom k src = [] →
      (Startable s k → s.catFind k id = none → x.seen.contains id = false → x.markers.contains src = false → s.area k ≠ 0 → s.areaU k 0 8 = k / 64 →
        ∃ t, exec (.bookmark k id m) s = .next t ∧ CutStarts s t k id issuer [src] none ∧ (t.snap k).seen.contains id = true) ∧
      (x.st = .idle → s.catFind k id ≠ none ∨ x.seen.contains id = true ∨ x.markers.contains src = true → exec (.bookmark k id m) s = .next s) ∧
      (x.st = .cutting ∨ x.st = .recording ∧ (∃ p, p ∈ s.peers k ∧ p ≠ src ∧ x.closed.contains p = false) → x.id = id → x.closed.contains src = false →
        ∃ t, exec (.bookmark k id m) s = .next t ∧ t.snap k = { x with closed := x.closed ++ [src] } ∧ { t with snaps := s.snaps } = s) ∧
      (x.st = .cutting ∨ x.st = .recording ∨ x.st = .reported → x.id ≠ id → ∃ t, exec (.bookmark k id m) s = .next t ∧ (t.snap k).st = .idle ∧
        t.outbox = s.outbox ++ [.abort issuer k id] ++ (if x.issuer = s.pkgid then s.peers k else [x.issuer]).map (fun p => Out.abort p k x.id) ∧
        ∀ n, n ∈ s.slotsOf k → (t.slot n).cutReq = false)) ∧
    (∀ k id src, let x := s.snap k
      s.hasJob k = true → s.msgsFrom k src = [] →
      (x.markers.contains src = false → x.st = .idle → (∀ e, e ∈ s.inbox → e.2.job ≠ k) → someRuns s k → ∃ t, exec (.rollbackMarker k id src) s = .next t ∧
        RollStarts s t k id ((s.peers k).filter (fun p => p != src)) none) ∧
      (x.markers.contains src = true → ∃ t, exec (.rollbackMarker k id src) s = .next t ∧ t.snap k = { x with markers := x.markers.filter (fun p => p != src) } ∧
        { t with snaps := s.snaps } = s)) ∧
    (∀ k id src, let x := s.snap k
      x.rollWho = none → x.issuer = s.pkgid → x.id = id → x.st ≠ .rolling → x.st ≠ .idle → x.reports.contains src = false →
      (x.st ≠ .reported ∨ (∃ p, p ∈ s.pkgid :: s.peers k ∧ p ≠ src ∧ x.reports.contains p = false) → ∃ t, exec (.cutReport k id src) s = .next t ∧
        t.snap k = { x with reports := x.reports ++ [src] } ∧ { t with snaps := s.snaps } = s) ∧
      (x.st = .reported → (∀ p, p ∈ s.pkgid :: s.peers k → p = src ∨ x.reports.contains p = true) → ∃ t o, exec (.cutReport k id src) s = .next t ∧
        (t.snap k).st = .idle ∧ t.outbox = o ∧ ∀ p, p ∈ s.peers k → Out.commit p k id ∈ o)) ∧
    (∀ k id a sw ph, let x := s.snap k
      x.st = .reported → x.id = id → x.who = some (a, sw, ph) → a < 16 → ∃ t, exec (.commit k id) s = .next t ∧ (t.snap k).st = .idle ∧
        Store.get 0 sw (t.core a).sw = swPerform (Store.get 0 sw (s.core a).sw) ph 1 ∧
        (x.entry < 17 → s.ownedPage (k % 64) (x.area + (0x100 + 64 * x.entry)) = true → x.area % 4096 = 0 → (s.committed k).length < 16 → t.catCommitted k x.entry = true)) ∧
    (∀ k id i, let x := s.snap k
      x.id = id → i = .snapshotAbort k id ∧ x.st ≠ .idle ∧ x.st ≠ .rolling ∨ i = .snapshotTimeout k id ∧ (x.st = .cutting ∨ x.st = .recording ∨ x.st = .reported ∧ x.issuer = s.pkgid) ∧
        x.started + s.jobTimeout k ≤ s.tb →
      ∃ t, exec i s = .next t ∧ (t.snap k).st = .idle ∧ (t.snap k).growing = x.old.isSome ∧
        t.outbox = s.outbox ++ (if x.issuer = s.pkgid then s.peers k else [x.issuer]).map (fun p => Out.abort p k id) ∧
        ∀ n, n ∈ s.slotsOf k → (t.slot n).cutReq = false) ∧
    (∀ page, s.heldPages.contains page = false → exec (.pageCopy page) s = .next s) ∧
    (∀ page k, s.heldPages.contains page = true → (s.snap k).pages.contains page = true → (∀ j, j ≠ k → (s.snap j).pages.contains page = false) →
      (s.snap k).old = none → s.folioHas k 1 (4096 * page) = false → folioFits s k 4112 → ∃ t, exec (.pageCopy page) s = .next t ∧
      appended s t k (folioRecord 1 (4096 * page) (Store.getN 0 s.mem (4096 * page) 4096)) ∧ (t.snap k).pages = (s.snap k).pages.filter (fun p => p != page) ∧
      t.heldPages.contains page = false) ∧
    (∀ n t b, let k := (s.slot n).job
      let bs := folioRecord 2 (bufKey (s.slot n).inst t b) (s.bufRecord n t b)
      s.nextSnapped n = some (t, b) → (s.tileAt n t).ecc = [] → s.folioHas k 2 (bufKey (s.slot n).inst t b) = false → folioFits s k bs.length →
      ∃ u, exec (.bufferCopy n t b) s = .next u ∧ appended s u k bs ∧ ((u.tileAt n t).buf b).snapped = false ∧ u.slots = s.slots)) ∧
  (∀ (s : State) (k : Nat) (m : Msg) (i : Instr), s.msgOfId k = some m → s.firstMsg k m = true →
    i = .jobMessageArrival k ∨ i = .xpostArrival k ∧ m.kind = 0 →
    let z := s.snap m.job
    let open_ := z.st = .idle ∨ z.st = .cutting ∨ (z.st = .recording ∨ z.st = .reported) ∧ z.closed.contains m.src = true
    m.armed = false →
      (z.st = .idle ∧ z.markers.contains m.src = true ∨ z.st = .rolling ∧ z.markers.contains m.src = true →
        exec i s = .next { s with inbox := s.inbox.filter (fun e => e.1 != k) }) ∧
      (z.st = .cutting ∧ z.closed.contains m.src = true ∨ z.st = .rolling ∧ z.markers.contains m.src = false → exec i s = .next s) ∧
      (open_ → z.markers.contains m.src = false → ¬ (z.st = .cutting ∧ z.closed.contains m.src = true) → m.cw = none →
        ∃ u, exec i s = .next u ∧ u.msgOfId k = some { m with armed := true } ∧ { u with inbox := s.inbox } = s) ∧
      (∀ cw w, z.st = .idle → z.markers.contains m.src = false → m.cw = some cw → clean s → s.ownsAll m.world cw 8 = true →
        swArm (BitVec.ofNat 64 (word s.mem cw 8)) (m.size + m.outside) = some w → let ph := phaseOf (BitVec.ofNat 64 (word s.mem cw 8))
          ∃ u, exec i s = .next u ∧ wrote s.mem u.mem cw (leBytes 8 (swPerform w ph m.outside).toNat) ∧
          u.msgOfId k = some { m with armed := true, phase := ph }) ∧
      (z.st = .recording ∨ z.st = .reported → z.closed.contains m.src = false → m.cw = none → (s.folioAppend m.job 4 z.arrivals m.bytes []).isSome = true →
        ∃ u, exec i s = .next u ∧ (u.snap m.job).arrivals = z.arrivals + 1 ∧ (u.snap m.job).fpos = z.fpos + (folioRecord 4 z.arrivals m.bytes).length ∧
          u.msgOfId k = some { m with armed := true })) ∧
  (∀ (s : State) (k : Nat) (m : Msg), s.msgOfId k = some m → s.firstMsg k m = true → m.armed = true → m.cw = none → clean s →
    let a := m.va
    let done (u : State) (code : Nat) (data : List Byte) : Prop :=
      u.msgOfId k = none ∧ u.outbox = s.outbox ++ [.message m.src 1 a (BitVec.ofNat 8 code :: data)] ∧ u.tiles = s.tiles ∧ u.slots = s.slots
    let own (r : Nat × Nat) : Bool := s.ownsAll m.world r.1 r.2
    let code : Nat := if m.parts.all own then 0 else 3
    (m.kind = 0 ∨ m.kind = 2 ∧ s.msgInScope m = true →
      ∃ u, exec (.jobMessageArrival k) s = .next u ∧ u.mem = spread own s.mem m.parts m.data ∧ done u code []) ∧
    (m.kind = 1 ∨ m.kind = 3 ∧ s.msgInScope m = true →
      ∃ u, exec (.jobMessageArrival k) s = .next u ∧ u.mem = s.mem ∧ done u code ((m.parts.filter own).flatMap (fun r => Store.getN 0 s.mem r.1 r.2))) ∧
    (m.kind = 2 ∨ m.kind = 3 → s.msgInScope m = false → ∃ u, exec (.jobMessageArrival k) s = .next u ∧ u.mem = s.mem ∧ done u 3 []) ∧
    (m.kind = 5 → ∃ u, exec (.jobMessageArrival k) s = .next u ∧ u.mem = s.mem ∧ done u 0 []) ∧
    (m.kind = 6 → m.op ≠ 0 → s.ownsAll m.world a 8 = true → (∀ p, p ∈ m.ranges → isWindow p.1 = false ∧ own p = true) →
      ((∀ b, b ∈ s.sync → b.obj ≠ a → b.meetsAny m.ranges = false) → ∃ u, exec (.jobMessageArrival k) s = .next u ∧ u.mem = s.mem ∧ done u 0 [] ∧
        u.sync = s.sync ++ m.ranges.map (fun p => { lo := p.1, hi := p.1 + p.2, obj := a, scope := m.op, pkg := m.src, world := m.world, jobid := m.jobid, seat := m.seat })) ∧
      (∀ b, b ∈ s.sync → b.obj ≠ a → b.meetsAny m.ranges = true → ∃ u, exec (.jobMessageArrival k) s = .next u ∧ u.sync = s.sync ∧ done u 9 [])) ∧
    (m.kind = 4 → let n := m.data.length / 2
      s.ownsAll m.world a n = true → ∃ u, exec (.jobMessageArrival k) s = .next u ∧ done u 0 (Store.getN 0 s.mem a n) ∧
        wroteOpt s.mem u.mem a n (atomNew m.op n (leNat (m.data.take n)) (leNat (m.data.drop n)) (word s.mem a n))))

/-- Ethernet (R373, R374): a frame of the supported transport reaches its endpoint, another is dropped and counted. Zileth Link (R375, R376): a flit that
is accepted gives its credits and owes one, and its payload is taken where it is for this package; one that is not is refused, and the
eighth refusal in a row trains the link again. The timebase pulse and the timebase at a reset, zero after a cold one and running on through a warm one (R380), the configuration
store (R388), and bring-up (R384 to R386): a channel that fails its pattern confirmation goes to STATE 3 and to no region. The model's
choices: memory and the core registers are zero after a cold reset (log entries 5 and 6), a payload for another package is not taken (log
entry 56); and log entries 41 and 42. -/
def Obligations.LinkEvents : Prop :=
  ∀ s : State,
    (∀ p tr e data, p < 2 → bits s.eth p 1 = 1 →
      (tr = 0 → e < 769 → exec (.ethFrameReceive p tr e data) s = .next { s with outbox := s.outbox ++ [.deliver e data] }) ∧
      (tr ≠ 0 ∨ 769 ≤ e → exec (.ethFrameReceive p tr e data) s = .next { s with ethdrop := s.ethdrop + 1 })) ∧
    (∀ p, p < 2 → bits s.eth p 1 = 1 → exec (.ethPortDown p) s = .next { s with eth := s.eth - 2 ^ p }) ∧
    (∀ p, p < 2 → bits s.eth p 1 = 0 → 2 ≤ s.phase → exec (.ethPortUp p) s = .next { s with eth := s.eth + 2 ^ p }) ∧
    (∀ p f, let x := s.port p
      let a := recU f 0 4
      let c := recU f 8 4
      p < 48 → x.up = true → x.training = false →
      (flitOk f = true → recU f 4 4 = x.rxseq → x.queue = [] → ∃ t, exec (.flitReceive p f) s = .next t ∧
        (t.port p).rxseq = (x.rxseq + 1) % 2 ^ 32 ∧ (t.port p).replays = 0 ∧
        (∀ v, Store.get 0 v (t.port p).owed = if v = bits a 29 3 then Store.get 0 v x.owed + 1 else Store.get 0 v x.owed) ∧
        (∀ v, Store.get 0 v (t.port p).credits = if v = bits c 21 3 ∧ bits c 24 8 ≠ 0 then min 64 (Store.get 0 v x.credits + bits c 24 8) else Store.get 0 v x.credits) ∧
        t.outbox = s.outbox ++ (if bits a 16 13 = s.pkgid then [.payload (bits a 0 13) (bits a 29 3) ((f.drop 16).take (bits c 0 8))] else [])) ∧
      (flitOk f = false ∨ recU f 4 4 ≠ x.rxseq → ∃ t, exec (.flitReceive p f) s = .next t ∧ t.outbox = s.outbox ++ [.refuseFlit p x.rxseq] ∧
        t.port p = if x.replays < 7 then { x with replays := x.replays + 1 } else { x with replays := 0, training := true })) ∧
    exec .timebasePulse s = .next { s with tbPulse := s.tb, pulses := s.pulses + 1 } ∧
    (∀ pkg sigs,
      (2 ≤ s.phase → sigs % 4 = 3 → exec (.configStoreUpdate pkg sigs) s = .next { s with pkgStore := pkg % 2 ^ 13, cfgNext := s.cfgNext + 1 }) ∧
      (sigs % 4 ≠ 3 → exec (.configStoreUpdate pkg sigs) s = .next s)) ∧
    (∀ c rdlo rdhi wrlo wrhi weak, c < 512 → s.phase = 3 → Store.get ({} : Chan) c s.chans = { st := 1 } → ∃ t,
      exec (.hbmChannelTraining c rdlo rdhi wrlo wrhi weak 1) s = .next t ∧
      Store.get ({} : Chan) c t.chans =
        { st := if weak.length ≤ 2 then 2 else 3, rdw := rdhi - rdlo, rdc := rdlo + (rdhi - rdlo) / 2, wrw := wrhi - wrlo,
          wrc := wrlo + (wrhi - wrlo) / 2, lane0 := weak[0]?, lane1 := weak[1]?, pass := decide (weak.length ≤ 2) } ∧
      (∀ d, d ≠ c → Store.get ({} : Chan) d t.chans = Store.get {} d s.chans) ∧
      ((∀ d, d < 512 → d ≠ c → 2 ≤ (Store.get ({} : Chan) d s.chans).st) → t.phase = 4) ∧
      ∀ d, d < 512 → d ≠ c → (Store.get ({} : Chan) d s.chans).st < 2 → t.phase = 3) ∧
    (∀ c rdlo rdhi wrlo wrhi weak confirm x, c < 512 → s.phase = 3 → Store.get ({} : Chan) c s.chans = x → x.st = 1 → confirm ≠ 1 → ∃ t,
      exec (.hbmChannelTraining c rdlo rdhi wrlo wrhi weak confirm) s = .next t ∧ c ∉ t.freeChans ∧
      let y := Store.get ({} : Chan) c t.chans
      y.st = 3 ∧ y.pass = false ∧ (x.pass = true → y = { x with st := 3, pass := false }) ∧
      ∀ d, d ≠ c → Store.get ({} : Chan) d t.chans = Store.get {} d s.chans) ∧
    (∃ t, exec .coldReset s = .next t ∧ t.phase = 0 ∧ t.mem = [] ∧ t.tiles = [] ∧ t.slots = [] ∧ t.pot = [] ∧ t.vifs = [] ∧ t.nodes = [] ∧ t.tlb = [] ∧ t.evq = [] ∧
      t.keys = [(0, some (Config.drawnKey s.draws))] ∧ t.tb = 0 ∧ t.tbPulse = 0 ∧ t.pkgStore = s.pkgStore ∧ ∀ n, (t.core n).step = 0 ∧ (t.core n).g = []) ∧
    (∃ t, exec .warmReset s = .next t ∧ t.phase = 0 ∧ t.tb = s.tb ∧ t.tbPulse = s.tbPulse ∧ t.warm = true ∧ t.eth = 0 ∧ t.keyz = [] ∧ (∀ v, (t.vifOf v).spdm = {}) ∧
      (∀ n, (t.slot n).st = .free) ∧ ∀ n, (t.core n).step = 0 ∧ (t.core n).halted = false)
end

