-- ==== Sys2Proof/Laws/Store.lean ====
section
/-! SUPPORT. Laws of the sparse store: what a read gives after a write, and that every operation keeps the canonical form. -/
namespace Sys2Proof.Machine.Store

variable {α : Type}

/-! ## Reading after writing -/

theorem get_ins_same (d v : α) (k : Nat) (m : Store α) : get d k (ins k v m) = v := by
  induction m with
  | nil => simp [ins, get]
  | cons e r ih =>
    obtain ⟨j, u⟩ := e
    simp only [ins]
    split
    · simp [get]
    · split
      · simp [get]
      · rename_i h
        simp [get, h, ih]

theorem get_ins_other (d v : α) {k k' : Nat} (h : k' ≠ k) (m : Store α) : get d k' (ins k v m) = get d k' m := by
  induction m with
  | nil => simp [ins, get, Ne.symm h]
  | cons e r ih =>
    obtain ⟨j, u⟩ := e
    simp only [ins]
    split
    · simp [get, Ne.symm h]
    · split
      · rename_i h2
        subst h2
        simp [get, Ne.symm h]
      · simp [get, ih]

theorem get_del_same (d : α) (k : Nat) (m : Store α) : get d k (del k m) = d := by
  induction m with
  | nil => rfl
  | cons e r ih =>
    obtain ⟨j, u⟩ := e
    by_cases h : j = k
    · simpa [del, h] using ih
    · simpa [del, h, get] using ih

theorem get_del_other (d : α) {k k' : Nat} (h : k' ≠ k) (m : Store α) : get d k' (del k m) = get d k' m := by
  induction m with
  | nil => rfl
  | cons e r ih =>
    obtain ⟨j, u⟩ := e
    by_cases hj : j = k
    · subst hj
      simpa [del, get, Ne.symm h] using ih
    · by_cases hk : j = k'
      · simp [del, get, hk, h]
      · simpa [del, hj, get, hk] using ih

variable [DecidableEq α]

/-- A read of the written key gives the written value. -/
@[simp] theorem get_put_same (d v : α) (k : Nat) (m : Store α) : get d k (put d k v m) = v := by
  unfold put
  split
  · rename_i h
    rw [get_del_same, h]
  · exact get_ins_same d v k m

/-- A write leaves every other key alone. -/
theorem get_put_other (d v : α) {k k' : Nat} (h : k' ≠ k) (m : Store α) : get d k' (put d k v m) = get d k' m := by
  unfold put
  split
  · exact get_del_other d h m
  · exact get_ins_other d v h m

theorem get_put (d v : α) (k k' : Nat) (m : Store α) : get d k' (put d k v m) = if k' = k then v else get d k' m := by
  split
  · rename_i h
    rw [h, get_put_same]
  · rename_i h
    exact get_put_other d v h m

/-- A write of several values leaves the keys outside its range alone. -/
theorem get_putL_other (d : α) (k' : Nat) (vs : List α) : ∀ (k : Nat) (m : Store α), (k' < k ∨ k + vs.length ≤ k') →
    get d k' (putL d m k vs) = get d k' m := by
  induction vs with
  | nil => intro k m _; rfl
  | cons v r ih =>
    intro k m h
    simp only [List.length_cons] at h
    rw [putL, ih (k + 1) _ (by omega), get_put_other d v (by omega)]

/-- A write of several values, read back at one of its keys. -/
theorem get_putL_in (d : α) (vs : List α) : ∀ (k i : Nat) (m : Store α), (h : i < vs.length) → get d (k + i) (putL d m k vs) = vs[i] := by
  induction vs with
  | nil => intro k i m h; simp at h
  | cons v r ih =>
    intro k i m h
    cases i with
    | zero => simp [putL, get_putL_other]
    | succ i =>
      have h2 := ih (k + 1) i (put d k v m) (by simpa using h)
      simpa [putL, Nat.add_assoc, Nat.add_comm 1 i] using h2

/-- What was written is read back. -/
theorem getN_putL (d : α) (vs : List α) : ∀ (k : Nat) (m : Store α), getN d (putL d m k vs) k vs.length = vs := by
  induction vs with
  | nil => intro k m; rfl
  | cons v r ih =>
    intro k m
    rw [List.length_cons, getN, putL, ih, get_putL_other d k r (k + 1) _ (by omega), get_put_same]

/-! ## The canonical form -/

theorem wfFrom_mono (d : α) {lo lo' : Nat} (h : lo' ≤ lo) {m : Store α} (w : wfFrom d lo m = true) : wfFrom d lo' m = true := by
  cases m with
  | nil => rfl
  | cons e r =>
    obtain ⟨j, v⟩ := e
    simp only [wfFrom, Bool.and_eq_true, decide_eq_true_eq] at w ⊢
    exact ⟨⟨by omega, w.1.2⟩, w.2⟩

theorem wfFrom_filter (d : α) (p : Nat × α → Bool) {m : Store α} : ∀ {lo : Nat}, wfFrom d lo m = true → wfFrom d lo (m.filter p) = true := by
  induction m with
  | nil => intro lo h; rfl
  | cons e r ih =>
    intro lo h
    obtain ⟨j, v⟩ := e
    simp only [wfFrom, Bool.and_eq_true, decide_eq_true_eq] at h
    by_cases hp : p (j, v)
    · simp only [List.filter, hp, wfFrom, Bool.and_eq_true, decide_eq_true_eq]
      exact ⟨h.1, ih h.2⟩
    · simp only [List.filter, hp]
      exact wfFrom_mono d (by omega) (ih h.2)

theorem wfFrom_ins (d v : α) (hv : v ≠ d) (k : Nat) {m : Store α} : ∀ {lo : Nat}, lo ≤ k → wfFrom d lo m = true → wfFrom d lo (ins k v m) = true := by
  induction m with
  | nil => intro lo h _; simp [ins, wfFrom, h, hv]
  | cons e r ih =>
    intro lo hk h
    obtain ⟨j, u⟩ := e
    simp only [wfFrom, Bool.and_eq_true, decide_eq_true_eq] at h
    simp only [ins]
    split
    · simp only [wfFrom, Bool.and_eq_true, decide_eq_true_eq]
      exact ⟨⟨hk, hv⟩, ⟨by omega, h.1.2⟩, h.2⟩
    · split
      · rename_i hj
        subst hj
        simp only [wfFrom, Bool.and_eq_true, decide_eq_true_eq]
        exact ⟨⟨hk, hv⟩, h.2⟩
      · simp only [wfFrom, Bool.and_eq_true, decide_eq_true_eq]
        exact ⟨h.1, ih (by omega) h.2⟩

/-- Every filter of a store in canonical form is in canonical form. -/
theorem wf_filter (d : α) (p : Nat × α → Bool) {m : Store α} (h : wf d m = true) : wf d (m.filter p) = true := wfFrom_filter d p h
/-- Every write keeps the canonical form. -/
theorem wf_put (d v : α) (k : Nat) {m : Store α} (h : wf d m = true) : wf d (put d k v m) = true := by
  unfold put
  split
  · exact wfFrom_filter d _ h
  · rename_i hv
    exact wfFrom_ins d v hv k (Nat.zero_le k) h
theorem wf_putL (d : α) (vs : List α) : ∀ (k : Nat) {m : Store α}, wf d m = true → wf d (putL d m k vs) = true := by
  induction vs with
  | nil => intro k m h; exact h
  | cons v r ih => intro k m h; exact ih (k + 1) (wf_put d v k h)
theorem wf_delRange (d : α) (lo hi : Nat) {m : Store α} (h : wf d m = true) : wf d (delRange lo hi m) = true := wfFrom_filter d _ h
theorem wf_nil (d : α) : wf d ([] : Store α) = true := rfl

omit [DecidableEq α] in
theorem get_delRange (d : α) (lo hi k : Nat) (m : Store α) : get d k (delRange lo hi m) = if lo ≤ k ∧ k < hi then d else get d k m := by
  induction m with
  | nil => simp [delRange, get]
  | cons e r ih =>
    obtain ⟨j, u⟩ := e
    simp only [delRange] at ih
    by_cases hj : lo ≤ j ∧ j < hi
    · have hp : (!(decide (lo ≤ j) && decide (j < hi))) = false := by simp [hj]
      simp only [delRange, List.filter, hp, ih, get]
      split
      · rfl
      · rename_i hk
        have : j ≠ k := fun e => hk (e ▸ hj)
        simp [this]
    · have hp : (!(decide (lo ≤ j) && decide (j < hi))) = true := by
        by_cases a : lo ≤ j <;> by_cases b : j < hi <;> simp_all
      simp only [delRange, List.filter, hp, get, ih]
      by_cases hk : j = k
      · subst hk; simp [hj]
      · simp [hk]

/-- In a store in canonical form a listed entry is what its key reads as. -/
theorem get_of_mem (d : α) {k : Nat} {v : α} {m : Store α} : ∀ {lo : Nat}, wfFrom d lo m = true → (k, v) ∈ m → get d k m = v := by
  induction m with
  | nil => intro lo _ h; simp at h
  | cons e r ih =>
    intro lo w h
    obtain ⟨j, u⟩ := e
    simp only [wfFrom, Bool.and_eq_true, decide_eq_true_eq] at w
    rcases List.mem_cons.mp h with h | h
    · cases h; simp [get]
    · have hlt : ∀ {l : Nat} {q : Store α}, wfFrom d l q = true → (k, v) ∈ q → l ≤ k := by
        intro l q
        induction q generalizing l with
        | nil => intro _ hq; simp at hq
        | cons a t it =>
          intro wq hq
          obtain ⟨b, c⟩ := a
          simp only [wfFrom, Bool.and_eq_true, decide_eq_true_eq] at wq
          rcases List.mem_cons.mp hq with hq | hq
          · cases hq; exact wq.1.1
          · have := it wq.2 hq
            omega
      have := hlt w.2 h
      have hne : j ≠ k := by omega
      simp [get, hne, ih w.2 h]

end Sys2Proof.Machine.Store
end

