-- ==== Sys2Proof/Laws/State.lean ====
section
/-! SUPPORT. What each update of the state leaves alone and what a read of it gives: one lemma per field per update. -/
namespace Sys2Proof.Machine

/-! ## State.setSlot -/
@[simp] theorem State.setSlot_cur (s : State) (n : Nat) (r : Slot) : (s.setSlot n r).cur = s.cur := rfl
@[simp] theorem State.setSlot_focus (s : State) (n : Nat) (r : Slot) : (s.setSlot n r).focus = s.focus := rfl
@[simp] theorem State.setSlot_agenda (s : State) (n : Nat) (r : Slot) : (s.setSlot n r).agenda = s.agenda := rfl
@[simp] theorem State.setSlot_tick (s : State) (n : Nat) (r : Slot) : (s.setSlot n r).tick = s.tick := rfl
@[simp] theorem State.setSlot_mem (s : State) (n : Nat) (r : Slot) : (s.setSlot n r).mem = s.mem := rfl
@[simp] theorem State.setSlot_poison (s : State) (n : Nat) (r : Slot) : (s.setSlot n r).poison = s.poison := rfl
@[simp] theorem State.setSlot_pot (s : State) (n : Nat) (r : Slot) : (s.setSlot n r).pot = s.pot := rfl
@[simp] theorem State.setSlot_keys (s : State) (n : Nat) (r : Slot) : (s.setSlot n r).keys = s.keys := rfl
@[simp] theorem State.setSlot_keysZero (s : State) (n : Nat) (r : Slot) : (s.setSlot n r).keysZero = s.keysZero := rfl
@[simp] theorem State.setSlot_keyz (s : State) (n : Nat) (r : Slot) : (s.setSlot n r).keyz = s.keyz := rfl
@[simp] theorem State.setSlot_tiles (s : State) (n : Nat) (r : Slot) : (s.setSlot n r).tiles = s.tiles := rfl
@[simp] theorem State.setSlot_cores (s : State) (n : Nat) (r : Slot) : (s.setSlot n r).cores = s.cores := rfl
@[simp] theorem State.setSlot_walkers (s : State) (n : Nat) (r : Slot) : (s.setSlot n r).walkers = s.walkers := rfl
@[simp] theorem State.setSlot_walkStore (s : State) (n : Nat) (r : Slot) : (s.setSlot n r).walkStore = s.walkStore := rfl
@[simp] theorem State.setSlot_wentry (s : State) (n : Nat) (r : Slot) : (s.setSlot n r).wentry = s.wentry := rfl
@[simp] theorem State.setSlot_tlb (s : State) (n : Nat) (r : Slot) : (s.setSlot n r).tlb = s.tlb := rfl
@[simp] theorem State.setSlot_sync (s : State) (n : Nat) (r : Slot) : (s.setSlot n r).sync = s.sync := rfl
@[simp] theorem State.setSlot_heldPages (s : State) (n : Nat) (r : Slot) : (s.setSlot n r).heldPages = s.heldPages := rfl
@[simp] theorem State.setSlot_health (s : State) (n : Nat) (r : Slot) : (s.setSlot n r).health = s.health := rfl
@[simp] theorem State.setSlot_seamLat (s : State) (n : Nat) (r : Slot) : (s.setSlot n r).seamLat = s.seamLat := rfl
@[simp] theorem State.setSlot_chans (s : State) (n : Nat) (r : Slot) : (s.setSlot n r).chans = s.chans := rfl
@[simp] theorem State.setSlot_fwin (s : State) (n : Nat) (r : Slot) : (s.setSlot n r).fwin = s.fwin := rfl
@[simp] theorem State.setSlot_ports (s : State) (n : Nat) (r : Slot) : (s.setSlot n r).ports = s.ports := rfl
@[simp] theorem State.setSlot_eth (s : State) (n : Nat) (r : Slot) : (s.setSlot n r).eth = s.eth := rfl
@[simp] theorem State.setSlot_vlans (s : State) (n : Nat) (r : Slot) : (s.setSlot n r).vlans = s.vlans := rfl
@[simp] theorem State.setSlot_links (s : State) (n : Nat) (r : Slot) : (s.setSlot n r).links = s.links := rfl
@[simp] theorem State.setSlot_vifs (s : State) (n : Nat) (r : Slot) : (s.setSlot n r).vifs = s.vifs := rfl
@[simp] theorem State.setSlot_nodes (s : State) (n : Nat) (r : Slot) : (s.setSlot n r).nodes = s.nodes := rfl
@[simp] theorem State.setSlot_nextArrival (s : State) (n : Nat) (r : Slot) : (s.setSlot n r).nextArrival = s.nextArrival := rfl
@[simp] theorem State.setSlot_age (s : State) (n : Nat) (r : Slot) : (s.setSlot n r).age = s.age := rfl
@[simp] theorem State.setSlot_vifsel (s : State) (n : Nat) (r : Slot) : (s.setSlot n r).vifsel = s.vifsel := rfl
@[simp] theorem State.setSlot_evq (s : State) (n : Nat) (r : Slot) : (s.setSlot n r).evq = s.evq := rfl
@[simp] theorem State.setSlot_evLost (s : State) (n : Nat) (r : Slot) : (s.setSlot n r).evLost = s.evLost := rfl
@[simp] theorem State.setSlot_errSeq (s : State) (n : Nat) (r : Slot) : (s.setSlot n r).errSeq = s.errSeq := rfl
@[simp] theorem State.setSlot_logq (s : State) (n : Nat) (r : Slot) : (s.setSlot n r).logq = s.logq := rfl
@[simp] theorem State.setSlot_healthLog (s : State) (n : Nat) (r : Slot) : (s.setSlot n r).healthLog = s.healthLog := rfl
@[simp] theorem State.setSlot_sdva (s : State) (n : Nat) (r : Slot) : (s.setSlot n r).sdva = s.sdva := rfl
@[simp] theorem State.setSlot_sdroot (s : State) (n : Nat) (r : Slot) : (s.setSlot n r).sdroot = s.sdroot := rfl
@[simp] theorem State.setSlot_sdsize (s : State) (n : Nat) (r : Slot) : (s.setSlot n r).sdsize = s.sdsize := rfl
@[simp] theorem State.setSlot_sdall (s : State) (n : Nat) (r : Slot) : (s.setSlot n r).sdall = s.sdall := rfl
@[simp] theorem State.setSlot_sdgo (s : State) (n : Nat) (r : Slot) : (s.setSlot n r).sdgo = s.sdgo := rfl
@[simp] theorem State.setSlot_sdNow (s : State) (n : Nat) (r : Slot) : (s.setSlot n r).sdNow = s.sdNow := rfl
@[simp] theorem State.setSlot_sdwait (s : State) (n : Nat) (r : Slot) : (s.setSlot n r).sdwait = s.sdwait := rfl
@[simp] theorem State.setSlot_wsel (s : State) (n : Nat) (r : Slot) : (s.setSlot n r).wsel = s.wsel := rfl
@[simp] theorem State.setSlot_potBusy (s : State) (n : Nat) (r : Slot) : (s.setSlot n r).potBusy = s.potBusy := rfl
@[simp] theorem State.setSlot_potErr (s : State) (n : Nat) (r : Slot) : (s.setSlot n r).potErr = s.potErr := rfl
@[simp] theorem State.setSlot_potDone (s : State) (n : Nat) (r : Slot) : (s.setSlot n r).potDone = s.potDone := rfl
@[simp] theorem State.setSlot_potCmd (s : State) (n : Nat) (r : Slot) : (s.setSlot n r).potCmd = s.potCmd := rfl
@[simp] theorem State.setSlot_wkWorld (s : State) (n : Nat) (r : Slot) : (s.setSlot n r).wkWorld = s.wkWorld := rfl
@[simp] theorem State.setSlot_wkBusy (s : State) (n : Nat) (r : Slot) : (s.setSlot n r).wkBusy = s.wkBusy := rfl
@[simp] theorem State.setSlot_wkGen (s : State) (n : Nat) (r : Slot) : (s.setSlot n r).wkGen = s.wkGen := rfl
@[simp] theorem State.setSlot_wkErr (s : State) (n : Nat) (r : Slot) : (s.setSlot n r).wkErr = s.wkErr := rfl
@[simp] theorem State.setSlot_wlog (s : State) (n : Nat) (r : Slot) : (s.setSlot n r).wlog = s.wlog := rfl
@[simp] theorem State.setSlot_bcsel (s : State) (n : Nat) (r : Slot) : (s.setSlot n r).bcsel = s.bcsel := rfl
@[simp] theorem State.setSlot_bounces (s : State) (n : Nat) (r : Slot) : (s.setSlot n r).bounces = s.bounces := rfl
@[simp] theorem State.setSlot_shedcap (s : State) (n : Nat) (r : Slot) : (s.setSlot n r).shedcap = s.shedcap := rfl
@[simp] theorem State.setSlot_shedord (s : State) (n : Nat) (r : Slot) : (s.setSlot n r).shedord = s.shedord := rfl
@[simp] theorem State.setSlot_watts (s : State) (n : Nat) (r : Slot) : (s.setSlot n r).watts = s.watts := rfl
@[simp] theorem State.setSlot_shedPwr (s : State) (n : Nat) (r : Slot) : (s.setSlot n r).shedPwr = s.shedPwr := rfl
@[simp] theorem State.setSlot_shed (s : State) (n : Nat) (r : Slot) : (s.setSlot n r).shed = s.shed := rfl
@[simp] theorem State.setSlot_snsel (s : State) (n : Nat) (r : Slot) : (s.setSlot n r).snsel = s.snsel := rfl
@[simp] theorem State.setSlot_snaps (s : State) (n : Nat) (r : Slot) : (s.setSlot n r).snaps = s.snaps := rfl
@[simp] theorem State.setSlot_sndrop (s : State) (n : Nat) (r : Slot) : (s.setSlot n r).sndrop = s.sndrop := rfl
@[simp] theorem State.setSlot_colls (s : State) (n : Nat) (r : Slot) : (s.setSlot n r).colls = s.colls := rfl
@[simp] theorem State.setSlot_collLimit (s : State) (n : Nat) (r : Slot) : (s.setSlot n r).collLimit = s.collLimit := rfl
@[simp] theorem State.setSlot_cmdSeq (s : State) (n : Nat) (r : Slot) : (s.setSlot n r).cmdSeq = s.cmdSeq := rfl
@[simp] theorem State.setSlot_hb (s : State) (n : Nat) (r : Slot) : (s.setSlot n r).hb = s.hb := rfl
@[simp] theorem State.setSlot_inbox (s : State) (n : Nat) (r : Slot) : (s.setSlot n r).inbox = s.inbox := rfl
@[simp] theorem State.setSlot_nextMsg (s : State) (n : Nat) (r : Slot) : (s.setSlot n r).nextMsg = s.nextMsg := rfl
@[simp] theorem State.setSlot_outbox (s : State) (n : Nat) (r : Slot) : (s.setSlot n r).outbox = s.outbox := rfl
@[simp] theorem State.setSlot_podBars (s : State) (n : Nat) (r : Slot) : (s.setSlot n r).podBars = s.podBars := rfl
@[simp] theorem State.setSlot_podSent (s : State) (n : Nat) (r : Slot) : (s.setSlot n r).podSent = s.podSent := rfl
@[simp] theorem State.setSlot_tb (s : State) (n : Nat) (r : Slot) : (s.setSlot n r).tb = s.tb := rfl
@[simp] theorem State.setSlot_tbPulse (s : State) (n : Nat) (r : Slot) : (s.setSlot n r).tbPulse = s.tbPulse := rfl
@[simp] theorem State.setSlot_pulses (s : State) (n : Nat) (r : Slot) : (s.setSlot n r).pulses = s.pulses := rfl
@[simp] theorem State.setSlot_tbwall (s : State) (n : Nat) (r : Slot) : (s.setSlot n r).tbwall = s.tbwall := rfl
@[simp] theorem State.setSlot_phase (s : State) (n : Nat) (r : Slot) : (s.setSlot n r).phase = s.phase := rfl
@[simp] theorem State.setSlot_rotsb (s : State) (n : Nat) (r : Slot) : (s.setSlot n r).rotsb = s.rotsb := rfl
@[simp] theorem State.setSlot_bootFail (s : State) (n : Nat) (r : Slot) : (s.setSlot n r).bootFail = s.bootFail := rfl
@[simp] theorem State.setSlot_warm (s : State) (n : Nat) (r : Slot) : (s.setSlot n r).warm = s.warm := rfl
@[simp] theorem State.setSlot_gated (s : State) (n : Nat) (r : Slot) : (s.setSlot n r).gated = s.gated := rfl
@[simp] theorem State.setSlot_worldDies (s : State) (n : Nat) (r : Slot) : (s.setSlot n r).worldDies = s.worldDies := rfl
@[simp] theorem State.setSlot_hbmsel (s : State) (n : Nat) (r : Slot) : (s.setSlot n r).hbmsel = s.hbmsel := rfl
@[simp] theorem State.setSlot_fwsel (s : State) (n : Nat) (r : Slot) : (s.setSlot n r).fwsel = s.fwsel := rfl
@[simp] theorem State.setSlot_ethdrop (s : State) (n : Nat) (r : Slot) : (s.setSlot n r).ethdrop = s.ethdrop := rfl
@[simp] theorem State.setSlot_pkgid (s : State) (n : Nat) (r : Slot) : (s.setSlot n r).pkgid = s.pkgid := rfl
@[simp] theorem State.setSlot_pkgStore (s : State) (n : Nat) (r : Slot) : (s.setSlot n r).pkgStore = s.pkgStore := rfl
@[simp] theorem State.setSlot_pkgNow (s : State) (n : Nat) (r : Slot) : (s.setSlot n r).pkgNow = s.pkgNow := rfl
@[simp] theorem State.setSlot_cfgNext (s : State) (n : Nat) (r : Slot) : (s.setSlot n r).cfgNext = s.cfgNext := rfl
@[simp] theorem State.setSlot_cfgNow (s : State) (n : Nat) (r : Slot) : (s.setSlot n r).cfgNow = s.cfgNow := rfl
@[simp] theorem State.setSlot_draws (s : State) (n : Nat) (r : Slot) : (s.setSlot n r).draws = s.draws := rfl
@[simp] theorem State.setSlot_retrains (s : State) (n : Nat) (r : Slot) : (s.setSlot n r).retrains = s.retrains := rfl

/-! ## State.setTile -/
@[simp] theorem State.setTile_cur (s : State) (p : Nat) (x : Tile) : (s.setTile p x).cur = s.cur := rfl
@[simp] theorem State.setTile_focus (s : State) (p : Nat) (x : Tile) : (s.setTile p x).focus = s.focus := rfl
@[simp] theorem State.setTile_agenda (s : State) (p : Nat) (x : Tile) : (s.setTile p x).agenda = s.agenda := rfl
@[simp] theorem State.setTile_tick (s : State) (p : Nat) (x : Tile) : (s.setTile p x).tick = s.tick := rfl
@[simp] theorem State.setTile_mem (s : State) (p : Nat) (x : Tile) : (s.setTile p x).mem = s.mem := rfl
@[simp] theorem State.setTile_poison (s : State) (p : Nat) (x : Tile) : (s.setTile p x).poison = s.poison := rfl
@[simp] theorem State.setTile_pot (s : State) (p : Nat) (x : Tile) : (s.setTile p x).pot = s.pot := rfl
@[simp] theorem State.setTile_keys (s : State) (p : Nat) (x : Tile) : (s.setTile p x).keys = s.keys := rfl
@[simp] theorem State.setTile_keysZero (s : State) (p : Nat) (x : Tile) : (s.setTile p x).keysZero = s.keysZero := rfl
@[simp] theorem State.setTile_keyz (s : State) (p : Nat) (x : Tile) : (s.setTile p x).keyz = s.keyz := rfl
@[simp] theorem State.setTile_slots (s : State) (p : Nat) (x : Tile) : (s.setTile p x).slots = s.slots := rfl
@[simp] theorem State.setTile_cores (s : State) (p : Nat) (x : Tile) : (s.setTile p x).cores = s.cores := rfl
@[simp] theorem State.setTile_walkers (s : State) (p : Nat) (x : Tile) : (s.setTile p x).walkers = s.walkers := rfl
@[simp] theorem State.setTile_walkStore (s : State) (p : Nat) (x : Tile) : (s.setTile p x).walkStore = s.walkStore := rfl
@[simp] theorem State.setTile_wentry (s : State) (p : Nat) (x : Tile) : (s.setTile p x).wentry = s.wentry := rfl
@[simp] theorem State.setTile_tlb (s : State) (p : Nat) (x : Tile) : (s.setTile p x).tlb = s.tlb := rfl
@[simp] theorem State.setTile_sync (s : State) (p : Nat) (x : Tile) : (s.setTile p x).sync = s.sync := rfl
@[simp] theorem State.setTile_heldPages (s : State) (p : Nat) (x : Tile) : (s.setTile p x).heldPages = s.heldPages := rfl
@[simp] theorem State.setTile_health (s : State) (p : Nat) (x : Tile) : (s.setTile p x).health = s.health := rfl
@[simp] theorem State.setTile_seamLat (s : State) (p : Nat) (x : Tile) : (s.setTile p x).seamLat = s.seamLat := rfl
@[simp] theorem State.setTile_chans (s : State) (p : Nat) (x : Tile) : (s.setTile p x).chans = s.chans := rfl
@[simp] theorem State.setTile_fwin (s : State) (p : Nat) (x : Tile) : (s.setTile p x).fwin = s.fwin := rfl
@[simp] theorem State.setTile_ports (s : State) (p : Nat) (x : Tile) : (s.setTile p x).ports = s.ports := rfl
@[simp] theorem State.setTile_eth (s : State) (p : Nat) (x : Tile) : (s.setTile p x).eth = s.eth := rfl
@[simp] theorem State.setTile_vlans (s : State) (p : Nat) (x : Tile) : (s.setTile p x).vlans = s.vlans := rfl
@[simp] theorem State.setTile_links (s : State) (p : Nat) (x : Tile) : (s.setTile p x).links = s.links := rfl
@[simp] theorem State.setTile_vifs (s : State) (p : Nat) (x : Tile) : (s.setTile p x).vifs = s.vifs := rfl
@[simp] theorem State.setTile_nodes (s : State) (p : Nat) (x : Tile) : (s.setTile p x).nodes = s.nodes := rfl
@[simp] theorem State.setTile_nextArrival (s : State) (p : Nat) (x : Tile) : (s.setTile p x).nextArrival = s.nextArrival := rfl
@[simp] theorem State.setTile_age (s : State) (p : Nat) (x : Tile) : (s.setTile p x).age = s.age := rfl
@[simp] theorem State.setTile_vifsel (s : State) (p : Nat) (x : Tile) : (s.setTile p x).vifsel = s.vifsel := rfl
@[simp] theorem State.setTile_evq (s : State) (p : Nat) (x : Tile) : (s.setTile p x).evq = s.evq := rfl
@[simp] theorem State.setTile_evLost (s : State) (p : Nat) (x : Tile) : (s.setTile p x).evLost = s.evLost := rfl
@[simp] theorem State.setTile_errSeq (s : State) (p : Nat) (x : Tile) : (s.setTile p x).errSeq = s.errSeq := rfl
@[simp] theorem State.setTile_logq (s : State) (p : Nat) (x : Tile) : (s.setTile p x).logq = s.logq := rfl
@[simp] theorem State.setTile_healthLog (s : State) (p : Nat) (x : Tile) : (s.setTile p x).healthLog = s.healthLog := rfl
@[simp] theorem State.setTile_sdva (s : State) (p : Nat) (x : Tile) : (s.setTile p x).sdva = s.sdva := rfl
@[simp] theorem State.setTile_sdroot (s : State) (p : Nat) (x : Tile) : (s.setTile p x).sdroot = s.sdroot := rfl
@[simp] theorem State.setTile_sdsize (s : State) (p : Nat) (x : Tile) : (s.setTile p x).sdsize = s.sdsize := rfl
@[simp] theorem State.setTile_sdall (s : State) (p : Nat) (x : Tile) : (s.setTile p x).sdall = s.sdall := rfl
@[simp] theorem State.setTile_sdgo (s : State) (p : Nat) (x : Tile) : (s.setTile p x).sdgo = s.sdgo := rfl
@[simp] theorem State.setTile_sdNow (s : State) (p : Nat) (x : Tile) : (s.setTile p x).sdNow = s.sdNow := rfl
@[simp] theorem State.setTile_sdwait (s : State) (p : Nat) (x : Tile) : (s.setTile p x).sdwait = s.sdwait := rfl
@[simp] theorem State.setTile_wsel (s : State) (p : Nat) (x : Tile) : (s.setTile p x).wsel = s.wsel := rfl
@[simp] theorem State.setTile_potBusy (s : State) (p : Nat) (x : Tile) : (s.setTile p x).potBusy = s.potBusy := rfl
@[simp] theorem State.setTile_potErr (s : State) (p : Nat) (x : Tile) : (s.setTile p x).potErr = s.potErr := rfl
@[simp] theorem State.setTile_potDone (s : State) (p : Nat) (x : Tile) : (s.setTile p x).potDone = s.potDone := rfl
@[simp] theorem State.setTile_potCmd (s : State) (p : Nat) (x : Tile) : (s.setTile p x).potCmd = s.potCmd := rfl
@[simp] theorem State.setTile_wkWorld (s : State) (p : Nat) (x : Tile) : (s.setTile p x).wkWorld = s.wkWorld := rfl
@[simp] theorem State.setTile_wkBusy (s : State) (p : Nat) (x : Tile) : (s.setTile p x).wkBusy = s.wkBusy := rfl
@[simp] theorem State.setTile_wkGen (s : State) (p : Nat) (x : Tile) : (s.setTile p x).wkGen = s.wkGen := rfl
@[simp] theorem State.setTile_wkErr (s : State) (p : Nat) (x : Tile) : (s.setTile p x).wkErr = s.wkErr := rfl
@[simp] theorem State.setTile_wlog (s : State) (p : Nat) (x : Tile) : (s.setTile p x).wlog = s.wlog := rfl
@[simp] theorem State.setTile_bcsel (s : State) (p : Nat) (x : Tile) : (s.setTile p x).bcsel = s.bcsel := rfl
@[simp] theorem State.setTile_bounces (s : State) (p : Nat) (x : Tile) : (s.setTile p x).bounces = s.bounces := rfl
@[simp] theorem State.setTile_shedcap (s : State) (p : Nat) (x : Tile) : (s.setTile p x).shedcap = s.shedcap := rfl
@[simp] theorem State.setTile_shedord (s : State) (p : Nat) (x : Tile) : (s.setTile p x).shedord = s.shedord := rfl
@[simp] theorem State.setTile_watts (s : State) (p : Nat) (x : Tile) : (s.setTile p x).watts = s.watts := rfl
@[simp] theorem State.setTile_shedPwr (s : State) (p : Nat) (x : Tile) : (s.setTile p x).shedPwr = s.shedPwr := rfl
@[simp] theorem State.setTile_shed (s : State) (p : Nat) (x : Tile) : (s.setTile p x).shed = s.shed := rfl
@[simp] theorem State.setTile_snsel (s : State) (p : Nat) (x : Tile) : (s.setTile p x).snsel = s.snsel := rfl
@[simp] theorem State.setTile_snaps (s : State) (p : Nat) (x : Tile) : (s.setTile p x).snaps = s.snaps := rfl
@[simp] theorem State.setTile_sndrop (s : State) (p : Nat) (x : Tile) : (s.setTile p x).sndrop = s.sndrop := rfl
@[simp] theorem State.setTile_colls (s : State) (p : Nat) (x : Tile) : (s.setTile p x).colls = s.colls := rfl
@[simp] theorem State.setTile_collLimit (s : State) (p : Nat) (x : Tile) : (s.setTile p x).collLimit = s.collLimit := rfl
@[simp] theorem State.setTile_cmdSeq (s : State) (p : Nat) (x : Tile) : (s.setTile p x).cmdSeq = s.cmdSeq := rfl
@[simp] theorem State.setTile_hb (s : State) (p : Nat) (x : Tile) : (s.setTile p x).hb = s.hb := rfl
@[simp] theorem State.setTile_inbox (s : State) (p : Nat) (x : Tile) : (s.setTile p x).inbox = s.inbox := rfl
@[simp] theorem State.setTile_nextMsg (s : State) (p : Nat) (x : Tile) : (s.setTile p x).nextMsg = s.nextMsg := rfl
@[simp] theorem State.setTile_outbox (s : State) (p : Nat) (x : Tile) : (s.setTile p x).outbox = s.outbox := rfl
@[simp] theorem State.setTile_podBars (s : State) (p : Nat) (x : Tile) : (s.setTile p x).podBars = s.podBars := rfl
@[simp] theorem State.setTile_podSent (s : State) (p : Nat) (x : Tile) : (s.setTile p x).podSent = s.podSent := rfl
@[simp] theorem State.setTile_tb (s : State) (p : Nat) (x : Tile) : (s.setTile p x).tb = s.tb := rfl
@[simp] theorem State.setTile_tbPulse (s : State) (p : Nat) (x : Tile) : (s.setTile p x).tbPulse = s.tbPulse := rfl
@[simp] theorem State.setTile_pulses (s : State) (p : Nat) (x : Tile) : (s.setTile p x).pulses = s.pulses := rfl
@[simp] theorem State.setTile_tbwall (s : State) (p : Nat) (x : Tile) : (s.setTile p x).tbwall = s.tbwall := rfl
@[simp] theorem State.setTile_phase (s : State) (p : Nat) (x : Tile) : (s.setTile p x).phase = s.phase := rfl
@[simp] theorem State.setTile_rotsb (s : State) (p : Nat) (x : Tile) : (s.setTile p x).rotsb = s.rotsb := rfl
@[simp] theorem State.setTile_bootFail (s : State) (p : Nat) (x : Tile) : (s.setTile p x).bootFail = s.bootFail := rfl
@[simp] theorem State.setTile_warm (s : State) (p : Nat) (x : Tile) : (s.setTile p x).warm = s.warm := rfl
@[simp] theorem State.setTile_gated (s : State) (p : Nat) (x : Tile) : (s.setTile p x).gated = s.gated := rfl
@[simp] theorem State.setTile_worldDies (s : State) (p : Nat) (x : Tile) : (s.setTile p x).worldDies = s.worldDies := rfl
@[simp] theorem State.setTile_hbmsel (s : State) (p : Nat) (x : Tile) : (s.setTile p x).hbmsel = s.hbmsel := rfl
@[simp] theorem State.setTile_fwsel (s : State) (p : Nat) (x : Tile) : (s.setTile p x).fwsel = s.fwsel := rfl
@[simp] theorem State.setTile_ethdrop (s : State) (p : Nat) (x : Tile) : (s.setTile p x).ethdrop = s.ethdrop := rfl
@[simp] theorem State.setTile_pkgid (s : State) (p : Nat) (x : Tile) : (s.setTile p x).pkgid = s.pkgid := rfl
@[simp] theorem State.setTile_pkgStore (s : State) (p : Nat) (x : Tile) : (s.setTile p x).pkgStore = s.pkgStore := rfl
@[simp] theorem State.setTile_pkgNow (s : State) (p : Nat) (x : Tile) : (s.setTile p x).pkgNow = s.pkgNow := rfl
@[simp] theorem State.setTile_cfgNext (s : State) (p : Nat) (x : Tile) : (s.setTile p x).cfgNext = s.cfgNext := rfl
@[simp] theorem State.setTile_cfgNow (s : State) (p : Nat) (x : Tile) : (s.setTile p x).cfgNow = s.cfgNow := rfl
@[simp] theorem State.setTile_draws (s : State) (p : Nat) (x : Tile) : (s.setTile p x).draws = s.draws := rfl
@[simp] theorem State.setTile_retrains (s : State) (p : Nat) (x : Tile) : (s.setTile p x).retrains = s.retrains := rfl

/-! ## State.setCore -/
@[simp] theorem State.setCore_cur (s : State) (n : Nat) (c : CCore) : (s.setCore n c).cur = s.cur := rfl
@[simp] theorem State.setCore_focus (s : State) (n : Nat) (c : CCore) : (s.setCore n c).focus = s.focus := rfl
@[simp] theorem State.setCore_agenda (s : State) (n : Nat) (c : CCore) : (s.setCore n c).agenda = s.agenda := rfl
@[simp] theorem State.setCore_tick (s : State) (n : Nat) (c : CCore) : (s.setCore n c).tick = s.tick := rfl
@[simp] theorem State.setCore_mem (s : State) (n : Nat) (c : CCore) : (s.setCore n c).mem = s.mem := rfl
@[simp] theorem State.setCore_poison (s : State) (n : Nat) (c : CCore) : (s.setCore n c).poison = s.poison := rfl
@[simp] theorem State.setCore_pot (s : State) (n : Nat) (c : CCore) : (s.setCore n c).pot = s.pot := rfl
@[simp] theorem State.setCore_keys (s : State) (n : Nat) (c : CCore) : (s.setCore n c).keys = s.keys := rfl
@[simp] theorem State.setCore_keysZero (s : State) (n : Nat) (c : CCore) : (s.setCore n c).keysZero = s.keysZero := rfl
@[simp] theorem State.setCore_keyz (s : State) (n : Nat) (c : CCore) : (s.setCore n c).keyz = s.keyz := rfl
@[simp] theorem State.setCore_tiles (s : State) (n : Nat) (c : CCore) : (s.setCore n c).tiles = s.tiles := rfl
@[simp] theorem State.setCore_slots (s : State) (n : Nat) (c : CCore) : (s.setCore n c).slots = s.slots := rfl
@[simp] theorem State.setCore_walkers (s : State) (n : Nat) (c : CCore) : (s.setCore n c).walkers = s.walkers := rfl
@[simp] theorem State.setCore_walkStore (s : State) (n : Nat) (c : CCore) : (s.setCore n c).walkStore = s.walkStore := rfl
@[simp] theorem State.setCore_wentry (s : State) (n : Nat) (c : CCore) : (s.setCore n c).wentry = s.wentry := rfl
@[simp] theorem State.setCore_tlb (s : State) (n : Nat) (c : CCore) : (s.setCore n c).tlb = s.tlb := rfl
@[simp] theorem State.setCore_sync (s : State) (n : Nat) (c : CCore) : (s.setCore n c).sync = s.sync := rfl
@[simp] theorem State.setCore_heldPages (s : State) (n : Nat) (c : CCore) : (s.setCore n c).heldPages = s.heldPages := rfl
@[simp] theorem State.setCore_health (s : State) (n : Nat) (c : CCore) : (s.setCore n c).health = s.health := rfl
@[simp] theorem State.setCore_seamLat (s : State) (n : Nat) (c : CCore) : (s.setCore n c).seamLat = s.seamLat := rfl
@[simp] theorem State.setCore_chans (s : State) (n : Nat) (c : CCore) : (s.setCore n c).chans = s.chans := rfl
@[simp] theorem State.setCore_fwin (s : State) (n : Nat) (c : CCore) : (s.setCore n c).fwin = s.fwin := rfl
@[simp] theorem State.setCore_ports (s : State) (n : Nat) (c : CCore) : (s.setCore n c).ports = s.ports := rfl
@[simp] theorem State.setCore_eth (s : State) (n : Nat) (c : CCore) : (s.setCore n c).eth = s.eth := rfl
@[simp] theorem State.setCore_vlans (s : State) (n : Nat) (c : CCore) : (s.setCore n c).vlans = s.vlans := rfl
@[simp] theorem State.setCore_links (s : State) (n : Nat) (c : CCore) : (s.setCore n c).links = s.links := rfl
@[simp] theorem State.setCore_vifs (s : State) (n : Nat) (c : CCore) : (s.setCore n c).vifs = s.vifs := rfl
@[simp] theorem State.setCore_nodes (s : State) (n : Nat) (c : CCore) : (s.setCore n c).nodes = s.nodes := rfl
@[simp] theorem State.setCore_nextArrival (s : State) (n : Nat) (c : CCore) : (s.setCore n c).nextArrival = s.nextArrival := rfl
@[simp] theorem State.setCore_age (s : State) (n : Nat) (c : CCore) : (s.setCore n c).age = s.age := rfl
@[simp] theorem State.setCore_vifsel (s : State) (n : Nat) (c : CCore) : (s.setCore n c).vifsel = s.vifsel := rfl
@[simp] theorem State.setCore_evq (s : State) (n : Nat) (c : CCore) : (s.setCore n c).evq = s.evq := rfl
@[simp] theorem State.setCore_evLost (s : State) (n : Nat) (c : CCore) : (s.setCore n c).evLost = s.evLost := rfl
@[simp] theorem State.setCore_errSeq (s : State) (n : Nat) (c : CCore) : (s.setCore n c).errSeq = s.errSeq := rfl
@[simp] theorem State.setCore_logq (s : State) (n : Nat) (c : CCore) : (s.setCore n c).logq = s.logq := rfl
@[simp] theorem State.setCore_healthLog (s : State) (n : Nat) (c : CCore) : (s.setCore n c).healthLog = s.healthLog := rfl
@[simp] theorem State.setCore_sdva (s : State) (n : Nat) (c : CCore) : (s.setCore n c).sdva = s.sdva := rfl
@[simp] theorem State.setCore_sdroot (s : State) (n : Nat) (c : CCore) : (s.setCore n c).sdroot = s.sdroot := rfl
@[simp] theorem State.setCore_sdsize (s : State) (n : Nat) (c : CCore) : (s.setCore n c).sdsize = s.sdsize := rfl
@[simp] theorem State.setCore_sdall (s : State) (n : Nat) (c : CCore) : (s.setCore n c).sdall = s.sdall := rfl
@[simp] theorem State.setCore_sdgo (s : State) (n : Nat) (c : CCore) : (s.setCore n c).sdgo = s.sdgo := rfl
@[simp] theorem State.setCore_sdNow (s : State) (n : Nat) (c : CCore) : (s.setCore n c).sdNow = s.sdNow := rfl
@[simp] theorem State.setCore_sdwait (s : State) (n : Nat) (c : CCore) : (s.setCore n c).sdwait = s.sdwait := rfl
@[simp] theorem State.setCore_wsel (s : State) (n : Nat) (c : CCore) : (s.setCore n c).wsel = s.wsel := rfl
@[simp] theorem State.setCore_potBusy (s : State) (n : Nat) (c : CCore) : (s.setCore n c).potBusy = s.potBusy := rfl
@[simp] theorem State.setCore_potErr (s : State) (n : Nat) (c : CCore) : (s.setCore n c).potErr = s.potErr := rfl
@[simp] theorem State.setCore_potDone (s : State) (n : Nat) (c : CCore) : (s.setCore n c).potDone = s.potDone := rfl
@[simp] theorem State.setCore_potCmd (s : State) (n : Nat) (c : CCore) : (s.setCore n c).potCmd = s.potCmd := rfl
@[simp] theorem State.setCore_wkWorld (s : State) (n : Nat) (c : CCore) : (s.setCore n c).wkWorld = s.wkWorld := rfl
@[simp] theorem State.setCore_wkBusy (s : State) (n : Nat) (c : CCore) : (s.setCore n c).wkBusy = s.wkBusy := rfl
@[simp] theorem State.setCore_wkGen (s : State) (n : Nat) (c : CCore) : (s.setCore n c).wkGen = s.wkGen := rfl
@[simp] theorem State.setCore_wkErr (s : State) (n : Nat) (c : CCore) : (s.setCore n c).wkErr = s.wkErr := rfl
@[simp] theorem State.setCore_wlog (s : State) (n : Nat) (c : CCore) : (s.setCore n c).wlog = s.wlog := rfl
@[simp] theorem State.setCore_bcsel (s : State) (n : Nat) (c : CCore) : (s.setCore n c).bcsel = s.bcsel := rfl
@[simp] theorem State.setCore_bounces (s : State) (n : Nat) (c : CCore) : (s.setCore n c).bounces = s.bounces := rfl
@[simp] theorem State.setCore_shedcap (s : State) (n : Nat) (c : CCore) : (s.setCore n c).shedcap = s.shedcap := rfl
@[simp] theorem State.setCore_shedord (s : State) (n : Nat) (c : CCore) : (s.setCore n c).shedord = s.shedord := rfl
@[simp] theorem State.setCore_watts (s : State) (n : Nat) (c : CCore) : (s.setCore n c).watts = s.watts := rfl
@[simp] theorem State.setCore_shedPwr (s : State) (n : Nat) (c : CCore) : (s.setCore n c).shedPwr = s.shedPwr := rfl
@[simp] theorem State.setCore_shed (s : State) (n : Nat) (c : CCore) : (s.setCore n c).shed = s.shed := rfl
@[simp] theorem State.setCore_snsel (s : State) (n : Nat) (c : CCore) : (s.setCore n c).snsel = s.snsel := rfl
@[simp] theorem State.setCore_snaps (s : State) (n : Nat) (c : CCore) : (s.setCore n c).snaps = s.snaps := rfl
@[simp] theorem State.setCore_sndrop (s : State) (n : Nat) (c : CCore) : (s.setCore n c).sndrop = s.sndrop := rfl
@[simp] theorem State.setCore_colls (s : State) (n : Nat) (c : CCore) : (s.setCore n c).colls = s.colls := rfl
@[simp] theorem State.setCore_collLimit (s : State) (n : Nat) (c : CCore) : (s.setCore n c).collLimit = s.collLimit := rfl
@[simp] theorem State.setCore_cmdSeq (s : State) (n : Nat) (c : CCore) : (s.setCore n c).cmdSeq = s.cmdSeq := rfl
@[simp] theorem State.setCore_hb (s : State) (n : Nat) (c : CCore) : (s.setCore n c).hb = s.hb := rfl
@[simp] theorem State.setCore_inbox (s : State) (n : Nat) (c : CCore) : (s.setCore n c).inbox = s.inbox := rfl
@[simp] theorem State.setCore_nextMsg (s : State) (n : Nat) (c : CCore) : (s.setCore n c).nextMsg = s.nextMsg := rfl
@[simp] theorem State.setCore_outbox (s : State) (n : Nat) (c : CCore) : (s.setCore n c).outbox = s.outbox := rfl
@[simp] theorem State.setCore_podBars (s : State) (n : Nat) (c : CCore) : (s.setCore n c).podBars = s.podBars := rfl
@[simp] theorem State.setCore_podSent (s : State) (n : Nat) (c : CCore) : (s.setCore n c).podSent = s.podSent := rfl
@[simp] theorem State.setCore_tb (s : State) (n : Nat) (c : CCore) : (s.setCore n c).tb = s.tb := rfl
@[simp] theorem State.setCore_tbPulse (s : State) (n : Nat) (c : CCore) : (s.setCore n c).tbPulse = s.tbPulse := rfl
@[simp] theorem State.setCore_pulses (s : State) (n : Nat) (c : CCore) : (s.setCore n c).pulses = s.pulses := rfl
@[simp] theorem State.setCore_tbwall (s : State) (n : Nat) (c : CCore) : (s.setCore n c).tbwall = s.tbwall := rfl
@[simp] theorem State.setCore_phase (s : State) (n : Nat) (c : CCore) : (s.setCore n c).phase = s.phase := rfl
@[simp] theorem State.setCore_rotsb (s : State) (n : Nat) (c : CCore) : (s.setCore n c).rotsb = s.rotsb := rfl
@[simp] theorem State.setCore_bootFail (s : State) (n : Nat) (c : CCore) : (s.setCore n c).bootFail = s.bootFail := rfl
@[simp] theorem State.setCore_warm (s : State) (n : Nat) (c : CCore) : (s.setCore n c).warm = s.warm := rfl
@[simp] theorem State.setCore_gated (s : State) (n : Nat) (c : CCore) : (s.setCore n c).gated = s.gated := rfl
@[simp] theorem State.setCore_worldDies (s : State) (n : Nat) (c : CCore) : (s.setCore n c).worldDies = s.worldDies := rfl
@[simp] theorem State.setCore_hbmsel (s : State) (n : Nat) (c : CCore) : (s.setCore n c).hbmsel = s.hbmsel := rfl
@[simp] theorem State.setCore_fwsel (s : State) (n : Nat) (c : CCore) : (s.setCore n c).fwsel = s.fwsel := rfl
@[simp] theorem State.setCore_ethdrop (s : State) (n : Nat) (c : CCore) : (s.setCore n c).ethdrop = s.ethdrop := rfl
@[simp] theorem State.setCore_pkgid (s : State) (n : Nat) (c : CCore) : (s.setCore n c).pkgid = s.pkgid := rfl
@[simp] theorem State.setCore_pkgStore (s : State) (n : Nat) (c : CCore) : (s.setCore n c).pkgStore = s.pkgStore := rfl
@[simp] theorem State.setCore_pkgNow (s : State) (n : Nat) (c : CCore) : (s.setCore n c).pkgNow = s.pkgNow := rfl
@[simp] theorem State.setCore_cfgNext (s : State) (n : Nat) (c : CCore) : (s.setCore n c).cfgNext = s.cfgNext := rfl
@[simp] theorem State.setCore_cfgNow (s : State) (n : Nat) (c : CCore) : (s.setCore n c).cfgNow = s.cfgNow := rfl
@[simp] theorem State.setCore_draws (s : State) (n : Nat) (c : CCore) : (s.setCore n c).draws = s.draws := rfl
@[simp] theorem State.setCore_retrains (s : State) (n : Nat) (c : CCore) : (s.setCore n c).retrains = s.retrains := rfl

/-! ## State.setWalker -/
@[simp] theorem State.setWalker_cur (s : State) (n : Nat) (c : CCore) : (s.setWalker n c).cur = s.cur := rfl
@[simp] theorem State.setWalker_focus (s : State) (n : Nat) (c : CCore) : (s.setWalker n c).focus = s.focus := rfl
@[simp] theorem State.setWalker_agenda (s : State) (n : Nat) (c : CCore) : (s.setWalker n c).agenda = s.agenda := rfl
@[simp] theorem State.setWalker_tick (s : State) (n : Nat) (c : CCore) : (s.setWalker n c).tick = s.tick := rfl
@[simp] theorem State.setWalker_mem (s : State) (n : Nat) (c : CCore) : (s.setWalker n c).mem = s.mem := rfl
@[simp] theorem State.setWalker_poison (s : State) (n : Nat) (c : CCore) : (s.setWalker n c).poison = s.poison := rfl
@[simp] theorem State.setWalker_pot (s : State) (n : Nat) (c : CCore) : (s.setWalker n c).pot = s.pot := rfl
@[simp] theorem State.setWalker_keys (s : State) (n : Nat) (c : CCore) : (s.setWalker n c).keys = s.keys := rfl
@[simp] theorem State.setWalker_keysZero (s : State) (n : Nat) (c : CCore) : (s.setWalker n c).keysZero = s.keysZero := rfl
@[simp] theorem State.setWalker_keyz (s : State) (n : Nat) (c : CCore) : (s.setWalker n c).keyz = s.keyz := rfl
@[simp] theorem State.setWalker_tiles (s : State) (n : Nat) (c : CCore) : (s.setWalker n c).tiles = s.tiles := rfl
@[simp] theorem State.setWalker_slots (s : State) (n : Nat) (c : CCore) : (s.setWalker n c).slots = s.slots := rfl
@[simp] theorem State.setWalker_cores (s : State) (n : Nat) (c : CCore) : (s.setWalker n c).cores = s.cores := rfl
@[simp] theorem State.setWalker_walkStore (s : State) (n : Nat) (c : CCore) : (s.setWalker n c).walkStore = s.walkStore := rfl
@[simp] theorem State.setWalker_wentry (s : State) (n : Nat) (c : CCore) : (s.setWalker n c).wentry = s.wentry := rfl
@[simp] theorem State.setWalker_tlb (s : State) (n : Nat) (c : CCore) : (s.setWalker n c).tlb = s.tlb := rfl
@[simp] theorem State.setWalker_sync (s : State) (n : Nat) (c : CCore) : (s.setWalker n c).sync = s.sync := rfl
@[simp] theorem State.setWalker_heldPages (s : State) (n : Nat) (c : CCore) : (s.setWalker n c).heldPages = s.heldPages := rfl
@[simp] theorem State.setWalker_health (s : State) (n : Nat) (c : CCore) : (s.setWalker n c).health = s.health := rfl
@[simp] theorem State.setWalker_seamLat (s : State) (n : Nat) (c : CCore) : (s.setWalker n c).seamLat = s.seamLat := rfl
@[simp] theorem State.setWalker_chans (s : State) (n : Nat) (c : CCore) : (s.setWalker n c).chans = s.chans := rfl
@[simp] theorem State.setWalker_fwin (s : State) (n : Nat) (c : CCore) : (s.setWalker n c).fwin = s.fwin := rfl
@[simp] theorem State.setWalker_ports (s : State) (n : Nat) (c : CCore) : (s.setWalker n c).ports = s.ports := rfl
@[simp] theorem State.setWalker_eth (s : State) (n : Nat) (c : CCore) : (s.setWalker n c).eth = s.eth := rfl
@[simp] theorem State.setWalker_vlans (s : State) (n : Nat) (c : CCore) : (s.setWalker n c).vlans = s.vlans := rfl
@[simp] theorem State.setWalker_links (s : State) (n : Nat) (c : CCore) : (s.setWalker n c).links = s.links := rfl
@[simp] theorem State.setWalker_vifs (s : State) (n : Nat) (c : CCore) : (s.setWalker n c).vifs = s.vifs := rfl
@[simp] theorem State.setWalker_nodes (s : State) (n : Nat) (c : CCore) : (s.setWalker n c).nodes = s.nodes := rfl
@[simp] theorem State.setWalker_nextArrival (s : State) (n : Nat) (c : CCore) : (s.setWalker n c).nextArrival = s.nextArrival := rfl
@[simp] theorem State.setWalker_age (s : State) (n : Nat) (c : CCore) : (s.setWalker n c).age = s.age := rfl
@[simp] theorem State.setWalker_vifsel (s : State) (n : Nat) (c : CCore) : (s.setWalker n c).vifsel = s.vifsel := rfl
@[simp] theorem State.setWalker_evq (s : State) (n : Nat) (c : CCore) : (s.setWalker n c).evq = s.evq := rfl
@[simp] theorem State.setWalker_evLost (s : State) (n : Nat) (c : CCore) : (s.setWalker n c).evLost = s.evLost := rfl
@[simp] theorem State.setWalker_errSeq (s : State) (n : Nat) (c : CCore) : (s.setWalker n c).errSeq = s.errSeq := rfl
@[simp] theorem State.setWalker_logq (s : State) (n : Nat) (c : CCore) : (s.setWalker n c).logq = s.logq := rfl
@[simp] theorem State.setWalker_healthLog (s : State) (n : Nat) (c : CCore) : (s.setWalker n c).healthLog = s.healthLog := rfl
@[simp] theorem State.setWalker_sdva (s : State) (n : Nat) (c : CCore) : (s.setWalker n c).sdva = s.sdva := rfl
@[simp] theorem State.setWalker_sdroot (s : State) (n : Nat) (c : CCore) : (s.setWalker n c).sdroot = s.sdroot := rfl
@[simp] theorem State.setWalker_sdsize (s : State) (n : Nat) (c : CCore) : (s.setWalker n c).sdsize = s.sdsize := rfl
@[simp] theorem State.setWalker_sdall (s : State) (n : Nat) (c : CCore) : (s.setWalker n c).sdall = s.sdall := rfl
@[simp] theorem State.setWalker_sdgo (s : State) (n : Nat) (c : CCore) : (s.setWalker n c).sdgo = s.sdgo := rfl
@[simp] theorem State.setWalker_sdNow (s : State) (n : Nat) (c : CCore) : (s.setWalker n c).sdNow = s.sdNow := rfl
@[simp] theorem State.setWalker_sdwait (s : State) (n : Nat) (c : CCore) : (s.setWalker n c).sdwait = s.sdwait := rfl
@[simp] theorem State.setWalker_wsel (s : State) (n : Nat) (c : CCore) : (s.setWalker n c).wsel = s.wsel := rfl
@[simp] theorem State.setWalker_potBusy (s : State) (n : Nat) (c : CCore) : (s.setWalker n c).potBusy = s.potBusy := rfl
@[simp] theorem State.setWalker_potErr (s : State) (n : Nat) (c : CCore) : (s.setWalker n c).potErr = s.potErr := rfl
@[simp] theorem State.setWalker_potDone (s : State) (n : Nat) (c : CCore) : (s.setWalker n c).potDone = s.potDone := rfl
@[simp] theorem State.setWalker_potCmd (s : State) (n : Nat) (c : CCore) : (s.setWalker n c).potCmd = s.potCmd := rfl
@[simp] theorem State.setWalker_wkWorld (s : State) (n : Nat) (c : CCore) : (s.setWalker n c).wkWorld = s.wkWorld := rfl
@[simp] theorem State.setWalker_wkBusy (s : State) (n : Nat) (c : CCore) : (s.setWalker n c).wkBusy = s.wkBusy := rfl
@[simp] theorem State.setWalker_wkGen (s : State) (n : Nat) (c : CCore) : (s.setWalker n c).wkGen = s.wkGen := rfl
@[simp] theorem State.setWalker_wkErr (s : State) (n : Nat) (c : CCore) : (s.setWalker n c).wkErr = s.wkErr := rfl
@[simp] theorem State.setWalker_wlog (s : State) (n : Nat) (c : CCore) : (s.setWalker n c).wlog = s.wlog := rfl
@[simp] theorem State.setWalker_bcsel (s : State) (n : Nat) (c : CCore) : (s.setWalker n c).bcsel = s.bcsel := rfl
@[simp] theorem State.setWalker_bounces (s : State) (n : Nat) (c : CCore) : (s.setWalker n c).bounces = s.bounces := rfl
@[simp] theorem State.setWalker_shedcap (s : State) (n : Nat) (c : CCore) : (s.setWalker n c).shedcap = s.shedcap := rfl
@[simp] theorem State.setWalker_shedord (s : State) (n : Nat) (c : CCore) : (s.setWalker n c).shedord = s.shedord := rfl
@[simp] theorem State.setWalker_watts (s : State) (n : Nat) (c : CCore) : (s.setWalker n c).watts = s.watts := rfl
@[simp] theorem State.setWalker_shedPwr (s : State) (n : Nat) (c : CCore) : (s.setWalker n c).shedPwr = s.shedPwr := rfl
@[simp] theorem State.setWalker_shed (s : State) (n : Nat) (c : CCore) : (s.setWalker n c).shed = s.shed := rfl
@[simp] theorem State.setWalker_snsel (s : State) (n : Nat) (c : CCore) : (s.setWalker n c).snsel = s.snsel := rfl
@[simp] theorem State.setWalker_snaps (s : State) (n : Nat) (c : CCore) : (s.setWalker n c).snaps = s.snaps := rfl
@[simp] theorem State.setWalker_sndrop (s : State) (n : Nat) (c : CCore) : (s.setWalker n c).sndrop = s.sndrop := rfl
@[simp] theorem State.setWalker_colls (s : State) (n : Nat) (c : CCore) : (s.setWalker n c).colls = s.colls := rfl
@[simp] theorem State.setWalker_collLimit (s : State) (n : Nat) (c : CCore) : (s.setWalker n c).collLimit = s.collLimit := rfl
@[simp] theorem State.setWalker_cmdSeq (s : State) (n : Nat) (c : CCore) : (s.setWalker n c).cmdSeq = s.cmdSeq := rfl
@[simp] theorem State.setWalker_hb (s : State) (n : Nat) (c : CCore) : (s.setWalker n c).hb = s.hb := rfl
@[simp] theorem State.setWalker_inbox (s : State) (n : Nat) (c : CCore) : (s.setWalker n c).inbox = s.inbox := rfl
@[simp] theorem State.setWalker_nextMsg (s : State) (n : Nat) (c : CCore) : (s.setWalker n c).nextMsg = s.nextMsg := rfl
@[simp] theorem State.setWalker_outbox (s : State) (n : Nat) (c : CCore) : (s.setWalker n c).outbox = s.outbox := rfl
@[simp] theorem State.setWalker_podBars (s : State) (n : Nat) (c : CCore) : (s.setWalker n c).podBars = s.podBars := rfl
@[simp] theorem State.setWalker_podSent (s : State) (n : Nat) (c : CCore) : (s.setWalker n c).podSent = s.podSent := rfl
@[simp] theorem State.setWalker_tb (s : State) (n : Nat) (c : CCore) : (s.setWalker n c).tb = s.tb := rfl
@[simp] theorem State.setWalker_tbPulse (s : State) (n : Nat) (c : CCore) : (s.setWalker n c).tbPulse = s.tbPulse := rfl
@[simp] theorem State.setWalker_pulses (s : State) (n : Nat) (c : CCore) : (s.setWalker n c).pulses = s.pulses := rfl
@[simp] theorem State.setWalker_tbwall (s : State) (n : Nat) (c : CCore) : (s.setWalker n c).tbwall = s.tbwall := rfl
@[simp] theorem State.setWalker_phase (s : State) (n : Nat) (c : CCore) : (s.setWalker n c).phase = s.phase := rfl
@[simp] theorem State.setWalker_rotsb (s : State) (n : Nat) (c : CCore) : (s.setWalker n c).rotsb = s.rotsb := rfl
@[simp] theorem State.setWalker_bootFail (s : State) (n : Nat) (c : CCore) : (s.setWalker n c).bootFail = s.bootFail := rfl
@[simp] theorem State.setWalker_warm (s : State) (n : Nat) (c : CCore) : (s.setWalker n c).warm = s.warm := rfl
@[simp] theorem State.setWalker_gated (s : State) (n : Nat) (c : CCore) : (s.setWalker n c).gated = s.gated := rfl
@[simp] theorem State.setWalker_worldDies (s : State) (n : Nat) (c : CCore) : (s.setWalker n c).worldDies = s.worldDies := rfl
@[simp] theorem State.setWalker_hbmsel (s : State) (n : Nat) (c : CCore) : (s.setWalker n c).hbmsel = s.hbmsel := rfl
@[simp] theorem State.setWalker_fwsel (s : State) (n : Nat) (c : CCore) : (s.setWalker n c).fwsel = s.fwsel := rfl
@[simp] theorem State.setWalker_ethdrop (s : State) (n : Nat) (c : CCore) : (s.setWalker n c).ethdrop = s.ethdrop := rfl
@[simp] theorem State.setWalker_pkgid (s : State) (n : Nat) (c : CCore) : (s.setWalker n c).pkgid = s.pkgid := rfl
@[simp] theorem State.setWalker_pkgStore (s : State) (n : Nat) (c : CCore) : (s.setWalker n c).pkgStore = s.pkgStore := rfl
@[simp] theorem State.setWalker_pkgNow (s : State) (n : Nat) (c : CCore) : (s.setWalker n c).pkgNow = s.pkgNow := rfl
@[simp] theorem State.setWalker_cfgNext (s : State) (n : Nat) (c : CCore) : (s.setWalker n c).cfgNext = s.cfgNext := rfl
@[simp] theorem State.setWalker_cfgNow (s : State) (n : Nat) (c : CCore) : (s.setWalker n c).cfgNow = s.cfgNow := rfl
@[simp] theorem State.setWalker_draws (s : State) (n : Nat) (c : CCore) : (s.setWalker n c).draws = s.draws := rfl
@[simp] theorem State.setWalker_retrains (s : State) (n : Nat) (c : CCore) : (s.setWalker n c).retrains = s.retrains := rfl

/-! ## Tile.setEng -/
@[simp] theorem Tile.setEng_g (x : Tile) (e : Nat) (g : Eng) : (x.setEng e g).g = x.g := rfl
@[simp] theorem Tile.setEng_sw (x : Tile) (e : Nat) (g : Eng) : (x.setEng e g).sw = x.sw := rfl
@[simp] theorem Tile.setEng_loops (x : Tile) (e : Nat) (g : Eng) : (x.setEng e g).loops = x.loops := rfl
@[simp] theorem Tile.setEng_hflag (x : Tile) (e : Nat) (g : Eng) : (x.setEng e g).hflag = x.hflag := rfl
@[simp] theorem Tile.setEng_v (x : Tile) (e : Nat) (g : Eng) : (x.setEng e g).v = x.v := rfl
@[simp] theorem Tile.setEng_k (x : Tile) (e : Nat) (g : Eng) : (x.setEng e g).k = x.k := rfl
@[simp] theorem Tile.setEng_q (x : Tile) (e : Nat) (g : Eng) : (x.setEng e g).q = x.q := rfl
@[simp] theorem Tile.setEng_srseed (x : Tile) (e : Nat) (g : Eng) : (x.setEng e g).srseed = x.srseed := rfl
@[simp] theorem Tile.setEng_bfxV (x : Tile) (e : Nat) (g : Eng) : (x.setEng e g).bfxV = x.bfxV := rfl
@[simp] theorem Tile.setEng_bfxS (x : Tile) (e : Nat) (g : Eng) : (x.setEng e g).bfxS = x.bfxS := rfl
@[simp] theorem Tile.setEng_slotTy (x : Tile) (e : Nat) (g : Eng) : (x.setEng e g).slotTy = x.slotTy := rfl
@[simp] theorem Tile.setEng_fstepV (x : Tile) (e : Nat) (g : Eng) : (x.setEng e g).fstepV = x.fstepV := rfl
@[simp] theorem Tile.setEng_rct (x : Tile) (e : Nat) (g : Eng) : (x.setEng e g).rct = x.rct := rfl
@[simp] theorem Tile.setEng_f (x : Tile) (e : Nat) (g : Eng) : (x.setEng e g).f = x.f := rfl
@[simp] theorem Tile.setEng_nlv (x : Tile) (e : Nat) (g : Eng) : (x.setEng e g).nlv = x.nlv := rfl
@[simp] theorem Tile.setEng_nlvA (x : Tile) (e : Nat) (g : Eng) : (x.setEng e g).nlvA = x.nlvA := rfl
@[simp] theorem Tile.setEng_att (x : Tile) (e : Nat) (g : Eng) : (x.setEng e g).att = x.att := rfl
@[simp] theorem Tile.setEng_opmem (x : Tile) (e : Nat) (g : Eng) : (x.setEng e g).opmem = x.opmem := rfl
@[simp] theorem Tile.setEng_claim (x : Tile) (e : Nat) (g : Eng) : (x.setEng e g).claim = x.claim := rfl
@[simp] theorem Tile.setEng_filling (x : Tile) (e : Nat) (g : Eng) : (x.setEng e g).filling = x.filling := rfl
@[simp] theorem Tile.setEng_acc (x : Tile) (e : Nat) (g : Eng) : (x.setEng e g).acc = x.acc := rfl
@[simp] theorem Tile.setEng_sh0 (x : Tile) (e : Nat) (g : Eng) : (x.setEng e g).sh0 = x.sh0 := rfl
@[simp] theorem Tile.setEng_sh1 (x : Tile) (e : Nat) (g : Eng) : (x.setEng e g).sh1 = x.sh1 := rfl
@[simp] theorem Tile.setEng_fstepM (x : Tile) (e : Nat) (g : Eng) : (x.setEng e g).fstepM = x.fstepM := rfl
@[simp] theorem Tile.setEng_lastMma (x : Tile) (e : Nat) (g : Eng) : (x.setEng e g).lastMma = x.lastMma := rfl
@[simp] theorem Tile.setEng_qM (x : Tile) (e : Nat) (g : Eng) : (x.setEng e g).qM = x.qM := rfl
@[simp] theorem Tile.setEng_seedM (x : Tile) (e : Nat) (g : Eng) : (x.setEng e g).seedM = x.seedM := rfl
@[simp] theorem Tile.setEng_bfxM (x : Tile) (e : Nat) (g : Eng) : (x.setEng e g).bfxM = x.bfxM := rfl
@[simp] theorem Tile.setEng_slotTyM (x : Tile) (e : Nat) (g : Eng) : (x.setEng e g).slotTyM = x.slotTyM := rfl
@[simp] theorem Tile.setEng_rctV (x : Tile) (e : Nat) (g : Eng) : (x.setEng e g).rctV = x.rctV := rfl
@[simp] theorem Tile.setEng_sram (x : Tile) (e : Nat) (g : Eng) : (x.setEng e g).sram = x.sram := rfl
@[simp] theorem Tile.setEng_store (x : Tile) (e : Nat) (g : Eng) : (x.setEng e g).store = x.store := rfl
@[simp] theorem Tile.setEng_bufs (x : Tile) (e : Nat) (g : Eng) : (x.setEng e g).bufs = x.bufs := rfl
@[simp] theorem Tile.setEng_dirty (x : Tile) (e : Nat) (g : Eng) : (x.setEng e g).dirty = x.dirty := rfl
@[simp] theorem Tile.setEng_ecc (x : Tile) (e : Nat) (g : Eng) : (x.setEng e g).ecc = x.ecc := rfl
@[simp] theorem Tile.setEng_atC (x : Tile) (e : Nat) (g : Eng) : (x.setEng e g).atC = x.atC := rfl
@[simp] theorem Tile.setEng_tokens (x : Tile) (e : Nat) (g : Eng) : (x.setEng e g).tokens = x.tokens := rfl
@[simp] theorem Tile.setEng_seg (x : Tile) (e : Nat) (g : Eng) : (x.setEng e g).seg = x.seg := rfl
@[simp] theorem Tile.setEng_segcyc (x : Tile) (e : Nat) (g : Eng) : (x.setEng e g).segcyc = x.segcyc := rfl
@[simp] theorem Tile.setEng_frmorg (x : Tile) (e : Nat) (g : Eng) : (x.setEng e g).frmorg = x.frmorg := rfl
@[simp] theorem Tile.setEng_rended (x : Tile) (e : Nat) (g : Eng) : (x.setEng e g).rended = x.rended := rfl
@[simp] theorem Tile.setEng_fence (x : Tile) (e : Nat) (g : Eng) : (x.setEng e g).fence = x.fence := rfl
@[simp] theorem Tile.setEng_quiet (x : Tile) (e : Nat) (g : Eng) : (x.setEng e g).quiet = x.quiet := rfl
@[simp] theorem Tile.setEng_stopped (x : Tile) (e : Nat) (g : Eng) : (x.setEng e g).stopped = x.stopped := rfl
@[simp] theorem Tile.setEng_estopped (x : Tile) (e : Nat) (g : Eng) : (x.setEng e g).estopped = x.estopped := rfl
@[simp] theorem Tile.setEng_lastPre (x : Tile) (e : Nat) (g : Eng) : (x.setEng e g).lastPre = x.lastPre := rfl
@[simp] theorem Tile.setEng_bgate (x : Tile) (e : Nat) (g : Eng) : (x.setEng e g).bgate = x.bgate := rfl
@[simp] theorem Tile.setEng_podDue (x : Tile) (e : Nat) (g : Eng) : (x.setEng e g).podDue = x.podDue := rfl
@[simp] theorem Tile.setEng_inFreeze (x : Tile) (e : Nat) (g : Eng) : (x.setEng e g).inFreeze = x.inFreeze := rfl
@[simp] theorem Tile.setEng_hreplay (x : Tile) (e : Nat) (g : Eng) : (x.setEng e g).hreplay = x.hreplay := rfl
@[simp] theorem Tile.setEng_sqLate (x : Tile) (e : Nat) (g : Eng) : (x.setEng e g).sqLate = x.sqLate := rfl
@[simp] theorem Tile.setEng_entry (x : Tile) (e : Nat) (g : Eng) : (x.setEng e g).entry = x.entry := rfl
@[simp] theorem Tile.setEng_sb (x : Tile) (e : Nat) (g : Eng) : (x.setEng e g).sb = x.sb := rfl
@[simp] theorem Tile.setEng_hsb (x : Tile) (e : Nat) (g : Eng) : (x.setEng e g).hsb = x.hsb := rfl
@[simp] theorem Tile.setEng_hnext (x : Tile) (e : Nat) (g : Eng) : (x.setEng e g).hnext = x.hnext := rfl
@[simp] theorem Tile.setEng_flights (x : Tile) (e : Nat) (g : Eng) : (x.setEng e g).flights = x.flights := rfl
@[simp] theorem Tile.setEng_effs (x : Tile) (e : Nat) (g : Eng) : (x.setEng e g).effs = x.effs := rfl
@[simp] theorem Tile.setEng_cmds (x : Tile) (e : Nat) (g : Eng) : (x.setEng e g).cmds = x.cmds := rfl
@[simp] theorem Tile.setEng_nextId (x : Tile) (e : Nat) (g : Eng) : (x.setEng e g).nextId = x.nextId := rfl
@[simp] theorem Tile.setEng_cache (x : Tile) (e : Nat) (g : Eng) : (x.setEng e g).cache = x.cache := rfl
@[simp] theorem Tile.setEng_fetchCI (x : Tile) (e : Nat) (g : Eng) : (x.setEng e g).fetchCI = x.fetchCI := rfl
@[simp] theorem Tile.setEng_fetchCO (x : Tile) (e : Nat) (g : Eng) : (x.setEng e g).fetchCO = x.fetchCO := rfl
@[simp] theorem Tile.setEng_hold (x : Tile) (e : Nat) (g : Eng) : (x.setEng e g).hold = x.hold := rfl
@[simp] theorem Tile.setEng_nxseq (x : Tile) (e : Nat) (g : Eng) : (x.setEng e g).nxseq = x.nxseq := rfl
@[simp] theorem Tile.setEng_tcause (x : Tile) (e : Nat) (g : Eng) : (x.setEng e g).tcause = x.tcause := rfl
@[simp] theorem Tile.setEng_tstep (x : Tile) (e : Nat) (g : Eng) : (x.setEng e g).tstep = x.tstep := rfl
@[simp] theorem Tile.setEng_topd0 (x : Tile) (e : Nat) (g : Eng) : (x.setEng e g).topd0 = x.topd0 := rfl
@[simp] theorem Tile.setEng_topd1 (x : Tile) (e : Nat) (g : Eng) : (x.setEng e g).topd1 = x.topd1 := rfl
@[simp] theorem Tile.setEng_tret (x : Tile) (e : Nat) (g : Eng) : (x.setEng e g).tret = x.tret := rfl
@[simp] theorem Tile.setEng_trapNow (x : Tile) (e : Nat) (g : Eng) : (x.setEng e g).trapNow = x.trapNow := rfl
@[simp] theorem Tile.setEng_again (x : Tile) (e : Nat) (g : Eng) : (x.setEng e g).again = x.again := rfl
@[simp] theorem Tile.setEng_clk (x : Tile) (e : Nat) (g : Eng) : (x.setEng e g).clk = x.clk := rfl
@[simp] theorem Tile.setEng_scrub (x : Tile) (e : Nat) (g : Eng) : (x.setEng e g).scrub = x.scrub := rfl

/-! ## Tile.busy -/
@[simp] theorem Tile.busy_g (x : Tile) (k u : Nat) : (x.busy k u).g = x.g := rfl
@[simp] theorem Tile.busy_sw (x : Tile) (k u : Nat) : (x.busy k u).sw = x.sw := rfl
@[simp] theorem Tile.busy_loops (x : Tile) (k u : Nat) : (x.busy k u).loops = x.loops := rfl
@[simp] theorem Tile.busy_hflag (x : Tile) (k u : Nat) : (x.busy k u).hflag = x.hflag := rfl
@[simp] theorem Tile.busy_v (x : Tile) (k u : Nat) : (x.busy k u).v = x.v := rfl
@[simp] theorem Tile.busy_k (x : Tile) (k u : Nat) : (x.busy k u).k = x.k := rfl
@[simp] theorem Tile.busy_q (x : Tile) (k u : Nat) : (x.busy k u).q = x.q := rfl
@[simp] theorem Tile.busy_srseed (x : Tile) (k u : Nat) : (x.busy k u).srseed = x.srseed := rfl
@[simp] theorem Tile.busy_bfxV (x : Tile) (k u : Nat) : (x.busy k u).bfxV = x.bfxV := rfl
@[simp] theorem Tile.busy_bfxS (x : Tile) (k u : Nat) : (x.busy k u).bfxS = x.bfxS := rfl
@[simp] theorem Tile.busy_slotTy (x : Tile) (k u : Nat) : (x.busy k u).slotTy = x.slotTy := rfl
@[simp] theorem Tile.busy_fstepV (x : Tile) (k u : Nat) : (x.busy k u).fstepV = x.fstepV := rfl
@[simp] theorem Tile.busy_rct (x : Tile) (k u : Nat) : (x.busy k u).rct = x.rct := rfl
@[simp] theorem Tile.busy_f (x : Tile) (k u : Nat) : (x.busy k u).f = x.f := rfl
@[simp] theorem Tile.busy_nlv (x : Tile) (k u : Nat) : (x.busy k u).nlv = x.nlv := rfl
@[simp] theorem Tile.busy_nlvA (x : Tile) (k u : Nat) : (x.busy k u).nlvA = x.nlvA := rfl
@[simp] theorem Tile.busy_att (x : Tile) (k u : Nat) : (x.busy k u).att = x.att := rfl
@[simp] theorem Tile.busy_opmem (x : Tile) (k u : Nat) : (x.busy k u).opmem = x.opmem := rfl
@[simp] theorem Tile.busy_claim (x : Tile) (k u : Nat) : (x.busy k u).claim = x.claim := rfl
@[simp] theorem Tile.busy_filling (x : Tile) (k u : Nat) : (x.busy k u).filling = x.filling := rfl
@[simp] theorem Tile.busy_acc (x : Tile) (k u : Nat) : (x.busy k u).acc = x.acc := rfl
@[simp] theorem Tile.busy_sh0 (x : Tile) (k u : Nat) : (x.busy k u).sh0 = x.sh0 := rfl
@[simp] theorem Tile.busy_sh1 (x : Tile) (k u : Nat) : (x.busy k u).sh1 = x.sh1 := rfl
@[simp] theorem Tile.busy_fstepM (x : Tile) (k u : Nat) : (x.busy k u).fstepM = x.fstepM := rfl
@[simp] theorem Tile.busy_lastMma (x : Tile) (k u : Nat) : (x.busy k u).lastMma = x.lastMma := rfl
@[simp] theorem Tile.busy_qM (x : Tile) (k u : Nat) : (x.busy k u).qM = x.qM := rfl
@[simp] theorem Tile.busy_seedM (x : Tile) (k u : Nat) : (x.busy k u).seedM = x.seedM := rfl
@[simp] theorem Tile.busy_bfxM (x : Tile) (k u : Nat) : (x.busy k u).bfxM = x.bfxM := rfl
@[simp] theorem Tile.busy_slotTyM (x : Tile) (k u : Nat) : (x.busy k u).slotTyM = x.slotTyM := rfl
@[simp] theorem Tile.busy_rctV (x : Tile) (k u : Nat) : (x.busy k u).rctV = x.rctV := rfl
@[simp] theorem Tile.busy_sram (x : Tile) (k u : Nat) : (x.busy k u).sram = x.sram := rfl
@[simp] theorem Tile.busy_store (x : Tile) (k u : Nat) : (x.busy k u).store = x.store := rfl
@[simp] theorem Tile.busy_bufs (x : Tile) (k u : Nat) : (x.busy k u).bufs = x.bufs := rfl
@[simp] theorem Tile.busy_dirty (x : Tile) (k u : Nat) : (x.busy k u).dirty = x.dirty := rfl
@[simp] theorem Tile.busy_ecc (x : Tile) (k u : Nat) : (x.busy k u).ecc = x.ecc := rfl
@[simp] theorem Tile.busy_atC (x : Tile) (k u : Nat) : (x.busy k u).atC = x.atC := rfl
@[simp] theorem Tile.busy_engs (x : Tile) (k u : Nat) : (x.busy k u).engs = x.engs := rfl
@[simp] theorem Tile.busy_tokens (x : Tile) (k u : Nat) : (x.busy k u).tokens = x.tokens := rfl
@[simp] theorem Tile.busy_seg (x : Tile) (k u : Nat) : (x.busy k u).seg = x.seg := rfl
@[simp] theorem Tile.busy_segcyc (x : Tile) (k u : Nat) : (x.busy k u).segcyc = x.segcyc := rfl
@[simp] theorem Tile.busy_frmorg (x : Tile) (k u : Nat) : (x.busy k u).frmorg = x.frmorg := rfl
@[simp] theorem Tile.busy_rended (x : Tile) (k u : Nat) : (x.busy k u).rended = x.rended := rfl
@[simp] theorem Tile.busy_fence (x : Tile) (k u : Nat) : (x.busy k u).fence = x.fence := rfl
@[simp] theorem Tile.busy_quiet (x : Tile) (k u : Nat) : (x.busy k u).quiet = x.quiet := rfl
@[simp] theorem Tile.busy_stopped (x : Tile) (k u : Nat) : (x.busy k u).stopped = x.stopped := rfl
@[simp] theorem Tile.busy_estopped (x : Tile) (k u : Nat) : (x.busy k u).estopped = x.estopped := rfl
@[simp] theorem Tile.busy_lastPre (x : Tile) (k u : Nat) : (x.busy k u).lastPre = x.lastPre := rfl
@[simp] theorem Tile.busy_bgate (x : Tile) (k u : Nat) : (x.busy k u).bgate = x.bgate := rfl
@[simp] theorem Tile.busy_podDue (x : Tile) (k u : Nat) : (x.busy k u).podDue = x.podDue := rfl
@[simp] theorem Tile.busy_inFreeze (x : Tile) (k u : Nat) : (x.busy k u).inFreeze = x.inFreeze := rfl
@[simp] theorem Tile.busy_hreplay (x : Tile) (k u : Nat) : (x.busy k u).hreplay = x.hreplay := rfl
@[simp] theorem Tile.busy_sqLate (x : Tile) (k u : Nat) : (x.busy k u).sqLate = x.sqLate := rfl
@[simp] theorem Tile.busy_entry (x : Tile) (k u : Nat) : (x.busy k u).entry = x.entry := rfl
@[simp] theorem Tile.busy_hsb (x : Tile) (k u : Nat) : (x.busy k u).hsb = x.hsb := rfl
@[simp] theorem Tile.busy_hnext (x : Tile) (k u : Nat) : (x.busy k u).hnext = x.hnext := rfl
@[simp] theorem Tile.busy_flights (x : Tile) (k u : Nat) : (x.busy k u).flights = x.flights := rfl
@[simp] theorem Tile.busy_effs (x : Tile) (k u : Nat) : (x.busy k u).effs = x.effs := rfl
@[simp] theorem Tile.busy_cmds (x : Tile) (k u : Nat) : (x.busy k u).cmds = x.cmds := rfl
@[simp] theorem Tile.busy_nextId (x : Tile) (k u : Nat) : (x.busy k u).nextId = x.nextId := rfl
@[simp] theorem Tile.busy_cache (x : Tile) (k u : Nat) : (x.busy k u).cache = x.cache := rfl
@[simp] theorem Tile.busy_fetchCI (x : Tile) (k u : Nat) : (x.busy k u).fetchCI = x.fetchCI := rfl
@[simp] theorem Tile.busy_fetchCO (x : Tile) (k u : Nat) : (x.busy k u).fetchCO = x.fetchCO := rfl
@[simp] theorem Tile.busy_hold (x : Tile) (k u : Nat) : (x.busy k u).hold = x.hold := rfl
@[simp] theorem Tile.busy_nxseq (x : Tile) (k u : Nat) : (x.busy k u).nxseq = x.nxseq := rfl
@[simp] theorem Tile.busy_tcause (x : Tile) (k u : Nat) : (x.busy k u).tcause = x.tcause := rfl
@[simp] theorem Tile.busy_tstep (x : Tile) (k u : Nat) : (x.busy k u).tstep = x.tstep := rfl
@[simp] theorem Tile.busy_topd0 (x : Tile) (k u : Nat) : (x.busy k u).topd0 = x.topd0 := rfl
@[simp] theorem Tile.busy_topd1 (x : Tile) (k u : Nat) : (x.busy k u).topd1 = x.topd1 := rfl
@[simp] theorem Tile.busy_tret (x : Tile) (k u : Nat) : (x.busy k u).tret = x.tret := rfl
@[simp] theorem Tile.busy_trapNow (x : Tile) (k u : Nat) : (x.busy k u).trapNow = x.trapNow := rfl
@[simp] theorem Tile.busy_again (x : Tile) (k u : Nat) : (x.busy k u).again = x.again := rfl
@[simp] theorem Tile.busy_clk (x : Tile) (k u : Nat) : (x.busy k u).clk = x.clk := rfl
@[simp] theorem Tile.busy_scrub (x : Tile) (k u : Nat) : (x.busy k u).scrub = x.scrub := rfl

/-! ## Tile.setBuf -/
@[simp] theorem Tile.setBuf_g (x : Tile) (b : Nat) (q : Buf) : (x.setBuf b q).g = x.g := rfl
@[simp] theorem Tile.setBuf_sw (x : Tile) (b : Nat) (q : Buf) : (x.setBuf b q).sw = x.sw := rfl
@[simp] theorem Tile.setBuf_loops (x : Tile) (b : Nat) (q : Buf) : (x.setBuf b q).loops = x.loops := rfl
@[simp] theorem Tile.setBuf_hflag (x : Tile) (b : Nat) (q : Buf) : (x.setBuf b q).hflag = x.hflag := rfl
@[simp] theorem Tile.setBuf_v (x : Tile) (b : Nat) (q : Buf) : (x.setBuf b q).v = x.v := rfl
@[simp] theorem Tile.setBuf_k (x : Tile) (b : Nat) (q : Buf) : (x.setBuf b q).k = x.k := rfl
@[simp] theorem Tile.setBuf_q (x : Tile) (b : Nat) (q : Buf) : (x.setBuf b q).q = x.q := rfl
@[simp] theorem Tile.setBuf_srseed (x : Tile) (b : Nat) (q : Buf) : (x.setBuf b q).srseed = x.srseed := rfl
@[simp] theorem Tile.setBuf_bfxV (x : Tile) (b : Nat) (q : Buf) : (x.setBuf b q).bfxV = x.bfxV := rfl
@[simp] theorem Tile.setBuf_bfxS (x : Tile) (b : Nat) (q : Buf) : (x.setBuf b q).bfxS = x.bfxS := rfl
@[simp] theorem Tile.setBuf_slotTy (x : Tile) (b : Nat) (q : Buf) : (x.setBuf b q).slotTy = x.slotTy := rfl
@[simp] theorem Tile.setBuf_fstepV (x : Tile) (b : Nat) (q : Buf) : (x.setBuf b q).fstepV = x.fstepV := rfl
@[simp] theorem Tile.setBuf_rct (x : Tile) (b : Nat) (q : Buf) : (x.setBuf b q).rct = x.rct := rfl
@[simp] theorem Tile.setBuf_f (x : Tile) (b : Nat) (q : Buf) : (x.setBuf b q).f = x.f := rfl
@[simp] theorem Tile.setBuf_nlv (x : Tile) (b : Nat) (q : Buf) : (x.setBuf b q).nlv = x.nlv := rfl
@[simp] theorem Tile.setBuf_nlvA (x : Tile) (b : Nat) (q : Buf) : (x.setBuf b q).nlvA = x.nlvA := rfl
@[simp] theorem Tile.setBuf_att (x : Tile) (b : Nat) (q : Buf) : (x.setBuf b q).att = x.att := rfl
@[simp] theorem Tile.setBuf_opmem (x : Tile) (b : Nat) (q : Buf) : (x.setBuf b q).opmem = x.opmem := rfl
@[simp] theorem Tile.setBuf_claim (x : Tile) (b : Nat) (q : Buf) : (x.setBuf b q).claim = x.claim := rfl
@[simp] theorem Tile.setBuf_filling (x : Tile) (b : Nat) (q : Buf) : (x.setBuf b q).filling = x.filling := rfl
@[simp] theorem Tile.setBuf_acc (x : Tile) (b : Nat) (q : Buf) : (x.setBuf b q).acc = x.acc := rfl
@[simp] theorem Tile.setBuf_sh0 (x : Tile) (b : Nat) (q : Buf) : (x.setBuf b q).sh0 = x.sh0 := rfl
@[simp] theorem Tile.setBuf_sh1 (x : Tile) (b : Nat) (q : Buf) : (x.setBuf b q).sh1 = x.sh1 := rfl
@[simp] theorem Tile.setBuf_fstepM (x : Tile) (b : Nat) (q : Buf) : (x.setBuf b q).fstepM = x.fstepM := rfl
@[simp] theorem Tile.setBuf_lastMma (x : Tile) (b : Nat) (q : Buf) : (x.setBuf b q).lastMma = x.lastMma := rfl
@[simp] theorem Tile.setBuf_qM (x : Tile) (b : Nat) (q : Buf) : (x.setBuf b q).qM = x.qM := rfl
@[simp] theorem Tile.setBuf_seedM (x : Tile) (b : Nat) (q : Buf) : (x.setBuf b q).seedM = x.seedM := rfl
@[simp] theorem Tile.setBuf_bfxM (x : Tile) (b : Nat) (q : Buf) : (x.setBuf b q).bfxM = x.bfxM := rfl
@[simp] theorem Tile.setBuf_slotTyM (x : Tile) (b : Nat) (q : Buf) : (x.setBuf b q).slotTyM = x.slotTyM := rfl
@[simp] theorem Tile.setBuf_rctV (x : Tile) (b : Nat) (q : Buf) : (x.setBuf b q).rctV = x.rctV := rfl
@[simp] theorem Tile.setBuf_sram (x : Tile) (b : Nat) (q : Buf) : (x.setBuf b q).sram = x.sram := rfl
@[simp] theorem Tile.setBuf_store (x : Tile) (b : Nat) (q : Buf) : (x.setBuf b q).store = x.store := rfl
@[simp] theorem Tile.setBuf_dirty (x : Tile) (b : Nat) (q : Buf) : (x.setBuf b q).dirty = x.dirty := rfl
@[simp] theorem Tile.setBuf_ecc (x : Tile) (b : Nat) (q : Buf) : (x.setBuf b q).ecc = x.ecc := rfl
@[simp] theorem Tile.setBuf_atC (x : Tile) (b : Nat) (q : Buf) : (x.setBuf b q).atC = x.atC := rfl
@[simp] theorem Tile.setBuf_engs (x : Tile) (b : Nat) (q : Buf) : (x.setBuf b q).engs = x.engs := rfl
@[simp] theorem Tile.setBuf_tokens (x : Tile) (b : Nat) (q : Buf) : (x.setBuf b q).tokens = x.tokens := rfl
@[simp] theorem Tile.setBuf_seg (x : Tile) (b : Nat) (q : Buf) : (x.setBuf b q).seg = x.seg := rfl
@[simp] theorem Tile.setBuf_segcyc (x : Tile) (b : Nat) (q : Buf) : (x.setBuf b q).segcyc = x.segcyc := rfl
@[simp] theorem Tile.setBuf_frmorg (x : Tile) (b : Nat) (q : Buf) : (x.setBuf b q).frmorg = x.frmorg := rfl
@[simp] theorem Tile.setBuf_rended (x : Tile) (b : Nat) (q : Buf) : (x.setBuf b q).rended = x.rended := rfl
@[simp] theorem Tile.setBuf_fence (x : Tile) (b : Nat) (q : Buf) : (x.setBuf b q).fence = x.fence := rfl
@[simp] theorem Tile.setBuf_quiet (x : Tile) (b : Nat) (q : Buf) : (x.setBuf b q).quiet = x.quiet := rfl
@[simp] theorem Tile.setBuf_stopped (x : Tile) (b : Nat) (q : Buf) : (x.setBuf b q).stopped = x.stopped := rfl
@[simp] theorem Tile.setBuf_estopped (x : Tile) (b : Nat) (q : Buf) : (x.setBuf b q).estopped = x.estopped := rfl
@[simp] theorem Tile.setBuf_lastPre (x : Tile) (b : Nat) (q : Buf) : (x.setBuf b q).lastPre = x.lastPre := rfl
@[simp] theorem Tile.setBuf_bgate (x : Tile) (b : Nat) (q : Buf) : (x.setBuf b q).bgate = x.bgate := rfl
@[simp] theorem Tile.setBuf_podDue (x : Tile) (b : Nat) (q : Buf) : (x.setBuf b q).podDue = x.podDue := rfl
@[simp] theorem Tile.setBuf_inFreeze (x : Tile) (b : Nat) (q : Buf) : (x.setBuf b q).inFreeze = x.inFreeze := rfl
@[simp] theorem Tile.setBuf_hreplay (x : Tile) (b : Nat) (q : Buf) : (x.setBuf b q).hreplay = x.hreplay := rfl
@[simp] theorem Tile.setBuf_sqLate (x : Tile) (b : Nat) (q : Buf) : (x.setBuf b q).sqLate = x.sqLate := rfl
@[simp] theorem Tile.setBuf_entry (x : Tile) (b : Nat) (q : Buf) : (x.setBuf b q).entry = x.entry := rfl
@[simp] theorem Tile.setBuf_sb (x : Tile) (b : Nat) (q : Buf) : (x.setBuf b q).sb = x.sb := rfl
@[simp] theorem Tile.setBuf_hsb (x : Tile) (b : Nat) (q : Buf) : (x.setBuf b q).hsb = x.hsb := rfl
@[simp] theorem Tile.setBuf_hnext (x : Tile) (b : Nat) (q : Buf) : (x.setBuf b q).hnext = x.hnext := rfl
@[simp] theorem Tile.setBuf_flights (x : Tile) (b : Nat) (q : Buf) : (x.setBuf b q).flights = x.flights := rfl
@[simp] theorem Tile.setBuf_effs (x : Tile) (b : Nat) (q : Buf) : (x.setBuf b q).effs = x.effs := rfl
@[simp] theorem Tile.setBuf_cmds (x : Tile) (b : Nat) (q : Buf) : (x.setBuf b q).cmds = x.cmds := rfl
@[simp] theorem Tile.setBuf_nextId (x : Tile) (b : Nat) (q : Buf) : (x.setBuf b q).nextId = x.nextId := rfl
@[simp] theorem Tile.setBuf_cache (x : Tile) (b : Nat) (q : Buf) : (x.setBuf b q).cache = x.cache := rfl
@[simp] theorem Tile.setBuf_fetchCI (x : Tile) (b : Nat) (q : Buf) : (x.setBuf b q).fetchCI = x.fetchCI := rfl
@[simp] theorem Tile.setBuf_fetchCO (x : Tile) (b : Nat) (q : Buf) : (x.setBuf b q).fetchCO = x.fetchCO := rfl
@[simp] theorem Tile.setBuf_hold (x : Tile) (b : Nat) (q : Buf) : (x.setBuf b q).hold = x.hold := rfl
@[simp] theorem Tile.setBuf_nxseq (x : Tile) (b : Nat) (q : Buf) : (x.setBuf b q).nxseq = x.nxseq := rfl
@[simp] theorem Tile.setBuf_tcause (x : Tile) (b : Nat) (q : Buf) : (x.setBuf b q).tcause = x.tcause := rfl
@[simp] theorem Tile.setBuf_tstep (x : Tile) (b : Nat) (q : Buf) : (x.setBuf b q).tstep = x.tstep := rfl
@[simp] theorem Tile.setBuf_topd0 (x : Tile) (b : Nat) (q : Buf) : (x.setBuf b q).topd0 = x.topd0 := rfl
@[simp] theorem Tile.setBuf_topd1 (x : Tile) (b : Nat) (q : Buf) : (x.setBuf b q).topd1 = x.topd1 := rfl
@[simp] theorem Tile.setBuf_tret (x : Tile) (b : Nat) (q : Buf) : (x.setBuf b q).tret = x.tret := rfl
@[simp] theorem Tile.setBuf_trapNow (x : Tile) (b : Nat) (q : Buf) : (x.setBuf b q).trapNow = x.trapNow := rfl
@[simp] theorem Tile.setBuf_again (x : Tile) (b : Nat) (q : Buf) : (x.setBuf b q).again = x.again := rfl
@[simp] theorem Tile.setBuf_clk (x : Tile) (b : Nat) (q : Buf) : (x.setBuf b q).clk = x.clk := rfl
@[simp] theorem Tile.setBuf_scrub (x : Tile) (b : Nat) (q : Buf) : (x.setBuf b q).scrub = x.scrub := rfl

/-! ## Tile.addFlight -/
@[simp] theorem Tile.addFlight_g (x : Tile) (f : Flight) : (x.addFlight f).g = x.g := rfl
@[simp] theorem Tile.addFlight_sw (x : Tile) (f : Flight) : (x.addFlight f).sw = x.sw := rfl
@[simp] theorem Tile.addFlight_loops (x : Tile) (f : Flight) : (x.addFlight f).loops = x.loops := rfl
@[simp] theorem Tile.addFlight_hflag (x : Tile) (f : Flight) : (x.addFlight f).hflag = x.hflag := rfl
@[simp] theorem Tile.addFlight_v (x : Tile) (f : Flight) : (x.addFlight f).v = x.v := rfl
@[simp] theorem Tile.addFlight_k (x : Tile) (f : Flight) : (x.addFlight f).k = x.k := rfl
@[simp] theorem Tile.addFlight_q (x : Tile) (f : Flight) : (x.addFlight f).q = x.q := rfl
@[simp] theorem Tile.addFlight_srseed (x : Tile) (f : Flight) : (x.addFlight f).srseed = x.srseed := rfl
@[simp] theorem Tile.addFlight_bfxV (x : Tile) (f : Flight) : (x.addFlight f).bfxV = x.bfxV := rfl
@[simp] theorem Tile.addFlight_bfxS (x : Tile) (f : Flight) : (x.addFlight f).bfxS = x.bfxS := rfl
@[simp] theorem Tile.addFlight_slotTy (x : Tile) (f : Flight) : (x.addFlight f).slotTy = x.slotTy := rfl
@[simp] theorem Tile.addFlight_fstepV (x : Tile) (f : Flight) : (x.addFlight f).fstepV = x.fstepV := rfl
@[simp] theorem Tile.addFlight_rct (x : Tile) (f : Flight) : (x.addFlight f).rct = x.rct := rfl
@[simp] theorem Tile.addFlight_f (x : Tile) (f : Flight) : (x.addFlight f).f = x.f := rfl
@[simp] theorem Tile.addFlight_nlv (x : Tile) (f : Flight) : (x.addFlight f).nlv = x.nlv := rfl
@[simp] theorem Tile.addFlight_nlvA (x : Tile) (f : Flight) : (x.addFlight f).nlvA = x.nlvA := rfl
@[simp] theorem Tile.addFlight_att (x : Tile) (f : Flight) : (x.addFlight f).att = x.att := rfl
@[simp] theorem Tile.addFlight_opmem (x : Tile) (f : Flight) : (x.addFlight f).opmem = x.opmem := rfl
@[simp] theorem Tile.addFlight_claim (x : Tile) (f : Flight) : (x.addFlight f).claim = x.claim := rfl
@[simp] theorem Tile.addFlight_filling (x : Tile) (f : Flight) : (x.addFlight f).filling = x.filling := rfl
@[simp] theorem Tile.addFlight_acc (x : Tile) (f : Flight) : (x.addFlight f).acc = x.acc := rfl
@[simp] theorem Tile.addFlight_sh0 (x : Tile) (f : Flight) : (x.addFlight f).sh0 = x.sh0 := rfl
@[simp] theorem Tile.addFlight_sh1 (x : Tile) (f : Flight) : (x.addFlight f).sh1 = x.sh1 := rfl
@[simp] theorem Tile.addFlight_fstepM (x : Tile) (f : Flight) : (x.addFlight f).fstepM = x.fstepM := rfl
@[simp] theorem Tile.addFlight_lastMma (x : Tile) (f : Flight) : (x.addFlight f).lastMma = x.lastMma := rfl
@[simp] theorem Tile.addFlight_qM (x : Tile) (f : Flight) : (x.addFlight f).qM = x.qM := rfl
@[simp] theorem Tile.addFlight_seedM (x : Tile) (f : Flight) : (x.addFlight f).seedM = x.seedM := rfl
@[simp] theorem Tile.addFlight_bfxM (x : Tile) (f : Flight) : (x.addFlight f).bfxM = x.bfxM := rfl
@[simp] theorem Tile.addFlight_slotTyM (x : Tile) (f : Flight) : (x.addFlight f).slotTyM = x.slotTyM := rfl
@[simp] theorem Tile.addFlight_rctV (x : Tile) (f : Flight) : (x.addFlight f).rctV = x.rctV := rfl
@[simp] theorem Tile.addFlight_sram (x : Tile) (f : Flight) : (x.addFlight f).sram = x.sram := rfl
@[simp] theorem Tile.addFlight_store (x : Tile) (f : Flight) : (x.addFlight f).store = x.store := rfl
@[simp] theorem Tile.addFlight_bufs (x : Tile) (f : Flight) : (x.addFlight f).bufs = x.bufs := rfl
@[simp] theorem Tile.addFlight_dirty (x : Tile) (f : Flight) : (x.addFlight f).dirty = x.dirty := rfl
@[simp] theorem Tile.addFlight_ecc (x : Tile) (f : Flight) : (x.addFlight f).ecc = x.ecc := rfl
@[simp] theorem Tile.addFlight_atC (x : Tile) (f : Flight) : (x.addFlight f).atC = x.atC := rfl
@[simp] theorem Tile.addFlight_engs (x : Tile) (f : Flight) : (x.addFlight f).engs = x.engs := rfl
@[simp] theorem Tile.addFlight_tokens (x : Tile) (f : Flight) : (x.addFlight f).tokens = x.tokens := rfl
@[simp] theorem Tile.addFlight_seg (x : Tile) (f : Flight) : (x.addFlight f).seg = x.seg := rfl
@[simp] theorem Tile.addFlight_segcyc (x : Tile) (f : Flight) : (x.addFlight f).segcyc = x.segcyc := rfl
@[simp] theorem Tile.addFlight_frmorg (x : Tile) (f : Flight) : (x.addFlight f).frmorg = x.frmorg := rfl
@[simp] theorem Tile.addFlight_rended (x : Tile) (f : Flight) : (x.addFlight f).rended = x.rended := rfl
@[simp] theorem Tile.addFlight_fence (x : Tile) (f : Flight) : (x.addFlight f).fence = x.fence := rfl
@[simp] theorem Tile.addFlight_quiet (x : Tile) (f : Flight) : (x.addFlight f).quiet = x.quiet := rfl
@[simp] theorem Tile.addFlight_stopped (x : Tile) (f : Flight) : (x.addFlight f).stopped = x.stopped := rfl
@[simp] theorem Tile.addFlight_estopped (x : Tile) (f : Flight) : (x.addFlight f).estopped = x.estopped := rfl
@[simp] theorem Tile.addFlight_lastPre (x : Tile) (f : Flight) : (x.addFlight f).lastPre = x.lastPre := rfl
@[simp] theorem Tile.addFlight_bgate (x : Tile) (f : Flight) : (x.addFlight f).bgate = x.bgate := rfl
@[simp] theorem Tile.addFlight_podDue (x : Tile) (f : Flight) : (x.addFlight f).podDue = x.podDue := rfl
@[simp] theorem Tile.addFlight_inFreeze (x : Tile) (f : Flight) : (x.addFlight f).inFreeze = x.inFreeze := rfl
@[simp] theorem Tile.addFlight_hreplay (x : Tile) (f : Flight) : (x.addFlight f).hreplay = x.hreplay := rfl
@[simp] theorem Tile.addFlight_sqLate (x : Tile) (f : Flight) : (x.addFlight f).sqLate = x.sqLate := rfl
@[simp] theorem Tile.addFlight_entry (x : Tile) (f : Flight) : (x.addFlight f).entry = x.entry := rfl
@[simp] theorem Tile.addFlight_sb (x : Tile) (f : Flight) : (x.addFlight f).sb = x.sb := rfl
@[simp] theorem Tile.addFlight_hsb (x : Tile) (f : Flight) : (x.addFlight f).hsb = x.hsb := rfl
@[simp] theorem Tile.addFlight_hnext (x : Tile) (f : Flight) : (x.addFlight f).hnext = x.hnext := rfl
@[simp] theorem Tile.addFlight_effs (x : Tile) (f : Flight) : (x.addFlight f).effs = x.effs := rfl
@[simp] theorem Tile.addFlight_cmds (x : Tile) (f : Flight) : (x.addFlight f).cmds = x.cmds := rfl
@[simp] theorem Tile.addFlight_cache (x : Tile) (f : Flight) : (x.addFlight f).cache = x.cache := rfl
@[simp] theorem Tile.addFlight_fetchCI (x : Tile) (f : Flight) : (x.addFlight f).fetchCI = x.fetchCI := rfl
@[simp] theorem Tile.addFlight_fetchCO (x : Tile) (f : Flight) : (x.addFlight f).fetchCO = x.fetchCO := rfl
@[simp] theorem Tile.addFlight_hold (x : Tile) (f : Flight) : (x.addFlight f).hold = x.hold := rfl
@[simp] theorem Tile.addFlight_nxseq (x : Tile) (f : Flight) : (x.addFlight f).nxseq = x.nxseq := rfl
@[simp] theorem Tile.addFlight_tcause (x : Tile) (f : Flight) : (x.addFlight f).tcause = x.tcause := rfl
@[simp] theorem Tile.addFlight_tstep (x : Tile) (f : Flight) : (x.addFlight f).tstep = x.tstep := rfl
@[simp] theorem Tile.addFlight_topd0 (x : Tile) (f : Flight) : (x.addFlight f).topd0 = x.topd0 := rfl
@[simp] theorem Tile.addFlight_topd1 (x : Tile) (f : Flight) : (x.addFlight f).topd1 = x.topd1 := rfl
@[simp] theorem Tile.addFlight_tret (x : Tile) (f : Flight) : (x.addFlight f).tret = x.tret := rfl
@[simp] theorem Tile.addFlight_trapNow (x : Tile) (f : Flight) : (x.addFlight f).trapNow = x.trapNow := rfl
@[simp] theorem Tile.addFlight_again (x : Tile) (f : Flight) : (x.addFlight f).again = x.again := rfl
@[simp] theorem Tile.addFlight_clk (x : Tile) (f : Flight) : (x.addFlight f).clk = x.clk := rfl
@[simp] theorem Tile.addFlight_scrub (x : Tile) (f : Flight) : (x.addFlight f).scrub = x.scrub := rfl

/-! ## Tile.popToken -/
@[simp] theorem Tile.popToken_g (x : Tile) (p c : Nat) : (x.popToken p c).g = x.g := rfl
@[simp] theorem Tile.popToken_sw (x : Tile) (p c : Nat) : (x.popToken p c).sw = x.sw := rfl
@[simp] theorem Tile.popToken_loops (x : Tile) (p c : Nat) : (x.popToken p c).loops = x.loops := rfl
@[simp] theorem Tile.popToken_hflag (x : Tile) (p c : Nat) : (x.popToken p c).hflag = x.hflag := rfl
@[simp] theorem Tile.popToken_v (x : Tile) (p c : Nat) : (x.popToken p c).v = x.v := rfl
@[simp] theorem Tile.popToken_k (x : Tile) (p c : Nat) : (x.popToken p c).k = x.k := rfl
@[simp] theorem Tile.popToken_q (x : Tile) (p c : Nat) : (x.popToken p c).q = x.q := rfl
@[simp] theorem Tile.popToken_srseed (x : Tile) (p c : Nat) : (x.popToken p c).srseed = x.srseed := rfl
@[simp] theorem Tile.popToken_bfxV (x : Tile) (p c : Nat) : (x.popToken p c).bfxV = x.bfxV := rfl
@[simp] theorem Tile.popToken_bfxS (x : Tile) (p c : Nat) : (x.popToken p c).bfxS = x.bfxS := rfl
@[simp] theorem Tile.popToken_slotTy (x : Tile) (p c : Nat) : (x.popToken p c).slotTy = x.slotTy := rfl
@[simp] theorem Tile.popToken_fstepV (x : Tile) (p c : Nat) : (x.popToken p c).fstepV = x.fstepV := rfl
@[simp] theorem Tile.popToken_rct (x : Tile) (p c : Nat) : (x.popToken p c).rct = x.rct := rfl
@[simp] theorem Tile.popToken_f (x : Tile) (p c : Nat) : (x.popToken p c).f = x.f := rfl
@[simp] theorem Tile.popToken_nlv (x : Tile) (p c : Nat) : (x.popToken p c).nlv = x.nlv := rfl
@[simp] theorem Tile.popToken_nlvA (x : Tile) (p c : Nat) : (x.popToken p c).nlvA = x.nlvA := rfl
@[simp] theorem Tile.popToken_att (x : Tile) (p c : Nat) : (x.popToken p c).att = x.att := rfl
@[simp] theorem Tile.popToken_opmem (x : Tile) (p c : Nat) : (x.popToken p c).opmem = x.opmem := rfl
@[simp] theorem Tile.popToken_claim (x : Tile) (p c : Nat) : (x.popToken p c).claim = x.claim := rfl
@[simp] theorem Tile.popToken_filling (x : Tile) (p c : Nat) : (x.popToken p c).filling = x.filling := rfl
@[simp] theorem Tile.popToken_acc (x : Tile) (p c : Nat) : (x.popToken p c).acc = x.acc := rfl
@[simp] theorem Tile.popToken_sh0 (x : Tile) (p c : Nat) : (x.popToken p c).sh0 = x.sh0 := rfl
@[simp] theorem Tile.popToken_sh1 (x : Tile) (p c : Nat) : (x.popToken p c).sh1 = x.sh1 := rfl
@[simp] theorem Tile.popToken_fstepM (x : Tile) (p c : Nat) : (x.popToken p c).fstepM = x.fstepM := rfl
@[simp] theorem Tile.popToken_lastMma (x : Tile) (p c : Nat) : (x.popToken p c).lastMma = x.lastMma := rfl
@[simp] theorem Tile.popToken_qM (x : Tile) (p c : Nat) : (x.popToken p c).qM = x.qM := rfl
@[simp] theorem Tile.popToken_seedM (x : Tile) (p c : Nat) : (x.popToken p c).seedM = x.seedM := rfl
@[simp] theorem Tile.popToken_bfxM (x : Tile) (p c : Nat) : (x.popToken p c).bfxM = x.bfxM := rfl
@[simp] theorem Tile.popToken_slotTyM (x : Tile) (p c : Nat) : (x.popToken p c).slotTyM = x.slotTyM := rfl
@[simp] theorem Tile.popToken_rctV (x : Tile) (p c : Nat) : (x.popToken p c).rctV = x.rctV := rfl
@[simp] theorem Tile.popToken_sram (x : Tile) (p c : Nat) : (x.popToken p c).sram = x.sram := rfl
@[simp] theorem Tile.popToken_store (x : Tile) (p c : Nat) : (x.popToken p c).store = x.store := rfl
@[simp] theorem Tile.popToken_bufs (x : Tile) (p c : Nat) : (x.popToken p c).bufs = x.bufs := rfl
@[simp] theorem Tile.popToken_dirty (x : Tile) (p c : Nat) : (x.popToken p c).dirty = x.dirty := rfl
@[simp] theorem Tile.popToken_ecc (x : Tile) (p c : Nat) : (x.popToken p c).ecc = x.ecc := rfl
@[simp] theorem Tile.popToken_atC (x : Tile) (p c : Nat) : (x.popToken p c).atC = x.atC := rfl
@[simp] theorem Tile.popToken_engs (x : Tile) (p c : Nat) : (x.popToken p c).engs = x.engs := rfl
@[simp] theorem Tile.popToken_seg (x : Tile) (p c : Nat) : (x.popToken p c).seg = x.seg := rfl
@[simp] theorem Tile.popToken_segcyc (x : Tile) (p c : Nat) : (x.popToken p c).segcyc = x.segcyc := rfl
@[simp] theorem Tile.popToken_frmorg (x : Tile) (p c : Nat) : (x.popToken p c).frmorg = x.frmorg := rfl
@[simp] theorem Tile.popToken_rended (x : Tile) (p c : Nat) : (x.popToken p c).rended = x.rended := rfl
@[simp] theorem Tile.popToken_fence (x : Tile) (p c : Nat) : (x.popToken p c).fence = x.fence := rfl
@[simp] theorem Tile.popToken_quiet (x : Tile) (p c : Nat) : (x.popToken p c).quiet = x.quiet := rfl
@[simp] theorem Tile.popToken_stopped (x : Tile) (p c : Nat) : (x.popToken p c).stopped = x.stopped := rfl
@[simp] theorem Tile.popToken_estopped (x : Tile) (p c : Nat) : (x.popToken p c).estopped = x.estopped := rfl
@[simp] theorem Tile.popToken_lastPre (x : Tile) (p c : Nat) : (x.popToken p c).lastPre = x.lastPre := rfl
@[simp] theorem Tile.popToken_bgate (x : Tile) (p c : Nat) : (x.popToken p c).bgate = x.bgate := rfl
@[simp] theorem Tile.popToken_podDue (x : Tile) (p c : Nat) : (x.popToken p c).podDue = x.podDue := rfl
@[simp] theorem Tile.popToken_inFreeze (x : Tile) (p c : Nat) : (x.popToken p c).inFreeze = x.inFreeze := rfl
@[simp] theorem Tile.popToken_hreplay (x : Tile) (p c : Nat) : (x.popToken p c).hreplay = x.hreplay := rfl
@[simp] theorem Tile.popToken_sqLate (x : Tile) (p c : Nat) : (x.popToken p c).sqLate = x.sqLate := rfl
@[simp] theorem Tile.popToken_entry (x : Tile) (p c : Nat) : (x.popToken p c).entry = x.entry := rfl
@[simp] theorem Tile.popToken_sb (x : Tile) (p c : Nat) : (x.popToken p c).sb = x.sb := rfl
@[simp] theorem Tile.popToken_hsb (x : Tile) (p c : Nat) : (x.popToken p c).hsb = x.hsb := rfl
@[simp] theorem Tile.popToken_hnext (x : Tile) (p c : Nat) : (x.popToken p c).hnext = x.hnext := rfl
@[simp] theorem Tile.popToken_flights (x : Tile) (p c : Nat) : (x.popToken p c).flights = x.flights := rfl
@[simp] theorem Tile.popToken_effs (x : Tile) (p c : Nat) : (x.popToken p c).effs = x.effs := rfl
@[simp] theorem Tile.popToken_cmds (x : Tile) (p c : Nat) : (x.popToken p c).cmds = x.cmds := rfl
@[simp] theorem Tile.popToken_nextId (x : Tile) (p c : Nat) : (x.popToken p c).nextId = x.nextId := rfl
@[simp] theorem Tile.popToken_cache (x : Tile) (p c : Nat) : (x.popToken p c).cache = x.cache := rfl
@[simp] theorem Tile.popToken_fetchCI (x : Tile) (p c : Nat) : (x.popToken p c).fetchCI = x.fetchCI := rfl
@[simp] theorem Tile.popToken_fetchCO (x : Tile) (p c : Nat) : (x.popToken p c).fetchCO = x.fetchCO := rfl
@[simp] theorem Tile.popToken_hold (x : Tile) (p c : Nat) : (x.popToken p c).hold = x.hold := rfl
@[simp] theorem Tile.popToken_nxseq (x : Tile) (p c : Nat) : (x.popToken p c).nxseq = x.nxseq := rfl
@[simp] theorem Tile.popToken_tcause (x : Tile) (p c : Nat) : (x.popToken p c).tcause = x.tcause := rfl
@[simp] theorem Tile.popToken_tstep (x : Tile) (p c : Nat) : (x.popToken p c).tstep = x.tstep := rfl
@[simp] theorem Tile.popToken_topd0 (x : Tile) (p c : Nat) : (x.popToken p c).topd0 = x.topd0 := rfl
@[simp] theorem Tile.popToken_topd1 (x : Tile) (p c : Nat) : (x.popToken p c).topd1 = x.topd1 := rfl
@[simp] theorem Tile.popToken_tret (x : Tile) (p c : Nat) : (x.popToken p c).tret = x.tret := rfl
@[simp] theorem Tile.popToken_trapNow (x : Tile) (p c : Nat) : (x.popToken p c).trapNow = x.trapNow := rfl
@[simp] theorem Tile.popToken_again (x : Tile) (p c : Nat) : (x.popToken p c).again = x.again := rfl
@[simp] theorem Tile.popToken_clk (x : Tile) (p c : Nat) : (x.popToken p c).clk = x.clk := rfl
@[simp] theorem Tile.popToken_scrub (x : Tile) (p c : Nat) : (x.popToken p c).scrub = x.scrub := rfl

/-! ## Tile.pushToken -/
@[simp] theorem Tile.pushToken_g (x : Tile) (p c : Nat) : (x.pushToken p c).g = x.g := rfl
@[simp] theorem Tile.pushToken_sw (x : Tile) (p c : Nat) : (x.pushToken p c).sw = x.sw := rfl
@[simp] theorem Tile.pushToken_loops (x : Tile) (p c : Nat) : (x.pushToken p c).loops = x.loops := rfl
@[simp] theorem Tile.pushToken_hflag (x : Tile) (p c : Nat) : (x.pushToken p c).hflag = x.hflag := rfl
@[simp] theorem Tile.pushToken_v (x : Tile) (p c : Nat) : (x.pushToken p c).v = x.v := rfl
@[simp] theorem Tile.pushToken_k (x : Tile) (p c : Nat) : (x.pushToken p c).k = x.k := rfl
@[simp] theorem Tile.pushToken_q (x : Tile) (p c : Nat) : (x.pushToken p c).q = x.q := rfl
@[simp] theorem Tile.pushToken_srseed (x : Tile) (p c : Nat) : (x.pushToken p c).srseed = x.srseed := rfl
@[simp] theorem Tile.pushToken_bfxV (x : Tile) (p c : Nat) : (x.pushToken p c).bfxV = x.bfxV := rfl
@[simp] theorem Tile.pushToken_bfxS (x : Tile) (p c : Nat) : (x.pushToken p c).bfxS = x.bfxS := rfl
@[simp] theorem Tile.pushToken_slotTy (x : Tile) (p c : Nat) : (x.pushToken p c).slotTy = x.slotTy := rfl
@[simp] theorem Tile.pushToken_fstepV (x : Tile) (p c : Nat) : (x.pushToken p c).fstepV = x.fstepV := rfl
@[simp] theorem Tile.pushToken_rct (x : Tile) (p c : Nat) : (x.pushToken p c).rct = x.rct := rfl
@[simp] theorem Tile.pushToken_f (x : Tile) (p c : Nat) : (x.pushToken p c).f = x.f := rfl
@[simp] theorem Tile.pushToken_nlv (x : Tile) (p c : Nat) : (x.pushToken p c).nlv = x.nlv := rfl
@[simp] theorem Tile.pushToken_nlvA (x : Tile) (p c : Nat) : (x.pushToken p c).nlvA = x.nlvA := rfl
@[simp] theorem Tile.pushToken_att (x : Tile) (p c : Nat) : (x.pushToken p c).att = x.att := rfl
@[simp] theorem Tile.pushToken_opmem (x : Tile) (p c : Nat) : (x.pushToken p c).opmem = x.opmem := rfl
@[simp] theorem Tile.pushToken_claim (x : Tile) (p c : Nat) : (x.pushToken p c).claim = x.claim := rfl
@[simp] theorem Tile.pushToken_filling (x : Tile) (p c : Nat) : (x.pushToken p c).filling = x.filling := rfl
@[simp] theorem Tile.pushToken_acc (x : Tile) (p c : Nat) : (x.pushToken p c).acc = x.acc := rfl
@[simp] theorem Tile.pushToken_sh0 (x : Tile) (p c : Nat) : (x.pushToken p c).sh0 = x.sh0 := rfl
@[simp] theorem Tile.pushToken_sh1 (x : Tile) (p c : Nat) : (x.pushToken p c).sh1 = x.sh1 := rfl
@[simp] theorem Tile.pushToken_fstepM (x : Tile) (p c : Nat) : (x.pushToken p c).fstepM = x.fstepM := rfl
@[simp] theorem Tile.pushToken_lastMma (x : Tile) (p c : Nat) : (x.pushToken p c).lastMma = x.lastMma := rfl
@[simp] theorem Tile.pushToken_qM (x : Tile) (p c : Nat) : (x.pushToken p c).qM = x.qM := rfl
@[simp] theorem Tile.pushToken_seedM (x : Tile) (p c : Nat) : (x.pushToken p c).seedM = x.seedM := rfl
@[simp] theorem Tile.pushToken_bfxM (x : Tile) (p c : Nat) : (x.pushToken p c).bfxM = x.bfxM := rfl
@[simp] theorem Tile.pushToken_slotTyM (x : Tile) (p c : Nat) : (x.pushToken p c).slotTyM = x.slotTyM := rfl
@[simp] theorem Tile.pushToken_rctV (x : Tile) (p c : Nat) : (x.pushToken p c).rctV = x.rctV := rfl
@[simp] theorem Tile.pushToken_sram (x : Tile) (p c : Nat) : (x.pushToken p c).sram = x.sram := rfl
@[simp] theorem Tile.pushToken_store (x : Tile) (p c : Nat) : (x.pushToken p c).store = x.store := rfl
@[simp] theorem Tile.pushToken_bufs (x : Tile) (p c : Nat) : (x.pushToken p c).bufs = x.bufs := rfl
@[simp] theorem Tile.pushToken_dirty (x : Tile) (p c : Nat) : (x.pushToken p c).dirty = x.dirty := rfl
@[simp] theorem Tile.pushToken_ecc (x : Tile) (p c : Nat) : (x.pushToken p c).ecc = x.ecc := rfl
@[simp] theorem Tile.pushToken_atC (x : Tile) (p c : Nat) : (x.pushToken p c).atC = x.atC := rfl
@[simp] theorem Tile.pushToken_engs (x : Tile) (p c : Nat) : (x.pushToken p c).engs = x.engs := rfl
@[simp] theorem Tile.pushToken_seg (x : Tile) (p c : Nat) : (x.pushToken p c).seg = x.seg := rfl
@[simp] theorem Tile.pushToken_segcyc (x : Tile) (p c : Nat) : (x.pushToken p c).segcyc = x.segcyc := rfl
@[simp] theorem Tile.pushToken_frmorg (x : Tile) (p c : Nat) : (x.pushToken p c).frmorg = x.frmorg := rfl
@[simp] theorem Tile.pushToken_rended (x : Tile) (p c : Nat) : (x.pushToken p c).rended = x.rended := rfl
@[simp] theorem Tile.pushToken_fence (x : Tile) (p c : Nat) : (x.pushToken p c).fence = x.fence := rfl
@[simp] theorem Tile.pushToken_quiet (x : Tile) (p c : Nat) : (x.pushToken p c).quiet = x.quiet := rfl
@[simp] theorem Tile.pushToken_stopped (x : Tile) (p c : Nat) : (x.pushToken p c).stopped = x.stopped := rfl
@[simp] theorem Tile.pushToken_estopped (x : Tile) (p c : Nat) : (x.pushToken p c).estopped = x.estopped := rfl
@[simp] theorem Tile.pushToken_lastPre (x : Tile) (p c : Nat) : (x.pushToken p c).lastPre = x.lastPre := rfl
@[simp] theorem Tile.pushToken_bgate (x : Tile) (p c : Nat) : (x.pushToken p c).bgate = x.bgate := rfl
@[simp] theorem Tile.pushToken_podDue (x : Tile) (p c : Nat) : (x.pushToken p c).podDue = x.podDue := rfl
@[simp] theorem Tile.pushToken_inFreeze (x : Tile) (p c : Nat) : (x.pushToken p c).inFreeze = x.inFreeze := rfl
@[simp] theorem Tile.pushToken_hreplay (x : Tile) (p c : Nat) : (x.pushToken p c).hreplay = x.hreplay := rfl
@[simp] theorem Tile.pushToken_sqLate (x : Tile) (p c : Nat) : (x.pushToken p c).sqLate = x.sqLate := rfl
@[simp] theorem Tile.pushToken_entry (x : Tile) (p c : Nat) : (x.pushToken p c).entry = x.entry := rfl
@[simp] theorem Tile.pushToken_sb (x : Tile) (p c : Nat) : (x.pushToken p c).sb = x.sb := rfl
@[simp] theorem Tile.pushToken_hsb (x : Tile) (p c : Nat) : (x.pushToken p c).hsb = x.hsb := rfl
@[simp] theorem Tile.pushToken_hnext (x : Tile) (p c : Nat) : (x.pushToken p c).hnext = x.hnext := rfl
@[simp] theorem Tile.pushToken_flights (x : Tile) (p c : Nat) : (x.pushToken p c).flights = x.flights := rfl
@[simp] theorem Tile.pushToken_effs (x : Tile) (p c : Nat) : (x.pushToken p c).effs = x.effs := rfl
@[simp] theorem Tile.pushToken_cmds (x : Tile) (p c : Nat) : (x.pushToken p c).cmds = x.cmds := rfl
@[simp] theorem Tile.pushToken_nextId (x : Tile) (p c : Nat) : (x.pushToken p c).nextId = x.nextId := rfl
@[simp] theorem Tile.pushToken_cache (x : Tile) (p c : Nat) : (x.pushToken p c).cache = x.cache := rfl
@[simp] theorem Tile.pushToken_fetchCI (x : Tile) (p c : Nat) : (x.pushToken p c).fetchCI = x.fetchCI := rfl
@[simp] theorem Tile.pushToken_fetchCO (x : Tile) (p c : Nat) : (x.pushToken p c).fetchCO = x.fetchCO := rfl
@[simp] theorem Tile.pushToken_hold (x : Tile) (p c : Nat) : (x.pushToken p c).hold = x.hold := rfl
@[simp] theorem Tile.pushToken_nxseq (x : Tile) (p c : Nat) : (x.pushToken p c).nxseq = x.nxseq := rfl
@[simp] theorem Tile.pushToken_tcause (x : Tile) (p c : Nat) : (x.pushToken p c).tcause = x.tcause := rfl
@[simp] theorem Tile.pushToken_tstep (x : Tile) (p c : Nat) : (x.pushToken p c).tstep = x.tstep := rfl
@[simp] theorem Tile.pushToken_topd0 (x : Tile) (p c : Nat) : (x.pushToken p c).topd0 = x.topd0 := rfl
@[simp] theorem Tile.pushToken_topd1 (x : Tile) (p c : Nat) : (x.pushToken p c).topd1 = x.topd1 := rfl
@[simp] theorem Tile.pushToken_tret (x : Tile) (p c : Nat) : (x.pushToken p c).tret = x.tret := rfl
@[simp] theorem Tile.pushToken_trapNow (x : Tile) (p c : Nat) : (x.pushToken p c).trapNow = x.trapNow := rfl
@[simp] theorem Tile.pushToken_again (x : Tile) (p c : Nat) : (x.pushToken p c).again = x.again := rfl
@[simp] theorem Tile.pushToken_clk (x : Tile) (p c : Nat) : (x.pushToken p c).clk = x.clk := rfl
@[simp] theorem Tile.pushToken_scrub (x : Tile) (p c : Nat) : (x.pushToken p c).scrub = x.scrub := rfl

end Sys2Proof.Machine
end

