-- ==== Sys2Proof/Laws/Memory.lean ====
section
/-! SUPPORT. Every operation over global memory keeps the canonical form of the memory, and what the plain ones leave there. -/
namespace Sys2Proof.Machine

/-- The memory after reset lists nothing. -/
theorem State.reset_mem_wf : Memory.wf State.reset.mem = true := rfl

/-! ## What leaves memory alone -/

@[simp] theorem State.free_mem (s : State) : s.free.2.mem = s.mem := rfl
@[simp] theorem State.raiseCC_mem (s : State) (mask : Nat) : (s.raiseCC mask).mem = s.mem := by
  unfold State.raiseCC
  rfl
@[simp] theorem State.dropFailed_mem (s : State) (ctx va : Nat) : (s.dropFailed ctx va).mem = s.mem := rfl
@[simp] theorem State.setPot_mem (s : State) (p : Nat) (st : PotSt) (w : Nat) : (s.setPot p st w).mem = s.mem := rfl
@[simp] theorem State.remoteCode_mem (s : State) (rd : Bool) : (s.remoteCode rd).2.mem = s.mem := rfl
@[simp] theorem State.startWalk_mem (s : State) (die ctx va kind : Nat) : (s.startWalk die ctx va kind).mem = s.mem := by
  unfold State.startWalk
  by_cases h : ctx < 1344 <;> simp only [h, if_true, if_false]
  · split <;> simp
  · split <;> simp

/-! ## The plain writes -/

/-- A physical write changes the written bytes alone. -/
theorem State.wrPhys_mem (s : State) (pa : Nat) (data : List Byte) (bad : List Nat) : (s.wrPhys pa data bad).mem = Store.putL 0 s.mem pa data := rfl
theorem State.wrPhys_other (s : State) (pa : Nat) (data : List Byte) (bad : List Nat) (a : Nat) (h : a < pa ∨ pa + data.length ≤ a) :
    Store.get 0 a (s.wrPhys pa data bad).mem = Store.get 0 a s.mem := Store.get_putL_other 0 a data pa s.mem h
theorem State.rdPhys_wrPhys (s : State) (pa : Nat) (data : List Byte) (bad : List Nat) : (s.wrPhys pa data bad).rdPhys pa data.length = data :=
  Store.getN_putL 0 data pa s.mem
theorem State.wrPhys_wf (s : State) (pa : Nat) (data : List Byte) (bad : List Nat) (h : Memory.wf s.mem = true) : Memory.wf (s.wrPhys pa data bad).mem = true :=
  Store.wf_putL 0 data pa h

/-- A write by way of the home SYE writes what a physical write does. -/
@[simp] theorem State.syeWrite_mem (s : State) (pa : Nat) (data : List Byte) (bad : List Nat) : (s.syeWrite pa data bad).mem = (s.wrPhys pa data bad).mem := rfl
theorem State.syeWrite_wf (s : State) (pa : Nat) (data : List Byte) (bad : List Nat) (h : Memory.wf s.mem = true) :
    Memory.wf (s.syeWrite pa data bad).mem = true := State.wrPhys_wf s pa data bad h

/-- An error record leaves memory alone; its sealed copy is written later. -/
@[simp] theorem State.errorRecord_mem (s : State) (src : Nat) (unc : Bool) (world addr : Nat) : (s.errorRecord src unc world addr).mem = s.mem := by
  unfold State.errorRecord
  simp only [State.raiseCC_mem, State.free_mem]
@[simp] theorem State.meetLine_mem (s : State) (l : Nat) : (s.meetLine l).mem = s.mem := by
  unfold State.meetLine
  simp only [State.errorRecord_mem]
theorem State.meetLines_mem (ls : List Nat) : ∀ s : State, (ls.foldl State.meetLine s).mem = s.mem := by
  induction ls with
  | nil => intro s; rfl
  | cons l r ih => intro s; exact (ih _).trans (State.meetLine_mem s l)

/-- A read that corrects and poisons lines leaves every byte as it is. -/
@[simp] theorem State.fixLines_mem (s : State) (slot : Option Nat) (pa n : Nat) : (s.fixLines slot pa n).mem = s.mem := by
  unfold State.fixLines
  simp only
  repeat' split
  all_goals simp only [State.setSlot_mem, State.meetLines_mem]

theorem State.scrubPage_wf (s : State) (page : Nat) (h : Memory.wf s.mem = true) : Memory.wf (s.scrubPage page).mem = true := by
  unfold State.scrubPage
  split
  · exact h
  · exact Store.wf_delRange 0 _ _ h

/-! ## Reads and writes of global memory -/

theorem State.foldl_wf {α : Type} (f : State → α → State) (hf : ∀ u a, Memory.wf u.mem = true → Memory.wf (f u a).mem = true) (l : List α) :
    ∀ s : State, Memory.wf s.mem = true → Memory.wf (l.foldl f s).mem = true := by
  induction l with
  | nil => intro s h; exact h
  | cons a r ih => intro s h; exact ih _ (hf s a h)

theorem State.fixLines_wf (s : State) (slot : Option Nat) (pa n : Nat) (h : Memory.wf s.mem = true) : Memory.wf (s.fixLines slot pa n).mem = true := by
  rw [State.fixLines_mem]
  exact h

theorem State.readPieces_wf (ctx : Nat) (ps : List (Nat × Nat)) : ∀ s : State, Memory.wf s.mem = true → Memory.wf (s.readPieces ctx ps).1.mem = true := by
  induction ps with
  | nil => intro s h; exact h
  | cons p r ih =>
    intro s h
    unfold State.readPieces
    have hx : ∀ x : State × Gm, Memory.wf x.1.mem = true →
        Memory.wf (match x.2 with
          | .done bs => (match x.1.readPieces ctx r with
            | (s2, .done cs) => (s2, Gm.done (bs ++ cs))
            | y => y)
          | _ => x).1.mem = true := by
      intro x hm
      have h2 := ih x.1 hm
      split
      · generalize x.1.readPieces ctx r = y at h2 ⊢
        obtain ⟨u, g⟩ := y
        cases g <;> exact h2
      · exact hm
    apply hx
    simp only
    repeat' split
    all_goals first
      | exact h
      | exact State.fixLines_wf _ _ _ _ h

theorem State.gread_wf (s : State) (die ctx va n : Nat) (h : Memory.wf s.mem = true) : Memory.wf (s.gread die ctx va n).1.mem = true := by
  unfold State.gread
  split
  · simpa using h
  · exact h
  · exact State.readPieces_wf ctx _ s h

theorem State.writePieces_wf (ps : List (Nat × Nat)) : ∀ (s : State) (data : List Byte) (bad : List Nat), Memory.wf s.mem = true →
    Memory.wf (s.writePieces ps data bad).1.mem = true := by
  induction ps with
  | nil => intro s data bad h; exact h
  | cons p r ih =>
    intro s data bad h
    unfold State.writePieces
    simp only
    split
    · split
      · exact ih _ _ _ h
      · exact h
    · exact ih _ _ _ (State.syeWrite_wf s _ _ _ h)

theorem State.gwrite_wf (s : State) (die ctx va : Nat) (data : List Byte) (bad : List Nat) (h : Memory.wf s.mem = true) :
    Memory.wf (s.gwrite die ctx va data bad).1.mem = true := by
  unfold State.gwrite
  split
  · simpa using h
  · exact h
  · split
    · exact State.writePieces_wf _ s data bad h
    · exact h

theorem State.syeOp_wf (s : State) (die ctx va n : Nat) (f : Nat → Option Nat) (h : Memory.wf s.mem = true) :
    Memory.wf (s.syeOp die ctx va n f).1.mem = true := by
  unfold State.syeOp
  simp only
  repeat' split
  all_goals first
    | exact h
    | (simpa using h)
    | exact State.fixLines_wf _ _ _ _ h
    | exact State.syeWrite_wf _ _ _ _ (State.fixLines_wf _ _ _ _ h)

theorem State.wholeWrite_wf (s : State) (ctx va : Nat) (data : List Byte) (h : Memory.wf s.mem = true) : Memory.wf (s.wholeWrite ctx va data).1.mem = true := by
  have hg := State.gwrite_wf s 0 ctx va data [] h
  unfold State.wholeWrite
  generalize s.gwrite 0 ctx va data [] = y at hg ⊢
  obtain ⟨u, g⟩ := y
  cases g
  · exact hg
  · exact h
  · exact hg

theorem State.ringPut_wf (s : State) (x : Bounce) (i : Nat) (data : List Byte) (h : Memory.wf s.mem = true) : Memory.wf (s.ringPut x i data).mem = true := by
  unfold State.ringPut
  simp only
  split
  · exact State.wrPhys_wf _ _ _ _ h
  · exact State.wrPhys_wf _ _ _ _ (State.wrPhys_wf _ _ _ _ h)

/-- What a page reads as under another key is written in the canonical form. -/
theorem State.rekey_wf (s : State) (page old new : Nat) (which : List Byte → Bool) (h : Memory.wf s.mem = true) :
    Memory.wf (s.rekey page old new which).mem = true := by
  suffices ∀ (l : List Nat) (m : List Host.Cell), Memory.wf m = true →
      Memory.wf (l.foldl (fun m l => if which (Store.getN 0 m (64 * l) 64) then rekeyLine m old new l else m) m) = true from this _ s.mem h
  intro l
  induction l with
  | nil => exact fun m hm => hm
  | cons i r ih =>
    intro m hm
    rw [List.foldl_cons]
    split
    · exact ih _ (Store.wf_putL 0 _ _ hm)
    · exact ih _ hm

theorem State.ctxWrite_wf (s : State) (world pa : Nat) (data : List Byte) (bad : List Nat) (h : Memory.wf s.mem = true) :
    Memory.wf (s.ctxWrite world pa data bad).mem = true := by
  unfold State.ctxWrite
  refine State.foldl_wf _ (fun u p hu => ?_) _ s h
  split
  · exact State.wrPhys_wf _ _ _ _ hu
  · exact hu

end Sys2Proof.Machine
end

