-- ==== Sys2Proof/Laws/Ops.lean ====
section
/-! SUPPORT. What each shared operation can do, said once: registers, issue gates, the wrappers of scalar words and engine orders, taking a trap. -/
namespace Sys2Proof.Machine

/-! ## The tile and the core in hand -/

@[simp] theorem State.setTile_tile_same (s : State) (p : Nat) (t : Tile) : (s.setTile p t).tile p = t := Store.get_put_same _ _ _ _
theorem State.setTile_tile_other (s : State) {p q : Nat} (h : q ≠ p) (t : Tile) : (s.setTile p t).tile q = s.tile q := Store.get_put_other _ _ h _
@[simp] theorem State.setSlot_slot_same (s : State) (n : Nat) (r : Slot) : (s.setSlot n r).slot n = r := Store.get_put_same _ _ _ _
theorem State.setSlot_slot_other (s : State) {n m : Nat} (h : m ≠ n) (r : Slot) : (s.setSlot n r).slot m = s.slot m := Store.get_put_other _ _ h _
@[simp] theorem State.setCore_core_same (s : State) (n : Nat) (c : CCore) : (s.setCore n c).core n = c := Store.get_put_same _ _ _ _
theorem State.setCore_core_other (s : State) {n m : Nat} (h : m ≠ n) (c : CCore) : (s.setCore n c).core m = s.core m := Store.get_put_other _ _ h _
@[simp] theorem State.setWalker_walker_same (s : State) (n : Nat) (c : CCore) : (s.setWalker n c).walker n = c := Store.get_put_same _ _ _ _
theorem State.setWalker_walker_other (s : State) {n m : Nat} (h : m ≠ n) (c : CCore) : (s.setWalker n c).walker m = s.walker m :=
  Store.get_put_other _ _ h _

@[simp] theorem State.setCtile_ctile (s : State) (t : Tile) : (s.setCtile t).ctile = t := State.setTile_tile_same s s.here t
@[simp] theorem State.setCtile_here (s : State) (t : Tile) : (s.setCtile t).here = s.here := rfl
@[simp] theorem State.setCtile_cur (s : State) (t : Tile) : (s.setCtile t).cur = s.cur := rfl
@[simp] theorem State.setCtile_atU (s : State) (t : Tile) : (s.setCtile t).atU = s.atU := rfl
@[simp] theorem State.setCtile_region (s : State) (t : Tile) : (s.setCtile t).region = s.region := rfl
@[simp] theorem State.setCtile_slotNo (s : State) (t : Tile) : (s.setCtile t).slotNo = s.slotNo := rfl
@[simp] theorem State.setCtile_now (s : State) (t : Tile) : (s.setCtile t).now = s.now := rfl
@[simp] theorem State.setCtile_img (s : State) (t : Tile) : (s.setCtile t).img = s.img := rfl
@[simp] theorem State.setCtile_decl (s : State) (t : Tile) (b : Nat) : (s.setCtile t).decl b = s.decl b := rfl
@[simp] theorem State.setCtile_mem (s : State) (t : Tile) : (s.setCtile t).mem = s.mem := rfl
@[simp] theorem State.setCtile_cores (s : State) (t : Tile) : (s.setCtile t).cores = s.cores := rfl
@[simp] theorem State.setCtile_walkers (s : State) (t : Tile) : (s.setCtile t).walkers = s.walkers := rfl
@[simp] theorem State.setCtile_ccore (s : State) (t : Tile) : (s.setCtile t).ccore = s.ccore := rfl
theorem State.setCtile_tile_other (s : State) (t : Tile) {p : Nat} (h : p ≠ s.here) : (s.setCtile t).tile p = s.tile p :=
  State.setTile_tile_other s h t
theorem State.setCtile_rest (s : State) (t : Tile) : ({ s.setCtile t with tiles := s.tiles } : State) = s := rfl

@[simp] theorem Tile.setEng_eng_same (t : Tile) (e : Nat) (x : Eng) : (t.setEng e x).eng e = x := Store.get_put_same _ _ _ _
theorem Tile.setEng_eng_other (t : Tile) {e f : Nat} (h : f ≠ e) (x : Eng) : (t.setEng e x).eng f = t.eng f := Store.get_put_other _ _ h _
@[simp] theorem Tile.busy_ready_same (t : Tile) (k u : Nat) : (t.busy k u).ready k = u := Store.get_put_same _ _ _ _
theorem Tile.busy_ready_other (t : Tile) {k j : Nat} (h : j ≠ k) (u : Nat) : (t.busy k u).ready j = t.ready j := Store.get_put_other _ _ h _
@[simp] theorem Tile.busy_eng (t : Tile) (k u e : Nat) : (t.busy k u).eng e = t.eng e := rfl

/-! ## The checks of ReadBuf and WriteBuf (R49) -/

theorem State.chkRead_none {s : State} {e b off n : Nat} (ha : ((s.decl b).valid && s.ctile.seg.canRead e b) = true) (hn : off % n = 0)
    (hl : off + n ≤ (s.decl b).bytes) (hs : ((s.ctile.buf b).st == .full || (s.ctile.buf b).st == .draining) = true) : s.chkRead e b off n = none := by
  simp only [Bool.and_eq_true] at ha
  simp [chkRead, ha.1, ha.2, hn, hs, Nat.not_lt.2 hl]
theorem State.chkWrite_none {s : State} {e b off n : Nat} (ha : ((s.decl b).valid && s.ctile.seg.canWrite e b) = true) (hn : off % n = 0)
    (hl : off + n ≤ (s.decl b).bytes) (hs : ((s.ctile.buf b).st == .empty || (s.ctile.buf b).st == .full) = true) : s.chkWrite e b off n = none := by
  simp only [Bool.and_eq_true] at ha
  simp [chkWrite, ha.1, ha.2, hn, hs, Nat.not_lt.2 hl]

/-- A core's word: its core, read back. -/
theorem State.setCcore_ccore (s : State) (c : CCore) (h : s.atU = false) : (s.setCcore c).ccore = c := by
  unfold State.setCcore State.ccore
  rcases ha : s.cur.agent with n | n | n
  · simp [State.setCore_cur, ha]
  · simp [State.setWalker_cur, ha]
  · simp [State.atU, ha] at h
@[simp] theorem State.setCcore_cur (s : State) (c : CCore) : (s.setCcore c).cur = s.cur := by
  unfold State.setCcore
  split <;> rfl
@[simp] theorem State.setCcore_atU (s : State) (c : CCore) : (s.setCcore c).atU = s.atU := by
  simp only [State.atU, State.setCcore_cur]
@[simp] theorem State.setCcore_tiles (s : State) (c : CCore) : (s.setCcore c).tiles = s.tiles := by
  unfold State.setCcore
  split <;> rfl
@[simp] theorem State.setCcore_slots (s : State) (c : CCore) : (s.setCcore c).slots = s.slots := by
  unfold State.setCcore
  split <;> rfl
@[simp] theorem State.setCcore_mem (s : State) (c : CCore) : (s.setCcore c).mem = s.mem := by
  unfold State.setCcore
  split <;> rfl

/-! ## Registers (R44, R148) -/

@[simp] theorem State.rdG_zero (s : State) : s.rdG 0 = 0 := rfl
theorem State.rdG_wrG (s : State) (n k : Nat) (v : Word) : (s.wrG n v).rdG k = if k = 0 then 0 else if k = n then v else s.rdG k := by
  unfold State.wrG
  by_cases hk : k = 0
  · simp [hk]
  by_cases hn : n = 0
  · simp [hn, hk]
  · cases hu : s.atU with
    | true => simp [hn, hk, hu, State.rdG, Store.get_put]
    | false => simp [hn, hk, hu, State.rdG, State.setCcore_ccore, Store.get_put]

@[simp] theorem State.wrG_cur (s : State) (n : Nat) (v : Word) : (s.wrG n v).cur = s.cur := by
  unfold State.wrG
  split
  · rfl
  · split <;> simp
@[simp] theorem State.wrG_slots (s : State) (n : Nat) (v : Word) : (s.wrG n v).slots = s.slots := by
  unfold State.wrG
  split
  · rfl
  · split <;> simp [State.setCtile]
@[simp] theorem State.wrG_mem (s : State) (n : Nat) (v : Word) : (s.wrG n v).mem = s.mem := by
  unfold State.wrG
  split
  · rfl
  · split <;> simp

/-! ## The issue gates (R31 to R33, R147) -/

/-- A scalar word that nothing delays, whose unit is free, whose wait is met and that pops no token, issues. -/
theorem State.scalarGate_go {s : State} (n : Need) (h : s.prompt) (hf : n.free = true) (hm : n.met = true) (hc : n.ctl.pops = false) :
    s.scalarGate n = .go := by
  have ready (t : Tile) (now : Nat) (hr : ∀ k, t.ready k ≤ now) : n.ready t now = true ∧ n.unitFree t now = true := by
    refine ⟨by simp [Need.ready, hr], ?_⟩
    simp only [Need.unitFree, hf, Bool.true_and]
    split <;> simp [hr]
  unfold State.scalarGate
  cases hu : s.atU with
  | false => simp
  | true =>
    cases hh : s.inHandler with
    | true =>
      obtain ⟨hn, hr⟩ := h.handler hh
      obtain ⟨h1, h2⟩ := ready { s.ctile with sb := s.ctile.hsb } s.region.hcyc hr
      simp [Need.handlerGate, hn, h1, h2]
    | false =>
      obtain ⟨hs, hn, hr⟩ := h.clocked (by simp [State.clocked, hu, hh])
      obtain ⟨h1, h2⟩ := ready s.ctile s.now hr
      have h3 : tokenOk n.ctl s.ctile 0 = true := by simp [tokenOk, hc]
      simp [Need.gate, hs, h1, h2, h3, hm, Nat.not_lt.mpr hn]

/-- A scalar word whose gate goes and whose own checks pass: its effect, then its bookkeeping. -/
theorem State.scalarWord_go {s : State} {n : Need} {body : State → Except Trap (State × Flow)} {r : State × Flow} (hp : n.pre = none)
    (hg : s.scalarGate n = .go) (hb : body (s.popFor n.ctl 0) = .ok r) : s.scalarWord n body = r.1.commitScalar n r.2 := by
  simp [State.scalarWord, hp, hg, hb]

/-- A scalar word that traps has no effect but its trap. -/
theorem State.scalarWord_error {s : State} {n : Need} {body : State → Except Trap (State × Flow)} {t : Trap} (hp : n.pre = none)
    (hg : s.scalarGate n = .go) (hb : body (s.popFor n.ctl 0) = .error t) : s.scalarWord n body = s.takeTrap t := by
  simp [State.scalarWord, hp, hg, hb]

theorem State.popFor_none (s : State) (c : Ctl) (e : Nat) (h : c.pops = false) : s.popFor c e = s := by simp [State.popFor, h]

/-- An order that is due, whose unit is free and whose wait is met, issues. -/
theorem State.engineGate_go {s : State} (n : ENeed) (h : Due s n.ctl) (hf : n.free = true) (hm : n.met = true) :
    n.gate s.ctile s.ceng s.cur.eng s.now = .go := by
  have hd := h.due
  have ht := h.timed
  have htok : tokenOk n.ctl s.ctile s.cur.eng = true := by
    simp only [tokenOk, Bool.or_eq_true, Bool.not_eq_true', bne_iff_ne]
    by_cases hp : n.ctl.pops = true
    · exact .inr (h.token hp)
    · exact .inl (by simpa using hp)
  have hl := h.later
  have hx := h.fresh
  unfold State.dueAt at hd ht
  unfold ENeed.gate
  cases hs : s.ceng.stamp <;> simp only [hs] at hd ht <;> simp only [hx, hf, hm, htok, bne_self_eq_false, Bool.false_eq_true, if_false] <;>
    by_cases htm : s.ctile.timed = true <;> simp_all [Nat.not_lt.mpr]

/-- An engine order that issues: its effect, then its bookkeeping. -/
theorem State.engineOrder_go {s : State} {n : ENeed} {body : State → Except Trap (State × Issue)} {r : State × Issue} (hp : n.pre = none)
    (h : Due s n.ctl) (hf : n.free = true) (hm : n.met = true) (hb : body (s.popFor n.ctl s.cur.eng) = .ok r) :
    s.engineOrder n body = r.1.setCtile (r.1.ctile.commitOrder n r.2 s.cur s.now) := by
  simp [State.engineOrder, h.legal, hp, State.engineGate_go n h hf hm, hb]

end Sys2Proof.Machine
end

