-- ==== Sys2Proof/Laws/Cycle.lean ====
section
/-! SUPPORT. What the end of a Harness command does to the package, and when a read of a queue has its turn. -/
namespace Sys2Proof.Machine

@[simp] theorem State.raiseCC_slot (s : State) (m n : Nat) : (s.raiseCC m).slot n = s.slot n := by
  simp only [State.raiseCC, State.slot]
@[simp] theorem State.raiseCC_tile (s : State) (m p : Nat) : (s.raiseCC m).tile p = s.tile p := by
  simp only [State.raiseCC, State.tile]

/-- A command completes: ERR and DONE of its slot, and the control cores are told (R305). -/
theorem State.cmdDone_slot (s : State) (n err : Nat) : (s.cmdDone n err).slot n = { s.slot n with err := err, done := true } := by
  rw [State.cmdDone, State.raiseCC_slot, State.setSlot_slot_same]
theorem State.cmdDone_slot_other (s : State) {n m : Nat} (err : Nat) (h : m ≠ n) : (s.cmdDone n err).slot m = s.slot m := by
  rw [State.cmdDone, State.raiseCC_slot, State.setSlot_slot_other s h]
@[simp] theorem State.cmdDone_tile (s : State) (n err p : Nat) : (s.cmdDone n err).tile p = s.tile p := State.raiseCC_tile _ _ _
@[simp] theorem State.cmdDone_mem (s : State) (n err : Nat) : (s.cmdDone n err).mem = s.mem := State.raiseCC_mem _ _

/-- A freeze completes the command in hand: DONE then stands, with ERR 0 where it has completed now. -/
theorem State.endFreeze_of_done {s : State} {n : Nat} (h : (s.slot n).done = true) : s.endFreeze n = s := if_pos h
theorem State.endFreeze_slot {s : State} {n : Nat} (h : (s.slot n).done = false) : (s.endFreeze n).slot n = { s.slot n with err := 0, done := true } := by
  rw [State.endFreeze, if_neg (by rw [h]; exact Bool.false_ne_true), State.cmdDone_slot]
theorem State.endFreeze_done (s : State) (n : Nat) : ((s.endFreeze n).slot n).done = true := by
  rcases h : (s.slot n).done
  · rw [State.endFreeze_slot h]
  · rwa [State.endFreeze_of_done h]
@[simp] theorem State.endFreeze_tile (s : State) (n p : Nat) : (s.endFreeze n).tile p = s.tile p := by
  unfold State.endFreeze
  split
  · rfl
  · exact State.cmdDone_tile _ _ _ _

/-- A read of a queue has its turn where no earlier command of it has still to read anything. -/
theorem State.queueClear_of_read {s : State} {n t e : Nat} {before : Cmd → Bool}
    (h : ∀ k, k ∈ (s.tileAt n t).cmds → k.eng = e → before k = true → k.sources = []) (ps : List (Nat × Nat)) : s.queueClear n t e before ps = true := by
  simp only [State.queueClear, List.all_eq_true, Bool.or_eq_true, bne_iff_ne, Bool.not_eq_true']
  intro k hk
  by_cases he : k.eng = e
  · by_cases hb : before k = true
    · simp [h k hk he hb]
    · exact .inl (.inr (by simpa using hb))
  · exact .inl (.inl he)

/-- A record that is cached is not read again (R60). -/
theorem State.fetchRec_cached {s : State} {n t va : Nat} (e : Nat) (before : Cmd → Bool) (h : ((s.tileAt n t).cached va).isSome = true) :
    s.fetchRec n t e va before = (s, some 0) := by simp [State.fetchRec, h]

end Sys2Proof.Machine
end

