-- ==== Sys2Proof/Laws/Gcm.lean ====
section
/-! SUPPORT. What opening a sealed frame gives: its plaintext (R366). -/
namespace Sys2Proof.Machine

theorem length_xorList (a b : List Nat) : (xorList a b).length = min a.length b.length := List.length_zipWith

/-- A next word of the key schedule has four bytes where every word before it has. -/
theorem length_aesNextWord {ws : List (List Nat)} (h : ∀ w ∈ ws, w.length = 4) {i : Nat} (h1 : 8 ≤ i) (h2 : i = ws.length) : (aesNextWord ws i).length = 4 := by
  have g (k : Nat) (hk : k < ws.length) : (ws.getD k []).length = 4 := by
    rw [List.getD_eq_getElem _ _ hk]
    exact h _ (List.getElem_mem hk)
  have a := g (i - 1) (by omega)
  have b := g (i - 8) (by omega)
  unfold aesNextWord
  generalize ws.getD (i - 1) [] = v at a ⊢
  rw [length_xorList, b]
  split
  · simp [length_xorList, a]
  · split <;> simp [a]

/-- The key schedule of a key of 32 bytes: 60 words of four bytes. -/
theorem aesSchedule_words {key : List Nat} (hk : key.length = 32) : (aesSchedule key).length = 60 ∧ ∀ w ∈ aesSchedule key, w.length = 4 := by
  have step (n : Nat) : ∀ ws : List (List Nat), ws = (List.range n).foldl (fun ws i => ws ++ [aesNextWord ws (i + 8)])
      ((List.range 8).map (fun i => (key.drop (4 * i)).take 4)) → ws.length = 8 + n ∧ ∀ w ∈ ws, w.length = 4 := by
    induction n with
    | zero =>
      rintro ws rfl
      refine ⟨by simp, fun w hw => ?_⟩
      simp only [List.range_zero, List.foldl_nil, List.mem_map, List.mem_range] at hw
      obtain ⟨i, hi, rfl⟩ := hw
      simp [hk]
      omega
    | succ n ih =>
      rintro ws rfl
      obtain ⟨l, m⟩ := ih _ rfl
      rw [List.range_succ (n := n), List.foldl_append]
      refine ⟨by simp [l]; omega, fun w hw => ?_⟩
      simp only [List.foldl_cons, List.foldl_nil, List.mem_append, List.mem_singleton] at hw
      rcases hw with hw | rfl
      · exact m w hw
      · exact length_aesNextWord m (by omega) (by omega)
  exact step 52 _ rfl

theorem length_numbers (bs : List Byte) : (numbers bs).length = bs.length := List.length_map _

/-- A block under the key schedule has 16 bytes. -/
theorem length_aesBlock {key : List Nat} (hk : key.length = 32) (b : List Nat) : (aesBlock (aesSchedule key) b).length = 16 := by
  obtain ⟨l, m⟩ := aesSchedule_words hk
  have k : (((aesSchedule key).drop (4 * 14)).take 4).flatten.length = 16 := by
    rw [List.length_flatten, List.map_congr_left (g := fun _ => 4) (fun w hw => m w (List.mem_of_mem_drop (List.mem_of_mem_take hw)))]
    simp [l]
  simp only [aesBlock, length_xorList, k]
  simp [aesShiftRows]

theorem length_gcmStream {key : List Nat} (hk : key.length = 32) (iv : List Nat) (n : Nat) : (gcmStream (aesSchedule key) iv n).length = n := by
  simp only [gcmStream, List.length_take, List.length_flatMap, length_aesBlock hk]
  simp
  omega

theorem length_gcmText (key : Nat) (iv text : List Byte) : (gcmText key iv text).length = text.length := by
  simp only [gcmText, List.length_map, length_xorList, length_numbers, gcmKey]
  rw [length_gcmStream (by simp [length_numbers, leBytes])]
  exact Nat.min_self _

/-- Bytes xored twice with one stream, taken modulo 256 between, stand as they were. -/
theorem xorList_twice (text : List Byte) (s : List Nat) (h : s.length = text.length) :
    (xorList (numbers ((xorList (numbers text) s).map (BitVec.ofNat 8))) s).map (BitVec.ofNat 8) = text := by
  refine List.ext_getElem (by simp [length_xorList, length_numbers, h]) fun i h1 h2 => ?_
  apply BitVec.eq_of_toNat_eq
  have hs : i < s.length := by omega
  simp only [xorList, numbers, List.getElem_map, List.getElem_zipWith, BitVec.toNat_ofNat, Nat.xor_mod_two_pow, Nat.mod_mod]
  rw [Nat.xor_assoc, Nat.xor_self, Nat.xor_zero]
  exact Nat.mod_eq_of_lt (text[i].isLt)

/-- The key stream taken twice leaves the text as it was. -/
theorem gcmText_gcmText (key : Nat) (iv text : List Byte) : gcmText key iv (gcmText key iv text) = text := by
  have e : gcmText key iv (gcmText key iv text) =
      (xorList (numbers (gcmText key iv text)) (gcmStream (gcmKey key) (numbers iv) text.length)).map (BitVec.ofNat 8) := by
    conv_lhs => rw [gcmText, length_gcmText]
  rw [e, gcmText]
  exact xorList_twice text _ (by rw [gcmKey, length_gcmStream (by simp [length_numbers, leBytes])])

theorem length_gcmTagOf (key : Nat) (iv aad ct : List Byte) : (gcmTagOf key iv aad ct).length = 16 := by
  simp only [gcmTagOf, gcmTag, List.length_map, length_xorList, gcmKey]
  rw [length_aesBlock (by simp [length_numbers, leBytes])]
  simp [beBytes]

/-- What is sealed is opened: ciphertext and tag give the plaintext back under the same key, vector and associated data. -/
theorem gcmOpen_gcmSeal (key : Nat) (iv aad plain : List Byte) : gcmOpen key iv aad (gcmSeal key iv aad plain) = some plain := by
  have l : (gcmSeal key iv aad plain).length - 16 = (gcmText key iv plain).length := by simp [gcmSeal, length_gcmTagOf]
  simp only [gcmOpen, l]
  simp [gcmSeal, gcmText_gcmText]

/-- A sealed plaintext is 16 bytes longer: the tag. -/
theorem length_gcmSeal (key : Nat) (iv aad plain : List Byte) : (gcmSeal key iv aad plain).length = plain.length + 16 := by
  simp [gcmSeal, length_gcmText, length_gcmTagOf]

end Sys2Proof.Machine
end

