-- ==== Sys2Proof/Laws/Scalar.lean ====
section
/-! SUPPORT. What a scalar word that issues does, by the agent whose word it is. -/
namespace Sys2Proof.Machine

/-- A word without engine control bits pops and pushes no token. -/
theorem noCtl_pops : ({ tk := 0, gap := 0, tq := 0 } : Ctl).pops = false := by decide
theorem noCtl_pushes : ({ tk := 0, gap := 0, tq := 0 } : Ctl).pushes = false := by decide

/-- A core's word and a region's word, by the agent in hand. -/
theorem State.atU_false {s : State} (h : s.atU = false) : (∃ n, s.cur.agent = .core n) ∨ ∃ n, s.cur.agent = .walker n := by
  unfold State.atU at h
  rcases ha : s.cur.agent with n | n | n
  · exact .inl ⟨n, rfl⟩
  · exact .inr ⟨n, rfl⟩
  · simp [ha] at h

theorem OwnAgent.refl (s : State) : OwnAgent s s := ⟨rfl, fun _ _ => rfl, fun _ _ => rfl, fun _ _ => rfl⟩

/-- A change of the tile in hand is a change of the region's own agent. -/
theorem OwnAgent.setCtile {s : State} (h : s.atU = true) (x : Tile) : OwnAgent s (s.setCtile x) where
  rest := rfl
  tiles p hp := State.setCtile_tile_other s x (by simpa [h] using hp)
  cores _ _ := rfl
  walkers _ _ := rfl

/-- A change of the core in hand is a change of the core's own agent. -/
theorem OwnAgent.setCcore {s : State} (h : s.atU = false) (x : CCore) : OwnAgent s (s.setCcore x) := by
  obtain ⟨n, ha⟩ | ⟨n, ha⟩ := State.atU_false h
  · have e : s.setCcore x = s.setCore n x := by simp [State.setCcore, ha]
    rw [e]
    refine ⟨rfl, fun _ _ => rfl, fun m hm => State.setCore_core_other s ?_ x, fun _ _ => rfl⟩
    rintro rfl
    exact hm ha
  · have e : s.setCcore x = s.setWalker n x := by simp [State.setCcore, ha]
    rw [e]
    refine ⟨rfl, fun _ _ => rfl, fun _ _ => rfl, fun m hm => State.setWalker_walker_other s ?_ x⟩
    rintro rfl
    exact hm ha

/-- The tile after a scalar word of SQ outside a handler. -/
theorem State.commitScalar_clocked {s : State} (n : Need) (f : Flow) (h : s.clocked = true) :
    s.commitScalar n f = s.setCtile (s.ctile.commitSq n f s.cur s.now) := by
  simp only [State.clocked, Bool.and_eq_true, Bool.not_eq_true'] at h
  simp [State.commitScalar, h.1, h.2]
theorem State.commitScalar_handler {s : State} (n : Need) (f : Flow) (hu : s.atU = true) (h : s.inHandler = true) :
    s.commitScalar n f = s.setCtile (s.ctile.commitHandler n f s.cur s.region.hcyc) := by
  simp [State.commitScalar, hu, h]
theorem State.commitScalar_core {s : State} (n : Need) (f : Flow) (h : s.atU = false) : s.commitScalar n f = s.setCcore (s.ccore.commit f s.cur) := by
  simp [State.commitScalar, h]

@[simp] theorem State.setCtile_setCtile_ctile (s : State) (x y : Tile) : ((s.setCtile x).setCtile y).ctile = y := by simp

/-- The bookkeeping of a word that pushes no token, field by field. -/
theorem Tile.commitSq_bare (t : Tile) (n : Need) (f : Flow) (c : Cur) (now : Nat) (h : n.ctl.pushes = false) : (t.commitSq n f c now).bare = t.bare := by
  unfold Tile.commitSq
  rcases n.unit with _ | u <;> by_cases hd : n.dest = 0 <;> simp [h, hd, Tile.bare, Tile.busy, Tile.setEng]
theorem Tile.commitSq_other (t : Tile) (n : Need) (f : Flow) (c : Cur) (now : Nat) (h : n.ctl.pushes = false) {e : Nat} (he : e ≠ 0) :
    (t.commitSq n f c now).eng e = t.eng e := by
  unfold Tile.commitSq
  rcases n.unit with _ | u <;> by_cases hd : n.dest = 0 <;> simp [h, hd, Tile.eng, Tile.busy, Tile.setEng, Store.get_put, he]
theorem Tile.commitSq_own (t : Tile) (n : Need) (f : Flow) (c : Cur) (now : Nat) (h : n.ctl.pushes = false) :
    (t.commitSq n f c now).eng 0 =
      { (t.eng 0).feed c.raws with step := (f.next (t.seqFirst c) c.step c.nextStep false t.loops).2, next := now + f.delay, tprev := now } := by
  unfold Tile.commitSq
  rcases n.unit with _ | u <;> by_cases hd : n.dest = 0 <;> simp [h, hd, Tile.eng, Tile.busy, Tile.setEng]
theorem Tile.commitSq_loops (t : Tile) (n : Need) (f : Flow) (c : Cur) (now : Nat) (h : n.ctl.pushes = false) :
    (t.commitSq n f c now).loops = (f.next (t.seqFirst c) c.step c.nextStep false t.loops).1 := by
  unfold Tile.commitSq
  rcases n.unit with _ | u <;> by_cases hd : n.dest = 0 <;> simp [h, hd, Tile.busy, Tile.setEng]
theorem Tile.commitSq_g (t : Tile) (n : Need) (f : Flow) (c : Cur) (now : Nat) (h : n.ctl.pushes = false) : (t.commitSq n f c now).g = t.g := by
  have := congrArg Tile.g (t.commitSq_bare n f c now h)
  exact this
/-- The destination is ready after the latency (R146); a unit's key is no register's. -/
theorem Tile.commitSq_ready (t : Tile) (n : Need) (f : Flow) (c : Cur) (now : Nat) (h : n.ctl.pushes = false) (hd : n.dest ≠ 0)
    (hu : ∀ u, n.unit = some u → u.1 ≠ n.dest) : (t.commitSq n f c now).ready n.dest = now + n.lat := by
  unfold Tile.commitSq
  rcases hn : n.unit with _ | u
  · simp [h, hd, Tile.ready, Tile.busy, Tile.setEng]
  · have := hu u hn
    simp [h, hd, Tile.ready, Tile.busy, Tile.setEng, Store.get_put, this.symm]

theorem Eng.feed_keeps (e : Eng) (ws : List Nat) : (e.feed ws).st = e.st ∧ (e.feed ws).base = e.base ∧ (e.feed ws).run = e.run := ⟨rfl, rfl, rfl⟩

/-- The state `u` that a word's effect made, taken through its bookkeeping: `u` differs from `s` in its own agent only, and its
word is still in hand. -/
structure Effect (s u : State) : Prop where
  own : OwnAgent s u
  engs : ∀ e, u.ctile.eng e = s.ctile.eng e
  sb : u.ctile.sb = s.ctile.sb
  hflag : u.ctile.hflag = s.ctile.hflag

theorem Effect.cur {s u : State} (h : Effect s u) : u.cur = s.cur := by
  have e : u.offAgents.cur = s.offAgents.cur := by rw [h.own.rest]
  exact e
theorem Effect.slots {s u : State} (h : Effect s u) : u.slots = s.slots := by
  have e : u.offAgents.slots = s.offAgents.slots := by rw [h.own.rest]
  exact e
theorem Effect.atU {s u : State} (h : Effect s u) : u.atU = s.atU := by simp only [State.atU, h.cur]
theorem Effect.region {s u : State} (h : Effect s u) : u.region = s.region := by
  simp only [State.region, State.slot, State.slotNo, h.cur, h.slots]
theorem Effect.here {s u : State} (h : Effect s u) : u.here = s.here := by simp only [State.here, h.region, h.cur]
theorem Effect.now {s u : State} (h : Effect s u) : u.now = s.now := by simp only [State.now, h.region]
theorem Effect.inHandler {s u : State} (h : Effect s u) : u.inHandler = s.inHandler := by
  simp only [State.inHandler, h.atU, h.region, h.hflag]
theorem Effect.clocked {s u : State} (h : Effect s u) : u.clocked = s.clocked := by simp only [State.clocked, h.atU, h.inHandler]

theorem Effect.trans_tile {s u : State} (h : Effect s u) (hu : s.atU = true) (x : Tile) : OwnAgent s (u.setCtile x) where
  rest := (rfl : (u.setCtile x).offAgents = u.offAgents).trans h.own.rest
  tiles p hp := by
    rw [State.setCtile_tile_other u x (by rw [h.here]; simpa [hu] using hp)]
    exact h.own.tiles p hp
  cores n hn := h.own.cores n hn
  walkers n hn := h.own.walkers n hn

theorem Effect.trans_core {s u : State} (h : Effect s u) (hu : s.atU = false) (x : CCore) : OwnAgent s (u.setCcore x) := by
  have hc := h.cur
  have o := OwnAgent.setCcore (s := u) (by rw [h.atU]; exact hu) x
  exact ⟨o.rest.trans h.own.rest, fun p hp => (o.tiles p (.inl (by rw [h.atU]; exact hu))).trans (h.own.tiles p hp),
    fun n hn => (o.cores n (by rw [hc]; exact hn)).trans (h.own.cores n hn),
    fun n hn => (o.walkers n (by rw [hc]; exact hn)).trans (h.own.walkers n hn)⟩

/-- The bookkeeping of a handler's word, field by field. -/
theorem Tile.commitHandler_other (t : Tile) (n : Need) (f : Flow) (c : Cur) (hcyc : Nat) {e : Nat} (he : e ≠ 0) :
    (t.commitHandler n f c hcyc).eng e = t.eng e := Tile.setEng_eng_other t he _
theorem Tile.commitHandler_own (t : Tile) (n : Need) (f : Flow) (c : Cur) (hcyc : Nat) :
    (t.commitHandler n f c hcyc).eng 0 = { t.eng 0 with step := (f.next c.first c.step c.nextStep true t.loops).2 } := Tile.setEng_eng_same t 0 _
@[simp] theorem Tile.commitHandler_bare (t : Tile) (n : Need) (f : Flow) (c : Cur) (hcyc : Nat) : (t.commitHandler n f c hcyc).bare = t.bare := rfl
@[simp] theorem Tile.commitHandler_loops (t : Tile) (n : Need) (f : Flow) (c : Cur) (hcyc : Nat) : (t.commitHandler n f c hcyc).loops = t.loops := rfl
@[simp] theorem Tile.commitHandler_g (t : Tile) (n : Need) (f : Flow) (c : Cur) (hcyc : Nat) : (t.commitHandler n f c hcyc).g = t.g := rfl

/-- In a handler the destination is ready after the latency in handler cycles (R295). -/
theorem Tile.commitHandler_ready (t : Tile) (n : Need) (f : Flow) (c : Cur) (hcyc : Nat) (hd : n.dest ≠ 0)
    (hu : ∀ u, n.unit = some u → u.1 ≠ n.dest) : Store.get 0 n.dest (t.commitHandler n f c hcyc).hsb = hcyc + n.lat := by
  unfold Tile.commitHandler
  rcases hn : n.unit with _ | u
  · simp [hd]
  · have := hu u hn
    simp [hd, Store.get_put, this.symm]

/-- What the bookkeeping of a scalar word without a token adds to its effect. -/
structure Booked (s u t : State) (n : Need) (f : Flow) : Prop where
  own : OwnAgent s t
  engines : OtherEngines s t
  tile : s.atU = true → t.ctile.bare = u.ctile.bare
  core : s.atU = false → t.ccore.bare = u.ccore.bare
  pc : t.pcOf = (f.next s.seqFirst s.cur.step s.cur.nextStep s.inHandler u.loopsOf).2
  loops : t.loopsOf = if s.inHandler then u.loopsOf else (f.next s.seqFirst s.cur.step s.cur.nextStep false u.loopsOf).1
  g : ∀ k, t.rdG k = u.rdG k
  next : s.clocked = true → (t.ctile.eng 0).next = s.now + f.delay
  ready : s.clocked = true → n.dest ≠ 0 → (∀ v, n.unit = some v → v.1 ≠ n.dest) → t.ctile.ready n.dest = s.now + n.lat
  hready : s.inHandler = true → n.dest ≠ 0 → (∀ v, n.unit = some v → v.1 ≠ n.dest) → Store.get 0 n.dest t.ctile.hsb = s.region.hcyc + n.lat

theorem CCore.commit_bare (x : CCore) (f : Flow) (c : Cur) : (x.commit f c).bare = x.bare := rfl

theorem Effect.book {s u : State} (h : Effect s u) (n : Need) (f : Flow) (hp : n.ctl.pushes = false) : Booked s u (u.commitScalar n f) n f := by
  cases hu : s.atU with
  | true =>
    have huu : u.atU = true := by rw [h.atU]; exact hu
    cases hh : s.inHandler with
    | true =>
      have hhu : u.inHandler = true := by rw [h.inHandler]; exact hh
      have hncl : s.clocked = false := by simp [State.clocked, hh]
      rw [State.commitScalar_handler n f huu hhu]
      refine ⟨h.trans_tile hu _, ⟨fun e he => ?_, ?_⟩, fun _ => ?_, fun hx => ?_, ?_, ?_, fun k => ?_, fun hx => ?_, fun hx => ?_,
        fun _ hd hv => by rw [State.setCtile_ctile, Tile.commitHandler_ready _ _ _ _ _ hd hv, h.region]⟩
      · rw [State.setCtile_ctile, Tile.commitHandler_other _ _ _ _ _ he, h.engs]
      · rw [State.setCtile_ctile, Tile.commitHandler_own, h.engs]
        exact ⟨rfl, rfl, rfl⟩
      · rw [State.setCtile_ctile, Tile.commitHandler_bare]
      · simp [hu] at hx
      · simp [State.loopsOf, State.pcOf, huu, Tile.commitHandler_own, h.cur, hh, State.seqFirst, hncl]
      · simp [State.loopsOf, huu, hh]
      · simp [State.rdG, huu]
      · simp [hncl] at hx
      · simp [hncl] at hx
    | false =>
      have hcl : s.clocked = true := by simp [State.clocked, hu, hh]
      rw [State.commitScalar_clocked n f (by rw [h.clocked]; exact hcl)]
      refine ⟨h.trans_tile hu _, ⟨fun e he => ?_, ?_⟩, fun _ => ?_, fun hx => ?_, ?_, ?_, fun k => ?_, fun _ => ?_, fun _ hd hv => ?_,
        fun hx => by simp [hh] at hx⟩
      · rw [State.setCtile_ctile, Tile.commitSq_other _ _ _ _ _ hp he, h.engs]
      · rw [State.setCtile_ctile, Tile.commitSq_own _ _ _ _ _ hp, h.engs]
        exact ⟨rfl, rfl, rfl⟩
      · rw [State.setCtile_ctile, Tile.commitSq_bare _ _ _ _ _ hp]
      · simp [hu] at hx
      · simp [State.pcOf, huu, Tile.commitSq_own _ _ _ _ _ hp, h.cur, hh, State.loopsOf, State.seqFirst, hcl, Tile.seqFirst, h.engs]
      · simp [State.loopsOf, huu, Tile.commitSq_loops _ _ _ _ _ hp, h.cur, hh, State.seqFirst, hcl, Tile.seqFirst, h.engs]
      · simp [State.rdG, huu, Tile.commitSq_g _ _ _ _ _ hp]
      · simp [Tile.commitSq_own _ _ _ _ _ hp, h.now]
      · rw [State.setCtile_ctile, Tile.commitSq_ready _ _ _ _ _ hp hd hv, h.now]
  | false =>
    have huu : u.atU = false := by rw [h.atU]; exact hu
    have hncl : s.clocked = false := by simp [State.clocked, hu]
    have hh : s.inHandler = false := by simp [State.inHandler, hu]
    have ht : (u.setCcore (u.ccore.commit f u.cur)).ctile = u.ctile := by
      simp [State.ctile, State.tile, State.here, State.region, State.slot, State.slotNo]
    rw [State.commitScalar_core n f huu]
    refine ⟨h.trans_core hu _, ⟨fun e he => ?_, ?_⟩, fun hx => ?_, fun _ => ?_, ?_, ?_, fun k => ?_, fun hx => ?_, fun hx => ?_,
      fun hx => by simp [hh] at hx⟩
    · rw [ht, h.engs]
    · rw [ht, h.engs]
      exact ⟨rfl, rfl, rfl⟩
    · simp [hu] at hx
    · rw [State.setCcore_ccore _ _ huu, CCore.commit_bare]
    · simp [State.pcOf, huu, State.setCcore_ccore, CCore.commit, h.cur, hh, State.loopsOf, State.seqFirst, hncl]
    · simp [State.loopsOf, huu, State.setCcore_ccore, CCore.commit, h.cur, hh, State.seqFirst, hncl]
    · simp [State.rdG, huu, State.setCcore_ccore, CCore.commit]
    · simp [hncl] at hx
    · simp [hncl] at hx

/-- A word that writes one register, as an effect. -/
theorem Effect.wrG (s : State) (rd : Nat) (v : Word) : Effect s (s.wrG rd v) := by
  unfold State.wrG
  by_cases hr : rd = 0
  · rw [if_pos hr]
    exact ⟨.refl s, fun _ => rfl, rfl, rfl⟩
  rw [if_neg hr]
  cases hu : s.atU with
  | true =>
    simp only [if_true]
    exact ⟨.setCtile hu _, fun e => by simp [Tile.eng], by simp, by simp⟩
  | false =>
    have ht : ∀ x, (s.setCcore x).ctile = s.ctile := fun x => by
      simp [State.ctile, State.tile, State.here, State.region, State.slot, State.slotNo]
    simp only [Bool.false_eq_true, if_false]
    exact ⟨.setCcore hu _, fun e => by rw [ht], by rw [ht], by rw [ht]⟩

theorem State.wrG_bare (s : State) (rd : Nat) (v : Word) (hu : s.atU = true) : { (s.wrG rd v).ctile.bare with g := s.ctile.g } = s.ctile.bare := by
  unfold State.wrG
  by_cases hr : rd = 0 <;> simp [hr, hu, Tile.bare]
theorem State.wrG_bareCore (s : State) (rd : Nat) (v : Word) (hu : s.atU = false) : { (s.wrG rd v).ccore.bare with g := s.ccore.g } = s.ccore.bare := by
  unfold State.wrG
  by_cases hr : rd = 0
  · simp [hr, CCore.bare]
  · simp [hr, hu, State.setCcore_ccore, CCore.bare]

/-- A scalar word that nothing delays and that writes `v` to one register. -/
theorem State.writesG_of {s : State} (n : Need) (v : Word) (hp : n.ctl.pushes = false) (hu : ∀ x, n.unit = some x → x.1 ≠ n.dest) :
    WritesG s ((s.wrG n.dest v).commitScalar n .fall) n.dest n.lat v := by
  have b := (Effect.wrG s n.dest v).book n .fall hp
  have hl : (s.wrG n.dest v).loopsOf = s.loopsOf := by
    unfold State.loopsOf
    rw [(Effect.wrG s n.dest v).atU]
    cases hu : s.atU with
    | true =>
      have := congrArg Tile.hflag (State.wrG_bare s n.dest v hu)
      unfold State.wrG
      by_cases hr : n.dest = 0 <;> simp [hr, hu]
    | false =>
      unfold State.wrG
      by_cases hr : n.dest = 0
      · simp [hr]
      · simp [hr, hu, State.setCcore_ccore]
  refine ⟨?_, fun k hk => ?_, ?_, fun hc hd => b.ready hc hd hu, fun hc hd => b.hready hc hd hu, ⟨b.own, fun h => ?_, fun h => ?_, b.engines⟩⟩
  · rw [b.g, State.rdG_wrG]
    simp
  · rw [b.g, State.rdG_wrG]
    by_cases h0 : k = 0 <;> simp [h0, hk]
  · unfold fallsThrough
    have h1 := b.loops
    have h2 := b.pc
    rw [hl] at h1 h2
    rw [h1, h2]
    cases s.inHandler <;> simp [Flow.next]
  · rw [b.tile h]
    exact State.wrG_bare s _ _ h
  · rw [b.core h]
    exact State.wrG_bareCore s _ _ h

/-- A word whose whole effect is one register write (Table 8.1), issued without delay. -/
theorem State.aluWord_writes {s : State} (reads : List Nat) (rd lat : Nat) (unit : Option (Nat × Nat)) (f : State → Word) (h : s.prompt)
    (hu : ∀ x, unit = some x → x.1 ≠ rd) : WritesG s (s.aluWord reads rd lat unit f) rd lat (f s) := by
  unfold State.aluWord
  rw [State.scalarWord_go (r := (s.wrG rd (f s), .fall)) rfl (State.scalarGate_go _ h rfl rfl noCtl_pops) (by rw [State.popFor_none _ _ _ noCtl_pops])]
  exact State.writesG_of (s := s) { reads := reads, dest := rd, lat := lat, unit := unit } (f s) noCtl_pushes hu

end Sys2Proof.Machine
end

