-- ==== Sys2Proof/Tests/Slice0.lean ====
section
/-! SUPPORT. Tests of the model's own work: words of the spec against the decoder, ill-formed terms against WellFormed, single steps on small states, and for every statement with hypotheses concrete values that meet them. -/
-- One proof at a time, as in Laws/PerInstr.lean: a kernel evaluation waits for all proofs before it, and each one that waits holds a stack.
set_option Elab.async false

namespace Sys2Proof.Tests
open Sys2Proof.Machine Sys2Proof.Claims

/-! ## Decoding -/

/-- The words decode to the instruction, all of them used. -/
def okWord (e : List Code × Instr) : Bool :=
  match decode e.1 with
  | .ok d => d.instr == e.2 && d.len == e.1.length
  | .error _ => false

/-- The listings of the spec. -/
theorem test_spec_words : specWords.all okWord = true := by decide

/-- Words written out bit by bit from the encoding tables of each family. -/
def vectorWords : List (List Code × Instr) :=
  [([0x08E00021#32], .addi 7 0 33), ([0xF8000805#32, 0xC4001780#32], .vmovkVk ⟨0, 0, 0⟩ ⟨1, 30, 0, 0, 0, 0, 0, 0, 5, 0⟩),
   ([0xFA440800#32, 0xD8000002#32], .vmulm ⟨0, 0, 0⟩ ⟨0, 0, 2, 18, 1, 0, 0, 0, 0, 0⟩),
   ([0xFA240400#32, 0xCC000080#32], .vst ⟨0, 0, 0⟩ ⟨0, 2, 0, 17, 1, 0, 0⟩)]
def otherWords : List (List Code × Instr) :=
  [([0xF0000000#32], .oclaim ⟨0, 0, 0⟩ 0), ([0xEC005600#32], .nestcfg ⟨0, 0, 0⟩ 1 11),
   ([0xF8100000#32, 0xF001C800#32], .arestore ⟨0, 0, 0⟩ 1 1 0), ([0xF8014001#32, 0x90002083#32], .cpout ⟨0, 0, 0⟩ ⟨2, 1, 3, 5, 1, 0⟩)]
def moreWords : List (List Code × Instr) := vectorWords ++ otherWords
theorem test_more_words : moreWords.all okWord = true := by decide
/-- A LOOP whose last step holds the prefix of the word at step 6 goes back there (R120, R131); one whose last step lies before goes on. -/
theorem test_loop_prefix_end : seqEnd 4 6 7 [{ start := 2, last := 5, count := 2 }] = ([{ start := 2, last := 5, count := 1 }], 2) ∧
    seqEnd 4 6 7 [{ start := 2, last := 3, count := 2 }] = ([{ start := 2, last := 3, count := 2 }], 7) := by decide

/-! ## Small states -/

/-- An open elastic segment in which every engine may read and write every buffer. -/
def openSeg : Seg :=
  { opened := true, elastic := true, rset := (List.range 6).map (fun e => (e, 2 ^ 64 - 1)), wset := (List.range 6).map (fun e => (e, 2 ^ 64 - 1)) }
/-- A tile whose buffers 0 and 63 are in one state. -/
def tileOf (st : BufSt) : Tile := { seg := openSeg, bufs := [(0, { st := st }), (63, { st := st })] }
/-- A one-tile region in cycle 5, its buffers 0 and 63 of 64 granules each. -/
def run1 : Slot :=
  { st := .running, w := 1, h := 1, rcc := 5,
    imgs := [(0, { mask := 63, decls := [(0, { valid := true, base := 0, len := 64 }), (63, { valid := true, base := 64, len := 64 })] })] }
/-- A word of engine `e` of that region's tile, and a word of a core. -/
def uWord (e : Nat) (x : Tile) (r : Slot := run1) : State :=
  { State.reset with tiles := [(0, x)], slots := [(0, r)], cur := { agent := .region 0, eng := e, nextStep := 1, raws := [0] } }
def cWord (x : CCore) : State := { State.reset with cores := [(0, x)], cur := { agent := .core 0, nextStep := 1 } }

/-- Nothing delays a word of a tile that has issued nothing, or a word of a core. -/
theorem prompt_u (x : Tile) (r : Slot) (h : (uWord 0 x r).ctile.sb = []) (g : (uWord 0 x r).ctile.engs = []) (hh : (uWord 0 x r).inHandler = false := by rfl) :
    (uWord 0 x r).prompt := by
  refine ⟨fun _ => ⟨?_, ?_, fun k => ?_⟩, fun q => Bool.noConfusion (q.symm.trans hh)⟩
  · rw [Tile.eng, g]; rfl
  · rw [Tile.eng, g]; exact Nat.zero_le _
  · rw [Tile.ready, h]; exact Nat.zero_le _
theorem prompt_c (x : CCore) : (cWord x).prompt := ⟨fun h => Bool.noConfusion (show false = true from h), fun h => Bool.noConfusion (show false = true from h)⟩

/-! ## What meets the hypotheses of the statements on scalar words -/

/-- Every conclusion of the memory statement is about a step that is taken: the clock advances. -/
theorem wit_StepKeepsMemory : ∃ s t : State, MemOk s ∧ step s = .next t := ⟨{ State.reset with agenda := [.tick 1] }, _, rfl, rfl⟩
theorem wit_StepKeepsTiles : ∃ t : State, TilesOk State.reset ∧ step { State.reset with agenda := [.tick 1] } = .next t ∧
    TilesOk { State.reset with agenda := [.tick 1] } :=
  have h : TilesOk State.reset := ⟨fun _ => ⟨rfl, rfl, Nat.zero_le _, fun _ => Nat.zero_le _, fun _ h => Bool.noConfusion (show false = true from h)⟩,
    fun _ => ⟨rfl, Nat.zero_le _⟩, fun _ => ⟨rfl, Nat.zero_le _⟩⟩
  ⟨_, h, rfl, ⟨h.tiles, h.cores, h.walkers⟩⟩
theorem wit_EncodeDecode : (Instr.vmulm ⟨3, 7, 5⟩ ⟨63, 63, 63, 18, 7, 7, 0, 0, 0, 0⟩).wf = true := by decide
theorem wit_DecodeEncode : ∃ d, decode [0xF8000190#32, 0xF800C010#32, 0x810C5100#32] = .ok d := ⟨_, rfl⟩

theorem wit_IntegerWords : (∃ w, arithmetic (.divn 31 31 31) = some w) ∧ (Instr.divn 31 31 31).wf = true ∧
    (∃ w, immediate (.srai 0 31 63) = some w) ∧ (Instr.srai 0 31 63).wf = true ∧ (uWord 0 (tileOf .full)).prompt ∧ (cWord {}).prompt :=
  ⟨⟨_, rfl⟩, by decide, ⟨_, rfl⟩, by decide, prompt_u _ _ rfl rfl, prompt_c _⟩
theorem wit_Loads : (∃ a, loadOf (.ldd 31 0 63 262136) = some a ∧ a.readable (uWord 0 (tileOf .full))) ∧
    (∃ a, loadOf (.ldbN 31 0 0 65535) = some a ∧ a.readable (cWord {})) ∧ (uWord 0 (tileOf .full)).prompt ∧ (cWord {}).prompt :=
  ⟨⟨_, rfl, ⟨by decide, by decide, by decide⟩, fun _ => ⟨rfl, fun _ => ⟨by decide, .inl rfl⟩⟩⟩,
   ⟨_, rfl, ⟨by decide, by decide, by decide⟩, fun h => absurd h (by decide)⟩, prompt_u _ _ rfl rfl, prompt_c _⟩
theorem wit_Stores : (∃ a, storeOf (.std 31 0 63 262136) = some a ∧ a.writable (uWord 0 (tileOf .empty))) ∧
    (∃ a, storeOf (.stb 31 0 0 65535) = some a ∧ a.writable (cWord {})) ∧ (uWord 0 (tileOf .empty)).prompt ∧ (cWord {}).prompt :=
  ⟨⟨_, rfl, ⟨by decide, by decide, by decide⟩, fun _ => ⟨by decide, .inl rfl⟩⟩,
   ⟨_, rfl, ⟨by decide, by decide, by decide⟩, fun h => absurd h (by decide)⟩, prompt_u _ _ rfl rfl, prompt_c _⟩
/-- The checks that a load or store fails: each at the end of its range. -/
theorem wit_Loads_traps : let s := uWord 0 (tileOf .full)
    s.clocked = true ∧ readFault s 0 1 0 8 = some .sets ∧ readFault s 0 63 1 8 = some .align ∧ readFault s 0 63 262144 8 = some .bufstate ∧
    readFault (uWord 0 (tileOf .empty)) 0 63 0 8 = some .bufstate ∧ writeFault (uWord 0 (tileOf .draining)) 0 63 262136 8 = some .bufstate ∧
    accessCheck true true (s.decl 1) 0 8 = some .sets ∧ accessCheck true true (s.decl 63) 262144 8 = some .bufstate ∧
    (uWord 0 { tileOf .full with hflag := true } { run1 with st := .frozen, handler := true }).inHandler = true ∧
    coreFault 1 0 8 = some .ill ∧ coreFault 0 65532 8 = some .align ∧ coreFault 0 65536 8 = some .xlate := by decide +kernel

/-- A word of a handler that nothing delays. -/
theorem wit_Loads_handler : let s := uWord 0 { tileOf .full with hflag := true } { run1 with st := .frozen, handler := true }
    s.inHandler = true ∧ s.prompt ∧ s.ctile.atC = none :=
  ⟨rfl, ⟨fun h => Bool.noConfusion (show false = true from h), fun _ => ⟨by decide, fun _ => Nat.zero_le _⟩⟩, rfl⟩

theorem wit_BranchesAndJumps : let s := uWord 0 (tileOf .full)
    s.prompt ∧
    (∃ c, branchOf (.beq 0 0 65535) = some (0, 0, 65535, c) ∧ c (s.rdG 0) (s.rdG 0) = true ∧ 0 ≤ (s.cur.step : Int) + 65535 ∧ (s.cur.step : Int) + 65535 < 65536) ∧
    (∃ c, branchOf (.bne 0 0 65536) = some (0, 0, 65536, c) ∧ c (s.rdG 0) (s.rdG 0) = false) ∧
    (∃ c, branchOf (.bge 0 0 65536) = some (0, 0, 65536, c) ∧ c (s.rdG 0) (s.rdG 0) = true ∧ ¬ ((s.cur.step : Int) + 65536 < 65536)) ∧
    linkOf s (.jal 31 65535) = some (31, 65535) ∧ (65535 : Word).toNat < 65536 ∧
    linkOf s (.jalr 31 0 65536) = some (31, 65536) ∧ 65536 ≤ (65536 : Word).toNat :=
  ⟨prompt_u _ _ rfl rfl, ⟨_, rfl, by decide, by decide, by decide⟩, ⟨_, rfl, by decide⟩, ⟨_, rfl, by decide, by decide⟩, rfl, by decide, rfl, by decide⟩

/-- A tile with loops on its stack, and one with g1 = 1. -/
def loopTile (n : Nat) : Tile := { tileOf .full with loops := List.replicate n { start := 0, last := 9, count := 2 }, g := [(1, 1)] }
theorem wit_Loop : let s := uWord 0 (loopTile 3)
    s.prompt ∧ s.inHandler = false ∧ s.loopsOf.length < 4 ∧ (∀ l, s.loopsOf.head? = some l → s.cur.step + 9 ≤ l.last) ∧ s.rdG 0 = 0 ∧ s.rdG 1 ≠ 0 ∧
    4 ≤ (uWord 0 (loopTile 4)).loopsOf.length ∧ (uWord 0 (loopTile 4)).prompt ∧ (∃ l, s.loopsOf.head? = some l ∧ l.last < s.cur.step + 10) := by
  refine ⟨prompt_u _ _ rfl rfl, rfl, by decide, ?_, rfl, by decide, by decide, prompt_u _ _ rfl rfl, ⟨_, rfl, by decide⟩⟩
  intro l h
  cases h
  decide

/-- Engine 4 running, the others stopped. -/
def mxRuns : Tile := { tileOf .full with engs := [(4, { st := .running })], g := [(1, 65535), (2, 65536)] }
theorem mx_prompt : (uWord 0 mxRuns).prompt := ⟨fun _ => ⟨rfl, by decide, fun _ => Nat.zero_le _⟩, fun h => Bool.noConfusion (show false = true from h)⟩
theorem wit_EngineControl : let s := uWord 0 mxRuns
    s.clocked = true ∧ s.prompt ∧ hasEngine s 4 ∧ hasEngine s 5 ∧ (s.ctile.eng 5).st = .stopped ∧ (s.ctile.eng 4).st = .running ∧ (s.ctile.eng 4).st ≠ .stopped ∧ (s.rdG 1).toNat < 65536 ∧ 65536 ≤ (s.rdG 2).toNat :=
  ⟨rfl, mx_prompt, fun _ => rfl, fun _ => rfl, rfl, rfl, by decide, by decide, by decide⟩

/-! ## Schedule and system words -/

theorem wit_Waits : let s := uWord 0 mxRuns
    s.clocked = true ∧ s.prompt ∧ s.ctile.flights = [] ∧ 5 ≤ (s.now + 2 ^ 48 - s.ctile.frmorg % 2 ^ 48) % 2 ^ 48 ∧ hasEngine s 4 ∧ (s.ctile.eng 5).st = .stopped ∧
    (Store.get 0 31 s.ctile.sw).getMsbD 0 = ((0 : Nat) == 1) ∧ s.ctile.seg.opened = true ∧ (s.ctile.eng 4).st ≠ .stopped ∧
    (s.now + 2 ^ 48 - s.ctile.frmorg % 2 ^ 48) % 2 ^ 48 < 6 ∧ (Store.get 0 31 s.ctile.sw).getMsbD 0 ≠ ((1 : Nat) == 1) :=
  ⟨rfl, mx_prompt, rfl, by decide, fun _ => rfl, rfl, by decide, rfl, by decide, by decide, by decide⟩
/-- An MX order in flight that writes accumulator 5: BAR.tile, SEG, ACOMMIT and QFENCE of MX wait. -/
theorem wit_Waits_orders : let s := uWord 0 { mxRuns with flights := [{ id := 0, eng := 4, retire := some 9, push := none, effs := [], step := 0, raw := 0, accW := 32 }] }
    s.clocked = true ∧ s.prompt ∧ s.ctile.seg.opened = true ∧ s.ctile.flights ≠ [] ∧ (∃ f, f ∈ s.ctile.flights ∧ bits f.accW 5 1 = 1) ∧ s.ctile.quietOf 16 = false :=
  ⟨rfl, ⟨fun _ => ⟨rfl, by decide, fun _ => Nat.zero_le _⟩, fun h => Bool.noConfusion (show false = true from h)⟩, rfl, by decide, ⟨_, .head _, by decide⟩, by decide⟩
theorem wit_Barriers : let s := uWord 0 (tileOf .full)
    s.clocked = true ∧ s.prompt ∧ s.ctile.timed = false ∧ s.ctile.bgate = none ∧ s.ctile.seg.opened = true ∧ s.barMet 2 = true ∧ s.barMet 5 = true ∧ s.barMet 6 = true ∧
    s.barMet 7 = true ∧ s.barHere 6 = true ∧ s.podPackages s.slotNo = [] := ⟨rfl, prompt_u _ _ rfl rfl, rfl, rfl, rfl, by decide, by decide, by decide, by decide, by decide, rfl⟩
/-- A job on packages 0 to 2, of which package 1 has been told of the barrier; and one of which not all of this one's tiles have come. -/
theorem wit_Barriers_told : let r : Slot := { run1 with groups := [[{ pkg := 1, parts := 1, inst := 0, tile := 0 }, { pkg := 2, parts := 1, inst := 0, tile := 0 }]] }
    let s : State := { uWord 0 (tileOf .full) r with podSent := [(1, 0, 0, 1)] }
    let u := uWord 0 (tileOf .full) { run1 with w := 2, imgs := run1.imgs ++ [(1, { mask := 63 })] }
    (counted s 6).barCount s.cur.tile 6 = 1 ∧ s.podPackages s.slotNo = [1, 2] ∧ s.podUntold 1 = [2] ∧ s.barHere 6 = true ∧
    (∃ q, q ∈ s.podSent ∧ q.1 = 1 ∧ q.2.1 = s.region.world ∧ q.2.2.1 = s.region.jobid ∧ 1 ≤ q.2.2.2) ∧ u.barHere 6 = false :=
  ⟨by decide, by decide, by decide, by decide, ⟨_, .head _, rfl, rfl, rfl, Nat.le_refl 1⟩, by decide⟩
/-- A second tile that has not come; the end of the remote timeout; a timed segment. -/
theorem wit_Barriers_unmet : let s := uWord 0 (tileOf .full) { run1 with w := 2, imgs := run1.imgs ++ [(1, { mask := 63 })] }
    let u := uWord 0 { tileOf .full with bgate := some 1 }
    let v := uWord 0 { tileOf .full with seg := { openSeg with elastic := false } }
    s.prompt ∧ s.barMet 2 = false ∧ s.barMet 5 = false ∧ s.barMet 6 = false ∧ s.barMet 7 = false ∧ s.ctile.bgate ≠ some ((counted s 6).barCount s.cur.tile 6) ∧
    u.prompt ∧ u.ctile.bgate = some ((counted u 6).barCount u.cur.tile 6) ∧ v.prompt ∧ v.ctile.timed = true :=
  ⟨prompt_u _ _ rfl rfl, by decide, by decide, by decide, by decide, by decide, prompt_u _ _ rfl rfl, by decide, prompt_u _ _ rfl rfl, rfl⟩
/-- No segment open, and the header of an elastic segment with no sets at the last place. -/
def headTile : Tile := { store := [(32 * 2047, 0x101)] }
theorem wit_OpenSegment : let s := uWord 0 headTile
    s.clocked = true ∧ s.prompt ∧ s.ctile.flights = [] ∧ s.stopAsked 2047 = false ∧ s.segCheck 2047 = none ∧
    let u := uWord 0 { tileOf .full with seg := { openSeg with sig := 1 } }
    u.ctile.seg.opened = true ∧ u.ctile.seg.elastic = true ∧ u.ctile.signature ≠ u.ctile.seg.sig :=
  ⟨rfl, prompt_u _ _ rfl rfl, rfl, by decide, by decide +kernel, rfl, rfl, by decide +kernel⟩
/-- Each check of SEG that fails: the cycles of a timed segment, a PENDING shadow, an empty header, a write set that meets a read set. -/
theorem wit_OpenSegment_checks :
    (let u := uWord 0 { tileOf .full with seg := { openSeg with elastic := false, cycles := 4 } }
     u.prompt ∧ u.ctile.flights = [] ∧ u.stopAsked 0 = false ∧ u.ctile.seg.opened = true ∧ u.ctile.seg.elastic = false ∧ (u.now - u.ctile.segcyc) % 2 ^ 48 ≠ u.ctile.seg.cycles) ∧
    (let u := uWord 0 { headTile with sh1 := { st := .pending } }
     u.prompt ∧ u.stopAsked 2047 = false ∧ u.colophon = none ∧ u.ctile.sh1.st = .pending) ∧
    (let u := uWord 0 {}
     u.prompt ∧ u.stopAsked 0 = false ∧ u.colophon = none ∧ u.ctile.shadowPending = false ∧ u.ctile.hdrOk 0 = false) ∧
    (let u := uWord 0 { store := [(32 * 2047, 0x101), (32 * 2047 + 4, 2), (32 * 2047 + 6, 2)] }
     u.prompt ∧ u.stopAsked 2047 = false ∧ u.colophon = none ∧ u.ctile.shadowPending = false ∧ u.ctile.hdrOk 2047 = true ∧
     ∃ b, setsBad u.decl (!(u.ctile.hdr 2047 0).testBit 0) (u.ctile.hdrRset 2047) (u.ctile.hdrWset 2047) = some b) :=
  ⟨⟨prompt_u _ _ rfl rfl, rfl, by decide, rfl, rfl, by decide⟩, ⟨prompt_u _ _ rfl rfl, by decide, rfl, rfl⟩,
   ⟨prompt_u _ _ rfl rfl, by decide, rfl, rfl, by decide +kernel⟩, ⟨prompt_u _ _ rfl rfl, by decide, rfl, rfl, by decide +kernel, ⟨1, by decide +kernel⟩⟩⟩
/-- An uncorrectable error in the header's last word. -/
theorem wit_OpenSegment_poison : let u := uWord 0 { headTile with ecc := [(eccKey 4 (128 * 2047 + 120), 2)] }
    u.prompt ∧ u.ctile.flights = [] ∧ u.stopAsked 2047 = false ∧ u.colophon = none ∧ u.ctile.shadowPending = false ∧ u.ctile.bad 4 (128 * 2047) 128 = true ∧ headTile.ecc = [] :=
  ⟨prompt_u _ _ rfl rfl, rfl, by decide, rfl, rfl, by decide, rfl⟩
theorem wit_EndOfRegion : let s := uWord 0 headTile
    s.clocked = true ∧ s.prompt ∧ s.region.cutReq = false ∧ (∀ e, 1 ≤ e → e ≤ 5 → (s.ctile.eng e).st = .stopped) ∧ s.colophon = none ∧
    s.ctile.shadowPending = false ∧ ∀ i, i < 30 → Store.get 0 i s.ctile.tokens = 0 :=
  ⟨rfl, prompt_u _ _ rfl rfl, rfl, fun _ _ _ => rfl, rfl, rfl, fun _ _ => rfl⟩
/-- REND at its cut, and each check that fails: the cycles of a timed segment, the signature of an elastic one, a PENDING shadow, the last FIFO. -/
theorem wit_EndOfRegion_checks :
    (let u := uWord 0 (tileOf .full) { run1 with cutReq := true }
     u.clocked = true ∧ u.prompt ∧ u.region.cutReq = true) ∧
    (let u := uWord 0 { tileOf .full with seg := { openSeg with elastic := false, cycles := 4 } }
     u.prompt ∧ u.ctile.seg.opened = true ∧ u.ctile.seg.elastic = false ∧ (u.now - u.ctile.segcyc) % 2 ^ 48 ≠ u.ctile.seg.cycles) ∧
    (let u := uWord 0 { tileOf .full with seg := { openSeg with sig := 1 } }
     u.prompt ∧ u.ctile.seg.opened = true ∧ u.ctile.seg.elastic = true ∧ u.ctile.signature ≠ u.ctile.seg.sig) ∧
    (let u := uWord 0 { headTile with sh1 := { st := .pending } }
     u.prompt ∧ u.colophon = none ∧ u.ctile.sh1.st = .pending) ∧
    (let u := uWord 0 { headTile with tokens := [(29, 1)] }
     u.prompt ∧ u.colophon = none ∧ u.ctile.shadowPending = false ∧ Store.get 0 29 u.ctile.tokens ≠ 0 ∧ ∀ j, j < 29 → Store.get 0 j u.ctile.tokens = 0) :=
  ⟨⟨rfl, prompt_u _ _ rfl rfl, rfl⟩, ⟨prompt_u _ _ rfl rfl, rfl, rfl, by decide⟩, ⟨prompt_u _ _ rfl rfl, rfl, rfl, by decide +kernel⟩,
   ⟨prompt_u _ _ rfl rfl, rfl, rfl⟩, ⟨prompt_u _ _ rfl rfl, rfl, rfl, by decide, by decide⟩⟩
theorem wit_FenceAndShadow : let s := uWord 0 { tileOf .full with sh1 := { st := .pending, partner := 3 } }
    s.clocked = true ∧ s.prompt ∧ s.ctile.quietOf 63 = true ∧ s.ctile.performed 63 = true ∧ s.ctile.accQuiet 5 = true ∧ s.ctile.accQuiet 4 = true ∧
    (s.ctile.shadow 5).st = .pending ∧ (s.ctile.shadow 4).st = .empty ∧
    (let u := uWord 0 { tileOf .full with sh0 := { st := .committed, partner := 3 } }
     u.prompt ∧ u.ctile.accQuiet 4 = true ∧ (u.ctile.shadow 4).st = .committed) :=
  ⟨rfl, prompt_u _ _ rfl rfl, rfl, rfl, rfl, rfl, rfl, rfl, prompt_u _ _ rfl rfl, rfl, rfl⟩
theorem wit_ColophonAndStamp : (uWord 5 (tileOf .full)).clocked = true ∧ (uWord 0 (tileOf .full)).prompt ∧ (uWord 5 (tileOf .full)).ceng.stamp = none ∧
    (uWord 5 { tileOf .full with engs := [(5, { stamp := some { seg := true, time := 9, raw := 1, step := 0 } })] }).ceng.stamp ≠ none :=
  ⟨rfl, prompt_u _ _ rfl rfl, rfl, by decide⟩
theorem wit_ReadSystem : (uWord 0 (tileOf .full)).prompt ∧ (uWord 0 (tileOf .full)).atU = true ∧ (∃ v, uRegister (uWord 0 (tileOf .full)) 0x11F = some v) ∧
    (∃ v, uRegister (uWord 0 (tileOf .full)) 0x000 = some v) ∧ uRegister (uWord 0 (tileOf .full)) 0x7FF = none ∧ uRegister (uWord 0 (tileOf .full)) 0x0FF = none ∧
    coreReserved 0x120 ∧ coreReserved 0x7FF ∧ (cWord {}).handleNode 2 = none ∧ ({ cWord {} with nodes := [{ vif := 0, lid := 0, st := .running }] } : State).handleNode 0 = some { vif := 0, lid := 0, st := .running } ∧
    (cWord {}).prompt ∧ (cWord {}).atU = false ∧ (∃ v, coreRegister (cWord {}) 0x800 = some v) ∧ (∃ v, coreRegister (cWord {}) 0x878 = some v) ∧
    (cWord {}).evq = [] ∧ ∃ e r, ({ cWord {} with evq := [⟨1, 0, 0⟩] } : State).evq = e :: r :=
  ⟨prompt_u _ _ rfl rfl, rfl, ⟨_, rfl⟩, ⟨_, rfl⟩, rfl, rfl, .inr (.inl (by decide)), .inr (.inl (by decide)), rfl, rfl, prompt_c _, rfl, ⟨_, rfl⟩, ⟨_, rfl⟩, rfl, ⟨_, _, rfl⟩⟩
theorem wit_WriteSystem : (uWord 0 (tileOf .full)).prompt ∧ (uWord 0 (tileOf .full)).atU = true ∧ (0x7FF ≠ 0x014 ∧ 0x7FF < 0x800 ∧ 0x7FF ≠ 0x20 ∧ 0x7FF ≠ 0x21) ∧
    (cWord {}).prompt ∧ (cWord {}).atU = false ∧ plainBits 0x81F = some 0xFFFF ∧ plainBits 0x800 = some 0xFFFF ∧ plainBits 0x875 = some 0x7FF ∧
    0x878 ∈ [0x802, 0x805, 0x822, 0x851, 0x85C, 0x861, 0x870, 0x872, 0x874, 0x877, 0x878] :=
  ⟨prompt_u _ _ rfl rfl, rfl, by decide, prompt_c _, rfl, rfl, rfl, rfl, by decide⟩
/-- A unit register of each kind: an effect of its own, a job to reach with SNAREA, a queue and a channel whose writes wait for no walk. -/
theorem wit_WriteSystem_units : let s := cWord {}
    let d := cWord { g := [(1, 1), (2, BitVec.ofNat 64 (2 ^ 63)), (3, BitVec.ofNat 64 (2 ^ 63 + 2 ^ 56))] }
    (∀ r, r ∈ [0x800, 0x80A, 0x81F, 0x842, 0x845, 0x850, 0x852, 0x853, 0x85B, 0x869, 0x876] → (unitWritten s 1 r).isSome = true) ∧
    s.handleNode s.snsel = none ∧ (d.vifOf d.vifsel).en = false ∧ d.phase < 2 ∧ d.sysWait 0x841 (d.rdG 0) = none ∧ d.sysWait 0x841 (d.rdG 1) = none ∧
    d.sysWait 0x859 (d.rdG 0) = none ∧ d.sysWait 0x859 (d.rdG 2) = none ∧ ((d.bounce d.bcsel).world = 0) :=
  ⟨by decide +kernel, by decide +kernel, rfl, by decide, by decide +kernel, by decide +kernel, by decide +kernel, by decide +kernel, by decide +kernel⟩
theorem wit_Time : (uWord 0 (tileOf .full)).prompt ∧ (cWord {}).prompt := ⟨prompt_u _ _ rfl rfl, prompt_c _⟩
/-- A frozen region of two tiles, both in their handler. -/
def handlers : State :=
  let x : Tile := { hflag := true, hreplay := true, tret := 0x8000000000000007 }
  { State.reset with tiles := [(0, x), (1, x)], slots := [(0, { run1 with st := .frozen, w := 2, handler := true })], cur := { agent := .region 0 } }
theorem wit_TrapAndReturn : (uWord 0 (tileOf .full)).prompt ∧ (uWord 0 (tileOf .full)).clocked = true ∧ (uWord 0 (tileOf .full)).ctile.trapNow = none ∧
    (cWord {}).prompt ∧ (cWord {}).atU = false ∧ (cWord {}).ccore.inTrap = false ∧ handlers.inHandler = true ∧ handlers.prompt ∧
    ({ handlers with slots := [(0, { run1 with st := .frozen, w := 2, handler := true, hfault := true })] } : State).region.hfault = true ∧
    ∃ k, k < handlers.region.count ∧ k ≠ handlers.cur.tile ∧ handlers.region.phys k ≠ handlers.here ∧ (handlers.tileAt handlers.slotNo k).hflag = true :=
  ⟨prompt_u _ _ rfl rfl, rfl, rfl, prompt_c _, rfl, rfl, by decide,
    ⟨fun h => Bool.noConfusion (show false = true from h), fun _ => ⟨by decide, fun _ => Nat.zero_le _⟩⟩, rfl, ⟨1, by decide⟩⟩
/-- The last handler of a freeze: its record, its segment, and the job's snapshot. -/
def lastHandler (x : Tile) (sn : List (Nat × Snap)) : State :=
  { State.reset with
    tiles := [(0, { x with hflag := true, inFreeze := true, again := 1 }), (1, {})], slots := [(0, { run1 with st := .frozen, w := 2, handler := true })], snaps := sn
    cur := { agent := .region 0 } }
/-- A replay that is asked for, with and without an entry record; BREAK alone, with and without a rollback that waits; OVERRUN. -/
theorem wit_TrapAndReturn_last : ∀ s, s ∈ [lastHandler { tret := 2 ^ 63, seg := { opened := true }, sram := [(Config.stowBase + 0x92F0, 1)] } [], lastHandler { tret := 2 ^ 63 } [],
      lastHandler { tcause := BitVec.ofNat 64 Cause.brk.code } [], lastHandler { tcause := BitVec.ofNat 64 Cause.brk.code } [(0, { st := .rolling })],
      lastHandler { tcause := BitVec.ofNat 64 Cause.overrun.code } []] →
    s.inHandler = true ∧ s.prompt ∧ s.region.hfault = false ∧ s.cur.tile < s.region.count ∧ s.region.phys 0 ≠ s.region.phys 1 ∧ s.region.count = 2 ∧ s.cur.tile = 0 ∧
    (s.tileAt s.slotNo 1).hflag = false ∧ (s.tileAt s.slotNo 0).inFreeze = true := by
  intro s hs
  simp only [List.mem_cons, List.not_mem_nil, or_false] at hs
  rcases hs with rfl | rfl | rfl | rfl | rfl <;>
    exact ⟨by decide, ⟨fun q => Bool.noConfusion (show false = true from q), fun _ => ⟨by decide, fun _ => Nat.zero_le _⟩⟩, rfl, by decide, by decide, rfl, rfl, rfl, rfl⟩
/-- The replay that is asked for can be done; the other tile's ERET, not its register now, asks for one; a core in its trap path. -/
theorem wit_TrapAndReturn_replay : let s := lastHandler { tret := 2 ^ 63, seg := { opened := true }, sram := [(Config.stowBase + 0x92F0, 1)] } []
    let u : State := { s with slots := [(0, { run1 with st := .frozen, handler := true })] }
    u.replayOk 0 = true ∧ s.replayOk 0 = false ∧ (s.ctile.tret.getLsbD 63) = true ∧
    (let v := lastHandler { tcause := 17 } []
     let w : State := { v with tiles := [v.tiles.headD (0, {}), (1, { inFreeze := true, hreplay := true })] }
     w.inHandler = true ∧ (w.tileAt 0 1).inFreeze = true ∧ (if (1 : Nat) = w.cur.tile then w.ctile.tret.getLsbD 63 else (w.tileAt 0 1).hreplay) = true) ∧
    (cWord { inTrap := true }).prompt ∧ (cWord { inTrap := true }).cur.agent = .core 0 ∧ (cWord { inTrap := true }).ccore.inTrap = true :=
  ⟨by decide +kernel, by decide +kernel, by decide +kernel, ⟨by decide, rfl, by decide⟩, prompt_c _, rfl, rfl⟩
theorem wit_NopAndHalt : (uWord 0 (tileOf .full)).prompt ∧ (uWord 0 (tileOf .full)).clocked = true ∧
    ({ State.reset with cur := { agent := .core 15 } } : State).cur.agent = .core 15 ∧ (State.reset.core 15).pending = false :=
  ⟨prompt_u _ _ rfl rfl, rfl, rfl, by decide⟩
theorem wit_SystemMemory : let s := cWord { g := [(31, BitVec.ofNat 64 (2 ^ 63 + Config.potBase)), (30, 2 ^ 63 + 4096)] }
    s.atU = false ∧ (s.rdG 31 + BitVec.ofInt 64 (8 * (-1))).toNat = 2 ^ 63 + (Config.potBase - 8) ∧ (Config.potBase - 8) % 8 = 0 ∧
    Config.potBase - 8 < Config.potBase ∧ s.poison = [] ∧ (s.potOf ((Config.potBase - 8) / 4096)).world = 0 ∧
    (∀ n, s.cur.agent = .walker n → (s.walker n).inTrap = false) ∧ s.snaps = [] ∧
    let u : State := { s with pot := [(0, { st := .assigned, world := 63 })] }
    u.cur.agent = .core 0 ∧ (u.rdG 30 + BitVec.ofInt 64 (8 * (-1))).toNat = 2 ^ 63 + 4088 ∧ (u.potOf (4088 / 4096)).world ≠ 0 ∧ (u.core 0).walking = false :=
  ⟨rfl, by decide, by decide, by decide, rfl, by decide, fun _ _ => rfl, rfl, rfl, by decide +kernel, by decide +kernel, rfl⟩

/-- A region of job 0 that runs, and a word of a core beside it; the job's area stands at 2 MiB, and its last catalogue entry holds checkpoint 1, committed. -/
def jobWord (id : Word) : State :=
  { cWord { g := [(1, id)] } with
    nodes := [{ vif := 0, lid := 0, st := .running }], slots := [(0, run1)], snaps := [(0, { area := 2 ^ 21 })],
    mem := [(2 ^ 21 + 0x500, 0x01), (2 ^ 21 + 0x507, 0x90)] }
theorem startable_u (s : State) (hs : s.slots = [(0, run1)]) (hk : s.snaps = [(0, { area := 2 ^ 21 })]) (hb : s.nextSnapped 0 = none) : Startable s 0 where
  idle := by rw [State.snap, hk]; rfl
  bufs := fun n h => by
    rw [show s.slotsOf 0 = [0] by rw [State.slotsOf, hs]; rfl, List.mem_singleton] at h
    rw [h, State.slot, hs]
    exact ⟨hb, by decide⟩
  some_ := by rw [State.slotsOf, hs]; decide
theorem wit_LongSystemWords_core : let s := jobWord 2
    s.prompt ∧ s.inHandler = false ∧ ∃ b ph, s.arm 31 1 = some (b, ph) ∧ s.atU = false ∧ s.runningJob (s.rdG 0).toNat = some 0 ∧ s.poison = [] ∧
      (s.rdG 1).toNat % 2 ^ 32 ≠ 0 ∧ Startable s 0 ∧ s.catFind 0 ((s.rdG 1).toNat % 2 ^ 32) = none ∧ s.area 0 ≠ 0 ∧ s.areaU 0 0 8 = 0 / 64 ∧
      (jobWord 1).catFind 0 (((jobWord 1).rdG 1).toNat % 2 ^ 32) ≠ none ∧ (cWord {}).runningJob ((cWord {}).rdG 0).toNat = none :=
  ⟨⟨fun h => Bool.noConfusion (show false = true from h), fun h => Bool.noConfusion (show false = true from h)⟩, rfl, _, _, rfl, rfl, by decide, rfl, by decide, startable_u _ rfl rfl (by decide), by decide, by decide, by decide,
    by decide, by decide⟩
theorem wit_LongSystemWords_region : let s : State := { uWord 0 { tileOf .full with g := [(1, 1)] } { run1 with snapok := true } with snaps := [(0, { area := 2 ^ 21 })] }
    s.prompt ∧ s.clocked = true ∧ ∃ b ph, s.arm 31 1 = some (b, ph) ∧ s.inHandler = false ∧ s.region.snapok = true ∧ s.region.job = 0 ∧
      (s.snap 0).st = .idle ∧ s.catFind 0 ((s.rdG 1).toNat % 2 ^ 32) = none ∧ s.areaU 0 0 8 = 0 / 64 ∧ (uWord 0 (tileOf .full)).region.snapok = false :=
  ⟨⟨fun _ => ⟨rfl, by decide, fun _ => Nat.zero_le _⟩, fun h => Bool.noConfusion (show false = true from h)⟩, rfl, _, _, rfl, rfl, rfl, by decide, rfl, by decide, by decide, rfl⟩
theorem wit_LongSystemWords_rollback : let s := jobWord 1
    (∃ b ph, s.arm 31 1 = some (b, ph)) ∧ s.runningJob (s.rdG 0).toNat = some 0 ∧ (s.snap 0).st = .idle ∧ s.inbox = [] ∧ someRuns s 0 ∧ s.area 0 ≠ 0 ∧ 16 ∈ s.committed 0 ∧
      s.catId 0 16 = (s.rdG 1).toNat % 2 ^ 32 ∧ ∀ i, i ∈ (jobWord 2).committed 0 → (jobWord 2).catId 0 i ≠ ((jobWord 2).rdG 1).toNat % 2 ^ 32 :=
  ⟨⟨_, _, rfl⟩, by decide, by decide, rfl, ⟨0, by decide, rfl, rfl, rfl⟩, by decide, by decide, by decide, by decide⟩
theorem wit_LongSystemWords_keys : let s := jobWord 63
    ∃ b ph, s.arm 31 1 = some (b, ph) ∧ s.atU = false ∧ 1 ≤ (s.rdG 1).toNat ∧ (s.rdG 1).toNat ≤ 63 ∧ b.worldBusy (s.rdG 1).toNat = false ∧
      64 ≤ ((jobWord 64).rdG 1).toNat ∧ ((jobWord 0).rdG 1).toNat = 0 :=
  ⟨_, _, rfl, rfl, by decide, by decide, by decide, by decide, by decide⟩
theorem wit_FormatAndNest : let s := uWord 0 { tileOf .full with tokens := [(fifo 5 0, 1)] }
    let c : Ctl := ⟨3, 0, 5⟩
    s.clocked = true ∧ s.prompt ∧ s.img.mxn = true ∧ c.legal 0 = true ∧ c.gap = 0 ∧ c.pops = true ∧ c.pushes = true ∧ s.ctile.token 5 0 ≠ 0 ∧
    entLegal ((s.rdG 0).toNat % 2 ^ 32) = true ∧ s.fmtBarred ((s.rdG 0).toNat % 2 ^ 32) = false ∧ nestOk 6 (s.rdG 0).toNat = true :=
  ⟨rfl, prompt_u _ _ rfl rfl, rfl, by decide, rfl, by decide, by decide, by decide, by decide, by decide, by decide⟩

/-! ## VX -/

/-- An order of an engine on a tile that has issued nothing is due in cycle 5. -/
theorem due_u (e : Nat) (x : Tile) (r : Slot) (c : Ctl) (hc : c.legal e = true) (hp : c.pops = false) (hg : c.gap ≤ 4)
    (h : (uWord e x r).ctile.engs = []) (hr : (uWord e x r).now = 5) (ht : (uWord e x r).ctile.timed = false) (hf : (uWord e x r).ctile.flights = []) : Due (uWord e x r) c := by
  have he : (uWord e x r).ceng = {} := by
    rw [State.ceng, Tile.eng, h]; rfl
  have hd : (uWord e x r).dueAt c = 0 + 1 + c.gap := by rw [State.dueAt, he]
  refine ⟨rfl, hc, by rw [he], by rw [hd, hr]; omega, fun q => ?_, by rw [he, hr]; decide, fun q => ?_, by rw [Tile.redoing, hf]; rfl⟩
  · rw [ht] at q; exact Bool.noConfusion q
  · rw [hp] at q; exact Bool.noConfusion q
theorem ctile_u (e : Nat) (x : Tile) : (uWord e x).ctile = x := by
  simp [State.ctile, State.here, State.region, State.slotNo, uWord, State.slot, State.tile, Store.get, Slot.phys, run1, placeXY, bits, Config.gridW]
theorem vx_u (x : Tile) (c : Ctl) (hc : c.legal 3 = true) (hp : c.pops = false) (hg : c.gap ≤ 4) (h : x.engs = []) (hs : x.sb = [])
    (ht : x.timed = false) (hf : x.flights = [] := by rfl) : VxReady (uWord 3 x) c :=
  ⟨due_u 3 x run1 c hc hp hg (by rw [ctile_u]; exact h) rfl (by rw [ctile_u]; exact ht) (by rw [ctile_u]; exact hf), fun k => by
    rw [ctile_u, Tile.ready, hs]; exact Nat.zero_le _⟩
/-- No token, and GAP 4: due in the very cycle. -/
def c4 : Ctl := ⟨0, 4, 0⟩
def vxTile : Tile := { tileOf .full with v := [(1, 3), (2, 2 ^ 62 - 1), (3, 2)], q := [(7, { valid := true, q := 2 ^ 62 - 57 })] }
theorem vx_4 : VxReady (uWord 3 vxTile) c4 := vx_u _ _ (by decide) (by decide) (by decide) rfl rfl rfl
/-- A pop of a token from engine 5 that stands there. -/
theorem wit_VxReady_token : VxReady (uWord 3 { vxTile with tokens := [(fifo 5 3, 1)] }) ⟨3, 0, 5⟩ :=
  ⟨⟨rfl, by decide, rfl, by decide, fun h => Bool.noConfusion (show false = true from h), by decide, fun _ => by decide, rfl⟩, fun _ => Nat.zero_le _⟩
/-- The same position with VXALL = 0 and no MX; mask 7 has bit 0 alone. -/
def narrow (x : Tile) : State := uWord 3 { x with k := [(7, 1)] } { run1 with imgs := run1.imgs.map (fun i => (i.1, { i.2 with mask := 60 })) }
theorem vx_n : VxReady (narrow vxTile) c4 :=
  ⟨⟨rfl, by decide, rfl, by decide, fun h => Bool.noConfusion (show false = true from h), by decide, fun h => Bool.noConfusion (show false = true from h), rfl⟩,
    fun _ => Nat.zero_le _⟩
/-- Lanes below bit 2,048 fit there, and the last lane does not. -/
theorem wit_Fits : Fits (narrow vxTile) 64 (activeLanes (narrow vxTile) 17 7) ∧ Fits (narrow vxTile) 16 [127] ∧ ¬ Fits (narrow vxTile) 16 [128] ∧
    ∀ l, Fits (uWord 3 vxTile) 64 l := ⟨.inr (by decide +kernel), .inr (by decide), by unfold Fits; decide, fun _ => .inl rfl⟩
theorem no_effs {s : State} (h : s.ctile.effs = []) (e b a n : Nat) : Clear s e b a n := fun _ _ _ _ m => by
  rw [h] at m
  cases m

theorem wit_VectorLanes :
    (∃ o, vectorArith (.vfma c4 ⟨63, 62, 61, 17, 7, 0, 0, 60, 1, 0⟩) = some o ∧ VxReady (uWord 3 vxTile) o.c ∧ o.fits (uWord 3 vxTile) ∧ o.fits (narrow vxTile)) ∧
    (Instr.vfma c4 ⟨63, 62, 61, 17, 7, 0, 0, 60, 1, 0⟩).wf = true ∧
    (∃ o, vectorBits (.vperm c4 ⟨63, 62, 61, 1, 0, 0, 0, 0, 0, 0⟩) = some o ∧ VxReady (uWord 3 vxTile) o.c ∧ o.fits (uWord 3 vxTile) ∧
      VxReady (narrow vxTile) o.c ∧ ¬ o.fits (narrow vxTile)) ∧
    (Instr.vperm c4 ⟨63, 62, 61, 1, 0, 0, 0, 0, 0, 0⟩).wf = true :=
  ⟨⟨_, rfl, vx_4, .inl rfl, .inr (by decide +kernel)⟩, by decide, ⟨_, rfl, vx_4, .inl rfl, vx_n, by unfold LaneOp.fits Fits; decide +kernel⟩, by decide⟩
theorem wit_VectorModular :
    (∃ o, vectorModular (.vmulm c4 ⟨63, 62, 61, 18, 0, 7, 0, 0, 0, 0⟩) = some (o, 7) ∧ VxReady (uWord 3 vxTile) o.c ∧ o.fits (uWord 3 vxTile) ∧
      VxReady (narrow vxTile) o.c ∧ ¬ o.fits (narrow vxTile)) ∧
    (Instr.vmulm c4 ⟨63, 62, 61, 18, 0, 7, 0, 0, 0, 0⟩).wf = true ∧ ((uWord 3 vxTile).rdQ 7).valid = true ∧ 0 < ((uWord 3 vxTile).rdQ 7).q ∧
    ((uWord 3 vxTile).rdQ 0).valid = false ∧ (Instr.vntt c4 ⟨63, 62, 0, 18, 0, 0, 0, 61, 5, 0⟩).wf = true :=
  ⟨⟨_, rfl, vx_4, .inl rfl, vx_n, by unfold LaneOp.fits Fits; decide +kernel⟩, by decide, rfl, by decide, rfl, by decide⟩
theorem wit_CompareSelect : VxReady (uWord 3 vxTile) c4 ∧ (uWord 3 vxTile).img.vxall = true ∧ (Instr.vcmp c4 ⟨7, 63, 62, 0, 7, 0, 0, 0, 7, 0⟩).wf = true ∧
    (Instr.vsel c4 ⟨63, 62, 61, 18, 7, 0, 0, 0, 0, 0⟩).wf = true ∧
    (Instr.vbcast c4 ⟨63, 0, 63, 1, 0, 0, 0, 0, 0, 3⟩).wf = true ∧ 3 * 64 + 63 < laneCount 1 ∧
    (Instr.vbcast c4 ⟨63, 0, 0, 1, 0, 0, 0, 0, 0, 4⟩).wf = true ∧ laneCount 1 ≤ 4 * 64 + 0 ∧
    VxReady (narrow vxTile) c4 ∧ Fits (narrow vxTile) 8 (activeLanes (narrow vxTile) 0 7) ∧ ¬ Fits (narrow vxTile) 64 (List.range (laneCount 18)) ∧
    ¬ Fits (narrow vxTile) 16 [3 * 64 + 63] :=
  ⟨vx_4, rfl, by decide, by decide, by decide, by decide, by decide, by decide, vx_n, .inr (by decide +kernel), by unfold Fits; decide, by unfold Fits; decide⟩
theorem wit_MaskMoves : (∃ m, maskMove (uWord 3 vxTile) (.vmovkNot c4 ⟨7, 7, 0, 0, 0, 0, 0, 0, 3, 0⟩) = some (c4, 7, m)) ∧ VxReady (uWord 3 vxTile) c4 ∧
    (Instr.vmovkNot c4 ⟨7, 7, 0, 0, 0, 0, 0, 0, 3, 0⟩).wf = true ∧ (Instr.vmovkKv c4 ⟨63, 7, 0, 0, 0, 0, 0, 0, 4, 0⟩).wf = true ∧
    (uWord 3 vxTile).img.vxall = true ∧ VxReady (narrow vxTile) c4 ∧ (narrow vxTile).img.vxall = false ∧
    (Instr.vmovkQv c4 ⟨63, 7, 0, 0, 0, 0, 0, 0, 7, 0⟩).wf = true ∧ (Instr.vmovkVq c4 ⟨7, 63, 0, 0, 0, 0, 0, 0, 6, 0⟩).wf = true ∧
    lane (Store.get 0 1 vxTile.v) 64 0 = 3 ∧ lane (Store.get 0 2 vxTile.v) 64 0 = 2 ^ 62 - 1 ∧ lane (Store.get 0 3 vxTile.v) 64 0 = 2 :=
  ⟨⟨_, rfl⟩, vx_4, by decide, by decide, rfl, vx_n, rfl, by decide, by decide, by decide +kernel, by decide +kernel, by decide +kernel⟩
theorem wit_ConvertAndPack : VxReady (uWord 3 vxTile) c4 ∧ (uWord 3 vxTile).img.vxall = true ∧ (Instr.vcvt c4 ⟨63, 62, 0, 3, 7, 4, 1, 18, 7, 0⟩).wf = true ∧
    laneCount 18 ≤ laneCount 3 ∧ (Instr.vcvt c4 ⟨63, 62, 0, 17, 7, 0, 0, 3, 7, 0⟩).wf = true ∧ laneCount 17 < laneCount 3 ∧
    (Instr.vpack c4 ⟨63, 62, 0, 14, 0, 4, 0, 9, 7, 0⟩).wf = true ∧ (Instr.vunpk c4 ⟨63, 62, 0, 0, 0, 4, 0, 5, 2, 0⟩).wf = true ∧
    VxReady (narrow vxTile) c4 ∧ ¬ Fits (narrow vxTile) 32 (List.range 128) :=
  ⟨vx_4, rfl, by decide, by decide, by decide, by decide, by decide, by decide, vx_n, by unfold Fits; decide⟩
theorem wit_Reductions : VxReady (uWord 3 vxTile) c4 ∧ (Instr.vredsum c4 ⟨63, 62, 0, 10, 7, 0, 0, 0, 0, 0⟩).wf = true ∧ isFloat3 10 = false ∧
    (Instr.vredsum c4 ⟨63, 62, 0, 2, 0, 4, 0, 0, 0, 0⟩).wf = true ∧ isFloat3 2 = true ∧ (Instr.vredmax c4 ⟨63, 62, 0, 17, 7, 0, 0, 0, 0, 0⟩).wf = true ∧
    (Instr.vredmax c4 ⟨63, 62, 0, 0, 0, 0, 0, 0, 0, 0⟩).wf = true ∧ (uWord 3 vxTile).img.vxall = true ∧
    VxReady (narrow vxTile) c4 ∧ ¬ Fits (narrow vxTile) 16 ((List.range (laneCount 1)).filter ((narrow vxTile).active 0)) :=
  ⟨vx_4, by decide, by decide, by decide, by decide, by decide, by decide, rfl, vx_n, by unfold Fits; decide +kernel⟩
theorem wit_Transforms : VxReady (uWord 3 vxTile) c4 ∧ ((uWord 3 vxTile).rdQ 7).valid = true ∧ (Instr.vntt c4 ⟨63, 62, 0, 18, 7, 7, 0, 61, 5, 0⟩).wf = true ∧
    (Instr.vintt c4 ⟨62, 61, 60, 18, 7, 7, 0, 59, 6, 0⟩).wf = true ∧ (Instr.vintt c4 ⟨63, 61, 60, 18, 7, 7, 0, 59, 6, 0⟩).wf = true ∧ (uWord 3 vxTile).img.vxall = true ∧ VxReady (narrow vxTile) c4 ∧
    ((narrow vxTile).rdQ 7).valid = true ∧ ¬ Fits (narrow vxTile) 64 ((List.range 64).filter (fun j => (6 = 6 ∨ j / 2 ^ 6 % 2 = 0) ∧ (narrow vxTile).active 0 j = true)) :=
  ⟨vx_4, rfl, by decide, by decide, by decide, rfl, vx_n, rfl, by unfold Fits; decide +kernel⟩

/-- The last 512 bytes of the last buffer. -/
def lastVec (ix : Bool) : VMem := ⟨63, 63, if ix then 62 else 0, 17, 0, 0, if ix then 4095 else 4088⟩
theorem wit_VectorMemory : VxReady (uWord 3 vxTile) c4 ∧ noErrors (uWord 3 vxTile) ∧ (∀ b a n, Clear (uWord 3 vxTile) 3 b a n) ∧ (uWord 3 vxTile).img.vxall = true ∧
    (∀ ix : Bool, (if ix then Instr.vldx c4 (lastVec ix) else .vld c4 (lastVec ix)).wf = true ∧ (if ix then Instr.vstx c4 (lastVec ix) else .vst c4 (lastVec ix)).wf = true ∧
      (∀ j, j ∈ activeLanes (uWord 3 vxTile) 17 0 → readFault (uWord 3 vxTile) 3 63 (VMemOff (uWord 3 vxTile) (lastVec ix) ix j) 8 = none) ∧
      ∀ j, j ∈ activeLanes (uWord 3 vxTile) 17 0 → writeFault (uWord 3 vxTile) 3 63 (VMemOff (uWord 3 vxTile) (lastVec ix) ix j) 8 = none) ∧
    VxReady (narrow vxTile) c4 ∧ noErrors (narrow vxTile) ∧ (∀ b a n, Clear (narrow vxTile) 3 b a n) ∧ ¬ Fits (narrow vxTile) 64 (activeLanes (narrow vxTile) 17 0) :=
  ⟨vx_4, rfl, no_effs rfl 3, rfl, fun ix => by cases ix <;> decide +kernel, vx_n, rfl, no_effs rfl 3, by unfold Fits; decide +kernel⟩
/-- Eight lanes lie in the buffer, and the ninth ends past it. -/
theorem wit_VectorMemory_fault : let s := uWord 3 vxTile
    let m : VMem := ⟨63, 63, 0, 17, 0, 0, 4095⟩
    activeLanes s 17 0 = List.range 8 ++ 8 :: List.range' 9 55 ∧ (Instr.vst c4 m).wf = true ∧
    (∀ k, k ∈ List.range 8 → readFault s 3 63 (VMemOff s m false k) 8 = none ∧ writeFault s 3 63 (VMemOff s m false k) 8 = none) ∧
    readFault s 3 63 (VMemOff s m false 8) 8 = some .bufstate ∧ writeFault s 3 63 (VMemOff s m false 8) 8 = some .bufstate :=
  ⟨by decide +kernel, by decide, by decide +kernel, by decide +kernel, by decide +kernel⟩
/-- A pattern of one 16-bit field in each 128 bits, at the last place of the last buffer. -/
def bfxTile : Tile := { vxTile with bfxV := 0x0000F000 * 2 ^ 64 + 0x180, k := [(7, 1)], sram := [(64 * 4096 + 262072, 0x80), (64 * 4096 + 262073, 1), (64 * 4096 + 262081, 0xF0)] }
theorem wit_BitFields : let s := uWord 3 bfxTile
    let p : BitVec 576 := BitVec.ofNat 576 (leNat ((List.range 72).map (fun k => Store.get 0 (64 * 4096 + 262072 + k) s.ctile.sram)))
    VxReady s c4 ∧ noErrors s ∧ (Instr.bfxcfg c4 ⟨0, 63, 0, 0, 0, 0, 262072⟩).wf = true ∧ (Instr.bfxcfg c4 ⟨0, 63, 0, 1, 0, 1, 262072⟩).wf = true ∧
    (∀ b a n, Clear s 3 b a n) ∧ s.img.vxall = true ∧ (∀ k, k < 9 → readFault s 3 63 (262072 + 8 * k) 8 = none) ∧ bfxOk p = true ∧ slotType 1 = true ∧
    bfxWidest p ≤ elemBits 1 ∧ (Instr.vbfx c4 ⟨63, 63, 0, 0, 7, 0, 262142⟩).wf = true ∧ bfxPeriod s.ctile.bfxV ≠ 0 ∧
    ∀ k, k ∈ ((List.range 256).filter (s.active 7)).flatMap (bfxBytes s.ctile.bfxV) → readFault s 3 63 (262142 + k) 1 = none :=
  ⟨vx_u _ _ (by decide) (by decide) (by decide) rfl rfl rfl, rfl, by decide, by decide, no_effs rfl 3, rfl, by decide +kernel, by decide +kernel, by decide,
    by decide +kernel, by decide, by decide +kernel, by decide +kernel⟩
/-- A pattern of zeros is malformed; a word past the buffer's end; a byte past it; with VXALL = 0 lane 255 does not fit. -/
theorem wit_BitFields_traps : let s := uWord 3 vxTile
    bfxOk 0 = false ∧ List.range 9 = [0] ++ 1 :: List.range' 2 7 ∧ readFault s 3 63 262136 8 = none ∧ readFault s 3 63 262144 8 = some .bufstate ∧
    bfxPeriod s.ctile.bfxV = 0 ∧ bfxBytes (uWord 3 bfxTile).ctile.bfxV 0 = [0, 1] ∧ readFault s 3 63 (262143 + 0) 1 = none ∧ readFault s 3 63 (262143 + 1) 1 = some .bufstate ∧
    ¬ Fits (narrow vxTile) 16 ((List.range 256).filter ((narrow vxTile).active 0)) :=
  ⟨by decide +kernel, by decide, by decide, by decide, by decide +kernel, by decide +kernel, by decide, by decide, by unfold Fits; decide +kernel⟩
theorem wit_AccumulatorReadSeed : let s := uWord 3 { vxTile with sh1 := { st := .committed } }
    let u := uWord 3 { vxTile with sh1 := { st := .pending } }
    VxReady s c4 ∧ noErrors s ∧ (Instr.vacc c4 ⟨63, 5, 127, 1, 18, 7, 0, 0, 2⟩).wf = true ∧ s.img.mxn = true ∧ s.img.vxall = true ∧ s.ctile.accQuiet 5 = true ∧
    (128 * 127 + 64 * 1) % laneCount 18 = 0 ∧ (s.ctile.shadow 5).st ≠ .pending ∧ (Instr.vseed c4 ⟨0, 63, 0, 0, 0, 0, 0, 0, 0, 0⟩).wf = true ∧
    VxReady u c4 ∧ u.img.mxn = true ∧ u.img.vxall = true ∧ (u.ctile.shadow 5).st = .pending ∧
    VxReady (narrow vxTile) c4 ∧ noErrors (narrow vxTile) ∧ (narrow vxTile).img.mxn = false ∧ (128 * 0 + 64 * 1) % laneCount 0 ≠ 0 :=
  ⟨vx_u _ _ (by decide) (by decide) (by decide) rfl rfl rfl, rfl, by decide, rfl, rfl, rfl, by decide, by decide, by decide,
    vx_u _ _ (by decide) (by decide) (by decide) rfl rfl rfl, rfl, rfl, by decide, vx_n, rfl, by decide, by decide⟩
theorem wit_RankCoding : let s := uWord 3 vxTile
    VxReady s c4 ∧ noErrors s ∧ (∀ b a n, Clear s 3 b a n) ∧ s.img.vxall = true ∧
    (Instr.rank c4 ⟨63, 32, 63, 0, 0, 0, 255, 0⟩).wf = true ∧ 32 + ceilDiv (64 * (63 + 1)) (laneCount 0) ≤ 64 ∧
    (Instr.rank c4 ⟨63, 62, 7, 1, 7, 0, 255, 0⟩).wf = true ∧ 64 * (7 + 1) ≤ 512 ∧ 62 + ceilDiv (64 * (7 + 1)) (laneCount 1) ≤ 64 ∧
    (Instr.rank c4 ⟨63, 63, 7, 1, 0, 1, 255, 261120⟩).wf = true ∧ (∀ i, i ∈ List.range (64 * (7 + 1)) → readFault s 3 63 (261120 + i * 2) 2 = none) ∧
    readFault s 3 63 (261122 + 511 * 2) 2 = some .bufstate ∧ (Instr.rkval c4 ⟨48, 0, 1, 1, 7, 15, 255⟩).wf = true ∧ 48 + 15 + 1 ≤ 64 ∧
    (Instr.rkval c4 ⟨49, 0, 1, 1, 7, 15, 255⟩).wf = true ∧ ¬ 49 + 15 + 1 ≤ 64 ∧
    VxReady (narrow vxTile) c4 ∧ (narrow vxTile).img.vxall = false ∧ ¬ Fits (narrow vxTile) 16 (List.range 256) :=
  ⟨vx_4, rfl, no_effs rfl 3, rfl, by decide, by decide, by decide, by decide, by decide, by decide, by decide +kernel, by decide, by decide, by decide, by decide,
    by decide, vx_n, rfl, by unfold Fits; decide +kernel⟩

/-! ## CI, CO and NX -/

/-- A record of .n64 elements: boxes of 2 along one dimension of 128, with stride 8, from 4,096 on. -/
def rec0 : List Byte :=
  leBytes 4 0x8901 ++ leBytes 4 0 ++ leBytes 8 4096 ++ leBytes 8 (8 + 2 * 2 ^ 48) ++ leBytes 8 (128 * 2 ^ 32) ++ List.replicate 160 0
theorem rec0_ok : recOk rec0 = true := by decide +kernel
/-- A tile with that record cached for handle 4,095 and slot 15 claimed. -/
def mvTile (st : BufSt) : Tile := { tileOf st with cache := [(63, { valid := true, va := 192 * 4095, data := rec0 })], claim := 2 ^ 15 }
theorem mv_u (e : Nat) (x : Tile) (c : Ctl) (hs : List Nat) (el : Bool) (hd : Due (uWord e x) c) (h : x.flights = []) (hc : x.cmds = [])
    (hh : ∀ h, h ∈ hs → h = 4095) (hx : (x.cached (192 * 4095)).isSome = true) (ht : x.timed = false) : MoveReady (uWord e x) c hs el where
  due := hd
  cached := fun h m => by
    rw [hh h m, ctile_u, show (uWord e x).recVa 4095 = 192 * 4095 by
      simp [State.recVa, State.region, State.slotNo, uWord, State.slot, Store.get, run1]]
    exact hx
  room := by rw [ctile_u, hc]; exact (by decide : 0 < 32)
  clear := fun f m => by rw [ctile_u, h] at m; cases m
  mode := fun _ => by rw [ctile_u]; exact ht
theorem mv_4 (e : Nat) (he : c4.legal e = true) (st : BufSt) (hs : List Nat) (el : Bool) (hh : ∀ h, h ∈ hs → h = 4095) : MoveReady (uWord e (mvTile st)) c4 hs el :=
  mv_u e _ _ _ _ (due_u e _ run1 _ he (by decide) (by decide) (by rw [ctile_u]; rfl)
    (by simp [State.now, State.region, State.slotNo, uWord, State.slot, Store.get, run1]) (by rw [ctile_u]; rfl) (by rw [ctile_u]; rfl)) rfl rfl hh (by cases st <;> decide +kernel) rfl
/-- The page at 4,096 translates to itself for region 0, with every permission; its world is the region's. -/
def identity : Word := 2 ^ 63 + 2 ^ 60 + 2 ^ 58 + 2 ^ 57 + 4096
def mapped (s : State) : State := { s with tlb := [{ ctx := 0, va := 4096, size := 0, pte := identity, ok := true }], pot := [(1, { st := .assigned, world := 0 })] }
theorem mapped_page : (mapped (uWord 1 (tileOf .full))).translate 0 4096 kAtomic = .pa 4096 ∧
    (mapped (uWord 1 (tileOf .full))).translateRange 0 8184 8 kWrite = .ok [(8184, 8)] := by decide +kernel

theorem wit_CopiesIn : let s := uWord 1 (mvTile .empty)
    recordOf s 4095 = rec0 ∧ boxElems rec0 63 ≠ [] ∧ (∃ w, armed s 31 (recBytes rec0) (recBytes rec0 - boxLen (boxElems rec0 63)) w) ∧
    (∀ el, MoveReady s c4 [4095] el) ∧ (∀ el, MoveReady s c4 [4095, 4095] el) ∧ s.landOf 0xFFFFFF = .ok none ∧ s.chkSet 63 (256 * 1023) = none ∧
    (s.ctile.buf 63).cpinOk false = true ∧ ((uWord 1 (mvTile .full)).ctile.buf 63).cpinOk true = true ∧ 256 * 1023 + recBytes rec0 ≤ (s.decl 63).len * 4096 ∧
    s.ctile.claim.testBit 15 = true ∧ s.ctile.filling.testBit 15 = false ∧ recBfx rec0 = false ∧ 256 * 127 + recBytes rec0 ≤ slotBytes :=
  ⟨by decide +kernel, by decide +kernel, ⟨_, _, rfl, rfl⟩, fun el => mv_4 1 (by decide) _ _ el (by simp), fun el => mv_4 1 (by decide) _ _ el (by simp), rfl,
    by decide, by decide, by decide, by decide +kernel, by decide, by decide, by decide +kernel, by decide +kernel⟩
/-- A copy in that lands: a timed segment, and the earliest landing cycle that is legal. -/
theorem wit_CopiesIn_timed : let s := uWord 1 { mvTile .empty with seg := { openSeg with elastic := false } }
    MoveReady s c4 [4095] false ∧ s.landOf 7 = .ok (some 7) :=
  ⟨⟨⟨rfl, by decide, rfl, by decide, fun _ => by decide, by decide, fun h => Bool.noConfusion (show false = true from h), rfl⟩,
    fun h m => by rw [List.mem_singleton.1 m]; decide +kernel, by decide, fun _ m => (by cases m), fun h => Bool.noConfusion h⟩, rfl⟩
/-- A record of 16-bit elements in boxes of 64, with a pattern that keeps one field of 16 bits in each 128. -/
def recP : List Byte :=
  leBytes 4 0x10901 ++ leBytes 4 0 ++ leBytes 8 4096 ++ leBytes 8 (2 + 64 * 2 ^ 48) ++ leBytes 8 (128 * 2 ^ 32) ++ List.replicate 80 0 ++
    leBytes 72 (0x0000F000 * 2 ^ 64 + 0x180) ++ List.replicate 8 0
/-- A box outside the tensor as a whole; no MX order reads the slot; a record with a pattern. -/
theorem wit_CopiesIn_outside : let s := uWord 1 (mvTile .empty)
    boxElems rec0 64 = [] ∧ (∃ w, armed s 31 (recBytes rec0) (recBytes rec0 - boxLen (boxElems rec0 64)) w) ∧ s.ctile.flights = [] ∧
    recOk recP = true ∧ recBfx recP = true ∧ bfxOut (recPat recP) (recType recP) (recBytes recP) = some 16 ∧ boxElems recP 0 ≠ [] ∧ boxElems recP 2 = [] :=
  ⟨by decide +kernel, ⟨_, _, rfl, rfl⟩, rfl, by decide +kernel, by decide +kernel, by decide +kernel, by decide +kernel, by decide +kernel⟩
/-- A tile whose buffer 63 is bound and dirty in its last granule. -/
def boundTile (d : Bool) : Tile := { mvTile .full with bufs := [(63, { st := .full, bound := true, va := 4096 })], dirty := if d then [(127, true)] else [] }
theorem wit_CopiesOut : let s := uWord 2 (mvTile .full)
    noErrors s ∧ (∀ el, MoveReady s c4 [4095] el) ∧ (∀ el, MoveReady s c4 [4095, 4095] el) ∧ s.chkGet 63 (256 * 1023) = none ∧
    (s.ctile.buf 63).cpoutOk = true ∧ 256 * 1023 + recBytes rec0 ≤ (s.decl 63).len * 4096 ∧
    (uWord 2 (boundTile true)).dirtyOf 63 = [63] ∧ (∃ w, armed (uWord 2 (boundTile true)) 31 (4096 * 1) 0 w) ∧
    (uWord 2 (boundTile true)).chkGet 63 0 = none ∧ ((uWord 2 (boundTile true)).ctile.buf 63).cpoutOk = true ∧
    ((uWord 2 (boundTile true)).ctile.buf 63).bound = true :=
  ⟨rfl, fun el => mv_4 2 (by decide) _ _ el (by simp), fun el => mv_4 2 (by decide) _ _ el (by simp), by decide, by decide, by decide +kernel,
    by decide +kernel, ⟨_, _, rfl, rfl⟩, by decide, by decide, by decide⟩
/-- No order of the queue has still to write; an ATOM that has still to fill buffer 63, and one that has still to write into it. -/
theorem wit_CopiesOut_waits :
    (uWord 2 (mvTile .full)).coPending 63 0 (63 * 4096) = false ∧ (uWord 2 (mvTile .full)).coPendingAll 63 = false ∧ (uWord 2 (boundTile true)).coPendingAll 63 = false ∧
    (uWord 1 (mvTile .full)).coPendingAll 63 = false ∧ (uWord 1 (boundTile false)).coPendingAll 63 = false ∧ (uWord 1 (boundTile true)).coPendingAll 63 = false ∧
    (uWord 2 { mvTile .empty with cmds := [{ id := 0, eng := 2, kind := .atom, sw := 0, phase := false, ret := true, buf := 63 }] }).coPending 63 (256 * 1023) (recBytes rec0) = true ∧
    (uWord 2 { mvTile .full with cmds := [{ id := 0, eng := 2, kind := .atom, sw := 0, phase := false, ret := true, buf := 0, base := 128 * 4096 - 8 }] }).coPending 63
      (256 * 1023) 256 = true := by decide +kernel
theorem wit_CopiesOut_waiting : MoveReady (uWord 2 { mvTile .empty with cmds := [{ id := 0, eng := 2, kind := .atom, sw := 0, phase := false, ret := true, buf := 63 }] }) c4 [4095] false :=
  ⟨⟨rfl, by decide, rfl, by decide, fun h => Bool.noConfusion (show false = true from h), by decide, fun h => Bool.noConfusion (show false = true from h), rfl⟩,
    fun h m => by rw [List.mem_singleton.1 m]; decide +kernel, by decide, fun _ m => (by cases m), fun h => Bool.noConfusion h⟩
theorem wit_CopiesOut_waiting_timed : MoveReady (uWord 2 { mvTile .empty with seg := { openSeg with elastic := false }, cmds := [{ id := 0, eng := 2, kind := .atom, sw := 0, phase := false, ret := true, buf := 63 }] }) c4 [4095] false :=
  ⟨⟨rfl, by decide, rfl, by decide, fun _ => by decide, by decide, fun h => Bool.noConfusion (show false = true from h), rfl⟩,
    fun h m => by rw [List.mem_singleton.1 m]; decide +kernel, by decide, fun _ m => (by cases m), fun h => Bool.noConfusion h⟩
theorem wit_CopiesOut_flush : MoveReady (uWord 2 (boundTile true)) c4 [] false :=
  mv_u 2 _ _ _ _ (due_u 2 _ run1 _ (by decide) (by decide) (by decide) (by rw [ctile_u]; rfl) (by decide) (by rw [ctile_u]; rfl) (by rw [ctile_u]; rfl)) rfl rfl (by simp) (by decide +kernel) rfl
/-- A box outside the tensor as a whole, and a bound buffer with no dirty granule. -/
theorem wit_CopiesOut_none : boxElems rec0 64 = [] ∧ (∃ w, armed (uWord 2 (mvTile .full)) 31 (recBytes rec0) (recBytes rec0 - boxLen (boxElems rec0 64)) w) ∧
    (uWord 2 (boundTile false)).dirtyOf 63 = [] ∧ (∃ w, armed (uWord 2 (boundTile false)) 31 0 0 w) ∧ (uWord 2 (boundTile false)).coPendingAll 63 = false ∧
    (uWord 2 (boundTile false)).chkGet 63 0 = none ∧ ((uWord 2 (boundTile false)).ctile.buf 63).cpoutOk = true ∧ MoveReady (uWord 2 (boundTile false)) c4 [] false :=
  ⟨by decide +kernel, ⟨_, _, rfl, rfl⟩, by decide +kernel, ⟨_, _, rfl, rfl⟩, by decide +kernel, by decide, by decide,
    mv_u 2 _ _ _ _ (due_u 2 _ run1 _ (by decide) (by decide) (by decide) (by rw [ctile_u]; rfl) (by decide) (by rw [ctile_u]; rfl) (by rw [ctile_u]; rfl)) rfl rfl (by simp) (by decide +kernel) rfl⟩
theorem wit_AcquireRelease : (∃ w, armed (uWord 1 (mvTile .empty)) 31 8 0 w) ∧ MoveReady (uWord 1 (mvTile .empty)) c4 [4095] true ∧
    (uWord 1 (mvTile .empty)).chkWrite 1 63 (8 * 16383) 8 = none ∧ MoveReady (uWord 2 (mvTile .full)) c4 [4095] false ∧
    (uWord 2 (mvTile .full)).chkRead 2 63 (8 * 16383) 8 = none := ⟨⟨_, _, rfl, rfl⟩, mv_4 1 (by decide) _ _ _ (by simp), by decide, mv_4 2 (by decide) _ _ _ (by simp), by decide⟩
theorem wit_Atomics : let s := uWord 2 (mvTile .full)
    let o : AtomOp := ⟨3, 1, 31, 63, 1, 4095, 16383, 2 ^ 26 - 8⟩
    Claims.atomOf (.atomMax c4 o) = some (c4, o, 7) ∧ (Instr.atomMax c4 o).wf = true ∧ (∃ w, armed s 31 (2 ^ 3) 0 w) ∧ MoveReady s c4 [4095] true ∧ noErrors s ∧
    (recBase (recordOf s 4095) + o.aoff) % 2 ^ 64 % 2 ^ 3 = 0 ∧ s.chkRead 2 63 (16 * 16383) 16 = none ∧ s.chkWrite 2 63 (16 * 16383) 8 = none ∧
    (8 = 4 ∨ 8 = 8) ∧ 2 ^ 64 - 1 < 2 ^ (8 * 8) :=
  ⟨rfl, by decide, ⟨_, _, rfl, rfl⟩, mv_4 2 (by decide) _ _ _ (by simp), rfl, by decide +kernel, by decide, by decide, by decide, by decide⟩
theorem wit_VectorAtomics : let s := uWord 2 (mvTile .full)
    let o : VAtom := ⟨31, 63, 4095, 127, 17, 511, 510⟩
    Claims.vatomOf (.vamax c4 o) = some (c4, o, 7) ∧ (Instr.vamax c4 o).wf = true ∧
    ((List.range 128).filter (fun j => leNat (Store.getN 0 s.ctile.sram ((s.decl 63).base * 4096 + (512 * 511 + 4 * j)) 4) != 0xFFFFFFFF)).length = 128 ∧
    (∃ w, armed s 31 (8 * 128) 0 w) ∧ MoveReady s c4 [4095] false ∧ noErrors s ∧
    ∀ j, j < 128 → s.chkRead 2 63 (512 * 511 + 4 * j) 4 = none ∧ s.chkRead 2 63 (512 * 510 + 8 * j) 8 = none :=
  ⟨rfl, by decide, by decide +kernel, ⟨_, _, rfl, rfl⟩, mv_4 2 (by decide) _ _ _ (by simp), rfl, by decide +kernel⟩
theorem wit_BufferControl : let s := uWord 1 (mvTile .full)
    (∃ w, armed s 31 0 0 w) ∧ (∃ w, armed s 31 1 0 w) ∧ MoveReady s c4 [4095] false ∧ MoveReady s c4 [] true ∧ MoveReady s c4 [4095, 4095] false ∧ s.chkSet 63 0 = none ∧
    (s.ctile.buf 63).bound = false ∧ (s.ctile.buf 63).still = true ∧ recBase (recordOf s 4095) % 4096 = 0 ∧
    ((uWord 1 (boundTile false)).ctile.buf 63).bound = true ∧ ((uWord 1 (boundTile false)).ctile.buf 63).still = true ∧ (uWord 1 (boundTile false)).dirtyOf 63 = [] ∧
    (uWord 1 (boundTile false)).chkSet 63 0 = none ∧ MoveReady (uWord 1 (boundTile false)) c4 [] false ∧ s.ctile.quietOf 63 = true ∧ s.ctile.performed 63 = true :=
  ⟨⟨_, _, rfl, rfl⟩, ⟨_, _, rfl, rfl⟩, mv_4 1 (by decide) _ _ _ (by simp), mv_4 1 (by decide) _ _ _ (by simp), mv_4 1 (by decide) _ _ _ (by simp), by decide,
    by decide, by decide, by decide +kernel, by decide, by decide, by decide +kernel, by decide,
    mv_u 1 _ _ _ _ (due_u 1 _ run1 _ (by decide) (by decide) (by decide) (by rw [ctile_u]; rfl) (by decide) (by rw [ctile_u]; rfl) (by rw [ctile_u]; rfl)) rfl rfl (by simp) (by decide +kernel) rfl,
    rfl, rfl⟩
/-- A dirty granule at the UNBIND of a FULL buffer; a BINDSO with an aligned range and object, and one without; a CO order that QFENCE waits for. -/
theorem wit_BufferControl_more : let s := uWord 1 (boundTile true)
    let u := mapped (uWord 1 { mvTile .full with cache := [(63, { valid := true, va := 192 * 4095, data := recP })] })
    let v := uWord 1 { tileOf .full with flights := [{ id := 0, eng := 2, retire := some 9, push := none, effs := [], step := 0, raw := 0 }] }
    s.dirtyOf 63 ≠ [] ∧ noErrors s ∧ (s.ctile.buf 63).st = .full ∧ (∃ w, armed s 31 (4096 * 1) 0 w) ∧
    (recBase recP % 64 = 0 ∧ recBytes recP % 64 = 0 ∧ recBase recP % 8 = 0) ∧ recordOf u 4095 = recP ∧
    u.translateRange u.slotNo 4096 128 kRead = .ok [(4096, 128)] ∧ u.translate u.slotNo 4096 kRead = .pa 4096 ∧ u.plainPage u.slotNo 4096 = false ∧
    MoveReady u c4 [4095, 4095] false ∧ recBytes rec0 % 64 ≠ 0 ∧ v.ctile.quietOf 4 = false ∧ MoveReady v c4 [] false :=
  ⟨by decide +kernel, rfl, rfl, ⟨_, _, rfl, rfl⟩, by decide +kernel, by decide +kernel, by decide +kernel, by decide +kernel, by decide +kernel,
    ⟨⟨rfl, by decide, rfl, by decide, fun h => Bool.noConfusion (show false = true from h), by decide, fun h => Bool.noConfusion (show false = true from h), rfl⟩,
      by decide +kernel, by decide, fun _ m => (nomatch (show _ ∈ ([] : List Flight) from m)), fun h => Bool.noConfusion h⟩,
    by decide +kernel, by decide,
    ⟨⟨rfl, by decide, rfl, by decide, fun h => Bool.noConfusion (show false = true from h), by decide, fun h => Bool.noConfusion (show false = true from h), rfl⟩,
      fun _ m => (by cases m), by decide, by decide, fun h => Bool.noConfusion h⟩⟩
/-- A tile that is the only member of group 63. -/
def groupRun : Slot := { run1 with groups := List.replicate 64 [{ pkg := 0, parts := 1, inst := 0, tile := 0 }] }
theorem wit_Collectives : let s := uWord 2 (mvTile .full) groupRun
    let o : CollOp := ⟨63, 31, 0, 17, 2, 1, 63, 0, 511, 0⟩
    (Instr.coll c4 o).wf = true ∧ MoveReady s c4 [] true ∧ noErrors s ∧ s.chkRset 63 (512 * 511) = none ∧ s.chkSet 0 0 = none ∧
    (∃ m, s.rankIn 63 = some (0, m, 1) ∧ m.parts = 1) ∧ (∀ i, i < 64 → s.chkRead 2 63 (512 * 511 + 8 * i) 8 = none) ∧
    (∀ i, i < 64 → s.chkWrite 2 0 (8 * i) 8 = none) ∧ s.findColl 0 0 63 1 = none ∧ ∃ w, armed s 31 (8 * 64) 0 w :=
  ⟨by decide, ⟨⟨rfl, by decide, rfl, by decide, fun h => Bool.noConfusion (show false = true from h), by decide, fun h => Bool.noConfusion (show false = true from h), rfl⟩,
    fun _ m => (by cases m), by decide, fun _ m => (by cases m), fun _ => rfl⟩, rfl, by decide, by decide, ⟨_, rfl, rfl⟩, by decide +kernel, by decide +kernel, by decide,
    ⟨_, _, rfl, rfl⟩⟩
/-- A collective of group 63, `total` ranks, the only local one waiting with a leaf of 8 bytes. -/
def collOf (total : Nat) (ep : Bool) (parts : Store (List Byte)) : State :=
  { uWord 2 { tileOf .full with cmds := [{ id := 7, eng := 2, kind := .coll, sw := 31, phase := false, gather := List.replicate 8 1 }] } with
    colls := [{ world := 0, jobid := 0, group := 63, seq := 1, ty := 17, opn := 2, c := 1, ep := ep, total := total, waiting := [(0, 0, 7, 0)], parts := parts,
                first := some 0 }], tb := 50001 }
/-- A first contribution of two, the only one, and a first one past the 16 MiB; past the time limit. -/
theorem wit_Collectives_switch :
    (let s := collOf 2 false []
     s.colls[0]?.map (fun x => x.done || x.bad || x.ep) = some false ∧ s.colls[0]?.map (·.first) = some (some 0) ∧ s.colls[0]?.map (·.waiting) = some [(0, 0, 7, 0)] ∧
     s.colls[0]?.map (fun x => s.contribution x 0) = some (some (List.replicate 8 1)) ∧
     (s.cmdAt 0 0 7).isSome = true ∧ (8 : Nat) = elemBits 17 / 8 * 1 ∧ (Store.put [] 0 (List.replicate 8 (1 : Byte)) []).length < 2 ∧ 0 + s.collLimit < s.tb) ∧
    ((collOf 1 false []).colls[0]?.map (·.total) = some 1 ∧ 1 ≤ (Store.put [] 0 (List.replicate 8 (1 : Byte)) []).length) ∧
    (Store.put [] 0 (List.replicate 8 (1 : Byte)) []).length = 1 := by decide +kernel
/-- The bytes of two million parts pass the 16 MiB of the switch. -/
theorem wit_Collectives_full : ∀ m : Nat, 2 ^ 21 < m → 2 ^ 24 < 8 * m := fun _ h => by omega
/-- A region of two tiles side by side, all links declared. -/
def pairRun : Slot := { run1 with w := 2, imgs := run1.imgs ++ [(1, { mask := 63 })] }
theorem wit_Exchanges_send : let s := uWord 5 (tileOf .full) pairRun
    let o : Exch := ⟨63, 31, 1, 0, 65504⟩
    let q : Exch := ⟨63, 255, 1, 0, 511⟩
    let z : Exch := ⟨63, 0, 2, 0, 0⟩
    (Instr.send c4 o).wf = true ∧ (Instr.sendk c4 q).wf = true ∧ (Instr.send c4 z).wf = true ∧ Due s c4 ∧ noErrors s ∧
    (∀ p ∈ [o, q, z], (route s.myX s.myY p.dx p.dy).all s.region.hopDeclared = true) ∧ s.peerIn o = true ∧ s.peerIn q = true ∧ s.peerIn z = false ∧
    (∀ u ∈ [1, 4], linksFree s.region.links (s.occupy s.region u (s.now + 1) (route s.myX s.myY 1 0)) = true) ∧
    (∀ k, k ≤ 31 → s.chkRead 5 63 (4 * 65504 + 4 * k) 4 = none) ∧ ∀ k, k ≤ 255 → s.chkRead 5 63 (512 * 511 + 2 * k) 2 = none :=
  ⟨by decide, by decide, by decide, ⟨rfl, by decide, rfl, by decide, fun h => Bool.noConfusion (show false = true from h), by decide, fun h => Bool.noConfusion (show false = true from h), rfl⟩,
    rfl, by decide, by decide, by decide, by decide, by decide, by decide +kernel, by decide +kernel⟩
theorem wit_Exchanges_receive : let x : Xfer := { src := 1, dst := 0, seq := 0, rank := false, km1 := 0, words := List.replicate 32 7, avail := 5 }
    let y : Xfer := { src := 1, dst := 0, seq := 0, rank := true, km1 := 255, words := List.replicate 128 7, avail := 5 }
    let s (z : Xfer) := uWord 5 { tileOf .empty with hold := [z] } pairRun
    Due (s x) c4 ∧ Due (s y) c4 ∧ (s x).peerIn ⟨63, 31, 1, 0, 65504⟩ = true ∧ (s x).ctile.hold.find? (fun w => w.src == (s x).peer ⟨63, 31, 1, 0, 65504⟩) = some x ∧
    (s y).ctile.hold.find? (fun w => w.src == (s y).peer ⟨63, 255, 1, 0, 511⟩) = some y ∧ x.words.length = 31 + 1 ∧
    (∀ k, k ≤ 31 → (s x).chkWrite 5 63 (4 * 65504 + 4 * k) 4 = none) ∧ ∀ k, k ≤ 255 → (s y).chkWrite 5 63 (512 * 511 + 2 * k) 2 = none :=
  ⟨⟨rfl, by decide, rfl, by decide, fun h => Bool.noConfusion (show false = true from h), by decide, fun h => Bool.noConfusion (show false = true from h), rfl⟩,
    ⟨rfl, by decide, rfl, by decide, fun h => Bool.noConfusion (show false = true from h), by decide, fun h => Bool.noConfusion (show false = true from h), rfl⟩,
    by decide, by decide, by decide, by decide, by decide +kernel, by decide +kernel⟩
/-- Nothing of the peer in the hold, in an elastic and in a timed segment, and a peer outside the region. -/
theorem wit_Exchanges_empty : let o : Exch := ⟨63, 31, 1, 0, 65504⟩
    ∀ s, s ∈ [uWord 5 (tileOf .empty) pairRun, uWord 5 { tileOf .empty with seg := { openSeg with elastic := false } } pairRun] →
    Due s c4 ∧ s.peerIn o = true ∧ s.ctile.hold.find? (fun y => y.src == s.peer o) = none ∧ s.peerIn ⟨63, 31, 2, 0, 0⟩ = false := by
  intro o s hs
  simp only [List.mem_cons, List.not_mem_nil, or_false] at hs
  rcases hs with rfl | rfl <;> exact ⟨⟨rfl, by decide, rfl, by decide, fun _ => rfl, by decide, fun h => Bool.noConfusion (show false = true from h), rfl⟩, by decide, rfl, by decide⟩
/-- Nothing is to be written; a taken link; a hop that no mask declares; a transfer of another kind and size. -/
theorem wit_Exchanges_traps : let s := uWord 5 (tileOf .full) pairRun
    let taken := uWord 5 (tileOf .full) { pairRun with links := s.occupy s.region 1 (s.now + 1) (route s.myX s.myY 1 0) }
    let bare := uWord 5 (tileOf .full) { run1 with w := 2 }
    let held := uWord 5 { tileOf .empty with hold := [{ src := 1, dst := 0, seq := 0, rank := true, km1 := 255, words := List.replicate 128 7, avail := 5 }] } pairRun
    (∀ b a n, Clear s 5 b a n) ∧ linksFree taken.region.links (taken.occupy taken.region 1 (taken.now + 1) (route taken.myX taken.myY 1 0)) = false ∧
    (route bare.myX bare.myY 1 0).all bare.region.hopDeclared = false ∧ (∃ x, held.ctile.hold.find? (fun w => w.src == 1) = some x ∧ x.rank = true ∧ x.km1 ≠ 3) :=
  ⟨no_effs rfl 5, by decide, by decide, ⟨_, rfl, rfl, by decide⟩⟩
/-- A record whose fetch has ended with XLATE. -/
def failedFetch (e : Nat) (x : Tile) : State := uWord e { x with fetchCI := some { va := 192 * 4095, done := some 2 }, fetchCO := some { va := 192 * 4095, done := some 2 } }
theorem failed_u (e : Nat) (he : c4.legal e = true) (x : Tile) (hx : x.engs = []) (ht : x.timed = false) (hf : x.flights = []) (hc : x.cmds = [])
    (ha : x.cached (192 * 4095) = none) : RecordFailed (failedFetch e x) c4 4095 2 where
  due := due_u e _ run1 c4 he (by decide) (by decide) (by rw [ctile_u]; exact hx)
    (by simp [State.now, State.region, State.slotNo, uWord, State.slot, Store.get, run1]) (by rw [ctile_u]; exact ht) (by rw [ctile_u]; exact hf)
  absent := by
    rw [failedFetch, ctile_u, show (uWord e { x with fetchCI := some { va := 192 * 4095, done := some 2 }, fetchCO := some { va := 192 * 4095, done := some 2 } }).recVa 4095 = 192 * 4095 by
      simp [State.recVa, State.region, State.slotNo, uWord, State.slot, Store.get, run1]]
    exact ha
  fetch := by
    rw [failedFetch, ctile_u, show (uWord e { x with fetchCI := some { va := 192 * 4095, done := some 2 }, fetchCO := some { va := 192 * 4095, done := some 2 } }).recVa 4095 = 192 * 4095 by
      simp [State.recVa, State.region, State.slotNo, uWord, State.slot, Store.get, run1]]
    refine ⟨0, ?_⟩
    unfold Tile.fetchOf
    split <;> rfl
  room := by rw [failedFetch, ctile_u, show ({ x with fetchCI := some { va := 192 * 4095, done := some 2 }, fetchCO := some { va := 192 * 4095, done := some 2 } } : Tile).cmds = [] from hc]; exact (by decide : 0 < 32)
  clear := fun f m => by
    rw [failedFetch, ctile_u] at m
    rw [show ({ x with fetchCI := some { va := 192 * 4095, done := some 2 }, fetchCO := some { va := 192 * 4095, done := some 2 } } : Tile).flights = [] from hf] at m
    cases m
theorem wit_MovementErrors : RecordFailed (failedFetch 1 (tileOf .empty)) c4 4095 2 ∧ RecordFailed (failedFetch 2 (tileOf .full)) c4 4095 2 ∧
    (let s := failedFetch 1 (tileOf .empty)
     s.landOf 0xFFFFFF = .ok none ∧ s.chkSet 63 (256 * 1023) = none ∧ (s.ctile.buf 63).cpinOk false = true ∧ (s.ctile.buf 63).bound = false ∧ (s.ctile.buf 63).still = true ∧
     s.ctile.timed = false ∧ s.chkWrite 1 63 (8 * 16383) 8 = none) ∧
    (let s := failedFetch 2 (tileOf .full)
     s.chkGet 63 (256 * 1023) = none ∧ (s.ctile.buf 63).cpoutOk = true ∧ noErrors s ∧ s.chkRead 2 63 (8 * 16383) 8 = none) :=
  ⟨failed_u 1 (by decide) _ rfl rfl rfl rfl (by decide +kernel), failed_u 2 (by decide) _ rfl rfl rfl rfl (by decide +kernel),
    ⟨rfl, by decide, by decide, by decide, by decide, rfl, by decide⟩, by decide, by decide, rfl, by decide⟩
/-- A status word that cannot count 16 bytes more, a record with a base that no page starts at, and the flush of a buffer that is not bound. -/
theorem wit_MovementErrors_range : let s := uWord 1 { mvTile .empty with sw := [(31, 2 ^ 48 - 1)] }
    let d := rec0.take 8 ++ leBytes 8 4104 ++ rec0.drop 16
    let u := uWord 1 { tileOf .full with cache := [(63, { valid := true, va := 192 * 4095, data := d })] }
    (Store.get 0 31 s.ctile.sw).toNat % 2 ^ 48 ≠ 0 ∧ 2 ^ 48 ≤ (Store.get 0 31 s.ctile.sw).toNat % 2 ^ 48 + recBytes (recordOf s 4095) ∧
    recBase (recordOf u 4095) % 4096 ≠ 0 ∧ (u.ctile.buf 63).bound = false ∧ (u.ctile.buf 63).cpoutOk = true ∧ u.chkGet 63 0 = none :=
  ⟨by decide, by decide +kernel, by decide +kernel, by decide, by decide, by decide⟩
/-- The last element of a copy, on a page with no translation. -/
def lastElem (kind : CmdKind) : State :=
  { uWord 1 { tileOf .full with cmds := [{ id := 7, eng := 1, kind := kind, sw := 31, phase := false, elems := [{ va := 4096, len := 8, data := List.replicate 8 1 }] }] } with
    tlb := [{ ctx := 0, va := 4096, size := 0, pte := 0, ok := false }] }
theorem wit_MovementErrors_last : ∀ kind, kind ∈ [CmdKind.cpin, .cpout] → ((lastElem kind).cmdAt 0 0 7).map (·.kind) = some kind ∧ (4096 : Nat) % 64 + 8 ≤ 64 ∧
    (lastElem kind).translate 0 4096 kRead = .code 2 ∧ (lastElem kind).translate 0 4096 kWrite = .code 2 := by decide +kernel

/-! ## MX -/

/-- Entries: f13 a sparse one of .i8 with 3 of 12 kept, f14 modular, f15 dense .i8; every slot claimed; a nest of two iterations that steps the accumulator. -/
def mxTile : Tile := { tileOf .full with
  f := [(13, 0x30002941), (14, 0x00904A41), (15, 0x00002941)], claim := 2 ^ 16 - 1, qM := [(7, { valid := true, q := 2 ^ 62 - 57 })],
  nlv := [(0, BitVec.ofNat 64 (2 * 2 ^ 48 + 2 ^ 44))] ++ (List.range 5).map (fun l => (l + 1, BitVec.ofNat 64 (2 ^ 48))) ++ [(6, 0x70F)] }
/-- Metadata that keeps the first three of every group, for 32 rows of 11 groups. -/
def metaTile : Tile := { mxTile with opmem := (List.range 352).map (fun i => (2 * i, 7)) }
/-- Metadata of any number of words: the low byte of each is 7, the high byte is not listed. -/
theorem get_sevens (n : Nat) : ∀ m j, j < n → Store.get 0 (2 * (m + j)) ((List.range' m n).map (fun i => (2 * i, (7 : Byte)))) = 7 ∧
    Store.get 0 (2 * (m + j) + 1) ((List.range' m n).map (fun i => (2 * i, (7 : Byte)))) = 0 := by
  have high : ∀ n m k, Store.get 0 (2 * k + 1) ((List.range' m n).map (fun i => (2 * i, (7 : Byte)))) = 0 := by
    intro n
    induction n with
    | zero => exact fun _ _ => rfl
    | succ n ih =>
      intro m k
      rw [List.range'_succ, List.map_cons, Store.get, if_neg (by omega)]
      exact ih (m + 1) k
  refine fun m j h => ⟨?_, high n m (m + j)⟩
  induction n generalizing m j with
  | zero => omega
  | succ n ih =>
    rw [List.range'_succ, List.map_cons, Store.get]
    rcases j with _ | j
    · exact if_pos rfl
    · rw [if_neg (by omega), show m + (j + 1) = m + 1 + j by omega]
      exact ih (m + 1) j (by omega)
theorem meta_seven {i g : Nat} (hi : i < 32) (hg : g < 11) : metaTile.meta 0 11 i g = 7 := by
  have h := get_sevens 352 0 (11 * i + g) (by omega)
  rw [← List.range_eq_range', Nat.zero_add] at h
  show leNat [Store.get 0 (0 + 2 * (11 * i + g)) metaTile.opmem, Store.get 0 (0 + 2 * (11 * i + g) + 1) metaTile.opmem] = 7
  rw [Nat.zero_add, show metaTile.opmem = (List.range 352).map (fun i => (2 * i, (7 : Byte))) from rfl, h.1, h.2]
  rfl
def mx (x : Tile) : State := uWord 4 x
theorem mx_reads {s : State} {b off n : Nat} (ha : ((s.decl b).valid && s.ctile.seg.canRead 4 b) = true) (hl : 64 * off + 64 * n ≤ (s.decl b).bytes)
    (hs : ((s.ctile.buf b).st == .full || (s.ctile.buf b).st == .draining) = true) : mxReads s b off n :=
  fun k hk => State.chkRead_none ha (by omega) (by omega) hs
theorem mx_writes {s : State} {b off n : Nat} (ha : ((s.decl b).valid && s.ctile.seg.canWrite 4 b) = true) (hl : 64 * off + 64 * ceilDiv n 64 ≤ (s.decl b).bytes)
    (hs : ((s.ctile.buf b).st == .empty || (s.ctile.buf b).st == .full) = true) : mxWrites s b off n :=
  fun k hk => State.chkWrite_none ha (by omega) (by omega) hs
theorem mx_u (x : Tile) (n : MNeed) (h : x.engs = []) (ht : x.timed = false) (hr : n.ready x 5 = true) (hm : n.met = true) (he : x.ecc = []) (hf : x.flights = [] := by rfl) : MxReady (mx x) c4 n where
  due := due_u 4 x run1 c4 (by decide) (by decide) (by decide) (by rw [ctile_u]; exact h)
    (by simp [State.now, State.region, State.slotNo, uWord, State.slot, Store.get, run1]) (by rw [ctile_u]; exact ht) (by rw [ctile_u]; exact hf)
  unit := by simp [mx, State.img, State.region, State.slotNo, uWord, State.slot, Store.get, run1, TileImg.mxn, bits]
  ready := by
    rw [show (mx x).ctile = x from ctile_u 4 x, show (mx x).now = 5 by
      simp [mx, State.now, State.region, State.slotNo, uWord, State.slot, Store.get, run1]]
    exact hr
  met := hm
  whole := by rw [show (mx x).ctile = x from ctile_u 4 x]; exact he

/-- What a dense multiply of the entry `e` needs, with the latency `l` beyond its occupancy. -/
def needOf (t : Tile) (o : MmaOp) (l : Nat) : MNeed :=
  let e := t.fent o.f
  let col := rowCol (rowOf (entA e))
  let occ := shpM o.shp * shpN o.shp * shpK o.shp col / rate col
  { unit := [(keyArray, occ)], lat := occ + l, accs := t.mmaAccs o.acc o.part o.clr, mma := some o.acc, joins := true,
    rd := [(64 * o.a, shpM o.shp * packedBytes (entA e) (shpK o.shp col)), (64 * o.b, shpN o.shp * packedBytes (entB e) (shpK o.shp col))] }
theorem wit_Multiply : let o : MmaOp := ⟨7, 5, 15, 0, 0, 3, 0, 7680, 0, 0⟩
    (Instr.mma c4 o).wf = true ∧ MxReady (mx mxTile) c4 (needOf mxTile o 10) ∧ entValid (mxTile.fent 15) = true ∧ entLegal (mxTile.fent 15) = true ∧
    (rowClass (rowOf (entA (mxTile.fent 15))) == 2) = false ∧ entSpn (mxTile.fent 15) = 0 ∧ mxTile.shadowChk 5 3 = none ∧ mxTile.rangesChk (needOf mxTile o 10).rd = none :=
  ⟨by decide, mx_u _ _ rfl rfl (by decide +kernel) rfl rfl, by decide, by decide, by decide, by decide, by decide, by decide +kernel⟩
theorem wit_Multiply_modular : let o : MmaOp := ⟨1, 0, 14, 1, 7, 0, 0, 4096, 0, 0⟩
    (Instr.mmul c4 o).wf = true ∧ MxReady (mx mxTile) c4 (needOf mxTile o 14) ∧ entValid (mxTile.fent 14) = true ∧ entLegal (mxTile.fent 14) = true ∧
    (rowClass (rowOf (entA (mxTile.fent 14))) == 2) = true ∧ entSpn (mxTile.fent 14) = 0 ∧ (Store.get {} 7 mxTile.qM).valid = true ∧ mxTile.shadowChk 0 0 = none ∧
    mxTile.rangesChk (needOf mxTile o 14).rd = none :=
  ⟨by decide, mx_u _ _ rfl rfl (by decide +kernel) rfl rfl, by decide, by decide, by decide, by decide, by decide, by decide, by decide +kernel⟩
/-- What the sparse multiply of the next theorem needs. -/
def sparseNeed : MNeed :=
  let k := shpK 7 1
  let gs := ceilDiv k 12
  let occ := max (ceilDiv (shpM 7 * shpN 7 * k * 3) (12 * rate 1)) (shpM 7 * shpN 7 * k / (4 * rate 1))
  { unit := [(keyArray, occ)], lat := occ + 10, accs := mxTile.mmaAccs 4 3 0, mma := some 4, joins := true,
    rd := [(64 * 512, shpM 7 * packedBytes 0x0A (gs * 3)), (64 * 1024, shpN 7 * packedBytes 0x0A k), (64 * 0, shpM 7 * 2 * gs)] }
theorem wit_Multiply_sparse : let o : MmaOp := ⟨7, 4, 13, 0, 0, 3, 512, 1024, 0, 31⟩
    (Instr.mmas c4 o).wf = true ∧ MxReady (mx metaTile) c4 sparseNeed ∧ entValid (metaTile.fent 13) = true ∧ entLegal (metaTile.fent 13) = true ∧
    rowCol (rowOf (entA (metaTile.fent 13))) = 1 ∧ entSpn (metaTile.fent 13) = 3 ∧ entA (metaTile.fent 13) = 0x0A ∧ entB (metaTile.fent 13) = 0x0A ∧
    metaTile.shadowChk 4 3 = none ∧ metaTile.rangesChk sparseNeed.rd = none ∧ canArm (mx metaTile) 31 ∧
    (∀ i g, i < shpM 7 → g < 11 → metaOk 128 3 g (metaTile.meta 0 11 i g) = true) ∧ ¬ metaOk 128 3 0 (mxTile.meta 0 11 0 0) = true := by
  refine ⟨by decide, mx_u _ _ rfl rfl (by decide +kernel) rfl rfl, by decide, by decide, by decide, by decide, by decide, by decide, by decide, by decide +kernel, rfl, ?_, by decide⟩
  intro i g hi hg
  rw [meta_seven hi hg]
  exact (by decide : ∀ g, g < 11 → metaOk 128 3 g 7 = true) g hg
theorem wit_RankAccumulate : let o : RkOp := ⟨2, 3, 255, 0, 127, 15, 255, 31, 63, 4088⟩
    let n : MNeed := { unit := [(keyArray, 32)], lat := 40, accs := [3], mma := some 3, rd := [(slotBytes * 15, 256 * 128 * (elemBits (rkType 2) / 8))] }
    (∀ r, r < 256 → leNat (Store.getN 0 mxTile.sram (64 * 4096 + (64 * 4088 + 2 * r)) 2) = 0) ∧ elemBits (rkType 2) = 8 ∧
    (Instr.rkmac c4 o).wf = true ∧ MxReady (mx mxTile) c4 n ∧ (mx mxTile).ctile.ready keyAtt ≤ (mx mxTile).now ∧
    Clear (mx mxTile) 4 63 (64 * 4088) 512 ∧ mxTile.rangesChk n.rd = none ∧ (∀ r, r < 256 → (mx mxTile).chkRead 4 63 (64 * 4088 + 2 * r) 2 = none) ∧
    canArm (mx mxTile) 31 :=
  ⟨by decide +kernel, by decide, by decide, mx_u _ _ rfl rfl (by decide +kernel) rfl rfl, by decide, no_effs rfl 4 63 _ _, by decide +kernel, by decide +kernel, rfl⟩
theorem wit_MatrixSetup : let s := mx mxTile
    let ld : MNeed := { unit := [(keyMPort, 128)], lat := 131, wr := [(slotBytes * 15, 32768)] }
    (Instr.fmtsetMx c4 15 0x30002941).wf = true ∧ MxReady s c4 { lat := 1 } ∧ entLegal 0x30002941 = true ∧ s.fmtBarred 0x30002941 = false ∧
    (Instr.nestcfgMx c4 6 0x70F).wf = true ∧ nestOk 6 0x70F = true ∧ (tileOf .full).claim.testBit 15 = false ∧ MxReady (mx (tileOf .full)) c4 { lat := 1 } ∧
    MxReady s c4 { lat := 1, rel := some 15 } ∧ mxTile.claim.testBit 15 = true ∧ MxReady s c4 ld ∧ Clear s 4 63 (64 * 3584) 32768 ∧
    (Store.getN 0 mxTile.sram (64 * 4096 + 64 * 3584) (64 * (511 + 1))).length = 32768 ∧ mxTile.rangesChk [(slotBytes * 15 + 64 * 0, 32768)] = none ∧ mxReads s 63 3584 (511 + 1) ∧
    mxTile.flights.all (fun f => f.eng != 4) = true ∧ MxReady s c4 { unit := [(keyMPort, 2)], lat := 4 } ∧ Clear s 4 63 (64 * 4088) 512 ∧
    ∀ k, k < 256 → s.chkRead 4 63 (64 * 4088 + 2 * k) 2 = none :=
  ⟨by decide, mx_u _ _ rfl rfl (by decide +kernel) rfl rfl, by decide, by decide, by decide, by decide, by decide, mx_u _ _ rfl rfl (by decide +kernel) rfl rfl,
    mx_u _ _ rfl rfl (by decide +kernel) rfl rfl, by decide, mx_u _ _ rfl rfl (by decide +kernel) rfl rfl, no_effs rfl 4 63 _ _, by decide +kernel, by decide +kernel,
    mx_reads (by decide) (by decide +kernel) (by decide), rfl, mx_u _ _ rfl rfl (by decide +kernel) rfl rfl, no_effs rfl 4 63 _ _, by decide +kernel⟩
/-- A BFX pattern in the matrix path that keeps every byte. -/
theorem wit_MatrixSetup_pattern : (bfxOut (0x00007000 * 2 ^ 64 + 0x108 : BitVec 576) 0x0A 64).isSome = true := by decide +kernel
theorem wit_Accumulators : let s := mx mxTile
    (Instr.aclr c4 15).wf = true ∧ MxReady s c4 { unit := [(keyArray, 1)], lat := 2, accs := (List.range 4).filter (fun a => (15).testBit a) } ∧
    MxReady s c4 { unit := [(keyArray, 16)], lat := 18, accs := [3, 5] } ∧ mxTile.shadowRead 5 = none ∧ (Store.get {} 7 mxTile.qM).valid = true ∧
    MxReady (mx { mxTile with sh1 := { st := .committed, partner := 3 } }) c4 { unit := [(keyArray, 16)], lat := 18, accs := [3, 5] } ∧
    (({ mxTile with sh1 := { st := .committed, partner := 3 } } : Tile).shadow 5).st = .committed ∧
    MxReady s c4 { unit := [(keyMPort, 256)], lat := 262, accs := [5] } ∧ ceilDiv ((127 + 1) * rowBytes (entOtype (mxTile.fent 15))) 256 = 256 ∧ 0 + 127 + 1 ≤ 128 ∧
    entValid (mxTile.fent 15) = true ∧ mxWrites s 63 3072 ((127 + 1) * rowBytes (entOtype (mxTile.fent 15))) ∧
    MxReady s c4 { unit := [(keyMPort, 576)], lat := 578, accs := [5] } ∧ mxWrites s 63 1792 147456 ∧ mxReads s 63 1792 2304 ∧
    Clear s 4 63 (64 * 1792) 147456 :=
  ⟨by decide, mx_u _ _ rfl rfl (by decide +kernel) rfl rfl, mx_u _ _ rfl rfl (by decide +kernel) rfl rfl, by decide, by decide, mx_u _ _ rfl rfl (by decide +kernel) rfl rfl, by decide,
    mx_u _ _ rfl rfl (by decide +kernel) rfl rfl, by decide, by decide, by decide, mx_writes (by decide) (by decide +kernel) (by decide), mx_u _ _ rfl rfl (by decide +kernel) rfl rfl,
    mx_writes (by decide) (by decide +kernel) (by decide), mx_reads (by decide) (by decide +kernel) (by decide), no_effs rfl 4 63 _ _⟩
/-- The iterations of the nest of `mxTile` from accumulator 2, and what they need. -/
def nestIts : List Iter := nestIters ((List.range 6).map (fun l => (Store.get 0 l mxTile.nlv).toNat)) 0x70F 2 0 (64 * 512)
def nestNeed : MNeed :=
  let occ := 4 + (nestIts.map (mxTile.iterOcc 7)).sum
  { unit := [(keyArray, occ)], lat := occ + 10, accs := nestIts.map (fun i => i.n.toNat) ++ (List.range 4).filter (fun n => (15).testBit n),
    rd := nestIts.flatMap (fun i => denseRanges (mxTile.iterEnt i) 7 i.a i.b) }
theorem wit_LoopNest : (Instr.nestgo c4 7 2 15 31 0 512).wf = true ∧ nestIts.map (·.n) = [2, 3] ∧ MxReady (mx mxTile) c4 nestNeed ∧
    (∀ i, i ∈ nestIts → mxTile.iterChk 7 1 0 i = none) ∧ canArm (mx mxTile) 31 :=
  ⟨by decide, by decide +kernel, mx_u _ _ rfl rfl (by decide +kernel) rfl rfl, by decide +kernel, rfl⟩
/-! ## The machine -/

/-- A NOP. -/
def nopWord : Code := 0x4C000000#32
def nopOf (accepts : Decoded → Bool) (ws : List Code) : Bool :=
  match decode ws with
  | .ok d => accepts d && d.instr == .nop
  | .error _ => false
/-- A region of one tile. -/
def region (r : Slot) (x : Tile) : State := { State.reset with tiles := [(0, x)], slots := [(0, r)], focus := .region 0 }
theorem wit_StepRunsWord :
    (State.reset.snappedBufs = [] ∧ encode .timebasePulse = []) ∧
    (let s : State := { State.reset with cores := [(15, { istore := [(0, nopWord)] })], focus := .core 15 }
     s.snappedBufs = [] ∧ s.agenda = [] ∧ (s.core 15).failed = false ∧ (s.core 15).takes = false ∧ (s.core 15).halted = false ∧
     nopOf coreAccepts (wordsFrom (s.core 15).istore (s.core 15).step 3) = true) ∧
    (let s : State := { State.reset with walkers := [(7, { walking := true })], walkStore := [(7 * 65536 + 3, 0x4C)], focus := .walker 7 }
     s.snappedBufs = [] ∧ s.agenda = [] ∧ s.poison = [] ∧ (s.walker 7).walking = true ∧ (s.walker 7).halted = false ∧ (s.walker 7).failed = false ∧
     nopOf coreAccepts (s.walkWords 7 (s.walker 7).step) = true) ∧
    (let s := region { run1 with st := .frozen, handler := true } { hflag := true, store := [(0, nopWord)] }
     s.snappedBufs = [] ∧ s.agenda = [] ∧ 0 = (s.slot 0).hpos ∧ 0 < (s.slot 0).count ∧ (s.tileAt 0 0).hflag = true ∧ (s.tileAt 0 0).hnext ≤ (s.slot 0).hcyc ∧ (s.tileAt 0 0).ecc = [] ∧
     nopOf handlerAccepts (wordsFrom (s.tileAt 0 0).store ((s.tileAt 0 0).eng 0).step 3) = true) := by decide +kernel
theorem wit_StepRunsWord_engine : let s := region run1 { engs := [(0, { st := .running })], store := [(0, nopWord)] }
    let u := lookState s 0
    let x := u.tileAt 0 (lookTile s 0)
    inCycle s 0 ∧ x.looks (lookEngine s 0) (u.slot 0).rcc = true ∧ x.mayFetch (lookEngine s 0) (u.slot 0).rcc = true ∧ x.ecc = [] ∧
    nopOf (engineAccepts (lookEngine s 0)) (wordsFrom x.store (x.fetchStep (lookEngine s 0)) 3) = true ∧ ∀ c, ∃ v, exec .nop { u with cur := c } = .next v :=
  ⟨by unfold inCycle; decide +kernel, by decide +kernel, by decide +kernel, by decide +kernel, by decide +kernel, fun _ => ⟨_, rfl⟩⟩
/-- A region of one tile stands on different tiles. -/
theorem apart_1 {r : Slot} (h : r.count = 1) : apart r := fun a b ha hb _ => by
  rw [h] at ha hb
  omega
/-- A region at the end of its cycle with a trap recorded, with and without a handler for its cause. -/
def trapAt (imgs : Store TileImg) : State :=
  region { run1 with pos := 7, imgs := imgs } { trapNow := some { cause := .brk, eng := 0, step := 0, opd0 := 0, opd1 := 0 } }
theorem wit_TrapRecord : (uWord 0 (tileOf .full)).clocked = true ∧ (uWord 0 (tileOf .full)).ctile.trapNow = none ∧
    ∀ imgs, imgs ∈ [[], [(0, ({ handler := some 0 } : TileImg))]] → let s := trapAt imgs
      s.snappedBufs = [] ∧ s.agenda = [] ∧ (s.slot 0).st = .running ∧ (s.slot 0).ended = false ∧ (s.slot 0).held = false ∧ (s.slot 0).pos = 6 * (s.slot 0).count + 1 ∧
      (s.slot 0).count = 1 ∧ (s.tileAt 0 0).trapNow.isSome = true := by decide +kernel

/-- The end of a handler cycle, with and without a fault in it; one tile's handler runs and one's does not. -/
theorem wit_TrapRecord_handlers : ∀ f, f ∈ [false, true] → ∀ h, h ∈ [false, true] →
    let s := region { run1 with st := .frozen, handler := true, hpos := 1, hfault := f } { hflag := h }
    s.snappedBufs = [] ∧ s.agenda = [] ∧ (s.slot 0).st = .frozen ∧ (s.slot 0).handler = true ∧ (s.slot 0).count ≤ (s.slot 0).hpos ∧ (s.slot 0).hfault = f ∧
    (s.slot 0).count = 1 ∧ (s.tileAt 0 0).hflag = h := by decide +kernel

/-- An order of engine 1 with its command; a tile with it; a transfer that has arrived. -/
def orderOf (effs : List Eff) (land : Option Nat) : Flight := { id := 7, eng := 1, retire := some 5, push := some 5, effs := effs, step := 0, raw := 0, land := land }
def flying (effs : List Eff) : State := region { run1 with pos := 6 } { tileOf .full with flights := [orderOf effs none] }
theorem wit_RegionEvents_retire : ∀ effs, effs ∈ [[Eff.fillDone 63], [.landed 63 [(0, 8)], .fillDone 63], [.drainDone 63], []] →
    ((flying effs).slot 0).atEndOf = true ∧ settled (flying effs) 0 0 ∧
    (((flying effs).tileAt 0 0).flights.filter (((flying effs).tileAt 0 0).due ((flying effs).slot 0).rcc)).head? = some (orderOf effs none) :=
  by unfold settled; decide +kernel
/-- A draining engine whose last order the landing was, and one that an ESTOP of the cycle made drain. -/
theorem wit_RegionEvents_overflow : let f : Flight := { id := 7, eng := 0, retire := some 5, push := some 5, effs := [], step := 0, raw := 0 }
    let s := region { run1 with pos := 6 } { tokens := [(fifo 0 5, 15)], flights := [f] }
    (s.slot 0).atEndOf = true ∧ settled s 0 0 ∧ ((s.tileAt 0 0).flights.filter ((s.tileAt 0 0).due (s.slot 0).rcc)).head? = some f ∧ 15 ≤ (s.tileAt 0 0).token 0 5 := by
  unfold settled
  decide +kernel
theorem wit_RegionEvents_drains : let x : Tile := { engs := [(1, { st := .draining }), (2, { st := .draining })], estopped := 4 }
    (x.eng 1).st = .draining ∧ x.estopped / 2 ^ 1 % 2 = 0 ∧ x.estopped / 2 ^ 2 % 2 = 1 ∧ x.flights = [] := by decide
theorem wit_RegionEvents_landing :
    (let s := region { run1 with holding := true } { tileOf .full with flights := [orderOf [.fillDone 63] (some 6)] }
     (orderOf [.fillDone 63] (some 6)).land.isSome = true ∧ (s.tileAt 0 0).ecc = [] ∧ (s.tileAt 0 0).due (s.slot 0).rcc (orderOf [.fillDone 63] (some 6)) = true) ∧
    (let s := region { run1 with holding := true, landHeld := 0x10000 } { tileOf .full with flights := [orderOf [.fillDone 63] (some 6)], cmds := [{ id := 8, eng := 1, kind := .cpin, sw := 0, phase := false, flight := some 7 }] }
     s.mustHold 0 = true ∧ (s.slot 0).limitNow ≤ (s.slot 0).landHeld ∧ ∀ k, k < (s.slot 0).count → (s.tileAt 0 k).trapNow = none) := by decide +kernel
/-- SQ stands at SEG 2,047, whose segment is pre-emptible. -/
def segTile : Tile := { engs := [(0, { st := .running })], store := [(0, 0x440407FF#32), (32 * 2047, 0x101)] }
theorem wit_RegionEvents_stop :
    (region { run1 with cutReq := true } segTile).wouldStop 0 0 = true ∧ (region { run1 with preq := true } segTile).overMaxpd 0 = true ∧
    (region { run1 with cutReq := true, held := true, mhzNext := some 400 } segTile).mayClock 0 = true ∧
    (region run1 {}).snap run1.job = {} ∧ (region run1 {}).nextSnapped 0 = none ∧
    ((region { run1 with flying := [{ src := 0, dst := 0, seq := 0, rank := false, km1 := 0, words := [7], avail := 5 }] } {}).slot 0).arrived 0 ≠ [] ∧
    (region { run1 with st := .frozen, replaying := true } {}).cmdsDone 0 = true ∧
    ((region { run1 with st := .frozen, replaying := true } {}).tileAt 0 0).bad 3 (Config.stowBase + 0x9000) 0x500 = false := by decide +kernel
theorem wit_RegionEvents_stow :
    (region { run1 with held := true, preq := true } { segTile with stopped := true, rended := true }).mayStow 0 = true ∧
    (region { run1 with st := .stowed, evictReq := true } {}).mayEvict 0 = true := by decide +kernel
/-- Job 0 in a CUTTING snapshot that grows its first folio, its area of 2 MiB at 2 MiB. -/
def cutting (x : Snap) : State :=
  { State.reset with
    mem := [(2 ^ 21 + 8, 1)], pot := (List.range 512).map (fun i => (512 + i, { st := .assigned, world := 0 }))
    snaps := [(0, { x with area := 2 ^ 21, st := .cutting, growing := true, foff := 0x5000 })], nodes := [{ vif := 0, lid := 0, st := .running }] }
/-- A region of one tile may cut; the record of a region of no tile needs no room, and the job's other region has not cut. -/
theorem wit_RegionEvents_cut : (∀ w, w < 2 → let s : State := { cutting {} with slots := [(0, { run1 with w := w, held := true, cutReq := true }), (1, run1)], tiles := [(0, tileOf .full)] }
    s.mayCut 0 = true ∧ 1 ∈ s.slotsOf 0 ∧ (s.snap 0).cutSlots.contains 1 = false ∧ s.poison = [] ∧ (s.tileAt 0 0).ecc = []) ∧
    ((cutting {}).cutTiles 0 (List.range 0)).isSome = true := ⟨by decide +kernel, rfl⟩
/-- The slot's registers for each command, and an entry record that replays. -/
theorem wit_RegionEvents_commands :
    ((region { run1 with done := false } {}).slot 0).done = false ∧ (State.reset.slot 1343).st = .free ∧ takesCmd (region run1 {}) 0 ∧
    takesCmd (region { run1 with st := .frozen } {}) 0 ∧
    (∀ b, let r : Slot := { run1 with ended := b, held := !b }
     takesCmd (region r {}) 0 ∧ ((region r {}).slot 0).st = .running ∧ (((region r {}).slot 0).held = true ∨ ((region r {}).slot 0).ended = true)) ∧
    (region run1 { seg := { opened := true }, sram := [(Config.stowBase + 0x92F0, 1)] }).replayOk 0 = true ∧ (region run1 {}).replayOk 0 = false ∧
    (let s : State := { region { run1 with st := .loaded, evicted := true } {} with phase := 4, health := [(0, 0x7F)] }
     takesCmd s 0 ∧ s.placeErr 0 (0, 0, 0) = 0 ∧ (s.slot 0).hbmch ≤ s.freeChans.length ∧ (s.snap (s.slot 0).job).st ≠ .rolling ∧
     (({ s with snaps := [(0, { st := .rolling })] } : State).snap (s.slot 0).job).st = .rolling) ∧
    (let s : State := { region { run1 with st := .stowed } {} with phase := 4, health := [(0, 0x7F)] }
     takesCmd s 0 ∧ s.placeErr 0 (0, 0, 0) = 0 ∧ (s.slot 0).cutReq = false ∧ (s.snap (s.slot 0).job).st ≠ .rolling ∧
     (s.tileAt 0 0).bad 3 Config.stowBase 65536 = false) ∧
    -- one that came from another package, for which its VIF has no quota, and has one
    (∀ q, q < 2 → let s : State := { region { run1 with st := .stowed, evicted := true, fresh := true } {} with phase := 4, health := [(0, 0x7F)], vifs := [(0, { ctl := q * 2 ^ 8 })] }
     takesCmd s 0 ∧ s.placeErr 0 (0, 0, 0) = 0 ∧ (s.slot 0).fresh = true ∧ s.quotaOk 0 = (q == 1)) ∧
    (∀ st, st ∈ [RSt.frozen, .stowed] → let s : State := { region { run1 with st := st } {} with phase := 4, health := [(0, 0x7F)], snaps := [(0, { st := .rolling })] }
     takesCmd s 0 ∧ (s.placeErr 0 (0, 0, 0) = 0 ↔ st = .stowed) ∧ (s.slot 0).st = st ∧ (s.snap (s.slot 0).job).st = .rolling) := by
  unfold takesCmd
  decide +kernel
theorem wit_RegionEvents_health :
    (region run1 {}).slotOn 0 = some 0 ∧ run1.margin = none ∧ max 400 (run1.clkReg - 100) ≤ 1800 ∧
    (let s : State := { region { run1 with mhz := 400, slow := [(0, 0)], margin := some 1 } {} with tb := 1000000, health := [(0, 0x7F)] }
     s.slotOn 0 = some 0 ∧ (s.slot 0).margin = some 1 ∧ s.tb < 1 + 1000000 ∧ (0, 0) ∈ (s.slot 0).slow ∧ 0 + 1000000 ≤ s.tb ∧ bits (s.healthOf 0) 0 1 = 1 ∧ (s.slot 0).phys 0 = 0) ∧
    (∀ b, b < 7 → bits (({ State.reset with health := [(1343, 0x7F)] } : State).healthOf 1343) b 1 = 1) ∧
    Store.get 0 9 ({ State.reset with poison := [(9, 3)] } : State).poison = 3 ∧
    (({ State.reset with tiles := [(0, { ecc := [(eccKey 6 (8 * 5), 1)] })] } : State).tile 0).single 6 (8 * 5) 8 ≠ 0 ∧
    (({ State.reset with tiles := [(0, { ecc := [(eccKey 6 (8 * 5), 1)] })] } : State).tile 0).bad 6 (8 * 5) 8 = false ∧
    (({ State.reset with tiles := [(0, { ecc := [(eccKey 6 (8 * 5), 2)] })] } : State).tile 0).bad 6 (8 * 5) 8 = true := by decide +kernel
/-- A region with one command in flight, and the page at 4,096 of `mapped`. -/
def withCmd (c : Cmd) : State := mapped (region run1 { tileOf .full with cmds := [c], fetchCI := some { va := 6144, done := none } })
/-- The same with the translation of the page to package 5, through a fabric window. -/
def farCmd (c : Cmd) : State :=
  { withCmd c with tlb := [{ ctx := 0, va := 4096, size := 0, pte := identity + 2 ^ 51, ok := true, win := some 5 }], tb := 9 }
def cmdOf (k : CmdKind) : Cmd := { id := 7, eng := 2, kind := k, sw := 31, phase := false, va := 8184, obj := 8184, size := 8 }
def oneElem (k : CmdKind) : Cmd := { cmdOf k with elems := [{ va := 8184, len := 8, data := List.replicate 8 1 }] }
/-- A copy out waits for a copy in of the same bytes that happens before it, and for no other (R67). -/
theorem test_read_before_write : let c : Cmd := { oneElem .cpout with id := 8, order := 1 }
    let s := withCmd { oneElem .cpin with eng := 1, order := 0 }
    ({ s with hb := [(0, .command 1)] } : State).inTurn 0 0 c [(8184, 8)] = false ∧ ({ s with hb := [(0, .command 1)] } : State).inTurn 0 0 c [(8176, 8)] = true ∧
    s.inTurn 0 0 c [(8184, 8)] = true := by decide +kernel
theorem wit_CommandEvents_copies :
    (∀ k, k ∈ [CmdKind.cpin, .cpslot, .xfetch, .cpout, .xpost] → let s := withCmd (oneElem k)
      s.cmdAt 0 0 7 = some (oneElem k) ∧ s.poison = [] ∧ s.snaps = [] ∧ s.translateRange 0 8184 8 kRead = .ok [(8184, 8)] ∧
      s.translateRange 0 8184 8 kWrite = .ok [(8184, 8)] ∧ isWindow 8184 = false ∧ s.readTurn 0 0 (oneElem k) [(8184, 8)] = true ∧
      s.inTurn 0 0 (oneElem k) [(8184, 8)] = true ∧ s.postTurn 0 0 (oneElem k) = true) ∧
    (let s := withCmd { oneElem .xpost with cw := some 8176, n := 8 }
     s.translate 0 8176 kAtomic = .pa 8176 ∧ (swArm (BitVec.ofNat 64 (word s.mem 8176 8)) 8).isSome = true) := by decide +kernel
/-- A pattern that keeps one field of 16 bits in each 128; 16 gathered bytes make one element. -/
theorem wit_CommandEvents_pattern : let c : Cmd := { oneElem .cpslot with pat := some (recPat recP, recType recP), gather := List.replicate 16 0 }
    let s := withCmd c
    s.cmdAt 0 0 7 = some c ∧ c.cw = none ∧ c.err = 0 ∧ c.elems ≠ [] ∧ s.poison = [] ∧ s.snaps = [] ∧ s.translateRange 0 8184 8 kRead = .ok [(8184, 8)] ∧
    s.readTurn 0 0 c [(8184, 8)] = true ∧ c.elems.eraseIdx 0 = [] ∧ patLanes (recPat recP) c.gather = 1 ∧ elemBits (recType recP) = 16 ∧
    ((bfxBytes (recPat recP) 0).any (fun b => [(0, 8)].any (fun r => decide (r.1 ≤ b ∧ b < r.1 + r.2)))) = true := by decide +kernel
theorem wit_CommandEvents_sync :
    (∀ k, k ∈ [CmdKind.atom, .acq, .acqCw, .rel] → let s := withCmd (cmdOf k)
      s.cmdAt 0 0 7 = some (cmdOf k) ∧ s.translate 0 8184 kAtomic = .pa 8184 ∧ s.syncPa 0 8184 kRead = .pa 8184 ∧ s.syncPa 0 8184 kWrite = .pa 8184 ∧
      s.inTurn 0 0 (cmdOf k) [(8184, 8)] = true ∧ s.readTurn 0 0 (cmdOf k) [(8184, 8)] = true ∧ (word s.mem 8184 8).testBit 63 = (cmdOf k).want ∧
      s.inScopeOf 8184 0 0 = true ∧ s.relReady 0 0 (cmdOf k) 8184 = true ∧ s.relFar 0 (cmdOf k) = false) ∧
    (let s := { withCmd (cmdOf .acq) with sync := [{ lo := 0, hi := 8, obj := 8184, scope := 1, pkg := 0, world := 0, jobid := 0, seat := { tile := 1 } }] }
     s.inScopeOf 8184 0 0 = false) ∧ (word (withCmd (cmdOf .acqCw)).mem 8184 8).testBit 63 ≠ ({ cmdOf .acqCw with want := true } : Cmd).want ∧
    (let c : Cmd := { cmdOf .vatom with elems := [{ va := 8128, len := 16, lanes := [(8128, 1), (8184, 2)] }] }
     let s := withCmd c
     s.translate 0 8128 kAtomic = .pa 8128 ∧ s.translate 0 8184 kAtomic = .pa 8184 ∧ s.inTurn 0 0 c [(8128, 64)] = true) ∧
    (let c : Cmd := { cmdOf .bindso with obj := 8184, n := 64, va := 4096, ret := true, ranges := [(4096, 64)], opd := 8184, scope := 6 }
     c.bindAligned = true ∧ ({ c with n := 8 } : Cmd).bindAligned = false ∧ ((withCmd c).sync.all (fun b => b.obj == c.opd || !b.meetsAny c.ranges)) = true ∧ c.bindFar = false ∧
     ({ c with ranges := [(5 * 2 ^ 52 + 2 ^ 51 + 4096, 64)] } : Cmd).bindFar = true ∧ ({ c with opd := 5 * 2 ^ 52 + 2 ^ 51 + 8184 } : Cmd).bindFar = true) := by
  decide +kernel
theorem wit_CommandEvents_far :
    (let s := farCmd (cmdOf .rel)
     s.syncPa 0 8184 kWrite = .pa (5 * 2 ^ 52 + 2 ^ 51 + 8184) ∧ isWindow (5 * 2 ^ 52 + 2 ^ 51 + 8184) = true ∧
     s.translateRange 0 8184 8 kWrite = .ok [(5 * 2 ^ 52 + 2 ^ 51 + 8184, 8)] ∧ s.relReady 0 0 (cmdOf .rel) (5 * 2 ^ 52 + 2 ^ 51 + 8184) = true ∧ s.relFar 0 (cmdOf .rel) = true) ∧
    (∀ k, k ∈ [CmdKind.cpin, .cpslot, .xfetch, .cpout, .xpost] → (farCmd (oneElem k)).waitsRemote 0 (oneElem k) = true ∧ (oneElem k).deadline ≤ (farCmd (oneElem k)).tb) ∧
    (∀ k, k ∈ [CmdKind.acq, .acqCw, .atom] → (farCmd (cmdOf k)).waitsRemote 0 (cmdOf k) = true) ∧
    (∀ c, c ∈ [{ cmdOf .bindso with ret := true, ranges := [(2 ^ 51, 64)] }, cmdOf .fetch] → (farCmd c).waitsRemote 0 c = true) ∧
    (farCmd (cmdOf .coll)).waitsRemote 0 { cmdOf .coll with remote := true } = true := by decide +kernel
/-- A BAR.pod that waits; a record that is fetched; a host's atomic on VIF 0. -/
theorem wit_CommandEvents_rest :
    (let s := region run1 { podDue := some 9, store := (encode (.bar 6 5)).map (fun w => (0, w)) }
     let u : State := { s with tb := 9 }
     (u.tileAt 0 0).podDue = some 9 ∧ 9 ≤ u.tb ∧ (u.tileAt 0 0).peekSq = some (none, .bar 6 5) ∧ u.cmdAt 0 0 7 = none ∧ (u.tileAt 0 0).fetchOf 1 = none ∧ (u.tileAt 0 0).fetchOf 2 = none) ∧
    (let s : State := { farCmd (cmdOf .fetch) with tiles := [(0, { fetchCO := some { va := 4096, deadline := 9 } })] }
     (s.tileAt 0 0).fetchOf 2 = some { va := 4096, deadline := 9 } ∧ (s.tileAt 0 0).fetchOf (3 - 2) = none ∧ (s.tileAt 0 0).podDue = none ∧ s.cmdAt 0 0 7 = none ∧
      s.translate 0 4096 kRead = .pa (5 * 2 ^ 52 + 2 ^ 51 + 4096) ∧ 9 ≤ s.tb) ∧
    (let s := { withCmd (cmdOf .fetch) with mem := Store.putL 0 [] 6144 rec0 }
     (s.tileAt 0 0).fetchOf 1 = some { va := 6144, done := none } ∧ (s.tileAt 0 0).cached 6144 = none ∧ (s.tileAt 0 0).cacheFree.isSome = true ∧ s.poison = [] ∧
     s.translateRange 0 6144 192 kRead = .ok [(6144, 192)] ∧ s.queueClear 0 0 1 (fun _ => true) [(6144, 192)] = true ∧ recOk (Store.getN 0 s.mem 6144 192) = true) ∧
    (let c : Cmd := { cmdOf .acq with eng := 1, va := 6328 }
     let s := withCmd c
     let u : State := s.setTile 0 ((s.tile 0).cacheAt 31 6144 rec0)
     c ∈ (s.tileAt 0 0).cmds ∧ (s.tileAt 0 0).cached 6144 = none ∧ (s.tileAt 0 0).cacheFree.isSome = true ∧ s.translateRange 0 6328 8 kRead = .ok [(6328, 8)] ∧
     ((u.tileAt 0 0).cached 6144).isSome = true ∧ (u.tileAt 0 0).fetchOf 1 = some { va := 6144, done := none }) ∧
    (let s : State := { State.reset with phase := 2, tlb := [{ ctx := 1344, va := 4096, size := 0, pte := identity, ok := true }], pot := [(1, { st := .assigned, world := 0 })] }
     (s.tlb.find? (fun k => k.ctx == vifCtx 0 && k.covers 8184)).map (fun e => pteAtom e.pte) = some 2 ∧ s.translate (vifCtx 0) 8184 kAtomic = .pa 8184) := by decide +kernel
/-! ## Tenancy, launch, snapshots and links -/

theorem no_dirty {s : State} (h : s.slots = []) : noDirty s := fun n t => by
  rw [State.dirtyVas, State.slot, h]
  rfl
/-- Pages 0 FREE, 1 ASSIGNED and 2 BOUNCE of world 63, and page 3 of world 1; world 63 has a key. -/
def owned : State :=
  { State.reset with pot := [(0, { st := .free }), (1, { st := .assigned, world := 63 }), (2, { st := .bounce, world := 63 }), (3, { st := .assigned, world := 1 })]
                     keys := [(63, some 1)], phase := 2 }
theorem wit_ComplexEvents_cores :
    ({ State.reset with evq := [⟨1, 0, 0⟩] } : State).evq = ⟨1, 0, 0⟩ :: [] ∧
    (({ State.reset with cores := [(15, { ipend := 1, imask := 1 })] } : State).core 15).takes = true ∧
    (State.reset.translate 1343 0 kRead = .miss ∧ (State.reset.walker (dieOf ((State.reset.slot 1343).phys 0))).walking = false) ∧
    (∀ b, let s : State := { State.reset with walkers := [(7, { walking := true })], tb := b }
     (s.walker 7).walking = true ∧ (s.walker 7).walkAt = 0 ∧ s.tb = b) ∧ State.reset.sdgo = false ∧
    (∀ (w : Option Word) (b : Nat), let s : State := { State.reset with walkers := [(7, { walking := true, wresp := w })], tb := b, cur := { agent := .walker 7 } }
     (s.walker 7).walking = true ∧ (s.walker 7).wresp = w) ∧ pteSize (BitVec.ofNat 64 (3 * 2 ^ 61)) = 3 ∧ pteSize 0 ≠ 3 ∧
    (let s : State := { State.reset with sdgo := true, sdwait := [0, 7] }
     s.sdgo = true ∧ s.sdwait.contains 7 = true ∧ 1 < s.sdwait.length ∧ s.bindsHeld (some 7) = false) ∧
    (let s : State := { State.reset with sdgo := true, sdwait := [7] }
     s.sdwait.contains 7 = true ∧ s.sdwait.length ≤ 1 ∧ s.betweenCycles = true ∧ s.bindsHeld none = false) ∧ noDirty State.reset :=
  ⟨rfl, by decide, by decide +kernel, fun _ => ⟨rfl, rfl, rfl⟩, rfl, fun _ _ => ⟨rfl, rfl⟩, by decide, by decide, by decide, by decide, no_dirty rfl⟩
/-- A BINDSO whose range the shoot-down's page has given, and that is still to bind it, holds the acknowledgement of its die. -/
theorem wit_ComplexEvents_held : ∀ d, d ∈ [none, some 0] →
    ({ withCmd { cmdOf .bindso with ret := true, va := 4096, n := 64, obj := 4096 } with sdgo := true, sdwait := [0], sdNow := (1, 0, 0, false) } : State).bindsHeld d = true := by
  decide +kernel
theorem wit_ComplexEvents_pages : owned.potBusy = false ∧ (owned.potOf 0).st = .free ∧ owned.keyValid 63 = true ∧ owned.keyValid 62 = false ∧ (owned.potOf 1).st ≠ .free ∧
    owned.potOf 2 = { st := .bounce, world := 63 } ∧ owned.potOf 1 = { st := .assigned, world := 63 } ∧ owned.betweenCycles = true ∧ noDirty owned ∧ owned.snaps = [] ∧
    (potPages - 1 < potPages ∧ (owned.potOf (potPages - 1)).st = .scrubbing) ∧
    (let s : State := { State.reset with tiles := [(1343, { scrub := some 63 })] }
     (s.tile 1343).scrub.isSome = true ∧ s.heldTile 1343 = false) :=
  ⟨rfl, by decide, by decide, by decide, by decide, by decide, by decide, by decide, no_dirty rfl, rfl, by decide +kernel, by decide⟩
theorem wit_ComplexEvents_keys : owned.wkBusy = false ∧ owned.keyValid 1 = false ∧ owned.scrubbing 1 = false ∧
    ({ owned with pot := [(9, { st := .scrubbing, world := 1 })] } : State).scrubbing 1 = true ∧
    ({ owned with keyz := [(63, some (15, 31, true))] } : State).keyz.find? (fun x => x.1 == 63) = some (63, some (15, 31, true)) ∧ Config.hbmBytes - 1 < Config.hbmBytes := by
  decide +kernel
/-- Page 1 of world 63 for VIF 0, which is of it. -/
def vifPage : State := { owned with vifs := [(0, { world := 63 })], tlb := [{ ctx := 1344, va := 4096, size := 0, pte := identity, ok := true }] }
theorem wit_ComplexEvents_access : 2 ≤ vifPage.phase ∧ (vifPage.vifOf 0).en = false ∧ vifPage.snaps = [] ∧ vifPage.poison = [] ∧
    vifPage.translateRange (vifCtx 0) 8184 8 kWrite = .ok [(8184, 8)] ∧ vifPage.ownsAll 63 8184 8 = true ∧ vifPage.ownsAll 63 8184 9 = false ∧
    (vifPage.vifOf 0).world ≠ 0 ∧ vifPage.ownedPage 63 8184 = true ∧ vifPage.betweenCycles = true := by decide +kernel

/-- A session at every stage, in phase 2. -/
theorem wit_Attestation : 2 ≤ vifPage.phase ∧
    (let x : Spdm := { version := true, caps := true, algs := true, session := true, exchanging := true, chunks := [[1]] }
     let s : State := { vifPage with vifs := [(0, { world := 63, spdm := x })] }
     s.spdm 0 = x ∧ s.translateRange (vifCtx 0) 8184 8 kWrite = .ok [(8184, 8)] ∧ s.snaps = [] ∧ (s.vifOf 0).world ≠ 0 ∧
     ({ s with bounces := [(255, { ctl := 63 * 2 ^ 56 })] } : State).bounce 255 = { ctl := 63 * 2 ^ 56 } ∧ ({ ctl := 63 * 2 ^ 56 } : Bounce).world = 63 ∧ 0 < x.chunks.length) ∧
    (State.reset.spdm 0).version = false ∧ State.reset.live 0 = false ∧
    ({ State.reset with worldDies := [(0, 128)], gated := 128 } : State).worldGated 0 = true ∧ State.reset.worldGated 0 = false := by decide +kernel

/-- Channel 255 of world 63: its window is page 1, its ring page 2; an inbound one holds the frame of 64 bytes for the window's first ones. -/
def channel (x : Bounce) : State :=
  { vifPage with bounces := [(255, { x with ctl := 63 * 2 ^ 56 + 4096 + x.ctl, ring := 8192, key := some 1 })], mem := [(8200, 64)] }
theorem wit_ServiceEvents_bounce :
    (let x := (channel {}).bounce 255
     x.en = false ∧ x.world ≠ 0 ∧ bits x.ring 0 4 ≤ 8 ∧ x.key.isSome = true ∧ (channel {}).ringOk x = true ∧ (channel {}).bounceCtx x = some 1344 ∧
     (channel {}).translateRange 1344 x.win x.wsize (if x.out then kRead else kWrite) = .ok [(4096, 4096)]) := by decide +kernel
theorem wit_ServiceEvents_frames :
    (let s := channel { ctl := 2 ^ 63, widx := 144 }
     let x := s.bounce 255
     let h := ringBytes s.mem x x.ridx 64
     x.en = true ∧ x.out = false ∧ 80 + recU h 8 4 ≤ x.held ∧ 80 + recU h 8 4 ≤ x.size ∧ recU h 0 8 = x.cnt ∧ frameOk x h = true ∧ 0 < recU h 8 4 ∧ s.bounceCtx x = some 1344 ∧
       (x.win + recU h 12 4) % 4096 + recU h 8 4 ≤ 4096 ∧ s.translateRange 1344 (x.win + recU h 12 4) 64 kWrite = .ok [(4096, 64)]) ∧
    (let s := channel { ctl := 2 ^ 63 + 2 ^ 62, asked := some (64, 4032) }
     let x := s.bounce 255
     x.en = true ∧ x.out = true ∧ x.asked = some (64, 4032) ∧ frameOk x (x.header 64 4032) = true ∧ x.held + 80 + 64 ≤ x.size ∧ s.ringOk x = true ∧
       s.bounceCtx x = some 1344 ∧ s.translateRange 1344 (x.win + 4032) 64 kRead = .ok [(8128, 64)]) := by decide +kernel
/-- An inbound channel, a frame of it that is sealed under its key and the vector of SEQ 0, and its ring with the frame. -/
def sealedChan : Bounce := (channel { ctl := 2 ^ 63, widx := 144 }).bounce 255
def sealedFrame : List Byte := gcmSeal 1 (frameIv 255 0) (ringBytes [(8200, 64)] sealedChan 0 64) (List.replicate 64 7)
def sealedRing : Store Byte := Store.putL 0 [(8200, 64)] 8256 sealedFrame
theorem length_sealedFrame : sealedFrame.length = 80 := by simp [sealedFrame, length_gcmSeal]
theorem sealedChan_ring : sealedChan.base = 8192 ∧ sealedChan.size = 4096 := by decide +kernel
theorem sealedRing_frame (i : Nat) (h : i < sealedFrame.length) : Store.get 0 (8256 + i) sealedRing = sealedFrame[i] := Store.get_putL_in 0 sealedFrame 8256 i [(8200, 64)] h
/-- Its header stands, and opening it gives the plaintext. -/
theorem wit_ServiceEvents_sealed : ringBytes sealedRing sealedChan 0 64 = ringBytes [(8200, 64)] sealedChan 0 64 ∧ sealedChan.cnt = 0 ∧ sealedChan.key = some 1 ∧
    gcmOpen 1 (frameIv 255 0) (ringBytes sealedRing sealedChan 0 64) ((ringBytes sealedRing sealedChan 0 144).drop 64) = some (List.replicate 64 7) := by
  have e : ringBytes sealedRing sealedChan 0 64 = ringBytes [(8200, 64)] sealedChan 0 64 := by
    refine List.map_congr_left fun k hk => ?_
    rw [sealedChan_ring.1, sealedChan_ring.2]
    exact Store.get_putL_other 0 _ _ _ _ (.inl (by have := List.mem_range.1 hk; omega))
  have d : (ringBytes sealedRing sealedChan 0 144).drop 64 = sealedFrame := by
    refine List.ext_getElem (by simp [ringBytes, length_sealedFrame]) fun i h1 h2 => ?_
    have hi : i < 80 := length_sealedFrame ▸ h2
    simp only [ringBytes, List.getElem_drop, List.getElem_map, List.getElem_range, sealedChan_ring.1, sealedChan_ring.2]
    rw [show 8192 + (0 + (64 + i)) % 4096 = 8256 + i by omega]
    exact sealedRing_frame i h2
  rw [e, d]
  exact ⟨rfl, by decide +kernel, by decide +kernel, gcmOpen_gcmSeal _ _ _ _⟩
theorem wit_ServiceEvents_power :
    (let s : State := { region run1 {} with watts := 10001 }
     s.shedcap < s.watts ∧ s.shedNext = some (1, [0]) ∧ max 400 (run1.clkReg - 100) ≤ 1800) ∧
    (let s : State := { region { run1 with preq := true, shedBy := 2 } {} with shed := [(0, 2, 0)] }
     s.watts * 100 ≤ s.shedcap * 95 ∧ (s.slot 0).st = .running ∧ (s.slot 0).preq = true ∧ (s.slot 0).shedBy = 2 ∧ (s.slot 0).moving = false) := by
  decide +kernel
/-- A queue of 4 KiB on page 2 with `n` units of 64 bytes, VIF 0, and the page that the packet names. -/
def queue (n : Nat) (mem : Store Byte) (nodes : List Node) : State :=
  { State.reset with
      phase := 4, mem := mem, nodes := nodes, health := [(0, 0x7F)],
      vifs := [(0, { qbase := 8192, qlog := 12, en := true, widx := 64 * n, ctl := 1 + 2 ^ 8 + 2 ^ 19 })],
      pot := [(1, { st := .assigned }), (2, { st := .assigned })],
      tlb := [{ ctx := 1344, va := 4096, size := 0, pte := identity, ok := true }, { ctx := 1344, va := 8192, size := 0, pte := identity + 4096, ok := true }] }
theorem wit_ServiceEvents_queue :
    (let s := queue 0 [] []
     let v := s.vifOf 0
     2 ≤ s.phase ∧ v.en = true ∧ v.widx % v.qsize + 64 ≤ v.qsize ∧ v.ready + 64 ≤ v.qsize ∧ s.translateRange (vifCtx 0) (v.qbase + v.widx % v.qsize) 64 kWrite = .ok [(8192, 64)] ∧
     v.qsize < v.widx % v.qsize + 4097) ∧
    (let s : State := { queue 0 [] [] with vifs := [(0, { qbase := 8192, qlog := 12 }), (1, {})] }
     (s.vifOf 0).en = false ∧ (s.vifOf 0).shapeOk = true ∧ s.translateRange (vifCtx 0) 8192 4096 kWrite = .ok [(8192, 4096)] ∧ (s.vifOf 1).shapeOk = false) := by decide +kernel
/-- CANCEL, RELEASE and PAD packets of one unit for node 1. -/
def shortPacket (ty : Nat) (st : NodeSt) : State := queue 1 [(8192, BitVec.ofNat 8 ty), (8193, 1), (8194, 1), (8196, 1)] [{ vif := 0, lid := 1, st := st, recorded := true, gx := 1, gy := 1, gz := 1 }]
def shortKind (ty : Nat) (st : NodeSt) : Bool := match (shortPacket ty st).readPacket 0 with
  | (u, some k) => k.ty == ty && !k.straddles && (ty == 0 || shortFormat k.bytes) && ((u.node 0 1).map (·.st) == some st) && (u.snap 0).st == .idle && (u.vifSlots 0).isEmpty
  | (_, none) => false
theorem wit_ServiceEvents_packets : shortKind 2 .running = true ∧ shortKind 2 .done = true ∧ shortKind 3 .held = true ∧ shortKind 0 .running = true := by decide +kernel
/-- A LAUNCH of one instance; its image at 4,096 is one tile, whose SQ runs SEG 0 and REND from step 32, and whose wait graph names the
five engines that REND waits for. -/
def launchMem : Store Byte :=
  [(4096, 73), (4097, 77), (4098, 89), (4099, 77), (4101, 1), (4104, 1), (4105, 1), (4108, 232), (4109, 3), (4128, 128), (4132, 192), (4137, 4), (4140, 5), (4144, 192), (4145, 2), (4148, 1),
   (4801, 3), (4804, 168), (4864, 32), (4867, 128), (4868, 33), (4872, 33), (4876, 33), (4880, 33), (4884, 33), (4896, 1), (4897, 1), (5026, 4), (5027, 68), (5030, 16), (5031, 64)] ++
  [(5120, 33), (5124, 3), (5128, 255), (5129, 255), (5132, 3), (5133, 1), (5136, 33), (5140, 3), (5144, 255), (5145, 255), (5148, 3), (5149, 2), (5152, 33), (5156, 3), (5160, 255), (5161, 255), (5164, 3), (5165, 3), (5168, 33), (5172, 3), (5176, 255), (5177, 255), (5180, 3), (5181, 4), (5184, 33), (5188, 3), (5192, 255), (5193, 255), (5196, 3), (5197, 5)] ++
  [(8192, 1), (8193, 2), (8194, 1), (8196, 1), (8201, 16), (8217, 28), (8224, 1), (8226, 1), (8228, 1)]
def launches : Bool := match (queue 2 launchMem []).readPacket 0 with
  | (u, some k) => k.ty == 1 && !k.straddles && launchFormat k.bytes && decide (u.nodes.length < 4096) && (match launchChecks 0 k.bytes u with
    | (v, .ok (.node x)) => x.total != 0 && v.nodes.isEmpty
    | _ => false)
  | (_, none) => false
theorem wit_ServiceEvents_launch : launches = true := by decide +kernel
theorem wit_ServiceEvents_place : let x : Node := { vif := 0, lid := 1, st := .ready, gx := 1, gy := 1, gz := 1, img := { w := 1, h := 1, tiles := [{}] } }
    let c := (queue 0 [] [x]).settleGraph
    c.candidates.head? = some x ∧ x.gang = false ∧ c.freeSlotNo = some 0 ∧ c.vifTiles 0 + x.img.w * x.img.h ≤ (c.vifOf 0).tq ∧ c.vifChans 0 + x.img.hbmch ≤ (c.vifOf 0).chq ∧
    x.img.hbmch ≤ c.freeChans.length ∧ 2 ≤ (queue 0 [] [x]).phase ∧ (c.snap (c.nodeJob x)).st ≠ .rolling ∧ c.fits ((c.slot 0).load x x.next (c.vifOf 0).world x.img) c.openTile (0, 0, 0) = true ∧ (c.slot 0).moving = false := by decide +kernel
/-- Job 0 with a region that runs, packages 3 and 4 beside this one, and its snapshot record; what is missing in it is at rest. -/
def snapped (x : Snap) : State :=
  { jobWord 2 with snaps := [(0, { x with area := 2 ^ 21 })], mem := [(2 ^ 21 + 8, 1), (2 ^ 21 + 12, 2), (2 ^ 21 + 0x500, 0x01), (2 ^ 21 + 0x507, 0x90), (2 ^ 21 + 0x1000, 3), (2 ^ 21 + 0x1002, 4)] }
theorem wit_SnapshotEvents_area : ((snapped {}).handleNode (snapped {}).snsel).map (fun x => (snapped {}).nodeJob x) = some 0 ∧ ((snapped {}).snap 0).st = .idle ∧
    bits (2 ^ 52 - 2 ^ 21) 0 21 = 0 ∧ State.reset.hasJob 0 = false ∧ (snapped {}).poison = [] := by decide +kernel
theorem wit_SnapshotEvents_bookmark : (snapped {}).hasJob 0 = true ∧ (snapped {}).msgsFrom 0 3 = [] ∧ ((snapped {}).snap 0).seen.contains 2 = false ∧ ((snapped {}).snap 0).markers.contains 3 = false ∧ (snapped {}).inbox = [] ∧
    (3 + 4 * 2 ^ 13) % 2 ^ 13 = 3 ∧ ((snapped { st := .cutting, id := 2 }).snap 0).st = .cutting ∧ ((snapped { st := .cutting, id := 2 }).snap 0).id ≠ 1 ∧ ((snapped { seen := [2] }).snap 0).seen.contains 2 = true ∧ Startable (snapped {}) 0 ∧ (snapped {}).catFind 0 2 = none ∧
    (snapped {}).area 0 ≠ 0 ∧ (snapped {}).areaU 0 0 8 = 0 / 64 ∧ (snapped { st := .recording, id := 2 }).peers 0 = [3, 4] ∧ someRuns (snapped {}) 0 ∧
    ((snapped { markers := [3] }).snap 0).markers.contains 3 = true ∧ ((snapped { st := .cutting, id := 2 }).snap 0).closed.contains 3 = false :=
  ⟨by decide, by decide, by decide, by decide, rfl, by decide, by decide, by decide, by decide, startable_u _ rfl rfl (by decide), by decide +kernel, by decide, by decide, by decide +kernel, ⟨0, by decide, rfl, rfl, rfl⟩, by decide, by decide⟩
theorem wit_SnapshotEvents_ends :
    (let s := snapped { st := .reported, id := 2, reports := [0, 4], who := some (15, 31, true), entry := 16 }
     let x := s.snap 0
     x.rollWho = none ∧ x.issuer = s.pkgid ∧ x.id = 2 ∧ x.st = .reported ∧ x.reports.contains 3 = false ∧ (∀ p, p ∈ s.pkgid :: s.peers 0 → p = 3 ∨ x.reports.contains p = true) ∧
     x.who = some (15, 31, true) ∧ x.area % 4096 = 0 ∧ (s.committed 0).length < 16) ∧
    (let s := snapped { st := .cutting, id := 2, reports := [] }
     (s.snap 0).st ≠ .reported ∧ (s.snap 0).started + s.jobTimeout 0 ≤ ({ s with tb := 10 ^ 9 } : State).tb) := by decide +kernel
/-- A folio that grows, and a page or a buffer of one granule that waits for its copy. -/
theorem wit_SnapshotEvents_copies :
    (let s : State := { cutting { pages := [9] } with heldPages := [9] }
     s.heldPages.contains 9 = true ∧ s.heldPages.contains 8 = false ∧ (s.snap 0).pages.contains 9 = true ∧ (s.snap 0).old = none ∧ s.folioHas 0 1 (4096 * 9) = false ∧ folioFits s 0 4112) ∧
    (let s : State := { cutting {} with
       tiles := [(0, { bufs := [(63, { st := .full, snapped := true })] })],
       slots := [(0, { run1 with imgs := [(0, { decls := [(63, { valid := true, base := 0, len := 1 })] })] })] }
     s.nextSnapped 0 = some (0, 63) ∧ (s.tileAt 0 0).ecc = [] ∧ s.folioHas 0 2 (bufKey 0 0 63) = false ∧ folioFits s 0 (folioRecord 2 (bufKey 0 0 63) (s.bufRecord 0 0 63)).length) := by
  unfold folioFits
  decide +kernel
/-- A message of package 3 for page 1 of world 0, with a completion word there. -/
def message (kind : Nat) (cw : Option Nat) (armed : Bool) (x : Snap) : State :=
  { cutting x with
    inbox := [(7, { src := 3, jobid := 0, va := 8176, world := 0, data := [1, 0, 0, 0, 0, 0, 0, 0], cw := cw, kind := kind, armed := armed })],
    pot := (1, { st := .assigned, world := 0 }) :: (cutting x).pot, snaps := [(0, { x with area := 2 ^ 21, growing := true, foff := 0x5000 })] }
theorem wit_SnapshotEvents_arrive :
    (∀ e, e ∈ [(SnSt.idle, [3], ([] : List Nat)), (.idle, [], []), (.cutting, [], [3]), (.cutting, [], []), (.rolling, [3], []), (.rolling, [], []), (.recording, [], []), (.recording, [], [3])] →
      let s := message 0 none false { st := e.1, markers := e.2.1, closed := e.2.2 }
      (s.snap 0).st = e.1 ∧ (s.snap 0).markers = e.2.1 ∧ (s.snap 0).closed = e.2.2 ∧ (s.msgOfId 7).map (·.armed) = some false ∧ (s.msgOfId 7).map (s.firstMsg 7) = some true) ∧
    (let s := message 0 none false { st := .recording }
     (s.msgOfId 7).map (fun m => (s.folioAppend m.job 4 0 m.bytes []).isSome) = some true) ∧
    (let s := { message 0 (some 8184) false {} with snaps := [] }
     (s.snap 0).st = .idle ∧ s.poison = [] ∧ s.ownsAll 0 8184 8 = true ∧ (s.msgOfId 7).map (fun m => (swArm (BitVec.ofNat 64 (word s.mem 8184 8)) (m.size + m.outside)).isSome) = some true) := by decide +kernel
theorem wit_SnapshotEvents_perform : ∀ kind, kind < 6 → let s := { message kind none true {} with snaps := [] }
    (s.msgOfId 7).map (·.kind) = some kind ∧ (s.msgOfId 7).map (s.firstMsg 7) = some true ∧ s.poison = [] ∧ s.ownsAll 0 8176 8 = true ∧ s.ownsAll 0 8176 4 = true ∧
    s.ownsAll 1 8176 8 = false ∧ (s.msgOfId 7).map (fun m => s.msgInScope m) = some true ∧
    (let u : State := { s with sync := [{ lo := 0, hi := 8, obj := 8176, scope := 4, pkg := 0, world := 0, jobid := 0 }] }
     (u.msgOfId 7).map (fun m => u.msgInScope m) = some false) := by decide +kernel
/-- A BINDSO of package 3 to an object of page 1, its range the rest of the page; a binding of another object, of the range's last bytes or of none. -/
theorem wit_SnapshotEvents_binds : ∀ b, b ∈ [4096, 8184] →
    let s : State := { State.reset with
      inbox := [(7, { src := 3, jobid := 0, va := 8184, world := 0, data := [], cw := none, kind := 6, armed := true, op := 6, ranges := [(4104, 4088)] })],
      pot := [(1, { st := .assigned, world := 0 })], sync := [{ lo := b, hi := b + 8, obj := 4096, scope := 4, pkg := 0, world := 0, jobid := 0 }] }
    (s.msgOfId 7).map (·.kind) = some 6 ∧ (s.msgOfId 7).map (s.firstMsg 7) = some true ∧ s.ownsAll 0 8184 8 = true ∧ isWindow 4104 = false ∧ s.ownsAll 0 4104 4088 = true ∧
    s.sync.map (fun e => e.meetsAny [(4104, 4088)]) = [b == 8184] := by decide +kernel

/-- Ports that are up, a flit of 236 zeros for this package, and one of 255 bytes. -/
theorem wit_LinkEvents : bits 3 1 1 = 1 ∧ bits 1 1 1 = 0 ∧ 2 ≤ owned.phase ∧ (4 : Nat) ≠ 0 ∧ 768 < 769 ∧
    (let x := ({ State.reset with ports := [(47, { up := true })] } : State).port 47
     x.up = true ∧ x.training = false ∧ x.queue = [] ∧ recU (flitBytes 5 0 1 0 2 5 (List.replicate 236 0)) 4 4 = x.rxseq) ∧
    flitOk (flitBytes 5 0 1 0 2 5 (List.replicate 236 0)) = true ∧ flitOk (List.replicate 255 0) = false ∧
    (let s : State := { State.reset with phase := 3, chans := [(511, { st := 1 })] }
     Store.get ({} : Chan) 511 s.chans = { st := 1 } ∧ (Store.get ({} : Chan) 0 s.chans).st < 2) ∧
    (let s : State := { State.reset with phase := 3, chans := [(511, { st := 1, pass := true, rdc := 4 })] }
     s.phase = 3 ∧ (Store.get ({} : Chan) 511 s.chans).st = 1 ∧ (Store.get ({} : Chan) 511 s.chans).pass = true) := by decide +kernel
end Sys2Proof.Tests
end

section
/-! PROOFS. The scalar words of MAJ 0x00 to 0x08, the branches and jumps, NOP and HALT (R149 to R157, R175, R184):
their values, their flow of control, and what they leave unchanged. -/

namespace Sys2Proof.Machine
open Sys2Proof.Claims

/-! ### The values of Tables 8.2 and 8.3 -/

theorem shamt_eq (b : Word) : shamt b = b.toNat % 64 := by simp [shamt, bits]

theorem bits_one (v k : Nat) : bits v k 1 = (v.testBit k).toNat := by simp [bits, Nat.toNat_testBit]

theorem minS_eq (a b : Word) : minS a b = if b.slt a then b else a := by
  by_cases h : a.toInt ≤ b.toInt <;> simp [minS, BitVec.slt, h, not_lt.2, not_le.1]
theorem maxS_eq (a b : Word) : maxS a b = if a.slt b then b else a := by
  obtain h | h | h := lt_trichotomy a.toInt b.toInt
  · simp [maxS, BitVec.slt, h, h.le]
  · simp [maxS, BitVec.eq_of_toInt_eq h]
  · simp [maxS, BitVec.slt, h.not_ge, h.not_gt]
theorem minU_eq (a b : Word) : minU a b = if b.ult a then b else a := by
  by_cases h : a.toNat ≤ b.toNat <;> simp [minU, BitVec.ult, h, not_lt.2, not_le.1]
theorem maxU_eq (a b : Word) : maxU a b = if a.ult b then b else a := by
  obtain h | h | h := lt_trichotomy a.toNat b.toNat
  · simp [maxU, BitVec.ult, h, h.le]
  · simp [maxU, BitVec.eq_of_toNat_eq h]
  · simp [maxU, BitVec.ult, h.not_ge, h.not_gt]

/-- Leading zeros are counted from the top bit downwards. -/
theorem clzFrom_eq (v n : Nat) : clzFrom v n = ((List.range n).takeWhile (fun i => !v.testBit (n - 1 - i))).length := by
  induction n with
  | zero => rfl
  | succ n ih =>
    have tail : (fun i => !v.testBit (n - 1 - i)) = (fun i => !v.testBit (n + 1 - 1 - i)) ∘ Nat.succ := by
      funext i
      simp [Nat.sub_sub, Nat.add_comm 1 i]
    rw [clzFrom, ih, bits_one, List.range_succ_eq_map, List.takeWhile_cons, tail, List.takeWhile_map]
    cases h : v.testBit n <;> simp [h]

/-- Trailing zeros are counted from bit `k` upwards. -/
theorem ctzFrom_eq (v k n : Nat) : ctzFrom v k n = ((List.range n).takeWhile (fun i => !v.testBit (k + i))).length := by
  induction n generalizing k with
  | zero => rfl
  | succ n ih =>
    have tail : (fun i => !v.testBit (k + 1 + i)) = (fun i => !v.testBit (k + i)) ∘ Nat.succ := by
      funext i
      simp [Nat.add_assoc, Nat.add_comm 1 i]
    rw [ctzFrom, ih, bits_one, List.range_succ_eq_map, List.takeWhile_cons, tail, List.takeWhile_map]
    cases v.testBit k <;> simp

theorem popFrom_eq (v n : Nat) : popFrom v n = ((List.range n).filter v.testBit).length := by
  induction n with
  | zero => rfl
  | succ n ih =>
    rw [popFrom, ih, bits_one, List.range_succ, List.filter_append, List.length_append]
    cases h : v.testBit n <;> simp [h]

theorem revFrom_lt (v n : Nat) : revFrom v n < 2 ^ n := by
  induction n generalizing v with
  | zero => simp [revFrom]
  | succ n ih =>
    have h := ih (v / 2)
    rw [revFrom, bits_one, Nat.pow_succ]
    cases v.testBit 0 <;> simp <;> omega

/-- Bit `i` of the reversed number is bit `n - 1 - i`. -/
theorem testBit_revFrom (v n i : Nat) : (revFrom v n).testBit i = (decide (i < n) && v.testBit (n - 1 - i)) := by
  induction n generalizing v with
  | zero => simp [revFrom]
  | succ n ih =>
    rw [revFrom, bits_one, Nat.mul_comm, Nat.testBit_two_pow_mul_add _ (revFrom_lt _ _), ih, Nat.testBit_bool_toNat, Nat.testBit_div_two]
    obtain h | rfl | h := Nat.lt_trichotomy i n
    · simp only [h, Nat.lt_succ_of_lt h, if_true, decide_true, Bool.true_and]
      congr 1
      omega
    · simp
    · simp [h.not_gt, show ¬ i < n + 1 by omega, Nat.sub_ne_zero_of_lt h]

theorem clz64_eq (a : Word) : clz64 a = BitVec.ofNat 64 ((List.range 64).takeWhile (fun i => !a.getLsbD (63 - i))).length := by
  rw [clz64, clzFrom_eq]
  rfl
theorem ctz64_eq (a : Word) : ctz64 a = BitVec.ofNat 64 ((List.range 64).takeWhile (fun i => !a.getLsbD i)).length := by
  simp only [ctz64, ctzFrom_eq, Nat.zero_add, BitVec.testBit_toNat]
theorem popc64_eq (a : Word) : popc64 a = BitVec.ofNat 64 ((List.range 64).filter a.getLsbD).length := by
  rw [popc64, popFrom_eq]
  rfl
theorem brev64_eq (a : Word) : brev64 a = a.reverse := by
  apply BitVec.eq_of_getLsbD_eq
  intro i hi
  rw [brev64, BitVec.getLsbD_ofNat, testBit_revFrom, BitVec.getLsbD_reverse, BitVec.getMsbD_eq_getLsbD]
  simp [hi, BitVec.testBit_toNat]

/-- The high half of a 128-bit product taken as an integer. -/
theorem extractLsb'_ofInt_high (x : Int) : (BitVec.ofInt 128 x).extractLsb' 64 64 = BitVec.ofInt 64 (x / 2 ^ 64) := by
  apply BitVec.eq_of_toNat_eq
  simp only [BitVec.extractLsb'_toNat, BitVec.toNat_ofInt, Nat.shiftRight_eq_div_pow]
  omega
theorem mulh64_eq (a b : Word) : mulh64 a b = (a.signExtend 128 * b.signExtend 128).extractLsb' 64 64 := by
  rw [mulh64, ← extractLsb'_ofInt_high, BitVec.ofInt_mul]
  rfl
theorem mulhn64_eq (a b : Word) : mulhn64 a b = (a.zeroExtend 128 * b.zeroExtend 128).extractLsb' 64 64 := by
  apply BitVec.eq_of_toNat_eq
  have ha : a.toNat % 2 ^ 128 = a.toNat := Nat.mod_eq_of_lt (by omega)
  have hb : b.toNat % 2 ^ 128 = b.toNat := Nat.mod_eq_of_lt (by omega)
  simp only [mulhn64, BitVec.toNat_ofNat, BitVec.extractLsb'_toNat, Nat.shiftRight_eq_div_pow, BitVec.toNat_mul, BitVec.toNat_setWidth, ha, hb]
  omega

theorem div64_eq (a b : Word) : div64 a b = if b = 0 then BitVec.allOnes 64 else a.sdiv b := by
  have h : BitVec.ofInt 64 (a.toInt.tdiv b.toInt) = a.sdiv b := BitVec.eq_of_toInt_eq (by rw [BitVec.toInt_ofInt, BitVec.toInt_sdiv])
  rw [div64, h]
theorem rem64_eq (a b : Word) : rem64 a b = if b = 0 then a else a.srem b := by
  rw [rem64, ← BitVec.toInt_srem, BitVec.ofInt_toInt]
theorem divn64_eq (a b : Word) : divn64 a b = if b = 0 then BitVec.allOnes 64 else a / b := by
  rw [divn64, ← BitVec.toNat_udiv, BitVec.ofNat_toNat, BitVec.setWidth_eq]
theorem remn64_eq (a b : Word) : remn64 a b = if b = 0 then a else a % b := by
  rw [remn64, ← BitVec.toNat_umod, BitVec.ofNat_toNat, BitVec.setWidth_eq]

/-- LUI's immediate is the 16-bit field with its sign, shifted (R153). -/
theorem lui_eq {imm : Nat} (h : imm < 2 ^ 16) : BitVec.ofInt 64 (sext 16 imm * 2 ^ 16) = (BitVec.ofNat 16 imm).signExtend 64 <<< 16 := by
  have hs : sext 16 imm = (BitVec.ofNat 16 imm).toInt := by
    rw [BitVec.toInt_eq_toNat_cond, BitVec.toNat_ofNat, Nat.mod_eq_of_lt h, sext]
    split <;> split <;> omega
  rw [hs, BitVec.shiftLeft_eq_mul_twoPow, BitVec.ofInt_mul]
  rfl

/-! ### A scalar word that nothing delays -/

theorem Effect.refl (s : State) : Effect s s := ⟨.refl s, fun _ => rfl, rfl, rfl⟩

/-- A word of plain scalar needs that nothing delays makes its effect and its bookkeeping. -/
theorem State.scalarWord_prompt {s : State} (hs : s.prompt) {reads : List Nat} {rd lat : Nat} {unit : Option (Nat × Nat)}
    {body : State → Except Trap (State × Flow)} {u : State} {f : Flow} (hb : body s = .ok (u, f)) :
    s.scalarWord { reads := reads, dest := rd, lat := lat, unit := unit } body =
      u.commitScalar { reads := reads, dest := rd, lat := lat, unit := unit } f :=
  State.scalarWord_go (r := (u, f)) rfl (State.scalarGate_go _ hs rfl rfl noCtl_pops) (by rw [State.popFor_none _ _ _ noCtl_pops, hb])

/-- A word of plain scalar needs that nothing delays takes the trap that its own checks raise. -/
theorem State.scalarWord_prompt_error {s : State} (hs : s.prompt) {reads : List Nat} {rd lat : Nat} {unit : Option (Nat × Nat)}
    {body : State → Except Trap (State × Flow)} {t : Trap} (hb : body s = .error t) :
    s.scalarWord { reads := reads, dest := rd, lat := lat, unit := unit } body = s.takeTrap t :=
  State.scalarWord_error rfl (State.scalarGate_go _ hs rfl rfl noCtl_pops) (by rw [State.popFor_none _ _ _ noCtl_pops, hb])

/-- A register write leaves the loop stack of the agent in hand. -/
theorem State.wrG_loopsOf (s : State) (rd : Nat) (v : Word) : (s.wrG rd v).loopsOf = s.loopsOf := by
  by_cases hr : rd = 0
  · simp [State.wrG, hr]
  · cases hu : s.atU with
    | true => simp [State.loopsOf, State.wrG, hr, hu]
    | false => simp [State.loopsOf, State.wrG, hr, hu, State.setCcore_ccore]

/-- The earliest handler cycle of the next word, after a word of a handler (R295). -/
theorem Effect.commitScalar_hnext {s u : State} (h : Effect s u) (n : Need) (f : Flow) (hh : s.inHandler = true) :
    (u.commitScalar n f).ctile.hnext = s.region.hcyc + f.delay := by
  have hu : s.atU = true := by
    simp only [State.inHandler, Bool.and_eq_true] at hh
    exact hh.1.1
  rw [State.commitScalar_handler n f (h.atU.trans hu) (h.inHandler.trans hh), State.setCtile_ctile, ← h.region]
  rfl

/-- A word that writes at most `g[rd]` has changed nothing else but its bookkeeping. -/
theorem Booked.onlyG {s t : State} {rd : Nat} {v : Word} {n : Need} {f : Flow} (b : Booked s (s.wrG rd v) t n f) : OnlyG s t where
  own := b.own
  tile hu := by
    rw [b.tile hu]
    exact State.wrG_bare s rd v hu
  core hu := by
    rw [b.core hu]
    exact State.wrG_bareCore s rd v hu
  engines := b.engines

/-- A word without a register effect is one that writes g0, which discards the write (R148). -/
theorem Booked.onlyG_same {s t : State} {n : Need} {f : Flow} (b : Booked s s t n f) : OnlyG s t :=
  Booked.onlyG (rd := 0) (v := 0) b

/-- A word whose flow is `fall` and whose effect leaves the loop stack goes to the following step (R159). -/
theorem Booked.fallsThrough {s u t : State} {n : Need} (b : Booked s u t n .fall) (hl : u.loopsOf = s.loopsOf) : fallsThrough s t := by
  have hp := b.pc
  have hs := b.loops
  rw [hl] at hp hs
  rw [Machine.fallsThrough, hp, hs]
  cases s.inHandler <;> simp [Flow.next]

/-- A word whose flow is a jump and whose effect leaves the loop stack transfers control to its target (R159, R295). -/
theorem Effect.transfers {s u : State} (h : Effect s u) (n : Need) (p : Nat) (hp : n.ctl.pushes = false) (hl : u.loopsOf = s.loopsOf) :
    Transfers s (u.commitScalar n (.jump p)) p where
  pc := (h.book n (.jump p) hp).pc
  loops := by
    rw [(h.book n (.jump p) hp).loops, hl]
    rfl
  delay := (h.book n (.jump p) hp).next
  hdelay := h.commitScalar_hnext n (.jump p)

/-! ### Integer and immediate words (R149 to R153) -/

/-- The outcome is a step in which `s` issues a word that writes `v` to `g[rd]`, readable after `lat` cycles. -/
def State.Writes (s : State) (o : Host.Outcome State Fault Refusal) (rd lat : Nat) (v : Word) : Prop :=
  ∃ t, o = .next t ∧ WritesG s t rd lat v

theorem State.writes_aluWord {s : State} (hs : s.prompt) {reads : List Nat} {rd lat : Nat} {unit : Option (Nat × Nat)}
    {f : State → Word} {v : Word} (hu : ∀ x, unit = some x → x.1 ≠ rd) (hv : f s = v) :
    s.Writes (.next (s.aluWord reads rd lat unit f)) rd lat v :=
  ⟨_, rfl, hv ▸ State.aluWord_writes reads rd lat unit f hs hu⟩
/-- A word of a pipelined unit. -/
theorem State.writes_pipelined {s : State} (hs : s.prompt) {reads : List Nat} {rd lat : Nat} {f : State → Word} {v : Word} (hv : f s = v) :
    s.Writes (.next (s.aluWord reads rd lat none f)) rd lat v :=
  State.writes_aluWord hs (fun _ h => nomatch h) hv
/-- A word of the divider, whose readiness key lies beyond those of the registers. -/
theorem State.writes_divider {s : State} (hs : s.prompt) {reads : List Nat} {rd lat occ : Nat} {f : State → Word} {v : Word} (hrd : rd < 32)
    (hv : f s = v) : s.Writes (.next (s.aluWord reads rd lat (some (keyDiv, occ)) f)) rd lat v :=
  State.writes_aluWord hs (by rintro _ ⟨⟩; exact hrd.ne') hv

theorem sr3_rd_lt {d s t : Nat} (h : sr3 d s t = true) : d < 32 := by
  simp only [sr3, Bool.and_eq_true, decide_eq_true_eq] at h
  omega

theorem lui_imm_lt {rd imm : Nat} (h : (Instr.lui rd imm).wf = true) : imm < 2 ^ 16 :=
  of_decide_eq_true (Bool.and_eq_true_iff.mp h).2

end Sys2Proof.Machine

namespace Sys2Proof.Proofs
open Sys2Proof.Machine Sys2Proof.Claims

/-- MAJ 0x00 and 0x01, row by row of Tables 8.2 and 8.3. -/
theorem exec_arithmetic {i : Instr} {w : RegWrite} {s : State} (hs : s.prompt) (hwf : i.wf = true) (h : arithmetic i = some w) :
    s.Writes (exec i s) w.rd w.lat (w.value s.rdG) := by
  cases i with
  | add rd rs rt => cases h; exact State.writes_pipelined hs rfl
  | sub rd rs rt => cases h; exact State.writes_pipelined hs rfl
  | and rd rs rt => cases h; exact State.writes_pipelined hs rfl
  | or rd rs rt => cases h; exact State.writes_pipelined hs rfl
  | xor rd rs rt => cases h; exact State.writes_pipelined hs rfl
  | shl rd rs rt => cases h; exact State.writes_pipelined hs (congrArg (shl64 _) (shamt_eq _))
  | shr rd rs rt => cases h; exact State.writes_pipelined hs (congrArg (shr64 _) (shamt_eq _))
  | sra rd rs rt => cases h; exact State.writes_pipelined hs (congrArg (sra64 _) (shamt_eq _))
  | slt rd rs rt => cases h; exact State.writes_pipelined hs rfl
  | sltn rd rs rt => cases h; exact State.writes_pipelined hs rfl
  | min rd rs rt => cases h; exact State.writes_pipelined hs (minS_eq _ _)
  | max rd rs rt => cases h; exact State.writes_pipelined hs (maxS_eq _ _)
  | minn rd rs rt => cases h; exact State.writes_pipelined hs (minU_eq _ _)
  | maxn rd rs rt => cases h; exact State.writes_pipelined hs (maxU_eq _ _)
  | sel rd rc rs rt => cases h; exact State.writes_pipelined hs (ite_not ..).symm
  | clz rd rs => cases h; exact State.writes_pipelined hs (clz64_eq _)
  | ctz rd rs => cases h; exact State.writes_pipelined hs (ctz64_eq _)
  | popc rd rs => cases h; exact State.writes_pipelined hs (popc64_eq _)
  | brev rd rs => cases h; exact State.writes_pipelined hs (brev64_eq _)
  | mul rd rs rt => cases h; exact State.writes_pipelined hs rfl
  | mulh rd rs rt => cases h; exact State.writes_pipelined hs (mulh64_eq _ _)
  | mulhn rd rs rt => cases h; exact State.writes_pipelined hs (mulhn64_eq _ _)
  | div rd rs rt => cases h; exact State.writes_divider hs (sr3_rd_lt hwf) (div64_eq _ _)
  | divn rd rs rt => cases h; exact State.writes_divider hs (sr3_rd_lt hwf) (divn64_eq _ _)
  | rem rd rs rt => cases h; exact State.writes_divider hs (sr3_rd_lt hwf) (rem64_eq _ _)
  | remn rd rs rt => cases h; exact State.writes_divider hs (sr3_rd_lt hwf) (remn64_eq _ _)
  | _ => nomatch h

/-- MAJ 0x02 to 0x08. -/
theorem exec_immediate {i : Instr} {w : RegWrite} {s : State} (hs : s.prompt) (hwf : i.wf = true) (h : immediate i = some w) :
    s.Writes (exec i s) w.rd w.lat (w.value s.rdG) := by
  cases i with
  | addi rd rs imm => cases h; exact State.writes_pipelined hs rfl
  | andi rd rs imm => cases h; exact State.writes_pipelined hs rfl
  | ori rd rs imm => cases h; exact State.writes_pipelined hs rfl
  | xori rd rs imm => cases h; exact State.writes_pipelined hs rfl
  | slti rd rs imm => cases h; exact State.writes_pipelined hs rfl
  | shli rd rs n => cases h; exact State.writes_pipelined hs rfl
  | shri rd rs n => cases h; exact State.writes_pipelined hs rfl
  | srai rd rs n => cases h; exact State.writes_pipelined hs rfl
  | lui rd imm => cases h; exact State.writes_pipelined hs (lui_eq (lui_imm_lt hwf))
  | _ => nomatch h

/-- Settles O7: every word of the two tables issues as a single register write, whose value the model computes as the tables say. -/
theorem integerWords : Obligations.IntegerWords := by
  intro i w s h hwf hs
  rcases h with h | h
  · exact exec_arithmetic hs hwf h
  · exact exec_immediate hs hwf h

end Sys2Proof.Proofs

/-! ### Branches and jumps (R156, R157) -/

namespace Sys2Proof.Machine
open Sys2Proof.Claims

theorem jumpTo_ok (s : State) {t : Int} (h : 0 ≤ t ∧ t < 65536) : jumpTo s t = .ok (s, .jump t.toNat) := if_pos h
theorem jumpTo_error (s : State) {t : Int} (h : ¬ (0 ≤ t ∧ t < 65536)) : jumpTo s t = .error ill := if_neg h

section
variable {s : State} (hs : s.prompt) {rs rt : Nat} {off : Int} {c : Word → Word → Bool}
include hs

theorem State.branchWord_taken (hc : c (s.rdG rs) (s.rdG rt) = true) (hr : 0 ≤ (s.cur.step : Int) + off ∧ (s.cur.step : Int) + off < 65536) :
    ∃ t, s.branchWord rs rt off c = .next t ∧ OnlyG s t ∧ sameG s t ∧ Transfers s t ((s.cur.step : Int) + off).toNat := by
  have hb := (Effect.refl s).book { reads := [rs, rt] } (.jump ((s.cur.step : Int) + off).toNat) noCtl_pushes
  exact ⟨_, congrArg Host.Outcome.next (State.scalarWord_prompt hs ((if_pos hc).trans (jumpTo_ok s hr))), hb.onlyG_same, hb.g,
    (Effect.refl s).transfers { reads := [rs, rt] } _ noCtl_pushes rfl⟩

theorem State.branchWord_untaken (hc : c (s.rdG rs) (s.rdG rt) = false) :
    ∃ t, s.branchWord rs rt off c = .next t ∧ OnlyG s t ∧ sameG s t ∧ fallsThrough s t := by
  have hb := (Effect.refl s).book { reads := [rs, rt] } .fall noCtl_pushes
  exact ⟨_, congrArg Host.Outcome.next (State.scalarWord_prompt hs (if_neg (ne_true_of_eq_false hc))), hb.onlyG_same, hb.g, hb.fallsThrough rfl⟩

theorem State.branchWord_ill (hc : c (s.rdG rs) (s.rdG rt) = true) (hr : ¬ (0 ≤ (s.cur.step : Int) + off ∧ (s.cur.step : Int) + off < 65536)) :
    s.branchWord rs rt off c = .next (s.takeTrap ill) :=
  congrArg Host.Outcome.next (State.scalarWord_prompt_error hs ((if_pos hc).trans (jumpTo_error s hr)))
end

section
variable {s : State} (hs : s.prompt) (rd : Nat) (reads : List Nat) {target : State → Word}
include hs

theorem State.jumpLink_jumps (hr : (target s).toNat < 65536) :
    ∃ t, s.jumpLink rd reads target = .next t ∧ OnlyG s t ∧ Transfers s t (target s).toNat ∧
      (t.rdG rd = if rd = 0 then 0 else BitVec.ofNat 64 s.cur.nextStep) ∧ ∀ k, k ≠ rd → t.rdG k = s.rdG k := by
  have he := Effect.wrG s rd (BitVec.ofNat 64 s.cur.nextStep)
  have hb := he.book { reads := reads, dest := rd } (.jump (target s).toNat) noCtl_pushes
  refine ⟨_, congrArg Host.Outcome.next (State.scalarWord_prompt hs (if_pos hr)), hb.onlyG,
    he.transfers { reads := reads, dest := rd } _ noCtl_pushes (State.wrG_loopsOf ..), ?_, fun k hk => ?_⟩
  · rw [hb.g, State.rdG_wrG, if_pos rfl]
  · rw [hb.g, State.rdG_wrG, if_neg hk]
    split
    · next h0 => rw [h0, State.rdG_zero]
    · rfl

theorem State.jumpLink_ill (hr : 65536 ≤ (target s).toNat) : s.jumpLink rd reads target = .next (s.takeTrap ill) :=
  congrArg Host.Outcome.next (State.scalarWord_prompt_error hs (if_neg hr.not_gt))
end

end Sys2Proof.Machine

namespace Sys2Proof.Proofs
open Sys2Proof.Machine Sys2Proof.Claims

/-- BGE and BGEN (Table 8.5) compare by `≤` in the model, and by a negated `<` in the statement's table. -/
theorem decide_le_eq_not_decide_lt {α : Type} [LinearOrder α] (a b : α) : decide (b ≤ a) = !decide (a < b) := by
  rw [← decide_not, decide_eq_decide, not_lt]

/-- The six branches are one word with the conditions of R156. -/
theorem exec_branch {i : Instr} {rs rt : Nat} {off : Int} {c : Word → Word → Bool} (h : branchOf i = some (rs, rt, off, c)) (s : State) :
    exec i s = s.branchWord rs rt off c := by
  cases i with
  | beq => cases h; rfl
  | bne => cases h; rfl
  | blt => cases h; rfl
  | bge => cases h; exact congrArg (s.branchWord _ _ _) (funext₂ fun (a b : Word) => decide_le_eq_not_decide_lt a.toInt b.toInt)
  | bltn => cases h; rfl
  | bgen => cases h; exact congrArg (s.branchWord _ _ _) (funext₂ fun (a b : Word) => decide_le_eq_not_decide_lt a.toNat b.toNat)
  | _ => nomatch h

/-- JAL and JALR are one word with the targets of R157. -/
theorem exec_link {i : Instr} {s : State} {rd : Nat} {p : Word} (h : linkOf s i = some (rd, p)) :
    ∃ reads target, exec i s = s.jumpLink rd reads target ∧ target s = p := by
  cases i with
  | jal => cases h; exact ⟨_, _, rfl, rfl⟩
  | jalr => cases h; exact ⟨_, _, rfl, rfl⟩
  | _ => nomatch h

/-- Settles O10: a branch is taken, falls through or raises ILL by its condition and target, and a jump by its target. -/
theorem branchesAndJumps : Obligations.BranchesAndJumps := by
  intro i s hs
  refine ⟨fun rs rt off c hi hr => ?_, fun rs rt off c hi hc hr => ?_, fun rd p hi hp => ?_, fun rd p hi hp => ?_⟩
  · rw [exec_branch hi]
    cases hc : c (s.rdG rs) (s.rdG rt) with
    | true =>
      obtain ⟨t, ht, hg, hsame, htr⟩ := State.branchWord_taken hs hc (hr hc)
      exact ⟨t, ht, hg, hsame, fun _ => htr, nofun⟩
    | false =>
      obtain ⟨t, ht, hg, hsame, hf⟩ := State.branchWord_untaken hs (off := off) hc
      exact ⟨t, ht, hg, hsame, nofun, fun _ => hf⟩
  · rw [exec_branch hi]
    exact State.branchWord_ill hs hc hr
  · obtain ⟨reads, target, he, rfl⟩ := exec_link hi
    rw [he]
    exact State.jumpLink_ill hs rd reads hp
  · obtain ⟨reads, target, he, rfl⟩ := exec_link hi
    rw [he]
    exact State.jumpLink_jumps hs rd reads hp

end Sys2Proof.Proofs

/-! ### NOP and HALT (R175, R184) -/

namespace Sys2Proof.Machine

/-- A word that no STAMP precedes adds its own raw words to the colophon. -/
theorem Eng.feed_of_no_stamp {e : Eng} (h : e.stamp = none) (raws : List Nat) :
    e.feed raws = { e with stamp := none, wcount := e.wcount + raws.length, crc := crcWords e.crc raws } := by
  rw [Eng.feed, h]
  rfl

/-- A word of SQ counts its raw words in the colophon (R36). -/
theorem State.commitScalar_colophon {s : State} (hs : s.prompt) (n : Need) (f : Flow) (hp : n.ctl.pushes = false) (hc : s.clocked = true) :
    ((s.commitScalar n f).ctile.eng 0).wcount = (s.ctile.eng 0).wcount + s.cur.raws.length ∧
      ((s.commitScalar n f).ctile.eng 0).crc = crcWords (s.ctile.eng 0).crc s.cur.raws := by
  rw [State.commitScalar_clocked n f hc, State.setCtile_ctile, Tile.commitSq_own _ _ _ _ _ hp, Eng.feed_of_no_stamp (hs.clocked hc).1]
  exact ⟨rfl, rfl⟩

theorem execNop_prompt {s : State} (hs : s.prompt) : execNop s = .next (s.commitScalar {} .fall) :=
  congrArg _ (State.scalarWord_prompt hs rfl)

theorem State.atU_of_core {s : State} {n : Nat} (h : s.cur.agent = .core n) : s.atU = false := by rw [State.atU, h]
theorem State.ccore_of_core {s : State} {n : Nat} (h : s.cur.agent = .core n) : s.ccore = s.core n := by rw [State.ccore, h]

/-- A change of the core in hand, as an effect. -/
theorem Effect.setCcore {s : State} (h : s.atU = false) (x : CCore) : Effect s (s.setCcore x) := by
  have ht : (s.setCcore x).ctile = s.ctile := by simp [State.ctile, State.tile, State.here, State.region, State.slot, State.slotNo]
  exact ⟨.setCcore h x, fun e => by rw [ht], by rw [ht], by rw [ht]⟩

/-- A core without a pending interrupt is stopped by HALT; a core's word has no issue time to wait for (R145, R184). -/
theorem execHalt_core {s : State} {n : Nat} (h : s.cur.agent = .core n) (hp : (s.core n).pending = false) :
    execHalt s = .next ((s.setCcore { s.ccore with halted := true }).commitScalar {} .fall) := by
  have hu := State.atU_of_core h
  have hpre : s.coreOnly = none := by simp [State.coreOnly, State.inHandler, hu]
  have hhalt : s.haltCore = s.setCcore { s.ccore with halted := true } := by
    simp [State.haltCore, State.setCcore, State.ccore_of_core h, h, hp]
  rw [execHalt, hpre, State.scalarWord_go rfl (by simp [State.scalarGate, hu]) (by rw [State.popFor_none _ _ _ noCtl_pops]), hhalt]

theorem execHalt_clocked {s : State} (h : s.clocked = true) : execHalt s = .next (s.takeTrap priv) := by
  simp only [State.clocked, Bool.and_eq_true, Bool.not_eq_true'] at h
  simp [execHalt, State.coreOnly, State.scalarWord, h]

end Sys2Proof.Machine

namespace Sys2Proof.Proofs
open Sys2Proof.Machine

theorem exec_nop {s : State} (hs : s.prompt) :
    ∃ t, exec .nop s = .next t ∧ OnlyG s t ∧ sameG s t ∧ fallsThrough s t ∧
      (s.clocked = true → (t.ctile.eng 0).wcount = (s.ctile.eng 0).wcount + s.cur.raws.length ∧
        (t.ctile.eng 0).crc = crcWords (s.ctile.eng 0).crc s.cur.raws) := by
  have b := (Effect.refl s).book {} .fall noCtl_pushes
  exact ⟨_, execNop_prompt hs, b.onlyG_same, b.g, b.fallsThrough rfl, State.commitScalar_colophon hs {} .fall noCtl_pushes⟩

theorem exec_halt_core {s : State} {n : Nat} (h : s.cur.agent = .core n) (hp : (s.core n).pending = false) :
    ∃ t, exec .halt s = .next t ∧ OwnAgent s t ∧ fallsThrough s t ∧ t.ccore.bare = ({ s.ccore with halted := true } : CCore).bare := by
  have hu := State.atU_of_core h
  have b := (Effect.setCcore hu { s.ccore with halted := true }).book {} .fall noCtl_pushes
  refine ⟨_, execHalt_core h hp, b.own, b.fallsThrough ?_, ?_⟩
  · simp [State.loopsOf, hu, State.setCcore_ccore]
  · rw [b.core hu, State.setCcore_ccore _ _ hu]

/-- Settles O23: NOP is its bookkeeping alone; HALT sets the core's stop beside it; at U the check of its class comes first. -/
theorem nopAndHalt : Obligations.NopAndHalt := fun _ => ⟨exec_nop, fun _ => exec_halt_core, execHalt_clocked⟩

end Sys2Proof.Proofs
end

section
/-! PROOFS. The orders of VX that move masks and moduli, the modular orders and the transforms (R86, R201, R207, R208): what every
engine order leaves behind as it issues, what every VX order adds, and the lanes that each of these writes. -/

namespace Sys2Proof.Machine
open Sys2Proof.Claims

/-! ### An engine order that is due (R13, R14, R31, R36) -/

/-- An order that is due and whose own checks raise a trap has no effect but its trap. -/
theorem State.engineOrder_error {s : State} {n : ENeed} {body : State → Except Trap (State × Issue)} {t : Trap} (hp : n.pre = none)
    (h : Due s n.ctl) (hf : n.free = true) (hm : n.met = true) (hb : body (s.popFor n.ctl s.cur.eng) = .error t) :
    s.engineOrder n body = s.takeTrap t := by
  simp [State.engineOrder, h.legal, hp, State.engineGate_go n h hf hm, hb]

theorem Tile.passOrder_eq (t : Tile) (c : Cur) (now : Nat) :
    t.passOrder c now =
      { t.setEng c.eng { (t.eng c.eng).feed c.raws with step := c.nextStep, tprev := now, next := 0, run := (t.eng c.eng).run - 1 } with
        effs := t.effs ++ if (t.eng c.eng).run = 1 then [(now, .engEnd c.eng)] else [] } := by
  by_cases h : (t.eng c.eng).run = 1
  · simp [Tile.passOrder, Eng.feed, h]
  · simp [Tile.passOrder, Eng.feed, h, Tile.setEng]

/-- An order that is not issuing again after a THAW passes its engine and goes into flight. -/
theorem Tile.commitOrder_fresh {t : Tile} {c : Cur} (h : t.redoing c.eng = none) (n : ENeed) (i : Issue) (now : Nat) :
    ∃ f : Flight, t.commitOrder n i c now = (t.passOrder c now).addFlight f ∧ f.eng = c.eng ∧ f.step = c.step ∧
      (f.push = if n.ctl.pushes then some n.ctl.tq else none) ∧ f.retire = i.retire ∧ f.effs = i.effs :=
  ⟨_, by rw [Tile.commitOrder, h], rfl, rfl, rfl, rfl, rfl⟩

/-- The state `u` that the body of order `c` has made of `s`: the order's token is popped, `l` are the changes that it has listed for the
ends of cycles, and the tile in hand is `x` but for the bookkeeping of orders. -/
structure OrderBody (s u : State) (c : Ctl) (l : List (Nat × Eff)) (x : Tile) : Prop where
  rest : restSame s u
  tiles : ∀ p, p ≠ s.here → u.tile p = s.tile p
  engs : u.ctile.engs = s.ctile.engs
  tokens : ∀ k, Store.get 0 k u.ctile.tokens =
    if c.pops = true ∧ k = fifo c.tq s.cur.eng then Store.get 0 k s.ctile.tokens - 1 else Store.get 0 k s.ctile.tokens
  flights : u.ctile.flights = s.ctile.flights
  effs : u.ctile.effs = s.ctile.effs ++ l
  plain : u.ctile.plain = x.plain

theorem restSame.here {s u : State} (h : restSame s u) : u.here = s.here := (congrArg State.here h : u.offTiles.here = s.offTiles.here)
theorem restSame.now {s u : State} (h : restSame s u) : u.now = s.now := (congrArg State.now h : u.offTiles.now = s.offTiles.now)

theorem State.popFor_of_pops {s : State} {c : Ctl} (hu : s.atU = true) (hc : c.pops = true) (e : Nat) :
    s.popFor c e = s.setCtile (s.ctile.popToken c.tq e) := by rw [State.popFor, hc, hu]; rfl

/-- Before its body makes its own changes, an order has popped its token alone. -/
theorem OrderBody.popFor {s : State} (hu : s.atU = true) (c : Ctl) : OrderBody s (s.popFor c s.cur.eng) c [] s.ctile := by
  cases hc : c.pops with
  | false =>
    rw [State.popFor_none s c _ hc]
    exact ⟨rfl, fun _ _ => rfl, rfl, fun k => by simp [hc], rfl, (List.append_nil _).symm, rfl⟩
  | true =>
    rw [State.popFor_of_pops hu hc]
    refine ⟨rfl, fun p hp => State.setCtile_tile_other s _ hp, ?_, fun k => ?_, ?_, ?_, ?_⟩ <;> rw [State.setCtile_ctile]
    · rfl
    · simp only [Tile.popToken, Store.get_put, Tile.token, hc, true_and]
      split
      · next h => rw [h]
      · rfl
    · rfl
    · exact (List.append_nil _).symm
    · rfl

/-- A change of the tile in hand that leaves the bookkeeping of orders. -/
theorem OrderBody.setCtile {s u : State} {c : Ctl} {l : List (Nat × Eff)} {x y z : Tile} (h : OrderBody s u c l x) (he : y.engs = u.ctile.engs)
    (ht : y.tokens = u.ctile.tokens) (hf : y.flights = u.ctile.flights) (hl : y.effs = u.ctile.effs) (hp : y.plain = z.plain) :
    OrderBody s (u.setCtile y) c l z where
  rest := (rfl : (u.setCtile y).offTiles = u.offTiles).trans h.rest
  tiles p hne := (State.setCtile_tile_other u y (h.rest.here.symm ▸ hne)).trans (h.tiles p hne)
  engs := by rw [State.setCtile_ctile, he, h.engs]
  tokens k := by rw [State.setCtile_ctile, ht, h.tokens]
  flights := by rw [State.setCtile_ctile, hf, h.flights]
  effs := by rw [State.setCtile_ctile, hl, h.effs]
  plain := by rw [State.setCtile_ctile, hp]

/-- The bookkeeping of a due order, after its body: the order has issued, and the bookkeeping is all that is added. -/
theorem OrderBody.commit {s u : State} {n : ENeed} {l : List (Nat × Eff)} {x : Tile} (h : OrderBody s u n.ctl l x) (hd : Due s n.ctl) (i : Issue) :
    let t := u.setCtile (u.ctile.commitOrder n i s.cur s.now)
    restSame s t ∧ t.ctile.plain = x.plain ∧ t.ctile.sb = u.ctile.sb ∧ ∃ f, Issued s t n.ctl f l ∧ f.retire = i.retire ∧ f.effs = i.effs := by
  have heng (e : Nat) : u.ctile.eng e = s.ctile.eng e := by rw [Tile.eng, h.engs, Tile.eng]
  have hredo : u.ctile.redoing s.cur.eng = none := by rw [Tile.redoing, h.flights]; exact hd.first
  obtain ⟨f, hf, hfe, hfs, hfp, hfr, hfx⟩ := Tile.commitOrder_fresh hredo n i s.now
  rw [hf, Tile.passOrder_eq, heng]
  refine ⟨(rfl : State.offTiles (u.setCtile _) = u.offTiles).trans h.rest, ?_, ?_, f, ⟨fun p hp => ?_, fun e he => ?_, ?_, fun k => ?_, ?_,
    ⟨hfe, hfs, hfp⟩, ?_⟩, hfr, hfx⟩
  · rw [State.setCtile_ctile, ← h.plain]; rfl
  · rw [State.setCtile_ctile]; rfl
  · exact (State.setCtile_tile_other u _ (h.rest.here.symm ▸ hp)).trans (h.tiles p hp)
  · rw [State.setCtile_ctile]; exact (Tile.setEng_eng_other _ he _).trans (heng e)
  · rw [State.setCtile_ctile]; exact Tile.setEng_eng_same _ _ _
  · rw [State.setCtile_ctile]; exact h.tokens k
  · rw [State.setCtile_ctile, ← h.flights]; rfl
  · rw [State.setCtile_ctile, ← h.effs]; rfl

/-! ### A VX order that nothing delays (R98, R189, R190) -/

theorem Store.get_foldl_put (v k : Nat) (ws : List Nat) (m : Store Nat) :
    Store.get 0 k (ws.foldl (fun m w => Store.put 0 w v m) m) = if k ∈ ws then v else Store.get 0 k m := by
  induction ws generalizing m with
  | nil => simp
  | cons w ws ih =>
    rw [List.foldl_cons, ih, Store.get_put]
    by_cases hk : k = w <;> simp [hk]

theorem Tile.foldl_busy (t : Tile) (ws : List Nat) (v : Nat) :
    ws.foldl (fun x k => x.busy k v) t = { t with sb := ws.foldl (fun m k => Store.put 0 k v m) t.sb } := by
  induction ws generalizing t with
  | nil => rfl
  | cons w ws ih => rw [List.foldl_cons, ih]; rfl

/-- An order that counts a frame step and holds no unit leaves its results' readiness and the step. -/
theorem Tile.afterV_eq (t : Tile) {n : VNeed} (now : Nat) (hu : n.units = []) (hs : n.steps = true) :
    t.afterV n now = { t with sb := n.writes.foldl (fun m k => Store.put 0 k (now + n.lat) m) t.sb, fstepV := t.fstepV + 1 } := by
  rw [Tile.afterV, Tile.foldl_busy, hu, hs]
  rfl

/-- Two tiles alike but for the bookkeeping of orders stay so where both get the same frame step. -/
theorem Tile.plain_fstepV {y x : Tile} (h : y.plain = x.plain) (k : Nat) : ({ y with fstepV := k } : Tile).plain = ({ x with fstepV := k } : Tile).plain :=
  congrArg (fun t : Tile => { t with fstepV := k }) h

theorem VNeed.ready_of_vxReady {s : State} {c : Ctl} (h : VxReady s c) {n : VNeed} (ha : n.also = true) : n.ready s.ctile s.now = true := by
  simp [VNeed.ready, ha, h.ready]

section
variable {s : State} {c : Ctl} {n : VNeed} {body : State → Except Trap (State × List Eff)} (h : VxReady s c) (ha : n.also = true)
include h ha

/-- Where its body passes, a VX order has issued with the body's changes. -/
theorem State.vxOrder_done {u : State} {l : List (Nat × Eff)} {effs : List Eff} {x : Tile} {ws : List Nat} (hn : n.units = []) (hs : n.steps = true)
    (hw : n.writes = ws) (hx : x.fstepV = s.ctile.fstepV) (hb : body (s.popFor c s.cur.eng) = .ok (u, effs)) (hu : OrderBody s u c l x) :
    VxDone s (s.vxOrder c n body) c n.lat ws l effs x := by
  subst hw
  have hu' : OrderBody s (u.setCtile (u.ctile.afterV n u.now)) c l { x with fstepV := s.ctile.fstepV + 1 } := by
    have hstep : u.ctile.fstepV = x.fstepV := (congrArg Tile.fstepV hu.plain : u.ctile.plain.fstepV = x.plain.fstepV)
    rw [Tile.afterV_eq _ _ hn hs, hstep, hx]
    exact hu.setCtile rfl rfl rfl rfl (Tile.plain_fstepV hu.plain _)
  rw [State.vxOrder, State.engineOrder_go (r := (u.setCtile (u.ctile.afterV n u.now), { retire := some (u.now + n.lat - 1), effs := effs })) rfl h.due
    (VNeed.ready_of_vxReady h ha) rfl (by simp only [hb])]
  obtain ⟨hrest, hplain, hsb, f, hf, hret, heffs⟩ := OrderBody.commit (n := { ctl := c, free := n.ready s.ctile s.now }) hu' h.due
    { retire := some (u.now + n.lat - 1), effs := effs }
  refine ⟨hrest, ⟨f, hf, ?_, heffs⟩, hplain, fun k hk => ?_⟩
  · rw [hret, hu.rest.now]
  · rw [Tile.ready, hsb, State.setCtile_ctile, Tile.afterV_eq _ _ hn hs, Store.get_foldl_put, if_pos hk, hu.rest.now]

/-- Where a check of its body fails, it has no effect but its trap. -/
theorem State.vxOrder_trap {t : Trap} (hb : body (s.popFor c s.cur.eng) = .error t) : s.vxOrder c n body = s.takeTrap t :=
  State.engineOrder_error rfl h.due (VNeed.ready_of_vxReady h ha) rfl (by simp only [hb])
end

/-! ### Lanes and registers (R186, R187) -/

/-- Lane `j` of a packed list is its entry `j`, cut to the lane's width. -/
theorem packLanes_div_mod (w : Nat) (xs : List Nat) (j : Nat) : packLanes w xs / 2 ^ (w * j) % 2 ^ w = xs.getD j 0 % 2 ^ w := by
  induction xs generalizing j with
  | nil => simp [packLanes]
  | cons x xs ih =>
    have hcons : packLanes w (x :: xs) = x % 2 ^ w + 2 ^ w * packLanes w xs := rfl
    have hx : x % 2 ^ w < 2 ^ w := Nat.mod_lt _ (Nat.two_pow_pos w)
    cases j with
    | zero => simp [hcons]
    | succ j =>
      rw [hcons, Nat.mul_succ, Nat.add_comm (w * j), Nat.pow_add, ← Nat.div_div_eq_div_mul, Nat.add_mul_div_left _ _ (Nat.two_pow_pos w),
        Nat.div_eq_of_lt hx, Nat.zero_add, ih]
      rfl

/-- A lane inside the register, of the register that holds a number. -/
theorem lane_ofNat {w j : Nat} (h : w * (j + 1) ≤ 4096) (n : Nat) : lane (BitVec.ofNat 4096 n) w j = n / 2 ^ (w * j) % 2 ^ w := by
  obtain ⟨r, hr⟩ := Nat.exists_eq_add_of_le h
  rw [lane, bits, BitVec.toNat_ofNat, hr, Nat.mul_succ, Nat.add_assoc, Nat.pow_add, Nat.mod_mul_right_div_self,
    Nat.mod_mod_of_dvd _ (pow_dvd_pow 2 (Nat.le_add_right w r))]

/-- A lane that an order lists takes its value, cut to the lane's width, and another keeps its own. -/
theorem lane_mapLanes (old : VReg) {w n j : Nat} (f : Nat → Option Nat) (hw : w * n ≤ 4096) (hj : j < n) :
    lane (mapLanes old w n f) w j = (f j).elim (lane old w j) (· % 2 ^ w) := by
  have hlt : lane old w j < 2 ^ w := Nat.mod_lt _ (Nat.two_pow_pos w)
  rw [mapLanes, lane_ofNat ((Nat.mul_le_mul_left w hj).trans hw), packLanes_div_mod, List.getD_eq_getElem _ _ (by simpa using hj), List.getElem_map,
    List.getElem_range]
  cases f j with
  | none => exact Nat.mod_eq_of_lt hlt
  | some v => rfl

/-- Where a condition says which lanes an order lists, a lane changes by the condition. -/
theorem lane_mapLanes_if (old : VReg) {w n j : Nat} (p : Nat → Bool) (f : Nat → Nat) (hw : w * n ≤ 4096) (hj : j < n) :
    lane (mapLanes old w n (fun j => if p j then some (f j) else none)) w j = if p j then f j % 2 ^ w else lane old w j := by
  rw [lane_mapLanes _ _ hw hj]
  cases p j <;> rfl

theorem laneWidth_mul_laneCount_le (ty : Nat) : laneWidth ty * laneCount ty ≤ 4096 := Nat.mul_div_le _ _

theorem State.active_iff {s : State} {km j : Nat} : s.active km j = true ↔ km = 0 ∨ (Store.get 0 km s.ctile.k).getLsbD j = true := by
  by_cases h : km = 0 <;> simp [State.active, State.rdK, h]

theorem State.actives_eq_activeLanes (s : State) (ty km : Nat) : s.actives km (laneCount ty) = activeLanes s ty km :=
  List.filter_congr fun j _ => by rw [Bool.eq_iff_iff, decide_eq_true_iff, State.active_iff]

/-- The check of R188 passes where the lanes fit the position, and raises ILL elsewhere. -/
theorem State.vxChk_of_fits {s : State} {w : Nat} {lanes : List Nat} (h : Fits s w lanes) : s.vxChk w lanes = none := by
  rw [State.vxChk]
  rcases h with h | h
  · exact if_pos h
  · rw [if_neg (c := lanes.any (hiLane w) = true) (by simpa [hiLane] using h), ite_self]

theorem State.vxChk_of_not_fits {s : State} {w : Nat} {lanes : List Nat} (h : ¬ Fits s w lanes) : s.vxChk w lanes = some ill := by
  simp only [Fits, not_or, not_forall, not_le] at h
  obtain ⟨hv, j, hj, hlt⟩ := h
  rw [State.vxChk, if_neg hv, if_pos (List.any_eq_true.mpr ⟨j, hj, decide_eq_true hlt⟩)]

/-! An order's own token leaves the registers of VX and the image. -/

theorem State.popFor_ctile (s : State) (c : Ctl) (e : Nat) :
    (s.popFor c e).ctile = if c.pops && s.atU then s.ctile.popToken c.tq e else s.ctile := by
  unfold State.popFor
  split
  · exact State.setCtile_ctile _ _
  · rfl
@[simp] theorem State.popFor_img (s : State) (c : Ctl) (e : Nat) : (s.popFor c e).img = s.img := by
  unfold State.popFor
  split <;> rfl
@[simp] theorem State.popFor_rdV (s : State) (c : Ctl) (e n : Nat) : (s.popFor c e).rdV n = s.rdV n := by
  rw [State.rdV, State.popFor_ctile]
  split <;> rfl
@[simp] theorem State.popFor_rdK (s : State) (c : Ctl) (e n : Nat) : (s.popFor c e).rdK n = s.rdK n := by
  have hk : (s.popFor c e).ctile.k = s.ctile.k := by
    rw [State.popFor_ctile]
    split <;> rfl
  rw [State.rdK, hk, State.rdK]
@[simp] theorem State.popFor_rdQ (s : State) (c : Ctl) (e n : Nat) : (s.popFor c e).rdQ n = s.rdQ n := by
  rw [State.rdQ, State.popFor_ctile]
  split <;> rfl
@[simp] theorem State.popFor_vxChk (s : State) (c : Ctl) (e w : Nat) (lanes : List Nat) : (s.popFor c e).vxChk w lanes = s.vxChk w lanes := by
  rw [State.vxChk, State.popFor_img, State.vxChk]
@[simp] theorem State.popFor_active (s : State) (c : Ctl) (e km j : Nat) : (s.popFor c e).active km j = s.active km j := by
  rw [State.active, State.popFor_rdK, State.active]
@[simp] theorem State.popFor_actives (s : State) (c : Ctl) (e km n : Nat) : (s.popFor c e).actives km n = s.actives km n := by
  simp [State.actives, funext (State.popFor_active s c e km)]
@[simp] theorem State.popFor_laneBits (s : State) (c : Ctl) (e ty r j : Nat) : (s.popFor c e).laneBits ty r j = s.laneBits ty r j := by
  rw [State.laneBits, State.popFor_rdV, State.laneBits]

/-! The writes of a body. -/

section
variable {s u : State} {c : Ctl} {l : List (Nat × Eff)} {x : Tile} (h : OrderBody s u c l x)
include h

theorem OrderBody.wrV (n : Nat) (v : VReg) : OrderBody s (u.wrV n v) c l (putV x n v) :=
  h.setCtile rfl rfl rfl rfl (congrArg (putV · n v) h.plain)

theorem OrderBody.wrK (n : Nat) (m : Mask) : OrderBody s (u.wrK n m) c l (putK x n m) := by
  by_cases hn : n = 0
  · rw [State.wrK, putK, if_pos hn, if_pos hn]
    exact h
  · rw [State.wrK, putK, if_neg hn, if_neg hn]
    exact h.setCtile rfl rfl rfl rfl (congrArg (fun t : Tile => { t with k := Store.put 0 n m t.k }) h.plain)

theorem OrderBody.wrQ (n : Nat) (q : QReg) :
    OrderBody s (u.setCtile { u.ctile with q := Store.put {} n q u.ctile.q }) c l { x with q := Store.put {} n q x.q } :=
  h.setCtile rfl rfl rfl rfl (congrArg (fun t : Tile => { t with q := Store.put {} n q t.q }) h.plain)
end

theorem putV_fstepV (x : Tile) (n : Nat) (v : VReg) : (putV x n v).fstepV = x.fstepV := rfl
theorem putK_fstepV (x : Tile) (n : Nat) (m : Mask) : (putK x n m).fstepV = x.fstepV := by
  unfold putK
  split <;> rfl

/-! ### Lane-wise orders (R187, R188) -/

section
variable {s : State} {ty km : Nat}

theorem State.vxChk_actives_of_fits (h : Fits s (laneWidth ty) (activeLanes s ty km)) : s.vxChk (laneWidth ty) (s.actives km (laneCount ty)) = none :=
  State.actives_eq_activeLanes s ty km ▸ State.vxChk_of_fits h

theorem State.vxChk_actives_of_not_fits (h : ¬ Fits s (laneWidth ty) (activeLanes s ty km)) :
    s.vxChk (laneWidth ty) (s.actives km (laneCount ty)) = some ill :=
  State.actives_eq_activeLanes s ty km ▸ State.vxChk_of_not_fits h
end

theorem State.laneWise_done {s : State} (o : LaneOp) (h : VxReady s o.c) (regs more : List Nat) {chk : State → Option Trap} {f : State → Nat → Nat}
    (hfit : Fits s (laneWidth o.ty) (activeLanes s o.ty o.km)) (hc : chk (s.popFor o.c s.cur.eng) = none)
    (hf : ∀ j, f (s.popFor o.c s.cur.eng) j = o.value s j) :
    ∃ t, s.laneWise o.c o.vd o.ty o.km o.lat regs more [] chk f = .next t ∧ LaneDone s t o := by
  have hbody := (OrderBody.popFor h.due.atU o.c).wrV o.vd
    (mapLanes (s.rdV o.vd) (laneWidth o.ty) (laneCount o.ty) (fun j => if s.active o.km j then some (o.value s j) else none))
  refine ⟨_, rfl, _, State.vxOrder_done h rfl rfl rfl rfl (putV_fstepV ..) ?_ hbody, fun j hj => ?_⟩
  · simp [State.vxChk_actives_of_fits hfit, hc, hf]
  · rw [lane_mapLanes_if _ _ _ (laneWidth_mul_laneCount_le _) hj]
    exact if_congr State.active_iff rfl rfl

/-- A lane that does not fit, or a further check, raises ILL. -/
theorem State.laneWise_ill {s : State} {c : Ctl} (h : VxReady s c) {vd ty km lat : Nat} {regs more : List Nat} {units : List (Nat × Nat)}
    {chk : State → Option Trap} {f : State → Nat → Nat}
    (hc : Fits s (laneWidth ty) (activeLanes s ty km) → chk (s.popFor c s.cur.eng) = some ill) :
    s.laneWise c vd ty km lat regs more units chk f = .next (s.takeTrap ill) := by
  refine congrArg Host.Outcome.next (State.vxOrder_trap h rfl ?_)
  by_cases hfit : Fits s (laneWidth ty) (activeLanes s ty km)
  · simp [State.vxChk_actives_of_fits hfit, hc hfit]
  · simp [State.vxChk_actives_of_not_fits hfit]

/-! ### Modular orders (R207) -/

theorem qChk_popFor (s : State) (c : Ctl) (e q : Nat) : qChk q (s.popFor c e) = if (s.rdQ q).valid then none else some ill := by
  rw [qChk, State.popFor_rdQ]

/-- An outcome is that of the modular order `o` over register `q`: the lanes under a valid one, ILL under an invalid one and where a lane
does not fit. -/
structure ModularOutcome (s : State) (out : Host.Outcome State Fault Refusal) (o : LaneOp) (q : Nat) : Prop where
  lanes : o.fits s → (s.rdQ q).valid = true → 0 < (s.rdQ q).q → ∃ t, out = .next t ∧ LaneDone s t o
  invalid : (s.rdQ q).valid = false → out = .next (s.takeTrap ill)
  unfit : ¬ o.fits s → out = .next (s.takeTrap ill)

theorem LaneOp.fits_of_also_nil {o : LaneOp} {s : State} (h : o.also s = []) : o.fits s ↔ Fits s (laneWidth o.ty) (activeLanes s o.ty o.km) := by
  rw [LaneOp.fits, h, List.append_nil]

theorem State.modular_outcome {s : State} {c : Ctl} (h : VxReady s c) {x : VX} {lat : Nat} {f : Nat → Nat → Nat → Nat} {value : State → Nat → Nat}
    (hf : ∀ j, 0 < (s.rdQ x.rm).q →
      f (s.rdQ x.rm).q (s.laneBits 0x12 x.va j % (s.rdQ x.rm).q) (s.laneBits 0x12 x.vb j % (s.rdQ x.rm).q) = value s j) :
    ModularOutcome s (s.modular c x lat f) ⟨c, x.vd, 0x12, x.km, lat, value, fun _ => []⟩ x.rm where
  lanes hfit hv hq :=
    State.laneWise_done ⟨c, x.vd, 0x12, x.km, lat, value, fun _ => []⟩ h [x.va, x.vb] [keyQ x.rm] ((LaneOp.fits_of_also_nil (by rfl)).mp hfit)
      (by rw [qChk_popFor, if_pos hv]) (fun j => by simp [hf j hq])
  invalid hv := State.laneWise_ill h fun _ => by simp [qChk_popFor, hv]
  unfit hfit := State.laneWise_ill h fun hlanes => absurd ((LaneOp.fits_of_also_nil (by rfl)).mpr hlanes) hfit

/-- The difference of reduced operands is that of the operands themselves (R207). -/
theorem sub_mod_eq_toNat_emod {q : Nat} (hq : 0 < q) (a b : Nat) : (a % q + (q - b % q)) % q = (((a : Int) - b) % q).toNat := by
  have hb : b % q < q := Nat.mod_lt b hq
  have hcast : (((a % q + (q - b % q)) % q : Nat) : Int) = ((a : Int) - b) % q := by
    push_cast [Nat.cast_sub hb.le]
    rw [show (a : Int) % q + (q - b % q) = a % q - b % q + q by ring, Int.add_emod_right, ← Int.sub_emod]
  rw [← hcast, Int.toNat_natCast]

/-! ### Transforms (R208) -/

/-- The lower lanes of the active pairs of a transform, and every lane that these pairs touch: within one register the upper ones too. -/
def State.lowerLanes (s : State) (x : VX) : List Nat :=
  (List.range 64).filter (fun j => (x.opt = 6 ∨ j / 2 ^ x.opt % 2 = 0) ∧ s.active x.km j = true)
def State.pairLanes (s : State) (x : VX) : List Nat :=
  if x.opt = 6 then s.lowerLanes x else s.lowerLanes x ++ (s.lowerLanes x).map (· + 2 ^ x.opt)

/-- A half of the butterfly of the pair whose lower element stands at lane `i`, from the elements `u` and `t` (R208). -/
def State.half (s : State) (x : VX) (g : Nat → Nat → Nat → Nat → Nat) (i u t : Nat) : Nat :=
  g (s.rdQ x.rm).q (u % (s.rdQ x.rm).q) (t % (s.rdQ x.rm).q) (s.laneBits 0x12 x.vc i % (s.rdQ x.rm).q)
def State.halfWithin (s : State) (x : VX) (g : Nat → Nat → Nat → Nat → Nat) (i : Nat) : Nat :=
  s.half x g i (s.laneBits 0x12 x.va i) (s.laneBits 0x12 x.va (i + 2 ^ x.opt))
def State.halfAcross (s : State) (x : VX) (g : Nat → Nat → Nat → Nat → Nat) (i : Nat) : Nat :=
  s.half x g i (s.laneBits 0x12 x.va i) (s.laneBits 0x12 x.vb i)

/-- The register that a transform within one register writes, and register `r` as a transform between two writes it. -/
def State.withinReg (s : State) (x : VX) (lo hi : Nat → Nat → Nat → Nat → Nat) : VReg :=
  mapLanes (s.rdV x.vd) 64 64 (fun j => if s.active x.km (lowerOf (2 ^ x.opt) j)
    then some (s.halfWithin x (if lowerOf (2 ^ x.opt) j = j then lo else hi) (lowerOf (2 ^ x.opt) j)) else none)
def State.acrossReg (s : State) (x : VX) (r : Nat) (g : Nat → Nat → Nat → Nat → Nat) : VReg :=
  mapLanes (s.rdV r) 64 64 (fun j => if s.active x.km j then some (s.halfAcross x g j) else none)

/-- A lane is the lower one of its pair where bit DLOG of its number is 0. -/
theorem lowerOf_eq_self_iff {d j : Nat} (hd : 0 < d) : lowerOf d j = j ↔ j / d % 2 = 0 := by
  rw [lowerOf]
  split
  · next h => exact iff_of_true rfl h
  · next h =>
    have hle : d ≤ j := by
      by_contra hlt
      exact h (by rw [Nat.div_eq_of_lt (not_le.mp hlt)])
    exact iff_of_false (by omega) h

theorem lowerOf_upper {d j : Nat} (hd : 0 < d) (h : j / d % 2 = 0) : lowerOf d (j + d) = j := by
  rw [lowerOf, Nat.add_div_right _ hd, if_neg (by omega), Nat.add_sub_cancel]

/-- The upper lane of a pair lies in the register with its lower lane. -/
theorem upperLane_lt {k j : Nat} (hk : k < 6) (hj : j < 64) (h : j / 2 ^ k % 2 = 0) : j + 2 ^ k < 64 := by
  interval_cases k <;> omega

theorem lowerLanes_eq (s : State) (x : VX) :
    (List.range 64).filter (fun j => (x.opt == 6 || lowerOf (2 ^ x.opt) j == j) && s.active x.km j) = s.lowerLanes x :=
  List.filter_congr fun j _ => by rw [Bool.eq_iff_iff]; simp [lowerOf_eq_self_iff (Nat.two_pow_pos x.opt)]

theorem pairLanes_eq (s : State) (x : VX) :
    (if x.opt = 6 then s.lowerLanes x else s.lowerLanes x ++ (s.lowerLanes x).map (· + 2 ^ x.opt)) = s.pairLanes x := rfl

theorem lane_acrossReg (s : State) (x : VX) (r : Nat) (g : Nat → Nat → Nat → Nat → Nat) {j : Nat} (hj : j < 64) :
    lane (s.acrossReg x r g) 64 j = if s.active x.km j then s.halfAcross x g j % 2 ^ 64 else lane (s.rdV r) 64 j :=
  lane_mapLanes_if _ _ _ le_rfl hj

section
variable (s : State) (x : VX) (lo hi : Nat → Nat → Nat → Nat → Nat)

theorem lane_withinReg {j : Nat} (hj : j < 64) :
    lane (s.withinReg x lo hi) 64 j = if s.active x.km (lowerOf (2 ^ x.opt) j)
      then s.halfWithin x (if lowerOf (2 ^ x.opt) j = j then lo else hi) (lowerOf (2 ^ x.opt) j) % 2 ^ 64 else lane (s.rdV x.vd) 64 j :=
  lane_mapLanes_if _ (fun j => s.active x.km (lowerOf (2 ^ x.opt) j)) _ le_rfl hj

theorem lane_withinReg_lower {j : Nat} (hj : j < 64) (h : j / 2 ^ x.opt % 2 = 0) :
    lane (s.withinReg x lo hi) 64 j = if s.active x.km j then s.halfWithin x lo j % 2 ^ 64 else lane (s.rdV x.vd) 64 j := by
  have hlow : lowerOf (2 ^ x.opt) j = j := (lowerOf_eq_self_iff (Nat.two_pow_pos _)).mpr h
  rw [lane_withinReg _ _ _ _ hj, hlow, if_pos rfl]

theorem lane_withinReg_upper (ho : x.opt < 6) {j : Nat} (hj : j < 64) (h : j / 2 ^ x.opt % 2 = 0) :
    lane (s.withinReg x lo hi) 64 (j + 2 ^ x.opt) =
      if s.active x.km j then s.halfWithin x hi j % 2 ^ 64 else lane (s.rdV x.vd) 64 (j + 2 ^ x.opt) := by
  have hd : 0 < 2 ^ x.opt := Nat.two_pow_pos _
  rw [lane_withinReg _ _ _ _ (upperLane_lt ho hj h), lowerOf_upper hd h, if_neg (Nat.lt_add_of_pos_right hd).ne]
end

section
variable {s : State} {c : Ctl} (h : VxReady s c) {x : VX} {lo hi : Nat → Nat → Nat → Nat → Nat}
include h

/-- A lane that does not fit, a missing second destination, or an invalid modulus register raises ILL. -/
theorem State.butterfly_ill (hc : Fits s 64 (s.pairLanes x) → (x.opt = 6 ∧ x.vd = 63) ∨ (s.rdQ x.rm).valid = false) :
    s.butterfly c x lo hi = .next (s.takeTrap ill) := by
  refine congrArg Host.Outcome.next (State.vxOrder_trap h rfl ?_)
  simp only [State.popFor_vxChk, State.popFor_active, lowerLanes_eq, beq_iff_eq, pairLanes_eq]
  by_cases hfit : Fits s 64 (s.pairLanes x)
  · rw [State.vxChk_of_fits hfit]
    rcases hc hfit with ⟨ho, hd⟩ | hv
    · simp [ho, hd]
    · simp [hv]
  · rw [State.vxChk_of_not_fits hfit]

variable (hv : (s.rdQ x.rm).valid = true)
include hv

theorem State.butterfly_within (hfit : Fits s 64 (s.pairLanes x)) (ho : x.opt < 6) :
    ∃ t, s.butterfly c x lo hi = .next t ∧ VxDone s t c 10 [keyV x.vd] [] [] (putV s.ctile x.vd (s.withinReg x lo hi)) := by
  have hbody := (OrderBody.popFor h.due.atU c).wrV x.vd (s.withinReg x lo hi)
  refine ⟨_, rfl, State.vxOrder_done h rfl rfl rfl (by simp [ho.ne]) (putV_fstepV ..) ?_ hbody⟩
  simp only [State.popFor_vxChk, State.popFor_active, lowerLanes_eq, beq_iff_eq, pairLanes_eq, State.vxChk_of_fits hfit]
  simp [ho.ne, hv, State.withinReg, State.halfWithin, State.half]

theorem State.butterfly_across (hfit : Fits s 64 (s.pairLanes x)) (ho : x.opt = 6) (hd : x.vd < 63) :
    ∃ t, s.butterfly c x lo hi = .next t ∧ VxDone s t c 10 [keyV x.vd, keyV (x.vd + 1)] [] []
      (putV (putV s.ctile x.vd (s.acrossReg x x.vd lo)) (x.vd + 1) (s.acrossReg x (x.vd + 1) hi)) := by
  have hbody := ((OrderBody.popFor h.due.atU c).wrV x.vd (s.acrossReg x x.vd lo)).wrV (x.vd + 1) (s.acrossReg x (x.vd + 1) hi)
  refine ⟨_, rfl, State.vxOrder_done h rfl rfl rfl (by simp [ho, hd.ne]) ((putV_fstepV ..).trans (putV_fstepV ..)) ?_ hbody⟩
  simp only [State.popFor_vxChk, State.popFor_active, lowerLanes_eq, beq_iff_eq, pairLanes_eq, State.vxChk_of_fits hfit]
  simp [ho, hd.ne, hv, State.acrossReg, State.halfAcross, State.half]

/-- What a butterfly stage over a valid modulus register does, by its distance and its second destination. -/
theorem State.butterfly_stage :
    (¬ Fits s 64 (s.pairLanes x) → s.butterfly c x lo hi = .next (s.takeTrap ill)) ∧
    (x.opt < 6 → Fits s 64 (s.pairLanes x) → ∃ (t : State) (v : VReg), s.butterfly c x lo hi = .next t ∧
      VxDone s t c 10 [keyV x.vd] [] [] (putV s.ctile x.vd v) ∧
      ∀ j, j < 64 → j / 2 ^ x.opt % 2 = 0 →
        lane v 64 j = (if s.active x.km j then s.halfWithin x lo j % 2 ^ 64 else lane (s.rdV x.vd) 64 j) ∧
        lane v 64 (j + 2 ^ x.opt) = if s.active x.km j then s.halfWithin x hi j % 2 ^ 64 else lane (s.rdV x.vd) 64 (j + 2 ^ x.opt)) ∧
    (x.opt = 6 → x.vd < 63 → Fits s 64 (s.pairLanes x) → ∃ (t : State) (v u : VReg), s.butterfly c x lo hi = .next t ∧
      VxDone s t c 10 [keyV x.vd, keyV (x.vd + 1)] [] [] (putV (putV s.ctile x.vd v) (x.vd + 1) u) ∧
      ∀ j, j < 64 →
        lane v 64 j = (if s.active x.km j then s.halfAcross x lo j % 2 ^ 64 else lane (s.rdV x.vd) 64 j) ∧
        lane u 64 j = if s.active x.km j then s.halfAcross x hi j % 2 ^ 64 else lane (s.rdV (x.vd + 1)) 64 j) ∧
    (x.opt = 6 → x.vd = 63 → s.butterfly c x lo hi = .next (s.takeTrap ill)) := by
  refine ⟨fun hfit => State.butterfly_ill h fun hf => absurd hf hfit, fun ho hfit => ?_, fun ho hd hfit => ?_,
    fun ho hd => State.butterfly_ill h fun _ => .inl ⟨ho, hd⟩⟩
  · obtain ⟨t, ht, hdone⟩ := State.butterfly_within h hv hfit ho
    exact ⟨t, _, ht, hdone, fun j hj hlow => ⟨lane_withinReg_lower s x lo hi hj hlow, lane_withinReg_upper s x lo hi ho hj hlow⟩⟩
  · obtain ⟨t, ht, hdone⟩ := State.butterfly_across h hv hfit ho hd
    exact ⟨t, _, _, ht, hdone, fun j hj => ⟨lane_acrossReg s x x.vd lo hj, lane_acrossReg s x (x.vd + 1) hi hj⟩⟩
end

/-! ### Mask and modulus moves (R86, R201) -/

theorem State.maskOp_done {s : State} {c : Ctl} (h : VxReady s c) (kd : Nat) (src : List Nat) {f : State → Mask} {m : Mask}
    (hf : f (s.popFor c s.cur.eng) = m) :
    ∃ t, s.maskOp c kd src f = .next t ∧ VxDone s t c 2 (maskKey kd) [] [] (putK s.ctile kd m) :=
  ⟨_, rfl, State.vxOrder_done h rfl rfl rfl rfl (putK_fstepV ..) (by rw [hf]) ((OrderBody.popFor h.due.atU c).wrK kd m)⟩

/-- The moduli that VMOVK.vq refuses. -/
theorem vqIllegal_iff {n : Nat} : (decide (2 ^ 62 ≤ n) || n % 2 == 0 || decide (n < 3)) = true ↔ n < 3 ∨ 2 ^ 62 ≤ n ∨ n % 2 = 0 := by
  rw [Bool.or_eq_true, Bool.or_eq_true, decide_eq_true_iff, decide_eq_true_iff, beq_iff_eq, or_comm]

/-- The lanes of a whole register fit where VXALL = 1 alone. -/
theorem fits_whole_iff (s : State) : Fits s 64 (List.range 64) ↔ s.img.vxall = true :=
  ⟨fun h => h.resolve_right fun hl => absurd (hl 63 (by decide)) (by decide), Or.inl⟩

section
variable {s : State} {c : Ctl} (h : VxReady s c) (x : VX)
include h

theorem execVmovkVk_done : ∃ t, execVmovkVk c x s = .next t ∧ VxDone s t c 2 (maskKey x.vd) [] [] (putK s.ctile x.vd ((s.rdV x.va).setWidth 512)) :=
  ⟨_, rfl, State.vxOrder_done h rfl rfl rfl rfl (putK_fstepV ..) (by rw [State.popFor_rdV, BitVec.ofNat_toNat]) ((OrderBody.popFor h.due.atU c).wrK x.vd _)⟩

theorem execVmovkKv_done (hv : s.img.vxall = true) :
    ∃ t, execVmovkKv c x s = .next t ∧ VxDone s t c 2 [keyV x.vd] [] [] (putV s.ctile x.vd ((s.rdK x.va).setWidth 4096)) := by
  refine ⟨_, rfl, State.vxOrder_done h rfl rfl rfl rfl (putV_fstepV ..) ?_ ((OrderBody.popFor h.due.atU c).wrV x.vd _)⟩
  simp only [State.popFor_vxChk, State.vxChk_of_fits ((fits_whole_iff s).mpr hv), State.popFor_rdK, BitVec.ofNat_toNat]

theorem execVmovkKv_ill (hv : ¬ s.img.vxall = true) : execVmovkKv c x s = .next (s.takeTrap ill) := by
  refine congrArg Host.Outcome.next (State.vxOrder_trap h rfl ?_)
  simp only [State.popFor_vxChk, State.vxChk_of_not_fits (mt (fits_whole_iff s).mp hv)]

/-- VMOVK.qv gives lane 0 the saved form of the modulus register, VALID above Q, and leaves the other lanes. -/
theorem execVmovkQv_done : ∃ (t : State) (v : VReg), execVmovkQv c x s = .next t ∧ VxDone s t c 2 [keyV x.vd] [] [] (putV s.ctile x.vd v) ∧
    (∀ j, 1 ≤ j → j < 64 → lane v 64 j = lane (s.rdV x.vd) 64 j) ∧
    lane v 64 0 = ((if (s.rdQ x.va).valid then 2 ^ 63 else 0) + (s.rdQ x.va).q) % 2 ^ 64 := by
  refine ⟨_, _, rfl, State.vxOrder_done h rfl rfl rfl rfl (putV_fstepV ..) (by rw [State.popFor_rdQ, State.popFor_rdV])
    ((OrderBody.popFor h.due.atU c).wrV x.vd _), fun j hj hlt => ?_, ?_⟩
  · rw [lane_mapLanes _ _ le_rfl hlt, if_neg (Nat.one_le_iff_ne_zero.mp hj)]
    rfl
  · rw [lane_mapLanes _ _ le_rfl (by decide), if_pos rfl]
    rfl

/-- VMOVK.vq of a legal modulus sets VALID, Q and MU, for MX at its retirement (R191). -/
theorem execVmovkVq_done (h3 : 3 ≤ lane (s.rdV x.va) 64 0) (hlt : lane (s.rdV x.va) 64 0 < 2 ^ 62) (hodd : lane (s.rdV x.va) 64 0 % 2 = 1) :
    ∃ t, execVmovkVq c x s = .next t ∧ VxDone s t c 4 [keyQ x.vd] [] [.mxQ x.vd (.of (lane (s.rdV x.va) 64 0))]
      { s.ctile with q := Store.put {} x.vd (.of (lane (s.rdV x.va) 64 0)) s.ctile.q } := by
  refine ⟨_, rfl, State.vxOrder_done h rfl rfl rfl rfl rfl ?_ ((OrderBody.popFor h.due.atU c).wrQ x.vd _)⟩
  simp only [State.popFor_rdV]
  exact if_neg (mt vqIllegal_iff.mp (by omega))

theorem execVmovkVq_ill (hn : lane (s.rdV x.va) 64 0 < 3 ∨ 2 ^ 62 ≤ lane (s.rdV x.va) 64 0 ∨ lane (s.rdV x.va) 64 0 % 2 = 0) :
    execVmovkVq c x s = .next (s.takeTrap ill) := by
  refine congrArg Host.Outcome.next (State.vxOrder_trap h rfl ?_)
  simp only [State.popFor_rdV]
  exact if_pos (vqIllegal_iff.mpr hn)
end

end Sys2Proof.Machine

namespace Sys2Proof.Proofs
open Sys2Proof.Machine Sys2Proof.Claims

/-! The functions of the modular orders and the halves of the butterflies (R207, R208). -/

theorem exec_vaddm (c : Ctl) (x : VX) (s : State) : exec (.vaddm c x) s = s.modular c x 3 (fun q a b => (a + b) % q) := rfl
theorem exec_vsubm (c : Ctl) (x : VX) (s : State) : exec (.vsubm c x) s = s.modular c x 3 (fun q a b => (a + (q - b)) % q) := rfl
theorem exec_vmulm (c : Ctl) (x : VX) (s : State) : exec (.vmulm c x) s = s.modular c x 8 (fun q a b => a * b % q) := rfl
theorem exec_vntt (c : Ctl) (x : VX) (s : State) :
    exec (.vntt c x) s = s.butterfly c x (fun q u t w => (u + t * w) % q) (fun q u t w => (u + (q - t * w % q)) % q) := rfl
theorem exec_vintt (c : Ctl) (x : VX) (s : State) :
    exec (.vintt c x) s = s.butterfly c x (fun q u t _ => (u + t) % q) (fun q u t w => (u + (q - t)) % q * w % q) := rfl

theorem exec_modular {i : Instr} {o : LaneOp} {q : Nat} (h : vectorModular i = some (o, q)) {s : State} (hs : VxReady s o.c) :
    ModularOutcome s (exec i s) o q := by
  cases i with
  | vaddm c x => cases h; rw [exec_vaddm]; exact State.modular_outcome hs fun j _ => (Nat.add_mod ..).symm
  | vsubm c x => cases h; rw [exec_vsubm]; exact State.modular_outcome hs fun j hq => sub_mod_eq_toNat_emod hq _ _
  | vmulm c x => cases h; rw [exec_vmulm]; exact State.modular_outcome hs fun j _ => (Nat.mul_mod ..).symm
  | _ => nomatch h

/-- Settles O28: a modular order is lane-wise under a valid register, and every order over an invalid one raises ILL. -/
theorem vectorModular : Obligations.VectorModular := by
  refine ⟨fun i o q s hi _ hs => ?_, fun c x s hs hv => ?_⟩
  · obtain ⟨lanes, invalid, unfit⟩ := exec_modular hi hs
    exact ⟨lanes, invalid, unfit⟩
  · rw [exec_vntt, exec_vintt]
    exact ⟨fun _ => State.butterfly_ill hs fun _ => .inr hv, fun _ => State.butterfly_ill hs fun _ => .inr hv⟩

/-- The moves whose destination is a mask. -/
theorem exec_maskMove {s : State} {i : Instr} {c : Ctl} {kd : Nat} {m : Mask} (h : maskMove s i = some (c, kd, m)) (hs : VxReady s c) :
    ∃ t, exec i s = .next t ∧ VxDone s t c 2 (maskKey kd) [] [] (putK s.ctile kd m) := by
  cases i with
  | vmovkAnd c x => cases h; exact State.maskOp_done hs _ _ (by simp)
  | vmovkOr c x => cases h; exact State.maskOp_done hs _ _ (by simp)
  | vmovkXor c x => cases h; exact State.maskOp_done hs _ _ (by simp)
  | vmovkNot c x => cases h; exact State.maskOp_done hs _ _ (by simp)
  | vmovkVk c x => cases h; exact execVmovkVk_done hs x
  | _ => nomatch h

/-- Settles O30: each variant of VMOVK is a VX order that writes one register; .kv and .vq have the checks that raise ILL. -/
theorem maskMoves : Obligations.MaskMoves := by
  refine fun s => ⟨fun i c kd m hi _ hs => exec_maskMove hi hs, fun c x hs => ⟨fun _ => ?_, fun _ => ?_, fun _ => ?_⟩⟩
  · exact ⟨execVmovkKv_ill hs x, execVmovkKv_done hs x⟩
  · exact execVmovkQv_done hs x
  · exact ⟨execVmovkVq_done hs x, execVmovkVq_ill hs x⟩

/-- Settles O33: both transforms are one butterfly stage, with the halves of R208. -/
theorem transforms : Obligations.Transforms := by
  intro c x s hs hv q e old lowers fits stage
  refine ⟨fun _ => ?_, fun _ => ?_⟩
  · simp only [stage, Whole, exec_vntt]
    exact State.butterfly_stage hs hv
  · simp only [stage, Whole, exec_vintt]
    exact State.butterfly_stage hs hv

end Sys2Proof.Proofs
end

section
/-! PROOFS. The orders of MX that clear, move, store and restore whole accumulators (R89, R266 to R269, R275): what every MX order adds to
its bookkeeping, what each operation on accumulators leaves in every element, and the bytes that the orders exchange with a buffer. -/

namespace Sys2Proof.Machine
open Sys2Proof.Claims

/-! ### Writes of many keys of a store, and runs of its values -/

namespace Store
variable {α : Type}

/-- Where the value of each written cell is a function of its key, the written keys read as that function. -/
theorem get_foldl_put_cells [DecidableEq α] (d : α) (g : Nat → α) {cells : List (Nat × α)} (h : ∀ e ∈ cells, e.2 = g e.1) (k : Nat) (m : Store α) :
    get d k (cells.foldl (fun m e => put d e.1 e.2 m) m) = if k ∈ cells.map Prod.fst then g k else get d k m := by
  induction cells generalizing m with
  | nil => simp
  | cons e r ih =>
    obtain ⟨he, hr⟩ := List.forall_mem_cons.mp h
    rw [List.foldl_cons, ih hr, get_put, he, List.map_cons]
    by_cases hk : k = e.1 <;> simp only [List.mem_cons, hk, true_or, false_or, if_true, if_false, ite_self]

section
variable [DecidableEq α] (d : α) (src dst hi : Nat) (base : Store α)

/-- The cells of a range, moved from `src` to `dst` over a store. -/
def moved (l : Store α) : Store α :=
  ((l.filter (fun c => src ≤ c.1 && c.1 < hi)).map (fun c => (c.1 - src + dst, c.2))).foldr (fun c m => put d c.1 c.2 m) base

theorem moved_cons (e : Nat × α) (l : Store α) : moved d src dst hi base (e :: l) =
    if src ≤ e.1 ∧ e.1 < hi then put d (e.1 - src + dst) e.2 (moved d src dst hi base l) else moved d src dst hi base l := by
  by_cases h : src ≤ e.1 ∧ e.1 < hi <;> simp [moved, h]

/-- A place of the destination that stood at the default takes the value of its place in the source. -/
theorem get_moved_in {j : Nat} (hj : src + j < hi) (hb : get d (dst + j) base = d) (l : Store α) :
    get d (dst + j) (moved d src dst hi base l) = get d (src + j) l := by
  induction l with
  | nil => exact hb
  | cons e r ih =>
    rw [moved_cons]
    by_cases he : src ≤ e.1 ∧ e.1 < hi
    · have hk : dst + j = e.1 - src + dst ↔ e.1 = src + j := by omega
      rw [if_pos he, get_put, ih]
      exact if_congr hk rfl rfl
    · have hk : e.1 ≠ src + j := by omega
      rw [if_neg he, ih]
      exact (if_neg hk).symm

/-- A key outside the destination reads as before. -/
theorem get_moved_other {k : Nat} (hk : k < dst ∨ dst + (hi - src) ≤ k) (l : Store α) : get d k (moved d src dst hi base l) = get d k base := by
  induction l with
  | nil => rfl
  | cons e r ih =>
    rw [moved_cons]
    split
    · rw [get_put_other d e.2 (by omega), ih]
    · exact ih
end

@[simp] theorem length_getN (d : α) (m : Store α) (k n : Nat) : (getN d m k n).length = n := by
  induction n generalizing k with
  | zero => rfl
  | succ n ih => rw [getN, List.length_cons, ih]

theorem getN_add (d : α) (m : Store α) (k a b : Nat) : getN d m k (a + b) = getN d m k a ++ getN d m (k + a) b := by
  induction a generalizing k with
  | zero => simp [getN]
  | succ a ih => rw [Nat.succ_add, getN, ih, getN, List.cons_append, Nat.add_right_comm, Nat.add_assoc]

/-- Consecutive runs of one length make one run. -/
theorem flatten_getN (d : α) (m : Store α) (k w n : Nat) : ((List.range n).map (fun i => getN d m (k + w * i) w)).flatten = getN d m k (w * n) := by
  induction n with
  | zero => rfl
  | succ n ih => rw [List.range_succ, List.map_append, List.flatten_append, ih, Nat.mul_succ, getN_add]; simp

/-- A run within a run. -/
theorem take_drop_getN (d : α) (m : Store α) (k : Nat) {i j n : Nat} (h : i + j ≤ n) : ((getN d m k n).drop i).take j = getN d m (k + i) j := by
  obtain ⟨r, rfl⟩ := Nat.exists_eq_add_of_le h
  rw [Nat.add_assoc, getN_add, List.drop_left' (length_getN ..), getN_add, List.take_left' (length_getN ..)]

end Store

/-! ### Accumulator elements (R87, R266, R267) -/

theorem accKey_inj {a b p q : Nat} (hp : p < 16384) (hq : q < 16384) : accKey a p = accKey b q ↔ a = b ∧ p = q := by
  unfold accKey
  omega

/-- Tile `y` is `t` but for its accumulators, and their elements are as `f` says. -/
structure Tile.AccsSet (t y : Tile) (f : Nat → Nat → Wa) : Prop where
  rest : y = { t with acc := y.acc }
  els : ∀ a k, k < 16384 → y.accEl a k = f a k

theorem Tile.AccsSet.refl (t : Tile) : t.AccsSet t t.accEl := ⟨rfl, fun _ _ _ => rfl⟩

theorem Tile.AccsSet.ecc {t y : Tile} {f : Nat → Nat → Wa} (h : t.AccsSet y f) : y.ecc = t.ecc := by rw [h.rest]

theorem Tile.AccsSet.trans {t y z : Tile} {f g : Nat → Nat → Wa} (h : t.AccsSet y f) (hz : y.AccsSet z g) : t.AccsSet z g :=
  ⟨by rw [hz.rest, h.rest], hz.els⟩

/-- The elements may be said in another way. -/
theorem Tile.AccsSet.congr {t y : Tile} {f g : Nat → Nat → Wa} (h : t.AccsSet y f) (hfg : ∀ a k, k < 16384 → f a k = g a k) : t.AccsSet y g :=
  ⟨h.rest, fun a k hk => (h.els a k hk).trans (hfg a k hk)⟩

section
variable {t : Tile} (h : t.ecc = [])
include h

theorem Tile.unmark_of_clean (space : Nat) (rs : List (Nat × Nat)) : t.unmark space rs = t := by
  rw [Tile.unmark, h, List.filter_nil, ← h]

/-- Writing some elements of an accumulator, each with a value of its own. -/
theorem Tile.accsSet_cells {acc : Nat} {rs : List (Nat × Nat)} {cells : List (Nat × Wa)} (p : Nat → Prop) [DecidablePred p] (f : Nat → Wa)
    (hcells : ∀ e, e ∈ cells ↔ ∃ k, k < 16384 ∧ p k ∧ e = (accKey acc k, f k)) :
    t.AccsSet { t.unmark 6 rs with acc := cells.foldl (fun a c => Store.put 0 c.1 c.2 a) t.acc }
      (fun b k => if b = acc ∧ p k then f k else t.accEl b k) := by
  refine ⟨by rw [Tile.unmark_of_clean h], fun b k hk => ?_⟩
  have hval : ∀ e ∈ cells, e.2 = f (e.1 - accKey acc 0) := fun e he => by
    obtain ⟨k, -, -, rfl⟩ := (hcells e).mp he
    simp [accKey]
  have hmem : accKey b k ∈ cells.map Prod.fst ↔ b = acc ∧ p k := by
    simp only [List.mem_map, hcells]
    constructor
    · rintro ⟨_, ⟨q, hq, hp, rfl⟩, heq⟩
      obtain ⟨rfl, rfl⟩ := (accKey_inj hq hk).mp heq
      exact ⟨rfl, hp⟩
    · rintro ⟨rfl, hp⟩
      exact ⟨_, ⟨k, hk, hp, rfl⟩, rfl⟩
  rw [Tile.accEl, Store.get_foldl_put_cells 0 (fun q => f (q - accKey acc 0)) hval]
  refine ite_congr (propext hmem) (fun hb => ?_) (fun _ => rfl)
  rw [hb.1]
  simp [accKey]

/-- The block of M rows and N columns of an accumulator takes new elements, and all others stand. -/
theorem Tile.putAcc_sets {m n : Nat} (hm : m ≤ 128) (hn : n ≤ 128) (acc : Nat) (f : Nat → Nat → Wa) :
    t.AccsSet (t.putAcc acc m n f) (fun b k => if b = acc ∧ k / 128 < m ∧ k % 128 < n then f (k / 128) (k % 128) else t.accEl b k) := by
  refine Tile.accsSet_cells h (fun k => k / 128 < m ∧ k % 128 < n) (fun k => f (k / 128) (k % 128)) fun e => ?_
  simp only [List.mem_flatMap, List.mem_map, List.mem_range]
  constructor
  · rintro ⟨i, hi, j, hj, rfl⟩
    have hdiv : (128 * i + j) / 128 = i := by omega
    have hmod : (128 * i + j) % 128 = j := by omega
    exact ⟨128 * i + j, by omega, by omega, by rw [hdiv, hmod]⟩
  · rintro ⟨k, -, ⟨hi, hj⟩, rfl⟩
    exact ⟨k / 128, hi, k % 128, hj, by rw [Nat.div_add_mod]⟩

theorem Tile.clearAcc_sets (d : Nat) : t.AccsSet (t.clearAcc d) (fun b k => if b = d then 0 else t.accEl b k) := by
  refine ⟨by rw [Tile.clearAcc, Tile.unmark_of_clean h], fun b k hk => ?_⟩
  rw [Tile.clearAcc, Tile.accEl, Store.get_delRange]
  refine if_congr ?_ rfl rfl
  unfold accKey
  omega

/-- Clearing several accumulators, in any order. -/
theorem Tile.foldl_clearAcc_sets (ds : List Nat) : t.AccsSet (ds.foldl Tile.clearAcc t) (fun b k => if b ∈ ds then 0 else t.accEl b k) := by
  induction ds generalizing t with
  | nil => simpa using Tile.AccsSet.refl t
  | cons d ds ih =>
    have hd := Tile.clearAcc_sets h d
    refine (hd.trans (ih (hd.ecc.trans h))).congr fun b k hk => ?_
    rw [hd.els b k hk]
    by_cases hb : b = d <;> simp [hb]

theorem Tile.copyAcc_sets (d a : Nat) : t.AccsSet (t.copyAcc d a) (fun b k => if b = d then t.accEl a k else t.accEl b k) := by
  have hcopy : (t.copyAcc d a).acc =
      Store.moved 0 (accKey a 0) (accKey d 0) (accKey (a + 1) 0) (Store.delRange (accKey d 0) (accKey (d + 1) 0) t.acc) t.acc := rfl
  have hkey (b k : Nat) : accKey b k = accKey b 0 + k := by simp [accKey]
  refine ⟨by rw [Tile.copyAcc, Tile.unmark_of_clean h], fun b k hk => ?_⟩
  rw [Tile.accEl, hcopy]
  by_cases hb : b = d
  · rw [if_pos hb, hb, hkey d, Store.get_moved_in]
    · rw [← hkey, Tile.accEl]
    · unfold accKey
      omega
    · rw [Store.get_delRange, if_pos]
      unfold accKey
      omega
  · rw [if_neg hb, Store.get_moved_other, Store.get_delRange, if_neg]
    · rfl
    all_goals
      unfold accKey
      omega

/-- An accumulator takes the elements of a saved form, nine bytes each (R89). -/
theorem Tile.loadAcc_sets (acc : Nat) (data : List Byte) :
    t.AccsSet (t.loadAcc acc data) (fun b k => if b = acc then BitVec.ofNat 72 (leNat ((data.drop (9 * k)).take 9)) else t.accEl b k) := by
  have hclear := Tile.clearAcc_sets h acc
  have hecc := hclear.ecc.trans h
  have hcells := Tile.accsSet_cells (rs := []) (acc := acc) hecc (fun _ => True) (fun k => BitVec.ofNat 72 (leNat ((data.drop (9 * k)).take 9)))
    (cells := (List.range 16384).map (fun i => (accKey acc i, BitVec.ofNat 72 (leNat ((data.drop (9 * i)).take 9)))))
    (fun e => by simp only [List.mem_map, List.mem_range, true_and, eq_comm])
  rw [Tile.unmark_of_clean hecc] at hcells
  refine (hclear.trans hcells).congr fun b k hk => ?_
  rw [hclear.els b k hk]
  by_cases hb : b = acc <;> simp [hb]
end

/-! ### What a body reads and writes before its order's bookkeeping (R14, R49, R318) -/

section
variable {s u : State} {c : Ctl} {l : List (Nat × Eff)} {x : Tile}

/-- What does not depend on the bookkeeping of orders reads as in the tile that the body has made. -/
theorem OrderBody.reads (h : OrderBody s u c l x) {α : Type} (f : Tile → α) (hf : ∀ t : Tile, f t.plain = f t) : f u.ctile = f x := by
  rw [← hf, h.plain, hf]

theorem OrderBody.decl (h : OrderBody s u c l x) (b : Nat) : u.decl b = s.decl b :=
  (congrArg (State.decl · b) h.rest : u.offTiles.decl b = s.offTiles.decl b)

theorem OrderBody.eng (h : OrderBody s u c l x) : u.cur.eng = s.cur.eng :=
  (congrArg (fun v : State => v.cur.eng) h.rest : u.offTiles.cur.eng = s.offTiles.cur.eng)

theorem OrderBody.chkRead (h : OrderBody s u c l s.ctile) (e b off n : Nat) : u.chkRead e b off n = s.chkRead e b off n := by
  rw [State.chkRead, h.decl, h.reads (·.buf b) (fun _ => rfl), h.reads (·.seg) (fun _ => rfl), State.chkRead]

theorem OrderBody.chkWrite (h : OrderBody s u c l s.ctile) (e b off n : Nat) : u.chkWrite e b off n = s.chkWrite e b off n := by
  rw [State.chkWrite, h.decl, h.reads (·.buf b) (fun _ => rfl), h.reads (·.seg) (fun _ => rfl), State.chkWrite]

theorem OrderBody.setAccs (h : OrderBody s u c l s.ctile) {y : Tile} {f : Nat → Nat → Wa} (hy : u.ctile.AccsSet y f) :
    OrderBody s (u.setCtile y) c l { s.ctile with acc := y.acc } := by
  rw [hy.rest]
  exact h.setCtile rfl rfl rfl rfl (congrArg (fun t : Tile => { t with acc := y.acc }) h.plain)

/-- Further changes that the body lists for the ends of cycles. -/
theorem OrderBody.addEffs (h : OrderBody s u c l x) (m : List (Nat × Eff)) :
    OrderBody s (u.setCtile { u.ctile with effs := u.ctile.effs ++ m }) c (l ++ m) x where
  rest := (rfl : State.offTiles (u.setCtile _) = u.offTiles).trans h.rest
  tiles p hp := (State.setCtile_tile_other u _ (h.rest.here.symm ▸ hp)).trans (h.tiles p hp)
  engs := by rw [State.setCtile_ctile, ← h.engs]
  tokens k := by rw [State.setCtile_ctile, ← h.tokens]
  flights := by rw [State.setCtile_ctile, ← h.flights]
  effs := by rw [State.setCtile_ctile, h.effs, List.append_assoc]
  plain := by rw [State.setCtile_ctile, ← h.plain]; rfl
end

section
variable {t : Tile} (h : t.ecc = [])
include h

theorem Tile.eccIn_of_clean (space addr n : Nat) : t.eccIn space addr n = [] := by rw [Tile.eccIn, h, List.filter_nil]
theorem Tile.bad_of_clean (space addr n : Nat) : t.bad space addr n = false := by rw [Tile.bad, Tile.eccIn_of_clean h, List.any_nil]
theorem Tile.accPoison_of_clean (acc : Nat) : t.accPoison acc = none := by rw [Tile.accPoison, Tile.bad_of_clean h]; rfl
theorem Tile.accsPoison_of_clean (rs : List (Nat × Nat)) : t.accsPoison rs = none := by simp [Tile.accsPoison, Tile.bad_of_clean h]
end

section
variable {s : State} (h : s.ctile.ecc = [])
include h

theorem State.correct_of_clean (space addr n : Nat) : s.correct space addr n = s := by
  have hsingle : (s.tile s.here).single space addr n = 0 := by rw [← State.ctile, Tile.single, Tile.eccIn_of_clean h]; rfl
  simp only [State.correct, State.correctAt, hsingle, if_true]

theorem State.correctAcc_of_clean (acc : Nat) : s.correctAcc acc = s := State.correct_of_clean h _ _ _

theorem State.correctAccs_of_clean (rs : List (Nat × Nat)) : s.correctAccs rs = s := by
  induction rs with
  | nil => rfl
  | cons r rs ih => rw [State.correctAccs, List.foldl_cons, State.correct_of_clean h]; exact ih
end

theorem firstTrap_eq_none {α : Type} {f : α → Option Trap} {l : List α} (h : ∀ a ∈ l, f a = none) : firstTrap f l = none := by
  induction l with
  | nil => rfl
  | cons a l ih =>
    obtain ⟨ha, hl⟩ := List.forall_mem_cons.mp h
    rw [firstTrap, ha]
    exact ih hl

/-- Where every piece passes its checks and no error stands in the tile, a read of pieces gives their bytes. -/
theorem State.readBufs_ok {s : State} {e b : Nat} {xs : List (Nat × Nat)} (hecc : s.ctile.ecc = []) (h : ∀ x ∈ xs, s.chkRead e b x.1 x.2 = none) :
    s.readBufs e b xs = .ok (xs.map (fun x => s.bufBytes b x.1 x.2)) := by
  have hread : ∀ x ∈ xs, s.readBuf e b x.1 x.2 = .ok (s.bufBytes b x.1 x.2) := fun x hx => by
    rw [State.readBuf, h x hx, Tile.bad_of_clean hecc]
    rfl
  rw [State.readBufs, firstTrap_eq_none h]
  change xs.mapM _ = _
  clear h
  induction xs with
  | nil => rfl
  | cons x xs ih =>
    obtain ⟨hx, hxs⟩ := List.forall_mem_cons.mp hread
    rw [List.mapM_cons, hx, ih hxs]
    rfl

/-- Reading a range of a buffer by its 64-byte elements gives the bytes of the range. -/
theorem State.readBufs_elements {s : State} {e b off n : Nat} (hecc : s.ctile.ecc = []) (h : ∀ k, k < n → s.chkRead e b (off + 64 * k) 64 = none) :
    ∃ bs, s.readBufs e b ((List.range n).map (fun k => (off + 64 * k, 64))) = .ok bs ∧ bs.flatten = s.bufBytes b off (64 * n) := by
  refine ⟨_, State.readBufs_ok hecc (by simpa using h), ?_⟩
  have haddr (k : Nat) : (s.decl b).addr (off + 64 * k) = (s.decl b).addr off + 64 * k := (Nat.add_assoc _ _ _).symm
  simp only [List.map_map, Function.comp_def, State.bufBytes, haddr]
  exact Store.flatten_getN 0 _ _ 64 n

theorem State.chkOut_eq_none {s : State} {buf off n : Nat} (h : ∀ k, k < ceilDiv n 64 → s.chkWrite 4 buf (off + 64 * k) 64 = none) :
    s.chkOut buf off n = none := firstTrap_eq_none (by simpa using h)

theorem overlap_eq_false {a b : Nat × Nat} (h : a.1 + a.2 ≤ b.1 ∨ b.1 + b.2 ≤ a.1) : overlap a b = false := by
  simp only [overlap, Bool.and_eq_false_iff, decide_eq_false_iff_not]
  omega

/-! ### An MX order that nothing delays (R98, R250, R251) -/

/-- The order that a due order leaves in flight carries what its body says (R36). -/
theorem OrderBody.commit_flight {s u : State} {n : ENeed} {l : List (Nat × Eff)} {x : Tile} (h : OrderBody s u n.ctl l x) (hd : Due s n.ctl) (i : Issue) :
    let t := u.setCtile (u.ctile.commitOrder n i s.cur s.now)
    restSame s t ∧ t.ctile.plain = x.plain ∧ t.ctile.sb = u.ctile.sb ∧
      ∃ f, Issued s t n.ctl f l ∧ f.retire = i.retire ∧ f.effs = i.effs ∧ f.done = i.done ∧ f.opRd = i.opRd ∧ f.opWr = i.opWr := by
  obtain ⟨hrest, hplain, hsb, f, hf, hret, heffs⟩ := h.commit hd i
  have hredo : u.ctile.redoing s.cur.eng = none := by rw [Tile.redoing, h.flights]; exact hd.first
  obtain ⟨g, hg, hdone, hrd, hwr⟩ : ∃ g : Flight, (u.ctile.commitOrder n i s.cur s.now).flights = u.ctile.flights ++ [g] ∧
      g.done = i.done ∧ g.opRd = i.opRd ∧ g.opWr = i.opWr := by
    rw [Tile.commitOrder, hredo]
    simp only [Tile.passOrder_eq]
    exact ⟨_, rfl, rfl, rfl, rfl⟩
  have hfg : f = g := by
    have hflights := hf.flights
    rw [State.setCtile_ctile, hg, h.flights] at hflights
    simpa using hflights.symm
  exact ⟨hrest, hplain, hsb, f, hf, hret, heffs, hfg ▸ hdone, hfg ▸ hrd, hfg ▸ hwr⟩

/-- An order that holds one unit leaves its occupancy, one more frame step, and what the next order may chain onto. -/
theorem Tile.afterM_eq (t : Tile) {n : MNeed} {k o : Nat} (now : Nat) (hu : n.unit = [(k, o)]) :
    t.afterM n now = { t with sb := Store.put 0 k (now + o) t.sb, fstepM := t.fstepM + 1, lastMma := n.mma } := by
  rw [Tile.afterM, hu]
  rfl

/-- What an MX order needs of its engine. -/
def State.mxNeed (s : State) (c : Ctl) (n : MNeed) : ENeed := { ctl := c, free := n.ready s.ctile s.now, met := n.met }
/-- What it leaves in flight, after a body that has made `u` and issued `i`. -/
def State.mxIssue (s u : State) (c : Ctl) (n : MNeed) (i : Issue) : Issue :=
  let a := (s.popFor c s.cur.eng).ctile
  { i with retire := some (u.now + n.lat - 1), opRd := n.rd, opWr := n.wr,
           before := if i.intPath then some { acc := a.acc, sh0 := a.sh0, sh1 := a.sh1, nlvA := a.nlvA } else none }
/-- What its own bookkeeping makes of its body's state. -/
def State.mxBooked (u : State) (n : MNeed) : State := u.setCtile (u.ctile.afterM n u.now)

/-- The outcome of an MX order that changes accumulators alone, to the elements that `f` says, and makes the changes `l` at the ends of cycles. -/
def State.SetsAccs (s : State) (o : Host.Outcome State Fault Refusal) (c : Ctl) (n : MNeed) (l : List (Nat × Eff)) (f : Nat → Nat → Wa) : Prop :=
  ∃ t, o = .next t ∧ MxDone s t c n l [] none { s.ctile with acc := t.ctile.acc } ∧ AccIs t f

section
variable {s u : State} {c : Ctl} {n : MNeed} {body : State → Except Trap (State × Issue)} {i : Issue} (h : MxReady s c n)
  (hb : body (s.popFor c s.cur.eng) = .ok (u, i))
include h hb

theorem State.mxOrder_go : s.mxOrder c n body =
    (u.mxBooked n).setCtile ((u.mxBooked n).ctile.commitOrder (s.mxNeed c n) (s.mxIssue u c n i) s.cur s.now) := by
  rw [State.mxOrder, h.unit]
  exact State.engineOrder_go (n := s.mxNeed c n) (r := (u.mxBooked n, s.mxIssue u c n i)) rfl h.due h.ready h.met
    (by simp only [State.mxNeed, hb]; rfl)

/-- Where its body passes, an MX order has issued with the body's changes. -/
theorem State.mxOrder_done {k o : Nat} {l : List (Nat × Eff)} {x : Tile} (hunit : n.unit = [(k, o)]) (hu : OrderBody s u c l x)
    (hx : x.fstepM = s.ctile.fstepM) : MxDone s (s.mxOrder c n body) c n l i.effs i.done x := by
  have hbooked : OrderBody s (u.mxBooked n) c l { x with fstepM := s.ctile.fstepM + 1 } := by
    rw [State.mxBooked, Tile.afterM_eq _ _ hunit, hu.reads (·.fstepM) (fun _ => rfl), hx]
    exact hu.setCtile rfl rfl rfl rfl (congrArg (fun t : Tile => { t with fstepM := s.ctile.fstepM + 1 }) hu.plain)
  obtain ⟨hrest, hplain, hsb, f, hf, hret, heffs, hdone, hrd, hwr⟩ :=
    OrderBody.commit_flight (n := s.mxNeed c n) hbooked h.due (s.mxIssue u c n i)
  rw [State.mxOrder_go h hb]
  refine ⟨hrest, ⟨f, hf, ?_, heffs, hdone, hrd, hwr⟩, hplain, fun v hv => ?_⟩
  · rw [hret, ← hu.rest.now]
    rfl
  · rw [hunit, List.mem_singleton] at hv
    rw [hv, Tile.ready, hsb, State.mxBooked, State.setCtile_ctile, Tile.afterM_eq _ _ hunit, Store.get_put_same, hu.rest.now]

/-- Where its body has set the accumulators of the tile in hand, they stand so after the order. -/
theorem State.mxOrder_accs {k o : Nat} {l : List (Nat × Eff)} {y : Tile} {f : Nat → Nat → Wa} (hunit : n.unit = [(k, o)])
    (hu : OrderBody s u c l { s.ctile with acc := y.acc }) (hy : ∀ a k, k < 16384 → y.accEl a k = f a k) (heffs : i.effs = []) (hi : i.done = none) :
    s.SetsAccs (.next (s.mxOrder c n body)) c n l f := by
  have hdone := State.mxOrder_done h hb hunit hu rfl
  rw [heffs, hi] at hdone
  have hacc : (s.mxOrder c n body).ctile.acc = y.acc :=
    (congrArg Tile.acc hdone.tile : (s.mxOrder c n body).ctile.plain.acc = _)
  refine ⟨_, rfl, hacc ▸ hdone, fun a k hk => ?_⟩
  rw [Tile.accEl, hacc]
  exact hy a k hk
end

end Sys2Proof.Machine

namespace Sys2Proof.Claims
open Sys2Proof.Machine

/-! ### The tile in which a body's checks are made -/

/-- Where no earlier order of the engine has still to write what is read, the read does not wait (R65, R190). -/
theorem Clear.pending_eq_false {s : State} {e b off n : Nat} (h : Clear s e b off n) : s.pending e b off n = false := by
  rw [State.pending, List.any_eq_false]
  rintro ⟨due, f⟩ hf
  cases f
  case sram g y data =>
    by_cases hg : g = e
    · obtain ⟨hrange, hfill⟩ := h due g y data hf hg
      have hr : overlap (y, data.length) ((s.decl b).addr off, n) = false := overlap_eq_false hrange
      by_cases hempty : (s.ctile.buf b).st = .empty ∧ (due, Eff.bufFull b) ∈ s.ctile.effs
      · have hb : overlap (y, data.length) ((s.decl b).addr 0, (s.decl b).bytes) = false := 
          overlap_eq_false (by simpa [BufDecl.addr, BufDecl.bytes] using hfill hempty.1 hempty.2)
        simp [hr, hb]
      · simp only [not_and] at hempty
        simpa [hr] using fun _ h1 h2 => absurd h2 (hempty h1)
    · simp [hg]
  all_goals simp

section
variable {s : State} {c : Ctl} {n : MNeed} (h : MxReady s c n)
include h

theorem MxReady.body : OrderBody s (s.popFor c s.cur.eng) c [] s.ctile := OrderBody.popFor h.due.atU c

theorem MxReady.body_clean : (s.popFor c s.cur.eng).ctile.ecc = [] := (h.body.reads (·.ecc) (fun _ => rfl)).trans h.whole

theorem MxReady.body_accEl : (s.popFor c s.cur.eng).ctile.accEl = s.ctile.accEl := h.body.reads Tile.accEl (fun _ => rfl)
theorem MxReady.chkOut_eq_none {buf off m : Nat} (hw : mxWrites s buf off m) :
    (s.popFor c s.cur.eng).chkOut buf (64 * off) m = none :=
  State.chkOut_eq_none fun k hk => (h.body.chkWrite ..).trans (hw k hk)

theorem MxReady.copyAcc_els (d a b k : Nat) (hk : k < 16384) :
    ((s.popFor c s.cur.eng).ctile.copyAcc d a).accEl b k = if b = d then s.ctile.accEl a k else s.ctile.accEl b k := by
  rw [(Tile.copyAcc_sets h.body_clean d a).els b k hk, h.body_accEl]

end

end Sys2Proof.Claims

namespace Sys2Proof.Machine
open Sys2Proof.Claims

/-! ### The orders on whole accumulators (R266 to R269) -/

theorem bits_one_beq (v k : Nat) : (bits v k 1 == 1) = v.testBit k := by
  rw [bits_one]
  cases v.testBit k <;> rfl

/-! The unit, times and accumulators of each order (Table 14.1). -/

/-- ACLR of the accumulators in `mask`. -/
def clearNeed (mask : Nat) : MNeed := { unit := [(keyArray, 1)], lat := 2, accs := (List.range 4).filter (fun a => mask.testBit a) }
/-- An AMOV of any form, from accumulator `a` to `d`. -/
def moveNeed (d a : Nat) : MNeed := { unit := [(keyArray, 16)], lat := 18, accs := [d, a] }
/-- AOUT of so many bytes. -/
def outNeed (acc bytes : Nat) : MNeed := { unit := [(keyMPort, ceilDiv bytes 256)], lat := ceilDiv bytes 256 + 6, accs := [acc] }
/-- ASTOW and ARESTORE. -/
def saveNeed (acc : Nat) : MNeed := { unit := [(keyMPort, 576)], lat := 578, accs := [acc] }

/-- The bytes of a buffer that are written, and the buffer's change of state, at the end of cycle `due`. -/
def State.laterEffs (s : State) (due buf off : Nat) (data : List Byte) : List (Nat × Eff) :=
  [(due, .sram s.cur.eng ((s.decl buf).base * 4096 + off) data), (due, .bufFull buf)]

theorem OrderBody.laterWrite {s u : State} {c : Ctl} (h : OrderBody s u c [] s.ctile) (buf off due : Nat) (data : List Byte) :
    OrderBody s (u.laterWrite buf off due data) c (s.laterEffs due buf off data) s.ctile := by
  rw [State.laterWrite, h.eng, h.decl]
  exact h.addEffs _

section
variable {s : State} {c : Ctl}

theorem execAclr_setsAccs {mask : Nat} (h : MxReady s c (clearNeed mask)) :
    s.SetsAccs (execAclr c mask s) c (clearNeed mask) [] (fun a k => if a < 4 ∧ mask.testBit a = true then 0 else s.ctile.accEl a k) := by
  have hsets := Tile.foldl_clearAcc_sets h.body_clean ((List.range 4).filter (fun a => mask.testBit a))
  simp only [execAclr, bits_one_beq]
  refine State.mxOrder_accs h (i := { accW := mask }) rfl rfl (h.body.setAccs hsets) (fun a k hk => ?_) rfl rfl
  rw [hsets.els a k hk, h.body_accEl]
  simp

section
variable {d a : Nat} (h : MxReady s c (moveNeed d a))
include h

/-- An AMOV of any form whose checks pass sets the accumulators. -/
theorem State.amovOrder_setsAccs {ip : Bool} {chk : State → Option Trap} {f : State → State} {u : State} {l : List (Nat × Eff)} {y : Tile}
    {g : Nat → Nat → Wa} (hchk : chk (s.popFor c s.cur.eng) = none) (hf : f (s.popFor c s.cur.eng) = u)
    (hu : OrderBody s u c l { s.ctile with acc := y.acc }) (hy : ∀ a k, k < 16384 → y.accEl a k = g a k) :
    s.SetsAccs (s.amovOrder c d a ip chk f) c (moveNeed d a) l g := by
  refine State.mxOrder_accs h (i := { accW := 2 ^ d, intPath := ip }) ?_ rfl hu hy rfl rfl
  simp only [hchk, Tile.accPoison_of_clean h.body_clean, State.correctAcc_of_clean h.body_clean, hf]
  rfl

theorem execAmov_setsAccs (hr : s.ctile.shadowRead a = none) :
    s.SetsAccs (execAmov c d a s) c (moveNeed d a) [] (fun b k => if b = d then s.ctile.accEl a k else s.ctile.accEl b k) :=
  State.amovOrder_setsAccs h ((h.body.reads (·.shadowRead a) (fun _ => rfl)).trans hr) rfl
    (h.body.setAccs (Tile.copyAcc_sets h.body_clean d a)) (h.copyAcc_els d a)

theorem execAmovAdd_setsAccs {cls q : Nat} (hq : cls = 2 → (Store.get ({} : QReg) q s.ctile.qM).valid = true) (hr : s.ctile.shadowRead a = none) :
    s.SetsAccs (execAmovAdd c d a cls q s) c (moveNeed d a) [] (fun b k =>
      if b = d then waAdd cls (Store.get ({} : QReg) q s.ctile.qM).q (s.ctile.accEl d k) (s.ctile.accEl a k) else s.ctile.accEl b k) := by
  have hqM : (s.popFor c s.cur.eng).ctile.qM = s.ctile.qM := h.body.reads (·.qM) (fun _ => rfl)
  have hvalid : (cls == 2 && !(Store.get ({} : QReg) q s.ctile.qM).valid) = false := by
    by_cases hc : cls = 2
    · simp [hq hc]
    · simp [hc]
  have hsets := Tile.putAcc_sets h.body_clean (le_refl 128) (le_refl 128) d (fun i j =>
    waAdd cls (Store.get ({} : QReg) q s.ctile.qM).q (s.ctile.accEl d (128 * i + j)) (s.ctile.accEl a (128 * i + j)))
  refine State.amovOrder_setsAccs h ?_ ?_ (h.body.setAccs hsets) fun b k hk => ?_
  · simp only [hqM, hvalid, h.body.reads (·.shadowRead a) (fun _ => rfl), hr, Tile.accPoison_of_clean h.body_clean]
    rfl
  · simp only [State.correctAcc_of_clean h.body_clean, hqM, h.body_accEl]
  · rw [hsets.els b k hk, Nat.div_add_mod, h.body_accEl]
    refine if_congr ?_ rfl rfl
    omega

theorem execAmovMerge_setsAccs (hst : (s.ctile.shadow a).st = .committed) (hp : (s.ctile.shadow a).partner = d) :
    s.SetsAccs (execAmovMerge c d a s) c (moveNeed d a) [(s.now, .shadow a {})]
      (fun b k => if b = d then s.ctile.accEl a k else s.ctile.accEl b k) := by
  have hcopied := h.body.setAccs (Tile.copyAcc_sets h.body_clean d a)
  refine State.amovOrder_setsAccs h ?_ rfl ?_ (h.copyAcc_els d a)
  · simp only [h.body.reads (·.shadow a) (fun _ => rfl), hst, hp, if_true]
  · rw [← hcopied.rest.now]
    exact hcopied.addEffs _
end

theorem execAout_done {acc f nrows1 rbase buf off : Nat} (h : MxReady s c (outNeed acc ((nrows1 + 1) * rowBytes (entOtype (s.ctile.fent f)))))
    (hrows : rbase + nrows1 + 1 ≤ 128) (he : entValid (s.ctile.fent f) = true) (hr : s.ctile.shadowRead acc = none)
    (hw : mxWrites s buf off ((nrows1 + 1) * rowBytes (entOtype (s.ctile.fent f)))) :
    ∃ t, execAout c acc f nrows1 rbase buf off s = .next t ∧ MxDone s t c (outNeed acc ((nrows1 + 1) * rowBytes (entOtype (s.ctile.fent f))))
      (s.laterEffs (s.now + ceilDiv ((nrows1 + 1) * rowBytes (entOtype (s.ctile.fent f))) 256 + 5) buf (64 * off)
        ((List.range (nrows1 + 1)).flatMap (fun r => aoutRow s.ctile (s.ctile.fent f) acc (rbase + r)
          (fun l => if entRmode (s.ctile.fent f) = 4 then srRnd s.ctile.seedM s.ctile.fstepM l else 0)))) [] none s.ctile := by
  refine ⟨_, rfl, State.mxOrder_done h (i := {}) ?_ rfl (h.body.laterWrite ..) rfl⟩
  have hpass : (decide (128 < rbase + nrows1 + 1) || !entValid (s.ctile.fent f)) = false := by
    rw [he, decide_eq_false (by omega)]
    rfl
  have hrow : aoutRow (s.popFor c s.cur.eng).ctile = aoutRow s.ctile := h.body.reads aoutRow (fun _ => rfl)
  simp only [hpass, Bool.false_eq_true, if_false, h.body.reads (·.shadowRead acc) (fun _ => rfl), hr, h.chkOut_eq_none hw,
    Tile.accsPoison_of_clean h.body_clean, State.correctAccs_of_clean h.body_clean, h.body.rest.now, hrow,
    h.body.reads (·.seedM) (fun _ => rfl), h.body.reads (·.fstepM) (fun _ => rfl)]
  rfl

section
variable {acc : Nat} (h : MxReady s c (saveNeed acc))
include h

theorem execAstow_done {buf off : Nat} (hr : s.ctile.shadowRead acc = none) (hw : mxWrites s buf off 147456) :
    ∃ t, execAstow c acc buf off s = .next t ∧
      MxDone s t c (saveNeed acc) (s.laterEffs (s.now + 577) buf (64 * off) (s.ctile.savedAcc acc)) [] none s.ctile := by
  refine ⟨_, rfl, State.mxOrder_done h (i := {}) ?_ rfl (h.body.laterWrite ..) rfl⟩
  have hsaved : (s.popFor c s.cur.eng).ctile.savedAcc acc = s.ctile.savedAcc acc := by rw [Tile.savedAcc, h.body_accEl, Tile.savedAcc]
  simp only [h.body.reads (·.shadowRead acc) (fun _ => rfl), hr, h.chkOut_eq_none hw, Tile.accPoison_of_clean h.body_clean,
    State.correctAcc_of_clean h.body_clean, h.body.rest.now, hsaved]
  rfl

theorem execArestore_setsAccs {buf off : Nat} (hclear : Clear s 4 buf (64 * off) 147456) (hreads : mxReads s buf off 2304) :
    s.SetsAccs (execArestore c acc buf off s) c (saveNeed acc) [] (fun a k => if a = acc
      then BitVec.ofNat 72 (leNat (Store.getN 0 s.ctile.sram ((s.decl buf).base * 4096 + 64 * off + 9 * k) 9)) else s.ctile.accEl a k) := by
  obtain ⟨bs, hbs, hflat⟩ := State.readBufs_elements h.body_clean fun k hk => (h.body.chkRead ..).trans (hreads k hk)
  have hsets := Tile.loadAcc_sets h.body_clean acc bs.flatten
  rw [execArestore, hclear.pending_eq_false]
  refine State.mxOrder_accs h (i := { accW := 2 ^ acc }) ?_ rfl (h.body.setAccs hsets) (fun a k hk => ?_) rfl rfl
  · simp only [hbs, State.correct_of_clean h.body_clean]
  · rw [hsets.els a k hk, h.body_accEl, hflat, State.bufBytes, Store.take_drop_getN 0 _ _ (by omega), h.body.decl,
      h.body.reads (·.sram) (fun _ => rfl), BufDecl.addr]
end
end

end Sys2Proof.Machine

namespace Sys2Proof.Proofs
open Sys2Proof.Machine Sys2Proof.Claims

/-- Settles O50: ACLR clears, the AMOVs copy or add, ARESTORE loads accumulators in hand; AOUT and ASTOW list their bytes for the end of
their last cycle. -/
theorem accumulators : Obligations.Accumulators := fun _ _ =>
  ⟨fun _ _ h => execAclr_setsAccs h,
    fun _ _ h => ⟨execAmov_setsAccs h, fun _ _ hq hr => execAmovAdd_setsAccs h hq hr, execAmovMerge_setsAccs h⟩,
    fun _ _ _ _ _ _ h => execAout_done h,
    fun _ _ _ h => ⟨execAstow_done h, execArestore_setsAccs h⟩⟩

end Sys2Proof.Proofs
end

section
/-! PROOFS. The decoder and the encoder agree (R112 to R124, R135): what is encoded decodes to its instruction, and what decodes is
encoded by the words that it stands in. -/

namespace Sys2Proof.Proofs
open Sys2Proof.Laws

/-- The round trip of every constructor. -/
theorem roundTrip : ∀ i : Instr, RoundTrip.Statement i
  | .add .. => RoundTrip.add _ _ _
  | .sub .. => RoundTrip.sub _ _ _
  | .and .. => RoundTrip.and _ _ _
  | .or .. => RoundTrip.or _ _ _
  | .xor .. => RoundTrip.xor _ _ _
  | .shl .. => RoundTrip.shl _ _ _
  | .shr .. => RoundTrip.shr _ _ _
  | .sra .. => RoundTrip.sra _ _ _
  | .slt .. => RoundTrip.slt _ _ _
  | .sltn .. => RoundTrip.sltn _ _ _
  | .min .. => RoundTrip.min _ _ _
  | .max .. => RoundTrip.max _ _ _
  | .minn .. => RoundTrip.minn _ _ _
  | .maxn .. => RoundTrip.maxn _ _ _
  | .sel .. => RoundTrip.sel _ _ _ _
  | .clz .. => RoundTrip.clz _ _
  | .ctz .. => RoundTrip.ctz _ _
  | .popc .. => RoundTrip.popc _ _
  | .brev .. => RoundTrip.brev _ _
  | .mul .. => RoundTrip.mul _ _ _
  | .mulh .. => RoundTrip.mulh _ _ _
  | .mulhn .. => RoundTrip.mulhn _ _ _
  | .div .. => RoundTrip.div _ _ _
  | .divn .. => RoundTrip.divn _ _ _
  | .rem .. => RoundTrip.rem _ _ _
  | .remn .. => RoundTrip.remn _ _ _
  | .addi .. => RoundTrip.addi _ _ _
  | .andi .. => RoundTrip.andi _ _ _
  | .ori .. => RoundTrip.ori _ _ _
  | .xori .. => RoundTrip.xori _ _ _
  | .slti .. => RoundTrip.slti _ _ _
  | .ldb .. => RoundTrip.ldb _ _ _ _
  | .ldh .. => RoundTrip.ldh _ _ _ _
  | .ldw .. => RoundTrip.ldw _ _ _ _
  | .ldd .. => RoundTrip.ldd _ _ _ _
  | .ldbN .. => RoundTrip.ldbN _ _ _ _
  | .ldhN .. => RoundTrip.ldhN _ _ _ _
  | .ldwN .. => RoundTrip.ldwN _ _ _ _
  | .stb .. => RoundTrip.stb _ _ _ _
  | .sth .. => RoundTrip.sth _ _ _ _
  | .stw .. => RoundTrip.stw _ _ _ _
  | .std .. => RoundTrip.std _ _ _ _
  | .beq .. => RoundTrip.beq _ _ _
  | .bne .. => RoundTrip.bne _ _ _
  | .blt .. => RoundTrip.blt _ _ _
  | .bge .. => RoundTrip.bge _ _ _
  | .bltn .. => RoundTrip.bltn _ _ _
  | .bgen .. => RoundTrip.bgen _ _ _
  | .jal .. => RoundTrip.jal _ _
  | .jalr .. => RoundTrip.jalr _ _ _
  | .vadd .. => RoundTrip.vadd _ _
  | .vsub .. => RoundTrip.vsub _ _
  | .vmul .. => RoundTrip.vmul _ _
  | .vfma .. => RoundTrip.vfma _ _
  | .vfms .. => RoundTrip.vfms _ _
  | .vmin .. => RoundTrip.vmin _ _
  | .vmax .. => RoundTrip.vmax _ _
  | .vabs .. => RoundTrip.vabs _ _
  | .vneg .. => RoundTrip.vneg _ _
  | .vdiv .. => RoundTrip.vdiv _ _
  | .vrsqrt .. => RoundTrip.vrsqrt _ _
  | .vexp2 .. => RoundTrip.vexp2 _ _
  | .vlog2 .. => RoundTrip.vlog2 _ _
  | .vsigm .. => RoundTrip.vsigm _ _
  | .vtanh .. => RoundTrip.vtanh _ _
  | .vcmp .. => RoundTrip.vcmp _ _
  | .vsel .. => RoundTrip.vsel _ _
  | .vand .. => RoundTrip.vand _ _
  | .vor .. => RoundTrip.vor _ _
  | .vxor .. => RoundTrip.vxor _ _
  | .vnot .. => RoundTrip.vnot _ _
  | .vshl .. => RoundTrip.vshl _ _
  | .vshr .. => RoundTrip.vshr _ _
  | .vsra .. => RoundTrip.vsra _ _
  | .vmulhi .. => RoundTrip.vmulhi _ _
  | .vcvt .. => RoundTrip.vcvt _ _
  | .vpack .. => RoundTrip.vpack _ _
  | .vunpk .. => RoundTrip.vunpk _ _
  | .vperm .. => RoundTrip.vperm _ _
  | .vmovkAnd .. => RoundTrip.vmovkAnd _ _
  | .vmovkOr .. => RoundTrip.vmovkOr _ _
  | .vmovkXor .. => RoundTrip.vmovkXor _ _
  | .vmovkNot .. => RoundTrip.vmovkNot _ _
  | .vmovkKv .. => RoundTrip.vmovkKv _ _
  | .vmovkVk .. => RoundTrip.vmovkVk _ _
  | .vmovkVq .. => RoundTrip.vmovkVq _ _
  | .vmovkQv .. => RoundTrip.vmovkQv _ _
  | .vredsum .. => RoundTrip.vredsum _ _
  | .vredmax .. => RoundTrip.vredmax _ _
  | .vaddm .. => RoundTrip.vaddm _ _
  | .vsubm .. => RoundTrip.vsubm _ _
  | .vmulm .. => RoundTrip.vmulm _ _
  | .vntt .. => RoundTrip.vntt _ _
  | .vintt .. => RoundTrip.vintt _ _
  | .vhash .. => RoundTrip.vhash _ _
  | .vseed .. => RoundTrip.vseed _ _
  | .estart .. => RoundTrip.estart _ _ _
  | .estop .. => RoundTrip.estop _
  | .ewait .. => RoundTrip.ewait _
  | .ebase .. => RoundTrip.ebase _ _
  | .rend => RoundTrip.rend
  | .frame => RoundTrip.frame
  | .seg .. => RoundTrip.seg _
  | .colo .. => RoundTrip.colo _ _
  | .bar .. => RoundTrip.bar _ _
  | .qfence .. => RoundTrip.qfence _ _
  | .waitcw .. => RoundTrip.waitcw _ _
  | .acommit .. => RoundTrip.acommit _
  | .adiscard .. => RoundTrip.adiscard _
  | .nop => RoundTrip.nop
  | .eret => RoundTrip.eret
  | .halt => RoundTrip.halt
  | .srd .. => RoundTrip.srd _ _
  | .swr .. => RoundTrip.swr _ _
  | .trap .. => RoundTrip.trap _
  | .time .. => RoundTrip.time _
  | .snap .. => RoundTrip.snap _ _ _
  | .rollb .. => RoundTrip.rollb _ _ _
  | .keyz .. => RoundTrip.keyz _ _
  | .ldsys .. => RoundTrip.ldsys _ _ _
  | .stsys .. => RoundTrip.stsys _ _ _
  | .shli .. => RoundTrip.shli _ _ _
  | .shri .. => RoundTrip.shri _ _ _
  | .srai .. => RoundTrip.srai _ _ _
  | .lui .. => RoundTrip.lui _ _
  | .loop .. => RoundTrip.loop _ _
  | .ebaseTarget .. => RoundTrip.ebaseTarget _ _
  | .waitc .. => RoundTrip.waitc _
  | .stampFrame .. => RoundTrip.stampFrame _
  | .stampSeg .. => RoundTrip.stampSeg _
  | .fmtset .. => RoundTrip.fmtset _ _ _
  | .fmtsetMx .. => RoundTrip.fmtsetMx _ _ _
  | .nestcfg .. => RoundTrip.nestcfg _ _ _
  | .nestcfgMx .. => RoundTrip.nestcfgMx _ _ _
  | .vbcast .. => RoundTrip.vbcast _ _
  | .vld .. => RoundTrip.vld _ _
  | .vst .. => RoundTrip.vst _ _
  | .vldx .. => RoundTrip.vldx _ _
  | .vstx .. => RoundTrip.vstx _ _
  | .vbfx .. => RoundTrip.vbfx _ _
  | .bfxcfg .. => RoundTrip.bfxcfg _ _
  | .vacc .. => RoundTrip.vacc _ _
  | .rank .. => RoundTrip.rank _ _
  | .rkval .. => RoundTrip.rkval _ _
  | .cpin .. => RoundTrip.cpin _ _
  | .cpslot .. => RoundTrip.cpslot _ _
  | .xfetch .. => RoundTrip.xfetch _ _
  | .acq .. => RoundTrip.acq _ _
  | .acqCw .. => RoundTrip.acqCw _ _
  | .rel .. => RoundTrip.rel _ _
  | .cpout .. => RoundTrip.cpout _ _
  | .cpoutFlush .. => RoundTrip.cpoutFlush _ _ _
  | .xpost .. => RoundTrip.xpost _ _
  | .coll .. => RoundTrip.coll _ _
  | .atomAdd .. => RoundTrip.atomAdd _ _
  | .atomAnd .. => RoundTrip.atomAnd _ _
  | .atomOr .. => RoundTrip.atomOr _ _
  | .atomXor .. => RoundTrip.atomXor _ _
  | .atomSwap .. => RoundTrip.atomSwap _ _
  | .atomCas .. => RoundTrip.atomCas _ _
  | .atomFadd .. => RoundTrip.atomFadd _ _
  | .atomMin .. => RoundTrip.atomMin _ _
  | .atomMax .. => RoundTrip.atomMax _ _
  | .vaor .. => RoundTrip.vaor _ _
  | .vaadd .. => RoundTrip.vaadd _ _
  | .vamax .. => RoundTrip.vamax _ _
  | .bind .. => RoundTrip.bind _ _ _ _
  | .unbind .. => RoundTrip.unbind _ _ _
  | .bstateEmpty .. => RoundTrip.bstateEmpty _ _
  | .bstateFull .. => RoundTrip.bstateFull _ _
  | .lrflush .. => RoundTrip.lrflush _ _ _
  | .lrflushFetch .. => RoundTrip.lrflushFetch _ _ _
  | .bindso .. => RoundTrip.bindso _ _ _ _ _
  | .bindsoRemove .. => RoundTrip.bindsoRemove _ _ _ _
  | .qfenceCico .. => RoundTrip.qfenceCico _ _ _
  | .send .. => RoundTrip.send _ _
  | .recv .. => RoundTrip.recv _ _
  | .sendk .. => RoundTrip.sendk _ _
  | .recvk .. => RoundTrip.recvk _ _
  | .mma .. => RoundTrip.mma _ _
  | .mmul .. => RoundTrip.mmul _ _
  | .mmas .. => RoundTrip.mmas _ _
  | .rkmac .. => RoundTrip.rkmac _ _
  | .oclaim .. => RoundTrip.oclaim _ _
  | .orelease .. => RoundTrip.orelease _ _
  | .oload .. => RoundTrip.oload _ _ _ _ _ _ _
  | .aclr .. => RoundTrip.aclr _ _
  | .amov .. => RoundTrip.amov _ _ _
  | .amovMerge .. => RoundTrip.amovMerge _ _ _
  | .amovAdd .. => RoundTrip.amovAdd _ _ _ _ _
  | .aout .. => RoundTrip.aout _ _ _ _ _ _ _
  | .astow .. => RoundTrip.astow _ _ _ _
  | .arestore .. => RoundTrip.arestore _ _ _ _
  | .nestgo .. => RoundTrip.nestgo _ _ _ _ _ _ _
  | .mxwait .. => RoundTrip.mxwait _
  | .rkloadAtt .. => RoundTrip.rkloadAtt _ _ _
  | .rkloadRct .. => RoundTrip.rkloadRct _ _ _
  | .orderRetire .. => RoundTrip.orderRetire _ _ _
  | .layoutRecordFetch .. => RoundTrip.layoutRecordFetch _ _ _
  | .fillComplete .. => RoundTrip.fillComplete _ _ _
  | .drainComplete .. => RoundTrip.drainComplete _ _ _
  | .landing .. => RoundTrip.landing _ _ _
  | .late .. => RoundTrip.late _
  | .bytesPerformed .. => RoundTrip.bytesPerformed _ _ _
  | .remoteTimeout .. => RoundTrip.remoteTimeout _ _ _
  | .transferArrival .. => RoundTrip.transferArrival _ _
  | .syeOperation .. => RoundTrip.syeOperation _ _ _
  | .relFenceRelease .. => RoundTrip.relFenceRelease _ _ _
  | .xpostArrival .. => RoundTrip.xpostArrival _
  | .hostRemoteAtomic .. => RoundTrip.hostRemoteAtomic _ _ _ _ _
  | .preemptStop .. => RoundTrip.preemptStop _ _
  | .maxpd .. => RoundTrip.maxpd _
  | .stowSave .. => RoundTrip.stowSave _
  | .stow .. => RoundTrip.stow _ _
  | .resume .. => RoundTrip.resume _ _ _ _
  | .thaw .. => RoundTrip.thaw _
  | .replay .. => RoundTrip.replay _
  | .freeze .. => RoundTrip.freeze _
  | .abort .. => RoundTrip.abort _ _
  | .segmentReplay .. => RoundTrip.segmentReplay _
  | .clockChange .. => RoundTrip.clockChange _
  | .margin .. => RoundTrip.margin _
  | .marginTileFail .. => RoundTrip.marginTileFail _
  | .healthBitClear .. => RoundTrip.healthBitClear _ _
  | .scrubPatrol .. => RoundTrip.scrubPatrol _ _ _
  | .evqRead .. => RoundTrip.evqRead _
  | .ccInterrupt .. => RoundTrip.ccInterrupt _
  | .translationWalk .. => RoundTrip.translationWalk _ _ _
  | .walkWatchdog .. => RoundTrip.walkWatchdog _
  | .shootdown .. => RoundTrip.shootdown _
  | .shootdownAck .. => RoundTrip.shootdownAck _
  | .potAssign .. => RoundTrip.potAssign _ _ _
  | .potRelease .. => RoundTrip.potRelease _ _ _
  | .potBounce .. => RoundTrip.potBounce _ _ _
  | .potUnbounce .. => RoundTrip.potUnbounce _ _ _
  | .pageScrubComplete .. => RoundTrip.pageScrubComplete _
  | .tileScrub .. => RoundTrip.tileScrub _
  | .keyGen .. => RoundTrip.keyGen _
  | .linkTagFail .. => RoundTrip.linkTagFail _ _
  | .getVersion .. => RoundTrip.getVersion _
  | .getCapabilities .. => RoundTrip.getCapabilities _
  | .negotiateAlgorithms .. => RoundTrip.negotiateAlgorithms _ _
  | .getDigests .. => RoundTrip.getDigests _
  | .getCertificate .. => RoundTrip.getCertificate _ _
  | .challenge .. => RoundTrip.challenge _ _
  | .getMeasurements .. => RoundTrip.getMeasurements _ _
  | .keyExchange .. => RoundTrip.keyExchange _ _
  | .finish .. => RoundTrip.finish _ _
  | .heartbeat .. => RoundTrip.heartbeat _
  | .keyUpdate .. => RoundTrip.keyUpdate _
  | .endSession .. => RoundTrip.endSession _
  | .chunkGet .. => RoundTrip.chunkGet _ _
  | .deposit .. => RoundTrip.deposit _ _ _
  | .bckey .. => RoundTrip.bckey _ _ _
  | .unsupportedRequest .. => RoundTrip.unsupportedRequest _ _
  | .bounceEnable .. => RoundTrip.bounceEnable _
  | .bounceFrameIn .. => RoundTrip.bounceFrameIn _
  | .bounceFrameOut .. => RoundTrip.bounceFrameOut _
  | .powerShed => RoundTrip.powerShed
  | .powerRestore => RoundTrip.powerRestore
  | .queueWrite .. => RoundTrip.queueWrite _ _ _
  | .vifqEnable .. => RoundTrip.vifqEnable _
  | .vifqDisable .. => RoundTrip.vifqDisable _
  | .launch .. => RoundTrip.launch _
  | .cancel .. => RoundTrip.cancel _
  | .release .. => RoundTrip.release _
  | .pad .. => RoundTrip.pad _
  | .placeInstance => RoundTrip.placeInstance
  | .snareaWrite .. => RoundTrip.snareaWrite _
  | .regionCut .. => RoundTrip.regionCut _
  | .bookmark .. => RoundTrip.bookmark _ _ _
  | .jobMessageArrival .. => RoundTrip.jobMessageArrival _
  | .cutReport .. => RoundTrip.cutReport _ _ _
  | .commit .. => RoundTrip.commit _ _
  | .snapshotAbort .. => RoundTrip.snapshotAbort _ _
  | .snapshotTimeout .. => RoundTrip.snapshotTimeout _ _
  | .pageCopy .. => RoundTrip.pageCopy _
  | .bufferCopy .. => RoundTrip.bufferCopy _ _ _
  | .rollbackMarker .. => RoundTrip.rollbackMarker _ _ _
  | .flitReceive .. => RoundTrip.flitReceive _ _
  | .collContribution .. => RoundTrip.collContribution _ _ _
  | .collAbandon .. => RoundTrip.collAbandon _
  | .ethFrameReceive .. => RoundTrip.ethFrameReceive _ _ _ _
  | .ethPortDown .. => RoundTrip.ethPortDown _
  | .timebasePulse => RoundTrip.timebasePulse
  | .coldReset => RoundTrip.coldReset
  | .warmReset => RoundTrip.warmReset
  | .hbmChannelTraining .. => RoundTrip.hbmChannelTraining _ _ _ _ _ _ _
  | .uecDataWrite .. => RoundTrip.uecDataWrite _ _ _
  | .fabricWindowAccess .. => RoundTrip.fabricWindowAccess _ _ _ _
  | .guestTableChange .. => RoundTrip.guestTableChange _ _ _
  | .keyzComplete .. => RoundTrip.keyzComplete _
  | .ethPortUp .. => RoundTrip.ethPortUp _
  | .configStoreUpdate .. => RoundTrip.configStoreUpdate _ _

/-- Settles O2: each constructor has its own round trip under Laws. -/
theorem encodeDecode : Obligations.EncodeDecode := roundTrip

end Sys2Proof.Proofs

namespace Sys2Proof.Laws

/-- An extension word is its prefix and its payload (R118). -/
theorem ext_word_eq {w : Code} (h : isExt w = true) : BitVec.ofNat 32 (0x3E * 2 ^ 26 + bits w.toNat 0 26) = w := by
  have hm : bits w.toNat 26 6 = 0x3E := beq_iff_eq.mp h
  have hw := w.isLt
  apply BitVec.eq_of_toNat_eq
  rw [BitVec.toNat_ofNat]
  simp only [bits] at hm ⊢
  omega

/-- What one word under its extension words decodes to is well formed, and is encoded by them. -/
theorem decodeWord_some {ps : List Nat} {w : Nat} {i : Instr} (h : decodeWord ps w = some i) :
    i.wf = true ∧ encodeN ps.length i = some (ps, w) := by
  unfold decodeWord at h
  split at h
  · split at h
    · next hc =>
      cases h
      simpa using hc
    · cases h
  · cases h

/-- What a decoded instruction carries of its extension words and its own word. -/
structure Decoded.Of (d : Decoded) (ps : List Nat) (k : Nat) (w : Code) : Prop where
  wf : d.instr.wf = true
  pays : d.pays = ps
  len : d.len = k + 1
  word : BitVec.ofNat 32 d.word = w
  encoded : encodeN ps.length d.instr = some (ps, d.word)

theorem decodeLast_ok {ps : List Nat} {k : Nat} {w : Code} {d : Decoded} (h : decodeLast ps k w = .ok d) : Decoded.Of d ps k w := by
  unfold decodeLast at h
  split at h
  · cases h
  · split at h
    · next i hi =>
      cases h
      obtain ⟨hwf, he⟩ := decodeWord_some hi
      exact ⟨hwf, rfl, rfl, by simp, he⟩
    · cases h

/-- The front words that `decode` takes, and what it makes of them. -/
theorem Decoded.Of.done {d : Decoded} {ps : List Nat} {w : Code} {ws : List Code} (h : Decoded.Of d ps ps.length w)
    (hw : ws.take (ps.length + 1) = ps.map (fun p => BitVec.ofNat 32 (0x3E * 2 ^ 26 + p)) ++ [w]) :
    d.instr.wf = true ∧ d.len = d.pays.length + 1 ∧ encodeN d.pays.length d.instr = some (d.pays, d.word) ∧
      ws.take d.len = words (d.pays, d.word) := by
  obtain ⟨hwf, rfl, hlen, rfl, he⟩ := h
  exact ⟨hwf, hlen, he, by rw [hlen, hw, words]⟩

end Sys2Proof.Laws

namespace Sys2Proof.Proofs
open Sys2Proof.Laws

/-- Settles O3: by the number of extension words at the front, which is 0, 1 or 2. -/
theorem decodeEncode : Obligations.DecodeEncode := by
  intro ws d h
  unfold decode at h
  split at h
  · cases h
  next w0 r0 =>
  split at h
  next h0 =>
    split at h
    · cases h
    next w1 r1 =>
    split at h
    next h1 =>
      split at h
      · cases h
      next w2 r2 =>
      split at h
      · cases h
      · exact (decodeLast_ok h).done (by rw [List.map_cons, List.map_cons, ext_word_eq h0, ext_word_eq h1]; rfl)
    · exact (decodeLast_ok h).done (by rw [List.map_cons, ext_word_eq h0]; rfl)
  · exact (decodeLast_ok h).done rfl

end Sys2Proof.Proofs
end

section
/-! PROOFS. Loads and stores of tile SRAM and of a core's data memory (R49, R154, R155, R295, R391): their checks, the bytes that they
read and write, and what they leave unchanged. -/

namespace Sys2Proof.Machine
open Sys2Proof.Claims

/-! ### Bytes (R3) -/

theorem leNat_lt (bs : List Byte) : leNat bs < 256 ^ bs.length := by
  induction bs with
  | nil => simp [leNat]
  | cons b r ih =>
    have := b.isLt
    rw [leNat, List.length_cons, Nat.pow_succ]
    omega

@[simp] theorem length_leBytes (n v : Nat) : (leBytes n v).length = n := by
  induction n generalizing v with
  | zero => rfl
  | succ n ih => rw [leBytes, List.length_cons, ih]

theorem leBytes_getElem (n v i : Nat) (h : i < (leBytes n v).length) : (leBytes n v)[i] = BitVec.ofNat 8 (v / 256 ^ i) := by
  induction n generalizing v i with
  | zero => simp [leBytes] at h
  | succ n ih =>
    cases i with
    | zero => simp [leBytes]
    | succ i =>
      simp only [leBytes, List.getElem_cons_succ]
      rw [ih, Nat.div_div_eq_div_mul, Nat.pow_succ']

theorem Store.getN_eq_map {α : Type} (d : α) (m : Store α) (k n : Nat) : Store.getN d m k n = (List.range n).map (fun i => Store.get d (k + i) m) := by
  induction n generalizing k with
  | zero => rfl
  | succ n ih =>
    rw [Store.getN, ih, List.range_succ_eq_map, List.map_cons, List.map_map]
    simp only [Nat.add_zero, Function.comp_def, Nat.succ_eq_add_one, Nat.add_assoc, Nat.add_comm 1]

/-- Every cell of a store after a write of consecutive values. -/
theorem Store.get_putL {α : Type} [DecidableEq α] (d : α) (vs : List α) (a k : Nat) (m : Store α) :
    Store.get d k (Store.putL d m a vs) = if h : a ≤ k ∧ k < a + vs.length then vs[k - a]'(by omega) else Store.get d k m := by
  by_cases h : a ≤ k ∧ k < a + vs.length
  · obtain ⟨i, rfl⟩ := Nat.exists_eq_add_of_le h.1
    rw [dif_pos h, Store.get_putL_in d vs a i m (by omega)]
    simp
  · rw [dif_neg h, Store.get_putL_other]
    omega

/-- A field with its sign is the integer of the bit vector that it stands for. -/
theorem sext_eq_toInt {n v : Nat} (h : v < 2 ^ n) (hn : 0 < n) : sext n v = (BitVec.ofNat n v).toInt := by
  obtain ⟨m, rfl⟩ := Nat.exists_eq_succ_of_ne_zero hn.ne'
  rw [BitVec.toInt_eq_toNat_cond, BitVec.toNat_ofNat, Nat.mod_eq_of_lt h, sext]
  simp only [Nat.succ_eq_add_one, Nat.add_sub_cancel, Nat.pow_succ] at h ⊢
  push_cast
  split <;> split <;> omega

/-- The sign extension of a load's bytes (R155). -/
theorem sext64_leNat (bs : List Byte) (h : 0 < bs.length) :
    sext64 bs.length (leNat bs) = (BitVec.ofNat (8 * bs.length) (leNat bs)).signExtend 64 := by
  have hlt : leNat bs < 2 ^ (8 * bs.length) := by
    rw [Nat.pow_mul]
    exact leNat_lt bs
  rw [sext64, sext_eq_toInt hlt (by omega)]
  rfl

/-! ### The checks of an access (R49, R295, R391) -/

/-- ReadBuf and WriteBuf fail as the statements' tables say. -/
theorem State.chkRead_eq (s : State) (e b off n : Nat) : s.chkRead e b off n = (readFault s e b off n).map (accessTrap · b off) := by
  simp only [State.chkRead, readFault, accessCheck, BufDecl.bytes, bufTrap, accessTrap, Bool.or_eq_true, Bool.not_eq_true', bne_iff_ne, beq_eq_decide,
    Bool.or_eq_false_iff, decide_eq_false_iff_not]
  split
  · rfl
  split
  · rfl
  by_cases h : (s.decl b).len * 4096 < off + n
  · simp [h]
  · simp only [h, false_or, if_false]
    split <;> rfl

theorem State.chkWrite_eq (s : State) (e b off n : Nat) : s.chkWrite e b off n = (writeFault s e b off n).map (accessTrap · b off) := by
  simp only [State.chkWrite, writeFault, accessCheck, BufDecl.bytes, bufTrap, accessTrap, Bool.or_eq_true, Bool.not_eq_true', bne_iff_ne, beq_eq_decide,
    Bool.or_eq_false_iff, decide_eq_false_iff_not]
  split
  · rfl
  split
  · rfl
  by_cases h : (s.decl b).len * 4096 < off + n
  · simp [h]
  · simp only [h, false_or, if_false]
    split <;> rfl

theorem State.chkHandlerRead_eq (s : State) (b off n : Nat) :
    s.chkHandlerRead b off n = (accessCheck true true (s.decl b) off n).map (accessTrap · b off) := by
  simp only [State.chkHandlerRead, accessCheck, BufDecl.bytes, bufTrap, accessTrap, Bool.not_eq_true', bne_iff_ne, Bool.true_eq_false, or_false]
  split
  · rfl
  split
  · rfl
  split <;> next h => simp [h]

theorem coreChk_eq (b off n : Nat) : coreChk b off n = (coreFault b off n).map (fun c => { cause := c }) := by
  simp only [coreChk, coreFault, coreMem, bne_iff_ne]
  split
  · rfl
  split
  · rfl
  split <;> next h => simp [h]

/-- An access in range meets the checks that stand in every mode. -/
theorem accessCheck_none {named inState : Bool} {d : BufDecl} {off n : Nat} (hv : d.valid = true) (hn : named = true) (ha : off % n = 0)
    (hl : off + n ≤ d.len * 4096) (hs : inState = true) : accessCheck named inState d off n = none := by
  simp [accessCheck, hv, hn, ha, hs, Nat.not_lt.2 hl]

theorem coreFault_none {b off n : Nat} (hb : b = 0) (ha : off % n = 0) (hl : off + n ≤ 65536) : coreFault b off n = none := by
  simp [coreFault, hb, ha, Nat.not_lt.2 hl]

theorem State.clocked_iff {s : State} : s.clocked = true ↔ s.atU = true ∧ s.inHandler = false := by simp [State.clocked]
theorem State.atU_of_inHandler {s : State} (h : s.inHandler = true) : s.atU = true := by
  simp only [State.inHandler, Bool.and_eq_true] at h
  exact h.1.1

end Sys2Proof.Machine

namespace Sys2Proof.Claims
open Sys2Proof.Machine

/-! ### Loads (R154, R155) -/

/-- What a load makes of the number that its bytes hold, by its row of Table 8.4. -/
def Access.ext (a : Access) : Nat → Word := if a.signed then sext64 a.n else zext64

/-- The rows of MAJ 0x09 and 0x0A are one word. -/
theorem exec_load {i : Instr} {a : Access} (h : loadOf i = some a) (s : State) :
    0 < a.n ∧ exec i s = s.loadWord a.rd a.rs a.buf a.n a.disp a.ext := by
  cases i with
  | ldb => cases h; exact ⟨Nat.succ_pos _, rfl⟩
  | ldh => cases h; exact ⟨Nat.succ_pos _, rfl⟩
  | ldw => cases h; exact ⟨Nat.succ_pos _, rfl⟩
  | ldd => cases h; exact ⟨Nat.succ_pos _, rfl⟩
  | ldbN => cases h; exact ⟨Nat.succ_pos _, rfl⟩
  | ldhN => cases h; exact ⟨Nat.succ_pos _, rfl⟩
  | ldwN => cases h; exact ⟨Nat.succ_pos _, rfl⟩
  | _ => nomatch h

/-- The bytes of an access, in the memory that its agent reaches. -/
def Access.bytes (a : Access) (s : State) : List Byte := (List.range a.n).map (fun k => localByte s (a.addr s + k))

section
variable {s : State} {a : Access}

theorem Access.value_eq (hn : 0 < a.n) : a.value s = a.ext (leNat (a.bytes s)) := by
  have hlen : (a.bytes s).length = a.n := by simp [Access.bytes]
  unfold Access.value Access.ext
  split
  · have h := sext64_leNat (a.bytes s) (by omega)
    rw [hlen] at h
    exact h.symm
  · rfl

theorem Access.loadBytes_ok (h : a.readable s) : s.loadBytes a.buf (a.off s) a.n = .ok (a.bytes s) := by
  obtain ⟨⟨halign, hplace⟩, hlocal⟩ := h
  unfold State.loadBytes
  cases hu : s.atU with
  | false =>
    rw [hu] at hplace
    rw [coreChk_eq, coreFault_none hplace.1 halign hplace.2]
    simp [Access.bytes, Store.getN_eq_map, Access.addr, localByte, hu]
  | true =>
    rw [hu] at hplace
    obtain ⟨hecc, hsets⟩ := hlocal hu
    have hbytes : s.bufBytes a.buf (a.off s) a.n = a.bytes s := by
      simp [State.bufBytes, Store.getN_eq_map, Access.bytes, Access.addr, localByte, hu, BufDecl.addr]
    cases hh : s.inHandler with
    | true =>
      rw [State.chkHandlerRead_eq, accessCheck_none hplace.1 rfl halign hplace.2 rfl, Tile.bad_of_clean hecc]
      simp [hbytes]
    | false =>
      obtain ⟨hnamed, hst⟩ := hsets hh
      rw [State.readBuf, State.chkRead_eq, readFault, accessCheck_none hplace.1 hnamed halign hplace.2 (by simpa using hst), Tile.bad_of_clean hecc]
      simp [hbytes]

/-- A load whose bytes come issues as one register write. -/
theorem Access.load_writes (hs : s.prompt) (hn : 0 < a.n) (h : a.readable s) :
    ∃ t, s.loadWord a.rd a.rs a.buf a.n a.disp a.ext = .next t ∧ WritesG s t a.rd 3 (a.value s) := by
  have hcorrect : (if s.atU then s.correct 3 ((s.decl a.buf).addr (a.off s)) a.n else s) = s := by
    cases hu : s.atU with
    | false => rfl
    | true => exact State.correct_of_clean (h.2 hu).1 _ _ _
  have hload : s.loadBytes a.buf (s.offset a.rs a.disp) a.n = .ok (a.bytes s) := Access.loadBytes_ok h
  have hbody : (match s.loadBytes a.buf (s.offset a.rs a.disp) a.n with
      | .error t => .error t
      | .ok bs => .ok ((if s.atU then s.correct 3 ((s.decl a.buf).addr (a.off s)) a.n else s).wrG a.rd (a.ext (leNat bs)), Flow.fall)) =
      (.ok (s.wrG a.rd (a.value s), .fall) : Except Trap (State × Flow)) := by
    rw [hload, hcorrect, Access.value_eq hn]
  exact ⟨_, congrArg Host.Outcome.next (State.scalarWord_prompt hs hbody),
    State.writesG_of { reads := [a.rs], dest := a.rd, lat := 3 } (a.value s) noCtl_pushes (fun _ hx => nomatch hx)⟩

/-- A load whose checks fail takes their trap. -/
theorem Access.load_trap (hs : s.prompt) {t : Trap} (h : s.loadBytes a.buf (a.off s) a.n = .error t) :
    s.loadWord a.rd a.rs a.buf a.n a.disp a.ext = .next (s.takeTrap t) := by
  have h' : s.loadBytes a.buf (s.offset a.rs a.disp) a.n = .error t := h
  refine congrArg Host.Outcome.next (State.scalarWord_prompt_error hs ?_)
  simp only [h']
end

end Sys2Proof.Claims

namespace Sys2Proof.Proofs
open Sys2Proof.Machine Sys2Proof.Claims

/-- Settles O8: a load reads the bytes of its agent's memory where its checks pass, which differ by the agent alone. -/
theorem loads : Obligations.Loads := by
  intro i a s hi hs
  obtain ⟨hn, he⟩ := exec_load hi s
  rw [he]
  refine ⟨fun h => Access.load_writes hs hn h, fun c hc hf => ?_, fun c hh hf => ?_, fun c hu hf => ?_⟩
  · obtain ⟨hu, hh⟩ := State.clocked_iff.mp hc
    refine Access.load_trap hs ?_
    simp [State.loadBytes, hu, hh, State.readBuf, State.chkRead_eq, hf]
  · refine Access.load_trap hs ?_
    simp [State.loadBytes, State.atU_of_inHandler hh, hh, State.chkHandlerRead_eq, hf]
  · refine Access.load_trap hs ?_
    simp [State.loadBytes, hu, coreChk_eq, hf]

end Sys2Proof.Proofs
end

section
/-! PROOFS. Stores of tile SRAM and of a core's data memory (R49, R51, R59, R155, R295, R316, R391). -/

namespace Sys2Proof.Machine
open Sys2Proof.Claims

/-! ### What each part of WriteBuf leaves -/

/-- Marking the granules of an access. -/
theorem Store.get_foldl_mark (q n g : Nat) (m : Store Bool) :
    Store.get false g ((List.range n).foldl (fun m i => Store.put false (q + i) true m) m) =
      (Store.get false g m || (decide (q ≤ g) && decide (g < q + n))) := by
  induction n with
  | zero => simp
  | succ n ih =>
    rw [List.range_succ, List.foldl_append, List.foldl_cons, List.foldl_nil, Store.get_put, ih]
    by_cases hg : g = q + n
    · simp [hg]
    · rw [if_neg hg]
      congr 2
      exact decide_eq_decide.mpr (by omega)

theorem Tile.markDirty_eq (t : Tile) (b addr n : Nat) : t.markDirty b addr n = { t with dirty := (t.markDirty b addr n).dirty } := by
  unfold Tile.markDirty
  split <;> rfl

theorem Tile.markDirty_dirty (t : Tile) (b addr n g : Nat) (hn : 0 < n) : Store.get false g (t.markDirty b addr n).dirty =
    (Store.get false g t.dirty || ((t.buf b).bound && decide (addr / 4096 ≤ g) && decide (g ≤ (addr + n - 1) / 4096))) := by
  have hne : (n != 0) = true := bne_iff_ne.mpr hn.ne'
  have hle : addr / 4096 ≤ (addr + n - 1) / 4096 := Nat.div_le_div_right (by omega)
  rw [Tile.markDirty, hne, Bool.and_true]
  cases (t.buf b).bound with
  | false => simp
  | true =>
    simp only [if_true, Store.get_foldl_mark, Bool.true_and]
    congr 2
    exact decide_eq_decide.mpr (by omega)

theorem Tile.holdC_eq (t : Tile) : t.holdC = { t with atC := if t.atC = none then some { sram := t.sram, dirty := t.dirty, ecc := t.ecc } else t.atC } := by
  unfold Tile.holdC
  by_cases h : t.atC = none
  · rw [if_pos h, if_neg (by simp [h])]
  · rw [if_neg h, if_pos (Option.isSome_iff_ne_none.mpr h)]

theorem Tile.fillBuf_eq (t : Tile) (b : Nat) : t.fillBuf b = { t with bufs := (t.fillBuf b).bufs } := by
  unfold Tile.fillBuf
  split <;> rfl

/-- A buffer that a store may write is FULL after it (Table 3.3). -/
theorem Tile.fillBuf_buf {t : Tile} {b : Nat} (h : (t.buf b).st = .empty ∨ (t.buf b).st = .full) (c : Nat) :
    (t.fillBuf b).buf c = if c = b then { t.buf c with st := .full } else t.buf c := by
  have hput (x : Buf) : (t.setBuf b x).buf c = if c = b then x else t.buf c := Store.get_put ({} : Buf) x b c t.bufs
  unfold Tile.fillBuf
  rcases h with h | h
  · rw [h, if_pos (by decide), hput]
    refine ite_congr rfl (fun hc => ?_) fun _ => rfl
    rw [hc]
  · rw [h, if_neg (by decide)]
    split
    · next hc => rw [hc, ← h]
    · rfl

/-- The tile that WriteBuf makes, before what it does to the buffer's state. -/
def Tile.stored (t : Tile) (handler : Bool) (b addr : Nat) (data : List Byte) : Tile :=
  ((if handler then t.holdC else t).wrSram addr data).markDirty b addr data.length

/-- A store leaves a tile but for its SRAM, its marks and what it keeps of the contents at c. -/
theorem Tile.stored_eq (t : Tile) (handler : Bool) (b addr : Nat) (data : List Byte) :
    t.stored handler b addr data = { t with
      sram := Store.putL 0 t.sram addr data, ecc := (t.stored handler b addr data).ecc, dirty := (t.stored handler b addr data).dirty,
      atC := if handler = true ∧ t.atC = none then some { sram := t.sram, dirty := t.dirty, ecc := t.ecc } else t.atC } := by
  rw [Tile.stored, Tile.markDirty_eq, Tile.wrSram]
  cases handler with
  | false => simp
  | true => simp [Tile.holdC_eq]

theorem Tile.stored_dirty (t : Tile) (handler : Bool) (b addr : Nat) (data : List Byte) (g : Nat) (hn : 0 < data.length) :
    Store.get false g (t.stored handler b addr data).dirty =
      (Store.get false g t.dirty || ((t.buf b).bound && decide (addr / 4096 ≤ g) && decide (g ≤ (addr + data.length - 1) / 4096))) := by
  rw [Tile.stored, Tile.markDirty_dirty _ _ _ _ _ hn]
  cases handler with
  | false => rfl
  | true =>
    rw [if_pos rfl, Tile.holdC_eq]
    rfl

theorem State.writeBuf_eq (s : State) (b off : Nat) (data : List Byte) : s.writeBuf b off data =
    s.setCtile (if s.inHandler then (s.ctile.stored true b ((s.decl b).addr off) data).fillBuf b
      else { s.ctile.stored false b ((s.decl b).addr off) data with effs := s.ctile.effs ++ [(s.now, .bufFull b)] }) := by
  rw [State.writeBuf]
  cases s.inHandler with
  | true => rfl
  | false =>
    simp only [Bool.false_eq_true, if_false]
    rw [show (((s.ctile.wrSram ((s.decl b).addr off) data).markDirty b ((s.decl b).addr off) data.length).effs) = s.ctile.effs by
      rw [Tile.markDirty_eq]; rfl]
    rfl

/-! ### A store as the effect of a word -/

/-- A change of the tile in hand beside its engines, its readiness and its handler flag, as an effect. -/
theorem Effect.setCtile {s : State} (hu : s.atU = true) {x : Tile} (he : x.engs = s.ctile.engs) (hb : x.sb = s.ctile.sb)
    (hf : x.hflag = s.ctile.hflag) : Effect s (s.setCtile x) :=
  ⟨.setCtile hu x, fun e => by rw [State.setCtile_ctile, Tile.eng, he, Tile.eng], by rw [State.setCtile_ctile, hb], by rw [State.setCtile_ctile, hf]⟩

theorem Tile.buf_congr {x y : Tile} (h : x.bufs = y.bufs) (b : Nat) : x.buf b = y.buf b := by rw [Tile.buf, h, Tile.buf]

/-- What does not depend on SQ's bookkeeping reads as the word's effect has left it. -/
theorem Tile.of_bare {x y : Tile} (h : x.bare = y.bare) {α : Type} (f : Tile → α) (hf : ∀ t : Tile, f t.bare = f t) : f x = f y := by
  rw [← hf, h, hf]
theorem CCore.dmem_of_bare {x y : CCore} (h : x.bare = y.bare) : x.dmem = y.dmem := (congrArg CCore.dmem h : x.bare.dmem = y.bare.dmem)

theorem Booked.atU {s u t : State} {n : Need} {f : Flow} (b : Booked s u t n f) : t.atU = s.atU := by
  have hcur : t.cur = s.cur := (congrArg State.cur b.own.rest : t.offAgents.cur = s.offAgents.cur)
  simp only [State.atU, hcur]

end Sys2Proof.Machine

namespace Sys2Proof.Claims
open Sys2Proof.Machine

/-- The rows of MAJ 0x0B are one word. -/
theorem exec_store {i : Instr} {a : Access} (h : storeOf i = some a) (s : State) :
    0 < a.n ∧ exec i s = s.storeWord a.rd a.rs a.buf a.n a.disp := by
  cases i with
  | stb => cases h; exact ⟨Nat.succ_pos _, rfl⟩
  | sth => cases h; exact ⟨Nat.succ_pos _, rfl⟩
  | stw => cases h; exact ⟨Nat.succ_pos _, rfl⟩
  | std => cases h; exact ⟨Nat.succ_pos _, rfl⟩
  | _ => nomatch h

/-- The bytes that a store writes. -/
def Access.data (a : Access) (s : State) : List Byte := leBytes a.n (s.rdG a.rd).toNat

/-- The state that the body of a store makes. -/
def Access.after (a : Access) (s : State) : State :=
  if s.atU then s.writeBuf a.buf (a.off s) (a.data s)
  else s.setCcore { s.ccore with dmem := Store.putL 0 s.ccore.dmem (a.off s) (a.data s) }

section
variable {s : State} {a : Access}

@[simp] theorem Access.length_data (a : Access) (s : State) : (a.data s).length = a.n := length_leBytes _ _

theorem Access.addr_eq (hu : s.atU = true) : (s.decl a.buf).addr (a.off s) = a.addr s := by
  rw [Access.addr, hu]
  rfl

theorem Access.after_core (hu : s.atU = false) :
    a.after s = s.setCcore { s.ccore with dmem := Store.putL 0 s.ccore.dmem (a.off s) (a.data s) } := by
  rw [Access.after, hu]
  rfl
theorem Access.after_handler (hh : s.inHandler = true) :
    a.after s = s.setCtile ((s.ctile.stored true a.buf (a.addr s) (a.data s)).fillBuf a.buf) := by
  have hu := State.atU_of_inHandler hh
  rw [Access.after, hu, if_pos rfl, State.writeBuf_eq, hh, if_pos rfl, Access.addr_eq hu]
theorem Access.after_clocked (hc : s.clocked = true) : a.after s = s.setCtile
    { s.ctile.stored false a.buf (a.addr s) (a.data s) with effs := s.ctile.effs ++ [(s.now, .bufFull a.buf)] } := by
  obtain ⟨hu, hh⟩ := State.clocked_iff.mp hc
  rw [Access.after, hu, if_pos rfl, State.writeBuf_eq, hh, Access.addr_eq hu]
  rfl

/-- The tile after a store at U: the store's own part, and what becomes of the buffer. -/
theorem Access.after_tile (hu : s.atU = true) : ∃ bufs effs, a.after s = s.setCtile
    { s.ctile.stored s.inHandler a.buf (a.addr s) (a.data s) with bufs := bufs, effs := effs } := by
  cases hh : s.inHandler with
  | true =>
    rw [Access.after_handler hh, Tile.fillBuf_eq]
    exact ⟨_, _, rfl⟩
  | false =>
    rw [Access.after_clocked (State.clocked_iff.mpr ⟨hu, hh⟩)]
    exact ⟨_, _, rfl⟩

theorem Access.effect (a : Access) (s : State) : Effect s (a.after s) := by
  cases hu : s.atU with
  | false =>
    rw [Access.after_core hu]
    exact Effect.setCcore hu _
  | true =>
    obtain ⟨bufs, effs, h⟩ := Access.after_tile (a := a) hu
    rw [h, Tile.stored_eq]
    exact Effect.setCtile hu rfl rfl rfl

theorem Access.after_rdG (a : Access) (s : State) (k : Nat) : (a.after s).rdG k = s.rdG k := by
  rw [State.rdG, (a.effect s).atU, State.rdG]
  cases hu : s.atU with
  | false =>
    rw [Access.after_core hu, State.setCcore_ccore _ _ hu]
    rfl
  | true =>
    obtain ⟨bufs, effs, h⟩ := Access.after_tile (a := a) hu
    rw [h, Tile.stored_eq, State.setCtile_ctile]
    rfl

theorem Access.after_loopsOf (a : Access) (s : State) : (a.after s).loopsOf = s.loopsOf := by
  rw [State.loopsOf, (a.effect s).atU, State.loopsOf]
  cases hu : s.atU with
  | false =>
    rw [Access.after_core hu, State.setCcore_ccore _ _ hu]
    rfl
  | true =>
    obtain ⟨bufs, effs, h⟩ := Access.after_tile (a := a) hu
    rw [h, Tile.stored_eq, State.setCtile_ctile]
    rfl

/-- A byte of the access takes its byte of the register, and every other byte stands. -/
theorem Access.data_byte (m : Store Byte) (k : Nat) : Store.get 0 k (Store.putL 0 m (a.addr s) (a.data s)) =
    if a.addr s ≤ k ∧ k < a.addr s + a.n then BitVec.ofNat 8 ((s.rdG a.rd).toNat / 256 ^ (k - a.addr s)) else Store.get 0 k m := by
  rw [Store.get_putL]
  by_cases h : a.addr s ≤ k ∧ k < a.addr s + a.n
  · rw [dif_pos (by simpa using h), if_pos h]
    exact leBytes_getElem _ _ _ _
  · rw [dif_neg (by simpa using h), if_neg h]

theorem Access.after_byte (a : Access) (s : State) (k : Nat) : localByte (a.after s) k =
    if a.addr s ≤ k ∧ k < a.addr s + a.n then BitVec.ofNat 8 ((s.rdG a.rd).toNat / 256 ^ (k - a.addr s)) else localByte s k := by
  rw [localByte, (a.effect s).atU, localByte]
  cases hu : s.atU with
  | false =>
    have haddr : a.off s = a.addr s := by simp [Access.addr, hu]
    rw [Access.after_core hu, State.setCcore_ccore _ _ hu, haddr]
    exact Access.data_byte _ _
  | true =>
    obtain ⟨bufs, effs, h⟩ := Access.after_tile (a := a) hu
    rw [h, Tile.stored_eq, State.setCtile_ctile]
    exact Access.data_byte _ _

/-- The checks of a store pass. -/
theorem Access.store_goes (hs : s.prompt) (h : a.writable s) : s.storeWord a.rd a.rs a.buf a.n a.disp =
    .next ((a.after s).commitScalar { reads := [a.rs, a.rd] } .fall) := by
  obtain ⟨⟨halign, hplace⟩, hlocal⟩ := h
  have hoff : s.offset a.rs a.disp = a.off s := rfl
  refine congrArg Host.Outcome.next (State.scalarWord_prompt hs ?_)
  simp only [hoff]
  cases hu : s.atU with
  | false =>
    rw [hu] at hplace
    rw [coreChk_eq, coreFault_none hplace.1 halign hplace.2, Access.after_core hu]
    rfl
  | true =>
    rw [hu] at hplace
    obtain ⟨hnamed, hst⟩ := hlocal hu
    rw [State.chkWrite_eq, writeFault, accessCheck_none hplace.1 hnamed halign hplace.2 (by simpa using hst), Access.after, hu]
    rfl

/-- The checks of a store fail. -/
theorem Access.store_trap (hs : s.prompt) {t : Trap}
    (h : (if s.atU then s.chkWrite 0 a.buf (a.off s) a.n else coreChk a.buf (a.off s) a.n) = some t) :
    s.storeWord a.rd a.rs a.buf a.n a.disp = .next (s.takeTrap t) := by
  have hoff : s.offset a.rs a.disp = a.off s := rfl
  refine congrArg Host.Outcome.next (State.scalarWord_prompt_error hs ?_)
  simp only [hoff]
  cases hu : s.atU with
  | false =>
    rw [hu] at h
    rw [if_neg Bool.false_ne_true, show coreChk a.buf (a.off s) a.n = some t from h]
  | true =>
    rw [hu] at h
    rw [if_pos rfl, show s.chkWrite 0 a.buf (a.off s) a.n = some t from h]
end

end Sys2Proof.Claims

namespace Sys2Proof.Proofs
open Sys2Proof.Machine Sys2Proof.Claims

/-- What a store leaves in its tile, outside a handler and in one. -/
theorem store_tile {s t : State} {a : Access} (hn : 0 < a.n) (hw : a.writable s) (hu : s.atU = true) (ht : t.ctile.bare = (a.after s).ctile.bare) :
    { t.ctile.bare with sram := s.ctile.sram, ecc := s.ctile.ecc, dirty := s.ctile.dirty, effs := s.ctile.effs, bufs := s.ctile.bufs,
                        atC := s.ctile.atC } = s.ctile.bare ∧
    t.ctile.atC = (if s.inHandler = true ∧ s.ctile.atC = none
      then some { sram := s.ctile.sram, dirty := s.ctile.dirty, ecc := s.ctile.ecc } else s.ctile.atC) ∧
    (s.inHandler = false → t.ctile.bufs = s.ctile.bufs ∧ t.ctile.effs = s.ctile.effs ++ [(s.now, .bufFull a.buf)] ∧
      (t.ctile.applyEff s.decl (.bufFull a.buf)).buf a.buf = { s.ctile.buf a.buf with st := .full }) ∧
    (s.inHandler = true → t.ctile.effs = s.ctile.effs ∧
      ∀ b, t.ctile.buf b = if b = a.buf then { s.ctile.buf b with st := .full } else s.ctile.buf b) ∧
    ∀ g, Store.get false g t.ctile.dirty = (Store.get false g s.ctile.dirty ||
      ((s.ctile.buf a.buf).bound && decide (a.addr s / 4096 ≤ g) && decide (g ≤ (a.addr s + a.n - 1) / 4096))) := by
  have hst := (hw.2 hu).2
  have hdirty (g : Nat) := Tile.stored_dirty s.ctile s.inHandler a.buf (a.addr s) (a.data s) g (by simpa using hn)
  rw [Access.length_data] at hdirty
  have hatC := Tile.of_bare ht Tile.atC fun _ => rfl
  have hbufs := Tile.of_bare ht Tile.bufs fun _ => rfl
  have heffs := Tile.of_bare ht Tile.effs fun _ => rfl
  have hdirt := Tile.of_bare ht Tile.dirty fun _ => rfl
  have hbuf := Tile.buf_congr hbufs
  obtain ⟨bufs, effs, h⟩ := Access.after_tile (a := a) hu
  refine ⟨?_, ?_, fun hh => ?_, fun hh => ?_, fun g => ?_⟩
  · rw [ht, h, Tile.stored_eq, State.setCtile_ctile]
    rfl
  · rw [hatC, h, State.setCtile_ctile, Tile.stored_eq]
  · rw [Access.after_clocked (State.clocked_iff.mpr ⟨hu, hh⟩), State.setCtile_ctile, Tile.stored_eq] at hbufs heffs
    refine ⟨hbufs, heffs, ?_⟩
    have hb : t.ctile.buf a.buf = s.ctile.buf a.buf := Tile.buf_congr hbufs _
    have hfull := Tile.fillBuf_buf (t := t.ctile) (b := a.buf) (by rwa [hb]) a.buf
    rw [if_pos rfl, hb] at hfull
    exact hfull
  · rw [Access.after_handler hh, State.setCtile_ctile] at heffs hbuf
    rw [Tile.fillBuf_eq, Tile.stored_eq] at heffs
    refine ⟨heffs, fun b => ?_⟩
    have hb (c : Nat) : (s.ctile.stored true a.buf (a.addr s) (a.data s)).buf c = s.ctile.buf c := by
      rw [Tile.stored_eq]
      rfl
    rw [hbuf, Tile.fillBuf_buf (by rwa [hb]), hb]
  · rw [hdirt, h, State.setCtile_ctile]
    exact hdirty g

/-- Settles O9: a store is its bytes, its marks and its buffer's state, beside the bookkeeping of a scalar word. -/
theorem stores : Obligations.Stores := by
  intro i a s hi hs
  obtain ⟨hn, he⟩ := exec_store hi s
  rw [he]
  refine ⟨fun hw => ?_, fun c hu hf => ?_, fun c hu hf => ?_⟩
  · have b := (a.effect s).book { reads := [a.rs, a.rd] } .fall noCtl_pushes
    refine ⟨_, Access.store_goes hs hw, b.own, b.engines, b.fallsThrough (a.after_loopsOf s), fun k => ?_, fun k => ?_,
      fun hu => store_tile hn hw hu (b.tile hu), fun hu => ?_⟩
    · rw [b.g, Access.after_rdG]
    · rw [← Access.after_byte, localByte, b.atU, localByte, (a.effect s).atU]
      cases hu : s.atU with
      | false => exact congrArg (Store.get 0 k) (CCore.dmem_of_bare (b.core hu))
      | true => exact congrArg (Store.get 0 k) (Tile.of_bare (b.tile hu) Tile.sram fun _ => rfl)
    · rw [b.core hu, Access.after_core hu, State.setCcore_ccore _ _ hu]
      rfl
  · exact Access.store_trap hs (by rw [hu, if_pos rfl, State.chkWrite_eq, hf]; rfl)
  · exact Access.store_trap hs (by rw [hu, if_neg Bool.false_ne_true, coreChk_eq, hf]; rfl)

end Sys2Proof.Proofs
end

section
/-! PROOFS. LOOP, the words of engine control and the waits of SQ (R145, R158 to R163, R166 to R173): what a word of SQ does whose checks
pass and whose wait is met, and what becomes of one whose wait is not. -/

namespace Sys2Proof.Machine
open Sys2Proof.Claims

/-! ### A word of SQ whose needs are met, and one whose wait is not (R31 to R33) -/

/-- A word's needs beside registers, units and issue time: its class admits it, its wait is met, and it moves no token. -/
structure Need.Goes (n : Need) : Prop where
  pre : n.pre = none
  free : n.free = true
  met : n.met = true
  pops : n.ctl.pops = false
  pushes : n.ctl.pushes = false

section
variable {s u : State} {n : Need} {body : State → Except Trap (State × Flow)} {f : Flow} (hs : s.prompt) (hn : n.Goes)
include hs hn

theorem Need.Goes.gate : s.scalarGate n = .go := State.scalarGate_go n hs hn.free hn.met hn.pops

theorem State.scalarWord_goes (hb : body s = .ok (u, f)) : s.scalarWord n body = u.commitScalar n f :=
  State.scalarWord_go (r := (u, f)) hn.pre (hn.gate hs) (by rw [State.popFor_none _ _ _ hn.pops, hb])

theorem State.scalarWord_traps {t : Trap} (hb : body s = .error t) : s.scalarWord n body = s.takeTrap t :=
  State.scalarWord_error hn.pre (hn.gate hs) (by rw [State.popFor_none _ _ _ hn.pops, hb])

/-- A word at U whose effect leaves engines, readiness and loop stack. -/
theorem State.tileWord_becomes (hu : s.atU = true) (he : Effect s u) (hb : body s = .ok (u, .fall)) (hl : u.loopsOf = s.loopsOf) :
    TileBecomes s (s.scalarWord n body) u.ctile := by
  have b := he.book n .fall hn.pushes
  rw [State.scalarWord_goes hs hn hb]
  exact ⟨b.own, b.tile hu, b.engines, b.fallsThrough hl⟩

/-- A word that turns the tile in hand into `x`. -/
theorem State.tileWord_sets {x : Tile} (hu : s.atU = true) (hb : body s = .ok (s.setCtile x, .fall)) (he : x.engs = s.ctile.engs)
    (hsb : x.sb = s.ctile.sb) (hf : x.hflag = s.ctile.hflag) (hl : x.loops = s.ctile.loops) : TileBecomes s (s.scalarWord n body) x := by
  have h := State.tileWord_becomes hs hn hu (Effect.setCtile hu he hsb hf) hb (by simp [State.loopsOf, hu, hl])
  rwa [State.setCtile_ctile] at h

/-- A word that only waits, or has nothing to do. -/
theorem State.tileWord_idles (hu : s.atU = true) (hb : body s = .ok (s, .fall)) : Idles s (s.scalarWord n body) :=
  State.tileWord_becomes hs hn hu (.refl s) hb rfl
end

/-- A word of SQ outside a handler passes the check of its class (R113). -/
theorem State.sqOnly_clocked {s : State} (h : s.clocked = true) : s.sqOnly = none := if_pos h

theorem Tile.timed_of_opened {t : Tile} (h : t.seg.opened = true) : t.timed = !t.seg.elastic := by rw [Tile.timed, h, Bool.true_and]

section
variable {s : State} {n : Need} {body : State → Except Trap (State × Flow)} (hc : s.clocked = true) (hs : s.prompt) (ho : s.ctile.seg.opened = true)
  (hf : n.free = true) (hp : n.ctl.pops = false) (hm : n.met = false)
include hc hs ho hf hp hm

/-- A wait that is not met holds its word in an elastic segment, and is an overrun of condition 3 in a timed one (R32). -/
theorem State.scalarGate_unmet : s.scalarGate n = if s.ctile.seg.elastic then .stall else .trap (overrun 3 s.now) := by
  obtain ⟨hu, hh⟩ := State.clocked_iff.mp hc
  obtain ⟨hstamp, hnext, hready⟩ := hs.clocked hc
  have hrd : n.ready s.ctile s.now = true := by simp [Need.ready, hready]
  have huf : n.unitFree s.ctile s.now = true := by
    simp only [Need.unitFree, hf, Bool.true_and]
    split <;> simp [hready]
  have htok : tokenOk n.ctl s.ctile 0 = true := by simp [tokenOk, hp]
  simp only [State.scalarGate, hu, hh, Need.gate, hstamp, hrd, huf, htok, hm, Tile.timed_of_opened ho, Nat.not_lt.mpr hnext]
  cases s.ctile.seg.elastic <;> rfl

theorem State.scalarWord_unmet (hpre : n.pre = none) : s.scalarWord n body = if s.ctile.seg.elastic then s else s.takeTrap (overrun 3 s.now) := by
  rw [State.scalarWord, hpre, State.scalarGate_unmet hc hs ho hf hp hm]
  cases s.ctile.seg.elastic <;> rfl

theorem State.next_scalarWord_unmet (hpre : n.pre = none) :
    (.next (s.scalarWord n body) : Host.Outcome State Fault Refusal) = if s.ctile.seg.elastic then .next s else .next (s.takeTrap (overrun 3 s.now)) := by
  rw [State.scalarWord_unmet hc hs ho hf hp hm hpre]
  split <;> rfl

theorem State.scalarGate_unmet_ne_go : (s.scalarGate n == .go) = false := by
  rw [State.scalarGate_unmet hc hs ho hf hp hm]
  cases s.ctile.seg.elastic <;> rfl
end

/-! ### LOOP (R158, R159) -/

theorem State.setLoops_eq_setCtile {s : State} (hu : s.atU = true) (l : List LoopE) : s.setLoops l = s.setCtile { s.ctile with loops := l } := by
  rw [State.setLoops, hu]
  rfl
theorem State.setLoops_eq_setCcore {s : State} (hu : s.atU = false) (l : List LoopE) : s.setLoops l = s.setCcore { s.ccore with loops := l } := by
  rw [State.setLoops, hu]
  rfl

theorem Effect.setLoops (s : State) (l : List LoopE) : Effect s (s.setLoops l) := by
  cases hu : s.atU with
  | true =>
    rw [State.setLoops_eq_setCtile hu]
    exact Effect.setCtile hu rfl rfl rfl
  | false =>
    rw [State.setLoops_eq_setCcore hu]
    exact Effect.setCcore hu _

theorem State.setLoops_loopsOf (s : State) (l : List LoopE) : (s.setLoops l).loopsOf = l := by
  rw [State.loopsOf, (Effect.setLoops s l).atU]
  cases hu : s.atU with
  | true => rw [State.setLoops_eq_setCtile hu, State.setCtile_ctile]; rfl
  | false => rw [State.setLoops_eq_setCcore hu, State.setCcore_ccore _ _ hu]; rfl

theorem State.setLoops_rdG (s : State) (l : List LoopE) (k : Nat) : (s.setLoops l).rdG k = s.rdG k := by
  rw [State.rdG, (Effect.setLoops s l).atU, State.rdG]
  cases hu : s.atU with
  | true => rw [State.setLoops_eq_setCtile hu, State.setCtile_ctile]; rfl
  | false => rw [State.setLoops_eq_setCcore hu, State.setCcore_ccore _ _ hu]; rfl

/-- A word whose effect is a new loop stack changes nothing else but its bookkeeping. -/
theorem Booked.onlyG_setLoops {s t : State} {l : List LoopE} {n : Need} {f : Flow} (b : Booked s (s.setLoops l) t n f) : OnlyG s t where
  own := b.own
  tile hu := by rw [b.tile hu, State.setLoops_eq_setCtile hu, State.setCtile_ctile]; rfl
  core hu := by rw [b.core hu, State.setLoops_eq_setCcore hu, State.setCcore_ccore _ _ hu]; rfl
  engines := b.engines

theorem State.noHandler_none {s : State} (h : s.inHandler = false) : s.noHandler = none := by rw [State.noHandler, h]; rfl

/-- The checks of LOOP: room in the stack, and a body within the innermost one. -/
def loopFits (last : Nat) (l : List LoopE) : Prop := l.length < 4 ∧ ∀ x, l.head? = some x → last ≤ x.last

theorem loop_check {last : Nat} {l : List LoopE} : (4 ≤ l.length || (match l with
    | [] => false
    | x :: _ => decide (x.last < last))) = true ↔ ¬ loopFits last l := by
  rw [Bool.or_eq_true, decide_eq_true_eq, loopFits, not_and_or, not_lt]
  cases l with
  | nil => simp
  | cons x r => simp

/-- The loop stack and the next step after a word that may transfer control (R159). -/
theorem Booked.loops_pc {s u t : State} {n : Need} {f : Flow} (b : Booked s u t n f) (hh : s.inHandler = false) :
    (t.loopsOf, t.pcOf) = f.next s.seqFirst s.cur.step s.cur.nextStep false u.loopsOf := by
  have hp := b.pc
  have hl := b.loops
  rw [hh] at hp hl
  rw [hp, hl]
  rfl

section
variable {s : State} (hs : s.prompt) (hh : s.inHandler = false) {rs dist : Nat}
include hs hh

theorem execLoop_ill (h : ¬ loopFits (s.cur.step + dist) s.loopsOf) : execLoop rs dist s = .next (s.takeTrap ill) := by
  refine congrArg Host.Outcome.next (State.scalarWord_traps hs ⟨State.noHandler_none hh, rfl, rfl, noCtl_pops, noCtl_pushes⟩ ?_)
  exact if_pos (loop_check.mpr h)

theorem execLoop_skip (h : loopFits (s.cur.step + dist) s.loopsOf) (h0 : s.rdG rs = 0) :
    execLoop rs dist s = .next (s.commitScalar { pre := s.noHandler, reads := [rs] } (.skip (s.cur.step + dist))) := by
  refine congrArg Host.Outcome.next (State.scalarWord_goes hs ⟨State.noHandler_none hh, rfl, rfl, noCtl_pops, noCtl_pushes⟩ ?_)
  exact (if_neg (mt loop_check.mp (not_not.mpr h))).trans (if_pos h0)

theorem execLoop_push (h : loopFits (s.cur.step + dist) s.loopsOf) (h0 : s.rdG rs ≠ 0) : execLoop rs dist s =
    .next ((s.setLoops ({ start := s.cur.nextStep, last := s.cur.step + dist, count := s.rdG rs } :: s.loopsOf)).commitScalar
      { pre := s.noHandler, reads := [rs] } .fall) := by
  refine congrArg Host.Outcome.next (State.scalarWord_goes hs ⟨State.noHandler_none hh, rfl, rfl, noCtl_pops, noCtl_pushes⟩ ?_)
  exact (if_neg (mt loop_check.mp (not_not.mpr h))).trans (if_neg h0)

theorem exec_loop (h : loopFits (s.cur.step + dist) s.loopsOf) : ∃ t, execLoop rs dist s = .next t ∧ OnlyG s t ∧ sameG s t ∧
    (s.rdG rs = 0 → (t.loopsOf, t.pcOf) = loopEnd (s.cur.step + dist) (s.cur.step + dist + 1) s.loopsOf ∧
      (s.clocked = true → (t.ctile.eng 0).next = s.now + 2)) ∧
    (s.rdG rs ≠ 0 → (t.loopsOf, t.pcOf) = seqEnd s.seqFirst s.cur.step s.cur.nextStep
      ({ start := s.cur.nextStep, last := s.cur.step + dist, count := s.rdG rs } :: s.loopsOf)) := by
  by_cases h0 : s.rdG rs = 0
  · have b := (Effect.refl s).book { pre := s.noHandler, reads := [rs] } (.skip (s.cur.step + dist)) noCtl_pushes
    exact ⟨_, execLoop_skip hs hh h h0, b.onlyG_same, b.g, fun _ => ⟨b.loops_pc hh, b.next⟩, fun hne => absurd h0 hne⟩
  · have b := (Effect.setLoops s ({ start := s.cur.nextStep, last := s.cur.step + dist, count := s.rdG rs } :: s.loopsOf)).book
      { pre := s.noHandler, reads := [rs] } .fall noCtl_pushes
    refine ⟨_, execLoop_push hs hh h h0, b.onlyG_setLoops, fun k => (b.g k).trans (State.setLoops_rdG ..), fun he => absurd he h0, fun _ => ?_⟩
    rw [b.loops_pc hh, State.setLoops_loopsOf]
    rfl
end

/-- A count of one is the last turn of a loop. -/
theorem loop_count_sub_one {c : Word} : c - 1 = 0 ↔ c = 1 := sub_eq_zero

/-- The end test at a step, by the innermost loop's last step and count (R159). -/
theorem loopEnd_cons (step next : Nat) (l : LoopE) (r : List LoopE) :
    (l.last ≠ step → loopEnd step next (l :: r) = (l :: r, next)) ∧
    (l.last = step → l.count ≠ 1 → loopEnd step next (l :: r) = ({ l with count := l.count - 1 } :: r, l.start)) ∧
    (l.last = step → l.count = 1 → loopEnd step next (l :: r) = loopEnd step next r) := by
  refine ⟨fun h => ?_, fun h hc => ?_, fun h hc => ?_⟩ <;> rw [loopEnd]
  · rw [if_neg h]
  · rw [if_pos h, if_neg (mt loop_count_sub_one.mp hc)]
  · rw [if_pos h, if_pos (loop_count_sub_one.mpr hc)]

theorem seqEnd_cons (first own next : Nat) (l : LoopE) (r : List LoopE) :
    (first ≤ l.last → l.last ≤ own → seqEnd first own next (l :: r) = loopEnd l.last next (l :: r)) ∧
    (l.last < first ∨ own < l.last → seqEnd first own next (l :: r) = (l :: r, next)) := by
  refine ⟨fun h1 h2 => if_pos ⟨h1, h2⟩, fun h => if_neg ?_⟩
  omega

/-! ### Engine control (R13, R160 to R163) -/

theorem State.engPre_none {s : State} (hc : s.clocked = true) {e : Nat} (he : hasEngine s e) : s.engPre e = none := by
  rw [State.engPre, State.sqOnly_clocked hc]
  by_cases h4 : e = 4
  · simp [he h4]
  · simp [h4]

theorem Tile.applyEff_engRun (t : Tile) (decl : Nat → BufDecl) (e : Nat) (cont : Bool) (count issue : Nat) :
    (t.applyEff decl (.engRun e cont count issue)).eng e =
      { t.eng e with st := .running, step := if cont then (t.eng e).pc else (t.eng e).base, run := count, tprev := issue, next := 0, stamp := none } :=
  Tile.setEng_eng_same _ _ _
theorem Tile.applyEff_engBase (t : Tile) (decl : Nat → BufDecl) (e b : Nat) :
    (t.applyEff decl (.engBase e b)).eng e = { t.eng e with base := b } := Tile.setEng_eng_same _ _ _
theorem Tile.applyEff_engDrain {t : Tile} {e : Nat} (h : (t.eng e).st = .running) (decl : Nat → BufDecl) :
    (t.applyEff decl (.engDrain e)).eng e = { t.eng e with st := .draining, step := (t.eng e).pc, stamp := none } := by
  rw [Tile.applyEff, h, if_pos (by decide)]
  exact Tile.setEng_eng_same _ _ _

/-- The tile in hand with one more change listed for the end of the cycle. -/
def State.listed (s : State) (f : Eff) : Tile := { s.ctile with effs := s.ctile.effs ++ [(s.now, f)] }

section
variable {s : State} (hc : s.clocked = true) (hs : s.prompt)
include hc hs

/-- A word of SQ that lists a change for the end of the cycle. -/
theorem State.atEnd_becomes {n : Need} {body : State → Except Trap (State × Flow)} {f : Eff} (hn : n.Goes) (hb : body s = .ok (s.atEnd f, .fall)) :
    TileBecomes s (s.scalarWord n body) (s.listed f) :=
  State.tileWord_sets hs hn (State.clocked_iff.mp hc).1 hb rfl rfl rfl rfl

variable {e : Nat} (he : hasEngine s e)
include he

theorem execEstart_stopped (rs cont : Nat) (h : (s.ctile.eng e).st = .stopped) : ∃ t, execEstart e rs cont s = .next t ∧
    TileBecomes s t (s.listed (.engRun e (cont == 1) ((s.rdG rs).toNat % 2 ^ 32) s.now)) := by
  refine ⟨_, rfl, State.atEnd_becomes hc hs ⟨State.engPre_none hc he, rfl, rfl, noCtl_pops, noCtl_pushes⟩ ?_⟩
  rw [h, if_pos (by decide), bits, Nat.pow_zero, Nat.div_one]

theorem execEstart_ill (rs cont : Nat) (h : (s.ctile.eng e).st ≠ .stopped) : execEstart e rs cont s = .next (s.takeTrap ill) :=
  congrArg Host.Outcome.next (State.scalarWord_traps hs ⟨State.engPre_none hc he, rfl, rfl, noCtl_pops, noCtl_pushes⟩
    (if_neg (by simpa using h)))

theorem execEstop_running (h : (s.ctile.eng e).st = .running) : ∃ t, execEstop e s = .next t ∧ TileBecomes s t (s.listed (.engDrain e)) := by
  refine ⟨_, rfl, State.atEnd_becomes hc hs ⟨State.engPre_none hc he, rfl, rfl, noCtl_pops, noCtl_pushes⟩ ?_⟩
  rw [h, if_pos (by decide)]

theorem execEstop_idle (h : (s.ctile.eng e).st ≠ .running) : ∃ t, execEstop e s = .next t ∧ Idles s t := by
  refine ⟨_, rfl, State.tileWord_idles hs ⟨State.engPre_none hc he, rfl, rfl, noCtl_pops, noCtl_pushes⟩ (State.clocked_iff.mp hc).1 ?_⟩
  rw [if_neg (by simpa using h)]

theorem execEbase_stopped (rs : Nat) (h : (s.ctile.eng e).st = .stopped) (hr : (s.rdG rs).toNat < 65536) :
    ∃ t, execEbase e rs s = .next t ∧ TileBecomes s t (s.listed (.engBase e (s.rdG rs).toNat)) := by
  refine ⟨_, rfl, State.atEnd_becomes hc hs ⟨State.engPre_none hc he, rfl, rfl, noCtl_pops, noCtl_pushes⟩ (if_pos ?_)⟩
  rw [h]
  simpa using hr

theorem execEbase_ill (rs : Nat) (h : (s.ctile.eng e).st ≠ .stopped ∨ 65536 ≤ (s.rdG rs).toNat) : execEbase e rs s = .next (s.takeTrap ill) := by
  refine congrArg Host.Outcome.next (State.scalarWord_traps hs ⟨State.engPre_none hc he, rfl, rfl, noCtl_pops, noCtl_pushes⟩ (if_neg ?_))
  rcases h with h | h
  · simp [h]
  · simp [h.not_gt]

theorem execEbaseTarget_stopped (target : Nat) (h : (s.ctile.eng e).st = .stopped) :
    ∃ t, execEbaseTarget e target s = .next t ∧ TileBecomes s t (s.listed (.engBase e target)) := by
  refine ⟨_, rfl, State.atEnd_becomes hc hs ⟨State.engPre_none hc he, rfl, rfl, noCtl_pops, noCtl_pushes⟩ ?_⟩
  rw [h, if_pos (by decide)]

theorem execEbaseTarget_ill (target : Nat) (h : (s.ctile.eng e).st ≠ .stopped) : execEbaseTarget e target s = .next (s.takeTrap ill) :=
  congrArg Host.Outcome.next (State.scalarWord_traps hs ⟨State.engPre_none hc he, rfl, rfl, noCtl_pops, noCtl_pushes⟩
    (if_neg (by simpa using h)))

theorem execEwait_stopped (h : (s.ctile.eng e).st = .stopped) : ∃ t, execEwait e s = .next t ∧ Idles s t :=
  ⟨_, rfl, State.tileWord_idles hs ⟨State.engPre_none hc he, rfl, by simp [h], noCtl_pops, noCtl_pushes⟩ (State.clocked_iff.mp hc).1 rfl⟩
end

end Sys2Proof.Machine

namespace Sys2Proof.Proofs
open Sys2Proof.Machine Sys2Proof.Claims

/-- Settles O11: LOOP by its checks and its count, the end test by the innermost loop. -/
theorem loop : Obligations.Loop := by
  refine ⟨fun rs dist s hs hh hlen hlast => exec_loop hs hh ⟨hlen, hlast⟩, fun rs dist s hs hh h => execLoop_ill hs hh fun hf => ?_,
    loopEnd_cons, seqEnd_cons⟩
  rcases h with h | ⟨l, hl, hlt⟩
  · exact absurd hf.1 h.not_gt
  · exact absurd (hf.2 l hl) hlt.not_ge

/-- Settles O12: each word lists its change, and the change is what the engine table then holds. -/
theorem engineControl : Obligations.EngineControl := by
  intro e rs cont target s hc hs he
  refine ⟨fun h => ?_, ?_, fun h hr => ?_, fun h => ?_, fun h => ⟨execEstart_ill hc hs he rs cont h, execEbaseTarget_ill hc hs he target h⟩,
    execEbase_ill hc hs he rs, execEwait_stopped hc hs he⟩
  · obtain ⟨t, ht, hb⟩ := execEstart_stopped hc hs he rs cont h
    refine ⟨t, ht, hb, ?_⟩
    rw [engAfter, Tile.applyEff_engRun]
    exact ⟨rfl, rfl, rfl, by by_cases h1 : cont = 1 <;> simp [h1]⟩
  · by_cases hrun : (s.ctile.eng e).st = .running
    · obtain ⟨t, ht, hb⟩ := execEstop_running hc hs he hrun
      refine ⟨t, ht, fun _ => ⟨hb, ?_⟩, fun hne => absurd hrun hne⟩
      rw [engAfter, Tile.applyEff_engDrain hrun]
    · obtain ⟨t, ht, hi⟩ := execEstop_idle hc hs he hrun
      exact ⟨t, ht, fun h => absurd h hrun, fun _ => hi⟩
  · obtain ⟨t, ht, hb⟩ := execEbase_stopped hc hs he rs h hr
    exact ⟨t, ht, hb, by rw [engAfter, Tile.applyEff_engBase]⟩
  · obtain ⟨t, ht, hb⟩ := execEbaseTarget_stopped hc hs he target h
    exact ⟨t, ht, hb, by rw [engAfter, Tile.applyEff_engBase]⟩

end Sys2Proof.Proofs
end

section
/-! PROOFS. The waits of SQ, segments, the end of a region, fences, shadow tiles, the colophon and STAMP (R14, R27, R30, R34 to R36, R41,
R163 to R173). -/

namespace Sys2Proof.Machine
open Sys2Proof.Claims

/-! ### Waits (R163, R168, R170 to R173) -/

theorem phaseOf_eq (w : Word) : phaseOf w = w.getMsbD 0 := by
  rw [phaseOf, bits_one, BitVec.testBit_toNat, BitVec.getMsbD_eq_getLsbD]
  cases h : w.getLsbD 63 <;> simp

theorem State.rdSw_clocked {s : State} (hc : s.clocked = true) (n : Nat) : s.rdSw n = Store.get 0 n s.ctile.sw := by
  rw [State.rdSw, (State.clocked_iff.mp hc).1, if_pos rfl]

/-- BAR.tile waits for the orders in flight, and does nothing else (R170). -/
theorem execBar_tile {s : State} (hc : s.clocked = true) (sw : Nat) :
    execBar 1 sw s = .next (s.scalarWord { met := s.ctile.flights.isEmpty } (fun a => .ok (a, .fall))) := by
  rw [execBar, State.sqOnly_clocked hc]
  rfl

/-- WAITC's cycle count since the frame origin (R168). -/
def State.sinceFrame (s : State) : Nat := (s.now + 2 ^ 48 - s.ctile.frmorg % 2 ^ 48) % 2 ^ 48

section
variable {s : State} (hc : s.clocked = true) (hs : s.prompt)
include hc hs

theorem execBar_tile_met (sw : Nat) (h : s.ctile.flights = []) : ∃ t, execBar 1 sw s = .next t ∧ Idles s t := by
  have hmet : s.ctile.flights.isEmpty = true := by rw [h]; rfl
  exact ⟨_, execBar_tile hc sw, State.tileWord_idles hs ⟨rfl, rfl, hmet, noCtl_pops, noCtl_pushes⟩ (State.clocked_iff.mp hc).1 rfl⟩

theorem execWaitc_met {n : Nat} (h : n ≤ s.sinceFrame) : ∃ t, execWaitc n s = .next t ∧ Idles s t :=
  ⟨_, rfl, State.tileWord_idles hs ⟨State.sqOnly_clocked hc, rfl, decide_eq_true h, noCtl_pops, noCtl_pushes⟩ (State.clocked_iff.mp hc).1 rfl⟩

theorem execWaitcw_met {sw p : Nat} (h : (Store.get 0 sw s.ctile.sw).getMsbD 0 = (p == 1)) : ∃ t, execWaitcw sw p s = .next t ∧ Idles s t := by
  have hmet : (phaseOf (s.rdSw sw) == (p == 1)) = true := by rw [State.rdSw_clocked hc, phaseOf_eq, h, beq_self_eq_true]
  exact ⟨_, rfl, State.tileWord_idles hs ⟨State.sqOnly_clocked hc, rfl, hmet, noCtl_pops, noCtl_pushes⟩ (State.clocked_iff.mp hc).1 rfl⟩

theorem execQfence_met (scope : Nat) {emask : Nat} (hq : s.ctile.quietOf emask = true) (hp : s.ctile.performed emask = true) :
    ∃ t, execQfence scope emask s = .next t ∧ TileBecomes s t { s.ctile with fence := Store.put 0 0 0 s.ctile.fence } := by
  refine ⟨_, ?_, State.tileWord_sets hs (n := { pre := s.sqOnly, met := s.ctile.quietOf emask && s.ctile.performed emask })
    (body := fun a => .ok (a.setCtile (a.ctile.setFence 0 0), .fall)) ⟨State.sqOnly_clocked hc, rfl, by rw [hq, hp]; rfl, noCtl_pops, noCtl_pushes⟩
    (State.clocked_iff.mp hc).1 rfl rfl rfl rfl rfl⟩
  rw [execQfence, hq, hp]
  simp

variable (ho : s.ctile.seg.opened = true)
include ho

/-- A wait of SQ that is not met (R32): what the segment's mode makes of it. -/
def State.waits (s : State) : Host.Outcome State Fault Refusal := if s.ctile.seg.elastic then .next s else .next (s.takeTrap (overrun 3 s.now))

theorem execEwait_waits {e : Nat} (he : hasEngine s e) (h : (s.ctile.eng e).st ≠ .stopped) : execEwait e s = s.waits :=
  State.next_scalarWord_unmet hc hs ho rfl noCtl_pops (by simpa using h) (State.engPre_none hc he)

theorem execWaitc_waits {n : Nat} (h : s.sinceFrame < n) : execWaitc n s = s.waits :=
  State.next_scalarWord_unmet hc hs ho rfl noCtl_pops (decide_eq_false h.not_ge) (State.sqOnly_clocked hc)

theorem execWaitcw_waits {sw p : Nat} (h : (Store.get 0 sw s.ctile.sw).getMsbD 0 ≠ (p == 1)) : execWaitcw sw p s = s.waits :=
  State.next_scalarWord_unmet hc hs ho rfl noCtl_pops (by simpa [State.rdSw_clocked hc, phaseOf_eq] using h) (State.sqOnly_clocked hc)

theorem execBar_tile_waits (sw : Nat) (h : s.ctile.flights ≠ []) : execBar 1 sw s = s.waits := by
  have hmet : s.ctile.flights.isEmpty = false := List.isEmpty_eq_false_iff.mpr h
  rw [execBar_tile hc]
  exact State.next_scalarWord_unmet hc hs ho rfl noCtl_pops hmet rfl

theorem execSeg_waits (h : Nat) (hf : s.ctile.flights ≠ []) : execSeg h s = s.waits := by
  have hm : s.ctile.flights.isEmpty = false := by simpa using hf
  rw [execSeg, State.scalarGate_unmet_ne_go hc hs ho rfl noCtl_pops hm, Bool.and_false, Bool.false_and, if_neg Bool.false_ne_true]
  exact State.next_scalarWord_unmet hc hs ho rfl noCtl_pops hm (State.sqOnly_clocked hc)

theorem execRend_waits (h : ∃ e, 1 ≤ e ∧ e ≤ 5 ∧ (s.ctile.eng e).st ≠ .stopped) : execRend s = s.waits := by
  have hm : [1, 2, 3, 4, 5].all (fun e => (s.ctile.eng e).st == .stopped) = false := by
    obtain ⟨e, h1, h5, he⟩ := h
    rw [List.all_eq_false]
    exact ⟨e, by simp; omega, by simpa using he⟩
  rw [execRend, State.scalarGate_unmet_ne_go hc hs ho rfl noCtl_pops hm, Bool.and_false, Bool.false_and, if_neg Bool.false_ne_true]
  exact State.next_scalarWord_unmet hc hs ho rfl noCtl_pops hm (State.sqOnly_clocked hc)

theorem shadowWord_waits (next : ShSt) {h : Nat} (hf : ∃ f, f ∈ s.ctile.flights ∧ bits f.accW h 1 = 1) : s.shadowWord h next = s.waits := by
  refine State.next_scalarWord_unmet hc hs ho rfl noCtl_pops ?_ (State.sqOnly_clocked hc)
  obtain ⟨f, hf, hb⟩ := hf
  exact List.all_eq_false.mpr ⟨f, hf, by simp [hb]⟩

theorem execQfence_waits (scope : Nat) {emask : Nat} (h : s.ctile.quietOf emask = false ∨ s.ctile.performed emask = false) :
    execQfence scope emask s = if s.ctile.seg.elastic then .next (s.setCtile { s.ctile with fence := Store.put 0 0 emask s.ctile.fence })
      else .next (s.takeTrap (overrun 3 s.now)) := by
  have hm : (s.ctile.quietOf emask && s.ctile.performed emask) = false := by
    rcases h with h | h <;> simp [h]
  have hgo : s.scalarGate {} = .go := State.scalarGate_go _ hs rfl rfl noCtl_pops
  rw [execQfence, hm, hgo, State.sqOnly_clocked hc, Tile.timed_of_opened ho, State.scalarWord_unmet hc hs ho rfl noCtl_pops rfl rfl]
  cases s.ctile.seg.elastic <;> rfl
end

/-! ### Segments (R34 to R36, R166) -/

theorem Tile.clearColophon_engs (t : Tile) (n : Nat) :
    let x := (List.range n).foldl (fun x e => x.setEng e { x.eng e with wcount := 0, crc := 0xFFFFFFFF }) t
    x = { t with engs := x.engs } ∧ ∀ e, x.eng e = if e < n then { t.eng e with wcount := 0, crc := 0xFFFFFFFF } else t.eng e := by
  induction n with
  | zero => exact ⟨rfl, fun e => rfl⟩
  | succ n ih =>
    obtain ⟨hrest, heng⟩ := ih
    rw [List.range_succ, List.foldl_append, List.foldl_cons, List.foldl_nil]
    refine ⟨by rw [hrest]; rfl, fun e => ?_⟩
    by_cases he : e = n
    · rw [he, Tile.setEng_eng_same, heng, if_neg (lt_irrefl n), if_pos (Nat.lt_succ_self n)]
    · rw [Tile.setEng_eng_other _ he, heng]
      exact if_congr (by omega) rfl rfl

theorem Tile.clearColophon_eq (t : Tile) : ∃ es, t.clearColophon = { t with engs := es } := ⟨_, (t.clearColophon_engs 6).1⟩
theorem Tile.clearColophon_eng (t : Tile) {e : Nat} (h : e < 6) : t.clearColophon.eng e = { t.eng e with wcount := 0, crc := 0xFFFFFFFF } :=
  ((t.clearColophon_engs 6).2 e).trans (if_pos h)

/-- The tile that SEG makes, before its bookkeeping. -/
def Tile.opens (t : Tile) (h now : Nat) : Tile :=
  { t with
    engs := t.clearColophon.engs, seg := t.segOf h, segcyc := now, quiet := true, lastPre := if t.hdrPre h then now else t.lastPre, effs := t.effs ++ [(now, .segEntry)] }

theorem State.openSeg_eq (s : State) (h : Nat) : s.openSeg h = s.setCtile (s.ctile.opens h s.now) := by
  obtain ⟨es, hes⟩ := s.ctile.clearColophon_eq
  rw [State.openSeg, Tile.opens, hes]
  rfl

theorem Tile.opens_bare (t : Tile) (h now : Nat) : (t.opens h now).bare = ({ t with
    seg := t.segOf h, segcyc := now, quiet := true, lastPre := if t.hdrPre h then now else t.lastPre,
    effs := t.effs ++ [(now, .segEntry)] } : Tile).bare := by
  simp only [Tile.opens, Tile.bare]

@[simp] theorem Tile.opens_hflag (t : Tile) (h now : Nat) : (t.opens h now).hflag = t.hflag := by simp only [Tile.opens]
@[simp] theorem Tile.opens_loops (t : Tile) (h now : Nat) : (t.opens h now).loops = t.loops := by simp only [Tile.opens]
theorem Tile.opens_eng (t : Tile) (h now : Nat) {e : Nat} (he : e < 6) :
    (t.opens h now).eng e = { t.eng e with wcount := 0, crc := 0xFFFFFFFF } := by
  rw [← Tile.clearColophon_eng t he]
  simp only [Tile.opens, Tile.eng]

/-- A word of SQ whose effect changes its tile's engines too, but not the handler flag. -/
theorem State.commitScalar_setCtile {s : State} (hc : s.clocked = true) {x : Tile} (hf : x.hflag = s.ctile.hflag) (n : Need) (f : Flow) :
    (s.setCtile x).commitScalar n f = (s.setCtile x).setCtile (x.commitSq n f s.cur s.now) := by
  have hcl : (s.setCtile x).clocked = true := by
    have hh : (s.setCtile x).inHandler = s.inHandler := by simp [State.inHandler, hf]
    rw [State.clocked, hh]
    exact hc
  rw [State.commitScalar_clocked n f hcl, State.setCtile_ctile, State.setCtile_cur, State.setCtile_now]

theorem OwnAgent.setCtile_twice {s : State} (hu : s.atU = true) (x y : Tile) : OwnAgent s ((s.setCtile x).setCtile y) where
  rest := by simp only [State.offAgents, State.setCtile, State.setTile]
  tiles p hp := by
    have h : p ≠ s.here := by simpa [hu] using hp
    exact (State.setCtile_tile_other (s.setCtile x) y (by rwa [State.setCtile_here])).trans (State.setCtile_tile_other s x h)
  cores _ _ := by simp only [State.core, State.setCtile_cores]
  walkers _ _ := by simp only [State.walker, State.setCtile_walkers]

section
variable {s : State} (hc : s.clocked = true) (hs : s.prompt) {h : Nat}

/-- The colophon of the open segment at its end (R36). -/
theorem State.colophon_late (ho : s.ctile.seg.opened = true)
    (hl : s.ctile.seg.elastic = false ∧ (s.now - s.ctile.segcyc) % 2 ^ 48 ≠ s.ctile.seg.cycles) : s.colophon = some { cause := .sdc, opd1 := 0 } := by
  rw [State.colophon, ho]
  simp only [hl.1, Bool.not_true, Bool.not_false, Bool.true_and, Bool.false_eq_true, if_false, bne_iff_ne, ne_eq, hl.2, not_false_eq_true, if_true]
theorem State.colophon_signature (ho : s.ctile.seg.opened = true)
    (hl : ¬ (s.ctile.seg.elastic = false ∧ (s.now - s.ctile.segcyc) % 2 ^ 48 ≠ s.ctile.seg.cycles)) (hsig : s.ctile.signature ≠ s.ctile.seg.sig) :
    s.colophon = some { cause := .sdc, opd1 := 1 + s.ctile.signature.toNat * 2 ^ 32 } := by
  have hcount : (!s.ctile.seg.elastic && (s.now - s.ctile.segcyc) % 2 ^ 48 != s.ctile.seg.cycles) = false := by simpa using hl
  rw [State.colophon, ho, hcount]
  simp [hsig]

include hc hs

variable (hf : s.ctile.flights = []) (hstop : s.stopAsked h = false)
include hf hstop

theorem execSeg_traps {t : Trap} (hk : s.segCheck h = some t) : execSeg h s = .next (s.takeTrap t) := by
  rw [execSeg, hstop, Bool.and_false, if_neg Bool.false_ne_true]
  refine congrArg Host.Outcome.next (State.scalarWord_traps hs ⟨State.sqOnly_clocked hc, rfl, by simp [hf], noCtl_pops, noCtl_pushes⟩ ?_)
  simp only [hk]

theorem execSeg_opens (hecc : s.ctile.ecc = []) (hk : s.segCheck h = none) : ∃ n : Need, n.ctl = noCtl ∧
    execSeg h s = .next ((s.setCtile (s.ctile.opens h s.now)).setCtile ((s.ctile.opens h s.now).commitSq n .fall s.cur s.now)) := by
  refine ⟨{ pre := s.sqOnly, met := s.ctile.flights.isEmpty }, rfl, ?_⟩
  rw [execSeg, hstop, Bool.and_false, if_neg Bool.false_ne_true, ← State.commitScalar_setCtile hc (Tile.opens_hflag ..), ← State.openSeg_eq]
  refine congrArg Host.Outcome.next (State.scalarWord_goes hs ⟨State.sqOnly_clocked hc, rfl, by simp [hf], noCtl_pops, noCtl_pushes⟩ ?_)
  simp only [hk, State.correct_of_clean hecc]
end

/-- SEG's checks after the colophon, in the order of R166. -/
theorem State.segCheck_after {s : State} {h : Nat} (hcol : s.colophon = none) : s.segCheck h =
    if s.ctile.shadowPending then some { cause := .shadow }
    else if s.ctile.bad 4 (128 * h) 128 then some (poisonTrap 4)
    else if !s.ctile.hdrOk h then some ill
    else (setsBad s.decl (!(s.ctile.hdr h 0).testBit 0) (s.ctile.hdrRset h) (s.ctile.hdrWset h)).map (fun b => { cause := .sets, opd1 := b }) := by
  have hmode : (bits (s.ctile.hdr h 0) 0 1 == 0) = !(s.ctile.hdr h 0).testBit 0 := by
    rw [bits_one]
    cases (s.ctile.hdr h 0).testBit 0 <;> rfl
  rw [State.segCheck, hcol]
  simp only [hmode]
  split
  · rfl
  split
  · rfl
  split
  · rfl
  split <;> next hb => rw [hb]; rfl

theorem Tile.shadowPending_iff {t : Tile} : t.shadowPending = true ↔ t.sh0.st = .pending ∨ t.sh1.st = .pending := by
  simp [Tile.shadowPending]

/-! ### The end of a region (R14, R27, R36, R41, R329) -/

section
variable {s : State} (hc : s.clocked = true) (hs : s.prompt) (he : ∀ e, 1 ≤ e → e ≤ 5 → (s.ctile.eng e).st = .stopped)
include hc he

theorem rend_goes : Need.Goes { pre := s.sqOnly, met := [1, 2, 3, 4, 5].all (fun e => (s.ctile.eng e).st == .stopped) } := by
  refine ⟨State.sqOnly_clocked hc, rfl, ?_, noCtl_pops, noCtl_pushes⟩
  simp only [List.all_cons, List.all_nil, Bool.and_true, he 1 (by omega) (by omega), he 2 (by omega) (by omega), he 3 (by omega) (by omega),
    he 4 (by omega) (by omega), he 5 (by omega) (by omega), beq_self_eq_true]

include hs

theorem execRend_cut (hcut : s.region.cutReq = true) : execRend s = .next (s.setCtile s.ctile.stop) := by
  have hgo := (rend_goes hc he).gate hs
  rw [execRend, hgo, State.sqOnly_clocked hc, hcut]
  rfl

variable (hcut : s.region.cutReq = false)
include hcut

theorem execRend_traps {t : Trap} (hk : (match s.colophon with
    | some t => some t
    | none => if s.ctile.shadowPending then some { cause := .shadow } else s.ctile.leftToken.map (fun i => { cause := .token, opd1 := i })) = some t) :
    execRend s = .next (s.takeTrap t) := by
  rw [execRend, hcut, Bool.and_false, if_neg Bool.false_ne_true]
  refine congrArg Host.Outcome.next (State.scalarWord_traps hs (rend_goes hc he) ?_)
  cases hcol : s.colophon with
  | some x =>
    rw [hcol] at hk
    cases hk
    rfl
  | none =>
    simp only [hcol] at hk ⊢
    split at hk
    · next hp =>
      cases hk
      rw [if_pos hp]
    · next hp =>
      rw [if_neg hp]
      cases hl : s.ctile.leftToken with
      | none => simp [hl] at hk
      | some i =>
        rw [hl] at hk
        cases hk
        rfl

theorem execRend_ends (hcol : s.colophon = none) (hsh : s.ctile.shadowPending = false) (htok : s.ctile.leftToken = none) :
    ∃ n : Need, n.ctl = noCtl ∧ execRend s = .next ((s.atEnd .rended).commitScalar n .stop) := by
  refine ⟨{ pre := s.sqOnly, met := [1, 2, 3, 4, 5].all (fun e => (s.ctile.eng e).st == .stopped) }, rfl, ?_⟩
  rw [execRend, hcut, Bool.and_false, if_neg Bool.false_ne_true]
  refine congrArg Host.Outcome.next (State.scalarWord_goes hs (rend_goes hc he) ?_)
  simp only [hcol, hsh, htok]
  rfl
end

/-! ### Shadow tiles and the signature view (R30, R167, R173) -/

section
variable {s : State} (hc : s.clocked = true) (hs : s.prompt) {h : Nat} (hq : s.ctile.accQuiet h = true) (next : ShSt)
include hc hq

theorem shadowWord_goes : Need.Goes { pre := s.sqOnly, met := s.ctile.accQuiet h } :=
  ⟨State.sqOnly_clocked hc, rfl, hq, noCtl_pops, noCtl_pushes⟩

include hs

theorem shadowWord_pending (hst : (s.ctile.shadow h).st = .pending) : ∃ t, s.shadowWord h next = .next t ∧ TileBecomes s t
    (s.listed (.shadow h { st := next, partner := if next == .empty then 0 else (s.ctile.shadow h).partner })) := by
  refine ⟨_, rfl, State.atEnd_becomes hc hs (shadowWord_goes hc hq) ?_⟩
  simp only [hst]

theorem shadowWord_empty (hst : (s.ctile.shadow h).st = .empty) : ∃ t, s.shadowWord h next = .next t ∧ Idles s t := by
  refine ⟨_, rfl, State.tileWord_idles hs (shadowWord_goes hc hq) (State.clocked_iff.mp hc).1 ?_⟩
  simp only [hst]

theorem shadowWord_committed (hst : (s.ctile.shadow h).st = .committed) : s.shadowWord h next = .next (s.takeTrap { cause := .shadow }) := by
  refine congrArg Host.Outcome.next (State.scalarWord_traps hs (shadowWord_goes hc hq) ?_)
  simp only [hst]
end

/-- The signature view is the word count above the CRC state. -/
theorem signatureView_eq (crc : BitVec 32) (n : Nat) : BitVec.ofNat 64 (crc.toNat + n % 2 ^ 32 * 2 ^ 32) = BitVec.ofNat 32 n ++ crc := by
  apply BitVec.eq_of_toNat_eq
  have := crc.isLt
  rw [BitVec.toNat_append, BitVec.toNat_ofNat, BitVec.toNat_ofNat, Nat.shiftLeft_eq, Nat.mul_comm (n % 2 ^ 32), ← Nat.two_pow_add_eq_or_of_lt this,
    Nat.add_comm, Nat.mod_eq_of_lt (by omega)]

theorem execColo_writes {s : State} (hc : s.clocked = true) (hs : s.prompt) (rd e : Nat) : ∃ t, execColo rd e s = .next t ∧
    WritesG s t rd 2 (BitVec.ofNat 32 (s.ctile.eng e).wcount ++ (s.ctile.eng e).crc) := by
  refine ⟨_, congrArg Host.Outcome.next (State.scalarWord_goes hs ⟨State.sqOnly_clocked hc, rfl, rfl, noCtl_pops, noCtl_pushes⟩ rfl), ?_⟩
  rw [signatureView_eq]
  exact State.writesG_of { pre := s.sqOnly, dest := rd, lat := 2 } _ noCtl_pushes (fun _ hx => nomatch hx)

theorem State.stampWord_waits {s : State} (hc : s.clocked = true) (h : s.ceng.stamp = none) (isSeg : Bool) (n : Nat) :
    ∃ t, s.stampWord isSeg n = .next t ∧ OwnAgent s t ∧ t.ctile = s.ctile.setEng s.cur.eng { s.ceng with
      step := s.cur.nextStep, stamp := some { seg := isSeg, time := n, raw := s.cur.word, step := s.cur.step } } := by
  obtain ⟨hu, hh⟩ := State.clocked_iff.mp hc
  refine ⟨_, ?_, OwnAgent.setCtile hu _, State.setCtile_ctile _ _⟩
  rw [State.stampWord, hu, hh, h]
  rfl

theorem State.stampWord_ill {s : State} (h : s.ceng.stamp ≠ none) (isSeg : Bool) (n : Nat) : s.stampWord isSeg n = .next (s.takeTrap ill) := by
  rw [State.stampWord, Option.isSome_iff_ne_none.mpr h, Bool.or_true, if_pos rfl]

end Sys2Proof.Machine

namespace Sys2Proof.Proofs
open Sys2Proof.Machine Sys2Proof.Claims

/-- Settles O13: a wait that is met is an idle word, and one that is not met is held or overruns by the segment's mode. -/
theorem waits : Obligations.Waits := by
  intro s hc hs
  refine ⟨fun e he => execEwait_stopped hc hs he, fun sw => execBar_tile_met hc hs sw, fun n => execWaitc_met hc hs,
    fun sw p _ => execWaitcw_met hc hs, fun i ho hi => ?_, fun scope emask ho => execQfence_waits hc hs ho scope⟩
  rcases hi with ⟨e, rfl, he, hst⟩ | ⟨n, rfl, hn⟩ | ⟨sw, p, rfl, -, hp⟩ | ⟨sw, rfl, hf⟩ | ⟨h, rfl, hf⟩ | ⟨rfl, he⟩ | ⟨h, rfl | rfl, hf⟩
  · exact execEwait_waits hc hs ho he hst
  · exact execWaitc_waits hc hs ho hn
  · exact execWaitcw_waits hc hs ho hp
  · exact execBar_tile_waits hc hs ho sw hf
  · exact execSeg_waits hc hs ho h hf
  · exact execRend_waits hc hs ho he
  · exact shadowWord_waits hc hs ho .committed hf
  · exact shadowWord_waits hc hs ho .empty hf

/-- Settles O15: the checks of SEG in order, and the tile that its effect and its bookkeeping make. -/
theorem openSegment : Obligations.OpenSegment := by
  intro h s hc hs hf hstop
  obtain ⟨hu, hh⟩ := State.clocked_iff.mp hc
  refine ⟨fun hecc hk => ?_, fun ho => ⟨fun hl => ?_, fun hl hsig => ?_⟩, fun hcol => ⟨fun hsh => ?_, fun hsh hbad => ?_, fun hecc hsh hok => ?_,
    fun b hecc hsh hok hsets => ?_⟩⟩
  · obtain ⟨n, hn, hexec⟩ := execSeg_opens hc hs hf hstop hecc hk
    have hpush : n.ctl.pushes = false := by rw [hn]; exact noCtl_pushes
    have heng {e : Nat} (he : e < 6) := Tile.opens_eng s.ctile h s.now he
    have hstamp : ((s.ctile.opens h s.now).eng 0).stamp = none := by rw [heng (by omega)]; exact (hs.clocked hc).1
    refine ⟨_, hexec, OwnAgent.setCtile_twice hu _ _, ?_, ?_, fun e h1 h5 => ?_, ?_, ?_⟩
    · have hfirst : (s.ctile.opens h s.now).seqFirst s.cur = s.seqFirst := by
        rw [State.seqFirst, hc, if_pos rfl, Tile.seqFirst, hstamp, Tile.seqFirst, (hs.clocked hc).1]
      simp only [fallsThrough, State.loopsOf, State.pcOf, State.setCtile_atU, State.setCtile_ctile, hu, hh, if_true, Bool.false_eq_true, if_false,
        Tile.commitSq_loops _ _ _ _ _ hpush, Tile.commitSq_own _ _ _ _ _ hpush, Tile.opens_loops, hfirst, Flow.next]
    · rw [State.setCtile_ctile, Tile.commitSq_bare _ _ _ _ _ hpush, Tile.opens_bare]
    · rw [State.setCtile_ctile, Tile.commitSq_other _ _ _ _ _ hpush (by omega), heng (by omega)]
    · rw [State.setCtile_ctile, Tile.commitSq_own _ _ _ _ _ hpush, Eng.feed_of_no_stamp hstamp, heng (by omega)]
      exact Nat.zero_add _
    · rw [State.setCtile_ctile, Tile.commitSq_own _ _ _ _ _ hpush, Eng.feed_of_no_stamp hstamp, heng (by omega)]
  · exact execSeg_traps hc hs hf hstop (by rw [State.segCheck, State.colophon_late ho hl])
  · exact execSeg_traps hc hs hf hstop (by rw [State.segCheck, State.colophon_signature ho hl hsig])
  · exact execSeg_traps hc hs hf hstop (by rw [State.segCheck_after hcol, Tile.shadowPending_iff.mpr hsh, if_pos rfl])
  · exact execSeg_traps hc hs hf hstop (by rw [State.segCheck_after hcol, hsh, hbad]; rfl)
  · exact execSeg_traps hc hs hf hstop (by rw [State.segCheck_after hcol, hsh, Tile.bad_of_clean hecc, hok]; rfl)
  · exact execSeg_traps hc hs hf hstop (by rw [State.segCheck_after hcol, hsh, Tile.bad_of_clean hecc, hok, hsets]; rfl)

/-- The lowest FIFO that holds a token. -/
theorem leftToken_eq_some {t : Tile} {i : Nat} (hi : i < 30) (h : Store.get 0 i t.tokens ≠ 0) (hlow : ∀ j, j < i → Store.get 0 j t.tokens = 0) :
    t.leftToken = some i := by
  rw [Tile.leftToken, List.find?_range_eq_some]
  exact ⟨by simpa using h, by simpa using hi, fun j hj => by simpa using hlow j hj⟩
theorem leftToken_eq_none {t : Tile} (h : ∀ i, i < 30 → Store.get 0 i t.tokens = 0) : t.leftToken = none := by
  rw [Tile.leftToken, List.find?_eq_none]
  exact fun i hi => by simpa using h i (List.mem_range.mp hi)

/-- Settles O16: REND's checks in order, the stop at a cut, and the end of the tile. -/
theorem endOfRegion : Obligations.EndOfRegion := by
  intro s hc hs he
  refine ⟨execRend_cut hc hs he, fun hcut => ⟨fun hcol hsh htok => ?_, fun ho => ⟨fun hl => ?_, fun hl hsig => ?_⟩, fun hcol => ⟨fun hsh => ?_,
    fun i hsh hi hne hlow => ?_⟩⟩⟩
  · obtain ⟨hu, hh⟩ := State.clocked_iff.mp hc
    obtain ⟨n, hn, hexec⟩ := execRend_ends hc hs he hcut hcol hsh (leftToken_eq_none htok)
    have hend : s.atEnd .rended = s.setCtile (s.listed .rended) := rfl
    have b := (Effect.setCtile hu (x := s.listed .rended) rfl rfl rfl).book n .stop (by rw [hn]; exact noCtl_pushes)
    rw [hend] at hexec
    have hl : (s.setCtile (s.listed .rended)).loopsOf = s.loopsOf := by simp [State.loopsOf, hu, State.listed]
    refine ⟨_, hexec, b.own, b.engines, b.pc, ?_, ?_, rfl, ?_⟩
    · rw [b.loops, hh, hl]
      rfl
    · rw [b.tile hu, State.setCtile_ctile]
      rfl
    · exact congrArg Eng.st (Tile.setEng_eng_same s.ctile 0 _)
  · exact execRend_traps hc hs he hcut (by rw [State.colophon_late ho hl])
  · exact execRend_traps hc hs he hcut (by rw [State.colophon_signature ho hl hsig])
  · exact execRend_traps hc hs he hcut (by rw [hcol, Tile.shadowPending_iff.mpr hsh]; rfl)
  · exact execRend_traps hc hs he hcut (by rw [hcol, hsh, leftToken_eq_some hi hne hlow]; rfl)

/-- Settles O17: QFENCE ends its own fence; the shadow words by the state of the tile. -/
theorem fenceAndShadow : Obligations.FenceAndShadow := fun _ hc hs =>
  ⟨fun scope _ => execQfence_met hc hs scope,
    fun _ hq hst => ⟨shadowWord_pending hc hs hq .committed hst, shadowWord_pending hc hs hq .empty hst⟩,
    fun _ hq hst => ⟨shadowWord_empty hc hs hq .committed hst, shadowWord_empty hc hs hq .empty hst⟩,
    fun _ hq hst => ⟨shadowWord_committed hc hs hq .committed hst, shadowWord_committed hc hs hq .empty hst⟩⟩

/-- Settles O18: COLO is one register write; a STAMP is held by its engine, and a second one has no place. -/
theorem colophonAndStamp : Obligations.ColophonAndStamp :=
  ⟨fun rd e _ hc hs => execColo_writes hc hs rd e,
    fun n _ hc => ⟨fun h => ⟨State.stampWord_waits hc h false n, State.stampWord_waits hc h true n⟩,
      fun h => ⟨State.stampWord_ill h false n, State.stampWord_ill h true n⟩⟩⟩

end Sys2Proof.Proofs
end

section
/-! PROOFS. Barriers of a wider scope, FRAME, and what a .pod barrier tells the other packages (R29, R165, R170). -/

namespace Sys2Proof.Machine
open Sys2Proof.Claims

/-! ### A word of SQ that changes its region too -/

/-- The state `u` that a word's effect has made of the tile in hand and of its region, which becomes `r`. -/
structure RegionEffect (s u : State) (r : Slot) : Prop where
  rest : offRegions u = offRegions s
  tiles : ∀ p, p ≠ s.here → u.tile p = s.tile p
  slots : ∀ n, n ≠ s.slotNo → u.slot n = s.slot n
  region : u.region = r
  place : r.phys s.cur.tile = s.region.phys s.cur.tile
  handler : r.handler = s.region.handler
  rcc : r.rcc = s.region.rcc
  engs : u.ctile.engs = s.ctile.engs
  hflag : u.ctile.hflag = s.ctile.hflag
  loops : u.ctile.loops = s.ctile.loops

section
variable {s u : State} {r : Slot} (h : RegionEffect s u r)
include h

theorem RegionEffect.cur : u.cur = s.cur := (congrArg State.cur h.rest : (offRegions u).cur = (offRegions s).cur)
theorem RegionEffect.atU : u.atU = s.atU := by simp only [State.atU, h.cur]
theorem RegionEffect.slotNo : u.slotNo = s.slotNo := by simp only [State.slotNo, h.cur]
theorem RegionEffect.here : u.here = s.here := by rw [State.here, h.region, h.cur, h.place, State.here]
theorem RegionEffect.now : u.now = s.now := by rw [State.now, h.region, h.rcc, State.now]
theorem RegionEffect.clocked : u.clocked = s.clocked := by
  simp only [State.clocked, State.inHandler, h.atU, h.region, h.handler, h.hflag]
theorem RegionEffect.eng (e : Nat) : u.ctile.eng e = s.ctile.eng e := by rw [Tile.eng, h.engs, Tile.eng]

/-- Its bookkeeping, where control falls through. -/
theorem RegionEffect.becomes (hc : s.clocked = true) {n : Need} (hp : n.ctl.pushes = false) : PairBecomes s (u.commitScalar n .fall) u.ctile r := by
  obtain ⟨hu, hh⟩ := State.clocked_iff.mp hc
  rw [State.commitScalar_clocked n .fall (h.clocked.trans hc), h.cur]
  refine ⟨h.rest, fun p hne => ?_, h.slots, h.region, ?_, ⟨fun e he => ?_, ?_⟩, ?_⟩
  · exact (State.setCtile_tile_other u _ (h.here.symm ▸ hne)).trans (h.tiles p hne)
  · rw [State.setCtile_ctile, Tile.commitSq_bare _ _ _ _ _ hp]
  · rw [State.setCtile_ctile, Tile.commitSq_other _ _ _ _ _ hp he, h.eng]
  · rw [State.setCtile_ctile, Tile.commitSq_own _ _ _ _ _ hp, h.eng]
    exact ⟨rfl, rfl, rfl⟩
  · have hfirst : u.ctile.seqFirst s.cur = s.seqFirst := by
      rw [State.seqFirst, hc, if_pos rfl, Tile.seqFirst, h.eng, Tile.seqFirst]
    simp only [fallsThrough, State.loopsOf, State.pcOf, State.setCtile_atU, State.setCtile_ctile, h.atU, hu, hh, if_true, Bool.false_eq_true,
      if_false, Tile.commitSq_loops _ _ _ _ _ hp, Tile.commitSq_own _ _ _ _ _ hp, h.loops, hfirst, Flow.next]

/-- A further change of the tile in hand. -/
theorem RegionEffect.setCtile {x : Tile} (he : x.engs = s.ctile.engs) (hf : x.hflag = s.ctile.hflag) (hl : x.loops = s.ctile.loops) :
    RegionEffect s (u.setCtile x) r where
  rest := h.rest
  tiles p hne := (State.setCtile_tile_other u x (h.here.symm ▸ hne)).trans (h.tiles p hne)
  slots := h.slots
  region := h.region
  place := h.place
  handler := h.handler
  rcc := h.rcc
  engs := by rw [State.setCtile_ctile, he]
  hflag := by rw [State.setCtile_ctile, hf]
  loops := by rw [State.setCtile_ctile, hl]

theorem RegionEffect.setCtile_becomes (hc : s.clocked = true) {n : Need} (hp : n.ctl.pushes = false) {x : Tile}
    (he : x.engs = s.ctile.engs) (hf : x.hflag = s.ctile.hflag) (hl : x.loops = s.ctile.loops) :
    PairBecomes s ((u.setCtile x).commitScalar n .fall) x r := by
  have hx := (h.setCtile he hf hl).becomes hc hp
  rwa [State.setCtile_ctile] at hx
end

/-! ### One more barrier (R29, R170) -/

theorem State.countBar_eq (s : State) (scope : Nat) : s.countBar scope = s.setRegion (counted s scope) := rfl
@[simp] theorem State.setRegion_region (s : State) (r : Slot) : (s.setRegion r).region = r := Store.get_put_same ({} : Slot) r s.slotNo s.slots

theorem State.countBar_ctile (s : State) (scope : Nat) : (s.countBar scope).ctile = s.ctile := by
  have hhere : (s.countBar scope).here = s.here := by
    rw [State.here, State.countBar_eq, State.setRegion_region]
    rfl
  rw [State.ctile, hhere]
  rfl

theorem State.countBar_effect (s : State) (scope : Nat) : RegionEffect s (s.countBar scope) (counted s scope) where
  rest := rfl
  tiles _ _ := rfl
  slots _ hn := Store.get_put_other _ _ hn _
  region := by rw [State.countBar_eq, State.setRegion_region]
  place := rfl
  handler := rfl
  rcc := rfl
  engs := by rw [State.countBar_ctile]
  hflag := by rw [State.countBar_ctile]
  loops := by rw [State.countBar_ctile]

/-- What the bookkeeping of a word of SQ that counts a barrier makes of its tile `x` and its region. -/
theorem State.countBar_becomes {s : State} (hc : s.clocked = true) (scope : Nat) {n : Need} (hp : n.ctl.pushes = false) :
    PairBecomes s ((s.countBar scope).commitScalar n .fall) s.ctile (counted s scope) := by
  have h := (s.countBar_effect scope).becomes hc hp
  rwa [State.countBar_ctile] at h

theorem State.countBar_setCtile_becomes {s : State} (hc : s.clocked = true) (scope : Nat) {n : Need} (hp : n.ctl.pushes = false) {x : Tile}
    (he : x.engs = s.ctile.engs) (hf : x.hflag = s.ctile.hflag) (hl : x.loops = s.ctile.loops) :
    PairBecomes s (((s.countBar scope).setCtile x).commitScalar n .fall) x (counted s scope) :=
  (s.countBar_effect scope).setCtile_becomes hc hp he hf hl

/-! ### BAR of a wider scope and FRAME (R165, R170) -/

section
variable {s : State} (hc : s.clocked = true) (hs : s.prompt)
include hc

/-- A BAR of a scope within the package. -/
theorem execBar_within {scope : Nat} (h2 : 2 ≤ scope) (h5 : scope ≤ 5) (sw : Nat) : execBar scope sw s =
    .next (s.scalarWord { pre := if 4 ≤ scope ∧ s.ctile.timed = true then some ill else none, met := s.barMet scope }
      (fun a => .ok (a.countBar scope, .fall))) := by
  have h1 : scope ≠ 1 := by omega
  have h6 : scope ≠ 6 := by omega
  rw [execBar, State.sqOnly_clocked hc, beq_eq_false_iff_ne.mpr h6]
  simp [h1, h6, State.passBar]

/-- A BAR that a timed segment does not take. -/
theorem execBar_timed {scope : Nat} (h4 : 4 ≤ scope) (ht : s.ctile.timed = true) (sw : Nat) : execBar scope sw s = .next (s.takeTrap ill) := by
  rw [execBar, State.sqOnly_clocked hc]
  simp only [h4, ht, decide_true, Bool.and_self, if_true, Option.isNone_some, Bool.false_and, Bool.false_eq_true, if_false]
  rfl

include hs

theorem execBar_within_met {scope : Nat} (h2 : 2 ≤ scope) (h5 : scope ≤ 5) (sw : Nat) (ht : 4 ≤ scope → s.ctile.timed = false)
    (hm : s.barMet scope = true) : ∃ t, execBar scope sw s = .next t ∧ PairBecomes s t s.ctile (counted s scope) := by
  have hpre : (if 4 ≤ scope ∧ s.ctile.timed = true then some ill else none) = none :=
    if_neg fun h => absurd h.2 (by rw [ht h.1]; exact Bool.false_ne_true)
  have hn : Need.Goes { pre := if 4 ≤ scope ∧ s.ctile.timed = true then some ill else none, met := s.barMet scope } :=
    ⟨hpre, rfl, hm, noCtl_pops, noCtl_pushes⟩
  exact ⟨_, (execBar_within hc h2 h5 sw).trans (congrArg Host.Outcome.next (State.scalarWord_goes hs hn rfl)), s.countBar_becomes hc scope hn.pushes⟩

theorem execFrame_met (hm : s.barMet 7 = true) : ∃ t, execFrame s = .next t ∧
    PairBecomes s t { s.ctile with frmorg := s.now, fstepV := 0, fstepM := 0 } (counted s 7) := by
  have hn : Need.Goes { pre := s.sqOnly, met := s.barMet 7 } := ⟨State.sqOnly_clocked hc, rfl, hm, noCtl_pops, noCtl_pushes⟩
  refine ⟨_, congrArg Host.Outcome.next (State.scalarWord_goes (u := (s.countBar 7).setCtile
    { s.ctile with frmorg := s.now, fstepV := 0, fstepM := 0 }) hs hn ?_), s.countBar_setCtile_becomes hc 7 hn.pushes rfl rfl rfl⟩
  simp only [State.countBar_ctile, (s.countBar_effect 7).now]

theorem execBar_within_unmet {scope : Nat} (h2 : 2 ≤ scope) (h5 : scope ≤ 5) (sw : Nat) (ho : s.ctile.seg.opened = true)
    (hm : s.barMet scope = false) : execBar scope sw s = if s.ctile.seg.elastic then .next s
      else .next (s.takeTrap (if 4 ≤ scope ∧ scope ≤ 5 then { cause := .ill } else overrun 3 s.now)) := by
  rw [execBar_within hc h2 h5]
  by_cases h4 : 4 ≤ scope ∧ s.ctile.timed = true
  · have hel : s.ctile.seg.elastic = false := by simpa [Tile.timed_of_opened ho] using h4.2
    rw [hel, if_neg Bool.false_ne_true, if_pos (⟨h4.1, h5⟩ : 4 ≤ scope ∧ scope ≤ 5), if_pos h4]
    rfl
  · rw [if_neg h4, State.next_scalarWord_unmet hc hs ho rfl noCtl_pops hm rfl]
    cases hel : s.ctile.seg.elastic with
    | true => rfl
    | false =>
      have ht : s.ctile.timed = true := by rw [Tile.timed_of_opened ho, hel]; rfl
      have hlt : ¬ (4 ≤ scope ∧ scope ≤ 5) := fun h => h4 ⟨h.1, ht⟩
      rw [if_neg hlt]

theorem execFrame_unmet (ho : s.ctile.seg.opened = true) (hm : s.barMet 7 = false) : execFrame s = s.waits :=
  State.next_scalarWord_unmet hc hs ho rfl noCtl_pops hm (State.sqOnly_clocked hc)
end

/-! ### BAR.pod (R170) -/

theorem nodup_eraseDups {α : Type} [BEq α] [LawfulBEq α] : ∀ l : List α, l.eraseDups.Nodup
  | [] => by simp
  | a :: l => by
    rw [List.eraseDups_cons, List.nodup_cons]
    exact ⟨by simp [List.mem_eraseDups], nodup_eraseDups _⟩
termination_by l => l.length
decreasing_by exact Nat.lt_succ_of_le (List.length_filter_le ..)

/-- A package has been told of the `n`-th .pod barrier of the job in hand. -/
def State.podKnows (s : State) (n p : Nat) : Prop :=
  ∃ q, q ∈ s.podSent ∧ q.1 = p ∧ q.2.1 = s.region.world ∧ q.2.2.1 = s.region.jobid ∧ n ≤ q.2.2.2

theorem State.mem_podUntold {s : State} {n p : Nat} : p ∈ s.podUntold n ↔ p ∈ s.podPackages s.slotNo ∧ ¬ s.podKnows n p := by
  simp only [State.podUntold, State.podKnows, List.mem_filter, Bool.not_eq_true', List.any_eq_false, Bool.and_eq_true, beq_iff_eq,
    decide_eq_true_eq, not_exists, not_and]
  refine and_congr_right fun _ => ⟨fun h q hq h1 h2 h3 h4 => h q hq ⟨⟨h1, h2⟩, h3⟩ h4, fun h q hq ⟨⟨h1, h2⟩, h3⟩ h4 => h q hq h1 h2 h3 h4⟩

theorem State.podUntold_nodup (s : State) (n : Nat) : (s.podUntold n).Nodup := ((nodup_eraseDups _).filter _).filter _

/-- The count of .pod barriers that the word in hand would make. -/
def State.podNext (s : State) : Nat := s.region.barCount s.cur.tile 6 + 1

theorem counted_barCount (s : State) : (counted s 6).barCount s.cur.tile 6 = s.podNext := by
  rw [Slot.barCount, counted]
  exact Store.get_put_same (0 : Nat) s.podNext (barKey s.cur.tile 6) s.region.bars

/-- What is kept of the counts told, where packages `ps` are told of another. -/
def State.podKept (s : State) (ps : List Nat) : List (Nat × Nat × Nat × Nat) :=
  s.podSent.filter (fun q => !(ps.contains q.1 && q.2.1 == s.region.world && q.2.2.1 == s.region.jobid))

theorem State.mem_podKept {s : State} {ps : List Nat} {q : Nat × Nat × Nat × Nat} :
    q ∈ s.podKept ps ↔ q ∈ s.podSent ∧ ¬ (q.1 ∈ ps ∧ q.2.1 = s.region.world ∧ q.2.2.1 = s.region.jobid) := by
  simp only [State.podKept, List.mem_filter, Bool.not_eq_true', Bool.and_eq_false_iff, beq_eq_false_iff_ne, List.contains_eq_mem, decide_eq_false_iff_not,
    not_and, ne_eq]
  tauto

theorem State.tellPod_of_missing {s : State} (h : s.barHere 6 = false) : s.tellPod = s := by
  rw [State.tellPod, h]
  rfl

theorem State.tellPod_of_here {s : State} (h : s.barHere 6 = true) : s.tellPod = { s with
    podSent := (s.podUntold s.podNext).map (fun p => (p, s.region.world, s.region.jobid, s.podNext)) ++ s.podKept (s.podUntold s.podNext),
    outbox := s.outbox ++ (s.podUntold s.podNext).map (fun p => .podBar p s.region.world s.region.jobid s.podNext) } := by
  rw [State.tellPod, h]
  rfl

/-- Nothing is sent where every package knows. -/
theorem State.tellPod_of_known {s : State} (h : ∀ p, p ∈ s.podPackages s.slotNo → s.podKnows s.podNext p) : s.tellPod = s := by
  cases hh : s.barHere 6 with
  | false => exact State.tellPod_of_missing hh
  | true =>
    have hnone : s.podUntold s.podNext = [] := List.eq_nil_iff_forall_not_mem.mpr fun p hp =>
      (State.mem_podUntold.mp hp).2 (h p (State.mem_podUntold.mp hp).1)
    have hkept : s.podKept [] = s.podSent := List.filter_eq_self.mpr fun q _ => by simp
    rw [State.tellPod_of_here hh, hnone, hkept]
    simp

/-- Telling the other packages changes what has been told and what leaves the package alone. -/
theorem State.tellPod_rest (s : State) : ∃ sent out, s.tellPod = { s with podSent := sent, outbox := out } := by
  cases hh : s.barHere 6 with
  | false => exact ⟨_, _, State.tellPod_of_missing hh⟩
  | true => exact ⟨_, _, State.tellPod_of_here hh⟩

theorem State.tellPod_told {s : State} {p : Nat} (hh : s.barHere 6 = true) (hp : p ∈ s.podPackages s.slotNo) :
    ∃ q, q ∈ s.tellPod.podSent ∧ q.1 = p ∧ q.2.1 = s.region.world ∧ q.2.2.1 = s.region.jobid ∧ s.podNext ≤ q.2.2.2 := by
  rw [State.tellPod_of_here hh]
  by_cases hk : s.podKnows s.podNext p
  · obtain ⟨q, hq, h1, h2, h3, h4⟩ := hk
    refine ⟨q, List.mem_append_right _ (State.mem_podKept.mpr ⟨hq, fun hx => ?_⟩), h1, h2, h3, h4⟩
    exact (State.mem_podUntold.mp hx.1).2 ⟨q, hq, rfl, h2, h3, h4⟩
  · exact ⟨_, List.mem_append_left _ (List.mem_map_of_mem (State.mem_podUntold.mpr ⟨hp, hk⟩)), rfl, rfl, rfl, le_rfl⟩

theorem State.mem_tellPod {s : State} {q : Nat × Nat × Nat × Nat} (hh : s.barHere 6 = true) (hq : q ∈ s.tellPod.podSent) :
    q ∈ s.podSent ∨ q.1 ∈ s.podUntold s.podNext ∧ q = (q.1, s.region.world, s.region.jobid, s.podNext) := by
  rw [State.tellPod_of_here hh] at hq
  rcases List.mem_append.mp hq with h | h
  · obtain ⟨p, hp, rfl⟩ := List.mem_map.mp h
    exact .inr ⟨hp, rfl⟩
  · exact .inl (State.mem_podKept.mp h).1

/-- A count told goes only where a later one of the same job is told. -/
theorem State.tellPod_keeps {s : State} {q : Nat × Nat × Nat × Nat} (hq : q ∈ s.podSent) :
    q ∈ s.tellPod.podSent ∨ q.2.1 = s.region.world ∧ q.2.2.1 = s.region.jobid ∧ q.2.2.2 < s.podNext := by
  cases hh : s.barHere 6 with
  | false =>
    rw [State.tellPod_of_missing hh]
    exact .inl hq
  | true =>
    rw [State.tellPod_of_here hh]
    by_cases hx : q.1 ∈ s.podUntold s.podNext ∧ q.2.1 = s.region.world ∧ q.2.2.1 = s.region.jobid
    · refine .inr ⟨hx.2.1, hx.2.2, not_le.mp fun hle => ?_⟩
      exact (State.mem_podUntold.mp hx.1).2 ⟨q, hq, rfl, hx.2.1, hx.2.2, hle⟩
    · exact .inl (List.mem_append_right _ (State.mem_podKept.mpr ⟨hq, hx⟩))

section
variable {s : State} (hc : s.clocked = true) (hs : s.prompt) (ht : s.ctile.timed = false) (sw : Nat)
include hc hs ht

/-- BAR.pod outside a timed segment tells the other packages, and goes on where its wait has ended. -/
theorem execBar_pod_goes {gone : Bool} (hg : (s.ctile.bgate == some s.podNext) = gone) (h : gone = true ∨ s.barMet 6 = true) :
    execBar 6 sw s = .next (s.tellPod.scalarWord {} (fun a => .ok (a.passBar 6 sw gone, .fall))) := by
  have hgo : s.scalarGate {} = .go := State.scalarGate_go _ hs rfl rfl noCtl_pops
  have hmet : (true && gone || s.barMet 6) = true := Bool.or_eq_true_iff.mpr h
  have hg' : (s.ctile.bgate == some (s.region.barCount s.cur.tile 6 + 1)) = gone := hg
  rw [execBar, State.sqOnly_clocked hc, ht, hgo, hg', beq_self_eq_true, hmet]
  rfl

/-- While it waits, it holds the job's remote timeout. -/
theorem execBar_pod_waits (hg : (s.ctile.bgate == some s.podNext) = false) (h : s.barMet 6 = false) :
    execBar 6 sw s = .next (if s.tellPod.ctile.podDue.isNone
      then s.tellPod.setCtile { s.tellPod.ctile with podDue := some (s.tellPod.tb + s.tellPod.region.timeout) } else s.tellPod) := by
  have hgo : s.scalarGate {} = .go := State.scalarGate_go _ hs rfl rfl noCtl_pops
  have hg' : (s.ctile.bgate == some (s.region.barCount s.cur.tile 6 + 1)) = false := hg
  rw [execBar, State.sqOnly_clocked hc, ht, hgo, hg', beq_self_eq_true, h]
  rfl

omit hs ht in
/-- What BAR.pod leaves as it issues. -/
theorem passBar_pod (gone : Bool) {n : Need} (hp : n.ctl.pushes = false) : PairBecomes s ((s.passBar 6 sw gone).commitScalar n .fall)
    { s.ctile with bgate := none, podDue := none,
                   sw := if gone then Store.put 0 sw (swStatus (Store.get 0 sw s.ctile.sw) 4) s.ctile.sw else s.ctile.sw } (counted s 6) := by
  have hu := (State.clocked_iff.mp hc).1
  cases gone with
  | false =>
    have hpass : s.passBar 6 sw false = (s.countBar 6).setCtile { s.ctile with bgate := none, podDue := none } := by
      simp [State.passBar, State.countBar_ctile]
    rw [hpass]
    exact s.countBar_setCtile_becomes hc 6 hp rfl rfl rfl
  | true =>
    have hst : (s.countBar 6).statusWrite sw 4 =
        (s.countBar 6).setCtile { s.ctile with sw := Store.put 0 sw (swStatus (Store.get 0 sw s.ctile.sw) 4) s.ctile.sw } := by
      have hatU := (s.countBar_effect 6).atU.trans hu
      rw [State.statusWrite, State.taintIf, if_neg (by simp), State.rdSw, State.wrSw, hatU, if_pos rfl, if_pos rfl, State.countBar_ctile]
    have hpass : s.passBar 6 sw true = ((s.countBar 6).statusWrite sw 4).setCtile
        { ((s.countBar 6).statusWrite sw 4).ctile with bgate := none, podDue := none } := by
      simp only [State.passBar, ↓reduceIte]
    rw [hpass, hst, State.setCtile_ctile, if_pos (rfl : true = true)]
    generalize Store.put 0 sw (swStatus (Store.get 0 sw s.ctile.sw) 4) s.ctile.sw = w
    have h := (s.countBar_effect 6).setCtile (x := { s.ctile with sw := w }) rfl rfl rfl
    exact RegionEffect.setCtile_becomes h hc hp rfl rfl rfl
end

end Sys2Proof.Machine

namespace Sys2Proof.Proofs
open Sys2Proof.Machine Sys2Proof.Claims

/-- BAR.pod in an elastic segment, by the state `u` that telling the other packages leaves. -/
theorem exec_barPod {s : State} (hc : s.clocked = true) (hs : s.prompt) (ht : s.ctile.timed = false) (sw : Nat) :
    let u := s.tellPod
    let went : Tile := { s.ctile with bgate := none, podDue := none }
    ∃ t, exec (.bar 6 sw) s = .next t ∧
      (s.ctile.bgate ≠ some s.podNext → s.barMet 6 = true → PairBecomes u t went (counted s 6)) ∧
      (s.ctile.bgate ≠ some s.podNext → s.barMet 6 = false → t = if s.ctile.podDue.isSome then u
        else u.setCtile { s.ctile with podDue := some (s.tb + 1000 * (if s.region.rtmo = 0 then 1000000 else s.region.rtmo)) }) ∧
      (s.ctile.bgate = some s.podNext → PairBecomes u t { went with
        sw := Store.put 0 sw (swMake (!(Store.get 0 sw s.ctile.sw).getMsbD 0) 4 0) s.ctile.sw } (counted s 6)) := by
  obtain ⟨sent, out, hu⟩ := s.tellPod_rest
  have hwaits := execBar_pod_waits hc hs ht sw
  have hgoes {gone : Bool} := execBar_pod_goes hc hs ht sw (gone := gone)
  rw [hu] at hgoes hwaits ⊢
  have hpu : State.prompt { s with podSent := sent, outbox := out } := ⟨hs.clocked, hs.handler⟩
  have hcu : State.clocked { s with podSent := sent, outbox := out } = true := hc
  have hword (gone : Bool) := State.scalarWord_goes (body := fun a => .ok (a.passBar 6 sw gone, .fall)) hpu (n := {})
    ⟨rfl, rfl, rfl, noCtl_pops, noCtl_pushes⟩ rfl
  have hbec (gone : Bool) := passBar_pod hcu sw gone (n := {}) noCtl_pushes
  by_cases hg : s.ctile.bgate = some s.podNext
  · refine ⟨_, hgoes (beq_iff_eq.mpr hg) (.inl rfl), fun h => absurd hg h, fun h => absurd hg h, fun _ => ?_⟩
    rw [hword true]
    have h := hbec true
    rwa [if_pos rfl, swStatus, if_neg (by decide), phaseOf_eq] at h
  · have hg' : (s.ctile.bgate == some s.podNext) = false := beq_eq_false_iff_ne.mpr hg
    cases hm : s.barMet 6 with
    | true =>
      refine ⟨_, hgoes hg' (.inr hm), fun _ _ => ?_, fun _ h => (nomatch h), fun h => absurd h hg⟩
      rw [hword false]
      exact hbec false
    | false =>
      refine ⟨_, hwaits hg' hm, fun _ h => (nomatch h), fun _ _ => ?_, fun h => absurd h hg⟩
      cases hd : s.ctile.podDue with
      | none => exact if_pos (congrArg Option.isNone hd)
      | some d => exact if_neg (ne_true_of_eq_false (congrArg Option.isNone hd))

/-- Settles O14: BAR and FRAME by whether every participant is there; BAR.pod in two parts, what it tells and what it does then. -/
theorem barriers : Obligations.Barriers := by
  intro s hc hs
  refine ⟨fun scope sw h2 h5 ht hm => execBar_within_met hc hs h2 h5 sw ht hm, execFrame_met hc hs, ?_, fun scope sw h4 _ ht => execBar_timed hc h4 ht sw,
    fun sw ht => ?_⟩
  · rintro scope sw i (⟨rfl, h2, h5⟩ | ⟨rfl, rfl⟩) ho hm
    · exact execBar_within_unmet hc hs h2 h5 sw ho hm
    · exact execFrame_unmet hc hs ho hm
  · obtain ⟨t, hexec, hmet, hunmet, hgone⟩ := exec_barPod hc hs ht sw
    rw [counted_barCount]
    refine ⟨t, s.tellPod, hexec, ?_, fun hh => ⟨s.podUntold s.podNext, fun p => State.mem_podUntold, s.podUntold_nodup _, ?_,
      fun p hp => State.tellPod_told hh hp, fun q hq => State.mem_tellPod hh hq, ?_⟩, fun q hq => State.tellPod_keeps hq, hmet, hunmet, hgone⟩
    · rintro (hh | hh)
      · exact State.tellPod_of_missing hh
      · exact State.tellPod_of_known hh
    · rw [State.tellPod_of_here hh]
    · rw [State.tellPod_of_here hh]

end Sys2Proof.Proofs
end

section
/-! PROOFS. SRD: the registers of Tables 7.5, 16.1, 16.2, 18.4, 20.1, 24.1 and 26.1 as they read, and the checks of a register number (R125, R126, R176). -/

namespace Sys2Proof.Machine
open Sys2Proof.Claims

/-! ### The checks of a register number (R126) -/

section
variable {s : State} {reg : Nat}

theorem State.regCheck_priv (hu : s.atU = true) (h : 0x800 ≤ reg ∨ reg = 0x20 ∨ reg = 0x21) (w : Bool) : s.regCheck reg w = some priv := by
  rw [State.regCheck, if_pos hu]
  by_cases h8 : 0x800 ≤ reg
  · rw [if_pos h8]
  · rw [if_neg h8, if_pos (by simpa [h8] using h)]

/-- Below the system registers U's own table decides. -/
theorem State.regCheck_tile (hu : s.atU = true) (h : reg < 0x800) (h20 : reg ≠ 0x20) (h21 : reg ≠ 0x21) {a : Option Bool} (ha : tileReg reg = a) (w : Bool) :
    s.regCheck reg w = a.elim (some ill) (fun rw => if w && !rw then some ill else none) := by
  rw [State.regCheck, if_pos hu, if_neg (by omega), if_neg (by simp [h20, h21]), ha]
  cases a <;> rfl

theorem State.regCheck_sw (hu : s.atU = false) (h1 : 0x100 ≤ reg) (h2 : reg ≤ 0x11F) (w : Bool) : s.regCheck reg w = none := by
  rw [State.regCheck, if_neg (by simp [hu]), if_pos (by simp [h1, h2])]

theorem State.regCheck_unit (hu : s.atU = false) (h : ¬ (0x100 ≤ reg ∧ reg ≤ 0x11F)) (w : Bool) :
    s.regCheck reg w = if unitAcc reg = .reserved ∨ (unitAcc reg = .ro ∧ w = true) then some ill else none := by
  rw [State.regCheck, if_neg (by simp [hu]), if_neg (by simpa using h)]
  cases unitAcc reg <;> simp
end

/-! ### Tile and region registers (Table 7.5) -/

theorem tileReg_of_none {s : State} {n : Nat} (h : uRegister s n = none) : tileReg n = none := by
  unfold uRegister at h
  split at h
  case h_18 =>
    have hsw : ¬ (0x100 ≤ n ∧ n ≤ 0x11F) := fun hx => by simp [hx] at h
    simp only [imp_false] at *
    have hlow : ¬ (n ≤ 0xB ∨ (0x10 ≤ n ∧ n ≤ 0x14)) := by omega
    rw [tileReg, if_neg (by simp; omega), if_neg (by omega)]
  all_goals nomatch h

theorem State.tileRead_of_sw {s : State} {n : Nat} (h1 : 0x100 ≤ n) : s.tileRead n = s.rdSw (n - 0x100) := by
  rw [State.tileRead] <;> omega

/-- What U may read, and what it then holds. -/
theorem uRegister_some {s : State} {n : Nat} {v : Word} (hu : s.atU = true) (h : uRegister s n = some v) : s.tileRead n = v ∧ s.regCheck n false = none := by
  have hcheck (hlt : n < 0x800) (h20 : n ≠ 0x20) (h21 : n ≠ 0x21) {w : Bool} (ht : tileReg n = some w) : s.regCheck n false = none :=
    State.regCheck_tile hu hlt h20 h21 ht false
  unfold uRegister at h
  split at h
  case h_18 =>
    split at h
    case isTrue hsw =>
      have htab : tileReg n = some false := if_pos (by simp [hsw])
      refine ⟨?_, hcheck (by omega) (by omega) (by omega) htab⟩
      rw [State.tileRead_of_sw hsw.1, State.rdSw, if_pos hu]
      exact Option.some.inj h
    case isFalse => nomatch h
  case h_17 => exact ⟨Option.some.inj h, hcheck (w := true) (by decide) (by decide) (by decide) rfl⟩
  all_goals exact ⟨Option.some.inj h, hcheck (w := false) (by decide) (by decide) (by decide) rfl⟩

/-! ### Unit registers (Tables 16.1, 16.2, 18.4, 20.1, 24.1, 26.1) -/

/-- A bitmap is the sum of its flags. -/
theorem bitmap_eq_sum (n k : Nat) (f : Nat → Bool) : bitmap n f * 2 ^ k = ((List.range n).map (fun d => flagAt (f d) (k + d))).sum := by
  have hfold (a : Nat) : ((List.range' a n).foldr (fun i x => (if f i then 1 else 0) + 2 * x) 0) * 2 ^ (k + a) =
      ((List.range' a n).map (fun d => flagAt (f d) (k + d))).sum := by
    induction n generalizing a with
    | zero => simp
    | succ n ih =>
      have hrest := ih (a + 1)
      rw [List.range'_succ, List.foldr_cons, List.map_cons, List.sum_cons, ← hrest, flagAt, ← Nat.add_assoc, Nat.pow_succ, Nat.add_mul]
      cases f a <;> simp <;> ring
  rw [bitmap, List.range_eq_range']
  exact hfold 0

theorem State.brstat_eq (s : State) : s.brstat = s.phase % 2 ^ 3 + flagAt s.rotsb 3 + ((List.range 8).map (fun d => flagAt (s.dieOk d) (4 + d))).sum +
    (s.ports.filter (fun e => e.2.up)).length % 2 ^ 6 * 2 ^ 18 + s.eth % 2 ^ 2 * 2 ^ 24 := by
  rw [← bitmap_eq_sum]
  rfl

theorem State.wkctl_eq (s : State) : s.wkctl = s.wkWorld % 2 ^ 6 + flagAt s.wkBusy 8 + s.wkErr % 2 ^ 7 * 2 ^ 56 + flagAt s.wkBusy 63 := by
  rw [State.wkctl]
  cases s.wkBusy <;> simp [flagAt]
  omega

theorem State.snstat_eq {s : State} {k : Nat} (h : s.snJob = some k) : s.snstat = snapStatus s k := by
  have hkept : s.committed k = (List.range 17).filter (fun i => decide (bits (s.cat k i 0) 63 1 = 1 ∧ bits (s.cat k i 0) 60 3 = 1)) := by
    refine congrArg (List.filter · _) (funext fun i => ?_)
    rw [State.catCommitted, State.catValid, Bool.decide_and]
    rfl
  rw [State.snstat, h, snapStatus]
  simp only [hkept]
  cases (s.snap k).st <;> rfl

/-- What a core reads with no effect, and what it then holds. -/
theorem coreRegister_some {s : State} {n v : Nat} (h : coreRegister s n = some v) : s.unitRead n = v := by
  unfold coreRegister at h
  split at h
  case h_38 =>
    split at h
    case isTrue hx =>
      have hx' : (decide (0x810 ≤ n) && decide (n ≤ 0x81F)) = true := by simpa using hx
      rw [State.unitRead, if_pos hx']
      · exact Option.some.inj h
      all_goals omega
    case isFalse => nomatch h
  case h_20 => exact s.wkctl_eq.trans (Option.some.inj h)
  case h_31 => exact s.brstat_eq.trans (Option.some.inj h)
  all_goals exact Option.some.inj h

/-- Numbers that a core reads as a plain unit register. -/
structure ReadsPlain (n : Nat) : Prop where
  unit : ¬ (0x100 ≤ n ∧ n ≤ 0x11F)
  evq : n ≠ 0x805
  tbnow : n ≠ 0x870
  acc : unitAcc n ≠ .reserved

theorem unitAcc_wentry {n : Nat} (h1 : 0x810 ≤ n) (h2 : n ≤ 0x823) (h : n ≠ 0x822) : unitAcc n = .rw := by
  rw [unitAcc, if_neg (by simp; omega), if_pos (by simp; omega)]

theorem coreRegister_readsPlain {s : State} {n v : Nat} (h : coreRegister s n = some v) : ReadsPlain n := by
  unfold coreRegister at h
  split at h
  case h_38 =>
    split at h
    case isTrue hx => exact ⟨by omega, by omega, by omega, by rw [unitAcc_wentry hx.1 (by omega) (by omega)]; decide⟩
    case isFalse => nomatch h
  all_goals exact ⟨by decide, by decide, by decide, by decide⟩

theorem unitAcc_of_coreReserved {n : Nat} (h : coreReserved n) : unitAcc n = .reserved := by
  unfold coreReserved at h
  rw [unitAcc, if_neg (by simp; omega), if_neg (by simp; omega)]

/-! ### SRD (R176) -/

section
variable {s : State} (hs : s.prompt) {rd reg : Nat}
include hs

/-- SRD of a readable register writes what the read gives, after the read's own effect `u`. -/
theorem execSrd_reads {u : State} {v : Word} (hp : s.regCheck reg false = none) (hr : s.sysRead reg = (u, v)) :
    ∃ t, execSrd rd reg s = .next t ∧ WritesG u t rd 2 v := by
  refine ⟨(u.wrG rd v).commitScalar { dest := rd, lat := 2 } .fall, ?_, State.writesG_of { dest := rd, lat := 2 } v noCtl_pushes (fun _ hx => nomatch hx)⟩
  rw [execSrd, hp, State.scalarWord_prompt hs (reads := []) (rd := rd) (lat := 2) (unit := none) (u := u.wrG rd v) (f := .fall)]
  rw [hr]

omit hs in
theorem execSrd_traps {x : Trap} (hp : s.regCheck reg false = some x) : execSrd rd reg s = .next (s.takeTrap x) := by
  rw [execSrd, hp]
  rfl

theorem execSrd_tile {v : Word} (hu : s.atU = true) (hv : uRegister s reg = some v) : ∃ t, execSrd rd reg s = .next t ∧ WritesG s t rd 2 v := by
  obtain ⟨hval, hp⟩ := uRegister_some hu hv
  exact execSrd_reads hs hp (by rw [State.sysRead, if_pos hu, hval])

theorem execSrd_status (hu : s.atU = false) (h1 : 0x100 ≤ reg) (h2 : reg ≤ 0x11F) :
    ∃ t, execSrd rd reg s = .next t ∧ WritesG s t rd 2 (Store.get 0 (reg - 0x100) s.ccore.sw) :=
  execSrd_reads hs (State.regCheck_sw hu h1 h2 false) (by simp [State.sysRead, hu, h1, h2, State.rdSw])

theorem execSrd_plain (hu : s.atU = false) (h : ReadsPlain reg) :
    ∃ t, execSrd rd reg s = .next t ∧ WritesG s t rd 2 (BitVec.ofNat 64 (s.unitRead reg)) := by
  refine execSrd_reads hs ?_ ?_
  · rw [State.regCheck_unit hu h.unit, if_neg (by simp [h.acc])]
  · rw [State.sysRead, if_neg (by simp [hu]), if_neg (by simpa using h.unit), if_neg h.evq, if_neg h.tbnow]

theorem execSrd_evq (hu : s.atU = false) : ∃ t, execSrd rd 0x805 s = .next t ∧ WritesG s.evqPop.1 t rd 2 s.evqPop.2 := by
  refine execSrd_reads hs ?_ ?_
  · rw [State.regCheck_unit hu (by decide)]
    rfl
  · rw [State.sysRead, if_neg (by simp [hu])]
    rfl
end

end Sys2Proof.Machine

namespace Sys2Proof.Proofs
open Sys2Proof.Machine Sys2Proof.Claims

/-- Settles O19: what a register holds by its table, and the checks of its number. -/
theorem readSystem : Obligations.ReadSystem := by
  intro rd reg s hs
  refine ⟨fun v hu hv => execSrd_tile hs hu hv, fun hu h1 h2 => execSrd_status hs hu h1 h2, fun v hu hv => ?_, ?_,
    fun hu h => execSrd_traps (State.regCheck_priv hu h false), fun hu hlt h20 h21 hn => ?_, ?_, ?_, fun hu h => ?_⟩
  · rw [← coreRegister_some hv]
    exact execSrd_plain hs hu (coreRegister_readsPlain hv)
  · rintro hu rfl
    obtain ⟨t, ht, hw⟩ := execSrd_evq (rd := rd) hs hu
    refine ⟨fun he => ⟨t, { s with evLost := 0 }, ht, rfl, rfl, ?_⟩, fun e r he => ⟨t, { s with evq := r, evLost := 0 }, ht, rfl, rfl, rfl, ?_⟩⟩
    · have hpop : s.evqPop = ({ s with evLost := 0 }, BitVec.ofNat 64 (min 127 s.evLost * 2 ^ 56)) := by
        rw [State.evqPop, he]
      rwa [hpop] at hw
    · have hpop : s.evqPop = ({ s with evq := r, evLost := 0 }, BitVec.ofNat 64 (2 ^ 63 + min 127 s.evLost * 2 ^ 56 + e.cause % 2 ^ 8 * 2 ^ 48 +
          e.slot % 2 ^ 11 * 2 ^ 32 + e.detail % 2 ^ 32)) := by
        rw [State.evqPop, he]
      rwa [hpop] at hw
  · exact execSrd_traps (State.regCheck_tile hu hlt h20 h21 (tileReg_of_none hn) false)
  · rintro hu rfl
    have hval : s.unitRead 0x821 = (s.snJob.map s.area).getD 0 := rfl
    obtain ⟨t, ht, hw⟩ := execSrd_plain (rd := rd) (reg := 0x821) hs hu ⟨by decide, by decide, by decide, by decide⟩
    rw [hval] at hw
    refine ⟨t, ht, ?_⟩
    rw [State.snJob] at hw
    cases hj : s.handleNode s.snsel with
    | none => rwa [hj] at hw
    | some x => rwa [hj] at hw
  · rintro hu rfl
    have hval : s.unitRead 0x822 = s.snstat := rfl
    obtain ⟨t, ht, hw⟩ := execSrd_plain (rd := rd) (reg := 0x822) hs hu ⟨by decide, by decide, by decide, by decide⟩
    rw [hval] at hw
    refine ⟨t, ht, ?_⟩
    cases hj : s.handleNode s.snsel with
    | none =>
      have hnone : s.snJob = none := by rw [State.snJob, hj]; rfl
      rwa [State.snstat, hnone] at hw
    | some x =>
      have hsome : s.snJob = some (s.nodeJob x) := by rw [State.snJob, hj]; rfl
      rwa [State.snstat_eq hsome] at hw
  · have hacc := unitAcc_of_coreReserved h
    have hsw : ¬ (0x100 ≤ reg ∧ reg ≤ 0x11F) := by
      unfold coreReserved at h
      omega
    exact execSrd_traps (by rw [State.regCheck_unit hu hsw, if_pos (.inl hacc)])

end Sys2Proof.Proofs
end

section
/-! PROOFS. TIME, TRAP and ERET: clocks, the trap paths, and the end of a freeze whose handlers have returned (R177 to R179, R295, R296, R302, R380). -/

namespace Sys2Proof.Machine
open Sys2Proof.Claims

/-! ### Effects in sequence -/

theorem Effect.trans {s u v : State} (h : Effect s u) (g : Effect u v) : Effect s v where
  own := ⟨g.own.rest.trans h.own.rest, fun p hp => (g.own.tiles p (by rwa [h.atU, h.here])).trans (h.own.tiles p hp),
    fun n hn => (g.own.cores n (by rwa [h.cur])).trans (h.own.cores n hn), fun n hn => (g.own.walkers n (by rwa [h.cur])).trans (h.own.walkers n hn)⟩
  engs e := (g.engs e).trans (h.engs e)
  sb := g.sb.trans h.sb
  hflag := g.hflag.trans h.hflag

/-! ### Clocks (R179, R380) -/

/-- The clock of the agent in hand shows `k`. -/
def State.setClk (s : State) (k : Clock) : State :=
  if s.atU then s.setCtile { s.ctile with clk := k } else s.setCcore { s.ccore with clk := k }

theorem State.setClk_atU {s : State} (hu : s.atU = true) (k : Clock) : s.setClk k = s.setCtile { s.ctile with clk := k } := if_pos hu
theorem State.setClk_core {s : State} (hu : s.atU = false) (k : Clock) : s.setClk k = s.setCcore { s.ccore with clk := k } :=
  if_neg (ne_true_of_eq_false hu)

theorem Effect.setClk (s : State) (k : Clock) : Effect s (s.setClk k) := by
  cases hu : s.atU with
  | true =>
    rw [State.setClk_atU hu]
    exact Effect.setCtile hu rfl rfl rfl
  | false =>
    rw [State.setClk_core hu]
    exact Effect.setCcore hu _

theorem State.setClk_loopsOf (s : State) (k : Clock) : (s.setClk k).loopsOf = s.loopsOf := by
  cases hu : s.atU with
  | true => simp [State.setClk_atU hu, State.loopsOf, hu]
  | false => simp [State.setClk_core hu, State.loopsOf, hu, State.setCcore_ccore]

theorem State.setClk_rdG (s : State) (k : Clock) (n : Nat) : (s.setClk k).rdG n = s.rdG n := by
  cases hu : s.atU with
  | true => simp [State.setClk_atU hu, State.rdG, hu]
  | false => simp [State.setClk_core hu, State.rdG, hu, State.setCcore_ccore]

/-- A word that reads the clock of its agent into `g[rd]`: what it leaves, but for the ticks of the free values. -/
theorem clockWord (s : State) (k : Clock) (rd tick : Nat) (v : Word) :
    let n : Need := { dest := rd, lat := 2 }
    let s0 : State := { s with tick := tick }
    let t := ((s0.setClk k).wrG rd v).commitScalar n .fall
    fallsThrough s t ∧ OtherEngines s t ∧ (t.rdG rd = if rd = 0 then 0 else v) ∧ (∀ k, k ≠ rd → t.rdG k = s.rdG k) ∧
      { t.offAgents with tick := s.tick } = s.offAgents ∧
      (s.atU = true → { t.ctile.bare with g := s.ctile.g } = ({ s.ctile with clk := k } : Tile).bare) ∧
      (s.atU = false → { t.ccore.bare with g := s.ccore.g } = ({ s.ccore with clk := k } : CCore).bare) ∧
      (∀ p, s.atU = false ∨ p ≠ s.here → t.tile p = s.tile p) ∧
      (∀ n, s.cur.agent ≠ .core n → t.core n = s.core n) ∧ ∀ n, s.cur.agent ≠ .walker n → t.walker n = s.walker n := by
  intro n s0 t
  have b : Booked s0 ((s0.setClk k).wrG rd v) t n .fall := ((Effect.setClk s0 k).trans (Effect.wrG _ rd v)).book n .fall noCtl_pushes
  have hg (i : Nat) : t.rdG i = if i = 0 then 0 else if i = rd then v else s.rdG i := by
    rw [b.g, State.rdG_wrG, State.setClk_rdG]
    rfl
  refine ⟨b.fallsThrough ?_, ⟨b.engines.others, b.engines.own⟩, ?_, fun i hi => ?_, ?_, fun hu => ?_, fun hu => ?_, b.own.tiles, b.own.cores, b.own.walkers⟩
  · rw [State.wrG_loopsOf, State.setClk_loopsOf]
  · rw [hg, if_pos rfl]
  · rw [hg, if_neg hi]
    by_cases h0 : i = 0
    · rw [if_pos h0, h0, State.rdG_zero]
    · rw [if_neg h0]
  · rw [b.own.rest]
    rfl
  · have hb := State.wrG_bare (s0.setClk k) rd v (((Effect.setClk s0 k).atU).trans hu)
    rw [State.setClk_atU (s := s0) hu, State.setCtile_ctile] at hb
    rw [b.tile hu, State.setClk_atU (s := s0) hu]
    exact hb
  · have hb := State.wrG_bareCore (s0.setClk k) rd v (((Effect.setClk s0 k).atU).trans hu)
    rw [State.setClk_core (s := s0) hu, State.setCcore_ccore s0 _ hu] at hb
    rw [b.core hu, State.setClk_core (s := s0) hu]
    exact hb

/-- What a clock gives, by the two deviations that it draws. -/
theorem State.reading_eq (s : State) (k : Clock) : ∃ d e, d < 5 ∧ e < 5 ∧
    let pulse := if k.epoch = s.pulses then k.hold else max k.last (max s.tbPulse (s.tbPulse + e - 2))
    let r := if s.tb ≤ pulse then pulse else max (max k.last pulse) (s.tb + d - 2)
    s.reading k = ({ last := r, hold := pulse, epoch := s.pulses }, { s with tick := s.tick + 1 + 1 }) := by
  refine ⟨Config.tbSkew (s.tick + 1) % 5, Config.tbSkew s.tick % 5, Nat.mod_lt _ (by decide), Nat.mod_lt _ (by decide), ?_⟩
  rw [Nat.max_comm s.tbPulse]
  rfl

theorem execTime_reads {s : State} (hs : s.prompt) (rd : Nat) {k : Clock} {tick : Nat}
    (h : s.reading (if s.atU then s.ctile.clk else s.ccore.clk) = (k, { s with tick := tick })) :
    execTime rd s = .next (((State.setClk { s with tick := tick } k).wrG rd (BitVec.ofNat 64 k.last + if s.atU then s.region.timeoff else 0)).commitScalar
      { dest := rd, lat := 2 } .fall) := by
  refine congrArg Host.Outcome.next (State.scalarWord_prompt hs (reads := []) (rd := rd) (lat := 2) (unit := none) ?_)
  cases hu : s.atU with
  | true =>
    have hk : s.reading s.ctile.clk = (k, { s with tick := tick }) := by simpa [hu] using h
    rw [State.worldTime, hu, if_pos rfl, hk, State.setClk_atU (s := { s with tick := tick }) hu]
    rfl
  | false =>
    have hk : s.reading s.ccore.clk = (k, { s with tick := tick }) := by simpa [hu] using h
    rw [State.worldTime, hu, if_neg Bool.false_ne_true, hk, State.setClk_core (s := { s with tick := tick }) hu, if_neg Bool.false_ne_true]
    rw [show BitVec.ofNat 64 k.last + (0 : Word) = BitVec.ofNat 64 k.last from BitVec.add_zero _]

theorem execSrd_tbnow {s : State} (hs : s.prompt) (hu : s.atU = false) (rd : Nat) {k : Clock} {tick : Nat}
    (h : s.reading s.ccore.clk = (k, { s with tick := tick })) :
    execSrd rd 0x870 s = .next (((State.setClk { s with tick := tick } k).wrG rd (BitVec.ofNat 64 k.last + 0)).commitScalar { dest := rd, lat := 2 } .fall) := by
  have hp : s.regCheck 0x870 false = none := by
    rw [State.regCheck_unit hu (by decide)]
    rfl
  have hread : s.sysRead 0x870 = (State.setClk { s with tick := tick } k, BitVec.ofNat 64 k.last) := by
    rw [State.sysRead, hu, if_neg Bool.false_ne_true, if_neg (by decide), if_neg (by decide), if_pos rfl, h, State.setClk_core (s := { s with tick := tick }) hu]
  have hoff : BitVec.ofNat 64 k.last + (0 : Word) = BitVec.ofNat 64 k.last := BitVec.add_zero _
  rw [execSrd, hp, hoff]
  refine congrArg Host.Outcome.next (State.scalarWord_prompt hs (reads := []) (rd := rd) (lat := 2) (unit := none) ?_)
  rw [hread]

end Sys2Proof.Machine

namespace Sys2Proof.Proofs
open Sys2Proof.Machine Sys2Proof.Claims

/-- Settles O21, by the reading of the clock in hand and its two free deviations. -/
theorem time : Obligations.Time := by
  intro rd i off s hs hi
  obtain ⟨d, e, hd, he, hread⟩ := s.reading_eq (if s.atU then s.ctile.clk else s.ccore.clk)
  rcases hi with ⟨rfl, rfl⟩ | ⟨rfl, hu, rfl⟩
  · obtain ⟨hf, ho, hrest⟩ := clockWord s _ rd (s.tick + 1 + 1) (BitVec.ofNat 64 _ + if s.atU then s.region.timeoff else 0)
    exact ⟨_, d, e, execTime_reads hs rd hread, hd, he, hf, ho, hrest⟩
  · rw [hu, if_neg Bool.false_ne_true] at hread
    refine ⟨_, d, e, execSrd_tbnow hs hu rd hread, hd, he, ?_⟩
    rw [hu, if_neg Bool.false_ne_true]
    obtain ⟨hf, ho, hrest⟩ := clockWord s _ rd (s.tick + 1 + 1) (BitVec.ofNat 64 _ + 0)
    rw [hu] at hrest
    exact ⟨hf, ho, hrest⟩

end Sys2Proof.Proofs
end

section
/-! PROOFS. TRAP and ERET: the trap paths, and the end of a freeze whose handlers have returned (R177, R178, R295, R296, R302). -/

namespace Sys2Proof.Machine
open Sys2Proof.Claims

/-! ### TRAP (R177, R295, R302) -/

theorem State.setRegion_ctile {s : State} {r : Slot} (h : r.phys s.cur.tile = s.region.phys s.cur.tile) : (s.setRegion r).ctile = s.ctile := by
  have hhere : (s.setRegion r).here = s.here := by
    rw [State.here, State.setRegion_region]
    exact h
  rw [State.ctile, hhere]
  rfl

theorem State.inHandler_core {s : State} (hu : s.atU = false) : s.inHandler = false := by
  rw [State.inHandler, hu, Bool.false_and, Bool.false_and]

theorem State.takeTrap_clocked {s : State} (hc : s.clocked = true) (h : s.ctile.trapNow = none) {x : Trap} (hp : x.cause ≠ .poison) (hs : x.cause ≠ .sdc) :
    s.takeTrap x = s.setCtile { s.ctile with trapNow := some (x.record s.cur), again := s.ctile.again ||| 2 ^ s.cur.eng } := by
  obtain ⟨hu, hh⟩ := State.clocked_iff.mp hc
  have hnote : s.noteTrap x = s := if_neg (by simp [hp, hs])
  rw [State.takeTrap, if_pos hu, hnote, if_neg (ne_true_of_eq_false hh), Tile.record, h]

theorem State.takeTrap_handler {s : State} (hh : s.inHandler = true) {x : Trap} (hp : x.cause ≠ .poison) (hs : x.cause ≠ .sdc) :
    s.takeTrap x = s.handlerFault x := by
  have hnote : s.noteTrap x = s := if_neg (by simp [hp, hs])
  rw [State.takeTrap, if_pos (State.atU_of_inHandler hh), hnote, if_pos hh]

theorem State.takeTrap_core {s : State} (hu : s.atU = false) (h : s.ccore.inTrap = false) (x : Trap) : s.takeTrap x =
    s.setCcore { s.ccore with ccret := s.cur.first % 2 ^ 16, ccCause := x.cause.code, ccInt := false, inTrap := true, step := s.ccore.ccvec } := by
  rw [State.takeTrap, hu, if_neg Bool.false_ne_true, State.coreTrap, CCore.trap, h]
  rfl

/-- A second trap in the trap path stops the core. -/
theorem State.takeTrap_core_again {s : State} (hu : s.atU = false) (h : s.ccore.inTrap = true) (x : Trap) : s.takeTrap x =
    { s.setCcore { s.ccore with halted := true, failed := true } with
      healthLog := (s.setCcore { s.ccore with halted := true, failed := true }).healthLog ++ [coreLogNo s.cur.agent] } := by
  rw [State.takeTrap, hu, if_neg Bool.false_ne_true, State.coreTrap, CCore.trap, if_pos h, if_pos h]

section
variable {s : State} (hs : s.prompt) (code : Nat)

include hs in
theorem execTrap_raises (hh : s.inHandler = false) : execTrap code s = .next (s.takeTrap { cause := .brk, opd0 := some code, tret := some s.cur.nextStep }) :=
  congrArg Host.Outcome.next (State.scalarWord_traps hs ⟨State.noHandler_none hh, rfl, rfl, noCtl_pops, noCtl_pushes⟩ rfl)

theorem execTrap_handler (hh : s.inHandler = true) : execTrap code s = .next (s.takeTrap ill) := by
  rw [execTrap, State.noHandler, if_pos hh]
  rfl
end

/-- What the fault of a handler leaves (R295). -/
theorem State.handlerFault_leaves (s : State) (x : Trap) : let t := s.handlerFault x
    offRegions t = offRegions s ∧ (∀ p, p ≠ s.here → t.tile p = s.tile p) ∧ (∀ m, m ≠ s.slotNo → t.slot m = s.slot m) ∧
      t.region = { s.region with hfault := true } ∧ t.ctile = { s.ctile.writeRecord (x.record s.cur) s.now with hflag := false, again := s.ctile.again ||| 1 } := by
  refine ⟨rfl, fun p hp => State.setCtile_tile_other s _ hp, fun m hm => Store.get_put_other _ _ hm _, State.setRegion_region _ _, ?_⟩
  rw [State.handlerFault, State.setRegion_ctile, State.setCtile_ctile]
  · rfl
  · rfl

/-! ### Every tile of a region in turn -/

/-- The tiles of slot `n` at the indices `l` take `f`, one after the other. -/
def State.overTiles (s : State) (n : Nat) (f : Nat → Tile → Tile) (l : List Nat) : State := l.foldl (fun u t => u.setTileAt n t (f t (u.tileAt n t))) s

section
variable (n : Nat) (f : Nat → Tile → Tile)

theorem State.overTiles_rest (l : List Nat) (s : State) : { s.overTiles n f l with tiles := s.tiles } = s := by
  induction l generalizing s with
  | nil => rfl
  | cons a l ih =>
    have hrest := ih (s.setTileAt n a (f a (s.tileAt n a)))
    exact congrArg (fun u : State => { u with tiles := s.tiles }) hrest

theorem State.overTiles_slot (l : List Nat) (s : State) (m : Nat) : (s.overTiles n f l).slot m = s.slot m := by
  have hslots : (s.overTiles n f l).slots = s.slots := by rw [← congrArg State.slots (s.overTiles_rest n f l)]
  rw [State.slot, hslots, State.slot]

theorem State.overTiles_other {l : List Nat} {p : Nat} (s : State) (h : ∀ k, k ∈ l → (s.slot n).phys k ≠ p) : (s.overTiles n f l).tile p = s.tile p := by
  induction l generalizing s with
  | nil => rfl
  | cons a l ih =>
    have hrest := ih (s.setTileAt n a (f a (s.tileAt n a))) (fun k hk => h k (List.mem_cons_of_mem _ hk))
    exact hrest.trans (State.setTile_tile_other s (h a List.mem_cons_self).symm _)

theorem State.overTiles_tileAt {l : List Nat} {k : Nat} (s : State) (hd : l.Nodup)
    (hinj : ∀ a b, a ∈ l → b ∈ l → (s.slot n).phys a = (s.slot n).phys b → a = b) (hk : k ∈ l) : (s.overTiles n f l).tileAt n k = f k (s.tileAt n k) := by
  have hat (u : State) (hu : u.slot n = s.slot n) : u.tileAt n k = u.tile ((s.slot n).phys k) := by rw [State.tileAt, hu]
  rw [hat _ (s.overTiles_slot n f l n)]
  induction l generalizing s with
  | nil => nomatch hk
  | cons a l ih =>
    obtain ⟨ha, hd⟩ := List.nodup_cons.mp hd
    rcases List.mem_cons.mp hk with rfl | hk
    · have hrest := State.overTiles_other n f (l := l) (p := (s.slot n).phys k) (s.setTileAt n k (f k (s.tileAt n k))) (fun b hb heq => by
        exact ha (hinj b k (List.mem_cons_of_mem _ hb) List.mem_cons_self heq ▸ hb))
      exact hrest.trans (State.setTile_tile_same s _ _)
    · have hne : (s.slot n).phys k ≠ (s.slot n).phys a := fun heq => ha (hinj k a (List.mem_cons_of_mem _ hk) List.mem_cons_self heq ▸ hk)
      have hrest := ih (s.setTileAt n a (f a (s.tileAt n a))) hd (fun x y hx hy => hinj x y (List.mem_cons_of_mem _ hx) (List.mem_cons_of_mem _ hy)) hk
        (fun u hu => hat u hu)
      exact hrest.trans (congrArg (f k) (State.setTile_tile_other s hne _))
end

/-- Every tile of a region whose footprint keeps them apart. -/
theorem State.overTiles_region {s : State} {n : Nat} (f : Nat → Tile → Tile) (h : apart (s.slot n)) {k : Nat} (hk : k < (s.slot n).count) :
    (s.overTiles n f (s.tiles6 n)).tileAt n k = f k (s.tileAt n k) :=
  State.overTiles_tileAt n f s List.nodup_range (fun a b ha hb => h a b (List.mem_range.mp ha) (List.mem_range.mp hb)) (List.mem_range.mpr hk)

/-! ### The control cores are told (Table 18.4) -/

theorem State.foldl_raise_core (mask k : Nat) (l : List Nat) (hd : l.Nodup) (m : Store CCore) :
    Store.get ({} : CCore) k (l.foldl (fun m n => Store.put ({} : CCore) n { Store.get ({} : CCore) n m with ipend := (Store.get ({} : CCore) n m).ipend ||| mask } m) m) =
      if k ∈ l then { Store.get ({} : CCore) k m with ipend := (Store.get ({} : CCore) k m).ipend ||| mask } else Store.get ({} : CCore) k m := by
  induction l generalizing m with
  | nil => simp
  | cons a l ih =>
    obtain ⟨ha, hd⟩ := List.nodup_cons.mp hd
    rw [List.foldl_cons, ih hd]
    by_cases hka : k = a
    · subst hka
      rw [if_neg ha, if_pos List.mem_cons_self, Store.get_put_same]
    · rw [Store.get_put_other _ _ hka]
      simp only [List.mem_cons, hka, false_or]

theorem State.raiseCC_told (s : State) (mask : Nat) : told s (s.raiseCC mask) mask := by
  intro k hk
  have hmem : k ∈ List.range Config.coreCount := List.mem_range.mpr hk
  simp only [State.core, State.raiseCC]
  rw [State.foldl_raise_core mask k _ List.nodup_range, if_pos hmem]

end Sys2Proof.Machine

namespace Sys2Proof.Proofs
open Sys2Proof.Machine Sys2Proof.Claims

theorem trap_clocked {s : State} (hs : s.prompt) (code : Nat) (hc : s.clocked = true) (h : s.ctile.trapNow = none) :
    ∃ t, exec (.trap code) s = .next t ∧ OwnAgent s t ∧ t.ctile = { s.ctile with
      trapNow := some { cause := .brk, eng := s.cur.eng, step := s.cur.step, opd0 := BitVec.ofNat 64 code, opd1 := 0, tret := some s.cur.nextStep },
      again := s.ctile.again ||| 2 ^ s.cur.eng } := by
  obtain ⟨hu, hh⟩ := State.clocked_iff.mp hc
  have hexec : exec (.trap code) s = .next (s.takeTrap { cause := .brk, opd0 := some code, tret := some s.cur.nextStep }) := execTrap_raises hs code hh
  rw [State.takeTrap_clocked (x := { cause := .brk, opd0 := some code, tret := some s.cur.nextStep }) hc h nofun nofun] at hexec
  exact ⟨_, hexec, OwnAgent.setCtile hu _, State.setCtile_ctile _ _⟩

theorem trap_core {s : State} (hs : s.prompt) (code : Nat) (hu : s.atU = false) (h : s.ccore.inTrap = false) :
    ∃ t, exec (.trap code) s = .next t ∧ OwnAgent s t ∧
      t.ccore = { s.ccore with ccret := s.cur.first % 65536, ccCause := 0x11, ccInt := false, inTrap := true, step := s.ccore.ccvec } := by
  have hexec : exec (.trap code) s = .next (s.takeTrap { cause := .brk, opd0 := some code, tret := some s.cur.nextStep }) :=
    execTrap_raises hs code (State.inHandler_core hu)
  rw [State.takeTrap_core hu h] at hexec
  exact ⟨_, hexec, OwnAgent.setCcore hu _, State.setCcore_ccore _ _ hu⟩

theorem trap_core_again {s : State} (hs : s.prompt) (code : Nat) {k : Nat} (ha : s.cur.agent = .core k) (h : s.ccore.inTrap = true) :
    ∃ t u, exec (.trap code) s = .next t ∧ u = { s with healthLog := s.healthLog ++ [k] } ∧
      OwnAgent u t ∧ t.ccore = { s.ccore with halted := true, failed := true } := by
  have hu := State.atU_of_core ha
  have hexec : exec (.trap code) s = .next (s.takeTrap { cause := .brk, opd0 := some code, tret := some s.cur.nextStep }) :=
    execTrap_raises hs code (State.inHandler_core hu)
  rw [State.takeTrap_core_again hu h, ha] at hexec
  have hset (u : State) (hk : u.cur.agent = .core k) (c : CCore) : u.setCcore c = u.setCore k c := by rw [State.setCcore, hk]
  rw [hset s ha] at hexec
  refine ⟨_, { s with healthLog := s.healthLog ++ [k] }, hexec, rfl, ?_, ?_⟩
  · have ho := OwnAgent.setCcore (s := { s with healthLog := s.healthLog ++ [k] }) hu { s.ccore with halted := true, failed := true }
    rwa [hset { s with healthLog := s.healthLog ++ [k] } ha] at ho
  · have hg := State.setCcore_ccore { s with healthLog := s.healthLog ++ [k] } { s.ccore with halted := true, failed := true } hu
    rwa [hset { s with healthLog := s.healthLog ++ [k] } ha] at hg

theorem trap_handler {s : State} (code : Nat) (hh : s.inHandler = true) :
    ∃ t, exec (.trap code) s = .next t ∧ offRegions t = offRegions s ∧ (∀ p, p ≠ s.here → t.tile p = s.tile p) ∧
      (∀ m, m ≠ s.slotNo → t.slot m = s.slot m) ∧ t.region = { s.region with hfault := true } ∧
      t.ctile.hflag = false ∧ t.ctile.tcause = BitVec.ofNat 64 (Cause.ill.code + s.cur.eng * 2 ^ 8 + s.now % 2 ^ 48 * 2 ^ 12) ∧
      t.ctile.tstep = BitVec.ofNat 64 s.cur.step ∧ t.ctile.engs = s.ctile.engs ∧ t.ctile.g = s.ctile.g ∧ t.ctile.sram = s.ctile.sram := by
  have hexec : exec (.trap code) s = .next (s.takeTrap ill) := execTrap_handler code hh
  rw [State.takeTrap_handler hh (by decide) (by decide)] at hexec
  obtain ⟨hoff, htiles, hslots, hregion, htile⟩ := s.handlerFault_leaves ill
  refine ⟨_, hexec, hoff, htiles, hslots, hregion, ?_⟩
  rw [htile]
  exact ⟨rfl, rfl, rfl, rfl, rfl, rfl⟩

end Sys2Proof.Proofs
end

section
/-! PROOFS. ERET: the return of a core and of a handler, and the end of a freeze whose last handler has returned (R178, R295 to R298, R302, R339). -/

namespace Sys2Proof.Machine
open Sys2Proof.Claims

/-! ### The return of a handler (R178, R295) -/

/-- A tile whose handler has executed ERET. -/
def Tile.returned (x : Tile) (c : Cur) (hcyc : Nat) : Tile :=
  { x.commitHandler {} (.back (bits x.tret.toNat 0 16)) c hcyc with hflag := false, hreplay := x.tret.getLsbD 63 }

/-- The state in which the handler of the tile in hand has returned. -/
structure Returned (s u : State) : Prop where
  own : OwnAgent s u
  cores : u.cores = s.cores
  tile : u.ctile = s.ctile.returned s.cur s.region.hcyc

section
variable {s u : State} (h : Returned s u)
include h
theorem Returned.cur : u.cur = s.cur := (congrArg State.cur h.own.rest : u.offAgents.cur = s.offAgents.cur)
theorem Returned.slots : u.slots = s.slots := (congrArg State.slots h.own.rest : u.offAgents.slots = s.offAgents.slots)
theorem Returned.mem : u.mem = s.mem := (congrArg State.mem h.own.rest : u.offAgents.mem = s.offAgents.mem)
theorem Returned.snaps : u.snaps = s.snaps := (congrArg State.snaps h.own.rest : u.offAgents.snaps = s.offAgents.snaps)
theorem Returned.slot (n : Nat) : u.slot n = s.slot n := by rw [State.slot, h.slots, State.slot]
theorem Returned.slotNo : u.slotNo = s.slotNo := by rw [State.slotNo, h.cur, State.slotNo]
theorem Returned.region : u.region = s.region := by rw [State.region, h.slot, h.slotNo, State.region]
theorem Returned.here : u.here = s.here := by rw [State.here, h.region, h.cur, State.here]
theorem Returned.atHere : u.tile s.here = s.ctile.returned s.cur s.region.hcyc := by rw [← h.tile, State.ctile, h.here]
theorem Returned.tileAt_own : u.tileAt s.slotNo s.cur.tile = s.ctile.returned s.cur s.region.hcyc := by
  rw [State.tileAt, h.slot]
  exact h.atHere
theorem Returned.tileAt_other {k : Nat} (hk : s.region.phys k ≠ s.here) : u.tileAt s.slotNo k = s.tileAt s.slotNo k := by
  rw [State.tileAt, h.slot]
  exact h.own.tiles _ (.inr hk)

/-- What a return leaves of a tile is the same for every tile of the region. -/
theorem Returned.keeps {α : Type} (f : Tile → α) (hf : f (s.ctile.returned s.cur s.region.hcyc) = f s.ctile) (k : Nat) :
    f (u.tileAt s.slotNo k) = f (s.tileAt s.slotNo k) := by
  by_cases hk : s.region.phys k = s.here
  · rw [State.tileAt, h.slot, State.tileAt]
    have hown : f (u.tile s.here) = f (s.tile s.here) := (congrArg f h.atHere).trans hf
    rwa [← hk] at hown
  · rw [h.tileAt_other hk]

theorem Returned.replayOk : u.replayOk s.slotNo = s.replayOk s.slotNo := by
  have hone (k : Nat) := h.keeps (fun x => (x.seg.opened, x.entryOk, x.entrySegcyc)) rfl k
  have hopen (k : Nat) : (u.tileAt s.slotNo k).seg.opened = (s.tileAt s.slotNo k).seg.opened := congrArg Prod.fst (hone k)
  have hentry (k : Nat) : (u.tileAt s.slotNo k).entryOk = (s.tileAt s.slotNo k).entryOk := congrArg (fun q => q.2.1) (hone k)
  have hcyc (k : Nat) : (u.tileAt s.slotNo k).entrySegcyc = (s.tileAt s.slotNo k).entrySegcyc := congrArg (fun q => q.2.2) (hone k)
  simp only [State.replayOk, State.tiles6, h.slot, hopen, hentry, hcyc]
end

theorem execEret_returns {s : State} (hh : s.inHandler = true) (hs : s.prompt) : ∃ u, Returned s u ∧ OtherEngines s u ∧
    u.pcOf = s.ctile.tret.toNat % 65536 ∧ u.loopsOf = s.loopsOf ∧
    u.ctile.bare = ({ s.ctile with hflag := false, hreplay := s.ctile.tret.getLsbD 63 } : Tile).bare ∧
    execEret s = .next (if s.region.hfault || (s.tiles6 s.slotNo).any (fun k => (u.tileAt s.slotNo k).hflag) then u else u.endHandlers s.slotNo) := by
  have hu := State.atU_of_inHandler hh
  let p := bits s.ctile.tret.toNat 0 16
  let x := s.ctile.commitHandler {} (.back p) s.cur s.region.hcyc
  have hgo : s.scalarGate {} = .go := State.scalarGate_go _ hs rfl rfl noCtl_pops
  have hword : s.scalarWord {} (fun a => .ok (a, .back (bits a.ctile.tret.toNat 0 16))) = s.setCtile x := by
    rw [State.scalarWord_prompt hs (reads := []) (rd := 0) (lat := 1) (unit := none) rfl, State.commitScalar_handler _ _ hu hh]
  have hown : Returned s ((s.setCtile x).setCtile (s.ctile.returned s.cur s.region.hcyc)) :=
    ⟨OwnAgent.setCtile_twice hu _ _, rfl, State.setCtile_ctile _ _⟩
  have hbit : (bits s.ctile.tret.toNat 63 1 == 1) = s.ctile.tret.getLsbD 63 :=
    (bits_one_beq _ _).trans (BitVec.testBit_toNat _)
  refine ⟨_, hown, ⟨fun e he => ?_, ?_⟩, ?_, ?_, ?_, ?_⟩
  · rw [State.setCtile_ctile]
    exact Tile.commitHandler_other s.ctile {} (.back p) s.cur s.region.hcyc he
  · rw [State.setCtile_ctile]
    have hown := Tile.commitHandler_own s.ctile {} (.back p) s.cur s.region.hcyc
    exact ⟨(congrArg Eng.st hown :), (congrArg Eng.base hown :), (congrArg Eng.run hown :)⟩
  · simp only [State.pcOf, State.setCtile_atU, hu, if_true, State.setCtile_ctile]
    exact (congrArg Eng.step (Tile.commitHandler_own s.ctile {} (.back p) s.cur s.region.hcyc)).trans (by simp [Flow.next, p, bits])
  · simp only [State.loopsOf, State.setCtile_atU, hu, if_true, State.setCtile_ctile]
    rfl
  · rw [State.setCtile_ctile]
    rfl
  · have hleave : (s.setCtile x).leaveHandler = if s.region.hfault || (s.tiles6 s.slotNo).any (fun k =>
        (((s.setCtile x).setCtile (s.ctile.returned s.cur s.region.hcyc)).tileAt s.slotNo k).hflag)
        then (s.setCtile x).setCtile (s.ctile.returned s.cur s.region.hcyc)
        else ((s.setCtile x).setCtile (s.ctile.returned s.cur s.region.hcyc)).endHandlers s.slotNo := by
      rw [State.leaveHandler, State.setCtile_ctile, Tile.returned, ← hbit]
      rfl
    rw [execEret, hu, hh, hword, hgo]
    exact congrArg Host.Outcome.next hleave

/-! ### The end of the freeze (R296 to R298, R339) -/

theorem State.joinRoll_idle {s : State} {n : Nat} (h : (s.snap (s.slot n).job).st ≠ .rolling) : s.joinRoll n = s := by
  rw [State.joinRoll, if_neg (by simpa using h)]

/-- What a freeze without a record leaves: the region's slot, and what is told. -/
theorem State.plainFreeze_leaves (s : State) (n : Nat) : let t := s.plainFreeze n
    (∃ e d, t.slot n = { s.slot n with
        st := .frozen, fz := false, frozenAt := (s.slot n).rcc, trapped := false, handler := false, ntrap := 0, ftile := 0, holding := false,
        err := e, done := d }) ∧
      (∀ m, m ≠ n → t.slot m = s.slot m) ∧ t.mem = s.mem ∧ t.tiles = s.tiles ∧ t.cur = s.cur := by
  intro t
  rw [show t = s.plainFreeze n from rfl, State.plainFreeze, State.endFreeze]
  split
  · exact ⟨⟨_, _, State.setSlot_slot_same _ _ _⟩, fun m hm => State.setSlot_slot_other _ hm _, rfl, rfl, rfl⟩
  · refine ⟨⟨0, true, ?_⟩, fun m hm => ?_, State.cmdDone_mem _ _ _, rfl, rfl⟩
    · rw [State.cmdDone_slot, State.setSlot_slot_same]
    · rw [State.cmdDone_slot_other _ _ hm, State.setSlot_slot_other _ hm]

/-- A region whose job's package is ROLLING freezes at once. -/
theorem State.joinRoll_rolling {s : State} {n : Nat} (h : (s.snap (s.slot n).job).st = .rolling) (hp : (s.slot n).pos ≠ 0) : let t := s.joinRoll n
    (t.slot n).st = .frozen ∧ (t.slot n).rcc = (s.slot n).rcc ∧ (t.slot n).trapped = false ∧ (t.slot n).phys = (s.slot n).phys ∧
      (∀ m, m ≠ n → t.slot m = s.slot m) ∧ t.mem = s.mem ∧ t.tiles = s.tiles ∧ t.cur = s.cur := by
  have hjoin : s.joinRoll n = (s.setSlot n { s.slot n with pos := 6 * (s.slot n).count + 1 }).plainFreeze n := by
    rw [State.joinRoll, h]
    simp only [beq_self_eq_true, if_true, hp, if_false]
  intro t
  obtain ⟨⟨e, d, hslot⟩, hother, hmem, htiles, hcur⟩ := State.plainFreeze_leaves (s.setSlot n { s.slot n with pos := 6 * (s.slot n).count + 1 }) n
  rw [State.setSlot_slot_same] at hslot
  rw [show t = s.joinRoll n from rfl, hjoin, hslot]
  exact ⟨rfl, rfl, rfl, rfl, fun m hm => (hother m hm).trans (State.setSlot_slot_other s hm _), hmem, htiles, hcur⟩

/-- A thawed tile (R296): a trapping SQ goes on at TRET.STEP. -/
theorem Tile.thaw_other (x : Tile) (c : Nat) {e : Nat} (he : e ≠ 0) : (x.thaw c false).eng e = x.eng e := by
  unfold Tile.thaw
  split
  · exact Tile.setEng_eng_other x he _
  · rfl

theorem Tile.thaw_again {x : Tile} (c : Nat) (h : x.again.testBit 0 = true) : ((x.thaw c false).eng 0).step = x.tret.toNat % 65536 := by
  have hbit : bits x.again 0 1 = 1 := by simpa [← bits_one_beq] using h
  unfold Tile.thaw
  rw [if_pos hbit]
  exact (congrArg Eng.step (Tile.setEng_eng_same x 0 _)).trans (by simp [bits])

theorem Tile.thaw_own {x : Tile} (c : Nat) (h : x.again.testBit 0 = false) : (x.thaw c false).eng 0 = x.eng 0 := by
  have hbit : ¬ bits x.again 0 1 = 1 := by simpa [← bits_one_beq] using h
  unfold Tile.thaw
  rw [if_neg hbit]
  rfl

theorem Tile.thaw_hflag (x : Tile) (c : Nat) : (x.thaw c false).hflag = x.hflag := by
  unfold Tile.thaw
  split <;> rfl

/-- The state before a rollback that waits is joined. -/
def State.goneOn (s : State) (n : Nat) : State :=
  let t := s.overTiles n (fun _ x => x.thaw (s.slot n).rcc false) (s.tiles6 n)
  t.setSlot n { s.slot n with st := .running, trapped := false, handler := false, replaying := false, pos := 6 * (s.slot n).count + 1 }

theorem State.thaw_eq (s : State) (n : Nat) : s.thaw n false = (s.goneOn n).joinRoll n := by
  have hslot := State.overTiles_slot n (fun _ x => x.thaw (s.slot n).rcc false) (s.tiles6 n) s n
  exact congrArg (fun r : Slot => ((s.overTiles n (fun _ x => x.thaw (s.slot n).rcc false) (s.tiles6 n)).setSlot n
    { r with st := .running, trapped := false, handler := false, replaying := false, pos := 6 * (s.slot n).count + 1 }).joinRoll n) hslot

/-- What the continuation of a region leaves. -/
structure ThawLeaves (s t : State) (n : Nat) : Prop where
  cur : t.cur = s.cur
  mem : t.mem = s.mem
  slots : ∀ m, m ≠ n → t.slot m = s.slot m
  phys : (t.slot n).phys = (s.slot n).phys
  goes : (s.snap (s.slot n).job).st ≠ .rolling → t.slot n =
    { s.slot n with st := .running, trapped := false, handler := false, replaying := false, pos := 6 * (s.slot n).count + 1 }
  joins : (s.snap (s.slot n).job).st = .rolling → (t.slot n).st = .frozen ∧ (t.slot n).rcc = (s.slot n).rcc ∧ (t.slot n).trapped = false
  tiles : ∀ k, k < (s.slot n).count → t.tileAt n k = (s.tileAt n k).thaw (s.slot n).rcc false

theorem State.thaw_leaves {s : State} {n : Nat} (ha : apart (s.slot n)) : ThawLeaves s (s.thaw n false) n := by
  have hrest := s.overTiles_rest n (fun _ x => x.thaw (s.slot n).rcc false) (s.tiles6 n)
  have hsnaps : (s.goneOn n).snaps = s.snaps := (congrArg State.snaps hrest :)
  have hmem : (s.goneOn n).mem = s.mem := (congrArg State.mem hrest :)
  have hcur : (s.goneOn n).cur = s.cur := (congrArg State.cur hrest :)
  have hslot : (s.goneOn n).slot n = _ := State.setSlot_slot_same _ _ _
  have hother {m : Nat} (hm : m ≠ n) : (s.goneOn n).slot m = s.slot m := (State.setSlot_slot_other _ hm _).trans (State.overTiles_slot ..)
  have hphys : ((s.goneOn n).slot n).phys = (s.slot n).phys := by rw [hslot]; rfl
  have htiles {k : Nat} (hk : k < (s.slot n).count) : (s.goneOn n).tileAt n k = (s.tileAt n k).thaw (s.slot n).rcc false := by
    have hover := State.overTiles_region (fun _ x => x.thaw (s.slot n).rcc false) ha hk
    rw [State.tileAt, State.overTiles_slot] at hover
    rw [State.tileAt, hphys]
    exact hover
  have hsnap : ((s.goneOn n).snap ((s.goneOn n).slot n).job) = s.snap (s.slot n).job := by rw [State.snap, hsnaps, hslot]; rfl
  rw [State.thaw_eq]
  by_cases hr : (s.snap (s.slot n).job).st = .rolling
  · obtain ⟨hst, hrcc, htrap, hp, hslots, hm, ht, hc⟩ := State.joinRoll_rolling (s := s.goneOn n) (n := n) (by rw [hsnap]; exact hr) (by rw [hslot]; exact Nat.succ_ne_zero _)
    refine ⟨hc.trans hcur, hm.trans hmem, fun m hne => (hslots m hne).trans (hother hne), hp.trans hphys, fun h => absurd hr h, fun _ => ⟨hst, ?_, htrap⟩, fun k hk => ?_⟩
    · rw [hrcc, hslot]
    · rw [← htiles hk, State.tileAt, hp, State.tile, ht]
      rfl
  · rw [State.joinRoll_idle (by rw [hsnap]; exact hr)]
    exact ⟨hcur, hmem, fun m => hother, hphys, fun _ => hslot, fun h => absurd h hr, fun k => htiles⟩

/-! ### The outcome of a freeze whose handlers have returned (R296) -/

section
variable {s u : State} (h : Returned s u)
include h

theorem Returned.hflag_own : u.ctile.hflag = false := by
  rw [h.tile]
  rfl

/-- No handler runs where each other tile's has returned. -/
theorem Returned.noHandler (hall : ∀ k, k < s.region.count → k ≠ s.cur.tile → (s.tileAt s.slotNo k).hflag = false) :
    (s.tiles6 s.slotNo).any (fun k => (u.tileAt s.slotNo k).hflag) = false := by
  refine List.any_eq_false.mpr fun k hk => ne_true_of_eq_false ?_
  by_cases hh : s.region.phys k = s.here
  · have hk' : u.tileAt s.slotNo k = u.ctile := by
      rw [State.tileAt, h.slot, State.ctile, h.here]
      exact congrArg u.tile hh
    rw [hk', h.hflag_own]
  · rw [h.tileAt_other hh]
    exact hall k (List.mem_range.mp hk) (fun hkt => hh (hkt ▸ rfl))

theorem Returned.someHandler (hk : ∃ k, k < s.region.count ∧ k ≠ s.cur.tile ∧ s.region.phys k ≠ s.here ∧ (s.tileAt s.slotNo k).hflag = true) :
    (s.tiles6 s.slotNo).any (fun k => (u.tileAt s.slotNo k).hflag) = true := by
  obtain ⟨k, hlt, _, hp, hf⟩ := hk
  exact List.any_eq_true.mpr ⟨k, List.mem_range.mpr hlt, by rw [h.tileAt_other hp, hf]⟩

variable (ha : apart s.region) (hcur : s.cur.tile < s.region.count)

include ha hcur in
theorem Returned.hreplay {k : Nat} (hk : k < s.region.count) :
    (u.tileAt s.slotNo k).hreplay = if k = s.cur.tile then s.ctile.tret.getLsbD 63 else (s.tileAt s.slotNo k).hreplay := by
  by_cases hkt : k = s.cur.tile
  · rw [if_pos hkt, hkt, h.tileAt_own]
    rfl
  · rw [if_neg hkt, h.tileAt_other (fun hp => hkt (ha k s.cur.tile hk hcur hp))]

theorem Returned.mem_frozenTiles {k : Nat} : k ∈ u.frozenTiles s.slotNo ↔ k < s.region.count ∧ (s.tileAt s.slotNo k).inFreeze = true := by
  rw [State.frozenTiles, List.mem_filter, h.keeps Tile.inFreeze rfl k, State.tiles6, h.slot, List.mem_range]
  rfl

include ha hcur in
theorem Returned.asks : (u.frozenTiles s.slotNo).any (fun k => (u.tileAt s.slotNo k).hreplay) = true ↔
    ∃ k, (k < s.region.count ∧ (s.tileAt s.slotNo k).inFreeze = true) ∧
      (if k = s.cur.tile then s.ctile.tret.getLsbD 63 else (s.tileAt s.slotNo k).hreplay) = true := by
  rw [List.any_eq_true]
  refine exists_congr fun k => ?_
  rw [h.mem_frozenTiles]
  exact and_congr_right fun hk => by rw [h.hreplay ha hcur hk.1]

theorem Returned.breaks : (u.frozenTiles s.slotNo).all (fun k => bits (u.tileAt s.slotNo k).tcause.toNat 0 8 == Cause.code .brk) = true ↔
    ∀ k, (k < s.region.count ∧ (s.tileAt s.slotNo k).inFreeze = true) → (s.tileAt s.slotNo k).tcause.toNat % 256 = Cause.brk.code := by
  rw [List.all_eq_true]
  refine forall_congr' fun k => ?_
  rw [h.mem_frozenTiles, h.keeps Tile.tcause rfl k, beq_iff_eq, bits, Nat.pow_zero, Nat.div_one]
  rfl

include ha hcur in
/-- The engines of a tile that goes on. -/
theorem Returned.thaw_eng {k : Nat} (hk : k < s.region.count) (c : Nat) : let x := s.tileAt s.slotNo k
    (∀ e, 1 ≤ e → ((u.tileAt s.slotNo k).thaw c false).eng e = x.eng e) ∧
    (x.again.testBit 0 = true → (((u.tileAt s.slotNo k).thaw c false).eng 0).step = x.tret.toNat % 65536) ∧
    (x.again.testBit 0 = false → k ≠ s.cur.tile → ((u.tileAt s.slotNo k).thaw c false).eng 0 = x.eng 0) := by
  have hagain := h.keeps Tile.again rfl k
  have htret := h.keeps Tile.tret rfl k
  refine ⟨fun e he => ?_, fun hx => ?_, fun hx hkt => ?_⟩
  · have hne : e ≠ 0 := by omega
    rw [Tile.thaw_other _ _ hne, h.keeps (fun x => x.eng e) (Tile.commitHandler_other s.ctile {} _ s.cur s.region.hcyc hne) k]
  · rw [Tile.thaw_again c (by rw [hagain]; exact hx), htret]
  · rw [Tile.thaw_own c (by rw [hagain]; exact hx), h.tileAt_other (fun hp => hkt (ha k s.cur.tile hk hcur hp))]
end

section
variable {s u t : State} (h : Returned s u)
include h

/-- The tile in hand keeps its flag down where the end of the freeze keeps the place of the region. -/
theorem Returned.hflag_after (hc : t.cur = s.cur) (hp : (t.slot s.slotNo).phys = s.region.phys) (ht : (t.tile s.here).hflag = (u.tile s.here).hflag) :
    t.ctile.hflag = false := by
  have hn : t.slotNo = s.slotNo := by rw [State.slotNo, hc, State.slotNo]
  have hhere : t.here = s.here := by rw [State.here, State.region, hn, hp, hc, State.here]
  rw [State.ctile, hhere, ht, h.atHere]
  rfl

/-- The end of a freeze keeps memory and the other regions, and leaves the flag of the tile in hand down. -/
structure FreezeEnds (s t : State) : Prop where
  hflag : t.ctile.hflag = false
  mem : t.mem = s.mem
  slots : ∀ m, m ≠ s.slotNo → t.slot m = s.slot m

theorem Returned.sets {q : Slot} (hq : q.phys = s.region.phys) : FreezeEnds s (u.setSlot s.slotNo q) where
  hflag := h.hflag_after h.cur (by rw [State.setSlot_slot_same, hq]) rfl
  mem := h.mem
  slots m hm := (State.setSlot_slot_other u hm q).trans (h.slot m)

theorem Returned.sets_told {q : Slot} (hq : q.phys = s.region.phys) :
    FreezeEnds s ((u.setSlot s.slotNo q).raiseCC ipTrap) ∧ ((u.setSlot s.slotNo q).raiseCC ipTrap).slot s.slotNo = q ∧
      told s ((u.setSlot s.slotNo q).raiseCC ipTrap) 1 := by
  have hset := h.sets hq
  have hcore (k : Nat) : (u.setSlot s.slotNo q).core k = s.core k := by rw [State.core, State.core, ← h.cores]; rfl
  have hslot : ((u.setSlot s.slotNo q).raiseCC ipTrap).slot s.slotNo = q := by rw [State.raiseCC_slot, State.setSlot_slot_same]
  refine ⟨⟨h.hflag_after h.cur (by rw [hslot, hq]) ?_, ?_, fun m hm => ?_⟩, hslot, fun k hk => ?_⟩
  · rw [State.raiseCC_tile]
    rfl
  · rw [State.raiseCC_mem, hset.mem]
  · rw [State.raiseCC_slot, hset.slots m hm]
  · rw [← hcore]
    exact State.raiseCC_told (u.setSlot s.slotNo q) 1 k hk
end

end Sys2Proof.Machine

namespace Sys2Proof.Proofs
open Sys2Proof.Machine Sys2Proof.Claims

theorem eret_core {s : State} (hu : s.atU = false) :
    ∃ t, exec .eret s = .next t ∧ OwnAgent s t ∧ t.ccore = { s.ccore with inTrap := false, step := s.ccore.ccret } := by
  have hcc := State.setCcore_ccore s s.ccore.eret hu
  have hu' : (s.setCcore s.ccore.eret).atU = false := by rw [State.setCcore_atU, hu]
  have hgo : s.scalarGate {} = .go := by rw [State.scalarGate, hu]; rfl
  have hword := State.scalarWord_go (body := fun a => .ok (a.setCcore a.ccore.eret, .back a.ccore.ccret)) rfl hgo
    (r := (s.setCcore s.ccore.eret, .back s.ccore.ccret)) (by rw [State.popFor_none _ _ _ noCtl_pops])
  rw [State.commitScalar_core _ _ hu', hcc] at hword
  have hexec : exec .eret s = execEret s := rfl
  rw [execEret, hu, hword] at hexec
  exact ⟨_, hexec, ((Effect.setCcore hu _).trans (Effect.setCcore hu' _)).own, State.setCcore_ccore _ _ hu'⟩

theorem eret_clocked {s : State} (hc : s.clocked = true) : exec .eret s = .next (s.takeTrap ill) := by
  obtain ⟨hu, hh⟩ := State.clocked_iff.mp hc
  have hexec : exec .eret s = execEret s := rfl
  rwa [execEret, hu, hh] at hexec

/-- The return of a handler that is not the last of its freeze, or whose freeze has had a fault. -/
theorem eret_handler {s : State} (hh : s.inHandler = true) (hs : s.prompt) (hmore : s.region.hfault = true ∨
      (∃ k, k < s.region.count ∧ k ≠ s.cur.tile ∧ s.region.phys k ≠ s.here ∧ (s.tileAt s.slotNo k).hflag = true)) :
    ∃ t, exec .eret s = .next t ∧ OwnAgent s t ∧ OtherEngines s t ∧ t.pcOf = s.ctile.tret.toNat % 65536 ∧ t.loopsOf = s.loopsOf ∧
      t.ctile.bare = ({ s.ctile with hflag := false, hreplay := s.ctile.tret.getLsbD 63 } : Tile).bare := by
  obtain ⟨u, hret, hothers, hpc, hloops, hbare, hexec⟩ := execEret_returns hh hs
  have hcond : (s.region.hfault || (s.tiles6 s.slotNo).any (fun k => (u.tileAt s.slotNo k).hflag)) = true :=
    Bool.or_eq_true_iff.mpr (hmore.imp_right hret.someHandler)
  rw [if_pos hcond] at hexec
  exact ⟨u, hexec, hret.own, hothers, hpc, hloops, hbare⟩

theorem eret_last {s : State} (hh : s.inHandler = true) (hs : s.prompt) (hf : s.region.hfault = false) (hall : ∀ k, k < s.region.count → k ≠ s.cur.tile → (s.tileAt s.slotNo k).hflag = false) :
    ∃ u, Returned s u ∧ exec .eret s = .next (u.endHandlers s.slotNo) := by
  obtain ⟨u, hret, _, _, _, _, hexec⟩ := execEret_returns hh hs
  rw [hf, hret.noHandler hall, Bool.or_false, if_neg Bool.false_ne_true] at hexec
  exact ⟨u, hret, hexec⟩

section
variable {s u : State} (h : Returned s u)
include h

/-- A replay is asked for: it waits for its commands, or is refused with ERR 4. -/
theorem endHandlers_asks (hask : (u.frozenTiles s.slotNo).any (fun k => (u.tileAt s.slotNo k).hreplay) = true) : let t := u.endHandlers s.slotNo
    FreezeEnds s t ∧
      (s.replayOk s.slotNo = true → t.slot s.slotNo = { s.region with replaying := true, replayCmd := false, handler := false }) ∧
      (s.replayOk s.slotNo = false → t.slot s.slotNo = { s.region with err := 4, handler := false } ∧ told s t 1) := by
  have hend : u.endHandlers s.slotNo = u.askReplay s.slotNo false := if_pos hask
  have hslot : u.slot s.slotNo = s.region := h.slot _
  rw [State.askReplay, h.replayOk, hslot] at hend
  cases hok : s.replayOk s.slotNo with
  | true =>
    rw [hok, if_pos rfl] at hend
    rw [hend]
    exact ⟨h.sets rfl, fun _ => State.setSlot_slot_same _ _ _, fun h => (nomatch h)⟩
  | false =>
    rw [hok, if_neg Bool.false_ne_true] at hend
    obtain ⟨hends, hq, htold⟩ := h.sets_told (q := { s.region with err := 4, handler := false }) rfl
    rw [hend]
    exact ⟨hends, fun h => (nomatch h), fun _ => ⟨hq, htold⟩⟩

/-- With BREAK alone the region goes on. -/
theorem endHandlers_breaks (ha : apart s.region) (hcur : s.cur.tile < s.region.count)
    (hask : (u.frozenTiles s.slotNo).any (fun k => (u.tileAt s.slotNo k).hreplay) ≠ true)
    (hbrk : (u.frozenTiles s.slotNo).all (fun k => bits (u.tileAt s.slotNo k).tcause.toNat 0 8 == Cause.code .brk) = true) :
    let n := s.slotNo
    let r := s.region
    let t := u.endHandlers n
    FreezeEnds s t ∧
      ((s.snap r.job).st ≠ .rolling → t.slot n = { r with st := .running, trapped := false, handler := false, replaying := false, pos := 6 * r.count + 1 }) ∧
      ((s.snap r.job).st = .rolling → (t.slot n).st = .frozen ∧ (t.slot n).rcc = r.rcc ∧ (t.slot n).trapped = false) ∧
      ∀ k, k < r.count → let x := s.tileAt n k
        (∀ e, 1 ≤ e → (t.tileAt n k).eng e = x.eng e) ∧
        (x.again.testBit 0 = true → ((t.tileAt n k).eng 0).step = x.tret.toNat % 65536) ∧
        (x.again.testBit 0 = false → k ≠ s.cur.tile → (t.tileAt n k).eng 0 = x.eng 0) := by
  intro n r t
  have ht : t = u.thaw n false := (if_neg hask).trans (if_pos hbrk)
  have hslot : u.slot n = r := h.slot n
  have hleaves := State.thaw_leaves (s := u) (n := n) (by rw [hslot]; exact ha)
  rw [← ht] at hleaves
  obtain ⟨hc, hm, hslots, hp, hgoes, hjoins, htiles⟩ := hleaves
  have hsnap : u.snap (u.slot n).job = s.snap r.job := by rw [hslot, State.snap, h.snaps]; rfl
  rw [hsnap, hslot] at hgoes hjoins
  refine ⟨⟨h.hflag_after (hc.trans h.cur) ?_ ?_, hm.trans h.mem, fun m hne => (hslots m hne).trans (h.slot m)⟩, hgoes, hjoins, fun k hk => ?_⟩
  · rw [hp, hslot]
  · have htile := htiles s.cur.tile (by rw [hslot]; exact hcur)
    rw [State.tileAt, State.tileAt, hp, hslot] at htile
    exact (congrArg Tile.hflag htile).trans (Tile.thaw_hflag _ _)
  · rw [htiles k (by rw [hslot]; exact hk)]
    exact h.thaw_eng ha hcur hk _

/-- Else the control cores are told. -/
theorem endHandlers_told (hask : (u.frozenTiles s.slotNo).any (fun k => (u.tileAt s.slotNo k).hreplay) ≠ true)
    (hbrk : (u.frozenTiles s.slotNo).all (fun k => bits (u.tileAt s.slotNo k).tcause.toNat 0 8 == Cause.code .brk) ≠ true) :
    let t := u.endHandlers s.slotNo
    FreezeEnds s t ∧ t.slot s.slotNo = { s.region with handler := false } ∧ told s t 1 := by
  have hend : u.endHandlers s.slotNo = (u.setSlot s.slotNo { u.slot s.slotNo with handler := false }).raiseCC ipTrap := (if_neg hask).trans (if_neg hbrk)
  have hslot : u.slot s.slotNo = s.region := h.slot _
  rw [hend, hslot]
  exact h.sets_told rfl
end

/-- The last ERET of a freeze (R296), by what the tiles that trapped ask. -/
theorem eret_ends {s : State} (hh : s.inHandler = true) (hs : s.prompt) (hf : s.region.hfault = false) (hcur : s.cur.tile < s.region.count)
    (ha : apart s.region) (hall : ∀ k, k < s.region.count → k ≠ s.cur.tile → (s.tileAt s.slotNo k).hflag = false) :
    let n := s.slotNo
    let r := s.region
    let stands (k : Nat) : Prop := k < r.count ∧ (s.tileAt n k).inFreeze = true
    let asks : Prop := ∃ k, stands k ∧ (if k = s.cur.tile then s.ctile.tret.getLsbD 63 else (s.tileAt n k).hreplay) = true
    let breaks : Prop := ∀ k, stands k → (s.tileAt n k).tcause.toNat % 256 = Cause.brk.code
    ∃ t, exec .eret s = .next t ∧ t.ctile.hflag = false ∧ t.mem = s.mem ∧ (∀ m, m ≠ n → t.slot m = s.slot m) ∧
      (asks → s.replayOk n = true → t.slot n = { r with replaying := true, replayCmd := false, handler := false }) ∧
      (asks → s.replayOk n = false → t.slot n = { r with err := 4, handler := false } ∧ told s t 1) ∧
      (¬ asks → breaks →
        ((s.snap r.job).st ≠ .rolling →
          t.slot n = { r with st := .running, trapped := false, handler := false, replaying := false, pos := 6 * r.count + 1 }) ∧
        ((s.snap r.job).st = .rolling → (t.slot n).st = .frozen ∧ (t.slot n).rcc = r.rcc ∧ (t.slot n).trapped = false) ∧
        ∀ k, k < r.count → let x := s.tileAt n k
          (∀ e, 1 ≤ e → (t.tileAt n k).eng e = x.eng e) ∧
          (x.again.testBit 0 = true → ((t.tileAt n k).eng 0).step = x.tret.toNat % 65536) ∧
          (x.again.testBit 0 = false → k ≠ s.cur.tile → (t.tileAt n k).eng 0 = x.eng 0)) ∧
      (¬ asks → ¬ breaks → t.slot n = { r with handler := false } ∧ told s t 1) := by
  intro n r stands asks breaks
  obtain ⟨u, h, hexec⟩ := eret_last hh hs hf hall
  have hask : (u.frozenTiles n).any (fun k => (u.tileAt n k).hreplay) = true ↔ asks := h.asks ha hcur
  have hbrk : (u.frozenTiles n).all (fun k => bits (u.tileAt n k).tcause.toNat 0 8 == Cause.code .brk) = true ↔ breaks := h.breaks
  refine ⟨_, hexec, ?_⟩
  by_cases hasks : asks
  · obtain ⟨⟨hflag, hmem, hslots⟩, hok, hno⟩ := endHandlers_asks h (hask.mpr hasks)
    exact ⟨hflag, hmem, hslots, fun _ => hok, fun _ => hno, fun hx => absurd hasks hx, fun hx => absurd hasks hx⟩
  · have hna := fun hx => hasks (hask.mp hx)
    by_cases hbreaks : breaks
    · obtain ⟨⟨hflag, hmem, hslots⟩, hgoes⟩ := endHandlers_breaks h ha hcur hna (hbrk.mpr hbreaks)
      exact ⟨hflag, hmem, hslots, fun hx => absurd hx hasks, fun hx => absurd hx hasks, fun _ _ => hgoes, fun _ hx => absurd hbreaks hx⟩
    · obtain ⟨⟨hflag, hmem, hslots⟩, htold⟩ := endHandlers_told h hna (fun hx => hbreaks (hbrk.mp hx))
      exact ⟨hflag, hmem, hslots, fun hx => absurd hx hasks, fun hx => absurd hx hasks, fun _ hx => absurd hx hbreaks, fun _ _ => htold⟩

/-- Settles O22: TRAP by where it runs; ERET of a core, of a handler, of the last handler, and outside one. -/
theorem trapAndReturn : Obligations.TrapAndReturn :=
  ⟨fun code _ hs => ⟨trap_clocked hs code, trap_core hs code, fun _ => trap_core_again hs code, trap_handler code⟩,
    fun _ => ⟨eret_core, eret_handler, eret_ends, eret_clocked⟩⟩

end Sys2Proof.Proofs
end

section
/-! PROOFS. LDSYS and STSYS of physical memory, and their traps (R183, R303). -/

namespace Sys2Proof.Machine
open Sys2Proof.Claims

/-- A core has no issue time to wait for. -/
theorem State.prompt_core {s : State} (hu : s.atU = false) : s.prompt where
  clocked hc := absurd (State.clocked_iff.mp hc).1 (ne_true_of_eq_false hu)
  handler hh := absurd (State.atU_of_inHandler hh) (ne_true_of_eq_false hu)

theorem State.coreOnly_core {s : State} (hu : s.atU = false) : s.coreOnly = none := by
  rw [State.coreOnly, State.inHandler_core hu, hu]
  rfl

theorem State.coreOnly_clocked {s : State} (hc : s.clocked = true) : s.coreOnly = some priv := by
  obtain ⟨hu, hh⟩ := State.clocked_iff.mp hc
  rw [State.coreOnly, hh, hu]
  rfl

/-- Where no line is in error a read corrects nothing. -/
theorem State.linesIn_clean {s : State} (h : s.poison = []) (pa n v : Nat) : s.linesIn pa n v = [] := by
  rw [State.linesIn, h]
  rfl
theorem State.fixLines_clean {s : State} (h : s.poison = []) (slot : Option Nat) (pa n : Nat) : s.fixLines slot pa n = s := by
  unfold State.fixLines
  rw [State.linesIn_clean h, State.linesIn_clean h]
  rfl

theorem State.freePage_none {s : State} (h : s.snaps = []) (page : Nat) : s.freePage page = s := by
  rw [State.freePage, h]
  rfl

/-! ### The address (R183, R303) -/

/-- The system address of a word. -/
def State.sysAt (s : State) (rs : Nat) (disp : Int) : Nat := (s.rdG rs + BitVec.ofInt 64 (8 * disp)).toNat

section
variable {s : State} {rs : Nat} {disp : Int}

theorem State.sysAddr_align (h : s.sysAt rs disp % 8 ≠ 0) : s.sysAddr rs disp = .error { cause := .align }  :=
  if_pos (bne_iff_ne.mpr h)

/-- An address in the HBM of this package. -/
theorem isWindow_hbm {pa : Nat} (h : pa < Config.potBase) : isWindow pa = false := by
  have hlt : pa < 2 ^ 51 := h.trans (by decide)
  rw [isWindow, bits, Nat.div_eq_of_lt hlt]
  rfl

theorem State.sysAddr_phys {pa : Nat} (h : s.sysAt rs disp = 2 ^ 63 + pa) (h8 : pa % 8 = 0) (hp : pa < Config.potBase) : s.sysAddr rs disp = .ok (.phys pa) := by
  have hlt : pa < 2 ^ 52 := hp.trans (by decide)
  have hplace : s.place (2 ^ 63 + pa) = some (.phys pa) := by
    have hback (win : Option Nat) : s.backing win pa = some pa := by
      unfold State.backing
      rw [isWindow_hbm hp, if_neg Bool.false_ne_true, if_pos hp]
    rw [State.place, if_pos (Nat.le_add_right _ _), Nat.add_sub_cancel_left, if_pos hlt, hback]
    rfl
  have hal : ¬ ((s.sysAt rs disp % 8 != 0) = true) := by
    rw [h]
    simp
    omega
  have hat : s.place (s.sysAt rs disp) = some (.phys pa) := by rw [h, hplace]
  rw [State.sysAddr, show (s.rdG rs + BitVec.ofInt 64 (8 * disp)).toNat = s.sysAt rs disp from rfl, if_neg hal, hat]
end

theorem State.corePage_free {s : State} {pa : Nat} (h : (s.potOf (pa / 4096)).world = 0) (rd : Bool) : s.corePage pa rd = true := by
  rw [State.corePage, h]
  rfl

theorem State.corePage_owned {s : State} {pa : Nat} (h : (s.potOf (pa / 4096)).world ≠ 0) (hw : s.ccore.walking = false) (rd : Bool) : s.corePage pa rd = false := by
  rw [State.corePage, hw, Bool.and_false, Bool.false_and, Bool.or_false]
  exact beq_eq_false_iff_ne.mpr h

/-! ### LDSYS and STSYS of physical memory -/

/-- A walk that runs goes on where its core is not in its trap path. -/
theorem State.spoilWalk_of {u : State} (h : ∀ n, u.cur.agent = .walker n → (u.walker n).inTrap = false) : u.spoilWalk = u := by
  rw [State.spoilWalk]
  split
  case h_1 n ha => simp [h n ha]
  case h_2 => rfl

theorem State.spoilWalk_other {u : State} (h : ∀ n, u.cur.agent ≠ .walker n) : u.spoilWalk = u := State.spoilWalk_of (fun n ha => absurd ha (h n))

theorem State.stPlace_phys {s : State} {pa : Nat} (hp : pa < Config.potBase) (hw : (s.potOf (pa / 4096)).world = 0) (hsnaps : s.snaps = []) (v : Word) :
    s.stPlace (.phys pa) v = .ok (s.wrPhys pa (b8 v.toNat) []) := by
  simp only [State.stPlace, isWindow_hbm hp, State.corePage_free hw, State.freePage_none hsnaps]
  rfl

theorem State.sysLoad_phys {s : State} {rs : Nat} {disp : Int} {pa : Nat} (ha : s.sysAt rs disp = 2 ^ 63 + pa) (h8 : pa % 8 = 0) (hp : pa < Config.potBase)
    (hw : (s.potOf (pa / 4096)).world = 0) (rd : Nat) (hpoison : s.poison = []) :
    s.sysLoad rd rs disp = .ok (s.wrG rd (BitVec.ofNat 64 (leNat (s.rdPhys pa 8))), .fall) := by
  have hld : s.ldPlace (.phys pa) = .ok (s, BitVec.ofNat 64 (leNat (s.rdPhys pa 8))) := by
    simp only [State.ldPlace, isWindow_hbm hp, State.corePage_free hw, State.fixLines_clean hpoison, State.linesIn_clean hpoison]
    rfl
  rw [State.sysLoad, State.sysAddr_phys ha h8 hp]
  simp only [hld]

/-- Eight bytes stand at the address, and every other byte as before. -/
theorem State.wrPhys_get (s : State) (pa : Nat) (v : Word) (k : Nat) : Store.get 0 k (s.wrPhys pa (b8 v.toNat) []).mem =
    if pa ≤ k ∧ k < pa + 8 then BitVec.ofNat 8 (v.toNat / 256 ^ (k - pa)) else Store.get 0 k s.mem := by
  have hlen : (b8 v.toNat).length = 8 := length_leBytes 8 _
  rw [State.wrPhys_mem, Store.get_putL]
  simp only [hlen]
  by_cases hk : pa ≤ k ∧ k < pa + 8
  · rw [dif_pos hk, if_pos hk]
    exact leBytes_getElem 8 _ _ _
  · rw [dif_neg hk, if_neg hk]

section
variable {s : State} {rs : Nat} {disp : Int} (hu : s.atU = false)
include hu

section
variable {pa : Nat} (ha : s.sysAt rs disp = 2 ^ 63 + pa) (h8 : pa % 8 = 0) (hp : pa < Config.potBase) (hw : (s.potOf (pa / 4096)).world = 0)
include ha h8 hp hw

theorem execLdsys_phys (rd : Nat) (hpoison : s.poison = []) (hwk : ∀ n, s.cur.agent = .walker n → (s.walker n).inTrap = false) :
    ∃ t, execLdsys rd rs disp s = .next t ∧
      WritesG s t rd 1 (BitVec.ofNat 64 (leNat ((List.range 8).map (fun k => Store.get 0 (pa + k) s.mem)))) := by
  let t := s.scalarWord { pre := s.coreOnly, reads := [rs], dest := rd } (fun a => a.sysLoad rd rs disp)
  have hcore := State.coreOnly_core hu
  have hword : t = _ := State.scalarWord_goes (State.prompt_core hu) ⟨hcore, rfl, rfl, noCtl_pops, noCtl_pushes⟩ (State.sysLoad_phys ha h8 hp hw rd hpoison)
  have hwrites := State.writesG_of (s := s) { pre := s.coreOnly, reads := [rs], dest := rd } (BitVec.ofNat 64 (leNat (s.rdPhys pa 8))) noCtl_pushes
    (fun _ hx => nomatch hx)
  rw [← hword] at hwrites
  have hcur : t.cur = s.cur := (congrArg State.cur hwrites.only.own.rest :)
  have hpois : t.poison = s.poison := (congrArg State.poison hwrites.only.own.rest :)
  have hmeet : s.meetSys t rs disp = t := by
    rw [State.meetSys, hcore, State.sysAddr_phys ha h8 hp]
    simp only [isWindow_hbm hp, State.corePage_free hw, State.fixLines_clean (hpois.trans hpoison)]
    rfl
  have hspoil : t.spoilWalk = t := State.spoilWalk_of fun n hn => by
    have hn' : s.cur.agent = .walker n := hcur ▸ hn
    have hbare : t.ccore.inTrap = s.ccore.inTrap := (congrArg CCore.inTrap (hwrites.only.core hu) :)
    rw [State.ccore, State.ccore, hn, hn'] at hbare
    exact hbare.trans (hwk n hn')
  refine ⟨t, ?_, by rwa [State.rdPhys, Store.getN_eq_map] at hwrites⟩
  rw [execLdsys, show s.scalarWord _ _ = t from rfl, hmeet, hspoil]

theorem execStsys_phys (rt : Nat) (hsnaps : s.snaps = []) : ∃ t, execStsys rt rs disp s = .next t ∧ sameG s t ∧ fallsThrough s t ∧
    t.tiles = s.tiles ∧ t.slots = s.slots ∧
    ∀ k, Store.get 0 k t.mem = if pa ≤ k ∧ k < pa + 8 then BitVec.ofNat 8 ((s.rdG rt).toNat / 256 ^ (k - pa)) else Store.get 0 k s.mem := by
  let u := s.wrPhys pa (b8 (s.rdG rt).toNat) []
  have huu : u.atU = false := hu
  have b := (Effect.refl u).book { pre := s.coreOnly, reads := [rs, rt] } .fall noCtl_pushes
  have hword : execStsys rt rs disp s = .next (u.commitScalar { pre := s.coreOnly, reads := [rs, rt] } .fall) := by
    refine congrArg Host.Outcome.next (State.scalarWord_goes (State.prompt_core hu) ⟨State.coreOnly_core hu, rfl, rfl, noCtl_pops, noCtl_pushes⟩ ?_)
    simp only [State.sysAddr_phys ha h8 hp, State.stPlace_phys hp hw hsnaps]
    rfl
  have hmem : (u.commitScalar { pre := s.coreOnly, reads := [rs, rt] } .fall).mem = u.mem := (congrArg State.mem b.own.rest :)
  have hslots : (u.commitScalar { pre := s.coreOnly, reads := [rs, rt] } .fall).slots = u.slots := (congrArg State.slots b.own.rest :)
  refine ⟨_, hword, b.g, b.fallsThrough rfl, ?_, hslots, fun k => ?_⟩
  · rw [State.commitScalar_core _ _ huu, State.setCcore_tiles]
    rfl
  · rw [hmem, State.wrPhys_get]
end
end

/-! ### The traps of LDSYS and STSYS -/

/-- A trap of a core leaves the agent in hand. -/
theorem State.takeTrap_cur_core {s : State} (hu : s.atU = false) (x : Trap) : (s.takeTrap x).cur = s.cur := by
  rw [State.takeTrap, hu, if_neg Bool.false_ne_true, State.coreTrap]
  split <;> exact State.setCcore_cur _ _

section
variable {s : State} {rs : Nat} {disp : Int} {n : Nat} (hn : s.cur.agent = .core n) {x : Trap}
include hn

theorem execLdsys_traps (rd : Nat) (hl : s.sysLoad rd rs disp = .error x) (hm : ∀ u : State, s.meetSys u rs disp = u) :
    execLdsys rd rs disp s = .next (s.takeTrap x) := by
  have hu := State.atU_of_core hn
  have hword := State.scalarWord_traps (n := { pre := s.coreOnly, reads := [rs], dest := rd }) (body := fun a => a.sysLoad rd rs disp) (State.prompt_core hu)
    ⟨State.coreOnly_core hu, rfl, rfl, noCtl_pops, noCtl_pushes⟩ hl
  rw [execLdsys, hword, hm, State.spoilWalk_other fun k hk => ?_]
  rw [State.takeTrap_cur_core hu, hn] at hk
  nomatch hk

theorem execLdsys_align (rd : Nat) (h : s.sysAt rs disp % 8 ≠ 0) : execLdsys rd rs disp s = .next (s.takeTrap { cause := .align }) := by
  refine execLdsys_traps hn rd ?_ fun u => ?_
  · rw [State.sysLoad, State.sysAddr_align h]
  · rw [State.meetSys, State.sysAddr_align h]
    simp

theorem execStsys_align (rt : Nat) (h : s.sysAt rs disp % 8 ≠ 0) : execStsys rt rs disp s = .next (s.takeTrap { cause := .align }) := by
  have hu := State.atU_of_core hn
  refine congrArg Host.Outcome.next (State.scalarWord_traps (State.prompt_core hu) ⟨State.coreOnly_core hu, rfl, rfl, noCtl_pops, noCtl_pushes⟩ ?_)
  simp only [State.sysAddr_align h]

section
variable {pa : Nat} (ha : s.sysAt rs disp = 2 ^ 63 + pa) (h8 : pa % 8 = 0) (hp : pa < Config.potBase) (hw : (s.potOf (pa / 4096)).world ≠ 0)
  (hwalk : (s.core n).walking = false)
include ha h8 hp hw hwalk

theorem execSys_owner (r : Nat) : execLdsys r rs disp s = .next (s.takeTrap { cause := .owner }) ∧
    execStsys r rs disp s = .next (s.takeTrap { cause := .owner }) := by
  have hu := State.atU_of_core hn
  have hcw : s.ccore.walking = false := by rw [State.ccore, hn]; exact hwalk
  have hpage (rd : Bool) : s.corePage pa rd = false := State.corePage_owned hw hcw rd
  have haddr := State.sysAddr_phys ha h8 hp
  constructor
  · refine execLdsys_traps hn r ?_ fun u => ?_
    · have hld : s.ldPlace (.phys pa) = .error { cause := .owner } := by
        simp only [State.ldPlace, isWindow_hbm hp, hpage]
        rfl
      rw [State.sysLoad, haddr]
      simp only [hld]
    · rw [State.meetSys, State.coreOnly_core hu, haddr]
      simp only [hpage, Bool.not_false, Bool.or_true, if_true]
  · have hst (v : Word) : s.stPlace (.phys pa) v = .error { cause := .owner } := by
      simp only [State.stPlace, isWindow_hbm hp, hpage]
      rfl
    refine congrArg Host.Outcome.next (State.scalarWord_traps (State.prompt_core hu) ⟨State.coreOnly_core hu, rfl, rfl, noCtl_pops, noCtl_pushes⟩ ?_)
    simp only [haddr, hst]
end
end

theorem execSys_priv {s : State} (hc : s.clocked = true) (r rs : Nat) (disp : Int) :
    execLdsys r rs disp s = .next (s.takeTrap priv) ∧ execStsys r rs disp s = .next (s.takeTrap priv) := by
  have hpre := State.coreOnly_clocked hc
  obtain ⟨hu, hh⟩ := State.clocked_iff.mp hc
  have htrap : (s.takeTrap priv).cur = s.cur := by
    rw [State.takeTrap, if_pos hu, show s.noteTrap priv = s from rfl, if_neg (ne_true_of_eq_false hh)]
    rfl
  have hmeet (u : State) : s.meetSys u rs disp = u := by rw [State.meetSys, hpre]
  have hspoil : (s.takeTrap priv).spoilWalk = s.takeTrap priv := State.spoilWalk_other fun n hn => by
    rw [htrap] at hn
    rw [State.atU, hn] at hu
    nomatch hu
  constructor
  · rw [execLdsys, hpre, hmeet]
    exact congrArg Host.Outcome.next hspoil
  · rw [execStsys, hpre]
    rfl

end Sys2Proof.Machine

namespace Sys2Proof.Proofs
open Sys2Proof.Machine Sys2Proof.Claims

/-- Settles O24: physical memory, the checks of an address on a core, and both words at U. -/
theorem systemMemory : Obligations.SystemMemory := by
  intro r rs disp s a
  refine ⟨fun pa hu ha h8 hp hpoison hw hwk => ⟨execLdsys_phys hu ha h8 hp hw r hpoison hwk, execStsys_phys hu ha h8 hp hw r⟩,
    fun n hn => ⟨fun h => ⟨execLdsys_align hn r h, execStsys_align hn r h⟩, fun pa ha h8 hp hw hwalk => execSys_owner hn ha h8 hp hw hwalk r⟩,
    fun hc => execSys_priv hc r rs disp⟩

end Sys2Proof.Proofs
end

section
/-! PROOFS. SWR of VIFQ on a table of virtual interfaces that is not in canonical form (R277; log entry 6). -/

namespace Sys2Proof.Proofs
open Sys2Proof.Machine Sys2Proof.Claims

/-- A package whose table of virtual interfaces is out of order; the queue that VIFSEL names has QLOG 12 and is not enabled. Core 0 holds 1
in `g1`: a VIFQ value with EN alone. -/
def vifsOutOfOrder : State := { State.reset with
  cur := { agent := .core 0 }, phase := 2, vifsel := 3, vifs := [(3, { qlog := 12 }), (1, { qlog := 12 })], cores := [(0, { g := [(1, 1)] })] }

/-- The interfaces that an outcome leaves. -/
def vifsAfter (o : Host.Outcome State Fault Refusal) : Option (Store Vif) :=
  match o with
  | .next t => some t.vifs
  | _ => none

theorem swr_vifsOutOfOrder : vifsAfter (exec (.swr 0x841 1) vifsOutOfOrder) = some [(1, { qlog := 12 }), (3, { status := 2 })] := by rfl

/-- Refutes O20: the statement asks nothing of the form of the table of virtual interfaces. In one that is out of order a VIFQ write with EN
alone makes the fields of its queue those of a reset, which takes the entry out, and STATUS := RANGE then puts it where its number belongs;
the table that the statement names keeps the entry in its old place. -/
theorem not_writeSystem : ¬ Obligations.WriteSystem := by
  intro h
  have hs : vifsOutOfOrder.prompt := State.prompt_core rfl
  obtain ⟨_, _, _, _, hunit, _⟩ := h 0x841 1 vifsOutOfOrder hs
  obtain ⟨_, _, _, hqueue, _⟩ := hunit rfl
  obtain ⟨t, u, hexec, hw, honly, _⟩ := hqueue rfl rfl
  have hvifs : u.vifs = t.vifs := (congrArg State.vifs honly.own.rest :).symm
  have ht : t.vifs = [(1, { qlog := 12 }), (3, { status := 2 })] := by
    have hrun := swr_vifsOutOfOrder
    rw [hexec] at hrun
    exact Option.some.inj hrun
  have hu : u = vifsOutOfOrder.setVif 3 { status := 2 } := (hw.stores rfl).2.1 rfl (by decide) (by decide)
  have hput : (vifsOutOfOrder.setVif 3 { status := 2 }).vifs = [(3, { status := 2 }), (1, { qlog := 12 })] := rfl
  rw [hu, hput, ht] at hvifs
  exact absurd hvifs (by decide)

end Sys2Proof.Proofs
end

section
/-! PROOFS. A residue mismatch gives back the token that its order popped, whatever the FIFO has taken since (R14, R317). -/

namespace Sys2Proof.Proofs
open Sys2Proof.Machine Sys2Proof.Claims

/-- An order of MX on the integer path, due at the end of cycle 0, which popped a token of NX's FIFO. -/
def poppedOrder : Flight := { id := 1, eng := 4, retire := some 0, push := none, effs := [], step := 0, raw := 0, intPath := true, pop := some 3 }

/-- Since that pop the FIFO has been filled to 15 again, and an upset stands in the integer path. -/
def refilledTile : Tile := { flights := [poppedOrder], ecc := [(residueKey, 1)], tokens := [(fifo 3 4, 15)] }

/-- A region of that tile alone, at the end of its cycle: the order retires next. -/
def refilledFifo : State := { State.reset with
  slots := [(0, { st := .running, w := 1, h := 1, pos := 6 })], tiles := [(0, refilledTile)], agenda := [.event (.orderRetire 0 0 1)] }

/-- The tokens of tile 0 that an outcome leaves. -/
def tokensAfter (o : Host.Outcome State Fault Refusal) : Option (Store Nat) :=
  match o with
  | .next t => some (t.tile 0).tokens
  | _ => none

theorem step_refilledFifo : tokensAfter (step refilledFifo) = some [(fifo 3 4, 16)] := by decide +kernel

theorem refilledTile_ok : TileOk refilledTile where
  sram := rfl
  opmem := rfl
  loops := Nat.zero_le 4
  tokens i := by
    by_cases hi : fifo 3 4 = i
    · subst hi
      exact le_refl 15
    · rw [show refilledTile.tokens = [(fifo 3 4, 15)] from rfl, Store.get, if_neg hi]
      exact Nat.zero_le 15
  moduli _ h := nomatch h

theorem refilledFifo_ok : TilesOk refilledFifo where
  tiles p := by
    rw [State.tile, show refilledFifo.tiles = [(0, refilledTile)] from rfl, Store.get]
    split
    · exact refilledTile_ok
    · exact ⟨rfl, rfl, Nat.zero_le 4, fun _ => Nat.zero_le 15, fun _ h => nomatch h⟩
  cores _ := ⟨rfl, Nat.zero_le 4⟩
  walkers _ := ⟨rfl, Nat.zero_le 4⟩

/-- Refutes O6: an order that traps SDC at its retirement has had no effect, and its popped token returns to the FIFO without the check of
R14. Where producers have pushed the FIFO to 15 since the pop, it then holds 16. -/
theorem not_stepKeepsTiles : ¬ Obligations.StepKeepsTiles := by
  intro h
  have hrun := step_refilledFifo
  cases hstep : step refilledFifo with
  | next t =>
    have htok : (t.tile 0).tokens = [(fifo 3 4, 16)] := by
      rw [hstep] at hrun
      exact Option.some.inj hrun
    have hle := ((h refilledFifo t refilledFifo_ok hstep).tiles 0).tokens (fifo 3 4)
    rw [htok] at hle
    exact absurd hle (by decide)
  | _ =>
    rw [hstep] at hrun
    nomatch hrun

end Sys2Proof.Proofs
end

section
/-! PROOFS. The words of the spec's listings decode; memory after reset; a step runs the word at the front of an agent's store. -/
namespace Sys2Proof.Machine
open Sys2Proof.Claims

/-! ### The words of the listings -/

/-- The words decode to the instruction that they stand for, with none left over. -/
def decodesTo (e : List Code × Instr) : Bool :=
  match decode e.1 with
  | .ok d => d.instr == e.2 && d.len == e.1.length
  | .error _ => false

theorem specWords_decode : specWords.all decodesTo = true := by decide

theorem decodesTo_iff {e : List Code × Instr} :
    decodesTo e = true ↔ ∃ d, decode e.1 = .ok d ∧ d.instr = e.2 ∧ d.len = e.1.length := by
  unfold decodesTo
  cases decode e.1 with
  | ok d => simp
  | error x => simp

/-! ### States that differ in the record of what happens before what (R66) -/

/-- Nothing but the happens-before record differs. -/
def HbOnly (s t : State) : Prop := ∃ h, t = { s with hb := h }

theorem HbOnly.refl (s : State) : HbOnly s s := ⟨s.hb, rfl⟩
theorem HbOnly.trans {s t u : State} (h : HbOnly s t) (h' : HbOnly t u) : HbOnly s u := by
  obtain ⟨a, rfl⟩ := h
  obtain ⟨b, rfl⟩ := h'
  exact ⟨b, rfl⟩
theorem HbOnly.set {s t : State} (h : HbOnly s t) (f : State → List (Nat × Site)) : HbOnly s { t with hb := f t } :=
  h.trans ⟨f t, rfl⟩
theorem HbOnly.foldl {α : Type} {f : State → α → State} (hf : ∀ v a, HbOnly v (f v a)) (l : List α) (s : State) :
    HbOnly s (l.foldl f s) := by
  induction l generalizing s with
  | nil => exact .refl s
  | cons a l ih => exact (hf s a).trans (ih _)

theorem HbOnly.foldl_fst {α β : Type} {f : State × β → α → State × β} (hf : ∀ p a, HbOnly p.1 (f p a).1) (l : List α) (p : State × β) :
    HbOnly p.1 (l.foldl f p).1 := by
  induction l generalizing p with
  | nil => exact .refl p.1
  | cons a l ih => exact (hf p a).trans (ih _)

theorem State.know_hb (s : State) (rs : List Nat) (x : Site) : HbOnly s (s.know rs x) := ⟨_, rfl⟩
theorem State.flows_hb (s : State) (a b : Site) : HbOnly s (s.flows a b) := s.know_hb _ b
theorem State.clearSite_hb (s : State) (x : Site) : HbOnly s (s.clearSite x) := ⟨_, rfl⟩
theorem State.joins_hb (s : State) (xs ys : List Site) : HbOnly s (s.joins xs ys) := .foldl (fun u y => u.know_hb _ y) ys s

theorem State.popKnown_hb (s u : State) (n t e : Nat) : HbOnly u (s.popKnown u n t e) :=
  .foldl (fun v _ => (v.flows_hb _ _).trans ⟨_, rfl⟩) _ u

theorem State.barKnown_hb (s : State) (n t scope : Nat) : HbOnly s (s.barKnown n t scope) :=
  (s.joins_hb _ _).trans (State.joins_hb _ _ _)

theorem State.wordKnown_hb (s u : State) (n t : Nat) (i : Instr) : HbOnly u (s.wordKnown u n t i) := by
  unfold State.wordKnown
  split
  · split
    · exact u.joins_hb _ _
    split
    · exact u.clearSite_hb _
    · exact (u.clearSite_hb _).trans (State.barKnown_hb _ n t _)
  · exact u.joins_hb _ _
  · exact u.joins_hb _ _
  · exact u.joins_hb _ _
  · exact u.flows_hb _ _
  · split
    · exact u.flows_hb _ _
    · exact .refl u
  · split
    · exact u.flows_hb _ _
    · exact .refl u
  · split
    · exact u.flows_hb _ _
    · exact .refl u
  · exact .refl u

theorem State.orderKnown_hb (s u : State) (n t e : Nat) : HbOnly u (s.orderKnown u n t e) := by
  unfold State.orderKnown
  have hcmds : ∀ (w : State) (c : Cmd), HbOnly w
      (if c.reads.isEmpty then w.flows (.queue n t e) (.command c.order) else (w.flows (.queue n t e) (.command c.order)).know [c.order] (.queue n t e)) := by
    intro w c
    split
    · exact w.flows_hb _ _
    · exact (w.flows_hb _ _).trans (State.know_hb _ _ _)
  have hz := (HbOnly.foldl hcmds ((u.tileAt n t).cmds.filter (fun c => decide (s.cmdSeq ≤ c.order))) u).trans
    (.foldl (fun (w : State) (f : Flight) => w.flows_hb (.queue n t e) (.flight n t f.id))
      ((u.tileAt n t).flights.filter (fun f => decide ((s.tileAt n t).nextId ≤ f.id) && f.push.isSome)) _)
  dsimp only
  split
  · exact hz
  · exact hz.trans (State.flows_hb _ _ _)

theorem State.lookKnown_hb (s u : State) (n t e : Nat) (i : Option Instr) : HbOnly u (s.lookKnown u n t e i) := by
  unfold State.lookKnown
  split
  · exact .refl u
  · cases i with
    | some i => exact ((s.popKnown_hb u n t e).trans (State.wordKnown_hb _ _ n t i)).trans (State.orderKnown_hb _ _ n t e)
    | none => exact (s.popKnown_hb u n t e).trans (State.orderKnown_hb _ _ n t e)

theorem State.pushKnown_hb (s u : State) (n t : Nat) : HbOnly u (s.pushKnown u n t) := by
  refine HbOnly.foldl_fst (fun p f => ?_) _ (u, s.tileAt n t)
  cases f.push with
  | some c => exact p.1.flows_hb _ _
  | none => exact .refl p.1

theorem State.endKnown_hb (u : State) (n t : Nat) (c : Cmd) : HbOnly u (u.endKnown n t c) := by
  unfold State.endKnown
  dsimp only
  have hw : HbOnly u (match c.cw.map (fun va => u.translate n va kAtomic) with
      | some (.pa a) => (u.flows (.command c.order) (.status n t c.sw)).flows (.command c.order) (.completion a)
      | _ => u.flows (.command c.order) (.status n t c.sw)) := by
    split
    · exact (u.flows_hb _ _).trans (State.flows_hb _ _ _)
    · exact u.flows_hb _ _
  have hknow : ∀ (w : State) (rs : List Nat), HbOnly w (match c.flight with
      | some f => (w.know rs (.queue n t c.eng)).know rs (.flight n t f)
      | none => w.know rs (.queue n t c.eng)) := by
    intro w rs
    cases c.flight with
    | some f => exact (w.know_hb rs _).trans (State.know_hb _ rs _)
    | none => exact w.know_hb rs _
  split
  · split
    · exact hw
    · exact (hw.trans ⟨_, rfl⟩).trans (.foldl (fun y b => y.flows_hb _ _) _ _)
  · exact hw.trans (hknow _ _)
  · exact hw.trans (hknow _ _)
  · exact hw

theorem State.doneKnown_hb (s u : State) : HbOnly u (s.doneKnown u) := by
  unfold State.doneKnown
  split
  · exact .refl u
  · have hpush := HbOnly.foldl (fun (v : State) (q : Nat × Nat) => s.pushKnown_hb v q.1 q.2) s.seats u
    exact ((hpush.trans ⟨_, rfl⟩).trans (.foldl (fun v q => .foldl (fun w c => w.endKnown_hb q.1 q.2 c) _ v) s.seats _)).trans ⟨_, rfl⟩

/-! ### The step, without SNAPPED buffers -/

theorem State.stepAll_copies (s : State) : ∃ bs : List (Nat × Nat × Nat), (∀ b, b ∈ bs → b ∈ s.snappedBufs) ∧
    s.stepAll = (bs.foldl (fun (v : State) b => v.copyBuffer b.1 b.2.1 b.2.2) s).stepOnce := by
  cases ho : s.stepOnce with
  | next u =>
    refine ⟨s.overwritten u, fun b hb => (List.mem_filter.1 hb).1, ?_⟩
    cases hb : s.overwritten u with
    | nil => simp only [State.stepAll, ho, hb, List.foldl_nil]
    | cons b bs => simp only [State.stepAll, ho, hb]
  | _ => exact ⟨[], nofun, by simp only [State.stepAll, ho, List.foldl_nil]⟩

theorem State.stepAll_of_unsnapped {s : State} (h : s.snappedBufs = []) : s.stepAll = s.stepOnce := by
  obtain ⟨bs, hmem, hstep⟩ := s.stepAll_copies
  rw [h] at hmem
  obtain rfl : bs = [] := List.eq_nil_iff_forall_not_mem.2 fun b hb => nomatch hmem b hb
  exact hstep

theorem step_of_focus {s : State} (h : s.snappedBufs = []) (ha : s.agenda = []) {a : Agent} (hf : s.focus = a) : step s = s.runAgent a := by
  rw [step, State.stepAll_of_unsnapped h, State.stepOnce, ha, ← hf]

/-! ### A fetch -/

theorem Tile.eccIn_clean {x : Tile} (h : x.ecc = []) (space addr n : Nat) : x.eccIn space addr n = [] := by
  rw [Tile.eccIn, h]
  rfl
theorem Tile.bad_clean {x : Tile} (h : x.ecc = []) (space addr n : Nat) : x.bad space addr n = false := by
  rw [Tile.bad, Tile.eccIn_clean h]
  rfl
theorem State.correctAt_clean {s : State} {p : Nat} (h : (s.tile p).ecc = []) (slot space addr n : Nat) : s.correctAt slot p space addr n = s := by
  rw [State.correctAt, if_pos (by rw [Tile.single, Tile.eccIn_clean h]; rfl)]

theorem State.execAt_accepted {s : State} {a : Agent} {t e k : Nat} {ws : List Code} {ok : Decoded → Bool} {d : Decoded}
    (hd : decode ws = .ok d) (hok : ok d = true) : s.execAt a t e k ws ok = exec d.instr { s with cur := curOf a t e k ws d } := by
  rw [State.execAt, hd]
  exact if_pos hok

theorem State.look_fetches {s : State} {n t e : Nat} {d : Decoded}
    (hl : (s.tileAt n t).looks e (s.slot n).rcc = true) (hm : (s.tileAt n t).mayFetch e (s.slot n).rcc = true) (hecc : (s.tileAt n t).ecc = [])
    (hd : decode (wordsFrom (s.tileAt n t).store ((s.tileAt n t).fetchStep e) 3) = .ok d) (hok : engineAccepts e d = true) :
    s.look n t e = exec d.instr { s with cur := curOf (.region n) t e ((s.tileAt n t).fetchStep e) (wordsFrom (s.tileAt n t).store ((s.tileAt n t).fetchStep e) 3) d } := by
  rw [State.look]
  simp only [hl, hm, Tile.bad_clean hecc, Bool.not_true, Bool.or_self, Bool.false_eq_true, if_false]
  rw [State.correctAt_clean hecc, State.execAt_accepted hd hok]

theorem State.issueStep_eq (s : State) (n : Nat) : s.issueStep n =
    match (lookState s n).look n (lookTile s n) (lookEngine s n) with
    | .next u => .next (if (lookState s n).stamped u n (lookTile s n) (lookEngine s n) then u.setSlot n { u.slot n with pos := (s.slot n).pos }
        else (lookState s n).lookKnown u n (lookTile s n) (lookEngine s n) ((lookState s n).lookInstr n (lookTile s n) (lookEngine s n)))
    | o => o := by
  have hstate : (let s1 := lookOrder s n
      let x := s1.tileAt n (lookTile s n)
      let s2 := if engineAt x.sqLate ((s.slot n).pos % 6) = 5 && !x.stopped && !x.rended then s1.arrivals n (lookTile s n) else s1
      s2.setSlot n { s2.slot n with pos := (s.slot n).pos + 1 }) = lookState s n := by
    simp only [lookState, lookEngine, Bool.and_eq_true, Bool.not_eq_true', decide_eq_true_eq, and_assoc]
    rfl
  rw [← hstate]
  rfl

theorem State.coreStep_word {s : State} {n : Nat} {d : Decoded} (hf : (s.core n).failed = false) (ht : (s.core n).takes = false)
    (hh : (s.core n).halted = false) (hd : decode (wordsFrom (s.core n).istore (s.core n).step 3) = .ok d) (hok : coreAccepts d = true) :
    s.coreStep n = exec d.instr { s with cur := curOf (.core n) 0 0 (s.core n).step (wordsFrom (s.core n).istore (s.core n).step 3) d } := by
  rw [State.coreStep]
  simp only [hf, ht, hh, Bool.false_eq_true, if_false]
  exact State.execAt_accepted hd hok

theorem State.walkerStep_word {s : State} {n : Nat} {d : Decoded} (hp : s.poison = []) (hw : (s.walker n).walking = true)
    (hh : (s.walker n).halted = false) (hf : (s.walker n).failed = false) (hd : decode (s.walkWords n (s.walker n).step) = .ok d)
    (hok : coreAccepts d = true) :
    s.walkerStep n = exec d.instr { s with cur := curOf (.walker n) 0 0 (s.walker n).step (s.walkWords n (s.walker n).step) d } := by
  rw [State.walkerStep]
  simp only [hw, hh, hf, State.fixLines_clean hp, State.linesIn_clean hp, Bool.not_true, Bool.or_self, Bool.false_eq_true, if_false, List.isEmpty_nil]
  exact State.execAt_accepted hd hok

theorem State.handlerStep_word {s : State} {n : Nat} {d : Decoded} (hcount : (s.slot n).hpos < (s.slot n).count)
    (hflag : (s.tileAt n (s.slot n).hpos).hflag = true) (hnext : (s.tileAt n (s.slot n).hpos).hnext ≤ (s.slot n).hcyc)
    (hecc : (s.tileAt n (s.slot n).hpos).ecc = []) {k : Nat} (hk : k = ((s.tileAt n (s.slot n).hpos).eng 0).step)
    (hd : decode (wordsFrom (s.tileAt n (s.slot n).hpos).store k 3) = .ok d) (hok : handlerAccepts d = true) :
    s.handlerStep n = exec d.instr { s.setSlot n { s.slot n with hpos := (s.slot n).hpos + 1 } with
      cur := curOf (.region n) (s.slot n).hpos 0 k (wordsFrom (s.tileAt n (s.slot n).hpos).store k 3) d } := by
  subst hk
  have htile : (s.setSlot n { s.slot n with hpos := (s.slot n).hpos + 1 }).tileAt n (s.slot n).hpos = s.tileAt n (s.slot n).hpos := by
    rw [State.tileAt, State.setSlot_slot_same]
    rfl
  rw [State.handlerStep]
  simp only [if_neg (Nat.not_le.2 hcount), htile, hflag, Tile.bad_clean hecc, Nat.not_lt.2 hnext, Bool.not_true, decide_false, Bool.or_self, Bool.false_eq_true, if_false]
  rw [State.correctAt_clean (s := s.setSlot n { s.slot n with hpos := (s.slot n).hpos + 1 }) hecc]
  exact State.execAt_accepted hd hok

end Sys2Proof.Machine

namespace Sys2Proof.Proofs
open Sys2Proof.Machine Sys2Proof.Claims

/-- Settles O1: each listed word is decoded. -/
theorem wordsDecode : Obligations.WordsDecode :=
  fun e he => decodesTo_iff.1 (List.all_eq_true.1 specWords_decode e he)

/-- Settles O4: every store of the state after reset is empty. -/
theorem resetMemory : Obligations.ResetMemory :=
  ⟨rfl, {
    tiles := fun _ => ⟨rfl, rfl, Nat.zero_le 4, fun _ => Nat.zero_le 15, fun _ h => nomatch h⟩
    cores := fun _ => ⟨rfl, Nat.zero_le 4⟩
    walkers := fun _ => ⟨rfl, Nat.zero_le 4⟩ }⟩

/-- Settles O52: each agent's step fetches its word and hands it to `exec`. -/
theorem stepRunsWord : Obligations.StepRunsWord := by
  refine ⟨State.stepAll_copies, ?_, ?_, ?_, ?_, ?_, State.doneKnown_hb, State.lookKnown_hb⟩
  · intro s i r hb ha hi
    rw [step, State.stepAll_of_unsnapped hb, State.stepOnce, ha]
    exact if_pos (by rw [hi]; rfl)
  · intro s n d hb ha hfocus hn hf ht hh ws hd hok
    refine (step_of_focus hb ha hfocus).trans ?_
    rw [State.runAgent, if_pos (show n < Config.coreCount from hn)]
    exact State.coreStep_word hf ht hh hd hok
  · intro s n d hb ha hfocus hn hp hw hh hf ws hd hok
    refine (step_of_focus hb ha hfocus).trans ?_
    rw [State.runAgent, if_pos hn]
    exact State.walkerStep_word hp hw hh hf hd hok
  · intro s n t d hb ha hfocus hn r x hst hhandler ht hcount hflag hnext hecc k ws hd hok
    subst ht
    refine (step_of_focus hb ha hfocus).trans ?_
    rw [State.runAgent, if_pos hn, State.regionStep]
    simp only [show (s.slot n).st = .frozen from hst]
    rw [State.frozenStep, if_pos hhandler]
    exact State.handlerStep_word hcount hflag hnext hecc rfl hd hok
  · intro s v n d hb ha hfocus hn hin t e u x k ws hl hm hecc hd hok hexec
    obtain ⟨hst, hended, hheld, hpos⟩ := hin
    refine (step_of_focus hb ha hfocus).trans ?_
    rw [State.runAgent, if_pos hn, State.regionStep]
    simp only [hst, hended, hheld, hpos, Bool.false_eq_true, if_false, if_true]
    rw [State.issueStep_eq, State.look_fetches hl hm hecc hd hok, hexec]
    have hinstr : (lookState s n).lookInstr n (lookTile s n) (lookEngine s n) = some d.instr := by
      simp only [State.lookInstr]
      rw [hd]
    simp only [hinstr]
    rfl

end Sys2Proof.Proofs
end

section
/-! PROOFS. FMTSET and NESTCFG of SQ (R117, R261, R262): a scalar word that moves a token. -/
namespace Sys2Proof.Machine
open Sys2Proof.Claims

/-! ### A word of SQ that moves a token (R14, R117) -/

/-- The same needs without a token. -/
def Need.tokenless (n : Need) : Need := { n with ctl := noCtl }

theorem Need.gate_of_token {n : Need} {t : Tile} (h : tokenOk n.ctl t 0 = true) (now : Nat) : n.gate t now = n.tokenless.gate t now := by
  have hnone : tokenOk noCtl t 0 = true := by simp [tokenOk, show noCtl.pops = false from noCtl_pops]
  cases hst : (t.eng 0).stamp with
  | none =>
    simp only [Need.gate, Need.tokenless, hst, h, hnone]
    rfl
  | some p =>
    simp only [Need.gate, Need.tokenless, hst, h, hnone]
    rfl

/-- The flight with which a word of SQ pushes its token as it issues. -/
def Tile.sqPush (t : Tile) (n : Need) (c : Cur) (now : Nat) : Flight :=
  { id := t.nextId, eng := 0, retire := some now, push := some n.ctl.tq, effs := [], step := c.step, raw := c.trapWord, first := c.first, issue := now }

theorem Tile.commitSq_nextId (t : Tile) (n : Need) (f : Flow) (c : Cur) (now : Nat) : (t.commitSq n.tokenless f c now).nextId = t.nextId := by
  rw [Tile.commitSq]
  cases hu : n.unit <;> by_cases hd : n.dest = 0 <;> simp [Need.tokenless, hu, hd, Tile.busy, Tile.setEng, Ctl.pushes, noCtl, bits]

/-- What SQ's bookkeeping changes in a tile beside engines, readiness and control: the flight of the token, where it pushes one. -/
theorem Tile.commitSq_pushes (t : Tile) (n : Need) (f : Flow) (c : Cur) (now : Nat) : t.commitSq n f c now =
    if n.ctl.pushes then (t.commitSq n.tokenless f c now).addFlight (t.sqPush n c now) else t.commitSq n.tokenless f c now := by
  have hnone : n.tokenless.ctl.pushes = false := noCtl_pushes
  cases hp : n.ctl.pushes with
  | false => simp only [Tile.commitSq, hp, hnone]; rfl
  | true =>
    rw [if_pos rfl, Tile.sqPush, ← Tile.commitSq_nextId t n f c now]
    simp only [Tile.commitSq, hp, hnone]
    rfl

theorem Tile.commitSq_control (t : Tile) (n : Need) (f : Flow) (c : Cur) (now : Nat) :
    (t.commitSq n f c now).engs = (t.commitSq n.tokenless f c now).engs ∧ (t.commitSq n f c now).loops = (t.commitSq n.tokenless f c now).loops := by
  rw [Tile.commitSq_pushes]
  split <;> exact ⟨rfl, rfl⟩

/-- A word without destination and unit leaves registers, readiness and effects. -/
theorem Tile.commitSq_plain {n : Need} (hd : n.dest = 0) (hu : n.unit = none) (t : Tile) (f : Flow) (c : Cur) (now : Nat) :
    { (t.commitSq n f c now).plain with loops := t.loops } = t.plain ∧ (t.commitSq n f c now).effs = t.effs ∧ (t.commitSq n f c now).tokens = t.tokens ∧
      (t.commitSq n f c now).flights = if n.ctl.pushes then t.flights ++ [t.sqPush n c now] else t.flights := by
  have hbook : t.commitSq n.tokenless f c now = { t.setEng 0 { (t.eng 0).feed c.raws with
      step := (f.next (t.seqFirst c) c.step c.nextStep false t.loops).2, next := now + f.delay, tprev := now } with
      loops := (f.next (t.seqFirst c) c.step c.nextStep false t.loops).1 } := by
    have hnone : n.tokenless.ctl.pushes = false := noCtl_pushes
    simp only [Tile.commitSq, hnone, show n.tokenless.dest = 0 from hd, show n.tokenless.unit = none from hu]
    rfl
  rw [Tile.commitSq_pushes, hbook]
  split <;> exact ⟨rfl, rfl, rfl, rfl⟩

theorem Tile.popToken_tokens (t : Tile) (p c q : Nat) :
    Store.get 0 q (t.popToken p c).tokens = if q = fifo p c then Store.get 0 q t.tokens - 1 else Store.get 0 q t.tokens := by
  rw [Tile.popToken, Store.get_put]
  split
  · next h => rw [h]; rfl
  · rfl

section
variable {s : State} (hc : s.clocked = true) (hs : s.prompt) {n : Need} {body : State → Except Trap (State × Flow)} {f : Eff}
  (hpre : n.pre = none) (hfree : n.free = true) (hmet : n.met = true) (hdest : n.dest = 0) (hunit : n.unit = none)
  (htok : n.ctl.pops = true → s.ctile.token n.ctl.tq 0 ≠ 0) (hbody : ∀ a : State, a.region = s.region → (∀ k, a.rdG k = s.rdG k) → body a = .ok (a.atEnd f, .fall))
include hc hs hpre hfree hmet hdest hunit htok hbody

/-- A word of SQ that pops its token first, lists one change of the cycle's end and pushes its token. -/
theorem State.scalarWord_lists : ∃ t, s.scalarWord n body = t ∧ OwnAgent s t ∧ OtherEngines s t ∧ fallsThrough s t ∧
    { t.ctile.plain with loops := s.ctile.loops } = s.ctile.plain ∧ t.ctile.effs = s.ctile.effs ++ [(s.now, f)] ∧
    (∀ q, Store.get 0 q t.ctile.tokens =
      if n.ctl.pops = true ∧ q = fifo n.ctl.tq 0 then Store.get 0 q s.ctile.tokens - 1 else Store.get 0 q s.ctile.tokens) ∧
    t.ctile.flights = if n.ctl.pushes then s.ctile.flights ++ [s.ctile.sqPush n s.cur s.now] else s.ctile.flights := by
  obtain ⟨hu, hh⟩ := State.clocked_iff.mp hc
  have hgate : s.scalarGate n = .go := by
    have hgo : s.scalarGate n.tokenless = .go := State.scalarGate_go n.tokenless hs hfree hmet noCtl_pops
    simp only [State.scalarGate, hu, hh, Bool.not_true, Bool.false_eq_true, if_false] at hgo ⊢
    rw [← hgo]
    refine Need.gate_of_token ?_ s.now
    cases hp : n.ctl.pops with
    | false => simp [tokenOk, hp]
    | true => simp [tokenOk, hp, htok hp]
  -- the state as the body finds it
  obtain ⟨a, ha⟩ : ∃ a, a = s.popFor n.ctl 0 := ⟨_, rfl⟩
  have hpop : Effect s a ∧ a.ctile.plain = s.ctile.plain ∧ a.ctile.loops = s.ctile.loops ∧ a.ctile.effs = s.ctile.effs ∧ a.ctile.flights = s.ctile.flights ∧
      a.ctile.nextId = s.ctile.nextId ∧ (∀ q, Store.get 0 q a.ctile.tokens =
        if n.ctl.pops = true ∧ q = fifo n.ctl.tq 0 then Store.get 0 q s.ctile.tokens - 1 else Store.get 0 q s.ctile.tokens) := by
    subst ha
    cases hp : n.ctl.pops with
    | false =>
      rw [State.popFor_none _ _ _ hp]
      exact ⟨.refl s, rfl, rfl, rfl, rfl, rfl, fun q => by simp⟩
    | true =>
      have hx : s.popFor n.ctl 0 = s.setCtile (s.ctile.popToken n.ctl.tq 0) := by simp [State.popFor, hp, hu]
      rw [hx, State.setCtile_ctile]
      exact ⟨Effect.setCtile hu rfl rfl rfl, rfl, rfl, rfl, rfl, rfl, fun q => by simpa using Tile.popToken_tokens s.ctile n.ctl.tq 0 q⟩
  obtain ⟨heff, hplain, hloops, heffs, hfl, hid, htokens⟩ := hpop
  have hau : a.atU = true := heff.atU.trans hu
  obtain ⟨u, hlisted⟩ : ∃ u, u = a.atEnd f := ⟨_, rfl⟩
  have hlist : Effect s u := hlisted ▸ heff.trans (Effect.setCtile hau rfl rfl rfl)
  have htile : u.ctile = { a.ctile with effs := a.ctile.effs ++ [(a.now, f)] } := by rw [hlisted, State.atEnd, State.setCtile_ctile]
  have hg : ∀ k, a.rdG k = s.rdG k := fun k => by
    have hregs : a.ctile.g = s.ctile.g := (congrArg Tile.g hplain :)
    simp only [State.rdG, hau, hu, hregs, if_true]
  have hbook : s.scalarWord n body = u.setCtile (u.ctile.commitSq n .fall s.cur s.now) := by
    rw [State.scalarWord_go hpre hgate (ha ▸ hbody a heff.region hg), ← ha, ← hlisted]
    show u.commitScalar n .fall = _
    rw [State.commitScalar_clocked n .fall (hlist.clocked.trans hc), hlist.cur, hlist.now]
  obtain ⟨hx, hxe, hxt, hxf⟩ := Tile.commitSq_plain hdest hunit u.ctile .fall s.cur s.now
  obtain ⟨hengs, hlp⟩ := u.ctile.commitSq_control n .fall s.cur s.now
  have hpush : n.tokenless.ctl.pushes = false := noCtl_pushes
  have heng (e : Nat) : (u.ctile.commitSq n .fall s.cur s.now).eng e = (u.ctile.commitSq n.tokenless .fall s.cur s.now).eng e := by
    rw [Tile.eng, hengs]
    rfl
  have huloops : u.ctile.loops = s.ctile.loops := by rw [htile]; exact hloops
  refine ⟨_, hbook, hlist.trans_tile hu _, ⟨fun e he => ?_, ?_⟩, ?_, ?_, ?_, fun q => ?_, ?_⟩
  · rw [State.setCtile_ctile, heng, Tile.commitSq_other _ _ _ _ _ hpush he, hlist.engs]
  · rw [State.setCtile_ctile, heng, Tile.commitSq_own _ _ _ _ _ hpush, hlist.engs]
    exact ⟨rfl, rfl, rfl⟩
  · have hfirst : u.ctile.seqFirst s.cur = s.seqFirst := by rw [State.seqFirst, if_pos hc, Tile.seqFirst, Tile.seqFirst, hlist.engs]
    simp only [fallsThrough, State.loopsOf, State.pcOf, State.setCtile_atU, hlist.atU, State.setCtile_ctile, hu, hh, if_true, Bool.false_eq_true, if_false, hlp, heng,
      Tile.commitSq_loops _ _ _ _ _ hpush, Tile.commitSq_own _ _ _ _ _ hpush, huloops, hfirst, Flow.next]
  · rw [State.setCtile_ctile, ← huloops, hx, htile]
    exact hplain
  · rw [State.setCtile_ctile, hxe, htile, heffs, heff.now]
  · rw [State.setCtile_ctile, hxt, htile]
    exact htokens q
  · rw [State.setCtile_ctile, hxf, htile, hfl, Tile.sqPush, hid]
    rfl
end

variable {s : State} (hc : s.clocked = true) (hm : s.img.mxn = true) {c : Ctl} (hl : c.legal 0 = true) (hgap : c.gap = 0)
include hc hm hl hgap

theorem State.fmtPre_none : s.fmtPre c = none := by
  simp only [State.fmtPre, State.sqOnly_clocked hc]
  simp [hm, hl, hgap]
end Sys2Proof.Machine

namespace Sys2Proof.Proofs
open Sys2Proof.Machine Sys2Proof.Claims

/-- Settles O26: both words list one change of the cycle's end. -/
theorem formatAndNest : Obligations.FormatAndNest := by
  intro c k rs s hc hs hm hl hgap htok v done
  have hlists {n : Need} {body : State → Except Trap (State × Flow)} {f : Eff} (hpre : n.pre = none) (hfree : n.free = true) (hmet : n.met = true)
      (hdest : n.dest = 0) (hunit : n.unit = none) (hctl : n.ctl = c)
      (hbody : ∀ a : State, a.region = s.region → (∀ k, a.rdG k = s.rdG k) → body a = .ok (a.atEnd f, .fall)) {i : Instr} (hi : exec i s = .next (s.scalarWord n body)) :
      done i f := by
    subst hctl
    obtain ⟨t, ht, hown, heng, hfall, hplain, heffs, htokens, hflights⟩ :=
      State.scalarWord_lists hc hs hpre hfree hmet hdest hunit htok hbody
    refine ⟨t, hi.trans (congrArg _ ht), hown, heng, hfall, hplain, heffs, htokens, ?_⟩
    cases hp : n.ctl.pushes with
    | true => exact ⟨_, by rw [hflights, hp]; rfl, rfl, rfl, rfl⟩
    | false => rw [hflights, hp]; rfl
  have hpre := State.fmtPre_none hc hm hl hgap
  refine ⟨fun hent hbar => ?_, fun hnest => ?_⟩
  · refine hlists (n := { pre := s.fmtPre c, reads := [rs], ctl := c }) hpre rfl rfl rfl rfl rfl (fun a hr hg => ?_) rfl
    have hv : bits (a.rdG rs).toNat 0 32 = v % 2 ^ 32 := by rw [hg, bits, pow_zero, Nat.div_one]
    have hbarred : a.fmtBarred (v % 2 ^ 32) = false := by rw [State.fmtBarred, hr]; exact hbar
    simp only [hv, hent, hbarred]
    rfl
  · refine hlists (n := { pre := s.fmtPre c, reads := [rs], ctl := c }) hpre rfl rfl rfl rfl rfl (fun a _ hg => ?_) rfl
    have hv : (a.rdG rs).toNat = v := by rw [hg]
    simp only [hv, hnest]
    rfl

end Sys2Proof.Proofs
end

section
/-! PROOFS. The lane-wise orders of VX, its comparisons and selections, and its conversions (R186 to R200, R209). -/
namespace Sys2Proof.Machine
open Sys2Proof.Claims

/-! ### An order that holds units (R189) -/

/-- No unit of an order stands in a result that it writes. -/
def VNeed.UnitsApart (n : VNeed) : Prop := ∀ u ∈ n.units, u.1 ∉ n.writes

theorem Tile.foldl_busyUnits (t : Tile) (us : List (Nat × Nat)) (now : Nat) :
    us.foldl (fun x u => x.busy u.1 (now + u.2)) t = { t with sb := us.foldl (fun m u => Store.put 0 u.1 (now + u.2) m) t.sb } := by
  induction us generalizing t with
  | nil => rfl
  | cons u us ih => rw [List.foldl_cons, ih]; rfl

theorem Store.get_foldl_put_apart (now k : Nat) (us : List (Nat × Nat)) (m : Store Nat) (h : ∀ u ∈ us, u.1 ≠ k) :
    Store.get 0 k (us.foldl (fun m u => Store.put 0 u.1 (now + u.2) m) m) = Store.get 0 k m := by
  induction us generalizing m with
  | nil => rfl
  | cons u us ih =>
    obtain ⟨hu, hus⟩ := List.forall_mem_cons.mp h
    rw [List.foldl_cons, ih _ hus, Store.get_put, if_neg (Ne.symm hu)]

/-- An order leaves its results' readiness, that of its units, and the step of the frame. -/
theorem Tile.afterV_steps (t : Tile) {n : VNeed} (now : Nat) (hs : n.steps = true) : t.afterV n now = { t with
    sb := n.units.foldl (fun m u => Store.put 0 u.1 (now + u.2) m) (n.writes.foldl (fun m k => Store.put 0 k (now + n.lat) m) t.sb),
    fstepV := t.fstepV + 1 } := by
  rw [Tile.afterV, Tile.foldl_busy, Tile.foldl_busyUnits, if_pos hs]

section
variable {s : State} {c : Ctl} {n : VNeed} {body : State → Except Trap (State × List Eff)} (h : VxReady s c) (ha : n.also = true)
include h ha

/-- Where its body passes, a VX order has issued with the body's changes, whatever units it holds. -/
theorem State.vxOrder_holds {u : State} {l : List (Nat × Eff)} {effs : List Eff} {x : Tile} (hn : n.UnitsApart) (hs : n.steps = true)
    (hx : x.fstepV = s.ctile.fstepV) (hb : body (s.popFor c s.cur.eng) = .ok (u, effs)) (hu : OrderBody s u c l x) :
    VxDone s (s.vxOrder c n body) c n.lat n.writes l effs x := by
  have hu' : OrderBody s (u.setCtile (u.ctile.afterV n u.now)) c l { x with fstepV := s.ctile.fstepV + 1 } := by
    have hstep : u.ctile.fstepV = x.fstepV := (congrArg Tile.fstepV hu.plain : u.ctile.plain.fstepV = x.plain.fstepV)
    rw [Tile.afterV_steps _ _ hs, hstep, hx]
    exact hu.setCtile rfl rfl rfl rfl (Tile.plain_fstepV hu.plain _)
  rw [State.vxOrder, State.engineOrder_go (r := (u.setCtile (u.ctile.afterV n u.now), { retire := some (u.now + n.lat - 1), effs := effs })) rfl h.due
    (VNeed.ready_of_vxReady h ha) rfl (by simp only [hb])]
  obtain ⟨hrest, hplain, hsb, f, hf, hret, heffs⟩ := OrderBody.commit (n := { ctl := c, free := n.ready s.ctile s.now }) hu' h.due
    { retire := some (u.now + n.lat - 1), effs := effs }
  refine ⟨hrest, ⟨f, hf, ?_, heffs⟩, hplain, fun k hk => ?_⟩
  · rw [hret, hu.rest.now]
  · rw [Tile.ready, hsb, State.setCtile_ctile, Tile.afterV_steps _ _ hs,
      Store.get_foldl_put_apart _ _ _ _ (fun v hv heq => hn v hv (heq ▸ hk)), Store.get_foldl_put, if_pos hk, hu.rest.now]

/-- An order whose body writes vector register `vd` and nothing else. -/
theorem State.vxOrder_wrV {vd : Nat} {v : VReg} (hn : n.UnitsApart) (hs : n.steps = true)
    (hb : body (s.popFor c s.cur.eng) = .ok ((s.popFor c s.cur.eng).wrV vd v, [])) :
    VxDone s (s.vxOrder c n body) c n.lat n.writes [] [] (putV s.ctile vd v) :=
  State.vxOrder_holds h ha hn hs (putV_fstepV ..) hb ((OrderBody.popFor h.due.atU c).wrV vd v)
end

/-- Without units there is none in the way. -/
theorem VNeed.unitsApart_nil {n : VNeed} (h : n.units = []) : n.UnitsApart := by
  rw [VNeed.UnitsApart, h]
  exact fun _ hu => nomatch hu

/-- No unit of VX has the number of a vector register. -/
theorem VNeed.unitsApart_keyV {n : VNeed} {vd : Nat} (hd : vd < 64) (hw : n.writes = [keyV vd]) (hu : ∀ u ∈ n.units, 128 ≤ u.1) : n.UnitsApart := by
  intro u hm hk
  rw [hw, List.mem_singleton, keyV] at hk
  have := hu u hm
  omega

/-! ### What an order's token leaves to read -/

@[simp] theorem State.popFor_laneVal (s : State) (c : Ctl) (e ty r j : Nat) : (s.popFor c e).laneVal ty r j = s.laneVal ty r j := by
  rw [State.laneVal, State.popFor_rdV, State.laneVal]
@[simp] theorem State.popFor_laneInt (s : State) (c : Ctl) (e ty r j : Nat) : (s.popFor c e).laneInt ty r j = s.laneInt ty r j := by
  rw [State.laneInt, State.popFor_rdV, State.laneInt]
@[simp] theorem State.popFor_vrnd (s : State) (c : Ctl) (e rm j : Nat) : (s.popFor c e).vrnd rm j = s.vrnd rm j := by
  have hseed : (s.popFor c e).ctile.srseed = s.ctile.srseed ∧ (s.popFor c e).ctile.fstepV = s.ctile.fstepV := by
    rw [State.popFor_ctile]
    split <;> exact ⟨rfl, rfl⟩
  rw [State.vrnd, hseed.1, hseed.2, State.vrnd]

theorem isFloatLane_of_isFloat3 {ty : Nat} (h : isFloat3 ty = true) : isFloatLane ty = true := by
  simp only [isFloat3, isFloatLane, decide_eq_true_eq] at *
  omega

/-- The result of MAJ 0x2D at issue is the one of R194. -/
theorem State.arith_popFor (s : State) (c : Ctl) (e : Nat) (x : VX) (j : Nat) (v : Val) (i : Int) :
    (s.popFor c e).arith x j v i = numeric s x j v i := by
  simp [State.arith, numeric, rounded, wrapped, bits]

/-! ### Lane-wise orders (R187, R188) -/

section
variable {s : State} (o : LaneOp) (h : VxReady s o.c) (regs more : List Nat) {units : List (Nat × Nat)} {chk : State → Option Trap}
  {f : State → Nat → Nat}
include h

/-- A lane-wise order that holds units, whose lanes fit and whose further check passes. -/
theorem State.laneWise_holds (hd : units = [] ∨ o.vd < 64 ∧ ∀ u ∈ units, 128 ≤ u.1) (hfit : Fits s (laneWidth o.ty) (activeLanes s o.ty o.km))
    (hc : chk (s.popFor o.c s.cur.eng) = none) (hf : ∀ j, f (s.popFor o.c s.cur.eng) j = o.value s j) :
    ∃ t, s.laneWise o.c o.vd o.ty o.km o.lat regs more units chk f = .next t ∧ LaneDone s t o := by
  refine ⟨_, rfl, _, State.vxOrder_wrV (vd := o.vd) (v := mapLanes (s.rdV o.vd) (laneWidth o.ty) (laneCount o.ty)
    (fun j => if s.active o.km j then some (o.value s j) else none)) h rfl ?_ rfl ?_, fun j hj => ?_⟩
  · rcases hd with hu | ⟨hd, hu⟩
    · exact VNeed.unitsApart_nil hu
    · exact VNeed.unitsApart_keyV hd rfl hu
  · simp [State.vxChk_actives_of_fits hfit, hc, hf]
  · rw [lane_mapLanes_if _ _ _ (laneWidth_mul_laneCount_le _) hj]
    exact if_congr State.active_iff rfl rfl

/-- What a lane-wise order does, where it has no lanes to read beside the active ones. -/
theorem State.laneWise_outcome (hd : units = [] ∨ o.vd < 64 ∧ ∀ u ∈ units, 128 ≤ u.1) (ha : o.also s = [])
    {out : Host.Outcome State Fault Refusal} (hout : out = s.laneWise o.c o.vd o.ty o.km o.lat regs more units noChk f)
    (hf : ∀ j, f (s.popFor o.c s.cur.eng) j = o.value s j) :
    (o.fits s → ∃ t, out = .next t ∧ LaneDone s t o) ∧ (¬ o.fits s → out = .next (s.takeTrap ill)) := by
  rw [hout, LaneOp.fits_of_also_nil ha]
  exact ⟨fun hfit => State.laneWise_holds o h regs more hd hfit rfl hf, fun hfit => State.laneWise_ill h fun hl => absurd hl hfit⟩
end

/-! ### The bits of MAJ 0x2F and of the hash (R197, R209) -/

theorem State.laneBits_lt (s : State) (ty r j : Nat) : s.laneBits ty r j < 2 ^ laneWidth ty := Nat.mod_lt _ (Nat.two_pow_pos _)

/-- The model's field of an integer is the word that holds it. -/
theorem field_eq_ofInt (w : Nat) (i : Int) : field w i = (BitVec.ofInt w i).toNat := by
  rw [field, BitVec.toNat_ofInt]
  push_cast
  rfl

/-- A shift that fills with the top bit is the quotient that rounds down (R197). -/
theorem field_sext_div {w a : Nat} (hw : 0 < w) (ha : a < 2 ^ w) (n : Nat) : field w (sext w a / 2 ^ n) = ((BitVec.ofNat w a).sshiftRight n).toNat := by
  rw [field_eq_ofInt, sext_eq_toInt ha hw, BitVec.sshiftRight, Int.shiftRight_eq_div_pow]
  push_cast
  rfl

/-- The upper half of a hash (R209). -/
theorem bits_upper_word (h : Word) : bits h.toNat 32 32 = h.toNat / 2 ^ 32 :=
  Nat.mod_eq_of_lt (by omega)

theorem isIntLane_pos {ty : Nat} (h : isIntLane ty = true) : 0 < laneWidth ty := by
  simp only [isIntLane, Bool.and_eq_true, decide_eq_true_eq] at h
  obtain ⟨hlo, hhi⟩ := h
  interval_cases ty <;> decide

theorem VX.vd_lt {x : VX} {two : Bool} (h : x.wf two = true) : x.vd < 64 := by
  simp only [VX.wf, Bool.and_eq_true, decide_eq_true_eq] at h
  tauto

theorem VX.wf_of_wfArith {x : VX} {one three div : Bool} (h : x.wfArith one three div = true) : x.wf false = true := by
  simp only [VX.wfArith, Bool.and_eq_true] at h
  tauto

/-! ### VPERM (R200) -/

/-- The lanes that VPERM reads fit where those of its active lanes and those that they name do. -/
theorem fits_append {s : State} {w : Nat} {xs ys : List Nat} : Fits s w (xs ++ ys) ↔ Fits s w xs ∧ Fits s w ys := by
  simp only [Fits, List.mem_append, or_imp, forall_and, or_and_left]

end Sys2Proof.Machine

namespace Sys2Proof.Proofs
open Sys2Proof.Machine Sys2Proof.Claims

/-- What a lane-wise order does: its lanes where they fit, else ILL. -/
def LaneOutcome (s : State) (i : Instr) (o : LaneOp) : Prop :=
  (o.fits s → ∃ t, exec i s = .next t ∧ LaneDone s t o) ∧ (¬ o.fits s → exec i s = .next (s.takeTrap ill))

theorem exec_vectorArith {i : Instr} {o : LaneOp} (h : vectorArith i = some o) (hwf : i.wf = true) {s : State} (hs : VxReady s o.c) :
    LaneOutcome s i o := by
  cases i with
  | vadd c x | vsub c x | vmul c x | vmin c x | vmax c x =>
    cases h
    exact State.laneWise_outcome _ hs [x.va, x.vb] [] (.inl rfl) rfl rfl (fun j => by simp [State.arith_popFor])
  | vfma c x | vfms c x =>
    cases h
    exact State.laneWise_outcome _ hs [x.va, x.vb, x.vc] [] (.inl rfl) rfl rfl (fun j => by simp [State.arith_popFor])
  | vabs c x | vneg c x =>
    cases h
    exact State.laneWise_outcome _ hs [x.va] [] (.inl rfl) rfl rfl (fun j => by simp [State.arith_popFor])
  | vdiv c x =>
    cases h
    have hd : x.vd < 64 := VX.vd_lt (VX.wf_of_wfArith (Bool.and_eq_true_iff.mp hwf).2)
    exact State.laneWise_outcome _ hs [x.va, x.vb] [] (.inr ⟨hd, by simp [keyVdiv]⟩) rfl rfl (fun j => by simp)
  | vrsqrt c x | vexp2 c x | vlog2 c x | vsigm c x | vtanh c x =>
    cases h
    exact State.laneWise_outcome _ hs [x.va] [] (.inl rfl) rfl rfl (fun j => by simp)
  | _ => nomatch h

theorem exec_vperm {c : Ctl} {x : VX} {s : State} (hs : VxReady s c) {o : LaneOp} (h : vectorBits (.vperm c x) = some o) :
    LaneOutcome s (.vperm c x) o := by
  cases h
  refine ⟨fun hfit => ?_, fun hfit => ?_⟩
  · obtain ⟨hact, halso⟩ := fits_append.mp hfit
    refine State.laneWise_holds _ hs [x.va, x.vb] [] (.inl rfl) hact ?_ (fun j => by simp)
    rw [State.popFor_vxChk, State.popFor_actives, State.actives_eq_activeLanes, funext (State.popFor_laneBits s c _ _ _)]
    exact State.vxChk_of_fits halso
  · refine State.laneWise_ill hs fun hact => ?_
    have halso := fun hl => hfit (fits_append.mpr ⟨hact, hl⟩)
    rw [State.popFor_vxChk, State.popFor_actives, State.actives_eq_activeLanes, funext (State.popFor_laneBits s c _ _ _)]
    exact State.vxChk_of_not_fits halso

theorem exec_vectorBits {i : Instr} {o : LaneOp} (h : vectorBits i = some o) (hwf : i.wf = true) {s : State} (hs : VxReady s o.c) :
    LaneOutcome s i o := by
  cases i with
  | vand c x | vor c x | vxor c x =>
    cases h
    exact State.laneWise_outcome _ hs [x.va, x.vb] [] (.inl rfl) rfl rfl (fun j => by rw [State.popFor_laneBits, State.popFor_laneBits]; rfl)
  | vnot c x =>
    cases h
    exact State.laneWise_outcome _ hs [x.va] [] (.inl rfl) rfl rfl (fun j => by simp)
  | vshl c x =>
    cases h
    exact State.laneWise_outcome _ hs [x.va, x.vb] [] (.inl rfl) rfl rfl (fun j => by simp [Nat.shiftLeft_eq])
  | vshr c x =>
    cases h
    exact State.laneWise_outcome _ hs [x.va, x.vb] [] (.inl rfl) rfl rfl (fun j => by simp [Nat.shiftRight_eq_div_pow])
  | vsra c x =>
    cases h
    have hint : isIntLane x.ty = true := (Bool.and_eq_true_iff.mp hwf).2
    refine State.laneWise_outcome _ hs [x.va, x.vb] [] (.inl rfl) rfl rfl (fun j => ?_)
    simp only [State.popFor_laneBits]
    exact field_sext_div (isIntLane_pos hint) (s.laneBits_lt ..) _
  | vmulhi c x =>
    cases h
    exact State.laneWise_outcome _ hs [x.va, x.vb] [] (.inl rfl) rfl rfl (fun j => by simp only [State.popFor_laneBits]; exact field_eq_ofInt ..)
  | vhash c x =>
    cases h
    exact State.laneWise_outcome _ hs [x.va] [] (.inl rfl) rfl rfl (fun j => by simp only [State.popFor_laneBits, bits_upper_word])
  | vperm c x => exact exec_vperm (by cases h; exact hs) h
  | _ => nomatch h

/-- Settles O27: each order of the two tables is a lane-wise order with the table's function; VDIV alone holds a unit. -/
theorem vectorLanes : Obligations.VectorLanes := by
  intro i o s h hwf hs
  rcases h with h | h
  · exact exec_vectorArith h hwf hs
  · exact exec_vectorBits h hwf hs

end Sys2Proof.Proofs
end

section
/-! PROOFS. Comparison, selection, conversion, packing and reduction in VX (R196 to R202). -/
namespace Sys2Proof.Machine
open Sys2Proof.Claims

/-! ### Masks (R187, R196) -/

/-- Bit `j` of the mask of a condition is the condition. -/
theorem maskOf_getLsbD (f : Nat → Bool) {j : Nat} (hj : j < 512) : (maskOf f).getLsbD j = f j := by
  have hbit := packLanes_div_mod 1 ((List.range 512).map (fun j => if f j then 1 else 0)) j
  rw [List.getD_eq_getElem _ _ (by simpa using hj), List.getElem_map, List.getElem_range, Nat.one_mul, Nat.pow_one] at hbit
  rw [maskOf, BitVec.getLsbD_ofNat, Nat.testBit_eq_decide_div_mod_eq, hbit]
  cases f j <;> simp [hj]

theorem State.act_eq_activeLanes (s : State) (ty km : Nat) : (List.range (laneCount ty)).filter (s.active km) = activeLanes s ty km :=
  State.actives_eq_activeLanes s ty km

/-- Two checks in turn (R188): both pass where both sets of lanes fit, and else one raises ILL. -/
theorem State.vxChk_both_of_fits {s : State} {w w' : Nat} {xs ys : List Nat} (h : Fits s w xs ∧ Fits s w' ys) :
    (s.vxChk w xs <|> s.vxChk w' ys) = none := by
  rw [State.vxChk_of_fits h.1, State.vxChk_of_fits h.2]
  rfl

theorem State.vxChk_both_of_not_fits {s : State} {w w' : Nat} {xs ys : List Nat} (h : ¬ (Fits s w xs ∧ Fits s w' ys)) :
    (s.vxChk w xs <|> s.vxChk w' ys) = some ill := by
  by_cases hx : Fits s w xs
  · rw [State.vxChk_of_fits hx, State.vxChk_of_not_fits fun hy => h ⟨hx, hy⟩]
    rfl
  · rw [State.vxChk_of_not_fits hx]
    rfl

/-! ### VCMP, VSEL and VBCAST (R196, R197, R200) -/

/-- The mask that VCMP writes, and the register that VSEL writes. -/
def State.compared (s : State) (x : VX) : Mask :=
  maskOf fun j => decide (j < laneCount x.ty) && s.active x.km j && cmpHolds x.opt ((s.laneVal x.ty x.va j).cmp (s.laneVal x.ty x.vb j))
def State.selected (s : State) (x : VX) : VReg :=
  mapLanes (s.rdV x.vd) (laneWidth x.ty) (laneCount x.ty) (fun j => some (s.laneBits x.ty (if s.active x.km j then x.va else x.vb) j))

section
variable {s : State} {c : Ctl} (h : VxReady s c) (x : VX)
include h

theorem execVcmp_done (hfit : Fits s (laneWidth x.ty) (activeLanes s x.ty x.km)) : ∃ (t : State) (m : Mask), execVcmp c x s = .next t ∧
    VxDone s t c 2 (maskKey x.vd) [] [] (putK s.ctile x.vd m) ∧
    ∀ j, j < 512 → m.getLsbD j = (decide (j < laneCount x.ty) && s.active x.km j &&
      cmpHolds x.opt ((s.laneVal x.ty x.va j).cmp (s.laneVal x.ty x.vb j))) := by
  refine ⟨_, s.compared x, rfl, State.vxOrder_done h rfl rfl rfl rfl (putK_fstepV ..) ?_ ((OrderBody.popFor h.due.atU c).wrK x.vd _),
    fun j hj => maskOf_getLsbD _ hj⟩
  simp [State.vxChk_actives_of_fits hfit, State.compared]

theorem execVcmp_ill (hfit : ¬ Fits s (laneWidth x.ty) (activeLanes s x.ty x.km)) : execVcmp c x s = .next (s.takeTrap ill) :=
  congrArg Host.Outcome.next (State.vxOrder_trap h rfl (by simp [State.vxChk_actives_of_not_fits hfit]))

theorem execVsel_done (hfit : Fits s (laneWidth x.ty) (List.range (laneCount x.ty))) : ∃ (t : State) (v : VReg), execVsel c x s = .next t ∧
    VxDone s t c 2 [keyV x.vd] [] [] (putV s.ctile x.vd v) ∧
    ∀ j, j < laneCount x.ty → lane v (laneWidth x.ty) j = s.laneBits x.ty (if s.active x.km j then x.va else x.vb) j := by
  refine ⟨_, s.selected x, rfl, State.vxOrder_wrV h rfl (VNeed.unitsApart_nil rfl) rfl ?_, fun j hj => ?_⟩
  · simp [State.vxChk_of_fits hfit, State.selected]
  · rw [State.selected, lane_mapLanes _ _ (laneWidth_mul_laneCount_le _) hj]
    exact Nat.mod_eq_of_lt (s.laneBits_lt ..)

theorem execVsel_ill (hfit : ¬ Fits s (laneWidth x.ty) (List.range (laneCount x.ty))) : execVsel c x s = .next (s.takeTrap ill) :=
  congrArg Host.Outcome.next (State.vxOrder_trap h rfl (by simp [State.vxChk_of_not_fits hfit]))

theorem execVbcast_done (hl : x.ext * 64 + x.vb < laneCount x.ty) (hact : Fits s (laneWidth x.ty) (activeLanes s x.ty x.km))
    (hlane : Fits s (laneWidth x.ty) [x.ext * 64 + x.vb]) : ∃ t, execVbcast c x s = .next t ∧
      LaneDone s t { c := c, vd := x.vd, ty := x.ty, km := x.km, lat := 2, value := fun s _ => s.laneBits x.ty x.va (x.ext * 64 + x.vb) } :=
  State.laneWise_holds ⟨c, x.vd, x.ty, x.km, 2, fun s _ => s.laneBits x.ty x.va (x.ext * 64 + x.vb), fun _ => []⟩ h [x.va] [] (.inl rfl) hact
    (by rw [if_neg (not_le.mpr hl), State.popFor_vxChk, State.vxChk_of_fits hlane]) (fun j => by simp)

theorem execVbcast_ill (hill : laneCount x.ty ≤ x.ext * 64 + x.vb ∨
      ¬ (Fits s (laneWidth x.ty) (activeLanes s x.ty x.km) ∧ Fits s (laneWidth x.ty) [x.ext * 64 + x.vb])) :
    execVbcast c x s = .next (s.takeTrap ill) := by
  refine State.laneWise_ill h fun hact => ?_
  split
  · rfl
  · next hl =>
    rw [State.popFor_vxChk]
    exact State.vxChk_of_not_fits fun hlane => hill.resolve_left hl ⟨hact, hlane⟩
end

/-! ### VCVT, VPACK and VUNPK (R198, R199) -/

/-- The lanes of VCVT in the register with the more lanes: the half that OPT names begins at OPT times the fewer. -/
def halfSource (x : VX) (e : Nat) : Nat := if laneCount x.vc ≤ laneCount x.ty then e else x.opt * laneCount x.ty + e
def halfTarget (x : VX) (e : Nat) : Nat := if laneCount x.vc ≤ laneCount x.ty then x.opt * laneCount x.vc + e else e

/-- The registers that VCVT, VPACK and VUNPK write. -/
def State.converted (s : State) (x : VX) : VReg :=
  mapLanes (s.rdV x.vd) (laneWidth x.ty) (laneCount x.ty) (fun j =>
    if decide (halfTarget x 0 ≤ j) && decide (j < halfTarget x (min (laneCount x.vc) (laneCount x.ty))) && s.active x.km (j - halfTarget x 0)
    then some (roundTo x.ty (s.laneVal x.vc x.va (halfSource x (j - halfTarget x 0))) x.rm (x.nosat == 1) (s.vrnd x.rm j)) else none)
def State.groupOf (s : State) (x : VX) : List Nat :=
  packGroup x.vc (s.laneVal x.ty x.va) (fun k => roundTo x.vc (s.laneVal x.ty x.va k) x.rm false (s.vrnd x.rm (128 * x.opt + k)))
def State.packed (s : State) (x : VX) : VReg :=
  mapLanes (s.rdV x.vd) 8 512 (fun j => if decide (groupBytes x.vc * x.opt ≤ j) && decide (j < groupBytes x.vc * x.opt + groupBytes x.vc)
    then some ((s.groupOf x).getD (j - groupBytes x.vc * x.opt) 0) else none)
def State.unpacked (s : State) (x : VX) : VReg :=
  mapLanes (s.rdV x.vd) 32 128 (fun j =>
    some (roundTo x.ty (unpackElem x.vc (fun i => lane (s.rdV x.va) 8 (groupBytes x.vc * x.opt + i)) j) x.rm false (s.vrnd x.rm j)))

/-- What VCVT touches fits the position (R188). -/
def State.convertFits (s : State) (x : VX) : Prop :=
  Fits s (laneWidth x.vc) (((List.range (min (laneCount x.vc) (laneCount x.ty))).filter (s.active x.km)).map (halfSource x)) ∧
    Fits s (laneWidth x.ty) (((List.range (min (laneCount x.vc) (laneCount x.ty))).filter (s.active x.km)).map (halfTarget x))

/-- The model's half of VCVT is the one of R198. -/
theorem halfSource_eq (x : VX) (e : Nat) :
    (if laneCount x.vc ≤ laneCount x.ty then e else x.opt * Nat.min (laneCount x.vc) (laneCount x.ty) + e) = halfSource x e := by
  rw [halfSource]
  split
  · rfl
  · next h => rw [show Nat.min (laneCount x.vc) (laneCount x.ty) = laneCount x.ty from Nat.min_eq_right (not_le.mp h).le]

theorem halfTarget_zero (x : VX) :
    (if laneCount x.vc ≤ laneCount x.ty then x.opt * Nat.min (laneCount x.vc) (laneCount x.ty) else 0) = halfTarget x 0 := by
  rw [halfTarget]
  split
  · next h => rw [show Nat.min (laneCount x.vc) (laneCount x.ty) = laneCount x.vc from Nat.min_eq_left h, Nat.add_zero]
  · rfl

theorem halfTarget_add (x : VX) (e : Nat) : halfTarget x 0 + e = halfTarget x e := by
  simp only [halfTarget]
  split
  · rw [Nat.add_zero]
  · rw [Nat.zero_add]

/-- VCVT as its halves say. -/
theorem execVcvt_eq (c : Ctl) (x : VX) (s : State) : execVcvt c x s =
    .next (s.vxOrder c { reads := keyV x.va :: maskKey x.km, writes := [keyV x.vd], lat := 4 } (fun a =>
      match a.vxChk (laneWidth x.vc) ((a.actives x.km (min (laneCount x.vc) (laneCount x.ty))).map (halfSource x)) <|>
        a.vxChk (laneWidth x.ty) ((a.actives x.km (min (laneCount x.vc) (laneCount x.ty))).map (halfTarget x)) with
      | some t => .error t
      | none => .ok (a.wrV x.vd (a.converted x), []))) := by
  simp only [execVcvt, halfSource_eq, halfTarget_zero, halfTarget_add]
  rfl

section
variable {s : State} {c : Ctl} (h : VxReady s c) (x : VX)
include h

theorem execVcvt_done (hfit : s.convertFits x) : ∃ t, execVcvt c x s = .next t ∧ VxDone s t c 4 [keyV x.vd] [] [] (putV s.ctile x.vd (s.converted x)) := by
  refine ⟨_, execVcvt_eq c x s, State.vxOrder_wrV h rfl (VNeed.unitsApart_nil rfl) rfl ?_⟩
  have hchk := State.vxChk_both_of_fits hfit
  rw [← State.actives] at hchk
  simp [hchk, State.converted]

theorem execVcvt_ill (hfit : ¬ s.convertFits x) : execVcvt c x s = .next (s.takeTrap ill) := by
  have hchk := State.vxChk_both_of_not_fits hfit
  rw [← State.actives] at hchk
  exact (execVcvt_eq c x s).trans (congrArg Host.Outcome.next (State.vxOrder_trap h rfl (by simp [hchk])))

theorem execVpack_done (hd : x.vd < 64)
    (hfit : Fits s 32 (List.range 128) ∧ Fits s 8 ((List.range (groupBytes x.vc)).map (groupBytes x.vc * x.opt + ·))) :
    ∃ t, execVpack c x s = .next t ∧ VxDone s t c 6 [keyV x.vd] [] [] (putV s.ctile x.vd (s.packed x)) := by
  refine ⟨_, rfl, State.vxOrder_wrV h rfl (VNeed.unitsApart_keyV hd rfl (by simp [keyPack])) rfl ?_⟩
  simp [State.vxChk_of_fits hfit.1, State.vxChk_of_fits hfit.2, State.packed, State.groupOf, funext (State.popFor_laneVal s c s.cur.eng _ _)]

theorem execVpack_ill (hfit : ¬ (Fits s 32 (List.range 128) ∧ Fits s 8 ((List.range (groupBytes x.vc)).map (groupBytes x.vc * x.opt + ·)))) :
    execVpack c x s = .next (s.takeTrap ill) :=
  congrArg Host.Outcome.next (State.vxOrder_trap h rfl (by simp [State.vxChk_both_of_not_fits hfit]))

theorem execVunpk_done (hfit : Fits s 32 (List.range 128) ∧ Fits s 8 ((List.range (groupBytes x.vc)).map (groupBytes x.vc * x.opt + ·))) :
    ∃ t, execVunpk c x s = .next t ∧ VxDone s t c 4 [keyV x.vd] [] [] (putV s.ctile x.vd (s.unpacked x)) := by
  refine ⟨_, rfl, State.vxOrder_wrV h rfl (VNeed.unitsApart_nil rfl) rfl ?_⟩
  simp [State.vxChk_of_fits hfit.1, State.vxChk_of_fits hfit.2, State.unpacked]

theorem execVunpk_ill (hfit : ¬ (Fits s 32 (List.range 128) ∧ Fits s 8 ((List.range (groupBytes x.vc)).map (groupBytes x.vc * x.opt + ·)))) :
    execVunpk c x s = .next (s.takeTrap ill) :=
  congrArg Host.Outcome.next (State.vxOrder_trap h rfl (by simp [State.vxChk_both_of_not_fits (mt And.symm hfit)]))
end

/-! The lanes that they write. -/

theorem lane_converted_narrow (s : State) (x : VX) (hn : laneCount x.vc ≤ laneCount x.ty) {j : Nat} (hj : j < laneCount x.ty) :
    lane (s.converted x) (laneWidth x.ty) j =
      if x.opt * laneCount x.vc ≤ j ∧ j < x.opt * laneCount x.vc + laneCount x.vc ∧ s.active x.km (j - x.opt * laneCount x.vc) = true
      then roundTo x.ty (s.laneVal x.vc x.va (j - x.opt * laneCount x.vc)) x.rm (x.nosat == 1) (s.vrnd x.rm j) % 2 ^ laneWidth x.ty
      else lane (s.rdV x.vd) (laneWidth x.ty) j := by
  rw [State.converted, lane_mapLanes_if _ (fun j => decide (halfTarget x 0 ≤ j) && decide (j < halfTarget x (min (laneCount x.vc) (laneCount x.ty))) &&
    s.active x.km (j - halfTarget x 0)) _ (laneWidth_mul_laneCount_le _) hj]
  simp only [halfTarget, halfSource, if_pos hn, Nat.add_zero, Nat.min_eq_left hn]
  exact if_congr (by simp [and_assoc]) rfl rfl

theorem lane_converted_wide (s : State) (x : VX) (hn : laneCount x.ty < laneCount x.vc) {j : Nat} (hj : j < laneCount x.ty) :
    lane (s.converted x) (laneWidth x.ty) j =
      if s.active x.km j then roundTo x.ty (s.laneVal x.vc x.va (x.opt * laneCount x.ty + j)) x.rm (x.nosat == 1) (s.vrnd x.rm j) % 2 ^ laneWidth x.ty
      else lane (s.rdV x.vd) (laneWidth x.ty) j := by
  rw [State.converted, lane_mapLanes_if _ (fun j => decide (halfTarget x 0 ≤ j) && decide (j < halfTarget x (min (laneCount x.vc) (laneCount x.ty))) &&
    s.active x.km (j - halfTarget x 0)) _ (laneWidth_mul_laneCount_le _) hj]
  simp only [halfTarget, halfSource, if_neg (not_le.mpr hn), Nat.sub_zero, Nat.min_eq_right hn.le]
  exact if_congr (by simp [hj]) rfl rfl

theorem lane_packed (s : State) (x : VX) {j : Nat} (hj : j < 512) : lane (s.packed x) 8 j =
    if groupBytes x.vc * x.opt ≤ j ∧ j < groupBytes x.vc * x.opt + groupBytes x.vc
    then (s.groupOf x).getD (j - groupBytes x.vc * x.opt) 0 % 256 else lane (s.rdV x.vd) 8 j := by
  rw [State.packed, lane_mapLanes_if _ (fun j => decide (groupBytes x.vc * x.opt ≤ j) && decide (j < groupBytes x.vc * x.opt + groupBytes x.vc)) _
    le_rfl hj]
  exact if_congr (by simp) rfl rfl

theorem lane_unpacked (s : State) (x : VX) {j : Nat} (hj : j < 128) : lane (s.unpacked x) 32 j =
    roundTo x.ty (unpackElem x.vc (fun k => lane (s.rdV x.va) 8 (groupBytes x.vc * x.opt + k)) j) x.rm false (s.vrnd x.rm j) % 2 ^ 32 := by
  rw [State.unpacked, lane_mapLanes _ _ le_rfl hj]
  rfl

end Sys2Proof.Machine

namespace Sys2Proof.Proofs
open Sys2Proof.Machine Sys2Proof.Claims

/-- Settles O29: VCMP writes one mask, VSEL one register, and VBCAST is lane-wise with one lane more to read. -/
theorem compareSelect : Obligations.CompareSelect := by
  intro c x s hs act all l
  refine ⟨fun _ => ⟨execVcmp_ill hs x, execVcmp_done hs x⟩, fun _ => ⟨execVsel_ill hs x, execVsel_done hs x⟩, fun _ => ⟨?_, ?_, ?_⟩⟩
  · exact fun hill => execVbcast_ill hs x (.inr hill)
  · exact execVbcast_done hs x
  · exact fun hl => execVbcast_ill hs x (.inl hl)

/-- Settles O31: each of the three writes one register, whose lanes are those of its half or group. -/
theorem convertAndPack : Obligations.ConvertAndPack := by
  intro c x s hs
  refine ⟨fun _ => ⟨execVcvt_ill hs x, fun hfit => ?_⟩, fun hwf => ⟨execVpack_ill hs x, fun hfit => ?_⟩, fun _ => ⟨execVunpk_ill hs x, fun hfit => ?_⟩⟩
  · obtain ⟨t, ht, hdone⟩ := execVcvt_done hs x hfit
    exact ⟨t, _, ht, hdone, fun hn j hj => lane_converted_narrow s x hn hj, fun hn j hj => lane_converted_wide s x hn hj⟩
  · have hwf' : (c.wf && x.wf false && packOk x.vc x.ty x.opt && x.vb == 0 && x.km == 0 && x.nosat == 0 &&
      (if x.vc == 8 || x.vc == 9 then x.rm ≤ 4 else x.rm == 0)) = true := hwf
    have hd : x.vd < 64 := VX.vd_lt (by simp only [Bool.and_eq_true] at hwf'; tauto)
    obtain ⟨t, ht, hdone⟩ := execVpack_done hs x hd hfit
    exact ⟨t, _, ht, hdone, fun j hj => lane_packed s x hj⟩
  · obtain ⟨t, ht, hdone⟩ := execVunpk_done hs x hfit
    exact ⟨t, _, ht, hdone, fun j hj => lane_unpacked s x hj⟩

end Sys2Proof.Proofs
end

section
/-! PROOFS. The reductions of VX (R103, R202): what a tree of pairs keeps of its list. -/
namespace Sys2Proof.Machine
open Sys2Proof.Claims

/-! ### The tree (R103) -/

section
variable {α : Type} (op : Nat → α → α → α)

theorem length_pairUp (i : Nat) (xs : List α) : (pairUp op i xs).length = (xs.length + 1) / 2 := by
  fun_induction pairUp op i xs with
  | case1 i a b r ih => simp only [List.length_cons, ih]; omega
  | case2 i r hr =>
    match r, hr with
    | [], _ => simp
    | [_], _ => simp
    | a :: b :: r, hr => exact (hr a b r rfl).elim

/-- A tree of 2^k lanes leaves one value. -/
theorem length_reduceTree (n k : Nat) (xs : List α) (h : xs.length = 2 ^ k) : (reduceTree op n k xs).length = 1 := by
  induction k generalizing xs with
  | zero => exact h
  | succ k ih =>
    refine ih _ ?_
    rw [length_pairUp, h, Nat.pow_succ]
    omega

/-- What every pass keeps, the tree keeps. -/
theorem reduceTree_keeps {op} {P : List α → Prop} (hP : ∀ i xs, P xs → P (pairUp op i xs)) (n k : Nat) {xs : List α} (h : P xs) :
    P (reduceTree op n k xs) := by
  induction k generalizing xs with
  | zero => exact h
  | succ k ih => exact ih (hP _ _ h)

/-- The root of a tree of 2^k lanes. -/
theorem reduceTree_root (n k : Nat) (xs : List α) (h : xs.length = 2 ^ k) : ∃ r, reduceTree op n k xs = [r] :=
  List.length_eq_one_iff.mp (length_reduceTree op n k xs h)

end

/-- A pass of sums modulo `m` keeps the sum. -/
theorem sum_pairUp (m i : Nat) (xs : List Nat) : (pairUp (fun _ p q => (p + q) % m) i xs).sum % m = xs.sum % m := by
  fun_induction pairUp (fun _ p q => (p + q) % m) i xs with
  | case1 i a b r ih =>
    rw [List.sum_cons, List.sum_cons, List.sum_cons, Nat.add_mod, ih, Nat.mod_mod, ← Nat.add_mod, Nat.add_assoc]
  | case2 i r => rfl

/-- A pass that keeps the greater of two by a key keeps members, and one that is as great for every element. -/
theorem mem_pairUp_pick {key : Nat → Int} (i : Nat) (xs : List Nat) :
    (∀ r ∈ pairUp (fun _ p q => if key p < key q then q else p) i xs, r ∈ xs) ∧
      ∀ x ∈ xs, ∃ r ∈ pairUp (fun _ p q => if key p < key q then q else p) i xs, key x ≤ key r := by
  fun_induction pairUp (fun _ p q => if key p < key q then q else p) i xs with
  | case1 i a b r ih =>
    obtain ⟨hmem, hle⟩ := ih
    refine ⟨fun x hx => ?_, fun x hx => ?_⟩
    · rcases List.mem_cons.mp hx with rfl | hx
      · split <;> simp
      · exact .tail _ (.tail _ (hmem x hx))
    · rcases List.mem_cons.mp hx with rfl | hx
      · exact ⟨_, List.mem_cons_self, by split <;> omega⟩
      · rcases List.mem_cons.mp hx with rfl | hx
        · exact ⟨_, List.mem_cons_self, by split <;> omega⟩
        · obtain ⟨y, hy, hxy⟩ := hle x hx
          exact ⟨y, .tail _ hy, hxy⟩
  | case2 i r => exact ⟨fun _ h => h, fun x hx => ⟨x, hx, le_rfl⟩⟩

theorem reduceTree_sum {m n k r : Nat} {xs : List Nat} (h : reduceTree (fun _ p q => (p + q) % m) n k xs = [r]) : r % m = xs.sum % m := by
  have := reduceTree_keeps (P := fun ys => ys.sum % m = xs.sum % m) (fun i ys hys => (sum_pairUp m i ys).trans hys) n k rfl
  rw [h] at this
  simpa using this

theorem reduceTree_pick {key : Nat → Int} {n k r : Nat} {xs : List Nat}
    (h : reduceTree (fun _ p q => if key p < key q then q else p) n k xs = [r]) : r ∈ xs ∧ ∀ x ∈ xs, key x ≤ key r := by
  have hkeep := reduceTree_keeps (P := fun ys => (∀ y ∈ ys, y ∈ xs) ∧ ∀ x ∈ xs, ∃ y ∈ ys, key x ≤ key y)
    (fun i ys ⟨hmem, hle⟩ => ⟨fun y hy => hmem y ((mem_pairUp_pick i ys).1 y hy), fun x hx => by
      obtain ⟨y, hy, hxy⟩ := hle x hx
      obtain ⟨z, hz, hyz⟩ := (mem_pairUp_pick i ys).2 y hy
      exact ⟨z, hz, hxy.trans hyz⟩⟩) n k ⟨fun _ h => h, fun x hx => ⟨x, hx, le_rfl⟩⟩
  rw [h] at hkeep
  obtain ⟨hmem, hle⟩ := hkeep
  exact ⟨hmem r List.mem_cons_self, fun x hx => by simpa using hle x hx⟩

/-! ### Integers of a lane type (R75, R84) -/

/-- The bounds that a lane of an integer type keeps, and the one number that holds each integer. -/
theorem intOf_bounds {ty v : Nat} (ht : isIntLane ty = true) (hv : v < 2 ^ laneWidth ty) :
    intMin ty ≤ intOf ty v ∧ intBits ty (intOf ty v) = v ∧ intBits ty (intMin ty) < 2 ^ laneWidth ty ∧ intOf ty (intBits ty (intMin ty)) = intMin ty := by
  simp only [isIntLane, Bool.and_eq_true, decide_eq_true_eq] at ht
  obtain ⟨hlo, hhi⟩ := ht
  interval_cases ty <;> simp [laneWidth, intMin, intOf, intBits, isSignedTy, elemBits, sext, field] at hv ⊢ <;> omega

/-- The lanes of a type that has lanes are a power of two in number. -/
theorem laneCount_eq_two_pow {ty : Nat} (ht : isLane ty = true) : laneCount ty = 2 ^ Nat.log2 (laneCount ty) := by
  have hty : ty < 0x13 := by
    by_contra hge
    have hzero : laneWidth ty = 0 := by rw [laneWidth] <;> omega
    simp [isLane, hzero] at ht
  revert ht
  interval_cases ty <;> decide

theorem isLane_of_isIntLane {ty : Nat} (h : isIntLane ty = true) : isLane ty = true := by
  simp [isLane, (isIntLane_pos h).ne']

theorem isLane_of_isFloat3 {ty : Nat} (h : isFloat3 ty = true) : isLane ty = true := by
  simp only [isFloat3, decide_eq_true_eq] at h
  interval_cases ty <;> decide

/-! ### A reduction (R202) -/

/-- The values that a reduction starts from, and the register that it writes: its root in lane 0. -/
def State.leaves (s : State) (x : VX) (ident : Nat) : List Nat :=
  (List.range (laneCount x.ty)).map (fun j => if s.active x.km j then s.laneBits x.ty x.va j else ident)
def State.reduced (s : State) (x : VX) (root : Nat) : VReg :=
  mapLanes (s.rdV x.vd) (laneWidth x.ty) (laneCount x.ty) (fun j => if j = 0 then some root else none)

theorem State.length_leaves {x : VX} (ht : isLane x.ty = true) (s : State) (ident : Nat) :
    (s.leaves x ident).length = 2 ^ Nat.log2 (laneCount x.ty) := by
  rw [State.leaves, List.length_map, List.length_range, ← laneCount_eq_two_pow ht]

theorem State.mem_leaves {s : State} {x : VX} {ident r : Nat} (h : r ∈ s.leaves x ident) :
    (∃ j ∈ activeLanes s x.ty x.km, r = s.laneBits x.ty x.va j) ∨ r = ident := by
  simp only [State.leaves, List.mem_map, List.mem_range] at h
  obtain ⟨j, hj, rfl⟩ := h
  split
  · next hact => exact .inl ⟨j, by rw [← State.actives_eq_activeLanes, State.actives, List.mem_filter, List.mem_range]; exact ⟨hj, hact⟩, rfl⟩
  · exact .inr rfl

theorem State.laneBits_mem_leaves {s : State} {x : VX} {j : Nat} (ident : Nat) (h : j ∈ activeLanes s x.ty x.km) :
    s.laneBits x.ty x.va j ∈ s.leaves x ident := by
  rw [← State.actives_eq_activeLanes, State.actives, List.mem_filter, List.mem_range] at h
  obtain ⟨hj, hact⟩ := h
  exact List.mem_map.mpr ⟨j, List.mem_range.mpr hj, if_pos hact⟩

/-- Where inactive lanes count zero, the leaves have the sum of the active lanes. -/
theorem State.sum_leaves (s : State) (x : VX) : (s.leaves x 0).sum = ((activeLanes s x.ty x.km).map (s.laneBits x.ty x.va)).sum := by
  rw [← State.actives_eq_activeLanes, State.actives, State.leaves]
  induction List.range (laneCount x.ty) with
  | nil => rfl
  | cons j js ih =>
    rw [List.map_cons, List.sum_cons, ih, List.filter_cons]
    cases s.active x.km j <;> simp

section
variable {s : State} {c : Ctl} (h : VxReady s c) {x : VX} {ident : Nat} {op : State → Nat → Nat → Nat → Nat}
include h

theorem State.reduce_ill (hfit : ¬ Fits s (laneWidth x.ty) (activeLanes s x.ty x.km)) : s.reduce c x ident op = .next (s.takeTrap ill) :=
  congrArg Host.Outcome.next (State.vxOrder_trap h rfl (by simp [State.vxChk_actives_of_not_fits hfit]))

/-- A reduction gives lane 0 the root of its tree and leaves the other lanes. -/
theorem State.reduce_done {root : Nat} (ht : isLane x.ty = true)
    (hroot : reduceTree (op (s.popFor c s.cur.eng)) (laneCount x.ty) (Nat.log2 (laneCount x.ty)) (s.leaves x ident) = [root])
    (hfit : Fits s (laneWidth x.ty) (activeLanes s x.ty x.km)) : ∃ (t : State) (v : VReg), s.reduce c x ident op = .next t ∧
      VxDone s t c (4 + 2 * Nat.log2 (laneCount x.ty)) [keyV x.vd] [] [] (putV s.ctile x.vd v) ∧ lane v (laneWidth x.ty) 0 = root % 2 ^ laneWidth x.ty ∧
      ∀ j, 1 ≤ j → j < laneCount x.ty → lane v (laneWidth x.ty) j = lane (s.rdV x.vd) (laneWidth x.ty) j := by
  refine ⟨_, s.reduced x root, rfl, State.vxOrder_wrV h rfl (VNeed.unitsApart_nil rfl) rfl ?_, ?_, fun j hj hlt => ?_⟩
  · rw [State.leaves] at hroot
    simp [State.vxChk_actives_of_fits hfit, State.reduced, hroot]
  · have hpos : 0 < laneCount x.ty := laneCount_eq_two_pow ht ▸ Nat.two_pow_pos _
    rw [State.reduced, lane_mapLanes _ _ (laneWidth_mul_laneCount_le _) hpos]
    rfl
  · rw [State.reduced, lane_mapLanes _ _ (laneWidth_mul_laneCount_le _) hlt, if_neg (Nat.one_le_iff_ne_zero.mp hj)]
    rfl
end

/-- The root of a maximum of integers: the least integer with no active lane, and else the greatest of these. -/
theorem State.maxRoot_spec {s : State} {x : VX} (ht : isIntLane x.ty = true) {n k r : Nat}
    (hr : reduceTree (fun _ p q => if intOf x.ty p < intOf x.ty q then q else p) n k (s.leaves x (intBits x.ty (intMin x.ty))) = [r]) :
    r < 2 ^ laneWidth x.ty ∧ (activeLanes s x.ty x.km = [] → r = intBits x.ty (intMin x.ty)) ∧
      (activeLanes s x.ty x.km ≠ [] → (∃ j, j ∈ activeLanes s x.ty x.km ∧ r = s.laneBits x.ty x.va j) ∧
        ∀ j, j ∈ activeLanes s x.ty x.km → s.laneInt x.ty x.va j ≤ intOf x.ty r) := by
  obtain ⟨hmem, hmax⟩ := reduceTree_pick hr
  have hle : ∀ j ∈ activeLanes s x.ty x.km, intOf x.ty (s.laneBits x.ty x.va j) ≤ intOf x.ty r := fun j hj => hmax _ (s.laneBits_mem_leaves _ hj)
  have hlane := fun j => intOf_bounds ht (s.laneBits_lt x.ty x.va j)
  obtain ⟨-, -, hlt, hmin⟩ := hlane 0
  refine ⟨?_, fun hnil => ?_, fun hne => ⟨?_, hle⟩⟩
  · rcases State.mem_leaves hmem with ⟨j, -, rfl⟩ | rfl
    · exact s.laneBits_lt ..
    · exact hlt
  · rcases State.mem_leaves hmem with ⟨j, hj, -⟩ | hr
    · exact absurd (hnil ▸ hj) List.not_mem_nil
    · exact hr
  · rcases State.mem_leaves hmem with hact | rfl
    · exact hact
    · obtain ⟨j, hj⟩ := List.exists_mem_of_ne_nil _ hne
      obtain ⟨hlo, hbits, -, -⟩ := hlane j
      have heq : intOf x.ty (s.laneBits x.ty x.va j) = intMin x.ty := le_antisymm ((hle j hj).trans_eq hmin) hlo
      exact ⟨j, hj, heq ▸ hbits⟩

end Sys2Proof.Machine

namespace Sys2Proof.Proofs
open Sys2Proof.Machine Sys2Proof.Claims

theorem vredsum_lane {c : Ctl} {x : VX} (hwf : (Instr.vredsum c x).wf = true) : isFloat3 x.ty = true ∨ isIntLane x.ty = true := by
  have h := (Bool.and_eq_true_iff.mp hwf).2
  simp only [Bool.or_eq_true, Bool.and_eq_true] at h
  tauto

theorem vredmax_lane {c : Ctl} {x : VX} (hwf : (Instr.vredmax c x).wf = true) : isFloat3 x.ty = true ∨ isIntLane x.ty = true := by
  simpa using (Bool.and_eq_true_iff.mp hwf).2

/-- Settles O32: the tree's root is the sum modulo the width, or the greatest lane, by what each of its passes keeps. -/
theorem reductions : Obligations.Reductions := by
  intro c x s hs n w act done
  have hact : act = activeLanes s x.ty x.km := State.act_eq_activeLanes ..
  have hdone : ∀ {i : Instr} {ident : Nat} {op : State → Nat → Nat → Nat → Nat} {root : Nat} {r : Nat → Prop}, isLane x.ty = true →
      exec i s = s.reduce c x ident op →
      reduceTree (op (s.popFor c s.cur.eng)) n (Nat.log2 n) (s.leaves x ident) = [root] → r (root % 2 ^ w) → done i r := by
    intro i ident op root r ht hi hroot hr
    simp only [done, Whole, hact, hi]
    refine ⟨State.reduce_ill hs, fun hfit => ?_⟩
    obtain ⟨t, v, hnext, hv, hzero, hrest⟩ := State.reduce_done hs ht hroot hfit
    exact ⟨t, v, hnext, hv, hzero ▸ hr, hrest⟩
  refine ⟨fun hwf => ⟨fun hf => ?_, fun hf => ?_⟩, fun hwf => ⟨fun hf => ?_, fun hf => ?_⟩⟩
  · have ht := (vredsum_lane hwf).resolve_left (by simp [hf])
    obtain ⟨root, hroot⟩ := reduceTree_root (fun _ p q => (p + q) % 2 ^ w) n (Nat.log2 n) _ (s.length_leaves (isLane_of_isIntLane ht) 0)
    refine hdone (i := .vredsum c x) (r := fun r => r = (act.map (s.laneBits x.ty x.va)).sum % 2 ^ w) (ident := 0) (op := fun _ _ p q => (p + q) % 2 ^ w) (isLane_of_isIntLane ht)
      (if_neg (by rw [hf]; exact Bool.false_ne_true)) hroot ?_
    rw [reduceTree_sum hroot, State.sum_leaves, hact]
  · obtain ⟨root, hroot⟩ := reduceTree_root (fun i p q => roundTo x.ty ((valOf x.ty p).add (valOf x.ty q) x.rm) x.rm false (s.vrnd x.rm i)) n
      (Nat.log2 n) _ (s.length_leaves (isLane_of_isFloat3 hf) ((ffmt x.ty).signBit true))
    refine hdone (i := .vredsum c x) (r := fun r => r = (reduceTree _ n (Nat.log2 n) (s.leaves x ((ffmt x.ty).signBit true))).getD 0 0 % 2 ^ w)
      (isLane_of_isFloat3 hf) (if_pos hf) (by simpa only [State.popFor_vrnd] using hroot) ?_
    rw [hroot, List.getD_cons_zero]
  · have ht := (vredmax_lane hwf).resolve_left (by simp [hf])
    obtain ⟨root, hroot⟩ := reduceTree_root (fun _ p q => if intOf x.ty p < intOf x.ty q then q else p) n (Nat.log2 n) _
      (s.length_leaves (isLane_of_isIntLane ht) (intBits x.ty (intMin x.ty)))
    obtain ⟨hlt, hspec⟩ := State.maxRoot_spec ht hroot
    refine hdone (i := .vredmax c x) (r := fun r => (act = [] → r = intBits x.ty (intMin x.ty)) ∧ (act ≠ [] →
        (∃ j, j ∈ act ∧ r = s.laneBits x.ty x.va j) ∧ ∀ j, j ∈ act → s.laneInt x.ty x.va j ≤ intOf x.ty r))
      (op := fun _ _ p q => if intOf x.ty p < intOf x.ty q then q else p) (isLane_of_isIntLane ht)
      (if_neg (by rw [hf]; exact Bool.false_ne_true)) hroot ?_
    rw [Nat.mod_eq_of_lt hlt, hact]
    exact hspec
  · obtain ⟨root, hroot⟩ := reduceTree_root (fun _ p q => roundTo x.ty ((valOf x.ty p).rmax (valOf x.ty q)) 0 false 0) n (Nat.log2 n) _
      (s.length_leaves (isLane_of_isFloat3 hf) ((ffmt x.ty).infBits true))
    refine hdone (i := .vredmax c x) (r := fun r => r = (reduceTree _ n (Nat.log2 n) (s.leaves x ((ffmt x.ty).infBits true))).getD 0 0 % 2 ^ w)
      (op := fun _ _ p q => roundTo x.ty ((valOf x.ty p).rmax (valOf x.ty q)) 0 false 0) (isLane_of_isFloat3 hf) (if_pos hf) hroot ?_
    rw [hroot, List.getD_cons_zero]

end Sys2Proof.Proofs
end

section
/-! PROOFS. A store of VX in the state of a handler (R203, R295). -/

namespace Sys2Proof.Proofs
open Sys2Proof.Machine Sys2Proof.Claims

/-- A store of one 32-bit lane, under mask 1. -/
def oneLaneStore : VMem := { vd := 0, buf := 0, vi := 0, ty := 0, km := 1, path := 0, off := 0 }

/-- A tile whose handler flag is set; VX may write buffer 0. -/
def flaggedTile : Tile := { hflag := true, k := [(1, 1)], seg := { wset := [(3, 1)] } }

/-- A region whose handlers run; its tile declares all of VX and buffer 0. -/
def handlerSlot : Slot :=
  { st := .running, w := 1, h := 1, rcc := 1, handler := true, imgs := [(0, { mask := 2, decls := [(0, { valid := true, len := 1 })] })] }

/-- That region, with an order of its VX in hand. -/
def handlerStore : State := { State.reset with
  cur := { agent := .region 0, eng := 3 }, tiles := [(0, flaggedTile)],
  slots := [(0, handlerSlot)] }

/-- The changes at the ends of cycles that an outcome leaves in the tile in hand. -/
def effsAfter (o : Host.Outcome State Fault Refusal) : Option (List (Nat × Eff)) :=
  match o with
  | .next t => some t.ctile.effs
  | _ => none

theorem vst_handlerStore : effsAfter (exec (.vst noCtl oneLaneStore) handlerStore) = some [] := by decide +kernel

theorem handlerStore_ready : VxReady handlerStore noCtl where
  due := {
    atU := rfl
    legal := rfl
    fresh := rfl
    due := by decide
    timed := fun h => nomatch h
    later := by decide
    token := fun h => nomatch h
    first := rfl }
  ready _ := Nat.zero_le _

theorem handlerStore_lanes : activeLanes handlerStore oneLaneStore.ty oneLaneStore.km = [0] := by decide +kernel

theorem handlerStore_checks :
    writeFault handlerStore 3 oneLaneStore.buf (VMemOff handlerStore oneLaneStore false 0) (laneWidth oneLaneStore.ty / 8) = none := by decide +kernel

/-- Refutes O34: the statement says that a store of VX makes its buffer FULL at the end of the cycle, for every state of the region. While
its handlers run the model has the buffer FULL at once, as for a handler's own store, and lists nothing for the end of the cycle. -/
theorem not_vectorMemory : ¬ Obligations.VectorMemory := by
  intro h
  obtain ⟨-, hstore⟩ := h noCtl oneLaneStore false handlerStore handlerStore_ready rfl (fun _ _ _ _ _ _ hm => nomatch hm)
  obtain ⟨-, -, hdone⟩ := hstore rfl
  obtain ⟨himmediate, -⟩ := hdone ⟨.inl rfl, (fun h => nomatch h)⟩ (by
    rw [handlerStore_lanes]
    simpa using handlerStore_checks)
  obtain ⟨t, hexec, hvx, -⟩ := himmediate rfl
  obtain ⟨f, hissued, -⟩ := hvx.issued
  have hrun := vst_handlerStore
  rw [show exec (.vst noCtl oneLaneStore) handlerStore = .next t from hexec] at hrun
  have hnone : t.ctile.effs = [] := Option.some.inj hrun
  have heffs := hissued.effs
  rw [hnone, handlerStore_lanes] at heffs
  simp at heffs

end Sys2Proof.Proofs
end

section
/-! PROOFS. The orders of VX that read a buffer or an accumulator: bit fields, accumulator reads, seeding (R106, R204 to R206, R210). -/
namespace Sys2Proof.Machine
open Sys2Proof.Claims

/-! ### Runs of checks -/

section
variable {α β ε : Type} {f : α → Except ε β}

theorem mapM_eq_ok {g : α → β} {xs : List α} (h : ∀ x ∈ xs, f x = .ok (g x)) : xs.mapM f = .ok (xs.map g) := by
  induction xs with
  | nil => rfl
  | cons x xs ih =>
    obtain ⟨hx, hxs⟩ := List.forall_mem_cons.mp h
    rw [List.mapM_cons, hx, ih hxs]
    rfl

/-- The first element that fails names the error. -/
theorem mapM_eq_error {g : α → β} {pre : List α} {x : α} (post : List α) {t : ε} (hpre : ∀ y ∈ pre, f y = .ok (g y)) (hx : f x = .error t) :
    (pre ++ x :: post).mapM f = .error t := by
  induction pre with
  | nil => rw [List.nil_append, List.mapM_cons, hx]; rfl
  | cons y pre ih =>
    obtain ⟨hy, hpre⟩ := List.forall_mem_cons.mp hpre
    rw [List.cons_append, List.mapM_cons, hy, ih hpre]
    rfl
end

/-! ### Reads of a buffer (R49, R318) -/

theorem State.readBuf_ok {s : State} {e b off n : Nat} (hecc : s.ctile.ecc = []) (h : readFault s e b off n = none) :
    s.readBuf e b off n = .ok (s.bufBytes b off n) := by
  rw [State.readBuf, State.chkRead_eq, h, Tile.bad_of_clean hecc]
  rfl

theorem State.readBuf_fault {s : State} {e b off n : Nat} {t : Cause} (h : readFault s e b off n = some t) :
    s.readBuf e b off n = .error (accessTrap t b off) := by
  rw [State.readBuf, State.chkRead_eq, h]
  rfl

theorem State.bufBytes_eq (s : State) (b off n : Nat) :
    s.bufBytes b off n = (List.range n).map (fun k => Store.get 0 ((s.decl b).base * 4096 + off + k) s.ctile.sram) :=
  Store.getN_eq_map ..

@[simp] theorem State.popFor_decl (s : State) (c : Ctl) (e b : Nat) : (s.popFor c e).decl b = s.decl b := by
  unfold State.popFor
  split <;> rfl
@[simp] theorem State.popFor_bufBytes (s : State) (c : Ctl) (e b off n : Nat) : (s.popFor c e).bufBytes b off n = s.bufBytes b off n := by
  rw [State.bufBytes, State.popFor_decl, State.popFor_ctile, State.bufBytes]
  split <;> rfl
@[simp] theorem State.popFor_readBuf (s : State) (c : Ctl) (g e b off n : Nat) : (s.popFor c g).readBuf e b off n = s.readBuf e b off n := by
  simp only [State.readBuf, State.popFor_bufBytes, State.chkRead, State.popFor_decl, State.popFor_ctile]
  cases c.pops && s.atU with
  | false => rfl
  | true => rfl

theorem State.popFor_clean {s : State} (h : s.ctile.ecc = []) (c : Ctl) (e : Nat) : (s.popFor c e).ctile.ecc = [] := by
  rw [State.popFor_ctile]
  split
  · exact h
  · exact h

theorem State.foldl_correct_of_clean {s : State} (h : s.ctile.ecc = []) {α : Type} (xs : List α) (space n : Nat) (addr : α → Nat) :
    xs.foldl (fun (u : State) x => u.correct space (addr x) n) s = s := by
  induction xs with
  | nil => rfl
  | cons x xs ih => rw [List.foldl_cons, State.correct_of_clean h, ih]

/-- A VX order whose body first reads pieces of a buffer raises the trap of the first that fails. -/
theorem firstFault_of {s : State} {c : Ctl} {n : VNeed} {body : State → Except Trap (State × List Eff)} (h : VxReady s c) (ha : n.also = true)
    {i : Instr} (hi : exec i s = .next (s.vxOrder c n body)) {js : List Nat} {b w e : Nat} {off : Nat → Nat} (hecc : s.ctile.ecc = [])
    (hb : ∀ t, js.mapM (fun j => s.readBuf e b (off j) w) = .error t → body (s.popFor c s.cur.eng) = .error t) :
    FirstFault s i js b off (fun j => readFault s e b (off j) w) := by
  intro pre j post t hjs hpre hj
  rw [hi, State.vxOrder_trap h ha]
  refine hb _ ?_
  rw [hjs]
  exact mapM_eq_error (g := fun k => s.bufBytes b (off k) w) post (fun k hk => State.readBuf_ok hecc (hpre k hk)) (State.readBuf_fault hj)

/-! ### Bit fields (R106, R107, R204, R205) -/

section
variable {s u : State} {c : Ctl} {l : List (Nat × Eff)} {x : Tile} (h : OrderBody s u c l x)
include h

theorem OrderBody.setBfxV (p : BitVec 576) : OrderBody s (u.setCtile { u.ctile with bfxV := p }) c l { x with bfxV := p } :=
  h.setCtile rfl rfl rfl rfl (congrArg (fun t : Tile => { t with bfxV := p }) h.plain)

theorem OrderBody.setBfxS (p : BitVec 576) (ty : Nat) :
    OrderBody s (u.setCtile { u.ctile with bfxS := p, slotTy := ty }) c l { x with bfxS := p, slotTy := ty } :=
  h.setCtile rfl rfl rfl rfl (congrArg (fun t : Tile => { t with bfxS := p, slotTy := ty }) h.plain)
end

section
variable {s : State} {c : Ctl} (h : VxReady s c) (m : VMem)

/-- The pattern that BFXCFG reads, and what it refuses. -/
def State.patternAt (s : State) (m : VMem) : BitVec 576 :=
  BitVec.ofNat 576 (leNat ((List.range 72).map (fun k => Store.get 0 ((s.decl m.buf).base * 4096 + m.off + k) s.ctile.sram)))
def patternBad (m : VMem) (p : BitVec 576) : Prop :=
  bfxOk p = false ∨ (m.path = 0 ∧ m.ty ≠ 0) ∨ (m.path = 1 ∧ (slotType m.ty = false ∨ elemBits m.ty < bfxWidest p))

theorem patternBad_iff (p : BitVec 576) :
    (!bfxOk p || (m.path == 0 && m.ty != 0) || (m.path == 1 && (!slotType m.ty || elemBits m.ty < bfxWidest p))) = true ↔ patternBad m p := by
  simp [patternBad, or_assoc]

/-- The nine words of a pattern are its 72 bytes. -/
theorem State.patternWords (s : State) (m : VMem) :
    BitVec.ofNat 576 (leNat ((List.range 9).map (fun k => s.bufBytes m.buf (m.off + 8 * k) 8)).flatten) = s.patternAt m := by
  have haddr (k : Nat) : (s.decl m.buf).addr (m.off + 8 * k) = (s.decl m.buf).addr m.off + 8 * k := (Nat.add_assoc _ _ _).symm
  simp only [State.bufBytes, haddr]
  rw [Store.flatten_getN 0 _ _ 8 9, Store.getN_eq_map]
  rfl

/-- Where its words pass their checks, BFXCFG judges the pattern that they hold. -/
theorem State.patternReads {s : State} {m : VMem} (hecc : s.ctile.ecc = []) (hok : ∀ k, k < 9 → readFault s 3 m.buf (m.off + 8 * k) 8 = none) :
    (List.range 9).mapM (fun k => s.readBuf 3 m.buf (m.off + 8 * k) 8) = .ok ((List.range 9).map (fun k => s.bufBytes m.buf (m.off + 8 * k) 8)) :=
  mapM_eq_ok fun k hk => State.readBuf_ok hecc (hok k (List.mem_range.mp hk))

include h

theorem execBfxcfg_fault (hecc : s.ctile.ecc = []) (hclear : Clear s 3 m.buf m.off 72) :
    FirstFault s (.bfxcfg c m) (List.range 9) m.buf (fun k => m.off + 8 * k) (fun k => readFault s 3 m.buf (m.off + 8 * k) 8) :=
  firstFault_of h (by rw [hclear.pending_eq_false]; rfl) rfl hecc (fun t ht => by simp only [State.popFor_readBuf, ht])

variable (hecc : s.ctile.ecc = []) (hclear : Clear s 3 m.buf m.off 72) (hok : ∀ k, k < 9 → readFault s 3 m.buf (m.off + 8 * k) 8 = none)
include hecc hclear hok

theorem execBfxcfg_ill (hbad : patternBad m (s.patternAt m)) : execBfxcfg c m s = .next (s.takeTrap ill) := by
  refine congrArg Host.Outcome.next (State.vxOrder_trap h (by rw [hclear.pending_eq_false]; rfl) ?_)
  simp only [State.popFor_readBuf, State.patternReads hecc hok, State.patternWords]
  exact if_pos ((patternBad_iff m _).mpr hbad)

theorem execBfxcfg_vector (hbad : ¬ patternBad m (s.patternAt m)) (hp : m.path = 0) :
    ∃ t, execBfxcfg c m s = .next t ∧ VxDone s t c 3 [] [] [] { s.ctile with bfxV := s.patternAt m } := by
  refine ⟨_, rfl, State.vxOrder_holds h (by rw [hclear.pending_eq_false]; rfl) (fun _ _ hk => nomatch hk) rfl rfl ?_
    ((OrderBody.popFor h.due.atU c).setBfxV (s.patternAt m))⟩
  simp only [State.popFor_readBuf, State.patternReads hecc hok, State.patternWords, State.correct_of_clean (State.popFor_clean hecc c s.cur.eng)]
  rw [if_neg (mt (patternBad_iff m _).mp hbad), if_pos hp]

theorem execBfxcfg_slot (hbad : ¬ patternBad m (s.patternAt m)) (hp : m.path = 1) :
    ∃ t, execBfxcfg c m s = .next t ∧ VxDone s t c 3 [] [] [.mxPat (s.patternAt m) m.ty] { s.ctile with bfxS := s.patternAt m, slotTy := m.ty } := by
  refine ⟨_, rfl, State.vxOrder_holds h (by rw [hclear.pending_eq_false]; rfl) (fun _ _ hk => nomatch hk) rfl rfl ?_
    ((OrderBody.popFor h.due.atU c).setBfxS (s.patternAt m) m.ty)⟩
  simp only [State.popFor_readBuf, State.patternReads hecc hok, State.patternWords, State.correct_of_clean (State.popFor_clean hecc c s.cur.eng)]
  rw [if_neg (mt (patternBad_iff m _).mp hbad), if_neg (by rw [hp]; exact one_ne_zero)]
end

/-! VBFX. -/

/-- The stream bytes that VBFX reads, and the register that it writes. -/
def State.streamBytes (s : State) (m : VMem) : List Nat := (s.actives m.km 256).flatMap (bfxBytes s.ctile.bfxV)
def State.extracted (s : State) (m : VMem) : VReg :=
  mapLanes (s.rdV m.vd) 16 256 (fun j => if s.active m.km j
    then some (bfxElem s.ctile.bfxV 16 (leNat (s.bufBytes m.buf m.off ((bfxBit s.ctile.bfxV j + 16) / 8 + 1))) j) else none)

section
variable {s : State} {c : Ctl} (h : VxReady s c) (m : VMem) (hclear : ∀ k, k ∈ s.streamBytes m → Clear s 3 m.buf (m.off + k) 1)
include hclear

theorem State.streamClear : (s.streamBytes m).all (fun k => !s.pending 3 m.buf (m.off + k) 1) = true := by
  simp only [List.all_eq_true, Bool.not_eq_true']
  exact fun k hk => (hclear k hk).pending_eq_false

include h

theorem execVbfx_ill (hill : ¬ Fits s 16 (s.actives m.km 256) ∨ bfxPeriod s.ctile.bfxV = 0) :
    execVbfx c m s = .next (s.takeTrap ill) := by
  refine congrArg Host.Outcome.next (State.vxOrder_trap h (State.streamClear m hclear) ?_)
  by_cases hfit : Fits s 16 (s.actives m.km 256)
  · simp only [State.popFor_vxChk, State.popFor_actives, State.vxChk_of_fits hfit]
    exact if_pos (hill.resolve_left (not_not.mpr hfit))
  · simp only [State.popFor_vxChk, State.popFor_actives, State.vxChk_of_not_fits hfit]

variable (hecc : s.ctile.ecc = []) (hfit : Fits s 16 (s.actives m.km 256)) (hp : bfxPeriod s.ctile.bfxV ≠ 0)
include hecc hfit hp

theorem execVbfx_fault : FirstFault s (.vbfx c m) (s.streamBytes m) m.buf (m.off + ·) (fun k => readFault s 3 m.buf (m.off + k) 1) := by
  refine firstFault_of h (State.streamClear m hclear) rfl hecc fun t ht => ?_
  rw [State.streamBytes] at ht
  simp only [State.popFor_vxChk, State.popFor_actives, State.vxChk_of_fits hfit, if_neg hp, State.popFor_readBuf, ht]

theorem execVbfx_done (hd : m.vd < 64) (hok : ∀ k, k ∈ s.streamBytes m → readFault s 3 m.buf (m.off + k) 1 = none) :
    ∃ t, execVbfx c m s = .next t ∧ VxDone s t c 6 [keyV m.vd] [] [] (putV s.ctile m.vd (s.extracted m)) := by
  refine ⟨_, rfl, State.vxOrder_wrV h (State.streamClear m hclear) (VNeed.unitsApart_keyV hd rfl (by simp [keyBfx, keyPort])) rfl ?_⟩
  have hread : (s.streamBytes m).mapM (fun k => s.readBuf 3 m.buf (m.off + k) 1) = .ok ((s.streamBytes m).map (fun k => s.bufBytes m.buf (m.off + k) 1)) :=
    mapM_eq_ok fun k hk => State.readBuf_ok hecc (hok k hk)
  rw [State.streamBytes] at hread
  simp only [State.popFor_vxChk, State.popFor_actives, State.vxChk_of_fits hfit, if_neg hp, State.popFor_readBuf, hread,
    State.foldl_correct_of_clean (State.popFor_clean hecc c s.cur.eng), State.popFor_active, State.popFor_bufBytes, State.popFor_rdV, State.extracted]
end

end Sys2Proof.Machine

namespace Sys2Proof.Proofs
open Sys2Proof.Machine Sys2Proof.Claims

/-- Settles O35: both orders read their pieces of the buffer first; a pattern is then judged, or its fields extracted. -/
theorem bitFields : Obligations.BitFields := by
  intro c m s hs hecc d p word bad
  refine ⟨fun _ hclear => ⟨execBfxcfg_fault hs m hecc hclear, fun hok => ⟨?_, ?_, ?_⟩⟩, fun hwf hclear => ⟨?_, ?_, ?_, fun hfit hp hok => ?_⟩⟩
  · exact execBfxcfg_ill hs m hecc hclear hok
  · exact execBfxcfg_vector hs m hecc hclear hok
  · exact execBfxcfg_slot hs m hecc hclear hok
  · exact fun hfit => execVbfx_ill hs m hclear (.inl hfit)
  · exact fun hp => execVbfx_ill hs m hclear (.inr hp)
  · exact execVbfx_fault hs m hclear hecc
  · have hwf' : (c.wf && m.wf && m.path == 0 && m.ty == 0 && m.vi == 0) = true := hwf
    have hd : m.vd < 64 := by
      simp only [VMem.wf, Bool.and_eq_true, decide_eq_true_eq] at hwf'
      tauto
    obtain ⟨t, ht, hdone⟩ := execVbfx_done hs m hclear hecc hfit hp hd hok
    exact ⟨t, _, ht, hdone, fun j hj => lane_mapLanes_if _ _ _ le_rfl hj⟩

end Sys2Proof.Proofs
end

section
/-! PROOFS. VACC, VSEED and rank coding (R191, R206, R210 to R212). -/
namespace Sys2Proof.Machine
open Sys2Proof.Claims

@[simp] theorem State.popFor_accEl (s : State) (c : Ctl) (e : Nat) : (s.popFor c e).ctile.accEl = s.ctile.accEl := by
  rw [State.popFor_ctile]
  split <;> rfl
@[simp] theorem State.popFor_shadow (s : State) (c : Ctl) (e : Nat) : (s.popFor c e).ctile.shadow = s.ctile.shadow := by
  rw [State.popFor_ctile]
  split <;> rfl

/-! ### VACC (R206) -/

/-- The first element of VACC, and the number that its lane `j` takes. -/
def accFirst (a : VAcc) : Nat := 128 * a.row + 64 * a.colh
def State.accNumber (s : State) (a : VAcc) (j : Nat) : Nat :=
  if a.ty = 0x12 then (s.ctile.accEl a.acc (accFirst a + j)).toNat
  else roundTo a.ty (waVal a.cls (s.ctile.accEl a.acc (accFirst a + j))) a.rm (a.nosat == 1) (s.vrnd a.rm j)
/-- That number as the model has it, of an element of a residue the low word alone. -/
def State.accLane (s : State) (a : VAcc) (j : Nat) : Nat :=
  if a.ty = 0x12 then bits (s.ctile.accEl a.acc (accFirst a + j)).toNat 0 64
  else roundTo a.ty (waVal a.cls (s.ctile.accEl a.acc (accFirst a + j))) a.rm (a.nosat == 1) (s.vrnd a.rm j)

theorem State.accLane_mod (s : State) (a : VAcc) (j : Nat) : s.accLane a j % 2 ^ laneWidth a.ty = s.accNumber a j % 2 ^ laneWidth a.ty := by
  rw [State.accLane, State.accNumber]
  split
  · next hty => simp [bits, hty, laneWidth]
  · rfl

section
variable {s : State} {c : Ctl} (h : VxReady s c) (a : VAcc) (hq : s.ctile.accQuiet a.acc = true)
include h hq

theorem execVacc_ill (hill : s.img.mxn = false ∨ ¬ Fits s (laneWidth a.ty) (activeLanes s a.ty a.km) ∨ accFirst a % laneCount a.ty ≠ 0) :
    execVacc c a s = .next (s.takeTrap ill) := by
  refine congrArg Host.Outcome.next (State.vxOrder_trap h hq ?_)
  rw [accFirst] at hill
  simp only [State.popFor_img, State.popFor_vxChk, State.popFor_actives]
  cases hm : s.img.mxn with
  | false => rfl
  | true =>
    by_cases hfit : Fits s (laneWidth a.ty) (activeLanes s a.ty a.km)
    · rw [State.vxChk_actives_of_fits hfit]
      have hmod := (hill.resolve_left (by simp [hm])).resolve_left (not_not.mpr hfit)
      simp [hmod]
    · rw [State.vxChk_actives_of_not_fits hfit]
      rfl

variable (hm : s.img.mxn = true) (hfit : Fits s (laneWidth a.ty) (activeLanes s a.ty a.km)) (hmod : accFirst a % laneCount a.ty = 0)
include hm hfit hmod

theorem execVacc_shadow (hp : 4 ≤ a.acc ∧ (s.ctile.shadow a.acc).st = .pending) : execVacc c a s = .next (s.takeTrap { cause := .shadow }) := by
  refine congrArg Host.Outcome.next (State.vxOrder_trap h hq ?_)
  rw [accFirst] at hmod
  simp [State.vxChk_actives_of_fits hfit, hm, hmod, hp.1, hp.2]

theorem execVacc_done (hecc : s.ctile.ecc = []) (hp : ¬ (4 ≤ a.acc ∧ (s.ctile.shadow a.acc).st = .pending)) :
    ∃ t, execVacc c a s = .next t ∧
      LaneDone s t { c := c, vd := a.vd, ty := a.ty, km := a.km, lat := 6, value := fun s j => s.accNumber a j } := by
  refine ⟨_, rfl, _, State.vxOrder_wrV (vd := a.vd) (v := mapLanes (s.rdV a.vd) (laneWidth a.ty) (laneCount a.ty)
    (fun j => if s.active a.km j then some (s.accLane a j) else none))
    h hq (VNeed.unitsApart_nil rfl) rfl ?_, fun j hj => ?_⟩
  · have hclean := State.popFor_clean hecc c s.cur.eng
    have hbad : ((s.actives a.km (laneCount a.ty)).any fun j =>
        (s.popFor c s.cur.eng).ctile.bad 6 (accAddr a.acc (128 * a.row + 64 * a.colh + j)) 9) = false := by
      simp [Tile.bad_of_clean hclean]
    rw [accFirst] at hmod
    have hsh : (decide (4 ≤ a.acc) && (s.ctile.shadow a.acc).st == .pending) = false := by
      rw [Bool.eq_false_iff]
      simpa using hp
    simp only [State.popFor_img, hm, State.popFor_vxChk, State.popFor_actives, State.vxChk_actives_of_fits hfit, hmod, State.popFor_shadow, hsh, hbad,
      State.foldl_correct_of_clean hclean, State.popFor_rdV, State.popFor_active, State.popFor_accEl, State.popFor_vrnd]
    simp [State.accLane, accFirst]
  · rw [lane_mapLanes_if _ _ _ (laneWidth_mul_laneCount_le _) hj]
    exact if_congr State.active_iff (s.accLane_mod a j) rfl
end

/-! ### VSEED (R191, R210) -/

theorem OrderBody.setSeed {s u : State} {c : Ctl} {l : List (Nat × Eff)} {x : Tile} (h : OrderBody s u c l x) (v : Word) :
    OrderBody s (u.setCtile { u.ctile with srseed := v }) c l { x with srseed := v } :=
  h.setCtile rfl rfl rfl rfl (congrArg (fun t : Tile => { t with srseed := v }) h.plain)

theorem Tile.afterV_stepless (t : Tile) {n : VNeed} (now : Nat) (hw : n.writes = []) (hu : n.units = []) (hs : n.steps = false) : t.afterV n now = t := by
  rw [Tile.afterV, hw, hu, hs]
  rfl

/-- A VX order that holds nothing and counts no frame step. -/
theorem State.vxOrder_stepless {s u : State} {c : Ctl} {n : VNeed} {body : State → Except Trap (State × List Eff)} {l : List (Nat × Eff)} {effs : List Eff}
    {x : Tile} (h : VxReady s c) (ha : n.also = true) (hw : n.writes = []) (hn : n.units = []) (hs : n.steps = false)
    (hb : body (s.popFor c s.cur.eng) = .ok (u, effs)) (hu : OrderBody s u c l x) : restSame s (s.vxOrder c n body) ∧
      (s.vxOrder c n body).ctile.plain = x.plain ∧ ∃ f, Issued s (s.vxOrder c n body) c f l ∧ f.retire = some (s.now + n.lat - 1) ∧ f.effs = effs := by
  have hafter : u.setCtile (u.ctile.afterV n u.now) = u.setCtile u.ctile := congrArg u.setCtile (Tile.afterV_stepless u.ctile u.now hw hn hs)
  have hu' : OrderBody s (u.setCtile u.ctile) c l x := hu.setCtile rfl rfl rfl rfl hu.plain
  rw [State.vxOrder, State.engineOrder_go (r := (u.setCtile u.ctile, { retire := some (u.now + n.lat - 1), effs := effs })) rfl h.due
    (VNeed.ready_of_vxReady h ha) rfl (by simp only [hb, hafter])]
  obtain ⟨hrest, hplain, -, f, hf, hret, heffs⟩ := OrderBody.commit (n := { ctl := c, free := n.ready s.ctile s.now }) hu' h.due
    { retire := some (u.now + n.lat - 1), effs := effs }
  exact ⟨hrest, hplain, f, hf, hu.rest.now ▸ hret, heffs⟩

theorem execVseed_done {s : State} {c : Ctl} (h : VxReady s c) (x : VX) : ∃ (t : State) (f : Flight), execVseed c x s = .next t ∧ restSame s t ∧
    Issued s t c f [] ∧ f.retire = some s.now ∧ f.effs = [.mxSeed ((Store.get 0 x.va s.ctile.v).setWidth 64)] ∧
    t.ctile.plain = ({ s.ctile with srseed := (Store.get 0 x.va s.ctile.v).setWidth 64 } : Tile).plain := by
  have hseed : BitVec.ofNat 64 (lane (s.rdV x.va) 64 0) = (Store.get 0 x.va s.ctile.v).setWidth 64 :=
    BitVec.eq_of_toNat_eq (by simp [lane, bits, State.rdV])
  obtain ⟨hrest, hplain, f, hf, hret, heffs⟩ := State.vxOrder_stepless (n := { reads := [keyV x.va], lat := 1, steps := false }) h rfl rfl rfl rfl
    (body := fun a => .ok (a.setCtile { a.ctile with srseed := BitVec.ofNat 64 (lane (a.rdV x.va) 64 0) },
      [.mxSeed (BitVec.ofNat 64 (lane (a.rdV x.va) 64 0))]))
    rfl ((OrderBody.popFor h.due.atU c).setSeed _)
  rw [State.popFor_rdV, hseed] at hplain heffs
  exact ⟨_, f, rfl, hrest, hf, hret, heffs, hplain⟩

end Sys2Proof.Machine

namespace Sys2Proof.Proofs
open Sys2Proof.Machine Sys2Proof.Claims

/-- Settles O36: VACC is a lane-wise order after its checks, in their order; VSEED holds nothing and counts no step. -/
theorem accumulatorReadSeed : Obligations.AccumulatorReadSeed := by
  intro c s hs hecc
  refine ⟨fun a _ hq => ⟨?_, ?_, ?_⟩, fun x _ => execVseed_done hs x⟩
  · exact execVacc_ill hs a hq
  · exact execVacc_shadow hs a hq
  · exact fun hm hfit hmod hp => execVacc_done hs a hq hm hfit hmod hecc hp

end Sys2Proof.Proofs
end

section
/-! PROOFS. Rank coding in VX (R211, R212, R344). -/
namespace Sys2Proof.Machine
open Sys2Proof.Claims

/-! ### RANK (R211) -/

/-- The eligible elements of RANK, the bits of one, their order by value, and the register of the stream. -/
def State.rankActive (s : State) (x : VRank) : List Nat := (List.range (64 * (x.nblk + 1))).filter (s.active x.km)
def State.rankBits (s : State) (x : VRank) (i : Nat) : Nat :=
  if x.src = 0 then s.laneBits x.ty (x.va + i / laneCount x.ty) (i % laneCount x.ty)
  else leNat (s.bufBytes x.va (x.off + i * (laneWidth x.ty / 8)) (laneWidth x.ty / 8))
def State.rankOrder (s : State) (x : VRank) : List Nat :=
  rankSort (((s.rankActive x).map (fun i => (i, valOf x.ty (s.rankBits x i)))).filter (fun e => !e.2.isNan))
def State.ranked (s : State) (x : VRank) : VReg :=
  mapLanes (s.rdV x.vd) 16 256 (fun r => if r < x.km1 + 1 then some ((s.rankOrder x).getD r 0xFFFF) else none)

/-- What RANK touches fits the position, and its operands lie in range. -/
def State.rankFits (s : State) (x : VRank) : Prop :=
  Fits s (laneWidth x.ty) (if x.src = 0 then (s.rankActive x).map (· % laneCount x.ty) else []) ∧ Fits s 16 (List.range (x.km1 + 1))
def rankLegal (x : VRank) : Prop :=
  (x.km ≠ 0 → 64 * (x.nblk + 1) ≤ 512) ∧ (x.src = 0 → x.va + ceilDiv (64 * (x.nblk + 1)) (laneCount x.ty) ≤ 64)

theorem State.active_or (s : State) (km j : Nat) : (km == 0 || s.active km j) = s.active km j := by
  rw [State.active, ← Bool.or_assoc, Bool.or_self]

/-- What the mask and the bound of RANK refuse. -/
theorem rankLegal_iff (x : VRank) : rankLegal x ↔ ¬ ((x.km != 0 && decide (512 < 64 * (x.nblk + 1))) = true) ∧
    ¬ ((x.src == 0 && decide (64 < x.va + ceilDiv (64 * (x.nblk + 1)) (laneCount x.ty))) = true) := by
  simp [rankLegal]

section
variable {s : State} {c : Ctl} (h : VxReady s c) (x : VRank)
  (hclear : x.src ≠ 0 → s.ctile.ecc = [] ∧ ∀ i, i ∈ s.rankActive x → Clear s 3 x.va (x.off + i * (laneWidth x.ty / 8)) (laneWidth x.ty / 8))
include hclear

theorem State.rankClear_of_clear : s.rankClear x (64 * (x.nblk + 1)) (laneWidth x.ty) = true := by
  by_cases hsrc : x.src = 0
  · simp [State.rankClear, hsrc]
  · obtain ⟨-, hpend⟩ := hclear hsrc
    simp only [State.rankClear, State.active_or, Bool.or_eq_true, List.all_eq_true]
    refine .inr fun i hi => ?_
    cases hact : s.active x.km i with
    | false => exact .inl rfl
    | true =>
      have hmem : i ∈ s.rankActive x := List.mem_filter.mpr ⟨hi, hact⟩
      exact .inr (by rw [(hpend i hmem).pending_eq_false]; rfl)

include h

theorem execRank_ill (hill : ¬ (s.rankFits x ∧ rankLegal x)) : execRank c x s = .next (s.takeTrap ill) := by
  refine congrArg Host.Outcome.next (State.vxOrder_trap h (State.rankClear_of_clear x hclear) ?_)
  simp only [State.popFor_active, State.active_or, State.popFor_vxChk]
  by_cases hfit : s.rankFits x
  · have hchk := State.vxChk_both_of_fits hfit
    rw [State.rankActive] at hchk
    rw [hchk]
    by_cases hkm : (x.km != 0 && decide (512 < 64 * (x.nblk + 1))) = true
    · exact if_pos hkm
    · have hva := not_not.mp fun hva => hill ⟨hfit, (rankLegal_iff x).mpr ⟨hkm, hva⟩⟩
      exact (if_neg hkm).trans (if_pos hva)
  · have hchk := State.vxChk_both_of_not_fits hfit
    rw [State.rankActive] at hchk
    rw [hchk]

variable (hfit : s.rankFits x) (hlegal : rankLegal x)
include hfit hlegal

theorem execRank_fault (hsrc : x.src = 1) : FirstFault s (.rank c x) (s.rankActive x) x.va (fun i => x.off + i * (laneWidth x.ty / 8))
    (fun i => readFault s 3 x.va (x.off + i * (laneWidth x.ty / 8)) (laneWidth x.ty / 8)) := by
  intro pre j post t hjs hpre hj
  have hn : x.src ≠ 0 := by omega
  obtain ⟨hecc, -⟩ := hclear hn
  obtain ⟨hkm, hva⟩ := (rankLegal_iff x).mp hlegal
  have hchk := State.vxChk_both_of_fits hfit
  refine congrArg Host.Outcome.next (State.vxOrder_trap h (State.rankClear_of_clear x hclear) ?_)
  simp only [State.popFor_active, State.active_or, State.popFor_vxChk, State.popFor_readBuf]
  rw [State.rankActive] at hchk hjs
  rw [hchk, hjs]
  simp only [hkm, hva, if_neg hn, Bool.false_eq_true, if_false]
  rw [mapM_eq_error (g := fun i => (i, valOf x.ty (leNat (s.bufBytes x.va (x.off + i * (laneWidth x.ty / 8)) (laneWidth x.ty / 8))))) post]
  · exact fun k hk => by rw [State.readBuf_ok hecc (hpre k hk)]; rfl
  · rw [State.readBuf_fault hj]; rfl

theorem execRank_done (hd : x.vd < 64) (hsrc : x.src = 0 ∨ (x.src = 1 ∧ ∀ i, i ∈ s.rankActive x →
      readFault s 3 x.va (x.off + i * (laneWidth x.ty / 8)) (laneWidth x.ty / 8) = none)) :
    ∃ t, execRank c x s = .next t ∧ VxDone s t c (36 + ceilDiv (64 * (x.nblk + 1)) 128 + 4 * clog2 (ceilDiv (64 * (x.nblk + 1)) 128) +
      ceilDiv (x.km1 + 1) 16) [keyV x.vd] [] [] (putV s.ctile x.vd (s.ranked x)) := by
  obtain ⟨hkm, hva⟩ := (rankLegal_iff x).mp hlegal
  have hchk := State.vxChk_both_of_fits hfit
  rw [State.rankActive] at hchk
  have hread : ∀ i ∈ s.rankActive x, (if x.src = 0 then (.ok (s.laneBits x.ty (x.va + i / laneCount x.ty) (i % laneCount x.ty)) : Except Trap Nat)
      else (s.readBuf 3 x.va (x.off + i * (laneWidth x.ty / 8)) (laneWidth x.ty / 8)).map leNat) = .ok (s.rankBits x i) := by
    intro i hi
    rw [State.rankBits]
    rcases hsrc with h0 | ⟨h1, hok⟩
    · rw [if_pos h0, if_pos h0]
    · have hn : x.src ≠ 0 := by omega
      obtain ⟨hecc, -⟩ := hclear hn
      rw [if_neg hn, if_neg hn, State.readBuf_ok hecc (hok i hi)]
      rfl
  refine ⟨_, rfl, State.vxOrder_wrV h (State.rankClear_of_clear x hclear) (VNeed.unitsApart_keyV hd rfl ?_) rfl ?_⟩
  · rcases hsrc with h0 | ⟨h1, -⟩
    · simp [h0, keyRank]
    · simp [h1, keyRank, keyPort]
  · simp only [State.popFor_active, State.active_or, State.popFor_vxChk, State.popFor_readBuf, State.popFor_laneBits]
    rw [hchk]
    simp only [hkm, hva, Bool.false_eq_true, if_false]
    rw [mapM_eq_ok (g := fun i => (i, valOf x.ty (s.rankBits x i)))]
    · have hleft : (if x.src = 1 then ((List.range (64 * (x.nblk + 1))).filter (s.active x.km)).foldl (fun (u : State) i => u.correct 3
          (((s.popFor c s.cur.eng).decl x.va).addr (x.off + i * (laneWidth x.ty / 8))) (laneWidth x.ty / 8)) (s.popFor c s.cur.eng)
          else s.popFor c s.cur.eng) = s.popFor c s.cur.eng := by
        rcases hsrc with h0 | ⟨h1, -⟩
        · exact if_neg (by omega)
        · rw [if_pos h1, State.foldl_correct_of_clean (State.popFor_clean (hclear (by omega)).1 c s.cur.eng)]
      simp only [hleft, State.popFor_rdV]
      rfl
    · exact fun i hi => by rw [hread i hi]; rfl
end

/-! ### RKVAL (R212) -/

/-- The stream of RKVAL with its flags, the number of one dense element, and the registers and the mask that it writes. -/
def State.rkWalk (s : State) (x : VRkval) : List (Nat × Nat) × List Nat :=
  rkvalWalk (laneCount x.ty * (x.nreg1 + 1)) (fun r => lane (s.rdV x.vi) 16 r) (x.km1 + 1) 0 [] []
def State.rkNumber (s : State) (x : VRkval) (i : Nat) : Nat :=
  match (s.rkWalk x).1.find? (fun e => e.1 == i) with
  | some e => roundTo x.ty (valOf 1 (Store.get 0 e.2 s.ctile.rctV).toNat) 0 false 0
  | none => s.laneBits x.ty x.vf 0
def State.rkReg (s : State) (x : VRkval) (m : Nat) : VReg :=
  mapLanes 0 (laneWidth x.ty) (laneCount x.ty) (fun j => some (s.rkNumber x (laneCount x.ty * m + j)))
def State.rkFlags (s : State) (x : VRkval) : Mask := maskOf (fun j => (s.rkWalk x).2.contains j)
def rkLegal (s : State) (x : VRkval) : Prop := s.img.vxall = true ∧ x.vd + x.nreg1 + 1 ≤ 64

/-- Where every lane is listed, the register that stood before has no part. -/
theorem mapLanes_all (old : VReg) (w n : Nat) (f : Nat → Nat) : mapLanes old w n (fun j => some (f j)) = mapLanes 0 w n (fun j => some (f j)) := rfl

/-- The writes of several registers. -/
theorem OrderBody.wrVs {s u : State} {c : Ctl} {l : List (Nat × Eff)} {x : Tile} (h : OrderBody s u c l x) (ms : List Nat) (vd : Nat) (v : Nat → VReg) :
    OrderBody s (ms.foldl (fun (u : State) m => u.wrV (vd + m) (v m)) u) c l (ms.foldl (fun y m => putV y (vd + m) (v m)) x) := by
  induction ms generalizing u x with
  | nil => exact h
  | cons m ms ih => exact ih (h.wrV (vd + m) (v m))

theorem foldl_putV_fstepV (ms : List Nat) (vd : Nat) (v : Nat → VReg) (x : Tile) :
    (ms.foldl (fun y m => putV y (vd + m) (v m)) x).fstepV = x.fstepV := by
  induction ms generalizing x with
  | nil => rfl
  | cons m ms ih => exact ih _

theorem regRange_filter {vd n : Nat} (h : vd + n ≤ 64) : (regRange vd n).filter (· < 64) = regRange vd n := by
  rw [List.filter_eq_self]
  intro r hr
  obtain ⟨m, hm, rfl⟩ := List.mem_map.mp hr
  have := List.mem_range.mp hm
  simp only [decide_eq_true_eq]
  omega

theorem State.popFor_rctV (s : State) (c : Ctl) (e : Nat) : (s.popFor c e).ctile.rctV = s.ctile.rctV := by
  rw [State.popFor_ctile]
  split <;> rfl

theorem State.popFor_rkWalk (s : State) (c : Ctl) (e : Nat) (x : VRkval) : (s.popFor c e).rkWalk x = s.rkWalk x := by
  rw [State.rkWalk, State.popFor_rdV, State.rkWalk]

theorem State.popFor_rkNumber (s : State) (c : Ctl) (e : Nat) (x : VRkval) (i : Nat) : (s.popFor c e).rkNumber x i = s.rkNumber x i := by
  simp only [State.rkNumber, State.popFor_rkWalk, State.popFor_rctV, State.popFor_laneBits]

theorem State.popFor_rkReg (s : State) (c : Ctl) (e : Nat) (x : VRkval) (m : Nat) : (s.popFor c e).rkReg x m = s.rkReg x m := by
  simp only [State.rkReg, State.popFor_rkNumber]

theorem State.popFor_rkFlags (s : State) (c : Ctl) (e : Nat) (x : VRkval) : (s.popFor c e).rkFlags x = s.rkFlags x := by
  simp only [State.rkFlags, State.popFor_rkWalk]

section
variable {s : State} {c : Ctl} (h : VxReady s c) (x : VRkval)
include h

theorem execRkval_ill (hill : ¬ rkLegal s x) : execRkval c x s = .next (s.takeTrap ill) := by
  refine congrArg Host.Outcome.next (State.vxOrder_trap h rfl ?_)
  simp only [State.popFor_img]
  cases hv : s.img.vxall with
  | false => rfl
  | true =>
    have hd : 64 < x.vd + (x.nreg1 + 1) := by
      by_contra hle
      exact hill ⟨hv, by omega⟩
    exact if_pos hd

theorem execRkval_done (hk : x.kd < 8) (hl : rkLegal s x) : ∃ t, execRkval c x s = .next t ∧
    VxDone s t c (6 + (x.nreg1 + 1) + ceilDiv (x.km1 + 1) 16) ((List.range (x.nreg1 + 1)).map (fun m => keyV (x.vd + m)) ++ maskKey x.kd) [] []
      (putK ((List.range (x.nreg1 + 1)).foldl (fun y m => putV y (x.vd + m) (s.rkReg x m)) s.ctile) x.kd (s.rkFlags x)) := by
  obtain ⟨hv, hrange⟩ := hl
  have hwrites : ((regRange x.vd (x.nreg1 + 1)).filter (· < 64)).map keyV ++ maskKey x.kd =
      (List.range (x.nreg1 + 1)).map (fun m => keyV (x.vd + m)) ++ maskKey x.kd := by
    rw [regRange_filter (by omega), regRange, List.map_map]
    rfl
  rw [← hwrites]
  refine ⟨_, rfl, State.vxOrder_holds h rfl ?_ rfl ((putK_fstepV ..).trans (foldl_putV_fstepV ..)) ?_
    (((OrderBody.popFor h.due.atU c).wrVs (List.range (x.nreg1 + 1)) x.vd (s.rkReg x)).wrK x.kd (s.rkFlags x))⟩
  · intro u hu hw
    obtain rfl : u = (keyRank, x.nreg1 + 1) := List.mem_singleton.mp hu
    have hkey : keyRank ∈ (List.range (x.nreg1 + 1)).map (fun m => keyV (x.vd + m)) ++ maskKey x.kd := hwrites ▸ hw
    simp only [List.mem_append, List.mem_map, List.mem_range, maskKey, keyRank, keyV, keyK] at hkey
    rcases hkey with ⟨m, hm, heq⟩ | hmask
    · omega
    · split at hmask
      · exact absurd hmask List.not_mem_nil
      · have := List.mem_singleton.mp hmask
        omega
  · simp only [State.popFor_img, hv]
    rw [if_neg (by simp), if_neg (by omega)]
    change Except.ok ((((List.range (x.nreg1 + 1)).foldl (fun (u : State) m => u.wrV (x.vd + m) ((s.popFor c s.cur.eng).rkReg x m))
      (s.popFor c s.cur.eng)).wrK x.kd ((s.popFor c s.cur.eng).rkFlags x)), []) = _
    simp only [State.popFor_rkReg, State.popFor_rkFlags]
end

end Sys2Proof.Machine

namespace Sys2Proof.Proofs
open Sys2Proof.Machine Sys2Proof.Claims

/-- Settles O37: both orders make their checks in turn, and write registers whose lanes are those of the stream and of the dense vector. -/
theorem rankCoding : Obligations.RankCoding := by
  intro c s hs
  refine ⟨fun r hwf => ?_, fun r hwf => ?_⟩
  · intro n nl w act off at_ fits legal el order hclear
    have hwf' : (c.wf && r.vd < 64 && r.va < 64 && r.nblk < 64 && r.ty ≤ 3 && r.km < 8 && r.src < 2 && r.km1 < 256 &&
      (if r.src == 1 then r.off < 2 ^ 26 else r.off == 0)) = true := hwf
    have hd : r.vd < 64 := by
      simp only [Bool.and_eq_true, decide_eq_true_eq] at hwf'
      tauto
    refine ⟨execRank_ill hs r hclear, fun hsrc hfit hlegal => execRank_fault hs r hclear hfit hlegal hsrc, fun hfit hlegal hsrc => ?_⟩
    obtain ⟨t, ht, hdone⟩ := execRank_done hs r hclear hfit hlegal hd hsrc
    refine ⟨t, _, ht, hdone, fun j hj => ?_⟩
    have horder : s.rankOrder r = order := by
      simp only [State.rankOrder, State.rankBits, State.bufBytes_eq]
      rfl
    rw [State.ranked, lane_mapLanes _ _ le_rfl hj, horder]
    by_cases hk : j ≤ r.km1
    · rw [if_pos hk, if_pos (by omega)]
      rfl
    · rw [if_neg hk, if_neg (by omega)]
      rfl
  · have hwf' : (c.wf && r.vd < 64 && r.vi < 64 && r.vf < 64 && r.ty ≤ 1 && r.kd < 8 && r.nreg1 < 16 && r.km1 < 256) = true := hwf
    simp only [Bool.and_eq_true, decide_eq_true_eq] at hwf'
    obtain ⟨⟨⟨⟨⟨⟨-, -⟩, -⟩, -⟩, hk⟩, -⟩, -⟩ := hwf'
    refine ⟨execRkval_ill hs r, fun hl => ?_⟩
    obtain ⟨t, ht, hdone⟩ := execRkval_done hs r hk hl
    refine ⟨t, s.rkReg r, s.rkFlags r, ht, hdone, fun j hj => maskOf_getLsbD _ hj, fun m j _ hj => ?_⟩
    rw [State.rkReg, lane_mapLanes _ _ (laneWidth_mul_laneCount_le _) hj]
    rfl

end Sys2Proof.Proofs
end

section
/-! PROOFS. A copy into a slot of a record without dimensions (R220, R225). -/

namespace Sys2Proof.Proofs
open Sys2Proof.Machine Sys2Proof.Claims

/-- A record of no dimension, of 8-bit integers, with a pattern of one field of one bit in periods of 8: NDIM 0, TYPE 0x0A, BFX 1. -/
def dimlessRecord : List Byte := [1, 0x50, 1] ++ List.replicate 109 0 ++ [8, 1]

/-- A tile that holds that record in its cache; slot 0 is claimed, and its first byte is 5. -/
def dimlessTile : Tile := { claim := 1, opmem := [(0, 5)], cache := [(0, { valid := true, va := 0, data := dimlessRecord })] }

/-- A running region of that tile, with a copy of CI into the slot in hand. -/
def dimlessCopy : State := { State.reset with
  cur := { agent := .region 0, eng := 1 }, tiles := [(0, dimlessTile)], slots := [(0, { st := .running, w := 1, h := 1, rcc := 1 })] }

def slotCopy : CopySlot := { slot := 0, sw := 0, idx := 0, h := 0, off := 0, land := landNone }

/-- The byte of operand memory that an outcome leaves at an address. -/
def opByteAfter (o : Host.Outcome State Fault Refusal) (a : Nat) : Option Byte :=
  match o with
  | .next t => some (Store.get 0 a t.ctile.opmem)
  | _ => none

theorem cpslot_dimlessCopy : opByteAfter (exec (.cpslot noCtl slotCopy) dimlessCopy) 0 = some 5 := by decide +kernel

theorem recordOf_dimlessCopy : recordOf dimlessCopy 0 = dimlessRecord := by decide +kernel

theorem dimlessCopy_ready : MoveReady dimlessCopy noCtl [0] false where
  due := {
    atU := rfl
    legal := rfl
    fresh := by decide +kernel
    due := by decide +kernel
    timed := by decide +kernel
    later := by decide +kernel
    token := by decide +kernel
    first := by decide +kernel }
  cached h hh := by
    rw [List.mem_singleton] at hh
    subst hh
    decide +kernel
  room := by decide +kernel
  clear := by
    rw [show dimlessCopy.ctile.flights = [] by decide +kernel]
    exact fun _ hf => nomatch hf
  mode := (fun h => nomatch h)

/-- Refutes O38: the statement does not say that the record is well formed. One of no dimension has no unit, inside the tensor or outside, so a
copy with a pattern writes nothing, while the statement has its box, outside as a whole, make the bytes of the slot zero. -/
theorem not_copiesIn : ¬ Obligations.CopiesIn := by
  intro h
  have harmed : armed dimlessCopy 0 (recBytes (recordOf dimlessCopy 0))
      (recBytes (recordOf dimlessCopy 0) - boxLen (boxElems (recordOf dimlessCopy 0) 0)) (swMake true 0 0) := by
    rw [recordOf_dimlessCopy]
    exact ⟨swMake false 0 1, by decide +kernel, by decide +kernel⟩
  obtain ⟨-, hslot⟩ := h noCtl dimlessCopy 0 0 0 _ none harmed
  obtain ⟨t, hexec, -, -, -, hzero, -⟩ := hslot slotCopy 1 rfl rfl rfl dimlessCopy_ready (by decide +kernel) (by decide) (by decide +kernel) (by decide +kernel)
    (by rw [recordOf_dimlessCopy]; decide +kernel) (by decide) (by
      rw [show dimlessCopy.ctile.flights = [] by decide +kernel]
      exact fun _ _ hf => nomatch hf)
  rw [recordOf_dimlessCopy] at hzero
  have hbyte := hzero (by decide +kernel) (by decide +kernel) 0
  have hrun := cpslot_dimlessCopy
  rw [hexec] at hrun
  have hfive : Store.get 0 0 t.ctile.opmem = (5 : Byte) := Option.some.inj hrun
  rw [hfive, if_pos (by decide)] at hbyte
  exact absurd hbyte (by decide)

end Sys2Proof.Proofs
end

section
/-! PROOFS. A movement order of CI or CO that nothing delays (R63, R214 to R217): what its body changes, rule by rule, and what it leaves. -/

namespace Sys2Proof.Machine
open Sys2Proof.Claims

/-! ### The gate of an engine order that is due (R31 to R33) -/

/-- Where its unit and its operands are not ready, or its wait is not met, a due order is held, or raises OVERRUN by the lower condition. -/
theorem State.engineGate_due {s : State} (n : ENeed) (h : Due s n.ctl) : n.gate s.ctile s.ceng s.cur.eng s.now =
    if n.free && n.met then .go else if s.ctile.timed then .trap (overrun (if n.free then 3 else 1) s.now) else .stall := by
  have hd := h.due
  have ht := h.timed
  have hl := h.later
  have hx := h.fresh
  have htok : tokenOk n.ctl s.ctile s.cur.eng = true := by
    simp only [tokenOk, Bool.or_eq_true, Bool.not_eq_true', bne_iff_ne]
    by_cases hp : n.ctl.pops = true
    · exact .inr (h.token hp)
    · exact .inl (by simpa using hp)
  unfold State.dueAt at hd ht
  unfold ENeed.gate
  cases hs : s.ceng.stamp <;> simp only [hs] at hd ht <;> simp only [hx, htok, bne_self_eq_false, Bool.false_eq_true, if_false] <;>
    cases hf : n.free <;> cases hm : n.met <;> by_cases htm : s.ctile.timed = true <;> simp_all [Nat.not_lt.mpr]

/-- A due order that is not ready, or whose wait is not met, is held in an elastic segment and raises OVERRUN in a timed one. -/
theorem State.engineOrder_waits {s : State} {n : ENeed} {body : State → Except Trap (State × Issue)} (hp : n.pre = none) (h : Due s n.ctl)
    (hw : (n.free && n.met) = false) :
    s.engineOrder n body = if s.ctile.timed then s.takeTrap (overrun (if n.free then 3 else 1) s.now) else s := by
  simp only [State.engineOrder, h.legal, if_true, hp, State.engineGate_due n h, hw, Bool.false_eq_true, if_false]
  cases s.ctile.timed <;> rfl

/-! ### The records of an order that is due (R214) -/

/-- A movement order is due, and `recs` is what it finds of its records, none of which it must wait for. -/
structure MoveDue (s : State) (c : Ctl) (handles : List Nat) (recs : List Rec) (elastic : Bool) : Prop where
  due : Due s c
  finds : handles.map (fun h => s.ctile.recState s.cur.eng (s.recVa h)) = recs
  found : toFetch recs = none
  room : (s.ctile.cmds.filter (fun k => k.eng == s.cur.eng)).length < 32
  clear : s.ctile.flights.all (fun f => f.eng != s.cur.eng || !f.blocks) = true
  mode : (elastic && s.ctile.timed) = false

/-- The records of an order, all of them cached. -/
def State.records (s : State) (handles : List Nat) : List Rec := handles.map (fun h => .cached (recordOf s h))

theorem toFetch_cached (ds : List (List Byte)) : toFetch (ds.map Rec.cached) = none := by simp [toFetch]

theorem noRecord_records (s : State) (handles : List Nat) : noRecord (s.records handles) = none := by
  simp [noRecord, State.records]

theorem State.records_head (s : State) (h : Nat) (hs : List Nat) : ((s.records (h :: hs)).headD (.failed 7)).data = recordOf s h := rfl

theorem recState_of_cached {s : State} {h : Nat} (hc : (s.ctile.cached (s.recVa h)).isSome = true) (e : Nat) :
    s.ctile.recState e (s.recVa h) = .cached (recordOf s h) := by
  obtain ⟨d, hd⟩ := Option.isSome_iff_exists.mp hc
  rw [Tile.recState, recordOf, hd]
  rfl

theorem clear_of_flights {fs : List Flight} {e : Nat} (h : ∀ f, f ∈ fs → f.eng = e → f.blocks = false) :
    fs.all (fun f => f.eng != e || !f.blocks) = true := by
  rw [List.all_eq_true]
  intro f hf
  by_cases he : f.eng = e
  · simp [h f hf he]
  · simp [he]

end Sys2Proof.Machine

namespace Sys2Proof.Claims
open Sys2Proof.Machine

theorem MoveReady.toDue {s : State} {c : Ctl} {handles : List Nat} {elastic : Bool} (h : MoveReady s c handles elastic) :
    MoveDue s c handles (s.records handles) elastic where
  due := h.due
  finds := List.map_congr_left fun q hq => recState_of_cached (h.cached q hq) _
  found := (congrArg toFetch (List.map_map (f := recordOf s) (g := Rec.cached) (l := handles))).symm.trans (toFetch_cached _)
  room := h.room
  clear := clear_of_flights h.clear
  mode := by
    cases he : elastic with
    | false => rfl
    | true => rw [h.mode he]; rfl

theorem RecordFailed.toDue {s : State} {c : Ctl} {q code : Nat} (h : RecordFailed s c q code) {elastic : Bool}
    (hm : elastic = true → s.ctile.timed = false) : MoveDue s c [q] [.failed code] elastic where
  due := h.due
  finds := by
    obtain ⟨d, hd⟩ := h.fetch
    simp [Tile.recState, h.absent, hd]
  found := rfl
  room := h.room
  clear := clear_of_flights h.clear
  mode := by
    cases he : elastic with
    | false => rfl
    | true => rw [hm he]; rfl

end Sys2Proof.Claims

namespace Sys2Proof.Machine
open Sys2Proof.Claims

/-! ### The gate of a movement order -/

/-- What the body of a movement order starts from: its token is popped, and a fetch of a record is over. -/
def State.moveStart (s : State) (c : Ctl) (handles : List Nat) : State :=
  if handles.isEmpty then s.popFor c s.cur.eng else (s.popFor c s.cur.eng).setCtile ((s.popFor c s.cur.eng).ctile.setFetch s.cur.eng none)

section
variable {s : State} {c : Ctl} {handles : List Nat} {recs : List Rec} {elastic : Bool} (h : MoveDue s c handles recs elastic)
  {body : State → List Rec → Except Trap (State × Issue)} {rdy : List Rec → Bool}
include h

/-- Past its records, a movement order is an engine order. -/
theorem MoveDue.moveOrder_eq (met : Bool) : s.moveOrder c handles elastic met body rdy =
    s.engineOrder { ctl := c, free := rdy recs, met := met } (fun a =>
      body (if handles.isEmpty then a else a.setCtile (a.ctile.setFetch s.cur.eng none)) recs) := by
  simp only [State.moveOrder, h.finds, h.found, h.mode, h.clear, decide_eq_true h.room, Option.isNone_none, Bool.true_and, Bool.and_true,
    Bool.false_eq_true, if_false, ite_self]

theorem MoveDue.moveOrder_go {r : State × Issue} (hr : rdy recs = true) (hb : body (s.moveStart c handles) recs = .ok r) :
    s.moveOrder c handles elastic true body rdy =
      r.1.setCtile (r.1.ctile.commitOrder { ctl := c, free := rdy recs, met := true } r.2 s.cur s.now) := by
  rw [h.moveOrder_eq]
  exact State.engineOrder_go rfl h.due hr rfl hb

theorem MoveDue.moveOrder_error {t : Trap} (hr : rdy recs = true) (hb : body (s.moveStart c handles) recs = .error t) :
    s.moveOrder c handles elastic true body rdy = s.takeTrap t := by
  rw [h.moveOrder_eq]
  exact State.engineOrder_error rfl h.due hr rfl hb

/-- An order whose operands are not ready is held, or raises OVERRUN with condition 1 (R32, R33). -/
theorem MoveDue.moveOrder_unready (hr : rdy recs = false) (met : Bool) :
    s.moveOrder c handles elastic met body rdy = if s.ctile.timed then s.takeTrap (overrun 1 s.now) else s := by
  rw [h.moveOrder_eq, State.engineOrder_waits rfl h.due (by rw [hr]; rfl), hr]
  rfl

/-- An order whose wait is not met is held, or raises OVERRUN with condition 3. -/
theorem MoveDue.moveOrder_unmet (hr : rdy recs = true) :
    s.moveOrder c handles elastic false body rdy = if s.ctile.timed then s.takeTrap (overrun 3 s.now) else s := by
  rw [h.moveOrder_eq, State.engineOrder_waits rfl h.due (by rw [hr]; rfl), hr]
  rfl
end

/-! ### What the body of a movement order changes (R63, R216) -/

/-- A tile without the bookkeeping of orders, its status words, its commands and its fetches of records. -/
def Tile.moveless (t : Tile) : Tile := { t.plain with sw := [], cmds := [], fetchCI := none, fetchCO := none }

theorem Tile.moveless_effs (t : Tile) (e : List (Nat × Eff)) : ({ t with effs := e } : Tile).moveless = t.moveless := rfl
theorem Tile.moveless_sw (t : Tile) (m : Store Word) : ({ t with sw := m } : Tile).moveless = t.moveless := rfl
theorem Tile.moveless_cmds (t : Tile) (ks : List Cmd) (n : Nat) : ({ t with cmds := ks, nextId := n } : Tile).moveless = t.moveless := rfl
theorem Tile.moveless_setFetch (t : Tile) (e : Nat) (f : Option Fetch) : (t.setFetch e f).moveless = t.moveless := by
  rw [Tile.setFetch]
  split <;> rfl

/-- A command of the order in hand, as it enters flight. -/
def State.issuedCmd (s : State) (k : Cmd) : Cmd :=
  { k with id := s.ctile.nextId, eng := s.cur.eng, order := s.cmdSeq, flight := some (s.ctile.nextId + 1), deadline := s.tb + s.region.timeout,
           issue := s.now }

/-- The tile in hand lists changes for the ends of cycles. -/
abbrev State.listEffs (u : State) (m : List (Nat × Eff)) : State := u.setCtile { u.ctile with effs := u.ctile.effs ++ m }

/-- The state `u` that the body of a movement order has made of `s`: as for every engine order, and besides that the status word `sw`
holds `w`, and the commands `ks` are in flight. -/
structure MoveBody (s u : State) (c : Ctl) (l : List (Nat × Eff)) (sw : Nat) (w : Word) (ks : List Cmd) (x : Tile) : Prop where
  rest : { u.offTiles with cmdSeq := s.cmdSeq } = s.offTiles
  tiles : ∀ p, p ≠ s.here → u.tile p = s.tile p
  engs : u.ctile.engs = s.ctile.engs
  tokens : ∀ k, Store.get 0 k u.ctile.tokens =
    if c.pops = true ∧ k = fifo c.tq s.cur.eng then Store.get 0 k s.ctile.tokens - 1 else Store.get 0 k s.ctile.tokens
  flights : u.ctile.flights = s.ctile.flights
  effs : u.ctile.effs = s.ctile.effs ++ l
  status : ∀ n, Store.get 0 n u.ctile.sw = if n = sw then w else Store.get 0 n s.ctile.sw
  cmds : u.ctile.cmds = s.ctile.cmds ++ ks
  next : u.ctile.nextId = s.ctile.nextId + ks.length
  seq : ks = [] → u.cmdSeq = s.cmdSeq
  moveless : u.ctile.moveless = x.moveless

section
variable {s u : State} {c : Ctl} {l : List (Nat × Eff)} {sw : Nat} {w : Word} {ks : List Cmd} {x : Tile} (h : MoveBody s u c l sw w ks x)
include h

theorem MoveBody.same {α : Type} (f : State → α) (hf : ∀ (v : State) (q : Nat), f { v.offTiles with cmdSeq := q } = f v) : f u = f s := by
  have hs : f s.offTiles = f s := (congrArg f (rfl : ({ s.offTiles with cmdSeq := s.cmdSeq } : State) = s.offTiles)).symm.trans (hf s _)
  rw [← hf u s.cmdSeq, h.rest, hs]

theorem MoveBody.here : u.here = s.here := h.same State.here fun _ _ => rfl
theorem MoveBody.atU : u.atU = s.atU := h.same State.atU fun _ _ => rfl
theorem MoveBody.now : u.now = s.now := h.same State.now fun _ _ => rfl
theorem MoveBody.eng : u.cur.eng = s.cur.eng := h.same (fun v => v.cur.eng) fun _ _ => rfl
theorem MoveBody.decl (b : Nat) : u.decl b = s.decl b := h.same (State.decl · b) fun _ _ => rfl
theorem MoveBody.slotNo : u.slotNo = s.slotNo := h.same State.slotNo fun _ _ => rfl
theorem MoveBody.recVa (q : Nat) : u.recVa q = s.recVa q := h.same (State.recVa · q) fun _ _ => rfl

/-- What depends on neither the bookkeeping of orders, nor status words, nor commands reads as in the tile that the body has made. -/
theorem MoveBody.reads {α : Type} (f : Tile → α) (hf : ∀ t : Tile, f t.moveless = f t) : f u.ctile = f x := by
  rw [← hf, h.moveless, hf]

theorem MoveBody.rdSw (hu : s.atU = true) : u.rdSw sw = w := by
  rw [State.rdSw, h.atU, hu, if_pos rfl, h.status, if_pos rfl]

/-- A change of the tile in hand that lists `m` for the ends of cycles and leaves `v` in the status word of the order. -/
theorem MoveBody.change {y z : Tile} {m : List (Nat × Eff)} {v : Word} (he : y.engs = u.ctile.engs) (ht : y.tokens = u.ctile.tokens)
    (hf : y.flights = u.ctile.flights) (hl : y.effs = u.ctile.effs ++ m)
    (hs : ∀ n, Store.get 0 n y.sw = if n = sw then v else Store.get 0 n u.ctile.sw) (hc : y.cmds = u.ctile.cmds)
    (hn : y.nextId = u.ctile.nextId) (hm : y.moveless = z.moveless) : MoveBody s (u.setCtile y) c (l ++ m) sw v ks z where
  rest := (rfl : ({ (u.setCtile y).offTiles with cmdSeq := s.cmdSeq } : State) = { u.offTiles with cmdSeq := s.cmdSeq }).trans h.rest
  tiles p hp := (State.setCtile_tile_other u y (h.here.symm ▸ hp)).trans (h.tiles p hp)
  engs := by rw [State.setCtile_ctile, he, h.engs]
  tokens k := by rw [State.setCtile_ctile, ht, h.tokens]
  flights := by rw [State.setCtile_ctile, hf, h.flights]
  effs := by rw [State.setCtile_ctile, hl, h.effs, List.append_assoc]
  status n := by
    rw [State.setCtile_ctile, hs, h.status]
    split <;> rfl
  cmds := by rw [State.setCtile_ctile, hc, h.cmds]
  next := by rw [State.setCtile_ctile, hn, h.next]
  seq := h.seq
  moveless := by rw [State.setCtile_ctile, hm]

/-- A change of the tile in hand beside the bookkeeping of orders, its status words and its commands. -/
theorem MoveBody.setCtile {y z : Tile} (he : y.engs = u.ctile.engs) (ht : y.tokens = u.ctile.tokens) (hf : y.flights = u.ctile.flights)
    (hl : y.effs = u.ctile.effs) (hs : y.sw = u.ctile.sw) (hc : y.cmds = u.ctile.cmds) (hn : y.nextId = u.ctile.nextId)
    (hm : y.moveless = z.moveless) : MoveBody s (u.setCtile y) c l sw w ks z :=
  List.append_nil l ▸ h.change he ht hf (hl.trans (List.append_nil _).symm) (fun n => by
    rw [hs]
    split
    · next hn => rw [hn, h.status, if_pos rfl]
    · rfl) hc hn hm

/-- Further changes that the body lists for the ends of cycles. -/
theorem MoveBody.addEffs (m : List (Nat × Eff)) : MoveBody s (u.listEffs m) c (l ++ m) sw w ks x :=
  h.change rfl rfl rfl rfl (fun n => by
    split
    · next hn => rw [hn, h.status, if_pos rfl]
    · rfl) rfl rfl ((Tile.moveless_effs _ _).trans h.moveless)

theorem MoveBody.wrSw (hu : s.atU = true) (v : Word) : MoveBody s (u.wrSw sw v) c l sw v ks x := by
  rw [State.wrSw, h.atU, hu, if_pos rfl]
  exact List.append_nil l ▸ h.change rfl rfl rfl (List.append_nil _).symm (fun n => by rw [Store.get_put]) rfl rfl
    ((Tile.moveless_sw _ _).trans h.moveless)

/-- Arming the status word of the order (R63). -/
theorem MoveBody.arm (hu : s.atU = true) {n : Nat} {v : Word} (hv : swArm w n = some v) :
    u.arm sw n = some (u.wrSw sw v, phaseOf w) := by
  rw [State.arm, h.rdSw hu, hv]
  rfl

theorem MoveBody.arm_none (hu : s.atU = true) {n : Nat} (hv : swArm w n = none) : u.arm sw n = none := by
  rw [State.arm, h.rdSw hu, hv]
  rfl

/-- Bytes of the order that are performed at its issue. -/
theorem MoveBody.perf (hu : s.atU = true) (ph : Bool) (n : Nat) : MoveBody s (u.perf sw ph n) c l sw (swPerform w ph n) ks x := by
  rw [State.perf, h.rdSw hu]
  exact h.wrSw hu _

/-- The status word completes with a code that taints nothing. -/
theorem MoveBody.statusWrite (hu : s.atU = true) {code : Nat} (hc : code ≠ 1) :
    MoveBody s (u.statusWrite sw code) c l sw (swStatus w code) ks x := by
  rw [State.statusWrite, h.rdSw hu, beq_eq_false_iff_ne.mpr hc]
  exact h.wrSw hu _
end

theorem State.addCmd_ctile (u : State) (k : Cmd) :
    (u.addCmd k).ctile = { u.ctile with cmds := u.ctile.cmds ++ [u.issuedCmd k], nextId := u.ctile.nextId + 1 } :=
  State.setCtile_ctile u _

section
variable {s u : State} {c : Ctl} {l : List (Nat × Eff)} {sw : Nat} {w : Word} {x : Tile}

theorem MoveBody.addCmd_issuedCmd (h : MoveBody s u c l sw w [] x) (k : Cmd) : u.issuedCmd k = s.issuedCmd k := by
  rw [State.issuedCmd, h.next, h.eng, h.seq rfl, h.now, h.same State.tb fun _ _ => rfl, h.same (fun v => v.region.timeout) fun _ _ => rfl]
  rfl

/-- The body starts with the token popped and the fetch of its records over. -/
theorem MoveBody.start (hu : s.atU = true) (c : Ctl) (handles : List Nat) (sw : Nat) :
    MoveBody s (s.moveStart c handles) c [] sw (Store.get 0 sw s.ctile.sw) [] s.ctile := by
  have hp := OrderBody.popFor hu c
  have hsw (t : Tile) (n : Nat) (ht : t.sw = s.ctile.sw) : Store.get 0 n t.sw = if n = sw then Store.get 0 sw s.ctile.sw else Store.get 0 n s.ctile.sw := by
    rw [ht]
    split
    · next hn => rw [hn]
    · rfl
  have hpop : (s.popFor c s.cur.eng).ctile.nextId = s.ctile.nextId ∧ (s.popFor c s.cur.eng).cmdSeq = s.cmdSeq := by
    cases hc : c.pops with
    | false => rw [State.popFor_none s c _ hc]; exact ⟨rfl, rfl⟩
    | true => rw [State.popFor_of_pops hu hc, State.setCtile_ctile]; exact ⟨rfl, rfl⟩
  have base : MoveBody s (s.popFor c s.cur.eng) c [] sw (Store.get 0 sw s.ctile.sw) [] s.ctile := {
    rest := (congrArg (fun v : State => { v with cmdSeq := s.cmdSeq }) hp.rest)
    tiles := hp.tiles, engs := hp.engs, tokens := hp.tokens, flights := hp.flights, effs := hp.effs
    status := fun n => hsw _ n (hp.reads (·.sw) fun _ => rfl)
    cmds := (hp.reads (·.cmds) fun _ => rfl).trans (List.append_nil _).symm
    next := hpop.1
    seq := fun _ => hpop.2
    moveless := congrArg (fun t : Tile => { t with sw := [], cmds := [], fetchCI := none, fetchCO := none }) hp.plain }
  rw [State.moveStart]
  split
  · exact base
  · rw [Tile.setFetch]
    split <;> exact base.setCtile rfl rfl rfl rfl rfl rfl rfl base.moveless

/-- The order puts a command in flight. -/
theorem MoveBody.addCmd (h : MoveBody s u c l sw w [] x) (k : Cmd) : MoveBody s (u.addCmd k) c l sw w [s.issuedCmd k] x where
  rest := (rfl : ({ State.offTiles (u.addCmd k) with cmdSeq := s.cmdSeq } : State) = { u.offTiles with cmdSeq := s.cmdSeq }).trans h.rest
  tiles p hp := (State.setCtile_tile_other u _ (h.here.symm ▸ hp)).trans (h.tiles p hp)
  engs := by rw [State.addCmd_ctile]; exact h.engs
  tokens n := by rw [State.addCmd_ctile]; exact h.tokens n
  flights := by rw [State.addCmd_ctile]; exact h.flights
  effs := by rw [State.addCmd_ctile]; exact h.effs
  status n := by rw [State.addCmd_ctile]; exact h.status n
  cmds := by
    rw [State.addCmd_ctile, h.addCmd_issuedCmd k]
    exact congrArg (· ++ [s.issuedCmd k]) (h.cmds.trans (List.append_nil _))
  next := by
    rw [State.addCmd_ctile]
    exact congrArg (· + 1) h.next
  seq hk := by simp at hk
  moveless := by rw [State.addCmd_ctile]; exact h.moveless
end

/-! ### A movement order that has issued (R216, R217) -/

/-- The commands, the status words and the fetches of `s` put back, a tile without them is that tile without the bookkeeping of orders. -/
def Tile.withMoves (t x : Tile) : Tile := { t with fetchCI := x.fetchCI, fetchCO := x.fetchCO, cmds := x.cmds, sw := x.sw }

theorem Tile.moveless_withMoves {x y : Tile} (h : x.withMoves y = x) : x.moveless.withMoves y = x.plain :=
  (rfl : x.moveless.withMoves y = (x.withMoves y).plain).trans (congrArg Tile.plain h)

/-- The bookkeeping of a due movement order, after its body. -/
theorem MoveBody.commit {s u : State} {n : ENeed} {l : List (Nat × Eff)} {sw : Nat} {w : Word} {ks : List Cmd} {x : Tile}
    (h : MoveBody s u n.ctl l sw w ks x) (hd : Due s n.ctl) (hx : x.withMoves s.ctile = x) (i : Issue) :
    let t := u.setCtile (u.ctile.commitOrder n i s.cur s.now)
    MoveDone s t n.ctl i.retire l i.effs sw w x ∧ t.ctile.cmds = s.ctile.cmds ++ ks ∧
      ∃ f, f ∈ t.ctile.flights ∧ f.blocks = i.blocks ∧ f.id = s.ctile.nextId + ks.length := by
  have hb : OrderBody s { u with cmdSeq := s.cmdSeq } n.ctl l (x.withMoves u.ctile) := {
    rest := h.rest, tiles := h.tiles, engs := h.engs, tokens := h.tokens, flights := h.flights, effs := h.effs
    plain := (rfl : u.ctile.plain = u.ctile.moveless.withMoves u.ctile).trans (congrArg (·.withMoves u.ctile) h.moveless) }
  obtain ⟨hrest, hplain, -, f, hf, hret, heffs⟩ := hb.commit hd i
  have hredo : u.ctile.redoing s.cur.eng = none := by rw [Tile.redoing, h.flights]; exact hd.first
  obtain ⟨g, hg, hid, hblocks⟩ : ∃ g : Flight, (u.ctile.commitOrder n i s.cur s.now).flights = u.ctile.flights ++ [g] ∧
      g.id = u.ctile.nextId ∧ g.blocks = i.blocks := by
    rw [Tile.commitOrder, hredo]
    simp only [Tile.passOrder_eq]
    exact ⟨_, rfl, rfl, rfl⟩
  have hsame : (u.ctile.commitOrder n i s.cur s.now).sw = u.ctile.sw ∧ (u.ctile.commitOrder n i s.cur s.now).cmds = u.ctile.cmds := by
    rw [Tile.commitOrder, hredo]
    simp only [Tile.passOrder_eq]
    exact ⟨rfl, rfl⟩
  refine ⟨⟨hrest, ⟨f, ⟨hf.tiles, hf.engs, hf.eng, hf.tokens, hf.flights, hf.order, hf.effs⟩, hret, heffs⟩, fun q => ?_, ?_⟩, ?_, g, ?_, hblocks, hid.trans h.next⟩
  · rw [State.setCtile_ctile, hsame.1, h.status]
  · exact (congrArg (·.withMoves s.ctile) hplain).trans (congrArg Tile.plain hx)
  · rw [State.setCtile_ctile, hsame.2, h.cmds]
  · rw [State.setCtile_ctile, hg]
    exact List.mem_append_right _ (List.mem_singleton_self g)

/-- A movement order has issued as `i`, with the commands `ks` in flight. -/
structure Moved (s t : State) (c : Ctl) (i : Issue) (l : List (Nat × Eff)) (sw : Nat) (w : Word) (ks : List Cmd) (x : Tile) : Prop where
  done : MoveDone s t c i.retire l i.effs sw w x
  cmds : t.ctile.cmds = s.ctile.cmds ++ ks
  flight : ∃ f, f ∈ t.ctile.flights ∧ f.blocks = i.blocks ∧ f.id = s.ctile.nextId + ks.length

section
variable {s t u : State} {c : Ctl} {handles : List Nat} {recs : List Rec} {elastic : Bool} {l : List (Nat × Eff)} {sw : Nat} {w : Word}
  {ks : List Cmd} {x : Tile} {i : Issue} {body : State → List Rec → Except Trap (State × Issue)} {rdy : List Rec → Bool}

/-- Where its body passes, a due movement order has issued with the body's changes. -/
theorem MoveDue.moves (h : MoveDue s c handles recs elastic) (hr : rdy recs = true) (hb : body (s.moveStart c handles) recs = .ok (u, i))
    (hu : MoveBody s u c l sw w ks x) (hx : x.withMoves s.ctile = x) :
    Moved s (s.moveOrder c handles elastic true body rdy) c i l sw w ks x := by
  rw [h.moveOrder_go hr hb]
  obtain ⟨hdone, hcmds, hflight⟩ := hu.commit (n := { ctl := c, free := rdy recs, met := true }) h.due hx i
  exact ⟨hdone, hcmds, hflight⟩

theorem Moved.no_cmds (h : Moved s t c i l sw w [] x) : t.ctile.cmds = s.ctile.cmds := h.cmds.trans (List.append_nil _)

/-- The order's one command, as the statements name it. -/
theorem Moved.started {k : Cmd} (h : Moved s t c i l sw w [s.issuedCmd k] x) (hsw : k.sw = sw) (hph : k.phase = phaseOf (Store.get 0 sw s.ctile.sw)) :
    Started s t (s.issuedCmd k) k.kind sw :=
  ⟨h.cmds, rfl, rfl, rfl, hsw, hph.trans (phaseOf_eq _), rfl⟩
end

end Sys2Proof.Machine
end

section
/-! PROOFS. Acquire, release and atomics as they issue (R232, R233, R246, R247): their checks, their operands and the command that each puts in flight. -/

namespace Sys2Proof.Machine
open Sys2Proof.Claims

/-! ### What a movement order reads before it changes its tile -/

section
variable {s u : State} {c : Ctl} {l : List (Nat × Eff)} {sw : Nat} {w : Word} {ks : List Cmd} (h : MoveBody s u c l sw w ks s.ctile)
include h

theorem MoveBody.chkRead (e b off n : Nat) : u.chkRead e b off n = s.chkRead e b off n := by
  rw [State.chkRead, h.decl, h.reads (·.buf b) (fun _ => rfl), h.reads (·.seg) (fun _ => rfl), State.chkRead]

theorem MoveBody.chkWrite (e b off n : Nat) : u.chkWrite e b off n = s.chkWrite e b off n := by
  rw [State.chkWrite, h.decl, h.reads (·.buf b) (fun _ => rfl), h.reads (·.seg) (fun _ => rfl), State.chkWrite]

theorem MoveBody.bufBytes (b off n : Nat) : u.bufBytes b off n = s.bufBytes b off n := by
  rw [State.bufBytes, h.decl, h.reads (·.sram) (fun _ => rfl), State.bufBytes]

theorem MoveBody.clean (hs : noErrors s) : u.ctile.ecc = [] := (h.reads (·.ecc) fun _ => rfl).trans hs

/-- A read of a buffer that passes its checks, in a tile without an error. -/
theorem MoveBody.readBuf (hs : noErrors s) {e b off n : Nat} (hc : s.chkRead e b off n = none) : u.readBuf e b off n = .ok (s.bufBytes b off n) := by
  rw [State.readBuf, h.chkRead, hc, Tile.bad_of_clean (h.clean hs), ← h.bufBytes]
  rfl
end

theorem swPerform_zero (v : Word) (ph : Bool) : swPerform v ph 0 = v := by simp [swPerform]

/-- A status word that arms with no byte performed at once. -/
theorem armed_zero {s : State} {sw n : Nat} {w : Word} (h : armed s sw n 0 w) : swArm (Store.get 0 sw s.ctile.sw) n = some w := by
  obtain ⟨v, hv, rfl⟩ := h
  rw [swPerform_zero, hv]

theorem State.bufBytes_take (s : State) {b off k n : Nat} (h : k ≤ n) :
    (s.bufBytes b off n).take k = Store.getN 0 s.ctile.sram ((s.decl b).base * 4096 + off) k := by
  have htake := Store.take_drop_getN 0 s.ctile.sram ((s.decl b).addr off) (i := 0) (j := k) (n := n) (by omega)
  rwa [List.drop_zero, Nat.add_zero] at htake

/-! ### Acquire and release -/

/-- The command of an ACQ or REL: the object, and what is acquired or released of it. -/
def State.acqCmd (s : State) (o : SyncOp) (kind : CmdKind) (size : Nat) : Cmd :=
  { id := 0, eng := 0, kind := kind, sw := o.sw, phase := phaseOf (Store.get 0 o.sw s.ctile.sw),
    va := recBase (recordOf s o.h) + (if kind == .acq then o.boff else 0), obj := recBase (recordOf s o.h), size := size, want := o.p == 1, buf := o.buf,
    base := (s.decl o.buf).addr (8 * o.off) }

theorem State.acqOrder_moved {s : State} {c : Ctl} {o : SyncOp} {kind : CmdKind} {size : Nat} {w : Word} (h : MoveReady s c [o.h] true)
    (hw : s.chkWrite 1 o.buf (8 * o.off) 8 = none) (hv : swArm (Store.get 0 o.sw s.ctile.sw) size = some w) :
    ∃ t, s.acqOrder c o kind size = .next t ∧ Moved s t c { blocks := true } [] o.sw w [s.issuedCmd (s.acqCmd o kind size)] s.ctile := by
  have hu := h.due.atU
  have hb := MoveBody.start hu c [o.h] o.sw
  refine ⟨_, rfl, h.toDue.moves rfl ?_ ((hb.wrSw hu w).addCmd _) rfl⟩
  simp only [hb.chkWrite, hw, noRecord_records, hb.arm hu hv, hb.decl]
  rfl

/-- The value of a REL, and the command that carries it. -/
def State.relCmd (s : State) (o : SyncOp) : Cmd :=
  { id := 0, eng := 0, kind := .rel, sw := o.sw, phase := phaseOf (Store.get 0 o.sw s.ctile.sw), va := recBase (recordOf s o.h) + o.boff,
    obj := recBase (recordOf s o.h), size := 2 ^ o.sz, opd := leNat ((s.bufBytes o.buf (8 * o.off) 8).take (2 ^ o.sz)), order := s.cmdSeq }

theorem execRel_moved {s : State} {c : Ctl} {o : SyncOp} {w : Word} (h : MoveReady s c [o.h] false) (hs : noErrors s)
    (hp : s.coPending o.buf (8 * o.off) 8 = false) (hr : s.chkRead 2 o.buf (8 * o.off) 8 = none)
    (hv : swArm (Store.get 0 o.sw s.ctile.sw) (2 ^ o.sz) = some w) :
    ∃ (t : State) (far : Bool), execRel c o s = .next t ∧
      Moved s t c { retire := some s.now } [] o.sw w [s.issuedCmd { s.relCmd o with remote := far }] s.ctile := by
  have hu := h.due.atU
  have hb := MoveBody.start hu c [o.h] o.sw
  let u := (s.moveStart c [o.h]).wrSw o.sw w
  refine ⟨_, u.relFar u.slotNo (s.relCmd o), rfl, h.toDue.moves (by rw [hp]; rfl) ?_ ((hb.wrSw hu w).addCmd _) rfl⟩
  simp only [hb.readBuf hs hr, State.correct_of_clean (hb.clean hs), noRecord_records, hb.arm hu hv, hb.now, (hb.wrSw hu w).seq rfl]
  rfl

end Sys2Proof.Machine

namespace Sys2Proof.Proofs
open Sys2Proof.Machine Sys2Proof.Claims

theorem acq_issues {s : State} {c : Ctl} {o : SyncOp} {w : Word} (cw : Bool) (ha : armed s o.sw (if cw then 8 else 2 ^ o.sz) 0 w)
    (h : MoveReady s c [o.h] true) (hw : s.chkWrite 1 o.buf (8 * o.off) 8 = none) :
    ∃ (t : State) (k : Cmd), exec (if cw then .acqCw c o else .acq c o) s = .next t ∧ MoveDone s t c none [] [] o.sw w s.ctile ∧
      Started s t k (if cw then .acqCw else .acq) o.sw ∧ k.va = (if cw then recBase (recordOf s o.h) else recBase (recordOf s o.h) + o.boff) ∧
      k.obj = recBase (recordOf s o.h) ∧ k.size = (if cw then 8 else 2 ^ o.sz) ∧ k.want = (o.p == 1) ∧ k.base = (s.decl o.buf).base * 4096 + 8 * o.off ∧
      ∃ f, f ∈ t.ctile.flights ∧ f.blocks = true ∧ f.id = k.id + 1 := by
  cases cw with
  | false =>
    obtain ⟨t, ht, hm⟩ := State.acqOrder_moved (kind := .acq) h hw (armed_zero ha)
    exact ⟨t, _, ht, hm.done, hm.started rfl rfl, rfl, rfl, rfl, rfl, rfl, hm.flight⟩
  | true =>
    obtain ⟨t, ht, hm⟩ := State.acqOrder_moved (kind := .acqCw) h hw (armed_zero ha)
    exact ⟨t, _, ht, hm.done, hm.started rfl rfl, rfl, rfl, rfl, rfl, rfl, hm.flight⟩

theorem rel_issues {s : State} {c : Ctl} {o : SyncOp} {w : Word} (ha : armed s o.sw (2 ^ o.sz) 0 w) (h : MoveReady s c [o.h] false) (hs : noErrors s)
    (hp : s.coPending o.buf (8 * o.off) 8 = false) (hr : s.chkRead 2 o.buf (8 * o.off) 8 = none) (hz : o.sz ≤ 3) :
    ∃ (t : State) (k : Cmd), exec (.rel c o) s = .next t ∧ MoveDone s t c (some s.now) [] [] o.sw w s.ctile ∧
      Started s t k .rel o.sw ∧ k.va = recBase (recordOf s o.h) + o.boff ∧ k.obj = recBase (recordOf s o.h) ∧ k.size = 2 ^ o.sz ∧
      k.opd = leNat (Store.getN 0 s.ctile.sram ((s.decl o.buf).base * 4096 + 8 * o.off) (2 ^ o.sz)) := by
  obtain ⟨t, far, ht, hm⟩ := execRel_moved h hs hp hr (armed_zero ha)
  have hn : 2 ^ o.sz ≤ 8 := Nat.pow_le_pow_right (n := 2) (by omega) hz
  exact ⟨t, _, ht, hm.done, hm.started rfl rfl, rfl, rfl, rfl, congrArg leNat (s.bufBytes_take hn)⟩

/-- Settles O40: the checks pass, the status word arms, and the one command stands in flight. -/
theorem acquireRelease : Obligations.AcquireRelease := fun _ _ _ _ => ⟨acq_issues, rel_issues⟩

end Sys2Proof.Proofs
end

section
/-! PROOFS. Vector atomics as they issue (R73, R248): the lanes that are read, those that drop out, and the lines of the others. -/

namespace Sys2Proof.Machine
open Sys2Proof.Claims

/-- Grouping lanes by line loses no line: there is one where there is a lane, or a line already. -/
theorem byLine_ne_nil {ls : List (Nat × Nat)} {acc : List (Nat × List (Nat × Nat))} (h : ls ≠ [] ∨ acc ≠ []) : byLine ls acc ≠ [] := by
  induction ls generalizing acc with
  | nil => simpa [byLine] using h
  | cons x ls ih =>
    rw [byLine]
    refine ih (.inr ?_)
    split
    · next hany =>
      rintro hnil
      simp [List.map_eq_nil_iff.mp hnil] at hany
    · simp

/-! ### What a vector atomic reads -/

/-- Index and element of lane `j`, as they stand in the buffer. -/
def State.vatomIndex (s : State) (o : VAtom) (j : Nat) : Nat := leNat (s.bufBytes o.buf (512 * o.ioff + 4 * j) 4)
def State.vatomValue (s : State) (o : VAtom) (j : Nat) : Nat := leNat (s.bufBytes o.buf (512 * o.eoff + elemBits o.ty / 8 * j) (elemBits o.ty / 8))
/-- The lanes that do not drop out, and the address and element of each. -/
def State.vatomLive (s : State) (o : VAtom) : List Nat := (List.range (o.nl1 + 1)).filter (fun j => s.vatomIndex o j != 0xFFFFFFFF)
def State.vatomLanes (s : State) (o : VAtom) : List (Nat × Nat) :=
  (s.vatomLive o).map (fun j => ((recBase (recordOf s o.h) + s.vatomIndex o j * (elemBits o.ty / 8)) % 2 ^ 64, s.vatomValue o j))

/-- The elements of a vector atomic's command, one for each line. -/
def State.vatomElems (s : State) (o : VAtom) : List Elem :=
  (byLine (s.vatomLanes o) []).mapIdx (fun ix g => { ix := ix, va := 64 * g.1, len := elemBits o.ty / 8 * g.2.length, lanes := g.2 })

/-- The command of a vector atomic. -/
def State.vatomCmd (s : State) (o : VAtom) (op : Nat) : Cmd :=
  { id := 0, eng := 0, kind := .vatom, sw := o.sw, phase := phaseOf (Store.get 0 o.sw s.ctile.sw), elems := s.vatomElems o, size := elemBits o.ty / 8,
    op := op, ty := o.ty }

theorem State.vatomElems_lanes (s : State) (o : VAtom) : (s.vatomElems o).map (fun e => e.lanes) = (byLine (s.vatomLanes o) []).map (fun g => g.2) := by
  refine List.ext_getElem? fun i => ?_
  simp [State.vatomElems]
  rfl

theorem State.vatomElems_isEmpty {s : State} {o : VAtom} (h : s.vatomLive o ≠ []) : (s.vatomElems o).isEmpty = false := by
  rw [List.isEmpty_eq_false_iff, State.vatomElems, List.mapIdx_ne_nil_iff]
  exact byLine_ne_nil (.inl (by rwa [State.vatomLanes, ne_eq, List.map_eq_nil_iff]))

section
variable {s u : State} {c : Ctl} {l : List (Nat × Eff)} {sw : Nat} {w : Word} {ks : List Cmd} {o : VAtom} (h : MoveBody s u c l sw w ks s.ctile)
  (hs : noErrors s) (hchk : ∀ j, j < o.nl1 + 1 → s.chkRead 2 o.buf (512 * o.ioff + 4 * j) 4 = none ∧
    s.chkRead 2 o.buf (512 * o.eoff + elemBits o.ty / 8 * j) (elemBits o.ty / 8) = none)
include h hs hchk

/-- Where every lane's checks pass, all indices and elements are read. -/
theorem MoveBody.vatomReads : (List.range (o.nl1 + 1)).mapM (u.vatomLane o (elemBits o.ty / 8)) =
    .ok ((List.range (o.nl1 + 1)).map (fun j => (s.vatomIndex o j, s.vatomValue o j))) := by
  refine mapM_eq_ok fun j hj => ?_
  obtain ⟨hi, he⟩ := hchk j (List.mem_range.mp hj)
  rw [State.vatomLane, h.readBuf hs hi, h.readBuf hs he]
  rfl
end

theorem State.vatomOrder_moved {s : State} {c : Ctl} {o : VAtom} {op : Nat} {w : Word} (h : MoveReady s c [o.h] false) (hs : noErrors s)
    (hpi : s.coPending o.buf (512 * o.ioff) (4 * (o.nl1 + 1)) = false)
    (hpe : s.coPending o.buf (512 * o.eoff) (elemBits o.ty / 8 * (o.nl1 + 1)) = false)
    (hchk : ∀ j, j < o.nl1 + 1 → s.chkRead 2 o.buf (512 * o.ioff + 4 * j) 4 = none ∧
      s.chkRead 2 o.buf (512 * o.eoff + elemBits o.ty / 8 * j) (elemBits o.ty / 8) = none)
    (hlive : s.vatomLive o ≠ []) (hv : swArm (Store.get 0 o.sw s.ctile.sw) (elemBits o.ty / 8 * (s.vatomLive o).length) = some w) :
    ∃ t, s.vatomOrder c o op = .next t ∧
      Moved s t c { retire := some (s.now + max (ceilDiv ((4 + elemBits o.ty / 8) * (o.nl1 + 1)) 256) 1 - 1) } [] o.sw w
        [s.issuedCmd (s.vatomCmd o op)] s.ctile := by
  have hu := h.due.atU
  have hb := MoveBody.start hu c [o.h] o.sw
  have hlanes : (((List.range (o.nl1 + 1)).map (fun j => (s.vatomIndex o j, s.vatomValue o j))).filter (fun p => p.1 != 0xFFFFFFFF)).map
      (fun p => ((recBase (recordOf s o.h) + p.1 * (elemBits o.ty / 8)) % 2 ^ 64, p.2)) = s.vatomLanes o := by
    rw [List.filter_map, List.map_map]
    rfl
  have hlen : (s.vatomLanes o).length = (s.vatomLive o).length := List.length_map _
  refine ⟨_, rfl, h.toDue.moves (by rw [hpi, hpe]; rfl) ?_ ((hb.wrSw hu w).addCmd (s.vatomCmd o op)) rfl⟩
  have hsome : ((byLine (s.vatomLanes o) []).mapIdx (fun ix g =>
      ({ ix := ix, va := 64 * g.1, len := elemBits o.ty / 8 * g.2.length, lanes := g.2 } : Elem))).isEmpty = false := State.vatomElems_isEmpty hlive
  simp only [hb.vatomReads hs hchk, State.correct_of_clean (hb.clean hs), noRecord_records, State.records_head, hlanes, hlen, hb.arm hu hv, hsome, hb.now]
  rfl

theorem exec_vatomOf {i : Instr} {c : Ctl} {o : VAtom} {op : Nat} (h : Claims.vatomOf i = some (c, o, op)) (s : State) : exec i s = s.vatomOrder c o op := by
  unfold Claims.vatomOf at h
  split at h <;> cases h <;> rfl

end Sys2Proof.Machine

namespace Sys2Proof.Proofs
open Sys2Proof.Machine Sys2Proof.Claims

/-- Settles O42: every lane is read, and those that live stand in the command line by line. -/
theorem vectorAtomics : Obligations.VectorAtomics := by
  intro i c o op s w hi _ n nl d index value live hlive ha h hs hpi hpe hchk
  obtain ⟨t, ht, hm⟩ := State.vatomOrder_moved (op := op) h hs hpi hpe hchk hlive (armed_zero ha)
  exact ⟨t, _, (exec_vatomOf hi s).trans ht, hm.done, hm.started rfl rfl, rfl, rfl, rfl, s.vatomElems_lanes o⟩

end Sys2Proof.Proofs
end

section
/-! PROOFS. Copies out as they issue (R59, R63, R65, R224, R241): the bytes that they read, the command that carries them, and the write-back of dirty granules. -/

namespace Sys2Proof.Machine
open Sys2Proof.Claims

/-! ### The source of a copy out -/

theorem Tile.badLines_of_clean {t : Tile} (h : t.ecc = []) (a n : Nat) : t.badLines a n = [] := by
  rw [Tile.badLines, List.filter_eq_nil_iff]
  intro o _
  rw [Tile.bad_of_clean h]
  exact Bool.false_ne_true

theorem Tile.withData_of_clean {t : Tile} (h : t.ecc = []) (base : Nat) (es : List Elem) :
    t.withData base es = es.map (fun e => { e with data := Store.getN 0 t.sram (base + e.tile) e.len, bad := [] }) := by
  simp only [Tile.withData, Tile.badLines_of_clean h]

theorem State.sourceRead_of_clean {s : State} (h : s.ctile.ecc = []) (a n : Nat) : s.sourceRead a n = s := by
  rw [State.sourceRead, State.correct_of_clean h, Tile.bad_of_clean h]
  rfl

section
variable {s u : State} {c : Ctl} {l : List (Nat × Eff)} {sw : Nat} {w : Word} {ks : List Cmd} (h : MoveBody s u c l sw w ks s.ctile)
include h

theorem MoveBody.chkGet (b off : Nat) : u.chkGet b off = s.chkGet b off := by
  rw [State.chkGet, h.decl, h.reads (·.seg) (fun _ => rfl), h.eng, State.chkGet]

theorem MoveBody.chkSet (b off : Nat) : u.chkSet b off = s.chkSet b off := by
  rw [State.chkSet, h.decl, h.reads (·.seg) (fun _ => rfl), h.eng, State.chkSet]

theorem MoveBody.buf (b : Nat) : u.ctile.buf b = s.ctile.buf b := h.reads (·.buf b) fun _ => rfl

theorem MoveBody.dirtyOf (b : Nat) : u.dirtyOf b = s.dirtyOf b := by
  rw [State.dirtyOf, h.buf, h.decl, h.reads (·.dirty) (fun _ => rfl), State.dirtyOf]

theorem MoveBody.withData (hs : noErrors s) (base : Nat) (es : List Elem) :
    u.ctile.withData base es = es.map (fun e => { e with data := Store.getN 0 s.ctile.sram (base + e.tile) e.len, bad := [] }) := by
  rw [Tile.withData_of_clean (h.clean hs), h.reads (·.sram) (fun _ => rfl)]
end

/-! ### CPOUT and XPOST -/

/-- The elements of a box of record `d`, with the bytes that stand in the buffer from `base`. -/
def State.outElems (s : State) (o : CopyOut) : List Elem :=
  (boxElems (recordOf s o.h) o.idx).map (fun e => { e with data := Store.getN 0 s.ctile.sram ((s.decl o.buf).addr (256 * o.off) + e.tile) e.len, bad := [] })

/-- The command of a copy out, with the address of its completion word. -/
def State.outCmd (s : State) (o : CopyOut) (kind : CmdKind) (cw : Option Nat) : Cmd :=
  { id := 0, eng := 0, kind := kind, sw := o.sw, phase := phaseOf (Store.get 0 o.sw s.ctile.sw), elems := s.outElems o, n := recBytes (recordOf s o.h),
    cw := cw, buf := o.buf, base := (s.decl o.buf).addr (256 * o.off), remote := kind == .xpost }

/-- A copy out with nothing to move puts no command in flight. -/
def State.outCmds (s : State) (o : CopyOut) (kind : CmdKind) (cw : Option Nat) : List Cmd :=
  if (boxElems (recordOf s o.h) o.idx).isEmpty && cw.isNone then [] else [s.issuedCmd (s.outCmd o kind cw)]

def outIssue (now n buf : Nat) : Issue := { retire := some (now + max (ceilDiv n 256) 1 - 1), effs := [.drainDone buf] }

theorem sum_len_eq (es : List Elem) : (es.map Elem.len).sum = boxLen es := rfl

theorem trapIf_false (t : Trap) : trapIf false t = none := rfl

section
variable {s : State} {c : Ctl} {o : CopyOut} {more : List Nat} {w : Word}

theorem State.copyOut_moved (kind : CmdKind) (cwOf : List Rec → Option Nat) (h : MoveReady s c (o.h :: more) false) (hs : noErrors s)
    (ha : armed s o.sw (recBytes (recordOf s o.h)) (recBytes (recordOf s o.h) - boxLen (boxElems (recordOf s o.h) o.idx)) w)
    (hp : s.coPending o.buf (256 * o.off) (recBytes (recordOf s o.h)) = false) (hg : s.chkGet o.buf (256 * o.off) = none)
    (hb : (s.ctile.buf o.buf).cpoutOk = true) (hlen : 256 * o.off + recBytes (recordOf s o.h) ≤ (s.decl o.buf).len * 4096) :
    Moved s (s.moveOrder c (o.h :: more) false true (fun a recs => a.copyOut o recs kind (cwOf recs)) (s.outReady o)) c
      (outIssue s.now (recBytes (recordOf s o.h)) o.buf) [(s.now, .bufCpout o.buf)] o.sw w
      (s.outCmds o kind (cwOf (s.records (o.h :: more)))) s.ctile := by
  obtain ⟨v, hv, rfl⟩ := ha
  have hu := h.due.atU
  have hstart := MoveBody.start hu c (o.h :: more) o.sw
  have hready : s.outReady o (s.records (o.h :: more)) = true := by
    rw [State.outReady, noRecord_records]
    exact (congrArg (!·) hp : _)
  have hfits : decide ((s.decl o.buf).bytes < 256 * o.off + recBytes (recordOf s o.h)) = false := decide_eq_false (Nat.not_lt.mpr hlen)
  have hlisted := hstart.addEffs [(s.now, .bufCpout o.buf)]
  have harmed := hlisted.wrSw hu v
  have hdone := harmed.perf hu (phaseOf (Store.get 0 o.sw s.ctile.sw)) (recBytes (recordOf s o.h) - boxLen (boxElems (recordOf s o.h) o.idx))
  obtain ⟨u, hdone, hbody⟩ : ∃ u, MoveBody s u c ([] ++ [(s.now, .bufCpout o.buf)]) o.sw
      (swPerform v (phaseOf (Store.get 0 o.sw s.ctile.sw)) (recBytes (recordOf s o.h) - boxLen (boxElems (recordOf s o.h) o.idx))) [] s.ctile ∧
      (s.moveStart c (o.h :: more)).copyOut o (s.records (o.h :: more)) kind (cwOf (s.records (o.h :: more))) =
        if (boxElems (recordOf s o.h) o.idx).isEmpty && (cwOf (s.records (o.h :: more))).isNone then .ok (u, outIssue s.now (recBytes (recordOf s o.h)) o.buf)
        else .ok (u.addCmd (s.outCmd o kind (cwOf (s.records (o.h :: more)))), outIssue s.now (recBytes (recordOf s o.h)) o.buf) := by
    refine ⟨_, hdone, ?_⟩
    simp only [State.copyOut, hstart.chkGet, hg, hstart.buf, hb, noRecord_records, State.records_head, hstart.decl, hfits, Bool.not_true, Bool.and_false,
      trapIf_false, hstart.now, hlisted.arm hu hv, State.sourceRead_of_clean (harmed.clean hs), sum_len_eq,
      hdone.withData hs]
    rfl
  cases hnone : (boxElems (recordOf s o.h) o.idx).isEmpty && (cwOf (s.records (o.h :: more))).isNone with
  | true =>
    rw [hnone, if_pos rfl] at hbody
    rw [State.outCmds, hnone, if_pos rfl]
    exact h.toDue.moves hready hbody hdone rfl
  | false =>
    rw [hnone, if_neg Bool.false_ne_true] at hbody
    rw [State.outCmds, hnone, if_neg Bool.false_ne_true]
    exact h.toDue.moves hready hbody (hdone.addCmd _) rfl

/-- A copy out whose source is still to be written is held, or raises OVERRUN with condition 1. -/
theorem State.copyOut_unready (kind : CmdKind) (cwOf : List Rec → Option Nat) (h : MoveReady s c (o.h :: more) false)
    (hp : s.coPending o.buf (256 * o.off) (recBytes (recordOf s o.h)) = true) :
    s.moveOrder c (o.h :: more) false true (fun a recs => a.copyOut o recs kind (cwOf recs)) (s.outReady o) =
      if s.ctile.timed then s.takeTrap (overrun 1 s.now) else s := by
  refine h.toDue.moveOrder_unready ?_ true
  rw [State.outReady, noRecord_records]
  exact (congrArg (!·) hp : _)
end

/-! ### The write-back of dirty granules (R59, R224, R227) -/

/-- The command that writes the dirty granules of a buffer back. -/
def State.backCmd (s : State) (b sw : Nat) : Cmd :=
  { id := 0, eng := 0, kind := .cpout, sw := sw, phase := phaseOf (Store.get 0 sw s.ctile.sw), n := 4096 * (s.dirtyOf b).length,
    elems := ((s.dirtyOf b).map (fun g => ({ ix := g, tile := 4096 * g, va := (s.ctile.buf b).va + 4096 * g, len := 4096 } : Elem))).map
      (fun e => { e with data := Store.getN 0 s.ctile.sram ((s.decl b).addr 0 + e.tile) e.len, bad := [] }) }

def State.backCmds (s : State) (b sw : Nat) : List Cmd := if (s.dirtyOf b).isEmpty then [] else [s.issuedCmd (s.backCmd b sw)]

theorem State.backCmd_elems (s : State) (b sw : Nat) : (s.issuedCmd (s.backCmd b sw)).elems.map (fun e => (e.va, e.data)) =
    (s.dirtyOf b).map (fun g => ((s.ctile.buf b).va + 4096 * g, Store.getN 0 s.ctile.sram ((s.decl b).base * 4096 + 4096 * g) 4096)) := by
  have helems : (s.issuedCmd (s.backCmd b sw)).elems = (s.backCmd b sw).elems := rfl
  rw [helems, State.backCmd]
  simp only [List.map_map, Function.comp_def, BufDecl.addr, Nat.add_zero]

theorem State.foldl_sourceRead {s : State} (h : s.ctile.ecc = []) (f : State → Nat → Nat) (gs : List Nat) :
    gs.foldl (fun (u : State) g => u.sourceRead (f u g) 4096) s = s := by
  induction gs with
  | nil => rfl
  | cons g gs ih => rw [List.foldl_cons, State.sourceRead_of_clean h, ih]

theorem MoveBody.setClean {s u : State} {c : Ctl} {l : List (Nat × Eff)} {sw : Nat} {w : Word} {ks : List Cmd} {x : Tile}
    (h : MoveBody s u c l sw w ks x) (d : BufDecl) : MoveBody s (u.setCtile (u.ctile.clean d)) c l sw w ks (x.clean d) :=
  h.setCtile rfl rfl rfl rfl rfl rfl rfl (congrArg (Tile.clean · d) h.moveless)

theorem MoveBody.startWriteBack {s u : State} {c : Ctl} {l : List (Nat × Eff)} {sw : Nat} {w : Word} (h : MoveBody s u c l sw (Store.get 0 sw s.ctile.sw) [] s.ctile)
    (hu : s.atU = true) (b : Nat) (hs : s.dirtyOf b ≠ [] → noErrors s)
    (hv : swArm (Store.get 0 sw s.ctile.sw) (4096 * (s.dirtyOf b).length) = some w) :
    MoveBody s (u.startWriteBack b sw) c l sw w (s.backCmds b sw) (s.ctile.clean (s.decl b)) := by
  have harmed := h.wrSw hu w
  have hback (hne : s.dirtyOf b ≠ []) : (u.wrSw sw w).writeBack b = (s.backCmd b sw).elems := by
    rw [State.writeBack, harmed.withData (hs hne), harmed.dirtyOf, harmed.decl, harmed.buf]
    rfl
  rw [State.startWriteBack, h.dirtyOf, h.arm hu hv, State.backCmds]
  cases hgs : s.dirtyOf b with
  | nil => exact harmed.decl b ▸ harmed.setClean _
  | cons g gs =>
    have hne : s.dirtyOf b ≠ [] := hgs ▸ List.cons_ne_nil g gs
    simp only [State.foldl_sourceRead (harmed.clean (hs hne)), hback hne, harmed.decl]
    have hsome : (g :: gs).isEmpty = false := rfl
    simp only [hsome, Bool.false_eq_true, if_false]
    rw [← hgs]
    exact (harmed.setClean (s.decl b)).addCmd (s.backCmd b sw)

theorem execCpoutFlush_moved {s : State} {c : Ctl} {b sw : Nat} {w : Word} (h : MoveReady s c [] false) (hs : noErrors s)
    (hv : swArm (Store.get 0 sw s.ctile.sw) (4096 * (s.dirtyOf b).length) = some w) (hp : s.coPendingAll b = false) (hg : s.chkGet b 0 = none)
    (hok : (s.ctile.buf b).cpoutOk = true) (hbound : (s.ctile.buf b).bound = true) :
    ∃ t, execCpoutFlush c b sw s = .next t ∧
      Moved s t c { retire := some (s.now + max (16 * (s.dirtyOf b).length) 1 - 1), effs := [.drainDone b] } [(s.now, .bufCpout b)] sw w
        (s.backCmds b sw) (s.ctile.clean (s.decl b)) := by
  have hu := h.due.atU
  have hstart := MoveBody.start hu c [] sw
  have hlisted := hstart.addEffs [(s.now, .bufCpout b)]
  refine ⟨_, rfl, h.toDue.moves (by rw [hp]; rfl) ?_ (hlisted.startWriteBack hu b (fun _ => hs) hv) rfl⟩
  simp only [hstart.chkGet, hg, hstart.buf, hok, Bool.not_true, trapIf_false, hstart.now, hlisted.buf, hbound, hlisted.dirtyOf]
  rfl

end Sys2Proof.Machine

namespace Sys2Proof.Proofs
open Sys2Proof.Machine Sys2Proof.Claims

/-- The records that a copy out names, and the address of its completion word. -/
def outMore (o : CopyOut) (post : Bool) : List Nat := if post = true ∧ o.cw ≠ 0 then [o.cw - 1] else []
def outCw (s : State) (o : CopyOut) (post : Bool) : Option Nat := (outMore o post).head?.map (fun q => recBase (recordOf s q))

theorem outCmds_nil {s : State} {o : CopyOut} {post : Bool} {kind : CmdKind} (he : boxElems (recordOf s o.h) o.idx = []) (hm : outMore o post = []) :
    s.outCmds o kind (outCw s o post) = [] := by
  rw [State.outCmds, outCw, he, hm]
  rfl

theorem outCmds_one {s : State} {o : CopyOut} {post : Bool} {kind : CmdKind} (h : boxElems (recordOf s o.h) o.idx ≠ [] ∨ outMore o post ≠ []) :
    s.outCmds o kind (outCw s o post) = [s.issuedCmd (s.outCmd o kind (outCw s o post))] := by
  refine if_neg ?_
  rw [outCw]
  cases he : boxElems (recordOf s o.h) o.idx <;> cases hm : outMore o post <;> simp_all

/-- CPOUT and XPOST are one order, by their kind and their completion word. -/
theorem exec_copyOut (c : Ctl) (o : CopyOut) (post : Bool) (s : State) : ∃ cwOf : List Rec → Option Nat,
    exec (if post then .xpost c o else .cpout c o) s = .next (s.moveOrder c (o.h :: outMore o post) false true
      (fun a recs => a.copyOut o recs (if post then .xpost else .cpout) (cwOf recs)) (s.outReady o)) ∧
    cwOf (s.records (o.h :: outMore o post)) = outCw s o post := by
  cases post with
  | false => exact ⟨fun _ => none, rfl, rfl⟩
  | true =>
    by_cases hcw : o.cw = 0
    · refine ⟨fun _ => none, ?_, ?_⟩
      · simp only [outMore, hcw, ne_eq, not_true, and_false, if_false]
        change execXpost c o s = _
        rw [execXpost, hcw]
        rfl
      · simp [outCw, outMore, hcw]
    · refine ⟨fun recs => some (recBase (recs.getD 1 (.failed 7)).data), ?_, ?_⟩
      · have hm : outMore o true = [o.cw - 1] := if_pos ⟨rfl, hcw⟩
        rw [hm]
        change execXpost c o s = _
        rw [execXpost, if_neg hcw]
        simp only [if_neg hcw]
        rfl
      · simp [outCw, outMore, hcw, State.records, Rec.data]

theorem copyOut_issues {c : Ctl} {s : State} {o : CopyOut} {post : Bool} {w : Word} (hs : noErrors s)
    (ha : armed s o.sw (recBytes (recordOf s o.h)) (recBytes (recordOf s o.h) - boxLen (boxElems (recordOf s o.h) o.idx)) w)
    (h : MoveReady s c (o.h :: outMore o post) false) (hp : s.coPending o.buf (256 * o.off) (recBytes (recordOf s o.h)) = false)
    (hg : s.chkGet o.buf (256 * o.off) = none) (hb : (s.ctile.buf o.buf).cpoutOk = true)
    (hlen : 256 * o.off + recBytes (recordOf s o.h) ≤ (s.decl o.buf).len * 4096) :
    ∃ t : State, exec (if post then .xpost c o else .cpout c o) s = .next t ∧
      MoveDone s t c (some (s.now + max (ceilDiv (recBytes (recordOf s o.h)) 256) 1 - 1)) [(s.now, .bufCpout o.buf)] [.drainDone o.buf] o.sw w s.ctile ∧
      (boxElems (recordOf s o.h) o.idx = [] ∧ outMore o post = [] → t.ctile.cmds = s.ctile.cmds) ∧
      (boxElems (recordOf s o.h) o.idx ≠ [] ∨ outMore o post ≠ [] → ∃ k : Cmd, Started s t k (if post then .xpost else .cpout) o.sw ∧
        k.n = recBytes (recordOf s o.h) ∧ k.buf = o.buf ∧ k.base = (s.decl o.buf).base * 4096 + 256 * o.off ∧
        k.elems = (boxElems (recordOf s o.h) o.idx).map (fun e => { e with
          data := Store.getN 0 s.ctile.sram ((s.decl o.buf).base * 4096 + 256 * o.off + e.tile) e.len, bad := [] }) ∧
        k.cw = outCw s o post) := by
  obtain ⟨cwOf, hexec, hcw⟩ := exec_copyOut c o post s
  have hm := State.copyOut_moved (if post then .xpost else .cpout) cwOf h hs ha hp hg hb hlen
  rw [hcw] at hm
  refine ⟨_, hexec, hm.done, fun ⟨he, hmore⟩ => ?_, fun hsome => ?_⟩
  · rw [outCmds_nil he hmore] at hm
    exact hm.no_cmds
  · rw [outCmds_one hsome] at hm
    exact ⟨_, hm.started rfl rfl, rfl, rfl, rfl, rfl, rfl⟩

theorem copyOut_waits {c : Ctl} {s : State} {o : CopyOut} {post : Bool} (h : MoveReady s c (o.h :: outMore o post) false)
    (hp : s.coPending o.buf (256 * o.off) (recBytes (recordOf s o.h)) = true) :
    exec (if post then .xpost c o else .cpout c o) s = .next (if s.ctile.timed then s.takeTrap (overrun 1 s.now) else s) := by
  obtain ⟨cwOf, hexec, -⟩ := exec_copyOut c o post s
  rw [hexec, State.copyOut_unready _ _ h hp]

theorem flush_issues {c : Ctl} {s : State} {b sw : Nat} {w : Word} (hs : noErrors s) (ha : armed s sw (4096 * (s.dirtyOf b).length) 0 w)
    (h : MoveReady s c [] false) (hp : s.coPendingAll b = false) (hg : s.chkGet b 0 = none) (hok : (s.ctile.buf b).cpoutOk = true)
    (hbound : (s.ctile.buf b).bound = true) :
    ∃ t : State, exec (.cpoutFlush c b sw) s = .next t ∧
      MoveDone s t c (some (s.now + max (16 * (s.dirtyOf b).length) 1 - 1)) [(s.now, .bufCpout b)] [.drainDone b] sw w (s.ctile.clean (s.decl b)) ∧
      (s.dirtyOf b = [] → t.ctile.cmds = s.ctile.cmds) ∧
      (s.dirtyOf b ≠ [] → ∃ k : Cmd, Started s t k .cpout sw ∧ k.n = 4096 * (s.dirtyOf b).length ∧ k.elems.map (fun e => (e.va, e.data)) =
        (s.dirtyOf b).map (fun g => ((s.ctile.buf b).va + 4096 * g, Store.getN 0 s.ctile.sram ((s.decl b).base * 4096 + 4096 * g) 4096))) := by
  obtain ⟨t, ht, hm⟩ := execCpoutFlush_moved h hs (armed_zero ha) hp hg hok hbound
  refine ⟨t, ht, hm.done, fun hnil => ?_, fun hsome => ?_⟩
  · rw [State.backCmds, hnil] at hm
    exact hm.no_cmds
  · rw [State.backCmds, if_neg (by rwa [List.isEmpty_iff])] at hm
    exact ⟨_, hm.started rfl rfl, rfl, s.backCmd_elems b sw⟩

/-- Settles O39: one body for CPOUT and XPOST, and the write-back of a flush. -/
theorem copiesOut : Obligations.CopiesOut := fun _ _ hs =>
  ⟨fun _ _ _ ha h hp hg hb hlen => copyOut_issues hs ha h hp hg hb hlen, fun _ _ h hp => copyOut_waits h hp,
    fun _ _ _ ha h hp hg hok hbound => flush_issues hs ha h hp hg hok hbound⟩

end Sys2Proof.Proofs
end

section
/-! PROOFS. Buffer and binding control as it issues (R171, R226 to R231), and the error completions of movement orders at issue (R63, R215). -/

namespace Sys2Proof.Machine
open Sys2Proof.Claims

/-! ### BIND, UNBIND, BSTATE and LRFLUSH -/

section
variable {s u : State} {c : Ctl} {b sw : Nat} {w : Word}

theorem State.orderEff_eq (u : State) (f : List Eff) : u.orderEff f = (u.listEffs (f.map (fun x => (u.now, x))), { retire := some u.now }) := rfl

theorem execBind_moved {q : Nat} (h : MoveReady s c [q] false) (hp : s.coPendingAll b = false) (hset : s.chkSet b 0 = none)
    (hbound : (s.ctile.buf b).bound = false) (hstill : (s.ctile.buf b).still = true) (hbase : recBase (recordOf s q) % 4096 = 0)
    (hv : swArm (Store.get 0 sw s.ctile.sw) 0 = some w) :
    ∃ t, execBind c b sw q s = .next t ∧
      Moved s t c { retire := some s.now } [(s.now, .bufBind b (recBase (recordOf s q)))] sw w [] s.ctile := by
  have hu := h.due.atU
  have hstart := MoveBody.start hu c [q] sw
  have harmed := hstart.wrSw hu w
  refine ⟨_, rfl, h.toDue.moves (by rw [hp]; rfl) ?_ (harmed.addEffs [(s.now, .bufBind b (recBase (recordOf s q)))]) rfl⟩
  simp only [hstart.buf, hstart.chkSet, hset, hbound, hstill, Bool.not_true, Bool.or_false, trapIf_false, noRecord_records, State.records_head, hbase,
    hstart.arm hu hv, State.orderEff_eq, harmed.now]
  rfl

/-- What an UNBIND lists: a FULL buffer with dirty granules drains while they are read. -/
def State.unbindEffs (s : State) (b : Nat) : List (Nat × Eff) :=
  if (s.ctile.buf b).st = .full ∧ s.dirtyOf b ≠ [] then [(s.now, .bufUnbind b), (s.now + 16 * (s.dirtyOf b).length, .unbound b)] else [(s.now, .unbound b)]

theorem execUnbind_moved (h : MoveReady s c [] false) (hp : s.coPendingAll b = false) (hset : s.chkSet b 0 = none)
    (hbound : (s.ctile.buf b).bound = true) (hstill : (s.ctile.buf b).still = true) (hs : s.dirtyOf b ≠ [] → noErrors s)
    (hv : swArm (Store.get 0 sw s.ctile.sw) (4096 * (s.dirtyOf b).length) = some w) :
    ∃ t, execUnbind c b sw s = .next t ∧
      Moved s t c { retire := some s.now } (s.unbindEffs b) sw w (s.backCmds b sw) (s.ctile.clean (s.decl b)) := by
  have hu := h.due.atU
  have hstart := MoveBody.start hu c [] sw
  have hback := hstart.startWriteBack hu b hs hv
  have hdrains : ((s.ctile.buf b).st == .full && (s.dirtyOf b).length != 0) = decide ((s.ctile.buf b).st = .full ∧ s.dirtyOf b ≠ []) := by
    rw [Bool.eq_iff_iff]
    simp
  by_cases hd : (s.ctile.buf b).st = .full ∧ s.dirtyOf b ≠ []
  · have hall := (hback.addEffs [(s.now, .bufUnbind b)]).addEffs [(s.now + 16 * (s.dirtyOf b).length, .unbound b)]
    rw [State.unbindEffs, if_pos hd]
    refine ⟨_, rfl, h.toDue.moves (by rw [hp]; rfl) ?_ hall rfl⟩
    simp only [hstart.buf, hstart.chkSet, hset, hbound, hstill, Bool.not_true, Bool.or_false, trapIf_false, hstart.dirtyOf, hdrains, decide_eq_true hd,
      State.orderEff_eq, hback.now, hstart.now]
    rfl
  · rw [State.unbindEffs, if_neg hd]
    refine ⟨_, rfl, h.toDue.moves (by rw [hp]; rfl) ?_ (hback.addEffs [(s.now, .unbound b)]) rfl⟩
    simp only [hstart.buf, hstart.chkSet, hset, hbound, hstill, Bool.not_true, Bool.or_false, trapIf_false, hstart.dirtyOf, hdrains, decide_eq_false hd,
      State.orderEff_eq, hback.now]
    rfl

theorem State.bstate_moved (full : Bool) (sw : Nat) (h : MoveReady s c [] false) (hp : s.coPendingAll b = false) (hset : s.chkSet b 0 = none)
    (hstill : (s.ctile.buf b).still = true) :
    ∃ t, s.bstate c b full = .next t ∧
      Moved s t c { retire := some s.now } [(s.now, .bufSet b full)] sw (Store.get 0 sw s.ctile.sw) [] s.ctile := by
  have hstart := MoveBody.start h.due.atU c [] sw
  refine ⟨_, rfl, h.toDue.moves (by rw [hp]; rfl) ?_ (hstart.addEffs [(s.now, .bufSet b full)]) rfl⟩
  simp only [hstart.chkSet, hset, hstart.buf, hstill, Bool.not_true, trapIf_false, State.orderEff_eq, hstart.now]
  rfl

theorem execLrflush_moved (q : Nat) (h : MoveReady s c [] false) (hv : swArm (Store.get 0 sw s.ctile.sw) 0 = some w) :
    ∃ t, execLrflush c sw q s = .next t ∧ Moved s t c { retire := some s.now } [(s.now, .uncache (s.recVa q))] sw w [] s.ctile := by
  have hu := h.due.atU
  have hstart := MoveBody.start hu c [] sw
  have hlisted := hstart.addEffs [(s.now, .uncache (s.recVa q))]
  refine ⟨_, rfl, h.toDue.moves rfl ?_ (hlisted.wrSw hu w) rfl⟩
  simp only [State.orderEff_eq, hstart.now, hstart.recVa, List.map_cons, List.map_nil, hlisted.arm hu hv]

/-- The command of an LRFLUSH.fetch. -/
def State.flushCmd (s : State) (sw q : Nat) : Cmd :=
  { id := 0, eng := 0, kind := .fetch, sw := sw, phase := phaseOf (Store.get 0 sw s.ctile.sw), va := s.recVa q, size := 1 }

theorem execLrflushFetch_moved (q : Nat) (h : MoveReady s c [] true) (hv : swArm (Store.get 0 sw s.ctile.sw) 1 = some w) :
    ∃ t, execLrflushFetch c sw q s = .next t ∧
      Moved s t c {} [(s.now, .uncache (s.recVa q))] sw w [s.issuedCmd (s.flushCmd sw q)] s.ctile := by
  have hu := h.due.atU
  have hstart := MoveBody.start hu c [] sw
  have hlisted := hstart.addEffs [(s.now, .uncache (s.recVa q))]
  refine ⟨_, rfl, h.toDue.moves rfl ?_ ((hlisted.wrSw hu w).addCmd (s.flushCmd sw q)) rfl⟩
  simp only [State.orderEff_eq, hstart.now, hstart.recVa, List.map_cons, List.map_nil, hlisted.arm hu hv]
  rfl
end

/-! ### BINDSO (R68, R230) -/

/-- The command of a BINDSO, before its pages are translated. -/
def State.bindCmd (s : State) (sw scope hr ho : Nat) : Cmd :=
  { id := 0, eng := 0, kind := .bindso, sw := sw, phase := phaseOf (Store.get 0 sw s.ctile.sw), va := recBase (recordOf s hr),
    n := recBytes (recordOf s hr), size := 1, obj := recBase (recordOf s ho), scope := scope }

theorem bindAligned_iff {s : State} {sw scope hr ho : Nat} : (s.bindCmd sw scope hr ho).bindAligned = true ↔
    recBase (recordOf s hr) % 64 = 0 ∧ recBytes (recordOf s hr) % 64 = 0 ∧ recBase (recordOf s ho) % 8 = 0 := by
  simp only [Cmd.bindAligned, State.bindCmd, Bool.and_eq_true, beq_iff_eq, and_assoc]

/-- Where the pages are held, a BINDSO takes their physical pieces and the object's address. -/
theorem State.bindTake_ok {u : State} {ctx : Nat} {k : Cmd} {ps : List (Nat × Nat)} {pa : Nat} (hr : u.translateRange ctx k.va k.n kRead = .ok ps)
    (ho : u.translate ctx k.obj kRead = .pa pa) (hp : u.plainPage ctx k.obj = false) (die : Nat) :
    u.bindTake die ctx k = (u, { k with ret := true, ranges := ps, opd := pa }) := by
  have hx : u.bindXlate ctx k.va k.n k.obj = .ok ps pa := by
    simp only [State.bindXlate, hr, ho, hp]
    split <;> rfl
  rw [State.bindTake, hx]

theorem State.translatePieces_congr {s u : State} {ctx kind : Nat} (h : ∀ va, u.translate ctx va kind = s.translate ctx va kind) (ps : List (Nat × Nat)) :
    u.translatePieces ctx kind ps = s.translatePieces ctx kind ps := by
  induction ps with
  | nil => rfl
  | cons p ps ih => rw [State.translatePieces, State.translatePieces, h, ih]

section
variable {s u : State} {c : Ctl} {l : List (Nat × Eff)} {sw : Nat} {w : Word} {ks : List Cmd} {x : Tile} (h : MoveBody s u c l sw w ks x)
include h

theorem MoveBody.translate (ctx va kind : Nat) : u.translate ctx va kind = s.translate ctx va kind := h.same (State.translate · ctx va kind) fun _ _ => rfl
theorem MoveBody.translateRange (ctx va n kind : Nat) : u.translateRange ctx va n kind = s.translateRange ctx va n kind :=
  State.translatePieces_congr (fun a => h.translate ctx a kind) _
theorem MoveBody.plainPage (ctx va : Nat) : u.plainPage ctx va = s.plainPage ctx va := h.same (State.plainPage · ctx va) fun _ _ => rfl
end

section
variable {s : State} {c : Ctl} {hr ho sw : Nat} {w : Word} (h : MoveReady s c [hr, ho] false) (hv : swArm (Store.get 0 sw s.ctile.sw) 1 = some w)
include h hv

theorem State.bindsoOrder_moved (scope : Nat) (k : Cmd)
    (hk : (if (s.bindCmd sw scope hr ho).bindAligned then
        ((s.moveStart c [hr, ho]).wrSw sw w).bindTake (dieOf ((s.moveStart c [hr, ho]).wrSw sw w).here) s.slotNo (s.bindCmd sw scope hr ho)
      else ((s.moveStart c [hr, ho]).wrSw sw w, s.bindCmd sw scope hr ho)) = ((s.moveStart c [hr, ho]).wrSw sw w, k)) :
    ∃ t, s.bindsoOrder c sw scope hr ho = .next t ∧ Moved s t c { retire := some s.now } [] sw w [s.issuedCmd k] s.ctile := by
  have hu := h.due.atU
  have hstart := MoveBody.start hu c [hr, ho] sw
  have harmed := hstart.wrSw hu w
  have hobj : ((s.records [hr, ho]).getD 1 (.failed 7)).data = recordOf s ho := rfl
  refine ⟨_, rfl, h.toDue.moves rfl ?_ (harmed.addCmd k) rfl⟩
  simp only [noRecord_records, State.records_head, hstart.arm hu hv, hstart.now, hobj, harmed.slotNo]
  rw [← State.bindCmd, hk]

theorem State.bindsoOrder_unaligned (scope : Nat) (ha : (s.bindCmd sw scope hr ho).bindAligned = false) :
    ∃ t, s.bindsoOrder c sw scope hr ho = .next t ∧
      Moved s t c { retire := some s.now } [] sw w [s.issuedCmd (s.bindCmd sw scope hr ho)] s.ctile :=
  State.bindsoOrder_moved h hv scope _ (by rw [ha]; rfl)

theorem State.bindsoOrder_translated (scope : Nat) {ps : List (Nat × Nat)} {pa : Nat} (ha : (s.bindCmd sw scope hr ho).bindAligned = true)
    (hrange : s.translateRange s.slotNo (recBase (recordOf s hr)) (recBytes (recordOf s hr)) kRead = .ok ps)
    (hobj : s.translate s.slotNo (recBase (recordOf s ho)) kRead = .pa pa) (hplain : s.plainPage s.slotNo (recBase (recordOf s ho)) = false) :
    ∃ t, s.bindsoOrder c sw scope hr ho = .next t ∧
      Moved s t c { retire := some s.now } [] sw w [s.issuedCmd { s.bindCmd sw scope hr ho with ret := true, ranges := ps, opd := pa }] s.ctile := by
  have harmed := (MoveBody.start h.due.atU c [hr, ho] sw).wrSw h.due.atU w
  refine State.bindsoOrder_moved h hv scope _ ?_
  rw [ha, if_pos rfl]
  refine State.bindTake_ok (ps := ps) (pa := pa) ?_ ?_ ?_ _
  · rw [harmed.translateRange]
    exact hrange
  · rw [harmed.translate]
    exact hobj
  · rw [harmed.plainPage]
    exact hplain
end

/-! ### QFENCE of CI and CO (R171, R231) -/

section
variable {s : State} {c : Ctl} (h : MoveReady s c [] false) (scope emask : Nat)
include h

theorem execQfenceCico_met (sw : Nat) (hm : s.ctile.fenceMet emask s.now = true) :
    ∃ t, execQfenceCico c scope emask s = .next t ∧ Moved s t c { retire := some s.now } [] sw (Store.get 0 sw s.ctile.sw) []
      { s.ctile with fence := Store.put 0 s.cur.eng 0 s.ctile.fence } := by
  have hstart := MoveBody.start h.due.atU c [] sw
  have hfence := hstart.setCtile (y := (s.moveStart c []).ctile.setFence s.cur.eng 0)
    (z := { s.ctile with fence := Store.put 0 s.cur.eng 0 s.ctile.fence }) rfl rfl rfl rfl rfl rfl rfl (by
      have hold : (s.moveStart c []).ctile.fence = s.ctile.fence := hstart.reads (·.fence) fun _ => rfl
      rw [Tile.setFence, hold]
      exact congrArg (fun t : Tile => { t with fence := Store.put 0 s.cur.eng 0 s.ctile.fence }) hstart.moveless)
  refine ⟨_, ?_, h.toDue.moves (rdy := fun _ => true) (body := fun a _ => .ok (a.setCtile (a.ctile.setFence s.cur.eng 0), { retire := some a.now }))
    rfl (by rw [hstart.now]) hfence rfl⟩
  simp only [execQfenceCico, hm, Bool.not_true, Bool.and_false, Bool.false_and, Bool.false_eq_true, if_false]

theorem execQfenceCico_waits (hm : s.ctile.fenceMet emask s.now = false) :
    execQfenceCico c scope emask s = if s.ctile.timed then .next (s.takeTrap (overrun 3 s.now))
      else .next (s.setCtile { s.ctile with fence := Store.put 0 s.cur.eng emask s.ctile.fence }) := by
  have hgo := State.engineGate_go (s := s) { ctl := c } h.due rfl rfl
  cases ht : s.ctile.timed with
  | true =>
    simp only [execQfenceCico, hm, ht, Bool.not_true, Bool.and_false, Bool.false_eq_true, if_false, if_true]
    rw [h.toDue.moveOrder_unmet (rdy := fun _ => true) rfl, ht]
    rfl
  | false =>
    simp only [execQfenceCico, hm, ht, hgo, h.due.legal, Bool.not_false, Bool.and_true, beq_self_eq_true, if_true, Bool.false_eq_true, if_false]
    rfl
end

end Sys2Proof.Machine

namespace Sys2Proof.Proofs
open Sys2Proof.Machine Sys2Proof.Claims

section
variable {c : Ctl} {s : State} {sw : Nat} {w : Word}

theorem unbind_issues {b : Nat} (h : MoveReady s c [] false) (hp : s.coPendingAll b = false) (hset : s.chkSet b 0 = none)
    (hbound : (s.ctile.buf b).bound = true) (hstill : (s.ctile.buf b).still = true) :
    (s.dirtyOf b = [] → armed s sw 0 0 w → ∃ t, exec (.unbind c b sw) s = .next t ∧
      MoveDone s t c (some s.now) [(s.now, .unbound b)] [] sw w (s.ctile.clean (s.decl b)) ∧ t.ctile.cmds = s.ctile.cmds) ∧
    (s.dirtyOf b ≠ [] → noErrors s → armed s sw (4096 * (s.dirtyOf b).length) 0 w → ∃ (t : State) (k : Cmd), exec (.unbind c b sw) s = .next t ∧
      MoveDone s t c (some s.now) (if (s.ctile.buf b).st = .full then [(s.now, .bufUnbind b), (s.now + 16 * (s.dirtyOf b).length, .unbound b)]
        else [(s.now, .unbound b)]) [] sw w (s.ctile.clean (s.decl b)) ∧
      Started s t k .cpout sw ∧ k.n = 4096 * (s.dirtyOf b).length ∧ k.elems.map (fun e => (e.va, e.data)) =
        (s.dirtyOf b).map (fun g => ((s.ctile.buf b).va + 4096 * g, Store.getN 0 s.ctile.sram ((s.decl b).base * 4096 + 4096 * g) 4096))) := by
  refine ⟨fun hnil ha => ?_, fun hsome hs ha => ?_⟩
  · obtain ⟨t, ht, hm⟩ := execUnbind_moved h hp hset hbound hstill (absurd hnil) (by rw [hnil]; exact armed_zero ha)
    rw [State.backCmds, State.unbindEffs, hnil, if_neg (fun hd => hd.2 rfl)] at hm
    exact ⟨t, ht, hm.done, hm.no_cmds⟩
  · obtain ⟨t, ht, hm⟩ := execUnbind_moved h hp hset hbound hstill (fun _ => hs) (armed_zero ha)
    rw [State.backCmds, if_neg (by rwa [List.isEmpty_iff]), State.unbindEffs] at hm
    simp only [hsome, ne_eq, not_false_eq_true, and_true] at hm
    exact ⟨t, _, ht, hm.done, hm.started rfl rfl, rfl, s.backCmd_elems b sw⟩

theorem bindso_issues {hr ho scope : Nat} (remove : Bool) (ha : armed s sw 1 0 w) (h : MoveReady s c [hr, ho] false) :
    let va := recBase (recordOf s hr)
    let n := recBytes (recordOf s hr)
    let obj := recBase (recordOf s ho)
    let aligned := va % 64 = 0 ∧ n % 64 = 0 ∧ obj % 8 = 0
    let sent (ret : Bool) (ps : List (Nat × Nat)) (pa : Nat) : Prop := ∃ (t : State) (k : Cmd),
      exec (if remove then .bindsoRemove c sw hr ho else .bindso c sw scope hr ho) s = .next t ∧
      MoveDone s t c (some s.now) [] [] sw w s.ctile ∧ Started s t k .bindso sw ∧ k.va = va ∧ k.n = n ∧ k.obj = obj ∧
      k.scope = (if remove then 0 else scope) ∧ k.ret = ret ∧ k.ranges = ps ∧ k.opd = pa ∧ k.code = 0
    (¬ aligned → sent false [] 0) ∧
    (∀ ps pa, aligned → s.translateRange s.slotNo va n kRead = .ok ps → s.translate s.slotNo obj kRead = .pa pa →
      s.plainPage s.slotNo obj = false → sent true ps pa) := by
  intro va n obj aligned sent
  have hexec : exec (if remove then .bindsoRemove c sw hr ho else .bindso c sw scope hr ho) s =
      s.bindsoOrder c sw (if remove then 0 else scope) hr ho := by
    cases remove with
    | false => rfl
    | true => rfl
  refine ⟨fun hun => ?_, fun ps pa hal hrange hobj hplain => ?_⟩
  · obtain ⟨t, ht, hm⟩ := State.bindsoOrder_unaligned h (armed_zero ha) (if remove then 0 else scope)
      (Bool.eq_false_iff.mpr fun hal => hun (bindAligned_iff.mp hal))
    exact ⟨t, _, hexec.trans ht, hm.done, hm.started rfl rfl, rfl, rfl, rfl, rfl, rfl, rfl, rfl, rfl⟩
  · obtain ⟨t, ht, hm⟩ := State.bindsoOrder_translated h (armed_zero ha) (if remove then 0 else scope) (bindAligned_iff.mpr hal) hrange hobj hplain
    exact ⟨t, _, hexec.trans ht, hm.done, hm.started rfl rfl, rfl, rfl, rfl, rfl, rfl, rfl, rfl, rfl⟩

theorem qfenceCico_issues {scope emask : Nat} (h : MoveReady s c [] false) :
    let x := s.ctile.before s.now
    let met := x.quietOf emask = true ∧ x.performed emask = true
    (met → ∃ t, exec (.qfenceCico c scope emask) s = .next t ∧
      MoveDone s t c (some s.now) [] [] sw (Store.get 0 sw s.ctile.sw) { s.ctile with fence := Store.put 0 s.cur.eng 0 s.ctile.fence } ∧
      t.ctile.cmds = s.ctile.cmds) ∧
    (¬ met → exec (.qfenceCico c scope emask) s = if s.ctile.timed then .next (s.takeTrap (overrun 3 s.now))
      else .next (s.setCtile { s.ctile with fence := Store.put 0 s.cur.eng emask s.ctile.fence })) := by
  refine ⟨fun hm => ?_, fun hm => execQfenceCico_waits h scope emask (Bool.eq_false_iff.mpr fun ht => hm (Bool.and_eq_true_iff.mp ht))⟩
  obtain ⟨t, ht, hmoved⟩ := execQfenceCico_met h scope emask sw (Bool.and_eq_true_iff.mpr hm)
  exact ⟨t, ht, hmoved.done, hmoved.no_cmds⟩

/-- Settles O43: each order by its own body; BINDSO and its removal are one. -/
theorem bufferControl : Obligations.BufferControl := by
  intro c s sw w
  refine ⟨fun b q ha h hp hset hbound hstill hbase => ?_, fun b h hp hset hbound hstill => unbind_issues h hp hset hbound hstill,
    fun b h hp hset hstill => ⟨?_, ?_⟩, fun q ha h => ?_, fun q ha h => ?_, fun hr ho scope remove ha h => bindso_issues remove ha h,
    fun scope emask h => qfenceCico_issues h⟩
  · obtain ⟨t, ht, hm⟩ := execBind_moved h hp hset hbound hstill hbase (armed_zero ha)
    exact ⟨t, ht, hm.done, hm.no_cmds⟩
  · obtain ⟨t, ht, hm⟩ := State.bstate_moved false sw h hp hset hstill
    exact ⟨t, ht, hm.done, hm.no_cmds⟩
  · obtain ⟨t, ht, hm⟩ := State.bstate_moved true sw h hp hset hstill
    exact ⟨t, ht, hm.done, hm.no_cmds⟩
  · obtain ⟨t, ht, hm⟩ := execLrflush_moved q h (armed_zero ha)
    exact ⟨t, ht, hm.done, hm.no_cmds⟩
  · obtain ⟨t, ht, hm⟩ := execLrflushFetch_moved q h (armed_zero ha)
    exact ⟨t, _, ht, hm.done, hm.started rfl rfl, rfl⟩
end

end Sys2Proof.Proofs
end

section
/-! PROOFS. The error completions of movement orders (R54, R63, R214, R215, R221): at issue, and when the last element is refused. -/

namespace Sys2Proof.Machine
open Sys2Proof.Claims

/-! ### An order that completes with a code as it issues -/

/-- A code other than OK completes a status word, whatever it held. -/
theorem swStatus_code {code : Nat} (h : code ≠ 0) (w : Word) : swStatus w code = swMake (!w.getMsbD 0) code 0 := by
  rw [swStatus, if_neg h, phaseOf_eq]

/-- A word that already counts bytes cannot count `n` more past its limit (R63). -/
theorem swArm_none {w : Word} {n : Nat} (h0 : w.toNat % 2 ^ 48 ≠ 0) (hn : 2 ^ 48 ≤ w.toNat % 2 ^ 48 + n) : swArm w n = none := by
  have hr : remainOf w = w.toNat % 2 ^ 48 := by rw [remainOf, bits, Nat.pow_zero, Nat.div_one]
  rw [swArm, hr, if_neg h0, if_neg (Nat.not_lt.mpr hn)]

theorem noRecord_failed (code : Nat) : noRecord [.failed code] = some code := rfl

section
variable {s u : State} {c : Ctl} {l : List (Nat × Eff)} {sw : Nat} {ks : List Cmd} {x : Tile} {code : Nat}

theorem MoveBody.failNow (h : MoveBody s u c l sw (Store.get 0 sw s.ctile.sw) ks x) (hu : s.atU = true) (h0 : code ≠ 0) (h1 : code ≠ 1) :
    MoveBody s (u.statusWrite sw code) c l sw (swMake (!(Store.get 0 sw s.ctile.sw).getMsbD 0) code 0) ks x :=
  swStatus_code h0 _ ▸ h.statusWrite hu h1

theorem MoveBody.failNow_eq (h : MoveBody s u c l sw (Store.get 0 sw s.ctile.sw) ks x) (code : Nat) (effs : List Eff) :
    u.failNow sw code effs = (u.statusWrite sw code, { retire := some s.now, effs := effs }) := by rw [State.failNow, h.now]

theorem MoveBody.landOf (h : MoveBody s u c l sw (Store.get 0 sw s.ctile.sw) ks s.ctile) (land : Nat) : u.landOf land = s.landOf land := by
  rw [State.landOf, h.reads (·.frmorg) (fun _ => rfl), h.reads (·.timed) (fun _ => rfl), h.now, State.landOf]

/-- The failure bit of a buffer. -/
def Tile.failBuf (t : Tile) (b : Nat) : Tile := t.setBuf b { t.buf b with fail := true }

theorem MoveBody.setFail (h : MoveBody s u c l sw (Store.get 0 sw s.ctile.sw) ks x) (b : Nat) :
    MoveBody s (u.setCtile (u.ctile.failBuf b)) c l sw (Store.get 0 sw s.ctile.sw) ks (x.failBuf b) :=
  h.setCtile rfl rfl rfl rfl rfl rfl rfl (congrArg (Tile.failBuf · b) h.moveless)
end

/-! ### Copies in -/

/-- What a CPIN does that fails as a whole: its cycle of retirement. -/
def failIssue (now buf : Nat) (land : Option Nat) : Issue :=
  { retire := some (match land with
      | some l => l - 1
      | none => now), effs := [.fillDone buf], land := land }

theorem failIssue_eq (now buf : Nat) (land : Option Nat) :
    ({ retire := if land.isSome then landRetire land else some now, effs := [.fillDone buf], land := land } : Issue) = failIssue now buf land := by
  cases land <;> rfl

section
variable {s : State} {c : Ctl} {o : CopyIn} {recs : List Rec} {land : Option Nat} {code : Nat} (h : MoveDue s c [o.h] recs false) (h0 : code ≠ 0) (h1 : code ≠ 1)
  (hl : s.landOf o.x = .ok land) (hset : s.chkSet o.buf (256 * o.off) = none) (hok : (s.ctile.buf o.buf).cpinOk (o.ovw == 1) = true)
include h h0 h1 hl hset hok

/-- A CPIN that fails as a whole, of a record without a copy or with one whose bytes its status word cannot count. -/
theorem execCpin_fails
    (hfail : noRecord recs = some code ∨ code = 9 ∧ noRecord recs = none ∧
      256 * o.off + recBytes ((recs.headD (.failed 7)).data) ≤ (s.decl o.buf).len * 4096 ∧
      swArm (Store.get 0 o.sw s.ctile.sw) (recBytes ((recs.headD (.failed 7)).data)) = none) :
    ∃ t, execCpin c o s = .next t ∧ Moved s t c (failIssue s.now o.buf land) [(s.now, .bufCpin o.buf)] o.sw
      (swMake (!(Store.get 0 o.sw s.ctile.sw).getMsbD 0) code 0) [] (s.ctile.failBuf o.buf) := by
  have hu := h.due.atU
  have hstart := MoveBody.start hu c [o.h] o.sw
  have hlisted := hstart.addEffs [(s.now, .bufCpin o.buf)]
  refine ⟨_, rfl, h.moves rfl ?_ ((hlisted.setFail o.buf).failNow hu h0 h1) rfl⟩
  rcases hfail with hnone | ⟨rfl, hsome, hlen, harm⟩
  · simp only [hstart.landOf, hl, State.copyIn, State.startCopy, hnone, hstart.chkSet, hset, hstart.buf, hok, hstart.decl, Bool.not_true, bne_self_eq_false,
      Bool.and_false, trapIf_false, hstart.now, hlisted.now, failIssue_eq]
    rfl
  · have hfits : decide ((s.decl o.buf).bytes < 256 * o.off + recBytes ((recs.headD (.failed 7)).data)) = false := decide_eq_false (Nat.not_lt.mpr hlen)
    simp only [hstart.landOf, hl, State.copyIn, State.startCopy, hsome, hstart.chkSet, hset, hstart.buf, hok, hstart.decl, hfits, Bool.not_true,
      Bool.false_and, trapIf_false, hstart.now, hlisted.now, hlisted.arm_none hu harm, failIssue_eq]
    rfl
end

/-! ### The other orders that fail as they issue -/

section
variable {s : State} {c : Ctl} {code : Nat} (h0 : code ≠ 0) (h1 : code ≠ 1)
include h0 h1

/-- The status word `sw` after a code. -/
theorem execCpout_fails {o : CopyOut} (h : MoveDue s c [o.h] [.failed code] false) (hp : s.coPending o.buf (256 * o.off) 0 = false)
    (hg : s.chkGet o.buf (256 * o.off) = none) (hok : (s.ctile.buf o.buf).cpoutOk = true) :
    ∃ t, execCpout c o s = .next t ∧ Moved s t c { retire := some s.now, effs := [.drainDone o.buf] } [(s.now, .bufCpout o.buf)] o.sw
      (swMake (!(Store.get 0 o.sw s.ctile.sw).getMsbD 0) code 0) [] s.ctile := by
  have hu := h.due.atU
  have hstart := MoveBody.start hu c [o.h] o.sw
  have hlisted := hstart.addEffs [(s.now, .bufCpout o.buf)]
  refine ⟨_, rfl, h.moves (congrArg (!·) hp) ?_ (hlisted.failNow hu h0 h1) rfl⟩
  simp only [State.copyOut, noRecord_failed, hstart.chkGet, hg, hstart.buf, hok, Bool.not_true, bne_self_eq_false, Bool.false_and, trapIf_false, hstart.now,
    hlisted.failNow_eq]
  rfl

theorem execBind_fails {b sw q : Nat} {recs : List Rec} (h : MoveDue s c [q] recs false) (hp : s.coPendingAll b = false) (hset : s.chkSet b 0 = none)
    (hbound : (s.ctile.buf b).bound = false) (hstill : (s.ctile.buf b).still = true)
    (hfail : noRecord recs = some code ∨ code = 9 ∧ noRecord recs = none ∧ recBase ((recs.headD (.failed 7)).data) % 4096 ≠ 0) :
    ∃ t, execBind c b sw q s = .next t ∧
      Moved s t c { retire := some s.now } [] sw (swMake (!(Store.get 0 sw s.ctile.sw).getMsbD 0) code 0) [] s.ctile := by
  have hu := h.due.atU
  have hstart := MoveBody.start hu c [q] sw
  refine ⟨_, rfl, h.moves (congrArg (!·) hp) ?_ (hstart.failNow hu h0 h1) rfl⟩
  rcases hfail with hnone | ⟨rfl, hsome, hbase⟩
  · simp only [hnone, hstart.buf, hstart.chkSet, hset, hbound, hstill, Bool.not_true, Bool.or_false, trapIf_false, hstart.failNow_eq]
    rfl
  · simp only [hsome, hstart.buf, hstart.chkSet, hset, hbound, hstill, Bool.not_true, Bool.or_false, trapIf_false, hbase, hstart.failNow_eq, ne_eq,
      not_false_eq_true, if_true]
    rfl

theorem execAcq_fails {o : SyncOp} (h : MoveDue s c [o.h] [.failed code] true) (hw : s.chkWrite 1 o.buf (8 * o.off) 8 = none) :
    ∃ t, execAcq c o s = .next t ∧
      Moved s t c { retire := some s.now } [] o.sw (swMake (!(Store.get 0 o.sw s.ctile.sw).getMsbD 0) code 0) [] s.ctile := by
  have hu := h.due.atU
  have hstart := MoveBody.start hu c [o.h] o.sw
  refine ⟨_, rfl, h.moves rfl ?_ (hstart.failNow hu h0 h1) rfl⟩
  simp only [hstart.chkWrite, hw, noRecord_failed, hstart.failNow_eq]

theorem execRel_fails {o : SyncOp} (h : MoveDue s c [o.h] [.failed code] false) (hs : noErrors s) (hp : s.coPending o.buf (8 * o.off) 8 = false)
    (hr : s.chkRead 2 o.buf (8 * o.off) 8 = none) :
    ∃ t, execRel c o s = .next t ∧
      Moved s t c { retire := some s.now } [] o.sw (swMake (!(Store.get 0 o.sw s.ctile.sw).getMsbD 0) code 0) [] s.ctile := by
  have hu := h.due.atU
  have hstart := MoveBody.start hu c [o.h] o.sw
  refine ⟨_, rfl, h.moves (congrArg (!·) hp) ?_ (hstart.failNow hu h0 h1) rfl⟩
  simp only [hstart.readBuf hs hr, State.correct_of_clean (hstart.clean hs), noRecord_failed, hstart.failNow_eq]
end

/-- A flush of an unbound buffer completes with RANGE. -/
theorem execCpoutFlush_fails {s : State} {c : Ctl} {b sw : Nat} (h : MoveReady s c [] false) (hp : s.coPendingAll b = false) (hg : s.chkGet b 0 = none)
    (hok : (s.ctile.buf b).cpoutOk = true) (hbound : (s.ctile.buf b).bound = false) :
    ∃ t, execCpoutFlush c b sw s = .next t ∧ Moved s t c { retire := some s.now, effs := [.drainDone b] } [(s.now, .bufCpout b)] sw
      (swMake (!(Store.get 0 sw s.ctile.sw).getMsbD 0) 9 0) [] s.ctile := by
  have hu := h.due.atU
  have hstart := MoveBody.start hu c [] sw
  have hlisted := hstart.addEffs [(s.now, .bufCpout b)]
  refine ⟨_, rfl, h.toDue.moves (congrArg (!·) hp) ?_ (hlisted.failNow hu (code := 9) (by omega) (by omega)) rfl⟩
  simp only [hstart.chkGet, hg, hstart.buf, hok, Bool.not_true, trapIf_false, hstart.now, hlisted.buf, hbound, hlisted.failNow_eq]
  rfl

/-! ### The last element of a copy, refused by its translation (R215) -/

/-- Bytes within a 64-byte line lie in one piece. -/
theorem pieces_line {va n : Nat} (h0 : 0 < n) (h : va % 64 + n ≤ 64) : pieces va n = [(va, n)] := by
  have hcount : (va % 4096 + n + 4095) / 4096 = 1 := by omega
  have hlen : Nat.min (va + n) ((va / 4096 + 0 + 1) * 4096) - va = n := by
    have hmin : Nat.min (va + n) ((va / 4096 + 0 + 1) * 4096) = va + n := Nat.min_eq_left (by omega)
    omega
  rw [pieces, hcount]
  simp only [List.range_one, List.map_cons, List.map_nil, if_true, hlen]

theorem State.translateRange_code {s : State} {ctx va n kind code : Nat} (h0 : 0 < n) (h : va % 64 + n ≤ 64) (hc : s.translate ctx va kind = .code code) :
    s.translateRange ctx va n kind = .code code va := by
  rw [State.translateRange, pieces_line h0 h, State.translatePieces, hc]

/-- A tile after a command of it has completed with a code. -/
def Tile.codeEnd (x : Tile) (c : Cmd) (code now : Nat) : Tile :=
  ((x.swUpd c.sw (fun w => swStatus w code)).endCmd c).retireCmd c now (if c.wrote.isEmpty then [] else [.landed c.buf c.wrote]) none

theorem State.endCommand_eq (s : State) (n t : Nat) (c : Cmd) {code : Nat} (h : code ≠ 1) :
    s.endCommand n t c code = s.setTileAt n t ((s.tileAt n t).codeEnd c code (s.slot n).rcc) := by
  rw [State.endCommand, State.taintCode, if_neg h]
  rfl

theorem Tile.codeEnd_sram (x : Tile) (c : Cmd) (code now : Nat) : (x.codeEnd c code now).sram = x.sram := rfl
theorem Tile.codeEnd_bufs (x : Tile) (c : Cmd) (code now : Nat) : (x.codeEnd c code now).bufs = x.bufs := rfl
theorem Tile.codeEnd_cmds (x : Tile) (c : Cmd) (code now : Nat) : (x.codeEnd c code now).cmds = x.cmds.filter (fun q => q.id != c.id) := rfl
theorem Tile.codeEnd_sw (x : Tile) (c : Cmd) (code now q : Nat) : Store.get 0 q (x.codeEnd c code now).sw =
    if q = c.sw then swStatus (Store.get 0 c.sw x.sw) code else Store.get 0 q x.sw := Store.get_put 0 _ c.sw q x.sw

theorem State.tileAt_setTileAt (s : State) (n t : Nat) (x : Tile) : (s.setTileAt n t x).tileAt n t = x := State.setTile_tile_same s _ x

/-- A state like `s` but for the tile `t` of region `n` and what translations it holds. -/
structure OneTile (s v : State) (n t : Nat) : Prop where
  mem : v.mem = s.mem
  slots : v.slots = s.slots
  others : ∀ p, p ≠ (s.slot n).phys t → v.tile p = s.tile p

theorem OneTile.setTileAt {s v : State} {n t : Nat} (h : OneTile s v n t) (x : Tile) : OneTile s (v.setTileAt n t x) n t where
  mem := h.mem
  slots := h.slots
  others p hp := by
    have hphys : (v.slot n).phys t = (s.slot n).phys t := by rw [State.slot, h.slots, State.slot]
    exact (State.setTile_tile_other v (hphys ▸ hp) x).trans (h.others p hp)

theorem OneTile.dropFailed (s : State) (n t va : Nat) : OneTile s (s.dropFailed n va) n t := ⟨rfl, rfl, fun _ _ => rfl⟩

/-- The command with its one element gone and its code noted. -/
def Cmd.refused (k : Cmd) (e : Elem) (code : Nat) : Cmd := { k with elems := [], err := code, errIx := e.ix }

section
variable {s : State} {n t : Nat} {k : Cmd} {e : Elem} {code : Nat} (hcw : k.cw = none) (hpat : k.pat = none) (herr : k.err = 0) (hel : k.elems = [e])
  (h0 : 0 < e.len) (hline : e.va % 64 + e.len ≤ 64) (hc1 : code ≠ 1)
include hcw hpat herr hel h0 hline hc1

theorem State.performIn_refused (hc0 : code ≠ 0) (hk : k.kind = .cpin) (hx : s.translate n e.va kRead = .code code) : ∃ v, OneTile s v n t ∧
    s.performIn n t k = v.setTileAt n t ((((s.tileAt n t).failBuf k.buf).failBuf k.buf).codeEnd (k.refused e code) code (s.slot n).rcc) := by
  have hrange := State.translateRange_code h0 hline hx
  have hwait : s.cwWait n t k = none := by rw [State.cwWait, hcw]
  have hfail : ({ k with elems := [] } : Cmd).fail e.ix code = k.refused e code := if_pos (.inl herr)
  have hfailIn (v : State) (f : Elem) : v.failIn n t (k.refused e code) f = (v.setTileAt n t ((v.tileAt n t).failBuf k.buf), k.refused e code) :=
    if_neg (fun hslot : k.kind = .cpslot => by rw [hk] at hslot; cases hslot)
  have hends : ((k.refused e code).err != 0 && ((k.refused e code).kind == .cpin || (k.refused e code).kind == .xfetch)) = true := by
    have hkind : (k.refused e code).kind = .cpin := hk
    rw [hkind]
    simp [Cmd.refused, hc0]
  have hpat' : (k.refused e code).pat = none := hpat
  refine ⟨_, ((OneTile.dropFailed s n t e.va).setTileAt ((s.tileAt n t).failBuf k.buf)).setTileAt (((s.tileAt n t).failBuf k.buf).failBuf k.buf), ?_⟩
  simp only [State.performIn, hel, List.length_singleton, State.choose, le_refl, if_true, List.getElem?_cons_zero, hrange, hwait, Bool.not_true,
    Bool.false_eq_true, if_false, List.eraseIdx_cons_zero, State.gread, hfail, hfailIn]
  rw [State.stepCopy]
  simp only [Cmd.refused, List.isEmpty_nil, if_true]
  rw [← Cmd.refused, State.endCopy, hpat']
  simp only [hends, if_true, hfailIn, State.tileAt_setTileAt]
  exact (State.endCommand_eq _ n t _ hc1).trans (by rw [State.tileAt_setTileAt]; rfl)

theorem State.performOut_refused (hk : k.kind = .cpout) (hlen : e.data.length = e.len) (hx : s.translate n e.va kWrite = .code code) :
    s.performOut n t k = (s.dropFailed n e.va).setTileAt n t ((s.tileAt n t).codeEnd (k.refused e code) code (s.slot n).rcc) := by
  have hrange := State.translateRange_code h0 hline hx
  have hwait : s.cwWait n t k = none := by rw [State.cwWait, hcw]
  have hfail : ({ k with elems := [] } : Cmd).fail e.ix code = k.refused e code := if_pos (.inl herr)
  have hpost : s.postTurn n t k = true := by
    rw [State.postTurn, hk]
    rfl
  have hmeet : s.meetHalf n e = s := by
    rw [State.meetHalf, hx]
    split <;> rfl
  have hbytes : s.outBytes n e = e.data := by
    rw [State.outBytes, hx]
    split <;> rfl
  have hends : ((k.refused e code).err != 0 && ((k.refused e code).kind == .cpin || (k.refused e code).kind == .xfetch)) = false := by
    have hkind : (k.refused e code).kind = .cpout := hk
    rw [hkind]
    simp
  have hpat' : (k.refused e code).pat = none := hpat
  simp only [State.performOut, hel, hrange, hwait, hpost, Bool.not_true, Bool.or_self, Bool.false_eq_true, if_false, hmeet, hbytes, State.gwrite, hlen, hfail]
  rw [State.stepCopy]
  simp only [Cmd.refused, List.isEmpty_nil, if_true]
  rw [← Cmd.refused, State.endCopy, hpat']
  simp only [hends, Bool.false_eq_true, if_false]
  exact State.endCommand_eq _ n t _ hc1
end

end Sys2Proof.Machine

namespace Sys2Proof.Proofs
open Sys2Proof.Machine Sys2Proof.Claims

section
variable {c : Ctl} {s : State} {code : Nat}

theorem recordFailed_completes {q sw : Nat} (h : RecordFailed s c q code) (h0 : code ≠ 0) (h1 : code ≠ 1) :
    let w := swMake (!(Store.get 0 sw s.ctile.sw).getMsbD 0) code 0
    let filled (o : CopyIn) (land : Option Nat) : Prop := ∃ t : State, exec (.cpin c o) s = .next t ∧ t.ctile.cmds = s.ctile.cmds ∧
      MoveDone s t c (some (match land with
          | some l => l - 1
          | none => s.now)) [(s.now, .bufCpin o.buf)] [.fillDone o.buf] sw w
        (s.ctile.setBuf o.buf { s.ctile.buf o.buf with fail := true })
    let outright (i : Instr) (retire : Nat) (l : List (Nat × Eff)) (effs : List Eff) : Prop :=
      ∃ t : State, exec i s = .next t ∧ t.ctile.cmds = s.ctile.cmds ∧ MoveDone s t c (some retire) l effs sw w s.ctile
    (∀ (o : CopyIn) (land : Option Nat), o.h = q → o.sw = sw → s.landOf o.x = .ok land → s.chkSet o.buf (256 * o.off) = none →
      (s.ctile.buf o.buf).cpinOk (o.ovw == 1) = true → filled o land) ∧
    (∀ o : CopyOut, o.h = q → o.sw = sw → s.coPending o.buf (256 * o.off) 0 = false → s.chkGet o.buf (256 * o.off) = none → (s.ctile.buf o.buf).cpoutOk = true →
      outright (.cpout c o) s.now [(s.now, .bufCpout o.buf)] [.drainDone o.buf]) ∧
    (∀ b, s.coPendingAll b = false → s.chkSet b 0 = none → (s.ctile.buf b).bound = false → (s.ctile.buf b).still = true →
      outright (.bind c b sw q) s.now [] []) ∧
    (∀ o : SyncOp, o.h = q → o.sw = sw → s.ctile.timed = false → s.chkWrite 1 o.buf (8 * o.off) 8 = none → outright (.acq c o) s.now [] []) ∧
    (∀ o : SyncOp, o.h = q → o.sw = sw → noErrors s → s.coPending o.buf (8 * o.off) 8 = false → s.chkRead 2 o.buf (8 * o.off) 8 = none →
      outright (.rel c o) s.now [] []) := by
  have hdue : MoveDue s c [q] [.failed code] false := h.toDue (fun hm => nomatch hm)
  refine ⟨fun o land hq hsw hl hset hok => ?_, fun o hq hsw hp hg hok => ?_, fun b hp hset hbound hstill => ?_, fun o hq hsw ht hw => ?_,
    fun o hq hsw hs hp hr => ?_⟩
  · subst hq hsw
    obtain ⟨t, ht, hm⟩ := execCpin_fails hdue h0 h1 hl hset hok (.inl rfl)
    exact ⟨t, ht, hm.no_cmds, hm.done⟩
  · subst hq hsw
    obtain ⟨t, ht, hm⟩ := execCpout_fails h0 h1 hdue hp hg hok
    exact ⟨t, ht, hm.no_cmds, hm.done⟩
  · obtain ⟨t, ht, hm⟩ := execBind_fails (sw := sw) h0 h1 hdue hp hset hbound hstill (.inl rfl)
    exact ⟨t, ht, hm.no_cmds, hm.done⟩
  · subst hq hsw
    obtain ⟨t, ht', hm⟩ := execAcq_fails h0 h1 (h.toDue (fun _ => ht)) hw
    exact ⟨t, ht', hm.no_cmds, hm.done⟩
  · subst hq hsw
    obtain ⟨t, ht, hm⟩ := execRel_fails h0 h1 hdue hs hp hr
    exact ⟨t, ht, hm.no_cmds, hm.done⟩

theorem range_completes {sw : Nat} :
    let w := swMake (!(Store.get 0 sw s.ctile.sw).getMsbD 0) 9 0
    let filled (o : CopyIn) (land : Option Nat) : Prop := ∃ t : State, exec (.cpin c o) s = .next t ∧ t.ctile.cmds = s.ctile.cmds ∧
      MoveDone s t c (some (match land with
          | some l => l - 1
          | none => s.now)) [(s.now, .bufCpin o.buf)] [.fillDone o.buf] sw w
        (s.ctile.setBuf o.buf { s.ctile.buf o.buf with fail := true })
    let outright (i : Instr) (retire : Nat) (l : List (Nat × Eff)) (effs : List Eff) : Prop :=
      ∃ t : State, exec i s = .next t ∧ t.ctile.cmds = s.ctile.cmds ∧ MoveDone s t c (some retire) l effs sw w s.ctile
    (∀ (o : CopyIn) (land : Option Nat), let n := recBytes (recordOf s o.h)
      o.sw = sw → MoveReady s c [o.h] false → s.landOf o.x = .ok land → s.chkSet o.buf (256 * o.off) = none →
      (s.ctile.buf o.buf).cpinOk (o.ovw == 1) = true → 256 * o.off + n ≤ (s.decl o.buf).len * 4096 →
      (Store.get 0 sw s.ctile.sw).toNat % 2 ^ 48 ≠ 0 → 2 ^ 48 ≤ (Store.get 0 sw s.ctile.sw).toNat % 2 ^ 48 + n → filled o land) ∧
    (∀ b h, MoveReady s c [h] false → s.coPendingAll b = false → s.chkSet b 0 = none → (s.ctile.buf b).bound = false → (s.ctile.buf b).still = true →
      recBase (recordOf s h) % 4096 ≠ 0 → outright (.bind c b sw h) s.now [] []) ∧
    (∀ b, MoveReady s c [] false → s.coPendingAll b = false → s.chkGet b 0 = none → (s.ctile.buf b).cpoutOk = true → (s.ctile.buf b).bound = false →
      outright (.cpoutFlush c b sw) s.now [(s.now, .bufCpout b)] [.drainDone b]) := by
  refine ⟨fun o land hsw h hl hset hok hlen hold hover => ?_, fun b q h hp hset hbound hstill hbase => ?_, fun b h hp hg hok hbound => ?_⟩
  · subst hsw
    obtain ⟨t, ht, hm⟩ := execCpin_fails (code := 9) h.toDue (by omega) (by omega) hl hset hok
      (.inr ⟨rfl, noRecord_records s _, hlen, swArm_none hold hover⟩)
    exact ⟨t, ht, hm.no_cmds, hm.done⟩
  · obtain ⟨t, ht, hm⟩ := execBind_fails (sw := sw) (code := 9) (by omega) (by omega) h.toDue hp hset hbound hstill
      (.inr ⟨rfl, noRecord_records s _, hbase⟩)
    exact ⟨t, ht, hm.no_cmds, hm.done⟩
  · obtain ⟨t, ht, hm⟩ := execCpoutFlush_fails (sw := sw) h hp hg hok hbound
    exact ⟨t, ht, hm.no_cmds, hm.done⟩
end

section
variable {s : State} {n t id : Nat} {k : Cmd} {e : Elem} {code : Nat}

theorem exec_bytesPerformed (hcmd : s.cmdAt n t id = some k) (hcw : k.cw = none) (hk : k.kind = .cpin ∨ k.kind = .cpout) :
    exec (.bytesPerformed n t id) s = .next (if k.kind = .cpin then s.performIn n t k else s.performOut n t k) := by
  change execBytesPerformed n t id s = _
  rw [execBytesPerformed, hcmd]
  rcases hk with hk | hk <;> simp only [hcw, hk] <;> rfl

/-- What the tile keeps and loses as its command ends with a code. -/
theorem codeEnd_refused (hid : k.id = id) (hc0 : code ≠ 0) {x y : Tile} {now : Nat} (hsw : y.sw = x.sw) (hcmds : y.cmds = x.cmds) :
    (y.codeEnd (k.refused e code) code now).cmds = x.cmds.filter (fun q => q.id != id) ∧
    ∀ q, Store.get 0 q (y.codeEnd (k.refused e code) code now).sw =
      if q = k.sw then swMake (!(Store.get 0 q x.sw).getMsbD 0) code 0 else Store.get 0 q x.sw := by
  refine ⟨?_, fun q => ?_⟩
  · rw [Tile.codeEnd_cmds, hcmds]
    exact hid ▸ rfl
  · rw [Tile.codeEnd_sw, hsw, swStatus_code hc0]
    have hk : (k.refused e code).sw = k.sw := rfl
    rw [hk]
    split
    · next hq => rw [hq]
    · rfl

theorem failBuf_twice (x : Tile) (b : Nat) : (((x.failBuf b).failBuf b).buf b).fail = true ∧ ∀ a, a ≠ b → ((x.failBuf b).failBuf b).buf a = x.buf a := by
  have hbuf (y : Tile) (a : Nat) : (y.failBuf b).buf a = if a = b then { y.buf b with fail := true } else y.buf a :=
    Store.get_put ({} : Buf) { y.buf b with fail := true } b a y.bufs
  refine ⟨?_, fun a ha => ?_⟩
  · rw [hbuf, if_pos rfl]
  · rw [hbuf, if_neg ha, hbuf, if_neg ha]

theorem lastElement_refused (hcmd : s.cmdAt n t id = some k) (hcw : k.cw = none) (hpat : k.pat = none) (herr : k.err = 0) (hel : k.elems = [e])
    (h0 : 0 < e.len) (hline : e.va % 64 + e.len ≤ 64) (hc0 : code ≠ 0) (hc1 : code ≠ 1) :
    let x := s.tileAt n t
    let ends (i : Instr) (more : State → Prop) : Prop := ∃ u : State, exec i s = .next u ∧ u.mem = s.mem ∧ u.slots = s.slots ∧
      (u.tileAt n t).sram = x.sram ∧ (u.tileAt n t).cmds = x.cmds.filter (fun q => q.id != id) ∧
      (∀ q, Store.get 0 q (u.tileAt n t).sw = if q = k.sw then swMake (!(Store.get 0 q x.sw).getMsbD 0) code 0 else Store.get 0 q x.sw) ∧
      (∀ p, p ≠ (s.slot n).phys t → u.tile p = s.tile p) ∧ more u
    (k.kind = .cpin → s.translate n e.va kRead = .code code → ends (.bytesPerformed n t id) (fun u =>
      ((u.tileAt n t).buf k.buf).fail = true ∧ ∀ b, b ≠ k.buf → (u.tileAt n t).buf b = x.buf b)) ∧
    (k.kind = .cpout → e.data.length = e.len → s.translate n e.va kWrite = .code code → ends (.bytesPerformed n t id) (fun u => (u.tileAt n t).bufs = x.bufs)) := by
  intro x ends
  have hid : k.id = id := by simpa using List.find?_some hcmd
  refine ⟨fun hk hx => ?_, fun hk hlen hx => ?_⟩
  · obtain ⟨v, hv, hp⟩ := State.performIn_refused hcw hpat herr hel h0 hline hc1 hc0 hk hx
    have hexec := exec_bytesPerformed hcmd hcw (.inl hk)
    rw [if_pos hk, hp] at hexec
    obtain ⟨hcmds, hsw⟩ := codeEnd_refused (e := e) (x := x) (y := (x.failBuf k.buf).failBuf k.buf) (now := (s.slot n).rcc) hid hc0 rfl rfl
    have hone := hv.setTileAt ((((s.tileAt n t).failBuf k.buf).failBuf k.buf).codeEnd (k.refused e code) code (s.slot n).rcc)
    refine ⟨_, hexec, hone.mem, hone.slots, ?_, ?_, ?_, hone.others, ?_⟩ <;> simp only [State.tileAt_setTileAt]
    · rfl
    · exact hcmds
    · exact hsw
    · exact failBuf_twice x k.buf
  · have hp := State.performOut_refused (t := t) hcw hpat herr hel h0 hline hc1 hk hlen hx
    have hexec := exec_bytesPerformed hcmd hcw (.inr hk)
    rw [if_neg (fun hin => by rw [hk] at hin; cases hin), hp] at hexec
    obtain ⟨hcmds, hsw⟩ := codeEnd_refused (e := e) (x := x) (y := x) (now := (s.slot n).rcc) hid hc0 rfl rfl
    have hone := (OneTile.dropFailed s n t e.va).setTileAt ((s.tileAt n t).codeEnd (k.refused e code) code (s.slot n).rcc)
    refine ⟨_, hexec, hone.mem, hone.slots, ?_, ?_, ?_, hone.others, ?_⟩ <;> simp only [State.tileAt_setTileAt]
    · rfl
    · exact hcmds
    · exact hsw
    · rfl
end

/-- Settles O46: each order by its own body, and the last element of a copy by its translation. -/
theorem movementErrors : Obligations.MovementErrors := fun _ _ _ _ =>
  ⟨fun _ h h0 h1 _ => recordFailed_completes h h0 h1, fun hc => by subst hc; exact range_completes,
    fun _ _ _ _ _ hcmd hcw hpat herr hel h0 hline hc0 hc1 => lastElement_refused hcmd hcw hpat herr hel h0 hline hc0 hc1⟩

end Sys2Proof.Proofs
end

section
/-! PROOFS. Exchange between the tiles of a region (R234 to R239): what an order of NX needs of its peer and its route, what it sends, and what it takes from the hold. -/

namespace Sys2Proof.Machine
open Sys2Proof.Claims

/-! ### An engine order that changes its region -/

theorem State.setRegion_setCtile {v : State} {r : Slot} (h : r.phys v.cur.tile = v.region.phys v.cur.tile) (y : Tile) :
    (v.setRegion r).setCtile y = (v.setCtile y).setRegion r := by
  have hhere : (v.setRegion r).here = v.here := by
    rw [State.here, State.setRegion_region]
    exact h
  rw [State.setCtile, hhere]
  rfl

/-- The bookkeeping of a due order whose body has also changed its region. -/
theorem OrderBody.commit_region {s u : State} {n : ENeed} {l : List (Nat × Eff)} {x : Tile} {r : Slot} (h : OrderBody s u n.ctl l x) (hd : Due s n.ctl)
    (hr : r.phys s.cur.tile = s.region.phys s.cur.tile) (i : Issue) :
    let t := (u.setRegion r).setCtile ((u.setRegion r).ctile.commitOrder n i s.cur s.now)
    offRegions t = offRegions s ∧ (∀ q, q ≠ s.slotNo → t.slot q = s.slot q) ∧ t.ctile.plain = x.plain ∧ t.region = r ∧
      ∃ f, Issued s t n.ctl f l ∧ f.retire = i.retire ∧ f.effs = i.effs := by
  have hreg : u.region = s.region := (congrArg State.region h.rest : u.offTiles.region = s.offTiles.region)
  have hcur : u.cur = s.cur := (congrArg State.cur h.rest : u.offTiles.cur = s.offTiles.cur)
  have hslot : u.slotNo = s.slotNo := (congrArg State.slotNo h.rest : u.offTiles.slotNo = s.offTiles.slotNo)
  have hslots : u.slots = s.slots := (congrArg State.slots h.rest : u.offTiles.slots = s.offTiles.slots)
  have hphys : r.phys u.cur.tile = u.region.phys u.cur.tile := by rw [hcur, hreg, hr]
  intro t
  let v := u.setCtile (u.ctile.commitOrder n i s.cur s.now)
  obtain ⟨hrest, hplain, -, f, hf, hret, heffs⟩ := h.commit hd i
  have ht : t = v.setRegion r := by
    rw [← State.setRegion_setCtile hphys, ← State.setRegion_ctile hphys]
  have htile : t.ctile = v.ctile := ht ▸ State.setRegion_ctile (s := v) hphys
  have hother (p : Nat) : t.tile p = v.tile p := by rw [ht]; rfl
  refine ⟨?_, fun q hq => ?_, htile ▸ hplain, ?_, f, ⟨fun p hp => (hother p).trans (hf.tiles p hp), ?_, ?_, ?_, ?_, hf.order, ?_⟩, hret, heffs⟩
  · rw [ht]
    exact (congrArg (fun w : State => ({ w with slots := [] } : State)) hrest : ({ v.offTiles with slots := [] } : State) = { s.offTiles with slots := [] })
  · rw [ht, State.slot, State.setRegion, State.setSlot]
    have hne : q ≠ v.slotNo := hslot.symm ▸ hq
    change Store.get ({} : Slot) q (Store.put {} v.slotNo r u.slots) = _
    rw [Store.get_put_other _ _ hne, hslots]
    rfl
  · rw [ht, State.setRegion_region]
  · rw [htile]; exact hf.engs
  · rw [htile]; exact hf.eng
  · rw [htile]; exact hf.tokens
  · rw [htile]; exact hf.flights
  · rw [htile]; exact hf.effs

/-! ### What an order of NX reads of its state -/

section
variable {s u : State} {c : Ctl} {l : List (Nat × Eff)} {x : Tile} (h : OrderBody s u c l x)
include h

theorem OrderBody.region : u.region = s.region := (congrArg State.region h.rest : u.offTiles.region = s.offTiles.region)
theorem OrderBody.cur : u.cur = s.cur := (congrArg State.cur h.rest : u.offTiles.cur = s.offTiles.cur)
theorem OrderBody.peerIn (o : Exch) : u.peerIn o = s.peerIn o := (congrArg (State.peerIn · o) h.rest : u.offTiles.peerIn o = s.offTiles.peerIn o)
theorem OrderBody.peer (o : Exch) : u.peer o = s.peer o := (congrArg (State.peer · o) h.rest : u.offTiles.peer o = s.offTiles.peer o)
theorem OrderBody.hopCost (r : Slot) (q : Hop) : u.hopCost r q = s.hopCost r q :=
  (congrArg (State.hopCost · r q) h.rest : u.offTiles.hopCost r q = s.offTiles.hopCost r q)
end

theorem OrderBody.readBuf {s u : State} {c : Ctl} {l : List (Nat × Eff)} (h : OrderBody s u c l s.ctile) (hs : noErrors s) {e b off n : Nat}
    (hc : s.chkRead e b off n = none) : u.readBuf e b off n = .ok (s.bufBytes b off n) := by
  have hclean : u.ctile.ecc = [] := (h.reads (·.ecc) fun _ => rfl).trans hs
  have hbytes : u.bufBytes b off n = s.bufBytes b off n := by
    rw [State.bufBytes, h.decl, h.reads (·.sram) (fun _ => rfl), State.bufBytes]
  rw [State.readBuf, h.chkRead, hc, Tile.bad_of_clean hclean, ← hbytes]
  rfl

/-! ### SEND and SENDK -/

/-- The words that a SEND puts on its route, and the cycle in which they are available. -/
def State.sentWords (s : State) (o : Exch) (off n : Nat) (pack : List Nat → List Code) : List Code :=
  pack ((List.range (o.n1 + 1)).map (fun k => leNat (Store.getN 0 s.ctile.sram ((s.decl o.buf).base * 4096 + (off + n * k)) n)))

def State.sentXfer (s : State) (o : Exch) (rank : Bool) (off n nw : Nat) (pack : List Nat → List Code) : Xfer :=
  { src := s.cur.tile, dst := s.peer o, seq := s.ctile.nxseq, rank := rank, km1 := if rank then o.n1 else 0
    words := s.sentWords o off n pack
    avail := s.now + 2 + ((route s.myX s.myY o.dx o.dy).map (s.hopCost s.region)).sum + ceilDiv nw 32 - 1 }

/-- The links that a SEND takes, and its region with them and the words on their way. -/
def State.sentLinks (s : State) (o : Exch) (nw : Nat) : List (Nat × Nat × Nat) :=
  s.occupy s.region (ceilDiv nw 32) (s.now + 1) (route s.myX s.myY o.dx o.dy)

def State.sentRegion (s : State) (o : Exch) (rank : Bool) (off n nw : Nat) (pack : List Nat → List Code) : Slot :=
  { s.region with
    links := s.region.links.filter (fun l => s.now ≤ l.2.2) ++ s.sentLinks o nw
    flying := s.region.flying ++ [s.sentXfer o rank off n nw pack] }

theorem linksFree_nil (held : List (Nat × Nat × Nat)) : linksFree held [] = true := rfl

section
variable {s : State} {c : Ctl} {o : Exch} {rank : Bool} {off n nw : Nat} {pack : List Nat → List Code}

/-- A hop that a mask does not declare raises ILL before all else. -/
theorem State.sendOrder_undeclared (h : Due s c) (hh : (route s.myX s.myY o.dx o.dy).all s.region.hopDeclared = false) :
    s.sendOrder c o rank off n (o.n1 + 1) nw pack = .next (s.takeTrap ill) := by
  simp only [State.sendOrder, hh, Bool.false_eq_true, if_false, State.engineOrder, h.legal, if_true]

section
variable (h : Due s c) (hh : (route s.myX s.myY o.dx o.dy).all s.region.hopDeclared = true) (hclear : Clear s 5 o.buf off (n * (o.n1 + 1)))
include h hh hclear

theorem State.sendOrder_outside (hp : s.peerIn o = false) : s.sendOrder c o rank off n (o.n1 + 1) nw pack = .next (s.takeTrap (ownerTrap o)) := by
  have hstart := OrderBody.popFor h.atU c
  simp only [State.sendOrder, hh, hp, hclear.pending_eq_false, Bool.false_eq_true, if_false, if_true, linksFree_nil, Bool.or_true, Bool.not_false]
  rw [State.engineOrder_error rfl h rfl rfl]
  rw [hstart.peerIn, hp]
  rfl

theorem State.sendOrder_taken (hp : s.peerIn o = true) (ht : linksFree s.region.links (s.sentLinks o nw) = false) :
    s.sendOrder c o rank off n (o.n1 + 1) nw pack = .next (if s.ctile.timed then s.takeTrap (overrun 5 s.now) else s) := by
  have hstart := OrderBody.popFor h.atU c
  rw [State.sentLinks] at ht
  simp only [State.sendOrder, hh, hp, hclear.pending_eq_false, if_true, ht, Bool.or_false, Bool.not_false]
  cases htimed : s.ctile.timed with
  | true =>
    rw [State.engineOrder_error rfl h rfl rfl]
    · rfl
    · rw [hstart.peerIn, hp, hstart.rest.now]
      rfl
  | false =>
    rw [State.engineOrder_waits rfl h rfl, htimed, if_neg Bool.false_ne_true, if_neg Bool.false_ne_true]

theorem State.sendOrder_sends (hs : noErrors s) (hp : s.peerIn o = true) (ht : linksFree s.region.links (s.sentLinks o nw) = true)
    (hchk : ∀ k, k ≤ o.n1 → s.chkRead 5 o.buf (off + n * k) n = none) :
    ∃ (t : State) (f : Flight), s.sendOrder c o rank off n (o.n1 + 1) nw pack = .next t ∧ Issued s t c f [] ∧ f.retire = some s.now ∧
      offRegions t = offRegions s ∧ (∀ q, q ≠ s.slotNo → t.slot q = s.slot q) ∧
      t.ctile.plain = ({ s.ctile with nxseq := (s.ctile.nxseq + 1) % 2 ^ 32 } : Tile).plain ∧ t.region = s.sentRegion o rank off n nw pack := by
  have hstart := OrderBody.popFor h.atU c
  have hclean : (s.popFor c s.cur.eng).ctile.ecc = [] := (hstart.reads (·.ecc) fun _ => rfl).trans hs
  have hreads : (elemOffs off n (o.n1 + 1)).mapM (fun x => (s.popFor c s.cur.eng).readBuf 5 o.buf x n) =
      .ok ((elemOffs off n (o.n1 + 1)).map (fun x => s.bufBytes o.buf x n)) := by
    refine mapM_eq_ok fun y hy => ?_
    obtain ⟨k, hk, rfl⟩ := List.mem_map.mp hy
    exact hstart.readBuf hs (hchk k (Nat.lt_succ_iff.mp (List.mem_range.mp hk)))
  have hseq := hstart.setCtile (y := { (s.popFor c s.cur.eng).ctile with nxseq := ((s.popFor c s.cur.eng).ctile.nxseq + 1) % 2 ^ 32 })
    (z := { s.ctile with nxseq := (s.ctile.nxseq + 1) % 2 ^ 32 }) rfl rfl rfl rfl (by
      rw [hstart.reads (·.nxseq) fun _ => rfl]
      exact congrArg (fun t : Tile => { t with nxseq := (s.ctile.nxseq + 1) % 2 ^ 32 }) hstart.plain)
  obtain ⟨hoff, hslots, hplain, hregion, f, hf, hret, -⟩ := OrderBody.commit_region (r := s.sentRegion o rank off n nw pack)
    (n := { ctl := c }) hseq h rfl { retire := some s.now }
  rw [State.sentLinks] at ht
  refine ⟨_, f, ?_, hf, hret, hoff, hslots, hplain, hregion⟩
  simp only [State.sendOrder, hh, hp, hclear.pending_eq_false, if_true, ht, Bool.or_true, Bool.not_false]
  refine congrArg Host.Outcome.next (State.engineOrder_go (r := (_, { retire := some s.now })) rfl h rfl rfl ?_)
  have hcost : (s.popFor c s.cur.eng).hopCost s.region = s.hopCost s.region := funext fun q => hstart.hopCost s.region q
  have hnx : (s.popFor c s.cur.eng).ctile.nxseq = s.ctile.nxseq := hstart.reads (·.nxseq) fun _ => rfl
  have hwords : ((elemOffs off n (o.n1 + 1)).map (fun x => s.bufBytes o.buf x n)).map leNat =
      (List.range (o.n1 + 1)).map (fun k => leNat (Store.getN 0 s.ctile.sram ((s.decl o.buf).base * 4096 + (off + n * k)) n)) := by
    rw [elemOffs, List.map_map, List.map_map]
    rfl
  simp only [hstart.peerIn, hp, hreads, State.correct_of_clean hclean, hseq.region, hseq.rest.now, Bool.not_true, Bool.false_eq_true, if_false]
  simp only [hstart.cur, hstart.peer, hstart.rest.now, hcost, hnx, hwords, Nat.add_sub_cancel]
  rfl
end
end

/-! ### RECV and RECVK -/

theorem takeFrom_eq_eraseP (src : Nat) (l : List Xfer) : takeFrom src l = l.eraseP (fun y => y.src == src) := by
  induction l with
  | nil => rfl
  | cons x l ih =>
    rw [takeFrom, List.eraseP_cons, ih]
    by_cases hx : x.src = src
    · simp [hx]
    · simp [hx, beq_eq_false_iff_ne.mpr hx]

section
variable {s : State} {c : Ctl} {o : Exch} {off n : Nat} {fits : Xfer → Bool} {unpack : Xfer → List Byte} (h : Due s c)
include h

theorem State.recvOrder_outside (hp : s.peerIn o = false) : s.recvOrder c o off n (o.n1 + 1) fits unpack = .next (s.takeTrap (ownerTrap o)) := by
  have hstart := OrderBody.popFor h.atU c
  simp only [State.recvOrder, hp, Bool.not_false, Bool.true_or]
  rw [State.engineOrder_error rfl h rfl rfl]
  rw [hstart.peerIn, hp]
  rfl

theorem State.recvOrder_waits (hp : s.peerIn o = true) (hx : s.ctile.hold.find? (fun y => y.src == s.peer o) = none) :
    s.recvOrder c o off n (o.n1 + 1) fits unpack = .next (if s.ctile.timed then s.takeTrap (overrun 3 s.now) else s) := by
  simp only [State.recvOrder, hp, hx, Bool.not_true, Bool.false_or, Option.isSome_none]
  rw [State.engineOrder_waits rfl h rfl]
  rfl

section
variable {x : Xfer} (hp : s.peerIn o = true) (hx : s.ctile.hold.find? (fun y => y.src == s.peer o) = some x)
include hp hx

theorem State.recvOrder_unfit (hf : fits x = false) :
    s.recvOrder c o off n (o.n1 + 1) fits unpack = .next (s.takeTrap { cause := .token, opd1 := 30 + x.src * 2 ^ 48 }) := by
  have hstart := OrderBody.popFor h.atU c
  have hold : (s.popFor c s.cur.eng).ctile.hold = s.ctile.hold := hstart.reads (·.hold) fun _ => rfl
  simp only [State.recvOrder, hp, hx, Bool.not_true, Bool.false_or, Option.isSome_some]
  rw [State.engineOrder_error rfl h rfl rfl]
  simp only [hstart.peerIn, hp, hold, hstart.peer, hx, hf]
  rfl

theorem State.recvOrder_takes (heng : s.cur.eng = 5) (hf : fits x = true) (hchk : ∀ k, k ≤ o.n1 → s.chkWrite 5 o.buf (off + n * k) n = none) :
    ∃ (t : State) (f : Flight), s.recvOrder c o off n (o.n1 + 1) fits unpack = .next t ∧ restSame s t ∧
      Issued s t c f [(s.now + 1, .sram 5 ((s.decl o.buf).base * 4096 + off) (unpack x)), (s.now + 1, .bufFull o.buf)] ∧ f.retire = some (s.now + 1) ∧
      t.ctile.plain = ({ s.ctile with hold := s.ctile.hold.eraseP (fun y => y.src == s.peer o) } : Tile).plain := by
  have hstart := OrderBody.popFor h.atU c
  have hold : (s.popFor c s.cur.eng).ctile.hold = s.ctile.hold := hstart.reads (·.hold) fun _ => rfl
  have htrap : firstTrap (fun y => (s.popFor c s.cur.eng).chkWrite 5 o.buf y n) (elemOffs off n (o.n1 + 1)) = none := by
    refine firstTrap_eq_none fun y hy => ?_
    obtain ⟨k, hk, rfl⟩ := List.mem_map.mp hy
    exact (hstart.chkWrite ..).trans (hchk k (Nat.lt_succ_iff.mp (List.mem_range.mp hk)))
  have htaken := hstart.setCtile (y := { (s.popFor c s.cur.eng).ctile with hold := takeFrom (s.peer o) s.ctile.hold })
    (z := { s.ctile with hold := s.ctile.hold.eraseP (fun y => y.src == s.peer o) }) rfl rfl rfl rfl (by
      rw [takeFrom_eq_eraseP]
      exact congrArg (fun t : Tile => { t with hold := s.ctile.hold.eraseP (fun y => y.src == s.peer o) }) hstart.plain)
  have hlisted := htaken.addEffs [(s.now + 1, .sram s.cur.eng ((s.decl o.buf).base * 4096 + off) (unpack x)), (s.now + 1, .bufFull o.buf)]
  obtain ⟨hrest, hplain, -, f, hissued, hret, -⟩ := OrderBody.commit (n := { ctl := c }) hlisted h { retire := some (s.now + 1) }
  have heffs : [(s.now + 1, Eff.sram s.cur.eng ((s.decl o.buf).base * 4096 + off) (unpack x)), (s.now + 1, .bufFull o.buf)] =
      [(s.now + 1, .sram 5 ((s.decl o.buf).base * 4096 + off) (unpack x)), (s.now + 1, .bufFull o.buf)] := by rw [heng]
  refine ⟨_, f, ?_, hrest, heffs ▸ hissued, hret, hplain⟩
  simp only [State.recvOrder, hp, hx, Bool.not_true, Bool.false_or, Option.isSome_some]
  refine congrArg Host.Outcome.next (State.engineOrder_go (r := (_, { retire := some (s.now + 1) })) rfl h rfl rfl ?_)
  simp only [hstart.peerIn, hp, hold, hstart.peer, hx, hf, htrap, Bool.not_true, Bool.false_eq_true, if_false, State.laterWrite, htaken.rest.now, htaken.eng, htaken.decl]
  rfl
end
end

end Sys2Proof.Machine

namespace Sys2Proof.Proofs
open Sys2Proof.Machine Sys2Proof.Claims

theorem exec_sendOf {i : Instr} {c : Ctl} {o : Exch} {rank : Bool} {off n nw : Nat} {pack : List Nat → List Code}
    (h : Claims.sendOf i = some (c, o, rank, off, n, nw, pack)) (s : State) : exec i s = s.sendOrder c o rank off n (o.n1 + 1) nw pack := by
  unfold Claims.sendOf at h
  split at h <;> cases h <;> rfl

/-- The place, the element size, the kind and size of a transfer, and the bytes that a RECV takes of it. -/
def recvOff (o : Exch) (rank : Bool) : Nat := if rank then 512 * o.off else 4 * o.off
def recvLen (rank : Bool) : Nat := if rank then 2 else 4
def recvFits (o : Exch) (rank : Bool) (x : Xfer) : Bool := if rank then x.rank && x.km1 == o.n1 else !x.rank && x.words.length == o.n1 + 1
def recvBytes (o : Exch) (rank : Bool) (x : Xfer) : List Byte :=
  if rank then (x.words.flatMap (fun w => leBytes 4 w.toNat)).take (2 * (o.n1 + 1)) else x.words.flatMap (fun w => leBytes 4 w.toNat)

/-- RECV and RECVK are one order, by their kind. -/
theorem exec_recv (c : Ctl) (o : Exch) (rank : Bool) (s : State) : exec (if rank then .recvk c o else .recv c o) s =
    s.recvOrder c o (recvOff o rank) (recvLen rank) (o.n1 + 1) (recvFits o rank) (recvBytes o rank) := by
  cases rank with
  | false => rfl
  | true => rfl

theorem recvFits_iff (o : Exch) (rank : Bool) (x : Xfer) : recvFits o rank x = true ↔
    if rank then x.rank = true ∧ x.km1 = o.n1 else x.rank = false ∧ x.words.length = o.n1 + 1 := by
  cases rank with
  | false => simp [recvFits]
  | true => simp [recvFits]

theorem recv_takes {c : Ctl} {o : Exch} {rank : Bool} {x : Xfer} {s : State} (h : Due s c) (heng : s.cur.eng = 5) (hp : s.peerIn o = true)
    (hx : s.ctile.hold.find? (fun y => y.src == s.peer o) = some x) :
    let i : Instr := if rank then .recvk c o else .recv c o
    let off := if rank then 512 * o.off else 4 * o.off
    let n := if rank then 2 else 4
    let bytes := x.words.flatMap (fun w => leBytes 4 w.toNat)
    let fits := if rank then x.rank = true ∧ x.km1 = o.n1 else x.rank = false ∧ x.words.length = o.n1 + 1
    (¬ fits → exec i s = .next (s.takeTrap { cause := .token, opd1 := 30 + x.src * 2 ^ 48 })) ∧
    (fits → (∀ k, k ≤ o.n1 → s.chkWrite 5 o.buf (off + n * k) n = none) →
      ∃ (t : State) (f : Flight), exec i s = .next t ∧ restSame s t ∧
        Issued s t c f [(s.now + 1, .sram 5 ((s.decl o.buf).base * 4096 + off) (if rank then bytes.take (2 * (o.n1 + 1)) else bytes)),
          (s.now + 1, .bufFull o.buf)] ∧ f.retire = some (s.now + 1) ∧
        t.ctile.plain = ({ s.ctile with hold := s.ctile.hold.eraseP (fun y => y.src == s.peer o) } : Tile).plain) := by
  refine ⟨fun hno => ?_, fun hfits hchk => ?_⟩
  · exact (exec_recv c o rank s).trans (State.recvOrder_unfit h hp hx (Bool.eq_false_iff.mpr fun hf => hno ((recvFits_iff o rank x).mp hf)))
  · obtain ⟨t, f, ht, hmore⟩ := State.recvOrder_takes (unpack := recvBytes o rank) h hp hx heng ((recvFits_iff o rank x).mpr hfits) hchk
    exact ⟨t, f, (exec_recv c o rank s).trans ht, hmore⟩

/-- Settles O45: SEND and SENDK are one order, and so are RECV and RECVK. -/
theorem exchanges : Obligations.Exchanges := by
  refine ⟨fun i c o rank off n nw pack s hi _ h hs => ?_, fun c o rank s h heng => ?_, fun c o rank x s h heng hp hx => recv_takes h heng hp hx⟩
  · intro hops u occ
    rw [exec_sendOf hi]
    exact ⟨State.sendOrder_undeclared h, fun hh hclear => ⟨fun hp ht hchk => State.sendOrder_sends h hh hclear hs hp ht hchk,
      State.sendOrder_taken h hh hclear, State.sendOrder_outside h hh hclear⟩⟩
  · intro i
    exact ⟨fun hp => (exec_recv c o rank s).trans (State.recvOrder_outside h hp),
      fun hp hx => (exec_recv c o rank s).trans (State.recvOrder_waits h hp hx)⟩

end Sys2Proof.Proofs
end

section
/-! PROOFS. Collectives (R243 to R245, R379): an order that opens its collective, the contributions that a switch combines, and how a collective ends. -/

namespace Sys2Proof.Machine
open Sys2Proof.Claims

/-! ### A state whose region, collectives and messages have changed -/

/-- A state with another region of the word in hand, other collectives and other messages. -/
def State.joined (v : State) (r : Slot) (cs : List Coll) (ms : List Out) : State := { v.setRegion r with colls := cs, outbox := ms }

section
variable {v : State} {r : Slot} {cs : List Coll} {ms : List Out} (h : r.phys v.cur.tile = v.region.phys v.cur.tile)

theorem State.joined_region (v : State) (r : Slot) (cs : List Coll) (ms : List Out) : (v.joined r cs ms).region = r := State.setRegion_region v r

theorem State.joined_rest (hs : r.rcc = v.region.rcc) : (v.joined r cs ms).now = v.now := by
  rw [State.now, State.joined_region, hs, State.now]

include h

theorem State.joined_here : (v.joined r cs ms).here = v.here := by
  rw [State.here, State.joined_region]
  exact h

theorem State.joined_ctile : (v.joined r cs ms).ctile = v.ctile := by
  rw [State.ctile, State.joined_here h]
  rfl

theorem State.joined_setCtile (y : Tile) : (v.joined r cs ms).setCtile y = (v.setCtile y).joined r cs ms := by
  rw [State.setCtile, State.joined_here h]
  rfl

theorem State.joined_rdSw (hu : v.atU = true) (n : Nat) : (v.joined r cs ms).rdSw n = v.rdSw n := by
  have hu' : (v.joined r cs ms).atU = true := hu
  rw [State.rdSw, hu', if_pos rfl, State.joined_ctile h, State.rdSw, hu, if_pos rfl]

theorem State.joined_wrSw (hu : v.atU = true) (n : Nat) (w : Word) : (v.joined r cs ms).wrSw n w = (v.wrSw n w).joined r cs ms := by
  have hu' : (v.joined r cs ms).atU = true := hu
  rw [State.wrSw, hu', if_pos rfl, State.joined_ctile h, State.joined_setCtile h, State.wrSw, hu, if_pos rfl]

theorem Issued.joined {s : State} {c : Ctl} {f : Flight} {l : List (Nat × Eff)} (hf : Issued s v c f l) : Issued s (v.joined r cs ms) c f l := by
  have hct := State.joined_ctile (cs := cs) (ms := ms) h
  exact ⟨hf.tiles, by rw [hct]; exact hf.engs, by rw [hct]; exact hf.eng, by rw [hct]; exact hf.tokens, by rw [hct]; exact hf.flights, hf.order,
    by rw [hct]; exact hf.effs⟩

theorem State.joined_addCmd (hrcc : r.rcc = v.region.rcc) (ht : r.timeout = v.region.timeout) (k : Cmd) :
    (v.joined r cs ms).addCmd k = (v.addCmd k).joined r cs ms := by
  have hk : (v.joined r cs ms).issuedCmd k = v.issuedCmd k := by
    rw [State.issuedCmd, State.joined_ctile h, State.joined_rest hrcc, State.joined_region, ht]
    rfl
  have hadd (u : State) : u.addCmd k =
      { u.setCtile { u.ctile with cmds := u.ctile.cmds ++ [u.issuedCmd k], nextId := u.ctile.nextId + 1 } with cmdSeq := u.cmdSeq + 1 } := rfl
  rw [hadd, hk, State.joined_ctile h, State.joined_setCtile h, hadd]
  rfl
end

theorem State.joined_outbox (v : State) (r : Slot) (cs : List Coll) (ms : List Out) : (v.joined r cs ms).outbox = ms := rfl
theorem State.joined_colls (v : State) (r : Slot) (cs : List Coll) (ms : List Out) : (v.joined r cs ms).colls = cs := rfl
theorem State.joined_mem (v : State) (r : Slot) (cs : List Coll) (ms : List Out) : (v.joined r cs ms).mem = v.mem := rfl

theorem State.joined_slot_other (v : State) (r : Slot) (cs : List Coll) (ms : List Out) {q : Nat} (hq : q ≠ v.slotNo) :
    (v.joined r cs ms).slot q = v.slot q := Store.get_put_other _ _ hq _

theorem Started.of_cmds {s t : State} {k : Cmd} {what : CmdKind} {n : Nat} (hcmds : t.ctile.cmds = s.ctile.cmds ++ [s.issuedCmd k])
    (hkind : k.kind = what) (hsw : k.sw = n) (hph : k.phase = phaseOf (Store.get 0 n s.ctile.sw)) : Started s t (s.issuedCmd k) what n :=
  ⟨hcmds, rfl, rfl, hkind, hsw, hph.trans (phaseOf_eq _), rfl⟩

/-! ### What a COLL reads -/

/-- Element `i` of the source of a COLL, the leaf of its parts, and its count of the group. -/
def State.collEl (s : State) (o : CollOp) (i : Nat) : Nat :=
  leNat (Store.getN 0 s.ctile.sram ((s.decl o.sbuf).base * 4096 + (512 * o.soff + elemBits o.ty / 8 * i)) (elemBits o.ty / 8))

abbrev collCount1 (o : CollOp) : Nat := 64 * (o.nch + 1)

def State.leafOf (s : State) (o : CollOp) (parts : Nat) : List Nat :=
  collLeaf o.ty o.opn ((List.range parts).map (fun p => (List.range (collCount1 o)).map (fun i => s.collEl o (collCount1 o * p + i))))

abbrev State.collKey (s : State) (o : CollOp) : Nat := o.group * 65536 + s.cur.tile
abbrev State.collSeq (s : State) (o : CollOp) : Nat := Store.get 0 (s.collKey o) s.region.collCount + 1

/-- The command of a COLL, and the collective that it opens. -/
def State.collCmd (s : State) (o : CollOp) (parts : Nat) : Cmd :=
  { id := 0, eng := 0, kind := .coll, sw := o.sw, phase := phaseOf (Store.get 0 o.sw s.ctile.sw), size := elemBits o.ty / 8 * collCount1 o, buf := o.dbuf,
    base := (s.decl o.dbuf).addr (512 * o.doff), gather := collBytes o.ty (s.leafOf o parts), remote := s.groupFar o.group }

def State.openedAs (s : State) (o : CollOp) (k total rank cmd : Nat) : Coll :=
  { world := s.region.world, jobid := s.region.jobid, group := o.group, seq := k, ty := o.ty, opn := o.opn, c := collCount1 o, ep := o.ep == 1,
    total := total, waiting := [(s.slotNo, s.cur.tile, cmd, rank)] }

def State.opened (s : State) (o : CollOp) (rank total : Nat) : Coll := s.openedAs o (s.collSeq o) total rank s.ctile.nextId

theorem State.joinColl_opens {v : State} {o : CollOp} {k : Nat} (h : v.findColl v.region.world v.region.jobid o.group k = none) (total rank cmd : Nat) :
    v.joinColl o k total rank cmd = { v with colls := v.colls ++ [v.openedAs o k total rank cmd] } := by
  rw [State.joinColl]
  simp only [h]
  rfl

def State.collRegion (s : State) (o : CollOp) : Slot :=
  { s.region with collCount := Store.put 0 (s.collKey o) (s.collSeq o) s.region.collCount }

/-- A run of elements, part by part. -/
theorem parts_of_elements (f : Nat → Nat) (k m : Nat) {p : Nat} (hp : p < m) :
    (((List.range (m * k)).map f).drop (k * p)).take k = (List.range k).map (fun i => f (k * p + i)) := by
  have hle : k * p + k ≤ m * k := by
    calc k * p + k = (p + 1) * k := by ring
      _ ≤ m * k := Nat.mul_le_mul_right k hp
  refine List.ext_getElem ?_ fun i h1 h2 => ?_
  · simp
    omega
  · simp

section
variable {s u : State} {c : Ctl} {l : List (Nat × Eff)} {sw : Nat} {w : Word} {ks : List Cmd} {x : Tile} (h : MoveBody s u c l sw w ks x)
include h

theorem MoveBody.region : u.region = s.region := h.same State.region fun _ _ => rfl
theorem MoveBody.cur : u.cur = s.cur := h.same State.cur fun _ _ => rfl
theorem MoveBody.rankIn (g : Nat) : u.rankIn g = s.rankIn g := h.same (State.rankIn · g) fun _ _ => rfl
theorem MoveBody.groupFar (g : Nat) : u.groupFar g = s.groupFar g := h.same (State.groupFar · g) fun _ _ => rfl
theorem MoveBody.colls : u.colls = s.colls := h.same State.colls fun _ _ => rfl
theorem MoveBody.outbox : u.outbox = s.outbox := h.same State.outbox fun _ _ => rfl
theorem MoveBody.findColl (wo jo g k : Nat) : u.findColl wo jo g k = s.findColl wo jo g k := h.same (State.findColl · wo jo g k) fun _ _ => rfl
end

theorem MoveBody.chkRset {s u : State} {c : Ctl} {l : List (Nat × Eff)} {sw : Nat} {w : Word} {ks : List Cmd} (h : MoveBody s u c l sw w ks s.ctile)
    (b off : Nat) : u.chkRset b off = s.chkRset b off := by
  rw [State.chkRset, h.decl, h.reads (·.seg) (fun _ => rfl), State.chkRset]

theorem State.leafOf_elements (s : State) (o : CollOp) (parts : Nat) :
    collLeaf o.ty o.opn ((List.range parts).map (fun i => (((List.range (parts * collCount1 o)).map (s.collEl o)).drop (collCount1 o * i)).take (collCount1 o))) =
      s.leafOf o parts := by
  rw [State.leafOf]
  congr 1
  exact List.map_congr_left fun p hp => parts_of_elements (s.collEl o) (collCount1 o) parts (List.mem_range.mp hp)

theorem Tile.storage_of_plain {y x : Tile} (h : y.plain.withMoves x = x.plain) : y.sram = x.sram ∧ y.bufs = x.bufs :=
  ⟨(congrArg Tile.sram h : (y.plain.withMoves x).sram = x.plain.sram), (congrArg Tile.bufs h : (y.plain.withMoves x).bufs = x.plain.bufs)⟩

/-! ### COLL -/

section
variable {s : State} {c : Ctl} {o : CollOp} {rank total : Nat} {m : Member} {w : Word} (h : MoveReady s c [] true) (hs : noErrors s)
  (hr : s.chkRset o.sbuf (512 * o.soff) = none) (hd : s.chkSet o.dbuf (512 * o.doff) = none) (hrank : s.rankIn o.group = some (rank, m, total))
  (hread : ∀ i, i < m.parts * collCount1 o → s.chkRead 2 o.sbuf (512 * o.soff + elemBits o.ty / 8 * i) (elemBits o.ty / 8) = none)
  (hwrite : ∀ i, i < collCount1 o → s.chkWrite 2 o.dbuf (512 * o.doff + elemBits o.ty / 8 * i) (elemBits o.ty / 8) = none)
  (hfind : s.findColl s.region.world s.region.jobid o.group (s.collSeq o) = none)
  (hv : swArm (Store.get 0 o.sw s.ctile.sw) (elemBits o.ty / 8 * collCount1 o) = some w)

/-- The body of a COLL that opens its collective. -/
def State.collBody (s : State) (c : Ctl) (o : CollOp) (rank total parts : Nat) (w : Word) : State :=
  (((s.moveStart c []).wrSw o.sw w).addCmd (s.collCmd o parts)).joined (s.collRegion o) (s.colls ++ [s.opened o rank total])
    (s.outbox ++ [.contribution o.group (s.collSeq o) rank (collBytes o.ty (s.leafOf o parts))])

include h hs hr hd hrank hread hwrite hfind hv

theorem execColl_go (hp : s.coPending o.sbuf (512 * o.soff) (elemBits o.ty / 8 * m.parts * collCount1 o) = false) :
    execColl c o s = .next ((s.collBody c o rank total m.parts w).setCtile
      ((s.collBody c o rank total m.parts w).ctile.commitOrder { ctl := c } {} s.cur s.now)) := by
  have hu := h.due.atU
  have hstart := MoveBody.start hu c [] o.sw
  have harmed := hstart.wrSw hu w
  have hphys : (s.collRegion o).phys (s.moveStart c []).cur.tile = (s.moveStart c []).region.phys (s.moveStart c []).cur.tile := by
    rw [hstart.region]
    rfl
  have hphys' : (s.collRegion o).phys ((s.moveStart c []).wrSw o.sw w).cur.tile =
      ((s.moveStart c []).wrSw o.sw w).region.phys ((s.moveStart c []).wrSw o.sw w).cur.tile := by
    rw [harmed.region]
    rfl
  have hreads : (elemOffs (512 * o.soff) (elemBits o.ty / 8) (m.parts * collCount1 o)).mapM (fun x => (s.moveStart c []).readBuf 2 o.sbuf x (elemBits o.ty / 8)) =
      .ok ((elemOffs (512 * o.soff) (elemBits o.ty / 8) (m.parts * collCount1 o)).map (fun x => s.bufBytes o.sbuf x (elemBits o.ty / 8))) := by
    refine mapM_eq_ok fun y hy => ?_
    obtain ⟨i, hi, rfl⟩ := List.mem_map.mp hy
    exact hstart.readBuf hs (hread i (List.mem_range.mp hi))
  have hwrites : firstTrap (fun x => (s.moveStart c []).chkWrite 2 o.dbuf x (elemBits o.ty / 8)) (elemOffs (512 * o.doff) (elemBits o.ty / 8) (collCount1 o)) = none := by
    refine firstTrap_eq_none fun y hy => ?_
    obtain ⟨i, hi, rfl⟩ := List.mem_map.mp hy
    exact (hstart.chkWrite ..).trans (hwrite i (List.mem_range.mp hi))
  have hvals : ((elemOffs (512 * o.soff) (elemBits o.ty / 8) (m.parts * collCount1 o)).map (fun x => s.bufBytes o.sbuf x (elemBits o.ty / 8))).map leNat =
      (List.range (m.parts * collCount1 o)).map (s.collEl o) := by
    rw [elemOffs, List.map_map, List.map_map]
    rfl
  have hregion : (s.moveStart c []).setRegion { s.region with collCount := Store.put 0 (s.collKey o) (s.collSeq o) s.region.collCount } =
      (s.moveStart c []).joined (s.collRegion o) s.colls s.outbox := by
    rw [← hstart.colls, ← hstart.outbox]
    rfl
  have hfind' : ((s.moveStart c []).joined (s.collRegion o) s.colls s.outbox).findColl s.region.world s.region.jobid o.group
      (s.collSeq o) = none := hfind
  have harm : ((s.moveStart c []).joined (s.collRegion o) s.colls s.outbox).arm o.sw (elemBits o.ty / 8 * collCount1 o) =
      some (((s.moveStart c []).wrSw o.sw w).joined (s.collRegion o) s.colls s.outbox,
        phaseOf (Store.get 0 o.sw s.ctile.sw)) := by
    rw [State.arm, State.joined_rdSw hphys (hstart.atU.trans hu), hstart.rdSw hu, hv, Option.map_some, State.joined_wrSw hphys (hstart.atU.trans hu)]
  have hjoin : (((s.moveStart c []).wrSw o.sw w).joined (s.collRegion o) s.colls s.outbox).joinColl o (s.collSeq o) total rank
      s.ctile.nextId = ((s.moveStart c []).wrSw o.sw w).joined (s.collRegion o) (s.colls ++ [s.opened o rank total]) s.outbox := by
    have hslot : (((s.moveStart c []).wrSw o.sw w).joined (s.collRegion o) s.colls s.outbox).slotNo = s.slotNo := harmed.slotNo
    have hcur : (((s.moveStart c []).wrSw o.sw w).joined (s.collRegion o) s.colls s.outbox).cur = s.cur := harmed.cur
    have hnone : (((s.moveStart c []).wrSw o.sw w).joined (s.collRegion o) s.colls s.outbox).findColl
        (((s.moveStart c []).wrSw o.sw w).joined (s.collRegion o) s.colls s.outbox).region.world
        (((s.moveStart c []).wrSw o.sw w).joined (s.collRegion o) s.colls s.outbox).region.jobid o.group (s.collSeq o) = none := by
      rw [State.joined_region]
      exact hfind
    have hopen : (((s.moveStart c []).wrSw o.sw w).joined (s.collRegion o) s.colls s.outbox).openedAs o (s.collSeq o) total rank s.ctile.nextId =
        s.opened o rank total := by
      rw [State.openedAs, State.joined_region, hslot, hcur]
      rfl
    rw [State.joinColl_opens hnone, hopen]
    rfl
  have hnext : (((s.moveStart c []).wrSw o.sw w).joined (s.collRegion o) s.colls s.outbox).ctile.nextId = s.ctile.nextId := by
    rw [State.joined_ctile hphys']
    exact harmed.next
  refine congrArg Host.Outcome.next ((h.toDue.moveOrder_go (r := (s.collBody c o rank total m.parts w, {})) (by rw [hrank]; exact congrArg (!·) hp) ?_).trans
    (by rw [hrank, Option.elim_some, hp]; rfl))
  simp only [hstart.chkRset, hr, hstart.chkSet, hd, hstart.rankIn, hrank, hreads, hwrites, State.correct_of_clean (hstart.clean hs), hstart.region, hstart.cur,
    hvals, hregion, hfind', harm, hnext, hjoin, State.leafOf_elements, hstart.groupFar]
  let v := ((s.moveStart c []).wrSw o.sw w).joined (s.collRegion o) (s.colls ++ [s.opened o rank total])
    (s.outbox ++ [.contribution o.group (s.collSeq o) rank (collBytes o.ty (s.leafOf o m.parts))])
  have hdecl : v.decl o.dbuf = s.decl o.dbuf := by
    have hcur : v.cur = s.cur := harmed.cur
    have hreg : v.region = s.collRegion o := State.joined_region ..
    rw [State.decl, State.img, hreg, hcur]
    rfl
  have hk : ({ s.collCmd o m.parts with base := (v.decl o.dbuf).addr (512 * o.doff) } : Cmd) = s.collCmd o m.parts := by
    rw [hdecl]
    rfl
  change Except.ok (v.addCmd { s.collCmd o m.parts with base := (v.decl o.dbuf).addr (512 * o.doff) }, _) = _
  rw [hk, State.joined_addCmd hphys' (by rw [harmed.region]; rfl) (by rw [harmed.region]; rfl)]
  rfl

/-- A COLL is a movement order that besides opens its collective and sends its contribution. -/
structure State.CollMoves (s t : State) (c : Ctl) (o : CollOp) (f : Flight) (parts : Nat) (w : Word) : Prop where
  issued : Issued s t c f []
  retire : f.retire = none
  cmds : t.ctile.cmds = s.ctile.cmds ++ [s.issuedCmd (s.collCmd o parts)]
  mem : t.mem = s.mem
  slots : t.slots = s.slots
  slotNo : t.slotNo = s.slotNo
  phys : (s.collRegion o).phys t.cur.tile = t.region.phys t.cur.tile
  sram : t.ctile.sram = s.ctile.sram
  bufs : t.ctile.bufs = s.ctile.bufs
  status : ∀ q, Store.get 0 q t.ctile.sw = if q = o.sw then w else Store.get 0 q s.ctile.sw

theorem execColl_moves (hp : s.coPending o.sbuf (512 * o.soff) (elemBits o.ty / 8 * m.parts * collCount1 o) = false) :
    ∃ (t : State) (f : Flight), execColl c o s = .next (t.joined (s.collRegion o) (s.colls ++ [s.opened o rank total])
      (s.outbox ++ [.contribution o.group (s.collSeq o) rank (collBytes o.ty (s.leafOf o m.parts))])) ∧ s.CollMoves t c o f m.parts w := by
  have hu := h.due.atU
  have hbody := ((MoveBody.start hu c [] o.sw).wrSw hu w).addCmd (s.collCmd o m.parts)
  have hgo := execColl_go h hs hr hd hrank hread hwrite hfind hv hp
  let v := ((s.moveStart c []).wrSw o.sw w).addCmd (s.collCmd o m.parts)
  have hphys : (s.collRegion o).phys v.cur.tile = v.region.phys v.cur.tile := by
    rw [hbody.region]
    rfl
  obtain ⟨⟨-, ⟨f, hf, hret, -⟩, hstatus, htile⟩, hcmds, -⟩ := hbody.commit (n := { ctl := c }) h.due rfl {}
  rw [State.collBody, State.joined_ctile hphys, State.joined_setCtile hphys] at hgo
  obtain ⟨hsram, hbufs⟩ := Tile.storage_of_plain htile
  exact ⟨_, f, hgo, hf, hret, hcmds, hbody.same State.mem fun _ _ => rfl, hbody.same State.slots fun _ _ => rfl, hbody.slotNo,
    hphys, hsram, hbufs, hstatus⟩

theorem execColl_opens (hp : s.coPending o.sbuf (512 * o.soff) (elemBits o.ty / 8 * m.parts * collCount1 o) = false) :
    ∃ (t : State) (x : Cmd) (f : Flight), execColl c o s = .next t ∧ Issued s t c f [] ∧ f.retire = none ∧
      Started s t x .coll o.sw ∧ x.gather = collBytes o.ty (s.leafOf o m.parts) ∧ x.id = s.ctile.nextId ∧
      x.base = (s.decl o.dbuf).base * 4096 + 512 * o.doff ∧
      t.outbox = s.outbox ++ [.contribution o.group (s.collSeq o) rank (collBytes o.ty (s.leafOf o m.parts))] ∧
      t.colls = s.colls ++ [s.opened o rank total] ∧ t.region = s.collRegion o ∧
      (∀ q, q ≠ s.slotNo → t.slot q = s.slot q) ∧ t.mem = s.mem ∧ t.ctile.sram = s.ctile.sram ∧ t.ctile.bufs = s.ctile.bufs ∧
      ∀ q, Store.get 0 q t.ctile.sw = if q = o.sw then w else Store.get 0 q s.ctile.sw := by
  obtain ⟨t, f, hexec, ht⟩ := execColl_moves h hs hr hd hrank hread hwrite hfind hv hp
  have hct := State.joined_ctile (cs := s.colls ++ [s.opened o rank total])
    (ms := s.outbox ++ [.contribution o.group (s.collSeq o) rank (collBytes o.ty (s.leafOf o m.parts))]) ht.phys
  refine ⟨_, s.issuedCmd (s.collCmd o m.parts), f, hexec, ht.issued.joined ht.phys, ht.retire,
    Started.of_cmds ((congrArg Tile.cmds hct).trans ht.cmds) rfl rfl rfl, rfl, rfl, rfl, State.joined_outbox .., State.joined_colls .., State.joined_region ..,
    fun q hq => ?_, (State.joined_mem ..).trans ht.mem, (congrArg Tile.sram hct).trans ht.sram, (congrArg Tile.bufs hct).trans ht.bufs, fun q => ?_⟩
  · rw [State.joined_slot_other _ _ _ _ (ht.slotNo.symm ▸ hq), State.slot, ht.slots, State.slot]
  · rw [hct]; exact ht.status q
end

/-! ### Contributions and the end of a collective -/

/-- A tile after a command of it has ended, and its order is to retire with `effs` and a code. -/
theorem Tile.endsAtRetire (x : Tile) (c : Cmd) (rcc code : Nat) (effs : List Eff) :
    EndsAtRetire x ((x.endCmd c).retireCmd c rcc effs (some (c.sw, code, c.phase))) c rcc code effs where
  cmds k := by
    simp only [Tile.retireCmd, Tile.endCmd, List.mem_filter, bne_iff_ne]
  flights := rfl
  rest := rfl

/-- A collective with one local order ends: that order retires by its code. -/
theorem State.endColl_one {s : State} {i n t id r code : Nat} {x : Coll} {c : Cmd} (result : List Byte) (hx : s.colls[i]? = some x)
    (hw : x.waiting = [(n, t, id, r)]) (hc : s.cmdAt n t id = some c) (h9 : code ≠ 9) :
    ∃ y, (s.endColl i code result).colls[i]? = some y ∧ y.done = true ∧ y.waiting = [] ∧
      EndsAtRetire (s.tileAt n t) ((s.endColl i code result).tileAt n t) c (s.slot n).rcc code
        (if code = 0 then [.sram c.eng c.base result, .bufFull c.buf] else []) := by
  have hend : s.endColl i code result =
      { s.endAtRetire n t c code (if code = 0 then [.sram c.eng c.base result, .bufFull c.buf] else []) with
        colls := s.colls.modify i (fun y => { y with waiting := [], done := y.done || code != 9 }) } := by
    rw [State.endColl, hx]
    simp only [hw, List.foldl_cons, List.foldl_nil, hc]
    rfl
  rw [hend]
  refine ⟨{ x with waiting := [], done := x.done || code != 9 }, ?_, ?_, rfl, ?_⟩
  · change (s.colls.modify i _)[i]? = _
    rw [List.getElem?_modify_eq, hx]
    rfl
  · simp [h9]
  · have htile : State.tileAt { s.endAtRetire n t c code (if code = 0 then [.sram c.eng c.base result, .bufFull c.buf] else []) with
        colls := s.colls.modify i (fun y => { y with waiting := [], done := y.done || code != 9 }) } n t =
        ((s.tileAt n t).endCmd c).retireCmd c (s.slot n).rcc (if code = 0 then [.sram c.eng c.base result, .bufFull c.buf] else [])
          (some (c.sw, code, c.phase)) := State.tileAt_setTileAt s n t _
    rw [htile]
    exact Tile.endsAtRetire ..

end Sys2Proof.Machine

namespace Sys2Proof.Proofs
open Sys2Proof.Machine Sys2Proof.Claims

/-- The collectives after a contribution has been combined. -/
def combined (s : State) (k rank : Nat) (data : List Byte) (x : Coll) : State :=
  { s with colls := s.colls.modify k (fun y => { y with parts := Store.put [] rank data x.parts, first := some (x.first.getD s.tb) }) }

theorem combined_coll {s : State} {k rank : Nat} {data : List Byte} {x : Coll} (hx : s.colls[k]? = some x) : (combined s k rank data x).colls[k]? =
    some { x with parts := Store.put [] rank data x.parts, first := some (x.first.getD s.tb) } := by
  change (s.colls.modify k _)[k]? = _
  rw [List.getElem?_modify_eq, hx]
  rfl

section
variable {s : State} {k rank : Nat} {data : List Byte} {x : Coll} (hx : s.colls[k]? = some x) (hdone : x.done = false) (hbad : x.bad = false)
  (hc : s.contribution x rank = some data) (hlen : data.length = elemBits x.ty / 8 * x.c)
include hx hdone hbad hc hlen

theorem exec_collContribution : exec (.collContribution k rank data) s =
    .next (if (!x.ep && decide (2 ^ 24 < data.length * (Store.put [] rank data x.parts).length)) = true then (combined s k rank data x).endColl k 5 []
      else if x.total = 0 ∨ (Store.put [] rank data x.parts).length < x.total then combined s k rank data x
      else (combined s k rank data x).endColl k 0 (collBytes x.ty (collTree x.ty x.opn ((Store.put [] rank data x.parts).map (fun p => collElems x.ty x.c p.2))))) := by
  change execCollContribution k rank data s = _
  simp only [execCollContribution, hx, hdone, hbad, hc, ← hlen, bne_self_eq_false, Bool.or_self, Bool.false_eq_true, if_false, Bool.and_eq_true,
    Bool.not_eq_true', decide_eq_true_eq, Bool.or_eq_true]
  rfl

theorem contribution_combines :
    let parts := Store.put [] rank data x.parts
    let ends (code : Nat) (result : List Byte) : Prop := ∀ n t id r c, x.waiting = [(n, t, id, r)] → s.cmdAt n t id = some c →
      ∃ u y, exec (.collContribution k rank data) s = .next u ∧ u.colls[k]? = some y ∧ y.done = true ∧ y.waiting = [] ∧
        EndsAtRetire (s.tileAt n t) (u.tileAt n t) c (s.slot n).rcc code (if code = 0 then [.sram c.eng c.base result, .bufFull c.buf] else [])
    (x.ep = true ∨ data.length * parts.length ≤ 2 ^ 24 →
      (x.total = 0 ∨ parts.length < x.total → exec (.collContribution k rank data) s =
        .next { s with colls := s.colls.modify k (fun y => { y with parts := parts, first := some (x.first.getD s.tb) }) }) ∧
      (x.total ≠ 0 → x.total ≤ parts.length → ends 0 (collBytes x.ty (collTree x.ty x.opn (parts.map (fun q => collElems x.ty x.c q.2)))))) ∧
    (x.ep = false → 2 ^ 24 < data.length * parts.length → ends 5 []) := by
  intro parts ends
  have hexec := exec_collContribution hx hdone hbad hc hlen
  have hends {code : Nat} {result : List Byte} (h9 : code ≠ 9) (he : exec (.collContribution k rank data) s = .next ((combined s k rank data x).endColl k code result)) :
      ends code result := fun n t id r c hw hcmd => by
    obtain ⟨y, hy, hyd, hyw, hret⟩ := State.endColl_one (s := combined s k rank data x) (c := c) result (combined_coll hx) hw hcmd h9
    exact ⟨_, y, he, hy, hyd, hyw, hret⟩
  refine ⟨fun hfits => ?_, fun hep hbig => ?_⟩
  · have hsmall : (!x.ep && decide (2 ^ 24 < data.length * parts.length)) = false := by
      rcases hfits with hep | hle
      · rw [hep]; rfl
      · rw [decide_eq_false (Nat.not_lt.mpr hle), Bool.and_false]
    rw [hsmall, if_neg Bool.false_ne_true] at hexec
    refine ⟨fun hmore => ?_, fun h0 hall => hends (by omega) ?_⟩
    · rw [hexec, if_pos hmore]
      rfl
    · have hfull : ¬ (x.total = 0 ∨ parts.length < x.total) := by omega
      rw [hexec, if_neg hfull]
  · have hover : (!x.ep && decide (2 ^ 24 < data.length * parts.length)) = true := by rw [hep, decide_eq_true hbig]; rfl
    rw [hover, if_pos rfl] at hexec
    exact hends (by omega) hexec
end

theorem collAbandon_ends {s : State} {k f n t id r : Nat} {x : Coll} {c : Cmd} (hx : s.colls[k]? = some x) (hdone : x.done = false) (hep : x.ep = false)
    (hf : x.first = some f) (hlate : f + s.collLimit < s.tb) (hw : x.waiting = [(n, t, id, r)]) (hc : s.cmdAt n t id = some c) :
    ∃ u y, exec (.collAbandon k) s = .next u ∧ u.colls[k]? = some y ∧ y.done = true ∧
      EndsAtRetire (s.tileAt n t) (u.tileAt n t) c (s.slot n).rcc 5 [] := by
  obtain ⟨y, hy, hyd, -, hret⟩ := State.endColl_one (code := 5) [] hx hw hc (by omega)
  refine ⟨_, y, ?_, hy, hyd, hret⟩
  change execCollAbandon k s = _
  simp only [execCollAbandon, hx, hdone, hep, hf, Option.any_some, decide_eq_true hlate, Bool.not_true, Bool.or_self, Bool.false_eq_true, if_false]

/-- Settles O44: the order as it opens its collective, the contributions, and the time limit. -/
theorem collectives : Obligations.Collectives := by
  refine ⟨fun c o s rank total m w => ?_, fun s k rank data x hx hdone hbad hc hlen => contribution_combines hx hdone hbad hc hlen,
    fun s k f n t id r x c hx hdone hep hf hlate hw hc => collAbandon_ends hx hdone hep hf hlate hw hc⟩
  intro n k key seq el leaf _ h hs hp hr hd hrank _ hread hwrite hfind ha
  obtain ⟨t, x, f, ht, hissued, hret, hstarted, hgather, hid, hbase, hout, hcolls, hregion, hmore⟩ :=
    execColl_opens h hs hr hd hrank hread hwrite hfind (armed_zero ha) hp
  refine ⟨t, x, f, ht, hissued, hret, hstarted, hgather, hbase, hout, ?_, hregion, hmore⟩
  rw [hcolls, hid]
  rfl

end Sys2Proof.Proofs
end

section
/-! PROOFS. The multiply-accumulate orders MMA, MMUL and MMAS (R256 to R258, R275): the shadow that opens, the block that takes its products, and the
status word that is armed. -/

namespace Sys2Proof.Machine
open Sys2Proof.Claims

theorem shpM_le (shp : Nat) : shpM shp ≤ 128 := by unfold shpM; split <;> decide
theorem shpN_le (shp : Nat) : shpN shp ≤ 128 := by unfold shpN; split <;> decide

/-! ### Operand memory without errors (R318) -/

theorem Tile.opPoison_of_clean {t : Tile} (h : t.ecc = []) (rs : List (Nat × Nat)) : t.opPoison rs = none := by
  simp [Tile.opPoison, Tile.bad_of_clean h]

theorem State.correctOp_of_clean {s : State} (h : s.ctile.ecc = []) (rs : List (Nat × Nat)) : s.correctOp rs = s := by
  induction rs with
  | nil => rfl
  | cons r rs ih => rw [State.correctOp, List.foldl_cons, State.correct_of_clean h]; exact ih

/-! ### What a body does to accumulators and to its status word -/

section
variable {s u : State} {c : Ctl} {l : List (Nat × Eff)} {x : Tile} (h : OrderBody s u c l x)
include h

theorem OrderBody.putAccs {y : Tile} {f : Nat → Nat → Wa} (hy : u.ctile.AccsSet y f) :
    OrderBody s (u.setCtile y) c l { x with acc := y.acc } := by
  rw [hy.rest]
  exact h.setCtile rfl rfl rfl rfl (congrArg (fun t : Tile => { t with acc := y.acc }) h.plain)

theorem OrderBody.atU : u.atU = s.atU := (congrArg State.atU h.rest : u.offTiles.atU = s.offTiles.atU)

theorem OrderBody.rdSw (hu : s.atU = true) (n : Nat) : u.rdSw n = Store.get 0 n x.sw := by
  rw [State.rdSw, h.atU, hu, if_pos rfl, h.reads (·.sw) fun _ => rfl]

theorem OrderBody.wrSw (hu : s.atU = true) (n : Nat) (w : Word) : OrderBody s (u.wrSw n w) c l { x with sw := Store.put 0 n w x.sw } := by
  rw [State.wrSw, h.atU, hu, if_pos rfl]
  exact h.setCtile rfl rfl rfl rfl (congrArg (fun t : Tile => { t with sw := Store.put 0 n w t.sw }) h.plain)

theorem OrderBody.armOne (hu : s.atU = true) {n : Nat} {w : Word} (hw : swArm (Store.get 0 n x.sw) 1 = some w) :
    u.armOne n = some (u.wrSw n w, (Store.get 0 n x.sw).getMsbD 0) := by
  rw [State.armOne, h.rdSw hu, hw, phaseOf_eq]

/-- The block of an MMA-class order takes its multiply-accumulates (R257). -/
theorem OrderBody.mac (hecc : u.ctile.ecc = []) {o : MmaOp} (hst : ∀ a k, k < 16384 → u.ctile.accEl a k = startAcc s o a k) (q : Nat) (arow brow : Nat → Nat) (ks : Nat → List (Nat × Nat)) {y : Tile}
    (hy : y = u.ctile.putAcc o.acc (shpM o.shp) (shpN o.shp) (fun i j =>
      macElem s.ctile (s.ctile.fent o.f) q (if o.clr = 1 then 0 else u.ctile.accEl o.acc (128 * i + j)) (arow i) (brow j) (ks i))) :
    OrderBody s (u.setCtile y) c l { x with acc := y.acc } ∧ ∀ a k, k < 16384 → y.accEl a k = macAcc s o q arow brow ks a k := by
  have hsets := Tile.putAcc_sets hecc (shpM_le o.shp) (shpN_le o.shp) o.acc (fun i j =>
      macElem s.ctile (s.ctile.fent o.f) q (if o.clr = 1 then 0 else u.ctile.accEl o.acc (128 * i + j)) (arow i) (brow j) (ks i))
  rw [hy]
  refine ⟨h.putAccs hsets, fun a k hk => ?_⟩
  rw [hsets.els a k hk, macAcc, hst a k hk, Nat.div_add_mod]
  refine ite_congr rfl (fun ha => ?_) (fun _ => rfl)
  rw [← ha.1, hst a k hk]
end

/-- A shadow that is EMPTY opens with its partner's elements, or with zeros, and becomes PENDING at the end of the cycle (R275). -/
theorem OrderBody.openShadow {s u : State} {c : Ctl} {x : Tile} (h : OrderBody s u c [] x) (hecc : u.ctile.ecc = []) {o : MmaOp} (hsh : x.shadow o.acc = s.ctile.shadow o.acc) (hacc : x.accEl = s.ctile.accEl) :
    OrderBody s (u.openShadow o.acc o.part o.clr) c (shadowEff s o) { x with acc := (u.openShadow o.acc o.part o.clr).ctile.acc } ∧
      ∀ a k, k < 16384 → (u.openShadow o.acc o.part o.clr).ctile.accEl a k = startAcc s o a k := by
  have hshu : u.ctile.shadow o.acc = s.ctile.shadow o.acc := (h.reads (·.shadow o.acc) fun _ => rfl).trans hsh
  have haccu : u.ctile.accEl = s.ctile.accEl := (h.reads Tile.accEl fun _ => rfl).trans hacc
  by_cases hopen : 4 ≤ o.acc ∧ (s.ctile.shadow o.acc).st = .empty
  · obtain ⟨h4, hst⟩ := hopen
    obtain ⟨y, hy, hsets⟩ : ∃ y, (if o.clr = 1 then u.ctile.clearAcc o.acc else u.ctile.copyAcc o.acc o.part) = y ∧ u.ctile.AccsSet y (startAcc s o) := by
      refine ⟨_, rfl, ?_⟩
      by_cases hclr : o.clr = 1
      · rw [if_pos hclr]
        refine (Tile.clearAcc_sets hecc o.acc).congr fun a k _ => ?_
        simp only [startAcc, h4, hst, hclr, haccu, and_true, if_true]
      · rw [if_neg hclr]
        refine (Tile.copyAcc_sets hecc o.acc o.part).congr fun a k _ => ?_
        simp only [startAcc, h4, hst, hclr, haccu, and_true, if_false]
    have hput := h.putAccs hsets
    have hu : u.openShadow o.acc o.part o.clr =
        (u.setCtile y).listEffs [(s.now, .shadow o.acc { st := .pending, partner := o.part })] := by
      rw [State.openShadow, if_neg (by omega), hshu, hst, ← hput.rest.now, ← hy]
      rfl
    have hctile : (u.openShadow o.acc o.part o.clr).ctile.acc = y.acc := by rw [hu, State.setCtile_ctile, State.setCtile_ctile]
    have heffs := hput.addEffs [(s.now, .shadow o.acc { st := .pending, partner := o.part })]
    refine ⟨?_, fun a k hk => ?_⟩
    · rw [hctile, hu, shadowEff, if_pos ⟨h4, hst⟩]
      exact heffs
    · rw [Tile.accEl, hctile]
      exact hsets.els a k hk
  · have hu : u.openShadow o.acc o.part o.clr = u := by
      rw [State.openShadow, hshu]
      by_cases h4 : o.acc < 4
      · rw [if_pos h4]
      · rw [if_neg h4]
        cases hst : (s.ctile.shadow o.acc).st with
        | empty => exact absurd ⟨by omega, hst⟩ hopen
        | pending => rfl
        | committed => rfl
    have hsame : ({ x with acc := u.ctile.acc } : Tile) = x := by rw [h.reads (·.acc) fun _ => rfl]
    rw [hu, shadowEff, if_neg hopen, hsame]
    refine ⟨h, fun a k _ => ?_⟩
    rw [startAcc, if_neg fun hc => hopen hc.2, haccu]

/-! ### MMA and MMUL (R256, R257) -/

/-- The width class of the entry of an order. -/
def State.mmaCol (s : State) (o : MmaOp) : Nat := rowCol (rowOf (entA (s.ctile.fent o.f)))

/-- The unit, times, accumulators and ranges of MMA and MMUL (Table 14.3). -/
def State.denseNeed (s : State) (o : MmaOp) (modular : Bool) : MNeed :=
  let occ := shpM o.shp * shpN o.shp * shpK o.shp (s.mmaCol o) / rate (s.mmaCol o)
  { unit := [(keyArray, occ)], lat := occ + (if modular then 14 else 10), accs := s.ctile.mmaAccs o.acc o.part o.clr, mma := some o.acc, joins := true,
    rd := denseRanges (s.ctile.fent o.f) o.shp (64 * o.a) (64 * o.b) }

/-- The elements that MMA and MMUL leave. -/
def State.denseAcc (s : State) (o : MmaOp) : Nat → Nat → Wa :=
  let e := s.ctile.fent o.f
  let k := shpK o.shp (s.mmaCol o)
  macAcc s o (Store.get ({} : QReg) o.q s.ctile.qM).q (fun i => 64 * o.a + i * packedBytes (entA e) k)
    (fun j => 64 * o.b + j * packedBytes (entB e) k) (fun _ => (List.range k).map (fun p => (p, p)))

section
variable {s : State} {c : Ctl} {o : MmaOp}

theorem State.denseOrder_sets {modular : Bool} (h : MxReady s c (s.denseNeed o modular)) (he : entValid (s.ctile.fent o.f) = true)
    (hcls : (rowClass (rowOf (entA (s.ctile.fent o.f))) == 2) = modular) (hspn : entSpn (s.ctile.fent o.f) = 0)
    (hq : modular = true → (Store.get ({} : QReg) o.q s.ctile.qM).valid = true) (hsh : s.ctile.shadowChk o.acc o.part = none)
    (hrs : s.ctile.rangesChk (denseRanges (s.ctile.fent o.f) o.shp (64 * o.a) (64 * o.b)) = none) :
    s.SetsAccs (s.denseOrder c o modular) c (s.denseNeed o modular) (shadowEff s o) (s.denseAcc o) := by
  have hclean := h.body_clean
  obtain ⟨hopen, hstart⟩ := h.body.openShadow hclean (o := o) rfl rfl
  have hopened := hopen.reads (·.ecc) (fun _ => rfl) |>.trans h.whole
  have hmac : macElem ((s.popFor c s.cur.eng).openShadow o.acc o.part o.clr).ctile = macElem s.ctile := hopen.reads macElem fun _ => rfl
  obtain ⟨hblock, hels⟩ := hopen.mac hopened hstart (Store.get ({} : QReg) o.q s.ctile.qM).q
    (fun i => 64 * o.a + i * packedBytes (entA (s.ctile.fent o.f)) (shpK o.shp (s.mmaCol o)))
    (fun j => 64 * o.b + j * packedBytes (entB (s.ctile.fent o.f)) (shpK o.shp (s.mmaCol o)))
    (fun _ => (List.range (shpK o.shp (s.mmaCol o))).map (fun p => (p, p))) rfl
  have hill : (!entValid (s.ctile.fent o.f) || (rowClass (rowOf (entA (s.ctile.fent o.f))) == 2) != modular || entSpn (s.ctile.fent o.f) != 0 ||
      (modular && !(Store.get ({} : QReg) o.q s.ctile.qM).valid)) = false := by
    cases modular with
    | false => simp [he, hcls, hspn]
    | true => simp [he, hcls, hspn, hq rfl]
  refine State.mxOrder_accs h (i := { accW := 2 ^ o.acc, intPath := rowClass (rowOf (entA (s.ctile.fent o.f))) != 0 }) ?_ rfl hblock hels rfl rfl
  simp only [h.body.reads (·.qM) (fun _ => rfl), hill, Bool.false_eq_true, if_false, h.body.reads (·.shadowChk o.acc o.part) (fun _ => rfl), hsh,
    h.body.reads (·.rangesChk (denseRanges (s.ctile.fent o.f) o.shp (64 * o.a) (64 * o.b))) (fun _ => rfl), hrs, Tile.opPoison_of_clean hclean,
    Tile.accsPoison_of_clean hclean, State.correctOp_of_clean hclean, State.correctAccs_of_clean hclean, Tile.macDense, hmac]
  rfl
end

/-! ### Orders that arm a status word (R63, R258) -/

/-- The operand ranges of MMAS (R253, R258). -/
def State.sparseRanges (s : State) (o : MmaOp) : List (Nat × Nat) :=
  let e := s.ctile.fent o.f
  let k := shpK o.shp (s.mmaCol o)
  [(64 * o.a, shpM o.shp * packedBytes (entA e) (ceilDiv k 12 * entSpn e)), (64 * o.b, shpN o.shp * packedBytes (entB e) k),
    (64 * o.md, shpM o.shp * 2 * ceilDiv k 12)]

/-- The unit, times, accumulators and ranges of MMAS (Table 14.3, R258). -/
def State.sparseNeed (s : State) (o : MmaOp) : MNeed :=
  let e := s.ctile.fent o.f
  let k := shpK o.shp (s.mmaCol o)
  let occ := max (ceilDiv (shpM o.shp * shpN o.shp * k * entSpn e) (12 * rate (s.mmaCol o))) (shpM o.shp * shpN o.shp * k / (4 * rate (s.mmaCol o)))
  { unit := [(keyArray, occ)], lat := occ + 10, accs := s.ctile.mmaAccs o.acc o.part o.clr, mma := some o.acc, joins := true,
    rd := s.sparseRanges o }

/-- Every metadata word of an MMAS is valid (R108). -/
def State.metaValid (s : State) (o : MmaOp) : Prop :=
  let k := shpK o.shp (s.mmaCol o)
  ∀ i g, i < shpM o.shp → g < ceilDiv k 12 →
    metaOk k (entSpn (s.ctile.fent o.f)) g (s.ctile.meta (64 * o.md) (ceilDiv k 12) i g) = true

theorem State.metaValid_iff (s : State) (o : MmaOp) :
    ((List.range (shpM o.shp)).all (fun i => (List.range (ceilDiv (shpK o.shp (s.mmaCol o)) 12)).all (fun g =>
      metaOk (shpK o.shp (s.mmaCol o)) (entSpn (s.ctile.fent o.f)) g (s.ctile.meta (64 * o.md) (ceilDiv (shpK o.shp (s.mmaCol o)) 12) i g)))) = true ↔
    s.metaValid o := by
  simp only [State.metaValid, List.all_eq_true, List.mem_range]
  exact ⟨fun h i g hi hg => h i hi g hg, fun h i hi g hg => h i g hi hg⟩

/-- The elements that MMAS leaves. -/
def State.sparseAcc (s : State) (o : MmaOp) : Nat → Nat → Wa :=
  let e := s.ctile.fent o.f
  let k := shpK o.shp (s.mmaCol o)
  macAcc s o 0 (fun i => 64 * o.a + i * packedBytes (entA e) (ceilDiv k 12 * entSpn e)) (fun j => 64 * o.b + j * packedBytes (entB e) k)
    (fun i => (s.ctile.kept (64 * o.md) (ceilDiv k 12) i).zipIdx.map (fun p => (p.2, p.1)))

section
variable {s u : State} {c : Ctl} {n : MNeed} {body : State → Except Trap (State × Issue)} {i : Issue}

/-- An order whose body has armed its status word, and set accumulators as in `y`. -/
theorem State.mxOrder_arms {k occ sw : Nat} {w : Word} {l : List (Nat × Eff)} {y : Tile} (h : MxReady s c n)
    (hb : body (s.popFor c s.cur.eng) = .ok (u, i)) (hunit : n.unit = [(k, occ)]) (hw : swArm (Store.get 0 sw s.ctile.sw) 1 = some w)
    (hu : OrderBody s u c l { s.ctile with acc := y.acc, sw := Store.put 0 sw w s.ctile.sw }) (heffs : i.effs = []) :
    let t := s.mxOrder c n body
    ArmedOne s t sw ∧ MxDone s t c n l [] i.done { s.ctile with acc := t.ctile.acc, sw := t.ctile.sw } ∧ ∀ a, t.ctile.accEl a = y.accEl a := by
  have hdone := State.mxOrder_done h hb hunit hu rfl
  have hacc : (s.mxOrder c n body).ctile.acc = y.acc := (congrArg Tile.acc hdone.tile : (s.mxOrder c n body).ctile.plain.acc = _)
  have hsw : (s.mxOrder c n body).ctile.sw = Store.put 0 sw w s.ctile.sw :=
    (congrArg Tile.sw hdone.tile : (s.mxOrder c n body).ctile.plain.sw = _)
  refine ⟨⟨w, hw, fun m => ?_⟩, ?_, fun a => ?_⟩
  · rw [hsw, Store.get_put]
  · rw [hacc, hsw, ← heffs]
    exact hdone
  · funext p
    rw [Tile.accEl, hacc, Tile.accEl]
end

section
variable {s : State} {c : Ctl} {o : MmaOp} (h : MxReady s c (s.sparseNeed o)) (he : entValid (s.ctile.fent o.f) = true) (hcol : s.mmaCol o ≤ 1)
  (hspn : entSpn (s.ctile.fent o.f) ≠ 0) (hsh : s.ctile.shadowChk o.acc o.part = none) (hrs : s.ctile.rangesChk (s.sparseRanges o) = none)
  (harm : canArm s o.sw)
include h he hcol hspn hsh hrs harm

/-- An MMAS whose checks pass arms its status word before it looks at its metadata. -/
theorem execMmas_armed : ∃ w b, swArm (Store.get 0 o.sw s.ctile.sw) 1 = some w ∧
    OrderBody s b c [] { s.ctile with sw := Store.put 0 o.sw w s.ctile.sw } ∧
    ∃ body : State → Except Trap (State × Issue), execMmas c o s = .next (s.mxOrder c (s.sparseNeed o) body) ∧
      body (s.popFor c s.cur.eng) =
        if (List.range (shpM o.shp)).all (fun i => (List.range (ceilDiv (shpK o.shp (s.mmaCol o)) 12)).all (fun g =>
          metaOk (shpK o.shp (s.mmaCol o)) (entSpn (s.ctile.fent o.f)) g (s.ctile.meta (64 * o.md) (ceilDiv (shpK o.shp (s.mmaCol o)) 12) i g))) then
          .ok ((b.openShadow o.acc o.part o.clr).setCtile ((b.openShadow o.acc o.part o.clr).ctile.macSparse o.acc (s.ctile.fent o.f) o.shp o.clr
            (64 * o.a) (64 * o.b) (64 * o.md)),
            { accW := 2 ^ o.acc, done := some (o.sw, 0, (Store.get 0 o.sw s.ctile.sw).getMsbD 0), intPath := rowClass (rowOf (entA (s.ctile.fent o.f))) != 0 })
        else .ok (b, { accW := 2 ^ o.acc, done := some (o.sw, 9, (Store.get 0 o.sw s.ctile.sw).getMsbD 0) }) := by
  have hclean := h.body_clean
  obtain ⟨w, hw⟩ := Option.isSome_iff_exists.mp harm
  have hbody := h.body.wrSw h.due.atU o.sw w
  have hclean' : ((s.popFor c s.cur.eng).wrSw o.sw w).ctile.ecc = [] := (hbody.reads (·.ecc) fun _ => rfl).trans h.whole
  refine ⟨w, _, hw, hbody, _, rfl, ?_⟩
  have hranges : (s.popFor c s.cur.eng).ctile.rangesChk (s.sparseRanges o) = none := (h.body.reads (·.rangesChk (s.sparseRanges o)) fun _ => rfl).trans hrs
  simp only [State.sparseRanges, State.mmaCol] at hranges hcol ⊢
  rw [if_neg (by simp [he, hspn, hcol])]
  simp only [h.body.reads (·.shadowChk o.acc o.part) (fun _ => rfl), hsh, hranges, Tile.opPoison_of_clean hclean,
    Tile.accsPoison_of_clean hclean, h.body.armOne h.due.atU hw, State.correctOp_of_clean hclean', State.correctAccs_of_clean hclean',
    h.body.reads Tile.meta (fun _ => rfl)]
  rfl

theorem execMmas_sets (hok : s.metaValid o) : ∃ t, execMmas c o s = .next t ∧ ArmedOne s t o.sw ∧
    MxDone s t c (s.sparseNeed o) (shadowEff s o) [] (some (o.sw, 0, (Store.get 0 o.sw s.ctile.sw).getMsbD 0))
      { s.ctile with acc := t.ctile.acc, sw := t.ctile.sw } ∧ AccIs t (s.sparseAcc o) := by
  obtain ⟨w, b, hw, hb, body, hexec, hbody⟩ := execMmas_armed h he hcol hspn hsh hrs harm
  obtain ⟨hopen, hstart⟩ := hb.openShadow ((hb.reads (·.ecc) fun _ => rfl).trans h.whole) (o := o) rfl rfl
  have hclean : (b.openShadow o.acc o.part o.clr).ctile.ecc = [] := (hopen.reads (·.ecc) fun _ => rfl).trans h.whole
  have hmac : macElem (b.openShadow o.acc o.part o.clr).ctile = macElem s.ctile := hopen.reads macElem fun _ => rfl
  have hkept : (b.openShadow o.acc o.part o.clr).ctile.kept = s.ctile.kept := hopen.reads Tile.kept fun _ => rfl
  obtain ⟨hblock, hels⟩ := hopen.mac hclean hstart 0
    (fun i => 64 * o.a + i * packedBytes (entA (s.ctile.fent o.f)) (ceilDiv (shpK o.shp (s.mmaCol o)) 12 * entSpn (s.ctile.fent o.f)))
    (fun j => 64 * o.b + j * packedBytes (entB (s.ctile.fent o.f)) (shpK o.shp (s.mmaCol o)))
    (fun i => (s.ctile.kept (64 * o.md) (ceilDiv (shpK o.shp (s.mmaCol o)) 12) i).zipIdx.map (fun p => (p.2, p.1))) rfl
  rw [if_pos ((s.metaValid_iff o).mpr hok)] at hbody
  simp only [Tile.macSparse, hmac, hkept] at hbody
  obtain ⟨harmed, hdone, hacc⟩ := State.mxOrder_arms h hbody rfl hw hblock rfl
  exact ⟨_, hexec, harmed, hdone, fun a k hk => (congrFun (hacc a) k).trans (hels a k hk)⟩

/-- An MMAS with an invalid metadata word leaves its accumulator, and completes its status word with RANGE. -/
theorem execMmas_invalid (hok : ¬ s.metaValid o) : ∃ t, execMmas c o s = .next t ∧ ArmedOne s t o.sw ∧
    MxDone s t c (s.sparseNeed o) [] [] (some (o.sw, 9, (Store.get 0 o.sw s.ctile.sw).getMsbD 0)) { s.ctile with sw := t.ctile.sw } := by
  obtain ⟨w, b, hw, hb, body, hexec, hbody⟩ := execMmas_armed h he hcol hspn hsh hrs harm
  rw [if_neg (mt (s.metaValid_iff o).mp hok)] at hbody
  obtain ⟨harmed, -, -⟩ := State.mxOrder_arms (y := s.ctile) h hbody rfl hw hb rfl
  have hdone := State.mxOrder_done h hbody rfl hb rfl
  have hsw : (s.mxOrder c (s.sparseNeed o) body).ctile.sw = Store.put 0 o.sw w s.ctile.sw :=
    (congrArg Tile.sw hdone.tile : (s.mxOrder c (s.sparseNeed o) body).ctile.plain.sw = _)
  refine ⟨_, hexec, harmed, ?_⟩
  rw [hsw]
  exact hdone

end

end Sys2Proof.Machine

namespace Sys2Proof.Proofs
open Sys2Proof.Machine Sys2Proof.Claims

/-- Settles O47: an EMPTY shadow opens, then every element of the block takes its products; MMAS arms its word first, and a bad metadata word leaves
the accumulator alone. -/
theorem multiply : Obligations.Multiply := fun c o s =>
  ⟨fun modular _ h he hcls hspn hq hsh hrs => by
      obtain ⟨t, ht, hdone, haccs⟩ := State.denseOrder_sets (modular := modular) h he hcls hspn hq hsh hrs
      refine ⟨t, ?_, hdone, haccs⟩
      cases modular <;> exact ht,
    fun _ h he hcol hspn hsh hrs harm =>
      ⟨fun hok => execMmas_sets h he hcol hspn hsh hrs harm hok, fun hok => execMmas_invalid h he hcol hspn hsh hrs harm hok⟩⟩

end Sys2Proof.Proofs
end

section
/-! PROOFS. RKMAC (R260): one row of an accumulator takes the products of the live positions of a rank stream. -/

namespace Sys2Proof.Machine
open Sys2Proof.Claims

/-- The positions before the first terminator are those that the order counts. -/
theorem liveLen_eq (l : List Nat) : liveLen l = (l.takeWhile (fun i => i != 0xFFFF)).length := by
  induction l with
  | nil => rfl
  | cons i r ih => by_cases hi : i = 0xFFFF <;> simp [liveLen, hi, ih]

theorem take_liveLen (l : List Nat) : l.take (liveLen l) = l.takeWhile (fun i => i != 0xFFFF) := by
  induction l with
  | nil => rfl
  | cons i r ih => by_cases hi : i = 0xFFFF <;> simp [liveLen, hi, ih]

theorem any_lt_eq_not_all_le (l : List Nat) (m : Nat) : l.any (fun i => decide (m < i)) = !l.all (fun i => decide (i ≤ m)) := by
  simp only [List.not_all_eq_any_not, ← decide_not, Nat.not_le]

section
variable (s : State) (o : RkOp)

/-- The indices of the rank stream, terminator and dead ones too. -/
def State.rankAll : List Nat :=
  (List.range (o.k1 + 1)).map (fun r => leNat (Store.getN 0 s.ctile.sram ((s.decl o.buf).base * 4096 + (64 * o.off + 2 * r)) 2))
/-- The indices of the live positions. -/
def State.rankIdx : List Nat := (s.rankAll o).takeWhile (fun i => i != 0xFFFF)

/-- The weights that RKMAC reads. -/
def rankRanges : List (Nat × Nat) := [(slotBytes * o.slot, (o.nr1 + 1) * 128 * (elemBits (rkType o.wt) / 8))]

/-- The unit, times, accumulator and ranges of RKMAC (R260). -/
def State.rankNeed : MNeed :=
  { unit := [(keyArray, max (ceilDiv (s.rankIdx o).length 8) 1)], lat := max (ceilDiv (s.rankIdx o).length 8) 1 + 8, accs := [o.acc], mma := some o.acc,
    rd := rankRanges o }

/-- The elements that RKMAC leaves. -/
def State.rankAcc (a p : Nat) : Wa :=
  if a = o.acc ∧ p / 128 = o.row then
    rkElem s.ctile o (p % 128) (o.k1 + 1) (if o.clr = 1 then 0 else s.ctile.accEl a p) (s.rankIdx o).zipIdx
  else s.ctile.accEl a p
end

/-- One row of an accumulator takes new elements, and all others stand. -/
theorem Tile.putRow_sets {t : Tile} (h : t.ecc = []) {row : Nat} (hrow : row < 128) (acc : Nat) (rs : List (Nat × Nat)) (f : Nat → Wa) {y : Tile}
    (hy : y = { t.unmark 6 rs with
      acc := ((List.range 128).map (fun j => (accKey acc (128 * row + j), f j))).foldl (fun x e => Store.put 0 e.1 e.2 x) t.acc }) :
    t.AccsSet y (fun b k => if b = acc ∧ k / 128 = row then f (k % 128) else t.accEl b k) := by
  rw [hy]
  refine Tile.accsSet_cells h (fun k => k / 128 = row) (fun k => f (k % 128)) fun e => ?_
  simp only [List.mem_map, List.mem_range]
  constructor
  · rintro ⟨j, hj, rfl⟩
    have hmod : (128 * row + j) % 128 = j := by omega
    exact ⟨128 * row + j, by omega, by omega, by rw [hmod]⟩
  · rintro ⟨k, -, rfl, rfl⟩
    exact ⟨k % 128, by omega, by rw [Nat.div_add_mod]⟩

/-- An order whose body has armed its status word, and left accumulators with the elements `f`. -/
theorem State.mxOrder_armsTo {s u : State} {c : Ctl} {n : MNeed} {body : State → Except Trap (State × Issue)} {i : Issue} {k occ sw : Nat} {w : Word}
    {l : List (Nat × Eff)} {y : Tile} {f : Nat → Nat → Wa} (h : MxReady s c n) (hunit : n.unit = [(k, occ)])
    (hw : swArm (Store.get 0 sw s.ctile.sw) 1 = some w) (hu : OrderBody s u c l { s.ctile with acc := y.acc, sw := Store.put 0 sw w s.ctile.sw })
    (hy : ∀ a k, k < 16384 → y.accEl a k = f a k) (heffs : i.effs = []) (hb : body (s.popFor c s.cur.eng) = .ok (u, i)) :
    ∃ t, Host.Outcome.next (s.mxOrder c n body) = (.next t : Host.Outcome State Fault Refusal) ∧ ArmedOne s t sw ∧
      MxDone s t c n l [] i.done { s.ctile with acc := t.ctile.acc, sw := t.ctile.sw } ∧ AccIs t f := by
  obtain ⟨harmed, hdone, hacc⟩ := State.mxOrder_arms h hb hunit hw hu heffs
  exact ⟨_, rfl, harmed, hdone, fun a k hk => (congrFun (hacc a) k).trans (hy a k hk)⟩

/-- The products are all that an element reads of the tile. -/
theorem rkElem_congr {t u : Tile} (h : rkGroup t = rkGroup u) (o : RkOp) (j n : Nat) (a : Wa) (ps : List (Nat × Nat)) :
    rkElem t o j n a ps = rkElem u o j n a ps := by
  induction n generalizing a ps with
  | zero => rfl
  | succ n ih =>
    cases ps with
    | nil => rfl
    | cons p ps => rw [rkElem, rkElem, h, ih]

section
variable {s : State} {c : Ctl} {o : RkOp}

theorem execRkmac_sets (hrow : o.row < 128) (h : MxReady s c (s.rankNeed o)) (hatt : s.ctile.ready keyAtt ≤ s.now)
    (hclear : Clear s 4 o.buf (64 * o.off) (2 * (o.k1 + 1))) (hrs : s.ctile.rangesChk (rankRanges o) = none)
    (hchk : ∀ r, r < o.k1 + 1 → s.chkRead 4 o.buf (64 * o.off + 2 * r) 2 = none) (harm : canArm s o.sw) :
    ∃ t, execRkmac c o s = .next t ∧ ArmedOne s t o.sw ∧
      MxDone s t c (s.rankNeed o) [] [] (some (o.sw, if (s.rankIdx o).all (· ≤ o.nr1) then 0 else 9, (Store.get 0 o.sw s.ctile.sw).getMsbD 0))
        { s.ctile with acc := t.ctile.acc, sw := t.ctile.sw } ∧ AccIs t (s.rankAcc o) := by
  have hclean := h.body_clean
  obtain ⟨w, hw⟩ := Option.isSome_iff_exists.mp harm
  have hbody := h.body.wrSw h.due.atU o.sw w
  have hclean' : ((s.popFor c s.cur.eng).wrSw o.sw w).ctile.ecc = [] := (hbody.reads (·.ecc) fun _ => rfl).trans h.whole
  have hchk' : ∀ r ∈ List.range (o.k1 + 1), (s.popFor c s.cur.eng).chkRead 4 o.buf (64 * o.off + 2 * r) 2 = none := fun r hr =>
    (h.body.chkRead ..).trans (hchk r (List.mem_range.mp hr))
  have hread : (List.range (o.k1 + 1)).mapM (fun r => (s.popFor c s.cur.eng).readBuf 4 o.buf (64 * o.off + 2 * r) 2) =
      .ok ((List.range (o.k1 + 1)).map (fun r => s.bufBytes o.buf (64 * o.off + 2 * r) 2)) := mapM_eq_ok fun r hr => by
    rw [State.readBuf, hchk' r hr, Tile.bad_of_clean hclean, State.bufBytes, h.body.decl, h.body.reads (·.sram) fun _ => rfl]
    rfl
  have hall : (List.range (o.k1 + 1)).map (fun r => leNat (s.bufBytes o.buf (64 * o.off + 2 * r) 2)) = s.rankAll o := rfl
  have hlive : ((List.range (o.k1 + 1)).map (fun r => s.bufBytes o.buf (64 * o.off + 2 * r) 2)).map leNat = s.rankAll o := by
    rw [List.map_map]; rfl
  have hsets := Tile.putRow_sets hclean' hrow o.acc (accRanges o.acc o.row 1 128) (fun j =>
    rkElem s.ctile o j (o.k1 + 1) (if o.clr = 1 then 0 else s.ctile.accEl o.acc (128 * o.row + j)) (s.rankIdx o).zipIdx) rfl
  have hranges : (s.popFor c s.cur.eng).ctile.rangesChk (rankRanges o) = none := (h.body.reads (·.rangesChk (rankRanges o)) fun _ => rfl).trans hrs
  have hgroup : rkGroup ((s.popFor c s.cur.eng).wrSw o.sw w).ctile = rkGroup s.ctile := hbody.reads rkGroup fun _ => rfl
  have haccEl : ((s.popFor c s.cur.eng).wrSw o.sw w).ctile.accEl = s.ctile.accEl := hbody.reads Tile.accEl fun _ => rfl
  have hidx : (s.rankAll o).take ((s.rankAll o).takeWhile (fun i => i != 0xFFFF)).length = s.rankIdx o := by
    rw [← liveLen_eq, take_liveLen, State.rankIdx]
  simp only [execRkmac, hall, hclear.pending_eq_false, hatt, decide_true, Bool.not_false, Bool.and_self, liveLen_eq]
  refine State.mxOrder_armsTo (i := { accW := 2 ^ o.acc, done := some (o.sw, if (s.rankIdx o).all (· ≤ o.nr1) then 0 else 9,
    (Store.get 0 o.sw s.ctile.sw).getMsbD 0) }) h rfl hw (hbody.putAccs hsets) (fun a p hp => ?_) rfl ?_
  · rw [hsets.els a p hp, State.rankAcc, haccEl]
    refine ite_congr rfl (fun ha => ?_) (fun _ => rfl)
    rw [ha.1, ← ha.2, Nat.div_add_mod]
  · simp only [rankRanges] at hranges
    simp only [hranges, firstTrap_eq_none hchk', Tile.opPoison_of_clean hclean, Tile.accsPoison_of_clean hclean, hread, hlive,
      h.body.armOne h.due.atU hw, State.correctOp_of_clean hclean', State.correctAccs_of_clean hclean', State.correct_of_clean hclean',
      haccEl, rkElem_congr hgroup, any_lt_eq_not_all_le, hidx]
    cases (s.rankIdx o).all (fun i => decide (i ≤ o.nr1)) <;> rfl
end

end Sys2Proof.Machine

namespace Sys2Proof.Proofs
open Sys2Proof.Machine Sys2Proof.Claims

/-- Settles O48: the stream is read up to its terminator, and the row takes its products in groups of eight. -/
theorem rankAccumulate : Obligations.RankAccumulate := by
  intro c o s k all idx occ rs n hwf h hatt hclear hrs hchk harm
  have hrow : o.row < 128 := by
    have hfields : (c.wf && o.wt ≤ 2 && o.acc < 4 && o.nr1 < 256 && o.clr < 2 && o.row < 128 && o.slot < 16 && o.k1 < 256 &&
      o.sw < 32 && o.buf < 64 && o.off < 2 ^ 16) = true := hwf
    simp only [Bool.and_eq_true, decide_eq_true_eq] at hfields
    tauto
  exact execRkmac_sets hrow h hatt hclear hrs hchk harm

end Sys2Proof.Proofs
end

section
/-! PROOFS. The loop nest NESTGO (R272 to R274): its iterations run as dense multiplies, one after another. -/

namespace Sys2Proof.Machine
open Sys2Proof.Claims

/-! ### The fold of the iterations -/

section
variable (t : Tile) (q shp : Nat)

/-- What one iteration makes of the accumulator elements `f`. -/
def Tile.iterAcc (f : Nat → Nat → Wa) (i : Iter) (a k : Nat) : Wa :=
  let e := t.iterEnt i
  let kk := shpK shp (rowCol (rowOf (entA e)))
  if a = i.n.toNat ∧ k / 128 < shpM shp ∧ k % 128 < shpN shp then
    macElem t e q (if i.clr = 1 then 0 else f a k) (i.a + k / 128 * packedBytes (entA e) kk) (i.b + k % 128 * packedBytes (entB e) kk)
      ((List.range kk).map (fun p => (p, p)))
  else f a k

/-- The iterations of a nest, run on a tile one after another. -/
def Tile.runNest (its : List Iter) (y : Tile) : Tile :=
  its.foldl (fun v i => v.macDense i.n.toNat (t.iterEnt i) q shp i.clr i.a i.b) y

variable {t}

/-- Every iteration of a nest changes accumulators alone, as its own products say. -/
theorem Tile.runNest_sets (h : t.ecc = []) (its : List Iter) {y : Tile} {f : Nat → Nat → Wa} (hy : t.AccsSet y f) :
    t.AccsSet (t.runNest q shp its y) (its.foldl (t.iterAcc q shp) f) := by
  induction its generalizing y f with
  | nil => exact hy
  | cons i its ih =>
    have hmac : macElem y = macElem t := by rw [hy.rest]; rfl
    refine ih ((hy.trans (Tile.putAcc_sets (hy.ecc.trans h) (shpM_le shp) (shpN_le shp) i.n.toNat _)).congr fun a k hk => ?_)
    rw [Tile.iterAcc, hy.els a k hk]
    refine ite_congr rfl (fun ha => ?_) (fun _ => rfl)
    rw [hmac, Nat.div_add_mod, ← ha.1, hy.els a k hk]
end

/-! ### NESTGO -/

section
variable (s : State)

/-- The iterations of the nest as it is configured (R262, R272). -/
def State.nestIts (acc a b : Nat) : List Iter :=
  nestIters ((List.range 6).map (fun l => (Store.get 0 l s.ctile.nlv).toNat)) (Store.get 0 6 s.ctile.nlv).toNat acc (64 * a) (64 * b)

/-- The number of the modulus register that the nest names. -/
def State.nestQ : Nat := bits (Store.get 0 6 s.ctile.nlv).toNat 5 3

/-- The unit, times, accumulators and ranges of NESTGO (R272). -/
def State.nestNeed (shp acc mask a b : Nat) : MNeed :=
  let its := s.nestIts acc a b
  let rows := its.map (fun i => rowOf (entA (s.ctile.iterEnt i)))
  let occ := 4 + (its.map (s.ctile.iterOcc shp)).sum
  { unit := [(keyArray, occ)], lat := if its = [] then 4 else occ + (if rows.any (fun r => rowClass r == 2) then 14 else 10),
    accs := its.map (fun i => i.n.toNat) ++ (List.range 4).filter (fun n => mask.testBit n),
    rd := its.flatMap (fun i => denseRanges (s.ctile.iterEnt i) shp i.a i.b) }

/-- What NESTGO leaves in flight. -/
def State.nestIssue (acc mask sw a b : Nat) : Issue :=
  { accW := (s.nestIts acc a b).foldl (fun m i => m ||| 2 ^ i.n.toNat) mask, done := some (sw, 0, (Store.get 0 sw s.ctile.sw).getMsbD 0),
    intPath := (s.nestIts acc a b).any (fun i => 5 ≤ rowOf (entA (s.ctile.iterEnt i))) }

/-- The elements that NESTGO leaves. -/
def State.nestAcc (shp acc mask a b : Nat) : Nat → Nat → Wa :=
  (s.ctile.runNest (Store.get ({} : QReg) s.nestQ s.ctile.qM).q shp (s.nestIts acc a b)
    (((List.range 4).filter (fun n => mask.testBit n)).foldl Tile.clearAcc s.ctile)).accEl
end

/-- An order whose body has armed its status word, taken the nest into use, and left accumulators with the elements `f`. -/
theorem State.mxOrder_nests {s u : State} {c : Ctl} {n : MNeed} {body : State → Except Trap (State × Issue)} {i : Issue} {k occ sw : Nat} {w : Word}
    {l : List (Nat × Eff)} {y : Tile} {f : Nat → Nat → Wa} (h : MxReady s c n) (hunit : n.unit = [(k, occ)])
    (hw : swArm (Store.get 0 sw s.ctile.sw) 1 = some w)
    (hu : OrderBody s u c l { s.ctile with acc := y.acc, sw := Store.put 0 sw w s.ctile.sw, nlvA := s.ctile.nlv })
    (hy : ∀ a k, k < 16384 → y.accEl a k = f a k) (heffs : i.effs = []) (hb : body (s.popFor c s.cur.eng) = .ok (u, i)) :
    ∃ t, Host.Outcome.next (s.mxOrder c n body) = (.next t : Host.Outcome State Fault Refusal) ∧ ArmedOne s t sw ∧
      MxDone s t c n l [] i.done { s.ctile with acc := t.ctile.acc, sw := t.ctile.sw, nlvA := s.ctile.nlv } ∧ AccIs t f := by
  have hdone := State.mxOrder_done h hb hunit hu rfl
  have hacc : (s.mxOrder c n body).ctile.acc = y.acc := (congrArg Tile.acc hdone.tile : (s.mxOrder c n body).ctile.plain.acc = _)
  have hsw : (s.mxOrder c n body).ctile.sw = Store.put 0 sw w s.ctile.sw :=
    (congrArg Tile.sw hdone.tile : (s.mxOrder c n body).ctile.plain.sw = _)
  refine ⟨_, rfl, ⟨w, hw, fun m => by rw [hsw, Store.get_put]⟩, ?_, fun a p hp => ?_⟩
  · rw [hacc, hsw, ← heffs]
    exact hdone
  · rw [Tile.accEl, hacc]
    exact hy a p hp

section
variable {s : State} {c : Ctl} {shp acc mask sw a b : Nat}

theorem execNestgo_sets (h : MxReady s c (s.nestNeed shp acc mask a b))
    (hchk : ∀ i, i ∈ s.nestIts acc a b →
      s.ctile.iterChk shp (rowCol (((s.nestIts acc a b).map (fun i => rowOf (entA (s.ctile.iterEnt i)))).headD 0)) s.nestQ i = none)
    (harm : canArm s sw) :
    ∃ t, execNestgo c shp acc mask sw a b s = .next t ∧ ArmedOne s t sw ∧
      MxDone s t c (s.nestNeed shp acc mask a b) [] [] (some (sw, 0, (Store.get 0 sw s.ctile.sw).getMsbD 0))
        { s.ctile with acc := t.ctile.acc, sw := t.ctile.sw, nlvA := s.ctile.nlv } ∧ AccIs t (s.nestAcc shp acc mask a b) := by
  have hclean := h.body_clean
  obtain ⟨w, hw⟩ := Option.isSome_iff_exists.mp harm
  have hbody := h.body.wrSw h.due.atU sw w
  obtain ⟨v, hv⟩ : ∃ v, (s.popFor c s.cur.eng).wrSw sw w = v := ⟨_, rfl⟩
  rw [hv] at hbody
  obtain ⟨u, hu⟩ : ∃ u : Tile, ({ v.ctile with nlvA := v.ctile.nlv } : Tile) = u := ⟨_, rfl⟩
  have hplain : u.plain = ({ s.ctile with sw := Store.put 0 sw w s.ctile.sw, nlvA := s.ctile.nlv } : Tile).plain := by
    rw [← hu]
    exact congrArg (fun t : Tile => { t with nlvA := t.nlv }) hbody.plain
  have hreads {α : Type} (f : Tile → α) (hf : ∀ t : Tile, f t.plain = f t) (hsame : ∀ t : Tile, f { t with sw := Store.put 0 sw w s.ctile.sw, nlvA := s.ctile.nlv } = f t) :
      f u = f s.ctile := by rw [← hf, hplain, hf, hsame]
  have huecc : u.ecc = [] := (hreads (·.ecc) (fun _ => rfl) (fun _ => rfl)).trans h.whole
  have hnest := Tile.runNest_sets (Store.get ({} : QReg) s.nestQ s.ctile.qM).q shp huecc (s.nestIts acc a b)
    (Tile.foldl_clearAcc_sets huecc ((List.range 4).filter (fun n => mask.testBit n)))
  have hnest' := Tile.runNest_sets (Store.get ({} : QReg) s.nestQ s.ctile.qM).q shp h.whole (s.nestIts acc a b)
    (Tile.foldl_clearAcc_sets h.whole ((List.range 4).filter (fun n => mask.testBit n)))
  rw [hreads Tile.iterAcc (fun _ => rfl) (fun _ => rfl), hreads Tile.accEl (fun _ => rfl) (fun _ => rfl),
    hreads Tile.runNest (fun _ => rfl) (fun _ => rfl)] at hnest
  obtain ⟨y, hy⟩ : ∃ y, s.ctile.runNest (Store.get ({} : QReg) s.nestQ s.ctile.qM).q shp (s.nestIts acc a b)
    (((List.range 4).filter (fun n => mask.testBit n)).foldl Tile.clearAcc u) = y := ⟨_, rfl⟩
  rw [hy] at hnest
  have hset : OrderBody s (v.setCtile y) c [] { s.ctile with acc := y.acc, sw := Store.put 0 sw w s.ctile.sw, nlvA := s.ctile.nlv } := by
    have hrest := hnest.rest
    rw [← hu] at hrest
    rw [hrest]
    exact hbody.setCtile rfl rfl rfl rfl (congrArg (fun t : Tile => { t with acc := y.acc, nlvA := t.nlv }) hbody.plain)
  have hchecks (r : Nat) (hr : r = ((s.nestIts acc a b).map (fun i => rowOf (entA (s.ctile.iterEnt i)))).headD 0) :
      (s.nestIts acc a b).findSome? (s.ctile.iterChk shp (rowCol r) s.nestQ) = none := by
    rw [hr]
    exact List.findSome?_eq_none_iff.mpr hchk
  have hany : (s.nestIts acc a b).any (fun i => rowClass (rowOf (entA (s.ctile.iterEnt i))) == 2) =
      ((s.nestIts acc a b).map (fun i => rowOf (entA (s.ctile.iterEnt i)))).any (fun r => rowClass r == 2) := by
    rw [List.any_map]
    rfl
  have hits : nestIters ((List.range 6).map (fun l => (Store.get 0 l s.ctile.nlv).toNat)) (Store.get 0 6 s.ctile.nlv).toNat acc (64 * a) (64 * b) =
      s.nestIts acc a b := rfl
  have hq : bits (Store.get 0 6 s.ctile.nlv).toNat 5 3 = s.nestQ := rfl
  have hocc : (if s.nestIts acc a b = [] then 4 else 4 + ((s.nestIts acc a b).map (s.ctile.iterOcc shp)).sum) =
      4 + ((s.nestIts acc a b).map (s.ctile.iterOcc shp)).sum := by
    split
    case isTrue hnil => rw [hnil]; rfl
    case isFalse => rfl
  simp only [execNestgo, hits, hq, bits_one_beq, List.isEmpty_iff, hocc, hany]
  rw [hchecks]
  · refine State.mxOrder_nests (y := y) h rfl hw hset (fun m k hk => (hnest.els m k hk).trans (hnest'.els m k hk).symm) 
      (i := s.nestIssue acc mask sw a b) rfl ?_
    simp only [Tile.opPoison_of_clean h.whole, Tile.accsPoison_of_clean h.whole, State.correctOp_of_clean hclean, State.correctAccs_of_clean hclean,
      h.body.armOne h.due.atU hw, hv, hu]
    rw [← hy]
    rfl
  · cases s.nestIts acc a b <;> rfl
end

end Sys2Proof.Machine

namespace Sys2Proof.Proofs
open Sys2Proof.Machine Sys2Proof.Claims

/-- Settles O51: the named accumulators are cleared, then each iteration runs as a dense multiply. -/
theorem loopNest : Obligations.LoopNest := by
  intro c shp acc mask sw a b s hd its q rows first occ cl n _ h hchk harm
  obtain ⟨t, hexec, harmed, hdone, haccs⟩ := execNestgo_sets h hchk harm
  exact ⟨t, hexec, harmed, hdone, haccs⟩

end Sys2Proof.Proofs
end

section
/-! PROOFS. The set-up orders of MX: formats and nests, operand slots, operand loads and rank tables (R259, R261, R262, R264, R265, R270, R271). -/

namespace Sys2Proof.Machine
open Sys2Proof.Claims

/-! ### One bit of a number (the claims of R264) -/

theorem testBit_add_two_pow {m k : Nat} (h : m.testBit k = false) (j : Nat) : (m + 2 ^ k).testBit j = (decide (j = k) || m.testBit j) := by
  induction k generalizing m j with
  | zero =>
    have heven : m % 2 = 0 := by simpa [Nat.testBit_zero] using h
    cases j with
    | zero => simp [Nat.testBit_zero]; omega
    | succ j =>
      have hhalf : (m + 1) / 2 = m / 2 := by omega
      simp [Nat.testBit_succ, hhalf]
  | succ k ih =>
    rw [Nat.testBit_succ] at h
    cases j with
    | zero => simp [Nat.testBit_zero, Nat.pow_succ, Nat.add_mul_mod_self_right]
    | succ j =>
      have hhalf : (m + 2 ^ (k + 1)) / 2 = m / 2 + 2 ^ k := by rw [Nat.pow_succ]; omega
      rw [Nat.testBit_succ, hhalf, ih h, Nat.testBit_succ]
      simp

theorem testBit_sub_two_pow {m k : Nat} (h : m.testBit k = true) (j : Nat) : (m - 2 ^ k).testBit j = (decide (j ≠ k) && m.testBit j) := by
  have hle : 2 ^ k ≤ m := Nat.ge_two_pow_of_testBit h
  have hoff : (m - 2 ^ k).testBit k = false := by
    by_contra hon
    have hcarry := Nat.testBit_two_pow_add_eq (m - 2 ^ k) k
    rw [Nat.add_sub_cancel' hle, h, Bool.eq_true_of_not_eq_false hon] at hcarry
    exact absurd hcarry (by decide)
  have hadd := testBit_add_two_pow hoff j
  rw [Nat.sub_add_cancel hle] at hadd
  by_cases hj : j = k
  · rw [hj, hoff]; simp
  · simpa [hj] using hadd.symm

/-! ### Orders that hold no unit -/

section
variable {s u : State} {c : Ctl} {n : MNeed} {body : State → Except Trap (State × Issue)} {i : Issue} (h : MxReady s c n)
  (hb : body (s.popFor c s.cur.eng) = .ok (u, i))
include h hb

/-- After its body, an MX order has made the bookkeeping of its units. -/
theorem State.mxOrder_unitless {l : List (Nat × Eff)} {x : Tile} (hunit : n.unit = []) (hu : OrderBody s u c l x) (hx : x.fstepM = s.ctile.fstepM) :
    MxDone s (s.mxOrder c n body) c n l i.effs i.done x := by
  have hafter : u.ctile.afterM n u.now = { u.ctile with fstepM := u.ctile.fstepM + 1, lastMma := n.mma } := by
    rw [Tile.afterM, hunit]
    rfl
  have hbooked : OrderBody s (u.mxBooked n) c l { x with fstepM := s.ctile.fstepM + 1 } := by
    rw [State.mxBooked, hafter, hu.reads (·.fstepM) (fun _ => rfl), hx]
    exact hu.setCtile rfl rfl rfl rfl (congrArg (fun t : Tile => { t with fstepM := s.ctile.fstepM + 1 }) hu.plain)
  obtain ⟨hrest, hplain, -, f, hf, hret, heffs, hdone, hrd, hwr⟩ :=
    OrderBody.commit_flight (n := s.mxNeed c n) hbooked h.due (s.mxIssue u c n i)
  rw [State.mxOrder_go h hb]
  refine ⟨hrest, ⟨f, hf, ?_, heffs, hdone, hrd, hwr⟩, hplain, fun v hv => ?_⟩
  · rw [hret, ← hu.rest.now]
    rfl
  · rw [hunit] at hv
    exact absurd hv List.not_mem_nil

/-- The times at which units and tables are free again are those of the body and of the order's own unit. -/
theorem State.mxOrder_sb {l : List (Nat × Eff)} {x : Tile} {k o : Nat} (hunit : n.unit = [(k, o)]) (hu : OrderBody s u c l x)
    (hx : x.fstepM = s.ctile.fstepM) : (s.mxOrder c n body).ctile.sb = Store.put 0 k (s.now + o) u.ctile.sb := by
  have hbooked : OrderBody s (u.mxBooked n) c l { x with fstepM := s.ctile.fstepM + 1 } := by
    rw [State.mxBooked, Tile.afterM_eq _ _ hunit, hu.reads (·.fstepM) (fun _ => rfl), hx]
    exact hu.setCtile rfl rfl rfl rfl (congrArg (fun t : Tile => { t with fstepM := s.ctile.fstepM + 1 }) hu.plain)
  obtain ⟨-, -, hsb, -⟩ := OrderBody.commit_flight (n := s.mxNeed c n) hbooked h.due (s.mxIssue u c n i)
  rw [State.mxOrder_go h hb, hsb, State.mxBooked, State.setCtile_ctile, Tile.afterM_eq _ _ hunit, hu.rest.now]
end

theorem OrderBody.atEnd {s u : State} {c : Ctl} {x : Tile} (h : OrderBody s u c [] x) (e : Eff) : OrderBody s (u.atEnd e) c [(s.now, e)] x := by
  rw [State.atEnd, h.rest.now]
  exact h.addEffs _

/-! ### Formats and nests (R261, R262), slots (R264) -/

section
variable {s : State} {c : Ctl}

theorem execFmtsetMx_done {f v : Nat} (h : MxReady s c { lat := 1 }) (hv : entLegal v = true) (hb : s.fmtBarred v = false) :
    ∃ t, execFmtsetMx c f v s = .next t ∧ MxDone s t c { lat := 1 } [(s.now, .fmt f v)] [] none s.ctile := by
  have hbar : (s.popFor c s.cur.eng).fmtBarred v = false :=
    (congrArg (State.fmtBarred · v) h.body.rest : (s.popFor c s.cur.eng).offTiles.fmtBarred v = s.offTiles.fmtBarred v).trans hb
  refine ⟨_, rfl, State.mxOrder_unitless (i := {}) h ?_ rfl (h.body.atEnd _) rfl⟩
  simp only [hv, hbar, Bool.not_false, Bool.and_self, if_true]

theorem execNestcfgMx_done {r v : Nat} (h : MxReady s c { lat := 1 }) (hv : nestOk r v = true) :
    ∃ t, execNestcfgMx c r v s = .next t ∧ MxDone s t c { lat := 1 } [(s.now, .nest r v)] [] none s.ctile := by
  refine ⟨_, rfl, State.mxOrder_unitless (i := {}) h ?_ rfl (h.body.atEnd _) rfl⟩
  simp only [hv, if_true]

theorem execMxwait_done (h : MxReady s c { lat := 1 }) (hq : s.ctile.flights.all (fun f => f.eng != 4) = true) :
    ∃ t, execMxwait c s = .next t ∧ MxDone s t c { lat := 1 } [] [] none s.ctile := by
  have hquiet : s.ctile.quietOf (2 ^ 4) = true := by
    rw [Tile.quietOf, ← hq]
    refine List.all_congr rfl fun f => ?_
    rw [bits_one, Nat.testBit_two_pow]
    by_cases hf : f.eng = 4
    · simp [hf]
    · simp [hf, Ne.symm hf]
  rw [execMxwait, hquiet]
  exact ⟨_, rfl, State.mxOrder_unitless (i := {}) h rfl rfl h.body rfl⟩
end

section
variable {s u : State} {c : Ctl} {l : List (Nat × Eff)} {x : Tile} (h : OrderBody s u c l x)
include h

theorem OrderBody.setClaim (v : Nat) : OrderBody s (u.setCtile { u.ctile with claim := v }) c l { x with claim := v } :=
  h.setCtile rfl rfl rfl rfl (congrArg (fun t : Tile => { t with claim := v }) h.plain)

theorem OrderBody.setOpmem (m : Store Byte) : OrderBody s (u.setCtile { u.ctile with opmem := m }) c l { x with opmem := m } :=
  h.setCtile rfl rfl rfl rfl (congrArg (fun t : Tile => { t with opmem := m }) h.plain)

theorem OrderBody.setClaimOpmem (v : Nat) (m : Store Byte) :
    OrderBody s (u.setCtile { u.ctile with claim := v, opmem := m }) c l { x with claim := v, opmem := m } :=
  h.setCtile rfl rfl rfl rfl (congrArg (fun t : Tile => { t with claim := v, opmem := m }) h.plain)
end

section
variable {s : State} {c : Ctl}

theorem execOclaim_done {k : Nat} (h : MxReady s c { lat := 1 }) (hk : s.ctile.claim.testBit k = false) : ∃ t, execOclaim c k s = .next t ∧
    MxDone s t c { lat := 1 } [] [] none { s.ctile with claim := t.ctile.claim, opmem := t.ctile.opmem } ∧
    (∀ j, t.ctile.claim.testBit j = (decide (j = k) || s.ctile.claim.testBit j)) ∧
    ∀ a, Store.get 0 a t.ctile.opmem = if a / slotBytes = k then 0 else Store.get 0 a s.ctile.opmem := by
  have hset := h.body.setClaimOpmem (s.ctile.claim + 2 ^ k) (Store.delRange (slotBytes * k) (slotBytes * (k + 1)) s.ctile.opmem)
  obtain ⟨t, hexec, hdone⟩ : ∃ t, execOclaim c k s = .next t ∧ MxDone s t c { lat := 1 } [] [] none { s.ctile with
      claim := s.ctile.claim + 2 ^ k, opmem := Store.delRange (slotBytes * k) (slotBytes * (k + 1)) s.ctile.opmem } := by
    refine ⟨_, rfl, State.mxOrder_unitless (i := {}) h ?_ rfl hset rfl⟩
    simp only [h.body.reads (·.claim) (fun _ => rfl), h.body.reads (·.opmem) (fun _ => rfl), bits_one, hk, Tile.unmark_of_clean h.body_clean]
    rfl
  have hclaim : t.ctile.claim = s.ctile.claim + 2 ^ k := congrArg Tile.claim hdone.tile
  have hopmem : t.ctile.opmem = Store.delRange (slotBytes * k) (slotBytes * (k + 1)) s.ctile.opmem := congrArg Tile.opmem hdone.tile
  refine ⟨t, hexec, by rw [hclaim, hopmem]; exact hdone, fun j => by rw [hclaim, testBit_add_two_pow hk], fun a => ?_⟩
  rw [hopmem, Store.get_delRange]
  refine if_congr ?_ rfl rfl
  unfold slotBytes
  omega

theorem execOrelease_done {k : Nat} (h : MxReady s c { lat := 1, rel := some k }) (hk : s.ctile.claim.testBit k = true) :
    ∃ t, execOrelease c k s = .next t ∧ MxDone s t c { lat := 1, rel := some k } [] [] none { s.ctile with claim := t.ctile.claim } ∧
      ∀ j, t.ctile.claim.testBit j = (decide (j ≠ k) && s.ctile.claim.testBit j) := by
  have hfill : s.ctile.filling.testBit k = false := by
    have hready := h.ready
    simp only [MNeed.ready, Bool.and_eq_true, bits_one, beq_iff_eq, Bool.toNat_eq_zero] at hready
    exact hready.2.1
  have hset := h.body.setClaim (s.ctile.claim - 2 ^ k)
  obtain ⟨t, hexec, hdone⟩ : ∃ t, execOrelease c k s = .next t ∧
      MxDone s t c { lat := 1, rel := some k } [] [] none { s.ctile with claim := s.ctile.claim - 2 ^ k } := by
    refine ⟨_, rfl, State.mxOrder_unitless (i := {}) h ?_ rfl hset rfl⟩
    simp only [h.body.reads (·.claim) (fun _ => rfl), h.body.reads (·.filling) (fun _ => rfl), bits_one, hk, hfill]
    rfl
  have hclaim : t.ctile.claim = s.ctile.claim - 2 ^ k := congrArg Tile.claim hdone.tile
  exact ⟨t, hexec, by rw [hclaim]; exact hdone, fun j => by rw [hclaim, testBit_sub_two_pow hk]⟩

/-! ### Loads of operand memory (R265) -/

theorem Store.get_putL_getD {α : Type} [DecidableEq α] (d : α) (vs : List α) (a k : Nat) (m : Store α) :
    Store.get d k (Store.putL d m a vs) = if a ≤ k ∧ k < a + vs.length then vs.getD (k - a) d else Store.get d k m := by
  rw [Store.get_putL]
  by_cases h : a ≤ k ∧ k < a + vs.length
  · rw [dif_pos h, if_pos h, List.getD_eq_getElem]
  · rw [dif_neg h, if_neg h]

theorem Tile.wrOp_of_clean {t : Tile} (h : t.ecc = []) (a : Nat) (data : List Byte) : t.wrOp a data = { t with opmem := Store.putL 0 t.opmem a data } := by
  rw [Tile.wrOp, h, List.filter_nil, ← h]

/-- What OLOAD writes. -/
def State.oloadData (s : State) (bfx nb buf off : Nat) : List Byte :=
  if bfx = 1 then bfxPack s.ctile.bfxM s.ctile.slotTyM (bufData s buf off nb) else bufData s buf off nb

/-- The unit, times and destination of OLOAD. -/
def State.oloadNeed (s : State) (slot bfx doff nb buf off : Nat) : MNeed :=
  { unit := [(keyMPort, ceilDiv nb 256)], lat := ceilDiv nb 256 + 3, wr := [(slotBytes * slot + 64 * doff, (s.oloadData bfx nb buf off).length)] }

theorem length_bufData (s : State) (buf off n : Nat) : (bufData s buf off n).length = n := Store.length_getN ..

/-- The number of bytes that OLOAD writes is what its pattern makes of the bytes that it reads. -/
theorem State.length_oloadData {bfx nb : Nat} (buf off : Nat) (hbfx : bfx = 1 → (bfxOut s.ctile.bfxM s.ctile.slotTyM nb).isSome = true) :
    (s.oloadData bfx nb buf off).length = if bfx = 1 then (bfxOut s.ctile.bfxM s.ctile.slotTyM nb).getD 0 else nb := by
  by_cases hb : bfx = 1
  · have hout := hbfx hb
    rw [State.oloadData, if_pos hb, if_pos hb, bfxPack, length_leBytes, length_bufData]
    unfold bfxOut at hout ⊢
    split at hout
    case isTrue => exact absurd hout (by simp)
    case isFalse hn => rw [if_neg hn, Option.getD_some]
  · rw [State.oloadData, if_neg hb, if_neg hb, length_bufData]

theorem execOload_done {slot bfx doff nb1 buf off : Nat} (h : MxReady s c (s.oloadNeed slot bfx doff (64 * (nb1 + 1)) buf off))
    (hclear : Clear s 4 buf (64 * off) (64 * (nb1 + 1))) (hbfx : bfx = 1 → (bfxOut s.ctile.bfxM s.ctile.slotTyM (64 * (nb1 + 1))).isSome = true)
    (hrs : s.ctile.rangesChk [(slotBytes * slot + 64 * doff, (s.oloadData bfx (64 * (nb1 + 1)) buf off).length)] = none) (hreads : mxReads s buf off (nb1 + 1)) :
    ∃ t, execOload c slot bfx doff nb1 buf off s = .next t ∧
      MxDone s t c (s.oloadNeed slot bfx doff (64 * (nb1 + 1)) buf off) [] [] none { s.ctile with opmem := t.ctile.opmem } ∧
      t.ctile.opmem = Store.putL 0 s.ctile.opmem (slotBytes * slot + 64 * doff) (s.oloadData bfx (64 * (nb1 + 1)) buf off) := by
  have hset := h.body.setOpmem (Store.putL 0 s.ctile.opmem (slotBytes * slot + 64 * doff) (s.oloadData bfx (64 * (nb1 + 1)) buf off))
  obtain ⟨bs, hbs, hflat⟩ := State.readBufs_elements h.body_clean fun k hk => (h.body.chkRead ..).trans (hreads k hk)
  have hdata : (s.popFor c s.cur.eng).bufBytes buf (64 * off) (64 * (nb1 + 1)) = bufData s buf off (64 * (nb1 + 1)) := by
    rw [State.bufBytes, h.body.decl, h.body.reads (·.sram) fun _ => rfl]
    rfl
  have hill : (bfx == 1 && (bfxOut s.ctile.bfxM s.ctile.slotTyM (64 * (nb1 + 1))).isNone) = false := by
    by_cases hb : bfx = 1
    · simp [Option.isNone_eq_false_iff.mpr (hbfx hb)]
    · simp [hb]
  obtain ⟨t, hexec, hdone⟩ : ∃ t, execOload c slot bfx doff nb1 buf off s = .next t ∧
      MxDone s t c (s.oloadNeed slot bfx doff (64 * (nb1 + 1)) buf off) [] [] none { s.ctile with
        opmem := Store.putL 0 s.ctile.opmem (slotBytes * slot + 64 * doff) (s.oloadData bfx (64 * (nb1 + 1)) buf off) } := by
    rw [execOload, hclear.pending_eq_false, ← s.length_oloadData buf off hbfx]
    refine ⟨_, rfl, State.mxOrder_done (i := {}) h ?_ rfl hset rfl⟩
    have hranges : (s.popFor c s.cur.eng).ctile.rangesChk [(slotBytes * slot + 64 * doff, (s.oloadData bfx (64 * (nb1 + 1)) buf off).length)] = none :=
      (h.body.reads (·.rangesChk _) fun _ => rfl).trans hrs
    have hpack : (if bfx = 1 then bfxPack s.ctile.bfxM s.ctile.slotTyM bs.flatten else bs.flatten) = s.oloadData bfx (64 * (nb1 + 1)) buf off := by
      rw [hflat, hdata, State.oloadData]
    simp only [hill, Bool.false_eq_true, if_false, hranges, Nat.mul_div_cancel_left _ (show 0 < 64 by decide), hbs, State.correct_of_clean h.body_clean, hpack,
      Tile.wrOp_of_clean h.body_clean, h.body.reads (·.opmem) (fun _ => rfl)]
  have hopmem : t.ctile.opmem = Store.putL 0 s.ctile.opmem (slotBytes * slot + 64 * doff) (s.oloadData bfx (64 * (nb1 + 1)) buf off) :=
    congrArg Tile.opmem hdone.tile
  exact ⟨t, hexec, by rw [hopmem]; exact hdone, hopmem⟩

/-! ### Rank tables (R271) -/

/-- The value at place `k` of a table in a buffer. -/
def State.rankValue (s : State) (buf off k : Nat) : BitVec 16 :=
  BitVec.ofNat 16 (leNat (Store.getN 0 s.ctile.sram ((s.decl buf).base * 4096 + (64 * off + 2 * k)) 2))

/-- The table that stands in a buffer. -/
def State.rankTable (s : State) (buf off : Nat) : Store (BitVec 16) := Store.putL 0 [] 0 ((List.range 256).map (s.rankValue buf off))

theorem State.get_rankTable (s : State) (buf off k : Nat) : Store.get 0 k (s.rankTable buf off) = if k < 256 then s.rankValue buf off k else 0 := by
  rw [State.rankTable, Store.get_putL]
  by_cases hk : k < 256
  · simp [hk]
  · simp [hk, Store.get]

/-- The unit and times of RKLOAD. -/
def tableNeed : MNeed := { unit := [(keyMPort, 2)], lat := 4 }

section
variable {buf off : Nat} (h : MxReady s c tableNeed) (hclear : Clear s 4 buf (64 * off) 512)
  (hchk : ∀ k, k < 256 → s.chkRead 4 buf (64 * off + 2 * k) 2 = none)
include h hchk

theorem State.rkTable_eq : (s.popFor c s.cur.eng).rkTable buf (64 * off) = .ok (s.rankTable buf off) := by
  rw [State.rkTable, State.readBufs_ok h.body_clean (by simpa using fun k hk => (h.body.chkRead 4 buf (64 * off + 2 * k) 2).trans (hchk k hk))]
  have hbytes (k : Nat) : (s.popFor c s.cur.eng).bufBytes buf (64 * off + 2 * k) 2 =
      Store.getN 0 s.ctile.sram ((s.decl buf).base * 4096 + (64 * off + 2 * k)) 2 := by
    rw [State.bufBytes, h.body.decl, h.body.reads (·.sram) fun _ => rfl]
    rfl
  simp only [List.map_map, Function.comp_def, hbytes]
  rfl

include hclear

theorem execRkloadAtt_done : ∃ t, execRkloadAtt c buf off s = .next t ∧ MxDone s t c tableNeed [] [] none { s.ctile with att := t.ctile.att } ∧
    t.ctile.ready keyAtt = s.now + 4 ∧ t.ctile.att = s.rankTable buf off := by
  have htable := State.rkTable_eq h hchk
  obtain ⟨m, hm⟩ : ∃ m, s.rankTable buf off = m := ⟨_, rfl⟩
  rw [hm] at htable ⊢
  have hset : OrderBody s ((s.popFor c s.cur.eng).setCtile ({ (s.popFor c s.cur.eng).ctile with att := m }.busy keyAtt (s.now + 4)))
      c [] { s.ctile with att := m } :=
    h.body.setCtile rfl rfl rfl rfl (congrArg (fun t : Tile => { t with att := m }) h.body.plain)
  obtain ⟨t, hexec, hdone, hsb⟩ : ∃ t, execRkloadAtt c buf off s = .next t ∧ MxDone s t c tableNeed [] [] none { s.ctile with att := m } ∧
      t.ctile.ready keyAtt = s.now + 4 := by
    rw [execRkloadAtt, hclear.pending_eq_false]
    refine ⟨_, rfl, State.mxOrder_done (i := {}) h ?_ rfl hset rfl,
      (congrArg (Store.get 0 keyAtt) (State.mxOrder_sb (i := {}) h ?_ rfl hset rfl)).trans ?_⟩
    · simp only [htable, State.correct_of_clean h.body_clean, h.body.rest.now]
    · simp only [htable, State.correct_of_clean h.body_clean, h.body.rest.now]
    · rw [State.setCtile_ctile, Store.get_put_other 0 (s.now + 2) (show keyAtt ≠ keyMPort by decide)]
      exact Store.get_put_same 0 (s.now + 4) keyAtt _
  have hatt : t.ctile.att = m := congrArg Tile.att hdone.tile
  exact ⟨t, hexec, by rw [hatt]; exact hdone, hsb, hatt⟩

theorem execRkloadRct_done : ∃ t, execRkloadRct c buf off s = .next t ∧ MxDone s t c tableNeed [] [.vxRct t.ctile.rct] none { s.ctile with rct := t.ctile.rct } ∧
    t.ctile.rct = s.rankTable buf off := by
  have htable := State.rkTable_eq h hchk
  obtain ⟨m, hm⟩ : ∃ m, s.rankTable buf off = m := ⟨_, rfl⟩
  rw [hm] at htable ⊢
  have hset : OrderBody s ((s.popFor c s.cur.eng).setCtile { (s.popFor c s.cur.eng).ctile with rct := m })
      c [] { s.ctile with rct := m } :=
    h.body.setCtile rfl rfl rfl rfl (congrArg (fun t : Tile => { t with rct := m }) h.body.plain)
  obtain ⟨t, hexec, hdone⟩ : ∃ t, execRkloadRct c buf off s = .next t ∧
      MxDone s t c tableNeed [] [.vxRct (m)] none { s.ctile with rct := m } := by
    rw [execRkloadRct, hclear.pending_eq_false]
    refine ⟨_, rfl, State.mxOrder_done (i := { effs := [.vxRct (m)] }) h ?_ rfl hset rfl⟩
    simp only [htable, State.correct_of_clean h.body_clean]
  have hrct : t.ctile.rct = m := congrArg Tile.rct hdone.tile
  exact ⟨t, hexec, by rw [hrct]; exact hdone, hrct⟩
end
end

end Sys2Proof.Machine

namespace Sys2Proof.Proofs
open Sys2Proof.Machine Sys2Proof.Claims

/-- Settles O49: formats and nests change at the end of the cycle, slots and tables at once, and OLOAD writes what its pattern makes of its bytes. -/
theorem matrixSetup : Obligations.MatrixSetup := by
  intro c s
  refine ⟨fun f v _ h hv hb => execFmtsetMx_done h hv hb, fun r v _ h hv => execNestcfgMx_done h hv, fun k h hk => execOclaim_done h hk,
    fun k h hk => execOrelease_done h hk, fun slot bfx doff nb1 buf off h hclear hbfx hrs hreads => ?_, ?_, fun buf off h hclear hchk => ⟨?_, ?_⟩⟩
  · obtain ⟨t, hexec, hdone, hopmem⟩ := execOload_done h hclear hbfx hrs hreads
    refine ⟨t, hexec, hdone, fun a => ?_⟩
    rw [hopmem]
    exact Store.get_putL_getD ..
  · rintro n rfl h hq
    exact execMxwait_done h hq
  · obtain ⟨t, hexec, hdone, hready, hatt⟩ := execRkloadAtt_done h hclear hchk
    exact ⟨t, hexec, hdone, hready, fun k => by rw [hatt, State.get_rankTable]; rfl⟩
  · obtain ⟨t, hexec, hdone, hrct⟩ := execRkloadRct_done h hclear hchk
    exact ⟨t, hexec, hdone, fun k => by rw [hrct, State.get_rankTable]; rfl⟩

end Sys2Proof.Proofs
end

section
/-! PROOFS. The long system words SNAP, ROLLB and KEYZ (R180 to R182, R328, R338, R339, R368): the status word that is armed, and the request that starts or
is refused. -/

namespace Sys2Proof.Machine
open Sys2Proof.Claims

/-! ### A word whose effect lies beside its agent -/

/-- State `u` holds the agent in hand as `s` does, but for its status words and, on a core, its interrupts. -/
structure Beside (s u : State) : Prop where
  cur : u.cur = s.cur
  tile : s.atU = true → ∃ m, u.ctile = { s.ctile with sw := m }
  core : s.atU = false → ∃ m p, u.ccore = { s.ccore with sw := m, ipend := p }
  handler : s.atU = true → u.region.handler = s.region.handler

section
variable {s u v : State} (h : Beside s u)
include h

theorem Beside.atU : u.atU = s.atU := by rw [State.atU, h.cur, State.atU]

theorem Beside.inHandler : u.inHandler = s.inHandler := by
  cases hu : s.atU with
  | false => rw [State.inHandler, h.atU, hu, State.inHandler, hu]; rfl
  | true =>
    obtain ⟨m, hm⟩ := h.tile hu
    rw [State.inHandler, h.atU, h.handler hu, hm, State.inHandler]

theorem Beside.clocked : u.clocked = s.clocked := by rw [State.clocked, h.atU, h.inHandler, State.clocked]

theorem Beside.regs : sameG s u := fun k => by
  cases hu : s.atU with
  | false =>
    obtain ⟨m, p, hm⟩ := h.core hu
    rw [State.rdG, h.atU, hm, State.rdG, hu]
    rfl
  | true =>
    obtain ⟨m, hm⟩ := h.tile hu
    rw [State.rdG, h.atU, hm, State.rdG, hu]
    rfl

theorem Beside.loopsOf : u.loopsOf = s.loopsOf := by
  cases hu : s.atU with
  | false =>
    obtain ⟨m, p, hm⟩ := h.core hu
    rw [State.loopsOf, h.atU, hm, State.loopsOf, hu]
    rfl
  | true =>
    obtain ⟨m, hm⟩ := h.tile hu
    rw [State.loopsOf, h.atU, hm, State.loopsOf, hu]
    rfl

theorem Beside.seqFirst : u.seqFirst = s.seqFirst := by
  cases hc : s.clocked with
  | false => rw [State.seqFirst, h.clocked, hc, h.cur, State.seqFirst, hc]; rfl
  | true =>
    obtain ⟨m, hm⟩ := h.tile (State.clocked_iff.mp hc).1
    rw [State.seqFirst, h.clocked, hc, h.cur, hm, State.seqFirst, hc]
    rfl

/-- The bookkeeping of a word beside its agent: it falls through, and changes nothing else. -/
theorem Beside.commit (n : Need) (hp : n.ctl.pushes = false) : let t := u.commitScalar n .fall
    OwnAgent u t ∧ sameG s t ∧ fallsThrough s t ∧ ∀ k, t.rdSw k = u.rdSw k := by
  have b := (Effect.refl u).book n .fall hp
  have hfalls := b.fallsThrough rfl
  refine ⟨b.own, fun k => (b.g k).trans (h.regs k), ?_, fun k => ?_⟩
  · rw [fallsThrough, h.inHandler, h.loopsOf, h.cur, h.seqFirst] at hfalls
    exact hfalls
  · cases hu : u.atU with
    | false =>
      have hcore : (u.commitScalar n .fall).ccore.sw = u.ccore.sw := (congrArg CCore.sw (b.core hu) :)
      rw [State.rdSw, b.atU, hu, hcore, State.rdSw, hu]
      rfl
    | true =>
      have htile : (u.commitScalar n .fall).ctile.sw = u.ctile.sw := (congrArg Tile.sw (b.tile hu) :)
      rw [State.rdSw, b.atU, hu, htile, State.rdSw, hu]
      rfl

theorem Beside.trans (g : Beside u v) : Beside s v where
  cur := g.cur.trans h.cur
  tile hu := by
    obtain ⟨m, hm⟩ := h.tile hu
    obtain ⟨m', hm'⟩ := g.tile (h.atU.trans hu)
    exact ⟨m', by rw [hm', hm]⟩
  core hu := by
    obtain ⟨m, p, hm⟩ := h.core hu
    obtain ⟨m', p', hm'⟩ := g.core (h.atU.trans hu)
    exact ⟨m', p', by rw [hm', hm]⟩
  handler hu := (g.handler (h.atU.trans hu)).trans (h.handler hu)
end

/-! ### The status word of the agent in hand (R63) -/

theorem State.wrSw_offAgents (s : State) (n : Nat) (w : Word) : (s.wrSw n w).offAgents = s.offAgents := by
  cases hu : s.atU with
  | true => rw [State.wrSw, hu]; rfl
  | false =>
    rw [State.wrSw, hu, if_neg Bool.false_ne_true, State.setCcore]
    cases s.cur.agent <;> rfl

theorem State.wrSw_beside (s : State) (n : Nat) (w : Word) : Beside s (s.wrSw n w) where
  cur := (congrArg State.cur (s.wrSw_offAgents n w) : (s.wrSw n w).offAgents.cur = s.offAgents.cur)
  tile hu := ⟨Store.put 0 n w s.ctile.sw, by rw [State.wrSw, hu, if_pos rfl, State.setCtile_ctile]⟩
  core hu := ⟨Store.put 0 n w s.ccore.sw, s.ccore.ipend, by rw [State.wrSw, hu, if_neg Bool.false_ne_true, State.setCcore_ccore _ _ hu]⟩
  handler hu := by rw [State.wrSw, hu, if_pos rfl, State.setCtile_region]

theorem State.wrSw_rdSw (s : State) (n : Nat) (w : Word) (k : Nat) : (s.wrSw n w).rdSw k = if k = n then w else s.rdSw k := by
  cases hu : s.atU with
  | true =>
    have ht : (s.wrSw n w).ctile = { s.ctile with sw := Store.put 0 n w s.ctile.sw } := by rw [State.wrSw, hu, if_pos rfl, State.setCtile_ctile]
    rw [State.rdSw, (s.wrSw_beside n w).atU, hu, if_pos rfl, ht, Store.get_put, State.rdSw, hu]
    rfl
  | false =>
    have ht : (s.wrSw n w).ccore = { s.ccore with sw := Store.put 0 n w s.ccore.sw } := by
      rw [State.wrSw, hu, if_neg Bool.false_ne_true, State.setCcore_ccore _ _ hu]
    rw [State.rdSw, (s.wrSw_beside n w).atU, hu, if_neg Bool.false_ne_true, ht, Store.get_put, State.rdSw, hu]
    rfl

theorem State.statusWrite_eq (s : State) (n : Nat) {code : Nat} (hc : code ≠ 1) : s.statusWrite n code = s.wrSw n (swStatus (s.rdSw n) code) := by
  rw [State.statusWrite, beq_eq_false_iff_ne.mpr hc]
  rfl

/-- Arming a status word writes it, and nothing else. -/
theorem State.arm_some {s b : State} {n k : Nat} {ph : Bool} (h : s.arm n k = some (b, ph)) : ∃ w, b = s.wrSw n w ∧ ph = phaseOf (s.rdSw n) := by
  rw [State.arm, Option.map_eq_some_iff] at h
  obtain ⟨w, -, hw⟩ := h
  exact ⟨w, (congrArg Prod.fst hw).symm, (congrArg Prod.snd hw).symm⟩

/-- What does not depend on tiles and cores reads alike in states that differ in these alone. -/
theorem State.same_of_offAgents {s u : State} (h : u.offAgents = s.offAgents) {α : Type} (f : State → α) (hf : ∀ v : State, f v.offAgents = f v) : f u = f s := by
  rw [← hf, h, hf]

/-! ### Slots that change one after another (R329, R339) -/

theorem Store.mem_ins_of_mem {α : Type} {d : α} {k : Nat} {v : α} {m : Store α} {e : Nat × α} (h : e ∈ m) :
    e ∈ Store.ins k v m ∨ (e = (k, Store.get d k m) ∧ (k, v) ∈ Store.ins k v m) := by
  induction m with
  | nil => exact absurd h List.not_mem_nil
  | cons x r ih =>
    obtain ⟨j, y⟩ := x
    rw [Store.ins]
    by_cases hlt : k < j
    · rw [if_pos hlt]
      exact .inl (List.mem_cons_of_mem _ h)
    · rw [if_neg hlt]
      by_cases hj : j = k
      · rw [if_pos hj, Store.get, if_pos hj]
        cases List.mem_cons.mp h with
        | inl he => exact .inr ⟨by rw [he, hj], List.mem_cons_self⟩
        | inr hr => exact .inl (List.mem_cons_of_mem _ hr)
      · rw [if_neg hj, Store.get, if_neg hj]
        cases List.mem_cons.mp h with
        | inl he => exact .inl (he ▸ List.mem_cons_self)
        | inr hr =>
          cases ih hr with
          | inl hin => exact .inl (List.mem_cons_of_mem _ hin)
          | inr hnew => exact .inr ⟨hnew.1, List.mem_cons_of_mem _ hnew.2⟩

/-- A slot counts among those of a job. -/
def Slot.counts (r : Slot) (k : Nat) : Bool := r.st != .free && r.st != .loaded && r.job == k

theorem State.mem_slotsOf {s : State} {k n : Nat} : n ∈ s.slotsOf k ↔ ∃ r : Slot, (n, r) ∈ s.slots ∧ r.counts k = true := by
  simp only [State.slotsOf, List.mem_map, List.mem_filter, Slot.counts]
  constructor
  · rintro ⟨⟨m, r⟩, ⟨hm, hr⟩, rfl⟩
    exact ⟨r, hm, hr⟩
  · rintro ⟨r, hm, hr⟩
    exact ⟨(n, r), ⟨hm, hr⟩, rfl⟩

/-- A slot of a job stays one where it takes a value that counts as the old one did. -/
theorem State.mem_slotsOf_setSlot {s : State} {k m n : Nat} {r : Slot} (hr : r ≠ {}) (hc : (s.slot n).counts k = true → r.counts k = true)
    (h : m ∈ s.slotsOf k) : m ∈ (s.setSlot n r).slotsOf k := by
  obtain ⟨q, hq, hcount⟩ := State.mem_slotsOf.mp h
  have hput : (s.setSlot n r).slots = Store.ins n r s.slots := if_neg hr
  refine State.mem_slotsOf.mpr ?_
  rw [hput]
  cases Store.mem_ins_of_mem (d := ({} : Slot)) (k := n) (v := r) hq with
  | inl hin => exact ⟨q, hin, hcount⟩
  | inr hnew =>
    obtain ⟨heq, hin⟩ := hnew
    obtain ⟨hm, hold⟩ := Prod.mk.inj heq
    exact ⟨r, hm ▸ hin, hc (by rw [State.slot, ← hold]; exact hcount)⟩

/-- State `v` is `u` but for its slots, of which those in `l` have changed by `g`, and for interrupts of the cores. -/
structure SlotsChange (g : Slot → Slot) (l : List Nat) (u v : State) : Prop where
  slot : ∀ m, v.slot m = if m ∈ l then g (u.slot m) else u.slot m
  cur : v.cur = u.cur
  tiles : v.tiles = u.tiles
  walkers : v.walkers = u.walkers
  snaps : v.snaps = u.snaps
  cores : ∀ m, ∃ p, v.core m = { u.core m with ipend := p }
  kept : ∀ k m, m ∈ u.slotsOf k → m ∈ v.slotsOf k

theorem SlotsChange.fold {g : Slot → Slot} (hg : ∀ r, g (g r) = g r) {F : State → Nat → State} (hF : ∀ u n, SlotsChange g [n] u (F u n)) (l : List Nat) (u : State) :
    SlotsChange g l u (l.foldl F u) := by
  induction l generalizing u with
  | nil => exact ⟨fun _ => rfl, rfl, rfl, rfl, rfl, fun m => ⟨_, rfl⟩, fun _ _ h => h⟩
  | cons n l ih =>
    have h1 := hF u n
    have h2 := ih (F u n)
    refine ⟨fun m => ?_, h2.cur.trans h1.cur, h2.tiles.trans h1.tiles, h2.walkers.trans h1.walkers, h2.snaps.trans h1.snaps, fun m => ?_,
      fun k m hm => h2.kept k m (h1.kept k m hm)⟩
    · rw [List.foldl_cons, h2.slot, h1.slot]
      by_cases hn : m = n
      · by_cases hl : m ∈ l <;> simp [hn, hg]
      · by_cases hl : m ∈ l <;> simp [hn, hl]
    · obtain ⟨p, hp⟩ := h1.cores m
      obtain ⟨p', hp'⟩ := h2.cores m
      exact ⟨p', by rw [List.foldl_cons, hp', hp]⟩

theorem SlotsChange.setSlot {g : Slot → Slot} {u : State} {n : Nat} (hr : g (u.slot n) ≠ {})
    (hc : ∀ k, (u.slot n).counts k = true → (g (u.slot n)).counts k = true) : SlotsChange g [n] u (u.setSlot n (g (u.slot n))) where
  slot m := by
    by_cases hm : m = n
    · rw [hm, State.setSlot_slot_same, if_pos (List.mem_singleton_self n)]
    · rw [State.setSlot_slot_other _ hm, if_neg (by simpa using hm)]
  cur := rfl
  tiles := rfl
  walkers := rfl
  snaps := rfl
  cores m := ⟨_, rfl⟩
  kept k m hm := State.mem_slotsOf_setSlot hr (hc k) hm

section
variable {g : Slot → Slot} {l : List Nat} {u v : State} (h : SlotsChange g l u v)
include h

theorem SlotsChange.region : v.region = if u.slotNo ∈ l then g u.region else u.region := by
  rw [State.region, State.slotNo, h.cur, h.slot, State.region, State.slotNo]

theorem SlotsChange.ctile (hphys : ∀ r, (g r).phys = r.phys) : v.ctile = u.ctile := by
  have hhere : v.here = u.here := by
    rw [State.here, h.cur, h.region, State.here]
    split
    · rw [hphys]
    · rfl
  rw [State.ctile, hhere, State.tile, h.tiles]
  rfl

theorem SlotsChange.ccore : ∃ p, v.ccore = { u.ccore with ipend := p } := by
  cases ha : u.cur.agent with
  | region n => exact ⟨u.ccore.ipend, by simp only [State.ccore, h.cur, ha]⟩
  | core n =>
    obtain ⟨p, hp⟩ := h.cores n
    exact ⟨p, by simp only [State.ccore, h.cur, ha, hp]⟩
  | walker n => exact ⟨u.ccore.ipend, by simp only [State.ccore, h.cur, ha, State.walker, h.walkers]⟩

/-- A change of slots that leaves where a region's tiles stand is beside the agent in hand; on a region's word it also leaves the handler flag. -/
theorem SlotsChange.beside (hphys : ∀ r, (g r).phys = r.phys) (hh : u.atU = true → ∀ r, (g r).handler = r.handler) : Beside u v := by
  refine ⟨h.cur, fun _ => ⟨u.ctile.sw, h.ctile hphys⟩, fun _ => ?_, fun hu => ?_⟩
  · obtain ⟨p, hp⟩ := h.ccore
    exact ⟨u.ccore.sw, p, hp⟩
  · rw [h.region]
    split
    · rw [hh hu]
    · rfl

theorem SlotsChange.rdSw (hphys : ∀ r, (g r).phys = r.phys) (n : Nat) : v.rdSw n = u.rdSw n := by
  obtain ⟨p, hp⟩ := h.ccore
  rw [State.rdSw, State.atU, h.cur, h.ctile hphys, hp, State.rdSw, State.atU]
end

/-- States with the same word in hand, tiles, cores and slots hold the agent in hand alike. -/
theorem State.agent_same {s u : State} (hcur : u.cur = s.cur) (htiles : u.tiles = s.tiles) (hcores : u.cores = s.cores) (hwalkers : u.walkers = s.walkers)
    (hslots : u.slots = s.slots) : Beside s u ∧ ∀ n, u.rdSw n = s.rdSw n := by
  have hslotNo : u.slotNo = s.slotNo := by rw [State.slotNo, hcur, State.slotNo]
  have hregion : u.region = s.region := by rw [State.region, hslotNo, State.slot, hslots]; rfl
  have hctile : u.ctile = s.ctile := by rw [State.ctile, State.here, hregion, hcur, State.tile, htiles]; rfl
  have hccore : u.ccore = s.ccore := by
    simp only [State.ccore, State.walker, State.core, hcur, hwalkers, hcores]
  refine ⟨⟨hcur, fun _ => ⟨s.ctile.sw, hctile⟩, fun _ => ⟨s.ccore.sw, s.ccore.ipend, hccore⟩, fun _ => by rw [hregion]⟩, fun n => ?_⟩
  rw [State.rdSw, State.atU, hcur, hctile, hccore, State.rdSw, State.atU]

/-! ### The start of a snapshot (R180, R327 to R329) -/

theorem State.copyRegion_none {s : State} {n : Nat} (h : s.nextSnapped n = none) : s.copyRegion n = s := by
  rw [State.copyRegion]
  cases 64 * (s.slot n).count with
  | zero => rfl
  | succ fuel => rw [State.copyAll, h]

theorem foldl_of_fixed {α : Type} {F : State → α → State} {s : State} {l : List α} (h : ∀ a, a ∈ l → F s a = s) : l.foldl F s = s := by
  induction l with
  | nil => rfl
  | cons a l ih =>
    obtain ⟨ha, hl⟩ := List.forall_mem_cons.mp h
    rw [List.foldl_cons, ha, ih hl]

theorem State.finishCopies_none {s : State} {k : Nat} (h : ∀ n, n ∈ s.slotsOf k → s.nextSnapped n = none) : s.finishCopies k = s :=
  foldl_of_fixed fun n hn => State.copyRegion_none (h n hn)

/-- The catalogue lies in memory: writing it changes nothing else. -/
theorem State.catWrite_rest (s : State) (k i : Nat) (ws : List Nat) : { s.catWrite k i ws with mem := s.mem, poison := s.poison } = s := by
  rw [State.catWrite, State.areaWrite]
  split <;> rfl

/-- A folio begins in memory and in the job's own record. -/
theorem State.folioStart_rest (s : State) (k id issuer : Nat) :
    ∃ x, { s.folioStart k id issuer with mem := (s.setSnap k x).mem, poison := (s.setSnap k x).poison } = s.setSnap k x := by
  obtain ⟨x, e, ws, h⟩ : ∃ x e ws, s.folioStart k id issuer = (s.setSnap k x).catWrite k e ws := ⟨_, _, _, rfl⟩
  exact ⟨x, by rw [h, State.catWrite_rest]⟩

theorem State.snap_setSnap_same (s : State) (k : Nat) (x : Snap) : (s.setSnap k x).snap k = x := by
  rw [State.snap, State.setSnap, Store.get_put_same]

/-- A region is asked for its cut. -/
def Slot.asked (r : Slot) : Slot := { r with cutReq := true }
/-- Every region of a job is asked for its cut. -/
def State.askCuts (s : State) (l : List Nat) : State := l.foldl (fun u n => u.setSlot n (u.slot n).asked) s

theorem State.askCuts_change (s : State) (l : List Nat) : SlotsChange Slot.asked l s (s.askCuts l) :=
  SlotsChange.fold (g := Slot.asked) (F := fun u n => u.setSlot n (u.slot n).asked) (fun _ => rfl) (fun _ _ =>
    SlotsChange.setSlot (g := Slot.asked) (fun h => Bool.noConfusion (congrArg Slot.cutReq h : true = false)) (fun _ h => h)) l s

/-- The record that a package keeps of a snapshot as it enters CUTTING. -/
def Snap.cutting (x : Snap) (id issuer tb : Nat) (who : Option (Nat × Nat × Bool)) (closed : List Nat) (old : Option (Nat × Nat × Nat)) (seen : List Nat) : Snap :=
  { x with st := .cutting, id := id, issuer := issuer, started := tb, closed := closed, reports := [], arrivals := 0, cutSlots := [], who := who, old := old, seen := seen }

/-- The earlier folio that the background copier keeps for the job, as a snapshot starts. -/
def Snap.kept (x : Snap) : Option (Nat × Nat × Nat) := if x.growing then some (x.entry, x.foff, x.fpos) else none
/-- The ids that the package has seen, this one among them. -/
def Snap.seeing (x : Snap) (id : Nat) : List Nat := if x.seen.contains id then x.seen else x.seen ++ [id]

theorem State.startCut_of_copied {s : State} {k : Nat} (h : s.finishCopies k = s) (id issuer : Nat) (who : Option (Nat × Nat × Bool)) (closed : List Nat) :
    s.startCut k id issuer who closed = ((s.slotsOf k).foldl (fun (v : State) n => if (v.slot n).st == .stowed && (v.snap k).st == .cutting then v.cutNow n else v)
      (((s.folioStart k id issuer).setSnap k (((s.folioStart k id issuer).snap k).cutting id issuer s.tb who closed (s.snap k).kept ((s.snap k).seeing id))).askCuts
        (s.slotsOf k))).tryPackageCut k := by
  rw [State.startCut, h]
  generalize s.folioStart k id issuer = s1
  rfl

/-- A snapshot of a job whose regions all run or are stopped only asks them for their cuts. -/
theorem State.startCut_eq {s : State} {k : Nat} (h : Startable s k) (id issuer : Nat) (who : Option (Nat × Nat × Bool)) (closed : List Nat) :
    ∃ (u : State) (x : Snap) (old : Option (Nat × Nat × Nat)), s.startCut k id issuer who closed = u.askCuts (s.slotsOf k) ∧
      u.snap k = x.cutting id issuer s.tb who closed old ((s.snap k).seeing id) ∧ u.cur = s.cur ∧ u.tiles = s.tiles ∧ u.cores = s.cores ∧ u.walkers = s.walkers ∧ u.slots = s.slots := by
  have hfin : s.finishCopies k = s := State.finishCopies_none fun n hn => (h.bufs n hn).1
  obtain ⟨s1, hs1⟩ : ∃ s1, s.folioStart k id issuer = s1 := ⟨_, rfl⟩
  obtain ⟨y, hrest⟩ := s.folioStart_rest k id issuer
  have hshape := State.startCut_of_copied hfin id issuer who closed
  rw [hs1] at hrest hshape
  obtain ⟨u, hu⟩ : ∃ u, s1.setSnap k ((s1.snap k).cutting id issuer s.tb who closed (s.snap k).kept ((s.snap k).seeing id)) = u := ⟨_, rfl⟩
  rw [hu] at hshape
  have hcur : u.cur = s.cur := hu ▸ (congrArg State.cur hrest :)
  have htiles : u.tiles = s.tiles := hu ▸ (congrArg State.tiles hrest :)
  have hcores : u.cores = s.cores := hu ▸ (congrArg State.cores hrest :)
  have hwalkers : u.walkers = s.walkers := hu ▸ (congrArg State.walkers hrest :)
  have hslots : u.slots = s.slots := hu ▸ (congrArg State.slots hrest :)
  have hsnap : u.snap k = (s1.snap k).cutting id issuer s.tb who closed (s.snap k).kept ((s.snap k).seeing id) := by rw [← hu, State.snap_setSnap_same]
  have hch := u.askCuts_change (s.slotsOf k)
  have hsnap' : (u.askCuts (s.slotsOf k)).snap k = u.snap k := by rw [State.snap, hch.snaps, State.snap]
  have hslotsOf : u.slotsOf k = s.slotsOf k := by rw [State.slotsOf, hslots, State.slotsOf]
  refine ⟨u, s1.snap k, _, ?_, hsnap, hcur, htiles, hcores, hwalkers, hslots⟩
  have hcuts : (s.slotsOf k).foldl (fun (v : State) n => if (v.slot n).st == .stowed && (v.snap k).st == .cutting then v.cutNow n else v) (u.askCuts (s.slotsOf k)) =
      u.askCuts (s.slotsOf k) := foldl_of_fixed fun n hn => by
    have hst : ((u.askCuts (s.slotsOf k)).slot n).st ≠ .stowed := by
      rw [hch.slot, if_pos hn, State.slot, hslots]
      exact (h.bufs n hn).2
    rw [beq_eq_false_iff_ne.mpr hst]
    rfl
  have htry : (u.askCuts (s.slotsOf k)).tryPackageCut k = u.askCuts (s.slotsOf k) := by
    obtain ⟨n, hn⟩ := List.exists_mem_of_ne_nil _ h.some_
    have hmem : n ∈ (u.askCuts (s.slotsOf k)).slotsOf k := hch.kept k n (hslotsOf.symm ▸ hn)
    have hall : ((u.askCuts (s.slotsOf k)).slotsOf k).all (fun n => ((u.askCuts (s.slotsOf k)).snap k).cutSlots.contains n) = false := by
      rw [hsnap', hsnap]
      exact List.all_eq_false.mpr ⟨n, hmem, by simp [Snap.cutting]⟩
    rw [State.tryPackageCut]
    simp only [hall, Bool.and_false, Bool.false_eq_true, if_false]
  rw [hshape, hcuts, htry]

theorem State.startCut_starts {s : State} {k : Nat} (h : Startable s k) (id issuer : Nat) (who : Option (Nat × Nat × Bool)) (closed : List Nat) :
    let t := s.startCut k id issuer who closed
    CutStarts s t k id issuer closed who ∧ Beside s t ∧ ∀ n, t.rdSw n = s.rdSw n := by
  obtain ⟨u, x, old, ht, hsnap, hcur, htiles, hcores, hwalkers, hslots⟩ := State.startCut_eq h id issuer who closed
  have hch := u.askCuts_change (s.slotsOf k)
  obtain ⟨hbeside, hsw⟩ := State.agent_same hcur htiles hcores hwalkers hslots
  have hsnap' : (u.askCuts (s.slotsOf k)).snap k = x.cutting id issuer s.tb who closed old ((s.snap k).seeing id) := by rw [State.snap, hch.snaps, ← hsnap, State.snap]
  rw [ht]
  refine ⟨?_, hbeside.trans (hch.beside (fun _ => rfl) (fun _ _ => rfl)), fun n => (hch.rdSw (fun _ => rfl) n).trans (hsw n)⟩
  refine ⟨?_, ?_, ?_, ?_, ⟨?_, ?_, ?_⟩, ?_, fun n => ?_⟩
  case refine_9 =>
    rw [hch.slot, State.slot, hslots]
    rfl
  all_goals
    rw [hsnap']
    rfl

/-- The id of the snapshot that has started is one that the package has seen. -/
theorem State.startCut_seen {s : State} {k : Nat} (h : Startable s k) (id issuer : Nat) (who : Option (Nat × Nat × Bool)) (closed : List Nat) :
    ((s.startCut k id issuer who closed).snap k).seen = (s.snap k).seeing id := by
  obtain ⟨u, x, old, ht, hsnap, -⟩ := State.startCut_eq h id issuer who closed
  rw [ht, State.snap, (u.askCuts_change (s.slotsOf k)).snaps, ← State.snap, hsnap]
  rfl

/-! ### The start of a rollback (R181, R338, R339) -/

/-- A region that freezes without a record (R339). -/
def Slot.plainFrozen (r : Slot) : Slot :=
  { r with st := .frozen, fz := false, frozenAt := r.rcc, trapped := false, handler := false, ntrap := 0, ftile := 0, holding := false, err := if r.done then r.err else 0, done := true }

theorem State.raiseCC_core (s : State) (mask m : Nat) : ∃ p, (s.raiseCC mask).core m = { s.core m with ipend := p } := by
  simp only [State.core, State.raiseCC]
  rw [State.foldl_raise_core mask m _ List.nodup_range]
  split
  · exact ⟨_, rfl⟩
  · exact ⟨_, rfl⟩

theorem State.plainFreeze_slot (s : State) (n : Nat) : (s.plainFreeze n).slot n = (s.slot n).plainFrozen := by
  rw [State.plainFreeze, State.endFreeze, Slot.plainFrozen]
  cases hd : (s.slot n).done with
  | true => simp only [State.setSlot_slot_same, if_true]
  | false => simp only [State.setSlot_slot_same, Bool.false_eq_true, if_false, State.cmdDone_slot]

theorem frozen_ne_default {r : Slot} (h : r.st = .frozen) : r ≠ {} := fun he => by
  rw [he] at h
  exact RSt.noConfusion h

/-- A freeze without a record is a change of one slot, and an interrupt where a command ends with it. -/
theorem State.plainFreeze_shape (s : State) (n : Nat) : ∃ q q' : Slot,
    (s.plainFreeze n = s.setSlot n q ∨ s.plainFreeze n = ((s.setSlot n q).setSlot n q').raiseCC ipHdone) ∧
      q.st = .frozen ∧ q.job = (s.slot n).job ∧ q'.st = .frozen ∧ q'.job = (s.slot n).job := by
  rw [State.plainFreeze, State.endFreeze]
  split
  · exact ⟨_, { s.slot n with st := .frozen }, .inl rfl, rfl, rfl, rfl, rfl⟩
  · refine ⟨_, _, .inr rfl, rfl, rfl, ?_, ?_⟩
    · rw [State.setSlot_slot_same]
    · rw [State.setSlot_slot_same]
      rfl

theorem State.raiseCC_slotsOf (s : State) (mask k : Nat) : (s.raiseCC mask).slotsOf k = s.slotsOf k := by
  simp only [State.slotsOf, State.raiseCC]

theorem State.plainFreeze_kept (s : State) (n : Nat) (hst : (s.slot n).st = .running) {k m : Nat} (hm : m ∈ s.slotsOf k) : m ∈ (s.plainFreeze n).slotsOf k := by
  obtain ⟨q, q', h, hq, hqj, hq', hqj'⟩ := s.plainFreeze_shape n
  have hcounts {r r' : Slot} (hr : r.st = .running ∨ r.st = .frozen) (hr' : r'.st = .frozen) (hj : r'.job = r.job) (hc : r.counts k = true) : r'.counts k = true := by
    rw [Slot.counts, hr', hj]
    rw [Slot.counts] at hc
    simp only [Bool.and_eq_true] at hc
    rw [hc.2]
    rfl
  have hfirst : m ∈ (s.setSlot n q).slotsOf k := State.mem_slotsOf_setSlot (frozen_ne_default hq) (hcounts (.inl hst) hq hqj) hm
  cases h with
  | inl h => rw [h]; exact hfirst
  | inr h =>
    have hsecond : m ∈ ((s.setSlot n q).setSlot n q').slotsOf k :=
      State.mem_slotsOf_setSlot (frozen_ne_default hq') (by rw [State.setSlot_slot_same]; exact hcounts (.inr hq) hq' (hqj'.trans hqj.symm)) hfirst
    rw [h, State.raiseCC_slotsOf]
    exact hsecond

theorem State.plainFreeze_change {s : State} {n : Nat} (hst : (s.slot n).st = .running) : SlotsChange Slot.plainFrozen [n] s (s.plainFreeze n) := by
  obtain ⟨-, hother, -, htiles, hcur⟩ := s.plainFreeze_leaves n
  obtain ⟨q, q', h, -⟩ := s.plainFreeze_shape n
  refine ⟨fun m => ?_, hcur, htiles, ?_, ?_, fun m => ?_, fun k m hm => s.plainFreeze_kept n hst hm⟩
  · by_cases hm : m = n
    · rw [hm, State.plainFreeze_slot, if_pos (List.mem_singleton_self n)]
    · rw [hother m hm, if_neg (by simpa using hm)]
  · cases h with
    | inl h => rw [h]; rfl
    | inr h => rw [h]; simp only [State.raiseCC, State.setSlot]
  · cases h with
    | inl h => rw [h]; rfl
    | inr h => rw [h]; simp only [State.raiseCC, State.setSlot]
  · cases h with
    | inl h => exact ⟨(s.core m).ipend, by rw [h]; rfl⟩
    | inr h =>
      obtain ⟨p, hp⟩ := ((s.setSlot n q).setSlot n q').raiseCC_core ipHdone m
      exact ⟨p, by rw [h, hp]; rfl⟩

/-- A region that freezes at the end of its cycle. -/
def Slot.freezing (r : Slot) : Slot := { r with fz := true }
/-- What the start of a rollback makes of a region of the job: one that runs freezes at the end of its cycle, or at once where it is held. -/
def Slot.rolls (r : Slot) : Slot := if r.st == .running then (if r.held || r.ended then r.plainFrozen else r.freezing) else r

theorem Slot.rolls_held {r : Slot} (hst : r.st = .running) (h : (r.held || r.ended) = true) : r.rolls = r.plainFrozen := by
  rw [Slot.rolls, if_pos (beq_iff_eq.mpr hst), if_pos h]
theorem Slot.rolls_free {r : Slot} (hst : r.st = .running) (h : (r.held || r.ended) = false) : r.rolls = r.freezing := by
  rw [Slot.rolls, if_pos (beq_iff_eq.mpr hst), h, if_neg Bool.false_ne_true]
theorem Slot.rolls_other {r : Slot} (hst : r.st ≠ .running) : r.rolls = r := by
  rw [Slot.rolls, if_neg (by simpa using hst)]

theorem Slot.rolls_rolls (r : Slot) : r.rolls.rolls = r.rolls := by
  by_cases hst : r.st = .running
  · cases hheld : r.held || r.ended with
    | true =>
      rw [Slot.rolls_held hst hheld]
      exact Slot.rolls_other (fun h => RSt.noConfusion h)
    | false =>
      rw [Slot.rolls_free hst hheld]
      exact Slot.rolls_free hst hheld
  · rw [Slot.rolls_other hst, Slot.rolls_other hst]

theorem Slot.rolls_phys (r : Slot) : r.rolls.phys = r.phys := by
  rw [Slot.rolls]
  split
  · split <;> rfl
  · rfl

/-- Every region of the job that runs is to freeze. -/
def State.freezeAll (s : State) (l : List Nat) : State :=
  l.foldl (fun u n => if (u.slot n).st == .running then (if (u.slot n).held || (u.slot n).ended then u.plainFreeze n else u.setSlot n (u.slot n).freezing) else u) s

theorem SlotsChange.congr {g g' : Slot → Slot} {n : Nat} {u v : State} (h : SlotsChange g [n] u v) (hg : g (u.slot n) = g' (u.slot n)) : SlotsChange g' [n] u v where
  slot m := by
    rw [h.slot]
    by_cases hm : m = n
    · rw [hm, hg]
    · rw [if_neg (by simpa using hm), if_neg (by simpa using hm)]
  cur := h.cur
  tiles := h.tiles
  walkers := h.walkers
  snaps := h.snaps
  cores := h.cores
  kept := h.kept

theorem SlotsChange.refl {g : Slot → Slot} {u : State} {n : Nat} (hg : g (u.slot n) = u.slot n) : SlotsChange g [n] u u where
  slot m := by
    by_cases hm : m = n
    · rw [hm, hg, ite_self]
    · rw [if_neg (by simpa using hm)]
  cur := rfl
  tiles := rfl
  walkers := rfl
  snaps := rfl
  cores _ := ⟨_, rfl⟩
  kept _ _ h := h

theorem State.freezeAll_change (s : State) (l : List Nat) : SlotsChange Slot.rolls l s (s.freezeAll l) := by
  refine SlotsChange.fold Slot.rolls_rolls (fun u n => ?_) l s
  by_cases hst : (u.slot n).st = .running
  · rw [if_pos (beq_iff_eq.mpr hst)]
    cases hheld : (u.slot n).held || (u.slot n).ended with
    | true => exact (State.plainFreeze_change hst).congr (Slot.rolls_held hst hheld).symm
    | false =>
      rw [if_neg Bool.false_ne_true]
      refine (SlotsChange.setSlot (g := Slot.freezing) (fun h => ?_) (fun _ h => h)).congr (Slot.rolls_free hst hheld).symm
      exact Bool.noConfusion (congrArg Slot.fz h : true = false)
  · rw [if_neg (by simpa using hst)]
    exact SlotsChange.refl (Slot.rolls_other hst)

theorem State.abortSnapshot_idle {s : State} {k : Nat} (h : (s.snap k).st = .idle) : s.abortSnapshot k = s := by
  rw [State.abortSnapshot, h]
  rfl

/-- The record that a package keeps of a rollback as it enters ROLLING. -/
def Snap.entersRolling (x : Snap) (id : Nat) (who : Option (Nat × Nat × Bool)) (markers : List Nat) : Snap :=
  { x with st := .rolling, rollId := id, rollWho := who, markers := markers, rolled := [] }

theorem State.setSnap_slotsOf (s : State) (k m : Nat) (x : Snap) : (s.setSnap k x).slotsOf m = s.slotsOf m := by
  simp only [State.slotsOf, State.setSnap]

/-- Where no message of the job waits, the start of a rollback is the freeze of the job's regions. -/
theorem State.rollStart_shape {s : State} {k : Nat} (hidle : (s.snap k).st = .idle) (hbox : ∀ e, e ∈ s.inbox → e.2.job ≠ k) (id : Nat)
    (who : Option (Nat × Nat × Bool)) (markers : List Nat) :
    s.rollStart k id who markers = ((s.setSnap k ((s.snap k).entersRolling id who markers)).freezeAll (s.slotsOf k)).tryRoll k := by
  have hnone : s.inbox.filter (fun e => e.2.job == k) = [] := List.filter_eq_nil_iff.mpr fun e he => by simpa using hbox e he
  have hslots := s.setSnap_slotsOf k k ((s.snap k).entersRolling id who markers)
  rw [State.rollStart, State.abortSnapshot_idle hidle, hnone]
  change State.tryRoll (State.freezeAll (s.setSnap k ((s.snap k).entersRolling id who markers)) ((s.setSnap k ((s.snap k).entersRolling id who markers)).slotsOf k)) k = _
  rw [hslots]

/-- The rollback waits while some region of the job still runs. -/
theorem State.tryRoll_waits {s : State} {k n : Nat} (hn : n ∈ s.slotsOf k) (h : (s.slot n).st = .running) : s.tryRoll k = s := by
  have hall : (s.slotsOf k).all (fun n => (s.slot n).st != .running) = false := List.all_eq_false.mpr ⟨n, hn, by simp [h]⟩
  rw [State.tryRoll, hall, Bool.and_false, if_neg Bool.false_ne_true]

/-- The rollback of a job, as its package enters ROLLING: its regions freeze or are to freeze, and nothing else changes. -/
theorem State.rollStart_rolls {s : State} {k : Nat} (hidle : (s.snap k).st = .idle) (hbox : ∀ e, e ∈ s.inbox → e.2.job ≠ k) (hrun : someRuns s k)
    (id : Nat) (who : Option (Nat × Nat × Bool)) (markers : List Nat) :
    RollStarts s (s.rollStart k id who markers) k id markers who ∧
      SlotsChange Slot.rolls (s.slotsOf k) (s.setSnap k ((s.snap k).entersRolling id who markers)) (s.rollStart k id who markers) := by
  obtain ⟨u, hueq⟩ : ∃ u, s.setSnap k ((s.snap k).entersRolling id who markers) = u := ⟨_, rfl⟩
  have hslots : u.slots = s.slots := hueq ▸ rfl
  have hof : u.slotsOf k = s.slotsOf k := by rw [State.slotsOf, hslots, State.slotsOf]
  have hch := u.freezeAll_change (s.slotsOf k)
  have hslot (n : Nat) : (u.freezeAll (s.slotsOf k)).slot n = if n ∈ s.slotsOf k then (s.slot n).rolls else s.slot n := by
    rw [hch.slot, State.slot, hslots]
    rfl
  have hsnap : (u.freezeAll (s.slotsOf k)).snap k = (s.snap k).entersRolling id who markers := by
    rw [State.snap, hch.snaps, ← hueq]
    exact State.snap_setSnap_same ..
  have hwaits : (u.freezeAll (s.slotsOf k)).tryRoll k = u.freezeAll (s.slotsOf k) := by
    obtain ⟨n, hn, hst, hheld, hended⟩ := hrun
    refine State.tryRoll_waits (hch.kept k n (hof.symm ▸ hn)) ?_
    rw [hslot, if_pos hn, Slot.rolls_free hst (by rw [hheld, hended]; rfl)]
    exact hst
  rw [State.rollStart_shape hidle hbox, hueq, hwaits]
  refine ⟨⟨?_, ?_, ?_, ?_, fun n hn hst hheld hended => ?_, fun n hn hst hheld => ?_, fun n hn => ?_⟩, hch⟩
  · rw [hsnap]; rfl
  · rw [hsnap]; rfl
  · rw [hsnap]; rfl
  · rw [hsnap]; rfl
  · rw [hslot, if_pos hn, Slot.rolls_free hst (by rw [hheld, hended]; rfl)]
    rfl
  · rw [hslot, if_pos hn, Slot.rolls_held hst (by simpa using hheld)]
    rfl
  · rw [hslot]
    by_cases hin : n ∈ s.slotsOf k
    · rw [if_pos hin, Slot.rolls_other fun hst => hn ⟨hin, hst⟩]
    · rw [if_neg hin]

theorem State.rollStart_starts {s : State} {k : Nat} (hidle : (s.snap k).st = .idle) (hbox : ∀ e, e ∈ s.inbox → e.2.job ≠ k) (hrun : someRuns s k)
    (hu : s.atU = false) (id : Nat) (who : Option (Nat × Nat × Bool)) (markers : List Nat) :
    let t := s.rollStart k id who markers
    RollStarts s t k id markers who ∧ Beside s t ∧ ∀ n, t.rdSw n = s.rdSw n := by
  obtain ⟨hrolls, hch⟩ := State.rollStart_rolls hidle hbox hrun id who markers
  obtain ⟨u, hueq⟩ : ∃ u, s.setSnap k ((s.snap k).entersRolling id who markers) = u := ⟨_, rfl⟩
  obtain ⟨hbeside, hsw⟩ := State.agent_same (s := s) (u := u) (hueq ▸ rfl) (hueq ▸ rfl) (hueq ▸ rfl) (hueq ▸ rfl) (hueq ▸ rfl)
  rw [hueq] at hch
  refine ⟨hrolls, hbeside.trans (hch.beside (fun r => Slot.rolls_phys r) (fun hc => absurd (hbeside.atU.symm.trans hc) (by simp [hu]))),
    fun n => (hch.rdSw (fun r => Slot.rolls_phys r) n).trans (hsw n)⟩

end Sys2Proof.Machine

namespace Sys2Proof.Claims
open Sys2Proof.Machine

theorem CutStarts.of_same {s b u t : State} {k id issuer : Nat} {closed : List Nat} {who : Option (Nat × Nat × Bool)}
    (h : CutStarts b u k id issuer closed who) (hb : b.offAgents = s.offAgents) (ht : t.offAgents = u.offAgents) :
    CutStarts s t k id issuer closed who := by
  have hsnap : t.snap k = u.snap k := State.same_of_offAgents ht (State.snap · k) fun _ => rfl
  have htb : b.tb = s.tb := State.same_of_offAgents hb State.tb fun _ => rfl
  have hslots : b.slots = s.slots := State.same_of_offAgents hb State.slots fun _ => rfl
  have hof : b.slotsOf k = s.slotsOf k := by rw [State.slotsOf, hslots, State.slotsOf]
  have hslot (n : Nat) : b.slot n = s.slot n := State.same_of_offAgents hb (State.slot · n) fun _ => rfl
  have hslot' (n : Nat) : t.slot n = u.slot n := State.same_of_offAgents ht (State.slot · n) fun _ => rfl
  refine ⟨hsnap ▸ h.st, hsnap ▸ h.id, hsnap ▸ h.issuer, htb ▸ hsnap ▸ h.started, hsnap ▸ h.closed, hsnap ▸ h.who, fun n => ?_⟩
  rw [hslot', h.slots, hof, hslot]

theorem RollStarts.of_same {s b u t : State} {k id : Nat} {markers : List Nat} {who : Option (Nat × Nat × Bool)}
    (h : RollStarts b u k id markers who) (hb : b.offAgents = s.offAgents) (ht : t.offAgents = u.offAgents) :
    RollStarts s t k id markers who := by
  have hsnap : t.snap k = u.snap k := State.same_of_offAgents ht (State.snap · k) fun _ => rfl
  have hslots : b.slots = s.slots := State.same_of_offAgents hb State.slots fun _ => rfl
  have hof : b.slotsOf k = s.slotsOf k := by rw [State.slotsOf, hslots, State.slotsOf]
  have hslot (n : Nat) : b.slot n = s.slot n := State.same_of_offAgents hb (State.slot · n) fun _ => rfl
  have hslot' (n : Nat) : t.slot n = u.slot n := State.same_of_offAgents ht (State.slot · n) fun _ => rfl
  refine ⟨hsnap ▸ h.st, hsnap ▸ h.id, hsnap ▸ h.markers, hsnap ▸ h.who, fun n hn hst hheld hended => ?_, fun n hn hst hheld => ?_, fun n hn => ?_⟩
  · rw [hslot', ← hslot, h.running n (hof ▸ hn) (hslot n ▸ hst) (hslot n ▸ hheld) (hslot n ▸ hended)]
  · rw [hslot']
    exact h.held n (hof ▸ hn) (hslot n ▸ hst) (hslot n ▸ hheld)
  · rw [hslot', ← hslot]
    exact h.others n (by rw [hof, hslot]; exact hn)

end Sys2Proof.Claims

namespace Sys2Proof.Machine
open Sys2Proof.Claims

/-! ### The words -/

theorem bits_zero_32 (v : Nat) : bits v 0 32 = v % 2 ^ 32 := by simp [bits]

theorem State.fixArea_clean {u : State} (h : u.poison = []) (k : Nat) : u.fixArea k = u := by
  rw [State.fixArea]
  split
  · rfl
  · exact State.fixLines_clean h ..

theorem plainNeed_goes (reads : List Nat) : Need.Goes { reads := reads } := ⟨rfl, rfl, rfl, noCtl_pops, noCtl_pushes⟩

/-- A long system word has issued: registers stand, control falls through, status word `sw` holds `v` and the others stand. -/
def State.Issues (s : State) (o : Host.Outcome State Fault Refusal) (sw : Nat) (v : Word) (p : State → Prop) : Prop :=
  ∃ t, o = .next t ∧ sameG s t ∧ fallsThrough s t ∧ t.rdSw sw = v ∧ (∀ n, n ≠ sw → t.rdSw n = s.rdSw n) ∧ p t

/-- Nothing of memory, slots, snapshots and key requests has changed. -/
def State.Stands (s t : State) : Prop := t.mem = s.mem ∧ t.slots = s.slots ∧ t.snaps = s.snaps ∧ t.keyz = s.keyz

theorem State.Stands.of_offAgents {s t : State} (h : t.offAgents = s.offAgents) : s.Stands t :=
  ⟨(congrArg State.mem h :), (congrArg State.slots h :), (congrArg State.snaps h :), (congrArg State.keyz h :)⟩

section
variable {s u : State} {n : Need} {body : State → Except Trap (State × Flow)} {sw : Nat} {v : Word} {p : State → Prop}

theorem State.issues_of (hs : s.prompt) (hn : n.Goes) (hb : body s = .ok (u, .fall)) (hbeside : Beside s u) (hv : u.rdSw sw = v)
    (ho : ∀ k, k ≠ sw → u.rdSw k = s.rdSw k) (hp : ∀ t : State, t.offAgents = u.offAgents → (s.atU = false → t.tiles = u.tiles) → p t) :
    s.Issues (.next (s.scalarWord n body)) sw v p := by
  obtain ⟨hown, hg, hfalls, hsw⟩ := hbeside.commit n hn.pushes
  rw [State.scalarWord_goes hs hn hb]
  refine ⟨_, rfl, hg, hfalls, (hsw sw).trans hv, fun k hk => (hsw k).trans (ho k hk), hp _ hown.rest fun hu => ?_⟩
  rw [State.commitScalar, hbeside.atU, hu, if_neg Bool.false_ne_true, State.setCcore]
  split <;> rfl
end

section
variable {s b : State} {sw : Nat} {ph : Bool} (harm : s.arm sw 1 = some (b, ph))
include harm

/-- A word whose check fails completes its armed status word with a code. -/
theorem State.arm_refused {n : Need} {body : State → Except Trap (State × Flow)} {code : Nat} (hs : s.prompt) (hn : n.Goes) (hc : code ≠ 1)
    (hb : body s = .ok (b.statusWrite sw code, .fall)) : s.Issues (.next (s.scalarWord n body)) sw (swStatus (b.rdSw sw) code) s.Stands := by
  obtain ⟨w, rfl, -⟩ := State.arm_some harm
  rw [State.statusWrite_eq _ _ hc] at hb
  refine State.issues_of hs hn hb ((s.wrSw_beside sw w).trans (State.wrSw_beside _ sw _)) ?_ (fun k hk => ?_) (fun t ht _ => ?_)
  · rw [State.wrSw_rdSw, if_pos rfl]
  · rw [State.wrSw_rdSw, if_neg hk, State.wrSw_rdSw, if_neg hk]
  · exact State.Stands.of_offAgents (ht.trans ((State.wrSw_offAgents ..).trans (State.wrSw_offAgents ..)))

/-- A word that starts its request leaves its status word armed. -/
theorem State.arm_started {n : Need} {body : State → Except Trap (State × Flow)} {u : State} {p : State → Prop} (hs : s.prompt) (hn : n.Goes)
    (hb : body s = .ok (u, .fall)) (hu : Beside b u) (hsw : ∀ k, u.rdSw k = b.rdSw k)
    (hp : ∀ t : State, t.offAgents = u.offAgents → (s.atU = false → t.tiles = u.tiles) → p t) :
    s.Issues (.next (s.scalarWord n body)) sw (b.rdSw sw) p := by
  obtain ⟨w, rfl, -⟩ := State.arm_some harm
  exact State.issues_of hs hn hb ((s.wrSw_beside sw w).trans hu) (hsw sw) (fun k hk => by rw [hsw, State.wrSw_rdSw, if_neg hk]) hp

theorem State.arm_offAgents : b.offAgents = s.offAgents := by
  obtain ⟨w, rfl, -⟩ := State.arm_some harm
  exact s.wrSw_offAgents sw w

theorem State.arm_buf (n t k : Nat) : (b.tileAt n t).buf k = (s.tileAt n t).buf k := by
  have hslot : b.slot n = s.slot n := State.same_of_offAgents (State.arm_offAgents harm) (State.slot · n) fun _ => rfl
  obtain ⟨w, rfl, -⟩ := State.arm_some harm
  rw [State.tileAt, hslot, State.tileAt]
  cases hu : s.atU with
  | true =>
    rw [State.wrSw, hu, if_pos rfl]
    by_cases hp : (s.slot n).phys t = s.here
    · rw [hp, State.setCtile, State.setTile_tile_same]
      rfl
    · rw [State.setCtile_tile_other _ _ hp]
  | false =>
    rw [State.wrSw, hu, if_neg Bool.false_ne_true, State.setCcore]
    cases s.cur.agent <;> rfl

theorem State.arm_startable {k : Nat} (h : Startable s k) : Startable b k := by
  have hoff := State.arm_offAgents harm
  have hslot (n : Nat) : b.slot n = s.slot n := State.same_of_offAgents hoff (State.slot · n) fun _ => rfl
  have hslots : b.slots = s.slots := (congrArg State.slots hoff : b.offAgents.slots = s.offAgents.slots)
  have hof : b.slotsOf k = s.slotsOf k := by rw [State.slotsOf, hslots, State.slotsOf]
  have hnext (n : Nat) : b.nextSnapped n = s.nextSnapped n := by
    simp only [State.nextSnapped, hslot, State.arm_buf harm]
  refine ⟨?_, fun n hn => ?_, ?_⟩
  · rw [State.same_of_offAgents hoff (State.snap · k) fun _ => rfl]
    exact h.idle
  · rw [hnext, hslot]
    exact h.bufs n (hof ▸ hn)
  · rw [hof]
    exact h.some_

/-! SNAP (R180, R328). -/

theorem execSnap_word (rs rt : Nat) (hs : s.inHandler = false) (hown : s.atU = true → s.region.snapok = true ∧ rt = 0) :
    ∃ body, execSnap rs rt sw s = .next (s.scalarWord { reads := [rs, rt] } body) ∧
      body s = .ok (b.snapJobNow (if s.atU then some s.region.job else s.runningJob (s.rdG rt).toNat) ((s.rdG rs).toNat % 2 ^ 32) sw ph, .fall) := by
  have hpre : (if s.inHandler then some ill else if s.atU && !s.region.snapok then some priv else if s.atU && rt != 0 then some ill else none) = none := by
    rw [hs]
    cases hu : s.atU with
    | false => rfl
    | true =>
      obtain ⟨hok, hrt⟩ := hown hu
      rw [hok, hrt]
      rfl
  rw [execSnap, hpre]
  refine ⟨_, rfl, ?_⟩
  simp only [harm, bits_zero_32]

section
variable {k : Nat} {rs rt : Nat} (hp : s.prompt) (hs : s.inHandler = false) (hown : s.atU = true → s.region.snapok = true ∧ rt = 0)
  (hjob : (if s.atU then some s.region.job else s.runningJob (s.rdG rt).toNat) = some k) (hpoison : s.poison = [])
include hp hs hown hjob hpoison

theorem execSnap_busy (h : (s.snap k).st ≠ .idle) : s.Issues (execSnap rs rt sw s) sw (swStatus (b.rdSw sw) 8) s.Stands := by
  obtain ⟨body, hexec, hbody⟩ := execSnap_word harm rs rt hs hown
  have hoff := State.arm_offAgents harm
  have hsnap : b.snap k = s.snap k := State.same_of_offAgents hoff (State.snap · k) fun _ => rfl
  have hclean : b.poison = [] := (State.same_of_offAgents hoff State.poison fun _ => rfl).trans hpoison
  rw [hexec]
  refine State.arm_refused harm hp (plainNeed_goes _) (by decide) ?_
  rw [hbody, hjob, State.snapJobNow, State.fixArea_clean hclean, hsnap, if_pos (by simpa using h)]

theorem execSnap_refused (h : (s.snap k).st = .idle) (href : s.snapRefused k ((s.rdG rs).toNat % 2 ^ 32) = true) :
    s.Issues (execSnap rs rt sw s) sw (swStatus (b.rdSw sw) 6) s.Stands := by
  obtain ⟨body, hexec, hbody⟩ := execSnap_word harm rs rt hs hown
  have hoff := State.arm_offAgents harm
  have hsnap : b.snap k = s.snap k := State.same_of_offAgents hoff (State.snap · k) fun _ => rfl
  have hclean : b.poison = [] := (State.same_of_offAgents hoff State.poison fun _ => rfl).trans hpoison
  have hrefb := State.same_of_offAgents hoff (State.snapRefused · k ((s.rdG rs).toNat % 2 ^ 32)) fun _ => rfl
  rw [hexec]
  refine State.arm_refused harm hp (plainNeed_goes _) (by decide) ?_
  rw [hbody, hjob, State.snapJobNow, State.fixArea_clean hclean, hsnap, if_neg (by simpa using h)]
  simp only [hrefb, href, if_true]

theorem execSnap_starts (h : Startable s k) (href : s.snapRefused k ((s.rdG rs).toNat % 2 ^ 32) = false) :
    s.Issues (execSnap rs rt sw s) sw (b.rdSw sw) (fun t => CutStarts s t k ((s.rdG rs).toNat % 2 ^ 32) s.pkgid [] (some (s.cur.code, sw, ph))) := by
  obtain ⟨body, hexec, hbody⟩ := execSnap_word harm rs rt hs hown
  have hoff := State.arm_offAgents harm
  have hsnap : b.snap k = s.snap k := State.same_of_offAgents hoff (State.snap · k) fun _ => rfl
  have hclean : b.poison = [] := (State.same_of_offAgents hoff State.poison fun _ => rfl).trans hpoison
  have hrefb := State.same_of_offAgents hoff (State.snapRefused · k ((s.rdG rs).toNat % 2 ^ 32)) fun _ => rfl
  have hcur : b.cur = s.cur := State.same_of_offAgents hoff State.cur fun _ => rfl
  have hpkg : b.pkgid = s.pkgid := State.same_of_offAgents hoff State.pkgid fun _ => rfl
  obtain ⟨hstarts, hbeside, hsw⟩ := State.startCut_starts (State.arm_startable harm h) ((s.rdG rs).toNat % 2 ^ 32) s.pkgid (some (s.cur.code, sw, ph)) []
  rw [hexec]
  refine State.arm_started harm hp (plainNeed_goes _) ?_ hbeside hsw fun t ht _ => hstarts.of_same hoff ht
  rw [hbody, hjob, State.snapJobNow, State.fixArea_clean hclean, hsnap, if_neg (by simpa using h.idle)]
  simp only [hrefb, href, Bool.false_eq_true, if_false, hcur, hpkg]
end

theorem execSnap_none {rs rt : Nat} (hs : s.atU = false) (hjob : s.runningJob (s.rdG rt).toNat = none) :
    s.Issues (execSnap rs rt sw s) sw (swStatus (b.rdSw sw) 6) s.Stands := by
  obtain ⟨body, hexec, hbody⟩ := execSnap_word harm rs rt (State.inHandler_core hs) (fun hu => absurd hu (by simp [hs]))
  rw [hexec]
  refine State.arm_refused harm (State.prompt_core hs) (plainNeed_goes _) (by decide) ?_
  rw [hbody, hs, if_neg Bool.false_ne_true, hjob]
  rfl

/-! ROLLB (R181, R338). -/

section
variable {rs rt : Nat} (hs : s.atU = false)
include hs

theorem execRollb_word : ∃ body, execRollb rs rt sw s = .next (s.scalarWord { reads := [rs, rt] } body) ∧
    body s = .ok (b.rollJobNow (s.runningJob (s.rdG rt).toNat) ((s.rdG rs).toNat % 2 ^ 32) sw ph, .fall) := by
  have hrun : b.runningJob (s.rdG rt).toNat = s.runningJob (s.rdG rt).toNat :=
    State.same_of_offAgents (State.arm_offAgents harm) (State.runningJob · (s.rdG rt).toNat) fun _ => rfl
  rw [execRollb, State.inHandler_core hs, hs]
  refine ⟨_, rfl, ?_⟩
  simp only [harm, bits_zero_32, hrun]

theorem execRollb_none (hjob : s.runningJob (s.rdG rt).toNat = none) : s.Issues (execRollb rs rt sw s) sw (swStatus (b.rdSw sw) 9) s.Stands := by
  obtain ⟨body, hexec, hbody⟩ := execRollb_word harm (rs := rs) (rt := rt) hs
  rw [hexec]
  refine State.arm_refused harm (State.prompt_core hs) (plainNeed_goes _) (by decide) ?_
  rw [hbody, hjob]
  rfl

variable {k : Nat} (hjob : s.runningJob (s.rdG rt).toNat = some k) (hpoison : s.poison = [])
include hjob hpoison

theorem execRollb_busy (h : (s.snap k).st = .rolling) : s.Issues (execRollb rs rt sw s) sw (swStatus (b.rdSw sw) 8) s.Stands := by
  obtain ⟨body, hexec, hbody⟩ := execRollb_word harm (rs := rs) (rt := rt) hs
  have hoff := State.arm_offAgents harm
  have hsnap : b.snap k = s.snap k := State.same_of_offAgents hoff (State.snap · k) fun _ => rfl
  have hclean : b.poison = [] := (State.same_of_offAgents hoff State.poison fun _ => rfl).trans hpoison
  rw [hexec]
  refine State.arm_refused harm (State.prompt_core hs) (plainNeed_goes _) (by decide) ?_
  rw [hbody, hjob, State.rollJobNow, State.fixArea_clean hclean, hsnap, if_pos (by simpa using h)]

/-- The catalogue holds no committed checkpoint of an id. -/
def State.noCheckpoint (s : State) (k id : Nat) : Bool := decide (s.area k = 0) || !((s.committed k).any (fun i => s.catId k i == id))

theorem execRollb_refused (h : (s.snap k).st ≠ .rolling) (hno : s.noCheckpoint k ((s.rdG rs).toNat % 2 ^ 32) = true) :
    s.Issues (execRollb rs rt sw s) sw (swStatus (b.rdSw sw) 9) s.Stands := by
  obtain ⟨body, hexec, hbody⟩ := execRollb_word harm (rs := rs) (rt := rt) hs
  have hoff := State.arm_offAgents harm
  have hsnap : b.snap k = s.snap k := State.same_of_offAgents hoff (State.snap · k) fun _ => rfl
  have hclean : b.poison = [] := (State.same_of_offAgents hoff State.poison fun _ => rfl).trans hpoison
  have hnob : b.noCheckpoint k ((s.rdG rs).toNat % 2 ^ 32) = true :=
    (State.same_of_offAgents hoff (State.noCheckpoint · k ((s.rdG rs).toNat % 2 ^ 32)) fun _ => rfl).trans hno
  rw [State.noCheckpoint] at hnob
  rw [hexec]
  refine State.arm_refused harm (State.prompt_core hs) (plainNeed_goes _) (by decide) ?_
  rw [hbody, hjob, State.rollJobNow, State.fixArea_clean hclean, hsnap, if_neg (by simpa using h)]
  simp only [hnob, if_true]

theorem execRollb_starts (h : (s.snap k).st = .idle) (hbox : ∀ e, e ∈ s.inbox → e.2.job ≠ k) (hrun : someRuns s k)
    (hyes : s.noCheckpoint k ((s.rdG rs).toNat % 2 ^ 32) = false) : s.Issues (execRollb rs rt sw s) sw (b.rdSw sw)
      (fun t => RollStarts s t k ((s.rdG rs).toNat % 2 ^ 32) (s.peers k) (some (s.cur.code, sw, ph))) := by
  obtain ⟨body, hexec, hbody⟩ := execRollb_word harm (rs := rs) (rt := rt) hs
  have hoff := State.arm_offAgents harm
  have hsnap : b.snap k = s.snap k := State.same_of_offAgents hoff (State.snap · k) fun _ => rfl
  have hclean : b.poison = [] := (State.same_of_offAgents hoff State.poison fun _ => rfl).trans hpoison
  have hnob : b.noCheckpoint k ((s.rdG rs).toNat % 2 ^ 32) = false :=
    (State.same_of_offAgents hoff (State.noCheckpoint · k ((s.rdG rs).toNat % 2 ^ 32)) fun _ => rfl).trans hyes
  rw [State.noCheckpoint] at hnob
  have hcur : b.cur = s.cur := State.same_of_offAgents hoff State.cur fun _ => rfl
  have hpeers : b.peers k = s.peers k := State.same_of_offAgents hoff (State.peers · k) fun _ => rfl
  have hinbox : b.inbox = s.inbox := State.same_of_offAgents hoff State.inbox fun _ => rfl
  have hslots : b.slots = s.slots := State.same_of_offAgents hoff State.slots fun _ => rfl
  have hrunb : someRuns b k := by
    obtain ⟨n, hn, hst⟩ := hrun
    have hslot : b.slot n = s.slot n := by rw [State.slot, hslots, State.slot]
    exact ⟨n, by rw [State.slotsOf, hslots]; exact hn, hslot ▸ hst⟩
  have hu : b.atU = false := by rw [State.atU, hcur]; exact hs
  obtain ⟨hstarts, hbeside, hsw⟩ := State.rollStart_starts (hsnap ▸ h) (hinbox ▸ hbox) hrunb hu ((s.rdG rs).toNat % 2 ^ 32)
    (some (s.cur.code, sw, ph)) (s.peers k)
  rw [hexec]
  refine State.arm_started harm (State.prompt_core hs) (plainNeed_goes _) ?_ hbeside hsw fun t ht _ => hstarts.of_same hoff ht
  rw [hbody, hjob, State.rollJobNow, State.fixArea_clean hclean, hsnap, if_neg (by simp [h])]
  simp only [hnob, Bool.false_eq_true, if_false, hcur, hpeers]
end

/-! KEYZ (R182, R368). -/

section
variable {rs : Nat} (hs : s.atU = false)
include hs

theorem execKeyz_word : ∃ body, execKeyz rs sw s = .next (s.scalarWord { reads := [rs] } body) ∧
    body s = (if (s.rdG rs).toNat = 0 || 64 ≤ (s.rdG rs).toNat then .ok (b.statusWrite sw 9, .fall)
      else if b.worldBusy (s.rdG rs).toNat then .ok (b.statusWrite sw 8, .fall)
      else .ok ({ b with keyz := b.keyz ++ [((s.rdG rs).toNat, some (b.cur.code, sw, ph))] }, .fall)) := by
  rw [execKeyz, State.inHandler_core hs, hs]
  refine ⟨_, rfl, ?_⟩
  simp only [harm]

theorem execKeyz_range (h : (s.rdG rs).toNat = 0 ∨ 64 ≤ (s.rdG rs).toNat) : s.Issues (execKeyz rs sw s) sw (swStatus (b.rdSw sw) 9) s.Stands := by
  obtain ⟨body, hexec, hbody⟩ := execKeyz_word harm (rs := rs) hs
  rw [hexec]
  refine State.arm_refused harm (State.prompt_core hs) (plainNeed_goes _) (by decide) ?_
  rw [hbody, if_pos (by simpa using h)]

variable (h1 : 1 ≤ (s.rdG rs).toNat) (h63 : (s.rdG rs).toNat ≤ 63)
include h1 h63

theorem execKeyz_busy (hbusy : b.worldBusy (s.rdG rs).toNat = true) : s.Issues (execKeyz rs sw s) sw (swStatus (b.rdSw sw) 8) s.Stands := by
  obtain ⟨body, hexec, hbody⟩ := execKeyz_word harm (rs := rs) hs
  rw [hexec]
  refine State.arm_refused harm (State.prompt_core hs) (plainNeed_goes _) (by decide) ?_
  rw [hbody, if_neg (by simp; omega), if_pos hbusy]

theorem execKeyz_starts (hbusy : b.worldBusy (s.rdG rs).toNat = false) : s.Issues (execKeyz rs sw s) sw (b.rdSw sw)
    (fun t => t.tiles = s.tiles ∧ t.mem = s.mem ∧ t.keyz = s.keyz ++ [((s.rdG rs).toNat, some (s.cur.code, sw, ph))]) := by
  obtain ⟨body, hexec, hbody⟩ := execKeyz_word harm (rs := rs) hs
  have hoff := State.arm_offAgents harm
  have hcur : b.cur = s.cur := State.same_of_offAgents hoff State.cur fun _ => rfl
  have hkeyz : b.keyz = s.keyz := State.same_of_offAgents hoff State.keyz fun _ => rfl
  have hmem : b.mem = s.mem := State.same_of_offAgents hoff State.mem fun _ => rfl
  have htiles : b.tiles = s.tiles := by
    obtain ⟨w, rfl, -⟩ := State.arm_some harm
    rw [State.wrSw, hs, if_neg Bool.false_ne_true, State.setCcore]
    cases s.cur.agent <;> rfl
  obtain ⟨hbeside, hsw⟩ := State.agent_same (s := b) (u := { b with keyz := b.keyz ++ [((s.rdG rs).toNat, some (b.cur.code, sw, ph))] }) rfl rfl rfl rfl rfl
  rw [hexec]
  refine State.arm_started harm (State.prompt_core hs) (plainNeed_goes _) ?_ hbeside hsw fun t ht ht' => ⟨(ht' hs).trans htiles, ?_, ?_⟩
  · rw [hbody, if_neg (by simp; omega), hbusy, if_neg Bool.false_ne_true]
  · exact (congrArg State.mem ht : t.offAgents.mem = _).trans hmem
  · have hk : t.keyz = b.keyz ++ [((s.rdG rs).toNat, some (b.cur.code, sw, ph))] := (congrArg State.keyz ht :)
    rw [hk, hkeyz, hcur]
end
end

end Sys2Proof.Machine

namespace Sys2Proof.Machine
open Sys2Proof.Claims

theorem noCheckpoint_iff {s : State} {k id : Nat} : s.noCheckpoint k id = true ↔ s.area k = 0 ∨ ∀ i, i ∈ s.committed k → s.catId k i ≠ id := by
  simp [State.noCheckpoint]

theorem snapRefused_iff {s : State} {k id : Nat} :
    s.snapRefused k id = true ↔ id = 0 ∨ s.catFind k id ≠ none ∨ s.area k = 0 ∨ s.areaU k 0 8 ≠ k / 64 := by
  simp [State.snapRefused, Option.isSome_iff_ne_none, or_assoc]

/-! At U the words that S alone may run raise PRIV (R181, R182, R302). -/

section
variable {s : State} (hu : s.atU = true) (hh : s.inHandler = false) (rs rt sw : Nat)
include hu hh

theorem execSnap_priv (h : s.region.snapok = false) : execSnap rs rt sw s = .next (s.takeTrap priv) := by
  rw [execSnap, hh, hu, h]
  rfl

theorem execSnap_ill (h : s.region.snapok = true) (hrt : rt ≠ 0) : execSnap rs rt sw s = .next (s.takeTrap ill) := by
  have hne : (rt != 0) = true := by simpa using hrt
  rw [execSnap, hh, hu, h, hne]
  rfl

theorem execRollb_priv : execRollb rs rt sw s = .next (s.takeTrap priv) := by
  rw [execRollb, hh, hu]
  rfl

theorem execKeyz_priv : execKeyz rs sw s = .next (s.takeTrap priv) := by
  rw [execKeyz, hh, hu]
  rfl
end

end Sys2Proof.Machine

namespace Sys2Proof.Proofs
open Sys2Proof.Machine Sys2Proof.Claims

/-- Settles O25: the word is armed; the request starts, or the word completes with the code of the check that failed. -/
theorem longSystemWords : Obligations.LongSystemWords := by
  intro rs rt sw s hp hh id w issues stands own
  refine ⟨fun b ph harm => ⟨fun k hown hkU hkS hpoison => ?_, fun hs => ⟨fun hnone => ⟨execSnap_none harm hs hnone, execRollb_none harm hs hnone⟩,
    fun k hjob hpoison => ⟨fun i hidle hbox hrun harea hi hid => ?_, execRollb_busy harm hs hjob hpoison, fun hst hno => ?_⟩, execKeyz_starts harm hs,
    execKeyz_busy harm hs, execKeyz_range harm hs⟩⟩,
    fun hu => ⟨execSnap_priv hu hh rs rt sw, execSnap_ill hu hh rs rt sw, execRollb_priv hu hh rs rt sw, execKeyz_priv hu hh rs sw⟩⟩
  · have hjob : (if s.atU then some s.region.job else s.runningJob (s.rdG rt).toNat) = some k := by
      cases hu : s.atU with
      | true => rw [if_pos rfl, hkU hu]
      | false => rw [if_neg Bool.false_ne_true, hkS hu]
    refine ⟨fun hid hstart hfind harea hmagic => execSnap_starts harm hp hh hown hjob hpoison hstart ?_,
      fun hst => execSnap_busy harm hp hh hown hjob hpoison hst, fun hst href => execSnap_refused harm hp hh hown hjob hpoison hst (snapRefused_iff.mpr href)⟩
    rw [Bool.eq_false_iff, ne_eq, snapRefused_iff]
    rintro (h | h | h | h)
    · exact hid h
    · exact h hfind
    · exact harea h
    · exact h hmagic
  · refine execRollb_starts harm hs hjob hpoison hidle hbox hrun ?_
    rw [Bool.eq_false_iff, ne_eq, noCheckpoint_iff]
    rintro (h | h)
    · exact harea h
    · exact h i hi hid
  · exact execRollb_refused harm hs hjob hpoison hst (noCheckpoint_iff.mpr hno)

end Sys2Proof.Proofs
end

section
/-! PROOFS. Trap records (R64, R290 to R295): what a trap notes, the freeze that writes the records, and the end of a handler cycle. -/

namespace Sys2Proof.Machine
open Sys2Proof.Claims

/-! ### What the control cores are told -/

theorem told_zero (s : State) : told s s 0 := fun _ _ => by rw [Nat.or_zero]

theorem told.trans {s u v : State} {a b : Nat} (h : told s u a) (g : told u v b) : told s v (a ||| b) := fun k hk => by
  rw [g k hk, h k hk, Nat.or_assoc]

theorem told.of_cores {s u v : State} {m : Nat} (h : told u v m) (hc : u.cores = s.cores) : told s v m := fun k hk => by
  rw [h k hk, State.core, hc, State.core]

/-- A command in hand completes as its region freezes (R305). -/
theorem State.endFreeze_leaves (s : State) (n : Nat) : let t := s.endFreeze n
    t.slot n = { s.slot n with err := if (s.slot n).done then (s.slot n).err else 0, done := true } ∧ t.tiles = s.tiles ∧ t.mem = s.mem ∧
      told s t (if (s.slot n).done then 0 else 2) := by
  intro t
  cases hd : (s.slot n).done with
  | true =>
    have ht : t = s := by rw [show t = s.endFreeze n from rfl, State.endFreeze, hd, if_pos rfl]
    rw [ht]
    refine ⟨?_, rfl, rfl, told_zero s⟩
    generalize s.slot n = r at hd ⊢
    cases r
    cases hd
    rfl
  | false =>
    have ht : t = s.cmdDone n 0 := by rw [show t = s.endFreeze n from rfl, State.endFreeze, hd, if_neg Bool.false_ne_true]
    rw [ht]
    exact ⟨State.cmdDone_slot s n 0, rfl, State.cmdDone_mem s n 0, State.raiseCC_told (s.setSlot n { s.slot n with err := 0, done := true }) ipHdone⟩

/-! ### The freeze (R291 to R294) -/

section
variable (s : State) (n : Nat)

/-- The tiles that have trapped. -/
def State.trapTiles : List Nat := (s.tiles6 n).filter (fun t => (s.tileAt n t).trapNow.isSome)

/-- Every one of them has a handler for its cause. -/
def State.allAble : Bool :=
  (s.trapTiles n).all (fun t => ((s.tileAt n t).trapNow.any (fun x => x.cause.handled)) && (Store.get ({} : TileImg) t (s.slot n).imgs).handler.isSome)

/-- What the freeze makes of a tile. -/
def State.frozenTile (t : Nat) (y : Tile) : Tile :=
  let x := y.freezeRecord (s.slot n).rcc
  if s.allAble n && x.inFreeze then x.enterHandler ((Store.get ({} : TileImg) t (s.slot n).imgs).handler.getD 0) else x

/-- What the freeze makes of the slot, before a command in hand completes. -/
def State.frozenSlot : Slot :=
  { s.slot n with st := .frozen, ntrap := (s.trapTiles n).length, ftile := (s.trapTiles n).headD 0, trapped := true, frozenAt := (s.slot n).rcc, handler := s.allAble n, holding := false, fz := false, hcyc := 0, hpos := 0, hfault := false }

theorem State.faultFreeze_eq : s.faultFreeze n =
    (if s.allAble n then (s.overTiles n (s.frozenTile n) (s.tiles6 n)).setSlot n (s.frozenSlot n)
      else ((s.overTiles n (s.frozenTile n) (s.tiles6 n)).setSlot n (s.frozenSlot n)).raiseCC ipTrap).endFreeze n := by
  have hslot := s.overTiles_slot n (s.frozenTile n) (s.tiles6 n) n
  have hq : s.frozenSlot n = { (s.overTiles n (s.frozenTile n) (s.tiles6 n)).slot n with
      st := .frozen, ntrap := (s.trapTiles n).length, ftile := (s.trapTiles n).headD 0, trapped := true, frozenAt := (s.slot n).rcc, handler := s.allAble n, holding := false, fz := false, hcyc := 0, hpos := 0, hfault := false } := by
    rw [hslot]
    rfl
  rw [hq]
  rfl

/-- What the freeze leaves (R291 to R294). -/
theorem State.faultFreeze_leaves (ha : apart (s.slot n)) : let u := s.faultFreeze n
    u.slot n = { s.frozenSlot n with err := if (s.slot n).done then (s.slot n).err else 0, done := true } ∧
      (∀ t, t < (s.slot n).count → u.tile ((s.slot n).phys t) = s.frozenTile n t (s.tileAt n t)) ∧ u.mem = s.mem ∧
      told s u ((if s.allAble n then 0 else 1) + if (s.slot n).done then 0 else 2) := by
  let w := (s.overTiles n (s.frozenTile n) (s.tiles6 n)).setSlot n (s.frozenSlot n)
  have hrest := s.overTiles_rest n (s.frozenTile n) (s.tiles6 n)
  have hmem : w.mem = s.mem := (congrArg State.mem hrest :)
  have hcores : w.cores = s.cores := (congrArg State.cores hrest :)
  have hslot : w.slot n = s.frozenSlot n := State.setSlot_slot_same _ _ _
  have htile (t : Nat) (ht : t < (s.slot n).count) : w.tile ((s.slot n).phys t) = s.frozenTile n t (s.tileAt n t) := by
    have hat := State.overTiles_region (s.frozenTile n) ha ht
    rw [State.tileAt, State.overTiles_slot] at hat
    exact hat
  intro u
  rw [show u = s.faultFreeze n from rfl, State.faultFreeze_eq]
  cases hable : s.allAble n with
  | true =>
    obtain ⟨hs, ht, hm, htold⟩ := w.endFreeze_leaves n
    rw [if_pos rfl]
    refine ⟨by rw [hs, hslot]; rfl, fun t hlt => ?_, hm.trans hmem, ?_⟩
    · rw [State.tile, ht]
      exact htile t hlt
    · rw [hslot] at htold
      have hall := told.of_cores htold hcores
      rw [if_pos rfl, Nat.zero_add]
      exact hall
  | false =>
    obtain ⟨hs, ht, hm, htold⟩ := (w.raiseCC ipTrap).endFreeze_leaves n
    rw [if_neg Bool.false_ne_true]
    rw [State.raiseCC_slot, hslot] at hs htold
    refine ⟨by rw [hs]; rfl, fun t hlt => ?_, (hm.trans (State.raiseCC_mem w ipTrap)).trans hmem, ?_⟩
    · rw [State.tile, ht]
      exact htile t hlt
    · have hall := told.trans (told.of_cores (State.raiseCC_told w ipTrap) hcores) htold
      have hor : ipTrap ||| (if (s.frozenSlot n).done then 0 else 2) = 1 + if (s.slot n).done then 0 else 2 := by
        rw [show (s.frozenSlot n).done = (s.slot n).done from rfl]
        cases (s.slot n).done <;> rfl
      rw [hor] at hall
      exact hall
end

/-! ### Which tiles trapped, and what each then holds -/

section
variable {s : State} {n t : Nat}

theorem State.mem_trapTiles : t ∈ s.trapTiles n ↔ t < (s.slot n).count ∧ (s.tileAt n t).trapNow.isSome = true := by
  rw [State.trapTiles, List.mem_filter, State.tiles6, List.mem_range]

/-- FTILE is the lowest of them. -/
theorem State.head_trapTiles (h : ∃ t, t ∈ s.trapTiles n) :
    (s.trapTiles n).headD 0 ∈ s.trapTiles n ∧ ∀ t ∈ s.trapTiles n, (s.trapTiles n).headD 0 ≤ t := by
  have hsorted : (s.trapTiles n).Pairwise (· < ·) := List.Pairwise.filter _ List.pairwise_lt_range
  obtain ⟨t, ht⟩ := h
  cases hl : s.trapTiles n with
  | nil => rw [hl] at ht; cases ht
  | cons a l =>
    rw [hl] at hsorted
    refine ⟨List.mem_cons_self, fun q hq => ?_⟩
    rcases List.mem_cons.mp hq with rfl | hq
    · exact le_refl _
    · exact (List.rel_of_pairwise_cons hsorted hq).le

theorem Cause.handled_iff (c : Cause) : c.handled = true ↔ c = .brk ∨ c = .overrun ∨ c = .late := by
  cases c <;> simp [Cause.handled]

theorem State.allAble_iff : s.allAble n = true ↔ ∀ t ∈ s.trapTiles n,
    (∃ x, (s.tileAt n t).trapNow = some x ∧ (x.cause = .brk ∨ x.cause = .overrun ∨ x.cause = .late)) ∧
      (Store.get ({} : TileImg) t (s.slot n).imgs).handler.isSome = true := by
  simp only [State.allAble, List.all_eq_true, Bool.and_eq_true, Option.any_eq_true, Cause.handled_iff]

theorem State.anyTrap_of (h : ∃ t, t ∈ s.trapTiles n) : s.anyTrap n = true := by
  obtain ⟨t, ht⟩ := h
  obtain ⟨hlt, hs⟩ := State.mem_trapTiles.mp ht
  exact List.any_eq_true.mpr ⟨t, List.mem_range.mpr hlt, hs⟩
end

theorem Tile.freezeRecord_of_trap {x : Tile} {r : TrapRec} (h : x.trapNow = some r) (c : Nat) :
    x.freezeRecord c = { x.writeRecord r c with trapNow := none, inFreeze := true } := by
  rw [Tile.freezeRecord, h]

/-- What the freeze writes into the registers of a tile that trapped (R292, Tables 18.2 and 18.3). -/
structure Tile.Recorded (x y : Tile) (r : TrapRec) (c : Nat) : Prop where
  trapNow : y.trapNow = none
  tcause : y.tcause = tcauseOf r c
  tstep : y.tstep = BitVec.ofNat 64 r.step
  topd0 : y.topd0 = r.opd0
  topd1 : y.topd1 = r.opd1
  tret : y.tret = (x.writeRecord r c).tret

theorem Tile.freezeRecord_recorded {x : Tile} {r : TrapRec} (h : x.trapNow = some r) (c : Nat) : x.Recorded (x.freezeRecord c) r c := by
  rw [Tile.freezeRecord_of_trap h]
  exact ⟨rfl, rfl, rfl, rfl, rfl, rfl⟩

theorem Tile.enterHandler_recorded {x y : Tile} {r : TrapRec} {c : Nat} (h : x.Recorded y r c) (k : Nat) : x.Recorded (y.enterHandler k) r c :=
  ⟨h.trapNow, h.tcause, h.tstep, h.topd0, h.topd1, h.tret⟩

theorem Tile.enterHandler_eng (x : Tile) (k : Nat) : (x.enterHandler k).eng 0 = { x.eng 0 with step := k, stamp := none } :=
  Store.get_put_same _ _ _ _

section
variable {s : State} {n t : Nat} {r : TrapRec}

theorem State.frozenTile_recorded {x : Tile} (h : x.trapNow = some r) : x.Recorded (s.frozenTile n t x) r (s.slot n).rcc := by
  rw [State.frozenTile]
  split
  · exact Tile.enterHandler_recorded (Tile.freezeRecord_recorded h _) _
  · exact Tile.freezeRecord_recorded h _

/-- No handler runs: SQ stands as it did. -/
theorem State.frozenTile_unhandled {x : Tile} (h : x.trapNow = some r) (hable : s.allAble n = false) :
    (s.frozenTile n t x).hflag = x.hflag ∧ (s.frozenTile n t x).eng 0 = x.eng 0 := by
  rw [State.frozenTile, hable, Tile.freezeRecord_of_trap h]
  exact ⟨rfl, rfl⟩

/-- HANDLER_ENTRY (R294, R295). -/
theorem State.frozenTile_handled {x : Tile} (h : x.trapNow = some r) (hable : s.allAble n = true) {k : Nat}
    (hk : (Store.get ({} : TileImg) t (s.slot n).imgs).handler = some k) :
    (s.frozenTile n t x).hflag = true ∧ (s.frozenTile n t x).eng 0 = { x.eng 0 with step := k, stamp := none } := by
  rw [State.frozenTile, hable, hk, Tile.freezeRecord_of_trap h]
  exact ⟨rfl, Tile.enterHandler_eng _ k⟩

/-- After a cycle in which a tile has trapped the region freezes. -/
theorem State.regionStep_traps (hst : (s.slot n).st = .running) (he : (s.slot n).ended = false) (hh : (s.slot n).held = false)
    (hpos : (s.slot n).pos = 6 * (s.slot n).count + 1) (ht : s.anyTrap n = true) : s.regionStep n = .next (s.doneKnown (s.faultFreeze n)) := by
  have hlt : ¬ (s.slot n).pos < 6 * (s.slot n).count := by omega
  have hne : ¬ (s.slot n).pos = 6 * (s.slot n).count := by omega
  rw [State.regionStep]
  simp only [hst, he, hh, Bool.false_eq_true, if_false]
  rw [if_neg hlt, if_neg hne, State.boundaryStep, if_pos ht]
end

/-! ### The end of a handler cycle (R295) -/

section
variable {s : State} {n : Nat}

theorem State.regionStep_handlers (hst : (s.slot n).st = .frozen) (hh : (s.slot n).handler = true) (hpos : (s.slot n).count ≤ (s.slot n).hpos) :
    s.regionStep n = .next (s.endHandlerCycle n) := by
  rw [State.regionStep]
  simp only [hst]
  rw [State.frozenStep, if_pos hh, State.handlerStep, if_pos hpos]

theorem State.endHandlerCycle_goes (hf : (s.slot n).hfault = false) :
    s.endHandlerCycle n = s.setSlot n { s.slot n with hcyc := (s.slot n).hcyc + 1, hpos := 0 } := by
  exact if_neg (ne_true_of_eq_false hf)

theorem Tile.quitHandler_of_not {x : Tile} (h : x.hflag = false) : x.quitHandler = x := by
  rw [Tile.quitHandler, h, if_neg Bool.false_ne_true]

/-- A handler that ends leaves SQ at TRET.STEP. -/
theorem Tile.quitHandler_of_flag {x : Tile} (h : x.hflag = true) : x.quitHandler.hflag = false ∧
    x.quitHandler.eng 0 = { x.eng 0 with step := x.tret.toNat % 65536, stamp := none } ∧ { x.quitHandler with hflag := true, engs := x.engs } = x := by
  rw [Tile.quitHandler, h, if_pos rfl]
  refine ⟨rfl, (Store.get_put_same _ _ _ _).trans ?_, ?_⟩
  · rw [bits, pow_zero, Nat.div_one]
    rfl
  · cases x
    cases h
    rfl

/-- A fault in a handler ends every handler of the freeze, and the control cores are told. -/
theorem State.endHandlerCycle_faults (hf : (s.slot n).hfault = true) (ha : apart (s.slot n)) : let u := s.endHandlerCycle n
    u.slot n = { s.slot n with handler := false, hfault := false } ∧ told s u 1 ∧ u.mem = s.mem ∧
      ∀ t, t < (s.slot n).count → u.tile ((s.slot n).phys t) = (s.tileAt n t).quitHandler := by
  let v := s.overTiles n (fun _ x => x.quitHandler) (s.tiles6 n)
  let w := v.setSlot n { v.slot n with handler := false, hfault := false }
  have hrest := s.overTiles_rest n (fun _ x => x.quitHandler) (s.tiles6 n)
  have hslot : v.slot n = s.slot n := s.overTiles_slot n _ _ n
  have hu : s.endHandlerCycle n = w.raiseCC ipTrap := by
    rw [State.endHandlerCycle, hf, if_pos rfl]
    rfl
  intro u
  rw [show u = w.raiseCC ipTrap from hu]
  refine ⟨?_, told.of_cores (State.raiseCC_told w ipTrap) (congrArg State.cores hrest :), (State.raiseCC_mem w ipTrap).trans (congrArg State.mem hrest :),
    fun t ht => ?_⟩
  · rw [State.raiseCC_slot, State.setSlot_slot_same, hslot]
  · have hat := State.overTiles_region (fun _ x => x.quitHandler) ha ht
    rw [State.tileAt, State.overTiles_slot] at hat
    exact hat
end

end Sys2Proof.Machine

namespace Sys2Proof.Proofs
open Sys2Proof.Machine Sys2Proof.Claims

/-- The end of a handler cycle (R295). -/
theorem handlerCycle_ends {s : State} {n : Nat} (hb : s.snappedBufs = []) (hag : s.agenda = []) (hfocus : s.focus = .region n) (hn : n < 1344)
    (hst : (s.slot n).st = .frozen) (hh : (s.slot n).handler = true) (hpos : (s.slot n).count ≤ (s.slot n).hpos) :
    ((s.slot n).hfault = false → ∃ u, step s = .next u ∧ SlotOnly s u n { s.slot n with hcyc := (s.slot n).hcyc + 1, hpos := 0 }) ∧
    ((s.slot n).hfault = true → apart (s.slot n) → ∃ u, step s = .next u ∧ u.slot n = { s.slot n with handler := false, hfault := false } ∧
      told s u 1 ∧ u.mem = s.mem ∧
      ∀ t, t < (s.slot n).count → let x := s.tileAt n t
        (x.hflag = false → u.tile ((s.slot n).phys t) = x) ∧
        (x.hflag = true → (u.tile ((s.slot n).phys t)).hflag = false ∧
          ((u.tile ((s.slot n).phys t)).eng 0) = { x.eng 0 with step := x.tret.toNat % 65536, stamp := none } ∧
          { u.tile ((s.slot n).phys t) with hflag := true, engs := x.engs } = x)) := by
  have hstep : step s = .next (s.endHandlerCycle n) := by
    rw [step_of_focus hb hag hfocus, State.runAgent, if_pos hn, State.regionStep_handlers hst hh hpos]
  refine ⟨fun hf => ?_, fun hf ha => ?_⟩
  · rw [State.endHandlerCycle_goes hf] at hstep
    exact ⟨_, hstep, ⟨State.setSlot_slot_same _ _ _, fun m hm => State.setSlot_slot_other _ hm _, rfl⟩⟩
  · obtain ⟨hslot, htold, hm, htile⟩ := State.endHandlerCycle_faults hf ha
    refine ⟨_, hstep, hslot, htold, hm, fun t ht => ?_⟩
    intro x
    have hx : (s.endHandlerCycle n).tile ((s.slot n).phys t) = x.quitHandler := htile t ht
    rw [hx]
    exact ⟨Tile.quitHandler_of_not, Tile.quitHandler_of_flag⟩

/-- Settles O53: the note of a trap, the freeze that writes the records, and the end of a handler cycle. -/
theorem trapRecord : Obligations.TrapRecord := by
  refine ⟨?_, ?_, ?_⟩
  · intro s c op0 op1 tr hc hn hp hs
    rw [State.takeTrap_clocked hc hn hp hs]
    cases op0 <;> rfl
  · intro s n hb hag hfocus hn r trapping able hst hended hheld hpos hapart hsome
    have hmem (t : Nat) : trapping t ↔ t ∈ s.trapTiles n := State.mem_trapTiles.symm
    have hex : ∃ t, t ∈ s.trapTiles n := hsome.imp fun t => (hmem t).mp
    have hstep : step s = .next (s.doneKnown (s.faultFreeze n)) := by
      rw [step_of_focus hb hag hfocus, State.runAgent, if_pos hn, State.regionStep_traps hst hended hheld hpos (State.anyTrap_of hex)]
    obtain ⟨hb', hu⟩ := s.doneKnown_hb (s.faultFreeze n)
    obtain ⟨hslot, htile, hm, htold⟩ := State.faultFreeze_leaves s n hapart
    obtain ⟨hhead, hleast⟩ := State.head_trapTiles hex
    have hable : s.allAble n = true ↔ ∀ t, trapping t → able t := State.allAble_iff.trans (forall_congr' fun t => by rw [hmem t])
    obtain ⟨q, hq⟩ : ∃ q, (s.faultFreeze n).slot n = q := ⟨_, rfl⟩
    rw [hq] at hslot
    have hqs : q.st = .frozen ∧ q.trapped = true ∧ q.frozenAt = r.rcc ∧ q.ftile = (s.trapTiles n).headD 0 ∧ q.handler = s.allAble n ∧
        q.done = true ∧ q.err = if r.done then r.err else 0 := by
      rw [hslot]
      exact ⟨rfl, rfl, rfl, rfl, rfl, rfl, rfl⟩
    obtain ⟨hqst, hqtrapped, hqat, hqtile, hqhandler, hqdone, hqerr⟩ := hqs
    obtain ⟨u, huu⟩ : ∃ u, s.doneKnown (s.faultFreeze n) = u := ⟨_, rfl⟩
    rw [huu] at hstep hu
    have huslot : u.slot n = q := by rw [hu]; exact hq
    have hutile (p : Nat) : u.tile p = (s.faultFreeze n).tile p := by rw [hu]; rfl
    have hucore : u.cores = (s.faultFreeze n).cores := by rw [hu]
    have humem : u.mem = s.mem := by rw [hu]; exact hm
    refine ⟨u, hstep, ?_⟩
    rw [huslot, hqst, hqtrapped, hqat, hqtile, hqhandler, hqdone, hqerr]
    refine ⟨rfl, rfl, rfl, (hmem _).mpr hhead, fun t ht => hleast t ((hmem t).mp ht), hable, ?_, rfl, rfl, fun t x ht hx => ?_, humem⟩
    · intro k hk
      rw [State.core, hucore]
      exact htold k hk
    · intro y
      have hy : y = s.frozenTile n t (s.tileAt n t) := (hutile _).trans (htile t ht)
      obtain ⟨hnow, hcause, htstep, hopd0, hopd1, htret⟩ := State.frozenTile_recorded (s := s) (n := n) (t := t) hx
      rw [hy]
      exact ⟨hnow, hcause, htstep, hopd0, hopd1, htret, State.frozenTile_unhandled hx, fun k ha hk => State.frozenTile_handled hx ha hk⟩
  · intro s n hb hag hfocus hn r hst hh hpos
    obtain ⟨hgoes, hfaults⟩ := handlerCycle_ends hb hag hfocus hn hst hh hpos
    exact ⟨hgoes, hfaults⟩

end Sys2Proof.Proofs
end

section
/-! PROOFS. The control complex (R301, R302, R314 to R316): its event queue, interrupts, walks and shoot-downs. -/

namespace Sys2Proof.Machine
open Sys2Proof.Claims

/-! ### Cores and walkers -/

theorem State.core_setCore_other (s : State) {n m : Nat} (h : m ≠ n) (c : CCore) : (s.setCore n c).core m = s.core m := Store.get_put_other _ _ h _
theorem State.core_setCore_same (s : State) (n : Nat) (c : CCore) : (s.setCore n c).core n = c := Store.get_put_same _ _ _ _
theorem State.walker_setWalker_other (s : State) {n m : Nat} (h : m ≠ n) (c : CCore) : (s.setWalker n c).walker m = s.walker m := Store.get_put_other _ _ h _
theorem State.walker_setWalker_same (s : State) (n : Nat) (c : CCore) : (s.setWalker n c).walker n = c := Store.get_put_same _ _ _ _

/-! ### The event queue and interrupts -/

theorem evqRead_pops (s : State) (k : Nat) {e : Event} {r : List Event} (h : s.evq = e :: r) :
    exec (.evqRead k) s = .next { s with evq := r, evLost := 0 } := by
  show Host.Outcome.next s.evqPop.1 = _
  rw [State.evqPop, h]

theorem CCore.interrupt_of {c : CCore} (h : c.takes = true) :
    c.interrupt = { c with ccret := c.step % 65536, ccCause := 0, ccInt := true, inTrap := true, step := c.ccvec, halted := false } := by
  have hin : c.inTrap = false := by
    simp only [CCore.takes, Bool.and_eq_true, Bool.not_eq_true'] at h
    exact h.1.2
  rw [CCore.interrupt, CCore.trap, hin, if_neg Bool.false_ne_true]
  rfl

theorem ccInterrupt_taken (s : State) {k : Nat} (hk : k < 16) (h : (s.core k).takes = true) :
    exec (.ccInterrupt k) s = .next (s.setCore k (s.core k).interrupt) := by
  refine congrArg Host.Outcome.next (if_pos ?_)
  rw [h, Bool.and_true]
  exact decide_eq_true hk

/-! ### Walks (R314) -/

section
variable {s : State} {n va kind : Nat}

theorem State.startWalk_slot (hn : n < 1344) {d : Nat} (hw : (s.walker d).walking = false) (hf : (s.walker d).failed = false) :
    s.startWalk d n va kind = s.setWalker d { s.walker d with
      g := Store.putL 0 [] 1 [BitVec.ofNat 64 va, BitVec.ofNat 64 kind, BitVec.ofNat 64 ((s.slot n).root * 4096), BitVec.ofNat 64 n], step := Store.get 0 (s.slot n).fmt s.wentry, loops := [], inTrap := false, halted := false, walking := true, walkSlot := n, walkVa := va, walkKind := kind, walkRoot := some (s.slot n).root, walkAt := s.tb, wresp := none, die := d } := by
  have hfree : ((s.walker d).walking || (s.walker d).failed) = false := by rw [hw, hf]; rfl
  simp only [State.startWalk, hfree, Bool.false_eq_true, if_false, if_pos hn]

theorem translationWalk_starts (hn : n < 1344) (h : s.translate n va kind = .miss) :
    exec (.translationWalk n va kind) s = .next (s.startWalk (dieOf ((s.slot n).phys 0)) n va kind) := by
  show execTranslationWalk n va kind s = _
  rw [execTranslationWalk, h, State.walkDie, if_pos hn]

/-- The four operands of a walk, and no other register. -/
theorem walkArgs_get (a b c d : Word) (k : Nat) : Store.get 0 k (Store.putL 0 ([] : Store Word) 1 [a, b, c, d]) =
    if 1 ≤ k ∧ k < 5 then [a, b, c, d].getD (k - 1) 0 else 0 := Store.get_putL_getD _ _ _ _ _
end

/-- What a walk that has ended leaves in the map units: a failure, or the PTE. -/
def State.walkEntry (s : State) (w : CCore) : TlbE :=
  let ok := match w.wresp with
    | some p => pteSize p != 3
    | none => false
  let p := w.wresp.getD 0
  { ctx := w.walkSlot, root := w.walkRoot, va := w.walkVa, size := if ok then pteSize p else 0, pte := p, ok := ok && pteValid p,
    win := if isWindow (pteBase p) then s.winPkg (pteBase p) else none }

theorem State.endWalk_eq (s : State) (d : Nat) : s.endWalk d =
    { s.setWalker d { s.walker d with walking := false, halted := true } with
      tlb := s.walkEntry (s.walker d) :: s.tlb.filter (fun x => x.ctx != (s.walker d).walkSlot || !x.covers (s.walker d).walkVa) } := rfl

theorem pteValid_eq (p : Word) : pteValid p = p.getLsbD 63 := by
  rw [pteValid, bits, pow_one, BitVec.getLsbD, Nat.testBit_eq_decide_div_mod_eq]
  exact beq_eq_decide _ _

theorem TlbE.covers_own (e : TlbE) : e.covers e.va = true := beq_self_eq_true _

/-- What a walk that is over leaves. -/
structure WalkEnds (s t : State) (d : Nat) (e : TlbE) : Prop where
  stops : (t.walker d).walking = false ∧ (t.walker d).halted = true
  tlb : t.tlb = e :: s.tlb.filter (fun x => x.ctx != (s.walker d).walkSlot || !x.covers (s.walker d).walkVa)
  names : e.ctx = (s.walker d).walkSlot ∧ e.root = (s.walker d).walkRoot ∧ e.va = (s.walker d).walkVa
  fails : (s.walker d).wresp = none ∨ (s.walker d).walkAt + 100000 < s.tb → e.ok = false
  maps : ∀ p, (s.walker d).wresp = some p → s.tb ≤ (s.walker d).walkAt + 100000 →
    (pteSize p = 3 → e.ok = false) ∧ (pteSize p ≠ 3 → e.pte = p ∧ e.size = pteSize p ∧ e.ok = p.getLsbD 63)
  kept : t.mem = s.mem ∧ t.tiles = s.tiles ∧ t.slots = s.slots ∧ t.cur = s.cur
  tells : if (s.walker d).walkAt + 100000 < s.tb then told s t 16 else t.cores = s.cores

/-- A walk within its time (R314). -/
theorem State.endWalk_ends (s : State) {d : Nat} (h : ¬ (s.walker d).walkAt + 100000 < s.tb) : WalkEnds s (s.endWalk d) d (s.walkEntry (s.walker d)) where
  stops := by
    have hw : (s.endWalk d).walker d = { s.walker d with walking := false, halted := true } := State.walker_setWalker_same s d _
    rw [hw]
    exact ⟨rfl, rfl⟩
  tlb := rfl
  names := ⟨rfl, rfl, rfl⟩
  fails := by
    rintro (hn | hlate)
    · simp only [State.walkEntry, hn, Bool.false_and]
    · exact absurd hlate h
  maps := fun p hp _ => by
    simp only [State.walkEntry, hp, Option.getD_some]
    refine ⟨fun h3 => ?_, fun h3 => ?_⟩
    · rw [h3]
      rfl
    · rw [bne_iff_ne.mpr h3, Bool.true_and, pteValid_eq]
      exact ⟨trivial, rfl, rfl⟩
  kept := ⟨rfl, rfl, rfl, rfl⟩
  tells := by
    rw [if_neg h]
    rfl

/-- A walk that has run for too long: it fails, and the control cores are told. -/
theorem State.lateWalk_ends (s : State) {d : Nat} (h : (s.walker d).walkAt + 100000 < s.tb) :
    let v := s.setWalker d { s.walker d with wresp := none }
    WalkEnds s ((v.endWalk d).raiseCC ipWalk) d (v.walkEntry (v.walker d)) := by
  intro v
  have hv : v.walker d = { s.walker d with wresp := none } := State.walker_setWalker_same s d _
  have hslot : (v.walker d).walkSlot = (s.walker d).walkSlot := by rw [hv]
  have hva : (v.walker d).walkVa = (s.walker d).walkVa := by rw [hv]
  have hroot : (v.walker d).walkRoot = (s.walker d).walkRoot := by rw [hv]
  have hok : (v.walkEntry (v.walker d)).ok = false := by
    rw [hv]
    rfl
  obtain ⟨u, hu⟩ : ∃ u, v.endWalk d = u := ⟨_, rfl⟩
  have hw : u.walker d = { v.walker d with walking := false, halted := true } := by
    rw [← hu]
    exact State.walker_setWalker_same v d _
  have htlb : u.tlb = v.walkEntry (v.walker d) :: s.tlb.filter (fun x => x.ctx != (s.walker d).walkSlot || !x.covers (s.walker d).walkVa) := by
    rw [← hu, State.endWalk_eq, hslot, hva]
    rfl
  have hkept : u.mem = s.mem ∧ u.tiles = s.tiles ∧ u.slots = s.slots ∧ u.cur = s.cur ∧ u.cores = s.cores := by
    rw [← hu]
    exact ⟨rfl, rfl, rfl, rfl, rfl⟩
  obtain ⟨hmem, htiles, hslots, hcur, hcores⟩ := hkept
  rw [hu]
  exact {
    stops := by
      have hwalker : (u.raiseCC ipWalk).walker d = u.walker d := by simp only [State.raiseCC, State.walker]
      rw [hwalker, hw]
      exact ⟨rfl, rfl⟩
    tlb := by simpa only [State.raiseCC] using htlb
    names := ⟨hslot, hroot, hva⟩
    fails := fun _ => hok
    maps := fun p _ hin => absurd h (Nat.not_lt.mpr hin)
    kept := by simpa only [State.raiseCC] using ⟨hmem, htiles, hslots, hcur⟩
    tells := by
      rw [if_pos h]
      exact told.of_cores (State.raiseCC_told u ipWalk) hcores }

theorem State.stopWalk_ends (s : State) (d : Nat) : ∃ e, WalkEnds s (s.stopWalk d) d e := by
  rw [State.stopWalk, CCore.overdue]
  by_cases h : (s.walker d).walkAt + 100000 < s.tb
  · rw [if_pos (decide_eq_true h)]
    exact ⟨_, s.lateWalk_ends h⟩
  · rw [if_neg (fun hd => h (of_decide_eq_true hd))]
    exact ⟨_, s.endWalk_ends h⟩

/-- HALT of a walker core ends its walk. -/
theorem execHalt_walker {s : State} {k : Nat} (ha : s.cur.agent = .walker k) (hw : (s.walker k).walking = true) :
    execHalt s = .next ((s.stopWalk k).commitScalar {} .fall) := by
  have hu : s.atU = false := by rw [State.atU, ha]
  have hhalt : s.haltCore = s.stopWalk k := by
    simp only [State.haltCore, ha, hw]
    rfl
  rw [execHalt, State.coreOnly_core hu, State.scalarWord_go rfl (by simp [State.scalarGate, hu]) (by rw [State.popFor_none _ _ _ noCtl_pops]), hhalt]

/-- The bookkeeping of a word leaves an ended walk as it is. -/
theorem WalkEnds.commit {s t : State} {k : Nat} {e : TlbE} (h : WalkEnds s t k e) (ha : s.cur.agent = .walker k) (n : Need) (f : Flow) :
    WalkEnds s (t.commitScalar n f) k e := by
  obtain ⟨hmem, htiles, hslots, hcur⟩ := h.kept
  have hat : t.cur.agent = .walker k := by rw [hcur, ha]
  have hu : t.atU = false := by rw [State.atU, hat]
  have hcommit : t.commitScalar n f = t.setWalker k ((t.walker k).commit f t.cur) := by
    rw [State.commitScalar, hu, if_neg Bool.false_ne_true]
    simp only [State.setCcore, State.ccore, hat]
  rw [hcommit]
  have hwalker : (t.setWalker k ((t.walker k).commit f t.cur)).walker k = (t.walker k).commit f t.cur := State.walker_setWalker_same t k _
  exact ⟨by rw [hwalker]; exact h.stops, h.tlb, h.names, h.fails, h.maps, ⟨hmem, htiles, hslots, hcur⟩, h.tells⟩

/-! ### Write-back and shoot-downs (R315, R316) -/

theorem noDirty_of {s u : State} (h : noDirty s) (ht : u.tiles = s.tiles) (hs : u.slots = s.slots) : noDirty u := by
  intro n t
  have heq : u.dirtyVas n t = s.dirtyVas n t := by
    simp only [State.dirtyVas, State.tileAt, State.tile, State.slot, ht, hs]
    rfl
  exact heq.trans (h n t)

theorem State.dirtyMiss_clean {s : State} (h : noDirty s) (want : Nat → Nat → Bool) : s.dirtyMiss want = none := by
  have hempty : (s.slots.flatMap fun e => if e.2.inTiles then (List.range e.2.count).flatMap (fun t =>
      ((s.dirtyVas e.1 t).filter (fun va => want e.1 va && !s.tlb.any (fun x => x.ctx == e.1 && x.covers va))).map (fun va => (e.1, va))) else []) = [] := by
    refine List.flatMap_eq_nil_iff.mpr fun e _ => ?_
    split
    · refine List.flatMap_eq_nil_iff.mpr fun t _ => ?_
      rw [h e.1 t]
      rfl
    · rfl
  rw [State.dirtyMiss, hempty]
  rfl

theorem State.flushTile_clean {s : State} (h : noDirty s) (n t : Nat) (sel : TlbE → Bool) : s.flushTile n t sel = s := by
  rw [State.flushTile]
  refine foldl_of_fixed fun d hd => foldl_of_fixed fun g hg => ?_
  have hnone := List.filterMap_eq_nil_iff.mp (List.flatMap_eq_nil_iff.mp (h n t) d hd) g hg
  have hclean : ((((s.tileAt n t).atCycle).buf d.1).bound && Store.get false (d.2.base + g) ((s.tileAt n t).atCycle).dirty) = false := by
    cases hb : ((((s.tileAt n t).atCycle).buf d.1).bound && Store.get false (d.2.base + g) ((s.tileAt n t).atCycle).dirty)
    · rfl
    · rw [if_pos hb] at hnone
      cases hnone
  exact if_pos (by rw [hclean]; rfl)

theorem State.shoot_clean {s : State} (h : noDirty s) (sel : TlbE → Bool) : s.shoot sel = { s with tlb := s.tlb.filter (fun e => e.ok && !sel e) } := by
  have hfold : s.slots.foldl (fun (u : State) e =>
      if e.2.inTiles then (List.range e.2.count).foldl (fun v t => v.flushTile e.1 t sel) u else u) s = s := by
    refine foldl_of_fixed fun e _ => ?_
    split
    · exact foldl_of_fixed fun t _ => State.flushTile_clean h e.1 t sel
    · rfl
  rw [State.shoot, hfold]

theorem shootdown_starts {s : State} (k : Nat) (h : s.sdgo = false) : exec (.shootdown k) s =
    .next { s with sdgo := true, sdwait := List.range 8, sdNow := (s.sdva, s.sdroot, s.sdsize, s.sdall) } :=
  congrArg Host.Outcome.next (if_neg (ne_true_of_eq_false h))

section
variable {s : State} {k : Nat} (hgo : s.sdgo = true) (hwait : s.sdwait.contains k = true)
include hgo hwait

theorem State.ackShoot_held (h : s.bindsHeld (if 1 < s.sdwait.length then some k else none) = true) : s.ackShoot k = s := by
  rw [State.ackShoot, hgo, hwait, h]
  rfl

section
variable (h : s.bindsHeld (if 1 < s.sdwait.length then some k else none) = false)
include h

theorem State.ackShoot_one (hl : 1 < s.sdwait.length) : s.ackShoot k = { s with sdwait := s.sdwait.filter (fun x => x != k) } := by
  rw [State.ackShoot, hgo, hwait, h]
  exact if_pos hl

theorem State.ackShoot_last (hl : ¬ 1 < s.sdwait.length) (hb : s.betweenCycles = true) (hd : noDirty s) : s.ackShoot k =
    ({ s with tlb := s.tlb.filter (fun e => e.ok && !s.sdSel e), sdgo := false, sdwait := [] } : State).raiseCC ipShoot := by
  rw [State.ackShoot, hgo, hwait, h, if_neg (by decide), if_neg hl, hb, if_neg (by decide), State.dirtyMiss_clean hd, State.shoot_clean hd]
end
end

end Sys2Proof.Machine
end

section
/-! PROOFS. Pages, keys and the accesses of others (R355 to R360, R368 to R370, R378): the commands of the page ownership table, scrubs, keys, and writes from outside. -/

namespace Sys2Proof.Machine
open Sys2Proof.Claims

/-! ### Keys of lines (R359) -/

theorem get_rekeyLine (m : List Host.Cell) (old new l a : Nat) (h : a / 64 ≠ l) : Store.get 0 a (rekeyLine m old new l) = Store.get 0 a m := by
  rw [rekeyLine, Store.get_putL_getD, if_neg]
  rw [List.length_map, List.length_range]
  omega

/-- Lines that are read under another key, where `which` picks them. -/
def rekeyLines (old new : Nat) (which : List Byte → Bool) (ls : List Nat) (m : List Host.Cell) : List Host.Cell :=
  ls.foldl (fun m l => if which (Store.getN 0 m (64 * l) 64) then rekeyLine m old new l else m) m

theorem State.rekey_eq (s : State) (page old new : Nat) (which : List Byte → Bool) :
    s.rekey page old new which = { s with mem := rekeyLines old new which ((List.range 64).map (64 * page + ·)) s.mem } := rfl

section
variable {old new : Nat} {which : List Byte → Bool}

theorem get_rekeyLines_other {a : Nat} : ∀ {ls : List Nat}, a / 64 ∉ ls → ∀ m, Store.get 0 a (rekeyLines old new which ls m) = Store.get 0 a m
  | [], _, _ => rfl
  | l :: ls, h, m => by
    obtain ⟨hl, hls⟩ := not_or.mp (fun hm => h (List.mem_cons.mpr hm))
    rw [rekeyLines, List.foldl_cons]
    refine (get_rekeyLines_other hls _).trans ?_
    split
    · exact get_rekeyLine m old new l a hl
    · rfl

/-- A line of zeros that is not picked stays one. -/
theorem get_rekeyLines_zero {l : Nat} (hw : which (List.replicate 64 0) = false) : ∀ (ls : List Nat) (m : List Host.Cell),
    (∀ i, i < 64 → Store.get 0 (64 * l + i) m = 0) → ∀ i, i < 64 → Store.get 0 (64 * l + i) (rekeyLines old new which ls m) = 0
  | [], _, h => h
  | k :: ls, m, h => by
    rw [rekeyLines, List.foldl_cons]
    refine get_rekeyLines_zero hw ls _ fun i hi => ?_
    by_cases hk : l = k
    · subst hk
      have hzero : Store.getN 0 m (64 * l) 64 = List.replicate 64 0 := by
        rw [Store.getN_eq_map, List.eq_replicate_iff, List.length_map, List.length_range]
        refine ⟨rfl, fun b hb => ?_⟩
        obtain ⟨j, hj, rfl⟩ := List.mem_map.mp hb
        exact h j (List.mem_range.mp hj)
      rw [hzero, hw, if_neg Bool.false_ne_true]
      exact h i hi
    · split
      · rw [get_rekeyLine m old new k _ (by omega)]
        exact h i hi
      · exact h i hi

theorem State.get_rekey_other (s : State) {page a : Nat} (h : a / 4096 ≠ page) : Store.get 0 a (s.rekey page old new which).mem = Store.get 0 a s.mem := by
  refine get_rekeyLines_other (fun hm => ?_) s.mem
  obtain ⟨i, hi, heq⟩ := List.mem_map.mp hm
  rw [List.mem_range] at hi
  omega
end

theorem State.get_rekey_zero (s : State) {page old new l : Nat} {which : List Byte → Bool} (hw : which (List.replicate 64 0) = false)
    (h : ∀ i, i < 64 → Store.get 0 (64 * l + i) s.mem = 0) (i : Nat) (hi : i < 64) : Store.get 0 (64 * l + i) (s.rekey page old new which).mem = 0 :=
  get_rekeyLines_zero hw _ s.mem h i hi

theorem any_nonzero_replicate : (List.replicate 64 (0 : Byte)).any (· != 0) = false := by
  rw [List.any_eq_false]
  intro b hb
  rw [List.eq_of_mem_replicate hb]
  decide

/-! ### The page ownership table (R356, R357) -/

theorem State.potOf_setPot_same (s : State) (p : Nat) (st : PotSt) (w : Nat) : (s.setPot p st w).potOf p = { st := st, world := w } := Store.get_put_same _ _ _ _
theorem State.potSet_setPot {s u : State} (h : u.pot = s.pot) (p : Nat) (st : PotSt) (w : Nat) : potSet s (u.setPot p st w) p { st := st, world := w } := by
  refine ⟨State.potOf_setPot_same u p st w, fun q hq => ?_⟩
  rw [State.potOf, State.potOf, ← h]
  exact Store.get_put_other _ _ hq _

/-- A command of the page ownership table in hand. -/
def State.potTaken (s : State) (op w p : Nat) : State := { s with potBusy := true, potErr := 0, potDone := 0, potCmd := some (op, w, p, 0) }

section
variable {s : State} {op w p : Nat} (hb : s.potBusy = false)
include hb

/-- A command for one page runs at once, where nothing is within a cycle and nothing is to be written back. -/
theorem State.potEvent_runs (hl : (op == 1 || op == 2) = true → s.betweenCycles = true ∧ noDirty s) :
    s.potEvent op w p 0 = { (s.potTaken op w p).potRun op w 1 p with potBusy := false, potCmd := none } := by
  have hstart : s.potStart op w p 0 = s.potTaken op w p := if_neg (ne_true_of_eq_false hb)
  have hcmd : ((s.potTaken op w p).potCmd != some (op, w, p, 0)) = false := bne_self_eq_false _
  rw [State.potEvent, hstart, State.potFinish]
  simp only [hcmd, Bool.false_or]
  cases hop : (op == 1 || op == 2) with
  | false => rfl
  | true =>
    obtain ⟨hbetween, hclean⟩ := hl hop
    have hbetween' : (s.potTaken op w p).betweenCycles = true := hbetween
    rw [hbetween', if_neg (by decide), if_pos rfl, State.dirtyMiss_clean (noDirty_of (u := s.potTaken op w p) hclean rfl rfl)]

theorem State.potEvent_done (hl : (op == 1 || op == 2) = true → s.betweenCycles = true ∧ noDirty s) {u : State}
    (h : (s.potTaken op w p).potPage op w p = .ok u) : s.potEvent op w p 0 = { u with potDone := u.potDone + 1, potErr := 0, potBusy := false, potCmd := none } := by
  rw [State.potEvent_runs hb hl, State.potRun, h]
  rfl

theorem State.potEvent_fails (hl : (op == 1 || op == 2) = false) {c : Nat} (h : (s.potTaken op w p).potPage op w p = .error c) :
    s.potEvent op w p 0 = { s with potErr := c, potDone := 0, potBusy := false, potCmd := none } := by
  rw [State.potEvent_runs hb (fun ht => absurd (hl.symm.trans ht) Bool.false_ne_true), State.potRun, h]
  rfl
end

section
variable {s : State} {w p : Nat} (hb : s.potBusy = false)
include hb

theorem potAssign_done (hf : (s.potOf p).st = .free) (hk : s.keyValid w = true) : ∃ t, exec (.potAssign w p 0) s = .next t ∧ PotEnds t 1 0 ∧
    potSet s t p { st := .assigned, world := w } ∧ (∀ a, w = 0 ∨ a / 4096 ≠ p → Store.get 0 a t.mem = Store.get 0 a s.mem) ∧
    (∀ l, l / 64 = p → (∀ i, i < 64 → Store.get 0 (64 * l + i) s.mem = 0) → ∀ i, i < 64 → Store.get 0 (64 * l + i) t.mem = 0) ∧
    t.tiles = s.tiles ∧ t.slots = s.slots := by
  let v := s.potTaken 0 w p
  let r := if w = 0 then v else v.rekey p (v.keyOf 0) (v.keyOf w) (fun bs => bs.any (· != 0))
  have hpage : v.potPage 0 w p = .ok (r.setPot p .assigned w) := by
    have hst : ((v.potOf p).st != .free) = false := by rw [show (v.potOf p).st = (s.potOf p).st from rfl, hf]; rfl
    have hkey : (!v.keyValid w) = false := by rw [show v.keyValid w = s.keyValid w from rfl, hk]; rfl
    simp only [State.potPage, hst, hkey, Bool.false_eq_true, if_false]
    rfl
  have hexec : exec (.potAssign w p 0) s = .next (s.potEvent 0 w p 0) := rfl
  rw [State.potEvent_done hb (fun h => absurd h (by decide)) hpage] at hexec
  have hr : r = { v with mem := r.mem } := by
    by_cases hw : w = 0
    · simp only [r, if_pos hw]
    · simp only [r, if_neg hw, State.rekey_eq]
  obtain ⟨m, hm⟩ : ∃ m, r.mem = m := ⟨_, rfl⟩
  refine ⟨_, hexec, ?_, ?_, ?_, ?_, ?_, ?_⟩
  · rw [hr]
    exact ⟨⟨rfl, rfl⟩, rfl, rfl⟩
  · have hset := State.potSet_setPot (s := s) (u := r) (by rw [hr]; rfl) p .assigned w
    exact ⟨hset.1, hset.2⟩
  · rintro a (hw | ha)
    · show Store.get 0 a r.mem = _
      simp only [r, if_pos hw]
      rfl
    · show Store.get 0 a r.mem = _
      by_cases hw : w = 0
      · simp only [r, if_pos hw]
        rfl
      · simp only [r, if_neg hw]
        exact State.get_rekey_other v ha
  · intro l _ hz
    show ∀ i, i < 64 → Store.get 0 (64 * l + i) r.mem = 0
    by_cases hw : w = 0
    · simp only [r, if_pos hw]
      exact hz
    · simp only [r, if_neg hw]
      exact State.get_rekey_zero v any_nonzero_replicate hz
  · show r.tiles = s.tiles
    rw [hr]
    rfl
  · show r.slots = s.slots
    rw [hr]
    rfl

theorem potAssign_taken (hf : (s.potOf p).st ≠ .free) : ∃ t, exec (.potAssign w p 0) s = .next t ∧ PotEnds t 0 3 ∧ t.pot = s.pot ∧ t.mem = s.mem := by
  have hpage : (s.potTaken 0 w p).potPage 0 w p = .error 3 := by
    refine if_pos ?_
    rw [show ((s.potTaken 0 w p).potOf p).st = (s.potOf p).st from rfl]
    exact bne_iff_ne.mpr hf
  have hexec : exec (.potAssign w p 0) s = .next (s.potEvent 0 w p 0) := rfl
  rw [State.potEvent_fails hb rfl hpage] at hexec
  exact ⟨_, hexec, ⟨⟨rfl, rfl⟩, rfl, rfl⟩, rfl, rfl⟩

theorem potAssign_unkeyed (hf : (s.potOf p).st = .free) (hk : s.keyValid w = false) :
    ∃ t, exec (.potAssign w p 0) s = .next t ∧ PotEnds t 0 9 ∧ t.pot = s.pot ∧ t.mem = s.mem := by
  have hpage : (s.potTaken 0 w p).potPage 0 w p = .error 9 := by
    have hst : (((s.potTaken 0 w p).potOf p).st != .free) = false := by rw [show ((s.potTaken 0 w p).potOf p).st = (s.potOf p).st from rfl, hf]; rfl
    have hkey : (!(s.potTaken 0 w p).keyValid w) = true := by rw [show (s.potTaken 0 w p).keyValid w = s.keyValid w from rfl, hk]; rfl
    simp only [State.potPage, hst, hkey, Bool.false_eq_true, if_false, if_true]
  have hexec : exec (.potAssign w p 0) s = .next (s.potEvent 0 w p 0) := rfl
  rw [State.potEvent_fails hb rfl hpage] at hexec
  exact ⟨_, hexec, ⟨⟨rfl, rfl⟩, rfl, rfl⟩, rfl, rfl⟩

theorem potUnbounce_done (he : s.potOf p = { st := .bounce, world := w }) : ∃ t, exec (.potUnbounce w p 0) s = .next t ∧ PotEnds t 1 0 ∧
    potSet s t p { st := .assigned, world := w } ∧ t.mem = s.mem := by
  have hpage : (s.potTaken 3 w p).potPage 3 w p = .ok ((s.potTaken 3 w p).setPot p .assigned w) := by
    refine if_pos ?_
    rw [show (s.potTaken 3 w p).potOf p = s.potOf p from rfl, he]
    exact beq_self_eq_true _
  have hexec : exec (.potUnbounce w p 0) s = .next (s.potEvent 3 w p 0) := rfl
  rw [State.potEvent_done hb (fun h => absurd h (by decide)) hpage] at hexec
  have hset := State.potSet_setPot (s := s) (u := s.potTaken 3 w p) rfl p .assigned w
  exact ⟨_, hexec, ⟨⟨rfl, rfl⟩, rfl, rfl⟩, ⟨hset.1, hset.2⟩, rfl⟩

section
variable (he : s.potOf p = { st := .assigned, world := w }) (hbetween : s.betweenCycles = true) (hd : noDirty s) (hsnaps : s.snaps = [])
include he hbetween hd hsnaps

omit he in
/-- A page leaves ASSIGNED: its translations are gone, and nothing else of memory changes (R357). -/
theorem potLeave_done {op : Nat} {st : PotSt} (hop : (s.potTaken op w p).potPage op w p = .ok (((s.potTaken op w p).leavePage p).setPot p st w)) :
    let t := s.potEvent op w p 0
    PotEnds t 1 0 ∧ potSet s t p { st := st, world := w } ∧ (∀ x, x ∈ t.tlb → s.maps x p = false) ∧ t.mem = s.mem := by
  let v := s.potTaken op w p
  have hleave : v.leavePage p = { v with tlb := v.tlb.filter (fun e => e.ok && !v.maps e p) } := by
    rw [State.leavePage, State.freePage_none (s := v) hsnaps, State.shoot_clean (noDirty_of (u := v) hd rfl rfl)]
  intro t
  have ht : t = _ := State.potEvent_done hb (fun _ => ⟨hbetween, hd⟩) hop
  rw [show (s.potTaken op w p).leavePage p = { v with tlb := v.tlb.filter (fun e => e.ok && !v.maps e p) } from hleave] at ht
  rw [ht]
  have hset := State.potSet_setPot (s := s) (u := { v with tlb := v.tlb.filter (fun e => e.ok && !v.maps e p) }) rfl p st w
  refine ⟨⟨⟨rfl, rfl⟩, rfl, rfl⟩, ⟨hset.1, hset.2⟩, fun x hx => ?_, rfl⟩
  have hkeep := List.of_mem_filter (show x ∈ v.tlb.filter (fun e => e.ok && !v.maps e p) from hx)
  rw [Bool.and_eq_true, Bool.not_eq_true'] at hkeep
  exact hkeep.2

theorem potRelease_done : ∃ t, exec (.potRelease w p 0) s = .next t ∧ PotEnds t 1 0 ∧ potSet s t p { st := .scrubbing, world := w } ∧
    (∀ x, x ∈ t.tlb → s.maps x p = false) ∧ t.mem = s.mem := by
  refine ⟨_, rfl, potLeave_done hb hbetween hd hsnaps (op := 1) (if_pos ?_)⟩
  rw [show (s.potTaken 1 w p).potOf p = s.potOf p from rfl, he]
  exact beq_self_eq_true _

theorem potBounce_done (hw : w ≠ 0) : ∃ t, exec (.potBounce w p 0) s = .next t ∧ PotEnds t 1 0 ∧ potSet s t p { st := .bounce, world := w } ∧
    (∀ x, x ∈ t.tlb → s.maps x p = false) ∧ t.mem = s.mem := by
  refine ⟨_, rfl, potLeave_done hb hbetween hd hsnaps (op := 2) (if_pos ?_)⟩
  rw [show (s.potTaken 2 w p).potOf p = s.potOf p from rfl, he, beq_self_eq_true, Bool.true_and]
  exact bne_iff_ne.mpr hw
end
end

/-! ### Scrubs (R369, R370) -/

theorem pageScrub_done {s : State} {p : Nat} (hp : p < potPages) (h : (s.potOf p).st = .scrubbing) :
    ∃ t, exec (.pageScrubComplete p) s = .next t ∧ potSet s t p { st := .free, world := 0 } ∧ t.tiles = s.tiles ∧ t.slots = s.slots ∧
      (∀ l, l / 64 = p → Store.get 0 l t.poison = 0) ∧ ∀ a, Store.get 0 a t.mem = if a / 4096 = p then 0 else Store.get 0 a s.mem := by
  have hgo : ¬ (decide (potPages ≤ p) || (s.potOf p).st != .scrubbing) = true := by
    rw [h, decide_eq_false (Nat.not_le.mpr hp)]
    decide
  have hexec : exec (.pageScrubComplete p) s = .next (s.scrubPage p) := rfl
  rw [State.scrubPage, if_neg hgo] at hexec
  have hset := State.potSet_setPot (s := s)
    (u := { s with mem := Store.delRange (4096 * p) (4096 * p + 4096) s.mem, poison := Store.delRange (64 * p) (64 * p + 64) s.poison }) rfl p .free 0
  refine ⟨_, hexec, hset, rfl, rfl, fun l hl => ?_, fun a => ?_⟩
  · exact (Store.get_delRange 0 _ _ l s.poison).trans (if_pos (by omega))
  · refine (Store.get_delRange 0 _ _ a s.mem).trans ?_
    by_cases ha : a / 4096 = p
    · rw [if_pos ha, if_pos (by omega)]
    · rw [if_neg ha, if_neg (by omega)]

theorem tileScrub_done {s : State} {p : Nat} (h : (s.tile p).scrub.isSome = true) (hh : s.heldTile p = false) :
    exec (.tileScrub p) s = .next (s.setTile p (s.tile p).scrubbed) := by
  refine congrArg Host.Outcome.next (if_neg ?_)
  rw [hh, Option.isNone_eq_false_iff.mpr h]
  decide

end Sys2Proof.Machine
end

section
/-! PROOFS. Keys, error records, and the writes of hosts, packages and guests (R357 to R361, R368, R378). -/

namespace Sys2Proof.Machine
open Sys2Proof.Claims

/-! ### What the completion of a word may touch -/

/-- A state without memory, its errors and records, and without what the agents hold. -/
def State.offWords (s : State) : State :=
  { s with mem := [], poison := [], slots := [], tiles := [], cores := [], walkers := [], tick := 0, errSeq := 0, outbox := [], logq := [] }

theorem State.errorRecord_offWords (s : State) (src : Nat) (unc : Bool) (world addr : Nat) : (s.errorRecord src unc world addr).offWords = s.offWords := by
  simp only [State.errorRecord, State.raiseCC, State.offWords, State.free]

theorem State.foldl_offWords {α : Type} {F : State → α → State} (h : ∀ u a, (F u a).offWords = u.offWords) :
    ∀ (l : List α) (s : State), (l.foldl F s).offWords = s.offWords
  | [], _ => rfl
  | a :: l, s => (State.foldl_offWords h l (F s a)).trans (h s a)

theorem State.meetLine_offWords (s : State) (l : Nat) : (s.meetLine l).offWords = s.offWords :=
  State.errorRecord_offWords _ _ _ _ _

theorem State.fixLines_offWords (s : State) (slot : Option Nat) (pa n : Nat) : (s.fixLines slot pa n).offWords = s.offWords := by
  have hmeet := State.foldl_offWords (F := State.meetLine) State.meetLine_offWords (s.linesIn pa n 1 ++ s.linesIn pa n 3) s
  simp only [State.fixLines]
  split
  · exact hmeet
  · split
    · split
      · exact hmeet
      · exact hmeet
    · exact hmeet

theorem State.ctxWrite_offWords (s : State) (world pa : Nat) (data : List Byte) (bad : List Nat) : (s.ctxWrite world pa data bad).offWords = s.offWords := by
  rw [State.ctxWrite]
  refine State.foldl_offWords (fun u p => ?_) _ s
  split <;> rfl

theorem State.completeTile_offWords (s : State) (n t sw : Nat) (f : Word → Word) : (s.completeTile n t sw f).offWords = s.offWords := by
  rw [State.completeTile]
  split
  · rfl
  · split
    · exact (State.ctxWrite_offWords _ _ _ _ _).trans (State.fixLines_offWords _ _ _ _)
    · rfl

theorem State.completeFor_offWords (s : State) (who : Option (Nat × Nat × Bool)) (code : Nat) : (s.completeFor who code).offWords = s.offWords := by
  unfold State.completeFor
  split
  · rfl
  · split
    · rfl
    · split
      · rfl
      · exact State.completeTile_offWords _ _ _ _ _

/-! ### Keys (R359, R368) -/

section
variable {s : State} {w : Nat} (hb : s.wkBusy = false) (h1 : 1 ≤ w) (h64 : w < 64) (hk : s.keyValid w = false)
include hb h1 h64 hk

theorem keyGen_done (hs : s.scrubbing w = false) : ∃ t, exec (.keyGen w) s = .next t ∧ t.wkErr = 0 ∧ t.keyValid w = true ∧
    Store.get none w t.keys = some (Config.drawnKey s.draws) ∧ t.draws = s.draws + 1 ∧
    (∀ v, v ≠ w → Store.get none v t.keys = Store.get none v s.keys) ∧ t.mem = s.mem := by
  have hexec : exec (.keyGen w) s = .next (s.genKey (if s.wkBusy then s.wkGen else w)) := rfl
  have hrange : ¬ (w = 0 ∨ 64 ≤ w) := by omega
  have hgo : ¬ (s.keyValid w || s.scrubbing w) = true := by rw [hk, hs]; decide
  rw [hb, if_neg Bool.false_ne_true, State.genKey, if_neg (by simpa using hrange), if_neg hgo] at hexec
  have hkey : Store.get none w (Store.put none w (some (Config.drawnKey s.draws)) s.keys) = some (Config.drawnKey s.draws) := Store.get_put_same _ _ _ _
  have hother (v : Nat) (hv : v ≠ w) : Store.get none v (Store.put none w (some (Config.drawnKey s.draws)) s.keys) = Store.get none v s.keys :=
    Store.get_put_other _ _ hv _
  refine ⟨_, hexec, rfl, ?_, hkey, rfl, hother, rfl⟩
  rw [State.keyValid, Bool.or_eq_true]
  exact Or.inr (by rw [hkey]; rfl)

omit hk in
theorem keyGen_busy (hs : s.scrubbing w = true) : exec (.keyGen w) s = .next { s with wkErr := 8, wkBusy := false } := by
  have hexec : exec (.keyGen w) s = .next (s.genKey (if s.wkBusy then s.wkGen else w)) := rfl
  have hrange : ¬ (w = 0 ∨ 64 ≤ w) := by omega
  have hgo : (s.keyValid w || s.scrubbing w) = true := by rw [hs, Bool.or_true]
  rw [hb, if_neg Bool.false_ne_true, State.genKey, if_neg (by simpa using hrange), if_pos hgo] at hexec
  exact hexec
end

/-- The pages of a world that are being scrubbed are read under key 0 from now on. -/
def State.loseKey (s : State) (w : Nat) : State :=
  ((s.pot.filter (fun p => p.2 == { st := .scrubbing, world := w })).map (·.1)).foldl (fun (u : State) p => u.rekey p (u.keyOf w) 0 (fun _ => true)) s

theorem State.loseKey_rest (s : State) (w : Nat) : { s.loseKey w with mem := s.mem } = s := by
  have hfold : ∀ (ps : List Nat) (u : State),
      { ps.foldl (fun (u : State) p => u.rekey p (u.keyOf w) 0 (fun _ => true)) u with mem := s.mem } = { u with mem := s.mem } := by
    intro ps
    induction ps with
    | nil => exact fun _ => rfl
    | cons p ps ih => exact fun u => ih _
  exact hfold _ s

theorem State.loseKey_mem (s : State) {w a : Nat} (h : (a / 4096, ({ st := .scrubbing, world := w } : PotE)) ∉ s.pot) :
    Store.get 0 a (s.loseKey w).mem = Store.get 0 a s.mem := by
  have hfold : ∀ (ps : List Nat), a / 4096 ∉ ps → ∀ u : State,
      Store.get 0 a (ps.foldl (fun (u : State) p => u.rekey p (u.keyOf w) 0 (fun _ => true)) u).mem = Store.get 0 a u.mem := by
    intro ps
    induction ps with
    | nil => exact fun _ _ => rfl
    | cons p ps ih =>
      intro hnot u
      obtain ⟨hp, hps⟩ := not_or.mp (fun hm => hnot (List.mem_cons.mpr hm))
      exact (ih hps _).trans (State.get_rekey_other u hp)
  refine hfold _ (fun hm => ?_) s
  obtain ⟨e, he, hea⟩ := List.mem_map.mp hm
  obtain ⟨hin, hst⟩ := List.mem_filter.mp he
  rw [beq_iff_eq] at hst
  exact h (by rw [← hea, ← hst]; exact hin)

/-- What stands when the key slot of a world has been zeroised, before the word completes. -/
structure KeyLost (s z : State) (w : Nat) (who : Option (Nat × Nat × Bool)) : Prop where
  key : Store.get none w z.keys = none
  zero : Store.get false w z.keysZero = true
  keyz : z.keyz = s.keyz.erase (w, who)
  mem : ∀ a, (a / 4096, ({ st := .scrubbing, world := w } : PotE)) ∉ s.pot → Store.get 0 a z.mem = Store.get 0 a s.mem
  cores : z.cores = s.cores

theorem keyzComplete_completes {s : State} {w : Nat} {who : Option (Nat × Nat × Bool)} (h : s.keyz.find? (fun x => x.1 == w) = some (w, who)) :
    ∃ z, exec (.keyzComplete w) s = .next (z.completeFor who 0) ∧ KeyLost s z w who := by
  obtain ⟨v, hv⟩ : ∃ v, s.loseKey w = v := ⟨_, rfl⟩
  have hexec : exec (.keyzComplete w) s = .next (({ v with
      keyz := v.keyz.erase (w, who), keys := Store.put none w none v.keys, keysZero := Store.put false w true v.keysZero } : State).completeFor who 0) := by
    show Host.Outcome.next (s.keyzDone w) = _
    rw [State.keyzDone, h, ← hv]
    rfl
  have hrest : { v with mem := s.mem } = s := hv ▸ s.loseKey_rest w
  have hkeyz : v.keyz = s.keyz := (congrArg State.keyz hrest :)
  have hcores : v.cores = s.cores := (congrArg State.cores hrest :)
  have hkey : Store.get none w (Store.put none w none v.keys) = none := Store.get_put_same _ _ _ _
  have hzero : Store.get false w (Store.put false w true v.keysZero) = true := Store.get_put_same _ _ _ _
  exact ⟨_, hexec, hkey, hzero, by rw [← hkeyz], fun a ha => hv ▸ s.loseKey_mem ha, hcores⟩

theorem keyzComplete_done {s : State} {w : Nat} {who : Option (Nat × Nat × Bool)} (h : s.keyz.find? (fun x => x.1 == w) = some (w, who)) :
    ∃ t, exec (.keyzComplete w) s = .next t ∧ Store.get none w t.keys = none ∧
      Store.get false w t.keysZero = true ∧ t.keyz = s.keyz.erase (w, who) ∧
      (∀ a, (a / 4096, ({ st := .scrubbing, world := w } : PotE)) ∉ s.pot → who = none → Store.get 0 a t.mem = Store.get 0 a s.mem) ∧
      ∀ k sw ph, who = some (k, sw, ph) → k < 16 → Store.get 0 sw (t.core k).sw = swPerform (Store.get 0 sw (s.core k).sw) ph 1 := by
  obtain ⟨z, hexec, hz⟩ := keyzComplete_completes h
  obtain ⟨t, ht⟩ : ∃ t, z.completeFor who 0 = t := ⟨_, rfl⟩
  have hoff : t.offWords = z.offWords := ht ▸ State.completeFor_offWords z who 0
  rw [ht] at hexec
  have hkeys : t.keys = z.keys := (congrArg State.keys hoff :)
  have hzero : t.keysZero = z.keysZero := (congrArg State.keysZero hoff :)
  have hkeyz : t.keyz = z.keyz := (congrArg State.keyz hoff :)
  refine ⟨t, hexec, hkeys ▸ hz.key, hzero ▸ hz.zero, hkeyz.trans hz.keyz, ?_, ?_⟩
  · rintro a ha rfl
    have htz : z = t := ht
    exact htz ▸ hz.mem a ha
  · rintro k sw ph rfl hk
    have hdone : t = z.setCore k { z.core k with sw := Store.put 0 sw (endWord (Store.get 0 sw (z.core k).sw) ph 0) (z.core k).sw } := ht ▸ if_pos hk
    have hcore : z.core k = s.core k := by rw [State.core, State.core, hz.cores]
    have hend : endWord (Store.get 0 sw (s.core k).sw) ph 0 = swPerform (Store.get 0 sw (s.core k).sw) ph 1 := if_pos rfl
    rw [hdone, State.core_setCore_same, hcore, hend]
    exact Store.get_put_same _ _ _ _

/-! ### Error records (R361) and failed tags (R360) -/

theorem State.errorRecord_recorded (s : State) (src : Nat) (unc : Bool) (world addr : Nat) : recorded s (s.errorRecord src unc world addr) := by
  refine ⟨by simp only [State.errorRecord, State.raiseCC, State.free], ?_, ?_⟩
  · simp only [State.errorRecord, State.raiseCC, State.free]
    exact ⟨_, rfl⟩
  · simp only [State.errorRecord]
    exact told.of_cores (State.raiseCC_told _ ipEcc) rfl

theorem State.errorRecord_kept (s : State) (src : Nat) (unc : Bool) (world addr : Nat) : let t := s.errorRecord src unc world addr
    t.mem = s.mem ∧ t.slots = s.slots ∧ t.poison = s.poison ∧ t.links = s.links ∧ t.retrains = s.retrains := by
  simp only [State.errorRecord, State.raiseCC, State.free, and_self]

theorem linkTagFail_done {s : State} {pa : Nat} (hpa : pa < Config.hbmBytes) (again : Nat) :
    ∃ t, exec (.linkTagFail pa again) s = .next t ∧ recorded s t ∧ t.mem = s.mem ∧ t.slots = s.slots ∧
      (again = 0 → t.poison = s.poison ∧ t.links = s.links ∧ t.retrains = s.retrains) ∧
      (again ≠ 0 → Store.get 0 (pa / 64) t.poison = 2 ∧ t.retrains = s.retrains + 1 ∧
        Store.get (0, 0) (Config.linkOf (pa / 64) % 16) t.links = (Config.drawnKey s.draws, Config.drawnKey (s.draws + 1))) := by
  have hexec : exec (.linkTagFail pa again) s = execLinkTagFail pa again s := rfl
  rw [execLinkTagFail, if_neg (Nat.not_le.mpr hpa)] at hexec
  by_cases ha : again = 0
  · simp only [if_pos ha] at hexec
    obtain ⟨hmem, hslots, hpoison, hlinks, hretrains⟩ := s.errorRecord_kept 8 false (s.potOf (pa / 4096)).world pa
    exact ⟨_, hexec, s.errorRecord_recorded _ _ _ _, hmem, hslots, fun _ => ⟨hpoison, hlinks, hretrains⟩, fun hn => absurd ha hn⟩
  · simp only [if_neg ha] at hexec
    obtain ⟨u, hu⟩ : ∃ u, ({ s with poison := Store.put 0 (pa / 64) 2 s.poison, retrains := s.retrains + 1 } : State).trainLink (Config.linkOf (pa / 64) % 16) = u := ⟨_, rfl⟩
    rw [hu] at hexec
    have hkept : u.errSeq = s.errSeq ∧ u.outbox = s.outbox ∧ u.cores = s.cores ∧ u.mem = s.mem ∧ u.slots = s.slots ∧ u.retrains = s.retrains + 1 := by
      rw [← hu]
      exact ⟨rfl, rfl, rfl, rfl, rfl, rfl⟩
    obtain ⟨hseq, hout, hcores, humem, huslots, huretrains⟩ := hkept
    obtain ⟨hmem, hslots, hpoison, hlinks, hretrains⟩ := u.errorRecord_kept 8 true (s.potOf (pa / 4096)).world pa
    obtain ⟨hrseq, hrout, hrtold⟩ := u.errorRecord_recorded 8 true (s.potOf (pa / 4096)).world pa
    refine ⟨_, hexec, ⟨hseq ▸ hrseq, hout ▸ hrout, told.of_cores hrtold hcores⟩, hmem.trans humem, hslots.trans huslots,
      fun hz => absurd hz ha, fun _ => ⟨?_, hretrains.trans huretrains, ?_⟩⟩
    · have hp : Store.get 0 (pa / 64) (Store.put 0 (pa / 64) 2 s.poison) = 2 := Store.get_put_same _ _ _ _
      rw [hpoison, ← hu]
      exact hp
    · have hl : Store.get (0, 0) (Config.linkOf (pa / 64) % 16)
          (Store.put (0, 0) (Config.linkOf (pa / 64) % 16) (Config.drawnKey s.draws, Config.drawnKey (s.draws + 1)) s.links) =
          (Config.drawnKey s.draws, Config.drawnKey (s.draws + 1)) := Store.get_put_same _ _ _ _
      rw [hlinks, ← hu]
      exact hl

end Sys2Proof.Machine
end

section
/-! PROOFS. The writes and reads of hosts, packages and guests (R357, R358, R378), and the events of the control complex as a whole. -/

namespace Sys2Proof.Machine
open Sys2Proof.Claims

theorem leNat_leBytes : ∀ n v : Nat, leNat (leBytes n v) = v % 256 ^ n
  | 0, v => by rw [leBytes, leNat, pow_zero, Nat.mod_one]
  | n + 1, v => by rw [leBytes, leNat, leNat_leBytes n, BitVec.toNat_ofNat, pow_succ' 256 n, Nat.mod_mul]

/-- Bytes that stand one by one are the list. -/
theorem Store.getN_of_get {m : Store Byte} {a : Nat} {bs : List Byte} (h : ∀ i, i < bs.length → Store.get 0 (a + i) m = bs.getD i 0) :
    Store.getN 0 m a bs.length = bs := by
  rw [Store.getN_eq_map]
  refine List.ext_getElem (by rw [List.length_map, List.length_range]) fun i h1 h2 => ?_
  rw [List.getElem_map, List.getElem_range, h i h2, List.getD_eq_getElem]

theorem State.wrPhys_wrote (s : State) (pa : Nat) (data : List Byte) (bad : List Nat) : wrote s.mem (s.wrPhys pa data bad).mem pa data := fun k => by
  rw [State.wrPhys_mem, Store.get_putL_getD]

theorem State.freePages_none {s : State} (h : s.snaps = []) (pa n : Nat) : s.freePages pa n = s :=
  foldl_of_fixed fun page _ => State.freePage_none h page

/-- A write whose range lies in this package's HBM as one piece is performed at once, where no page is SNAPPED. -/
theorem State.gwrite_lies {s : State} {ctx va pa : Nat} {data : List Byte} (h : lies s ctx va data.length kWrite pa) (hs : s.snaps = []) (die : Nat) :
    s.gwrite die ctx va data [] = (s.syeWrite pa data [], .done []) := by
  obtain ⟨hrange, hwin⟩ := h
  have hsnapped : s.snapped (pa / 4096) = false := by rw [State.snapped, hs]; rfl
  simp only [State.gwrite, hrange, List.filter_cons, List.filter_nil, hwin, hsnapped, Bool.not_false, Bool.and_false, Bool.false_eq_true, if_false,
    List.map_nil, State.writePieces, List.take_length, if_true]

theorem uecDataWrite_done {s : State} {vif va pa : Nat} {data : List Byte} (hp : 2 ≤ s.phase) (hen : (s.vifOf vif).en = false) (hs : s.snaps = [])
    (h : lies s (vifCtx vif) va data.length kWrite pa) :
    ∃ t, exec (.uecDataWrite vif va data) s = .next t ∧ wrote s.mem t.mem pa data ∧ t.outbox = s.outbox ++ [.uec vif true 0] := by
  have hserves : (!s.serves) = false := by rw [State.serves, decide_eq_true hp]; rfl
  have hwrite : s.hostWrite vif va data = ((s.syeWrite pa data []).answer vif true 0, true) := by
    rw [State.hostWrite, hserves, if_neg Bool.false_ne_true, State.gwrite_lies h hs]
  have hexec : exec (.uecDataWrite vif va data) s = execUecDataWrite vif va data s := rfl
  rw [execUecDataWrite, hen, Bool.false_and, if_neg Bool.false_ne_true, hwrite] at hexec
  exact ⟨_, hexec, s.wrPhys_wrote pa data [], rfl⟩

section
variable {s : State} {w pa : Nat} {data : List Byte}

theorem fabric_refused (h : s.ownsAll w pa data.length = false) (write : Nat) : exec (.fabricWindowAccess w pa write data) s =
    .next { s with outbox := s.outbox ++ [.message 0 2 pa [BitVec.ofNat 8 3]] } := by
  refine congrArg Host.Outcome.next (if_pos ?_)
  rw [h]
  rfl

theorem fabric_write (h : s.ownsAll w pa data.length = true) (hs : s.snaps = []) : exec (.fabricWindowAccess w pa 1 data) s =
    .next { s.syeWrite pa data [] with outbox := s.outbox ++ [.message 0 2 pa [BitVec.ofNat 8 0]] } := by
  have hexec : exec (.fabricWindowAccess w pa 1 data) s = execFabricWindowAccess w pa 1 data s := rfl
  simp only [execFabricWindowAccess, h, State.freePages_none hs, Bool.not_true, Bool.false_eq_true, if_false, if_true] at hexec
  exact hexec

theorem fabric_read (h : s.ownsAll w pa data.length = true) (hp : s.poison = []) : exec (.fabricWindowAccess w pa 0 data) s =
    .next { s with outbox := s.outbox ++ [.message 0 2 pa (BitVec.ofNat 8 0 :: Store.getN 0 s.mem pa data.length)] } := by
  have hexec : exec (.fabricWindowAccess w pa 0 data) s = execFabricWindowAccess w pa 0 data s := rfl
  have hread : s.readAt pa data.length = (s, some (s.rdPhys pa data.length)) := by
    simp only [State.readAt, State.fixLines_clean hp, State.linesIn_clean hp]
    rfl
  simp only [execFabricWindowAccess, h, hread, Bool.not_true, Bool.false_eq_true, if_false, zero_ne_one] at hexec
  exact hexec
end

/-! ### Guest tables (R358) -/

/-- The merged tables take the guest's word: only pages of world 0 change. -/
structure Merges (s t : State) : Prop where
  rest : { t with mem := s.mem, poison := s.poison } = s
  mem : ∀ a, s.potOf (a / 4096) ≠ { st := .assigned, world := 0 } → Store.get 0 a t.mem = Store.get 0 a s.mem

theorem Merges.trans {s t u : State} (h : Merges s t) (g : Merges t u) : Merges s u := by
  have hpot : t.pot = s.pot := (congrArg State.pot h.rest :)
  refine ⟨?_, fun a ha => ?_⟩
  · have := congrArg (fun v : State => { v with mem := s.mem, poison := s.poison }) g.rest
    exact this.trans h.rest
  · rw [g.mem a (by rw [State.potOf, hpot]; exact ha), h.mem a ha]

theorem State.ownedPage_pot {s : State} {w a : Nat} (h : s.ownedPage w a = true) : s.potOf (a / 4096) = { st := .assigned, world := w } := by
  rw [State.ownedPage, Bool.and_eq_true, beq_iff_eq] at h
  exact h.2

theorem State.mergeWord_merges (s : State) (hs : s.snaps = []) (pa v r : Nat) : Merges s (s.mergeWord pa v r) := by
  simp only [State.mergeWord]
  split
  · exact ⟨rfl, fun _ _ => rfl⟩
  · next hgo =>
    rw [Bool.or_eq_true, not_or, Bool.not_eq_true, bne_eq_false_iff_eq, Bool.not_eq_true, Bool.not_eq_false'] at hgo
    obtain ⟨h8, howned⟩ := hgo
    rw [State.freePages_none hs]
    refine ⟨rfl, fun a ha => ?_⟩
    rw [State.wrPhys_wrote, if_neg]
    rintro ⟨hlo, hhi⟩
    have hlen : (b8 (Config.mergedWord r pa v).toNat).length = 8 := length_leBytes 8 _
    rw [hlen] at hhi
    have hpage : a / 4096 = Config.mergedAt r pa / 4096 := by omega
    exact ha (hpage ▸ State.ownedPage_pot howned)

theorem State.mergeWords_merge (pa v : Nat) : ∀ (rs : List Nat) (s : State), s.snaps = [] → Merges s (rs.foldl (fun (u : State) r => u.mergeWord pa v r) s)
  | [], _, _ => ⟨rfl, fun _ _ => rfl⟩
  | r :: rs, s, hs => by
    have h := s.mergeWord_merges hs pa v r
    have hs' : (s.mergeWord pa v r).snaps = [] := (congrArg State.snaps h.rest :).trans hs
    exact h.trans (State.mergeWords_merge pa v rs _ hs')

/-- The contexts of a VIF. -/
def State.ofVif (s : State) (vif ctx : Nat) : Bool := ctx == vifCtx vif || (s.vifSlots vif).any (fun e => e.1 == ctx)

theorem State.ofVif_eq_false (s : State) (vif ctx : Nat) : s.ofVif vif ctx = false ↔ ctx ≠ vifCtx vif ∧ ∀ n, n ∈ (s.vifSlots vif).map (·.1) → ctx ≠ n := by
  rw [State.ofVif, Bool.or_eq_false_iff, beq_eq_false_iff_ne, List.any_eq_false]
  refine and_congr_right fun _ => ?_
  simp only [List.mem_map, beq_iff_eq]
  constructor
  · rintro h n ⟨e, he, rfl⟩ hc
    exact h e he hc.symm
  · intro h e he hc
    exact h e.1 ⟨e, he, rfl⟩ hc.symm

theorem guestTableChange_done {s : State} {vif pa v : Nat} (hp : 2 ≤ s.phase) (h8 : pa % 8 = 0) (hw : (s.vifOf vif).world ≠ 0)
    (howned : s.ownedPage (s.vifOf vif).world pa = true) (hs : s.snaps = []) (hb : s.betweenCycles = true) (hd : noDirty s) :
    ∃ t, exec (.guestTableChange vif pa v) s = .next t ∧ word t.mem pa 8 = v % 2 ^ 64 ∧
      (∀ a, s.potOf (a / 4096) ≠ { st := .assigned, world := 0 } → ¬ (pa ≤ a ∧ a < pa + 8) → Store.get 0 a t.mem = Store.get 0 a s.mem) ∧
      (∀ e, e ∈ t.tlb ↔ e ∈ s.tlb ∧ e.ok = true ∧ e.ctx ≠ vifCtx vif ∧ ∀ n, n ∈ (s.vifSlots vif).map (·.1) → e.ctx ≠ n) ∧
      t.outbox = s.outbox ++ [.uec vif true 0] := by
  have hserves : (!s.serves) = false := by rw [State.serves, decide_eq_true hp]; rfl
  have hpass : (pa % 8 != 0 || !s.ownedPage (s.vifOf vif).world pa) = false := by rw [h8, howned]; rfl
  let s1 := s.wrPhys pa (b8 v) []
  have hmerge := State.mergeWords_merge pa v (s.vifRoots vif) s1 hs
  obtain ⟨u, hu⟩ : ∃ u, (s.vifRoots vif).foldl (fun (u : State) r => u.mergeWord pa v r) s1 = u := ⟨_, rfl⟩
  rw [hu] at hmerge
  have htiles : u.tiles = s.tiles := (congrArg State.tiles hmerge.rest :)
  have hslots : u.slots = s.slots := (congrArg State.slots hmerge.rest :)
  have htlb : u.tlb = s.tlb := (congrArg State.tlb hmerge.rest :)
  have hout : u.outbox = s.outbox := (congrArg State.outbox hmerge.rest :)
  have hexec : exec (.guestTableChange vif pa v) s = .next ((u.shoot (fun e => s.ofVif vif e.ctx)).answer vif true 0) := by
    rw [← hu]
    show execGuestTableChange vif pa v s = _
    simp only [execGuestTableChange, hserves, hpass, hb, Bool.not_true, Bool.false_eq_true, if_false, State.dirtyMiss_clean hd, State.freePages_none hs]
    rfl
  rw [State.shoot_clean (noDirty_of hd htiles hslots)] at hexec
  have hlen : (b8 v).length = 8 := length_leBytes 8 v
  have hkeeps (a : Nat) (ha : s.potOf (a / 4096) ≠ { st := .assigned, world := 0 }) :
      Store.get 0 a u.mem = if pa ≤ a ∧ a < pa + 8 then (b8 v).getD (a - pa) 0 else Store.get 0 a s.mem := by
    rw [hmerge.mem a ha, show s1.mem = (s.wrPhys pa (b8 v) []).mem from rfl, State.wrPhys_wrote, hlen]
  refine ⟨_, hexec, ?_, fun a ha hn => (hkeeps a ha).trans (if_neg hn), fun e => ?_, congrArg (· ++ [Out.uec vif true 0]) hout⟩
  · have hread : Store.getN 0 u.mem pa (b8 v).length = b8 v := Store.getN_of_get fun i hi => by
      rw [hlen] at hi
      have hpage : (pa + i) / 4096 = pa / 4096 := by omega
      have hpot : s.potOf ((pa + i) / 4096) ≠ { st := .assigned, world := 0 } := by
        rw [hpage, State.ownedPage_pot howned]
        exact fun he => hw (congrArg PotE.world he)
      rw [hkeeps _ hpot, if_pos ⟨by omega, by omega⟩, Nat.add_sub_cancel_left]
    rw [hlen] at hread
    show leNat (Store.getN 0 u.mem pa 8) = _
    rw [hread, b8, leNat_leBytes]
    rfl
  · show e ∈ u.tlb.filter (fun e => e.ok && !s.ofVif vif e.ctx) ↔ _
    rw [List.mem_filter, htlb, Bool.and_eq_true, Bool.not_eq_true', State.ofVif_eq_false]

end Sys2Proof.Machine

namespace Sys2Proof.Proofs
open Sys2Proof.Machine Sys2Proof.Claims

theorem translationWalk_done {s : State} {n va kind : Nat} (hn : n < 1344) (h : s.translate n va kind = .miss) : let d := dieOf ((s.slot n).phys 0)
    (s.walker d).walking = false → (s.walker d).failed = false → ∃ t, exec (.translationWalk n va kind) s = .next t ∧
      { t with walkers := s.walkers } = s ∧ (∀ j, j ≠ d → t.walker j = s.walker j) ∧
      let w := t.walker d
      w.walking = true ∧ w.halted = false ∧ w.inTrap = false ∧ w.loops = [] ∧ w.walkSlot = n ∧ w.walkVa = va ∧ w.walkKind = kind ∧ w.wresp = none ∧
      w.step = Store.get 0 (s.slot n).fmt s.wentry ∧ Store.get 0 1 w.g = BitVec.ofNat 64 va ∧ Store.get 0 2 w.g = BitVec.ofNat 64 kind ∧
      Store.get 0 3 w.g = BitVec.ofNat 64 ((s.slot n).root * 4096) ∧ Store.get 0 4 w.g = BitVec.ofNat 64 n ∧
      (∀ g, g = 0 ∨ 5 ≤ g → Store.get 0 g w.g = 0) ∧ w.walkAt = s.tb := by
  intro d hw hf
  have hexec := translationWalk_starts hn h
  rw [State.startWalk_slot hn hw hf] at hexec
  refine ⟨_, hexec, rfl, fun j hj => State.walker_setWalker_other _ hj _, ?_⟩
  intro w
  have hws : w = _ := State.walker_setWalker_same s d _
  rw [hws]
  refine ⟨rfl, rfl, rfl, rfl, rfl, rfl, rfl, rfl, rfl, walkArgs_get _ _ _ _ 1, walkArgs_get _ _ _ _ 2, walkArgs_get _ _ _ _ 3, walkArgs_get _ _ _ _ 4,
    fun g hg => (walkArgs_get _ _ _ _ g).trans (if_neg (by omega)), rfl⟩

theorem walkWatchdog_waits {s : State} {k : Nat} (hin : s.tb ≤ (s.walker k).walkAt + 100000) : exec (.walkWatchdog k) s = .next s := by
  refine congrArg Host.Outcome.next (if_neg ?_)
  rw [CCore.overdue, decide_eq_false (Nat.not_lt.mpr hin), Bool.and_false]
  exact Bool.false_ne_true

theorem walkWatchdog_ends {s : State} {k : Nat} (hw : (s.walker k).walking = true) (hlate : (s.walker k).walkAt + 100000 < s.tb) :
    ∃ t e r, exec (.walkWatchdog k) s = .next t ∧ (t.walker k).walking = false ∧ (t.walker k).halted = true ∧
      t.tlb = e :: r ∧ e.ctx = (s.walker k).walkSlot ∧ e.covers (s.walker k).walkVa = true ∧ e.ok = false ∧ told s t 16 ∧ t.mem = s.mem := by
  obtain ⟨e, h⟩ := s.stopWalk_ends k
  obtain ⟨hctx, _, hva⟩ := h.names
  have htells := h.tells
  rw [if_pos hlate] at htells
  refine ⟨s.stopWalk k, e, _, congrArg Host.Outcome.next (if_pos ?_), h.stops.1, h.stops.2, h.tlb, hctx, hva ▸ e.covers_own, h.fails (Or.inr hlate), htells, h.kept.1⟩
  rw [hw, CCore.overdue, decide_eq_true hlate]
  rfl

theorem halt_endsWalk {s : State} {k : Nat} (ha : s.cur.agent = .walker k) (hw : (s.walker k).walking = true) :
    ∃ t e, exec .halt s = .next t ∧ (t.walker k).walking = false ∧ (t.walker k).halted = true ∧
      let w := s.walker k
      e.ctx = w.walkSlot ∧ e.root = w.walkRoot ∧ e.va = w.walkVa ∧
      (w.wresp = none ∨ w.walkAt + 100000 < s.tb → e.ok = false) ∧
      (∀ p, w.wresp = some p → s.tb ≤ w.walkAt + 100000 → (pteSize p = 3 → e.ok = false) ∧ (pteSize p ≠ 3 → e.pte = p ∧ e.size = pteSize p ∧ e.ok = p.getLsbD 63)) ∧
      (∀ x, x ∈ t.tlb ↔ x = e ∨ x ∈ s.tlb ∧ ¬ (x.ctx = e.ctx ∧ x.covers e.va = true)) ∧
      t.mem = s.mem ∧ t.tiles = s.tiles ∧ t.slots = s.slots ∧ if w.walkAt + 100000 < s.tb then told s t 16 else t.cores = s.cores := by
  obtain ⟨e, h0⟩ := s.stopWalk_ends k
  have h := h0.commit ha {} .fall
  obtain ⟨hctx, hroot, hva⟩ := h.names
  obtain ⟨hmem, htiles, hslots, _⟩ := h.kept
  refine ⟨_, e, execHalt_walker ha hw, h.stops.1, h.stops.2, hctx, hroot, hva, h.fails, h.maps, fun x => ?_, hmem, htiles, hslots, h.tells⟩
  rw [h.tlb, List.mem_cons, List.mem_filter, hctx, hva, Bool.or_eq_true, bne_iff_ne, Bool.not_eq_true', ← Bool.not_eq_true]
  tauto

theorem shootdownAck_done {s : State} {k : Nat} (hgo : s.sdgo = true) (hwait : s.sdwait.contains k = true) :
    let held := s.bindsHeld (if 1 < s.sdwait.length then some k else none)
    (held = true → exec (.shootdownAck k) s = .next s) ∧
    (held = false → 1 < s.sdwait.length → exec (.shootdownAck k) s = .next { s with sdwait := s.sdwait.filter (fun x => x != k) }) ∧
    (held = false → s.sdwait.length ≤ 1 → s.betweenCycles = true → noDirty s → ∃ t, exec (.shootdownAck k) s = .next t ∧
      (∀ e, e ∈ t.tlb ↔ e ∈ s.tlb ∧ e.ok = true ∧ s.sdSel e = false) ∧ t.sdgo = false ∧ t.sdwait = [] ∧ told s t 8 ∧ t.mem = s.mem ∧ t.tiles = s.tiles) := by
  refine ⟨fun hh => congrArg Host.Outcome.next (State.ackShoot_held hgo hwait hh), fun hh hl => congrArg Host.Outcome.next (State.ackShoot_one hgo hwait hh hl),
    fun hh hl hb hd => ?_⟩
  refine ⟨_, congrArg Host.Outcome.next (State.ackShoot_last hgo hwait hh (Nat.not_lt.mpr hl) hb hd), fun e => ?_, ?_⟩
  · simp only [State.raiseCC]
    rw [List.mem_filter, Bool.and_eq_true, Bool.not_eq_true']
  · obtain ⟨u, hu⟩ : ∃ u : State, ({ s with tlb := s.tlb.filter (fun e => e.ok && !s.sdSel e), sdgo := false, sdwait := [] } : State) = u := ⟨_, rfl⟩
    have hkept : u.sdgo = false ∧ u.sdwait = [] ∧ u.mem = s.mem ∧ u.tiles = s.tiles ∧ u.cores = s.cores := by
      rw [← hu]
      exact ⟨rfl, rfl, rfl, rfl, rfl⟩
    obtain ⟨hsd, hsw, hmem, htiles, hcores⟩ := hkept
    rw [hu]
    exact ⟨by simpa only [State.raiseCC] using hsd, by simpa only [State.raiseCC] using hsw, told.of_cores (State.raiseCC_told u ipShoot) hcores,
      (State.raiseCC_mem u ipShoot).trans hmem, by simpa only [State.raiseCC] using htiles⟩

/-- Settles O56, event by event. -/
theorem complexEvents : Obligations.ComplexEvents := by
  intro s
  refine ⟨fun k e r h => evqRead_pops s k h, fun k hk h => ?_, fun n va kind hn h => translationWalk_done hn h, fun k _ hin => walkWatchdog_waits hin,
    fun k hw hl => walkWatchdog_ends hw hl, fun k ha hw => halt_endsWalk ha hw, fun k h => shootdown_starts k h, fun k hgo hwait => shootdownAck_done hgo hwait, fun w p hb => ?_,
    fun p hp h => pageScrub_done hp h, fun p h hh => ?_, fun w hb h1 h64 hk => ⟨keyGen_done hb h1 h64 hk, keyGen_busy hb h1 h64⟩, fun w who h => keyzComplete_done h,
    fun pa again hpa => linkTagFail_done hpa again, fun vif va data pa hp hen hs h => uecDataWrite_done hp hen hs h, fun w pa data => ?_,
    fun vif pa v hp h8 hw howned hs hb hd => guestTableChange_done hp h8 hw howned hs hb hd⟩
  · refine ⟨_, ccInterrupt_taken s hk h, rfl, fun j hj => State.core_setCore_other s hj _, ?_⟩
    rw [State.core_setCore_same, CCore.interrupt_of h]
  · refine ⟨potAssign_done hb, potAssign_taken hb, potAssign_unkeyed hb, potUnbounce_done hb, fun he hbetween hd hs => ⟨potRelease_done hb he hbetween hd hs,
      potBounce_done hb he hbetween hd hs⟩⟩
  · have hoff (x : Tile) : (s.setTile p x).offTiles = s.offTiles := rfl
    have htile := State.setTile_tile_same s p (s.tile p).scrubbed
    rw [Tile.scrubbed] at htile
    exact ⟨_, _, tileScrub_done h hh, htile, fun q hq => State.setTile_tile_other s hq _, hoff _⟩
  · intro answers
    exact ⟨fun h write => ⟨_, fabric_refused h write, rfl, rfl⟩, fun h hs => ⟨_, fabric_write h hs, rfl, s.wrPhys_wrote pa data []⟩,
      fun h hp => ⟨_, fabric_read h hp, rfl, rfl⟩⟩

end Sys2Proof.Proofs
end

section
/-! PROOFS. Attestation (R362 to R365): what a request of a session does, and every response with what the session then holds. -/

namespace Sys2Proof.Machine
open Sys2Proof.Claims

theorem State.vifOf_setVif_same (s : State) (v : Nat) (x : Vif) : (s.setVif v x).vifOf v = x := Store.get_put_same _ _ _ _
theorem State.vifOf_setVif_other (s : State) {v w : Nat} (h : w ≠ v) (x : Vif) : (s.setVif v x).vifOf w = s.vifOf w := Store.get_put_other _ _ h _

/-- A state in which the session of a VIF is `x`, and where else at most keys have been drawn. -/
structure Session (s u : State) (vif : Nat) (x : Spdm) : Prop where
  session : u.spdm vif = x
  fields : { u.vifOf vif with spdm := (s.vifOf vif).spdm } = s.vifOf vif
  others : ∀ v, v ≠ vif → u.vifOf v = s.vifOf v
  out : u.outbox = s.outbox
  rest : { u with vifs := [], outbox := [], draws := 0 } = { s with vifs := [], outbox := [], draws := 0 }

namespace Session
variable {s u : State} {vif : Nat} {x : Spdm}

theorem refl (s : State) (vif : Nat) : Session s s vif (s.spdm vif) := ⟨rfl, rfl, fun _ _ => rfl, rfl, rfl⟩

theorem set (h : Session s u vif x) (y : Spdm) : Session s (u.setSpdm vif y) vif y := by
  have hvif : (u.setSpdm vif y).vifOf vif = { u.vifOf vif with spdm := y } := State.vifOf_setVif_same _ _ _
  refine ⟨?_, ?_, fun v hv => (State.vifOf_setVif_other _ hv _).trans (h.others v hv), h.out, h.rest⟩
  · rw [State.spdm, hvif]
  · rw [hvif]
    exact h.fields

theorem draw (h : Session s u vif x) (d : Nat) : Session s { u with draws := d } vif x := ⟨h.session, h.fields, h.others, h.out, h.rest⟩

/-- The response joins the transcript and goes out. -/
theorem replies {y : Spdm} {t0 : List Nat} (h : Session s u vif { y with transcript := t0 }) (code : Nat) (data : List Byte) :
    Replies s (u.reply vif code data) vif code t0 data y := by
  obtain ⟨hsession, hfields, hothers, hout, hrest⟩ := h.set { y with transcript := t0 ++ code :: data.map (·.toNat) }
  have hreply : u.reply vif code data = (u.setSpdm vif { y with transcript := t0 ++ code :: data.map (·.toNat) }).send [.spdm vif code data] := by
    simp only [State.reply, h.session, Bool.false_eq_true, if_false]
  rw [hreply]
  exact ⟨hsession, hfields, hothers, congrArg (· ++ [Out.spdm vif code data]) hout, hrest⟩

theorem repliesSigned {y : Spdm} {t0 : List Nat} (h : Session s u vif { y with transcript := t0 }) (code : Nat) (body : List Byte) :
    Replies s (u.reply vif code body true) vif code t0 (signed t0 code body) y := by
  obtain ⟨hsession, hfields, hothers, hout, hrest⟩ := h.set { y with transcript := t0 ++ code :: (signed t0 code body).map (·.toNat) }
  have hreply : u.reply vif code body true =
      (u.setSpdm vif { y with transcript := t0 ++ code :: (signed t0 code body).map (·.toNat) }).send [.spdm vif code (signed t0 code body)] := by
    simp only [State.reply, h.session, if_true, signed]
  rw [hreply]
  exact ⟨hsession, hfields, hothers, congrArg (· ++ [Out.spdm vif code (signed t0 code body)]) hout, hrest⟩
end Session

/-- A response leaves all but the session and what goes out. -/
theorem State.reply_rest (s : State) (vif code : Nat) (data : List Byte) :
    { s.reply vif code data with vifs := s.vifs, outbox := s.outbox } = s ∧ (s.reply vif code data).outbox = s.outbox ++ [.spdm vif code data] := by
  simp only [State.reply, State.setSpdm, State.setVif, State.send, Bool.false_eq_true, if_false, and_self]

theorem State.reply_session (s : State) (vif code : Nat) (data : List Byte) : ((s.reply vif code data).spdm vif).session = (s.spdm vif).session := by
  have hvif : (s.reply vif code data).vifOf vif = { s.vifOf vif with spdm := { s.spdm vif with transcript := (s.spdm vif).transcript ++ code :: data.map (·.toNat) } } :=
    State.vifOf_setVif_same s vif _
  rw [State.spdm, hvif]

/-! ### Requests -/

/-- The session of a request that has joined the transcript. -/
def State.hears (s : State) (vif code arg : Nat) : Spdm := { s.spdm vif with transcript := heard s vif code arg }

section
variable {s : State} (hp : 2 ≤ s.phase)
include hp

theorem State.serves_of : (!s.serves) = false := by
  rw [State.serves, decide_eq_true hp]
  rfl

variable {vif code arg : Nat} {ok : Spdm → Bool} {err : Nat} {act : State → Spdm → State}

theorem State.request_admitted (h : ok (s.spdm vif) = true) :
    s.request vif code arg ok err act = act (s.setSpdm vif (s.hears vif code arg)) (s.hears vif code arg) := by
  rw [State.request, State.serves_of hp, if_neg Bool.false_ne_true, h, if_neg (by decide)]
  rfl

theorem State.request_refused (h : ok (s.spdm vif) = false) :
    s.request vif code arg ok err act = { s with outbox := s.outbox ++ [.spdm vif 0x7F [BitVec.ofNat 8 err]] } := by
  rw [State.request, State.serves_of hp, if_neg Bool.false_ne_true, h, if_pos (show (!false) = true from rfl)]
  rfl
end

theorem State.hears_session (s : State) (vif code arg : Nat) : Session s (s.setSpdm vif (s.hears vif code arg)) vif (s.hears vif code arg) :=
  (Session.refl s vif).set _

section
variable {s : State} (hp : 2 ≤ s.phase) {vif code arg err : Nat} {ok : Spdm → Bool} (h : ok (s.spdm vif) = true)
include hp h

/-- A request that leaves the session as it is, but for the transcript. -/
theorem request_replies {rc : Nat} {data : List Byte} {act : State → Spdm → State} (ha : ∀ u, act u (s.hears vif code arg) = u.reply vif rc data) :
    ∃ t, s.request vif code arg ok err act = t ∧ Replies s t vif rc (heard s vif code arg) data (s.spdm vif) ∧ t.draws = s.draws + 0 := by
  refine ⟨_, State.request_admitted hp h, ?_⟩
  rw [ha]
  exact ⟨(s.hears_session vif code arg).replies rc data, rfl⟩

/-- A request whose response changes the session to one that `y` gives. -/
theorem request_changes {rc : Nat} {data : List Byte} {y : Spdm} {act : State → Spdm → State}
    (ha : ∀ u, act u (s.hears vif code arg) = (u.setSpdm vif { y with transcript := heard s vif code arg }).reply vif rc data) :
    ∃ t, s.request vif code arg ok err act = t ∧ Replies s t vif rc (heard s vif code arg) data y ∧ t.draws = s.draws + 0 := by
  refine ⟨_, State.request_admitted hp h, ?_⟩
  rw [ha]
  exact ⟨((s.hears_session vif code arg).set { y with transcript := heard s vif code arg }).replies rc data, rfl⟩

/-- A request with a signed response. -/
theorem request_signs {rc : Nat} {body : List Byte} {act : State → Spdm → State}
    (ha : ∀ x, act (s.setSpdm vif (s.hears vif code arg)) x = (s.setSpdm vif (s.hears vif code arg)).reply vif rc body true) :
    ∃ t, s.request vif code arg ok err act = t ∧ Replies s t vif rc (heard s vif code arg) (signed (heard s vif code arg) rc body) (s.spdm vif) ∧
      t.draws = s.draws + 0 := by
  refine ⟨_, State.request_admitted hp h, ?_⟩
  rw [ha]
  exact ⟨(s.hears_session vif code arg).repliesSigned rc body, rfl⟩
end

/-! ### Deposits and keys of bounce channels (R365) -/

theorem State.translateRange_congr {s u : State} {ctx kind : Nat} (h : ∀ va, u.translate ctx va kind = s.translate ctx va kind) (va n : Nat) :
    u.translateRange ctx va n kind = s.translateRange ctx va n kind := by
  have hpieces : ∀ ps, u.translatePieces ctx kind ps = s.translatePieces ctx kind ps := by
    intro ps
    induction ps with
    | nil => rfl
    | cons p ps ih => rw [State.translatePieces, State.translatePieces, h, ih]
  exact hpieces _

theorem State.translate_setSpdm (s : State) (vif : Nat) (x : Spdm) (ctx va kind : Nat) : (s.setSpdm vif x).translate ctx va kind = s.translate ctx va kind := by
  have hworld : (s.setSpdm vif x).ctxWorld ctx = s.ctxWorld ctx := by
    rw [State.ctxWorld, State.ctxWorld]
    refine if_congr Iff.rfl rfl ?_
    by_cases hv : ctx - 1344 = vif
    · have hvif : (s.setSpdm vif x).vifOf vif = { s.vifOf vif with spdm := x } := State.vifOf_setVif_same _ _ _
      have hw : ((s.setSpdm vif x).vifOf vif).world = (s.vifOf vif).world := by rw [hvif]
      rw [hv]
      exact hw
    · exact congrArg Vif.world (State.vifOf_setVif_other s hv { s.vifOf vif with spdm := x })
  rw [State.translate, State.translate, hworld]
  rfl

/-- A write that is performed changes memory, its errors, and what bounce channels are asked for. -/
theorem State.syeWrite_rest (s : State) (pa : Nat) (data : List Byte) (bad : List Nat) :
    { s.syeWrite pa data bad with mem := s.mem, poison := s.poison, bounces := s.bounces } = s := rfl

/-! ### Evidence (R364) -/

/-- What is measured does not hang on the transcript of a session. -/
theorem State.evidence_setSpdm (s : State) (vif : Nat) (x : Spdm) : (s.setSpdm vif x).evidence vif = s.evidence vif := by
  have hvif : (s.setSpdm vif x).vifOf vif = { s.vifOf vif with spdm := x } := State.vifOf_setVif_same _ _ _
  have hatt : (s.setSpdm vif x).attState vif = s.attState vif := by
    rw [State.attState, hvif]
    rfl
  have hmeasured : (s.setSpdm vif x).measured vif = s.measured vif := by
    rw [State.measured, hatt, hvif]
    rfl
  rw [State.evidence, hmeasured, hatt]
  rfl

theorem State.evidence_getLast (s : State) (vif : Nat) : (s.evidence vif).getLast? = some (BitVec.ofNat 8 (s.attState vif)) := by
  rw [State.evidence, List.getLast?_concat]

theorem State.measured_length (s : State) (vif : Nat) : (s.measured vif).length = if s.worldGated (s.vifOf vif).world = true then 5 else 7 := by
  rw [State.measured, State.attState]
  cases s.worldGated (s.vifOf vif).world with
  | true => rfl
  | false => cases s.live vif <;> rfl

end Sys2Proof.Machine

namespace Sys2Proof.Proofs
open Sys2Proof.Machine Sys2Proof.Claims

section
variable {s : State} (hp : 2 ≤ s.phase) (vif : Nat)
include hp

theorem getVersion_replies : ∃ t, exec (.getVersion vif) s = .next t ∧ Replies s t vif 0x04 [0x84] [0, 1, 0, 0x13] { version := true } ∧ t.draws = s.draws + 0 :=
  ⟨_, congrArg Host.Outcome.next (if_neg (ne_true_of_eq_false (State.serves_of hp))),
    ((Session.refl s vif).set { version := true, transcript := [0x84] }).replies (y := { version := true }) (t0 := [0x84]) 0x04 [0, 1, 0, 0x13], rfl⟩

theorem getCertificate_wrongSlot {slot : Nat} (h : slot ≠ 0) :
    exec (.getCertificate vif slot) s = .next { s with outbox := s.outbox ++ [.spdm vif 0x7F [0x01]] } := by
  have hexec : exec (.getCertificate vif slot) s = execGetCertificate vif slot s := rfl
  rw [execGetCertificate, if_pos (bne_iff_ne.mpr h), State.serves_of hp, if_neg Bool.false_ne_true] at hexec
  exact hexec

theorem keyExchange_replies (nonce : Nat) (h : (s.spdm vif).algs = true) : ∃ t, exec (.keyExchange vif nonce) s = .next t ∧
    Replies s t vif 0x64 (heard s vif 0xE4 nonce) (signed (heard s vif 0xE4 nonce) 0x64 (Config.spdmBytes 4 [nonce]))
      { s.spdm vif with exchanging := true, session := false, key := Config.drawnKey s.draws } ∧ t.draws = s.draws + 1 := by
  refine ⟨_, congrArg Host.Outcome.next (State.request_admitted hp h), ?_⟩
  have hs := ((s.hears_session vif 0xE4 nonce).set
    { s.hears vif 0xE4 nonce with exchanging := true, session := false, key := Config.drawnKey s.draws }).draw (s.draws + 1)
  exact ⟨hs.repliesSigned (y := { s.spdm vif with exchanging := true, session := false, key := Config.drawnKey s.draws }) 0x64 (Config.spdmBytes 4 [nonce]), rfl⟩

theorem keyUpdate_replies (h : (s.spdm vif).session = true) : ∃ t, exec (.keyUpdate vif) s = .next t ∧
    Replies s t vif 0x69 (heard s vif 0xE9 0) [] { s.spdm vif with key := Config.drawnKey s.draws } ∧ t.draws = s.draws + 1 := by
  refine ⟨_, congrArg Host.Outcome.next (State.request_admitted hp h), ?_⟩
  have hs := ((s.hears_session vif 0xE9 0).set { s.hears vif 0xE9 0 with key := Config.drawnKey s.draws }).draw (s.draws + 1)
  exact ⟨hs.replies (y := { s.spdm vif with key := Config.drawnKey s.draws }) 0x69 [], rfl⟩

theorem getMeasurements_replies (nonce : Nat) (h : (s.spdm vif).algs = true) : ∃ t, exec (.getMeasurements vif nonce) s = .next t ∧
    Replies s t vif 0x60 (heard s vif 0xE0 nonce) (signed (heard s vif 0xE0 nonce) 0x60 (s.evidence vif)) (s.spdm vif) ∧ t.draws = s.draws + 0 := by
  obtain ⟨t, ht, hr⟩ := request_signs hp (ok := (·.algs)) (vif := vif) (code := 0xE0) (arg := nonce) (err := 0x04) (rc := 0x60) (body := s.evidence vif)
    (act := fun u _ => u.reply vif 0x60 (u.evidence vif) true) h (fun _ => by rw [State.evidence_setSpdm])
  exact ⟨t, congrArg Host.Outcome.next ht, hr⟩

theorem finish_mismatch {mac : Nat} (h : (s.spdm vif).exchanging = true) (hm : mac ≠ leNat (Config.spdmBytes 5 ((s.spdm vif).key :: (s.spdm vif).transcript))) :
    exec (.finish vif mac) s = .next { s with outbox := s.outbox ++ [.spdm vif 0x7F [0x06]] } := by
  have hexec : exec (.finish vif mac) s = execFinish vif mac s := rfl
  rw [execFinish, h, Bool.true_and, if_pos (bne_iff_ne.mpr hm), State.serves_of hp, if_neg Bool.false_ne_true] at hexec
  exact hexec

theorem finish_match {mac : Nat} (h : (s.spdm vif).exchanging = true) (hm : mac = leNat (Config.spdmBytes 5 ((s.spdm vif).key :: (s.spdm vif).transcript))) :
    ∃ t, exec (.finish vif mac) s = .next t ∧ Replies s t vif 0x65 (heard s vif 0xE5 mac) [] { s.spdm vif with exchanging := false, session := true } ∧
      t.draws = s.draws + 0 := by
  have hsame : (mac != leNat (Config.spdmBytes 5 ((s.spdm vif).key :: (s.spdm vif).transcript))) = false := by rw [← hm, bne_self_eq_false]
  have hexec : exec (.finish vif mac) s = execFinish vif mac s := rfl
  rw [execFinish, hsame, Bool.and_false, if_neg Bool.false_ne_true] at hexec
  obtain ⟨t, ht, hr⟩ := request_changes hp (ok := (·.exchanging)) (vif := vif) (code := 0xE5) (arg := mac) (err := 0x04) (rc := 0x65) (data := [])
    (y := { s.spdm vif with exchanging := false, session := true })
    (act := fun u x => (u.setSpdm vif { x with exchanging := false, session := true }).reply vif 0x65 []) h (fun _ => rfl)
  exact ⟨t, hexec.trans (congrArg Host.Outcome.next ht), hr⟩

theorem deposit_done {va pa : Nat} {data : List Byte} (h : (s.spdm vif).session = true) (hl : data.length ≤ 4096) (hs : s.snaps = [])
    (hlies : lies s (vifCtx vif) va data.length kWrite pa) : ∃ t, exec (.deposit vif va data) s = .next t ∧
      wrote s.mem t.mem pa data ∧ t.outbox = s.outbox ++ [.spdm vif 0x7E [0]] ∧ (t.spdm vif).session = true ∧ t.tiles = s.tiles ∧ t.slots = s.slots := by
  obtain ⟨u, hu⟩ : ∃ u, s.setSpdm vif (s.hears vif 0xFE va) = u := ⟨_, rfl⟩
  have hset : Session s u vif (s.hears vif 0xFE va) := hu ▸ s.hears_session vif 0xFE va
  have hrest := hset.rest
  have hlies' : lies u (vifCtx vif) va data.length kWrite pa := by
    obtain ⟨hrange, hwin⟩ := hlies
    refine ⟨?_, hwin⟩
    rw [← hu, State.translateRange_congr (s.translate_setSpdm vif _ (vifCtx vif) · kWrite), hrange]
  have hwrite := State.gwrite_lies hlies' ((congrArg State.snaps hrest :).trans hs) 0
  obtain ⟨v, hv⟩ : ∃ v, u.syeWrite pa data [] = v := ⟨_, rfl⟩
  have hvrest : { v with mem := u.mem, poison := u.poison, bounces := u.bounces } = u := hv ▸ u.syeWrite_rest pa data []
  have hvmem : wrote u.mem v.mem pa data := hv ▸ u.wrPhys_wrote pa data []
  rw [hv] at hwrite
  have hexec : exec (.deposit vif va data) s = .next (v.reply vif 0x7E [0]) := by
    refine congrArg Host.Outcome.next ((State.request_admitted hp h).trans ?_)
    rw [hu, if_neg (Nat.not_lt.mpr hl), State.wholeWrite, hwrite]
    rfl
  have hmem : u.mem = s.mem := (congrArg State.mem hrest :)
  have hvspdm : v.spdm vif = u.spdm vif := (congrArg (fun z : State => z.spdm vif) hvrest :)
  obtain ⟨htrest, hout⟩ := v.reply_rest vif 0x7E [0]
  have htmem : (v.reply vif 0x7E [0]).mem = v.mem := (congrArg State.mem htrest :)
  have hvout : v.outbox = s.outbox := (congrArg State.outbox hvrest :).trans hset.out
  refine ⟨_, hexec, ?_, hout.trans (by rw [hvout]), ?_, ?_, ?_⟩
  · rw [htmem, ← hmem]
    exact hvmem
  · rw [State.reply_session, hvspdm, hset.session]
    exact h
  · exact (congrArg State.tiles htrest :).trans ((congrArg State.tiles hvrest :).trans (congrArg State.tiles hrest :))
  · exact (congrArg State.slots htrest :).trans ((congrArg State.slots hvrest :).trans (congrArg State.slots hrest :))

theorem bckey_done {c : Nat} (key : Nat) (h : (s.spdm vif).session = true) (hc : c < 256) (hw : (s.vifOf vif).world ≠ 0)
    (hb : (s.bounce c).world = (s.vifOf vif).world) : ∃ t, exec (.bckey vif c key) s = .next t ∧
      t.bounce c = { s.bounce c with key := some key } ∧ (∀ d, d ≠ c → t.bounce d = s.bounce d) ∧ t.outbox = s.outbox ++ [.spdm vif 0x7E [0]] ∧ t.mem = s.mem := by
  obtain ⟨u, hu⟩ : ∃ u, s.setSpdm vif (s.hears vif 0xFE c) = u := ⟨_, rfl⟩
  have hset : Session s u vif (s.hears vif 0xFE c) := hu ▸ s.hears_session vif 0xFE c
  have hbounces : u.bounces = s.bounces := (congrArg State.bounces hset.rest :)
  have hworld : (u.vifOf vif).world = (s.vifOf vif).world := (congrArg Vif.world hset.fields :)
  have hchan (d : Nat) : u.bounce d = s.bounce d := by rw [State.bounce, hbounces, State.bounce]
  have hgo : ¬ (decide (256 ≤ c) || decide ((u.vifOf vif).world = 0) || (u.bounce c).world != (u.vifOf vif).world) = true := by
    rw [hworld, hchan, hb, bne_self_eq_false, decide_eq_false (Nat.not_le.mpr hc), decide_eq_false hw]
    decide
  have hexec : exec (.bckey vif c key) s = .next ((u.setBounce c { u.bounce c with key := some key }).reply vif 0x7E [0]) := by
    refine congrArg Host.Outcome.next ((State.request_admitted hp h).trans ?_)
    rw [hu]
    exact if_neg hgo
  obtain ⟨hrest, hout⟩ := (u.setBounce c { u.bounce c with key := some key }).reply_rest vif 0x7E [0]
  refine ⟨_, hexec, ?_, fun d hd => ?_, hout.trans (congrArg (· ++ _) hset.out), (congrArg State.mem hrest :).trans (congrArg State.mem hset.rest :)⟩
  · refine (congrArg (fun v : State => v.bounce c) hrest :).trans ((Store.get_put_same _ _ _ _).trans ?_)
    rw [hchan]
  · exact (congrArg (fun v : State => v.bounce d) hrest :).trans ((Store.get_put_other _ _ hd _).trans (hchan d))
end

/-- Settles O57, request by request. -/
theorem attestation : Obligations.Attestation := by
  intro s vif hp x replies
  refine ⟨getVersion_replies hp vif, fun h => ?_, fun h => ?_, fun a h => ?_, fun h => ?_, fun h => ?_, fun slot h => getCertificate_wrongSlot hp vif h, fun nonce h => ⟨?_, ?_, ?_⟩,
    ⟨s.evidence_getLast vif, s.measured_length vif⟩, fun mac h => ⟨finish_match hp vif h, finish_mismatch hp vif h⟩, fun h => ⟨?_, ?_, ?_, ?_, ?_⟩, fun k h => ?_, fun code => ?_⟩
  · obtain ⟨t, ht, hr⟩ := request_changes hp (vif := vif) (code := 0xE1) (arg := 0) (err := 0x04) (ok := (·.version)) h (rc := 0x61) (data := [])
      (y := { x with caps := true }) (act := fun u x => (u.setSpdm vif { x with caps := true }).reply vif 0x61 []) (fun _ => rfl)
    exact ⟨t, congrArg Host.Outcome.next ht, hr⟩
  · exact congrArg Host.Outcome.next (State.request_refused hp h)
  · obtain ⟨t, ht, hr⟩ := request_changes hp (vif := vif) (code := 0xE3) (arg := a) (err := 0x04) (ok := (·.caps)) h (rc := 0x63) (data := [BitVec.ofNat 8 (bits a 0 4)])
      (y := { x with algs := bits a 0 4 == 15 })
      (act := fun u x => (u.setSpdm vif { x with algs := bits a 0 4 == 15 }).reply vif 0x63 [BitVec.ofNat 8 (bits a 0 4)]) (fun _ => rfl)
    have hbits : bits a 0 4 = a % 16 := by rw [bits, pow_zero, Nat.div_one]; rfl
    rw [hbits] at hr
    exact ⟨t, congrArg Host.Outcome.next ht, hr⟩
  · obtain ⟨t, ht, hr⟩ := request_replies hp (vif := vif) (code := 0x81) (arg := 0) (err := 0x04) (ok := (·.algs)) h (rc := 0x01) (data := Config.spdmBytes 1 [])
      (act := fun u _ => u.reply vif 0x01 (Config.spdmBytes 1 [])) (fun _ => rfl)
    exact ⟨t, congrArg Host.Outcome.next ht, hr⟩
  · obtain ⟨t, ht, hr⟩ := request_changes hp (vif := vif) (code := 0x82) (arg := 0) (err := 0x04) (ok := (·.algs)) h (rc := 0x02) (data := Config.spdmBytes 2 [])
      (y := { x with chunks := [Config.spdmBytes 2 []] })
      (act := fun u x => (u.setSpdm vif { x with chunks := [Config.spdmBytes 2 []] }).reply vif 0x02 (Config.spdmBytes 2 [])) (fun _ => rfl)
    exact ⟨t, congrArg Host.Outcome.next ht, hr⟩
  · obtain ⟨t, ht, hr⟩ := request_signs hp (vif := vif) (code := 0x83) (arg := nonce) (err := 0x04) (ok := (·.algs)) h (rc := 0x03) (body := Config.spdmBytes 3 [nonce])
      (act := fun u _ => u.reply vif 0x03 (Config.spdmBytes 3 [nonce]) true) (fun _ => rfl)
    exact ⟨t, congrArg Host.Outcome.next ht, hr⟩
  · exact getMeasurements_replies hp vif nonce h
  · exact keyExchange_replies hp vif nonce h
  · obtain ⟨t, ht, hr⟩ := request_replies hp (vif := vif) (code := 0xE8) (arg := 0) (err := 0x0B) (ok := (·.session)) h (rc := 0x68) (data := [])
      (act := fun u _ => u.reply vif 0x68 []) (fun _ => rfl)
    exact ⟨t, congrArg Host.Outcome.next ht, hr⟩
  · exact keyUpdate_replies hp vif h
  · obtain ⟨t, ht, hr⟩ := request_changes hp (vif := vif) (code := 0xEC) (arg := 0) (err := 0x0B) (ok := (·.session)) h (rc := 0x6C) (data := [])
      (y := { x with session := false, key := 0 }) (act := fun u x => (u.setSpdm vif { x with session := false, key := 0 }).reply vif 0x6C []) (fun _ => rfl)
    exact ⟨t, congrArg Host.Outcome.next ht, hr⟩
  · exact fun va data pa hl hs hlies => deposit_done hp vif h hl hs hlies
  · exact fun c key hc hw hb => bckey_done hp vif key h hc hw hb
  · obtain ⟨t, ht, hr⟩ := request_replies hp (vif := vif) (code := 0x86) (arg := k) (err := 0x01) (ok := fun x => decide (k < x.chunks.length)) (decide_eq_true h)
      (rc := 0x06) (data := x.chunks.getD k []) (act := fun u x => u.reply vif 0x06 (x.chunks.getD k [])) (fun _ => rfl)
    exact ⟨t, congrArg Host.Outcome.next ht, hr⟩
  · exact congrArg Host.Outcome.next (if_neg (ne_true_of_eq_false (State.serves_of hp)))

end Sys2Proof.Proofs
end

section
/-! PROOFS. What the end of instances, the copies of a snapshot and the launch graph leave: the canonical form of memory, the boot state, and that a slot once FREE stays so. -/

namespace Sys2Proof.Machine
open Sys2Proof.Claims

/-- Memory stays canonical, the boot phase and the timebase stand, and no FREE slot is taken. -/
structure Tame (s t : State) : Prop where
  mem : Memory.wf s.mem = true → Memory.wf t.mem = true
  boot : (t.phase, t.warm, t.tb, t.tbPulse) = (s.phase, s.warm, s.tb, s.tbPulse)
  free : ∀ n, (s.slot n).st = .free → (t.slot n).st = .free

/-- What `Tame` speaks of. -/
def State.tamed (s : State) : List Host.Cell × (Nat × Bool × Nat × Nat) × Store Slot := (s.mem, (s.phase, s.warm, s.tb, s.tbPulse), s.slots)

/-- The record is written where room has been made. -/
def State.folioPut (s1 : State) (k : Nat) (rec_ : List Byte) (bad : List Nat) : Option State :=
  let x := s1.snap k
  if !x.growing || !s1.roomAt k x.entry x.foff (x.fpos + rec_.length) then none
  else match s1.areaWrite k (x.foff + x.fpos) rec_ (bad.map (· + 16)) with
    | none => none
    | some s2 =>
      let s3 := s2.setSnap k { x with fpos := x.fpos + rec_.length }
      some (s3.catWrite k x.entry [s3.cat k x.entry 0, s3.cat k x.entry 1, x.foff, x.fpos + rec_.length, s3.cat k x.entry 4, s3.cat k x.entry 5])

theorem State.folioAppend_eq (s : State) (k kind key : Nat) (data : List Byte) (bad : List Nat) :
    s.folioAppend k kind key data bad = (s.makeRoom k (folioRecord kind key data).length 18).folioPut k (folioRecord kind key data) bad := rfl

theorem State.woken_st (s : State) (r : Slot) : (s.woken r).st = r.st := by
  rw [State.woken]
  split <;> rfl

namespace Tame
variable {s t u : State}

theorem refl (s : State) : Tame s s := ⟨id, rfl, fun _ => id⟩
theorem trans (h : Tame s t) (g : Tame t u) : Tame s u := ⟨g.mem ∘ h.mem, g.boot.trans h.boot, fun n => g.free n ∘ h.free n⟩

/-- A change elsewhere. -/
theorem of_same (h : t.tamed = s.tamed) : Tame s t := by
  simp only [State.tamed, Prod.mk.injEq] at h
  obtain ⟨hmem, ⟨hphase, hwarm, htb, hpulse⟩, hslots⟩ := h
  refine ⟨by rw [hmem]; exact id, by rw [hphase, hwarm, htb, hpulse], fun n hn => ?_⟩
  rw [State.slot, hslots]
  exact hn

theorem after (g : Tame t u) (h : t.tamed = s.tamed) : Tame s u := (of_same h).trans g

theorem before (g : Tame s t) (h : u.tamed = t.tamed) : Tame s u := g.trans (of_same h)

theorem setSlot (s : State) (n : Nat) {r : Slot} (h : (s.slot n).st = .free → r.st = .free) : Tame s (s.setSlot n r) := by
  refine ⟨id, rfl, fun m hm => ?_⟩
  by_cases hnm : m = n
  · rw [hnm, State.setSlot_slot_same]
    exact h (hnm ▸ hm)
  · rw [State.setSlot_slot_other s hnm]
    exact hm

theorem wrPhys (s : State) (pa : Nat) (data : List Byte) (bad : List Nat) : Tame s (s.wrPhys pa data bad) := ⟨State.wrPhys_wf s pa data bad, rfl, fun _ => id⟩
theorem syeWrite (s : State) (pa : Nat) (data : List Byte) (bad : List Nat) : Tame s (s.syeWrite pa data bad) := ⟨State.syeWrite_wf s pa data bad, rfl, fun _ => id⟩

theorem foldl {α : Type} {F : State → α → State} (h : ∀ u a, Tame u (F u a)) : ∀ (l : List α) (s : State), Tame s (l.foldl F s)
  | [], s => refl s
  | a :: l, s => (h s a).trans (foldl h l (F s a))

theorem iter {F : State → State} (h : ∀ u, Tame u (F u)) : ∀ (n : Nat) (s : State), Tame s (Machine.iter F n s)
  | 0, s => refl s
  | n + 1, s => (h s).trans (iter h n (F s))

theorem ite {c : Prop} [Decidable c] {a b : State} (ha : Tame s a) (hb : Tame s b) : Tame s (if c then a else b) := by
  split
  · exact ha
  · exact hb

theorem raiseCC (s : State) (m : Nat) : Tame s (s.raiseCC m) := of_same (by simp only [State.raiseCC, State.tamed])
theorem outbox (s : State) (os : List Out) : Tame s { s with outbox := os } := of_same rfl
theorem setTileAt (s : State) (n t : Nat) (x : Tile) : Tame s (s.setTileAt n t x) := of_same rfl

theorem errorRecord (s : State) (src : Nat) (unc : Bool) (world addr : Nat) : Tame s (s.errorRecord src unc world addr) :=
  of_same (by simp only [State.errorRecord, State.raiseCC, State.tamed, State.free])

theorem meetLine (s : State) (l : Nat) : Tame s (s.meetLine l) :=
  trans (t := { s with poison := Store.put 0 l (if Store.get 0 l s.poison = 1 then 0 else 2) s.poison }) (of_same rfl) (errorRecord _ _ _ _ _)

theorem fixLines (s : State) (slot : Option Nat) (pa n : Nat) : Tame s (s.fixLines slot pa n) := by
  have hmeet := foldl meetLine (s.linesIn pa n 1 ++ s.linesIn pa n 3) s
  simp only [State.fixLines]
  refine ite hmeet ?_
  split
  · exact ite (hmeet.trans (setSlot _ _ id)) hmeet
  · exact hmeet

theorem correctAt (s : State) (slot p space addr n : Nat) : Tame s (s.correctAt slot p space addr n) := by
  simp only [State.correctAt]
  refine ite (refl s) (trans ?_ (setSlot _ _ id))
  exact (foldl (fun u _ => errorRecord u space false (u.slot slot).world p) _ _).after rfl

theorem stowRead (s : State) (slot p space addr n : Nat) : Tame s (s.stowRead slot p space addr n) := by
  rw [State.stowRead]
  exact ite ((correctAt s slot p space addr n).trans (errorRecord _ _ _ _ _)) (correctAt s slot p space addr n)

theorem ctxWrite (s : State) (world pa : Nat) (data : List Byte) (bad : List Nat) : Tame s (s.ctxWrite world pa data bad) := by
  rw [State.ctxWrite]
  exact foldl (fun u _ => ite (wrPhys u _ _ _) (refl u)) _ s

theorem completeTile (s : State) (n t sw : Nat) (f : Word → Word) : Tame s (s.completeTile n t sw f) := by
  rw [State.completeTile]
  exact ite (setTileAt _ _ _ _) (ite ((fixLines _ _ _ _).trans (ctxWrite _ _ _ _ _)) (setTileAt _ _ _ _))

theorem completeFor (s : State) (who : Option (Nat × Nat × Bool)) (code : Nat) : Tame s (s.completeFor who code) := by
  unfold State.completeFor
  split
  · exact refl s
  · exact ite (of_same rfl) (ite (of_same rfl) (completeTile _ _ _ _ _))

theorem postEvent (s : State) (cause slot detail : Nat) : Tame s (s.postEvent cause slot detail) := by
  rw [State.postEvent]
  exact ite (of_same rfl) (trans (t := { s with evq := s.evq ++ [({ cause := cause, slot := slot, detail := detail } : Event)] }) (of_same rfl) (raiseCC _ _))

theorem setSnap (s : State) (k : Nat) (x : Snap) : Tame s (s.setSnap k x) := of_same rfl

/-! ### Walks and writes of a context -/

theorem startWalk (s : State) (die ctx va kind : Nat) : Tame s (s.startWalk die ctx va kind) := by
  simp only [State.startWalk]
  refine ite (refl s) ?_
  split <;> exact of_same rfl

theorem writePieces : ∀ (ps : List (Nat × Nat)) (s : State) (data : List Byte) (bad : List Nat), Tame s (s.writePieces ps data bad).1
  | [], s, _, _ => refl s
  | p :: r, s, data, bad => by
    simp only [State.writePieces]
    split
    · split
      · exact (writePieces r _ _ _).after rfl
      · exact of_same rfl
    · exact (syeWrite _ _ _ _).trans (writePieces r _ _ _)

theorem gwrite (s : State) (die ctx va : Nat) (data : List Byte) (bad : List Nat) : Tame s (s.gwrite die ctx va data bad).1 := by
  rw [State.gwrite]
  split
  · exact startWalk _ _ _ _ _
  · exact of_same rfl
  · split
    · exact writePieces _ _ _ _
    · exact of_same rfl

/-! ### The snapshot area -/

theorem areaWrite {s u : State} {k off : Nat} {data : List Byte} {bad : List Nat} (h : s.areaWrite k off data bad = some u) : Tame s u := by
  simp only [State.areaWrite] at h
  split at h
  · obtain rfl := Option.some.inj h
    exact wrPhys _ _ _ _
  · cases h

theorem catWrite (s : State) (k i : Nat) (ws : List Nat) : Tame s (s.catWrite k i ws) := by
  rw [State.catWrite]
  cases h : s.areaWrite k (0x100 + 64 * i) (ws.flatMap b8) [] with
  | none => exact refl s
  | some u => exact areaWrite h

theorem catDrop (s : State) (k i : Nat) : Tame s (s.catDrop k i) := catWrite s k i _

theorem dropFolio (s : State) (k i : Nat) : Tame s (s.dropFolio k i) := by
  have h := (catDrop s k i).trans (postEvent (s.catDrop k i) 0x12 ((s.slotsOf k).headD 0) 0)
  rw [State.dropFolio]
  exact ite (h.trans (setSnap _ _ _)) h

theorem moveFolio (s : State) (k off : Nat) : Tame s (s.moveFolio k off) := by
  have hfix := fixLines s none (s.area k + (s.snap k).foff) (s.snap k).fpos
  rw [State.moveFolio]
  split
  · exact hfix
  · next u hu => exact (hfix.trans (areaWrite hu)).trans ((setSnap _ _ _).trans (catWrite _ _ _ _))

theorem makeRoom (k n : Nat) : ∀ (fuel : Nat) (s : State), Tame s (s.makeRoom k n fuel)
  | 0, s => refl s
  | fuel + 1, s => by
    rw [State.makeRoom]
    refine ite (refl s) ?_
    split
    · exact moveFolio _ _ _
    · split
      · exact refl s
      · exact (dropFolio _ _ _).trans (makeRoom k n fuel _)

theorem folioPut {w u : State} {k : Nat} {bs : List Byte} {bad : List Nat} (h : w.folioPut k bs bad = some u) : Tame w u := by
  simp only [State.folioPut] at h
  split at h
  · cases h
  · split at h
    · cases h
    · next v hv =>
      obtain rfl := Option.some.inj h
      exact (areaWrite hv).trans ((setSnap _ _ _).trans (catWrite _ _ _ _))

theorem folioAppend {s u : State} {k kind key : Nat} {data : List Byte} {bad : List Nat} (h : s.folioAppend k kind key data bad = some u) : Tame s u := by
  rw [State.folioAppend_eq] at h
  exact (makeRoom k _ _ s).trans (folioPut h)

/-! ### Release and abort -/

theorem setBufMarks (s : State) (k : Nat) (f : Nat → Nat → Nat → Bool) : Tame s (s.setBufMarks k f) := by
  rw [State.setBufMarks]
  exact foldl (fun u _ => foldl (fun v _ => setTileAt v _ _ _) _ u) _ s

theorem overTiles (s : State) (n : Nat) (F : Nat → Tile → Tile) (ts : List Nat) : Tame s (s.overTiles n F ts) :=
  foldl (fun u _ => setTileAt u _ _ _) ts s

theorem unstop (s : State) (n : Nat) (ts : List Nat) :
    Tame s (ts.foldl (fun (u : State) t => u.setTileAt n t { u.tileAt n t with stopped := false }) s) ∧
      (ts.foldl (fun (u : State) t => u.setTileAt n t { u.tileAt n t with stopped := false }) s).slots = s.slots :=
  ⟨foldl (fun u _ => setTileAt u _ _ _) ts s, (congrArg State.slots (s.overTiles_rest n (fun _ x => { x with stopped := false }) ts) :)⟩

theorem releaseCut (s : State) (n : Nat) : Tame s (s.releaseCut n) := by
  obtain ⟨hall, hslots⟩ := unstop s n (List.range (s.slot n).count)
  have hslot : ∀ {u : State}, u.slots = s.slots → u.slot n = s.slot n := fun h => by rw [State.slot, h, State.slot]
  rw [State.releaseCut]
  refine ite (ite (setSlot s n id) (hall.trans (setSlot _ n fun h => ?_))) ?_
  · rw [hslot hslots] at h
    show (s.woken _).st = .free
    rw [State.woken_st]
    exact h
  · dsimp only
    split
    · exact setSlot s n id
    · refine hall.trans (setSlot _ n fun h => ?_)
      rw [hslot hslots] at h
      exact h

theorem releaseCuts (s : State) (k : Nat) : Tame s (s.releaseCuts k) := by
  rw [State.releaseCuts]
  exact foldl (fun u n => ite (releaseCut u n) (refl u)) _ s

theorem abortLocal (s : State) (k : Nat) : Tame s (s.abortLocal k) := by
  simp only [State.abortLocal]
  refine trans (trans ?_ (releaseCuts _ _)) (completeFor _ _ _)
  have hmarks : Tame s (if ((s.snap k).st == .recording || (s.snap k).st == .reported) = true then s.setBufMarks k (fun _ _ _ => false) else s) :=
    ite (setBufMarks _ _ _) (refl s)
  have hdrop : Tame s (if (s.snap k).growing = true then
      (if ((s.snap k).st == .recording || (s.snap k).st == .reported) = true then s.setBufMarks k (fun _ _ _ => false) else s).catDrop k (s.snap k).entry
    else if ((s.snap k).st == .recording || (s.snap k).st == .reported) = true then s.setBufMarks k (fun _ _ _ => false) else s) :=
    ite (hmarks.trans (catDrop _ _ _)) hmarks
  exact hdrop.before rfl

theorem abortSnapshot (s : State) (k : Nat) : Tame s (s.abortSnapshot k) := by
  unfold State.abortSnapshot
  extract_lets x mine to_ v u
  refine ite (refl s) ?_
  have hsend : Tame s u := (abortLocal s k).trans (outbox v _)
  exact ite (hsend.trans (postEvent _ _ _ _)) hsend

/-! ### Copies -/

theorem copyFailed (s : State) (k : Nat) : Tame s (s.copyFailed k) := by
  unfold State.copyFailed
  extract_lets x v
  refine ite (abortSnapshot s k) ?_
  have hdrop : Tame s (if x.growing = true then s.dropFolio k x.entry else s) := ite (dropFolio _ _ _) (refl s)
  have hmarks : Tame s v := hdrop.trans (setBufMarks _ k (fun _ _ _ => false))
  exact hmarks.before rfl

theorem copyBuffer (s : State) (n t b : Nat) : Tame s (s.copyBuffer n t b) := by
  unfold State.copyBuffer
  extract_lets d v x k
  refine ite (refl s) ?_
  have hread : Tame s v := stowRead _ _ _ _ _ _
  refine ite (hread.trans (setTileAt _ _ _ _)) ?_
  split
  · exact hread.trans (copyFailed _ _)
  · next u hu => exact (hread.trans (folioAppend hu)).trans (setTileAt _ _ _ _)

theorem copyAll (n : Nat) : ∀ (fuel : Nat) (s : State), Tame s (s.copyAll n fuel)
  | 0, s => refl s
  | fuel + 1, s => by
    rw [State.copyAll]
    split
    · exact refl s
    · exact (copyBuffer _ _ _ _).trans (copyAll n fuel _)

theorem copyRegion (s : State) (n : Nat) : Tame s (s.copyRegion n) := copyAll n _ s

/-! ### Launch nodes -/

theorem setNode (s : State) (x : Node) : Tame s (s.setNode x) := of_same rfl

theorem dropJob (s : State) (world jobid : Nat) : Tame s (s.dropJob world jobid) := by
  rw [State.dropJob]
  exact ite (refl s) (of_same rfl)

theorem finish (s : State) (x : Node) (offset : Option Word) : Tame s (s.finish x offset) := (setNode s _).trans (dropJob _ _ _)

theorem writeRecord2 (s : State) (vif crec : Nat) (head : List Byte) (lid : Nat) : Tame s (s.writeRecord2 vif crec head lid).1 := by
  rw [State.writeRecord2]
  split
  · exact startWalk _ _ _ _ _
  · exact of_same rfl
  · have hhead := gwrite s 0 (vifCtx vif) crec head []
    split
    · next u _ hu =>
      rw [hu] at hhead
      exact hhead.trans (gwrite _ _ _ _ _ _)
    · exact hhead

theorem recordNode (s : State) (x : Node) : Tame s (s.recordNode x) := by
  have hw := writeRecord2 s x.vif x.crec (recordHead x.lid x.verdict x.reason x.cause x.tstart x.tend x.rccmax x.ndone) x.lid
  rw [State.recordNode]
  refine ite (refl s) ?_
  split
  · next u hu =>
    rw [hu] at hw
    exact hw
  · next u _ _ hu =>
    rw [hu] at hw
    exact hw.trans (setNode _ _)

theorem stepNode (s : State) (arrival : Nat) : Tame s (s.stepNode arrival) := by
  rw [State.stepNode]
  split
  · exact refl s
  · next x _ =>
    have hlook : Tame s (if x.st == .waiting then
        (match s.nodeState x with
         | .ready => s.setNode { x with st := .ready, readyAt := s.tb }
         | .held => s.setNode { x with st := .held }
         | _ => s) else s) := by
      refine ite ?_ (refl s)
      split
      · exact setNode _ _
      · exact setNode _ _
      · exact refl s
    dsimp only
    split
    · exact hlook
    · next y _ =>
      have hdone := hlook.trans (ite (c := (y.st == .ready && y.total == 0) = true) (finish _ y none) (refl _))
      split
      · exact hdone
      · exact hdone.trans (recordNode _ _)

theorem settleGraph (s : State) : Tame s s.settleGraph :=
  (iter (fun u => foldl stepNode _ u) _ s).before rfl

/-! ### The end of an instance -/

theorem leaveTiles (s : State) (n : Nat) : Tame s (s.leaveTiles n) := by
  have hleave : Tame s ((s.slot n).tiles.foldl (fun (u : State) p => u.setTile p ((u.tile p).leave (s.slot n).world)) s) :=
    foldl (F := fun (u : State) p => u.setTile p ((u.tile p).leave (s.slot n).world)) (fun u p => of_same rfl) _ s
  simp only [State.leaveTiles]
  split
  · exact hleave
  · exact hleave.before rfl

theorem freeSlot (s : State) (n : Nat) : Tame s (s.freeSlot n) := by
  have hcopy : Tame s (if (s.slot n).done = true then s.copyRegion n else (s.copyRegion n).raiseCC ipHdone) :=
    ite (copyRegion s n) ((copyRegion s n).trans (raiseCC _ _))
  simp only [State.freeSlot]
  generalize (if (s.slot n).done = true then s.copyRegion n else (s.copyRegion n).raiseCC ipHdone) = v at hcopy ⊢
  have hfreed : Tame s (((v.leaveTiles n).setSlot n (s.slot n).freed).forgetWaits n) :=
    ((hcopy.trans (leaveTiles v n)).trans (setSlot _ n (fun _ => rfl))).before rfl
  generalize ((v.leaveTiles n).setSlot n (s.slot n).freed).forgetWaits n = w at hfreed ⊢
  exact ite (hfreed.before rfl) (hfreed.before rfl)

theorem noteGone (s : State) (n verdict : Nat) (reached : Bool) (node : Nat) : Tame s (s.noteGone n verdict reached node) := by
  unfold State.noteGone
  extract_lets r k
  exact ite (refl s) (setSnap _ _ _)

theorem endInstance (s : State) (n verdict reason cause : Nat) (reached : Bool) : Tame s (s.endInstance n verdict reason cause reached) := by
  simp only [State.endInstance]
  refine trans ?_ (settleGraph _)
  have habort : Tame s (if (decide (verdict = 4) && (s.snap (s.slot n).job).st == .cutting && !(s.snap (s.slot n).job).cutSlots.contains n) = true then
      s.abortSnapshot (s.slot n).job else s) := ite (abortSnapshot _ _) (refl s)
  generalize (if (decide (verdict = 4) && (s.snap (s.slot n).job).st == .cutting && !(s.snap (s.slot n).job).cutSlots.contains n) = true then
      s.abortSnapshot (s.slot n).job else s) = v at habort ⊢
  have hfree := habort.trans ((noteGone v n verdict reached (((v.node (s.slot n).vif (s.slot n).lid).map (·.arrival)).getD 0)).trans (freeSlot _ n))
  generalize (v.noteGone n verdict reached (((v.node (s.slot n).vif (s.slot n).lid).map (·.arrival)).getD 0)).freeSlot n = w at hfree ⊢
  split
  · exact hfree.trans (dropJob _ _ _)
  · exact hfree.trans (ite (finish _ _ _) (setNode _ _))

/-! ### The keys of a world -/

theorem keyzDone (s : State) (w : Nat) : Tame s (s.keyzDone w) := by
  rw [State.keyzDone]
  split
  · exact refl s
  · refine trans ?_ (completeFor _ _ _)
    have hkeys : Tame s (((s.pot.filter (fun p => p.2 == { st := .scrubbing, world := w })).map (·.1)).foldl
        (fun (u : State) p => u.rekey p (u.keyOf w) 0 (fun _ => true)) s) :=
      foldl (fun u p => ⟨State.rekey_wf u p _ _ _, rfl, fun _ => id⟩) _ s
    exact hkeys.before rfl

end Tame

end Sys2Proof.Machine
end

section
/-! PROOFS. Ethernet, Zileth Link, the timebase, the configuration store, bring-up and resets (R373 to R388). -/

namespace Sys2Proof.Machine
open Sys2Proof.Claims

/-! ### Stores of equals -/

/-- What every new value and every old one has, every value has. -/
theorem Store.get_foldl_put_of {α β : Type} [DecidableEq α] {d : α} {f : β → α} {P : α → Prop} (hf : ∀ x, P (f x)) (k : Nat) :
    ∀ (l : List (Nat × β)) (m : Store α), P (Store.get d k m) → P (Store.get d k (l.foldl (fun m e => Store.put d e.1 (f e.2) m) m))
  | [], _, h => h
  | e :: l, m, h => by
    refine Store.get_foldl_put_of hf k l _ ?_
    by_cases hk : k = e.1
    · rw [hk, Store.get_put_same]
      exact hf _
    · rw [Store.get_put_other _ _ hk]
      exact h

theorem Store.mem_of_get {α : Type} {d : α} {k : Nat} : ∀ {m : Store α}, Store.get d k m ≠ d → (k, Store.get d k m) ∈ m
  | [], h => absurd rfl h
  | (j, v) :: m, h => by
    rw [Store.get] at h ⊢
    by_cases hj : j = k
    · rw [if_pos hj, hj]
      exact List.mem_cons_self
    · rw [if_neg hj] at h ⊢
      exact List.mem_cons_of_mem _ (Store.mem_of_get h)

/-! ### The warm reset (R370, R386) -/

theorem State.forgetWaits_slot (s : State) (n m : Nat) : (s.forgetWaits n).slot m = s.slot m := rfl

theorem State.freeSlot_frees (s : State) (n : Nat) : ((s.freeSlot n).slot n).st = .free := by
  unfold State.freeSlot
  extract_lets r held v w x u
  have hw : (w.slot n).st = .free := by
    simp only [w]
    rw [State.forgetWaits_slot, State.setSlot_slot_same]
    rfl
  clear_value w x
  have hu : (u.slot n).st = .free := hw
  clear_value u
  split <;> exact hu

theorem State.endInstance_frees (s : State) (n verdict reason cause : Nat) (reached : Bool) :
    ((s.endInstance n verdict reason cause reached).slot n).st = .free := by
  unfold State.endInstance
  extract_lets r v w z
  have hw : (w.slot n).st = .free := State.freeSlot_frees _ n
  clear_value w
  have hz : Tame w z := by
    simp only [z]
    split
    · exact Tame.dropJob _ _ _
    · exact Tame.ite (Tame.finish _ _ _) (Tame.setNode _ _)
  clear_value z
  exact (Tame.settleGraph z).free n (hz.free n hw)

/-- Instances end, one after another. -/
def State.endSlots (s : State) (ns : List Nat) : State := ns.foldl (fun (u : State) n => u.endInstance n 4 0 0 false) s

theorem State.endSlots_ends : ∀ (ns : List Nat) (s : State), Tame s (s.endSlots ns) ∧ ∀ n, n ∈ ns → ((s.endSlots ns).slot n).st = .free
  | [], s => ⟨Tame.refl s, nofun⟩
  | m :: ns, s => by
    have hone := Tame.endInstance s m 4 0 0 false
    have hfreed := s.endInstance_frees m 4 0 0 false
    have hcons : s.endSlots (m :: ns) = (s.endInstance m 4 0 0 false).endSlots ns := by rw [State.endSlots, List.foldl_cons, State.endSlots]
    rw [hcons]
    generalize s.endInstance m 4 0 0 false = u at hone hfreed ⊢
    obtain ⟨htame, hfree⟩ := State.endSlots_ends ns u
    refine ⟨hone.trans htame, fun n hn => ?_⟩
    cases List.mem_cons.mp hn with
    | inl h => exact htame.free n (h ▸ hfreed)
    | inr h => exact hfree n h

theorem State.mem_regions {s : State} {n : Nat} (h : (s.slot n).st ≠ .free) : n ∈ (regions s).map (·.1) := by
  have hne : s.slot n ≠ {} := fun he => h (congrArg Slot.st he)
  exact List.mem_map.mpr ⟨(n, s.slot n), List.mem_filter.mpr ⟨Store.mem_of_get hne, bne_iff_ne.mpr h⟩, rfl⟩

theorem State.endAll_ends (s : State) : Tame s s.endAll ∧ ∀ n, (s.endAll.slot n).st = .free := by
  have habort : Tame s ((s.snaps.map (·.1)).foldl (fun (u : State) k => if (u.snap k).st == .idle then u else u.abortSnapshot k) s) :=
    Tame.foldl (fun u k => Tame.ite (Tame.refl u) (Tame.abortSnapshot u k)) _ s
  have hall : s.endAll = State.endSlots ((s.snaps.map (·.1)).foldl (fun (u : State) k => if (u.snap k).st == .idle then u else u.abortSnapshot k) s) ((regions s).map (·.1)) := by
    rw [State.endAll, State.endSlots]
  rw [hall]
  generalize (s.snaps.map (·.1)).foldl (fun (u : State) k => if (u.snap k).st == .idle then u else u.abortSnapshot k) s = v at habort ⊢
  obtain ⟨hend, hfree⟩ := State.endSlots_ends ((regions s).map (·.1)) v
  refine ⟨habort.trans hend, fun n => ?_⟩
  by_cases hn : (s.slot n).st = .free
  · exact (habort.trans hend).free n hn
  · exact hfree n (State.mem_regions hn)

/-- The KEYZ of several worlds complete, in order. -/
def State.keyzAll (s : State) (ws : List Nat) : State := ws.foldl (fun (u : State) w => u.keyzDone w) s

theorem State.keyzDone_head {s : State} {w : Nat} {l : List (Nat × Option (Nat × Nat × Bool))} (h : s.keyz = (w, none) :: l) : (s.keyzDone w).keyz = l := by
  have hfind : s.keyz.find? (fun x => x.1 == w) = some (w, none) := by
    rw [h]
    exact List.find?_cons_of_pos (beq_self_eq_true w)
  have hlose : (s.loseKey w).keyz = s.keyz := (congrArg State.keyz (s.loseKey_rest w) :)
  have hdone : (s.keyzDone w).keyz = (s.loseKey w).keyz.erase (w, none) := by
    rw [State.keyzDone, hfind]
    rfl
  rw [hdone, hlose, h, List.erase_cons_head]

theorem State.keyzAll_ends : ∀ (ws : List Nat) (s : State), s.keyz = ws.map (fun w => (w, none)) → Tame s (s.keyzAll ws) ∧ (s.keyzAll ws).keyz = []
  | [], s, h => ⟨Tame.refl s, h⟩
  | w :: ws, s, h => by
    have hone := Tame.keyzDone s w
    have hkeyz := State.keyzDone_head h
    have hcons : s.keyzAll (w :: ws) = (s.keyzDone w).keyzAll ws := by rw [State.keyzAll, List.foldl_cons, State.keyzAll]
    rw [hcons]
    generalize s.keyzDone w = u at hone hkeyz ⊢
    obtain ⟨htame, hempty⟩ := State.keyzAll_ends ws u hkeyz
    exact ⟨hone.trans htame, hempty⟩

/-- The state of a warm reset before the cores start again. -/
def State.warmEnd (s : State) : State :=
  let u := ({ s with phase := 0, warm := true, bootFail := false } : State).endAll
  ({ u with keyz := u.keyz.map (fun e => (e.1, none)) } : State).keyzAll (u.keyz.map (·.1))

theorem State.warmEnd_ends (s : State) : s.warmEnd.phase = 0 ∧ s.warmEnd.tb = s.tb ∧ s.warmEnd.tbPulse = s.tbPulse ∧ s.warmEnd.warm = true ∧ s.warmEnd.keyz = [] ∧
    ∀ n, (s.warmEnd.slot n).st = .free := by
  rw [State.warmEnd]
  obtain ⟨htame, hfree⟩ := State.endAll_ends { s with phase := 0, warm := true, bootFail := false }
  generalize ({ s with phase := 0, warm := true, bootFail := false } : State).endAll = u at htame hfree ⊢
  obtain ⟨hkeys, hkeyz⟩ := State.keyzAll_ends (u.keyz.map (·.1)) { u with keyz := u.keyz.map (fun e => (e.1, none)) } (by rw [List.map_map]; rfl)
  have hboot := ((htame.before (u := { u with keyz := u.keyz.map (fun e => (e.1, none)) }) rfl).trans hkeys).boot
  simp only [Prod.mk.injEq] at hboot
  obtain ⟨hphase, hwarm, htb, hpulse⟩ := hboot
  exact ⟨hphase, htb, hpulse, hwarm, hkeyz, fun n => hkeys.free n (hfree n)⟩

/-- A core starts again at step 0. -/
def CCore.restart (c : CCore) : CCore := { c with step := 0, loops := [], inTrap := false, halted := false, failed := false, walking := false, wresp := none }

theorem warmReset_exec (s : State) : exec .warmReset s = .next { s.warmEnd with
    eth := 0, vifs := s.warmEnd.vifs.foldl (fun m e => Store.put {} e.1 { e.2 with spdm := {} } m) [],
    cores := bootCores s.warmEnd.cores CCore.restart, walkers := bootCores s.warmEnd.walkers CCore.restart } := rfl

theorem warmReset_done (s : State) : ∃ t, exec .warmReset s = .next t ∧ t.phase = 0 ∧ t.tb = s.tb ∧ t.tbPulse = s.tbPulse ∧ t.warm = true ∧ t.eth = 0 ∧
    t.keyz = [] ∧ (∀ v, (t.vifOf v).spdm = {}) ∧ (∀ n, (t.slot n).st = .free) ∧ ∀ n, (t.core n).step = 0 ∧ (t.core n).halted = false := by
  have hexec := warmReset_exec s
  obtain ⟨hphase, htb, hpulse, hwarm, hkeyz, hfree⟩ := s.warmEnd_ends
  generalize s.warmEnd = v at hexec hphase htb hpulse hwarm hkeyz hfree
  refine ⟨_, hexec, hphase, htb, hpulse, hwarm, rfl, hkeyz, fun k => ?_, hfree, fun n => ?_⟩
  · exact Store.get_foldl_put_of (d := ({} : Vif)) (f := fun x : Vif => { x with spdm := {} }) (P := fun x => x.spdm = {}) (fun _ => rfl) k v.vifs [] rfl
  · exact Store.get_foldl_put_of (d := ({} : CCore)) (f := CCore.restart) (P := fun x => x.step = 0 ∧ x.halted = false) (fun _ => ⟨rfl, rfl⟩) n v.cores [] ⟨rfl, rfl⟩

theorem coldReset_done (s : State) : ∃ t, exec .coldReset s = .next t ∧ t.phase = 0 ∧ t.mem = [] ∧ t.tiles = [] ∧ t.slots = [] ∧ t.pot = [] ∧ t.vifs = [] ∧
    t.nodes = [] ∧ t.tlb = [] ∧ t.evq = [] ∧ t.keys = [(0, some (Config.drawnKey s.draws))] ∧ t.tb = 0 ∧ t.tbPulse = 0 ∧ t.pkgStore = s.pkgStore ∧
    ∀ n, (t.core n).step = 0 ∧ (t.core n).g = [] :=
  ⟨_, rfl, rfl, rfl, rfl, rfl, rfl, rfl, rfl, rfl, rfl, rfl, rfl, rfl, rfl, fun n =>
    Store.get_foldl_put_of (d := ({} : CCore)) (f := fun c : CCore => { istore := c.istore }) (P := fun x => x.step = 0 ∧ x.g = []) (fun _ => ⟨rfl, rfl⟩) n s.cores [] ⟨rfl, rfl⟩⟩

/-! ### Training of a channel (R385, R386) -/

/-- The channel that a training leaves. -/
def Chan.trainedTo (c : Chan) (rdlo rdhi wrlo wrhi : Nat) (weak : List Nat) (ok : Bool) : Chan :=
  if c.pass then { c with st := if ok then 2 else 3, pass := ok }
  else { st := if ok && weak.length ≤ 2 then 2 else 3, rdw := rdhi - rdlo, rdc := rdlo + (rdhi - rdlo) / 2, wrw := wrhi - wrlo,
         wrc := wrlo + (wrhi - wrlo) / 2, lane0 := weak[0]?, lane1 := weak[1]?, pass := ok && weak.length ≤ 2 }

section
variable {s : State} {c : Nat} (hc : c < 512) (hp : s.phase = 3) (hst : (Store.get ({} : Chan) c s.chans).st = 1)
include hc hp hst

theorem hbmChannelTraining_exec (rdlo rdhi wrlo wrhi : Nat) (weak : List Nat) (confirm : Nat) : exec (.hbmChannelTraining c rdlo rdhi wrlo wrhi weak confirm) s =
    .next ({ s with chans := Store.put {} c ((Store.get ({} : Chan) c s.chans).trainedTo rdlo rdhi wrlo wrhi weak (confirm == 1)) s.chans } : State).endTraining := by
  have hgo : ¬ (decide (512 ≤ c) || s.phase != 3 || (Store.get ({} : Chan) c s.chans).st != 1) = true := by
    rw [hp, hst, decide_eq_false (Nat.not_le.mpr hc)]
    decide
  exact congrArg Host.Outcome.next (if_neg hgo)
end

theorem State.endTraining_chans (s : State) : s.endTraining.chans = s.chans ∧ s.endTraining.slots = s.slots := by
  rw [State.endTraining]
  split <;> exact ⟨rfl, rfl⟩

theorem State.trained_iff (s : State) : s.trained = true ↔ ∀ d, d < 512 → 2 ≤ (Store.get ({} : Chan) d s.chans).st := by
  simp only [State.trained, List.all_eq_true, List.mem_range, decide_eq_true_eq]

theorem State.endTraining_phase {s : State} (hp : s.phase = 3) : s.endTraining.phase = if s.trained = true then 4 else 3 := by
  rw [State.endTraining, hp]
  cases s.trained with
  | true => rfl
  | false => exact hp

/-! ### Flits (R376) -/

/-- What an accepted flit makes of its port. -/
def Port.accept (x : Port) (f : List Byte) : Port :=
  let v := bits (recU f 0 4) 29 3
  { x with rxseq := (x.rxseq + 1) % 2 ^ 32, replays := 0, owed := Store.put 0 v (Store.get 0 v x.owed + 1) x.owed }.credit (bits (recU f 8 4) 21 3) (bits (recU f 8 4) 24 8)

/-- The payload of a flit, where it is for this package. -/
def State.payloadOf (s : State) (f : List Byte) : List Out :=
  if bits (recU f 0 4) 16 13 = s.pkgid then [.payload (bits (recU f 0 4) 0 13) (bits (recU f 0 4) 29 3) ((f.drop 16).take (bits (recU f 8 4) 0 8))] else []

/-- A flit has been accepted. -/
def State.acceptFlit (s : State) (p : Nat) (f : List Byte) : State :=
  { s with ports := Store.put {} p ((s.port p).accept f) s.ports, outbox := s.outbox ++ s.payloadOf f }

theorem State.acceptFlit_eq (s : State) (p : Nat) (f : List Byte) : s.acceptFlit p f =
    if bits (recU f 0 4) 16 13 = s.pkgid then
      (s.setPort p ((s.port p).accept f)).send [.payload (bits (recU f 0 4) 0 13) (bits (recU f 0 4) 29 3) ((f.drop 16).take (bits (recU f 8 4) 0 8))]
    else s.setPort p ((s.port p).accept f) := by
  rw [State.acceptFlit, State.payloadOf]
  by_cases hmine : bits (recU f 0 4) 16 13 = s.pkgid
  · rw [if_pos hmine, if_pos hmine]
    rfl
  · rw [if_neg hmine, if_neg hmine, List.append_nil]
    rfl

section
variable {s : State} {p : Nat} {f : List Byte} (hp : p < 48) (hup : (s.port p).up = true) (htr : (s.port p).training = false)
include hp hup htr

theorem State.port_listens : ¬ (decide (48 ≤ p) || !(s.port p).up || (s.port p).training) = true := by
  rw [hup, htr, decide_eq_false (Nat.not_le.mpr hp)]
  decide

theorem flitReceive_refused (h : flitOk f = false ∨ recU f 4 4 ≠ (s.port p).rxseq) : exec (.flitReceive p f) s =
    .next (({ s with outbox := s.outbox ++ [.refuseFlit p (s.port p).rxseq] } : State).setPort p
      (if (s.port p).replays < 7 then { s.port p with replays := (s.port p).replays + 1 } else { s.port p with replays := 0, training := true })) := by
  have hno : ¬ (flitOk f && recU f 4 4 == (s.port p).rxseq) = true := by
    rw [Bool.and_eq_true, beq_iff_eq]
    rintro ⟨hok, hseq⟩
    cases h with
    | inl h => exact Bool.false_ne_true (h.symm.trans hok)
    | inr h => exact h hseq
  refine congrArg Host.Outcome.next ((if_neg (State.port_listens hp hup htr)).trans ((if_neg hno).trans ?_))
  by_cases hr : (s.port p).replays < 7
  · rw [if_pos hr]
    exact if_pos (by omega)
  · rw [if_neg hr]
    exact if_neg (by omega)

theorem flitReceive_accepted (hok : flitOk f = true) (hseq : recU f 4 4 = (s.port p).rxseq) (hq : (s.port p).queue = []) : exec (.flitReceive p f) s =
    .next ((s.acceptFlit p f).drainPort p [] []) := by
  have hyes : (flitOk f && recU f 4 4 == (s.port p).rxseq) = true := by rw [hok, hseq, beq_self_eq_true]; rfl
  have hqueue : ((s.port p).accept f).queue = [] := by
    rw [Port.accept, Port.credit]
    split <;> exact hq
  refine congrArg Host.Outcome.next ((if_neg (State.port_listens hp hup htr)).trans ((if_pos hyes).trans ?_))
  refine (congrArg (State.drainPort _ p []) hqueue).trans (congrArg (fun u : State => u.drainPort p [] []) ?_)
  exact (s.acceptFlit_eq p f).symm
end

/-- Nothing waits: the port stays as it is. -/
theorem State.drainPort_nil (s : State) (p : Nat) : (s.drainPort p [] []).port p = { s.port p with queue := [] } ∧ (s.drainPort p [] []).outbox = s.outbox :=
  ⟨Store.get_put_same _ _ _ _, rfl⟩

section
variable (x : Port) (f : List Byte)

theorem Port.accept_counts : (x.accept f).rxseq = (x.rxseq + 1) % 2 ^ 32 ∧ (x.accept f).replays = 0 := by
  rw [Port.accept, Port.credit]
  split <;> exact ⟨rfl, rfl⟩

theorem Port.accept_owed (v : Nat) : Store.get 0 v (x.accept f).owed =
    if v = bits (recU f 0 4) 29 3 then Store.get 0 v x.owed + 1 else Store.get 0 v x.owed := by
  have howed : (x.accept f).owed = Store.put 0 (bits (recU f 0 4) 29 3) (Store.get 0 (bits (recU f 0 4) 29 3) x.owed + 1) x.owed := by
    rw [Port.accept, Port.credit]
    split <;> rfl
  rw [howed]
  by_cases hv : v = bits (recU f 0 4) 29 3
  · rw [if_pos hv, hv, Store.get_put_same]
  · rw [if_neg hv, Store.get_put_other _ _ hv]

theorem Port.accept_credits (v : Nat) : Store.get 0 v (x.accept f).credits =
    if v = bits (recU f 8 4) 21 3 ∧ bits (recU f 8 4) 24 8 ≠ 0 then min 64 (Store.get 0 v x.credits + bits (recU f 8 4) 24 8) else Store.get 0 v x.credits := by
  rw [Port.accept, Port.credit]
  by_cases hn : bits (recU f 8 4) 24 8 = 0
  · rw [if_pos hn, if_neg (fun h => h.2 hn)]
  · rw [if_neg hn]
    by_cases hv : v = bits (recU f 8 4) 21 3
    · rw [if_pos ⟨hv, hn⟩, hv]
      exact Store.get_put_same _ _ _ _
    · rw [if_neg (fun h => hv h.1)]
      exact Store.get_put_other _ _ hv _
end

end Sys2Proof.Machine

namespace Sys2Proof.Proofs
open Sys2Proof.Machine Sys2Proof.Claims

section
variable {s : State} {p : Nat} (hp : p < 2)
include hp

theorem ethFrame_delivered {tr e : Nat} (data : List Byte) (hup : bits s.eth p 1 = 1) (ht : tr = 0) (he : e < 769) :
    exec (.ethFrameReceive p tr e data) s = .next { s with outbox := s.outbox ++ [.deliver e data] } := by
  have hlink : ¬ (decide (2 ≤ p) || decide (bits s.eth p 1 = 0)) = true := by
    rw [hup, decide_eq_false (Nat.not_le.mpr hp)]
    decide
  have hgood : ¬ (tr != 0 || decide (endpoints ≤ e)) = true := by
    rw [ht, decide_eq_false (show ¬ endpoints ≤ e from Nat.not_le.mpr he)]
    decide
  exact congrArg Host.Outcome.next ((if_neg hlink).trans (if_neg hgood))

theorem ethFrame_dropped {tr e : Nat} (data : List Byte) (hup : bits s.eth p 1 = 1) (h : tr ≠ 0 ∨ 769 ≤ e) :
    exec (.ethFrameReceive p tr e data) s = .next { s with ethdrop := s.ethdrop + 1 } := by
  have hlink : ¬ (decide (2 ≤ p) || decide (bits s.eth p 1 = 0)) = true := by
    rw [hup, decide_eq_false (Nat.not_le.mpr hp)]
    decide
  have hbad : (tr != 0 || decide (endpoints ≤ e)) = true := by
    rw [Bool.or_eq_true, bne_iff_ne, decide_eq_true_eq]
    exact h
  exact congrArg Host.Outcome.next ((if_neg hlink).trans (if_pos hbad))

theorem ethPortDown_done (hup : bits s.eth p 1 = 1) : exec (.ethPortDown p) s = .next { s with eth := s.eth - 2 ^ p } :=
  congrArg Host.Outcome.next (if_pos (by rw [hup, decide_eq_true hp]; rfl))

theorem ethPortUp_done (hdown : bits s.eth p 1 = 0) (hphase : 2 ≤ s.phase) : exec (.ethPortUp p) s = .next { s with eth := s.eth + 2 ^ p } :=
  congrArg Host.Outcome.next (if_pos (by rw [hdown, decide_eq_true hp, decide_eq_true hphase]; rfl))
end

theorem configStore_updated {s : State} (pkg : Nat) {sigs : Nat} (hphase : 2 ≤ s.phase) (h : sigs % 4 = 3) :
    exec (.configStoreUpdate pkg sigs) s = .next { s with pkgStore := pkg % 2 ^ 13, cfgNext := s.cfgNext + 1 } := by
  refine congrArg Host.Outcome.next (if_pos ?_)
  have hbits : bits sigs 0 2 = 3 := by rw [bits, pow_zero, Nat.div_one]; exact h
  rw [hbits, State.serves, decide_eq_true hphase]
  rfl

theorem configStore_unsigned {s : State} (pkg : Nat) {sigs : Nat} (h : sigs % 4 ≠ 3) : exec (.configStoreUpdate pkg sigs) s = .next s := by
  refine congrArg Host.Outcome.next (if_neg ?_)
  have hbits : bits sigs 0 2 ≠ 3 := by rw [bits, pow_zero, Nat.div_one]; exact h
  rw [decide_eq_false hbits, Bool.and_false]
  exact Bool.false_ne_true

theorem channel_trains {s : State} {c : Nat} (rdlo rdhi wrlo wrhi : Nat) (weak : List Nat) (hc : c < 512) (hp : s.phase = 3)
    (hx : Store.get ({} : Chan) c s.chans = { st := 1 }) : ∃ t, exec (.hbmChannelTraining c rdlo rdhi wrlo wrhi weak 1) s = .next t ∧
      Store.get ({} : Chan) c t.chans =
        { st := if weak.length ≤ 2 then 2 else 3, rdw := rdhi - rdlo, rdc := rdlo + (rdhi - rdlo) / 2, wrw := wrhi - wrlo, wrc := wrlo + (wrhi - wrlo) / 2, lane0 := weak[0]?, lane1 := weak[1]?, pass := decide (weak.length ≤ 2) } ∧
      (∀ d, d ≠ c → Store.get ({} : Chan) d t.chans = Store.get {} d s.chans) ∧
      ((∀ d, d < 512 → d ≠ c → 2 ≤ (Store.get ({} : Chan) d s.chans).st) → t.phase = 4) ∧
      ∀ d, d < 512 → d ≠ c → (Store.get ({} : Chan) d s.chans).st < 2 → t.phase = 3 := by
  have hexec := hbmChannelTraining_exec (s := s) (c := c) hc hp (by rw [hx]) rdlo rdhi wrlo wrhi weak 1
  let y : Chan := { st := if weak.length ≤ 2 then 2 else 3, rdw := rdhi - rdlo, rdc := rdlo + (rdhi - rdlo) / 2, wrw := wrhi - wrlo, wrc := wrlo + (wrhi - wrlo) / 2, lane0 := weak[0]?, lane1 := weak[1]?, pass := decide (weak.length ≤ 2) }
  have hy : Chan.trainedTo { st := 1 } rdlo rdhi wrlo wrhi weak (1 == 1) = y := by
    simp only [Chan.trainedTo, y, beq_self_eq_true, Bool.true_and, decide_eq_true_eq, Bool.false_eq_true, if_false]
  rw [hx, hy] at hexec
  obtain ⟨v, hv⟩ : ∃ v : State, ({ s with chans := Store.put {} c y s.chans } : State) = v := ⟨_, rfl⟩
  rw [hv] at hexec
  have hsame : Store.get ({} : Chan) c v.chans = y := by
    rw [← hv]
    exact Store.get_put_same ({} : Chan) y c s.chans
  have hother (d : Nat) (hd : d ≠ c) : Store.get ({} : Chan) d v.chans = Store.get {} d s.chans := by
    rw [← hv]
    exact Store.get_put_other ({} : Chan) y hd s.chans
  have hvp : v.phase = 3 := by
    rw [← hv]
    exact hp
  have hst : 2 ≤ y.st := by
    simp only [y]
    split <;> decide
  have hchans := v.endTraining_chans.1
  have hphase := State.endTraining_phase hvp
  refine ⟨_, hexec, by rw [hchans, hsame], fun d hd => by rw [hchans, hother d hd], fun hall => ?_, fun d hd hdc hlow => ?_⟩
  · rw [hphase, if_pos]
    refine v.trained_iff.mpr fun d hd => ?_
    by_cases hdc : d = c
    · rw [hdc, hsame]
      exact hst
    · rw [hother d hdc]
      exact hall d hd hdc
  · rw [hphase, if_neg]
    intro htr
    have hge := v.trained_iff.mp htr d hd
    rw [hother d hdc] at hge
    exact absurd hlow (Nat.not_lt.mpr hge)

theorem channel_fails {s : State} {c : Nat} (rdlo rdhi wrlo wrhi : Nat) (weak : List Nat) {confirm : Nat} {x : Chan} (hc : c < 512) (hp : s.phase = 3)
    (hx : Store.get ({} : Chan) c s.chans = x) (hst : x.st = 1) (hno : confirm ≠ 1) : ∃ t,
      exec (.hbmChannelTraining c rdlo rdhi wrlo wrhi weak confirm) s = .next t ∧ c ∉ t.freeChans ∧
      let y := Store.get ({} : Chan) c t.chans
      y.st = 3 ∧ y.pass = false ∧ (x.pass = true → y = { x with st := 3, pass := false }) ∧
      ∀ d, d ≠ c → Store.get ({} : Chan) d t.chans = Store.get {} d s.chans := by
  have hexec := hbmChannelTraining_exec (s := s) (c := c) hc hp (by rw [hx, hst]) rdlo rdhi wrlo wrhi weak confirm
  have hconfirm : (confirm == 1) = false := beq_eq_false_iff_ne.mpr hno
  rw [hx, hconfirm] at hexec
  obtain ⟨y, hy⟩ : ∃ y, x.trainedTo rdlo rdhi wrlo wrhi weak false = y := ⟨_, rfl⟩
  have hfields : y.st = 3 ∧ y.pass = false ∧ (x.pass = true → y = { x with st := 3, pass := false }) := by
    rw [← hy, Chan.trainedTo]
    cases hpass : x.pass with
    | true => exact ⟨rfl, rfl, fun _ => rfl⟩
    | false => exact ⟨rfl, rfl, nofun⟩
  rw [hy] at hexec
  obtain ⟨v, hv⟩ : ∃ v : State, ({ s with chans := Store.put {} c y s.chans } : State) = v := ⟨_, rfl⟩
  rw [hv] at hexec
  have hsame : Store.get ({} : Chan) c v.endTraining.chans = y := by
    rw [v.endTraining_chans.1, ← hv]
    exact Store.get_put_same ({} : Chan) y c s.chans
  have hother (d : Nat) (hd : d ≠ c) : Store.get ({} : Chan) d v.endTraining.chans = Store.get {} d s.chans := by
    rw [v.endTraining_chans.1, ← hv]
    exact Store.get_put_other ({} : Chan) y hd s.chans
  obtain ⟨hst3, hpass, hkeeps⟩ := hfields
  refine ⟨_, hexec, fun hm => ?_, ?_⟩
  · have hgood := (List.mem_filter.mp (List.mem_filter.mp hm).1).2
    rw [hsame, hst3] at hgood
    exact absurd hgood (by decide)
  · rw [hsame]
    exact ⟨hst3, hpass, hkeeps, hother⟩

theorem flitReceive_done {s : State} {p : Nat} {f : List Byte} (hp : p < 48) (hup : (s.port p).up = true) (htr : (s.port p).training = false)
    (hok : flitOk f = true) (hseq : recU f 4 4 = (s.port p).rxseq) (hq : (s.port p).queue = []) : ∃ t, exec (.flitReceive p f) s = .next t ∧
      (t.port p).rxseq = ((s.port p).rxseq + 1) % 2 ^ 32 ∧ (t.port p).replays = 0 ∧
      (∀ v, Store.get 0 v (t.port p).owed = if v = bits (recU f 0 4) 29 3 then Store.get 0 v (s.port p).owed + 1 else Store.get 0 v (s.port p).owed) ∧
      (∀ v, Store.get 0 v (t.port p).credits = if v = bits (recU f 8 4) 21 3 ∧ bits (recU f 8 4) 24 8 ≠ 0 then
        min 64 (Store.get 0 v (s.port p).credits + bits (recU f 8 4) 24 8) else Store.get 0 v (s.port p).credits) ∧
      t.outbox = s.outbox ++ (if bits (recU f 0 4) 16 13 = s.pkgid then [.payload (bits (recU f 0 4) 0 13) (bits (recU f 0 4) 29 3) ((f.drop 16).take (bits (recU f 8 4) 0 8))] else []) := by
  have hexec := flitReceive_accepted hp hup htr hok hseq hq
  obtain ⟨u, hu⟩ : ∃ u : State, s.acceptFlit p f = u := ⟨_, rfl⟩
  rw [hu] at hexec
  have hport : u.port p = (s.port p).accept f := by
    rw [← hu]
    exact Store.get_put_same ({} : Port) ((s.port p).accept f) p s.ports
  obtain ⟨hdrain, hout⟩ := u.drainPort_nil p
  rw [hport] at hdrain
  obtain ⟨hrx, hreplays⟩ := (s.port p).accept_counts f
  refine ⟨_, hexec, ?_⟩
  rw [hdrain, hout]
  exact ⟨hrx, hreplays, (s.port p).accept_owed f, (s.port p).accept_credits f, by rw [← hu]; rfl⟩

/-- Settles O60, event by event. -/
theorem linkEvents : Obligations.LinkEvents := by
  intro s
  refine ⟨fun p tr e data hp hup => ⟨ethFrame_delivered hp data hup, ethFrame_dropped hp data hup⟩, fun p hp hup => ethPortDown_done hp hup,
    fun p hp hdown hphase => ethPortUp_done hp hdown hphase, fun p f => ?_, rfl, fun pkg sigs => ⟨configStore_updated pkg, configStore_unsigned pkg⟩,
    fun c rdlo rdhi wrlo wrhi weak hc hp hx => channel_trains rdlo rdhi wrlo wrhi weak hc hp hx,
    fun c rdlo rdhi wrlo wrhi weak confirm x hc hp hx hst hno => channel_fails rdlo rdhi wrlo wrhi weak hc hp hx hst hno, coldReset_done s, warmReset_done s⟩
  intro x a c hp hup htr
  refine ⟨fun hok hseq hq => flitReceive_done hp hup htr hok hseq hq, fun h => ⟨_, flitReceive_refused hp hup htr h, rfl, ?_⟩⟩
  exact Store.get_put_same _ _ _ _

end Sys2Proof.Proofs
end

section
/-! PROOFS. Bounce channels (R366, R367): the ring of a channel, a frame that arrives, a frame that goes out. -/

namespace Sys2Proof.Machine
open Sys2Proof.Claims

theorem State.bounce_setBounce_same (s : State) (c : Nat) (x : Bounce) : (s.setBounce c x).bounce c = x := Store.get_put_same _ _ _ _
theorem State.bounce_setBounce_other (s : State) {c d : Nat} (h : d ≠ c) (x : Bounce) : (s.setBounce c x).bounce d = s.bounce d := Store.get_put_other _ _ h _

theorem Bounce.size_pos (x : Bounce) : 0 < x.size := by rw [Bounce.size]; positivity

/-- A write of memory is none of the descriptor of a channel that is not outbound. -/
theorem Bounce.noted_in {x : Bounce} (h : x.out = false) (m : List Host.Cell) (pa : Nat) (data : List Byte) : x.noted m pa data = x := by
  rw [Bounce.noted]
  split
  · rfl
  · rw [h]
    simp only [Bool.and_false, Bool.false_and, Bool.false_eq_true, if_false]

theorem Store.get_mapVals {α : Type} {d : α} {f : α → α} (hd : f d = d) (k : Nat) :
    ∀ m : Store α, Store.get d k (m.map (fun e => (e.1, f e.2))) = f (Store.get d k m)
  | [] => hd.symm
  | e :: m => by
    rw [List.map_cons, Store.get, Store.get, Store.get_mapVals hd k m]
    split <;> rfl

theorem State.syeWrite_bounce_in {s : State} {c : Nat} (h : (s.bounce c).out = false) (pa : Nat) (data : List Byte) (bad : List Nat) :
    (s.syeWrite pa data bad).bounce c = s.bounce c := by
  have hmap := Store.get_mapVals (d := ({} : Bounce)) (f := fun x => x.noted (s.wrPhys pa data bad).mem pa data) rfl c s.bounces
  exact hmap.trans (Bounce.noted_in h _ _ _)

/-! ### The ring -/

theorem State.readAt_clean {s : State} (h : s.poison = []) (pa n : Nat) : s.readAt pa n = (s, some (Store.getN 0 s.mem pa n)) := by
  simp only [State.readAt, State.fixLines_clean h, State.linesIn_clean h]
  rfl

theorem length_ringBytes (m : Store Byte) (x : Bounce) (i n : Nat) : (ringBytes m x i n).length = n := by
  rw [ringBytes, List.length_map, List.length_range]

/-- The bytes of a ring of `z` bytes from an index on run to the ring's end and go on at its base. -/
theorem ring_parts (m : Store Byte) (base i : Nat) {n z : Nat} (hz : 0 < z) (hn : n ≤ z) :
    Store.getN 0 m (base + i % z) (Nat.min n (z - i % z)) ++ Store.getN 0 m base (n - Nat.min n (z - i % z)) =
      (List.range n).map (fun k => Store.get 0 (base + (i + k) % z) m) := by
  have hi := Nat.mod_lt i hz
  obtain ⟨a, ha⟩ : ∃ a, Nat.min n (z - i % z) = a := ⟨_, rfl⟩
  have hle : a ≤ n := ha ▸ Nat.min_le_left _ _
  have hfit : a ≤ z - i % z := ha ▸ Nat.min_le_right _ _
  have hsplit : List.range n = List.range a ++ (List.range (n - a)).map (a + ·) := by rw [← List.range_add, Nat.add_sub_cancel' hle]
  rw [ha, hsplit, List.map_append, List.map_map, Store.getN_eq_map, Store.getN_eq_map]
  congr 1
  · refine List.map_congr_left fun k hk => ?_
    rw [List.mem_range] at hk
    rw [Nat.add_mod, Nat.mod_eq_of_lt (show k < z by omega), Nat.mod_eq_of_lt (show i % z + k < z by omega), Nat.add_assoc]
  · refine List.map_congr_left fun k hk => ?_
    rw [List.mem_range] at hk
    have hmin : a = z - i % z := by
      have hcase : (if n ≤ z - i % z then n else z - i % z) = a := ha
      split at hcase <;> omega
    have hwrap : (i + (a + k)) % z = k := by
      rw [Nat.add_mod, Nat.mod_eq_of_lt (show a + k < z by omega), show i % z + (a + k) = z + k by omega, Nat.add_mod_left, Nat.mod_eq_of_lt (by omega)]
    rw [Function.comp_apply, hwrap]

theorem State.ringRead_clean {s : State} (h : s.poison = []) (x : Bounce) (i : Nat) {n : Nat} (hn : n ≤ x.size) :
    s.ringRead x i n = (s, some (ringBytes s.mem x i n)) := by
  simp only [State.ringRead, State.readAt_clean h, ring_parts s.mem x.base i x.size_pos hn, ringBytes]

/-- Bytes that are put into a ring stand there from the index on. -/
theorem State.ringPut_get (s : State) (x : Bounce) (i : Nat) {data : List Byte} (hl : data.length ≤ x.size) {k : Nat} (hk : k < data.length) :
    Store.get 0 (x.base + (i + k) % x.size) (s.ringPut x i data).mem = data.getD k 0 := by
  have hpos := x.size_pos
  have hi := Nat.mod_lt i hpos
  have hmod : (i + k) % x.size = if k < x.size - i % x.size then i % x.size + k else k - (x.size - i % x.size) := by
    rw [Nat.add_mod, Nat.mod_eq_of_lt (show k < x.size by omega)]
    split
    · exact Nat.mod_eq_of_lt (by omega)
    · rw [show i % x.size + k = x.size + (k - (x.size - i % x.size)) by omega, Nat.add_mod_left, Nat.mod_eq_of_lt (by omega)]
  have hfirst (hlt : k < x.size - i % x.size) : Store.get 0 (x.base + (i % x.size + k)) (s.wrPhys (x.base + i % x.size) (data.take (x.size - i % x.size)) []).mem =
      data.getD k 0 := by
    rw [State.wrPhys_wrote, List.length_take, if_pos (by omega), show x.base + (i % x.size + k) - (x.base + i % x.size) = k by omega,
      List.getD_eq_getElem?_getD, List.getElem?_take, if_pos hlt, List.getD_eq_getElem?_getD]
  rw [hmod, State.ringPut]
  by_cases hone : data.length ≤ x.size - i % x.size
  · have hlt : k < x.size - i % x.size := by omega
    rw [if_pos hone, if_pos hlt]
    exact hfirst hlt
  · rw [if_neg hone, State.wrPhys_wrote, List.length_drop]
    split
    · next hlt =>
      rw [if_neg (by omega)]
      exact hfirst hlt
    · next hge =>
      rw [if_pos (by omega), Nat.add_sub_cancel_left, List.getD_eq_getElem?_getD, List.getElem?_drop, List.getD_eq_getElem?_getD]
      congr 2
      omega

/-! ### The channel -/

theorem bounceEnable_done {s : State} {c ctx : Nat} {p : List (Nat × Nat)} (hc : c < 256) (hen : (s.bounce c).en = false) (hw : (s.bounce c).world ≠ 0)
    (hring : bits (s.bounce c).ring 0 4 ≤ 8) (hkey : (s.bounce c).key.isSome = true) (hok : s.ringOk (s.bounce c) = true)
    (hctx : s.bounceCtx (s.bounce c) = some ctx)
    (hwin : s.translateRange ctx (s.bounce c).win (s.bounce c).wsize (if (s.bounce c).out then kRead else kWrite) = .ok p) :
    ∃ t, exec (.bounceEnable c) s = .next t ∧ (t.bounce c).en = true ∧
      { t.bounce c with ctl := (s.bounce c).ctl, desc := (s.bounce c).desc, asked := (s.bounce c).asked } = s.bounce c ∧
      (∀ d, d ≠ c → t.bounce d = s.bounce d) ∧ { t with bounces := s.bounces } = s := by
  obtain ⟨y, hy, hyctl, hrest⟩ : ∃ y : Bounce, s.setBounce c y = s.enableBounce c ∧ y.ctl = (s.bounce c).ctl % 2 ^ 63 + 2 ^ 63 ∧
      { y with ctl := (s.bounce c).ctl, desc := (s.bounce c).desc, asked := (s.bounce c).asked } = s.bounce c := by
    have hmiss : s.bounceMiss (s.bounce c) = none := by
      rw [State.bounceMiss, hctx]
      simp only [hwin]
      split <;> rfl
    have hpass : ((s.bounce c).world != 0 && decide (bits (s.bounce c).ring 0 4 ≤ 8) && (s.bounce c).key.isSome && s.ringOk (s.bounce c)) = true := by
      rw [bne_iff_ne.mpr hw, decide_eq_true hring, hkey, hok]
      rfl
    refine ⟨{ s.bounce c with ctl := (s.bounce c).ctl % 2 ^ 63 + 2 ^ 63, desc := if (s.bounce c).out then s.descOf (s.bounce c) else none, asked := none },
      ?_, rfl, rfl⟩
    simp only [State.enableBounce, hmiss, hctx, hwin, hpass, Bool.and_true, if_true]
  refine ⟨s.enableBounce c, congrArg Host.Outcome.next (if_neg ?_), ?_, ?_, fun d hd => ?_, ?_⟩
  · rw [hen, decide_eq_false (Nat.not_le.mpr hc)]
    exact Bool.false_ne_true
  · rw [← hy, State.bounce_setBounce_same, Bounce.en, hyctl, beq_iff_eq, bits]
    omega
  · rw [← hy, State.bounce_setBounce_same]
    exact hrest
  · rw [← hy]
    exact State.bounce_setBounce_other s hd y
  · rw [← hy]
    rfl

/-! ### Frames -/

theorem pieces_page {va n : Nat} (h0 : 0 < n) (h : va % 4096 + n ≤ 4096) : pieces va n = [(va, n)] := by
  have hcount : (va % 4096 + n + 4095) / 4096 = 1 := by omega
  have hmin : Nat.min (va + n) ((va / 4096 + 0 + 1) * 4096) = va + n := Nat.min_eq_left (by omega)
  rw [pieces, hcount]
  simp only [List.range_one, List.map_cons, List.map_nil, if_true, hmin, Nat.add_sub_cancel_left]

theorem Bounce.frameLen_of_ok {x : Bounce} {h : List Byte} (hok : frameOk x h = true) (hsize : 80 + recU h 8 4 ≤ x.size) :
    x.frameLen h = 80 + recU h 8 4 := by
  simp only [frameOk, Bool.and_eq_true, decide_eq_true_eq] at hok
  obtain ⟨⟨⟨⟨hline, hmax⟩, _⟩, _⟩, _⟩ := hok
  rw [Bounce.frameLen, if_pos]
  rw [decide_eq_true hmax, decide_eq_true hsize, hline]
  rfl

theorem length_of_gcmOpen {key : Nat} {iv aad data plain : List Byte} (h : gcmOpen key iv aad data = some plain) : plain.length = data.length - 16 := by
  simp only [gcmOpen] at h
  split at h
  · cases h
    rw [length_gcmText, List.length_take]
    omega
  · cases h

section
variable {s : State} {c ctx pa : Nat}

/-- A frame that has arrived whole is opened with the channel's key and the frame count. -/
theorem State.frameIn_opens (hen : (s.bounce c).en = true) (hout : (s.bounce c).out = false) :
    let x := s.bounce c
    let h := ringBytes s.mem x x.ridx 64
    80 + recU h 8 4 ≤ x.held → 80 + recU h 8 4 ≤ x.size → recU h 0 8 = x.cnt → frameOk x h = true → clean s → s.bounceCtx x = some ctx →
    s.frameIn c = match gcmOpen (x.key.getD 0) (frameIv c x.cnt) h ((ringBytes s.mem x x.ridx (80 + recU h 8 4)).drop 64) with
      | some plain => (match s.frameWrite ctx (pieces (x.win + recU h 12 4) (recU h 8 4)) (plain.take (recU h 8 4)) with
        | (w, none) => w
        | (w, some 0) => w.passFrame c (80 + recU h 8 4) (fun y => { y with cnt := (y.cnt + 1) % 2 ^ 48, resync := false, err := 0 })
        | (w, some e) => w.passFrame c (80 + recU h 8 4) (fun y => { y with err := e }))
      | none => s.passFrame c (80 + recU h 8 4) (fun y => { y with err := 6 }) := by
  intro x h hheld hsize hcnt hok hclean hctx
  obtain ⟨hp, hs⟩ := hclean
  have hlook : (!x.en || x.out || decide (x.held < 64)) = false := by
    rw [show x.en = true from hen, show x.out = false from hout, decide_eq_false (by omega)]
    rfl
  have hwhole := Bounce.frameLen_of_ok hok hsize
  have hhead : s.ringRead x x.ridx 64 = (s, some h) := State.ringRead_clean hp x _ (by omega)
  have hframe : s.ringRead x x.ridx (80 + recU h 8 4) = (s, some (ringBytes s.mem x x.ridx (80 + recU h 8 4))) := State.ringRead_clean hp x _ hsize
  have hshort : ¬ x.held < x.frameLen h := by rw [hwhole]; omega
  have hseq : (recU h 0 8 != x.cnt) = false := by rw [hcnt, bne_self_eq_false]
  have hform : (decide (x.frameLen h = 64) || !frameOk x h) = false := by
    rw [hok, hwhole, decide_eq_false (by omega)]
    rfl
  unfold State.frameIn
  simp only [← show x = s.bounce c from rfl, hlook, hhead, if_neg hshort, hseq, hform, Bool.false_eq_true, if_false]
  rw [hwhole, hframe]
  simp only [hcnt, hctx]
  cases gcmOpen (x.key.getD 0) (frameIv c x.cnt) h ((ringBytes s.mem x x.ridx (80 + recU h 8 4)).drop 64) with
  | none => rfl
  | some plain => rfl

theorem bounceFrameIn_done (hen : (s.bounce c).en = true) (hout : (s.bounce c).out = false) :
    let x := s.bounce c
    let h := ringBytes s.mem x x.ridx 64
    let len := recU h 8 4
    let off := recU h 12 4
    80 + len ≤ x.held → 80 + len ≤ x.size → recU h 0 8 = x.cnt → frameOk x h = true → clean s → 0 < len → s.bounceCtx x = some ctx →
    (x.win + off) % 4096 + len ≤ 4096 → lies s ctx (x.win + off) len kWrite pa →
    let opened := gcmOpen (x.key.getD 0) (frameIv c x.cnt) h ((ringBytes s.mem x x.ridx (80 + len)).drop 64)
    ∃ t, exec (.bounceFrameIn c) s = .next t ∧
      (opened = none → t.mem = s.mem ∧ t.bounce c = { x with ridx := (x.ridx + (80 + len)) % x.modulus, err := 6 }) ∧
      ∀ plain, opened = some plain → wrote s.mem t.mem pa (plain.take len) ∧ (t.bounce c).ridx = (x.ridx + (80 + len)) % x.modulus ∧
        (t.bounce c).cnt = (x.cnt + 1) % 2 ^ 48 ∧ (t.bounce c).err = 0 ∧ (t.bounce c).resync = false := by
  intro x h len off hheld hsize hcnt hok hclean hlen hctx hpage hlies opened
  have hopens := State.frameIn_opens hen hout hheld hsize hcnt hok hclean hctx
  refine ⟨s.frameIn c, rfl, fun hnone => ?_, fun plain hplain => ?_⟩
  · rw [hopens, show gcmOpen _ _ _ _ = none from hnone]
    exact ⟨rfl, State.bounce_setBounce_same _ _ _⟩
  · have hl : (plain.take len).length = len := by
      rw [List.length_take, length_of_gcmOpen hplain, List.length_drop, length_ringBytes]
      omega
    have hwrite : s.frameWrite ctx (pieces (x.win + off) len) (plain.take len) = (s.syeWrite pa (plain.take len) [], some 0) := by
      rw [← hl] at hlies
      have htake : (plain.take len).take len = plain.take len := by rw [List.take_take, Nat.min_self]
      rw [pieces_page hlen hpage, State.frameWrite, htake, State.gwrite_lies hlies hclean.2]
      rfl
    obtain ⟨w, hw⟩ : ∃ w, s.syeWrite pa (plain.take len) [] = w := ⟨_, rfl⟩
    have hdone : s.frameIn c = w.passFrame c (80 + len) (fun y => { y with cnt := (y.cnt + 1) % 2 ^ 48, resync := false, err := 0 }) := by
      rw [hw] at hwrite
      simp only [x, h, len, off] at hwrite
      rw [hopens, show gcmOpen _ _ _ _ = some plain from hplain]
      simp only [hwrite]
      rfl
    have hwrote : wrote s.mem w.mem pa (plain.take len) := hw ▸ s.wrPhys_wrote pa _ []
    have hbounce : w.bounce c = x := hw ▸ State.syeWrite_bounce_in hout pa _ []
    rw [hdone, State.passFrame, State.bounce_setBounce_same, hbounce]
    exact ⟨hwrote, rfl, rfl, rfl, rfl⟩

/-- A frame that an outbound channel is asked for goes into the ring. -/
theorem bounceFrameOut_done {len off : Nat} (hen : (s.bounce c).en = true) (hout : (s.bounce c).out = true) (hasked : (s.bounce c).asked = some (len, off)) :
    let x := s.bounce c
    let h := x.header len off
    frameOk x h = true → x.held + 80 + len ≤ x.size → s.ringOk x = true → s.bounceCtx x = some ctx → s.poison = [] → lies s ctx (x.win + off) len kRead pa →
    let frame := h ++ gcmSeal (x.key.getD 0) (frameIv c x.cnt) h (Store.getN 0 s.mem pa len)
    ∃ t, exec (.bounceFrameOut c) s = .next t ∧ (∀ k, k < frame.length → Store.get 0 (x.base + (x.widx + k) % x.size) t.mem = frame.getD k 0) ∧
      (t.bounce c).widx = (x.widx + 80 + len) % x.modulus ∧ (t.bounce c).cnt = (x.cnt + 1) % 2 ^ 48 ∧ (t.bounce c).asked = none ∧ (t.bounce c).err = 0 := by
  intro x h hok hroom hring hctx hp hlies frame
  obtain ⟨hrange, hwin⟩ := hlies
  have hread : s.gread 0 ctx (x.win + off) len = (s, .done (Store.getN 0 s.mem pa len)) := by
    simp only [State.gread, hrange, State.readPieces, hwin, State.fixLines_clean hp, State.linesIn_clean hp, List.append_nil, Bool.false_eq_true, if_false]
    rfl
  have hlen : frame.length ≤ x.size := by
    have hhead : h.length = 64 := by simp only [h, Bounce.header, List.length_append, length_leBytes, List.length_replicate]
    have hget : (Store.getN 0 s.mem pa len).length = len := by rw [Store.getN_eq_map, List.length_map, List.length_range]
    rw [List.length_append, length_gcmSeal, hhead, hget]
    omega
  have hexec : exec (.bounceFrameOut c) s = .next ((s.ringPut x x.widx frame).setBounce c
      { x with asked := none, widx := (x.widx + 80 + len) % x.modulus, cnt := (x.cnt + 1) % 2 ^ 48, resync := false, err := 0 }) := by
    have hlook : (!x.en || !x.out) = false := by rw [show x.en = true from hen, show x.out = true from hout]; rfl
    have hfull : (decide (x.size < x.held + 80 + len) || !s.ringOk x) = false := by rw [hring, decide_eq_false (by omega)]; rfl
    refine congrArg Host.Outcome.next ?_
    unfold State.frameOut
    simp only [← show x = s.bounce c from rfl, show x.asked = some (len, off) from hasked, hctx, hlook, hfull, hread, ← show h = x.header len off from rfl, hok,
      Bool.not_true, Bool.false_eq_true, if_false]
    rfl
  refine ⟨_, hexec, fun k hk => State.ringPut_get s x x.widx hlen hk, ?_⟩
  rw [State.bounce_setBounce_same]
  exact ⟨rfl, rfl, rfl, rfl⟩
end

end Sys2Proof.Machine
end

section
/-! PROOFS. Power shedding (R371), and the launch queue of a VIF: its enabling, a write by UEC and its disabling (R277, R278). -/

namespace Sys2Proof.Machine
open Sys2Proof.Claims

/-! ### Power shedding -/

/-- What one step of a pass of shedding asks of a region that can give more. -/
structure ShedStep (p : Nat) (r q : Slot) : Prop where
  clock : p = 1 → Nat.max 400 (r.clkReg - 100) ≤ (if r.reduced then 750 else 1800) → q = { r with mhzNext := some (Nat.max 400 (r.clkReg - 100)) }
  stow : p = 2 → q.preq = true
  evict : 2 < p → q.evictReq = true

/-- A rate that the region may take waits for the next pre-emptible boundary. -/
theorem State.setClock_runs {s : State} {n mhz : Nat} (hlo : 400 ≤ mhz) (hhi : mhz ≤ if (s.slot n).reduced then 750 else 1800) (hruns : (s.slot n).st.runs = true) :
    s.setClock n mhz = s.setSlot n { s.slot n with mhzNext := some mhz } := by
  have hpass : (decide (mhz < 400) || decide (1800 < mhz) || (s.slot n).reduced && decide (750 < mhz)) = false := by
    have hmax : mhz ≤ 1800 := by split at hhi <;> omega
    have hred : ((s.slot n).reduced && decide (750 < mhz)) = false := by
      cases hr : (s.slot n).reduced with
      | false => rfl
      | true =>
        rw [hr, if_pos rfl] at hhi
        rw [decide_eq_false (Nat.not_lt.mpr hhi)]
        rfl
    rw [hred, decide_eq_false (Nat.not_lt.mpr hlo), decide_eq_false (Nat.not_lt.mpr hmax)]
    rfl
  simp only [State.setClock, hpass, hruns, Bool.false_eq_true, if_false, if_true]

theorem State.setClock_other (s : State) {n m : Nat} (h : m ≠ n) (mhz : Nat) : (s.setClock n mhz).slot m = s.slot m := by
  simp only [State.setClock]
  split
  · rfl
  · split <;> exact State.setSlot_slot_other s h _

theorem State.askStow_other (s : State) {n m : Nat} (h : m ≠ n) (evict : Bool) : (s.askStow n evict).slot m = s.slot m := by
  simp only [State.askStow]
  split
  · exact State.setSlot_slot_other s h _
  · split
    · exact State.setSlot_slot_other s h _
    · rfl

/-- The slots as a step of shedding leaves them, pass by pass. -/
theorem State.shedOne_first (s : State) (n m : Nat) : (s.shedOne 1 n).slot m = (s.setClock n (Nat.max 400 ((s.slot n).clkReg - 100))).slot m := by
  unfold State.shedOne
  simp only [State.slot]
theorem State.shedOne_second (s : State) (n m : Nat) : (s.shedOne 2 n).slot m = ((s.askStow n false).shedMark n 2).slot m := by
  unfold State.shedOne
  simp only [State.slot]
theorem State.shedOne_third (s : State) {p : Nat} (h1 : p ≠ 1) (h2 : p ≠ 2) (n m : Nat) : (s.shedOne p n).slot m = ((s.askStow n true).shedMark n 3).slot m := by
  have hpass : s.shedOne p n = { (s.askStow n true).shedMark n 3 with
      shed := (n, p, (s.slot n).clkReg) :: ((s.askStow n true).shedMark n 3).shed, shedPwr := p } := by
    unfold State.shedOne
    simp only
  rw [hpass]
  rfl

theorem State.shedMark_same (s : State) (n p : Nat) : (s.shedMark n p).slot n = { s.slot n with shedBy := p } := State.setSlot_slot_same _ _ _
theorem State.shedMark_other (s : State) {n m : Nat} (h : m ≠ n) (p : Nat) : (s.shedMark n p).slot m = s.slot m := State.setSlot_slot_other _ h _

theorem State.shedOne_other (s : State) (p : Nat) {n m : Nat} (h : m ≠ n) : (s.shedOne p n).slot m = s.slot m := by
  by_cases h1 : p = 1
  · rw [h1, State.shedOne_first, State.setClock_other s h]
  · by_cases h2 : p = 2
    · rw [h2, State.shedOne_second, State.shedMark_other _ h, State.askStow_other s h]
    · rw [State.shedOne_third s h1 h2, State.shedMark_other _ h, State.askStow_other s h]

theorem State.canShed_third {s : State} {p n : Nat} (h1 : p ≠ 1) (h2 : p ≠ 2) (h : s.canShed p n = true) :
    (s.slot n).evicted = false ∧ ((s.slot n).st = .stowed ∨ (s.slot n).st.runs = true) := by
  have hcan : (!(s.slot n).evicted && !(s.slot n).evictReq && ((s.slot n).st == .stowed || (s.slot n).st.runs && (s.slot n).preq)) = true := by
    match p with
    | 0 => exact h
    | p + 3 => exact h
  simp only [Bool.and_eq_true, Bool.or_eq_true, Bool.not_eq_true', beq_iff_eq] at hcan
  obtain ⟨⟨hev, _⟩, hst⟩ := hcan
  exact ⟨hev, hst.imp id And.left⟩

theorem State.shedOne_same {s : State} {p n : Nat} (h : s.canShed p n = true) : ShedStep p (s.slot n) ((s.shedOne p n).slot n) := by
  by_cases h1 : p = 1
  · subst h1
    have hcan : ((s.slot n).st.runs && decide (400 < (s.slot n).clkReg)) = true := h
    rw [Bool.and_eq_true] at hcan
    refine ⟨fun _ hle => ?_, fun h => by omega, fun h => by omega⟩
    rw [State.shedOne_first, State.setClock_runs (Nat.le_max_left _ _) hle hcan.1, State.setSlot_slot_same]
  · by_cases h2 : p = 2
    · subst h2
      have hcan : ((s.slot n).st.runs && !(s.slot n).preq) = true := h
      rw [Bool.and_eq_true] at hcan
      refine ⟨fun h => by omega, fun _ => ?_, fun h => by omega⟩
      rw [State.shedOne_second, State.shedMark_same, State.askStow, if_pos hcan.1, State.setSlot_slot_same]
    · refine ⟨fun h => absurd h h1, fun h => absurd h h2, fun _ => ?_⟩
      obtain ⟨hev, hst⟩ := State.canShed_third h1 h2 h
      rw [State.shedOne_third s h1 h2, State.shedMark_same, State.askStow]
      by_cases hruns : (s.slot n).st.runs = true
      · rw [if_pos hruns, State.setSlot_slot_same]
        exact Bool.or_true _
      · have hstowed : ((s.slot n).st == .stowed && !(s.slot n).evicted && true) = true := by
          rw [hst.resolve_right hruns, hev]
          rfl
        rw [if_neg hruns, if_pos hstowed, State.setSlot_slot_same]

theorem State.canShed_congr {s u : State} {n : Nat} (h : u.slot n = s.slot n) (p : Nat) : u.canShed p n = s.canShed p n := by
  simp only [State.canShed, h]

theorem State.shedOne_pwr (s : State) (p n : Nat) : (s.shedOne p n).shedPwr = p := rfl

theorem State.shedAll (p : Nat) : ∀ (ns : List Nat) (s : State), ns.Nodup → (∀ n, n ∈ ns → s.canShed p n = true) →
    let t := ns.foldl (fun (u : State) n => u.shedOne p n) s
    (ns ≠ [] → t.shedPwr = p) ∧ (∀ m, m ∉ ns → t.slot m = s.slot m) ∧ ∀ n, n ∈ ns → ShedStep p (s.slot n) (t.slot n)
  | [], _, _, _ => ⟨fun h => absurd rfl h, fun _ _ => rfl, fun _ h => absurd h List.not_mem_nil⟩
  | n :: ns, s, hnd, hcan => by
    rw [List.nodup_cons] at hnd
    obtain ⟨hn, hns⟩ := hnd
    have hslot (m : Nat) (hm : m ∈ ns) : (s.shedOne p n).slot m = s.slot m := s.shedOne_other p fun h => hn (h ▸ hm)
    obtain ⟨hpwr, hother, hstep⟩ := State.shedAll p ns (s.shedOne p n) hns fun m hm => by
      rw [State.canShed_congr (hslot m hm)]
      exact hcan m (List.mem_cons_of_mem n hm)
    refine ⟨fun _ => ?_, fun m hm => ?_, fun m hm => ?_⟩
    · cases ns with
      | nil => rfl
      | cons m ms => exact hpwr (List.cons_ne_nil m ms)
    · rw [List.mem_cons, not_or] at hm
      exact (hother m hm.2).trans (s.shedOne_other p hm.1)
    · cases List.mem_cons.mp hm with
      | inl h =>
        rw [h, List.foldl_cons, hother n hn]
        exact State.shedOne_same (hcan n List.mem_cons_self)
      | inr h => exact hslot m h ▸ hstep m h

theorem State.shedNext_can {s : State} {p : Nat} {ns : List Nat} (h : s.shedNext = some (p, ns)) : ns ≠ [] ∧ ∀ n, n ∈ ns → s.canShed p n = true := by
  have hmem := List.mem_of_find?_eq_some h
  have hne := List.find?_some h
  simp only [List.mem_flatMap, List.mem_map] at hmem
  obtain ⟨q, _, i, _, he⟩ := hmem
  cases he
  refine ⟨fun hnil => ?_, fun n hn => ?_⟩
  · rw [hnil] at hne
    exact absurd hne Bool.false_ne_true
  · have := (List.mem_filter.mp hn).2
    rw [Bool.and_eq_true] at this
    exact this.2

theorem powerShed_done {s : State} {p : Nat} {ns : List Nat} (hw : s.shedcap < s.watts) (hnext : s.shedNext = some (p, ns)) (hnd : ns.Nodup) :
    ∃ t, exec .powerShed s = .next t ∧ t.shedPwr = p ∧ (∀ m, m ∉ ns → t.slot m = s.slot m) ∧ ∀ n, n ∈ ns → ShedStep p (s.slot n) (t.slot n) := by
  obtain ⟨hne, hcan⟩ := State.shedNext_can hnext
  obtain ⟨hpwr, hother, hstep⟩ := State.shedAll p ns s hnd hcan
  refine ⟨_, congrArg Host.Outcome.next ?_, hpwr hne, hother, hstep⟩
  rw [if_neg (Nat.not_le.mpr hw), hnext]

theorem powerRestore_exec {s : State} {n p rate : Nat} {rest : List (Nat × Nat × Nat)} (hshed : s.shed = (n, p, rate) :: rest)
    (hw : s.watts * 100 ≤ s.shedcap * 95) (hst : (s.slot n).st = .running) :
    exec .powerRestore s = .next { s.unshed p n rate with shed := rest, shedPwr := (rest.head?.map (·.2.1)).getD 0 } := by
  have hcan : s.canUnshed p n = true := by
    have hstowed : ((s.slot n).st == .stowed) = false := by rw [hst]; rfl
    unfold State.canUnshed
    simp only [hstowed, Bool.and_false, Bool.false_and, Bool.not_false, Bool.true_or]
    split <;> rfl
  refine congrArg Host.Outcome.next ?_
  rw [hshed]
  exact if_neg (by rw [hcan, decide_eq_false (Nat.not_lt.mpr hw)]; exact Bool.false_ne_true)

/-- The latest step of shedding is taken back. -/
theorem powerRestore_done {s : State} {n p rate : Nat} {rest : List (Nat × Nat × Nat)} (hshed : s.shed = (n, p, rate) :: rest)
    (hw : s.watts * 100 ≤ s.shedcap * 95) (hst : (s.slot n).st = .running) : let r := s.slot n
    ∃ t, exec .powerRestore s = .next t ∧ t.shed = rest ∧
      (p = 1 → 400 ≤ rate → rate ≤ (if r.reduced then 750 else 1800) → t.slot n = { r with mhzNext := some rate }) ∧
      (p = 2 → r.preq = true → r.shedBy = 2 → r.moving = false → (t.slot n).preq = false) ∧
      (2 < p → r.shedBy = 3 → r.moving = false → (t.slot n).evictReq = false) := by
  intro r
  have hruns : (s.slot n).st.runs = true := by rw [hst]; rfl
  refine ⟨_, powerRestore_exec hshed hw hst, rfl, ?_, ?_, ?_⟩
  · rintro rfl hlo hhi
    show (s.setClock n rate).slot n = _
    rw [State.setClock_runs hlo hhi hruns, State.setSlot_slot_same]
  · rintro rfl hpreq hby hmoving
    show ((s.unshed 2 n rate).slot n).preq = false
    have hmine : (s.slot n).shedOnly 2 = true := by rw [Slot.shedOnly, show (s.slot n).shedBy = 2 from hby, show (s.slot n).moving = false from hmoving]; rfl
    simp only [State.unshed, hruns, show (s.slot n).preq = true from hpreq, hmine, Bool.and_self, if_true, State.setSlot_slot_same]
  · intro hp hby hmoving
    show ((s.unshed p n rate).slot n).evictReq = false
    have hmine : (s.slot n).shedOnly 3 = true := by rw [Slot.shedOnly, show (s.slot n).shedBy = 3 from hby, show (s.slot n).moving = false from hmoving]; rfl
    have hstay : ((s.slot n).st == .stowed && (s.slot n).evicted) = false := by rw [hst]; rfl
    unfold State.unshed
    split
    · omega
    · omega
    · simp only [hmine, hstay, Bool.not_true, Bool.false_eq_true, if_false, State.setSlot_slot_same]

/-! ### Launch queues -/

theorem Vif.qsize_pos (v : Vif) : 0 < v.qsize := by rw [Vif.qsize]; positivity

theorem vifqDisable_done {s : State} {vif : Nat} (hen : (s.vifOf vif).en = true) :
    ∃ t, exec (.vifqDisable vif) s = .next t ∧ t.vifOf vif = { s.vifOf vif with en := false, status := 0 } ∧ { t with vifs := s.vifs } = s :=
  ⟨s.disableVif vif, congrArg Host.Outcome.next (if_pos hen), State.vifOf_setVif_same _ _ _, rfl⟩

section
variable {s : State} {vif : Nat} (hp : 2 ≤ s.phase)
include hp

theorem State.serves_false : (!s.serves) = false := by rw [State.serves, decide_eq_true hp]; rfl

theorem vifqEnable_done {p : List (Nat × Nat)} (hen : (s.vifOf vif).en = false) (hshape : (s.vifOf vif).shapeOk = true)
    (hrange : s.translateRange (vifCtx vif) (s.vifOf vif).qbase (s.vifOf vif).qsize kWrite = .ok p) :
    ∃ t, exec (.vifqEnable vif) s = .next t ∧ t.vifOf vif = { s.vifOf vif with status := 1, en := true } ∧ { t with vifs := s.vifs } = s := by
  refine ⟨s.setVif vif { s.vifOf vif with status := 1, en := true }, congrArg Host.Outcome.next ?_, State.vifOf_setVif_same _ _ _, rfl⟩
  simp only [State.enableVif, hen, State.serves_false hp, hshape, hrange, Bool.or_self, Bool.not_true, Bool.false_eq_true, if_false]

theorem vifqEnable_refused (hen : (s.vifOf vif).en = false) (hshape : (s.vifOf vif).shapeOk = false) :
    ∃ t, exec (.vifqEnable vif) s = .next t ∧ t.vifOf vif = { s.vifOf vif with status := 2 } ∧ { t with vifs := s.vifs } = s := by
  refine ⟨s.setVif vif { s.vifOf vif with status := 2 }, congrArg Host.Outcome.next ?_, State.vifOf_setVif_same _ _ _, rfl⟩
  simp only [State.enableVif, hen, State.serves_false hp, hshape, Bool.or_self, Bool.not_false, Bool.false_eq_true, if_false, if_true]

/-- A write at the byte of WIDX. -/
theorem queueWrite_exec (hen : (s.vifOf vif).en = true) (data : List Byte) : let v := s.vifOf vif
    exec (.queueWrite vif (v.widx % v.qsize) data) s =
      .next (if v.qsize < v.widx % v.qsize + data.length || v.qsize < v.ready + data.length then s.answer vif false 0
        else
          let r := s.hostWrite vif (v.qbase + v.widx % v.qsize) data
          if r.2 then r.1.setVif vif { r.1.vifOf vif with widx := (v.widx + data.length) % v.modulus } else r.1) := by
  intro v
  have hhere : (decide (v.qsize ≤ v.widx % v.qsize) || !(v.en && v.widx % v.qsize == v.widx % v.qsize)) = false := by
    rw [show v.en = true from hen, beq_self_eq_true, decide_eq_false (Nat.not_le.mpr (Nat.mod_lt _ v.qsize_pos))]
    rfl
  show Host.Outcome.next (if !s.serves then s else if _ then _ else _) = _
  rw [State.serves_false hp, hhere, if_neg Bool.false_ne_true, if_neg Bool.false_ne_true]

theorem queueWrite_done (hen : (s.vifOf vif).en = true) (hs : s.snaps = []) (data : List Byte) (pa : Nat) : let v := s.vifOf vif
    let off := v.widx % v.qsize
    (off + data.length ≤ v.qsize → v.ready + data.length ≤ v.qsize → lies s (vifCtx vif) (v.qbase + off) data.length kWrite pa →
      ∃ t, exec (.queueWrite vif off data) s = .next t ∧ wrote s.mem t.mem pa data ∧ t.outbox = s.outbox ++ [.uec vif true 0] ∧
        t.vifOf vif = { v with widx := (v.widx + data.length) % v.modulus }) ∧
    (v.qsize < off + data.length ∨ v.qsize < v.ready + data.length → exec (.queueWrite vif off data) s = .next { s with outbox := s.outbox ++ [.uec vif false 0] }) := by
  intro v off
  have hexec := queueWrite_exec hp hen data
  refine ⟨fun hend hroom hlies => ?_, fun hfull => ?_⟩
  · have hfits : (decide (v.qsize < off + data.length) || decide (v.qsize < v.ready + data.length)) = false := by
      rw [decide_eq_false (Nat.not_lt.mpr hend), decide_eq_false (Nat.not_lt.mpr hroom)]
      rfl
    have hwrite : s.hostWrite vif (v.qbase + off) data = ((s.syeWrite pa data []).answer vif true 0, true) := by
      rw [State.hostWrite, State.serves_false hp, if_neg Bool.false_ne_true, State.gwrite_lies hlies hs]
    refine ⟨((s.syeWrite pa data []).answer vif true 0).setVif vif { v with widx := (v.widx + data.length) % v.modulus },
      hexec.trans (congrArg Host.Outcome.next ?_), ?_, ?_, ?_⟩
    · rw [if_neg (by rw [hfits]; exact Bool.false_ne_true), hwrite]
      rfl
    · exact s.wrPhys_wrote pa data []
    · rfl
    · exact State.vifOf_setVif_same _ _ _
  · refine hexec.trans (congrArg Host.Outcome.next (if_pos ?_))
    rw [Bool.or_eq_true, decide_eq_true_eq, decide_eq_true_eq]
    exact hfull
end

end Sys2Proof.Machine
end

section
/-! PROOFS. The launch graph (R282, R283, R285): what accesses to memory leave, what the graph's steps keep of a node and of the queues. -/

namespace Sys2Proof.Machine
open Sys2Proof.Claims

/-! ### What an access to memory may touch -/

/-- A state without memory, its errors and records, the translations and their walks, and what goes out. -/
def State.offAccess (s : State) : State :=
  { s with mem := [], poison := [], bounces := [], tick := 0, walkers := [], tlb := [], heldPages := [], cores := [], errSeq := 0, outbox := [], logq := [] }

theorem State.errorRecord_offAccess (s : State) (src : Nat) (unc : Bool) (world addr : Nat) : (s.errorRecord src unc world addr).offAccess = s.offAccess := by
  simp only [State.errorRecord, State.raiseCC, State.offAccess, State.free]

theorem State.meetLines_offAccess : ∀ (ls : List Nat) (s : State), (ls.foldl State.meetLine s).offAccess = s.offAccess
  | [], _ => rfl
  | l :: ls, s => (State.meetLines_offAccess ls (s.meetLine l)).trans (State.errorRecord_offAccess _ _ _ _ _)

theorem State.fixLines_offAccess (s : State) {slot : Option Nat} (h : ∀ k, slot = some k → 1344 ≤ k) (pa n : Nat) :
    (s.fixLines slot pa n).offAccess = s.offAccess := by
  have hmeet := State.meetLines_offAccess (s.linesIn pa n 1 ++ s.linesIn pa n 3) s
  simp only [State.fixLines]
  split
  · exact hmeet
  · split
    · next k => rwa [if_neg (Nat.not_lt.mpr (h k rfl))]
    · exact hmeet

theorem State.startWalk_offAccess (s : State) (die ctx va kind : Nat) : (s.startWalk die ctx va kind).offAccess = s.offAccess := by
  simp only [State.startWalk]
  split
  · rfl
  · split <;> rfl

theorem State.writePieces_offAccess : ∀ (ps : List (Nat × Nat)) (s : State) (data : List Byte) (bad : List Nat),
    (s.writePieces ps data bad).1.offAccess = s.offAccess
  | [], _, _, _ => rfl
  | p :: r, s, data, bad => by
    simp only [State.writePieces]
    split
    · split
      · exact (State.writePieces_offAccess r _ _ _).trans rfl
      · rfl
    · exact (State.writePieces_offAccess r _ _ _).trans rfl

theorem State.gwrite_offAccess (s : State) (die ctx va : Nat) (data : List Byte) (bad : List Nat) : (s.gwrite die ctx va data bad).1.offAccess = s.offAccess := by
  rw [State.gwrite]
  split
  · exact State.startWalk_offAccess _ _ _ _ _
  · rfl
  · split
    · exact State.writePieces_offAccess _ _ _ _
    · rfl

theorem State.readPieces_offAccess {ctx : Nat} (h : 1344 ≤ ctx) : ∀ (ps : List (Nat × Nat)) (s : State), (s.readPieces ctx ps).1.offAccess = s.offAccess
  | [], _ => rfl
  | p :: r, s => by
    have hfix : (s.fixLines (some ctx) p.1 p.2).offAccess = s.offAccess := State.fixLines_offAccess s (fun k hk => by cases hk; exact h) _ _
    unfold State.readPieces
    extract_lets c v here
    have hhere : here.1.offAccess = s.offAccess := by
      simp only [here]
      split
      · split <;> rfl
      · split <;> exact hfix
    clear_value here
    split
    · have hrest := State.readPieces_offAccess h r here.1
      split
      · next hu =>
        rw [hu] at hrest
        exact hrest.trans hhere
      · exact hrest.trans hhere
    · exact hhere

theorem State.gread_offAccess (s : State) (die : Nat) {ctx : Nat} (h : 1344 ≤ ctx) (va n : Nat) : (s.gread die ctx va n).1.offAccess = s.offAccess := by
  rw [State.gread]
  split
  · exact State.startWalk_offAccess _ _ _ _ _
  · rfl
  · exact State.readPieces_offAccess h _ _

theorem Reading.bytes_offAccess (s : State) {ctx : Nat} (h : 1344 ≤ ctx) (va n : Nat) : (Reading.bytes ctx va n s).1.offAccess = s.offAccess := by
  have hread := s.gread_offAccess 0 h va n
  rw [Reading.bytes]
  split
  · rfl
  · split <;> (next hu => rw [hu] at hread; exact hread)

theorem State.writeRecord2_offAccess (s : State) (vif crec : Nat) (head : List Byte) (lid : Nat) : (s.writeRecord2 vif crec head lid).1.offAccess = s.offAccess := by
  rw [State.writeRecord2]
  split
  · exact State.startWalk_offAccess _ _ _ _ _
  · rfl
  · have hhead := s.gwrite_offAccess 0 (vifCtx vif) crec head []
    split
    · next u _ hu =>
      rw [hu] at hhead
      exact (u.gwrite_offAccess _ _ _ _ _).trans hhead
    · exact hhead

/-! ### What the graph keeps -/

theorem find?_filter_of {α : Type} {p q : α → Bool} {l : List α} {y : α} (h : l.find? p = some y) (hq : q y = true) : (l.filter q).find? p = some y := by
  rw [List.find?_eq_some_iff_append] at h
  obtain ⟨hp, as, bs, rfl, has⟩ := h
  rw [List.filter_append, List.filter_cons_of_pos hq, List.find?_append, List.find?_cons_of_pos hp, Option.or_eq_some_iff]
  exact Or.inr ⟨List.find?_eq_none.mpr fun a ha => by simpa using has a (List.mem_filter.mp ha).1, rfl⟩

/-- The queues of the VIFs stand: only what a VIF's regions stowed may change. -/
def QueuesStand (s t : State) : Prop := ∀ v, { t.vifOf v with stowed := (s.vifOf v).stowed } = s.vifOf v

/-- A node goes on in the graph: as DONE it stays, and one with instances does not end. -/
structure NodeGoes (x y : Node) : Prop where
  same : { y with st := x.st, readyAt := x.readyAt, tend := x.tend, recorded := x.recorded } = x
  stays : x.st = .done → y.st = .done
  runs : x.total ≠ 0 → x.st ≠ .done → y.st ≠ .done

/-- The queues stand, every node goes on, and none is admitted. -/
structure GraphGoes (s t : State) : Prop where
  queues : QueuesStand s t
  arrival : t.nextArrival = s.nextArrival
  node : ∀ a x, s.nodeAt a = some x → ∃ y, t.nodeAt a = some y ∧ NodeGoes x y

theorem NodeGoes.refl (x : Node) : NodeGoes x x := ⟨rfl, id, fun _ => id⟩

theorem NodeGoes.trans {x y z : Node} (h : NodeGoes x y) (g : NodeGoes y z) : NodeGoes x z := by
  have hs := congrArg (fun w : Node => { w with st := x.st, readyAt := x.readyAt, tend := x.tend, recorded := x.recorded }) g.same
  have htotal : y.total = x.total := (congrArg Node.total h.same :)
  exact ⟨hs.trans h.same, g.stays ∘ h.stays, fun ht hx => g.runs (by rwa [htotal]) (h.runs ht hx)⟩

namespace QueuesStand
variable {s t u : State}

theorem refl (s : State) : QueuesStand s s := fun _ => rfl
theorem trans (h : QueuesStand s t) (g : QueuesStand t u) : QueuesStand s u :=
  fun v => (congrArg (fun w : Vif => { w with stowed := (s.vifOf v).stowed }) (g v)).trans (h v)
theorem of_same (h : t.vifs = s.vifs) : QueuesStand s t := fun v => by rw [State.vifOf, h]; rfl

/-- RIDX passes a packet and its report goes out. -/
theorem passed (h : QueuesStand s t) (vif len lid ty reason : Nat) : Passed s (t.passPacket vif len lid ty reason) vif len := by
  have hv := h vif
  have hridx : (t.vifOf vif).ridx = (s.vifOf vif).ridx := (congrArg Vif.ridx hv :)
  have hmod : (t.vifOf vif).modulus = (s.vifOf vif).modulus := (congrArg Vif.modulus hv :)
  have hseq : (t.vifOf vif).repSeq = (s.vifOf vif).repSeq := (congrArg Vif.repSeq hv :)
  have hend : (t.vifOf vif).endpoint = (s.vifOf vif).endpoint := (congrArg Vif.endpoint hv :)
  obtain ⟨w, hw⟩ : ∃ w, t.setVif vif { t.vifOf vif with ridx := ((t.vifOf vif).ridx + len) % (t.vifOf vif).modulus } = w := ⟨_, rfl⟩
  have hwvif : w.vifOf vif = { t.vifOf vif with ridx := ((t.vifOf vif).ridx + len) % (t.vifOf vif).modulus } := hw ▸ State.vifOf_setVif_same _ _ _
  have hpass : t.passPacket vif len lid ty reason = w.report vif lid ty reason := congrArg (State.report · vif lid ty reason) hw
  have hreport : (w.report vif lid ty reason).vifOf vif = { w.vifOf vif with repSeq := (w.vifOf vif).repSeq + 1 } := State.vifOf_setVif_same _ _ _
  rw [hpass]
  refine ⟨?_, w.outbox, w.reportBytes vif lid ty reason, ?_, ?_⟩
  · rw [hreport, hwvif, ← hridx, ← hmod]
  · rw [← hend, show (t.vifOf vif).endpoint = (w.vifOf vif).endpoint by rw [hwvif]]
    rfl
  · rw [hreport, hwvif, ← hseq]
end QueuesStand

theorem State.passPacket_nodes (s : State) (vif len lid ty reason : Nat) : (s.passPacket vif len lid ty reason).nodes = s.nodes := rfl
theorem State.passPacket_slots (s : State) (vif len lid ty reason : Nat) : (s.passPacket vif len lid ty reason).slots = s.slots := rfl
theorem State.passPacket_nextArrival (s : State) (vif len lid ty reason : Nat) : (s.passPacket vif len lid ty reason).nextArrival = s.nextArrival := rfl

theorem State.nodeAt_arrival {s : State} {a : Nat} {x : Node} (h : s.nodeAt a = some x) : x.arrival = a :=
  beq_iff_eq.mp (List.find?_some (p := fun n : Node => n.arrival == a) h)

theorem State.nodeAt_setNode (s : State) (y : Node) (a : Nat) : (s.setNode y).nodeAt a = if y.arrival = a then (s.nodeAt a).map (fun _ => y) else s.nodeAt a := by
  simp only [State.nodeAt, State.setNode]
  induction s.nodes with
  | nil => simp only [List.map_nil, List.find?_nil, Option.map_none, ite_self]
  | cons n ns ih =>
    rw [List.map_cons, List.find?_cons, List.find?_cons, ih]
    by_cases hn : n.arrival = y.arrival
    · rw [if_pos hn, hn]
      by_cases ha : y.arrival = a
      · rw [beq_iff_eq.mpr ha, if_pos ha, if_pos ha]
        rfl
      · rw [beq_eq_false_iff_ne.mpr ha, if_neg ha]
    · rw [if_neg hn]
      by_cases hna : n.arrival = a
      · have hya : y.arrival ≠ a := fun h => hn (hna.trans h.symm)
        rw [beq_iff_eq.mpr hna, if_neg hya, if_neg hya]
      · rw [beq_eq_false_iff_ne.mpr hna]

/-- One step of the graph: a WAITING node looks at its predecessors; then one of no instances ends, and what is DONE is recorded. -/
def State.lookNode (s : State) (x : Node) : State :=
  if x.st == .waiting then
    (match s.nodeState x with
     | .ready => s.setNode { x with st := .ready, readyAt := s.tb }
     | .held => s.setNode { x with st := .held }
     | _ => s) else s
def State.endEmpty (s : State) (y : Node) : State := if y.st == .ready && y.total == 0 then s.finish y none else s

theorem State.stepNode_eq (s : State) (a : Nat) : s.stepNode a = match s.nodeAt a with
    | none => s
    | some x => (match (s.lookNode x).nodeAt a with
      | none => s.lookNode x
      | some y => (match ((s.lookNode x).endEmpty y).nodeAt a with
        | none => (s.lookNode x).endEmpty y
        | some z => ((s.lookNode x).endEmpty y).recordNode z)) := rfl

namespace GraphGoes
variable {s t u : State}

theorem refl (s : State) : GraphGoes s s := ⟨.refl s, rfl, fun _ x h => ⟨x, h, .refl x⟩⟩
theorem trans (h : GraphGoes s t) (g : GraphGoes t u) : GraphGoes s u := by
  refine ⟨h.queues.trans g.queues, g.arrival.trans h.arrival, fun a x hx => ?_⟩
  obtain ⟨y, hy, hxy⟩ := h.node a x hx
  obtain ⟨z, hz, hyz⟩ := g.node a y hy
  exact ⟨z, hz, hxy.trans hyz⟩

theorem of_same (hv : t.vifs = s.vifs) (ha : t.nextArrival = s.nextArrival) (hn : t.nodes = s.nodes) : GraphGoes s t :=
  ⟨.of_same hv, ha, fun a x h => ⟨x, by rw [State.nodeAt, hn]; exact h, .refl x⟩⟩

theorem of_offAccess (h : t.offAccess = s.offAccess) : GraphGoes s t :=
  of_same (congrArg State.vifs h :) (congrArg State.nextArrival h :) (congrArg State.nodes h :)

theorem setNode {x y : Node} (hx : s.nodeAt y.arrival = some x) (h : NodeGoes x y) : GraphGoes s (s.setNode y) := by
  refine ⟨.of_same rfl, rfl, fun a z hz => ?_⟩
  rw [State.nodeAt_setNode]
  by_cases ha : y.arrival = a
  · rw [if_pos ha, hz]
    rw [ha, hz] at hx
    cases hx
    exact ⟨y, rfl, h⟩
  · exact ⟨z, by rw [if_neg ha, hz], .refl z⟩

theorem dropJob (s : State) (world jobid : Nat) : GraphGoes s (s.dropJob world jobid) := by
  rw [State.dropJob]
  split
  · exact refl s
  · exact of_same rfl rfl rfl

theorem recordNode {x : Node} (hx : s.nodeAt x.arrival = some x) : GraphGoes s (s.recordNode x) := by
  have hw := s.writeRecord2_offAccess x.vif x.crec (recordHead x.lid x.verdict x.reason x.cause x.tstart x.tend x.rccmax x.ndone) x.lid
  rw [State.recordNode]
  split
  · exact refl s
  · next hgo =>
    split
    · next u hu =>
      rw [hu] at hw
      exact of_offAccess hw
    · next u _ _ hu =>
      rw [hu] at hw
      have hdone : x.st = .done := by
        simp only [Bool.or_eq_true, not_or, bne_iff_ne, ne_eq, not_not] at hgo
        exact hgo.1.1
      have hux : u.nodeAt x.arrival = some x := by
        rw [State.nodeAt, show u.nodes = s.nodes from (congrArg State.nodes hw :)]
        exact hx
      exact (of_offAccess hw).trans (setNode hux ⟨rfl, id, fun _ h => absurd hdone h⟩)

theorem lookNode {x : Node} (hx : s.nodeAt x.arrival = some x) : GraphGoes s (s.lookNode x) := by
  rw [State.lookNode]
  split
  · next hwait =>
    have hne : x.st ≠ .done := fun h => by rw [h] at hwait; cases hwait
    split
    · exact setNode (y := { x with st := .ready, readyAt := s.tb }) hx ⟨rfl, fun h => absurd h hne, fun _ _ h => by cases h⟩
    · exact setNode (y := { x with st := .held }) hx ⟨rfl, fun h => absurd h hne, fun _ _ h => by cases h⟩
    · exact refl s
  · exact refl s

theorem endEmpty {y : Node} (hy : s.nodeAt y.arrival = some y) : GraphGoes s (s.endEmpty y) := by
  rw [State.endEmpty]
  split
  · next hready =>
    rw [Bool.and_eq_true, beq_iff_eq, beq_iff_eq] at hready
    exact trans (setNode (y := { y with st := .done, tend := s.wall.toNat }) hy ⟨rfl, fun _ => rfl, fun h => absurd hready.2 h⟩) (dropJob _ _ _)
  · exact refl s

theorem stepNode (s : State) (a : Nat) : GraphGoes s (s.stepNode a) := by
  rw [State.stepNode_eq]
  split
  · exact refl s
  · next x hx =>
    have hlook := lookNode (State.nodeAt_arrival hx ▸ hx)
    split
    · exact hlook
    · next y hy =>
      have hend := hlook.trans (endEmpty (State.nodeAt_arrival hy ▸ hy))
      split
      · exact hend
      · next z hz => exact hend.trans (recordNode (State.nodeAt_arrival hz ▸ hz))

theorem foldl {α : Type} {F : State → α → State} (h : ∀ u a, GraphGoes u (F u a)) : ∀ (l : List α) (s : State), GraphGoes s (l.foldl F s)
  | [], s => refl s
  | a :: l, s => (h s a).trans (foldl h l _)

theorem iter {F : State → State} (h : ∀ u, GraphGoes u (F u)) : ∀ (n : Nat) (s : State), GraphGoes s (Machine.iter F n s)
  | 0, s => refl s
  | n + 1, s => (h s).trans (iter h n _)
end GraphGoes

/-- A node that is no DONE one with a CLEAN or CORRECTED verdict stays in the graph. -/
theorem State.settleGraph_goes (s : State) : QueuesStand s s.settleGraph ∧ s.settleGraph.nextArrival = s.nextArrival ∧
    ∀ a x, s.nodeAt a = some x → (x.st ≠ .done ∧ x.total ≠ 0) ∨ 1 < x.verdict → ∃ y, s.settleGraph.nodeAt a = some y ∧ NodeGoes x y := by
  have hgoes : GraphGoes s (Machine.iter (fun (u : State) => (u.nodes.map (·.arrival)).foldl (fun v a => v.stepNode a) u) (s.nodes.length + 1) s) :=
    GraphGoes.iter (fun u => GraphGoes.foldl GraphGoes.stepNode _ u) _ s
  rw [State.settleGraph]
  generalize Machine.iter (fun (u : State) => (u.nodes.map (·.arrival)).foldl (fun v a => v.stepNode a) u) (s.nodes.length + 1) s = t at hgoes ⊢
  refine ⟨hgoes.queues.trans (.of_same rfl), hgoes.arrival, fun a x hx hkeep => ?_⟩
  obtain ⟨y, hy, hxy⟩ := hgoes.node a x hx
  refine ⟨y, ?_, hxy⟩
  have hstays : (!(y.st == .done && y.recorded && decide (y.verdict ≤ 1) &&
      !t.nodes.any (fun m => m.st == .waiting && m.preds.contains y.arrival))) = true := by
    cases hkeep with
    | inl h =>
      have hst : (y.st == .done) = false := beq_eq_false_iff_ne.mpr (hxy.runs h.2 h.1)
      rw [hst]
      rfl
    | inr h =>
      have hverdict : y.verdict = x.verdict := (congrArg Node.verdict hxy.same :)
      rw [hverdict, decide_eq_false (Nat.not_le.mpr h), Bool.and_false]
      rfl
  exact find?_filter_of hy hstays

end Sys2Proof.Machine
end

section
/-! PROOFS. The packets of a launch queue (R278 to R283): LAUNCH, CANCEL, RELEASE and PAD. -/

namespace Sys2Proof.Machine
open Sys2Proof.Claims

/-! ### The end of a node's instances -/

theorem Tile.leave_bufs (x : Tile) (world : Nat) : (x.leave world).bufs = x.bufs := rfl

theorem State.leaveTiles_bufs (s : State) (n p : Nat) : ((s.leaveTiles n).tile p).bufs = (s.tile p).bufs := by
  have hfold : ∀ (ps : List Nat) (u : State), ((ps.foldl (fun (u : State) p => u.setTile p ((u.tile p).leave (s.slot n).world)) u).tile p).bufs = (u.tile p).bufs := by
    intro ps
    induction ps with
    | nil => exact fun _ => rfl
    | cons q ps ih =>
      intro u
      rw [List.foldl_cons, ih]
      by_cases hp : p = q
      · rw [hp, State.setTile_tile_same, Tile.leave_bufs]
      · rw [State.setTile_tile_other _ hp]
  simp only [State.leaveTiles]
  split
  · exact hfold _ _
  · exact hfold _ _

/-- What the leaving of tiles may change. -/
def State.offTilesDies (s : State) : State := { s with tiles := [], worldDies := [] }

theorem State.leaveTiles_rest (s : State) (n : Nat) : (s.leaveTiles n).offTilesDies = s.offTilesDies := by
  have hfold : ∀ (ps : List Nat) (u : State), (ps.foldl (fun (u : State) p => u.setTile p ((u.tile p).leave (s.slot n).world)) u).offTilesDies = u.offTilesDies := by
    intro ps
    induction ps with
    | nil => exact fun _ => rfl
    | cons q ps ih => exact fun u => (ih _).trans rfl
  simp only [State.leaveTiles]
  split
  · exact hfold _ _
  · exact (congrArg (fun u : State => { u with worldDies := [] }) (hfold _ s)).trans rfl

/-- An instance's slot is freed: the queues, the nodes, the buffers and the other slots stand. -/
structure SlotGoes (s t : State) (n : Nat) : Prop where
  queues : QueuesStand s t
  nodes : t.nodes = s.nodes ∧ t.nextArrival = s.nextArrival
  bufs : ∀ p, (t.tile p).bufs = (s.tile p).bufs
  frees : t.slot n = (s.slot n).freed
  others : ∀ m, m ≠ n → t.slot m = s.slot m

/-- The queues, the nodes, the buffers and the slots are the same. -/
theorem SlotGoes.of_same {s t u : State} {n : Nat} (h : SlotGoes s t n)
    (hq : (u.vifs, u.nodes, u.nextArrival, u.tiles, u.slots) = (t.vifs, t.nodes, t.nextArrival, t.tiles, t.slots)) : SlotGoes s u n := by
  simp only [Prod.mk.injEq] at hq
  obtain ⟨hvifs, hnodes, harrival, htiles, hslots⟩ := hq
  refine ⟨h.queues.trans (.of_same hvifs), ⟨hnodes.trans h.nodes.1, harrival.trans h.nodes.2⟩, fun p => ?_, ?_, fun m hm => ?_⟩
  · rw [State.tile, htiles]
    exact h.bufs p
  · rw [State.slot, hslots]
    exact h.frees
  · rw [State.slot, hslots]
    exact h.others m hm

/-- What a VIF's regions stowed is noted. -/
theorem SlotGoes.setStowed {s t : State} {n : Nat} (h : SlotGoes s t n) (vif : Nat) (held : List Nat) :
    SlotGoes s (t.setVif vif { t.vifOf vif with stowed := held }) n := by
  refine ⟨fun k => ?_, h.nodes, h.bufs, h.frees, h.others⟩
  by_cases hk : k = vif
  · rw [hk, State.vifOf_setVif_same]
    exact h.queues vif
  · rw [State.vifOf_setVif_other _ hk]
    exact h.queues k

theorem State.freeSlot_goes {s : State} {n : Nat} (h : s.nextSnapped n = none) : SlotGoes s (s.freeSlot n) n := by
  unfold State.freeSlot
  extract_lets r held v w x y u
  have hv : v.vifs = s.vifs ∧ (v.nodes = s.nodes ∧ v.nextArrival = s.nextArrival) ∧ v.tiles = s.tiles ∧ v.slots = s.slots := by
    simp only [v, State.copyRegion_none h]
    split
    · exact ⟨rfl, ⟨rfl, rfl⟩, rfl, rfl⟩
    · simp only [State.raiseCC, and_self]
  clear_value v
  obtain ⟨hvifs, hnodes, htiles, hslots⟩ := hv
  have hrest := v.leaveTiles_rest n
  have hbufs := v.leaveTiles_bufs n
  obtain ⟨z, hz⟩ : ∃ z, v.leaveTiles n = z := ⟨_, rfl⟩
  rw [hz] at hrest hbufs
  have hzslots : z.slots = s.slots := (congrArg State.slots hrest :).trans hslots
  have hw : SlotGoes s w n := by
    simp only [w, hz]
    refine ⟨.of_same ((congrArg State.vifs hrest :).trans hvifs), ⟨(congrArg State.nodes hrest :).trans hnodes.1, (congrArg State.nextArrival hrest :).trans hnodes.2⟩,
      fun p => (hbufs p).trans (by rw [State.tile, htiles]; rfl), State.setSlot_slot_same z n r.freed, fun m hm => ?_⟩
    exact (State.setSlot_slot_other z hm r.freed).trans (by rw [State.slot, hzslots]; rfl)
  clear_value w x
  have hu : SlotGoes s u n := hw.of_same rfl
  clear_value u
  split
  · exact hu.setStowed _ _
  · exact hu

theorem SlotGoes.snapped {s t : State} {n m : Nat} (h : SlotGoes s t n) (hm : s.nextSnapped m = none) : t.nextSnapped m = none := by
  by_cases hmn : m = n
  · subst hmn
    rw [State.nextSnapped, h.frees]
    rfl
  · have htile (k : Nat) : (t.tileAt m k).bufs = (s.tileAt m k).bufs := by
      rw [State.tileAt, State.tileAt, h.others m hmn]
      exact h.bufs _
    have hbuf (k b : Nat) : (t.tileAt m k).buf b = (s.tileAt m k).buf b := by rw [Tile.buf, htile k]; rfl
    rw [State.nextSnapped] at hm ⊢
    rw [h.others m hmn]
    simp only [hbuf]
    exact hm

/-- The slots of several instances are freed. -/
theorem State.freeSlots_go : ∀ (ns : List (Nat × Slot)) (s : State), (∀ e, e ∈ ns → s.nextSnapped e.1 = none) →
    let t := ns.foldl (fun (u : State) e => u.freeSlot e.1) s
    QueuesStand s t ∧ t.nodes = s.nodes ∧ t.nextArrival = s.nextArrival ∧ (∀ m, (s.slot m).st = .free → (t.slot m).st = .free) ∧
      ∀ e, e ∈ ns → (t.slot e.1).st = .free
  | [], s, _ => ⟨.refl s, rfl, rfl, fun _ => id, fun _ he => absurd he List.not_mem_nil⟩
  | e :: ns, s, h => by
    have hgoes := State.freeSlot_goes (h e List.mem_cons_self)
    obtain ⟨hq, hn, ha, hfree, hall⟩ := State.freeSlots_go ns (s.freeSlot e.1) fun f hf => hgoes.snapped (h f (List.mem_cons_of_mem e hf))
    refine ⟨hgoes.queues.trans hq, hn.trans hgoes.nodes.1, ha.trans hgoes.nodes.2, fun m hm => hfree m ((Tame.freeSlot s e.1).free m hm), fun f hf => ?_⟩
    cases List.mem_cons.mp hf with
    | inl hfe => exact hfe ▸ hfree e.1 (State.freeSlot_frees s e.1)
    | inr hf => exact hall f hf

/-! ### Packets -/

theorem NodeGoes.accepted {x y : Node} (h : NodeGoes x y) : y.accepted = x.accepted := (congrArg Node.accepted h.same :)
theorem NodeGoes.ended {x y : Node} (h : NodeGoes x y) : y.verdict = x.verdict ∧ y.reason = x.reason := ⟨(congrArg Node.verdict h.same :), (congrArg Node.reason h.same :)⟩
theorem NodeGoes.names {x y : Node} (h : NodeGoes x y) : y.vif = x.vif ∧ y.lid = x.lid ∧ y.img = x.img :=
  ⟨(congrArg Node.vif h.same :), (congrArg Node.lid h.same :), (congrArg Node.img h.same :)⟩

theorem State.finish_sets (s : State) (x : Node) (o : Option Word) :
    ∃ tend w j, s.finish x o = (s.setNode { x with st := .done, tend := tend }).dropJob w j := ⟨_, _, _, rfl⟩

theorem State.dropJob_rest (s : State) (w j : Nat) : (s.dropJob w j).nodes = s.nodes ∧ (s.dropJob w j).vifs = s.vifs ∧ (s.dropJob w j).slots = s.slots := by
  rw [State.dropJob]
  split <;> exact ⟨rfl, rfl, rfl⟩

/-- A node that ends stands in the graph as DONE; the queues and the slots stand. -/
theorem State.finish_ends {s : State} {x z : Node} (h : s.nodeAt x.arrival = some z) (o : Option Word) :
    (∃ tend, (s.finish x o).nodeAt x.arrival = some { x with st := .done, tend := tend }) ∧ QueuesStand s (s.finish x o) ∧ (s.finish x o).slots = s.slots := by
  obtain ⟨tend, w, j, hsets⟩ := s.finish_sets x o
  obtain ⟨hnodes, hvifs, hslots⟩ := (s.setNode { x with st := .done, tend := tend }).dropJob_rest w j
  rw [hsets]
  refine ⟨⟨tend, ?_⟩, .of_same hvifs, hslots⟩
  rw [State.nodeAt, hnodes]
  refine (State.nodeAt_setNode s _ x.arrival).trans ?_
  rw [if_pos rfl, h]
  rfl

theorem State.passPacket_nodeAt (s : State) (vif len lid ty reason a : Nat) : (s.passPacket vif len lid ty reason).nodeAt a = s.nodeAt a := rfl

theorem State.node_nodeAt {s : State} {vif lid : Nat} {x : Node} (h : s.node vif lid = some x) :
    x.vif = vif ∧ x.lid = lid ∧ ∃ z, s.nodeAt x.arrival = some z := by
  have hp := List.find?_some h
  rw [Bool.and_eq_true, beq_iff_eq, beq_iff_eq] at hp
  refine ⟨hp.1, hp.2, Option.isSome_iff_exists.mp ?_⟩
  rw [State.nodeAt, List.find?_isSome]
  exact ⟨x, List.mem_of_find?_eq_some h, beq_self_eq_true _⟩

theorem State.readPacket_offAccess {s u : State} {vif : Nat} {k : Packet} (h : s.readPacket vif = (u, some k)) : u.offAccess = s.offAccess := by
  have hno {r : State × Option Packet} (hr : r.2 = none) : r ≠ (u, some k) := fun h => by rw [h] at hr; cases hr
  have hctx : 1344 ≤ vifCtx vif := Nat.le_add_right _ _
  have hhead := Reading.bytes_offAccess s hctx ((s.vifOf vif).addr (s.vifOf vif).ridx) 4
  unfold State.readPacket at h
  cases hen : (!(s.vifOf vif).en || decide ((s.vifOf vif).ready < 64)) with
  | true =>
    rw [if_pos hen] at h
    exact absurd h (hno rfl)
  | false =>
    obtain ⟨⟨t, got⟩, hgot⟩ : ∃ r, Reading.bytes (vifCtx vif) ((s.vifOf vif).addr (s.vifOf vif).ridx) 4 s = r := ⟨_, rfl⟩
    rw [hgot] at hhead
    cases got with
    | wait =>
      simp only [hen, hgot, Bool.false_eq_true, if_false] at h
      exact absurd h (hno rfl)
    | bad =>
      simp only [hen, hgot, Bool.false_eq_true, if_false] at h
      exact absurd h (hno rfl)
    | ok bs =>
      simp only [hen, hgot, Bool.false_eq_true, if_false] at h
      obtain ⟨len, hlen⟩ : ∃ len, Nat.min (64 * Nat.max (bits (leNat bs) 8 8) 1) ((s.vifOf vif).qsize - (s.vifOf vif).ridx % (s.vifOf vif).qsize) = len := ⟨_, rfl⟩
      rw [hlen] at h
      have hbody := Reading.bytes_offAccess t hctx ((s.vifOf vif).addr (s.vifOf vif).ridx) len
      obtain ⟨⟨w, got'⟩, hgot'⟩ : ∃ r, Reading.bytes (vifCtx vif) ((s.vifOf vif).addr (s.vifOf vif).ridx) len t = r := ⟨_, rfl⟩
      rw [hgot'] at hbody h
      split at h
      · exact absurd h (hno rfl)
      · cases got' with
        | wait => exact absurd h (hno rfl)
        | bad => exact absurd h (hno rfl)
        | ok bs' =>
          have hu : w = u := congrArg Prod.fst h
          exact hu ▸ hbody.trans hhead

section
variable {s u : State} {vif : Nat} {k : Packet} (hp : 2 ≤ s.phase) (hr : s.readPacket vif = (u, some k)) (hstr : k.straddles = false)
include hp hr hstr

omit hstr in
/-- A packet of the wanted type is disposed of. -/
theorem State.packetOf_takes {want : Nat → Bool} (hw : want k.ty = true) : s.packetOf vif want = u.disposePacket vif k := by
  rw [State.packetOf, State.serves_false hp, hr]
  exact if_pos hw

theorem pad_done (hty : k.ty = 0) (hlen : bits (pk k.bytes 0 4) 8 8 ≠ 0) : ∃ t, exec (.pad vif) s = .next t ∧ Passed u t vif k.len := by
  refine ⟨_, congrArg Host.Outcome.next ?_, QueuesStand.passed (.refl u) vif k.len 0 0 0⟩
  rw [State.packetOf_takes (want := fun t => t == 0) hp hr (beq_iff_eq.mpr hty), State.disposePacket]
  simp only [hty, hstr, hlen, Bool.false_eq_true, if_false]

theorem release_done {x : Node} (hty : k.ty = 3) (hform : shortFormat k.bytes = true) (hnode : u.node vif (pk k.bytes 4 4) = some x) (hst : x.st = .held) :
    ∃ t y, exec (.release vif) s = .next t ∧ Passed u t vif k.len ∧
      (x.total ≠ 0 → t.nodeAt x.arrival = some y ∧ y.accepted = x.accepted ++ x.preds.filter (fun a => (u.nodeAt a).any Node.tainted)) := by
  obtain ⟨_, _, z, hz⟩ := State.node_nodeAt hnode
  let x' : Node := { x with st := .waiting, accepted := x.accepted ++ x.preds.filter (fun a => (u.nodeAt a).any Node.tainted) }
  obtain ⟨hqueues, _, hgoes⟩ := (u.setNode x').settleGraph_goes
  have hx' : (u.setNode x').nodeAt x.arrival = some x' := by rw [State.nodeAt_setNode, if_pos rfl, hz]; rfl
  have hexec : exec (.release vif) s = .next ((u.setNode x').settleGraph.passPacket vif k.len (pk k.bytes 4 4) 3 0) := by
    refine congrArg Host.Outcome.next ?_
    rw [State.packetOf_takes (want := fun t => t == 3) hp hr (beq_iff_eq.mpr hty), State.disposePacket]
    simp only [hty, hstr, hform, hnode, hst, Bool.not_true, Bool.false_eq_true, if_false, bne_self_eq_false]
    rfl
  have hpassed := ((QueuesStand.of_same (s := u) (t := u.setNode x') rfl).trans hqueues).passed vif k.len (pk k.bytes 4 4) 3 0
  by_cases ht : x.total = 0
  · exact ⟨_, x, hexec, hpassed, fun h => absurd ht h⟩
  · obtain ⟨y, hy, hxy⟩ := hgoes x.arrival x' hx' (Or.inl ⟨by simp [x'], ht⟩)
    exact ⟨_, y, hexec, hpassed, fun _ => ⟨(State.passPacket_nodeAt _ _ _ _ _ _ _).trans hy, hxy.accepted⟩⟩

theorem cancel_exec {x : Node} (hty : k.ty = 2) (hform : shortFormat k.bytes = true) (hnode : u.node vif (pk k.bytes 4 4) = some x)
    (hst : x.st = .done → x.recorded = true) :
    exec (.cancel vif) s = .next ((u.cancelNode x).passPacket vif k.len (pk k.bytes 4 4) 2 0) := by
  have hend : (x.st == .done && !x.recorded) = false := by
    by_cases h : x.st = .done
    · rw [hst h, Bool.not_true, Bool.and_false]
    · rw [beq_eq_false_iff_ne.mpr h, Bool.false_and]
  refine congrArg Host.Outcome.next ?_
  rw [State.packetOf_takes (want := fun t => t == 2) hp hr (beq_iff_eq.mpr hty), State.disposePacket]
  simp only [hty, hstr, hform, hnode, hend, Bool.not_true, Bool.false_eq_true, if_false]

theorem cancel_retires {x : Node} (hty : k.ty = 2) (hform : shortFormat k.bytes = true) (hnode : u.node vif (pk k.bytes 4 4) = some x) (hst : x.st = .done)
    (hrec : x.recorded = true) : ∃ t, exec (.cancel vif) s = .next t ∧ Passed u t vif k.len ∧ t.nodeAt x.arrival = none := by
  have hcancel : u.cancelNode x = u.settleGraph.retireNode x := by
    rw [State.cancelNode, hst]
    rfl
  obtain ⟨hqueues, _⟩ := u.settleGraph_goes
  refine ⟨_, cancel_exec hp hr hstr hty hform hnode fun _ => hrec, ?_, ?_⟩
  · rw [hcancel]
    exact (hqueues.trans (.of_same (t := u.settleGraph.retireNode x) rfl)).passed vif k.len _ 2 0
  · rw [State.nodeAt, State.passPacket_nodes, hcancel, List.find?_eq_none]
    intro n hn
    have hne := (List.mem_filter.mp hn).2
    rw [bne_iff_ne] at hne
    rwa [beq_iff_eq]

/-- A CANCEL of a node that is not DONE ends it, ABORTED, with its instances. -/
theorem cancel_ends {x : Node} (hty : k.ty = 2) (hform : shortFormat k.bytes = true) (hnode : u.node vif (pk k.bytes 4 4) = some x) (hst : x.st ≠ .done)
    (hidle : (s.snap (s.nodeJob x)).st = .idle) (hsnapped : ∀ n, n ∈ (u.vifSlots vif).map (·.1) → u.nextSnapped n = none) :
    ∃ t y, exec (.cancel vif) s = .next t ∧ Passed u t vif k.len ∧ t.nodeAt x.arrival = some y ∧ y.st = .done ∧ y.verdict = 4 ∧ y.reason = 0x10 ∧
      ∀ n, (u.slot n).vif = vif → (u.slot n).lid = x.lid → (t.slot n).st = .free := by
  obtain ⟨hvif, _, z, hz⟩ := State.node_nodeAt hnode
  have hoff := State.readPacket_offAccess hr
  have hujob : u.snap (u.nodeJob x) = s.snap (s.nodeJob x) := by
    rw [State.snap, State.nodeJob, State.vifOf, show u.snaps = s.snaps from (congrArg State.snaps hoff :), show u.vifs = s.vifs from (congrArg State.vifs hoff :)]
    rfl
  have hcancel : u.cancelNode x = (u.endNode x 0x10).settleGraph := by
    rw [State.cancelNode, if_neg (by rw [beq_iff_eq]; exact hst)]
    simp only
    split
    · rw [State.abortSnapshot_idle (by rw [hujob]; exact hidle)]
    · rfl
  have hmine (e : Nat × Slot) (he : e ∈ u.instances x) : e ∈ u.vifSlots vif := by
    simp only [State.instances, List.mem_filter, Bool.and_eq_true] at he
    exact List.mem_filter.mpr ⟨he.1, by rw [he.2.1.1, ← hvif, he.2.1.2]; rfl⟩
  obtain ⟨hq, hn, _, hfree, hall⟩ := State.freeSlots_go (u.instances x) u fun e he => hsnapped e.1 (List.mem_map_of_mem (hmine e he))
  obtain ⟨v, hv⟩ : ∃ v, (u.instances x).foldl (fun (u : State) e => u.freeSlot e.1) u = v := ⟨_, rfl⟩
  simp only [hv] at hq hn hfree hall
  obtain ⟨x', o, hend, hverdict, hreason, harrival⟩ : ∃ (x' : Node) (o : Option Word), v.finish x' o = u.endNode x 0x10 ∧
      x'.verdict = 4 ∧ x'.reason = 0x10 ∧ x'.arrival = x.arrival := by
    rw [← hv]
    exact ⟨_, _, rfl, rfl, rfl, rfl⟩
  obtain ⟨⟨tend, hdone⟩, hqend, hslots⟩ := State.finish_ends (s := v) (x := x') (z := z) (by rw [harrival, State.nodeAt, hn]; exact hz) o
  obtain ⟨hqueues, _, hgoes⟩ := (v.finish x' o).settleGraph_goes
  obtain ⟨y, hy, hxy⟩ := hgoes _ _ hdone (Or.inr (by rw [hverdict]; omega))
  obtain ⟨hyv, hyr⟩ := hxy.ended
  rw [hend] at hy
  have hpassed := (hq.trans (hqend.trans hqueues)).passed vif k.len (pk k.bytes 4 4) 2 0
  rw [hend, ← hcancel] at hpassed
  rw [← hcancel, harrival] at hy
  refine ⟨_, y, cancel_exec hp hr hstr hty hform hnode fun h => absurd h hst, hpassed, (State.passPacket_nodeAt _ _ _ _ _ _ _).trans hy, hxy.stays rfl, hyv.trans hverdict, hyr.trans hreason, fun n hnv hnl => ?_⟩
  have hfreed : (v.slot n).st = .free := by
    by_cases hst' : (u.slot n).st = .free
    · exact hfree n hst'
    · refine hall (n, u.slot n) (List.mem_filter.mpr ⟨Store.mem_of_get (d := ({} : Slot)) fun h => hst' (congrArg Slot.st h), ?_⟩)
      rw [bne_iff_ne.mpr hst', hnv, hvif, hnl, beq_self_eq_true, beq_self_eq_true]
      rfl
  have hsettled : (((u.cancelNode x).slot n).st = .free) := by
    rw [hcancel, ← hend]
    refine (Tame.settleGraph _).free n ?_
    rw [State.slot, hslots]
    exact hfreed
  exact hsettled
end

end Sys2Proof.Machine
end

section
/-! PROOFS. The admission of a LAUNCH (R281, R282) and the placing of an instance (R284 to R286); the services as a whole. -/

namespace Sys2Proof.Machine
open Sys2Proof.Claims

/-! ### Admission -/

/-- A node that a reading of a LAUNCH gives is WAITING. -/
def Reading.Waits (r : Reading Admit) : Prop := ∀ s t x, r s = (t, .ok (.node x)) → x.st = .waiting

namespace Reading.Waits

theorem bind {α : Type} {r : Reading α} {f : α → Reading Admit} (h : ∀ a, (f a).Waits) : (r.bind f).Waits := by
  intro s t x hx
  rw [Reading.bind] at hx
  split at hx
  · exact h _ _ _ _ hx
  · cases hx
  · cases hx

theorem orElse {α : Type} {r : Reading α} {code : Nat} {f : α → Reading Admit} (h : ∀ a, (f a).Waits) : (r.orElse (.reject code) f).Waits := by
  intro s t x hx
  rw [Reading.orElse] at hx
  split at hx
  · exact h _ _ _ _ hx
  · cases hx
  · cases hx

theorem reject (code : Nat) : (Reading.pure (.reject code)).Waits := by
  intro s t x hx
  cases hx

theorem node {x : Node} (h : x.st = .waiting) : (Reading.pure (.node x)).Waits := by
  intro s t y hy
  rw [Reading.pure, Prod.mk.injEq, Got.ok.injEq, Admit.node.injEq] at hy
  exact hy.2 ▸ h

theorem ite {c : Prop} [Decidable c] {a b : Reading Admit} (ha : a.Waits) (hb : b.Waits) : (if c then a else b).Waits := by
  split
  · exact ha
  · exact hb

theorem imageChecks (ctx : Nat) (v : Vif) {x : Node} (h : x.st = .waiting) : (Machine.imageChecks ctx v x).Waits := by
  refine orElse fun r => ?_
  dsimp only
  split
  · exact reject _
  · refine ite (reject _) (orElse fun gs => ?_)
    intro s t y hy
    rw [Prod.mk.injEq, Got.ok.injEq] at hy
    have hyx := hy.2
    split at hyx
    · cases hyx
    · split at hyx
      · cases hyx
      · rw [Admit.node.injEq] at hyx
        exact hyx ▸ h
end Reading.Waits

theorem launchChecks_waits (vif : Nat) (p : List Byte) : (launchChecks vif p).Waits := by
  intro s t x hx
  rw [launchChecks] at hx
  split at hx
  · cases hx
  · split at hx
    · cases hx
    · refine Reading.Waits.bind (fun a => Reading.Waits.bind fun b => Reading.Waits.bind fun c => Reading.Waits.bind fun d => ?_) _ _ _ hx
      exact .ite (.reject _) (.ite (.node rfl) (.imageChecks _ _ rfl))

/-- The graph takes a new node. -/
def State.takeNode (s : State) (x : Node) : State := { s with nodes := s.nodes ++ [x], nextArrival := s.nextArrival + 1 }
def State.noteJob (s : State) (x : Node) : State := if s.nodes.any (fun y => s.nodeJob y == s.nodeJob x) then s else s.jobStarts (s.nodeJob x)

theorem State.admitNode_eq (s : State) (x : Node) : s.admitNode x = ((s.noteJob x).takeNode x).settleGraph := rfl

theorem State.noteJob_rest (s : State) (x : Node) : { s.noteJob x with snaps := s.snaps } = s := by
  rw [State.noteJob]
  split
  · rfl
  · rw [State.jobStarts]
    split <;> rfl

theorem State.admitNode_admits {s : State} {x : Node} (hst : x.st = .waiting) (ht : x.total ≠ 0) (hnew : ∀ z, z ∈ s.nodes → z.arrival ≠ x.arrival) :
    QueuesStand s (s.admitNode x) ∧ (s.admitNode x).nextArrival = s.nextArrival + 1 ∧ ∃ y, (s.admitNode x).nodeAt x.arrival = some y ∧ NodeGoes x y := by
  have hrest := s.noteJob_rest x
  have hnodes : (s.noteJob x).nodes = s.nodes := (congrArg State.nodes hrest :)
  have hvifs : (s.noteJob x).vifs = s.vifs := (congrArg State.vifs hrest :)
  have harrival : (s.noteJob x).nextArrival = s.nextArrival := (congrArg State.nextArrival hrest :)
  obtain ⟨u, hu⟩ : ∃ u, (s.noteJob x).takeNode x = u := ⟨_, rfl⟩
  have hunodes : u.nodes = s.nodes ++ [x] := by rw [← hu, State.takeNode, hnodes]
  have huvifs : u.vifs = s.vifs := by rw [← hu, State.takeNode, hvifs]
  have huarrival : u.nextArrival = s.nextArrival + 1 := by rw [← hu, State.takeNode, harrival]
  have hux : u.nodeAt x.arrival = some x := by
    rw [State.nodeAt, hunodes, List.find?_append, List.find?_eq_none.mpr, Option.none_or, List.find?_cons_of_pos (p := fun n : Node => n.arrival == x.arrival) (beq_self_eq_true _)]
    intro z hz
    rw [beq_iff_eq]
    exact hnew z hz
  obtain ⟨hq, ha, hgoes⟩ := u.settleGraph_goes
  obtain ⟨y, hy, hxy⟩ := hgoes _ _ hux (Or.inl ⟨by rw [hst]; exact nofun, ht⟩)
  rw [State.admitNode_eq, hu]
  exact ⟨(QueuesStand.of_same huvifs).trans hq, ha.trans huarrival, y, hy, hxy⟩

theorem launch_done {s u v : State} {vif : Nat} {k : Packet} {x : Node} (hp : 2 ≤ s.phase) (hr : s.readPacket vif = (u, some k)) (hstr : k.straddles = false)
    (hty : k.ty = 1) (hroom : u.nodes.length < 4096) (hform : launchFormat k.bytes = true) (hchecks : launchChecks vif k.bytes u = (v, .ok (.node x)))
    (ht : x.total ≠ 0) (hnew : ∀ z, z ∈ v.nodes → z.arrival ≠ x.arrival) :
    ∃ t y, exec (.launch vif) s = .next t ∧ Passed v t vif k.len ∧ t.nextArrival = v.nextArrival + 1 ∧ t.nodeAt x.arrival = some y ∧ y.vif = x.vif ∧ y.lid = x.lid ∧
      y.img = x.img := by
  obtain ⟨hq, ha, y, hy, hxy⟩ := State.admitNode_admits (launchChecks_waits vif k.bytes _ _ _ hchecks) ht hnew
  have hexec : exec (.launch vif) s = .next ((v.admitNode x).passPacket vif k.len (pk k.bytes 4 4) 1 0) := by
    refine congrArg Host.Outcome.next ?_
    rw [State.packetOf_takes (want := fun t => t == 1 || decide (4 ≤ t)) hp hr (by rw [hty]; rfl), State.disposePacket]
    simp only [hty, if_neg (Nat.not_le.mpr hroom), hstr, hform, hchecks, Bool.not_true, Bool.false_eq_true, if_false]
  exact ⟨_, y, hexec, hq.passed vif k.len _ 1 0, ha, (State.passPacket_nodeAt _ _ _ _ _ _ _).trans hy, hxy.names⟩

/-! ### Placing -/

theorem State.candidates_sub {s : State} {x : Node} {r : List Node} (h : s.candidates = x :: r) : x.next < x.total ∧ ∃ z, s.nodeAt x.arrival = some z := by
  have hinsert : ∀ (ns : List Node) (a : Node), ∀ y, y ∈ s.insertBy a ns → y = a ∨ y ∈ ns := by
    intro ns a
    induction ns with
    | nil => exact fun y hy => Or.inl (List.mem_singleton.mp hy)
    | cons n ns ih =>
      intro y hy
      rw [State.insertBy] at hy
      split at hy
      · exact List.mem_cons.mp hy
      · cases List.mem_cons.mp hy with
        | inl h => exact Or.inr (h ▸ List.mem_cons_self)
        | inr h => exact (ih y h).imp id (List.mem_cons_of_mem n)
  have hfold : ∀ (ns : List Node), ∀ y, y ∈ ns.foldr s.insertBy [] → y ∈ ns := by
    intro ns
    induction ns with
    | nil => exact fun y hy => hy
    | cons n ns ih =>
      intro y hy
      cases hinsert _ n y hy with
      | inl h => exact h ▸ List.mem_cons_self
      | inr h => exact List.mem_cons_of_mem n (ih y h)
  have hx : x ∈ s.candidates := h ▸ List.mem_cons_self
  obtain ⟨hmem, hcan⟩ := List.mem_filter.mp (hfold _ x hx)
  simp only [Bool.and_eq_true, decide_eq_true_eq] at hcan
  refine ⟨hcan.1.2, Option.isSome_iff_exists.mp ?_⟩
  rw [State.nodeAt, List.find?_isSome]
  exact ⟨x, hmem, beq_self_eq_true _⟩

/-- The slot of an instance that has been placed. -/
structure PlacedIn (s t : State) (n : Nat) (r : Slot) : Prop where
  runs : (t.slot n).st = .running
  launch : (t.slot n).vif = r.vif ∧ (t.slot n).lid = r.lid ∧ (t.slot n).inst = r.inst
  place : (t.slot n).px = r.px ∧ (t.slot n).py = r.py ∧ (t.slot n).orient = r.orient ∧ (t.slot n).chans = r.chans
  still : (t.slot n).moving = r.moving
  others : ∀ m, m ≠ n → t.slot m = s.slot m

theorem State.startRegion_places {s : State} {n : Nat} (h : (s.snap (s.slot n).job).st ≠ .rolling) : PlacedIn s (s.startRegion n) n (s.slot n) ∧ (s.startRegion n).nodes = s.nodes := by
  have hfold : ∀ (ts : List Nat) (u : State),
      { ts.foldl (fun (u : State) t => u.setTile ((s.slot n).phys t) ((u.tile ((s.slot n).phys t)).start (Store.get {} t (s.slot n).imgs))) u with tiles := [] } =
        { u with tiles := [] } := by
    intro ts
    induction ts with
    | nil => exact fun _ => rfl
    | cons t ts ih => exact fun u => (ih _).trans rfl
  have hrest := hfold (List.range (s.slot n).count) s
  unfold State.startRegion
  extract_lets r u
  have hslots : u.slots = s.slots := (congrArg State.slots hrest :)
  have hsnaps : u.snaps = s.snaps := (congrArg State.snaps hrest :)
  have hnodes : u.nodes = s.nodes := (congrArg State.nodes hrest :)
  clear_value u
  obtain ⟨q, hq, hjob, hst, hlaunch, hplace, hstill⟩ : ∃ q : Slot, ({ r with
      st := .running, evicted := false, rcc := cycle0, pos := 0, cutReq := (s.snap r.job).st == .cutting, timeoff := s.tbwall, worldStow := 0, wakes := true,
      tstart := s.tb, reduced := decide (s.phase < 4), mhz := if s.phase < 4 then Nat.min r.mhz 750 else r.mhz } : Slot) = q ∧ q.job = r.job ∧ q.st = .running ∧
      (q.vif = r.vif ∧ q.lid = r.lid ∧ q.inst = r.inst) ∧ (q.px = r.px ∧ q.py = r.py ∧ q.orient = r.orient ∧ q.chans = r.chans) ∧ q.moving = r.moving :=
    ⟨_, rfl, rfl, rfl, ⟨rfl, rfl, rfl⟩, ⟨rfl, rfl, rfl, rfl⟩, rfl⟩
  rw [hq]
  have hsame := State.setSlot_slot_same u n q
  have hroll : ((u.setSlot n q).snap ((u.setSlot n q).slot n).job).st ≠ .rolling := by
    rw [hsame, hjob, State.snap, show (u.setSlot n q).snaps = s.snaps from hsnaps]
    exact h
  rw [State.joinRoll_idle hroll]
  rw [← hsame] at hst hlaunch hplace hstill
  exact ⟨⟨hst, hlaunch, hplace, hstill, fun m hm => (State.setSlot_slot_other u hm q).trans (by rw [State.slot, hslots]; rfl)⟩, hnodes⟩

theorem Node.from_congr {x y : Node} (h : y.came = x.came) : ∀ k i, y.from k i = x.from k i
  | 0, _ => rfl
  | k + 1, i => by
    rw [Node.from, Node.from, h, Node.from_congr h k]

/-- The slot of the next instance of a node, placed. -/
def State.placedSlot (s : State) (x : Node) (n : Nat) (q : Nat × Nat × Nat) : Slot :=
  { ((s.slot n).load x x.next (s.vifOf x.vif).world x.img).place q with chans := s.freeChans.take x.img.hbmch }

section
variable {s : State} {x : Node} {n : Nat} {q : Nat × Nat × Nat} (hslot : s.freeSlotNo = some n)
  (htq : s.vifTiles x.vif + x.img.w * x.img.h ≤ (s.vifOf x.vif).tq) (hchq : s.vifChans x.vif + x.img.hbmch ≤ (s.vifOf x.vif).chq)
  (hchans : x.img.hbmch ≤ s.freeChans.length)
  (hplace : placements.find? (fun p => s.fits ((s.slot n).load x x.next (s.vifOf x.vif).world x.img) s.openTile p) = some q)
include hslot htq hchq hchans hplace

theorem State.placeNext_places : s.placeNext x x.img x.next = some ((s.setSlot n (s.placedSlot x n q)).startRegion n) := by
  have hquota : (decide ((s.vifOf x.vif).tq < s.vifTiles x.vif + x.img.w * x.img.h) || decide ((s.vifOf x.vif).chq < s.vifChans x.vif + x.img.hbmch) ||
      decide (s.freeChans.length < x.img.hbmch)) = false := by
    rw [decide_eq_false (Nat.not_lt.mpr htq), decide_eq_false (Nat.not_lt.mpr hchq), decide_eq_false (Nat.not_lt.mpr hchans)]
    rfl
  unfold State.placeNext
  simp only [hslot, hquota, hplace, Bool.false_eq_true, if_false]
  rfl

omit htq hchq hchans hplace hslot in
theorem State.placeGang_one (h : x.next < x.total) :
    s.placeGang x 1 = (s.placeNext x x.img x.next).bind (fun u => some (u.setNode { x with started := x.next + 1 })) := if_neg (Nat.not_le.mpr h)

theorem State.placeNode_places (hnext : x.next < x.total) (hgang : x.gang = false) :
    s.placeNode x = some (((s.setSlot n (s.placedSlot x n q)).startRegion n).setNode { x with st := .running, started := x.next + 1 }) := by
  obtain ⟨y, hy⟩ : ∃ y : Node, { x with st := .running } = y := ⟨_, rfl⟩
  have hsame : y.started = x.started ∧ y.came = x.came ∧ y.total = x.total ∧ y.vif = x.vif ∧ y.img = x.img := hy ▸ ⟨rfl, rfl, rfl, rfl, rfl⟩
  obtain ⟨hystarted, hycame, hytotal, hyvif, hyimg⟩ := hsame
  have hynext : y.next = x.next := by rw [Node.next, Node.from_congr hycame, hystarted, hycame, Node.next]
  have hload (r : Slot) (i w : Nat) (g : Image) : r.load y i w g = r.load x i w g := hy ▸ rfl
  have hrun : { y with started := x.next + 1 } = ({ x with st := .running, started := x.next + 1 } : Node) := hy ▸ rfl
  have hplaced : s.placedSlot y n q = s.placedSlot x n q := by
    rw [State.placedSlot, State.placedSlot, hynext, hyvif, hyimg, hload]
  have hone := State.placeNext_places (x := y) hslot (by rwa [hyvif, hyimg]) (by rwa [hyvif, hyimg]) (by rwa [hyimg])
    (by rw [hynext, hyvif, hyimg]; simp only [hload]; exact hplace)
  have hone' : (if x.gang then x.total - x.started else 1) = 1 := if_neg (by rw [hgang]; exact Bool.false_ne_true)
  rw [State.placeNode, hy, hone', State.placeGang_one (by rwa [hynext, hytotal]), hone, hplaced, hynext, hrun]
  rfl

omit htq hchq hchans hplace hslot in
theorem State.resumeAll_still (h : ∀ m, (s.slot m).moving = false) : s.resumeAll = s := foldl_of_fixed fun m _ => by
  simp only [State.resumeMoved, h, Bool.false_and, Bool.not_false, if_true]

/-- The placed instance stands in its slot, and its node runs. -/
theorem placeInstance_exec {r : List Node} (hcand : s.candidates = x :: r) (hgang : x.gang = false) (hfree : (s.slot n).st = .free)
    (hroll : (s.snap (s.nodeJob x)).st ≠ .rolling) (hstill : ∀ m, (s.slot m).moving = false) :
    ∃ t, (if s.placeFirst s.candidates == s then s.makeMoves s.candidates else s.placeFirst s.candidates).resumeAll = t ∧
      PlacedIn (s.setSlot n (s.placedSlot x n q)) t n (s.placedSlot x n q) ∧
      t.nodeAt x.arrival = some { x with st := .running, started := x.next + 1 } := by
  obtain ⟨hnext, z, hz⟩ := State.candidates_sub hcand
  obtain ⟨p, hp⟩ : ∃ p, s.placedSlot x n q = p := ⟨_, rfl⟩
  have hnode := State.placeNode_places hslot htq hchq hchans hplace hnext hgang
  have hfacts : p.job = s.nodeJob x ∧ p.moving = false := hp ▸ ⟨rfl, rfl⟩
  obtain ⟨hjob, hpstill⟩ := hfacts
  have hsame := State.setSlot_slot_same s n p
  obtain ⟨hplaced, hnodes⟩ := State.startRegion_places (s := s.setSlot n p) (n := n) (by
    rw [hsame, hjob]
    exact hroll)
  rw [hp] at hnode ⊢
  rw [hsame] at hplaced
  obtain ⟨u, hu⟩ : ∃ u, (s.setSlot n p).startRegion n = u := ⟨_, rfl⟩
  rw [hu] at hnode hplaced hnodes
  obtain ⟨y, hy⟩ : ∃ y : Node, { x with st := .running, started := x.next + 1 } = y := ⟨_, rfl⟩
  have hya : y.arrival = x.arrival := hy ▸ rfl
  rw [hy] at hnode ⊢
  have hfirst : s.placeFirst s.candidates = u.setNode y := by rw [hcand, State.placeFirst, hnode]
  have hslots : (u.setNode y).slots = u.slots := rfl
  have hne : ((u.setNode y) == s) = false := by
    rw [beq_eq_false_iff_ne]
    intro h
    have hst : ((u.setNode y).slot n).st = (s.slot n).st := by rw [h]
    rw [hfree, show (u.setNode y).slot n = u.slot n from rfl, hplaced.runs] at hst
    cases hst
  have hmoving (m : Nat) : (u.slot m).moving = false := by
    by_cases hm : m = n
    · rw [hm, hplaced.still, hpstill]
    · rw [hplaced.others m hm, State.setSlot_slot_other s hm p, hstill]
  have hresume : (u.setNode y).resumeAll = u.setNode y := State.resumeAll_still fun m => hmoving m
  refine ⟨u.setNode y, ?_, ⟨hplaced.runs, hplaced.launch, hplaced.place, hplaced.still, hplaced.others⟩, ?_⟩
  · rw [hfirst, hne, if_neg Bool.false_ne_true, hresume]
  · rw [← hya, State.nodeAt_setNode, if_pos rfl, hya, State.nodeAt, hnodes]
    rw [State.nodeAt] at hz
    rw [show (s.setSlot n p).nodes = s.nodes from rfl, hz]
    rfl
end

end Sys2Proof.Machine

namespace Sys2Proof.Proofs
open Sys2Proof.Machine Sys2Proof.Claims

theorem placeInstance_done {s : State} {x : Node} {r : List Node} {n : Nat} {q : Nat × Nat × Nat} : let c := s.settleGraph
    let v := c.vifOf x.vif
    c.candidates = x :: r → x.gang = false → c.freeSlotNo = some n → c.vifTiles x.vif + x.img.w * x.img.h ≤ v.tq → c.vifChans x.vif + x.img.hbmch ≤ v.chq →
    x.img.hbmch ≤ c.freeChans.length → 2 ≤ s.phase → (c.snap (c.nodeJob x)).st ≠ .rolling →
    placements.find? (fun p => c.fits ((c.slot n).load x x.next v.world x.img) c.openTile p) = some q → (∀ m, (c.slot m).moving = false) →
    ∃ t y, exec .placeInstance s = .next t ∧ (t.slot n).st = .running ∧ (t.slot n).vif = x.vif ∧ (t.slot n).lid = x.lid ∧ (t.slot n).inst = x.next ∧
      ((t.slot n).px, (t.slot n).py, (t.slot n).orient) = q ∧ (t.slot n).chans = c.freeChans.take x.img.hbmch ∧ t.nodeAt x.arrival = some y ∧ y.st = .running ∧
      y.started = x.next + 1 ∧ ∀ m, m ≠ n → t.slot m = c.slot m := by
  intro c v hcand hgang hslot htq hchq hchans hphase hroll hplace hstill
  have hfree : (c.slot n).st = .free := beq_iff_eq.mp (List.find?_some (p := fun n => (c.slot n).st == .free) hslot)
  obtain ⟨t, ht, hplaced, hnode⟩ := placeInstance_exec hslot htq hchq hchans hplace hcand hgang hfree hroll hstill
  obtain ⟨hvif, hlid, hinst⟩ := hplaced.launch
  obtain ⟨hpx, hpy, horient, hchs⟩ := hplaced.place
  have hexec : exec .placeInstance s = .next t := by
    rw [← ht]
    exact congrArg Host.Outcome.next (if_neg (by rw [State.serves_false hphase]; exact Bool.false_ne_true))
  refine ⟨t, _, hexec, hplaced.runs, hvif, hlid, hinst, ?_, hchs, hnode, rfl, rfl, fun m hm => (hplaced.others m hm).trans (State.setSlot_slot_other c hm _)⟩
  rw [hpx, hpy, horient]
  rfl

/-- Settles O58, service by service. -/
theorem serviceEvents : Obligations.ServiceEvents := by
  intro s
  refine ⟨fun c p ctx hc hen hw hring hkey hok hctx hwin => bounceEnable_done hc hen hw hring hkey hok hctx hwin,
    fun c ctx pa hen hout => bounceFrameIn_done hen hout, fun c ctx pa len off hen hout hasked => bounceFrameOut_done hen hout hasked,
    fun p ns hw hnext hnd => ?_, fun n p rate rest hshed hw hst => powerRestore_done hshed hw hst,
    fun vif data pa hp hen hs => queueWrite_done hp hen hs data pa, fun vif p hp hen => ⟨vifqEnable_done hp hen, vifqEnable_refused hp hen⟩,
    fun vif hen => vifqDisable_done hen, fun vif u k hp hr hstr => ⟨?_, ?_, ?_, fun hty hlen => pad_done hp hr hstr hty hlen⟩, fun x r n q => placeInstance_done⟩
  · obtain ⟨t, hexec, hpwr, hother, hstep⟩ := powerShed_done hw hnext hnd
    exact ⟨t, hexec, hpwr, hother, fun n hn => ⟨(hstep n hn).clock, (hstep n hn).stow, (hstep n hn).evict⟩⟩
  · exact fun v x hty hroom hform hchecks ht hnew => launch_done hp hr hstr hty hroom hform hchecks ht hnew
  · exact fun x hty hform hnode => ⟨fun hst hidle hsnapped => cancel_ends hp hr hstr hty hform hnode hst hidle hsnapped,
      fun hst hrec => cancel_retires hp hr hstr hty hform hnode hst hrec⟩
  · exact fun x hty hform hnode hst => release_done hp hr hstr hty hform hnode hst

end Sys2Proof.Proofs
end

section
/-! PROOFS. The snapshot area (Table 20.2, R336, R337): the catalogue, a record that fits the growing folio, the copies of pages and buffers. -/

namespace Sys2Proof.Machine
open Sys2Proof.Claims

/-! ### Writes of the area -/

/-- A write by the device poisons no line. -/
theorem State.wrPhys_clean {s : State} (h : s.poison = []) (pa : Nat) (data : List Byte) : (s.wrPhys pa data []).poison = [] := by
  have hmark : ∀ (ls : List Nat), ls.foldl (fun (m : Store Nat) l => if pa ≤ 64 * l && 64 * l + 64 ≤ pa + data.length then Store.put 0 l 0 m else m) [] = [] := by
    intro ls
    induction ls with
    | nil => rfl
    | cons l ls ih =>
      rw [List.foldl_cons]
      split
      · exact ih
      · exact ih
  simp only [State.wrPhys, List.any_nil, Bool.false_eq_true, if_false, h]
  exact hmark _

/-- What a write of the area may change. -/
theorem State.areaWrite_rest {s u : State} {k off : Nat} {data : List Byte} {bad : List Nat} (h : s.areaWrite k off data bad = some u) :
    u = s.wrPhys (s.area k + off) data bad := by
  rw [State.areaWrite] at h
  split at h
  · exact (Option.some.inj h).symm
  · cases h

theorem length_catWords (ws : List Nat) : (ws.flatMap b8).length = 8 * ws.length := by
  induction ws with
  | nil => rfl
  | cons w ws ih => rw [List.flatMap_cons, List.length_append, ih, List.length_cons, b8, length_leBytes]; omega

/-- A catalogue entry's words stand outside every other byte. -/
theorem State.catWrite_get (s : State) (k i : Nat) {ws : List Nat} {a : Nat} (ha : a < s.area k + (0x100 + 64 * i) ∨ s.area k + (0x100 + 64 * i) + 8 * ws.length ≤ a) :
    Store.get 0 a (s.catWrite k i ws).mem = Store.get 0 a s.mem := by
  rw [State.catWrite]
  cases hw : s.areaWrite k (0x100 + 64 * i) (ws.flatMap b8) [] with
  | none => rfl
  | some u =>
    rw [State.areaWrite_rest hw, Option.getD_some, State.wrPhys_wrote, length_catWords, if_neg (by omega)]

theorem State.catWrite_clean {s : State} (h : s.poison = []) (k i : Nat) (ws : List Nat) : (s.catWrite k i ws).poison = [] := by
  rw [State.catWrite]
  cases hw : s.areaWrite k (0x100 + 64 * i) (ws.flatMap b8) [] with
  | none => exact h
  | some u =>
    rw [State.areaWrite_rest hw]
    exact State.wrPhys_clean h _ _

/-! ### A record that fits -/

/-- A record of the growing folio has been written: memory holds it, and only its length changes of the job's own record. -/
structure Recorded (s t : State) (k : Nat) (bs : List Byte) : Prop where
  holds : appended s t k bs
  snap : t.snap k = { s.snap k with fpos := (s.snap k).fpos + bs.length }
  others : ∀ j, j ≠ k → t.snap j = s.snap j
  rest : { t with mem := s.mem, poison := s.poison, snaps := s.snaps } = s

theorem State.snap_setSnap_other (s : State) {k j : Nat} (h : j ≠ k) (x : Snap) : (s.setSnap k x).snap j = s.snap j := Store.get_put_other _ _ h _

theorem Store.getN_congr {m m' : Store Byte} {a n : Nat} (h : ∀ i, i < n → Store.get 0 (a + i) m = Store.get 0 (a + i) m') : Store.getN 0 m a n = Store.getN 0 m' a n := by
  rw [Store.getN_eq_map, Store.getN_eq_map]
  exact List.map_congr_left fun i hi => h i (List.mem_range.mp hi)

theorem State.wrPhys_getN (s : State) (pa : Nat) (data : List Byte) (bad : List Nat) : Store.getN 0 (s.wrPhys pa data bad).mem pa data.length = data :=
  Store.getN_of_get fun i hi => by rw [State.wrPhys_wrote, if_pos ⟨by omega, by omega⟩, Nat.add_sub_cancel_left]

theorem State.makeRoom_fits {s : State} {k n : Nat} (h : folioFits s k n) : s.makeRoom k n 18 = s := by
  obtain ⟨_, _, _, hroom, _⟩ := h
  exact if_pos hroom

theorem State.folioAppend_fits {s : State} {k kind key : Nat} {data : List Byte} (h : folioFits s k (folioRecord kind key data).length) :
    ∃ t, s.folioAppend k kind key data [] = some t ∧ Recorded s t k (folioRecord kind key data) := by
  rw [State.folioAppend_eq, State.makeRoom_fits h]
  obtain ⟨bs, hbs⟩ : ∃ bs, folioRecord kind key data = bs := ⟨_, rfl⟩
  rw [hbs] at h ⊢
  obtain ⟨hgrows, hentry, hoff, hroom, howned⟩ := h
  have hpass : (!(s.snap k).growing || !s.roomAt k (s.snap k).entry (s.snap k).foff ((s.snap k).fpos + bs.length)) = false := by rw [hgrows, hroom]; rfl
  have hwrite : s.areaWrite k ((s.snap k).foff + (s.snap k).fpos) bs [] = some (s.wrPhys (s.area k + ((s.snap k).foff + (s.snap k).fpos)) bs []) := by
    rw [State.areaWrite]
    refine if_pos (List.all_eq_true.mpr fun p hp => howned p ?_)
    rwa [State.area] at hp
  obtain ⟨w, hw⟩ : ∃ w, s.wrPhys (s.area k + ((s.snap k).foff + (s.snap k).fpos)) bs [] = w := ⟨_, rfl⟩
  have hholds := s.wrPhys_getN (s.area k + ((s.snap k).foff + (s.snap k).fpos)) bs []
  have hwrest : { w with mem := s.mem, poison := s.poison } = s := by rw [← hw]; rfl
  rw [hw] at hwrite hholds
  have hwsnap (j : Nat) : w.snap j = s.snap j := by rw [State.snap, show w.snaps = s.snaps from (congrArg State.snaps hwrest :)]; rfl
  obtain ⟨v, hv⟩ : ∃ v, w.setSnap k { s.snap k with fpos := (s.snap k).fpos + bs.length } = v := ⟨_, rfl⟩
  have hvsnap : v.snap k = { s.snap k with fpos := (s.snap k).fpos + bs.length } := by rw [← hv, State.snap_setSnap_same]
  have hvothers (j : Nat) (hj : j ≠ k) : v.snap j = s.snap j := by rw [← hv, State.snap_setSnap_other _ hj, hwsnap]
  have hvmem : v.mem = w.mem := hv ▸ rfl
  have hvrest : { v with mem := s.mem, poison := s.poison, snaps := s.snaps } = s := by
    rw [← hv]
    exact (congrArg (fun u : State => { u with snaps := s.snaps }) hwrest).trans rfl
  have hvarea : v.area k = s.area k := by rw [State.area, hvsnap]; rfl
  obtain ⟨t, ht⟩ : ∃ t, v.catWrite k (s.snap k).entry [v.cat k (s.snap k).entry 0, v.cat k (s.snap k).entry 1, (s.snap k).foff, (s.snap k).fpos + bs.length,
      v.cat k (s.snap k).entry 4, v.cat k (s.snap k).entry 5] = t := ⟨_, rfl⟩
  have htrest := v.catWrite_rest k (s.snap k).entry [v.cat k (s.snap k).entry 0, v.cat k (s.snap k).entry 1, (s.snap k).foff, (s.snap k).fpos + bs.length,
      v.cat k (s.snap k).entry 4, v.cat k (s.snap k).entry 5]
  rw [ht] at htrest
  have htsnap (j : Nat) : t.snap j = v.snap j := by rw [State.snap, show t.snaps = v.snaps from (congrArg State.snaps htrest :)]; rfl
  refine ⟨t, ?_, ⟨⟨?_, ?_⟩, (htsnap k).trans hvsnap, fun j hj => (htsnap j).trans (hvothers j hj), ?_⟩⟩
  · simp only [State.folioPut, hpass, List.map_nil, hwrite, hv, ht, Bool.false_eq_true, if_false]
  · refine (Store.getN_congr fun i hi => ?_).trans hholds
    rw [← hvmem, ← ht]
    refine v.catWrite_get k _ (Or.inr ?_)
    rw [hvarea, State.area]
    simp only [List.length_cons, List.length_nil]
    omega
  · rw [htsnap, hvsnap]
  · refine Eq.trans ?_ hvrest
    have := congrArg (fun u : State => { u with mem := s.mem, poison := s.poison, snaps := s.snaps }) htrest
    exact this

theorem length_folioRecord (kind key : Nat) {data : List Byte} (h : data.length % 16 = 0) : (folioRecord kind key data).length = 16 + data.length := by
  have hpad : pad16 data = data := by rw [pad16, h]; exact List.append_nil _
  rw [folioRecord, hpad]
  simp only [List.length_append, length_leBytes, b8]

/-! ### The copies (R334, R335) -/

/-- The area, the catalogue and the growing folio of a job are the same. -/
theorem State.area_congr {s u : State} {k : Nat} (hsnap : u.snap k = s.snap k) (hmem : u.mem = s.mem) (off n : Nat) : u.areaU k off n = s.areaU k off n := by
  rw [State.areaU, State.areaU, State.rdPhys, State.rdPhys, State.area, State.area, hsnap, hmem]

theorem State.folioHas_congr {s u : State} {k : Nat} (hsnap : u.snap k = s.snap k) (hmem : u.mem = s.mem) (kind key : Nat) : u.folioHas k kind key = s.folioHas k kind key := by
  simp only [State.folioHas, State.folioRecs, State.cat, State.area_congr hsnap hmem, State.rdPhys, State.area, hsnap, hmem]

theorem folioFits_congr {s u : State} {k n : Nat} (hsnap : u.snap k = s.snap k) (hmem : u.mem = s.mem) (hpot : u.pot = s.pot) (h : folioFits s k n) : folioFits u k n := by
  obtain ⟨hgrows, hentry, hoff, hroom, howned⟩ := h
  have hroom' : u.roomAt k (u.snap k).entry (u.snap k).foff ((u.snap k).fpos + n) = true := by
    rw [hsnap, ← hroom]
    simp only [State.roomAt, State.areaLen, State.folioSpans, State.catValid, State.cat, State.area_congr hsnap hmem]
    rfl
  refine ⟨hsnap ▸ hgrows, hsnap ▸ hentry, hsnap ▸ hoff, hroom', fun p hp => ?_⟩
  rw [hsnap] at hp
  rw [State.ownedPage, State.potOf, hpot]
  exact howned p hp

section
variable {s : State} {k page : Nat} (hpoison : s.poison = []) (hold : (s.snap k).old = none) (hhas : s.folioHas k 1 (4096 * page) = false)
  (hfits : folioFits s k 4112)
include hpoison hold hhas hfits

/-- A page goes into the growing folio, where it is not yet. -/
theorem State.copyPage_copies : let bs := folioRecord 1 (4096 * page) (Store.getN 0 s.mem (4096 * page) 4096)
    appended s (s.copyPage k page) k bs ∧ ((s.copyPage k page).snap k).pages = (s.snap k).pages.filter (fun p => p != page) ∧
      ∀ j, j ≠ k → (s.copyPage k page).snap j = s.snap j := by
  intro bs
  have hswap : (s.snap k).swap = s.snap k := by rw [Snap.swap, hold]
  obtain ⟨u, hu⟩ : ∃ u, s.setSnap k (s.snap k) = u := ⟨_, rfl⟩
  have husnap (j : Nat) : u.snap j = s.snap j := by
    by_cases hj : j = k
    · rw [← hu, hj, State.snap_setSnap_same]
    · rw [← hu, State.snap_setSnap_other _ hj]
  have humem : u.mem = s.mem := hu ▸ rfl
  have hupoison : u.poison = [] := hu ▸ hpoison
  have hlen : (folioRecord 1 (4096 * page) (Store.getN 0 s.mem (4096 * page) 4096)).length = 4112 := by
    have hget : (Store.getN 0 s.mem (4096 * page) 4096).length = 4096 := by rw [Store.getN_eq_map, List.length_map, List.length_range]
    rw [length_folioRecord _ _ (by rw [hget]), hget]
  obtain ⟨v, hv, hrec⟩ := State.folioAppend_fits (s := u) (k := k) (kind := 1) (key := 4096 * page) (data := Store.getN 0 s.mem (4096 * page) 4096)
    (by rw [hlen]; exact folioFits_congr (husnap k) humem (hu ▸ rfl) hfits)
  have hbad : u.badOf (4096 * page) 4096 = [] := by rw [State.badOf, State.linesIn_clean hupoison]; rfl
  have hvswap : (v.snap k).swap = v.snap k := by rw [hrec.snap, husnap, Snap.swap]; simp only [hold]
  have hin : s.inOld k (fun u => if u.folioHas k 1 (4096 * page) then some u
      else u.folioAppend k 1 (4096 * page) (u.rdPhys (4096 * page) 4096) (u.badOf (4096 * page) 4096)) = some (v.setSnap k (v.snap k)) := by
    rw [State.inOld, hswap, hu, State.folioHas_congr (husnap k) humem, hhas, if_neg Bool.false_ne_true, hbad, State.rdPhys, humem, hv, Option.map_some, hvswap]
  have hpage : s.pageRecord k page = some ((v.setSnap k (v.snap k)).setSnap k { v.snap k with pages := (v.snap k).pages.filter (fun p => p != page) }) := by
    rw [State.pageRecord, hin, Option.map_some, State.snap_setSnap_same]
  have hcopy : s.copyPage k page = (v.setSnap k (v.snap k)).setSnap k { v.snap k with pages := (v.snap k).pages.filter (fun p => p != page) } := by
    rw [State.copyPage, State.fixLines_clean hpoison]
    simp only [hpage]
  rw [hcopy]
  obtain ⟨hholds, -⟩ := hrec.holds
  refine ⟨⟨?_, ?_⟩, ?_, fun j hj => ?_⟩
  · rw [husnap] at hholds
    exact hholds
  · rw [State.snap_setSnap_same, hrec.snap, husnap]
  · rw [State.snap_setSnap_same, hrec.snap, husnap]
  · rw [State.snap_setSnap_other _ hj, State.snap_setSnap_other _ hj, hrec.others j hj, husnap]
end

/-- A page that only one job has SNAPPED is copied once. -/
theorem State.freePage_one {s : State} {k page : Nat} (hk : (s.snap k).pages.contains page = true) (hj : ∀ j, j ≠ k → (s.snap j).pages.contains page = false)
    (hdone : ((s.copyPage k page).snap k).pages.contains page = false) (hother : ∀ j, j ≠ k → (s.copyPage k page).snap j = s.snap j) :
    s.freePage page = s.copyPage k page := by
  have hstays : ∀ ks : List Nat, ks.foldl (fun (u : State) k => if (u.snap k).pages.contains page then u.copyPage k page else u) (s.copyPage k page) = s.copyPage k page :=
    fun ks => foldl_of_fixed fun j _ => by
      by_cases hjk : j = k
      · rw [hjk, hdone, if_neg Bool.false_ne_true]
      · rw [hother j hjk, hj j hjk, if_neg Bool.false_ne_true]
  have hfold : ∀ ks : List Nat, k ∈ ks → ks.foldl (fun (u : State) k => if (u.snap k).pages.contains page then u.copyPage k page else u) s = s.copyPage k page := by
    intro ks
    induction ks with
    | nil => exact fun h => absurd h List.not_mem_nil
    | cons j ks ih =>
      intro hmem
      rw [List.foldl_cons]
      by_cases hjk : j = k
      · rw [hjk, if_pos hk, hstays]
      · rw [if_neg (by rw [hj j hjk]; exact Bool.false_ne_true)]
        exact ih ((List.mem_cons.mp hmem).resolve_left fun h => hjk h.symm)
  refine hfold _ (List.mem_map_of_mem (f := Prod.fst) (Store.mem_of_get (d := ({} : Snap)) (k := k) fun h => ?_))
  rw [State.snap, h] at hk
  exact absurd hk Bool.false_ne_true

theorem pageCopy_done {s : State} {k page : Nat} (hpoison : s.poison = []) (hheld : s.heldPages.contains page = true) (hk : (s.snap k).pages.contains page = true)
    (hj : ∀ j, j ≠ k → (s.snap j).pages.contains page = false) (hold : (s.snap k).old = none) (hhas : s.folioHas k 1 (4096 * page) = false)
    (hfits : folioFits s k 4112) :
    ∃ t, exec (.pageCopy page) s = .next t ∧ appended s t k (folioRecord 1 (4096 * page) (Store.getN 0 s.mem (4096 * page) 4096)) ∧
      (t.snap k).pages = (s.snap k).pages.filter (fun p => p != page) ∧ t.heldPages.contains page = false := by
  obtain ⟨happended, hpages, hother⟩ := State.copyPage_copies hpoison hold hhas hfits
  have hgone (l : List Nat) : (l.filter (fun p => p != page)).contains page = false := by
    rw [List.contains_eq_mem, decide_eq_false_iff_not, List.mem_filter, bne_self_eq_false]
    exact fun h => Bool.false_ne_true h.2
  have hfree := State.freePage_one hk hj (by rw [hpages]; exact hgone _) hother
  refine ⟨_, congrArg Host.Outcome.next (if_pos hheld), ?_, ?_, hgone _⟩
  · rw [hfree]
    exact happended
  · rw [hfree]
    exact hpages

/-! ### Buffers -/

theorem State.nextSnapped_some {s : State} {n t b : Nat} (h : s.nextSnapped n = some (t, b)) :
    (s.slot n).evicted = false ∧ ((s.tileAt n t).buf b).snapped = true := by
  rw [State.nextSnapped] at h
  split at h
  · cases h
  · next hev =>
    obtain ⟨t', _, ht⟩ := List.exists_of_findSome?_eq_some h
    obtain ⟨b', hb, heq⟩ := Option.map_eq_some_iff.mp ht
    cases heq
    exact ⟨Bool.eq_false_iff.mpr hev, List.find?_some (p := fun b => ((s.tileAt n t).buf b).snapped) hb⟩

theorem State.stowRead_clean {s : State} {p : Nat} (h : (s.tile p).ecc = []) (n space addr len : Nat) : s.stowRead n p space addr len = s := by
  rw [State.stowRead, State.correctAt_clean h, Tile.bad_clean h]
  rfl

theorem bufferCopy_done {s : State} {n t b : Nat} (hnext : s.nextSnapped n = some (t, b)) (hecc : (s.tileAt n t).ecc = []) :
    let k := (s.slot n).job
    let bs := folioRecord 2 (bufKey (s.slot n).inst t b) (s.bufRecord n t b)
    s.folioHas k 2 (bufKey (s.slot n).inst t b) = false → folioFits s k bs.length →
      ∃ u, exec (.bufferCopy n t b) s = .next u ∧ appended s u k bs ∧ ((u.tileAt n t).buf b).snapped = false ∧ u.slots = s.slots := by
  intro k bs hhas hfits
  obtain ⟨hev, hsnapped⟩ := State.nextSnapped_some hnext
  obtain ⟨v, hv, hrec⟩ := State.folioAppend_fits (s := s) (k := k) hfits
  have hbad : (s.tileAt n t).badLines ((s.declAt n t b).addr 0) (s.declAt n t b).bytes = [] := by
    rw [Tile.badLines, List.filter_eq_nil_iff]
    intro o _
    rw [Tile.bad_clean hecc]
    exact Bool.false_ne_true
  have hcopy : s.copyBuffer n t b = v.setTileAt n t ((v.tileAt n t).setBuf b { (v.tileAt n t).buf b with snapped := false }) := by
    have hgo : (!((s.tileAt n t).buf b).snapped || (s.slot n).evicted) = false := by rw [hsnapped, hev]; rfl
    have hread := State.stowRead_clean (s := s) (p := (s.slot n).phys t) hecc n 3 ((s.declAt n t b).addr 0) (s.declAt n t b).bytes
    unfold State.copyBuffer
    simp only [hgo, hread, Bool.false_eq_true, if_false, show s.folioHas (s.slot n).job 2 (bufKey (s.slot n).inst t b) = false from hhas, hbad,
      show s.folioAppend (s.slot n).job 2 (bufKey (s.slot n).inst t b) (s.bufRecord n t b) [] = some v from hv]
  have hexec : exec (.bufferCopy n t b) s = .next (s.copyBuffer n t b) := congrArg Host.Outcome.next (if_pos (beq_iff_eq.mpr hnext))
  rw [hcopy] at hexec
  refine ⟨_, hexec, hrec.holds, ?_, (congrArg State.slots hrec.rest :)⟩
  have htile : (v.setTileAt n t ((v.tileAt n t).setBuf b { (v.tileAt n t).buf b with snapped := false })).tileAt n t =
      (v.tileAt n t).setBuf b { (v.tileAt n t).buf b with snapped := false } := State.setTile_tile_same _ _ _
  rw [htile, Tile.buf, Tile.setBuf, Store.get_put_same]

end Sys2Proof.Machine
end

section
/-! PROOFS. What a commit, an abort and the copies of SNAPPED pages leave: what stands in the outbox stays there, and a job whose snapshot is idle stays idle. -/

namespace Sys2Proof.Machine
open Sys2Proof.Claims

/-- Nothing that waits to be sent is taken back, and no snapshot starts. -/
structure Lasts (s t : State) : Prop where
  outbox : ∀ o, o ∈ s.outbox → o ∈ t.outbox
  idle : ∀ j, (s.snap j).st = .idle → (t.snap j).st = .idle

namespace Lasts
variable {s t u : State}

theorem refl (s : State) : Lasts s s := ⟨fun _ => id, fun _ => id⟩
theorem trans (h : Lasts s t) (g : Lasts t u) : Lasts s u := ⟨fun o => g.outbox o ∘ h.outbox o, fun j => g.idle j ∘ h.idle j⟩

/-- A change elsewhere. -/
theorem of_same (h : (t.outbox, t.snaps) = (s.outbox, s.snaps)) : Lasts s t := by
  obtain ⟨hout, hsnaps⟩ := Prod.mk.inj h
  refine ⟨fun o ho => by rwa [hout], fun j hj => ?_⟩
  rwa [State.snap, hsnaps]

theorem after (g : Lasts t u) (h : (t.outbox, t.snaps) = (s.outbox, s.snaps)) : Lasts s u := (of_same h).trans g

theorem before (g : Lasts s t) (h : (u.outbox, u.snaps) = (t.outbox, t.snaps)) : Lasts s u := g.trans (of_same h)

theorem send (s : State) (os : List Out) : Lasts s { s with outbox := s.outbox ++ os } := ⟨fun _ ho => List.mem_append_left _ ho, fun _ => id⟩

theorem setSnap (s : State) (k : Nat) {x : Snap} (h : (s.snap k).st = .idle → x.st = .idle) : Lasts s (s.setSnap k x) := by
  refine ⟨fun _ => id, fun j hj => ?_⟩
  by_cases hjk : j = k
  · rw [hjk, State.snap_setSnap_same]
    exact h (hjk ▸ hj)
  · rwa [State.snap_setSnap_other s hjk]

theorem foldl {α : Type} {F : State → α → State} (h : ∀ u a, Lasts u (F u a)) : ∀ (l : List α) (s : State), Lasts s (l.foldl F s)
  | [], s => refl s
  | a :: l, s => (h s a).trans (foldl h l (F s a))

theorem ite {c : Prop} [Decidable c] {a b : State} (ha : Lasts s a) (hb : Lasts s b) : Lasts s (if c then a else b) := by
  split
  · exact ha
  · exact hb

theorem wrPhys (s : State) (pa : Nat) (data : List Byte) (bad : List Nat) : Lasts s (s.wrPhys pa data bad) := of_same rfl
theorem setTileAt (s : State) (n t : Nat) (x : Tile) : Lasts s (s.setTileAt n t x) := of_same rfl
theorem setSlot (s : State) (n : Nat) (r : Slot) : Lasts s (s.setSlot n r) := of_same rfl
theorem raiseCC (s : State) (m : Nat) : Lasts s (s.raiseCC m) := of_same (by simp only [State.raiseCC])

theorem errorRecord (s : State) (src : Nat) (unc : Bool) (world addr : Nat) : Lasts s (s.errorRecord src unc world addr) :=
  ⟨fun _ ho => List.mem_append_left _ ho, fun _ => id⟩

theorem fixLines (s : State) (slot : Option Nat) (pa n : Nat) : Lasts s (s.fixLines slot pa n) := by
  have hmeet : Lasts s ((s.linesIn pa n 1 ++ s.linesIn pa n 3).foldl State.meetLine s) :=
    foldl (fun u l => trans (t := { u with poison := Store.put 0 l (if Store.get 0 l u.poison = 1 then 0 else 2) u.poison }) (of_same rfl)
      (errorRecord _ _ _ _ _)) _ s
  simp only [State.fixLines]
  refine ite hmeet ?_
  split
  · exact ite (hmeet.trans (setSlot _ _ _)) hmeet
  · exact hmeet

theorem ctxWrite (s : State) (world pa : Nat) (data : List Byte) (bad : List Nat) : Lasts s (s.ctxWrite world pa data bad) := by
  rw [State.ctxWrite]
  exact foldl (fun u _ => ite (wrPhys u _ _ _) (refl u)) _ s

theorem completeFor (s : State) (who : Option (Nat × Nat × Bool)) (code : Nat) : Lasts s (s.completeFor who code) := by
  unfold State.completeFor
  split
  · exact refl s
  · refine ite (of_same rfl) (ite (of_same rfl) ?_)
    rw [State.completeTile]
    exact ite (setTileAt _ _ _ _) (ite ((fixLines _ _ _ _).trans (ctxWrite _ _ _ _ _)) (setTileAt _ _ _ _))

theorem postEvent (s : State) (cause slot detail : Nat) : Lasts s (s.postEvent cause slot detail) := by
  rw [State.postEvent]
  exact ite (of_same rfl) (trans (t := { s with evq := s.evq ++ [({ cause := cause, slot := slot, detail := detail } : Event)] }) (of_same rfl) (raiseCC _ _))

/-! ### The snapshot area -/

theorem areaWrite {s u : State} {k off : Nat} {data : List Byte} {bad : List Nat} (h : s.areaWrite k off data bad = some u) : Lasts s u := by
  have hrest := State.areaWrite_rest h
  exact of_same (Prod.ext (congrArg State.outbox hrest :) (congrArg State.snaps hrest :))

theorem catWrite (s : State) (k i : Nat) (ws : List Nat) : Lasts s (s.catWrite k i ws) :=
  of_same (Prod.ext (congrArg State.outbox (s.catWrite_rest k i ws) :) (congrArg State.snaps (s.catWrite_rest k i ws) :))

theorem catDrop (s : State) (k i : Nat) : Lasts s (s.catDrop k i) := catWrite s k i _

theorem unmark {s v : State} (h : Lasts s v) (k : Nat) (c : Prop) [Decidable c] :
    Lasts s (if c then v.setSnap k { v.snap k with old := none, pages := [] } else v) :=
  ite (h.trans (setSnap v k id)) h

theorem dropFolio (s : State) (k i : Nat) : Lasts s (s.dropFolio k i) := by
  rw [State.dropFolio]
  exact unmark ((catDrop s k i).trans (postEvent _ _ _ _)) _ _

theorem moveFolio (s : State) (k off : Nat) : Lasts s (s.moveFolio k off) := by
  have hfix := fixLines s none (s.area k + (s.snap k).foff) (s.snap k).fpos
  rw [State.moveFolio]
  split
  · exact hfix
  · next u hu =>
    have hsnaps := (congrArg State.snaps (State.areaWrite_rest hu) :)
    refine (hfix.trans (areaWrite hu)).trans ((setSnap _ _ fun h => ?_).trans (catWrite _ _ _ _))
    rw [State.snap, hsnaps] at h
    exact h

theorem makeRoom (k n : Nat) : ∀ (fuel : Nat) (s : State), Lasts s (s.makeRoom k n fuel)
  | 0, s => refl s
  | fuel + 1, s => by
    rw [State.makeRoom]
    refine ite (refl s) ?_
    split
    · exact moveFolio _ _ _
    · split
      · exact refl s
      · exact (dropFolio _ _ _).trans (makeRoom k n fuel _)

theorem folioPut {w u : State} {k : Nat} {bs : List Byte} {bad : List Nat} (h : w.folioPut k bs bad = some u) : Lasts w u := by
  simp only [State.folioPut] at h
  split at h
  · cases h
  · split at h
    · cases h
    · next v hv =>
      obtain rfl := Option.some.inj h
      have hsnaps := (congrArg State.snaps (State.areaWrite_rest hv) :)
      refine (areaWrite hv).trans ((setSnap _ _ fun hidle => ?_).trans (catWrite _ _ _ _))
      rw [State.snap, hsnaps] at hidle
      exact hidle

theorem folioAppend {s u : State} {k kind key : Nat} {data : List Byte} {bad : List Nat} (h : s.folioAppend k kind key data bad = some u) : Lasts s u := by
  rw [State.folioAppend_eq] at h
  exact (makeRoom k _ _ s).trans (folioPut h)

/-! ### Release and abort -/

theorem setBufMarks (s : State) (k : Nat) (f : Nat → Nat → Nat → Bool) : Lasts s (s.setBufMarks k f) := by
  rw [State.setBufMarks]
  exact foldl (fun u _ => foldl (fun v _ => setTileAt v _ _ _) _ u) _ s

theorem releaseCut (s : State) (n : Nat) : Lasts s (s.releaseCut n) := by
  have hall : Lasts s ((List.range (s.slot n).count).foldl (fun (u : State) t => u.setTileAt n t { u.tileAt n t with stopped := false }) s) :=
    foldl (fun u _ => setTileAt u _ _ _) _ s
  rw [State.releaseCut]
  exact ite (ite (setSlot _ _ _) (hall.trans (setSlot _ _ _))) ((ite (refl s) hall).trans (setSlot _ _ _))

theorem releaseCuts (s : State) (k : Nat) : Lasts s (s.releaseCuts k) := by
  rw [State.releaseCuts]
  exact foldl (fun u n => ite (releaseCut u n) (refl u)) _ s

theorem abortLocal (s : State) (k : Nat) : Lasts s (s.abortLocal k) := by
  unfold State.abortLocal
  extract_lets x past u v y o _ w
  have hmarks : Lasts s u := ite (setBufMarks _ _ _) (refl s)
  have hdrop : Lasts s v := ite (hmarks.trans (catDrop _ _ _)) hmarks
  have hidle : Lasts s w := (hdrop.trans (setSnap v k fun _ => rfl)).before (u := w) rfl
  exact (hidle.trans (releaseCuts _ _)).trans (completeFor _ _ _)

theorem abortSnapshot (s : State) (k : Nat) : Lasts s (s.abortSnapshot k) := by
  unfold State.abortSnapshot
  extract_lets x mine to_ v u
  refine ite (refl s) ?_
  have hsend : Lasts s u := (abortLocal s k).trans (send v _)
  exact ite (hsend.trans (postEvent _ _ _ _)) hsend

/-! ### Copies -/

theorem copyFailed (s : State) (k : Nat) : Lasts s (s.copyFailed k) := by
  unfold State.copyFailed
  extract_lets x v
  refine ite (abortSnapshot s k) ?_
  have hdrop : Lasts s (if x.growing = true then s.dropFolio k x.entry else s) := ite (dropFolio _ _ _) (refl s)
  have hmarks : Lasts s v := hdrop.trans (setBufMarks _ k (fun _ _ _ => false))
  exact (hmarks.trans (setSnap v k (x := { v.snap k with growing := false, pages := [] }) id)).before rfl

theorem inOld {s t : State} {k : Nat} {f : State → Option State} (hf : ∀ v w, f v = some w → Lasts v w) (h : s.inOld k f = some t) : Lasts s t := by
  have hswap : ∀ (v : State), Lasts v (v.setSnap k (v.snap k).swap) := fun v => setSnap _ _ fun hidle => by
    rw [Snap.swap]
    split
    · exact hidle
    · exact hidle
  simp only [State.inOld, Option.map_eq_some_iff] at h
  obtain ⟨u, hu, rfl⟩ := h
  exact ((hswap s).trans (hf _ _ hu)).trans (hswap u)

theorem pageRecord {s t : State} {k page : Nat} (h : s.pageRecord k page = some t) : Lasts s t := by
  simp only [State.pageRecord, Option.map_eq_some_iff] at h
  obtain ⟨u, hu, rfl⟩ := h
  refine (inOld (fun v w hw => ?_) hu).trans (setSnap _ _ id)
  split at hw
  · exact Option.some.inj hw ▸ refl v
  · exact folioAppend hw

theorem copyPage (s : State) (k page : Nat) : Lasts s (s.copyPage k page) := by
  have hfix := fixLines s none (4096 * page) 4096
  unfold State.copyPage
  dsimp only
  generalize s.fixLines none (4096 * page) 4096 = u at hfix ⊢
  split
  · next v hv => exact hfix.trans (pageRecord hv)
  · have hfail := hfix.trans (copyFailed u k)
    generalize u.copyFailed k = v at hfail ⊢
    refine ite ?_ hfail
    cases h : v.pageRecord k page with
    | none => exact hfail.trans (copyFailed v k)
    | some w => exact hfail.trans (pageRecord h)

theorem freePages (s : State) (pa n : Nat) : Lasts s (s.freePages pa n) :=
  foldl (fun u page => foldl (fun v k => ite (copyPage v k page) (refl v)) _ u) _ s

end Lasts

end Sys2Proof.Machine
end

section
/-! PROOFS. The abort and the commit of a snapshot on clean memory: what they leave of its record, what they send, and that no region waits for its cut any more (R327, R336). -/

namespace Sys2Proof.Machine
open Sys2Proof.Claims

/-! ### What a release leaves -/

/-- Tiles alone differ. -/
def State.sameButTiles (s t : State) : Prop := { t with tiles := s.tiles } = s

theorem State.sameButTiles.trans {s t u : State} (h : s.sameButTiles t) (g : t.sameButTiles u) : s.sameButTiles u := by
  have hu := congrArg (fun v : State => { v with tiles := s.tiles }) g
  exact hu.trans h

theorem State.sameButTiles_foldl {α : Type} {F : State → α → State} (h : ∀ (u : State) a, u.sameButTiles (F u a)) : ∀ (l : List α) (s : State), s.sameButTiles (l.foldl F s)
  | [], _ => rfl
  | a :: l, s => (h s a).trans (sameButTiles_foldl h l (F s a))

theorem State.setTileAt_tiles (s : State) (n t : Nat) (x : Tile) : s.sameButTiles (s.setTileAt n t x) := rfl

theorem State.setBufMarks_tiles (s : State) (k : Nat) (f : Nat → Nat → Nat → Bool) : s.sameButTiles (s.setBufMarks k f) := by
  rw [State.setBufMarks]
  exact State.sameButTiles_foldl (fun u _ => State.sameButTiles_foldl (fun v _ => v.setTileAt_tiles _ _ _) _ u) _ s

theorem State.unstop_tiles (s : State) (n : Nat) (l : List Nat) :
    s.sameButTiles (l.foldl (fun (u : State) t => u.setTileAt n t { u.tileAt n t with stopped := false }) s) :=
  State.sameButTiles_foldl (fun v _ => v.setTileAt_tiles _ _ _) l s

/-- The regions of a list wait for no cut any more, and of the rest only tiles and slots may differ. -/
structure CutsReleased (s t : State) (l : List Nat) : Prop where
  rest : { t with tiles := s.tiles, slots := s.slots } = s
  keeps : ∀ n, (s.slot n).cutReq = false → (t.slot n).cutReq = false
  done : ∀ n, n ∈ l → (t.slot n).cutReq = false

theorem CutsReleased.refl (s : State) : CutsReleased s s [] := ⟨rfl, fun _ => id, fun _ hn => absurd hn List.not_mem_nil⟩

theorem CutsReleased.skip {s : State} {n : Nat} (h : (s.slot n).cutReq = false) : CutsReleased s s [n] :=
  ⟨rfl, fun _ => id, fun m hm => by rwa [List.mem_singleton.mp hm]⟩

theorem CutsReleased.trans {s t u : State} {l l' : List Nat} (h : CutsReleased s t l) (g : CutsReleased t u l') : CutsReleased s u (l ++ l') where
  rest := (congrArg (fun v : State => { v with tiles := s.tiles, slots := s.slots }) g.rest).trans h.rest
  keeps := fun n hn => g.keeps n (h.keeps n hn)
  done := fun n hn => (List.mem_append.mp hn).elim (fun hn => g.keeps n (h.done n hn)) (g.done n)

/-- One slot takes a record that waits for no cut. -/
theorem CutsReleased.setSlot {s v : State} {n : Nat} {q : Slot} (h : s.sameButTiles v) (hq : q.cutReq = false) : CutsReleased s (v.setSlot n q) [n] := by
  have hslots : v.slots = s.slots := (congrArg State.slots h :)
  have hsame : ((v.setSlot n q).slot n).cutReq = false := by rw [State.setSlot_slot_same, hq]
  refine ⟨(congrArg (fun u : State => { u with slots := s.slots }) h :), fun m hm => ?_, fun m hm => by rwa [List.mem_singleton.mp hm]⟩
  by_cases hmn : m = n
  · rwa [hmn]
  · rwa [State.setSlot_slot_other v hmn, State.slot, hslots]

theorem State.woken_cutReq (s : State) (r : Slot) : (s.woken r).cutReq = r.cutReq := by
  rw [State.woken]
  split <;> rfl

theorem State.releaseCut_releases (s : State) (n : Nat) : CutsReleased s (s.releaseCut n) [n] := by
  have hall := s.unstop_tiles n (List.range (s.slot n).count)
  rw [State.releaseCut]
  dsimp only
  generalize (List.range (s.slot n).count).foldl (fun (u : State) t => u.setTileAt n t { u.tileAt n t with stopped := false }) s = v at hall ⊢
  split
  · split
    · exact CutsReleased.setSlot rfl rfl
    · refine CutsReleased.setSlot hall ?_
      exact s.woken_cutReq { s.slot n with cutReq := false, mhz := (s.slot n).mhzNext.getD (s.slot n).mhz, mhzNext := none }
  · split
    · exact CutsReleased.setSlot rfl rfl
    · exact CutsReleased.setSlot hall rfl

theorem State.releaseAll_releases (l : List Nat) (s : State) : CutsReleased s (l.foldl (fun (u : State) n => if (u.slot n).cutReq then u.releaseCut n else u) s) l := by
  induction l generalizing s with
  | nil => exact CutsReleased.refl s
  | cons n l ih =>
    have hn : CutsReleased s (if (s.slot n).cutReq then s.releaseCut n else s) [n] := by
      split
      · exact s.releaseCut_releases n
      · next h => exact CutsReleased.skip (Bool.eq_false_iff.mpr h)
    exact hn.trans (ih _)

theorem State.releaseCuts_releases (s : State) (k : Nat) : CutsReleased s (s.releaseCuts k) (s.slotsOf k) := s.releaseAll_releases _

/-! ### What the completion of a wait leaves -/

/-- Slots, outbox, snapshots and the marks of memory. -/
def State.besideWork (s : State) : Store Slot × List Out × Store Snap := (s.slots, s.outbox, s.snaps)

theorem State.ctxWrite_besideWork (s : State) (world pa : Nat) (data : List Byte) (bad : List Nat) : (s.ctxWrite world pa data bad).besideWork = s.besideWork := by
  rw [State.ctxWrite]
  refine List.foldlRecOn (motive := fun u : State => u.besideWork = s.besideWork) _ _ rfl fun u hu p _ => ?_
  split
  · exact hu
  · exact hu

theorem State.completeTile_besideWork {s : State} (hpoison : s.poison = []) (n t sw : Nat) (f : Word → Word) : (s.completeTile n t sw f).besideWork = s.besideWork := by
  rw [State.completeTile]
  dsimp only
  split
  · rfl
  · split
    · rw [State.fixLines_clean hpoison, State.ctxWrite_besideWork]
    · rfl

theorem State.completeFor_besideWork {s : State} (hpoison : s.poison = []) (who : Option (Nat × Nat × Bool)) (code : Nat) :
    (s.completeFor who code).besideWork = s.besideWork := by
  unfold State.completeFor
  split
  · rfl
  · split
    · rfl
    · split
      · rfl
      · exact State.completeTile_besideWork hpoison _ _ _ _

theorem State.postEvent_besideWork (s : State) (cause slot detail : Nat) : (s.postEvent cause slot detail).besideWork = s.besideWork := by
  rw [State.postEvent]
  split
  · rfl
  · simp only [State.raiseCC, State.besideWork]

/-! ### The abort -/

/-- What an abort leaves of a job's snapshot and its regions. -/
structure Aborted (s t : State) (k : Nat) : Prop where
  idle : (t.snap k).st = .idle
  growing : (t.snap k).growing = (s.snap k).old.isSome
  cuts : ∀ n, n ∈ s.slotsOf k → (t.slot n).cutReq = false

theorem Aborted.of_besideWork {s u t : State} {k : Nat} (h : Aborted s u k) (hsnaps : t.snaps = u.snaps) (hslots : t.slots = u.slots) : Aborted s t k := by
  have hsnap : t.snap k = u.snap k := by rw [State.snap, hsnaps, State.snap]
  refine ⟨by rw [hsnap, h.idle], by rw [hsnap, h.growing], fun n hn => ?_⟩
  rw [State.slot, hslots]
  exact h.cuts n hn

/-- The package cut of a job's snapshot has been. -/
def Snap.isPast (x : Snap) : Bool := x.st == .recording || x.st == .reported
/-- The marks of a snapshot that aborts go. -/
def State.unsnapped (s : State) (k : Nat) : State := if (s.snap k).isPast then s.setBufMarks k (fun _ _ _ => false) else s
/-- The marks and the catalogue entry of a snapshot that aborts go. -/
def State.unmarked (s : State) (k : Nat) : State := if (s.snap k).growing then (s.unsnapped k).catDrop k (s.snap k).entry else s.unsnapped k

/-- The record of a snapshot that has aborted. -/
def Snap.aborted (y : Snap) (past : Bool) : Snap :=
  let o := y.old.getD (y.entry, y.foff, y.fpos)
  { y with st := .idle, growing := y.old.isSome, entry := o.1, foff := o.2.1, fpos := o.2.2, old := none, closed := [], reports := [], cutSlots := [], who := none,
           pages := if past then [] else y.pages }

theorem State.abortLocal_eq (s : State) (k : Nat) :
    s.abortLocal k = ((({ (s.unmarked k).setSnap k (((s.unmarked k).snap k).aborted (s.snap k).isPast) with heldPages := [] } :
      State)).releaseCuts k).completeFor (s.snap k).who 6 := rfl

theorem State.unsnapped_tiles (s : State) (k : Nat) : s.sameButTiles (s.unsnapped k) := by
  rw [State.unsnapped]
  split
  · exact s.setBufMarks_tiles k _
  · rfl

theorem State.catDrop_rest (s : State) (k i : Nat) : { s.catDrop k i with mem := s.mem, poison := s.poison } = s := s.catWrite_rest k i _

theorem State.unmarked_cases (s : State) (k : Nat) : s.unmarked k = s.unsnapped k ∨ s.unmarked k = (s.unsnapped k).catDrop k (s.snap k).entry := by
  rw [State.unmarked]
  split
  · exact .inr rfl
  · exact .inl rfl

theorem State.sameButTiles.rest {s v w : State} (h : s.sameButTiles v) (hw : { w with mem := v.mem, poison := v.poison } = v) :
    { w with mem := s.mem, poison := s.poison, tiles := s.tiles } = s :=
  (congrArg (fun u : State => { u with mem := s.mem, poison := s.poison, tiles := s.tiles }) hw).trans
    (congrArg (fun u : State => { u with mem := s.mem, poison := s.poison }) h)

theorem State.unmarked_rest (s : State) (k : Nat) : { s.unmarked k with mem := s.mem, poison := s.poison, tiles := s.tiles } = s := by
  have hcases := s.unmarked_cases k
  generalize s.unmarked k = w at hcases ⊢
  refine (s.unsnapped_tiles k).rest ?_
  rcases hcases with rfl | rfl
  · rfl
  · exact State.catDrop_rest _ _ _

theorem State.unmarked_clean {s : State} (hpoison : s.poison = []) (k : Nat) : (s.unmarked k).poison = [] := by
  have hmarks : (s.unsnapped k).poison = [] := (congrArg State.poison (s.unsnapped_tiles k) :).trans hpoison
  rw [State.unmarked]
  split
  · exact State.catWrite_clean hmarks _ _ _
  · exact hmarks

theorem State.abortLocal_aborts {s : State} (hpoison : s.poison = []) (k : Nat) : Aborted s (s.abortLocal k) k ∧ (s.abortLocal k).outbox = s.outbox := by
  have hrest := s.unmarked_rest k
  have hclean := State.unmarked_clean hpoison k
  rw [State.abortLocal_eq]
  generalize s.unmarked k = v at hrest hclean ⊢
  have hsnap : v.snap k = s.snap k := by rw [State.snap, (congrArg State.snaps hrest :), State.snap]
  have hout : v.outbox = s.outbox := (congrArg State.outbox hrest :)
  have hslots : v.slots = s.slots := (congrArg State.slots hrest :)
  rw [hsnap]
  generalize (s.snap k).isPast = past
  obtain ⟨w, hw⟩ : ∃ w : State, { v.setSnap k ((s.snap k).aborted past) with heldPages := [] } = w := ⟨_, rfl⟩
  have hwsnap : w.snap k = (s.snap k).aborted past := by
    rw [← hw]
    exact v.snap_setSnap_same k _
  have hwslots : w.slots = s.slots := by rw [← hw, ← hslots]; rfl
  have hwof : w.slotsOf k = s.slotsOf k := by rw [State.slotsOf, hwslots, State.slotsOf]
  have hwout : w.outbox = s.outbox := by rw [← hw, ← hout]; rfl
  have hwpoison : w.poison = [] := by rw [← hw, ← hclean]; rfl
  rw [hw]
  obtain ⟨hrel, -, hdone⟩ := w.releaseCuts_releases k
  rw [hwof] at hdone
  generalize w.releaseCuts k = q at hrel hdone ⊢
  have hqpoison : q.poison = [] := ((congrArg State.poison hrel :) : q.poison = w.poison).trans hwpoison
  have hdoneFor := State.completeFor_besideWork hqpoison (s.snap k).who 6
  simp only [State.besideWork, Prod.mk.injEq] at hdoneFor
  obtain ⟨hfslots, hfout, hfsnaps⟩ := hdoneFor
  have hqsnap : q.snap k = (s.snap k).aborted past := by rw [State.snap, (congrArg State.snaps hrel :), ← State.snap, hwsnap]
  refine ⟨Aborted.of_besideWork (u := q) ⟨by rw [hqsnap]; rfl, by rw [hqsnap]; rfl, hdone⟩ hfsnaps hfslots, ?_⟩
  rw [hfout, (congrArg State.outbox hrel :), hwout]

/-- An abort tells the other packages, or the issuer (R336). -/
theorem State.abortSnapshot_aborts {s : State} (hpoison : s.poison = []) {k : Nat} (hidle : (s.snap k).st ≠ .idle) (hroll : (s.snap k).st ≠ .rolling) :
    let t := s.abortSnapshot k
    Aborted s t k ∧ t.outbox = s.outbox ++ (if (s.snap k).issuer = s.pkgid then s.peers k else [(s.snap k).issuer]).map (fun p => Out.abort p k (s.snap k).id) := by
  obtain ⟨haborted, hout⟩ := State.abortLocal_aborts hpoison k
  have hgo : ((s.snap k).st == .idle || (s.snap k).st == .rolling) = false := by rw [beq_eq_false_iff_ne.mpr hidle, beq_eq_false_iff_ne.mpr hroll]; rfl
  rw [State.abortSnapshot]
  simp only [hgo, Bool.false_eq_true, if_false, beq_iff_eq]
  generalize s.abortLocal k = u at haborted hout ⊢
  rw [hout]
  generalize (if (s.snap k).issuer = s.pkgid then s.peers k else [(s.snap k).issuer]).map (fun p => Out.abort p k (s.snap k).id) = os
  split
  · obtain ⟨w, hw⟩ : ∃ w : State, { u with outbox := s.outbox ++ os } = w := ⟨_, rfl⟩
    have hpost := w.postEvent_besideWork 0x12 ((w.slotsOf k).headD 0) 0
    simp only [State.besideWork, Prod.mk.injEq] at hpost
    obtain ⟨hpslots, hpout, hpsnaps⟩ := hpost
    rw [hw]
    refine ⟨haborted.of_besideWork (hpsnaps.trans (by rw [← hw])) (hpslots.trans (by rw [← hw])), ?_⟩
    rw [hpout, ← hw]
  · exact ⟨haborted.of_besideWork rfl rfl, rfl⟩

end Sys2Proof.Machine
end

section
/-! PROOFS. The events of a snapshot: SNAREA, bookmarks and markers, reports, commit, abort and timeout (R325, R327, R333, R336, R339). -/

namespace Sys2Proof.Machine
open Sys2Proof.Claims

variable {s : State} {k : Nat}

theorem State.peers_congr {u : State} (hsnap : (u.snap k).area = (s.snap k).area) (hmem : u.mem = s.mem) (hpkg : u.pkgid = s.pkgid) : u.peers k = s.peers k := by
  have harea : u.areaU k = s.areaU k := by
    funext off n
    rw [State.areaU, State.rdPhys, State.area, hsnap, hmem]
    rfl
  rw [State.peers, harea, hpkg]
  rfl

/-! ### The area register and the channels -/

theorem snareaWrite_done {v : Nat} {x : Node} (hnode : s.handleNode s.snsel = some x) (hidle : (s.snap (s.nodeJob x)).st = .idle) (hv : bits v 0 21 = 0) :
    ∃ t, exec (.snareaWrite v) s = .next t ∧ t.snap (s.nodeJob x) = { s.snap (s.nodeJob x) with area := bits v 21 31 * 2 ^ 21 } ∧
      (∀ k, k ≠ s.nodeJob x → t.snap k = s.snap k) ∧ { t with snaps := s.snaps } = s := by
  obtain ⟨y, hy⟩ : ∃ y, ({ s.snap (s.nodeJob x) with area := bits v 21 31 * 2 ^ 21 } : Snap) = y := ⟨_, rfl⟩
  have hkeep : ((s.snap (s.nodeJob x)).st != .idle || bits v 0 21 != 0) = false := by rw [hidle, hv]; rfl
  have hwrite : s.writeSnarea v = s.setSnap (s.nodeJob x) y := by
    rw [State.writeSnarea, hnode]
    dsimp only
    rw [hkeep, if_neg Bool.false_ne_true, hy]
  rw [hy]
  exact ⟨_, congrArg Host.Outcome.next hwrite, State.snap_setSnap_same .., fun j hj => State.snap_setSnap_other s hj _, rfl⟩

/-- The last channel is not closed yet: the snapshot does not report. -/
theorem State.closeChannel_waits {src : Nat} (h : (s.snap k).st = .cutting ∨ (s.snap k).st = .recording ∧ ∃ p, p ∈ s.peers k ∧ p ≠ src ∧ (s.snap k).closed.contains p = false) :
    s.closeChannel k src = s.setSnap k { s.snap k with closed := (s.snap k).closed ++ [src] } := by
  obtain ⟨u, hu⟩ : ∃ u, s.setSnap k { s.snap k with closed := (s.snap k).closed ++ [src] } = u := ⟨_, rfl⟩
  have hsnap : u.snap k = { s.snap k with closed := (s.snap k).closed ++ [src] } := hu ▸ State.snap_setSnap_same ..
  have hpeers : u.peers k = s.peers k := State.peers_congr (by rw [hsnap]) (hu ▸ rfl) (hu ▸ rfl)
  rw [State.closeChannel, hu, State.tryReport]
  refine if_neg ?_
  rw [hsnap, hpeers]
  rcases h with h | ⟨-, p, hp, hne, hopen⟩
  · rw [show ({ s.snap k with closed := (s.snap k).closed ++ [src] } : Snap).st = .cutting from h]
    exact Bool.false_ne_true
  · have hall : (s.peers k).all (fun p => ((s.snap k).closed ++ [src]).contains p) = false :=
      List.all_eq_false.mpr ⟨p, hp, by simpa [hne] using hopen⟩
    rw [hall, Bool.and_false]
    exact Bool.false_ne_true

/-! ### Bookmarks -/

/-- A bookmark whose earlier messages are performed, of a job that stands here. -/
theorem execBookmark_eq {id m : Nat} (hpoison : s.poison = []) (hjob : s.hasJob k = true) (hmsgs : s.msgsFrom k (m % 2 ^ 13) = []) :
    exec (.bookmark k id m) s = .next (match (s.snap k).st with
        | .rolling => s
        | .idle => if (s.catFind k id).isSome || (s.snap k).seen.contains id || (s.snap k).markers.contains (m % 2 ^ 13) then s
          else if s.area k = 0 || s.areaU k 0 8 != k / 64 then (s.send [.abort (m / 2 ^ 13) k id]).setSnap k { s.snap k with seen := (s.snap k).seen ++ [id] }
          else s.startCut k id (m / 2 ^ 13) none [m % 2 ^ 13]
        | _ =>
          if (s.snap k).id != id then
            ((s.send [.abort (m / 2 ^ 13) k id]).setSnap k { s.snap k with seen := (s.snap k).seeing id }).abortSnapshot k
          else if (s.snap k).closed.contains (m % 2 ^ 13) then s
          else s.closeChannel k (m % 2 ^ 13)) := by
  show execBookmark k id m s = _
  rw [execBookmark, State.fixArea_clean hpoison]
  simp only [hjob, bmSource, bmIssuer, hmsgs, Bool.not_true, Bool.false_eq_true, if_false, List.isEmpty_nil, Bool.and_false]
  rfl

theorem bookmark_starts {id m : Nat} (hpoison : s.poison = []) (hjob : s.hasJob k = true) (hmsgs : s.msgsFrom k (m % 2 ^ 13) = []) (hs : Startable s k)
    (hcat : s.catFind k id = none) (hseen : (s.snap k).seen.contains id = false) (hmark : (s.snap k).markers.contains (m % 2 ^ 13) = false) (harea : s.area k ≠ 0)
    (hid : s.areaU k 0 8 = k / 64) :
    ∃ t, exec (.bookmark k id m) s = .next t ∧ CutStarts s t k id (m / 2 ^ 13) [m % 2 ^ 13] none ∧ (t.snap k).seen.contains id = true := by
  have hexec := execBookmark_eq (id := id) hpoison hjob hmsgs
  have hstart : (s.area k = 0 || s.areaU k 0 8 != k / 64) = false := by rw [decide_eq_false harea, hid]; simp
  simp only [hs.idle, hcat, hseen, hmark, hstart, Option.isSome_none, Bool.or_false, Bool.false_eq_true, if_false] at hexec
  refine ⟨_, hexec, (State.startCut_starts hs ..).1, ?_⟩
  rw [State.startCut_seen hs, Snap.seeing, hseen, if_neg Bool.false_ne_true]
  simp

theorem bookmark_passed {id m : Nat} (hpoison : s.poison = []) (hjob : s.hasJob k = true) (hmsgs : s.msgsFrom k (m % 2 ^ 13) = []) (hidle : (s.snap k).st = .idle)
    (h : s.catFind k id ≠ none ∨ (s.snap k).seen.contains id = true ∨ (s.snap k).markers.contains (m % 2 ^ 13) = true) : exec (.bookmark k id m) s = .next s := by
  have hexec := execBookmark_eq (id := id) hpoison hjob hmsgs
  have hknown : ((s.catFind k id).isSome || (s.snap k).seen.contains id || (s.snap k).markers.contains (m % 2 ^ 13)) = true := by
    rcases h with h | h | h
    · rw [Option.isSome_iff_ne_none.mpr h]; rfl
    · rw [h, Bool.or_true, Bool.true_or]
    · rw [h, Bool.or_true]
  simp only [hidle, hknown, if_true] at hexec
  exact hexec

theorem bookmark_closes {id m : Nat} (hpoison : s.poison = []) (hjob : s.hasJob k = true) (hmsgs : s.msgsFrom k (m % 2 ^ 13) = [])
    (h : (s.snap k).st = .cutting ∨ (s.snap k).st = .recording ∧ ∃ p, p ∈ s.peers k ∧ p ≠ m % 2 ^ 13 ∧ (s.snap k).closed.contains p = false)
    (hid : (s.snap k).id = id) (hclosed : (s.snap k).closed.contains (m % 2 ^ 13) = false) :
    ∃ t, exec (.bookmark k id m) s = .next t ∧ t.snap k = { s.snap k with closed := (s.snap k).closed ++ [m % 2 ^ 13] } ∧ { t with snaps := s.snaps } = s := by
  have hexec := execBookmark_eq (id := id) hpoison hjob hmsgs
  have hst : (s.snap k).st = .cutting ∨ (s.snap k).st = .recording := h.imp_right And.left
  refine ⟨_, hexec.trans (congrArg Host.Outcome.next ?_), State.snap_setSnap_same s k { s.snap k with closed := (s.snap k).closed ++ [m % 2 ^ 13] }, rfl⟩
  rw [← State.closeChannel_waits h]
  rcases hst with hst | hst
  · simp only [hst, hid, hclosed, bne_self_eq_false, Bool.false_eq_true, if_false]
  · simp only [hst, hid, hclosed, bne_self_eq_false, Bool.false_eq_true, if_false]

theorem bookmark_collides {id m : Nat} (hpoison : s.poison = []) (hjob : s.hasJob k = true) (hmsgs : s.msgsFrom k (m % 2 ^ 13) = [])
    (hst : (s.snap k).st = .cutting ∨ (s.snap k).st = .recording ∨ (s.snap k).st = .reported) (hid : (s.snap k).id ≠ id) :
    ∃ t, exec (.bookmark k id m) s = .next t ∧ (t.snap k).st = .idle ∧
      t.outbox = s.outbox ++ [.abort (m / 2 ^ 13) k id] ++ (if (s.snap k).issuer = s.pkgid then s.peers k else [(s.snap k).issuer]).map (fun p => Out.abort p k (s.snap k).id) ∧
      ∀ n, n ∈ s.slotsOf k → (t.slot n).cutReq = false := by
  have hexec := execBookmark_eq (id := id) hpoison hjob hmsgs
  obtain ⟨u, hu⟩ : ∃ u, (s.send [.abort (m / 2 ^ 13) k id]).setSnap k { s.snap k with seen := (s.snap k).seeing id } = u := ⟨_, rfl⟩
  have hsnap : u.snap k = { s.snap k with seen := (s.snap k).seeing id } := hu ▸ State.snap_setSnap_same ..
  have hpeers : u.peers k = s.peers k := State.peers_congr (by rw [hsnap]) (hu ▸ rfl) (hu ▸ rfl)
  have hslots : u.slotsOf k = s.slotsOf k := hu ▸ rfl
  have hout : u.outbox = s.outbox ++ [.abort (m / 2 ^ 13) k id] := hu ▸ rfl
  have hpkg : u.pkgid = s.pkgid := hu ▸ rfl
  have hust : (u.snap k).st = (s.snap k).st := by rw [hsnap]
  obtain ⟨habort, houtbox⟩ := State.abortSnapshot_aborts (s := u) (k := k) (hu ▸ hpoison) (by rw [hust]; rcases hst with h | h | h <;> simp [h])
    (by rw [hust]; rcases hst with h | h | h <;> simp [h])
  have hne : ((s.snap k).id != id) = true := bne_iff_ne.mpr hid
  refine ⟨u.abortSnapshot k, hexec.trans (congrArg Host.Outcome.next ?_), habort.idle, ?_, hslots ▸ habort.cuts⟩
  · rw [hu]
    rcases hst with h | h | h
    · simp only [h, hne, if_true]
    · simp only [h, hne, if_true]
    · simp only [h, hne, if_true]
  · rw [houtbox, hout, hpeers, hpkg, hsnap]

/-! ### Markers of a rollback -/

theorem rollbackMarker_starts {id src : Nat} (hjob : s.hasJob k = true) (hmsgs : s.msgsFrom k src = []) (hmark : (s.snap k).markers.contains src = false)
    (hidle : (s.snap k).st = .idle) (hbox : ∀ e, e ∈ s.inbox → e.2.job ≠ k) (hrun : someRuns s k) :
    ∃ t, exec (.rollbackMarker k id src) s = .next t ∧ RollStarts s t k id ((s.peers k).filter (fun p => p != src)) none := by
  refine ⟨_, ?_, (State.rollStart_rolls hidle hbox hrun id none _).1⟩
  show execRollbackMarker k id src s = _
  rw [execRollbackMarker]
  simp only [hjob, hmsgs, hmark, hidle, List.foldl_nil, Bool.not_true, Bool.false_eq_true, if_false, List.isEmpty_nil]
  rfl

theorem rollbackMarker_closes {id src : Nat} (hjob : s.hasJob k = true) (hmsgs : s.msgsFrom k src = []) (hmark : (s.snap k).markers.contains src = true) :
    ∃ t, exec (.rollbackMarker k id src) s = .next t ∧ t.snap k = { s.snap k with markers := (s.snap k).markers.filter (fun p => p != src) } ∧
      { t with snaps := s.snaps } = s := by
  refine ⟨_, ?_, State.snap_setSnap_same s k { s.snap k with markers := (s.snap k).markers.filter (fun p => p != src) }, rfl⟩
  show execRollbackMarker k id src s = _
  rw [execRollbackMarker]
  simp only [hjob, hmsgs, hmark, List.foldl_nil, Bool.not_true, Bool.false_eq_true, if_false, List.isEmpty_nil, if_true]

/-! ### Reports and the commit -/

/-- The entry of a snapshot that commits is COMMITTED; a seventeenth drops the one of lowest SEQ (R337). -/
def State.commitEntry (s : State) (k : Nat) : State :=
  s.catWrite k (s.snap k).entry [2 ^ 63 + 2 ^ 60 + s.cat k (s.snap k).entry 0 % 2 ^ 32, s.cat k (s.snap k).entry 1, s.cat k (s.snap k).entry 2, s.cat k (s.snap k).entry 3,
    s.cat k (s.snap k).entry 4, s.cat k (s.snap k).entry 5]
def State.dropSeventeenth (s : State) (k : Nat) : State :=
  if 16 < (s.committed k).length then (match s.oldest k with
    | some i => s.dropFolio k i
    | none => s) else s
/-- The record of a snapshot that has committed. -/
def Snap.committed (y : Snap) (id : Nat) : Snap := { y with st := .idle, closed := [], reports := [], cutSlots := [], who := none, seen := y.seen.filter (fun i => i != id) }
/-- The page of a status word that stands in a context area is copied before the word is written. -/
def State.freeWaiting (s : State) : Option (Nat × Nat × Bool) → State
  | some (a, sw, _) =>
    let r := s.slot ((a - 1024) / 2048)
    if 1024 ≤ a && r.st == RSt.stowed && r.evicted then s.freePages (r.ctxBase + (a - 1024) % 2048 * blockBytesCtx + Config.stowBase + 0x8300 + 8 * sw) 8 else s
  | none => s

theorem State.commitLocal_eq (s : State) (k : Nat) : s.commitLocal k =
    ((((s.commitEntry k).dropSeventeenth k).setSnap k (((s.commitEntry k).dropSeventeenth k).snap k |>.committed (s.snap k).id)).freeWaiting (s.snap k).who).completeFor
      (s.snap k).who 0 := by
  rw [State.commitLocal]
  cases (s.snap k).who with
  | none => rfl
  | some w => rfl

theorem State.dropSeventeenth_lasts (s : State) (k : Nat) : Lasts s (s.dropSeventeenth k) := by
  rw [State.dropSeventeenth]
  split
  · split
    · exact Lasts.dropFolio _ _ _
    · exact Lasts.refl s
  · exact Lasts.refl s

theorem State.freeWaiting_lasts (s : State) (who : Option (Nat × Nat × Bool)) : Lasts s (s.freeWaiting who) := by
  cases who with
  | none => exact Lasts.refl s
  | some w => exact Lasts.ite (Lasts.freePages _ _ _) (Lasts.refl s)

theorem State.commitLocal_idle (s : State) (k : Nat) : ((s.commitLocal k).snap k).st = .idle ∧ Lasts s (s.commitLocal k) := by
  have hcommit : Lasts s ((s.commitEntry k).dropSeventeenth k) := (Lasts.catWrite s _ _ _).trans (State.dropSeventeenth_lasts _ _)
  rw [State.commitLocal_eq]
  generalize (s.commitEntry k).dropSeventeenth k = u at hcommit ⊢
  obtain ⟨v, hv⟩ : ∃ v, u.setSnap k ((u.snap k).committed (s.snap k).id) = v := ⟨_, rfl⟩
  have hidle : (v.snap k).st = .idle := by rw [← hv, State.snap_setSnap_same]; rfl
  have hlasts : Lasts v ((v.freeWaiting (s.snap k).who).completeFor (s.snap k).who 0) := (v.freeWaiting_lasts _).trans (Lasts.completeFor _ _ _)
  have hset : Lasts u v := hv ▸ Lasts.setSnap u k fun _ => rfl
  rw [hv]
  exact ⟨hlasts.idle k hidle, (hcommit.trans hset).trans hlasts⟩

theorem execCutReport_eq {id src : Nat} (hroll : (s.snap k).rollWho = none) (hissuer : (s.snap k).issuer = s.pkgid) (hid : (s.snap k).id = id)
    (hrolling : (s.snap k).st ≠ .rolling) (hidle : (s.snap k).st ≠ .idle) (hnew : (s.snap k).reports.contains src = false) :
    exec (.cutReport k id src) s = .next ((s.setSnap k { s.snap k with reports := (s.snap k).reports ++ [src] }).tryCommit k) := by
  show execCutReport k id src s = _
  rw [execCutReport]
  simp only [hroll, hissuer, hid, hnew, beq_eq_false_iff_ne.mpr hrolling, beq_eq_false_iff_ne.mpr hidle, Option.isSome_none, Bool.false_and, bne_self_eq_false,
    Bool.or_false, Bool.false_eq_true, if_false]

theorem cutReport_waits {id src : Nat} (hroll : (s.snap k).rollWho = none) (hissuer : (s.snap k).issuer = s.pkgid) (hid : (s.snap k).id = id)
    (hrolling : (s.snap k).st ≠ .rolling) (hidle : (s.snap k).st ≠ .idle) (hnew : (s.snap k).reports.contains src = false)
    (h : (s.snap k).st ≠ .reported ∨ ∃ p, p ∈ s.pkgid :: s.peers k ∧ p ≠ src ∧ (s.snap k).reports.contains p = false) :
    ∃ t, exec (.cutReport k id src) s = .next t ∧ t.snap k = { s.snap k with reports := (s.snap k).reports ++ [src] } ∧ { t with snaps := s.snaps } = s := by
  have hexec := execCutReport_eq hroll hissuer hid hrolling hidle hnew
  obtain ⟨u, hu⟩ : ∃ u, s.setSnap k { s.snap k with reports := (s.snap k).reports ++ [src] } = u := ⟨_, rfl⟩
  have hsnap : u.snap k = { s.snap k with reports := (s.snap k).reports ++ [src] } := hu ▸ State.snap_setSnap_same ..
  have hpeers : u.peers k = s.peers k := State.peers_congr (by rw [hsnap]) (hu ▸ rfl) (hu ▸ rfl)
  have hpkg : u.pkgid = s.pkgid := hu ▸ rfl
  refine ⟨u, hexec.trans (congrArg Host.Outcome.next ?_), hsnap, hu ▸ rfl⟩
  rw [hu, State.tryCommit]
  refine if_neg ?_
  rw [hpkg, hpeers, hsnap]
  rcases h with h | ⟨p, hp, hne, hopen⟩
  · simp [h]
  · have hall : (s.pkgid :: s.peers k).all (fun p => ((s.snap k).reports ++ [src]).contains p) = false :=
      List.all_eq_false.mpr ⟨p, hp, by simpa [hne] using hopen⟩
    rw [hall, Bool.and_false]
    exact Bool.false_ne_true

theorem cutReport_commits {id src : Nat} (hroll : (s.snap k).rollWho = none) (hissuer : (s.snap k).issuer = s.pkgid) (hid : (s.snap k).id = id)
    (hnew : (s.snap k).reports.contains src = false) (hst : (s.snap k).st = .reported)
    (h : ∀ p, p ∈ s.pkgid :: s.peers k → p = src ∨ (s.snap k).reports.contains p = true) :
    ∃ t o, exec (.cutReport k id src) s = .next t ∧ (t.snap k).st = .idle ∧ t.outbox = o ∧ ∀ p, p ∈ s.peers k → Out.commit p k id ∈ o := by
  have hexec := execCutReport_eq hroll hissuer hid (by rw [hst]; decide) (by rw [hst]; decide) hnew
  obtain ⟨u, hu⟩ : ∃ u, s.setSnap k { s.snap k with reports := (s.snap k).reports ++ [src] } = u := ⟨_, rfl⟩
  have hsnap : u.snap k = { s.snap k with reports := (s.snap k).reports ++ [src] } := hu ▸ State.snap_setSnap_same ..
  have hpeers : u.peers k = s.peers k := State.peers_congr (by rw [hsnap]) (hu ▸ rfl) (hu ▸ rfl)
  have hpkg : u.pkgid = s.pkgid := hu ▸ rfl
  have hall : (s.pkgid :: s.peers k).all (fun p => ((s.snap k).reports ++ [src]).contains p) = true := by
    refine List.all_eq_true.mpr fun p hp => ?_
    rcases h p hp with rfl | h
    · simp
    · rw [List.contains_iff_mem] at h ⊢
      exact List.mem_append_left _ h
  have hcommit : u.tryCommit k = (u.send ((s.peers k).map (fun p => Out.commit p k id))).commitLocal k := by
    rw [State.tryCommit, hpkg, hpeers, hsnap]
    dsimp only
    rw [if_pos (by rw [hissuer, hst, hall]; simp), hid]
  obtain ⟨hidle, hlasts⟩ := (u.send ((s.peers k).map (fun p => Out.commit p k id))).commitLocal_idle k
  rw [hu, hcommit] at hexec
  refine ⟨_, _, hexec, hidle, rfl, fun p hp => hlasts.outbox _ ?_⟩
  exact List.mem_append_right _ (List.mem_map.mpr ⟨p, hp, rfl⟩)

/-- The first word of the entries after a write of one. -/
theorem State.catWrite_cat {i : Nat} {w : Nat} {ws : List Nat} (hlen : ws.length = 5) (howned : s.ownedPage (k % 64) (s.area k + (0x100 + 64 * i)) = true)
    (hpage : s.area k % 4096 = 0) (hi : i < 17) (j : Nat) : (s.catWrite k i (w :: ws)).cat k j 0 = if j = i then w % 2 ^ 64 else s.cat k j 0 := by
  have hbytes : ((w :: ws).flatMap b8).length = 48 := by rw [length_catWords, List.length_cons, hlen]
  have hwrite : s.catWrite k i (w :: ws) = s.wrPhys (s.area k + (0x100 + 64 * i)) ((w :: ws).flatMap b8) [] := by
    rw [State.catWrite, State.areaWrite]
    simp only [hbytes, pieces_page (show 0 < 48 by decide) (show (s.area k + (0x100 + 64 * i)) % 4096 + 48 ≤ 4096 by omega), List.all_cons, howned, List.all_nil,
      Bool.and_true, if_true, Option.getD_some]
  have hget := s.wrPhys_wrote (s.area k + (0x100 + 64 * i)) ((w :: ws).flatMap b8) []
  have harea : (s.wrPhys (s.area k + (0x100 + 64 * i)) ((w :: ws).flatMap b8) []).area k = s.area k := rfl
  rw [hwrite, State.cat, State.areaU, harea, State.rdPhys]
  generalize (s.wrPhys (s.area k + (0x100 + 64 * i)) ((w :: ws).flatMap b8) []).mem = m at hget ⊢
  split
  · next hj =>
    subst hj
    have hread : Store.getN 0 m (s.area k + (0x100 + 64 * j)) (b8 w).length = b8 w := Store.getN_of_get fun a ha => by
      rw [b8, length_leBytes] at ha
      rw [hget, if_pos ⟨by omega, by omega⟩, Nat.add_sub_cancel_left, List.flatMap_cons, List.getD_append _ _ _ _ (by rw [b8, length_leBytes]; exact ha)]
    rw [b8, length_leBytes] at hread
    rw [show s.area k + (0x100 + 64 * j + 8 * 0) = s.area k + (0x100 + 64 * j) by omega, hread]
    exact leNat_leBytes 8 w
  · next hj =>
    rw [State.cat, State.areaU, State.rdPhys]
    refine congrArg leNat (Store.getN_congr fun a ha => ?_)
    rw [hget, if_neg (by omega)]

/-- Where at most sixteen others stand, the entry that commits is COMMITTED and none is dropped. -/
theorem State.commitEntry_fits (howned : s.ownedPage (k % 64) (s.area k + (0x100 + 64 * (s.snap k).entry)) = true) (hpage : s.area k % 4096 = 0)
    (he : (s.snap k).entry < 17) (hfew : (s.committed k).length < 16) :
    (s.commitEntry k).catCommitted k (s.snap k).entry = true ∧ (s.commitEntry k).dropSeventeenth k = s.commitEntry k := by
  have hcat (j : Nat) := State.catWrite_cat (w := 2 ^ 63 + 2 ^ 60 + s.cat k (s.snap k).entry 0 % 2 ^ 32)
    (ws := [s.cat k (s.snap k).entry 1, s.cat k (s.snap k).entry 2, s.cat k (s.snap k).entry 3, s.cat k (s.snap k).entry 4, s.cat k (s.snap k).entry 5]) rfl howned hpage he j
  change ∀ j, (s.commitEntry k).cat k j 0 = _ at hcat
  generalize s.commitEntry k = u at hcat ⊢
  have hother (j : Nat) (hj : j ≠ (s.snap k).entry) : u.catCommitted k j = s.catCommitted k j := by
    simp only [State.catCommitted, State.catValid, hcat, if_neg hj]
  refine ⟨?_, ?_⟩
  · have hlt := Nat.mod_lt (s.cat k (s.snap k).entry 0) (show 0 < 2 ^ 32 by decide)
    simp only [State.catCommitted, State.catValid, hcat, if_true, bits]
    generalize s.cat k (s.snap k).entry 0 % 2 ^ 32 = r at hlt
    simp only [Bool.and_eq_true, beq_iff_eq]
    omega
  · have hcount : (u.committed k).length ≤ 16 := by
      have hsub : u.committed k ⊆ (s.snap k).entry :: s.committed k := fun j hj => by
        by_cases hje : j = (s.snap k).entry
        · exact hje ▸ List.mem_cons_self
        · simp only [State.committed, List.mem_filter] at hj ⊢
          exact List.mem_cons_of_mem _ (List.mem_filter.mpr ⟨hj.1, hother j hje ▸ hj.2⟩)
      have hnodup : (u.committed k).Nodup := List.nodup_range.filter _
      have hle := (List.subperm_of_subset hnodup hsub).length_le
      rw [List.length_cons] at hle
      omega
    rw [State.dropSeventeenth, if_neg (by omega)]

/-- The status word of a core that waits for a snapshot. -/
theorem State.completeFor_small {a sw : Nat} (ha : a < 16) (ph : Bool) (code : Nat) : s.completeFor (some (a, sw, ph)) code =
    s.setCore a { s.core a with sw := Store.put 0 sw (endWord (Store.get 0 sw (s.core a).sw) ph code) (s.core a).sw } := by
  rw [State.completeFor]
  exact if_pos ha

theorem State.completeFor_core {a sw : Nat} (ha : a < 16) (ph : Bool) : Store.get 0 sw ((s.completeFor (some (a, sw, ph)) 0).core a).sw =
    swPerform (Store.get 0 sw (s.core a).sw) ph 1 := by
  rw [State.completeFor_small ha, State.core_setCore_same, Store.get_put_same, endWord, if_pos rfl]

theorem State.unmark_cores (v : State) (k : Nat) (c : Prop) [Decidable c] :
    (if c then v.setSnap k { v.snap k with old := none, pages := [] } else v).cores = v.cores := by
  split
  · rfl
  · rfl

theorem State.dropFolio_cores (s : State) (k i : Nat) : (s.dropFolio k i).cores = ((s.catDrop k i).postEvent 0x12 ((s.slotsOf k).headD 0) 0).cores := by
  rw [State.dropFolio]
  exact State.unmark_cores _ _ _

theorem State.postEvent_sw (s : State) (cause slot detail a : Nat) : ((s.postEvent cause slot detail).core a).sw = (s.core a).sw := by
  rw [State.postEvent]
  split
  · rfl
  · obtain ⟨p, hp⟩ := ({ s with evq := s.evq ++ [({ cause := cause, slot := slot, detail := detail } : Event)] } : State).raiseCC_core ipEvent a
    rw [hp]
    rfl

theorem State.cores_of_rest {u : State} (h : { u with mem := s.mem, poison := s.poison } = s) : u.cores = s.cores := (congrArg State.cores h :)

theorem State.setCore_area (v : State) (a : Nat) (c : CCore) (k : Nat) : (v.setCore a c).mem = v.mem ∧ (v.setCore a c).area k = v.area k := ⟨rfl, rfl⟩

theorem State.setSnap_core (u : State) (k : Nat) (x : Snap) (a : Nat) : (u.setSnap k x).core a = u.core a := rfl

theorem State.commitEntry_core (s : State) (k a : Nat) : (s.commitEntry k).core a = s.core a := by
  rw [State.commitEntry, State.core, State.cores_of_rest (s.catWrite_rest k _ _), State.core]

/-- Status words of the cores stand where a folio is dropped. -/
theorem State.dropFolio_sw (s : State) (k i a : Nat) : ((s.dropFolio k i).core a).sw = (s.core a).sw := by
  have hcores : (s.catDrop k i).cores = s.cores := State.cores_of_rest (s.catDrop_rest k i)
  rw [State.core, State.dropFolio_cores, ← State.core, State.postEvent_sw, State.core, hcores, State.core]

theorem State.dropSeventeenth_sw (s : State) (k a : Nat) : ((s.dropSeventeenth k).core a).sw = (s.core a).sw := by
  rw [State.dropSeventeenth]
  split
  · split
    · exact State.dropFolio_sw _ _ _ _
    · rfl
  · rfl

theorem execCommit_runs {id : Nat} (hst : (s.snap k).st = .reported) (hid : (s.snap k).id = id) : exec (.commit k id) s = .next (s.commitLocal k) := by
  show execCommit k id s = _
  have hgo : ((s.snap k).st == .reported && (s.snap k).id == id) = true := by rw [hst, hid, beq_self_eq_true, beq_self_eq_true]; rfl
  rw [execCommit, if_pos hgo]

theorem State.freeWaiting_small {a : Nat} (ha : a < 16) (sw : Nat) (ph : Bool) : s.freeWaiting (some (a, sw, ph)) = s := by
  rw [State.freeWaiting]
  exact if_neg (by rw [decide_eq_false (show ¬ 1024 ≤ a by omega)]; exact Bool.false_ne_true)

/-- The commit of a snapshot that a core waits for, once its entry is written. -/
def State.commitFor (u : State) (k id a sw : Nat) (ph : Bool) : State := (u.setSnap k ((u.snap k).committed id)).completeFor (some (a, sw, ph)) 0

theorem State.commitLocal_small {a sw : Nat} {ph : Bool} (ha : a < 16) (hwho : (s.snap k).who = some (a, sw, ph)) :
    s.commitLocal k = ((s.commitEntry k).dropSeventeenth k).commitFor k (s.snap k).id a sw ph := by
  rw [State.commitLocal_eq, hwho, State.freeWaiting_small ha, State.commitFor]

theorem State.commitFor_sw (u : State) {k id a sw : Nat} (ha : a < 16) (ph : Bool) :
    Store.get 0 sw ((u.commitFor k id a sw ph).core a).sw = swPerform (Store.get 0 sw (u.core a).sw) ph 1 := by
  rw [State.commitFor, State.completeFor_core ha, State.setSnap_core]

theorem State.commitFor_cat (u : State) {k id a sw : Nat} (ha : a < 16) (ph : Bool) (i : Nat) : (u.commitFor k id a sw ph).catCommitted k i = u.catCommitted k i := by
  obtain ⟨v, hv⟩ : ∃ v, u.setSnap k ((u.snap k).committed id) = v := ⟨_, rfl⟩
  have hvmem : v.mem = u.mem := by rw [← hv]; rfl
  have hvarea : v.area k = u.area k := by rw [State.area, ← hv, State.snap_setSnap_same]; rfl
  obtain ⟨hmem, harea⟩ := v.setCore_area a { v.core a with sw := Store.put 0 sw (endWord (Store.get 0 sw (v.core a).sw) ph 0) (v.core a).sw } k
  rw [State.commitFor, hv, State.completeFor_small ha]
  generalize v.setCore a { v.core a with sw := Store.put 0 sw (endWord (Store.get 0 sw (v.core a).sw) ph 0) (v.core a).sw } = t at hmem harea ⊢
  have hword : t.cat k i 0 = u.cat k i 0 := by
    rw [State.cat, State.areaU, State.rdPhys, hmem, harea, hvmem, hvarea, State.cat, State.areaU, State.rdPhys]
  rw [State.catCommitted, State.catValid, hword, State.catCommitted, State.catValid]

theorem commit_done {id a sw : Nat} {ph : Bool} (hst : (s.snap k).st = .reported) (hid : (s.snap k).id = id) (hwho : (s.snap k).who = some (a, sw, ph)) (ha : a < 16) :
    ∃ t, exec (.commit k id) s = .next t ∧ (t.snap k).st = .idle ∧ Store.get 0 sw (t.core a).sw = swPerform (Store.get 0 sw (s.core a).sw) ph 1 ∧
      ((s.snap k).entry < 17 → s.ownedPage (k % 64) ((s.snap k).area + (0x100 + 64 * (s.snap k).entry)) = true → (s.snap k).area % 4096 = 0 → (s.committed k).length < 16 →
        t.catCommitted k (s.snap k).entry = true) := by
  refine ⟨_, execCommit_runs hst hid, (s.commitLocal_idle k).1, ?_, fun he howned hpage hfew => ?_⟩
  · rw [State.commitLocal_small ha hwho, State.commitFor_sw _ ha, State.dropSeventeenth_sw, State.commitEntry_core]
  · obtain ⟨hcat, hdrop⟩ := State.commitEntry_fits howned hpage he hfew
    rw [State.commitLocal_small ha hwho, State.commitFor_cat _ ha, hdrop, hcat]

/-! ### Abort and timeout -/

theorem snapshotEnds_done {id : Nat} {i : Instr} (hpoison : s.poison = []) (hid : (s.snap k).id = id)
    (h : i = .snapshotAbort k id ∧ (s.snap k).st ≠ .idle ∧ (s.snap k).st ≠ .rolling ∨
      i = .snapshotTimeout k id ∧ ((s.snap k).st = .cutting ∨ (s.snap k).st = .recording ∨ (s.snap k).st = .reported ∧ (s.snap k).issuer = s.pkgid) ∧
        (s.snap k).started + s.jobTimeout k ≤ s.tb) :
    ∃ t, exec i s = .next t ∧ (t.snap k).st = .idle ∧ (t.snap k).growing = (s.snap k).old.isSome ∧
      t.outbox = s.outbox ++ (if (s.snap k).issuer = s.pkgid then s.peers k else [(s.snap k).issuer]).map (fun p => Out.abort p k id) ∧
      ∀ n, n ∈ s.slotsOf k → (t.slot n).cutReq = false := by
  have hruns : exec i s = .next (s.abortSnapshot k) ∧ (s.snap k).st ≠ .idle ∧ (s.snap k).st ≠ .rolling := by
    rcases h with ⟨rfl, hidle, hroll⟩ | ⟨rfl, hst, hdue⟩
    · refine ⟨?_, hidle, hroll⟩
      show execSnapshotAbort k id s = _
      rw [execSnapshotAbort]
      simp only [hid, beq_eq_false_iff_ne.mpr hidle, beq_eq_false_iff_ne.mpr hroll, bne_self_eq_false, Bool.or_false, Bool.false_eq_true, if_false]
    · have hgo : ((s.snap k).st == .cutting || (s.snap k).st == .recording || ((s.snap k).st == .reported && (s.snap k).issuer == s.pkgid)) = true := by
        rcases hst with h | h | ⟨h, hissuer⟩
        · simp [h]
        · simp [h]
        · simp [h, hissuer]
      refine ⟨?_, by rcases hst with h | h | ⟨h, -⟩ <;> simp [h], by rcases hst with h | h | ⟨h, -⟩ <;> simp [h]⟩
      show execSnapshotTimeout k id s = _
      rw [execSnapshotTimeout]
      simp only [hid, hgo, decide_eq_true hdue, beq_self_eq_true, Bool.and_true, if_true]
  obtain ⟨hexec, hidle, hroll⟩ := hruns
  obtain ⟨habort, hout⟩ := State.abortSnapshot_aborts hpoison hidle hroll
  exact ⟨_, hexec, habort.idle, habort.growing, hid ▸ hout, habort.cuts⟩

/-- No write waits for the page. -/
theorem pageCopy_none {page : Nat} (h : s.heldPages.contains page = false) : exec (.pageCopy page) s = .next s := by
  show execPageCopy page s = _
  rw [execPageCopy, h]
  rfl

theorem bookmark_unknown {id m : Nat} (h : s.hasJob k = false) : exec (.bookmark k id m) s = .next { s with sndrop := min (2 ^ 32 - 1) (s.sndrop + 1) } := by
  show execBookmark k id m s = _
  rw [execBookmark, h]
  rfl

end Sys2Proof.Machine
end

section
/-! PROOFS. The messages of other packages (R241, R331, R332, R378): what becomes of one that arrives, and what an armed one performs. -/

namespace Sys2Proof.Machine
open Sys2Proof.Claims

variable {s : State} {k : Nat} {m : Msg}

/-! ### The messages in hand -/

theorem Store.find_ins {α : Type} (k : Nat) (v : α) (l : Store α) : (Store.ins k v l).find? (fun e => e.1 == k) = some (k, v) := by
  induction l with
  | nil => simp [Store.ins]
  | cons e l ih =>
    obtain ⟨j, u⟩ := e
    rw [Store.ins]
    split
    · simp
    · split
      · simp
      · next hj => rw [List.find?_cons_of_neg (by simpa using hj), ih]

theorem State.msgOfId_ins {u : State} {l : Store Msg} (h : u.inbox = Store.ins k m l) : u.msgOfId k = some m := by
  rw [State.msgOfId, h, Store.find_ins]
  rfl

theorem State.msgOfId_dropMsg (s : State) (k : Nat) : (s.dropMsg k).msgOfId k = none := by
  have hnone : (s.inbox.filter (fun e => e.1 != k)).find? (fun e => e.1 == k) = none := by
    rw [List.find?_eq_none]
    intro e he
    simpa using (List.mem_filter.mp he).2
  rw [State.msgOfId, State.dropMsg, hnone]
  rfl

/-! ### The arrival of a message (R332) -/

/-- The first step of a message, by either event. -/
theorem exec_takesMsg {i : Instr} (hmsg : s.msgOfId k = some m) (hfirst : s.firstMsg k m = true) (hi : i = .jobMessageArrival k ∨ i = .xpostArrival k ∧ m.kind = 0)
    (harmed : m.armed = false) : exec i s = .next (s.takeMsg k m) := by
  rcases hi with rfl | ⟨rfl, hkind⟩
  · show execJobMessageArrival k s = _
    simp only [execJobMessageArrival, hmsg, hfirst, harmed, Bool.not_true, Bool.false_eq_true, if_false]
  · show execXpostArrival k s = _
    simp only [execXpostArrival, hmsg, hfirst, harmed, hkind, Bool.not_true, bne_self_eq_false, Bool.or_false, Bool.false_eq_true, if_false]

/-- The snapshot of its job lets a message of its channel pass. -/
def Snap.passes (z : Snap) (src : Nat) : Prop := z.st = .idle ∨ z.st = .cutting ∨ (z.st = .recording ∨ z.st = .reported) ∧ z.closed.contains src = true

variable {z : Snap} {src : Nat}

theorem Snap.fate_discard (h : z.st = .idle ∧ z.markers.contains src = true ∨ z.st = .rolling ∧ z.markers.contains src = true) : z.fate src = .discard := by
  rcases h with ⟨h, hm⟩ | ⟨h, hm⟩
  · rw [Snap.fate, h, hm]; rfl
  · rw [Snap.fate, h, hm]; rfl

theorem Snap.fate_hold (h : z.st = .cutting ∧ z.closed.contains src = true ∨ z.st = .rolling ∧ z.markers.contains src = false) : z.fate src = .hold := by
  rcases h with ⟨h, hc⟩ | ⟨h, hc⟩
  · rw [Snap.fate, h, hc]; rfl
  · rw [Snap.fate, h, hc]; rfl

theorem Snap.fate_perform (h : z.passes src) (hmark : z.markers.contains src = false) (hcut : ¬ (z.st = .cutting ∧ z.closed.contains src = true)) : z.fate src = .perform := by
  rcases h with h | h | ⟨h | h, hc⟩
  · rw [Snap.fate, h, hmark]; rfl
  · have hopen : z.closed.contains src = false := by
      cases hc : z.closed.contains src with
      | false => rfl
      | true => exact absurd ⟨h, hc⟩ hcut
    rw [Snap.fate, h, hopen]; rfl
  · rw [Snap.fate, h, hc]; rfl
  · rw [Snap.fate, h, hc]; rfl

theorem Snap.fate_note (h : z.st = .recording ∨ z.st = .reported) (hc : z.closed.contains src = false) : z.fate src = .note := by
  rcases h with h | h
  · rw [Snap.fate, h, hc]; rfl
  · rw [Snap.fate, h, hc]; rfl

theorem State.takeMsg_discard (h : (s.snap m.job).fate m.src = .discard) : s.takeMsg k m = s.dropMsg k := by
  simp only [State.takeMsg, h]

theorem State.takeMsg_hold (h : (s.snap m.job).fate m.src = .hold) : s.takeMsg k m = s := by
  simp only [State.takeMsg, h]

theorem State.takeMsg_perform (h : (s.snap m.job).fate m.src = .perform) : s.takeMsg k m = s.armMsg k m := by
  unfold State.takeMsg
  dsimp only
  generalize (s.snap m.job).fate m.src = f at h ⊢
  subst h
  generalize s.armMsg k m = v
  rfl

theorem State.takeMsg_note {u : State} (h : (s.snap m.job).fate m.src = .note) (hu : s.noteMsg m.job m = some u) : s.takeMsg k m = u.armMsg k m := by
  unfold State.takeMsg
  dsimp only
  generalize (s.snap m.job).fate m.src = f at h ⊢
  subst h
  generalize s.noteMsg m.job m = o at hu ⊢
  subst hu
  dsimp only

theorem State.snap_inbox (v : State) (l : Store Msg) (j : Nat) : ({ v with inbox := l } : State).snap j = v.snap j := rfl

theorem State.armMsg_plain (s : State) (k : Nat) (hcw : m.cw = none) : s.armMsg k m = { s with inbox := Store.ins k { m with armed := true } s.inbox } := by
  rw [State.armMsg, hcw]

/-- A message with a completion word arms it as it arrives. -/
theorem State.armMsg_word {cw : Nat} {w : Word} (hclean : clean s) (hcw : m.cw = some cw) (howns : s.ownsAll m.world cw 8 = true)
    (harm : swArm (BitVec.ofNat 64 (word s.mem cw 8)) (m.size + m.outside) = some w) :
    let ph := phaseOf (BitVec.ofNat 64 (word s.mem cw 8))
    wrote s.mem (s.armMsg k m).mem cw (leBytes 8 (swPerform w ph m.outside).toNat) ∧ (s.armMsg k m).msgOfId k = some { m with armed := true, phase := ph } := by
  obtain ⟨hpoison, hsnaps⟩ := hclean
  intro ph
  have hword : BitVec.ofNat 64 (leNat (s.rdPhys cw 8)) = BitVec.ofNat 64 (word s.mem cw 8) := rfl
  obtain ⟨u, hu⟩ : ∃ u, s.wrPhys cw (b8 (swPerform w ph m.outside).toNat) [] = u := ⟨_, rfl⟩
  have heq : s.armMsg k m = { u with inbox := Store.ins k { m with armed := true, phase := ph } u.inbox } := by
    rw [State.armMsg, hcw]
    simp only [howns, State.freePages_none hsnaps, State.fixLines_clean hpoison, State.linesIn_clean hpoison, hword, harm, Bool.not_true, Bool.false_eq_true, if_false,
      List.isEmpty_nil]
    rw [← hu]
  rw [heq]
  exact ⟨hu ▸ s.wrPhys_wrote cw _ [], State.msgOfId_ins rfl⟩

/-! ### The channel record -/

/-- The counters of a job's record. -/
def Snap.counters (x : Snap) : Nat × Nat := (x.fpos, x.arrivals)
def State.countersStand (s t : State) (k : Nat) : Prop := (t.snap k).counters = (s.snap k).counters

theorem State.countersStand.of_snaps {s t : State} (h : t.snaps = s.snaps) (k : Nat) : s.countersStand t k := by
  rw [State.countersStand, State.snap, h, State.snap]

theorem State.countersStand.setSnap {s t : State} (h : s.countersStand t k) {x : Snap} (hx : x.counters = (t.snap k).counters) : s.countersStand (t.setSnap k x) k := by
  rw [State.countersStand, State.snap_setSnap_same, hx]
  exact h

theorem State.fixLines_snaps (s : State) (slot : Option Nat) (pa n : Nat) : (s.fixLines slot pa n).snaps = s.snaps := by
  have hmeet : ∀ (ls : List Nat) (u : State), (ls.foldl State.meetLine u).snaps = u.snaps := fun ls => by
    induction ls with
    | nil => exact fun _ => rfl
    | cons l ls ih => exact fun u => (ih (u.meetLine l)).trans rfl
  simp only [State.fixLines]
  split
  · exact hmeet _ _
  · split
    · split
      · exact hmeet _ _
      · exact hmeet _ _
    · exact hmeet _ _

theorem State.snaps_of_rest {s u : State} (h : { u with mem := s.mem, poison := s.poison } = s) : u.snaps = s.snaps := (congrArg State.snaps h :)

theorem State.areaWrite_snaps {s u : State} {off : Nat} {data : List Byte} {bad : List Nat} (h : s.areaWrite k off data bad = some u) : u.snaps = s.snaps := by
  rw [State.areaWrite_rest h]
  rfl

theorem State.moveFolio_counters (s : State) (k off : Nat) : s.countersStand (s.moveFolio k off) k := by
  have hfix := State.countersStand.of_snaps (s.fixLines_snaps none (s.area k + (s.snap k).foff) (s.snap k).fpos) k
  rw [State.moveFolio]
  generalize s.fixLines none (s.area k + (s.snap k).foff) (s.snap k).fpos = v at hfix ⊢
  split
  · exact hfix
  · next u hu =>
    have huv : u.snap k = v.snap k := by rw [State.snap, State.areaWrite_snaps hu, State.snap]
    have hset : s.countersStand (u.setSnap k { v.snap k with foff := off }) k := by
      refine State.countersStand.setSnap (t := u) ?_ ?_
      · rw [State.countersStand, huv]
        exact hfix
      · rw [huv]
        rfl
    have hcat := State.snaps_of_rest ((u.setSnap k { v.snap k with foff := off }).catWrite_rest k (v.snap k).entry
      [u.cat k (v.snap k).entry 0, u.cat k (v.snap k).entry 1, off, (v.snap k).fpos, u.cat k (v.snap k).entry 4, u.cat k (v.snap k).entry 5])
    exact (State.countersStand.of_snaps hcat k).trans hset

theorem State.unmark_counters (v : State) (k : Nat) (c : Prop) [Decidable c] :
    v.countersStand (if c then v.setSnap k { v.snap k with old := none, pages := [] } else v) k := by
  split
  · exact State.countersStand.setSnap rfl rfl
  · exact rfl

theorem State.postEvent_snaps (s : State) (cause slot detail : Nat) : (s.postEvent cause slot detail).snaps = s.snaps :=
  congrArg (fun b : Store Slot × List Out × Store Snap => b.2.2) (s.postEvent_besideWork cause slot detail)

theorem State.dropFolio_counters (s : State) (k i : Nat) : s.countersStand (s.dropFolio k i) k := by
  have hdrop := State.snaps_of_rest (s.catDrop_rest k i)
  have hpost := (s.catDrop k i).postEvent_snaps 0x12 ((s.slotsOf k).headD 0) 0
  rw [State.dropFolio]
  exact (State.unmark_counters _ k _).trans (State.countersStand.of_snaps (hpost.trans hdrop) k)

theorem State.makeRoom_counters (k n : Nat) : ∀ (fuel : Nat) (s : State), s.countersStand (s.makeRoom k n fuel) k
  | 0, s => rfl
  | fuel + 1, s => by
    rw [State.makeRoom]
    split
    · exact rfl
    · split
      · exact s.moveFolio_counters k _
      · split
        · exact rfl
        · exact (State.makeRoom_counters k n fuel _).trans (s.dropFolio_counters k _)

theorem State.folioPut_counters {w u : State} {bs : List Byte} {bad : List Nat} (h : w.folioPut k bs bad = some u) :
    (u.snap k).counters = ((w.snap k).fpos + bs.length, (w.snap k).arrivals) := by
  simp only [State.folioPut] at h
  split at h
  · cases h
  · split at h
    · cases h
    · next v hv =>
      obtain rfl := Option.some.inj h
      rw [State.snap, State.snaps_of_rest (State.catWrite_rest _ _ _ _), ← State.snap, State.snap_setSnap_same]
      rfl

theorem State.folioAppend_counters {u : State} {kind key : Nat} {data : List Byte} {bad : List Nat} (h : s.folioAppend k kind key data bad = some u) :
    (u.snap k).counters = ((s.snap k).fpos + (folioRecord kind key data).length, (s.snap k).arrivals) := by
  rw [State.folioAppend_eq] at h
  have hroom := State.makeRoom_counters k (folioRecord kind key data).length 18 s
  rw [State.folioPut_counters h]
  simp only [State.countersStand, Snap.counters, Prod.mk.injEq] at hroom
  rw [hroom.1, hroom.2]

theorem takeMsg_notes (hst : (s.snap m.job).st = .recording ∨ (s.snap m.job).st = .reported) (hopen : (s.snap m.job).closed.contains m.src = false) (hcw : m.cw = none)
    (hroom : (s.folioAppend m.job 4 (s.snap m.job).arrivals m.bytes []).isSome = true) :
    ((s.takeMsg k m).snap m.job).arrivals = (s.snap m.job).arrivals + 1 ∧
      ((s.takeMsg k m).snap m.job).fpos = (s.snap m.job).fpos + (folioRecord 4 (s.snap m.job).arrivals m.bytes).length ∧
      (s.takeMsg k m).msgOfId k = some { m with armed := true } := by
  obtain ⟨u, hu⟩ := Option.isSome_iff_exists.mp hroom
  have hcount := State.folioAppend_counters hu
  simp only [Snap.counters, Prod.mk.injEq] at hcount
  obtain ⟨hfpos, harr⟩ := hcount
  obtain ⟨v, hv⟩ : ∃ v, u.setSnap m.job { u.snap m.job with arrivals := (u.snap m.job).arrivals + 1 } = v := ⟨_, rfl⟩
  have hnote : s.noteMsg m.job m = some v := by rw [State.noteMsg, hu, Option.map_some, hv]
  have hsnap : v.snap m.job = { u.snap m.job with arrivals := (u.snap m.job).arrivals + 1 } := by rw [← hv, State.snap_setSnap_same]
  have htake : s.takeMsg k m = { v with inbox := Store.ins k { m with armed := true } v.inbox } := by
    rw [State.takeMsg_note (Snap.fate_note hst hopen) hnote, v.armMsg_plain k hcw]
  rw [htake, State.snap_inbox, hsnap]
  exact ⟨by rw [← harr], by rw [← hfpos], State.msgOfId_ins rfl⟩

end Sys2Proof.Machine
end

section
/-! PROOFS. An armed message is performed, range by range, and answered (R68, R230, R243, R378); and the settlement of O59. -/

namespace Sys2Proof.Machine
open Sys2Proof.Claims

/-- Memory, its errors and the bounce channels apart, a state stands, and no line is in error. -/
structure MsgStands (s u : State) : Prop where
  rest : { u with mem := s.mem, poison := s.poison, bounces := s.bounces } = s
  clean : u.poison = []

variable {s : State} {k : Nat} {m : Msg}

theorem MsgStands.trans {s u v : State} (h : MsgStands s u) (g : MsgStands u v) : MsgStands s v :=
  ⟨(congrArg (fun x : State => { x with mem := s.mem, poison := s.poison, bounces := s.bounces }) g.rest).trans h.rest, g.clean⟩

theorem MsgStands.refl (h : s.poison = []) : MsgStands s s := ⟨rfl, h⟩

theorem MsgStands.syeWrite (h : s.poison = []) (pa : Nat) (data : List Byte) : MsgStands s (s.syeWrite pa data []) :=
  ⟨s.syeWrite_rest pa data [], State.wrPhys_clean h pa data⟩

theorem MsgStands.ownsAll {u : State} (h : MsgStands s u) (world pa n : Nat) : u.ownsAll world pa n = s.ownsAll world pa n := by
  have hpot : u.pot = s.pot := (congrArg State.pot h.rest :)
  simp only [State.ownsAll, State.ownedPage, State.potOf, hpot]

theorem MsgStands.snaps {u : State} (h : MsgStands s u) : u.snaps = s.snaps := (congrArg State.snaps h.rest :)

/-! ### Ranges -/

theorem State.countMsg_none (s : State) (hcw : m.cw = none) (n : Nat) : s.countMsg m n = s := by
  rw [State.countMsg, hcw]

/-- The code of a message: that of its first range, and else that of a range that is not the world's. -/
def codeAfter (code : Nat) (ok : Bool) : Nat := if ok then code else if code = 0 then 3 else code

/-- The ranges of a write take its bytes one after another; those that are not the world's take none. -/
theorem State.writeParts_spread (hcw : m.cw = none) (own : Nat × Nat → Bool) : ∀ (ps : List (Nat × Nat)) (data : List Byte) (code : Nat) (u : State),
    clean u → (∀ r, u.ownsAll m.world r.1 r.2 = own r) →
      (u.writeParts m ps data code).1.mem = spread own u.mem ps data ∧ (u.writeParts m ps data code).2 = codeAfter code (ps.all own) ∧
        MsgStands u (u.writeParts m ps data code).1
  | [], _, _, _, hclean, _ => ⟨rfl, rfl, MsgStands.refl hclean.1⟩
  | p :: ps, data, code, u, hclean, hown => by
    obtain ⟨hpoison, hsnaps⟩ := hclean
    rw [State.writeParts, spread, List.all_cons, hown p]
    cases hp : own p with
    | false =>
      obtain ⟨hmem, hcode, hstands⟩ := State.writeParts_spread hcw own ps (data.drop p.2) (if code = 0 then 3 else code) u ⟨hpoison, hsnaps⟩ hown
      simp only [Bool.not_false, if_true, Bool.false_and, Bool.false_eq_true, if_false]
      refine ⟨hmem, hcode.trans ?_, hstands⟩
      rw [codeAfter, codeAfter, if_neg Bool.false_ne_true]
      split
      · rfl
      · by_cases hc : code = 0
        · simp [hc]
        · simp [hc]
    | true =>
      have hwrite := MsgStands.syeWrite hpoison p.1 (data.take p.2)
      have hmem' : (u.syeWrite p.1 (data.take p.2) []).mem = Store.putL 0 u.mem p.1 (data.take p.2) := rfl
      rw [State.freePages_none hsnaps, State.countMsg_none _ hcw]
      generalize u.syeWrite p.1 (data.take p.2) [] = v at hwrite hmem' ⊢
      obtain ⟨hmem, hcode, hstands⟩ := State.writeParts_spread hcw own ps (data.drop p.2) code v ⟨hwrite.clean, hwrite.snaps.trans hsnaps⟩
        fun r => (hwrite.ownsAll _ _ _).trans (hown r)
      rw [hmem'] at hmem
      simp only [Bool.not_true, if_true, Bool.true_and, Bool.false_eq_true, if_false]
      exact ⟨hmem, hcode, hwrite.trans hstands⟩

/-- The ranges of a read give the bytes of those that are the world's. -/
theorem State.readParts_owned (hclean : clean s) (hcw : m.cw = none) : ∀ (ps : List (Nat × Nat)) (code : Nat) (bs : List Byte),
    let own (r : Nat × Nat) : Bool := s.ownsAll m.world r.1 r.2
    s.readParts m ps code bs = (s, codeAfter code (ps.all own), bs ++ (ps.filter own).flatMap (fun r => Store.getN 0 s.mem r.1 r.2))
  | [], code, bs => by simp [State.readParts, codeAfter]
  | p :: ps, code, bs => by
    intro own
    rw [State.readParts, List.all_cons, List.filter_cons]
    cases hp : own p with
    | false =>
      have hp' : s.ownsAll m.world p.1 p.2 = false := hp
      have ih := State.readParts_owned hclean hcw ps (if code = 0 then 3 else code) bs
      simp only [hp', Bool.not_false, if_true, Bool.false_and, Bool.false_eq_true, if_false]
      refine ih.trans (Prod.ext rfl (Prod.ext ?_ rfl))
      show codeAfter _ (ps.all own) = codeAfter code false
      rw [codeAfter, codeAfter, if_neg Bool.false_ne_true]
      split
      · rfl
      · by_cases hc : code = 0
        · simp [hc]
        · simp [hc]
    | true =>
      have hp' : s.ownsAll m.world p.1 p.2 = true := hp
      have hread : s.readAt p.1 p.2 = (s, some (Store.getN 0 s.mem p.1 p.2)) := by
        rw [State.readAt, State.fixLines_clean hclean.1, State.linesIn_clean hclean.1]
        rfl
      simp only [hp', hread, Bool.not_true, if_true, Bool.true_and, Bool.false_eq_true, if_false, State.countMsg_none _ hcw]
      rw [State.readParts_owned hclean hcw ps code, List.flatMap_cons, List.append_assoc]

/-! ### The answer -/

/-- An armed message that comes first on its channel is performed. -/
theorem exec_performsMsg (hmsg : s.msgOfId k = some m) (hfirst : s.firstMsg k m = true) (harmed : m.armed = true) :
    exec (.jobMessageArrival k) s = .next (s.performMsg k m) := by
  show execJobMessageArrival k s = _
  simp only [execJobMessageArrival, hmsg, hfirst, harmed, Bool.not_true, Bool.false_eq_true, if_false, if_true]

/-- What a message comes to: a state, a code and what it has read. -/
def State.msgResult (s : State) (m : Msg) : State × Nat × List Byte :=
  if m.kind = 5 then (s.collArrive m, 0, [])
  else if m.kind = 6 then ((s.bindMsg m).1, (s.bindMsg m).2, [])
  else if (m.kind = 2 || m.kind = 3) && !s.msgInScope m then (s, 3, [])
  else if m.kind = 0 || m.kind = 2 then ((s.writeParts m m.parts m.data 0).1, (s.writeParts m m.parts m.data 0).2, [])
  else if m.kind = 4 then s.atomMsg m
  else s.readParts m m.parts 0 []

theorem State.performMsg_eq (s : State) (k : Nat) (m : Msg) : s.performMsg k m = ((s.msgResult m).1.dropMsg k).respond m (s.msgResult m).2.1 (s.msgResult m).2.2 := rfl

/-- The answer has been sent, and the message is gone. -/
def Answered (s u : State) (k : Nat) (m : Msg) (code : Nat) (data : List Byte) : Prop :=
  u.msgOfId k = none ∧ u.outbox = s.outbox ++ [.message m.src 1 m.va (BitVec.ofNat 8 code :: data)] ∧ u.tiles = s.tiles ∧ u.slots = s.slots

theorem State.performMsg_answers {v : State} {code : Nat} {data : List Byte} (h : s.msgResult m = (v, code, data)) (hout : v.outbox = s.outbox) (htiles : v.tiles = s.tiles)
    (hslots : v.slots = s.slots) :
    Answered s (s.performMsg k m) k m code data ∧ (s.performMsg k m).mem = v.mem ∧ (s.performMsg k m).sync = v.sync := by
  rw [State.performMsg_eq, h]
  refine ⟨⟨v.msgOfId_dropMsg k, ?_, htiles, hslots⟩, rfl, rfl⟩
  rw [← hout]
  rfl

theorem MsgStands.aside {u : State} (h : MsgStands s u) : u.outbox = s.outbox ∧ u.tiles = s.tiles ∧ u.slots = s.slots ∧ u.sync = s.sync :=
  ⟨(congrArg State.outbox h.rest :), (congrArg State.tiles h.rest :), (congrArg State.slots h.rest :), (congrArg State.sync h.rest :)⟩

theorem codeAfter_zero (ok : Bool) : codeAfter 0 ok = if ok then 0 else 3 := rfl

/-! ### Each kind of message -/

theorem msg_writes (hclean : clean s) (hcw : m.cw = none) (h : m.kind = 0 ∨ m.kind = 2 ∧ s.msgInScope m = true) :
    let own (r : Nat × Nat) : Bool := s.ownsAll m.world r.1 r.2
    (s.performMsg k m).mem = spread own s.mem m.parts m.data ∧ Answered s (s.performMsg k m) k m (if m.parts.all own then 0 else 3) [] := by
  intro own
  obtain ⟨hmem, hcode, hstands⟩ := State.writeParts_spread hcw own m.parts m.data 0 s hclean fun _ => rfl
  obtain ⟨hout, htiles, hslots, -⟩ := hstands.aside
  have hresult : s.msgResult m = ((s.writeParts m m.parts m.data 0).1, (s.writeParts m m.parts m.data 0).2, []) := by
    rw [State.msgResult]
    rcases h with h | ⟨h, hscope⟩
    · simp [h]
    · simp [h, hscope]
  obtain ⟨hans, hpmem, -⟩ := State.performMsg_answers (k := k) hresult hout htiles hslots
  rw [hcode, codeAfter_zero] at hans
  exact ⟨hpmem.trans hmem, hans⟩

theorem msg_reads (hclean : clean s) (hcw : m.cw = none) (h : m.kind = 1 ∨ m.kind = 3 ∧ s.msgInScope m = true) :
    let own (r : Nat × Nat) : Bool := s.ownsAll m.world r.1 r.2
    (s.performMsg k m).mem = s.mem ∧
      Answered s (s.performMsg k m) k m (if m.parts.all own then 0 else 3) ((m.parts.filter own).flatMap (fun r => Store.getN 0 s.mem r.1 r.2)) := by
  intro own
  have hread : s.readParts m m.parts 0 [] = (s, (if m.parts.all own then 0 else 3), (m.parts.filter own).flatMap (fun r => Store.getN 0 s.mem r.1 r.2)) :=
    State.readParts_owned hclean hcw m.parts 0 []
  have hresult : s.msgResult m = s.readParts m m.parts 0 [] := by
    rw [State.msgResult]
    rcases h with h | ⟨h, hscope⟩
    · simp [h]
    · simp [h, hscope]
  obtain ⟨hans, hpmem, -⟩ := State.performMsg_answers (k := k) (hresult.trans hread) rfl rfl rfl
  exact ⟨hpmem, hans⟩

theorem msg_outOfScope (h : m.kind = 2 ∨ m.kind = 3) (hscope : s.msgInScope m = false) :
    (s.performMsg k m).mem = s.mem ∧ Answered s (s.performMsg k m) k m 3 [] := by
  have hresult : s.msgResult m = (s, 3, []) := by
    rw [State.msgResult]
    rcases h with h | h
    · simp [h, hscope]
    · simp [h, hscope]
  obtain ⟨hans, hpmem, -⟩ := State.performMsg_answers (k := k) hresult rfl rfl rfl
  exact ⟨hpmem, hans⟩

theorem State.collArrive_rest (s : State) (m : Msg) : { s.collArrive m with colls := s.colls } = s := by
  rw [State.collArrive]
  split
  · rfl
  · rfl

theorem msg_contributes (h : m.kind = 5) : (s.performMsg k m).mem = s.mem ∧ Answered s (s.performMsg k m) k m 0 [] := by
  have hrest := s.collArrive_rest m
  have hresult : s.msgResult m = (s.collArrive m, 0, []) := by rw [State.msgResult, if_pos h]
  generalize s.collArrive m = v at hrest hresult
  obtain ⟨hans, hpmem, -⟩ := State.performMsg_answers (k := k) hresult (congrArg State.outbox hrest :) (congrArg State.tiles hrest :) (congrArg State.slots hrest :)
  exact ⟨hpmem.trans (congrArg State.mem hrest :), hans⟩

/-- What a BINDSO of another package comes to, once its object and its pages are the world's. -/
theorem State.bindMsg_checked (hobj : s.ownsAll m.world m.va 8 = true) (hown : ∀ p, p ∈ m.ranges → isWindow p.1 = false ∧ s.ownsAll m.world p.1 p.2 = true) :
    s.bindMsg m = (match s.bindings m.op m.va m.ranges (fun p => { lo := p.1, hi := p.1 + p.2, obj := m.va, scope := m.op, pkg := m.src, world := m.world,
                                                                   jobid := m.jobid, seat := m.seat }) with
      | .error c => (s, c)
      | .ok bs => ({ s with sync := bs }, 0)) := by
  have hall : m.ranges.all (fun p => isWindow p.1 || s.ownsAll m.world p.1 p.2) = true :=
    List.all_eq_true.mpr fun p hp => by rw [(hown p hp).2, Bool.or_true]
  rw [State.bindMsg, hobj, hall]
  rfl

theorem msg_binds (h : m.kind = 6) (hop : m.op ≠ 0) (hobj : s.ownsAll m.world m.va 8 = true)
    (hown : ∀ p, p ∈ m.ranges → isWindow p.1 = false ∧ s.ownsAll m.world p.1 p.2 = true) (hfree : ∀ b, b ∈ s.sync → b.obj ≠ m.va → b.meetsAny m.ranges = false) :
    (s.performMsg k m).mem = s.mem ∧ Answered s (s.performMsg k m) k m 0 [] ∧ (s.performMsg k m).sync = s.sync ++ m.ranges.map (fun p =>
      { lo := p.1, hi := p.1 + p.2, obj := m.va, scope := m.op, pkg := m.src, world := m.world, jobid := m.jobid, seat := m.seat }) := by
  have hnone : s.sync.any (fun b => b.obj != m.va && b.meetsAny m.ranges) = false := List.any_eq_false.mpr fun b hb => by
    by_cases hb' : b.obj = m.va
    · simp [hb']
    · simp [hfree b hb hb']
  have hbind := State.bindMsg_checked hobj hown
  rw [State.bindings, if_neg hop, hnone, if_neg Bool.false_ne_true] at hbind
  obtain ⟨bs, hbs⟩ : ∃ bs, s.sync ++ m.ranges.map (fun p => ({ lo := p.1, hi := p.1 + p.2, obj := m.va, scope := m.op, pkg := m.src, world := m.world,
                                                               jobid := m.jobid, seat := m.seat } : SoBind)) = bs := ⟨_, rfl⟩
  rw [hbs] at hbind
  have hresult : s.msgResult m = ({ s with sync := bs }, 0, []) := by
    rw [State.msgResult, if_neg (by omega), if_pos h, hbind]
  obtain ⟨hans, hpmem, hsync⟩ := State.performMsg_answers (k := k) hresult rfl rfl rfl
  rw [hbs]
  exact ⟨hpmem, hans, hsync⟩

theorem msg_bindRefused {b : SoBind} (h : m.kind = 6) (hop : m.op ≠ 0) (hobj : s.ownsAll m.world m.va 8 = true)
    (hown : ∀ p, p ∈ m.ranges → isWindow p.1 = false ∧ s.ownsAll m.world p.1 p.2 = true) (hb : b ∈ s.sync) (hne : b.obj ≠ m.va) (hmeets : b.meetsAny m.ranges = true) :
    (s.performMsg k m).sync = s.sync ∧ Answered s (s.performMsg k m) k m 9 [] := by
  have hsome : s.sync.any (fun b => b.obj != m.va && b.meetsAny m.ranges) = true := List.any_eq_true.mpr ⟨b, hb, by simp [hne, hmeets]⟩
  have hbind := State.bindMsg_checked hobj hown
  rw [State.bindings, if_neg hop, hsome, if_pos rfl] at hbind
  have hresult : s.msgResult m = (s, 9, []) := by rw [State.msgResult, if_neg (by omega), if_pos h, hbind]
  obtain ⟨hans, -, hsync⟩ := State.performMsg_answers (k := k) hresult rfl rfl rfl
  exact ⟨hsync, hans⟩

theorem msg_atomic (hclean : clean s) (h : m.kind = 4) (howns : s.ownsAll m.world m.va (m.data.length / 2) = true) :
    let n := m.data.length / 2
    Answered s (s.performMsg k m) k m 0 (Store.getN 0 s.mem m.va n) ∧
      wroteOpt s.mem (s.performMsg k m).mem m.va n (atomNew m.op n (leNat (m.data.take n)) (leNat (m.data.drop n)) (word s.mem m.va n)) := by
  intro n
  have hsize : m.size = n := by rw [Msg.size, if_pos h]
  have hread : s.readAt m.va n = (s, some (Store.getN 0 s.mem m.va n)) := by
    rw [State.readAt, State.fixLines_clean hclean.1, State.linesIn_clean hclean.1]
    rfl
  have hresult : s.msgResult m = s.atomMsg m := by
    rw [State.msgResult]
    simp [h]
  have hatom : s.atomMsg m = (match atomNew m.op n (leNat (m.data.take n)) (leNat (m.data.drop n)) (word s.mem m.va n) with
      | none => (s, 0, Store.getN 0 s.mem m.va n)
      | some v => (s.syeWrite m.va (leBytes n v) [], 0, Store.getN 0 s.mem m.va n)) := by
    rw [State.atomMsg, hsize, howns]
    simp only [hread, State.freePages_none hclean.2, Bool.not_true, Bool.false_eq_true, if_false]
    rfl
  rw [hatom] at hresult
  cases hnew : atomNew m.op n (leNat (m.data.take n)) (leNat (m.data.drop n)) (word s.mem m.va n) with
  | none =>
    rw [hnew] at hresult
    obtain ⟨hans, hpmem, -⟩ := State.performMsg_answers (k := k) hresult rfl rfl rfl
    refine ⟨hans, fun a => ?_⟩
    rw [hpmem, if_neg (by simp)]
  | some v =>
    rw [hnew] at hresult
    obtain ⟨hans, hpmem, -⟩ := State.performMsg_answers (k := k) hresult rfl rfl rfl
    refine ⟨hans, ?_⟩
    rw [hpmem]
    exact s.wrPhys_wrote m.va (leBytes n v) []

end Sys2Proof.Machine

namespace Sys2Proof.Proofs
open Sys2Proof.Machine Sys2Proof.Claims

/-- Settles O59: the events of snapshots and rollbacks are those of `snareaWrite_done` to `bufferCopy_done`; a message that arrives takes its fate
(`State.takeMsg_perform` and its like), and one that is armed is performed and answered (`msg_writes` to `msg_atomic`). -/
theorem snapshotEvents : Obligations.SnapshotEvents := by
  refine ⟨fun s hpoison => ⟨?_, ?_, ?_, ?_, ?_, ?_, ?_, ?_, ?_, ?_⟩, ?_, ?_⟩
  · exact fun v x hnode hidle hv => snareaWrite_done hnode hidle hv
  · exact fun k id m h => bookmark_unknown h
  · intro k id m src issuer x hjob hmsgs
    exact ⟨fun hs hcat hseen hmark harea hid => bookmark_starts hpoison hjob hmsgs hs hcat hseen hmark harea hid, fun hidle h => bookmark_passed hpoison hjob hmsgs hidle h,
      fun h hid hclosed => bookmark_closes hpoison hjob hmsgs h hid hclosed, fun hst hid => bookmark_collides hpoison hjob hmsgs hst hid⟩
  · intro k id src x hjob hmsgs
    exact ⟨fun hmark hidle hbox hrun => rollbackMarker_starts hjob hmsgs hmark hidle hbox hrun, fun hmark => rollbackMarker_closes hjob hmsgs hmark⟩
  · intro k id src x hroll hissuer hid hrolling hidle hnew
    exact ⟨cutReport_waits hroll hissuer hid hrolling hidle hnew, fun hst h => cutReport_commits hroll hissuer hid hnew hst h⟩
  · intro k id a sw ph x hst hid hwho ha
    exact commit_done hst hid hwho ha
  · intro k id i x hid h
    exact snapshotEnds_done hpoison hid h
  · exact fun page h => pageCopy_none h
  · exact fun page k hheld hk hj hold hnew hfits => pageCopy_done hpoison hheld hk hj hold hnew hfits
  · exact fun n t b hnext hecc hnew hfits => bufferCopy_done hnext hecc hnew hfits
  · intro s k m i hmsg hfirst hi z open_ harmed
    rw [exec_takesMsg hmsg hfirst hi harmed]
    refine ⟨fun h => ?_, fun h => ?_, fun hopen hmark hcut hcw => ?_, fun cw w hidle hmark hcw hclean howns harm => ?_, fun hst hc hcw hroom => ?_⟩
    · rw [State.takeMsg_discard (Snap.fate_discard h)]
      rfl
    · rw [State.takeMsg_hold (Snap.fate_hold h)]
    · rw [State.takeMsg_perform (Snap.fate_perform hopen hmark hcut), State.armMsg_plain s k hcw]
      exact ⟨_, rfl, State.msgOfId_ins rfl, rfl⟩
    · rw [State.takeMsg_perform (Snap.fate_perform (.inl hidle) hmark fun h => absurd (hidle.symm.trans h.1) (by decide))]
      obtain ⟨hwrote, hid⟩ := State.armMsg_word (k := k) hclean hcw howns harm
      exact ⟨_, rfl, hwrote, hid⟩
    · obtain ⟨harr, hfpos, hid⟩ := takeMsg_notes (k := k) hst hc hcw hroom
      exact ⟨_, rfl, harr, hfpos, hid⟩
  · intro s k m hmsg hfirst harmed hcw hclean a done own code
    rw [exec_performsMsg hmsg hfirst harmed]
    refine ⟨fun h => ?_, fun h => ?_, fun h hscope => ?_, fun h => ?_, fun h hop hobj hown => ⟨fun hfree => ?_, fun b hb hne hmeets => ?_⟩, fun h => ?_⟩
    · exact ⟨_, rfl, msg_writes hclean hcw h⟩
    · exact ⟨_, rfl, msg_reads hclean hcw h⟩
    · exact ⟨_, rfl, msg_outOfScope h hscope⟩
    · exact ⟨_, rfl, msg_contributes h⟩
    · exact ⟨_, rfl, msg_binds h hop hobj hown hfree⟩
    · exact ⟨_, rfl, msg_bindRefused h hop hobj hown hb hne hmeets⟩
    · intro n howns
      exact ⟨_, rfl, msg_atomic hclean h howns⟩

end Sys2Proof.Proofs
end

section
/-! PROOFS. Commands in hand: what a command leaves of its tile as it goes on or ends, and what a read or an operation of memory on clean memory does (R63, R67, R71). -/

namespace Sys2Proof.Machine
open Sys2Proof.Claims

/-! ### The tile of a command -/

/-- Commands and orders in flight stand, and the status word of a command has the value `w`. -/
structure Counted (x y : Tile) (c : Cmd) (w : Word) : Prop where
  cmds : y.cmds = x.cmds
  flights : y.flights = x.flights
  sw : ∀ q, Store.get 0 q y.sw = if q = c.sw then w else Store.get 0 q x.sw

/-- What names a command: its number, its status word, and the order that waits for it. -/
def Cmd.names (c : Cmd) : Nat × Nat × Option Nat := (c.id, c.sw, c.flight)

variable {x y : Tile} {c k : Cmd} {w : Word} {rcc : Nat}

theorem Counted.of_same (hcmds : y.cmds = x.cmds) (hflights : y.flights = x.flights) (hsw : y.sw = x.sw) (c : Cmd) : Counted x y c (Store.get 0 c.sw x.sw) := by
  refine ⟨hcmds, hflights, fun q => ?_⟩
  rw [hsw]
  split
  · next h => rw [h]
  · rfl

/-- The status word counts bytes performed. -/
theorem Counted.count (h : Counted x y c (Store.get 0 c.sw x.sw)) (n : Nat) : Counted x (y.swUpd c.sw (fun w => swPerform w c.phase n)) c (Claims.after x c n) := by
  refine ⟨h.cmds, h.flights, fun q => ?_⟩
  have hget := Store.get_put 0 (swPerform (Store.get 0 c.sw y.sw) c.phase n) c.sw q y.sw
  refine hget.trans ?_
  rw [h.sw c.sw, if_pos rfl, h.sw q]
  split
  · rfl
  · rfl

theorem Counted.storage {z : Tile} (h : Counted x y c w) (hcmds : z.cmds = y.cmds) (hflights : z.flights = y.flights) (hsw : z.sw = y.sw) : Counted x z c w :=
  ⟨hcmds.trans h.cmds, hflights.trans h.flights, fun q => by rw [hsw, h.sw]⟩

/-- The order that waits for an ended command is to retire. -/
theorem mem_retired {c : Cmd} {fs : List Flight} {now : Nat} {effs : List Eff} {done : Option (Nat × Nat × Bool)} {f : Flight} (hf : f ∈ fs) (hc : c.flight = some f.id) :
    ∃ g, g ∈ fs.map (fun f => if c.flight = some f.id then { f with retire := some (f.retire.getD now), effs := effs ++ f.effs, done := done, doneN := c.size } else f) ∧
      g.id = f.id ∧ g.retire = some (f.retire.getD now) :=
  ⟨_, List.mem_map.mpr ⟨f, hf, if_pos hc⟩, rfl, rfl⟩

theorem Counted.ends (h : Counted x y c w) (hk : k.names = c.names) (code : Nat) : Ends x (y.codeEnd k code rcc) c rcc (swStatus w code) := by
  simp only [Cmd.names, Prod.mk.injEq] at hk
  obtain ⟨hid, hsw, hflight⟩ := hk
  refine ⟨fun q => ?_, fun q => ?_, fun f hf hc => ?_⟩
  · rw [Tile.codeEnd_cmds, h.cmds, List.mem_filter, hid]
    simp
  · rw [Tile.codeEnd_sw, hsw, h.sw c.sw, if_pos rfl, h.sw q]
    split
    · rfl
    · rfl
  · have hg := mem_retired (c := k) (fs := y.flights) (now := rcc) (effs := if k.wrote.isEmpty then [] else [.landed k.buf k.wrote]) (done := none)
      (h.flights.symm ▸ hf) (hflight.trans hc)
    exact hg

theorem endsAtRetire_of (hcmds : y.cmds = x.cmds) (hflights : y.flights = x.flights) (hrest : { y with cmds := x.cmds, flights := x.flights } = x) (code : Nat) (effs : List Eff) :
    EndsAtRetire x ((y.endCmd c).retireCmd c rcc effs (some (c.sw, code, c.phase))) c rcc code effs := by
  refine ⟨fun q => ?_, ?_, hrest⟩
  · show q ∈ y.cmds.filter (fun k => k.id != c.id) ↔ _
    rw [hcmds, List.mem_filter]
    simp
  · show y.flights.map _ = _
    rw [hflights]

/-- A command with elements left stands in the tile as it goes on. -/
theorem Counted.goes (h : Counted x y c w) (hc : c ∈ x.cmds) (hid : k.id = c.id) (hrest : k.elems ≠ []) : GoesOn x (y.putCmd k) c k.elems rcc := by
  have hput : (y.putCmd k).cmds = x.cmds.map (fun q => if q.id = k.id then k else q) := by rw [← h.cmds]; rfl
  refine ⟨fun _ => ⟨k, ?_, hid, rfl⟩, fun he => absurd he hrest, fun q hq => ?_, fun q hq => ?_⟩
  · rw [hput]
    exact List.mem_map.mpr ⟨c, hc, if_pos hid.symm⟩
  · rw [hput, List.mem_map]
    constructor
    · rintro ⟨a, ha, rfl⟩
      by_cases hak : a.id = k.id
      · rw [if_pos hak] at hq
        exact absurd hid hq
      · rwa [if_neg hak]
    · intro ha
      exact ⟨q, ha, if_neg (hid ▸ hq)⟩
  · exact (h.sw q).trans (if_neg hq)

end Sys2Proof.Machine

namespace Sys2Proof.Claims
open Sys2Proof.Machine

/-- A command that ends goes on with no elements. -/
theorem Ends.goesOn {x y : Tile} {c : Cmd} {rcc : Nat} {w : Word} (h : Ends x y c rcc w) : GoesOn x y c [] rcc where
  goes := fun hne => absurd rfl hne
  ends := fun _ => ⟨fun k hk => ((h.cmds k).mp hk).2, h.flights⟩
  others := fun k hk => ⟨fun hm => ((h.cmds k).mp hm).1, fun hm => (h.cmds k).mpr ⟨hm, hk⟩⟩
  status := fun q hq => (h.status q).trans (if_neg hq)

end Sys2Proof.Claims

namespace Sys2Proof.Machine
open Sys2Proof.Claims

variable {s u v : State} {n t id : Nat} {c : Cmd}

theorem State.cmdAt_mem (h : s.cmdAt n t id = some c) : c ∈ (s.tileAt n t).cmds ∧ c.id = id :=
  ⟨List.mem_of_find?_eq_some h, by simpa using List.find?_some h⟩

theorem State.tile_setTileAt (h : u.slots = s.slots) (y : Tile) : (u.setTileAt n t y).tile ((s.slot n).phys t) = y := by
  have hphys : (u.slot n).phys t = (s.slot n).phys t := by rw [State.slot, h, State.slot]
  rw [← hphys]
  exact State.setTile_tile_same u _ y

theorem swStatus_zero (w : Word) : swStatus w 0 = w := if_pos rfl

/-! ### Choices that the spec leaves open -/

/-- Only the count of free values that have been drawn differs. -/
def State.Ticked (s u : State) : Prop := { u with tick := s.tick } = s

theorem State.choose_ticked (s : State) (k : Nat) : s.Ticked (s.choose k).2 := by
  rw [State.choose]
  split
  · rfl
  · rfl

theorem State.choose_lt (s : State) {k : Nat} (h : 0 < k) : (s.choose k).1 < k := by
  rw [State.choose]
  split
  · exact h
  · exact Nat.mod_lt _ h

theorem State.remoteCode_ticked (s : State) (rd : Bool) : s.Ticked (s.remoteCode rd).2 := rfl

theorem State.remoteCode_write (s : State) : (s.remoteCode false).1 = 0 ∨ (s.remoteCode false).1 = 3 := by
  rw [State.remoteCode]
  dsimp only
  split
  · exact .inl rfl
  · exact .inr rfl
  · exact .inl rfl

/-! ### Memory without errors -/

/-- Translations stand where what they are made of does. -/
theorem State.translate_of_rest (h : { u with mem := s.mem, poison := s.poison, bounces := s.bounces, tick := s.tick, tiles := s.tiles } = s) (ctx va kind : Nat) :
    u.translate ctx va kind = s.translate ctx va kind := by
  rw [← h]
  rfl

theorem State.gread_lies {va len pa ctx : Nat} (hpoison : s.poison = []) (h : lies s ctx va len kRead pa) (die : Nat) :
    s.gread die ctx va len = (s, .done (Store.getN 0 s.mem pa len)) := by
  obtain ⟨hrange, hwin⟩ := h
  rw [State.gread, hrange]
  simp only [State.readPieces, hwin, State.fixLines_clean hpoison, State.linesIn_clean hpoison, Bool.false_eq_true, if_false, List.isEmpty_nil, if_true, List.append_nil]
  rfl

/-- An operation at its home SYE. -/
theorem State.syeOp_lies {ctx va pa : Nat} (hclean : clean s) (h : liesAt s ctx va kAtomic pa) (die len : Nat) (f : Nat → Option Nat) :
    s.syeOp die ctx va len f = ((match f (word s.mem pa len) with
      | some v => s.syeWrite pa (leBytes len v) []
      | none => s), .done (Store.getN 0 s.mem pa len)) := by
  obtain ⟨htrans, hwin⟩ := h
  have hsnapped : s.snapped (pa / 4096) = false := by rw [State.snapped, hclean.2]; rfl
  rw [State.syeOp, htrans]
  simp only [hwin, State.fixLines_clean hclean.1, State.linesIn_clean hclean.1, Bool.false_eq_true, if_false, List.isEmpty_nil, Bool.not_true]
  rw [show leNat (s.rdPhys pa len) = word s.mem pa len from rfl]
  cases f (word s.mem pa len) with
  | none => rfl
  | some v =>
    simp only [hsnapped, Bool.false_eq_true, if_false]
    rfl

theorem State.syeOp_wrote {ctx va pa : Nat} (hclean : clean s) (h : liesAt s ctx va kAtomic pa) (die len : Nat) (f : Nat → Option Nat) :
    wroteOpt s.mem (s.syeOp die ctx va len f).1.mem pa len (f (word s.mem pa len)) := by
  rw [State.syeOp_lies hclean h]
  cases f (word s.mem pa len) with
  | none => exact fun k => by rw [if_neg (by simp)]
  | some v => exact s.wrPhys_wrote pa (leBytes len v) []

theorem State.syeOp_stands {ctx va pa : Nat} (hclean : clean s) (h : liesAt s ctx va kAtomic pa) (die len : Nat) (f : Nat → Option Nat) :
    MsgStands s (s.syeOp die ctx va len f).1 := by
  rw [State.syeOp_lies hclean h]
  cases f (word s.mem pa len) with
  | none => exact MsgStands.refl hclean.1
  | some v => exact MsgStands.syeWrite hclean.1 _ _

end Sys2Proof.Machine
end

section
/-! PROOFS. The elements of copies: bytes that land, that are gathered for a pattern, and that leave (R63, R67, R218, R223 to R225, R241, R242). -/

namespace Sys2Proof.Machine
open Sys2Proof.Claims

variable {s v : State} {n t id : Nat} {c k : Cmd} {w : Word}

/-! ### The step of a copy -/

theorem State.countBytes_counted (hslots : v.slots = s.slots) (h : Counted (s.tileAt n t) (v.tileAt n t) c (Store.get 0 c.sw (s.tileAt n t).sw)) (len : Nat) :
    Counted (s.tileAt n t) ((v.countBytes n t c len).tileAt n t) c (Claims.after (s.tileAt n t) c len) ∧ (v.countBytes n t c len).slots = s.slots := by
  rw [State.countBytes, State.tileAt_setTileAt]
  exact ⟨h.count len, hslots⟩

theorem State.endCommand_ends (hslots : v.slots = s.slots) (h : Counted (s.tileAt n t) (v.tileAt n t) c w) (hk : k.names = c.names) {code : Nat} (hcode : code ≠ 1) :
    v.endCommand n t k code = v.setTileAt n t ((v.tileAt n t).codeEnd k code (s.slot n).rcc) ∧
      Ends (s.tileAt n t) ((v.endCommand n t k code).tile ((s.slot n).phys t)) c (s.slot n).rcc (swStatus w code) := by
  have hrcc : (v.slot n).rcc = (s.slot n).rcc := by rw [State.slot, hslots, State.slot]
  have heq : v.endCommand n t k code = v.setTileAt n t ((v.tileAt n t).codeEnd k code (s.slot n).rcc) := by rw [State.endCommand_eq v n t k hcode, hrcc]
  refine ⟨heq, ?_⟩
  rw [heq, State.tile_setTileAt hslots]
  exact h.ends hk code

/-- A copy whose element has been performed goes on, or ends with the last. -/
theorem State.stepCopy_goes (hslots : v.slots = s.slots) (h : Counted (s.tileAt n t) (v.tileAt n t) c w) (hc : c ∈ (s.tileAt n t).cmds) (hk : k.names = c.names)
    (herr : k.err = 0) (hpat : k.pat = none) :
    ∃ y, v.stepCopy n t k = v.setTileAt n t y ∧ GoesOn (s.tileAt n t) y c k.elems (s.slot n).rcc ∧ Store.get 0 c.sw y.sw = w ∧
      y.sram = (v.tileAt n t).sram ∧ y.opmem = (v.tileAt n t).opmem := by
  have hid : k.id = c.id := congrArg Prod.fst hk
  rw [State.stepCopy]
  cases hel : k.elems with
  | nil =>
    obtain ⟨heq, hends⟩ := State.endCommand_ends hslots h hk (code := 0) (by decide)
    have hcopy : v.endCopy n t k = v.endCommand n t k 0 := by
      rw [State.endCopy, hpat]
      simp only [herr, bne_self_eq_false, Bool.false_and, Bool.false_eq_true, if_false]
    rw [heq, State.tile_setTileAt hslots] at hends
    rw [swStatus_zero] at hends
    refine ⟨_, hcopy.trans heq, hends.goesOn, ?_, rfl, rfl⟩
    exact (hends.status c.sw).trans (if_pos rfl)
  | cons e es =>
    have hne : k.elems ≠ [] := by rw [hel]; exact List.cons_ne_nil _ _
    have hgoes := h.goes (rcc := (s.slot n).rcc) hc hid hne
    rw [hel] at hgoes
    exact ⟨_, rfl, hgoes, (h.sw c.sw).trans (if_pos rfl), rfl, rfl⟩

/-! ### Copies in -/

section
variable (hcw : c.cw = none) (hel : c.elems ≠ []) (hclean : clean s)
  (hlies : ∀ e, e ∈ c.elems → e.half = false ∧ ∃ pa, lies s n e.va e.len kRead pa ∧ s.readTurn n t c [(pa, e.len)] = true)
include hcw hel hclean hlies

/-- A copy in reads an element, any of those that are left. -/
theorem State.performIn_reads : ∃ i e pa v, s.Ticked v ∧ c.elems[i]? = some e ∧ lies s n e.va e.len kRead pa ∧
    s.performIn n t c =
      ((v.landIn n t { c with elems := c.elems.eraseIdx i } e (Store.getN 0 s.mem pa e.len)).1.countBytes n t c e.len).stepCopy n t
        (v.landIn n t { c with elems := c.elems.eraseIdx i } e (Store.getN 0 s.mem pa e.len)).2 := by
  have hlt := s.choose_lt (List.length_pos_iff.mpr hel)
  have htick := s.choose_ticked c.elems.length
  obtain ⟨i, v, hpick⟩ : ∃ i v, s.choose c.elems.length = (i, v) := ⟨_, _, rfl⟩
  rw [hpick] at hlt htick
  obtain ⟨hhalf, pa, hl, hturn⟩ := hlies c.elems[i] (List.getElem_mem hlt)
  have hget : c.elems[i]? = some c.elems[i] := List.getElem?_eq_getElem hlt
  generalize c.elems[i] = e at hhalf hl hturn hget
  have hlv : lies v n e.va e.len kRead pa := by
    refine ⟨?_, hl.2⟩
    rw [← hl.1]
    exact State.translateRange_congr (fun va => by rw [← htick]; rfl) _ _
  have hread := State.gread_lies (s := v) (ctx := n) ((congrArg State.poison htick :).trans hclean.1) hlv (s.tileDie n t)
  have hmem : v.mem = s.mem := (congrArg State.mem htick :)
  rw [hmem] at hread
  have hwait : s.cwWait n t c = none := by rw [State.cwWait, hcw]
  have hcount (u : State) : u.countCw n t c e.len = u := by rw [State.countCw, hcw]
  refine ⟨i, e, pa, v, htick, hget, hl, ?_⟩
  rw [State.performIn, hpick]
  simp only [hget, hl.1, hturn, hwait, hread, hhalf, hcount, Bool.not_true, Bool.false_eq_true, if_false]
end

theorem exec_bytesPerformed_in (hcmd : s.cmdAt n t id = some c) (hcw : c.cw = none) (hk : c.kind = .cpin ∨ c.kind = .cpslot ∨ c.kind = .xfetch) :
    exec (.bytesPerformed n t id) s = .next (s.performIn n t c) := by
  change execBytesPerformed n t id s = _
  rw [execBytesPerformed, hcmd]
  rcases hk with hk | hk | hk
  · simp only [hcw, hk]
  · simp only [hcw, hk]
  · simp only [hcw, hk]

theorem State.Ticked.tileAt (h : s.Ticked v) (n t : Nat) : v.tileAt n t = s.tileAt n t := by rw [← h]; rfl
theorem State.Ticked.slots (h : s.Ticked v) : v.slots = s.slots := (congrArg State.slots h :)
theorem State.Ticked.mem (h : s.Ticked v) : v.mem = s.mem := (congrArg State.mem h :)

/-- The storage of a command that is no slot's takes bytes. -/
theorem wrote_sram (x : Tile) (a : Nat) (bs : List Byte) : wrote x.sram (x.holdC.wrSram a bs).sram a bs := fun k => by
  have hold : x.holdC.sram = x.sram := by
    rw [Tile.holdC]
    split <;> rfl
  rw [Tile.wrSram, Store.get_putL_getD, hold]

theorem wrote_opmem (x : Tile) (a : Nat) (bs : List Byte) : wrote x.opmem (x.wrOp a bs).opmem a bs := fun k => by rw [Tile.wrOp, Store.get_putL_getD]

theorem Tile.holdC_rest (x : Tile) : x.holdC.cmds = x.cmds ∧ x.holdC.flights = x.flights ∧ x.holdC.sw = x.sw := by
  rw [Tile.holdC]
  split
  · exact ⟨rfl, rfl, rfl⟩
  · exact ⟨rfl, rfl, rfl⟩

/-- The bytes of an element without a pattern reach the storage. -/
theorem State.landIn_plain (htick : s.Ticked v) (hpat : c.pat = none) (herr : c.err = 0) (es : List Elem) (e : Elem) (bs : List Byte) :
    ∃ z q, v.landIn n t { c with elems := es } e bs = (v.setTileAt n t z, q) ∧ Counted (s.tileAt n t) z c (Store.get 0 c.sw (s.tileAt n t).sw) ∧
      wrote (storage c.kind (s.tileAt n t)) (storage c.kind z) (c.base + e.tile) bs ∧ q.names = c.names ∧ q.elems = es ∧ q.err = 0 ∧ q.pat = none := by
  have htile := htick.tileAt n t
  have hnone : (({ c with elems := es } : Cmd).pat.isSome) = false := by rw [show ({ c with elems := es } : Cmd).pat = none from hpat]; rfl
  rw [State.landIn, hnone, if_neg Bool.false_ne_true, htile]
  by_cases hslot : c.kind = .cpslot
  · refine ⟨_, _, if_pos hslot, Counted.of_same (x := s.tileAt n t) (y := (s.tileAt n t).wrOp (c.base + e.tile) bs) rfl rfl rfl c, ?_, rfl, rfl, herr, hpat⟩
    rw [storage, storage, if_pos hslot, if_pos hslot]
    exact wrote_opmem _ _ _
  · obtain ⟨hcmds, hflights, hsw⟩ := (s.tileAt n t).holdC_rest
    refine ⟨_, _, if_neg hslot, Counted.of_same (y := (s.tileAt n t).holdC.wrSram (c.base + e.tile) bs) hcmds hflights hsw c, ?_, rfl, rfl, herr, hpat⟩
    rw [storage, storage, if_neg hslot, if_neg hslot]
    exact wrote_sram _ _ _

theorem copyIn_performed (hcmd : s.cmdAt n t id = some c) (hk : c.kind = .cpin ∨ c.kind = .cpslot ∨ c.kind = .xfetch) (hcw : c.cw = none) (hpat : c.pat = none)
    (herr : c.err = 0) (hel : c.elems ≠ []) (hclean : clean s)
    (hlies : ∀ e, e ∈ c.elems → e.half = false ∧ ∃ pa, lies s n e.va e.len kRead pa ∧ s.readTurn n t c [(pa, e.len)] = true) :
    let x := s.tileAt n t
    let p := (s.slot n).phys t
    ∃ u i e pa, exec (.bytesPerformed n t id) s = .next u ∧ c.elems[i]? = some e ∧ lies s n e.va e.len kRead pa ∧
      wrote (storage c.kind x) (storage c.kind (u.tile p)) (c.base + e.tile) (Store.getN 0 s.mem pa e.len) ∧
      GoesOn x (u.tile p) c (c.elems.eraseIdx i) (s.slot n).rcc ∧ Store.get 0 c.sw (u.tile p).sw = Claims.after x c e.len ∧ u.mem = s.mem := by
  intro x p
  obtain ⟨hmem, hid⟩ := State.cmdAt_mem hcmd
  obtain ⟨i, e, pa, v, htick, hget, hl, heq⟩ := State.performIn_reads hcw hel hclean hlies
  obtain ⟨z, q, hland, hcount, hwrote, hnames, helems, hqerr, hqpat⟩ :=
    State.landIn_plain (n := n) (t := t) htick hpat herr (c.elems.eraseIdx i) e (Store.getN 0 s.mem pa e.len)
  rw [hland] at heq
  have hslots : (v.setTileAt n t z).slots = s.slots := htick.slots
  have htile : (v.setTileAt n t z).tileAt n t = z := v.tileAt_setTileAt n t z
  obtain ⟨hcounted, hslots'⟩ := State.countBytes_counted hslots (htile.symm ▸ hcount) e.len
  obtain ⟨y, hstep, hgoes, hsw, hsram, hopmem⟩ := State.stepCopy_goes hslots' hcounted hmem hnames hqerr hqpat
  have hstorage : storage c.kind y = storage c.kind z := by
    rw [storage, storage, hsram, hopmem, State.countBytes, State.tileAt_setTileAt, htile]
    rfl
  rw [hstep] at heq
  refine ⟨_, i, e, pa, (exec_bytesPerformed_in hcmd hcw hk).trans (congrArg Host.Outcome.next heq), hget, hl, ?_, ?_, ?_, ?_⟩
  · rw [State.tile_setTileAt hslots', hstorage]
    exact hwrote
  · rw [State.tile_setTileAt hslots', ← show q.elems = c.elems.eraseIdx i from helems]
    exact hgoes
  · rw [State.tile_setTileAt hslots']
    exact hsw
  · exact htick.mem

/-! ### Patterns of CPSLOT (R225) -/

/-- The bytes that a pattern makes, element by element. -/
theorem Tile.extract_lane (x : Tile) (q : Cmd) (pat : BitVec 576) (ty : Nat) :
    (x.extract q pat ty).length = patLanes pat q.gather * elemBits ty / 8 ∧
      ∀ j, j < patLanes pat q.gather → elemBits ty * (j + 1) ≤ 8 * (patLanes pat q.gather * elemBits ty / 8) → laneOf (elemBits ty) (x.extract q pat ty) j =
        if (bfxBytes pat j).any (fun b => q.ranges.any (fun r => decide (r.1 ≤ b ∧ b < r.1 + r.2))) then
          laneOf (elemBits ty) (Store.getN 0 x.opmem q.base (patLanes pat q.gather * elemBits ty / 8)) j
        else bfxElem pat (elemBits ty) (leNat q.gather) j % 2 ^ elemBits ty := by
  refine ⟨length_leBytes _ _, fun j hj hfits => ?_⟩
  obtain ⟨m, hm⟩ := Nat.exists_eq_add_of_le hfits
  rw [laneOf, Tile.extract]
  dsimp only
  rw [leNat_leBytes, show (256 : Nat) = 2 ^ 8 from rfl, ← pow_mul, show 8 * q.gather.length / bfxPeriod pat * bfxNfld pat = patLanes pat q.gather from rfl, hm, Nat.mul_succ,
    Nat.add_assoc, Nat.pow_add, Nat.mod_mul_right_div_self, Nat.mod_mod_of_dvd _ (pow_dvd_pow 2 (Nat.le_add_right _ m)), packLanes_div_mod,
    List.getD_eq_getElem _ _ (by simpa using hj), List.getElem_map, List.getElem_range]
  simp only [Bool.decide_and]
  split
  · rw [laneOf, bits, Nat.mod_mod]
  · rfl

theorem State.landIn_gathers {pat : BitVec 576} {ty : Nat} (hpat : c.pat = some (pat, ty)) (es : List Elem) (e : Elem) {bs : List Byte} (hlen : bs.length = e.len) :
    v.landIn n t { c with elems := es } e bs =
      (v, { c with elems := es, gather := c.gather.take e.tile ++ bs ++ c.gather.drop (e.tile + e.len) }) := by
  have hsome : (({ c with elems := es } : Cmd).pat.isSome) = true := by rw [show ({ c with elems := es } : Cmd).pat = some (pat, ty) from hpat]; rfl
  rw [State.landIn, if_pos hsome, hlen]

/-- A copy with a pattern goes on, or makes its bytes as it ends. -/
theorem State.stepCopy_extracts {pat : BitVec 576} {ty : Nat} (hslots : v.slots = s.slots) (h : Counted (s.tileAt n t) (v.tileAt n t) c w) (hc : c ∈ (s.tileAt n t).cmds)
    (hk : k.names = c.names) (herr : k.err = 0) (hpat : k.pat = some (pat, ty)) :
    ∃ (u : State) (y : Tile), v.stepCopy n t k = u.setTileAt n t y ∧ u.slots = s.slots ∧ u.mem = v.mem ∧ GoesOn (s.tileAt n t) y c k.elems (s.slot n).rcc ∧ Store.get 0 c.sw y.sw = w ∧
      (k.elems ≠ [] → y.opmem = (v.tileAt n t).opmem ∧ k ∈ y.cmds) ∧
      (k.elems = [] → wrote (v.tileAt n t).opmem y.opmem k.base ((v.tileAt n t).extract k pat ty)) := by
  have hid : k.id = c.id := congrArg Prod.fst hk
  rw [State.stepCopy]
  cases hel : k.elems with
  | nil =>
    obtain ⟨x, hx⟩ : ∃ x, (v.tileAt n t).wrOp k.base ((v.tileAt n t).extract k pat ty) = x := ⟨_, rfl⟩
    have hstored : Counted (s.tileAt n t) ((v.setTileAt n t x).tileAt n t) c w := by
      rw [State.tileAt_setTileAt, ← hx]
      exact h.storage rfl rfl rfl
    obtain ⟨heq, hends⟩ := State.endCommand_ends (v := v.setTileAt n t x) hslots hstored hk (code := 0) (by decide)
    have hcopy : v.endCopy n t k = (v.setTileAt n t x).endCommand n t k 0 := by
      rw [State.endCopy, hpat]
      simp only [herr, hx]
    rw [heq, State.tile_setTileAt (show (v.setTileAt n t x).slots = s.slots from hslots), swStatus_zero, State.tileAt_setTileAt] at hends
    rw [State.tileAt_setTileAt] at heq
    refine ⟨_, _, hcopy.trans heq, hslots, rfl, hends.goesOn, (hends.status c.sw).trans (if_pos rfl), fun hne => absurd rfl hne, fun _ => ?_⟩
    show wrote _ x.opmem _ _
    rw [← hx]
    exact wrote_opmem _ _ _
  | cons e es =>
    have hne : k.elems ≠ [] := by rw [hel]; exact List.cons_ne_nil _ _
    have hgoes := h.goes (rcc := (s.slot n).rcc) hc hid hne
    rw [hel] at hgoes
    refine ⟨v, _, rfl, hslots, rfl, hgoes, (h.sw c.sw).trans (if_pos rfl), fun _ => ⟨rfl, ?_⟩, fun he => absurd he (List.cons_ne_nil _ _)⟩
    show k ∈ (v.tileAt n t).cmds.map _
    rw [h.cmds]
    exact List.mem_map.mpr ⟨c, hc, if_pos hid.symm⟩

theorem copySlot_performed {pat : BitVec 576} {ty : Nat} (hcmd : s.cmdAt n t id = some c) (hk : c.kind = .cpslot) (hpat : c.pat = some (pat, ty)) (hcw : c.cw = none)
    (herr : c.err = 0) (hel : c.elems ≠ []) (hclean : clean s)
    (hlies : ∀ e, e ∈ c.elems → e.half = false ∧ ∃ pa, lies s n e.va e.len kRead pa ∧ s.readTurn n t c [(pa, e.len)] = true) :
    let x := s.tileAt n t
    let p := (s.slot n).phys t
    ∃ u i e pa, exec (.bytesPerformed n t id) s = .next u ∧ c.elems[i]? = some e ∧ lies s n e.va e.len kRead pa ∧ u.mem = s.mem ∧
      let rest := c.elems.eraseIdx i
      let g := c.gather.take e.tile ++ Store.getN 0 s.mem pa e.len ++ c.gather.drop (e.tile + e.len)
      let y := u.tile p
      GoesOn x y c rest (s.slot n).rcc ∧ Store.get 0 c.sw y.sw = Claims.after x c e.len ∧
      (rest ≠ [] → y.opmem = x.opmem ∧ { c with elems := rest, gather := g } ∈ y.cmds) ∧
      (rest = [] → ∃ bs, bs.length = patLanes pat g * elemBits ty / 8 ∧ wrote x.opmem y.opmem c.base bs ∧
        ∀ j, j < patLanes pat g → elemBits ty * (j + 1) ≤ 8 * bs.length → laneOf (elemBits ty) bs j =
          if (bfxBytes pat j).any (fun b => c.ranges.any (fun r => decide (r.1 ≤ b ∧ b < r.1 + r.2))) then laneOf (elemBits ty) (Store.getN 0 x.opmem c.base bs.length) j
          else bfxElem pat (elemBits ty) (leNat g) j % 2 ^ elemBits ty) := by
  intro x p
  obtain ⟨hmem, hid⟩ := State.cmdAt_mem hcmd
  obtain ⟨i, e, pa, v, htick, hget, hl, heq⟩ := State.performIn_reads hcw hel hclean hlies
  rw [State.landIn_gathers hpat _ _ (Store.length_getN ..)] at heq
  obtain ⟨q, hq⟩ : ∃ q : Cmd, { c with elems := c.elems.eraseIdx i, gather := c.gather.take e.tile ++ Store.getN 0 s.mem pa e.len ++ c.gather.drop (e.tile + e.len) } = q := ⟨_, rfl⟩
  have htile := htick.tileAt n t
  have hcount : Counted (s.tileAt n t) (v.tileAt n t) c (Store.get 0 c.sw (s.tileAt n t).sw) := by
    rw [htile]
    exact Counted.of_same rfl rfl rfl c
  obtain ⟨hcounted, hslots⟩ := State.countBytes_counted htick.slots hcount e.len
  obtain ⟨u, y, hstep, huslots, humem, hgoes, hsw, hmore, hlast⟩ := State.stepCopy_extracts (k := q) hslots hcounted hmem (hq ▸ rfl) (by rw [← hq]; exact herr) (by rw [← hq]; exact hpat)
  have hop : ((v.countBytes n t c e.len).tileAt n t).opmem = x.opmem := by
    rw [State.countBytes, State.tileAt_setTileAt, htile]
    rfl
  have hqe : q.elems = c.elems.eraseIdx i := hq ▸ rfl
  have hqb : q.base = c.base := hq ▸ rfl
  have hqg : q.gather = c.gather.take e.tile ++ Store.getN 0 s.mem pa e.len ++ c.gather.drop (e.tile + e.len) := hq ▸ rfl
  have hqr : q.ranges = c.ranges := hq ▸ rfl
  rw [hq, hstep] at heq
  rw [hqe] at hgoes hmore hlast
  obtain ⟨hlen, hlane⟩ := ((v.countBytes n t c e.len).tileAt n t).extract_lane q pat ty
  rw [hop] at hmore hlast hlane
  rw [hqb] at hlast hlane
  rw [hqr] at hlane
  refine ⟨_, i, e, pa, (exec_bytesPerformed_in hcmd hcw (.inr (.inl hk))).trans (congrArg Host.Outcome.next heq), hget, hl, humem.trans htick.mem, ?_⟩
  rw [State.tile_setTileAt huslots]
  dsimp only
  rw [hq, ← hqg]
  refine ⟨hgoes, hsw, hmore, fun hrest => ⟨_, hlen, hlast hrest, ?_⟩⟩
  rw [hlen]
  exact hlane

/-! ### Completion words (R241, R242) -/

theorem Tile.mem_putCmd {x : Tile} (hc : c ∈ x.cmds) (hid : k.id = c.id) : k ∈ (x.putCmd k).cmds := List.mem_map.mpr ⟨c, hc, if_pos hid.symm⟩

theorem completionWord_armed {va pa : Nat} (hcmd : s.cmdAt n t id = some c) (hcw : c.cw = some va) (hnone : c.cwArmed = none) (hclean : clean s)
    (hlies : liesAt s n va kAtomic pa) (harm : swArm (BitVec.ofNat 64 (word s.mem pa 8)) c.n = some w) :
    ∃ u, exec (.bytesPerformed n t id) s = .next u ∧
      wrote s.mem u.mem pa (leBytes 8 (swPerform w (phaseOf (BitVec.ofNat 64 (word s.mem pa 8))) (c.n - (c.elems.map Elem.len).sum)).toNat) ∧
      ∃ k, k ∈ (u.tile ((s.slot n).phys t)).cmds ∧ k = { c with cwArmed := some (phaseOf (BitVec.ofNat 64 (word s.mem pa 8))) } := by
  obtain ⟨hmem, -⟩ := State.cmdAt_mem hcmd
  obtain ⟨u, hu⟩ : ∃ u, s.syeWrite pa (leBytes 8 (swPerform w (phaseOf (BitVec.ofNat 64 (word s.mem pa 8))) (c.n - (c.elems.map Elem.len).sum)).toNat) [] = u := ⟨_, rfl⟩
  have htile : u.tileAt n t = s.tileAt n t := hu ▸ rfl
  have hslots : u.slots = s.slots := hu ▸ rfl
  have hop := State.syeOp_lies hclean hlies (s.tileDie n t) 8 (fun v => some (armWord (BitVec.ofNat 64 v) c.n c.outside).toNat)
  have hword : armWord (BitVec.ofNat 64 (word s.mem pa 8)) c.n c.outside =
      swPerform w (phaseOf (BitVec.ofNat 64 (word s.mem pa 8))) (c.n - (c.elems.map Elem.len).sum) := by rw [armWord, harm, Cmd.outside]
  dsimp only at hop
  rw [hword, hu] at hop
  have hread : BitVec.ofNat 64 (leNat (Store.getN 0 s.mem pa 8)) = BitVec.ofNat 64 (word s.mem pa 8) := rfl
  have harmed : s.armCw n t c va =
      u.setTileAt n t ((u.tileAt n t).putCmd { c with cwArmed := some (phaseOf (BitVec.ofNat 64 (word s.mem pa 8))) }) := by
    rw [State.armCw, hop]
    simp only [hread, harm, Option.isNone_some, Bool.false_eq_true, if_false]
  have hexec : exec (.bytesPerformed n t id) s = .next (s.armCw n t c va) := by
    change execBytesPerformed n t id s = _
    rw [execBytesPerformed, hcmd]
    simp only [hcw, hnone]
  refine ⟨_, hexec.trans (congrArg Host.Outcome.next harmed), hu ▸ s.wrPhys_wrote pa _ [], _, ?_, rfl⟩
  rw [State.tile_setTileAt hslots, htile]
  exact Tile.mem_putCmd hmem rfl

/-! ### Copies out -/

theorem State.stepCopy_any (hslots : v.slots = s.slots) (h : Counted (s.tileAt n t) (v.tileAt n t) c w) (hc : c ∈ (s.tileAt n t).cmds) (hk : k.names = c.names)
    (herr : k.err = 0) : ∃ (u : State) (y : Tile), v.stepCopy n t k = u.setTileAt n t y ∧ u.slots = s.slots ∧ u.mem = v.mem ∧
      GoesOn (s.tileAt n t) y c k.elems (s.slot n).rcc ∧ Store.get 0 c.sw y.sw = w := by
  cases hpat : k.pat with
  | none =>
    obtain ⟨y, hstep, hgoes, hsw, -, -⟩ := State.stepCopy_goes hslots h hc hk herr hpat
    exact ⟨v, y, hstep, hslots, rfl, hgoes, hsw⟩
  | some p =>
    obtain ⟨u, y, hstep, hu, hmem, hgoes, hsw, -, -⟩ := State.stepCopy_extracts (pat := p.1) (ty := p.2) hslots h hc hk herr hpat
    exact ⟨u, y, hstep, hu, hmem, hgoes, hsw⟩

theorem copyOut_performed {e : Elem} {rest : List Elem} {pa : Nat} (hcmd : s.cmdAt n t id = some c) (hk : c.kind = .cpout ∨ c.kind = .xpost) (hcw : c.cw = none)
    (herr : c.err = 0) (hel : c.elems = e :: rest) (hclean : clean s) (hhalf : e.half = false) (hbad : e.bad = []) (hlen : e.data.length = e.len)
    (hlies : lies s n e.va e.len kWrite pa) (hturn : s.inTurn n t c [(pa, e.len)] = true) (hpost : s.postTurn n t c = true) :
    ∃ u, exec (.bytesPerformed n t id) s = .next u ∧ wrote s.mem u.mem pa e.data ∧ GoesOn (s.tileAt n t) (u.tile ((s.slot n).phys t)) c rest (s.slot n).rcc ∧
      Store.get 0 c.sw (u.tile ((s.slot n).phys t)).sw = Claims.after (s.tileAt n t) c e.len := by
  obtain ⟨hmem, -⟩ := State.cmdAt_mem hcmd
  have hwrite := State.gwrite_lies (s := s) (data := e.data) (hlen.symm ▸ hlies) hclean.2 (s.tileDie n t)
  obtain ⟨u, hu⟩ : ∃ u, s.syeWrite pa e.data [] = u := ⟨_, rfl⟩
  have htile : u.tileAt n t = s.tileAt n t := hu ▸ rfl
  have hslots : u.slots = s.slots := hu ▸ rfl
  rw [hu] at hwrite
  have hcount (v : State) : v.countCw n t c e.len = v := by rw [State.countCw, hcw]
  have hwait : s.cwWait n t c = none := by rw [State.cwWait, hcw]
  have hout : s.performOut n t c = (u.countBytes n t c e.len).stepCopy n t { c with elems := rest } := by
    rw [State.performOut, hel]
    simp only [hlies.1, hturn, hwait, hpost, State.meetHalf, State.outBytes, hhalf, hbad, hwrite, hcount, Bool.not_true, Bool.or_self, Bool.false_eq_true, if_false, List.isEmpty_nil, if_true]
  have hexec : exec (.bytesPerformed n t id) s = .next (s.performOut n t c) := by
    change execBytesPerformed n t id s = _
    rw [execBytesPerformed, hcmd]
    rcases hk with hk | hk
    · simp only [hcw, hk]
    · simp only [hcw, hk]
  obtain ⟨hcounted, hslots'⟩ := State.countBytes_counted hslots (by rw [htile]; exact Counted.of_same rfl rfl rfl c) e.len
  obtain ⟨v, y, hstep, hvslots, hvmem, hgoes, hsw⟩ := State.stepCopy_any (k := { c with elems := rest }) hslots' hcounted hmem rfl herr
  have hwrote : wrote s.mem u.mem pa e.data := hu ▸ s.wrPhys_wrote pa e.data []
  rw [hout, hstep] at hexec
  refine ⟨_, hexec, ?_, ?_, ?_⟩
  · show wrote s.mem v.mem pa e.data
    rw [hvmem]
    exact hwrote
  · rw [State.tile_setTileAt hvslots]
    exact hgoes
  · rw [State.tile_setTileAt hvslots]
    exact hsw

end Sys2Proof.Machine
end

section
/-! PROOFS. Operations at a home SYE: atomics, ACQ, REL and BINDSO, and waits that end with TIMEOUT (R61, R68 to R73, R230 to R233, R240, R246 to R248). -/

namespace Sys2Proof.Machine
open Sys2Proof.Claims

variable {s v : State} {n t id : Nat} {c k : Cmd} {w : Word}

theorem MsgStands.translate (h : MsgStands s v) (ctx va kind : Nat) : v.translate ctx va kind = s.translate ctx va kind := by
  rw [← h.rest]
  rfl

theorem MsgStands.tileAt (h : MsgStands s v) (n t : Nat) : v.tileAt n t = s.tileAt n t := by
  rw [← h.rest]
  rfl

theorem MsgStands.slots (h : MsgStands s v) : v.slots = s.slots := (congrArg State.slots h.rest :)

theorem State.setTileAt_only (s : State) (n t : Nat) (y : Tile) : TileOnly s (s.setTileAt n t y) ((s.slot n).phys t) y where
  tile := State.setTile_tile_same s _ y
  others := fun _ hq => State.setTile_tile_other s hq y
  rest := rfl

theorem exec_syeOperation (hcmd : s.cmdAt n t id = some c) : exec (.syeOperation n t id) s = .next (match c.kind with
    | .atom => s.doAtom n t c
    | .vatom => s.doLine n t c
    | .acq | .acqCw => s.doAcq n t c
    | .rel => if c.remote then s else if s.relFar n c then s.setTileAt n t ((s.tileAt n t).putCmd { c with remote := true }) else s.doRel n t c
    | .bindso => s.doBindso n t c
    | _ => s) := by
  change execSyeOperation n t id s = _
  rw [execSyeOperation, hcmd] <;> rfl

/-- A command whose order completes its status word ends. -/
theorem State.endAtRetire_ends (hslots : v.slots = s.slots) (htile : v.tileAt n t = s.tileAt n t) (c : Cmd) (code : Nat) (effs : List Eff) :
    ∃ y, v.endAtRetire n t c code effs = v.setTileAt n t y ∧ EndsAtRetire (s.tileAt n t) y c (s.slot n).rcc code effs := by
  refine ⟨_, rfl, ?_⟩
  have hrcc : (v.slot n).rcc = (s.slot n).rcc := by rw [State.slot, hslots, State.slot]
  rw [htile, hrcc]
  exact endsAtRetire_of rfl rfl rfl code effs

/-- A command whose last bytes are performed ends with its status word counted. -/
theorem State.countEnd_ends (hslots : v.slots = s.slots) (htile : v.tileAt n t = s.tileAt n t) (c : Cmd) (len : Nat) :
    ∃ y, (v.countBytes n t c len).endCommand n t c 0 = (v.countBytes n t c len).setTileAt n t y ∧
      Ends (s.tileAt n t) y c (s.slot n).rcc (Claims.after (s.tileAt n t) c len) := by
  obtain ⟨hcounted, hslots'⟩ := State.countBytes_counted hslots (by rw [htile]; exact Counted.of_same rfl rfl rfl c) len
  obtain ⟨heq, hends⟩ := State.endCommand_ends hslots' hcounted (k := c) rfl (code := 0) (by decide)
  rw [heq, State.tile_setTileAt hslots', swStatus_zero] at hends
  exact ⟨_, heq, hends⟩

/-- A command that fails ends with its code. -/
theorem State.failEnd_ends (hslots : v.slots = s.slots) (htile : v.tileAt n t = s.tileAt n t) (c : Cmd) {code : Nat} (hcode : code ≠ 1) :
    ∃ y, v.endCommand n t c code = v.setTileAt n t y ∧ Ends (s.tileAt n t) y c (s.slot n).rcc (failed (s.tileAt n t) c code) := by
  obtain ⟨heq, hends⟩ := State.endCommand_ends hslots (by rw [htile]; exact Counted.of_same rfl rfl rfl c) (k := c) rfl hcode
  rw [heq, State.tile_setTileAt hslots] at hends
  exact ⟨_, heq, hends⟩

/-! ### Atomics (R246 to R248) -/

theorem atom_performed {pa : Nat} (hcmd : s.cmdAt n t id = some c) (hk : c.kind = .atom) (hclean : clean s) (hlies : liesAt s n c.va kAtomic pa)
    (hturn : s.inTurn n t c [(pa, c.size)] = true) :
    ∃ u, exec (.syeOperation n t id) s = .next u ∧ wroteOpt s.mem u.mem pa c.size (atomNew c.op c.size c.opd c.cmp (word s.mem pa c.size)) ∧
      (c.ret = false → Ends (s.tileAt n t) (u.tile ((s.slot n).phys t)) c (s.slot n).rcc (Claims.after (s.tileAt n t) c c.size)) ∧
      (c.ret = true → EndsAtRetire (s.tileAt n t) (u.tile ((s.slot n).phys t)) c (s.slot n).rcc 0
        [.sram c.eng c.base (leBytes 8 (word s.mem pa c.size)), .bufFull c.buf]) := by
  have hop := State.syeOp_lies hclean hlies (s.tileDie n t) c.size (atomNew c.op c.size c.opd c.cmp)
  have hwrote := State.syeOp_wrote hclean hlies (s.tileDie n t) c.size (atomNew c.op c.size c.opd c.cmp)
  have hstands := State.syeOp_stands hclean hlies (s.tileDie n t) c.size (atomNew c.op c.size c.opd c.cmp)
  have hdone := congrArg Prod.snd hop
  generalize hr : s.syeOp (s.tileDie n t) n c.va c.size (atomNew c.op c.size c.opd c.cmp) = r at hwrote hstands hdone
  obtain ⟨v, g⟩ := r
  obtain rfl : g = .done (Store.getN 0 s.mem pa c.size) := hdone
  have hexec := exec_syeOperation hcmd
  have hatom : s.doAtom n t c = if c.ret then v.endAtRetire n t c 0 [.sram c.eng c.base (leBytes 8 (word s.mem pa c.size)), .bufFull c.buf]
      else (v.countBytes n t c c.size).endCommand n t c 0 := by
    rw [State.doAtom]
    simp only [hlies.1, hturn, hr, Bool.not_true, Bool.false_eq_true, if_false]
    rfl
  simp only [hk] at hexec
  rw [hatom] at hexec
  cases hret : c.ret with
  | true =>
    obtain ⟨y, heq, hends⟩ := State.endAtRetire_ends hstands.slots (hstands.tileAt n t) c 0 [.sram c.eng c.base (leBytes 8 (word s.mem pa c.size)), .bufFull c.buf]
    rw [hret, if_pos rfl, heq] at hexec
    refine ⟨_, hexec, hwrote, fun h => (Bool.noConfusion h), fun _ => ?_⟩
    rw [State.tile_setTileAt hstands.slots]
    exact hends
  | false =>
    obtain ⟨y, heq, hends⟩ := State.countEnd_ends hstands.slots (hstands.tileAt n t) c c.size
    rw [hret, if_neg Bool.false_ne_true, heq] at hexec
    refine ⟨_, hexec, hwrote, fun _ => ?_, fun h => (Bool.noConfusion h)⟩
    rw [State.tile_setTileAt (show (v.countBytes n t c c.size).slots = s.slots from hstands.slots)]
    exact hends

/-- The value that one lane of a vector atomic leaves in memory. -/
def laneWrite (c : Cmd) (pa : Nat → Nat) (m : Store Byte) (l : Nat × Nat) : Store Byte :=
  match atomNew c.op c.size l.2 0 (word m (pa l.1) c.size) with
  | some v => Store.putL 0 m (pa l.1) (leBytes c.size v)
  | none => m

/-- The lanes of a line are performed one after another. -/
theorem State.doLanes_performed (die ctx : Nat) (c : Cmd) (pa : Nat → Nat) : ∀ (ls : List (Nat × Nat)) (s : State), clean s →
    (∀ l, l ∈ ls → liesAt s ctx l.1 kAtomic (pa l.1)) →
      ∃ v bs, s.doLanes die ctx c ls = (v, .done bs) ∧ v.mem = ls.foldl (laneWrite c pa) s.mem ∧ MsgStands s v
  | [], s, hclean, _ => ⟨s, [], rfl, rfl, MsgStands.refl hclean.1⟩
  | l :: ls, s, hclean, hlies => by
    have hl := hlies l List.mem_cons_self
    have hop := State.syeOp_lies hclean hl die c.size (fun old => atomNew c.op c.size l.2 0 old)
    have hstands := State.syeOp_stands hclean hl die c.size (fun old => atomNew c.op c.size l.2 0 old)
    have hmem : (s.syeOp die ctx l.1 c.size (fun old => atomNew c.op c.size l.2 0 old)).1.mem = laneWrite c pa s.mem l := by
      rw [hop, laneWrite]
      dsimp only
      cases atomNew c.op c.size l.2 0 (word s.mem (pa l.1) c.size) with
      | none => rfl
      | some v => rfl
    have hdone := congrArg Prod.snd hop
    generalize hr : s.syeOp die ctx l.1 c.size (fun old => atomNew c.op c.size l.2 0 old) = r at hstands hmem hdone
    obtain ⟨u, g⟩ := r
    obtain rfl : g = .done (Store.getN 0 s.mem (pa l.1) c.size) := hdone
    obtain ⟨v, bs, hrun, hvmem, hv⟩ := State.doLanes_performed die ctx c pa ls u ⟨hstands.clean, hstands.snaps.trans hclean.2⟩
      fun m hm => ⟨(hstands.translate _ _ _).trans (hlies m (List.mem_cons_of_mem _ hm)).1, (hlies m (List.mem_cons_of_mem _ hm)).2⟩
    refine ⟨v, bs, ?_, ?_, hstands.trans hv⟩
    · rw [State.doLanes, hr]
      exact hrun
    · rw [hvmem, List.foldl_cons, hmem]

theorem State.Ticked.translate (h : s.Ticked v) (ctx va kind : Nat) : v.translate ctx va kind = s.translate ctx va kind := by rw [← h]; rfl

theorem vatom_performed {pa : Nat → Nat} (hcmd : s.cmdAt n t id = some c) (hk : c.kind = .vatom) (herr : c.err = 0) (hel : c.elems ≠ []) (hclean : clean s)
    (hlies : ∀ e, e ∈ c.elems → (∃ q, s.translate n e.va kAtomic = .pa q ∧ s.inTurn n t c [(q, 64)] = true) ∧ ∀ l, l ∈ e.lanes → liesAt s n l.1 kAtomic (pa l.1)) :
    ∃ u i e, exec (.syeOperation n t id) s = .next u ∧ c.elems[i]? = some e ∧ u.mem = e.lanes.foldl (laneWrite c pa) s.mem ∧
      GoesOn (s.tileAt n t) (u.tile ((s.slot n).phys t)) c (c.elems.eraseIdx i) (s.slot n).rcc ∧
      Store.get 0 c.sw (u.tile ((s.slot n).phys t)).sw = Claims.after (s.tileAt n t) c e.len := by
  obtain ⟨hmem, -⟩ := State.cmdAt_mem hcmd
  have hlt := s.choose_lt (List.length_pos_iff.mpr hel)
  have htick := s.choose_ticked c.elems.length
  obtain ⟨i, v, hpick⟩ : ∃ i v, s.choose c.elems.length = (i, v) := ⟨_, _, rfl⟩
  rw [hpick] at hlt htick
  obtain ⟨⟨q, hq, hturn⟩, hlanes⟩ := hlies c.elems[i] (List.getElem_mem hlt)
  have hget : c.elems[i]? = some c.elems[i] := List.getElem?_eq_getElem hlt
  generalize c.elems[i] = e at hq hturn hlanes hget
  obtain ⟨u, bs, hrun, humem, hu⟩ := State.doLanes_performed (s.tileDie n t) n c pa e.lanes v
    ⟨(congrArg State.poison htick :).trans hclean.1, (congrArg State.snaps htick :).trans hclean.2⟩ fun l hl => ⟨(htick.translate _ _ _).trans (hlanes l hl).1, (hlanes l hl).2⟩
  have huslots : u.slots = s.slots := hu.slots.trans htick.slots
  have hutile : u.tileAt n t = s.tileAt n t := (hu.tileAt n t).trans (htick.tileAt n t)
  obtain ⟨hcounted, hslots⟩ := State.countBytes_counted huslots (by rw [hutile]; exact Counted.of_same rfl rfl rfl c) e.len
  have hline : s.doLine n t c = if (c.elems.eraseIdx i).isEmpty then (u.countBytes n t c e.len).endCommand n t { c with elems := c.elems.eraseIdx i } 0
      else (u.countBytes n t c e.len).setTileAt n t (((u.countBytes n t c e.len).tileAt n t).putCmd { c with elems := c.elems.eraseIdx i }) := by
    rw [State.doLine, hpick]
    simp only [hget, hq, hturn, hrun, herr, Bool.not_true, Bool.false_eq_true, if_false]
  have hexec := exec_syeOperation hcmd
  simp only [hk] at hexec
  rw [hline] at hexec
  rw [htick.mem] at humem
  cases hrest : c.elems.eraseIdx i with
  | nil =>
    obtain ⟨heq, hends⟩ := State.endCommand_ends hslots hcounted (k := { c with elems := c.elems.eraseIdx i }) rfl (code := 0) (by decide)
    rw [hrest] at heq hends hexec
    rw [heq] at hends
    rw [List.isEmpty_nil, if_pos rfl, heq] at hexec
    rw [swStatus_zero] at hends
    exact ⟨_, i, e, hexec, hget, humem, hrest ▸ hends.goesOn, (hends.status c.sw).trans (if_pos rfl)⟩
  | cons a as =>
    have hne : ({ c with elems := c.elems.eraseIdx i } : Cmd).elems ≠ [] := by
      show c.elems.eraseIdx i ≠ []
      rw [hrest]
      exact List.cons_ne_nil _ _
    have hgoes := hcounted.goes (rcc := (s.slot n).rcc) (k := { c with elems := c.elems.eraseIdx i }) hmem rfl hne
    have hfull : (c.elems.eraseIdx i).isEmpty = false := by rw [hrest]; rfl
    rw [hfull, if_neg Bool.false_ne_true] at hexec
    refine ⟨_, i, e, hexec, hget, humem, ?_, ?_⟩
    · rw [State.tile_setTileAt hslots]
      exact hgoes
    · rw [State.tile_setTileAt hslots]
      exact (hcounted.sw c.sw).trans (if_pos rfl)

end Sys2Proof.Machine
end

section
/-! PROOFS. ACQ, REL and BINDSO at their home SYE, waits that end with TIMEOUT, record fetches and host atomics (R60, R61, R68 to R72, R170, R214, R230 to R233, R240); and the settlement of O55. -/

namespace Sys2Proof.Machine
open Sys2Proof.Claims

variable {s v : State} {n t id : Nat} {c k : Cmd} {w : Word} {pa : Nat}

/-! ### ACQ (R232) -/

section
variable (hcmd : s.cmdAt n t id = some c) (hk : c.kind = .acq ∨ c.kind = .acqCw) (hpoison : s.poison = []) (hsync : s.syncPa n c.va kRead = .pa pa)
  (hwin : isWindow pa = false) (hturn : s.readTurn n t c [(pa, c.size)] = true)
include hcmd hk hpoison hsync hwin hturn

theorem exec_acq : exec (.syeOperation n t id) s = .next (
    if c.kind = .acq && !s.inScopeOf (pa / 8 * 8) n t then s.endAtRetire n t c 3 []
    else if c.kind = .acqCw && (bits (word s.mem pa c.size) 63 1 == 1) != c.want then s
    else s.endAtRetire n t c 0 [.sram c.eng c.base (leBytes 8 (word s.mem pa c.size)), .bufFull c.buf]) := by
  have hexec := exec_syeOperation hcmd
  have hacq : s.doAcq n t c = (if c.kind = .acq && !s.inScopeOf (pa / 8 * 8) n t then s.endAtRetire n t c 3 []
      else if c.kind = .acqCw && (bits (word s.mem pa c.size) 63 1 == 1) != c.want then s
      else s.endAtRetire n t c 0 [.sram c.eng c.base (leBytes 8 (word s.mem pa c.size)), .bufFull c.buf]) := by
    rw [State.doAcq, hsync]
    simp only [hturn, hwin, State.fixLines_clean hpoison, State.linesIn_clean hpoison, Bool.not_true, Bool.false_eq_true, if_false, List.isEmpty_nil]
    rfl
  rw [hexec]
  rcases hk with hk | hk
  · rw [hk]
    exact congrArg Host.Outcome.next (hacq.trans (by rw [hk]))
  · rw [hk]
    exact congrArg Host.Outcome.next (hacq.trans (by rw [hk]))

theorem acq_waits (hcw : c.kind = .acqCw) (hv : (word s.mem pa c.size).testBit 63 ≠ c.want) : exec (.syeOperation n t id) s = .next s := by
  rw [exec_acq hcmd hk hpoison hsync hwin hturn]
  have hne : ((bits (word s.mem pa c.size) 63 1 == 1) != c.want) = true := by rw [bits_one_beq]; exact bne_iff_ne.mpr hv
  simp [hcw, hne]

theorem acq_outOfScope (hacq : c.kind = .acq) (hscope : s.inScopeOf (pa / 8 * 8) n t = false) :
    ∃ u y, exec (.syeOperation n t id) s = .next u ∧ TileOnly s u ((s.slot n).phys t) y ∧ EndsAtRetire (s.tileAt n t) y c (s.slot n).rcc 3 [] := by
  obtain ⟨y, heq, hends⟩ := State.endAtRetire_ends (s := s) (v := s) (n := n) (t := t) rfl rfl c 3 []
  refine ⟨_, y, ?_, s.setTileAt_only n t y, hends⟩
  rw [exec_acq hcmd hk hpoison hsync hwin hturn, ← heq]
  simp [hacq, hscope]

theorem acq_performed (hcw : c.kind = .acqCw → (word s.mem pa c.size).testBit 63 = c.want) (hacq : c.kind = .acq → s.inScopeOf (pa / 8 * 8) n t = true) :
    ∃ u y, exec (.syeOperation n t id) s = .next u ∧ TileOnly s u ((s.slot n).phys t) y ∧
      EndsAtRetire (s.tileAt n t) y c (s.slot n).rcc 0 [.sram c.eng c.base (leBytes 8 (word s.mem pa c.size)), .bufFull c.buf] := by
  obtain ⟨y, heq, hends⟩ := State.endAtRetire_ends (s := s) (v := s) (n := n) (t := t) rfl rfl c 0
    [.sram c.eng c.base (leBytes 8 (word s.mem pa c.size)), .bufFull c.buf]
  refine ⟨_, y, ?_, s.setTileAt_only n t y, hends⟩
  rw [exec_acq hcmd hk hpoison hsync hwin hturn, ← heq]
  rcases hk with h | h
  · simp [h, hacq h]
  · simp [h, bits_one_beq, hcw h]
end

/-! ### REL (R69, R70, R233) -/

section
variable (hcmd : s.cmdAt n t id = some c) (hk : c.kind = .rel) (hsync : s.syncPa n c.va kWrite = .pa pa) (hready : s.relReady n t c (pa / 8 * 8) = true)
include hcmd hk

theorem exec_rel {i : Instr} (hi : i = .relFenceRelease n t id ∨ i = .syeOperation n t id ∧ c.remote = false ∧ s.relFar n c = false) :
    exec i s = .next (s.doRel n t c) := by
  rcases hi with rfl | ⟨rfl, hremote, hfar⟩
  · change execRelFenceRelease n t id s = _
    rw [execRelFenceRelease, hcmd]
    exact congrArg Host.Outcome.next (if_pos hk)
  · have hexec := exec_syeOperation hcmd
    simp only [hk, hremote, hfar, Bool.false_eq_true, if_false] at hexec
    exact hexec

include hsync hready

theorem rel_performed {i : Instr} (hsnaps : s.snaps = []) (hwin : isWindow pa = false) (hscope : s.inScopeOf (pa / 8 * 8) n t = true)
    (hi : i = .relFenceRelease n t id ∨ i = .syeOperation n t id ∧ c.remote = false ∧ s.relFar n c = false) :
    ∃ u, exec i s = .next u ∧ wrote s.mem u.mem pa (leBytes c.size c.opd) ∧
      Ends (s.tileAt n t) (u.tile ((s.slot n).phys t)) c (s.slot n).rcc (Claims.after (s.tileAt n t) c c.size) := by
  have hsnapped : s.snapped (pa / 4096) = false := by rw [State.snapped, hsnaps]; rfl
  obtain ⟨u, hu⟩ : ∃ u, s.syeWrite pa (leBytes c.size c.opd) [] = u := ⟨_, rfl⟩
  have hslots : u.slots = s.slots := hu ▸ rfl
  have htile : u.tileAt n t = s.tileAt n t := hu ▸ rfl
  have hrel : s.doRel n t c = (u.countBytes n t c c.size).endCommand n t c 0 := by
    rw [State.doRel, hsync]
    simp only [hwin, hscope, hready, hsnapped, hu, Bool.not_true, Bool.false_eq_true, if_false]
  obtain ⟨y, heq, hends⟩ := State.countEnd_ends hslots htile c c.size
  refine ⟨_, (exec_rel hcmd hk hi).trans (congrArg Host.Outcome.next (hrel.trans heq)), hu ▸ s.wrPhys_wrote pa _ [], ?_⟩
  rw [State.tile_setTileAt (show (u.countBytes n t c c.size).slots = s.slots from hslots)]
  exact hends

/-- A REL of another package leaves as a message, and that package may refuse it. -/
theorem rel_leaves (hwin : isWindow pa = true) (hrange : s.translateRange n c.va c.size kWrite = .ok [(pa, c.size)]) :
    ∃ u, exec (.relFenceRelease n t id) s = .next u ∧ u.mem = s.mem ∧
      (u.outbox = s.outbox ++ [.message (farPkg pa) 0 (pa % 2 ^ 40) (leBytes c.size c.opd)] ∧
          Ends (s.tileAt n t) (u.tile ((s.slot n).phys t)) c (s.slot n).rcc (Claims.after (s.tileAt n t) c c.size) ∨
        u.outbox = s.outbox ∧ Ends (s.tileAt n t) (u.tile ((s.slot n).phys t)) c (s.slot n).rcc (failed (s.tileAt n t) c 3)) := by
  have htick := s.remoteCode_ticked false
  have hcode := s.remoteCode_write
  generalize hr : s.remoteCode false = r at htick hcode
  obtain ⟨code, v⟩ := r
  have hlen : (leBytes c.size c.opd).length = c.size := length_leBytes _ _
  have hwrite : s.gwrite (s.tileDie n t) n c.va (leBytes c.size c.opd) [] =
      if code = 0 then ({ v with outbox := v.outbox ++ [.message (farPkg pa) 0 (pa % 2 ^ 40) (leBytes c.size c.opd)] }, .done []) else (v, .code code) := by
    rw [State.gwrite, hlen, hrange]
    simp only [List.filter_cons, List.filter_nil, hwin, Bool.not_true, Bool.false_and, Bool.false_eq_true, if_false, List.map_nil, State.writePieces, if_true, hr]
    rw [List.take_of_length_le hlen.le]
    split
    · rfl
    · rfl
  have hdone (u : State) (hg : s.gwrite (s.tileDie n t) n c.va (leBytes c.size c.opd) [] = (u, .done [])) :
      s.doRel n t c = (u.countBytes n t c c.size).endCommand n t c 0 := by
    rw [State.doRel, hsync]
    simp only [hwin, hready, hg, Bool.not_true, Bool.false_eq_true, if_false, if_true]
  have hrefused (u : State) (q : Nat) (hg : s.gwrite (s.tileDie n t) n c.va (leBytes c.size c.opd) [] = (u, .code q)) :
      s.doRel n t c = u.endCommand n t c q := by
    rw [State.doRel, hsync]
    simp only [hwin, hready, hg, Bool.not_true, Bool.false_eq_true, if_false, if_true]
  have hexec := exec_rel hcmd hk (.inl rfl)
  have hvslots : v.slots = s.slots := htick.slots
  have hvtile : v.tileAt n t = s.tileAt n t := htick.tileAt n t
  have hvout : v.outbox = s.outbox := (congrArg State.outbox htick :)
  rcases hcode with h | h
  · obtain rfl : code = 0 := h
    obtain ⟨u, hu⟩ : ∃ u, ({ v with outbox := v.outbox ++ [.message (farPkg pa) 0 (pa % 2 ^ 40) (leBytes c.size c.opd)] } : State) = u := ⟨_, rfl⟩
    have huslots : u.slots = s.slots := by rw [← hu]; exact hvslots
    obtain ⟨y, heq, hends⟩ := State.countEnd_ends (v := u) huslots (by rw [← hu]; exact hvtile) c c.size
    rw [if_pos rfl, hu] at hwrite
    rw [hdone u hwrite, heq] at hexec
    refine ⟨_, hexec, show u.mem = s.mem by rw [← hu]; exact htick.mem, .inl ⟨?_, ?_⟩⟩
    · show u.outbox = _
      rw [← hu, ← hvout]
    · rw [State.tile_setTileAt (show (u.countBytes n t c c.size).slots = s.slots from huslots)]
      exact hends
  · obtain rfl : code = 3 := h
    obtain ⟨y, heq, hends⟩ := State.failEnd_ends (v := v) hvslots hvtile c (code := 3) (by decide)
    rw [if_neg (by decide)] at hwrite
    rw [hrefused v 3 hwrite, heq] at hexec
    refine ⟨_, hexec, htick.mem, .inr ⟨hvout, ?_⟩⟩
    rw [State.tile_setTileAt hvslots]
    exact hends
end

theorem rel_goesOut (hcmd : s.cmdAt n t id = some c) (hk : c.kind = .rel) (hremote : c.remote = false) (hfar : s.relFar n c = true) :
    ∃ u, exec (.syeOperation n t id) s = .next u ∧
      TileOnly s u ((s.slot n).phys t) { s.tileAt n t with cmds := (s.tileAt n t).cmds.map (fun k => if k.id = c.id then { c with remote := true } else k) } := by
  have hexec := exec_syeOperation hcmd
  simp only [hk, hremote, hfar, Bool.false_eq_true, if_false, if_true] at hexec
  refine ⟨_, hexec, ?_⟩
  have hrem := s.setTileAt_only n t ((s.tileAt n t).putCmd { c with remote := true })
  rw [Tile.putCmd] at hrem
  simp only [hk] at hrem ⊢
  exact hrem

/-! ### BINDSO (R68, R230) -/

theorem bindso_misaligned (hcmd : s.cmdAt n t id = some c) (hk : c.kind = .bindso) (hal : c.bindAligned = false) :
    ∃ u, exec (.syeOperation n t id) s = .next u ∧ u.sync = s.sync ∧ Ends (s.tileAt n t) (u.tile ((s.slot n).phys t)) c (s.slot n).rcc (failed (s.tileAt n t) c 9) := by
  have hexec := exec_syeOperation hcmd
  obtain ⟨y, heq, hends⟩ := State.failEnd_ends (s := s) (v := s) (n := n) (t := t) rfl rfl c (code := 9) (by decide)
  have hbind : s.doBindso n t c = s.setTileAt n t y := by rw [State.doBindso, hal, ← heq]; rfl
  simp only [hk, hbind] at hexec
  refine ⟨_, hexec, rfl, ?_⟩
  rw [State.tile_setTileAt rfl]
  exact hends

/-- What the other packages answer to a BINDSO. -/
theorem State.bindAnswer_cases (s : State) (hcode : c.code = 0) : s.Ticked (s.bindAnswer c).2 ∧
    ((s.bindAnswer c).1 = 0 ∨ c.bindFar = true ∧ ((s.bindAnswer c).1 = 3 ∨ isWindow c.opd = true ∧ (s.bindAnswer c).1 = 9)) := by
  rw [State.bindAnswer]
  cases hfar : c.bindFar with
  | false => exact ⟨rfl, .inl rfl⟩
  | true =>
    refine ⟨rfl, ?_⟩
    simp only [Bool.not_true, Bool.false_eq_true, if_false, hcode, beq_self_eq_true, Bool.true_and, true_and]
    split
    · split
      · next h => exact .inr (.inr ⟨h, rfl⟩)
      · exact .inl rfl
    · exact .inr (.inl rfl)
    · exact .inl rfl

theorem bindso_performed (hcmd : s.cmdAt n t id = some c) (hk : c.kind = .bindso) (hal : c.bindAligned = true) (hret : c.ret = true) (hcode : c.code = 0) (hscope : c.scope ≠ 0)
    (hfree : ∀ b, b ∈ s.sync → b.obj ≠ c.opd → b.meetsAny c.ranges = false) :
    ∃ u, exec (.syeOperation n t id) s = .next u ∧
      let binds : Prop := u.sync = s.sync ++ c.ranges.map (bindingOf s n t c) ∧
        Ends (s.tileAt n t) (u.tile ((s.slot n).phys t)) c (s.slot n).rcc (Claims.after (s.tileAt n t) c 1)
      (c.bindFar = false → binds) ∧
      (c.bindFar = true → binds ∨ u.sync = s.sync ∧
        (Ends (s.tileAt n t) (u.tile ((s.slot n).phys t)) c (s.slot n).rcc (failed (s.tileAt n t) c 3) ∨
          isWindow c.opd = true ∧ Ends (s.tileAt n t) (u.tile ((s.slot n).phys t)) c (s.slot n).rcc (failed (s.tileAt n t) c 9))) := by
  have hexec := exec_syeOperation hcmd
  obtain ⟨htick, hans⟩ := s.bindAnswer_cases hcode
  obtain ⟨a, v, hav⟩ : ∃ a v, s.bindAnswer c = (a, v) := ⟨_, _, rfl⟩
  rw [hav] at htick hans
  have hvsync : v.sync = s.sync := (congrArg State.sync htick :)
  simp only [hk] at hexec
  have hfail {q : Nat} (hq : a = q) (h0 : q ≠ 0) (h1 : q ≠ 1) : ∃ u, s.doBindso n t c = u ∧ u.sync = s.sync ∧
      Ends (s.tileAt n t) (u.tile ((s.slot n).phys t)) c (s.slot n).rcc (failed (s.tileAt n t) c q) := by
    obtain ⟨y, heq, hends⟩ := State.failEnd_ends (v := v) htick.slots (htick.tileAt n t) c h1
    have hbind : s.doBindso n t c = v.endCommand n t c q := by
      rw [State.doBindso, hal, hret, hav]
      subst hq
      simp only [Bool.not_true, Bool.false_eq_true, if_false]
      rw [if_pos (bne_iff_ne.mpr h0)]
    refine ⟨_, hbind.trans heq, hvsync, ?_⟩
    rw [State.tile_setTileAt htick.slots]
    exact hends
  rcases hans with h | ⟨hfar, h⟩
  · obtain rfl : a = 0 := h
    have hbs : v.bindings c.scope c.opd c.ranges (v.bindOf n t c) = .ok (s.sync ++ c.ranges.map (bindingOf s n t c)) := by
      have hnone : s.sync.any (fun b => b.obj != c.opd && b.meetsAny c.ranges) = false := List.any_eq_false.mpr fun b hb => by
        by_cases hb' : b.obj = c.opd
        · simp [hb']
        · simp [hfree b hb hb']
      have hof : v.bindOf n t c = bindingOf s n t c := by rw [← htick]; rfl
      rw [State.bindings, if_neg hscope, hvsync, hnone, if_neg Bool.false_ne_true, hof]
    obtain ⟨bs, hbseq⟩ : ∃ bs, s.sync ++ c.ranges.map (bindingOf s n t c) = bs := ⟨_, rfl⟩
    rw [hbseq] at hbs ⊢
    obtain ⟨u, hu⟩ : ∃ u, ({ v with sync := bs } : State) = u := ⟨_, rfl⟩
    have huslots : u.slots = s.slots := by rw [← hu]; exact htick.slots
    have husync : u.sync = bs := by rw [← hu]
    obtain ⟨y, heq, hends⟩ := State.countEnd_ends (v := u) huslots (by rw [← hu]; exact htick.tileAt n t) c 1
    have hbind : s.doBindso n t c = (u.countBytes n t c 1).endCommand n t c 0 := by
      rw [State.doBindso, hal, hret, hav]
      simp only [hcode, hbs, hu, Bool.not_true, bne_self_eq_false, Bool.false_eq_true, if_false]
    rw [hbind, heq] at hexec
    have hdone : ((u.countBytes n t c 1).setTileAt n t y).sync = bs ∧
        Ends (s.tileAt n t) (((u.countBytes n t c 1).setTileAt n t y).tile ((s.slot n).phys t)) c (s.slot n).rcc (Claims.after (s.tileAt n t) c 1) := by
      rw [State.tile_setTileAt (show (u.countBytes n t c 1).slots = s.slots from huslots)]
      exact ⟨husync, hends⟩
    exact ⟨_, hexec, fun _ => hdone, fun _ => .inl hdone⟩
  · rcases h with h | ⟨hwin, h⟩
    · obtain ⟨u, hu, hsync, hends⟩ := hfail h (by decide) (by decide)
      rw [hu] at hexec
      exact ⟨u, hexec, fun hf => (Bool.noConfusion (hf.symm.trans hfar)), fun _ => .inr ⟨hsync, .inl hends⟩⟩
    · obtain ⟨u, hu, hsync, hends⟩ := hfail h (by decide) (by decide)
      rw [hu] at hexec
      exact ⟨u, hexec, fun hf => (Bool.noConfusion (hf.symm.trans hfar)), fun _ => .inr ⟨hsync, .inr ⟨hwin, hends⟩⟩⟩

end Sys2Proof.Machine
end

section
/-! PROOFS. Waits that end with TIMEOUT, record fetches and host atomics (R60, R61, R70 to R72, R170, R214, R240); and the settlement of O55. -/

namespace Sys2Proof.Machine
open Sys2Proof.Claims

variable {s v : State} {n t id : Nat} {c k : Cmd} {w : Word} {pa : Nat}

/-! ### REMOTE_TIMEOUT of a command (R61, R70, R240) -/

theorem exec_remoteTimeout (hcmd : s.cmdAt n t id = some c) (hfar : s.waitsRemote n c = true) (hdue : c.deadline ≤ s.tb) :
    exec (.remoteTimeout n t id) s = .next (match c.kind with
      | .acq | .acqCw | .coll | .fetch => s.endAtRetire n t c 4 []
      | .atom => if c.ret then s.endAtRetire n t c 4 [] else s.endCommand n t c 4
      | .xfetch | .cpin | .cpslot => s.giveUpIn n t c
      | _ => s.endCommand n t c 4) := by
  change execRemoteTimeout n t id s = _
  rw [execRemoteTimeout, hcmd]
  simp only [hfar, decide_eq_true hdue, Bool.and_true, if_true] <;> rfl

/-- A copy in that is given up, element by element. -/
structure GivesUp (s : State) (n t : Nat) (c : Cmd) (f : State × Cmd) : Prop where
  mem : f.1.mem = s.mem
  slots : f.1.slots = s.slots
  tile : Counted (s.tileAt n t) (f.1.tileAt n t) c (Store.get 0 c.sw (s.tileAt n t).sw)
  names : f.2.names = c.names
  same : f.2.kind = c.kind ∧ f.2.pat = c.pat ∧ f.2.buf = c.buf

theorem GivesUp.failIn {f : State × Cmd} (h : GivesUp s n t c f) (e : Elem) : GivesUp s n t c (f.1.failIn n t f.2 e) := by
  rw [State.failIn]
  split
  · exact ⟨h.mem, h.slots, h.tile, h.names, h.same⟩
  · refine ⟨h.mem, h.slots, ?_, h.names, h.same⟩
    rw [State.tileAt_setTileAt]
    exact h.tile.storage rfl rfl rfl

theorem GivesUp.foldl (es : List Elem) {f : State × Cmd} (h : GivesUp s n t c f) : GivesUp s n t c (es.foldl (fun u e => u.1.failIn n t u.2 e) f) := by
  induction es generalizing f with
  | nil => exact h
  | cons e es ih => exact ih (h.failIn e)

/-- It ends with the code, and leaves the failure bit of its buffer. -/
theorem GivesUp.ends {v : State} {k : Cmd} (h : GivesUp s n t c (v, k)) (herr : k.err = 4) : ∃ (u : State) (y : Tile), v.endCopy n t k = u.setTileAt n t y ∧ u.mem = s.mem ∧
    u.slots = s.slots ∧ Ends (s.tileAt n t) y c (s.slot n).rcc (failed (s.tileAt n t) c 4) ∧
    (c.kind = .cpin ∨ c.kind = .xfetch → c.pat = none → (y.buf c.buf).fail = true) := by
  obtain ⟨hmem, hslots, htile, hnames, hkind, hpat, hbuf⟩ := h
  dsimp only at hmem hslots htile hnames hkind hpat hbuf
  have hends {u : State} (hu : u.slots = s.slots) (hut : Counted (s.tileAt n t) (u.tileAt n t) c (Store.get 0 c.sw (s.tileAt n t).sw)) :
      u.endCommand n t k 4 = u.setTileAt n t ((u.tileAt n t).codeEnd k 4 (s.slot n).rcc) ∧
        Ends (s.tileAt n t) ((u.tileAt n t).codeEnd k 4 (s.slot n).rcc) c (s.slot n).rcc (failed (s.tileAt n t) c 4) := by
    obtain ⟨heq, he⟩ := State.endCommand_ends hu hut hnames (code := 4) (by decide)
    rw [heq, State.tile_setTileAt hu] at he
    exact ⟨heq, he⟩
  rw [State.endCopy, hpat]
  cases hp : c.pat with
  | some p =>
    obtain ⟨u, hu⟩ : ∃ u, v.setTileAt n t ((v.tileAt n t).wrOp k.base ((v.tileAt n t).extract k p.1 p.2)) = u := ⟨_, rfl⟩
    have hus : u.slots = s.slots := by rw [← hu]; exact hslots
    obtain ⟨heq, he⟩ := hends hus (by rw [← hu, State.tileAt_setTileAt]; exact htile.storage rfl rfl rfl)
    refine ⟨u, _, ?_, by rw [← hu]; exact hmem, hus, he, fun _ hn => by cases hn⟩
    dsimp only
    rw [hu, herr, heq]
  | none =>
    dsimp only
    rw [hkind, herr]
    by_cases hin : c.kind = .cpin ∨ c.kind = .xfetch
    · have hgo : ((4 : Nat) != 0 && (c.kind == .cpin || c.kind == .xfetch)) = true := by
        rcases hin with h | h
        · rw [h]; rfl
        · rw [h]; rfl
      have hfail : (v.failIn n t k {}).1 = v.setTileAt n t ((v.tileAt n t).failBuf c.buf) := by
        have hslot : ¬ k.kind = .cpslot := by
          rw [hkind]
          rcases hin with h | h
          · rw [h]; decide
          · rw [h]; decide
        rw [State.failIn, if_neg hslot, hbuf]
        rfl
      obtain ⟨u, hu⟩ : ∃ u, v.setTileAt n t ((v.tileAt n t).failBuf c.buf) = u := ⟨_, rfl⟩
      have hut : u.tileAt n t = (v.tileAt n t).failBuf c.buf := by rw [← hu, State.tileAt_setTileAt]
      have hus : u.slots = s.slots := by rw [← hu]; exact hslots
      obtain ⟨heq, he⟩ := hends hus (by rw [hut]; exact htile.storage rfl rfl rfl)
      refine ⟨u, _, ?_, by rw [← hu]; exact hmem, hus, he, fun _ _ => ?_⟩
      · rw [if_pos hgo, hfail, hu, heq]
      · rw [Tile.buf, Tile.codeEnd_bufs, hut]
        exact congrArg Buf.fail (Store.get_put_same _ _ _ _)
    · have hgo : ((4 : Nat) != 0 && (c.kind == .cpin || c.kind == .xfetch)) = false := by
        have h1 : (c.kind == .cpin) = false := beq_eq_false_iff_ne.mpr fun h => hin (.inl h)
        have h2 : (c.kind == .xfetch) = false := beq_eq_false_iff_ne.mpr fun h => hin (.inr h)
        rw [h1, h2]
        rfl
      obtain ⟨heq, he⟩ := hends hslots htile
      refine ⟨v, _, ?_, hmem, hslots, he, fun h => absurd h hin⟩
      rw [if_neg (by rw [hgo]; exact Bool.false_ne_true), heq]

/-- How a command ends at its timeout: with its order (0), at once (1), or as a copy in that is given up (2). -/
def Cmd.timesOut (c : Cmd) : Fin 3 :=
  match c.kind with
  | .acq | .acqCw | .coll | .fetch => 0
  | .atom => if c.ret then 0 else 1
  | .xfetch | .cpin | .cpslot => 2
  | _ => 1

theorem Cmd.timesOut_retires : c.kind = .acq ∨ c.kind = .acqCw ∨ c.kind = .coll ∨ c.kind = .fetch ∨ c.kind = .atom ∧ c.ret = true → c.timesOut = 0 := by
  rintro (h | h | h | h | ⟨h, hr⟩)
  all_goals simp only [Cmd.timesOut, h]
  rw [if_pos hr]

theorem Cmd.timesOut_fails : c.kind = .cpout ∨ c.kind = .xpost ∨ c.kind = .rel ∨ c.kind = .vatom ∨ c.kind = .bindso ∨ c.kind = .atom ∧ c.ret = false → c.timesOut = 1 := by
  rintro (h | h | h | h | h | ⟨h, hr⟩)
  all_goals simp only [Cmd.timesOut, h]
  rw [if_neg (by rw [hr]; exact Bool.false_ne_true)]

theorem Cmd.timesOut_givesUp : c.kind = .cpin ∨ c.kind = .cpslot ∨ c.kind = .xfetch → c.timesOut = 2 := by
  rintro (h | h | h)
  all_goals simp only [Cmd.timesOut, h]

theorem exec_timesOut (hcmd : s.cmdAt n t id = some c) (hfar : s.waitsRemote n c = true) (hdue : c.deadline ≤ s.tb) :
    exec (.remoteTimeout n t id) s = .next (match c.timesOut with
      | 0 => s.endAtRetire n t c 4 []
      | 1 => s.endCommand n t c 4
      | 2 => s.giveUpIn n t c) := by
  refine (exec_remoteTimeout hcmd hfar hdue).trans (congrArg Host.Outcome.next ?_)
  cases hk : c.kind
  case atom =>
    cases hr : c.ret with
    | false => simp only [Cmd.timesOut, hk, hr, Bool.false_eq_true, if_false]
    | true => simp only [Cmd.timesOut, hk, hr, if_true]
  all_goals simp only [Cmd.timesOut, hk]

theorem remoteTimeout_ends (hcmd : s.cmdAt n t id = some c) (hfar : s.waitsRemote n c = true) (hdue : c.deadline ≤ s.tb) :
    ∃ u, exec (.remoteTimeout n t id) s = .next u ∧ u.mem = s.mem ∧
      (c.timesOut = 0 → EndsAtRetire (s.tileAt n t) (u.tile ((s.slot n).phys t)) c (s.slot n).rcc 4 []) ∧
      (c.timesOut ≠ 0 → Ends (s.tileAt n t) (u.tile ((s.slot n).phys t)) c (s.slot n).rcc (failed (s.tileAt n t) c 4)) ∧
      (c.timesOut = 2 → c.kind = .cpin ∨ c.kind = .xfetch → c.pat = none → ((u.tile ((s.slot n).phys t)).buf c.buf).fail = true) := by
  have hexec := exec_timesOut hcmd hfar hdue
  match hk : c.timesOut with
  | 0 =>
    obtain ⟨y, heq, hends⟩ := State.endAtRetire_ends (s := s) (v := s) (n := n) (t := t) rfl rfl c 4 []
    rw [hk] at hexec
    refine ⟨_, hexec.trans (congrArg Host.Outcome.next heq), rfl, fun _ => ?_, fun h => absurd rfl h, fun h => absurd h (by decide)⟩
    rw [State.tile_setTileAt rfl]
    exact hends
  | 1 =>
    obtain ⟨y, heq, hends⟩ := State.failEnd_ends (s := s) (v := s) (n := n) (t := t) rfl rfl c (code := 4) (by decide)
    rw [hk] at hexec
    refine ⟨_, hexec.trans (congrArg Host.Outcome.next heq), rfl, fun h => absurd h (by decide), fun _ => ?_, fun h => absurd h (by decide)⟩
    rw [State.tile_setTileAt rfl]
    exact hends
  | 2 =>
    have hfold : GivesUp s n t c (c.elems.foldl (fun u e => u.1.failIn n t u.2 e) (s, c)) :=
      GivesUp.foldl c.elems ⟨rfl, rfl, Counted.of_same rfl rfl rfl c, rfl, rfl, rfl, rfl⟩
    obtain ⟨f, q, hfq⟩ : ∃ f q, c.elems.foldl (fun u e => u.1.failIn n t u.2 e) (s, c) = (f, q) := ⟨_, _, rfl⟩
    rw [hfq] at hfold
    obtain ⟨u, x, heq, hmem, hslots, hends, hfail⟩ := GivesUp.ends (v := f) (k := { q with elems := [], err := 4 })
      ⟨hfold.mem, hfold.slots, hfold.tile, hfold.names, hfold.same⟩ rfl
    have hgive : s.giveUpIn n t c = u.setTileAt n t x := by rw [State.giveUpIn, hfq, ← heq]
    rw [hk] at hexec
    refine ⟨_, hexec.trans (congrArg Host.Outcome.next hgive), hmem, fun h => absurd h (by decide), fun _ => ?_, fun _ => ?_⟩
    · rw [State.tile_setTileAt hslots]
      exact hends
    · rw [State.tile_setTileAt hslots]
      exact hfail

/-! ### REMOTE_TIMEOUT of a barrier and of a fetch (R61, R170, R214) -/

theorem exec_tileTimeout (hcmd : s.cmdAt n t id = none) : exec (.remoteTimeout n t id) s = .next (((s.fetchTimeout n t 1).fetchTimeout n t 2).podTimeout n t) := by
  change execRemoteTimeout n t id s = _
  rw [execRemoteTimeout, hcmd]

theorem State.fetchTimeout_none {e : Nat} (h : (s.tileAt n t).fetchOf e = none) : s.fetchTimeout n t e = s := by rw [State.fetchTimeout, h]

theorem podBarrier_timesOut {d sw : Nat} (hdue : (s.tileAt n t).podDue = some d) (hd : d ≤ s.tb) (hpeek : (s.tileAt n t).peekSq = some (none, .bar 6 sw))
    (h1 : (s.tileAt n t).fetchOf 1 = none) (h2 : (s.tileAt n t).fetchOf 2 = none) (hcmd : s.cmdAt n t id = none) :
    ∃ u, exec (.remoteTimeout n t id) s = .next u ∧ TileOnly s u ((s.slot n).phys t) { s.tileAt n t with bgate := some ((s.slot n).barCount t 6 + 1) } := by
  have hwait : s.podWait n t = some ((s.slot n).barCount t 6 + 1) := by
    rw [State.podWait, hpeek]
    rfl
  refine ⟨_, (exec_tileTimeout hcmd).trans (congrArg Host.Outcome.next ?_), s.setTileAt_only n t _⟩
  rw [State.fetchTimeout_none h1, State.fetchTimeout_none h2, State.podTimeout, hdue]
  simp only [Option.any_some, decide_eq_true hd, if_true, hwait]

/-- The two engines that fetch records. -/
theorem Tile.fetchOf_setFetch (x : Tile) {e : Nat} (he : e = 1 ∨ e = 2) (f : Option Fetch) : (x.setFetch e f).fetchOf e = f ∧
    (x.setFetch e f).fetchOf (3 - e) = x.fetchOf (3 - e) ∧ { x.setFetch e f with fetchCI := x.fetchCI, fetchCO := x.fetchCO } = x := by
  rcases he with rfl | rfl
  · exact ⟨rfl, rfl, rfl⟩
  · exact ⟨rfl, rfl, rfl⟩

theorem fetch_timesOut {e : Nat} {f : Fetch} (he : e = 1 ∨ e = 2) (hf : (s.tileAt n t).fetchOf e = some f) (hother : (s.tileAt n t).fetchOf (3 - e) = none)
    (hpod : (s.tileAt n t).podDue = none) (hcmd : s.cmdAt n t id = none) (hdone : f.done = none) (hx : s.translate n f.va kRead = .pa pa) (hwin : isWindow pa = true)
    (hdue : f.deadline ≤ s.tb) : ∃ u y, exec (.remoteTimeout n t id) s = .next u ∧ TileOnly s u ((s.slot n).phys t) y ∧ y.fetchOf e = some { f with done := some 4 } ∧
      { y with fetchCI := (s.tileAt n t).fetchCI, fetchCO := (s.tileAt n t).fetchCO } = s.tileAt n t ∧ y.fetchOf (3 - e) = none := by
  obtain ⟨hset, hkeep, hrest⟩ := (s.tileAt n t).fetchOf_setFetch he (some { f with done := some 4 })
  obtain ⟨y, hy⟩ : ∃ y, (s.tileAt n t).setFetch e (some { f with done := some 4 }) = y := ⟨_, rfl⟩
  rw [hy] at hset hkeep hrest
  have hfetch : s.fetchTimeout n t e = s.setTileAt n t y := by
    rw [State.fetchTimeout, hf]
    simp only [hx, hwin, hdone, decide_eq_true hdue, Option.isNone_none, Bool.and_self, if_true, hy]
  have hnopod : (s.setTileAt n t y).podTimeout n t = s.setTileAt n t y := by
    rw [State.podTimeout, State.tileAt_setTileAt, show y.podDue = none by rw [← hpod, ← hrest]]
    rfl
  refine ⟨_, y, (exec_tileTimeout hcmd).trans (congrArg Host.Outcome.next ?_), s.setTileAt_only n t y, hset, hrest, hkeep.trans hother⟩
  rcases he with rfl | rfl
  · rw [hfetch, State.fetchTimeout_none (by rw [State.tileAt_setTileAt]; exact hkeep.trans hother), hnopod]
  · rw [State.fetchTimeout_none hother, hfetch, hnopod]

/-! ### Record fetches (R60, R67, R214) -/

section
variable {u : State} {e va d : Nat} (hf : (s.tileAt n t).fetchOf e = some { va := va, done := none, deadline := d })
include hf

theorem exec_recordFetch_waits (hr : s.fetchRec n t e va (fun _ => true) = (u, none)) : exec (.layoutRecordFetch n t e) s = .next u := by
  change execLayoutRecordFetch n t e s = _
  rw [execLayoutRecordFetch]
  simp only [hf, hr]

theorem exec_recordFetch_done (hr : s.fetchRec n t e va (fun _ => true) = (u, some 0)) :
    exec (.layoutRecordFetch n t e) s = .next (u.setTileAt n t ((u.tileAt n t).setFetch e none)) := by
  change execLayoutRecordFetch n t e s = _
  rw [execLayoutRecordFetch]
  simp only [hf, hr]
end

theorem fetch_cached {e va d : Nat} (he : e = 1 ∨ e = 2) (hf : (s.tileAt n t).fetchOf e = some { va := va, done := none, deadline := d })
    (hcached : ((s.tileAt n t).cached va).isSome = true) : ∃ u y, exec (.layoutRecordFetch n t e) s = .next u ∧ TileOnly s u ((s.slot n).phys t) y ∧ y.fetchOf e = none ∧
      { y with fetchCI := (s.tileAt n t).fetchCI, fetchCO := (s.tileAt n t).fetchCO } = s.tileAt n t := by
  obtain ⟨hset, -, hrest⟩ := (s.tileAt n t).fetchOf_setFetch he none
  exact ⟨_, _, exec_recordFetch_done hf (by rw [State.fetchRec, if_pos hcached]), s.setTileAt_only n t _, hset, hrest⟩

/-- A record that enters a cache that does not hold it is found there. -/
theorem Tile.cached_cacheAt {x : Tile} {va : Nat} (h : x.cached va = none) (i : Nat) (data : List Byte) : (x.cacheAt i va data).cached va = some data := by
  have hnone : ∀ e, e ∈ x.cache → (e.2.valid && e.2.va == va) = false := by
    have hfind : x.cache.find? (fun e => e.2.valid && e.2.va == va) = none := by
      rw [Tile.cached, Option.map_eq_none_iff] at h
      exact h
    exact fun e he => by simpa using List.find?_eq_none.mp hfind e he
  have hins : ∀ (l : Store CacheE), (∀ e, e ∈ l → (e.2.valid && e.2.va == va) = false) →
      (Store.ins i { valid := true, va := va, data := data } l).find? (fun e => e.2.valid && e.2.va == va) = some (i, { valid := true, va := va, data := data }) := by
    intro l
    induction l with
    | nil => intro _; simp [Store.ins]
    | cons a l ih =>
      intro hl
      rw [Store.ins]
      split
      · simp
      · split
        · simp
        · rw [List.find?_cons_of_neg (by rw [hl a List.mem_cons_self]; exact Bool.false_ne_true)]
          exact ih fun e he => hl e (List.mem_cons_of_mem _ he)
  have hput : (x.cacheAt i va data).cache = Store.ins i { valid := true, va := va, data := data } x.cache := by
    rw [Tile.cacheAt, Store.put, if_neg (by intro h; exact absurd (congrArg CacheE.valid h) (by simp))]
  rw [Tile.cached, hput, hins x.cache hnone]
  rfl

theorem fetch_performed {e va d i : Nat} (hf : (s.tileAt n t).fetchOf e = some { va := va, done := none, deadline := d }) (hpoison : s.poison = [])
    (hlies : lies s n va 192 kRead pa) (hfree : (s.tileAt n t).cacheFree = some i) (hmiss : (s.tileAt n t).cached va = none)
    (hclear : s.queueClear n t e (fun _ => true) [(pa, 192)] = true) (hok : recOk (Store.getN 0 s.mem pa 192) = true) :
    ∃ u, exec (.layoutRecordFetch n t e) s = .next u ∧ (u.tile ((s.slot n).phys t)).cached va = some (Store.getN 0 s.mem pa 192) ∧
      (u.tile ((s.slot n).phys t)).fetchOf e = none ∧ u.mem = s.mem ∧ u.slots = s.slots := by
  have hturn : s.recTurn n t e va (fun _ => true) = true := by rw [State.recTurn, hlies.1]; exact hclear
  obtain ⟨u, hu⟩ : ∃ u, s.setTileAt n t ((s.tileAt n t).cacheAt i va (Store.getN 0 s.mem pa 192)) = u := ⟨_, rfl⟩
  have hrec : s.fetchRec n t e va (fun _ => true) = (u, some 0) := by
    rw [State.fetchRec, hmiss, hfree]
    simp only [hturn, State.gread_lies hpoison hlies, hok, hu, Option.isSome_none, Bool.not_true, Bool.false_eq_true, if_false, if_true]
  have htile : u.tileAt n t = (s.tileAt n t).cacheAt i va (Store.getN 0 s.mem pa 192) := by rw [← hu, State.tileAt_setTileAt]
  have hslots : u.slots = s.slots := by rw [← hu]; rfl
  refine ⟨_, exec_recordFetch_done hf hrec, ?_, ?_, by rw [← hu]; rfl, hslots⟩
  · rw [State.tile_setTileAt hslots, htile, ← Tile.cached_cacheAt hmiss i (Store.getN 0 s.mem pa 192), Tile.setFetch]
    split
    · rfl
    · rfl
  · rw [State.tile_setTileAt hslots, Tile.setFetch, Tile.fetchOf]
    split
    · rfl
    · rfl

theorem fetch_waits {e va d i a : Nat} (hf : (s.tileAt n t).fetchOf e = some { va := va, done := none, deadline := d }) (hlies : lies s n va 192 kRead pa)
    (hfree : (s.tileAt n t).cacheFree = some i) (hmiss : (s.tileAt n t).cached va = none) (hmem : k ∈ (s.tileAt n t).cmds) (heng : k.eng = e)
    (hk : k.kind = .acq ∨ k.kind = .acqCw) (hrange : s.translateRange n k.va k.size kRead = .ok [(a, k.size)]) (hlo : a < pa + 192) (hhi : pa < a + k.size) :
    exec (.layoutRecordFetch n t e) s = .next s := by
  have hmeets : s.mayMeet n kRead (k.va, k.size) [(pa, 192)] = true := by
    rw [State.mayMeet, State.meetsAt, hrange]
    simp [meets, hlo, hhi]
  have hsources : k.sources = [(k.va, k.size)] := by
    rcases hk with hk | hk
    · rw [Cmd.sources, hk]
    · rw [Cmd.sources, hk]
  have hclear : s.queueClear n t e (fun _ => true) [(pa, 192)] = false := by
    refine List.all_eq_false.mpr ⟨k, hmem, ?_⟩
    simp [heng, hsources, hmeets]
  refine exec_recordFetch_waits hf ?_
  have hturn : s.recTurn n t e va (fun _ => true) = false := by rw [State.recTurn, hlies.1]; exact hclear
  rw [State.fetchRec, hmiss, hfree]
  simp only [hturn, Option.isSome_none, Bool.not_false, Bool.false_eq_true, if_false, if_true]

/-! ### Host atomics (R72) -/

theorem hostAtomic_performed {vif va op opd cmp : Nat} {e : TlbE} (hp : 2 ≤ s.phase) (htlb : s.tlb.find? (fun k => k.ctx == vifCtx vif && k.covers va) = some e)
    (hatom : pteAtom e.pte = 2) (hva : va % 8 = 0) (hop : op < 3) (hclean : clean s) (hlies : liesAt s (vifCtx vif) va kAtomic pa) :
    ∃ u, exec (.hostRemoteAtomic va op opd cmp vif) s = .next u ∧ wroteOpt s.mem u.mem pa 8 (hostAtomic op opd cmp (word s.mem pa 8)) ∧
      u.outbox = s.outbox ++ [.uec vif true (word s.mem pa 8)] ∧ u.tiles = s.tiles ∧ u.slots = s.slots := by
  obtain ⟨f, hf⟩ : ∃ f : Nat → Option Nat, f = hostAtomic op opd cmp := ⟨_, rfl⟩
  have hdone := congrArg Prod.snd (State.syeOp_lies hclean hlies 0 8 f)
  have hwrote := State.syeOp_wrote hclean hlies 0 8 f
  have hstands := State.syeOp_stands hclean hlies 0 8 f
  generalize hr : s.syeOp 0 (vifCtx vif) va 8 f = r at hdone hwrote hstands
  obtain ⟨v, g⟩ := r
  obtain rfl : g = .done (Store.getN 0 s.mem pa 8) := hdone
  have hno : (pteAtom e.pte != 2 || va % 8 != 0 || decide (3 ≤ op)) = false := by rw [hatom, hva, decide_eq_false (by omega)]; rfl
  have hexec : exec (.hostRemoteAtomic va op opd cmp vif) s = .next { v with outbox := v.outbox ++ [.uec vif true (word s.mem pa 8)] } := by
    change execHostRemoteAtomic va op opd cmp vif s = _
    rw [execHostRemoteAtomic]
    obtain rfl | rfl | rfl : op = 0 ∨ op = 1 ∨ op = 2 := by omega
    · have hadd : s.syeOp 0 (vifCtx vif) va 8 (fun old => some ((old + opd) % 2 ^ 64)) = (v, .done (Store.getN 0 s.mem pa 8)) := by
        rw [← hr, hf]
        rfl
      simp only [State.serves_false hp, htlb, hno, hadd, Bool.false_eq_true, if_false]
      rfl
    · have hswap : s.syeOp 0 (vifCtx vif) va 8 (fun _ => some (opd % 2 ^ 64)) = (v, .done (Store.getN 0 s.mem pa 8)) := by
        rw [← hr, hf]
        rfl
      simp only [State.serves_false hp, htlb, hno, hswap, Bool.false_eq_true, if_false]
      rfl
    · have hcas : s.syeOp 0 (vifCtx vif) va 8 (fun old => if old = cmp % 2 ^ 64 then some (opd % 2 ^ 64) else none) = (v, .done (Store.getN 0 s.mem pa 8)) := by
        rw [← hr, hf]
        rfl
      simp only [State.serves_false hp, htlb, hno, hcas, Bool.false_eq_true, if_false]
      rfl
  rw [hf] at hwrote
  obtain ⟨hout, htiles, hslots, -⟩ := hstands.aside
  exact ⟨_, hexec, hwrote, by rw [← hout], htiles, hslots⟩

end Sys2Proof.Machine

namespace Sys2Proof.Proofs
open Sys2Proof.Machine Sys2Proof.Claims

/-- Settles O55, command by command: an element of a copy (`copyIn_performed`, `copySlot_performed`, `copyOut_performed`), an operation of a home SYE (`atom_performed`
to `bindso_performed`), a timeout, a record fetch and a host atomic. -/
theorem commandEvents : Obligations.CommandEvents := by
  refine ⟨fun s n t id c hcmd => ⟨?_, ?_, ?_, ?_, ?_, ?_, ?_, ?_, ?_, ?_, ?_⟩, fun s n t => ⟨?_, ?_, ?_, ?_, ?_⟩⟩
  · exact fun va pa w hcw hnone hclean hlies harm => completionWord_armed hcmd hcw hnone hclean hlies harm
  · exact fun hk hcw hpat herr hel hclean hlies => copyIn_performed hcmd hk hcw hpat herr hel hclean hlies
  · exact fun pat ty hk hpat hcw herr hel hclean hlies => copySlot_performed hcmd hk hpat hcw herr hel hclean hlies
  · exact fun e rest pa hk hcw herr hel hclean hhalf hbad hlen hlies hturn hpost =>
      copyOut_performed hcmd hk hcw herr hel hclean hhalf hbad hlen hlies hturn hpost
  · exact fun pa hk hclean hlies hturn => atom_performed hcmd hk hclean hlies hturn
  · intro pa hk herr hel hclean hlies
    obtain ⟨u, i, e, hexec, hget, hmem, hgoes, hsw⟩ := vatom_performed hcmd hk herr hel hclean hlies
    exact ⟨u, i, e, hexec, hget, fun k => congrArg (Store.get 0 k) hmem, hgoes, hsw⟩
  · exact fun pa hk hpoison hsync hwin hturn => ⟨fun hcw hv => acq_waits hcmd hk hpoison hsync hwin hturn hcw hv,
      fun hacq hscope => acq_outOfScope hcmd hk hpoison hsync hwin hturn hacq hscope, fun hcw hacq => acq_performed hcmd hk hpoison hsync hwin hturn hcw hacq⟩
  · exact fun pa hk hsnaps hsync hready => ⟨fun hwin hscope i hi => rel_performed hcmd hk hsync hready hsnaps hwin hscope hi,
      fun hwin hrange => rel_leaves hcmd hk hsync hready hwin hrange⟩
  · exact fun hk hremote hfar => rel_goesOut hcmd hk hremote hfar
  · exact fun hk => ⟨fun hal => bindso_misaligned hcmd hk hal, fun hal hret hcode hscope hfree => bindso_performed hcmd hk hal hret hcode hscope hfree⟩
  · intro hfar hdue
    obtain ⟨u, hexec, hmem, hretires, hfails, hbit⟩ := remoteTimeout_ends hcmd hfar hdue
    refine ⟨u, hexec, hmem, fun h => hretires (Cmd.timesOut_retires h), fun h => hfails ?_, fun h => hfails ?_, fun h hpat => hbit (Cmd.timesOut_givesUp ?_) h hpat⟩
    · rw [Cmd.timesOut_fails h]; decide
    · rw [Cmd.timesOut_givesUp h]; decide
    · exact h.imp_right .inr
  · exact fun d sw k hdue hd hpeek h1 h2 hcmd => podBarrier_timesOut hdue hd hpeek h1 h2 hcmd
  · exact fun e f pa k he hf hother hpod hcmd hdone hx hwin hdue => fetch_timesOut he hf hother hpod hcmd hdone hx hwin hdue
  · exact fun e va d he hf hcached => fetch_cached he hf hcached
  · exact fun e va d pa i hf hpoison hlies hfree hmiss => ⟨fun hclear hok => fetch_performed hf hpoison hlies hfree hmiss hclear hok,
      fun k a hmem heng hk hrange hlo hhi => fetch_waits hf hlies hfree hmiss hmem heng hk hrange hlo hhi⟩
  · exact fun vif va op opd cmp pa e hp htlb hatom hva hop hclean hlies => hostAtomic_performed hp htlb hatom hva hop hclean hlies

end Sys2Proof.Proofs
end

section
/-! PROOFS. The canonical form of memory: the operations over the state that every word shares keep it. -/

namespace Sys2Proof.Machine
open Sys2Proof.Claims

/-- What a body leaves is canonical, where it goes on. -/
def Leaves {α : Type} (x : Except Trap (State × α)) : Prop := ∀ r, x = .ok r → Memory.wf r.1.mem
/-- A state that may be missing is canonical. -/
def Given (x : Option State) : Prop := ∀ u, x = some u → Memory.wf u.mem
/-- An outcome leaves memory canonical. -/
def Safe (o : Host.Outcome State Fault Refusal) : Prop := ∀ t, o = .next t → Memory.wf t.mem

@[simp] theorem leaves_error {α : Type} (t : Trap) : Leaves (.error t : Except Trap (State × α)) := fun _ h => nomatch h
@[simp] theorem leaves_ok {α : Type} (r : State × α) : Leaves (.ok r) ↔ Memory.wf r.1.mem := ⟨fun h => h r rfl, fun h _ hx => Except.ok.inj hx ▸ h⟩
@[simp] theorem leaves_ite {α : Type} {c : Prop} [Decidable c] {a b : Except Trap (State × α)} :
    Leaves (if c then a else b) ↔ if c then Leaves a else Leaves b := by split <;> rfl
@[simp] theorem given_none : Given none := fun _ h => nomatch h
@[simp] theorem given_some {t : State} : Given (some t) ↔ Memory.wf t.mem := ⟨fun h => h t rfl, fun h _ hx => Option.some.inj hx ▸ h⟩
@[simp] theorem given_ite {c : Prop} [Decidable c] {a b : Option State} :
    Given (if c then a else b) ↔ if c then Given a else Given b := by split <;> rfl
@[simp] theorem safe_next {t : State} : Safe (.next t) ↔ Memory.wf t.mem := ⟨fun h => h t rfl, fun h _ hx => Host.Outcome.next.inj hx ▸ h⟩
@[simp] theorem safe_ite {c : Prop} [Decidable c] {a b : Host.Outcome State Fault Refusal} :
    Safe (if c then a else b) ↔ if c then Safe a else Safe b := by split <;> rfl
@[simp] theorem wf_ite {c : Prop} [Decidable c] {a b : State} :
    Memory.wf (if c then a else b).mem ↔ if c then Memory.wf a.mem else Memory.wf b.mem := by split <;> rfl

variable {s : State}

/-! ### The operations over memory -/

@[simp] theorem wf_foldl {α : Type} {F : State → α → State} (hs : Memory.wf s.mem) (hF : ∀ u a, Memory.wf u.mem → Memory.wf (F u a).mem) (l : List α) :
    Memory.wf (l.foldl F s).mem := State.foldl_wf F hF l s hs
@[simp] theorem wf_iter {F : State → State} (hF : ∀ u, Memory.wf u.mem → Memory.wf (F u).mem) : ∀ (n : Nat) {s : State},
    Memory.wf s.mem → Memory.wf (iter F n s).mem
  | 0, _, hs => hs
  | n + 1, _, hs => wf_iter hF n (hF _ hs)
@[simp] theorem wf_wrPhys (hs : Memory.wf s.mem) (pa : Nat) (data : List Byte) (bad : List Nat) :
    Memory.wf (s.wrPhys pa data bad).mem := s.wrPhys_wf _ _ _ hs
@[simp] theorem wf_ctxWrite (hs : Memory.wf s.mem) (world pa : Nat) (data : List Byte) (bad : List Nat) :
    Memory.wf (s.ctxWrite world pa data bad).mem := s.ctxWrite_wf _ _ _ _ hs
@[simp] theorem wf_scrubPage (hs : Memory.wf s.mem) (page : Nat) : Memory.wf (s.scrubPage page).mem := s.scrubPage_wf _ hs
@[simp] theorem wf_gread (hs : Memory.wf s.mem) (die ctx va n : Nat) : Memory.wf (s.gread die ctx va n).1.mem := s.gread_wf _ _ _ _ hs
@[simp] theorem wf_gwrite (hs : Memory.wf s.mem) (die ctx va : Nat) (data : List Byte) (bad : List Nat) :
    Memory.wf (s.gwrite die ctx va data bad).1.mem := s.gwrite_wf _ _ _ _ _ hs
@[simp] theorem wf_syeOp (hs : Memory.wf s.mem) (die ctx va n : Nat) (f : Nat → Option Nat) :
    Memory.wf (s.syeOp die ctx va n f).1.mem := s.syeOp_wf _ _ _ _ _ hs
@[simp] theorem wf_wholeWrite (hs : Memory.wf s.mem) (ctx va : Nat) (data : List Byte) :
    Memory.wf (s.wholeWrite ctx va data).1.mem := s.wholeWrite_wf _ _ _ hs
@[simp] theorem wf_ringPut (hs : Memory.wf s.mem) (x : Bounce) (i : Nat) (data : List Byte) :
    Memory.wf (s.ringPut x i data).mem := s.ringPut_wf _ _ _ hs
@[simp] theorem wf_rekey (hs : Memory.wf s.mem) (page old new : Nat) (which : List Byte → Bool) :
    Memory.wf (s.rekey page old new which).mem := s.rekey_wf _ _ _ _ hs

/-! ### Scalar words -/

@[simp] theorem State.correctAt_wf (hs : Memory.wf s.mem) (slot p space addr n : Nat) : Memory.wf (s.correctAt slot p space addr n).mem :=
  (Tame.correctAt s slot p space addr n).mem hs
@[simp] theorem State.setTileAt_wf (hs : Memory.wf s.mem) (n t : Nat) (x : Tile) : Memory.wf (s.setTileAt n t x).mem := hs
@[simp] theorem State.setRegion_wf (hs : Memory.wf s.mem) (r : Slot) : Memory.wf (s.setRegion r).mem := hs
@[simp] theorem State.handlerFault_wf (hs : Memory.wf s.mem) (t : Trap) : Memory.wf (s.handlerFault t).mem := hs
@[simp] theorem State.coreTrap_wf (hs : Memory.wf s.mem) (cause : Nat) : Memory.wf (s.coreTrap cause).mem := by simp [State.coreTrap, hs]
@[simp] theorem State.noteTrap_wf (hs : Memory.wf s.mem) (t : Trap) : Memory.wf (s.noteTrap t).mem := by simp [State.noteTrap, hs]
@[simp] theorem State.takeTrap_wf (hs : Memory.wf s.mem) (t : Trap) : Memory.wf (s.takeTrap t).mem := by simp [State.takeTrap, hs]
@[simp] theorem State.correct_wf (hs : Memory.wf s.mem) (space addr n : Nat) : Memory.wf (s.correct space addr n).mem := by simp [State.correct, hs]
@[simp] theorem State.writeBuf_wf (hs : Memory.wf s.mem) (b off : Nat) (data : List Byte) : Memory.wf (s.writeBuf b off data).mem := hs
@[simp] theorem State.wrSw_wf (hs : Memory.wf s.mem) (n : Nat) (v : Word) : Memory.wf (s.wrSw n v).mem := by simp [State.wrSw, hs]
@[simp] theorem State.taintIf_wf (hs : Memory.wf s.mem) (c : Bool) : Memory.wf (s.taintIf c).mem := by simp [State.taintIf, hs]
@[simp] theorem State.statusWrite_wf (hs : Memory.wf s.mem) (n code : Nat) : Memory.wf (s.statusWrite n code).mem := by simp [State.statusWrite, hs]
@[simp] theorem State.commitScalar_wf (hs : Memory.wf s.mem) (n : Need) (f : Flow) :
    Memory.wf (s.commitScalar n f).mem := by simp [State.commitScalar, hs]
@[simp] theorem State.popFor_wf (hs : Memory.wf s.mem) (c : Ctl) (e : Nat) : Memory.wf (s.popFor c e).mem := by simp [State.popFor, hs]
@[simp] theorem State.scalarWord_wf (hs : Memory.wf s.mem) (n : Need) (body : State → Except Trap (State × Flow)) (hb : ∀ a, Memory.wf a.mem → Leaves (body a)) :
    Memory.wf (s.scalarWord n body).mem := by
  unfold State.scalarWord
  split
  · exact State.takeTrap_wf hs _
  · split
    · exact hs
    · exact State.takeTrap_wf hs _
    · split
      · exact State.takeTrap_wf hs _
      · next r hr => exact State.commitScalar_wf (hb _ (State.popFor_wf hs _ _) r hr) _ _
@[simp] theorem State.engineOrder_wf (hs : Memory.wf s.mem) (n : ENeed) (body : State → Except Trap (State × Issue)) (hb : ∀ a, Memory.wf a.mem → Leaves (body a)) :
    Memory.wf (s.engineOrder n body).mem := by
  unfold State.engineOrder
  dsimp only
  split
  · exact State.takeTrap_wf hs _
  · split
    · exact hs
    · exact State.takeTrap_wf hs _
    · split
      · exact State.takeTrap_wf hs _
      · next r hr => exact hb _ (State.popFor_wf hs _ _) r hr
@[simp] theorem State.aluWord_wf (hs : Memory.wf s.mem) (reads : List Nat) (rd lat : Nat) (unit : Option (Nat × Nat)) (f : State → Word) :
    Memory.wf (s.aluWord reads rd lat unit f).mem := by simp [State.aluWord, hs]
@[simp] theorem State.alu2_safe (hs : Memory.wf s.mem) (rd rs rt : Nat) (f : Word → Word → Word) :
    Safe (s.alu2 rd rs rt f) := by simp [State.alu2, hs]
@[simp] theorem State.alu1_safe (hs : Memory.wf s.mem) (rd rs : Nat) (f : Word → Word) : Safe (s.alu1 rd rs f) := by simp [State.alu1, hs]
@[simp] theorem State.mul2_safe (hs : Memory.wf s.mem) (rd rs rt : Nat) (f : Word → Word → Word) :
    Safe (s.mul2 rd rs rt f) := by simp [State.mul2, hs]
@[simp] theorem State.div2_safe (hs : Memory.wf s.mem) (rd rs rt : Nat) (f : Word → Word → Word) :
    Safe (s.div2 rd rs rt f) := by simp [State.div2, hs]
@[simp] theorem State.loadWord_safe (hs : Memory.wf s.mem) (rd rs buf n : Nat) (disp : Int) (ext : Nat → Word) :
    Safe (s.loadWord rd rs buf n disp ext) := by
  refine safe_next.2 (State.scalarWord_wf hs _ _ fun a ha => ?_)
  dsimp only
  split <;> simp [ha]
@[simp] theorem State.storeWord_safe (hs : Memory.wf s.mem) (rd rs buf n : Nat) (disp : Int) : Safe (s.storeWord rd rs buf n disp) := by
  refine safe_next.2 (State.scalarWord_wf hs _ _ fun a ha => ?_)
  dsimp only
  split
  · split <;> simp [ha]
  · split <;> simp [ha]
@[simp] theorem jumpTo_leaves (hs : Memory.wf s.mem) (t : Int) : Leaves (jumpTo s t) := by simp [jumpTo, hs]
@[simp] theorem State.branchWord_safe (hs : Memory.wf s.mem) (rs rt : Nat) (off : Int) (taken : Word → Word → Bool) :
    Safe (s.branchWord rs rt off taken) := by simp +contextual [State.branchWord, hs]
@[simp] theorem State.jumpLink_safe (hs : Memory.wf s.mem) (rd : Nat) (reads : List Nat) (target : State → Word) :
    Safe (s.jumpLink rd reads target) := by simp +contextual [State.jumpLink, hs]
@[simp] theorem State.setLoops_wf (hs : Memory.wf s.mem) (l : List LoopE) : Memory.wf (s.setLoops l).mem := by simp [State.setLoops, hs]
@[simp] theorem State.atEnd_wf (hs : Memory.wf s.mem) (f : Eff) : Memory.wf (s.atEnd f).mem := hs
@[simp] theorem State.tellPod_wf (hs : Memory.wf s.mem) : Memory.wf (s.tellPod).mem := by simp [State.tellPod, hs]
@[simp] theorem State.podArrive_wf (hs : Memory.wf s.mem) (pkg world jobid n : Nat) : Memory.wf (s.podArrive pkg world jobid n).mem := hs
@[simp] theorem State.countBar_wf (hs : Memory.wf s.mem) (scope : Nat) : Memory.wf (s.countBar scope).mem := hs
@[simp] theorem State.passBar_wf (hs : Memory.wf s.mem) (scope sw : Nat) (gone : Bool) :
    Memory.wf (s.passBar scope sw gone).mem := by simp [State.passBar, hs]
@[simp] theorem State.openSeg_wf (hs : Memory.wf s.mem) (h : Nat) : Memory.wf (s.openSeg h).mem := hs
@[simp] theorem State.shadowWord_safe (hs : Memory.wf s.mem) (h : Nat) (next : ShSt) : Safe (s.shadowWord h next) := by
  refine safe_next.2 (State.scalarWord_wf hs _ _ fun a ha => ?_)
  split <;> simp [ha]
@[simp] theorem State.stampWord_safe (hs : Memory.wf s.mem) (isSeg : Bool) (time : Nat) :
    Safe (s.stampWord isSeg time) := by simp [State.stampWord, hs]

end Sys2Proof.Machine
end

section
/-! PROOFS. The canonical form of memory: VX and MX orders keep it. -/

namespace Sys2Proof.Machine
open Sys2Proof.Claims

variable {s : State}

@[simp] theorem State.wrV_wf (hs : Memory.wf s.mem) (n : Nat) (v : VReg) : Memory.wf (s.wrV n v).mem := hs
@[simp] theorem State.wrK_wf (hs : Memory.wf s.mem) (n : Nat) (m : Mask) : Memory.wf (s.wrK n m).mem := by simp [State.wrK, hs]
@[simp] theorem State.vxOrder_wf (hs : Memory.wf s.mem) (c : Ctl) (n : VNeed) (body : State → Except Trap (State × List Eff))
    (hb : ∀ a, Memory.wf a.mem → Leaves (body a)) :
    Memory.wf (s.vxOrder c n body).mem := by
  refine State.engineOrder_wf hs _ _ fun a ha => ?_
  split
  · exact leaves_error _
  · next r hr => exact (leaves_ok _).2 (hb a ha r hr)
@[simp] theorem State.laneWise_safe (hs : Memory.wf s.mem) (c : Ctl) (vd ty km lat : Nat) (regs : List Nat) (more : List Nat) (units : List (Nat × Nat))
    (chk : State → Option Trap) (f : State → Nat → Nat) :
    Safe (s.laneWise c vd ty km lat regs more units chk f) := by
  refine safe_next.2 (State.vxOrder_wf hs _ _ _ fun a ha => ?_)
  dsimp only
  split
  · simp
  · split <;> simp [ha]
@[simp] theorem State.arith2_safe (hs : Memory.wf s.mem) (c : Ctl) (x : VX) (fv : Val → Val → Val) (fi : Int → Int → Int) :
    Safe (s.arith2 c x fv fi) := by simp [State.arith2, hs]
@[simp] theorem State.arith3_safe (hs : Memory.wf s.mem) (c : Ctl) (x : VX) (fv : Val → Val → Val → Val) (fi : Int → Int → Int → Int) :
    Safe (s.arith3 c x fv fi) := by simp [State.arith3, hs]
@[simp] theorem State.arith1_safe (hs : Memory.wf s.mem) (c : Ctl) (x : VX) (fv : Val → Val) (fi : Int → Int) :
    Safe (s.arith1 c x fv fi) := by simp [State.arith1, hs]
@[simp] theorem State.trans_safe (hs : Memory.wf s.mem) (c : Ctl) (x : VX) (fn : TFn) : Safe (s.trans c x fn) := by simp [State.trans, hs]
@[simp] theorem State.bitwise_safe (hs : Memory.wf s.mem) (c : Ctl) (x : VX) (lat : Nat) (f : Nat → Nat → Nat) :
    Safe (s.bitwise c x lat f) := by simp [State.bitwise, hs]
@[simp] theorem State.maskOp_safe (hs : Memory.wf s.mem) (c : Ctl) (kd : Nat) (src : List Nat) (f : State → Mask) :
    Safe (s.maskOp c kd src f) := by simp +contextual [State.maskOp, hs]
@[simp] theorem State.reduce_safe (hs : Memory.wf s.mem) (c : Ctl) (x : VX) (ident : Nat) (op : State → Nat → Nat → Nat → Nat) :
    Safe (s.reduce c x ident op) := by
  refine safe_next.2 (State.vxOrder_wf hs _ _ _ fun a ha => ?_)
  split <;> simp [ha]
@[simp] theorem State.modular_safe (hs : Memory.wf s.mem) (c : Ctl) (x : VX) (lat : Nat) (f : Nat → Nat → Nat → Nat) :
    Safe (s.modular c x lat f) := by simp [State.modular, hs]
@[simp] theorem State.butterfly_safe (hs : Memory.wf s.mem) (c : Ctl) (x : VX) (lo hi : Nat → Nat → Nat → Nat → Nat) :
    Safe (s.butterfly c x lo hi) := by
  refine safe_next.2 (State.vxOrder_wf hs _ _ _ fun a ha => ?_)
  dsimp only
  split <;> simp [ha]
@[simp] theorem State.vload_safe (hs : Memory.wf s.mem) (c : Ctl) (m : VMem) (indexed : Bool) : Safe (s.vload c m indexed) := by
  refine safe_next.2 (State.vxOrder_wf hs _ _ _ fun a ha => ?_)
  dsimp only
  split
  · simp
  · split
    · simp
    · exact (leaves_ok _).2 (State.wrV_wf (wf_foldl ha (fun u j hu => State.correct_wf hu _ _ _) _) _ _)
@[simp] theorem State.mxOrder_wf (hs : Memory.wf s.mem) (c : Ctl) (n : MNeed) (body : State → Except Trap (State × Issue)) (hb : ∀ a, Memory.wf a.mem → Leaves (body a)) :
    Memory.wf (s.mxOrder c n body).mem := by
  refine State.engineOrder_wf hs _ _ fun a ha => ?_
  split
  · exact leaves_error _
  · next r hr => exact (leaves_ok _).2 (hb a ha r hr)
theorem State.armOne_wf (hs : Memory.wf s.mem) {sw : Nat} {r : State × Bool} (hr : s.armOne sw = some r) : Memory.wf r.1.mem := by
  unfold State.armOne at hr
  split at hr
  · obtain rfl := Option.some.inj hr
    exact State.wrSw_wf hs _ _
  · cases hr
@[simp] theorem State.correctOp_wf (hs : Memory.wf s.mem) (rs : List (Nat × Nat)) :
    Memory.wf (s.correctOp rs).mem := by simp +contextual [State.correctOp, hs]
@[simp] theorem State.correctAcc_wf (hs : Memory.wf s.mem) (acc : Nat) : Memory.wf (s.correctAcc acc).mem := by simp [State.correctAcc, hs]
@[simp] theorem State.correctAccs_wf (hs : Memory.wf s.mem) (rs : List (Nat × Nat)) :
    Memory.wf (s.correctAccs rs).mem := by simp +contextual [State.correctAccs, hs]
@[simp] theorem State.openShadow_wf (hs : Memory.wf s.mem) (acc part clr : Nat) : Memory.wf (s.openShadow acc part clr).mem := by
  unfold State.openShadow
  dsimp only
  repeat' split
  all_goals simp +contextual [hs]
@[simp] theorem State.denseOrder_safe (hs : Memory.wf s.mem) (c : Ctl) (o : MmaOp) (modular : Bool) : Safe (s.denseOrder c o modular) := by
  refine safe_next.2 (State.mxOrder_wf hs _ _ _ fun a ha => ?_)
  dsimp only
  split
  · simp
  · split
    · simp
    · exact (leaves_ok _).2 (State.openShadow_wf (State.correctAccs_wf (State.correctOp_wf ha _) _) _ _ _)
@[simp] theorem State.amovOrder_safe (hs : Memory.wf s.mem) (c : Ctl) (ad asrc : Nat) (ip : Bool) (chk : State → Option Trap) (f : State → State)
    (hf : ∀ u, Memory.wf u.mem → Memory.wf (f u).mem) : Safe (s.amovOrder c ad asrc ip chk f) := by
  refine safe_next.2 (State.mxOrder_wf hs _ _ _ fun a ha => ?_)
  split
  · simp
  · simp [hf _ (State.correctAcc_wf ha _)]
@[simp] theorem State.laterWrite_wf (hs : Memory.wf s.mem) (buf off due : Nat) (data : List Byte) :
    Memory.wf (s.laterWrite buf off due data).mem := hs

end Sys2Proof.Machine
end

section
/-! PROOFS. The canonical form of memory: movement orders keep it. -/

namespace Sys2Proof.Machine
open Sys2Proof.Claims

variable {s : State}

@[simp] theorem State.endWalk_wf (hs : Memory.wf s.mem) (die : Nat) : Memory.wf (s.endWalk die).mem := hs
@[simp] theorem State.stopWalk_wf (hs : Memory.wf s.mem) (die : Nat) : Memory.wf (s.stopWalk die).mem := by simp [State.stopWalk, hs]
@[simp] theorem State.holdPages_wf (hs : Memory.wf s.mem) (ps : List Nat) : Memory.wf (s.holdPages ps).mem := hs
@[simp] theorem State.perf_wf (hs : Memory.wf s.mem) (sw : Nat) (ph : Bool) (n : Nat) : Memory.wf (s.perf sw ph n).mem := by simp [State.perf, hs]
@[simp] theorem State.addCmd_wf (hs : Memory.wf s.mem) (c : Cmd) : Memory.wf (s.addCmd c).mem := hs
@[simp] theorem State.failNow_wf (hs : Memory.wf s.mem) (sw code : Nat) (effs : List Eff) :
    Memory.wf (s.failNow sw code effs).1.mem := by simp [State.failNow, hs]
theorem State.moveOrder_wf (hs : Memory.wf s.mem) {c : Ctl} {handles : List Nat} {elastic met : Bool}
    {body : State → List Rec → Except Trap (State × Issue)} {rdy : List Rec → Bool} (hb : ∀ a rs, Memory.wf a.mem → Leaves (body a rs)) :
    Memory.wf (s.moveOrder c handles elastic met body rdy).mem := by
  refine State.engineOrder_wf ?_ _ _ fun a ha => ?_
  · split
    · simp [hs]
    · exact hs
  · rw [leaves_ite]
    split
    · exact leaves_error _
    · exact hb _ _ (by simp [ha])
theorem State.arm_wf (hs : Memory.wf s.mem) {sw n : Nat} {r : State × Bool} (hr : s.arm sw n = some r) : Memory.wf r.1.mem := by
  rw [State.arm, Option.map_eq_some_iff] at hr
  obtain ⟨w, -, rfl⟩ := hr
  exact State.wrSw_wf hs _ _
@[simp] theorem State.startCopy_wf (hs : Memory.wf s.mem) (k : Cmd) (recs : List Rec) (idx : Nat) (land : Option Nat)
    (wr : Tile → Nat → List Byte → Tile) (fail : State → State) (fin : List Eff)
    (hf : ∀ u, Memory.wf u.mem → Memory.wf (fail u).mem) : Memory.wf (s.startCopy k recs idx land wr fail fin).1.mem := by
  have hfail : ∀ c, Memory.wf ((fail s).statusWrite k.sw c).mem := fun c => State.statusWrite_wf (hf s hs) _ _
  unfold State.startCopy
  dsimp only
  split
  · exact hfail _
  · split
    · exact hfail _
    · next a ph ha =>
      have hb := fun x n => State.perf_wf (s := a.setCtile x) (State.arm_wf hs ha) k.sw ph n
      split
      · exact hb _ _
      · exact State.addCmd_wf (hb _ _) _
@[simp] theorem State.copyIn_leaves (hs : Memory.wf s.mem) (o : CopyIn) (recs : List Rec) (land : Option Nat) (kind : CmdKind) (cw : Option Nat) :
    Leaves (s.copyIn o recs land kind cw) := by
  have ha : ∀ x, Memory.wf (s.setCtile x).mem := fun _ => hs
  unfold State.copyIn
  dsimp only
  split
  · exact leaves_error _
  · exact (leaves_ok _).2 (State.startCopy_wf (ha _) _ _ _ _ _ _ _ fun u hu => hu)
@[simp] theorem State.sourceRead_wf (hs : Memory.wf s.mem) (addr n : Nat) : Memory.wf (s.sourceRead addr n).mem := by simp [State.sourceRead, hs]
@[simp] theorem State.copyOut_leaves (hs : Memory.wf s.mem) (o : CopyOut) (recs : List Rec) (kind : CmdKind) (cw : Option Nat) :
    Leaves (s.copyOut o recs kind cw) := by
  have ha : ∀ x, Memory.wf (s.setCtile x).mem := fun _ => hs
  unfold State.copyOut
  dsimp only
  split
  · exact leaves_error _
  · split
    · exact (leaves_ok _).2 (State.failNow_wf (ha _) _ _ _)
    · split
      · exact (leaves_ok _).2 (State.statusWrite_wf (ha _) _ _)
      · next b ph hb =>
        have hb := State.arm_wf (ha _) hb
        split
        · exact (leaves_ok _).2 (State.perf_wf (State.sourceRead_wf hb _ _) _ _ _)
        · exact (leaves_ok _).2 (State.addCmd_wf (State.perf_wf (State.sourceRead_wf hb _ _) _ _ _) _)
@[simp] theorem State.startWriteBack_wf (hs : Memory.wf s.mem) (b sw : Nat) : Memory.wf (s.startWriteBack b sw).mem := by
  unfold State.startWriteBack
  dsimp only
  split
  · exact State.statusWrite_wf hs _ _
  · next a ph ha =>
    have hv := wf_foldl (F := fun (u : State) g => u.sourceRead ((u.decl b).addr (4096 * g)) 4096) (State.arm_wf hs ha)
      (fun u g hu => State.sourceRead_wf hu _ _) (s.dirtyOf b)
    split
    · exact hv
    · exact State.addCmd_wf (s := State.setCtile _ _) hv _
@[simp] theorem State.orderEff_wf (hs : Memory.wf s.mem) (f : List Eff) : Memory.wf (s.orderEff f).1.mem := hs
@[simp] theorem State.bstate_safe (hs : Memory.wf s.mem) (c : Ctl) (buf : Nat) (full : Bool) : Safe (s.bstate c buf full) := by
  refine safe_next.2 (State.moveOrder_wf hs fun a rs ha => ?_)
  split <;> simp [ha]
@[simp] theorem State.bindTake_wf (hs : Memory.wf s.mem) (die ctx : Nat) (c : Cmd) : Memory.wf (s.bindTake die ctx c).1.mem := by
  unfold State.bindTake
  split <;> simp [hs]
@[simp] theorem State.bindsoOrder_safe (hs : Memory.wf s.mem) (c : Ctl) (sw scope hr ho : Nat) : Safe (s.bindsoOrder c sw scope hr ho) := by
  refine safe_next.2 (State.moveOrder_wf hs fun a recs ha => ?_)
  dsimp only
  split
  · simp [ha]
  · split
    · simp [ha]
    · next b ph hb =>
      have hw := State.arm_wf ha hb
      refine (leaves_ok _).2 (State.addCmd_wf ?_ _)
      split
      · exact State.bindTake_wf hw _ _ _
      · exact hw
@[simp] theorem State.acqOrder_safe (hs : Memory.wf s.mem) (c : Ctl) (o : SyncOp) (kind : CmdKind) (size : Nat) :
    Safe (s.acqOrder c o kind size) := by
  refine safe_next.2 (State.moveOrder_wf hs fun a recs ha => ?_)
  dsimp only
  split
  · simp
  · split
    · simp [ha]
    · split
      · simp [ha]
      · next b ph hb => exact (leaves_ok _).2 (State.addCmd_wf (State.arm_wf ha hb) _)
@[simp] theorem State.atomOrder_safe (hs : Memory.wf s.mem) (c : Ctl) (o : AtomOp) (op : Nat) : Safe (s.atomOrder c o op) := by
  refine safe_next.2 (State.moveOrder_wf hs fun a recs ha => ?_)
  have hread := fun n => State.correct_wf ha 3 n 16
  dsimp only
  split
  · simp
  · split
    · simp
    · split
      · simp
      · split
        · exact (leaves_ok _).2 (State.failNow_wf (hread _) _ _ _)
        · split
          · exact (leaves_ok _).2 (State.failNow_wf (hread _) _ _ _)
          · next u ph hu => exact (leaves_ok _).2 (State.addCmd_wf (State.arm_wf (hread _) hu) _)
@[simp] theorem State.vatomOrder_safe (hs : Memory.wf s.mem) (c : Ctl) (o : VAtom) (op : Nat) : Safe (s.vatomOrder c o op) := by
  refine safe_next.2 (State.moveOrder_wf hs fun a recs ha => ?_)
  have hread := fun m n => State.correct_wf (State.correct_wf ha 3 m (4 * (o.nl1 + 1))) 3 n (elemBits o.ty / 8 * (o.nl1 + 1))
  dsimp only
  split
  · simp
  · split
    · exact (leaves_ok _).2 (State.statusWrite_wf (hread _ _) _ _)
    · split
      · exact (leaves_ok _).2 (State.statusWrite_wf (hread _ _) _ _)
      · next u ph hu =>
        have hw := State.arm_wf (hread _ _) hu
        split
        · exact (leaves_ok _).2 hw
        · exact (leaves_ok _).2 (State.addCmd_wf hw _)

end Sys2Proof.Machine
end

section
/-! PROOFS. The canonical form of memory: commands, exchanges and collectives keep it. -/

namespace Sys2Proof.Machine
open Sys2Proof.Claims

variable {s : State}

@[simp] theorem State.taintCode_wf (hs : Memory.wf s.mem) (n code : Nat) : Memory.wf (s.taintCode n code).mem := by simp [State.taintCode, hs]
@[simp] theorem State.endCommand_wf (hs : Memory.wf s.mem) (n t : Nat) (c : Cmd) (code : Nat) :
    Memory.wf (s.endCommand n t c code).mem := by simp [State.endCommand, hs]
@[simp] theorem State.endAtRetire_wf (hs : Memory.wf s.mem) (n t : Nat) (c : Cmd) (code : Nat) (effs : List Eff) :
    Memory.wf (s.endAtRetire n t c code effs).mem := hs
@[simp] theorem State.countBytes_wf (hs : Memory.wf s.mem) (n t : Nat) (c : Cmd) (k : Nat) : Memory.wf (s.countBytes n t c k).mem := hs
@[simp] theorem State.choose_wf (hs : Memory.wf s.mem) (k : Nat) : Memory.wf (s.choose k).2.mem := by
  unfold State.choose
  split <;> simp [hs]
@[simp] theorem State.armCw_wf (hs : Memory.wf s.mem) (n t : Nat) (c : Cmd) (va : Nat) : Memory.wf (s.armCw n t c va).mem := by
  unfold State.armCw
  dsimp only
  split <;> simp [hs]
@[simp] theorem State.cwWait_given (hs : Memory.wf s.mem) (n t : Nat) (c : Cmd) : Given (s.cwWait n t c) := by
  unfold State.cwWait
  split
  · split
    · simp [hs]
    · split
      · exact given_some.2 hs
      · exact given_none
    · exact given_none
  · exact given_none
@[simp] theorem State.countCw_wf (hs : Memory.wf s.mem) (n t : Nat) (c : Cmd) (k : Nat) : Memory.wf (s.countCw n t c k).mem := by
  unfold State.countCw
  split
  · split
    · split
      · exact hs
      · exact wf_syeOp hs _ _ _ _ _
    · exact hs
  · exact hs
@[simp] theorem State.failIn_wf (hs : Memory.wf s.mem) (n t : Nat) (c : Cmd) (e : Elem) : Memory.wf (s.failIn n t c e).1.mem := by
  unfold State.failIn
  split <;> simp [hs]
@[simp] theorem State.endCopy_wf (hs : Memory.wf s.mem) (n t : Nat) (c : Cmd) : Memory.wf (s.endCopy n t c).mem := by
  unfold State.endCopy
  split <;> simp [hs]
@[simp] theorem State.stepCopy_wf (hs : Memory.wf s.mem) (n t : Nat) (c : Cmd) : Memory.wf (s.stepCopy n t c).mem := by simp [State.stepCopy, hs]
@[simp] theorem State.landIn_wf (hs : Memory.wf s.mem) (n t : Nat) (c : Cmd) (e : Elem) (data : List Byte) :
    Memory.wf (s.landIn n t c e data).1.mem := by
  unfold State.landIn
  dsimp only
  repeat' split
  all_goals simp +contextual [hs]
@[simp] theorem State.performIn_wf (hs : Memory.wf s.mem) (n t : Nat) (c : Cmd) : Memory.wf (s.performIn n t c).mem := by
  have hpick := State.choose_wf hs c.elems.length
  unfold State.performIn
  extract_lets pick
  split
  · exact State.endCopy_wf hs _ _ _
  · next e _ =>
    have hread := wf_gread hpick (s.tileDie n t) n e.va e.len
    extract_lets free
    split
    · next u hu => exact State.cwWait_given hs n t c u hu
    · split
      · exact hpick
      · split
        · exact hread
        · exact State.stepCopy_wf (State.failIn_wf hread _ _ _ _) _ _ _
        · exact State.stepCopy_wf (State.countCw_wf (State.countBytes_wf (State.landIn_wf hread _ _ _ _ _) _ _ _ _) _ _ _ _) _ _ _
@[simp] theorem State.meetHalf_wf (hs : Memory.wf s.mem) (n : Nat) (e : Elem) : Memory.wf (s.meetHalf n e).mem := by
  unfold State.meetHalf
  split
  · split
    · simp [hs]
    · exact hs
  · exact hs
@[simp] theorem State.performOut_wf (hs : Memory.wf s.mem) (n t : Nat) (c : Cmd) : Memory.wf (s.performOut n t c).mem := by
  unfold State.performOut
  split
  · exact State.endCopy_wf hs _ _ _
  · next e rest _ =>
    have hwrite := fun bs => wf_gwrite (State.meetHalf_wf hs n e) (s.tileDie n t) n e.va bs e.bad
    extract_lets free
    split
    · next u hu => exact State.cwWait_given hs n t c u hu
    · split
      · exact hs
      · split
        · exact hwrite _
        · exact State.stepCopy_wf (hwrite _) _ _ _
        · refine State.stepCopy_wf (State.countCw_wf ?_ _ _ _ _) _ _ _
          split
          · exact State.countBytes_wf (hwrite _) _ _ _ _
          · exact hwrite _
@[simp] theorem State.fetchRec_wf (hs : Memory.wf s.mem) (n t e va : Nat) (before : Cmd → Bool) : Memory.wf (s.fetchRec n t e va before).1.mem := by
  have hread := wf_gread hs (s.tileDie n t) n va 192
  obtain ⟨r, hr⟩ : ∃ r, s.gread (s.tileDie n t) n va 192 = r := ⟨_, rfl⟩
  rw [State.fetchRec]
  rw [hr] at hread ⊢
  split
  · exact hs
  · split
    · exact hs
    · split
      · exact hs
      · dsimp only
        split
        · exact hread
        · exact hread
        · split
          · exact hread
          · exact hread
@[simp] theorem State.doAtom_wf (hs : Memory.wf s.mem) (n t : Nat) (c : Cmd) : Memory.wf (s.doAtom n t c).mem := by
  have hop := wf_syeOp hs (s.tileDie n t) n c.va c.size (atomNew c.op c.size c.opd c.cmp)
  unfold State.doAtom
  extract_lets free r
  split
  · exact hs
  · split
    · exact hop
    · split
      · exact State.endAtRetire_wf hop _ _ _ _ _
      · exact State.endCommand_wf hop _ _ _ _
    · split
      · exact State.endAtRetire_wf hop _ _ _ _ _
      · exact State.endCommand_wf (State.countBytes_wf hop _ _ _ _) _ _ _ _
@[simp] theorem State.doLanes_wf (die ctx : Nat) (c : Cmd) : ∀ (l : List (Nat × Nat)) {s : State},
    Memory.wf s.mem → Memory.wf (s.doLanes die ctx c l).1.mem
  | [], _, hs => hs
  | p :: l, s, hs => by
    have hop := wf_syeOp hs die ctx p.1 c.size (fun old => atomNew c.op c.size p.2 0 old)
    rw [State.doLanes]
    split
    · exact State.doLanes_wf die ctx c l hop
    · exact hop
@[simp] theorem State.doLine_wf (hs : Memory.wf s.mem) (n t : Nat) (c : Cmd) : Memory.wf (s.doLine n t c).mem := by
  have hpick := State.choose_wf hs c.elems.length
  unfold State.doLine
  extract_lets pick
  split
  · exact State.endCommand_wf hs _ _ _ _
  · next e _ =>
    have hlanes := State.doLanes_wf (s.tileDie n t) n c e.lanes hpick
    have hfin : ∀ (u : State) (k : Cmd), Memory.wf u.mem →
        Memory.wf (if k.elems.isEmpty then u.endCommand n t k k.err else u.setTileAt n t ((u.tileAt n t).putCmd k)).mem := by
      intro u k hu
      simp [hu]
    extract_lets free
    split
    · exact hs
    · split
      · exact hlanes
      · exact hfin _ _ hlanes
      · exact hfin _ _ (State.countBytes_wf hlanes _ _ _ _)
@[simp] theorem State.doAcq_wf (hs : Memory.wf s.mem) (n t : Nat) (c : Cmd) : Memory.wf (s.doAcq n t c).mem := by
  unfold State.doAcq
  split <;> simp [hs]
@[simp] theorem State.doRel_wf (hs : Memory.wf s.mem) (n t : Nat) (c : Cmd) : Memory.wf (s.doRel n t c).mem := by
  have hwrite := wf_gwrite hs (s.tileDie n t) n c.va (leBytes c.size c.opd) []
  unfold State.doRel
  split
  · simp [hs]
  · simp [hs]
  · split
    · split
      · exact hs
      · dsimp only
        split
        · exact hwrite
        · exact State.endCommand_wf hwrite _ _ _ _
        · exact State.endCommand_wf (State.countBytes_wf hwrite _ _ _ _) _ _ _ _
    · split
      · exact State.endCommand_wf hs _ _ _ _
      · split
        · exact hs
        · split
          · exact hs
          · exact State.endCommand_wf (State.countBytes_wf (State.syeWrite_wf s _ _ _ hs) _ _ _ _) _ _ _ _
@[simp] theorem State.bindAnswer_wf (hs : Memory.wf s.mem) (c : Cmd) : Memory.wf (s.bindAnswer c).2.mem := by
  unfold State.bindAnswer
  split <;> simp [hs]
@[simp] theorem State.doBindso_wf (hs : Memory.wf s.mem) (n t : Nat) (c : Cmd) : Memory.wf (s.doBindso n t c).mem := by
  have htake := State.bindTake_wf hs (s.tileDie n t) n c
  have hanswer := State.bindAnswer_wf hs c
  have hsync : ∀ bs, Memory.wf ({ (s.bindAnswer c).2 with sync := bs } : State).mem := fun _ => hanswer
  unfold State.doBindso
  dsimp only
  split
  · exact State.endCommand_wf hs _ _ _ _
  · split
    · exact htake
    · split
      · exact State.endCommand_wf hanswer _ _ _ _
      · split
        · exact State.endCommand_wf hanswer _ _ _ _
        · split
          · exact State.endCommand_wf hanswer _ _ _ _
          · exact State.endCommand_wf (State.countBytes_wf (hsync _) _ _ _ _) _ _ _ _
/-- A copy in fails element by element. -/
theorem failIn_foldl_wf (n t : Nat) : ∀ (es : List Elem) {f : State × Cmd}, Memory.wf f.1.mem →
    Memory.wf (es.foldl (fun (u : State × Cmd) e => u.1.failIn n t u.2 e) f).1.mem
  | [], _, hf => hf
  | e :: es, _, hf => failIn_foldl_wf n t es (State.failIn_wf hf n t _ e)
@[simp] theorem State.giveUpIn_wf (hs : Memory.wf s.mem) (n t : Nat) (c : Cmd) : Memory.wf (s.giveUpIn n t c).mem := by
  exact State.endCopy_wf (failIn_foldl_wf n t c.elems (f := (s, c)) hs) _ _ _
@[simp] theorem State.fetchTimeout_wf (hs : Memory.wf s.mem) (n t e : Nat) : Memory.wf (s.fetchTimeout n t e).mem := by
  unfold State.fetchTimeout
  split <;> simp [hs]
@[simp] theorem State.podTimeout_wf (hs : Memory.wf s.mem) (n t : Nat) : Memory.wf (s.podTimeout n t).mem := by simp [State.podTimeout, hs]
@[simp] theorem State.sendOrder_safe (hs : Memory.wf s.mem) (c : Ctl) (o : Exch) (rank : Bool) (off n k : Nat) (nwords : Nat) (pack : List Nat → List Code) :
    Safe (s.sendOrder c o rank off n k nwords pack) := by
  unfold State.sendOrder
  extract_lets r hops u occ clear
  refine safe_next.2 (State.engineOrder_wf hs _ _ fun a ha => ?_)
  split
  · exact leaves_error _
  · split
    · exact leaves_error _
    · split
      · exact leaves_error _
      · exact (leaves_ok _).2 (State.correct_wf ha 3 ((a.decl o.buf).addr off) (n * k) :)
@[simp] theorem State.recvOrder_safe (hs : Memory.wf s.mem) (c : Ctl) (o : Exch) (off n k : Nat) (fits : Xfer → Bool) (unpack : Xfer → List Byte) :
    Safe (s.recvOrder c o off n k fits unpack) := by
  refine safe_next.2 (State.engineOrder_wf hs _ _ fun a ha => ?_)
  split
  · exact leaves_error _
  · split
    · exact leaves_error _
    · split
      · exact leaves_error _
      · split
        · exact leaves_error _
        · exact (leaves_ok _).2 (State.laterWrite_wf (s := State.setCtile _ _) ha _ _ _ _)
@[simp] theorem State.arrivals_wf (hs : Memory.wf s.mem) (n t : Nat) : Memory.wf (s.arrivals n t).mem := hs
@[simp] theorem State.joinColl_wf (hs : Memory.wf s.mem) (o : CollOp) (k total rank cmd : Nat) : Memory.wf (s.joinColl o k total rank cmd).mem := by
  unfold State.joinColl
  dsimp only
  split <;> simp [hs]
@[simp] theorem State.endColl_wf (hs : Memory.wf s.mem) (i code : Nat) (result : List Byte) : Memory.wf (s.endColl i code result).mem := by
  unfold State.endColl
  split
  · exact hs
  · next x _ =>
    refine wf_foldl hs (fun u w hu => ?_) x.waiting
    split
    · exact hu
    · exact State.endAtRetire_wf hu _ _ _ _ _

end Sys2Proof.Machine
end

section
/-! PROOFS. The canonical form of memory: the cycle of a region, its freezes and its end keep it. -/

namespace Sys2Proof.Machine
open Sys2Proof.Claims

variable {s : State}

@[simp] theorem State.fixCtx_wf (hs : Memory.wf s.mem) (n t : Nat) (rs : List (Nat × Nat)) :
    Memory.wf (s.fixCtx n t rs).mem := by simp [State.fixCtx, hs]
@[simp] theorem State.ctxPieces_wf (hs : Memory.wf s.mem) (world base : Nat) (x : Tile) (ps : List (Nat × List Byte)) :
    Memory.wf (s.ctxPieces world base x ps).mem := by simp +contextual [State.ctxPieces, hs]
@[simp] theorem State.stowRead_wf (hs : Memory.wf s.mem) (slot p space addr n : Nat) :
    Memory.wf (s.stowRead slot p space addr n).mem := by simp [State.stowRead, hs]
@[simp] theorem State.readStow_wf (hs : Memory.wf s.mem) (n t off len : Nat) : Memory.wf (s.readStow n t off len).mem := by simp [State.readStow, hs]
@[simp] theorem State.segEntry_wf (hs : Memory.wf s.mem) (n t : Nat) : Memory.wf (s.segEntry n t).mem := hs
@[simp] theorem State.applyEffs_wf (hs : Memory.wf s.mem) (n t : Nat) (fs : List Eff) : Memory.wf (s.applyEffs n t fs).mem := hs
@[simp] theorem State.dropEffs_wf (hs : Memory.wf s.mem) (n t : Nat) (late : Bool) : Memory.wf (s.dropEffs n t late).mem := hs
@[simp] theorem State.settle_wf (hs : Memory.wf s.mem) (n t : Nat) : Memory.wf (s.settle n t).mem := hs
@[simp] theorem State.residueTrap_wf (hs : Memory.wf s.mem) (n t : Nat) (f : Flight) : Memory.wf (s.residueTrap n t f).mem := hs
@[simp] theorem State.retire_wf (hs : Memory.wf s.mem) (n t : Nat) (f : Flight) : Memory.wf (s.retire n t f).mem := by
  unfold State.retire
  split
  · exact State.residueTrap_wf hs _ _ _
  · have hone := State.applyEffs_wf hs n t f.effs
    generalize s.applyEffs n t f.effs = s1 at hone ⊢
    exact State.taintCode_wf (State.setTileAt_wf hone _ _ _) _ _
@[simp] theorem State.retireDue_wf (hs : Memory.wf s.mem) (n t : Nat) : Memory.wf (s.retireDue n t).mem := by simp +contextual [State.retireDue, hs]
@[simp] theorem State.retireOne_wf (hs : Memory.wf s.mem) (n t id : Nat) (want : Flight → Bool) : Memory.wf (s.retireOne n t id want).mem := by
  unfold State.retireOne
  dsimp only
  split <;> simp [hs]
@[simp] theorem State.land_wf (hs : Memory.wf s.mem) (n t : Nat) (f : Flight) : Memory.wf (s.land n t f).mem := by simp [State.land, hs]
@[simp] theorem State.landDue_wf (hs : Memory.wf s.mem) (n t : Nat) : Memory.wf (s.landDue n t).mem := by simp +contextual [State.landDue, hs]
@[simp] theorem State.landAll_wf (hs : Memory.wf s.mem) (n : Nat) : Memory.wf (s.landAll n).mem := by simp +contextual [State.landAll, hs]
@[simp] theorem State.endFreeze_wf (hs : Memory.wf s.mem) (n : Nat) : Memory.wf (s.endFreeze n).mem := by simp [State.endFreeze, hs]
@[simp] theorem State.plainFreeze_wf (hs : Memory.wf s.mem) (n : Nat) : Memory.wf (s.plainFreeze n).mem := by simp [State.plainFreeze, hs]
@[simp] theorem State.faultFreeze_wf (hs : Memory.wf s.mem) (n : Nat) : Memory.wf (s.faultFreeze n).mem := by
  unfold State.faultFreeze
  extract_lets r ts run s1 _ s2
  have hone : Memory.wf s1.mem := by
    refine wf_foldl hs (fun u t hu => ?_) (s.tiles6 n)
    exact hu
  have htwo : Memory.wf s2.mem := hone
  refine State.endFreeze_wf ?_ _
  split
  · exact htwo
  · rw [State.raiseCC_mem]
    exact htwo
@[simp] theorem State.raiseLate_wf (hs : Memory.wf s.mem) (n : Nat) : Memory.wf (s.raiseLate n).mem := by
  refine State.faultFreeze_wf (wf_foldl hs (fun u t hu => ?_) _) _
  split
  · exact hu
  · exact hu
@[simp] theorem State.setSnap_wf (hs : Memory.wf s.mem) (k : Nat) (x : Snap) : Memory.wf (s.setSnap k x).mem := hs
@[simp] theorem State.joinRoll_wf (hs : Memory.wf s.mem) (n : Nat) : Memory.wf (s.joinRoll n).mem := by simp [State.joinRoll, hs]
@[simp] theorem State.thaw_wf (hs : Memory.wf s.mem) (n : Nat) (all : Bool) : Memory.wf (s.thaw n all).mem := by
  unfold State.thaw
  extract_lets r s1
  have hone : Memory.wf s1.mem := by
    refine wf_foldl hs (fun u t hu => ?_) (s.tiles6 n)
    exact hu
  exact State.joinRoll_wf (s := State.setSlot _ _ _) hone _
@[simp] theorem State.enter_wf (hs : Memory.wf s.mem) (n : Nat) : Memory.wf (s.enter n).mem := hs
@[simp] theorem State.endTile_wf (hs : Memory.wf s.mem) (n t : Nat) : Memory.wf (s.endTile n t).mem := by
  unfold State.endTile
  extract_lets es stops s0 s1 late s2 _ s3
  have hzero : Memory.wf s0.mem := by
    dsimp only [s0]
    split
    · exact State.arrivals_wf hs _ _
    · exact hs
  have hone : Memory.wf s1.mem := State.retireDue_wf (State.settle_wf hzero _ _) _ _
  have htwo : Memory.wf s2.mem := State.applyEffs_wf (State.dropEffs_wf hone n t true) _ _ _
  have hthree : Memory.wf s3.mem := State.setTileAt_wf htwo _ _ _
  split
  · exact State.segEntry_wf hthree _ _
  · exact hthree
@[simp] theorem State.endCycle_wf (hs : Memory.wf s.mem) (n : Nat) : Memory.wf (s.endCycle n).mem := by simp +contextual [State.endCycle, hs]
@[simp] theorem State.setVif_wf (hs : Memory.wf s.mem) (v : Nat) (x : Vif) : Memory.wf (s.setVif v x).mem := hs
@[simp] theorem State.setNode_wf (hs : Memory.wf s.mem) (x : Node) : Memory.wf (s.setNode x).mem := hs
@[simp] theorem State.setBounce_wf (hs : Memory.wf s.mem) (c : Nat) (x : Bounce) : Memory.wf (s.setBounce c x).mem := hs

end Sys2Proof.Machine
end

section
/-! PROOFS. The canonical form of memory: the registers of the units, the clocks and the system words keep it. -/

namespace Sys2Proof.Machine
open Sys2Proof.Claims

variable {s : State}

@[simp] theorem State.reading_wf (hs : Memory.wf s.mem) (k : Clock) : Memory.wf (s.reading k).2.mem := hs
@[simp] theorem State.evqPop_wf (hs : Memory.wf s.mem) : Memory.wf (s.evqPop).1.mem := by
  unfold State.evqPop
  split <;> simp [hs]
@[simp] theorem State.potStart_wf (hs : Memory.wf s.mem) (op w page npg : Nat) :
    Memory.wf (s.potStart op w page npg).mem := by simp [State.potStart, hs]
@[simp] theorem State.writeSnarea_wf (hs : Memory.wf s.mem) (value : Nat) : Memory.wf (s.writeSnarea value).mem := by
  unfold State.writeSnarea
  split <;> simp [hs]
@[simp] theorem State.startShoot_wf (hs : Memory.wf s.mem) : Memory.wf (s.startShoot).mem := by simp [State.startShoot, hs]
@[simp] theorem State.writeWkctl_wf (hs : Memory.wf s.mem) (v : Nat) : Memory.wf (s.writeWkctl v).mem := by simp [State.writeWkctl, hs]
@[simp] theorem State.unitStore_wf (hs : Memory.wf s.mem) (n v : Nat) : Memory.wf (s.unitStore n v).mem := by
  unfold State.unitStore
  split <;> simp [hs]
@[simp] theorem State.sysRead_wf (hs : Memory.wf s.mem) (reg : Nat) : Memory.wf (s.sysRead reg).1.mem := by
  unfold State.sysRead
  dsimp only
  repeat' split
  all_goals simp +contextual [hs]
@[simp] theorem State.worldTime_wf (hs : Memory.wf s.mem) : Memory.wf (s.worldTime).1.mem := by
  unfold State.worldTime
  split <;> simp [hs]
@[simp] theorem State.setClock_wf (hs : Memory.wf s.mem) (n mhz : Nat) : Memory.wf (s.setClock n mhz).mem := by simp [State.setClock, hs]
@[simp] theorem State.patrolTile_wf (hs : Memory.wf s.mem) (src p word : Nat) :
    Memory.wf (s.patrolTile src p word).mem := by simp [State.patrolTile, hs]
@[simp] theorem State.ldPlace_leaves (hs : Memory.wf s.mem) (p : Place) : Leaves (s.ldPlace p) := by
  unfold State.ldPlace
  dsimp only
  repeat' split
  all_goals simp +contextual [hs]
@[simp] theorem State.keepPlace_wf (hs : Memory.wf s.mem) (p : Place) (v : Word) : Memory.wf (s.keepPlace p v).mem := by
  unfold State.keepPlace
  split <;> simp [hs]
@[simp] theorem State.sysLoad_leaves (hs : Memory.wf s.mem) (rd rs : Nat) (disp : Int) : Leaves (s.sysLoad rd rs disp) := by
  unfold State.sysLoad
  split
  · exact leaves_error _
  · split
    · exact leaves_error _
    · next r hr => exact (leaves_ok _).2 (by simpa using State.ldPlace_leaves hs _ r hr)
@[simp] theorem State.stopCore_wf (hs : Memory.wf s.mem) : Memory.wf (s.stopCore).mem := by simp [State.stopCore, hs]
@[simp] theorem State.slotStore_wf (hs : Memory.wf s.mem) (n k v : Nat) : Memory.wf (s.slotStore n k v).mem := by
  unfold State.slotStore
  split <;> simp [hs]
@[simp] theorem State.healthStore_wf (hs : Memory.wf s.mem) (p v : Nat) : Memory.wf (s.healthStore p v).mem := hs

end Sys2Proof.Machine
end

section
/-! PROOFS. The canonical form of memory: snapshots, their copies and their commits keep it. -/

namespace Sys2Proof.Machine
open Sys2Proof.Claims

variable {s : State}

@[simp] theorem State.postEvent_wf (hs : Memory.wf s.mem) (cause slot detail : Nat) :
    Memory.wf (s.postEvent cause slot detail).mem := (Tame.postEvent s _ _ _).mem hs
@[simp] theorem State.completeTile_wf (hs : Memory.wf s.mem) (n t sw : Nat) (f : Word → Word) :
    Memory.wf (s.completeTile n t sw f).mem := (Tame.completeTile s _ _ _ _).mem hs
@[simp] theorem State.completeFor_wf (hs : Memory.wf s.mem) (who : Option (Nat × Nat × Bool)) (code : Nat) :
    Memory.wf (s.completeFor who code).mem := (Tame.completeFor s _ _).mem hs
@[simp] theorem State.forgetWaits_wf (hs : Memory.wf s.mem) (n : Nat) : Memory.wf (s.forgetWaits n).mem := hs
@[simp] theorem State.fixArea_wf (hs : Memory.wf s.mem) (k : Nat) : Memory.wf (s.fixArea k).mem := by simp [State.fixArea, hs]
@[simp] theorem State.areaWrite_given (hs : Memory.wf s.mem) (k off : Nat) (data : List Byte) (bad : List Nat) : Given (s.areaWrite k off data bad) :=
  fun _ hu => (Tame.areaWrite hu).mem hs
@[simp] theorem State.catWrite_wf (hs : Memory.wf s.mem) (k i : Nat) (ws : List Nat) :
    Memory.wf (s.catWrite k i ws).mem := (Tame.catWrite s _ _ _).mem hs
@[simp] theorem State.catDrop_wf (hs : Memory.wf s.mem) (k i : Nat) : Memory.wf (s.catDrop k i).mem := (Tame.catDrop s _ _).mem hs
@[simp] theorem State.dropFolio_wf (hs : Memory.wf s.mem) (k i : Nat) : Memory.wf (s.dropFolio k i).mem := (Tame.dropFolio s _ _).mem hs
@[simp] theorem State.folioAppend_given (hs : Memory.wf s.mem) (k kind key : Nat) (data : List Byte) (bad : List Nat) :
    Given (s.folioAppend k kind key data bad) := fun _ hu => (Tame.folioAppend hu).mem hs
@[simp] theorem State.folioStart_wf (hs : Memory.wf s.mem) (k id issuer : Nat) :
    Memory.wf (s.folioStart k id issuer).mem := by simp [State.folioStart, hs]
@[simp] theorem State.setBufMarks_wf (hs : Memory.wf s.mem) (k : Nat) (f : Nat → Nat → Nat → Bool) :
    Memory.wf (s.setBufMarks k f).mem := (Tame.setBufMarks s _ _).mem hs
@[simp] theorem State.releaseCut_wf (hs : Memory.wf s.mem) (n : Nat) : Memory.wf (s.releaseCut n).mem := (Tame.releaseCut s _).mem hs
@[simp] theorem State.releaseCuts_wf (hs : Memory.wf s.mem) (k : Nat) : Memory.wf (s.releaseCuts k).mem := (Tame.releaseCuts s _).mem hs
@[simp] theorem State.abortLocal_wf (hs : Memory.wf s.mem) (k : Nat) : Memory.wf (s.abortLocal k).mem := (Tame.abortLocal s _).mem hs
@[simp] theorem State.abortSnapshot_wf (hs : Memory.wf s.mem) (k : Nat) : Memory.wf (s.abortSnapshot k).mem := (Tame.abortSnapshot s _).mem hs
@[simp] theorem State.copyFailed_wf (hs : Memory.wf s.mem) (k : Nat) : Memory.wf (s.copyFailed k).mem := (Tame.copyFailed s _).mem hs
@[simp] theorem State.inOld_given (hs : Memory.wf s.mem) (k : Nat) (f : State → Option State)
    (hf : ∀ v, Memory.wf v.mem → Given (f v)) : Given (s.inOld k f) := by
  intro u hu
  rw [State.inOld, Option.map_eq_some_iff] at hu
  obtain ⟨v, hv, rfl⟩ := hu
  exact hf _ (State.setSnap_wf hs _ _) v hv
@[simp] theorem State.pageRecord_given (hs : Memory.wf s.mem) (k page : Nat) : Given (s.pageRecord k page) := by
  intro u hu
  rw [State.pageRecord, Option.map_eq_some_iff] at hu
  obtain ⟨v, hv, rfl⟩ := hu
  refine State.inOld_given hs k _ (fun w hw => ?_) v hv
  simp [hw]
@[simp] theorem State.copyPage_wf (hs : Memory.wf s.mem) (k page : Nat) : Memory.wf (s.copyPage k page).mem := by
  unfold State.copyPage
  extract_lets u
  have hu : Memory.wf u.mem := State.fixLines_wf s _ _ _ hs
  split
  · next v hv => exact State.pageRecord_given hu _ _ v hv
  · have hfail := State.copyFailed_wf hu k
    split
    · cases h : (u.copyFailed k).pageRecord k page with
      | none => exact State.copyFailed_wf hfail k
      | some v => exact State.pageRecord_given hfail _ _ v h
    · exact hfail
@[simp] theorem State.freePage_wf (hs : Memory.wf s.mem) (page : Nat) : Memory.wf (s.freePage page).mem := by simp +contextual [State.freePage, hs]
@[simp] theorem State.freePages_wf (hs : Memory.wf s.mem) (pa n : Nat) : Memory.wf (s.freePages pa n).mem := by simp +contextual [State.freePages, hs]
@[simp] theorem State.copyBuffer_wf (hs : Memory.wf s.mem) (n t b : Nat) : Memory.wf (s.copyBuffer n t b).mem := (Tame.copyBuffer s _ _ _).mem hs
@[simp] theorem State.copyRegion_wf (hs : Memory.wf s.mem) (n : Nat) : Memory.wf (s.copyRegion n).mem := (Tame.copyRegion s _).mem hs
@[simp] theorem State.writeSync_given (hs : Memory.wf s.mem) (k : Nat) : Given (s.writeSync k) := by simp [State.writeSync, hs]
@[simp] theorem State.freeWaiting_wf (hs : Memory.wf s.mem) (who : Option (Nat × Nat × Bool)) : Memory.wf (s.freeWaiting who).mem := by
  cases who with
  | none => exact hs
  | some w => simp [State.freeWaiting, hs]
@[simp] theorem State.commitLocal_wf (hs : Memory.wf s.mem) (k : Nat) : Memory.wf (s.commitLocal k).mem := by
  have hcommit : Memory.wf ((s.commitEntry k).dropSeventeenth k).mem := by
    have hentry : Memory.wf (s.commitEntry k).mem := State.catWrite_wf hs _ _ _
    generalize s.commitEntry k = u at hentry ⊢
    unfold State.dropSeventeenth
    split
    · split
      · exact State.dropFolio_wf hentry _ _
      · exact hentry
    · exact hentry
  rw [State.commitLocal_eq]
  generalize (s.commitEntry k).dropSeventeenth k = u at hcommit ⊢
  exact State.completeFor_wf (State.freeWaiting_wf (State.setSnap_wf hcommit _ _) _) _ _
@[simp] theorem State.jobStarts_wf (hs : Memory.wf s.mem) (k : Nat) : Memory.wf (s.jobStarts k).mem := by simp [State.jobStarts, hs]
@[simp] theorem State.flushLog_wf (hs : Memory.wf s.mem) : Memory.wf (s.flushLog).mem := by
  unfold State.flushLog
  dsimp only
  repeat' split
  all_goals simp +contextual [hs]
@[simp] theorem State.enableVif_wf (hs : Memory.wf s.mem) (v : Nat) : Memory.wf (s.enableVif v).mem := by
  unfold State.enableVif
  dsimp only
  repeat' split
  all_goals simp +contextual [hs]
@[simp] theorem State.disableVif_wf (hs : Memory.wf s.mem) (v : Nat) : Memory.wf (s.disableVif v).mem := hs
@[simp] theorem State.answer_wf (hs : Memory.wf s.mem) (vif : Nat) (ok : Bool) (v : Nat) : Memory.wf (s.answer vif ok v).mem := hs
@[simp] theorem State.hostWrite_wf (hs : Memory.wf s.mem) (vif va : Nat) (data : List Byte) : Memory.wf (s.hostWrite vif va data).1.mem := by
  have hwrite := wf_gwrite hs 0 (vifCtx vif) va data []
  unfold State.hostWrite
  split
  · exact hs
  · split
    · next u hu =>
      rw [hu] at hwrite
      exact hwrite
    · next u _ hu =>
      rw [hu] at hwrite
      exact State.answer_wf hwrite _ _ _
    · next u _ hu =>
      rw [hu] at hwrite
      exact State.answer_wf hwrite _ _ _

end Sys2Proof.Machine
end

section
/-! PROOFS. The canonical form of memory: the launch graph, the placer and the packets keep it. -/

namespace Sys2Proof.Machine
open Sys2Proof.Claims

variable {s : State}

/-! ### Readings -/

/-- A reading leaves memory canonical. -/
def Reading.Keeps {α : Type} (r : Reading α) : Prop := ∀ s, Memory.wf s.mem → Memory.wf (r s).1.mem

namespace Reading.Keeps
variable {α β : Type}

theorem pure (a : α) : (Reading.pure a).Keeps := fun _ hs => hs
theorem fail : (Reading.fail : Reading α).Keeps := fun _ hs => hs

theorem ite {c : Prop} [Decidable c] {a b : Reading α} (ha : a.Keeps) (hb : b.Keeps) : (if c then a else b).Keeps := by
  split
  · exact ha
  · exact hb

theorem bind {r : Reading α} {f : α → Reading β} (hr : r.Keeps) (hf : ∀ a, (f a).Keeps) : (r.bind f).Keeps := by
  intro s hs
  have hx := hr s hs
  rw [Reading.bind]
  generalize r s = x at hx ⊢
  obtain ⟨u, g⟩ := x
  cases g with
  | wait => exact hx
  | bad => exact hx
  | ok a => exact hf a u hx

theorem orElse {r : Reading α} {bad : β} {f : α → Reading β} (hr : r.Keeps) (hf : ∀ a, (f a).Keeps) : (r.orElse bad f).Keeps := by
  intro s hs
  have hx := hr s hs
  rw [Reading.orElse]
  generalize r s = x at hx ⊢
  obtain ⟨u, g⟩ := x
  cases g with
  | wait => exact hx
  | bad => exact hx
  | ok a => exact hf a u hx

theorem guard (c : Bool) : (Reading.guard c).Keeps := ite (pure ()) fail

theorem each {f : α → Reading β} (hf : ∀ a, (f a).Keeps) : ∀ l, (Reading.each f l).Keeps
  | [] => pure []
  | a :: l => bind (hf a) fun _ => bind (each hf l) fun _ => pure _

theorem bytes (ctx va n : Nat) : (Reading.bytes ctx va n).Keeps := by
  intro s hs
  have hread := wf_gread hs 0 ctx va n
  rw [Reading.bytes]
  generalize s.gread 0 ctx va n = x at hread ⊢
  obtain ⟨u, g⟩ := x
  split
  · exact hs
  · cases g <;> exact hread

theorem xl (ctx va n kind : Nat) : (Reading.xl ctx va n kind).Keeps := by
  intro s hs
  rw [Reading.xl]
  split
  · simp [hs]
  · exact hs
  · exact hs

theorem readImage (ctx va : Nat) : (Machine.readImage ctx va).Keeps := by
  refine bind (bytes _ _ _) fun h => bind (guard _) fun _ => bind (bytes _ _ _) fun caps => bind (guard _) fun _ => bind (bytes _ _ _) fun bufs =>
    bind (bytes _ _ _) fun wg => bind (bytes _ _ _) fun dir => bind (bytes _ _ _) fun data => ?_
  split
  · exact bind (guard _) fun _ => bind (guard _) fun _ => bind (each (fun _ => bytes _ _ _) _) fun _ => bind (guard _) fun _ => bind (guard _) fun _ => pure _
  · exact fail

theorem readGroups (ctx : Nat) (x : Node) (img : Image) : (Machine.readGroups ctx x img).Keeps :=
  bind (bytes _ _ _) fun _ => each (fun _ => bind (guard _) fun _ => bind (bytes _ _ _) fun _ _ hs => hs) _

theorem imageChecks (ctx : Nat) (v : Vif) (x : Node) : (Machine.imageChecks ctx v x).Keeps := by
  refine orElse (readImage _ _) fun r => ?_
  dsimp only
  split
  · exact pure _
  · exact ite (pure _) (orElse (readGroups _ _ _) fun _ _ hs => hs)

theorem launchChecks (vif : Nat) (p : List Byte) : (Machine.launchChecks vif p).Keeps := by
  intro s hs
  rw [Machine.launchChecks]
  split
  · exact hs
  · split
    · exact hs
    · exact bind (ite (pure _) (xl _ _ _ _)) (fun a => bind (ite (pure _) (xl _ _ _ _)) fun b => bind (ite (pure _) (xl _ _ _ _)) fun c =>
        bind (xl _ _ _ _) fun d => ite (pure _) (ite (pure _) (imageChecks _ _ _))) s hs

end Reading.Keeps

/-! ### Nodes and instances -/

@[simp] theorem State.noteStart_wf (hs : Memory.wf s.mem) (n : Nat) : Memory.wf (s.noteStart n).mem := by
  unfold State.noteStart
  dsimp only
  split <;> simp [hs]
@[simp] theorem State.retireNode_wf (hs : Memory.wf s.mem) (x : Node) : Memory.wf (s.retireNode x).mem := hs
@[simp] theorem State.writeRecord2_wf (hs : Memory.wf s.mem) (vif crec : Nat) (head : List Byte) (lid : Nat) :
    Memory.wf (s.writeRecord2 vif crec head lid).1.mem := (Tame.writeRecord2 s _ _ _ _).mem hs
@[simp] theorem State.recordNode_wf (hs : Memory.wf s.mem) (x : Node) : Memory.wf (s.recordNode x).mem := (Tame.recordNode s _).mem hs
@[simp] theorem State.dropJob_wf (hs : Memory.wf s.mem) (world jobid : Nat) : Memory.wf (s.dropJob world jobid).mem := (Tame.dropJob s _ _).mem hs
@[simp] theorem State.finish_wf (hs : Memory.wf s.mem) (x : Node) (offset : Option Word) :
    Memory.wf (s.finish x offset).mem := (Tame.finish s _ _).mem hs
@[simp] theorem State.stepNode_wf (hs : Memory.wf s.mem) (arrival : Nat) : Memory.wf (s.stepNode arrival).mem := (Tame.stepNode s _).mem hs
@[simp] theorem State.retireNodes_wf (hs : Memory.wf s.mem) : Memory.wf (s.retireNodes).mem := hs
@[simp] theorem State.settleGraph_wf (hs : Memory.wf s.mem) : Memory.wf (s.settleGraph).mem := (Tame.settleGraph s).mem hs
@[simp] theorem State.leaveTiles_wf (hs : Memory.wf s.mem) (n : Nat) : Memory.wf (s.leaveTiles n).mem := (Tame.leaveTiles s _).mem hs
@[simp] theorem State.freeSlot_wf (hs : Memory.wf s.mem) (n : Nat) : Memory.wf (s.freeSlot n).mem := (Tame.freeSlot s _).mem hs
@[simp] theorem State.noteGone_wf (hs : Memory.wf s.mem) (n verdict : Nat) (reached : Bool) (node : Nat) :
    Memory.wf (s.noteGone n verdict reached node).mem := (Tame.noteGone s _ _ _ _).mem hs
@[simp] theorem State.endNode_wf (hs : Memory.wf s.mem) (x : Node) (reason : Nat) : Memory.wf (s.endNode x reason).mem := by
  unfold State.endNode
  extract_lets mine off rmax
  refine State.finish_wf (wf_foldl hs (fun u e hu => ?_) _) _ _
  exact State.freeSlot_wf hu _
@[simp] theorem State.endInstance_wf (hs : Memory.wf s.mem) (n verdict reason cause : Nat) (reached : Bool) :
    Memory.wf (s.endInstance n verdict reason cause reached).mem := (Tame.endInstance s _ _ _ _ _).mem hs
@[simp] theorem State.abortSlot_wf (hs : Memory.wf s.mem) (n reason : Nat) : Memory.wf (s.abortSlot n reason).mem := by simp [State.abortSlot, hs]
@[simp] theorem State.startRegion_wf (hs : Memory.wf s.mem) (n : Nat) : Memory.wf (s.startRegion n).mem := by simp +contextual [State.startRegion, hs]
@[simp] theorem State.placeNext_given (hs : Memory.wf s.mem) (x : Node) (img : Image) (inst : Nat) : Given (s.placeNext x img inst) := by
  unfold State.placeNext
  dsimp only
  repeat' split
  all_goals simp +contextual [hs]
theorem State.placeGang_given : ∀ (k : Nat) {s : State} (x : Node), Memory.wf s.mem → Given (s.placeGang x k)
  | 0, _, _, hs => given_some.2 hs
  | k + 1, s, x, hs => by
    rw [State.placeGang]
    split
    · exact given_some.2 hs
    · intro u hu
      rw [Option.bind_eq_some_iff] at hu
      obtain ⟨v, hv, hu⟩ := hu
      exact State.placeGang_given k _ (State.placeNext_given hs _ _ _ v hv) u hu
@[simp] theorem State.placeNode_given (hs : Memory.wf s.mem) (x : Node) : Given (s.placeNode x) := State.placeGang_given _ _ hs
@[simp] theorem State.placeFirst_wf (hs : Memory.wf s.mem) : ∀ l, Memory.wf (s.placeFirst l).mem
  | [] => hs
  | x :: r => by
    rw [State.placeFirst]
    split
    · next u hu => exact State.placeNode_given hs x u hu
    · split
      · exact hs
      · exact State.placeFirst_wf hs r
@[simp] theorem State.without_wf (hs : Memory.wf s.mem) (vs : List Nat) : Memory.wf (s.without vs).mem := by simp +contextual [State.without, hs]
@[simp] theorem State.askMove_wf (hs : Memory.wf s.mem) (n : Nat) : Memory.wf (s.askMove n).mem := by simp [State.askMove, hs]
@[simp] theorem State.moveFor_wf (hs : Memory.wf s.mem) (x : Node) (n : Nat) : Memory.wf (s.moveFor x n).mem := by simp [State.moveFor, hs]
@[simp] theorem State.makeMoves_wf (hs : Memory.wf s.mem) : ∀ l, Memory.wf (s.makeMoves l).mem
  | [] => hs
  | x :: r => by
    rw [State.makeMoves]
    split
    · exact hs
    · split
      · split
        · exact hs
        · exact State.makeMoves_wf hs r
      · exact wf_foldl hs (fun u n hu => State.moveFor_wf hu _ _) _
@[simp] theorem State.setReportTo_wf (hs : Memory.wf s.mem) (vif e : Nat) : Memory.wf (s.setReportTo vif e).mem := by simp [State.setReportTo, hs]
@[simp] theorem State.report_wf (hs : Memory.wf s.mem) (vif lid ty reason : Nat) : Memory.wf (s.report vif lid ty reason).mem := hs
@[simp] theorem State.passPacket_wf (hs : Memory.wf s.mem) (vif len lid ty reason : Nat) : Memory.wf (s.passPacket vif len lid ty reason).mem := hs
@[simp] theorem State.endFailed_wf (hs : Memory.wf s.mem) (ctx : Nat) : Memory.wf (s.endFailed ctx).mem := hs
@[simp] theorem State.rejectLaunch_wf (hs : Memory.wf s.mem) (vif len : Nat) (p : List Byte) (reason : Nat) :
    Memory.wf (s.rejectLaunch vif len p reason).mem := by
  unfold State.rejectLaunch
  extract_lets crec none_ s0
  have hwrite := State.writeRecord2_wf hs vif crec (recordHead (pk p 4 4) 3 reason 0 0 s.wall.toNat 0 0) (pk p 4 4)
  split
  · exact State.passPacket_wf (State.endFailed_wf hs _) _ _ _ _ _
  · split
    · next u hu =>
      rw [hu] at hwrite
      exact hwrite
    · next u _ _ hu =>
      rw [hu] at hwrite
      exact State.passPacket_wf (State.endFailed_wf hwrite _) _ _ _ _ _
@[simp] theorem State.admitNode_wf (hs : Memory.wf s.mem) (x : Node) : Memory.wf (s.admitNode x).mem := by simp [State.admitNode, hs]
@[simp] theorem State.cancelNode_wf (hs : Memory.wf s.mem) (x : Node) : Memory.wf (s.cancelNode x).mem := by
  unfold State.cancelNode
  split
  · exact State.retireNode_wf (State.settleGraph_wf hs) _
  · refine State.settleGraph_wf (State.endNode_wf ?_ _ _)
    split
    · exact State.abortSnapshot_wf hs _
    · exact hs
@[simp] theorem State.releaseHeld_wf (hs : Memory.wf s.mem) (x : Node) : Memory.wf (s.releaseHeld x).mem := by simp [State.releaseHeld, hs]
theorem State.readPacket_wf_of (hs : Memory.wf s.mem) {vif : Nat} {r : State × Option Packet} (hr : s.readPacket vif = r) : Memory.wf r.1.mem := by
  have hhead := Reading.Keeps.bytes (vifCtx vif) ((s.vifOf vif).addr (s.vifOf vif).ridx) 4 s hs
  unfold State.readPacket at hr
  cases hen : (!(s.vifOf vif).en || decide ((s.vifOf vif).ready < 64)) with
  | true =>
    rw [if_pos hen] at hr
    exact hr ▸ hs
  | false =>
    obtain ⟨⟨u, got⟩, hu⟩ : ∃ x, Reading.bytes (vifCtx vif) ((s.vifOf vif).addr (s.vifOf vif).ridx) 4 s = x := ⟨_, rfl⟩
    rw [hu] at hhead
    cases got with
    | wait =>
      simp only [hen, hu, Bool.false_eq_true, if_false] at hr
      exact hr ▸ hhead
    | bad =>
      simp only [hen, hu, Bool.false_eq_true, if_false] at hr
      exact hr ▸ State.setVif_wf hhead _ _
    | ok h =>
      simp only [hen, hu, Bool.false_eq_true, if_false] at hr
      obtain ⟨len, hlen⟩ : ∃ len, Nat.min (64 * Nat.max (bits (leNat h) 8 8) 1) ((s.vifOf vif).qsize - (s.vifOf vif).ridx % (s.vifOf vif).qsize) = len := ⟨_, rfl⟩
      rw [hlen] at hr
      have hbody := Reading.Keeps.bytes (vifCtx vif) ((s.vifOf vif).addr (s.vifOf vif).ridx) len u hhead
      obtain ⟨⟨w, got'⟩, hw⟩ : ∃ x, Reading.bytes (vifCtx vif) ((s.vifOf vif).addr (s.vifOf vif).ridx) len u = x := ⟨_, rfl⟩
      rw [hw] at hbody hr
      split at hr
      · exact hr ▸ hhead
      · cases got' with
        | wait => exact hr ▸ hbody
        | bad => exact hr ▸ State.setVif_wf hbody _ _
        | ok bs => exact hr ▸ hbody
@[simp] theorem State.readPacket_wf (hs : Memory.wf s.mem) (vif : Nat) : Memory.wf (s.readPacket vif).1.mem := State.readPacket_wf_of hs rfl
@[simp] theorem State.disposePacket_wf (hs : Memory.wf s.mem) (vif : Nat) (k : Packet) : Memory.wf (s.disposePacket vif k).mem := by
  have hchecks := Reading.Keeps.launchChecks vif k.bytes s hs
  unfold State.disposePacket
  dsimp only
  split
  · simp [hs]
  · split
    · exact hs
    · split
      · exact State.rejectLaunch_wf hs _ _ _ _
      · split
        · exact State.rejectLaunch_wf hs _ _ _ _
        · split
          · next u x hu =>
            rw [hu] at hchecks
            exact State.passPacket_wf (State.admitNode_wf hchecks _) _ _ _ _ _
          · next u c hu =>
            rw [hu] at hchecks
            exact State.rejectLaunch_wf (s := { u with tlb := s.tlb }) hchecks _ _ _ _
          · next u _ _ _ hu =>
            rw [hu] at hchecks
            exact hchecks
  · split
    · simp [hs]
    · split
      · simp [hs]
      · split
        · simp [hs]
        · split
          · split
            · simp [hs]
            · exact State.passPacket_wf (State.cancelNode_wf (State.recordNode_wf hs _) _) _ _ _ _ _
          · exact State.passPacket_wf (State.cancelNode_wf hs _) _ _ _ _ _
  · split
    · simp [hs]
    · split
      · simp [hs]
      · split
        · simp [hs]
        · split
          · simp [hs]
          · exact State.passPacket_wf (State.releaseHeld_wf hs _) _ _ _ _ _
  · simp [hs]
@[simp] theorem State.packetOf_wf (hs : Memory.wf s.mem) (vif : Nat) (want : Nat → Bool) : Memory.wf (s.packetOf vif want).mem := by
  have hread := State.readPacket_wf hs vif
  unfold State.packetOf
  split
  · exact hs
  · split
    · next u hu =>
      rw [hu] at hread
      exact hread
    · next u k hu =>
      rw [hu] at hread
      split
      · exact State.disposePacket_wf hread _ _
      · exact hs
@[simp] theorem State.command_wf (hs : Memory.wf s.mem) (n : Nat) (ok : Slot → Bool) {act : State} (hact : Memory.wf act.mem) :
    Memory.wf (s.command n ok act).mem := by
  unfold State.command
  dsimp only
  split
  · exact hs
  · split
    · exact hs
    · split
      · simp [hs]
      · exact hact

end Sys2Proof.Machine
end

section
/-! PROOFS. The canonical form of memory: the Harness commands, stows, resumes and shoot-downs keep it. -/

namespace Sys2Proof.Machine
open Sys2Proof.Claims

variable {s : State}

theorem wf_of_ite {c : Prop} [Decidable c] {a b : State} (ha : Memory.wf a.mem) (hb : Memory.wf b.mem) :
    Memory.wf (if c then a else b).mem := by
  split
  · exact ha
  · exact hb
theorem State.setSlot_wf (hs : Memory.wf s.mem) (n : Nat) (r : Slot) : Memory.wf (s.setSlot n r).mem := by
  rw [State.setSlot_mem]
  exact hs
theorem State.cmdDone_wf (hs : Memory.wf s.mem) (n c : Nat) : Memory.wf (s.cmdDone n c).mem := by
  rw [State.cmdDone_mem]
  exact hs
@[simp] theorem State.askStow_wf (hs : Memory.wf s.mem) (n : Nat) (evict : Bool) : Memory.wf (s.askStow n evict).mem := by simp [State.askStow, hs]
@[simp] theorem State.cmdStow_wf (hs : Memory.wf s.mem) (n : Nat) (evict : Bool) : Memory.wf (s.cmdStow n evict).mem := by simp [State.cmdStow, hs]
@[simp] theorem State.cmdThaw_wf (hs : Memory.wf s.mem) (n : Nat) : Memory.wf (s.cmdThaw n).mem := by simp [State.cmdThaw, hs]
@[simp] theorem State.cmdFreeze_wf (hs : Memory.wf s.mem) (n : Nat) : Memory.wf (s.cmdFreeze n).mem := by simp [State.cmdFreeze, hs]
@[simp] theorem State.cmdAbort_wf (hs : Memory.wf s.mem) (n reason : Nat) : Memory.wf (s.cmdAbort n reason).mem := by simp [State.cmdAbort, hs]
@[simp] theorem State.askReplay_wf (hs : Memory.wf s.mem) (n : Nat) (byCmd : Bool) :
    Memory.wf (s.askReplay n byCmd).mem := by simp [State.askReplay, hs]
@[simp] theorem State.cmdReplay_wf (hs : Memory.wf s.mem) (n : Nat) : Memory.wf (s.cmdReplay n).mem := by simp [State.cmdReplay, hs]
@[simp] theorem State.replayNow_wf (hs : Memory.wf s.mem) (n : Nat) : Memory.wf (s.replayNow n).mem := by
  unfold State.replayNow
  extract_lets c s1 r _ s2
  have hone : Memory.wf s1.mem := by
    refine wf_foldl hs (fun u t hu => ?_) _
    exact State.setTileAt_wf (State.readStow_wf hu _ _ _ _) _ _ _
  have htwo : Memory.wf s2.mem := State.setSlot_wf hone _ _
  refine State.joinRoll_wf ?_ _
  split
  · exact State.cmdDone_wf htwo _ _
  · exact htwo
@[simp] theorem State.moveTile_wf (hs : Memory.wf s.mem) (n t : Nat) : Memory.wf (s.moveTile n t).mem := by
  unfold State.moveTile
  extract_lets r ds s1 x
  refine State.ctxPieces_wf ?_ _ _ _ _
  exact State.stowRead_wf (wf_foldl hs (fun u d hu => State.stowRead_wf hu _ _ _ _ _) _) _ _ _ _ _
@[simp] theorem State.stowTile_wf (hs : Memory.wf s.mem) (n t : Nat) (evict : Bool) : Memory.wf (s.stowTile n t evict).mem := by
  unfold State.stowTile
  extract_lets r base drains s0 x s1 s2
  have hzero : Memory.wf s0.mem := State.stowRead_wf (State.stowRead_wf hs _ _ _ _ _) _ _ _ _ _
  clear_value s0
  have hone : Memory.wf s1.mem := State.ctxPieces_wf (State.setTileAt_wf hzero _ _ _) _ _ _ _
  clear_value s1
  have htwo : Memory.wf s2.mem := by
    cases evict with
    | true => exact State.moveTile_wf hone _ _
    | false => exact hone
  exact State.setSlot_wf htwo _ _
@[simp] theorem State.stowNow_wf (hs : Memory.wf s.mem) (n : Nat) : Memory.wf (s.stowNow n).mem := by
  unfold State.stowNow
  extract_lets r s1 s2 s3 _ s4 s5
  have hone : Memory.wf s1.mem := by
    refine wf_foldl hs (fun u t hu => ?_) _
    exact State.stowTile_wf hu _ _ _
  have htwo : Memory.wf s2.mem := by
    dsimp only [s2]
    split
    · exact State.leaveTiles_wf hone _
    · exact hone
  have hfive : Memory.wf s5.mem := State.postEvent_wf (s := s4) htwo _ _ _
  split
  · exact hfive
  · exact State.cmdDone_wf hfive _ _
@[simp] theorem State.awaitCtx_wf (hs : Memory.wf s.mem) (n : Nat) : Memory.wf (s.awaitCtx n).mem := by simp [State.awaitCtx, hs]
@[simp] theorem State.evictNow_wf (hs : Memory.wf s.mem) (n : Nat) : Memory.wf (s.evictNow n).mem := by
  unfold State.evictNow
  refine State.setSlot_wf (State.leaveTiles_wf ?_ _) _ _
  refine wf_foldl hs (fun u t hu => ?_) _
  exact State.moveTile_wf hu _ _
@[simp] theorem State.returnTile_wf (hs : Memory.wf s.mem) (n t : Nat) : Memory.wf (s.returnTile n t).mem := by simp [State.returnTile, hs]
@[simp] theorem State.resumeTile_wf (hs : Memory.wf s.mem) (n t : Nat) (evicted : Bool) : Memory.wf (s.resumeTile n t evicted).mem := by
  unfold State.resumeTile
  extract_lets s0 r base ctx b k xs s1
  have hzero : Memory.wf s0.mem := by
    refine State.fixCtx_wf (State.readStow_wf ?_ _ _ _ _) _ _ _
    split
    · exact State.returnTile_wf hs _ _
    · exact hs
  exact State.setSlot_wf (State.setTileAt_wf hzero _ _ _) _ _
@[simp] theorem State.resumeNow_wf (hs : Memory.wf s.mem) (n : Nat) (q : Nat × Nat × Nat) : Memory.wf (s.resumeNow n q).mem := by
  unfold State.resumeNow
  extract_lets r _ s1 s2 r2 low mhz
  have htwo : Memory.wf s2.mem := by
    refine wf_foldl (s := s1) hs (fun u t hu => ?_) _
    exact State.resumeTile_wf hu _ _ _
  exact State.joinRoll_wf (State.setSlot_wf htwo _ _) _
@[simp] theorem State.cmdResume_wf (hs : Memory.wf s.mem) (n : Nat) (q : Nat × Nat × Nat) :
    Memory.wf (s.cmdResume n q).mem := by
  unfold State.cmdResume
  refine State.command_wf hs _ _ ?_
  cases s.placeErr n q with
  | succ e => exact State.cmdDone_wf hs _ _
  | zero =>
    dsimp only
    have hload (v : Slot) : Memory.wf (((s.setSlot n v).startRegion n).cmdDone n 0).mem :=
      State.cmdDone_wf (State.startRegion_wf (State.setSlot_wf hs _ _) _) _ _
    have hthree := State.cmdDone_wf hs n 3
    have hresume : Memory.wf ((s.resumeNow n q).cmdDone n 0).mem := State.cmdDone_wf (State.resumeNow_wf hs _ _) _ _
    exact wf_of_ite (wf_of_ite hthree (hload _)) (wf_of_ite hthree hresume)
@[simp] theorem State.resumeMoved_wf (hs : Memory.wf s.mem) (n : Nat) : Memory.wf (s.resumeMoved n).mem := by
  unfold State.resumeMoved
  dsimp only
  repeat' split
  all_goals simp +contextual [hs]
@[simp] theorem State.resumeAll_wf (hs : Memory.wf s.mem) : Memory.wf (s.resumeAll).mem := by simp +contextual [State.resumeAll, hs]
@[simp] theorem State.writeHrcmd_wf (hs : Memory.wf s.mem) (n v : Nat) : Memory.wf (s.writeHrcmd n v).mem := by
  unfold State.writeHrcmd
  split <;> simp [hs]
@[simp] theorem State.clockNow_wf (hs : Memory.wf s.mem) (n : Nat) : Memory.wf (s.clockNow n).mem := hs
@[simp] theorem State.goOn_wf (hs : Memory.wf s.mem) (n : Nat) : Memory.wf (s.goOn n).mem := by simp +contextual [State.goOn, hs]
@[simp] theorem State.setHealth_wf (hs : Memory.wf s.mem) (p v : Nat) : Memory.wf (s.setHealth p v).mem := by
  unfold State.setHealth
  split <;> simp [hs]
@[simp] theorem State.flushTile_wf (hs : Memory.wf s.mem) (n t : Nat) (sel : TlbE → Bool) : Memory.wf (s.flushTile n t sel).mem := by
  unfold State.flushTile
  refine wf_foldl hs (fun u d hu => wf_foldl hu (fun v g hv => ?_) _) _
  extract_lets x b gran va u1 v0
  split
  · exact hv
  · split
    · exact hv
    · split
      · exact hv
      · have hread : Memory.wf u1.mem := State.stowRead_wf hv _ _ _ _ _
        have hfree : Memory.wf v0.mem := by
          dsimp only [v0]
          split
          · exact State.freePage_wf hread _
          · exact hread
        have hwrite := wf_gwrite hfree 0 n va (Store.getN 0 x.sram (gran * 4096) 4096) (x.badLines (gran * 4096) 4096)
        split
        · next w _ hw =>
          rw [hw] at hwrite
          exact State.setTileAt_wf hwrite _ _ _
        · exact hfree
@[simp] theorem State.shoot_wf (hs : Memory.wf s.mem) (sel : TlbE → Bool) : Memory.wf (s.shoot sel).mem := by
  unfold State.shoot
  refine wf_foldl hs (fun u e hu => ?_) s.slots
  split
  · exact wf_foldl hu (fun v t hv => State.flushTile_wf hv _ _ _) _
  · exact hu
@[simp] theorem State.ackShoot_wf (hs : Memory.wf s.mem) (u : Nat) : Memory.wf (s.ackShoot u).mem := by
  unfold State.ackShoot
  dsimp only
  repeat' split
  all_goals simp +contextual [hs]
@[simp] theorem State.send_wf (hs : Memory.wf s.mem) (os : List Out) : Memory.wf (s.send os).mem := hs

end Sys2Proof.Machine
end

section
/-! PROOFS. The canonical form of memory: cuts, messages and rollbacks keep it. -/

namespace Sys2Proof.Machine
open Sys2Proof.Claims

variable {s : State}

/-! ### States that may be missing -/

theorem given_bind {o : Option State} {f : State → Option State} (ho : Given o)
    (hf : ∀ u, Memory.wf u.mem → Given (f u)) : Given (o.bind f) := by
  cases o with
  | none => exact given_none
  | some u => exact hf u (ho u rfl)
theorem given_map {o : Option State} {f : State → State} (ho : Given o)
    (hf : ∀ u, Memory.wf u.mem → Memory.wf (f u).mem) : Given (o.map f) := by
  cases o with
  | none => exact given_none
  | some u => exact given_some.2 (hf u (ho u rfl))
theorem given_foldl {α : Type} {f : State → α → Option State} (hf : ∀ u a, Memory.wf u.mem → Given (f u a)) :
    ∀ (l : List α) {o : Option State}, Given o → Given (l.foldl (fun (o : Option State) a => o.bind (fun u => f u a)) o)
  | [], _, ho => ho
  | a :: l, _, ho => given_foldl hf l (given_bind ho fun u hu => hf u a hu)

/-- The recursive values of a walk over tiles. -/
abbrev Walk (l : List Nat) : Type := List.below (motive := fun _ => State → Option State) l
/-- The rest of a walk keeps memory canonical. -/
def Walk.Keeps : (l : List Nat) → Walk l → Prop
  | [], _ => True
  | _ :: _, r => ∀ u, Memory.wf u.mem → Given (r.1 u)
theorem given_brecOn {f : (l : List Nat) → Walk l → State → Option State}
    (hf : ∀ l (r : Walk l) v, Walk.Keeps l r → Memory.wf v.mem → Given (f l r v)) :
    ∀ (l : List Nat) {v : State}, Memory.wf v.mem → Given (List.brecOn (motive := fun _ => State → Option State) l f v)
  | [], v, hv => hf [] _ v trivial hv
  | t :: ts, v, hv => hf (t :: ts) _ v (fun _ hu => given_brecOn hf ts hu) hv
theorem given_walk {a : Walk [] → Option State} {b : ∀ t ts, Walk (t :: ts) → Option State} (ha : ∀ r, Given (a r))
    (hb : ∀ t ts r, Walk.Keeps (t :: ts) r → Given (b t ts r)) : ∀ {l : List Nat} {r : Walk l}, Walk.Keeps l r →
    Given ((match (motive := (l : List Nat) → Walk l → Option State) l with
      | [] => a
      | t :: ts => b t ts) r)
  | [], r, _ => ha r
  | t :: ts, r, hr => hb t ts r hr

/-! ### Cuts, messages and rollbacks -/

/-- The state's memory is canonical, as one predicate of the state. -/
def Sound (s : State) : Prop := Memory.wf s.mem
theorem sound_match {o : Option State} {a : State} {b : State → State} (ha : Sound a) (hb : ∀ u, o = some u → Sound (b u)) :
    Sound (match (generalizing := false) o with
      | none => a
      | some u => b u) := by
  cases o with
  | none => exact ha
  | some u => exact hb u rfl
theorem sound_ite {c : Prop} [Decidable c] {a b : State} (ha : Sound a) (hb : Sound b) : Sound (if c then a else b) := by
  split
  · exact ha
  · exact hb
theorem State.setInbox_wf (hs : Memory.wf s.mem) (b : Store Msg) : Memory.wf ({ s with inbox := b } : State).mem := hs
theorem State.setHeldPages_wf (hs : Memory.wf s.mem) (b : List Nat) : Memory.wf ({ s with heldPages := b } : State).mem := hs

@[simp] theorem State.cutRead_wf (hs : Memory.wf s.mem) (n t : Nat) : Memory.wf (s.cutRead n t).mem := by
  unfold State.cutRead
  extract_lets r p s1
  have hone : Memory.wf s1.mem := State.stowRead_wf (State.stowRead_wf hs _ _ _ _ _) _ _ _ _ _
  clear_value s1
  exact wf_of_ite (State.fixCtx_wf hs _ _ _)
    (wf_of_ite (State.fixCtx_wf hone _ _ _) (State.stowRead_wf (State.stowRead_wf hone _ _ _ _ _) _ _ _ _ _))
@[simp] theorem State.cutTiles_given (n : Nat) (l : List Nat) {s : State} (hs : Memory.wf s.mem) : Given (s.cutTiles n l) := by
  delta State.cutTiles
  refine given_brecOn (fun l r v hr hv => ?_) l hs
  delta State.cutTiles._f
  refine given_walk (fun _ => given_some.2 hv) (fun t ts r hr => ?_) hr
  extract_lets k w
  have hread : Memory.wf w.mem := State.cutRead_wf hv _ _
  clear_value w
  have hput : Given (w.folioAppend k 3 (regionKey (w.slot n).inst t) (w.regionData n t) (w.regionBad n t)) :=
    State.folioAppend_given hread _ _ _ _ _
  obtain ⟨o, ho⟩ : ∃ o, w.folioAppend k 3 (regionKey (w.slot n).inst t) (w.regionData n t) (w.regionBad n t) = o := ⟨_, rfl⟩
  rw [ho] at hput ⊢
  cases o with
  | none => exact given_none
  | some u => exact hr _ (State.setSnap_wf (hput u rfl) _ _)
@[simp] theorem State.dropMsg_wf (hs : Memory.wf s.mem) (id : Nat) : Memory.wf (s.dropMsg id).mem := hs
@[simp] theorem State.respond_wf (hs : Memory.wf s.mem) (m : Msg) (code : Nat) (data : List Byte) : Memory.wf (s.respond m code data).mem := hs
@[simp] theorem State.armMsg_wf (hs : Memory.wf s.mem) (id : Nat) (m : Msg) : Memory.wf (s.armMsg id m).mem := by
  unfold State.armMsg
  show Sound _
  obtain ⟨c, hc⟩ : ∃ c, m.cw = c := ⟨_, rfl⟩
  rw [hc]
  cases c with
  | none => exact State.setInbox_wf hs _
  | some cw =>
    refine sound_ite (State.respond_wf (State.dropMsg_wf hs _) _ _ _) ?_
    have hfixed : Sound ((s.freePages cw 8).fixLines none cw 8) := State.fixLines_wf _ _ _ _ (State.freePages_wf hs _ _)
    extract_lets s0 old
    have hzero : Sound s0 := hfixed
    clear_value s0
    refine sound_ite (State.respond_wf (State.dropMsg_wf hzero _) _ _ _) ?_
    obtain ⟨o, ho⟩ : ∃ o, swArm old (m.size + m.outside) = o := ⟨_, rfl⟩
    rw [ho]
    cases o with
    | none => exact State.respond_wf (State.dropMsg_wf (wf_wrPhys hzero _ _ _) _) _ _ _
    | some w => exact State.setInbox_wf (wf_wrPhys hzero _ _ _) _
@[simp] theorem State.countMsg_wf (hs : Memory.wf s.mem) (m : Msg) (k : Nat) : Memory.wf (s.countMsg m k).mem := by
  unfold State.countMsg
  split <;> simp [hs]
@[simp] theorem State.collArrive_wf (hs : Memory.wf s.mem) (m : Msg) : Memory.wf (s.collArrive m).mem := by
  unfold State.collArrive
  split <;> simp [hs]
@[simp] theorem State.readAt_wf (hs : Memory.wf s.mem) (pa n : Nat) : Memory.wf (s.readAt pa n).1.mem := by simp [State.readAt, hs]
@[simp] theorem State.writeParts_wf (m : Msg) : ∀ (l : List (Nat × Nat)) (data : List Byte) (code : Nat) {s : State},
    Memory.wf s.mem → Memory.wf (s.writeParts m l data code).1.mem
  | [], _, _, _, hs => hs
  | p :: r, data, code, s, hs => by
    rw [State.writeParts]
    split
    · exact State.writeParts_wf m r _ _ hs
    · exact State.writeParts_wf m r _ _ (State.countMsg_wf (State.syeWrite_wf _ _ _ _ (State.freePages_wf hs _ _)) _ _)
@[simp] theorem State.readParts_wf (m : Msg) : ∀ (l : List (Nat × Nat)) (code : Nat) (bs : List Byte) {s : State},
    Memory.wf s.mem → Memory.wf (s.readParts m l code bs).1.mem
  | [], _, _, _, hs => hs
  | p :: r, code, bs, s, hs => by
    rw [State.readParts]
    have hread : Memory.wf (s.readAt p.1 p.2).1.mem := State.readAt_wf hs _ _
    obtain ⟨q, hq⟩ : ∃ q, s.readAt p.1 p.2 = q := ⟨_, rfl⟩
    rw [hq] at hread ⊢
    split
    · exact State.readParts_wf m r _ _ hs
    · obtain ⟨u, _ | x⟩ := q
      · exact State.readParts_wf m r _ _ hread
      · exact State.readParts_wf m r _ _ (State.countMsg_wf hread _ _)
@[simp] theorem State.bindMsg_wf (hs : Memory.wf s.mem) (m : Msg) : Memory.wf (s.bindMsg m).1.mem := by
  unfold State.bindMsg
  split
  · exact hs
  · split <;> exact hs
@[simp] theorem State.atomMsg_wf (hs : Memory.wf s.mem) (m : Msg) : Memory.wf (s.atomMsg m).1.mem := by
  unfold State.atomMsg
  have hread : Memory.wf (s.readAt m.va m.size).1.mem := State.readAt_wf hs _ _
  split
  · exact hs
  · split
    · next u hu => rw [hu] at hread; exact hread
    · next u old hu =>
      rw [hu] at hread
      split
      · exact hread
      · exact State.syeWrite_wf _ _ _ _ (State.freePages_wf hread _ _)
theorem pair_wf_of_ite {α : Type} {c : Prop} [Decidable c] {a b : State × α} (ha : Memory.wf a.1.mem) (hb : Memory.wf b.1.mem) :
    Memory.wf (if c then a else b).1.mem := by
  split
  · exact ha
  · exact hb
theorem pair_wf {α : Type} (hs : Memory.wf s.mem) (a : α) : Memory.wf ((s, a) : State × α).1.mem := hs
theorem State.msgResult_wf (hs : Memory.wf s.mem) (m : Msg) : Memory.wf (s.msgResult m).1.mem := by
  unfold State.msgResult
  exact pair_wf_of_ite (pair_wf (State.collArrive_wf hs m) _) (pair_wf_of_ite (pair_wf (State.bindMsg_wf hs m) _)
    (pair_wf_of_ite (pair_wf hs _) (pair_wf_of_ite (pair_wf (State.writeParts_wf m _ _ _ hs) _)
      (pair_wf_of_ite (State.atomMsg_wf hs m) (State.readParts_wf m _ _ _ hs)))))
@[simp] theorem State.performMsg_wf (hs : Memory.wf s.mem) (id : Nat) (m : Msg) : Memory.wf (s.performMsg id m).mem := by
  rw [State.performMsg_eq]
  exact State.respond_wf (State.dropMsg_wf (State.msgResult_wf hs m) id) _ _ _
@[simp] theorem State.noteMsg_given (hs : Memory.wf s.mem) (k : Nat) (m : Msg) : Given (s.noteMsg k m) := by
  exact given_map (State.folioAppend_given hs _ _ _ _ _) fun u hu => State.setSnap_wf hu _ _
theorem State.takeMsg_lost {id : Nat} {m : Msg} (h : (s.snap m.job).fate m.src = .note) (hn : s.noteMsg m.job m = none) :
    s.takeMsg id m = s.abortSnapshot m.job := by
  unfold State.takeMsg
  dsimp only
  generalize (s.snap m.job).fate m.src = f at h ⊢
  subst h
  generalize s.noteMsg m.job m = o at hn ⊢
  subst hn
  generalize s.abortSnapshot m.job = v
  rfl
@[simp] theorem State.takeMsg_wf (hs : Memory.wf s.mem) (id : Nat) (m : Msg) : Memory.wf (s.takeMsg id m).mem := by
  have hnote : Given (s.noteMsg m.job m) := State.noteMsg_given hs _ _
  cases hf : (s.snap m.job).fate m.src with
  | discard => rw [State.takeMsg_discard hf]; exact State.dropMsg_wf hs _
  | hold => rw [State.takeMsg_hold hf]; exact hs
  | perform => rw [State.takeMsg_perform hf]; exact State.armMsg_wf hs _ _
  | note => cases hn : s.noteMsg m.job m with
    | none => rw [State.takeMsg_lost hf hn]; exact State.abortSnapshot_wf hs _
    | some u => rw [State.takeMsg_note hf hn]; exact State.armMsg_wf (hnote u hn) _ _
@[simp] theorem State.finishMsg_wf (hs : Memory.wf s.mem) (id : Nat) : Memory.wf (s.finishMsg id).mem := by
  unfold State.finishMsg
  dsimp only
  repeat' split
  all_goals simp +contextual [hs]
@[simp] theorem State.drainMsgs_wf (hs : Memory.wf s.mem) (k : Nat) : Memory.wf (s.drainMsgs k).mem := by simp +contextual [State.drainMsgs, hs]
@[simp] theorem State.tryCommit_wf (hs : Memory.wf s.mem) (k : Nat) : Memory.wf (s.tryCommit k).mem := by simp [State.tryCommit, hs]
@[simp] theorem State.tryReport_wf (hs : Memory.wf s.mem) (k : Nat) : Memory.wf (s.tryReport k).mem := by
  unfold State.tryReport
  have hput : Given (s.folioAppend k 6 0 [] []) := State.folioAppend_given hs _ _ _ _ _
  extract_lets x
  show Sound _
  refine sound_ite ?_ hs
  obtain ⟨o, ho⟩ : ∃ o, s.folioAppend k 6 0 [] [] = o := ⟨_, rfl⟩
  rw [ho] at hput ⊢
  cases o with
  | none => exact State.abortSnapshot_wf hs _
  | some u =>
    have hkept := hput u rfl
    exact sound_ite (c := ((u.snap k).issuer == u.pkgid) = true) (State.tryCommit_wf (State.setSnap_wf hkept _ _) _) (State.send_wf (State.setSnap_wf hkept _ _) _)
@[simp] theorem State.cutMoved_given (hs : Memory.wf s.mem) (k : Nat) : Given (s.cutMoved k) := by
  unfold State.cutMoved
  exact given_foldl (fun u b hu => State.folioAppend_given hu _ _ _ _ _) _ (given_some.2 hs)
@[simp] theorem State.packageCut_wf (hs : Memory.wf s.mem) (k : Nat) : Memory.wf (s.packageCut k).mem := by
  unfold State.packageCut
  extract_lets v ps
  have hv : Memory.wf v.mem := State.drainMsgs_wf hs _
  clear_value v
  have hcut : Given ((v.writeSync k).bind (fun u => u.cutMoved k)) :=
    given_bind (State.writeSync_given hv _) fun u hu => State.cutMoved_given hu _
  show Sound _
  refine sound_ite hv ?_
  obtain ⟨o, ho⟩ : ∃ o, (v.writeSync k).bind (fun u => u.cutMoved k) = o := ⟨_, rfl⟩
  rw [ho] at hcut ⊢
  cases o with
  | none => exact State.abortSnapshot_wf hv _
  | some u =>
    have hu : Sound u := hcut u rfl
    exact State.tryReport_wf (State.releaseCuts_wf (State.setHeldPages_wf (State.send_wf
      (State.setBufMarks_wf (State.setSnap_wf (State.catWrite_wf hu _ _ _) _ _) _ _) _) _) _) _
@[simp] theorem State.tryPackageCut_wf (hs : Memory.wf s.mem) (k : Nat) : Memory.wf (s.tryPackageCut k).mem := by simp [State.tryPackageCut, hs]
@[simp] theorem State.cutNow_wf (hs : Memory.wf s.mem) (n : Nat) : Memory.wf (s.cutNow n).mem := by
  unfold State.cutNow
  have hcut : Given (s.cutTiles n (s.tiles6 n)) := State.cutTiles_given _ _ hs
  extract_lets k
  show Sound _
  refine sound_match ?_ fun u hu => ?_
  · exact State.abortSnapshot_wf hs _
  · exact State.tryPackageCut_wf (State.setSnap_wf (hcut u hu) _ _) _
@[simp] theorem State.migrate_wf (hs : Memory.wf s.mem) (vif lid inst ctx : Nat) (time : Word) : Memory.wf (s.migrate vif lid inst ctx time).mem := by
  unfold State.migrate
  split <;> simp [hs]
@[simp] theorem State.finishCopies_wf (hs : Memory.wf s.mem) (k : Nat) :
    Memory.wf (s.finishCopies k).mem := by simp +contextual [State.finishCopies, hs]
@[simp] theorem State.startCut_wf (hs : Memory.wf s.mem) (k id issuer : Nat) (who : Option (Nat × Nat × Bool)) (closed : List Nat) :
    Memory.wf (s.startCut k id issuer who closed).mem := by
  unfold State.startCut
  extract_lets v x old s1 _ s2 s3
  have hv : Memory.wf v.mem := State.finishCopies_wf hs _
  clear_value v
  have hone : Memory.wf s1.mem := State.folioStart_wf hv _ _ _
  clear_value s1
  have htwo : Memory.wf s2.mem := State.setSnap_wf hone _ _
  clear_value s2
  have hthree : Memory.wf s3.mem := wf_foldl htwo (fun u n hu => State.setSlot_wf hu _ _) _
  clear_value s3
  refine State.tryPackageCut_wf (wf_foldl hthree (fun u n hu => ?_) _) _
  exact wf_of_ite (State.cutNow_wf hu _) hu
@[simp] theorem State.snapJobNow_wf (hs : Memory.wf s.mem) (k : Option Nat) (id sw : Nat) (ph : Bool) : Memory.wf (s.snapJobNow k id sw ph).mem := by
  unfold State.snapJobNow
  split <;> simp [hs]
@[simp] theorem State.closeChannel_wf (hs : Memory.wf s.mem) (k src : Nat) : Memory.wf (s.closeChannel k src).mem := by simp [State.closeChannel, hs]
@[simp] theorem State.rollDone_wf (hs : Memory.wf s.mem) (k src : Nat) : Memory.wf (s.rollDone k src).mem := by simp [State.rollDone, hs]
@[simp] theorem State.fixFolio_wf (hs : Memory.wf s.mem) (k i : Nat) : Memory.wf (s.fixFolio k i).mem := by simp [State.fixFolio, hs]
@[simp] theorem State.restorePages_given (hs : Memory.wf s.mem) (k n : Nat) : Given (s.restorePages k n) := by
  unfold State.restorePages
  refine given_foldl (fun u r hu => ?_) _ (given_some.2 hs)
  split
  · exact given_some.2 (wf_wrPhys hu _ _ _)
  · exact given_none
@[simp] theorem State.restoreSync_given (hs : Memory.wf s.mem) (k i : Nat) : Given (s.restoreSync k i) := by
  unfold State.restoreSync
  split
  · exact given_none
  · extract_lets h s1 j
    have hone : Given s1 := by
      refine given_foldl (fun u p hu => ?_) _ (given_some.2 hs)
      split
      · exact given_some.2 (wf_wrPhys hu _ _ _)
      · exact given_none
    split
    · exact given_none
    · exact given_map hone fun u hu => hu
@[simp] theorem State.rollTile_given (hs : Memory.wf s.mem) (k i n t c : Nat) : Given (s.rollTile k i n t c) := by
  unfold State.rollTile
  dsimp only
  split <;> simp [hs]
@[simp] theorem State.rollTiles_given (k i n c : Nat) : ∀ (l : List Nat) {s : State},
    Memory.wf s.mem → Given (s.rollTiles k i n c l)
  | [], _, hs => given_some.2 hs
  | t :: ts, _, hs => given_bind (State.rollTile_given hs k i n t c) fun _ hu => State.rollTiles_given k i n c ts hu
@[simp] theorem State.rollRegion_given (hs : Memory.wf s.mem) (k i n : Nat) : Given (s.rollRegion k i n) := by
  unfold State.rollRegion
  extract_lets r stays place
  split
  · next q e _ _ =>
    extract_lets c _ s1
    have hone : Memory.wf s1.mem := State.setSlot_wf hs _ _
    clear_value s1
    have htiles : Given (s1.rollTiles k i n c (s1.tiles6 n)) := State.rollTiles_given _ _ _ _ _ hone
    split
    · exact given_none
    · next u hu =>
      extract_lets q2 low v
      have hv : Memory.wf v.mem := State.setSlot_wf (htiles u hu) _ _
      clear_value v
      exact given_some.2 (wf_of_ite hv (State.cmdDone_wf hv _ _))
  · exact given_none
@[simp] theorem State.unstart_wf (hs : Memory.wf s.mem) (n : Nat) : Memory.wf (s.unstart n).mem := by
  unfold State.unstart
  dsimp only
  split <;> simp [hs]
@[simp] theorem State.rollRegions_given (k i : Nat) : ∀ (l : List Nat) {s : State},
    Memory.wf s.mem → Given (s.rollRegions k i l)
  | [], _, hs => given_some.2 hs
  | n :: ns, s, hs => by
    rw [State.rollRegions]
    refine given_bind ?_ fun u hu => State.rollRegions_given k i ns hu
    split
    · exact State.rollRegion_given hs k i n
    · exact given_some.2 (State.unstart_wf hs n)
@[simp] theorem State.regain_given (hs : Memory.wf s.mem) (k : Nat) (g : Gone) : Given (s.regain k g) := by
  unfold State.regain
  split <;> simp [hs]
@[simp] theorem State.unrun_given (hs : Memory.wf s.mem) (k : Nat) (g : Gone) : Given (s.unrun k g) := by
  unfold State.unrun
  split <;> simp [hs]
@[simp] theorem State.regainAll_given (hs : Memory.wf s.mem) (k i : Nat) : Given (s.regainAll k i) := by
  unfold State.regainAll
  extract_lets want late
  refine given_bind (given_foldl (fun u g hu => State.unrun_given hu _ _) _ (given_some.2 hs)) fun u hu => ?_
  refine given_foldl (fun v _ hv => ?_) _ (given_some.2 hu)
  split
  · exact given_none
  · exact State.regain_given hv _ _
@[simp] theorem State.forgive_wf (hs : Memory.wf s.mem) (k : Nat) : Memory.wf (s.forgive k).mem := hs
@[simp] theorem State.playChannels_wf (hs : Memory.wf s.mem) (k i : Nat) :
    Memory.wf (s.playChannels k i).mem := by simp +contextual [State.playChannels, hs]
@[simp] theorem State.rollEnds_wf (hs : Memory.wf s.mem) (k : Nat) : Memory.wf (s.rollEnds k).mem := by
  unfold State.rollEnds
  extract_lets x s1
  have hone : Memory.wf s1.mem := wf_foldl hs (fun u y hu => State.endNode_wf hu _ _) _
  clear_value s1
  exact State.completeFor_wf (State.settleGraph_wf (State.setSnap_wf hone _ _)) _ _
@[simp] theorem State.rollFail_wf (hs : Memory.wf s.mem) (k : Nat) : Memory.wf (s.rollFail k).mem := by simp [State.rollFail, hs]
@[simp] theorem State.rollFailedThere_wf (hs : Memory.wf s.mem) (k id : Nat) :
    Memory.wf (s.rollFailedThere k id).mem := by simp [State.rollFailedThere, hs]
@[simp] theorem State.dropCmds_wf (hs : Memory.wf s.mem) (k : Nat) : Memory.wf (s.dropCmds k).mem := by
  unfold State.dropCmds
  exact wf_foldl hs (fun u n hu => wf_foldl hu (fun v t hv => State.setTileAt_wf hv _ _ _) _) _
@[simp] theorem State.dropLate_wf (hs : Memory.wf s.mem) (k : Nat) : Memory.wf (s.dropLate k).mem := hs
@[simp] theorem State.dropAbove_wf (hs : Memory.wf s.mem) (k n : Nat) : Memory.wf (s.dropAbove k n).mem := by simp +contextual [State.dropAbove, hs]
@[simp] theorem State.rollRestore_given (hs : Memory.wf s.mem) (k i : Nat) : Given (s.rollRestore k i) := by
  unfold State.rollRestore
  split
  · exact given_none
  · exact given_bind (given_bind (given_bind (State.restorePages_given hs _ _) fun u hu => State.restoreSync_given hu _ _)
      fun u hu => State.regainAll_given hu _ _) fun u hu => State.rollRegions_given _ _ _ hu
@[simp] theorem State.rollNow_wf (hs : Memory.wf s.mem) (k : Nat) : Memory.wf (s.rollNow k).mem := by
  unfold State.rollNow
  extract_lets v x
  have hv : Memory.wf v.mem := State.fixArea_wf hs _
  clear_value v
  split
  · exact State.rollFail_wf hv _
  · next i _ =>
    extract_lets n s0 _ _ s1 s2
    have hzero : Memory.wf s0.mem := wf_of_ite (wf_foldl hv (fun u m hu => State.copyRegion_wf hu m) _) hv
    clear_value s0
    have hone : Memory.wf s1.mem :=
      State.setSnap_wf (State.setHeldPages_wf (State.setBufMarks_wf (State.dropLate_wf (State.dropCmds_wf hzero _) _) _ _) _) _ _
    clear_value s1
    have htwo : Memory.wf s2.mem := wf_foldl (State.send_wf hone _) (fun u j hu => State.fixFolio_wf hu _ _) _
    clear_value s2
    have hback : Given (s2.rollRestore k i) := State.rollRestore_given htwo _ _
    split
    · exact State.rollFail_wf htwo _
    · next u hu =>
      extract_lets u1 ps _ u2
      have hthree : Memory.wf u1.mem :=
        State.forgive_wf (State.dropAbove_wf (State.playChannels_wf (hback u hu) _ _) _ _) _
      clear_value u1
      have hfour : Memory.wf u2.mem := State.setBufMarks_wf (State.setSnap_wf hthree _ _) _ _
      clear_value u2
      exact State.rollDone_wf (State.send_wf hfour _) _ _
@[simp] theorem State.tryRoll_wf (hs : Memory.wf s.mem) (k : Nat) : Memory.wf (s.tryRoll k).mem := by simp [State.tryRoll, hs]
@[simp] theorem State.rollStart_wf (hs : Memory.wf s.mem) (k id : Nat) (who : Option (Nat × Nat × Bool)) (markers : List Nat) :
    Memory.wf (s.rollStart k id who markers).mem := by
  unfold State.rollStart
  extract_lets s0 s1 _ s2
  have hzero : Memory.wf s0.mem := State.abortSnapshot_wf hs _
  clear_value s0
  have hone : Memory.wf s1.mem := wf_foldl hzero (fun u n hu => State.finishMsg_wf hu n) _
  clear_value s1
  have htwo : Memory.wf s2.mem := State.setSnap_wf hone _ _
  clear_value s2
  refine State.tryRoll_wf (wf_foldl htwo (fun u n hu => ?_) _) _
  exact wf_of_ite (wf_of_ite (State.plainFreeze_wf hu _) (State.setSlot_wf hu _ _)) hu
@[simp] theorem State.rollJobNow_wf (hs : Memory.wf s.mem) (k : Option Nat) (id sw : Nat) (ph : Bool) : Memory.wf (s.rollJobNow k id sw ph).mem := by
  unfold State.rollJobNow
  split <;> simp [hs]

end Sys2Proof.Machine
end

section
/-! PROOFS. The canonical form of memory: page commands, the user endpoint and bounce channels keep it. -/

namespace Sys2Proof.Machine
open Sys2Proof.Claims

variable {s : State}

@[simp] theorem State.leavePage_wf (hs : Memory.wf s.mem) (p : Nat) : Memory.wf (s.leavePage p).mem := by simp [State.leavePage, hs]
theorem State.setPot_wf (hs : Memory.wf s.mem) (p : Nat) (st : PotSt) (w : Nat) : Memory.wf (s.setPot p st w).mem := by
  rw [State.setPot_mem]
  exact hs
theorem State.potPage_wf (hs : Memory.wf s.mem) {op w p : Nat} {u : State} (h : s.potPage op w p = .ok u) : Memory.wf u.mem := by
  have hleave (st : PotSt) : Memory.wf ((s.leavePage p).setPot p st w).mem := State.setPot_wf (State.leavePage_wf hs p) _ _ _
  have hassign : Memory.wf (s.setPot p .assigned w).mem := State.setPot_wf hs _ _ _
  have hfresh : Memory.wf (if w = 0 then s else s.rekey p (s.keyOf 0) (s.keyOf w) (fun bs => bs.any (· != 0))).mem :=
    wf_of_ite hs (wf_rekey hs _ _ _ _)
  unfold State.potPage at h
  dsimp only at h
  split at h
  · split at h
    · cases h
    · split at h
      · cases h
      · cases h
        exact State.setPot_wf hfresh _ _ _
  · split at h
    · cases h
      exact hleave _
    · cases h
  · split at h
    · cases h
      exact hleave _
    · cases h
  · split at h
    · cases h
      exact hassign
    · cases h
@[simp] theorem State.potRun_wf (op w : Nat) : ∀ (n p : Nat) {s : State}, Memory.wf s.mem → Memory.wf (s.potRun op w n p).mem
  | 0, _, _, hs => hs
  | n + 1, p, s, hs => by
    rw [State.potRun]
    have hpage : ∀ u, s.potPage op w p = .ok u → Memory.wf u.mem := fun u h => State.potPage_wf hs h
    obtain ⟨r, hr⟩ : ∃ r, s.potPage op w p = r := ⟨_, rfl⟩
    rw [hr] at hpage ⊢
    cases r with
    | error c => exact hs
    | ok u => exact State.potRun_wf op w n (p + 1) (hpage u rfl)
@[simp] theorem State.potFinish_wf (hs : Memory.wf s.mem) (op w page npg : Nat) : Memory.wf (s.potFinish op w page npg).mem := by
  unfold State.potFinish
  dsimp only
  repeat' split
  all_goals simp +contextual [hs]
@[simp] theorem State.potEvent_wf (hs : Memory.wf s.mem) (op w page npg : Nat) :
    Memory.wf (s.potEvent op w page npg).mem := by simp [State.potEvent, hs]
@[simp] theorem State.genKey_wf (hs : Memory.wf s.mem) (w : Nat) : Memory.wf (s.genKey w).mem := by simp [State.genKey, hs]
@[simp] theorem State.keyzDone_wf (hs : Memory.wf s.mem) (w : Nat) : Memory.wf (s.keyzDone w).mem := by
  exact (Tame.keyzDone s w).mem hs
@[simp] theorem State.trainLink_wf (hs : Memory.wf s.mem) (l : Nat) : Memory.wf (s.trainLink l).mem := hs
@[simp] theorem State.uecRead_wf (hs : Memory.wf s.mem) (vif va n : Nat) : Memory.wf (s.uecRead vif va n).mem := by
  have hread := wf_gread hs 0 (vifCtx vif) va n
  unfold State.uecRead
  obtain ⟨r, hr⟩ : ∃ r, s.gread 0 (vifCtx vif) va n = r := ⟨_, rfl⟩
  rw [hr] at hread ⊢
  refine wf_of_ite hs ?_
  obtain ⟨u, _ | _ | _⟩ := r
  · exact hread
  · exact State.answer_wf hread _ _ _
  · exact State.answer_wf hread _ _ _
@[simp] theorem State.mergeWord_wf (hs : Memory.wf s.mem) (pa value root : Nat) :
    Memory.wf (s.mergeWord pa value root).mem := by simp [State.mergeWord, hs]
@[simp] theorem State.setSpdm_wf (hs : Memory.wf s.mem) (vif : Nat) (x : Spdm) : Memory.wf (s.setSpdm vif x).mem := hs
@[simp] theorem State.spdmFail_wf (hs : Memory.wf s.mem) (vif code : Nat) : Memory.wf (s.spdmFail vif code).mem := hs
@[simp] theorem State.request_wf (hs : Memory.wf s.mem) (vif code arg : Nat) (ok : Spdm → Bool) (err : Nat) {act : State → Spdm → State}
    (hact : ∀ u x, Memory.wf u.mem → Memory.wf (act u x).mem) : Memory.wf (s.request vif code arg ok err act).mem := by
  unfold State.request
  exact wf_of_ite hs (wf_of_ite (State.spdmFail_wf hs _ _) (hact _ _ (State.setSpdm_wf hs _ _)))
@[simp] theorem State.enableBounce_wf (hs : Memory.wf s.mem) (c : Nat) : Memory.wf (s.enableBounce c).mem := by
  unfold State.enableBounce
  dsimp only
  split <;> simp [hs]
@[simp] theorem State.ringRead_wf (hs : Memory.wf s.mem) (x : Bounce) (i n : Nat) : Memory.wf (s.ringRead x i n).1.mem := by
  unfold State.ringRead
  extract_lets first
  have hone : Memory.wf (s.readAt (x.base + i % x.size) first).1.mem := State.readAt_wf hs _ _
  obtain ⟨r, hr⟩ : ∃ r, s.readAt (x.base + i % x.size) first = r := ⟨_, rfl⟩
  rw [hr] at hone ⊢
  obtain ⟨u, _ | a⟩ := r
  · exact hone
  · have htwo : Memory.wf (u.readAt x.base (n - first)).1.mem := State.readAt_wf hone _ _
    dsimp only
    obtain ⟨q, hq⟩ : ∃ q, u.readAt x.base (n - first) = q := ⟨_, rfl⟩
    rw [hq] at htwo ⊢
    obtain ⟨v, _ | b⟩ := q
    · exact htwo
    · exact htwo
@[simp] theorem State.hostRing_wf (hs : Memory.wf s.mem) (c off : Nat) (data : List Byte) : Memory.wf (s.hostRing c off data).mem := by
  unfold State.hostRing
  extract_lets x vif
  have hput : Memory.wf (s.wrPhys (x.base + off) data []).mem := wf_wrPhys hs _ _ _
  exact wf_of_ite hs (wf_of_ite (State.answer_wf hs _ _ _) (wf_of_ite (State.answer_wf hput _ _ _)
    (wf_of_ite (State.answer_wf hs _ _ _) (State.answer_wf (State.setBounce_wf hput _ _) _ _ _))))
@[simp] theorem State.frameWrite_wf (ctx : Nat) : ∀ (l : List (Nat × Nat)) (data : List Byte) {s : State},
    Memory.wf s.mem → Memory.wf (s.frameWrite ctx l data).1.mem
  | [], _, _, hs => hs
  | p :: r, data, s, hs => by
    rw [State.frameWrite]
    have hwrite := wf_gwrite hs 0 ctx p.1 (data.take p.2) []
    obtain ⟨q, hq⟩ : ∃ q, s.gwrite 0 ctx p.1 (data.take p.2) [] = q := ⟨_, rfl⟩
    rw [hq] at hwrite ⊢
    obtain ⟨u, _ | _ | _⟩ := q
    · exact hwrite
    · exact hwrite
    · exact State.frameWrite_wf ctx r _ hwrite
@[simp] theorem State.passFrame_wf (hs : Memory.wf s.mem) (c n : Nat) (f : Bounce → Bounce) : Memory.wf (s.passFrame c n f).mem := hs
@[simp] theorem State.frameIn_wf (hs : Memory.wf s.mem) (c : Nat) : Memory.wf (s.frameIn c).mem := by
  unfold State.frameIn
  extract_lets x
  refine wf_of_ite hs ?_
  have hone : Memory.wf (s.ringRead x x.ridx 64).1.mem := State.ringRead_wf hs _ _ _
  obtain ⟨r, hr⟩ : ∃ r, s.ringRead x x.ridx 64 = r := ⟨_, rfl⟩
  rw [hr] at hone ⊢
  obtain ⟨u, _ | h⟩ := r
  · exact hone
  · dsimp only at hone ⊢
    refine wf_of_ite hone (wf_of_ite hone (wf_of_ite hone ?_))
    have htwo : Memory.wf (u.ringRead x x.ridx (x.frameLen h)).1.mem := State.ringRead_wf hone _ _ _
    obtain ⟨q, hq⟩ : ∃ q, u.ringRead x x.ridx (x.frameLen h) = q := ⟨_, rfl⟩
    rw [hq] at htwo ⊢
    obtain ⟨v, _ | frame⟩ := q
    · exact htwo
    · dsimp only at htwo ⊢
      split
      · next plain ctx _ _ =>
        have hthree : Memory.wf (v.frameWrite ctx (pieces (x.win + recU h 12 4) (recU h 8 4)) (plain.take (recU h 8 4))).1.mem :=
          State.frameWrite_wf _ _ _ htwo
        obtain ⟨z, hz⟩ : ∃ z, v.frameWrite ctx (pieces (x.win + recU h 12 4) (recU h 8 4)) (plain.take (recU h 8 4)) = z := ⟨_, rfl⟩
        rw [hz] at hthree ⊢
        obtain ⟨w, _ | _ | _⟩ := z
        · exact hthree
        · exact hthree
        · exact hthree
      · exact htwo
@[simp] theorem State.frameOut_wf (hs : Memory.wf s.mem) (c : Nat) : Memory.wf (s.frameOut c).mem := by
  unfold State.frameOut
  extract_lets x
  split
  · next len off ctx _ _ =>
    have hread := wf_gread hs 0 ctx (x.win + off) len
    extract_lets h
    obtain ⟨r, hr⟩ : ∃ r, s.gread 0 ctx (x.win + off) len = r := ⟨_, rfl⟩
    rw [hr] at hread ⊢
    refine wf_of_ite hs (wf_of_ite (State.setBounce_wf hs _ _) (wf_of_ite hs ?_))
    obtain ⟨u, _ | _ | _⟩ := r
    · exact hread
    · exact State.setBounce_wf hread _ _
    · exact State.setBounce_wf (wf_ringPut hread _ _ _) _ _
  · exact hs

end Sys2Proof.Machine
end

section
/-! PROOFS. The canonical form of memory: shedding, links, bring-up and writes of system words keep it. -/

namespace Sys2Proof.Machine
open Sys2Proof.Claims

variable {s : State}

@[simp] theorem State.shedMark_wf (hs : Memory.wf s.mem) (n pass : Nat) : Memory.wf (s.shedMark n pass).mem := hs
@[simp] theorem State.shedOne_wf (hs : Memory.wf s.mem) (pass n : Nat) : Memory.wf (s.shedOne pass n).mem := by
  unfold State.shedOne
  split <;> simp [hs]
@[simp] theorem State.comeBack_wf (hs : Memory.wf s.mem) (n : Nat) (q : Nat × Nat × Nat) (by_ : Nat) :
    Memory.wf (s.comeBack n q by_).mem := by simp +contextual [State.comeBack, hs]
@[simp] theorem State.unshed_wf (hs : Memory.wf s.mem) (pass n rate : Nat) : Memory.wf (s.unshed pass n rate).mem := by
  unfold State.unshed
  dsimp only
  repeat' split
  all_goals simp +contextual [hs]
@[simp] theorem State.setVlan_wf (hs : Memory.wf s.mem) (e id : Nat) : Memory.wf (s.setVlan e id).mem := by simp [State.setVlan, hs]
@[simp] theorem State.setPort_wf (hs : Memory.wf s.mem) (p : Nat) (x : Port) : Memory.wf (s.setPort p x).mem := hs
@[simp] theorem State.emit_wf (hs : Memory.wf s.mem) (p vc dst : Nat) (data : List Byte) : Memory.wf (s.emit p vc dst data).mem := hs
@[simp] theorem State.drainPort_wf (p : Nat) : ∀ (l kept : List (Nat × Nat × List Byte)) {s : State},
    Memory.wf s.mem → Memory.wf (s.drainPort p kept l).mem
  | [], _, _, hs => hs
  | q :: r, kept, s, hs => by
    rw [State.drainPort]
    exact wf_of_ite (State.drainPort_wf p r _ (State.emit_wf hs _ _ _ _)) (State.drainPort_wf p r _ hs)
@[simp] theorem State.sendFlit_wf (hs : Memory.wf s.mem) (p vc dst : Nat) (data : List Byte) :
    Memory.wf (s.sendFlit p vc dst data).mem := by simp [State.sendFlit, hs]
@[simp] theorem State.replay_wf (hs : Memory.wf s.mem) (p seq : Nat) : Memory.wf (s.replay p seq).mem := hs
@[simp] theorem State.flitRefused_wf (hs : Memory.wf s.mem) (p seq : Nat) : Memory.wf (s.flitRefused p seq).mem := by simp [State.flitRefused, hs]
@[simp] theorem State.linkTrained_wf (hs : Memory.wf s.mem) (p : Nat) (ok : Bool) : Memory.wf (s.linkTrained p ok).mem := by
  unfold State.linkTrained
  extract_lets x s1
  refine wf_of_ite hs (wf_of_ite (State.setPort_wf hs _ _) (State.drainPort_wf p _ _ ?_))
  exact wf_of_ite (State.replay_wf (State.setPort_wf hs _ _) _ _) (State.setPort_wf hs _ _)
@[simp] theorem State.setCollLimit_wf (hs : Memory.wf s.mem) (ns : Nat) : Memory.wf (s.setCollLimit ns).mem := by simp [State.setCollLimit, hs]
@[simp] theorem State.gateDies_wf (hs : Memory.wf s.mem) (dies : Nat) : Memory.wf (s.gateDies dies).mem := hs
@[simp] theorem State.frees_wf (f : Nat → Word → Nat) : ∀ (n : Nat) {s : State}, Memory.wf s.mem → Memory.wf (s.frees f n).2.mem
  | 0, _, hs => hs
  | n + 1, s, hs => by
    rw [State.frees]
    exact State.frees_wf f n (s := s.free.2) hs
@[simp] theorem State.trainPort_wf (hs : Memory.wf s.mem) (p : Nat) (ok : Bool) : Memory.wf (s.trainPort p ok).mem := by simp [State.trainPort, hs]
@[simp] theorem State.trainPorts_wf (hs : Memory.wf s.mem) : Memory.wf (s.trainPorts).mem := by simp +contextual [State.trainPorts, hs]
@[simp] theorem State.rootCheck_wf (hs : Memory.wf s.mem) {go : State → State}
    (hgo : ∀ u, Memory.wf u.mem → Memory.wf (go u).mem) : Memory.wf (s.rootCheck go).mem := by
  unfold State.rootCheck
  extract_lets f
  have hf : Memory.wf f.2.mem := hs
  exact wf_of_ite (hgo _ hf) (wf_of_ite (hgo _ hf) hf)
@[simp] theorem State.loadStore_wf (hs : Memory.wf s.mem) : Memory.wf (s.loadStore).mem := by
  unfold State.loadStore
  dsimp only
  exact hs
@[simp] theorem State.endTraining_wf (hs : Memory.wf s.mem) : Memory.wf (s.endTraining).mem := by simp [State.endTraining, hs]
@[simp] theorem State.coldTrain_wf (hs : Memory.wf s.mem) : Memory.wf (s.coldTrain).mem := by
  unfold State.coldTrain
  extract_lets l m _ s1
  have hl : Memory.wf l.2.mem := State.frees_wf _ _ hs
  clear_value l
  have hm : Memory.wf m.2.mem := State.frees_wf _ _ hl
  clear_value m
  have hone : Memory.wf s1.mem := by
    dsimp only [s1]
    exact hm
  clear_value s1
  refine State.trainPorts_wf ?_
  exact wf_foldl (F := State.trainLink) hone (fun u p hu => State.trainLink_wf hu p) (List.range 16)
@[simp] theorem State.endAll_wf (hs : Memory.wf s.mem) : Memory.wf (s.endAll).mem := by
  exact (State.endAll_ends s).1.mem hs
@[simp] theorem State.warmTrain_wf (hs : Memory.wf s.mem) : Memory.wf (s.warmTrain).mem := by simp [State.warmTrain, hs]
theorem State.setPhase_wf (hs : Memory.wf s.mem) (p : Nat) : Memory.wf ({ s with phase := p } : State).mem := hs
@[simp] theorem State.phaseStep_wf (hs : Memory.wf s.mem) : Memory.wf (s.phaseStep).mem := by
  unfold State.phaseStep
  have hload (u : State) (hu : Memory.wf u.mem) : Memory.wf u.loadStore.mem := State.loadStore_wf hu
  split
  · exact wf_of_ite hs (State.rootCheck_wf hs fun u hu => State.setPhase_wf hu 1)
  · exact State.rootCheck_wf hs fun u hu => State.settleGraph_wf (State.setPhase_wf (hload u hu) 2)
  · exact State.endTraining_wf (wf_of_ite (State.warmTrain_wf hs) (State.coldTrain_wf hs))
  · exact State.endTraining_wf hs
@[simp] theorem State.writeVifq_wf (hs : Memory.wf s.mem) (v : Nat) : Memory.wf (s.writeVifq v).mem := by simp [State.writeVifq, hs]
@[simp] theorem State.writeBcctl_wf (hs : Memory.wf s.mem) (v : Nat) : Memory.wf (s.writeBcctl v).mem := by simp [State.writeBcctl, hs]
@[simp] theorem State.unitWrite_wf (hs : Memory.wf s.mem) (n v : Nat) : Memory.wf (s.unitWrite n v).mem := by simp [State.unitWrite, hs]
@[simp] theorem State.sysWrite_wf (hs : Memory.wf s.mem) (reg : Nat) (v : Word) : Memory.wf (s.sysWrite reg v).mem := by simp [State.sysWrite, hs]
@[simp] theorem State.sysWait_given (hs : Memory.wf s.mem) (reg : Nat) (v : Word) : Given (s.sysWait reg v) := by
  unfold State.sysWait
  have hvif (u : State) (hu : Memory.wf u.mem) : Memory.wf ((u.enableVif s.vifsel).setVif s.vifsel (s.vifOf s.vifsel)).mem :=
    State.setVif_wf (State.enableVif_wf hu _) _ _
  have hbounce (u : State) (hu : Memory.wf u.mem) : Memory.wf ((u.enableBounce s.bcsel).setBounce s.bcsel (s.bounce s.bcsel)).mem :=
    State.setBounce_wf (State.enableBounce_wf hu _) _ _
  have hstore (n : Nat) : Memory.wf (s.unitStore n v.toNat).mem := State.unitStore_wf hs _ _
  split
  · exact given_none
  · split
    · extract_lets u
      split
      · exact given_none
      · exact given_some.2 (hvif u (hstore _))
    · split
      · extract_lets u
        split
        · exact given_none
        · exact given_some.2 (hbounce u (hstore _))
      · exact given_none
@[simp] theorem State.endHandlers_wf (hs : Memory.wf s.mem) (n : Nat) : Memory.wf (s.endHandlers n).mem := by simp [State.endHandlers, hs]
@[simp] theorem State.leaveHandler_wf (hs : Memory.wf s.mem) : Memory.wf (s.leaveHandler).mem := by simp [State.leaveHandler, hs]
@[simp] theorem State.haltCore_wf (hs : Memory.wf s.mem) : Memory.wf (s.haltCore).mem := by
  unfold State.haltCore
  split <;> simp [hs]
@[simp] theorem State.writeSlot_wf (hs : Memory.wf s.mem) (n k v : Nat) : Memory.wf (s.writeSlot n k v).mem := by simp [State.writeSlot, hs]
@[simp] theorem State.spoilWalk_wf (hs : Memory.wf s.mem) : Memory.wf (s.spoilWalk).mem := by
  unfold State.spoilWalk
  split <;> simp [hs]

end Sys2Proof.Machine
end

section
/-! PROOFS. The canonical form of memory: scalar and vector words keep it. -/

namespace Sys2Proof.Machine
open Sys2Proof.Claims

variable {s : State}

theorem State.remoteCode_wf (hs : Memory.wf s.mem) (rd : Bool) : Memory.wf (s.remoteCode rd).2.mem := by
  rw [State.remoteCode_mem]
  exact hs
theorem State.stPlace_wf (hs : Memory.wf s.mem) {p : Place} {v : Word} {u : State} (h : s.stPlace p v = .ok u) : Memory.wf u.mem := by
  have hcode : Memory.wf (s.remoteCode false).2.mem := State.remoteCode_wf hs false
  have hkeep (w : State) (hw : Memory.wf w.mem) : Memory.wf (w.keepPlace p v).mem := State.keepPlace_wf hw _ _
  unfold State.stPlace at h
  split at h
  · cases h
    exact State.writeSlot_wf hs _ _ _
  · cases h
    exact State.setHealth_wf hs _ _
  · split at h
    · dsimp only at h
      split at h
      · cases h
      · cases h
        exact State.send_wf hcode _
    · split at h
      · cases h
      · cases h
        exact hkeep _ (State.freePage_wf hs _)
  · cases h
    exact hkeep _ hs
theorem State.meetSys_wf {u : State} (hu : Memory.wf u.mem) (s : State) (rs : Nat) (disp : Int) : Memory.wf (s.meetSys u rs disp).mem := by
  unfold State.meetSys
  split
  · split
    · rw [State.errorRecord_mem]
      exact hu
    · exact hu
  · exact State.fixLines_wf _ _ _ _ hu
  · split
    · exact hu
    · exact State.fixLines_wf _ _ _ _ hu
  · exact hu
theorem execSel_safe (hs : Memory.wf s.mem) (rd rc rs rt : Nat) : Safe (execSel rd rc rs rt s) := by simp [execSel, hs]
theorem execLui_safe (hs : Memory.wf s.mem) (rd imm : Nat) : Safe (execLui rd imm s) := by simp [execLui, hs]
theorem execLoop_safe (hs : Memory.wf s.mem) (rs dist : Nat) : Safe (execLoop rs dist s) := by
  unfold execLoop
  refine safe_next.2 (State.scalarWord_wf hs _ _ fun a ha => ?_)
  simp [ha]
theorem execEstart_safe (hs : Memory.wf s.mem) (e rs cont : Nat) : Safe (execEstart e rs cont s) := by
  unfold execEstart
  refine safe_next.2 (State.scalarWord_wf hs _ _ fun a ha => ?_)
  simp [ha]
theorem execEstop_safe (hs : Memory.wf s.mem) (e : Nat) : Safe (execEstop e s) := by
  unfold execEstop
  refine safe_next.2 (State.scalarWord_wf hs _ _ fun a ha => ?_)
  simp [ha]
theorem execEbase_safe (hs : Memory.wf s.mem) (e rs : Nat) : Safe (execEbase e rs s) := by
  unfold execEbase
  refine safe_next.2 (State.scalarWord_wf hs _ _ fun a ha => ?_)
  simp [ha]
theorem execEbaseTarget_safe (hs : Memory.wf s.mem) (e target : Nat) : Safe (execEbaseTarget e target s) := by
  unfold execEbaseTarget
  refine safe_next.2 (State.scalarWord_wf hs _ _ fun a ha => ?_)
  simp [ha]
theorem execEwait_safe (hs : Memory.wf s.mem) (e : Nat) : Safe (execEwait e s) := by simp [execEwait, hs]
theorem execRend_safe (hs : Memory.wf s.mem) : Safe (execRend s) := by
  unfold execRend
  dsimp only
  split
  · exact safe_next.2 hs
  · refine safe_next.2 (State.scalarWord_wf hs _ _ fun a ha => ?_)
    split
    · exact leaves_error _
    · split
      · exact leaves_error _
      · split
        · exact leaves_error _
        · exact (leaves_ok _).2 (State.atEnd_wf ha _)
theorem execFrame_safe (hs : Memory.wf s.mem) : Safe (execFrame s) := by
  unfold execFrame
  refine safe_next.2 (State.scalarWord_wf hs _ _ fun a ha => ?_)
  simp [ha]
theorem execSeg_safe (hs : Memory.wf s.mem) (hstep : Nat) : Safe (execSeg hstep s) := by
  unfold execSeg
  dsimp only
  split
  · exact safe_next.2 hs
  · refine safe_next.2 (State.scalarWord_wf hs _ _ fun a ha => ?_)
    split
    · exact leaves_error _
    · exact (leaves_ok _).2 (State.openSeg_wf (State.correct_wf ha _ _ _) _)
theorem execColo_safe (hs : Memory.wf s.mem) (rd e : Nat) : Safe (execColo rd e s) := by simp [execColo, hs]
theorem execWaitc_safe (hs : Memory.wf s.mem) (t : Nat) : Safe (execWaitc t s) := by simp [execWaitc, hs]
theorem execBar_safe (hs : Memory.wf s.mem) (scope sw : Nat) : Safe (execBar scope sw s) := by simp +contextual [execBar, hs]
theorem execQfence_safe (hs : Memory.wf s.mem) (_scope emask : Nat) : Safe (execQfence _scope emask s) := by simp [execQfence, hs]
theorem execWaitcw_safe (hs : Memory.wf s.mem) (sw p : Nat) : Safe (execWaitcw sw p s) := by simp [execWaitcw, hs]
theorem execNop_safe (hs : Memory.wf s.mem) : Safe (execNop s) := by simp [execNop, hs]
theorem execSrd_safe (hs : Memory.wf s.mem) (rd reg : Nat) : Safe (execSrd rd reg s) := by
  unfold execSrd
  refine safe_next.2 (State.scalarWord_wf hs _ _ fun a ha => ?_)
  simp [ha]
theorem execSwr_safe (hs : Memory.wf s.mem) (reg rs : Nat) : Safe (execSwr reg rs s) := by
  unfold execSwr
  have hwait : Given (if (s.regCheck reg true).isNone then s.sysWait reg (s.rdG rs) else none) := by
    rw [given_ite]
    split
    · exact State.sysWait_given hs _ _
    · exact given_none
  obtain ⟨o, ho⟩ : ∃ o, (if (s.regCheck reg true).isNone then s.sysWait reg (s.rdG rs) else none) = o := ⟨_, rfl⟩
  rw [ho] at hwait ⊢
  cases o with
  | none => exact safe_next.2 (State.scalarWord_wf hs _ _ fun a ha => (leaves_ok _).2 (State.sysWrite_wf ha _ _))
  | some u => exact safe_next.2 (hwait u rfl)
theorem execTrap_safe (hs : Memory.wf s.mem) (code : Nat) : Safe (execTrap code s) := by simp [execTrap, hs]
theorem execEret_safe (hs : Memory.wf s.mem) : Safe (execEret s) := by simp [execEret, hs]
theorem execTime_safe (hs : Memory.wf s.mem) (rd : Nat) : Safe (execTime rd s) := by
  unfold execTime
  refine safe_next.2 (State.scalarWord_wf hs _ _ fun a ha => ?_)
  simp [ha]
theorem execSnap_safe (hs : Memory.wf s.mem) (rs rt sw : Nat) : Safe (execSnap rs rt sw s) := by
  unfold execSnap
  refine safe_next.2 (State.scalarWord_wf hs _ _ fun a ha => ?_)
  dsimp only
  split
  · exact (leaves_ok _).2 (State.statusWrite_wf ha _ _)
  · next b ph hb => exact (leaves_ok _).2 (State.snapJobNow_wf (State.arm_wf ha hb) _ _ _ _)
theorem execRollb_safe (hs : Memory.wf s.mem) (rs rt sw : Nat) : Safe (execRollb rs rt sw s) := by
  unfold execRollb
  refine safe_next.2 (State.scalarWord_wf hs _ _ fun a ha => ?_)
  split
  · exact (leaves_ok _).2 (State.statusWrite_wf ha _ _)
  · next b ph hb => exact (leaves_ok _).2 (State.rollJobNow_wf (State.arm_wf ha hb) _ _ _ _)
theorem execKeyz_safe (hs : Memory.wf s.mem) (rs sw : Nat) : Safe (execKeyz rs sw s) := by
  unfold execKeyz
  refine safe_next.2 (State.scalarWord_wf hs _ _ fun a ha => ?_)
  dsimp only
  split
  · exact (leaves_ok _).2 (State.statusWrite_wf ha _ _)
  · next b ph hb =>
    have hw : Memory.wf b.mem := State.arm_wf ha hb
    split
    · exact (leaves_ok _).2 (State.statusWrite_wf hw _ _)
    · split
      · exact (leaves_ok _).2 (State.statusWrite_wf hw _ _)
      · exact (leaves_ok _).2 hw
theorem execLdsys_safe (hs : Memory.wf s.mem) (rd rs : Nat) (disp : Int) : Safe (execLdsys rd rs disp s) := by
  unfold execLdsys
  refine safe_next.2 (State.spoilWalk_wf (State.meetSys_wf ?_ _ _ _))
  exact State.scalarWord_wf hs _ _ fun a ha => State.sysLoad_leaves ha _ _ _
theorem execStsys_safe (hs : Memory.wf s.mem) (rt rs : Nat) (disp : Int) : Safe (execStsys rt rs disp s) := by
  unfold execStsys
  refine safe_next.2 (State.scalarWord_wf hs _ _ fun a ha => ?_)
  split
  · exact leaves_error _
  · split
    · exact leaves_error _
    · next u hu => exact (leaves_ok _).2 (State.stPlace_wf ha hu)
theorem execHalt_safe (hs : Memory.wf s.mem) : Safe (execHalt s) := by
  unfold execHalt
  refine safe_next.2 (State.scalarWord_wf hs _ _ fun a ha => ?_)
  simp [ha]
theorem execFmtset_safe (hs : Memory.wf s.mem) (c : Ctl) (f rs : Nat) : Safe (execFmtset c f rs s) := by
  unfold execFmtset
  refine safe_next.2 (State.scalarWord_wf hs _ _ fun a ha => ?_)
  simp [ha]
theorem execFmtsetMx_safe (hs : Memory.wf s.mem) (c : Ctl) (f value : Nat) : Safe (execFmtsetMx c f value s) := by
  unfold execFmtsetMx
  refine safe_next.2 (State.mxOrder_wf hs _ _ _ fun a ha => ?_)
  simp [ha]
theorem execNestcfg_safe (hs : Memory.wf s.mem) (c : Ctl) (reg rs : Nat) : Safe (execNestcfg c reg rs s) := by
  unfold execNestcfg
  refine safe_next.2 (State.scalarWord_wf hs _ _ fun a ha => ?_)
  simp [ha]
theorem execNestcfgMx_safe (hs : Memory.wf s.mem) (c : Ctl) (reg value : Nat) : Safe (execNestcfgMx c reg value s) := by
  unfold execNestcfgMx
  refine safe_next.2 (State.mxOrder_wf hs _ _ _ fun a ha => ?_)
  simp [ha]
theorem execVcmp_safe (hs : Memory.wf s.mem) (c : Ctl) (x : VX) : Safe (execVcmp c x s) := by
  unfold execVcmp
  refine safe_next.2 (State.vxOrder_wf hs _ _ _ fun a ha => ?_)
  dsimp only
  split <;> simp [ha]
theorem execVsel_safe (hs : Memory.wf s.mem) (c : Ctl) (x : VX) : Safe (execVsel c x s) := by
  unfold execVsel
  refine safe_next.2 (State.vxOrder_wf hs _ _ _ fun a ha => ?_)
  dsimp only
  split <;> simp [ha]
theorem execVcvt_safe (hs : Memory.wf s.mem) (c : Ctl) (x : VX) : Safe (execVcvt c x s) := by
  unfold execVcvt
  refine safe_next.2 (State.vxOrder_wf hs _ _ _ fun a ha => ?_)
  dsimp only
  split <;> simp [ha]
theorem execVpack_safe (hs : Memory.wf s.mem) (c : Ctl) (x : VX) : Safe (execVpack c x s) := by
  unfold execVpack
  refine safe_next.2 (State.vxOrder_wf hs _ _ _ fun a ha => ?_)
  dsimp only
  split <;> simp [ha]
theorem execVunpk_safe (hs : Memory.wf s.mem) (c : Ctl) (x : VX) : Safe (execVunpk c x s) := by
  unfold execVunpk
  refine safe_next.2 (State.vxOrder_wf hs _ _ _ fun a ha => ?_)
  dsimp only
  split <;> simp [ha]
theorem execVperm_safe (hs : Memory.wf s.mem) (c : Ctl) (x : VX) : Safe (execVperm c x s) := by simp [execVperm, hs]
theorem execVbcast_safe (hs : Memory.wf s.mem) (c : Ctl) (x : VX) : Safe (execVbcast c x s) := by simp [execVbcast, hs]
theorem execVmovkKv_safe (hs : Memory.wf s.mem) (c : Ctl) (x : VX) : Safe (execVmovkKv c x s) := by
  unfold execVmovkKv
  refine safe_next.2 (State.vxOrder_wf hs _ _ _ fun a ha => ?_)
  split
  · exact leaves_error _
  · exact (leaves_ok _).2 (State.wrV_wf ha _ _)
theorem execVmovkVk_safe (hs : Memory.wf s.mem) (c : Ctl) (x : VX) : Safe (execVmovkVk c x s) := by
  unfold execVmovkVk
  refine safe_next.2 (State.vxOrder_wf hs _ _ _ fun a ha => ?_)
  simp [ha]
theorem execVmovkVq_safe (hs : Memory.wf s.mem) (c : Ctl) (x : VX) : Safe (execVmovkVq c x s) := by
  unfold execVmovkVq
  refine safe_next.2 (State.vxOrder_wf hs _ _ _ fun a ha => ?_)
  simp [ha]
theorem execVmovkQv_safe (hs : Memory.wf s.mem) (c : Ctl) (x : VX) : Safe (execVmovkQv c x s) := by
  unfold execVmovkQv
  refine safe_next.2 (State.vxOrder_wf hs _ _ _ fun a ha => ?_)
  simp [ha]
theorem execVredsum_safe (hs : Memory.wf s.mem) (c : Ctl) (x : VX) : Safe (execVredsum c x s) := by simp [execVredsum, hs]
theorem execVredmax_safe (hs : Memory.wf s.mem) (c : Ctl) (x : VX) : Safe (execVredmax c x s) := by simp [execVredmax, hs]
theorem execVst_safe (hs : Memory.wf s.mem) (c : Ctl) (m : VMem) : Safe (execVst c m s) := by
  unfold execVst
  refine safe_next.2 (State.vxOrder_wf hs _ _ _ fun a ha => ?_)
  dsimp only
  split
  · exact leaves_error _
  · split
    · exact leaves_error _
    · exact (leaves_ok _).2 (wf_foldl ha (fun u j hu => State.writeBuf_wf hu _ _ _) _)
theorem execVstx_safe (hs : Memory.wf s.mem) (c : Ctl) (m : VMem) : Safe (execVstx c m s) := by
  unfold execVstx
  refine safe_next.2 (State.vxOrder_wf hs _ _ _ fun a ha => ?_)
  dsimp only
  repeat' split
  all_goals simp [ha]
theorem execVbfx_safe (hs : Memory.wf s.mem) (c : Ctl) (m : VMem) : Safe (execVbfx c m s) := by
  unfold execVbfx
  dsimp only
  refine safe_next.2 (State.vxOrder_wf hs _ _ _ fun a ha => ?_)
  split
  · exact leaves_error _
  · split
    · exact leaves_error _
    · split
      · exact leaves_error _
      · exact (leaves_ok _).2 (State.wrV_wf (wf_foldl ha (fun u k hu => State.correct_wf hu _ _ _) _) _ _)
theorem execBfxcfg_safe (hs : Memory.wf s.mem) (c : Ctl) (m : VMem) : Safe (execBfxcfg c m s) := by
  unfold execBfxcfg
  refine safe_next.2 (State.vxOrder_wf hs _ _ _ fun a ha => ?_)
  dsimp only
  split <;> simp [ha]
theorem execVacc_safe (hs : Memory.wf s.mem) (c : Ctl) (x : VAcc) : Safe (execVacc c x s) := by
  unfold execVacc
  refine safe_next.2 (State.vxOrder_wf hs _ _ _ fun a ha => ?_)
  dsimp only
  split
  · exact leaves_error _
  · split
    · exact leaves_error _
    · split
      · exact leaves_error _
      · split
        · exact leaves_error _
        · split
          · exact leaves_error _
          · exact (leaves_ok _).2 (State.wrV_wf (wf_foldl ha (fun u j hu => State.correct_wf hu _ _ _) _) _ _)
theorem execVseed_safe (hs : Memory.wf s.mem) (c : Ctl) (x : VX) : Safe (execVseed c x s) := by simp [execVseed, hs]
theorem execRank_safe (hs : Memory.wf s.mem) (c : Ctl) (x : VRank) : Safe (execRank c x s) := by
  unfold execRank
  dsimp only
  refine safe_next.2 (State.vxOrder_wf hs _ _ _ fun a ha => ?_)
  split
  · exact leaves_error _
  · split
    · exact leaves_error _
    · split
      · exact leaves_error _
      · split
        · exact leaves_error _
        · exact (leaves_ok _).2 (State.wrV_wf (wf_of_ite (wf_foldl ha (fun u i hu => State.correct_wf hu _ _ _) _) ha) _ _)
theorem execRkval_safe (hs : Memory.wf s.mem) (c : Ctl) (x : VRkval) : Safe (execRkval c x s) := by
  unfold execRkval
  dsimp only
  refine safe_next.2 (State.vxOrder_wf hs _ _ _ fun a ha => ?_)
  split
  · exact leaves_error _
  · split
    · exact leaves_error _
    · exact (leaves_ok _).2 (State.wrK_wf (wf_foldl ha (fun u m hu => State.wrV_wf hu _ _) _) _ _)

end Sys2Proof.Machine
end

section
/-! PROOFS. The canonical form of memory: movement and matrix words keep it. -/

namespace Sys2Proof.Machine
open Sys2Proof.Claims

variable {s : State}

theorem execCpin_safe (hs : Memory.wf s.mem) (c : Ctl) (o : CopyIn) : Safe (execCpin c o s) := by
  unfold execCpin
  refine safe_next.2 (State.moveOrder_wf hs fun a recs ha => ?_)
  split
  · exact leaves_error _
  · exact State.copyIn_leaves ha _ _ _ _ _
theorem execCpslot_safe (hs : Memory.wf s.mem) (c : Ctl) (o : CopySlot) : Safe (execCpslot c o s) := by
  unfold execCpslot
  refine safe_next.2 (State.moveOrder_wf hs fun a recs ha => ?_)
  dsimp only
  split <;> simp [ha]
theorem execXfetch_safe (hs : Memory.wf s.mem) (c : Ctl) (o : CopyIn) : Safe (execXfetch c o s) := by
  unfold execXfetch
  refine safe_next.2 (State.moveOrder_wf hs fun a recs ha => ?_)
  simp [ha]
theorem execCpout_safe (hs : Memory.wf s.mem) (c : Ctl) (o : CopyOut) : Safe (execCpout c o s) := by
  unfold execCpout
  refine safe_next.2 (State.moveOrder_wf hs fun a recs ha => ?_)
  simp [ha]
theorem execCpoutFlush_safe (hs : Memory.wf s.mem) (c : Ctl) (buf sw : Nat) : Safe (execCpoutFlush c buf sw s) := by
  unfold execCpoutFlush
  refine safe_next.2 (State.moveOrder_wf hs fun a recs ha => ?_)
  dsimp only
  split <;> simp [ha]
theorem execRel_safe (hs : Memory.wf s.mem) (c : Ctl) (o : SyncOp) : Safe (execRel c o s) := by
  unfold execRel
  refine safe_next.2 (State.moveOrder_wf hs fun a recs ha => ?_)
  have hread : ∀ n, Memory.wf (a.correct 3 n 8).mem := fun n => State.correct_wf ha _ _ _
  split
  · exact leaves_error _
  · dsimp only
    split
    · exact (leaves_ok _).2 (State.failNow_wf (hread _) _ _ _)
    · split
      · exact (leaves_ok _).2 (State.failNow_wf (hread _) _ _ _)
      · next u ph hu => exact (leaves_ok _).2 (State.addCmd_wf (State.arm_wf (hread _) hu) _)
theorem execXpost_safe (hs : Memory.wf s.mem) (c : Ctl) (o : CopyOut) : Safe (execXpost c o s) := by
  unfold execXpost
  refine safe_next.2 (State.moveOrder_wf hs fun a recs ha => ?_)
  simp [ha]
theorem execColl_safe (hs : Memory.wf s.mem) (c : Ctl) (o : CollOp) : Safe (execColl c o s) := by
  unfold execColl
  dsimp only
  refine safe_next.2 (State.moveOrder_wf hs fun a recs ha => ?_)
  split
  · exact leaves_error _
  · split
    · exact (leaves_ok _).2 (State.failNow_wf ha _ _ _)
    · split
      · exact leaves_error _
      · split
        · exact leaves_error _
        · have hread : ∀ m n r, Memory.wf ((a.correct 3 m n).setRegion r).mem := fun _ _ _ => State.setRegion_wf (State.correct_wf ha _ _ _) _
          split
          · exact (leaves_ok _).2 (State.failNow_wf (hread _ _ _) _ _ _)
          · split
            · exact (leaves_ok _).2 (State.failNow_wf (hread _ _ _) _ _ _)
            · next u ph hu => exact (leaves_ok _).2 (State.joinColl_wf (State.arm_wf (hread _ _ _) hu) _ _ _ _ _)
theorem execBind_safe (hs : Memory.wf s.mem) (c : Ctl) (buf sw h : Nat) : Safe (execBind c buf sw h s) := by
  unfold execBind
  refine safe_next.2 (State.moveOrder_wf hs fun a recs ha => ?_)
  dsimp only
  split
  · exact leaves_error _
  · split
    · exact (leaves_ok _).2 (State.failNow_wf ha _ _ _)
    · split
      · exact (leaves_ok _).2 (State.failNow_wf ha _ _ _)
      · split
        · exact (leaves_ok _).2 (State.failNow_wf ha _ _ _)
        · next b _ hb => exact (leaves_ok _).2 (State.orderEff_wf (State.arm_wf ha hb) _)
theorem execUnbind_safe (hs : Memory.wf s.mem) (c : Ctl) (buf sw : Nat) : Safe (execUnbind c buf sw s) := by
  unfold execUnbind
  refine safe_next.2 (State.moveOrder_wf hs fun a recs ha => ?_)
  dsimp only
  split <;> simp [ha]
theorem execLrflush_safe (hs : Memory.wf s.mem) (c : Ctl) (sw h : Nat) : Safe (execLrflush c sw h s) := by
  unfold execLrflush
  refine safe_next.2 (State.moveOrder_wf hs fun a recs ha => ?_)
  have heff : Memory.wf (a.orderEff [.uncache (a.recVa h)]).1.mem := State.orderEff_wf ha _
  dsimp only
  split
  · exact (leaves_ok _).2 (State.statusWrite_wf heff _ _)
  · next b _ hb =>
    have hw : Memory.wf b.mem := State.arm_wf heff hb
    exact (leaves_ok _).2 hw
theorem execLrflushFetch_safe (hs : Memory.wf s.mem) (c : Ctl) (sw h : Nat) : Safe (execLrflushFetch c sw h s) := by
  unfold execLrflushFetch
  refine safe_next.2 (State.moveOrder_wf hs fun a recs ha => ?_)
  have heff : Memory.wf (a.orderEff [.uncache (a.recVa h)]).1.mem := State.orderEff_wf ha _
  dsimp only
  split
  · exact (leaves_ok _).2 (State.statusWrite_wf heff _ _)
  · next b _ hb =>
    have hw : Memory.wf b.mem := State.arm_wf heff hb
    exact (leaves_ok _).2 (State.addCmd_wf hw _)
theorem execQfenceCico_safe (hs : Memory.wf s.mem) (c : Ctl) (_scope emask : Nat) : Safe (execQfenceCico c _scope emask s) := by
  unfold execQfenceCico
  dsimp only
  split
  · exact safe_next.2 hs
  · exact safe_next.2 (State.moveOrder_wf hs fun a _ ha => (leaves_ok _).2 ha)
theorem execMmas_safe (hs : Memory.wf s.mem) (c : Ctl) (o : MmaOp) : Safe (execMmas c o s) := by
  unfold execMmas
  dsimp only
  refine safe_next.2 (State.mxOrder_wf hs _ _ _ fun a ha => ?_)
  split
  · exact leaves_error _
  · split
    · exact leaves_error _
    · split
      · exact (leaves_ok _).2 (State.statusWrite_wf ha _ _)
      · next b ph hb =>
        have hw : Memory.wf b.mem := State.armOne_wf ha hb
        split
        · exact (leaves_ok _).2 (State.openShadow_wf (State.correctAccs_wf (State.correctOp_wf hw _) _) _ _ _)
        · exact (leaves_ok _).2 hw
theorem execRkmac_safe (hs : Memory.wf s.mem) (c : Ctl) (o : RkOp) : Safe (execRkmac c o s) := by
  unfold execRkmac
  dsimp only
  refine safe_next.2 (State.mxOrder_wf hs _ _ _ fun a ha => ?_)
  split
  · exact leaves_error _
  · split
    · exact leaves_error _
    · split
      · exact (leaves_ok _).2 (State.statusWrite_wf ha _ _)
      · next b ph hb =>
        exact (leaves_ok _).2 (State.correct_wf (State.correctAccs_wf (State.correctOp_wf (State.armOne_wf ha hb) _) _) _ _ _)
theorem execOclaim_safe (hs : Memory.wf s.mem) (c : Ctl) (slot : Nat) : Safe (execOclaim c slot s) := by
  unfold execOclaim
  refine safe_next.2 (State.mxOrder_wf hs _ _ _ fun a ha => ?_)
  simp [ha]
theorem execOrelease_safe (hs : Memory.wf s.mem) (c : Ctl) (slot : Nat) : Safe (execOrelease c slot s) := by
  unfold execOrelease
  refine safe_next.2 (State.mxOrder_wf hs _ _ _ fun a ha => ?_)
  simp [ha]
theorem execOload_safe (hs : Memory.wf s.mem) (c : Ctl) (slot bfx doff nb1 buf off : Nat) : Safe (execOload c slot bfx doff nb1 buf off s) := by
  unfold execOload
  refine safe_next.2 (State.mxOrder_wf hs _ _ _ fun a ha => ?_)
  dsimp only
  repeat' split
  all_goals simp [ha]
theorem execAclr_safe (hs : Memory.wf s.mem) (c : Ctl) (amask : Nat) : Safe (execAclr c amask s) := by simp [execAclr, hs]
theorem execAmov_safe (hs : Memory.wf s.mem) (c : Ctl) (ad asrc : Nat) : Safe (execAmov c ad asrc s) := by simp +contextual [execAmov, hs]
theorem execAmovAdd_safe (hs : Memory.wf s.mem) (c : Ctl) (ad asrc cls q : Nat) :
    Safe (execAmovAdd c ad asrc cls q s) := by simp +contextual [execAmovAdd, hs]
theorem execAmovMerge_safe (hs : Memory.wf s.mem) (c : Ctl) (ad asrc : Nat) :
    Safe (execAmovMerge c ad asrc s) := by simp +contextual [execAmovMerge, hs]
theorem execAout_safe (hs : Memory.wf s.mem) (c : Ctl) (acc f nrows1 rbase buf off : Nat) : Safe (execAout c acc f nrows1 rbase buf off s) := by
  unfold execAout
  refine safe_next.2 (State.mxOrder_wf hs _ _ _ fun a ha => ?_)
  dsimp only
  repeat' split
  all_goals simp [ha]
theorem execAstow_safe (hs : Memory.wf s.mem) (c : Ctl) (acc buf off : Nat) : Safe (execAstow c acc buf off s) := by
  unfold execAstow
  refine safe_next.2 (State.mxOrder_wf hs _ _ _ fun a ha => ?_)
  split
  · exact leaves_error _
  · exact (leaves_ok _).2 (State.laterWrite_wf (State.correctAcc_wf ha _) _ _ _ _)
theorem execArestore_safe (hs : Memory.wf s.mem) (c : Ctl) (acc buf off : Nat) : Safe (execArestore c acc buf off s) := by
  unfold execArestore
  refine safe_next.2 (State.mxOrder_wf hs _ _ _ fun a ha => ?_)
  dsimp only
  split <;> simp [ha]
theorem execNestgo_safe (hs : Memory.wf s.mem) (c : Ctl) (shp acc clrmask sw a b : Nat) : Safe (execNestgo c shp acc clrmask sw a b s) := by
  unfold execNestgo
  extract_lets t lv hd its q first occ lat cl rd
  clear_value its rd occ lat
  refine safe_next.2 (State.mxOrder_wf hs _ _ _ fun a ha => ?_)
  split
  · exact leaves_error _
  · extract_lets z
    have hz : Memory.wf z.mem := State.correctAccs_wf (State.correctOp_wf ha _) _
    clear_value z
    split
    · exact (leaves_ok _).2 (State.statusWrite_wf hz _ _)
    · next y ph hy =>
      have hw : Memory.wf y.mem := State.armOne_wf hz hy
      exact (leaves_ok _).2 hw
theorem execMxwait_safe (hs : Memory.wf s.mem) (c : Ctl) : Safe (execMxwait c s) := by simp [execMxwait, hs]
theorem execRkloadAtt_safe (hs : Memory.wf s.mem) (c : Ctl) (buf off : Nat) : Safe (execRkloadAtt c buf off s) := by
  unfold execRkloadAtt
  refine safe_next.2 (State.mxOrder_wf hs _ _ _ fun a ha => ?_)
  dsimp only
  split <;> simp [ha]
theorem execRkloadRct_safe (hs : Memory.wf s.mem) (c : Ctl) (buf off : Nat) : Safe (execRkloadRct c buf off s) := by
  unfold execRkloadRct
  refine safe_next.2 (State.mxOrder_wf hs _ _ _ fun a ha => ?_)
  dsimp only
  split <;> simp [ha]

end Sys2Proof.Machine
end

section
/-! PROOFS. The canonical form of memory: events keep it. -/

namespace Sys2Proof.Machine
open Sys2Proof.Claims

variable {s : State}

@[simp] theorem State.reply_wf (hs : Memory.wf s.mem) (vif code : Nat) (data : List Byte) (signed : Bool) :
    Memory.wf (s.reply vif code data signed).mem := hs
theorem State.setDraws_wf (hs : Memory.wf s.mem) (n : Nat) : Memory.wf ({ s with draws := n } : State).mem := hs
theorem execOrderRetire_safe (hs : Memory.wf s.mem) (n t id : Nat) : Safe (execOrderRetire n t id s) := by simp [execOrderRetire, hs]
theorem execLayoutRecordFetch_safe (hs : Memory.wf s.mem) (n t eng : Nat) : Safe (execLayoutRecordFetch n t eng s) := by
  unfold execLayoutRecordFetch
  dsimp only
  refine safe_next.2 ?_
  repeat' split
  all_goals simp +contextual [hs]
theorem execFillComplete_safe (hs : Memory.wf s.mem) (n t id : Nat) : Safe (execFillComplete n t id s) := by simp [execFillComplete, hs]
theorem execDrainComplete_safe (hs : Memory.wf s.mem) (n t id : Nat) : Safe (execDrainComplete n t id s) := by simp [execDrainComplete, hs]
theorem execLanding_safe (hs : Memory.wf s.mem) (n t id : Nat) : Safe (execLanding n t id s) := by
  unfold execLanding
  split <;> simp [hs]
theorem execLate_safe (hs : Memory.wf s.mem) (n : Nat) : Safe (execLate n s) := by simp [execLate, hs]
theorem execBytesPerformed_safe (hs : Memory.wf s.mem) (n t id : Nat) : Safe (execBytesPerformed n t id s) := by
  unfold execBytesPerformed
  cases s.cmdAt n t id with
  | none => exact safe_next.2 hs
  | some c =>
    refine safe_next.2 ?_
    dsimp only
    split
    · exact State.armCw_wf hs _ _ _ _
    · split
      · exact State.performIn_wf hs _ _ _
      · exact State.performIn_wf hs _ _ _
      · exact State.performIn_wf hs _ _ _
      · exact State.performOut_wf hs _ _ _
      · exact State.performOut_wf hs _ _ _
      · exact hs
theorem execRemoteTimeout_safe (hs : Memory.wf s.mem) (n t id : Nat) : Safe (execRemoteTimeout n t id s) := by
  unfold execRemoteTimeout
  refine safe_next.2 ?_
  split
  case h_2 => exact State.podTimeout_wf (State.fetchTimeout_wf (State.fetchTimeout_wf hs _ _ _) _ _ _) _ _
  case h_1 c _ =>
    have hlate : Memory.wf (s.endAtRetire n t c 4 []).mem := State.endAtRetire_wf hs _ _ _ _ _
    have hend : Memory.wf (s.endCommand n t c 4).mem := State.endCommand_wf hs _ _ _ _
    have hgive : Memory.wf (s.giveUpIn n t c).mem := State.giveUpIn_wf hs _ _ _
    refine wf_of_ite ?_ hs
    cases c.kind with
    | acq => exact hlate
    | acqCw => exact hlate
    | coll => exact hlate
    | fetch => exact hlate
    | atom => exact wf_of_ite hlate hend
    | xfetch => exact hgive
    | cpin => exact hgive
    | cpslot => exact hgive
    | _ => exact hend
theorem execSyeOperation_safe (hs : Memory.wf s.mem) (n t id : Nat) : Safe (execSyeOperation n t id s) := by
  unfold execSyeOperation
  cases s.cmdAt n t id with
  | none => exact safe_next.2 hs
  | some c =>
    refine safe_next.2 ?_
    dsimp only
    cases c.kind with
    | atom => exact State.doAtom_wf hs _ _ _
    | vatom => exact State.doLine_wf hs _ _ _
    | acq => exact State.doAcq_wf hs _ _ _
    | acqCw => exact State.doAcq_wf hs _ _ _
    | rel => exact wf_of_ite hs (wf_of_ite hs (State.doRel_wf hs _ _ _))
    | bindso => exact State.doBindso_wf hs _ _ _
    | _ => exact hs
theorem execRelFenceRelease_safe (hs : Memory.wf s.mem) (n t id : Nat) : Safe (execRelFenceRelease n t id s) := by
  unfold execRelFenceRelease
  split <;> simp [hs]
theorem execXpostArrival_safe (hs : Memory.wf s.mem) (msg : Nat) : Safe (execXpostArrival msg s) := by
  unfold execXpostArrival
  split <;> simp [hs]
theorem execHostRemoteAtomic_safe (hs : Memory.wf s.mem) (va op opd cmp vif : Nat) : Safe (execHostRemoteAtomic va op opd cmp vif s) := by
  unfold execHostRemoteAtomic
  dsimp only
  refine safe_next.2 ?_
  repeat' split
  all_goals simp +contextual [hs]
theorem execPreemptStop_safe (hs : Memory.wf s.mem) (n t : Nat) : Safe (execPreemptStop n t s) := by simp [execPreemptStop, hs]
theorem execMaxpd_safe (hs : Memory.wf s.mem) (slot : Nat) : Safe (execMaxpd slot s) := by simp [execMaxpd, hs]
theorem execStowSave_safe (hs : Memory.wf s.mem) (slot : Nat) : Safe (execStowSave slot s) := by simp [execStowSave, hs]
theorem execStow_safe (hs : Memory.wf s.mem) (slot evict : Nat) : Safe (execStow slot evict s) := by simp [execStow, hs]
theorem execResume_safe (hs : Memory.wf s.mem) (slot px py orient : Nat) : Safe (execResume slot px py orient s) := by simp [execResume, hs]
theorem execSegmentReplay_safe (hs : Memory.wf s.mem) (slot : Nat) : Safe (execSegmentReplay slot s) := by simp [execSegmentReplay, hs]
theorem execClockChange_safe (hs : Memory.wf s.mem) (slot : Nat) : Safe (execClockChange slot s) := by simp [execClockChange, hs]
theorem execMargin_safe (hs : Memory.wf s.mem) (tile : Nat) : Safe (execMargin tile s) := by
  unfold execMargin
  dsimp only
  refine safe_next.2 ?_
  repeat' split
  all_goals simp +contextual [hs]
theorem execMarginTileFail_safe (hs : Memory.wf s.mem) (tile : Nat) : Safe (execMarginTileFail tile s) := by
  unfold execMarginTileFail
  split <;> simp [hs]
theorem execHealthBitClear_safe (hs : Memory.wf s.mem) (tile bit : Nat) : Safe (execHealthBitClear tile bit s) := by simp [execHealthBitClear, hs]
theorem execScrubPatrol_safe (hs : Memory.wf s.mem) (src at_ kind : Nat) : Safe (execScrubPatrol src at_ kind s) := by simp [execScrubPatrol, hs]
theorem execEvqRead_safe (hs : Memory.wf s.mem) (_core : Nat) : Safe (execEvqRead _core s) := by simp [execEvqRead, hs]
theorem execCcInterrupt_safe (hs : Memory.wf s.mem) (core : Nat) : Safe (execCcInterrupt core s) := by simp [execCcInterrupt, hs]
theorem execTranslationWalk_safe (hs : Memory.wf s.mem) (slot va kind : Nat) : Safe (execTranslationWalk slot va kind s) := by
  unfold execTranslationWalk
  split <;> simp [hs]
theorem execWalkWatchdog_safe (hs : Memory.wf s.mem) (walker : Nat) : Safe (execWalkWatchdog walker s) := by simp [execWalkWatchdog, hs]
theorem execShootdown_safe (hs : Memory.wf s.mem) (_core : Nat) : Safe (execShootdown _core s) := by simp [execShootdown, hs]
theorem execPageScrubComplete_safe (hs : Memory.wf s.mem) (page : Nat) : Safe (execPageScrubComplete page s) := by simp [execPageScrubComplete, hs]
theorem execTileScrub_safe (hs : Memory.wf s.mem) (tile : Nat) : Safe (execTileScrub tile s) := by simp [execTileScrub, hs]
theorem execKeyGen_safe (hs : Memory.wf s.mem) (w : Nat) : Safe (execKeyGen w s) := by simp [execKeyGen, hs]
theorem execLinkTagFail_safe (hs : Memory.wf s.mem) (pa again : Nat) : Safe (execLinkTagFail pa again s) := by simp [execLinkTagFail, hs]
theorem execGetVersion_safe (hs : Memory.wf s.mem) (vif : Nat) : Safe (execGetVersion vif s) := by
  unfold execGetVersion
  exact safe_next.2 (wf_of_ite hs (State.reply_wf (State.setSpdm_wf hs _ _) _ _ _ _))
theorem execGetCapabilities_safe (hs : Memory.wf s.mem) (vif : Nat) : Safe (execGetCapabilities vif s) := by
  unfold execGetCapabilities
  exact safe_next.2 (State.request_wf hs _ _ _ _ _ fun u x hu => State.reply_wf (State.setSpdm_wf hu _ _) _ _ _ _)
theorem execNegotiateAlgorithms_safe (hs : Memory.wf s.mem) (vif algs : Nat) : Safe (execNegotiateAlgorithms vif algs s) := by
  unfold execNegotiateAlgorithms
  exact safe_next.2 (State.request_wf hs _ _ _ _ _ fun u x hu => State.reply_wf (State.setSpdm_wf hu _ _) _ _ _ _)
theorem execGetDigests_safe (hs : Memory.wf s.mem) (vif : Nat) : Safe (execGetDigests vif s) := by
  unfold execGetDigests
  exact safe_next.2 (State.request_wf hs _ _ _ _ _ fun u x hu => State.reply_wf hu _ _ _ _)
theorem execGetCertificate_safe (hs : Memory.wf s.mem) (vif slot : Nat) : Safe (execGetCertificate vif slot s) := by
  unfold execGetCertificate
  exact safe_next.2 (wf_of_ite (wf_of_ite hs (State.spdmFail_wf hs _ _)) (State.request_wf hs _ _ _ _ _ fun u x hu => State.reply_wf (State.setSpdm_wf hu _ _) _ _ _ _))
theorem execChallenge_safe (hs : Memory.wf s.mem) (vif nonce : Nat) : Safe (execChallenge vif nonce s) := by
  unfold execChallenge
  exact safe_next.2 (State.request_wf hs _ _ _ _ _ fun u x hu => State.reply_wf hu _ _ _ _)
theorem execGetMeasurements_safe (hs : Memory.wf s.mem) (vif nonce : Nat) : Safe (execGetMeasurements vif nonce s) := by
  unfold execGetMeasurements
  exact safe_next.2 (State.request_wf hs _ _ _ _ _ fun u x hu => State.reply_wf hu _ _ _ _)
theorem execKeyExchange_safe (hs : Memory.wf s.mem) (vif share : Nat) : Safe (execKeyExchange vif share s) := by
  unfold execKeyExchange
  exact safe_next.2 (State.request_wf hs _ _ _ _ _ fun u x hu => State.reply_wf (State.setDraws_wf (State.setSpdm_wf hu _ _) _) _ _ _ _)
theorem execFinish_safe (hs : Memory.wf s.mem) (vif mac : Nat) : Safe (execFinish vif mac s) := by
  unfold execFinish
  exact safe_next.2 (wf_of_ite (wf_of_ite hs (State.spdmFail_wf hs _ _)) (State.request_wf hs _ _ _ _ _ fun u x hu => State.reply_wf (State.setSpdm_wf hu _ _) _ _ _ _))
theorem execHeartbeat_safe (hs : Memory.wf s.mem) (vif : Nat) : Safe (execHeartbeat vif s) := by
  unfold execHeartbeat
  exact safe_next.2 (State.request_wf hs _ _ _ _ _ fun u x hu => State.reply_wf hu _ _ _ _)
theorem execKeyUpdate_safe (hs : Memory.wf s.mem) (vif : Nat) : Safe (execKeyUpdate vif s) := by
  unfold execKeyUpdate
  exact safe_next.2 (State.request_wf hs _ _ _ _ _ fun u x hu => State.reply_wf (State.setDraws_wf (State.setSpdm_wf hu _ _) _) _ _ _ _)
theorem execEndSession_safe (hs : Memory.wf s.mem) (vif : Nat) : Safe (execEndSession vif s) := by
  unfold execEndSession
  exact safe_next.2 (State.request_wf hs _ _ _ _ _ fun u x hu => State.reply_wf (State.setSpdm_wf hu _ _) _ _ _ _)
theorem execChunkGet_safe (hs : Memory.wf s.mem) (vif handle : Nat) : Safe (execChunkGet vif handle s) := by
  unfold execChunkGet
  exact safe_next.2 (State.request_wf hs _ _ _ _ _ fun u x hu => State.reply_wf hu _ _ _ _)
theorem execDeposit_safe (hs : Memory.wf s.mem) (vif va : Nat) (data : List Byte) : Safe (execDeposit vif va data s) := by
  unfold execDeposit
  refine safe_next.2 (State.request_wf hs _ _ _ _ _ fun u x hu => wf_of_ite (State.spdmFail_wf hu _ _) ?_)
  have hwrite := wf_wholeWrite hu (vifCtx vif) va data
  obtain ⟨r, hr⟩ : ∃ r, u.wholeWrite (vifCtx vif) va data = r := ⟨_, rfl⟩
  rw [hr] at hwrite ⊢
  obtain ⟨t, _ | c⟩ := r
  · exact hwrite
  · exact State.reply_wf hwrite _ _ _ _
theorem execBckey_safe (hs : Memory.wf s.mem) (vif chan key : Nat) : Safe (execBckey vif chan key s) := by
  unfold execBckey
  refine safe_next.2 (State.request_wf hs _ _ _ _ _ fun u x hu => ?_)
  exact wf_of_ite (State.spdmFail_wf hu _ _) (State.reply_wf (State.setBounce_wf hu _ _) _ _ _ _)
theorem execUnsupportedRequest_safe (hs : Memory.wf s.mem) (vif code : Nat) :
    Safe (execUnsupportedRequest vif code s) := by simp [execUnsupportedRequest, hs]
theorem execBounceEnable_safe (hs : Memory.wf s.mem) (chan : Nat) : Safe (execBounceEnable chan s) := by simp [execBounceEnable, hs]
theorem execPowerShed_safe (hs : Memory.wf s.mem) : Safe (execPowerShed s) := by
  unfold execPowerShed
  refine safe_next.2 (wf_of_ite hs ?_)
  split
  · exact hs
  · exact wf_foldl hs (fun u n hu => State.shedOne_wf hu _ _) _
theorem execPowerRestore_safe (hs : Memory.wf s.mem) : Safe (execPowerRestore s) := by
  unfold execPowerRestore
  split <;> simp [hs]
theorem execQueueWrite_safe (hs : Memory.wf s.mem) (vif off : Nat) (data : List Byte) :
    Safe (execQueueWrite vif off data s) := by simp [execQueueWrite, hs]
theorem execVifqDisable_safe (hs : Memory.wf s.mem) (vif : Nat) : Safe (execVifqDisable vif s) := by simp [execVifqDisable, hs]
theorem execLaunch_safe (hs : Memory.wf s.mem) (vif : Nat) : Safe (execLaunch vif s) := by simp [execLaunch, hs]
theorem execCancel_safe (hs : Memory.wf s.mem) (vif : Nat) : Safe (execCancel vif s) := by simp [execCancel, hs]
theorem execRelease_safe (hs : Memory.wf s.mem) (vif : Nat) : Safe (execRelease vif s) := by simp [execRelease, hs]
theorem execPad_safe (hs : Memory.wf s.mem) (vif : Nat) : Safe (execPad vif s) := by simp [execPad, hs]
theorem execPlaceInstance_safe (hs : Memory.wf s.mem) : Safe (execPlaceInstance s) := by
  unfold execPlaceInstance
  extract_lets s1 s2
  have hone : Memory.wf s1.mem := State.settleGraph_wf hs
  clear_value s1
  have htwo : Memory.wf s2.mem := State.placeFirst_wf hone _
  clear_value s2
  exact safe_next.2 (wf_of_ite hs (State.resumeAll_wf (wf_of_ite (State.makeMoves_wf hone _) htwo)))
theorem execRegionCut_safe (hs : Memory.wf s.mem) (slot : Nat) : Safe (execRegionCut slot s) := by simp [execRegionCut, hs]
theorem execBookmark_safe (hs : Memory.wf s.mem) (k id from' : Nat) : Safe (execBookmark k id from' s) := by
  unfold execBookmark
  extract_lets src issuer u x
  refine safe_next.2 (wf_of_ite hs ?_)
  have hu : Memory.wf u.mem := State.fixArea_wf hs _
  clear_value u
  refine wf_of_ite hu ?_
  have hmark (y : Snap) (l : List Out) : Memory.wf ((u.send l).setSnap k y).mem := State.setSnap_wf (State.send_wf hu _) _ _
  split
  · exact hu
  · exact wf_of_ite hu (wf_of_ite (hmark _ _) (State.startCut_wf hu _ _ _ _ _))
  · exact wf_of_ite (State.abortSnapshot_wf (hmark _ _) _) (wf_of_ite hu (State.closeChannel_wf hu _ _))
theorem execJobMessageArrival_safe (hs : Memory.wf s.mem) (msg : Nat) : Safe (execJobMessageArrival msg s) := by
  unfold execJobMessageArrival
  split <;> simp [hs]
theorem execCutReport_safe (hs : Memory.wf s.mem) (k id src : Nat) : Safe (execCutReport k id src s) := by simp [execCutReport, hs]
theorem execCommit_safe (hs : Memory.wf s.mem) (k id : Nat) : Safe (execCommit k id s) := by simp [execCommit, hs]
theorem execSnapshotAbort_safe (hs : Memory.wf s.mem) (k id : Nat) : Safe (execSnapshotAbort k id s) := by simp [execSnapshotAbort, hs]
theorem execSnapshotTimeout_safe (hs : Memory.wf s.mem) (k id : Nat) : Safe (execSnapshotTimeout k id s) := by simp [execSnapshotTimeout, hs]
theorem execPageCopy_safe (hs : Memory.wf s.mem) (page : Nat) : Safe (execPageCopy page s) := by simp [execPageCopy, hs]
theorem execBufferCopy_safe (hs : Memory.wf s.mem) (n t b : Nat) : Safe (execBufferCopy n t b s) := by simp [execBufferCopy, hs]
theorem execRollbackMarker_safe (hs : Memory.wf s.mem) (k id src : Nat) : Safe (execRollbackMarker k id src s) := by
  unfold execRollbackMarker
  extract_lets x s1
  have hone : Memory.wf s1.mem := wf_foldl hs (fun u m hu => wf_of_ite (State.dropMsg_wf hu m) hu) _
  clear_value s1
  exact safe_next.2 (wf_of_ite hs (wf_of_ite hs (wf_of_ite (State.setSnap_wf hone _ _) (wf_of_ite hone (State.rollStart_wf hone _ _ _ _)))))
theorem execFlitReceive_safe (hs : Memory.wf s.mem) (port : Nat) (flit : List Byte) : Safe (execFlitReceive port flit s) := by
  unfold execFlitReceive
  extract_lets x a c v y s1 s2
  refine safe_next.2 (wf_of_ite hs (wf_of_ite ?_ ?_))
  · have hone : Memory.wf s1.mem := State.setPort_wf hs _ _
    clear_value s1
    exact State.drainPort_wf _ _ _ (wf_of_ite (State.send_wf hone _) hone)
  · exact wf_of_ite (State.setPort_wf (State.send_wf hs _) _ _) (State.setPort_wf (State.send_wf hs _) _ _)
theorem execCollContribution_safe (hs : Memory.wf s.mem) (coll rank : Nat) (data : List Byte) : Safe (execCollContribution coll rank data s) := by
  unfold execCollContribution
  dsimp only
  refine safe_next.2 ?_
  repeat' split
  all_goals simp +contextual [hs]
theorem execCollAbandon_safe (hs : Memory.wf s.mem) (coll : Nat) : Safe (execCollAbandon coll s) := by
  unfold execCollAbandon
  split <;> simp [hs]
theorem execEthFrameReceive_safe (hs : Memory.wf s.mem) (port transport endpoint : Nat) (data : List Byte) :
    Safe (execEthFrameReceive port transport endpoint data s) := by simp [execEthFrameReceive, hs]
theorem execEthPortDown_safe (hs : Memory.wf s.mem) (port : Nat) : Safe (execEthPortDown port s) := by simp [execEthPortDown, hs]
theorem execTimebasePulse_safe (hs : Memory.wf s.mem) : Safe (execTimebasePulse s) := by simp [execTimebasePulse, hs]
theorem execColdReset_safe (s : State) : Safe (execColdReset s) := by
  unfold execColdReset
  exact safe_next.2 rfl
theorem execWarmReset_safe (hs : Memory.wf s.mem) : Safe (execWarmReset s) := by simp +contextual [execWarmReset, hs]
theorem execHbmChannelTraining_safe (hs : Memory.wf s.mem) (chan rdlo rdhi wrlo wrhi : Nat) (weak : List Nat) (confirm : Nat) :
    Safe (execHbmChannelTraining chan rdlo rdhi wrlo wrhi weak confirm s) := by simp [execHbmChannelTraining, hs]
theorem execUecDataWrite_safe (hs : Memory.wf s.mem) (vif va : Nat) (data : List Byte) : Safe (execUecDataWrite vif va data s) := by
  unfold execUecDataWrite
  extract_lets v
  rw [safe_ite]
  split
  · exact execQueueWrite_safe hs _ _ _
  · exact safe_next.2 (State.hostWrite_wf hs _ _ _)
theorem execFabricWindowAccess_safe (hs : Memory.wf s.mem) (world pa write : Nat) (data : List Byte) :
    Safe (execFabricWindowAccess world pa write data s) := by
  unfold execFabricWindowAccess
  extract_lets answer
  have hanswer (u : State) (code : Nat) (bs : List Byte) (hu : Memory.wf u.mem) : Memory.wf (answer u code bs).mem := State.send_wf hu _
  clear_value answer
  have hread : Memory.wf (s.readAt pa data.length).1.mem := State.readAt_wf hs _ _
  obtain ⟨r, hr⟩ : ∃ r, s.readAt pa data.length = r := ⟨_, rfl⟩
  rw [hr] at hread ⊢
  refine safe_next.2 (wf_of_ite (hanswer _ _ _ hs) (wf_of_ite (hanswer _ _ _ (State.syeWrite_wf _ _ _ _ (State.freePages_wf hs _ _))) ?_))
  obtain ⟨u, _ | bs⟩ := r
  · exact hanswer _ _ _ hread
  · exact hanswer _ _ _ hread
theorem execGuestTableChange_safe (hs : Memory.wf s.mem) (vif pa value : Nat) : Safe (execGuestTableChange vif pa value s) := by
  unfold execGuestTableChange
  extract_lets mine s1
  refine safe_next.2 (wf_of_ite hs (wf_of_ite (State.answer_wf hs _ _ _) (wf_of_ite hs ?_)))
  split
  · rw [State.startWalk_mem]
    exact hs
  · have hone : Memory.wf s1.mem := wf_wrPhys (State.freePages_wf hs _ _) _ _ _
    clear_value s1
    exact State.answer_wf (State.shoot_wf (wf_foldl hone (fun u r hu => State.mergeWord_wf hu _ _ _) _) _) _ _ _
theorem execEthPortUp_safe (hs : Memory.wf s.mem) (port : Nat) : Safe (execEthPortUp port s) := by simp [execEthPortUp, hs]
theorem execConfigStoreUpdate_safe (hs : Memory.wf s.mem) (pkg sigs : Nat) :
    Safe (execConfigStoreUpdate pkg sigs s) := by simp [execConfigStoreUpdate, hs]

end Sys2Proof.Machine
end

section
/-! PROOFS. The canonical form of memory: every instruction and every event keeps it. -/

namespace Sys2Proof.Machine
open Sys2Proof.Claims

variable {s : State}

/-- Every instruction leaves memory canonical. -/
theorem exec_safe (hs : Memory.wf s.mem) (i : Instr) : Safe (exec i s) := by
  cases i with
  | add => exact (State.alu2_safe hs _ _ _ _ : Safe (execAdd _ _ _ s))
  | sub => exact (State.alu2_safe hs _ _ _ _ : Safe (execSub _ _ _ s))
  | and => exact (State.alu2_safe hs _ _ _ _ : Safe (execAnd _ _ _ s))
  | or => exact (State.alu2_safe hs _ _ _ _ : Safe (execOr _ _ _ s))
  | xor => exact (State.alu2_safe hs _ _ _ _ : Safe (execXor _ _ _ s))
  | shl => exact (State.alu2_safe hs _ _ _ _ : Safe (execShl _ _ _ s))
  | shr => exact (State.alu2_safe hs _ _ _ _ : Safe (execShr _ _ _ s))
  | sra => exact (State.alu2_safe hs _ _ _ _ : Safe (execSra _ _ _ s))
  | slt => exact (State.alu2_safe hs _ _ _ _ : Safe (execSlt _ _ _ s))
  | sltn => exact (State.alu2_safe hs _ _ _ _ : Safe (execSltn _ _ _ s))
  | min => exact State.alu2_safe hs _ _ _ _
  | max => exact State.alu2_safe hs _ _ _ _
  | minn => exact State.alu2_safe hs _ _ _ _
  | maxn => exact State.alu2_safe hs _ _ _ _
  | sel => exact execSel_safe hs _ _ _ _
  | clz => exact State.alu1_safe hs _ _ _
  | ctz => exact State.alu1_safe hs _ _ _
  | popc => exact State.alu1_safe hs _ _ _
  | brev => exact State.alu1_safe hs _ _ _
  | mul => exact (State.mul2_safe hs _ _ _ _ : Safe (execMul _ _ _ s))
  | mulh => exact State.mul2_safe hs _ _ _ _
  | mulhn => exact State.mul2_safe hs _ _ _ _
  | div => exact State.div2_safe hs _ _ _ _
  | divn => exact State.div2_safe hs _ _ _ _
  | rem => exact State.div2_safe hs _ _ _ _
  | remn => exact State.div2_safe hs _ _ _ _
  | addi => exact (State.alu1_safe hs _ _ _ : Safe (execAddi _ _ _ s))
  | andi => exact (State.alu1_safe hs _ _ _ : Safe (execAndi _ _ _ s))
  | ori => exact (State.alu1_safe hs _ _ _ : Safe (execOri _ _ _ s))
  | xori => exact (State.alu1_safe hs _ _ _ : Safe (execXori _ _ _ s))
  | slti => exact (State.alu1_safe hs _ _ _ : Safe (execSlti _ _ _ s))
  | shli => exact (State.alu1_safe hs _ _ _ : Safe (execShli _ _ _ s))
  | shri => exact (State.alu1_safe hs _ _ _ : Safe (execShri _ _ _ s))
  | srai => exact (State.alu1_safe hs _ _ _ : Safe (execSrai _ _ _ s))
  | lui => exact execLui_safe hs _ _
  | ldb => exact State.loadWord_safe hs _ _ _ _ _ _
  | ldh => exact State.loadWord_safe hs _ _ _ _ _ _
  | ldw => exact State.loadWord_safe hs _ _ _ _ _ _
  | ldd => exact State.loadWord_safe hs _ _ _ _ _ _
  | ldbN => exact State.loadWord_safe hs _ _ _ _ _ _
  | ldhN => exact State.loadWord_safe hs _ _ _ _ _ _
  | ldwN => exact State.loadWord_safe hs _ _ _ _ _ _
  | stb => exact State.storeWord_safe hs _ _ _ _ _
  | sth => exact State.storeWord_safe hs _ _ _ _ _
  | stw => exact State.storeWord_safe hs _ _ _ _ _
  | std => exact State.storeWord_safe hs _ _ _ _ _
  | beq => exact (State.branchWord_safe hs _ _ _ _ : Safe (execBeq _ _ _ s))
  | bne => exact (State.branchWord_safe hs _ _ _ _ : Safe (execBne _ _ _ s))
  | blt => exact (State.branchWord_safe hs _ _ _ _ : Safe (execBlt _ _ _ s))
  | bge => exact (State.branchWord_safe hs _ _ _ _ : Safe (execBge _ _ _ s))
  | bltn => exact (State.branchWord_safe hs _ _ _ _ : Safe (execBltn _ _ _ s))
  | bgen => exact (State.branchWord_safe hs _ _ _ _ : Safe (execBgen _ _ _ s))
  | jal => exact (State.jumpLink_safe hs _ _ _ : Safe (execJal _ _ s))
  | jalr => exact (State.jumpLink_safe hs _ _ _ : Safe (execJalr _ _ _ s))
  | loop => exact execLoop_safe hs _ _
  | estart => exact execEstart_safe hs _ _ _
  | estop => exact execEstop_safe hs _
  | ebase => exact execEbase_safe hs _ _
  | ebaseTarget => exact execEbaseTarget_safe hs _ _
  | ewait => exact execEwait_safe hs _
  | rend => exact execRend_safe hs
  | frame => exact execFrame_safe hs
  | seg => exact execSeg_safe hs _
  | colo => exact execColo_safe hs _ _
  | waitc => exact execWaitc_safe hs _
  | bar => exact execBar_safe hs _ _
  | qfence scope emask => exact execQfence_safe hs scope emask
  | waitcw => exact execWaitcw_safe hs _ _
  | acommit => exact State.shadowWord_safe hs _ _
  | adiscard => exact State.shadowWord_safe hs _ _
  | nop => exact execNop_safe hs
  | srd => exact execSrd_safe hs _ _
  | swr => exact execSwr_safe hs _ _
  | trap => exact execTrap_safe hs _
  | eret => exact execEret_safe hs
  | time => exact execTime_safe hs _
  | snap => exact execSnap_safe hs _ _ _
  | rollb => exact execRollb_safe hs _ _ _
  | keyz => exact execKeyz_safe hs _ _
  | ldsys => exact execLdsys_safe hs _ _ _
  | stsys => exact execStsys_safe hs _ _ _
  | halt => exact execHalt_safe hs
  | stampFrame => exact State.stampWord_safe hs _ _
  | stampSeg => exact State.stampWord_safe hs _ _
  | fmtset => exact execFmtset_safe hs _ _ _
  | fmtsetMx => exact execFmtsetMx_safe hs _ _ _
  | nestcfg => exact execNestcfg_safe hs _ _ _
  | nestcfgMx => exact execNestcfgMx_safe hs _ _ _
  | vadd => exact (State.arith2_safe hs _ _ _ _ : Safe (execVadd _ _ s))
  | vsub => exact (State.arith2_safe hs _ _ _ _ : Safe (execVsub _ _ s))
  | vmul => exact (State.arith2_safe hs _ _ _ _ : Safe (execVmul _ _ s))
  | vfma => exact (State.arith3_safe hs _ _ _ _ : Safe (execVfma _ _ s))
  | vfms => exact (State.arith3_safe hs _ _ _ _ : Safe (execVfms _ _ s))
  | vmin => exact State.arith2_safe hs _ _ _ _
  | vmax => exact State.arith2_safe hs _ _ _ _
  | vabs => exact (State.arith1_safe hs _ _ _ _ : Safe (execVabs _ _ s))
  | vneg => exact (State.arith1_safe hs _ _ _ _ : Safe (execVneg _ _ s))
  | vdiv => exact (State.laneWise_safe hs _ _ _ _ _ _ _ _ _ _ : Safe (execVdiv _ _ s))
  | vrsqrt => exact State.trans_safe hs _ _ _
  | vexp2 => exact State.trans_safe hs _ _ _
  | vlog2 => exact State.trans_safe hs _ _ _
  | vsigm => exact State.trans_safe hs _ _ _
  | vtanh => exact State.trans_safe hs _ _ _
  | vcmp => exact execVcmp_safe hs _ _
  | vsel => exact execVsel_safe hs _ _
  | vand => exact State.bitwise_safe hs _ _ _ _
  | vor => exact State.bitwise_safe hs _ _ _ _
  | vxor => exact State.bitwise_safe hs _ _ _ _
  | vnot => exact (State.laneWise_safe hs _ _ _ _ _ _ _ _ _ _ : Safe (execVnot _ _ s))
  | vshl => exact (State.bitwise_safe hs _ _ _ _ : Safe (execVshl _ _ s))
  | vshr => exact (State.bitwise_safe hs _ _ _ _ : Safe (execVshr _ _ s))
  | vsra => exact (State.bitwise_safe hs _ _ _ _ : Safe (execVsra _ _ s))
  | vmulhi => exact (State.bitwise_safe hs _ _ _ _ : Safe (execVmulhi _ _ s))
  | vcvt => exact execVcvt_safe hs _ _
  | vpack => exact execVpack_safe hs _ _
  | vunpk => exact execVunpk_safe hs _ _
  | vperm => exact execVperm_safe hs _ _
  | vbcast => exact execVbcast_safe hs _ _
  | vmovkAnd => exact (State.maskOp_safe hs _ _ _ _ : Safe (execVmovkAnd _ _ s))
  | vmovkOr => exact (State.maskOp_safe hs _ _ _ _ : Safe (execVmovkOr _ _ s))
  | vmovkXor => exact (State.maskOp_safe hs _ _ _ _ : Safe (execVmovkXor _ _ s))
  | vmovkNot => exact (State.maskOp_safe hs _ _ _ _ : Safe (execVmovkNot _ _ s))
  | vmovkKv => exact execVmovkKv_safe hs _ _
  | vmovkVk => exact execVmovkVk_safe hs _ _
  | vmovkVq => exact execVmovkVq_safe hs _ _
  | vmovkQv => exact execVmovkQv_safe hs _ _
  | vredsum => exact execVredsum_safe hs _ _
  | vredmax => exact execVredmax_safe hs _ _
  | vld => exact State.vload_safe hs _ _ _
  | vst => exact execVst_safe hs _ _
  | vldx => exact State.vload_safe hs _ _ _
  | vstx => exact execVstx_safe hs _ _
  | vbfx => exact execVbfx_safe hs _ _
  | bfxcfg => exact execBfxcfg_safe hs _ _
  | vacc => exact execVacc_safe hs _ _
  | vaddm => exact (State.modular_safe hs _ _ _ _ : Safe (execVaddm _ _ s))
  | vsubm => exact (State.modular_safe hs _ _ _ _ : Safe (execVsubm _ _ s))
  | vmulm => exact (State.modular_safe hs _ _ _ _ : Safe (execVmulm _ _ s))
  | vntt => exact (State.butterfly_safe hs _ _ _ _ : Safe (execVntt _ _ s))
  | vintt => exact (State.butterfly_safe hs _ _ _ _ : Safe (execVintt _ _ s))
  | vhash => exact (State.laneWise_safe hs _ _ _ _ _ _ _ _ _ _ : Safe (execVhash _ _ s))
  | vseed => exact execVseed_safe hs _ _
  | rank => exact execRank_safe hs _ _
  | rkval => exact execRkval_safe hs _ _
  | cpin => exact execCpin_safe hs _ _
  | cpslot => exact execCpslot_safe hs _ _
  | xfetch => exact execXfetch_safe hs _ _
  | acq => exact State.acqOrder_safe hs _ _ _ _
  | acqCw => exact State.acqOrder_safe hs _ _ _ _
  | cpout => exact execCpout_safe hs _ _
  | cpoutFlush => exact execCpoutFlush_safe hs _ _ _
  | rel => exact execRel_safe hs _ _
  | xpost => exact execXpost_safe hs _ _
  | coll => exact execColl_safe hs _ _
  | atomAdd => exact State.atomOrder_safe hs _ _ _
  | atomAnd => exact State.atomOrder_safe hs _ _ _
  | atomOr => exact State.atomOrder_safe hs _ _ _
  | atomXor => exact State.atomOrder_safe hs _ _ _
  | atomMin => exact State.atomOrder_safe hs _ _ _
  | atomMax => exact State.atomOrder_safe hs _ _ _
  | atomSwap => exact State.atomOrder_safe hs _ _ _
  | atomCas => exact State.atomOrder_safe hs _ _ _
  | atomFadd => exact State.atomOrder_safe hs _ _ _
  | vaor => exact State.vatomOrder_safe hs _ _ _
  | vaadd => exact State.vatomOrder_safe hs _ _ _
  | vamax => exact State.vatomOrder_safe hs _ _ _
  | bind => exact execBind_safe hs _ _ _ _
  | unbind => exact execUnbind_safe hs _ _ _
  | bstateEmpty => exact State.bstate_safe hs _ _ _
  | bstateFull => exact State.bstate_safe hs _ _ _
  | lrflush => exact execLrflush_safe hs _ _ _
  | lrflushFetch => exact execLrflushFetch_safe hs _ _ _
  | bindso => exact State.bindsoOrder_safe hs _ _ _ _ _
  | bindsoRemove => exact State.bindsoOrder_safe hs _ _ _ _ _
  | qfenceCico c scope emask => exact execQfenceCico_safe hs c scope emask
  | send => exact (State.sendOrder_safe hs _ _ _ _ _ _ _ _ : Safe (execSend _ _ s))
  | recv => exact (State.recvOrder_safe hs _ _ _ _ _ _ _ : Safe (execRecv _ _ s))
  | sendk => exact (State.sendOrder_safe hs _ _ _ _ _ _ _ _ : Safe (execSendk _ _ s))
  | recvk => exact (State.recvOrder_safe hs _ _ _ _ _ _ _ : Safe (execRecvk _ _ s))
  | mma => exact State.denseOrder_safe hs _ _ _
  | mmas => exact execMmas_safe hs _ _
  | mmul => exact State.denseOrder_safe hs _ _ _
  | rkmac => exact execRkmac_safe hs _ _
  | oclaim => exact execOclaim_safe hs _ _
  | orelease => exact execOrelease_safe hs _ _
  | oload => exact execOload_safe hs _ _ _ _ _ _ _
  | aclr => exact execAclr_safe hs _ _
  | amov => exact execAmov_safe hs _ _ _
  | amovAdd => exact execAmovAdd_safe hs _ _ _ _ _
  | amovMerge => exact execAmovMerge_safe hs _ _ _
  | aout => exact execAout_safe hs _ _ _ _ _ _ _
  | astow => exact execAstow_safe hs _ _ _ _
  | arestore c acc buf off => exact execArestore_safe hs c acc buf off
  | nestgo c shp acc clrmask sw a b => exact execNestgo_safe hs c shp acc clrmask sw a b
  | mxwait => exact execMxwait_safe hs _
  | rkloadAtt => exact execRkloadAtt_safe hs _ _ _
  | rkloadRct => exact execRkloadRct_safe hs _ _ _
  | orderRetire => exact execOrderRetire_safe hs _ _ _
  | layoutRecordFetch => exact execLayoutRecordFetch_safe hs _ _ _
  | fillComplete => exact execFillComplete_safe hs _ _ _
  | drainComplete => exact execDrainComplete_safe hs _ _ _
  | landing => exact execLanding_safe hs _ _ _
  | late => exact execLate_safe hs _
  | bytesPerformed => exact execBytesPerformed_safe hs _ _ _
  | remoteTimeout => exact execRemoteTimeout_safe hs _ _ _
  | transferArrival => exact (safe_next.2 (State.arrivals_wf hs _ _) : Safe (execTransferArrival _ _ s))
  | syeOperation => exact execSyeOperation_safe hs _ _ _
  | relFenceRelease => exact execRelFenceRelease_safe hs _ _ _
  | xpostArrival => exact execXpostArrival_safe hs _
  | hostRemoteAtomic => exact execHostRemoteAtomic_safe hs _ _ _ _ _
  | preemptStop => exact execPreemptStop_safe hs _ _
  | maxpd => exact execMaxpd_safe hs _
  | stowSave => exact execStowSave_safe hs _
  | stow => exact execStow_safe hs _ _
  | resume => exact execResume_safe hs _ _ _ _
  | thaw => exact (safe_next.2 (State.cmdThaw_wf hs _) : Safe (execThaw _ s))
  | replay => exact (safe_next.2 (State.cmdReplay_wf hs _) : Safe (execReplay _ s))
  | freeze => exact (safe_next.2 (State.cmdFreeze_wf hs _) : Safe (execFreeze _ s))
  | abort => exact (safe_next.2 (State.cmdAbort_wf hs _ _) : Safe (execAbort _ _ s))
  | segmentReplay => exact execSegmentReplay_safe hs _
  | clockChange => exact execClockChange_safe hs _
  | margin => exact execMargin_safe hs _
  | marginTileFail => exact execMarginTileFail_safe hs _
  | healthBitClear => exact execHealthBitClear_safe hs _ _
  | scrubPatrol => exact execScrubPatrol_safe hs _ _ _
  | evqRead core => exact execEvqRead_safe hs core
  | ccInterrupt => exact execCcInterrupt_safe hs _
  | translationWalk => exact execTranslationWalk_safe hs _ _ _
  | walkWatchdog => exact execWalkWatchdog_safe hs _
  | shootdown core => exact execShootdown_safe hs core
  | shootdownAck => exact (safe_next.2 (State.ackShoot_wf hs _) : Safe (execShootdownAck _ s))
  | potAssign => exact (safe_next.2 (State.potEvent_wf hs _ _ _ _) : Safe (execPotAssign _ _ _ s))
  | potRelease => exact (safe_next.2 (State.potEvent_wf hs _ _ _ _) : Safe (execPotRelease _ _ _ s))
  | potBounce => exact (safe_next.2 (State.potEvent_wf hs _ _ _ _) : Safe (execPotBounce _ _ _ s))
  | potUnbounce => exact (safe_next.2 (State.potEvent_wf hs _ _ _ _) : Safe (execPotUnbounce _ _ _ s))
  | pageScrubComplete => exact execPageScrubComplete_safe hs _
  | tileScrub => exact execTileScrub_safe hs _
  | keyGen => exact execKeyGen_safe hs _
  | linkTagFail => exact execLinkTagFail_safe hs _ _
  | getVersion => exact execGetVersion_safe hs _
  | getCapabilities => exact execGetCapabilities_safe hs _
  | negotiateAlgorithms => exact execNegotiateAlgorithms_safe hs _ _
  | getDigests => exact execGetDigests_safe hs _
  | getCertificate => exact execGetCertificate_safe hs _ _
  | challenge => exact execChallenge_safe hs _ _
  | getMeasurements => exact execGetMeasurements_safe hs _ _
  | keyExchange => exact execKeyExchange_safe hs _ _
  | finish => exact execFinish_safe hs _ _
  | heartbeat => exact execHeartbeat_safe hs _
  | keyUpdate => exact execKeyUpdate_safe hs _
  | endSession => exact execEndSession_safe hs _
  | chunkGet => exact execChunkGet_safe hs _ _
  | deposit => exact execDeposit_safe hs _ _ _
  | bckey => exact execBckey_safe hs _ _ _
  | unsupportedRequest => exact execUnsupportedRequest_safe hs _ _
  | bounceEnable => exact execBounceEnable_safe hs _
  | bounceFrameIn => exact (safe_next.2 (State.frameIn_wf hs _) : Safe (execBounceFrameIn _ s))
  | bounceFrameOut => exact (safe_next.2 (State.frameOut_wf hs _) : Safe (execBounceFrameOut _ s))
  | powerShed => exact execPowerShed_safe hs
  | powerRestore => exact execPowerRestore_safe hs
  | queueWrite => exact execQueueWrite_safe hs _ _ _
  | vifqEnable => exact (safe_next.2 (State.enableVif_wf hs _) : Safe (execVifqEnable _ s))
  | vifqDisable => exact execVifqDisable_safe hs _
  | launch => exact execLaunch_safe hs _
  | cancel => exact execCancel_safe hs _
  | release => exact execRelease_safe hs _
  | pad => exact execPad_safe hs _
  | placeInstance => exact execPlaceInstance_safe hs
  | snareaWrite => exact (safe_next.2 (State.writeSnarea_wf hs _) : Safe (execSnareaWrite _ s))
  | regionCut => exact execRegionCut_safe hs _
  | bookmark => exact execBookmark_safe hs _ _ _
  | jobMessageArrival => exact execJobMessageArrival_safe hs _
  | cutReport => exact execCutReport_safe hs _ _ _
  | commit => exact execCommit_safe hs _ _
  | snapshotAbort => exact execSnapshotAbort_safe hs _ _
  | snapshotTimeout => exact execSnapshotTimeout_safe hs _ _
  | pageCopy => exact execPageCopy_safe hs _
  | bufferCopy => exact execBufferCopy_safe hs _ _ _
  | rollbackMarker => exact execRollbackMarker_safe hs _ _ _
  | flitReceive => exact execFlitReceive_safe hs _ _
  | collContribution => exact execCollContribution_safe hs _ _ _
  | collAbandon => exact execCollAbandon_safe hs _
  | ethFrameReceive => exact execEthFrameReceive_safe hs _ _ _ _
  | ethPortDown => exact execEthPortDown_safe hs _
  | timebasePulse => exact execTimebasePulse_safe hs
  | coldReset => exact execColdReset_safe _
  | warmReset => exact execWarmReset_safe hs
  | hbmChannelTraining => exact execHbmChannelTraining_safe hs _ _ _ _ _ _ _
  | uecDataWrite => exact execUecDataWrite_safe hs _ _ _
  | fabricWindowAccess => exact execFabricWindowAccess_safe hs _ _ _ _
  | guestTableChange => exact execGuestTableChange_safe hs _ _ _
  | keyzComplete => exact (safe_next.2 (State.keyzDone_wf hs _) : Safe (execKeyzComplete _ s))
  | ethPortUp => exact execEthPortUp_safe hs _
  | configStoreUpdate => exact execConfigStoreUpdate_safe hs _ _

end Sys2Proof.Machine
end

section
/-! PROOFS. The canonical form of memory: the agents, the moves of the agenda and the step keep it. -/

namespace Sys2Proof.Machine
open Sys2Proof.Claims

variable {s : State}

/-! ### Words at the front of an agent's store -/

theorem HbOnly.wf {t : State} (h : HbOnly s t) (hs : Memory.wf s.mem) : Memory.wf t.mem := by
  obtain ⟨l, rfl⟩ := h
  exact hs
theorem State.setCur_wf (hs : Memory.wf s.mem) (c : Cur) : Memory.wf ({ s with cur := c } : State).mem := hs
theorem State.setAgenda_wf (hs : Memory.wf s.mem) (l : List Move) : Memory.wf ({ s with agenda := l } : State).mem := hs
theorem State.execAt_safe (hs : Memory.wf s.mem) (a : Agent) (t e k : Nat) (ws : List Code) (ok : Decoded → Bool) :
    Safe (s.execAt a t e k ws ok) := by
  unfold State.execAt
  split
  · exact safe_next.2 (State.takeTrap_wf (State.setCur_wf hs _) _)
  · extract_lets u
    have hu : Memory.wf u.mem := State.setCur_wf hs _
    clear_value u
    rw [safe_ite]
    split
    · exact exec_safe hu _
    · exact safe_next.2 (State.takeTrap_wf hu _)
theorem State.coreStep_safe (hs : Memory.wf s.mem) (n : Nat) : Safe (s.coreStep n) := by
  have hset (c : CCore) : Memory.wf (s.setCore n c).mem := by
    rw [State.setCore_mem]
    exact hs
  unfold State.coreStep
  extract_lets c
  simp only [safe_ite, safe_next, wf_ite, hset, hs, ite_self, State.execAt_safe]
theorem State.walkerStep_safe (hs : Memory.wf s.mem) (n : Nat) : Safe (s.walkerStep n) := by
  unfold State.walkerStep
  extract_lets w ws a s1
  have hone : Memory.wf s1.mem := State.fixLines_wf _ _ _ _ hs
  clear_value s1
  rw [safe_ite]
  split
  · exact safe_next.2 hs
  · rw [safe_ite]
    split
    · exact safe_next.2 (State.spoilWalk_wf (State.takeTrap_wf (State.setCur_wf hone _) _))
    · exact State.execAt_safe hone _ _ _ _ _ _
theorem State.look_safe (hs : Memory.wf s.mem) (n t e : Nat) : Safe (s.look n t e) := by
  unfold State.look
  extract_lets x k ws
  rw [safe_ite]
  split
  · exact safe_next.2 hs
  · rw [safe_ite]
    split
    · exact safe_next.2 (State.takeTrap_wf (State.setCur_wf hs _) _)
    · exact State.execAt_safe (State.correctAt_wf hs _ _ _ _ _) _ _ _ _ _ _

/-! ### Regions -/

theorem State.issueStep_safe (hs : Memory.wf s.mem) (n : Nat) : Safe (s.issueStep n) := by
  unfold State.issueStep
  extract_lets r t i _ s1 x e s2 _ s3
  have hone : Memory.wf s1.mem := wf_of_ite (State.setTileAt_wf hs _ _ _) hs
  clear_value s1
  have htwo : Memory.wf s2.mem := wf_of_ite (State.arrivals_wf hone _ _) hone
  clear_value s2
  have hthree : Memory.wf s3.mem := State.setSlot_wf htwo _ _
  clear_value s3
  have hlook : Safe (s3.look n t e) := State.look_safe hthree _ _ _
  obtain ⟨o, ho⟩ : ∃ o, s3.look n t e = o := ⟨_, rfl⟩
  rw [ho] at hlook ⊢
  cases o with
  | next u =>
    have hu : Memory.wf u.mem := safe_next.1 hlook
    exact safe_next.2 (wf_of_ite (State.setSlot_wf hu _ _) ((State.lookKnown_hb _ _ _ _ _ _).wf hu))
  | _ => exact hlook
theorem State.holdStep_wf (hs : Memory.wf s.mem) (n : Nat) : Memory.wf (s.holdStep n).mem :=
  wf_of_ite (State.setSlot_wf hs _ _) (wf_of_ite (State.raiseLate_wf hs _) (State.setSlot_wf hs _ _))
theorem State.boundaryStep_wf (hs : Memory.wf s.mem) (n : Nat) : Memory.wf (s.boundaryStep n).mem := by
  simp [State.boundaryStep, hs, State.holdStep_wf]
theorem State.heldStep_wf (hs : Memory.wf s.mem) (n : Nat) : Memory.wf (s.heldStep n).mem := by simp [State.heldStep, hs]
theorem State.endedStep_wf (hs : Memory.wf s.mem) (n : Nat) : Memory.wf (s.endedStep n).mem := by simp [State.endedStep, hs]
theorem State.endHandlerCycle_wf (hs : Memory.wf s.mem) (n : Nat) : Memory.wf (s.endHandlerCycle n).mem := by
  simp +contextual [State.endHandlerCycle, hs]
theorem State.handlerStep_safe (hs : Memory.wf s.mem) (n : Nat) : Safe (s.handlerStep n) := by
  unfold State.handlerStep
  extract_lets r t s1 x k ws
  have hone : Memory.wf s1.mem := State.setSlot_wf hs _ _
  clear_value s1
  rw [safe_ite]
  split
  · exact safe_next.2 (State.endHandlerCycle_wf hs _)
  · rw [safe_ite]
    split
    · exact safe_next.2 hone
    · rw [safe_ite]
      split
      · exact safe_next.2 (State.takeTrap_wf (State.setCur_wf hone _) _)
      · exact State.execAt_safe (State.correctAt_wf hone _ _ _ _ _) _ _ _ _ _ _
theorem State.frozenStep_safe (hs : Memory.wf s.mem) (n : Nat) : Safe (s.frozenStep n) := by
  unfold State.frozenStep
  simp only [safe_ite, safe_next, wf_ite, State.handlerStep_safe hs, State.replayNow_wf hs, hs, State.tryRoll_wf hs, ite_self]
theorem State.finishCycle_wf (hs : Memory.wf s.mem) (n : Nat) : Memory.wf (s.finishCycle n).mem := by simp [State.finishCycle, hs]
theorem State.regionStep_safe (hs : Memory.wf s.mem) (n : Nat) : Safe (s.regionStep n) := by
  have hdone {u : State} (hu : Memory.wf u.mem) : Memory.wf (s.doneKnown u).mem := (State.doneKnown_hb s u).wf hu
  unfold State.regionStep
  extract_lets r
  cases r.st with
  | running =>
    simp only [safe_ite, safe_next, State.endedStep_wf hs, State.heldStep_wf hs, State.issueStep_safe hs,
      hdone (State.finishCycle_wf hs n), hdone (State.boundaryStep_wf hs n), ite_self]
  | frozen => exact State.frozenStep_safe hs n
  | stowed => exact safe_next.2 (wf_of_ite (State.evictNow_wf hs _) (State.awaitCtx_wf hs _))
  | _ => exact safe_next.2 hs
theorem State.runAgent_safe (hs : Memory.wf s.mem) (a : Agent) : Safe (s.runAgent a) := by
  have hfault : Safe (.fault .noSuchAgent) := fun _ h => nomatch h
  cases a with
  | core n => simp only [State.runAgent, safe_ite, State.coreStep_safe hs, hfault, ite_self]
  | walker n => simp only [State.runAgent, safe_ite, State.walkerStep_safe hs, hfault, ite_self]
  | region n => simp only [State.runAgent, safe_ite, State.regionStep_safe hs, hfault, ite_self]

/-! ### The agenda and the step -/

theorem State.upset_wf (hs : Memory.wf s.mem) (space key kind : Nat) : Memory.wf (s.upset space key kind).mem := by simp [State.upset, hs]
theorem State.known_safe {o : Out3} (ho : Safe o) : Safe (s.known o) := by
  cases o with
  | next u => exact safe_next.2 ((State.doneKnown_hb s u).wf (safe_next.1 ho))
  | _ => exact ho
theorem State.move_safe (hs : Memory.wf s.mem) (m : Move) : Safe (s.move m) := by
  cases m with
  | event i =>
    unfold State.move
    rw [safe_ite]
    split
    · exact State.known_safe (exec_safe hs i)
    · exact safe_next.2 hs
  | turn a => exact State.runAgent_safe hs a
  | power => exact safe_next.2 hs
  | tick => exact safe_next.2 hs
  | arrive => exact safe_next.2 hs
  | upset => exact safe_next.2 (State.upset_wf hs _ _ _)
  | podBar => exact safe_next.2 (State.podArrive_wf hs _ _ _ _)
  | ring => exact safe_next.2 (State.hostRing_wf hs _ _ _)
  | phase => exact safe_next.2 (State.phaseStep_wf hs)
  | flit => exact safe_next.2 (State.sendFlit_wf hs _ _ _ _)
  | refused => exact safe_next.2 (State.flitRefused_wf hs _ _)
  | linkTrained => exact safe_next.2 (State.linkTrained_wf hs _ _)
  | vlan => exact safe_next.2 (State.setVlan_wf hs _ _)
  | reportTo => exact safe_next.2 (State.setReportTo_wf hs _ _)
  | collLimit => exact safe_next.2 (State.setCollLimit_wf hs _)
  | gate => exact safe_next.2 (State.gateDies_wf hs _)
  | sealLog => exact safe_next.2 (State.flushLog_wf hs)
  | uecRead => exact safe_next.2 (State.uecRead_wf hs _ _ _)
  | migrate => exact safe_next.2 (State.migrate_wf hs _ _ _ _ _)
  | rollFailed => exact safe_next.2 (State.rollFailedThere_wf hs _ _)
  | jobEnded => exact safe_next.2 hs
theorem State.stepOnce_safe (hs : Memory.wf s.mem) : Safe s.stepOnce := by
  unfold State.stepOnce
  split
  · exact State.runAgent_safe hs _
  · exact State.move_safe (State.setAgenda_wf hs _) _
theorem State.stepAll_safe (hs : Memory.wf s.mem) : Safe s.stepAll := by
  have honce : Safe s.stepOnce := State.stepOnce_safe hs
  unfold State.stepAll
  obtain ⟨o, ho⟩ : ∃ o, s.stepOnce = o := ⟨_, rfl⟩
  rw [ho] at honce ⊢
  cases o with
  | next u =>
    dsimp only
    split
    · exact honce
    · exact State.stepOnce_safe (wf_foldl hs (fun v b hv => State.copyBuffer_wf hv _ _ _) _)
  | _ => exact honce

end Sys2Proof.Machine

namespace Sys2Proof.Proofs
open Sys2Proof.Machine Sys2Proof.Claims

/-- Settles O5: every word and every event leaves memory canonical, and a step runs one of them. -/
theorem stepKeepsMemory : Obligations.StepKeepsMemory :=
  fun _ t hs hstep => State.stepAll_safe hs t hstep

end Sys2Proof.Proofs
end
